-- ==== Sys2Proof/Word.lean ====
section
/-! DEFINITION. The widths of the machine: a BAR0 register word (R5), a byte, and a byte string such as a frame,
a bit-stream or a buffer of host memory. -/

namespace Sys2Proof

/-- A 32-bit register word (R5). -/
abbrev Word := BitVec 32

/-- A byte. -/
abbrev Byte := BitVec 8

/-- A byte string, first byte first. -/
abbrev Bytes := List Byte

end Sys2Proof
end

