-- ==== Sys2Proof/Machine/Bytes.lean ====
section
/-! DEFINITION. Byte-order helpers (R11): little-endian for records, ring packets and bit-stream sections,
big-endian for the Head Link Protocol, keys, digests and signatures; and the CRC-32 of R146. -/

namespace Sys2Proof

/-- The bytes `off … off + n - 1` of `b` (fewer where `b` is shorter). -/
def Bytes.slice (b : Bytes) (off n : Nat) : Bytes := (b.drop off).take n

/-- The little-endian number that a byte string spells. -/
def leNat : Bytes → Nat
  | [] => 0
  | x :: xs => x.toNat + 256 * leNat xs

/-- The big-endian number that a byte string spells, after the number `acc`. -/
def beNatAcc (acc : Nat) : Bytes → Nat
  | [] => acc
  | x :: xs => beNatAcc (acc * 256 + x.toNat) xs

/-- The big-endian number that a byte string spells. -/
def beNat (b : Bytes) : Nat := beNatAcc 0 b

/-- The `n` little-endian bytes of `v`. -/
def leBytes : Nat → Nat → Bytes
  | 0, _ => []
  | n + 1, v => BitVec.ofNat 8 v :: leBytes n (v / 256)

/-- The `n` big-endian bytes of `v`. -/
def beBytes (n v : Nat) : Bytes := (leBytes n v).reverse

/-- Little-endian field of `n` bytes at `off`. -/
def Bytes.le (b : Bytes) (off n : Nat) : Nat := leNat (b.slice off n)

/-- Big-endian field of `n` bytes at `off`. -/
def Bytes.be (b : Bytes) (off n : Nat) : Nat := beNat (b.slice off n)

/-- The byte at `off`, 0 beyond the end. -/
def Bytes.u8 (b : Bytes) (off : Nat) : Nat := ((b.drop off).headD 0).toNat

/-- Whether every byte of the field of `n` bytes at `off` is zero. -/
def Bytes.zero (b : Bytes) (off n : Nat) : Bool := (b.slice off n).all (· == 0)

/-- `v` read as a two's-complement number of `w` bits. -/
def signed (w v : Nat) : Int := if 2 * (v % 2 ^ w) < 2 ^ w then (v % 2 ^ w : Nat) else (v % 2 ^ w : Nat) - (2 ^ w : Nat)

/-- The `w`-bit two's-complement pattern of `v`, as a number. -/
def pattern (w : Nat) (v : Int) : Nat := (v % ((2 ^ w : Nat) : Int)).toNat

/-- Clamp to a signed range. -/
def clampInt (lo hi v : Int) : Int := if v < lo then lo else if hi < v then hi else v

/-- Saturate at the largest number of `w` bits. -/
def satNat (w v : Nat) : Nat := min v (2 ^ w - 1)

/-- Saturate a signed value to `w` bits. -/
def satInt (w : Nat) (v : Int) : Int := clampInt (-((2 ^ (w - 1) : Nat) : Int)) ((2 ^ (w - 1) : Nat) - 1) v

/-- Pad a byte string with zeros to a multiple of `m`. -/
def padTo (m : Nat) (b : Bytes) : Bytes := b ++ List.replicate ((m - b.length % m) % m) 0

/-- Split a byte string into little-endian words; a short last word is padded with zeros. `fuel` bounds the words. -/
def wordsOf : Nat → Bytes → List Word
  | 0, _ => []
  | _, [] => []
  | fuel + 1, b => BitVec.ofNat 32 (leNat (b.take 4)) :: wordsOf fuel (b.drop 4)

/-- The words of a packet body (R435), little-endian by R11. -/
def bytesToWords (b : Bytes) : List Word := wordsOf (b.length + 1) b

/-- The bytes of a list of little-endian words. -/
def wordsToBytes (ws : List Word) : Bytes := ws.flatMap fun w => leBytes 4 w.toNat

/-- Records of `n` bytes each, `k` of them, from the front of `b`. -/
def recordsOf (n : Nat) : Nat → Bytes → List Bytes
  | 0, _ => []
  | k + 1, b => b.take n :: recordsOf n k (b.drop n)

/-- Eight steps of the reflected CRC-32 register with polynomial 0xEDB8_8320 (R146). -/
def crc32Bits : Nat → BitVec 32 → BitVec 32
  | 0, c => c
  | n + 1, c => crc32Bits n (if c.getLsbD 0 then (c >>> 1) ^^^ 0xEDB88320#32 else c >>> 1)

/-- CRC-32 over a byte string from the register value `c`. -/
def crc32From (c : BitVec 32) : Bytes → BitVec 32
  | [] => c
  | x :: xs => crc32From (crc32Bits 8 (c ^^^ x.zeroExtend 32)) xs

/-- The CRC-32 of R146: initial value and final inversion 0xFFFF_FFFF. -/
def crc32 (b : Bytes) : BitVec 32 := crc32From 0xFFFFFFFF#32 b ^^^ 0xFFFFFFFF#32

/-- One bit of the mask field `m` set. -/
def bitAt (m n : Nat) : Bool := m.testBit n

/-- `m` with bit `n` set or cleared. -/
def setBitTo (m n : Nat) (v : Bool) : Nat := if v then m ||| 2 ^ n else if m.testBit n then m ^^^ 2 ^ n else m

/-- 1 for true, 0 for false. -/
def b2n (b : Bool) : Nat := if b then 1 else 0

end Sys2Proof
end

