-- ==== Sys2Proof/Machine/Types/Cloche.lean ====
section
/-! DEFINITION. The Cloche (14) beside its registers: the tick counter, tamper records and detectors, the vault with its
masks (11), and the slow bridge's accesses under way (R7). -/

namespace Sys2Proof.Machine

/-- A tamper record (R393), in ticks. -/
structure TRec where
  count : Nat := 0
  first : Nat := 0
  last : Nat := 0
  deriving DecidableEq, Repr

/-- A vault slot as stored (R288): the root XOR its mask, and the mask. -/
structure Masked where
  stored : Nat
  mask : Nat
  deriving DecidableEq, Repr

/-- The candidate register (R294): slot, kind, root, and whether it is VERIFIED. -/
structure Candidate where
  slot : Nat
  kind : Nat
  root : Nat
  verified : Bool
  deriving DecidableEq, Repr

/-- A CLO access on the slow bridge: a write's word, or a read. -/
structure BridgeOp where
  off : Nat
  write : Option Word
  deriving DecidableEq, Repr

/-- The Cloche. -/
structure Clo where
  /-- The 48-bit tick count. -/
  count : Nat := 0
  /-- The trim accumulator (R384). -/
  trimAcc : Int := 0
  oscRunning : Bool := true
  onBattery : Bool := false
  /-- Shadow of the count (R381) and of the selected record (R393). -/
  shadow : Option Nat := none
  trecShadow : Option TRec := none
  records : List (Nat × TRec) := []
  /-- Consecutive Hedge mismatches by pair (R391). -/
  hedge : List (Nat × Nat) := []
  /-- A trim written during a measurement (R385). -/
  trimWaits : Option Nat := none
  vault : List (Nat × Masked) := []
  candidate : Option Candidate := none
  tamperOutLow : Bool := false
  /-- The tick, in CORE_CLK cycles over 37,500, of the last KEY_ZERO (R399). -/
  zeroTick : Option Nat := none
  bridge : List BridgeOp := []
  deriving DecidableEq, Repr

end Sys2Proof.Machine
end

