-- ==== Sys2Proof/Machine/Types/Balance.lean ====
section
/-! DEFINITION. Balance-engine state (09): binary64 accumulators, zones, members and tamper records. -/

namespace Sys2Proof.Machine

/-- A finite binary64 value `m × 2^e`, with `2^52 ≤ |m| < 2^53`, or a subnormal one with `e = -1074`, or zero. -/
structure B64 where
  m : Int := 0
  e : Int := 0
  deriving DecidableEq, Repr

/-- A member of a zone (R244 to R251). -/
structure Member where
  zone : Nat
  noRank : Bool
  generation : Bool
  since : Nat
  base : Nat
  /-- Pending bins of BASE, BASE + 1 and BASE + 2, in mWh. -/
  bin0 : Int := 0
  bin1 : Int := 0
  bin2 : Int := 0
  /-- Frozen by pass 1: x of the interval under evaluation, and whether an estimate is part of it. -/
  x : Int := 0
  estimated : Bool := false
  /-- The estimate within `x` (R247). -/
  est : Int := 0
  w : B64 := {}
  sx : B64 := {}
  se : B64 := {}
  see : B64 := {}
  sre : B64 := {}
  sr : B64 := {}
  /-- Updated by the evaluation in progress (R250). -/
  updated : Bool := false
  ranked : Bool := false
  u : Int := 0
  alarm : Bool := false
  mismatch : Bool := false
  reverse : Bool := false
  tamper : Bool := false
  lateEnergy : Bool := false
  missed : Nat := 0
  deriving DecidableEq, Repr

/-- A feeder's check energy for one interval, in mWh, with its count of invalid samples, the flags and the RMS values of R144, in
mA. -/
structure CheckEnergy where
  b : Nat
  c : Int
  invalid : Nat
  saturated : Bool
  untrusted : Bool
  rmsN : Nat
  rmsResid : Nat
  deriving DecidableEq, Repr

/-- A zone's runtime state. -/
structure ZoneRt where
  w : B64 := {}
  sx : B64 := {}
  sc : B64 := {}
  sr : B64 := {}
  srr : B64 := {}
  lastR : Int := 0
  lastC : Int := 0
  lastL : Int := 0
  excluded : Bool := false
  loss : Bool := false
  negative : Bool := false
  neutral : Bool := false
  untrusted : Bool := false
  /-- The feeder check's remainder in 2^-32 µWh (R241). -/
  carry : Int := 0
  /-- Feeder checks handed over and not yet evaluated. -/
  checks : List CheckEnergy := []
  /-- A kind 1 check meter's bins, kept as a member's. -/
  ckBase : Nat := 0
  ck0 : Int := 0
  ck1 : Int := 0
  ck2 : Int := 0
  /-- Kind 1, frozen by pass 1: the check energy of the interval under evaluation, and whether the meter is missing. -/
  ckX : Int := 0
  ckMissing : Bool := false
  /-- Results of the evaluation in progress. -/
  curC : Int := 0
  curX : Int := 0
  curR : Int := 0
  curExcluded : Bool := false
  /-- The zone's check alone excludes the interval (R249). -/
  curBad : Bool := false
  deriving DecidableEq, Repr

/-- A tamper record (R256). -/
structure TamperRec where
  count : Nat := 0
  first : Nat := 0
  last : Nat := 0
  deriving DecidableEq, Repr

/-- The balance engine's tables. -/
structure BalTab where
  zones : List (Nat × ZoneRt) := []
  members : List (Nat × Member) := []
  /-- Tamper records by 4 × meter + k. -/
  tampers : List (Nat × TamperRec) := []
  deriving DecidableEq, Repr

end Sys2Proof.Machine
end

