-- ==== Sys2Proof/Machine/Types/Campaign.lean ====
section
/-! DEFINITION. Campaigns (10): what the journal keeps of a campaign and its members, and the rounds of each cell and
phase, which it does not. -/

namespace Sys2Proof.Machine

/-- A loaded campaign's descriptor and state (R263, R264). Instants in PTP seconds; the object by its length and hash. -/
structure Campaign where
  id : Nat
  kind : Nat
  radio : Bool
  zx : Bool
  zxBlock : Nat
  roundsMax : Nat
  lateOk : Bool
  newClass : Option Nat
  newCal : Option Nat
  start : Nat
  act : Nat
  version : Nat
  hash : Nat
  length : Nat
  /-- R264: 1 LOADING, 2 ACTIVE, 3 ENDED, 4 FAILED. -/
  state : Nat := 1
  cause : Nat := 0
  activated : Bool := false
  aborted : Bool := false
  /-- By place: the home channel fixed with the first offer there (R267), and rounds begun (R272, R284). -/
  homes : List (Nat × Nat) := []
  begun : List (Nat × Nat) := []
  deriving DecidableEq, Repr

/-- A member's 8 B record (R265, R266): state, cause, blocks held, and the class and calendar instance before
activation. -/
structure CampMember where
  state : Nat := 6
  cause : Nat := 0
  received : Nat := 0
  oldCls : Nat := 0
  oldCal : Nat := 0
  switched : Bool := false
  /-- PTP seconds of the switch: the armed instant, or the ts of the frame that reported Activated (R278). -/
  switchAt : Nat := 0
  deriving DecidableEq, Repr

/-- The rounds of one campaign in one cell or phase (R270, R272). Bitmaps are numbers, bit n for block n. -/
structure Rounds where
  sending : Nat := 0
  collecting : Nat := 0
  /-- Blocks missing by reports received after the end of the collection under way, for the next one (R272). -/
  later : Nat := 0
  /-- Number of the round running or last run. -/
  round : Nat := 0
  /-- Blocks of the round still to order; none between a round and the next. -/
  running : Bool := false
  nextBlk : Nat := 0
  collectingNow : Bool := false
  /-- The clock of the place as the collection began, and PTP seconds as the place was done (R272, R281). -/
  collectAt : Nat := 0
  doneAt : Nat := 0
  done : Bool := false
  /-- The round waits for its bitmap to be paged in (R277). -/
  due : Bool := false
  paused : Bool := false
  paged : Bool := false
  /-- The burst: its channel, whether it is a rendezvous burst, the planned instant of its next block and the start of the
  last rendezvous burst, or the last abort broadcast (PTP ns). -/
  channel : Nat := 0
  rdv : Bool := true
  /-- The next block begins its burst. -/
  first : Bool := true
  nextAt : Nat := 0
  lastRdv : Nat := 0
  /-- The next frame carries report-now and no other block follows (R284). -/
  reportNow : Bool := false
  /-- Blocks to send again in this round (R270), with the times ordered. -/
  again : List (Nat × Nat) := []
  lastUse : Nat := 0
  deriving DecidableEq, Repr

/-- The DST block's state that no reset keeps: load steps in progress by campaign, rounds by
8,192 × campaign + target (cell, or 4,096 + 3f + p), and the objects in LPDDR5. -/
structure Dst where
  loading : List (Nat × Nat) := []
  rounds : List (Nat × Rounds) := []
  objects : List (Nat × Bytes) := []
  clock : Nat := 0
  /-- Members to offer a campaign again, as 1,048,576 × campaign + meter (R267, R283). -/
  reoffer : List Nat := []
  /-- By 1,048,576 × campaign + meter: the round of the last offer to a ZX-PLC meter (R267). -/
  zxOffers : List (Nat × Nat) := []
  deriving DecidableEq, Repr

end Sys2Proof.Machine
end

