-- ==== Sys2Proof/Machine/Types/Trellis.lean ====
section
/-! DEFINITION. What the Trellis holds once parsed: the records of the eleven section types (02, 08), a Graft package
and its slot. -/

namespace Sys2Proof.Machine

/-- DEVICE (02). -/
structure DeviceRec where
  pairMode : Nat := 0
  position : Nat := 0
  partner : Nat := 255
  activeCount : Nat := 1
  mirrorLink : Nat := 0
  linkEnable : Nat := 0
  hostSealWait : Nat := 0
  hlpPort : Nat := 47300
  /-- One owning position per bucket, 0xFF for none. -/
  bucketOwner : List Nat := []
  deriving DecidableEq, Repr

/-- One of the 16 class-area descriptors of METER_CLASS. -/
structure ClassField where
  offset : Nat
  width : Nat
  kind : Nat
  slot : Nat
  deriving DecidableEq, Repr

/-- A METER_CLASS record. -/
structure MeterClass where
  classId : Nat
  medium : Nat
  graph : Nat
  security : Nat
  layout : Nat
  values : Nat
  calendar : Nat
  ring : Nat
  interval : Nat
  tsTolerance : Nat
  fields : List ClassField
  maxStep : List Nat
  deriving DecidableEq, Repr

/-- A TARIFF_LAYOUT record. -/
structure TariffLayout where
  layoutId : Nat
  rates : Nat
  directions : Nat
  demandInterval : Nat
  scaler : List Int
  unit : List Nat
  rateMap : List Nat
  deriving DecidableEq, Repr

/-- A DIALECT directory entry. -/
structure GraphEntry where
  graphId : Nat
  entryNode : Nat
  protocol : Nat
  stepLimit : Nat
  deriving DecidableEq, Repr

/-- A DIALECT node: its raw 16 bytes (a MATCH reads its reference from them) hold OPCODE, NODE_FLAGS, NEXT, ALT, A,
B and C. -/
structure Node where
  opcode : Nat
  flags : Nat
  next : Nat
  alt : Nat
  a : Nat
  b : Nat
  c : Nat
  deriving DecidableEq, Repr

/-- A sub-band of a RADIO_PROFILE: channels, duty limit in units of 0.001 % and duty window in s. -/
structure SubBand where
  first : Nat
  last : Nat
  duty : Nat
  window : Nat
  deriving DecidableEq, Repr

/-- A RADIO_PROFILE record. -/
structure RadioProfile where
  profileId : Nat
  channels : Nat
  rates : Nat
  baseFreq : Nat
  spacing : Nat
  dwellLimit : Nat
  dwellWindow : Nat
  ccaLevel : Int
  maxPower : Int
  /-- Bit n set: channel n is in the hop set. -/
  hopSet : Nat
  subbands : List SubBand
  deriving DecidableEq, Repr

/-- A RING_MAP record. -/
structure RingRec where
  direction : Nat
  content : Nat
  vector : Nat
  watermark : Nat
  signed : Bool
  deriving DecidableEq, Repr

/-- A MEASUREMENT channel record. -/
structure MsrChanRec where
  channel : Nat
  feeder : Nat
  role : Nat
  enabled : Bool
  fastTap : Bool
  hilbert : Bool
  module : Nat
  moduleChannel : Nat
  deriving DecidableEq, Repr

/-- A MEASUREMENT feeder record. -/
structure MsrFeederRec where
  feeder : Nat
  mains : Nat
  nominalV : Nat
  wiring : Nat
  zxPhases : Nat
  topZone : Nat
  deriving DecidableEq, Repr

/-- DST_START and DST_END of a calendar record (R213). -/
structure DstRule where
  month : Nat
  week : Nat
  weekday : Nat
  quarter : Nat
  deriving DecidableEq, Repr

/-- A SEASON entry (R213). -/
structure Season where
  month : Nat
  day : Nat
  week : Nat
  deriving DecidableEq, Repr

/-- A calendar record (R213). Only profiles in use are listed; a switch point is (minute, tariff). -/
structure CalRec where
  inst : Nat
  stdOffset : Int
  dstDelta : Nat
  periodKind : Nat
  dstStart : DstRule
  dstEnd : DstRule
  periodDay : Nat
  periodQuarter : Nat
  seasons : List Season
  weeks : List (List Nat)
  days : List (List (Nat × Nat))
  deriving DecidableEq, Repr

/-- A used entry of the special-day table (R214). -/
structure SpecialDay where
  year : Nat
  month : Nat
  day : Nat
  calendar : Nat
  profile : Nat
  deriving DecidableEq, Repr

/-- The CALENDAR section (R212). -/
structure Calendar where
  insts : List CalRec := []
  special : List SpecialDay := []
  deriving DecidableEq, Repr

/-- A ZONE_MODEL record. -/
structure ZoneRec where
  zone : Nat
  parent : Nat
  level : Nat
  checkKind : Nat
  window : Nat
  checkId : Nat
  noLoadLoss : Nat
  loadLoss : Nat
  threshold : Nat
  deriving DecidableEq, Repr

/-- A ROLE_TABLE entry. -/
structure RoleEntry where
  logicalName : Nat
  classId : Nat
  index : Nat
  kind : Nat
  access : Nat
  deriving DecidableEq, Repr

/-- An EVENT_CODES record. -/
structure EventCode where
  severity : Nat := 0
  flags : Nat := 0
  rate : Nat := 0
  burst : Nat := 0
  vector : Nat := 0
  ring : Nat := 0
  deriving DecidableEq, Repr

/-- One parsed section. -/
inductive Section where
  | device (d : DeviceRec)
  | classes (l : List MeterClass)
  | layouts (l : List TariffLayout)
  | dialect (dir : List GraphEntry) (nodes : List Node)
  | radio (l : List RadioProfile)
  | rings (l : List RingRec)
  | measurement (ch : List MsrChanRec) (fd : List MsrFeederRec)
  | calendar (c : Calendar)
  | zones (l : List ZoneRec)
  | roles (l : List RoleEntry)
  | events (l : List EventCode)
  deriving DecidableEq, Repr

/-- The live structure. A list is empty where its section is absent; `gens` holds TRL_GEN_1 to TRL_GEN_11. -/
structure Trellis where
  device : DeviceRec := {}
  classes : List MeterClass := []
  layouts : List TariffLayout := []
  dialectDir : List GraphEntry := []
  dialectNodes : List Node := []
  radio : List RadioProfile := []
  rings : List RingRec := []
  msrChans : List MsrChanRec := []
  msrFeeders : List MsrFeederRec := []
  calendar : Calendar := {}
  zones : List ZoneRec := []
  roles : List RoleEntry := []
  events : List EventCode := []
  deriving DecidableEq, Repr

/-- A verified bit-stream or Graft package: its serials, security version, owner key and sections with generations. -/
structure Package where
  kind : Nat
  buildSerial : Nat
  baseSerial : Nat
  secVersion : Nat
  ownerKey : Nat
  /-- (TYPE, GENERATION, section), in table order. -/
  sections : List (Nat × Nat × Section)
  deriving DecidableEq, Repr

/-- A Graft slot's package (R47 to R54): the package, its activation instant once armed, whether the standby has
verified it (R49), and whether the slot's copy holds an uncorrectable error (R53). -/
structure Staged where
  pkg : Package
  armedAt : Option Nat
  partnerHas : Bool
  deriving DecidableEq, Repr

end Sys2Proof.Machine
end

