-- ==== Sys2Proof/Machine/Types/Meter.lean ====
section
/-! DEFINITION. Per-meter state: the context (R184), the billing block with its history (R220, R228), and what the
key and context caches hold (07). -/

namespace Sys2Proof.Machine

/-- One of the three HEADS entries of a context: head index, best RSSI in dBm and its day. -/
structure HeadRef where
  head : Nat
  rssi : Int
  day : Nat
  deriving DecidableEq, Repr

/-- A ZX-PLC assignment (R108). -/
structure ZxAssign where
  feeder : Nat
  phase : Nat
  channel : Nat
  slot : Nat
  deriving DecidableEq, Repr

/-- A meter context (R184), allocated. Indices that were freed stand in `Dur.freed`. -/
structure Ctx where
  address : Nat
  mbus : Bool
  cls : Nat
  /-- Calendar instance; 0xFF selects the class default. -/
  cal : Nat
  pinned : Bool := false
  curKey : Bool := false
  candKey : Bool := false
  outExhausted : Bool := false
  inExhausted : Bool := false
  keyGen : Nat := 0
  m : Nat := 0
  digest : Nat := 0
  a : Nat := 0
  outCounter : Nat := 1
  lastTs : Nat := 0
  /-- Bit n: the meter takes part in campaign n. -/
  campaigns : Nat := 0
  heads : List HeadRef := []
  drift : Int := 0
  confidence : Nat := 0
  syncSec : Nat := 0
  syncNs : Nat := 0
  syncId : Nat := 0
  outliers : Nat := 0
  sendsDrift : Bool := false
  zx : Option ZxAssign := none
  /-- R108: the assignment in effect (none, or what it was) while the meter has not been sent its SCHEDULE frame for `zx`. -/
  zxOld : Option (Option ZxAssign) := none
  lastSeq : Nat := 0
  /-- Frames committed, DUPLICATE, REPLAY, rejections, authentication failures, ACCEPT_MISSED. -/
  stats : List Nat := [0, 0, 0, 0, 0, 0]
  allocSec : Nat := 0
  /-- The class area's bytes that are not zero, by offset 0 to 127. -/
  area : List (Nat × Nat) := []
  deriving DecidableEq, Repr

/-- The assignment in effect (R108). -/
def Ctx.zxNow (c : Ctx) : Option ZxAssign := c.zxOld.getD c.zx

/-- A maximum-demand entry: VALUE and INTERVAL. -/
structure MaxDemand where
  value : Nat
  interval : Nat
  deriving DecidableEq, Repr

/-- The open demand interval, or the last closed one with demands in place of energies (R220, R224). -/
structure DemandInterval where
  index : Nat := 0
  imp : Nat := 0
  exp : Nat := 0
  incomplete : Bool := false
  estimated : Bool := false
  /-- Some of the interval's energy came from a span longer than 24 h (R224). -/
  longSpan : Bool := false
  deriving DecidableEq, Repr

/-- One closed period of the billing history (R228). -/
structure HistEntry where
  closedAt : Nat
  energy : List (Nat × Nat)
  maxDemand : List (Nat × MaxDemand)
  deriving DecidableEq, Repr

/-- A billing block (R220) and the meter's billing history. -/
structure BillBlock where
  /-- The registers that are not zero, by 4r + d. -/
  energy : List (Nat × Nat) := []
  /-- The entries that are not zero, by 2r + a. -/
  maxDemand : List (Nat × MaxDemand) := []
  lastTotal : List Nat := [0, 0, 0, 0]
  opened : Option DemandInterval := none
  lastDemand : DemandInterval := {}
  periodCount : Nat := 0
  periodStart : Nat := 0
  periodLate : Bool := false
  outDown : Nat := 0
  outUp : Nat := 0
  outCount : Nat := 0
  /-- Bit 4r + d: register (r, d) seeded from the meter. -/
  seeded : Nat := 0
  mismatches : Nat := 0
  maxDeviation : Nat := 0
  late : Nat := 0
  incomplete : Nat := 0
  estimated : Nat := 0
  history : List HistEntry := []
  deriving DecidableEq, Repr

/-- A key set wrapped in LPDDR5 or the head table (R300, R304, R305): the STORE_KEK slot that wraps it, the working key
it is wrapped under, its two 16-byte halves as numbers, its KCV, and whether its stored form has lost its integrity
value. A wrap travels in this model as its plaintext beside the key that made it. -/
structure KeySet where
  kekSlot : Nat
  under : Nat
  link : Nat
  global : Nat
  kcv : Nat
  corrupt : Bool := false
  deriving DecidableEq, Repr

/-- A context-cache way (R191): its LRU stamp, the context as LPDDR5 holds it, and whether its fetch has ended. -/
structure CtxWay where
  stamp : Nat
  stored : Ctx
  ready : Bool := true
  deriving DecidableEq, Repr

/-- A key-cache way (R193). -/
structure KeyWay where
  meter : Nat
  cand : Bool
  kekSlot : Nat
  age : Nat
  kcv : Nat
  keys : KeySet
  /-- Held by an acquisition. -/
  held : Bool
  /-- The fill port has written the set (R194). -/
  filled : Bool := true
  deriving DecidableEq, Repr

end Sys2Proof.Machine
end

