-- ==== Sys2Proof/Machine/Types/Ingest.lean ====
section
/-! DEFINITION. What moves through ingest (06) and the context engine (07): meter frames and their APDUs, work items
with the ranked resources they hold, reading records, and the sign/hash arbiter's requests. -/

namespace Sys2Proof.Machine

/-- The DLMS/COSEM services of R163, and what lies outside them. -/
inductive Service where
  | dataNotification | getResponse | setResponse | actionResponse | exception | unsupported
  deriving DecidableEq, Repr

/-- A ciphered application PDU (IEC 62056-5-3) as it arrives: its outermost tag, the security control byte, the system title that
general-glo-ciphering carries, the invocation counter, the ciphertext and the GCM tag (R163, R164). -/
structure Apdu where
  wrapper : Nat
  control : Nat
  title : Option Nat := none
  invocation : Nat
  cipher : Bytes
  tag : Nat
  deriving DecidableEq, Repr

/-- R163: glo-ciphered responses and general-glo-ciphering. -/
def Apdu.ciphered (a : Apdu) : Bool := a.wrapper == 0xCC || a.wrapper == 0xCD || a.wrapper == 0xCF || a.wrapper == 0xDB

/-- R163: security suite 0 or 1, the authentication bit, the unicast key and no compression. -/
def Apdu.controlOk (a : Apdu) : Bool :=
  decide (a.control % 16 ≤ 1) && a.control.testBit 4 && !a.control.testBit 6 && !a.control.testBit 7

/-- R163: the service of a plaintext PDU; a get-, set- or action-response is normal or with-list, as IEC 62056-5-3 numbers its
choices: 1, and 3 or, for SET, 5. -/
def serviceOf (p : Bytes) : Service :=
  let response (s : Service) (list : Nat) : Service := if p.u8 1 = 1 ∨ p.u8 1 = list then s else .unsupported
  match p.u8 0 with
  | 0x0F => .dataNotification
  | 0xC4 => response .getResponse 3
  | 0xC5 => response .setResponse 5
  | 0xC7 => response .actionResponse 3
  | 0xD8 => .exception
  | _ => .unsupported

/-- A campaign status report (R273, R275): CAMPAIGN as carried (its low 8 bits on ZX-PLC), the state and cause, TRUNCATED, the
blocks held and the missing ranges. -/
structure StatusIe where
  campaign : Nat
  state : Nat
  cause : Nat := 0
  truncated : Bool := false
  received : Nat
  ranges : List (Nat × Nat) := []
  deriving DecidableEq, Repr

/-- What the layers of an EN 13757-3 frame say of its form (R165): the transport layer's CI field, those of the extended link layer
and of the authentication and fragmentation layer where they stand, and whether the frame is a fragment or carries unencrypted
records. -/
structure MbusForm where
  ci : Nat
  ell : Option Nat := none
  afl : Option Nat := none
  fragment : Bool := false
  clear : Bool := false
  deriving DecidableEq, Repr

/-- R165: the long or short transport header, an extended link layer without encryption, a whole message, and no unencrypted
records. -/
def MbusForm.ok (m : MbusForm) : Bool :=
  (m.ci == 0x72 || m.ci == 0x7A) && (m.ell.map (· == 0x8C)).getD true && (m.afl.map (· == 0x90)).getD true && !m.fragment && !m.clear

/-- A frame as the device takes it apart. -/
structure MeterFrame where
  /-- 0 IEEE 802.15.4, 1 wireless M-Bus, 2 ZX-PLC. -/
  medium : Nat
  /-- The frame's bytes: a PSDU without its FCS, or a wireless M-Bus frame without its CRCs; on ZX-PLC its data bits. -/
  raw : Bytes
  /-- The meter's address: the number its octets spell in frame order (R178, R184). -/
  address : Nat
  mbus : Bool
  destPan : Nat := 0
  /-- The counter field of R158: the frame counter, FC_LOW as rebuilt, the AFL counter, or the access number. -/
  counter : Nat
  /-- Security level 5 to 7, or 0x85, 0x87. -/
  security : Nat
  /-- The frame's authenticator: MIC, CMAC, or the last 8 B of the last block (R159). -/
  mic : Nat
  /-- Authenticated bytes: the headers; in mode 7 what the CMAC covers. -/
  aad : Bytes
  /-- The encrypted part. -/
  cipher : Bytes
  /-- An EN 13757-3 frame's layers. -/
  link : Option MbusForm := none
  /-- TYPE of a ZX-PLC frame (R118). -/
  kind : Nat := 0
  /-- The contents of its vendor-specific header IEs (R98, R273). -/
  ies : List Bytes := []
  /-- The drift IE, as the device reads it from `ies` (R98): SYNC_ID and the meter's elapsed ticks. -/
  driftIe : Option (Nat × Nat) := none
  /-- The campaign status report, as the device reads it from `ies` (R273), or from a TYPE 2 frame (R275). -/
  statusIe : Option StatusIe := none
  /-- PTP seconds of the uplink slot's cycle, for a ZX-PLC frame (R169). -/
  slotSec : Nat := 0
  deriving DecidableEq, Repr

/-- R118, R165: the form of a frame's upper layers; a mode 7 frame has its authentication and fragmentation layer. -/
def MeterFrame.formOk (f : MeterFrame) : Bool :=
  decide (f.kind ≤ 3) && ((f.link.map fun m => m.ok && (f.security != 0x87 || m.afl.isSome)).getD true)

/-- A staged frame: its frame, source (0 HLP, 1 ZX-PLC, 2 Runner), head, feeder or link, and receipt instant. -/
structure Staged0 where
  frame : MeterFrame
  source : Nat
  via : Nat
  rxSec : Nat
  rxNs : Nat
  /-- Receipt instant of the uplink's end, ns, for the receive windows (R82). -/
  endNs : Nat
  meter : Nat
  slots : Nat
  /-- The round of a ZX-PLC uplink. -/
  round : Nat := 0
  /-- TAI − UTC at the receipt instant, s (R492). -/
  off : Int := 0
  /-- Slots taken from: 0 general, 1 the ZX-PLC reserve, 2 the Runner reserve (R153). -/
  pool : Nat := 0
  deriving DecidableEq, Repr

/-- What a dialect graph stored (R33, R493). -/
structure Parsed where
  values : List (Nat × Int) := []
  ts : Option Nat := none
  /-- (event code, value, timestamp the node carries). -/
  events : List (Nat × Nat × Option Nat) := []
  deriving DecidableEq, Repr

/-- The kinds of work item (R196). -/
inductive WorkKind where
  | ingest | downlink | objectRequest | keyCommit | free
  deriving DecidableEq, Repr

/-- Where an ingest work item stands in R199. -/
inductive Stage where
  | wantContext | wantKey | wantLane | crypto | parse | billing | wantRing | wantJournal | mirror | retry
  deriving DecidableEq, Repr

/-- The body of a reading record (R178) before its tag or signature. -/
structure RecordBody where
  cls : Nat
  count : Nat
  meter : Nat
  mbus : Bool
  position : Nat
  address : Nat
  seq : Nat
  tariff : Nat
  source : Nat
  rxSec : Nat
  rxNs : Nat
  tsSec : Nat
  counter : Nat
  quality : Nat
  values : List Int
  deriving DecidableEq, Repr

/-- A reading commit, as its journal record carries it (R364, R365), with the body of its record. -/
structure ReadingRec where
  meter : Nat
  rejected : Bool
  noRecord : Bool
  candKey : Bool
  statusOnly : Bool
  counter : Nat
  digest : Nat
  a : Option Nat
  /-- Outage edges: (up, PTP seconds). -/
  outages : List (Bool × Nat)
  /-- Tamper updates: (k, event value, PTP seconds). -/
  tampers : List (Nat × Nat × Nat)
  /-- Campaign status: campaign, state, cause, RECEIVED. -/
  campaign : Option (Nat × Nat × Nat × Nat)
  /-- Class authentication key committed (R304). -/
  classAk : Bool
  /-- The counters of a block-transfer message, all acknowledged (R166). -/
  counters : List Nat
  body : RecordBody
  deriving DecidableEq, Repr

/-- What a work item without a frame of its own does (R196, R199): receive window `k` of an uplink (address, end in PTP ns), with
its accept acknowledgement or another frame; wake window `k`; an acceptance notice's two acknowledgements for another device (its
position, the PAN ID, and the uplink's address, counter and end); a frame through another device's head at an instant, in
window `w`; a METER_REQUEST's APDU to cipher, by its downlink's number; a DOWNLINK frame on a feeder's phase; the object request at
the front of a ring; the end of METER_CANCEL; the meter's turn in a REWRAP (R298). -/
inductive DlJob where
  | window (addr endNs k : Nat) (ack : Bool)
  | wake (k : Nat)
  | notice (pos pan addr counter endNs : Nat)
  | forward (pos pan t0 w : Nat)
  | cipher (id : Nat)
  | zx (feeder phase : Nat)
  | view (ring : Nat)
  | cancel
  | rewrap
  deriving DecidableEq, Repr

/-- A work item in flight (R196, R199). -/
structure Work where
  kind : WorkKind
  staged : Staged0
  stage : Stage
  /-- Ranks held, greatest first (R198). -/
  held : List Nat
  /-- What a downlink item sends. -/
  job : Option DlJob := none
  /-- CORE_CLK count since which it waits for a resource, or for the mirror (R173, R200). -/
  since : Nat := 0
  /-- The meter's class and calendar instance as the item was admitted (R278). -/
  cls : Nat := 0
  cal : Nat := 0
  /-- The frame has passed the security check (R154). -/
  verified : Bool := false
  /-- The payload to parse: the frame's plaintext, or the plaintext of the APDU it carries. -/
  payload : Bytes := []
  /-- The APDU of a DLMS/COSEM frame, and the rejection that its form alone draws (R163). -/
  apdu : Option Apdu := none
  refused : Nat := 0
  /-- The campaign slot its status report names, and whether R280 reverted the member. -/
  report : Option (Nat × Bool) := none
  /-- The frame verified under the candidate key (R161). -/
  cand : Bool := false
  /-- The class authentication key that verified is the new one (R304). -/
  newAk : Bool := false
  parsed : Parsed := {}
  reject : Nat := 0
  /-- The record under construction. -/
  reading : Option ReadingRec := none
  /-- The campaign member record before the report that the append applied. -/
  before : Option CampMember := none
  /-- Ring and words reserved (R199, step 5). -/
  ring : Option (Nat × Nat) := none
  /-- A fetch or fill for this item is under way. -/
  fetching : Bool := false
  /-- The wait in progress has been counted (R202). -/
  waited : Bool := false
  /-- The sections the item was admitted under, once a Graft has replaced some of them (R51). -/
  old : Option Trellis := none
  /-- Journal line of the append, while the mirror confirms. -/
  line : Nat := 0
  /-- Frame bodies of a block-transfer message, first block first. -/
  blocks : List Nat := []
  deriving DecidableEq, Repr

/-- What an AES-GCM lane finishes: a frame's decryption, or a record's tag (R159, R179). -/
inductive LaneJob where
  | frame (meter : Nat)
  | tag (seq : Nat)
  deriving DecidableEq, Repr

/-- A general-block-transfer reassembly (R166): blocks as (block counter, frame counter, body), in arrival order. -/
structure Reassembly where
  blocks : List (Nat × Nat × Bytes)
  /-- CORE_CLK count of the first block. -/
  since : Nat := 0
  deriving DecidableEq, Repr

/-- A committed record that awaits its tag or signature, or its turn on its ring (R176). -/
structure PendingRecord where
  seq : Nat
  ring : Nat
  body : RecordBody
  ecdsa : Bool
  /-- The finished record's bytes, once tagged, signed or released unsigned. -/
  done : Option Bytes
  replay : Bool
  deriving DecidableEq, Repr

/-- What a sign/hash request works on (R203). -/
inductive ShOp where
  | verifyCommand (ring : Nat)
  | signRecord (seq : Nat)
  | keyMgmt
  | downlinkKey
  | imageHash (campaign : Nat)
  | sealEpoch (epoch : Nat)
  /-- The Rake's digest of a stored object (R350): 0 the current NAND copy, 1 the previous one, 2 + k the k-th stored Graft
  package, 1,024 + c the object of campaign c; and whether it agreed. -/
  | rakeVerify (item : Nat) (ok : Bool)
  | selfTest (engine : Nat)
  deriving DecidableEq, Repr

/-- A sign/hash request (R204 to R207): port rank, URGENT, order of arrival, blocks done and total (0 for ECDSA), and the
CORE_CLK count since which it waits. -/
structure ShReq where
  port : Nat
  urgent : Bool
  order : Nat
  op : ShOp
  done : Nat
  total : Nat
  since : Nat := 0
  /-- Already reported as starved. -/
  starved : Bool := false
  deriving DecidableEq, Repr

/-- The context engine's and ingest's state that no reset keeps. -/
structure Engine where
  /-- Staged frames in arrival order. -/
  staging : List Staged0 := []
  /-- Work in flight by meter. -/
  flight : List (Nat × Work) := []
  /-- Items without a frame that wait for their meter's work in flight: the meter, what to do, and the staged frames of the meter
  that came before it (R196). -/
  downs : List (Nat × DlJob × Nat) := []
  /-- Meters with a FREE under way: no work of theirs begins until it ends (R190, R196). -/
  freeing : List Nat := []
  /-- A PIN that waits for an evictable way (R192). -/
  pinning : Option Nat := none
  /-- Resident contexts by index (R191). -/
  cache : List (Nat × CtxWay) := []
  cacheClock : Nat := 0
  /-- Key-cache ways by 16 × set + way (R193). -/
  keys : List (Nat × KeyWay) := []
  keyEpoch : Nat := 0
  reassembly : List (Nat × Reassembly) := []
  records : List PendingRecord := []
  /-- The sign/hash arbiter: parked requests, holders by engine, the next order number. -/
  parked : List ShReq := []
  holders : List (Nat × ShReq) := []
  shOrder : Nat := 0
  /-- Ports whose URGENT condition the last change set, as far as the state does not show it itself (R203; log entry 86). -/
  urgent : List Nat := []
  deriving DecidableEq, Repr

end Sys2Proof.Machine
end

