-- ==== Sys2Proof/Machine/Types/Field.lean ====
section
/-! DEFINITION. The head table, orders to heads, cells and the downlink queue (03). -/

namespace Sys2Proof.Machine

/-- What the journal keeps of a registered head (R58, R67): EUI-64, last EPOCH, IPv6 address and Ethernet port. -/
structure HeadReg where
  eui : Nat
  epoch : Nat := 0
  addr : Nat := 0
  port : Nat := 0
  deriving DecidableEq, Repr

/-- The head states of R59. -/
inductive HeadSt where
  | offline | joining | active | degraded | suspended
  deriving DecidableEq, Repr

/-- The STATE code of FHM_HEAD_STATE. -/
def HeadSt.code : HeadSt → Nat
  | .offline => 0 | .joining => 1 | .active => 2 | .degraded => 3 | .suspended => 4

/-- A head's working entry (R59 to R95). Times are PTP ns, delays ns. -/
structure HeadRt where
  state : HeadSt := .offline
  cause : Nat := 0
  /-- REQUEST's SETUP in µs, RATES and MAX_POWER. -/
  setup : Nat := 0
  rates : Nat := 0
  maxPower : Int := 0
  firmware : Nat := 0
  /-- The session key. -/
  key : Nat := 0
  /-- A session key is held: from an ACCEPT until a RECALL, a new epoch, a REMOVE or a reset (R64, R68). -/
  session : Bool := false
  /-- DEVICE_NONCE of a RECALL and PTP ns of its sending (R66, R68). -/
  recalled : Option (Nat × Nat) := none
  /-- Highest accepted number and the bitmap of the 64 below it (R64); bit k is number h − 1 − k. -/
  h : Nat := 0
  seen : Nat := 0
  /-- Next extended number the device sends. -/
  txExt : Nat := 1
  /-- Next TX_ID. -/
  txId : Nat := 0
  /-- Confirms' delays, latest first, at most 65,536 (R79), how many have arrived, and the join exchange's delay. -/
  delays : List Int := []
  confirms : Nat := 0
  joinDelay : Int := 0
  rate : Nat := 0
  rxCh : Nat := 0
  beaconCh : Nat := 0
  profile : Nat := 0
  missed : Nat := 0
  /-- Consecutive beacons confirmed, while DEGRADED. -/
  confirmed : Nat := 0
  offset : Int := 0
  /-- While SUSPENDED, consecutive status periods with the cause cleared. -/
  clear : Nat := 0
  /-- Airtime accounted (R94): channel, start in ms, granules of 1 ms. -/
  air : List (Nat × Nat × Nat) := []
  /-- Meters of this head are already re-homed. -/
  rehomed : Bool := false
  /-- CORE_CLK counts of its last datagram and of its entry into its state (R59, R60). -/
  heardAt : Nat := 0
  since : Nat := 0
  /-- CORE_CLK count of its last missed beacon (R101). -/
  missedAt : Nat := 0
  /-- HEAD_BEACON_LOST waits for the head's next datagram: the head had been silent for two status periods (R101). -/
  lostDue : Bool := false
  /-- Last HEAD_STATUS counters and faults. -/
  status : List Nat := []
  deriving DecidableEq, Repr

/-- A frame to a meter or a cell: destination meter (none: broadcast, or another device's meter), frame counter, header IE
content and payload, the secured octets without the FCS, and the PSDU's length in octets. -/
structure Psdu where
  meter : Option Nat
  counter : Nat
  ie : Bytes
  payload : Bytes
  bytes : Bytes := []
  len : Nat
  deriving DecidableEq, Repr

/-- What a key transfer carries (R302): a meter key set, or a target's broadcast key of a generation. -/
inductive KeyXfer where
  | set
  | broadcast (target gen : Nat)
  deriving DecidableEq, Repr

/-- What a downlink to one meter carries. -/
inductive DlKind where
  | request (tag : Nat)
  | key (what : KeyXfer)
  | offer (campaign : Nat)
  | abort (campaign : Nat)
  deriving DecidableEq, Repr

/-- What an order serves (R77, R95): an accept acknowledgement (address, end of the uplink in PTP ns, window), a downlink to a
meter (its kind, its number, and window 1 or 2, or 0 for a wake window), a campaign block or abort of a cell, a beacon, or a
frame ordered for another pair (link, number, window). -/
inductive Purpose where
  | accept (addr endNs window : Nat)
  | downlink (meter : Nat) (kind : DlKind) (id window : Nat)
  | block (campaign : Nat) (blk : Nat)
  | beacon
  | abort (campaign : Nat)
  | partner (link id : Nat)
  deriving DecidableEq, Repr

/-- A TX_AT order (R65, R76): planned, then sent. `t0` in PTP ns, `gate` in µs, offsets in µs. -/
structure Order where
  head : Nat
  txId : Nat
  channel : Nat
  rate : Nat
  power : Int
  flags : Nat
  attempts : Nat
  gate : Nat
  t0 : Nat
  offsets : List Nat
  psdu : Psdu
  purpose : Purpose
  retries : Nat := 0
  sent : Bool := false
  sentAt : Nat := 0
  /-- SYNC_ID carried, for an accept acknowledgement (R97), and the SFD end it tells the meter, PTP ns; for a wake
  window, its predicted opening; for a beacon, its instant (R88). -/
  syncId : Nat := 0
  sfdEnd : Nat := 0
  /-- The key transfer it carries (R302). -/
  keyKind : Option KeyXfer := none
  deriving DecidableEq, Repr

/-- What a send time belongs to (R79): a planned order, or wake window k of a meter (R99). -/
inductive SendAt where
  | order (head txId : Nat)
  | wake (meter k : Nat)
  deriving DecidableEq, Repr

/-- An uplink's receive windows (R82 to R84): the meter's address, its index where this device owns it, the head, the end
of the uplink's airtime (PTP ns), its frame counter, whether the commit is complete, the acknowledgement ordered and
confirmed, the frames an acceptance notice brought for RX1 and RX2, and the last window whose latest instant came before the commit, 0
for none (R182). -/
structure Window where
  addr : Nat
  meter : Option Nat
  head : Nat
  endNs : Nat
  counter : Nat
  committed : Bool := false
  ordered : Bool := false
  acked : Bool := false
  notice : Option (Psdu × Psdu) := none
  checked : Nat := 0
  deriving DecidableEq, Repr

/-- A waiting or ordered downlink to a meter; `plain` is a METER_REQUEST's APDU that is not yet ciphered. -/
structure Downlink where
  id : Nat
  meter : Nat
  kind : DlKind
  ie : Bytes
  payload : Bytes
  plain : Bytes := []
  tries : Nat := 0
  ordered : Bool := false
  deriving DecidableEq, Repr

/-- A cell's superframe operation (R87, R88). -/
structure Superframe where
  start : Nat
  n : Nat := 0
  test : Bool := false
  storm : Bool := false
  recovery : Bool := false
  quiet : Nat := 0
  /-- Hashed slots of the current superframe that carried a frame. -/
  used : List Nat := []
  hashFirst : Nat := 0
  hashCount : Nat := 0
  /-- SFD end of the last confirmed beacon, PTP ns. -/
  sfd : Nat := 0
  final : Bool := false
  deriving DecidableEq, Repr

/-- A cell: its superframe operation and the CSMA attempts of the current second (R87). -/
structure Cell where
  sf : Option Superframe := none
  attempts : Nat := 0
  busy : Nat := 0
  deriving DecidableEq, Repr

/-- A frame reported by a first head, kept for later copies (R86). -/
structure Heard where
  meter : Nat
  counter : Nat
  mic : Nat
  sfd : Nat
  head : Nat
  rssi : Int
  deriving DecidableEq, Repr

/-- The counters of frames committed for a meter, with their reception instants, for accept acknowledgements (R85). -/
structure Committed where
  meter : Nat
  counter : Nat
  rx : Nat
  deriving DecidableEq, Repr

/-- The FHM block's state that no reset keeps. -/
structure Fhm where
  heads : List (Nat × HeadRt) := []
  cells : List (Nat × Cell) := []
  orders : List Order := []
  windows : List Window := []
  downlinks : List Downlink := []
  dlNext : Nat := 0
  heard : List Heard := []
  committed : List Committed := []
  /-- ACCEPTs that wait for their CONTROL record's commit (R67): head, the entries still to be confirmed up to that record, and
  body. -/
  accepts : List (Nat × Nat × Bytes) := []
  /-- By meter: the position of the device that heard it and forwarded it, and the PAN ID its frame named (R424). -/
  foreign : List (Nat × Nat × Nat) := []
  /-- The SYNC_ID counter. -/
  syncId : Nat := 0
  deriving DecidableEq, Repr

end Sys2Proof.Machine
end

