-- ==== Sys2Proof/Machine/Types/Host.lean ====
section
/-! DEFINITION. The host interface's state beside its registers (16): ring storage, the MSI-X table, the event
recorder with Prune, health samples, role certificates and outstanding requests. -/

namespace Sys2Proof.Machine

/-- One MSI-X table entry (R433): message address and data, the mask bit and the pending bit. -/
structure MsixEntry where
  addr : Nat := 0
  data : Nat := 0
  masked : Bool := true
  pend : Bool := false
  /-- CORE_CLK count at the last message sent, for the 1 µs sharing of R433. -/
  lastSent : Option Nat := none
  deriving DecidableEq, Repr

/-- A packet retained in a ring: its start pointer (15 bits) and length in words. -/
structure PktSpan where
  start : Nat
  len : Nat
  deriving DecidableEq, Repr

/-- One ring's storage (R434 to R442). Its pointers, mark and flags stand in its registers. -/
structure Ring where
  /-- The words that are not zero, by 14-bit word address. -/
  mem : List (Nat × Word) := []
  /-- Packets no reservation has overlapped, oldest first (R439). -/
  pkts : List PktSpan := []
  /-- Words not yet signalled (R442). -/
  unsignalled : Nat := 0
  /-- CORE_CLK count at which the oldest of them became so. -/
  unsignalledAt : Nat := 0
  /-- Host to device: words of the packet host software is writing, the length word first. -/
  partial_ : List Word := []
  /-- Host to device: complete packets not yet taken. -/
  ready : List (List Word) := []
  /-- Host to device: discarding everything until FLUSH after an overrun (R437). -/
  discarding : Bool := false
  /-- A REWIND waits for the drain transfer in progress (R439). -/
  rewindPending : Bool := false
  /-- Campaign status packets waiting in the LPDDR5 queue (R440), oldest first. -/
  waiting : List (List Word) := []
  /-- Writes of HRD outside the filled span (R441), saturating; no register shows them (log entry 15). -/
  ignored : Nat := 0
  deriving DecidableEq, Repr

/-- An event record (R452). -/
structure EvRec where
  seq : Nat
  code : Nat
  severity : Nat
  sec : Nat
  ns : Nat
  block : Nat
  summary : Bool := false
  preTime : Bool := false
  partner : Bool := false
  provisional : Bool := false
  arg0 : Nat := 0
  arg1 : Nat := 0
  deriving DecidableEq, Repr

/-- A Prune bucket (R455): its level and the CORE_CLK count at which that level held. A token is 16 × 1,228,800,000
units, so that RATE units arrive per CORE_CLK cycle. -/
structure Bucket where
  level : Nat
  at_ : Nat
  deriving DecidableEq, Repr

/-- Suppressions of one code since its last summary (R456). -/
structure Suppress where
  count : Nat
  firstSec : Nat
  lastSec : Nat
  lastNs : Nat
  /-- CORE_CLK count of the first. -/
  at_ : Nat
  deriving DecidableEq, Repr

/-- The event recorder (R452 to R457, R491). -/
structure Evr where
  /-- The records held, by index SEQ mod 65,536. -/
  recs : List (Nat × EvRec) := []
  /-- The next final SEQ; none before step 8 completes. -/
  next : Option Nat := none
  /-- Provisional records, in the order raised (R491). -/
  provisional : List EvRec := []
  buckets : List (Nat × Bucket) := []
  /-- Suppressed occurrences since reset by code (EVR_CODE_SUPP). -/
  suppressed : List (Nat × Nat) := []
  pendingSummary : List (Nat × Suppress) := []
  /-- Records spilled to the event archive partition, in SEQ order. -/
  archive : List EvRec := []
  /-- Records written before the seal that wait for the event archive (R455). -/
  toSpill : List EvRec := []
  deriving DecidableEq, Repr

/-- One health monitor (R458): its limit where host software wrote one, samples as (day, value) and the last fit. -/
structure Monitor where
  limit : Option Nat := none
  samples : List (Nat × Nat) := []
  valid : Bool := false
  est : Nat := 0xFFFFF
  low : Nat := 0xFFFF
  high : Nat := 0xFFFF
  usedPpm : Nat := 0
  /-- HEALTH_FORECAST has been logged and the bound has not risen above 1.1 × DAYS since (R459). -/
  warned : Bool := false
  deriving DecidableEq, Repr

/-- A cached role certificate (R447, R448). -/
structure CertEntry where
  ref : Nat
  role : Nat
  key : Nat
  lastNonce : Nat
  deriving DecidableEq, Repr

/-- No meter's index. -/
def noMeter : Nat := 1048576

/-- An outstanding METER_REQUEST (R450). -/
structure MeterReq where
  -- the meter's index, or `noMeter` once its context is freed
  meter : Nat
  respRing : Nat
  tag : Nat
  invokeId : Nat
  -- CORE_CLK count at which it was accepted
  at_ : Nat
  deriving DecidableEq, Repr

/-- The host-interface state. -/
structure HostIf where
  msix : List (Nat × MsixEntry) := []
  rings : List (Nat × Ring) := []
  evr : Evr := {}
  monitors : List (Nat × Monitor) := []
  /-- |TSU_FREQ| samples of the current day while LOCKED: sum in ppb and count, for monitor 5 (R458). -/
  freqSum : Nat := 0
  freqCount : Nat := 0
  /-- The UTC day of the last daily sample (R458). -/
  sampledDay : Option Nat := none
  /-- Cached role certificates, least recently used first. -/
  certs : List CertEntry := []
  requests : List MeterReq := []
  /-- The PCIe function is in D3hot. -/
  d3hot : Bool := false
  /-- The configuration registers that host software has written, by offset (R429, R431). -/
  cfg : List (Nat × Word) := []
  /-- R9: the W1C bits that hardware set in the CORE_CLK cycle `setAt`, as a word by register offset. -/
  setNow : List (Nat × Nat) := []
  setAt : Nat := 0
  deriving DecidableEq, Repr

end Sys2Proof.Machine
end

