-- ==== Sys2Proof/Machine/Types/Keys.lean ====
section
/-! DEFINITION. Key state (11): slot metadata, meter, class and head keys at rest, broadcast generations, and the KEY
block's working state. The vault itself, its masks and the candidate register stand in the Cloche. -/

namespace Sys2Proof.Machine

/-- Metadata of a vault slot (R289). -/
structure SlotMeta where
  kind : Nat
  gen : Nat
  kcv : Nat
  deriving DecidableEq, Repr

/-- A meter's wraps and key descriptor (R300), and the key transfer in progress (R302): transfers still to be confirmed
and whether the meter's candidate is to be delivered. -/
structure MeterKeys where
  cur : Option KeySet := none
  cand : Option KeySet := none
  bcOk : Bool := false
  deliver : Bool := false
  /-- Key transfers ended with TX_CONFIRM status 0 so far. -/
  tries : Nat := 0
  deriving DecidableEq, Repr

/-- A class's authentication keys (R304) or a head's long-term keys (R305). -/
structure KeyPair where
  cur : Option KeySet := none
  cand : Option KeySet := none
  deriving DecidableEq, Repr

/-- A provisioning session (R291 to R293). -/
structure ProvSession where
  nonce : Nat
  ephemeral : Nat
  transport : Option Nat
  /-- CORE_CLK count at PROV_OPEN (R293). -/
  openedAt : Nat := 0
  deriving DecidableEq, Repr

/-- The previous generation of a record key, kept until the last record below S is done (R297); no S while the commit of the active
device has still to come (R316). -/
structure PrevKey where
  slot : Nat
  key : Nat
  gen : Nat
  below : Option Nat
  deriving DecidableEq, Repr

/-- A working key (R290). -/
structure WorkKey where
  kind : Nat
  gen : Nat
  key : Nat
  deriving DecidableEq, Repr

/-- An entry of an install command (R301, R304, R305), as its fields: the key set as plaintext beside its wrap. -/
structure InstallEntry where
  index : Nat
  flags : Nat
  kcv : Nat
  link : Nat
  global : Nat
  wrapped : Nat
  deriving DecidableEq, Repr

/-- The KEY block's state beside its registers. -/
structure KeyBlk where
  /-- Working keys by slot (R290). -/
  working : List (Nat × WorkKey) := []
  session : Option ProvSession := none
  previous : List PrevKey := []
  /-- DRBG requests since the last good seed, and since the last reseed (R312, R313). -/
  sinceSeed : Nat := 0
  sinceReseed : Nat := 0
  /-- Pending broadcast rolls: target, instant and the slot of the new generation's root (R308). -/
  rolls : List (Nat × Nat × Nat) := []
  /-- Roots this standby has committed before the active device, whose S is still to be taken (R296, R316): slot and kind. -/
  committed : List (Nat × Nat) := []
  /-- The slot of a ROOT_GENERATE that waits for the DRBG (R313). -/
  generating : Option Nat := none
  /-- Slots that held a root as KEY_ZERO came (R311). -/
  lost : List (Nat × SlotMeta) := []
  /-- Engine key registers of broadcast keys, by target (R16). -/
  bcastRegs : List (Nat × Nat) := []
  deriving DecidableEq, Repr

end Sys2Proof.Machine
end

