-- ==== Sys2Proof/Machine/Types/Durable.lean ====
section
/-! DEFINITION. The durable state (R15): everything the commit journal's records change, the journal itself (R362 to
R370), and the NAND array (13). A durable change is made by applying its journal record: the live path, replay (R373)
and the mirror (R411) apply the same records. -/

namespace Sys2Proof.Machine

/-- A checked calendar switch: the replaced CALENDAR section and the instant its successor applied (R218). -/
abbrev Superseded := Option (Calendar × Nat)

/-- The state the journal makes durable. -/
structure Dur where
  /-- The next device sequence number (R172). -/
  seqNext : Nat := 1
  /-- Freed indices, latest first; the free list goes on with the indices never allocated, rising (R185). -/
  freed : List Nat := []
  ctxs : List (Nat × Ctx) := []
  /-- The address index (R187): the meters of each 8-entry line, first entry first. -/
  index : List (Nat × List Nat) := []
  bills : List (Nat × BillBlock) := []
  bal : BalTab := {}
  keys : List (Nat × MeterKeys) := []
  classAks : List (Nat × KeyPair) := []
  headKeys : List (Nat × KeyPair) := []
  roots : List (Nat × SlotMeta) := []
  /-- Broadcast generations by target, a cell or 4,096 + 3f + p, with the slot of the root each derives from (R307). -/
  bcast : List (Nat × Nat × Nat) := []
  /-- REWRAP's source and target slots, and the meter indices passed; 1,048,576 once it has ended (R298). -/
  rewrap : Option (Nat × Nat × Nat) := none
  /-- Confirmation marks by ring (R444). -/
  confirmed : List (Nat × Nat) := []
  /-- Upper bound of the reserved event sequence numbers (R491). -/
  evReserved : Nat := 0
  /-- Last journaled mains cycle number by feeder (R106). -/
  zxC : List (Nat × Nat) := []
  superseded : Superseded := none
  /-- The latest journaled interval end and period boundary of each calendar instance, by 256 × kind + instance (R233). -/
  marks : List (Nat × Nat) := []
  /-- Periods closed by calendar instance: count and last boundary (R228). -/
  calClosed : List (Nat × Nat × Nat) := []
  /-- Armed Graft packages by slot (R50). -/
  armed : List (Nat × Staged) := []
  /-- Registered heads by index (R58, R67): EUI-64, EPOCH, IPv6 address and port of the current session. -/
  heads : List (Nat × HeadReg) := []
  /-- Campaign slots (10). -/
  campaigns : List (Nat × Campaign) := []
  /-- Campaign membership by 1,048,576 × campaign + meter (10). -/
  campMembers : List (Nat × CampMember) := []
  deriving DecidableEq, Repr

/-- A journal record (R363 to R367). -/
inductive JRec where
  | reading (r : ReadingRec)
  | alloc (index : Nat) (c : Ctx)
  | free (index : Nat)
  /-- A context's class and calendar instance (R278, R280). -/
  | ctxClass (index : Nat) (cls : Nat) (cal : Nat)
  /-- An OUT_COUNTER that crosses a multiple of 2^16 (R409, R411). -/
  | outMark (index : Nat) (value : Nat)
  | zxAssign (index : Nat) (z : Option ZxAssign)
  /-- The meter has been sent its SCHEDULE frame (R108). -/
  | zxTold (index : Nat)
  | keys (index : Nat) (k : MeterKeys)
  | classAk (cls : Nat) (k : KeyPair)
  | headKey (head : Nat) (k : KeyPair)
  | root (slot : Nat) (m : Option SlotMeta)
  | bcastGen (target gen slot : Nat)
  | arm (slot : Nat) (st : Staged)
  | disarm (slot : Nat)
  | applied (slot : Nat) (instant : Nat) (replaced : Option Calendar)
  | attach (meter : Nat) (m : Member)
  | detach (meter : Nat)
  | confirm (ring : Nat) (seq : Nat)
  | evReserve (upto : Nat)
  | cycle (feeder : Nat) (c : Nat)
  | closure (meter : Nat) (boundary : Nat)
  | calClosed (inst : Nat) (boundary : Nat)
  | head (index : Nat) (h : Option HeadReg)
  | campaign (slot : Nat) (c : Option Campaign)
  | campMember (slot : Nat) (meter : Nat) (m : Option CampMember)
  | ckptStart
  | ckptDone
  | time (kind : Nat) (arg : Nat) (sec : Nat) (ns : Nat)
  deriving DecidableEq, Repr

/-- A record in place: its line, unit and whether a READING's body has reached the archive or overflow (R373). -/
structure JEntry where
  line : Nat
  unit : Nat
  rec_ : JRec
  bodyKept : Bool := true
  deriving DecidableEq, Repr

/-- The MRAM journal and its log (R362 to R370). -/
structure Journal where
  /-- Records since the start line of the newest complete checkpoint, oldest first. -/
  entries : List JEntry := []
  /-- The current line and the units used in it, its anchor included; 0 before the anchor is written. -/
  line : Nat := 0
  used : Nat := 0
  /-- Lines below this are drained. -/
  drained : Nat := 0
  /-- Durable state as of the newest complete checkpoint; none before FORMAT. -/
  ckpt : Option Dur := none
  ckptLine : Nat := 0
  /-- A checkpoint in progress: its start line and the state as of it. -/
  ckptBusy : Option (Nat × Dur) := none
  /-- READING heads since the last checkpoint started. -/
  readings : Nat := 0
  /-- CORE_CLK cycle at which the last checkpoint started. -/
  ckptAt : Nat := 0
  /-- The overflow region: (sequence number, ring, record bytes), oldest first (R369). -/
  overflow : List (Nat × Nat × Bytes) := []
  /-- Highest sequence number a valid line holds (R490). -/
  lastSeq : Nat := 0
  /-- The last mirror-confirmed line (R404). -/
  mirrored : Nat := 0
  /-- What was appended beyond that line, while this device was last active, awaited the standby's CONFIRM (R173; log entry 85). -/
  waits : Bool := false
  deriving DecidableEq, Repr

/-- Byte `k` of a CONTROL record after HEAD: its OP code and operands have no given layout (R366; log entry 8). -/
opaque controlByte : JRec → Nat → Byte

/-- The CRC-64 (ECMA-182) of mirror entries after one more entry; CONTROL records' units have no given layout (R412; log
entry 8). -/
opaque mirrorCrc : BitVec 64 → Nat → JRec → BitVec 64

/-- An archived record: its sequence number, ring and bytes; none while its tag or signature is awaited (R356). -/
structure ArchRec where
  seq : Nat
  ring : Nat
  bytes : Option Bytes := none
  ecdsa : Bool := false
  /-- Released unsigned under R177 or the power-fail rule: pins its epoch until signed. -/
  unsignedRec : Bool := false
  deriving DecidableEq, Repr

/-- An archive epoch (R356 to R359). -/
structure Epoch where
  number : Nat
  recs : List ArchRec := []
  /-- Stripes programmed or programming. -/
  stripes : Nat := 0
  /-- Its stripe set is full; the seal's digest once sealed. -/
  full : Bool := false
  sealDigest : Option Nat := none
  sealRec : Option Bytes := none
  deriving DecidableEq, Repr

/-- A NAND die (R343, R352, R353). -/
structure Die where
  spares : Nat
  reserved : Nat
  retired : Nat := 0
  peMin : Nat := 0
  peMax : Nat := 0
  /-- P/E counts summed and blocks counted, for monitor 0 (R458). -/
  peSum : Nat := 0
  blocks : Nat := 0
  /-- CORE_CLK count of the last wear-levelling move (R352). -/
  lastMove : Option Nat := none
  deriving DecidableEq, Repr

/-- A NAND block's table entry (R346): P/E count, and PTP seconds and temperature of the first program. -/
structure Block where
  pe : Nat := 0
  programmed : Option (Nat × Int) := none
  retired : Bool := false
  weak : Bool := false
  deriving DecidableEq, Repr

/-- The NAND array and the NOR (13, 02). -/
structure Nand where
  /-- Dies by 4 × channel + CE. -/
  dies : List (Nat × Die) := []
  /-- Blocks by block number, those with an entry. -/
  blocks : List (Nat × Block) := []
  /-- A valid partition directory exists; the media state READ_ONLY it records (R355, R490). -/
  directory : Bool := false
  readOnly : Bool := false
  /-- Partition sizes in GiB of data as formatted. -/
  parts : List Nat := [0, 64, 32, 80]
  /-- Epochs, oldest first; the last is open. -/
  epochs : List Epoch := []
  epochNext : Nat := 0
  /-- Epochs the archive partition holds. -/
  epochCap : Nat := 0
  /-- Stripes of one epoch: pages of a block (R344). -/
  stripesPerEpoch : Nat := 1
  /-- Sequence numbers of records in the stripe being filled and in the one being programmed (R357). -/
  filling : List Nat := []
  programming : List Nat := []
  /-- Dies with a wear-levelling move under way (R352). -/
  moving : List Nat := []
  /-- Lowest sequence number the archive retains (NFM_ARCH_OLDEST). -/
  oldest : Nat := 0
  lastSealDigest : Nat := 0
  /-- The threshold table's entries that are not zero (R348). -/
  thresholds : List (Nat × Nat) := []
  /-- Trellis copies: NOR, NAND current and NAND previous; none where none is stored or it is marked bad (R351). -/
  nor : Option Bytes := none
  current : Option Bytes := none
  previous : Option Bytes := none
  /-- Applied Graft packages kept for R52, in the order applied: (slot, package). -/
  grafts : List (Nat × Package) := []
  /-- Campaign objects on NAND (R263). -/
  objects : List (Nat × Bytes) := []
  /-- A pass of the Rake is under way (R350). -/
  rakeRunning : Bool := false
  /-- CORE_CLK cycle at which the last pass began. -/
  rakeAt : Option Nat := none
  deriving DecidableEq, Repr

end Sys2Proof.Machine
end

