-- ==== Sys2Proof/Machine/Types/Pair.lean ====
section
/-! DEFINITION. Pairs and Runner links (15): what frames carry, and the pair's state beside its registers. -/

namespace Sys2Proof.Machine

/-- Which command a standby's application completes (R189, R245, R263, R296, R301, R49, R58). -/
inductive Finish where
  | ctx | fhm | bal | dst (campaign : Nat) | key | trl (slot : Nat)
  /-- ROOT_COMMIT of a candidate that both devices hold (R296): its slot and KCV. -/
  | root (slot kcv : Nat)
  /-- The object of campaign `slot` (R263, step 4). -/
  | load (slot : Nat)
  deriving DecidableEq, Repr

/-- A command forwarded to the standby: the durable changes it makes, what its application completes with which result,
and what is then written to host memory. -/
structure PairCmd where
  recs : List JRec
  finish : Finish
  result : Nat := 0
  /-- A staged Graft package that goes with it (R49). -/
  stage : Option (Nat × Staged) := none
  dma : List (Nat × Bytes) := []
  /-- A campaign's slot, descriptor and object (R263, step 4). -/
  object : Option (Nat × Campaign × Bytes) := none
  deriving DecidableEq, Repr

/-- The billing and balance engines' state that no reset keeps: the PTP second at which the time became valid (R231, R233); closure
sweeps running, by instance with their boundary (R228); the interval an evaluation runs for, those due after it, and an ATTACH or
DETACH that waits for its end (R247, R260). -/
structure BilRt where
  upSec : Nat := 0
  sweeps : List (Nat × Nat) := []
  eval : Option Nat := none
  due : List Nat := []
  waiting : Option PairCmd := none
  /-- The standby has already applied the waiting command. -/
  answered : Bool := false
  /-- The first interval to evaluate since the restart or takeover (R258). -/
  base : Nat := 0
  deriving DecidableEq, Repr

/-- A mirror entry that awaits CONFIRM (R411): its line, the CORE_CLK count of its entry, and the meter of a READING. -/
structure Sent where
  line : Nat
  at_ : Nat
  meter : Option Nat
  deriving DecidableEq, Repr

/-- A RESYNC frame's data (R413). -/
inductive ResyncItem where
  /-- The snapshot of the regions of R370 and of the Trellis, slots and grafts, as of a start line. -/
  | snapshot (startLine : Nat) (dur : Dur) (trellis : Trellis) (gens : List Nat) (buildSerial : Nat)
    (slots : List (Nat × Staged)) (grafts : List (Nat × Package)) (epochs : List Epoch) (objects : List (Nat × Bytes))
    (cycles : List Nat)
  /-- A journal record of the catch-up. -/
  | entry (line : Nat) (rec_ : JRec)
  /-- What travels outside a snapshot and the journal: Graft packages (R49) and each feeder's C (R106). -/
  | held (slots : List (Nat × Staged)) (cycles : List Nat)
  /-- A SYNCING standby asks for a resynchronisation from the start. -/
  | again
  deriving DecidableEq, Repr

/-- A HELLO payload (R426): STATE, last yield cause, last mirror-confirmed line, BUILD_SERIAL and digest of BUCKET_OWNER. -/
structure Hello where
  state : Nat
  cause : Nat
  confirmed : Nat
  buildSerial : Nat
  mapDigest : Nat
  deriving DecidableEq, Repr

/-- The payloads of Runner frames (R426). -/
inductive RunnerMsg where
  | hello (h : Hello)
  | mirror (line : Nat) (rec_ : JRec)
  | confirm (line : Nat)
  | forwardUp (f : Staged0)
  /-- An acceptance: the meter's EUI-64, the frame's counter, and the secured acknowledgements for RX1 and RX2. -/
  | acceptNotice (eui counter : Nat) (rx1 rx2 : Psdu)
  | forwardDown (id : Nat) (eui : Nat) (t0 : Nat) (psdu : Psdu)
  | downConfirm (id status : Nat)
  | command (c : PairCmd)
  | resync (i : ResyncItem)
  | digest (crc : Nat)
  /-- The answer to a command, in a COMMAND frame: whether the standby applied it. -/
  | applied (ok : Bool)
  deriving DecidableEq, Repr

/-- The payload of a Runner frame other than HELLO: the spec gives it no layout (R426; log entry 89). -/
opaque runnerPayload : RunnerMsg → Bytes

/-- The header of a Runner frame that arrives on a link (R426), FLAGS bit 0 and the CRC-32 that ends it. -/
structure RHdr where
  link : Nat
  src : Nat
  dst : Nat
  hops : Nat
  seq : Nat
  ack : Nat
  crc : Nat
  again : Bool := false
  deriving DecidableEq, Repr

/-- A frame on a link that its receiver has not acknowledged: SEQ, source and destination position, HOPS and payload,
CORE_CLK count of its last transmission and its retransmissions. -/
structure Unacked where
  seq : Nat
  src : Nat
  dst : Nat
  hops : Nat
  msg : RunnerMsg
  sentAt : Nat
  tries : Nat := 0
  deriving DecidableEq, Repr

/-- A Runner link beside its registers (R425, R427). -/
structure Link where
  seq : Nat := 0
  /-- Highest SEQ received in order; 65,535 before the first frame. -/
  ack : Nat := 65535
  unacked : List Unacked := []
  mapDigest : Option Nat := none
  deriving DecidableEq, Repr

/-- An orderly handover under way (R415): waits for work in flight and for the last CONFIRM. -/
structure Handover where
  since : Nat
  deriving DecidableEq, Repr

/-- The pair's state beside its registers. -/
structure Prl where
  links : List (Nat × Link) := []
  hello : Option Hello := none
  /-- The pair logic runs: from start-up step 9 on. -/
  up : Bool := false
  /-- OUT was entered at step 9, in a locked state (R475). -/
  outAtStart : Bool := false
  /-- Entries awaiting CONFIRM, oldest first. -/
  outstanding : List Sent := []
  pendingCmds : List PairCmd := []
  /-- Standby: durable changes that forwarded commands made and whose mirror entries have not come. -/
  applied : List JRec := []
  /-- Fault causes in force, a HANDOVER-class cause held for want of a standby, and the cause of this device's last
  yield. -/
  causes : List Nat := []
  held : Option Nat := none
  lastYield : Nat := 0
  handover : Option Handover := none
  /-- PAIR_TAKE is released by a STANDBY device (R415). -/
  taking : Bool := false
  /-- Start of the unbroken STANDBY time that the hold-off counts, and of control held, in CORE_CLK cycles. -/
  standbySince : Option Nat := none
  controlSince : Option Nat := none
  /-- Start of the partner's control since a takeover or handover this device saw, in CORE_CLK cycles (R418). -/
  partnerSince : Option Nat := none
  /-- CORE_CLK cycle at which probation ends (R417). -/
  probation : Option Nat := none
  /-- Standby: the snapshot has come, and whether roots and BUILD_SERIAL agree with the active device's (R296, R413). -/
  synced : Bool := false
  agrees : Bool := true
  /-- Entries and their CRC-64 since the last DIGEST (R412). -/
  sinceDigest : Nat := 0
  crc : Nat := 0
  /-- Standby: engines have passed their known-answer tests (R412), and its build serial equals the partner's. -/
  enginesOk : Bool := true
  /-- Active: records that wait while a snapshot runs. -/
  staged : List (Nat × JRec) := []
  /-- A broadcast-restart after R409: meters whose OUT_COUNTER has moved ahead since the takeover; none before one. -/
  moved : Option (List Nat) := none
  /-- Active: a commit went on without the standby's confirmation, which counts as unsynchronised since (R173). -/
  unsynced : Bool := false
  /-- Lines that the partner releases: bit 0 ACTIVE, 1 HEALTHY, 2 TAKE, 3 YIELD (R402). -/
  lines : Nat := 0
  /-- CORE_CLK cycles: of the entry to LISTEN; since which PAIR_ACTIVE has been low; of the last PRL_HOST_BEAT write; of the
  last yield; and of the last count of a day (R404, R405, R408, R418). -/
  listenAt : Nat := 0
  lowSince : Option Nat := some 0
  beatAt : Nat := 0
  yieldAt : Nat := 0
  drillAt : Nat := 0
  deriving DecidableEq, Repr

end Sys2Proof.Machine
end

