-- ==== Sys2Proof/Machine/Types/Time.lean ====
section
/-! DEFINITION. The time-stamp unit and its PTP ports (12), beside their registers. Instants are PTP
ns unless a unit is named; 1/256 ns and 2^-32 ns units are named where used. -/

namespace Sys2Proof.Machine

/-- What an Announce of a foreign master carries (R329, R334): its data set in BMCA order, and its UTC fields. -/
structure Announce where
  priority1 : Nat
  clockClass : Nat
  accuracy : Nat
  variance : Nat
  priority2 : Nat
  identity : Nat
  stepsRemoved : Nat
  /-- PTP timescale (ARB is not qualified). -/
  ptpTimescale : Bool
  utcOffset : Int
  utcValid : Bool
  leap59 : Bool
  leap61 : Bool
  /-- logMessageInterval of the Announce, −7 to 4. -/
  interval : Int := 0
  timeTraceable : Bool := false
  frequencyTraceable : Bool := false
  /-- timeSource; 0xA0 is an internal oscillator. -/
  timeSource : Nat := 0xA0
  deriving DecidableEq, Repr

/-- A PTP message's header as R324 checks it. -/
structure PtpHdr where
  domain : Nat
  sdo : Nat
  transport : Nat
  tagged : Bool := false
  /-- Version, length and TLV framing well formed, one 802.1Q tag at most. -/
  formOk : Bool := true
  /-- sourcePortIdentity. -/
  source : Nat
  seq : Nat
  /-- Frame octets, FCS included. -/
  len : Nat := 64
  /-- logMessageInterval. -/
  interval : Int := 0
  /-- requestingPortIdentity of an answer to a delay request. -/
  requester : Nat := 0
  /-- correctionField in 2^-16 ns. -/
  correction : Int
  twoStep : Bool
  deriving DecidableEq, Repr

/-- A PTP message the device sends: its type, sequenceId, time-stamp field and correctionField (2^-16 ns), logMessageInterval,
twoStepFlag, the requestingPortIdentity of an answer, and an Announce's data set. -/
structure PtpMsg where
  type : Nat
  seq : Nat
  stamp : Int := 0
  correction : Int := 0
  interval : Int
  twoStep : Bool := false
  requester : Nat := 0
  ann : Option Announce := none
  deriving DecidableEq, Repr

/-- A foreign master of a port: its port identity, its last Announce, and the CORE_CLK cycles of that one and of the one before. -/
structure Foreign where
  source : Nat
  ann : Announce
  heard : Nat
  before : Option Nat := none
  deriving DecidableEq, Repr

/-- A port's protocol state. Time-stamps in 2^-16 ns. -/
structure PtpPort where
  /-- The masters the port hears, and the qualified one it takes, with its port identity. -/
  foreign : List Foreign := []
  best : Option Announce := none
  source : Nat := 0
  /-- The port has left LISTENING since it was enabled. -/
  listened : Bool := false
  /-- CORE_CLK cycle of its last Announce, or of the last expiry of its receipt timeout. -/
  heard : Nat := 0
  /-- Two-step Sync awaiting its Follow_Up: sequence, t2 and correction. -/
  sync : Option (Nat × Int × Int) := none
  /-- t2 − t1 − c_sync of the last complete Sync. -/
  msDiff : Option Int := none
  /-- CORE_CLK cycle of the last Sync, or of the last expiry of its receipt timeout, and that Sync's logMessageInterval. -/
  syncAt : Nat := 0
  syncLog : Int := 0
  /-- Delay_Req or Pdelay_Req awaiting its answer: sequence and t3 or t1. -/
  req : Option (Nat × Int) := none
  /-- CORE_CLK cycle at which it was sent. -/
  reqAt : Nat := 0
  /-- Pdelay_Resp awaiting its follow-up: source, sequence, t2 as carried, t4, correction. -/
  presp : Option (Nat × Nat × Int × Int × Int) := none
  /-- Mean path delays of the last end-to-end exchanges, latest first, and the peer delay. -/
  delays : List Int := []
  peer : Option Int := none
  seqSync : Nat := 0
  seqAnnounce : Nat := 0
  seqReq : Nat := 0
  deriving DecidableEq, Repr

/-- A Cloche oscillator measurement (R337): length, source, feeder and whether the reference has
held so far. -/
structure CloMeas where
  gate : Nat
  source : Nat
  feeder : Nat
  trusted : Bool := true
  deriving DecidableEq, Repr

/-- The time-stamp unit. -/
structure Tsu where
  sec : Nat := 0
  ns : Nat := 0
  /-- Fraction of a nanosecond in 2^-32 ns. -/
  frac : Nat := 0
  /-- What remains of a slew, in 2^-32 ns. -/
  slew : Int := 0
  /-- Increment in force per CORE_CLK tick, in 2^-32 ns (R319). -/
  incr : Nat := 3495253333
  lockRun : Nat := 0
  /-- State from which ACQUIRING was entered, and CORE_CLK cycle of the entry to HOLDOVER. -/
  acqFrom : Nat := 0
  holdSince : Nat := 0
  /-- Increment that HOLDOVER holds: the mean of the last 64 s of lock. -/
  holdIncr : Nat := 3495253333
  /-- (second, increment) of the last 64 s of lock, latest first (R330). -/
  freqHist : List (Nat × Nat) := []
  ports : List (Nat × PtpPort) := []
  /-- The master the slave port follows. -/
  master : Option Announce := none
  /-- The other registers latched by a read of TSU_TIME_FRAC or TSU_PPS_IN_NS. -/
  timeLatch : Option (Nat × Nat) := none
  ppsLatch : Option Nat := none
  /-- Last 1PPS_IN stamp, and edges missed in a row. -/
  pps : Option (Nat × Nat) := none
  ppsMissed : Nat := 0
  /-- CORE_CLK cycle of the last edge, or of the last one that an edge was missed for. -/
  ppsAt : Nat := 0
  ppsOut : Bool := false
  /-- CORE_CLK cycle at which 1PPS_OUT rose. -/
  ppsOutAt : Nat := 0
  /-- Second boundary of the last 1PPS_OUT edge. -/
  ppsOutSec : Option Nat := none
  clo : Option CloMeas := none
  /-- (first TAI second, offset before it) of each leap second seen, latest first (R216, R334). -/
  leaps : List (Nat × Int) := []
  deriving DecidableEq, Repr

end Sys2Proof.Machine
end

