-- ==== Sys2Proof/Machine/Types/Out.lean ====
section
/-! DEFINITION. What the device sends: messages and writes to the host, datagrams, frames, link frames and pin levels.
`Dev.out` keeps them, the latest first. -/

namespace Sys2Proof.Machine

/-- What leaves the device. -/
inductive Out where
  /-- An MSI-X message: vector, address and data (R433). -/
  | msix (vector addr data : Nat)
  /-- A write to host memory. -/
  | dma (addr : Nat) (bytes : Bytes)
  /-- An HLP datagram (R61, R62): head, Ethernet port, IPv6 address, UDP port at both ends, and the UDP payload. -/
  | hlp (head port addr udp : Nat) (dgram : Bytes)
  /-- A PTP message: port, message, and the frame's octets with its UDP checksum and FCS (R327). -/
  | ptp (port : Nat) (m : PtpMsg) (frame : Bytes)
  /-- A frame of the port's responder or of neighbour resolution: port, kind (0 Neighbor Advertisement, 1 Echo Reply,
  2 ARP reply, 3 Neighbor Solicitation), destination MAC and address. -/
  | net (port kind mac addr : Nat) (bytes : Bytes)
  /-- A Runner frame: link, source and destination position, HOPS, SEQ, ACK and payload, FLAGS bit 0, and the bytes of it
  all (R426). -/
  | runner (link src dst hops seq ack : Nat) (m : RunnerMsg) (again : Bool) (bytes : Bytes)
  /-- A ZX-PLC outbound frame begins: feeder, phase, TYPE and data bits. -/
  | zxFrame (feeder phase type : Nat) (bytes : Bytes)
  /-- A ZXG pulse (R111): feeder, phase, the predicted crossing in PTP ns, and the rising edge after it and the width in MSR_CLK
  periods. -/
  | zxPulse (feeder phase pred : Nat) (rise : Int) (width : Nat)
  /-- A page read of the NAND (R347, R348): die, block, page address, entry of the threshold table and its seven offsets. -/
  | nandRead (die block addr entry offsets : Nat)
  /-- A pin level: 0 1PPS_OUT, 1 TAMPER_OUT_N, 2 ZXG by 3 × feeder + phase, 3 GPIO, 4 NFn_WP_N by channel. -/
  | pin (name : Nat) (index : Nat) (level : Bool)
  deriving DecidableEq, Repr

end Sys2Proof.Machine
end

