-- ==== Sys2Proof/Machine/Types/Eth.lean ====
section
/-! DEFINITION. The Ethernet ports (12) beside their registers. -/

namespace Sys2Proof.Machine

/-- A neighbour-cache entry: IPv6 address, MAC and CORE_CLK cycle of the last datagram from it (R340). -/
structure Neighbour where
  addr : Nat
  mac : Nat
  seen : Nat
  deriving DecidableEq, Repr

/-- A destination under resolution: solicitations sent, the CORE_CLK cycle of the last, and the datagrams that wait, each
with the cycle of its arrival. -/
structure Resolving where
  addr : Nat
  tries : Nat
  asked : Nat
  waiting : List (Nat × Out)
  deriving DecidableEq, Repr

/-- An Ethernet port beside its registers. -/
structure EthPort where
  /-- ETH_n_CNT_k by k; one not listed is 0. -/
  counters : List (Nat × Nat) := []
  /-- HI halves latched by a read of LO. -/
  latched : List (Nat × Nat) := []
  cache : List Neighbour := []
  resolving : List Resolving := []
  /-- Echo Requests answered in the second `echoSec`. -/
  echoSec : Nat := 0
  echoes : Nat := 0
  deriving DecidableEq, Repr

end Sys2Proof.Machine
end

