-- ==== Sys2Proof/Machine/Types/Glb.lean ====
section
/-! DEFINITION. Reset and start-up state (17) and the Trellis loader's state (02), beside their registers. -/

namespace Sys2Proof.Machine

/-- The states of the IEEE 1149.1 TAP controller (R479). -/
inductive TapState where
  | logicReset | runTest
  | selectDr | captureDr | shiftDr | exit1Dr | pauseDr | exit2Dr | updateDr
  | selectIr | captureIr | shiftIr | exit1Ir | pauseIr | exit2Ir | updateIr
  deriving DecidableEq, Repr

/-- The JTAG instructions of R479. -/
inductive JtagInstr where
  | bypass | idcode | samplePreload | extest
  deriving DecidableEq, Repr

/-- The JTAG port: its controller, the instruction in force, the shift register (the bit next to TDO first) and the levels
last latched for the pins. -/
structure Tap where
  state : TapState := .logicReset
  instr : JtagInstr := .idcode
  shift : List Bool := []
  latched : List Bool := []
  deriving DecidableEq, Repr

/-- Reset lines, start-up and power-fail state (R371, R372, R468 to R475). -/
structure Glb where
  /-- A reset holds the device: RESET_N or PWRGOOD low, or the thermal trip's self-held reset. -/
  inReset : Bool := false
  resetNLow : Bool := false
  pwrgoodLow : Bool := false
  tripHeld : Bool := false
  perstLow : Bool := false
  /-- POWER_FAIL_N is low. -/
  powerFail : Bool := false
  /-- Step 3 waits for POWER_FAIL_N (R472). -/
  failWait : Bool := false
  /-- CORE_CLK count at RESET_N release. -/
  released : Nat := 0
  /-- CORE_CLK count at PERST_N's last rise. -/
  perstRise : Nat := 0
  /-- First frame admitted since start-up. -/
  ready : Bool := false
  /-- Step 7 has placed ZONE_MODEL and waits for the seal (R45). -/
  sealWait : Bool := false
  /-- CORE_CLK count at which that wait began. -/
  sealAt : Nat := 0
  badGrafts : List Nat := []
  /-- Levels read at the GPIO pins. -/
  gpioIn : Nat := 0
  /-- The JTAG port, which TRST_N low holds in its reset state in service (R479). -/
  tap : Tap := {}
  deriving DecidableEq, Repr

/-- What a die's ONFI parameter page says (R343): maker and model, TLC, page size, NV-DDR3 and its rate, tPROG and tBERS, blocks
of the die and pages of a block. -/
structure NandPart where
  model : Nat := 0
  tlc : Bool := true
  pageKiB : Nat := 16
  nvddr3 : Bool := true
  mts : Nat := 1600
  tProgUs : Nat := 1200
  tBersMs : Nat := 10
  blocks : Nat := 2048
  pages : Nat := 4608
  deriving DecidableEq, Repr

/-- The NAND dies found at step 8, by 4 × channel + CE (R343). -/
structure NandFit where
  dies : List (Nat × NandPart) := (List.range 8).map fun c => (4 * c, {})
  deriving DecidableEq, Repr

/-- What a NAND program or erase was for: the archive stripe, a stripe of the journal log, the copy of a weak block (R349),
a wear-levelling move (R352), any other write of `pages` pages, or an erase. -/
inductive NandJob where
  | archive
  | log
  | refresh
  | move
  | write (pages : Nat)
  | erase
  deriving DecidableEq, Repr

/-- What a start-up step finds (R473): the Cloche oscillator's state and levels that step 3 reads, the self-test's failure
bits at step 4, the identity memories of each slot at step 6 (front end and line driver, up to three attempts each), the
LPDDR5 channels in GiB and the second digest of ZONE_MODEL at step 7, the slots of stored Graft packages whose copy is
uncorrectable, the NAND parts at step 8, and the ms its replay takes. -/
structure StepReport where
  selftest : Nat := 0
  modules : List (List (Option Bytes) × List (Option Bytes)) := []
  ch0 : Nat := 8
  ch1 : Nat := 8
  zoneOk : Bool := true
  badGrafts : List Nat := []
  nand : NandFit := {}
  replayMs : Nat := 0
  deriving DecidableEq, Repr

/-- The Trellis loader (02): the live base and its slots. -/
structure TrlRt where
  live : Option Trellis := none
  buildSerial : Nat := 0
  secVersion : Nat := 0
  /-- The live base's owner public key, 64 B as a number. -/
  ownerKey : Nat := 0
  /-- Start-up step 5: the next source to try, and the result codes of the sources that failed, as ARG1 of TRELLIS_FALLBACK
  holds them (R40, R43). -/
  nextSource : Nat := 0
  failed : Nat := 0
  /-- Sealed: RWL registers and the base are fixed until reset (R45, R46). -/
  sealed : Bool := false
  /-- Slots 0 to 2 (R47): a package STAGED, or ARMED with its instant. -/
  slots : List (Nat × Staged) := []
  /-- CORE_CLK count at which an application last emptied each slot (R48, R55). -/
  emptiedAt : List (Nat × Nat) := []
  /-- Fuses: the bound owner's hash (R37) and the security floor's blown positions (R38). -/
  ownerFuse : Option Nat := none
  floor : Nat := 0
  deriving DecidableEq, Repr

end Sys2Proof.Machine
end

