-- ==== Sys2Proof/Machine/Banks.lean ====
section
/-! DEFINITION. The fixed banks of the device: the three phases of a feeder (R103), the four feeders, and the four module
slots (R146). -/

namespace Sys2Proof.Machine

/-- One of a kind per phase: L1, L2, L3. -/
structure Three (α : Type) where
  l1 : α
  l2 : α
  l3 : α
  deriving DecidableEq, Repr

/-- One of a kind per feeder or slot: 0 to 3. -/
structure Four (α : Type) where
  n0 : α
  n1 : α
  n2 : α
  n3 : α
  deriving DecidableEq, Repr

namespace Three

/-- The one of phase `i`, or `x` where there is none. -/
def getD {α : Type} (b : Three α) (i : Nat) (x : α) : α :=
  if i = 0 then b.l1 else if i = 1 then b.l2 else if i = 2 then b.l3 else x

/-- Replace the one of phase `i`. -/
def set {α : Type} (b : Three α) (i : Nat) (x : α) : Three α :=
  if i = 0 then { b with l1 := x } else if i = 1 then { b with l2 := x } else if i = 2 then { b with l3 := x } else b

def map {α : Type} (b : Three α) (f : α → α) : Three α := ⟨f b.l1, f b.l2, f b.l3⟩

end Three

namespace Four

/-- The one numbered `i`, or `x` where there is none. -/
def getD {α : Type} (b : Four α) (i : Nat) (x : α) : α :=
  if i = 0 then b.n0 else if i = 1 then b.n1 else if i = 2 then b.n2 else if i = 3 then b.n3 else x

/-- Replace the one numbered `i`. -/
def set {α : Type} (b : Four α) (i : Nat) (x : α) : Four α :=
  if i = 0 then { b with n0 := x } else if i = 1 then { b with n1 := x }
  else if i = 2 then { b with n2 := x } else if i = 3 then { b with n3 := x } else b

def map {α : Type} (b : Four α) (f : α → α) : Four α := ⟨f b.n0, f b.n1, f b.n2, f b.n3⟩

def toList {α : Type} (b : Four α) : List α := [b.n0, b.n1, b.n2, b.n3]

end Four

end Sys2Proof.Machine
end

