-- ==== Sys2Proof/Machine/Types/Msr.lean ====
section
/-! DEFINITION. The measurement chain's state (05) beside its registers. -/

namespace Sys2Proof.Machine

/-- A swap: stages (bit 0 FIR1, 1 FIR2, 2 Hilbert), target banks and fade length (R139). -/
structure Swap where
  mask : Nat
  target : Nat
  fade : Nat
  deriving DecidableEq, Repr

/-- A channel entry of an identity record (R146). -/
structure ModEntry where
  ratio : Nat
  gain : Int
  phase : Int
  tempco : Int
  phaseTc : Int
  flags : Nat
  deriving DecidableEq, Repr

/-- An accepted identity record. -/
structure ModRec where
  serial : Nat
  calTemp : Int
  tempOffset : Int
  tempSlope : Int
  entries : List ModEntry
  deriving DecidableEq, Repr

/-- A module slot: its accepted records, and the last serial of each kind accepted since start-up. -/
structure ModSlot where
  front : Option ModRec := none
  line : Option ModRec := none
  lastFront : Option Nat := none
  lastLine : Option Nat := none
  deriving DecidableEq, Repr

/-- The SDI inputs at one sampling edge: the time-stamp unit's time in PTP ns, and bit n of input SDIn (R127). -/
abbrev Sdi := Nat × Word

/-- A fast-tap sample (R130): the time-stamp of its output in PTP ns, its value and VALID. -/
structure FastTap where
  at_ : Nat
  value : Int
  valid : Bool
  deriving DecidableEq, Repr

/-- A channel in the chain (R127 to R136). Lists are latest first; an empty one is cleared. -/
structure ChanRt where
  /-- Bits received, as far as the delay line reaches. -/
  line : List Bool := []
  /-- Bits since the interpolator was cleared, as far as it matters. -/
  fed : Bool := false
  integ : List Int := []
  combs : List Int := []
  fir1 : List Int := []
  fir2 : List Int := []
  /-- Outputs, as far as the Hilbert filter reaches, and its latest output. -/
  out : List Int := []
  hil : Int := 0
  fast : List FastTap := []
  /-- Samples that stay invalid: of the output, of the reactive path, of the fast tap (R135, R149). -/
  left : Nat := 0
  leftQ : Nat := 0
  leftFast : Nat := 0
  /-- VALID of the last output sample and of the last reactive one, and whether a stage clamped it (R131). -/
  valid : Bool := false
  validQ : Bool := false
  clamped : Bool := false
  deriving DecidableEq, Repr

/-- A quantity's sum over the mains cycle in progress (R142): its parts by balance interval, the crossing the cycle began at in
PTP ns, and its samples. -/
structure CycleSum where
  parts : List (Nat × Int) := []
  since : Nat := 0
  samples : Nat := 0
  deriving DecidableEq, Repr

/-- A feeder's balance interval in progress (R144): energies in 2^-32 µWh, invalid samples, flags, and the sums of squares of IN and
of the residual with their number of samples. -/
structure FeederInt where
  energy : List Int := List.replicate 16 0
  invalid : Nat := 0
  saturated : Bool := false
  untrusted : Bool := false
  squaresN : Nat := 0
  squaresR : Nat := 0
  samples : Nat := 0
  deriving DecidableEq, Repr

/-- A feeder's energies since reset in 2^-32 µWh (R143), its running cycles (active and reactive of each phase, active and reactive
totals), its intervals, and its neutral alarm (R254). -/
structure FeederAcc where
  energy : List Int := List.replicate 16 0
  cycles : List CycleSum := []
  ints : List (Nat × FeederInt) := []
  /-- Consecutive intervals above and below the neutral limit, and whether its alarm stands (R254). -/
  above : Nat := 0
  below : Nat := 0
  neutral : Bool := false
  deriving DecidableEq, Repr

/-- What a PTP second's output samples amount to (R141, R148): the second, the time-stamps of its first and last sample, their
number, and by channel the sums of values and squares of its valid samples and their number. -/
structure SecondAcc where
  sec : Nat := 0
  first : Nat := 0
  last : Nat := 0
  samples : Nat := 0
  sums : List (Nat × Int × Nat × Nat) := []
  deriving DecidableEq, Repr

/-- The measurement chain. -/
structure Msr where
  /-- MSR_CHAIN and MSR_SHIFT in force. -/
  chain : Word := 0x374
  shift : Word := 0x16160D0D
  /-- Stored coefficients by 128 × stage + 64 × bank + index, where they differ from the nominal set (R138). -/
  coefs : List (Nat × Nat) := []
  fade : Option Swap := none
  pend : Option Swap := none
  /-- Channels in the chain, and input bits since the decimation counters restarted. -/
  chans : List (Nat × ChanRt) := []
  tick : Nat := 0
  /-- A synchronising reset's settling has not yet been reported (R135). -/
  settles : Bool := false
  /-- The second in progress and the one before it. -/
  now : SecondAcc := {}
  before : SecondAcc := {}
  /-- |H(f1)| of a feeder in units of 2^-60, and the mean cycle interval it is taken at, in 1/16 ns (R137). -/
  gains : List (Nat × Nat) := []
  periods : List (Nat × Nat) := []
  /-- The armed reset restarts the decimation counters. -/
  restart : Bool := false
  /-- P_n that each channel's applied delay moves toward. -/
  target : List (Nat × Nat) := []
  /-- The last mean of each slot's temperature entry (R148). -/
  means : List (Nat × Int) := []
  slots : Four ModSlot := ⟨{}, {}, {}, {}⟩
  feeders : Four FeederAcc := ⟨{}, {}, {}, {}⟩
  /-- MOD_PRESENT_N levels at the pins: bit n, slot n low. -/
  present : Nat := 0
  deriving DecidableEq, Repr

end Sys2Proof.Machine
end

