-- ==== Sys2Proof/Machine/Types/Zx.lean ====
section
/-! DEFINITION. ZX-PLC tracking, rounds and frames (04), beside the ZXP registers. Crossing times are PTP ns. -/

namespace Sys2Proof.Machine

/-- Crossings of one direction on a phase: the last accepted, substitutions since, and the last two window integrals as mean currents
in µA, latest first (R103, R121). -/
structure ZxDir where
  last : Option Nat := none
  /-- The latest predicted instant (R111). -/
  pred : Option Nat := none
  subs : Nat := 0
  windows : List Int := []
  deriving DecidableEq, Repr

/-- What an outbound frame carries: TIME, the ACK of a round, a SCHEDULE or a DOWNLINK for a meter (a downlink by its kind
and number), or a campaign block. -/
inductive ZxPurpose where
  | time
  | ack (round : Nat)
  | schedule (meter : Nat)
  | downlink (meter : Nat) (kind : DlKind) (id : Nat)
  | dist (campaign : Nat)
  deriving DecidableEq, Repr

/-- An outbound frame in progress: what it carries, its counter, the phase cycle it starts at, its header's 44 bits, the
symbols known (all but an ACK's data blocks, until BITMAP is fixed) and those sent. -/
structure ZxFrame where
  purpose : ZxPurpose
  counter : Nat
  cycle : Nat
  header : List Bool
  symbols : List Nat
  sent : Nat := 0
  /-- BITMAP of an ACK, once fixed. -/
  bitmap : Option Nat := none
  /-- ZXP_SCHED as a TIME frame carries it. -/
  sched : Word := 0
  deriving DecidableEq, Repr

/-- The frame a channel sends in the uplink period: the data bits of its decoded blocks, first block first, and blocks
seen; `failed` once one block has failed (R119), `silent` where the header block was (R114). -/
structure ZxUp where
  bits : List Bool := []
  blocks : Nat := 0
  nblk : Nat := 0
  failed : Bool := false
  silent : Bool := false
  deriving DecidableEq, Repr

/-- One phase. -/
structure ZxPhase where
  rise : ZxDir := {}
  fall : ZxDir := {}
  /-- Crossings accepted in a row while ACQUIRING; the last 16 accepted full-cycle intervals in ns, latest first; cycles in
  HOLDOVER. -/
  accepted : Nat := 0
  intervals : List Nat := []
  held : Nat := 0
  /-- Rising crossings used, PTP ns, latest first, as far as samples may still come that lie before them (R142). -/
  edges : List Nat := []
  /-- The window not yet integrated: its crossing's direction, PTP ns and half-cycle. -/
  window : Option (Bool × Nat × Nat) := none
  /-- s[k] by cycle, latest first, in µA (R114). -/
  sums : List (Nat × Int) := []
  /-- The phase's own cycle number, and the half-cycles flagged by load steps or unlock, as 2 × cycle + (1: falling). -/
  cycle : Nat := 0
  flagged : List Nat := []
  /-- The feeder's cycle at which the phase stopped being tracked, while it is UNLOCKED or ACQUIRING, and earlier spans without
  tracking (R104). -/
  off : Option Nat := some 0
  gaps : List (Nat × Nat) := []
  /-- ZXG: PTP ns at which the latest pulse ends. -/
  gate : Option Nat := none
  /-- PTP ns of driver faults in the last hour, latest first; transmission waits for the 10 s. -/
  faults : List Nat := []
  resting : Bool := false
  frame : Option ZxFrame := none
  outCtr : Nat := 0
  /-- Uplink channels of the round in progress. -/
  up : List (Nat × ZxUp) := []
  /-- Channels whose frame of this round has been committed or found a duplicate (R120). -/
  acked : Nat := 0
  /-- BITMAP of this round is fixed. -/
  fixed : Bool := false
  /-- A TIME frame carrying the pending ZXP_SCHED has been sent. -/
  told : Bool := false
  /-- Frames sent in this downlink period: TIME, DIST, and the meters of its DOWNLINK frames. -/
  timeSent : Bool := false
  distSent : Bool := false
  /-- Rounds since the phase's last TIME frame. -/
  sinceTime : Nat := 0
  served : List Nat := []
  deriving DecidableEq, Repr

/-- One feeder. -/
structure ZxFeeder where
  /-- C, and whether V1 has locked since start-up. -/
  c : Nat := 0
  started : Bool := false
  /-- Crossing time-stamps kept: (cycle, PTP ns), latest first (R107). -/
  times : List (Nat × Nat) := []
  phases : Three ZxPhase := ⟨{}, {}, {}⟩
  round : Nat := 0
  /-- ZXP_SCHED in force, where it differs from the register: the register's value waits (R109). -/
  sched : Option Word := none
  /-- This round's uplink is decoded: the device served meters as the round began (R126). -/
  decoding : Bool := false
  /-- Meters sent their SCHEDULE frame in this round, with the assignment that stays in effect for it (R108). -/
  turned : List (Nat × Option ZxAssign) := []
  /-- Mean correlation magnitudes learned by meter: sum and frames (R114). -/
  learned : List (Nat × Nat × Nat) := []
  /-- C and the crossing time latched by a read of ZXP_CYCLE. -/
  latch : Option (Nat × Nat) := none
  deriving DecidableEq, Repr

/-- The ZXP block: a feeder each. -/
structure Zxp where
  feeders : Four ZxFeeder := ⟨{}, {}, {}, {}⟩
  deriving DecidableEq, Repr

end Sys2Proof.Machine
end

