-- ==== Sys2Proof/Syntax.lean ====
section
/-! DEFINITION. The commands: one constructor per row of the spec's command table. An operand is what the command brings
from outside: an address or a value written, a datagram's bytes, host memory a command reads, an instant or a level. -/

namespace Sys2Proof

open Sys2Proof.Machine

/-- The commands. -/
inductive Instr where
  /-- REGISTER_WRITE (R8): A host write to a BAR0 register that has no row of its own takes effect by the field types. -/
  | registerWrite (off be : Nat) (v : Word)
  /-- CLO_ACCESS_ARRIVAL (R7): A CLO register access reaches the Cloche over the slow bridge and acts there. -/
  | cloAccessArrival (read : Option Nat)
  /-- COUNTER_CLEAR (R461): A CNT_CLEAR or ARB_CLEAR bit is written and the block's counters are cleared. -/
  | counterClear (off : Nat) (arb : Bool)
  /-- RESET_ASSERT (R470): RESET_N or PWRGOOD is held low for 10 µs; everything outside the Cloche resets and the cause is
  recorded. -/
  | resetAssert (resetN pwrgood : Bool)
  /-- RESET_RELEASE (R473): RESET_N is released and Seedbed starts the start-up sequence. -/
  | resetRelease (pwrgood : Bool)
  /-- STARTUP_STEP_COMPLETE (R473): A start-up step finishes and Seedbed goes on to the next step or halts. -/
  | startupStepComplete (r : StepReport)
  /-- SEAL_WAIT_EXPIRE (R45): HOST_SEAL_WAIT expires without a host seal and the device seals itself. -/
  | sealWaitExpire
  /-- HOST_SEAL (R45): Host software writes TRL_CTRL.SEAL while STRUCTURED and the structure seals at once. -/
  | hostSeal
  /-- THERMAL_TRIP (R484): The die sensor reads 135 °C for 1 ms and the device resets itself. -/
  | thermalTrip
  /-- THERMAL_TRIP_RELEASE (R484): The sensor falls below the maximum less 10 °C and the self-held reset ends. -/
  | thermalTripRelease
  /-- PERST_N (R471): PERST_N resets only the host interface, and meter service continues. -/
  | perstN (low : Bool)
  /-- FUNCTION_LEVEL_RESET (R431): An FLR or a D3hot entry clears the host-side state of the function. -/
  | functionLevelReset (d3hot : Bool)
  /-- POWER_FAIL (R371): POWER_FAIL_N is low for 1 µs; admission stops, time events are journaled, and in-flight work and
  stripes complete. -/
  | powerFail
  /-- POWER_FAIL_CLEAR (R372): POWER_FAIL_N has stayed high for 10 ms without a supply loss and the device restarts from step 3. -/
  | powerFailClear
  /-- LOAD_HOST (R42): TRL_CMD LOAD_HOST verifies a base bit-stream from host memory and, from NO_TRELLIS, takes it as the live
  base. -/
  | loadHost (object : Bytes)
  /-- STORE_NOR (R44): TRL_CMD STORE_NOR verifies a bit-stream and writes it to the NOR. -/
  | storeNor (object : Bytes)
  /-- STORE_NAND (R44): TRL_CMD STORE_NAND moves the NAND current copy to previous and writes a new current copy. -/
  | storeNand (object : Bytes)
  /-- STAGE (R47): TRL_CMD STAGE verifies a Graft package and places it in a slot. -/
  | stage (slot : Nat) (object : Bytes)
  /-- ARM (R50): TRL_CMD ARM journals the activation instant of a staged package. -/
  | arm (slot : Nat)
  /-- TRL_CANCEL (R48): TRL_CMD CANCEL empties a staged or armed slot. -/
  | trlCancel (slot : Nat)
  /-- BIND_OWNER (R37): TRL_CMD BIND_OWNER programs the owner fuses with the hash of the live owner key. -/
  | bindOwner
  /-- RAISE_FLOOR (R38): TRL_CMD RAISE_FLOOR blows fuse positions up to the live SECURITY_VERSION. -/
  | raiseFloor
  /-- GRAFT_APPLY (R51): An armed package's instant is reached and its sections switch in one cycle. -/
  | graftApply (slot : Nat) (damaged : List Nat)
  /-- FHM_HEAD_ADD (R57): FHM_HEAD_CMD ADD registers a head with its index and EUI-64. -/
  | fhmHeadAdd (index : Nat)
  /-- FHM_HEAD_REMOVE (R58): FHM_HEAD_CMD REMOVE removes a registered head. -/
  | fhmHeadRemove (index : Nat)
  /-- FHM_HEAD_RECALL (R68): FHM_HEAD_CMD RECALL sends RECALL to a head. -/
  | fhmHeadRecall (index : Nat)
  /-- FHM_MODE_ENTER (R87): FHM_MODE_CMD ENTER puts a cell, or every cell, into superframe mode. -/
  | fhmModeEnter (all : Bool) (cell : Nat)
  /-- FHM_MODE_LEAVE (R87): FHM_MODE_CMD LEAVE returns a cell, or every cell, to CSMA service. -/
  | fhmModeLeave (all : Bool) (cell : Nat)
  /-- FHM_MODE_TEST (R87): FHM_MODE_CMD TEST enters superframe mode, ignoring the quiet rule. -/
  | fhmModeTest (all : Bool) (cell : Nat)
  /-- HEAD_REQUEST (R66): A HEAD_JOIN REQUEST arrives; it is verified under the head key and answered with ACCEPT or REFUSE. -/
  | headRequest (port addr mac : Nat) (dgram : Bytes)
  /-- HEAD_LEAVE (R59): A HEAD_JOIN LEAVE arrives and the head goes OFFLINE. -/
  | headLeave (port addr mac : Nat) (dgram : Bytes)
  /-- RX_REPORT (R65): A head reports a received frame, which is checked and admitted to ingress staging. -/
  | rxReport (port addr mac : Nat) (dgram : Bytes)
  /-- CCA_BUSY (R77): A head reports every attempt busy and the device treats it as a channel-access failure. -/
  | ccaBusy (port addr mac : Nat) (dgram : Bytes)
  /-- TX_CONFIRM (R77): A head reports the outcome of an order, which updates delay statistics and retries. -/
  | txConfirm (port addr mac : Nat) (dgram : Bytes)
  /-- BEACON_CONFIRM (R92): A head reports a beacon sent, which confirms the beacon. -/
  | beaconConfirm (port addr mac : Nat) (dgram : Bytes)
  /-- HEAD_STATUS (R59): A periodic head report updates time offset, state and counters. -/
  | headStatus (port addr mac : Nat) (dgram : Bytes)
  /-- HEAD_SILENCE_TIMEOUT (R59): Three status periods pass with no datagram from a head, which goes OFFLINE. -/
  | headSilenceTimeout (head : Nat)
  /-- HEAD_SUSPEND_TIMEOUT (R60): A head stays SUSPENDED for 60 s and its meters are re-homed. -/
  | headSuspendTimeout (head : Nat)
  /-- TX_AT_SEND (R79): The send time L_h before a planned transmission is reached and the device sends TX_AT. -/
  | txAtSend (at_ : SendAt)
  /-- ACCEPT_WINDOW_CHECK (R84): RX1 or RX2 less L_h is reached and the device orders the accept acknowledgement if the commit
  is complete. -/
  | acceptWindowCheck (addr endNs window : Nat)
  /-- BEACON_DUE (R88): A cell's beacon instant in superframe mode comes and a beacon is ordered. -/
  | beaconDue (cell : Nat)
  /-- BEACON_CONFIRM_DEADLINE (R92): A beacon's confirm deadline passes without a confirm and the beacon counts as missed. -/
  | beaconConfirmDeadline (head txId : Nat)
  /-- TX_CONFIRM_DEADLINE (R75): An order's confirm deadline passes without a confirm. -/
  | txConfirmDeadline (head txId : Nat)
  /-- STORM_CHECK (R87): Each second, a cell's CCA busy ratio is checked for automatic superframe entry. -/
  | stormCheck (cell : Nat)
  /-- SUPERFRAME_END (R87): A superframe ends and the quiet rule may return the cell to CSMA. -/
  | superframeEnd (cell : Nat)
  /-- ZX_CROSSING (R103): A zero crossing is detected on a phase and accepted or rejected against its prediction. -/
  | zxCrossing (feeder phase : Nat) (rising : Bool) (bits : List Sdi)
  /-- ZX_CROSSING_MISSING (R103): The acceptance window closes with no acceptable crossing and the predicted instant is
  substituted. -/
  | zxCrossingMissing (feeder phase : Nat) (rising : Bool) (bits : List Sdi)
  /-- ZX_REACQUIRE (R104): An UNLOCKED phase returns to ACQUIRING after 1 s. -/
  | zxReacquire (feeder phase : Nat)
  /-- ZX_PULSE_GATE (R111): A pulse instant of an outbound symbol comes and ZXG is raised for WIDTH µs. -/
  | zxPulseGate (feeder phase : Nat)
  /-- ZXG_WATCHDOG (R112): ZXG has been high for 1,200 µs and hardware forces it low. -/
  | zxgWatchdog (feeder phase : Nat)
  /-- ZXF_FAULT (R124): ZXF rises; ZXG is forced low and the outbound frame ends. -/
  | zxfFault (feeder phase : Nat)
  /-- ZX_FAULT_RESUME (R124): 10 s after a driver fault, transmission resumes with the next frame. -/
  | zxFaultResume (feeder phase : Nat)
  /-- ZXP_FAULT_CLEAR (R124): Host software writes ZXP_FAULT.LATCHED to re-enable a latched phase. -/
  | zxpFaultClear (feeder mask : Nat)
  /-- ZX_BLOCK_DECODE (R116): An inbound RS block completes and is decoded; a completed frame goes to ingest. -/
  | zxBlockDecode (feeder phase channel : Nat)
  /-- ZX_UPLINK_END (R120): The uplink period ends and the ACK frame is started two cycles later. -/
  | zxUplinkEnd (feeder phase : Nat)
  /-- ZX_ACK_BITMAP_FIX (R120): The first pulse of the ACK's first data block comes and BITMAP is fixed from the commits. -/
  | zxAckBitmapFix (feeder phase : Nat)
  /-- ZX_OUTBOUND_FRAME_START (R109): A scheduled outbound frame (TIME, SCHEDULE, DOWNLINK, DIST) starts in the downlink period. -/
  | zxOutboundFrameStart (feeder phase : Nat)
  /-- ZX_ROUND_BOUNDARY (R107): A round boundary is reached, and a pending ZXP_SCHED change takes effect. -/
  | zxRoundBoundary (feeder : Nat)
  /-- ZXP_ASSIGN (R108): ZXP_ASSIGN ASSIGN gives a meter a phase, channel and slot. -/
  | zxpAssign (feeder meter : Nat)
  /-- ZXP_RELEASE (R108): ZXP_ASSIGN RELEASE frees a meter's assignment. -/
  | zxpRelease (feeder meter : Nat)
  /-- ZXP_CYCLE_READ (R105): A read of ZXP_CYCLE latches the cycle extension and crossing time registers. -/
  | zxpCycleRead (feeder : Nat)
  /-- MOD_PRESENT_FALL (R147): MOD_PRESENT_N falls for a slot, and a record read is scheduled 100 ms later. -/
  | modPresentFall (slot : Nat)
  /-- MODULE_RECORD_READ (R147): The identity records of a slot are read and checked, with up to three attempts. -/
  | moduleRecordRead (slot : Nat) (front line : List (Option Bytes))
  /-- MOD_PRESENT_RISE (R149): A module is removed; its channels go invalid and ZX-PLC transmit stops. -/
  | modPresentRise (slot : Nat)
  /-- MSR_SYNC_REQUEST (R135): MSR_CTRL.SYNC requests a synchronising reset from the selected source. -/
  | msrSyncRequest
  /-- MSR_ENABLE (R135): MSR_CTRL.ENABLE goes from 0 to 1, which starts the chain and requests a reset. -/
  | msrEnable
  /-- MSR_SYNC_RESET (R135): The selected source arrives and all filter state clears on one MSR_CLK edge. -/
  | msrSyncReset (bits : List Sdi)
  /-- MSR_SETTLE_DONE (R135): The K settling samples have passed and outputs become valid. -/
  | msrSettleDone (slot : Option Nat) (bits : List Sdi)
  /-- MSR_SWAP_REQUEST (R139): MSR_SWAP.GO submits a bank swap, which starts a fade or becomes pending. -/
  | msrSwapRequest (v : Word)
  /-- MSR_FADE_END (R139): Sample L of a fade passes; the target bank runs alone and a pending swap starts. -/
  | msrFadeEnd (bits : List Sdi)
  /-- MSR_COEF_WRITE (R138): A write to MSR_COEF_DATA stores a coefficient in an idle bank, or is refused. -/
  | msrCoefWrite (v : Word)
  /-- MSR_DT_MEASURE (R141): Each PTP second, the output sample period is measured against the time-stamp unit. -/
  | msrDtMeasure (bits : List Sdi)
  /-- MSR_CAL_UPDATE (R148): Once a second, gain and phase delay are recomputed from temperature and trims. -/
  | msrCalUpdate (bits : List Sdi)
  /-- MSR_INTERVAL_HANDOVER (R144): Interval energies and RMS values pass to the balance engine at b plus the chain delay. -/
  | msrIntervalHandover (feeder : Nat) (bits : List Sdi)
  /-- MSR_ENERGY_LATCH (R143): MSR_FDR_LATCH copies all energy registers of a feeder in one cycle. -/
  | msrEnergyLatch (feeder : Nat) (bits : List Sdi)
  /-- WORK_ITEM_ADMIT (R196): The meter's previous work item ends and its next waiting work item is admitted. -/
  | workItemAdmit (meter : Nat)
  /-- RESOURCE_GRANT (R198): A ranked resource a work item waits for is granted. -/
  | resourceGrant (meter : Nat)
  /-- RESOURCE_WAIT_TIMEOUT (R200): A resource wait reaches its deadline; the requester releases everything. -/
  | resourceWaitTimeout (meter : Nat)
  /-- RESOURCE_RETRY (R200): The random 1 µs to 16 µs delay ends and the requester starts its acquisitions again. -/
  | resourceRetry (meter : Nat)
  /-- CONTEXT_FETCH_DONE (R191): A context fetched from LPDDR5 becomes resident in the context cache. -/
  | contextFetchDone (meter : Nat)
  /-- KEY_CACHE_FILL_DONE (R194): The fill port writes an unwrapped key set into its reserved way. -/
  | keyCacheFillDone (meter : Nat) (cand : Bool)
  /-- CRYPTO_LANE_DONE (R159): An AES-GCM lane finishes decryption, encryption or a tag, and the frame decision is made. -/
  | cryptoLaneDone (job : LaneJob)
  /-- PARSE_DONE (R33): A dialect engine ends a parse with ACCEPT, REJECT or a limit. -/
  | parseDone (meter : Nat)
  /-- BILLING_UPDATE_DONE (R222): A billing lane finishes crediting a reading's span to tariffs, intervals and periods. -/
  | billingUpdateDone (meter : Nat)
  /-- CONFIRM (R411): A mirror CONFIRM for a journal line arrives from the standby. -/
  | confirm (h : RHdr) (line : Nat)
  /-- MIRROR_WAIT_EXPIRE (R173): MIRROR_WAIT passes without a confirmation and commits continue unpaired. -/
  | mirrorWaitExpire
  /-- REASSEMBLY_TIMEOUT (R166): REASSEMBLY passes since the first block and the held blocks are discarded. -/
  | reassemblyTimeout (meter : Nat)
  /-- CTX_ALLOC (R185): CTX_CMD ALLOC allocates the head of the free list. -/
  | ctxAlloc
  /-- CTX_ALLOC_AT (R185): CTX_CMD ALLOC_AT allocates a given index. -/
  | ctxAllocAt (index : Nat)
  /-- CTX_FREE (R190): CTX_CMD FREE frees a context after its work in flight ends. -/
  | ctxFree (index : Nat)
  /-- CTX_PIN (R192): CTX_CMD PIN makes a context resident and exempt from eviction. -/
  | ctxPin (index : Nat)
  /-- CTX_UNPIN (R192): CTX_CMD UNPIN lifts a pin. -/
  | ctxUnpin (index : Nat)
  /-- KEY_EPOCH_TICK (R195): The key epoch advances every TICK ms, with an age sweep every 64 epochs. -/
  | keyEpochTick
  /-- SIGNHASH_REQUEST (R206): A requester submits work to the sign/hash arbiter; it is parked, granted or returned QUEUE_FULL. -/
  | signhashRequest (port : Nat) (op : ShOp) (blocks : Nat)
  /-- SIGNHASH_BLOCK_END (R207): A SHA-256 block boundary is reached and a higher-ranked parked request may pre-empt. -/
  | signhashBlockEnd (engine : Nat)
  /-- SIGNHASH_OP_DONE (R204): A sign/hash engine completes an operation and the engine is granted to the next request. -/
  | signhashOpDone (engine : Nat)
  /-- ARB_URGENT_CHANGE (R208): A parked request's URGENT condition changes and it takes its new rank at the next phase. -/
  | arbUrgentChange (port : Nat) (urgent : Bool)
  /-- ARB_STARVED (R209): A parked request waits past its port's limit and ARB_STARVED is logged. -/
  | arbStarved (port : Nat)
  /-- DRAIN_TRANSFER_DONE (R441): The completer acknowledges a drain transfer; RD, HWR and the writeback advance. -/
  | drainTransferDone (ring : Nat)
  /-- INTERVAL_END (R233): An instance's demand grid ends and an interval-end marker is journaled. -/
  | intervalEnd (inst at_ : Nat)
  /-- PERIOD_BOUNDARY (R233): A billing period boundary B is reached and journaled. -/
  | periodBoundary (inst boundary : Nat)
  /-- CLOSURE_SWEEP_START (R228): B plus GRACE is reached and the closure sweep of the instance starts. -/
  | closureSweepStart (inst boundary : Nat)
  /-- CLOSURE_SWEEP_DONE (R228): The sweep has visited every meter of the instance. -/
  | closureSweepDone (inst : Nat)
  /-- ATTACH (R245): BAL_CMD ATTACH makes a meter a member of a zone. -/
  | attach (index : Nat)
  /-- DETACH (R246): BAL_CMD DETACH removes a membership and subtracts its pending bins. -/
  | detach (index : Nat)
  /-- QUERY_ZONE (R253): BAL_CMD QUERY_ZONE fills the zone and ranking registers. -/
  | queryZone (index : Nat)
  /-- QUERY_METER (R253): BAL_CMD QUERY_METER fills the meter query registers. -/
  | queryMeter (index : Nat)
  /-- BAL_RESTART (R250): BAL_CTRL.RESTART sets every accumulator, bin and zone sum to zero. -/
  | balRestart
  /-- BAL_EVALUATION (R247): E_b plus SETTLE intervals is reached and evaluation of interval b starts. -/
  | balEvaluation (b : Nat)
  /-- BAL_EVAL_DONE (R261): Both passes of an evaluation end and the accumulators and alarms are updated. -/
  | balEvalDone
  /-- DST_LOAD (R263): DST_CMD LOAD checks a campaign descriptor and starts loading its object. -/
  | dstLoad (slot : Nat) (object : Bytes)
  /-- CAMPAIGN_LOAD_STEP_DONE (R263): A load step (hash, NAND copy, standby verify, journal) completes and the next starts. -/
  | campaignLoadStepDone (slot : Nat) (ok : Bool)
  /-- DST_ADD (R265): DST_CMD ADD makes a meter a member. -/
  | dstAdd (slot meter : Nat)
  /-- DST_ADD_CLASS (R265): DST_CMD ADD_CLASS makes every meter of a class a member. -/
  | dstAddClass (slot cls : Nat)
  /-- DST_REMOVE (R265): DST_CMD REMOVE ends a membership with cause REMOVED. -/
  | dstRemove (slot meter : Nat)
  /-- DST_ABORT (R282): DST_CMD ABORT stops a campaign's rounds and starts aborts. -/
  | dstAbort (slot : Nat)
  /-- DST_CLEAR (R264): DST_CMD CLEAR empties an ENDED or FAILED campaign. -/
  | dstClear (slot : Nat)
  /-- CAMPAIGN_ROUND_START (R272): START or a collection end begins a round with a rendezvous burst. -/
  | campaignRoundStart (slot place : Nat)
  /-- CAMPAIGN_BLOCK_ORDER (R270): A block's planned instant comes and the block is ordered, or the burst ends. -/
  | campaignBlockOrder (slot place : Nat)
  /-- COLLECTION_END (R272): A collection period ends and the collected bitmap becomes the next round's. -/
  | collectionEnd (slot place : Nat)
  /-- CAMPAIGN_ACTIVATION (R278): The activation instant is reached and Verified members are activated. -/
  | campaignActivation (slot : Nat)
  /-- CAMPAIGN_EXPIRE (R281): EXPIRE hours pass, non-final members fail, and the campaign ENDS. -/
  | campaignExpire (slot : Nat)
  /-- CAMPAIGN_ABORT_BROADCAST (R282): Every RENDEZVOUS seconds an aborted campaign's abort frame is sent. -/
  | campaignAbortBroadcast (slot place : Nat)
  /-- BITMAP_PAGE_IN_DONE (R277): A paged bitmap returns from NAND and the round may start. -/
  | bitmapPageInDone (slot place : Nat)
  /-- PROV_OPEN (R291): KEY_CMD PROV_OPEN opens a provisioning session and writes the signed opening. -/
  | provOpen
  /-- PROV_PEER (R292): KEY_CMD PROV_PEER verifies the authority and derives the transport key. -/
  | provPeer (peer : Bytes)
  /-- PROV_CLOSE (R293): KEY_CMD PROV_CLOSE ends the session. -/
  | provClose
  /-- ROOT_IMPORT (R294): KEY_CMD ROOT_IMPORT unwraps a root into the candidate register. -/
  | rootImport (slot root wrapped : Nat)
  /-- ROOT_GENERATE (R294): KEY_CMD ROOT_GENERATE draws a SIGN root into the candidate register. -/
  | rootGenerate (slot : Nat)
  /-- ROOT_COMMIT (R295): KEY_CMD ROOT_COMMIT writes a verified candidate into its slot. -/
  | rootCommit
  /-- ROOT_CANCEL (R294): KEY_CMD ROOT_CANCEL clears the candidate register. -/
  | rootCancel
  /-- ROOT_ERASE (R299): KEY_CMD ROOT_ERASE empties a slot not in use. -/
  | rootErase (slot : Nat)
  /-- REWRAP (R298): KEY_CMD REWRAP moves wrapped keys from one STORE_KEK slot to another. -/
  | rewrap (slot : Nat)
  /-- METER_INSTALL (R301): KEY_CMD METER_INSTALL installs meter key sets as current or candidate. -/
  | meterInstall (entries : List InstallEntry)
  /-- METER_CANCEL (R301): KEY_CMD METER_CANCEL discards a meter's candidate. -/
  | meterCancel (meter : Nat)
  /-- HEAD_INSTALL (R305): KEY_CMD HEAD_INSTALL installs long-term head keys. -/
  | headInstall (entries : List InstallEntry)
  /-- HEAD_CANCEL (R305): KEY_CMD HEAD_CANCEL discards a head's candidate key. -/
  | headCancel (head : Nat)
  /-- BCAST_ROLL (R308): KEY_CMD BCAST_ROLL derives the next broadcast generation and starts delivery. -/
  | bcastRoll (target : Nat)
  /-- EXPORT_CERT (R314): KEY_CMD EXPORT_CERT writes the identity and record-signing certificates. -/
  | exportCert
  /-- RESUME (R311): KEY_CMD RESUME leaves the locked state once every slot is restored. -/
  | resume
  /-- CLASS_AK_INSTALL (R304): KEY_CMD CLASS_AK_INSTALL installs class authentication keys. -/
  | classAkInstall (entries : List InstallEntry)
  /-- PROV_SESSION_EXPIRE (R293): A session reaches 600 s and is closed, setting PROV_EXPIRED. -/
  | provSessionExpire
  /-- MASK_REFRESH (R288): The vault masks are replaced at their period. -/
  | maskRefresh (entropyOk : Bool)
  /-- DRBG_RESEED (R312): The DRBG reseeds every 1 s or 2^20 requests from the health-tested source. -/
  | drbgReseed (ok : Bool)
  /-- DRBG_STOP (R313): 2^32 requests pass since the last good seed and the DRBG stops. -/
  | drbgStop
  /-- BCAST_ROLL_INSTANT (R308): The roll instant arrives and broadcast frames switch to the new generation. -/
  | bcastRollInstant (target : Nat)
  /-- TSU_STEP (R320): TSU_ADJ_CMD STEP adds the amount to the counter in one cycle. -/
  | tsuStep
  /-- TSU_SLEW (R320): TSU_ADJ_CMD SLEW adds the amount by changing the increment. -/
  | tsuSlew
  /-- SLEW_DONE (R320): The whole slew amount has been added and ADJ_DONE is set. -/
  | slewDone
  /-- TSU_INCR_WRITE (R319): A write to TSU_INCR_FRAC applies both increment registers, clamped. -/
  | tsuIncrWrite (frac : Word)
  /-- TSU_TIME_READ (R318): A read of TSU_TIME_FRAC latches the rest of the counter. -/
  | tsuTimeRead
  /-- PTP_SYNC (R326): A Sync is received and the offset is computed for the servo. -/
  | ptpSync (port : Nat) (h : PtpHdr) (origin : Int)
  /-- PTP_FOLLOW_UP (R326): A Follow_Up supplies t1 and correction for a two-step Sync. -/
  | ptpFollowUp (port : Nat) (h : PtpHdr) (origin : Int)
  /-- PTP_DELAY_REQ (R324): A Delay_Req on a master port is answered with Delay_Resp. -/
  | ptpDelayReq (port : Nat) (h : PtpHdr)
  /-- PTP_DELAY_RESP (R326): A Delay_Resp gives t4 for the mean path delay. -/
  | ptpDelayResp (port : Nat) (h : PtpHdr) (receipt : Int)
  /-- PTP_PDELAY_REQ (R327): A Pdelay_Req is answered with Pdelay_Resp. -/
  | ptpPdelayReq (port : Nat) (h : PtpHdr)
  /-- PTP_PDELAY_RESP (R326): A Pdelay_Resp updates the peer path delay. -/
  | ptpPdelayResp (port : Nat) (h : PtpHdr) (receipt : Int)
  /-- PTP_PDELAY_RESP_FOLLOW_UP (R326): A Pdelay_Resp_Follow_Up completes a two-step peer delay exchange. -/
  | ptpPdelayRespFollowUp (port : Nat) (h : PtpHdr) (origin : Int)
  /-- PTP_ANNOUNCE (R329): An Announce feeds BMCA and the UTC offset. -/
  | ptpAnnounce (port : Nat) (h : PtpHdr) (a : Announce)
  /-- PTP_ANNOUNCE_TIMEOUT (R330): The announce receipt timeout expires and the servo may enter HOLDOVER. -/
  | ptpAnnounceTimeout (port : Nat)
  /-- PTP_MESSAGE_DUE (R324): A port's Sync, Announce or delay request interval passes and the message is sent. -/
  | ptpMessageDue (port kind : Nat)
  /-- HOLDOVER_LIMIT (R330): HOLDOVER lasts longer than HOLD_LIMIT and the servo goes FREERUN. -/
  | holdoverLimit
  /-- UTC_LEAP (R334): The UTC day ends with a leap flag set and TAI − UTC changes. -/
  | utcLeap
  /-- PPS_IN_EDGE (R335): A 1PPS_IN rising edge is time-stamped, and disciplines the servo in mode 2. -/
  | ppsInEdge
  /-- PPS_IN_MISSING (R335): No 1PPS_IN edge arrives by 1.000001 s after the last. -/
  | ppsInMissing
  /-- TSU_PPS_IN_READ (R335): A read of TSU_PPS_IN_NS latches the stamp's seconds. -/
  | tsuPpsInRead
  /-- CLO_MEASURE_START (R337): TSU_CLO_CMD.START starts a Cloche oscillator measurement. -/
  | cloMeasureStart
  /-- CLO_MEASURE_DONE (R337): 2^GATE ticks have been counted and the result is reported. -/
  | cloMeasureDone (elapsed : Nat)
  /-- ETH_NEIGHBOR_SOLICITATION (R339): A Neighbor Solicitation for the port's address is answered. -/
  | ethNeighborSolicitation (port len src mac target : Nat)
  /-- ETH_ECHO_REQUEST (R339): An ICMPv6 Echo Request is answered within the rate limit. -/
  | ethEchoRequest (port len src mac dst : Nat) (data : Bytes)
  /-- ETH_ARP_REQUEST (R339): An ARP request for the port's IPv4 address is answered. -/
  | ethArpRequest (port len src mac target : Nat)
  /-- ETH_NEIGHBOR_ADVERTISEMENT (R340): A Neighbor Advertisement updates the neighbour cache. -/
  | ethNeighborAdvertisement (port len target mac : Nat)
  /-- ETH_FRAME_DROP (R339): A received frame that no rule delivers is dropped and counted. -/
  | ethFrameDrop (port len cause : Nat)
  /-- NEIGHBOUR_SOLICIT_RETRY (R340): Resolution waits 1 s and resolicits; after 3 s the datagram is dropped. -/
  | neighbourSolicitRetry (port addr : Nat)
  /-- NEIGHBOUR_ENTRY_EXPIRE (R340): A neighbour entry is no longer reachable 30 s after its last datagram. -/
  | neighbourEntryExpire (port addr : Nat)
  /-- ETH_LINK_CHANGE (R338): A port's LINK_UP rises or falls. -/
  | ethLinkChange (port : Nat) (block align localFault remoteFault : Bool)
  /-- ETH_COUNTER_READ (R341): A read of ETH_n_CNT_k_LO latches the matching HI half. -/
  | ethCounterRead (port k : Nat)
  /-- FORMAT (R490): NFM_CMD FORMAT writes the partition directory and checkpoint 0. -/
  | format (force : Bool)
  /-- ARCH_READ (R361): NFM_CMD ARCH_READ copies archived records to the host buffer. -/
  | archRead
  /-- RAKE_NOW (R350): NFM_CTRL.RAKE_NOW starts a Rake pass at once. -/
  | rakeNow
  /-- RAKE_PASS_START (R350): A Rake period begins a pass. -/
  | rakePassStart
  /-- RAKE_BEHIND (R350): A pass runs 12 h beyond its period and becomes URGENT. -/
  | rakeBehind
  /-- NAND_READ_DONE (R347): A page read completes, climbing the read ladder as needed. -/
  | nandReadDone (die block part addr : Nat) (temp : Int) (ladder rereads corrected : Nat) (rake : Option Nat)
  /-- NAND_PROGRAM_DONE (R354): A NAND program or erase completes, is verified, or fails and retires the block. -/
  | nandProgramDone (job : NandJob) (die block : Nat) (temp : Int) (ok : Bool)
  /-- WEAR_LEVEL_CHECK (R352): Every 10 min a die whose P/E spread exceeds SPREAD has a block moved. -/
  | wearLevelCheck
  /-- CHECKPOINT_TRIGGER (R370): PERIOD minutes or UNITS thousand READING heads pass and a checkpoint starts. -/
  | checkpointTrigger (units : Bool)
  /-- CKPT_NOW (R370): JNL_CTRL.CKPT_NOW starts a checkpoint. -/
  | ckptNow
  /-- CHECKPOINT_COMPLETE (R370): A checkpoint's page map is written and verified, and its completion is journaled. -/
  | checkpointComplete
  /-- ZEROIZE (R392): CLO_CTRL.ZEROIZE asserts tamper source 12. -/
  | zeroize
  /-- ANCHOR (R387): CLO_CTRL.ANCHOR requests a time anchor at the next tick edge. -/
  | anchor
  /-- ANCHOR_APPLY (R387): At the tick edge OFFSET and its CRC are written. -/
  | anchorApply
  /-- TICK_LOAD (R383): CLO_CTRL.TICK_LOAD requests a tick load while OSC_STOPPED. -/
  | tickLoad
  /-- TICK_LOAD_APPLY (R383): At the next tick edge the counter takes the set value. -/
  | tickLoadApply
  /-- UNLOCK (R394): CLO_CTRL.UNLOCK clears the tamper configuration lock during a session. -/
  | unlock
  /-- CHARGE_CLEAR (R379): CLO_CTRL.CHARGE_CLEAR clears CLO_CHARGE. -/
  | chargeClear
  /-- TAMP_LOCK (R394): CLO_TAMP_LOCK.LOCK freezes every tamper configuration register. -/
  | tampLock
  /-- TAMPER_LATCH_CLEAR (R395): A write to CLO_TAMPER_LATCH clears a bit during a session once the source is inactive. -/
  | tamperLatchClear (mask : Nat)
  /-- OSC_STOPPED_CLEAR (R383): Writing 1 to OSC_STOPPED clears it and cancels a waiting load. -/
  | oscStoppedClear
  /-- CLO_TRIM_WRITE (R385): A CLO_TRIM write applies at once, or at the end of a running measurement. -/
  | cloTrimWrite (trim : Nat)
  /-- CLO_ALARM_FIRE (R388): The count reaches an armed alarm value and the alarm fires. -/
  | cloAlarmFire (n : Nat)
  /-- OSC_STOP_DETECT (R382): No XTAL32 edge for 4 ms sets OSC_STOPPED. -/
  | oscStopDetect
  /-- OSC_RESUME (R382): XTAL32 edges return and the counter resumes. -/
  | oscResume
  /-- TAMPER_ASSERT (R392): A tamper source passes its detector; its record updates, and with ZEROIZE it latches. -/
  | tamperAssert (source : Nat)
  /-- HEDGE_SAMPLE (R391): At a Hedge sample instant a bit is driven and compared 8 µs later. -/
  | hedgeSample (pair : Nat) (ok : Bool)
  /-- SUPPLY_TO_BATTERY (R375): VDDIO18 falls below 1.62 V and the Cloche switches to VBAT. -/
  | supplyToBattery
  /-- SUPPLY_TO_MAIN (R375): VDDIO18 stays above 1.68 V for 1 ms and the Cloche switches back. -/
  | supplyToMain (nah : Nat)
  /-- RET_LOST (R376): The retention node falls below 1.40 V for 1 µs and RET_LOST latches. -/
  | retLost
  /-- VBAT_MEASURE (R379): Every 60 s on main power VBAT is measured. -/
  | vbatMeasure (mv : Nat)
  /-- CLO_TIME_READ (R381): A read of CLO_TIME_LO copies the count into the shadow. -/
  | cloTimeRead
  /-- CLO_TREC_READ (R393): A read of CLO_TREC_COUNT freezes the selected tamper record. -/
  | cloTrecRead
  /-- RING_DATA_WRITE (R437): Host software writes a word to a host-to-device ring. -/
  | ringDataWrite (ring : Nat) (v : Word)
  /-- RING_DATA_READ (R436): A read of RNG_n_DATA returns the word at RD and advances RD. -/
  | ringDataRead (ring : Nat)
  /-- RING_FLUSH (R438): RNG_n_CMD.FLUSH discards packets at the next boundary. -/
  | ringFlush (ring : Nat)
  /-- RING_MARK (R439): RNG_n_CMD.MARK sets the rewind mark on the packet at RD. -/
  | ringMark (ring : Nat)
  /-- RING_REWIND (R439): RNG_n_CMD.REWIND sets RD to the mark or to the oldest packet. -/
  | ringRewind (ring : Nat)
  /-- RING_CONFIRM (R444): A write of RNG_n_CONFIRM_LO unpins records and journals the mark. -/
  | ringConfirm (ring : Nat) (lo : Word)
  /-- RING_HRD_WRITE (R441): A write of RNG_n_HRD frees host buffer space for the drain engine. -/
  | ringHrdWrite (ring : Nat) (v : Word)
  /-- MSIX_UNMASK (R433): Unmasking a vector with its pending bit set sends one message. -/
  | msixUnmask (vector : Nat)
  /-- RING_COALESCE_TIMEOUT (R442): Words stay unsignalled for COALESCE µs and the ring's message is sent. -/
  | ringCoalesceTimeout (ring : Nat)
  /-- OBJECT_REQUEST (R449): An OBJECT_REQUEST command is verified and answered from the billing object view. -/
  | objectRequest (ring : Nat)
  /-- METER_REQUEST (R450): A METER_REQUEST command is ciphered and sent to the meter as a downlink. -/
  | meterRequest (ring : Nat)
  /-- METER_REQUEST_TIMEOUT (R450): RNG_REQ_TIMEOUT passes without a meter response and TIMEOUT is answered. -/
  | meterRequestTimeout (meter : Nat)
  /-- CERT_LOAD (R447): A CERT_LOAD command verifies a role certificate and caches it. -/
  | certLoad (ring : Nat)
  /-- EVENT_SUMMARY (R456): PERIOD seconds after a code's first unsummarised suppression, a summary record is written. -/
  | eventSummary (code : Nat)
  /-- ARCHIVE_READ (R457): EVR_CMD ARCHIVE_READ copies archived event records to the host buffer. -/
  | archiveRead
  /-- HEALTH_DAILY_SAMPLE (R458): At 00:00 UTC each monitor is sampled and the forecasts are refitted. -/
  | healthDailySample (oscSlow : Nat)
  /-- HLT_UPDATE (R458): HLT_CTRL.UPDATE takes a sample and refits now. -/
  | hltUpdate (oscSlow : Nat)
  /-- HANDOVER (R415): PRL_CMD HANDOVER starts a commanded handover on the active device. -/
  | handover
  /-- TAKE (R415): PRL_CMD TAKE releases PAIR_TAKE on the standby. -/
  | take
  /-- FORCE_TAKE (R414): PRL_CMD FORCE_TAKE makes an unsynchronised device ACTIVE. -/
  | forceTake
  /-- CLEAR_NONREVERTIVE (R417): PRL_CMD CLEAR_NONREVERTIVE clears the non-revertive mark. -/
  | clearNonrevertive
  /-- PRL_RESYNC (R413): PRL_CMD RESYNC starts a resynchronisation. -/
  | prlResync
  /-- HOST_BEAT (R405): PRL_HOST_BEAT.BEAT restarts the host heartbeat timeout. -/
  | hostBeat
  /-- HOST_BEAT_TIMEOUT (R405): No beat arrives within TIMEOUT; a HANDOVER-class fault. -/
  | hostBeatTimeout
  /-- WATCHDOG_EXPIRE (R405): No scheduler heartbeat for 10 ms; hardware pulls PAIR_ACTIVE low. -/
  | watchdogExpire
  /-- FAULT_VERDICT (R405): The health logic finds a fault cause and the device yields or holds. -/
  | faultVerdict (cause : Nat)
  /-- FAULT_CLEARED (R406): The cause holding the device OUT clears and it restarts. -/
  | faultCleared (cause : Nat)
  /-- PAIR_ACTIVE_FALL (R407): PAIR_ACTIVE falls at a STANDBY device, which takes control. -/
  | pairActiveFall (yield : Bool)
  /-- PAIR_TAKE_RISE (R415): PAIR_TAKE rises at the active device, which drains and yields. -/
  | pairTakeRise
  /-- PAIR_HEALTHY_CHANGE (R405): PAIR_HEALTHY changes; a held HANDOVER fault yields on its rise. -/
  | pairHealthyChange (high : Bool)
  /-- HELLO (R404): A Runner HELLO arrives and feeds negotiation and link state. -/
  | hello (h : RHdr) (hello : Hello)
  /-- HELLO_DUE (R404): Every 1 ms in LISTEN a HELLO is sent. -/
  | helloDue (lines : Nat)
  /-- NEGOTIATE_TIMEOUT (R404): NEGOTIATE passes without a decision and the device becomes ACTIVE or stays in LISTEN. -/
  | negotiateTimeout (lines : Nat)
  /-- HOLDOFF_EXPIRE (R416): The preferred device has been STANDBY for PRL_HOLDOFF and takes control back. -/
  | holdoffExpire
  /-- PROBATION_EXPIRE (R417): Probation passes without a fault and REVERT_PENDING clears. -/
  | probationExpire
  /-- DRILL_AGE_UPDATE (R418): Daily control ages update and DRILL_DUE is raised beyond 30 days. -/
  | drillAgeUpdate
  /-- STANDBY_SELFTEST (R412): Every 10 min the standby runs known-answer tests on its engines. -/
  | standbySelftest (ok : Bool)
  /-- MIRROR (R411): A MIRROR entry arrives and the standby appends it and confirms. -/
  | mirror (h : RHdr) (line : Nat) (rec_ : JRec)
  /-- DIGEST (R412): A DIGEST frame is compared with the standby's own CRC-64. -/
  | digest (h : RHdr) (crc : Nat)
  /-- RESYNC (R413): A RESYNC frame carries snapshot or catch-up data to a SYNCING standby. -/
  | resync (h : RHdr) (item : ResyncItem)
  /-- RESYNC_PHASE_DONE (R413): A resynchronisation phase completes and the next phase starts, or the standby goes STANDBY. -/
  | resyncPhaseDone
  /-- COMMAND (R189): A forwarded command frame is applied by the standby, or its application completes the command at the
  active device. -/
  | command (h : RHdr) (c : Option PairCmd) (ok : Bool)
  /-- FORWARD_UP (R423): A forwarded meter frame arrives at the owning device and is staged. -/
  | forwardUp (h : RHdr) (f : Staged0)
  /-- ACCEPT_NOTICE (R175): An acceptance notice lets the forwarding device order the acknowledgement. -/
  | acceptNotice (h : RHdr) (eui counter : Nat) (rx1 rx2 : Psdu)
  /-- FORWARD_DOWN (R424): A forwarded downlink is ordered through this device's head. -/
  | forwardDown (h : RHdr) (id eui t0 : Nat) (psdu : Psdu)
  /-- DOWN_CONFIRM (R424): The head's device returns the TX_CONFIRM status of a forwarded downlink. -/
  | downConfirm (h : RHdr) (id status : Nat)
  /-- RUNNER_RETRANSMIT (R425): 20 µs pass since a frame's last transmission without ACK, and it is retransmitted. -/
  | runnerRetransmit (link : Nat)
  /-- RUNNER_LINK_DOWN (R425): A link loses block lock for 1 ms or 32 retransmissions and retrains. -/
  | runnerLinkDown (link : Nat)
  /-- RUNNER_LINK_UP (R425): All lanes lock and HELLO passes both ways. -/
  | runnerLinkUp (link : Nat)
  /-- TAMPER_INACTIVE (R392): A tamper source's detector sees it inactive again, which clears its CLO_TAMPER bit and re-arms it
  for a new assertion. -/
  | tamperInactive (source : Nat)
  /-- ZXF_FALL (R124): The ZXF fault input of a phase falls, clearing ZXP_STATUS.FAULT for that phase and allowing a later rise
  to count as a new fault. -/
  | zxfFall (feeder phase : Nat)
  /-- PPS_OUT_EDGE (R335): At each TAI second boundary plus OFFSET, with PPS_OUT_EN set, the device raises 1PPS_OUT and lowers
  it WIDTH later. -/
  | ppsOutEdge (rise : Bool)
  /-- SATURATION (R131): A measurement-chain stage clamps its shifted result, which sets the channel's MSR_CH_SAT bit, marks the
  sample SATURATED and sets MSR_INT_STATUS.SATURATION. -/
  | saturation (channel stage : Nat)
  deriving DecidableEq, Repr

end Sys2Proof
end

