-- ==== Sys2Proof/Machine/Crypto.lean ====
section
/-! DEFINITION. The cryptographic standards that R4 names, as functions: AES with GCM, CCM*, CMAC and CBC; SHA-256, HKDF
and RFC 3394; P-256 with ECDSA and ECDH. Multi-byte numbers are big-endian (R11). Each entry point is irreducible: a proof
sees its value only by asking for it. -/

namespace Sys2Proof.Crypto

/-- Bytewise exclusive or, of the shorter length. -/
def xorBytes (a b : Bytes) : Bytes := List.zipWith (· ^^^ ·) a b

/-! ## AES (FIPS 197) -/

/-- Multiplication by x in the field of AES. -/
def xtime (a : Byte) : Byte := (a <<< 1) ^^^ if a.msb then 0x1B#8 else 0#8

/-- Product in the field of AES, over the low `n` bits of `b`. -/
def gmul : Nat → Byte → Byte → Byte
  | 0, _, _ => 0
  | n + 1, a, b => (if b.getLsbD 0 then a else 0) ^^^ gmul n (xtime a) (b >>> 1)

/-- `a` to the power `2 ^ (n + 1) - 2`: with `n` 7 the inverse of `a`, and 0 for 0. -/
def ginv : Nat → Byte → Byte
  | 0, _ => 1
  | n + 1, a => let s := gmul 8 a a; gmul 8 s (ginv n s)

/-- SubBytes on one byte. -/
def sbox (a : Byte) : Byte :=
  let i := ginv 7 a
  i ^^^ i.rotateLeft 1 ^^^ i.rotateLeft 2 ^^^ i.rotateLeft 3 ^^^ i.rotateLeft 4 ^^^ 0x63#8

/-- The key schedule: `n` words more after `ws` (the latest first), with `nk` words of key and the round constant `rc`. -/
def expandFrom (nk : Nat) : Nat → Byte → List Bytes → List Bytes
  | 0, _, ws => ws
  | n + 1, rc, ws =>
    let i := ws.length
    let t := ws.headD []
    let t' :=
      if i % nk = 0 then xorBytes ((t.drop 1 ++ t.take 1).map sbox) [rc, 0, 0, 0]
      else if 6 < nk ∧ i % nk = 4 then t.map sbox else t
    expandFrom nk n (if i % nk = 0 then xtime rc else rc) (xorBytes (ws.getD (nk - 1) []) t' :: ws)

/-- The round keys of a 16 B or 32 B key, 16 B each. -/
def roundKeys (key : Bytes) : List Bytes :=
  let nk := key.length / 4
  let ws := (expandFrom nk (4 * (nk + 7) - nk) 1 (recordsOf 4 nk key).reverse).reverse
  (List.range (nk + 7)).map fun r => ((ws.drop (4 * r)).take 4).flatten

/-- ShiftRows: column-major state. -/
def shiftRows (s : Bytes) : Bytes := (List.range 16).map fun i => s.getD ((i + 4 * (i % 4)) % 16) 0

/-- MixColumns on one column. -/
def mixColumn (c : Bytes) : Bytes :=
  (List.range 4).map fun r =>
    let x (k : Nat) : Byte := c.getD ((r + k) % 4) 0
    xtime (x 0) ^^^ xtime (x 1) ^^^ x 1 ^^^ x 2 ^^^ x 3

/-- The rounds after the first key addition; the last has no MixColumns. -/
def rounds : List Bytes → Bytes → Bytes
  | [], s => s
  | [k], s => xorBytes (shiftRows (s.map sbox)) k
  | k :: ks, s => rounds ks (xorBytes ((recordsOf 4 4 (shiftRows (s.map sbox))).flatMap mixColumn) k)

/-- AES of one block under expanded keys. -/
def aesBlock (rk : List Bytes) (b : Bytes) : Bytes := rounds rk.tail (xorBytes b (rk.headD []))

/-- Blocks of 16 B, the last as long as is left. -/
def blocksOf (b : Bytes) : List Bytes := recordsOf 16 ((b.length + 15) / 16) b

/-- CBC-MAC from the chaining value `c`. -/
def cbcMac (rk : List Bytes) (c : Bytes) (bs : List Bytes) : Bytes := bs.foldl (fun c b => aesBlock rk (xorBytes c b)) c

/-- InvSubBytes on one byte. -/
def invSbox (a : Byte) : Byte := ginv 7 (a.rotateLeft 1 ^^^ a.rotateLeft 3 ^^^ a.rotateLeft 6 ^^^ 0x05#8)

/-- InvShiftRows. -/
def invShiftRows (s : Bytes) : Bytes := (List.range 16).map fun i => s.getD ((i + 12 * (i % 4)) % 16) 0

/-- InvMixColumns on one column. -/
def invMixColumn (c : Bytes) : Bytes :=
  (List.range 4).map fun r =>
    ([14#8, 11#8, 13#8, 9#8].zipIdx.map fun k => gmul 8 (c.getD ((r + k.2) % 4) 0) k.1).foldl (· ^^^ ·) 0

/-- The rounds of the inverse cipher, the last round key first. -/
def invRounds : List Bytes → Bytes → Bytes
  | [], s => s
  | k :: ks, s =>
    let t := xorBytes ((invShiftRows s).map invSbox) k
    invRounds ks (if ks = [] then t else ((recordsOf 4 4 t).map invMixColumn).flatten)

/-- The inverse of AES of one block under expanded keys. -/
def aesInv (rk : List Bytes) (b : Bytes) : Bytes := invRounds rk.reverse.tail (xorBytes b (rk.getLastD []))

/-- AES-128-CBC decryption of whole blocks under the initialisation vector `iv`. -/
@[irreducible] def cbcDecrypt (key iv : Nat) (b : Bytes) : Bytes :=
  let rk := roundKeys (beBytes 16 key)
  let bs := blocksOf b
  (List.zipWith (fun prev c => xorBytes (aesInv rk c) prev) (beBytes 16 iv :: bs) bs).flatten

/-! ## GCM (SP 800-38D) -/

/-- Product in GF(2^128): `n` bits of `x` from the most significant on. -/
def ghashMul : Nat → BitVec 128 → BitVec 128 → BitVec 128
  | 0, _, _ => 0
  | n + 1, x, v =>
    (if x.msb then v else 0) ^^^
      ghashMul n (x <<< 1) ((v >>> 1) ^^^ if v.getLsbD 0 then 0xE1000000000000000000000000000000#128 else 0)

/-- GHASH from `y` over padded blocks. -/
def ghash (h y : BitVec 128) (bs : List Bytes) : BitVec 128 :=
  bs.foldl (fun y b => ghashMul 128 (y ^^^ BitVec.ofNat 128 (beNat (b ++ List.replicate (16 - b.length) 0))) h) y

/-- Counter-mode encryption: block `i` of `b` under the counter block `ctr i`. -/
def ctrMode (rk : List Bytes) (ctr : Nat → Bytes) (b : Bytes) : Bytes :=
  ((blocksOf b).zipIdx.map fun p => xorBytes p.1 (aesBlock rk (ctr p.2))).flatten

/-- AES-GCM under a key of `k` bytes and a 12 B nonce: ciphertext and tag. GMAC is GCM of an empty plaintext. -/
@[irreducible] def gcm (k key nonce : Nat) (aad plain : Bytes) : Bytes × BitVec 128 :=
  let rk := roundKeys (beBytes k key)
  let iv := beBytes 12 nonce
  let c := ctrMode rk (fun i => iv ++ beBytes 4 (i + 2)) plain
  let h := BitVec.ofNat 128 (beNat (aesBlock rk (List.replicate 16 0)))
  let s := ghash h (ghash h (ghash h 0 (blocksOf aad)) (blocksOf c)) [beBytes 8 (8 * aad.length) ++ beBytes 8 (8 * plain.length)]
  (c, s ^^^ BitVec.ofNat 128 (beNat (aesBlock rk (iv ++ beBytes 4 1))))

/-- The GCM or GMAC tag. -/
def gcmTag (k key nonce : Nat) (aad plain : Bytes) : BitVec 128 := (gcm k key nonce aad plain).2

/-! ## CCM* (the counter with CBC-MAC mode of IEEE 802.15.4) -/

/-- CCM* under a 16 B key and a 13 B nonce with a MIC of `m` bytes: ciphertext and MIC. With `m` 0 only encryption is done. -/
@[irreducible] def ccm (m key nonce : Nat) (aad plain : Bytes) : Bytes × Bytes :=
  let rk := roundKeys (beBytes 16 key)
  let n := beBytes 13 nonce
  let flags := (if aad = [] then 0 else 64) + 8 * ((m - 2) / 2) + 1
  let lead := if aad = [] then [] else padTo 16 (beBytes 2 aad.length ++ aad)
  let t := cbcMac rk (List.replicate 16 0) (blocksOf (beBytes 1 flags ++ n ++ beBytes 2 plain.length ++ lead ++ padTo 16 plain))
  let a (i : Nat) : Bytes := 0x01#8 :: (n ++ beBytes 2 i)
  (ctrMode rk (fun i => a (i + 1)) plain, (xorBytes t (aesBlock rk (a 0))).take m)

/-- The MIC of a frame at a security level: levels 1 to 3 authenticate the data without encrypting it. -/
def ccmMic (m level key nonce : Nat) (aad body : Bytes) : Bytes :=
  if level < 4 then (ccm m key nonce (aad ++ body) []).2 else (ccm m key nonce aad body).2

/-! ## CMAC (SP 800-38B) -/

/-- Doubling in GF(2^128) for CMAC's subkeys. -/
def cmacDouble (x : BitVec 128) : BitVec 128 := (x <<< 1) ^^^ if x.msb then 0x87#128 else 0

/-- AES-CMAC under a key of `k` bytes. -/
@[irreducible] def cmac (k key : Nat) (b : Bytes) : BitVec 128 :=
  let rk := roundKeys (beBytes k key)
  let k1 := cmacDouble (BitVec.ofNat 128 (beNat (aesBlock rk (List.replicate 16 0))))
  let bs := blocksOf b
  let whole := decide (b ≠ [] ∧ b.length % 16 = 0)
  let last := bs.getLastD []
  let final := if whole then last else last ++ 0x80#8 :: List.replicate (15 - last.length) 0
  let mask := beBytes 16 (if whole then k1 else cmacDouble k1).toNat
  BitVec.ofNat 128 (beNat (cbcMac rk (List.replicate 16 0) (bs.dropLast ++ [xorBytes final mask])))

/-! ## SHA-256 (FIPS 180-4) -/

/-- The round constants. -/
def shaK : List Word :=
  [0x428a2f98, 0x71374491, 0xb5c0fbcf, 0xe9b5dba5, 0x3956c25b, 0x59f111f1, 0x923f82a4, 0xab1c5ed5] ++
  [0xd807aa98, 0x12835b01, 0x243185be, 0x550c7dc3, 0x72be5d74, 0x80deb1fe, 0x9bdc06a7, 0xc19bf174] ++
  [0xe49b69c1, 0xefbe4786, 0x0fc19dc6, 0x240ca1cc, 0x2de92c6f, 0x4a7484aa, 0x5cb0a9dc, 0x76f988da] ++
  [0x983e5152, 0xa831c66d, 0xb00327c8, 0xbf597fc7, 0xc6e00bf3, 0xd5a79147, 0x06ca6351, 0x14292967] ++
  [0x27b70a85, 0x2e1b2138, 0x4d2c6dfc, 0x53380d13, 0x650a7354, 0x766a0abb, 0x81c2c92e, 0x92722c85] ++
  [0xa2bfe8a1, 0xa81a664b, 0xc24b8b70, 0xc76c51a3, 0xd192e819, 0xd6990624, 0xf40e3585, 0x106aa070] ++
  [0x19a4c116, 0x1e376c08, 0x2748774c, 0x34b0bcb5, 0x391c0cb3, 0x4ed8aa4a, 0x5b9cca4f, 0x682e6ff3] ++
  [0x748f82ee, 0x78a5636f, 0x84c87814, 0x8cc70208, 0x90befffa, 0xa4506ceb, 0xbef9a3f7, 0xc67178f2]

/-- The initial hash value. -/
def shaInit : List Word :=
  [0x6a09e667, 0xbb67ae85, 0x3c6ef372, 0xa54ff53a, 0x510e527f, 0x9b05688c, 0x1f83d9ab, 0x5be0cd19]

/-- The message schedule: `n` words more after `ws`, the latest first. -/
def shaSchedule : Nat → List Word → List Word
  | 0, ws => ws
  | n + 1, ws =>
    let w (k : Nat) : Word := ws.getD (k - 1) 0
    let s0 := (w 15).rotateRight 7 ^^^ (w 15).rotateRight 18 ^^^ (w 15 >>> 3)
    let s1 := (w 2).rotateRight 17 ^^^ (w 2).rotateRight 19 ^^^ (w 2 >>> 10)
    shaSchedule n ((s1 + w 7 + s0 + w 16) :: ws)

/-- One round over the working variables a to h. -/
def shaRound (v : List Word) (kw : Word) : List Word :=
  match v with
  | [a, b, c, d, e, f, g, h] =>
    let t1 := h + (e.rotateRight 6 ^^^ e.rotateRight 11 ^^^ e.rotateRight 25) + ((e &&& f) ^^^ (~~~e &&& g)) + kw
    let t2 := (a.rotateRight 2 ^^^ a.rotateRight 13 ^^^ a.rotateRight 22) + ((a &&& b) ^^^ (a &&& c) ^^^ (b &&& c))
    [t1 + t2, a, b, c, d + t1, e, f, g]
  | _ => v

/-- One 64 B block. -/
def shaBlock (hs : List Word) (b : Bytes) : List Word :=
  let ws := (recordsOf 4 16 b).map fun x => BitVec.ofNat 32 (beNat x)
  let w := (shaSchedule 48 ws.reverse).reverse
  List.zipWith (· + ·) hs ((List.zipWith (· + ·) shaK w).foldl shaRound hs)

/-- SHA-256. -/
@[irreducible] def sha256 (b : Bytes) : BitVec 256 :=
  let z := (119 - b.length % 64) % 64
  let m := b ++ 0x80#8 :: List.replicate z 0 ++ beBytes 8 (8 * b.length)
  let hs := (recordsOf 64 (m.length / 64) m).foldl shaBlock shaInit
  BitVec.ofNat 256 (beNat (hs.flatMap fun w => beBytes 4 w.toNat))

/-- HMAC-SHA-256 under a key of at most 64 B. -/
def hmac (key b : Bytes) : Bytes :=
  let k := key ++ List.replicate (64 - key.length) 0
  beBytes 32 (sha256 (k.map (· ^^^ 0x5C) ++ beBytes 32 (sha256 (k.map (· ^^^ 0x36) ++ b)).toNat)).toNat

/-- The blocks T(1), T(2), … of HKDF-Expand, `n` of them from block `i` after `t`. -/
def hkdfBlocks (prk info : Bytes) : Nat → Nat → Bytes → Bytes
  | 0, _, _ => []
  | n + 1, i, t => let t' := hmac prk (t ++ info ++ beBytes 1 i); t' ++ hkdfBlocks prk info n (i + 1) t'

/-- HKDF-SHA-256 (RFC 5869) with `len` output bytes; an empty salt is 32 zero bytes. -/
@[irreducible] def hkdf (len : Nat) (ikm salt info : Bytes) : Nat :=
  beNat ((hkdfBlocks (hmac salt ikm) info ((len + 31) / 32) 1 []).take len)

/-! ## Key wrap (RFC 3394) -/

/-- One step of a wrap: the integrity register and the registers R, with the step's counter. -/
def wrapStep (rk : List Bytes) (st : Bytes × List Bytes) (t : Nat) : Bytes × List Bytes :=
  let i := (t - 1) % st.2.length
  let b := aesBlock rk (st.1 ++ st.2.getD i [])
  (xorBytes (b.take 8) (beBytes 8 t), st.2.set i (b.drop 8))

/-- RFC 3394 wrap of `n` bytes under a key-encryption key of `k` bytes: `n + 8` bytes. -/
@[irreducible] def wrap (k kek n key : Nat) : Nat :=
  let r := recordsOf 8 (n / 8) (beBytes n key)
  let st := ((List.range (6 * r.length)).map (· + 1)).foldl (wrapStep (roundKeys (beBytes k kek))) (List.replicate 8 0xA6#8, r)
  beNat (st.1 ++ st.2.flatten)

/-! ## P-256 (FIPS 186-5) -/

/-- The field prime. -/
def primeP : Nat := 0xffffffff00000001000000000000000000000000ffffffffffffffffffffffff

/-- The order of the base point. -/
def orderN : Nat := 0xffffffff00000000ffffffffffffffffbce6faada7179e84f3b9cac2fc632551

/-- The coefficient b of the curve y² = x³ − 3x + b. -/
def coefB : Nat := 0x5ac635d8aa3a93e7b3ebbd55769886bc651d06b0cc53b0f63bce3c3e27d2604b

/-- A point: none at infinity. -/
abbrev Point := Option (Nat × Nat)

/-- The base point. -/
def baseG : Point :=
  some (0x6b17d1f2e12c4247f8bce6e563a440f277037d812deb33a0f4a13945d898c296,
    0x4fe342e2fe1a7f9b8ee7eb4a7c0f9e162bce33576b315ececbb6406837bf51f5)

/-- `a ^ e` modulo `p`, over the low `n` bits of `e`. -/
def powMod (p : Nat) : Nat → Nat → Nat → Nat
  | 0, _, _ => 1
  | n + 1, a, e => let h := powMod p n (a * a % p) (e / 2); if e % 2 = 1 then a * h % p else h

/-- The inverse modulo a 256-bit prime. -/
def invMod (p a : Nat) : Nat := powMod p 256 (a % p) (p - 2)

/-- `a - b` modulo `p`. -/
def subMod (p a b : Nat) : Nat := (a + (p - b % p)) % p

/-- The sum of two points. -/
def addPoint : Point → Point → Point
  | none, q => q
  | p, none => p
  | some (x, y), some (x', y') =>
    if x = x' ∧ (y + y') % primeP = 0 then none
    else
      let l :=
        if x = x' then (3 * x * x + (primeP - 3)) * invMod primeP (2 * y) % primeP
        else subMod primeP y' y * invMod primeP (subMod primeP x' x) % primeP
      let x'' := subMod primeP (l * l) (x + x')
      some (x'', subMod primeP (l * subMod primeP x x'') y)

/-- `k` times a point, over the low `n` bits of `k`. -/
def mulPoint : Nat → Nat → Point → Point
  | 0, _, _ => none
  | n + 1, k, p => let h := mulPoint n (k / 2) (addPoint p p); if k % 2 = 1 then addPoint p h else h

/-- A 64 B string X ‖ Y as a point. -/
def toPoint (b : BitVec 512) : Point := some (b.toNat / 2 ^ 256, b.toNat % 2 ^ 256)

/-- X ‖ Y of a point, 0 at infinity. -/
def fromPoint : Point → BitVec 512
  | some (x, y) => BitVec.ofNat 512 (x * 2 ^ 256 + y)
  | none => 0

/-- Whether a 64 B string is a point of the curve. -/
@[irreducible] def onCurve (b : BitVec 512) : Bool :=
  let x := b.toNat / 2 ^ 256
  let y := b.toNat % 2 ^ 256
  decide (x < primeP) && decide (y < primeP) && decide (y * y % primeP = (x * x * x + (primeP - 3) * x + coefB) % primeP)

/-- The public key of a scalar. -/
@[irreducible] def pubKey (k : BitVec 256) : BitVec 512 := fromPoint (mulPoint 256 k.toNat baseG)

/-- ECDH: the X coordinate of the product of a scalar and a public key. -/
@[irreducible] def ecdh (k : BitVec 256) (pub : BitVec 512) : BitVec 256 :=
  BitVec.ofNat 256 ((fromPoint (mulPoint 256 k.toNat (toPoint pub))).toNat / 2 ^ 256)

/-- The scalar that random bits `x` give: reduced to 1 to n − 1 (R290). -/
def scalarOf (x : Nat) : Nat := x % (orderN - 1) + 1

/-- The ECDSA signature r ‖ s of a digest under the scalar `k`, with the per-message secret `m`. -/
@[irreducible] def ecdsaSign (k : Nat) (digest : BitVec 256) (m : Nat) : BitVec 512 :=
  let r := (fromPoint (mulPoint 256 m baseG)).toNat / 2 ^ 256 % orderN
  BitVec.ofNat 512 (r * 2 ^ 256 + invMod orderN m * (digest.toNat + r * k) % orderN)

/-- ECDSA verification. -/
@[irreducible] def ecdsaVerify (pub : BitVec 512) (digest : BitVec 256) (sig : BitVec 512) : Bool :=
  let r := sig.toNat / 2 ^ 256
  let s := sig.toNat % 2 ^ 256
  let w := invMod orderN s
  let p := addPoint (mulPoint 256 (digest.toNat * w % orderN) baseG) (mulPoint 256 (r * w % orderN) (toPoint pub))
  decide (0 < r) && decide (r < orderN) && decide (0 < s) && decide (s < orderN) && onCurve pub &&
    p.elim false fun q => decide (q.1 % orderN = r)

end Sys2Proof.Crypto
end

