-- ==== Sys2Proof/Config.lean ====
section
/-! DEFINITION. What one device fixes, and the values the spec leaves open. Every constant here is opaque: nothing in
Lean can evaluate it, so a statement about one holds for every value.

The cryptographic standards that the spec names are functions of Machine/Crypto.lean; what stands here of them is the
device's own secrets and random bits. -/

namespace Sys2Proof.Config

/-- A free value of `w` bits: the `n`-th value that nothing in the spec fixes (log entry 2). -/
opaque freeValue (w n : Nat) : BitVec w

/-- The fixed message of the pairwise test of a SIGN candidate (R294; log entry 56). -/
opaque pairwiseMessage : BitVec 256

/-- The Yezelys product root public key held in Seedbed (R36, step 1). -/
opaque rootKey : BitVec 512

/-- The identity key pair fused at manufacture (11), as its scalar. -/
opaque identityScalar : BitVec 256

/-- CORE_CLK cycles from RESET_N release until the host interface is ready, where that is earlier than the 100 ms of R430
(log entry 71). -/
opaque hostReady : Nat

/-- The JTAG instruction register's length, and the codes of its instructions 1 to 3, IDCODE, SAMPLE/PRELOAD and EXTEST
(R479; log entry 72). -/
opaque jtagLength : Nat

opaque jtagCode : Nat → List Bool

/-- The device serial (GLB_SERIAL), from fuses. -/
opaque serial : BitVec 64

/-- The ordering code fuse (GLB_GRADE, R1): false AZ9610-F1024-I, true AZ9610-F1024-E. -/
opaque gradeE : Bool

/-- The PTP clockIdentity and offsetScaledLogVariance the device announces (R329; log entry 11). -/
opaque ptpIdentity : BitVec 64

opaque ptpVariance : BitVec 16

/-- The receipt timeouts of Sync and Pdelay_Resp in CORE_CLK cycles, by the message interval (R328; log entry 11). -/
opaque syncTimeout : Int → Nat

opaque pdelayTimeout : Int → Nat

/-- The PAN ID, receive channel and beacon channel a cell is given (03; log entry 12). -/
opaque cellPan : Nat → BitVec 16

/-- The key index of key identifier mode 1 in a frame to a meter: the spec gives none (R69; log entry 77). -/
opaque linkKeyIndex : BitVec 8

/-- The radio profile a cell is given, as a number modulo the profiles of RADIO_PROFILE (03; log entry 12). -/
opaque cellProfile : Nat → BitVec 4

/-- The IPv6 address of the partner device, which ACCEPT carries (03; log entry 12). -/
opaque partnerAddr : BitVec 128

/-- Whether a PAN ID belongs to a cell of another pair's devices on the board (R156; log entry 12). -/
opaque otherPan : Nat → Bool

opaque cellRxChannel : Nat → BitVec 8

opaque cellBeaconChannel : Nat → BitVec 8

/-- The bounds, in days, of a health forecast's 90 % prediction interval, of its samples and limit (R458; log entry 17). -/
opaque forecastBand : List (Nat × Nat) → Nat → BitVec 16 × BitVec 16

/-- Of the device identity certificate, its ISSUER and the product root key's signature; and the ISSUER the device writes in a
record-signing certificate (R314). -/
opaque rootIssuer : BitVec 32

opaque identitySig : BitVec 512

opaque certIssuer : BitVec 32

/-- The value slot that the `map`-th map of OBIS nodes gives a logical name, 8 or more for none (R33 gives the maps no
encoding; log entry 22). -/
opaque obisSlot (map name : Nat) : BitVec 4

/-- Which way a quotient that the spec's formulas leave to be narrowed goes: up where true, down otherwise (R98; log
entry 25). -/
opaque roundUp : Int → Int → Bool

/-- A balance bin after a share that its 32 bits do not hold (R244; log entry 53). -/
opaque binOver : Int → BitVec 32

/-- What a 32-bit demand field holds of a sum or quotient that does not fit it (R220, R224; log entry 70). -/
opaque demandOver : Nat → BitVec 32

/-- A-XDR data of the object view that the spec leaves open, by meter, logical name, attribute and item (R236; log
entry 32). -/
opaque viewData (meter name attr item : Nat) : Bytes

/-- The name the object view gives a season or week profile of an activity calendar, as one octet, and the index of a
special-day entry (R236; log entry 32). -/
opaque viewName (kind n : Nat) : BitVec 16

/-- The data-access-result for a malformed or unsupported selective access (R238; log entry 32). -/
opaque viewBadSelector (selector : Nat) : BitVec 8

/-- Whether a DLMS/COSEM class uses security suite 1 (R315; log entry 32). -/
opaque classSuite (cls : Nat) : Bool

/-- The on-die temperature sensor at a CORE_CLK count: now and highest since reset, 0.1 °C (R483; log entry 34). -/
opaque dieTemp (cycles : Nat) : BitVec 16 × BitVec 16

/-- A reactive power over a Hilbert bank without gain at the mains frequency (R137; log entry 83). -/
opaque reactiveByZero (n : Int) : BitVec 64

/-- A coefficient of the nominal set, 24 bits, by 128 × stage + 64 × bank + index (R138; log entry 35). -/
opaque nominalCoef (i : Nat) : BitVec 24

/-- Percent of a NAND partition that holds valid data (NFM_PART_n.USED; log entry 34). -/
opaque partUsed (part cycles : Nat) : BitVec 7

/-- The two hashes that give an address its candidate lines of the address index, and the entry of a full line that an insertion
moves (R187; log entry 24). -/
opaque indexHash : Bool → Nat → Bool → BitVec 18

opaque indexPick : Nat → Nat → BitVec 3

end Sys2Proof.Config
end

