-- ==== Sys2Proof/Machine/Maps.lean ====
section
/-! DEFINITION. Sparse tables: a list of key and value pairs with rising keys. The register store, the head table,
meter contexts and every other table the device indexes by number are such lists, so that equal tables are equal data. -/

namespace Sys2Proof.Maps

/-- The value stored under `k`, if any. -/
def get? {α : Type} (k : Nat) : List (Nat × α) → Option α
  | [] => none
  | (j, v) :: m => if j = k then some v else get? k m

/-- The value stored under `k`, or `d`. -/
def getD {α : Type} (m : List (Nat × α)) (k : Nat) (d : α) : α := (get? k m).getD d

/-- Whether a value is stored under `k`. -/
def has {α : Type} (m : List (Nat × α)) (k : Nat) : Bool := (get? k m).isSome

/-- The table without the entry under `k`. -/
def del {α : Type} (k : Nat) : List (Nat × α) → List (Nat × α)
  | [] => []
  | (j, v) :: m => if j = k then del k m else (j, v) :: del k m

/-- Insert before the first greater key. -/
def ins {α : Type} (k : Nat) (v : α) : List (Nat × α) → List (Nat × α)
  | [] => [(k, v)]
  | (j, w) :: m => if k < j then (k, v) :: (j, w) :: m else (j, w) :: ins k v m

/-- Store `v` under `k`. -/
def put {α : Type} (m : List (Nat × α)) (k : Nat) (v : α) : List (Nat × α) := ins k v (del k m)

/-- Change the entry under `k`, where there is one. -/
def modify {α : Type} (m : List (Nat × α)) (k : Nat) (f : α → α) : List (Nat × α) :=
  match get? k m with
  | some v => put m k (f v)
  | none => m

/-- Keys strictly rising from above `lo`. -/
def risingFrom {α : Type} (lo : Nat) : List (Nat × α) → Bool
  | [] => true
  | (j, _) :: m => decide (lo ≤ j) && risingFrom (j + 1) m

/-- The canonical form: keys strictly rising. -/
def rising {α : Type} (m : List (Nat × α)) : Bool := risingFrom 0 m

end Sys2Proof.Maps
end

