-- ==== Sys2Proof/Machine/RegTypes.lean ====
section
/-! DEFINITION. What a register table of the spec says: a field's bits, its type (R8) and its reset value; a register's
offset in BAR0 and its instances; the effect of a host write and of a read on a register by its fields' types. -/

namespace Sys2Proof

/-- The field types of R8. -/
inductive FTy where
  | rw | ro | w1c | w1s | wo | rc | rwl
  deriving DecidableEq, Repr

/-- One field of a register table: bits `hi:lo`, type and reset value. -/
structure FieldD where
  hi : Nat
  lo : Nat
  ty : FTy
  reset : Nat
  deriving DecidableEq, Repr

/-- One register of a register table. Instance `(i, j)` stands at `off + i * str + j * str2`. -/
structure RegD where
  off : Nat
  str : Nat := 0x1000000
  cnt : Nat := 1
  str2 : Nat := 4
  cnt2 : Nat := 1
  fields : List FieldD
  deriving DecidableEq, Repr

/-- A field's place, for access by name: the register's offset and strides and the bits. -/
structure Fld where
  off : Nat
  str : Nat
  str2 : Nat
  hi : Nat
  lo : Nat
  deriving DecidableEq, Repr

/-- The offset `k` bytes on, within the 64 KiB block of `off`: no index leads out of a block. -/
def inBlock (off k : Nat) : Nat := 65536 * (off / 65536) + (off % 65536 + k) % 65536

/-- The field in instance `i` of its register. -/
def Fld.at (f : Fld) (i : Nat) : Fld := { f with off := inBlock f.off (i * f.str) }

/-- The field in instance `(i, j)` of its register. -/
def Fld.at2 (f : Fld) (i j : Nat) : Fld := { f with off := inBlock f.off (i * f.str + j * f.str2) }

/-- The offset of instance `i` of a register. -/
def RegD.at (r : RegD) (i : Nat) : Nat := inBlock r.off (i * r.str)

/-- The offset of instance `(i, j)` of a register. -/
def RegD.at2 (r : RegD) (i j : Nat) : Nat := inBlock r.off (i * r.str + j * r.str2)

/-- Whether offset `o` is an instance of the register. -/
def RegD.covers (r : RegD) (o : Nat) : Bool :=
  decide (r.off ≤ o) &&
    (let d := o - r.off
     let e := d % r.str
     decide (d / r.str < r.cnt) && decide (e % r.str2 = 0) && decide (e / r.str2 < r.cnt2))

/-- The mask of bits `hi:lo`. -/
def fieldMask (hi lo : Nat) : Nat := 2 ^ (hi + 1) - 2 ^ lo

/-- The bits `hi:lo` of `w`. -/
def bitsOf (w : Word) (hi lo : Nat) : Nat := (w.toNat >>> lo) % 2 ^ (hi + 1 - lo)

/-- `w` with bits `hi:lo` set to `v`, taken modulo the field's width. -/
def withBits (w : Word) (hi lo v : Nat) : Word :=
  (w &&& ~~~ (BitVec.ofNat 32 (fieldMask hi lo))) ||| BitVec.ofNat 32 ((v % 2 ^ (hi + 1 - lo)) <<< lo)

/-- The reset word of a register, from its fields' reset values. -/
def resetOf : List FieldD → Nat
  | [] => 0
  | f :: fs => f.reset <<< f.lo + resetOf fs

/-- A register's word after a host write of `v` over `old`, by the fields' types (R8). `locked` is the state after the
Trellis seal, in which an RWL field keeps its value (R10). `set` holds the W1C bits that hardware sets in the same cycle:
there the set wins (R9). A W1S or WO field has the effect its own row gives, which stores what it shows. -/
def writeFields (locked : Bool) (set old v : Word) : List FieldD → Word
  | [] => old
  | f :: fs =>
    let rest := writeFields locked set old v fs
    let x := bitsOf v f.hi f.lo
    match f.ty with
    | .rw => withBits rest f.hi f.lo x
    | .rwl => if locked then rest else withBits rest f.hi f.lo x
    | .w1c => withBits rest f.hi f.lo (bitsOf (old &&& ~~~(v &&& ~~~set)) f.hi f.lo)
    | .w1s => rest
    | .ro => rest
    | .wo => rest
    | .rc => rest

/-- Whether a write of `v` over `old` changes the value of an RWL field: an attempt of R10. -/
def changesRwl (old v : Word) : List FieldD → Bool
  | [] => false
  | f :: fs => (decide (f.ty = .rwl) && decide (bitsOf old f.hi f.lo ≠ bitsOf v f.hi f.lo)) || changesRwl old v fs

/-- The word a read of `old` leaves in the register: RC fields are cleared, every other field stands (R8). -/
def readFields (old : Word) : List FieldD → Word
  | [] => old
  | f :: fs => if f.ty = .rc then withBits (readFields old fs) f.hi f.lo 0 else readFields old fs

/-- The word a read returns: WO fields and reserved bits read zero (R6, R8). -/
def shownFields (w : Word) : List FieldD → Word
  | [] => 0
  | f :: fs => if f.ty = .wo then shownFields w fs else withBits (shownFields w fs) f.hi f.lo (bitsOf w f.hi f.lo)

end Sys2Proof
end

