-- ==== Sys2Proof/Machine/RegMap.lean ====
section
/-! DEFINITION. The BAR0 register map, block by block, from the register tables of the spec's chapters
(02 to 17): for each register its offset, its instances, and its fields with their R8 types and reset values.
A bit no field names is Reserved: it reads as zero and a write does not change it (R6). A field whose table
gives its reset as fuses, grade, RING_MAP or 'Nominal' stands here with 0; `State.readReg` shows its value. -/

namespace Sys2Proof

/-- loader state and source of the live base. (02) -/
def R.TRL_STATUS : RegD := { off := 0x10000, fields := [⟨31, 24, .ro, 0x0⟩, ⟨18, 16, .ro, 0x0⟩, ⟨9, 9, .ro, 0x0⟩, ⟨8, 8, .ro, 0x0⟩, ⟨2, 0, .ro, 0x0⟩] }
def F.TRL_STATUS_ERROR : Fld := ⟨0x10000, 0x0, 0x0, 31, 24⟩
def F.TRL_STATUS_SOURCE : Fld := ⟨0x10000, 0x0, 0x0, 18, 16⟩
def F.TRL_STATUS_OWNER_BOUND : Fld := ⟨0x10000, 0x0, 0x0, 9, 9⟩
def F.TRL_STATUS_FALLBACK : Fld := ⟨0x10000, 0x0, 0x0, 8, 8⟩
def F.TRL_STATUS_STATE : Fld := ⟨0x10000, 0x0, 0x0, 2, 0⟩
/-- host seal. (02) -/
def R.TRL_CTRL : RegD := { off := 0x10004, fields := [⟨0, 0, .w1s, 0x0⟩] }
def F.TRL_CTRL_SEAL : Fld := ⟨0x10004, 0x0, 0x0, 0, 0⟩
/-- loader and Graft commands. (02) -/
def R.TRL_CMD : RegD := { off := 0x10008, fields := [⟨9, 8, .wo, 0x0⟩, ⟨7, 0, .wo, 0x0⟩] }
def F.TRL_CMD_SLOT : Fld := ⟨0x10008, 0x0, 0x0, 9, 8⟩
def F.TRL_CMD_OPCODE : Fld := ⟨0x10008, 0x0, 0x0, 7, 0⟩
/-- result of the last command. (02) -/
def R.TRL_CMD_STATUS : RegD := { off := 0x1000C, fields := [⟨31, 31, .ro, 0x0⟩, ⟨7, 0, .ro, 0x0⟩] }
def F.TRL_CMD_STATUS_BUSY : Fld := ⟨0x1000C, 0x0, 0x0, 31, 31⟩
def F.TRL_CMD_STATUS_RESULT : Fld := ⟨0x1000C, 0x0, 0x0, 7, 0⟩
/-- host buffer address. (02) -/
def R.TRL_HOST_ADDR_LO : RegD := { off := 0x10010, fields := [⟨31, 6, .rw, 0x0⟩] }
def F.TRL_HOST_ADDR_LO_ADDR : Fld := ⟨0x10010, 0x0, 0x0, 31, 6⟩
/-- host buffer address. (02) -/
def R.TRL_HOST_ADDR_HI : RegD := { off := 0x10014, fields := [⟨31, 0, .rw, 0x0⟩] }
def F.TRL_HOST_ADDR_HI_ADDR : Fld := ⟨0x10014, 0x0, 0x0, 31, 0⟩
/-- host buffer length. (02) -/
def R.TRL_HOST_LEN : RegD := { off := 0x10018, fields := [⟨24, 0, .rw, 0x0⟩] }
def F.TRL_HOST_LEN_LENGTH : Fld := ⟨0x10018, 0x0, 0x0, 24, 0⟩
/-- live BUILD_SERIAL. (02) -/
def R.TRL_BUILD_LO : RegD := { off := 0x10020, fields := [⟨31, 0, .ro, 0x0⟩] }
def F.TRL_BUILD_LO_SERIAL : Fld := ⟨0x10020, 0x0, 0x0, 31, 0⟩
/-- live BUILD_SERIAL. (02) -/
def R.TRL_BUILD_HI : RegD := { off := 0x10024, fields := [⟨31, 0, .ro, 0x0⟩] }
def F.TRL_BUILD_HI_SERIAL : Fld := ⟨0x10024, 0x0, 0x0, 31, 0⟩
/-- security versions. (02) -/
def R.TRL_SECVER : RegD := { off := 0x10028, fields := [⟨31, 16, .ro, 0x0⟩, ⟨6, 0, .ro, 0x0⟩] }
def F.TRL_SECVER_LIVE : Fld := ⟨0x10028, 0x0, 0x0, 31, 16⟩
def F.TRL_SECVER_FLOOR : Fld := ⟨0x10028, 0x0, 0x0, 6, 0⟩
/-- loader events. Set wins as R9 states. (02) -/
def R.TRL_INT_STATUS : RegD := { off := 0x10040, fields := [⟨5, 5, .w1c, 0x0⟩, ⟨4, 4, .w1c, 0x0⟩, ⟨3, 1, .w1c, 0x0⟩, ⟨0, 0, .w1c, 0x0⟩] }
def F.TRL_INT_STATUS_SEALED_WRITE : Fld := ⟨0x10040, 0x0, 0x0, 5, 5⟩
def F.TRL_INT_STATUS_GRAFT_FAILED : Fld := ⟨0x10040, 0x0, 0x0, 4, 4⟩
def F.TRL_INT_STATUS_GRAFT_APPLIED : Fld := ⟨0x10040, 0x0, 0x0, 3, 1⟩
def F.TRL_INT_STATUS_CMD_DONE : Fld := ⟨0x10040, 0x0, 0x0, 0, 0⟩
/-- interrupt enables for the bits of TRL_INT_STATUS. (02) -/
def R.TRL_INT_ENABLE : RegD := { off := 0x10044, fields := [⟨5, 0, .rw, 0x0⟩] }
def F.TRL_INT_ENABLE_ENABLE : Fld := ⟨0x10044, 0x0, 0x0, 5, 0⟩
/-- live generation of section type n. (02) -/
def R.TRL_GEN_n : RegD := { off := 0x10080, str := 0x4, cnt := 12, fields := [⟨31, 0, .ro, 0x0⟩] }
def F.TRL_GEN_n_GENERATION : Fld := ⟨0x10080, 0x4, 0x0, 31, 0⟩
/-- Graft slot state. (02) -/
def R.TRL_SLOT_STATUS : RegD := { off := 0x10100, str := 0x20, cnt := 3, fields := [⟨15, 8, .ro, 0x0⟩, ⟨1, 0, .ro, 0x0⟩] }
def F.TRL_SLOT_STATUS_LAST_RESULT : Fld := ⟨0x10100, 0x20, 0x0, 15, 8⟩
def F.TRL_SLOT_STATUS_STATE : Fld := ⟨0x10100, 0x20, 0x0, 1, 0⟩
/-- activation instant, read at ARM. (02) -/
def R.TRL_SLOT_AT_LO : RegD := { off := 0x10104, str := 0x20, cnt := 3, fields := [⟨31, 0, .rw, 0x0⟩] }
def F.TRL_SLOT_AT_LO_SECONDS : Fld := ⟨0x10104, 0x20, 0x0, 31, 0⟩
/-- activation instant, read at ARM. (02) -/
def R.TRL_SLOT_AT_HI : RegD := { off := 0x10108, str := 0x20, cnt := 3, fields := [⟨15, 0, .rw, 0x0⟩] }
def F.TRL_SLOT_AT_HI_SECONDS : Fld := ⟨0x10108, 0x20, 0x0, 15, 0⟩
/-- generation of the first staged section. (02) -/
def R.TRL_SLOT_GEN : RegD := { off := 0x1010C, str := 0x20, cnt := 3, fields := [⟨31, 0, .ro, 0x0⟩] }
def F.TRL_SLOT_GEN_GENERATION : Fld := ⟨0x1010C, 0x20, 0x0, 31, 0⟩
/-- MAC controls. (03) -/
def R.FHM_CTRL : RegD := { off := 0x50000, fields := [⟨15, 8, .rw, 0xA⟩, ⟨2, 2, .w1s, 0x0⟩, ⟨1, 1, .rw, 0x0⟩, ⟨0, 0, .rw, 0x1⟩] }
def F.FHM_CTRL_ACK_RESERVE : Fld := ⟨0x50000, 0x0, 0x0, 15, 8⟩
def F.FHM_CTRL_CNT_CLEAR : Fld := ⟨0x50000, 0x0, 0x0, 2, 2⟩
def F.FHM_CTRL_WINDOW_CCA : Fld := ⟨0x50000, 0x0, 0x0, 1, 1⟩
def F.FHM_CTRL_STORM_AUTO : Fld := ⟨0x50000, 0x0, 0x0, 0, 0⟩
/-- MAC population. (03) -/
def R.FHM_STATUS : RegD := { off := 0x50004, fields := [⟨28, 16, .ro, 0x0⟩, ⟨12, 0, .ro, 0x0⟩] }
def F.FHM_STATUS_HEADS_ACTIVE : Fld := ⟨0x50004, 0x0, 0x0, 28, 16⟩
def F.FHM_STATUS_CELLS_SF : Fld := ⟨0x50004, 0x0, 0x0, 12, 0⟩
/-- downlink source EUI-64. (03) -/
def R.FHM_NET_EUI_LO : RegD := { off := 0x50008, fields := [⟨31, 0, .rwl, 0x0⟩] }
def F.FHM_NET_EUI_LO_EUI : Fld := ⟨0x50008, 0x0, 0x0, 31, 0⟩
/-- downlink source EUI-64. (03) -/
def R.FHM_NET_EUI_HI : RegD := { off := 0x5000C, fields := [⟨31, 0, .rwl, 0x0⟩] }
def F.FHM_NET_EUI_HI_EUI : Fld := ⟨0x5000C, 0x0, 0x0, 31, 0⟩
/-- vendor identifier of the header IEs. (03) -/
def R.FHM_IE_ID : RegD := { off := 0x50010, fields := [⟨23, 0, .rwl, 0x3CD917⟩] }
def F.FHM_IE_ID_ID : Fld := ⟨0x50010, 0x0, 0x0, 23, 0⟩
/-- CSMA-CA parameters. (03) -/
def R.FHM_CSMA : RegD := { off := 0x50020, fields := [⟨15, 12, .rw, 0x3⟩, ⟨11, 8, .rw, 0x4⟩, ⟨7, 4, .rw, 0x5⟩, ⟨3, 0, .rw, 0x3⟩] }
def F.FHM_CSMA_MAX_RETRIES : Fld := ⟨0x50020, 0x0, 0x0, 15, 12⟩
def F.FHM_CSMA_MAX_BACKOFFS : Fld := ⟨0x50020, 0x0, 0x0, 11, 8⟩
def F.FHM_CSMA_MAX_BE : Fld := ⟨0x50020, 0x0, 0x0, 7, 4⟩
def F.FHM_CSMA_MIN_BE : Fld := ⟨0x50020, 0x0, 0x0, 3, 0⟩
/-- lead limits. (03) -/
def R.FHM_LEAD : RegD := { off := 0x50024, fields := [⟨31, 16, .rw, 0x14⟩, ⟨15, 0, .rw, 0x32⟩] }
def F.FHM_LEAD_LEAD_MAX : Fld := ⟨0x50024, 0x0, 0x0, 31, 16⟩
def F.FHM_LEAD_JITTER_MIN : Fld := ⟨0x50024, 0x0, 0x0, 15, 0⟩
/-- head supervision. (03) -/
def R.FHM_HEAD_CFG : RegD := { off := 0x50028, fields := [⟨31, 16, .rw, 0x3E8⟩, ⟨15, 0, .rw, 0xA⟩] }
def F.FHM_HEAD_CFG_STATUS_PERIOD : Fld := ⟨0x50028, 0x0, 0x0, 31, 16⟩
def F.FHM_HEAD_CFG_TIME_TOL : Fld := ⟨0x50028, 0x0, 0x0, 15, 0⟩
/-- accept windows. (03) -/
def R.FHM_RXWIN : RegD := { off := 0x5002C, fields := [⟨31, 16, .rw, 0x708⟩, ⟨15, 0, .rw, 0x3E8⟩] }
def F.FHM_RXWIN_RX2 : Fld := ⟨0x5002C, 0x0, 0x0, 31, 16⟩
def F.FHM_RXWIN_RX1 : Fld := ⟨0x5002C, 0x0, 0x0, 15, 0⟩
/-- wake schedule. (03) -/
def R.FHM_WAKE : RegD := { off := 0x50030, fields := [⟨31, 16, .rw, 0xE10⟩, ⟨15, 0, .rw, 0xC8⟩] }
def F.FHM_WAKE_PERIOD : Fld := ⟨0x50030, 0x0, 0x0, 31, 16⟩
def F.FHM_WAKE_WINDOW : Fld := ⟨0x50030, 0x0, 0x0, 15, 0⟩
/-- wake guard terms. (03) -/
def R.FHM_GUARD : RegD := { off := 0x50034, fields := [⟨31, 16, .rw, 0x21⟩, ⟨15, 0, .rw, 0x42⟩] }
def F.FHM_GUARD_JITTER : Fld := ⟨0x50034, 0x0, 0x0, 31, 16⟩
def F.FHM_GUARD_BASE : Fld := ⟨0x50034, 0x0, 0x0, 15, 0⟩
/-- drift filter. (03) -/
def R.FHM_DRIFT : RegD := { off := 0x50038, fields := [⟨31, 24, .rw, 0x4⟩, ⟨23, 0, .rw, 0x7D0⟩] }
def F.FHM_DRIFT_MIN_CONF : Fld := ⟨0x50038, 0x0, 0x0, 31, 24⟩
def F.FHM_DRIFT_OUTLIER : Fld := ⟨0x50038, 0x0, 0x0, 23, 0⟩
/-- superframe timing. (03) -/
def R.FHM_SF : RegD := { off := 0x50040, fields := [⟨31, 16, .rw, 0x7D0⟩, ⟨15, 0, .rw, 0x340⟩] }
def F.FHM_SF_PERIOD : Fld := ⟨0x50040, 0x0, 0x0, 31, 16⟩
def F.FHM_SF_SLOT : Fld := ⟨0x50040, 0x0, 0x0, 15, 0⟩
/-- superframe entry and exit. (03) -/
def R.FHM_SF_CTRL : RegD := { off := 0x50044, fields := [⟨30, 24, .rw, 0x32⟩, ⟨23, 16, .rw, 0x3⟩, ⟨15, 0, .rw, 0x1F4⟩] }
def F.FHM_SF_CTRL_CCA_PCT : Fld := ⟨0x50044, 0x0, 0x0, 30, 24⟩
def F.FHM_SF_CTRL_QUIET : Fld := ⟨0x50044, 0x0, 0x0, 23, 16⟩
def F.FHM_SF_CTRL_GUARD : Fld := ⟨0x50044, 0x0, 0x0, 15, 0⟩
/-- superframe commands. (03) -/
def R.FHM_MODE_CMD : RegD := { off := 0x50050, fields := [⟨15, 14, .wo, 0x0⟩, ⟨13, 13, .wo, 0x0⟩, ⟨11, 0, .wo, 0x0⟩] }
def F.FHM_MODE_CMD_OP : Fld := ⟨0x50050, 0x0, 0x0, 15, 14⟩
def F.FHM_MODE_CMD_ALL : Fld := ⟨0x50050, 0x0, 0x0, 13, 13⟩
def F.FHM_MODE_CMD_CELL : Fld := ⟨0x50050, 0x0, 0x0, 11, 0⟩
/-- head registration. (03) -/
def R.FHM_HEAD_CMD : RegD := { off := 0x50060, fields := [⟨31, 31, .ro, 0x0⟩, ⟨30, 28, .ro, 0x0⟩, ⟨27, 16, .wo, 0x0⟩, ⟨7, 0, .wo, 0x0⟩] }
def F.FHM_HEAD_CMD_BUSY : Fld := ⟨0x50060, 0x0, 0x0, 31, 31⟩
def F.FHM_HEAD_CMD_RESULT : Fld := ⟨0x50060, 0x0, 0x0, 30, 28⟩
def F.FHM_HEAD_CMD_INDEX : Fld := ⟨0x50060, 0x0, 0x0, 27, 16⟩
def F.FHM_HEAD_CMD_OPCODE : Fld := ⟨0x50060, 0x0, 0x0, 7, 0⟩
/-- EUI-64 for ADD. (03) -/
def R.FHM_HEAD_EUI_LO : RegD := { off := 0x50064, fields := [⟨31, 0, .rw, 0x0⟩] }
def F.FHM_HEAD_EUI_LO_EUI : Fld := ⟨0x50064, 0x0, 0x0, 31, 0⟩
/-- EUI-64 for ADD. (03) -/
def R.FHM_HEAD_EUI_HI : RegD := { off := 0x50068, fields := [⟨31, 0, .rw, 0x0⟩] }
def F.FHM_HEAD_EUI_HI_EUI : Fld := ⟨0x50068, 0x0, 0x0, 31, 0⟩
/-- head shown by the three registers that follow. (03) -/
def R.FHM_HEAD_SEL : RegD := { off := 0x50070, fields := [⟨11, 0, .rw, 0x0⟩] }
def F.FHM_HEAD_SEL_INDEX : Fld := ⟨0x50070, 0x0, 0x0, 11, 0⟩
/-- selected head's state and radio. (03) -/
def R.FHM_HEAD_STATE : RegD := { off := 0x50074, fields := [⟨31, 24, .ro, 0x0⟩, ⟨23, 16, .ro, 0x0⟩, ⟨15, 12, .ro, 0x0⟩, ⟨11, 10, .ro, 0x0⟩, ⟨9, 9, .ro, 0x0⟩, ⟨8, 7, .ro, 0x0⟩, ⟨6, 3, .ro, 0x0⟩, ⟨2, 0, .ro, 0x0⟩] }
def F.FHM_HEAD_STATE_BEACON_CH : Fld := ⟨0x50074, 0x0, 0x0, 31, 24⟩
def F.FHM_HEAD_STATE_RX_CH : Fld := ⟨0x50074, 0x0, 0x0, 23, 16⟩
def F.FHM_HEAD_STATE_PROFILE : Fld := ⟨0x50074, 0x0, 0x0, 15, 12⟩
def F.FHM_HEAD_STATE_RATE : Fld := ⟨0x50074, 0x0, 0x0, 11, 10⟩
def F.FHM_HEAD_STATE_SF : Fld := ⟨0x50074, 0x0, 0x0, 9, 9⟩
def F.FHM_HEAD_STATE_MISSED : Fld := ⟨0x50074, 0x0, 0x0, 8, 7⟩
def F.FHM_HEAD_STATE_CAUSE : Fld := ⟨0x50074, 0x0, 0x0, 6, 3⟩
def F.FHM_HEAD_STATE_STATE : Fld := ⟨0x50074, 0x0, 0x0, 2, 0⟩
/-- selected head's lead terms. (03) -/
def R.FHM_HEAD_TIMING : RegD := { off := 0x50078, fields := [⟨31, 16, .ro, 0x0⟩, ⟨15, 0, .ro, 0x0⟩] }
def F.FHM_HEAD_TIMING_JITTER : Fld := ⟨0x50078, 0x0, 0x0, 31, 16⟩
def F.FHM_HEAD_TIMING_DELAY : Fld := ⟨0x50078, 0x0, 0x0, 15, 0⟩
/-- selected head's lead and time offset. (03) -/
def R.FHM_HEAD_LEAD : RegD := { off := 0x5007C, fields := [⟨31, 16, .ro, 0x0⟩, ⟨15, 0, .ro, 0x0⟩] }
def F.FHM_HEAD_LEAD_OFFSET : Fld := ⟨0x5007C, 0x0, 0x0, 31, 16⟩
def F.FHM_HEAD_LEAD_LEAD : Fld := ⟨0x5007C, 0x0, 0x0, 15, 0⟩
/-- MAC events. Set wins as R9 states. (03) -/
def R.FHM_INT_STATUS : RegD := { off := 0x50090, fields := [⟨8, 8, .w1c, 0x0⟩, ⟨7, 7, .w1c, 0x0⟩, ⟨6, 6, .w1c, 0x0⟩, ⟨5, 5, .w1c, 0x0⟩, ⟨4, 4, .w1c, 0x0⟩, ⟨3, 3, .w1c, 0x0⟩, ⟨2, 2, .w1c, 0x0⟩, ⟨1, 1, .w1c, 0x0⟩, ⟨0, 0, .w1c, 0x0⟩] }
def F.FHM_INT_STATUS_COUNTER_EXHAUSTED : Fld := ⟨0x50090, 0x0, 0x0, 8, 8⟩
def F.FHM_INT_STATUS_DRIFT_SAT : Fld := ⟨0x50090, 0x0, 0x0, 7, 7⟩
def F.FHM_INT_STATUS_HLP_AUTH : Fld := ⟨0x50090, 0x0, 0x0, 6, 6⟩
def F.FHM_INT_STATUS_SLOT_RAISED : Fld := ⟨0x50090, 0x0, 0x0, 5, 5⟩
def F.FHM_INT_STATUS_STORM : Fld := ⟨0x50090, 0x0, 0x0, 4, 4⟩
def F.FHM_INT_STATUS_HEAD_TOO_FAR : Fld := ⟨0x50090, 0x0, 0x0, 3, 3⟩
def F.FHM_INT_STATUS_HEAD_BEACON_LOST : Fld := ⟨0x50090, 0x0, 0x0, 2, 2⟩
def F.FHM_INT_STATUS_HEAD_LOST : Fld := ⟨0x50090, 0x0, 0x0, 1, 1⟩
def F.FHM_INT_STATUS_HEAD_JOINED : Fld := ⟨0x50090, 0x0, 0x0, 0, 0⟩
/-- interrupt enables. (03) -/
def R.FHM_INT_ENABLE : RegD := { off := 0x50094, fields := [⟨8, 0, .rw, 0x0⟩] }
def F.FHM_INT_ENABLE_ENABLE : Fld := ⟨0x50094, 0x0, 0x0, 8, 0⟩
/-- MAC counters. (03) -/
def R.FHM_CNT_n : RegD := { off := 0x50100, str := 0x4, cnt := 12, fields := [⟨31, 0, .ro, 0x0⟩] }
def F.FHM_CNT_n_COUNT : Fld := ⟨0x50100, 0x4, 0x0, 31, 0⟩
/-- phase enables. (04) -/
def R.ZXP_CTRL : RegD := { off := 0x60000, str := 0x400, cnt := 4, fields := [⟨16, 16, .w1s, 0x0⟩, ⟨10, 8, .rw, 0x0⟩, ⟨2, 0, .rw, 0x0⟩] }
def F.ZXP_CTRL_CNT_CLEAR : Fld := ⟨0x60000, 0x400, 0x0, 16, 16⟩
def F.ZXP_CTRL_RX_EN : Fld := ⟨0x60000, 0x400, 0x0, 10, 8⟩
def F.ZXP_CTRL_TX_EN : Fld := ⟨0x60000, 0x400, 0x0, 2, 0⟩
/-- tracking and driver state. (04) -/
def R.ZXP_STATUS : RegD := { off := 0x60004, str := 0x400, cnt := 4, fields := [⟨17, 17, .ro, 0x0⟩, ⟨16, 16, .ro, 0x0⟩, ⟨14, 12, .ro, 0x0⟩, ⟨10, 8, .ro, 0x0⟩, ⟨5, 0, .ro, 0x0⟩] }
def F.ZXP_STATUS_FREERUN : Fld := ⟨0x60004, 0x400, 0x0, 17, 17⟩
def F.ZXP_STATUS_MODULE : Fld := ⟨0x60004, 0x400, 0x0, 16, 16⟩
def F.ZXP_STATUS_LATCHED : Fld := ⟨0x60004, 0x400, 0x0, 14, 12⟩
def F.ZXP_STATUS_FAULT : Fld := ⟨0x60004, 0x400, 0x0, 10, 8⟩
def F.ZXP_STATUS_TRACK : Fld := ⟨0x60004, 0x400, 0x0, 5, 0⟩
/-- mains cycle number. A read latches ZXP_CYCLE_HI and the three ZXP_ZC registers until ZXP_ZC_SEC_HI is read. (04) -/
def R.ZXP_CYCLE : RegD := { off := 0x60008, str := 0x400, cnt := 4, fields := [⟨31, 0, .ro, 0x0⟩] }
def F.ZXP_CYCLE_CYCLE : Fld := ⟨0x60008, 0x400, 0x0, 31, 0⟩
/-- cycle number extension. (04) -/
def R.ZXP_CYCLE_HI : RegD := { off := 0x6000C, str := 0x400, cnt := 4, fields := [⟨15, 0, .ro, 0x0⟩] }
def F.ZXP_CYCLE_HI_CYCLE_HI : Fld := ⟨0x6000C, 0x400, 0x0, 15, 0⟩
/-- PTP time of V1's rising crossing for the latched cycle. (04) -/
def R.ZXP_ZC_NS : RegD := { off := 0x60010, str := 0x400, cnt := 4, fields := [⟨31, 0, .ro, 0x0⟩] }
def F.ZXP_ZC_NS_TIME : Fld := ⟨0x60010, 0x400, 0x0, 31, 0⟩
/-- PTP time of V1's rising crossing for the latched cycle. (04) -/
def R.ZXP_ZC_SEC_LO : RegD := { off := 0x60014, str := 0x400, cnt := 4, fields := [⟨31, 0, .ro, 0x0⟩] }
def F.ZXP_ZC_SEC_LO_TIME : Fld := ⟨0x60014, 0x400, 0x0, 31, 0⟩
/-- PTP time of V1's rising crossing for the latched cycle. (04) -/
def R.ZXP_ZC_SEC_HI : RegD := { off := 0x60018, str := 0x400, cnt := 4, fields := [⟨15, 0, .ro, 0x0⟩] }
def F.ZXP_ZC_SEC_HI_TIME : Fld := ⟨0x60018, 0x400, 0x0, 15, 0⟩
/-- mean V1 cycle interval. (04) -/
def R.ZXP_PERIOD : RegD := { off := 0x6001C, str := 0x400, cnt := 4, fields := [⟨31, 0, .ro, 0x0⟩] }
def F.ZXP_PERIOD_PERIOD : Fld := ⟨0x6001C, 0x400, 0x0, 31, 0⟩
/-- outbound pulse timing. (04) -/
def R.ZXP_TX_TIME : RegD := { off := 0x60020, str := 0x400, cnt := 4, fields := [⟨31, 16, .rw, 0x190⟩, ⟨15, 0, .rw, 0xC8⟩] }
def F.ZXP_TX_TIME_WIDTH : Fld := ⟨0x60020, 0x400, 0x0, 31, 16⟩
def F.ZXP_TX_TIME_START : Fld := ⟨0x60020, 0x400, 0x0, 15, 0⟩
/-- inbound window timing. (04) -/
def R.ZXP_RX_TIME : RegD := { off := 0x60024, str := 0x400, cnt := 4, fields := [⟨31, 16, .rw, 0x320⟩, ⟨15, 0, .rw, 0x64⟩] }
def F.ZXP_RX_TIME_WIDTH : Fld := ⟨0x60024, 0x400, 0x0, 31, 16⟩
def F.ZXP_RX_TIME_START : Fld := ⟨0x60024, 0x400, 0x0, 15, 0⟩
/-- load-step threshold. (04) -/
def R.ZXP_STEP : RegD := { off := 0x60028, str := 0x400, cnt := 4, fields := [⟨15, 0, .rw, 0x32⟩] }
def F.ZXP_STEP_THRESHOLD : Fld := ⟨0x60028, 0x400, 0x0, 15, 0⟩
/-- round structure, under R109. (04) -/
def R.ZXP_SCHED : RegD := { off := 0x6002C, str := 0x400, cnt := 4, fields := [⟨31, 20, .rw, 0x20⟩, ⟨19, 8, .rw, 0x200⟩, ⟨7, 3, .rw, 0x10⟩, ⟨2, 0, .rw, 0x3⟩] }
def F.ZXP_SCHED_PERIOD : Fld := ⟨0x6002C, 0x400, 0x0, 31, 20⟩
def F.ZXP_SCHED_DL_CYCLES : Fld := ⟨0x6002C, 0x400, 0x0, 19, 8⟩
def F.ZXP_SCHED_TIME_EVERY : Fld := ⟨0x6002C, 0x400, 0x0, 7, 3⟩
def F.ZXP_SCHED_UL_BLOCKS : Fld := ⟨0x6002C, 0x400, 0x0, 2, 0⟩
/-- current round. (04) -/
def R.ZXP_ROUND : RegD := { off := 0x60030, str := 0x400, cnt := 4, fields := [⟨31, 0, .ro, 0x0⟩] }
def F.ZXP_ROUND_ROUND : Fld := ⟨0x60030, 0x400, 0x0, 31, 0⟩
/-- meter assignment command. (04) -/
def R.ZXP_ASSIGN : RegD := { off := 0x60040, str := 0x400, cnt := 4, fields := [⟨31, 31, .ro, 0x0⟩, ⟨30, 28, .ro, 0x0⟩, ⟨27, 24, .wo, 0x0⟩, ⟨19, 0, .wo, 0x0⟩] }
def F.ZXP_ASSIGN_BUSY : Fld := ⟨0x60040, 0x400, 0x0, 31, 31⟩
def F.ZXP_ASSIGN_RESULT : Fld := ⟨0x60040, 0x400, 0x0, 30, 28⟩
def F.ZXP_ASSIGN_OP : Fld := ⟨0x60040, 0x400, 0x0, 27, 24⟩
def F.ZXP_ASSIGN_METER : Fld := ⟨0x60040, 0x400, 0x0, 19, 0⟩
/-- operands for ASSIGN. (04) -/
def R.ZXP_ASSIGN_SLOT : RegD := { off := 0x60044, str := 0x400, cnt := 4, fields := [⟨17, 16, .rw, 0x0⟩, ⟨15, 12, .rw, 0x0⟩, ⟨11, 0, .rw, 0x0⟩] }
def F.ZXP_ASSIGN_SLOT_PHASE : Fld := ⟨0x60044, 0x400, 0x0, 17, 16⟩
def F.ZXP_ASSIGN_SLOT_CHANNEL : Fld := ⟨0x60044, 0x400, 0x0, 15, 12⟩
def F.ZXP_ASSIGN_SLOT_SLOT : Fld := ⟨0x60044, 0x400, 0x0, 11, 0⟩
/-- feeder events. Set wins as R9 states. (04) -/
def R.ZXP_INT_STATUS : RegD := { off := 0x60050, str := 0x400, cnt := 4, fields := [⟨8, 8, .w1c, 0x0⟩, ⟨7, 7, .w1c, 0x0⟩, ⟨6, 6, .w1c, 0x0⟩, ⟨5, 5, .w1c, 0x0⟩, ⟨4, 4, .w1c, 0x0⟩, ⟨3, 3, .w1c, 0x0⟩, ⟨2, 2, .w1c, 0x0⟩, ⟨1, 1, .w1c, 0x0⟩, ⟨0, 0, .w1c, 0x0⟩] }
def F.ZXP_INT_STATUS_ASSIGN_DONE : Fld := ⟨0x60050, 0x400, 0x0, 8, 8⟩
def F.ZXP_INT_STATUS_MODULE_CHANGE : Fld := ⟨0x60050, 0x400, 0x0, 7, 7⟩
def F.ZXP_INT_STATUS_DRIVER_LATCHED : Fld := ⟨0x60050, 0x400, 0x0, 6, 6⟩
def F.ZXP_INT_STATUS_DRIVER_FAULT : Fld := ⟨0x60050, 0x400, 0x0, 5, 5⟩
def F.ZXP_INT_STATUS_BLOCK_FAIL : Fld := ⟨0x60050, 0x400, 0x0, 4, 4⟩
def F.ZXP_INT_STATUS_LOAD_STEP : Fld := ⟨0x60050, 0x400, 0x0, 3, 3⟩
def F.ZXP_INT_STATUS_UNLOCK : Fld := ⟨0x60050, 0x400, 0x0, 2, 2⟩
def F.ZXP_INT_STATUS_HOLDOVER : Fld := ⟨0x60050, 0x400, 0x0, 1, 1⟩
def F.ZXP_INT_STATUS_LOCKED : Fld := ⟨0x60050, 0x400, 0x0, 0, 0⟩
/-- interrupt enables. (04) -/
def R.ZXP_INT_ENABLE : RegD := { off := 0x60054, str := 0x400, cnt := 4, fields := [⟨8, 0, .rw, 0x0⟩] }
def F.ZXP_INT_ENABLE_ENABLE : Fld := ⟨0x60054, 0x400, 0x0, 8, 0⟩
/-- driver latch. (04) -/
def R.ZXP_FAULT : RegD := { off := 0x60058, str := 0x400, cnt := 4, fields := [⟨2, 0, .w1c, 0x0⟩] }
def F.ZXP_FAULT_LATCHED : Fld := ⟨0x60058, 0x400, 0x0, 2, 0⟩
/-- feeder counters. (04) -/
def R.ZXP_CNT_n : RegD := { off := 0x60100, str := 0x400, cnt := 4, str2 := 0x4, cnt2 := 12, fields := [⟨31, 0, .ro, 0x0⟩] }
def F.ZXP_CNT_n_COUNT : Fld := ⟨0x60100, 0x400, 0x4, 31, 0⟩
/-- chain enable and synchronising reset. (05) -/
def R.MSR_CTRL : RegD := { off := 0x70000, fields := [⟨4, 4, .w1s, 0x0⟩, ⟨3, 2, .rw, 0x0⟩, ⟨1, 1, .w1s, 0x0⟩, ⟨0, 0, .rw, 0x0⟩] }
def F.MSR_CTRL_CNT_CLEAR : Fld := ⟨0x70000, 0x0, 0x0, 4, 4⟩
def F.MSR_CTRL_SYNC_SRC : Fld := ⟨0x70000, 0x0, 0x0, 3, 2⟩
def F.MSR_CTRL_SYNC : Fld := ⟨0x70000, 0x0, 0x0, 1, 1⟩
def F.MSR_CTRL_ENABLE : Fld := ⟨0x70000, 0x0, 0x0, 0, 0⟩
/-- chain state. (05) -/
def R.MSR_STATUS : RegD := { off := 0x70004, fields := [⟨23, 21, .ro, 0x0⟩, ⟨20, 20, .ro, 0x0⟩, ⟨19, 19, .ro, 0x0⟩, ⟨18, 16, .ro, 0x0⟩, ⟨11, 11, .ro, 0x0⟩, ⟨10, 10, .ro, 0x0⟩, ⟨9, 0, .ro, 0x0⟩] }
def F.MSR_STATUS_PENDING_TARGET : Fld := ⟨0x70004, 0x0, 0x0, 23, 21⟩
def F.MSR_STATUS_SWAP_PENDING : Fld := ⟨0x70004, 0x0, 0x0, 20, 20⟩
def F.MSR_STATUS_FADE_ACTIVE : Fld := ⟨0x70004, 0x0, 0x0, 19, 19⟩
def F.MSR_STATUS_ACTIVE_BANK : Fld := ⟨0x70004, 0x0, 0x0, 18, 16⟩
def F.MSR_STATUS_SYNC_ARMED : Fld := ⟨0x70004, 0x0, 0x0, 11, 11⟩
def F.MSR_STATUS_PTP_TRUSTED : Fld := ⟨0x70004, 0x0, 0x0, 10, 10⟩
def F.MSR_STATUS_SETTLE_LEFT : Fld := ⟨0x70004, 0x0, 0x0, 9, 0⟩
/-- chain structure, applied at a synchronising reset. (05) -/
def R.MSR_CHAIN : RegD := { off := 0x70008, fields := [⟨9, 9, .rw, 0x1⟩, ⟨8, 8, .rw, 0x1⟩, ⟨6, 4, .rw, 0x7⟩, ⟨2, 0, .rw, 0x4⟩] }
def F.MSR_CHAIN_HILBERT : Fld := ⟨0x70008, 0x0, 0x0, 9, 9⟩
def F.MSR_CHAIN_FIR2 : Fld := ⟨0x70008, 0x0, 0x0, 8, 8⟩
def F.MSR_CHAIN_LOG2D : Fld := ⟨0x70008, 0x0, 0x0, 6, 4⟩
def F.MSR_CHAIN_ORDER : Fld := ⟨0x70008, 0x0, 0x0, 2, 0⟩
/-- stage shifts, applied at a synchronising reset. (05) -/
def R.MSR_SHIFT : RegD := { off := 0x7000C, fields := [⟨31, 24, .rw, 0x16⟩, ⟨23, 16, .rw, 0x16⟩, ⟨15, 8, .rw, 0xD⟩, ⟨7, 0, .rw, 0xD⟩] }
def F.MSR_SHIFT_SH_HIL : Fld := ⟨0x7000C, 0x0, 0x0, 31, 24⟩
def F.MSR_SHIFT_SH_FIR2 : Fld := ⟨0x7000C, 0x0, 0x0, 23, 16⟩
def F.MSR_SHIFT_SH_FIR1 : Fld := ⟨0x7000C, 0x0, 0x0, 15, 8⟩
def F.MSR_SHIFT_SH_CIC : Fld := ⟨0x7000C, 0x0, 0x0, 7, 0⟩
/-- group delays. (05) -/
def R.MSR_DELAY : RegD := { off := 0x70010, fields := [⟨23, 0, .ro, 0xFDF80⟩] }
def F.MSR_DELAY_STEPS : Fld := ⟨0x70010, 0x0, 0x0, 23, 0⟩
/-- group delays. (05) -/
def R.MSR_FAST_DELAY : RegD := { off := 0x70014, fields := [⟨23, 0, .ro, 0x3F80⟩] }
def F.MSR_FAST_DELAY_STEPS : Fld := ⟨0x70014, 0x0, 0x0, 23, 0⟩
/-- settling counts for the settings in force. (05) -/
def R.MSR_SETTLE : RegD := { off := 0x70018, fields := [⟨23, 16, .ro, 0x5⟩, ⟨15, 8, .ro, 0xBF⟩, ⟨7, 0, .ro, 0x41⟩] }
def F.MSR_SETTLE_K_FAST : Fld := ⟨0x70018, 0x0, 0x0, 23, 16⟩
def F.MSR_SETTLE_K_Q : Fld := ⟨0x70018, 0x0, 0x0, 15, 8⟩
def F.MSR_SETTLE_K : Fld := ⟨0x70018, 0x0, 0x0, 7, 0⟩
/-- common delay. (05) -/
def R.MSR_PHASE_BASE : RegD := { off := 0x7001C, fields := [⟨17, 0, .rw, 0x8000⟩] }
def F.MSR_PHASE_BASE_BASE : Fld := ⟨0x7001C, 0x0, 0x0, 17, 0⟩
/-- measured output sample period. (05) -/
def R.MSR_DT : RegD := { off := 0x70020, fields := [⟨31, 0, .ro, 0x1E848000⟩] }
def F.MSR_DT_PERIOD : Fld := ⟨0x70020, 0x0, 0x0, 31, 0⟩
/-- bank swap request. (05) -/
def R.MSR_SWAP : RegD := { off := 0x70030, fields := [⟨31, 31, .wo, 0x0⟩, ⟨22, 20, .wo, 0x0⟩, ⟨18, 16, .wo, 0x0⟩, ⟨12, 0, .wo, 0x0⟩] }
def F.MSR_SWAP_GO : Fld := ⟨0x70030, 0x0, 0x0, 31, 31⟩
def F.MSR_SWAP_TARGET : Fld := ⟨0x70030, 0x0, 0x0, 22, 20⟩
def F.MSR_SWAP_MASK : Fld := ⟨0x70030, 0x0, 0x0, 18, 16⟩
def F.MSR_SWAP_FADE : Fld := ⟨0x70030, 0x0, 0x0, 12, 0⟩
/-- swap progress. (05) -/
def R.MSR_SWAP_STATUS : RegD := { off := 0x70034, fields := [⟨31, 29, .ro, 0x0⟩, ⟨28, 16, .ro, 0x0⟩, ⟨12, 0, .ro, 0x0⟩] }
def F.MSR_SWAP_STATUS_RESULT : Fld := ⟨0x70034, 0x0, 0x0, 31, 29⟩
def F.MSR_SWAP_STATUS_PENDING_FADE : Fld := ⟨0x70034, 0x0, 0x0, 28, 16⟩
def F.MSR_SWAP_STATUS_PROGRESS : Fld := ⟨0x70034, 0x0, 0x0, 12, 0⟩
/-- coefficient pointer. (05) -/
def R.MSR_COEF_SEL : RegD := { off := 0x70038, fields := [⟨31, 31, .rw, 0x1⟩, ⟨9, 9, .rw, 0x0⟩, ⟨8, 7, .rw, 0x0⟩, ⟨5, 0, .rw, 0x0⟩] }
def F.MSR_COEF_SEL_AUTOINC : Fld := ⟨0x70038, 0x0, 0x0, 31, 31⟩
def F.MSR_COEF_SEL_BANK : Fld := ⟨0x70038, 0x0, 0x0, 9, 9⟩
def F.MSR_COEF_SEL_STAGE : Fld := ⟨0x70038, 0x0, 0x0, 8, 7⟩
def F.MSR_COEF_SEL_INDEX : Fld := ⟨0x70038, 0x0, 0x0, 5, 0⟩
/-- coefficient value. (05) -/
def R.MSR_COEF_DATA : RegD := { off := 0x7003C, fields := [⟨23, 0, .rw, 0x0⟩] }
def F.MSR_COEF_DATA_COEF : Fld := ⟨0x7003C, 0x0, 0x0, 23, 0⟩
/-- module slots. (05) -/
def R.MSR_MOD_STATUS : RegD := { off := 0x70040, fields := [⟨15, 0, .ro, 0x0⟩] }
def F.MSR_MOD_STATUS_SLOT : Fld := ⟨0x70040, 0x0, 0x0, 15, 0⟩
/-- last record failure per slot. (05) -/
def R.MSR_MOD_CAUSE : RegD := { off := 0x70044, fields := [⟨31, 0, .ro, 0x0⟩] }
def F.MSR_MOD_CAUSE_CAUSE : Fld := ⟨0x70044, 0x0, 0x0, 31, 0⟩
/-- module shown in the serial registers. (05) -/
def R.MSR_MOD_SEL : RegD := { off := 0x70048, fields := [⟨2, 2, .rw, 0x0⟩, ⟨1, 0, .rw, 0x0⟩] }
def F.MSR_MOD_SEL_KIND : Fld := ⟨0x70048, 0x0, 0x0, 2, 2⟩
def F.MSR_MOD_SEL_SLOT : Fld := ⟨0x70048, 0x0, 0x0, 1, 0⟩
/-- selected module's serial. (05) -/
def R.MSR_MOD_SERIAL_LO : RegD := { off := 0x7004C, fields := [⟨31, 0, .ro, 0x0⟩] }
def F.MSR_MOD_SERIAL_LO_SERIAL : Fld := ⟨0x7004C, 0x0, 0x0, 31, 0⟩
/-- selected module's serial. (05) -/
def R.MSR_MOD_SERIAL_HI : RegD := { off := 0x70050, fields := [⟨31, 0, .ro, 0x0⟩] }
def F.MSR_MOD_SERIAL_HI_SERIAL : Fld := ⟨0x70050, 0x0, 0x0, 31, 0⟩
/-- measurement events. Set wins as R9 states. (05) -/
def R.MSR_INT_STATUS : RegD := { off := 0x70060, fields := [⟨11, 11, .w1c, 0x0⟩, ⟨10, 10, .w1c, 0x0⟩, ⟨9, 9, .w1c, 0x0⟩, ⟨8, 8, .w1c, 0x0⟩, ⟨7, 7, .w1c, 0x0⟩, ⟨6, 6, .w1c, 0x0⟩, ⟨5, 5, .w1c, 0x0⟩, ⟨4, 4, .w1c, 0x0⟩, ⟨3, 3, .w1c, 0x0⟩, ⟨2, 2, .w1c, 0x0⟩, ⟨1, 1, .w1c, 0x0⟩, ⟨0, 0, .w1c, 0x0⟩] }
def F.MSR_INT_STATUS_COEF_REFUSED : Fld := ⟨0x70060, 0x0, 0x0, 11, 11⟩
def F.MSR_INT_STATUS_PHASE_CLAMP : Fld := ⟨0x70060, 0x0, 0x0, 10, 10⟩
def F.MSR_INT_STATUS_CHAIN_REFUSED : Fld := ⟨0x70060, 0x0, 0x0, 9, 9⟩
def F.MSR_INT_STATUS_MODULE_REPLACED : Fld := ⟨0x70060, 0x0, 0x0, 8, 8⟩
def F.MSR_INT_STATUS_MODULE_INVALID : Fld := ⟨0x70060, 0x0, 0x0, 7, 7⟩
def F.MSR_INT_STATUS_MODULE_VALID : Fld := ⟨0x70060, 0x0, 0x0, 6, 6⟩
def F.MSR_INT_STATUS_MODULE_REMOVED : Fld := ⟨0x70060, 0x0, 0x0, 5, 5⟩
def F.MSR_INT_STATUS_SWAP_REPLACED : Fld := ⟨0x70060, 0x0, 0x0, 4, 4⟩
def F.MSR_INT_STATUS_SWAP_PENDING : Fld := ⟨0x70060, 0x0, 0x0, 3, 3⟩
def F.MSR_INT_STATUS_SWAP_DONE : Fld := ⟨0x70060, 0x0, 0x0, 2, 2⟩
def F.MSR_INT_STATUS_SATURATION : Fld := ⟨0x70060, 0x0, 0x0, 1, 1⟩
def F.MSR_INT_STATUS_SYNC_DONE : Fld := ⟨0x70060, 0x0, 0x0, 0, 0⟩
/-- interrupt enables. (05) -/
def R.MSR_INT_ENABLE : RegD := { off := 0x70064, fields := [⟨11, 0, .rw, 0x0⟩] }
def F.MSR_INT_ENABLE_ENABLE : Fld := ⟨0x70064, 0x0, 0x0, 11, 0⟩
/-- coherent energy read. (05) -/
def R.MSR_FDR_LATCH : RegD := { off := 0x70400, str := 0x100, cnt := 4, fields := [⟨0, 0, .w1s, 0x0⟩] }
def F.MSR_FDR_LATCH_LATCH : Fld := ⟨0x70400, 0x100, 0x0, 0, 0⟩
/-- latched energy. (05) -/
def R.MSR_FDR_E_n_LO : RegD := { off := 0x70410, str := 0x100, cnt := 4, str2 := 0x8, cnt2 := 16, fields := [⟨31, 0, .ro, 0x0⟩] }
def F.MSR_FDR_E_n_LO_ENERGY : Fld := ⟨0x70410, 0x100, 0x8, 31, 0⟩
/-- latched energy. (05) -/
def R.MSR_FDR_E_n_HI : RegD := { off := 0x70414, str := 0x100, cnt := 4, str2 := 0x8, cnt2 := 16, fields := [⟨31, 0, .ro, 0x0⟩] }
def F.MSR_FDR_E_n_HI_ENERGY : Fld := ⟨0x70414, 0x100, 0x8, 31, 0⟩
/-- excluded samples. (05) -/
def R.MSR_FDR_INVALID : RegD := { off := 0x70490, str := 0x100, cnt := 4, fields := [⟨31, 0, .ro, 0x0⟩] }
def F.MSR_FDR_INVALID_COUNT : Fld := ⟨0x70490, 0x100, 0x0, 31, 0⟩
/-- interval flags since last clear. (05) -/
def R.MSR_FDR_FLAGS : RegD := { off := 0x70494, str := 0x100, cnt := 4, fields := [⟨2, 2, .w1c, 0x0⟩, ⟨1, 1, .w1c, 0x0⟩, ⟨0, 0, .w1c, 0x0⟩] }
def F.MSR_FDR_FLAGS_TIME_UNTRUSTED : Fld := ⟨0x70494, 0x100, 0x0, 2, 2⟩
def F.MSR_FDR_FLAGS_SATURATED : Fld := ⟨0x70494, 0x100, 0x0, 1, 1⟩
def F.MSR_FDR_FLAGS_INCOMPLETE : Fld := ⟨0x70494, 0x100, 0x0, 0, 0⟩
/-- channel state. (05) -/
def R.MSR_CH_STATUS : RegD := { off := 0x71000, str := 0x100, cnt := 32, fields := [⟨4, 4, .ro, 0x0⟩, ⟨3, 3, .ro, 0x0⟩, ⟨2, 2, .ro, 0x0⟩, ⟨1, 1, .ro, 0x0⟩, ⟨0, 0, .ro, 0x0⟩] }
def F.MSR_CH_STATUS_ENABLED : Fld := ⟨0x71000, 0x100, 0x0, 4, 4⟩
def F.MSR_CH_STATUS_CLAMPED : Fld := ⟨0x71000, 0x100, 0x0, 3, 3⟩
def F.MSR_CH_STATUS_SLEWING : Fld := ⟨0x71000, 0x100, 0x0, 2, 2⟩
def F.MSR_CH_STATUS_MODULE_OK : Fld := ⟨0x71000, 0x100, 0x0, 1, 1⟩
def F.MSR_CH_STATUS_VALID : Fld := ⟨0x71000, 0x100, 0x0, 0, 0⟩
/-- saturation flags. Set wins as R9 states. (05) -/
def R.MSR_CH_SAT : RegD := { off := 0x71004, str := 0x100, cnt := 32, fields := [⟨4, 0, .w1c, 0x0⟩] }
def F.MSR_CH_SAT_STAGE : Fld := ⟨0x71004, 0x100, 0x0, 4, 0⟩
/-- applied gain correction. (05) -/
def R.MSR_CH_GAIN : RegD := { off := 0x71008, str := 0x100, cnt := 32, fields := [⟨31, 0, .ro, 0x0⟩] }
def F.MSR_CH_GAIN_G : Fld := ⟨0x71008, 0x100, 0x0, 31, 0⟩
/-- applied delay. (05) -/
def R.MSR_CH_PHASE : RegD := { off := 0x7100C, str := 0x100, cnt := 32, fields := [⟨17, 0, .ro, 0x8000⟩] }
def F.MSR_CH_PHASE_STEPS : Fld := ⟨0x7100C, 0x100, 0x0, 17, 0⟩
/-- host trims. (05) -/
def R.MSR_CH_TRIM : RegD := { off := 0x71010, str := 0x100, cnt := 32, fields := [⟨31, 16, .rw, 0x0⟩, ⟨15, 0, .rw, 0x0⟩] }
def F.MSR_CH_TRIM_PHASE_TRIM : Fld := ⟨0x71010, 0x100, 0x0, 31, 16⟩
def F.MSR_CH_TRIM_GAIN_TRIM : Fld := ⟨0x71010, 0x100, 0x0, 15, 0⟩
/-- last output sample. (05) -/
def R.MSR_CH_SAMPLE : RegD := { off := 0x71014, str := 0x100, cnt := 32, fields := [⟨31, 0, .ro, 0x0⟩] }
def F.MSR_CH_SAMPLE_SAMPLE : Fld := ⟨0x71014, 0x100, 0x0, 31, 0⟩
/-- RMS over the last PTP second. (05) -/
def R.MSR_CH_RMS : RegD := { off := 0x71018, str := 0x100, cnt := 32, fields := [⟨31, 0, .ro, 0x0⟩] }
def F.MSR_CH_RMS_RMS : Fld := ⟨0x71018, 0x100, 0x0, 31, 0⟩
/-- invalid sample count. (05) -/
def R.MSR_CH_INVALID : RegD := { off := 0x7101C, str := 0x100, cnt := 32, fields := [⟨31, 0, .ro, 0x0⟩] }
def F.MSR_CH_INVALID_COUNT : Fld := ⟨0x7101C, 0x100, 0x0, 31, 0⟩
/-- ingest controls. (06) -/
def R.ING_CTRL : RegD := { off := 0x40000, fields := [⟨2, 2, .w1s, 0x0⟩, ⟨1, 1, .rw, 0x1⟩, ⟨0, 0, .rw, 0x0⟩] }
def F.ING_CTRL_CNT_CLEAR : Fld := ⟨0x40000, 0x0, 0x0, 2, 2⟩
def F.ING_CTRL_REJECT_RECORDS : Fld := ⟨0x40000, 0x0, 0x0, 1, 1⟩
def F.ING_CTRL_HOLD : Fld := ⟨0x40000, 0x0, 0x0, 0, 0⟩
/-- pipeline state. (06) -/
def R.ING_STATUS : RegD := { off := 0x40004, fields := [⟨27, 16, .ro, 0x0⟩, ⟨12, 8, .ro, 0x0⟩, ⟨0, 0, .ro, 0x0⟩] }
def F.ING_STATUS_STAGING_USED : Fld := ⟨0x40004, 0x0, 0x0, 27, 16⟩
def F.ING_STATUS_ENGINES_BUSY : Fld := ⟨0x40004, 0x0, 0x0, 12, 8⟩
def F.ING_STATUS_PAIRED_COMMIT : Fld := ⟨0x40004, 0x0, 0x0, 0, 0⟩
/-- ingest waits. (06) -/
def R.ING_TIMEOUT : RegD := { off := 0x40008, fields := [⟨31, 16, .rw, 0x14⟩, ⟨15, 0, .rw, 0xA⟩] }
def F.ING_TIMEOUT_MIRROR_WAIT : Fld := ⟨0x40008, 0x0, 0x0, 31, 16⟩
def F.ING_TIMEOUT_REASSEMBLY : Fld := ⟨0x40008, 0x0, 0x0, 15, 0⟩
/-- timestamp sanity terms. (06) -/
def R.ING_TS : RegD := { off := 0x4000C, fields := [⟨31, 16, .rw, 0x12C⟩, ⟨15, 0, .rw, 0x3E8⟩] }
def F.ING_TS_WIDE : Fld := ⟨0x4000C, 0x0, 0x0, 31, 16⟩
def F.ING_TS_SLACK : Fld := ⟨0x4000C, 0x0, 0x0, 15, 0⟩
/-- record keys and storm tagging. (06) -/
def R.ING_RECORD : RegD := { off := 0x40010, fields := [⟨16, 16, .rw, 0x0⟩, ⟨12, 8, .rwl, 0x0⟩, ⟨4, 0, .rwl, 0x1⟩] }
def F.ING_RECORD_STORM_GMAC : Fld := ⟨0x40010, 0x0, 0x0, 16, 16⟩
def F.ING_RECORD_SIGN_SLOT : Fld := ⟨0x40010, 0x0, 0x0, 12, 8⟩
def F.ING_RECORD_TAG_SLOT : Fld := ⟨0x40010, 0x0, 0x0, 4, 0⟩
/-- last rejection. (06) -/
def R.ING_LAST_REJECT : RegD := { off := 0x40014, fields := [⟨31, 24, .ro, 0x0⟩, ⟨19, 0, .ro, 0x0⟩] }
def F.ING_LAST_REJECT_CODE : Fld := ⟨0x40014, 0x0, 0x0, 31, 24⟩
def F.ING_LAST_REJECT_METER : Fld := ⟨0x40014, 0x0, 0x0, 19, 0⟩
/-- ingest events. Set wins as R9 states. (06) -/
def R.ING_INT_STATUS : RegD := { off := 0x40040, fields := [⟨9, 9, .w1c, 0x0⟩, ⟨8, 8, .w1c, 0x0⟩, ⟨7, 7, .w1c, 0x0⟩, ⟨6, 6, .w1c, 0x0⟩, ⟨5, 5, .w1c, 0x0⟩, ⟨4, 4, .w1c, 0x0⟩, ⟨3, 3, .w1c, 0x0⟩, ⟨2, 2, .w1c, 0x0⟩, ⟨1, 1, .w1c, 0x0⟩, ⟨0, 0, .w1c, 0x0⟩] }
def F.ING_INT_STATUS_KEY_COMMITTED : Fld := ⟨0x40040, 0x0, 0x0, 9, 9⟩
def F.ING_INT_STATUS_UNSIGNED : Fld := ⟨0x40040, 0x0, 0x0, 8, 8⟩
def F.ING_INT_STATUS_REASSEMBLY_DISCARD : Fld := ⟨0x40040, 0x0, 0x0, 7, 7⟩
def F.ING_INT_STATUS_MIRROR_LOST : Fld := ⟨0x40040, 0x0, 0x0, 6, 6⟩
def F.ING_INT_STATUS_STAGING_FULL : Fld := ⟨0x40040, 0x0, 0x0, 5, 5⟩
def F.ING_INT_STATUS_REJECTED : Fld := ⟨0x40040, 0x0, 0x0, 4, 4⟩
def F.ING_INT_STATUS_UNKNOWN_METER : Fld := ⟨0x40040, 0x0, 0x0, 3, 3⟩
def F.ING_INT_STATUS_AUTH_FAIL : Fld := ⟨0x40040, 0x0, 0x0, 2, 2⟩
def F.ING_INT_STATUS_COUNTER_REUSE : Fld := ⟨0x40040, 0x0, 0x0, 1, 1⟩
def F.ING_INT_STATUS_REPLAY : Fld := ⟨0x40040, 0x0, 0x0, 0, 0⟩
/-- interrupt enables. (06) -/
def R.ING_INT_ENABLE : RegD := { off := 0x40044, fields := [⟨9, 0, .rw, 0x0⟩] }
def F.ING_INT_ENABLE_ENABLE : Fld := ⟨0x40044, 0x0, 0x0, 9, 0⟩
/-- ingest counters. (06) -/
def R.ING_CNT_n : RegD := { off := 0x40100, str := 0x4, cnt := 17, fields := [⟨31, 0, .ro, 0x0⟩] }
def F.ING_CNT_n_COUNT : Fld := ⟨0x40100, 0x4, 0x0, 31, 0⟩
/-- counter control. (07) -/
def R.CTX_CTRL : RegD := { off := 0x30000, fields := [⟨1, 1, .w1s, 0x0⟩, ⟨0, 0, .w1s, 0x0⟩] }
def F.CTX_CTRL_ARB_CLEAR : Fld := ⟨0x30000, 0x0, 0x0, 1, 1⟩
def F.CTX_CTRL_CNT_CLEAR : Fld := ⟨0x30000, 0x0, 0x0, 0, 0⟩
/-- allocated contexts. (07) -/
def R.CTX_STATUS : RegD := { off := 0x30004, fields := [⟨20, 0, .ro, 0x0⟩] }
def F.CTX_STATUS_ALLOCATED : Fld := ⟨0x30004, 0x0, 0x0, 20, 0⟩
/-- context cache occupancy. (07) -/
def R.CTX_CACHE : RegD := { off := 0x30008, fields := [⟨16, 0, .ro, 0x0⟩] }
def F.CTX_CACHE_RESIDENT : Fld := ⟨0x30008, 0x0, 0x0, 16, 0⟩
/-- host-pinned contexts. (07) -/
def R.CTX_PINNED : RegD := { off := 0x3000C, fields := [⟨16, 0, .ro, 0x0⟩] }
def F.CTX_PINNED_PINNED : Fld := ⟨0x3000C, 0x0, 0x0, 16, 0⟩
/-- key cache occupancy. (07) -/
def R.CTX_KEYS : RegD := { off := 0x30010, fields := [⟨16, 0, .ro, 0x0⟩] }
def F.CTX_KEYS_RESIDENT : Fld := ⟨0x30010, 0x0, 0x0, 16, 0⟩
/-- context commands. (07) -/
def R.CTX_CMD : RegD := { off := 0x30020, fields := [⟨31, 31, .ro, 0x0⟩, ⟨30, 27, .ro, 0x0⟩, ⟨23, 20, .wo, 0x0⟩, ⟨19, 0, .wo, 0x0⟩] }
def F.CTX_CMD_BUSY : Fld := ⟨0x30020, 0x0, 0x0, 31, 31⟩
def F.CTX_CMD_RESULT : Fld := ⟨0x30020, 0x0, 0x0, 30, 27⟩
def F.CTX_CMD_OPCODE : Fld := ⟨0x30020, 0x0, 0x0, 23, 20⟩
def F.CTX_CMD_INDEX : Fld := ⟨0x30020, 0x0, 0x0, 19, 0⟩
/-- index of the last allocation. (07) -/
def R.CTX_RESULT_INDEX : RegD := { off := 0x30024, fields := [⟨19, 0, .ro, 0x0⟩] }
def F.CTX_RESULT_INDEX_INDEX : Fld := ⟨0x30024, 0x0, 0x0, 19, 0⟩
/-- address for ALLOC and ALLOC_AT. (07) -/
def R.CTX_ADDR_LO : RegD := { off := 0x30028, fields := [⟨31, 0, .rw, 0x0⟩] }
def F.CTX_ADDR_LO_ADDRESS : Fld := ⟨0x30028, 0x0, 0x0, 31, 0⟩
/-- address for ALLOC and ALLOC_AT. (07) -/
def R.CTX_ADDR_HI : RegD := { off := 0x3002C, fields := [⟨31, 0, .rw, 0x0⟩] }
def F.CTX_ADDR_HI_ADDRESS : Fld := ⟨0x3002C, 0x0, 0x0, 31, 0⟩
/-- allocation operands. (07) -/
def R.CTX_ALLOC_CFG : RegD := { off := 0x30030, fields := [⟨16, 16, .rw, 0x0⟩, ⟨15, 8, .rw, 0xFF⟩, ⟨5, 0, .rw, 0x0⟩] }
def F.CTX_ALLOC_CFG_KIND : Fld := ⟨0x30030, 0x0, 0x0, 16, 16⟩
def F.CTX_ALLOC_CFG_CALENDAR : Fld := ⟨0x30030, 0x0, 0x0, 15, 8⟩
def F.CTX_ALLOC_CFG_CLASS : Fld := ⟨0x30030, 0x0, 0x0, 5, 0⟩
/-- initial marks, under R188. (07) -/
def R.CTX_ALLOC_M : RegD := { off := 0x30034, fields := [⟨31, 0, .rw, 0x0⟩] }
def F.CTX_ALLOC_M_MARK : Fld := ⟨0x30034, 0x0, 0x0, 31, 0⟩
/-- initial marks, under R188. (07) -/
def R.CTX_ALLOC_A : RegD := { off := 0x30038, fields := [⟨31, 0, .rw, 0x0⟩] }
def F.CTX_ALLOC_A_MARK : Fld := ⟨0x30038, 0x0, 0x0, 31, 0⟩
/-- deadlines for ranks 1 and 2. (07) -/
def R.CTX_WAIT_A : RegD := { off := 0x30040, fields := [⟨31, 16, .rw, 0xC8⟩, ⟨15, 0, .rw, 0xC8⟩] }
def F.CTX_WAIT_A_CONTEXT : Fld := ⟨0x30040, 0x0, 0x0, 31, 16⟩
def F.CTX_WAIT_A_KEY : Fld := ⟨0x30040, 0x0, 0x0, 15, 0⟩
/-- deadlines for ranks 3 and 4. (07) -/
def R.CTX_WAIT_B : RegD := { off := 0x30044, fields := [⟨31, 16, .rw, 0x32⟩, ⟨15, 0, .rw, 0x3E8⟩] }
def F.CTX_WAIT_B_LANE : Fld := ⟨0x30044, 0x0, 0x0, 31, 16⟩
def F.CTX_WAIT_B_RING : Fld := ⟨0x30044, 0x0, 0x0, 15, 0⟩
/-- deadline for rank 5. (07) -/
def R.CTX_WAIT_C : RegD := { off := 0x30048, fields := [⟨15, 0, .rw, 0x3E8⟩] }
def F.CTX_WAIT_C_JOURNAL : Fld := ⟨0x30048, 0x0, 0x0, 15, 0⟩
/-- host pin limit. (07) -/
def R.CTX_PIN : RegD := { off := 0x3004C, fields := [⟨16, 0, .rw, 0x4000⟩] }
def F.CTX_PIN_MAX : Fld := ⟨0x3004C, 0x0, 0x0, 16, 0⟩
/-- key epoch. (07) -/
def R.CTX_KEY_AGE : RegD := { off := 0x30050, fields := [⟨23, 16, .ro, 0x0⟩, ⟨15, 0, .rw, 0x3E8⟩] }
def F.CTX_KEY_AGE_EPOCH : Fld := ⟨0x30050, 0x0, 0x0, 23, 16⟩
def F.CTX_KEY_AGE_TICK : Fld := ⟨0x30050, 0x0, 0x0, 15, 0⟩
/-- context and arbiter events. Set wins as R9 states. (07) -/
def R.CTX_INT_STATUS : RegD := { off := 0x30060, fields := [⟨9, 9, .w1c, 0x0⟩, ⟨8, 8, .w1c, 0x0⟩, ⟨7, 7, .w1c, 0x0⟩, ⟨6, 6, .w1c, 0x0⟩, ⟨5, 5, .w1c, 0x0⟩, ⟨4, 4, .w1c, 0x0⟩, ⟨3, 3, .w1c, 0x0⟩, ⟨2, 2, .w1c, 0x0⟩, ⟨1, 1, .w1c, 0x0⟩, ⟨0, 0, .w1c, 0x0⟩] }
def F.CTX_INT_STATUS_ARB_QUEUE_FULL : Fld := ⟨0x30060, 0x0, 0x0, 9, 9⟩
def F.CTX_INT_STATUS_ARB_STARVED : Fld := ⟨0x30060, 0x0, 0x0, 8, 8⟩
def F.CTX_INT_STATUS_JOURNAL_STALL : Fld := ⟨0x30060, 0x0, 0x0, 7, 7⟩
def F.CTX_INT_STATUS_RING_STALL : Fld := ⟨0x30060, 0x0, 0x0, 6, 6⟩
def F.CTX_INT_STATUS_KEY_SET_FULL : Fld := ⟨0x30060, 0x0, 0x0, 5, 5⟩
def F.CTX_INT_STATUS_SET_FULL : Fld := ⟨0x30060, 0x0, 0x0, 4, 4⟩
def F.CTX_INT_STATUS_TABLE_FULL : Fld := ⟨0x30060, 0x0, 0x0, 3, 3⟩
def F.CTX_INT_STATUS_WAIT_TIMEOUT : Fld := ⟨0x30060, 0x0, 0x0, 2, 2⟩
def F.CTX_INT_STATUS_ORDER_FAULT : Fld := ⟨0x30060, 0x0, 0x0, 1, 1⟩
def F.CTX_INT_STATUS_CMD_DONE : Fld := ⟨0x30060, 0x0, 0x0, 0, 0⟩
/-- interrupt enables. (07) -/
def R.CTX_INT_ENABLE : RegD := { off := 0x30064, fields := [⟨9, 0, .rw, 0x0⟩] }
def F.CTX_INT_ENABLE_ENABLE : Fld := ⟨0x30064, 0x0, 0x0, 9, 0⟩
/-- context counters. (07) -/
def R.CTX_CNT_n : RegD := { off := 0x30100, str := 0x4, cnt := 12, fields := [⟨31, 0, .ro, 0x0⟩] }
def F.CTX_CNT_n_COUNT : Fld := ⟨0x30100, 0x4, 0x0, 31, 0⟩
/-- grants to port rank p + 1. (07) -/
def R.CTX_ARB_GRANT_p : RegD := { off := 0x30200, str := 0x8, cnt := 8, fields := [⟨31, 0, .ro, 0x0⟩] }
def F.CTX_ARB_GRANT_p_COUNT : Fld := ⟨0x30200, 0x8, 0x0, 31, 0⟩
/-- longest wait at port rank p + 1. (07) -/
def R.CTX_ARB_MAXWAIT_p : RegD := { off := 0x30204, str := 0x8, cnt := 8, fields := [⟨31, 0, .ro, 0x0⟩] }
def F.CTX_ARB_MAXWAIT_p_WAIT : Fld := ⟨0x30204, 0x8, 0x0, 31, 0⟩
/-- counter control. (08) -/
def R.BIL_CTRL : RegD := { off := 0x80000, fields := [⟨0, 0, .w1s, 0x0⟩] }
def F.BIL_CTRL_CNT_CLEAR : Fld := ⟨0x80000, 0x0, 0x0, 0, 0⟩
/-- billing state. (08) -/
def R.BIL_STATUS : RegD := { off := 0x80004, fields := [⟨24, 16, .ro, 0x0⟩, ⟨0, 0, .ro, 0x0⟩] }
def F.BIL_STATUS_SWEEPS : Fld := ⟨0x80004, 0x0, 0x0, 24, 16⟩
def F.BIL_STATUS_SUPERSEDED : Fld := ⟨0x80004, 0x0, 0x0, 0, 0⟩
/-- closure grace. (08) -/
def R.BIL_CLOSE : RegD := { off := 0x80008, fields := [⟨16, 0, .rw, 0x384⟩] }
def F.BIL_CLOSE_GRACE : Fld := ⟨0x80008, 0x0, 0x0, 16, 0⟩
/-- history depth. (08) -/
def R.BIL_HISTORY : RegD := { off := 0x8000C, fields := [⟨5, 0, .rwl, 0xD⟩] }
def F.BIL_HISTORY_DEPTH : Fld := ⟨0x8000C, 0x0, 0x0, 5, 0⟩
/-- mismatch tolerance (R226). (08) -/
def R.BIL_TOL : RegD := { off := 0x80010, fields := [⟨31, 16, .rw, 0x1F4⟩, ⟨15, 0, .rw, 0xA⟩] }
def F.BIL_TOL_PPM : Fld := ⟨0x80010, 0x0, 0x0, 31, 16⟩
def F.BIL_TOL_ABS : Fld := ⟨0x80010, 0x0, 0x0, 15, 0⟩
/-- outage event codes (R225). (08) -/
def R.BIL_OUTAGE : RegD := { off := 0x80014, fields := [⟨25, 16, .rwl, 0x0⟩, ⟨9, 0, .rwl, 0x0⟩] }
def F.BIL_OUTAGE_UP_CODE : Fld := ⟨0x80014, 0x0, 0x0, 25, 16⟩
def F.BIL_OUTAGE_DOWN_CODE : Fld := ⟨0x80014, 0x0, 0x0, 9, 0⟩
/-- instance shown. (08) -/
def R.BIL_CAL_SEL : RegD := { off := 0x80020, fields := [⟨7, 0, .rw, 0x0⟩] }
def F.BIL_CAL_SEL_INSTANCE : Fld := ⟨0x80020, 0x0, 0x0, 7, 0⟩
/-- selected instance now. (08) -/
def R.BIL_CAL_STATE : RegD := { off := 0x80024, fields := [⟨31, 31, .ro, 0x0⟩, ⟨30, 30, .ro, 0x0⟩, ⟨23, 20, .ro, 0x0⟩, ⟨19, 16, .ro, 0x0⟩, ⟨15, 11, .ro, 0x0⟩, ⟨10, 8, .ro, 0x0⟩] }
def F.BIL_CAL_STATE_VALID : Fld := ⟨0x80024, 0x0, 0x0, 31, 31⟩
def F.BIL_CAL_STATE_SUMMER : Fld := ⟨0x80024, 0x0, 0x0, 30, 30⟩
def F.BIL_CAL_STATE_SEASON : Fld := ⟨0x80024, 0x0, 0x0, 23, 20⟩
def F.BIL_CAL_STATE_WEEK : Fld := ⟨0x80024, 0x0, 0x0, 19, 16⟩
def F.BIL_CAL_STATE_DAY : Fld := ⟨0x80024, 0x0, 0x0, 15, 11⟩
def F.BIL_CAL_STATE_TARIFF : Fld := ⟨0x80024, 0x0, 0x0, 10, 8⟩
/-- next tariff switch of the selected instance. (08) -/
def R.BIL_CAL_NEXT_LO : RegD := { off := 0x80028, fields := [⟨31, 0, .ro, 0x0⟩] }
def F.BIL_CAL_NEXT_LO_SECONDS : Fld := ⟨0x80028, 0x0, 0x0, 31, 0⟩
/-- next tariff switch of the selected instance. (08) -/
def R.BIL_CAL_NEXT_HI : RegD := { off := 0x8002C, fields := [⟨15, 0, .ro, 0x0⟩] }
def F.BIL_CAL_NEXT_HI_SECONDS : Fld := ⟨0x8002C, 0x0, 0x0, 15, 0⟩
/-- periods closed. (08) -/
def R.BIL_CAL_CLOSED : RegD := { off := 0x80030, fields := [⟨31, 0, .ro, 0x0⟩] }
def F.BIL_CAL_CLOSED_COUNT : Fld := ⟨0x80030, 0x0, 0x0, 31, 0⟩
/-- last closed boundary. (08) -/
def R.BIL_CAL_CLOSED_AT_LO : RegD := { off := 0x80034, fields := [⟨31, 0, .ro, 0x0⟩] }
def F.BIL_CAL_CLOSED_AT_LO_SECONDS : Fld := ⟨0x80034, 0x0, 0x0, 31, 0⟩
/-- last closed boundary. (08) -/
def R.BIL_CAL_CLOSED_AT_HI : RegD := { off := 0x80038, fields := [⟨15, 0, .ro, 0x0⟩] }
def F.BIL_CAL_CLOSED_AT_HI_SECONDS : Fld := ⟨0x80038, 0x0, 0x0, 15, 0⟩
/-- sweep progress. (08) -/
def R.BIL_CAL_SWEEP : RegD := { off := 0x8003C, fields := [⟨20, 0, .ro, 0x0⟩] }
def F.BIL_CAL_SWEEP_LEFT : Fld := ⟨0x8003C, 0x0, 0x0, 20, 0⟩
/-- billing events. Set wins as R9 states. (08) -/
def R.BIL_INT_STATUS : RegD := { off := 0x80040, fields := [⟨5, 5, .w1c, 0x0⟩, ⟨4, 4, .w1c, 0x0⟩, ⟨3, 3, .w1c, 0x0⟩, ⟨2, 2, .w1c, 0x0⟩, ⟨1, 1, .w1c, 0x0⟩, ⟨0, 0, .w1c, 0x0⟩] }
def F.BIL_INT_STATUS_OV_DENIED : Fld := ⟨0x80040, 0x0, 0x0, 5, 5⟩
def F.BIL_INT_STATUS_SPAN_LIMIT : Fld := ⟨0x80040, 0x0, 0x0, 4, 4⟩
def F.BIL_INT_STATUS_LATE : Fld := ⟨0x80040, 0x0, 0x0, 3, 3⟩
def F.BIL_INT_STATUS_MISMATCH : Fld := ⟨0x80040, 0x0, 0x0, 2, 2⟩
def F.BIL_INT_STATUS_CLOCK_BACK : Fld := ⟨0x80040, 0x0, 0x0, 1, 1⟩
def F.BIL_INT_STATUS_PERIOD_CLOSED : Fld := ⟨0x80040, 0x0, 0x0, 0, 0⟩
/-- interrupt enables. (08) -/
def R.BIL_INT_ENABLE : RegD := { off := 0x80044, fields := [⟨5, 0, .rw, 0x0⟩] }
def F.BIL_INT_ENABLE_ENABLE : Fld := ⟨0x80044, 0x0, 0x0, 5, 0⟩
/-- billing counters. (08) -/
def R.BIL_CNT_n : RegD := { off := 0x80100, str := 0x4, cnt := 12, fields := [⟨31, 0, .ro, 0x0⟩] }
def F.BIL_CNT_n_COUNT : Fld := ⟨0x80100, 0x4, 0x0, 31, 0⟩
/-- balance controls. (09) -/
def R.BAL_CTRL : RegD := { off := 0x90000, fields := [⟨23, 16, .rw, 0x5⟩, ⟨9, 8, .rw, 0x1⟩, ⟨6, 4, .rwl, 0x2⟩, ⟨1, 1, .w1s, 0x0⟩, ⟨0, 0, .w1s, 0x0⟩] }
def F.BAL_CTRL_EST_PCT : Fld := ⟨0x90000, 0x0, 0x0, 23, 16⟩
def F.BAL_CTRL_SETTLE : Fld := ⟨0x90000, 0x0, 0x0, 9, 8⟩
def F.BAL_CTRL_INTERVAL : Fld := ⟨0x90000, 0x0, 0x0, 6, 4⟩
def F.BAL_CTRL_RESTART : Fld := ⟨0x90000, 0x0, 0x0, 1, 1⟩
def F.BAL_CTRL_CNT_CLEAR : Fld := ⟨0x90000, 0x0, 0x0, 0, 0⟩
/-- engine state. (09) -/
def R.BAL_STATUS : RegD := { off := 0x90004, fields := [⟨31, 31, .ro, 0x0⟩, ⟨30, 30, .ro, 0x0⟩, ⟨16, 0, .ro, 0x0⟩] }
def F.BAL_STATUS_REBUILDING : Fld := ⟨0x90004, 0x0, 0x0, 31, 31⟩
def F.BAL_STATUS_EVAL_BUSY : Fld := ⟨0x90004, 0x0, 0x0, 30, 30⟩
def F.BAL_STATUS_ZONES : Fld := ⟨0x90004, 0x0, 0x0, 16, 0⟩
/-- last evaluated interval. (09) -/
def R.BAL_LAST_B_LO : RegD := { off := 0x90008, fields := [⟨31, 0, .ro, 0x0⟩] }
def F.BAL_LAST_B_LO_INDEX : Fld := ⟨0x90008, 0x0, 0x0, 31, 0⟩
/-- last evaluated interval. (09) -/
def R.BAL_LAST_B_HI : RegD := { off := 0x9000C, fields := [⟨31, 0, .ro, 0x0⟩] }
def F.BAL_LAST_B_HI_INDEX : Fld := ⟨0x9000C, 0x0, 0x0, 31, 0⟩
/-- ranking limits. (09) -/
def R.BAL_RANK_CFG : RegD := { off := 0x90010, fields := [⟨31, 16, .rw, 0x64⟩, ⟨6, 0, .rw, 0x19⟩] }
def F.BAL_RANK_CFG_MIN_SPREAD : Fld := ⟨0x90010, 0x0, 0x0, 31, 16⟩
def F.BAL_RANK_CFG_MIN_FILL : Fld := ⟨0x90010, 0x0, 0x0, 6, 0⟩
/-- zone residual alarm. (09) -/
def R.BAL_ZONE_PPM : RegD := { off := 0x90014, fields := [⟨31, 0, .rw, 0x4E20⟩] }
def F.BAL_ZONE_PPM_PPM : Fld := ⟨0x90014, 0x0, 0x0, 31, 0⟩
/-- neutral imbalance (R254). (09) -/
def R.BAL_NEUTRAL : RegD := { off := 0x90018, fields := [⟨23, 16, .rw, 0x4⟩, ⟨15, 0, .rw, 0x14⟩] }
def F.BAL_NEUTRAL_INTERVALS : Fld := ⟨0x90018, 0x0, 0x0, 23, 16⟩
def F.BAL_NEUTRAL_RESID : Fld := ⟨0x90018, 0x0, 0x0, 15, 0⟩
/-- tamper event codes (R256). (09) -/
def R.BAL_TAMPER_CODE_k : RegD := { off := 0x90020, str := 0x4, cnt := 4, fields := [⟨9, 0, .rwl, 0x0⟩] }
def F.BAL_TAMPER_CODE_k_CODE : Fld := ⟨0x90020, 0x4, 0x0, 9, 0⟩
/-- membership and query commands. (09) -/
def R.BAL_CMD : RegD := { off := 0x90040, fields := [⟨31, 31, .ro, 0x0⟩, ⟨30, 27, .ro, 0x0⟩, ⟨23, 20, .wo, 0x0⟩, ⟨19, 0, .wo, 0x0⟩] }
def F.BAL_CMD_BUSY : Fld := ⟨0x90040, 0x0, 0x0, 31, 31⟩
def F.BAL_CMD_RESULT : Fld := ⟨0x90040, 0x0, 0x0, 30, 27⟩
def F.BAL_CMD_OPCODE : Fld := ⟨0x90040, 0x0, 0x0, 23, 20⟩
def F.BAL_CMD_INDEX : Fld := ⟨0x90040, 0x0, 0x0, 19, 0⟩
/-- operands for ATTACH. (09) -/
def R.BAL_CMD_ZONE : RegD := { off := 0x90044, fields := [⟨17, 17, .rw, 0x0⟩, ⟨16, 16, .rw, 0x0⟩, ⟨15, 0, .rw, 0x0⟩] }
def F.BAL_CMD_ZONE_NO_RANK : Fld := ⟨0x90044, 0x0, 0x0, 17, 17⟩
def F.BAL_CMD_ZONE_GENERATION : Fld := ⟨0x90044, 0x0, 0x0, 16, 16⟩
def F.BAL_CMD_ZONE_ZONE : Fld := ⟨0x90044, 0x0, 0x0, 15, 0⟩
/-- balance events. Set wins as R9 states. (09) -/
def R.BAL_INT_STATUS : RegD := { off := 0x90060, fields := [⟨10, 10, .w1c, 0x0⟩, ⟨9, 9, .w1c, 0x0⟩, ⟨8, 8, .w1c, 0x0⟩, ⟨7, 7, .w1c, 0x0⟩, ⟨6, 6, .w1c, 0x0⟩, ⟨5, 5, .w1c, 0x0⟩, ⟨4, 4, .w1c, 0x0⟩, ⟨3, 3, .w1c, 0x0⟩, ⟨2, 2, .w1c, 0x0⟩, ⟨1, 1, .w1c, 0x0⟩, ⟨0, 0, .w1c, 0x0⟩] }
def F.BAL_INT_STATUS_DETACHED : Fld := ⟨0x90060, 0x0, 0x0, 10, 10⟩
def F.BAL_INT_STATUS_EVAL_OVERRUN : Fld := ⟨0x90060, 0x0, 0x0, 9, 9⟩
def F.BAL_INT_STATUS_CHECK_MISSING : Fld := ⟨0x90060, 0x0, 0x0, 8, 8⟩
def F.BAL_INT_STATUS_TAMPER : Fld := ⟨0x90060, 0x0, 0x0, 7, 7⟩
def F.BAL_INT_STATUS_REVERSE_FLOW : Fld := ⟨0x90060, 0x0, 0x0, 6, 6⟩
def F.BAL_INT_STATUS_NEUTRAL : Fld := ⟨0x90060, 0x0, 0x0, 5, 5⟩
def F.BAL_INT_STATUS_ZONE_NEGATIVE : Fld := ⟨0x90060, 0x0, 0x0, 4, 4⟩
def F.BAL_INT_STATUS_ZONE_LOSS : Fld := ⟨0x90060, 0x0, 0x0, 3, 3⟩
def F.BAL_INT_STATUS_MEMBER_ALARM : Fld := ⟨0x90060, 0x0, 0x0, 2, 2⟩
def F.BAL_INT_STATUS_EVAL_DONE : Fld := ⟨0x90060, 0x0, 0x0, 1, 1⟩
def F.BAL_INT_STATUS_CMD_DONE : Fld := ⟨0x90060, 0x0, 0x0, 0, 0⟩
/-- interrupt enables. (09) -/
def R.BAL_INT_ENABLE : RegD := { off := 0x90064, fields := [⟨10, 0, .rw, 0x0⟩] }
def F.BAL_INT_ENABLE_ENABLE : Fld := ⟨0x90064, 0x0, 0x0, 10, 0⟩
/-- queried zone. (09) -/
def R.BAL_Q_STATUS : RegD := { off := 0x90080, fields := [⟨25, 25, .ro, 0x0⟩, ⟨24, 24, .ro, 0x0⟩, ⟨23, 23, .ro, 0x0⟩, ⟨22, 22, .ro, 0x0⟩, ⟨21, 21, .ro, 0x0⟩, ⟨20, 20, .ro, 0x0⟩, ⟨19, 18, .ro, 0x0⟩, ⟨17, 16, .ro, 0x0⟩, ⟨15, 0, .ro, 0x0⟩] }
def F.BAL_Q_STATUS_TIME_UNTRUSTED : Fld := ⟨0x90080, 0x0, 0x0, 25, 25⟩
def F.BAL_Q_STATUS_NEUTRAL : Fld := ⟨0x90080, 0x0, 0x0, 24, 24⟩
def F.BAL_Q_STATUS_NEGATIVE : Fld := ⟨0x90080, 0x0, 0x0, 23, 23⟩
def F.BAL_Q_STATUS_LOSS : Fld := ⟨0x90080, 0x0, 0x0, 22, 22⟩
def F.BAL_Q_STATUS_EXCLUDED : Fld := ⟨0x90080, 0x0, 0x0, 21, 21⟩
def F.BAL_Q_STATUS_VALID : Fld := ⟨0x90080, 0x0, 0x0, 20, 20⟩
def F.BAL_Q_STATUS_LEVEL : Fld := ⟨0x90080, 0x0, 0x0, 19, 18⟩
def F.BAL_Q_STATUS_KIND : Fld := ⟨0x90080, 0x0, 0x0, 17, 16⟩
def F.BAL_Q_STATUS_ZONE : Fld := ⟨0x90080, 0x0, 0x0, 15, 0⟩
/-- last r and C. (09) -/
def R.BAL_Q_RESID_LO : RegD := { off := 0x90084, fields := [⟨31, 0, .ro, 0x0⟩] }
def F.BAL_Q_RESID_LO_ENERGY : Fld := ⟨0x90084, 0x0, 0x0, 31, 0⟩
/-- last r and C. (09) -/
def R.BAL_Q_RESID_HI : RegD := { off := 0x90088, fields := [⟨31, 0, .ro, 0x0⟩] }
def F.BAL_Q_RESID_HI_ENERGY : Fld := ⟨0x90088, 0x0, 0x0, 31, 0⟩
/-- last r and C. (09) -/
def R.BAL_Q_CHECK_LO : RegD := { off := 0x9008C, fields := [⟨31, 0, .ro, 0x0⟩] }
def F.BAL_Q_CHECK_LO_ENERGY : Fld := ⟨0x9008C, 0x0, 0x0, 31, 0⟩
/-- last r and C. (09) -/
def R.BAL_Q_CHECK_HI : RegD := { off := 0x90090, fields := [⟨31, 0, .ro, 0x0⟩] }
def F.BAL_Q_CHECK_HI_ENERGY : Fld := ⟨0x90090, 0x0, 0x0, 31, 0⟩
/-- last L. (09) -/
def R.BAL_Q_LOSS : RegD := { off := 0x90094, fields := [⟨31, 0, .ro, 0x0⟩] }
def F.BAL_Q_LOSS_LOSS : Fld := ⟨0x90094, 0x0, 0x0, 31, 0⟩
/-- mean residual fraction. (09) -/
def R.BAL_Q_MEAN : RegD := { off := 0x90098, fields := [⟨31, 0, .ro, 0x0⟩] }
def F.BAL_Q_MEAN_PPM : Fld := ⟨0x90098, 0x0, 0x0, 31, 0⟩
/-- population and fill. (09) -/
def R.BAL_Q_MEMBERS : RegD := { off := 0x9009C, fields := [⟨31, 25, .ro, 0x0⟩, ⟨20, 0, .ro, 0x0⟩] }
def F.BAL_Q_MEMBERS_FILL : Fld := ⟨0x9009C, 0x0, 0x0, 31, 25⟩
def F.BAL_Q_MEMBERS_MEMBERS : Fld := ⟨0x9009C, 0x0, 0x0, 20, 0⟩
/-- queried meter. (09) -/
def R.BAL_M_STATE : RegD := { off := 0x900C0, fields := [⟨31, 31, .ro, 0x0⟩, ⟨30, 30, .ro, 0x0⟩, ⟨23, 16, .ro, 0x0⟩, ⟨15, 0, .ro, 0x0⟩] }
def F.BAL_M_STATE_ATTACHED : Fld := ⟨0x900C0, 0x0, 0x0, 31, 31⟩
def F.BAL_M_STATE_CHECK : Fld := ⟨0x900C0, 0x0, 0x0, 30, 30⟩
def F.BAL_M_STATE_FLAGS : Fld := ⟨0x900C0, 0x0, 0x0, 23, 16⟩
def F.BAL_M_STATE_ZONE : Fld := ⟨0x900C0, 0x0, 0x0, 15, 0⟩
/-- queried meter's estimate. (09) -/
def R.BAL_M_U : RegD := { off := 0x900C4, fields := [⟨31, 0, .ro, 0x0⟩] }
def F.BAL_M_U_U : Fld := ⟨0x900C4, 0x0, 0x0, 31, 0⟩
/-- queried meter's estimated intervals. (09) -/
def R.BAL_M_MISSED : RegD := { off := 0x900C8, fields := [⟨15, 0, .ro, 0x0⟩] }
def F.BAL_M_MISSED_MISSED : Fld := ⟨0x900C8, 0x0, 0x0, 15, 0⟩
/-- queried meter's tamper record k. The record occupies four registers: COUNT at +0x0, FIRST_LO at +0x4, LAST_LO at +0x8 and HI
at +0xC. (09) -/
def R.BAL_M_TAMPER_COUNT_k : RegD := { off := 0x900D0, str := 0x10, cnt := 4, fields := [⟨15, 0, .ro, 0x0⟩] }
def F.BAL_M_TAMPER_COUNT_k_VALUE : Fld := ⟨0x900D0, 0x10, 0x0, 15, 0⟩
/-- queried meter's tamper record k. The record occupies four registers: COUNT at +0x0, FIRST_LO at +0x4, LAST_LO at +0x8 and HI
at +0xC. (09) -/
def R.BAL_M_TAMPER_FIRST_LO_k : RegD := { off := 0x900D4, str := 0x10, cnt := 4, fields := [⟨31, 0, .ro, 0x0⟩] }
def F.BAL_M_TAMPER_FIRST_LO_k_VALUE : Fld := ⟨0x900D4, 0x10, 0x0, 31, 0⟩
/-- queried meter's tamper record k. The record occupies four registers: COUNT at +0x0, FIRST_LO at +0x4, LAST_LO at +0x8 and HI
at +0xC. (09) -/
def R.BAL_M_TAMPER_LAST_LO_k : RegD := { off := 0x900D8, str := 0x10, cnt := 4, fields := [⟨31, 0, .ro, 0x0⟩] }
def F.BAL_M_TAMPER_LAST_LO_k_VALUE : Fld := ⟨0x900D8, 0x10, 0x0, 31, 0⟩
/-- queried meter's tamper record k. The record occupies four registers: COUNT at +0x0, FIRST_LO at +0x4, LAST_LO at +0x8 and HI
at +0xC. (09) -/
def R.BAL_M_TAMPER_HI_k : RegD := { off := 0x900DC, str := 0x10, cnt := 4, fields := [⟨31, 0, .ro, 0x0⟩] }
def F.BAL_M_TAMPER_HI_k_VALUE : Fld := ⟨0x900DC, 0x10, 0x0, 31, 0⟩
/-- ranking entry. (09) -/
def R.BAL_RANK_n_METER : RegD := { off := 0x90140, str := 0x8, cnt := 16, fields := [⟨31, 31, .ro, 0x0⟩, ⟨19, 0, .ro, 0x0⟩] }
def F.BAL_RANK_n_METER_VALID : Fld := ⟨0x90140, 0x8, 0x0, 31, 31⟩
def F.BAL_RANK_n_METER_METER : Fld := ⟨0x90140, 0x8, 0x0, 19, 0⟩
/-- ranking estimate. (09) -/
def R.BAL_RANK_n_U : RegD := { off := 0x90144, str := 0x8, cnt := 16, fields := [⟨31, 0, .ro, 0x0⟩] }
def F.BAL_RANK_n_U_U : Fld := ⟨0x90144, 0x8, 0x0, 31, 0⟩
/-- balance counters. (09) -/
def R.BAL_CNT_n : RegD := { off := 0x90200, str := 0x4, cnt := 10, fields := [⟨31, 0, .ro, 0x0⟩] }
def F.BAL_CNT_n_COUNT : Fld := ⟨0x90200, 0x4, 0x0, 31, 0⟩
/-- counter control. (10) -/
def R.DST_CTRL : RegD := { off := 0xA0000, fields := [⟨0, 0, .w1s, 0x0⟩] }
def F.DST_CTRL_CNT_CLEAR : Fld := ⟨0xA0000, 0x0, 0x0, 0, 0⟩
/-- engine state. (10) -/
def R.DST_STATUS : RegD := { off := 0xA0004, fields := [⟨31, 16, .ro, 0x0⟩, ⟨1, 1, .ro, 0x0⟩, ⟨0, 0, .ro, 0x0⟩] }
def F.DST_STATUS_USED : Fld := ⟨0xA0004, 0x0, 0x0, 31, 16⟩
def F.DST_STATUS_KEY_HOLD : Fld := ⟨0xA0004, 0x0, 0x0, 1, 1⟩
def F.DST_STATUS_PAGED : Fld := ⟨0xA0004, 0x0, 0x0, 0, 0⟩
/-- campaign commands. (10) -/
def R.DST_CMD : RegD := { off := 0xA0008, fields := [⟨31, 31, .ro, 0x0⟩, ⟨30, 27, .ro, 0x0⟩, ⟨26, 24, .wo, 0x0⟩, ⟨23, 20, .wo, 0x0⟩, ⟨19, 0, .wo, 0x0⟩] }
def F.DST_CMD_BUSY : Fld := ⟨0xA0008, 0x0, 0x0, 31, 31⟩
def F.DST_CMD_RESULT : Fld := ⟨0xA0008, 0x0, 0x0, 30, 27⟩
def F.DST_CMD_OPCODE : Fld := ⟨0xA0008, 0x0, 0x0, 26, 24⟩
def F.DST_CMD_CAMPAIGN : Fld := ⟨0xA0008, 0x0, 0x0, 23, 20⟩
def F.DST_CMD_INDEX : Fld := ⟨0xA0008, 0x0, 0x0, 19, 0⟩
/-- object address for LOAD. (10) -/
def R.DST_HOST_ADDR_LO : RegD := { off := 0xA0010, fields := [⟨31, 6, .rw, 0x0⟩] }
def F.DST_HOST_ADDR_LO_ADDR : Fld := ⟨0xA0010, 0x0, 0x0, 31, 6⟩
/-- object address for LOAD. (10) -/
def R.DST_HOST_ADDR_HI : RegD := { off := 0xA0014, fields := [⟨31, 0, .rw, 0x0⟩] }
def F.DST_HOST_ADDR_HI_ADDR : Fld := ⟨0xA0014, 0x0, 0x0, 31, 0⟩
/-- object length. (10) -/
def R.DST_HOST_LEN : RegD := { off := 0xA0018, fields := [⟨24, 0, .rw, 0x0⟩] }
def F.DST_HOST_LEN_LENGTH : Fld := ⟨0xA0018, 0x0, 0x0, 24, 0⟩
/-- round timing. (10) -/
def R.DST_TIMING : RegD := { off := 0xA0020, fields := [⟨31, 16, .rw, 0x384⟩, ⟨15, 0, .rw, 0x3C⟩] }
def F.DST_TIMING_COLLECT : Fld := ⟨0xA0020, 0x0, 0x0, 31, 16⟩
def F.DST_TIMING_RENDEZVOUS : Fld := ⟨0xA0020, 0x0, 0x0, 15, 0⟩
/-- campaign expiry. (10) -/
def R.DST_LIMITS : RegD := { off := 0xA0024, fields := [⟨7, 0, .rw, 0x48⟩] }
def F.DST_LIMITS_EXPIRE : Fld := ⟨0xA0024, 0x0, 0x0, 7, 0⟩
/-- campaign events. Set wins as R9 states. (10) -/
def R.DST_INT_STATUS : RegD := { off := 0xA0040, fields := [⟨9, 9, .w1c, 0x0⟩, ⟨8, 8, .w1c, 0x0⟩, ⟨7, 7, .w1c, 0x0⟩, ⟨6, 6, .w1c, 0x0⟩, ⟨5, 5, .w1c, 0x0⟩, ⟨4, 4, .w1c, 0x0⟩, ⟨3, 3, .w1c, 0x0⟩, ⟨2, 2, .w1c, 0x0⟩, ⟨1, 1, .w1c, 0x0⟩, ⟨0, 0, .w1c, 0x0⟩] }
def F.DST_INT_STATUS_KEY_HOLD : Fld := ⟨0xA0040, 0x0, 0x0, 9, 9⟩
def F.DST_INT_STATUS_EXPIRED : Fld := ⟨0xA0040, 0x0, 0x0, 8, 8⟩
def F.DST_INT_STATUS_CLASS_REVERTED : Fld := ⟨0xA0040, 0x0, 0x0, 7, 7⟩
def F.DST_INT_STATUS_METER_FAILED : Fld := ⟨0xA0040, 0x0, 0x0, 6, 6⟩
def F.DST_INT_STATUS_ENDED : Fld := ⟨0xA0040, 0x0, 0x0, 5, 5⟩
def F.DST_INT_STATUS_ACTIVATED : Fld := ⟨0xA0040, 0x0, 0x0, 4, 4⟩
def F.DST_INT_STATUS_ROUND_DONE : Fld := ⟨0xA0040, 0x0, 0x0, 3, 3⟩
def F.DST_INT_STATUS_LOAD_FAILED : Fld := ⟨0xA0040, 0x0, 0x0, 2, 2⟩
def F.DST_INT_STATUS_LOADED : Fld := ⟨0xA0040, 0x0, 0x0, 1, 1⟩
def F.DST_INT_STATUS_CMD_DONE : Fld := ⟨0xA0040, 0x0, 0x0, 0, 0⟩
/-- interrupt enables. (10) -/
def R.DST_INT_ENABLE : RegD := { off := 0xA0044, fields := [⟨9, 0, .rw, 0x0⟩] }
def F.DST_INT_ENABLE_ENABLE : Fld := ⟨0xA0044, 0x0, 0x0, 9, 0⟩
/-- campaign identifier. (10) -/
def R.DST_C_ID : RegD := { off := 0xA0100, str := 0x40, cnt := 16, fields := [⟨31, 0, .rw, 0x0⟩] }
def F.DST_C_ID_ID : Fld := ⟨0xA0100, 0x40, 0x0, 31, 0⟩
/-- campaign configuration, read at LOAD. (10) -/
def R.DST_C_CFG : RegD := { off := 0xA0104, str := 0x40, cnt := 16, fields := [⟨31, 24, .rw, 0x0⟩, ⟨23, 23, .rw, 0x0⟩, ⟨22, 22, .rw, 0x0⟩, ⟨21, 16, .rw, 0x0⟩, ⟨15, 15, .rw, 0x0⟩, ⟨11, 8, .rw, 0x4⟩, ⟨7, 6, .rw, 0x0⟩, ⟨5, 4, .rw, 0x0⟩, ⟨1, 0, .rw, 0x0⟩] }
def F.DST_C_CFG_NEW_CAL : Fld := ⟨0xA0104, 0x40, 0x0, 31, 24⟩
def F.DST_C_CFG_NEW_CAL_EN : Fld := ⟨0xA0104, 0x40, 0x0, 23, 23⟩
def F.DST_C_CFG_NEW_CLASS_EN : Fld := ⟨0xA0104, 0x40, 0x0, 22, 22⟩
def F.DST_C_CFG_NEW_CLASS : Fld := ⟨0xA0104, 0x40, 0x0, 21, 16⟩
def F.DST_C_CFG_LATE_OK : Fld := ⟨0xA0104, 0x40, 0x0, 15, 15⟩
def F.DST_C_CFG_ROUNDS_MAX : Fld := ⟨0xA0104, 0x40, 0x0, 11, 8⟩
def F.DST_C_CFG_ZX_BLOCK : Fld := ⟨0xA0104, 0x40, 0x0, 7, 6⟩
def F.DST_C_CFG_MEDIA : Fld := ⟨0xA0104, 0x40, 0x0, 5, 4⟩
def F.DST_C_CFG_KIND : Fld := ⟨0xA0104, 0x40, 0x0, 1, 0⟩
/-- round 0 and activation instants. (10) -/
def R.DST_C_START_LO : RegD := { off := 0xA0108, str := 0x40, cnt := 16, fields := [⟨31, 0, .rw, 0x0⟩] }
def F.DST_C_START_LO_SECONDS : Fld := ⟨0xA0108, 0x40, 0x0, 31, 0⟩
/-- round 0 and activation instants. (10) -/
def R.DST_C_START_HI : RegD := { off := 0xA010C, str := 0x40, cnt := 16, fields := [⟨15, 0, .rw, 0x0⟩] }
def F.DST_C_START_HI_SECONDS : Fld := ⟨0xA010C, 0x40, 0x0, 15, 0⟩
/-- round 0 and activation instants. (10) -/
def R.DST_C_ACT_LO : RegD := { off := 0xA0110, str := 0x40, cnt := 16, fields := [⟨31, 0, .rw, 0x0⟩] }
def F.DST_C_ACT_LO_SECONDS : Fld := ⟨0xA0110, 0x40, 0x0, 31, 0⟩
/-- round 0 and activation instants. (10) -/
def R.DST_C_ACT_HI : RegD := { off := 0xA0114, str := 0x40, cnt := 16, fields := [⟨15, 0, .rw, 0x0⟩] }
def F.DST_C_ACT_HI_SECONDS : Fld := ⟨0xA0114, 0x40, 0x0, 15, 0⟩
/-- target version. (10) -/
def R.DST_C_VERSION : RegD := { off := 0xA0118, str := 0x40, cnt := 16, fields := [⟨31, 0, .rw, 0x0⟩] }
def F.DST_C_VERSION_VERSION : Fld := ⟨0xA0118, 0x40, 0x0, 31, 0⟩
/-- campaign state. (10) -/
def R.DST_C_STATE : RegD := { off := 0xA011C, str := 0x40, cnt := 16, fields := [⟨28, 8, .ro, 0x0⟩, ⟨7, 3, .ro, 0x0⟩, ⟨2, 0, .ro, 0x0⟩] }
def F.DST_C_STATE_MEMBERS : Fld := ⟨0xA011C, 0x40, 0x0, 28, 8⟩
def F.DST_C_STATE_CAUSE : Fld := ⟨0xA011C, 0x40, 0x0, 7, 3⟩
def F.DST_C_STATE_STATE : Fld := ⟨0xA011C, 0x40, 0x0, 2, 0⟩
/-- expected SHA-256. (10) -/
def R.DST_C_HASH_n : RegD := { off := 0xA0120, str := 0x40, cnt := 16, str2 := 0x4, cnt2 := 8, fields := [⟨31, 0, .rw, 0x0⟩] }
def F.DST_C_HASH_n_WORD : Fld := ⟨0xA0120, 0x40, 0x4, 31, 0⟩
/-- member and round counts. (10) -/
def R.DST_C_COUNT_s : RegD := { off := 0xA0600, str := 0x20, cnt := 16, str2 := 0x4, cnt2 := 8, fields := [⟨20, 0, .ro, 0x0⟩] }
def F.DST_C_COUNT_s_COUNT : Fld := ⟨0xA0600, 0x20, 0x4, 20, 0⟩
/-- campaign counters. (10) -/
def R.DST_CNT_n : RegD := { off := 0xA0800, str := 0x4, cnt := 10, fields := [⟨31, 0, .ro, 0x0⟩] }
def F.DST_CNT_n_COUNT : Fld := ⟨0xA0800, 0x4, 0x0, 31, 0⟩
/-- counter control. (11) -/
def R.KEY_CTRL : RegD := { off := 0xB0000, fields := [⟨0, 0, .w1s, 0x0⟩] }
def F.KEY_CTRL_CNT_CLEAR : Fld := ⟨0xB0000, 0x0, 0x0, 0, 0⟩
/-- key state. (11) -/
def R.KEY_STATUS : RegD := { off := 0xB0004, fields := [⟨31, 30, .ro, 0x0⟩, ⟨29, 29, .ro, 0x0⟩, ⟨28, 28, .ro, 0x0⟩, ⟨27, 27, .ro, 0x0⟩, ⟨26, 26, .ro, 0x0⟩, ⟨25, 25, .ro, 0x0⟩, ⟨24, 20, .ro, 0x0⟩, ⟨19, 16, .ro, 0x0⟩] }
def F.KEY_STATUS_STATE : Fld := ⟨0xB0004, 0x0, 0x0, 31, 30⟩
def F.KEY_STATUS_PROV : Fld := ⟨0xB0004, 0x0, 0x0, 29, 29⟩
def F.KEY_STATUS_ENTROPY_OK : Fld := ⟨0xB0004, 0x0, 0x0, 28, 28⟩
def F.KEY_STATUS_DRBG_RUN : Fld := ⟨0xB0004, 0x0, 0x0, 27, 27⟩
def F.KEY_STATUS_CAND_VALID : Fld := ⟨0xB0004, 0x0, 0x0, 26, 26⟩
def F.KEY_STATUS_CAND_VERIFIED : Fld := ⟨0xB0004, 0x0, 0x0, 25, 25⟩
def F.KEY_STATUS_CAND_SLOT : Fld := ⟨0xB0004, 0x0, 0x0, 24, 20⟩
def F.KEY_STATUS_CAND_KIND : Fld := ⟨0xB0004, 0x0, 0x0, 19, 16⟩
/-- slot presence. (11) -/
def R.KEY_SLOTS : RegD := { off := 0xB0008, fields := [⟨31, 0, .ro, 0x0⟩] }
def F.KEY_SLOTS_PRESENT : Fld := ⟨0xB0008, 0x0, 0x0, 31, 0⟩
/-- key commands. (11) -/
def R.KEY_CMD : RegD := { off := 0xB0010, fields := [⟨31, 31, .ro, 0x0⟩, ⟨30, 26, .ro, 0x0⟩, ⟨24, 20, .wo, 0x0⟩, ⟨19, 0, .wo, 0x0⟩] }
def F.KEY_CMD_BUSY : Fld := ⟨0xB0010, 0x0, 0x0, 31, 31⟩
def F.KEY_CMD_RESULT : Fld := ⟨0xB0010, 0x0, 0x0, 30, 26⟩
def F.KEY_CMD_OPCODE : Fld := ⟨0xB0010, 0x0, 0x0, 24, 20⟩
def F.KEY_CMD_INDEX : Fld := ⟨0xB0010, 0x0, 0x0, 19, 0⟩
/-- command operands. (11) -/
def R.KEY_CMD_ARG : RegD := { off := 0xB0014, fields := [⟨28, 24, .rw, 0x0⟩, ⟨23, 20, .rw, 0x0⟩, ⟨15, 0, .rw, 0x1⟩] }
def F.KEY_CMD_ARG_TARGET : Fld := ⟨0xB0014, 0x0, 0x0, 28, 24⟩
def F.KEY_CMD_ARG_KIND : Fld := ⟨0xB0014, 0x0, 0x0, 23, 20⟩
def F.KEY_CMD_ARG_COUNT : Fld := ⟨0xB0014, 0x0, 0x0, 15, 0⟩
/-- key-encryption keys used by install commands. (11) -/
def R.KEY_KEK : RegD := { off := 0xB0018, fields := [⟨12, 8, .rw, 0x0⟩, ⟨4, 0, .rw, 0x0⟩] }
def F.KEY_KEK_STORE : Fld := ⟨0xB0018, 0x0, 0x0, 12, 8⟩
def F.KEY_KEK_IMPORT : Fld := ⟨0xB0018, 0x0, 0x0, 4, 0⟩
/-- host buffer. (11) -/
def R.KEY_HOST_ADDR_LO : RegD := { off := 0xB0020, fields := [⟨31, 6, .rw, 0x0⟩] }
def F.KEY_HOST_ADDR_LO_ADDR : Fld := ⟨0xB0020, 0x0, 0x0, 31, 6⟩
/-- host buffer. (11) -/
def R.KEY_HOST_ADDR_HI : RegD := { off := 0xB0024, fields := [⟨31, 0, .rw, 0x0⟩] }
def F.KEY_HOST_ADDR_HI_ADDR : Fld := ⟨0xB0024, 0x0, 0x0, 31, 0⟩
/-- expected KCV for ROOT_IMPORT. (11) -/
def R.KEY_KCV : RegD := { off := 0xB0028, fields := [⟨23, 0, .rw, 0x0⟩] }
def F.KEY_KCV_KCV : Fld := ⟨0xB0028, 0x0, 0x0, 23, 0⟩
/-- slot shown. (11) -/
def R.KEY_SLOT_SEL : RegD := { off := 0xB0030, fields := [⟨31, 16, .ro, 0x0⟩, ⟨5, 5, .rw, 0x0⟩, ⟨4, 0, .rw, 0x0⟩] }
def F.KEY_SLOT_SEL_GENERATION : Fld := ⟨0xB0030, 0x0, 0x0, 31, 16⟩
def F.KEY_SLOT_SEL_CAND : Fld := ⟨0xB0030, 0x0, 0x0, 5, 5⟩
def F.KEY_SLOT_SEL_SLOT : Fld := ⟨0xB0030, 0x0, 0x0, 4, 0⟩
/-- selected slot metadata. (11) -/
def R.KEY_SLOT_INFO : RegD := { off := 0xB0034, fields := [⟨31, 28, .ro, 0x0⟩, ⟨23, 0, .ro, 0x0⟩] }
def F.KEY_SLOT_INFO_KIND : Fld := ⟨0xB0034, 0x0, 0x0, 31, 28⟩
def F.KEY_SLOT_INFO_KCV : Fld := ⟨0xB0034, 0x0, 0x0, 23, 0⟩
/-- broadcast root and delivery tries. (11) -/
def R.KEY_BCAST : RegD := { off := 0xB0038, fields := [⟨15, 8, .rw, 0x8⟩, ⟨4, 0, .rw, 0x0⟩] }
def F.KEY_BCAST_TRIES : Fld := ⟨0xB0038, 0x0, 0x0, 15, 8⟩
def F.KEY_BCAST_SLOT : Fld := ⟨0xB0038, 0x0, 0x0, 4, 0⟩
/-- roll instant, read at BCAST_ROLL. (11) -/
def R.KEY_BCAST_AT_LO : RegD := { off := 0xB003C, fields := [⟨31, 0, .rw, 0x0⟩] }
def F.KEY_BCAST_AT_LO_SECONDS : Fld := ⟨0xB003C, 0x0, 0x0, 31, 0⟩
/-- roll instant, read at BCAST_ROLL. (11) -/
def R.KEY_BCAST_AT_HI : RegD := { off := 0xB0040, fields := [⟨15, 0, .rw, 0x0⟩] }
def F.KEY_BCAST_AT_HI_SECONDS : Fld := ⟨0xB0040, 0x0, 0x0, 15, 0⟩
/-- REWRAP progress. (11) -/
def R.KEY_REWRAP : RegD := { off := 0xB0044, fields := [⟨31, 31, .ro, 0x0⟩, ⟨20, 0, .ro, 0x0⟩] }
def F.KEY_REWRAP_RUNNING : Fld := ⟨0xB0044, 0x0, 0x0, 31, 31⟩
def F.KEY_REWRAP_DONE : Fld := ⟨0xB0044, 0x0, 0x0, 20, 0⟩
/-- key events. Set wins as R9 states. (11) -/
def R.KEY_INT_STATUS : RegD := { off := 0xB0060, fields := [⟨11, 11, .w1c, 0x0⟩, ⟨10, 10, .w1c, 0x0⟩, ⟨9, 9, .w1c, 0x0⟩, ⟨8, 8, .w1c, 0x0⟩, ⟨7, 7, .w1c, 0x0⟩, ⟨6, 6, .w1c, 0x0⟩, ⟨5, 5, .w1c, 0x0⟩, ⟨4, 4, .w1c, 0x0⟩, ⟨3, 3, .w1c, 0x0⟩, ⟨2, 2, .w1c, 0x0⟩, ⟨1, 1, .w1c, 0x0⟩, ⟨0, 0, .w1c, 0x0⟩] }
def F.KEY_INT_STATUS_BCAST_ROLLED : Fld := ⟨0xB0060, 0x0, 0x0, 11, 11⟩
def F.KEY_INT_STATUS_PROV_EXPIRED : Fld := ⟨0xB0060, 0x0, 0x0, 10, 10⟩
def F.KEY_INT_STATUS_KEY_CORRUPT : Fld := ⟨0xB0060, 0x0, 0x0, 9, 9⟩
def F.KEY_INT_STATUS_PAIR_MISMATCH : Fld := ⟨0xB0060, 0x0, 0x0, 8, 8⟩
def F.KEY_INT_STATUS_ENTROPY_FAIL : Fld := ⟨0xB0060, 0x0, 0x0, 7, 7⟩
def F.KEY_INT_STATUS_REWRAP_DONE : Fld := ⟨0xB0060, 0x0, 0x0, 6, 6⟩
def F.KEY_INT_STATUS_DELIVERY_FAILED : Fld := ⟨0xB0060, 0x0, 0x0, 5, 5⟩
def F.KEY_INT_STATUS_HEAD_KEY_COMMITTED : Fld := ⟨0xB0060, 0x0, 0x0, 4, 4⟩
def F.KEY_INT_STATUS_METER_KEY_COMMITTED : Fld := ⟨0xB0060, 0x0, 0x0, 3, 3⟩
def F.KEY_INT_STATUS_ROOT_COMMITTED : Fld := ⟨0xB0060, 0x0, 0x0, 2, 2⟩
def F.KEY_INT_STATUS_KEY_ZEROED : Fld := ⟨0xB0060, 0x0, 0x0, 1, 1⟩
def F.KEY_INT_STATUS_CMD_DONE : Fld := ⟨0xB0060, 0x0, 0x0, 0, 0⟩
/-- interrupt enables. (11) -/
def R.KEY_INT_ENABLE : RegD := { off := 0xB0064, fields := [⟨11, 0, .rw, 0x0⟩] }
def F.KEY_INT_ENABLE_ENABLE : Fld := ⟨0xB0064, 0x0, 0x0, 11, 0⟩
/-- public key of the selected SIGN slot or candidate. (11) -/
def R.KEY_PUB_n : RegD := { off := 0xB0100, str := 0x4, cnt := 16, fields := [⟨31, 0, .ro, 0x0⟩] }
def F.KEY_PUB_n_WORD : Fld := ⟨0xB0100, 0x4, 0x0, 31, 0⟩
/-- key counters. (11) -/
def R.KEY_CNT_n : RegD := { off := 0xB0200, str := 0x4, cnt := 13, fields := [⟨31, 0, .ro, 0x0⟩] }
def F.KEY_CNT_n_COUNT : Fld := ⟨0xB0200, 0x4, 0x0, 31, 0⟩
/-- servo owner and 1PPS. (12) -/
def R.TSU_CTRL : RegD := { off := 0xC0000, fields := [⟨4, 4, .w1s, 0x0⟩, ⟨3, 2, .rw, 0x0⟩, ⟨1, 1, .rw, 0x0⟩, ⟨0, 0, .rw, 0x0⟩] }
def F.TSU_CTRL_CNT_CLEAR : Fld := ⟨0xC0000, 0x0, 0x0, 4, 4⟩
def F.TSU_CTRL_PPS_IN_MODE : Fld := ⟨0xC0000, 0x0, 0x0, 3, 2⟩
def F.TSU_CTRL_PPS_OUT_EN : Fld := ⟨0xC0000, 0x0, 0x0, 1, 1⟩
def F.TSU_CTRL_SERVO : Fld := ⟨0xC0000, 0x0, 0x0, 0, 0⟩
/-- servo state. (12) -/
def R.TSU_STATUS : RegD := { off := 0xC0004, fields := [⟨31, 24, .ro, 0xF8⟩, ⟨10, 8, .ro, 0x7⟩, ⟨3, 3, .ro, 0x0⟩, ⟨2, 2, .ro, 0x1⟩, ⟨1, 0, .ro, 0x0⟩] }
def F.TSU_STATUS_CLOCK_CLASS : Fld := ⟨0xC0004, 0x0, 0x0, 31, 24⟩
def F.TSU_STATUS_SLAVE_PORT : Fld := ⟨0xC0004, 0x0, 0x0, 10, 8⟩
def F.TSU_STATUS_TIME_VALID : Fld := ⟨0xC0004, 0x0, 0x0, 3, 3⟩
def F.TSU_STATUS_NEVER_LOCKED : Fld := ⟨0xC0004, 0x0, 0x0, 2, 2⟩
def F.TSU_STATUS_STATE : Fld := ⟨0xC0004, 0x0, 0x0, 1, 0⟩
/-- counter. A read of TSU_TIME_FRAC latches the other three until TSU_TIME_SEC_HI is read. (12) -/
def R.TSU_TIME_FRAC : RegD := { off := 0xC0010, fields := [⟨31, 0, .ro, 0x0⟩] }
def F.TSU_TIME_FRAC_TIME : Fld := ⟨0xC0010, 0x0, 0x0, 31, 0⟩
/-- counter. A read of TSU_TIME_FRAC latches the other three until TSU_TIME_SEC_HI is read. (12) -/
def R.TSU_TIME_NS : RegD := { off := 0xC0014, fields := [⟨31, 0, .ro, 0x0⟩] }
def F.TSU_TIME_NS_TIME : Fld := ⟨0xC0014, 0x0, 0x0, 31, 0⟩
/-- counter. A read of TSU_TIME_FRAC latches the other three until TSU_TIME_SEC_HI is read. (12) -/
def R.TSU_TIME_SEC_LO : RegD := { off := 0xC0018, fields := [⟨31, 0, .ro, 0x0⟩] }
def F.TSU_TIME_SEC_LO_TIME : Fld := ⟨0xC0018, 0x0, 0x0, 31, 0⟩
/-- counter. A read of TSU_TIME_FRAC latches the other three until TSU_TIME_SEC_HI is read. (12) -/
def R.TSU_TIME_SEC_HI : RegD := { off := 0xC001C, fields := [⟨15, 0, .ro, 0x0⟩] }
def F.TSU_TIME_SEC_HI_TIME : Fld := ⟨0xC001C, 0x0, 0x0, 15, 0⟩
/-- increment per CORE_CLK tick (R319). (12) -/
def R.TSU_INCR_INT : RegD := { off := 0xC0020, fields := [⟨3, 0, .rw, 0x0⟩] }
def F.TSU_INCR_INT_INCR : Fld := ⟨0xC0020, 0x0, 0x0, 3, 0⟩
/-- increment per CORE_CLK tick (R319). (12) -/
def R.TSU_INCR_FRAC : RegD := { off := 0xC0024, fields := [⟨31, 0, .rw, 0xD0555555⟩] }
def F.TSU_INCR_FRAC_INCR : Fld := ⟨0xC0024, 0x0, 0x0, 31, 0⟩
/-- adjustment amount. (12) -/
def R.TSU_ADJ_NS : RegD := { off := 0xC0028, fields := [⟨31, 0, .rw, 0x0⟩] }
def F.TSU_ADJ_NS_AMOUNT : Fld := ⟨0xC0028, 0x0, 0x0, 31, 0⟩
/-- adjustment amount. (12) -/
def R.TSU_ADJ_SEC : RegD := { off := 0xC002C, fields := [⟨31, 0, .rw, 0x0⟩] }
def F.TSU_ADJ_SEC_AMOUNT : Fld := ⟨0xC002C, 0x0, 0x0, 31, 0⟩
/-- phase adjustment (R320). (12) -/
def R.TSU_ADJ_CMD : RegD := { off := 0xC0030, fields := [⟨31, 31, .ro, 0x0⟩, ⟨30, 28, .ro, 0x0⟩, ⟨1, 0, .wo, 0x0⟩] }
def F.TSU_ADJ_CMD_BUSY : Fld := ⟨0xC0030, 0x0, 0x0, 31, 31⟩
def F.TSU_ADJ_CMD_RESULT : Fld := ⟨0xC0030, 0x0, 0x0, 30, 28⟩
def F.TSU_ADJ_CMD_OP : Fld := ⟨0xC0030, 0x0, 0x0, 1, 0⟩
/-- servo terms. (12) -/
def R.TSU_SERVO : RegD := { off := 0xC0034, fields := [⟨31, 28, .rw, 0x4⟩, ⟨27, 16, .rw, 0xA⟩, ⟨15, 0, .rw, 0x3E8⟩] }
def F.TSU_SERVO_DELAY_AVG : Fld := ⟨0xC0034, 0x0, 0x0, 31, 28⟩
def F.TSU_SERVO_SLEW_RATE : Fld := ⟨0xC0034, 0x0, 0x0, 27, 16⟩
def F.TSU_SERVO_STEP_THRESH : Fld := ⟨0xC0034, 0x0, 0x0, 15, 0⟩
/-- lock and holdover. (12) -/
def R.TSU_LOCK : RegD := { off := 0xC0038, fields := [⟨31, 16, .rw, 0xE10⟩, ⟨15, 10, .rw, 0x10⟩, ⟨9, 0, .rw, 0x64⟩] }
def F.TSU_LOCK_HOLD_LIMIT : Fld := ⟨0xC0038, 0x0, 0x0, 31, 16⟩
def F.TSU_LOCK_COUNT : Fld := ⟨0xC0038, 0x0, 0x0, 15, 10⟩
def F.TSU_LOCK_THRESH : Fld := ⟨0xC0038, 0x0, 0x0, 9, 0⟩
/-- clock data set. (12) -/
def R.TSU_PTP_CFG : RegD := { off := 0xC0040, fields := [⟨31, 24, .rw, 0x80⟩, ⟨23, 16, .rw, 0x80⟩, ⟨15, 8, .rw, 0x0⟩, ⟨7, 4, .rw, 0x3⟩, ⟨0, 0, .rw, 0x0⟩] }
def F.TSU_PTP_CFG_PRIORITY1 : Fld := ⟨0xC0040, 0x0, 0x0, 31, 24⟩
def F.TSU_PTP_CFG_PRIORITY2 : Fld := ⟨0xC0040, 0x0, 0x0, 23, 16⟩
def F.TSU_PTP_CFG_DOMAIN : Fld := ⟨0xC0040, 0x0, 0x0, 15, 8⟩
def F.TSU_PTP_CFG_ANNOUNCE_TIMEOUT : Fld := ⟨0xC0040, 0x0, 0x0, 7, 4⟩
def F.TSU_PTP_CFG_PROFILE : Fld := ⟨0xC0040, 0x0, 0x0, 0, 0⟩
/-- UTC offset (R334). (12) -/
def R.TSU_UTC : RegD := { off := 0xC0044, fields := [⟨20, 20, .rw, 0x0⟩, ⟨19, 19, .rw, 0x0⟩, ⟨18, 18, .rw, 0x0⟩, ⟨17, 17, .rw, 0x0⟩, ⟨16, 16, .rw, 0x0⟩, ⟨15, 0, .rw, 0x25⟩] }
def F.TSU_UTC_TRACEABLE : Fld := ⟨0xC0044, 0x0, 0x0, 20, 20⟩
def F.TSU_UTC_SOURCE : Fld := ⟨0xC0044, 0x0, 0x0, 19, 19⟩
def F.TSU_UTC_LEAP59 : Fld := ⟨0xC0044, 0x0, 0x0, 18, 18⟩
def F.TSU_UTC_LEAP61 : Fld := ⟨0xC0044, 0x0, 0x0, 17, 17⟩
def F.TSU_UTC_VALID : Fld := ⟨0xC0044, 0x0, 0x0, 16, 16⟩
def F.TSU_UTC_OFFSET : Fld := ⟨0xC0044, 0x0, 0x0, 15, 0⟩
/-- last offset and mean path delay on the slave port. (12) -/
def R.TSU_OFFSET : RegD := { off := 0xC0050, fields := [⟨31, 0, .ro, 0x0⟩] }
def F.TSU_OFFSET_VALUE : Fld := ⟨0xC0050, 0x0, 0x0, 31, 0⟩
/-- last offset and mean path delay on the slave port. (12) -/
def R.TSU_MPD : RegD := { off := 0xC0054, fields := [⟨31, 0, .ro, 0x0⟩] }
def F.TSU_MPD_VALUE : Fld := ⟨0xC0054, 0x0, 0x0, 31, 0⟩
/-- applied frequency correction. (12) -/
def R.TSU_FREQ : RegD := { off := 0xC0058, fields := [⟨31, 0, .ro, 0x0⟩] }
def F.TSU_FREQ_PPB : Fld := ⟨0xC0058, 0x0, 0x0, 31, 0⟩
/-- 1PPS_OUT shape. (12) -/
def R.TSU_PPS_OUT : RegD := { off := 0xC0060, fields := [⟨31, 19, .rw, 0x64⟩, ⟨18, 0, .rw, 0x0⟩] }
def F.TSU_PPS_OUT_WIDTH : Fld := ⟨0xC0060, 0x0, 0x0, 31, 19⟩
def F.TSU_PPS_OUT_OFFSET : Fld := ⟨0xC0060, 0x0, 0x0, 18, 0⟩
/-- last 1PPS_IN stamp. A read of TSU_PPS_IN_NS latches the other two until TSU_PPS_IN_SEC_HI is read. (12) -/
def R.TSU_PPS_IN_NS : RegD := { off := 0xC0064, fields := [⟨31, 0, .ro, 0x0⟩] }
def F.TSU_PPS_IN_NS_TIME : Fld := ⟨0xC0064, 0x0, 0x0, 31, 0⟩
/-- last 1PPS_IN stamp. A read of TSU_PPS_IN_NS latches the other two until TSU_PPS_IN_SEC_HI is read. (12) -/
def R.TSU_PPS_IN_SEC_LO : RegD := { off := 0xC0068, fields := [⟨31, 0, .ro, 0x0⟩] }
def F.TSU_PPS_IN_SEC_LO_TIME : Fld := ⟨0xC0068, 0x0, 0x0, 31, 0⟩
/-- last 1PPS_IN stamp. A read of TSU_PPS_IN_NS latches the other two until TSU_PPS_IN_SEC_HI is read. (12) -/
def R.TSU_PPS_IN_SEC_HI : RegD := { off := 0xC006C, fields := [⟨15, 0, .ro, 0x0⟩] }
def F.TSU_PPS_IN_SEC_HI_TIME : Fld := ⟨0xC006C, 0x0, 0x0, 15, 0⟩
/-- 1PPS_IN path delay. (12) -/
def R.TSU_PPS_IN_COMP : RegD := { off := 0xC0070, fields := [⟨31, 0, .rw, 0x0⟩] }
def F.TSU_PPS_IN_COMP_DELAY : Fld := ⟨0xC0070, 0x0, 0x0, 31, 0⟩
/-- Cloche measurement (R337). (12) -/
def R.TSU_CLO_CMD : RegD := { off := 0xC0080, fields := [⟨31, 31, .ro, 0x0⟩, ⟨30, 30, .ro, 0x0⟩, ⟨11, 10, .rw, 0x0⟩, ⟨9, 9, .rw, 0x0⟩, ⟨8, 8, .w1s, 0x0⟩, ⟨4, 0, .rw, 0x14⟩] }
def F.TSU_CLO_CMD_BUSY : Fld := ⟨0xC0080, 0x0, 0x0, 31, 31⟩
def F.TSU_CLO_CMD_UNTRUSTED : Fld := ⟨0xC0080, 0x0, 0x0, 30, 30⟩
def F.TSU_CLO_CMD_FEEDER : Fld := ⟨0xC0080, 0x0, 0x0, 11, 10⟩
def F.TSU_CLO_CMD_SOURCE : Fld := ⟨0xC0080, 0x0, 0x0, 9, 9⟩
def F.TSU_CLO_CMD_START : Fld := ⟨0xC0080, 0x0, 0x0, 8, 8⟩
def F.TSU_CLO_CMD_GATE : Fld := ⟨0xC0080, 0x0, 0x0, 4, 0⟩
/-- measurement result. (12) -/
def R.TSU_CLO_RESULT_LO : RegD := { off := 0xC0084, fields := [⟨31, 0, .ro, 0x0⟩] }
def F.TSU_CLO_RESULT_LO_ELAPSED : Fld := ⟨0xC0084, 0x0, 0x0, 31, 0⟩
/-- measurement result. (12) -/
def R.TSU_CLO_RESULT_HI : RegD := { off := 0xC0088, fields := [⟨31, 0, .ro, 0x0⟩] }
def F.TSU_CLO_RESULT_HI_ELAPSED : Fld := ⟨0xC0088, 0x0, 0x0, 31, 0⟩
/-- time events. Set wins as R9 states. (12) -/
def R.TSU_INT_STATUS : RegD := { off := 0xC00A0, fields := [⟨9, 9, .w1c, 0x0⟩, ⟨8, 8, .w1c, 0x0⟩, ⟨7, 7, .w1c, 0x0⟩, ⟨6, 6, .w1c, 0x0⟩, ⟨5, 5, .w1c, 0x0⟩, ⟨4, 4, .w1c, 0x0⟩, ⟨3, 3, .w1c, 0x0⟩, ⟨2, 2, .w1c, 0x0⟩, ⟨1, 1, .w1c, 0x0⟩, ⟨0, 0, .w1c, 0x0⟩] }
def F.TSU_INT_STATUS_ADJ_DONE : Fld := ⟨0xC00A0, 0x0, 0x0, 9, 9⟩
def F.TSU_INT_STATUS_INCR_CLAMPED : Fld := ⟨0xC00A0, 0x0, 0x0, 8, 8⟩
def F.TSU_INT_STATUS_MASTER_CHANGE : Fld := ⟨0xC00A0, 0x0, 0x0, 7, 7⟩
def F.TSU_INT_STATUS_CLO_DONE : Fld := ⟨0xC00A0, 0x0, 0x0, 6, 6⟩
def F.TSU_INT_STATUS_PPS_IN_MISSING : Fld := ⟨0xC00A0, 0x0, 0x0, 5, 5⟩
def F.TSU_INT_STATUS_LEAP : Fld := ⟨0xC00A0, 0x0, 0x0, 4, 4⟩
def F.TSU_INT_STATUS_STEPPED : Fld := ⟨0xC00A0, 0x0, 0x0, 3, 3⟩
def F.TSU_INT_STATUS_FREERUN : Fld := ⟨0xC00A0, 0x0, 0x0, 2, 2⟩
def F.TSU_INT_STATUS_HOLDOVER : Fld := ⟨0xC00A0, 0x0, 0x0, 1, 1⟩
def F.TSU_INT_STATUS_LOCKED : Fld := ⟨0xC00A0, 0x0, 0x0, 0, 0⟩
/-- interrupt enables. (12) -/
def R.TSU_INT_ENABLE : RegD := { off := 0xC00A4, fields := [⟨9, 0, .rw, 0x0⟩] }
def F.TSU_INT_ENABLE_ENABLE : Fld := ⟨0xC00A4, 0x0, 0x0, 9, 0⟩
/-- time counters. (12) -/
def R.TSU_CNT_n : RegD := { off := 0xC0100, str := 0x4, cnt := 8, fields := [⟨31, 0, .ro, 0x0⟩] }
def F.TSU_CNT_n_COUNT : Fld := ⟨0xC0100, 0x4, 0x0, 31, 0⟩
/-- port configuration. (12) -/
def R.TSU_Pn_CFG : RegD := { off := 0xC0400, str := 0x40, cnt := 4, fields := [⟨31, 28, .rw, 0x0⟩, ⟨27, 24, .rw, 0x1⟩, ⟨23, 20, .rw, 0x0⟩, ⟨7, 6, .rw, 0x0⟩, ⟨5, 5, .rw, 0x0⟩, ⟨4, 4, .rw, 0x0⟩, ⟨3, 2, .rw, 0x3⟩] }
def F.TSU_Pn_CFG_LOG_SYNC : Fld := ⟨0xC0400, 0x40, 0x0, 31, 28⟩
def F.TSU_Pn_CFG_LOG_ANNOUNCE : Fld := ⟨0xC0400, 0x40, 0x0, 27, 24⟩
def F.TSU_Pn_CFG_LOG_DELAY : Fld := ⟨0xC0400, 0x40, 0x0, 23, 20⟩
def F.TSU_Pn_CFG_TRANSPORT : Fld := ⟨0xC0400, 0x40, 0x0, 7, 6⟩
def F.TSU_Pn_CFG_ONE_STEP : Fld := ⟨0xC0400, 0x40, 0x0, 5, 5⟩
def F.TSU_Pn_CFG_DELAY : Fld := ⟨0xC0400, 0x40, 0x0, 4, 4⟩
def F.TSU_Pn_CFG_ROLE : Fld := ⟨0xC0400, 0x40, 0x0, 3, 2⟩
/-- port corrections (R321 to R323). (12) -/
def R.TSU_Pn_TX_COMP : RegD := { off := 0xC0404, str := 0x40, cnt := 4, fields := [⟨31, 0, .rw, 0x0⟩] }
def F.TSU_Pn_TX_COMP_VALUE : Fld := ⟨0xC0404, 0x40, 0x0, 31, 0⟩
/-- port corrections (R321 to R323). (12) -/
def R.TSU_Pn_RX_COMP : RegD := { off := 0xC0408, str := 0x40, cnt := 4, fields := [⟨31, 0, .rw, 0x0⟩] }
def F.TSU_Pn_RX_COMP_VALUE : Fld := ⟨0xC0408, 0x40, 0x0, 31, 0⟩
/-- port corrections (R321 to R323). (12) -/
def R.TSU_Pn_ASYM : RegD := { off := 0xC040C, str := 0x40, cnt := 4, fields := [⟨31, 0, .rw, 0x0⟩] }
def F.TSU_Pn_ASYM_VALUE : Fld := ⟨0xC040C, 0x40, 0x0, 31, 0⟩
/-- port state. (12) -/
def R.TSU_Pn_STATE : RegD := { off := 0xC0410, str := 0x40, cnt := 4, fields := [⟨3, 0, .ro, 0x1⟩] }
def F.TSU_Pn_STATE_PORT_STATE : Fld := ⟨0xC0410, 0x40, 0x0, 3, 0⟩
/-- peer mean path delay. (12) -/
def R.TSU_Pn_PDELAY : RegD := { off := 0xC0414, str := 0x40, cnt := 4, fields := [⟨31, 0, .ro, 0x0⟩] }
def F.TSU_Pn_PDELAY_DELAY : Fld := ⟨0xC0414, 0x40, 0x0, 31, 0⟩
/-- port configuration (R338). (12) -/
def R.ETH_n_CTRL : RegD := { off := 0x130000, str := 0x1000, cnt := 4, fields := [⟨7, 7, .w1s, 0x0⟩, ⟨4, 4, .rw, 0x0⟩, ⟨3, 3, .rw, 0x0⟩, ⟨2, 1, .rw, 0x0⟩, ⟨0, 0, .rw, 0x0⟩] }
def F.ETH_n_CTRL_CNT_CLEAR : Fld := ⟨0x130000, 0x1000, 0x0, 7, 7⟩
def F.ETH_n_CTRL_LOOPBACK : Fld := ⟨0x130000, 0x1000, 0x0, 4, 4⟩
def F.ETH_n_CTRL_RS_FEC : Fld := ⟨0x130000, 0x1000, 0x0, 3, 3⟩
def F.ETH_n_CTRL_RATE : Fld := ⟨0x130000, 0x1000, 0x0, 2, 1⟩
def F.ETH_n_CTRL_ENABLE : Fld := ⟨0x130000, 0x1000, 0x0, 0, 0⟩
/-- link state. (12) -/
def R.ETH_n_STATUS : RegD := { off := 0x130004, str := 0x1000, cnt := 4, fields := [⟨4, 4, .ro, 0x0⟩, ⟨3, 3, .ro, 0x0⟩, ⟨2, 2, .ro, 0x0⟩, ⟨1, 1, .ro, 0x0⟩, ⟨0, 0, .ro, 0x0⟩] }
def F.ETH_n_STATUS_FEC_ALIGN : Fld := ⟨0x130004, 0x1000, 0x0, 4, 4⟩
def F.ETH_n_STATUS_BLOCK_LOCK : Fld := ⟨0x130004, 0x1000, 0x0, 3, 3⟩
def F.ETH_n_STATUS_LINK_UP : Fld := ⟨0x130004, 0x1000, 0x0, 2, 2⟩
def F.ETH_n_STATUS_REMOTE_FAULT : Fld := ⟨0x130004, 0x1000, 0x0, 1, 1⟩
def F.ETH_n_STATUS_LOCAL_FAULT : Fld := ⟨0x130004, 0x1000, 0x0, 0, 0⟩
/-- station and router MAC addresses (R339, R340). (12) -/
def R.ETH_n_MAC_LO : RegD := { off := 0x130008, str := 0x1000, cnt := 4, fields := [⟨31, 0, .rw, 0x0⟩] }
def F.ETH_n_MAC_LO_ADDRESS : Fld := ⟨0x130008, 0x1000, 0x0, 31, 0⟩
/-- station and router MAC addresses (R339, R340). (12) -/
def R.ETH_n_MAC_HI : RegD := { off := 0x13000C, str := 0x1000, cnt := 4, fields := [⟨15, 0, .rw, 0x0⟩] }
def F.ETH_n_MAC_HI_ADDRESS : Fld := ⟨0x13000C, 0x1000, 0x0, 15, 0⟩
/-- station and router MAC addresses (R339, R340). (12) -/
def R.ETH_n_ROUTER_LO : RegD := { off := 0x130010, str := 0x1000, cnt := 4, fields := [⟨31, 0, .rw, 0x0⟩] }
def F.ETH_n_ROUTER_LO_ADDRESS : Fld := ⟨0x130010, 0x1000, 0x0, 31, 0⟩
/-- station and router MAC addresses (R339, R340). (12) -/
def R.ETH_n_ROUTER_HI : RegD := { off := 0x130014, str := 0x1000, cnt := 4, fields := [⟨15, 0, .rw, 0x0⟩] }
def F.ETH_n_ROUTER_HI_ADDRESS : Fld := ⟨0x130014, 0x1000, 0x0, 15, 0⟩
/-- global IPv6 address. (12) -/
def R.ETH_n_IP6_k : RegD := { off := 0x130020, str := 0x1000, cnt := 4, str2 := 0x4, cnt2 := 4, fields := [⟨31, 0, .rw, 0x0⟩] }
def F.ETH_n_IP6_k_ADDRESS : Fld := ⟨0x130020, 0x1000, 0x4, 31, 0⟩
/-- IPv6 configuration. (12) -/
def R.ETH_n_IP6_CFG : RegD := { off := 0x130030, str := 0x1000, cnt := 4, fields := [⟨8, 8, .rw, 0x0⟩, ⟨7, 0, .rw, 0x40⟩] }
def F.ETH_n_IP6_CFG_VALID : Fld := ⟨0x130030, 0x1000, 0x0, 8, 8⟩
def F.ETH_n_IP6_CFG_PREFIX : Fld := ⟨0x130030, 0x1000, 0x0, 7, 0⟩
/-- IPv4 address for PTP over UDP/IPv4. (12) -/
def R.ETH_n_IP4 : RegD := { off := 0x130034, str := 0x1000, cnt := 4, fields := [⟨31, 0, .rw, 0x0⟩] }
def F.ETH_n_IP4_ADDRESS : Fld := ⟨0x130034, 0x1000, 0x0, 31, 0⟩
/-- port events. Set wins as R9 states. (12) -/
def R.ETH_n_INT_STATUS : RegD := { off := 0x130040, str := 0x1000, cnt := 4, fields := [⟨4, 4, .w1c, 0x0⟩, ⟨3, 3, .w1c, 0x0⟩, ⟨2, 2, .w1c, 0x0⟩, ⟨1, 1, .w1c, 0x0⟩, ⟨0, 0, .w1c, 0x0⟩] }
def F.ETH_n_INT_STATUS_NEIGHBOUR_FAIL : Fld := ⟨0x130040, 0x1000, 0x0, 4, 4⟩
def F.ETH_n_INT_STATUS_OVERSIZE : Fld := ⟨0x130040, 0x1000, 0x0, 3, 3⟩
def F.ETH_n_INT_STATUS_FEC_UNCORRECTED : Fld := ⟨0x130040, 0x1000, 0x0, 2, 2⟩
def F.ETH_n_INT_STATUS_LINK_DOWN : Fld := ⟨0x130040, 0x1000, 0x0, 1, 1⟩
def F.ETH_n_INT_STATUS_LINK_UP : Fld := ⟨0x130040, 0x1000, 0x0, 0, 0⟩
/-- interrupt enables. (12) -/
def R.ETH_n_INT_ENABLE : RegD := { off := 0x130044, str := 0x1000, cnt := 4, fields := [⟨4, 0, .rw, 0x0⟩] }
def F.ETH_n_INT_ENABLE_ENABLE : Fld := ⟨0x130044, 0x1000, 0x0, 4, 0⟩
/-- port counters (R341). (12) -/
def R.ETH_n_CNT_k_LO : RegD := { off := 0x130100, str := 0x1000, cnt := 4, str2 := 0x8, cnt2 := 8, fields := [⟨31, 0, .ro, 0x0⟩] }
def F.ETH_n_CNT_k_LO_COUNT : Fld := ⟨0x130100, 0x1000, 0x8, 31, 0⟩
/-- port counters (R341). (12) -/
def R.ETH_n_CNT_k_HI : RegD := { off := 0x130104, str := 0x1000, cnt := 4, str2 := 0x8, cnt2 := 8, fields := [⟨31, 0, .ro, 0x0⟩] }
def F.ETH_n_CNT_k_HI_COUNT : Fld := ⟨0x130104, 0x1000, 0x8, 31, 0⟩
/-- controls. (13) -/
def R.NFM_CTRL : RegD := { off := 0xD0000, fields := [⟨1, 1, .w1s, 0x0⟩, ⟨0, 0, .w1s, 0x0⟩] }
def F.NFM_CTRL_RAKE_NOW : Fld := ⟨0xD0000, 0x0, 0x0, 1, 1⟩
def F.NFM_CTRL_CNT_CLEAR : Fld := ⟨0xD0000, 0x0, 0x0, 0, 0⟩
/-- media state. (13) -/
def R.NFM_STATUS : RegD := { off := 0xD0004, fields := [⟨31, 30, .ro, 0x0⟩, ⟨29, 29, .ro, 0x0⟩, ⟨28, 28, .ro, 0x0⟩, ⟨5, 0, .ro, 0x0⟩] }
def F.NFM_STATUS_STATE : Fld := ⟨0xD0004, 0x0, 0x0, 31, 30⟩
def F.NFM_STATUS_ARCHIVE_FULL : Fld := ⟨0xD0004, 0x0, 0x0, 29, 29⟩
def F.NFM_STATUS_RAKE_BEHIND : Fld := ⟨0xD0004, 0x0, 0x0, 28, 28⟩
def F.NFM_STATUS_DIES : Fld := ⟨0xD0004, 0x0, 0x0, 5, 0⟩
/-- media commands. (13) -/
def R.NFM_CMD : RegD := { off := 0xD0008, fields := [⟨31, 31, .ro, 0x0⟩, ⟨30, 27, .ro, 0x0⟩, ⟨23, 20, .wo, 0x0⟩, ⟨0, 0, .wo, 0x0⟩] }
def F.NFM_CMD_BUSY : Fld := ⟨0xD0008, 0x0, 0x0, 31, 31⟩
def F.NFM_CMD_RESULT : Fld := ⟨0xD0008, 0x0, 0x0, 30, 27⟩
def F.NFM_CMD_OPCODE : Fld := ⟨0xD0008, 0x0, 0x0, 23, 20⟩
def F.NFM_CMD_FORCE : Fld := ⟨0xD0008, 0x0, 0x0, 0, 0⟩
/-- host buffer. (13) -/
def R.NFM_HOST_ADDR_LO : RegD := { off := 0xD0010, fields := [⟨31, 6, .rw, 0x0⟩] }
def F.NFM_HOST_ADDR_LO_ADDR : Fld := ⟨0xD0010, 0x0, 0x0, 31, 6⟩
/-- host buffer. (13) -/
def R.NFM_HOST_ADDR_HI : RegD := { off := 0xD0014, fields := [⟨31, 0, .rw, 0x0⟩] }
def F.NFM_HOST_ADDR_HI_ADDR : Fld := ⟨0xD0014, 0x0, 0x0, 31, 0⟩
/-- host buffer length. (13) -/
def R.NFM_HOST_LEN : RegD := { off := 0xD0018, fields := [⟨24, 0, .rw, 0x0⟩] }
def F.NFM_HOST_LEN_LENGTH : Fld := ⟨0xD0018, 0x0, 0x0, 24, 0⟩
/-- first sequence number for ARCH_READ. NFM_ARCH_OLDEST_LO (0x028) and NFM_ARCH_OLDEST_HI (0x02C) — oldest retained sequence
number. (13) -/
def R.NFM_ARCH_SEQ_LO : RegD := { off := 0xD0020, fields := [⟨31, 0, .rw, 0x0⟩] }
def F.NFM_ARCH_SEQ_LO_SEQUENCE : Fld := ⟨0xD0020, 0x0, 0x0, 31, 0⟩
/-- first sequence number for ARCH_READ. NFM_ARCH_OLDEST_LO (0x028) and NFM_ARCH_OLDEST_HI (0x02C) — oldest retained sequence
number. (13) -/
def R.NFM_ARCH_SEQ_HI : RegD := { off := 0xD0024, fields := [⟨15, 0, .rw, 0x0⟩] }
def F.NFM_ARCH_SEQ_HI_SEQUENCE : Fld := ⟨0xD0024, 0x0, 0x0, 15, 0⟩
/-- first sequence number for ARCH_READ. NFM_ARCH_OLDEST_LO (0x028) and NFM_ARCH_OLDEST_HI (0x02C) — oldest retained sequence
number. (13) -/
def R.NFM_ARCH_OLDEST_LO : RegD := { off := 0xD0028, fields := [⟨31, 0, .ro, 0x0⟩] }
def F.NFM_ARCH_OLDEST_LO_SEQUENCE : Fld := ⟨0xD0028, 0x0, 0x0, 31, 0⟩
/-- first sequence number for ARCH_READ. NFM_ARCH_OLDEST_LO (0x028) and NFM_ARCH_OLDEST_HI (0x02C) — oldest retained sequence
number. (13) -/
def R.NFM_ARCH_OLDEST_HI : RegD := { off := 0xD002C, fields := [⟨15, 0, .ro, 0x0⟩] }
def F.NFM_ARCH_OLDEST_HI_SEQUENCE : Fld := ⟨0xD002C, 0x0, 0x0, 15, 0⟩
/-- partition n: 0 archive, 1 billing checkpoints, 2 Trellis and images, 3 event archive. (13) -/
def R.NFM_PART_0 : RegD := { off := 0xD0040, fields := [⟨31, 16, .ro, 0x0⟩, ⟨6, 0, .ro, 0x0⟩] }
/-- partition n: 0 archive, 1 billing checkpoints, 2 Trellis and images, 3 event archive. (13) -/
def R.NFM_PART_1 : RegD := { off := 0xD0044, fields := [⟨31, 16, .rw, 0x40⟩, ⟨6, 0, .ro, 0x0⟩] }
/-- partition n: 0 archive, 1 billing checkpoints, 2 Trellis and images, 3 event archive. (13) -/
def R.NFM_PART_2 : RegD := { off := 0xD0048, fields := [⟨31, 16, .rw, 0x20⟩, ⟨6, 0, .ro, 0x0⟩] }
/-- partition n: 0 archive, 1 billing checkpoints, 2 Trellis and images, 3 event archive. (13) -/
def R.NFM_PART_3 : RegD := { off := 0xD004C, fields := [⟨31, 16, .rw, 0x50⟩, ⟨6, 0, .ro, 0x0⟩] }
def R.NFM_PART_n : RegD := { off := 0xD0040, str := 0x4, cnt := 4, fields := [] }
def F.NFM_PART_n_SIZE : Fld := ⟨0xD0040, 0x4, 0x0, 31, 16⟩
def F.NFM_PART_n_USED : Fld := ⟨0xD0040, 0x4, 0x0, 6, 0⟩
/-- patrol. (13) -/
def R.NFM_RAKE : RegD := { off := 0xD0050, fields := [⟨23, 16, .ro, 0x0⟩, ⟨15, 8, .ro, 0x0⟩, ⟨3, 0, .rw, 0x4⟩] }
def F.NFM_RAKE_BEHIND : Fld := ⟨0xD0050, 0x0, 0x0, 23, 16⟩
def F.NFM_RAKE_PROGRESS : Fld := ⟨0xD0050, 0x0, 0x0, 15, 8⟩
def F.NFM_RAKE_PERIOD : Fld := ⟨0xD0050, 0x0, 0x0, 3, 0⟩
/-- static wear levelling. (13) -/
def R.NFM_WEAR : RegD := { off := 0xD0054, fields := [⟨31, 16, .ro, 0x0⟩, ⟨15, 0, .rw, 0xC8⟩] }
def F.NFM_WEAR_SPREAD_NOW : Fld := ⟨0xD0054, 0x0, 0x0, 31, 16⟩
def F.NFM_WEAR_SPREAD : Fld := ⟨0xD0054, 0x0, 0x0, 15, 0⟩
/-- rated P/E cycles. (13) -/
def R.NFM_PE_RATED : RegD := { off := 0xD0058, fields := [⟨15, 0, .rw, 0xBB8⟩] }
def F.NFM_PE_RATED_RATED : Fld := ⟨0xD0058, 0x0, 0x0, 15, 0⟩
/-- read ladder. (13) -/
def R.NFM_RETRY : RegD := { off := 0xD005C, fields := [⟨15, 8, .rw, 0x50⟩, ⟨3, 0, .rw, 0x8⟩] }
def F.NFM_RETRY_REFRESH : Fld := ⟨0xD005C, 0x0, 0x0, 15, 8⟩
def F.NFM_RETRY_COUNT : Fld := ⟨0xD005C, 0x0, 0x0, 3, 0⟩
/-- threshold table pointer. (13) -/
def R.NFM_RT_SEL : RegD := { off := 0xD0060, fields := [⟨31, 31, .rw, 0x1⟩, ⟨8, 0, .rw, 0x0⟩] }
def F.NFM_RT_SEL_AUTOINC : Fld := ⟨0xD0060, 0x0, 0x0, 31, 31⟩
def F.NFM_RT_SEL_INDEX : Fld := ⟨0xD0060, 0x0, 0x0, 8, 0⟩
/-- threshold entry. (13) -/
def R.NFM_RT_DATA_LO : RegD := { off := 0xD0064, fields := [⟨31, 0, .rw, 0x0⟩] }
def F.NFM_RT_DATA_LO_OFFSETS : Fld := ⟨0xD0064, 0x0, 0x0, 31, 0⟩
/-- threshold entry. (13) -/
def R.NFM_RT_DATA_HI : RegD := { off := 0xD0068, fields := [⟨23, 0, .rw, 0x0⟩] }
def F.NFM_RT_DATA_HI_OFFSETS : Fld := ⟨0xD0068, 0x0, 0x0, 23, 0⟩
/-- spare reserve. (13) -/
def R.NFM_SPARES : RegD := { off := 0xD0070, fields := [⟨31, 24, .rw, 0xA⟩, ⟨20, 16, .ro, 0x0⟩, ⟨15, 0, .ro, 0x0⟩] }
def F.NFM_SPARES_LOW_PCT : Fld := ⟨0xD0070, 0x0, 0x0, 31, 24⟩
def F.NFM_SPARES_DIE : Fld := ⟨0xD0070, 0x0, 0x0, 20, 16⟩
def F.NFM_SPARES_MIN_LEFT : Fld := ⟨0xD0070, 0x0, 0x0, 15, 0⟩
/-- media events. Set wins as R9 states. (13) -/
def R.NFM_INT_STATUS : RegD := { off := 0xD0080, fields := [⟨11, 11, .w1c, 0x0⟩, ⟨10, 10, .w1c, 0x0⟩, ⟨9, 9, .w1c, 0x0⟩, ⟨8, 8, .w1c, 0x0⟩, ⟨7, 7, .w1c, 0x0⟩, ⟨6, 6, .w1c, 0x0⟩, ⟨5, 5, .w1c, 0x0⟩, ⟨4, 4, .w1c, 0x0⟩, ⟨3, 3, .w1c, 0x0⟩, ⟨2, 2, .w1c, 0x0⟩, ⟨1, 1, .w1c, 0x0⟩, ⟨0, 0, .w1c, 0x0⟩] }
def F.NFM_INT_STATUS_COPY_BAD : Fld := ⟨0xD0080, 0x0, 0x0, 11, 11⟩
def F.NFM_INT_STATUS_UNCORRECTABLE : Fld := ⟨0xD0080, 0x0, 0x0, 10, 10⟩
def F.NFM_INT_STATUS_PARITY_REBUILD : Fld := ⟨0xD0080, 0x0, 0x0, 9, 9⟩
def F.NFM_INT_STATUS_ARCHIVE_RELEASED : Fld := ⟨0xD0080, 0x0, 0x0, 8, 8⟩
def F.NFM_INT_STATUS_ARCHIVE_FULL : Fld := ⟨0xD0080, 0x0, 0x0, 7, 7⟩
def F.NFM_INT_STATUS_READ_ONLY : Fld := ⟨0xD0080, 0x0, 0x0, 6, 6⟩
def F.NFM_INT_STATUS_SPARE_LOW : Fld := ⟨0xD0080, 0x0, 0x0, 5, 5⟩
def F.NFM_INT_STATUS_BLOCK_RETIRED : Fld := ⟨0xD0080, 0x0, 0x0, 4, 4⟩
def F.NFM_INT_STATUS_WEAK_REFRESH : Fld := ⟨0xD0080, 0x0, 0x0, 3, 3⟩
def F.NFM_INT_STATUS_RAKE_BEHIND : Fld := ⟨0xD0080, 0x0, 0x0, 2, 2⟩
def F.NFM_INT_STATUS_RAKE_PASS : Fld := ⟨0xD0080, 0x0, 0x0, 1, 1⟩
def F.NFM_INT_STATUS_CMD_DONE : Fld := ⟨0xD0080, 0x0, 0x0, 0, 0⟩
/-- interrupt enables. (13) -/
def R.NFM_INT_ENABLE : RegD := { off := 0xD0084, fields := [⟨11, 0, .rw, 0x0⟩] }
def F.NFM_INT_ENABLE_ENABLE : Fld := ⟨0xD0084, 0x0, 0x0, 11, 0⟩
/-- media counters. (13) -/
def R.NFM_CNT_n : RegD := { off := 0xD0100, str := 0x4, cnt := 10, fields := [⟨31, 0, .ro, 0x0⟩] }
def F.NFM_CNT_n_COUNT : Fld := ⟨0xD0100, 0x4, 0x0, 31, 0⟩
/-- channel state. (13) -/
def R.NFM_CH_STATUS : RegD := { off := 0xD4000, str := 0x800, cnt := 8, fields := [⟨11, 8, .ro, 0x0⟩, ⟨3, 0, .ro, 0x0⟩] }
def F.NFM_CH_STATUS_CE_PRESENT : Fld := ⟨0xD4000, 0x800, 0x0, 11, 8⟩
def F.NFM_CH_STATUS_CE_BUSY : Fld := ⟨0xD4000, 0x800, 0x0, 3, 0⟩
/-- die on CE k. (13) -/
def R.NFM_CH_SPARES_k : RegD := { off := 0xD4010, str := 0x800, cnt := 8, str2 := 0x4, cnt2 := 4, fields := [⟨31, 16, .ro, 0x0⟩, ⟨15, 0, .ro, 0x0⟩] }
def F.NFM_CH_SPARES_k_RETIRED : Fld := ⟨0xD4010, 0x800, 0x4, 31, 16⟩
def F.NFM_CH_SPARES_k_LEFT : Fld := ⟨0xD4010, 0x800, 0x4, 15, 0⟩
/-- die on CE k. (13) -/
def R.NFM_CH_PE_k : RegD := { off := 0xD4020, str := 0x800, cnt := 8, str2 := 0x4, cnt2 := 4, fields := [⟨31, 16, .ro, 0x0⟩, ⟨15, 0, .ro, 0x0⟩] }
def F.NFM_CH_PE_k_MAX : Fld := ⟨0xD4020, 0x800, 0x4, 31, 16⟩
def F.NFM_CH_PE_k_MIN : Fld := ⟨0xD4020, 0x800, 0x4, 15, 0⟩
/-- controls. (13) -/
def R.JNL_CTRL : RegD := { off := 0xE0000, fields := [⟨1, 1, .w1s, 0x0⟩, ⟨0, 0, .w1s, 0x0⟩] }
def F.JNL_CTRL_CKPT_NOW : Fld := ⟨0xE0000, 0x0, 0x0, 1, 1⟩
def F.JNL_CTRL_CNT_CLEAR : Fld := ⟨0xE0000, 0x0, 0x0, 0, 0⟩
/-- journal state. (13) -/
def R.JNL_STATUS : RegD := { off := 0xE0004, fields := [⟨31, 31, .ro, 0x0⟩, ⟨30, 30, .ro, 0x0⟩, ⟨29, 29, .ro, 0x0⟩, ⟨14, 0, .ro, 0x0⟩] }
def F.JNL_STATUS_STALL : Fld := ⟨0xE0004, 0x0, 0x0, 31, 31⟩
def F.JNL_STATUS_OVERFLOW : Fld := ⟨0xE0004, 0x0, 0x0, 30, 30⟩
def F.JNL_STATUS_CKPT_BUSY : Fld := ⟨0xE0004, 0x0, 0x0, 29, 29⟩
def F.JNL_STATUS_UNDRAINED : Fld := ⟨0xE0004, 0x0, 0x0, 14, 0⟩
/-- checkpoint triggers. (13) -/
def R.JNL_CKPT : RegD := { off := 0xE0008, fields := [⟨31, 24, .rw, 0xF⟩, ⟨13, 0, .rw, 0xFA0⟩] }
def F.JNL_CKPT_PERIOD : Fld := ⟨0xE0008, 0x0, 0x0, 31, 24⟩
def F.JNL_CKPT_UNITS : Fld := ⟨0xE0008, 0x0, 0x0, 13, 0⟩
/-- current line, and start line of the newest complete checkpoint. (13) -/
def R.JNL_LINE_LO : RegD := { off := 0xE0010, fields := [⟨31, 0, .ro, 0x0⟩] }
def F.JNL_LINE_LO_LINE : Fld := ⟨0xE0010, 0x0, 0x0, 31, 0⟩
/-- current line, and start line of the newest complete checkpoint. (13) -/
def R.JNL_LINE_HI : RegD := { off := 0xE0014, fields := [⟨31, 0, .ro, 0x0⟩] }
def F.JNL_LINE_HI_LINE : Fld := ⟨0xE0014, 0x0, 0x0, 31, 0⟩
/-- current line, and start line of the newest complete checkpoint. (13) -/
def R.JNL_CKPT_LINE_LO : RegD := { off := 0xE0018, fields := [⟨31, 0, .ro, 0x0⟩] }
def F.JNL_CKPT_LINE_LO_LINE : Fld := ⟨0xE0018, 0x0, 0x0, 31, 0⟩
/-- current line, and start line of the newest complete checkpoint. (13) -/
def R.JNL_CKPT_LINE_HI : RegD := { off := 0xE001C, fields := [⟨31, 0, .ro, 0x0⟩] }
def F.JNL_CKPT_LINE_HI_LINE : Fld := ⟨0xE001C, 0x0, 0x0, 31, 0⟩
/-- overflow region. (13) -/
def R.JNL_OVERFLOW : RegD := { off := 0xE0020, fields := [⟨31, 16, .ro, 0x0⟩, ⟨14, 0, .ro, 0x0⟩] }
def F.JNL_OVERFLOW_RECORDS : Fld := ⟨0xE0020, 0x0, 0x0, 31, 16⟩
def F.JNL_OVERFLOW_UNITS : Fld := ⟨0xE0020, 0x0, 0x0, 14, 0⟩
/-- ring wear. (13) -/
def R.JNL_WEAR : RegD := { off := 0xE0024, fields := [⟨31, 0, .ro, 0x0⟩] }
def F.JNL_WEAR_LAPS : Fld := ⟨0xE0024, 0x0, 0x0, 31, 0⟩
/-- last replay. (13) -/
def R.JNL_REPLAY : RegD := { off := 0xE0028, fields := [⟨31, 16, .ro, 0x0⟩, ⟨15, 0, .ro, 0x0⟩] }
def F.JNL_REPLAY_TIME : Fld := ⟨0xE0028, 0x0, 0x0, 31, 16⟩
def F.JNL_REPLAY_UNITS : Fld := ⟨0xE0028, 0x0, 0x0, 15, 0⟩
/-- journal events. Set wins as R9 states. (13) -/
def R.JNL_INT_STATUS : RegD := { off := 0xE0040, fields := [⟨7, 7, .w1c, 0x0⟩, ⟨6, 6, .w1c, 0x0⟩, ⟨5, 5, .w1c, 0x0⟩, ⟨4, 4, .w1c, 0x0⟩, ⟨3, 3, .w1c, 0x0⟩, ⟨2, 2, .w1c, 0x0⟩, ⟨1, 1, .w1c, 0x0⟩, ⟨0, 0, .w1c, 0x0⟩] }
def F.JNL_INT_STATUS_REPLAY_DONE : Fld := ⟨0xE0040, 0x0, 0x0, 7, 7⟩
def F.JNL_INT_STATUS_POWER_FAIL : Fld := ⟨0xE0040, 0x0, 0x0, 6, 6⟩
def F.JNL_INT_STATUS_OVERFLOW_EMPTY : Fld := ⟨0xE0040, 0x0, 0x0, 5, 5⟩
def F.JNL_INT_STATUS_OVERFLOW_FULL : Fld := ⟨0xE0040, 0x0, 0x0, 4, 4⟩
def F.JNL_INT_STATUS_OVERFLOW_ON : Fld := ⟨0xE0040, 0x0, 0x0, 3, 3⟩
def F.JNL_INT_STATUS_STALL : Fld := ⟨0xE0040, 0x0, 0x0, 2, 2⟩
def F.JNL_INT_STATUS_CKPT_ABANDONED : Fld := ⟨0xE0040, 0x0, 0x0, 1, 1⟩
def F.JNL_INT_STATUS_CKPT_DONE : Fld := ⟨0xE0040, 0x0, 0x0, 0, 0⟩
/-- interrupt enables. (13) -/
def R.JNL_INT_ENABLE : RegD := { off := 0xE0044, fields := [⟨7, 0, .rw, 0x0⟩] }
def F.JNL_INT_ENABLE_ENABLE : Fld := ⟨0xE0044, 0x0, 0x0, 7, 0⟩
/-- journal counters. (13) -/
def R.JNL_CNT_n : RegD := { off := 0xE0100, str := 0x4, cnt := 8, fields := [⟨31, 0, .ro, 0x0⟩] }
def F.JNL_CNT_n_COUNT : Fld := ⟨0xE0100, 0x4, 0x0, 31, 0⟩
/-- Cloche commands. (14) -/
def R.CLO_CTRL : RegD := { off := 0xF0000, fields := [⟨4, 4, .w1s, 0x0⟩, ⟨3, 3, .w1s, 0x0⟩, ⟨2, 2, .w1s, 0x0⟩, ⟨1, 1, .w1s, 0x0⟩, ⟨0, 0, .w1s, 0x0⟩] }
def F.CLO_CTRL_UNLOCK : Fld := ⟨0xF0000, 0x0, 0x0, 4, 4⟩
def F.CLO_CTRL_ZEROIZE : Fld := ⟨0xF0000, 0x0, 0x0, 3, 3⟩
def F.CLO_CTRL_ANCHOR : Fld := ⟨0xF0000, 0x0, 0x0, 2, 2⟩
def F.CLO_CTRL_TICK_LOAD : Fld := ⟨0xF0000, 0x0, 0x0, 1, 1⟩
def F.CLO_CTRL_CHARGE_CLEAR : Fld := ⟨0xF0000, 0x0, 0x0, 0, 0⟩
/-- domain state. (14) -/
def R.CLO_STATUS : RegD := { off := 0xF0004, fields := [⟨8, 8, .ro, 0x0⟩, ⟨7, 7, .ro, 0x0⟩, ⟨6, 6, .ro, 0x0⟩, ⟨5, 5, .ro, 0x0⟩, ⟨4, 4, .ro, 0x0⟩, ⟨3, 3, .w1c, 0x0⟩, ⟨2, 2, .w1c, 0x0⟩, ⟨1, 1, .w1c, 0x1⟩, ⟨0, 0, .w1c, 0x1⟩] }
def F.CLO_STATUS_LOAD_BUSY : Fld := ⟨0xF0004, 0x0, 0x0, 8, 8⟩
def F.CLO_STATUS_ANCHOR_BUSY : Fld := ⟨0xF0004, 0x0, 0x0, 7, 7⟩
def F.CLO_STATUS_TAMP_LOCK : Fld := ⟨0xF0004, 0x0, 0x0, 6, 6⟩
def F.CLO_STATUS_LATCHED : Fld := ⟨0xF0004, 0x0, 0x0, 5, 5⟩
def F.CLO_STATUS_BKP_VALID : Fld := ⟨0xF0004, 0x0, 0x0, 4, 4⟩
def F.CLO_STATUS_ENTROPY_CELL_FAIL : Fld := ⟨0xF0004, 0x0, 0x0, 3, 3⟩
def F.CLO_STATUS_WENT_BATTERY : Fld := ⟨0xF0004, 0x0, 0x0, 2, 2⟩
def F.CLO_STATUS_RET_LOST : Fld := ⟨0xF0004, 0x0, 0x0, 1, 1⟩
def F.CLO_STATUS_OSC_STOPPED : Fld := ⟨0xF0004, 0x0, 0x0, 0, 0⟩
/-- tick count, read as R381 states. (14) -/
def R.CLO_TIME_LO : RegD := { off := 0xF0010, fields := [⟨31, 0, .ro, 0x0⟩] }
def F.CLO_TIME_LO_TICKS : Fld := ⟨0xF0010, 0x0, 0x0, 31, 0⟩
/-- tick count, read as R381 states. (14) -/
def R.CLO_TIME_HI : RegD := { off := 0xF0014, fields := [⟨15, 0, .ro, 0x0⟩] }
def F.CLO_TIME_HI_TICKS : Fld := ⟨0xF0014, 0x0, 0x0, 15, 0⟩
/-- value for TICK_LOAD. (14) -/
def R.CLO_TICK_SET_LO : RegD := { off := 0xF0018, fields := [⟨31, 0, .rw, 0x0⟩] }
def F.CLO_TICK_SET_LO_TICKS : Fld := ⟨0xF0018, 0x0, 0x0, 31, 0⟩
/-- value for TICK_LOAD. (14) -/
def R.CLO_TICK_SET_HI : RegD := { off := 0xF001C, fields := [⟨15, 0, .rw, 0x0⟩] }
def F.CLO_TICK_SET_HI_TICKS : Fld := ⟨0xF001C, 0x0, 0x0, 15, 0⟩
/-- rate trim (R384). (14) -/
def R.CLO_TRIM : RegD := { off := 0xF0020, fields := [⟨23, 0, .rw, 0x0⟩] }
def F.CLO_TRIM_TRIM : Fld := ⟨0xF0020, 0x0, 0x0, 23, 0⟩
/-- last VBAT measurement. (14) -/
def R.CLO_VBAT : RegD := { off := 0xF0024, fields := [⟨15, 0, .ro, 0x0⟩] }
def F.CLO_VBAT_MV : Fld := ⟨0xF0024, 0x0, 0x0, 15, 0⟩
/-- charge drawn from VBAT. (14) -/
def R.CLO_CHARGE : RegD := { off := 0xF0028, fields := [⟨31, 0, .ro, 0x0⟩] }
def F.CLO_CHARGE_NAH : Fld := ⟨0xF0028, 0x0, 0x0, 31, 0⟩
/-- alarm values. (14) -/
def R.CLO_ALARM_n_LO : RegD := { off := 0xF0040, str := 0x8, cnt := 4, fields := [⟨31, 0, .rw, 0x0⟩] }
def F.CLO_ALARM_n_LO_TICKS : Fld := ⟨0xF0040, 0x8, 0x0, 31, 0⟩
/-- alarm values. (14) -/
def R.CLO_ALARM_n_HI : RegD := { off := 0xF0044, str := 0x8, cnt := 4, fields := [⟨15, 0, .rw, 0x0⟩] }
def F.CLO_ALARM_n_HI_TICKS : Fld := ⟨0xF0044, 0x8, 0x0, 15, 0⟩
/-- alarm arming and outcomes; bit n of each field is alarm n. (14) -/
def R.CLO_ALARM_CTRL : RegD := { off := 0xF0060, fields := [⟨19, 16, .w1c, 0x0⟩, ⟨15, 12, .w1c, 0x0⟩, ⟨11, 8, .w1c, 0x0⟩, ⟨7, 4, .w1c, 0x0⟩, ⟨3, 0, .rw, 0x0⟩] }
def F.CLO_ALARM_CTRL_FIRED_ON_BATTERY : Fld := ⟨0xF0060, 0x0, 0x0, 19, 16⟩
def F.CLO_ALARM_CTRL_STEP_PASSED : Fld := ⟨0xF0060, 0x0, 0x0, 15, 12⟩
def F.CLO_ALARM_CTRL_LATE_ARM : Fld := ⟨0xF0060, 0x0, 0x0, 11, 8⟩
def F.CLO_ALARM_CTRL_FIRED : Fld := ⟨0xF0060, 0x0, 0x0, 7, 4⟩
def F.CLO_ALARM_CTRL_ARM : Fld := ⟨0xF0060, 0x0, 0x0, 3, 0⟩
/-- configuration lock (R394). (14) -/
def R.CLO_TAMP_LOCK : RegD := { off := 0xF0080, fields := [⟨0, 0, .w1s, 0x0⟩] }
def F.CLO_TAMP_LOCK_LOCK : Fld := ⟨0xF0080, 0x0, 0x0, 0, 0⟩
/-- sources asserting now. (14) -/
def R.CLO_TAMPER : RegD := { off := 0xF0084, fields := [⟨12, 0, .ro, 0x0⟩] }
def F.CLO_TAMPER_ACTIVE : Fld := ⟨0xF0084, 0x0, 0x0, 12, 0⟩
/-- tamper latch. (14) -/
def R.CLO_TAMPER_LATCH : RegD := { off := 0xF0088, fields := [⟨12, 0, .w1c, 0x0⟩] }
def F.CLO_TAMPER_LATCH_SOURCE : Fld := ⟨0xF0088, 0x0, 0x0, 12, 0⟩
/-- record shown. (14) -/
def R.CLO_TREC_SEL : RegD := { off := 0xF00A0, fields := [⟨3, 0, .rw, 0x0⟩] }
def F.CLO_TREC_SEL_SOURCE : Fld := ⟨0xF00A0, 0x0, 0x0, 3, 0⟩
/-- selected tamper record, read as R393 states. (14) -/
def R.CLO_TREC_COUNT : RegD := { off := 0xF00A4, fields := [⟨15, 0, .ro, 0x0⟩] }
def F.CLO_TREC_COUNT_VALUE : Fld := ⟨0xF00A4, 0x0, 0x0, 15, 0⟩
/-- selected tamper record, read as R393 states. (14) -/
def R.CLO_TREC_FIRST_LO : RegD := { off := 0xF00A8, fields := [⟨31, 0, .ro, 0x0⟩] }
def F.CLO_TREC_FIRST_LO_VALUE : Fld := ⟨0xF00A8, 0x0, 0x0, 31, 0⟩
/-- selected tamper record, read as R393 states. (14) -/
def R.CLO_TREC_LAST_LO : RegD := { off := 0xF00AC, fields := [⟨31, 0, .ro, 0x0⟩] }
def F.CLO_TREC_LAST_LO_VALUE : Fld := ⟨0xF00AC, 0x0, 0x0, 31, 0⟩
/-- selected tamper record, read as R393 states. (14) -/
def R.CLO_TREC_HI : RegD := { off := 0xF00B0, fields := [⟨31, 0, .ro, 0x0⟩] }
def F.CLO_TREC_HI_VALUE : Fld := ⟨0xF00B0, 0x0, 0x0, 31, 0⟩
/-- backup bytes (R386). (14) -/
def R.CLO_BKP_n : RegD := { off := 0xF00C0, str := 0x4, cnt := 16, fields := [⟨31, 0, .rw, 0x0⟩] }
def F.CLO_BKP_n_BYTES : Fld := ⟨0xF00C0, 0x4, 0x0, 31, 0⟩
/-- tamper source s; writes obey R394. (14) -/
def R.CLO_TAMP_CFG_0 : RegD := { off := 0xF0100, str := 0x4, cnt := 10, fields := [⟨15, 12, .rw, 0x2⟩, ⟨7, 6, .rw, 0x1⟩, ⟨3, 3, .rw, 0x0⟩, ⟨2, 2, .rw, 0x0⟩, ⟨1, 1, .rw, 0x0⟩, ⟨0, 0, .rw, 0x0⟩] }
/-- tamper source s; writes obey R394. (14) -/
def R.CLO_TAMP_CFG_10 : RegD := { off := 0xF0128, str := 0x4, cnt := 2, fields := [⟨15, 12, .rw, 0x2⟩, ⟨7, 6, .rw, 0x1⟩, ⟨3, 3, .rw, 0x0⟩, ⟨2, 2, .rw, 0x0⟩, ⟨1, 1, .rw, 0x0⟩, ⟨0, 0, .rw, 0x1⟩] }
/-- tamper source s; writes obey R394. (14) -/
def R.CLO_TAMP_CFG_12 : RegD := { off := 0xF0130, str := 0x4, cnt := 1, fields := [⟨15, 12, .rw, 0x2⟩, ⟨7, 6, .rw, 0x1⟩, ⟨3, 3, .rw, 0x0⟩, ⟨2, 2, .rw, 0x0⟩, ⟨1, 1, .ro, 0x1⟩, ⟨0, 0, .ro, 0x1⟩] }
def R.CLO_TAMP_CFG_s : RegD := { off := 0xF0100, str := 0x4, cnt := 13, fields := [] }
def F.CLO_TAMP_CFG_s_FILTER : Fld := ⟨0xF0100, 0x4, 0x0, 15, 12⟩
def F.CLO_TAMP_CFG_s_BAT_PERIOD : Fld := ⟨0xF0100, 0x4, 0x0, 7, 6⟩
def F.CLO_TAMP_CFG_s_POLARITY : Fld := ⟨0xF0100, 0x4, 0x0, 3, 3⟩
def F.CLO_TAMP_CFG_s_PULL : Fld := ⟨0xF0100, 0x4, 0x0, 2, 2⟩
def F.CLO_TAMP_CFG_s_ZEROIZE : Fld := ⟨0xF0100, 0x4, 0x0, 1, 1⟩
def F.CLO_TAMP_CFG_s_ENABLE : Fld := ⟨0xF0100, 0x4, 0x0, 0, 0⟩
/-- Cloche events, raised on main power. Set wins as R9 states. (14) -/
def R.CLO_INT_STATUS : RegD := { off := 0xF0140, fields := [⟨7, 7, .w1c, 0x0⟩, ⟨6, 6, .w1c, 0x0⟩, ⟨5, 5, .w1c, 0x0⟩, ⟨4, 4, .w1c, 0x0⟩, ⟨3, 3, .w1c, 0x0⟩, ⟨2, 2, .w1c, 0x0⟩, ⟨1, 1, .w1c, 0x0⟩, ⟨0, 0, .w1c, 0x0⟩] }
def F.CLO_INT_STATUS_STEP_PASSED : Fld := ⟨0xF0140, 0x0, 0x0, 7, 7⟩
def F.CLO_INT_STATUS_ENTROPY_CELL : Fld := ⟨0xF0140, 0x0, 0x0, 6, 6⟩
def F.CLO_INT_STATUS_VBAT_LOW : Fld := ⟨0xF0140, 0x0, 0x0, 5, 5⟩
def F.CLO_INT_STATUS_ANCHOR_DONE : Fld := ⟨0xF0140, 0x0, 0x0, 4, 4⟩
def F.CLO_INT_STATUS_TICK_REFUSED : Fld := ⟨0xF0140, 0x0, 0x0, 3, 3⟩
def F.CLO_INT_STATUS_OSC_FAIL : Fld := ⟨0xF0140, 0x0, 0x0, 2, 2⟩
def F.CLO_INT_STATUS_TAMPER : Fld := ⟨0xF0140, 0x0, 0x0, 1, 1⟩
def F.CLO_INT_STATUS_ALARM : Fld := ⟨0xF0140, 0x0, 0x0, 0, 0⟩
/-- interrupt enables. (14) -/
def R.CLO_INT_ENABLE : RegD := { off := 0xF0144, fields := [⟨7, 0, .rw, 0x0⟩] }
def F.CLO_INT_ENABLE_ENABLE : Fld := ⟨0xF0144, 0x0, 0x0, 7, 0⟩
/-- counter control. (15) -/
def R.PRL_CTRL : RegD := { off := 0x100000, fields := [⟨0, 0, .w1s, 0x0⟩] }
def F.PRL_CTRL_CNT_CLEAR : Fld := ⟨0x100000, 0x0, 0x0, 0, 0⟩
/-- pair state. (15) -/
def R.PRL_STATUS : RegD := { off := 0x100004, fields := [⟨31, 29, .ro, 0x0⟩, ⟨28, 26, .ro, 0x7⟩, ⟨25, 25, .ro, 0x0⟩, ⟨24, 24, .ro, 0x0⟩, ⟨23, 23, .ro, 0x0⟩] }
def F.PRL_STATUS_STATE : Fld := ⟨0x100004, 0x0, 0x0, 31, 29⟩
def F.PRL_STATUS_PARTNER_STATE : Fld := ⟨0x100004, 0x0, 0x0, 28, 26⟩
def F.PRL_STATUS_NONREVERTIVE : Fld := ⟨0x100004, 0x0, 0x0, 25, 25⟩
def F.PRL_STATUS_REVERT_PENDING : Fld := ⟨0x100004, 0x0, 0x0, 24, 24⟩
def F.PRL_STATUS_NO_STANDBY : Fld := ⟨0x100004, 0x0, 0x0, 23, 23⟩
/-- lines; bit order 0 ACTIVE, 1 HEALTHY, 2 TAKE, 3 YIELD. (15) -/
def R.PRL_SIDEBAND : RegD := { off := 0x100008, fields := [⟨7, 4, .ro, 0x0⟩, ⟨3, 0, .ro, 0x0⟩] }
def F.PRL_SIDEBAND_RELEASED : Fld := ⟨0x100008, 0x0, 0x0, 7, 4⟩
def F.PRL_SIDEBAND_LEVEL : Fld := ⟨0x100008, 0x0, 0x0, 3, 0⟩
/-- pair policy. (15) -/
def R.PRL_PAIR_CFG : RegD := { off := 0x10000C, fields := [⟨31, 16, .rw, 0x7D0⟩, ⟨1, 1, .rw, 0x0⟩, ⟨0, 0, .rw, 0x0⟩] }
def F.PRL_PAIR_CFG_NEGOTIATE : Fld := ⟨0x10000C, 0x0, 0x0, 31, 16⟩
def F.PRL_PAIR_CFG_PREFERRED : Fld := ⟨0x10000C, 0x0, 0x0, 1, 1⟩
def F.PRL_PAIR_CFG_REVERTIVE : Fld := ⟨0x10000C, 0x0, 0x0, 0, 0⟩
/-- return hold-off. (15) -/
def R.PRL_HOLDOFF : RegD := { off := 0x100010, fields := [⟨16, 0, .rw, 0x258⟩] }
def F.PRL_HOLDOFF_SECONDS : Fld := ⟨0x100010, 0x0, 0x0, 16, 0⟩
/-- return probation. (15) -/
def R.PRL_PROBATION : RegD := { off := 0x100014, fields := [⟨15, 0, .rw, 0x258⟩] }
def F.PRL_PROBATION_SECONDS : Fld := ⟨0x100014, 0x0, 0x0, 15, 0⟩
/-- pair commands. (15) -/
def R.PRL_CMD : RegD := { off := 0x100018, fields := [⟨31, 31, .ro, 0x0⟩, ⟨30, 27, .ro, 0x0⟩, ⟨3, 0, .wo, 0x0⟩] }
def F.PRL_CMD_BUSY : Fld := ⟨0x100018, 0x0, 0x0, 31, 31⟩
def F.PRL_CMD_RESULT : Fld := ⟨0x100018, 0x0, 0x0, 30, 27⟩
def F.PRL_CMD_OPCODE : Fld := ⟨0x100018, 0x0, 0x0, 3, 0⟩
/-- last change of control. (15) -/
def R.PRL_CAUSE : RegD := { off := 0x10001C, fields := [⟨15, 8, .ro, 0x0⟩, ⟨7, 0, .ro, 0x0⟩] }
def F.PRL_CAUSE_KIND : Fld := ⟨0x10001C, 0x0, 0x0, 15, 8⟩
def F.PRL_CAUSE_CAUSE : Fld := ⟨0x10001C, 0x0, 0x0, 7, 0⟩
/-- instant of the last change of control. (15) -/
def R.PRL_TAKEOVER_LO : RegD := { off := 0x100020, fields := [⟨31, 0, .ro, 0x0⟩] }
def F.PRL_TAKEOVER_LO_SECONDS : Fld := ⟨0x100020, 0x0, 0x0, 31, 0⟩
/-- instant of the last change of control. (15) -/
def R.PRL_TAKEOVER_HI : RegD := { off := 0x100024, fields := [⟨15, 0, .ro, 0x0⟩] }
def F.PRL_TAKEOVER_HI_SECONDS : Fld := ⟨0x100024, 0x0, 0x0, 15, 0⟩
/-- control ages (R418). (15) -/
def R.PRL_DRILL : RegD := { off := 0x100028, fields := [⟨31, 16, .ro, 0xFFFF⟩, ⟨15, 0, .ro, 0xFFFF⟩] }
def F.PRL_DRILL_PARTNER_AGE : Fld := ⟨0x100028, 0x0, 0x0, 31, 16⟩
def F.PRL_DRILL_SELF_AGE : Fld := ⟨0x100028, 0x0, 0x0, 15, 0⟩
/-- host heartbeat (cause 0x0B). (15) -/
def R.PRL_HOST_BEAT : RegD := { off := 0x10002C, fields := [⟨15, 1, .rw, 0x0⟩, ⟨0, 0, .w1s, 0x0⟩] }
def F.PRL_HOST_BEAT_TIMEOUT : Fld := ⟨0x10002C, 0x0, 0x0, 15, 1⟩
def F.PRL_HOST_BEAT_BEAT : Fld := ⟨0x10002C, 0x0, 0x0, 0, 0⟩
/-- mirror progress. (15) -/
def R.PRL_MIRROR : RegD := { off := 0x100030, fields := [⟨31, 16, .ro, 0x0⟩, ⟨15, 0, .ro, 0x0⟩] }
def F.PRL_MIRROR_OUTSTANDING : Fld := ⟨0x100030, 0x0, 0x0, 31, 16⟩
def F.PRL_MIRROR_RTT : Fld := ⟨0x100030, 0x0, 0x0, 15, 0⟩
/-- last mirror-confirmed journal line. (15) -/
def R.PRL_CONFIRMED_LO : RegD := { off := 0x100034, fields := [⟨31, 0, .ro, 0x0⟩] }
def F.PRL_CONFIRMED_LO_LINE : Fld := ⟨0x100034, 0x0, 0x0, 31, 0⟩
/-- last mirror-confirmed journal line. (15) -/
def R.PRL_CONFIRMED_HI : RegD := { off := 0x100038, fields := [⟨31, 0, .ro, 0x0⟩] }
def F.PRL_CONFIRMED_HI_LINE : Fld := ⟨0x100038, 0x0, 0x0, 31, 0⟩
/-- resynchronisation (R413). (15) -/
def R.PRL_RESYNC : RegD := { off := 0x10003C, fields := [⟨31, 30, .ro, 0x0⟩, ⟨6, 0, .ro, 0x0⟩] }
def F.PRL_RESYNC_PHASE : Fld := ⟨0x10003C, 0x0, 0x0, 31, 30⟩
def F.PRL_RESYNC_PROGRESS : Fld := ⟨0x10003C, 0x0, 0x0, 6, 0⟩
/-- pair events. Set wins as R9 states. (15) -/
def R.PRL_INT_STATUS : RegD := { off := 0x100040, fields := [⟨11, 11, .w1c, 0x0⟩, ⟨10, 10, .w1c, 0x0⟩, ⟨9, 9, .w1c, 0x0⟩, ⟨8, 8, .w1c, 0x0⟩, ⟨7, 7, .w1c, 0x0⟩, ⟨6, 6, .w1c, 0x0⟩, ⟨5, 5, .w1c, 0x0⟩, ⟨4, 4, .w1c, 0x0⟩, ⟨3, 3, .w1c, 0x0⟩, ⟨2, 2, .w1c, 0x0⟩, ⟨1, 1, .w1c, 0x0⟩, ⟨0, 0, .w1c, 0x0⟩] }
def F.PRL_INT_STATUS_CMD_DONE : Fld := ⟨0x100040, 0x0, 0x0, 11, 11⟩
def F.PRL_INT_STATUS_FORWARD_DROP : Fld := ⟨0x100040, 0x0, 0x0, 10, 10⟩
def F.PRL_INT_STATUS_NO_STANDBY : Fld := ⟨0x100040, 0x0, 0x0, 9, 9⟩
def F.PRL_INT_STATUS_STANDBY_FAULT : Fld := ⟨0x100040, 0x0, 0x0, 8, 8⟩
def F.PRL_INT_STATUS_LINK_UP : Fld := ⟨0x100040, 0x0, 0x0, 7, 7⟩
def F.PRL_INT_STATUS_LINK_DOWN : Fld := ⟨0x100040, 0x0, 0x0, 6, 6⟩
def F.PRL_INT_STATUS_DRILL_DUE : Fld := ⟨0x100040, 0x0, 0x0, 5, 5⟩
def F.PRL_INT_STATUS_REVERT_FAILED : Fld := ⟨0x100040, 0x0, 0x0, 4, 4⟩
def F.PRL_INT_STATUS_PARTNER_SYNCED : Fld := ⟨0x100040, 0x0, 0x0, 3, 3⟩
def F.PRL_INT_STATUS_PARTNER_LOST : Fld := ⟨0x100040, 0x0, 0x0, 2, 2⟩
def F.PRL_INT_STATUS_YIELDED : Fld := ⟨0x100040, 0x0, 0x0, 1, 1⟩
def F.PRL_INT_STATUS_TOOK_CONTROL : Fld := ⟨0x100040, 0x0, 0x0, 0, 0⟩
/-- interrupt enables. (15) -/
def R.PRL_INT_ENABLE : RegD := { off := 0x100044, fields := [⟨11, 0, .rw, 0x0⟩] }
def F.PRL_INT_ENABLE_ENABLE : Fld := ⟨0x100044, 0x0, 0x0, 11, 0⟩
/-- pair counters. (15) -/
def R.PRL_CNT_n : RegD := { off := 0x100100, str := 0x4, cnt := 10, fields := [⟨31, 0, .ro, 0x0⟩] }
def F.PRL_CNT_n_COUNT : Fld := ⟨0x100100, 0x4, 0x0, 31, 0⟩
/-- link state. (15) -/
def R.PRL_L_STATUS : RegD := { off := 0x101000, str := 0x1000, cnt := 3, fields := [⟨31, 31, .ro, 0x0⟩, ⟨30, 28, .ro, 0x0⟩, ⟨27, 26, .ro, 0x3⟩, ⟨25, 25, .ro, 0x0⟩, ⟨3, 0, .ro, 0x0⟩] }
def F.PRL_L_STATUS_UP : Fld := ⟨0x101000, 0x1000, 0x0, 31, 31⟩
def F.PRL_L_STATUS_PEER : Fld := ⟨0x101000, 0x1000, 0x0, 30, 28⟩
def F.PRL_L_STATUS_ROLE : Fld := ⟨0x101000, 0x1000, 0x0, 27, 26⟩
def F.PRL_L_STATUS_MAP_MISMATCH : Fld := ⟨0x101000, 0x1000, 0x0, 25, 25⟩
def F.PRL_L_STATUS_LANES : Fld := ⟨0x101000, 0x1000, 0x0, 3, 0⟩
/-- link counters. (15) -/
def R.PRL_L_CNT_n : RegD := { off := 0x101100, str := 0x1000, cnt := 3, str2 := 0x4, cnt2 := 6, fields := [⟨31, 0, .ro, 0x0⟩] }
def F.PRL_L_CNT_n_COUNT : Fld := ⟨0x101100, 0x1000, 0x4, 31, 0⟩
/-- counter control. (16) -/
def R.RNG_CTRL : RegD := { off := 0x20000, fields := [⟨0, 0, .w1s, 0x0⟩] }
def F.RNG_CTRL_CNT_CLEAR : Fld := ⟨0x20000, 0x0, 0x0, 0, 0⟩
/-- certificate cache. (16) -/
def R.RNG_CERTS : RegD := { off := 0x20004, fields := [⟨4, 0, .ro, 0x0⟩] }
def F.RNG_CERTS_CACHED : Fld := ⟨0x20004, 0x0, 0x0, 4, 0⟩
/-- METER_REQUEST wait. (16) -/
def R.RNG_REQ_TIMEOUT : RegD := { off := 0x20008, fields := [⟨15, 0, .rw, 0x1C20⟩] }
def F.RNG_REQ_TIMEOUT_SECONDS : Fld := ⟨0x20008, 0x0, 0x0, 15, 0⟩
/-- ring events. Set wins as R9 states. (16) -/
def R.RNG_INT_STATUS : RegD := { off := 0x20040, fields := [⟨4, 4, .w1c, 0x0⟩, ⟨3, 3, .w1c, 0x0⟩, ⟨2, 2, .w1c, 0x0⟩, ⟨1, 1, .w1c, 0x0⟩, ⟨0, 0, .w1c, 0x0⟩] }
def F.RNG_INT_STATUS_OVERRUN : Fld := ⟨0x20040, 0x0, 0x0, 4, 4⟩
def F.RNG_INT_STATUS_MARK_LOST : Fld := ⟨0x20040, 0x0, 0x0, 3, 3⟩
def F.RNG_INT_STATUS_HOST_BUF_FULL : Fld := ⟨0x20040, 0x0, 0x0, 2, 2⟩
def F.RNG_INT_STATUS_RING_DROP : Fld := ⟨0x20040, 0x0, 0x0, 1, 1⟩
def F.RNG_INT_STATUS_CMD_REJECTED : Fld := ⟨0x20040, 0x0, 0x0, 0, 0⟩
/-- interrupt enables. (16) -/
def R.RNG_INT_ENABLE : RegD := { off := 0x20044, fields := [⟨4, 0, .rw, 0x0⟩] }
def F.RNG_INT_ENABLE_ENABLE : Fld := ⟨0x20044, 0x0, 0x0, 4, 0⟩
/-- counters. (16) -/
def R.RNG_CNT_n : RegD := { off := 0x20100, str := 0x4, cnt := 8, fields := [⟨31, 0, .ro, 0x0⟩] }
def F.RNG_CNT_n_COUNT : Fld := ⟨0x20100, 0x4, 0x0, 31, 0⟩
/-- ring configuration. (16) -/
def R.RNG_n_CFG : RegD := { off := 0x21000, str := 0x100, cnt := 64, fields := [⟨31, 31, .ro, 0x0⟩, ⟨30, 30, .ro, 0x0⟩, ⟨29, 27, .ro, 0x0⟩, ⟨26, 26, .ro, 0x0⟩, ⟨25, 25, .rw, 0x0⟩, ⟨21, 16, .ro, 0x0⟩] }
def F.RNG_n_CFG_ENABLED : Fld := ⟨0x21000, 0x100, 0x0, 31, 31⟩
def F.RNG_n_CFG_DIRECTION : Fld := ⟨0x21000, 0x100, 0x0, 30, 30⟩
def F.RNG_n_CFG_CONTENT : Fld := ⟨0x21000, 0x100, 0x0, 29, 27⟩
def F.RNG_n_CFG_SIGNED : Fld := ⟨0x21000, 0x100, 0x0, 26, 26⟩
def F.RNG_n_CFG_DRAIN : Fld := ⟨0x21000, 0x100, 0x0, 25, 25⟩
def F.RNG_n_CFG_VECTOR : Fld := ⟨0x21000, 0x100, 0x0, 21, 16⟩
/-- interrupt condition (R442). (16) -/
def R.RNG_n_IRQ : RegD := { off := 0x21004, str := 0x100, cnt := 64, fields := [⟨31, 16, .rw, 0x64⟩, ⟨14, 0, .rw, 0x0⟩] }
def F.RNG_n_IRQ_COALESCE : Fld := ⟨0x21004, 0x100, 0x0, 31, 16⟩
def F.RNG_n_IRQ_WATERMARK : Fld := ⟨0x21004, 0x100, 0x0, 14, 0⟩
/-- ring state. (16) -/
def R.RNG_n_STATUS : RegD := { off := 0x21008, str := 0x100, cnt := 64, fields := [⟨31, 31, .ro, 0x0⟩, ⟨30, 30, .ro, 0x1⟩, ⟨29, 29, .ro, 0x0⟩, ⟨28, 28, .ro, 0x0⟩, ⟨27, 27, .w1c, 0x0⟩, ⟨26, 26, .w1c, 0x0⟩, ⟨25, 25, .ro, 0x0⟩, ⟨14, 0, .ro, 0x0⟩] }
def F.RNG_n_STATUS_FULL : Fld := ⟨0x21008, 0x100, 0x0, 31, 31⟩
def F.RNG_n_STATUS_EMPTY : Fld := ⟨0x21008, 0x100, 0x0, 30, 30⟩
def F.RNG_n_STATUS_MARK_VALID : Fld := ⟨0x21008, 0x100, 0x0, 29, 29⟩
def F.RNG_n_STATUS_FLUSH_PENDING : Fld := ⟨0x21008, 0x100, 0x0, 28, 28⟩
def F.RNG_n_STATUS_MARK_LOST : Fld := ⟨0x21008, 0x100, 0x0, 27, 27⟩
def F.RNG_n_STATUS_OVERRUN : Fld := ⟨0x21008, 0x100, 0x0, 26, 26⟩
def F.RNG_n_STATUS_HOST_BUF_FULL : Fld := ⟨0x21008, 0x100, 0x0, 25, 25⟩
def F.RNG_n_STATUS_USED : Fld := ⟨0x21008, 0x100, 0x0, 14, 0⟩
/-- pointers. (16) -/
def R.RNG_n_PTR : RegD := { off := 0x2100C, str := 0x100, cnt := 64, fields := [⟨30, 16, .ro, 0x0⟩, ⟨14, 0, .ro, 0x0⟩] }
def F.RNG_n_PTR_WR : Fld := ⟨0x2100C, 0x100, 0x0, 30, 16⟩
def F.RNG_n_PTR_RD : Fld := ⟨0x2100C, 0x100, 0x0, 14, 0⟩
/-- oldest retained packet and mark. (16) -/
def R.RNG_n_OLDEST : RegD := { off := 0x21010, str := 0x100, cnt := 64, fields := [⟨14, 0, .ro, 0x0⟩] }
def F.RNG_n_OLDEST_POINTER : Fld := ⟨0x21010, 0x100, 0x0, 14, 0⟩
/-- oldest retained packet and mark. (16) -/
def R.RNG_n_MARK : RegD := { off := 0x21014, str := 0x100, cnt := 64, fields := [⟨14, 0, .ro, 0x0⟩] }
def F.RNG_n_MARK_POINTER : Fld := ⟨0x21014, 0x100, 0x0, 14, 0⟩
/-- data port. (16) -/
def R.RNG_n_DATA : RegD := { off := 0x21018, str := 0x100, cnt := 64, fields := [⟨31, 0, .wo, 0x0⟩] }
def F.RNG_n_DATA_WORD : Fld := ⟨0x21018, 0x100, 0x0, 31, 0⟩
/-- ring commands. (16) -/
def R.RNG_n_CMD : RegD := { off := 0x2101C, str := 0x100, cnt := 64, fields := [⟨2, 2, .w1s, 0x0⟩, ⟨1, 1, .w1s, 0x0⟩, ⟨0, 0, .w1s, 0x0⟩] }
def F.RNG_n_CMD_REWIND : Fld := ⟨0x2101C, 0x100, 0x0, 2, 2⟩
def F.RNG_n_CMD_MARK : Fld := ⟨0x2101C, 0x100, 0x0, 1, 1⟩
def F.RNG_n_CMD_FLUSH : Fld := ⟨0x2101C, 0x100, 0x0, 0, 0⟩
/-- host buffer and writeback addresses. (16) -/
def R.RNG_n_HBUF_LO : RegD := { off := 0x21020, str := 0x100, cnt := 64, fields := [⟨31, 12, .rw, 0x0⟩] }
def F.RNG_n_HBUF_LO_ADDR : Fld := ⟨0x21020, 0x100, 0x0, 31, 12⟩
/-- host buffer and writeback addresses. (16) -/
def R.RNG_n_HBUF_HI : RegD := { off := 0x21024, str := 0x100, cnt := 64, fields := [⟨31, 0, .rw, 0x0⟩] }
def F.RNG_n_HBUF_HI_ADDR : Fld := ⟨0x21024, 0x100, 0x0, 31, 0⟩
/-- host buffer and writeback addresses. (16) -/
def R.RNG_n_WB_LO : RegD := { off := 0x21034, str := 0x100, cnt := 64, fields := [⟨31, 2, .rw, 0x0⟩] }
def F.RNG_n_WB_LO_ADDR : Fld := ⟨0x21034, 0x100, 0x0, 31, 2⟩
/-- host buffer and writeback addresses. (16) -/
def R.RNG_n_WB_HI : RegD := { off := 0x21038, str := 0x100, cnt := 64, fields := [⟨31, 0, .rw, 0x0⟩] }
def F.RNG_n_WB_HI_ADDR : Fld := ⟨0x21038, 0x100, 0x0, 31, 0⟩
/-- host buffer size. (16) -/
def R.RNG_n_HSIZE : RegD := { off := 0x21028, str := 0x100, cnt := 64, fields := [⟨4, 0, .rw, 0xC⟩] }
def F.RNG_n_HSIZE_LOG2 : Fld := ⟨0x21028, 0x100, 0x0, 4, 0⟩
/-- host buffer offsets. (16) -/
def R.RNG_n_HWR : RegD := { off := 0x2102C, str := 0x100, cnt := 64, fields := [⟨26, 0, .ro, 0x0⟩] }
def F.RNG_n_HWR_OFFSET : Fld := ⟨0x2102C, 0x100, 0x0, 26, 0⟩
/-- host buffer offsets. (16) -/
def R.RNG_n_HRD : RegD := { off := 0x21030, str := 0x100, cnt := 64, fields := [⟨26, 0, .rw, 0x0⟩] }
def F.RNG_n_HRD_OFFSET : Fld := ⟨0x21030, 0x100, 0x0, 26, 0⟩
/-- confirmation mark (R444). (16) -/
def R.RNG_n_CONFIRM_LO : RegD := { off := 0x21040, str := 0x100, cnt := 64, fields := [⟨31, 0, .rw, 0x0⟩] }
def F.RNG_n_CONFIRM_LO_SEQUENCE : Fld := ⟨0x21040, 0x100, 0x0, 31, 0⟩
/-- confirmation mark (R444). (16) -/
def R.RNG_n_CONFIRM_HI : RegD := { off := 0x21044, str := 0x100, cnt := 64, fields := [⟨15, 0, .rw, 0x0⟩] }
def F.RNG_n_CONFIRM_HI_SEQUENCE : Fld := ⟨0x21044, 0x100, 0x0, 15, 0⟩
/-- dropped packets. (16) -/
def R.RNG_n_DROPS : RegD := { off := 0x21048, str := 0x100, cnt := 64, fields := [⟨31, 0, .ro, 0x0⟩] }
def F.RNG_n_DROPS_COUNT : Fld := ⟨0x21048, 0x100, 0x0, 31, 0⟩
/-- control. (16) -/
def R.EVR_CTRL : RegD := { off := 0x110000, fields := [⟨0, 0, .w1s, 0x0⟩] }
def F.EVR_CTRL_CNT_CLEAR : Fld := ⟨0x110000, 0x0, 0x0, 0, 0⟩
/-- recorder state. (16) -/
def R.EVR_STATUS : RegD := { off := 0x110004, fields := [⟨31, 31, .ro, 0x0⟩, ⟨15, 0, .ro, 0x0⟩] }
def F.EVR_STATUS_SPILL_STOPPED : Fld := ⟨0x110004, 0x0, 0x0, 31, 31⟩
def F.EVR_STATUS_NEXT : Fld := ⟨0x110004, 0x0, 0x0, 15, 0⟩
/-- next sequence number, and first sequence number for ARCHIVE_READ. (16) -/
def R.EVR_SEQ_LO : RegD := { off := 0x110008, fields := [⟨31, 0, .ro, 0x0⟩] }
def F.EVR_SEQ_LO_SEQUENCE : Fld := ⟨0x110008, 0x0, 0x0, 31, 0⟩
/-- next sequence number, and first sequence number for ARCHIVE_READ. (16) -/
def R.EVR_SEQ_HI : RegD := { off := 0x11000C, fields := [⟨15, 0, .ro, 0x0⟩] }
def F.EVR_SEQ_HI_SEQUENCE : Fld := ⟨0x11000C, 0x0, 0x0, 15, 0⟩
/-- next sequence number, and first sequence number for ARCHIVE_READ. (16) -/
def R.EVR_ARCH_SEQ_LO : RegD := { off := 0x110010, fields := [⟨31, 0, .rw, 0x0⟩] }
def F.EVR_ARCH_SEQ_LO_SEQUENCE : Fld := ⟨0x110010, 0x0, 0x0, 31, 0⟩
/-- next sequence number, and first sequence number for ARCHIVE_READ. (16) -/
def R.EVR_ARCH_SEQ_HI : RegD := { off := 0x110014, fields := [⟨15, 0, .rw, 0x0⟩] }
def F.EVR_ARCH_SEQ_HI_SEQUENCE : Fld := ⟨0x110014, 0x0, 0x0, 15, 0⟩
/-- window page. (16) -/
def R.EVR_WIN_BASE : RegD := { off := 0x110020, fields := [⟨5, 0, .rw, 0x0⟩] }
def F.EVR_WIN_BASE_PAGE : Fld := ⟨0x110020, 0x0, 0x0, 5, 0⟩
/-- summary period (R456). (16) -/
def R.EVR_SUMMARY : RegD := { off := 0x110024, fields := [⟨15, 0, .rw, 0xA⟩] }
def F.EVR_SUMMARY_PERIOD : Fld := ⟨0x110024, 0x0, 0x0, 15, 0⟩
/-- suppressed count of one code. (16) -/
def R.EVR_CODE_SEL : RegD := { off := 0x110028, fields := [⟨9, 0, .rw, 0x0⟩] }
def F.EVR_CODE_SEL_VALUE : Fld := ⟨0x110028, 0x0, 0x0, 9, 0⟩
/-- suppressed count of one code. (16) -/
def R.EVR_CODE_SUPP : RegD := { off := 0x11002C, fields := [⟨31, 0, .ro, 0x0⟩] }
def F.EVR_CODE_SUPP_VALUE : Fld := ⟨0x11002C, 0x0, 0x0, 31, 0⟩
/-- archive command. (16) -/
def R.EVR_CMD : RegD := { off := 0x110030, fields := [⟨31, 31, .ro, 0x0⟩, ⟨30, 28, .ro, 0x0⟩, ⟨3, 0, .wo, 0x0⟩] }
def F.EVR_CMD_BUSY : Fld := ⟨0x110030, 0x0, 0x0, 31, 31⟩
def F.EVR_CMD_RESULT : Fld := ⟨0x110030, 0x0, 0x0, 30, 28⟩
def F.EVR_CMD_OPCODE : Fld := ⟨0x110030, 0x0, 0x0, 3, 0⟩
/-- host buffer. (16) -/
def R.EVR_HOST_ADDR_LO : RegD := { off := 0x110034, fields := [⟨31, 6, .rw, 0x0⟩] }
def F.EVR_HOST_ADDR_LO_VALUE : Fld := ⟨0x110034, 0x0, 0x0, 31, 6⟩
/-- host buffer. (16) -/
def R.EVR_HOST_ADDR_HI : RegD := { off := 0x110038, fields := [⟨31, 0, .rw, 0x0⟩] }
def F.EVR_HOST_ADDR_HI_VALUE : Fld := ⟨0x110038, 0x0, 0x0, 31, 0⟩
/-- host buffer. (16) -/
def R.EVR_HOST_LEN : RegD := { off := 0x11003C, fields := [⟨24, 0, .rw, 0x0⟩] }
def F.EVR_HOST_LEN_VALUE : Fld := ⟨0x11003C, 0x0, 0x0, 24, 0⟩
/-- recorder events. Set wins as R9 states. (16) -/
def R.EVR_INT_STATUS : RegD := { off := 0x110040, fields := [⟨2, 2, .w1c, 0x0⟩, ⟨1, 1, .w1c, 0x0⟩, ⟨0, 0, .w1c, 0x0⟩] }
def F.EVR_INT_STATUS_SPILL_STOPPED : Fld := ⟨0x110040, 0x0, 0x0, 2, 2⟩
def F.EVR_INT_STATUS_SUPPRESSED : Fld := ⟨0x110040, 0x0, 0x0, 1, 1⟩
def F.EVR_INT_STATUS_CMD_DONE : Fld := ⟨0x110040, 0x0, 0x0, 0, 0⟩
/-- interrupt enables. (16) -/
def R.EVR_INT_ENABLE : RegD := { off := 0x110044, fields := [⟨2, 0, .rw, 0x0⟩] }
def F.EVR_INT_ENABLE_ENABLE : Fld := ⟨0x110044, 0x0, 0x0, 2, 0⟩
/-- recorder counters. (16) -/
def R.EVR_CNT_n : RegD := { off := 0x110100, str := 0x4, cnt := 4, fields := [⟨31, 0, .ro, 0x0⟩] }
def F.EVR_CNT_n_COUNT : Fld := ⟨0x110100, 0x4, 0x0, 31, 0⟩
/-- forecast update. (16) -/
def R.HLT_CTRL : RegD := { off := 0x120000, fields := [⟨0, 0, .w1s, 0x0⟩] }
def F.HLT_CTRL_UPDATE : Fld := ⟨0x120000, 0x0, 0x0, 0, 0⟩
/-- live conditions (R459). (16) -/
def R.HLT_CONDITION : RegD := { off := 0x120004, fields := [⟨11, 11, .ro, 0x1⟩, ⟨10, 10, .ro, 0x0⟩, ⟨9, 9, .ro, 0x0⟩, ⟨8, 8, .ro, 0x0⟩, ⟨7, 7, .ro, 0x0⟩, ⟨6, 6, .ro, 0x0⟩, ⟨5, 5, .ro, 0x0⟩, ⟨4, 4, .ro, 0x0⟩, ⟨3, 3, .ro, 0x0⟩, ⟨2, 2, .ro, 0x0⟩, ⟨1, 1, .ro, 0x0⟩, ⟨0, 0, .ro, 0x0⟩] }
def F.HLT_CONDITION_TIME_UNTRUSTED : Fld := ⟨0x120004, 0x0, 0x0, 11, 11⟩
def F.HLT_CONDITION_THERMAL : Fld := ⟨0x120004, 0x0, 0x0, 10, 10⟩
def F.HLT_CONDITION_ENTROPY : Fld := ⟨0x120004, 0x0, 0x0, 9, 9⟩
def F.HLT_CONDITION_NO_STANDBY : Fld := ⟨0x120004, 0x0, 0x0, 8, 8⟩
def F.HLT_CONDITION_NONREVERTIVE : Fld := ⟨0x120004, 0x0, 0x0, 7, 7⟩
def F.HLT_CONDITION_DRILL_DUE : Fld := ⟨0x120004, 0x0, 0x0, 6, 6⟩
def F.HLT_CONDITION_VBAT_LOW : Fld := ⟨0x120004, 0x0, 0x0, 5, 5⟩
def F.HLT_CONDITION_RAKE_BEHIND : Fld := ⟨0x120004, 0x0, 0x0, 4, 4⟩
def F.HLT_CONDITION_JOURNAL_STALL : Fld := ⟨0x120004, 0x0, 0x0, 3, 3⟩
def F.HLT_CONDITION_OVERFLOW : Fld := ⟨0x120004, 0x0, 0x0, 2, 2⟩
def F.HLT_CONDITION_READ_ONLY : Fld := ⟨0x120004, 0x0, 0x0, 1, 1⟩
def F.HLT_CONDITION_SPARE_LOW : Fld := ⟨0x120004, 0x0, 0x0, 0, 0⟩
/-- junction temperature. (16) -/
def R.HLT_TEMP : RegD := { off := 0x120008, fields := [⟨31, 16, .ro, 0x0⟩, ⟨15, 0, .ro, 0x0⟩] }
def F.HLT_TEMP_TJ_MAX : Fld := ⟨0x120008, 0x0, 0x0, 31, 16⟩
def F.HLT_TEMP_TJ : Fld := ⟨0x120008, 0x0, 0x0, 15, 0⟩
/-- forecast policy. (16) -/
def R.HLT_WARN : RegD := { off := 0x12000C, fields := [⟨31, 16, .rw, 0x5A⟩, ⟨15, 0, .rw, 0xB4⟩] }
def F.HLT_WARN_WINDOW : Fld := ⟨0x12000C, 0x0, 0x0, 31, 16⟩
def F.HLT_WARN_DAYS : Fld := ⟨0x12000C, 0x0, 0x0, 15, 0⟩
/-- backup cell capacity. (16) -/
def R.HLT_CELL : RegD := { off := 0x120010, fields := [⟨31, 0, .rw, 0x0⟩] }
def F.HLT_CELL_CAPACITY : Fld := ⟨0x120010, 0x0, 0x0, 31, 0⟩
/-- monitor shown. (16) -/
def R.HLT_FC_SEL : RegD := { off := 0x120020, fields := [⟨2, 0, .rw, 0x0⟩] }
def F.HLT_FC_SEL_MONITOR : Fld := ⟨0x120020, 0x0, 0x0, 2, 0⟩
/-- selected forecast. (16) -/
def R.HLT_FC_EST : RegD := { off := 0x120024, fields := [⟨31, 31, .ro, 0x0⟩, ⟨19, 0, .ro, 0xFFFFF⟩] }
def F.HLT_FC_EST_VALID : Fld := ⟨0x120024, 0x0, 0x0, 31, 31⟩
def F.HLT_FC_EST_DAYS : Fld := ⟨0x120024, 0x0, 0x0, 19, 0⟩
/-- selected band. (16) -/
def R.HLT_FC_BAND : RegD := { off := 0x120028, fields := [⟨31, 16, .ro, 0xFFFF⟩, ⟨15, 0, .ro, 0xFFFF⟩] }
def F.HLT_FC_BAND_HIGH : Fld := ⟨0x120028, 0x0, 0x0, 31, 16⟩
def F.HLT_FC_BAND_LOW : Fld := ⟨0x120028, 0x0, 0x0, 15, 0⟩
/-- selected limit. (16) -/
def R.HLT_FC_LIMIT : RegD := { off := 0x12002C, fields := [⟨31, 0, .rw, 0x0⟩] }
def F.HLT_FC_LIMIT_LIMIT : Fld := ⟨0x12002C, 0x0, 0x0, 31, 0⟩
/-- selected measure against its limit. (16) -/
def R.HLT_FC_USED : RegD := { off := 0x120030, fields := [⟨31, 0, .ro, 0x0⟩] }
def F.HLT_FC_USED_PPM : Fld := ⟨0x120030, 0x0, 0x0, 31, 0⟩
/-- health events. Set wins as R9 states. (16) -/
def R.HLT_INT_STATUS : RegD := { off := 0x120040, fields := [⟨2, 2, .w1c, 0x0⟩, ⟨1, 1, .w1c, 0x0⟩, ⟨0, 0, .w1c, 0x0⟩] }
def F.HLT_INT_STATUS_CONDITION_CHANGE : Fld := ⟨0x120040, 0x0, 0x0, 2, 2⟩
def F.HLT_INT_STATUS_FORECAST_WARN : Fld := ⟨0x120040, 0x0, 0x0, 1, 1⟩
def F.HLT_INT_STATUS_UPDATED : Fld := ⟨0x120040, 0x0, 0x0, 0, 0⟩
/-- interrupt enables. (16) -/
def R.HLT_INT_ENABLE : RegD := { off := 0x120044, fields := [⟨2, 0, .rw, 0x0⟩] }
def F.HLT_INT_ENABLE_ENABLE : Fld := ⟨0x120044, 0x0, 0x0, 2, 0⟩
/-- identity. (17) -/
def R.GLB_ID : RegD := { off := 0x0, fields := [⟨31, 16, .ro, 0x9610⟩, ⟨7, 0, .ro, 0xB0⟩] }
def F.GLB_ID_DEVICE : Fld := ⟨0x0, 0x0, 0x0, 31, 16⟩
def F.GLB_ID_REVISION : Fld := ⟨0x0, 0x0, 0x0, 7, 0⟩
/-- device serial, as PCIe Device Serial Number reports it. (17) -/
def R.GLB_SERIAL_LO : RegD := { off := 0x4, fields := [⟨31, 0, .ro, 0x0⟩] }
def F.GLB_SERIAL_LO_SERIAL : Fld := ⟨0x4, 0x0, 0x0, 31, 0⟩
/-- device serial, as PCIe Device Serial Number reports it. (17) -/
def R.GLB_SERIAL_HI : RegD := { off := 0x8, fields := [⟨31, 0, .ro, 0x0⟩] }
def F.GLB_SERIAL_HI_SERIAL : Fld := ⟨0x8, 0x0, 0x0, 31, 0⟩
/-- ordering code. (17) -/
def R.GLB_GRADE : RegD := { off := 0xC, fields := [⟨15, 8, .ro, 0x0⟩, ⟨0, 0, .ro, 0x0⟩] }
def F.GLB_GRADE_TJ_MAX : Fld := ⟨0xC, 0x0, 0x0, 15, 8⟩
def F.GLB_GRADE_GRADE : Fld := ⟨0xC, 0x0, 0x0, 0, 0⟩
/-- start-up state. (17) -/
def R.GLB_BOOT : RegD := { off := 0x10, fields := [⟨31, 29, .ro, 0x0⟩, ⟨28, 24, .ro, 0x2⟩, ⟨23, 20, .ro, 0x0⟩, ⟨15, 0, .ro, 0x0⟩] }
def F.GLB_BOOT_STATE : Fld := ⟨0x10, 0x0, 0x0, 31, 29⟩
def F.GLB_BOOT_STEP : Fld := ⟨0x10, 0x0, 0x0, 28, 24⟩
def F.GLB_BOOT_HALT_CAUSE : Fld := ⟨0x10, 0x0, 0x0, 23, 20⟩
def F.GLB_BOOT_READY_MS : Fld := ⟨0x10, 0x0, 0x0, 15, 0⟩
/-- self-test failures of step 4. (17) -/
def R.GLB_SELFTEST : RegD := { off := 0x14, fields := [⟨6, 0, .ro, 0x0⟩] }
def F.GLB_SELFTEST_FAILED : Fld := ⟨0x14, 0x0, 0x0, 6, 0⟩
/-- cause of the last reset. (17) -/
def R.GLB_RESET_CAUSE : RegD := { off := 0x18, fields := [⟨5, 5, .w1c, 0x0⟩, ⟨4, 4, .w1c, 0x0⟩, ⟨3, 3, .w1c, 0x0⟩, ⟨2, 2, .w1c, 0x0⟩, ⟨1, 1, .w1c, 0x0⟩, ⟨0, 0, .w1c, 0x0⟩] }
def F.GLB_RESET_CAUSE_RESTART : Fld := ⟨0x18, 0x0, 0x0, 5, 5⟩
def F.GLB_RESET_CAUSE_THERMAL_TRIP : Fld := ⟨0x18, 0x0, 0x0, 4, 4⟩
def F.GLB_RESET_CAUSE_PWRGOOD_LOSS : Fld := ⟨0x18, 0x0, 0x0, 3, 3⟩
def F.GLB_RESET_CAUSE_RESET_N : Fld := ⟨0x18, 0x0, 0x0, 2, 2⟩
def F.GLB_RESET_CAUSE_WARNED : Fld := ⟨0x18, 0x0, 0x0, 1, 1⟩
def F.GLB_RESET_CAUSE_POWER_ON : Fld := ⟨0x18, 0x0, 0x0, 0, 0⟩
/-- PLLs and memory rate. (17) -/
def R.GLB_CLOCK : RegD := { off := 0x1C, fields := [⟨31, 31, .ro, 0x0⟩, ⟨30, 30, .ro, 0x0⟩, ⟨29, 29, .ro, 0x0⟩, ⟨28, 28, .ro, 0x0⟩, ⟨15, 0, .ro, 0x0⟩] }
def F.GLB_CLOCK_ROOT_LOCK : Fld := ⟨0x1C, 0x0, 0x0, 31, 31⟩
def F.GLB_CLOCK_DDR_LOCK : Fld := ⟨0x1C, 0x0, 0x0, 30, 30⟩
def F.GLB_CLOCK_PCIE_LOCK : Fld := ⟨0x1C, 0x0, 0x0, 29, 29⟩
def F.GLB_CLOCK_SD_LOCK : Fld := ⟨0x1C, 0x0, 0x0, 28, 28⟩
def F.GLB_CLOCK_DDR_RATE : Fld := ⟨0x1C, 0x0, 0x0, 15, 0⟩
/-- LPDDR5 found at training. (17) -/
def R.GLB_MEM : RegD := { off := 0x20, fields := [⟨15, 8, .ro, 0x0⟩, ⟨7, 0, .ro, 0x0⟩] }
def F.GLB_MEM_CH1 : Fld := ⟨0x20, 0x0, 0x0, 15, 8⟩
def F.GLB_MEM_CH0 : Fld := ⟨0x20, 0x0, 0x0, 7, 0⟩
/-- general-purpose pins (R480). (17) -/
def R.GLB_GPIO_OE : RegD := { off := 0x30, fields := [⟨15, 0, .rw, 0x0⟩] }
def F.GLB_GPIO_OE_PINS : Fld := ⟨0x30, 0x0, 0x0, 15, 0⟩
/-- general-purpose pins (R480). (17) -/
def R.GLB_GPIO_OUT : RegD := { off := 0x34, fields := [⟨15, 0, .rw, 0x0⟩] }
def F.GLB_GPIO_OUT_PINS : Fld := ⟨0x34, 0x0, 0x0, 15, 0⟩
/-- general-purpose pins (R480). (17) -/
def R.GLB_GPIO_IN : RegD := { off := 0x38, fields := [⟨15, 0, .ro, 0x0⟩] }
def F.GLB_GPIO_IN_PINS : Fld := ⟨0x38, 0x0, 0x0, 15, 0⟩
/-- start-up events. Set wins as R9 states. (17) -/
def R.GLB_INT_STATUS : RegD := { off := 0x40, fields := [⟨2, 2, .w1c, 0x0⟩, ⟨1, 1, .w1c, 0x0⟩, ⟨0, 0, .w1c, 0x0⟩] }
def F.GLB_INT_STATUS_BODY_LOST : Fld := ⟨0x40, 0x0, 0x0, 2, 2⟩
def F.GLB_INT_STATUS_HALTED : Fld := ⟨0x40, 0x0, 0x0, 1, 1⟩
def F.GLB_INT_STATUS_READY : Fld := ⟨0x40, 0x0, 0x0, 0, 0⟩
/-- interrupt enables. (17) -/
def R.GLB_INT_ENABLE : RegD := { off := 0x44, fields := [⟨2, 0, .rw, 0x0⟩] }
def F.GLB_INT_ENABLE_ENABLE : Fld := ⟨0x44, 0x0, 0x0, 2, 0⟩

def R.blockTRL0 : List RegD := [R.TRL_STATUS, R.TRL_CTRL, R.TRL_CMD, R.TRL_CMD_STATUS, R.TRL_HOST_ADDR_LO, R.TRL_HOST_ADDR_HI, R.TRL_HOST_LEN, R.TRL_BUILD_LO]
def R.blockTRL1 : List RegD := [R.TRL_BUILD_HI, R.TRL_SECVER, R.TRL_INT_STATUS, R.TRL_INT_ENABLE, R.TRL_GEN_n, R.TRL_SLOT_STATUS, R.TRL_SLOT_AT_LO, R.TRL_SLOT_AT_HI]
def R.blockTRL2 : List RegD := [R.TRL_SLOT_GEN]
/-- The registers of block TRL. -/
def R.blockTRL : List RegD := R.blockTRL0 ++ R.blockTRL1 ++ R.blockTRL2
def R.blockFHM0 : List RegD := [R.FHM_CTRL, R.FHM_STATUS, R.FHM_NET_EUI_LO, R.FHM_NET_EUI_HI, R.FHM_IE_ID, R.FHM_CSMA, R.FHM_LEAD, R.FHM_HEAD_CFG]
def R.blockFHM1 : List RegD := [R.FHM_RXWIN, R.FHM_WAKE, R.FHM_GUARD, R.FHM_DRIFT, R.FHM_SF, R.FHM_SF_CTRL, R.FHM_MODE_CMD, R.FHM_HEAD_CMD]
def R.blockFHM2 : List RegD := [R.FHM_HEAD_EUI_LO, R.FHM_HEAD_EUI_HI, R.FHM_HEAD_SEL, R.FHM_HEAD_STATE, R.FHM_HEAD_TIMING, R.FHM_HEAD_LEAD, R.FHM_INT_STATUS, R.FHM_INT_ENABLE]
def R.blockFHM3 : List RegD := [R.FHM_CNT_n]
/-- The registers of block FHM. -/
def R.blockFHM : List RegD := R.blockFHM0 ++ R.blockFHM1 ++ R.blockFHM2 ++ R.blockFHM3
def R.blockZXP0 : List RegD := [R.ZXP_CTRL, R.ZXP_STATUS, R.ZXP_CYCLE, R.ZXP_CYCLE_HI, R.ZXP_ZC_NS, R.ZXP_ZC_SEC_LO, R.ZXP_ZC_SEC_HI, R.ZXP_PERIOD]
def R.blockZXP1 : List RegD := [R.ZXP_TX_TIME, R.ZXP_RX_TIME, R.ZXP_STEP, R.ZXP_SCHED, R.ZXP_ROUND, R.ZXP_ASSIGN, R.ZXP_ASSIGN_SLOT, R.ZXP_INT_STATUS]
def R.blockZXP2 : List RegD := [R.ZXP_INT_ENABLE, R.ZXP_FAULT, R.ZXP_CNT_n]
/-- The registers of block ZXP. -/
def R.blockZXP : List RegD := R.blockZXP0 ++ R.blockZXP1 ++ R.blockZXP2
def R.blockMSR0 : List RegD := [R.MSR_CTRL, R.MSR_STATUS, R.MSR_CHAIN, R.MSR_SHIFT, R.MSR_DELAY, R.MSR_FAST_DELAY, R.MSR_SETTLE, R.MSR_PHASE_BASE]
def R.blockMSR1 : List RegD := [R.MSR_DT, R.MSR_SWAP, R.MSR_SWAP_STATUS, R.MSR_COEF_SEL, R.MSR_COEF_DATA, R.MSR_MOD_STATUS, R.MSR_MOD_CAUSE, R.MSR_MOD_SEL]
def R.blockMSR2 : List RegD := [R.MSR_MOD_SERIAL_LO, R.MSR_MOD_SERIAL_HI, R.MSR_INT_STATUS, R.MSR_INT_ENABLE, R.MSR_FDR_LATCH, R.MSR_FDR_E_n_LO, R.MSR_FDR_E_n_HI, R.MSR_FDR_INVALID]
def R.blockMSR3 : List RegD := [R.MSR_FDR_FLAGS, R.MSR_CH_STATUS, R.MSR_CH_SAT, R.MSR_CH_GAIN, R.MSR_CH_PHASE, R.MSR_CH_TRIM, R.MSR_CH_SAMPLE, R.MSR_CH_RMS]
def R.blockMSR4 : List RegD := [R.MSR_CH_INVALID]
/-- The registers of block MSR. -/
def R.blockMSR : List RegD := R.blockMSR0 ++ R.blockMSR1 ++ R.blockMSR2 ++ R.blockMSR3 ++ R.blockMSR4
def R.blockING0 : List RegD := [R.ING_CTRL, R.ING_STATUS, R.ING_TIMEOUT, R.ING_TS, R.ING_RECORD, R.ING_LAST_REJECT, R.ING_INT_STATUS, R.ING_INT_ENABLE]
def R.blockING1 : List RegD := [R.ING_CNT_n]
/-- The registers of block ING. -/
def R.blockING : List RegD := R.blockING0 ++ R.blockING1
def R.blockCTX0 : List RegD := [R.CTX_CTRL, R.CTX_STATUS, R.CTX_CACHE, R.CTX_PINNED, R.CTX_KEYS, R.CTX_CMD, R.CTX_RESULT_INDEX, R.CTX_ADDR_LO]
def R.blockCTX1 : List RegD := [R.CTX_ADDR_HI, R.CTX_ALLOC_CFG, R.CTX_ALLOC_M, R.CTX_ALLOC_A, R.CTX_WAIT_A, R.CTX_WAIT_B, R.CTX_WAIT_C, R.CTX_PIN]
def R.blockCTX2 : List RegD := [R.CTX_KEY_AGE, R.CTX_INT_STATUS, R.CTX_INT_ENABLE, R.CTX_CNT_n, R.CTX_ARB_GRANT_p, R.CTX_ARB_MAXWAIT_p]
/-- The registers of block CTX. -/
def R.blockCTX : List RegD := R.blockCTX0 ++ R.blockCTX1 ++ R.blockCTX2
def R.blockBIL0 : List RegD := [R.BIL_CTRL, R.BIL_STATUS, R.BIL_CLOSE, R.BIL_HISTORY, R.BIL_TOL, R.BIL_OUTAGE, R.BIL_CAL_SEL, R.BIL_CAL_STATE]
def R.blockBIL1 : List RegD := [R.BIL_CAL_NEXT_LO, R.BIL_CAL_NEXT_HI, R.BIL_CAL_CLOSED, R.BIL_CAL_CLOSED_AT_LO, R.BIL_CAL_CLOSED_AT_HI, R.BIL_CAL_SWEEP, R.BIL_INT_STATUS, R.BIL_INT_ENABLE]
def R.blockBIL2 : List RegD := [R.BIL_CNT_n]
/-- The registers of block BIL. -/
def R.blockBIL : List RegD := R.blockBIL0 ++ R.blockBIL1 ++ R.blockBIL2
def R.blockBAL0 : List RegD := [R.BAL_CTRL, R.BAL_STATUS, R.BAL_LAST_B_LO, R.BAL_LAST_B_HI, R.BAL_RANK_CFG, R.BAL_ZONE_PPM, R.BAL_NEUTRAL, R.BAL_TAMPER_CODE_k]
def R.blockBAL1 : List RegD := [R.BAL_CMD, R.BAL_CMD_ZONE, R.BAL_INT_STATUS, R.BAL_INT_ENABLE, R.BAL_Q_STATUS, R.BAL_Q_RESID_LO, R.BAL_Q_RESID_HI, R.BAL_Q_CHECK_LO]
def R.blockBAL2 : List RegD := [R.BAL_Q_CHECK_HI, R.BAL_Q_LOSS, R.BAL_Q_MEAN, R.BAL_Q_MEMBERS, R.BAL_M_STATE, R.BAL_M_U, R.BAL_M_MISSED, R.BAL_M_TAMPER_COUNT_k]
def R.blockBAL3 : List RegD := [R.BAL_M_TAMPER_FIRST_LO_k, R.BAL_M_TAMPER_LAST_LO_k, R.BAL_M_TAMPER_HI_k, R.BAL_RANK_n_METER, R.BAL_RANK_n_U, R.BAL_CNT_n]
/-- The registers of block BAL. -/
def R.blockBAL : List RegD := R.blockBAL0 ++ R.blockBAL1 ++ R.blockBAL2 ++ R.blockBAL3
def R.blockDST0 : List RegD := [R.DST_CTRL, R.DST_STATUS, R.DST_CMD, R.DST_HOST_ADDR_LO, R.DST_HOST_ADDR_HI, R.DST_HOST_LEN, R.DST_TIMING, R.DST_LIMITS]
def R.blockDST1 : List RegD := [R.DST_INT_STATUS, R.DST_INT_ENABLE, R.DST_C_ID, R.DST_C_CFG, R.DST_C_START_LO, R.DST_C_START_HI, R.DST_C_ACT_LO, R.DST_C_ACT_HI]
def R.blockDST2 : List RegD := [R.DST_C_VERSION, R.DST_C_STATE, R.DST_C_HASH_n, R.DST_C_COUNT_s, R.DST_CNT_n]
/-- The registers of block DST. -/
def R.blockDST : List RegD := R.blockDST0 ++ R.blockDST1 ++ R.blockDST2
def R.blockKEY0 : List RegD := [R.KEY_CTRL, R.KEY_STATUS, R.KEY_SLOTS, R.KEY_CMD, R.KEY_CMD_ARG, R.KEY_KEK, R.KEY_HOST_ADDR_LO, R.KEY_HOST_ADDR_HI]
def R.blockKEY1 : List RegD := [R.KEY_KCV, R.KEY_SLOT_SEL, R.KEY_SLOT_INFO, R.KEY_BCAST, R.KEY_BCAST_AT_LO, R.KEY_BCAST_AT_HI, R.KEY_REWRAP, R.KEY_INT_STATUS]
def R.blockKEY2 : List RegD := [R.KEY_INT_ENABLE, R.KEY_PUB_n, R.KEY_CNT_n]
/-- The registers of block KEY. -/
def R.blockKEY : List RegD := R.blockKEY0 ++ R.blockKEY1 ++ R.blockKEY2
def R.blockTSU0 : List RegD := [R.TSU_CTRL, R.TSU_STATUS, R.TSU_TIME_FRAC, R.TSU_TIME_NS, R.TSU_TIME_SEC_LO, R.TSU_TIME_SEC_HI, R.TSU_INCR_INT, R.TSU_INCR_FRAC]
def R.blockTSU1 : List RegD := [R.TSU_ADJ_NS, R.TSU_ADJ_SEC, R.TSU_ADJ_CMD, R.TSU_SERVO, R.TSU_LOCK, R.TSU_PTP_CFG, R.TSU_UTC, R.TSU_OFFSET]
def R.blockTSU2 : List RegD := [R.TSU_MPD, R.TSU_FREQ, R.TSU_PPS_OUT, R.TSU_PPS_IN_NS, R.TSU_PPS_IN_SEC_LO, R.TSU_PPS_IN_SEC_HI, R.TSU_PPS_IN_COMP, R.TSU_CLO_CMD]
def R.blockTSU3 : List RegD := [R.TSU_CLO_RESULT_LO, R.TSU_CLO_RESULT_HI, R.TSU_INT_STATUS, R.TSU_INT_ENABLE, R.TSU_CNT_n, R.TSU_Pn_CFG, R.TSU_Pn_TX_COMP, R.TSU_Pn_RX_COMP]
def R.blockTSU4 : List RegD := [R.TSU_Pn_ASYM, R.TSU_Pn_STATE, R.TSU_Pn_PDELAY]
/-- The registers of block TSU. -/
def R.blockTSU : List RegD := R.blockTSU0 ++ R.blockTSU1 ++ R.blockTSU2 ++ R.blockTSU3 ++ R.blockTSU4
def R.blockETH0 : List RegD := [R.ETH_n_CTRL, R.ETH_n_STATUS, R.ETH_n_MAC_LO, R.ETH_n_MAC_HI, R.ETH_n_ROUTER_LO, R.ETH_n_ROUTER_HI, R.ETH_n_IP6_k, R.ETH_n_IP6_CFG]
def R.blockETH1 : List RegD := [R.ETH_n_IP4, R.ETH_n_INT_STATUS, R.ETH_n_INT_ENABLE, R.ETH_n_CNT_k_LO, R.ETH_n_CNT_k_HI]
/-- The registers of block ETH. -/
def R.blockETH : List RegD := R.blockETH0 ++ R.blockETH1
def R.blockNFM0 : List RegD := [R.NFM_CTRL, R.NFM_STATUS, R.NFM_CMD, R.NFM_HOST_ADDR_LO, R.NFM_HOST_ADDR_HI, R.NFM_HOST_LEN, R.NFM_ARCH_SEQ_LO, R.NFM_ARCH_SEQ_HI]
def R.blockNFM1 : List RegD := [R.NFM_ARCH_OLDEST_LO, R.NFM_ARCH_OLDEST_HI, R.NFM_PART_0, R.NFM_PART_1, R.NFM_PART_2, R.NFM_PART_3, R.NFM_RAKE, R.NFM_WEAR]
def R.blockNFM2 : List RegD := [R.NFM_PE_RATED, R.NFM_RETRY, R.NFM_RT_SEL, R.NFM_RT_DATA_LO, R.NFM_RT_DATA_HI, R.NFM_SPARES, R.NFM_INT_STATUS, R.NFM_INT_ENABLE]
def R.blockNFM3 : List RegD := [R.NFM_CNT_n, R.NFM_CH_STATUS, R.NFM_CH_SPARES_k, R.NFM_CH_PE_k]
/-- The registers of block NFM. -/
def R.blockNFM : List RegD := R.blockNFM0 ++ R.blockNFM1 ++ R.blockNFM2 ++ R.blockNFM3
def R.blockJNL0 : List RegD := [R.JNL_CTRL, R.JNL_STATUS, R.JNL_CKPT, R.JNL_LINE_LO, R.JNL_LINE_HI, R.JNL_CKPT_LINE_LO, R.JNL_CKPT_LINE_HI, R.JNL_OVERFLOW]
def R.blockJNL1 : List RegD := [R.JNL_WEAR, R.JNL_REPLAY, R.JNL_INT_STATUS, R.JNL_INT_ENABLE, R.JNL_CNT_n]
/-- The registers of block JNL. -/
def R.blockJNL : List RegD := R.blockJNL0 ++ R.blockJNL1
def R.blockCLO0 : List RegD := [R.CLO_CTRL, R.CLO_STATUS, R.CLO_TIME_LO, R.CLO_TIME_HI, R.CLO_TICK_SET_LO, R.CLO_TICK_SET_HI, R.CLO_TRIM, R.CLO_VBAT]
def R.blockCLO1 : List RegD := [R.CLO_CHARGE, R.CLO_ALARM_n_LO, R.CLO_ALARM_n_HI, R.CLO_ALARM_CTRL, R.CLO_TAMP_LOCK, R.CLO_TAMPER, R.CLO_TAMPER_LATCH, R.CLO_TREC_SEL]
def R.blockCLO2 : List RegD := [R.CLO_TREC_COUNT, R.CLO_TREC_FIRST_LO, R.CLO_TREC_LAST_LO, R.CLO_TREC_HI, R.CLO_BKP_n, R.CLO_TAMP_CFG_0, R.CLO_TAMP_CFG_10, R.CLO_TAMP_CFG_12]
def R.blockCLO3 : List RegD := [R.CLO_INT_STATUS, R.CLO_INT_ENABLE]
/-- The registers of block CLO. -/
def R.blockCLO : List RegD := R.blockCLO0 ++ R.blockCLO1 ++ R.blockCLO2 ++ R.blockCLO3
def R.blockPRL0 : List RegD := [R.PRL_CTRL, R.PRL_STATUS, R.PRL_SIDEBAND, R.PRL_PAIR_CFG, R.PRL_HOLDOFF, R.PRL_PROBATION, R.PRL_CMD, R.PRL_CAUSE]
def R.blockPRL1 : List RegD := [R.PRL_TAKEOVER_LO, R.PRL_TAKEOVER_HI, R.PRL_DRILL, R.PRL_HOST_BEAT, R.PRL_MIRROR, R.PRL_CONFIRMED_LO, R.PRL_CONFIRMED_HI, R.PRL_RESYNC]
def R.blockPRL2 : List RegD := [R.PRL_INT_STATUS, R.PRL_INT_ENABLE, R.PRL_CNT_n, R.PRL_L_STATUS, R.PRL_L_CNT_n]
/-- The registers of block PRL. -/
def R.blockPRL : List RegD := R.blockPRL0 ++ R.blockPRL1 ++ R.blockPRL2
def R.blockRNG0 : List RegD := [R.RNG_CTRL, R.RNG_CERTS, R.RNG_REQ_TIMEOUT, R.RNG_INT_STATUS, R.RNG_INT_ENABLE, R.RNG_CNT_n, R.RNG_n_CFG, R.RNG_n_IRQ]
def R.blockRNG1 : List RegD := [R.RNG_n_STATUS, R.RNG_n_PTR, R.RNG_n_OLDEST, R.RNG_n_MARK, R.RNG_n_DATA, R.RNG_n_CMD, R.RNG_n_HBUF_LO, R.RNG_n_HBUF_HI]
def R.blockRNG2 : List RegD := [R.RNG_n_WB_LO, R.RNG_n_WB_HI, R.RNG_n_HSIZE, R.RNG_n_HWR, R.RNG_n_HRD, R.RNG_n_CONFIRM_LO, R.RNG_n_CONFIRM_HI, R.RNG_n_DROPS]
/-- The registers of block RNG. -/
def R.blockRNG : List RegD := R.blockRNG0 ++ R.blockRNG1 ++ R.blockRNG2
def R.blockEVR0 : List RegD := [R.EVR_CTRL, R.EVR_STATUS, R.EVR_SEQ_LO, R.EVR_SEQ_HI, R.EVR_ARCH_SEQ_LO, R.EVR_ARCH_SEQ_HI, R.EVR_WIN_BASE, R.EVR_SUMMARY]
def R.blockEVR1 : List RegD := [R.EVR_CODE_SEL, R.EVR_CODE_SUPP, R.EVR_CMD, R.EVR_HOST_ADDR_LO, R.EVR_HOST_ADDR_HI, R.EVR_HOST_LEN, R.EVR_INT_STATUS, R.EVR_INT_ENABLE]
def R.blockEVR2 : List RegD := [R.EVR_CNT_n]
/-- The registers of block EVR. -/
def R.blockEVR : List RegD := R.blockEVR0 ++ R.blockEVR1 ++ R.blockEVR2
def R.blockHLT0 : List RegD := [R.HLT_CTRL, R.HLT_CONDITION, R.HLT_TEMP, R.HLT_WARN, R.HLT_CELL, R.HLT_FC_SEL, R.HLT_FC_EST, R.HLT_FC_BAND]
def R.blockHLT1 : List RegD := [R.HLT_FC_LIMIT, R.HLT_FC_USED, R.HLT_INT_STATUS, R.HLT_INT_ENABLE]
/-- The registers of block HLT. -/
def R.blockHLT : List RegD := R.blockHLT0 ++ R.blockHLT1
def R.blockGLB0 : List RegD := [R.GLB_ID, R.GLB_SERIAL_LO, R.GLB_SERIAL_HI, R.GLB_GRADE, R.GLB_BOOT, R.GLB_SELFTEST, R.GLB_RESET_CAUSE, R.GLB_CLOCK]
def R.blockGLB1 : List RegD := [R.GLB_MEM, R.GLB_GPIO_OE, R.GLB_GPIO_OUT, R.GLB_GPIO_IN, R.GLB_INT_STATUS, R.GLB_INT_ENABLE]
/-- The registers of block GLB. -/
def R.blockGLB : List RegD := R.blockGLB0 ++ R.blockGLB1

/-- The registers of the block whose offset bits 23:16 are `b` (the block table of R432). -/
def R.ofBlock : Nat → List RegD
  | 0x1 => R.blockTRL
  | 0x5 => R.blockFHM
  | 0x6 => R.blockZXP
  | 0x7 => R.blockMSR
  | 0x4 => R.blockING
  | 0x3 => R.blockCTX
  | 0x8 => R.blockBIL
  | 0x9 => R.blockBAL
  | 0xA => R.blockDST
  | 0xB => R.blockKEY
  | 0xC => R.blockTSU
  | 0x13 => R.blockETH
  | 0xD => R.blockNFM
  | 0xE => R.blockJNL
  | 0xF => R.blockCLO
  | 0x10 => R.blockPRL
  | 0x2 => R.blockRNG
  | 0x11 => R.blockEVR
  | 0x12 => R.blockHLT
  | 0x0 => R.blockGLB
  | _ => []

end Sys2Proof
end

