-- ==== Sys2Proof/Machine/State.lean ====
section
/-! DEFINITION. The block's state: plain data that holds everything the spec gives the machine, and the queue of waiting
commands. -/

namespace Sys2Proof.Machine

/-- Why a step could fault. Raised by no meaning: the spec gives every command an effect. Safe. -/
inductive Fault where
  /-- Raised by no command; it stands for a stop that hardware might add. Safe: no statement rests on it. -/
  | halted
  deriving DecidableEq, Repr

/-- Why a step could be refused. -/
inductive Refusal where
  /-- A command that the model does not cover, by its mnemonic: raised by an arm of `exec` only. Safe. -/
  | notModelled (mnemonic : String)
  deriving DecidableEq, Repr

/-- What the host interface can touch in one event: the registers that differ from their reset word, by BAR0 offset;
rings, recorder and MSI-X; and what has left the device, the latest first. -/
structure Face where
  regs : List (Nat × Word) := []
  hst : HostIf := {}
  out : List Out := []
  /-- R462: what counters have counted in this CORE_CLK cycle, by register offset: a clear of that cycle applies first. The
  model's own. -/
  counted : List (Nat × Nat) := []
  deriving DecidableEq, Repr

/-- Everything the spec gives the block. -/
structure Dev where
  face : Face := {}
  /-- CORE_CLK cycles since State.reset. The model's own: it times Prune and the 1 µs of R433. -/
  cycles : Nat := 0
  /-- Free values drawn so far. The model's own: it numbers the values the spec leaves open (log entry 2). -/
  free : Nat := 0
  /-- The word the last read command returned to the host. -/
  lastRead : Word := 0
  glb : Glb := {}
  trl : TrlRt := {}
  tsu : Tsu := {}
  eth : List (Nat × EthPort) := []
  fhm : Fhm := {}
  dst : Dst := {}
  eng : Engine := {}
  bil : BilRt := {}
  key : KeyBlk := {}
  dur : Dur := {}
  jnl : Journal := {}
  nfm : Nand := {}
  clo : Clo := {}
  prl : Prl := {}
  zxp : Zxp := {}
  msr : Msr := {}
  deriving DecidableEq, Repr

/-- The block and its queue of commands, first in, first out. -/
structure State where
  pending : List Instr := []
  dev : Dev := {}
  deriving DecidableEq, Repr

/-- The device after a power-on's RESET_N release: every register at its reset word, a new device's memories, the cause
POWER_ON recorded, start-up at step 2. -/
def Dev.reset : Dev := { face := { regs := [(0x18, 1)] } }

/-- The block right after reset, nothing waiting. -/
def State.reset : State := { dev := Dev.reset }

/-- What a command answers. -/
abbrev Answer := Host.Outcome State Fault Refusal

/-- The outcome of a command whose effect on the device is `f`. -/
def State.on (s : State) (f : Dev → Dev) : Answer := .next { s with dev := f s.dev }

end Sys2Proof.Machine
end

