-- ==== Sys2Proof/Machine/Ops.lean ====
section
/-! DEFINITION. The named operations over registers, counters, MSI-X messages and rings. An operation on the face
(registers, host interface, output) is written on `Face` and lifted, so that what it cannot touch is plain. -/

namespace Sys2Proof.Machine

/-! ## Registers -/

/-- The register of the tables at a BAR0 offset. -/
def regAt? (off : Nat) : Option RegD := (R.ofBlock (off / 65536)).find? (·.covers off)

/-- The word a reset leaves at an offset. -/
def resetWord (off : Nat) : Word :=
  match regAt? off with
  | some r => BitVec.ofNat 32 (resetOf r.fields)
  | none => 0

/-- The word a register holds. -/
def Face.reg (f : Face) (off : Nat) : Word := Maps.getD f.regs off (resetWord off)

/-- Store a word: the store lists a register only where it differs from its reset word. -/
def Face.setReg (f : Face) (off : Nat) (w : Word) : Face :=
  { f with regs := if w = resetWord off then Maps.del off f.regs else Maps.put f.regs off w }

/-- A field's value. -/
def Face.get (f : Face) (x : Fld) : Nat := bitsOf (f.reg x.off) x.hi x.lo

/-- Set a field. -/
def Face.set (f : Face) (x : Fld) (v : Nat) : Face := f.setReg x.off (withBits (f.reg x.off) x.hi x.lo v)

/-- R9: note bits of a register that hardware sets in this CORE_CLK cycle. -/
def Face.noteSet (f : Face) (cycles off bits : Nat) : Face :=
  let now := if f.hst.setAt = cycles then f.hst.setNow else []
  { f with hst := { f.hst with setAt := cycles, setNow := Maps.put now off (Maps.getD now off 0 ||| bits) } }

/-- Hardware sets a W1C field, or bits of one (R9). -/
def Face.setW1c (f : Face) (cycles : Nat) (x : Fld) (v : Nat) : Face :=
  (f.set x (f.get x ||| v)).noteSet cycles x.off (v <<< x.lo)

/-- R462: note what a counter counts in this cycle. -/
def Face.note (f : Face) (off n : Nat) : Face := { f with counted := Maps.put f.counted off (Maps.getD f.counted off 0 + n) }

/-- Add to a saturating counter (R460). -/
def Face.add (f : Face) (off n : Nat) : Face := (f.setReg off (BitVec.ofNat 32 (satNat 32 ((f.reg off).toNat + n)))).note off n

/-- R461, R462: clear a counter; what it counts in the same cycle counts on from zero. -/
def Face.clearCount (f : Face) (off : Nat) : Face := f.setReg off (BitVec.ofNat 32 (satNat 32 (Maps.getD f.counted off 0)))

/-- Emit to the outside. -/
def Face.emit (f : Face) (o : Out) : Face := { f with out := o :: f.out }

def Dev.reg (d : Dev) (off : Nat) : Word := d.face.reg off
def Dev.setReg (d : Dev) (off : Nat) (w : Word) : Dev := { d with face := d.face.setReg off w }
def Dev.get (d : Dev) (x : Fld) : Nat := d.face.get x
def Dev.set (d : Dev) (x : Fld) (v : Nat) : Dev := { d with face := d.face.set x v }
def Dev.emit (d : Dev) (o : Out) : Dev := { d with face := d.face.emit o }

/-- Hardware sets a W1C field, or bits of one (R9). -/
def Dev.setW1c (d : Dev) (x : Fld) (v : Nat) : Dev := { d with face := d.face.setW1c d.cycles x v }

/-- The bits of the register at `off` that hardware has set in this CORE_CLK cycle: a clear of them loses (R9). -/
def Dev.setNow (d : Dev) (off : Nat) : Word :=
  if d.face.hst.setAt = d.cycles then BitVec.ofNat 32 (Maps.getD d.face.hst.setNow off 0) else 0

/-- A register field as a signed number. -/
def Dev.signedFld (d : Dev) (x : Fld) : Int := signed (x.hi + 1 - x.lo) (d.get x)

/-- Set a field to a signed number, saturating (R326, TSU registers). -/
def Dev.setSat (d : Dev) (x : Fld) (v : Int) : Dev := d.set x (pattern 32 (satInt (x.hi + 1 - x.lo) v))

/-- A field read as a flag. -/
def Dev.flag (d : Dev) (x : Fld) : Bool := decide (d.get x ≠ 0)

/-- Count one event in counter `i` of a block. -/
def Dev.count (d : Dev) (r : RegD) (i : Nat) : Dev := { d with face := d.face.add (r.at i) 1 }

/-- R462: note what a counter that stands outside the registers counts in this cycle. -/
def Dev.noteCount (d : Dev) (off n : Nat) : Dev := { d with face := d.face.note off n }

/-- R461, R462: clear a counter register. -/
def Dev.clearCount (d : Dev) (off : Nat) : Dev := { d with face := d.face.clearCount off }

/-- Count `n` events. -/
def Dev.countBy (d : Dev) (r : RegD) (i n : Nat) : Dev := { d with face := d.face.add (r.at i) n }

/-- A 64-bit value across a LO and a HI register. -/
def Dev.wide (d : Dev) (lo hi : RegD) (i : Nat) : Nat := (d.reg (lo.at i)).toNat + 2 ^ 32 * (d.reg (hi.at i)).toNat

/-- Set a LO and HI register pair; a HI half of 16 bits takes 16. -/
def Dev.setWide (d : Dev) (lo hi : RegD) (i v : Nat) : Dev :=
  (d.setReg (lo.at i) (BitVec.ofNat 32 v)).setReg (hi.at i) (BitVec.ofNat 32 (v / 2 ^ 32))

/-! ## Time and free values -/

/-- PTP ns of the counter. -/
def Dev.now (d : Dev) : Nat := d.tsu.sec * 1000000000 + d.tsu.ns

/-- CORE_CLK cycles of `us` microseconds, at 1,228.8 MHz. -/
def cyclesOf (us : Nat) : Nat := us * 12288 / 10

/-- CORE_CLK cycles of a millisecond. -/
def msCycles : Nat := 1228800

/-- CORE_CLK cycles of a second. -/
def secCycles : Nat := 1228800000

/-- Draw a free value of `w` bits (log entry 2). -/
def Dev.fresh (d : Dev) (w : Nat) : BitVec w × Dev := (Config.freeValue w d.free, { d with free := d.free + 1 })

/-- TSU_STATUS.TIME_VALID. -/
def Dev.timeValid (d : Dev) : Bool := d.flag F.TSU_STATUS_TIME_VALID

/-- The live Trellis, or an empty structure. -/
def Dev.trellis (d : Dev) : Trellis := d.trl.live.getD {}

/-! ## Rings and messages -/

/-- What an operation on the face reads of the rest of the device. -/
structure Env where
  cycles : Nat
  sec : Nat
  ns : Nat
  timeValid : Bool
  sealed : Bool
  events : List EventCode
  rings : List RingRec
  /-- Records the event archive partition holds. -/
  evCap : Nat

def Dev.env (d : Dev) : Env :=
  { cycles := d.cycles, sec := d.tsu.sec, ns := d.tsu.ns, timeValid := d.timeValid, sealed := d.trl.sealed,
    events := d.trellis.events, rings := d.trellis.rings,
    evCap := d.nfm.parts.getD 3 80 * 2 ^ 25 }

/-- A ring's RING_MAP record. -/
def Env.ring (e : Env) (n : Nat) : RingRec := e.rings.getD n ⟨0, 0, 0, 0, false⟩

/-- A ring's storage. -/
def Face.ring (f : Face) (n : Nat) : Ring := Maps.getD f.hst.rings n {}

def Face.setRing (f : Face) (n : Nat) (r : Ring) : Face := { f with hst := { f.hst with rings := Maps.put f.hst.rings n r } }

/-- R433: one message on a vector, or its pending bit while it is masked; sources within 1 µs (1,228 whole CORE_CLK
cycles) share a message. A message ends the unsignalled state of the words of every ring on the vector (R442). -/
def Face.message (f : Face) (e : Env) (v : Nat) : Face :=
  let m := Maps.getD f.hst.msix v {}
  if m.masked then { f with hst := { f.hst with msix := Maps.put f.hst.msix v { m with pend := true } } }
  else if (m.lastSent.map fun t => decide (e.cycles < t + 1229)).getD false then f
  else
    { f with
      hst := { f.hst with
        msix := Maps.put f.hst.msix v { m with pend := false, lastSent := some e.cycles }
        rings := f.hst.rings.map fun p => if (e.ring p.1).vector = v then (p.1, { p.2 with unsignalled := 0 }) else p }
      out := Out.msix v m.addr m.data :: f.out }

/-- Words in use: (WR − RD) mod 32,768 (R434). -/
def Face.ringUsed (f : Face) (n : Nat) : Nat :=
  (f.get (F.RNG_n_PTR_WR.at n) + 32768 - f.get (F.RNG_n_PTR_RD.at n)) % 32768

/-- Words free (R434, R439). -/
def Face.ringFree (f : Face) (n : Nat) : Nat := 16384 - f.ringUsed n

/-- Store words from a 15-bit pointer on. -/
def putWords (mem : List (Nat × Word)) : Nat → List Word → List (Nat × Word)
  | _, [] => mem
  | p, w :: ws =>
    let a := p % 16384
    putWords (if w = 0 then Maps.del a mem else Maps.put mem a w) (p + 1) ws

/-- The word at a pointer. -/
def Ring.word (r : Ring) (p : Nat) : Word := Maps.getD r.mem (p % 16384) 0

/-- The words from a pointer on. -/
def Ring.words (r : Ring) (p n : Nat) : List Word := (List.range n).map fun i => r.word (p + i)

/-- Whether words up to (not including) pointer `wr` overlap the packet that starts at `start`. -/
def overlapped (wr start : Nat) : Bool := decide (16384 < (wr + 32768 - start) % 32768)

/-- The ring's watermark: the register's, or RING_MAP's where that is 0 (R442). -/
def Face.watermark (f : Face) (e : Env) (n : Nat) : Nat :=
  if f.get (F.RNG_n_IRQ_WATERMARK.at n) = 0 then (e.ring n).watermark else f.get (F.RNG_n_IRQ_WATERMARK.at n)

/-- Words become unsignalled; the ring's message goes when they reach the watermark (R442). -/
def Face.signal (f : Face) (e : Env) (n words : Nat) : Face :=
  let r := f.ring n
  let f := f.setRing n { r with
    unsignalled := r.unsignalled + words
    unsignalledAt := if r.unsignalled = 0 then e.cycles else r.unsignalledAt }
  let w := f.watermark e n
  if w ≠ 0 ∧ w ≤ r.unsignalled + words then f.message e (e.ring n).vector else f

/-- The length word of a packet of `n` words, length word included (R435). -/
def lengthWord (content n : Nat) (replay : Bool) : Word := BitVec.ofNat 32 (content * 2 ^ 24 + b2n replay * 2 ^ 19 + n)

/-- Write a packet to a device-to-host ring that has room (R436), and whether its reservation loses the rewind mark
(R439). The caller has checked the room. -/
def Face.place (f : Face) (e : Env) (n : Nat) (replay : Bool) (body : List Word) : Face × Bool :=
  let r := f.ring n
  let len := body.length + 1
  let wr := f.get (F.RNG_n_PTR_WR.at n)
  let wr' := (wr + len) % 32768
  let kept := (r.pkts ++ [({ start := wr, len := len } : PktSpan)]).filter fun p => overlapped wr' p.start == false
  let lost := decide (f.get (F.RNG_n_STATUS_MARK_VALID.at n) = 1) && overlapped wr' (f.get (F.RNG_n_MARK_POINTER.at n))
  let f := f.setRing n { r with mem := putWords r.mem wr (lengthWord (e.ring n).content len replay :: body), pkts := kept }
  let f := (f.set (F.RNG_n_PTR_WR.at n) wr').set (F.RNG_n_OLDEST_POINTER.at n) ((kept.head?.map (·.start)).getD wr')
  let f := if lost then (f.set (F.RNG_n_STATUS_MARK_VALID.at n) 0).setW1c e.cycles (F.RNG_n_STATUS_MARK_LOST.at n) 1 else f
  (if f.get (F.RNG_n_CFG_DRAIN.at n) = 1 then f else f.signal e n len, lost)

end Sys2Proof.Machine
end

