-- ==== Sys2Proof/Machine/MramLine.lean ====
section
/-! DEFINITION. The units of the MRAM journal as R362 to R367 lay them out: sixteen 16 B units a line, the first its anchor. A
CONTROL record's OP code and operand bytes have no layout in the spec: they are free, and their number is that of the fields
its rule names (log entry 8). -/

namespace Sys2Proof.Machine

/-- HEAD (R362): bit 7 LAP, bits 6:4 TYPE, bits 3:0 EXT. -/
def unitHead (lap : Bool) (type ext : Nat) : Byte := BitVec.ofNat 8 (128 * b2n lap + 16 * (type % 8) + ext % 16)

/-- A unit of 16 B from what it holds, the rest zero. -/
def unitOf (head : Byte) (b : Bytes) : Bytes := (head :: b ++ List.replicate 15 0).take 16

/-- A CONTINUATION unit (R365): HEAD of TYPE 2, KIND and up to 14 B of data. -/
def contUnit (lap : Bool) (c : Nat × Bytes) : Bytes := unitOf (unitHead lap 2 0) (BitVec.ofNat 8 c.1 :: c.2)

/-- The continuations of a READING, by KIND (R365). -/
def ReadingRec.conts (r : ReadingRec) : List (Nat × Bytes) :=
  (r.a.toList.map fun a => (1, leBytes 4 a)) ++
    (r.outages.map fun o => (2, leBytes 1 (b2n o.1) ++ leBytes 6 o.2)) ++
    (r.tampers.map fun t => (3, leBytes 1 t.1 ++ leBytes 2 t.2.1 ++ leBytes 6 t.2.2)) ++
    (r.campaign.toList.map fun c => (4, leBytes 1 c.1 ++ leBytes 1 c.2.1 ++ leBytes 1 c.2.2.1 ++ leBytes 3 c.2.2.2)) ++
    (if r.classAk then [(5, leBytes 1 r.body.cls)] else [])

/-- A READING's METER field (R364): the index, and its flags in bits 23:20. -/
def ReadingRec.meterField (r : ReadingRec) : Nat :=
  r.meter % 2 ^ 20 + 2 ^ 20 * b2n r.rejected + 2 ^ 21 * b2n r.noRecord + 2 ^ 22 * b2n r.candKey + 2 ^ 23 * b2n r.statusOnly

/-- Operand bytes of a CONTROL record (R366; log entry 8). -/
def JRec.operands : JRec → Nat
  | .alloc _ _ => 28
  | .keys _ _ => 100
  | .classAk _ _ => 100
  | .headKey _ _ => 100
  | .head _ _ => 30
  | .campaign _ _ => 72
  | .attach _ _ => 28
  | .arm _ _ => 28
  | _ => 14

/-- A CONTROL record's continuations of KIND 6, 14 B of operands each. -/
def JRec.controlConts (r : JRec) : List (Nat × Bytes) :=
  (List.range ((r.operands - 14 + 13) / 14)).map fun i => (6, (List.range 14).map fun k => controlByte r (15 + 14 * i + k))

/-- A record's units in the order of the line, head first (R363): the head's EXT counts the continuations that follow. -/
def JRec.image (lap : Bool) : JRec → List Bytes
  | .reading r =>
    unitOf (unitHead lap 1 r.conts.length) (leBytes 3 r.meterField ++ leBytes 4 r.counter ++ leBytes 8 r.digest) ::
      r.conts.map (contUnit lap)
  | .time kind arg sec ns =>
    [unitOf (unitHead lap 4 0) (leBytes 1 kind ++ leBytes 1 arg ++ [0] ++ leBytes 6 sec ++ leBytes 4 ns)]
  | r =>
    unitOf (unitHead lap 3 r.controlConts.length) ((List.range 15).map fun k => controlByte r k) ::
      r.controlConts.map (contUnit lap)

/-- Units a record takes, head included. -/
def JRec.units (r : JRec) : Nat := (r.image false).length

/-- Lines of the 4 MiB ring (R362). -/
def ringLines : Nat := 16384

/-- The lap parity of a line number (R362). -/
def lapOf (line : Nat) : Bool := decide (line / ringLines % 2 = 1)

/-- A line's anchor (R362): SEQ_BASE is the number of the line's first READING, or the next to be assigned. -/
def anchorUnit (line seqBase : Nat) : Bytes :=
  unitOf (unitHead (lapOf line) 0 0) ([0] ++ leBytes 6 seqBase ++ leBytes 8 line)

/-- The PAD unit that fills a line from unit `used` on (R363). -/
def padUnit (line used : Nat) : Bytes := unitOf (unitHead (lapOf line) 5 (15 - used)) []

/-- The units that line `line` holds: its anchor, its records, and, once the ring has left it, the PAD of what they leave
free. -/
def Journal.lineImage (j : Journal) (line next : Nat) : List Bytes :=
  let recs := (j.entries.filter fun e => e.line == line).map (·.rec_)
  let first := recs.findSome? fun r => match r with
    | .reading x => some x.body.seq
    | _ => none
  let units := anchorUnit line (first.getD next) :: recs.flatMap (JRec.image (lapOf line))
  if line < j.line ∧ units.length < 16 then units ++ [padUnit line units.length] else units

end Sys2Proof.Machine
end

