-- ==== Sys2Proof/Machine/RunnerFrame.lean ====
section
/-! DEFINITION. Runner frames as R426 lays them out: a 16 B header, the payload and a CRC-32. The payload of a HELLO has a layout;
that of any other frame has none in the spec and is a free value (log entry 89). -/

namespace Sys2Proof.Machine

/-- TYPE (R426). An answer to a command goes in a COMMAND frame. -/
def RunnerMsg.type : RunnerMsg → Nat
  | .hello _ => 1
  | .mirror _ _ => 2
  | .confirm _ => 3
  | .forwardUp _ => 4
  | .acceptNotice _ _ _ _ => 5
  | .forwardDown _ _ _ _ => 6
  | .downConfirm _ _ => 7
  | .command _ => 8
  | .applied _ => 8
  | .resync _ => 9
  | .digest _ => 10

/-- The payload (R426). -/
def RunnerMsg.payload : RunnerMsg → Bytes
  | .hello h =>
    leBytes 1 h.state ++ leBytes 1 h.cause ++ leBytes 8 h.confirmed ++ leBytes 8 h.buildSerial ++ beBytes 32 h.mapDigest
  | m => runnerPayload m

/-- Header and payload of a frame (R426). -/
def runnerBody (m : RunnerMsg) (again : Bool) (src dst hops seq ack : Nat) : Bytes :=
  leBytes 1 m.type ++ leBytes 1 (b2n again) ++ leBytes 2 m.payload.length ++ leBytes 1 src ++ leBytes 1 dst ++ leBytes 1 hops ++ [0] ++
    leBytes 2 seq ++ leBytes 2 ack ++ leBytes 4 0 ++ m.payload

/-- A frame to send: its body and the CRC-32 over it. -/
def runnerBytes (m : RunnerMsg) (again : Bool) (src dst hops seq ack : Nat) : Bytes :=
  let b := runnerBody m again src dst hops seq ack
  b ++ leBytes 4 (crc32 b).toNat

/-- R425, R426: the CRC of a received frame holds. -/
def RHdr.crcOk (h : RHdr) (m : RunnerMsg) : Bool := h.crc == (crc32 (runnerBody m h.again h.src h.dst h.hops h.seq h.ack)).toNat

end Sys2Proof.Machine
end

