-- ==== Sys2Proof/Machine/Journal.lean ====
section
/-! DEFINITION. The journal ring (R362 to R367): where a record stands, and its mirror entry (R411). What a record
changes is `Dur.apply`. -/

namespace Sys2Proof.Machine

/-- Place a record in the ring, in line order: its line and unit (R362, R363). A record that does not fit the rest of
the line begins the next one, after its anchor. -/
def Journal.place (j : Journal) (rec_ : JRec) : Nat × Journal :=
  let u := rec_.units
  let fits := decide (j.used ≠ 0) && decide (j.used + u ≤ 16)
  let line := if j.used = 0 then j.line else if fits then j.line else j.line + 1
  let unit := if fits then j.used else 1
  (line, { j with
    entries := j.entries ++ [{ line := line, unit := unit, rec_ := rec_ }]
    line := line
    used := unit + u
    readings := j.readings + (match rec_ with | .reading _ => 1 | _ => 0) })

/-- Lines not yet drained. -/
def Journal.undrained (j : Journal) : Nat := j.line - j.drained

/-- Bytes 3 MiB of lines (R368). -/
def undrainedMax : Nat := 12288

/-- Count one event in counter `n` of a Runner link, 0 to 2. -/
def Dev.linkCount (d : Dev) (link n : Nat) : Dev :=
  if link < 3 then d.set (F.PRL_L_CNT_n_COUNT.at2 link n) (satNat 32 (d.get (F.PRL_L_CNT_n_COUNT.at2 link n) + 1)) else d

/-- Put a frame on a Runner link (R425, R426): it waits there until acknowledged. -/
def Dev.putFrame (d : Dev) (link src dst hops : Nat) (m : RunnerMsg) : Dev :=
  let l := Maps.getD d.prl.links link {}
  let d := (d.emit (.runner link src dst hops l.seq l.ack m false (runnerBytes m false src dst hops l.seq l.ack))).linkCount link 0
  let l := { l with
    seq := (l.seq + 1) % 65536
    unacked := l.unacked ++ [{ seq := l.seq, src := src, dst := dst, hops := hops, msg := m, sentAt := d.cycles }] }
  { d with prl := { d.prl with links := Maps.put d.prl.links link l } }

/-- Send a frame of this device's own. -/
def Dev.sendRunner (d : Dev) (link dst : Nat) (m : RunnerMsg) : Dev := d.putFrame link d.trellis.device.position dst 0 m

/-- Pair states as PRL_STATUS codes them. -/
def PairSt.listen : Nat := 0
def PairSt.syncing : Nat := 1
def PairSt.standby : Nat := 2
def PairSt.active : Nat := 3
def PairSt.out : Nat := 4
def PairSt.unpaired : Nat := 5
def PairSt.unknown : Nat := 7

def Dev.pairState (d : Dev) : Nat := d.get F.PRL_STATUS_STATE

/-- Whether the device serves meters: ACTIVE or UNPAIRED. -/
def Dev.serves (d : Dev) : Bool := d.pairState == PairSt.active || d.pairState == PairSt.unpaired

/-- A partner that is SYNCING or STANDBY receives the mirror. -/
def Dev.mirroring (d : Dev) : Bool :=
  d.pairState == PairSt.active &&
    (d.get F.PRL_STATUS_PARTNER_STATE == PairSt.syncing || d.get F.PRL_STATUS_PARTNER_STATE == PairSt.standby)

/-- A synchronised standby is present. -/
def Dev.standbySynced (d : Dev) : Bool :=
  d.pairState == PairSt.active && d.get F.PRL_STATUS_PARTNER_STATE == PairSt.standby && !d.prl.unsynced

/-- R412: one more entry counts toward the next DIGEST; after 65,536 entries it goes. -/
def Dev.digestOut (d : Dev) (line : Nat) (rec_ : JRec) : Dev :=
  let crc := (mirrorCrc (BitVec.ofNat 64 d.prl.crc) line rec_).toNat
  let n := d.prl.sinceDigest + 1
  if n < 65536 then { d with prl := { d.prl with sinceDigest := n, crc := crc } }
  else
    let d := d.sendRunner d.trellis.device.mirrorLink d.trellis.device.partner (.digest crc)
    { d with prl := { d.prl with sinceDigest := 0, crc := 0 } }

/-- Send a journal record's MIRROR entry, or keep it while the snapshot runs (R411, R413). -/
def Dev.mirrorOut (d : Dev) (line : Nat) (rec_ : JRec) : Dev :=
  if d.mirroring = false then d
  else if d.get F.PRL_RESYNC_PHASE = 1 then
    { d with prl := { d.prl with staged := d.prl.staged ++ [(line, rec_)] } }
  else
    let d := d.sendRunner d.trellis.device.mirrorLink d.trellis.device.partner (.mirror line rec_)
    let d := (d.digestOut line rec_).count R.PRL_CNT_n 0
    let meter := match rec_ with
      | .reading r => some r.meter
      | _ => none
    let o := d.prl.outstanding ++ [({ line := line, at_ := d.cycles, meter := meter } : Sent)]
    { d with prl := { d.prl with outstanding := o } }.set F.PRL_MIRROR_OUTSTANDING (satNat 16 o.length)

/-- Which JNL counter counts a record. -/
def JRec.counter : JRec → Nat
  | .reading _ => 0
  | .time _ _ _ _ => 2
  | _ => 1

/-- R296: the metadata of a kind-4 root, which sends nothing over MIRROR_LINK (log entry 99). -/
def JRec.ownRoot : JRec → Bool
  | .root _ (some m) => m.kind == 4
  | _ => false

/-- Append a record to the ring: the line it stands in, and the device with it. -/
def Dev.append (d : Dev) (rec_ : JRec) : Nat × Dev :=
  let before := d.jnl.line
  match d.jnl.place rec_ with
  | (line, j) =>
    let d := { d with jnl := j }.count R.JNL_CNT_n rec_.counter
    let d := (d.setWide R.JNL_LINE_LO R.JNL_LINE_HI 0 line).set F.JNL_STATUS_UNDRAINED j.undrained
    let laps := d.get F.JNL_WEAR_LAPS + (line / ringLines - before / ringLines)
    let d := d.set F.JNL_WEAR_LAPS (satNat 32 laps)
    (line, if rec_.ownRoot then d else d.mirrorOut line rec_)

end Sys2Proof.Machine
end

