-- ==== Sys2Proof/Machine/Flags.lean ====
section
/-! DEFINITION. Flags and events: an INT_STATUS bit and the event code it raises (R9, R454), Prune (R455, R456), the
event record (R452, R453, R491), its ring copy and spill (R457), and the HLT_CONDITION bits (R459). -/

namespace Sys2Proof.Machine

/-- The INT_STATUS bits that raise a code of their own (R454): (offset, bit, code). -/
def ownCodes : List (Fld × Nat) :=
  [(F.KEY_INT_STATUS_KEY_ZEROED, 0), (F.CLO_INT_STATUS_TAMPER, 1), (F.PRL_INT_STATUS_YIELDED, 6),
   (F.PRL_INT_STATUS_TOOK_CONTROL, 7), (F.PRL_INT_STATUS_REVERT_FAILED, 9), (F.PRL_INT_STATUS_DRILL_DUE, 10),
   (F.NFM_INT_STATUS_READ_ONLY, 11), (F.NFM_INT_STATUS_ARCHIVE_FULL, 12), (F.NFM_INT_STATUS_UNCORRECTABLE, 13),
   (F.NFM_INT_STATUS_COPY_BAD, 14), (F.JNL_INT_STATUS_STALL, 15), (F.KEY_INT_STATUS_ROOT_COMMITTED, 16),
   (F.TRL_INT_STATUS_GRAFT_FAILED, 17), (F.BIL_INT_STATUS_CLOCK_BACK, 18), (F.TSU_INT_STATUS_STEPPED, 19),
   (F.TSU_INT_STATUS_LEAP, 20), (F.HLT_INT_STATUS_FORECAST_WARN, 21), (F.RNG_INT_STATUS_MARK_LOST, 22),
   (F.RNG_INT_STATUS_CMD_REJECTED, 710)]

/-- The block number of an offset: its bits 23:16. -/
def blockOf (off : Nat) : Nat := off / 65536 % 256

/-- The event code an INT_STATUS bit raises (R454). -/
def codeOf (x : Fld) : Nat :=
  ((ownCodes.find? fun p => p.1.off == x.off && p.1.lo == x.lo).map (·.2)).getD (64 + 32 * blockOf x.off + x.lo)

/-- Codes that no INT_STATUS bit raises (R454). -/
def Ev.retLost : Nat := 2
def Ev.oscStopped : Nat := 3
def Ev.alarmOnBattery : Nat := 4
def Ev.entropyFail : Nat := 5
def Ev.lostUnsynced : Nat := 8
def Ev.trellisFallback : Nat := 704
def Ev.unknownSection : Nat := 705
def Ev.graftDiscarded : Nat := 706
def Ev.moduleReseated : Nat := 707
def Ev.profileConflict : Nat := 708
def Ev.mapMismatch : Nat := 709
def Ev.barPartial : Nat := 711
def Ev.trellisRejected : Nat := 712
def Ev.unknownCommand : Nat := 713

/-- The 32 B of an event record (R452), with the mark that makes it valid. -/
def EvRec.bytes (r : EvRec) : Bytes :=
  leBytes 6 r.seq ++ leBytes 2 (r.code % 1024 + 4096 * (r.severity % 4)) ++ leBytes 6 r.sec ++ leBytes 1 r.block ++
    leBytes 1 (b2n r.summary + 2 * b2n r.preTime + 4 * b2n r.partner + 8 * b2n r.provisional) ++ leBytes 4 r.ns ++
    leBytes 4 r.arg0 ++ leBytes 4 r.arg1 ++ leBytes 4 (2 ^ 32 - 1 - r.seq % 2 ^ 32)

/-- Add a record to the recorder: under the next final number, or provisionally before step 8 completes (R491). -/
def Face.record (f : Face) (r : EvRec) : Face :=
  let ev := f.hst.evr
  let f := f.add (R.EVR_CNT_n.at 0) 1
  match ev.next with
  | none =>
    let k := ev.provisional.length
    let r := { r with seq := k, provisional := true }
    { f with hst := { f.hst with evr := { ev with
        recs := Maps.put ev.recs (k % 65536) r
        provisional := ev.provisional ++ [r] } } }
      |>.set F.EVR_STATUS_NEXT ((k + 1) % 65536)
  | some n =>
    let r := { r with seq := n }
    let f := { f with hst := { f.hst with evr := { ev with recs := Maps.put ev.recs (n % 65536) r, next := some (n + 1) } } }
    ((f.set F.EVR_STATUS_NEXT ((n + 1) % 65536)).setReg R.EVR_SEQ_LO.off (BitVec.ofNat 32 (n + 1))).setReg
      R.EVR_SEQ_HI.off (BitVec.ofNat 32 ((n + 1) / 2 ^ 32))

/-- The record of an occurrence. -/
def Env.record (e : Env) (ec : EventCode) (code block arg0 arg1 : Nat) (partner : Bool) : EvRec :=
  { seq := 0, code := code, severity := ec.severity, sec := e.sec, ns := e.ns, block := block,
    preTime := e.timeValid == false, partner := partner, arg0 := arg0 % 2 ^ 32, arg1 := arg1 % 2 ^ 32 }

/-- The level of a code's Prune bucket now, in units of 1 / (16 × 1,228,800,000) token (R455). -/
def bucketUnit : Nat := 16 * 1228800000

def Env.level (e : Env) (ec : EventCode) (b : Option Bucket) : Nat :=
  match b with
  | none => ec.burst * bucketUnit
  | some b => min (ec.burst * bucketUnit) (b.level + ec.rate * (e.cycles - b.at_))

/-- Spill a record to the event archive, in SEQ order (R457). -/
def Face.spill (f : Face) (e : Env) (r : EvRec) : Face :=
  if f.get F.EVR_STATUS_SPILL_STOPPED = 1 then f
  else if f.get F.NFM_STATUS_STATE ≤ 1 then
    -- R455, R490: before the array is checked, and while it is unformatted, the record waits.
    { f with hst := { f.hst with evr := { f.hst.evr with toSpill := f.hst.evr.toSpill ++ [r] } } }
  else
    let a := f.hst.evr.archive ++ [r]
    { f with hst := { f.hst with evr := { f.hst.evr with archive := a.drop (a.length - e.evCap) } } }.add (R.EVR_CNT_n.at 3) 1

/-- The record last written. -/
def Face.lastRecord (f : Face) : Option EvRec :=
  match f.hst.evr.next with
  | none => f.hst.evr.provisional.getLast?
  | some n => Maps.get? ((n - 1) % 65536) f.hst.evr.recs

/-- Prune's decision on an occurrence (R455): whether it is recorded, and the face with the token taken or the
suppression counted. -/
def Face.prune (f : Face) (e : Env) (ec : EventCode) (code : Nat) : Bool × Face :=
  let ev := f.hst.evr
  let lvl := e.level ec (Maps.get? code ev.buckets)
  if e.sealed = false ∨ code < 64 ∨ ec.rate = 0xFFFF then (true, f)
  else if bucketUnit ≤ lvl then
    (true, { f with hst := { f.hst with evr := { ev with
      buckets := Maps.put ev.buckets code ⟨lvl - bucketUnit, e.cycles⟩ } } })
  else
    let sup := Maps.getD ev.pendingSummary code ⟨0, e.sec, e.sec, e.ns, e.cycles⟩
    let f := { f with hst := { f.hst with evr := { ev with
      buckets := Maps.put ev.buckets code ⟨lvl, e.cycles⟩
      suppressed := Maps.put ev.suppressed code (satNat 32 (Maps.getD ev.suppressed code 0 + 1))
      pendingSummary := Maps.put ev.pendingSummary code
        { sup with count := satNat 32 (sup.count + 1), lastSec := e.sec, lastNs := e.ns } } } }
    (false, f.add (R.EVR_CNT_n.at 1) 1)

/-- R9: set an INT_STATUS bit and send its message where its INT_ENABLE bit is 1 (R433). Before EVENT_CODES takes effect no
code names a vector, and no message goes (log entry 6). -/
def Face.setBit (f : Face) (e : Env) (x : Fld) : Face :=
  let en : Fld := { off := x.off + 4, str := 0, str2 := 0, hi := x.hi, lo := x.lo }
  let f := f.setW1c e.cycles x 1
  if f.get en = 1 ∧ e.events ≠ [] then f.message e (e.events.getD (codeOf x) {}).vector else f

/-- What is recorded: an occurrence, the partner's or this device's, or a summary of suppressed ones (R456). -/
inductive EvKind where
  | own | partner
  | summary (s : Suppress)
  deriving DecidableEq, Repr

/-- Codes that an INT_STATUS bit raises. -/
def bitCode (code : Nat) : Bool := (decide (64 ≤ code) && decide (code < 704)) || ownCodes.any (·.2 == code)

/-- Raise one occurrence, or write a summary: of an INT_STATUS bit, or of a code that no bit raises. A suppression raises
EVR_INT_STATUS.SUPPRESSED, and a ring copy may raise RING_DROP or MARK_LOST, each with an occurrence of its own: the
first argument bounds that chain (log entry 7). -/
def Face.eventN : Nat → Face → Env → Option Fld → Nat → Nat → Nat → Nat → EvKind → Face
  | 0, f, e, bit, _, _, _, _, _ => bit.elim f (f.setBit e)
  | k + 1, f, e, bit, code, block, arg0, arg1, kind =>
    let ec := e.events.getD code {}
    let f := bit.elim f (f.setBit e)
    match (match kind with | .summary _ => (true, f.add (R.EVR_CNT_n.at 2) 1) | _ => f.prune e ec code) with
    | (false, f) =>
      let x := F.EVR_INT_STATUS_SUPPRESSED
      if code = codeOf x then f.setBit e x else Face.eventN k f e (some x) (codeOf x) (blockOf x.off) code 0 .own
    | (true, f) =>
      let r := e.record ec code block arg0 arg1 (decide (kind = .partner))
      let f := f.record (match kind with
        | .summary s => { r with summary := true, sec := s.lastSec, ns := s.lastNs, arg0 := s.count, arg1 := s.firstSec % 2 ^ 32 }
        | _ => r)
      match f.lastRecord with
      | none => f
      | some r =>
        if e.sealed = false then
          { f with hst := { f.hst with evr := { f.hst.evr with toSpill := f.hst.evr.toSpill ++ [r] } } }
        else
          let f := if bitCode code = false ∧ bitAt ec.flags 0 then f.message e ec.vector else f
          let f := if bitAt ec.flags 2 && !r.provisional then f.spill e r else f
          if bitAt ec.flags 1 = false ∨ r.provisional then f
          else if 9 ≤ f.ringFree ec.ring then
            match f.place e ec.ring false (bytesToWords r.bytes) with
            | (f, false) => f
            | (f, true) =>
              let x := F.RNG_INT_STATUS_MARK_LOST
              Face.eventN k f e (some x) (codeOf x) (blockOf x.off) 0 ec.ring .own
          else
            let x := F.RNG_INT_STATUS_RING_DROP
            Face.eventN k (f.add (R.RNG_n_DROPS.at ec.ring) 1) e (some x) (codeOf x) (blockOf x.off) 0 ec.ring .own

/-- The chain length `raise` allows. -/
def chain : Nat := 6

/-- R491: reserve the next 65,536 event sequence numbers by a CONTROL record, before any of them is assigned. -/
def Dev.reserveEvents (d : Dev) : Dev :=
  match d.face.hst.evr.next with
  | none => d
  | some n =>
    if n + 64 ≤ d.dur.evReserved then d
    else
      let up := n + 65536
      { (d.append (.evReserve up)).2 with dur := { d.dur with evReserved := up } }

/-- Raise INT_STATUS bit `x` with the two event arguments (R454). -/
def Dev.raise (d : Dev) (x : Fld) (arg0 : Nat := 0) (arg1 : Nat := 0) : Dev :=
  let d := d.reserveEvents
  { d with face := Face.eventN chain d.face d.env (some x) (codeOf x) (blockOf x.off) arg0 arg1 .own }

/-- Raise an occurrence of a code that no INT_STATUS bit raises. -/
def Dev.occur (d : Dev) (code block : Nat) (arg0 : Nat := 0) (arg1 : Nat := 0) (partner : Bool := false) : Dev :=
  let d := d.reserveEvents
  { d with face := Face.eventN chain d.face d.env none code block arg0 arg1 (if partner then .partner else .own) }

/-- Set a live condition of HLT_CONDITION; a change sets CONDITION_CHANGE (R459). -/
def Dev.condition (d : Dev) (x : Fld) (v : Bool) : Dev :=
  if d.get x = b2n v then d else (d.set x (b2n v)).raise F.HLT_INT_STATUS_CONDITION_CHANGE x.lo (b2n v)

/-- Write a packet to a device-to-host ring: the device with it, or none where the ring lacks room (R440). -/
def Dev.ringPut (d : Dev) (n : Nat) (replay : Bool) (body : List Word) : Option Dev :=
  if body.length + 1 ≤ d.face.ringFree n then
    match d.face.place d.env n replay body with
    | (f, false) => some { d with face := f }
    | (f, true) => some (Dev.raise { d with face := f } F.RNG_INT_STATUS_MARK_LOST 0 n)
  else none

end Sys2Proof.Machine
end

