-- ==== Sys2Proof/Machine/Durable.lean ====
section
/-! DEFINITION. What a CONTROL or TIME record changes (R366, R367), and journaling one: every durable change of control
state is made by applying its record (R15), on the live path, in replay (R373) and at a standby (R411) alike. A
READING record's effect is `Dur.reading`. -/

namespace Sys2Proof.Machine

/-- The table with the entry put, or removed. -/
def putOpt {α : Type} (m : List (Nat × α)) (k : Nat) : Option α → List (Nat × α)
  | some v => Maps.put m k v
  | none => Sys2Proof.Maps.del k m

/-- The lowest index no context has ever used, and no freed one is (R185): the free list goes on there. -/
def Dur.neverUsed (u : Dur) : Nat :=
  ((u.ctxs.map (·.1)) ++ u.freed).foldl (fun m k => max m (k + 1)) 0

/-- A class's METER_CLASS record. -/
def Trellis.class? (t : Trellis) (c : Nat) : Option MeterClass := t.classes.find? (·.classId == c)

/-- The two candidate lines of an address (R187). -/
def Ctx.lines (c : Ctx) : Nat × Nat := ((Config.indexHash false c.address c.mbus).toNat, (Config.indexHash true c.address c.mbus).toNat)

/-- R187: put a meter into a line; a full line gives up one of its entries, which goes to its own other line, up to `moves`
times. -/
def Dur.indexMove (u : Dur) : Nat → List (Nat × List Nat) → Nat → Nat → Ctx → Option (List (Nat × List Nat))
  | moves, index, line, meter, c =>
    let es := Maps.getD index line []
    if es.length < 8 then some (Maps.put index line (es ++ [meter]))
    else
      match moves with
      | 0 => none
      | k + 1 =>
        let n := (Config.indexPick line k).toNat
        let out := es.getD n 0
        let x := Maps.getD u.ctxs out c
        let other := if x.lines.1 = line then x.lines.2 else x.lines.1
        u.indexMove k (Maps.put index line (es.set n meter)) other out x

/-- R187: insert a meter, which stands in the index once: in a candidate line with room, or by up to 32 moves; none where there is no
room, and nothing has moved then. -/
def Dur.indexPut (u : Dur) (meter : Nat) (c : Ctx) : Option (List (Nat × List Nat)) :=
  let u := { u with index := u.index.map fun (p : Nat × List Nat) => (p.1, p.2.filter (· ≠ meter)), ctxs := Maps.put u.ctxs meter c }
  let room (l : Nat) : Bool := decide ((Maps.getD u.index l []).length < 8)
  let (a, b) := c.lines
  u.indexMove 32 u.index (if room a || !room b then a else b) meter c

/-- Campaign states of R264. -/
def Cs.empty : Nat := 0
def Cs.loading : Nat := 1
def Cs.active : Nat := 2
def Cs.ended : Nat := 3
def Cs.failed : Nat := 4

/-- LOADING or ACTIVE: the campaign takes members (R265), and its NEW_CAL counts as in use (R215). -/
def Campaign.takes (c : Campaign) : Bool := c.state == Cs.loading || c.state == Cs.active

/-- The effect of a record other than a READING or a closure on the durable state. -/
def Dur.control (u : Dur) : JRec → Dur
  | .alloc i c =>
    -- R185: an index taken beyond the never-used run leaves the skipped ones free, in rising order.
    let skipped := (List.range (i - u.neverUsed)).map (· + u.neverUsed)
    -- R256: allocation clears the meter's tamper records.
    { u with
      ctxs := Maps.put u.ctxs i c
      index := (u.indexPut i c).getD u.index
      freed := (u.freed.filter (· ≠ i)) ++ skipped
      campMembers := u.campMembers.filter fun p => p.1 % 1048576 ≠ i
      bal := { u.bal with tampers := u.bal.tampers.filter fun p => p.1 / 4 ≠ i } }
  | .free i =>
    { u with
      ctxs := Maps.del i u.ctxs
      index := u.index.map fun (p : Nat × List Nat) => (p.1, p.2.filter (· ≠ i))
      freed := i :: u.freed.filter (· ≠ i)
      bills := Maps.del i u.bills
      keys := Maps.del i u.keys
      bal := { u.bal with members := Maps.del i u.bal.members }
      -- R265: a member not yet Activated fails with cause REMOVED (7).
      campMembers := u.campMembers.map fun p =>
        if p.1 % 1048576 = i ∧ p.2.state ≠ 4 ∧ p.2.state ≠ 5 then (p.1, { p.2 with state := 5, cause := 7 }) else p }
  | .ctxClass i cls cal => { u with ctxs := Maps.modify u.ctxs i fun c => { c with cls := cls, cal := cal } }
  | .outMark i v => { u with ctxs := Maps.modify u.ctxs i fun c => { c with outCounter := max c.outCounter v } }
  | .zxAssign i z =>
    { u with ctxs := Maps.modify u.ctxs i fun c => { c with zx := z, zxOld := if z.isNone then none else some c.zxNow } }
  | .zxTold i => { u with ctxs := Maps.modify u.ctxs i fun c => { c with zxOld := none } }
  | .keys i k =>
    -- R184: KEY_STATE follows the key descriptor; its generation counts replacements of a current key.
    let old := ((Maps.get? i u.keys).bind (·.cur))
    { u with
      keys := Maps.put u.keys i k
      ctxs := Maps.modify u.ctxs i fun c => { c with
        curKey := k.cur.isSome
        candKey := k.cand.isSome
        keyGen := if old.isSome ∧ old.map (·.link) ≠ k.cur.map (·.link) then (c.keyGen + 1) % 16 else c.keyGen } }
  | .classAk c k => { u with classAks := Maps.put u.classAks c k }
  | .headKey h k => { u with headKeys := Maps.put u.headKeys h k }
  | .root s m => { u with roots := putOpt u.roots s m }
  | .bcastGen t g slot => { u with bcast := Maps.put u.bcast t (g, slot) }
  | .arm s st => { u with armed := Maps.put u.armed s st }
  | .disarm s => { u with armed := Maps.del s u.armed }
  | .applied s instant replaced =>
    { u with armed := Maps.del s u.armed, superseded := replaced.elim u.superseded fun c => some (c, instant) }
  | .attach m b => { u with bal := { u.bal with members := Maps.put u.bal.members m b } }
  | .detach m => { u with bal := { u.bal with members := Maps.del m u.bal.members } }
  | .confirm r s => { u with confirmed := Maps.put u.confirmed r s }
  | .evReserve n => { u with evReserved := max u.evReserved n }
  | .cycle f c => { u with zxC := Maps.put u.zxC f c }
  | .calClosed i b => { u with calClosed := Maps.put u.calClosed i ((Maps.getD u.calClosed i (0, 0)).1 + 1, b) }
  | .head i h => { u with heads := putOpt u.heads i h, headKeys := if h.isNone then Maps.del i u.headKeys else u.headKeys }
  | .campaign s c =>
    { u with
      campaigns := putOpt u.campaigns s c
      campMembers := if c.isNone then u.campMembers.filter fun p => p.1 / 1048576 ≠ s else u.campMembers
      ctxs := if c.isNone then u.ctxs.map fun p => (p.1, { p.2 with campaigns := setBitTo p.2.campaigns s false }) else u.ctxs }
  | .campMember s i m =>
    { u with
      campMembers := putOpt u.campMembers (1048576 * s + i) m
      -- R265: REMOVE (cause 7) ends a membership
      ctxs := Maps.modify u.ctxs i fun c => { c with campaigns := setBitTo c.campaigns s (m.any fun x => x.cause != 7) } }
  | .reading _ => u
  | .closure _ _ => u
  | .ckptStart => u
  | .ckptDone => u
  | .time kind inst at_ _ =>
    -- R233: interval ends and period boundaries, the latest of each instance
    if kind = 1 ∨ kind = 2 then { u with marks := Maps.put u.marks (256 * kind + inst) at_ } else u

/-- Journal a CONTROL or TIME record and make its change. -/
def Dev.journal (d : Dev) (r : JRec) : Dev :=
  let d := (d.append r).2
  { d with dur := d.dur.control r }

end Sys2Proof.Machine
end

