-- ==== Sys2Proof/Machine/ZxOps.lean ====
section
/-! DEFINITION. Shared operations of ZX-PLC (04): a feeder's and a phase's state, counters and events, and the end of outbound
frames. -/

namespace Sys2Proof.Machine

def Dev.zxFeeder (d : Dev) (f : Nat) : ZxFeeder := d.zxp.feeders.getD f {}

def Dev.setZxFeeder (d : Dev) (f : Nat) (x : ZxFeeder) : Dev := { d with zxp := { feeders := d.zxp.feeders.set f x } }

def Dev.zxPhase (d : Dev) (f p : Nat) : ZxPhase := (d.zxFeeder f).phases.getD p {}

def Dev.setZxPhase (d : Dev) (f p : Nat) (x : ZxPhase) : Dev :=
  let fd := d.zxFeeder f
  d.setZxFeeder f { fd with phases := fd.phases.set p x }

/-- Count in ZXP_CNT_n of a feeder. -/
def Dev.zxCount (d : Dev) (f n : Nat) : Dev := { d with face := d.face.add (R.ZXP_CNT_n.at2 f n) 1 }

/-- Raise a feeder's event: the instance stands in ARG1 (R454). -/
def Dev.zxRaise (d : Dev) (f : Nat) (x : Fld) (arg0 : Nat) : Dev := d.raise (x.at f) arg0 f

/-- ZXP_SCHED in force: PERIOD, DL_CYCLES, TIME_EVERY and UL_BLOCKS. -/
structure ZxSched where
  period : Nat
  dl : Nat
  every : Nat
  blocks : Nat
  deriving DecidableEq, Repr

/-- ZXP_SCHED as a word gives it; DL_CYCLES has a floor of 506 (R109). -/
def schedOf (w : Word) : ZxSched := ⟨bitsOf w 31 20, max 506 (bitsOf w 19 8), bitsOf w 7 3, bitsOf w 2 0 + 1⟩

def Dev.sched (d : Dev) (f : Nat) : ZxSched := schedOf ((d.zxFeeder f).sched.getD (d.reg (R.ZXP_SCHED.at f)))

/-- Cycles of the uplink period, and of a round. -/
def ZxSched.uplink (x : ZxSched) : Nat := x.blocks * 960

def ZxSched.round (x : ZxSched) : Nat := x.uplink + x.dl

/-- The feeder's MEASUREMENT record. -/
def Dev.feederRec? (d : Dev) (f : Nat) : Option MsrFeederRec := d.trellis.msrFeeders.find? (·.feeder == f)

/-- Nominal mains frequency of a feeder, Hz. -/
def Dev.mainsHz (d : Dev) (f : Nat) : Nat := ((d.feederRec? f).map (·.mains)).getD 50

/-- ZX-PLC is enabled on the phase in MEASUREMENT. -/
def Dev.zxEnabled (d : Dev) (f p : Nat) : Bool := ((d.feederRec? f).map fun r => bitAt r.zxPhases p).getD false

/-! ## Tracking states (R104) -/

def Zt.acquiring : Nat := 0
def Zt.locked : Nat := 1
def Zt.holdover : Nat := 2
def Zt.unlocked : Nat := 3

/-- Tracking state of a phase (R104). -/
def Dev.track (d : Dev) (f p : Nat) : Nat := d.get (F.ZXP_STATUS_TRACK.at f) / 4 ^ p % 4

/-- R337: a Cloche measurement against a feeder's mains is untrusted once V1 leaves LOCKED. -/
def Dev.distrust (d : Dev) (f : Nat) : Dev :=
  { d with tsu := { d.tsu with clo := d.tsu.clo.map fun c =>
    if c.source = 1 ∧ c.feeder = f then { c with trusted := false } else c } }

/-- ZXG of a phase goes low. -/
def Dev.gateLow (d : Dev) (f p : Nat) : Dev :=
  let x := d.zxPhase f p
  match x.gate with
  | none => d
  | some t =>
    let d := d.setZxPhase f p { x with gate := none }
    if d.now < t then d.emit (.pin 2 (3 * f + p) false) else d

/-- An outbound frame ends without further pulses. -/
def Dev.endZxFrame (d : Dev) (f p : Nat) : Dev :=
  let d := d.gateLow f p
  d.setZxPhase f p { d.zxPhase f p with frame := none }

/-- A feeder stops transmitting (R125). -/
def Dev.stopZx (d : Dev) (f : Nat) : Dev := (List.range 3).foldl (fun d p => d.endZxFrame f p) d

/-- Every feeder stops: the gates are off on a device that does not serve (R123). -/
def Dev.stopAllZx (d : Dev) : Dev := (List.range 4).foldl Dev.stopZx d

/-- The assignment of a meter in effect in the round in progress (R108): what its context says, or what stood before the SCHEDULE
frame of this round. -/
def Dev.zxHeld (d : Dev) (meter : Nat) : Option ZxAssign :=
  match (List.range 4).findSome? fun f => Maps.get? meter (d.zxFeeder f).turned with
  | some old => old
  | none => (Maps.get? meter d.dur.ctxs).bind Ctx.zxNow

/-- R24, R120: a ZX-PLC frame of the round in progress has been committed, or is a duplicate: its channel's bit is set
while BITMAP is open. -/
def Dev.zxAck (d : Dev) (x : Staged0) (dup : Bool) : Dev :=
  match d.zxHeld x.meter with
  | some z =>
    let p := d.zxPhase z.feeder z.phase
    if x.round = (d.zxFeeder z.feeder).round && !p.fixed then
      let d := d.setZxPhase z.feeder z.phase { p with acked := setBitTo p.acked z.channel true }
      if dup then d.zxCount z.feeder 8 else d
    else d
  | none => d

/-- R125: the line-driver record of a feeder appeared, vanished or failed. -/
def Dev.moduleChange (d : Dev) (f : Nat) (present : Bool) : Dev :=
  let d := if present then d else d.stopZx f
  (d.set (F.ZXP_STATUS_MODULE.at f) (b2n present)).zxRaise f F.ZXP_INT_STATUS_MODULE_CHANGE (b2n present)

end Sys2Proof.Machine
end

