-- ==== Sys2Proof/Machine/Discard.lean ====
section
/-! DEFINITION. What waits for a meter (R184, R196), and what goes with its context when it is freed (R188, R190). -/

namespace Sys2Proof.Machine

/-- Work of a meter that waits in its sources (R184 WAITING, R196): staged frames, items without a frame, and a FREE that waits for
the item in flight. -/
def Dev.queued (d : Dev) (i : Nat) : Nat :=
  (d.eng.staging.filter fun f => f.meter == i).length + (d.eng.downs.filter fun x => x.1 == i).length +
    b2n (d.eng.freeing.contains i && Maps.has d.eng.flight i)

/-- Downlinks queued for a meter (R184 DOWNLINKS). -/
def Dev.downlinksOf (d : Dev) (i : Nat) : Nat := (d.fhm.downlinks.filter fun x => x.meter == i).length

/-- The job is an accept acknowledgement. -/
def DlJob.acks : DlJob → Bool
  | .window _ _ _ ack => ack
  | .notice _ _ _ _ _ => true
  | _ => false

/-- Frames that wait for a meter (R190): those staged, its queued downlinks, and its acknowledgements. -/
def Dev.framesOf (d : Dev) (i : Nat) : Nat :=
  (d.eng.staging.filter fun f => f.meter == i).length + d.downlinksOf i + (d.eng.downs.filter fun x => x.1 == i && x.2.1.acks).length

/-- An order of a freed meter leaves nothing behind but its timing. -/
def Order.orphan (i : Nat) (o : Order) : Order :=
  let mine := o.psdu.meter == some i || match o.purpose with
    | .downlink m _ _ _ => m == i
    | _ => false
  if mine then
    let purpose := match o.purpose with
      | .downlink _ _ _ w => .accept 0 0 w
      | x => x
    { o with psdu := { o.psdu with meter := none }, purpose := purpose, keyKind := none }
  else o

/-- A ZX-PLC frame of a freed meter goes on without effect on its context; its place in this downlink period goes. -/
def ZxPhase.orphan (i : Nat) (x : ZxPhase) : ZxPhase :=
  let off (fr : ZxFrame) : ZxFrame := match fr.purpose with
    | .schedule m => if m = i then { fr with purpose := .schedule noMeter } else fr
    | .downlink m _ _ => if m = i then { fr with purpose := .schedule noMeter } else fr
    | _ => fr
  { x with frame := x.frame.map off, served := x.served.filter (· ≠ i) }

def ZxFeeder.orphan (i : Nat) (x : ZxFeeder) : ZxFeeder :=
  { x with
    phases := x.phases.map (ZxPhase.orphan i), turned := Maps.del i x.turned
    learned := x.learned.filter fun l => decide (l.1 ≠ i) }

/-- R188, R190: what waits for a context of the MAC, the power line, distribution and the host goes with it: windows, downlinks, the
counters and the way of its frames; orders and ZX-PLC frames under way end without effect on a context; a host request that waits
for its response is left to its timeout. -/
def Dev.forgetMeter (d : Dev) (i : Nat) : Dev :=
  let f := d.fhm
  let request (q : MeterReq) : MeterReq := if q.meter = i then { q with meter := noMeter } else q
  { d with
    eng := { d.eng with
      staging := d.eng.staging.filter fun x => x.meter != i
      downs := d.eng.downs.filter fun x => x.1 != i
      reassembly := Maps.del i d.eng.reassembly, cache := Maps.del i d.eng.cache }
    fhm := { f with
      downlinks := f.downlinks.filter fun x => x.meter != i
      windows := f.windows.filter fun w => w.meter != some i
      committed := f.committed.filter fun c => c.meter != i
      orders := f.orders.map (Order.orphan i)
      foreign := Maps.del i f.foreign }
    zxp := { feeders := d.zxp.feeders.map (ZxFeeder.orphan i) }
    dst := { d.dst with
      reoffer := d.dst.reoffer.filter fun x => decide (x % 1048576 ≠ i)
      zxOffers := d.dst.zxOffers.filter fun x => decide (x.1 % 1048576 ≠ i) }
    face := { d.face with hst := { d.face.hst with requests := d.face.hst.requests.map request } } }

end Sys2Proof.Machine
end

