-- ==== Sys2Proof/Machine/KeyOps.lean ====
section
/-! DEFINITION. Shared operations of the KEY block (11): the vault under its masks, key check values, derivation, stored
key sets, the DRBG; and a command that a synchronised standby applies before it completes (R189, R301). -/

namespace Sys2Proof.Machine

/-- Result codes of R317. -/
def Kr.ok : Nat := 0
def Kr.badState : Nat := 1
def Kr.wrongKind : Nat := 2
def Kr.unwrapFail : Nat := 3
def Kr.kcvMismatch : Nat := 4
def Kr.noSession : Nat := 5
def Kr.badPeer : Nat := 6
def Kr.candidateBusy : Nat := 7
def Kr.notAllocated : Nat := 8
def Kr.notActive : Nat := 9
def Kr.keyZeroed : Nat := 10
def Kr.entropy : Nat := 11
def Kr.slotInUse : Nat := 12
def Kr.locked : Nat := 13
def Kr.noDownlink : Nat := 14
def Kr.unknownHead : Nat := 15
def Kr.instantPast : Nat := 16
def Kr.notComplete : Nat := 17
def Kr.partnerNotReady : Nat := 18
def Kr.noCandidate : Nat := 19
def Kr.notVerified : Nat := 20

/-- Slot kinds of R287. -/
def Kind.storeKek : Nat := 1
def Kind.importKek : Nat := 2
def Kind.tag : Nat := 3
def Kind.sign : Nat := 4
def Kind.broadcast : Nat := 5
def Kind.seal_ : Nat := 6

/-- The key check value (R289): the first 3 B of AES-CMAC over a zero block, under a key of 16 B or 32 B. -/
def kcvOf (bytes key : Nat) : Nat := (Crypto.cmac bytes key (List.replicate 16 0)).toNat / 2 ^ 104

/-- The root in a slot: stored XOR mask (R288). -/
def Dev.root? (d : Dev) (slot : Nat) : Option Nat := (Maps.get? slot d.clo.vault).map fun v => v.stored ^^^ v.mask

/-- A slot's metadata; kind 0 is an erased slot, whose generation goes on. -/
def Dev.slotMeta (d : Dev) (slot : Nat) : SlotMeta := Maps.getD d.dur.roots slot ⟨0, 0, 0⟩

/-- The three letters of a kind's info (R290). -/
def infoLetters (kind : Nat) : Bytes :=
  match kind with
  | 1 => [0x59, 0x4B, 0x53]
  | 2 => [0x59, 0x4B, 0x49]
  | 3 => [0x59, 0x52, 0x54]
  | 4 => [0x59, 0x52, 0x53]
  | 6 => [0x59, 0x41, 0x53]
  | _ => [0x59, 0x42, 0x43]

/-- The working key of a root (R290): 32 B, or the record signing scalar from 40 B. -/
def deriveKey (root kind slot gen : Nat) : Nat :=
  let info := infoLetters kind ++ beBytes 1 slot ++ beBytes 2 gen
  if kind = Kind.sign then Crypto.scalarOf (Crypto.hkdf 40 (beBytes 16 root) [] info) else Crypto.hkdf 32 (beBytes 16 root) [] info

/-- The broadcast key of a target (R290): cell, or 4,096 + 3f + p. -/
def broadcastKey (root target gen : Nat) : Nat :=
  let place := if target < 4096 then beBytes 1 1 ++ beBytes 2 target else beBytes 1 2 ++ beBytes 2 (target - 4096)
  Crypto.hkdf 16 (beBytes 16 root) [] ([0x59, 0x42, 0x43] ++ place ++ beBytes 2 gen)

/-- The working key of a slot of the kind a register field uses (R299). -/
def Dev.workKey (d : Dev) (kind slot : Nat) : Option WorkKey :=
  match Maps.get? slot d.key.working with
  | some w => if w.kind = kind then some w else none
  | none => none

/-- A target's broadcast generation (R307). -/
def Dev.bcastGen (d : Dev) (target : Nat) : Nat := (Maps.getD d.dur.bcast target (0, 0)).1

/-- The slot its key derives from: KEY_BCAST.SLOT as that generation began (R307, R308). -/
def Dev.bcastSlot (d : Dev) (target : Nat) : Nat := ((Maps.get? target d.dur.bcast).map (·.2)).getD (d.get F.KEY_BCAST_SLOT)

/-- The broadcast key of a target's generation under a slot, where that holds a BROADCAST root (R290, R299). -/
def Dev.bcastKeyOf (d : Dev) (target gen slot : Nat) : Option Nat :=
  if (d.workKey Kind.broadcast slot).isNone then none else (d.root? slot).map fun r => broadcastKey r target gen

/-- The broadcast key of a target now, where its root is present (R307). -/
def Dev.bcastKey (d : Dev) (target : Nat) : Option Nat := d.bcastKeyOf target (d.bcastGen target) (d.bcastSlot target)

/-- One DRBG request of `w` bits (R312): its value is free; it counts toward the reseed and toward the stop of R313. -/
def Dev.drbg (d : Dev) (w : Nat) : BitVec w × Dev :=
  match d.fresh w with
  | (v, d) => (v, { d with key := { d.key with sinceSeed := d.key.sinceSeed + 1, sinceReseed := d.key.sinceReseed + 1 } })

/-- The ECDSA P-256 signature of `b` with SHA-256 under a scalar; its nonce is 40 B from the DRBG, reduced (R312). -/
def Dev.sign (d : Dev) (scalar : Nat) (b : Bytes) : BitVec 512 × Dev :=
  match d.drbg 320 with
  | (n, d) => (Crypto.ecdsaSign scalar (Crypto.sha256 b) (Crypto.scalarOf n.toNat), d)

/-- The DRBG serves requests (R313). -/
def Dev.drbgRuns (d : Dev) : Bool := d.flag F.KEY_STATUS_DRBG_RUN

/-- A CLO_INT_STATUS bit, raised on main power only (R375); in a reset no event follows. -/
def Dev.cloRaise (d : Dev) (x : Fld) (arg0 : Nat := 0) (arg1 : Nat := 0) : Dev :=
  if d.clo.onBattery then d else if d.glb.inReset then d.setW1c x 1 else d.raise x arg0 arg1

/-- Write a root into the vault under a new mask (R288). -/
def Dev.storeRoot (d : Dev) (slot root : Nat) : Dev :=
  match d.drbg 128 with
  | (m, d) =>
    let d := { d with clo := { d.clo with vault := Maps.put d.clo.vault slot ⟨root ^^^ m.toNat, m.toNat⟩ } }
    d.set F.KEY_SLOTS_PRESENT (d.get F.KEY_SLOTS_PRESENT ||| 2 ^ slot)

/-- Derive the working key of a slot from its root and metadata. -/
def Dev.deriveSlot (d : Dev) (slot : Nat) : Dev :=
  match d.root? slot with
  | none => { d with key := { d.key with working := Maps.del slot d.key.working } }
  | some r =>
    let m := d.slotMeta slot
    { d with key := { d.key with working := Maps.put d.key.working slot ⟨m.kind, m.gen, deriveKey r m.kind slot m.gen⟩ } }

/-- A stored key set, unwrapped: it needs its STORE_KEK slot's working key to be the one that wrapped it, an intact
store, and the KCV of its descriptor (R306). -/
def Dev.unwrapSet (d : Dev) (k : KeySet) : Option KeySet :=
  match d.workKey Kind.storeKek k.kekSlot with
  | some w => if w.key = k.under ∧ k.corrupt = false then some k else none
  | none => none

/-- The meter has a downlink: wireless M-Bus classes are receive-only (R301). -/
def Dev.hasDownlink (d : Dev) (meter : Nat) : Bool :=
  match Maps.get? meter d.dur.ctxs with
  | some c => (((d.trellis.class? c.cls).map fun k => k.medium != 1).getD true) && !c.mbus
  | none => false

/-- The Tamper-Locked or Vault-Lost state holds (R310). -/
def Dev.keyLocked (d : Dev) : Bool := d.get F.KEY_STATUS_STATE != 0

/-- End a KEY command with its result. -/
def Dev.keyDone (d : Dev) (code : Nat) : Dev :=
  ((d.set F.KEY_CMD_RESULT code).set F.KEY_CMD_BUSY 0).raise F.KEY_INT_STATUS_CMD_DONE code

/-- The meter key-set metadata of an index. -/
def Dev.meterKeys (d : Dev) (i : Nat) : MeterKeys := Maps.getD d.dur.keys i {}

/-- R311: the slots that the metadata lists as present. -/
def Dev.rootsHeld (d : Dev) : List (Nat × SlotMeta) := d.dur.roots.filter fun p => p.2.kind != 0

/-- The body of a record's bytes. -/
def RecordBody.ofBytes (b : Bytes) : RecordBody :=
  let w := b.le 4 4
  { cls := b.u8 2, count := b.u8 3, meter := w % 2 ^ 20, mbus := w.testBit 20, position := w / 2 ^ 24 % 8, address := b.be 8 8,
    seq := b.le 0x10 6, tariff := b.u8 0x16, source := b.u8 0x17, rxSec := b.le 0x18 6, rxNs := b.le 0x1E 4, tsSec := b.le 0x22 6,
    counter := b.le 0x28 4, quality := b.le 0x2C 2, values := (List.range 8).map fun i => signed 64 (b.le (0x30 + 8 * i) 8) }

/-- A record goes under the previous generation: it is below S (R297). -/
def PrevKey.covers (p : PrevKey) (seq : Nat) : Bool :=
  match p.below with
  | some s => decide (seq < s)
  | none => true

/-- The key that tags or signs sequence number `seq` (R297): the previous generation below S. -/
def Dev.recordKey (d : Dev) (ecdsa : Bool) (seq : Nat) : Option Nat :=
  let slot := d.get (if ecdsa then F.ING_RECORD_SIGN_SLOT else F.ING_RECORD_TAG_SLOT)
  match d.key.previous.find? fun p => p.slot == slot && p.covers seq with
  | some p => some p.key
  | none => (d.workKey (if ecdsa then Kind.sign else Kind.tag) slot).map (·.key)

/-- Queue a committed record for its tag or signature, in sequence order. -/
def Dev.queueRecord (d : Dev) (r : PendingRecord) : Dev :=
  let before := d.eng.records.filter fun x => decide (x.seq < r.seq)
  let after := d.eng.records.filter fun x => decide (r.seq < x.seq)
  { d with eng := { d.eng with records := before ++ [r] ++ after } }

/-- Queue the records pinned unsigned whose key is present again (R177, R311). -/
def Dev.reEmitUnsigned (d : Dev) : Dev :=
  ((d.nfm.epochs.flatMap (·.recs)).filter (·.unsignedRec)).foldl
    (fun d r => match r.bytes with
      | some b =>
        if (d.recordKey r.ecdsa r.seq).isNone then d
        else d.queueRecord { seq := r.seq, ring := r.ring, body := RecordBody.ofBytes b, ecdsa := r.ecdsa, done := none, replay := true }
      | none => d) d

/-- Where the keys are in service on the device that serves meters, records that lacked theirs go out again (R177). -/
def Dev.reEmitNow (d : Dev) : Dev := if d.serves && !d.keyLocked then d.reEmitUnsigned else d

/-- What KEY_STATUS shows of the candidate register. -/
def Dev.showCand (d : Dev) : Dev :=
  let c := d.clo.candidate
  let f (g : Candidate → Nat) : Nat := (c.map g).getD 0
  (((d.set F.KEY_STATUS_CAND_VALID (b2n c.isSome)).set F.KEY_STATUS_CAND_VERIFIED (f fun x => b2n x.verified)).set F.KEY_STATUS_CAND_SLOT
    (f (·.slot))).set F.KEY_STATUS_CAND_KIND (f (·.kind))

/-- The 16-bit GENERATION a candidate takes (R289, R295): one more, but the recorded one where KEY_ZERO emptied the slot and the same
root comes back (R311; log entry 18). -/
def Dev.nextGen (d : Dev) (c : Candidate) : Nat :=
  let old := d.slotMeta c.slot
  if (d.root? c.slot).isNone ∧ old.kind = c.kind ∧ old.kcv = kcvOf 16 c.root then old.gen else (old.gen + 1) % 65536

/-- R295, R297: a candidate's root, metadata and working key are in place; for kinds 3 and 4 the previous generation stays for
records below S. The new metadata. -/
def Dev.placeRoot (d : Dev) (c : Candidate) (below : Option Nat) : SlotMeta × Dev :=
  let m : SlotMeta := ⟨c.kind, d.nextGen c, kcvOf 16 c.root⟩
  let prev := match d.workKey c.kind c.slot with
    | some w => if c.kind = Kind.tag ∨ c.kind = Kind.sign then [({ slot := c.slot, key := w.key, gen := w.gen, below := below } : PrevKey)] else []
    | none => []
  let d := { d with
    key := { d.key with previous := d.key.previous ++ prev }
    clo := { d.clo with candidate := none } }
  let d := d.storeRoot c.slot c.root
  (m, ({ d with dur := d.dur.control (.root c.slot (some m)) }.deriveSlot c.slot).showCand)

/-- R295, R297: a slot's commit is logged with its kind, generation and S. -/
def Dev.rootCommitted (d : Dev) (slot seq : Nat) : Dev :=
  let m := d.slotMeta slot
  d.raise F.KEY_INT_STATUS_ROOT_COMMITTED (slot + 2 ^ 8 * m.kind + 2 ^ 16 * (m.gen % 2 ^ 16)) seq

/-- R295: write a committed candidate: placed, journaled and logged. -/
def Dev.commitRoot (d : Dev) (c : Candidate) : Dev :=
  let seq := d.dur.seqNext
  match d.placeRoot c (some seq) with
  | (m, d) => ((d.journal (.root c.slot (some m))).rootCommitted c.slot seq).reEmitNow

/-- R296, R316: a standby commits at the active device's word; S waits until that device has committed, or this one serves. -/
def Dev.commitAhead (d : Dev) (c : Candidate) : Dev :=
  match d.placeRoot c none with
  | (m, d) =>
    { d with
      key := { d.key with committed := d.key.committed ++ [(c.slot, c.kind)] }
      prl := { d.prl with applied := d.prl.applied ++ [.root c.slot (some m)] } }

/-- R316: S of the roots of a slot committed ahead is the next number now. -/
def Dev.takeS (d : Dev) (slot : Nat) : Dev :=
  if (d.key.committed.any fun p => p.1 == slot) = false then d
  else
    let seq := d.dur.seqNext
    let f (p : PrevKey) : PrevKey := if p.slot = slot ∧ p.below = none then { p with below := some seq } else p
    { d with key := { d.key with previous := d.key.previous.map f, committed := d.key.committed.filter fun p => p.1 != slot } }.rootCommitted
      slot seq

/-! ## Commands that a standby applies first -/

/-- Complete a forwarded command: clear BUSY, show the result and set the block's CMD_DONE. -/
def Dev.finish (d : Dev) (result : Nat) : Finish → Dev
  | .ctx => (((d.set F.CTX_STATUS_ALLOCATED d.dur.ctxs.length).set F.CTX_CMD_RESULT result).set F.CTX_CMD_BUSY 0).raise F.CTX_INT_STATUS_CMD_DONE result
  | .fhm => (d.set F.FHM_HEAD_CMD_RESULT result).set F.FHM_HEAD_CMD_BUSY 0
  | .bal => ((d.set F.BAL_CMD_RESULT result).set F.BAL_CMD_BUSY 0).raise F.BAL_INT_STATUS_CMD_DONE result
  | .dst _ => ((d.set F.DST_CMD_RESULT result).set F.DST_CMD_BUSY 0).raise F.DST_INT_STATUS_CMD_DONE result
  | .key => d.keyDone result
  | .trl slot =>
    (((d.set F.TRL_CMD_STATUS_RESULT result).set F.TRL_CMD_STATUS_BUSY 0).set (F.TRL_SLOT_STATUS_LAST_RESULT.at slot) result).raise
      F.TRL_INT_STATUS_CMD_DONE result
  | .load slot => { d with dst := { d.dst with loading := Maps.put d.dst.loading slot 5 } }
  | .root slot _ =>
    match d.clo.candidate with
    | some c => if c.slot = slot then (d.commitRoot c).keyDone result else d.keyDone Kr.partnerNotReady
    | none => d.keyDone Kr.partnerNotReady

/-- Show a Graft slot's package: its state and first generation, EMPTY with none (TRL registers). -/
def Dev.showSlot (d : Dev) (slot : Nat) : Dev :=
  match Maps.get? slot d.trl.slots with
  | none => (d.set (F.TRL_SLOT_STATUS_STATE.at slot) 0).set (F.TRL_SLOT_GEN_GENERATION.at slot) 0
  | some st =>
    (d.set (F.TRL_SLOT_STATUS_STATE.at slot) (if st.armedAt.isSome then 2 else 1)).set (F.TRL_SLOT_GEN_GENERATION.at slot)
      ((st.pkg.sections.head?.map (·.2.1)).getD 0)

/-- Put a package into a Graft slot. -/
def Dev.putSlot (d : Dev) (slot : Nat) (st : Staged) : Dev :=
  { d with trl := { d.trl with slots := Maps.put d.trl.slots slot st } }.showSlot slot

/-- Empty a Graft slot. -/
def Dev.emptySlot (d : Dev) (slot : Nat) : Dev :=
  { d with trl := { d.trl with slots := Maps.del slot d.trl.slots } }.showSlot slot

/-- R190: discard what waits for a meter, each frame counted. A METER_CANCEL that waits ends. -/
def Dev.discardMeter (d : Dev) (i : Nat) : Dev :=
  let cancels := d.eng.downs.any fun x => x.1 == i && x.2.1 == .cancel
  let d := (d.countBy R.CTX_CNT_n 9 (d.framesOf i)).forgetMeter i
  if cancels then d.keyDone Kr.noCandidate else d

/-- R49, R413: the packages that a SYNCING standby lacks travel to it, with what else goes beside the journal. -/
def Dev.sendHeld (d : Dev) (cycles : List Nat) : Dev :=
  let lacks := d.trl.slots.filter fun x => !x.2.partnerHas
  if lacks = [] ∧ cycles = [] then d
  else
    let d := { d with trl := { d.trl with slots := d.trl.slots.map fun (x : Nat × Staged) => (x.1, { x.2 with partnerHas := true }) } }
    d.sendRunner d.trellis.device.mirrorLink d.trellis.device.partner (.resync (.held lacks cycles))

/-- Make a command's durable changes and complete it. What came in for a meter while its FREE waited goes with it (R190). -/
def Dev.complete (d : Dev) (c : PairCmd) : Dev :=
  let d := (d.eng.freeing.filter fun i => c.recs.contains (.free i)).foldl Dev.discardMeter d
  let d := c.recs.foldl Dev.journal d
  let d := c.stage.elim d fun p => d.putSlot p.1 p.2
  let d := if d.get F.PRL_STATUS_PARTNER_STATE = PairSt.syncing ∧ d.mirroring then d.sendHeld [] else d
  let d := c.dma.foldl (fun d w => d.emit (.dma w.1 w.2)) d
  let freeing := d.eng.freeing.filter fun i => !c.recs.contains (.free i)
  { d with eng := { d.eng with freeing := freeing } }.finish c.result c.finish

/-- The BUSY bit of a command. -/
def Finish.busy : Finish → Option Fld
  | .ctx => some F.CTX_CMD_BUSY
  | .fhm => some F.FHM_HEAD_CMD_BUSY
  | .bal => some F.BAL_CMD_BUSY
  | .dst _ => some F.DST_CMD_BUSY
  | .key => some F.KEY_CMD_BUSY
  | .trl _ => some F.TRL_CMD_STATUS_BUSY
  | .root _ _ => some F.KEY_CMD_BUSY
  | .load _ => none

/-- Carry out a command: at once, or, with a synchronised standby, after the standby has applied it (R189): it is then
sent over MIRROR_LINK and stays BUSY. -/
def Dev.pairDo (d : Dev) (c : PairCmd) : Dev :=
  if d.standbySynced then
    let d := d.sendRunner d.trellis.device.mirrorLink d.trellis.device.partner (.command c)
    let d := { d with prl := { d.prl with pendingCmds := d.prl.pendingCmds ++ [c] } }
    match c.finish.busy with
    | some x => d.set x 1
    | none => d
  else d.complete c

/-- A standby refuses the command (R189): the pair state of a device that does not serve. -/
def Dev.standbyRefuses (d : Dev) : Bool := d.pairState == PairSt.standby || d.pairState == PairSt.syncing

end Sys2Proof.Machine
end

