-- ==== Sys2Proof/Machine/Calendar.lean ====
section
/-! DEFINITION. Calendar time (08): civil dates, local time with summer time (R216), the tariff in force (R217),
demand-interval indexes (R220) and billing-period boundaries. Instants are PTP seconds; `off` is TAI − UTC. -/

namespace Sys2Proof.Machine

/-- Days since 1970-01-01 of a civil date (proleptic Gregorian). -/
def daysFromCivil (y : Int) (m d : Nat) : Int :=
  let y' := if m ≤ 2 then y - 1 else y
  let era := y' / 400
  let yoe := y' - era * 400
  let mp : Int := ((m + 9) % 12 : Nat)
  let doy := (153 * mp + 2) / 5 + (d : Int) - 1
  era * 146097 + yoe * 365 + yoe / 4 - yoe / 100 + doy - 719468

/-- The civil date (year, month, day) of a day number since 1970-01-01. -/
def civilFromDays (z : Int) : Int × Nat × Nat :=
  let z' := z + 719468
  let era := z' / 146097
  let doe := z' - era * 146097
  let yoe := (doe - doe / 1460 + doe / 36524 - doe / 146096) / 365
  let doy := doe - (365 * yoe + yoe / 4 - yoe / 100)
  let mp := (5 * doy + 2) / 153
  let d := doy - (153 * mp + 2) / 5 + 1
  let m := if mp < 10 then mp + 3 else mp - 9
  ((if m ≤ 2 then yoe + era * 400 + 1 else yoe + era * 400), m.toNat, d.toNat)

/-- ISO weekday (1 Monday to 7 Sunday) of a day number. -/
def weekdayOf (z : Int) : Nat := ((z + 3) % 7).toNat + 1

/-- Days in a month. -/
def daysInMonth (y : Int) (m : Nat) : Nat :=
  (if m = 12 then daysFromCivil (y + 1) 1 1 - daysFromCivil y 12 1 else daysFromCivil y (m + 1) 1 - daysFromCivil y m 1).toNat

/-- The day number on which a DST rule falls in a year: WEEK-th WEEKDAY of MONTH, 5 the last. -/
def dstDay (y : Int) (r : DstRule) : Int :=
  let first := daysFromCivil y r.month 1
  let d0 := ((r.weekday + 7 - weekdayOf first) % 7 : Nat)
  if r.week ≤ 4 then first + (d0 + 7 * (r.week - 1) : Nat)
  else
    let n := daysInMonth y r.month
    first + (d0 + 7 * ((n - 1 - d0) / 7) : Nat)

/-- The DST_START transition of a year, in seconds of local standard time. -/
def dstStartAt (c : CalRec) (y : Int) : Int := dstDay y c.dstStart * 86400 + 900 * (c.dstStart.quarter : Int)

/-- The DST_END transition of a year, in seconds of local standard time; its QUARTER is in local summer time. -/
def dstEndAt (c : CalRec) (y : Int) : Int :=
  dstDay y c.dstEnd * 86400 + 900 * (c.dstEnd.quarter : Int) - 60 * (c.dstDelta : Int)

/-- The year of an instant in local standard seconds. -/
def yearOf (s : Int) : Int := (civilFromDays (s / 86400)).1

/-- Whether summer time is in force at an instant of local standard time. -/
def isDst (c : CalRec) (s : Int) : Bool :=
  if c.dstDelta = 0 then false
  else
    let a := dstStartAt c (yearOf s)
    let b := dstEndAt c (yearOf s)
    if a < b then decide (a ≤ s) && decide (s < b) else decide (a ≤ s) || decide (s < b)

/-- Local standard seconds of a PTP instant (R216). -/
def localStd (c : CalRec) (off : Int) (ptp : Nat) : Int := (ptp : Int) - off + 60 * c.stdOffset

/-- The wall-clock seconds by which switch points of an instant are judged. In the hour repeated at the end of summer
time every point of that hour has taken effect at its first occurrence (R216). -/
def wallOf (c : CalRec) (s : Int) : Int :=
  if isDst c s then s + 60 * (c.dstDelta : Int)
  else
    let e := dstEndAt c (yearOf s)
    if c.dstDelta ≠ 0 ∧ e ≤ s ∧ s < e + 60 * (c.dstDelta : Int) then e + 60 * (c.dstDelta : Int) - 1 else s

/-- Local time of a PTP instant, in seconds (R216). -/
def localTime (c : CalRec) (off : Int) (ptp : Nat) : Int :=
  let s := localStd c off ptp
  if isDst c s then s + 60 * (c.dstDelta : Int) else s

/-- The PTP instant of a wall-clock instant: the transition for one in the gap, the first occurrence for one in the
repeated hour (R216). -/
def ptpOfWall (c : CalRec) (off : Int) (w : Int) : Int :=
  let summer := w - 60 * (c.dstDelta : Int)
  let s := if c.dstDelta ≠ 0 ∧ isDst c summer = true then summer
    else if isDst c w = true then dstStartAt c (yearOf w) else w
  s - 60 * c.stdOffset + off

/-- UTC as the time-stamp unit gives it (R216, R334): TAI − UTC now, and (instant, offset before it) for each leap second
that this device saw, latest first. -/
structure Utc where
  now : Int
  leaps : List (Nat × Int) := []

/-- TAI − UTC in force at a PTP second. -/
def Utc.at (u : Utc) (ptp : Nat) : Int := u.leaps.foldl (fun o p => if ptp < p.1 then p.2 else o) u.now

/-- The first PTP second whose UTC is `s`. -/
def Utc.ptp (u : Utc) (s : Int) : Int :=
  s + (((u.leaps.map (·.2)).reverse.find? fun o => u.at (s + o).toNat == o).getD u.now)

/-- The special-day entry's precedence for an instance and date (R217), 0 when it does not match. -/
def specialRank (d : SpecialDay) (inst : Nat) (y : Int) (m day : Nat) : Nat :=
  if d.month ≠ m ∨ d.day ≠ day then 0
  else if d.year ≠ 0 ∧ (d.year : Int) ≠ y then 0
  else if d.calendar = inst then (if d.year ≠ 0 then 4 else 2)
  else if d.calendar = 0xFF then (if d.year ≠ 0 then 3 else 1) else 0

/-- The matching special day of highest precedence. -/
def specialFor (inst : Nat) (y : Int) (m day : Nat) : List SpecialDay → Option (Nat × Nat)
  | [] => none
  | d :: ds =>
    let r := specialRank d inst y m day
    match specialFor inst y m day ds with
    | some (r', p) => if r' < r then some (r, d.profile) else some (r', p)
    | none => if r = 0 then none else some (r, d.profile)

/-- The season in force on a date (R217). -/
def seasonFor (l : List Season) (m day : Nat) : Option Season :=
  match (l.filter fun s => decide (s.month < m) || (decide (s.month = m) && decide (s.day ≤ day))).getLast? with
  | some s => some s
  | none => l.getLast?

/-- The day profile of a local day (R217, step 1). -/
def dayProfile (cal : Calendar) (c : CalRec) (day : Int) : List (Nat × Nat) :=
  let (y, m, d) := civilFromDays day
  match specialFor c.inst y m d cal.special with
  | some (_, p) => c.days.getD p []
  | none =>
    match seasonFor c.seasons m d with
    | some s => c.days.getD ((c.weeks.getD s.week []).getD (weekdayOf day - 1) 0) []
    | none => []

/-- The tariff in force at a PTP instant under one calendar record (R217). -/
def tariffIn (cal : Calendar) (c : CalRec) (off : Int) (ptp : Nat) : Nat :=
  let w := wallOf c (localStd c off ptp)
  let day := w / 86400
  let minute := (w - day * 86400) / 60
  match ((dayProfile cal c day).filter fun p => decide ((p.1 : Int) ≤ minute)).getLast? with
  | some p => p.2
  | none => 0

/-- The record of a calendar instance. -/
def Calendar.inst? (cal : Calendar) (i : Nat) : Option CalRec := cal.insts.find? (·.inst == i)

/-- The switch instants of `n` local days from day `d` under one record (R217). -/
def switchesFrom (cal : Calendar) (c : CalRec) (off : Int) : Nat → Int → List Int
  | 0, _ => []
  | n + 1, d => (dayProfile cal c d).map (fun p => ptpOfWall c off (d * 86400 + 60 * (p.1 : Int))) ++ switchesFrom cal c off n (d + 1)

/-- The demand-interval index of an instant (R220): floor(s / (60 × I)) with s local standard seconds. -/
def demandIndex (c : CalRec) (off : Int) (minutes ptp : Nat) : Nat := (localStd c off ptp / (60 * (minutes : Int))).toNat

/-- The PTP instant at which a demand interval starts. -/
def demandStart (c : CalRec) (off : Int) (minutes idx : Nat) : Int := (idx : Int) * 60 * (minutes : Int) - 60 * c.stdOffset + off

/-- Whether a billing period ends on local day `d`. -/
def periodEndsOn (c : CalRec) (d : Int) : Bool :=
  match c.periodKind with
  | 0 => (civilFromDays d).2.2 == c.periodDay
  | 1 => weekdayOf d == c.periodDay
  | 2 => true
  | _ => false

/-- The boundaries that `n` local days from day `d` end with, rising. -/
def boundariesFrom (c : CalRec) (off : Int) : Nat → Int → List Int
  | 0, _ => []
  | n + 1, d =>
    if periodEndsOn c d then ptpOfWall c off (d * 86400 + 900 * (c.periodQuarter : Int)) :: boundariesFrom c off n (d + 1)
    else boundariesFrom c off n (d + 1)

/-! ## The calendars of a span -/

/-- Sorted insertion without repeats. -/
def insEdge (x : Nat) : List Nat → List Nat
  | [] => [x]
  | y :: l => if x < y then x :: y :: l else if x = y then y :: l else y :: insEdge x l

/-- The instants strictly between `a` and `b`, rising, without repeats. -/
def edgesIn (a b : Nat) (l : List Int) : List Nat :=
  (l.filter fun t => decide ((a : Int) < t) && decide (t < (b : Int))).foldl (fun acc t => insEdge t.toNat acc) []

/-- What governs calendar time for one meter or instance. -/
structure CalEnv where
  cal : Calendar
  /-- The calendar that the live one replaced, and the application instant (R218). -/
  superseded : Option (Calendar × Nat)
  inst : Nat
  /-- A calendar instance that an activation replaced, and the switch instant (R278). -/
  was : Option (Nat × Nat) := none
  utc : Utc

/-- The calendar instance in force at an instant (R278). -/
def CalEnv.instAt (e : CalEnv) (ptp : Nat) : Nat :=
  match e.was with
  | some (i, t) => if ptp < t then i else e.inst
  | none => e.inst

/-- The calendar that was live at an instant (R218): the superseded one before its successor's application instant. -/
def CalEnv.calAt (e : CalEnv) (ptp : Nat) : Calendar :=
  match e.superseded with
  | some (old, t) => if ptp < t then old else e.cal
  | none => e.cal

/-- The calendar record that governs an instant. -/
def CalEnv.rec? (e : CalEnv) (ptp : Nat) : Option CalRec := (e.calAt ptp).inst? (e.instAt ptp)

/-- The tariff in force at an instant (R217, R218). -/
def CalEnv.tariff (e : CalEnv) (ptp : Nat) : Nat :=
  match e.rec? ptp with
  | some c => tariffIn (e.calAt ptp) c (e.utc.at ptp) ptp
  | none => 0

/-- The instants at which another calendar or instance takes over. -/
def CalEnv.cuts (e : CalEnv) : List Nat := (e.superseded.map (·.2)).toList ++ (e.was.map (·.2)).toList

/-- The parts of the span `a` to `b` under one calendar, instance and offset each, ends exclusive; then `b` alone. -/
def CalEnv.pieces (e : CalEnv) (a b : Nat) : List (Nat × Nat) :=
  let pts := a :: edgesIn a b ((e.cuts ++ e.utc.leaps.map (·.1)).map Int.ofNat) ++ [b, b]
  pts.zip pts.tail

/-- The instants of `a` to `b` that `f` gives for a record, an offset and a span, each taken from the record and offset in
force at it (R218). -/
def CalEnv.over (e : CalEnv) (a b : Nat) (f : Calendar → CalRec → Int → Nat → Nat → List Int) : List Int :=
  (e.pieces a b).flatMap fun p =>
    match e.rec? p.1 with
    | some c => (f (e.calAt p.1) c (e.utc.at p.1) p.1 p.2).filter fun x =>
        decide ((p.1 : Int) ≤ x) && (decide (x < (p.2 : Int)) || decide (x = (p.1 : Int)))
    | none => []

/-- The instants from `a` to `b` at which demand intervals of some minutes end (R220). -/
def CalEnv.gridEnds (e : CalEnv) (mins a b : Nat) : List Int :=
  e.over a b fun _ c off x y =>
    (List.range ((y - x) / (60 * max 1 mins) + 2)).map fun k => demandStart c off mins (demandIndex c off mins x + k)

/-- The billing-period boundaries B with `a < B ≤ b`, rising (08, "Billing periods"). -/
def CalEnv.bounds (e : CalEnv) (a b : Nat) : List Nat :=
  ((e.over a b fun _ c off x y => boundariesFrom c off ((y - x) / 86400 + 4) (localTime c off x / 86400 - 1)).filter fun t =>
    decide ((a : Int) < t)).foldl (fun acc t => insEdge t.toNat acc) []

end Sys2Proof.Machine
end

