-- ==== Sys2Proof/Machine/Billing.lean ====
section
/-! DEFINITION. Crediting a reading to the billing block (R222 to R229, R232): segments, shares, demand intervals,
outages, comparison with the meter, and period closure. Pure functions of the block: the live path and replay (R373)
use the same ones. -/

namespace Sys2Proof.Machine

/-- What crediting needs to know beside the block. -/
structure BillEnv extends CalEnv where
  layout : TariffLayout
  /-- BIL_TOL.ABS and BIL_TOL.PPM (R226), and BIL_HISTORY.DEPTH (R228). -/
  tolAbs : Nat
  tolPpm : Nat
  depth : Nat

/-- What a credited reading shows beside the block it leaves. -/
structure BillNote where
  tariff : Nat := 0
  late : Bool := false
  mismatch : Bool := false
  spanLimit : Bool := false
  /-- Boundaries this reading closed for its meter, rising. -/
  closed : List Nat := []
  /-- The span was split across two or more tariffs; part of it lay inside an outage; demand intervals it closed. -/
  split : Bool := false
  outage : Bool := false
  intervals : Nat := 0
  deriving DecidableEq, Repr

/-- The register rate that a tariff feeds. -/
def BillEnv.rate (e : BillEnv) (tariff : Nat) : Nat := e.layout.rateMap.getD tariff 0

def BillEnv.index (e : BillEnv) (ptp : Nat) : Nat :=
  match e.rec? ptp with
  | some c => demandIndex c (e.utc.at ptp) e.layout.demandInterval ptp
  | none => 0

/-- The instant at which a demand interval starts, under the record in force there. -/
def BillEnv.startOf (e : BillEnv) (idx : Nat) : Nat :=
  let s : Int := (idx : Int) * 60 * (e.layout.demandInterval : Int)
  let near (t : Nat) : Nat := (e.utc.ptp (s - 60 * ((e.rec? t).map (·.stdOffset)).getD 0)).toNat
  near (near s.toNat)

/-- Part of a demand interval lies inside the meter's recorded outage (R224). -/
def BillEnv.overlaps (e : BillEnv) (b : BillBlock) (idx : Nat) : Bool :=
  let from_ := e.startOf idx
  decide (b.outDown ≠ 0) && decide (b.outDown < from_ + 60 * e.layout.demandInterval) && (decide (b.outUp = 0) || decide (from_ < b.outUp))

/-- Whether an instant lies inside the meter's recorded outage (R225). -/
def inOutage (b : BillBlock) (t : Nat) : Bool :=
  decide (b.outDown ≠ 0) && decide (b.outDown ≤ t) && (decide (b.outUp = 0) || decide (t < b.outUp))

/-- The ends of demand intervals between `a` and `b` (R222, step 3). -/
def intervalEnds (e : BillEnv) (a b : Nat) : List Int := e.gridEnds e.layout.demandInterval a b

/-- The tariff switches between `a` and `b`, each under the calendar then live, and the instants at which another calendar
or instance takes over. -/
def switchesIn (e : BillEnv) (a b : Nat) : List Int :=
  (e.over a b fun cal c off x y => switchesFrom cal c off ((y - x) / 86400 + 4) (localTime c off x / 86400 - 1)) ++
    e.cuts.map Int.ofNat

/-- The elementary segments of a span, as (start, end), in time order (R222, step 3). -/
def segments (e : BillEnv) (b : BillBlock) (t0 t1 : Nat) : List (Nat × Nat) :=
  let edges := edgesIn t0 t1 (switchesIn e t0 t1 ++ intervalEnds e t0 t1 ++
    (e.bounds t0 t1).map (fun (x : Nat) => (x : Int)) ++ [(b.outDown : Int), (b.outUp : Int)])
  let pts := t0 :: edges ++ [t1]
  pts.zip pts.tail

/-- A segment's weight (R222, step 4). -/
def segWeight (b : BillBlock) (s : Nat × Nat) : Nat := if inOutage b s.1 then 0 else s.2 - s.1

/-- Add to an energy register. -/
def addEnergy (b : BillBlock) (key v : Nat) : BillBlock :=
  if v = 0 then b else { b with energy := Maps.put b.energy key ((Maps.getD b.energy key 0 + v) % 2 ^ 64) }

/-- Take a maximum-demand value where it is larger (R224). -/
def takeMax (b : BillBlock) (key v idx : Nat) : BillBlock :=
  if (Maps.getD b.maxDemand key (MaxDemand.mk 0 0)).value < v then { b with maxDemand := Maps.put b.maxDemand key (MaxDemand.mk v idx) } else b

/-- What a 32-bit demand field holds of a number (R220): the number where it fits; else the spec states none (log entry 70). -/
def demandFld (n : Nat) : Nat := if n < 2 ^ 32 then n else (Config.demandOver n).toNat

/-- Close the open demand interval (R224). -/
def closeInterval (e : BillEnv) (b : BillBlock) : BillBlock :=
  match b.opened with
  | none => b
  | some o =>
    let mins := max 1 e.layout.demandInterval
    let di := demandFld (o.imp * 60 / mins)
    let de := demandFld (o.exp * 60 / mins)
    let r := e.rate (e.tariff (e.startOf o.index))
    let b1 := { b with
      opened := none
      lastDemand := { o with imp := di, exp := de }
      incomplete := satNat 32 (b.incomplete + b2n o.incomplete)
      estimated := satNat 32 (b.estimated + b2n o.estimated) }
    if o.estimated && o.longSpan then b1 else takeMax (takeMax b1 (2 * r) di o.index) (2 * r + 1) de o.index

/-- Add a share to the demand interval `idx`, closing an earlier one first. -/
def addDemand (e : BillEnv) (b : BillBlock) (idx d v : Nat) (outage est long : Bool) : BillBlock :=
  let b0 := match b.opened with
    | some o => if o.index < idx then closeInterval e b else b
    | none => b
  let o := b0.opened.getD { index := idx }
  { b0 with opened := some { o with
      imp := if d = 0 then demandFld (o.imp + v) else o.imp
      exp := if d = 1 then demandFld (o.exp + v) else o.exp
      incomplete := o.incomplete || outage
      estimated := o.estimated || est
      longSpan := o.longSpan || long } }

/-- Close the period at boundary `bd` (R228): history, maximum demands, count, start. -/
def closePeriod (depth : Nat) (b : BillBlock) (bd : Nat) : BillBlock :=
  { b with
    history := ((b.history ++ [HistEntry.mk bd b.energy b.maxDemand]).reverse.take (max 1 depth)).reverse
    maxDemand := []
    periodCount := satNat 32 (b.periodCount + 1)
    periodStart := bd
    periodLate := false }

/-- Close every boundary of `bs` not yet closed for this meter, at or before `t`, in rising order. -/
def closeUpTo (e : BillEnv) (t : Nat) : List Nat → BillBlock → BillBlock
  | [], b => b
  | bd :: bs, b =>
    if bd ≤ t ∧ b.periodStart < bd then
      -- the interval that ends at the boundary closes first (R232)
      let b1 := match b.opened with
        | some o => if o.index < e.index bd then closeInterval e b else b
        | none => b
      closeUpTo e t bs (closePeriod e.depth b1 bd)
    else closeUpTo e t bs b

/-- Whether any part of a span lies before the meter's last closed boundary (R229). -/
def isLate (b : BillBlock) (t0 t1 : Nat) : Bool := decide (b.periodStart ≠ 0) && (decide (t1 < b.periodStart) || decide (t0 < b.periodStart))

/-- Credit the segments in time order: `left` is what is still to credit per direction, `lastW` the number of weighted
segments still to come (R222, steps 5 and 6; R232 orders what falls at one edge). -/
def creditSegs (e : BillEnv) (delta : List Nat) (total : Nat) (est long : Bool) (bounds : List Nat) :
    List (Nat × Nat) → List Nat → Nat → BillBlock → BillBlock
  | [], _, _, b => b
  | s :: ss, left, lastW, b =>
    let w := segWeight b s
    let out := inOutage b s.1
    let share := fun (d : Nat) =>
      if total = 0 then (if ss.isEmpty then left.getD d 0 else 0)
      else if w ≠ 0 ∧ lastW = 1 then left.getD d 0
      else delta.getD d 0 * w / total
    let idx := e.index s.1
    let r := e.rate (e.tariff s.1)
    let b0 := closeUpTo e s.1 bounds b
    let b1 := [0, 1, 2, 3].foldl (fun b d => addEnergy b (4 * r + d) (share d)) b0
    let b2 := addDemand e (addDemand e b1 idx 0 (share 0) out est long) idx 1 (share 1) out est long
    creditSegs e delta total est long bounds ss ([0, 1, 2, 3].map fun d => left.getD d 0 - share d)
      (if w = 0 then lastW else lastW - 1) b2

/-- R223: credit a span longer than 400 days wholly to the tariff, period and interval of ts. That interval and the open one are
INCOMPLETE where part of them lay in the outage (R224). -/
def creditWhole (e : BillEnv) (delta : List Nat) (bounds : List Nat) (ts : Nat) (b : BillBlock) : BillBlock :=
  let b := { b with opened := b.opened.map fun o => { o with incomplete := o.incomplete || e.overlaps b o.index } }
  let b0 := closeUpTo e ts bounds b
  let r := e.rate (e.tariff ts)
  let b1 := [0, 1, 2, 3].foldl (fun b d => addEnergy b (4 * r + d) (delta.getD d 0)) b0
  let idx := e.index ts
  addDemand e (addDemand e b1 idx 0 (delta.getD 0 0) (e.overlaps b idx) true true) idx 1 (delta.getD 1 0) (e.overlaps b idx) true true

/-- Deviation of a reported register from its shadow in ppm, saturating (R226). -/
def deviationPpm (reported shadow : Nat) : Nat :=
  satNat 32 ((if reported < shadow then shadow - reported else reported - shadow) * 1000000 / max 1 shadow)

/-- R226 for one direction: seed, or compare. The flag says a mismatch was found. -/
def compareOne (e : BillEnv) (rate d reported : Nat) (bn : BillBlock × Bool) : BillBlock × Bool :=
  let b := bn.1
  let key := 4 * rate + d
  if b.seeded.testBit key = false then
    ({ b with seeded := b.seeded ||| 2 ^ key, energy := if reported = 0 then Maps.del key b.energy else Maps.put b.energy key reported }, bn.2)
  else
    let shadow := Maps.getD b.energy key 0
    let dev := if reported < shadow then shadow - reported else reported - shadow
    if max (e.tolAbs * 1000000) (e.tolPpm * shadow) < dev * 1000000 then
      ({ b with mismatches := satNat 32 (b.mismatches + 1), maxDeviation := max b.maxDeviation (deviationPpm reported shadow) }, true)
    else bn

/-- The direction's value slot counts: its bit in DIRECTIONS is set and the class carries the slot (R221). -/
def slotUsed (e : BillEnv) (nvalues slot : Nat) : Bool := decide (slot < nvalues) && e.layout.directions.testBit (slot % 4)

/-- Credit one accepted reading that carries values (R222): `t0` the meter's LAST_TS (0 before its first reading), `ts`
its timestamp, `values` its slots. -/
def credit (e : BillEnv) (b : BillBlock) (t0 ts : Nat) (nvalues : Nat) (values : List Nat) : BillBlock × BillNote :=
  let totals := [0, 1, 2, 3].map fun d => if slotUsed e nvalues d then values.getD d 0 else b.lastTotal.getD d 0
  let t := e.tariff ts
  if t0 = 0 then ({ b with lastTotal := totals }, { tariff := t })
  else
    let delta := [0, 1, 2, 3].map fun d => totals.getD d 0 - b.lastTotal.getD d 0
    let lo := max b.periodStart t0
    let bounds := if lo < ts then e.bounds lo ts else []
    let late := isLate b t0 ts
    let est := decide (60 * e.layout.demandInterval < ts - t0)
    let long := decide (86400 < ts - t0)
    let spanLimit := decide (400 * 86400 < ts - t0)
    let b1 :=
      if spanLimit then creditWhole e delta bounds ts b
      else
        let segs := if t0 < ts then segments e b t0 ts else [(ts, ts)]
        let total := (segs.map (segWeight b)).sum
        creditSegs e delta total est long bounds segs delta (segs.filter fun s => segWeight b s != 0).length b
    -- an interval that ends at ts closes (R224), and then a boundary at ts (R232)
    let b2 := match b1.opened with
      | some o => if o.index < e.index ts then closeInterval e b1 else b1
      | none => b1
    let b3 := closeUpTo e ts bounds b2
    let b4 := { b3 with lastTotal := totals, late := satNat 32 (b3.late + b2n late), periodLate := b3.periodLate || late }
    let cmp := [0, 1, 2, 3].foldl (fun bn d =>
      if slotUsed e nvalues (4 + d) then compareOne e (e.rate t) d (values.getD (4 + d) 0) bn else bn) (b4, false)
    let segs := if spanLimit then [(ts, ts)] else if t0 < ts then segments e b t0 ts else [(ts, ts)]
    let touched := ((b.opened.map (·.index)).toList ++ segs.map fun s => e.index s.1).eraseDups
    (cmp.1, {
      tariff := t, late := late, mismatch := cmp.2, spanLimit := spanLimit
      closed := bounds.filter fun x => decide (b.periodStart < x)
      split := decide (2 ≤ (segs.map fun s => e.tariff s.1).eraseDups.length)
      outage := segs.any fun s => inOutage b s.1
      intervals := touched.length - b2n cmp.1.opened.isSome })

/-- R225: an outage edge. `up` false records the loss of supply at `t`, true its return. -/
def outageEdge (b : BillBlock) (up : Bool) (t : Nat) : BillBlock :=
  if up then
    if b.outDown ≠ 0 ∧ b.outUp = 0 then { b with outUp := t }
    else { b with outCount := satNat 32 (b.outCount + 1) }
  else { b with outDown := t, outUp := 0, outCount := satNat 32 (b.outCount + 1) }

end Sys2Proof.Machine
end

