-- ==== Sys2Proof/Machine/Binary64.lean ====
section
/-! DEFINITION. Binary64 arithmetic rounding to nearest even (R250), exactly: each operation rounds the exact rational
result once, with gradual underflow. The accumulators' values stay far below the format's largest, so exponents have no upper bound
here (log entry 11). -/

namespace Sys2Proof.Machine.B64

/-- `n / d` rounded to the nearest integer, ties to even. -/
def divEven (n d : Nat) : Nat :=
  let q := n / d
  let r := n % d
  if d < 2 * r then q + 1 else if 2 * r = d then q + q % 2 else q

/-- The binary64 value nearest `(-1)^neg × n × 2^k / d`. -/
def round (neg : Bool) (n d : Nat) (k : Int) : B64 :=
  if n = 0 ∨ d = 0 then {}
  else
    -- a scale that puts the quotient in [2^52, 2^54)
    let sh : Int := 53 + (Nat.log2 d : Int) - (Nat.log2 n : Int)
    let n1 := if 0 ≤ sh then n * 2 ^ sh.toNat else n
    let d1 := if 0 ≤ sh then d else d * 2 ^ (-sh).toNat
    let q1 := n1 / d1
    -- one bit less where the quotient has 54 bits
    let d2 := if 2 ^ 53 ≤ q1 then d1 * 2 else d1
    let e2 := if 2 ^ 53 ≤ q1 then k - sh + 1 else k - sh
    -- below the least normal value the last place stays 2^-1074
    let under := (-1074 - e2).toNat
    let d2 := d2 * 2 ^ under
    let e2 := e2 + under
    let q := divEven n1 d2
    let q' := if q = 2 ^ 53 then 2 ^ 52 else q
    let e' := if q = 2 ^ 53 then e2 + 1 else e2
    if q' = 0 then {} else ⟨if neg then -(q' : Int) else q', e'⟩

/-- An integer as binary64. -/
def ofInt (v : Int) : B64 := round (decide (v < 0)) v.natAbs 1 0

/-- A quotient of integers as binary64. -/
def ofRat (n : Int) (d : Nat) : B64 := round (decide (n < 0)) n.natAbs d 0

def add (a b : B64) : B64 :=
  let e := min a.e b.e
  let s := a.m * 2 ^ (a.e - e).toNat + b.m * 2 ^ (b.e - e).toNat
  round (decide (s < 0)) s.natAbs 1 e

def neg (a : B64) : B64 := ⟨-a.m, a.e⟩

def sub (a b : B64) : B64 := add a (neg b)

def mul (a b : B64) : B64 := round (decide (a.m * b.m < 0)) (a.m * b.m).natAbs 1 (a.e + b.e)

def div (a b : B64) : B64 := round (decide (a.m * b.m < 0)) a.m.natAbs b.m.natAbs (a.e - b.e)

def pos (a : B64) : Bool := decide (0 < a.m)

def le (a b : B64) : Bool := decide ((sub b a).m ≥ 0)

/-- The nearest integer, ties to even. -/
def toInt (a : B64) : Int :=
  if 0 ≤ a.e then a.m * 2 ^ a.e.toNat
  else
    let v : Int := divEven a.m.natAbs (2 ^ (-a.e).toNat)
    if a.m < 0 then -v else v

end Sys2Proof.Machine.B64
end

