-- ==== Sys2Proof/Machine/Balance.lean ====
section
/-! DEFINITION. The balance engine's arithmetic (09): member energy in bins (R244), loss (R248), evaluation (R247 to
R250), estimates (R251) and tamper records (R256), as functions of its tables. -/

namespace Sys2Proof.Machine

/-- BAL_CTRL.INTERVAL in minutes. -/
def balMinutes (code : Nat) : Nat := match code with | 0 => 5 | 1 => 10 | 2 => 15 | 3 => 30 | _ => 60

/-- The balance interval of an instant (R243): UTC seconds, leap seconds not counted. -/
def balIndex (mins : Nat) (utc : Utc) (ptp : Nat) : Nat := (((ptp : Int) - utc.at ptp) / (60 * (mins : Int))).toNat

/-- The start of balance interval `b`, as a PTP instant. -/
def balStart (mins : Nat) (utc : Utc) (b : Nat) : Nat := (utc.ptp (60 * (mins : Int) * (b : Int))).toNat

/-- The end of balance interval `b`, as a PTP instant. -/
def balEnd (mins : Nat) (utc : Utc) (b : Nat) : Nat := balStart mins utc (b + 1)

/-- Convert energy units of a layout's SCALER to mWh (R244, step 2). -/
def toMilliWh (scaler : Int) (v : Int) : Int :=
  if 0 ≤ scaler + 3 then v * 10 ^ (scaler + 3).toNat else v / 10 ^ (-(scaler + 3)).toNat

/-- Shares of `delta` over the balance intervals of a span, weighted by time outside outages (R244, step 3): the span
is cut at interval ends and outage edges; `total` is the weight; the last weighted piece takes the remainder. -/
def binShares (b : BillBlock) (mins : Nat) (utc : Utc) (delta : Int) (total : Nat) :
    List (Nat × Nat) → Int → Nat → List (Nat × Int)
  | [], _, _ => []
  | s :: ss, left, lastW =>
    let w := segWeight b s
    let share := if total = 0 then (if ss.isEmpty then left else 0)
      else if w ≠ 0 ∧ lastW = 1 then left
      -- rounded down, as R222 step 5 rounds
      else delta * w / total
    (balIndex mins utc s.1, share) :: binShares b mins utc delta total ss (left - share) (if w = 0 then lastW else lastW - 1)

/-- The pieces of a span at balance-interval ends and outage edges. -/
def balPieces (b : BillBlock) (mins : Nat) (utc : Utc) (t0 t1 : Nat) : List (Nat × Nat) :=
  let i0 := balIndex mins utc t0
  let n := (t1 - t0) / (60 * max 1 mins) + 2
  let edges := edgesIn t0 t1 ((List.range n).map (fun k => (balEnd mins utc (i0 + k) : Int)) ++ [(b.outDown : Int), (b.outUp : Int)])
  let pts := t0 :: edges ++ [t1]
  if t0 < t1 then pts.zip pts.tail else [(t1, t1)]

/-- The shares of a net change over the span `t0` to `t1`, in mWh per interval. -/
def sharesOf (b : BillBlock) (mins : Nat) (utc : Utc) (t0 t1 : Nat) (delta : Int) : List (Nat × Int) :=
  let ps := balPieces b mins utc t0 t1
  binShares b mins utc delta ((ps.map (segWeight b)).sum) ps delta ((ps.filter fun s => segWeight b s != 0).length)

/-- What a bin's signed 32 bits hold of an energy (R244): the energy where it fits; else no rule states it (log entry 53). -/
def binFld (n : Int) : Int := if -(2 ^ 31) ≤ n ∧ n < 2 ^ 31 then n else (Config.binOver n).toInt

/-- Three bins with BASE `base` after a share (R244, steps 4 to 6); the flag says the share was late. -/
def addBin (base : Nat) (bins : Int × Int × Int) (sh : Nat × Int) : (Int × Int × Int) × Bool :=
  if sh.2 = 0 then (bins, false)
  else if sh.1 < base then (bins, true)
  else if sh.1 = base then ((binFld (bins.1 + sh.2), bins.2.1, bins.2.2), false)
  else if sh.1 = base + 1 then ((bins.1, binFld (bins.2.1 + sh.2), bins.2.2), false)
  else ((bins.1, bins.2.1, binFld (bins.2.2 + sh.2)), false)

/-- A member after the shares of one reading; the count is of late shares. -/
def Member.credit (m : Member) (shares : List (Nat × Int)) : Member × Nat :=
  shares.foldl (fun acc sh =>
    let r := addBin acc.1.base (acc.1.bin0, acc.1.bin1, acc.1.bin2) sh
    ({ acc.1 with bin0 := r.1.1, bin1 := r.1.2.1, bin2 := r.1.2.2, lateEnergy := acc.1.lateEnergy || r.2 }, acc.2 + b2n r.2)) (m, 0)

/-- A zone's check-meter bins after the shares of one reading. -/
def ZoneRt.credit (z : ZoneRt) (shares : List (Nat × Int)) : ZoneRt :=
  shares.foldl (fun z sh =>
    let r := (addBin z.ckBase (z.ck0, z.ck1, z.ck2) sh).1
    { z with ck0 := r.1, ck1 := r.2.1, ck2 := r.2.2 }) z

/-- Round a rational to an integer, ties to even. -/
def roundHalfEven (n : Int) (d : Nat) : Int :=
  let q : Int := B64.divEven n.natAbs (max 1 d)
  if n < 0 then -q else q

/-- The technical loss of an interval (R248), in mWh. P = C / (10^6 × I / 60) kW, so
LOAD_LOSS × P² / 1,000 × I / 60 = LOAD_LOSS × C² × 60 / (1,000 × 10^12 × I). -/
def lossOf (z : ZoneRec) (mins : Nat) (c : Int) : Int :=
  if c ≤ 0 then 0
  else
    let i := max 1 mins
    let num : Int := (z.noLoadLoss : Int) * i * (1000 * 10 ^ 12 * i) + (z.loadLoss : Int) * c * c * 60 * 60
    roundHalfEven num (60 * (1000 * 10 ^ 12 * i))

/-- Pass 1 for one member (R247): freeze interval `b`. `lastTs` is its LAST_TS; `start` and `stop` bound the interval of
`mins` minutes. -/
def Member.freeze (m : Member) (mins b lastTs start stop : Nat) : Member :=
  if m.base ≠ b then { m with x := 0, estimated := false, est := 0, updated := false }
  else
    let missing := decide (lastTs < stop)
    let mean := if m.w.pos then B64.div m.sx m.w else {}
    let est := if missing then
        (B64.mul mean (B64.ofRat ((stop : Int) - max lastTs start) (60 * max 1 mins))).toInt else 0
    { m with x := m.bin0 + est, estimated := missing, est := est, updated := false, base := b + 1, bin0 := m.bin1, bin1 := m.bin2,
             bin2 := 0, missed := if missing then satNat 16 (m.missed + 1) else m.missed }

/-- λ = 1 − 1/WINDOW (R250). -/
def lambda (window : Nat) : B64 := B64.sub (B64.ofInt 1) (B64.div (B64.ofInt 1) (B64.ofInt window))

/-- R250 for one member of zone `z`: `xs` is X, `r` the residual. -/
def Member.update (m : Member) (z : ZoneRt) (lam : B64) (xs r : Int) : Member :=
  let s := if m.w.pos && z.sx.pos then B64.div (B64.div m.sx m.w) (B64.div z.sx z.w) else {}
  let x := B64.ofInt m.x
  let rr := B64.ofInt r
  let e := if s.pos then B64.sub x (B64.mul s (B64.ofInt xs)) else {}
  { m with
    w := B64.add (B64.mul lam m.w) (B64.ofInt 1), sx := B64.add (B64.mul lam m.sx) x,
    se := B64.add (B64.mul lam m.se) e, see := B64.add (B64.mul lam m.see) (B64.mul e e),
    sre := B64.add (B64.mul lam m.sre) (B64.mul rr e), sr := B64.add (B64.mul lam m.sr) rr,
    updated := true }

/-- R250 for the zone. -/
def ZoneRt.update (z : ZoneRt) (lam : B64) : ZoneRt :=
  let c := B64.ofInt z.curC
  let r := B64.ofInt z.curR
  { z with
    w := B64.add (B64.mul lam z.w) (B64.ofInt 1), sx := B64.add (B64.mul lam z.sx) (B64.ofInt z.curX),
    sc := B64.add (B64.mul lam z.sc) c, sr := B64.add (B64.mul lam z.sr) r,
    srr := B64.add (B64.mul lam z.srr) (B64.mul r r) }

/-- R251: the estimate U of an updated member, or none where it is unranked. -/
def Member.estimate (m : Member) (window minFill minSpread : Nat) : Option Int :=
  let mr := B64.div m.sre m.w
  let me := B64.div m.se m.w
  let cov := B64.sub mr (B64.mul me (B64.div m.sr m.w))
  let var := B64.sub (B64.div m.see m.w) (B64.mul me me)
  let mx := B64.div m.sx m.w
  let k := B64.div cov var
  let k1 := B64.add (B64.ofInt 1) k
  if m.noRank || B64.le (B64.ofRat ((minFill * window : Nat) : Int) 100) m.w == false ||
      B64.le var (B64.mul (B64.ofRat (minSpread : Int) 1000000) (B64.mul mx mx)) || k1.pos == false then none
  else some (clampInt (-1000000) 1000000 (B64.mul (B64.ofInt 1000000) (B64.div k k1)).toInt)

/-- R256: a tamper record after an event with value `v` at PTP second `t`. -/
def TamperRec.hit (r : TamperRec) (v t : Nat) : TamperRec :=
  { count := min 65535 (max (r.count + 1) v), first := if r.count = 0 then t else r.first, last := max r.last t }

/-- The children of a zone in the model. -/
def childrenOf (model : List ZoneRec) (z : Nat) : List ZoneRec := model.filter fun c => c.parent == z

/-- Zone `z`'s check energy for `b`, and whether it excludes the interval (R241, R249), from the tables: kind 2 sums its
children's, which the level order has left in `curC`. -/
def checkOf (model : List ZoneRec) (t : BalTab) (b : Nat) (z : ZoneRec) : Int × Bool :=
  let rt := Maps.getD t.zones z.zone ({} : ZoneRt)
  match z.checkKind with
  | 0 =>
    match rt.checks.find? (·.b == b) with
    | some c => (c.c, decide (0 < c.invalid) || c.saturated)
    | none => (0, true)
  | 1 => (rt.ckX, rt.ckMissing)
  | _ => (((childrenOf model z.zone).map fun c => (Maps.getD t.zones c.zone ({} : ZoneRt)).curC).sum, false)

/-- Pass 2 for one zone (R247 to R250): its residual, exclusion and updates. -/
def evalZone (model : List ZoneRec) (mins estPct b : Nat) (t : BalTab) (z : ZoneRec) : BalTab :=
  let rt := Maps.getD t.zones z.zone ({} : ZoneRt)
  let (c, ex0) := checkOf model t b z
  let kids := childrenOf model z.zone
  let mine := t.members.filter fun m => m.2.zone == z.zone
  let xs := (mine.map fun m => m.2.x).sum
  let kids_c := (kids.map fun k => (Maps.getD t.zones k.zone ({} : ZoneRt)).curC).sum
  let l := if z.checkKind = 2 then 0 else lossOf z mins c
  let r := if z.checkKind = 2 then (kids.map fun k => (Maps.getD t.zones k.zone ({} : ZoneRt)).curR).sum else c - xs - kids_c - l
  let bad := ex0 || kids.any fun k => (Maps.getD t.zones k.zone ({} : ZoneRt)).curBad
  let estSum := (mine.map fun m => m.2.est.natAbs).sum
  let ex := bad || decide (estPct * c.natAbs < 100 * estSum)
  let untrusted := match rt.checks.find? (·.b == b) with | some k => k.untrusted | none => false
  let rt1 : ZoneRt := { rt with
    curC := c, curX := xs, curR := r, curExcluded := ex, curBad := if z.checkKind = 2 then bad else ex0, lastR := r, lastC := c, lastL := l,
    excluded := ex, untrusted := untrusted, checks := rt.checks.filter fun k => decide (b < k.b) }
  if ex then { t with zones := Maps.put t.zones z.zone rt1 }
  else
    let lam := lambda z.window
    { t with
      zones := Maps.put t.zones z.zone (rt1.update lam)
      members := t.members.map fun m =>
        if m.2.zone = z.zone ∧ m.2.estimated = false ∧ m.2.base = b + 1 then (m.1, m.2.update rt lam xs r) else m }

/-- Pass 2 over levels 3 to 0 (R247). -/
def evalLevels (model : List ZoneRec) (mins estPct b : Nat) (t : BalTab) : BalTab :=
  [3, 2, 1, 0].foldl (fun t lv => (model.filter (·.level == lv)).foldl (evalZone model mins estPct b) t) t

/-- Pass 1 for a kind 1 zone: its check meter's bin of `b` (R241, R260). -/
def ZoneRt.freezeCheck (z : ZoneRt) (b lastTs stop : Nat) : ZoneRt :=
  let mine := decide (z.ckBase = b)
  { z with
    ckX := if mine then z.ck0 else 0, ckMissing := decide (lastTs < stop), ckBase := max z.ckBase (b + 1)
    ck0 := if mine then z.ck1 else z.ck0, ck1 := if mine then z.ck2 else z.ck1, ck2 := if mine then 0 else z.ck2 }

/-- Pass 1 over all members and check meters (R247). -/
def freezeAll (model : List ZoneRec) (mins : Nat) (utc : Utc) (b : Nat) (lastTs : Nat → Nat) (t : BalTab) : BalTab :=
  let stop := balEnd mins utc b
  { t with
    members := t.members.map fun m => (m.1, m.2.freeze mins b (lastTs m.1) (balStart mins utc b) stop)
    zones := (model.filter (·.checkKind == 1)).foldl (fun zs z =>
      Maps.put zs z.zone ((Maps.getD zs z.zone ({} : ZoneRt)).freezeCheck b (lastTs z.checkId) stop)) t.zones }

end Sys2Proof.Machine
end

