-- ==== Sys2Proof/Machine/Reading.lean ====
section
/-! DEFINITION. What a READING or a closure record changes (R364, R365, R373, R228): marks, keys, statistics, outages,
tampers, campaign status, stored values, billing and balance bins. The live path, replay and the standby apply the
same function. -/

namespace Sys2Proof.Machine

/-- What applying a reading takes from outside the durable state. -/
structure ReadEnv where
  trellis : Trellis
  utc : Utc
  tolAbs : Nat
  tolPpm : Nat
  depth : Nat
  balMins : Nat

/-- TAI − UTC as the time-stamp unit holds it, with the leap seconds it saw (R216). -/
def Dev.utc (d : Dev) : Utc := { now := d.signedFld F.TSU_UTC_OFFSET, leaps := d.tsu.leaps }

def Dev.readEnv (d : Dev) : ReadEnv :=
  { trellis := d.trellis, utc := d.utc, tolAbs := d.get F.BIL_TOL_ABS, tolPpm := d.get F.BIL_TOL_PPM,
    depth := d.get F.BIL_HISTORY_DEPTH, balMins := balMinutes (d.get F.BAL_CTRL_INTERVAL) }

/-- What an applied reading shows. -/
structure ReadNote where
  bill : BillNote := {}
  /-- Δ_1 of a member without GENERATION beyond tolerance (R255). -/
  reverse : Option Nat := none
  lateShares : Nat := 0
  /-- Meter and class of the record's context are known, and it carried values that were credited. -/
  credited : Bool := false
  deriving DecidableEq, Repr

def Trellis.layout? (t : Trellis) (l : Nat) : Option TariffLayout := t.layouts[l]?

/-- The calendar instance of a context: its own, or its class's. -/
def Trellis.instOf (t : Trellis) (c : Ctx) : Nat :=
  if c.cal = 0xFF then ((t.class? c.cls).map (·.calendar)).getD 0 else c.cal

/-- The latest calendar switch a campaign made for a meter: the instance before it and its instant (R278). -/
def Dur.calSwitch (u : Dur) (t : Trellis) (meter : Nat) : Option (Nat × Nat) :=
  let hits := u.campMembers.filter fun p => p.1 % 1048576 == meter && p.2.switched
  (hits.foldl (fun (acc : Option CampMember) p =>
    match acc with
    | some m => if m.switchAt < p.2.switchAt then some p.2 else acc
    | none => some p.2) none).map fun m => (t.instOf { address := 0, mbus := false, cls := m.oldCls, cal := m.oldCal }, m.switchAt)

/-- The crediting environment of a meter whose frame was taken under class `cls` (R222, R278). -/
def Dur.billEnv (u : Dur) (e : ReadEnv) (meter : Nat) (cls : MeterClass) : BillEnv :=
  let c := Maps.getD u.ctxs meter { address := 0, mbus := false, cls := cls.classId, cal := 0xFF }
  { cal := e.trellis.calendar, superseded := u.superseded, inst := if c.cal = 0xFF then cls.calendar else c.cal,
    was := u.calSwitch e.trellis meter, utc := e.utc,
    layout := (e.trellis.layout? cls.layout).getD { layoutId := 0, rates := 1, directions := 0, demandInterval := 15, scaler := [], unit := [], rateMap := [] },
    tolAbs := e.tolAbs, tolPpm := e.tolPpm, depth := e.depth }

/-- The class area after a reading: each used field's slot value at its offset; a counter keeps its extended value
(R168, R184). -/
def storeArea (cls : MeterClass) (count : Nat) (values : List Int) (area : List (Nat × Nat)) : List (Nat × Nat) :=
  cls.fields.foldl (fun a f =>
    if f.kind = 0 ∨ count ≤ f.slot then a
    else
      let v := values.getD f.slot 0
      let x := if f.kind = 2 then v.toNat else pattern (8 * f.width) v
      if x = 0 then Maps.del f.offset a else Maps.put a f.offset x) area

/-- Signed mWh of a net change: import less export, each by its SCALER (R244). -/
def netMilliWh (l : TariffLayout) (imp exp : Nat) : Int :=
  toMilliWh (l.scaler.getD 0 0) imp - toMilliWh (l.scaler.getD 1 0) exp

/-- R244, R255, R257: the balance tables after a credited reading of a span. -/
def BalTab.credit (t : BalTab) (e : ReadEnv) (env : BillEnv) (b : BillBlock) (meter t0 ts imp exp : Nat) (mismatch : Bool) :
    BalTab × Option Nat × Nat :=
  let shares := sharesOf b e.balMins e.utc t0 ts (netMilliWh env.layout imp exp)
  let zones := (e.trellis.zones.filter fun z => z.checkKind == 1 && z.checkId == meter).foldl
    (fun zs z => Maps.put zs z.zone ((Maps.getD zs z.zone ({} : ZoneRt)).credit shares)) t.zones
  match Maps.get? meter t.members with
  | none => ({ t with zones := zones }, none, 0)
  | some m =>
    let (m1, late) := if t0 = 0 then (m, 0) else m.credit shares
    let rev := decide (m.generation = false) && decide (e.tolAbs < exp) && t0 != 0
    let m2 := { m1 with mismatch := m1.mismatch || mismatch, reverse := m1.reverse || rev }
    ({ t with zones := if t0 = 0 then t.zones else zones, members := Maps.put t.members meter m2 }, if rev then some exp else none, late)

/-- R256: tamper updates of a reading. -/
def BalTab.tamper (t : BalTab) (meter : Nat) (hits : List (Nat × Nat × Nat)) : BalTab :=
  let t := hits.foldl (fun (t : BalTab) h =>
    let key := 4 * meter + h.1
    { t with tampers := Maps.put t.tampers key ((Maps.getD t.tampers key ({} : TamperRec)).hit h.2.1 h.2.2) }) t
  if hits = [] then t else { t with members := Maps.modify t.members meter fun m => { m with tamper := true } }

/-- The stored values, billing and balance after an accepted reading with values (R222, R244). -/
def Dur.takeValues (u : Dur) (e : ReadEnv) (r : ReadingRec) : Dur × ReadNote :=
  match Maps.get? r.meter u.ctxs, e.trellis.class? r.body.cls with
  | some c, some cls =>
    let env := u.billEnv e r.meter cls
    let b := Maps.getD u.bills r.meter {}
    let vals := r.body.values.map Int.toNat
    let ts := r.body.tsSec
    let (b1, note) := credit env b c.lastTs ts (min r.body.count cls.values) vals
    let delta (k : Nat) : Nat := if c.lastTs = 0 then 0 else b1.lastTotal.getD k 0 - b.lastTotal.getD k 0
    let (bal, rev, late) := u.bal.credit e env b r.meter c.lastTs ts (delta 0) (delta 1) note.mismatch
    let c1 := { c with area := storeArea cls r.body.count r.body.values c.area, lastTs := ts }
    ({ u with ctxs := Maps.put u.ctxs r.meter c1, bills := Maps.put u.bills r.meter b1, bal := bal },
      { bill := note, reverse := rev, lateShares := late, credited := true })
  | _, _ => (u, {})

/-- Commit a meter's candidate key (R161, R303): it becomes the current key and OUT_COUNTER restarts at 1. -/
def Dur.commitKey (u : Dur) (meter : Nat) : Dur :=
  let k := Maps.getD u.keys meter {}
  { u with
    keys := Maps.put u.keys meter { k with cur := k.cand, cand := none, deliver := false, tries := 0 }
    ctxs := Maps.modify u.ctxs meter fun c => { c with
      curKey := k.cand.isSome, candKey := false, outExhausted := false, inExhausted := false, outCounter := 1
      keyGen := (c.keyGen + 1) % 16 } }

/-- Commit a class's new authentication key (R304). -/
def Dur.commitAk (u : Dur) (cls : Nat) : Dur :=
  let k := Maps.getD u.classAks cls {}
  { u with classAks := Maps.put u.classAks cls { cur := k.cand, cand := none } }

/-- Marks, keys and statistics of a committed frame (R159, R161, R162, R164). -/
def Dur.mark (u : Dur) (r : ReadingRec) : Dur :=
  let u := if r.candKey then u.commitKey r.meter else u
  let u := if r.classAk then u.commitAk r.body.cls else u
  let bump (st : List Nat) : List Nat := st.mapIdx fun i v => if i = 0 ∨ (i = 3 ∧ r.rejected) then satNat 32 (v + 1) else v
  { u with ctxs := Maps.modify u.ctxs r.meter fun c => { c with
      m := r.counter, digest := r.digest, a := r.a.getD c.a, lastSeq := r.body.seq % 2 ^ 32, stats := bump c.stats
      inExhausted := r.counter == 0xFFFFFFFF } }

/-- The member's campaign status that a frame carries (R266, R274). -/
def Dur.campStatus (u : Dur) (r : ReadingRec) : Dur :=
  match r.campaign with
  | none => u
  | some (slot, state, cause, received) =>
    { u with campMembers := Maps.modify u.campMembers (1048576 * slot + r.meter) fun m =>
        { m with state := state, cause := cause, received := received } }

/-- R225: the outage edges of a reading. -/
def Dur.outages (u : Dur) (r : ReadingRec) : Dur :=
  if r.outages = [] then u
  else { u with bills := Maps.put u.bills r.meter (r.outages.foldl (fun b o => outageEdge b o.1 o.2) (Maps.getD u.bills r.meter {})) }

/-- The effect of a READING record; `kept` says its body survives (R487). -/
def Dur.reading (e : ReadEnv) (u : Dur) (r : ReadingRec) (kept : Bool) : Dur × ReadNote :=
  let u := (((u.mark r).campStatus r).outages r)
  let u := { u with bal := u.bal.tamper r.meter r.tampers, seqNext := max u.seqNext (r.body.seq + 1) }
  if r.rejected ∨ r.body.count = 0 ∨ kept = false then (u, {}) else u.takeValues e r

/-- R228: a meter's closure at a boundary, by the sweep. Its open demand interval stays open: a reading closes it (R224). -/
def Dur.closure (e : ReadEnv) (u : Dur) (meter boundary : Nat) : Dur :=
  let b := Maps.getD u.bills meter {}
  if b.periodStart < boundary then
    { u with bills := Maps.put u.bills meter (closePeriod e.depth b boundary) }
  else u

/-- The effect of any record. -/
def Dur.apply (e : ReadEnv) (u : Dur) (x : JEntry) : Dur :=
  match x.rec_ with
  | .reading r => (u.reading e r x.bodyKept).1
  | .closure m b => u.closure e m b
  | r => u.control r

end Sys2Proof.Machine
end

