-- ==== Sys2Proof/Machine/RingOps.lean ====
section
/-! DEFINITION. Shared operations of the rings (R434 to R442): room, flush, rewind, the drain engine, and the function's
reset (R431). -/

namespace Sys2Proof.Machine

def Dev.ring (d : Dev) (n : Nat) : Ring := d.face.ring n

def Dev.setRing (d : Dev) (n : Nat) (r : Ring) : Dev := { d with face := d.face.setRing n r }

/-- RING_MAP's record of a ring. -/
def Dev.ringRec (d : Dev) (n : Nat) : RingRec := d.env.ring n

def Dev.toHost (d : Dev) (n : Nat) : Bool := (d.ringRec n).content ≠ 0 && (d.ringRec n).direction == 0

def Dev.rd (d : Dev) (n : Nat) : Nat := d.get (F.RNG_n_PTR_RD.at n)
def Dev.wr (d : Dev) (n : Nat) : Nat := d.get (F.RNG_n_PTR_WR.at n)

/-- The retained packet that contains a pointer. -/
def Ring.packetAt (r : Ring) (p : Nat) : Option PktSpan :=
  r.pkts.find? fun k => decide ((p + 32768 - k.start) % 32768 < k.len)

/-- RD stands at a packet boundary. -/
def Dev.atBoundary (d : Dev) (n : Nat) : Bool :=
  d.rd n == d.wr n || (d.ring n).pkts.any (·.start == d.rd n)

/-- Bytes the host buffer has free (R441). -/
def Dev.hostFree (d : Dev) (n : Nat) : Nat :=
  let size := 2 ^ d.get (F.RNG_n_HSIZE_LOG2.at n)
  size - (d.get (F.RNG_n_HWR_OFFSET.at n) + 2 * size - d.get (F.RNG_n_HRD_OFFSET.at n)) % (2 * size)

/-- The packet the drain engine transfers now: the one at RD, where DRAIN is set and the host buffer has room. -/
def Dev.draining (d : Dev) (n : Nat) : Option PktSpan :=
  if d.get (F.RNG_n_CFG_DRAIN.at n) = 1 ∧ d.toHost n ∧ d.rd n ≠ d.wr n then
    match (d.ring n).packetAt (d.rd n) with
    | some p => if 4 * p.len ≤ d.hostFree n then some p else none
    | none => none
  else none

/-- R441: the drain engine stops for want of host buffer room. -/
def Dev.drainCheck (d : Dev) (n : Nat) : Dev :=
  let x := F.RNG_n_STATUS_HOST_BUF_FULL.at n
  let stopped := d.get (F.RNG_n_CFG_DRAIN.at n) = 1 ∧ d.toHost n ∧ d.rd n ≠ d.wr n ∧ d.draining n = none
  if stopped then (if d.flag x then d else (d.set x 1).raise F.RNG_INT_STATUS_HOST_BUF_FULL 0 n) else d.set x 0

/-- Flush a device-to-host ring now, or a host-to-device ring's packets not yet taken (R438). -/
def Dev.flushNow (d : Dev) (n : Nat) : Dev :=
  let r := d.ring n
  let d := d.set (F.RNG_n_STATUS_FLUSH_PENDING.at n) 0
  let d := d.set (F.RNG_n_PTR_RD.at n) (d.wr n)
  d.setRing n { r with ready := [], partial_ := [], discarding := false }

/-- REWIND now (R439). -/
def Dev.rewindNow (d : Dev) (n : Nat) : Dev :=
  let p := if d.flag (F.RNG_n_STATUS_MARK_VALID.at n) then d.get (F.RNG_n_MARK_POINTER.at n) else d.get (F.RNG_n_OLDEST_POINTER.at n)
  (d.setRing n { d.ring n with rewindPending := false }).set (F.RNG_n_PTR_RD.at n) p

/-- Campaign status entries that wait for room go to their ring, oldest first (R440). -/
def Dev.placeWaiting : Nat → Nat → Dev → Dev
  | 0, _, d => d
  | k + 1, n, d =>
    match (d.ring n).waiting with
    | [] => d
    | e :: es =>
      match d.ringPut n false e with
      | some d => Dev.placeWaiting k n (d.setRing n { d.ring n with waiting := es })
      | none => d

/-- What follows a move of RD: a pending flush at a boundary, and packets that waited for room. -/
def Dev.afterRead (d : Dev) (n : Nat) : Dev :=
  let d := if d.flag (F.RNG_n_STATUS_FLUSH_PENDING.at n) ∧ d.atBoundary n then d.flushNow n else d
  (Dev.placeWaiting (d.ring n).waiting.length n d).drainCheck n

/-- Write a campaign status packet: entries wait, oldest first, up to 4,096 of them; beyond that they are dropped
(R440). -/
def Dev.putStatus (d : Dev) (n : Nat) (body : List Word) : Dev :=
  let r := d.ring n
  match (if r.waiting = [] then d.ringPut n false body else none) with
  | some d => d.drainCheck n
  | none =>
    if r.waiting.length < 4096 then d.setRing n { r with waiting := r.waiting ++ [body] }
    else
      { d with face := d.face.add (R.RNG_n_DROPS.at n) 1 }.raise F.RNG_INT_STATUS_RING_DROP 0 n

/-- Write a response packet (R451): its room was kept when its command was taken; it waits where that is gone. -/
def Dev.putResponse (d : Dev) (n : Nat) (body : List Word) : Dev :=
  let r := d.ring n
  match (if r.waiting = [] then d.ringPut n false body else none) with
  | some d => d.drainCheck n
  | none => d.setRing n { r with waiting := r.waiting ++ [body] }

/-- R451: answer a command: the header, then what its status gives. A ring not of content 4 takes no response: the command
is logged. -/
def Dev.respond (d : Dev) (ring opcode status tag : Nat) (rest : Bytes) : Dev :=
  if (d.ringRec ring).content = 4 ∧ (d.ringRec ring).direction = 0 then
    (d.putResponse ring (bytesToWords (leBytes 1 opcode ++ leBytes 1 status ++ leBytes 2 tag ++ rest))).count R.RNG_CNT_n 1
  else d.raise F.RNG_INT_STATUS_CMD_REJECTED tag status

/-- The ring of a content, where RING_MAP has one (the lowest number). -/
def Dev.ringOf (d : Dev) (content : Nat) : Option Nat :=
  (List.range 64).find? fun n => (d.ringRec n).content == content && (d.ringRec n).direction == 0

/-- R431: the host side of the function is cleared: its configuration state, the MSI-X table, the drain engines, and IRQ, HBUF,
HSIZE, HRD and WB of every ring. The cleared drain engine's offset HWR and DRAIN bit go with it (log entry 14). -/
def Dev.clearHost (d : Dev) : Dev :=
  let d := { d with face := { d.face with hst := { d.face.hst with msix := [], cfg := [] } } }
  let regs := [R.RNG_n_IRQ, R.RNG_n_HBUF_LO, R.RNG_n_HBUF_HI, R.RNG_n_HSIZE, R.RNG_n_HRD, R.RNG_n_HWR, R.RNG_n_WB_LO,
    R.RNG_n_WB_HI]
  let gone (p : Nat × Word) : Bool := regs.any fun r => r.covers p.1
  let d := { d with face := { d.face with regs := d.face.regs.filter fun p => !gone p } }
  (List.range 64).foldl
    (fun d n =>
      let d := (d.set (F.RNG_n_CFG_DRAIN.at n) 0).set (F.RNG_n_STATUS_HOST_BUF_FULL.at n) 0
      if (d.ring n).rewindPending then d.rewindNow n else d)
    d

/-- A host-buffer write of `b` at `off`, wrapping at the buffer's end (R441). -/
def Dev.hostWrite (d : Dev) (n off : Nat) (b : Bytes) : Dev :=
  let size := 2 ^ d.get (F.RNG_n_HSIZE_LOG2.at n)
  let base := (d.reg (R.RNG_n_HBUF_LO.at n)).toNat + 2 ^ 32 * (d.reg (R.RNG_n_HBUF_HI.at n)).toNat
  let o := off % size
  if o + b.length ≤ size then d.emit (.dma (base + o) b)
  else (d.emit (.dma (base + o) (b.take (size - o)))).emit (.dma base (b.drop (size - o)))

end Sys2Proof.Machine
end

