-- ==== Sys2Proof/Machine/Camp.lean ====
section
/-! DEFINITION. Shared operations of campaigns (10): member records and their entries, status reports, counts and the end
of a campaign. -/

namespace Sys2Proof.Machine

/-- Member states of R266. -/
def Ms.offered : Nat := 0
def Ms.receiving : Nat := 1
def Ms.complete : Nat := 2
def Ms.verified : Nat := 3
def Ms.activated : Nat := 4
def Ms.failed : Nat := 5
def Ms.waiting : Nat := 6

/-- Causes of R280. -/
def Cc.hash : Nat := 1
def Cc.rounds : Nat := 2
def Cc.late : Nat := 3
def Cc.activation : Nat := 4
def Cc.unreachable : Nat := 6
def Cc.removed : Nat := 7
def Cc.aborted : Nat := 8

def CampMember.final (m : CampMember) : Bool := m.state == Ms.activated || m.state == Ms.failed

/-- The members of a campaign, with their meters. -/
def Dur.members (u : Dur) (slot : Nat) : List (Nat × CampMember) :=
  (u.campMembers.filter fun p => p.1 / 1048576 == slot).map fun p => (p.1 % 1048576, p.2)

def Dur.campMember? (u : Dur) (slot meter : Nat) : Option CampMember := Maps.get? (1048576 * slot + meter) u.campMembers

/-- A member's place in a campaign: its cell, or 4,096 + 3f + p on ZX-PLC. -/
def Ctx.place (c : Ctx) : Option Nat :=
  match c.zx with
  | some z => some (4096 + 3 * z.feeder + z.phase)
  | none => c.heads.head?.map (·.head)

/-- The key of a campaign's rounds at a place. -/
def roundKey (slot place : Nat) : Nat := 8192 * slot + place

def Dev.rounds (d : Dev) (slot place : Nat) : Rounds := Maps.getD d.dst.rounds (roundKey slot place) {}

def Dev.setRounds (d : Dev) (slot place : Nat) (r : Rounds) : Dev :=
  { d with dst := { d.dst with rounds := Maps.put d.dst.rounds (roundKey slot place) r } }

/-- Rounds begun at a place. -/
def Campaign.begunAt (c : Campaign) (place : Nat) : Nat := Maps.getD c.begun place 0

/-- Block size in bytes (R262, R276). -/
def Campaign.blockBytes (c : Campaign) (zx : Bool) : Nat := if zx then 8 * 2 ^ c.zxBlock else 128

def Campaign.blocks (c : Campaign) (zx : Bool) : Nat := (c.length + c.blockBytes zx - 1) / c.blockBytes zx

/-- Show a campaign's state and counts (DST_C_STATE, DST_C_COUNT, DST_STATUS). -/
def Dev.showCamp (d : Dev) (slot : Nat) : Dev :=
  let ms := d.dur.members slot
  let n (s : Nat) : Nat := (ms.filter fun p => p.2.state == s).length
  let d := (List.range 7).foldl (fun d s => d.set (F.DST_C_COUNT_s_COUNT.at2 slot s) (n s)) d
  let running := (d.dst.rounds.filter fun p => p.1 / 8192 == slot && p.2.running).length
  let d := d.set (F.DST_C_COUNT_s_COUNT.at2 slot 7) running
  let d := d.set (F.DST_C_STATE_MEMBERS.at slot) (ms.filter fun p => p.2.cause != Cc.removed).length
  match Maps.get? slot d.dur.campaigns with
  | some c =>
    ((d.set (F.DST_C_STATE_STATE.at slot) c.state).set (F.DST_C_STATE_CAUSE.at slot) c.cause).set F.DST_STATUS_USED
      (d.get F.DST_STATUS_USED ||| 2 ^ slot)
  | none =>
    ((d.set (F.DST_C_STATE_STATE.at slot) 0).set (F.DST_C_STATE_CAUSE.at slot) 0).set F.DST_STATUS_USED
      (setBitTo (d.get F.DST_STATUS_USED) slot false)

/-- R285: the 32 B status entry, on the campaign-status ring where RING_MAP has one. -/
def Dev.campEntry (d : Dev) (slot state cause flags meter seq received sec ns : Nat) : Dev :=
  let id := ((Maps.get? slot d.dur.campaigns).map (·.id)).getD 0
  let b := leBytes 1 slot ++ leBytes 1 state ++ leBytes 1 cause ++ leBytes 1 flags ++ leBytes 4 meter ++ leBytes 4 id ++
    leBytes 6 seq ++ leBytes 3 received ++ [0] ++ leBytes 6 sec ++ leBytes 4 ns
  match d.ringOf 3 with
  | some n => d.putStatus n (bytesToWords b)
  | none => d

/-- Flags of an entry: 1 switched, 2 reverted, 4 truncated, 8 campaign-level. -/
def Dev.memberEntry (d : Dev) (slot meter : Nat) (m : CampMember) (flags seq : Nat) : Dev :=
  let d := d.campEntry slot m.state m.cause flags meter seq m.received d.tsu.sec d.tsu.ns
  if m.state = Ms.failed then d.raise F.DST_INT_STATUS_METER_FAILED meter (slot + 256 * m.cause) else d

/-- A campaign changes its own state: journaled, shown and reported (R264, R285). -/
def Dev.setCampaign (d : Dev) (slot : Nat) (c : Campaign) : Dev :=
  let d := (d.journal (.campaign slot (some c))).showCamp slot
  d.campEntry slot c.state c.cause 8 0xFFFFF 0 0 d.tsu.sec d.tsu.ns

/-- The places of a campaign's members. -/
def Dev.campPlaces (d : Dev) (slot : Nat) : List Nat :=
  ((d.dur.members slot).filterMap fun p => (Maps.get? p.1 d.dur.ctxs).bind Ctx.place).eraseDups

/-- DST_STATUS.KEY_HOLD: blocks of a running round are held for a missing broadcast key (R283). -/
def Dev.held (d : Dev) : Bool := d.dst.rounds.any fun p => p.2.running && (d.bcastKey (p.1 % 8192)).isNone

/-- Show KEY_HOLD. -/
def Dev.showHeld (d : Dev) : Dev := d.set F.DST_STATUS_KEY_HOLD (b2n d.held)

/-- Stop every round of a campaign: each of its places is done. -/
def Dev.stopRounds (d : Dev) (slot : Nat) : Dev :=
  let all := (d.campPlaces slot).foldl (fun l p => Maps.put l (roundKey slot p) (Maps.getD l (roundKey slot p) {})) d.dst.rounds
  let stop (p : Nat × Rounds) : Nat × Rounds :=
    if p.1 / 8192 = slot then
      (p.1, { p.2 with
        running := false, collectingNow := false, due := false, again := [], lastRdv := 0, first := true, done := true
        doneAt := if p.2.done then p.2.doneAt else d.tsu.sec })
    else p
  { d with dst := { d.dst with rounds := all.map stop } }.showHeld

/-- Bytes that bitmaps may take. -/
def Dev.bitmapRoom (d : Dev) : Nat := if 8 ≤ d.get F.GLB_MEM_CH0 + d.get F.GLB_MEM_CH1 then 2 ^ 31 else 2 ^ 29

/-- Bytes of a place's two bitmaps. -/
def Dev.bitmapBytes (d : Dev) (key : Nat) : Nat :=
  match Maps.get? (key / 8192) d.dur.campaigns with
  | some c => 2 * ((c.blocks (decide (4096 ≤ key % 8192)) + 7) / 8)
  | none => 0

/-- Show whether a bitmap is paged out. -/
def Dev.showPaged (d : Dev) : Dev := d.set F.DST_STATUS_PAGED (b2n (d.dst.rounds.any fun p => p.2.paged))

/-- Page out the least recently used bitmaps beyond the allowance. -/
def Dev.pageOut : Nat → Dev → Dev
  | 0, d => d.showPaged
  | k + 1, d =>
    let inside := d.dst.rounds.filter fun p => !p.2.paged
    let total := (inside.map fun p => d.bitmapBytes p.1).sum
    let oldest := inside.foldl
      (fun (o : Option (Nat × Rounds)) p =>
        match o with
        | some q => if p.2.lastUse < q.2.lastUse then some p else o
        | none => some p) none
    match oldest with
    | some p =>
      if total ≤ d.bitmapRoom then d.showPaged
      else Dev.pageOut k { d with dst := { d.dst with rounds := Maps.put d.dst.rounds p.1 { p.2 with paged := true } } }
    | none => d.showPaged

/-- Use a place's bitmaps; those paged out come back first, counted. -/
def Dev.useBitmaps (d : Dev) (slot place : Nat) : Dev :=
  let d := if (d.rounds slot place).paged then d.count R.DST_CNT_n 7 else d
  let d := { d with dst := { d.dst with clock := d.dst.clock + 1 } }
  let d := d.setRounds slot place { d.rounds slot place with paged := false, lastUse := d.dst.clock }
  Dev.pageOut d.dst.rounds.length d

/-- An ACTIVE campaign ends once every member is Activated or Failed (R264); an aborted one goes on until EXPIRE
(R282). -/
def Dev.campEnd (d : Dev) (slot : Nat) : Dev :=
  match Maps.get? slot d.dur.campaigns with
  | some c =>
    let ms := d.dur.members slot
    if c.state = Cs.active ∧ c.aborted = false ∧ ms ≠ [] ∧ ms.all (fun p => p.2.final) then
      ((d.stopRounds slot).setCampaign slot { c with state := Cs.ended }).raise F.DST_INT_STATUS_ENDED slot
    else d
  | none => d

/-- Show every campaign's counts and end those whose members are all final. -/
def Dev.campsEnd (d : Dev) : Dev := d.dur.campaigns.foldl (fun d p => (d.showCamp p.1).campEnd p.1) d

/-- Change a member by a decision of the device: journaled, with its entry (R265, R266, R285). -/
def Dev.setMember (d : Dev) (slot meter : Nat) (m : CampMember) (flags : Nat) : Dev :=
  let d := d.journal (.campMember slot meter (some m))
  ((d.memberEntry slot meter m flags 0).showCamp slot).campEnd slot

/-- The campaign a status report names: by DST_C_ID, or by its low 8 bits on ZX-PLC. A campaign is live while it is
LOADING, ACTIVE or ENDED. -/
def Dev.campOf (d : Dev) (zx : Bool) (id : Nat) : Option Nat :=
  (d.dur.campaigns.find? fun p =>
    decide (p.2.state ≠ Cs.failed) && (if zx then p.2.id % 256 == id % 256 else p.2.id == id)).map (·.1)

/-- R266, R278: the state a member takes on a report of state `s` with cause `cause` while `now` is the device's time. It
never goes back; Activated and Failed are final but for the reversion of R280. In the second of the activation instant a report
that comes before the activation has applied wins (R286); LATE is for a member that becomes Verified. -/
def Campaign.reported (c : Campaign) (now : Nat) (m : CampMember) (s cause received : Nat) : CampMember :=
  let m1 := { m with received := received }
  let late := decide (c.act ≠ 0) && (c.activated || decide (c.act < now)) && !c.lateOk
  if m.state = Ms.activated ∧ s = Ms.failed ∧ cause = Cc.activation then { m1 with state := Ms.failed, cause := cause }
  else if m.final ∨ 5 < s then m1
  else if s = Ms.failed then { m1 with state := Ms.failed, cause := cause }
  else if s = Ms.verified ∧ late ∧ (m.state = Ms.waiting ∨ m.state < s) then { m1 with state := Ms.failed, cause := Cc.late }
  else if m.state = Ms.waiting ∨ m.state < s then { m1 with state := s }
  else m1

/-- Whether a report of Activated makes the member switch now (R278). -/
def CampMember.switches (m next : CampMember) : Bool :=
  next.state == Ms.activated && m.state != Ms.activated && !m.switched

/-- Missing blocks as a bitmap (R273): a truncated report misses all from its last listed range on. -/
def StatusIe.missing (r : StatusIe) (blocks : Nat) : Nat :=
  let span (a n : Nat) : Nat := (2 ^ (min n (blocks - a)) - 1) * 2 ^ a
  let m := r.ranges.foldl (fun m x => if x.1 < blocks then m ||| span x.1 x.2 else m) 0
  match r.truncated, r.ranges.getLast? with
  | true, some x => if x.1 < blocks then m ||| span x.1 blocks else m
  | _, _ => m

/-- A place's clock of collection periods: ns in a cell, mains cycles on a phase (R272, R275). -/
def Dev.placeClock (d : Dev) (place : Nat) : Nat := if place < 4096 then d.now else (d.zxFeeder ((place - 4096) / 3)).c

/-- A collection period: COLLECT seconds in a cell, PERIOD rounds on a phase. -/
def Dev.collectSpan (d : Dev) (place : Nat) : Nat :=
  let x := d.sched ((place - 4096) / 3)
  if place < 4096 then 1000000000 * d.get F.DST_TIMING_COLLECT else x.period * x.round

/-- The end of the collection period under way at a place, on its clock. -/
def Dev.collectEnd (d : Dev) (slot place : Nat) : Nat := (d.rounds slot place).collectAt + d.collectSpan place

/-- R272: a report's missing blocks enter the collecting bitmap of the member's cell or phase, or, where a cell's report was
received (PTP ns) after the end of the collection under way, the following one; a place that was done starts its rounds again while
fewer than ROUNDS_MAX have run. -/
def Dev.collect (d : Dev) (slot meter : Nat) (r : StatusIe) (rx : Nat) : Dev :=
  match Maps.get? slot d.dur.campaigns, (Maps.get? meter d.dur.ctxs).bind Ctx.place with
  | some c, some place =>
    let d := d.useBitmaps slot place
    let rr := d.rounds slot place
    let miss := r.missing (c.blocks (decide (4096 ≤ place)))
    let restart := rr.done && decide (miss ≠ 0) && decide (c.begunAt place < c.roundsMax)
    let after := rr.collectingNow && decide (place < 4096) && decide (d.collectEnd slot place < rx)
    d.setRounds slot place { rr with
      collecting := if after then rr.collecting else rr.collecting ||| miss
      later := if after then rr.later ||| miss else rr.later
      done := rr.done && !restart
      collectingNow := rr.collectingNow || restart
      collectAt := if restart then d.placeClock place else rr.collectAt }
  | _, _ => d

/-- R280: restore the class and calendar instance a member had before activation. -/
def Dev.revertMember (d : Dev) (slot meter : Nat) (m : CampMember) : Dev :=
  if m.switched then
    let d := d.journal (.ctxClass meter m.oldCls m.oldCal)
    let d := d.journal (.campMember slot meter (some { m with switched := false }))
    d.raise F.DST_INT_STATUS_CLASS_REVERTED meter slot
  else d

/-- R278: move a member's context to the new class and calendar instance, at instant `at_`. -/
def Dev.switchMember (d : Dev) (c : Campaign) (slot meter : Nat) (m : CampMember) (at_ : Nat) : CampMember × Dev :=
  match Maps.get? meter d.dur.ctxs with
  | none => (m, d)
  | some x =>
    if c.newClass = none ∧ c.newCal = none then (m, d)
    else
      let m1 := { m with switched := true, switchAt := at_, oldCls := x.cls, oldCal := x.cal }
      (m1, (d.journal (.campMember slot meter (some m1))).journal (.ctxClass meter (c.newClass.getD x.cls) (c.newCal.getD x.cal)))

/-- A committed status report (R274, R278, R285): the entry carries the frame's sequence number; a report of Activated
after the instant makes the member switch at the frame's timestamp. `old` is the member's record before it. -/
def Dev.reportDone (d : Dev) (slot meter : Nat) (old : CampMember) (r : StatusIe) (reverted : Bool) (seq ts : Nat) : Dev :=
  match Maps.get? slot d.dur.campaigns, d.dur.campMember? slot meter with
  | some c, some m =>
    let (m, d) := if old.switches m then d.switchMember c slot meter m ts else (m, d)
    let flags := b2n (old.switches m && m.switched) + 2 * b2n reverted + 4 * b2n r.truncated
    let d := if m.state ≠ old.state then d.memberEntry slot meter m flags seq else d
    (d.showCamp slot).campEnd slot
  | _, _ => d

/-! ## Commands that a standby applies first (R265) -/

/-- VENDOR and SUBTYPE of a header IE: VENDOR most significant byte first. -/
def Dev.vendorIe (d : Dev) (subtype : Nat) : Bytes := beBytes 3 (d.get F.FHM_IE_ID_ID) ++ leBytes 1 subtype

/-- R282: the abort's header IE content. -/
def Dev.abortIe (d : Dev) (c : Campaign) : Bytes := d.vendorIe 7 ++ leBytes 4 c.id

/-- A unicast abort waits for a radio member's next window (R282); on ZX-PLC a DIST frame goes (log entry 94). -/
def Dev.unicastAbort (d : Dev) (c : Campaign) (slot meter : Nat) : Dev :=
  match Maps.get? meter d.dur.ctxs with
  | some x =>
    if x.zx.isSome then d
    else
      let dl : Downlink := { id := d.fhm.dlNext, meter := meter, kind := .abort slot, ie := d.abortIe c, payload := [] }
      { d with fhm := { d.fhm with downlinks := d.fhm.downlinks ++ [dl], dlNext := d.fhm.dlNext + 1 } }
  | none => d

/-- R265, R285: what a change of members by command leaves once it is made: an entry each, and an abort to a member removed. -/
def Dev.memberDone (d : Dev) (slot : Nat) : JRec → Dev
  | .campMember _ meter (some m) =>
    let d := d.memberEntry slot meter m 0 0
    match Maps.get? slot d.dur.campaigns with
    | some c => if m.cause = Cc.removed then d.unicastAbort c slot meter else d
    | none => d
  | _ => d

/-- R264: CLEAR empties a campaign: its entry, and its LPDDR5 region, NAND copy, rounds and aborts. -/
def Dev.campClear (d : Dev) (slot : Nat) : Dev :=
  let d := d.campEntry slot 0 0 8 0xFFFFF 0 0 d.tsu.sec d.tsu.ns
  let x := d.dst
  ({ d with
    dst := { x with
      rounds := x.rounds.filter fun p => decide (p.1 / 8192 ≠ slot), objects := Maps.del slot x.objects
      reoffer := x.reoffer.filter fun k => decide (k / 1048576 ≠ slot) }
    fhm := { d.fhm with downlinks := d.fhm.downlinks.filter fun y => y.kind != DlKind.abort slot }
    nfm := { d.nfm with objects := Maps.del slot d.nfm.objects } }).showHeld.showPaged

/-- The members of a meter whose context is freed that fail with it (R265). -/
def Dev.freedMembers (d : Dev) : JRec → List (Nat × Nat × CampMember)
  | .free i => d.dur.campaigns.filterMap fun p => (d.dur.campMember? p.1 i).bind fun m => if m.final then none else some (p.1, i, m)
  | _ => []

/-- Complete a command, with what its changes mean to campaigns; a membership change of a zone waits for the evaluation in progress
(R260). -/
def Dev.completeCmd (d : Dev) (c : PairCmd) : Dev :=
  match c.finish with
  | .dst slot =>
    let d := if c.recs.contains (.campaign slot none) then d.campClear slot else d
    let d := d.complete c
    ((c.recs.foldl (fun d r => d.memberDone slot r) d).showCamp slot).campEnd slot
  | .ctx =>
    let freed := c.recs.flatMap d.freedMembers
    let d := d.complete c
    let fail (d : Dev) (x : Nat × Nat × CampMember) : Dev := d.memberEntry x.1 x.2.1 { x.2.2 with state := Ms.failed, cause := Cc.removed } 0 0
    (freed.foldl fail d).campsEnd
  | .bal => if d.bil.eval.isSome then { d with bil := { d.bil with waiting := some c, answered := true } } else d.complete c
  | _ => d.complete c

/-- Carry out a command: with a synchronised standby once that has applied it (R189). -/
def Dev.pairRun (d : Dev) (c : PairCmd) : Dev := if d.standbySynced then d.pairDo c else d.completeCmd c

/-- Members' records of a DST command, with its completion. -/
def Dev.campDo (d : Dev) (slot : Nat) (recs : List JRec) : Dev := d.pairRun { recs := recs, finish := .dst slot }

/-! ## Loads that end with the service (R263) -/

/-- Slots that hold members or a campaign that no load record made. -/
def Dur.unloaded (u : Dur) : List Nat :=
  (List.range 16).filter fun s =>
    match Maps.get? s u.campaigns with
    | some c => !(c.state == Cs.active || c.state == Cs.ended)
    | none => u.campMembers.any fun p => p.1 / 1048576 == s

/-- R263: they are EMPTY. -/
def Dur.dropLoads (u : Dur) : Dur := u.unloaded.foldl (fun u s => u.control (.campaign s none)) u

/-- R263: a load that was cut short leaves its slot EMPTY, journaled, and nothing of its object. -/
def Dev.dropLoads (d : Dev) : Dev :=
  let d := d.dur.unloaded.foldl (fun d s => d.journal (.campaign s none)) d
  let live (x : Nat × Bytes) : Bool := Maps.has d.dur.campaigns x.1
  { d with dst := { d.dst with objects := d.dst.objects.filter live, loading := [] }, nfm := { d.nfm with objects := d.nfm.objects.filter live } }

end Sys2Proof.Machine
end

