-- ==== Sys2Proof/Machine/Frames.lean ====
section
/-! DEFINITION. The octets of what the device sends to heads and meters: HLP datagrams (R62, R63), TX_AT bodies (R65), and
secured IEEE 802.15.4-2020 frames of version 0b10 (R69, R71, R72, R85, R88). -/

namespace Sys2Proof.Machine

/-! ## IEEE 802.15.4 frames -/

/-- The EUI-64 of an address: its octets stand in a frame least significant first (R11). -/
def euiOf (address : Nat) : Nat := leNat (beBytes 8 address)

/-- FHM_NET_EUI, the source of every frame (R72). -/
def Dev.netEui (d : Dev) : Nat := d.wide R.FHM_NET_EUI_LO R.FHM_NET_EUI_HI 0

/-- A frame control field of version 0b10, secured, with an extended source address: the frame type, the acknowledgement
request, PAN ID compression, the presence of IEs and the destination addressing mode. -/
def frameControl (type : Nat) (ack compress ies : Bool) (dst : Nat) : Bytes :=
  leBytes 2 (type + 8 + 32 * b2n ack + 64 * b2n compress + 512 * b2n ies + 1024 * dst + 8192 + 49152)

/-- The addressing part of a data frame to an extended address, which `dst` spells in frame octet order: PAN ID, destination and
source. -/
def Dev.unicastHeader (d : Dev) (seq pan dst : Nat) (ies : Bool) : Bytes :=
  frameControl 1 true false ies 3 ++ leBytes 1 seq ++ leBytes 2 pan ++ beBytes 8 dst ++ leBytes 8 d.netEui

/-- The same to the short address 0xFFFF of a PAN (R269). -/
def Dev.broadcastHeader (d : Dev) (seq pan : Nat) : Bytes :=
  frameControl 1 false true true 2 ++ leBytes 1 seq ++ leBytes 2 pan ++ leBytes 2 0xFFFF ++ leBytes 8 d.netEui

/-- An enhanced beacon's: the source PAN ID and address alone (R91). -/
def Dev.beaconHeader (d : Dev) (seq pan : Nat) : Bytes :=
  frameControl 0 false false true 0 ++ leBytes 1 seq ++ leBytes 2 pan ++ leBytes 8 d.netEui

/-- The auxiliary security header: level, key identifier mode by the identifier's length (1 without, 2 with a 4-octet key
source), frame counter and identifier. -/
def auxHeader (level counter : Nat) (keyId : Bytes) : Bytes :=
  leBytes 1 (level + 8 * (if keyId.length = 1 then 1 else 2)) ++ leBytes 4 counter ++ keyId

/-- A vendor-specific header IE (element ID 0x00) with its descriptor (R85). -/
def headerIe (content : Bytes) : Bytes := leBytes 2 (content.length % 128) ++ content

/-- Header IEs, and Header Termination 2 where a payload follows them. -/
def headerIes (ies : List Bytes) (payload : Bytes) : Bytes :=
  ies.flatMap headerIe ++ if ies = [] ∨ payload = [] then [] else leBytes 2 0x3F80

/-- MIC octets of a CCM* level. -/
def micLen (security : Nat) : Nat := match security with | 5 => 4 | 6 => 8 | _ => 16

/-- The CCM* nonce of a frame: the sender's EUI-64, the frame counter and the security level (R71). -/
def frameNonce (eui counter level : Nat) : Nat := beNat (beBytes 8 eui ++ beBytes 4 counter ++ beBytes 1 level)

/-- A secured frame without its FCS: header and IEs authenticated, the payload encrypted, and the MIC (R71, R85). -/
def Dev.secure (d : Dev) (header : Bytes) (level counter key : Nat) (keyId : Bytes) (ies : List Bytes) (payload : Bytes) : Bytes :=
  let aad := header ++ auxHeader level counter keyId ++ headerIes ies payload
  let sealed := Crypto.ccm (micLen level) key (frameNonce d.netEui counter level) aad payload
  aad ++ sealed.1 ++ sealed.2

/-- The key identifier of a broadcast key: key source and index (R307). -/
def Dev.broadcastKeyId (d : Dev) (index : Nat) : Bytes := leBytes 4 d.netEui ++ leBytes 1 index

/-- Octets of a unicast PSDU with its FCS: header 21, auxiliary security header 6, each IE with its descriptor, a termination IE
between IEs and a payload, MIC and FCS. -/
def unicastLen (security : Nat) (ies : List Nat) (payload : Nat) : Nat :=
  21 + 6 + (ies.map (2 + ·)).sum + (if ies = [] ∨ payload = 0 then 0 else 2) + payload + micLen security + 4

/-! ## HLP datagrams -/

/-- A split instant, big-endian: seconds in 6 B, nanoseconds in 4 B (R65). -/
def splitTime (ns : Nat) : Bytes := beBytes 6 (ns / 1000000000) ++ beBytes 4 (ns % 1000000000)

/-- The header of a datagram from the device (R62): DIRECTION is 1, SEND the present instant, and NONCE_EXT stands under
EPOCH 0. -/
def Dev.hlpHeader (d : Dev) (type head epoch ext len : Nat) : Bytes :=
  beBytes 1 1 ++ beBytes 1 type ++ beBytes 2 ext ++ beBytes 2 head ++ beBytes 1 epoch ++ beBytes 1 1 ++ splitTime d.now ++
    beBytes 2 len ++ if epoch = 0 then beBytes 8 ext else []

/-- A datagram's 12-byte nonce: HEAD_INDEX, DIRECTION, EPOCH, and the extended number or NONCE_EXT (R63). -/
def hlpNonce (head direction epoch ext : Nat) : Nat :=
  beNat (beBytes 2 head ++ beBytes 1 direction ++ beBytes 1 epoch ++ beBytes 8 ext)

/-- The UDP payload of a datagram from the device: header, encrypted body and tag (R62, R63). SEQ of an EPOCH 0 datagram is the
low 16 bits of its NONCE_EXT (log entry 77). -/
def Dev.hlpBytes (d : Dev) (type head epoch ext key : Nat) (body : Bytes) : Bytes :=
  let header := d.hlpHeader type head epoch ext body.length
  let sealed := Crypto.gcm 32 key (hlpNonce head 1 epoch ext) header body
  header ++ sealed.1 ++ beBytes 16 sealed.2.toNat

/-- A TX_AT's body (R65). -/
def Order.body (o : Order) : Bytes :=
  let offset (k : Nat) : Bytes := beBytes 4 (o.offsets.getD k 0)
  beBytes 4 o.txId ++ beBytes 1 o.channel ++ beBytes 1 o.rate ++ beBytes 1 (pattern 8 o.power) ++ beBytes 1 o.flags ++
    beBytes 1 o.attempts ++ [0] ++ beBytes 2 o.gate ++ splitTime o.t0 ++ (List.range 4).flatMap offset ++
    beBytes 2 o.psdu.bytes.length ++ o.psdu.bytes

end Sys2Proof.Machine
end

