-- ==== Sys2Proof/Machine/Nfm.lean ====
section
/-! DEFINITION. The archive (R356 to R360), the overflow region (R369), and room in the journal (R368). -/

namespace Sys2Proof.Machine

/-- Media states of NFM_STATUS. -/
def Media.offline : Nat := 0
def Media.unformatted : Nat := 1
def Media.normal : Nat := 2
def Media.readOnly : Nat := 3

def Dev.media (d : Dev) : Nat := d.get F.NFM_STATUS_STATE

/-- Bytes of a record: 128 with a tag, 176 with a signature (R178). -/
def recordBytes (ecdsa : Bool) : Nat := if ecdsa then 176 else 128

/-- Pages of 16 KiB that records of the given sizes fill, packed whole and in order (R356): (full pages, bytes in the last). -/
def packPages : List Nat → Nat × Nat → Nat × Nat
  | [], p => p
  | n :: ns, (full, used) => packPages ns (if used + n ≤ 16384 then (full, used + n) else (full + 1, n))

/-- Whether a stripe of `pages` data pages takes the records. -/
def stripeTakes (pages : Nat) (sizes : List Nat) : Bool := decide ((packPages sizes (0, 0)).1 < pages)

/-- The open epoch. -/
def Nand.openEpoch (n : Nand) : Option Epoch := n.epochs.getLast?

/-- Data pages of the stripe that fills: seven, and one fewer in an epoch's last stripe, whose last page holds the seal
(R344, R359). -/
def Nand.pagesLeft (n : Nand) : Nat :=
  match n.openEpoch with
  | some e => if e.stripes + 1 < n.stripesPerEpoch then 7 else 6
  | none => 7

/-- Size of an archived record. -/
def ArchRec.size (r : ArchRec) : Nat := recordBytes r.ecdsa

/-- The records of the filling stripe. -/
def Nand.fillingSizes (n : Nand) : List Nat :=
  match n.openEpoch with
  | some e => (e.recs.filter fun r => n.filling.contains r.seq).map ArchRec.size
  | none => []

/-- R203: the archive write buffer, the two stripes of R357, is more than 75 % full; a stripe of 112 KiB counts whole while it
is being programmed. -/
def Nand.bufferFull (n : Nand) : Bool :=
  decide (172032 < (if n.programming = [] then 0 else 114688) + n.fillingSizes.sum)

/-- Whether an epoch is pinned (R358): it holds an unsigned record, or one that host software has not confirmed. -/
def Dev.pinned (d : Dev) (e : Epoch) : Bool :=
  e.recs.any fun r => r.unsignedRec || decide (Maps.getD d.dur.confirmed r.ring 0 < r.seq)

/-- The lowest sequence number the archive and the overflow region retain. -/
def Dev.showOldest (d : Dev) : Dev :=
  let seqs := (d.nfm.epochs.flatMap fun e => e.recs.map (·.seq)) ++ d.jnl.overflow.map Prod.fst
  let old := match seqs with
    | [] => d.nfm.oldest
    | s :: ss => ss.foldl min s
  { d with nfm := { d.nfm with oldest := old } }.setWide R.NFM_ARCH_OLDEST_LO R.NFM_ARCH_OLDEST_HI 0 old

/-- Where an archive record can go (R360). -/
inductive ArchPlace where
  /-- Into the filling stripe of the open epoch. -/
  | stripe
  /-- Into the filling stripe, once the full one moves on to programming. -/
  | nextStripe
  /-- Into a new epoch: a free one, or the oldest unpinned one released (its number). -/
  | newEpoch (release : Option Nat)
  | overflow
  /-- Both stripes are taken: a program must end first (R357). -/
  | wait
  deriving DecidableEq, Repr

/-- The ladder of R360 for a record of `n` bytes. -/
def Dev.archPlace (d : Dev) (n : Nat) : ArchPlace :=
  let a := d.nfm
  if d.media = Media.readOnly then .overflow
  else if d.jnl.overflow ≠ [] then .overflow
  else
    match a.openEpoch with
    | some e =>
      if e.full = false ∧ stripeTakes a.pagesLeft (a.fillingSizes ++ [n]) then .stripe
      else if a.programming ≠ [] ∧ a.filling ≠ [] then .wait
      else if e.full = false ∧ e.stripes + 1 < a.stripesPerEpoch then .nextStripe
      else if a.epochs.length < a.epochCap then .newEpoch none
      else
        match a.epochs.find? fun x => !d.pinned x with
        | some x => .newEpoch (some x.number)
        | none => .overflow
    | none => if a.epochCap = 0 then .overflow else .newEpoch none

/-- 64 B units of the overflow region in use, and those a record takes (R369). -/
def Journal.overflowUnits (j : Journal) : Nat := (j.overflow.map fun r => (r.2.2.length + 63) / 64).sum

/-- Room in the overflow region. -/
def Dev.overflowTakes (d : Dev) (n : Nat) : Bool := decide (d.jnl.overflowUnits + (n + 63) / 64 ≤ 16384)

/-- Journal space for a reading whose record, if it emits one, has `n` bytes (R368, R360): lines below 3 MiB, and a place for
the record. -/
def Dev.journalRoom (d : Dev) (n : Option Nat) : Bool :=
  decide (d.jnl.undrained + 1 < undrainedMax) && d.media != Media.unformatted &&
    match n with
    | none => true
    | some n =>
      match d.archPlace n with
      | .overflow => d.overflowTakes n
      | .wait => false
      | _ => true

/-- A stall episode begins with the first append that finds no space and ends once there is space (R368). -/
def Dev.stall (d : Dev) (on : Bool) : Dev :=
  if on then
    if d.flag F.JNL_STATUS_STALL then d
    else
      (((d.set F.JNL_STATUS_STALL 1).count R.JNL_CNT_n 5).raise F.JNL_INT_STATUS_STALL).condition F.HLT_CONDITION_JOURNAL_STALL true
  else (d.set F.JNL_STATUS_STALL 0).condition F.HLT_CONDITION_JOURNAL_STALL false

/-- Start programming the filling stripe; with its last stripe an epoch is full (R359). -/
def Nand.advance (n : Nand) : Nand :=
  let step (e : Epoch) : Epoch := { e with stripes := e.stripes + 1, full := e.full || decide (n.stripesPerEpoch ≤ e.stripes + 1) }
  { n with
    programming := n.filling
    filling := []
    epochs := n.epochs.mapIdx fun i e => if i + 1 = n.epochs.length then step e else e }

/-- R357: the filling stripe is programmed as soon as it is full, that is takes no further record, and the stripe before it is
done. -/
def Nand.startFull (n : Nand) : Nand :=
  if n.programming = [] ∧ n.filling ≠ [] ∧ stripeTakes n.pagesLeft (n.fillingSizes ++ [128]) = false then n.advance else n

/-- Append to the open epoch and the filling stripe. -/
def Nand.add (n : Nand) (r : ArchRec) : Nand :=
  { n with
    filling := n.filling ++ [r.seq]
    epochs := n.epochs.mapIdx fun i e => if i + 1 = n.epochs.length then { e with recs := e.recs ++ [r] } else e }

/-- Release an epoch (R360, step 2). -/
def Dev.releaseEpoch (d : Dev) (number : Nat) : Dev :=
  let d := { d with nfm := { d.nfm with epochs := d.nfm.epochs.filter fun e => decide (e.number ≠ number) } }
  ((d.count R.NFM_CNT_n 9).raise F.NFM_INT_STATUS_ARCHIVE_RELEASED number).showOldest

/-- Open a new epoch, the full one left to its seal. -/
def Nand.open_ (n : Nand) : Nand :=
  let n := if n.filling = [] then n else n.advance
  { n with
    epochs := (n.epochs.map fun e => { e with full := true }) ++ [{ number := n.epochNext }]
    epochNext := n.epochNext + 1 }

/-- Show the overflow region. -/
def Dev.showOverflow (d : Dev) : Dev :=
  let d := (d.set F.JNL_OVERFLOW_RECORDS (satNat 16 d.jnl.overflow.length)).set F.JNL_OVERFLOW_UNITS d.jnl.overflowUnits
  (d.set F.JNL_STATUS_OVERFLOW (b2n (d.jnl.overflow ≠ []))).condition F.HLT_CONDITION_OVERFLOW (decide (d.jnl.overflow ≠ []))

/-- Give a committed record its place (R356, R360): at commit, before its tag or signature. -/
def Dev.archive (d : Dev) (r : ArchRec) : Dev :=
  let d :=
    if d.nfm.oldest = 0 then
      { d with nfm := { d.nfm with oldest := r.seq } }.setWide R.NFM_ARCH_OLDEST_LO R.NFM_ARCH_OLDEST_HI 0 r.seq
    else d
  match d.archPlace r.size with
  | .stripe => { d with nfm := (d.nfm.add r).startFull }
  | .nextStripe => { d with nfm := d.nfm.advance.add r }
  | .newEpoch none => { d with nfm := d.nfm.open_.add r }
  | .newEpoch (some x) => let d := d.releaseEpoch x; { d with nfm := d.nfm.open_.add r }
  | .overflow =>
    let first := d.jnl.overflow = []
    let d := { d with jnl := { d.jnl with overflow := d.jnl.overflow ++ [(r.seq, r.ring, r.bytes.getD (List.replicate r.size 0))] } }.showOverflow
    let d := d.count R.JNL_CNT_n 6
    let d := if first then d.raise F.JNL_INT_STATUS_OVERFLOW_ON else d
    if d.media ≠ Media.readOnly ∧ d.flag F.NFM_STATUS_ARCHIVE_FULL = false then
      (d.set F.NFM_STATUS_ARCHIVE_FULL 1).raise F.NFM_INT_STATUS_ARCHIVE_FULL
    else d
  | .wait => { d with nfm := d.nfm.add r }

/-- Fill a record's place with its finished bytes. An unsigned one stays pinned (R177). -/
def Dev.archiveFill (d : Dev) (seq : Nat) (bytes : Bytes) (unsignedRec : Bool) : Dev :=
  let fill (r : ArchRec) : ArchRec := if r.seq = seq then { r with bytes := some bytes, unsignedRec := unsignedRec } else r
  { d with
    nfm := { d.nfm with epochs := d.nfm.epochs.map fun e => { e with recs := e.recs.map fill } }
    jnl := { d.jnl with overflow := d.jnl.overflow.map fun r => if r.1 = seq then (seq, r.2.1, bytes) else r } }

/-- The HLT_CONDITION bits that mirror the media state (R459). -/
def Dev.setMedia (d : Dev) (state : Nat) : Dev :=
  (d.set F.NFM_STATUS_STATE state).condition F.HLT_CONDITION_READ_ONLY (decide (state = Media.readOnly))

/-- R351: a stored object has failed its digest and cannot be rebuilt: a Trellis copy or Graft package is marked invalid; a
campaign's object is written again from its LPDDR5 copy, which a campaign that is not EMPTY has. -/
def Dev.copyBad (d : Dev) (item : Nat) : Dev :=
  let n := d.nfm
  if 1024 ≤ item then d
  else
    let n := match item with
      | 0 => { n with current := none }
      | 1 => { n with previous := none }
      | k => { n with grafts := n.grafts.eraseIdx (k - 2) }
    { d with nfm := n }.raise F.NFM_INT_STATUS_COPY_BAD item

/-- The 160 B seal of an epoch (R359), and its digest. -/
def Dev.sealOf (d : Dev) (e : Epoch) (slot gen key previous : Nat) : (Bytes × Nat) × Dev :=
  let seqs := e.recs.map (·.seq)
  let digest := (Crypto.sha256 (e.recs.flatMap fun r => r.bytes.getD (List.replicate r.size 0))).toNat
  let head : Bytes := [0x59, 0x41, 0x53, 0x4C] ++ leBytes 4 e.number ++ leBytes 6 (seqs.foldl min (seqs.headD 0)) ++
    leBytes 6 (seqs.foldl max 0) ++ leBytes 4 seqs.length ++ leBytes 1 slot ++ leBytes 2 gen ++ List.replicate 5 0 ++
    beBytes 32 digest ++ beBytes 32 previous
  match d.sign key head with
  | (sig, d) => ((head ++ beBytes 64 sig.toNat, digest), d)

/-- Overflow records move to the archive, oldest first, while an epoch takes them (R360). -/
def Dev.drainOverflow : Nat → Dev → Dev
  | 0, d => d
  | k + 1, d =>
    match d.jnl.overflow with
    | [] => d
    | r :: rest =>
      let d' := { d with jnl := { d.jnl with overflow := [] } }
      let a : ArchRec := { seq := r.1, ring := r.2.1, bytes := some r.2.2, ecdsa := decide (r.2.2.length = 176) }
      match d'.archPlace r.2.2.length with
      | .overflow => d
      | .wait => d
      | _ =>
        let d := ((d'.archive a).count R.JNL_CNT_n 7)
        let d := { d with jnl := { d.jnl with overflow := rest } }.showOverflow
        let d := if rest = [] then (d.set F.NFM_STATUS_ARCHIVE_FULL 0).raise F.JNL_INT_STATUS_OVERFLOW_EMPTY else d
        Dev.drainOverflow k d

end Sys2Proof.Machine
end

