-- ==== Sys2Proof/Machine/Engines.lean ====
section
/-! DEFINITION. The sign/hash arbiter (R203 to R209): eight engines shared by eight port ranks, and a request to it. -/

namespace Sys2Proof.Machine

/-- R204: the effective rank of `a` is strictly above that of `b`. -/
def ShReq.outranks (a b : ShReq) : Bool :=
  if a.urgent ≠ b.urgent then a.urgent else decide (a.port < b.port)

/-- R204: `a` goes before `b`, the older first at one port and urgency. -/
def ShReq.before (a b : ShReq) : Bool :=
  a.outranks b || (a.urgent == b.urgent && a.port == b.port && decide (a.order < b.order))

/-- The highest-ranked parked request. -/
def Engine.bestParked (e : Engine) : Option ShReq :=
  e.parked.foldl (fun (m : Option ShReq) r =>
    match m with
    | some q => if r.before q then some r else m
    | none => some r) none

/-- The lowest-numbered idle engine. -/
def Engine.idleEngine (e : Engine) : Option Nat := (List.range 8).find? fun n => !Maps.has e.holders n

/-- Microseconds of CORE_CLK cycles (1,228.8 MHz). -/
def microsOf (cycles : Nat) : Nat := cycles * 10 / 12288

/-- Grant an engine to a request: counted, with the longest wait of its port (R209). -/
def Dev.grant (d : Dev) (engine : Nat) (r : ShReq) : Dev :=
  let p := r.port - 1
  let wait := microsOf (d.cycles - r.since)
  let d := d.count R.CTX_ARB_GRANT_p p
  let d := d.set (F.CTX_ARB_MAXWAIT_p_WAIT.at p) (max (d.get (F.CTX_ARB_MAXWAIT_p_WAIT.at p)) (satNat 32 wait))
  { d with eng := { d.eng with
      parked := d.eng.parked.filter fun x => x.order != r.order
      holders := Maps.put d.eng.holders engine r } }

/-- Grant idle engines to parked requests, highest rank to lowest engine. -/
def Dev.grantIdle : Nat → Dev → Dev
  | 0, d => d
  | k + 1, d =>
    match d.eng.idleEngine, d.eng.bestParked with
    | some n, some r => Dev.grantIdle k (d.grant n r)
    | _, _ => d

/-- R203: the URGENT condition of a port's request: signing backlog, a broadcast block held for a key, KEY_ZERO recovery, a campaign's
start within 60 s, the archive write buffer, the Rake's delay; the rest of ports 3, 4 and 8 as ARB_URGENT_CHANGE told it (log
entry 86). -/
def Dev.urgentNow (d : Dev) (port : Nat) (op : ShOp) : Bool :=
  match port, op with
  | 2, _ => decide (2048 < (d.eng.records.filter fun r => r.ecdsa && r.done.isNone).length)
  | 3, _ => d.flag F.DST_STATUS_KEY_HOLD || d.eng.urgent.contains 3
  | 4, _ => d.keyLocked || d.eng.urgent.contains 4
  | 5, .imageHash c =>
    match Maps.get? c d.dur.campaigns with
    | some x => decide (x.start ≠ 0) && decide (x.start < d.tsu.sec + 60)
    | none => false
  | 6, _ => d.nfm.bufferFull
  | 7, _ => d.flag F.NFM_STATUS_RAKE_BEHIND
  | 8, _ => d.eng.urgent.contains 8
  | _, _ => false

/-- R208: requests take the effective rank that their conditions give them now. -/
def Dev.refreshUrgent (d : Dev) : Dev :=
  let f (r : ShReq) : ShReq := { r with urgent := d.urgentNow r.port r.op }
  let g (p : Nat × ShReq) : Nat × ShReq := (p.1, f p.2)
  { d with eng := { d.eng with parked := d.eng.parked.map f, holders := d.eng.holders.map g } }

/-- The pending queue of a port is full (R206). -/
def Dev.shFull (d : Dev) (port : Nat) : Bool := decide (4 ≤ (d.eng.parked.filter fun r => r.port == port).length)

/-- R206: a request of `blocks` 64-byte blocks (0: an ECDSA operation) is granted, parked, or returned with QUEUE_FULL. -/
def Dev.shPost (d : Dev) (port : Nat) (op : ShOp) (blocks : Nat) : Dev :=
  if d.shFull port then (d.count R.CTX_CNT_n 11).raise F.CTX_INT_STATUS_ARB_QUEUE_FULL port
  else
    let r : ShReq := { port := port, urgent := d.urgentNow port op, order := d.eng.shOrder, op := op, done := 0, total := blocks, since := d.cycles }
    Dev.grantIdle 8 { d with eng := { d.eng with parked := d.eng.parked ++ [r], shOrder := d.eng.shOrder + 1 } }.refreshUrgent

/-- The operation is parked or under way. -/
def Dev.shHas (d : Dev) (op : ShOp) : Bool := d.eng.parked.any (fun r => r.op == op) || d.eng.holders.any fun p => p.2.op == op

end Sys2Proof.Machine
end

