-- ==== Sys2Proof/Machine/Keys.lean ====
section
/-! DEFINITION. The KEY commands (11): provisioning sessions, roots, installs, rewrap, broadcast rolls and certificates. -/

namespace Sys2Proof.Machine

/-- Run a key command: a write while BUSY has no effect; in the locked states only some commands are accepted (R310);
on a standby the meter, head, class and broadcast commands give NOT_ACTIVE (R317). -/
def Dev.keyCmd (d : Dev) (whenLocked onStandby : Bool) (f : Dev → Dev) : Dev :=
  if d.flag F.KEY_CMD_BUSY then d
  else if d.keyLocked && !whenLocked then d.keyDone Kr.locked
  else if d.standbyRefuses && !onStandby then d.keyDone Kr.notActive
  else f d

/-- End the provisioning session (R293): PROV_EXPIRED unless PROV_CLOSE ended it. -/
def Dev.endSession (d : Dev) (expired : Bool) : Dev :=
  match d.key.session with
  | none => d
  | some _ =>
    let d := { d with key := { d.key with session := none } }.set F.KEY_STATUS_PROV 0
    if expired then d.raise F.KEY_INT_STATUS_PROV_EXPIRED else d

/-- The host buffer's address. -/
def Dev.keyHost (d : Dev) : Nat := d.wide R.KEY_HOST_ADDR_LO R.KEY_HOST_ADDR_HI 0

/-- The device identity certificate (R314): its SUBJECT the low 32 bits of the serial, its KEY the identity key's, under the product
root key. It names no slot (log entry 99). -/
def identityCert : Bytes :=
  [0x59, 0x43, 3, 0] ++ leBytes 4 Config.serial.toNat ++ leBytes 4 Config.rootIssuer.toNat ++ [0, 0, 0, 0] ++
    beBytes 64 (Crypto.pubKey Config.identityScalar).toNat ++ beBytes 64 Config.identitySig.toNat

/-- R291: PROV_OPEN; its key operations ask for an engine at port rank 4 (R203, R293; log entry 99). -/
def execProvOpen (s : State) : Answer :=
  s.on fun d => d.keyCmd true true fun d =>
    let d := d.endSession true
    if d.drbgRuns = false then d.keyDone Kr.entropy
    else
      match d.drbg 256 with
      | (e, d) =>
        match d.drbg 128 with
        | (n, d) =>
          let body : Bytes := [0x59, 0x50, 0x01] ++ leBytes 1 (d.get F.KEY_STATUS_STATE) ++ beBytes 8 Config.serial.toNat ++
            beBytes 16 n.toNat ++ beBytes 64 (Crypto.pubKey e).toNat
          match d.sign Config.identityScalar.toNat body with
          | (sig, d) =>
            let d := { d with key := { d.key with session := some ⟨n.toNat, e.toNat, none, d.cycles⟩ } }.set F.KEY_STATUS_PROV 1
            ((d.shPost 4 .keyMgmt 0).emit (.dma d.keyHost (body ++ beBytes 64 sig.toNat ++ identityCert))).keyDone Kr.ok

/-- R292: PROV_PEER with the 152 B of the host buffer. A wrong MAGIC or VERSION, or a key off the curve, is a failure
too (log entry 19). The verification and the key agreement ask for an engine at port rank 4 (R203, R293; log entry 99). -/
def execProvPeer (peer : Bytes) (s : State) : Answer :=
  s.on fun d => d.keyCmd true true fun d =>
    match d.key.session with
    | none => d.keyDone Kr.noSession
    | some p =>
      if p.transport.isSome then d.keyDone Kr.badState
      else
        let d := d.shPost 4 .keyMgmt 0
        let eh := BitVec.ofNat 512 (peer.be 20 64)
        let good := decide (peer.slice 0 3 = [0x59#8, 0x51#8, 0x01#8]) && peer.be 4 16 == p.nonce && Crypto.onCurve eh &&
          Crypto.ecdsaVerify (BitVec.ofNat 512 d.trl.ownerKey) (Crypto.sha256 (peer.take 88)) (BitVec.ofNat 512 (peer.be 88 64))
        if good then
          let z := Crypto.ecdh (BitVec.ofNat 256 p.ephemeral) eh
          let k := Crypto.hkdf 32 (beBytes 32 z.toNat) (beBytes 16 p.nonce) ([0x59, 0x50, 0x54] ++ beBytes 8 Config.serial.toNat)
          { d with key := { d.key with session := some { p with ephemeral := 0, transport := some k } } }.keyDone Kr.ok
        else (d.endSession true).keyDone Kr.badPeer

/-- R293: PROV_CLOSE. -/
def execProvClose (s : State) : Answer :=
  s.on fun d => d.keyCmd true true fun d =>
    if d.key.session.isNone then d.keyDone Kr.noSession else (d.endSession false).keyDone Kr.ok

/-- CORE_CLK cycles of 600 s. -/
def sessionCycles : Nat := 600000 * 1228800

/-- R293, R316: 600 s of a session have passed; a root generation that waits completes first. -/
def execProvSessionExpire (s : State) : Answer :=
  s.on fun d =>
    match d.key.session with
    | some p => if d.cycles ≤ p.openedAt + sessionCycles ∨ d.key.generating.isSome then d else d.endSession true
    | none => d

/-- Run a root command: it needs a session that holds its transport key (R293). -/
def Dev.rootCmd (d : Dev) (f : Nat → Dev → Dev) : Dev :=
  d.keyCmd true true fun d =>
    match d.key.session.bind (·.transport) with
    | none => d.keyDone Kr.noSession
    | some k => f k d

/-- Any CLO_TAMPER_LATCH bit set: the vault refuses every write (R392). -/
def Dev.latched (d : Dev) : Bool := d.flag F.CLO_TAMPER_LATCH_SOURCE

/-- R294: the pairwise test of a candidate: a SIGN candidate's scalar signs a fixed message and its public key verifies it. -/
def Dev.pairwise (d : Dev) (c : Candidate) : Bool × Dev :=
  if c.kind ≠ Kind.sign then (true, d)
  else
    let k := deriveKey c.root c.kind c.slot (d.nextGen c)
    let m := beBytes 32 Config.pairwiseMessage.toNat
    match d.sign k m with
    | (sig, d) => (Crypto.ecdsaVerify (Crypto.pubKey (BitVec.ofNat 256 k)) (Crypto.sha256 m) sig, d)

/-- Fill the candidate register, VERIFIED where its pairwise test passes (R294), and end the command. -/
def Dev.fillCandidate (d : Dev) (slot kind root : Nat) : Dev :=
  match d.pairwise ⟨slot, kind, root, false⟩ with
  | (ok, d) => ({ d with clo := { d.clo with candidate := some ⟨slot, kind, root, ok⟩ } }.showCand).keyDone (if ok then Kr.ok else Kr.notVerified)

/-- R294: ROOT_IMPORT: the wrap under the transport key, as its plaintext beside it. -/
def execRootImport (slot root wrapped : Nat) (s : State) : Answer :=
  s.on fun d => d.rootCmd fun transport d =>
    let kind := d.get F.KEY_CMD_ARG_KIND
    if d.latched then d.keyDone Kr.badState
    else if kind = 0 ∨ 6 < kind then d.keyDone Kr.wrongKind
    else if d.clo.candidate.isSome then d.keyDone Kr.candidateBusy
    else if wrapped ≠ Crypto.wrap 32 transport 16 root then d.keyDone Kr.unwrapFail
    else if kcvOf 16 root ≠ d.get F.KEY_KCV_KCV then d.keyDone Kr.kcvMismatch
    else d.fillCandidate slot kind root

/-- Draw a root for KIND 4 from the DRBG. -/
def Dev.generateRoot (d : Dev) (slot : Nat) : Dev :=
  match d.drbg 128 with
  | (r, d) => d.fillCandidate slot Kind.sign r.toNat

/-- R294: ROOT_GENERATE, for KIND 4 only. While the DRBG is stopped it waits (R313). -/
def execRootGenerate (slot : Nat) (s : State) : Answer :=
  s.on fun d => d.rootCmd fun _ d =>
    if d.latched then d.keyDone Kr.badState
    else if d.get F.KEY_CMD_ARG_KIND ≠ Kind.sign then d.keyDone Kr.wrongKind
    else if d.clo.candidate.isSome then d.keyDone Kr.candidateBusy
    else if d.drbgRuns = false then { d with key := { d.key with generating := some slot } }.set F.KEY_CMD_BUSY 1
    else d.generateRoot slot

/-- R313: a root generation that waited goes on. -/
def Dev.generateNow (d : Dev) : Dev :=
  match d.key.generating with
  | none => d
  | some slot => { d with key := { d.key with generating := none } }.generateRoot slot

/-- R295: the slot of a candidate is free for its kind. -/
def Dev.slotFree (d : Dev) (c : Candidate) : Bool :=
  (d.root? c.slot).isNone || (!([1, 5].contains c.kind) && (d.slotMeta c.slot).kind == c.kind)

/-- R295, R296: ROOT_COMMIT. A root both devices must hold goes to a synchronised standby first; on that standby only the
active device's commit replaces it. -/
def execRootCommit (s : State) : Answer :=
  s.on fun d => d.rootCmd fun _ d =>
    match d.clo.candidate with
    | none => d.keyDone Kr.noCandidate
    | some c =>
      if d.latched then d.keyDone Kr.badState
      else if c.verified = false then d.keyDone Kr.notVerified
      else if d.slotFree c = false then d.keyDone Kr.slotInUse
      else if c.kind = Kind.sign then (d.commitRoot c).keyDone Kr.ok
      else if d.pairState = PairSt.standby then d.keyDone Kr.notActive
      else d.pairDo { recs := [], finish := .root c.slot (kcvOf 16 c.root) }

/-- R294: ROOT_CANCEL. -/
def execRootCancel (s : State) : Answer :=
  s.on fun d => d.rootCmd fun _ d =>
    if d.clo.candidate.isNone then d.keyDone Kr.noCandidate
    else ({ d with clo := { d.clo with candidate := none } }.showCand).keyDone Kr.ok

/-- Whether a STORE_KEK slot still wraps an entry of an allocated meter, a class or a registered head (R299). -/
def Dur.wraps (u : Dur) (slot : Nat) : Bool :=
  let uses (k : Option KeySet) : Bool := (k.map (·.kekSlot == slot)).getD false
  (u.keys.any fun p => uses p.2.cur || uses p.2.cand) ||
    (u.classAks.any fun p => uses p.2.cur || uses p.2.cand) || (u.headKeys.any fun p => uses p.2.cur || uses p.2.cand)

/-- R299: the three cases of SLOT_IN_USE. A slot that holds no root is named by no field and is no STORE_KEK. -/
def Dev.slotInUse (d : Dev) (slot : Nat) : Bool :=
  match (if (d.root? slot).isSome then (d.slotMeta slot).kind else 0) with
  | 1 => d.get F.KEY_KEK_STORE == slot || d.dur.wraps slot
  | 2 => d.get F.KEY_KEK_IMPORT == slot
  | 3 => d.get F.ING_RECORD_TAG_SLOT == slot
  | 4 => d.get F.ING_RECORD_SIGN_SLOT == slot
  | 5 => d.get F.KEY_BCAST_SLOT == slot
  | _ => false

/-- R299: ROOT_ERASE. -/
def execRootErase (slot : Nat) (s : State) : Answer :=
  s.on fun d => d.rootCmd fun _ d =>
    if d.latched then d.keyDone Kr.badState
    else if d.slotInUse slot then d.keyDone Kr.slotInUse
    else
      let m := d.slotMeta slot
      let d := { d with
        clo := { d.clo with vault := Maps.del slot d.clo.vault }
        key := { d.key with working := Maps.del slot d.key.working } }
      let d := d.set F.KEY_SLOTS_PRESENT (setBitTo (d.get F.KEY_SLOTS_PRESENT) slot false)
      (d.journal (.root slot (some ⟨0, m.gen, 0⟩))).keyDone Kr.ok

/-- R301: unwrap an entry under the import key and wrap its set under the store key: its result, and the stored set. -/
def Dev.takeEntry (_ : Dev) (imp sto : WorkKey) (stoSlot : Nat) (e : InstallEntry) (kcv : Nat) : Nat × KeySet :=
  let set : KeySet := { kekSlot := stoSlot, under := sto.key, link := e.link, global := e.global, kcv := kcv }
  if e.wrapped ≠ Crypto.wrap 32 imp.key 32 (e.link * 2 ^ 128 + e.global) then (Kr.unwrapFail, set)
  else if e.kcv ≠ kcv then (Kr.kcvMismatch, set)
  else (Kr.ok, set)

/-- The import and store keys an install command uses; WRONG_KIND where either names another slot (R301). -/
def Dev.installKeys (d : Dev) : Option (WorkKey × WorkKey) :=
  match d.workKey Kind.importKek (d.get F.KEY_KEK_IMPORT), d.workKey Kind.storeKek (d.get F.KEY_KEK_STORE) with
  | some i, some t => some (i, t)
  | _, _ => none

/-- Run an install command: each entry's result and record, in order, over the tables as the entries before left them. -/
def Dev.install (d : Dev) (entries : List InstallEntry) (one : WorkKey → WorkKey → Dur → InstallEntry → Nat × Option JRec) : Dev :=
  match d.installKeys with
  | none => d.keyDone Kr.wrongKind
  | some (imp, sto) =>
    let es := entries.take (d.get F.KEY_CMD_ARG_COUNT)
    let run := es.foldl
      (fun (acc : Dur × List Nat × List JRec) e =>
        match one imp sto acc.1 e with
        | (r, some j) => (acc.1.control j, acc.2.1 ++ [r], acc.2.2 ++ [j])
        | (r, none) => (acc.1, acc.2.1 ++ [r], acc.2.2))
      (d.dur, [], [])
    let d := d.countBy R.KEY_CNT_n 2 (run.2.1.filter (· = Kr.ok)).length
    let dma := run.2.1.mapIdx fun i r => (d.keyHost + 48 * i + 3, leBytes 1 r)
    d.pairDo { recs := run.2.2, finish := .key, result := run.2.1.getLast?.getD Kr.ok, dma := dma }

/-- R301: METER_INSTALL. An entry unwraps and agrees first (log entry 21). -/
def execMeterInstall (entries : List InstallEntry) (s : State) : Answer :=
  s.on fun d => d.keyCmd false false fun d =>
    d.install entries fun imp sto u e =>
      let i := e.index % 2 ^ 20
      let deliver := bitAt e.flags 0
      let r := d.takeEntry imp sto (d.get F.KEY_KEK_STORE) e (kcvOf 16 e.link)
      let k : MeterKeys := Maps.getD u.keys i {}
      if r.1 ≠ Kr.ok then (r.1, none)
      else if (Maps.get? i u.ctxs).isNone then (Kr.notAllocated, none)
      else if k.cand.isSome then (Kr.candidateBusy, none)
      else if deliver && !d.hasDownlink i then (Kr.noDownlink, none)
      else if k.cur.isNone then (Kr.ok, some (.keys i { k with cur := some r.2 }))
      else (Kr.ok, some (.keys i { k with cand := some r.2, deliver := deliver, tries := 0 }))

/-- R305: HEAD_INSTALL. -/
def execHeadInstall (entries : List InstallEntry) (s : State) : Answer :=
  s.on fun d => d.keyCmd false false fun d =>
    d.install entries fun imp sto u e =>
      let h := e.index % 2 ^ 20
      let r := d.takeEntry imp sto (d.get F.KEY_KEK_STORE) e (kcvOf 32 (e.link * 2 ^ 128 + e.global))
      let k : KeyPair := Maps.getD u.headKeys h {}
      if r.1 ≠ Kr.ok then (r.1, none)
      else if (Maps.get? h u.heads).isNone then (Kr.unknownHead, none)
      else if k.cand.isSome then (Kr.candidateBusy, none)
      else if bitAt e.flags 0 then (Kr.noDownlink, none)
      else (Kr.ok, some (.headKey h (if k.cur.isNone then { k with cur := some r.2 } else { k with cand := some r.2 })))

/-- R305: HEAD_CANCEL. -/
def execHeadCancel (head : Nat) (s : State) : Answer :=
  s.on fun d => d.keyCmd false false fun d =>
    let h := head % 4096
    let k : KeyPair := Maps.getD d.dur.headKeys h {}
    if (Maps.get? h d.dur.heads).isNone then d.keyDone Kr.unknownHead
    else if k.cand.isNone then d.keyDone Kr.noCandidate
    else d.pairDo { recs := [.headKey h { k with cand := none }], finish := .key }

/-- R304: CLASS_AK_INSTALL. -/
def execClassAkInstall (entries : List InstallEntry) (s : State) : Answer :=
  s.on fun d => d.keyCmd false false fun d =>
    d.install entries fun imp sto u e =>
      let c := e.index % 2 ^ 20
      let r := d.takeEntry imp sto (d.get F.KEY_KEK_STORE) e (kcvOf 16 e.link)
      let k : KeyPair := Maps.getD u.classAks c {}
      if r.1 ≠ Kr.ok then (r.1, none)
      else if (d.trellis.classes.any (·.classId == c)) = false then (Kr.notAllocated, none)
      else if k.cand.isSome then (Kr.candidateBusy, none)
      else if bitAt e.flags 0 then (Kr.noDownlink, none)
      else (Kr.ok, some (.classAk c (if k.cur.isNone then { k with cur := some r.2 } else { k with cand := some r.2 })))

/-- The broadcast target of a meter: its home cell, or its feeder phase (R307). -/
def Ctx.target (c : Ctx) : Option Nat :=
  match c.zx with
  | some z => some (4096 + 3 * z.feeder + z.phase)
  | none => c.heads.head?.map (·.head)

/-- The targets BCAST_ROLL names: a cell, a phase, or all registered cells and the twelve phases (R308). -/
def Dev.rollTargets (d : Dev) (t : Nat) : List Nat :=
  if t = 0x1FFF then d.dur.heads.map (·.1) ++ (List.range 12).map (· + 4096) else if t < 4108 then [t] else []

/-- R308: BCAST_ROLL: the next generation derives from the root in KEY_BCAST.SLOT now, its delivery starts, and the roll waits for
its instant. -/
def execBcastRoll (target : Nat) (s : State) : Answer :=
  s.on fun d => d.keyCmd false false fun d =>
    let instant := d.wide R.KEY_BCAST_AT_LO R.KEY_BCAST_AT_HI 0
    if (d.workKey Kind.broadcast (d.get F.KEY_BCAST_SLOT)).isNone then d.keyDone Kr.wrongKind
    else if instant < d.tsu.sec then d.keyDone Kr.instantPast
    else
      let ts := d.rollTargets target
      let d := d.dur.ctxs.foldl
        (fun d p =>
          let k := d.meterKeys p.1
          if k.bcOk ∧ (p.2.target.map fun t => ts.contains t).getD false then d.journal (.keys p.1 { k with bcOk := false }) else d)
        d
      let rest := d.key.rolls.filter fun r => !ts.contains r.1
      { d with key := { d.key with rolls := rest ++ ts.map fun t => (t, instant, d.get F.KEY_BCAST_SLOT) } }.keyDone Kr.ok

/-- R307: KEY_BCAST.SLOT, `old` so far, is for new generations: those that have begun stay with the root they derive from. -/
def Dev.pinBcast (d : Dev) (old : Nat) : Dev :=
  if d.serves = false ∨ d.get F.KEY_BCAST_SLOT = old ∨ (d.workKey Kind.broadcast old).isNone then d
  else
    ((d.rollTargets 0x1FFF).filter fun t => !Maps.has d.dur.bcast t).foldl (fun d t => d.journal (.bcastGen t 0 old)) d

/-- The record-signing certificate of a SIGN slot (R314), signed by the identity key. -/
def Dev.signCert (d : Dev) (slot : Nat) (w : WorkKey) : Bytes × Dev :=
  let head : Bytes := [0x59, 0x43, 4, 0] ++ leBytes 4 Config.serial.toNat ++ leBytes 4 Config.certIssuer.toNat ++
    beBytes 1 slot ++ beBytes 2 w.gen ++ [0] ++ beBytes 64 (Crypto.pubKey (BitVec.ofNat 256 w.key)).toNat
  match d.sign Config.identityScalar.toNat head with
  | (sig, d) => (head ++ beBytes 64 sig.toNat, d)

/-- R314: EXPORT_CERT. -/
def execExportCert (s : State) : Answer :=
  s.on fun d => d.keyCmd true true fun d =>
    let slot := d.get F.ING_RECORD_SIGN_SLOT
    match d.workKey Kind.sign slot with
    | none => d.keyDone Kr.wrongKind
    | some w =>
      match d.signCert slot w with
      | (cert, d) => (d.emit (.dma d.keyHost (identityCert ++ cert))).keyDone Kr.ok

/-- R288, R396: every mask is replaced at its period, slot and mask together; a failed entropy-cell draw latches
ENTROPY_CELL_FAIL, and on battery, where the masks come from that cell, skips the refresh. -/
def execMaskRefresh (entropyOk : Bool) (s : State) : Answer :=
  s.on fun d =>
    let d := if entropyOk then d else (d.set F.CLO_STATUS_ENTROPY_CELL_FAIL 1).cloRaise F.CLO_INT_STATUS_ENTROPY_CELL
    if d.clo.onBattery && !entropyOk then d
    else
      let d := d.clo.vault.foldl
        (fun d p =>
          match (if d.clo.onBattery then d.fresh 128 else d.drbg 128) with
          | (m, d) =>
            let root := p.2.stored ^^^ p.2.mask
            { d with clo := { d.clo with vault := Maps.put d.clo.vault p.1 ⟨root ^^^ m.toNat, m.toNat⟩ } })
        d
      d.count R.KEY_CNT_n 10

/-- R313: once 2^32 requests have passed since the last good seed, the DRBG stops. -/
def execDrbgStop (s : State) : Answer := s.on fun d => if d.key.sinceSeed < 2 ^ 32 then d else d.set F.KEY_STATUS_DRBG_RUN 0

end Sys2Proof.Machine
end

