-- ==== Sys2Proof/Machine/Net.lean ====
section
/-! DEFINITION. The Ethernet ports' shared operations (R338 to R341): counters, addresses, the neighbour cache and the
route of an IPv6 datagram. -/

namespace Sys2Proof.Machine

def Dev.ethPort (d : Dev) (n : Nat) : EthPort := Maps.getD d.eth n {}

def Dev.setEth (d : Dev) (n : Nat) (p : EthPort) : Dev := { d with eth := Maps.put d.eth n p }

/-- Add to a port's 64-bit counter k. -/
def EthPort.add (p : EthPort) (k n : Nat) : EthPort :=
  { p with counters := Maps.put p.counters k ((Maps.getD p.counters k 0 + n) % 2 ^ 64) }

def Dev.ethAdd (d : Dev) (n k v : Nat) : Dev :=
  (d.setEth n ((d.ethPort n).add k v)).noteCount (R.ETH_n_CNT_k_LO.at2 n k) v

/-- A frame received: counted with its octets. -/
def Dev.ethRx (d : Dev) (n len : Nat) : Dev := (d.ethAdd n 0 1).ethAdd n 1 len

/-- A frame sent: counted with its octets, 64 at least. -/
def Dev.ethTx (d : Dev) (n len : Nat) : Dev := (d.ethAdd n 2 1).ethAdd n 3 (max 64 len)

def Dev.ethEnabled (d : Dev) (n : Nat) : Bool := d.flag (F.ETH_n_CTRL_ENABLE.at n)

/-- Take a received frame: a disabled port drops it, and a frame above 1,522 B is dropped with OVERSIZE (R338). -/
def Dev.ethTake (d : Dev) (n len : Nat) (f : Dev → Dev) : Dev :=
  let d := d.ethRx n len
  if d.ethEnabled n = false then d.ethAdd n 5 1
  else if 1522 < len then (d.ethAdd n 5 1).raise (F.ETH_n_INT_STATUS_OVERSIZE.at n) len n
  else f d

/-- The station MAC as a number, first octet most significant. -/
def macOf (lo hi : Word) : Nat := beNat (leBytes 4 lo.toNat ++ leBytes 2 hi.toNat)

def Dev.mac (d : Dev) (n : Nat) : Nat := macOf (d.reg (R.ETH_n_MAC_LO.at n)) (d.reg (R.ETH_n_MAC_HI.at n))

def Dev.router (d : Dev) (n : Nat) : Nat := macOf (d.reg (R.ETH_n_ROUTER_LO.at n)) (d.reg (R.ETH_n_ROUTER_HI.at n))

/-- The global IPv6 address (R339). -/
def Dev.ip6 (d : Dev) (n : Nat) : Nat :=
  (List.range 4).foldl (fun a k => a * 2 ^ 32 + (d.reg (R.ETH_n_IP6_k.at2 n k)).toNat) 0

/-- The link-local address from the MAC as a modified EUI-64 (R339). -/
def Dev.linkLocal (d : Dev) (n : Nat) : Nat :=
  let m := d.mac n
  let oui := (m / 2 ^ 24) ^^^ 0x020000
  0xFE80 * 2 ^ 112 + oui * 2 ^ 40 + 0xFFFE * 2 ^ 24 + m % 2 ^ 24

/-- Whether an IPv6 address is the port's own. -/
def Dev.ownAddr (d : Dev) (n a : Nat) : Bool :=
  a == d.linkLocal n || (d.flag (F.ETH_n_IP6_CFG_VALID.at n) && a == d.ip6 n)

/-- A datagram from `addr` came with source MAC `mac`: the cache entry (R340). With 4,096 entries the one heard longest
ago gives way (log entry 13). -/
def Dev.learn (d : Dev) (n addr mac : Nat) : Dev :=
  let p := d.ethPort n
  let rest := p.cache.filter (·.addr ≠ addr)
  let rest := if rest.length < 4096 then rest else rest.drop (rest.length - 4095)
  d.setEth n { p with cache := rest ++ [⟨addr, mac, d.cycles⟩] }

/-- A datagram to `addr` needs no resolution: it goes to the router outside the prefix (R340). -/
def Dev.routed (d : Dev) (n addr : Nat) : Bool :=
  let k := 2 ^ (128 - min 128 (d.get (F.ETH_n_IP6_CFG_PREFIX.at n)))
  d.router n ≠ 0 && addr / k ≠ d.ip6 n / k

/-- A frame of `len` octets out of a port (R338): a disabled one keeps its transmitter quiet, and in loopback no frame leaves
it. -/
def Dev.portOut (d : Dev) (n len : Nat) (o : Out) : Dev :=
  if d.ethEnabled n = false then d
  else if d.flag (F.ETH_n_CTRL_LOOPBACK.at n) then d.ethTx n len
  else (d.ethTx n len).emit o

/-- A Neighbor Solicitation for `addr`. -/
def Dev.solicit (d : Dev) (n addr : Nat) : Dev := d.portOut n 90 (.net n 3 0 addr [])

/-- Octets of the frame that carries a datagram: Ethernet, IPv6 and UDP headers and the FCS are 66. -/
def Out.octets : Out → Nat
  | .hlp _ _ _ _ dgram => dgram.length + 66
  | _ => 66

/-- R340: an entry is reachable for 30 s after the last datagram from its address. -/
def Neighbour.reachable (x : Neighbour) (cycles : Nat) : Bool := decide (cycles ≤ x.seen + 30 * secCycles)

/-- Send an IPv6 datagram through port `n` (R340): it waits while its destination is resolved. -/
def Dev.sendIp (d : Dev) (n addr : Nat) (o : Out) : Dev :=
  if d.ethEnabled n = false then d
  else if d.routed n addr || (d.ethPort n).cache.any (fun x => x.addr == addr && x.reachable d.cycles) then d.portOut n o.octets o
  else
    let p := d.ethPort n
    match p.resolving.find? (·.addr == addr) with
    | some r =>
      d.setEth n { p with resolving := p.resolving.map fun q =>
        if q.addr = addr then { r with waiting := r.waiting ++ [(d.cycles, o)] } else q }
    | none => (d.setEth n { p with resolving := p.resolving ++ [⟨addr, 1, d.cycles, [(d.cycles, o)]⟩] }).solicit n addr

/-- A destination is resolved: what waits for it goes. -/
def Dev.resolved (d : Dev) (n addr : Nat) : Dev :=
  let p := d.ethPort n
  match p.resolving.find? (·.addr == addr) with
  | none => d
  | some r =>
    let d := d.setEth n { p with resolving := p.resolving.filter (·.addr ≠ addr) }
    r.waiting.foldl (fun d w => d.portOut n w.2.octets w.2) d

/-- R340: a datagram or an advertisement from `addr` updates the cache, and what waited for it goes. -/
def Dev.heardFrom (d : Dev) (n addr mac : Nat) : Dev := (d.learn n addr mac).resolved n addr

end Sys2Proof.Machine
end

