-- ==== Sys2Proof/Machine/HeadOps.lean ====
section
/-! DEFINITION. Shared operations of the field-head MAC (03): heads and their timing (R59, R79, R80), airtime and budgets
(R94), datagrams and orders (R62, R65, R76), outbound counters (R72, R409), and the frames the device composes (R85, R267,
R302). -/

namespace Sys2Proof.Machine

/-! ## Heads -/

def Dev.headRt (d : Dev) (h : Nat) : HeadRt := Maps.getD d.fhm.heads h {}

def Dev.headReg? (d : Dev) (h : Nat) : Option HeadReg := Maps.get? h d.dur.heads

/-- In service: ACTIVE or DEGRADED (R60). -/
def HeadRt.inService (h : HeadRt) : Bool := h.state == .active || h.state == .degraded

/-- New orders can go to the head: in service, its session not ended by a RECALL (R60, R68). -/
def HeadRt.orderable (h : HeadRt) : Bool := h.inService && h.session

def Dev.cell (d : Dev) (c : Nat) : Cell := Maps.getD d.fhm.cells c {}

/-- The profile record of a head. -/
def Dev.profile? (d : Dev) (id : Nat) : Option RadioProfile := d.trellis.radio.find? (·.profileId == id)

/-- Nanoseconds on air of `octets` octets (03): 160 µs an octet at 50 kb/s. -/
def octetsNs (rate octets : Nat) : Nat := octets * 160000 / (rate + 1)

/-- Airtime of a PSDU of `p` octets, preamble, SFD and PHR included. -/
def airtimeNs (rate p : Nat) : Nat := octetsNs rate (12 + p)

/-- The unit backoff period u in µs (R76). -/
def unitUs (rate : Nat) : Nat := match rate with | 0 => 1160 | 1 => 1080 | _ => 1054

/-- D_h, ns (R79). -/
def HeadRt.delay (h : HeadRt) : Int :=
  if h.confirms < 1024 ∨ h.delays = [] then h.joinDelay else h.delays.sum / (h.delays.length : Int)

/-- J_h, ns (R79): of at most 65,536 samples the 99.999th percentile is the largest; doubled after a join. -/
def HeadRt.jitter (h : HeadRt) (floorNs : Nat) : Int :=
  if h.confirms < 1024 ∨ h.delays = [] then 2 * (floorNs : Int)
  else (h.delays.map fun x => x - h.delay).foldl max (floorNs : Int)

/-- L_h in ns for a gate in µs (R79). -/
def Dev.leadNs (d : Dev) (h : HeadRt) (gateUs : Nat) : Nat :=
  (h.delay + h.jitter (1000 * d.get F.FHM_LEAD_JITTER_MIN)).toNat + 1000 * (h.setup + gateUs)

/-- The lead with GATE = u is beyond FHM_LEAD.LEAD_MAX (R80). -/
def Dev.tooFar (d : Dev) (h : HeadRt) : Bool :=
  decide (1000000 * d.get F.FHM_LEAD_LEAD_MAX < d.leadNs h (unitUs h.rate))

/-- Show the head that FHM_HEAD_SEL selects, and the populations of FHM_STATUS. -/
def Dev.showHead (d : Dev) : Dev :=
  let i := d.get F.FHM_HEAD_SEL_INDEX
  let h := d.headRt i
  let us (n : Int) : Nat := satNat 16 (n / 1000).toNat
  let d := ((d.set F.FHM_HEAD_STATE_BEACON_CH h.beaconCh).set F.FHM_HEAD_STATE_RX_CH h.rxCh).set F.FHM_HEAD_STATE_PROFILE h.profile
  let d := ((d.set F.FHM_HEAD_STATE_RATE h.rate).set F.FHM_HEAD_STATE_SF (b2n (d.cell i).sf.isSome)).set F.FHM_HEAD_STATE_MISSED (min 3 h.missed)
  let d := (d.set F.FHM_HEAD_STATE_CAUSE h.cause).set F.FHM_HEAD_STATE_STATE h.state.code
  let d := (d.set F.FHM_HEAD_TIMING_JITTER (us (h.jitter (1000 * d.get F.FHM_LEAD_JITTER_MIN)))).set F.FHM_HEAD_TIMING_DELAY (us h.delay)
  let d := (d.set F.FHM_HEAD_LEAD_LEAD (us (d.leadNs h (unitUs h.rate)))).set F.FHM_HEAD_LEAD_OFFSET (pattern 16 (satInt 16 (h.offset / 64)))
  (d.set F.FHM_STATUS_HEADS_ACTIVE (d.fhm.heads.filter fun p => p.2.inService).length).set F.FHM_STATUS_CELLS_SF
    (d.fhm.cells.filter fun p => p.2.sf.isSome).length

def Dev.setHead (d : Dev) (i : Nat) (h : HeadRt) : Dev :=
  { d with fhm := { d.fhm with heads := Maps.put d.fhm.heads i h } }.showHead

def Dev.setCell (d : Dev) (i : Nat) (c : Cell) : Dev :=
  { d with fhm := { d.fhm with cells := Maps.put d.fhm.cells i c } }.showHead

/-! ## Budgets (R94, R95) -/

/-- Granules of 1 ms that an airtime takes, rounded up. -/
def granules (ns : Nat) : Nat := (ns + 999999) / 1000000

/-- Granules accounted on channels `ok` with a start within the `window` s before `atMs`. -/
def HeadRt.used (h : HeadRt) (ok : Nat → Bool) (atMs window : Nat) : Nat :=
  ((h.air.filter fun a => ok a.1 && decide (atMs < a.2.1 + 1000 * window)).map fun a => a.2.2).sum

/-- Whether a channel's dwell and duty limits, less ACK_RESERVE, take `g` more granules at `atMs`. -/
def Dev.budget (d : Dev) (h : HeadRt) (ch atMs g : Nat) : Bool :=
  match d.profile? h.profile with
  | none => true
  | some p =>
    let pct := 100 - d.get F.FHM_CTRL_ACK_RESERVE
    let dwell := decide (100 * (h.used (· == ch) atMs p.dwellWindow + g) ≤ p.dwellLimit * pct)
    let duty := p.subbands.all fun b =>
      if b.first ≤ ch ∧ ch ≤ b.last then
        decide (100 * 100 * (h.used (fun c => decide (b.first ≤ c) && decide (c ≤ b.last)) atMs b.window + g) ≤ b.duty * b.window * pct)
      else true
    dwell && duty

/-- Account a transmission on a channel. Entries older than every window of the profile go. -/
def Dev.account (d : Dev) (i ch atMs g : Nat) : Dev :=
  let h := d.headRt i
  let longest := match d.profile? h.profile with
    | some p => p.subbands.foldl (fun m b => max m b.window) p.dwellWindow
    | none => 0
  let air := h.air.filter fun a => decide (atMs < a.2.1 + 1000 * longest)
  { d with fhm := { d.fhm with heads := Maps.put d.fhm.heads i { h with air := air ++ [(ch, atMs, g)] } } }

/-- The channels of a hop set upward from after `ch`, wrapping. -/
def RadioProfile.hops (p : RadioProfile) (ch : Nat) : List Nat :=
  ((List.range 128).map fun k => (ch + 1 + k) % 128).filter fun c => p.hopSet.testBit c

/-- The next channel of the hop set whose budget takes the transmission. -/
def Dev.rehop (d : Dev) (h : HeadRt) (ch atMs g : Nat) : Option Nat :=
  (d.profile? h.profile).bind fun p => (p.hops ch).find? fun c => d.budget h c atMs g

/-! ## Datagrams and orders -/

/-- TYPE codes of R62. -/
def Hlp.txAt : Nat := 1
def Hlp.join : Nat := 7

/-- Send a datagram under a head's session (R62 to R64). -/
def Dev.sendHlp (d : Dev) (i type : Nat) (body : Bytes) : Dev :=
  match (if (d.headRt i).session then d.headReg? i else none) with
  | none => d
  | some r =>
    let h := d.headRt i
    let d := { d with fhm := { d.fhm with heads := Maps.put d.fhm.heads i { h with txExt := h.txExt + 1 } } }
    d.sendIp r.port r.addr
      (.hlp i r.port r.addr d.trellis.device.hlpPort (d.hlpBytes type i r.epoch h.txExt h.key body))

/-- Send a datagram under a head's long-term key: EPOCH 0 and a random NONCE_EXT (R62, R63). -/
def Dev.sendHlp0 (d : Dev) (i port addr type : Nat) (body : Bytes) (key : Nat) : Dev :=
  match d.drbg 64 with
  | (n, d) =>
    d.sendIp port addr (.hlp i port addr d.trellis.device.hlpPort (d.hlpBytes type i 0 n.toNat key body))

/-- The long-term keys of a head that can be used now: current, then candidate (R66, R305). -/
def Dev.headKeysOf (d : Dev) (i : Nat) : Option KeySet × Option KeySet :=
  let k : KeyPair := Maps.getD d.dur.headKeys i {}
  (k.cur.bind d.unwrapSet, k.cand.bind d.unwrapSet)

/-- A stored set's 256-bit key. -/
def KeySet.key256 (k : KeySet) : Nat := k.link * 2 ^ 128 + k.global

/-- Backoffs of a CSMA-CA order (R76): each drawn from 0 to 2^BE − 1. -/
def Dev.backoffs (d : Dev) : Nat → Nat → List Nat × Dev
  | 0, _ => ([], d)
  | n + 1, be =>
    match d.drbg 8 with
    | (v, d1) =>
      match d1.backoffs n (min (be + 1) (d.get F.FHM_CSMA_MAX_BE)) with
      | (rest, d2) => (v.toNat % 2 ^ be :: rest, d2)

/-- Offsets in µs from the first attempt: each later attempt follows by max(b, 1) × u. -/
def offsetsOf (u : Nat) : Nat → List Nat → List Nat
  | _, [] => []
  | acc, b :: bs => let a := acc + max b 1 * u; a :: offsetsOf u a bs

/-- The CSMA-CA timing of a planned instant: T0 and the offsets (R76). -/
def Dev.csma (d : Dev) (rate plan : Nat) : Nat × List Nat × Dev :=
  match d.backoffs (d.get F.FHM_CSMA_MAX_BACKOFFS + 1) (d.get F.FHM_CSMA_MIN_BE) with
  | (b :: bs, d1) => (plan + 1000 * (b * unitUs rate), offsetsOf (unitUs rate) 0 bs, d1)
  | ([], d1) => (plan, [], d1)

/-- The transmit power of an order: the profile's ceiling (log entry 23). -/
def Dev.power (d : Dev) (h : HeadRt) : Int :=
  match d.profile? h.profile with
  | some p => min p.maxPower h.maxPower
  | none => h.maxPower

/-- A new order on a head, numbered; FLAGS bit 0 CCA gate, bit 1 acknowledgement, bit 2 beacon. -/
def Dev.newOrder (d : Dev) (i ch : Nat) (csma ackWait beacon : Bool) (t0 : Nat) (offsets : List Nat) (psdu : Psdu)
    (purpose : Purpose) : Order × Dev :=
  let h := d.headRt i
  let o : Order := {
    head := i, txId := h.txId, channel := ch, rate := h.rate, power := d.power h
    flags := b2n csma + 2 * b2n ackWait + 4 * b2n beacon, attempts := offsets.length + 1
    gate := if csma then unitUs h.rate else 0, t0 := t0, offsets := offsets, psdu := psdu, purpose := purpose }
  (o, { d with fhm := { d.fhm with heads := Maps.put d.fhm.heads i { h with txId := (h.txId + 1) % 2 ^ 32 } } })

/-- Keep an order as planned. -/
def Dev.planOrder (d : Dev) (o : Order) : Dev := { d with fhm := { d.fhm with orders := d.fhm.orders ++ [o] } }

/-- Drop an order. -/
def Dev.dropOrder (d : Dev) (i txId : Nat) : Dev :=
  { d with fhm := { d.fhm with orders := d.fhm.orders.filter fun o => !(o.head == i && o.txId == txId) } }

def Dev.order? (d : Dev) (i txId : Nat) : Option Order := d.fhm.orders.find? fun o => o.head == i && o.txId == txId

/-- Send a TX_AT (R65): it is accounted against the head's budgets (R94). -/
def Dev.sendOrder (d : Dev) (o : Order) : Dev :=
  match (if (d.headRt o.head).session && d.serves then d.headReg? o.head else none) with
  | none => d
  | some r =>
    let h := d.headRt o.head
    let d := { d with fhm := { d.fhm with heads := Maps.put d.fhm.heads o.head { h with txExt := h.txExt + 1 } } }
    let d := d.sendIp r.port r.addr
      (.hlp o.head r.port r.addr d.trellis.device.hlpPort (d.hlpBytes Hlp.txAt o.head r.epoch h.txExt h.key o.body))
    let d := if o.keyKind.isSome then d.count R.KEY_CNT_n 4 else d
    let d := d.account o.head o.channel (o.t0 / 1000000) (granules (airtimeNs o.rate o.psdu.len))
    let sent : Order := { o with sent := true, sentAt := d.now }
    let rest := d.fhm.orders.filter fun x => !(x.head == o.head && x.txId == o.txId)
    { d with fhm := { d.fhm with orders := rest ++ [sent] } }

/-! ## Downlink frames -/

/-- The way that holds a meter's key set of a kind. -/
def Engine.keyWay? (e : Engine) (meter : Nat) (cand : Bool) : Option (Nat × KeyWay) :=
  e.keys.find? fun p => p.2.meter == meter && p.2.cand == cand

/-- A resident key set of a meter that its descriptor names, where it can be used: the only meter keys that data-plane engines
take (R16). -/
def Dev.residentSet (d : Dev) (meter : Nat) (cand : Bool) : Option KeySet :=
  match d.eng.keyWay? meter cand with
  | some p => if p.2.filled then d.unwrapSet p.2.keys else none
  | none => none

/-- The current key set of a meter, where it can be unwrapped: what the control plane takes for a key transfer's wrap (R302). -/
def Dev.linkKey (d : Dev) (meter : Nat) : Option KeySet := (d.meterKeys meter).cur.bind d.unwrapSet

/-- A fresh value of a meter's outbound counter (R71, R72): ahead by 2^20 on the first use after a takeover (R409); a value
that crosses a multiple of 2^16 is journaled (R411); 0xFFFF_FFFF is the end. -/
def Dev.takeCounter (d : Dev) (meter : Nat) : Option Nat × Dev :=
  match Maps.get? meter d.dur.ctxs with
  | none => (none, d)
  | some c =>
    let first := match d.prl.moved with
      | some l => !l.contains meter
      | none => false
    let d := if first then { d with prl := { d.prl with moved := d.prl.moved.map fun l => meter :: l } } else d
    let v := if first then c.outCounter + 2 ^ 20 else c.outCounter
    if c.outExhausted then (none, d)
    else if 0xFFFFFFFF ≤ v then
      let put (x : Ctx) : Ctx := { x with outCounter := 0xFFFFFFFF, outExhausted := true }
      let d := { d with dur := { d.dur with ctxs := Maps.modify d.dur.ctxs meter put } }
      (none, d.raise F.FHM_INT_STATUS_COUNTER_EXHAUSTED meter)
    else
      let put (x : Ctx) : Ctx := { x with outCounter := v + 1 }
      let d := { d with dur := { d.dur with ctxs := Maps.modify d.dur.ctxs meter put } }
      (some v, if c.outCounter / 65536 ≠ (v + 1) / 65536 then d.journal (.outMark meter (v + 1)) else d)

/-- R85: the accept acknowledgement's IE content. -/
def Dev.ackIe (d : Dev) (counters : List Nat) (pending : Bool) (sync sfd : Nat) : Bytes :=
  d.vendorIe 2 ++ leBytes 1 counters.length ++ leBytes 1 (b2n pending) ++ leBytes 1 sync ++ leBytes 6 (sfd / 1000000000) ++
    leBytes 4 (sfd % 1000000000) ++ counters.flatMap (leBytes 4)

/-- The generation a broadcast key delivery carries, and the slot of its root: the next ones while a roll waits (R308). -/
def Dev.deliverGen (d : Dev) (target : Nat) : Nat × Nat :=
  match d.key.rolls.find? (·.1 == target) with
  | some r => ((d.bcastGen target + 1) % 65536, r.2.2)
  | none => (d.bcastGen target, d.bcastSlot target)

/-- The key transfer a meter is due (R302, R307): its candidate first, where it unwraps, then its place's broadcast key. -/
def Dev.keyDue (d : Dev) (meter : Nat) : Option KeyXfer :=
  let k := d.meterKeys meter
  if k.deliver ∧ (k.cand.bind d.unwrapSet).isSome ∧ k.tries < d.get F.KEY_BCAST_TRIES then some .set
  else if k.bcOk then none
  else
    match (Maps.get? meter d.dur.ctxs).bind Ctx.target with
    | some t =>
      let g := d.deliverGen t
      if (d.bcastKeyOf t g.1 g.2).isSome ∧ d.hasDownlink meter then some (.broadcast t g.1) else none
    | none => none

/-- The key index of a generation (R307). -/
def keyIndex (gen : Nat) : Nat := gen % 255 + 1

/-- R302: a key transfer's IE content from KIND on. -/
def Dev.keyBody (d : Dev) (meter : Nat) (link : KeySet) : KeyXfer → Bytes
  | .set =>
    match (d.meterKeys meter).cand with
    | some c => leBytes 1 0 ++ leBytes 1 0 ++ beBytes 40 (Crypto.wrap 16 link.link 32 c.key256) ++ beBytes 3 c.kcv
    | none => []
  | .broadcast t g =>
    match d.bcastKeyOf t g (d.deliverGen t).2 with
    | some k => leBytes 1 1 ++ leBytes 1 (keyIndex g) ++ beBytes 24 (Crypto.wrap 16 link.link 16 k) ++ beBytes 3 (kcvOf 16 k)
    | none => []

/-- R302: a key transfer's IE content. -/
def Dev.keyIe (d : Dev) (meter : Nat) (what : KeyXfer) (link : KeySet) : Bytes := d.vendorIe 8 ++ d.keyBody meter link what

/-- R267: the offer's content from CAMPAIGN on. -/
def Dev.offerBody (d : Dev) (c : Campaign) (place : Nat) (home : Nat) : Bytes :=
  let zx := decide (4096 ≤ place)
  leBytes 4 c.id ++ leBytes 1 c.kind ++ leBytes 1 (b2n c.lateOk) ++ leBytes 4 c.length ++ leBytes 1 (c.blockBytes zx / 8) ++
    leBytes 1 home ++ leBytes 4 c.version ++ leBytes 6 (if c.start ≤ d.tsu.sec then 0 else c.start) ++ leBytes 6 c.act ++
    leBytes 2 (d.get F.DST_TIMING_COLLECT) ++ leBytes 2 (d.get F.DST_TIMING_RENDEZVOUS) ++ beBytes 32 c.hash

/-- A campaign the meter is to be offered: a WAITING member of an ACTIVE one, or a member offered again (R267). -/
def Dev.offerDue (d : Dev) (meter : Nat) : Option Nat :=
  (d.dur.campaigns.find? fun p =>
    decide (p.2.state = Cs.active) && !p.2.aborted &&
      match d.dur.campMember? p.1 meter with
      | some m => m.state == Ms.waiting || (d.dst.reoffer.contains (1048576 * p.1 + meter) && !m.final)
      | none => false).map (·.1)

/-- What the device has to send a meter in its next opportunity, requests once they are ciphered and aborts in order, then keys, then
offers. -/
def Dev.downlinkDue (d : Dev) (meter : Nat) : Option (DlKind × Nat × Bytes × Bytes) :=
  match d.fhm.downlinks.find? fun x => x.meter == meter && !x.ordered && x.plain == [] with
  | some x => some (x.kind, x.id, x.ie, x.payload)
  | none =>
    match d.keyDue meter, d.linkKey meter with
    | some x, some k => some (.key x, 0, d.keyIe meter x k, [])
    | _, _ =>
      match d.offerDue meter, (Maps.get? meter d.dur.ctxs).bind Ctx.place with
      | some slot, some place =>
        match Maps.get? slot d.dur.campaigns with
        | some c =>
          let home := if 4096 ≤ place then 0 else Maps.getD c.homes place (d.headRt place).beaconCh
          some (.offer slot, 0, d.vendorIe 5 ++ d.offerBody c place home, [])
        | none => none
      | _, _ => none

/-- Whether anything waits for a meter (FLAGS bit 0 of an acknowledgement). -/
def Dev.pendingFor (d : Dev) (meter : Nat) : Bool := (d.downlinkDue meter).isSome

/-- The security level of a meter's class. -/
def Dev.levelOf (d : Dev) (meter : Nat) : Nat :=
  (((Maps.get? meter d.dur.ctxs).bind fun c => d.trellis.class? c.cls).map (·.security)).getD 6

/-- Counters of a meter's committed frames received in the last 2 s, at most 8 (R85). -/
def Dev.ackCounters (d : Dev) (meter : Nat) : List Nat :=
  let l := d.fhm.committed.filter fun x => x.meter == meter && decide (d.now ≤ x.rx + 2000000000)
  ((l.map (·.counter)).reverse.take 8).reverse

/-- The header IEs of an accept acknowledgement, and the key transfer that goes with it (R85, R302). -/
def Dev.ackIes (d : Dev) (meter sync sfd : Nat) : List Bytes × Option KeyXfer :=
  let ie := d.ackIe (d.ackCounters meter) (d.pendingFor meter) sync sfd
  match d.keyDue meter, d.linkKey meter with
  | some n, some k => ([ie, d.keyIe meter n k], some n)
  | _, _ => ([ie], none)

/-- Octets of the accept acknowledgement that a meter would be sent now. -/
def Dev.ackLen (d : Dev) (meter : Nat) : Nat := unicastLen (d.levelOf meter) ((d.ackIes meter 0 0).1.map (·.length)) 0

/-- Octets of a downlink. -/
def Dev.downLen (d : Dev) (meter : Nat) (ie payload : Bytes) : Nat :=
  unicastLen (d.levelOf meter) (if ie = [] then [] else [ie.length]) payload.length

/-- Secure a frame to a meter in a PAN under its resident link key, with a fresh counter (R69, R71, R72). None without a key or
a counter. -/
def Dev.secureUnicast (d : Dev) (meter pan : Nat) (ies : List Bytes) (payload : Bytes) : Option Psdu × Dev :=
  match d.residentSet meter false, Maps.get? meter d.dur.ctxs with
  | some k, some c =>
    match d.takeCounter meter with
    | (none, d) => (none, d)
    | (some n, d) =>
      match d.fresh 8 with
      | (seq, d) =>
        let level := d.levelOf meter
        let header := d.unicastHeader seq.toNat pan c.address (ies != [])
        (some {
          meter := some meter, counter := n, ie := ies.flatten, payload := payload
          bytes := d.secure header level n k.link (leBytes 1 Config.linkKeyIndex.toNat) ies payload
          len := unicastLen level (ies.map (·.length)) payload.length }, d)
  | _, _ => (none, d)

/-- Compose an accept acknowledgement for a frame whose preamble starts at `t0`: the frame, its SYNC_ID, SFD end and key
transfer. -/
def Dev.composeAck (d : Dev) (meter pan rate t0 : Nat) : Option (Psdu × Nat × Nat × Option KeyXfer) × Dev :=
  let sync := d.fhm.syncId
  let sfd := t0 + octetsNs rate 10
  let ies := d.ackIes meter sync sfd
  match d.secureUnicast meter pan ies.1 [] with
  | (some p, d) => (some (p, sync, sfd, ies.2), { d with fhm := { d.fhm with syncId := (sync + 1) % 256 } })
  | (none, d) => (none, d)

/-- Compose a downlink to a meter. -/
def Dev.composeDownlink (d : Dev) (meter pan : Nat) (ie payload : Bytes) : Option Psdu × Dev :=
  d.secureUnicast meter pan (if ie = [] then [] else [ie]) payload

/-- The engine key register of a place's broadcast key, loaded by the control plane (R16, R307). -/
def Dev.loadBcast (d : Dev) (place : Nat) : Option Nat × Dev :=
  match d.bcastKey place with
  | some k => (some k, { d with key := { d.key with bcastRegs := Maps.put d.key.bcastRegs place k } })
  | none => (none, d)

/-- A broadcast frame or beacon of a cell, at level 5 under its broadcast key with key identifier mode 2 (R88, R269, R307). The
frame counter is a free value (log entry 77). -/
def Dev.composeBroadcast (d : Dev) (cell : Nat) (beacon : Bool) (ie payload : Bytes) (len : Nat) : Option Psdu × Dev :=
  match d.loadBcast cell with
  | (none, d) => (none, d)
  | (some key, d) =>
    match d.fresh 32 with
    | (counter, d) =>
      match d.fresh 8 with
      | (seq, d) =>
        let pan := (Config.cellPan cell).toNat
        let header := if beacon then d.beaconHeader seq.toNat pan else d.broadcastHeader seq.toNat pan
        let id := d.broadcastKeyId (keyIndex (d.bcastGen cell))
        (some {
          meter := none, counter := counter.toNat, ie := ie, payload := payload
          bytes := d.secure header 5 counter.toNat key id [ie] payload, len := len }, d)

/-! ## Orders again (R77, R95) -/

/-- The latest instant an order ends at: its last attempt with its airtime, and the wait for an acknowledgement (R75). -/
def Order.ends (o : Order) : Nat :=
  o.t0 + 1000 * o.offsets.getLast?.getD 0 + airtimeNs o.rate o.psdu.len +
    if bitAt o.flags 1 then 1500000 + airtimeNs o.rate 7 else 0

/-- The confirm deadline of an order: a beacon's by R92, from the beacon instant of R88 (log entry 103); any other's 1 ms after it
ends (R75), and the way back to the device. -/
def Dev.confirmDeadline (d : Dev) (o : Order) : Nat :=
  let h := d.headRt o.head
  if bitAt o.flags 2 then o.sfdEnd + airtimeNs o.rate o.psdu.len + 2 * d.leadNs h (unitUs o.rate) + 5000000
  else o.ends + 1000000 + (h.delay + h.jitter (1000 * d.get F.FHM_LEAD_JITTER_MIN)).toNat

/-- The worst-case airtime budget of a broadcast on a channel, or the hop that has it; a re-hop counts DEFERRED (R95). -/
def Dev.broadcastCh (d : Dev) (head ch atMs g : Nat) : Option Nat × Dev :=
  let h := d.headRt head
  if d.budget h ch atMs g then (some ch, d) else (d.rehop h ch atMs g, d.count R.FHM_CNT_n 8)

/-- The channel a frame goes again on: a broadcast re-hops where its channel's budget is spent (R95), and a unicast has none then. -/
def Dev.againCh (d : Dev) (o : Order) (ms g : Nat) : Option Nat × Dev :=
  if bitAt o.flags 1 = false then d.broadcastCh o.head o.channel ms g
  else if d.budget (d.headRt o.head) o.channel ms g then (some o.channel, d)
  else (none, d.count R.FHM_CNT_n 8)

/-- The attempts of an order from `t0` that end by `close`: the first always stands. -/
def attemptsBy (close t0 air : Nat) (offs : List Nat) : List Nat := offs.takeWhile fun x => decide (t0 + 1000 * x + air ≤ close)

/-- R77: order a frame again with new backoffs, every attempt before `close`: a broadcast re-hops where its channel's budget is spent,
and a unicast is left to the meter's next opportunity (R95). The flag says that it was ordered. -/
def Dev.orderAgain (d : Dev) (o : Order) (close : Nat) : Bool × Dev :=
  let h := d.headRt o.head
  let plan := d.now + d.leadNs h (unitUs h.rate)
  let air := airtimeNs h.rate o.psdu.len
  match d.csma h.rate plan with
  | (t0, offs, d) =>
    if close < t0 + air ∨ h.orderable = false then (false, d)
    else
      match d.againCh o (t0 / 1000000) (granules air) with
      | (none, d) => (false, d)
      | (some ch, d) =>
        match d.newOrder o.head ch true (bitAt o.flags 1) false t0 (attemptsBy close t0 air offs) o.psdu o.purpose with
        | (n, d) => (true, d.sendOrder { n with retries := o.retries + 1, keyKind := o.keyKind, sfdEnd := o.sfdEnd })

end Sys2Proof.Machine
end

