-- ==== Sys2Proof/Machine/Context.lean ====
section
/-! DEFINITION. The context engine (07): allocation and FREE (R185 to R190), the context cache (R191, R192) and the key cache
(R193 to R195). -/

namespace Sys2Proof.Machine

/-! ## Caches -/

/-- Show the occupancy registers. -/
def Dev.showCtx (d : Dev) : Dev :=
  (((d.set F.CTX_STATUS_ALLOCATED d.dur.ctxs.length).set F.CTX_CACHE_RESIDENT (d.eng.cache.filter fun p => p.2.ready).length).set F.CTX_KEYS_RESIDENT
    d.eng.keys.length).set F.CTX_PINNED_PINNED (d.dur.ctxs.filter fun p => p.2.pinned).length

def Dev.pinnedCtx (d : Dev) (i : Nat) : Bool := ((Maps.get? i d.dur.ctxs).map (·.pinned)).getD false

/-- The least recently used way of a set that may be evicted (R191). -/
def Dev.ctxVictim (d : Dev) (set : Nat) : Option Nat :=
  let ok := d.eng.cache.filter fun p => p.1 % 4096 == set && !d.pinnedCtx p.1 && !Maps.has d.eng.flight p.1
  (ok.foldl (fun (m : Option (Nat × CtxWay)) p =>
    match m with
    | some q => if p.2.stamp < q.2.stamp then some p else m
    | none => some p) none).map (·.1)

/-- Use a resident context: its LRU stamp. -/
def Dev.touchCtx (d : Dev) (i : Nat) : Dev :=
  let mark (w : CtxWay) : CtxWay := { w with stamp := d.eng.cacheClock }
  { d with eng := { d.eng with cacheClock := d.eng.cacheClock + 1, cache := Maps.modify d.eng.cache i mark } }

/-- A context in place, its fetch ended (R191). -/
def Engine.resident (e : Engine) (i : Nat) : Bool := ((Maps.get? i e.cache).map (·.ready)).getD false

/-- Take a way of a context's set for it (R191): none where the set has no evictable way. A victim that changed while resident
is written back. `ready` says that no fetch is to follow. -/
def Dev.bringCtx (d : Dev) (i : Nat) (ready : Bool) : Option Dev :=
  let set := i % 4096
  let put (d : Dev) : Dev :=
    match Maps.get? i d.dur.ctxs with
    | some c =>
      { d with eng := { d.eng with
        cache := Maps.put d.eng.cache i { stamp := d.eng.cacheClock, stored := c, ready := ready }, cacheClock := d.eng.cacheClock + 1 } }.showCtx
    | none => d
  if Maps.has d.eng.cache i ∨ (d.eng.cache.filter fun p => p.1 % 4096 == set).length < 16 then some (put d)
  else
    match d.ctxVictim set with
    | none => none
    | some v =>
      let changed := decide ((Maps.get? v d.eng.cache).map (·.stored) ≠ Maps.get? v d.dur.ctxs)
      let d := if changed then d.count R.CTX_CNT_n 1 else d
      some (put { d with eng := { d.eng with cache := Maps.del v d.eng.cache } })

/-- Slots that staged frames and frames not yet verified hold, of one pool or of all (R153). -/
def Engine.slotsUsed (e : Engine) (pool : Option Nat) : Nat :=
  let fs := e.staging ++ (e.flight.filter fun p => !p.2.verified).map fun p => p.2.staged
  ((fs.filter fun f => (pool.map fun k => k == f.pool).getD true).map (·.slots)).sum

/-- Show ING_STATUS. -/
def Dev.showIng (d : Dev) : Dev :=
  ((d.set F.ING_STATUS_STAGING_USED (d.eng.slotsUsed none)).set F.ING_STATUS_ENGINES_BUSY
    (min 24 (d.eng.flight.filter fun p => p.2.stage == .parse).length)).set F.ING_STATUS_PAIRED_COMMIT (b2n d.standbySynced)

/-- A way's age (R195). -/
def Engine.ageOf (e : Engine) (w : KeyWay) : Nat := (e.keyEpoch + 256 - w.age) % 256

/-- A free way of a set, or its oldest way that no acquisition holds, the lowest on a tie (R193). -/
def Engine.keyVictim (e : Engine) (set : Nat) : Option Nat :=
  match (List.range 16).find? fun w => !Maps.has e.keys (16 * set + w) with
  | some w => some (16 * set + w)
  | none =>
    (((List.range 16).filterMap fun w => (Maps.get? (16 * set + w) e.keys).map fun k => (16 * set + w, k)).foldl
      (fun (m : Option (Nat × KeyWay)) p =>
        if p.2.held then m
        else match m with
          | some q => if e.ageOf q.2 < e.ageOf p.2 then some p else m
          | none => some p) none).map (·.1)

/-- Reserve a way for a key set and hold it: none where the set has no evictable way. -/
def Dev.reserveKey (d : Dev) (meter : Nat) (cand : Bool) (k : KeySet) : Option Dev :=
  (d.eng.keyVictim (meter % 4096)).map fun w =>
    { d with eng := { d.eng with
      keys := Maps.put d.eng.keys w { meter := meter, cand := cand, kekSlot := k.kekSlot, age := d.eng.keyEpoch, kcv := k.kcv, keys := k, held := true, filled := false } } }.showCtx

/-- Hold the ways of a meter; a use sets the stamp to the epoch (R195). -/
def Dev.holdKeys (d : Dev) (meter : Nat) : Dev :=
  let f (p : Nat × KeyWay) : Nat × KeyWay :=
    if p.2.meter = meter then (p.1, { p.2 with held := true, age := d.eng.keyEpoch }) else p
  { d with eng := { d.eng with keys := d.eng.keys.map f } }

/-- Release the ways of a meter. -/
def Dev.releaseKeys (d : Dev) (meter : Nat) : Dev :=
  let f (p : Nat × KeyWay) : Nat × KeyWay := if p.2.meter = meter then (p.1, { p.2 with held := false }) else p
  { d with eng := { d.eng with keys := d.eng.keys.map f } }

/-- Drop the ways of a meter. -/
def Dev.dropKeys (d : Dev) (meter : Nat) : Dev :=
  { d with eng := { d.eng with keys := d.eng.keys.filter fun p => p.2.meter != meter } }.showCtx

/-- R195: the key epoch advances; every 64 epochs no age stays above 191. -/
def execKeyEpochTick (s : State) : Answer :=
  s.on fun d =>
    let e := (d.eng.keyEpoch + 1) % 256
    let sweep (p : Nat × KeyWay) : Nat × KeyWay :=
      if 191 < (e + 256 - p.2.age) % 256 then (p.1, { p.2 with age := (e + 65) % 256 }) else p
    let keys := if e % 64 = 0 then d.eng.keys.map sweep else d.eng.keys
    { d with eng := { d.eng with keyEpoch := e, keys := keys } }.set F.CTX_KEY_AGE_EPOCH e

/-! ## Allocation -/

/-- The bucket of an address (R422). -/
def bucketOf (address : Nat) : Nat := (crc32 (beBytes 8 address)).toNat % 4096

/-- The position that owns a bucket, 0xFF for none. -/
def Dev.ownerOf (d : Dev) (address : Nat) : Nat := d.trellis.device.bucketOwner.getD (bucketOf address) 0xFF

/-- The owner is this device's position or its partner's (R186). -/
def Dev.ownsAddr (d : Dev) (address : Nat) : Bool :=
  let o := d.ownerOf address
  o != 0xFF && (o == d.trellis.device.position || o == d.trellis.device.partner)

/-- The context of an address (R156, R187). -/
def Dev.ctxOf? (d : Dev) (address : Nat) (mbus : Bool) : Option Nat :=
  (d.dur.ctxs.find? fun p => p.2.address == address && p.2.mbus == mbus).map (·.1)

/-- CTX_CMD result codes. -/
def Cx.tableFull : Nat := 1
def Cx.addressInUse : Nat := 2
def Cx.indexInUse : Nat := 3
def Cx.notAllocated : Nat := 4
def Cx.notOwner : Nat := 5
def Cx.badClass : Nat := 6
def Cx.pinLimit : Nat := 7
def Cx.indexFull : Nat := 8
def Cx.notActive : Nat := 9
def Cx.badCalendar : Nat := 10

/-- Whether a calendar instance is live, and in a staged or armed calendar package too (R186, R215). -/
def Dev.calendarKnown (d : Dev) (inst : Nat) : Bool :=
  (d.trellis.calendar.inst? inst).isSome &&
    d.trl.slots.all fun p => p.2.pkg.sections.all fun x =>
      match x.2.2 with
      | .calendar c => (c.inst? inst).isSome
      | _ => true

/-- A context command: no effect while BUSY; a standby refuses what changes state (R189). -/
def Dev.ctxCmd (d : Dev) (standbyToo : Bool) (f : Dev → Dev) : Dev :=
  if d.flag F.CTX_CMD_BUSY then d
  else if standbyToo = false ∧ d.standbyRefuses then d.finish Cx.notActive .ctx
  else f d

/-- The context CTX_ADDR, CTX_ALLOC_CFG, CTX_ALLOC_M and CTX_ALLOC_A describe (R185). -/
def Dev.newCtx (d : Dev) : Ctx :=
  { address := beNat (leBytes 4 (d.reg R.CTX_ADDR_LO.off).toNat ++ leBytes 4 (d.reg R.CTX_ADDR_HI.off).toNat)
    mbus := d.flag F.CTX_ALLOC_CFG_KIND, cls := d.get F.CTX_ALLOC_CFG_CLASS, cal := d.get F.CTX_ALLOC_CFG_CALENDAR
    m := (d.reg R.CTX_ALLOC_M.off).toNat, a := (d.reg R.CTX_ALLOC_A.off).toNat, outCounter := 1, allocSec := d.tsu.sec }

/-- R185, R186: ALLOC, or ALLOC_AT of an index. -/
def Dev.alloc (d : Dev) (at_ : Option Nat) : Dev :=
  let c := d.newCtx
  let free := if d.dur.ctxs.length < 1048576 then some (d.dur.freed.headD d.dur.neverUsed) else none
  let inUse := match at_ with
    | some i => Maps.has d.dur.ctxs i
    | none => false
  if d.dur.ctxs.any (fun p => p.2.address == c.address && p.2.mbus == c.mbus) then d.finish Cx.addressInUse .ctx
  else if inUse then d.finish Cx.indexInUse .ctx
  else if (d.trellis.class? c.cls).isNone then d.finish Cx.badClass .ctx
  else if c.cal ≠ 0xFF ∧ d.calendarKnown c.cal = false then d.finish Cx.badCalendar .ctx
  else if d.ownsAddr c.address = false then d.finish Cx.notOwner .ctx
  else
    match (match at_ with | some i => some i | none => free) with
    | none => (d.finish Cx.tableFull .ctx).raise F.CTX_INT_STATUS_TABLE_FULL
    | some i =>
      if (d.dur.indexPut i c).isNone then d.finish Cx.indexFull .ctx
      else ((d.set F.CTX_RESULT_INDEX_INDEX i).pairRun { recs := [.alloc i c], finish := .ctx })

/-- R185: CTX_CMD ALLOC. -/
def execCtxAlloc (s : State) : Answer := s.on fun d => d.ctxCmd false fun d => d.alloc none

/-- R185: CTX_CMD ALLOC_AT. -/
def execCtxAllocAt (index : Nat) (s : State) : Answer := s.on fun d => d.ctxCmd false fun d => d.alloc (some (index % 1048576))

/-- The index that follows one in the list of free contexts (R185). -/
def Dur.nextFree (u : Dur) (i : Nat) : Nat :=
  match (u.freed.dropWhile (· != i)).drop 1 with
  | j :: _ => j
  | [] => if u.freed.contains i then u.neverUsed else i + 1

/-- A HEADS entry (R184). -/
def HeadRef.bytes (h : HeadRef) : Bytes := leBytes 4 (h.head % 4096 + 2 ^ 12 * pattern 8 h.rssi + 2 ^ 20 * (h.day % 4096))

/-- The fixed part of an allocated context (R184), with its counts of queued downlinks and waiting work. -/
def Ctx.bytes (c : Ctx) (downlinks waiting : Nat) : Bytes :=
  let keyState := b2n c.curKey + 2 * b2n c.candKey + 4 * b2n c.outExhausted + 8 * b2n c.inExhausted + 16 * (c.keyGen % 16)
  let zx := match c.zx with
    | some z => 2 ^ 31 + 2 ^ 18 * z.feeder + 2 ^ 16 * z.phase + 2 ^ 12 * z.channel + z.slot
    | none => 0
  beBytes 8 c.address ++ leBytes 1 (1 + 4 * b2n c.mbus + 8 * b2n c.pinned) ++ leBytes 1 c.cls ++ leBytes 1 c.cal ++ leBytes 1 keyState ++
    leBytes 4 c.m ++ leBytes 8 c.digest ++ leBytes 4 c.a ++ leBytes 4 c.outCounter ++ leBytes 6 c.lastTs ++ leBytes 2 c.campaigns ++
    (c.heads.flatMap HeadRef.bytes ++ List.replicate 12 0).take 12 ++ leBytes 3 (pattern 24 c.drift) ++ leBytes 1 c.confidence ++ leBytes 6 c.syncSec ++
    leBytes 4 c.syncNs ++ leBytes 1 c.syncId ++ leBytes 1 (c.outliers % 4 + 4 * b2n c.sendsDrift) ++ leBytes 4 zx ++ leBytes 1 downlinks ++
    leBytes 1 (min 255 waiting) ++ leBytes 2 0 ++ leBytes 4 (c.lastSeq % 2 ^ 32) ++
    ((List.range 6).flatMap fun n => leBytes 4 (satNat 32 (c.stats.getD n 0))) ++ leBytes 6 c.allocSec ++ List.replicate 18 0

/-- R184: the 256 B of a meter index in the context table: the fixed part, then the class area. -/
def Dev.contextBytes (d : Dev) (i : Nat) : Bytes :=
  match Maps.get? i d.dur.ctxs with
  | some c => c.bytes (d.downlinksOf i) (d.queued i) ++ (List.range 128).map fun n => BitVec.ofNat 8 (Maps.getD c.area n 0)
  | none => leBytes 4 (d.dur.nextFree i) ++ leBytes 4 0xFFFFFFFF ++ List.replicate 248 0

/-- R190: free a context whose work in flight has ended: queued work is discarded and counted, the key cache entries go,
and the free is journaled and mirrored. Members not yet Activated fail with cause REMOVED (R265). -/
def Dev.freeCtx (d : Dev) (i : Nat) : Dev :=
  let d := d.discardMeter i
  let freeing := if d.eng.freeing.contains i then d.eng.freeing else d.eng.freeing ++ [i]
  let d := ({ d with eng := { d.eng with freeing := freeing } }.dropKeys i).showIng
  (d.pairRun { recs := [.free i], finish := .ctx }).showCtx

/-- R190, R211: CTX_CMD FREE waits for the meter's work in flight. While it waits, other context commands run (log entry 79). -/
def execCtxFree (index : Nat) (s : State) : Answer :=
  s.on fun d => d.ctxCmd false fun d =>
    let i := index % 1048576
    if Maps.has d.dur.ctxs i = false then d.finish Cx.notAllocated .ctx
    else if d.eng.freeing.contains i then d
    else if Maps.has d.eng.flight i then { d with eng := { d.eng with freeing := d.eng.freeing ++ [i] } }
    else d.freeCtx i

/-- R192: pin a resident context, and end the command. -/
def Dev.pinNow (d : Dev) (i : Nat) : Dev :=
  let pin (c : Ctx) : Ctx := { c with pinned := true }
  let d := { d with dur := { d.dur with ctxs := Maps.modify d.dur.ctxs i pin }, eng := { d.eng with pinning := none } }
  d.showCtx.finish 0 .ctx

/-- R192: make a context resident and pin it, or wait for an evictable way of its set. -/
def Dev.tryPin (d : Dev) (i : Nat) : Dev :=
  if d.eng.resident i then d.pinNow i
  else
    match d.bringCtx i true with
    | some d => d.pinNow i
    | none => { d with eng := { d.eng with pinning := some i } }.set F.CTX_CMD_BUSY 1

/-- R192: CTX_CMD PIN makes a context resident and exempts it from eviction. -/
def execCtxPin (index : Nat) (s : State) : Answer :=
  s.on fun d => d.ctxCmd true fun d =>
    let i := index % 1048576
    let pins := d.dur.ctxs.filter fun p => p.2.pinned
    if Maps.has d.dur.ctxs i = false then d.finish Cx.notAllocated .ctx
    else if d.pinnedCtx i then d.finish 0 .ctx
    else if 8 ≤ (pins.filter fun p => p.1 % 4096 == i % 4096).length ∨ d.get F.CTX_PIN_MAX ≤ pins.length then d.finish Cx.pinLimit .ctx
    else (if d.eng.resident i then d else d.count R.CTX_CNT_n 0).tryPin i

/-- R192: CTX_CMD UNPIN. -/
def execCtxUnpin (index : Nat) (s : State) : Answer :=
  s.on fun d => d.ctxCmd true fun d =>
    let i := index % 1048576
    if Maps.has d.dur.ctxs i = false then d.finish Cx.notAllocated .ctx
    else
      let off (c : Ctx) : Ctx := { c with pinned := false }
      ({ d with dur := { d.dur with ctxs := Maps.modify d.dur.ctxs i off } }.showCtx).finish 0 .ctx

end Sys2Proof.Machine
end

