-- ==== Sys2Proof/Machine/Route.lean ====
section
/-! DEFINITION. Routes over the Runner links (R427) and forwarding of meter frames (R423). -/

namespace Sys2Proof.Machine

def Dev.link (d : Dev) (l : Nat) : Link := Maps.getD d.prl.links l {}

def Dev.linkUp (d : Dev) (l : Nat) : Bool := d.flag (F.PRL_L_STATUS_UP.at l)

/-- The ring links other than MIRROR_LINK, in rising order: to the next position, and to the previous one (R427). -/
def Dev.ringLinks (d : Dev) : List Nat :=
  let t := d.trellis.device
  (List.range 3).filter fun l => t.linkEnable.testBit l && !(l == t.mirrorLink && t.partner != 0xFF)

/-- Hops from position `a` to `b` the two ways round a ring of `n`. -/
def ringHops (n a b : Nat) : Nat × Nat := ((b + n - a) % n, (a + n - b) % n)

/-- The link toward a position (R427): the shorter way round, toward the next position on a tie, the other way while that
link is down, and the partner's link where it takes fewer hops. -/
def Dev.routeTo (d : Dev) (dst : Nat) : Option Nat :=
  let t := d.trellis.device
  let n := max 1 (2 * t.activeCount)
  let (f, b) := ringHops n t.position dst
  let via (k : Nat) : Option Nat := (d.ringLinks.drop k).head?.bind fun l => if d.linkUp l then some l else none
  let ring : Option (Nat × Nat) :=
    let first := if f ≤ b then (via 0).map (·, f) else (via 1).map (·, b)
    let other := if f ≤ b then (via 1).map (·, b) else (via 0).map (·, f)
    first.or other
  let part : Option (Nat × Nat) :=
    if t.partner = 0xFF ∨ d.linkUp t.mirrorLink = false then none
    else
      let (pf, pb) := ringHops n t.partner dst
      some (t.mirrorLink, 1 + min pf pb)
  match ring, part with
  | some r, some p => some (if p.2 < r.2 then p.1 else r.1)
  | some r, none => some r.1
  | none, some p => some p.1
  | none, none => none

/-- Send a frame to another position: false where no route reaches it, or its link's partner has another bucket map (R426). -/
def Dev.sendTo (d : Dev) (dst : Nat) (m : RunnerMsg) (forwarding : Bool) : Option Dev :=
  match d.routeTo dst with
  | some l =>
    if forwarding && d.flag (F.PRL_L_STATUS_MAP_MISMATCH.at l) then none else some (d.sendRunner l dst m)
  | none => none

/-- R423: forward a meter frame to the pair that owns its bucket; dropped and counted where that cannot be. -/
def Dev.forwardUp (d : Dev) (f : Staged0) : Dev :=
  let owner := d.ownerOf f.frame.address
  if owner = 0xFF then d.count R.PRL_CNT_n 7
  else
    match d.sendTo owner (.forwardUp f) true with
    | some d => d.count R.PRL_CNT_n 4
    | none => (d.count R.PRL_CNT_n 6).raise F.PRL_INT_STATUS_FORWARD_DROP owner

end Sys2Proof.Machine
end

