-- ==== Sys2Proof/Machine/Accept.lean ====
section
/-! DEFINITION. Accept acknowledgements (R82 to R85, R174, R175): the receive windows of an uplink, what a commit releases,
and what goes into a window. -/

namespace Sys2Proof.Machine

/-- The windows of the uplink of `addr` that ended at `endNs`. -/
def Dev.window? (d : Dev) (addr endNs : Nat) : Option Window := d.fhm.windows.find? fun w => w.addr == addr && w.endNs == endNs

/-- The windows of the latest uplink of `addr` with a frame counter. -/
def Dev.windowOf? (d : Dev) (addr counter : Nat) : Option Window :=
  d.fhm.windows.reverse.find? fun w => w.addr == addr && w.counter == counter

def Dev.dropWindow (d : Dev) (addr endNs : Nat) : Dev :=
  { d with fhm := { d.fhm with windows := d.fhm.windows.filter fun x => !(x.addr == addr && x.endNs == endNs) } }

/-- Put an uplink's windows. -/
def Dev.putWindow (d : Dev) (w : Window) : Dev :=
  let d := d.dropWindow w.addr w.endNs
  { d with fhm := { d.fhm with windows := d.fhm.windows ++ [w] } }

/-- The opening of window 1 or 2 of an uplink that ended at `endNs` (R82). -/
def Dev.windowAt (d : Dev) (endNs k : Nat) : Nat :=
  endNs + 1000000 * (if k = 1 then d.get F.FHM_RXWIN_RX1 else d.get F.FHM_RXWIN_RX2)

/-- GATE of a window response (R78). -/
def Dev.windowGate (d : Dev) (rate : Nat) : Nat := if d.flag F.FHM_CTRL_WINDOW_CCA then unitUs rate else 0

/-- R84: window `k` of an uplink less L_h: the latest instant of its order. -/
def Dev.windowDue (d : Dev) (w : Window) (k : Nat) : Nat :=
  let h := d.headRt w.head
  d.windowAt w.endNs k - d.leadNs h (d.windowGate h.rate)

/-- The airtime a response may take is within budget (R95). -/
def Dev.windowFits (d : Dev) (h : HeadRt) (t0 len : Nat) : Bool :=
  d.budget h h.rxCh (t0 / 1000000) (granules (airtimeNs h.rate len))

/-- Order a frame into a window at once: it goes on the head's receive channel, with an acknowledgement wait. -/
def Dev.orderWindow (d : Dev) (head t0 : Nat) (psdu : Psdu) (purpose : Purpose) (sync sfd : Nat) (key : Option KeyXfer) : Dev :=
  let h := d.headRt head
  match d.newOrder head h.rxCh (d.flag F.FHM_CTRL_WINDOW_CCA) true false t0 [] psdu purpose with
  | (o, d) => d.sendOrder { o with syncId := sync, sfdEnd := sfd, keyKind := key }

/-- R84, R85, R175: the accept acknowledgement in window `k`, for a committed frame: composed here, or brought by a notice. The
flag says it was ordered. -/
def Dev.orderAck (d : Dev) (w : Window) (k : Nat) : Bool × Dev :=
  let h := d.headRt w.head
  let t0 := d.windowAt w.endNs k
  let purpose := Purpose.accept w.addr w.endNs k
  let len := match w.notice, w.meter with
    | some n, _ => (if k = 1 then n.1 else n.2).len
    | none, some m => d.ackLen m
    | none, none => 0
  if h.orderable = false then (false, d)
  else if d.windowFits h t0 len = false then (false, d.count R.FHM_CNT_n 8)
  else
    match w.notice, w.meter with
    | some n, _ => (true, d.orderWindow w.head t0 (if k = 1 then n.1 else n.2) purpose 0 0 none)
    | none, some m =>
      match d.composeAck m (Config.cellPan w.head).toNat h.rate t0 with
      | (some (p, sync, sfd, key), d) => (true, d.orderWindow w.head t0 p purpose sync sfd key)
      | (none, d) => (false, d)
    | none, none => (false, d)

/-- Mark a downlink as ordered, or as waiting again. -/
def Dev.markDownlink (d : Dev) (id : Nat) (v : Bool) : Dev :=
  let f (x : Downlink) : Downlink := if x.id = id then { x with ordered := v } else x
  { d with fhm := { d.fhm with downlinks := d.fhm.downlinks.map f } }

/-- Count an offer and fix the home channel of its cell (R267). -/
def Dev.noteOffer (d : Dev) (slot meter : Nat) : Dev :=
  let d := d.count R.DST_CNT_n 0
  match (Maps.get? meter d.dur.ctxs).bind Ctx.place, Maps.get? slot d.dur.campaigns with
  | some place, some c =>
    if 4096 ≤ place ∨ Maps.has c.homes place then d
    else d.journal (.campaign slot (some { c with homes := Maps.put c.homes place (d.headRt place).beaconCh }))
  | _, _ => d

/-- The KIND of key transfer a downlink carries (R302). -/
def DlKind.keyKind : DlKind → Option KeyXfer
  | .key x => some x
  | _ => none

/-- What an ordered downlink leaves. -/
def Dev.noteDownlink (d : Dev) (meter id : Nat) : DlKind → Dev
  | .offer slot => d.noteOffer slot meter
  | .request _ => d.markDownlink id true
  | .abort _ => d.markDownlink id true
  | _ => d

/-- A waiting downlink of the meter in window `k` (R267, R302, R450). -/
def Dev.orderDownlink (d : Dev) (w : Window) (k meter : Nat) : Dev :=
  match d.downlinkDue meter with
  | none => d
  | some (kind, id, ie, payload) =>
    let h := d.headRt w.head
    let t0 := d.windowAt w.endNs k
    if h.orderable = false then d
    else if d.windowFits h t0 (d.downLen meter ie payload) = false then d.count R.FHM_CNT_n 8
    else
      match d.composeDownlink meter (Config.cellPan w.head).toNat ie payload with
      | (none, d) => d
      | (some p, d) => (d.orderWindow w.head t0 p (.downlink meter kind id k) 0 0 kind.keyKind).noteDownlink meter id kind

/-- The head number of an order that another device's head carries out. -/
def foreignHead : Nat := 65535

/-- R424: a downlink to a meter whose head another device serves: secured, sent to that device, and kept as an order until
its DOWN_CONFIRM. -/
def Dev.forwardDownlink (d : Dev) (meter pos pan t0 window : Nat) : Dev :=
  match d.downlinkDue meter, Maps.get? meter d.dur.ctxs with
  | some (kind, id, ie, payload), some c =>
    match d.composeDownlink meter pan ie payload with
    | (some p, d) =>
      let n := d.fhm.dlNext
      match d.sendTo pos (.forwardDown n c.address t0 { p with meter := none }) true with
      | some d =>
        let o : Order := {
          head := foreignHead, txId := n, channel := 0, rate := 0, power := 0, flags := 0, attempts := 1, gate := 0, t0 := t0
          offsets := [], psdu := p, purpose := .downlink meter kind id window, sent := true, sentAt := d.now, keyKind := kind.keyKind }
        let d := { d with fhm := { d.fhm with dlNext := n + 1 } }.planOrder o
        (d.count R.PRL_CNT_n 8).noteDownlink meter id kind
      | none => d
    | (none, d) => d
  | _, _ => d

/-- Statistics of a meter: count `k` of R184. -/
def Dev.stat (d : Dev) (meter k : Nat) : Dev :=
  let f (c : Ctx) : Ctx := { c with stats := c.stats.mapIdx fun i v => if i = k then satNat 32 (v + 1) else v }
  { d with dur := { d.dur with ctxs := Maps.modify d.dur.ctxs meter f } }

/-- R175: an acceptance notice, with the secured acknowledgements for both windows of an uplink. Another device's head sends
them at 100 kb/s (log entry 78). -/
def Dev.noticeOut (d : Dev) (meter pos pan addr counter endNs : Nat) : Dev :=
  match d.composeAck meter pan 1 (d.windowAt endNs 1) with
  | (some (p1, _, _, _), d) =>
    match d.composeAck meter pan 1 (d.windowAt endNs 2) with
    | (some (p2, _, _, _), d) =>
      (d.sendTo pos (.acceptNotice addr counter { p1 with meter := none } { p2 with meter := none }) true).getD d
    | (none, d) => d
  | (none, d) => d

/-- R84: window `k` of an uplink passes without its acknowledgement ordered: after the second, the windows go, and
ACCEPT_MISSED counts where no acknowledgement was ordered (log entry 78). -/
def Dev.windowPassed (d : Dev) (w : Window) (k : Nat) : Dev :=
  if k = 1 then d
  else
    let d := d.dropWindow w.addr w.endNs
    match w.meter with
    | some m => if w.ordered then d else (d.count R.FHM_CNT_n 6).stat m 5
    | none => d

/-- R84, R85, R267, R302: order what an uplink's window `k` carries: its accept acknowledgement, or else a waiting downlink. After the
latest instant of its order the window has passed (R79). -/
def Dev.useWindow (d : Dev) (w : Window) (k : Nat) (ack : Bool) : Dev :=
  if d.windowDue w k < d.now then d.windowPassed w k
  else
    let (done, d) := if ack then d.orderAck w k else (false, d)
    -- the windows stay until the second one passes (R174)
    if done then d.putWindow { w with ordered := true }
    else
      match w.meter with
      | some m => (if w.committed = w.ordered then d.orderDownlink w k m else d).windowPassed w k
      | none => d.windowPassed w k

/-! ## Wake windows -/

/-- R99: the predicted opening of wake window k and the guard, in ns. -/
def Dev.wakeAt (d : Dev) (c : Ctx) (k : Nat) : Nat × Nat :=
  let sync := 1000000000 * c.syncSec + c.syncNs
  let span : Nat := k * d.get F.FHM_WAKE_PERIOD * 1000000000
  let after : Nat := ((span : Int) * 1000000000 / (1000000000 + c.drift)).toNat
  let rate := if c.confidence < d.get F.FHM_DRIFT_MIN_CONF then 8388607 else c.drift.natAbs
  let ticks := d.get F.FHM_GUARD_BASE + (rate * after * 32768 + (10 ^ 18 - 1)) / 10 ^ 18 + d.get F.FHM_GUARD_JITTER
  (sync + after, ticks * 1000000000 / 32768)

/-- R99: guards and airtime fit the wake window. -/
def Dev.wakeFits (d : Dev) (guard air : Nat) : Bool := decide (2 * guard + air ≤ 1000000 * d.get F.FHM_WAKE_WINDOW)

/-- A downlink into wake window k of a meter, or held for its next uplink (R99). Its order goes no later than L_h before its first
attempt (R79). -/
def Dev.sendWake (d : Dev) (meter k : Nat) : Dev :=
  match Maps.get? meter d.dur.ctxs, d.downlinkDue meter with
  | some c, some (kind, id, ie, payload) =>
    let (open_, guard) := d.wakeAt c k
    let busy := d.fhm.orders.any fun o => match o.purpose with
      | .downlink m _ _ _ => m == meter
      | _ => false
    match c.heads.head?, Maps.get? meter d.fhm.foreign with
    | some home, _ =>
      let h := d.headRt home.head
      let air := airtimeNs h.rate (d.downLen meter ie payload)
      if c.mbus ∨ c.zx.isSome ∨ busy ∨ h.orderable = false ∨ d.wakeFits guard air = false then d
      else if d.budget h h.rxCh ((open_ + guard) / 1000000) (granules air) = false then d.count R.FHM_CNT_n 8
      else
        match d.csma h.rate (open_ + guard) with
        | (t0, offs, d) =>
          let close := open_ + 1000000 * d.get F.FHM_WAKE_WINDOW
          if t0 < d.now + d.leadNs h (unitUs h.rate) ∨ close < t0 + air then d
          else
            match d.composeDownlink meter (Config.cellPan home.head).toNat ie payload with
            | (none, d) => d
            | (some p, d) =>
              match d.newOrder home.head h.rxCh true true false t0 (attemptsBy close t0 air offs) p (.downlink meter kind id 0) with
              | (o, d) => (d.sendOrder { o with keyKind := kind.keyKind, sfdEnd := open_ }).noteDownlink meter id kind
    | none, some (pos, pan) =>
      if busy ∨ d.wakeFits guard (airtimeNs 1 (d.downLen meter ie payload)) = false ∨ open_ + guard ≤ d.now then d
      else d.forwardDownlink meter pos pan (open_ + guard) 0
    | none, none => d
  | _, _ => d

/-! ## Commits -/

/-- R196: an item without a frame waits behind its meter's work in flight. -/
def Dev.queueJob (d : Dev) (meter : Nat) (j : DlJob) : Dev :=
  let ahead := (d.eng.staging.filter fun f => f.meter == meter).length
  { d with eng := { d.eng with downs := d.eng.downs ++ [(meter, j, ahead)] } }

/-- R84, R182: the commit of an uplink, or its notice, is here: the window whose latest instant was reached before it is still taken
in that instant, and after the second one has passed none is. -/
def Dev.arrived (d : Dev) (w : Window) : Dev :=
  if w.checked = 0 ∨ w.ordered then d.putWindow w
  else if d.windowDue w w.checked < d.now then if w.checked = 1 then d.putWindow w else d.windowPassed w 2
  else
    let d := d.putWindow w
    match w.notice, w.meter with
    | none, some m => d.queueJob m (.window w.addr w.endNs w.checked true)
    | _, _ => d.useWindow w w.checked true

/-- R24, R85, R120, R175: a committed or repeated frame is to be acknowledged: through its receive windows, by the ACK
frame's bitmap on ZX-PLC, or by a notice to the device that forwarded it. `counters` lists every block of a message. -/
def Dev.accept (d : Dev) (f : Staged0) (counters : List Nat) (dup : Bool := false) : Dev :=
  if f.frame.mbus then d
  else
    let now := d.now
    let fresh := d.fhm.committed.filter fun c => decide (now ≤ c.rx + 4000000000) && !(c.meter == f.meter && counters.contains c.counter)
    let rx := 1000000000 * f.rxSec + f.rxNs
    let add : List Committed := counters.map fun c => { meter := f.meter, counter := c, rx := rx }
    let d := { d with fhm := { d.fhm with committed := fresh ++ add } }
    match f.source with
    | 0 =>
      match d.window? f.frame.address f.endNs with
      | some w => d.arrived { w with committed := true, meter := some f.meter }
      | none => d
    | 1 => d.zxAck f dup
    | _ =>
      match Maps.get? f.meter d.fhm.foreign with
      | some (pos, pan) =>
        let d := d.queueJob f.meter (.notice pos pan f.frame.address f.frame.counter f.endNs)
        if d.pendingFor f.meter then d.queueJob f.meter (.forward pos pan (d.windowAt f.endNs 2) 2) else d
      | none => d

end Sys2Proof.Machine
end

