-- ==== Sys2Proof/Machine/Records.lean ====
section
/-! DEFINITION. Reading records (R178): their bytes, their tag or signature (R179, R180, R297, R177), and the order in which
a ring receives them (R176). -/

namespace Sys2Proof.Machine

/-- Quality bits of R178. -/
def Qual.rejected : Nat := 1
def Qual.late : Nat := 2
def Qual.gap : Nat := 4
def Qual.tsReplaced : Nat := 8
def Qual.mismatch : Nat := 16
def Qual.incomplete : Nat := 32
def Qual.candKey : Nat := 64
def Qual.forwarded : Nat := 128

/-- Bytes 0x00 to 0x6F of a record. -/
def RecordBody.bytes (b : RecordBody) (ecdsa : Bool) (status slot : Nat) : Bytes :=
  [if ecdsa then 2 else 1, 1] ++ leBytes 1 b.cls ++ leBytes 1 b.count ++
    leBytes 4 (b.meter % 2 ^ 20 + 2 ^ 20 * b2n b.mbus + 2 ^ 24 * (b.position % 8)) ++ beBytes 8 b.address ++ leBytes 6 b.seq ++
    leBytes 1 b.tariff ++ leBytes 1 b.source ++ leBytes 6 b.rxSec ++ leBytes 4 b.rxNs ++ leBytes 6 b.tsSec ++
    leBytes 4 b.counter ++ leBytes 2 b.quality ++ leBytes 1 status ++ leBytes 1 slot ++
    (List.range 8).flatMap fun i => leBytes 8 (if i < b.count then pattern 64 (b.values.getD i 0) else 0)

/-- Whether a record of a ring carries a signature (R179, R180). -/
def Dev.ecdsaRecord (d : Dev) (ring count : Nat) : Bool :=
  (d.ringRec ring).signed && !(d.flag F.ING_RECORD_STORM_GMAC && count == 0)

/-- Words of a reading packet, length word included (R443). -/
def recordWords (ecdsa : Bool) : Nat := if ecdsa then 45 else 33

/-- A record's bytes without tag or signature: STATUS `status` and zeros (R177). -/
def Dev.plainRecord (d : Dev) (b : RecordBody) (ecdsa : Bool) (status : Nat) : Bytes :=
  let slot := d.get (if ecdsa then F.ING_RECORD_SIGN_SLOT else F.ING_RECORD_TAG_SLOT)
  b.bytes ecdsa status slot ++ List.replicate (if ecdsa then 64 else 16) 0

/-- STATUS of a record whose key is gone (R177). -/
def Dev.noKeyStatus (d : Dev) : Nat := if d.keyLocked then 1 else 2

/-- A record's finished bytes under a key: with its tag, or its signature (R179). -/
def Dev.sealRecord (d : Dev) (b : RecordBody) (ecdsa : Bool) (key : Nat) : Bytes × Dev :=
  let slot := d.get (if ecdsa then F.ING_RECORD_SIGN_SLOT else F.ING_RECORD_TAG_SLOT)
  let body := b.bytes ecdsa 0 slot
  if ecdsa then
    match d.sign key body with
    | (sig, d) => (body ++ beBytes 64 sig.toNat, d)
  else
    let nonce := beNat (leBytes 6 b.seq ++ [0x41, 0x5A, 0x52, 0x43] ++ leBytes 1 slot ++ [0])
    (body ++ beBytes 16 (Crypto.gcmTag 32 key nonce body []).toNat, d)

/-- Drop previous key generations that no record needs, of those that wait for their tag or signature and of those that await the
standby (R297). -/
def Dev.dropPrevious (d : Dev) : Dev :=
  let awaited (p : PrevKey) (w : Work) : Bool := w.stage == .mirror && (w.reading.map fun r => p.covers r.body.seq).getD false
  let needed (p : PrevKey) : Bool :=
    p.below.isNone || (d.eng.records.any fun r => r.done.isNone && p.covers r.seq) || d.eng.flight.any fun x => awaited p x.2
  { d with key := { d.key with previous := d.key.previous.filter needed } }

/-- A lower-numbered record of the ring is still on its way to it (R176). -/
def Dev.earlier (d : Dev) (ring seq : Nat) : Bool :=
  d.eng.flight.any fun p =>
    decide (p.2.stage = .mirror) && (p.2.ring.map fun r => r.1 == ring).getD false &&
      (p.2.reading.map fun r => decide (r.body.seq < seq)).getD false

/-- Write a ring's finished records, in ascending sequence number (R176). -/
def Dev.emitRing (n : Nat) : Nat → Dev → Dev
  | 0, d => d
  | k + 1, d =>
    match d.eng.records.find? (·.ring == n) with
    | none => d
    | some r =>
      match r.done with
      | none => d
      | some b =>
        if d.earlier n r.seq then d
        else
          match d.ringPut n r.replay (bytesToWords b) with
          | none => d
          | some d =>
            let d := { d with eng := { d.eng with records := d.eng.records.filter fun x => !(x.ring == n && x.seq == r.seq) } }
            let d := d.count R.ING_CNT_n (if r.ecdsa then 13 else 12)
            Dev.emitRing n k (d.drainCheck n)

/-- A record's tag or signature is done, or the record is released unsigned (R176, R177). -/
def Dev.doneRecord (d : Dev) (seq : Nat) (bytes : Bytes) (unsignedRec : Bool) : Dev :=
  match d.eng.records.find? (·.seq == seq) with
  | none => d
  | some r =>
    let put (x : PendingRecord) : PendingRecord := if x.seq = seq then { x with done := some bytes } else x
    let d := { d with eng := { d.eng with records := d.eng.records.map put } }
    let d := d.archiveFill seq bytes unsignedRec
    let d := if unsignedRec then (d.count R.ING_CNT_n 14).raise F.ING_INT_STATUS_UNSIGNED (seq % 2 ^ 32) (seq / 2 ^ 32) else d
    d.dropPrevious.emitRing r.ring d.eng.records.length

/-- Tag or sign a pending record (R179); with its key gone it is released unsigned: STATUS 1 in the locked states, else
STATUS 2 (R177). -/
def Dev.finishRecord (d : Dev) (seq : Nat) : Dev :=
  match d.eng.records.find? (·.seq == seq) with
  | none => d
  | some r =>
    if r.done.isSome then d
    else
      match d.recordKey r.ecdsa seq with
      | some k =>
        match (d.count R.KEY_CNT_n (if r.ecdsa then 8 else 7)).sealRecord r.body r.ecdsa k with
        | (b, d) => d.doneRecord seq b false
      | none => d.doneRecord seq (d.plainRecord r.body r.ecdsa d.noKeyStatus) true

/-- Release every record that still waits unsigned, with STATUS 1 (R177, KEY_ZERO). -/
def Dev.releaseUnsigned (d : Dev) : Dev :=
  (d.eng.records.filter fun r => r.done.isNone).foldl
    (fun d r => d.doneRecord r.seq (d.plainRecord r.body r.ecdsa 1) true) d

/-- Queue a record for emission again (R311, R373, R410), with REPLAY set. -/
def Dev.reEmit (d : Dev) (ring : Nat) (b : RecordBody) : Dev :=
  d.queueRecord { seq := b.seq, ring := ring, body := b, ecdsa := d.ecdsaRecord ring b.count, done := none, replay := true }

end Sys2Proof.Machine
end

