-- ==== Sys2Proof/Machine/Arbiter.lean ====
section
/-! DEFINITION. The rows of the sign/hash arbiter (R203 to R211). A request's work is its operation's effect at the end. -/

namespace Sys2Proof.Machine

/-- R206: SIGNHASH_REQUEST. -/
def execSignhashRequest (port : Nat) (op : ShOp) (blocks : Nat) (s : State) : Answer :=
  s.on fun d => if port = 0 ∨ 8 < port then d else d.shPost port op blocks

/-- R263, step 2: the hash of a campaign's object at port rank 5; a request that the full queue returned waits (step 1). -/
def Dev.postLoad (d : Dev) (slot : Nat) : Dev :=
  let blocks := ((Maps.getD d.dst.objects slot []).length + 72) / 64
  let d := d.shPost 5 (.imageHash slot) blocks
  { d with dst := { d.dst with loading := Maps.put d.dst.loading slot (if d.shHas (.imageHash slot) then 2 else 1) } }

/-- R206: port 5 resubmits a returned request once its queue has a free entry. -/
def Dev.repostLoads (d : Dev) : Dev :=
  (d.dst.loading.filter fun p => p.2 == 1).foldl (fun d p => if d.shFull 5 then d else d.postLoad p.1) d

/-- R207, R208: a block boundary of an engine's SHA-256 operation, where every rank is what it is now. -/
def execSignhashBlockEnd (engine : Nat) (s : State) : Answer :=
  s.on fun d =>
    let d := d.refreshUrgent
    match Maps.get? engine d.eng.holders with
    | none => d
    | some h =>
      if h.total = 0 ∨ h.total ≤ h.done + 1 then d
      else
        let h := { h with done := h.done + 1 }
        let d := { d with eng := { d.eng with holders := Maps.put d.eng.holders engine h } }
        match d.eng.bestParked with
        | some r =>
          if r.outranks h then
            let d := { d with eng := { d.eng with parked := { h with since := d.cycles } :: d.eng.parked, holders := Maps.del engine d.eng.holders } }
            (d.grant engine r).repostLoads
          else d
        | none => d

/-- The working key of the archive's SEAL slot: the lowest slot of kind 6 (R287, R359). -/
def Dev.sealKey (d : Dev) : Option (Nat × WorkKey) := d.key.working.find? fun p => p.2.kind == Kind.seal_

/-- R359: seal a full epoch, once every record's place is filled. Without a SEAL root the epoch waits for one. -/
def Dev.sealEpoch (d : Dev) (number : Nat) : Dev :=
  match d.nfm.epochs.find? fun e => e.number == number && e.full && e.sealDigest.isNone && e.recs.all (·.bytes.isSome), d.sealKey with
  | some e, some (slot, w) =>
    let previous := d.nfm.lastSealDigest
    let (made, d) := d.sealOf e slot w.gen w.key previous
    let digest := made.2
    let put (x : Epoch) : Epoch := if x.number = number then { x with sealDigest := some digest, sealRec := some made.1 } else x
    { d with nfm := { d.nfm with epochs := d.nfm.epochs.map put, lastSealDigest := digest } }
  | _, _ => d

/-- What a finished operation leaves. A signature waits while the DRBG is stopped (R313). -/
def Dev.shDone (d : Dev) : ShOp → Dev
  | .signRecord seq => d.finishRecord seq
  | .sealEpoch n => d.sealEpoch n
  | .rakeVerify item false => d.copyBad item
  | _ => d

def ShOp.signs : ShOp → Bool
  | .signRecord _ => true
  | .sealEpoch _ => true
  | _ => false

/-- R204, R205: an engine completes its operation and goes to the next request. -/
def execSignhashOpDone (engine : Nat) (s : State) : Answer :=
  s.on fun d =>
    match Maps.get? engine d.eng.holders with
    | none => d
    | some h =>
      if h.op.signs ∧ d.drbgRuns = false then d
      else
        let d := d.shDone h.op
        (Dev.grantIdle 8 { d with eng := { d.eng with holders := Maps.del engine d.eng.holders } }.refreshUrgent).repostLoads

/-- R208: a port's URGENT condition changes; its parked requests take the new rank at the next phase, and a holder keeps its
grant. -/
def execArbUrgentChange (port : Nat) (urgent : Bool) (s : State) : Answer :=
  s.on fun d =>
    let told := if urgent then port :: d.eng.urgent.filter (· ≠ port) else d.eng.urgent.filter (· ≠ port)
    { d with eng := { d.eng with urgent := told } }.refreshUrgent

/-- R203: the wait in µs after which a port's request counts as starved. -/
def starveMicros (port : Nat) : Nat := [10000, 10000, 10000, 100000, 10000000, 10000000, 60000000, 600000000].getD (port - 1) 0

/-- R209: a parked request has waited past its port's limit; it keeps its place. -/
def execArbStarved (port : Nat) (s : State) : Answer :=
  s.on fun d =>
    match d.eng.parked.find? fun r => r.port == port && !r.starved && decide (cyclesOf (starveMicros port) < d.cycles - r.since) with
    | none => d
    | some r =>
      let f (x : ShReq) : ShReq := if x.order = r.order then { x with starved := true } else x
      { d with eng := { d.eng with parked := d.eng.parked.map f } }.raise F.CTX_INT_STATUS_ARB_STARVED port

end Sys2Proof.Machine
end

