-- ==== Sys2Proof/Machine/BalBase.lean ====
section
/-! DEFINITION. The balance intervals of the device's time and where evaluation begins after a restart (R243, R258). -/

namespace Sys2Proof.Machine

def Dev.balMins (d : Dev) : Nat := balMinutes (d.get F.BAL_CTRL_INTERVAL)

/-- The balance interval of the device's time (R243). -/
def Dev.balNow (d : Dev) : Nat := balIndex d.balMins d.utc d.tsu.sec

/-- Bins of BASE, BASE + 1 and BASE + 2 once BASE has moved `k` intervals on: energy of skipped intervals goes. -/
def shiftBins (k : Nat) (x : Int × Int × Int) : Int × Int × Int :=
  match k with
  | 0 => x
  | 1 => (x.2.1, x.2.2, 0)
  | 2 => (x.2.2, 0, 0)
  | _ => (0, 0, 0)

/-- A member with its BASE at `b`. -/
def Member.rebase (m : Member) (b : Nat) : Member :=
  let x := shiftBins (b - m.base) (m.bin0, m.bin1, m.bin2)
  { m with base := b, bin0 := x.1, bin1 := x.2.1, bin2 := x.2.2 }

/-- A zone with its check meter's BASE at `b`. -/
def ZoneRt.rebase (z : ZoneRt) (b : Nat) : ZoneRt :=
  let x := shiftBins (b - z.ckBase) (z.ck0, z.ck1, z.ck2)
  { z with ckBase := b, ck0 := x.1, ck1 := x.2.1, ck2 := x.2.2 }

/-- R258: every BASE at the interval after the restart; evaluation goes on from there. -/
def Dev.balBase (d : Dev) : Dev :=
  let b := d.balNow + 1
  let zone (l : List (Nat × ZoneRt)) (z : ZoneRec) : List (Nat × ZoneRt) :=
    Maps.put l z.zone ((Maps.getD l z.zone ({} : ZoneRt)).rebase b)
  let m (p : Nat × Member) : Nat × Member := (p.1, p.2.rebase b)
  let t := d.dur.bal
  { d with
    dur := { d.dur with bal := { t with zones := d.trellis.zones.foldl zone t.zones, members := t.members.map m } }
    bil := { d.bil with base := b } }

/-- Intervals skipped by the restart: those from the oldest BASE on. -/
def Dev.balSkipped (d : Dev) : Nat :=
  let b := d.balNow + 1
  (d.dur.bal.members.map fun p => b - p.2.base).foldl max 0

/-- R258: after a restart, every BASE moves to the interval after it, and the intervals passed over count as GAP. -/
def Dev.balResume (d : Dev) : Dev := (d.countBy R.BAL_CNT_n 8 d.balSkipped).balBase

end Sys2Proof.Machine
end

