-- ==== Sys2Proof/Machine/Bal.lean ====
section
/-! DEFINITION. The billing and balance commands: time events and closure sweeps (R228 to R233), memberships, queries and
evaluation (R245 to R261). -/

namespace Sys2Proof.Machine

/-! ## Period closure -/

/-- What governs an instance's calendar time. -/
def Dev.instEnv (d : Dev) (inst : Nat) : CalEnv :=
  { cal := d.trellis.calendar, superseded := d.dur.superseded, inst := inst, utc := d.utc }

/-- The demand intervals that an instance's meters use, minutes: those of the classes on it. -/
def Dev.instGrids (d : Dev) (inst : Nat) : List Nat :=
  let on (k : MeterClass) : Bool := k.calendar == inst || d.dur.ctxs.any fun p => p.2.cls == k.classId && d.trellis.instOf p.2 == inst
  (((d.trellis.classes.filter on).filterMap fun k => (d.trellis.layout? k.layout).map (·.demandInterval)).filter (· ≠ 0)).eraseDups

/-- An instance's time events of a kind (1 a grid end, 2 a period boundary) after an instant and up to another, rising. -/
def Dev.timeEvents (d : Dev) (kind inst after upTo : Nat) : List Nat :=
  let e := d.instEnv inst
  if kind = 1 then
    (((d.instGrids inst).flatMap fun m => e.gridEnds m after upTo).filter fun t => decide ((after : Int) < t)).foldl
      (fun l t => insEdge t.toNat l) []
  else e.bounds after upTo

/-- The instant after which an instance's time events of a kind are not journaled yet: the last one's, or the start of service. -/
def Dev.marked (d : Dev) (kind inst : Nat) : Nat := max (Maps.getD d.dur.marks (256 * kind + inst) 0) (d.bil.upSec - 1)

/-- Insert a time event by its instant and kind. -/
def eventIns (x : Nat × Nat × Nat) : List (Nat × Nat × Nat) → List (Nat × Nat × Nat)
  | [] => [x]
  | y :: l => if x.1 < y.1 ∨ (x.1 = y.1 ∧ x.2.1 < y.2.1) then x :: y :: l else y :: eventIns x l

/-- The interval ends and period boundaries not journaled yet that go before a time event of kind `kind` at `at_`: their instant,
kind and instance, in the order of R233. -/
def Dev.eventsBefore (d : Dev) (at_ kind : Nat) : List (Nat × Nat × Nat) :=
  let of (k inst : Nat) : List (Nat × Nat × Nat) := (d.timeEvents k inst (d.marked k inst) at_).map fun t => (t, k, inst)
  let all := d.trellis.calendar.insts.flatMap fun c => of 1 c.inst ++ of 2 c.inst
  (all.filter fun x => decide (x.1 < at_) || decide (x.2.1 < kind)).foldl (fun l x => eventIns x l) []

/-- R233: journal the time events that go before one of kind `kind` at `at_`. -/
def Dev.markBefore (d : Dev) (at_ kind : Nat) : Dev :=
  if d.serves && d.timeValid then (d.eventsBefore at_ kind).foldl (fun d x => d.journal (.time x.2.1 x.2.2 x.1 0)) d else d

/-- R233: a time event of an instance comes: journaled once it is reached, after what goes before it. -/
def Dev.timeEvent (d : Dev) (kind inst at_ : Nat) : Dev :=
  if d.serves && d.timeValid && decide (at_ ≤ d.tsu.sec) && (d.timeEvents kind inst (d.marked kind inst) at_).contains at_ then
    (d.markBefore at_ kind).journal (.time kind inst at_ 0)
  else d

def Dev.setSweeps (d : Dev) (l : List (Nat × Nat)) : Dev :=
  { d with bil := { d.bil with sweeps := l } }.set F.BIL_STATUS_SWEEPS l.length

/-- The instant after which an instance's boundaries are open: the last one closed, or, before any, the earliest that one of its
meters has reached (log entry 97). -/
def Dev.openFrom (d : Dev) (inst : Nat) : Option Nat :=
  match (Maps.getD d.dur.calClosed inst (0, 0)).2 with
  | 0 =>
    let mine := d.dur.ctxs.filter fun p => d.trellis.instOf p.2 == inst
    ((mine.map fun p => max p.2.lastTs (Maps.getD d.dur.bills p.1 {}).periodStart).filter (· ≠ 0)).min?
  | b => some b

/-- The next boundary that an instance closes by an instant (R228, R230). -/
def Dev.nextBoundary (d : Dev) (inst upTo : Nat) : Option Nat := (d.openFrom inst).bind fun a => ((d.instEnv inst).bounds a upTo).head?

/-- The boundary's grace passed while the device was down (R231). -/
def Dev.missedDown (d : Dev) (boundary : Nat) : Bool := decide (boundary + d.get F.BIL_CLOSE_GRACE ≤ d.bil.upSec)

/-- Whether `boundary` is the next one an instance closes (R228): its grace has passed, and no other lies between. Boundaries missed
while the device was down close first, oldest first (R231). -/
def Dev.sweepDue (d : Dev) (inst boundary : Nat) : Bool :=
  let older (c : CalRec) : Bool :=
    match d.nextBoundary c.inst d.bil.upSec with
    | some b => c.inst != inst && d.missedDown b && (!d.missedDown boundary || decide (b < boundary))
    | none => false
  decide (boundary + d.get F.BIL_CLOSE_GRACE ≤ d.tsu.sec) &&
    (match d.openFrom inst with
     | some a => ((d.instEnv inst).bounds a boundary).head? == some boundary
     | none => ((d.instEnv inst).bounds (boundary - 1) boundary).head? == some boundary) &&
    !(d.trellis.calendar.insts.any older)

/-- R228, R231, R333: the sweep of a boundary starts. -/
def execClosureSweepStart (inst boundary : Nat) (s : State) : Answer :=
  s.on fun d =>
    if d.serves && d.timeValid && !Maps.has d.bil.sweeps inst && d.sweepDue inst boundary then
      d.setSweeps (Maps.put d.bil.sweeps inst boundary)
    else d

/-- Meters of an instance still to close at a boundary. -/
def Dev.sweepLeft (d : Dev) (inst boundary : Nat) : List Nat :=
  (d.dur.ctxs.filter fun p => d.trellis.instOf p.2 == inst && decide ((Maps.getD d.dur.bills p.1 {}).periodStart < boundary)).map (·.1)

/-- A reading that waits would cross the boundary, and closes it (R228). -/
def Dev.crosses (d : Dev) (meter boundary : Nat) : Bool :=
  match Maps.get? meter d.eng.flight with
  | some w =>
    w.stage != .mirror &&
      match w.reading with
      | some r => !r.rejected && r.body.count != 0 && decide (boundary ≤ r.body.tsSec)
      | none => false
  | none => false

/-- A meter's reading waits that has not been parsed, so that it cannot be told yet whether it crosses (log entry 97). -/
def Dev.undecided (d : Dev) (meter : Nat) : Bool :=
  d.eng.staging.any (fun f => f.meter == meter) ||
    match Maps.get? meter d.eng.flight with
    | some w => w.kind == .ingest && (w.reading.isNone || w.stage == .parse)
    | none => false

/-- R228: close one meter's period: history, maximum demand, count and start, by its journal record. -/
def Dev.closeMeter (d : Dev) (boundary meter : Nat) : Dev :=
  let d := (d.append (.closure meter boundary)).2
  { d with dur := d.dur.closure d.readEnv meter boundary }.count R.BIL_CNT_n 7

/-- R228: the sweep has visited every meter of the instance, those whose readings wait once these are parsed. A reading committed at
B + GRACE itself is in time (R229). -/
def execClosureSweepDone (inst : Nat) (s : State) : Answer :=
  s.on fun d =>
    match Maps.get? inst d.bil.sweeps with
    | none => d
    | some b =>
      let open_ := d.sweepLeft inst b
      if d.now ≤ 1000000000 * (b + d.get F.BIL_CLOSE_GRACE) ∨ open_.any d.undecided then d
      else
        let left := open_.filter fun m => !d.crosses m b
        let d := left.foldl (fun d m => d.closeMeter b m) d
        let d := (d.journal (.calClosed inst b)).setSweeps (Maps.del inst d.bil.sweeps)
        d.raise F.BIL_INT_STATUS_PERIOD_CLOSED inst

/-! ## Membership -/

def Dev.zoneRec? (d : Dev) (z : Nat) : Option ZoneRec := d.trellis.zones.find? (·.zone == z)

/-- R245: the check meter of any zone. -/
def Dev.isCheck (d : Dev) (meter : Nat) : Bool := d.trellis.zones.any fun z => z.checkKind == 1 && z.checkId == meter

/-- R246, R259: members leave a zone, and their number is logged. A standby has their records from the active. -/
def Dev.detachAll (d : Dev) (gone : List Nat) (zone : Nat) : Dev :=
  if gone = [] ∨ d.serves = false then d
  else (gone.foldl (fun d m => d.journal (.detach m)) d).raise F.BAL_INT_STATUS_DETACHED gone.length zone

/-- R246: no check meter of the model stays a member. -/
def Dev.detachChecks (d : Dev) : Dev :=
  (d.dur.bal.members.filter fun p => d.isCheck p.1).foldl (fun d p => d.detachAll [p.1] p.2.zone) d

/-- A membership change: after an evaluation in progress (R260), and at a synchronised standby first (R189). -/
def Dev.balDo (d : Dev) (r : JRec) : Dev :=
  let c : PairCmd := { recs := [r], finish := .bal }
  if d.bil.eval.isSome then { d with bil := { d.bil with waiting := some c } }.set F.BAL_CMD_BUSY 1 else d.pairDo c

def Dev.balCmd (d : Dev) (f : Dev → Dev) : Dev :=
  if d.flag F.BAL_CMD_BUSY then d else if d.standbyRefuses then d.finish 5 .bal else f d

/-- R245: the result of ATTACH's checks. -/
def Dev.attachCheck (d : Dev) (meter zone : Nat) : Nat :=
  match Maps.get? meter d.dur.ctxs, d.zoneRec? zone with
  | none, _ => 1
  | _, none => 2
  | some c, some z =>
    let layout := (d.trellis.class? c.cls).bind fun k => d.trellis.layout? k.layout
    let inWh := (layout.map fun l => [0, 1].all fun i => !l.directions.testBit i || l.unit.getD i 0 == 30).getD false
    if z.checkKind = 2 then 2
    else if d.isCheck meter then 3
    else if inWh then 0 else 4

/-- R245: BAL_CMD ATTACH. -/
def execAttach (index : Nat) (s : State) : Answer :=
  s.on fun d => d.balCmd fun d =>
    let meter := index % 1048576
    let zone := d.get F.BAL_CMD_ZONE_ZONE
    let r := d.attachCheck meter zone
    if r ≠ 0 then d.finish r .bal
    else
      d.balDo (.attach meter {
        zone := zone, noRank := d.flag F.BAL_CMD_ZONE_NO_RANK, generation := d.flag F.BAL_CMD_ZONE_GENERATION, since := d.tsu.sec
        base := d.balNow + 1 })

/-- R246: BAL_CMD DETACH; the member's pending bins go with it. -/
def execDetach (index : Nat) (s : State) : Answer :=
  s.on fun d => d.balCmd fun d =>
    let meter := index % 1048576
    if (Maps.get? meter d.dur.ctxs).isNone then d.finish 1 .bal
    else if (Maps.get? meter d.dur.bal.members).isNone then d.finish 6 .bal
    else d.balDo (.detach meter)

/-! ## Queries -/

/-- 10^6 × z.sr / z.sc (R252). -/
def ZoneRt.mean (z : ZoneRt) : B64 := B64.div (B64.mul (B64.ofInt 1000000) z.sr) z.sc

/-- The fraction as shown, 0 while sc is 0. -/
def ZoneRt.meanPpm (z : ZoneRt) : Int := if z.sc.m = 0 then 0 else z.mean.toInt

/-- z.w as percent of WINDOW, at most 100. -/
def ZoneRt.fill (z : ZoneRt) (window : Nat) : Nat :=
  min 100 (B64.div (B64.mul (B64.ofInt 100) z.w) (B64.ofInt (max 1 window))).toInt.toNat

/-- z.w has reached MIN_FILL percent of WINDOW. -/
def ZoneRt.filled (z : ZoneRt) (window minFill : Nat) : Bool := B64.le (B64.ofRat ((minFill * window : Nat) : Int) 100) z.w

/-- Insert a ranked member in descending U, a lower meter index first on a tie (R253). -/
def rankIns (x : Nat × Int) : List (Nat × Int) → List (Nat × Int)
  | [] => [x]
  | y :: l => if y.2 < x.2 ∨ (x.2 = y.2 ∧ x.1 < y.1) then x :: y :: l else y :: rankIns x l

/-- The ranked members of a zone. -/
def BalTab.ranking (t : BalTab) (zone : Nat) : List (Nat × Int) :=
  (t.members.filter fun p => p.2.zone == zone && p.2.ranked).foldl (fun l p => rankIns (p.1, p.2.u) l) []

/-- A 64-bit signed value into a LO and HI pair. -/
def Dev.setWideInt (d : Dev) (lo hi : RegD) (v : Int) : Dev := d.setWide lo hi 0 (pattern 64 v)

/-- R253: fill the zone query and ranking registers. -/
def Dev.queryZone (d : Dev) (z : ZoneRec) : Dev :=
  let rt := Maps.getD d.dur.bal.zones z.zone ({} : ZoneRt)
  let d := ((d.set F.BAL_Q_STATUS_TIME_UNTRUSTED (b2n rt.untrusted)).set F.BAL_Q_STATUS_NEUTRAL (b2n rt.neutral)).set F.BAL_Q_STATUS_NEGATIVE (b2n rt.negative)
  let d := ((d.set F.BAL_Q_STATUS_LOSS (b2n rt.loss)).set F.BAL_Q_STATUS_EXCLUDED (b2n rt.excluded)).set F.BAL_Q_STATUS_VALID 1
  let d := ((d.set F.BAL_Q_STATUS_LEVEL z.level).set F.BAL_Q_STATUS_KIND z.checkKind).set F.BAL_Q_STATUS_ZONE z.zone
  let d := (d.setWideInt R.BAL_Q_RESID_LO R.BAL_Q_RESID_HI rt.lastR).setWideInt R.BAL_Q_CHECK_LO R.BAL_Q_CHECK_HI rt.lastC
  let d := (d.setSat F.BAL_Q_MEAN_PPM rt.meanPpm).set F.BAL_Q_LOSS_LOSS (satNat 32 rt.lastL.toNat)
  let d := (d.set F.BAL_Q_MEMBERS_FILL (rt.fill z.window)).set F.BAL_Q_MEMBERS_MEMBERS (d.dur.bal.members.filter fun p => p.2.zone == z.zone).length
  let ranks := if z.checkKind = 2 then [] else d.dur.bal.ranking z.zone
  (List.range 16).foldl (fun d n =>
    match ranks[n]? with
    | some r => ((d.set (F.BAL_RANK_n_METER_VALID.at n) 1).set (F.BAL_RANK_n_METER_METER.at n) r.1).setSat (F.BAL_RANK_n_U_U.at n) r.2
    | none => ((d.set (F.BAL_RANK_n_METER_VALID.at n) 0).set (F.BAL_RANK_n_METER_METER.at n) 0).set (F.BAL_RANK_n_U_U.at n) 0) d

/-- R253: BAL_CMD QUERY_ZONE. -/
def execQueryZone (index : Nat) (s : State) : Answer :=
  s.on fun d =>
    if d.flag F.BAL_CMD_BUSY then d
    else
      match d.zoneRec? (index % 65536) with
      | some z => (d.queryZone z).finish 0 .bal
      | none => ((d.setReg R.BAL_Q_STATUS.off 0).set F.BAL_Q_STATUS_ZONE (index % 65536)).finish 2 .bal

/-- FLAGS of a queried member. -/
def Member.flags (m : Member) : Nat :=
  b2n m.generation + 2 * b2n m.noRank + 4 * b2n m.alarm + 8 * b2n m.mismatch + 16 * b2n m.reverse + 32 * b2n m.tamper +
    64 * b2n (!m.ranked) + 128 * b2n m.lateEnergy

/-- R253: BAL_CMD QUERY_METER. -/
def execQueryMeter (index : Nat) (s : State) : Answer :=
  s.on fun d =>
    if d.flag F.BAL_CMD_BUSY then d
    else
      let meter := index % 1048576
      if (Maps.get? meter d.dur.ctxs).isNone then d.finish 1 .bal
      else
        let m := Maps.get? meter d.dur.bal.members
        let d := ((d.set F.BAL_M_STATE_ATTACHED (b2n m.isSome)).set F.BAL_M_STATE_CHECK (b2n (d.isCheck meter))).set F.BAL_M_STATE_FLAGS
          ((m.map Member.flags).getD 0)
        let d := ((d.set F.BAL_M_STATE_ZONE ((m.map (·.zone)).getD 0)).setSat F.BAL_M_U_U ((m.map fun x => if x.ranked then x.u else 0).getD 0)).set
          F.BAL_M_MISSED_MISSED ((m.map (·.missed)).getD 0)
        let d := (List.range 4).foldl (fun d k =>
          let r := Maps.getD d.dur.bal.tampers (4 * meter + k) ({} : TamperRec)
          let d := (d.set (F.BAL_M_TAMPER_COUNT_k_VALUE.at k) r.count).set (F.BAL_M_TAMPER_FIRST_LO_k_VALUE.at k) (r.first % 2 ^ 32)
          (d.set (F.BAL_M_TAMPER_LAST_LO_k_VALUE.at k) (r.last % 2 ^ 32)).setReg (R.BAL_M_TAMPER_HI_k.at k)
            (BitVec.ofNat 32 (r.first / 2 ^ 32 % 65536 + 65536 * (r.last / 2 ^ 32 % 65536)))) d
        d.finish 0 .bal

/-! ## Evaluation -/

/-- A member's accumulators at zero: it is unranked, and its ALARM clears (R252). -/
def Member.restart (m : Member) : Member :=
  { m with w := {}, sx := {}, se := {}, see := {}, sre := {}, sr := {}, ranked := false, u := 0, alarm := false }

/-- A member's accumulators, bins and estimate at zero. -/
def Member.clear (m : Member) : Member :=
  { m.restart with bin0 := 0, bin1 := 0, bin2 := 0, x := 0, estimated := false, est := 0, updated := false }

/-- A zone's accumulators at zero. -/
def ZoneRt.restart (z : ZoneRt) : ZoneRt := { z with w := {}, sx := {}, sc := {}, sr := {}, srr := {} }

/-- A zone's accumulators, and what it holds of its check, at zero. -/
def ZoneRt.clear (z : ZoneRt) : ZoneRt := { z.restart with ck0 := 0, ck1 := 0, ck2 := 0, ckX := 0, carry := 0, checks := [] }

def BalTab.clear (t : BalTab) : BalTab :=
  { t with zones := t.zones.map fun p => (p.1, p.2.clear), members := t.members.map fun p => (p.1, p.2.clear) }

/-- R258: a device that becomes active in a pair starts every accumulator and bin at zero. -/
def Dev.balTake (d : Dev) : Dev :=
  ({ d with dur := { d.dur with bal := d.dur.bal.clear } }.balBase).set F.BAL_STATUS_REBUILDING 1

/-- BAL_CTRL.RESTART. -/
def execBalRestart (s : State) : Answer :=
  s.on fun d => { d with dur := { d.dur with bal := d.dur.bal.clear } }

/-- LAST_TS of a meter. -/
def Dur.lastTs (u : Dur) (meter : Nat) : Nat := ((Maps.get? meter u.ctxs).map (·.lastTs)).getD 0

/-- R247, pass 1: freeze interval `b` of every member and check meter. -/
def Dev.beginEval (d : Dev) (b : Nat) : Dev :=
  let t := freezeAll d.trellis.zones d.balMins d.utc b d.dur.lastTs d.dur.bal
  let est := (t.members.filter fun p => p.2.base == b + 1 && p.2.estimated).length
  let d := ({ d with dur := { d.dur with bal := t }, bil := { d.bil with eval := some b } }.set F.BAL_STATUS_EVAL_BUSY 1)
  d.countBy R.BAL_CNT_n 2 est

/-- The instant at which interval `b` is evaluated (R247). -/
def Dev.evalAt (d : Dev) (b : Nat) : Nat := balEnd d.balMins d.utc b + 60 * d.balMins * d.get F.BAL_CTRL_SETTLE

/-- R247, R260: E_b plus SETTLE intervals is reached. While an evaluation runs, the next starts at its end. Intervals that passed
before a restart or takeover are skipped (R258). -/
def execBalEvaluation (b : Nat) (s : State) : Answer :=
  s.on fun d =>
    let due := d.evalAt b
    let last := d.wide R.BAL_LAST_B_LO R.BAL_LAST_B_HI 0
    if d.serves = false ∨ d.timeValid = false ∨ d.tsu.sec < due ∨ b ≤ last ∨ b < d.bil.base then d
    else
      match d.bil.eval with
      | some c => if b ≤ c ∨ d.bil.due.contains b then d else { d with bil := { d.bil with due := d.bil.due ++ [b] } }.raise F.BAL_INT_STATUS_EVAL_OVERRUN
      | none => d.beginEval b

/-- R251, R252 for one member of a zone. The flag says its alarm begins. -/
def Member.rank (m : Member) (z : ZoneRec) (minFill minSpread : Nat) (held : Bool) : Member × Bool :=
  if m.updated = false then (m, false)
  else
    match m.estimate z.window minFill minSpread with
    | none => ({ m with ranked := false, u := 0, alarm := false }, false)
    | some u =>
      let rise := decide ((z.threshold : Int) < u) && !m.alarm && !held
      let fall := decide (10 * u < 9 * (z.threshold : Int))
      ({ m with ranked := true, u := u, alarm := (m.alarm || rise) && !fall }, rise)

/-- R252 for a zone: its residual events. The flags say that LOSS and NEGATIVE begin. -/
def ZoneRt.crossing (z : ZoneRt) (window minFill ppm : Nat) (held : Bool) : ZoneRt × Bool × Bool :=
  if held ∨ z.filled window minFill = false ∨ z.sc.m = 0 then (z, false, false)
  else
    -- comparisons of the fraction itself, not of its rounded value
    let k := z.mean
    let at_ (n : Int) : B64 := B64.ofRat n 10
    let p : Int := ppm
    let loss := !B64.le k (at_ (10 * p)) && !z.loss
    let neg := !B64.le (at_ (-10 * p)) k && !z.negative
    ({ z with loss := (z.loss || loss) && B64.le (at_ (9 * p)) k, negative := (z.negative || neg) && B64.le k (at_ (-9 * p)) },
      loss, neg)

/-- R251, R252 over a zone after its update. -/
def Dev.rankZone (d : Dev) (z : ZoneRec) : Dev :=
  let held := d.flag F.BAL_STATUS_REBUILDING
  let fill := d.get F.BAL_RANK_CFG_MIN_FILL
  let rt := Maps.getD d.dur.bal.zones z.zone ({} : ZoneRt)
  let d := if rt.curExcluded then d.count R.BAL_CNT_n 1 else d
  let d := if z.checkKind = 1 ∧ rt.ckMissing then (d.count R.BAL_CNT_n 9).raise F.BAL_INT_STATUS_CHECK_MISSING z.checkId z.zone else d
  let d := d.dur.bal.members.foldl (fun d p =>
    if p.2.zone ≠ z.zone then d
    else
      let (m, rise) := p.2.rank z fill (d.get F.BAL_RANK_CFG_MIN_SPREAD) held
      let d := { d with dur := { d.dur with bal := { d.dur.bal with members := Maps.put d.dur.bal.members p.1 m } } }
      if rise then
        -- meter in bits 19:0, zone in bits 35:20, U above (R252; log entry 53)
        let n := p.1 + 2 ^ 20 * z.zone + 2 ^ 36 * pattern 28 m.u
        (d.count R.BAL_CNT_n 4).raise F.BAL_INT_STATUS_MEMBER_ALARM (n % 2 ^ 32) (n / 2 ^ 32)
      else d) d
  if rt.curExcluded then d
  else
    let (rt, loss, neg) := rt.crossing z.window fill (d.get F.BAL_ZONE_PPM_PPM) held
    let d := { d with dur := { d.dur with bal := { d.dur.bal with zones := Maps.put d.dur.bal.zones z.zone rt } } }
    let d := if loss then d.raise F.BAL_INT_STATUS_ZONE_LOSS z.zone (pattern 32 rt.meanPpm) else d
    if neg then d.raise F.BAL_INT_STATUS_ZONE_NEGATIVE z.zone (pattern 32 rt.meanPpm) else d

/-- R258: REBUILDING ends once every zone that keeps sums is filled. -/
def Dev.rebuilt (d : Dev) : Dev :=
  let fill := d.get F.BAL_RANK_CFG_MIN_FILL
  let all := d.trellis.zones.all fun z => (Maps.getD d.dur.bal.zones z.zone ({} : ZoneRt)).filled z.window fill
  if all then d.set F.BAL_STATUS_REBUILDING 0 else d

/-- R247 to R252, R261, pass 2: residuals, accumulators, estimates and alarms; then what waited for the evaluation. -/
def Dev.endEval (d : Dev) (b : Nat) : Dev :=
  let model := d.trellis.zones
  let t := evalLevels model d.balMins (d.get F.BAL_CTRL_EST_PCT) b d.dur.bal
  let d := { d with dur := { d.dur with bal := t } }.countBy R.BAL_CNT_n 0 model.length
  let d := model.foldl Dev.rankZone d
  let calm (p : Nat × Member) : Nat × Member := (p.1, { p.2 with updated := false })
  let bal : BalTab := { d.dur.bal with members := d.dur.bal.members.map calm }
  let d := { d with dur := { d.dur with bal := bal }, bil := { d.bil with eval := none } }
  let d := (d.rebuilt.setWide R.BAL_LAST_B_LO R.BAL_LAST_B_HI 0 b).set F.BAL_STATUS_EVAL_BUSY 0
  let d := d.raise F.BAL_INT_STATUS_EVAL_DONE (b % 2 ^ 32)
  match d.bil.waiting with
  | some c =>
    let d' := { d with bil := { d.bil with waiting := none, answered := false } }
    if d.bil.answered then d'.complete c else d'.pairDo c
  | none => d

/-- R247, R261: both passes end. -/
def execBalEvalDone (s : State) : Answer :=
  s.on fun d =>
    match d.bil.eval with
    | none => d
    | some b =>
      let d := d.endEval b
      match d.bil.due with
      | [] => d
      | x :: xs => { d with bil := { d.bil with due := xs } }.beginEval x

end Sys2Proof.Machine
end

