-- ==== Sys2Proof/Machine/Dialect.lean ====
section
/-! DEFINITION. The dialect engine (R33, R493): a parse graph run over a decrypted payload, and the date-times its TIME
nodes convert (R492). Where the spec leaves a node's operand open, log entry 22 says how it is read. -/

namespace Sys2Proof.Machine

/-- Rejection codes of R170. -/
def Rej.budget : Nat := 1
def Rej.bounds : Nat := 2
def Rej.unsupported : Nat := 3
def Rej.dlms : Nat := 4
def Rej.nonMonotonic : Nat := 5
def Rej.step : Nat := 6
def Rej.tsOrder : Nat := 7
def Rej.graph : Nat := 16

/-- What a parse needs beside the payload: TAI − UTC at receipt and the meter's calendar record (R492). -/
structure ParseEnv where
  off : Int
  cal : Option CalRec

/-- A parse in progress. -/
structure PSt where
  node : Nat
  pos : Nat := 0
  /-- Ends of the elements entered, innermost first. -/
  ends : List Nat := []
  /-- Running LOOPs, innermost first: node, repetitions begun and end of the element the loop is in. -/
  loops : List (Nat × Nat × Option Nat) := []
  slot : Nat := 0
  /-- Where the tag or header stands that the last TAG consumed. -/
  head : Option Nat := none
  out : Parsed := {}

/-- A node's outcome: success with the parse as it leaves it, failure, or the end of the parse with a code. -/
inductive NodeRes where
  | ok (p : PSt)
  | fail
  | stop (code : Nat)

/-- The data length that a DIF gives, or none for a variable-length field (EN 13757-3). -/
def difLen (dif : Nat) : Option Nat :=
  match dif % 16 with
  | 0 => some 0 | 1 => some 1 | 2 => some 2 | 3 => some 3 | 4 => some 4 | 5 => some 4 | 6 => some 6 | 7 => some 8
  | 8 => some 0 | 9 => some 1 | 10 => some 2 | 11 => some 3 | 12 => some 4 | 14 => some 6 | _ => none

/-- The data length of an LVAR byte (EN 13757-3). -/
def lvarLen (v : Nat) : Nat :=
  if v < 0xC0 then v
  else if v < 0xD0 then v - 0xC0
  else if v < 0xE0 then v - 0xD0
  else if v < 0xF0 then v - 0xE0
  else if v < 0xF5 then 4 * (v - 0xEC)
  else if v = 0xF5 then 48 else 64

/-- Bytes at a position, none beyond `lim`. -/
def readAt (b : Bytes) (lim pos n : Nat) : Option Bytes := if pos + n ≤ lim then some (b.slice pos n) else none

/-- Length of an extension chain from `pos`: bytes up to the first whose bit 7 is 0. -/
def chainLen (b : Bytes) (lim : Nat) : Nat → Nat → Option Nat
  | 0, _ => none
  | k + 1, pos => if lim ≤ pos then none else if b.u8 pos < 128 then some 1 else (chainLen b lim k (pos + 1)).map (· + 1)

/-- Length of a data-record header at `pos`: DIF, DIFEs, VIF, VIFEs. A special DIF (the idle filler 0x2F, 0x0F and 0x1F before
manufacturer data) stands alone. -/
def headerLen (b : Bytes) (lim pos : Nat) : Option Nat :=
  if lim ≤ pos then none
  else if b.u8 pos % 16 = 15 then some 1
  else (chainLen b lim 12 pos).bind fun k => (chainLen b lim 12 (pos + k)).map (k + ·)

/-- The position after a data record's data field, which begins at `pos` under `dif`. -/
def recordEnd (b : Bytes) (lim pos dif : Nat) : Option Nat :=
  if dif = 0x2F then some pos
  else if dif % 16 = 15 then some lim
  else
    match difLen dif with
    | some n => if pos + n ≤ lim then some (pos + n) else none
    | none => if pos < lim ∧ pos + 1 + lvarLen (b.u8 pos) ≤ lim then some (pos + 1 + lvarLen (b.u8 pos)) else none

/-- An A-XDR length at `pos`: its value and the position after it. -/
def axdrLen (b : Bytes) (lim pos : Nat) : Option (Nat × Nat) :=
  if lim ≤ pos then none
  else if b.u8 pos < 128 then some (b.u8 pos, pos + 1)
  else
    let k := b.u8 pos - 128
    (readAt b lim (pos + 1) k).map fun x => (beNat x, pos + 1 + k)

/-- Bytes after the tag of an A-XDR type of fixed size (IEC 62056-6-2). -/
def axdrFixed (tag : Nat) : Option Nat :=
  match tag with
  | 0 => some 0 | 3 => some 1 | 5 => some 4 | 6 => some 4 | 13 => some 1 | 15 => some 1 | 16 => some 2 | 17 => some 1
  | 18 => some 2 | 20 => some 8 | 21 => some 8 | 22 => some 1 | 23 => some 4 | 24 => some 8 | 25 => some 12
  | 26 => some 5 | 27 => some 4 | _ => none

/-- The position after `k` whole A-XDR elements, nested ones included; or the code that ends the parse. -/
def axdrSkip (b : Bytes) (lim : Nat) : Nat → Nat → Nat → Except Nat Nat
  | _, pos, 0 => .ok pos
  | 0, _, _ => .error Rej.bounds
  | fuel + 1, pos, k + 1 =>
    if lim ≤ pos then .error Rej.bounds
    else
      let t := b.u8 pos
      match axdrFixed t with
      | some n => if pos + 1 + n ≤ lim then axdrSkip b lim fuel (pos + 1 + n) k else .error Rej.bounds
      | none =>
        if ([1, 2, 4, 9, 10, 12] : List Nat).contains t = false then .error Rej.unsupported
        else
          match axdrLen b lim (pos + 1) with
          | none => .error Rej.bounds
          | some (n, p) =>
            if t = 1 ∨ t = 2 then axdrSkip b lim fuel p (k + n)
            else
              let m := if t = 4 then (n + 7) / 8 else n
              if p + m ≤ lim then axdrSkip b lim fuel (p + m) k else .error Rej.bounds

/-! ## Date-times (R492) -/

/-- PTP seconds of a local date and time. `summer`: some true when the status marks summer time, some false standard. -/
def localToPtp (e : ParseEnv) (w : Int) (summer : Option Bool) : Int :=
  match e.cal with
  | none => w + e.off
  | some c =>
    let both := decide (c.dstDelta ≠ 0) && isDst c (w - 60 * (c.dstDelta : Int)) && !isDst c w
    if both ∧ summer = some false then w - 60 * c.stdOffset + e.off else ptpOfWall c e.off w

/-- Seconds of a civil date and time, or none where a field lies out of range. -/
def civilSecs (y : Int) (mo d h mi s : Nat) : Option Int :=
  if mo = 0 ∨ 12 < mo ∨ d = 0 ∨ 23 < h ∨ 59 < mi ∨ 59 < s then none
  else if daysInMonth y mo < d then none
  else some (daysFromCivil y mo d * 86400 + ((3600 * h + 60 * mi + s : Nat) : Int))

/-- A DLMS date-time of 12 B; its deviation lies within those of R236's own times (log entry 22). -/
def dlmsTime (e : ParseEnv) (b : Bytes) : Option Nat :=
  let sec := if b.u8 7 = 255 then 0 else b.u8 7
  let hundredths := b.u8 8
  let weekday := b.u8 4
  let dev := signed 16 (b.be 9 2)
  if dev ≠ -32768 ∧ (dev < -900 ∨ 720 < dev) then none
  else if b.be 0 2 = 0xFFFF ∨ (99 < hundredths ∧ hundredths ≠ 255) ∨ ((weekday = 0 ∨ 7 < weekday) ∧ weekday ≠ 255) then none
  else
    (civilSecs (b.be 0 2) (b.u8 2) (b.u8 3) (b.u8 5) (b.u8 6) sec).map fun w =>
      let st := b.u8 11
      if dev ≠ -32768 then (w + 60 * dev + e.off).toNat
      else (localToPtp e w (if st = 255 then none else some (st.testBit 7))).toNat

/-- The year of an EN 13757-3 date: 0 to 99 of a century; 127 marks it not specified. -/
def mbusYear (lo hi : Nat) : Option Int :=
  let y := lo / 32 + 8 * (hi / 16)
  if y < 100 then some ((2000 + y : Nat) : Int) else none

/-- An EN 13757-3 type F (4 B) or type I (6 B) date and time. -/
def mbusTime (e : ParseEnv) (b : Bytes) : Option Nat :=
  if b.length = 4 then
    if (b.u8 0).testBit 7 then none
    else
      ((mbusYear (b.u8 2) (b.u8 3)).bind fun y => civilSecs y (b.u8 3 % 16) (b.u8 2 % 32) (b.u8 1 % 32) (b.u8 0 % 64) 0).map fun w =>
        (localToPtp e w (some ((b.u8 1).testBit 7))).toNat
  else if (b.u8 1).testBit 7 then none
  else
    -- second 63 is one not specified
    let sec := if b.u8 0 % 64 = 63 then 0 else b.u8 0 % 64
    ((mbusYear (b.u8 3) (b.u8 4)).bind fun y => civilSecs y (b.u8 4 % 16) (b.u8 3 % 32) (b.u8 2 % 32) (b.u8 1 % 64) sec).map fun w =>
      (localToPtp e w (some ((b.u8 0).testBit 6))).toNat

/-- Read a date-time of a TIME form at `pos`: the timestamp (none: a date-time of length 0) and the position after it.
`error 0` is a node that fails. -/
def readDateTime (e : ParseEnv) (b : Bytes) (lim pos form : Nat) : Except Nat (Option Nat × Nat) :=
  let fixed (n : Nat) (conv : Bytes → Option Nat) (p : Nat) : Except Nat (Option Nat × Nat) :=
    match readAt b lim p n with
    | none => .error Rej.bounds
    | some x => match conv x with
      | some t => .ok (some t, p + n)
      | none => .error 0
  let prefixed (p : Nat) : Except Nat (Option Nat × Nat) :=
    match axdrLen b lim p with
    | none => .error Rej.bounds
    | some (0, q) => .ok (none, q)
    | some (12, q) => fixed 12 (dlmsTime e) q
    | some _ => .error 0
  match form with
  | 0 => if lim ≤ pos then .error Rej.bounds
    else if b.u8 pos = 25 then fixed 12 (dlmsTime e) (pos + 1)
    else if b.u8 pos = 9 then prefixed (pos + 1) else .error 0
  | 1 => prefixed pos
  | 2 => fixed 4 (mbusTime e) pos
  | 3 => fixed 6 (mbusTime e) pos
  | _ => .error 0

/-! ## Nodes -/

/-- The raw 16 bytes of a node record. -/
def Node.bytes (n : Node) : Bytes :=
  leBytes 1 n.opcode ++ leBytes 1 n.flags ++ leBytes 2 n.next ++ leBytes 2 n.alt ++ leBytes 2 n.a ++ leBytes 4 n.b ++ leBytes 4 n.c

/-- An integer of `n` bytes: big-endian for PROTOCOL 1, little-endian for PROTOCOL 2 (R11). -/
def readInt (proto : Nat) (sign : Bool) (x : Bytes) : Int :=
  let v := if proto = 1 then beNat x else leNat x
  if sign then signed (8 * x.length) v else (v : Int)

/-- The tagged A-XDR integer at `pos`: its value and the position after it. -/
def taggedInt (b : Bytes) (lim pos : Nat) : Except Nat (Option (Int × Nat)) :=
  if lim ≤ pos then .error Rej.bounds
  else
    let t := b.u8 pos
    if ([5, 6, 15, 16, 17, 18, 20, 21, 22] : List Nat).contains t = false then .ok none
    else
      let n := (axdrFixed t).getD 0
      match readAt b lim (pos + 1) n with
      | none => .error Rej.bounds
      | some x => .ok (some (readInt 1 (([5, 15, 16, 20] : List Nat).contains t) x, pos + 1 + n))

/-- A value read by INT or EVENT: A raw bytes, or a tagged integer where A is 0. -/
def readValue (proto : Nat) (sign : Bool) (b : Bytes) (lim pos a : Nat) : Except Nat (Option (Int × Nat)) :=
  if a = 0 then (if proto = 1 then taggedInt b lim pos else .ok none)
  else
    match readAt b lim pos a with
    | none => .error Rej.bounds
    | some x => .ok (some (readInt proto sign x, pos + a))

/-- R35: an EVENT node's occurrence; only codes 768 to 1,023 are a graph's to raise (log entry 22). -/
def Parsed.raise (o : Parsed) (code value : Nat) (t : Option Nat) : Parsed :=
  if 768 ≤ code ∧ code ≤ 1023 then { o with events := o.events ++ [(code, value, t)] } else o

/-- Run one node other than LOOP at the cursor. An OPCODE outside 0x01 to 0x0B, and REJECT with B outside 16 to 255, end with code
0x10 (log entry 96). -/
def runNode (e : ParseEnv) (nodes : List Node) (proto : Nat) (b : Bytes) (lim : Nat) (p : PSt) (n : Node) : NodeRes :=
  let step (k : Nat) : PSt := { p with pos := k }
  match n.opcode with
  | 1 =>
    match readAt b lim p.pos n.a with
    | none => .stop Rej.bounds
    | some x => if x = (((nodes.drop n.c).take (n.a / 16 + 1)).flatMap Node.bytes).take n.a then .ok (step (p.pos + n.a)) else .fail
  | 2 =>
    if proto = 1 then (if lim ≤ p.pos then .stop Rej.bounds else if b.u8 p.pos = n.b then .ok { step (p.pos + 1) with head := some p.pos } else .fail)
    else
      match headerLen b lim p.pos with
      | none => .stop Rej.bounds
      | some k => if k ≤ 4 ∧ b.le p.pos k = n.b then .ok { step (p.pos + k) with head := some p.pos } else .fail
  | 3 =>
    if 16 ≤ p.ends.length then .stop Rej.bounds
    else if proto = 1 then
      match axdrLen b lim p.pos with
      | none => .stop Rej.bounds
      | some (k, q) =>
        match axdrSkip b lim (b.length + 1) q k with
        | .error c => .stop c
        | .ok r => .ok { p with pos := q, ends := r :: p.ends }
    else
      -- the DIF stands at the head of the header that the preceding TAG consumed
      match p.head.map b.u8 with
      | none => .fail
      | some v =>
        -- R165: manufacturer data is supported as SKIP alone
        if v = 0x0F ∨ v = 0x1F then .stop Rej.unsupported
        else
        match recordEnd b lim p.pos v with
        | none => .stop Rej.bounds
        | some r => .ok { p with pos := if v % 16 = 13 then p.pos + 1 else p.pos, ends := r :: p.ends }
  | 4 =>
    if n.a ≠ 0 then (if p.pos + n.a ≤ lim then .ok (step (p.pos + n.a)) else .stop Rej.bounds)
    else if proto = 1 then
      match axdrSkip b lim (b.length + 1) p.pos 1 with
      | .error c => .stop c
      | .ok r => .ok (step r)
    else
      match (headerLen b lim p.pos).bind fun k => recordEnd b lim (p.pos + k) (b.u8 p.pos) with
      | none => .stop Rej.bounds
      | some r => .ok (step r)
  | 5 =>
    match readValue proto (decide (n.c ≠ 0)) b lim p.pos n.a with
    | .error c => .stop c
    | .ok none => .fail
    | .ok (some (v, q)) =>
      let slot := if n.b < 8 then n.b else p.slot
      .ok { p with pos := q, out := { p.out with values := (p.out.values.filter (·.1 ≠ slot)) ++ [(slot, v)] } }
  | 6 =>
    match readAt b lim p.pos 6 with
    | none => .stop Rej.bounds
    | some x =>
      let m := (Config.obisSlot n.b (beNat x)).toNat
      if m < 8 then .ok { p with pos := p.pos + 6, slot := m } else .fail
  | 7 =>
    match readDateTime e b lim p.pos n.a with
    | .error 0 => .fail
    | .error c => .stop c
    | .ok (none, q) => .ok (step q)
    | .ok (some t, q) => .ok { p with pos := q, out := { p.out with ts := some t } }
  | 8 =>
    match readValue proto false b lim p.pos n.a with
    | .error c => .stop c
    | .ok none => .fail
    | .ok (some (v, q)) =>
      if n.flags.testBit 0 then
        let form := if proto ≠ 1 then 2 else if b.u8 q = 25 ∨ b.u8 q = 9 then 0 else 1
        match readDateTime e b lim q form with
        | .error 0 => .fail
        | .error c => .stop c
        | .ok (t, r) => .ok { p with pos := r, out := p.out.raise n.b (pattern 32 v) t }
      else .ok { p with pos := q, out := p.out.raise n.b (pattern 32 v) none }
  | 10 => .stop 0
  | 11 => .stop (if 16 ≤ n.b ∧ n.b ≤ 255 then n.b else Rej.graph)
  | _ => .stop Rej.graph

/-- LOOP (R33): another repetition of the subgraph at A, or NEXT once B repetitions have run or the innermost element
entered at its start has ended. A repetition ends when control comes back to the node. -/
def runLoop (p : PSt) (i : Nat) (n : Node) : PSt :=
  let running := p.loops.dropWhile fun l => decide (l.1 ≠ i)
  let l : Nat × Nat × Option Nat := running.head?.getD (i, 0, p.ends.head?)
  let rest := running.drop 1
  let extra := decide (n.b ≤ l.2.1) || (l.2.2.map fun x => decide (x ≤ p.pos)).getD false
  if extra then { p with node := n.next, loops := if running = [] then p.loops else rest }
  else { p with node := n.a, loops := (i, l.2.1 + 1, l.2.2) :: (if running = [] then p.loops else rest) }

/-- Run a graph: `fuel` node executions are left. The code is 0 for ACCEPT. -/
def runGraph (e : ParseEnv) (nodes : List Node) (proto : Nat) (b : Bytes) : Nat → PSt → Parsed × Nat
  | 0, p => (p.out, Rej.budget)
  | fuel + 1, p =>
    let p := { p with ends := p.ends.dropWhile fun x => decide (x ≤ p.pos) }
    let lim := min b.length (p.ends.headD b.length)
    match nodes[p.node]? with
    | none => (p.out, Rej.graph)
    | some n =>
      if n.opcode = 9 then runGraph e nodes proto b fuel (runLoop p p.node n)
      else
        match runNode e nodes proto b lim p n with
        | .ok q => runGraph e nodes proto b fuel { q with node := n.next }
        | .fail => runGraph e nodes proto b fuel { p with node := n.alt }
        | .stop c => (p.out, c)

/-- Parse a payload by the graph of a class (R167): what the graph stored, and the rejection code, 0 for none. -/
def parsePayload (t : Trellis) (e : ParseEnv) (graph : Nat) (b : Bytes) : Parsed × Nat :=
  match t.dialectDir.find? (·.graphId == graph) with
  | none => ({}, Rej.graph)
  | some g => runGraph e t.dialectNodes g.protocol b g.stepLimit { node := g.entryNode }

end Sys2Proof.Machine
end

