-- ==== Sys2Proof/Machine/ZxCode.lean ====
section
/-! DEFINITION. The block code and the symbols of ZX-PLC (R110, R113, R116): GF(16), RS(15,11), bits, nibbles and symbols. -/

namespace Sys2Proof.Machine

/-! ## GF(16), primitive polynomial x^4 + x + 1 -/

/-- α^n. -/
def gfExp (n : Nat) : Nat := [1, 2, 4, 8, 3, 6, 12, 11, 5, 10, 7, 14, 15, 13, 9].getD (n % 15) 0

/-- The exponent of a nonzero element. -/
def gfLog (a : Nat) : Nat := [0, 0, 1, 4, 2, 8, 5, 10, 3, 14, 9, 7, 6, 13, 11, 12].getD a 0

def gfMul (a b : Nat) : Nat := if a = 0 ∨ b = 0 then 0 else gfExp (gfLog a + gfLog b)

/-- a / b, for b nonzero. -/
def gfDiv (a b : Nat) : Nat := if a = 0 then 0 else gfExp (gfLog a + 15 - gfLog b)

/-! ## RS(15,11), generator (x - α)(x - α^2)(x - α^3)(x - α^4) -/

/-- The generator's coefficients below x^4, x^3 first: the product of its four factors. -/
def rsGen : List Nat :=
  let by_ (p : List Nat) (root : Nat) : List Nat := List.zipWith (· ^^^ ·) (p ++ [0]) (0 :: p.map (gfMul root))
  (([1, 2, 3, 4].map gfExp).foldl by_ [1]).drop 1

/-- The remainder of data(x) · x^4 divided by the generator. -/
def rsParity (data : List Nat) : List Nat :=
  data.foldl
    (fun r x =>
      let k := x ^^^ r.headD 0
      List.zipWith (· ^^^ ·) (r.drop 1 ++ [0]) (rsGen.map (gfMul k))) [0, 0, 0, 0]

/-- A block of 11 data nibbles, with its parity. -/
def rsEncode (data : List Nat) : List Nat := data ++ rsParity data

/-- The syndromes of a received block at α to α^4; the first nibble is the coefficient of x^14. -/
def rsSyndromes (block : List Nat) : List Nat :=
  [1, 2, 3, 4].map fun i => block.foldl (fun a x => gfMul a (gfExp i) ^^^ x) 0

/-- The values v with Σ v_j · a_j^i = S_i for every syndrome, where there are such. -/
def rsSolve : List Nat → List Nat → Option (List Nat)
  | [], ss => if ss.all (· == 0) then some [] else none
  | a :: as, ss =>
    match rsSolve as (List.zipWith (fun s t => t ^^^ gfMul a s) ss (ss.drop 1)) with
    | none => none
    | some vs =>
      let vs := List.zipWith (fun v b => gfDiv v (a ^^^ b)) vs as
      let rest := (List.zipWith gfMul vs as).foldl (· ^^^ ·) 0
      some (gfDiv (ss.headD 0 ^^^ rest) a :: vs)

/-- Add error values to a block at positions. -/
def rsFix (block : List Nat) (at_ vals : List Nat) : List Nat :=
  (at_.zip vals).foldl (fun b p => b.set p.1 (b.getD p.1 0 ^^^ p.2)) block

/-- The sets of `e` positions outside `known`, for e up to 2. -/
def rsSets (e : Nat) (known : List Nat) : List (List Nat) :=
  let free := (List.range 15).filter fun i => !known.contains i
  match e with
  | 0 => [[]]
  | 1 => free.map fun i => [i]
  | _ => free.flatMap fun i => (free.filter fun j => decide (i < j)).map fun j => [i, j]

/-- Decode a block within 2e + s ≤ 4 (R116): its corrected nibbles, fewest errors first. -/
def rsDecode (block erased : List Nat) : Option (List Nat) :=
  if 4 < erased.length then none
  else
    let ss := rsSyndromes block
    let sets := (List.range ((4 - erased.length) / 2 + 1)).flatMap fun e => rsSets e erased
    sets.findSome? fun x =>
      let at_ := erased ++ x
      (rsSolve (at_.map fun i => gfExp (14 - i)) ss).map fun v => rsFix block at_ v

/-! ## Bits, nibbles and symbols -/

/-- The `n` bits of `v`, most significant first. -/
def toBits (n v : Nat) : List Bool := (List.range n).map fun i => v.testBit (n - 1 - i)

/-- The number that bits spell, most significant first. -/
def ofBits (b : List Bool) : Nat := b.foldl (fun a x => 2 * a + b2n x) 0

/-- Bits `n` at a time, as numbers, `k` of them. -/
def chunks (n : Nat) : Nat → List Bool → List Nat
  | 0, _ => []
  | k + 1, b => ofBits (b.take n) :: chunks n k (b.drop n)

/-- Bits of a byte string, and the bytes of a bit string of whole bytes. -/
def bytesBits (b : Bytes) : List Bool := b.flatMap fun x => toBits 8 x.toNat

def bitsBytes (b : List Bool) : Bytes := (chunks 8 ((b.length + 7) / 8) (b ++ List.replicate 7 false)).map (BitVec.ofNat 8)

/-- The 30 outbound symbols of a block of 44 bits: each nibble as two symbols, the high 2 bits first (R110). -/
def blockSymbols (bits : List Bool) : List Nat :=
  (rsEncode (chunks 4 11 bits)).flatMap fun x => [x / 4, x % 4]

/-- The sync field (R110). -/
def syncSymbols : List Nat := [3, 0, 3, 0, 2, 1]

/-- The symbols of the blocks of a bit string. -/
def framedSymbols : Nat → List Bool → List Nat
  | 0, _ => []
  | k + 1, b => blockSymbols (b.take 44) ++ framedSymbols k (b.drop 44)

/-- Cycles of an outbound frame with `n` data blocks (R110): 12 of sync, and 60 a block. -/
def zxCycles (n : Nat) : Nat := 12 + 60 * (1 + n)

end Sys2Proof.Machine
end

