-- ==== Sys2Proof/Machine/FrameIn.lean ====
section
/-! DEFINITION. Frames from meters, taken apart octet by octet: IEEE 802.15.4 data frames (R69), EN 13757-3 frames (R165) and
ZX-PLC frames (R118); and what opens them (R71, R159, R165). -/

namespace Sys2Proof.Machine

/-! ## IEEE 802.15.4 -/

/-- Header IEs of a MAC header from octet `p` to `lim`: the contents of the vendor-specific ones, and where the payload begins. None
for payload IEs (R69). -/
def headerIesAt (b : Bytes) (lim : Nat) : Nat → Nat → Option (List Bytes × Nat)
  | 0, p => if lim ≤ p then some ([], p) else none
  | k + 1, p =>
    if lim ≤ p then some ([], p)
    else
      let x := b.le p 2
      let id := x / 128 % 256
      if x.testBit 15 ∨ id = 0x7E then none
      else if id = 0x7F then some ([], p + 2)
      else if lim < p + 2 + x % 128 then none
      else
        (headerIesAt b lim k (p + 2 + x % 128)).map fun r =>
          (if id = 0 then b.slice (p + 2) (x % 128) :: r.1 else r.1, r.2)

/-- R69: a secured data frame of version 0b01 or 0b10, from an extended address to the short address 0x0000 of a PAN, at level 5, 6
or 7 under key identifier mode 1. None for any other PSDU. -/
def parsePsdu (b : Bytes) : Option MeterFrame :=
  let fc := b.le 0 2
  let version := fc / 4096 % 4
  let p := if version = 2 ∧ fc.testBit 8 then 2 else 3
  -- the source PAN ID stands where it is not compressed
  let src := p + 4 + if fc.testBit 6 then 0 else 2
  let aux := src + 8
  let level := b.u8 aux % 8
  if fc % 8 ≠ 1 ∨ fc.testBit 3 = false ∨ (version ≠ 1 ∧ version ≠ 2) ∨ fc / 1024 % 4 ≠ 2 ∨ fc / 16384 % 4 ≠ 3 then none
  else if b.le (p + 2) 2 ≠ 0 ∨ level < 5 ∨ b.u8 aux / 8 ≠ 1 ∨ b.length < aux + 6 + micLen level then none
  else
    let lim := b.length - micLen level
    let ies := if version = 2 ∧ fc.testBit 9 then headerIesAt b lim 64 (aux + 6) else some ([], aux + 6)
    ies.map fun r => {
      medium := 0, raw := b, address := b.be src 8, mbus := false, destPan := b.le p 2, counter := b.le (aux + 1) 4, security := level
      mic := b.be lim (micLen level), aad := b.take r.2, cipher := b.slice r.2 (lim - r.2), ies := r.1 }

/-! ## EN 13757-3 over wireless M-Bus -/

/-- The authentication and fragmentation layer at octet `p` (EN 13757-7): its message control, counter, CMAC, the octets that the
CMAC covers before the next layer, whether more fragments follow, and the next octet. -/
structure Afl where
  counter : Nat
  mac : Nat
  covered : Bytes
  more : Bool
  next : Nat

def parseAfl (b : Bytes) (p : Nat) : Afl :=
  let fcl := b.le (p + 2) 2
  let skip (bit n at_ : Nat) : Nat := if fcl.testBit bit then at_ + n else at_
  let mcl := p + 4
  let mcr := skip 9 2 (skip 13 1 mcl)
  let mac := skip 11 4 mcr
  let ml := skip 10 8 mac
  { counter := if fcl.testBit 11 then b.le mcr 4 else 0, mac := if fcl.testBit 10 then b.be mac 8 else 0
    covered := (if fcl.testBit 13 then b.slice mcl 1 else []) ++ (if fcl.testBit 11 then b.slice mcr 4 else []) ++
      (if fcl.testBit 12 then b.slice ml 2 else [])
    more := fcl.testBit 14, next := p + 2 + b.u8 (p + 1) }

/-- R158, R165: the layers of a frame whose CRCs are removed. The security mode and the number of encrypted blocks stand in the
configuration field of the transport header; mode 7 has an extension octet. -/
def parseMbus (b : Bytes) : Option MeterFrame :=
  if b.length < 11 then none
  else
    let ell := if b.u8 10 = 0x8C ∨ b.u8 10 = 0x8D then some (b.u8 10) else none
    let p := if ell.isSome then 13 else 10
    let afl := if b.u8 p = 0x90 then some (parseAfl b p) else none
    let p := (afl.map (·.next)).getD p
    let ci := b.u8 p
    let long := ci == 0x72 || ci == 0x5B
    let header := if long then p + 9 else p + 1
    let short := ci == 0x7A || ci == 0x5A
    let cfg := b.le (header + 2) 2
    let mode := if long || short then cfg / 256 % 32 else 0
    let start := header + 4 + if mode = 7 then 1 else 0
    let n := 16 * (cfg / 16 % 16)
    let cipher := b.slice start n
    let address := if long then beNat (b.slice (p + 5) 2 ++ b.slice (p + 1) 4 ++ b.slice (p + 7) 2) else b.be 2 8
    some {
      medium := 1, raw := b, address := address, mbus := true
      counter := if mode = 7 then (afl.map (·.counter)).getD 0 else b.u8 header, security := 0x80 + mode
      mic := if mode = 7 then (afl.map (·.mac)).getD 0 else cipher.be (n - 8) 8
      aad := ((afl.map (·.covered)).getD []) ++ b.drop p, cipher := cipher
      link := some {
        ci := ci, ell := ell, afl := afl.map fun _ => 0x90, fragment := (afl.map (·.more)).getD false
        clear := decide (n = 0) || decide (start + n < b.length) } }

/-- A frame that a head reports, by its medium (R65). -/
def parseFrame (bus : Bool) (b : Bytes) : Option MeterFrame := if bus then parseMbus b else parsePsdu b

/-! ## ZX-PLC -/

/-- Octets of ciphertext in a frame of `n` blocks (R118). -/
def zxCipherLen (n : Nat) : Nat := (44 * n - 56) / 8

/-- R118: a frame of a meter from the data bits of its blocks: FC_LOW, TYPE, NBLK - 1, a reserved bit, the ciphertext, and the MIC in
the last 32 bits. Its counter is still FC_LOW. -/
def parseZx (address : Nat) (bits : List Bool) : MeterFrame :=
  let n := bits.length / 44
  { medium := 2, raw := bitsBytes bits, address := address, mbus := false, counter := ofBits (bits.take 16), security := 5
    mic := ofBits (bits.drop (bits.length - 32)), aad := bitsBytes (bits.take 24)
    cipher := bitsBytes ((bits.drop 24).take (8 * zxCipherLen n)), kind := ofBits ((bits.drop 16).take 4) }

/-- R275: the campaign status of a TYPE 2 frame, of 4 B and ranges of 3 B as far as the ciphertext holds them; a range without
blocks is none. -/
def zxStatus (b : Bytes) : StatusIe :=
  let s := b.u8 1
  let range (i : Nat) : Nat × Nat :=
    let x := b.be (4 + 3 * i) 3
    (x / 4096, x % 4096)
  { campaign := b.u8 0, state := s % 8, cause := s / 8 % 16, truncated := s.testBit 7, received := b.le 2 2
    ranges := ((List.range ((b.length - 4) / 3)).map range).filter fun r => decide (r.2 ≠ 0) }

/-! ## Opening a frame -/

/-- The CCM* nonce (R71): the sender's EUI-64, counter, security level. -/
def MeterFrame.ccmNonce (f : MeterFrame) : Nat := frameNonce (euiOf f.address) f.counter f.security

/-- EN 13757-3 mode 5: the initialisation vector, address and access number eight times. -/
def MeterFrame.mbusIv (f : MeterFrame) : Nat := beNat (beBytes 8 f.address ++ List.replicate 8 (BitVec.ofNat 8 f.counter))

/-- EN 13757-7 mode 7: the encryption (0) or authentication (1) key of a message counter. -/
def mode7Key (use key counter address : Nat) : Nat :=
  (Crypto.cmac 16 key (leBytes 1 use ++ leBytes 4 counter ++ (beBytes 8 address).slice 2 4 ++ List.replicate 7 7)).toNat

/-- The leading `n` bytes of a 16-byte tag. -/
def leadTag (n : Nat) (tag : BitVec 128) : Nat := tag.toNat / 2 ^ (8 * (16 - n))

/-- The plaintext of a frame whose authenticator holds under a link key (R159, R165); none for any other key. -/
def MeterFrame.opened (f : MeterFrame) (link : Nat) : Option Bytes :=
  if f.security = 0x85 then
    let p := Crypto.cbcDecrypt link f.mbusIv f.cipher
    if p.take 2 = [0x2F#8, 0x2F#8] then some p else none
  else if f.security = 0x87 then
    if f.mic = leadTag 8 (Crypto.cmac 16 (mode7Key 1 link f.counter f.address) f.aad) then
      some (Crypto.cbcDecrypt (mode7Key 0 link f.counter f.address) 0 f.cipher)
    else none
  else
    let p := (Crypto.ccm (micLen f.security) link f.ccmNonce f.aad f.cipher).1
    if f.mic = beNat (Crypto.ccm (micLen f.security) link f.ccmNonce f.aad p).2 then some p else none

/-- The 8-byte digest of R159: the authenticator, its first 8 bytes at level 7. -/
def MeterFrame.digest (f : MeterFrame) : Nat := if f.security = 7 then f.mic / 2 ^ 64 else f.mic

end Sys2Proof.Machine
end

