-- ==== Sys2Proof/Machine/Bitstream.lean ====
section
/-! DEFINITION. The Trellis bit-stream (02): its header, section table, signature chain and section encodings, checked
in the order of R488, and the parse of every section. The CALENDAR checks of R212 to R215 and the ZONE_MODEL
hierarchy stand here too. -/

namespace Sys2Proof.Machine

/-- The result codes of R56. -/
def Res.ok : Nat := 0x00
def Res.badMagic : Nat := 0x01
def Res.badTarget : Nat := 0x02
def Res.badLength : Nat := 0x03
def Res.badTable : Nat := 0x04
def Res.badDigest : Nat := 0x05
def Res.badChain : Nat := 0x06
def Res.badSignature : Nat := 0x07
def Res.rollback : Nat := 0x08
def Res.missingSection : Nat := 0x09
def Res.sectionInvalid : Nat := 0x0A
def Res.tooLarge : Nat := 0x0B
def Res.wrongOwner : Nat := 0x0C
def Res.baseMismatch : Nat := 0x0D
def Res.slotBusy : Nat := 0x0E
def Res.instantPast : Nat := 0x0F
def Res.partnerNotStaged : Nat := 0x10
def Res.tooLate : Nat := 0x11
def Res.stateLocked : Nat := 0x12
def Res.notGraftable : Nat := 0x13
def Res.mediaReadonly : Nat := 0x14
def Res.applyFailed : Nat := 0x15
def Res.badState : Nat := 0x16

/-- The value of ARG1 in TRELLIS_REJECTED when the failure concerns no single section (R488). -/
def noSection : Nat := 0xFFFFFFFF

/-- A failed check: the result code and the section TYPE concerned. -/
structure BsError where
  code : Nat
  type : Nat
  deriving DecidableEq, Repr

/-- An unknown section TYPE met in the table (R29): its TYPE and whether CRITICAL ended the load. -/
structure UnknownSection where
  type : Nat
  critical : Bool
  deriving DecidableEq, Repr

/-- One entry of the section table (R29). -/
structure TableEntry where
  type : Nat
  flags : Nat
  gen : Nat
  offset : Nat
  length : Nat
  digest : Nat
  deriving DecidableEq, Repr

/-- What the checks need to know of the device: the fuses, and the kind and length the command takes. -/
structure BsCtx where
  /-- 1 base, 2 Graft package. -/
  wantKind : Nat
  /-- TRL_HOST_LEN, for a load from host memory. -/
  hostLen : Option Nat
  floor : Nat
  owner : Option Nat
  /-- STAGE: the slot and the live structure. -/
  slot : Nat := 0
  deriving DecidableEq, Repr

/-- R28: the first header field outside its limit, in offset order. -/
def checkHeader (c : BsCtx) (b : Bytes) : Option Nat :=
  if b.slice 0 4 ≠ [0x59#8, 0x54#8, 0x52#8, 0x4C#8] then some Res.badMagic
  else if b.le 4 2 ≠ 2 then some Res.badMagic
  else if b.le 6 2 ≠ 1 ∧ b.le 6 2 ≠ 2 then some Res.badMagic
  else if b.le 6 2 ≠ c.wantKind then some Res.badTarget
  else if b.le 8 4 % 64 ≠ 32 ∨ 0x01800000 < b.le 8 4 ∨ b.le 8 4 ≠ b.length ∨ b.le 0x28 4 + 416 ≠ b.le 8 4 then some Res.badLength
  else if c.hostLen.isSome ∧ c.hostLen ≠ some (b.le 8 4) then some Res.badLength
  else if b.le 0x0C 2 ≠ 0x9610 then some Res.badTarget
  else if 0xB0 < b.u8 0x0E then some Res.badTarget
  else if b.u8 0x0F ≠ 0 then some Res.badMagic
  else if b.le 0x10 8 = 0 then some Res.badMagic
  else if c.wantKind = 1 ∧ b.le 0x18 8 ≠ 0 then some Res.badMagic
  else if 64 < b.le 0x20 2 then some Res.badTarget
  else if b.le 0x20 2 < c.floor then some Res.rollback
  else if b.le 0x22 2 = 0 ∨ (if c.wantKind = 1 then 16 else 4) < b.le 0x22 2 then some Res.badTable
  else if b.le 0x24 4 ≠ 0x40 then some Res.badTable
  else if b.le 0x28 4 % 64 ≠ 0 then some Res.badLength
  else if ¬ b.zero 0x2C 20 then some Res.badMagic
  else none

/-- The section table's entries. -/
def tableOf (b : Bytes) : List TableEntry :=
  (recordsOf 48 (b.le 0x22 2) (b.drop 64)).map fun e =>
    { type := e.le 0 2, flags := e.le 2 2, gen := e.le 4 4, offset := e.le 8 4, length := e.le 12 4,
      digest := beNat (e.slice 16 32) }

/-- R31: the largest size in KiB of a section's records. -/
def maxKiB : Nat → Nat
  | 1 => 16 | 2 => 64 | 3 => 16 | 4 => 480 | 5 => 64 | 6 => 4 | 7 => 16 | 8 => 384 | 9 => 16384 | 10 => 64 | 11 => 16
  | _ => 0

/-- Whether a TYPE is one of R31. -/
def knownType (t : Nat) : Bool := decide (1 ≤ t) && decide (t ≤ 11)

/-- R29 over the table, entry by entry, up to the first fault: the unknown types met, skipped or ending the load by CRITICAL,
and the fault. An unknown type's CRITICAL bit is looked at before the entry's other limits (log entry 73). Overlap is
checked pairwise by `overlapFree`. -/
def checkEntries (tableEnd sigOff : Nat) : Option Nat → List TableEntry → List UnknownSection × Option BsError
  | _, [] => ([], none)
  | prev, e :: es =>
    let bad := some { code := Res.badTable, type := e.type : BsError }
    if knownType e.type = false ∧ e.flags % 2 = 1 then ([⟨e.type, true⟩], bad)
    else if prev.isSome ∧ e.type ≤ prev.getD 0 then ([], bad)
    else if e.gen = 0 ∨ e.offset % 64 ≠ 0 ∨ 1 < e.flags then ([], bad)
    else if e.offset < tableEnd ∨ sigOff < e.offset + e.length then ([], bad)
    else
      let r := checkEntries tableEnd sigOff (some e.type) es
      (if knownType e.type then r.1 else ⟨e.type, false⟩ :: r.1, r.2)

/-- No two sections overlap (R29). -/
def overlapFree : List TableEntry → Bool
  | [] => true
  | e :: es => es.all (fun f => decide (e.offset + e.length ≤ f.offset) || decide (f.offset + f.length ≤ e.offset) ||
      decide (e.length = 0) || decide (f.length = 0)) && overlapFree es

/-- R31's size limits. -/
def checkSizes : List TableEntry → Option BsError
  | [] => none
  | e :: es => if knownType e.type ∧ maxKiB e.type * 1024 + 16 < e.length then some ⟨Res.tooLarge, e.type⟩ else checkSizes es

/-- A certificate's KEY (02, 16). -/
def certKey (b : Bytes) : BitVec 512 := BitVec.ofNat 512 (beNat (b.slice 0x10 64))

/-- Whether a certificate has the layout and type, and verifies under `issuer`. -/
def certOk (b : Bytes) (ctype : Nat) (issuer : BitVec 512) : Bool :=
  decide (b.slice 0 2 = [0x59#8, 0x43#8]) && decide (b.u8 2 = ctype) && b.zero 0x0C 4 &&
    Crypto.ecdsaVerify issuer (Crypto.sha256 (b.slice 0 0x50)) (BitVec.ofNat 512 (beNat (b.slice 0x50 64)))

/-- R36: the chain and the section digests, in order. -/
def checkChain (c : BsCtx) (b : Bytes) (tab : List TableEntry) : Option BsError :=
  let sigOff := b.le 0x28 4
  let blk : Bytes := b.drop sigOff
  let root := BitVec.ofNat 512 (beNat (blk.slice 0 64))
  let ownerC := blk.slice 64 144
  let signC := blk.slice 208 144
  let sig := BitVec.ofNat 512 (beNat (blk.slice 352 64))
  if Crypto.sha256 (blk.slice 0 64) ≠ Crypto.sha256 (beBytes 64 Config.rootKey.toNat) then some ⟨Res.badChain, noSection⟩
  else if certOk ownerC 1 root = false then some ⟨Res.badChain, noSection⟩
  else if c.owner.isSome ∧ c.owner ≠ some (Crypto.sha256 (ownerC.slice 0x10 64)).toNat then some ⟨Res.wrongOwner, noSection⟩
  else if certOk signC 2 (certKey ownerC) = false ∨ (signC.u8 3).testBit (b.le 6 2 - 1) = false then some ⟨Res.badChain, noSection⟩
  else if Crypto.ecdsaVerify (certKey signC) (Crypto.sha256 (b.take sigOff)) sig = false then some ⟨Res.badSignature, noSection⟩
  else
    match tab.find? (fun e => (Crypto.sha256 (b.slice e.offset e.length)).toNat != e.digest) with
    | some e => some ⟨Res.badDigest, e.type⟩
    | none => none

/-- R30: RECORD_SIZE by type. -/
def recordSize : Nat → Nat
  | 1 => 4112 | 2 => 128 | 3 => 32 | 4 => 0 | 5 => 256 | 6 => 16 | 7 => 0 | 8 => 1280 | 9 => 256 | 10 => 16 | 11 => 16
  | _ => 0

/-- R30: whether LENGTH is the value the table gives for RECORD_COUNT. -/
def lengthFits (type count length : Nat) : Bool :=
  match type with
  | 4 => decide (16 + 8 * count ≤ length) && decide ((length - 16 - 8 * count) % 16 = 0)
  | 7 => decide (length = 16 + 8 * count + 64)
  | 8 => decide (length = 16 + 1280 * count + 2048)
  | _ => decide (length = 16 + recordSize type * count)

/-- R30: whether RECORD_COUNT, and for DIALECT the node count, lie in range. -/
def countInRange (type count length : Nat) : Bool :=
  match type with
  | 1 => decide (count = 1)
  | 2 => decide (1 ≤ count) && decide (count ≤ 64)
  | 3 => decide (1 ≤ count) && decide (count ≤ 16)
  | 4 => decide (1 ≤ count) && decide (count ≤ 64) &&
      (let n := (length - 16 - 8 * count) / 16; decide (1 ≤ n) && decide (n ≤ 30000))
  | 5 => decide (1 ≤ count) && decide (count ≤ 16)
  | 6 => decide (count = 64)
  | 7 => decide (count = 32)
  | 8 => decide (1 ≤ count) && decide (count ≤ 256)
  | 9 => decide (1 ≤ count) && decide (count ≤ 65536)
  | 10 => decide (1 ≤ count) && decide (count ≤ 4096)
  | 11 => decide (count = 1024)
  | _ => true

/-- R30, step 4 of R488: each known section's header and LENGTH, in table order. -/
def checkSections (b : Bytes) : List TableEntry → Option BsError
  | [] => none
  | e :: es =>
    if ¬ knownType e.type then checkSections b es
    else
      let s : Bytes := b.drop e.offset
      let count := s.le 4 4
      if s.le 0 2 ≠ e.type ∨ s.le 2 2 ≠ 1 ∨ s.le 8 4 ≠ recordSize e.type ∨ ¬ s.zero 12 4 ∨ e.length < 16 ∨
          lengthFits e.type count e.length = false then some ⟨Res.badTable, e.type⟩
      else checkSections b es

/-- R30 and R494, in step 6 of R488: the first known section whose RECORD_COUNT or node count lies outside its range. -/
def checkCounts (b : Bytes) (tab : List TableEntry) : Option BsError :=
  (tab.find? fun e => knownType e.type && !countInRange e.type (Bytes.le (b.drop e.offset) 4 4) e.length).map fun e =>
    ⟨Res.sectionInvalid, e.type⟩

/-! The parse of each section's records, and the ranges its fields must keep (R494, R215). -/

def parseDevice (r : Bytes) : DeviceRec :=
  { pairMode := r.u8 0, position := r.u8 1, partner := r.u8 2, activeCount := r.u8 3, mirrorLink := r.u8 4,
    linkEnable := r.u8 5, hostSealWait := r.le 6 2, hlpPort := r.le 8 2,
    bucketOwner := (r.slice 0x10 4096).map BitVec.toNat }

def parseClass (r : Bytes) : MeterClass :=
  { classId := r.u8 0, medium := r.u8 1, graph := r.u8 2, security := r.u8 3, layout := r.u8 4, values := r.u8 5,
    calendar := r.u8 6, ring := r.u8 7, interval := r.le 8 4, tsTolerance := r.le 12 4,
    fields := (recordsOf 4 16 (r.drop 0x10)).map fun f => ⟨f.u8 0, f.u8 1, f.u8 2, f.u8 3⟩,
    maxStep := (recordsOf 4 8 (r.drop 0x50)).map leNat }

def parseLayout (r : Bytes) : TariffLayout :=
  { layoutId := r.u8 0, rates := r.u8 1, directions := r.u8 2, demandInterval := r.u8 3,
    scaler := (r.slice 4 4).map fun x => x.toInt, unit := (r.slice 8 4).map BitVec.toNat,
    rateMap := (r.slice 12 8).map BitVec.toNat }

def parseGraph (r : Bytes) : GraphEntry := ⟨r.le 0 2, r.le 2 2, r.u8 4, r.le 6 2⟩

def parseNode (r : Bytes) : Node := ⟨r.u8 0, r.u8 1, r.le 2 2, r.le 4 2, r.le 6 2, r.le 8 4, r.le 12 4⟩

def parseProfile (r : Bytes) : RadioProfile :=
  { profileId := r.u8 0, channels := r.u8 1, rates := r.u8 2, baseFreq := r.le 4 4, spacing := r.le 8 4,
    dwellLimit := r.le 12 2, dwellWindow := r.le 14 2, ccaLevel := signed 8 (r.u8 0x10),
    maxPower := signed 8 (r.u8 0x11), hopSet := r.le 0x20 16,
    subbands := (recordsOf 16 (r.u8 3) (r.drop 0x30)).map fun f => ⟨f.u8 0, f.u8 1, f.le 4 4, f.le 8 4⟩ }

def parseRing (r : Bytes) : RingRec :=
  ⟨r.u8 1, r.u8 2, r.u8 3, r.le 4 4, bitAt (r.u8 8) 0⟩

def parseChan (r : Bytes) : MsrChanRec :=
  ⟨r.u8 0, r.u8 1, r.u8 2, bitAt (r.u8 3) 0, bitAt (r.u8 3) 1, bitAt (r.u8 3) 2, r.u8 4, r.u8 5⟩

def parseFeeder (r : Bytes) : MsrFeederRec := ⟨r.u8 0, r.u8 1, r.le 2 2, r.u8 4, r.u8 5, r.le 8 4⟩

def parseDst (r : Bytes) : DstRule := ⟨r.u8 0, r.u8 1, r.u8 2, r.u8 3⟩

/-- The used points of one day profile: 16 entries of 2 B, 0xFFFF unused. -/
def parseDay (r : Bytes) : List (Nat × Nat) :=
  (((recordsOf 2 16 r).map leNat).filter (· != 0xFFFF)).map fun p => (p % 2048, p / 2048 % 8)

def parseCal (r : Bytes) : CalRec :=
  { inst := r.u8 0, stdOffset := signed 16 (r.le 4 2), dstDelta := r.u8 6, periodKind := r.u8 7,
    dstStart := parseDst (r.drop 8), dstEnd := parseDst (r.drop 12), periodDay := r.u8 0x10, periodQuarter := r.u8 0x11,
    seasons := (recordsOf 4 (r.u8 1) (r.drop 0x20)).map fun f => ⟨f.u8 0, f.u8 1, f.u8 2⟩,
    weeks := (recordsOf 8 (r.u8 2) (r.drop 0x50)).map fun f => (f.take 7).map BitVec.toNat,
    days := (recordsOf 32 (r.u8 3) (r.drop 0xD0)).map parseDay }

def parseSpecial (b : Bytes) : List SpecialDay :=
  ((recordsOf 8 256 b).map fun f => (⟨f.le 0 2, f.u8 2, f.u8 3, f.u8 4, f.u8 5⟩ : SpecialDay)).filter (·.month != 0)

def parseZone (r : Bytes) : ZoneRec :=
  ⟨r.le 0 4, r.le 4 4, r.u8 8, r.u8 9, r.le 10 2, r.le 12 4, r.le 16 4, r.le 20 4, r.le 24 4⟩

def parseRole (r : Bytes) : RoleEntry := ⟨r.be 0 6, r.le 6 2, r.u8 8, r.u8 9, r.le 10 2⟩

def parseEventCode (r : Bytes) : EventCode :=
  ⟨r.u8 2, r.u8 3, r.le 4 2, r.le 6 2, r.u8 8, r.u8 9⟩

/-- The section of table entry `e`; `none` for an unknown TYPE. -/
def parseSection (b : Bytes) (e : TableEntry) : Option Section :=
  let s : Bytes := b.slice e.offset e.length
  let n := s.le 4 4
  let body : Bytes := s.drop 16
  match e.type with
  | 1 => some (.device (parseDevice body))
  | 2 => some (.classes ((recordsOf 128 n body).map parseClass))
  | 3 => some (.layouts ((recordsOf 32 n body).map parseLayout))
  | 4 => some (.dialect ((recordsOf 8 n body).map parseGraph)
      ((recordsOf 16 ((e.length - 16 - 8 * n) / 16) (body.drop (8 * n))).map parseNode))
  | 5 => some (.radio ((recordsOf 256 n body).map parseProfile))
  | 6 => some (.rings ((recordsOf 16 n body).map parseRing))
  | 7 => some (.measurement ((recordsOf 8 n body).map parseChan) ((recordsOf 16 4 (body.drop (8 * n))).map parseFeeder))
  | 8 => some (.calendar ⟨(recordsOf 1280 n body).map parseCal, parseSpecial (body.drop (1280 * n))⟩)
  | 9 => some (.zones ((recordsOf 256 n body).map parseZone))
  | 10 => some (.roles ((recordsOf 16 n body).map parseRole))
  | 11 => some (.events ((recordsOf 16 n body).map parseEventCode))
  | _ => none

/-- The raw-record checks of one section that the parse would lose: reserved and unused values of a calendar (R215),
and the SIGNED rule of RING_MAP. -/
def rawChecks (b : Bytes) (e : TableEntry) : Bool :=
  let s : Bytes := b.slice e.offset e.length
  let n := s.le 4 4
  let body : Bytes := s.drop 16
  match e.type with
  | 6 => (recordsOf 16 n body).all fun r =>
      bitAt (r.u8 8) 0 == false || (decide (r.u8 1 = 0) && decide (r.u8 2 = 1))
  | 8 => ((recordsOf 8 256 (body.drop (1280 * n))).all fun x => x.u8 2 == 0 || x.le 6 2 == 0) &&
     (recordsOf 1280 n body).all fun r =>
      leNat (r.slice 0x12 14) == 0 && leNat (r.slice 0x4D0 48) == 0 &&
      (recordsOf 4 (r.u8 1) (r.drop 0x20)).all (fun x => x.u8 3 == 0) && (recordsOf 8 (r.u8 2) (r.drop 0x50)).all (fun x => x.u8 7 == 0) &&
      decide (1 ≤ r.u8 1) && decide (r.u8 1 ≤ 12) && decide (1 ≤ r.u8 2) && decide (r.u8 2 ≤ 16) &&
      decide (1 ≤ r.u8 3) && decide (r.u8 3 ≤ 32) &&
      (recordsOf 32 (r.u8 3) (r.drop 0xD0)).all fun d =>
        -- a used point after an unused one, or a minute beyond the day (R215)
        (let ps := (recordsOf 2 16 d).map leNat
         ((ps.dropWhile (· != 0xFFFF)).all (· == 0xFFFF)) &&
         (ps.all fun p => decide (p = 0xFFFF) || (decide (p % 2048 ≤ 1439) && decide (p < 16384))))
  | _ => true

/-- Days of a month in a leap year. -/
def monthDays : Nat → Nat
  | 1 => 31 | 2 => 29 | 3 => 31 | 4 => 30 | 5 => 31 | 6 => 30 | 7 => 31 | 8 => 31 | 9 => 30 | 10 => 31 | 11 => 30 | 12 => 31
  | _ => 0

def dstOk (d : DstRule) : Bool :=
  decide (1 ≤ d.month) && decide (d.month ≤ 12) && decide (1 ≤ d.week) && decide (d.week ≤ 5) &&
    decide (1 ≤ d.weekday) && decide (d.weekday ≤ 7) && decide (d.quarter ≤ 95)

/-- Strictly rising by `lt`. -/
def strictly {α : Type} (lt : α → α → Bool) : List α → Bool
  | [] => true
  | [_] => true
  | a :: b :: l => lt a b && strictly lt (b :: l)

/-- R213 and R215 for one calendar record. Each field keeps its range whatever DST_DELTA is (log entry 88). -/
def calOk (c : CalRec) : Bool :=
  decide (-720 ≤ c.stdOffset) && decide (c.stdOffset ≤ 840) && decide (c.stdOffset % 15 = 0) &&
  (decide (c.dstDelta = 0) || decide (c.dstDelta = 30) || decide (c.dstDelta = 60)) && dstOk c.dstStart && dstOk c.dstEnd &&
  decide (c.periodKind ≤ 3) && decide (c.periodQuarter ≤ 95) &&
  (match c.periodKind with
   | 0 => decide (1 ≤ c.periodDay) && decide (c.periodDay ≤ 28)
   | 1 => decide (1 ≤ c.periodDay) && decide (c.periodDay ≤ 7)
   | 2 => decide (c.periodDay = 0)
   | _ => true) &&
  strictly (fun a b => decide (a.month < b.month) || (decide (a.month = b.month) && decide (a.day < b.day))) c.seasons &&
  c.seasons.all (fun s => decide (1 ≤ s.month) && decide (s.month ≤ 12) && decide (1 ≤ s.day) &&
    decide (s.day ≤ 31) && decide (s.week < c.weeks.length)) &&
  c.weeks.all (fun w => w.all fun d => decide (d < c.days.length)) &&
  c.days.all (fun d => (match d with | (0, _) :: _ => true | _ => false) && strictly (fun a b => decide (a.1 < b.1)) d)

/-- Two special-day entries of equal precedence match the same instance and date (R215). -/
def specialClash (a b : SpecialDay) : Bool :=
  decide (a.month = b.month) && decide (a.day = b.day) && decide (a.year = b.year) && decide (a.calendar = b.calendar) &&
    decide (a.day ≤ monthDays a.month)

def specialClashFree : List SpecialDay → Bool
  | [] => true
  | d :: ds => ds.all (fun e => specialClash d e == false) && specialClashFree ds

/-- R215 over the whole section, and the instances that `needed` names (contexts, campaigns). -/
def calendarOk (c : Calendar) (needed : List Nat) : Bool :=
  c.insts.all calOk && strictly (fun a b => decide (a.inst < b.inst)) c.insts &&
  c.special.all (fun d => decide (1 ≤ d.month) && decide (d.month ≤ 12) && decide (1 ≤ d.day) &&
    decide (d.day ≤ 31) &&
    c.insts.all (fun i => (decide (d.calendar ≠ 0xFF) && decide (d.calendar ≠ i.inst)) || decide (d.profile < i.days.length))) &&
  specialClashFree c.special && needed.all (fun k => c.insts.any (·.inst == k))

/-- A zone's record, by ZONE. -/
def zoneRec? (l : List ZoneRec) (z : Nat) : Option ZoneRec := l.find? (·.zone == z)

/-- R494: zone parents exist and levels agree; levels 0 to 3 rising by one from parent to child leave no zone its own
ancestor. R242: a feeder check is that feeder's TOP_ZONE, a check meter serves one zone, a kind 2 zone has a child and
no loss, THRESHOLD is 1 to 1,000,000 ppm. -/
def zonesOk (l : List ZoneRec) (feeders : List MsrFeederRec) : Bool :=
  l.all fun z =>
    decide (1 ≤ z.threshold) && decide (z.threshold ≤ 1000000) &&
    (match z.checkKind with
     | 0 => feeders.any fun f => decide (f.feeder = z.checkId) && decide (f.topZone = z.zone)
     | 1 => decide ((l.filter fun y => y.checkKind == 1 && y.checkId == z.checkId).length = 1)
     | _ => l.any (·.parent == z.zone) && decide (z.noLoadLoss = 0) && decide (z.loadLoss = 0)) &&
    decide (z.zone ≤ 65535) && decide (z.level ≤ 3) && decide (4 ≤ z.window) && decide (z.window ≤ 2880) &&
    decide (z.checkKind ≤ 2) &&
    (if z.parent = 0xFFFFFFFF then decide (z.level = 0)
     else match zoneRec? l z.parent with
       | some p => decide (z.level = p.level + 1)
       | none => false)

/-- R33 and R494 for DIALECT: unique GRAPH_IDs; entry nodes, successors, loop targets and MATCH references within the
nodes. -/
def dialectOk (dir : List GraphEntry) (nodes : List Node) : Bool :=
  let n := nodes.length
  dir.all (fun g => decide (g.graphId ≤ 255) && decide (g.entryNode < n) && decide (1 ≤ g.stepLimit) && decide (g.stepLimit ≤ 4096) &&
    decide ((dir.filter (·.graphId == g.graphId)).length = 1)) &&
  nodes.all fun x =>
    (decide (x.opcode = 0x0A) || decide (x.opcode = 0x0B) || (decide (x.next < n) && decide (x.alt < n))) &&
    (decide (x.opcode ≠ 0x09) || decide (x.a < n)) &&
    (decide (x.opcode ≠ 0x01) || (decide (1 ≤ x.a) && decide (x.a ≤ 1024) && decide (x.c + (x.a + 15) / 16 ≤ n)))

/-- R34: no write or execute for Auditor; Security setup (class 64) only for Security admin or Auditor. -/
def rolesOk (l : List RoleEntry) : Bool :=
  l.all fun e => (bitAt e.access 13 == false) && (bitAt e.access 14 == false) &&
    (decide (e.classId ≠ 64) || decide (e.access % 512 = 0))

/-- R494: the rings that EVENT_CODES records copy to. -/
def eventsOk (events : List EventCode) (rings : List RingRec) : Bool :=
  events.all fun e => bitAt e.flags 1 == false ||
    (match rings[e.ring]? with
     | some r => decide (r.direction = 0) && decide (r.content = 2)
     | none => false)

/-- R494 for METER_CLASS: the graph by its GRAPH_ID, the layout by its index, the calendar and the ring resolve. A field outside the
range of its record fails it too (log entry 96). -/
def classesOk (t : Trellis) : Bool :=
  t.classes.all fun c =>
    t.dialectDir.any (·.graphId == c.graph) && decide (c.layout < t.layouts.length) &&
    t.calendar.insts.any (·.inst == c.calendar) &&
    (match t.rings[c.ring]? with
     | some r => decide (r.direction = 0) && decide (r.content = 1)
     | none => false) &&
    decide (c.classId ≤ 63) && decide ((t.classes.filter (·.classId == c.classId)).length = 1) &&
    decide (c.medium ≤ 2) && decide (1 ≤ c.values) && decide (c.values ≤ 8) && decide (60 ≤ c.interval) && decide (c.interval ≤ 86400)

/-- R494 for DEVICE: BUCKET_OWNER positions; R45: HOST_SEAL_WAIT with RADIO_PROFILE, also in a merged structure (log entry 96). -/
def deviceOk (t : Trellis) : Bool :=
  t.device.bucketOwner.all (fun p => decide (p = 0xFF) || decide (p < t.device.activeCount * (t.device.pairMode + 1))) &&
  decide (t.device.hostSealWait ≤ 2000) && (decide (t.radio = []) || decide (t.device.hostSealWait ≠ 0))

/-- R494 for MEASUREMENT: every feeder with ZX_PHASES nonzero maps V1 to V3 and I1 to I3. -/
def measurementOk (t : Trellis) : Bool :=
  t.msrFeeders.all fun f => decide (f.zxPhases = 0) ||
    [0, 1, 2, 3, 4, 5].all fun r => t.msrChans.any fun c => c.enabled && decide (c.feeder = f.feeder) && decide (c.role = r)

/-- The semantic checks of R494 on a structure, with the calendar instances in use elsewhere; the TYPE of the first
section that fails. -/
def semantics (t : Trellis) (calsInUse : List Nat) : Option Nat :=
  if deviceOk t = false then some 1
  else if classesOk t = false then some 2
  else if dialectOk t.dialectDir t.dialectNodes = false then some 4
  else if measurementOk t = false then some 7
  else if calendarOk t.calendar calsInUse = false then some 8
  else if zonesOk t.zones t.msrFeeders = false then some 9
  else if rolesOk t.roles = false then some 10
  else if eventsOk t.events t.rings = false then some 11
  else none

/-- A structure with one section replaced. -/
def Trellis.put (t : Trellis) : Section → Trellis
  | .device d => { t with device := d }
  | .classes l => { t with classes := l }
  | .layouts l => { t with layouts := l }
  | .dialect d n => { t with dialectDir := d, dialectNodes := n }
  | .radio l => { t with radio := l }
  | .rings l => { t with rings := l }
  | .measurement c f => { t with msrChans := c, msrFeeders := f }
  | .calendar c => { t with calendar := c }
  | .zones l => { t with zones := l }
  | .roles l => { t with roles := l }
  | .events l => { t with events := l }

/-- A structure with every section of a package in place of its own. -/
def Trellis.merge (t : Trellis) (p : Package) : Trellis := p.sections.foldl (fun t s => t.put s.2.2) t

/-- R31: whether a TYPE may be grafted through the slot (0 general, 1 calendar, 2 zone). -/
def graftable (slot type : Nat) : Bool :=
  match slot with
  | 0 => [4, 5, 10, 11].contains type
  | 1 => decide (type = 8)
  | 2 => decide (type = 9)
  | _ => false

/-- Steps 1 to 4 of R488: header, table, sizes (for STAGE the total of R32), chain and digests, section headers. -/
def checkForm (c : BsCtx) (b : Bytes) : Option BsError :=
  match checkHeader c b with
  | some code => some ⟨code, noSection⟩
  | none =>
    let tab := tableOf b
    let tableEnd := 64 + 48 * tab.length
    let sigOff := b.le 0x28 4
    match (checkEntries tableEnd sigOff none tab).2 with
    | some e => some e
    | none =>
      if overlapFree tab = false then some ⟨Res.badTable, noSection⟩
      else
        match checkSizes tab with
        | some e => some e
        | none =>
          if c.wantKind = 2 ∧ c.slot = 0 ∧ 496 * 1024 < (tab.map (·.length)).sum then some ⟨Res.tooLarge, noSection⟩
          else
            match checkChain c b tab with
            | some e => some e
            | none => checkSections b tab

/-- The package a bit-stream that passed `checkForm` carries. -/
def packageOf (b : Bytes) : Package :=
  { kind := b.le 6 2, buildSerial := b.le 0x10 8, baseSerial := b.le 0x18 8, secVersion := b.le 0x20 2,
    ownerKey := (certKey (Bytes.slice (b.drop (b.le 0x28 4)) 64 144)).toNat,
    sections := (tableOf b).filterMap fun e => (parseSection b e).map fun s => (e.type, e.gen, s) }

/-- The unknown sections a load reports (R29): all that the table check reaches. -/
def unknownSections (c : BsCtx) (b : Bytes) : List UnknownSection :=
  match checkHeader c b with
  | some _ => []
  | none => (checkEntries (64 + 48 * (tableOf b).length) (b.le 0x28 4) none (tableOf b)).1

/-- R31, R488: the required sections of a base that are absent; MISSING_SECTION concerns a section where it is one alone. -/
def missingSections (p : Package) : List Nat := [1, 2, 3, 4, 6, 8, 10, 11].filter fun t => p.sections.all fun s => s.1 != t

/-- ARG1 of TRELLIS_REJECTED for the sections a failure concerns. -/
def concerned : List Nat → Nat
  | [t] => t
  | _ => noSection

/-- Step 6 of R488: counts, raw records and references, on the structure `t` that the bit-stream gives or is merged into. -/
def checkMeaning (b : Bytes) (t : Trellis) (calsInUse : List Nat) : Option BsError :=
  match checkCounts b (tableOf b) with
  | some e => some e
  | none =>
    match (tableOf b).find? (fun e => rawChecks b e == false) with
    | some e => some ⟨Res.sectionInvalid, e.type⟩
    | none => (semantics t calsInUse).map fun k => ⟨Res.sectionInvalid, k⟩

/-- R488 for a base bit-stream, with the calendar instances in use elsewhere (R215). -/
def verifyBase (c : BsCtx) (calsInUse : List Nat) (b : Bytes) : Except BsError Package :=
  match checkForm c b with
  | some e => .error e
  | none =>
    let p := packageOf b
    if missingSections p ≠ [] then .error ⟨Res.missingSection, concerned (missingSections p)⟩
    else
      match checkMeaning b (({} : Trellis).merge p) calsInUse with
      | some e => .error e
      | none => .ok p

/-- R488 and R47 for a Graft package against the live structure: its BUILD_SERIAL and its generations. A section of unknown
type that R29 skips is no graftable one (log entry 74). -/
def verifyGraft (c : BsCtx) (live : Trellis) (liveSerial : Nat) (liveGen : Nat → Nat) (calsInUse : List Nat) (b : Bytes) :
    Except BsError Package :=
  match checkForm c b with
  | some e => .error e
  | none =>
    let p := packageOf b
    if p.baseSerial ≠ liveSerial then .error ⟨Res.baseMismatch, noSection⟩
    else if (p.sections.all fun s => graftable c.slot s.1) = false ∨ p.sections.length ≠ (tableOf b).length then
      .error ⟨Res.notGraftable, (p.sections.find? fun s => graftable c.slot s.1 == false).elim noSection (·.1)⟩
    else
      match p.sections.find? (fun s => decide (s.2.1 ≤ liveGen s.1)) with
      | some s => .error ⟨Res.rollback, s.1⟩
      | none =>
        match checkMeaning b (live.merge p) calsInUse with
        | some e => .error e
        | none => .ok p

/-- R49: what a standby checks of a package that its active device has verified, against its own structure, fuses and use. -/
def fitsLive (c : BsCtx) (live : Trellis) (liveSerial : Nat) (liveGen : Nat → Nat) (calsInUse : List Nat) (p : Package) : Bool :=
  decide (p.baseSerial = liveSerial) && decide (c.floor ≤ p.secVersion) &&
    (c.owner.map fun h => decide ((Crypto.sha256 (beBytes 64 p.ownerKey)).toNat = h)).getD true &&
    (p.sections.all fun s => graftable c.slot s.1 && decide (liveGen s.1 < s.2.1)) && (semantics (live.merge p) calsInUse).isNone

end Sys2Proof.Machine
end

