-- ==== Sys2Proof/Machine/Trl.lean ====
section
/-! DEFINITION. The Trellis loader's commands (02): verification from host memory, the stored copies, Graft staging and
arming, and the fuses. -/

namespace Sys2Proof.Machine

/-- Loader states of TRL_STATUS. -/
def Trl.reset : Nat := 0
def Trl.loading : Nat := 1
def Trl.noTrellis : Nat := 2
def Trl.structured : Nat := 3
def Trl.sealed : Nat := 4

def Dev.trlState (d : Dev) : Nat := d.get F.TRL_STATUS_STATE

/-- Sources of a verification as TRELLIS_REJECTED names them (R488). -/
def Src.loadHost : Nat := 4
def Src.storeNor : Nat := 5
def Src.storeNand : Nat := 6
def Src.stage : Nat := 7

/-- What the checks need to know of the device (R36, R38). -/
def Dev.bsCtx (d : Dev) (kind : Nat) (hostLen : Option Nat) (slot : Nat) : BsCtx :=
  { wantKind := kind, hostLen := hostLen, floor := d.trl.floor, owner := d.trl.ownerFuse, slot := slot }

/-- The calendar instances that contexts and campaigns name; a campaign counts while it is LOADING or ACTIVE (R215). -/
def Dev.calsInUse (d : Dev) : List Nat :=
  ((d.dur.ctxs.map fun p => p.2.cal).filter (· ≠ 255)) ++ d.dur.campaigns.filterMap fun p => if p.2.takes then p.2.newCal else none

/-- R29 and R488: what a verification logs: unknown sections, then a rejection. -/
def Dev.reportLoad (d : Dev) (c : BsCtx) (src : Nat) (b : Bytes) (r : Except BsError Package) : Dev :=
  let d := (unknownSections c b).foldl (fun d u => d.occur Ev.unknownSection 1 u.type (b2n u.critical)) d
  match r with
  | .error e => d.occur Ev.trellisRejected 1 (e.code + 2 ^ 8 * src) e.type
  | .ok _ => d

/-- The result code of a verification. -/
def loadCode : Except BsError Package → Nat
  | .error e => e.code
  | .ok _ => Res.ok

/-- End a TRL command: its result, and LAST_RESULT for the commands that name a slot. -/
def Dev.trlDone (d : Dev) (code : Nat) (slot : Option Nat := none) : Dev :=
  let d := slot.elim d fun n => if n < 3 then d.set (F.TRL_SLOT_STATUS_LAST_RESULT.at n) code else d
  ((d.set F.TRL_CMD_STATUS_RESULT code).set F.TRL_CMD_STATUS_BUSY 0).raise F.TRL_INT_STATUS_CMD_DONE code

/-- Run a TRL command: a write while BUSY has no effect; in NO_TRELLIS only the three base commands are accepted (R41),
and the others need a live base. -/
def Dev.trlCmd (d : Dev) (needsBase : Bool) (slot : Option Nat) (f : Dev → Dev) : Dev :=
  if d.flag F.TRL_CMD_STATUS_BUSY then d
  else if needsBase && !(d.trlState == Trl.structured || d.trlState == Trl.sealed) then d.trlDone Res.badState slot
  else f d

/-- The generation of section TYPE `t` as TRL_GEN_t shows it. -/
def Dev.liveGen (d : Dev) (t : Nat) : Nat := d.get (F.TRL_GEN_n_GENERATION.at t)

/-- R40, R43: no base is live: its structure, serials, version, generations and source are gone. -/
def Dev.dropBase (d : Dev) : Dev :=
  let d := { d with trl := { d.trl with live := none, buildSerial := 0, secVersion := 0, ownerKey := 0 } }
  let d := ((d.setWide R.TRL_BUILD_LO R.TRL_BUILD_HI 0 0).set F.TRL_SECVER_LIVE 0).set F.TRL_STATUS_SOURCE 0
  (List.range 11).foldl (fun d t => d.set (F.TRL_GEN_n_GENERATION.at (t + 1)) 0) d

/-- Take a verified bit-stream as the live base: its structure, serial, version and generations. -/
def Dev.takeBase (d : Dev) (p : Package) : Dev :=
  let d := { d with trl := { d.trl with
    live := some (({} : Trellis).merge p)
    buildSerial := p.buildSerial
    secVersion := p.secVersion
    ownerKey := p.ownerKey } }
  let d := d.setWide R.TRL_BUILD_LO R.TRL_BUILD_HI 0 p.buildSerial
  let d := (d.set F.TRL_SECVER_LIVE p.secVersion).set F.TRL_STATUS_OWNER_BOUND (b2n d.trl.ownerFuse.isSome)
  p.sections.foldl (fun d s => d.set (F.TRL_GEN_n_GENERATION.at s.1) s.2.1) d

/-- R42: LOAD_HOST. On OK start-up goes on from step 6. -/
def execLoadHost (object : Bytes) (s : State) : Answer :=
  s.on fun d => d.trlCmd false none fun d =>
    if d.trlState ≠ Trl.noTrellis then d.trlDone Res.badState
    else
      let c := d.bsCtx 1 (some (d.get F.TRL_HOST_LEN_LENGTH)) 0
      let r := verifyBase c [] object
      let d := d.reportLoad c Src.loadHost object r
      match r with
      | .error e => (d.set F.TRL_STATUS_ERROR e.code).trlDone e.code
      | .ok p =>
        let d := (d.takeBase p).set F.TRL_STATUS_SOURCE 4
        (((d.set F.TRL_STATUS_STATE Trl.loading).set F.GLB_BOOT_STATE 0).set F.GLB_BOOT_STEP 5).trlDone Res.ok

/-- R44: verify a base, and store it where the medium takes it; what is then read back is verified again. -/
def Dev.storeBase (d : Dev) (src : Nat) (object : Bytes) (readOnly : Bool) (store : Dev → Dev) (stored : Dev → Option Bytes) : Dev :=
  let c := d.bsCtx 1 (some (d.get F.TRL_HOST_LEN_LENGTH)) 0
  let r := verifyBase c [] object
  let d := d.reportLoad c src object r
  match r with
  | .error e => d.trlDone e.code
  | .ok _ =>
    if readOnly then d.trlDone Res.mediaReadonly
    else
      let d := store d
      d.trlDone (loadCode (verifyBase c [] ((stored d).getD [])))

/-- R44: STORE_NOR. -/
def execStoreNor (object : Bytes) (s : State) : Answer :=
  s.on fun d => d.trlCmd false none fun d =>
    d.storeBase Src.storeNor object false (fun d => { d with nfm := { d.nfm with nor := some object } }) fun d => d.nfm.nor

/-- R44: STORE_NAND: the current copy becomes the previous one. -/
def execStoreNand (object : Bytes) (s : State) : Answer :=
  s.on fun d => d.trlCmd false none fun d =>
    d.storeBase Src.storeNand object (d.get F.NFM_STATUS_STATE == 3)
      (fun d => { d with nfm := { d.nfm with previous := d.nfm.current, current := some object } }) fun d => d.nfm.current

/-- R47, R49: STAGE. A synchronised standby verifies the package before the command completes. -/
def execStage (slot : Nat) (object : Bytes) (s : State) : Answer :=
  s.on fun d => d.trlCmd true (some slot) fun d =>
    if d.keyLocked then d.trlDone Res.stateLocked (some slot)
    else if Maps.has d.trl.slots slot then d.trlDone Res.slotBusy (some slot)
    else
      let c := d.bsCtx 2 (some (d.get F.TRL_HOST_LEN_LENGTH)) slot
      let r := verifyGraft c d.trellis d.trl.buildSerial d.liveGen d.calsInUse object
      let d := d.reportLoad c Src.stage object r
      match r with
      | .error e => d.trlDone e.code (some slot)
      | .ok p =>
        d.pairDo { recs := [], finish := .trl slot, result := Res.ok, stage := some (slot, ⟨p, none, d.standbySynced⟩) }

/-- R50: arm a slot for an instant, 0 for this second: the result code and what follows. -/
def Dev.armSlot (d : Dev) (slot at_ : Nat) : Nat × Dev :=
  if d.keyLocked then (Res.stateLocked, d)
  else
    match Maps.get? slot d.trl.slots with
    | none => (Res.badState, d)
    | some st =>
      if st.armedAt.isSome then (Res.slotBusy, d)
      else if d.standbySynced && !st.partnerHas then (Res.partnerNotStaged, d)
      else if at_ ≠ 0 ∧ at_ < d.tsu.sec then (Res.instantPast, d)
      else if d.get F.NFM_STATUS_STATE = 3 then (Res.mediaReadonly, d)
      else
        let st := { st with armedAt := some (if at_ = 0 then d.tsu.sec else at_) }
        (Res.ok, (d.journal (.arm slot st)).putSlot slot st)

/-- R50: ARM, for the instant in TRL_SLOT_AT. -/
def execArm (slot : Nat) (s : State) : Answer :=
  s.on fun d => d.trlCmd true (some slot) fun d =>
    match d.armSlot slot (d.wide R.TRL_SLOT_AT_LO R.TRL_SLOT_AT_HI slot % 2 ^ 48) with
    | (code, d) => d.trlDone code (some slot)

/-- R37: BIND_OWNER. -/
def execBindOwner (s : State) : Answer :=
  s.on fun d => d.trlCmd true none fun d =>
    match d.trl.ownerFuse with
    | some _ => d.trlDone Res.wrongOwner
    | none =>
      let h := (Crypto.sha256 (beBytes 64 d.trl.ownerKey)).toNat
      ({ d with trl := { d.trl with ownerFuse := some h } }.set F.TRL_STATUS_OWNER_BOUND 1).trlDone Res.ok

/-- R38: RAISE_FLOOR. -/
def execRaiseFloor (s : State) : Answer :=
  s.on fun d => d.trlCmd true none fun d =>
    let f := max d.trl.floor d.trl.secVersion
    ({ d with trl := { d.trl with floor := f } }.set F.TRL_SECVER_FLOOR f).trlDone Res.ok

end Sys2Proof.Machine
end

