-- ==== Sys2Proof/Machine/ObjView.lean ====
section
/-! DEFINITION. The billing object view (R234 to R238, R315): its objects, their attributes in A-XDR, and the answer to
one item of a request. What R236 leaves to IEC 62056-6-2 follows that standard; what neither fixes is open (log
entry 32). -/

namespace Sys2Proof.Machine

/-! ## A-XDR -/

namespace Ax

/-- A length (A-XDR): one byte below 128, else the count of its bytes and the bytes. -/
def len (n : Nat) : Bytes :=
  if n < 128 then beBytes 1 n else if n < 256 then 0x81#8 :: beBytes 1 n else 0x82#8 :: beBytes 2 n

def null : Bytes := [0x00#8]
def bool (b : Bool) : Bytes := 0x03#8 :: beBytes 1 (b2n b)
def int8 (v : Int) : Bytes := 0x0F#8 :: beBytes 1 (pattern 8 v)
def int16 (v : Int) : Bytes := 0x10#8 :: beBytes 2 (pattern 16 v)
def u8 (v : Nat) : Bytes := 0x11#8 :: beBytes 1 v
def u16 (v : Nat) : Bytes := 0x12#8 :: beBytes 2 v
def u32 (v : Nat) : Bytes := 0x06#8 :: beBytes 4 v
def u64 (v : Nat) : Bytes := 0x15#8 :: beBytes 8 v
def enum_ (v : Nat) : Bytes := 0x16#8 :: beBytes 1 v
def octets (b : Bytes) : Bytes := 0x09#8 :: (len b.length ++ b)
def array (l : List Bytes) : Bytes := 0x01#8 :: (len l.length ++ l.flatten)
def struct_ (l : List Bytes) : Bytes := 0x02#8 :: (len l.length ++ l.flatten)

end Ax

/-! ## The objects of R235 -/

/-- The result codes of R237 and R238. -/
def Ov.denied : Nat := 3
def Ov.undefined : Nat := 4
def Ov.wrongClass : Nat := 9
def Ov.unavailable : Nat := 11
def Ov.tooLong : Nat := 14
def Ov.other : Nat := 250

/-- An object of R235. `register` holds the direction c, 1 to 4, and t, 0 the sum over rates; `maxDemand` c, 1 or 2, and
t, 1 to 8; `demand` c; `quality` n, 1 to 4. -/
inductive OvObj where
  | clock
  | activity
  | special
  | register (c t : Nat)
  | maxDemand (c t : Nat)
  | demand (c : Nat)
  | history
  | periodCount
  | lastClosure
  | quality (n : Nat)
  | security
  | association
  deriving DecidableEq, Repr

/-- The six value groups of an object's logical name. -/
def OvObj.groups : OvObj → List Nat
  | .clock => [0, 0, 1, 0, 0, 255]
  | .activity => [0, 0, 13, 0, 0, 255]
  | .special => [0, 0, 11, 0, 0, 255]
  | .register c t => [1, 0, c, 8, t, 255]
  | .maxDemand c t => [1, 0, c, 6, t, 255]
  | .demand c => [1, 0, c, 4, 0, 255]
  | .history => [1, 0, 98, 1, 0, 255]
  | .periodCount => [1, 0, 0, 1, 0, 255]
  | .lastClosure => [1, 0, 0, 1, 2, 255]
  | .quality n => [0, 128, 96, n, 0, 255]
  | .security => [0, 0, 43, 0, 0, 255]
  | .association => [0, 0, 40, 0, 0, 255]

/-- A logical name as its six bytes, and as ROLE_TABLE's number. -/
def OvObj.name (o : OvObj) : Bytes := o.groups.map (BitVec.ofNat 8)

def OvObj.number (o : OvObj) : Nat := beNat o.name

/-- Interface class and version. -/
def OvObj.cls : OvObj → Nat
  | .clock => 8
  | .activity => 20
  | .special => 11
  | .register _ _ => 3
  | .maxDemand _ _ => 4
  | .demand _ => 5
  | .history => 7
  | .periodCount => 1
  | .lastClosure => 1
  | .quality _ => 1
  | .security => 64
  | .association => 15

def OvObj.version : OvObj → Nat
  | .history => 1
  | .association => 1
  | _ => 0

/-- The attributes GET reads. -/
def OvObj.attrs : OvObj → List Nat
  | .clock => [2, 3, 4, 5, 6, 7, 8, 9]
  | .activity => [2, 3, 4, 5, 6, 7, 8, 9, 10]
  | .special => [2]
  | .register _ _ => [2, 3]
  | .maxDemand _ _ => [2, 3, 4, 5]
  | .demand _ => [2, 3, 4, 5, 6, 7, 8, 9]
  | .history => [2, 3, 4, 5, 7, 8]
  | .periodCount => [2]
  | .lastClosure => [2]
  | .quality _ => [2]
  | .security => [2, 3, 4, 5]
  | .association => [2]

/-- Every object a meter has. -/
def OvObj.all : List OvObj :=
  let rates := [1, 2, 3, 4, 5, 6, 7, 8]
  [.clock, .activity, .special] ++ ([1, 2, 3, 4].flatMap fun c => (0 :: rates).map (.register c)) ++
    ([1, 2].flatMap fun c => rates.map (.maxDemand c)) ++ [.demand 1, .demand 2, .history, .periodCount, .lastClosure] ++
    [1, 2, 3, 4].map .quality ++ [.security, .association]

/-- The object of a logical name, where R235 has one. -/
def OvObj.named (name : Nat) : Option OvObj := OvObj.all.find? fun o => o.number == name

/-! ## Grants (R34) -/

/-- Whether ROLE_TABLE grants a role an access: KIND 0 GET, 1 SET, 2 ACTION. -/
def Trellis.grants (t : Trellis) (role name cls index kind : Nat) : Bool :=
  t.roles.any fun r =>
    r.logicalName == name && r.classId == cls && r.index == index && r.kind == (if kind = 2 then 1 else 0) &&
      r.access.testBit (3 * role + kind)

/-! ## Times -/

/-- What an answer reads beside the meter's state. -/
structure ViewEnv where
  meter : Nat
  role : Nat
  trellis : Trellis
  inst : Nat
  utc : Utc
  /-- What governs the meter's calendar time (R218, R278). -/
  bill : BillEnv
  sec : Nat
  ns : Nat
  layout : TariffLayout
  cls : MeterClass
  depth : Nat
  eui : Nat
  address : Nat
  generation : Nat
  /-- The calendar slot's package: its CALENDAR, that section's generation and, once armed, its instant (R236). -/
  passive : Option (Calendar × Nat × Option Nat)

/-- The live record of the meter's instance. -/
def ViewEnv.rec? (e : ViewEnv) : Option CalRec := e.trellis.calendar.inst? e.inst

/-- A date-time of 12 B: local wall seconds, hundredths, deviation and the summer-time bit (R236). -/
def dateTime (w : Int) (hundredths : Nat) (deviation : Int) (summer : Bool) : Bytes :=
  let day := w / 86400
  let sod := (w - day * 86400).toNat
  let (y, m, dd) := civilFromDays day
  beBytes 2 (pattern 16 y) ++ ([m, dd, weekdayOf day, sod / 3600, sod / 60 % 60, sod % 60, hundredths].flatMap fun x => beBytes 1 x) ++
    beBytes 2 (pattern 16 deviation) ++ beBytes 1 (if summer then 0x80 else 0)

/-- A PTP instant as the instance's local date-time (R236), under the calendar that was live at it (R218). -/
def ViewEnv.time (e : ViewEnv) (ptp : Nat) (hundredths : Nat := 0) : Bytes :=
  let off := e.utc.at ptp
  match e.bill.rec? ptp with
  | some c =>
    let s := isDst c (localStd c off ptp)
    dateTime (localTime c off ptp) hundredths (-(c.stdOffset + if s then (c.dstDelta : Int) else 0)) s
  | none => dateTime ((ptp : Int) - off) hundredths 0 false

/-- The start of a demand interval, PTP seconds. -/
def ViewEnv.intervalAt (e : ViewEnv) (idx : Nat) : Nat := e.bill.startOf idx

/-- Data that the spec leaves open. -/
def ViewEnv.unset (e : ViewEnv) (o : OvObj) (attr : Nat) (item : Nat := 0) : Bytes := Config.viewData e.meter o.number attr item

/-! ## Attributes -/

/-- The unit per hour of an energy unit (IEC 62056-6-2 unit codes): Wh, VAh and varh give W, VA and var. -/
def perHour (u : Nat) : Nat := match u with | 30 => 27 | 31 => 28 | 32 => 29 | n => n

/-- Scaler and unit of direction c from TARIFF_LAYOUT. -/
def ViewEnv.scalerUnit (e : ViewEnv) (c : Nat) (demand : Bool) : Bytes :=
  let u := e.layout.unit.getD (c - 1) 255
  Ax.struct_ [Ax.int8 (e.layout.scaler.getD (c - 1) 0), Ax.enum_ (if demand then perHour u else u)]

/-- An activity calendar's instance as attributes 2 to 5 or 6 to 9 show it. -/
def calName (inst gen : Nat) : Bytes := Ax.octets (beBytes 1 inst ++ [0x00#8] ++ beBytes 4 gen)

def weekName (n : Nat) : Bytes := Ax.octets (beBytes 1 (Config.viewName 1 n).toNat)

/-- A date-time that repeats each year: year, weekday and everything below the day wild. -/
def yearly (m d : Nat) : Bytes := [0xFF#8, 0xFF#8] ++ beBytes 1 m ++ beBytes 1 d ++ [0xFF#8, 0#8, 0#8, 0#8, 0#8, 0x80#8, 0#8, 0#8]

def calSeasons (c : CalRec) : Bytes :=
  Ax.array (c.seasons.zipIdx.map fun p =>
    Ax.struct_ [Ax.octets (beBytes 1 (Config.viewName 0 p.2).toNat), Ax.octets (yearly p.1.month p.1.day), weekName p.1.week])

def calWeeks (c : CalRec) : Bytes :=
  Ax.array (c.weeks.zipIdx.map fun p => Ax.struct_ (weekName p.2 :: ((List.range 7).map fun k => Ax.u8 (p.1.getD k 0))))

/-- Day profiles: each switch point is a script 0.0.10.0.100.255 with selector tariff + 1 (R236). -/
def calDays (c : CalRec) : Bytes :=
  let script : Bytes := [0#8, 0#8, 10#8, 0#8, 100#8, 255#8]
  let action (p : Nat × Nat) : Bytes :=
    Ax.struct_ [Ax.octets (beBytes 1 (p.1 / 60) ++ beBytes 1 (p.1 % 60) ++ [0#8, 0#8]), Ax.octets script, Ax.u16 (p.2 + 1)]
  Ax.array (c.days.zipIdx.map fun p => Ax.struct_ [Ax.u8 p.2, Ax.array (p.1.map action)])

/-- Attribute 2 to 5 of a calendar record (`k` 0 to 3); an absent one shows empty arrays (R236). -/
def calAttr (c : Option CalRec) (inst gen k : Nat) : Bytes :=
  match c, k with
  | none, _ => Ax.array []
  | some _, 0 => calName inst gen
  | some c, 1 => calSeasons c
  | some c, 2 => calWeeks c
  | some c, _ => calDays c

/-- Summer-time begin and end as the Clock shows them: only the month, weekday and time of day follow from R213; the day
of the month's form is open. Each is local time as it is before the change (R236): the end is summer time. -/
def ViewEnv.dstRule (e : ViewEnv) (attr : Nat) (r : DstRule) (summer : Bool) : Bytes :=
  let c := e.rec?
  let local_ : Int := (c.map (·.stdOffset)).getD 0 + if summer then (((c.map (·.dstDelta)).getD 0 : Nat) : Int) else 0
  Ax.octets ([0xFF#8, 0xFF#8] ++ beBytes 1 r.month ++ beBytes 1 (Config.viewName (1 + attr) r.week).toNat ++ beBytes 1 r.weekday ++
    beBytes 1 (r.quarter / 4) ++ beBytes 1 (15 * (r.quarter % 4)) ++ [0#8, 0#8] ++
    beBytes 2 (pattern 16 (-local_)) ++ beBytes 1 (if summer then 0x80 else 0))

/-- Attributes of the Clock. -/
def ViewEnv.clockAttr (e : ViewEnv) (attr : Nat) : Bytes :=
  let std := (e.rec?.map (·.stdOffset)).getD 0
  let delta := (e.rec?.map (·.dstDelta)).getD 0
  let summer := (e.rec?.map fun c => isDst c (localStd c e.utc.now e.sec)).getD false
  match attr with
  | 2 => Ax.octets (e.time e.sec (e.ns / 10000000))
  | 3 => Ax.int16 (-std)
  | 4 => Ax.u8 (if summer then 0x80 else 0)
  | 5 => match e.rec? with
    | some c => e.dstRule 5 c.dstStart false
    | none => e.unset .clock 5
  | 6 => match e.rec? with
    | some c => e.dstRule 6 c.dstEnd true
    | none => e.unset .clock 6
  | 7 => Ax.int8 (delta : Int)
  | 8 => Ax.bool (delta != 0)
  | n => e.unset .clock n

/-- Attributes of the Activity calendar: the live instance, the calendar slot's, and the activation time (R236). -/
def ViewEnv.activityAttr (e : ViewEnv) (attr : Nat) : Bytes :=
  if attr < 6 then calAttr e.rec? e.inst e.generation (attr - 2)
  else if attr < 10 then
    match e.passive with
    | some (cal, gen, _) => calAttr (cal.inst? e.inst) e.inst gen (attr - 6)
    | none => Ax.array []
  else
    match e.passive with
    | some (_, _, some t) => Ax.octets (e.time t)
    | _ => Ax.octets (List.replicate 12 0xFF#8)

/-- The special days that apply to the instance. -/
def ViewEnv.specialAttr (e : ViewEnv) : Bytes :=
  let l := e.trellis.calendar.special.filter fun s => s.calendar == e.inst || s.calendar == 0xFF
  Ax.array (l.zipIdx.map fun p =>
    Ax.struct_ [Ax.u16 (Config.viewName 2 p.2).toNat,
      Ax.octets (beBytes 2 (if p.1.year = 0 then 0xFFFF else p.1.year) ++ beBytes 1 p.1.month ++ beBytes 1 p.1.day ++ [0xFF#8]),
      Ax.u8 p.1.profile])

/-- Σ over rates of direction c − 1, or one register. -/
def BillBlock.register (b : BillBlock) (c t : Nat) : Nat :=
  if t = 0 then (((List.range 8).map fun r => Maps.getD b.energy (4 * r + (c - 1)) 0).sum) % 2 ^ 64
  else Maps.getD b.energy (4 * (t - 1) + (c - 1)) 0

def BillBlock.demandMax (b : BillBlock) (c t : Nat) : MaxDemand := Maps.getD b.maxDemand (2 * (t - 1) + (c - 1)) ⟨0, 0⟩

/-- Attributes of a Demand register: the open interval's demand so far and the last closed interval. -/
def ViewEnv.demandAttr (e : ViewEnv) (b : BillBlock) (c attr : Nat) : Bytes :=
  let o := OvObj.demand c
  let pick (x : DemandInterval) : Nat := if c = 1 then x.imp else x.exp
  match attr with
  | 2 => Ax.u32 ((b.opened.map fun x => pick x * 60 / max 1 e.layout.demandInterval).getD 0)
  | 3 => Ax.u32 (pick b.lastDemand)
  | 4 => e.scalerUnit c true
  | 6 => Ax.octets (e.time (e.intervalAt (b.lastDemand.index + 1)))
  | 7 => match b.opened with
    | some x => Ax.octets (e.time (e.intervalAt x.index))
    | none => e.unset o 7
  | 8 => Ax.u32 (60 * e.layout.demandInterval)
  | 9 => Ax.u16 1
  | n => e.unset o n

/-- The columns of the billing history: the closing time, the 32 registers, and each maximum demand with its capture time
(R236), as the object, attribute and value each column captures. -/
def ViewEnv.columns (e : ViewEnv) (h : HistEntry) : List (OvObj × Nat × Bytes) :=
  let b : BillBlock := { energy := h.energy, maxDemand := h.maxDemand }
  let regs := (List.range 8).flatMap fun r => [1, 2, 3, 4].map fun c => (OvObj.register c (r + 1), 2, Ax.u64 (b.register c (r + 1)))
  let dem := (List.range 8).flatMap fun r => [1, 2].flatMap fun c =>
    let m := b.demandMax c (r + 1)
    [(OvObj.maxDemand c (r + 1), 2, Ax.u32 m.value), (OvObj.maxDemand c (r + 1), 5, Ax.octets (e.time (e.intervalAt (m.interval + 1))))]
  (OvObj.lastClosure, 2, Ax.octets (e.time h.closedAt)) :: (regs ++ dem)

/-- A capture object definition. -/
def captureObject (o : OvObj) (attr : Nat) : Bytes :=
  Ax.struct_ [Ax.u16 o.cls, Ax.octets o.name, Ax.int8 (attr : Int), Ax.u16 0]

/-- Selective access to the history: the entries taken and whether a column, by position from 1 and by its capture
object, is taken. `none`: malformed or unsupported. -/
def ViewEnv.select (e : ViewEnv) (l : List HistEntry) (selector : Nat) (p : Bytes) : Option (List HistEntry × (Nat → Bytes → Bool)) :=
  match selector with
  | 0 => some (l, fun _ _ => true)
  | 1 =>
    let env : ParseEnv := { off := e.utc.now, cal := e.rec? }
    if p.slice 0 2 = [0x02#8, 0x04#8] ∧ p.slice 2 18 = captureObject .lastClosure 2 then
      match readDateTime env p p.length 20 0 with
      | .ok (some a, q) =>
        match readDateTime env p p.length q 0 with
        | .ok (some z, q) =>
          let n := p.u8 (q + 1)
          let cols := recordsOf 18 n (p.drop (q + 2))
          if p.u8 q = 1 ∧ p.length = q + 2 + 18 * n then
            some (l.filter fun h => decide (a ≤ h.closedAt) && decide (h.closedAt ≤ z), fun _ o => n == 0 || cols.contains o)
          else none
        | _ => none
      | _ => none
    else none
  | 2 =>
    if p.length = 18 ∧ p.slice 0 3 = [0x02#8, 0x04#8, 0x06#8] ∧ p.u8 7 = 6 ∧ p.u8 12 = 0x12 ∧ p.u8 15 = 0x12 then
      let a := p.be 3 4
      let z := p.be 8 4
      let ca := p.be 13 2
      let cz := p.be 16 2
      let kept := l.zipIdx.filterMap fun h => if a ≤ h.2 + 1 ∧ (z = 0 ∨ h.2 + 1 ≤ z) then some h.1 else none
      some (kept, fun k _ => decide (ca ≤ k) && (cz == 0 || decide (k ≤ cz)))
    else none
  | _ => none

/-- Attributes of the billing history. -/
def ViewEnv.historyAttr (e : ViewEnv) (b : BillBlock) (attr selector : Nat) (param : Bytes) : Except Nat Bytes :=
  match attr with
  | 2 =>
    match e.select b.history selector param with
    | none => .error (Config.viewBadSelector selector).toNat
    | some (l, col) =>
      .ok (Ax.array (l.map fun h =>
        Ax.struct_ (((e.columns h).zipIdx.filter fun c => col (c.2 + 1) (captureObject c.1.1 c.1.2.1)).map (·.1.2.2))))
  | 3 => .ok (Ax.array ((e.columns ⟨0, [], []⟩).map fun c => captureObject c.1 c.2.1))
  | 4 => .ok (Ax.u32 0)
  | 5 => .ok (Ax.enum_ 1)
  | 7 => .ok (Ax.u32 b.history.length)
  | 8 => .ok (Ax.u32 e.depth)
  | n => .ok (e.unset .history n)

/-- R315: attributes of the Security setup. -/
def ViewEnv.securityAttr (e : ViewEnv) (attr : Nat) : Bytes :=
  let dlms := (e.trellis.dialectDir.find? (·.graphId == e.cls.graph)).any (·.protocol == 1)
  match attr with
  | 2 => Ax.enum_ 3
  | 3 => Ax.enum_ (if dlms && Config.classSuite e.cls.classId then 1 else 0)
  | 4 => Ax.octets (beBytes 8 e.eui)
  | _ => Ax.octets (beBytes 8 e.address)

/-- The object list of the association, of the objects the role may read (R235). -/
def ViewEnv.objectList (e : ViewEnv) : Bytes :=
  let may (o : OvObj) (n kind : Nat) : Bool := e.trellis.grants e.role o.number o.cls n kind
  let seen := OvObj.all.filter fun o => o.attrs.any fun n => may o n 0
  let attr (o : OvObj) (n : Nat) : Bytes :=
    let w := decide (o = .activity) && n == 10 && may o 10 1
    let sel := if o = .history ∧ n = 2 then Ax.array [Ax.int8 1, Ax.int8 2] else Ax.null
    Ax.struct_ [Ax.int8 (n : Int), Ax.enum_ (b2n (may o n 0) + 2 * b2n w), sel]
  let meths (o : OvObj) : List Bytes :=
    if o = .activity then [Ax.struct_ [Ax.int8 1, Ax.enum_ (b2n (may o 1 2))]] else []
  Ax.array (seen.map fun o =>
    Ax.struct_ [Ax.u16 o.cls, Ax.u8 o.version, Ax.octets o.name,
      Ax.struct_ [Ax.array (o.attrs.map (attr o)), Ax.array (meths o)]])

/-- GET of an attribute. -/
def ViewEnv.get (e : ViewEnv) (b : BillBlock) (o : OvObj) (attr selector : Nat) (param : Bytes) : Except Nat Bytes :=
  match o with
  | .clock => .ok (e.clockAttr attr)
  | .activity => .ok (e.activityAttr attr)
  | .special => .ok e.specialAttr
  | .register c t => .ok (if attr = 2 then Ax.u64 (b.register c t) else e.scalerUnit c false)
  | .maxDemand c t =>
    let m := b.demandMax c t
    .ok (match attr with
      | 2 => Ax.u32 m.value
      | 3 => e.scalerUnit c true
      | 4 => e.unset o 4
      | _ => Ax.octets (e.time (e.intervalAt (m.interval + 1))))
  | .demand c => .ok (e.demandAttr b c attr)
  | .history => e.historyAttr b attr selector param
  | .periodCount => .ok (Ax.u32 b.periodCount)
  | .lastClosure => .ok (match b.history.getLast? with
      | some h => Ax.octets (e.time h.closedAt)
      | none => e.unset o 2)
  | .quality n => .ok (Ax.u32 ([b.mismatches, b.maxDeviation, b.late, b.incomplete].getD (n - 1) 0))
  | .security => .ok (e.securityAttr attr)
  | .association => .ok e.objectList

/-! ## One item of a request (R237, R238) -/

/-- An item of R449. -/
structure ViewItem where
  name : Nat
  cls : Nat
  index : Nat
  kind : Nat
  selector : Nat
  param : Bytes

/-- What an answer reads for a meter. -/
def Dev.viewEnv (d : Dev) (meter role : Nat) (c : Ctx) : ViewEnv :=
  let t := d.trellis
  let cls := (t.class? c.cls).getD
    { classId := c.cls, medium := 0, graph := 0, security := 6, layout := 0, values := 0, calendar := 0, ring := 0, interval := 0,
      tsTolerance := 0, fields := [], maxStep := [] }
  let pkg := (Maps.get? 1 d.trl.slots).bind fun st =>
    st.pkg.sections.findSome? fun s => match s.2.2 with
      | .calendar cal => some (cal, s.2.1, st.armedAt)
      | _ => none
  { meter := meter, role := role, trellis := t, inst := t.instOf c, utc := d.utc, bill := d.dur.billEnv d.readEnv meter cls, sec := d.tsu.sec,
    ns := d.tsu.ns, cls := cls, depth := d.get F.BIL_HISTORY_DEPTH, eui := d.wide R.FHM_NET_EUI_LO R.FHM_NET_EUI_HI 0,
    address := c.address, generation := d.liveGen 8, passive := pkg
    layout := (t.layout? cls.layout).getD
      { layoutId := 0, rates := 1, directions := 0, demandInterval := 15, scaler := [], unit := [], rateMap := [] } }

/-- R237: arm the calendar slot for an instant, as TRL_CMD ARM would: success or other-reason, with LAST_RESULT. -/
def Dev.viewArm (d : Dev) (at_ : Nat) : Nat × Dev :=
  match d.armSlot 1 at_ with
  | (code, d) => (if code = Res.ok then 0 else Ov.other, d.set (F.TRL_SLOT_STATUS_LAST_RESULT.at 1) code)

/-- R237, R238: an item's result and data; `room` bytes are left for it in the response. -/
def Dev.viewItem (d : Dev) (meter role room : Nat) (i : ViewItem) : Nat × Bytes × Dev :=
  match OvObj.named i.name with
  | none => (Ov.undefined, [], d)
  | some o =>
    if o.cls ≠ i.cls then (Ov.wrongClass, [], d)
    else
      match Maps.get? meter d.dur.ctxs with
      | none => (Ov.unavailable, [], d)
      | some c =>
        let e := d.viewEnv meter role c
        if d.trellis.grants role i.name i.cls i.index i.kind = false then (Ov.denied, [], d)
        else if i.kind = 0 then
          if o.attrs.contains i.index = false then (Ov.denied, [], d)
          else match e.get (Maps.getD d.dur.bills meter {}) o i.index i.selector i.param with
            | .ok b => if room < 4 + (padTo 4 b).length then (Ov.tooLong, [], d) else (0, b, d)
            | .error r => (r, [], d)
        else if o = .activity ∧ i.kind = 1 ∧ i.index = 10 then
          if room < 4 then (Ov.tooLong, [], d)
          else
            match readDateTime { off := e.utc.now, cal := e.rec? } i.param i.param.length 0 0 with
            | .ok (some t, _) => match d.viewArm t with
              | (r, d) => (r, [], d)
            | _ => (Ov.other, [], d)
        else if o = .activity ∧ i.kind = 2 ∧ i.index = 1 then
          if room < 4 then (Ov.tooLong, [], d)
          else
            match d.viewArm 0 with
            | (r, d) => (r, [], d)
        else (Ov.denied, [], d)

/-- The answers of a request's items in one admission (R234, R449): `used` bytes of the response are taken. -/
def Dev.viewItems (meter role : Nat) : List ViewItem → Nat → Bytes → Dev → Bytes × Dev
  | [], _, out, d => (out, d)
  | i :: is, used, out, d =>
    match d.viewItem meter role (16384 - used) i with
    | (r, data, d) =>
      let d := if r = Ov.denied then (d.count R.BIL_CNT_n 10).raise F.BIL_INT_STATUS_OV_DENIED meter else d
      let item : Bytes := leBytes 1 r ++ [0#8] ++ leBytes 2 data.length ++ padTo 4 data
      Dev.viewItems meter role is (used + item.length) (out ++ item) d

end Sys2Proof.Machine
end

