-- ==== Sys2Proof/Machine/HostReq.lean ====
section
/-! DEFINITION. A host command's packet, its checks and its signer (R446, R448, R451), and what a host request does as its meter's
work item: an object request's answer (R234, R449), and the ciphering of a METER_REQUEST's APDU (R450). -/

namespace Sys2Proof.Machine

/-- STATUS codes of R451. -/
def Cmd.ok : Nat := 0x00
def Cmd.badPacket : Nat := 0x01
def Cmd.unknownOpcode : Nat := 0x02
def Cmd.badRing : Nat := 0x03
def Cmd.noCert : Nat := 0x04
def Cmd.badCert : Nat := 0x05
def Cmd.badSignature : Nat := 0x06
def Cmd.stale : Nat := 0x07
def Cmd.denied : Nat := 0x08
def Cmd.noMeter : Nat := 0x09
def Cmd.busy : Nat := 0x0A
def Cmd.timeout : Nat := 0x0B
def Cmd.locked : Nat := 0x0D
def Cmd.notActive : Nat := 0x0E
def Cmd.noDownlink : Nat := 0x0F

/-- Words that must be free in a response ring before a command that names it is taken (R440). -/
def responseRoom : Nat := 4608

/-- A command packet (R446): its fields, the bytes its signature covers, and its signature. -/
structure HostCmd where
  ring : Nat
  bytes : Bytes

namespace HostCmd

def opcode (c : HostCmd) : Nat := c.bytes.u8 0
def respRing (c : HostCmd) : Nat := c.bytes.u8 1
def tag (c : HostCmd) : Nat := c.bytes.le 2 2
def certRef (c : HostCmd) : Nat := c.bytes.be 4 8
def nonce (c : HostCmd) : Nat := c.bytes.le 12 8
def bodyLen (c : HostCmd) : Nat := c.bytes.le 20 2
def body (c : HostCmd) : Bytes := c.bytes.slice 24 c.bodyLen
def signedPart (c : HostCmd) : Bytes := c.bytes.take (24 + c.bodyLen)
def signature (c : HostCmd) : BitVec 512 := BitVec.ofNat 512 (beNat (c.bytes.drop (c.bytes.length - 64)))

/-- The layout's status (R446): length, opcode, reserved field, BODY_LEN. -/
def layout (c : HostCmd) : Nat :=
  let padded := (c.bodyLen + 3) / 4 * 4
  if c.bytes.length < 24 then Cmd.badPacket
  else if c.opcode = 0 ∨ 3 < c.opcode then Cmd.unknownOpcode
  else if 16384 < c.bodyLen ∨ c.bytes.length ≠ 24 + padded + (if c.opcode = 3 then 0 else 64) then Cmd.badPacket
  else if c.bytes.le 22 2 ≠ 0 then Cmd.badPacket
  else Cmd.ok

end HostCmd

/-- The response ring is a device-to-host ring of content 4 (R451). -/
def Dev.answers (d : Dev) (ring : Nat) : Bool := (d.ringRec ring).content == 4 && (d.ringRec ring).direction == 0 && decide (ring < 64)

/-- Take the packet at the front of a command ring: its words leave the ring. -/
def Dev.takeCmd (d : Dev) (ring : Nat) (p : List Word) (rest : List (List Word)) : Dev :=
  let d := d.setRing ring { d.ring ring with ready := rest }
  (d.set (F.RNG_n_PTR_RD.at ring) ((d.rd ring + p.length) % 32768)).count R.RNG_CNT_n 0

/-- A command at the front of its ring is taken once its response has room (R440); `f` carries it out. The packet belongs
to the step of its OPCODE; one whose OPCODE is not listed belongs to OBJECT_REQUEST's. Without effect otherwise. -/
def Dev.hostCmd (d : Dev) (ring opcode : Nat) (f : HostCmd → Dev → Dev) : Dev :=
  match (d.ring ring).ready with
  | [] => d
  | p :: rest =>
    let c : HostCmd := ⟨ring, wordsToBytes p.tail⟩
    let mine := if c.opcode = 2 ∨ c.opcode = 3 then c.opcode else 1
    let held := d.answers c.respRing && decide (d.face.ringFree c.respRing < responseRoom)
    if mine ≠ opcode ∨ held ∨ (d.ringRec ring).content ≠ 5 then d
    else
      let d := d.takeCmd ring p rest
      let fail (st : Nat) : Dev := d.respond c.respRing c.opcode st c.tag []
      if d.answers c.respRing = false then fail Cmd.badRing
      else if c.layout ≠ Cmd.ok then fail c.layout
      else if d.keyLocked then fail Cmd.locked
      else if d.serves = false then fail Cmd.notActive
      else f c d

/-- Count a refused command by its status (RNG_CNT_n), and answer it. -/
def Dev.refuse (d : Dev) (c : HostCmd) (st : Nat) : Dev :=
  let d := if st = Cmd.badSignature then d.count R.RNG_CNT_n 2 else d
  let d := if st = Cmd.stale then d.count R.RNG_CNT_n 3 else d
  let d := if st = Cmd.denied then d.count R.RNG_CNT_n 4 else d
  d.respond c.respRing c.opcode st c.tag []

/-- R448: a signed command is accepted where its certificate is cached, its signature verifies, at port rank 1 of the sign/hash
arbiter (R203; log entry 99), and its NONCE is fresh: `f` goes on with its role, with the certificate marked as used and its
NONCE kept. Otherwise it is answered with the status of the first that fails. -/
def Dev.authorised (d : Dev) (c : HostCmd) (f : Nat → Dev → Dev) : Dev :=
  match d.face.hst.certs.find? (·.ref == c.certRef) with
  | none => d.refuse c Cmd.noCert
  | some e =>
    let d := d.shPost 1 (.verifyCommand c.ring) 0
    if Crypto.ecdsaVerify (BitVec.ofNat 512 e.key) (Crypto.sha256 c.signedPart) c.signature = false then d.refuse c Cmd.badSignature
    else if 60000000000 < ((c.nonce : Int) - (d.now : Int)).natAbs ∨ c.nonce ≤ e.lastNonce then d.refuse c Cmd.stale
    else
      let certs := (d.face.hst.certs.filter (·.ref ≠ e.ref)) ++ [{ e with lastNonce := c.nonce }]
      f e.role { d with face := { d.face with hst := { d.face.hst with certs := certs } } }

/-! ## OBJECT_REQUEST -/

/-- The items of a request body from `pos`; none where the layout is wrong (R449). -/
def viewItemsOf (b : Bytes) : Nat → Nat → Option (List ViewItem)
  | 0, pos => if pos = b.length then some [] else none
  | k + 1, pos =>
    let plen := b.le (pos + 12) 2
    let next := pos + 16 + (plen + 3) / 4 * 4
    if b.length < next ∨ 2 < b.u8 (pos + 9) then none
    else
      (viewItemsOf b k next).map fun is =>
        { name := b.be pos 6, cls := b.le (pos + 6) 2, index := b.u8 (pos + 8), kind := b.u8 (pos + 9), selector := b.u8 (pos + 10),
          param := b.slice (pos + 16) plen } :: is

/-- The items of a request (R449): COUNT from 1 to 10. -/
def HostCmd.viewItems (c : HostCmd) : Option (List ViewItem) :=
  let n := c.body.u8 4
  if c.body.length < 8 ∨ n = 0 ∨ 10 < n then none else viewItemsOf c.body n 8

/-- R449: a request's meter. -/
def HostCmd.meter (c : HostCmd) : Nat := c.body.le 0 4 % 1048576

/-- R234, R448, R449: the object request of a meter at the front of a ring is verified and answered. -/
def Dev.serveView (d : Dev) (ring meter : Nat) : Dev :=
  d.hostCmd ring 1 fun c d => d.authorised c fun role d =>
    match c.viewItems with
    | none => d.refuse c Cmd.badPacket
    | some items =>
      let d := d.count R.BIL_CNT_n 9
      let head : Bytes := leBytes 4 c.meter ++ leBytes 1 items.length ++ [0#8, 0#8, 0#8]
      match Dev.viewItems meter role items 12 head d with
      | (out, d) => d.respond c.respRing 1 Cmd.ok c.tag out

/-- The meter of the object request at the front of a ring (R449). -/
def Dev.viewMeter? (d : Dev) (ring : Nat) : Option Nat :=
  match (d.ring ring).ready with
  | p :: _ =>
    let c : HostCmd := ⟨ring, wordsToBytes p.tail⟩
    if (d.ringRec ring).content = 5 ∧ c.layout = Cmd.ok ∧ c.opcode = 1 then some c.meter else none
  | [] => none

/-! ## METER_REQUEST -/

/-- The ciphered form of a request APDU (IEC 62056-5-3): glo tag, length, security control, invocation counter, APDU and
12 B tag, under the meter's resident key set. The counter's value is the device's (log entry 33). -/
def Dev.cipherRequest (d : Dev) (k : KeySet) (x : Ctx) (a : Bytes) : Bytes × Dev :=
  match d.fresh 32 with
  | (ic, d) =>
    let ak := (((Maps.getD d.dur.classAks x.cls {} : KeyPair).cur.bind d.unwrapSet).map (·.link)).getD 0
    let nonce := beNat (beBytes 8 (d.wide R.FHM_NET_EUI_LO R.FHM_NET_EUI_HI 0) ++ beBytes 4 ic.toNat)
    let sealed := Crypto.gcm 16 k.global nonce (0x30#8 :: beBytes 16 ak) a
    let inner : Bytes := [0x30#8] ++ beBytes 4 ic.toNat ++ sealed.1 ++ beBytes 12 (leadTag 12 sealed.2)
    (beBytes 1 (a.u8 0 + 8) ++ Ax.len inner.length ++ inner, d)

/-- R196, R450: the APDU of the meter's waiting request `id` is ciphered, and its downlink may go. -/
def Dev.cipherDown (d : Dev) (meter id : Nat) : Dev :=
  match d.fhm.downlinks.find? fun x => x.id == id && x.plain != [], d.residentSet meter false, Maps.get? meter d.dur.ctxs with
  | some x, some k, some c =>
    match d.cipherRequest k c x.plain with
    | (p, d) =>
      let put (y : Downlink) : Downlink := if y.id = id then { y with payload := p, plain := [] } else y
      { d with fhm := { d.fhm with downlinks := d.fhm.downlinks.map put } }
  | _, _, _ => d

end Sys2Proof.Machine
end

