-- ==== Sys2Proof/Machine/ZxSend.lean ====
section
/-! DEFINITION. Outbound ZX-PLC frames (R108, R109, R117, R275): what is due on a phase, what a frame is sealed with, and the DOWNLINK
frame that a work item of its meter encrypts (R196, R199). -/

namespace Sys2Proof.Machine

/-- Outbound frames go out on a phase: enabled, with a valid driver record, neither resting nor latched off, LOCKED or
HOLDOVER, on the device that serves meters (R104, R123 to R125). -/
def Dev.zxSends (d : Dev) (f p : Nat) : Bool :=
  let st := d.track f p
  d.serves && !d.glb.inReset && d.zxEnabled f p && bitAt (d.get (F.ZXP_CTRL_TX_EN.at f)) p && d.flag (F.ZXP_STATUS_MODULE.at f) &&
    !(d.zxPhase f p).resting && !bitAt (d.get (F.ZXP_STATUS_LATCHED.at f)) p && (st == Zt.locked || st == Zt.holdover)

/-- The place of a phase: its broadcast target and campaign place. -/
def zxPlace (f p : Nat) : Nat := 4096 + 3 * f + p

/-- Data bits before the MIC, filled with zeros so that the MIC takes the last 32 bits of `n` blocks. -/
def padded (n : Nat) (b : List Bool) : List Bool := b ++ List.replicate (44 * n - 32 - b.length) false

/-- R117: the 44 bits of the header block. -/
def zxHeader (counter type nblk flags cycle : Nat) : List Bool :=
  toBits 16 (counter % 65536) ++ toBits 4 type ++ toBits 6 nblk ++ toBits 2 flags ++ toBits 16 (cycle % 65536)

/-- R117: the data blocks with their MIC, under a key and a nonce counter: the fields sent in the clear, and the payload that level 5
encrypts (log entry 83). -/
def Dev.zxSealed (d : Dev) (key counter level : Nat) (header clear : List Bool) (payload : Bytes) (nblk : Nat) : List Bool :=
  let eui := d.wide R.FHM_NET_EUI_LO R.FHM_NET_EUI_HI 0
  let nonce := beNat (beBytes 8 eui ++ beBytes 4 counter ++ beBytes 1 level)
  if level < 4 then
    let b := padded nblk (clear ++ bytesBits payload)
    b ++ toBits 32 (beNat (Crypto.ccmMic 4 level key nonce (bitsBytes header) (bitsBytes b)))
  else
    let r := Crypto.ccm 4 key nonce (bitsBytes header) payload
    padded nblk (clear ++ bytesBits r.1) ++ toBits 32 (beNat r.2)

def ZxPurpose.type : ZxPurpose → Nat
  | .time => 0
  | .ack _ => 1
  | .schedule _ => 2
  | .downlink _ _ _ => 3
  | .dist _ => 4

/-- What an outbound frame is sealed with: key, the meter's counter where it is one, clear fields and payload. -/
structure ZxData where
  key : Nat
  counter : Option Nat := none
  clear : List Bool := []
  payload : Bytes := []

/-- Start a frame at a cycle of the phase: its data is complete but for an ACK's, whose key is the phase's. -/
def Dev.zxStart (d : Dev) (f p : Nat) (what : ZxPurpose) (cycle nblk : Nat) (last : Bool) (data : Option ZxData) : Dev :=
  let x := d.zxPhase f p
  let n := x.outCtr
  let flags := 2 * b2n (d.track f p == Zt.holdover) + b2n last
  let header := zxHeader n what.type nblk flags (cycle + 1)
  let head := syncSymbols ++ blockSymbols header
  let level := if what.type = 3 then 5 else 1
  let bits : List Bool := match data with
    | some z => d.zxSealed z.key (z.counter.getD n) level header z.clear z.payload nblk
    | none => []
  let symbols : List Nat := if bits = [] then head else head ++ framedSymbols nblk bits
  let fr : ZxFrame := { purpose := what, counter := n, cycle := cycle, header := header, symbols := symbols, sched := d.reg (R.ZXP_SCHED.at f) }
  let d := d.setZxPhase f p { x with outCtr := (n + 1) % 2 ^ 32, frame := some fr }
  d.emit (.zxFrame f p what.type (bitsBytes (header ++ bits)))

/-- The ciphertext of a DOWNLINK frame: an offer's IE from byte 4, a key transfer's from byte 3 (R267, R302), or the payload. -/
def DlKind.zxBytes (k : DlKind) (ie payload : Bytes) : Bytes :=
  match k with
  | .offer _ => ie.drop 4
  | .key _ => ie.drop 3
  | _ => payload

/-- Whether a meter stands on a phase's channel. -/
def Dev.zxMeters (d : Dev) (f p : Nat) : List (Nat × ZxAssign) :=
  d.dur.ctxs.filterMap fun x => x.2.zx.bind fun z => if z.feeder = f ∧ z.phase = p then some (x.1, z) else none

/-- An offer may go to a ZX-PLC meter: it has not been sent one in the last PERIOD rounds, in which it has one frame slot to answer
(R268; log entry 93). -/
def Dev.zxOfferDue (d : Dev) (f meter : Nat) : DlKind → Bool
  | .offer slot =>
    match Maps.get? (1048576 * slot + meter) d.dst.zxOffers with
    | some r => decide (r + (d.sched f).period < (d.zxFeeder f).round) || decide ((d.zxFeeder f).round < r)
    | none => true
  | _ => true

/-- The DOWNLINK due to a meter on a phase: its kind and number, its ciphertext's plaintext, and its data blocks. -/
def Dev.zxDown? (d : Dev) (f p meter : Nat) : Option (DlKind × Nat × Bytes × Nat) :=
  match d.zxHeld meter, d.downlinkDue meter with
  | some z, some (kind, id, ie, payload) =>
    let body := kind.zxBytes ie payload
    let n := max 2 ((80 + 8 * body.length + 43) / 44)
    let aborts : Bool := match kind with
      | .abort _ => true
      | _ => false
    if z.feeder ≠ f ∨ z.phase ≠ p ∨ aborts ∨ (d.zxPhase f p).served.contains meter ∨ d.zxOfferDue f meter kind = false ∨ 63 < n then none
    else some (kind, id, body, n)
  | _, _ => none

/-- A campaign's members on a phase: each with its record. -/
def Dev.membersAt (d : Dev) (slot place : Nat) : List (Nat × CampMember) :=
  (d.dur.members slot).filter fun m => (Maps.get? m.1 d.dur.ctxs).bind Ctx.place == some place

/-- An abort goes out for a campaign on a phase: it is aborted, or every member there is final and one was removed, so that no other
meter hears it (R265, R282; log entry 94). -/
def Dev.zxAborts (d : Dev) (slot place : Nat) (c : Campaign) : Bool :=
  let ms := d.membersAt slot place
  c.aborted || (ms.all (fun m => m.2.final) && ms.any fun m => m.2.cause == Cc.removed)

/-- The DIST frame due on a phase for a campaign, with its number of data blocks (R275, R276, R282). -/
def Dev.zxDist? (d : Dev) (f p slot : Nat) (c : Campaign) : Option (ZxPurpose × Nat) :=
  let place := zxPlace f p
  if c.state ≠ Cs.active ∨ c.zx = false ∨ d.membersAt slot place = [] then none
  else if d.zxAborts slot place c then some (.dist slot, 2)
  else if (d.rounds slot place).running then some (.dist slot, [3, 5, 8, 14].getD c.zxBlock 14)
  else none

/-- The frames due on a phase at a position of its round, in the order they go, with their data blocks: TIME directly after the ACK
frame, then SCHEDULE, DOWNLINK and one DIST frame, after which no other goes in that period (R109, R275). -/
def Dev.zxDue (d : Dev) (f p pos : Nat) : List (ZxPurpose × Nat) :=
  let x := d.zxPhase f p
  let sc := d.sched f
  let waits := (decide (sc.every ≤ x.sinceTime) || ((d.zxFeeder f).sched.isSome && !x.told)) && !x.timeSent
  let time : List (ZxPurpose × Nat) := if waits ∧ pos = sc.uplink + 194 then [(.time, 4)] else []
  let untold := (d.zxMeters f p).filter fun m => ((Maps.get? m.1 d.dur.ctxs).map (·.zxOld.isSome)).getD false
  let scheds : List (ZxPurpose × Nat) := untold.map fun m => (.schedule m.1, 3)
  let downs : List (ZxPurpose × Nat) := d.dur.ctxs.filterMap fun m =>
    (d.zxDown? f p m.1).map fun y => (ZxPurpose.downlink m.1 y.1 y.2.1, y.2.2.2)
  let dists : List (ZxPurpose × Nat) := d.dur.campaigns.filterMap fun c => d.zxDist? f p c.1 c.2
  if x.distSent then [] else time ++ scheds ++ downs ++ dists

/-- A frame of `n` data blocks that starts at a cycle of the round ends inside it. -/
def ZxSched.fits (x : ZxSched) (n at_ : Nat) : Bool := decide (at_ + zxCycles n ≤ x.round)

/-- FLAGS bit 0 (R117): no frame now due fits after one that ends at a cycle of the round. -/
def Dev.zxLast (d : Dev) (f p end_ : Nat) : Bool := (d.zxDue f p end_).all fun x => !(d.sched f).fits x.2 end_

/-- Where in its round a phase can start a frame: it sends, none is in progress, and the ACK frame is over. -/
def Dev.zxPos (d : Dev) (f p : Nat) : Option Nat :=
  let x := d.zxPhase f p
  let sc := d.sched f
  let base := (d.zxFeeder f).round * sc.round
  if d.zxSends f p = false ∨ x.frame.isSome ∨ x.cycle < base + sc.uplink + 194 then none else some (x.cycle - base)

/-- R117, R196, R199: the DOWNLINK frame of a meter starts now, where its phase can and it fits, under its resident key set. -/
def Dev.zxDownlink (d : Dev) (f p meter : Nat) : Dev :=
  match d.zxPos f p, d.zxDown? f p meter, d.residentSet meter false, d.zxHeld meter with
  | some pos, some (kind, id, body, n), some k, some z =>
    if (d.zxPhase f p).distSent ∨ (d.sched f).fits n pos = false then d
    else
      match d.takeCounter meter with
      | (none, d) => d
      | (some ctr, d) =>
        let x := d.zxPhase f p
        let d := d.setZxPhase f p { x with served := x.served ++ [meter] }
        let d := match kind with
          | .offer slot =>
            { d with dst := { d.dst with zxOffers := Maps.put d.dst.zxOffers (1048576 * slot + meter) (d.zxFeeder f).round } }
          | _ => d
        let clear := toBits 12 z.slot ++ toBits 4 z.channel ++ toBits 32 ctr
        d.zxStart f p (.downlink meter kind id) x.cycle n (d.zxLast f p (pos + zxCycles n))
          (some { key := k.link, counter := some ctr, clear := clear, payload := body })
  | _, _, _, _ => d

end Sys2Proof.Machine
end

