-- ==== Sys2Proof/Machine/Jobs.lean ====
section
/-! DEFINITION. What work items without a frame of their own do (R196, R199): downlinks, METER_REQUEST ciphering, object requests and
METER_CANCEL. -/

namespace Sys2Proof.Machine

/-- R301: the candidate of a meter is removed, on a synchronised standby first; the command ends. -/
def Dev.cancelKey (d : Dev) (meter : Nat) : Dev :=
  let k := d.meterKeys meter
  if k.cand.isNone then d.keyDone Kr.noCandidate
  else d.pairDo { recs := [.keys meter { k with cand := none, deliver := false, tries := 0 }], finish := .key }

/-- A key set moved from one STORE_KEK slot to another (R298); one that no longer unwraps stays. -/
def Dev.moveSet (d : Dev) (src : Nat) (w : WorkKey) (dst : Nat) (k : Option KeySet) : Option KeySet :=
  k.map fun k => if k.kekSlot = src ∧ (d.unwrapSet k).isSome then { k with kekSlot := dst, under := w.key } else k

/-- The STORE_KEK keys of the REWRAP under way: its source slot, target slot, and the target's working key. -/
def Dev.rewrapKeys (d : Dev) : Option (Nat × Nat × WorkKey) :=
  d.dur.rewrap.bind fun r => (d.workKey Kind.storeKek r.2.1).map fun w => (r.1, r.2.1, w)

/-- R298: a meter's current and candidate sets move, and its index is passed. -/
def Dev.rewrapMeter (d : Dev) (meter : Nat) : Dev :=
  match d.rewrapKeys with
  | none => d
  | some (src, dst, w) =>
    let k := d.meterKeys meter
    let new := { k with cur := d.moveSet src w dst k.cur, cand := d.moveSet src w dst k.cand }
    let d := if new = k then d else d.journal (.keys meter new)
    { d with dur := { d.dur with rewrap := some (src, dst, meter + 1) } }.set F.KEY_REWRAP_DONE (meter + 1)

/-- R298: after the meters, class keys and head keys move; then a checkpoint is awaited. -/
def Dev.rewrapEnd (d : Dev) : Dev :=
  match d.rewrapKeys with
  | none => d
  | some (src, dst, w) =>
    let mv := d.moveSet src w dst
    let pair (k : KeyPair) : KeyPair := { cur := mv k.cur, cand := mv k.cand }
    let aks := d.dur.classAks.filter fun p => decide (pair p.2 ≠ p.2)
    let heads := d.dur.headKeys.filter fun p => decide (pair p.2 ≠ p.2)
    let d := aks.foldl (fun d p => d.journal (.classAk p.1 (pair p.2))) d
    let d := heads.foldl (fun d p => d.journal (.headKey p.1 (pair p.2))) d
    ({ d with dur := { d.dur with rewrap := some (src, dst, 1048576) } }.set F.KEY_REWRAP_DONE 1048576).set F.KEY_REWRAP_RUNNING 0

/-- What an item without a frame does once it holds what it takes: a downlink's lane encrypts. -/
def Dev.runJob (d : Dev) (meter : Nat) : DlJob → Dev
  | .window addr endNs k ack =>
    match d.window? addr endNs with
    | some w => d.useWindow w k ack
    | none => d
  | .wake k => d.sendWake meter k
  | .notice pos pan addr counter endNs => d.noticeOut meter pos pan addr counter endNs
  | .forward pos pan t0 w => d.forwardDownlink meter pos pan t0 w
  | .cipher id => d.cipherDown meter id
  | .zx f p => d.zxDownlink f p meter
  | .view ring => if d.viewMeter? ring = some meter then d.serveView ring meter else d
  | .cancel => d.cancelKey meter
  | .rewrap => d.rewrapMeter meter

end Sys2Proof.Machine
end

