-- ==== Sys2Proof/Machine/Ingest.lean ====
section
/-! DEFINITION. Ingress staging and admission (R153 to R157), and the ranked resources of an ingest work item (R196 to
R202). A resource that is free is granted at once; RESOURCE_GRANT is the grant of one that was waited for. -/

namespace Sys2Proof.Machine

/-! ## Staging -/

/-- Staging slots of a frame (R153). -/
def MeterFrame.slots (f : MeterFrame) : Nat := (f.raw.length + 32 + 255) / 256

/-- Slots of a pool: general, ZX-PLC reserve, Runner reserve (R153). -/
def poolSize : Nat → Nat
  | 0 => 1728
  | 1 => 64
  | _ => 256

/-- The pool a frame of a source goes into: its own reserve, then the general slots (R153). -/
def Engine.poolFor (e : Engine) (source slots : Nat) : Option Nat :=
  let room (p : Nat) : Bool := decide (e.slotsUsed (some p) + slots ≤ poolSize p)
  if room source then some source else if room 0 then some 0 else none

/-- The device commits work: it serves meters, and holds no power fail or reset (R371, R406). -/
def Dev.commits (d : Dev) : Bool := d.serves && !d.glb.powerFail && !d.glb.inReset

/-- The device admits frames now; a commanded handover stops admission (R155, R415). -/
def Dev.takesFrames (d : Dev) : Bool := d.commits && d.prl.handover.isNone

/-- Frames are refused as under HOLD (R155): HOLD itself, the locked states (R310), time not valid (R333), an unformatted
array (R490). -/
def Dev.holding (d : Dev) : Bool :=
  d.flag F.ING_CTRL_HOLD || d.keyLocked || !d.timeValid || d.media == Media.unformatted

/-- GLB_INT_STATUS.READY at the first frame admitted, with the ms since RESET_N release. -/
def Dev.readyNow (d : Dev) : Dev :=
  if d.glb.ready then d
  else
    let ms := satNat 16 ((d.cycles - d.glb.released) / 1228800)
    ({ d with glb := { d.glb with ready := true } }.set F.GLB_BOOT_READY_MS ms).raise F.GLB_INT_STATUS_READY

/-- The content of a frame's first vendor-specific header IE of a subtype, after VENDOR and SUBTYPE (R98, R273). -/
def Dev.ieOf (d : Dev) (f : MeterFrame) (subtype : Nat) : Option Bytes :=
  (f.ies.find? fun b => b.take 4 == d.vendorIe subtype).map fun b => b.drop 4

/-- R273: a status report's content from CAMPAIGN on; none where it is cut short or lists more than 16 ranges. -/
def statusOf (b : Bytes) : Option StatusIe :=
  let n := b.u8 8
  if b.length < 9 + 5 * n ∨ 16 < n then none
  else
    let s := b.u8 4
    some {
      campaign := b.le 0 4, state := s % 8, cause := s / 8 % 16, truncated := s.testBit 7, received := b.le 5 3
      ranges := (List.range n).map fun i => (b.le (9 + 5 * i) 3, b.le (12 + 5 * i) 2) }

/-- A radio frame with what the device reads from its header IEs: ELAPSED with SYNC_ID, and the status report. -/
def Dev.readIes (d : Dev) (f : MeterFrame) : MeterFrame :=
  { f with
    driftIe := (d.ieOf f 3).bind fun b => if b.length = 5 then some (b.u8 0, b.le 1 4) else none
    statusIe := (d.ieOf f 6).bind statusOf }

/-- R156: a PAN ID that belongs to a cell of this device or to another bucket owner. -/
def Dev.knownPan (d : Dev) (pan : Nat) : Bool :=
  d.dur.heads.any (fun p => (Config.cellPan p.1).toNat == pan) || Config.otherPan pan

/-- Start a meter's next ingest item. -/
def Dev.beginItem (d : Dev) (f : Staged0) : Dev :=
  let c := Maps.get? f.meter d.dur.ctxs
  let w : Work := { kind := .ingest, staged := f, stage := .wantContext, held := [], cls := (c.map (·.cls)).getD 0
                    cal := (c.map d.trellis.instOf).getD 0, since := d.cycles }
  { d with eng := { d.eng with flight := Maps.put d.eng.flight f.meter w } }

/-- An item's place for a frame where it has none: it holds no staging slot. -/
def noFrame (meter : Nat) : Staged0 :=
  { frame := { medium := 0, raw := [], address := 0, mbus := false, counter := 0, security := 0, mic := 0, aad := [], cipher := [] }
    source := 0, via := 0, rxSec := 0, rxNs := 0, endNs := 0, meter := meter, slots := 0 }

/-- The kind of an item without a frame. -/
def DlJob.kind : DlJob → WorkKind
  | .view _ => .objectRequest
  | .cancel => .keyCommit
  | .rewrap => .keyCommit
  | _ => .downlink

/-- Start an item without a frame. METER_CANCEL and REWRAP take no ranked resource. -/
def Dev.beginDown (d : Dev) (meter : Nat) (j : DlJob) : Dev :=
  let w : Work := {
    kind := j.kind, staged := noFrame meter, stage := if j = .cancel ∨ j = .rewrap then .crypto else .wantContext, held := [], job := some j
    since := d.cycles, verified := true }
  { d with eng := { d.eng with flight := Maps.put d.eng.flight meter w } }

/-- Put a work item; `since` tells how long its present stage or fetch lasts. -/
def Dev.setWork (d : Dev) (meter : Nat) (w : Work) : Dev :=
  let old := Maps.get? meter d.eng.flight
  let same := decide (old.map (·.stage) = some w.stage) && decide (old.map (·.fetching) = some w.fetching)
  let w := if same then w else { w with since := d.cycles }
  { d with eng := { d.eng with flight := Maps.put d.eng.flight meter w } }.showIng

/-! ## Ranked resources -/

/-- Data-plane crypto lanes in use (R197). -/
def Engine.lanesBusy (e : Engine) : Nat := (e.flight.filter fun p => p.2.held.contains 3).length

/-- A wait begins: SET_FULL or KEY_SET_FULL once for the acquisition (R202). -/
def Dev.waitSet (d : Dev) (meter : Nat) (w : Work) (x : Fld) : Dev :=
  if w.waited then d
  else ((d.count R.CTX_CNT_n 10).raise x (meter % 4096) meter).setWork meter { w with waited := true }

/-- The stage after rank 1: an object request takes no more (R199), and a retried item with its reading built goes on at rank 4. -/
def Work.afterContext (w : Work) : Stage :=
  if w.kind = .objectRequest then .crypto else if w.reading.isSome then .wantRing else .wantKey

/-- R191, rank 1: a resident context is held; a missing one is fetched into a way of its set. -/
def Dev.wantContext (d : Dev) (meter : Nat) (w : Work) : Dev :=
  if w.fetching then d
  else if d.eng.resident meter then
    (d.touchCtx meter).setWork meter { w with stage := w.afterContext, held := [1], waited := false }
  else
    let d := if w.waited then d else d.count R.CTX_CNT_n 0
    match d.bringCtx meter false with
    | some d => d.setWork meter { w with fetching := true, waited := false }
    | none => d.waitSet meter w F.CTX_INT_STATUS_SET_FULL

/-- The key sets of a meter to make resident: current, and candidate (R161, R198). -/
def Dev.keySets (d : Dev) (meter : Nat) : List (Bool × KeySet) :=
  let k := d.meterKeys meter
  (k.cur.map fun x => (false, x)).toList ++ (k.cand.map fun x => (true, x)).toList

/-- Ways of a meter that hold another set than its descriptors name go. -/
def Dev.dropStale (d : Dev) (meter : Nat) : Dev :=
  let sets := d.keySets meter
  { d with eng := { d.eng with keys := d.eng.keys.filter fun p => p.2.meter != meter || sets.contains (p.2.cand, p.2.keys) } }

/-- R193, R194, rank 2: both ways of a meter with a candidate in one request. -/
def Dev.wantKey (d : Dev) (meter : Nat) (w : Work) : Dev :=
  if w.fetching then d
  else
    let d := d.dropStale meter
    let missing := (d.keySets meter).filter fun x => (d.eng.keyWay? meter x.1).isNone
    if missing = [] then (d.holdKeys meter).setWork meter { w with stage := .wantLane, held := 2 :: w.held, waited := false }
    else
      let d := if w.waited then d else d.countBy R.CTX_CNT_n 2 missing.length
      let take (a : Option Dev) (x : Bool × KeySet) : Option Dev := a.bind fun d => d.reserveKey meter x.1 x.2
      match missing.foldl take (some (d.holdKeys meter)) with
      | some d => d.setWork meter { w with fetching := true, waited := false, held := 2 :: w.held }
      | none => d.waitSet meter w F.CTX_INT_STATUS_KEY_SET_FULL

/-- Rank 3: an AES-GCM lane. -/
def Dev.wantLane (d : Dev) (meter : Nat) (w : Work) : Dev :=
  if d.eng.lanesBusy < 14 then d.setWork meter { w with stage := .crypto, held := 3 :: w.held } else d

/-- Words promised on a ring: records of items past step 5, and records not yet written (R199). -/
def Dev.promised (d : Dev) (ring : Nat) : Nat :=
  ((d.eng.flight.filterMap fun p => p.2.ring).filter (·.1 == ring) |>.map (·.2)).sum +
    ((d.eng.records.filter (·.ring == ring)).map fun r => recordWords r.ecdsa).sum

/-- The record's ring and words: none where the commit emits no record (R171, R274). -/
def Work.recordRing (d : Dev) (w : Work) : Option (Nat × Bool) :=
  match w.reading with
  | some r =>
    if r.noRecord ∨ r.statusOnly then none
    else
      let ring := (((w.old.getD d.trellis).class? w.cls).map (·.ring)).getD 0
      some (ring, d.ecdsaRecord ring r.body.count)
  | none => none

/-- Rank 4: room for the record on its ring. -/
def Dev.wantRing (d : Dev) (meter : Nat) (w : Work) : Dev :=
  match w.recordRing d with
  | none => d.setWork meter { w with stage := .wantJournal }
  | some (ring, ecdsa) =>
    let n := recordWords ecdsa
    if d.promised ring + n ≤ d.face.ringFree ring then
      d.setWork meter { w with stage := .wantJournal, ring := some (ring, n), held := 4 :: w.held }
    else d

/-- R154, R192, R199: end an item and release everything it holds; a PIN that waits for a way is tried again. -/
def Dev.endWork (d : Dev) (meter : Nat) : Dev :=
  let d := (({ d with eng := { d.eng with flight := Maps.del meter d.eng.flight } }).releaseKeys meter).showIng
  match d.eng.pinning with
  | some i => d.tryPin i
  | none => d

/-- The resources of ranks 1 to 4 that are free, one after the other. An item without a frame ends once it has done its work
(R199). -/
def Dev.advance : Nat → Nat → Dev → Dev
  | 0, _, d => d
  | k + 1, meter, d =>
    match Maps.get? meter d.eng.flight with
    | none => d
    | some w =>
      match w.stage, w.job with
      | .crypto, some j => (d.runJob meter j).endWork meter
      | _, _ =>
        let d' := match w.stage with
          | .wantContext => d.wantContext meter w
          | .wantKey => d.wantKey meter w
          | .wantLane => d.wantLane meter w
          | .wantRing => d.wantRing meter w
          | _ => d
        if (Maps.get? meter d'.eng.flight).map (·.stage) = some w.stage then d' else Dev.advance k meter d'

/-- Nothing of a meter is in flight, waits before new work, or is being freed (R157, R190, R196). -/
def Dev.idleMeter (d : Dev) (meter : Nat) : Bool :=
  !Maps.has d.eng.flight meter && !d.eng.freeing.contains meter && decide (d.queued meter = 0)

/-- R196, R199: work of a meter without a frame becomes its work item, or waits. -/
def Dev.startDown (d : Dev) (meter : Nat) (j : DlJob) : Dev :=
  if d.idleMeter meter then Dev.advance 4 meter (d.beginDown meter j).showIng else d.queueJob meter j

/-- Put a frame into staging, and admit it where its meter is idle (R153 to R157, R423). A PAN ID of no cell is looked at first. -/
def Dev.stage (d : Dev) (f : Staged0) : Dev :=
  let slots := f.frame.slots
  if d.takesFrames = false then d
  else if d.holding then d.count R.ING_CNT_n 1
  else
    match d.eng.poolFor f.source slots with
    | none => (d.count R.ING_CNT_n 1).raise F.ING_INT_STATUS_STAGING_FULL f.via f.source
    | some pool =>
      let d := (d.count R.ING_CNT_n 0).readyNow
      if f.frame.medium = 0 ∧ d.knownPan f.frame.destPan = false then d.count R.ING_CNT_n 16
      else if d.ownsAddr f.frame.address = false then d.forwardUp f
      else
        match d.ctxOf? f.frame.address f.frame.mbus with
        | none =>
          let a := beBytes 8 f.frame.address
          (d.count R.ING_CNT_n 2).raise F.ING_INT_STATUS_UNKNOWN_METER (a.le 0 4) (a.le 4 4)
        | some meter =>
          let f := { f with meter := meter, slots := slots, pool := pool, off := d.signedFld F.TSU_UTC_OFFSET }
          if d.idleMeter meter then Dev.advance 4 meter (d.beginItem f).showIng
          else { d with eng := { d.eng with staging := d.eng.staging ++ [f] } }.showIng

/-- The meter's waiting work that came first: an item without a frame before which no staged frame of it waits, or its oldest
frame. -/
def Dev.admitNext (d : Dev) (meter : Nat) : Dev :=
  match d.eng.downs.find? (·.1 == meter), d.eng.staging.find? (·.meter == meter) with
  | some (m, j, 0), _ =>
    Dev.advance 4 meter ({ d with eng := { d.eng with downs := d.eng.downs.erase (m, j, 0) } }.beginDown meter j).showIng
  | some (m, j, n), none =>
    Dev.advance 4 meter ({ d with eng := { d.eng with downs := d.eng.downs.erase (m, j, n) } }.beginDown meter j).showIng
  | _, some f =>
    if d.takesFrames then
      let passed (x : Nat × DlJob × Nat) : Nat × DlJob × Nat := if x.1 = meter then (x.1, x.2.1, x.2.2 - 1) else x
      let e := d.eng
      Dev.advance 4 meter ({ d with eng := { e with staging := e.staging.erase f, downs := e.downs.map passed } }.beginItem f).showIng
    else d
  | none, none => d

/-- R196, R298: the meters of a REWRAP in turn, from the index passed so far on: each is a work item, and one that is busy is waited
for. -/
def Dev.rewrapRun : List Nat → Dev → Dev
  | [], d => d.rewrapEnd
  | m :: ms, d =>
    if d.eng.downs.any (fun x => x.1 == m && x.2.1 == .rewrap) then d
    else if d.idleMeter m then Dev.rewrapRun ms (d.startDown m .rewrap)
    else d.queueJob m .rewrap

/-- R298: REWRAP goes on. -/
def Dev.rewrapOn (d : Dev) : Dev :=
  match d.dur.rewrap with
  | some r =>
    if d.flag F.KEY_REWRAP_RUNNING = false then d
    else Dev.rewrapRun ((d.dur.keys.map (·.1)).filter fun m => decide (r.2.2 ≤ m)) d
  | none => d

/-- R298: after a restart REWRAP resumes from the progress that the checkpoint holds. -/
def Dev.rewrapResume (d : Dev) : Dev :=
  match d.dur.rewrap with
  | some r =>
    if r.2.2 = 1048576 ∨ d.rewrapKeys.isNone then d
    else ((d.set F.KEY_REWRAP_RUNNING 1).set F.KEY_REWRAP_DONE r.2.2).rewrapOn
  | none => d

/-- R298: REWRAP. The command ends as the move begins; REWRAP_DONE follows when a checkpoint covers its end (log entry 20). -/
def execRewrap (slot : Nat) (s : State) : Answer :=
  s.on fun d => d.keyCmd false false fun d =>
    let dst := d.get F.KEY_CMD_ARG_TARGET
    if (d.workKey Kind.storeKek slot).isNone ∨ (d.workKey Kind.storeKek dst).isNone then d.keyDone Kr.wrongKind
    else
      let d := { d with
        dur := { d.dur with rewrap := some (slot, dst, 0) }
        eng := { d.eng with downs := d.eng.downs.filter fun x => x.2.1 != DlJob.rewrap } }
      (((d.set F.KEY_REWRAP_RUNNING 1).set F.KEY_REWRAP_DONE 0).rewrapOn).keyDone Kr.ok

/-- R157, R190, R196: the meter's item has ended: a waiting FREE, or what came first of its other waiting work. -/
def execWorkItemAdmit (meter : Nat) (s : State) : Answer :=
  s.on fun d =>
    if Maps.has d.eng.flight meter then d
    else if d.eng.freeing.contains meter then if d.flag F.CTX_CMD_BUSY then d else (d.freeCtx meter).rewrapOn
    else (d.admitNext meter).rewrapOn

/-- R196, R301: METER_CANCEL, a work item of the meter: it waits while one is in flight. -/
def execMeterCancel (meter : Nat) (s : State) : Answer :=
  s.on fun d => d.keyCmd false false fun d =>
    if (Maps.get? meter d.dur.ctxs).isNone then d.keyDone Kr.notAllocated
    else if d.idleMeter meter then d.startDown meter .cancel
    else (d.startDown meter .cancel).set F.KEY_CMD_BUSY 1

/-- R191: a context fetched from LPDDR5 is resident. -/
def execContextFetchDone (meter : Nat) (s : State) : Answer :=
  s.on fun d =>
    let d := { d with eng := { d.eng with cache := Maps.modify d.eng.cache meter fun w => { w with ready := true } } }.showCtx
    match Maps.get? meter d.eng.flight with
    | some w => if w.stage = .wantContext ∧ w.fetching then Dev.advance 4 meter (d.setWork meter { w with fetching := false }) else d
    | none => d

/-- R194, R306: the fill port writes a key set into its reserved way. A failed integrity value or KCV discards the
fill. -/
def execKeyCacheFillDone (meter : Nat) (cand : Bool) (s : State) : Answer :=
  s.on fun d =>
    match Maps.get? meter d.eng.flight, d.eng.keyWay? meter cand with
    | some w, some (way, k) =>
      if w.fetching = false ∨ w.stage ≠ .wantKey ∨ k.filled then d
      else
        let good := (d.unwrapSet k.keys).isSome && kcvOf 16 k.keys.link == k.kcv
        let put (ks : List (Nat × KeyWay)) : List (Nat × KeyWay) :=
          if good then Maps.put ks way { k with filled := true } else Maps.del way ks
        let d := { d with eng := { d.eng with keys := put d.eng.keys } }
        let d :=
          if good then (d.count R.CTX_CNT_n 3).count R.KEY_CNT_n 0
          else (d.count R.KEY_CNT_n 1).raise F.KEY_INT_STATUS_KEY_CORRUPT meter
        let d := d.showCtx
        if d.eng.keys.any (fun p => p.2.meter == meter && !p.2.filled) then d
        else Dev.advance 4 meter (d.setWork meter { w with fetching := false, stage := .wantLane })
    | _, _ => d

end Sys2Proof.Machine
end

