-- ==== Sys2Proof/Machine/Commit.lean ====
section
/-! DEFINITION. The journal append and the commit of an ingest item (R171 to R176), the rest of its resource waits (R198 to
R201), and block-transfer reassembly (R166). -/

namespace Sys2Proof.Machine

/-- What applying a reading takes, with the sections the item was admitted under (R51). -/
def Dev.workEnv (d : Dev) (w : Work) : ReadEnv := { d.readEnv with trellis := w.old.getD d.trellis }

/-- R166: held blocks go, and the discard is counted. -/
def Dev.dropBlocks (d : Dev) (meter : Nat) : Dev :=
  if Maps.has d.eng.reassembly meter then
    ({ d with eng := { d.eng with reassembly := Maps.del meter d.eng.reassembly } }.count R.ING_CNT_n 15).raise
      F.ING_INT_STATUS_REASSEMBLY_DISCARD meter
  else d

/-- R166, R182: REASSEMBLY has passed since the first block. -/
def execReassemblyTimeout (meter : Nat) (s : State) : Answer :=
  s.on fun d =>
    match Maps.get? meter d.eng.reassembly with
    | some r => if r.since + cyclesOf (1000000 * d.get F.ING_TIMEOUT_REASSEMBLY) < d.cycles then d.dropBlocks meter else d
    | none => d

/-- R450: the response a request waits for, decrypted, or the meter's exception. -/
def Dev.answerRequest (d : Dev) (meter : Nat) (p : Bytes) : Dev :=
  let service := serviceOf p
  let answers (q : MeterReq) : Bool :=
    q.meter == meter && (service == .exception ||
      (([Service.getResponse, .setResponse, .actionResponse] : List Service).contains service && q.invokeId == p.u8 2 % 16))
  match d.face.hst.requests.find? answers with
  | none => d
  | some q =>
    let left := d.face.hst.requests.filter fun x => x.meter != meter
    let d := { d with face := { d.face with hst := { d.face.hst with requests := left } } }
    let gone (x : Downlink) : Bool := x.meter == meter && x.kind == .request q.tag
    let d := { d with fhm := { d.fhm with downlinks := d.fhm.downlinks.filter fun x => !gone x } }
    d.respond q.respRing 2 (if service = .exception then 0x0C else 0) q.tag (leBytes 4 meter ++ p)

/-- R24, R172 to R176: the commit is complete: the acknowledgement may go, the record is queued for its tag or signature,
the events of its EVENT nodes are raised. -/
def Dev.commitItem (d : Dev) (meter : Nat) : Dev :=
  match Maps.get? meter d.eng.flight with
  | none => d
  | some w =>
    match w.reading with
    | none => d.endWork meter
    | some r =>
      let d := d.count R.ING_CNT_n 11
      let d := d.accept w.staged r.counters
      let d := match w.recordRing d with
        | some (ring, ecdsa) =>
          d.queueRecord { seq := r.body.seq, ring := ring, body := r.body, ecdsa := ecdsa, done := none, replay := false }
        | none => d
      let d := d.endWork meter
      let d := w.parsed.events.foldl (fun d e => d.occur e.1 4 e.2.1 meter) d
      let d := match w.report, w.staged.frame.statusIe, w.before with
        | some (slot, reverted), some ie, some old => d.reportDone slot meter old ie reverted r.body.seq r.body.tsSec
        | _, _, _ => d
      let d := if w.apdu.isNone ∨ w.reject = Rej.dlms ∨ w.refused ≠ 0 then d else d.answerRequest meter w.payload
      let d := if w.blocks = [] then d.dropBlocks meter else { d with eng := { d.eng with reassembly := Maps.del meter d.eng.reassembly } }
      if r.classAk then (d.count R.KEY_CNT_n 3).raise F.KEY_INT_STATUS_METER_KEY_COMMITTED meter else d

/-- The campaign report of a reading, as its journal record carries it (R266). -/
def Dev.reportRec (d : Dev) (meter : Nat) (w : Work) : Option (Nat × CampMember × (Nat × Nat × Nat × Nat)) :=
  match w.report, w.staged.frame.statusIe with
  | some (slot, _), some ie =>
    match Maps.get? slot d.dur.campaigns, d.dur.campMember? slot meter with
    | some c, some m =>
      let n := c.reported d.tsu.sec m ie.state ie.cause ie.received
      some (slot, m, (slot, n.state, n.cause, n.received))
    | _, _ => none
  | _, _ => none

/-- R161, R304: what a reading commits of keys shows, and the caches follow. -/
def Dev.keysCommitted (d : Dev) (r : ReadingRec) : Dev :=
  if r.candKey then
    let d := ((d.dropKeys r.meter).count R.KEY_CNT_n 3).raise F.ING_INT_STATUS_KEY_COMMITTED r.meter
    d.raise F.KEY_INT_STATUS_METER_KEY_COMMITTED r.meter
  else d

/-- R229, R244, R260: what only the append shows: shares that are late by now, and a period that has closed since the billing step. -/
def Dev.appendNote (d : Dev) (r : ReadingRec) (n : ReadNote) : ReadingRec × Dev :=
  let d := d.countBy R.BAL_CNT_n 3 n.lateShares
  if n.bill.late ∧ r.body.quality / Qual.late % 2 = 0 then
    ({ r with body := { r.body with quality := r.body.quality + Qual.late } }, (d.count R.BIL_CNT_n 2).raise F.BIL_INT_STATUS_LATE r.meter)
  else (r, d)

/-- R172, R364: append the reading under the next sequence number, in the cycle of the append. Its effect, the record's
place in the archive and the mirror entry go with it. Without a synchronised standby the append commits (R24). -/
def Dev.appendReading (d : Dev) (meter : Nat) (w : Work) : Dev :=
  match w.reading with
  | none => d
  | some r =>
    let rep := d.reportRec meter w
    let body := { r.body with seq := d.dur.seqNext }
    let r : ReadingRec := { r with body := body, campaign := rep.map fun x => x.2.2 }
    let (r, d) := d.appendNote r (d.dur.reading (d.workEnv w) r true).2
    let paired := d.standbySynced
    match d.append (.reading r) with
    | (line, d) =>
      let d := { d with dur := (d.dur.reading (d.workEnv w) r true).1, jnl := { d.jnl with lastSeq := body.seq } }
      let d := match w.recordRing d with
        | some (ring, ecdsa) =>
          d.archive { seq := body.seq, ring := ring, ecdsa := ecdsa }
        | none => d
      let d := d.keysCommitted r
      let d := d.setWork meter { w with reading := some r, stage := .mirror, line := line, held := 5 :: w.held, before := rep.map (·.2.1) }
      if paired then d else d.commitItem meter

/-- Rank 5: journal space; the grant is the append (R199, step 6). -/
def Dev.wantJournal (d : Dev) (meter : Nat) (w : Work) : Dev :=
  let size := (w.recordRing d).map fun x => recordBytes x.2
  if d.commits = false then d.endWork meter
  else if d.journalRoom size then (d.stall false).appendReading meter w
  else
    -- Step 4 of R360, once in an episode.
    let full : Bool := match size with
      | some n => d.archPlace n == .overflow && !d.overflowTakes n
      | none => false
    (if full ∧ d.flag F.JNL_STATUS_STALL = false then d.raise F.JNL_INT_STATUS_OVERFLOW_FULL else d).stall true

/-- Grant what an item can get now, up to its append. -/
def Dev.run (d : Dev) (meter : Nat) : Dev :=
  let d := Dev.advance 4 meter d
  match Maps.get? meter d.eng.flight with
  | some w => if w.stage = .wantJournal then d.wantJournal meter w else d
  | none => d

/-- R198: a ranked resource that an item waits for is granted. -/
def execResourceGrant (meter : Nat) (s : State) : Answer := s.on fun d => d.run meter

/-- The rank an item waits for. -/
def Stage.rank : Stage → Option Nat
  | .wantContext => some 1
  | .wantKey => some 2
  | .wantLane => some 3
  | .wantRing => some 4
  | .wantJournal => some 5
  | _ => none

/-- R200, R202: a wait reaches its deadline: counted against its rank. Everything held is released, and the item starts
again after the retry delay. -/
def Dev.expire (d : Dev) (meter : Nat) (w : Work) (rank : Nat) : Dev :=
  let d := d.count R.CTX_CNT_n (match rank with | 3 => 6 | 4 => 7 | 5 => 8 | _ => 5)
  let ring := ((w.recordRing d).map (·.1)).getD 0
  let d := d.raise F.CTX_INT_STATUS_WAIT_TIMEOUT rank meter
  let d := match rank with
    | 4 => d.raise F.CTX_INT_STATUS_RING_STALL ring meter
    | 5 => d.raise F.CTX_INT_STATUS_JOURNAL_STALL meter
    | _ => d
  let d := d.releaseKeys meter
  let ks := d.eng.keys.filter fun p => p.2.meter != meter || p.2.filled
  let d := { d with eng := { d.eng with keys := ks } }.showCtx
  d.setWork meter { w with stage := .retry, held := [], ring := none, fetching := false, waited := false }

/-- The deadline of a rank's wait, in µs (CTX_WAIT_A to CTX_WAIT_C). -/
def Dev.rankWait (d : Dev) (rank : Nat) : Nat :=
  match rank with
  | 1 => d.get F.CTX_WAIT_A_CONTEXT
  | 2 => d.get F.CTX_WAIT_A_KEY
  | 3 => d.get F.CTX_WAIT_B_LANE
  | 4 => d.get F.CTX_WAIT_B_RING
  | _ => d.get F.CTX_WAIT_C_JOURNAL

/-- R200, R211: a wait reaches its deadline. A resource that is free is granted before that counts as an expiry. -/
def execResourceWaitTimeout (meter : Nat) (s : State) : Answer :=
  s.on fun d =>
    match Maps.get? meter d.eng.flight with
    | none => d
    | some w =>
      match w.stage.rank with
      | none => d
      | some r =>
        if d.cycles ≤ w.since + cyclesOf (d.rankWait r) then d
        else
          let d := if w.fetching then d else d.run meter
          match Maps.get? meter d.eng.flight with
          | some x => if x.stage = w.stage ∧ x.fetching = w.fetching ∧ x.job = w.job then d.expire meter x r else d
          | none => d

/-- R200: the retry delay has passed: the item starts its acquisitions again. A frame that has passed its security check
keeps its reading (R154). -/
def execResourceRetry (meter : Nat) (s : State) : Answer :=
  s.on fun d =>
    match Maps.get? meter d.eng.flight with
    | some w => if w.stage = .retry then (d.setWork meter { w with stage := .wantContext }).run meter else d
    | none => d

/-- R173, R182: MIRROR_WAIT passes without the confirmation: the standby counts as unsynchronised, and the completed append is
the commit, for this reading and every other that waits. -/
def execMirrorWaitExpire (s : State) : Answer :=
  s.on fun d =>
    let waiting := d.eng.flight.filter fun p => p.2.stage == .mirror
    let late (w : Work) : Bool := decide (w.since + cyclesOf (1000 * d.get F.ING_TIMEOUT_MIRROR_WAIT) < d.cycles)
    if waiting.all fun p => !late p.2 then d
    else
      let d := d.raise F.ING_INT_STATUS_MIRROR_LOST
      let d := { d with prl := { d.prl with unsynced := true } }.showIng
      (waiting.map (·.1)).foldl Dev.commitItem d

end Sys2Proof.Machine
end

