-- ==== Sys2Proof/Machine/PtpFrame.lean ====
section
/-! DEFINITION. PTP messages as they leave a port (R324, R327): the message of IEEE 1588-2019, its transport, its UDP checksum and
its FCS. What the standards fix and the spec does not restate is log entry 11's. -/

namespace Sys2Proof.Machine

/-- Message types of `PtpMsg`. -/
def Pt.sync : Nat := 0
def Pt.delayReq : Nat := 1
def Pt.pdelayReq : Nat := 2
def Pt.pdelayResp : Nat := 3
def Pt.followUp : Nat := 8
def Pt.delayResp : Nat := 9
def Pt.pdelayFollowUp : Nat := 10
def Pt.announce : Nat := 11

/-- The portIdentity of a port: the clockIdentity and the port's number from 1. -/
def ptpSource (n : Nat) : Nat := Config.ptpIdentity.toNat * 65536 + (n + 1)

/-- A time-stamp field: the 48-bit seconds and 32-bit nanoseconds of an instant in 2^-16 ns. -/
def timestampBytes (stamp : Int) : Bytes :=
  let ns := (stamp / 65536).toNat
  beBytes 6 (ns / 1000000000) ++ beBytes 4 (ns % 1000000000)

/-- The correctionField of a message: what its time-stamp field drops below 1 ns is added where the stamp is a departure and taken
off where it is an arrival. -/
def PtpMsg.corrected (m : PtpMsg) : Int :=
  if [Pt.sync, Pt.followUp, Pt.pdelayFollowUp].contains m.type then m.correction + m.stamp % 65536
  else if [Pt.delayResp, Pt.pdelayResp].contains m.type then m.correction - m.stamp % 65536
  else m.correction

/-- flagField: twoStepFlag, and an Announce's leap, offset, timescale and traceability flags. -/
def PtpMsg.flags (m : PtpMsg) : Bytes :=
  let low := match m.ann with
    | some a => b2n a.leap61 + 2 * b2n a.leap59 + 4 * b2n a.utcValid + 8 * b2n a.ptpTimescale + 16 * b2n a.timeTraceable +
        32 * b2n a.frequencyTraceable
    | none => 0
  beBytes 1 (2 * b2n m.twoStep) ++ beBytes 1 low

/-- controlField. -/
def PtpMsg.control (m : PtpMsg) : Nat :=
  if m.type = Pt.sync then 0 else if m.type = Pt.delayReq then 1 else if m.type = Pt.followUp then 2
  else if m.type = Pt.delayResp then 3 else 5

/-- What follows a message's header: a time-stamp, with the requester of an answer, or an Announce's data set. -/
def PtpMsg.body (m : PtpMsg) : Bytes :=
  match m.ann with
  | some a =>
    timestampBytes 0 ++ beBytes 2 (pattern 16 a.utcOffset) ++ [0] ++ beBytes 1 a.priority1 ++ beBytes 1 a.clockClass ++
      beBytes 1 a.accuracy ++ beBytes 2 a.variance ++ beBytes 1 a.priority2 ++ beBytes 8 a.identity ++ beBytes 2 a.stepsRemoved ++
      beBytes 1 a.timeSource
  | none =>
    timestampBytes m.stamp ++
      (if [Pt.pdelayResp, Pt.delayResp, Pt.pdelayFollowUp].contains m.type then beBytes 10 m.requester
       else if m.type = Pt.pdelayReq then List.replicate 10 0 else [])

/-- A message of a port in a domain: the 34-octet header, majorSdoId and minorSdoId 0 (R324), and the body. -/
def PtpMsg.bytes (m : PtpMsg) (port domain : Nat) : Bytes :=
  beBytes 1 m.type ++ [0x12] ++ beBytes 2 (34 + m.body.length) ++ beBytes 1 domain ++ [0] ++ m.flags ++
    beBytes 8 (pattern 64 m.corrected) ++ List.replicate 4 0 ++ beBytes 10 (ptpSource port) ++ beBytes 2 m.seq ++
    beBytes 1 m.control ++ beBytes 1 (pattern 8 m.interval) ++ m.body

/-- The one's-complement sum of a byte string's 16-bit words. -/
def onesSum : Bytes → Nat
  | [] => 0
  | [x] => x.toNat * 256
  | x :: y :: l =>
    let t := x.toNat * 256 + y.toNat + onesSum l
    if t < 65536 then t else t - 65535

/-- The Internet checksum. -/
def inetChecksum (b : Bytes) : Nat := 65535 - onesSum b

/-- A UDP datagram between two addresses, its checksum over the pseudo-header; a checksum of 0 is sent as 0xFFFF. -/
def udpBytes (pseudo : Bytes) (port : Nat) (data : Bytes) : Bytes :=
  let head := beBytes 2 port ++ beBytes 2 port ++ beBytes 2 (8 + data.length)
  let sum := inetChecksum (pseudo ++ head ++ [0, 0] ++ data)
  head ++ beBytes 2 (if sum = 0 then 65535 else sum) ++ data

/-- An Ethernet frame: padded to 64 octets, and its FCS. -/
def ethFrame (dst src type : Nat) (data : Bytes) : Bytes :=
  let b := beBytes 6 dst ++ beBytes 6 src ++ beBytes 2 type ++ data ++ List.replicate (46 - data.length) 0
  b ++ leBytes 4 (crc32 b).toNat

/-- UDP port 319 carries event messages, 320 the others. -/
def PtpMsg.udpPort (m : PtpMsg) : Nat := if m.type < 4 then 319 else 320

/-- Messages of the peer delay mechanism, which go to the peer multicast addresses. -/
def PtpMsg.isPeer (m : PtpMsg) : Bool := [Pt.pdelayReq, Pt.pdelayResp, Pt.pdelayFollowUp].contains m.type

/-- Annex C: a message over UDP/IPv4. -/
def PtpMsg.ip4 (m : PtpMsg) (src : Nat) (msg : Bytes) : Bytes :=
  let dst := if m.isPeer then 0xE000006B else 0xE0000181
  let addrs := beBytes 4 src ++ beBytes 4 dst
  let udp := udpBytes (addrs ++ [0, 17] ++ beBytes 2 (8 + msg.length)) m.udpPort msg
  let head (sum : Nat) : Bytes := [0x45, 0] ++ beBytes 2 (20 + udp.length) ++ [0, 0, 0x40, 0, 1, 17] ++ beBytes 2 sum ++ addrs
  head (inetChecksum (head 0)) ++ udp

/-- Annex D: a message over UDP/IPv6, with the annex's two octets behind it. -/
def PtpMsg.ip6 (m : PtpMsg) (src : Nat) (msg : Bytes) : Bytes :=
  let dst := if m.isPeer then 0xFF02 * 2 ^ 112 + 0x6B else 0xFF02 * 2 ^ 112 + 0x181
  let data := msg ++ [0, 0]
  let addrs := beBytes 16 src ++ beBytes 16 dst
  let udp := udpBytes (addrs ++ beBytes 4 (8 + data.length) ++ [0, 0, 0, 17]) m.udpPort data
  [0x60, 0, 0, 0] ++ beBytes 2 udp.length ++ [17, 1] ++ addrs ++ udp

/-- The frame in which a port sends a message, over its transport (R324): checksum and FCS are those of the octets that leave
(R327). -/
def Dev.ptpFrame (d : Dev) (n : Nat) (m : PtpMsg) : Bytes :=
  let msg := m.bytes n (d.get F.TSU_PTP_CFG_DOMAIN)
  match d.get (F.TSU_Pn_CFG_TRANSPORT.at n) with
  | 0 => ethFrame (if m.isPeer then 0x0180C200000E else 0x011B19000000) (d.mac n) 0x88F7 msg
  | 1 => ethFrame (if m.isPeer then 0x01005E00006B else 0x01005E000181) (d.mac n) 0x0800 (m.ip4 (d.reg (R.ETH_n_IP4.at n)).toNat msg)
  | _ => ethFrame (if m.isPeer then 0x33330000006B else 0x333300000181) (d.mac n) 0x86DD (m.ip6 (d.linkLocal n) msg)

/-- Send a PTP message on a port. -/
def Dev.ptpSend (d : Dev) (n : Nat) (m : PtpMsg) : Dev :=
  let frame := d.ptpFrame n m
  d.portOut n frame.length (.ptp n m frame)

end Sys2Proof.Machine
end

