-- ==== Sys2Proof/Machine/Servo.lean ====
section
/-! DEFINITION. The time counter, its adjustment and the servo (R318 to R320, R326, R329 to R331, R334, R335). PTP
time-stamps are in 2^-16 ns. -/

namespace Sys2Proof.Machine

/-- Servo states as TSU_STATUS.STATE codes them. -/
def Sv.freerun : Nat := 0
def Sv.acquiring : Nat := 1
def Sv.locked : Nat := 2
def Sv.holdover : Nat := 3

def Dev.servo (d : Dev) : Nat := d.get F.TSU_STATUS_STATE

/-- The nominal increment, in 2^-32 ns (R319), and the largest deviation from it: 1,000 ppm. -/
def nominalIncr : Nat := 3495253333
def incrSpan : Nat := 3495253

/-- The increment in force for a request: the nearest value within 1,000 ppm (R319). -/
def clampIncr (v : Nat) : Nat := max (nominalIncr - incrSpan) (min (nominalIncr + incrSpan) v)

/-- TSU_FREQ of an increment: its difference from nominal in 2^-16 ppb, rounded down. -/
def freqOf (incr : Nat) : Int := (((incr : Int) - nominalIncr) * 1000000000 * 65536) / nominalIncr

/-- Put an increment in force. -/
def Dev.setIncr (d : Dev) (v : Nat) : Dev :=
  let d := { d with tsu := { d.tsu with incr := v } }
  ((d.set F.TSU_INCR_INT_INCR (v / 2 ^ 32)).set F.TSU_INCR_FRAC_INCR v).setSat F.TSU_FREQ_PPB (freqOf v)

/-- Advance the counter by a non-negative amount in 2^-32 ns (R318). -/
def Tsu.advance (t : Tsu) (amount : Nat) : Tsu :=
  let f := t.frac + amount
  let n := t.ns + f / 2 ^ 32
  { t with frac := f % 2 ^ 32, ns := n % 1000000000, sec := t.sec + n / 1000000000 }

/-- What one CORE_CLK tick adds to a running slew: SLEW_RATE ppm of the increment, or all that remains (R320). -/
def slewStep (incr rate : Nat) (left : Int) : Int :=
  let m : Int := incr * rate / 1000000
  if left < 0 then max left (-m) else min left m

/-- One CORE_CLK tick of the counter (R318, R320). -/
def Tsu.tick (t : Tsu) (rate : Nat) : Tsu :=
  let s := slewStep t.incr rate t.slew
  { t with slew := t.slew - s }.advance (t.incr + s).toNat

/-- Set the counter to a number of ns since the PTP epoch, the fraction kept. -/
def Tsu.setNs (t : Tsu) (n : Int) : Tsu := { t with sec := n.toNat / 1000000000, ns := n.toNat % 1000000000 }

/-- The counter in 2^-16 ns: a time-stamp. -/
def Dev.stamp (d : Dev) : Int := (d.now : Int) * 65536 + (d.tsu.frac / 65536 : Nat)

/-- TIME_VALID is set at the first step or lock (R332); what fell due before was missed while the device was down (R231, R258). -/
def Dev.validate (d : Dev) : Dev :=
  let d := if d.timeValid then d else { d with bil := { d.bil with upSec := d.tsu.sec } }.balResume
  d.set F.TSU_STATUS_TIME_VALID 1

/-- R230: a step backward to before the last closed boundary of an instance. -/
def Dev.clockBack (d : Dev) (amount : Int) : Dev :=
  if amount < 0 ∧ d.dur.calClosed.any (fun p => decide (d.tsu.sec < p.2.2)) then
    (d.count R.BIL_CNT_n 11).raise F.BIL_INT_STATUS_CLOCK_BACK (pattern 32 (amount / 1000000000)) (pattern 32 (amount % 1000000000))
  else d

/-- R342: what is not sent to the field yet is planned from the stepped counter: unsent orders, the windows that wait for one and
the superframes move with it (log entry 100). -/
def Dev.replan (d : Dev) (amount : Int) : Dev :=
  let moved (t : Nat) : Nat := ((t : Int) + amount).toNat
  let orders := d.fhm.orders.map fun o => if o.sent then o else { o with t0 := moved o.t0, sfdEnd := moved o.sfdEnd }
  let windows := d.fhm.windows.map fun w => { w with endNs := moved w.endNs }
  let cells := d.fhm.cells.map fun c => (c.1, { c.2 with sf := c.2.sf.map fun f => { f with start := moved f.start } })
  { d with fhm := { d.fhm with orders := orders, windows := windows, cells := cells } }

/-- A step of the counter by a signed number of ns (R320): STEPPED, its event and its TIME record of kind 7. -/
def Dev.stepBy (d : Dev) (amount : Int) : Dev :=
  let d := { d with tsu := d.tsu.setNs ((d.now : Int) + amount) }.replan amount
  let d := (d.validate.count R.TSU_CNT_n 4).journal (.time 7 0 d.tsu.sec d.tsu.ns)
  let d := d.clockBack amount
  d.raise F.TSU_INT_STATUS_STEPPED (pattern 32 (amount / 1000000000)) (pattern 32 (amount % 1000000000))

/-- Start a slew, in place of what remains of one (R320). -/
def Dev.startSlew (d : Dev) (amount : Int) : Dev :=
  { d with tsu := { d.tsu with slew := amount } }.set F.TSU_ADJ_CMD_BUSY 1

/-- The clockClass advertised (R329). -/
def Dev.clockClass (d : Dev) (state : Nat) : Nat :=
  let pps := d.get F.TSU_CTRL_PPS_IN_MODE == 2
  let free := if d.flag F.TSU_STATUS_NEVER_LOCKED then 248 else 52
  if state = Sv.locked then
    if pps then (if d.flag F.TSU_UTC_TRACEABLE then 6 else 248) else (d.tsu.master.map (·.clockClass)).getD 248
  else if state = Sv.holdover then 7
  else if state = Sv.acquiring then (if d.tsu.acqFrom = Sv.holdover then 7 else free)
  else free

/-- Enter a servo state: the state, the advertised class, and the TIME_UNTRUSTED condition (R330, R459); measured samples are
untrusted from a loss of lock on (R141, R331). -/
def Dev.enterServo (d : Dev) (state : Nat) : Dev :=
  let d := d.set F.TSU_STATUS_STATE state
  let d := d.set F.TSU_STATUS_CLOCK_CLASS (d.clockClass state)
  -- The slave port is SLAVE while LOCKED and UNCALIBRATED otherwise.
  let d :=
    if d.get F.TSU_STATUS_SLAVE_PORT < 4 then
      d.set (F.TSU_Pn_STATE_PORT_STATE.at (d.get F.TSU_STATUS_SLAVE_PORT)) (if state = Sv.locked then 9 else 8)
    else d
  -- R337: a measurement in progress is untrusted once the servo leaves LOCKED.
  let d :=
    if state = Sv.locked then d
    else
      let d := d.set F.MSR_STATUS_PTP_TRUSTED 0
      { d with tsu := { d.tsu with clo := d.tsu.clo.map fun c => { c with trusted := false } } }
  d.condition F.HLT_CONDITION_TIME_UNTRUSTED (decide (state ≠ Sv.locked))

/-- ACQUIRING from FREERUN or HOLDOVER; LOCKED stays (R330). -/
def Dev.acquire (d : Dev) : Dev :=
  if d.servo = Sv.freerun ∨ d.servo = Sv.holdover then
    { d with tsu := { d.tsu with acqFrom := d.servo, lockRun := 0 } }.enterServo Sv.acquiring
  else d

/-- HOLDOVER of the on-chip servo: the mean frequency of the last 64 s of lock, and no phase adjustment (R330). -/
def Dev.holdFreq (d : Dev) : Dev :=
  if d.flag F.TSU_CTRL_SERVO then d
  else ({ d with tsu := { d.tsu with slew := 0 } }.set F.TSU_ADJ_CMD_BUSY 0).setIncr d.tsu.holdIncr

/-- The reference is lost (R330): LOCKED goes to HOLDOVER; ACQUIRING returns to the state it came from. -/
def Dev.loseReference (d : Dev) : Dev :=
  if d.servo = Sv.locked then
    let recent := (d.tsu.freqHist.filter fun p => decide (d.tsu.sec < p.1 + 64)).map (·.2)
    let mean := if recent = [] then d.tsu.incr else recent.sum / recent.length
    let d := { d with tsu := { d.tsu with holdSince := d.cycles, holdIncr := mean, lockRun := 0 } }
    (d.holdFreq.enterServo Sv.holdover).raise F.TSU_INT_STATUS_HOLDOVER
  else if d.servo = Sv.acquiring then
    (if d.tsu.acqFrom = Sv.holdover then d.holdFreq else d).enterServo d.tsu.acqFrom
  else d

/-- The servo's frequency step: the spec gives no control law, so the increment it takes is a free value within the
limits of R319 (log entry 9). -/
def Dev.disciplineFreq (d : Dev) : Dev :=
  match d.fresh 32 with
  | (v, d) => d.setIncr (clampIncr (nominalIncr - incrSpan + v.toNat % (2 * incrSpan + 1)))

/-- R330: an offset that the servo steps away. -/
def Dev.stepsAway (d : Dev) (o : Int) : Bool := decide (d.get F.TSU_SERVO_STEP_THRESH * 1000 * 65536 ≤ o.natAbs)

/-- R330: an offset's register, and the lock criterion. -/
def Dev.lockStep (d : Dev) (o : Int) : Dev :=
  let d := d.setSat F.TSU_OFFSET_VALUE (o / 256)
  let near := decide (o.natAbs < d.get F.TSU_LOCK_THRESH * 65536)
  let run := if near then d.tsu.lockRun + 1 else 0
  let d := { d with tsu := { d.tsu with lockRun := run } }
  if d.servo = Sv.acquiring ∧ d.get F.TSU_LOCK_COUNT ≤ run then
    ((d.set F.TSU_STATUS_NEVER_LOCKED 0).validate.enterServo Sv.locked).raise F.TSU_INT_STATUS_LOCKED
  else d

/-- R330, R458: what is kept of each offset while LOCKED: the increment, and |TSU_FREQ| for monitor 5's mean of the day. -/
def Dev.noteFreq (d : Dev) : Dev :=
  if d.servo = Sv.locked then
    let ppb := (d.signedFld F.TSU_FREQ_PPB).natAbs / 65536
    { d with
      tsu := { d.tsu with freqHist := ((d.tsu.sec, d.tsu.incr) :: d.tsu.freqHist).take 8192 }
      face := { d.face with hst := { d.face.hst with freqSum := d.face.hst.freqSum + ppb, freqCount := d.face.hst.freqCount + 1 } } }
  else d

/-- One offset of the reference, in 2^-16 ns (R326, R330): its register, the lock criterion, and with the on-chip servo
a step or a slew. -/
def Dev.offset (d : Dev) (o : Int) : Dev :=
  let d := (d.lockStep o).noteFreq
  if d.flag F.TSU_CTRL_SERVO then d
  else if d.stepsAway o then (d.stepBy (-(o / 65536))).raise F.TSU_INT_STATUS_ADJ_DONE
  else d.disciplineFreq.startSlew (-(o * 65536))

end Sys2Proof.Machine
end

