-- ==== Sys2Proof/Machine/Bmca.lean ====
section
/-! DEFINITION. PTP ports: which frames pass (R324, R325, R338), the best master clock algorithm over ETH0 to ETH3 (R329,
R330), and what a port may send (R336). -/

namespace Sys2Proof.Machine

def Dev.ptpPort (d : Dev) (n : Nat) : PtpPort := Maps.getD d.tsu.ports n {}

def Dev.setPtp (d : Dev) (n : Nat) (p : PtpPort) : Dev :=
  { d with tsu := { d.tsu with ports := Maps.put d.tsu.ports n p } }

/-- IEEE 1588 portState codes (TSU_Pn_STATE). -/
def Ps.initializing : Nat := 1
def Ps.faulty : Nat := 2
def Ps.disabled : Nat := 3
def Ps.listening : Nat := 4
def Ps.master : Nat := 6
def Ps.passive : Nat := 7
def Ps.uncalibrated : Nat := 8
def Ps.slave : Nat := 9

def Dev.portState (d : Dev) (n : Nat) : Nat := d.get (F.TSU_Pn_STATE_PORT_STATE.at n)

def Dev.slavePort (d : Dev) : Nat := d.get F.TSU_STATUS_SLAVE_PORT

/-- The port runs and takes a PTP role. -/
def Dev.ptpEnabled (d : Dev) (n : Nat) : Bool :=
  d.flag (F.ETH_n_CTRL_ENABLE.at n) && d.get (F.TSU_Pn_CFG_ROLE.at n) != 3

/-- R325: with the power profile a port must run peer-to-peer over Ethernet. -/
def Dev.profileOk (d : Dev) (n : Nat) : Bool :=
  d.get F.TSU_PTP_CFG_PROFILE == 0 ||
    (d.get (F.TSU_Pn_CFG_DELAY.at n) == 1 && d.get (F.TSU_Pn_CFG_TRANSPORT.at n) == 0)

/-- R324: the message is well formed, in the domain, with sdoId 0, and on the port's transport. -/
def Dev.ptpPasses (d : Dev) (n : Nat) (h : PtpHdr) : Bool :=
  h.formOk && h.domain == d.get F.TSU_PTP_CFG_DOMAIN && h.sdo == 0 && h.transport == d.get (F.TSU_Pn_CFG_TRANSPORT.at n)

/-- Run `f` on a message the port takes: a disabled port drops every frame (R338), and one outside R324 is dropped and
counted. -/
def Dev.ptpTake (d : Dev) (n : Nat) (h : PtpHdr) (f : Dev → Dev) : Dev :=
  d.ethTake n h.len fun d =>
    if d.get (F.TSU_Pn_CFG_ROLE.at n) = 3 ∨ d.portState n = Ps.faulty then d
    else if d.ptpPasses n h = false then d.count R.TSU_CNT_n 5
    else f d

/-- The order of data sets: priority1, clockClass, clockAccuracy, variance, priority2, identity, steps (R324). -/
def Announce.key (a : Announce) : List Nat :=
  [a.priority1, a.clockClass, a.accuracy, a.variance, a.priority2, a.identity, a.stepsRemoved]

/-- Lexicographic order on equal-length lists. -/
def lexLt : List Nat → List Nat → Bool
  | a :: as, b :: bs => decide (a < b) || (a == b && lexLt as bs)
  | _, _ => false

def Announce.better (a b : Announce) : Bool := lexLt a.key b.key

/-- The clockAccuracy advertised: 0x21 while LOCKED and 0xFE otherwise (R329). -/
def Dev.clockAccuracy (d : Dev) : Nat := if d.servo = Sv.locked then 0x21 else 0xFE

/-- The device's own data set, which BMCA compares with its masters': while the servo is LOCKED to a master it is an undisciplined
clock's, since what the device then advertises is the master's. The variance and the clockIdentity are not given by the spec (log
entry 11). -/
def Dev.ownClock (d : Dev) : Announce :=
  let follows := d.servo == Sv.locked && d.tsu.master.isSome
  let pps := d.servo == Sv.locked && d.get F.TSU_CTRL_PPS_IN_MODE == 2 && d.flag F.TSU_UTC_TRACEABLE
  { priority1 := d.get F.TSU_PTP_CFG_PRIORITY1, clockClass := if follows then 248 else d.clockClass d.servo,
    accuracy := if follows then 0xFE else d.clockAccuracy, variance := Config.ptpVariance.toNat,
    priority2 := d.get F.TSU_PTP_CFG_PRIORITY2, identity := Config.ptpIdentity.toNat, stepsRemoved := 0,
    ptpTimescale := true, utcOffset := d.signedFld F.TSU_UTC_OFFSET, utcValid := d.flag F.TSU_UTC_VALID,
    leap59 := d.flag F.TSU_UTC_LEAP59, leap61 := d.flag F.TSU_UTC_LEAP61, timeTraceable := pps, frequencyTraceable := pps }

/-- What the Announce of a master port carries (R329, R334): the class, accuracy and UTC fields the device advertises, and, with a
master selected, the grandmaster that one announces, a step further off. -/
def Dev.sentClock (d : Dev) : Announce :=
  let own := d.ownClock
  let sent := { own with clockClass := d.get F.TSU_STATUS_CLOCK_CLASS, accuracy := d.clockAccuracy }
  match d.tsu.master with
  | none => sent
  | some m =>
    { sent with priority1 := m.priority1, variance := m.variance, priority2 := m.priority2, identity := m.identity
                stepsRemoved := m.stepsRemoved + 1, timeTraceable := m.timeTraceable, frequencyTraceable := m.frequencyTraceable
                timeSource := m.timeSource }

/-! ## Foreign masters -/

/-- An announce interval in CORE_CLK cycles: 2^-7 s is 9,600,000 of them. -/
def intervalCycles (log : Int) : Nat := 9600000 * 2 ^ (log + 7).toNat

/-- A foreign master qualifies by two Announces within four announce intervals (R324; log entry 11). -/
def Foreign.qualified (f : Foreign) (cycles : Nat) : Bool :=
  match f.before with
  | some b => decide (cycles ≤ b + 4 * intervalCycles f.ann.interval)
  | none => false

/-- An Announce from a port identity: the record of that master; the records of masters no longer heard go. -/
def PtpPort.hear (p : PtpPort) (source : Nat) (a : Announce) (cycles : Nat) : PtpPort :=
  let was := (p.foreign.find? (·.source == source)).map (·.heard)
  let live := p.foreign.filter fun f => f.source != source &&
    (f.source == p.source || decide (cycles ≤ f.heard + 4 * intervalCycles f.ann.interval))
  { p with foreign := live ++ [⟨source, a, cycles, was⟩] }

/-- The best master of a port among the qualified ones and the one it has taken. -/
def PtpPort.erbest (p : PtpPort) (cycles : Nat) : Option Foreign :=
  (p.foreign.filter fun f => (p.best.isSome && f.source == p.source) || f.qualified cycles).foldl
    (fun b f => match b with
      | none => some f
      | some g => if f.ann.better g.ann then some f else some g)
    none

/-- Take the best master of a port; a Sync of another one is forgotten. -/
def PtpPort.elect (p : PtpPort) (cycles : Nat) : PtpPort :=
  match p.erbest cycles with
  | none => p
  | some f =>
    let p := { p with best := some f.ann, heard := f.heard, listened := true }
    if p.source = f.source then p else { p with source := f.source, sync := none, msDiff := none, syncAt := cycles }

/-- The port and Announce of the best foreign master among ports of roles 0 and 2. -/
def Dev.ebest (d : Dev) : Option (Nat × Announce) :=
  (List.range 4).foldl
    (fun best n =>
      match (d.ptpPort n).best with
      | none => best
      | some a =>
        if d.ptpEnabled n && d.profileOk n && [0, 2].contains (d.get (F.TSU_Pn_CFG_ROLE.at n)) then
          match best with
          | none => some (n, a)
          | some b => if a.better b.2 then some (n, a) else some b
        else best)
    none

/-- The port BMCA selects as slave: none in 1PPS discipline (R335), and none where the device's own clock is better,
except on a slave-only port. -/
def Dev.bmcaSlave (d : Dev) : Option (Nat × Announce) :=
  if d.get F.TSU_CTRL_PPS_IN_MODE = 2 then none
  else
    match d.ebest with
    | none => none
    | some b => if d.get (F.TSU_Pn_CFG_ROLE.at b.1) = 0 ∧ d.ownClock.better b.2 then none else some b

/-- The state BMCA gives a port (R325, R329). -/
def Dev.bmcaState (d : Dev) (slave : Option (Nat × Announce)) (n : Nat) : Nat :=
  let role := d.get (F.TSU_Pn_CFG_ROLE.at n)
  if d.ptpEnabled n = false then Ps.disabled
  else if d.profileOk n = false then Ps.faulty
  else
    match slave with
    | some b =>
      if b.1 = n then (if d.servo = Sv.locked then Ps.slave else Ps.uncalibrated)
      else if role = 2 then Ps.listening
      else if role = 0 ∧ ((d.ptpPort n).best.map (·.identity)) = some b.2.identity then Ps.passive
      else if (d.ptpPort n).listened then Ps.master else Ps.listening
    | none => if role = 2 ∨ (d.ptpPort n).listened = false then Ps.listening else Ps.master

/-- R334: a slave port's UTC fields, from its master's Announce, with SOURCE 0. -/
def Dev.takeUtc (d : Dev) (a : Announce) : Dev :=
  if d.flag F.TSU_UTC_SOURCE ∨ a.utcValid = false then d
  else
    (((d.set F.TSU_UTC_OFFSET (pattern 16 a.utcOffset)).set F.TSU_UTC_VALID 1).set F.TSU_UTC_LEAP59 (b2n a.leap59)).set
      F.TSU_UTC_LEAP61 (b2n a.leap61)

/-- A port that does not run, or is FAULTY, forgets its masters and delays, and listens again once it runs. -/
def Dev.ptpForget (d : Dev) (n : Nat) : Dev :=
  let p := d.ptpPort n
  d.setPtp n { seqSync := p.seqSync, seqAnnounce := p.seqAnnounce, seqReq := p.seqReq, heard := d.cycles }

/-- Forget what the ports that do not run held. -/
def Dev.ptpSettle (d : Dev) : Dev :=
  (List.range 4).foldl (fun d n => if d.ptpEnabled n && d.profileOk n then d else d.ptpForget n) d

/-- Evaluate BMCA (R329, R330): port states, SLAVE_PORT with MASTER_CHANGE on a change, and ACQUIRING on a selection. With no
slave left the servo loses its reference (log entry 11).
PTP_PROFILE_CONFLICT names each port that becomes FAULTY (R325). -/
def Dev.bmca (d : Dev) : Dev :=
  let d := d.ptpSettle
  let b := d.bmcaSlave
  let d := (List.range 4).foldl
    (fun d n =>
      let st := d.bmcaState b n
      let was := d.portState n
      let d := d.set (F.TSU_Pn_STATE_PORT_STATE.at n) st
      if st = Ps.faulty ∧ was ≠ Ps.faulty then d.occur Ev.profileConflict 0x0C n else d)
    d
  let port := (b.map Prod.fst).getD 7
  let was := d.slavePort
  let d := { d with tsu := { d.tsu with master := b.map Prod.snd } }
  let d := d.set F.TSU_STATUS_CLOCK_CLASS (d.clockClass d.servo)
  if port = was then d
  else
    let d := (d.set F.TSU_STATUS_SLAVE_PORT port).raise F.TSU_INT_STATUS_MASTER_CHANGE port
    if port = 7 then d.loseReference else (d.setPtp port { d.ptpPort port with syncAt := d.cycles }).acquire

/-- R336: only a device that holds control sends on its master ports. -/
def Dev.masterSends (d : Dev) (n : Nat) : Bool := d.portState n == Ps.master && d.serves

/-- Received and sent time-stamps at the MDI, in 2^-16 ns (R321). -/
def Dev.rxStamp (d : Dev) (n : Nat) : Int := d.stamp - d.signedFld (F.TSU_Pn_RX_COMP_VALUE.at n)
def Dev.txStamp (d : Dev) (n : Nat) : Int := d.stamp + d.signedFld (F.TSU_Pn_TX_COMP_VALUE.at n)

/-- The mean path delay in use on a port: the average of its last exchanges end-to-end, or its peer delay (R326). -/
def Dev.meanDelay (d : Dev) (n : Nat) : Option Int :=
  if d.get (F.TSU_Pn_CFG_DELAY.at n) = 1 then (d.ptpPort n).peer
  else
    match (d.ptpPort n).delays.take (2 ^ d.get F.TSU_SERVO_DELAY_AVG) with
    | [] => none
    | l => some (l.sum / l.length)

end Sys2Proof.Machine
end

