-- ==== Sys2Proof/Machine/Ptp.lean ====
section
/-! DEFINITION. The PTP message commands but for Sync (R324 to R330). A message is time-stamped at the counter's value in the step that
receives or sends it. -/

namespace Sys2Proof.Machine

/-! ## Intervals as master (R324)

A configured interval outside the limits is taken as the nearest limit (log entry 11). -/

def Dev.logSync (d : Dev) (n : Nat) : Int := clampInt (-4) 1 (d.signedFld (F.TSU_Pn_CFG_LOG_SYNC.at n))
def Dev.logAnnounce (d : Dev) (n : Nat) : Int := clampInt (-3) 3 (d.signedFld (F.TSU_Pn_CFG_LOG_ANNOUNCE.at n))
def Dev.logDelay (d : Dev) (n : Nat) : Int := clampInt (-4) 1 (d.signedFld (F.TSU_Pn_CFG_LOG_DELAY.at n))

/-- logMessageInterval of a message that has none. -/
def logNone : Int := 127

/-! ## Delay messages -/

/-- R324: a Delay_Req on a master port is answered with t4 and the request's correction. -/
def execPtpDelayReq (port : Nat) (h : PtpHdr) (s : State) : Answer :=
  s.on fun d => d.ptpTake port h fun d =>
    if d.masterSends port ∧ d.get (F.TSU_Pn_CFG_DELAY.at port) = 0 then
      d.ptpSend port { type := Pt.delayResp, seq := h.seq, stamp := d.rxStamp port, correction := h.correction
                       interval := d.logDelay port, requester := h.source }
    else d

/-- R326: the selected master's Delay_Resp to this port completes an exchange; the delay is averaged over the last 2^DELAY_AVG of
them. -/
def execPtpDelayResp (port : Nat) (h : PtpHdr) (receipt : Int) (s : State) : Answer :=
  s.on fun d => d.ptpTake port h fun d =>
    let p := d.ptpPort port
    match p.req, p.msDiff with
    | some (q, t3), some diff =>
      if q = h.seq ∧ h.source = p.source ∧ h.requester = ptpSource port ∧ d.slavePort = port ∧
          d.get (F.TSU_Pn_CFG_DELAY.at port) = 0 then
        let one := (diff + (receipt - t3) - h.correction) / 2
        let d := d.setPtp port { p with req := none, delays := (one :: p.delays).take (2 ^ d.get F.TSU_SERVO_DELAY_AVG) }
        d.setSat F.TSU_MPD_VALUE ((d.meanDelay port).getD 0 / 256)
      else d
    | _, _ => d

/-- R324, R327: a Pdelay_Req is answered: one-step with the turnaround in the correction, two-step with t2 and a
follow-up with t3. A standby sends no Pdelay_Resp on its master ports (R336). -/
def execPtpPdelayReq (port : Nat) (h : PtpHdr) (s : State) : Answer :=
  s.on fun d => d.ptpTake port h fun d =>
    if d.get (F.TSU_Pn_CFG_DELAY.at port) = 0 then d
    else if d.portState port = Ps.master ∧ d.serves = false then d
    else
      let t2 := d.rxStamp port
      let t3 := d.txStamp port
      if d.flag (F.TSU_Pn_CFG_ONE_STEP.at port) then
        d.ptpSend port { type := Pt.pdelayResp, seq := h.seq, correction := h.correction + (t3 - t2), interval := logNone
                         requester := h.source }
      else
        (d.ptpSend port { type := Pt.pdelayResp, seq := h.seq, stamp := t2, interval := logNone, twoStep := true
                          requester := h.source }).ptpSend port
          { type := Pt.pdelayFollowUp, seq := h.seq, stamp := t3, correction := h.correction, interval := logNone
            requester := h.source }

/-- The peer mean path delay of a port (R326). -/
def Dev.setPeer (d : Dev) (port : Nat) (p : PtpPort) (delay : Int) : Dev :=
  (d.setPtp port { p with req := none, presp := none, peer := some delay }).set (F.TSU_Pn_PDELAY_DELAY.at port)
    (clampInt 0 (2 ^ 32 - 1) (delay / 256)).toNat

/-- R326: a Pdelay_Resp to this port; a one-step one completes the exchange. One past its receipt timeout is not accepted (R328; log
entry 11). -/
def execPtpPdelayResp (port : Nat) (h : PtpHdr) (receipt : Int) (s : State) : Answer :=
  s.on fun d => d.ptpTake port h fun d =>
    let p := d.ptpPort port
    match p.req with
    | some (q, t1) =>
      if q = h.seq ∧ h.requester = ptpSource port ∧ d.get (F.TSU_Pn_CFG_DELAY.at port) = 1 ∧
          d.cycles ≤ p.reqAt + Config.pdelayTimeout (d.logDelay port) then
        let t4 := d.rxStamp port
        if h.twoStep then d.setPtp port { p with presp := some (h.source, h.seq, receipt, t4, h.correction) }
        else d.setPeer port p ((t4 - t1 - h.correction) / 2)
      else d
    | none => d

/-- R326: the follow-up of a two-step Pdelay_Resp. -/
def execPtpPdelayRespFollowUp (port : Nat) (h : PtpHdr) (origin : Int) (s : State) : Answer :=
  s.on fun d => d.ptpTake port h fun d =>
    let p := d.ptpPort port
    match p.req, p.presp with
    | some (q, t1), some (from_, q', t2, t4, c) =>
      if q = h.seq ∧ q' = h.seq ∧ h.source = from_ ∧ h.requester = ptpSource port then d.setPeer port p ((t4 - t1 - (origin - t2) - c - h.correction) / 2) else d
    | _, _ => d

/-! ## Receipt timeouts and Announce -/

/-- The announce receipt timeout of a port in CORE_CLK cycles (R330): ANNOUNCE_TIMEOUT intervals of its master, or of the port
before it has heard one (log entry 11). -/
def Dev.announceWait (d : Dev) (port : Nat) : Nat :=
  let log : Int := match (d.ptpPort port).best with
    | some a => a.interval
    | none => d.logAnnounce port
  d.get F.TSU_PTP_CFG_ANNOUNCE_TIMEOUT * intervalCycles log

/-- The port states in which the announce receipt timeout runs. -/
def Dev.announceRuns (d : Dev) (port : Nat) : Bool :=
  [Ps.listening, Ps.passive, Ps.uncalibrated, Ps.slave].contains (d.portState port) || (d.ptpPort port).best.isSome

/-- R328, R330: past a port's announce receipt timeout its master is forgotten and LISTENING ends; SLAVE_PORT returns to 7 where
it was the slave port, the servo loses its reference, and BMCA selects again. -/
def Dev.announceExpire (d : Dev) (port : Nat) : Dev :=
  if d.cycles ≤ (d.ptpPort port).heard + d.announceWait port ∨ d.announceRuns port = false then d
  else
    let p := d.ptpPort port
    let d := (d.setPtp port { p with best := none, foreign := p.foreign.filter (·.source ≠ p.source), sync := none, msDiff := none
                                     listened := true, heard := d.cycles }).count R.TSU_CNT_n 3
    if d.slavePort = port then
      let d := { d with tsu := { d.tsu with master := none } }.set F.TSU_STATUS_SLAVE_PORT 7
      (d.raise F.TSU_INT_STATUS_MASTER_CHANGE 7).loseReference.bmca
    else d.bmca

/-- R328: past its receipt timeout the slave port's Sync has timed out, and the servo loses its reference (log entry 11). -/
def Dev.syncExpire (d : Dev) (port : Nat) : Dev :=
  let p := d.ptpPort port
  if d.slavePort ≠ port ∨ d.cycles ≤ p.syncAt + Config.syncTimeout p.syncLog then d
  else (d.setPtp port { p with sync := none, syncAt := d.cycles }).loseReference

/-- R324: whether an Announce can qualify its sender: of the PTP timescale, from another clock, and not too far off (log entry 11). -/
def Announce.usable (a : Announce) (source : Nat) : Bool :=
  a.ptpTimescale && decide (source / 65536 ≠ Config.ptpIdentity.toNat) && decide (a.stepsRemoved < 255)

/-- R324, R329, R334: an Announce feeds BMCA, on a port that is not master only; one that comes after its receipt timeout finds that
expired (R328); a master off the PTP timescale is not qualified; the selected master's UTC fields are taken. -/
def execPtpAnnounce (port : Nat) (h : PtpHdr) (a : Announce) (s : State) : Answer :=
  s.on fun d => d.ptpTake port h fun d =>
    if a.interval < -7 ∨ 4 < a.interval then d.count R.TSU_CNT_n 5
    else if a.usable h.source = false ∨ d.get (F.TSU_Pn_CFG_ROLE.at port) = 1 then d
    else
      let d := d.announceExpire port
      let d := (d.setPtp port (((d.ptpPort port).hear h.source a d.cycles).elect d.cycles)).bmca
      if d.slavePort = port ∧ (d.ptpPort port).source = h.source then d.takeUtc a else d

/-- R328, R330: a port's receipt timeouts. -/
def execPtpAnnounceTimeout (port : Nat) (s : State) : Answer := s.on fun d => (d.syncExpire port).announceExpire port

/-! ## What a port sends -/

/-- Send the Announce of a master port. -/
def Dev.sendAnnounce (d : Dev) (port : Nat) : Dev :=
  if d.masterSends port then
    let p := d.ptpPort port
    (d.setPtp port { p with seqAnnounce := (p.seqAnnounce + 1) % 65536 }).ptpSend port
      { type := Pt.announce, seq := p.seqAnnounce, interval := d.logAnnounce port, ann := some d.sentClock }
  else d

/-- Send the Sync of a master port: one-step with its egress stamp, or with a Follow_Up (R324, R327). -/
def Dev.sendSync (d : Dev) (port : Nat) : Dev :=
  if d.masterSends port then
    let p := d.ptpPort port
    let d := (d.setPtp port { p with seqSync := (p.seqSync + 1) % 65536 }).count R.TSU_CNT_n 1
    let t := d.txStamp port
    if d.flag (F.TSU_Pn_CFG_ONE_STEP.at port) then
      d.ptpSend port { type := Pt.sync, seq := p.seqSync, stamp := t, interval := d.logSync port }
    else
      (d.ptpSend port { type := Pt.sync, seq := p.seqSync, interval := d.logSync port, twoStep := true }).ptpSend port
        { type := Pt.followUp, seq := p.seqSync, stamp := t, interval := d.logSync port }
  else d

/-- R324, R330, R336: a port's Sync (kind 0), Announce (1) or delay request (2) interval passes. -/
def execPtpMessageDue (port kind : Nat) (s : State) : Answer :=
  s.on fun d =>
    if d.ptpEnabled port = false ∨ d.portState port = Ps.faulty then d
    else if kind = 0 then d.sendSync port
    else if kind = 1 then d.sendAnnounce port
    else
      let p := d.ptpPort port
      let peer := d.get (F.TSU_Pn_CFG_DELAY.at port) = 1
      if peer ∨ d.slavePort = port then
        let t := d.txStamp port
        let d := d.setPtp port { p with
          req := some (p.seqReq, t), reqAt := d.cycles, presp := none, seqReq := (p.seqReq + 1) % 65536 }
        (d.count R.TSU_CNT_n 2).ptpSend port { type := if peer then Pt.pdelayReq else Pt.delayReq, seq := p.seqReq, interval := logNone }
      else d

end Sys2Proof.Machine
end

