-- ==== Sys2Proof/Machine/Restart.lean ====
section
/-! DEFINITION. What a reset leaves (R400, R470), and a restart from start-up step 3 (R372, R406). -/

namespace Sys2Proof.Machine

/-- Bits of GLB_RESET_CAUSE. -/
def Rc.warned : Nat := 2
def Rc.resetN : Nat := 4
def Rc.pwrgood : Nat := 8
def Rc.thermal : Nat := 16
def Rc.restart : Nat := 32

/-- Registers whose value a reset keeps: the Cloche's (R400), the reset causes, the MRAM's laps, and the pair's policy and
drill ages, which the return in the worked example of 15 needs across a reset (R416 to R418; log entry 28). -/
def keptReg (off : Nat) : Bool :=
  off / 65536 == 15 ||
    ([R.GLB_RESET_CAUSE.off, R.JNL_WEAR.off, R.PRL_PAIR_CFG.off, R.PRL_HOLDOFF.off, R.PRL_PROBATION.off, R.PRL_DRILL.off] : List Nat).contains
      off

/-- The journal after a reset: READING bodies that only a stripe not yet programmed held are gone (R487). -/
def Journal.loseBodies (j : Journal) (lost : List Nat) : Journal :=
  let f (e : JEntry) : JEntry :=
    match e.rec_ with
    | .reading r => if lost.contains r.body.seq then { e with bodyKept := false } else e
    | _ => e
  { j with entries := j.entries.map f }

/-- The NAND after a reset: the filling stripe and the one being programmed are lost (R470). -/
def Nand.afterReset (n : Nand) : Nand :=
  let lost := n.filling ++ n.programming
  let keep (e : Epoch) : Epoch := { e with recs := e.recs.filter fun r => !lost.contains r.seq }
  { n with epochs := n.epochs.map keep, filling := [], programming := [], moving := [], rakeRunning := false, thresholds := [] }

/-- The feeder-phase outbound counters, which no reset takes back (R117; log entry 29). -/
def Zxp.afterReset (z : Zxp) : Zxp :=
  let phase (p : ZxPhase) : ZxPhase := { outCtr := p.outCtr }
  { feeders := z.feeders.map fun f => { phases := f.phases.map phase } }

/-- The Cloche's side of a main-power reset: accesses under way end, a trim that waited for a measurement applies, and an
anchor that waits is refused as TIME_VALID falls (R7, R385, R387). -/
def Dev.cloAfterReset (d : Dev) : Dev :=
  let d :=
    if d.flag F.CLO_STATUS_ANCHOR_BUSY then
      let d := d.set F.CLO_STATUS_ANCHOR_BUSY 0
      if d.clo.onBattery then d else d.set F.CLO_INT_STATUS_TICK_REFUSED 1
    else d
  let d := match d.clo.trimWaits with
    | some v => d.setReg R.CLO_TRIM.off (BitVec.ofNat 32 v)
    | none => d
  { d with clo := { d.clo with bridge := [], trimWaits := none, shadow := none, trecShadow := none } }

/-- A reset of everything outside the Cloche, its causes recorded. What stays: the Cloche, the MRAM, NAND and NOR, fuses, the
pair's return marks and fault causes, the samples of the health monitors and the levels at the pins. -/
def Dev.restart (d : Dev) (bits : Nat) : Dev :=
  let d := d.cloAfterReset
  let warned := if d.glb.powerFail then Rc.warned else 0
  let lost := d.nfm.filling ++ d.nfm.programming
  let nonrev := d.get F.PRL_STATUS_NONREVERTIVE
  let revert := d.get F.PRL_STATUS_REVERT_PENDING
  let mons := d.face.hst.monitors.map fun p => (p.1, { samples := p.2.samples, warned := p.2.warned : Monitor })
  let face : Face := {
    regs := d.face.regs.filter fun p => keptReg p.1
    hst := { evr := { archive := d.face.hst.evr.archive }, monitors := mons, d3hot := d.face.hst.d3hot }
    out := d.face.out }
  let d : Dev := {
    face := face
    cycles := d.cycles
    free := d.free
    lastRead := d.lastRead
    glb := {
      inReset := d.glb.inReset, resetNLow := d.glb.resetNLow, pwrgoodLow := d.glb.pwrgoodLow, tripHeld := d.glb.tripHeld
      perstLow := d.glb.perstLow, powerFail := d.glb.powerFail, released := d.cycles, gpioIn := d.glb.gpioIn }
    trl := { ownerFuse := d.trl.ownerFuse, floor := d.trl.floor }
    jnl := { d.jnl.loseBodies lost with
      readings := d.jnl.readings, waits := if d.pairState = PairSt.active then d.standbySynced else d.jnl.waits }
    tsu := { leaps := d.tsu.leaps }
    nfm := d.nfm.afterReset
    clo := d.clo
    prl := {
      causes := d.prl.causes, lastYield := if d.prl.lastYield = 0x80 then 0 else d.prl.lastYield, lines := d.prl.lines
      lowSince := d.prl.lowSince, yieldAt := d.prl.yieldAt, drillAt := d.prl.drillAt }
    zxp := d.zxp.afterReset
    msr := { present := d.msr.present } }
  let d := d.setReg R.GLB_RESET_CAUSE.off (d.reg R.GLB_RESET_CAUSE.off ||| BitVec.ofNat 32 (bits + warned))
  let d := (d.set F.PRL_STATUS_NONREVERTIVE nonrev).set F.PRL_STATUS_REVERT_PENDING revert
  let here (n : Nat) : Nat := b2n (bitAt d.msr.present n) * 16 ^ n
  let d := d.set F.MSR_MOD_STATUS_SLOT ((List.range 4).map here).sum
  (d.set F.PRL_SIDEBAND_LEVEL 0).set F.GLB_BOOT_STEP 2

/-- R372, R406: a restart from start-up step 3, as after RESET_N release. -/
def Dev.restartFromStep3 (d : Dev) : Dev := d.restart Rc.restart

end Sys2Proof.Machine
end

