-- ==== Sys2Proof/Machine/Hlp.lean ====
section
/-! DEFINITION. The Head Link Protocol (R57 to R68): datagrams, which open under their key, and their checks, head commands, joins,
recalls, and a head's status and silence. -/

namespace Sys2Proof.Machine

/-- A datagram's fields (R62); `aad` is its header up to NONCE_EXT and EUI_CLEAR, and `body` is encrypted. -/
structure HlpMsg where
  type : Nat
  seq : Nat
  head : Nat
  epoch : Nat
  /-- SEND in PTP ns. -/
  sent : Nat
  ext : Nat
  eui : Nat
  aad : Bytes
  body : Bytes
  tag : Nat
  deriving DecidableEq, Repr

/-- R61: the payload of a UDP datagram to a port; none for another port or a UDP length that disagrees. -/
def udpPayload (port : Nat) (b : Bytes) : Option Bytes := if b.be 2 2 = port ∧ b.be 4 2 = b.length then some (b.drop 8) else none

/-- R61, R62: the layout; none for a datagram the device drops: a wrong VERSION, an unknown TYPE, the device's own
DIRECTION, a LENGTH that disagrees with the datagram, or more than 1,232 B. -/
def parseHlp (b : Bytes) : Option HlpMsg :=
  let epoch := b.u8 6
  let head := b.be 4 2
  let n := 20 + 8 * b2n (epoch == 0) + 8 * b2n (head == 0xFFFF)
  let len := b.be 0x12 2
  if b.length < 36 ∨ 1232 < b.length ∨ b.u8 0 ≠ 1 ∨ b.u8 1 < 2 ∨ 7 < b.u8 1 ∨ bitAt (b.u8 7) 0 ∨ b.length ≠ n + len + 16 then none
  else
    some {
      type := b.u8 1, seq := b.be 2 2, head := head, epoch := epoch, sent := b.be 8 6 * 1000000000 + b.be 14 4
      ext := b.be 20 8, eui := b.be (n - 8) 8, aad := b.slice 0 n, body := b.slice n len, tag := b.be (n + len) 16 }

/-- The body of a datagram from a head, opened under a key (R63), with its extended number, 64 bits wide, or NONCE_EXT. Counter mode
opens as it seals. -/
def HlpMsg.opened (m : HlpMsg) (key : Nat) (ext : Int) : Bytes :=
  (Crypto.gcm 32 key (hlpNonce m.head 0 m.epoch (ext % 2 ^ 64).toNat) m.aad m.body).1

/-- The tag that a datagram from a head has under a key (R63). -/
def HlpMsg.tagUnder (m : HlpMsg) (key : Nat) (ext : Int) : Nat :=
  (Crypto.gcmTag 32 key (hlpNonce m.head 0 m.epoch (ext % 2 ^ 64).toNat) m.aad (m.opened key ext)).toNat

/-- R63: a tag fails. -/
def Dev.hlpAuth (d : Dev) (head : Nat) : Dev := (d.count R.FHM_CNT_n 0).raise F.FHM_INT_STATUS_HLP_AUTH head

/-- R64: the extended number of an arrival, or none for a replay. Near the session's start a number behind H can lie below 1; its
tag then decides. -/
def HeadRt.window (h : HeadRt) (seq : Nat) : Option Int :=
  let x := (seq + 65536 - h.h % 65536) % 65536
  if x = 0 then none
  else if x < 32768 then some (h.h + x)
  else
    let back := 65536 - x
    if 63 < back ∨ h.seen.testBit (back - 1) then none else some (h.h - back)

/-- R64: an accepted number enters the window. -/
def HeadRt.take (h : HeadRt) (ext : Int) : HeadRt :=
  let ahead := (ext - h.h).toNat
  if 0 < ahead then { h with h := h.h + ahead, seen := (h.seen * 2 ^ ahead + 2 ^ (ahead - 1)) % 2 ^ 64 }
  else { h with seen := h.seen ||| 2 ^ ((h.h - ext).toNat - 1) }

/-- R59: move a head to a state with a cause, and report the change. -/
def Dev.headTo (d : Dev) (i : Nat) (st : HeadSt) (cause : Nat) : Dev :=
  let h := d.headRt i
  let since := if h.state = st then h.since else d.cycles
  let d := d.setHead i { h with state := st, cause := cause, clear := 0, rehomed := h.rehomed && st != .active, since := since }
  if h.state = st then d
  else
    match st with
    | .active => d.raise F.FHM_INT_STATUS_HEAD_JOINED i
    | .offline => d.raise F.FHM_INT_STATUS_HEAD_LOST i cause
    | .degraded => d
    | .suspended => if cause = 2 then d.raise F.FHM_INT_STATUS_HEAD_TOO_FAR i else d
    | .joining => d

/-- A status period in CORE_CLK cycles. -/
def Dev.statusCycles (d : Dev) : Nat := cyclesOf (1000 * d.get F.FHM_HEAD_CFG_STATUS_PERIOD)

/-- R101: a datagram of a head: it is heard, and a HEAD_BEACON_LOST that waited for it is raised. -/
def Dev.heard (d : Dev) (i : Nat) : Dev :=
  let h := d.headRt i
  let d := d.setHead i { h with heardAt := d.cycles, lostDue := false }
  if h.lostDue then d.raise F.FHM_INT_STATUS_HEAD_BEACON_LOST i else d

/-- SLOT of a cell in units of 10 µs, and whether R91's bound raised it. -/
def Dev.sfSlot (d : Dev) (rate : Nat) : Nat × Bool :=
  let bound := 2000 * d.get F.FHM_SF_CTRL_GUARD + airtimeNs rate 48 + 1000000 + airtimeNs rate 7
  let b := (bound + 9999) / 10000
  if d.get F.FHM_SF_SLOT < b then (b, true) else (d.get F.FHM_SF_SLOT, false)

/-- R91: SLOT below the bound of a superframe cell whose rate a REQUEST has told. -/
def Dev.judgeSlot (d : Dev) (cell : Nat) : Dev :=
  let h := d.headRt cell
  if (d.cell cell).sf.isSome ∧ h.rates ≠ 0 ∧ (d.sfSlot h.rate).2 then d.raise F.FHM_INT_STATUS_SLOT_RAISED cell else d

/-- R80: a head in service whose lead is beyond LEAD_MAX is SUSPENDED. -/
def Dev.judgeHead (d : Dev) (i : Nat) : Dev :=
  let h := d.headRt i
  if h.inService ∧ d.tooFar h then d.headTo i .suspended 2 else d

/-- A datagram arrives on an Ethernet port (R338, R340) at a device that serves heads; the FHM block is idle without a
RADIO_PROFILE section. -/
def Dev.hlpFrame (d : Dev) (port addr mac : Nat) (b : Bytes) (f : HlpMsg → Dev → Dev) : Dev :=
  d.ethTake port (58 + b.length) fun d =>
    let d := d.heardFrom port addr mac
    if d.serves = false ∨ d.trellis.radio = [] then d
    else
      match (udpPayload d.trellis.device.hlpPort b).bind parseHlp with
      | some m => f m d
      | none => d

/-- The registered head a datagram comes from: by EUI_CLEAR where its HEAD_INDEX is 0xFFFF (R57, R66). -/
def Dev.sender? (d : Dev) (m : HlpMsg) : Option (Nat × HeadReg) :=
  if m.head = 0xFFFF then d.dur.heads.find? fun p => p.2.eui == m.eui else (d.headReg? m.head).map (m.head, ·)

/-- The long-term key a datagram of EPOCH 0 verifies under, and whether it is the candidate (R63, R305). -/
def Dev.longTerm? (d : Dev) (i : Nat) (m : HlpMsg) : Option (KeySet × Bool) :=
  let ks := d.headKeysOf i
  let fits (k : KeySet) : Bool := m.tag == m.tagUnder k.key256 m.ext
  ((ks.1.filter fits).map (·, false)).or ((ks.2.filter fits).map (·, true))

/-- A session datagram of type `type` (R57, R63, R64): checked, and then `f` on its head and body. The first one of a session
makes a joining head ACTIVE (R59). A datagram of EPOCH 0 that is no REQUEST is only checked. -/
def Dev.hlpIn (d : Dev) (port addr mac : Nat) (b : Bytes) (type : Nat) (f : Nat → Bytes → Dev → Dev) : Dev :=
  d.hlpFrame port addr mac b fun m d =>
    if m.type ≠ type then d
    else
      match d.sender? m with
      | none => d.count R.FHM_CNT_n 1
      | some (i, r) =>
        let h := d.headRt m.head
        if m.epoch = 0 then if (d.longTerm? i m).isSome then d else d.hlpAuth i
        else if m.head = 0xFFFF ∨ h.session = false ∨ r.epoch ≠ m.epoch then d.hlpAuth i
        else
          match h.window m.seq with
          | none => d.count R.FHM_CNT_n 2
          | some ext =>
            if m.tag ≠ m.tagUnder h.key ext then d.hlpAuth m.head
            else
              let d := (d.setHead m.head (h.take ext)).heard m.head
              let d := if h.state = .joining then d.headTo m.head .active 0 else d
              f m.head (m.opened h.key ext) d

/-! ## Re-homing (R60, R93) -/

/-- PTP day number modulo 4,096 (R184). -/
def Dev.dayNow (d : Dev) : Nat := d.tsu.sec / 86400 % 4096

/-- The entry was heard in the last 30 days. -/
def HeadRef.recent (x : HeadRef) (today : Nat) : Bool := decide ((today + 4096 - x.day) % 4096 ≤ 30)

/-- Make a head the meter's home: it moves to the front; the broadcast key is to be delivered again (R307), and campaigns
offered again (R267). -/
def Dev.setHome (d : Dev) (meter : Nat) (x : HeadRef) : Dev :=
  let put (c : Ctx) : Ctx := { c with heads := x :: c.heads.filter fun y => decide (y.head ≠ x.head) }
  let d := { d with dur := { d.dur with ctxs := Maps.modify d.dur.ctxs meter put } }
  let k := d.meterKeys meter
  let d := if k.bcOk then d.journal (.keys meter { k with bcOk := false }) else d
  let slots := d.dur.campaigns.filterMap fun p =>
    if p.2.state = Cs.active ∧ (d.dur.campMember? p.1 meter).isSome then some (1048576 * p.1 + meter) else none
  { d with dst := { d.dst with reoffer := d.dst.reoffer ++ slots.filter fun s => !d.dst.reoffer.contains s } }

/-- Re-home every meter of a head to its alternate with the best RSSI of the last 30 days; a meter with none stays, and counts
UNREACHABLE. -/
def Dev.rehome (d : Dev) (head : Nat) : Dev :=
  if (d.headRt head).rehomed then d
  else
    let today := d.dayNow
    let d := d.dur.ctxs.foldl
      (fun d p =>
        if p.2.heads.head?.map (·.head) ≠ some head then d
        else
          let best := (p.2.heads.drop 1).foldl
            (fun (b : Option HeadRef) x =>
              if x.recent today = false then b
              else
                match b with
                | some y => if y.rssi < x.rssi then some x else b
                | none => some x) none
          match best with
          | some x => d.setHome p.1 x
          | none => d.count R.FHM_CNT_n 10)
      d
    d.setHead head { d.headRt head with rehomed := true }

/-! ## Head commands (R57, R58, R68) -/

/-- End a head command. -/
def Dev.headDone (d : Dev) (code : Nat) : Dev := (d.set F.FHM_HEAD_CMD_RESULT code).set F.FHM_HEAD_CMD_BUSY 0

/-- Run a head command: a write while BUSY has no effect, and a device that is not active answers NOT_ACTIVE (R58). -/
def Dev.headCmd (d : Dev) (f : Dev → Dev) : Dev :=
  if d.flag F.FHM_HEAD_CMD_BUSY then d else if d.serves = false then d.headDone 4 else f d

/-- R57: FHM_HEAD_CMD ADD of the EUI-64 in FHM_HEAD_EUI. -/
def execFhmHeadAdd (index : Nat) (s : State) : Answer :=
  s.on fun d => d.headCmd fun d =>
    let i := index % 4096
    let eui := d.wide R.FHM_HEAD_EUI_LO R.FHM_HEAD_EUI_HI 0
    if (d.headReg? i).isSome then d.headDone 1
    else if d.dur.heads.any (fun p => p.2.eui == eui) then d.headDone 2
    else (d.setHead i {}).pairDo { recs := [.head i (some { eui := eui })], finish := .fhm }

/-- R58: FHM_HEAD_CMD REMOVE. -/
def execFhmHeadRemove (index : Nat) (s : State) : Answer :=
  s.on fun d => d.headCmd fun d =>
    let i := index % 4096
    if (d.headReg? i).isNone then d.headDone 3
    else
      let d := d.headTo i .offline 0
      let f := d.fhm
      let d := { d with
        fhm := { f with heads := Maps.del i f.heads, cells := Maps.del i f.cells, orders := f.orders.filter (·.head ≠ i),
                        accepts := f.accepts.filter (·.1 ≠ i) } }.showHead
      d.pairDo { recs := [.head i none], finish := .fhm }

/-- R68: RECALL to a head that has joined: its session ends. -/
def Dev.sendRecall (d : Dev) (i : Nat) : Dev :=
  match d.headReg? i, (d.headKeysOf i).1 with
  | some r, some k =>
    if r.epoch = 0 then d
    else
      match d.drbg 128 with
      | (n, d) =>
        let d := d.setHead i { d.headRt i with session := false, recalled := some (n.toNat, d.now) }
        d.sendHlp0 i r.port r.addr Hlp.join ([5, 0] ++ beBytes 16 n.toNat) k.key256
  | _, _ => d

/-- R68: every registered head. -/
def Dev.recallAll (d : Dev) : Dev := d.dur.heads.foldl (fun d p => d.sendRecall p.1) d

/-- R68: FHM_HEAD_CMD RECALL of a registered head's index sends RECALL to every registered head (log entry 91). -/
def execFhmHeadRecall (index : Nat) (s : State) : Answer :=
  s.on fun d => d.headCmd fun d => if (d.headReg? (index % 4096)).isNone then d.headDone 3 else d.recallAll.headDone 0

/-! ## Joining (R66, R67) -/

/-- The 256 B RADIO_PROFILE record, in its Trellis byte order. -/
def RadioProfile.bytes (p : RadioProfile) : Bytes :=
  let sub (x : SubBand) : Bytes := leBytes 1 x.first ++ leBytes 1 x.last ++ [0, 0] ++ leBytes 4 x.duty ++ leBytes 4 x.window ++ [0, 0, 0, 0]
  let subs := p.subbands.flatMap sub
  leBytes 1 p.profileId ++ leBytes 1 p.channels ++ leBytes 1 p.rates ++ leBytes 1 p.subbands.length ++ leBytes 4 p.baseFreq ++
    leBytes 4 p.spacing ++ leBytes 2 p.dwellLimit ++ leBytes 2 p.dwellWindow ++ leBytes 1 (pattern 8 p.ccaLevel) ++
    leBytes 1 (pattern 8 p.maxPower) ++ List.replicate 14 0 ++ leBytes 16 p.hopSet ++ subs ++
    List.replicate (208 - subs.length) 0

/-- The profile a cell is given (log entry 12). -/
def Dev.cellProfile (d : Dev) (i : Nat) : RadioProfile :=
  let l := d.trellis.radio
  l.getD ((Config.cellProfile i).toNat % max 1 l.length) ⟨0, 0, 0, 0, 0, 0, 0, 0, 0, 0, []⟩

/-- The fastest rate that a mask of RATES names. -/
def topRate (mask : Nat) : Nat := if mask.testBit 2 then 2 else if mask.testBit 1 then 1 else 0

/-- The capabilities cover a profile: SUN FSK, a common rate, and every channel's centre within MIN_FREQ and MAX_FREQ. -/
def RadioProfile.covered (p : RadioProfile) (caps rates lo hi : Nat) : Bool :=
  bitAt caps 0 && decide (rates &&& p.rates &&& 7 ≠ 0) && decide (lo ≤ p.baseFreq) &&
    decide (p.baseFreq + (p.channels - 1) * p.spacing / 1000 ≤ hi)

/-- Send an ACCEPT, once its record is committed: the session begins (R67). -/
def Dev.sendAccept (d : Dev) (i : Nat) (body : Bytes) : Dev :=
  match d.headReg? i, (d.headKeysOf i).1 with
  | some r, some k => d.sendHlp0 i r.port r.addr Hlp.join body k.key256
  | _, _ => d

/-- R67: the standby confirms `n` more entries, or none confirms any more: ACCEPTs whose record is confirmed go. -/
def Dev.releaseAccepts (d : Dev) (n : Option Nat) : Dev :=
  let left := d.fhm.accepts.map fun a => (a.1, n.elim 0 fun k => a.2.1 - k, a.2.2)
  let go := left.filter fun a => a.2.1 == 0
  let d := { d with fhm := { d.fhm with accepts := left.filter fun a => a.2.1 != 0 } }
  go.foldl (fun d a => d.sendAccept a.1 a.2.2) d

/-- The body of an ACCEPT (R66, R67): the REQUEST's NONCE and the device's, the head's index and cell, the session's epoch and the
cell's profile, channels, rate and periods. -/
def Dev.acceptBody (d : Dev) (i epoch dn : Nat) (nonce : Bytes) (h : HeadRt) (p : RadioProfile) : Bytes :=
  let partner := if d.trellis.device.partner = 0xFF then 0 else Config.partnerAddr.toNat
  [2, 0] ++ nonce ++ beBytes 16 dn ++ beBytes 2 i ++ beBytes 2 (Config.cellPan i).toNat ++ beBytes 1 epoch ++ beBytes 1 p.profileId ++
    beBytes 1 h.rxCh ++ beBytes 1 h.rate ++ beBytes 2 (d.get F.FHM_HEAD_CFG_STATUS_PERIOD) ++
    beBytes 2 (d.get F.FHM_HEAD_CFG_TIME_TOL) ++ beBytes 16 partner ++ p.bytes

/-- Answer a verified REQUEST, whose body opened to `b`: REFUSE with a cause, or ACCEPT under the next epoch (R66, R67). -/
def Dev.answerJoin (d : Dev) (i port addr : Nat) (r : HeadReg) (k : KeySet) (m : HlpMsg) (b : Bytes) : Dev :=
  let p := d.cellProfile i
  let nonce := b.slice 2 16
  let setup := b.be 34 2
  let rates := b.u8 36
  let h0 := d.headRt i
  let h : HeadRt := { h0 with
    state := .joining, cause := 0, setup := setup, rates := rates, maxPower := signed 8 (b.u8 46), firmware := b.be 48 4
    recalled := none, heardAt := d.cycles, lostDue := false, since := d.cycles, h := 0, seen := 0, txExt := 1, delays := [], confirms := 0, joinDelay := ((d.now - m.sent : Nat) : Int)
    rate := topRate (rates &&& p.rates &&& 7), rxCh := (Config.cellRxChannel i).toNat
    beaconCh := (Config.cellBeaconChannel i).toNat, profile := p.profileId, missed := 0, confirmed := 0, clear := 0 }
  let refuse (cause : Nat) : Dev :=
    d.sendHlp0 i port addr Hlp.join ([3, 0] ++ leBytes 1 cause ++ [0] ++ nonce) k.key256
  if 1000 < setup then refuse 2
  else if p.covered (b.u8 37) rates (b.be 38 4) (b.be 42 4) = false then refuse 3
  else if d.tooFar h then refuse 4
  else
    match d.drbg 128 with
    | (dn, d) =>
      let epoch := r.epoch % 255 + 1
      let info := [0x48, 0x4C, 0x50] ++ beBytes 2 i ++ beBytes 1 epoch
      let key := Crypto.hkdf 32 (beBytes 32 k.key256) (nonce ++ beBytes 16 dn.toNat) info
      let d := (d.setHead i { h with key := key, session := true }).judgeSlot i
      let reg : HeadReg := { r with epoch := epoch, addr := addr, port := port }
      let d := d.journal (.head i (some reg))
      let body := d.acceptBody i epoch dn.toNat nonce h p
      if d.standbySynced then { d with fhm := { d.fhm with accepts := d.fhm.accepts ++ [(i, d.prl.outstanding.length, body)] } }
      else d.sendAccept i body

/-- R66: a REQUEST arrives. While a RECALL is outstanding, for 100 ms, only its DEVICE_NONCE is answered (R68, R101). -/
def execHeadRequest (port addr mac : Nat) (dgram : Bytes) (s : State) : Answer :=
  s.on fun d => d.hlpFrame port addr mac dgram fun m d =>
    if m.type ≠ Hlp.join ∨ m.epoch ≠ 0 then d
    else
      match d.sender? m with
      | none => d.count R.FHM_CNT_n 1
      | some (i, r) =>
        match d.longTerm? i m with
        | none => d.hlpAuth i
        | some (k, cand) =>
          let b := m.opened k.key256 m.ext
          if m.head ≠ 0xFFFF ∨ b.length < 52 ∨ b.u8 0 ≠ 1 then d
          else
            let h := d.headRt i
            let echo := b.be 18 16
            let stale := match h.recalled with
              | some (n, at_) => if d.now ≤ at_ + 100000000 then decide (echo ≠ n) else decide (echo ≠ 0)
              | none => decide (echo ≠ 0)
            if stale then d
            else
              let d :=
                if cand then
                  let old : KeyPair := Maps.getD d.dur.headKeys i {}
                  ((d.journal (.headKey i { cur := old.cand, cand := none })).count R.KEY_CNT_n 6).raise F.KEY_INT_STATUS_HEAD_KEY_COMMITTED i
                else d
              if d.drbgRuns = false then d else d.answerJoin i port addr r k m b

/-- R59: a LEAVE arrives. -/
def execHeadLeave (port addr mac : Nat) (dgram : Bytes) (s : State) : Answer :=
  s.on fun d => d.hlpIn port addr mac dgram Hlp.join fun i b d => if b.u8 0 = 4 then d.headTo i .offline 4 else d

/-! ## Supervision -/

/-- The head's offset is within TIME_TOL (R81). -/
def Dev.timeOk (d : Dev) (h : HeadRt) : Bool := decide (h.offset.natAbs ≤ 1000 * d.get F.FHM_HEAD_CFG_TIME_TOL)

/-- R59, R60: a HEAD_STATUS: the offset, and SUSPENDED's entry and end. -/
def execHeadStatus (port addr mac : Nat) (dgram : Bytes) (s : State) : Answer :=
  s.on fun d => d.hlpIn port addr mac dgram 6 fun i b d =>
    let h := d.headRt i
    let h := { h with
      offset := signed 32 (b.be 0 4)
      status := [b.u8 4, b.u8 5, b.u8 6, b.u8 7, b.be 8 4, b.be 12 4, b.be 16 4, b.be 20 2, b.be 22 2] }
    let d := d.setHead i h
    if h.state = .suspended then
      if d.timeOk h && !d.tooFar h then
        if 2 ≤ h.clear then d.headTo i .active 0 else d.setHead i { h with clear := h.clear + 1 }
      else d.setHead i { h with clear := 0 }
    else if h.inService ∧ d.timeOk h = false then d.headTo i .suspended 1
    else d

/-- R59, R101: three status periods pass without a datagram. A HEAD_BEACON_LOST of the last of them is not seen. -/
def execHeadSilenceTimeout (head : Nat) (s : State) : Answer :=
  s.on fun d =>
    let h := d.headRt head
    if (d.headReg? head).isNone ∨ h.state = .offline ∨ d.cycles ≤ h.heardAt + 3 * d.statusCycles then d
    else
      let d := (d.setHead head { h with lostDue := false }).headTo head .offline 3
      if h.missed ≠ 0 ∧ d.cycles ≤ h.missedAt + d.statusCycles then d.rehome head else d

/-- R60, R100: a head has been SUSPENDED for more than 60 s. -/
def execHeadSuspendTimeout (head : Nat) (s : State) : Answer :=
  s.on fun d =>
    let h := d.headRt head
    if h.state = .suspended ∧ h.since + cyclesOf 60000000 < d.cycles then d.rehome head else d

end Sys2Proof.Machine
end

