-- ==== Sys2Proof/Machine/Super.lean ====
section
/-! DEFINITION. Superframe mode (R87 to R93): entry and return, beacons and their confirmation. -/

namespace Sys2Proof.Machine

/-- FHM_SF.PERIOD in ns. -/
def Dev.sfPeriod (d : Dev) : Nat := 1000000 * d.get F.FHM_SF_PERIOD

/-- R87, R88: a cell enters superframe mode at the next whole PERIOD, or takes the flags of a second entry. -/
def Dev.enterSf (d : Dev) (cell : Nat) (test storm recovery : Bool) : Dev :=
  let c := d.cell cell
  match c.sf with
  | some f => d.setCell cell { c with sf := some { f with test := test, final := false, quiet := 0 } }
  | none =>
    let p := max 1 d.sfPeriod
    let start := (d.now + p - 1) / p * p
    (d.setCell cell { c with sf := some { start := start, test := test, storm := storm, recovery := recovery } }).judgeSlot cell

/-- R87: a cell returns to CSMA service after a last beacon with FINAL; at once where its head can send none (log
entry 103). -/
def Dev.leaveSf (d : Dev) (cell : Nat) : Dev :=
  let c := d.cell cell
  match c.sf with
  | none => d
  | some f =>
    d.setCell cell { c with sf := if (d.headRt cell).orderable then some { f with final := true } else none }

/-- The cells a mode command names: one, or that of every registered head. -/
def Dev.modeCells (d : Dev) (all : Bool) (cell : Nat) : List Nat :=
  if all then d.dur.heads.map (·.1) else if (d.headReg? (cell % 4096)).isSome then [cell % 4096] else []

/-- R87: FHM_MODE_CMD ENTER. -/
def execFhmModeEnter (all : Bool) (cell : Nat) (s : State) : Answer :=
  s.on fun d => (d.modeCells all cell).foldl (fun d c => d.enterSf c false false false) d

/-- R87: FHM_MODE_CMD LEAVE. -/
def execFhmModeLeave (all : Bool) (cell : Nat) (s : State) : Answer :=
  s.on fun d => (d.modeCells all cell).foldl Dev.leaveSf d

/-- R87: FHM_MODE_CMD TEST. -/
def execFhmModeTest (all : Bool) (cell : Nat) (s : State) : Answer :=
  s.on fun d => (d.modeCells all cell).foldl (fun d c => d.enterSf c true false false) d

/-- R90: up to 16 meters of a cell with a pending downlink, none of two with the same low 32 bits
of the EUI-64 (log entry 103). -/
def Dev.explicit (d : Dev) (cell : Nat) : List Nat :=
  let home := d.dur.ctxs.filter fun p => !p.2.mbus && p.2.heads.head?.map (·.head) == some cell
  let low (a : Nat) : Nat := euiOf a % 2 ^ 32
  let single (p : Nat × Ctx) : Bool := (home.filter fun q => low q.2.address == low p.2.address).length == 1
  ((home.filter fun p => d.pendingFor p.1 && single p).map fun p => low p.2.address).take 16

/-- R90: the slots of a superframe, whose beacon's SFD ends at `sfd`, that the pending acknowledgements of a cell take: in RX1 or
RX2, for `slot` units of 10 µs. -/
def Dev.ackSlots (d : Dev) (cell sfd slot count : Nat) : List Nat :=
  let h := d.headRt cell
  let unit := max 1 (10000 * slot)
  let span (w : Window) (k : Nat) : List Nat :=
    let t := d.windowAt w.endNs k
    let len := match w.notice, w.meter with
      | some n, _ => n.1.len
      | none, some m => d.ackLen m
      | none, none => 127
    if t < sfd then [] else
      let first := (t - sfd) / unit
      let last := (t + airtimeNs h.rate len - sfd) / unit
      ((List.range (last - first + 1)).map (first + ·)).filter (· < count)
  (d.fhm.windows.filter fun w => w.head == cell && !w.acked).flatMap fun w => span w 1 ++ span w 2

/-- The longest run of free numbers from `first` on and below `last`, the lowest of equals: where it begins, and its length. -/
def longestRun (taken : List Nat) (first last : Nat) : Nat × Nat :=
  ((List.range (last - first)).foldl
    (fun (best : (Nat × Nat) × Nat) i =>
      if taken.contains (first + i) then (best.1, 0)
      else
        let n := best.2 + 1
        (if best.1.2 < n then (first + i + 1 - n, n) else best.1, n))
    ((first, 0), 0)).1

/-- Octets of a beacon's PSDU that announces `ex` explicit slots (R88). -/
def beaconLen (ex : List Nat) : Nat := 57 + 6 * ex.length

/-- R88: the content of a beacon's slot IE. -/
def Dev.slotIe (d : Dev) (f : Superframe) (slot count first seed : Nat) (ex : List Nat) : Bytes :=
  d.vendorIe 1 ++ leBytes 2 f.n ++ leBytes 2 (d.get F.FHM_SF_PERIOD) ++ leBytes 2 slot ++ leBytes 2 count ++ leBytes 2 first ++
    leBytes 2 f.hashFirst ++ leBytes 2 f.hashCount ++ leBytes 4 seed ++
    leBytes 1 (b2n f.storm + 2 * b2n f.test + 4 * b2n f.recovery + 8 * b2n f.final) ++ leBytes 1 ex.length ++
    (ex.mapIdx fun i a => leBytes 4 a ++ leBytes 2 (first + i)).flatten

/-- R90: the hashed slots after `ex` explicit ones. They end RX1 after they begin, and leave out the instants of acknowledgements
already pending (log entry 27). -/
def Dev.hashSlots (d : Dev) (cell rate plan slot count from_ : Nat) (f : Superframe) : Superframe :=
  let most := min count (from_ + 100 * d.get F.FHM_RXWIN_RX1 / max 1 slot)
  let hashed := longestRun (d.ackSlots cell (plan + octetsNs rate 10) slot count) from_ most
  { f with hashFirst := hashed.1, hashCount := hashed.2 }

/-- R76, R88: the beacon's order, where budgets and the broadcast key allow it. -/
def Dev.sendBeacon (d : Dev) (cell plan slot count first : Nat) (f : Superframe) (ex : List Nat) : Dev :=
  let h := d.headRt cell
  let len := beaconLen ex
  match d.broadcastCh cell h.beaconCh (plan / 1000000) (granules (airtimeNs h.rate len)) with
  | (none, d) => d
  | (some ch, d) =>
    match d.drbg 32 with
    | (seed, d) =>
      match d.composeBroadcast cell true (d.slotIe f slot count first seed.toNat ex) [] len with
      | (none, d) => d
      | (some psdu, d) =>
        match d.csma h.rate plan with
        | (t0, offs, d) =>
          match d.newOrder cell ch true false true t0 offs psdu .beacon with
          | (o, d) => d.planOrder { o with sfdEnd := plan }

/-- The superframe `f` of a cell has had its beacon: the next one follows (R88). -/
def Dev.nextSf (d : Dev) (cell : Nat) (f : Superframe) : Dev :=
  d.setCell cell { d.cell cell with sf := some { f with n := f.n + 1 } }

/-- R88, R90, R91: a cell's beacon instant comes: the beacon is planned by R76, with the slot IE. -/
def execBeaconDue (cell : Nat) (s : State) : Answer :=
  s.on fun d =>
    let c := d.cell cell
    match c.sf with
    | none => d
    | some f =>
      let h := d.headRt cell
      let plan := f.start + f.n * d.sfPeriod + cell % 16 * d.sfPeriod / 16
      if h.orderable = false ∨ (d.bcastKey cell).isNone then d.nextSf cell f
      else
        let slot := (d.sfSlot h.rate).1
        let count := 100 * d.get F.FHM_SF_PERIOD / max 1 slot
        let ex := d.explicit cell
        let unit := 10000 * slot
        let first := (octetsNs h.rate (2 + beaconLen ex) + 1000 * d.get F.FHM_SF_CTRL_GUARD + unit - 1) / max 1 unit
        let f := d.hashSlots cell h.rate plan slot count (first + ex.length) f
        (d.sendBeacon cell plan slot count first f ex).nextSf cell f

/-- R92, R93: a beacon is missed. At each third one in a row the beacon channel moves, the head is DEGRADED and its meters are
re-homed. HEAD_BEACON_LOST waits for the head's next datagram where it has been silent for two status periods, and the meters of a
head lost within the last one are re-homed as for DEGRADED (R101). -/
def Dev.missBeacon (d : Dev) (i : Nat) : Dev :=
  let d := d.count R.FHM_CNT_n 9
  let h := d.headRt i
  let h := { h with missed := h.missed + 1, confirmed := 0, missedAt := d.cycles }
  let d := d.setHead i h
  if h.state = .offline ∧ h.cause = 3 ∧ d.cycles ≤ h.since + d.statusCycles then d.rehome i
  else if h.missed % 3 ≠ 0 then d
  else
    let ch := (d.rehop h h.beaconCh (d.now / 1000000) (granules (airtimeNs h.rate 153))).getD h.beaconCh
    let silent := decide (h.heardAt + 2 * d.statusCycles < d.cycles)
    let d := d.setHead i { h with beaconCh := ch, lostDue := h.lostDue || (silent && h.state == .active) }
    let d :=
      if h.state = .active then
        let d := d.headTo i .degraded h.cause
        if silent then d else d.raise F.FHM_INT_STATUS_HEAD_BEACON_LOST i
      else d
    d.rehome i

/-- R92, R100: a BEACON_CONFIRM that comes by its deadline: the beacon is confirmed; eight in a row end DEGRADED (R59). -/
def execBeaconConfirm (port addr mac : Nat) (dgram : Bytes) (s : State) : Answer :=
  s.on fun d => d.hlpIn port addr mac dgram 5 fun i b d =>
    match d.order? i (b.be 0 4) with
    | none => d
    | some o =>
      if o.purpose ≠ .beacon then d
      else if d.confirmDeadline o < d.now then (d.dropOrder i o.txId).missBeacon i
      else
        let d := d.dropOrder i o.txId
        let c := d.cell i
        let sfd := b.be 8 6 * 1000000000 + b.be 14 4
        let d := d.setCell i { c with sf := c.sf.map fun f => { f with sfd := sfd } }
        let h := d.headRt i
        let d := d.setHead i { h with missed := 0, confirmed := if h.state = .degraded then h.confirmed + 1 else 0 }
        if h.state = .degraded ∧ 7 ≤ h.confirmed then d.headTo i .active 0 else d

/-- R92: a beacon's confirm deadline passes without one. -/
def execBeaconConfirmDeadline (head txId : Nat) (s : State) : Answer :=
  s.on fun d =>
    match d.order? head txId with
    | some o => if o.purpose = .beacon ∧ d.confirmDeadline o < d.now then (d.dropOrder head txId).missBeacon head else d
    | none => d

/-- R87: each second: more than CCA_PCT percent of at least 32 CSMA attempts found the channel busy. -/
def execStormCheck (cell : Nat) (s : State) : Answer :=
  s.on fun d =>
    let c := d.cell cell
    let storm := d.flag F.FHM_CTRL_STORM_AUTO && c.sf.isNone && decide (32 ≤ c.attempts) &&
      decide (d.get F.FHM_SF_CTRL_CCA_PCT * c.attempts < 100 * c.busy)
    let d := d.setCell cell { c with attempts := 0, busy := 0 }
    if storm then (d.enterSf cell false true false).raise F.FHM_INT_STATUS_STORM cell else d

/-- The end of the last slot after a cell's last confirmed beacon, PTP ns (R88). -/
def Dev.sfEnds (d : Dev) (cell : Nat) (f : Superframe) : Nat :=
  let slot := (d.sfSlot (d.headRt cell).rate).1
  f.sfd + 10000 * slot * (100 * d.get F.FHM_SF_PERIOD / max 1 slot)

/-- R87, R100: a superframe has ended: the quiet rule counts it, and a cell whose last beacon carried FINAL returns to CSMA. A frame
that comes as its last slot ends is still in time: nothing happens up to then. -/
def execSuperframeEnd (cell : Nat) (s : State) : Answer :=
  s.on fun d =>
    let c := d.cell cell
    match c.sf with
    | none => d
    | some f =>
      if d.now ≤ d.sfEnds cell f then d
      else if f.final then d.setCell cell { c with sf := none }
      else
        let quiet := if 10 * f.used.length < f.hashCount then f.quiet + 1 else 0
        let f := { f with used := [], quiet := quiet }
        d.setCell cell { c with sf := some { f with final := !f.test && decide (d.get F.FHM_SF_CTRL_QUIET ≤ quiet) } }

/-- R89: an uplink that began in a hashed slot of its cell's superframe marks the slot used. -/
def Dev.markSlot (d : Dev) (cell startNs : Nat) : Dev :=
  let c := d.cell cell
  match c.sf with
  | none => d
  | some f =>
    let slot := (startNs - f.sfd) / max 1 (10000 * (d.sfSlot (d.headRt cell).rate).1)
    if f.sfd ≠ 0 ∧ f.sfd ≤ startNs ∧ f.hashFirst ≤ slot ∧ slot < f.hashFirst + f.hashCount ∧ ¬f.used.contains slot then
      d.setCell cell { c with sf := some { f with used := slot :: f.used } }
    else d

end Sys2Proof.Machine
end

