-- ==== Sys2Proof/Machine/Rounds.lean ====
section
/-! DEFINITION. Campaigns (10): loading (R263), membership (R265), rounds on radio (R270 to R272), activation (R278), expiry
(R281) and aborts (R282). A place is a cell, or 4,096 + 3f + p on ZX-PLC. -/

namespace Sys2Proof.Machine

/-- Result codes of DST_CMD. -/
def Dr.badState : Nat := 1
def Dr.badLength : Nat := 2
def Dr.duplicateId : Nat := 3
def Dr.notAllocated : Nat := 4
def Dr.wrongMedium : Nat := 5
def Dr.notActive : Nat := 6
def Dr.badInstant : Nat := 7
def Dr.zxFrameLong : Nat := 8
def Dr.badClass : Nat := 9
def Dr.stateLocked : Nat := 10
def Dr.tooLate : Nat := 11
def Dr.notMember : Nat := 12
def Dr.badCalendar : Nat := 13

/-! ## Loading -/

/-- The descriptor registers of a campaign (R263), for an object of `length` bytes. -/
def Dev.descriptor (d : Dev) (slot length : Nat) : Campaign :=
  let f (x : Fld) : Nat := d.get (x.at slot)
  let word (n : Nat) : Nat := d.get (F.DST_C_HASH_n_WORD.at2 slot n)
  { id := f F.DST_C_ID_ID, kind := f F.DST_C_CFG_KIND
    radio := (f F.DST_C_CFG_MEDIA).testBit 0, zx := (f F.DST_C_CFG_MEDIA).testBit 1, zxBlock := f F.DST_C_CFG_ZX_BLOCK
    roundsMax := f F.DST_C_CFG_ROUNDS_MAX, lateOk := decide (f F.DST_C_CFG_LATE_OK = 1)
    newClass := if f F.DST_C_CFG_NEW_CLASS_EN = 1 then some (f F.DST_C_CFG_NEW_CLASS) else none
    newCal := if f F.DST_C_CFG_NEW_CAL_EN = 1 then some (f F.DST_C_CFG_NEW_CAL) else none
    start := f F.DST_C_START_LO_SECONDS + 2 ^ 32 * f F.DST_C_START_HI_SECONDS
    act := f F.DST_C_ACT_LO_SECONDS + 2 ^ 32 * f F.DST_C_ACT_HI_SECONDS
    version := f F.DST_C_VERSION_VERSION, hash := (List.range 8).foldl (fun a n => a * 2 ^ 32 + word n) 0, length := length }

/-- Cycles of a DIST frame for a block size (R276). -/
def distCycles (zxBlock : Nat) : Nat := [252, 372, 552, 912].getD zxBlock 912

/-- R276: an offer or DIST frame does not fit the downlink period of a feeder that has assigned meters. -/
def Dev.zxLong (d : Dev) (zxBlock : Nat) : Bool :=
  (List.range 4).any fun f =>
    d.dur.ctxs.any (fun p => (p.2.zx.map (·.feeder)) == some f) &&
      (decide (d.get (F.ZXP_SCHED_DL_CYCLES.at f) < 1112) ||
        decide (d.get (F.ZXP_SCHED_DL_CYCLES.at f) - 200 < distCycles zxBlock))

/-- R263: why a descriptor is refused. -/
def Dev.loadCheck (d : Dev) (slot : Nat) (c : Campaign) : Option Nat :=
  if c.length = 0 ∨ 2 ^ 24 < c.length ∨ (c.zx ∧ 4096 < c.length) then some Dr.badLength
  else if d.dur.campaigns.any (fun p => p.1 != slot && p.2.id % 256 == c.id % 256) then some Dr.duplicateId
  else if (c.start ≠ 0 ∧ c.start < d.tsu.sec) ∨ (c.act ≠ 0 ∧ c.act ≤ c.start) then some Dr.badInstant
  else if (c.newClass.map fun k => (d.trellis.class? k).isNone).getD false then some Dr.badClass
  else if (c.newCal.map fun k => !d.calendarKnown k).getD false then some Dr.badCalendar
  else if c.zx && d.zxLong c.zxBlock then some Dr.zxFrameLong
  else none

/-- End a DST command. -/
def Dev.dstDone (d : Dev) (code : Nat) : Dev := d.finish code (.dst 0)

/-- Run a DST command: a write while BUSY has no effect, and a standby refuses it (R265). -/
def Dev.dstCmd (d : Dev) (f : Dev → Dev) : Dev :=
  if d.flag F.DST_CMD_BUSY then d else if d.standbyRefuses then d.dstDone Dr.notActive else f d

/-- A campaign in a state that no journal record holds: LOADING, or FAILED before its load record. -/
def Dev.putCampaign (d : Dev) (slot : Nat) (c : Campaign) : Dev :=
  let d := { d with dur := { d.dur with campaigns := Maps.put d.dur.campaigns slot c } }.showCamp slot
  d.campEntry slot c.state c.cause 8 0xFFFFF 0 0 d.tsu.sec d.tsu.ns

/-- R263: DST_CMD LOAD; `object` is what the device reads from host memory. The copy into LPDDR5 is made and its hash asked
for. -/
def execDstLoad (slot : Nat) (object : Bytes) (s : State) : Answer :=
  s.on fun d => d.dstCmd fun d =>
    let slot := slot % 16
    let len := d.get F.DST_HOST_LEN_LENGTH
    let c := d.descriptor slot len
    if d.keyLocked then d.dstDone Dr.stateLocked
    else if Maps.has d.dur.campaigns slot then d.dstDone Dr.badState
    else
      match d.loadCheck slot c with
      | some code => d.dstDone code
      | none =>
        let bytes : Bytes := object.take len ++ List.replicate (len - object.length) 0
        let x := d.dst
        let d := { d with dst := { x with objects := Maps.put x.objects slot bytes } }
        ((d.putCampaign slot c).postLoad slot).dstDone 0

/-- A load fails with a cause (R263). -/
def Dev.loadFailed (d : Dev) (slot : Nat) (c : Campaign) (cause : Nat) : Dev :=
  let d := { d with dst := { d.dst with loading := Maps.del slot d.dst.loading } }
  (d.putCampaign slot { c with state := Cs.failed, cause := cause }).raise F.DST_INT_STATUS_LOAD_FAILED slot cause

/-- The load step in progress is `n`. -/
def Dev.loadStep (d : Dev) (slot n : Nat) : Dev := { d with dst := { d.dst with loading := Maps.put d.dst.loading slot n } }

/-- R263, step 4: the standby's copy; it is sent again where the standby could not verify it. -/
def Dev.sendLoad (d : Dev) (slot : Nat) (c : Campaign) : Dev :=
  if d.standbySynced = false then d.loadStep slot 5
  else if d.prl.pendingCmds.any fun x => x.finish == .load slot then d
  else (d.loadStep slot 4).pairDo { recs := [], finish := .load slot, object := some (slot, c, Maps.getD d.dst.objects slot []) }

/-- R263: a step of a load completes, well or not: 2 the hash, once its engine is done, 3 the NAND copy, 4 the standby's check,
5 the load record. -/
def execCampaignLoadStepDone (slot : Nat) (ok : Bool) (s : State) : Answer :=
  s.on fun d =>
    match Maps.get? slot d.dst.loading, Maps.get? slot d.dur.campaigns with
    | some step, some c =>
      let object := Maps.getD d.dst.objects slot []
      match step with
      | 1 => d
      | 2 =>
        if d.shHas (.imageHash slot) then d
        else if (Crypto.sha256 object).toNat = c.hash then d.loadStep slot 3 else d.loadFailed slot c 1
      | 3 =>
        if ok = false ∨ d.media = Media.readOnly ∨ d.media = Media.unformatted then d.loadFailed slot c 2
        else
          let d := { d with nfm := { d.nfm with objects := Maps.put d.nfm.objects slot object } }
          d.sendLoad slot c
      | 4 => d.sendLoad slot c
      | _ =>
        let d := { d with dst := { d.dst with loading := Maps.del slot d.dst.loading } }
        ((d.setCampaign slot { c with state := Cs.active }).raise F.DST_INT_STATUS_LOADED slot).campEnd slot
    | _, _ => d

/-! ## Membership -/

/-- R278: once the activation instant is reached, every Verified member is Activated and moves to the new class and calendar
instance. The entries carry the armed instant. -/
def Dev.activate (d : Dev) (slot : Nat) : Dev :=
  match Maps.get? slot d.dur.campaigns with
  | some c =>
    if c.state ≠ Cs.active ∨ c.act = 0 ∨ d.tsu.sec < c.act ∨ c.activated then d
    else
      let d := d.journal (.campaign slot (some { c with activated := true }))
      let ready := (d.dur.members slot).filter fun p => p.2.state == Ms.verified
      let d := ready.foldl
        (fun d p =>
          match d.switchMember c slot p.1 { p.2 with state := Ms.activated } c.act with
          | (m, d) =>
            let d := d.journal (.campMember slot p.1 (some m))
            d.campEntry slot m.state m.cause (b2n m.switched) p.1 0 m.received c.act 0) d
      ((d.showCamp slot).raise F.DST_INT_STATUS_ACTIVATED slot).campEnd slot
  | none => d

/-- A meter's medium is in the campaign's media; wireless M-Bus meters cannot be members (R262). -/
def Dev.fits (d : Dev) (c : Campaign) (x : Ctx) : Bool :=
  match d.trellis.class? x.cls with
  | some k => (k.medium == 0 && c.radio && !x.mbus) || (k.medium == 2 && c.zx)
  | none => false

/-- R265: DST_CMD ADD. A meter that is a member already stays as it is; one that was removed begins again. -/
def execDstAdd (slot meter : Nat) (s : State) : Answer :=
  s.on fun d => d.dstCmd fun d =>
    let slot := slot % 16
    let m := meter % 1048576
    match Maps.get? slot d.dur.campaigns, Maps.get? m d.dur.ctxs with
    | none, _ => d.dstDone Dr.badState
    | some c, x =>
      if c.takes = false then d.dstDone Dr.badState
      else
        match x with
        | none => d.dstDone Dr.notAllocated
        | some x =>
          if d.fits c x = false then d.dstDone Dr.wrongMedium
          else if c.act ≠ 0 ∧ c.act ≤ d.tsu.sec then d.dstDone Dr.tooLate
          else
            match d.dur.campMember? slot m with
            | some old => if old.cause = Cc.removed then d.campDo slot [.campMember slot m (some {})] else d.dstDone 0
            | none => d.campDo slot [.campMember slot m (some {})]

/-- R265: DST_CMD ADD_CLASS, of meters that are no members. -/
def execDstAddClass (slot cls : Nat) (s : State) : Answer :=
  s.on fun d => d.dstCmd fun d =>
    let slot := slot % 16
    match Maps.get? slot d.dur.campaigns with
    | none => d.dstDone Dr.badState
    | some c =>
      if c.takes = false then d.dstDone Dr.badState
      else
        let all := d.dur.ctxs.filter fun p => p.2.cls == cls % 64
        let take := all.filter fun p => d.fits c p.2
        let d := d.countBy R.DST_CNT_n 9 (all.length - take.length)
        let new := take.filter fun p => ((d.dur.campMember? slot p.1).map fun m => m.cause == Cc.removed).getD true
        d.campDo slot (new.map fun p => .campMember slot p.1 (some {}))

/-- R265: DST_CMD REMOVE, after an activation whose instant is reached (R286). A member that is Activated or Failed keeps its
record. -/
def execDstRemove (slot meter : Nat) (s : State) : Answer :=
  s.on fun d => d.dstCmd fun d =>
    let slot := slot % 16
    let d := d.activate slot
    let m := meter % 1048576
    match Maps.get? slot d.dur.campaigns with
    | none => d.dstDone Dr.badState
    | some c =>
      if c.takes = false then d.dstDone Dr.badState
      else if Maps.has d.dur.ctxs m = false then d.dstDone Dr.notAllocated
      else
        match d.dur.campMember? slot m with
        | none => d.dstDone Dr.notMember
        | some old =>
          if old.cause = Cc.removed then d.dstDone Dr.notMember
          else if old.final then d.dstDone 0
          else d.campDo slot [.campMember slot m (some { old with state := Ms.failed, cause := Cc.removed })]

/-! ## Aborts, expiry and CLEAR -/

/-- Fail members of a campaign, each with its cause, and answer the device. -/
def Dev.failMembers (d : Dev) (slot : Nat) (ms : List (Nat × CampMember)) (cause : Nat → CampMember → Nat) : Dev :=
  ms.foldl
    (fun d p =>
      let m := { p.2 with state := Ms.failed, cause := cause p.1 p.2 }
      (d.journal (.campMember slot p.1 (some m))).memberEntry slot p.1 m 0 0) d

/-- R282: DST_CMD ABORT, after an activation whose instant is reached. -/
def execDstAbort (slot : Nat) (s : State) : Answer :=
  s.on fun d => d.dstCmd fun d =>
    let slot := slot % 16
    let d := d.activate slot
    match Maps.get? slot d.dur.campaigns with
    | some c =>
      if c.state ≠ Cs.active then d.dstDone Dr.badState
      else
        let open_ := (d.dur.members slot).filter fun p => !p.2.final
        let d := (d.setCampaign slot { c with aborted := true, cause := 8 }).stopRounds slot
        let d := (d.failMembers slot open_ fun _ _ => Cc.aborted).showCamp slot
        (open_.foldl (fun d p => d.unicastAbort c slot p.1) d).dstDone 0
    | none => d.dstDone Dr.badState

/-- R264: DST_CMD CLEAR. -/
def execDstClear (slot : Nat) (s : State) : Answer :=
  s.on fun d => d.dstCmd fun d =>
    let slot := slot % 16
    match Maps.get? slot d.dur.campaigns with
    | some c =>
      if c.state ≠ Cs.ended ∧ c.state ≠ Cs.failed then d.dstDone Dr.badState
      else d.campDo slot [.campaign slot none]
    | none => d.dstDone Dr.badState

/-- R281: the instant at which a campaign expires: EXPIRE hours after ACT, or after its last place was done where ACT is 0. -/
def Dev.expiresAt? (d : Dev) (slot : Nat) (c : Campaign) : Option Nat :=
  let span := 3600 * d.get F.DST_LIMITS_EXPIRE
  let places := d.campPlaces slot
  if c.act ≠ 0 then some (c.act + span)
  else if places ≠ [] ∧ places.all (fun p => (d.rounds slot p).done) = true then
    some ((places.map fun p => (d.rounds slot p).doneAt).foldl max 0 + span)
  else none

/-- The instant has passed. -/
def Dev.expired (d : Dev) (slot : Nat) (c : Campaign) : Bool :=
  match d.expiresAt? slot c with
  | some t => decide (t ≤ d.tsu.sec)
  | none => false

/-- R281, R282: EXPIRE hours have passed: aborts end too. -/
def execCampaignExpire (slot : Nat) (s : State) : Answer :=
  s.on fun d =>
    match Maps.get? slot d.dur.campaigns with
    | some c =>
      if c.state ≠ Cs.active ∨ d.expired slot c = false then d
      else
        let out (meter : Nat) : Bool :=
          (((Maps.get? meter d.dur.ctxs).bind Ctx.place).map fun p => decide (c.roundsMax ≤ c.begunAt p)).getD false
        let open_ := (d.dur.members slot).filter fun p => !p.2.final
        let d := d.failMembers slot open_ fun meter _ => if out meter then Cc.rounds else Cc.unreachable
        let d := { d with fhm := { d.fhm with downlinks := d.fhm.downlinks.filter fun y => y.kind != DlKind.abort slot } }
        let d := (d.stopRounds slot).setCampaign slot { c with state := Cs.ended }
        let d := d.raise F.DST_INT_STATUS_ENDED slot
        if c.aborted then d else d.raise F.DST_INT_STATUS_EXPIRED slot
    | none => d

/-- R282: an aborted campaign's broadcast abort in a cell: the frame goes out by unslotted CSMA-CA on HOME_CH, every RENDEZVOUS
seconds, once that channel's budget takes it. -/
def execCampaignAbortBroadcast (slot place : Nat) (s : State) : Answer :=
  s.on fun d =>
    match Maps.get? slot d.dur.campaigns with
    | some c =>
      let h := d.headRt place
      let ch := Maps.getD c.homes place h.beaconCh
      let len := 15 + 10 + 2 + 8 + 4 + 4
      let r := d.rounds slot place
      if (r.lastRdv ≠ 0 ∧ d.now < r.lastRdv + 1000000000 * d.get F.DST_TIMING_RENDEZVOUS) ∨ c.state ≠ Cs.active ∨ c.aborted = false ∨ 4096 ≤ place ∨ h.orderable = false ∨ (d.bcastKey place).isNone then d
      else
        if d.budget h ch (d.now / 1000000) (granules (airtimeNs h.rate len)) = false then d.count R.FHM_CNT_n 8
        else
          match d.composeBroadcast place false (d.abortIe c) [] len with
          | (none, d) => d
          | (some psdu, d) =>
            match d.csma h.rate (d.now + d.leadNs h (unitUs h.rate)) with
            | (t0, offs, d) =>
              match d.newOrder place ch true false false t0 offs psdu (.abort slot) with
              | (o, d) => (d.setRounds slot place { r with lastRdv := d.now }).sendOrder o
    | none => d

/-! ## Rounds -/

/-- The first block of a bitmap from `from_` on. -/
def nextBlock (bitmap from_ blocks : Nat) : Option Nat :=
  (List.range (blocks - from_)).findSome? fun i => if bitmap.testBit (from_ + i) then some (from_ + i) else none

/-- The last round the campaign allows runs (FLAGS bit 4; bit 2 on ZX-PLC). -/
def Campaign.finalRound (c : Campaign) (place : Nat) : Bool := decide (c.roundsMax ≤ c.begunAt place)

/-- Begin a place's next round: round 0 sends every block (R272). After a takeover or restart it begins with one block that
carries report-now (R284). -/
def Dev.beginRound (d : Dev) (slot place : Nat) (c : Campaign) : Dev :=
  let r := d.rounds slot place
  let blocks := c.blocks (decide (4096 ≤ place))
  let n := c.begunAt place
  let d := d.journal (.campaign slot (some { c with begun := Maps.put c.begun place (n + 1) }))
  let home := Maps.getD c.homes place (d.headRt place).beaconCh
  let r := { r with
    round := n, sending := if n = 0 ∨ r.reportNow then 2 ^ blocks - 1 else r.sending, nextBlk := 0, again := [], running := true
    due := false, done := false, channel := home, rdv := true, first := true, nextAt := 0 }
  ((d.setRounds slot place r).useBitmaps slot place).showCamp slot

/-- R272: a round begins: at START, or at the end of a collection that leaves blocks missing. A paged bitmap is fetched
first (R277). -/
def execCampaignRoundStart (slot place : Nat) (s : State) : Answer :=
  s.on fun d =>
    match Maps.get? slot d.dur.campaigns with
    | some c =>
      let r := d.rounds slot place
      let here := (d.dur.members slot).any fun p => (Maps.get? p.1 d.dur.ctxs).bind Ctx.place == some place
      if c.state ≠ Cs.active ∨ c.aborted ∨ d.serves = false ∨ d.tsu.sec < c.start ∨ here = false ∨ r.running ∨ r.collectingNow ∨
          r.done ∨ c.roundsMax ≤ c.begunAt place then d
      else if r.paged then d.setRounds slot place { r with due := true }
      else d.beginRound slot place c
    | none => d

/-- R277: a paged bitmap is back from NAND; the round that waits for it begins. -/
def execBitmapPageInDone (slot place : Nat) (s : State) : Answer :=
  s.on fun d =>
    let r := d.rounds slot place
    if r.paged = false then d
    else
      let d := d.useBitmaps slot place
      match r.due, Maps.get? slot d.dur.campaigns with
      | true, some c => d.beginRound slot place c
      | _, _ => d

/-- R272: the last block of a round has been ordered: its collection period begins. -/
def Dev.roundOver (d : Dev) (slot place : Nat) : Dev :=
  let r := d.rounds slot place
  let d := d.setRounds slot place { r with
    running := false, collectingNow := true, collectAt := d.placeClock place }
  (d.showCamp slot).raise F.DST_INT_STATUS_ROUND_DONE slot place

/-- A status report of a place, received by an instant, is staged or in flight and has not been taken (R286). -/
def Dev.reportComes (d : Dev) (place end_ : Nat) : Bool :=
  let mine (f : Staged0) : Bool :=
    (f.frame.statusIe.isSome || (f.frame.medium == 2 && f.frame.kind == 2)) &&
      (Maps.get? f.meter d.dur.ctxs).bind Ctx.place == some place &&
      (decide (4096 ≤ place) || decide (1000000000 * f.rxSec + f.rxNs ≤ end_))
  d.eng.staging.any mine || d.eng.flight.any fun p => p.2.report.isNone && p.2.reading.isNone && mine p.2.staged

/-- R272: a collection period ends, once the reports that arrived in it are taken: its bitmap is the next round's, and the place is
done with an empty one, or when the last round allowed has run. -/
def execCollectionEnd (slot place : Nat) (s : State) : Answer :=
  s.on fun d =>
    match Maps.get? slot d.dur.campaigns with
    | some c =>
      let r := d.rounds slot place
      let end_ := d.collectEnd slot place
      if r.collectingNow = false ∨ d.placeClock place < end_ ∨ d.reportComes place end_ then d
      else
        let extra := decide (c.roundsMax ≤ c.begunAt place)
        let again := decide (r.collecting = 0) && decide (r.later ≠ 0) && !extra
        let ended := (decide (r.collecting = 0) && !again) || extra
        let d := d.setRounds slot place { r with
          sending := r.collecting, collecting := r.later, later := 0, reportNow := false
          collectingNow := again, collectAt := if again then d.placeClock place else r.collectAt
          done := ended, doneAt := if ended then d.tsu.sec else r.doneAt }
        if extra then
          let late := (d.dur.members slot).filter fun p =>
            (decide (p.2.state < Ms.complete) || p.2.state == Ms.waiting) &&
              (Maps.get? p.1 d.dur.ctxs).bind Ctx.place == some place
          ((d.failMembers slot late fun _ _ => Cc.rounds).showCamp slot).campEnd slot
        else d
    | none => d

/-- R283: rounds of a cell are paused: superframe mode, a head out of service, or no broadcast key. -/
def Dev.roundPaused (d : Dev) (place : Nat) : Bool :=
  (d.cell place).sf.isSome || !(d.headRt place).orderable || (d.bcastKey place).isNone

/-- R283: show KEY_HOLD, and report its entry. -/
def Dev.keyHold (d : Dev) (slot place : Nat) : Dev :=
  let was := d.flag F.DST_STATUS_KEY_HOLD
  let d := d.set F.DST_STATUS_KEY_HOLD (b2n d.held)
  if d.held && !was then d.raise F.DST_INT_STATUS_KEY_HOLD slot place else d

/-- R269: a block frame's IE content. -/
def Dev.blockIe (d : Dev) (c : Campaign) (blk round flags nextCh nextMs : Nat) : Bytes :=
  d.vendorIe 4 ++ leBytes 4 c.id ++ leBytes 3 blk ++ leBytes 1 round ++ leBytes 1 flags ++ leBytes 1 nextCh ++ leBytes 4 nextMs

/-- Block `blk` of an object, padded with zeros. -/
def blockData (object : Bytes) (size blk : Nat) : Bytes :=
  let b := (object.drop (size * blk)).take size
  b ++ List.replicate (size - b.length) 0

/-- The channel of a cell's next block (R95, R270): a rendezvous burst waits for its channel's budget, any other block re-hops
where its channel's budget is spent. Each deferral counts. -/
def Dev.blockCh (d : Dev) (place : Nat) (r : Rounds) (atMs g : Nat) : Option Nat × Dev :=
  if r.rdv then
    if d.budget (d.headRt place) r.channel atMs g then (some r.channel, d) else (none, d.count R.FHM_CNT_n 8)
  else d.broadcastCh place r.channel atMs g

/-- R270: the channel of the next burst and its first planned instant: the first channel of the hop set whose budget takes a block,
from `at_` on in steps of one second (log entry 98). -/
def Dev.nextBurst (d : Dev) (h : HeadRt) (ch g : Nat) : Nat → Nat → Nat → Nat × Nat
  | 0, at_, home => (home, at_)
  | k + 1, at_, home =>
    match d.rehop h ch (at_ / 1000000) g with
    | some c => (c, at_)
    | none => Dev.nextBurst d h ch g k (at_ + 1000000000) home

/-- R270, R284: the planned instant of a cell's next block comes: it is ordered on the burst's channel, and the burst ends
with it where the channel's budget takes no further block or a rendezvous burst is due. -/
def execCampaignBlockOrder (slot place : Nat) (s : State) : Answer :=
  s.on fun d =>
    match Maps.get? slot d.dur.campaigns with
    | some c =>
      let r := d.rounds slot place
      let h := d.headRt place
      let blocks := c.blocks false
      if c.state ≠ Cs.active ∨ c.aborted ∨ r.running = false ∨ 4096 ≤ place then d
      else if d.roundPaused place then
        (d.setRounds slot place { r with paused := true }).keyHold slot place
      else
        let d := d.keyHold slot place
        let home := Maps.getD c.homes place h.beaconCh
        let r := if r.paused then { r with paused := false, channel := home, rdv := true, first := true, nextAt := 0 } else r
        let g := granules (airtimeNs h.rate 183)
        let plan := max r.nextAt (d.now + d.leadNs h (unitUs h.rate))
        let pick : Option (Nat × Nat) := match r.again with
          | x :: _ => some x
          | [] => (nextBlock r.sending r.nextBlk blocks).map fun b => (b, 0)
        match pick with
        | none => (d.setRounds slot place r).roundOver slot place
        | some (blk, tries) =>
          match d.blockCh place r (plan / 1000000) g with
          | (none, d) => d.setRounds slot place r
          | (some ch, d) =>
            let nextBlk := if r.again = [] then blk + 1 else r.nextBlk
            let again := r.again.drop 1
            let last := r.reportNow || (decide (again = []) && (nextBlock r.sending nextBlk blocks).isNone)
            match d.csma h.rate plan with
            | (t0, offs, d) =>
              let latest := t0 + 1000 * offs.getLast?.getD 0 + airtimeNs h.rate 183
              let next := latest + 1000000
              let lastRdv := if r.rdv ∧ r.first then plan else r.lastRdv
              let rdvDue := !r.rdv && decide (lastRdv + 1000000000 * d.get F.DST_TIMING_RENDEZVOUS ≤ next)
              let full := d.budget h ch (next / 1000000) (2 * g) == false
              let ends := !last && (full || rdvDue)
              let after := latest + 20000000
              let (nextCh, after) := if rdvDue then (home, after) else d.nextBurst h ch g 3600 after home
              let sfd := t0 + octetsNs h.rate 10
              let flags := b2n last + 2 * b2n ends + 4 * b2n r.rdv + 8 * b2n r.reportNow + 16 * b2n (c.finalRound place)
              let ie := d.blockIe c blk r.round flags (if ends then nextCh else 0) (if ends then (after - sfd) / 1000000 else 0)
              match d.composeBroadcast place false ie (blockData (Maps.getD d.dst.objects slot []) 128 blk) 183 with
              | (none, d) => d
              | (some psdu, d) =>
                match d.newOrder place ch true false false t0 offs psdu (.block slot blk) with
                | (o, d) =>
                  let d := (d.sendOrder { o with retries := tries }).count R.DST_CNT_n 1
                  let d := if ends && full then d.count R.DST_CNT_n 6 else d
                  let r := { r with
                    nextBlk := nextBlk, again := again, lastRdv := lastRdv, channel := if ends then nextCh else ch
                    rdv := if ends then rdvDue else r.rdv, first := ends, nextAt := if ends then after else next }
                  let d := d.setRounds slot place r
                  if last then d.roundOver slot place else d
    | none => d

/-- R270: a block's order ended otherwise than sent: a busy channel orders it again in this round. -/
def Dev.blockEnd (d : Dev) (o : Order) (slot blk : Nat) (busy : Bool) : Dev :=
  let d := d.count R.DST_CNT_n 2
  let r := d.rounds slot o.head
  match Maps.get? slot d.dur.campaigns with
  | some c =>
    if busy ∧ o.retries < d.get F.FHM_CSMA_MAX_RETRIES ∧ c.state = Cs.active ∧ c.aborted = false ∧ (r.running ∨ r.collectingNow) then
      d.setRounds slot o.head { r with again := r.again ++ [(blk, o.retries + 1)], running := true, collectingNow := false }
    else d
  | none => d

/-- R284: after a takeover or a restart every place of an ACTIVE campaign goes on at its next round with report-now, unless
all its members hold every block; with no round left its last collection begins anew. An aborted campaign's aborts go on (R282). -/
def Dev.resumeRounds (d : Dev) : Dev :=
  d.dur.campaigns.foldl
    (fun d p =>
      if p.2.state ≠ Cs.active then d
      else if p.2.aborted then
        ((d.dur.members p.1).filter fun m => m.2.cause == Cc.aborted).foldl (fun d m => d.unicastAbort p.2 p.1 m.1) (d.stopRounds p.1)
      else
        p.2.begun.foldl
          (fun d x =>
            let behind := (d.dur.members p.1).any fun m =>
              (decide (m.2.state < Ms.complete) || m.2.state == Ms.waiting) &&
                (Maps.get? m.1 d.dur.ctxs).bind Ctx.place == some x.1
            let spent := decide (p.2.roundsMax ≤ x.2)
            d.setRounds p.1 x.1 {
              reportNow := !spent, collectingNow := behind && spent, collectAt := d.placeClock x.1, done := !behind, doneAt := d.tsu.sec }) d) d

end Sys2Proof.Machine
end

