-- ==== Sys2Proof/Machine/Storage.lean ====
section
/-! DEFINITION. The commands and events of the NAND array and of the journal's drain and checkpoints (R343 to R370,
R490). -/

namespace Sys2Proof.Machine

/-- Result codes of NFM_CMD. -/
def Nr.ok : Nat := 0
def Nr.formatted : Nat := 1
def Nr.badSize : Nat := 2
def Nr.mediaReadonly : Nat := 3
def Nr.notFound : Nat := 4
def Nr.badState : Nat := 5

/-- End an NFM command. -/
def Dev.nfmDone (d : Dev) (code : Nat) : Dev :=
  ((d.set F.NFM_CMD_RESULT code).set F.NFM_CMD_BUSY 0).raise F.NFM_INT_STATUS_CMD_DONE code

/-! ## Dies, spares and wear -/

/-- A die's highest-to-lowest P/E spread. -/
def Die.spread (x : Die) : Nat := x.peMax - x.peMin

/-- Show the dies: the channels' spares and P/E counts, the least-spared die and the widest spread. -/
def Dev.showDies (d : Dev) : Dev :=
  let d := d.nfm.dies.foldl
    (fun d p =>
      let c := p.1 / 4
      let k := p.1 % 4
      let d := (d.set (F.NFM_CH_SPARES_k_RETIRED.at2 c k) p.2.retired).set (F.NFM_CH_SPARES_k_LEFT.at2 c k) p.2.spares
      (d.set (F.NFM_CH_PE_k_MAX.at2 c k) (satNat 16 p.2.peMax)).set (F.NFM_CH_PE_k_MIN.at2 c k) (satNat 16 p.2.peMin)) d
  let worst := d.nfm.dies.foldl
    (fun (w : Option (Nat × Die)) p =>
      match w with
      | none => some p
      | some q => if p.2.spares < q.2.spares then some p else some q) none
  let d := match worst with
    | some p => (d.set F.NFM_SPARES_DIE p.1).set F.NFM_SPARES_MIN_LEFT p.2.spares
    | none => d
  d.set F.NFM_WEAR_SPREAD_NOW (satNat 16 ((d.nfm.dies.map (·.2.spread)).foldl max 0))

def Dev.setDie (d : Dev) (die : Nat) (x : Die) : Dev := { d with nfm := { d.nfm with dies := Maps.put d.nfm.dies die x } }

/-- The key of a block's table entry. -/
def blockKey (die block : Nat) : Nat := 1048576 * die + block

def Dev.block (d : Dev) (die block : Nat) : Block := Maps.getD d.nfm.blocks (blockKey die block) {}

def Dev.setBlock (d : Dev) (die block : Nat) (b : Block) : Dev :=
  { d with nfm := { d.nfm with blocks := Maps.put d.nfm.blocks (blockKey die block) b } }

/-- SPARE_LOW's limit of R353. -/
def Dev.spareLow (d : Dev) (x : Die) : Bool := decide (100 * x.spares < d.get F.NFM_SPARES_LOW_PCT * x.reserved)

/-- R355: a die needs a spare and has none: the media goes read-only; spilling and a checkpoint in progress stop. -/
def Dev.goReadOnly (d : Dev) : Dev :=
  if d.media = Media.readOnly then d
  else
    let d := { d with nfm := { d.nfm with readOnly := true, moving := [] } }.setMedia Media.readOnly
    let d := (d.raise F.NFM_INT_STATUS_READ_ONLY).set F.EVR_STATUS_SPILL_STOPPED 1
    let d := d.raise F.EVR_INT_STATUS_SPILL_STOPPED
    if d.jnl.ckptBusy.isSome then
      ({ d with jnl := { d.jnl with ckptBusy := none } }.set F.JNL_STATUS_CKPT_BUSY 0).raise F.JNL_INT_STATUS_CKPT_ABANDONED
    else d

/-- R353: retire a block: a spare of its die takes its place; with none left the media goes read-only. -/
def Dev.retireBlock (d : Dev) (die block : Nat) : Dev :=
  let b := d.block die block
  if b.retired then d
  else
    let x := Maps.getD d.nfm.dies die ⟨0, 0, 0, 0, 0, 0, 0, none⟩
    let d := (d.setBlock die block { b with retired := true }).count R.NFM_CNT_n 7
    let y := { x with retired := x.retired + 1, spares := x.spares - 1 }
    let d := ((d.setDie die y).showDies).raise F.NFM_INT_STATUS_BLOCK_RETIRED die block
    if x.spares = 0 then d.goReadOnly
    else
      let low := d.nfm.dies.any fun p => d.spareLow p.2
      let d := if d.spareLow y && !d.spareLow x then d.raise F.NFM_INT_STATUS_SPARE_LOW die y.spares else d
      d.condition F.HLT_CONDITION_SPARE_LOW low

/-- R352: a die whose spread exceeds SPREAD begins to move the block with its lowest count, once in 10 min; a move still under
way goes on. -/
def execWearLevelCheck (s : State) : Answer :=
  s.on fun d =>
    if d.media ≠ Media.normal ∨ d.glb.powerFail then d
    else
      let interval := 600 * secCycles
      let due (x : Die) : Bool :=
        decide (d.get F.NFM_WEAR_SPREAD < x.spread) && (x.lastMove.map fun t => decide (t + interval ≤ d.cycles)).getD true
      d.nfm.dies.foldl
        (fun d p =>
          if due p.2 && !d.nfm.moving.contains p.1 then
            let d := d.setDie p.1 { p.2 with lastMove := some d.cycles }
            { d with nfm := { d.nfm with moving := d.nfm.moving ++ [p.1] } }
          else d) d

/-- R346, R353: a block is erased: its P/E count rises and its record of the first program goes. -/
def Dev.erased (d : Dev) (die block : Nat) : Dev :=
  let b := d.block die block
  let d := d.setBlock die block { b with pe := b.pe + 1, programmed := none, weak := false }
  let pes := (d.nfm.blocks.filter fun p => p.1 / 1048576 == die).map (·.2.pe)
  match Maps.get? die d.nfm.dies with
  | none => d
  | some x =>
    let low := if pes.length < x.blocks then 0 else pes.foldl min (b.pe + 1)
    (d.setDie die { x with peMax := max x.peMax (b.pe + 1), peMin := low, peSum := x.peSum + 1 }).showDies

/-- R346: a block's first program is recorded, with the die's temperature. -/
def Dev.programmedAt (d : Dev) (die block : Nat) (temp : Int) : Dev :=
  let b := d.block die block
  if b.programmed.isSome then d else d.setBlock die block { b with programmed := some (d.tsu.sec, temp) }

/-- R374: the records of the stripes not yet programmed go to the overflow region, which the 1 MiB of R369 bounds. -/
def Dev.stripesToOverflow (d : Dev) : Dev :=
  let moved := d.nfm.programming ++ d.nfm.filling
  let recs := d.nfm.epochs.flatMap fun e => e.recs.filter fun r => moved.contains r.seq
  let out := recs.map fun r => (r.seq, r.ring, r.bytes.getD (List.replicate r.size 0))
  let epochs := d.nfm.epochs.map fun e => { e with recs := e.recs.filter fun r => !moved.contains r.seq }
  let first := d.jnl.overflow.isEmpty && !out.isEmpty
  let d := { d with
    nfm := { d.nfm with epochs := epochs, filling := [], programming := [] }
    jnl := { d.jnl with overflow := out ++ d.jnl.overflow } }.showOverflow
  let d := d.countBy R.JNL_CNT_n 6 out.length
  if first then d.raise F.JNL_INT_STATUS_OVERFLOW_ON else d

/-- R368: a stripe of the journal log holds 448 complete lines, which are then drained. -/
def Dev.drainLines (d : Dev) : Dev :=
  if d.jnl.drained + 448 ≤ d.jnl.line then
    let j := { d.jnl with drained := d.jnl.drained + 448 }
    let d := { d with jnl := j }.set F.JNL_STATUS_UNDRAINED j.undrained
    let d := d.countBy R.JNL_CNT_n 3 448
    if d.flag F.JNL_STATUS_STALL ∧ d.journalRoom none then d.stall false else d
  else d

/-- R354: a program or erase completes and is verified, or fails and retires the block. An archive stripe that fails is
programmed again on another block stripe, or, with no spare, its records go to overflow (R374). A wear-levelling move is complete
with its verified destination; one whose destination fails goes on with a fresh block. -/
def execNandProgramDone (job : NandJob) (die block : Nat) (temp : Int) (ok : Bool) (s : State) : Answer :=
  s.on fun d =>
    if d.media ≠ Media.normal then d
    else if ok = false then
      let d := d.retireBlock die block
      if d.media = Media.readOnly then d.stripesToOverflow else d
    else
      match job with
      | .erase => d.erased die block
      | .archive =>
        let d := (d.programmedAt die block temp).countBy R.NFM_CNT_n 0 8
        let d := { d with nfm := { d.nfm with programming := [] }.startFull }
        d.drainOverflow d.jnl.overflow.length
      | .log => ((d.programmedAt die block temp).countBy R.NFM_CNT_n 0 8).drainLines
      | .refresh => (((d.programmedAt die block temp).count R.NFM_CNT_n 0).count R.NFM_CNT_n 6).raise F.NFM_INT_STATUS_WEAK_REFRESH die block
      | .move =>
        let d := (d.programmedAt die block temp).count R.NFM_CNT_n 0
        if d.nfm.moving.contains die then
          { d with nfm := { d.nfm with moving := d.nfm.moving.filter (· ≠ die) } }.count R.NFM_CNT_n 8
        else d
      | .write n => (d.programmedAt die block temp).countBy R.NFM_CNT_n 0 n

/-! ## Reading and the Rake -/

/-- R350: a pass begins, unless one is under way or the array takes none. -/
def Dev.startRake (d : Dev) : Dev :=
  if d.nfm.rakeRunning ∨ ¬(d.media = Media.normal ∨ d.media = Media.readOnly) then d
  else { d with nfm := { d.nfm with rakeRunning := true, rakeAt := some d.cycles } }.set F.NFM_RAKE_PROGRESS 0

/-- R350: NFM_CTRL.RAKE_NOW. -/
def execRakeNow (s : State) : Answer := s.on Dev.startRake

/-- CORE_CLK cycle at which the period of the last pass ends: PERIOD days after it began (R350). -/
def Dev.rakeDue (d : Dev) : Option Nat := d.nfm.rakeAt.map fun t => t + d.get F.NFM_RAKE_PERIOD * 86400 * secCycles

/-- R350: a Rake period begins a pass. -/
def execRakePassStart (s : State) : Answer :=
  s.on fun d => if (d.rakeDue.map fun t => decide (t ≤ d.cycles)).getD true then d.startRake else d

/-- Whole hours a pass has run beyond its period (R350). -/
def Dev.rakeLate (d : Dev) : Nat := (d.cycles - d.rakeDue.getD d.cycles) / (3600 * secCycles)

/-- R350: a pass has run 12 h or more beyond its period: it is URGENT (R203). -/
def execRakeBehind (s : State) : Answer :=
  s.on fun d =>
    let hours := d.rakeLate
    if d.nfm.rakeRunning = false ∨ hours < 12 then d
    else
      let d := d.set F.NFM_RAKE_BEHIND (satNat 8 hours)
      if d.flag F.NFM_STATUS_RAKE_BEHIND then d
      else
        let d := (d.set F.NFM_STATUS_RAKE_BEHIND 1).raise F.NFM_INT_STATUS_RAKE_BEHIND hours
        d.refreshUrgent.condition F.HLT_CONDITION_RAKE_BEHIND true

/-- R350: the pass ends. -/
def Dev.endRake (d : Dev) : Dev :=
  let d := { d with nfm := { d.nfm with rakeRunning := false } }
  let d := ((d.set F.NFM_RAKE_BEHIND 0).set F.NFM_STATUS_RAKE_BEHIND 0).raise F.NFM_INT_STATUS_RAKE_PASS
  d.condition F.HLT_CONDITION_RAKE_BEHIND false

/-- The bin of a value: the number of upper limits it has reached. -/
def binOf (limits : List Int) (v : Int) : Nat := (limits.filter fun x => decide (x ≤ v)).length

/-- R348: the bins E, T and W of a block read at a temperature: the index 64 × E + 8 × T + W. A block with no record takes the
greatest elapsed time and no difference of temperature (log entry 44). -/
def Dev.thresholdIndex (d : Dev) (b : Block) (temp : Int) : Nat :=
  let e := match b.programmed with
    | some p => binOf [3600, 86400, 7 * 86400, 30 * 86400, 90 * 86400, 365 * 86400, 3 * 365 * 86400] (d.tsu.sec - p.1)
    | none => 7
  let t := match b.programmed with
    | some p => binOf [-39, -19, -5, 6, 21, 41, 61] (temp - p.2)
    | none => 3
  let w := ([10, 25, 50, 75, 90, 100, 125].filter fun x => decide (x * d.get F.NFM_PE_RATED_RATED ≤ 100 * b.pe)).length
  64 * e + 8 * t + w

/-- R347, R349: a page of a block read at a temperature with the offsets of its entry (R348), by the ladder: the step that ended
it (5: uncorrectable), the re-reads of step 2, and the most bits corrected in a codeword; the partition and page address; and,
for a read of the Rake, the percentage of the pass that it completes (R350). -/
def execNandReadDone (die block part addr : Nat) (temp : Int) (ladder rereads corrected : Nat) (rake : Option Nat) (s : State) :
    Answer :=
  s.on fun d =>
    let entry := d.thresholdIndex (d.block die block) temp
    let d := d.emit (.nandRead die block addr entry (Maps.getD d.nfm.thresholds entry 0))
    let d := d.count R.NFM_CNT_n 1
    let d := if 2 ≤ ladder then d.countBy R.NFM_CNT_n 2 (if ladder = 2 then min rereads (d.get F.NFM_RETRY_COUNT) else d.get F.NFM_RETRY_COUNT) else d
    let d := if 3 ≤ ladder then d.count R.NFM_CNT_n 3 else d
    let d := if 4 ≤ ladder then (d.count R.NFM_CNT_n 4).raise F.NFM_INT_STATUS_PARITY_REBUILD part addr else d
    let d := if 5 ≤ ladder then (d.count R.NFM_CNT_n 5).raise F.NFM_INT_STATUS_UNCORRECTABLE part addr else d
    let d :=
      if 4 ≤ ladder ∧ d.media = Media.normal then d.retireBlock die block
      else if 2 ≤ ladder ∨ d.get F.NFM_RETRY_REFRESH < corrected then
        d.setBlock die block { d.block die block with weak := true }
      else d
    match rake with
    | none => d
    | some p =>
      if d.nfm.rakeRunning = false then d
      else
        let d := d.set F.NFM_RAKE_PROGRESS (min p 100)
        if 100 ≤ p then d.endRake else d

/-! ## Checkpoints -/

/-- R370: start a checkpoint: the durable state as of its start record. -/
def Dev.startCheckpoint (d : Dev) : Dev :=
  if d.jnl.ckptBusy.isSome ∨ d.media ≠ Media.normal ∨ d.glb.powerFail then d
  else
    let d := d.journal .ckptStart
    { d with jnl := { d.jnl with ckptBusy := some (d.jnl.line, d.dur), readings := 0, ckptAt := d.cycles } }.set F.JNL_STATUS_CKPT_BUSY 1

/-- The entries from the last checkpoint's start record on. -/
def afterStart (es : List JEntry) : List JEntry := (es.reverse.takeWhile fun e => decide (e.rec_ ≠ .ckptStart)).reverse

/-- R370: the page map is written and verified: the checkpoint is complete, and REWRAP_DONE follows where it covers a REWRAP's
end (R298). -/
def Dev.endCheckpoint (d : Dev) : Dev :=
  match d.jnl.ckptBusy with
  | none => d
  | some (line, dur) =>
    let j := { d.jnl with entries := afterStart d.jnl.entries, ckpt := some dur, ckptLine := line, ckptBusy := none }
    let d := { d with jnl := j }.journal .ckptDone
    let d := (d.setWide R.JNL_CKPT_LINE_LO R.JNL_CKPT_LINE_HI 0 line).set F.JNL_STATUS_CKPT_BUSY 0
    let d := (d.count R.JNL_CNT_n 4).raise F.JNL_INT_STATUS_CKPT_DONE
    let isDone (u : Dur) : Bool := (u.rewrap.map fun r => r.2.2 == 1048576).getD false
    if isDone dur && isDone d.dur then { d with dur := { d.dur with rewrap := none } }.raise F.KEY_INT_STATUS_REWRAP_DONE else d

/-- R370: PERIOD minutes have passed since the last checkpoint started, or UNITS thousand READING heads (`units`) been written. -/
def execCheckpointTrigger (units : Bool) (s : State) : Answer :=
  s.on fun d =>
    let due := if units then 1000 * d.get F.JNL_CKPT_UNITS ≤ d.jnl.readings
      else d.jnl.ckptAt + d.get F.JNL_CKPT_PERIOD * 60 * secCycles ≤ d.cycles
    if due then d.startCheckpoint else d

/-- R370: JNL_CTRL.CKPT_NOW. -/
def execCkptNow (s : State) : Answer := s.on Dev.startCheckpoint

/-- R370: a checkpoint is complete. Read-only media completes none (R355). -/
def execCheckpointComplete (s : State) : Answer :=
  s.on fun d => if d.media = Media.normal ∧ d.glb.powerFail = false then d.endCheckpoint else d

/-! ## FORMAT and ARCH_READ -/

/-- Block stripes of the array for data: blocks of a die less spares, on each CE (R344, R345). -/
def Nand.blockStripes (n : Nand) : Nat :=
  ((n.dies.filter fun p => p.1 / 4 == 0).map fun p => p.2.blocks - p.2.blocks * 3 / 100).sum

/-- Block stripes that `g` GiB take. -/
def Nand.stripesFor (n : Nand) (g : Nat) : Nat :=
  let bytes := n.stripesPerEpoch * 114688
  if bytes = 0 then 0 else (g * 2 ^ 30 + bytes - 1) / bytes

/-- The new directory (R345): partition sizes, spares, and an empty array. -/
def Dev.newDirectory (d : Dev) (sizes : List Nat) : Dev :=
  let n := d.nfm
  let archive := n.blockStripes - (sizes.map n.stripesFor).sum
  let size0 := archive * n.stripesPerEpoch * 114688 / 2 ^ 30
  let fresh (x : Die) : Die :=
    { spares := x.blocks * 3 / 100, reserved := x.blocks * 3 / 100, retired := 0, peMin := 0, peMax := 0, peSum := 0, blocks := x.blocks }
  let dies := n.dies.map fun p => (p.1, if n.directory then fresh p.2 else { p.2 with spares := p.2.blocks * 3 / 100, reserved := p.2.blocks * 3 / 100 })
  let blocks := if n.directory then [] else n.blocks
  let d := { d with
    nfm := { n with
      directory := true, readOnly := false, parts := size0 :: sizes, dies := dies, blocks := blocks, epochs := [], epochNext := 0,
      epochCap := archive, filling := [], programming := [], moving := [], oldest := 0, lastSealDigest := 0, current := none,
      previous := none, grafts := [], objects := [] } }
  let d := { d with face := { d.face with hst := { d.face.hst with evr := { d.face.hst.evr with archive := [] } } } }
  ((d.set (F.NFM_PART_n_SIZE.at 0) (satNat 16 size0)).set F.NFM_STATUS_ARCHIVE_FULL 0).showDies.set F.EVR_STATUS_SPILL_STOPPED 0

/-- Records written before the event archive could take them (R455, R490). -/
def Dev.spillWaiting (d : Dev) : Dev :=
  if d.trl.sealed = false then d
  else
  let waiting := d.face.hst.evr.toSpill
  let f := { d.face with hst := { d.face.hst with evr := { d.face.hst.evr with toSpill := [] } } }
  { d with face := waiting.foldl (fun f r => if bitAt (d.env.events.getD r.code {}).flags 2 then f.spill d.env r else f) f }

/-- R490: FORMAT. Over an UNFORMATTED array the journal's lines are discarded and checkpoint 0 is written; with FORCE over a valid
directory the journal and the state stay, and a full checkpoint is the first. -/
def execFormat (force : Bool) (s : State) : Answer :=
  s.on fun d =>
    let sizes := (List.range 3).map fun i => d.get (F.NFM_PART_n_SIZE.at (i + 1))
    if d.media = Media.offline then d.nfmDone Nr.badState
    else if d.nfm.directory ∧ force = false then d.nfmDone Nr.formatted
    else if d.nfm.blockStripes ≤ (sizes.map d.nfm.stripesFor).sum then d.nfmDone Nr.badSize
    else if d.nfm.directory then
      let d := (d.newDirectory sizes).setMedia Media.normal
      let d := d.condition F.HLT_CONDITION_SPARE_LOW false
      let d := { d with jnl := { d.jnl with ckptBusy := none } }.startCheckpoint.endCheckpoint
      ((d.drainOverflow d.jnl.overflow.length).spillWaiting).nfmDone Nr.ok
    else
      let d := d.newDirectory sizes
      let seq := d.jnl.lastSeq + 1
      let zero : Dur := { seqNext := seq }
      let d := { d with
        jnl := { lastSeq := d.jnl.lastSeq, ckpt := some zero, ckptAt := d.cycles }
        dur := { d.dur with seqNext := seq } }
      let d := d.journal (.evReserve d.dur.evReserved)
      let d := (d.setWide R.JNL_CKPT_LINE_LO R.JNL_CKPT_LINE_HI 0 0).showOverflow
      ((d.setMedia Media.normal).spillWaiting).nfmDone Nr.ok

/-- Records of ARCH_READ's copy, whole records only, then the end word where it fits (R361). -/
def archCopy : Nat → List (Nat × Option Bytes) → Bytes
  | room, [] => if 4 ≤ room then [0, 0, 0, 0] else []
  | room, (_, some b) :: rest =>
    if 4 + b.length ≤ room then leBytes 4 b.length ++ b ++ archCopy (room - 4 - b.length) rest
    else if 4 ≤ room then [0, 0, 0, 0] else []
  | room, (_, none) :: _ => if 4 ≤ room then [0, 0, 0, 0] else []

/-- R361: ARCH_READ. A record whose tag or signature is awaited ends the copy (log entry 26). -/
def execArchRead (s : State) : Answer :=
  s.on fun d =>
    let start := d.wide R.NFM_ARCH_SEQ_LO R.NFM_ARCH_SEQ_HI 0
    let room := d.get F.NFM_HOST_LEN_LENGTH
    if d.media = Media.offline ∨ d.media = Media.unformatted then d.nfmDone Nr.badState
    else if room < 180 then d.nfmDone Nr.badSize
    else if start < d.nfm.oldest then d.nfmDone Nr.notFound
    else
      let recs := (d.nfm.epochs.flatMap fun e => e.recs.map fun r => (r.seq, r.bytes)) ++
        d.jnl.overflow.map fun r => (r.1, if d.eng.records.any (fun x => x.seq == r.1 && x.done.isNone) then none else some r.2.2)
      let b := archCopy room (recs.filter fun r => decide (start ≤ r.1))
      (d.emit (.dma (d.wide R.NFM_HOST_ADDR_LO R.NFM_HOST_ADDR_HI 0) b)).nfmDone Nr.ok

end Sys2Proof.Machine
end

