-- ==== Sys2Proof/Machine/Pair.lean ====
section
/-! DEFINITION. Which device of a pair has control (R402 to R418): the sideband lines, negotiation, fault verdicts and yield,
takeover, handover and return. -/

namespace Sys2Proof.Machine

/-! ## Lines and states -/

/-- Causes of R405 whose class is STOP. -/
def stopClass (cause : Nat) : Bool := decide (1 ≤ cause) && decide (cause ≤ 6)

/-- A standby is fit: no fault cause, and its engines pass their tests (R403, R412). -/
def Dev.fit (d : Dev) : Bool := d.prl.causes.isEmpty && d.prl.enginesOk

/-- The lines this device releases, bit 0 ACTIVE, 1 HEALTHY, 2 TAKE, 3 YIELD (R403). A watchdog's stop releases none. -/
def Dev.linesOut (d : Dev) : Nat :=
  if d.prl.up = false then 0
  else if d.pairState = PairSt.listen ∨ d.pairState = PairSt.syncing then 9
  else if d.pairState = PairSt.standby then 9 + 2 * b2n d.fit + 4 * b2n d.prl.taking
  else if d.pairState = PairSt.active then 7
  else if d.pairState = PairSt.out ∧ ¬d.prl.causes.contains 6 then 8
  else 0

/-- A line is high when both devices release it (R402). -/
def Dev.showLines (d : Dev) : Dev := (d.set F.PRL_SIDEBAND_RELEASED d.linesOut).set F.PRL_SIDEBAND_LEVEL (d.linesOut &&& d.prl.lines)

/-- What the partner releases, as sampled: PAIR_ACTIVE counts as low from the first sample that finds it low (R404). -/
def Dev.setLines (d : Dev) (lines : Nat) : Dev :=
  { d with prl := { d.prl with
      lines := lines, lowSince := if bitAt lines 0 then none else some (d.prl.lowSince.getD d.cycles) } }.showLines

def Dev.lineHigh (d : Dev) (n : Nat) : Bool := bitAt (d.get F.PRL_SIDEBAND_LEVEL) n

/-- This device's HELLO (R426). -/
def Dev.helloOf (d : Dev) : Hello :=
  { state := d.pairState, cause := d.prl.lastYield, confirmed := d.jnl.mirrored, buildSerial := d.trl.buildSerial
    mapDigest := (Crypto.sha256 (d.trellis.device.bucketOwner.flatMap (leBytes 1))).toNat }

/-- Send HELLO on MIRROR_LINK. -/
def Dev.helloOut (d : Dev) : Dev :=
  if d.trellis.device.pairMode = 1 then d.sendRunner d.trellis.device.mirrorLink d.trellis.device.partner (.hello d.helloOf) else d

/-- Control that lasted 60 s after a takeover or handover leaves an age of 0 (R418). -/
def Dev.heldAges (d : Dev) : Dev :=
  let long (s : Option Nat) : Bool := (s.map fun t => decide (t + 60 * secCycles ≤ d.cycles)).getD false
  let d := if long d.prl.controlSince then d.set F.PRL_DRILL_SELF_AGE 0 else d
  if long d.prl.partnerSince then d.set F.PRL_DRILL_PARTNER_AGE 0 else d

/-- Enter a pair state: lines, PAIRED_COMMIT, and a HELLO that tells the partner (log entry 30). -/
def Dev.setPair (d : Dev) (st : Nat) : Dev :=
  let d := d.heldAges
  let d := { d with prl := { d.prl with
    up := true
    standbySince := if st = PairSt.standby then some d.cycles else none
    listenAt := if st = PairSt.listen then d.cycles else d.prl.listenAt
    controlSince := none
    taking := false
    handover := none } }.set F.PRL_STATUS_STATE st
  (d.showLines.showIng).helloOut

def Dev.setPartner (d : Dev) (st : Nat) : Dev := (d.set F.PRL_STATUS_PARTNER_STATE st).showIng

/-- End a PRL command. -/
def Dev.prlDone (d : Dev) (code : Nat) : Dev :=
  ((d.set F.PRL_CMD_RESULT code).set F.PRL_CMD_BUSY 0).raise F.PRL_INT_STATUS_CMD_DONE code

/-- The last change of control (PRL_CAUSE, PRL_TAKEOVER). -/
def Dev.controlChange (d : Dev) (kind cause : Nat) : Dev :=
  ((d.set F.PRL_CAUSE_KIND kind).set F.PRL_CAUSE_CAUSE cause).setWide R.PRL_TAKEOVER_LO R.PRL_TAKEOVER_HI 0 (d.tsu.sec % 2 ^ 48)

/-! ## Replay -/

/-- The durable state that the newest complete checkpoint and the records after it give (R373). -/
def Dev.replayed (d : Dev) : Dur := d.jnl.entries.foldl (Dur.apply d.readEnv) (d.jnl.ckpt.getD {})

/-- Discard the journal beyond the last mirror-confirmed line, with the archived records of its readings (R373, R413). -/
def Dev.discardUnconfirmed (d : Dev) : Dev :=
  let gone := (d.jnl.entries.filter fun e => decide (d.jnl.mirrored < e.line)).filterMap fun e => match e.rec_ with
    | .reading r => some r.body.seq
    | _ => none
  let j := { d.jnl with
    entries := d.jnl.entries.filter fun e => decide (e.line ≤ d.jnl.mirrored)
    line := min d.jnl.line d.jnl.mirrored
    overflow := d.jnl.overflow.filter fun r => !gone.contains r.1 }
  let keep (e : Epoch) : Epoch := { e with recs := e.recs.filter fun r => !gone.contains r.seq }
  { d with jnl := j, nfm := { d.nfm with epochs := d.nfm.epochs.map keep } }

/-- Go back to the last mirror-confirmed line (R172, R373, R413). -/
def Dev.toConfirmed (d : Dev) : Dev :=
  let d := d.discardUnconfirmed
  { d with dur := { d.replayed with evReserved := max d.replayed.evReserved d.dur.evReserved } }

/-- R172: a device that becomes ACTIVE at start-up continues from its last mirror-confirmed number, where what it appended later still
awaited the standby; appends that were the commit themselves (R173) stay (log entry 85). -/
def Dev.dropAwaited (d : Dev) : Dev :=
  if d.jnl.waits then { d.toConfirmed with jnl := { d.toConfirmed.jnl with waits := false } } else d

/-- Enter SYNCING. With catch-up only, nothing is discarded (R406). -/
def Dev.toSyncing (d : Dev) (catchUp : Bool) : Dev :=
  let d := if catchUp then d else d.toConfirmed
  let d := { d with dur := d.dur.dropLoads }
  let d := { d with prl := { d.prl with synced := catchUp, agrees := true, applied := [], sinceDigest := 0, crc := 0 } }
  ((d.set F.PRL_RESYNC_PHASE (if catchUp then 2 else 1)).set F.PRL_RESYNC_PROGRESS 0).setPair PairSt.syncing

/-! ## Records emitted again -/

/-- The body of a reading that the journal still holds. -/
def Journal.body? (j : Journal) (seq : Nat) : Option RecordBody :=
  j.entries.findSome? fun e => match e.rec_ with
    | .reading r => if r.body.seq = seq then some r.body else none
    | _ => none

/-- Queue a record for its ring, in its archived form where that is tagged or signed, else to be tagged or signed. -/
def Dev.queueArchived (d : Dev) (seq ring : Nat) (ecdsa : Bool) (bytes : Option Bytes) : Dev :=
  let sealed? (b : Bytes) : Bool := b.u8 0 != 0 && b.u8 0x2E == 0
  let q (body : RecordBody) (done : Option Bytes) : Dev :=
    d.queueRecord { seq := seq, ring := ring, body := body, ecdsa := ecdsa, done := done, replay := true }
  match bytes with
  | some b =>
    if sealed? b then q (RecordBody.ofBytes b) (some b)
    else if b.u8 0 = 0 then
      match d.jnl.body? seq with
      | some x => q x none
      | none => d
    else q (RecordBody.ofBytes b) none
  | none =>
    match d.jnl.body? seq with
    | some x => q x none
    | none => d

/-- R373, R410: re-emit, in sequence order, every archived record that host software has not confirmed. -/
def Dev.reEmitAll (d : Dev) : Dev :=
  let open_ (ring seq : Nat) : Bool := decide (Maps.getD d.dur.confirmed ring 0 < seq)
  let held := (d.nfm.epochs.flatMap (·.recs)).filter fun r => open_ r.ring r.seq || r.unsignedRec
  let extra := d.jnl.overflow.filter fun r => open_ r.2.1 r.1
  let d := held.foldl (fun d r => d.queueArchived r.seq r.ring r.ecdsa r.bytes) d
  let d := extra.foldl (fun d r => d.queueArchived r.1 r.2.1 (decide (r.2.2.length = 176)) (some r.2.2)) d
  (List.range 64).foldl (fun d n => d.emitRing n d.eng.records.length) d

/-! ## Taking control -/

/-- Heads rejoin and cells go into superframe mode (R68, R87; start-up steps 11 and 12), and check meters that the loaded base
names leave their zones (R246). -/
def Dev.recover (d : Dev) : Dev :=
  let d := d.recallAll.detachChecks
  d.dur.heads.foldl (fun d p => d.enterSf p.1 false false true) d

/-- R409, R117: outbound counters of every feeder phase move ahead; those of meters move on first use. -/
def Dev.moveCounters (d : Dev) : Dev :=
  let phase (p : ZxPhase) : ZxPhase := { p with outCtr := (p.outCtr + 2 ^ 20) % 2 ^ 32 }
  { d with
    zxp := { feeders := d.zxp.feeders.map fun f => { f with phases := f.phases.map phase } }
    prl := { d.prl with moved := some [] } }

/-- R407, R410: this device becomes ACTIVE. KIND 0 is negotiation at start-up. -/
def Dev.takeControl (d : Dev) (kind cause partner : Nat) : Dev :=
  let d := (d.setPair PairSt.active).setPartner partner
  let now := d.cycles
  let p := { d.prl with
    unsynced := false, outstanding := [], staged := [], synced := false, partnerSince := none, sinceDigest := 0, crc := 0
    controlSince := if kind = 0 then none else some now
    probation := if kind = 4 then some (now + d.get F.PRL_PROBATION_SECONDS * secCycles) else none }
  let early := d.prl.applied
  let d := { d with prl := { p with applied := [] }, jnl := { d.jnl with line := d.jnl.line + b2n (d.jnl.used != 0), used := 0 } }
  let d := (early.foldl Dev.journal d).dropLoads
  let d := d.key.committed.foldl (fun d p => d.takeS p.1) d
  let d := ((d.set F.PRL_RESYNC_PHASE 0).set F.PRL_MIRROR_OUTSTANDING 0).showLines
  let d := (d.controlChange kind cause).moveCounters
  let d := (List.range 4).foldl Dev.sendAnnounce d
  let d := d.recover
  let doubt (p : Nat × Ctx) : Nat × Ctx := (p.1, { p.2 with confidence := 0 })
  let d := { d with dur := { d.dur with ctxs := d.dur.ctxs.map doubt } }.balTake
  let d := d.reEmitAll.resumeRounds.rewrapResume
  let d := if kind = 0 then d else d.count R.PRL_CNT_n 2
  d.raise F.PRL_INT_STATUS_TOOK_CONTROL kind cause

/-! ## Yield -/

/-- Records that still await a tag or signature take it in the archive: none leaves for the host any more (R411). -/
def Dev.fillPending (d : Dev) : Dev :=
  (d.eng.records.filter fun r => r.done.isNone).foldl
    (fun d r =>
      match d.recordKey r.ecdsa r.seq with
      | some k =>
        if r.ecdsa && !d.drbgRuns then d
        else
          match d.sealRecord r.body r.ecdsa k with
          | (b, d) => d.archiveFill r.seq b false
      | none => d.archiveFill r.seq (d.plainRecord r.body r.ecdsa d.noKeyStatus) true) d

/-- Commands that waited for the standby's application, or for a meter's work, end without a result. -/
def Dev.dropCmds (d : Dev) : Dev :=
  let d := d.prl.pendingCmds.foldl
    (fun d c => match c.finish.busy with
      | some x => d.set x 0
      | none => d) d
  let d := if d.eng.downs.any (fun x => x.2.1 == .cancel) then d.set F.KEY_CMD_BUSY 0 else d
  { d with prl := { d.prl with pendingCmds := [] } }

/-- Nothing of the service goes on: no admission, orders, rounds, sweeps or evaluations (R406). -/
def Dev.stopService (d : Dev) : Dev :=
  let d := d.fillPending.dropCmds.stopAllZx
  let d := { d with
    eng := {}, fhm := {}, bil := { upSec := d.bil.upSec }, dst := { objects := d.dst.objects }
    key := { d.key with rolls := [] }
    prl := { d.prl with outstanding := [], staged := [], handover := none, unsynced := false } }
  let d := (((d.set F.BIL_STATUS_SWEEPS 0).set F.BAL_STATUS_EVAL_BUSY 0).set F.PRL_MIRROR_OUTSTANDING 0).set F.CTX_KEY_AGE_EPOCH 0
  d.showIng.showCtx.showHead

/-- R406, R416, R417: yield with a cause: OUT. -/
def Dev.yieldWith (d : Dev) (cause : Nat) : Dev :=
  let was := d.pairState
  if d.prl.up = false ∨ ¬(was = PairSt.active ∨ was = PairSt.listen ∨ was = PairSt.syncing ∨ was = PairSt.standby) then d
  else
    let failed := cause ≠ 0x80 && (d.prl.probation.map fun t => decide (d.cycles < t)).getD false
    let d :=
      if failed then
        ((((d.set F.PRL_STATUS_NONREVERTIVE 1).set F.PRL_STATUS_REVERT_PENDING 0).raise F.PRL_INT_STATUS_REVERT_FAILED cause).condition
          F.HLT_CONDITION_NONREVERTIVE true)
      else d
    let back := was = PairSt.active ∧ d.flag F.PRL_PAIR_CFG_REVERTIVE ∧ d.flag F.PRL_PAIR_CFG_PREFERRED ∧ ¬d.flag F.PRL_STATUS_NONREVERTIVE
    let d := if back then d.set F.PRL_STATUS_REVERT_PENDING 1 else d
    let d := { d with jnl := { d.jnl with waits := if was = PairSt.active then d.standbySynced else d.jnl.waits } }.stopService
    let d := { d with prl := { d.prl with probation := none, lastYield := cause, held := none, yieldAt := d.cycles } }
    let d := ((d.set F.PRL_STATUS_NO_STANDBY 0).condition F.HLT_CONDITION_NO_STANDBY false).setPair PairSt.out
    let d := (d.controlChange (if cause = 0x80 then 3 else 1) cause).count R.PRL_CNT_n 3
    let d := d.raise F.PRL_INT_STATUS_YIELDED cause
    if d.flag F.PRL_CMD_BUSY then d.prlDone 0 else d

/-- Show the conditions that a fault cause is (HLT_CONDITION). -/
def Dev.causeShown (d : Dev) : Dev :=
  (d.condition F.HLT_CONDITION_THERMAL (d.prl.causes.contains 0x07)).condition F.HLT_CONDITION_ENTROPY (d.prl.causes.contains 0x0A)

/-- R405: a HANDOVER-class cause is held while no standby is there. -/
def Dev.holdFault (d : Dev) (cause : Nat) : Dev :=
  let d := { d with prl := { d.prl with held := some cause } }.set F.PRL_STATUS_NO_STANDBY 1
  (d.condition F.HLT_CONDITION_NO_STANDBY true).raise F.PRL_INT_STATUS_NO_STANDBY cause

/-- R405, R416: a fault verdict. -/
def Dev.verdict (d : Dev) (cause : Nat) : Dev :=
  let new := !d.prl.causes.contains cause
  let causes := if new then d.prl.causes ++ [cause] else d.prl.causes
  let since := d.prl.standbySince.map fun _ => d.cycles
  let d := { d with prl := { d.prl with causes := causes, standbySince := since } }.causeShown
  if d.prl.up = false then d
  else if d.pairState = PairSt.unpaired then if new && !stopClass cause then d.holdFault cause else d
  else if d.pairState = PairSt.out then d
  else if stopClass cause then d.yieldWith cause
  else if d.pairState = PairSt.active then
    if d.lineHigh 1 then d.yieldWith cause else if new then d.holdFault cause else d
  else d.showLines

/-- R405: FAULT_VERDICT. -/
def execFaultVerdict (cause : Nat) (s : State) : Answer := s.on fun d => d.verdict cause

/-- R405: PRL_HOST_BEAT.TIMEOUT ms, where it is not zero, pass without a write of PRL_HOST_BEAT. -/
def execHostBeatTimeout (s : State) : Answer :=
  s.on fun d =>
    let ms := d.get F.PRL_HOST_BEAT_TIMEOUT
    if ms ≠ 0 ∧ d.prl.beatAt + ms * msCycles < d.cycles then d.verdict 0x0B else d

/-- R405, R487: no scheduler heartbeat for 10 ms. An unpaired device restarts. -/
def execWatchdogExpire (s : State) : Answer :=
  s.on fun d =>
    if d.prl.up ∧ d.pairState ≠ PairSt.unpaired then d.verdict 6
    else if d.glb.inReset then d
    else d.restartFromStep3

/-- A held HANDOVER-class cause is over; another one in force is held on. -/
def Dev.holdOver (d : Dev) (cause : Nat) : Dev :=
  if d.prl.held = some cause then
    match d.prl.causes.find? (!stopClass ·) with
    | some c => { d with prl := { d.prl with held := some c } }
    | none => ({ d with prl := { d.prl with held := none } }.set F.PRL_STATUS_NO_STANDBY 0).condition F.HLT_CONDITION_NO_STANDBY false
  else d

/-- OUT lasts while its cause, or any STOP cause, is in force; a commanded handover ends it otherwise (R406). -/
def Dev.staysOut (d : Dev) : Bool :=
  d.prl.outAtStart || d.prl.causes.any stopClass || d.prl.causes.contains d.prl.lastYield || d.prl.lastYield == 0x80

/-- A fault cause is over (R406): OUT ends, by a restart from step 3, once its cause is gone. -/
def Dev.causeOver (d : Dev) (cause : Nat) : Dev :=
  let d := ({ d with prl := { d.prl with causes := d.prl.causes.filter (· ≠ cause) } }.causeShown).holdOver cause
  if d.prl.up = false then d
  else if d.pairState == PairSt.out && !d.staysOut then d.restartFromStep3
  else d.showLines

/-- R406, R408: FAULT_CLEARED. The cause 0x80 ends 1 ms after a commanded handover: the device comes back by catch-up. -/
def execFaultCleared (cause : Nat) (s : State) : Answer :=
  s.on fun d =>
    if cause ≠ 0x80 then d.causeOver cause
    else if d.prl.up ∧ d.pairState = PairSt.out ∧ d.prl.lastYield = 0x80 ∧ ¬d.prl.causes.any stopClass ∧
        d.prl.yieldAt + msCycles ≤ d.cycles then d.toSyncing true
    else d

/-- R405: PRL_HOST_BEAT.BEAT. -/
def execHostBeat (s : State) : Answer :=
  s.on fun d =>
    let d := { d with prl := { d.prl with beatAt := d.cycles } }
    if d.prl.causes.contains 0x0B then d.causeOver 0x0B else d

/-! ## Negotiation (R404) -/

/-- Take the first decision of R404 that applies. -/
def Dev.negotiate (d : Dev) : Dev :=
  if d.prl.up = false ∨ d.pairState ≠ PairSt.listen ∨ d.lineHigh 0 = false then d
  else if d.lineHigh 3 = false then (d.setPartner PairSt.active).toSyncing false
  else
    match d.prl.hello with
    | none => d
    | some h =>
      let mine := d.jnl.mirrored
      if h.confirmed < mine ∨ (h.confirmed = mine ∧ d.trellis.device.position < d.trellis.device.partner) then d.dropAwaited.takeControl 0 0 h.state
      else d.toSyncing false

/-- R404: NEGOTIATE has passed: with PAIR_ACTIVE low, ACTIVE without a standby; with no HELLO, the device stays in LISTEN. -/
def execNegotiateTimeout (lines : Nat) (s : State) : Answer :=
  s.on fun d =>
    if d.prl.up = false ∨ d.pairState ≠ PairSt.listen then d
    else
      let d := d.setLines (lines % 16)
      let wait := d.get F.PRL_PAIR_CFG_NEGOTIATE * msCycles
      if d.lineHigh 0 = false then
        if (d.prl.lowSince.map fun t => decide (t + wait ≤ d.cycles)).getD false then d.dropAwaited.takeControl 0 0 PairSt.unknown
        else d
      else if d.cycles ≤ d.prl.listenAt + wait then d
      else if d.lineHigh 3 ∧ d.prl.hello = none then d.raise F.PRL_INT_STATUS_LINK_DOWN d.trellis.device.mirrorLink
      else d.negotiate

/-- R404: every 1 ms in LISTEN, HELLO on MIRROR_LINK, and the lines as sampled then. -/
def execHelloDue (lines : Nat) (s : State) : Answer :=
  s.on fun d =>
    if d.prl.up = false ∨ d.pairState ≠ PairSt.listen then d
    else (d.setLines (lines % 16)).helloOut.negotiate

/-! ## The partner's lines -/

/-- The partner is gone: the rest of what waited for it is done alone (R173, R189). -/
def Dev.partnerGone (d : Dev) : Dev :=
  let cmds := d.prl.pendingCmds
  let d := { d with prl := { d.prl with pendingCmds := [], outstanding := [], staged := [], partnerSince := none } }
  let d := ((d.set F.PRL_MIRROR_OUTSTANDING 0).set F.PRL_RESYNC_PHASE 0).showIng
  let waiting := (d.eng.flight.filter fun p => p.2.stage == .mirror).map (·.1)
  let d := cmds.foldl Dev.completeCmd d
  let d := waiting.foldl Dev.commitItem d
  d.releaseAccepts none

/-- KIND of a takeover (PRL_CAUSE). -/
def Dev.takeoverKind (d : Dev) (yield : Bool) (cause : Nat) : Nat :=
  if d.prl.taking then (if d.flag F.PRL_STATUS_REVERT_PENDING then 4 else 3)
  else if yield then (if cause = 0x80 then 3 else 1)
  else 2

/-- R407, R414: PAIR_ACTIVE falls, PAIR_YIELD high or low. -/
def execPairActiveFall (yield : Bool) (s : State) : Answer :=
  s.on fun d =>
    if d.prl.up = false ∨ d.pairState = PairSt.unpaired ∨ d.pairState = PairSt.out then d
    else
      let cause := if yield then (d.prl.hello.map (·.cause)).getD 0 else 0
      let d := d.setLines (if yield then 8 else 0)
      let gone := if yield then PairSt.out else PairSt.unknown
      if d.pairState = PairSt.standby then
        let kind := d.takeoverKind yield cause
        (d.raise F.PRL_INT_STATUS_PARTNER_LOST (b2n yield) cause).takeControl kind cause gone
      else if d.pairState = PairSt.active then
        (((d.setPartner gone).partnerGone).raise F.PRL_INT_STATUS_PARTNER_LOST (b2n yield) cause)
      else (d.setPartner gone).occur Ev.lostUnsynced 0x10 (b2n yield) cause

/-! ## Commanded handover and return -/

/-- R415: the active device has drained, or 50 ms have passed: it yields with cause 0x80 (R408). -/
def Dev.handoverCheck (d : Dev) : Dev :=
  match d.prl.handover with
  | none => d
  | some h =>
    if (d.eng.flight.isEmpty ∧ d.prl.outstanding.isEmpty) ∨ h.since + 61440000 ≤ d.cycles then d.yieldWith 0x80 else d

/-- R415: admission stops; what is admitted ends first. -/
def Dev.beginHandover (d : Dev) : Dev :=
  if d.prl.handover.isSome then d else { d with prl := { d.prl with handover := some ⟨d.cycles⟩ } }.handoverCheck

/-- A PRL command: a write while BUSY has no effect; an unpaired device has no partner. -/
def Dev.prlCmd (d : Dev) (f : Dev → Dev) : Dev :=
  if d.flag F.PRL_CMD_BUSY then d
  else if d.prl.up = false then d.prlDone 1
  else if d.pairState = PairSt.unpaired then d.prlDone 3
  else f d

/-- R415: HANDOVER. -/
def execHandover (s : State) : Answer :=
  s.on fun d => d.prlCmd fun d =>
    if d.pairState ≠ PairSt.active then d.prlDone 1
    else if d.lineHigh 1 = false then d.prlDone 2
    else (d.set F.PRL_CMD_BUSY 1).beginHandover

/-- R415: TAKE. -/
def execTake (s : State) : Answer :=
  s.on fun d => d.prlCmd fun d =>
    if d.pairState ≠ PairSt.standby then d.prlDone 1
    else if d.lineHigh 1 = false then d.prlDone 2
    else ({ d with prl := { d.prl with taking := true } }.showLines).prlDone 0

/-- R415: PAIR_TAKE rises at the active device. -/
def execPairTakeRise (s : State) : Answer :=
  s.on fun d =>
    let d := d.setLines (d.prl.lines ||| 4)
    if d.prl.up ∧ d.pairState = PairSt.active ∧ d.lineHigh 1 then d.beginHandover else d

/-- R405: PAIR_HEALTHY changes. -/
def execPairHealthyChange (high : Bool) (s : State) : Answer :=
  s.on fun d =>
    let d := d.setLines (setBitTo d.prl.lines 1 high)
    if d.prl.up = false ∨ d.pairState ≠ PairSt.active then d
    else if high then
      match d.prl.held with
      | some c => d.yieldWith c
      | none => d
    else d.raise F.PRL_INT_STATUS_PARTNER_LOST 1

/-- R172, R414: FORCE_TAKE. -/
def execForceTake (s : State) : Answer :=
  s.on fun d => d.prlCmd fun d =>
    if d.pairState = PairSt.syncing ∨ d.pairState = PairSt.listen then (d.dropAwaited.takeControl 5 0 PairSt.unknown).prlDone 0
    else d.prlDone 1

/-- R417: CLEAR_NONREVERTIVE. -/
def execClearNonrevertive (s : State) : Answer :=
  s.on fun d => d.prlCmd fun d => ((d.set F.PRL_STATUS_NONREVERTIVE 0).condition F.HLT_CONDITION_NONREVERTIVE false).prlDone 0

/-- R416: the preferred device has been STANDBY for PRL_HOLDOFF seconds without a break. -/
def execHoldoffExpire (s : State) : Answer :=
  s.on fun d =>
    let due := (d.prl.standbySince.map fun t => decide (t + d.get F.PRL_HOLDOFF_SECONDS * secCycles ≤ d.cycles)).getD false
    if d.pairState = PairSt.standby ∧ due ∧ d.fit ∧ d.lineHigh 1 ∧ d.flag F.PRL_STATUS_REVERT_PENDING ∧ ¬d.flag F.PRL_STATUS_NONREVERTIVE ∧
        d.flag F.PRL_PAIR_CFG_REVERTIVE ∧ d.flag F.PRL_PAIR_CFG_PREFERRED then
      { d with prl := { d.prl with taking := true } }.showLines
    else d

/-- R417: probation has passed. -/
def execProbationExpire (s : State) : Answer :=
  s.on fun d =>
    match d.prl.probation with
    | some t =>
      if t ≤ d.cycles then { d with prl := { d.prl with probation := none } }.set F.PRL_STATUS_REVERT_PENDING 0 else d
    | none => d

/-- R418: a day passes. A device that has not held control yet counts from its first day (log entry 31). -/
def execDrillAgeUpdate (s : State) : Answer :=
  s.on fun d => if d.cycles < d.prl.drillAt + 86400 * secCycles then d else
    let d := { d with prl := { d.prl with drillAt := d.cycles } }
    let up (n : Nat) : Nat := if n = 0xFFFF then 1 else n + 1
    let a := d.get F.PRL_DRILL_SELF_AGE
    let b := d.get F.PRL_DRILL_PARTNER_AGE
    let d := ((d.set F.PRL_DRILL_SELF_AGE (up a)).set F.PRL_DRILL_PARTNER_AGE (up b)).heldAges
    let a' := d.get F.PRL_DRILL_SELF_AGE
    let b' := d.get F.PRL_DRILL_PARTNER_AGE
    if d.pairState = PairSt.unpaired then d
    else
      let d := if (a ≤ 30 ∧ 30 < a') ∨ (b ≤ 30 ∧ 30 < b') then d.raise F.PRL_INT_STATUS_DRILL_DUE a' b' else d
      d.condition F.HLT_CONDITION_DRILL_DUE (decide (30 < a') || decide (30 < b'))

end Sys2Proof.Machine
end

