-- ==== Sys2Proof/Machine/Cloche.lean ====
section
/-! DEFINITION. The Cloche (14): tick counter, trim, tick load and anchor, alarms, tamper sources with KEY_ZERO (11), supply
and retention, and the accesses that arrive over the slow bridge (R7). -/

namespace Sys2Proof.Machine

/-! ## KEY_ZERO -/

/-- The vault, its masks and the candidate register are empty (R309, R377). -/
def Dev.clearVault (d : Dev) : Dev :=
  ({ d with clo := { d.clo with vault := [], candidate := none } }.set F.KEY_SLOTS_PRESENT 0).showCand

/-- A parked sign/hash request after KEY_ZERO: signatures and key operations end, other work stays parked (R211). -/
def ShOp.ends : ShOp → Bool
  | .verifyCommand _ => false
  | .signRecord _ => true
  | .keyMgmt => true
  | .downlinkKey => true
  | .imageHash _ => false
  | .sealEpoch _ => true
  | .rakeVerify _ _ => false
  | .selfTest _ => false

/-- R211, R309: every engine operation under way ends with KEY_ZEROED, and parked signatures and key operations with them, each
counted, tags too; a campaign's image, whose hash needs no key, is asked for again. -/
def Dev.zeroEngines (d : Dev) : Dev :=
  let ended := d.eng.holders.length + (d.eng.parked.filter fun r => r.op.ends).length
  let images := d.dst.loading.filter fun p => p.2 == 2 && d.eng.holders.any fun h => h.2.op == .imageHash p.1
  let d := d.countBy R.KEY_CNT_n 9 (ended + (d.eng.records.filter fun r => r.done.isNone && !r.ecdsa).length)
  let d := { d with eng := { d.eng with parked := d.eng.parked.filter fun r => !r.op.ends, holders := [] } }
  images.foldl (fun d p => d.postLoad p.1) d

/-- Frames under decryption are dropped without acknowledgement (R183); an abandoned fill is asked for again (R211). -/
def Dev.zeroWork (d : Dev) : Dev :=
  let hit := d.eng.flight.filter fun p => decide (p.2.stage = .crypto) && !p.2.verified
  let d := hit.foldl (fun d p => d.endWork p.1) d
  let again (p : Nat × Work) : Nat × Work :=
    if p.2.stage = .wantKey then (p.1, { p.2 with fetching := false, held := p.2.held.filter (· ≠ 2) }) else p
  let d := { d with eng := { d.eng with flight := d.eng.flight.map again, keys := [] } }
  (d.countBy R.KEY_CNT_n 9 hit.length).showCtx

/-- A KEY command that waits ends with KEY_ZEROED, and with it the entries of an install that have not completed; a REWRAP stops
(R309, R311). -/
def Dev.zeroCmd (d : Dev) : Dev :=
  let other (c : PairCmd) : Bool := decide (c.finish.busy ≠ some F.KEY_CMD_BUSY)
  let dma := (d.prl.pendingCmds.filter fun c => !other c).flatMap (·.dma)
  let d := dma.foldl (fun d w => d.emit (.dma w.1 (leBytes 1 Kr.keyZeroed))) d
  let d := { d with
    prl := { d.prl with pendingCmds := d.prl.pendingCmds.filter other }
    key := { d.key with generating := none }
    eng := { d.eng with downs := d.eng.downs.filter fun x => x.2.1 != DlJob.cancel && x.2.1 != DlJob.rewrap } }.set F.KEY_REWRAP_RUNNING 0
  if d.flag F.KEY_CMD_BUSY then d.keyDone Kr.keyZeroed else d

/-- R17, R309, R310: KEY_ZERO outside a reset, whichever supply the Cloche draws from: every key and engine clears with the
vault, records that wait leave unsigned, and the device is Tamper-Locked. -/
def Dev.zeroDevice (d : Dev) : Dev :=
  let off (p : Nat × HeadRt) : Nat × HeadRt := (p.1, { p.2 with session := false })
  let d := { d with
    key := { d.key with
      working := [], previous := [], bcastRegs := [], lost := if d.keyLocked then d.key.lost else d.rootsHeld }
    fhm := { d.fhm with heads := d.fhm.heads.map off } }
  let d := if d.get F.KEY_STATUS_STATE = 0 then d.set F.KEY_STATUS_STATE 1 else d
  let d := (((d.zeroEngines).zeroWork).zeroCmd).endSession true
  let d := d.releaseUnsigned.raise F.KEY_INT_STATUS_KEY_ZEROED
  let d := if d.get F.GLB_BOOT_STATE = 1 then d.set F.GLB_BOOT_STATE 3 else d
  Dev.grantIdle 8 (d.verdict 5)

/-- R17, R309, R310: KEY_ZERO. In a reset only the Cloche holds keys, and they clear. -/
def Dev.keyZero (d : Dev) : Dev :=
  let d := d.clearVault
  if d.glb.inReset then d else d.zeroDevice

/-! ## Tick counter -/

/-- R384: one oscillator cycle: the trim in units of 10^-10 goes to the accumulator, and the count advances by 1, 2 or
not at all. -/
def Clo.tick (c : Clo) (trim : Int) : Clo :=
  if c.oscRunning = false then c
  else
    let a := c.trimAcc + trim
    let one : Int := 10000000000
    if one ≤ a then { c with trimAcc := a - one, count := (c.count + 2) % 2 ^ 48 }
    else if a ≤ -one then { c with trimAcc := a + one }
    else { c with trimAcc := a, count := (c.count + 1) % 2 ^ 48 }

/-- Whole ticks nearest to PTP time × 32,768 less the count (R387). -/
def Dev.anchorOffset (d : Dev) : Int :=
  let n : Int := ((d.now : Int) * 2 ^ 32 + (d.tsu.frac : Int)) * 32768
  let one : Int := 1000000000 * 2 ^ 32
  let q := n / one
  let r := n % one
  let up : Nat := if 2 * r < one then 0 else if one < 2 * r then 1 else b2n (Config.roundUp n one)
  q + (up : Int) - (d.clo.count : Int)

/-- CLO_STATUS.BKP_VALID (R386). -/
def Dev.showBkp (d : Dev) : Dev :=
  let w (i : Nat) : Nat := (d.reg (R.CLO_BKP_n.at i)).toNat
  let body : Bytes := leBytes 4 (w 0) ++ leBytes 4 (w 1)
  d.set F.CLO_STATUS_BKP_VALID (b2n (!d.flag F.CLO_STATUS_RET_LOST && (crc32 body).toNat == w 2))

/-- Write OFFSET and its CRC (R386). -/
def Dev.setAnchor (d : Dev) (off : Int) : Dev :=
  let v := pattern 64 off
  let body : Bytes := leBytes 8 v
  let d := d.setWide R.CLO_BKP_n { R.CLO_BKP_n with off := R.CLO_BKP_n.at 1 } 0 v
  (d.setReg (R.CLO_BKP_n.at 2) (crc32 body)).showBkp

/-- The time anchor's OFFSET, in ticks. -/
def Dev.anchorTicks (d : Dev) : Int :=
  signed 64 ((d.reg (R.CLO_BKP_n.at 0)).toNat + 2 ^ 32 * (d.reg (R.CLO_BKP_n.at 1)).toNat)

/-- R383: TICK_LOAD. -/
def Dev.tickLoad (d : Dev) : Dev :=
  if d.flag F.CLO_STATUS_OSC_STOPPED then d.set F.CLO_STATUS_LOAD_BUSY 1 else d.cloRaise F.CLO_INT_STATUS_TICK_REFUSED

/-- R387: ANCHOR. -/
def Dev.anchor (d : Dev) : Dev :=
  if d.timeValid then d.set F.CLO_STATUS_ANCHOR_BUSY 1 else d.cloRaise F.CLO_INT_STATUS_TICK_REFUSED

/-! ## Alarms -/

def Dev.alarmAt (d : Dev) (n : Nat) : Nat := d.wide R.CLO_ALARM_n_LO R.CLO_ALARM_n_HI n % 2 ^ 48

/-- Set a bit of a multi-bit field. -/
def Dev.setBitOf (d : Dev) (x : Fld) (n : Nat) (v : Bool) : Dev := d.set x (setBitTo (d.get x) n v)

/-- Hardware sets a bit of a W1C field (R9). -/
def Dev.setW1cBit (d : Dev) (x : Fld) (n : Nat) : Dev := d.setW1c x (2 ^ n)

/-- R388, R389: an armed alarm fires. -/
def Dev.fireAlarm (d : Dev) (n : Nat) (passed : Bool) : Dev :=
  if bitAt (d.get F.CLO_ALARM_CTRL_ARM) n = false then d
  else
    let d := (d.setBitOf F.CLO_ALARM_CTRL_ARM n false).setW1cBit F.CLO_ALARM_CTRL_FIRED n
    let d := if d.clo.onBattery then d.setW1cBit F.CLO_ALARM_CTRL_FIRED_ON_BATTERY n else d
    let d := if passed then (d.setW1cBit F.CLO_ALARM_CTRL_STEP_PASSED n).cloRaise F.CLO_INT_STATUS_STEP_PASSED n else d
    d.cloRaise F.CLO_INT_STATUS_ALARM n

/-- The alarms that a forward load passes, in ascending order of value, the lower-numbered first on a tie (R389). -/
def Dev.passedAlarms (d : Dev) (old new : Nat) : List Nat :=
  let hit := (List.range 4).filter fun n => decide (old < d.alarmAt n) && decide (d.alarmAt n ≤ new)
  hit.mergeSort fun a b => decide (d.alarmAt a ≤ d.alarmAt b)

/-! ## Tamper -/

/-- TAMPER_OUT_N is low while any latch bit is set (R392). -/
def Dev.showLatch (d : Dev) : Dev :=
  let low := d.flag F.CLO_TAMPER_LATCH_SOURCE
  let d := d.set F.CLO_STATUS_LATCHED (b2n low)
  if d.clo.tamperOutLow = low then d
  else { d with clo := { d.clo with tamperOutLow := low } }.emit (.pin 1 0 (!low))

/-- CORE_CLK cycles of a Cloche tick: 1,228.8 MHz over 32,768 Hz. -/
def cyclesPerTick : Nat := 37500

/-- R392, R399: a latched source asserts KEY_ZERO, once where two assert in one tick. -/
def Dev.zeroOnce (d : Dev) : Dev :=
  let tick := d.cycles / cyclesPerTick
  if d.clo.zeroTick = some tick then d else { d with clo := { d.clo with zeroTick := some tick } }.keyZero

/-- R392, R393: an assertion of a source that is enabled: its record, and with ZEROIZE the latch and KEY_ZERO. -/
def Dev.tamper (d : Dev) (s : Nat) : Dev :=
  if d.flag (F.CLO_TAMP_CFG_s_ENABLE.at s) = false then d
  else
    let r := Maps.getD d.clo.records s {}
    let now := d.clo.count
    let r : TRec := { count := satNat 16 (r.count + 1), first := if r.count = 0 then now else r.first, last := now }
    let d := { d with clo := { d.clo with records := Maps.put d.clo.records s r } }
    let d := d.cloRaise F.CLO_INT_STATUS_TAMPER s r.count
    if d.flag (F.CLO_TAMP_CFG_s_ZEROIZE.at s) then
      (d.setW1cBit F.CLO_TAMPER_LATCH_SOURCE s).showLatch.zeroOnce
    else d

/-- A source's detector passes: one assertion for each passage from inactive to detected (R392). -/
def Dev.assertSource (d : Dev) (s : Nat) : Dev :=
  if bitAt (d.get F.CLO_TAMPER_ACTIVE) s || !d.flag (F.CLO_TAMP_CFG_s_ENABLE.at s) then d
  else (d.setBitOf F.CLO_TAMPER_ACTIVE s true).tamper s

def Dev.inactiveSource (d : Dev) (s : Nat) : Dev := d.setBitOf F.CLO_TAMPER_ACTIVE s false

/-- R394: UNLOCK, while a provisioning session is open. -/
def Dev.unlockTamp (d : Dev) : Dev :=
  if d.key.session.isSome then (d.set F.CLO_TAMP_LOCK_LOCK 0).set F.CLO_STATUS_TAMP_LOCK 0 else d

def Dev.lockTamp (d : Dev) : Dev := (d.set F.CLO_TAMP_LOCK_LOCK 1).set F.CLO_STATUS_TAMP_LOCK 1

/-- R9, R395: bits clear in a session once their sources are inactive. -/
def Dev.clearLatch (d : Dev) (mask : Nat) : Dev :=
  if d.key.session.isNone then d
  else
    let asked := mask &&& d.get F.CLO_TAMPER_LATCH_SOURCE
    let kept := asked &&& (d.get F.CLO_TAMPER_ACTIVE ||| (d.setNow R.CLO_TAMPER_LATCH.off).toNat)
    (d.set F.CLO_TAMPER_LATCH_SOURCE ((d.get F.CLO_TAMPER_LATCH_SOURCE ^^^ asked) ||| kept)).showLatch

/-- R9, R383: a clear of OSC_STOPPED ends tick writes and cancels a load that waits. -/
def Dev.clearOscStopped (d : Dev) : Dev :=
  if (d.setNow R.CLO_STATUS.off).getLsbD 0 then d
  else
    let d := d.set F.CLO_STATUS_OSC_STOPPED 0
    if d.flag F.CLO_STATUS_LOAD_BUSY then (d.set F.CLO_STATUS_LOAD_BUSY 0).cloRaise F.CLO_INT_STATUS_TICK_REFUSED else d

/-- R385: a trim applies at once, or at the end of a measurement under way. -/
def Dev.writeTrim (d : Dev) (v : Nat) : Dev :=
  if d.tsu.clo.isSome then { d with clo := { d.clo with trimWaits := some (v % 2 ^ 24) } } else d.set F.CLO_TRIM_TRIM v

/-- R381: a read of CLO_TIME_LO. -/
def Dev.readTime (d : Dev) : Dev :=
  { d with lastRead := BitVec.ofNat 32 d.clo.count, clo := { d.clo with shadow := some d.clo.count } }

/-- R393: a read of CLO_TREC_COUNT. -/
def Dev.readTrec (d : Dev) : Dev :=
  let r := Maps.getD d.clo.records (d.get F.CLO_TREC_SEL_SOURCE) {}
  { d with lastRead := BitVec.ofNat 32 r.count, clo := { d.clo with trecShadow := some r } }

/-! ## The slow bridge -/

/-- A bit written to CLO_CTRL, from bit 0 on. -/
def Dev.cloCtrl (d : Dev) (v : Word) : Dev :=
  let d := if v.getLsbD 0 then d.set F.CLO_CHARGE_NAH 0 else d
  let d := if v.getLsbD 1 then d.tickLoad else d
  let d := if v.getLsbD 2 then d.anchor else d
  let d := if v.getLsbD 3 then d.tamper 12 else d
  if v.getLsbD 4 then d.unlockTamp else d

/-- A write of CLO_ALARM_CTRL: an alarm armed at or below the count is late (R388). -/
def Dev.armAlarms (d : Dev) (old : Nat) : Dev :=
  let late := (List.range 4).filter fun n =>
    bitAt (d.get F.CLO_ALARM_CTRL_ARM) n && !bitAt old n && decide (d.alarmAt n ≤ d.clo.count)
  late.foldl (fun d n => d.setW1cBit F.CLO_ALARM_CTRL_LATE_ARM n) d

/-- The word the field types store in the register of the CLO block at `off`. -/
def Dev.storeTyped (d : Dev) (off : Nat) (v : Word) : Dev :=
  let off := inBlock R.CLO_CTRL.off off
  match regAt? off with
  | some r => d.setReg off (writeFields d.trl.sealed (d.setNow off) (d.reg off) v r.fields)
  | none => d

/-- R7: a CLO write acts in the Cloche. -/
def Dev.cloWrite (d : Dev) (off : Nat) (v : Word) : Dev :=
  if off = R.CLO_CTRL.off then d.cloCtrl v
  else if off = R.CLO_TRIM.off then d.writeTrim v.toNat
  else if off = R.CLO_TAMP_LOCK.off then if v.getLsbD 0 then d.lockTamp else d
  else if off = R.CLO_TAMPER_LATCH.off then d.clearLatch (v.toNat % 2 ^ 13)
  else if off = R.CLO_STATUS.off then
    let d := if v.getLsbD 0 then d.clearOscStopped else d
    -- R375: WENT_BATTERY stays set while the Cloche draws from VBAT.
    (d.storeTyped off (v &&& (if d.clo.onBattery then 0xA else 0xE))).showBkp
  else if off = R.CLO_ALARM_CTRL.off then (d.storeTyped off v).armAlarms (d.get F.CLO_ALARM_CTRL_ARM)
  else if R.CLO_TAMP_CFG_s.covers off then
    if d.flag F.CLO_TAMP_LOCK_LOCK then d
    else
      let d := d.storeTyped off v
      let src := (off - R.CLO_TAMP_CFG_s.off) / 4
      if d.flag (F.CLO_TAMP_CFG_s_ENABLE.at src) then d else d.inactiveSource src
  else if R.CLO_BKP_n.covers off then (d.storeTyped off v).showBkp
  else d.storeTyped off v

/-- The word a CLO read returns at that moment (R7, R8): CLO_TIME_HI and the CLO_TREC registers through their shadows while
one is frozen (R381, R393), the backup bytes as zero while RET_LOST is set (R377). -/
def Dev.cloWord (d : Dev) (off : Nat) : Word :=
  let r := d.clo.trecShadow.getD (Maps.getD d.clo.records (d.get F.CLO_TREC_SEL_SOURCE) {})
  if off = R.CLO_TIME_LO.off then BitVec.ofNat 32 d.clo.count
  else if off = R.CLO_TIME_HI.off then BitVec.ofNat 32 (d.clo.shadow.getD d.clo.count / 2 ^ 32)
  else if off = R.CLO_TREC_COUNT.off then BitVec.ofNat 32 (Maps.getD d.clo.records (d.get F.CLO_TREC_SEL_SOURCE) {}).count
  else if off = R.CLO_TREC_FIRST_LO.off then BitVec.ofNat 32 r.first
  else if off = R.CLO_TREC_LAST_LO.off then BitVec.ofNat 32 r.last
  else if off = R.CLO_TREC_HI.off then BitVec.ofNat 32 (r.first / 2 ^ 32 % 2 ^ 16 + r.last / 2 ^ 32 * 2 ^ 16)
  else if R.CLO_BKP_n.covers off && d.flag F.CLO_STATUS_RET_LOST then 0
  else
    match regAt? off with
    | some x => shownFields (d.reg off) x.fields
    | none => 0

/-- R7: a CLO read acts: its word is returned, and a shadow is taken or released (R381, R393). -/
def Dev.cloRead (d : Dev) (off : Nat) : Dev :=
  if off = R.CLO_TIME_LO.off then d.readTime
  else if off = R.CLO_TREC_COUNT.off then d.readTrec
  else
    let d := { d with lastRead := d.cloWord off }
    if off = R.CLO_TIME_HI.off then { d with clo := { d.clo with shadow := none } }
    else if off = R.CLO_TREC_HI.off then { d with clo := { d.clo with trecShadow := none } }
    else d

/-- One access acts in the Cloche. -/
def Dev.cloAct (d : Dev) (b : BridgeOp) : Dev :=
  match b.write with
  | some v => d.cloWrite b.off v
  | none => d.cloRead b.off

/-- R7: the bridge carries accesses one at a time and in issue order, so an access that acts finds the effect of every
access issued before it: those that wait have acted. -/
def Dev.cloSettle (d : Dev) : Dev :=
  d.clo.bridge.foldl Dev.cloAct { d with clo := { d.clo with bridge := [] } }

/-! ## Commands and events

A row for an access of its own to the CLO block is the moment at which that access acts: those issued before it have acted
(R7, `Dev.cloSettle`). -/

/-- R392: CLO_CTRL.ZEROIZE: each write is a new assertion of source 12. -/
def execZeroize (s : State) : Answer := s.on fun d => d.cloSettle.tamper 12

def execTickLoad (s : State) : Answer := s.on fun d => d.cloSettle.tickLoad

/-- R383, R389: the next tick edge after TICK_LOAD. -/
def execTickLoadApply (s : State) : Answer :=
  s.on fun d =>
    if d.flag F.CLO_STATUS_LOAD_BUSY = false ∨ d.clo.oscRunning = false then d
    else
      let old := d.clo.count
      let v := d.wide R.CLO_TICK_SET_LO R.CLO_TICK_SET_HI 0 % 2 ^ 48
      let d := { d with clo := { d.clo with count := v } }.set F.CLO_STATUS_LOAD_BUSY 0
      (d.passedAlarms old v).foldl (fun d n => d.fireAlarm n true) d

def execAnchor (s : State) : Answer := s.on fun d => d.cloSettle.anchor

/-- R387: the tick edge that a requested anchor waits for. -/
def execAnchorApply (s : State) : Answer :=
  s.on fun d =>
    if d.flag F.CLO_STATUS_ANCHOR_BUSY = false ∨ d.clo.oscRunning = false then d
    else
      let d := d.set F.CLO_STATUS_ANCHOR_BUSY 0
      if d.timeValid then (d.setAnchor d.anchorOffset).cloRaise F.CLO_INT_STATUS_ANCHOR_DONE
      else d.cloRaise F.CLO_INT_STATUS_TICK_REFUSED

def execUnlock (s : State) : Answer := s.on fun d => d.cloSettle.unlockTamp

def execTampLock (s : State) : Answer := s.on fun d => d.cloSettle.lockTamp

def execTamperLatchClear (mask : Nat) (s : State) : Answer := s.on fun d => d.cloSettle.clearLatch mask

/-- R379: CLO_CTRL.CHARGE_CLEAR. -/
def execChargeClear (s : State) : Answer := s.on fun d => d.cloSettle.set F.CLO_CHARGE_NAH 0

def execOscStoppedClear (s : State) : Answer := s.on fun d => d.cloSettle.clearOscStopped

def execCloTrimWrite (trim : Nat) (s : State) : Answer := s.on fun d => d.cloSettle.writeTrim trim

/-- R388: the count is at or above an armed alarm's value. -/
def execCloAlarmFire (n : Nat) (s : State) : Answer :=
  s.on fun d => if n < 4 ∧ d.alarmAt n ≤ d.clo.count then d.fireAlarm n false else d

/-- R382, R390: no XTAL32 edge for 4 ms. -/
def execOscStopDetect (s : State) : Answer :=
  s.on fun d =>
    let d := { d with clo := { d.clo with oscRunning := false } }.setW1c F.CLO_STATUS_OSC_STOPPED 1
    (d.cloRaise F.CLO_INT_STATUS_OSC_FAIL).assertSource 11

/-- R382, R392: XTAL32 edges return. -/
def execOscResume (s : State) : Answer :=
  s.on fun d => { d with clo := { d.clo with oscRunning := true } }.inactiveSource 11

/-- R390, R392: a source passes its detector. Source 12 has no detector; it asserts by ZEROIZE alone. -/
def execTamperAssert (source : Nat) (s : State) : Answer :=
  s.on fun d => if source < 12 then d.assertSource source else d

/-- R392: a source's detector sees it inactive. -/
def execTamperInactive (source : Nat) (s : State) : Answer :=
  s.on fun d => if source < 12 then d.inactiveSource source else d

/-- R391: the compare of a Hedge sample: a match resets the count, the FILTER-th mismatch in a row detects. -/
def execHedgeSample (pair : Nat) (ok : Bool) (s : State) : Answer :=
  s.on fun d =>
    let src := 8 + pair
    if 2 ≤ pair ∨ d.flag (F.CLO_TAMP_CFG_s_ENABLE.at src) = false then d
    else if ok then { d with clo := { d.clo with hedge := Maps.put d.clo.hedge pair 0 } }.inactiveSource src
    else
      let n := Maps.getD d.clo.hedge pair 0 + 1
      let need := max 1 (d.get (F.CLO_TAMP_CFG_s_FILTER.at src))
      let d := { d with clo := { d.clo with hedge := Maps.put d.clo.hedge pair (min n 15) } }
      if need ≤ n then d.assertSource src else d

/-- R375: the Cloche switches to VBAT. -/
def execSupplyToBattery (s : State) : Answer :=
  s.on fun d => { d with clo := { d.clo with onBattery := true } }.setW1c F.CLO_STATUS_WENT_BATTERY 1

/-- R375, R379: the Cloche switches back to VDDIO18; the charge drawn meanwhile is added. CLO_VBAT reads 0 until the first
measurement. -/
def execSupplyToMain (nah : Nat) (s : State) : Answer :=
  s.on fun d =>
    if d.clo.onBattery = false then d
    else
      let d := { d with clo := { d.clo with onBattery := false } }.set F.CLO_VBAT_MV 0
      d.set F.CLO_CHARGE_NAH (satNat 32 (d.get F.CLO_CHARGE_NAH + nah))

/-- R376, R377: RET_LOST latches: every CLO register at its reset value, the vault and the records empty. -/
def execRetLost (s : State) : Answer :=
  s.on fun d =>
    let d := d.clearVault
    let d := { d with
      face := { d.face with regs := d.face.regs.filter fun p => p.1 / 65536 != 15 }
      clo := { oscRunning := d.clo.oscRunning, zeroTick := d.clo.zeroTick, onBattery := d.clo.onBattery, tamperOutLow := d.clo.tamperOutLow, bridge := d.clo.bridge } }
    (((d.setW1c F.CLO_STATUS_RET_LOST 1).setW1c F.CLO_STATUS_OSC_STOPPED 1).setW1c F.CLO_STATUS_WENT_BATTERY (b2n d.clo.onBattery)).showLatch

/-- R379: VBAT measured on main power. -/
def execVbatMeasure (mv : Nat) (s : State) : Answer :=
  s.on fun d =>
    if d.clo.onBattery then d
    else
      let d := d.set F.CLO_VBAT_MV mv
      let low := decide (mv % 65536 < 2200)
      let d := if d.glb.inReset then d else d.condition F.HLT_CONDITION_VBAT_LOW low
      if low then d.cloRaise F.CLO_INT_STATUS_VBAT_LOW mv else d

def execCloTimeRead (s : State) : Answer := s.on fun d => d.cloSettle.readTime

def execCloTrecRead (s : State) : Answer := s.on fun d => d.cloSettle.readTrec

/-- R7: accesses act one at a time in issue order: the write that waits longest, or, with none waiting, a read. -/
def execCloAccessArrival (read : Option Nat) (s : State) : Answer :=
  s.on fun d =>
    match d.clo.bridge with
    | b :: rest => { d with clo := { d.clo with bridge := rest } }.cloAct b
    | [] =>
      match read with
      | some off => d.cloRead off
      | none => d

end Sys2Proof.Machine
end

