-- ==== Sys2Proof/Machine/Eth.lean ====
section
/-! DEFINITION. The Ethernet commands (R338 to R341). -/

namespace Sys2Proof.Machine

/-- R339, R340: a Neighbor Solicitation from `src` for one of the port's addresses is answered. -/
def execEthNeighborSolicitation (port len src mac target : Nat) (s : State) : Answer :=
  s.on fun d => d.ethTake port len fun d =>
    if d.ownAddr port target then (d.heardFrom port src mac).portOut port 90 (.net port 0 mac target [])
    else d.ethAdd port 5 1

/-- R339: an Echo Request for the port's address is answered, at most 100 in a second; the second is the counter's (log
entry 13). -/
def execEthEchoRequest (port len src mac dst : Nat) (data : Bytes) (s : State) : Answer :=
  s.on fun d => d.ethTake port len fun d =>
    if d.ownAddr port dst = false then d.ethAdd port 5 1
    else
      let d := d.heardFrom port src mac
      let p := d.ethPort port
      let done := if p.echoSec = d.tsu.sec then p.echoes else 0
      if done < 100 then
        (d.setEth port { p with echoSec := d.tsu.sec, echoes := done + 1 }).portOut port len (.net port 1 mac src data)
      else d.ethAdd port 5 1

/-- R339: an ARP request for the port's IPv4 address is answered. -/
def execEthArpRequest (port len src mac target : Nat) (s : State) : Answer :=
  s.on fun d => d.ethTake port len fun d =>
    let own := (d.reg (R.ETH_n_IP4.at port)).toNat
    if own ≠ 0 ∧ target = own then d.portOut port 64 (.net port 2 mac src [])
    else d.ethAdd port 5 1

/-- R340: a Neighbor Advertisement updates the cache, and what waited for it goes. -/
def execEthNeighborAdvertisement (port len target mac : Nat) (s : State) : Answer :=
  s.on fun d => d.ethTake port len fun d => d.heardFrom port target mac

/-- R338, R339: a frame that no rule delivers is dropped and counted with k = 5. Cause 1 is an FCS error (k = 4), cause
2 an uncorrectable RS-FEC codeword (k = 7, FEC_UNCORRECTED). -/
def execEthFrameDrop (port len cause : Nat) (s : State) : Answer :=
  s.on fun d =>
    if cause = 1 then d.ethAdd port 4 1
    else if cause = 2 then (d.ethAdd port 7 1).raise (F.ETH_n_INT_STATUS_FEC_UNCORRECTED.at port) 0 port
    else d.ethTake port len fun d => d.ethAdd port 5 1

/-- R340: 1 s has passed since the last solicitation: another one, or after three of them the datagrams that have waited longer
than 3 s are dropped and counted and NEIGHBOUR_FAIL is set; each waits its own 3 s (log entry 13). -/
def execNeighbourSolicitRetry (port addr : Nat) (s : State) : Answer :=
  s.on fun d =>
    let p := d.ethPort port
    match p.resolving.find? (·.addr == addr) with
    | none => d
    | some r =>
      let put (x : Resolving) : Dev := d.setEth port { p with resolving := p.resolving.map fun q => if q.addr = addr then x else q }
      if d.cycles < r.asked + secCycles then d
      else if r.tries < 3 then (put { r with tries := r.tries + 1, asked := d.cycles }).solicit port addr
      else
        let late := r.waiting.filter fun w => decide (w.1 + 3 * secCycles < d.cycles)
        let rest := r.waiting.filter fun w => decide (d.cycles ≤ w.1 + 3 * secCycles)
        if late = [] then d
        else
          let d :=
            if rest = [] then d.setEth port { p with resolving := p.resolving.filter (·.addr ≠ addr) }
            else put { r with waiting := rest }
          (d.ethAdd port 5 late.length).raise (F.ETH_n_INT_STATUS_NEIGHBOUR_FAIL.at port) (addr % 2 ^ 32) port

/-- R340: 30 s after its last datagram an entry is no longer reachable. -/
def execNeighbourEntryExpire (port addr : Nat) (s : State) : Answer :=
  s.on fun d =>
    let p := d.ethPort port
    d.setEth port { p with cache := p.cache.filter fun x => x.addr ≠ addr || x.reachable d.cycles }

/-- R338: the port's PCS state, with LINK_UP on block lock, FEC alignment where enabled, and no fault. -/
def execEthLinkChange (port : Nat) (block align localFault remoteFault : Bool) (s : State) : Answer :=
  s.on fun d =>
    let fec := d.get (F.ETH_n_CTRL_RATE.at port) == 0 && d.flag (F.ETH_n_CTRL_RS_FEC.at port)
    let up := block && (align || !fec) && !localFault && !remoteFault
    let was := d.flag (F.ETH_n_STATUS_LINK_UP.at port)
    let d := ((d.set (F.ETH_n_STATUS_BLOCK_LOCK.at port) (b2n block)).set (F.ETH_n_STATUS_FEC_ALIGN.at port)
      (b2n (align && fec))).set (F.ETH_n_STATUS_LOCAL_FAULT.at port) (b2n localFault)
    let d := (d.set (F.ETH_n_STATUS_REMOTE_FAULT.at port) (b2n remoteFault)).set (F.ETH_n_STATUS_LINK_UP.at port) (b2n up)
    if up && !was then d.raise (F.ETH_n_INT_STATUS_LINK_UP.at port) 0 port
    else if was && !up then d.raise (F.ETH_n_INT_STATUS_LINK_DOWN.at port) 0 port
    else d

/-- R341: a read of ETH_n_CNT_k_LO returns it and latches the matching HI half. -/
def execEthCounterRead (port k : Nat) (s : State) : Answer :=
  s.on fun d =>
    let p := d.ethPort port
    let v := Maps.getD p.counters k 0
    { d.setEth port { p with latched := Maps.put p.latched k (v / 2 ^ 32) } with lastRead := BitVec.ofNat 32 v }

end Sys2Proof.Machine
end

