-- ==== Sys2Proof/Machine/Graft.lean ====
section
/-! DEFINITION. Graft application (R51 to R55), and what it means to calendars (R218), zones (R259), radio profiles (R96,
R283) and event codes (R455). -/

namespace Sys2Proof.Machine

/-- Take a package's sections into the live structure (R51, R54). -/
def Dev.takeSections (d : Dev) (p : Package) : Dev :=
  let d := { d with trl := { d.trl with live := some (d.trellis.merge p) } }
  p.sections.foldl (fun d s => d.set (F.TRL_GEN_n_GENERATION.at s.1) s.2.1) d

/-- A package has a section of TYPE `t`. -/
def Package.holds (p : Package) (t : Nat) : Bool := p.sections.any fun s => s.1 == t

/-- R455: buckets are full after a Graft of EVENT_CODES. -/
def Dev.fillBuckets (d : Dev) : Dev := { d with face := { d.face with hst := { d.face.hst with evr := { d.face.hst.evr with buckets := [] } } } }

/-- R218: BIL_STATUS.SUPERSEDED. -/
def Dev.showSuperseded (d : Dev) : Dev := d.set F.BIL_STATUS_SUPERSEDED (b2n d.dur.superseded.isSome)

/-- R246, R259: after a new zone model: zones that keep their structure keep their state; the accumulators of others and of their
members restart at zero, and what was held of another check goes; members of removed zones, and meters that are check meters now, are
detached. -/
def Dev.newZones (d : Dev) (old : List ZoneRec) : Dev :=
  let model := d.trellis.zones
  let same (z : ZoneRec) : Bool := old.any fun o =>
    o.zone == z.zone && o.parent == z.parent && o.level == z.level && o.checkKind == z.checkKind && o.checkId == z.checkId
  let changed := model.filter fun z => !same z
  let t := d.dur.bal
  let start (l : List (Nat × ZoneRt)) (z : ZoneRec) : List (Nat × ZoneRt) :=
    let was := Maps.getD l z.zone ({} : ZoneRt)
    let held := old.any fun o => o.zone == z.zone && o.checkKind == z.checkKind && o.checkId == z.checkId
    Maps.put l z.zone (if held then was.restart else { was.clear with ckBase := d.balNow + 1 })
  let kept := t.zones.filter fun p => model.any (·.zone == p.1)
  let clear (p : Nat × Member) : Nat × Member := (p.1, if changed.any (·.zone == p.2.zone) then p.2.restart else p.2)
  let bal : BalTab := { t with zones := changed.foldl start kept, members := t.members.map clear }
  let d := { d with dur := { d.dur with bal := bal } }
  let gone (z : Nat) : List Nat := (d.dur.bal.members.filter fun p => p.2.zone == z).map (·.1)
  let removed := (old.map (·.zone)).filter fun z => !model.any (·.zone == z)
  (removed.foldl (fun d z => d.detachAll (gone z) z) d).detachChecks

/-- R96: RECONFIGURE to a head whose profile changed, with the profile it goes on under. Its lead and its slots are judged at the new
rate (R80, R91). -/
def Dev.reconfigure (d : Dev) (old : List RadioProfile) (head : Nat) : Dev :=
  let h := d.headRt head
  let was := old.find? (·.profileId == h.profile)
  let now := (d.profile? h.profile).getD (d.cellProfile head)
  if h.session = false ∨ was = some now then d
  else
    let rate := if now.rates.testBit h.rate then h.rate else topRate (h.rates &&& now.rates &&& 7)
    let d := ((d.setHead head { h with profile := now.profileId, rate := rate }).judgeHead head).judgeSlot head
    d.sendHlp head Hlp.join ([6, 0] ++ beBytes 1 h.rxCh ++ beBytes 1 rate ++ beBytes 1 now.profileId ++ beBytes 1 0 ++ now.bytes)

/-- R267, R283: a campaign whose home channel in a cell has left the hop set is offered there again, with a new one. -/
def Dev.rehomeCamp (d : Dev) (slot : Nat) (c : Campaign) : Dev :=
  let lost := c.homes.filter fun p => ((d.profile? (d.headRt p.1).profile).map fun r => !r.hopSet.testBit p.2).getD false
  if c.state ≠ Cs.active ∨ lost = [] then d
  else
    let left := c.homes.filter fun p => !lost.contains p
    let d := d.journal (.campaign slot (some { c with homes := left }))
    let again := (d.dur.members slot).filter fun m =>
      !m.2.final && match (Maps.get? m.1 d.dur.ctxs).bind Ctx.place with
        | some p => lost.any (·.1 == p)
        | none => false
    let keys := (again.map fun m => 1048576 * slot + m.1).filter fun k => !d.dst.reoffer.contains k
    { d with dst := { d.dst with reoffer := d.dst.reoffer ++ keys } }

/-- R52: the latest applied package of each section type stays in NAND. -/
def keepGrafts (old : List (Nat × Package)) (slot : Nat) (p : Package) : List (Nat × Package) :=
  let all := old ++ [(slot, p)]
  (List.range all.length).filterMap fun i =>
    match all[i]? with
    | none => none
    | some x =>
      let later := all.drop (i + 1)
      if x.2.sections.any fun s => !later.any fun y => y.2.holds s.1 then some x else none

/-- R259, R260: evaluations under way, queued, or due by an instant and not begun yet run to their end under the model they were due
under. -/
def Dev.finishEvals (d : Dev) (at_ : Nat) : Dev :=
  let run (d : Dev) (x : Nat) : Dev := (d.beginEval x).endEval x
  let due := d.bil.due
  let d := match d.bil.eval with
    | some b => due.foldl run ({ d with bil := { d.bil with due := [] } }.endEval b)
    | none => d
  if d.serves = false ∨ d.timeValid = false then d
  else
    let from_ := max (d.wide R.BAL_LAST_B_LO R.BAL_LAST_B_HI 0 + 1) d.bil.base
    let left := ((List.range (balIndex d.balMins d.utc at_ + 1 - from_)).map (from_ + ·)).filter fun b => decide (d.evalAt b ≤ at_)
    left.foldl run d

/-- An application has emptied a slot in this cycle (R48). -/
def Dev.applied (d : Dev) (slot : Nat) : Dev := { d with trl := { d.trl with emptiedAt := Maps.put d.trl.emptiedAt slot d.cycles } }

/-- R51 to R54: one package applies, as of its armed instant. -/
def Dev.applyGraft (d : Dev) (slot at_ : Nat) (p : Package) : Dev :=
  let d := if p.holds 9 then d.finishEvals at_ else d
  let old := d.trellis
  let admitted (x : Nat × Work) : Nat × Work := (x.1, { x.2 with old := some (x.2.old.getD old) })
  let d := { d with eng := { d.eng with flight := d.eng.flight.map admitted } }
  let cal := if p.holds 8 then some old.calendar else none
  let d := d.takeSections p
  let d :=
    if d.serves then
      let d := d.journal (.applied slot at_ cal)
      d.journal (.time (if cal.isSome then 3 else 4) slot at_ 0)
    else d
  let d := { d with nfm := { d.nfm with grafts := keepGrafts d.nfm.grafts slot p } }
  let d := (((d.emptySlot slot).applied slot).set (F.TRL_SLOT_STATUS_LAST_RESULT.at slot) Res.ok).showSuperseded
  let bit : Fld := { F.TRL_INT_STATUS_GRAFT_APPLIED with hi := 1 + slot, lo := 1 + slot }
  let d := d.raise bit slot ((p.sections.head?.map (·.2.1)).getD 0)
  let d := if p.holds 9 then d.newZones old.zones else d
  let d :=
    if p.holds 5 then
      let d := d.fhm.heads.foldl (fun d h => d.reconfigure old.radio h.1) d
      if d.serves then d.dur.campaigns.foldl (fun d c => d.rehomeCamp c.1 c.2) d else d
    else d
  if p.holds 11 then d.fillBuckets else d

/-- R53, R54: an application fails: the live sections stay, and the package is gone. -/
def Dev.failGraft (d : Dev) (slot : Nat) : Dev :=
  let d := if d.serves then d.journal (.disarm slot) else d
  (((d.emptySlot slot).applied slot).set (F.TRL_SLOT_STATUS_LAST_RESULT.at slot) 0x15).raise F.TRL_INT_STATUS_GRAFT_FAILED slot

/-- Apply an armed slot's package, or fail with a damaged copy. -/
def Dev.graftSlot (d : Dev) (damaged : List Nat) (slot : Nat) : Dev :=
  match Maps.get? slot d.trl.slots with
  | some st =>
    match st.armedAt with
    | some t => if damaged.contains slot then d.failGraft slot else d.applyGraft slot t st.pkg
    | none => d
  | none => d

/-- The packages armed for instant `t` apply in one cycle (R51, R55). -/
def Dev.applyAt (d : Dev) (t : Nat) (damaged : List Nat) : Dev :=
  let due := (List.range 3).filter fun n => (Maps.get? n d.trl.slots).bind (·.armedAt) == some t
  due.foldl (fun d n => d.graftSlot damaged n) d

end Sys2Proof.Machine
end

