-- ==== Sys2Proof/Machine/Health.lean ====
section
/-! DEFINITION. The event recorder's and the health block's commands (R456 to R459). -/

namespace Sys2Proof.Machine

/-- R456: PERIOD has passed since a code's first unsummarised suppression: its summary record. Without effect before. -/
def execEventSummary (code : Nat) (s : State) : Answer :=
  s.on fun d =>
    match Maps.get? code d.face.hst.evr.pendingSummary with
    | none => d
    | some sup =>
      if d.cycles < sup.at_ + d.get F.EVR_SUMMARY_PERIOD * secCycles then d else
      let f := d.face
      let f := { f with hst := { f.hst with evr := { f.hst.evr with pendingSummary := Maps.del code f.hst.evr.pendingSummary } } }
      let d := { d with face := f }.reserveEvents
      let block := if 64 ≤ code ∧ code < 704 then (code - 64) / 32 else 0x11
      { d with face := Face.eventN chain d.face d.env none code block 0 0 (.summary sup) }

/-- R457: EVR_CMD ARCHIVE_READ: NOT_FOUND below the oldest archived record. BAD_STATE while the NAND array holds no
partition directory (log entry 16). -/
def execArchiveRead (s : State) : Answer :=
  s.on fun d =>
    let start := d.wide R.EVR_ARCH_SEQ_LO R.EVR_ARCH_SEQ_HI 0
    let a := d.face.hst.evr.archive
    let d :=
      if d.nfm.directory = false then d.set F.EVR_CMD_RESULT 2
      else
        match a with
        | [] => d.set F.EVR_CMD_RESULT 1
        | r :: _ =>
          if start < r.seq then d.set F.EVR_CMD_RESULT 1
          else
            let out := (a.filter fun r => decide (start ≤ r.seq)).take (d.get F.EVR_HOST_LEN_VALUE % 2 ^ 25 / 32)
            (d.set F.EVR_CMD_RESULT 0).emit (.dma (d.wide R.EVR_HOST_ADDR_LO R.EVR_HOST_ADDR_HI 0) (out.flatMap (·.bytes)))
    d.raise F.EVR_INT_STATUS_CMD_DONE

/-- The UTC day of the counter. -/
def Dev.utcDay (d : Dev) : Nat := (((d.tsu.sec : Int) - d.signedFld F.TSU_UTC_OFFSET) / 86400).toNat

/-- Spares used and left on the die with the fewest left (R458). -/
def Dev.worstDie (d : Dev) : Option Die :=
  (d.nfm.dies.map (·.2)).foldl
    (fun w x => match w with
      | none => some x
      | some y => if x.spares < y.spares then some x else some y)
    none

/-- A monitor's limit (R458): what host software wrote, or its default. -/
def Dev.limitOf (d : Dev) (m : Nat) : Nat :=
  match m with
  | 1 => (d.worstDie.map (·.reserved)).getD 0
  | 3 => d.get F.HLT_CELL_CAPACITY
  | _ =>
    ((Maps.getD d.face.hst.monitors m {}).limit).getD
      (match m with
        | 0 => d.get F.NFM_PE_RATED_RATED
        | 2 => 1000000000
        | 4 => 40000
        | _ => 20000)

/-- A monitor's measure now (R458). -/
def Dev.measureOf (d : Dev) (oscSlow m : Nat) : Nat :=
  match m with
  | 0 => ((d.nfm.dies.map fun p => if p.2.blocks = 0 then 0 else p.2.peSum / p.2.blocks)).foldl max 0
  | 1 => (d.worstDie.map fun x => x.reserved - x.spares).getD 0
  | 2 => d.get F.JNL_WEAR_LAPS
  | 3 => d.get F.CLO_CHARGE_NAH
  | 4 => oscSlow
  | _ => if d.face.hst.freqCount = 0 then 0 else d.face.hst.freqSum / d.face.hst.freqCount

/-- The least-squares line through (day, value) samples, as (n·Sxy − Sx·Sy, n·Sxx − Sx², mean terms): the day at which
it reaches the limit, in days after `today`, rounded down; none with no rising trend (R458). -/
def forecastDays (samples : List (Nat × Nat)) (limit today : Nat) : Option Nat :=
  let n : Int := samples.length
  let sx : Int := (samples.map fun p => (p.1 : Int)).sum
  let sy : Int := (samples.map fun p => (p.2 : Int)).sum
  let sxx : Int := (samples.map fun p => (p.1 * p.1 : Int)).sum
  let sxy : Int := (samples.map fun p => (p.1 * p.2 : Int)).sum
  let num := n * sxy - sx * sy
  let den := n * sxx - sx * sx
  if num ≤ 0 ∨ den ≤ 0 then none
  else
    -- value(x) = sy/n + (num/den)(x − sx/n); it equals the limit at x = sx/n + (limit − sy/n)·den/num.
    let x := (sx * num + (limit * n - sy) * den) / (n * num)
    some (x - today).toNat

/-- Take one sample of every monitor and refit (R458, R459). The 90 % band's bounds are not computed by any formula of
the spec: they are free values of the samples (log entry 17). -/
def Dev.healthSample (d : Dev) (oscSlow : Nat) : Dev :=
  let today := d.utcDay
  let window := d.get F.HLT_WARN_WINDOW
  let d := (List.range 6).foldl
    (fun d m =>
      let mon : Monitor := Maps.getD d.face.hst.monitors m {}
      let limit := d.limitOf m
      let v := d.measureOf oscSlow m
      let samples := (mon.samples ++ [(today, v)]).filter fun p => decide (today < p.1 + window)
      let valid := decide (14 ≤ samples.length) && limit != 0
      let est := match (if valid then forecastDays samples limit today else none) with
        | some x => min x 0xFFFFF
        | none => 0xFFFFF
      let band := if valid then Config.forecastBand samples limit else (0xFFFF#16, 0xFFFF#16)
      let low := band.1.toNat
      let warn := valid && decide (low < d.get F.HLT_WARN_DAYS) && !mon.warned
      let rearm := decide (11 * d.get F.HLT_WARN_DAYS < 10 * low)
      let mon := { mon with
        samples := samples, valid := valid, est := est, low := low, high := band.2.toNat
        usedPpm := if limit = 0 then 0 else satNat 32 (v * 1000000 / limit)
        warned := if warn then true else mon.warned && !rearm }
      let d := { d with face := { d.face with hst := { d.face.hst with monitors := Maps.put d.face.hst.monitors m mon } } }
      if warn then d.raise F.HLT_INT_STATUS_FORECAST_WARN m est else d)
    d
  d.raise F.HLT_INT_STATUS_UPDATED

/-- R458: the daily sample at 00:00 UTC, once in the day's first second; the day's reference average starts again.
Without effect at any other time. -/
def execHealthDailySample (oscSlow : Nat) (s : State) : Answer :=
  s.on fun d =>
    if ((d.tsu.sec : Int) - d.signedFld F.TSU_UTC_OFFSET) % 86400 ≠ 0 ∨ d.face.hst.sampledDay = some d.utcDay then d
    else
      let d := d.healthSample oscSlow
      { d with face := { d.face with hst := { d.face.hst with freqSum := 0, freqCount := 0, sampledDay := some d.utcDay } } }

/-- R458: HLT_CTRL.UPDATE. -/
def execHltUpdate (oscSlow : Nat) (s : State) : Answer := s.on fun d => d.healthSample oscSlow

end Sys2Proof.Machine
end

