-- ==== Sys2Proof/Machine/Verify.lean ====
section
/-! DEFINITION. The security check of a meter frame, the decision on its counter and digest (R158 to R166), drift learning
(R98) and the campaign status it carries (R274). -/

namespace Sys2Proof.Machine

/-! ## Authentication -/

/-- The set a frame verifies under, and its plaintext: current, then candidate (R161). The flag names the candidate. -/
def Dev.verifySet (d : Dev) (meter security : Nat) (f : MeterFrame) : Option (KeySet × Bool × Bytes) :=
  let try_ (cand : Bool) : Option (KeySet × Bool × Bytes) :=
    (d.residentSet meter cand).bind fun k => (f.opened k.link).map fun p => (k, cand, p)
  if f.security ≠ security then none else (try_ false).or (try_ true)

/-! ## DLMS/COSEM PDUs (R163, R164) -/

/-- A PDU as it arrives: the content of a ciphering wrapper, or another PDU's tag alone. None where it is cut short. -/
def parseApdu (b : Bytes) : Option Apdu :=
  let t := b.u8 0
  let title := if t = 0xDB then some (b.be 2 8) else none
  let p := if t = 0xDB then 10 else 1
  if ([0xCC, 0xCD, 0xCF, 0xDB] : List Nat).contains t = false then
    if b = [] then none else some { wrapper := t, control := 0, invocation := 0, cipher := [], tag := 0 }
  else if t = 0xDB ∧ b.u8 1 ≠ 8 then none
  else
    match axdrLen b b.length p with
    | none => none
    | some (n, q) =>
      if n < 17 ∨ b.length ≠ q + n then none
      else some {
        wrapper := t, control := b.u8 q, title := title, invocation := b.be (q + 1) 4, cipher := b.slice (q + 5) (n - 17)
        tag := b.be (q + n - 12) 12 }


/-- The plaintext of a PDU whose GCM tag of 96 bits holds under the global key and a class authentication key (R164). Its nonce
begins with the system title, for a meter that sends none its EUI-64. -/
def Apdu.opened (a : Apdu) (address global ak : Nat) : Option Bytes :=
  let nonce := beNat (beBytes 8 (a.title.getD (euiOf address)) ++ beBytes 4 a.invocation)
  let aad := beBytes 1 a.control ++ beBytes 16 ak
  if a.control.testBit 5 then
    let p := (Crypto.gcm 16 global nonce aad a.cipher).1
    if a.tag = leadTag 12 (Crypto.gcmTag 16 global nonce aad p) then some p else none
  else if a.tag = leadTag 12 (Crypto.gcmTag 16 global nonce (aad ++ a.cipher) []) then some a.cipher else none

/-- A block of a general-block-transfer: its number, whether it is the last, and its data; the flag says window 1 without streaming
(R163). -/
def parseBlock (b : Bytes) : Option (Nat × Bool × Bytes × Bool) :=
  match axdrLen b b.length 6 with
  | none => none
  | some (n, q) =>
    if b.length ≠ q + n then none
    else some (b.be 2 2, (b.u8 1).testBit 7, b.drop q, (b.u8 1).testBit 6 == false && b.u8 1 % 64 == 1)

/-- The plaintext of a PDU under the class authentication key that it verifies under (R164, R304), and whether that is the new
one. -/
def Dev.verifyAk (d : Dev) (cls address global : Nat) (a : Apdu) : Option (Bool × Bytes) :=
  let k : KeyPair := Maps.getD d.dur.classAks cls {}
  let under (new : Bool) (s : Option KeySet) : Option (Bool × Bytes) :=
    ((s.bind d.unwrapSet).bind fun k => a.opened address global k.link).map fun p => (new, p)
  (under false k.cur).or (under true k.cand)

/-! ## Drift (R98) -/

/-- A quotient narrowed to an integer; which way is left open (log entry 25). -/
def narrow (n d : Int) : Int := if n % d = 0 then n / d else n / d + (b2n (Config.roundUp n d) : Nat)

/-- The context after a drift sample: SYNC_ID and ELAPSED as carried, the frame's SFD in PTP ns. The flags are DRIFT_SAT and
a sample discarded as an outlier (R98; log entry 103). -/
def Ctx.learnDrift (c : Ctx) (minConf outlier sync elapsed sfd : Nat) : Ctx × Bool × Bool :=
  let at_ := 1000000000 * c.syncSec + c.syncNs
  if sync ≠ c.syncId ∨ sfd ≤ at_ then (c, false, false)
  else
    let dev : Int := ((sfd - at_ : Nat) : Int)
    -- resolve_wrap: the value congruent to ELAPSED that lies nearest the device's own time, in ticks of 1/32,768 s
    let ticks := dev * 32768 / 1000000000
    let w : Int := 4294967296
    let off := (ticks - elapsed) % w
    let met : Int := if 2 * off < w then ticks - off else ticks - off + w
    -- s = num / den, and s - d = gap / den
    let num := (met * 1000000000 - dev * 32768) * 1000000000
    let den := 32768 * dev
    let gap := num - c.drift * den
    let far := decide (minConf ≤ c.confidence) && decide ((outlier : Int) * den < gap.natAbs)
    let out := far && decide (c.outliers + 1 ≠ 3)
    let c1 : Ctx :=
      if far then
        if c.outliers + 1 = 3 then { c with drift := narrow num den, confidence := 0, outliers := 0, sendsDrift := true }
        else { c with confidence := c.confidence - 1, outliers := c.outliers + 1, sendsDrift := true }
      else
        let n := min c.confidence 15
        { c with drift := c.drift + narrow gap (den * (n + 1)), confidence := min (c.confidence + 1) 255, outliers := 0, sendsDrift := true }
    ({ c1 with drift := clampInt (-8388607) 8388607 c1.drift }, decide (8388607 < c1.drift.natAbs), out)

/-- Learn from the drift IE of an authenticated frame. -/
def Dev.learnDrift (d : Dev) (meter : Nat) (f : Staged0) : Dev :=
  match f.frame.driftIe, Maps.get? meter d.dur.ctxs with
  | some (sync, elapsed), some c =>
    let (c1, sat, out) := c.learnDrift (d.get F.FHM_DRIFT_MIN_CONF) (d.get F.FHM_DRIFT_OUTLIER) sync elapsed (1000000000 * f.rxSec + f.rxNs)
    let d := { d with dur := { d.dur with ctxs := Maps.put d.dur.ctxs meter c1 } }
    let d := if out then d.count R.FHM_CNT_n 11 else d
    if sat then d.raise F.FHM_INT_STATUS_DRIFT_SAT meter else d
  | _, _ => d

/-! ## The campaign status of a frame (R274) -/

/-- R280: the frame that carries a reversion goes on under the class and calendar instance restored. -/
def Dev.reverted (d : Dev) (meter : Nat) (w : Work) : Work :=
  match Maps.get? meter d.dur.ctxs with
  | some c => { w with cls := c.cls, cal := (w.old.getD d.trellis).instOf c }
  | none => w

/-- R272, R274, R280: a report counts, its missing blocks enter the rounds, and a failed activation reverts the member. -/
def Dev.takeReport (d : Dev) (meter : Nat) (w : Work) : Work × Dev :=
  match w.staged.frame.statusIe with
  | none => (w, d)
  | some ie =>
    match d.campOf (w.staged.frame.medium == 2) ie.campaign with
    | none => (w, d.count R.DST_CNT_n 8)
    | some slot =>
      match Maps.get? slot d.dur.campaigns, d.dur.campMember? slot meter with
      | some c, some m =>
        let d := d.count R.DST_CNT_n 4
        let d := if ie.truncated then d.count R.DST_CNT_n 5 else d
        let d := d.collect slot meter ie (1000000000 * w.staged.rxSec + w.staged.rxNs)
        let n := c.reported d.tsu.sec m ie.state ie.cause ie.received
        let revert := m.switched && n.state == Ms.failed && n.cause == Cc.activation
        let d := if revert then d.revertMember slot meter m else d
        ({ (if revert then d.reverted meter w else w) with report := some (slot, revert) }, d)
      | _, _ => (w, d.count R.DST_CNT_n 8)

/-- R98, R274: what a verified frame gives whose content commits with no frame of its own, a block that waits or goes: its drift
sample, and its report, journaled by itself and without a sequence number (log entry 95). -/
def Dev.takeAside (d : Dev) (meter : Nat) (w : Work) : Dev :=
  let (w, d) := (d.learnDrift meter w.staged).takeReport meter w
  match w.report, w.staged.frame.statusIe with
  | some (slot, reverted), some ie =>
    match Maps.get? slot d.dur.campaigns, d.dur.campMember? slot meter with
    | some c, some m =>
      let n := c.reported d.tsu.sec m ie.state ie.cause ie.received
      (d.journal (.campMember slot meter (some n))).reportDone slot meter m ie reverted 0 w.staged.rxSec
    | _, _ => d
  | _, _ => d

/-! ## The decision -/

/-- R159: a frame that fails authentication is dropped. -/
def Dev.authFail (d : Dev) (meter : Nat) : Dev :=
  (((d.count R.ING_CNT_n 3).stat meter 4).raise F.ING_INT_STATUS_AUTH_FAIL meter).endWork meter

/-- The reading head of a new frame: its mark and digest, everything else still to come. -/
def Dev.startReading (d : Dev) (meter : Nat) (w : Work) (counters : List Nat) : ReadingRec :=
  let f := w.staged
  let c := Maps.getD d.dur.ctxs meter { address := f.frame.address, mbus := f.frame.mbus, cls := w.cls, cal := 0xFF }
  { meter := meter, rejected := false, noRecord := false, candKey := w.cand, statusOnly := false, counter := f.frame.counter
    digest := f.frame.digest, a := none, outages := [], tampers := [], campaign := none, classAk := w.newAk, counters := counters
    body := {
      cls := w.cls, count := 0, meter := meter, mbus := c.mbus, position := d.trellis.device.position, address := c.address, seq := 0
      tariff := 0x80, source := f.source, rxSec := f.rxSec, rxNs := f.rxNs, tsSec := f.rxSec, counter := f.frame.counter
      quality := (if w.cand then Qual.candKey else 0) + (if f.source = 2 then Qual.forwarded else 0), values := [] } }

/-- A verified new frame goes on to its parse, or, with a status report alone, straight to its commit (R274). -/
def Dev.goOn (d : Dev) (meter : Nat) (w : Work) (counters : List Nat) : Dev :=
  let (w, d) := (d.learnDrift meter w.staged).takeReport meter w
  let r := d.startReading meter w counters
  if w.payload = [] ∧ w.staged.frame.statusIe.isSome then
    (d.setWork meter { w with reading := some { r with statusOnly := true }, stage := .wantRing }).run meter
  else d.setWork meter { w with reading := some r, stage := .parse }

/-- The rejection that the form of a PDU draws before its key is looked at (R163, R170; log entry 49): a service or ciphering outside
R163, or its security control; 0 for none. -/
def apduRefusal : Option Apdu → Nat
  | none => Rej.unsupported
  | some a => if a.ciphered = false then Rej.unsupported else if a.controlOk then 0 else Rej.dlms

/-- R164: verify the PDU of a whole message, `w.payload`, and go on with its plaintext. -/
def Dev.checkApdu (d : Dev) (meter : Nat) (w : Work) (global : Nat) (counters : List Nat) : Dev :=
  let a := parseApdu w.payload
  let code := apduRefusal a
  match (if code = 0 then a else none) with
  | none => d.goOn meter { w with refused := code } counters
  | some a =>
    match d.verifyAk w.cls w.staged.frame.address global a with
    | none => d.authFail meter
    | some (new, p) =>
      let w := { w with newAk := new, apdu := some a, payload := p }
      d.goOn meter (if serviceOf p = .unsupported then { w with refused := Rej.unsupported } else w) counters

/-- The held blocks of a message, in arrival order. -/
def Dev.heldBlocks (d : Dev) (meter : Nat) : List (Nat × Nat × Bytes) := (Maps.getD d.eng.reassembly meter ⟨[], 0⟩).blocks

def Dev.holdBlock (d : Dev) (meter : Nat) (bs : List (Nat × Nat × Bytes)) : Dev :=
  let since := ((Maps.get? meter d.eng.reassembly).map (·.since)).getD d.cycles
  { d with eng := { d.eng with reassembly := Maps.put d.eng.reassembly meter ⟨bs, since⟩ } }

/-- R98, R163, R166: a block of a message. One that is not the last is held where its block counter and its frame counter rise; the
last makes the message whole, or its missing blocks discard what is held. A block that does not rise goes (log entry 81). -/
def Dev.takeBlock (d : Dev) (meter : Nat) (w : Work) (global blk : Nat) (last : Bool) (data : Bytes) : Dev :=
  let held := d.heldBlocks meter
  let c := w.staged.frame.counter
  let all := held ++ [(blk, c, data)]
  let rises := held.all fun b => decide (b.1 < blk) && decide (b.2.1 < c)
  if last = false then
    let d := d.takeAside meter w
    (if rises then d.holdBlock meter all else d).endWork meter
  else if rises = false then (d.takeAside meter w).endWork meter
  else
    let whole := decide (all.map (·.1) = (List.range all.length).map (· + 1)) && decide (all.length ≤ 8) &&
      decide ((all.map fun b => b.2.2.length).sum ≤ 8192)
    if whole = false then ((d.takeAside meter w).dropBlocks meter).endWork meter
    else d.checkApdu meter { w with payload := all.flatMap fun b => b.2.2, blocks := all.map (·.1) } global (all.map fun b => b.2.1)

/-- A verified new frame by the layers of its class (R163 to R166, R274): a status report alone; a DLMS/COSEM block or PDU; or the
plaintext as it is. -/
def Dev.takePlain (d : Dev) (meter : Nat) (w : Work) (dlms : Bool) (global : Nat) : Dev :=
  let f := w.staged.frame
  if (w.payload = [] ∧ f.statusIe.isSome) ∨ dlms = false then d.goOn meter w [f.counter]
  else if w.payload.u8 0 = 0xE0 then
    match parseBlock w.payload with
    | some (blk, last, data, true) => d.takeBlock meter w global blk last data
    | _ => d.goOn meter { w with refused := Rej.unsupported } [f.counter]
  else d.checkApdu meter w global [f.counter]

/-- The meter class's dialect graph is a DLMS/COSEM one. -/
def Trellis.dlmsClass (t : Trellis) (c : Nat) : Bool :=
  match t.class? c with
  | some cls => t.dialectDir.any fun g => g.graphId == cls.graph && g.protocol == 1
  | none => false

/-- What the link layer's plaintext holds: a ZX-PLC status frame's is the report itself (R118, R275). -/
def Work.withPlain (w : Work) (p : Bytes) : Work :=
  let f := w.staged.frame
  if f.medium = 2 ∧ f.kind = 2 then { w with staged := { w.staged with frame := { f with statusIe := some (zxStatus p) } }, payload := [] }
  else { w with payload := p }

/-- R158 to R162: the decision on a frame that a lane has decrypted and verified. -/
def Dev.decideFrame (d : Dev) (meter : Nat) (w : Work) : Dev :=
  let f := w.staged.frame
  let t := w.old.getD d.trellis
  let w := { w with verified := true, held := w.held.filter (· ≠ 3) }
  match Maps.get? meter d.dur.ctxs with
  | none => d.endWork meter
  | some c =>
    if d.keyLocked then d.endWork meter
    else
      match d.verifySet meter (((t.class? w.cls).map (·.security)).getD 0) f with
      | none => d.authFail meter
      | some (set, cand, p) =>
        let w := { w with cand := cand }
        if cand = false ∧ f.counter = c.m ∧ f.digest = c.digest then
          let d := (d.count R.ING_CNT_n 5).stat meter 1
          (d.accept w.staged [f.counter] true).endWork meter
        else if cand = false ∧ f.counter = c.m then
          (((((d.count R.ING_CNT_n 4).count R.ING_CNT_n 6).stat meter 2).raise F.ING_INT_STATUS_COUNTER_REUSE meter)).endWork meter
        else if cand = false ∧ (f.counter < c.m ∨ c.inExhausted) then
          (((d.count R.ING_CNT_n 4).stat meter 2).raise F.ING_INT_STATUS_REPLAY meter).endWork meter
        else d.takePlain meter (w.withPlain p) (t.dlmsClass w.cls) set.global

/-- R158: a 32-bit counter rebuilt from its low bits: the value nearest M. -/
def nearest (bits low m : Nat) : Nat :=
  let k := 2 ^ bits
  let up := (low + k - m % k) % k
  if m + up < 2 ^ 32 ∧ (2 * up < k ∨ m + up < k) then m + up else m + up - k

/-- R159, R179: a lane ends a frame's decryption, and the frame is decided; or a record's tag. -/
def execCryptoLaneDone (job : LaneJob) (s : State) : Answer :=
  s.on fun d =>
    match job with
    | .tag seq =>
      if d.eng.records.any fun r => r.seq == seq && !r.ecdsa then d.finishRecord seq else d
    | .frame meter =>
      match Maps.get? meter d.eng.flight with
      | none => d
      | some w =>
        if w.stage ≠ .crypto then d
        else
          let m := ((Maps.get? meter d.dur.ctxs).map (·.m)).getD 0
          let f := w.staged.frame
          let f :=
            if f.security = 0x85 then { f with counter := nearest 8 (f.counter % 256) m }
            else if f.medium = 2 then { f with counter := nearest 16 (f.counter % 65536) m } else f
          (d.decideFrame meter { w with staged := { w.staged with frame := f } }).showIng

end Sys2Proof.Machine
end

