-- ==== Sys2Proof/Machine/HostCmd.lean ====
section
/-! DEFINITION. Host commands and their responses (R444, R446 to R451). -/

namespace Sys2Proof.Machine

/-- R447: CERT_LOAD: verify a role certificate under the live base's owner key and cache it, evicting the least recently
used of 16. The verification asks for an engine at port rank 1 (R203, R448; log entry 99). -/
def execCertLoad (ring : Nat) (s : State) : Answer :=
  s.on fun d => d.hostCmd ring 3 fun c d =>
    let b := c.body
    let plain := decide (b.length = 144) && decide (b.slice 0 2 = [0x59#8, 0x43#8]) && decide (b.u8 2 = 5) && decide (b.u8 3 = 0) &&
      decide (b.u8 12 ≤ 4) && b.zero 13 3
    let sig := BitVec.ofNat 512 (beNat (b.slice 0x50 64))
    if b.length ≠ 144 then d.refuse c Cmd.badPacket
    else
    let d := d.shPost 1 (.verifyCommand ring) 0
    if plain = false ∨ Crypto.ecdsaVerify (BitVec.ofNat 512 d.trl.ownerKey) (Crypto.sha256 (b.slice 0 0x50)) sig = false then
      d.refuse c Cmd.badCert
    else
      let ref := (Crypto.sha256 b).toNat / 2 ^ 192
      let e : CertEntry := { ref := ref, role := b.u8 12, key := (certKey b).toNat, lastNonce := d.now }
      let others := d.face.hst.certs.filter (·.ref ≠ ref)
      let kept := if others.length < 16 then others else others.tail
      let d := { d with face := { d.face with hst := { d.face.hst with certs := kept ++ [e] } } }
      (d.set F.RNG_CERTS_CACHED d.face.hst.certs.length).respond c.respRing 3 Cmd.ok c.tag (beBytes 8 ref)

/-! ## OBJECT_REQUEST -/

/-- R196, R234, R449: OBJECT_REQUEST is a work item of its meter: it takes the meter's context and is answered there in one
admission. One that names no allocated meter is answered at once. -/
def execObjectRequest (ring : Nat) (s : State) : Answer :=
  s.on fun d =>
    match d.viewMeter? ring with
    | some m =>
      let waits := d.eng.downs.any (fun x => x.2.1 == .view ring) || d.eng.flight.any fun p => p.2.job == some (.view ring)
      if waits then d else if Maps.has d.dur.ctxs m then d.startDown m (.view ring) else d.serveView ring m
    | none => d.serveView ring noMeter

/-! ## METER_REQUEST -/

/-- The role that METER_REQUEST needs. -/
def operatorRole : Nat := 1

/-- A get-, set- or action-request within R163: its tag, the choice normal or with-list as IEC 62056-5-3
numbers it (1, and 3 or, for SET, 4), and the invoke-id's octet. -/
def requestOk (a : Bytes) : Bool :=
  let t := a.u8 0
  let k := a.u8 1
  decide (3 ≤ a.length) &&
    ((t == 0xC0 && (k == 1 || k == 3)) || (t == 0xC1 && (k == 1 || k == 4)) || (t == 0xC3 && (k == 1 || k == 3)))

/-- R450: METER_REQUEST: needs the Operator role, a meter with a downlink and no request outstanding; the APDU, with its
invoke-id replaced, waits as a downlink, and a work item of the meter ciphers it (R196). -/
def execMeterRequest (ring : Nat) (s : State) : Answer :=
  s.on fun d => d.hostCmd ring 2 fun c d => d.authorised c fun role d =>
      let apdu : Bytes := c.body.drop 4
      let m := c.meter
      if role ≠ operatorRole then d.refuse c Cmd.denied
      else if c.body.length < 4 ∨ requestOk apdu = false then d.refuse c Cmd.badPacket
      else if Maps.has d.dur.ctxs m = false then d.refuse c Cmd.noMeter
      else if d.hasDownlink m = false then d.refuse c Cmd.noDownlink
      else if d.face.hst.requests.any (·.meter == m) then d.refuse c Cmd.busy
      else
        match d.fresh 4 with
        | (id, d) =>
          let a : Bytes := apdu.take 2 ++ beBytes 1 (apdu.u8 2 / 16 * 16 + id.toNat) ++ apdu.drop 3
          let q : MeterReq := { meter := m, respRing := c.respRing, tag := c.tag, invokeId := id.toNat, at_ := d.cycles }
          let n := d.fhm.dlNext
          let dl : Downlink := { id := n, meter := m, kind := .request c.tag, ie := [], payload := [], plain := a }
          let d := { d with fhm := { d.fhm with downlinks := d.fhm.downlinks ++ [dl], dlNext := n + 1 } }
          let d := { d with face := { d.face with hst := { d.face.hst with requests := d.face.hst.requests ++ [q] } } }
          d.startDown m (.cipher n)

/-- R450: RNG_REQ_TIMEOUT has passed without the meter's response: TIMEOUT. A response that commits in the cycle of the
expiry wins (R462). Without effect before. -/
def execMeterRequestTimeout (meter : Nat) (s : State) : Answer :=
  s.on fun d =>
    match d.face.hst.requests.find? (·.meter == meter) with
    | none => d
    | some q =>
      if d.cycles ≤ q.at_ + d.get F.RNG_REQ_TIMEOUT_SECONDS * secCycles then d else
      let left := d.face.hst.requests.filter (·.meter ≠ meter)
      let d := { d with face := { d.face with hst := { d.face.hst with requests := left } } }
      let gone (x : Downlink) : Bool := x.meter == meter && x.kind == .request q.tag
      let d := { d with fhm := { d.fhm with downlinks := d.fhm.downlinks.filter fun x => !gone x } }
      (d.count R.RNG_CNT_n 5).respond q.respRing 2 Cmd.timeout q.tag []

/-! ## Confirmation -/

/-- R444: RNG_n_CONFIRM_LO: the 48-bit value, if above the mark, is journaled and unpins; what it frees takes the overflow
region's records (R360). -/
def execRingConfirm (ring : Nat) (lo : Word) (s : State) : Answer :=
  s.on fun d =>
    let hi := (d.reg (R.RNG_n_CONFIRM_HI.at ring)).toNat % 65536
    let mark := hi * 2 ^ 32 + lo.toNat
    if mark ≤ Maps.getD d.dur.confirmed ring 0 then d
    else
      let d := d.setReg (R.RNG_n_CONFIRM_LO.at ring) lo
      let d := d.journal (.confirm ring mark)
      d.drainOverflow d.jnl.overflow.length

end Sys2Proof.Machine
end

