-- ==== Sys2Proof/Machine/Chain.lean ====
section
/-! DEFINITION. The measurement chain from the modulators' bits on (05): phase delay, CIC, the FIR filters with their cross-fades,
gain, the Hilbert path, settling, fast taps, energies and their intervals. Log entry 83 says how bits and time-stamps reach it. -/

namespace Sys2Proof.Machine

/-- The nearest integer to n / d; which way a tie goes is left open (log entry 25). -/
def roundNear (n d : Int) : Int :=
  let r := n % d
  if 2 * r < d then n / d else if d < 2 * r then n / d + 1 else n / d + (b2n (Config.roundUp n d) : Nat)


/-- The integer square root, of `k` bits. -/
def isqrtFrom : Nat → Nat → Nat → Nat
  | 0, r, _ => r
  | k + 1, r, n => isqrtFrom k (if (r + 2 ^ k) ^ 2 ≤ n then r + 2 ^ k else r) n

/-- RMS of `n` samples from their sum of squares, where full scale 2^30 stands for `ratio` (R141, R144, R148). -/
def rmsOf (squares n ratio : Nat) : Nat := isqrtFrom 40 0 (squares * ratio ^ 2 / (n * 2 ^ 60))

/-! ## Settings (R128, R129, R135) -/

/-- N, D and F of a MSR_CHAIN word. -/
def chainN (c : Word) : Nat := bitsOf c 2 0
def chainD (c : Word) : Nat := 2 ^ bitsOf c 6 4
def chainF (c : Word) : Nat := bitsOf c 8 8

/-- τ_chain in phase steps (R129). -/
def chainDelay (c : Word) : Nat :=
  32 * chainN c * (chainD c - 1) + 64 * 31 * chainD c + 64 * chainF c * 94 * chainD c

/-- τ_fast in phase steps (R129). -/
def fastDelay (c : Word) : Nat := 32 * chainN c * (chainD c - 1)

/-- Input bits of one output sample. -/
def outBits (c : Word) : Nat := 2 * chainD c * 2 ^ chainF c

/-- Settling counts K, K_Q and K_FAST (R135). -/
def settleK (c : Word) : Nat :=
  let s := chainN c * (chainD c - 1) + 62 * chainD c + chainF c * 94 * 2 * chainD c
  (s + outBits c - 1) / outBits c + 1
def settleQ (c : Word) : Nat := settleK c + 126
def settleFast (c : Word) : Nat := (chainN c * (chainD c - 1) + chainD c - 1) / chainD c + 1

/-- R128: settings inside their fields' limits, and LOG2D 7 while a feeder record enables ZX-PLC. -/
def Dev.chainOk (d : Dev) (c s : Word) : Bool :=
  decide (3 ≤ chainN c) && decide (chainN c ≤ 5) && decide (5 ≤ bitsOf c 6 4) && decide (bitsOf c 6 4 ≤ 9) &&
    [bitsOf s 31 24, bitsOf s 23 16, bitsOf s 15 8, bitsOf s 7 0].all (fun x => decide (x ≤ 40)) &&
    (bitsOf c 6 4 == 7 || d.trellis.msrFeeders.all fun f => f.zxPhases == 0)

/-- The chain runs: it is enabled, and MEASUREMENT is present. -/
def Dev.msrRuns (d : Dev) : Bool := !d.trellis.msrChans.isEmpty && d.flag F.MSR_CTRL_ENABLE

/-- Enabled channels of MEASUREMENT. -/
def Dev.msrChans (d : Dev) : List MsrChanRec := d.trellis.msrChans.filter (·.enabled)

/-! ## Swaps (R139, R140) -/

/-- Show the running and pending swaps. -/
def Dev.showSwaps (d : Dev) : Dev :=
  let m := d.msr
  let d := d.set F.MSR_STATUS_FADE_ACTIVE (b2n m.fade.isSome)
  let d := (d.set F.MSR_STATUS_SWAP_PENDING (b2n m.pend.isSome)).set F.MSR_STATUS_PENDING_TARGET ((m.pend.map (·.target)).getD 0)
  d.set F.MSR_SWAP_STATUS_PENDING_FADE ((m.pend.map (·.fade)).getD 0)

/-- Banks that a swap leaves active. -/
def Swap.banks (w : Swap) (active : Nat) : Nat := (active &&& (7 - w.mask % 8)) ||| (w.target &&& w.mask % 8)

/-- Stages that take part in a swap, where `active` are the banks active as it starts (R139). -/
def Swap.parts (w : Swap) (active : Nat) : Nat := w.mask % 8 &&& (active ^^^ w.target)

/-- The running fade ends: its targets are active, and a pending swap starts. -/
def Dev.endFade (d : Dev) : Dev :=
  match d.msr.fade with
  | none => d
  | some w =>
    let d := (d.set F.MSR_STATUS_ACTIVE_BANK (w.banks (d.get F.MSR_STATUS_ACTIVE_BANK))).set F.MSR_SWAP_STATUS_PROGRESS 0
    ({ d with msr := { d.msr with fade := d.msr.pend, pend := none } }.showSwaps).raise F.MSR_INT_STATUS_SWAP_DONE

/-! ## One channel's filters -/

/-- What every channel's filters share at an input bit: MSR_CHAIN and MSR_SHIFT in force, the input bits since the decimation
counters restarted, banks A and B of a stage by index, the active banks, the stages that fade and the new bank's weight in units
of 2^-24 (R139). -/
structure ChainEnv where
  chain : Word
  shift : Word
  tick : Nat
  coef : Nat → Nat → Nat → Int
  active : Nat
  fades : Nat
  weight : Int

/-- Wrap to 56 bits. -/
def wrap56 (v : Int) : Int := (v + 2 ^ 55) % 2 ^ 56 - 2 ^ 55

/-- R131: a stage's arithmetic right shift and clamp, and whether it clamped. -/
def shiftClamp (sh : Nat) (v : Int) : Int × Bool :=
  let x := v / (2 ^ sh : Nat)
  let y := clampInt (-2147483648) 2147483647 x
  (y, x != y)

/-- Element `i` of a line, 0 beyond it. -/
def tap (l : List Int) (i : Nat) : Int := l.getD i 0

/-- The sum of a symmetric filter of 2 n - 1 taps over a line (R138). -/
def symSum (n : Nat) (coef : Nat → Int) (l : List Int) : Int :=
  ((List.range n).map fun i => coef i * if i + 1 = n then tap l i else tap l i + tap l (2 * n - 2 - i)).sum

/-- The sum of the antisymmetric Hilbert filter: tap 63 + (2 i + 1) holds c, tap 63 - (2 i + 1) holds -c (R138). -/
def antiSum (coef : Nat → Int) (l : List Int) : Int :=
  ((List.range 32).map fun i => coef i * (tap l (64 + 2 * i) - tap l (62 - 2 * i))).sum

/-- A stage's output: of its active bank, or across a fade (R139). The direction in which the fade's product rounds is left open
(log entry 25). -/
def ChainEnv.stage (e : ChainEnv) (st : Nat) (sum : (Nat → Int) → Int) : Int × Bool :=
  let bank := b2n (bitAt e.active st)
  let sh := [bitsOf e.shift 15 8, bitsOf e.shift 23 16, bitsOf e.shift 31 24].getD st 0
  let y := shiftClamp sh (sum (e.coef st bank))
  if bitAt e.fades st then
    let z := shiftClamp sh (sum (e.coef st (1 - bank)))
    (y.1 + narrow (e.weight * (z.1 - y.1)) (2 ^ 24), y.2 || z.2)
  else y

/-- A channel during one input bit: its state, its final output where this bit completes one, and the stages that clamped
(R131). -/
structure ChanStep where
  ch : ChanRt
  sats : List Nat := []

/-- R132: the interpolated input of the CIC at a phase delay of `p` steps. A cleared interpolator holds no earlier bit (R135). -/
def ChanRt.input (c : ChanRt) (p : Nat) : Int :=
  let bit (i : Nat) : Int := match c.line[i]? with
    | some b => if b then 1 else -1
    | none => 0
  let f : Int := ((p % 64 : Nat) : Int)
  (64 - f) * bit (p / 64) + f * if c.fed then bit (p / 64 + 1) else 0

/-- The integrators over one input. -/
def integrate : List Int → Int → List Int
  | [], _ => []
  | a :: as, x => let y := wrap56 (a + x); y :: integrate as y

/-- The combs over one decimated value: their new delays, and the result. -/
def comb : List Int → Int → List Int × Int
  | [], x => ([], x)
  | a :: as, x => let r := comb as (wrap56 (x - a)); (x :: r.1, r.2)

/-- `n` values of a list, zeros where it is shorter. -/
def filled (n : Nat) (l : List Int) : List Int := (List.range n).map (tap l)

/-- A bit enters the delay line. -/
def ChanRt.push (c : ChanRt) (b : Bool) : ChanRt := { c with line := (b :: c.line).take 4098 }

/-- R131, R132, R148: one bit of a channel at phase delay `p`: delay line, CIC, fast tap, compensation FIR, optional FIR, gain `g` in
ppb and, for a voltage channel, the Hilbert filter. `forced` is whether the output sample is forced to zero (R135). -/
def ChanRt.step (c : ChanRt) (e : ChainEnv) (b : Bool) (p : Nat) (g : Int) (hilbert forced ok : Bool) (at_ : Nat) : ChanStep :=
  let n := chainN e.chain
  let dec := chainD e.chain
  let c := c.push b
  let integ := integrate (filled n c.integ) (c.input p)
  let c := { c with integ := integ, fed := true }
  if e.tick % dec ≠ 0 then { ch := c }
  else
    let r := comb (filled n c.combs) (integ.getLastD 0)
    let (y, s0) := shiftClamp (bitsOf e.shift 7 0) r.2
    let valid := ok && c.leftFast == 0
    let c := { c with
      combs := r.1, fir1 := (y :: c.fir1).take 63, leftFast := c.leftFast - 1
      fast := (({ at_ := at_, value := if c.leftFast = 0 then y else 0, valid := valid } : FastTap) :: c.fast).take 512 }
    let sats := if s0 then [0] else []
    if e.tick % (2 * dec) ≠ 0 then { ch := c, sats := sats }
    else
      let (y, s1) := e.stage 0 fun k => symSum 32 k c.fir1
      let sats := if s1 then sats ++ [1] else sats
      let two := chainF e.chain == 1
      let c := if two then { c with fir2 := (y :: c.fir2).take 95 } else c
      if e.tick % outBits e.chain ≠ 0 then { ch := c, sats := sats }
      else
        let (y, s2) := if two then e.stage 1 fun k => symSum 48 k c.fir2 else (y, false)
        let sats := if s2 then sats ++ [2] else sats
        let x := narrow (y * (1000000000 + g)) 1000000000
        let y := clampInt (-2147483648) 2147483647 x
        let sats := if x = y then sats else sats ++ [4]
        let out := ((if forced then 0 else y) :: c.out).take 127
        let (h, s3) := if hilbert then e.stage 2 fun k => antiSum k out else (0, false)
        { ch := { c with out := out, hil := h }, sats := if s3 then sats ++ [3] else sats }

/-- R135, R149: the filters of a channel are cleared, and it settles. The delay line goes on. -/
def ChanRt.cleared (c : ChanRt) (k q fast : Nat) : ChanRt :=
  { line := c.line, fast := c.fast, left := k, leftQ := q, leftFast := fast }

/-! ## The chain -/

def Dev.modSlot (d : Dev) (n : Nat) : ModSlot := d.msr.slots.getD n {}


def Dev.chan (d : Dev) (n : Nat) : ChanRt := Maps.getD d.msr.chans n {}

def Dev.setChan (d : Dev) (n : Nat) (c : ChanRt) : Dev := { d with msr := { d.msr with chans := Maps.put d.msr.chans n c } }

/-- The identity record's entry of a channel, where one is applied. -/
def Dev.chanEntry? (d : Dev) (c : MsrChanRec) : Option ModEntry := (d.modSlot c.module).front.bind fun m => m.entries[c.moduleChannel]?

/-- A coefficient of a stage's bank (R138). -/
def Dev.coefOf (d : Dev) (stage bank i : Nat) : Int :=
  let k := 128 * stage + 64 * bank + i
  signed 24 ((Maps.get? k d.msr.coefs).getD (Config.nominalCoef k).toNat)

/-- What the filters share now. A fade's weight is that of the output sample in progress. -/
def Dev.chainEnv (d : Dev) : ChainEnv :=
  let active := d.get F.MSR_STATUS_ACTIVE_BANK
  let k := d.get F.MSR_SWAP_STATUS_PROGRESS + 1
  { chain := d.msr.chain, shift := d.msr.shift, tick := d.msr.tick, coef := d.coefOf, active := active
    fades := (d.msr.fade.map fun w => w.parts active).getD 0
    weight := ((d.msr.fade.map fun w => min (k * 2 ^ 24 / max 1 w.fade) (2 ^ 24)).getD 0 : Nat) }

/-- R131: a stage of a channel clamps its shifted result. -/
def Dev.clampAt (d : Dev) (channel stage : Nat) : Dev :=
  let x := F.MSR_CH_SAT_STAGE.at channel
  ((d.setChan channel { d.chan channel with clamped := true }).setW1c x (2 ^ stage)).raise F.MSR_INT_STATUS_SATURATION channel stage

/-- One bit of an enabled channel; a voltage channel takes the Hilbert path where the chain has one (R136; log entry 104). -/
def Dev.chanBit (d : Dev) (x : Sdi) (c : MsrChanRec) : Dev :=
  let n := c.channel
  let g := signed 32 (d.get (F.MSR_CH_GAIN_G.at n))
  let r := (d.chan n).step d.chainEnv (x.2.getLsbD n) (d.get (F.MSR_CH_PHASE_STEPS.at n)) g
    (bitAt d.msr.chain.toNat 9 && decide (c.role ≤ 2)) ((d.chan n).left != 0) (d.flag (F.MSR_CH_STATUS_MODULE_OK.at n)) x.1
  r.sats.foldl (fun d st => d.clampAt n st) (d.setChan n r.ch)

/-! ## Output samples -/

/-- R133: the applied delay moves toward P_n by one step. -/
def Dev.slewStep (d : Dev) (n : Nat) : Dev :=
  match Maps.get? n d.msr.target with
  | none => d
  | some p =>
    let x := F.MSR_CH_PHASE_STEPS.at n
    let a := d.get x
    let b := if a < p then a + 1 else if p < a then a - 1 else a
    (d.set x b).set (F.MSR_CH_STATUS_SLEWING.at n) (b2n (b != p))

/-- A valid sample enters the second's sums (R141, R148). -/
def SecondAcc.add (a : SecondAcc) (n : Nat) (y : Int) : SecondAcc :=
  let (s, q, k) := Maps.getD a.sums n (0, 0, 0)
  { a with sums := Maps.put a.sums n (s + y, q + y.natAbs ^ 2, k + 1) }

/-- R135, R143: VALID, the sample register and the invalid counts of a channel at an output sample. -/
def Dev.chanSample (d : Dev) (c : MsrChanRec) : Dev :=
  let n := c.channel
  let x := d.chan n
  let ok := d.flag (F.MSR_CH_STATUS_MODULE_OK.at n)
  let valid := ok && x.left == 0
  let d := d.setChan n { x with left := x.left - 1, leftQ := x.leftQ - 1, valid := valid, validQ := ok && x.leftQ == 0 }
  let d := (d.set (F.MSR_CH_STATUS_VALID.at n) (b2n valid)).set (F.MSR_CH_SAMPLE_SAMPLE.at n) (pattern 32 (tap x.out 0))
  let d := if valid then { d with msr := { d.msr with now := d.msr.now.add n (tap x.out 0) } } else d.countBy R.MSR_CH_INVALID n 1
  d.slewStep n

/-- The second of an output sample (R141). -/
def Dev.secondSample (d : Dev) (at_ : Nat) : Dev :=
  let s := at_ / 1000000000
  let a := d.msr.now
  if a.samples = 0 ∨ a.sec ≠ s then
    { d with msr := { d.msr with before := if a.samples = 0 then d.msr.before else a, now := { sec := s, first := at_, last := at_, samples := 1 } } }
  else { d with msr := { d.msr with now := { a with last := at_, samples := a.samples + 1 } } }

/-- The last whole second's sums (R141, R148). -/
def Dev.wholeSecond (d : Dev) : SecondAcc := if d.msr.now.sec < d.tsu.sec then d.msr.now else d.msr.before

/-! ## Energies (R136, R137, R142 to R144) -/

/-- A channel's sample in primary units: value × RATIO, at chain output 2^30 (R148), and its Hilbert output. -/
structure Primary where
  y : Int
  hil : Int
  /-- The output 63 samples before (R136). -/
  late : Int
  valid : Bool
  validQ : Bool
  /-- Phase steps applied. -/
  delay : Nat

/-- The sample of a feeder's role. -/
def Dev.primary (d : Dev) (f role : Nat) : Option Primary :=
  (d.msrChans.find? fun c => c.feeder == f && c.role == role).bind fun c =>
    (d.chanEntry? c).map fun e =>
      let x := d.chan c.channel
      let k : Int := e.ratio
      { y := tap x.out 0 * k, hil := x.hil * k, late := tap x.out 63 * k, valid := x.valid, validQ := x.validQ
        delay := d.get (F.MSR_CH_PHASE_STEPS.at c.channel) }

/-- v × i × Δt of two samples, 0 where one is invalid (R143). -/
def activeOf (dt : Int) : Option Primary → Option Primary → Int
  | some v, some i => if v.valid && i.valid then v.y * i.y * dt else 0
  | _, _ => 0

/-- The Hilbert output of v times the delayed i times Δt, over |H(f1)| (R136, R137); a bank with no gain there leaves the quotient
open (log entry 83). -/
def reactiveOf (dt : Int) (gain : Nat) : Option Primary → Option Primary → Int
  | some v, some i =>
    if v.validQ && i.validQ then
      (if gain = 0 then (Config.reactiveByZero (v.hil * i.late * dt)).toInt else narrow (v.hil * i.late * dt * 2 ^ 60) gain)
    else 0
  | _, _ => 0

/-- Units of an energy sum in 2^-32 µWh: mV × mA at 2^60 full scale, over 2^-12 ns (R143). -/
def energyUnit : Int := 2 ^ 40 * 3600000000000

/-- The first energy of a quantity: n = 4 p + d (MSR_FDR_E_n). -/
def energyBase (q : Nat) : Nat := if q < 3 then 4 * q else if q < 6 then 4 * (q - 3) + 2 else if q = 6 then 12 else 14

/-- Add to one of sixteen energies. -/
def addAt (l : List Int) (k : Nat) (v : Int) : List Int := (List.range 16).map fun i => l.getD i 0 + if i = k then v else 0

/-- Some parts of a running cycle go to import or export by the sign of the cycle's sum (R142). -/
def FeederAcc.sortParts (a : FeederAcc) (q : Nat) (total : Int) (parts : List (Nat × Int)) : FeederAcc :=
  let k := energyBase q + if total < 0 then 1 else 0
  parts.foldl (fun a p =>
    let v := narrow (if total < 0 then -p.2 else p.2) energyUnit
    let i := Maps.getD a.ints p.1 {}
    { a with energy := addAt a.energy k v, ints := Maps.put a.ints p.1 { i with energy := addAt i.energy k v } }) a

def FeederAcc.cycle (a : FeederAcc) (q : Nat) : CycleSum := a.cycles.getD q {}

def FeederAcc.setCycle (a : FeederAcc) (q : Nat) (c : CycleSum) : FeederAcc :=
  { a with cycles := (List.range 8).map fun i => if i = q then c else a.cycles.getD i {} }

/-- R142: a quantity's sample with input instant `at_`, in balance interval `b`: a rising crossing since the cycle began ends it;
`block` is the number of samples that stand for a cycle where the phase is not tracked. -/
def FeederAcc.take (a : FeederAcc) (q at_ b : Nat) (edges : List Nat) (block : Option Nat) (v : Int) : FeederAcc :=
  let c := a.cycle q
  let edge := (edges.filter fun e => decide (e ≤ at_) && decide (c.since < e)).foldl max 0
  let ends := match block with
    | some n => decide (n ≤ c.samples)
    | none => decide (0 < edge)
  let (a, c) : FeederAcc × CycleSum := if ends then (a.sortParts q (c.parts.map (·.2)).sum c.parts, { since := max c.since edge }) else (a, c)
  a.setCycle q { c with parts := Maps.put c.parts b (Maps.getD c.parts b 0 + v), samples := c.samples + 1 }

/-- R144: as an interval is handed over, the parts of its running cycles are sorted by what the cycle has summed so far (log entry
83). -/
def FeederAcc.closeUpTo (a : FeederAcc) (b : Nat) : FeederAcc :=
  (List.range 8).foldl (fun a q =>
    let c := a.cycle q
    (a.sortParts q (c.parts.map (·.2)).sum (c.parts.filter fun p => decide (p.1 ≤ b))).setCycle q
      { c with parts := c.parts.filter fun p => decide (b < p.1) }) a

/-- Samples of the nominal mains period, by which an untracked phase is sorted (R142). -/
def Dev.blockLen (d : Dev) (f : Nat) : Nat :=
  let m := d.mainsHz f
  let k := outBits d.msr.chain * m
  (2 * 4096000 + k) / (2 * k)

/-- The rising crossings that sort a phase's energies, or the block length where it is not tracked (R142; log entry 83). -/
def Dev.sortBy (d : Dev) (f p : Nat) : List Nat × Option Nat :=
  if d.zxEnabled f p = false ∨ d.track f p = Zt.unlocked then ([], some (d.blockLen f)) else ((d.zxPhase f p).edges, none)

/-- The balance interval of an instant (R144, R243). -/
def Dev.balAt (d : Dev) (at_ : Nat) : Nat := balIndex d.balMins d.utc (at_ / 1000000000)

/-- The input instant of an output sample (R144): `lag` output periods for the reactive path. -/
def Dev.inputAt (d : Dev) (at_ delay lag : Nat) : Nat := at_ - (chainDelay d.msr.chain + delay) * 15625 / 4096 - lag * d.get F.MSR_DT_PERIOD / 4096

/-- R142 to R144: a feeder's share of an output sample: energies, invalid samples, flags and squares. Before the first
MSR_CAL_UPDATE the gain is 0 (R137; log entry 104). -/
def Dev.feederSample (d : Dev) (f : Nat) (at_ : Nat) : Dev :=
  match d.feederRec? f with
  | none => d
  | some r =>
    let dt : Int := (d.get F.MSR_DT_PERIOD : Nat)
    let gain := Maps.getD d.msr.gains f 0
    let hilbert := bitAt d.msr.chain.toNat 9
    let v (p : Nat) : Option Primary := d.primary f p
    let i (p : Nat) : Option Primary := d.primary f (p + 3)
    let three := r.wiring == 1
    let delay (p : Nat) : Nat := ((v p).map (·.delay)).getD 0
    let quantity (p : Nat) (reactive : Bool) : Int :=
      if reactive then (if hilbert then reactiveOf dt gain (v p) (i p) else 0) else activeOf dt (v p) (i p)
    let lag (reactive : Bool) : Nat := if reactive then 63 else 0
    let add (a : FeederAcc) (q p : Nat) (reactive : Bool) (x : Int) : FeederAcc :=
      let u := d.inputAt at_ (delay p) (lag reactive)
      let s := d.sortBy f p
      a.take q u (d.balAt u) s.1 s.2 x
    let phases := if three then [0, 2] else [0, 1, 2]
    let total (reactive : Bool) : Int := (phases.map fun p => quantity p reactive).sum
    let a := d.msr.feeders.getD f {}
    let a := if three then a else [0, 1, 2].foldl (fun a p => (add a p p false (quantity p false))) a
    let a := if three ∨ hilbert = false then a else [0, 1, 2].foldl (fun a p => (add a (3 + p) p true (quantity p true))) a
    let a := add a 6 0 false (total false)
    let a := if hilbert then add a 7 0 true (total true) else a
    let mine := d.msrChans.filter fun c => c.feeder == f && decide (c.role ≤ 6)
    let bad := (mine.filter fun c => !(d.chan c.channel).valid).length
    let b := d.balAt (d.inputAt at_ (delay 0) 0)
    let k := Maps.getD a.ints b {}
    let cur (p : Nat) : Int := ((i p).map (·.y)).getD 0
    let resid := cur 0 + cur 1 + cur 2 - cur 3
    let whole := (mine.filter fun c => decide (3 ≤ c.role)).all fun c => (d.chan c.channel).valid
    let k := { k with
      invalid := k.invalid + bad, saturated := k.saturated || mine.any fun c => (d.chan c.channel).clamped
      untrusted := k.untrusted || !d.flag F.MSR_STATUS_PTP_TRUSTED
      squaresN := if whole then k.squaresN + (cur 3).natAbs ^ 2 else k.squaresN
      squaresR := if whole then k.squaresR + resid.natAbs ^ 2 else k.squaresR
      samples := if whole then k.samples + 1 else k.samples }
    let a := { a with ints := Maps.put a.ints b k }
    { d with msr := { d.msr with feeders := d.msr.feeders.set f a } }.countBy R.MSR_FDR_INVALID f bad

/-- One output sample of the settling span (R135): SYNC_DONE follows the last. -/
def Dev.settleStep (d : Dev) : Dev :=
  let left := d.get F.MSR_STATUS_SETTLE_LEFT
  if left ≠ 0 then d.set F.MSR_STATUS_SETTLE_LEFT (left - 1)
  else if d.msr.settles then { d with msr := { d.msr with settles := false } }.raise F.MSR_INT_STATUS_SYNC_DONE
  else d

/-- R135, R139, R140: an output sample passes: a fade that has done its L samples ends before it, the settling count falls and
SYNC_DONE comes with the first valid sample, every channel shows its sample, and every feeder takes its share. -/
def Dev.outSample (d : Dev) (at_ : Nat) : Dev :=
  let d := d.secondSample at_
  let d := d.msrChans.foldl Dev.chanSample d
  let d := d.settleStep
  let d := if d.msr.fade.isSome then d.set F.MSR_SWAP_STATUS_PROGRESS (d.get F.MSR_SWAP_STATUS_PROGRESS + 1) else d
  let d := (List.range 4).foldl (fun d f => d.feederSample f at_) d
  d.msrChans.foldl (fun d c => d.setChan c.channel { d.chan c.channel with clamped := false }) d

/-- The running fade has done its L samples (R139). -/
def Dev.fadeDone (d : Dev) : Bool := (d.msr.fade.map fun w => decide (w.fade ≤ d.get F.MSR_SWAP_STATUS_PROGRESS)).getD false

/-- R127: the inputs of one sampling edge go through the chain, whose counters start at the reset that follows ENABLE. -/
def Dev.msrBit (d : Dev) (x : Sdi) : Dev :=
  if d.msrRuns = false then d
  else
    if d.msr.restart then d.msrChans.foldl (fun d c => d.setChan c.channel ((d.chan c.channel).push (x.2.getLsbD c.channel))) d
    else
      let d := { d with msr := { d.msr with tick := d.msr.tick + 1 } }
      -- the banks of a fade that is done are active from its next input on
      let d := if d.fadeDone then d.endFade else d
      let d := d.msrChans.foldl (fun d c => d.chanBit x c) d
      if d.msr.tick % outBits d.msr.chain = 0 then d.outSample x.1 else d

/-- The inputs sampled since the chain last took any. -/
def Dev.msrRun (d : Dev) (bits : List Sdi) : Dev := bits.foldl Dev.msrBit d

/-! ## |H(f1)| (R137) -/

/-- 2π in units of 2^-60. -/
def twoPi : Nat := 7244019458077122842

/-- The terms of the sine series of `x` in units of 2^-60, from the term `t` of order `k` on. -/
def sinSeries : Nat → Nat → Int → Int → Int
  | 0, _, _, _ => 0
  | n + 1, k, x, t => t + sinSeries n (k + 2) x (-(t * x / 2 ^ 60 * x / 2 ^ 60) / (((k + 1) * (k + 2) : Nat) : Int))

/-- The sine of `n / d` turns, in units of 2^-60. -/
def sinTurns (n d : Nat) : Int :=
  -- folded to at most a half turn on either side
  let r := n % d
  let x : Int := ((twoPi * r / d : Nat) : Int) - if 2 * r < d then 0 else (twoPi : Int)
  sinSeries 24 1 x x

/-- R137: the magnitude of a Hilbert bank, as its shift leaves it, at a mains period of `z` sixteenths of a ns and an output period of
`p` units of 2^-12 ns; in units of 2^-60. The precision is the model's (log entry 83). -/
def hilbertGain (coef : Nat → Int) (sh p z : Nat) : Nat :=
  (2 * ((List.range 32).map fun i => coef i * sinTurns (p * (2 * i + 1)) (256 * max 1 z)).sum / (2 ^ sh : Nat)).natAbs

/-- R137: once a second, every feeder's magnitude, at its mean mains frequency; while V1 is UNLOCKED at the last locked one, and
at the nominal one before there is any (log entry 83). -/
def Dev.hilbertUpdate (d : Dev) : Dev :=
  (List.range 4).foldl (fun d f =>
    let seen := d.get (F.ZXP_PERIOD_PERIOD.at f)
    let st := d.track f 0
    let last := Maps.getD d.msr.periods f (16000000000 / max 1 (d.mainsHz f))
    let z := if d.zxEnabled f 0 ∧ st ≠ Zt.unlocked ∧ seen ≠ 0 then seen else last
    let bank := b2n (bitAt (d.get F.MSR_STATUS_ACTIVE_BANK) 2)
    let g := hilbertGain (d.coefOf 2 bank) (bitsOf d.msr.shift 31 24) (d.get F.MSR_DT_PERIOD) z
    let kept := if st = Zt.locked ∨ st = Zt.holdover then z else last
    { d with msr := { d.msr with periods := Maps.put d.msr.periods f kept, gains := Maps.put d.msr.gains f g } }) d

end Sys2Proof.Machine
end

