-- ==== Sys2Proof/Machine/Msr.lean ====
section
/-! DEFINITION. The measurement chain (05): synchronising resets, bank swaps, coefficients, identity records, calibration, and
energies for the balance engine. A row carries the bits sampled since the chain last took any (log entry 83). -/

namespace Sys2Proof.Machine

/-! ## Swaps (R139, R140) -/

/-- R139, R140: MSR_SWAP.GO with its operands as written. -/
def execMsrSwapRequest (v : Word) (s : State) : Answer :=
  s.on fun d =>
    let w : Swap := { mask := bitsOf v 18 16, target := bitsOf v 22 20, fade := bitsOf v 12 0 }
    if v.getLsbD 31 = false then d
    else if w.fade < 16 ∨ 4096 < w.fade then d.set F.MSR_SWAP_STATUS_RESULT 1
    else if w.mask = 0 then d.set F.MSR_SWAP_STATUS_RESULT 2
    else if d.msrRuns = false then d.set F.MSR_SWAP_STATUS_RESULT 3
    else
      let d := d.set F.MSR_SWAP_STATUS_RESULT 0
      if d.msr.fade.isNone then { d with msr := { d.msr with fade := some w } }.showSwaps
      else
        let again := d.msr.pend.isSome
        let d := { d with msr := { d.msr with pend := some w } }.showSwaps
        d.raise (if again then F.MSR_INT_STATUS_SWAP_REPLACED else F.MSR_INT_STATUS_SWAP_PENDING)

/-- R139, R140: sample L of the fade passes. -/
def execMsrFadeEnd (bits : List Sdi) (s : State) : Answer :=
  s.on fun d =>
    let d := d.msrRun bits
    if d.fadeDone then d.endFade else d

/-- Unique coefficients of a stage; 0 for a reserved stage. -/
def coefCount : Nat → Nat
  | 0 => 32 | 1 => 48 | 2 => 32 | _ => 0

/-- R138: a write of MSR_COEF_DATA. AUTOINC moves the pointer after each access. -/
def execMsrCoefWrite (v : Word) (s : State) : Answer :=
  s.on fun d =>
    let st := d.get F.MSR_COEF_SEL_STAGE
    let bank := d.get F.MSR_COEF_SEL_BANK
    let i := d.get F.MSR_COEF_SEL_INDEX
    let banks := d.get F.MSR_STATUS_ACTIVE_BANK
    let next := (d.msr.fade.map fun w => w.banks banks).getD banks
    let fades := (d.msr.fade.map fun w => bitAt (w.parts banks) st).getD false
    let pends := (d.msr.pend.map fun w => bitAt (w.parts next) st).getD false
    let active := b2n (bitAt banks st) == bank
    let d' := if d.flag F.MSR_COEF_SEL_AUTOINC then d.set F.MSR_COEF_SEL_INDEX (i + 1) else d
    if coefCount st ≤ i ∨ fades ∨ pends ∨ active then d'.raise F.MSR_INT_STATUS_COEF_REFUSED
    else { d' with msr := { d'.msr with coefs := Maps.put d'.msr.coefs (128 * st + 64 * bank + i) (v.toNat % 2 ^ 24) } }

/-! ## Synchronising reset (R135) -/

/-- R135, R149: the filters of the channels that `p` picks are cleared, and settle: VALID falls with their next output sample. -/
def Dev.clearChans (d : Dev) (p : MsrChanRec → Bool) : Dev :=
  (d.msrChans.filter p).foldl (fun d c =>
    d.setChan c.channel ((d.chan c.channel).cleared (d.get F.MSR_SETTLE_K) (d.get F.MSR_SETTLE_K_Q) (d.get F.MSR_SETTLE_K_FAST))) d

/-- Each applied delay is P_n at once (R133). -/
def Dev.loadPhases (d : Dev) : Dev :=
  d.msr.target.foldl (fun d p => (d.set (F.MSR_CH_PHASE_STEPS.at p.1) p.2).set (F.MSR_CH_STATUS_SLEWING.at p.1) 0) d

/-- Put the written settings in force, or refuse them (R128). A new sample rate starts from its nominal period (R141). -/
def Dev.applyChain (d : Dev) : Dev :=
  let c := d.reg R.MSR_CHAIN.off
  let s := d.reg R.MSR_SHIFT.off
  if d.chainOk c s = false then d.raise F.MSR_INT_STATUS_CHAIN_REFUSED c.toNat s.toNat
  else
    let fresh := decide (c ≠ d.msr.chain)
    let d := { d with msr := { d.msr with chain := c, shift := s } }
    let d := (d.set F.MSR_DELAY_STEPS (chainDelay c)).set F.MSR_FAST_DELAY_STEPS (fastDelay c)
    let d := ((d.set F.MSR_SETTLE_K (settleK c)).set F.MSR_SETTLE_K_Q (settleQ c)).set F.MSR_SETTLE_K_FAST (settleFast c)
    if fresh then
      -- an input bit lasts 1,000,000 units of 2^-12 ns
      { (d.set F.MSR_DT_PERIOD (outBits c * 1000000)).set F.MSR_STATUS_PTP_TRUSTED 0 with
        msr := { d.msr with tick := 0, now := {}, before := {} } }
    else d

/-- R135, R152: a synchronising reset: a fade and a pending swap complete at once, delays load, filters clear, samples settle. -/
def Dev.syncReset (d : Dev) : Dev :=
  let d := d.endFade.endFade.applyChain.loadPhases
  let d := { d with msr := { d.msr with restart := false, settles := true, tick := if d.msr.restart then 0 else d.msr.tick } }
  let d := (d.set F.MSR_STATUS_SYNC_ARMED 0).set F.MSR_STATUS_SETTLE_LEFT (d.get F.MSR_SETTLE_K)
  d.clearChans fun _ => true

/-- Request a reset; from SYNC_SRC 0 it comes at once. -/
def Dev.requestSync (d : Dev) : Dev :=
  if d.msrRuns = false then d
  else if d.get F.MSR_CTRL_SYNC_SRC = 0 then d.syncReset
  else d.set F.MSR_STATUS_SYNC_ARMED 1

/-- R135: MSR_CTRL.SYNC. -/
def execMsrSyncRequest (s : State) : Answer := s.on Dev.requestSync

/-- R135: MSR_CTRL.ENABLE from 0 to 1. -/
def Dev.msrEnable (d : Dev) : Dev :=
  if d.flag F.MSR_CTRL_ENABLE then d
  else
    let d := d.set F.MSR_CTRL_ENABLE 1
    { d with msr := { d.msr with restart := true } }.requestSync

def execMsrEnable (s : State) : Answer := s.on Dev.msrEnable

/-- R135: the selected source arrives. -/
def execMsrSyncReset (bits : List Sdi) (s : State) : Answer :=
  s.on fun d =>
    let d := d.msrRun bits
    if d.flag F.MSR_STATUS_SYNC_ARMED ∧ d.msrRuns then d.syncReset else d

/-- R135, R149: settling ends: of every channel after a reset, or of one slot's after its record was accepted. The inputs up to here
decide: a channel shows VALID whose latest output sample is past the K forced ones, and SYNC_DONE came with it. -/
def execMsrSettleDone (slot : Option Nat) (bits : List Sdi) (s : State) : Answer :=
  s.on fun d =>
    let d := d.msrRun bits
    if d.msrRuns = false then d
    else
      let mine := d.msrChans.filter fun c => (slot.map fun n => c.module == n).getD true && (d.chan c.channel).valid
      mine.foldl (fun d c => d.set (F.MSR_CH_STATUS_VALID.at c.channel) 1) d

/-- R131: a stage of an enabled channel clamps its shifted result. -/
def execSaturation (channel stage : Nat) (s : State) : Answer :=
  s.on fun d => if channel < 32 ∧ stage < 5 ∧ d.msrRuns then d.clampAt channel stage else d

/-! ## Identity records (R146 to R149) -/

/-- An entry of an identity record. -/
def parseEntry (b : Bytes) : ModEntry :=
  { ratio := b.le 0 4, gain := signed 32 (b.le 4 4), phase := signed 32 (b.le 8 4), tempco := signed 32 (b.le 12 4)
    phaseTc := signed 16 (b.le 16 2), flags := b.u8 18 }

def parseModule (b : Bytes) : ModRec :=
  { serial := b.le 8 8, calTemp := signed 16 (b.le 0x10 2), tempOffset := signed 16 (b.le 0x12 2), tempSlope := signed 32 (b.le 0x14 4)
    entries := (List.range 8).map fun i => parseEntry (b.drop (0x20 + 24 * i)) }

/-- The first check of R147 that a record read fails, as MSR_MOD_CAUSE codes it; 0 for none. -/
def moduleCause (type : Nat) (entriesOk : ModRec → Bool) : Option Bytes → Nat
  | none => 1
  | some b =>
    if b.slice 0 4 ≠ [0x59#8, 0x49#8, 0x44#8, 0x4D#8] ∨ b.le 4 2 ≠ 1 then 2
    else if b.length < 256 ∨ (crc32 (b.take 252)).toNat ≠ b.le 252 4 then 3
    else if b.u8 6 ≠ type then 4
    else if entriesOk (parseModule b) = false then 5
    else 0

/-- Front-end entries agree with the channels that MEASUREMENT maps to the slot. -/
def Dev.frontOk (d : Dev) (slot : Nat) (m : ModRec) : Bool :=
  (d.trellis.msrChans.filter (·.module == slot)).all fun c =>
    match m.entries[c.moduleChannel]? with
    | none => false
    | some e =>
      bitAt e.flags 0 &&
        (c.role == 7 || (if c.role ≤ 2 then bitAt e.flags 1 else !bitAt e.flags 1))

/-- Line-driver entries stand for the phases that ZX_PHASES enables. -/
def Dev.lineOk (d : Dev) (slot : Nat) (m : ModRec) : Bool :=
  (List.range 3).all fun p => !d.zxEnabled slot p || ((m.entries[p]?).map fun e => bitAt e.flags 0).getD false

/-- Up to three attempts (R147): the accepted record, or the last attempt's cause. -/
def readAttempts (type : Nat) (entriesOk : ModRec → Bool) (tries : List (Option Bytes)) : Except Nat ModRec :=
  let three := tries.take 3
  match three.find? fun t => moduleCause type entriesOk t == 0 with
  | some (some b) => .ok (parseModule b)
  | _ => .error (moduleCause type entriesOk (three.getLast?.getD none))

def Dev.setModSlot (d : Dev) (n : Nat) (m : ModSlot) : Dev := { d with msr := { d.msr with slots := d.msr.slots.set n m } }

/-- MSR_MOD_STATUS. -/
def Dev.showModules (d : Dev) : Dev :=
  let bits (n : Nat) : Nat :=
    (b2n (bitAt d.msr.present n) + 2 * b2n (d.modSlot n).front.isSome + 4 * b2n (d.modSlot n).line.isSome) * 16 ^ n
  d.set F.MSR_MOD_STATUS_SLOT ((List.range 4).map bits).sum

/-- ΔT of a module in 10^-3 K × 2^30, from the mean of its temperature entry; 0 where no entry carries that flag (R148). -/
def ModRec.deltaT (m : ModRec) (mean : Int) : Int :=
  if m.entries.any fun e => bitAt e.flags 0 && bitAt e.flags 2 then (m.tempOffset - m.calTemp) * 10 * 2 ^ 30 + m.tempSlope * mean else 0

/-- g of a channel, in ppb (R148). -/
def gainOf (e : ModEntry) (dt trim : Int) : Int := e.gain + narrow (e.tempco * dt) (10 * 1000 * 2 ^ 30) + trim

/-- P_n of a channel before its clamp (R132, R148). -/
def phaseOf (e : ModEntry) (dt base trim : Int) : Int := base + e.phase + roundNear (e.phaseTc * dt) (2 ^ 30 * 3814697) + trim

/-- R132, R133, R148: gain and delay of the channels of a slot with an accepted record, at the module's ΔT; before the first
mean, 0. -/
def Dev.calibrate (d : Dev) (slot : Nat) (delta : ModRec → Int) : Dev :=
  match (d.modSlot slot).front with
  | none => d
  | some m =>
    let dt := delta m
    (d.msrChans.filter (·.module == slot)).foldl (fun d c =>
      match m.entries[c.moduleChannel]? with
      | none => d
      | some e =>
        let n := c.channel
        let g := gainOf e dt (signed 16 (d.get (F.MSR_CH_TRIM_GAIN_TRIM.at n)))
        let p := phaseOf e dt (d.get F.MSR_PHASE_BASE_BASE) (signed 16 (d.get (F.MSR_CH_TRIM_PHASE_TRIM.at n)))
        let q := clampInt 0 262143 p
        let clamped := decide (p ≠ q)
        let d := (d.setSat (F.MSR_CH_GAIN_G.at n) g).set (F.MSR_CH_STATUS_CLAMPED.at n) (b2n clamped)
        let d := { d with msr := { d.msr with target := Maps.put d.msr.target n q.toNat } }
        let d := d.set (F.MSR_CH_STATUS_SLEWING.at n) (b2n (d.get (F.MSR_CH_PHASE_STEPS.at n) != q.toNat))
        if clamped then d.raise F.MSR_INT_STATUS_PHASE_CLAMP n q.toNat else d) d

/-- P_n of every channel anew, after a write of a trim or of MSR_PHASE_BASE (R132, R133). -/
def Dev.recalibrate (d : Dev) : Dev :=
  (List.range 4).foldl (fun d n =>
    match Maps.get? n d.msr.means with
    | some m => d.calibrate n fun r => r.deltaT m
    | none => d.calibrate n fun _ => 0) d

/-- R148: the mean of a slot's temperature entry over the last whole second, where a mapped channel has valid samples of it. -/
def Dev.tempMean? (d : Dev) (slot : Nat) : Option Int :=
  (d.modSlot slot).front.bind fun m =>
    (d.msrChans.find? fun c =>
      c.module == slot && ((m.entries[c.moduleChannel]?).map fun e => bitAt e.flags 0 && bitAt e.flags 2).getD false).bind fun c =>
        match Maps.getD d.wholeSecond.sums c.channel (0, 0, 0) with
        | (_, _, 0) => none
        | (sum, _, n) => some (narrow sum n)

/-- R137, R148: once a second: gain and delay of every slot at its temperature, and the Hilbert magnitudes. -/
def execMsrCalUpdate (bits : List Sdi) (s : State) : Answer :=
  s.on fun d =>
    let d := d.msrRun bits
    if d.msrRuns = false then d
    else
      let keep (d : Dev) (n : Nat) : Dev := match d.tempMean? n with
        | some v => { d with msr := { d.msr with means := Maps.put d.msr.means n v } }
        | none => d
      ((List.range 4).foldl keep d).recalibrate.hilbertUpdate

/-- A record's failure: MSR_MOD_CAUSE and MODULE_INVALID (R147). -/
def Dev.moduleFails (d : Dev) (slot : Nat) (line : Bool) (cause : Nat) : Dev :=
  let v := cause + 128 * b2n line
  let x : Fld := { F.MSR_MOD_CAUSE_CAUSE with lo := 8 * slot, hi := 8 * slot + 7 }
  (d.set x v).raise F.MSR_INT_STATUS_MODULE_INVALID slot v

/-- A slot's channels have no record applied: they are invalid from the next output sample on (R149). -/
def Dev.invalidate (d : Dev) (slot : Nat) : Dev :=
  (d.msrChans.filter (·.module == slot)).foldl (fun d c => d.set (F.MSR_CH_STATUS_MODULE_OK.at c.channel) 0) d

/-- A record is accepted: MODULE_VALID, and what R149 logs of its serial. -/
def Dev.moduleValid (d : Dev) (slot : Nat) (last : Option Nat) (serial : Nat) : Dev :=
  let d := d.raise F.MSR_INT_STATUS_MODULE_VALID slot
  match last with
  | none => d
  | some old =>
    if old = serial then d.occur Ev.moduleReseated 7 slot
    else d.raise F.MSR_INT_STATUS_MODULE_REPLACED (serial % 2 ^ 32) (old % 2 ^ 32)

/-- R147 to R149: the front-end record of a slot. -/
def Dev.readFront (d : Dev) (slot : Nat) (tries : List (Option Bytes)) : Dev :=
  let m := d.modSlot slot
  match readAttempts 1 (d.frontOk slot) tries with
  | .error c => (((d.setModSlot slot { m with front := none }).invalidate slot).moduleFails slot false c).showModules
  | .ok r =>
    let d := (d.setModSlot slot { m with front := some r, lastFront := some r.serial }).showModules
    let d := (d.msrChans.filter (·.module == slot)).foldl (fun d c => d.set (F.MSR_CH_STATUS_MODULE_OK.at c.channel) 1) d
    let d := d.clearChans fun c => c.module == slot
    let d := { d with msr := { d.msr with means := Maps.del slot d.msr.means } }
    (d.calibrate slot fun _ => 0).moduleValid slot m.lastFront r.serial

/-- R125, R147: the line-driver record of a slot; slot n's driver serves feeder n. -/
def Dev.readLine (d : Dev) (slot : Nat) (tries : List (Option Bytes)) : Dev :=
  let m := d.modSlot slot
  match readAttempts 2 (d.lineOk slot) tries with
  | .error c => (((d.setModSlot slot { m with line := none }).moduleFails slot true c).showModules).moduleChange slot false
  | .ok r =>
    let d := (d.setModSlot slot { m with line := some r, lastLine := some r.serial }).showModules
    (d.moduleValid slot m.lastLine r.serial).moduleChange slot true

/-- R147: both records of a slot are read. -/
def Dev.readModule (d : Dev) (slot : Nat) (front line : List (Option Bytes)) : Dev := (d.readFront slot front).readLine slot line

/-- R147: the attempts on each of a slot's two identity memories; MEASUREMENT says what they must hold. -/
def execModuleRecordRead (slot : Nat) (front line : List (Option Bytes)) (s : State) : Answer :=
  s.on fun d => if d.trellis.msrChans.isEmpty ∨ 4 ≤ slot then d else d.readModule slot front line

/-- R147: MOD_PRESENT_N falls; its records are read 100 ms later. -/
def execModPresentFall (slot : Nat) (s : State) : Answer :=
  s.on fun d => if 4 ≤ slot then d else { d with msr := { d.msr with present := setBitTo d.msr.present slot true } }.showModules

/-- R149, R125: MOD_PRESENT_N rises: the slot's modules are gone. -/
def execModPresentRise (slot : Nat) (s : State) : Answer :=
  s.on fun d =>
    if 4 ≤ slot then d
    else
      let m := d.modSlot slot
      let d := { d with msr := { d.msr with present := setBitTo d.msr.present slot false } }
      let d := ((d.setModSlot slot { m with front := none, line := none }).invalidate slot).showModules
      let d := d.raise F.MSR_INT_STATUS_MODULE_REMOVED slot
      d.moduleChange slot false

/-! ## Δt, energies and intervals (R141 to R144) -/

/-- R141: a channel's RMS over a second; a second without valid samples, or a channel without an entry, states none. -/
def Dev.secondRms (d : Dev) (a : SecondAcc) (c : MsrChanRec) : Dev :=
  match Maps.getD a.sums c.channel (0, 0, 0), d.chanEntry? c with
  | (_, squares, n + 1), some e => d.setSat (F.MSR_CH_RMS_RMS.at c.channel) (rmsOf squares (n + 1) e.ratio)
  | _, _ =>
    let (v, d) := d.fresh 32
    d.set (F.MSR_CH_RMS_RMS.at c.channel) v.toNat

/-- R141: the sample period of the last whole second against the time-stamp unit, in 2^-12 ns, and each channel's RMS over it. -/
def execMsrDtMeasure (bits : List Sdi) (s : State) : Answer :=
  s.on fun d =>
    let d := d.msrRun bits
    let a := d.wholeSecond
    if d.msrRuns = false ∨ a.samples < 2 then d
    else
      let d := d.msrChans.foldl (fun d c => d.secondRms a c) d
      if d.servo = Sv.locked then
        (d.setSat F.MSR_DT_PERIOD (narrow (((a.last - a.first) * 4096 : Nat) : Int) ((a.samples - 1 : Nat) : Int))).set F.MSR_STATUS_PTP_TRUSTED 1
      else d.set F.MSR_STATUS_PTP_TRUSTED 0

/-- R143: MSR_FDR_LATCH: the sixteen energies in whole µWh in one cycle. -/
def execMsrEnergyLatch (feeder : Nat) (bits : List Sdi) (s : State) : Answer :=
  s.on fun d =>
    let d := d.msrRun bits
    if 4 ≤ feeder then d
    else
      let e := (d.msr.feeders.getD feeder {}).energy
      (List.range 16).foldl (fun d n =>
        let v := pattern 64 (e.getD n 0 / 2 ^ 32)
        (d.setReg (R.MSR_FDR_E_n_LO.at2 feeder n) (BitVec.ofNat 32 v)).setReg (R.MSR_FDR_E_n_HI.at2 feeder n) (BitVec.ofNat 32 (v / 2 ^ 32))) d

/-- R254: the residual current of a feeder's interval against its limit, in units of 0.1 A. The flag says the alarm begins. -/
def FeederAcc.residual (z : FeederAcc) (rms limit n : Nat) : FeederAcc × Bool :=
  if 100 * limit < rms then
    let z := { z with above := z.above + 1, below := 0 }
    if n ≤ z.above ∧ z.neutral = false then ({ z with neutral := true }, true) else (z, false)
  else
    let z := { z with below := z.below + 1, above := 0 }
    (if n ≤ z.below then { z with neutral := false } else z, false)

/-- The zone a feeder checks (R144, R241). -/
def Dev.topZone? (d : Dev) (f : Nat) : Option ZoneRec :=
  (d.feederRec? f).bind fun r => if r.topZone = 0xFFFFFFFF then none else d.trellis.zones.find? (·.zone == r.topZone)

def Dev.setZone (d : Dev) (z : Nat) (x : ZoneRt) : Dev :=
  { d with dur := { d.dur with bal := { d.dur.bal with zones := Maps.put d.dur.bal.zones z x } } }

/-- R254: the zone's NEUTRAL flag: set while a four-wire feeder's alarm stands, cleared once each has been below for `n` intervals. -/
def Dev.zoneNeutral (d : Dev) (z n : Nat) (was : Bool) : Bool :=
  let mine := (List.range 4).filter fun f =>
    (d.feederRec? f).any fun (r : MsrFeederRec) => r.topZone == z && r.wiring != 1
  let acc (f : Nat) : FeederAcc := d.msr.feeders.getD f {}
  (mine.any fun f => (acc f).neutral) || (was && !(mine.all fun f => decide (n ≤ (acc f).below)))

/-- R254: an interval's residual current: the feeder's run, and its zone's. -/
def Dev.handResidual (d : Dev) (f : Nat) (z : ZoneRec) (rmsR : Nat) : Dev :=
  let n := max 1 (d.get F.BAL_NEUTRAL_INTERVALS)
  let (a, begins) := (d.msr.feeders.getD f {}).residual rmsR (d.get F.BAL_NEUTRAL_RESID) n
  let d := { d with msr := { d.msr with feeders := d.msr.feeders.set f a } }
  let rt := Maps.getD d.dur.bal.zones z.zone ({} : ZoneRt)
  let d := d.setZone z.zone { rt with neutral := d.zoneNeutral z.zone n rt.neutral }
  if begins then (d.count R.BAL_CNT_n 7).raise F.BAL_INT_STATUS_NEUTRAL f rmsR else d

/-- R241, R254: an interval's check energy and residual current at the zone. -/
def Dev.handCheck (d : Dev) (f b : Nat) (k : FeederInt) (z : ZoneRec) : Dev :=
  let rt := Maps.getD d.dur.bal.zones z.zone ({} : ZoneRt)
  let parts := k.energy.getD 12 0 - k.energy.getD 13 0 + rt.carry
  let unit : Int := 1000 * 2 ^ 32
  let rmsR := rmsOf k.squaresR (max 1 k.samples) 1
  let c : CheckEnergy :=
    { b := b, c := parts / unit, invalid := k.invalid, saturated := k.saturated, untrusted := k.untrusted
      rmsN := rmsOf k.squaresN (max 1 k.samples) 1, rmsResid := rmsR }
  let feeds := z.checkKind == 0 && z.checkId == f
  let rt : ZoneRt := if feeds then { rt with carry := parts % unit, checks := rt.checks ++ [c] } else rt
  let d := d.setZone z.zone rt
  if ((d.feederRec? f).map (·.wiring)).getD 0 = 1 then d else d.handResidual f z rmsR

/-- R144: the interval that ended at b is handed over at b plus the chain's delay. -/
def execMsrIntervalHandover (feeder : Nat) (bits : List Sdi) (s : State) : Answer :=
  s.on fun d =>
    let d := d.msrRun bits
    if d.msrRuns = false ∨ 4 ≤ feeder then d
    else
      let b := d.balNow - 1
      let a := (d.msr.feeders.getD feeder {}).closeUpTo b
      let k := Maps.getD a.ints b {}
      let d := { d with msr := { d.msr with feeders := d.msr.feeders.set feeder { a with ints := a.ints.filter fun p => decide (b < p.1) } } }
      let d := if 0 < k.invalid then d.setW1c (F.MSR_FDR_FLAGS_INCOMPLETE.at feeder) 1 else d
      let d := if k.saturated then d.setW1c (F.MSR_FDR_FLAGS_SATURATED.at feeder) 1 else d
      let d := if k.untrusted then d.setW1c (F.MSR_FDR_FLAGS_TIME_UNTRUSTED.at feeder) 1 else d
      match d.topZone? feeder with
      | some z => d.handCheck feeder b k z
      | none => d

end Sys2Proof.Machine
end

