-- ==== Sys2Proof/Machine/Rings.lean ====
section
/-! DEFINITION. The ring commands (R431 to R442). -/

namespace Sys2Proof.Machine

/-- R437: discard until FLUSH, with OVERRUN. -/
def Dev.overrun (d : Dev) (n : Nat) : Dev :=
  let r := d.ring n
  ((d.setRing n { r with discarding := true, partial_ := [] }).set (F.RNG_n_STATUS_OVERRUN.at n) 1).raise
    F.RNG_INT_STATUS_OVERRUN 0 n

/-- R437: a word written to a host-to-device ring. A length word out of range, or of another content, discards it and
what follows and logs CMD_REJECTED with TAG 0 and BAD_PACKET. -/
def execRingDataWrite (ring : Nat) (v : Word) (s : State) : Answer :=
  s.on fun d =>
    let r := d.ring ring
    if (d.ringRec ring).direction ≠ 1 ∨ r.discarding then d
    else
      let isLen := r.partial_ = []
      let len := ((r.partial_.headD v).toNat) % 8192
      if isLen ∧ (len < 2 ∨ 4608 < len ∨ v.toNat / 2 ^ 24 ≠ (d.ringRec ring).content) then
        (d.overrun ring).raise F.RNG_INT_STATUS_CMD_REJECTED 0 1
      else if d.face.ringFree ring = 0 then d.overrun ring
      else
        let wr := d.wr ring
        let done := r.partial_ ++ [v]
        let full := decide (done.length = len)
        let r := { r with
          mem := putWords r.mem wr [v]
          partial_ := if full then [] else done
          ready := if full then r.ready ++ [done] else r.ready }
        let d := (d.setRing ring r).set (F.RNG_n_PTR_WR.at ring) ((wr + 1) % 32768)
        if full ∧ d.flag (F.RNG_n_STATUS_FLUSH_PENDING.at ring) then d.flushNow ring else d

/-- R436: a read of RNG_n_DATA: the word at RD, which advances, or the idle word of an empty ring. A host-to-device
ring's DATA reads zero. -/
def execRingDataRead (ring : Nat) (s : State) : Answer :=
  s.on fun d =>
    if d.toHost ring = false ∨ d.rd ring = d.wr ring then { d with lastRead := 0 }
    else
      let w := (d.ring ring).word (d.rd ring)
      ({ d with lastRead := w }.set (F.RNG_n_PTR_RD.at ring) ((d.rd ring + 1) % 32768)).afterRead ring

/-- R438: FLUSH, at the next packet boundary; a drain transfer in progress completes first (R462). -/
def execRingFlush (ring : Nat) (s : State) : Answer :=
  s.on fun d =>
    let wait :=
      if (d.ringRec ring).direction = 1 then decide ((d.ring ring).partial_ ≠ [])
      else d.atBoundary ring == false || (d.draining ring).isSome
    if wait then d.set (F.RNG_n_STATUS_FLUSH_PENDING.at ring) 1 else (d.flushNow ring).afterRead ring

/-- R439: MARK sets the mark to the start of the packet that contains RD; where that start is gone, or the ring is
empty, to the next packet boundary (R462). -/
def execRingMark (ring : Nat) (s : State) : Answer :=
  s.on fun d =>
    if d.toHost ring = false then d
    else
      let p :=
        if d.rd ring = d.wr ring then d.wr ring
        else match (d.ring ring).packetAt (d.rd ring) with
          | some p => p.start
          | none => d.get (F.RNG_n_OLDEST_POINTER.at ring)
      (d.set (F.RNG_n_MARK_POINTER.at ring) p).set (F.RNG_n_STATUS_MARK_VALID.at ring) 1

/-- R439: REWIND; during a drain transfer it takes effect when that packet's transfer completes. -/
def execRingRewind (ring : Nat) (s : State) : Answer :=
  s.on fun d =>
    if d.toHost ring = false then d
    else if (d.draining ring).isSome then d.setRing ring { d.ring ring with rewindPending := true }
    else (d.rewindNow ring).drainCheck ring

/-- R441: the completer has acknowledged the transfer of the packet at RD: its bytes are in the host buffer, RD and HWR
pass it, the writeback goes out, and its words are unsignalled until the ring's message (R442). -/
def execDrainTransferDone (ring : Nat) (s : State) : Answer :=
  s.on fun d =>
    match d.draining ring with
    | none => d.drainCheck ring
    | some p =>
      let size := 2 ^ d.get (F.RNG_n_HSIZE_LOG2.at ring)
      let hwr := d.get (F.RNG_n_HWR_OFFSET.at ring)
      let bytes := wordsToBytes ((d.ring ring).words p.start p.len)
      let d := d.hostWrite ring hwr bytes
      let d := d.set (F.RNG_n_PTR_RD.at ring) ((p.start + p.len) % 32768)
      let hwr := (hwr + 4 * p.len) % (2 * size)
      let d := d.set (F.RNG_n_HWR_OFFSET.at ring) hwr
      let wb := (d.reg (R.RNG_n_WB_LO.at ring)).toNat + 2 ^ 32 * (d.reg (R.RNG_n_WB_HI.at ring)).toNat
      let d := d.emit (.dma wb (leBytes 4 hwr))
      let d := { d with face := d.face.signal d.env ring p.len }
      let d := if d.flag (F.RNG_n_STATUS_FLUSH_PENDING.at ring) then d.flushNow ring else d
      let d := if (d.ring ring).rewindPending then d.rewindNow ring else d
      d.afterRead ring

/-- R441: a write of HRD within the filled span frees host buffer space; any other is ignored and
counted; no register shows the count (log entry 15). -/
def execRingHrdWrite (ring : Nat) (v : Word) (s : State) : Answer :=
  s.on fun d =>
    let size := 2 ^ d.get (F.RNG_n_HSIZE_LOG2.at ring)
    let hwr := d.get (F.RNG_n_HWR_OFFSET.at ring)
    let hrd := d.get (F.RNG_n_HRD_OFFSET.at ring)
    let x := v.toNat % 2 ^ 27
    let dist (a : Nat) : Nat := (hwr + 2 * size - a) % (2 * size)
    if x < 2 * size ∧ dist x ≤ dist hrd then (d.set (F.RNG_n_HRD_OFFSET.at ring) x).drainCheck ring
    else d.setRing ring { d.ring ring with ignored := satNat 32 ((d.ring ring).ignored + 1) }

/-- Unmask a vector: one message where its pending bit is set (R433). -/
def Dev.unmask (d : Dev) (v : Nat) : Dev :=
  let m := Maps.getD d.face.hst.msix v {}
  let f := { d.face with hst := { d.face.hst with msix := Maps.put d.face.hst.msix v { m with masked := false, pend := false } } }
  { d with face := if m.pend then f.message d.env v else f }

/-- R433: MSIX_UNMASK. -/
def execMsixUnmask (vector : Nat) (s : State) : Answer := s.on fun d => d.unmask vector

/-- R442: words have stayed unsignalled for COALESCE µs. Without effect before. -/
def execRingCoalesceTimeout (ring : Nat) (s : State) : Answer :=
  s.on fun d =>
    let r := d.ring ring
    if r.unsignalled = 0 ∨ 1000 * d.cycles < 1000 * r.unsignalledAt + msCycles * d.get (F.RNG_n_IRQ_COALESCE.at ring) then d
    else { d with face := d.face.message d.env (d.ringRec ring).vector }

/-- R431: a Function Level Reset, or an entry into D3hot. -/
def execFunctionLevelReset (d3hot : Bool) (s : State) : Answer :=
  s.on fun d =>
    let d := d.clearHost
    { d with face := { d.face with hst := { d.face.hst with d3hot := d3hot } } }

/-- R471: PERST_N low resets what R431 names and the link; meter service goes on. -/
def execPerstN (low : Bool) (s : State) : Answer :=
  s.on fun d =>
    let d := { d with glb := { d.glb with perstLow := low } }
    if low then
      let d := (d.clearHost).set F.GLB_CLOCK_PCIE_LOCK 0
      { d with face := { d.face with hst := { d.face.hst with d3hot := false } } }
    else { d with glb := { d.glb with perstRise := d.cycles } }.set F.GLB_CLOCK_PCIE_LOCK 1

end Sys2Proof.Machine
end

