-- ==== Sys2Proof/Machine/Downlink.lean ====
section
/-! DEFINITION. The instants of receive windows and of planned transmissions (R79, R84, R99): what is due becomes a work item of
its meter (R196), or goes at once. -/

namespace Sys2Proof.Machine

/-- R84, R174, R267, R302: RX1 or RX2 less L_h is reached, for the uplink of `addr` that ended at `endNs`. The accept
acknowledgement goes if the commit is complete and it is still due; else a waiting downlink takes the window. A commit or notice of
that very instant is in time (R100, R182), so that an uplink without one is only noted; before the instant nothing happens, and
after it the window has passed (R79; log entry 92). -/
def execAcceptWindowCheck (addr endNs window : Nat) (s : State) : Answer :=
  s.on fun d =>
    match d.window? addr endNs with
    | none => d
    | some w =>
      let ack := w.committed && !w.ordered
      let due := d.windowDue w window
      if d.now < due then d
      else if due < d.now then d.windowPassed w window
      else if w.committed = false then d.putWindow { w with checked := window }
      else
        match w.notice, w.meter with
        | none, some m => if ack || d.pendingFor m then d.startDown m (.window addr endNs window ack) else d.windowPassed w window
        | _, _ => d.useWindow w window ack

/-- R79, R99: the send time of a planned order or of a wake window. -/
def execTxAtSend (at_ : SendAt) (s : State) : Answer :=
  s.on fun d =>
    match at_ with
    | .order head txId =>
      match d.order? head txId with
      | some o =>
        if o.sent then d
        else if (d.headRt head).orderable then d.sendOrder o
        else d.dropOrder head txId
      | none => d
    | .wake meter k => if d.serves && d.pendingFor meter then d.startDown meter (.wake k) else d

end Sys2Proof.Machine
end

