-- ==== Sys2Proof/Machine/Uplink.lean ====
section
/-! DEFINITION. What heads report (R65, R86, R93, R94) and how an order ends (R77, R97, R174, R266, R302): reception, confirms
and their deadlines. -/

namespace Sys2Proof.Machine

/-! ## Reception -/

/-- R184, R86, R93: a head heard a meter at `rssi` dBm. The three entries keep the best value of the last 30 days; a new head
takes a free entry or the place of a weaker alternate, and an alternate 6 dB above the home head becomes the home head. -/
def Dev.heardBy (d : Dev) (meter head : Nat) (rssi : Int) : Dev :=
  match Maps.get? meter d.dur.ctxs with
  | none => d
  | some c =>
    let today := d.dayNow
    let now : HeadRef := ⟨head, rssi, today⟩
    let better (x : HeadRef) : Bool := decide (x.rssi ≤ rssi) || !x.recent today
    let weakest := (c.heads.drop 1).foldl
      (fun (w : Option HeadRef) x =>
        match w with
        | some y => if x.rssi < y.rssi then some x else w
        | none => some x) none
    let heads :=
      if c.heads.any (·.head == head) then c.heads.map fun x => if x.head = head ∧ better x then now else x
      else if c.heads.length < 3 then c.heads ++ [now]
      else
        match weakest with
        | some w => if better w then c.heads.map fun x => if x.head = w.head then now else x else c.heads
        | none => c.heads
    let put (x : Ctx) : Ctx := { x with heads := heads }
    let d := { d with dur := { d.dur with ctxs := Maps.modify d.dur.ctxs meter put } }
    match heads.head?, heads.find? (·.head == head) with
    | some home, some x =>
      if c.heads = [] ∨ (x.head ≠ home.head ∧ home.rssi + 6 ≤ x.rssi) then d.setHome meter x else d
    | _, _ => d

/-- The rate of an RX_REPORT's MODE. -/
def modeRate (mode : Nat) : Nat := if mode < 3 then mode else 1

/-- R86: a later copy moves the acknowledgement of the frame to its head where it is 6 dB stronger and the TX_AT has not
gone. -/
def Dev.moveWindow (d : Dev) (x : Heard) (head : Nat) (rssi : Int) : Dev :=
  match d.windowOf? x.meter x.counter with
  | some w => if x.rssi + 6 ≤ rssi ∧ w.ordered = false then d.putWindow { w with head := head } else d
  | none => d

/-- R65, R86, R94, R153: an RX_REPORT: accounting of the plain acknowledgement, RSSI history, copies, the receive windows and
ingress staging. A frame whose form the device does not use is not taken (R69). -/
def execRxReport (port addr mac : Nat) (dgram : Bytes) (s : State) : Answer :=
  s.on fun d => d.hlpIn port addr mac dgram 2 fun head b d =>
    let len := b.be 16 2
    let mode := b.u8 11
    let bus := decide (16 ≤ mode)
    if b.length ≠ 18 + len ∨ 1024 < len ∨ (2 < mode ∧ mode ≠ 16 ∧ mode ≠ 17) then d
    else
      let sfd := 1000000000 * b.be 0 6 + b.be 6 4
      let rate := modeRate mode
      let rssi := signed 8 (b.u8 12)
      let end_ := sfd + octetsNs rate (2 + len + 4)
      let d :=
        if bitAt (b.u8 14) 0 then d.account head (b.u8 10) ((end_ + 1000000) / 1000000) (granules (airtimeNs rate 7)) else d
      match (parseFrame bus (b.drop 18)).map d.readIes with
      | none => d
      | some f =>
        let meter := d.ctxOf? f.address f.mbus
        let d := match meter with
          | some m => d.heardBy m head rssi
          | none => d
        let same (x : Heard) : Bool :=
          x.meter == f.address && x.counter == f.counter && x.mic == f.mic && decide (sfd ≤ x.sfd + 5000000) && decide (x.sfd ≤ sfd + 5000000)
        match d.fhm.heard.find? same with
        | some x => (d.count R.FHM_CNT_n 7).moveWindow x head rssi
        | none =>
          let fresh := d.fhm.heard.filter fun x => decide (sfd ≤ x.sfd + 1000000000)
          let this : Heard := ⟨f.address, f.counter, f.mic, sfd, head, rssi⟩
          let live := d.fhm.windows.filter fun w => decide (d.now ≤ w.endNs + 4000000000)
          let d := { d with fhm := { d.fhm with heard := fresh ++ [this], windows := live } }
          let d := if bus then d else d.markSlot head (sfd - octetsNs rate 10)
          let d :=
            if bus then d
            else d.putWindow { addr := f.address, meter := meter, head := head, endNs := end_, counter := f.counter }
          d.stage { frame := f, source := 0, via := head, rxSec := sfd / 1000000000, rxNs := sfd % 1000000000, endNs := end_, meter := 0, slots := 0 }

/-! ## How an order ends -/

/-- Outcomes beside the STATUS codes of TX_CONFIRM: no confirm came, and CCA_BUSY. -/
def Tx.lost : Nat := 0xFE
def Tx.busy : Nat := 0xFF

/-- R302, R307, R308: a key transfer that was acknowledged; a broadcast key of a place or generation that the meter is due no more
counts for nothing. -/
def Dev.keyDelivered (d : Dev) (meter : Nat) : KeyXfer → Dev
  | .set =>
    let k := d.meterKeys meter
    let n := k.tries + 1
    let d := { d with dur := { d.dur with keys := Maps.put d.dur.keys meter { k with tries := n } } }
    if n = d.get F.KEY_BCAST_TRIES then (d.count R.KEY_CNT_n 5).raise F.KEY_INT_STATUS_DELIVERY_FAILED meter else d
  | .broadcast t g =>
    if (Maps.get? meter d.dur.ctxs).bind Ctx.target = some t ∧ (d.deliverGen t).1 = g then
      d.journal (.keys meter { d.meterKeys meter with bcOk := true })
    else d

/-- R97: the sync instant and SYNC_ID of an acknowledged accept acknowledgement. -/
def Dev.synced (d : Dev) (meter : Nat) (o : Order) : Dev :=
  let put (c : Ctx) : Ctx := { c with syncSec := o.sfdEnd / 1000000000, syncNs := o.sfdEnd % 1000000000, syncId := o.syncId }
  { d with dur := { d.dur with ctxs := Maps.modify d.dur.ctxs meter put } }

/-- A downlink to a meter was acknowledged. -/
def Dev.downlinkSent (d : Dev) (meter id : Nat) : DlKind → Dev
  | .request _ => { d with fhm := { d.fhm with downlinks := d.fhm.downlinks.filter (·.id ≠ id) } }
  | .abort _ => { d with fhm := { d.fhm with downlinks := d.fhm.downlinks.filter (·.id ≠ id) } }
  | .offer slot =>
    let d := { d with dst := { d.dst with reoffer := d.dst.reoffer.filter (· ≠ 1048576 * slot + meter) } }
    match d.dur.campMember? slot meter with
    | some m => if m.state = Ms.waiting then d.setMember slot meter { m with state := Ms.offered } 0 else d
    | none => d
  | _ => d

/-- Whether a downlink's kind is numbered in the queue. -/
def DlKind.queued : DlKind → Bool
  | .request _ => true
  | .abort _ => true
  | _ => false

/-- What the end of an order leaves: `st` is a TX_CONFIRM status, no confirm, or CCA_BUSY. The order itself is gone. A frame that
is to be ordered again goes out before its purpose's limit: a wake window's end, a campaign's abort until its next broadcast, and
for another pair's frame a wake window after its instant (R77; log entry 78). -/
def Dev.orderOutcome (d : Dev) (o : Order) (st : Nat) : Dev :=
  let d := match o.keyKind, o.psdu.meter with
    | some k, some m => if st = 0 then d.keyDelivered m k else d
    | _, _ => d
  let again := decide (o.retries < d.get F.FHM_CSMA_MAX_RETRIES) && (st == 2 || st == Tx.busy)
  let wake := 1000000 * d.get F.FHM_WAKE_WINDOW
  match o.purpose with
  | .accept addr endNs w =>
    let d := match o.psdu.meter with
      | some m => if st = 0 then d.synced m o else d
      | none => d
    let d := if st = 2 ∧ w ≠ 1 then d.count R.FHM_CNT_n 5 else d
    match d.window? addr endNs with
    | none => d
    | some win => if st ≤ 1 then d.putWindow { win with acked := true } else if win.acked then d else d.putWindow { win with ordered := false }
  | .downlink meter kind id w =>
    if st = 0 then d.downlinkSent meter id kind
    else
      let (ordered, d) := if w = 0 ∧ o.head ≠ foreignHead ∧ again then d.orderAgain o (o.sfdEnd + wake) else (false, d)
      if ordered then d
      else
        let d := if kind.queued then d.markDownlink id false else d
        if st = 2 ∧ w ≠ 1 then d.count R.FHM_CNT_n 5 else d
  | .block slot blk => if st ≤ 2 ∨ st = Tx.lost then d else d.blockEnd o slot blk (decide (st = Tx.busy))
  | .beacon => d.missBeacon o.head
  | .abort _ => if again then (d.orderAgain o (d.now + 1000000000 * d.get F.DST_TIMING_RENDEZVOUS)).2 else d
  | .partner pos id =>
    let (ordered, d) := if again ∧ o.sfdEnd ≠ 0 then d.orderAgain o (o.sfdEnd + wake) else (false, d)
    if ordered then d else (d.sendTo pos (.downConfirm id st) true).getD d

/-- CSMA attempts of a cell in the current second, and those that found the channel busy (R87). -/
def Dev.csmaSeen (d : Dev) (o : Order) (tried busy : Nat) : Dev :=
  if bitAt o.flags 0 then
    let c := d.cell o.head
    d.setCell o.head { c with attempts := c.attempts + tried, busy := c.busy + busy }
  else d

/-- R77, R79, R80, R92, R100: a TX_CONFIRM. One that comes after its order's deadline counts as none, and a beacon that yields one is
missed. -/
def execTxConfirm (port addr mac : Nat) (dgram : Bytes) (s : State) : Answer :=
  s.on fun d => d.hlpIn port addr mac dgram 4 fun head b d =>
    match d.order? head (b.be 0 4) with
    | none => d
    | some o =>
      let deadline := d.confirmDeadline o
      let st := if deadline < d.now then Tx.lost else b.u8 4
      let used := b.u8 5 - b.u8 6
      let arrival := 1000000000 * b.be 8 6 + b.be 14 4
      let h := d.headRt head
      let delays := ((arrival : Int) - o.sentAt) :: h.delays
      let h := { h with delays := delays.take 65536, confirms := h.confirms + 1 }
      let d := (d.setHead head h).judgeHead head
      let d := if st = 3 then d.count R.FHM_CNT_n 3 else d
      let d := if st ≤ 2 then d.csmaSeen o used (used - 1) else d
      (d.dropOrder head o.txId).orderOutcome o st

/-- R77, R100: a CCA_BUSY: every attempt found the channel busy. One that comes after its order's deadline counts as none. -/
def execCcaBusy (port addr mac : Nat) (dgram : Bytes) (s : State) : Answer :=
  s.on fun d => d.hlpIn port addr mac dgram 3 fun head b d =>
    match d.order? head (b.be 0 4) with
    | none => d
    | some o =>
      let st := if d.confirmDeadline o < d.now then Tx.lost else Tx.busy
      let d := (d.count R.FHM_CNT_n 4).csmaSeen o (b.u8 4) (b.u8 4)
      (d.dropOrder head o.txId).orderOutcome o st

/-- R75, R100: the confirm deadline of an order passes without a confirm. -/
def execTxConfirmDeadline (head txId : Nat) (s : State) : Answer :=
  s.on fun d =>
    match d.order? head txId with
    | some o =>
      if o.sent ∧ o.purpose ≠ .beacon ∧ d.confirmDeadline o < d.now then (d.dropOrder head txId).orderOutcome o Tx.lost else d
    | none => d

end Sys2Proof.Machine
end

