-- ==== Sys2Proof/Machine/Zxp.lean ====
section
/-! DEFINITION. ZX-PLC (04): crossing tracking and the mains cycle number (R102 to R107), rounds and slots (R108, R109),
outbound frames and pulses (R110, R111, R117, R120), inbound blocks (R114 to R119), load steps (R121) and driver faults
(R112, R124). -/

namespace Sys2Proof.Machine

/-! ## Tracking -/

/-- A phase's tracking state. ZX-PLC is off while it is UNLOCKED or ACQUIRING, in a span of cycles whose symbols are erasures
(R104). -/
def Dev.setTrack (d : Dev) (f p v : Nat) : Dev :=
  let d := if p = 0 ∧ v ≠ Zt.locked then d.distrust f else d
  let x := d.zxPhase f p
  let c := (d.zxFeeder f).c
  let d := match x.off with
    | some a => if v = Zt.locked then d.setZxPhase f p { x with off := none, gaps := x.gaps ++ [(a, c)] } else d
    | none => if v = Zt.unlocked ∨ v = Zt.acquiring then d.setZxPhase f p { x with off := some c } else d
  d.set (F.ZXP_STATUS_TRACK.at f) (d.get (F.ZXP_STATUS_TRACK.at f) - d.track f p * 4 ^ p + v * 4 ^ p)

def ZxPhase.dir (x : ZxPhase) (rising : Bool) : ZxDir := if rising then x.rise else x.fall

def ZxPhase.setDir (x : ZxPhase) (rising : Bool) (y : ZxDir) : ZxPhase := if rising then { x with rise := y } else { x with fall := y }

/-- R103: the predicted instant of the next crossing of a direction. -/
def ZxPhase.predict (x : ZxPhase) (rising : Bool) : Option Nat :=
  let y := x.dir rising
  match y.last, x.intervals with
  | some t, i :: is => some (t + (y.subs + 1) * (i :: is).sum / (is.length + 1))
  | _, _ => none

/-- R103: a detected instant lies within ±100 µs of a prediction. -/
def nearby (at_ pred : Nat) : Bool := decide (at_ ≤ pred + 100000) && decide (pred ≤ at_ + 100000)

/-- The crossing time and cycle registers, where ZXP_CYCLE has not latched them. -/
def Dev.showCycle (d : Dev) (f : Nat) : Dev :=
  let x := d.zxFeeder f
  let d := d.set (F.ZXP_CYCLE_CYCLE.at f) x.c
  match x.latch, x.times with
  | none, (_, t) :: _ =>
    let d := (d.set (F.ZXP_CYCLE_HI_CYCLE_HI.at f) (x.c / 2 ^ 32)).set (F.ZXP_ZC_NS_TIME.at f) (t % 1000000000)
    let s := t / 1000000000
    (d.set (F.ZXP_ZC_SEC_LO_TIME.at f) s).set (F.ZXP_ZC_SEC_HI_TIME.at f) (s / 2 ^ 32 % 65536)
  | _, _ => d

/-- V1's rising crossing at an instant: C rises by 1, and goes to the journal every 65,536 cycles (R105, R106). -/
def Dev.v1Rise (d : Dev) (f at_ : Nat) : Dev :=
  let x := d.zxFeeder f
  if x.started = false then d
  else
    let c := (x.c + 1) % 2 ^ 48
    let d := (d.setZxFeeder f { x with c := c, times := ((c, at_) :: x.times).take (2 ^ 20) }).showCycle f
    if c % 65536 = 0 ∧ d.serves then d.journal (.cycle f c) else d

/-- R106: C at the first lock of V1. -/
def Dev.firstLock (d : Dev) (f at_ : Nat) (rising : Bool) : Dev :=
  let x := d.zxFeeder f
  if x.started then d
  else
    let t := at_ * d.mainsHz f / 1000000000
    let c := match Maps.get? f d.dur.zxC with
      | some j => max t (j + 1)
      | none => t
    (d.setZxFeeder f { x with c := c, started := true, times := if rising then [(c, at_)] else [] }).showCycle f

/-- The phase's half-cycle that a crossing of a direction begins, as 2 × cycle + (1: falling). -/
def ZxPhase.half (x : ZxPhase) (rising : Bool) : Nat := 2 * x.cycle + b2n (!rising)

/-- V1's rising crossing counts C (R105). -/
def Dev.countCrossing (d : Dev) (f p : Nat) (rising : Bool) (at_ : Nat) : Dev := if rising ∧ p = 0 then d.v1Rise f at_ else d

/-- A crossing's instant is used: the phase's own cycle begins at its rising crossing (R105), and its window opens (R114). -/
def Dev.openCycle (d : Dev) (f p : Nat) (rising : Bool) (at_ : Nat) : Dev :=
  let x := d.zxPhase f p
  let x := if rising then { x with cycle := (d.zxFeeder f).c, edges := (at_ :: x.edges).take 8 } else x
  d.setZxPhase f p { x with window := some (rising, at_, x.half rising) }

/-- A crossing's instant is used, and V1 counts C. -/
def Dev.useCrossing (d : Dev) (f p : Nat) (rising : Bool) (at_ : Nat) : Dev := (d.countCrossing f p rising at_).openCycle f p rising at_

/-- The period on which C free-runs while V1 acquires anew: the last mean, or the nominal one, ns. -/
def Dev.freePeriod (d : Dev) (f : Nat) : Nat :=
  let p := d.get (F.ZXP_PERIOD_PERIOD.at f) / 16
  if p = 0 then 1000000000 / d.mainsHz f else p

/-- V1's rising crossing is missing while it acquires: C counts its predicted instant (R105). -/
def Dev.freeRun (d : Dev) (f p : Nat) (rising : Bool) : Dev :=
  match (d.zxFeeder f).times with
  | (_, t) :: _ => d.countCrossing f p rising (t + d.freePeriod f)
  | [] => d.countCrossing f p rising d.now

/-- The symbol of a half-cycle is to be erased. -/
def Dev.flagHalf (d : Dev) (f p h : Nat) : Dev :=
  let x := d.zxPhase f p
  if x.flagged.contains h then d else d.setZxPhase f p { x with flagged := x.flagged ++ [h] }

/-- FREERUN follows V1 (R105). -/
def Dev.showFreerun (d : Dev) (f : Nat) : Dev := d.set (F.ZXP_STATUS_FREERUN.at f) (b2n (d.track f 0 == Zt.unlocked))

/-- A half-cycle in HOLDOVER without an accepted rising crossing: after 8 cycles the phase is UNLOCKED (R104). -/
def Dev.holdStep (d : Dev) (f p : Nat) : Dev :=
  let x := d.zxPhase f p
  if x.held + 1 < 16 then d.setZxPhase f p { x with held := x.held + 1 }
  else
    let d := ((d.setZxPhase f p { x with held := 0 }).setTrack f p Zt.unlocked).showFreerun f
    (d.zxCount f 2).zxRaise f F.ZXP_INT_STATUS_UNLOCK p

/-- R103, R104: the predicted instant takes the place of a crossing. -/
def Dev.substitute (d : Dev) (f p : Nat) (rising : Bool) : Dev :=
  let x := d.zxPhase f p
  match x.predict rising with
  | none => d
  | some t =>
    let y := x.dir rising
    let d := (d.setZxPhase f p (x.setDir rising { y with subs := y.subs + 1, pred := some t })).zxCount f 0
    let d := d.useCrossing f p rising t
    let st := d.track f p
    if st = Zt.locked then
      let d := (d.setTrack f p Zt.holdover).setZxPhase f p { d.zxPhase f p with held := 0 }
      (d.zxCount f 1).zxRaise f F.ZXP_INT_STATUS_HOLDOVER p
    else if st = Zt.holdover then d.holdStep f p
    else d.flagHalf f p ((d.zxPhase f p).half rising)

/-- The mean of V1's cycle intervals, in 1/16 ns. -/
def Dev.showPeriod (d : Dev) (f : Nat) : Dev :=
  match (d.zxPhase f 0).intervals with
  | [] => d
  | l => d.set (F.ZXP_PERIOD_PERIOD.at f) (l.sum * 16 / l.length)

/-- A crossing is accepted while LOCKED or HOLDOVER: an accepted rising crossing ends HOLDOVER, in which a falling one's predicted
instant is used (R104). -/
def Dev.acceptCrossing (d : Dev) (f p : Nat) (rising : Bool) (at_ pred : Nat) : Dev :=
  let x := d.zxPhase f p
  let y := x.dir rising
  let is := match y.last, y.subs with
    | some t, 0 => ((at_ - t) :: x.intervals).take 16
    | _, _ => x.intervals
  let d := d.setZxPhase f p ({ x with intervals := is }.setDir rising { y with last := some at_, subs := 0, pred := some pred })
  let held := decide (d.track f p = Zt.holdover)
  let d := (d.useCrossing f p rising (if held ∧ rising = false then pred else at_)).showPeriod f
  if held = false then d
  else if rising then
    (((d.setZxPhase f p { d.zxPhase f p with held := 0 }).setTrack f p Zt.locked)).zxRaise f F.ZXP_INT_STATUS_LOCKED p
  else d.holdStep f p

/-- A crossing while ACQUIRING: its cycle interval decides (R104), and eight accepted in a row lock the phase. C counts V1's rising
crossings accepted or not (R105). -/
def Dev.acquireCrossing (d : Dev) (f p : Nat) (rising : Bool) (at_ : Nat) : Dev :=
  let x := d.zxPhase f p
  let y := x.dir rising
  let m := d.mainsHz f
  let span : Option Nat := y.last.bind fun t =>
    if t < at_ ∧ 1000000000 ≤ (at_ - t) * (m + 5) ∧ (at_ - t) * (m - 5) ≤ 1000000000 then some (at_ - t) else none
  let n := if span.isSome then x.accepted + 1 else 0
  let x := { x with accepted := n, intervals := (span.toList ++ x.intervals).take 16 }
  let d := d.setZxPhase f p (x.setDir rising { y with last := some at_, subs := 0, pred := none })
  let d := d.countCrossing f p rising at_
  let d := if span.isSome then (d.openCycle f p rising at_).showPeriod f else d
  if n < 8 then d
  else
    let d := (d.setTrack f p Zt.locked).setZxPhase f p { d.zxPhase f p with accepted := 0 }
    let d := if p = 0 then d.firstLock f at_ rising else d
    d.zxRaise f F.ZXP_INT_STATUS_LOCKED p

/-! ## Windows and crossings from the fast taps (R102, R114, R121) -/

/-- An enabled channel of a feeder's role that has a fast tap (R130). -/
def Dev.fastChan? (d : Dev) (f role : Nat) : Option MsrChanRec := d.msrChans.find? fun c => c.feeder == f && c.role == role && c.fastTap

/-- The fast tap's group delay and a channel's phase delay, in phase steps (R102, R129). -/
def Dev.fastLag (d : Dev) (channel : Nat) : Nat := fastDelay d.msr.chain + d.get (F.MSR_CH_PHASE_STEPS.at channel)

/-- The newest pair of valid samples, latest first, whose sign changes in the direction. -/
def bracket (rising : Bool) : List FastTap → Option (FastTap × FastTap)
  | a :: b :: l =>
    if a.valid ∧ b.valid ∧ (if rising then b.value < 0 ∧ 0 ≤ a.value else 0 ≤ b.value ∧ a.value < 0) then some (a, b)
    else bracket rising (b :: l)
  | _ => none

/-- R102: the newest crossing of a direction on the phase's voltage channel, interpolated and freed of its delays, where it is later
than the last. -/
def Dev.crossing? (d : Dev) (f p : Nat) (rising : Bool) : Option Nat :=
  (d.fastChan? f p).bind fun c =>
    (bracket rising (d.chan c.channel).fast).bind fun (a, b) =>
      let t := (b.at_ : Int) + narrow (((a.at_ - b.at_ : Nat) : Int) * b.value.natAbs) (a.value - b.value).natAbs -
        narrow ((d.fastLag c.channel * 15625 : Nat) : Int) 4096
      if ((((d.zxPhase f p).dir rising).last.map fun l => decide ((l : Int) < t)).getD true) then some t.toNat else none

/-- R114, R121: the integral of the current over the window after a crossing at `at_`, as mean current in µA; none where a
sample of it is invalid or there is none. -/
def Dev.windowMean? (d : Dev) (f p at_ : Nat) : Option Int :=
  (d.fastChan? f (p + 3)).bind fun c =>
    (d.chanEntry? c).bind fun e =>
      let first := 4096 * (at_ + 1000 * d.get (F.ZXP_RX_TIME_START.at f)) + 15625 * d.fastLag c.channel
      let stop := first + 4096000 * d.get (F.ZXP_RX_TIME_WIDTH.at f)
      let l := (d.chan c.channel).fast.filter fun x => decide (first ≤ 4096 * x.at_) && decide (4096 * x.at_ < stop)
      if l = [] ∨ l.any fun x => !x.valid then none
      else some (narrow ((l.map (·.value)).sum * (1000 * e.ratio)) (2 ^ 21 * l.length))

/-- R121: the window integral of a crossing, which begins the half-cycle `h`. A load step is declared one cycle after it appeared. -/
def Dev.loadStep? (d : Dev) (f p : Nat) (rising : Bool) (h : Nat) (window : Int) : Dev :=
  let x := d.zxPhase f p
  let y := x.dir rising
  let t := 100000 * d.get (F.ZXP_STEP_THRESHOLD.at f)
  let d := d.setZxPhase f p (x.setDir rising { y with windows := (window :: y.windows).take 2 })
  match y.windows with
  | [i1, i2] =>
    if t < (i1 - i2).natAbs ∧ t < (window - i2).natAbs then
      let d := (d.flagHalf f p (h - 2)).zxCount f 3
      d.zxRaise f F.ZXP_INT_STATUS_LOAD_STEP (p + 4 * ((h - 2) / 2 % 2 ^ 30))
    else d
  | _ => d

/-- s[k] of a cycle gains an integral: the window after the falling crossing signs it twice (R114). -/
def ZxPhase.addWindow (x : ZxPhase) (h : Nat) (w : Int) : ZxPhase :=
  match x.sums with
  | (c, v) :: l => { x with sums := if c = h / 2 then (c, v + w) :: l else ((h / 2, w) :: x.sums).take 8192 }
  | [] => { x with sums := [(h / 2, w)] }

/-- A fast-tap sample of a phase's current since an instant is not valid. -/
def Dev.spansInvalid (d : Dev) (f p at_ : Nat) : Bool :=
  match d.fastChan? f (p + 3) with
  | some c => (d.chan c.channel).fast.any fun x => !x.valid && decide (4096 * at_ ≤ 4096 * x.at_ + 15625 * d.fastLag c.channel)
  | none => false

/-- The window of the phase's last used crossing is integrated; a half-cycle in which a sample is not valid is erased (R126). -/
def Dev.closeWindow (d : Dev) (f p : Nat) : Dev :=
  let x := d.zxPhase f p
  match x.window with
  | none => d
  | some (rising, t, h) =>
    let d := d.setZxPhase f p { x with window := none }
    match d.windowMean? f p t with
    | none => d.flagHalf f p h
    | some w =>
      let d := if d.spansInvalid f p t then d.flagHalf f p h else d
      (d.setZxPhase f p ((d.zxPhase f p).addWindow h w)).loadStep? f p rising h w

/-- R103: a zero crossing is detected (R102). -/
def execZxCrossing (feeder phase : Nat) (rising : Bool) (bits : List Sdi) (s : State) : Answer :=
  s.on fun d =>
    let d := d.msrRun bits
    if 4 ≤ feeder ∨ 3 ≤ phase ∨ d.zxEnabled feeder phase = false then d
    else
      match d.crossing? feeder phase rising with
      | none => d
      | some at_ =>
        let d := d.closeWindow feeder phase
        if d.track feeder phase = Zt.acquiring then d.acquireCrossing feeder phase rising at_
        else
          match (d.zxPhase feeder phase).predict rising with
          | some t =>
            if d.track feeder phase ≠ Zt.unlocked && nearby at_ t then d.acceptCrossing feeder phase rising at_ t
            else d.substitute feeder phase rising
          | none => d

/-- R103: the acceptance window closes without an acceptable crossing. -/
def execZxCrossingMissing (feeder phase : Nat) (rising : Bool) (bits : List Sdi) (s : State) : Answer :=
  s.on fun d =>
    let d := d.msrRun bits
    if 4 ≤ feeder ∨ 3 ≤ phase ∨ d.zxEnabled feeder phase = false then d
    else
      let d := d.closeWindow feeder phase
      if d.track feeder phase = Zt.acquiring then
        (d.setZxPhase feeder phase { d.zxPhase feeder phase with accepted := 0 }).freeRun feeder phase rising
      else d.substitute feeder phase rising

/-- R104: 1 s after it became UNLOCKED a phase acquires anew. -/
def execZxReacquire (feeder phase : Nat) (s : State) : Answer :=
  s.on fun d =>
    if 4 ≤ feeder ∨ 3 ≤ phase ∨ d.track feeder phase ≠ Zt.unlocked then d
    else
      let x := d.zxPhase feeder phase
      let d := d.setZxPhase feeder phase
        { x with
          accepted := 0, intervals := [], held := 0, window := none
          rise := { windows := x.rise.windows }, fall := { windows := x.fall.windows } }
      (d.setTrack feeder phase Zt.acquiring).showFreerun feeder

/-- R105: a read of ZXP_CYCLE latches C's high part and the crossing time. -/
def execZxpCycleRead (feeder : Nat) (s : State) : Answer :=
  s.on fun d =>
    if 4 ≤ feeder then d
    else
      let x := d.zxFeeder feeder
      let d := (d.setZxFeeder feeder { x with latch := none }).showCycle feeder
      { d.setZxFeeder feeder { x with latch := some (x.c, (x.times.head?.map (·.2)).getD 0) } with
        lastRead := d.reg (R.ZXP_CYCLE.at feeder) }

/-! ## Rounds and assignments -/

/-- R109: a write changed ZXP_SCHED from `old`: the change waits for its TIME frames. -/
def Dev.schedChange (d : Dev) (f : Nat) (old : Word) : Dev :=
  let x := d.zxFeeder f
  d.setZxFeeder f { x with sched := some (x.sched.getD old), phases := x.phases.map fun p => { p with told := false } }

/-- R107, R109: a round begins. A waiting schedule takes effect once TIME frames with it have gone out on every enabled
phase; the uplink is decoded by a device that serves meters now (R126). -/
def execZxRoundBoundary (feeder : Nat) (s : State) : Answer :=
  s.on fun d =>
    let x := d.zxFeeder feeder
    if 4 ≤ feeder ∨ x.started = false ∨ x.c / (d.sched feeder).round = x.round then d
    else
      let told := (List.range 3).all fun p => !d.zxEnabled feeder p || (d.zxPhase feeder p).told
      let d := if told then d.setZxFeeder feeder { x with sched := none } else d
      let x := d.zxFeeder feeder
      let n := (d.sched feeder).round
      let r := x.c / n
      let fresh (p : ZxPhase) : ZxPhase := { p with
        up := [], acked := 0, fixed := false, timeSent := false, distSent := false, served := [], sinceTime := p.sinceTime + 1
        flagged := p.flagged.filter fun h => decide (2 * (r * n) ≤ h)
        gaps := p.gaps.filter fun g => decide (r * n ≤ g.2) }
      let d := d.setZxFeeder feeder
        { x with round := r, decoding := d.serves, turned := [], phases := x.phases.map fresh }
      d.set (F.ZXP_ROUND_ROUND.at feeder) r

/-- A context's assignment changes: durable on the device that serves meters; its partner takes the same command (R108), which leaves
alone what the mirror has already brought. -/
def Dev.putAssign (d : Dev) (meter : Nat) (z : Option ZxAssign) : Dev :=
  if d.serves then d.journal (.zxAssign meter z)
  else if ((Maps.get? meter d.dur.ctxs).bind (·.zx)) = z then d
  else { d with dur := d.dur.control (.zxAssign meter z) }

/-- End a ZXP_ASSIGN command. -/
def Dev.assignDone (d : Dev) (f result : Nat) : Dev :=
  (d.set (F.ZXP_ASSIGN_RESULT.at f) result).zxRaise f F.ZXP_INT_STATUS_ASSIGN_DONE result

/-- Every feeder forgets the mean correlation magnitude it learned of a meter. -/
def Dev.unlearn (d : Dev) (meter : Nat) : Dev :=
  let forget (x : ZxFeeder) : ZxFeeder := { x with learned := x.learned.filter fun l => decide (l.1 ≠ meter) }
  { d with zxp := { feeders := d.zxp.feeders.map forget } }

/-- Another meter of a phase holds a channel and slot: by its assignment, or by the one still in effect (R108). -/
def Dev.zxTaken (d : Dev) (meter : Nat) (z : ZxAssign) : Bool :=
  d.dur.ctxs.any fun x => x.1 != meter && (x.2.zx == some z || d.zxHeld x.1 == some z)

/-- R108: ZXP_ASSIGN ASSIGN, with the operands of ZXP_ASSIGN_SLOT. What stood before stays in effect until the meter's SCHEDULE
frame. -/
def execZxpAssign (feeder meter : Nat) (s : State) : Answer :=
  s.on fun d =>
    if 4 ≤ feeder then d
    else
      let m := meter % 1048576
      let z : ZxAssign := {
        feeder := feeder, phase := d.get (F.ZXP_ASSIGN_SLOT_PHASE.at feeder), channel := d.get (F.ZXP_ASSIGN_SLOT_CHANNEL.at feeder)
        slot := d.get (F.ZXP_ASSIGN_SLOT_SLOT.at feeder) }
      match Maps.get? m d.dur.ctxs with
      | none => d.assignDone feeder 4
      | some c =>
        if (d.trellis.class? c.cls).map (·.medium) ≠ some 2 then d.assignDone feeder 1
        else if 3 ≤ z.phase ∨ d.zxEnabled feeder z.phase = false then d.assignDone feeder 3
        else if (d.sched feeder).period ≤ z.slot then d.assignDone feeder 5
        else if d.zxTaken m z then d.assignDone feeder 2
        else ((d.putAssign m (some z)).unlearn m).assignDone feeder 0

/-- R108: ZXP_ASSIGN RELEASE. -/
def execZxpRelease (feeder meter : Nat) (s : State) : Answer :=
  s.on fun d =>
    if 4 ≤ feeder then d
    else
      let m := meter % 1048576
      match Maps.get? m d.dur.ctxs with
      | none => d.assignDone feeder 4
      | some c =>
        if (c.zx.map (·.feeder)) = some feeder then ((d.putAssign m none).unlearn m).assignDone feeder 0
        else d.assignDone feeder 0

/-! ## Outbound frames -/

/-- R120: BITMAP is fixed from the commits, and the ACK's data blocks are known. -/
def execZxAckBitmapFix (feeder phase : Nat) (s : State) : Answer :=
  s.on fun d =>
    if 4 ≤ feeder ∨ 3 ≤ phase then d
    else
      let x := d.zxPhase feeder phase
      let d := d.setZxPhase feeder phase { x with fixed := true }
      match x.frame, Maps.get? (zxPlace feeder phase) d.key.bcastRegs with
      | some fr, some key =>
        match fr.purpose, fr.bitmap with
        | .ack r, none =>
          let map : List Bool := (List.range 16).map fun i => bitAt x.acked (15 - i)
          let data := toBits 12 (r % (d.sched feeder).period) ++ map
          let bits := d.zxSealed key fr.counter 1 fr.header data [] 2
          let fr := { fr with bitmap := some x.acked, symbols := fr.symbols ++ framedSymbols 2 bits }
          let d := d.setZxPhase feeder phase { d.zxPhase feeder phase with frame := some fr }
          d.emit (.zxFrame feeder phase 1 (bitsBytes bits))
        | _, _ => d
      | _, _ => d

/-- R120: the uplink period ends; the ACK frame starts two cycles later. -/
def execZxUplinkEnd (feeder phase : Nat) (s : State) : Answer :=
  s.on fun d =>
    let r := (d.zxFeeder feeder).round
    if 4 ≤ feeder ∨ 3 ≤ phase ∨ d.zxSends feeder phase = false ∨ (d.zxPhase feeder phase).frame.isSome ∨ (d.zxPhase feeder phase).fixed then d
    else
      match d.loadBcast (zxPlace feeder phase) with
      | (none, d) => d
      | (some _, d) =>
        let x := d.sched feeder
        d.zxStart feeder phase (.ack r) (r * x.round + x.uplink + 2) 2 (d.zxLast feeder phase (x.uplink + 194)) none

/-- R117: the data fields of a TIME frame: C and the time of its crossing, and ZXP_SCHED as it is or will be. -/
def Dev.timeBits (d : Dev) (f : Nat) : List Bool :=
  let (c, t) := ((d.zxFeeder f).times.head?).getD ((d.zxFeeder f).c, 0)
  let x := schedOf (d.reg (R.ZXP_SCHED.at f))
  toBits 48 c ++ toBits 48 (t / 1000000000) ++ toBits 3 (x.blocks - 1) ++ toBits 12 x.dl ++ toBits 12 x.period ++ toBits 5 x.every

/-- R275, R282: the data fields of a DIST frame, and the round after it. -/
def Dev.distFrame (d : Dev) (place slot : Nat) (c : Campaign) : List Bool × Dev :=
  let r := d.rounds slot place
  let id := toBits 8 (c.id % 256)
  if d.zxAborts slot place c then (id ++ toBits 16 0xFFFF ++ toBits 8 0, d)
  else
    match nextBlock r.sending r.nextBlk (c.blocks true) with
    | none => ([], d.roundOver slot place)
    | some blk =>
      let last := r.reportNow || (nextBlock r.sending (blk + 1) (c.blocks true)).isNone
      let flags := b2n last + 2 * b2n r.reportNow + 4 * b2n (c.finalRound place)
      let data := blockData (Maps.getD d.dst.objects slot []) (c.blockBytes true) blk
      let d := d.setRounds slot place { r with nextBlk := blk + 1 }
      (id ++ toBits 16 blk ++ toBits 4 r.round ++ toBits 4 flags ++ bytesBits data, if last then d.roundOver slot place else d)

/-- The data of a SCHEDULE frame (R117): the meter's EUI-64, its channel and its slot. -/
def Ctx.scheduleBits (c : Ctx) : List Bool :=
  toBits 64 (euiOf c.address) ++ toBits 4 ((c.zx.map (·.channel)).getD 0) ++ toBits 12 ((c.zx.map (·.slot)).getD 0)

/-- A frame under the phase's broadcast key starts: a TIME, a SCHEDULE or a DIST. -/
def Dev.zxBroadcast (d : Dev) (f p pos n : Nat) (what : ZxPurpose) (key : Nat) : Dev :=
  let x := d.zxPhase f p
  let end_ := pos + zxCycles n
  let start (d : Dev) (bits : List Bool) : Dev := d.zxStart f p what x.cycle n (d.zxLast f p end_) (some { key := key, clear := bits })
  match what with
  | .time => start (d.setZxPhase f p { x with timeSent := true }) (d.timeBits f)
  | .schedule m =>
    match Maps.get? m d.dur.ctxs with
    | some c => start d c.scheduleBits
    | none => d
  | .dist slot =>
    match Maps.get? slot d.dur.campaigns with
    | some c =>
      let d := d.setZxPhase f p { x with distSent := true }
      match d.distFrame (zxPlace f p) slot c with
      | ([], d) => d.setZxPhase f p x
      | (data, d) => start (d.keyHold slot (zxPlace f p)) data
    | none => d
  | _ => d

/-- The item of a DOWNLINK frame to a meter waits already. -/
def Dev.zxWaits (d : Dev) (f p meter : Nat) : Bool :=
  d.eng.downs.any (fun x => x.1 == meter && x.2.1 == .zx f p) || ((Maps.get? meter d.eng.flight).map fun w => w.job == some (.zx f p)).getD false

/-- Start a due frame at a position of its round: a DOWNLINK as a work item of its meter (R196), any other under the broadcast key,
without which a campaign's block is held (R283). -/
def Dev.zxBegin (d : Dev) (f p pos : Nat) (what : ZxPurpose) (n : Nat) : Dev :=
  match what with
  | .downlink m _ _ => if d.zxWaits f p m then d else d.startDown m (.zx f p)
  | _ =>
    match d.loadBcast (zxPlace f p), what with
    | (some key, d), _ => d.zxBroadcast f p pos n what key
    | (none, d), .dist slot => d.keyHold slot (zxPlace f p)
    | (none, d), _ => d

/-- The first of the frames due that starts. -/
def Dev.zxFirst (f p pos : Nat) : List (ZxPurpose × Nat) → Dev → Dev
  | [], d => d
  | (what, n) :: l, d =>
    let d' := if (d.sched f).fits n pos then d.zxBegin f p pos what n else d
    if (d'.zxPhase f p).frame.isSome then d' else Dev.zxFirst f p pos l d'

/-- R109, R275: a scheduled frame starts, after the ACK frame and where it ends inside the period: the first due that can. -/
def execZxOutboundFrameStart (feeder phase : Nat) (s : State) : Answer :=
  s.on fun d =>
    if 4 ≤ feeder ∨ 3 ≤ phase then d
    else
      match d.zxPos feeder phase with
      | some pos => Dev.zxFirst feeder phase pos (d.zxDue feeder phase pos) d
      | none => d

/-- What the end of a frame leaves. A DOWNLINK has no acknowledgement: a request or a key counts as delivered once its last pulse is
out, an offer with the meter's first status report (R266). -/
def Dev.zxSent (d : Dev) (f p : Nat) (fr : ZxFrame) : Dev :=
  let d := (d.setZxPhase f p { d.zxPhase f p with frame := none }).zxCount f 9
  match fr.purpose with
  | .time =>
    let x := d.zxPhase f p
    d.setZxPhase f p { x with told := x.told || fr.sched == d.reg (R.ZXP_SCHED.at f), sinceTime := 0 }
  | .ack _ => d
  | .schedule m =>
    if Maps.has d.dur.ctxs m then
      let x := d.zxFeeder f
      let held := d.zxHeld m
      (d.setZxFeeder f { x with turned := if Maps.has x.turned m then x.turned else Maps.put x.turned m held }).journal (.zxTold m)
    else d
  | .downlink m kind id =>
    match kind with
    | .key x => d.keyDelivered m x
    | .offer _ => d.count R.DST_CNT_n 0
    | _ => d.downlinkSent m id kind
  | .dist _ => d.count R.DST_CNT_n 3

/-- Gate advance A of a phase, from the driver's record, in whole MSR_CLK periods of 32/3 phase steps (R111, R146). -/
def Dev.gateAdvance (d : Dev) (f p : Nat) : Int :=
  match ((d.modSlot f).line.bind fun m => m.entries[p]?) with
  | some e => roundNear (e.phase * 3) 32
  | none => 0

/-- A time in µs in whole MSR_CLK periods: 24.576 a µs. -/
def msrPeriods (us : Nat) : Int := roundNear ((us * 3072 : Nat) : Int) 125

/-- R110, R111: the pulse of the next symbol: ZXG rises at the predicted crossing + START - A, for WIDTH. START has a floor of
150 µs. -/
def execZxPulseGate (feeder phase : Nat) (s : State) : Answer :=
  s.on fun d =>
    let x := d.zxPhase feeder phase
    match x.frame with
    | none => d
    | some fr =>
      match fr.symbols[fr.sent]? with
      | none => d
      | some v =>
        if 4 ≤ feeder ∨ 3 ≤ phase ∨ d.zxSends feeder phase = false then d.endZxFrame feeder phase
        else
          let pred := ((x.dir (decide (v % 2 = 0))).pred).getD 0
          let rise := msrPeriods (max 150 (d.get (F.ZXP_TX_TIME_START.at feeder))) - d.gateAdvance feeder phase
          let width := (msrPeriods (d.get (F.ZXP_TX_TIME_WIDTH.at feeder))).toNat
          let fr := { fr with sent := fr.sent + 1 }
          let fall := (((pred * 384 : Nat) : Int) + (rise + width) * 15625).toNat / 384
          let d := d.setZxPhase feeder phase { x with gate := some fall, frame := some fr }
          let d := d.emit (.zxPulse feeder phase pred rise width)
          let total := match fr.purpose with
            | .ack _ => 96
            | _ => fr.symbols.length
          if fr.sent < total then d else d.zxSent feeder phase fr

/-! ## Driver faults -/

/-- R112, R124: a driver fault: the gate is off, the frame ends, transmission rests for 10 s, and the third within an hour
latches the phase off. -/
def Dev.driverFault (d : Dev) (f p : Nat) : Dev :=
  let x := d.zxPhase f p
  let d := d.zxCount f 10
  let d := if x.frame.isSome then d.zxCount f 11 else d
  let d := d.endZxFrame f p
  let faults := d.now :: x.faults.filter fun t => decide (d.now < t + 3600000000000)
  let d := d.setZxPhase f p { d.zxPhase f p with resting := true, faults := faults }
  let d := d.zxRaise f F.ZXP_INT_STATUS_DRIVER_FAULT p
  if faults.length < 3 then d
  else
    let d := d.set (F.ZXP_STATUS_LATCHED.at f) (setBitTo (d.get (F.ZXP_STATUS_LATCHED.at f)) p true)
    (d.setW1c (F.ZXP_FAULT_LATCHED.at f) (2 ^ p)).zxRaise f F.ZXP_INT_STATUS_DRIVER_LATCHED p

/-- R124: ZXF rises. -/
def execZxfFault (feeder phase : Nat) (s : State) : Answer :=
  s.on fun d =>
    let x := F.ZXP_STATUS_FAULT.at feeder
    if 4 ≤ feeder ∨ 3 ≤ phase ∨ bitAt (d.get x) phase then d
    else (d.set x (setBitTo (d.get x) phase true)).driverFault feeder phase

/-- R124: ZXF falls. -/
def execZxfFall (feeder phase : Nat) (s : State) : Answer :=
  s.on fun d =>
    let x := F.ZXP_STATUS_FAULT.at feeder
    if 4 ≤ feeder ∨ 3 ≤ phase then d else d.set x (setBitTo (d.get x) phase false)

/-- R112: ZXG has been high for 1,200 µs: hardware forces it low. -/
def execZxgWatchdog (feeder phase : Nat) (s : State) : Answer :=
  s.on fun d =>
    if 4 ≤ feeder ∨ 3 ≤ phase ∨ (d.zxPhase feeder phase).gate.isNone then d
    else
      let d := (d.setZxPhase feeder phase { d.zxPhase feeder phase with gate := none }).emit (.pin 2 (3 * feeder + phase) false)
      d.driverFault feeder phase

/-- R124: 10 s after a driver fault transmission resumes with the next frame. -/
def execZxFaultResume (feeder phase : Nat) (s : State) : Answer :=
  s.on fun d =>
    if 4 ≤ feeder ∨ 3 ≤ phase then d
    else
      let x := d.zxPhase feeder phase
      if (x.faults.head?.map fun t => decide (t + 10000000000 ≤ d.now)).getD true then
        d.setZxPhase feeder phase { x with resting := false }
      else d

/-- R9, R124: host software writes ones to ZXP_FAULT.LATCHED. -/
def execZxpFaultClear (feeder mask : Nat) (s : State) : Answer :=
  s.on fun d =>
    if 4 ≤ feeder then d
    else
      let mask := mask &&& (~~~d.setNow (R.ZXP_FAULT.at feeder)).toNat
      let clear (x : Fld) (d : Dev) : Dev :=
        d.set (x.at feeder) ((List.range 3).foldl (fun v p => if bitAt mask p then setBitTo v p false else v) (d.get (x.at feeder)))
      clear F.ZXP_STATUS_LATCHED (clear F.ZXP_FAULT_LATCHED d)

/-! ## Inbound blocks -/

/-- R114, R121, R126: nibbles of the channel's block `n` that hold an erased symbol: of a flagged half-cycle, or in a span in
which the phase was not tracked. -/
def ZxPhase.erasedNibbles (x : ZxPhase) (base channel n : Nat) : List Nat :=
  let start := base + 960 * n
  let at_ (h : Nat) : List Nat :=
    let sym (c : Nat) : List Nat := if start ≤ c ∧ c < start + 960 then [(c - start) / 64] else []
    sym (h / 2) ++ if channel = 0 then sym (h / 2 + 16) else []
  let late := if channel = 0 then 16 else 0
  let lost (a b i : Nat) : Bool := decide (a < start + 64 * i + 64) && decide (start + 64 * i ≤ b + late)
  let gap (i : Nat) : Bool := x.gaps.any (fun g => lost g.1 g.2 i) || (x.off.map fun a => decide (a < start + 64 * i + 64)).getD false
  (List.range 15).filter fun i => (x.flagged.flatMap at_).contains i || gap i

/-- Inbound reception on a phase is on: ZXP_CTRL.RX_EN, on a phase that carries ZX-PLC and has a current channel. -/
def Dev.zxReceives (d : Dev) (f p : Nat) : Bool :=
  d.zxEnabled f p && bitAt (d.get (F.ZXP_CTRL_RX_EN.at f)) p && (d.fastChan? f (p + 3)).isSome

/-- The meter that may send on a channel in a round: the one whose assignment in effect says so (R108). -/
def Dev.zxSender (d : Dev) (f p channel round : Nat) : Option Nat :=
  let q := round % (d.sched f).period
  (d.dur.ctxs.find? fun x => d.zxHeld x.1 == some ⟨f, p, channel, q⟩).map (·.1)

/-- w_j[k] (R113). -/
def walsh (j k : Nat) : Int := if ((List.range 4).filter fun i => bitAt (j &&& k) i).length % 2 = 0 then 1 else -1

/-- s[k] of a cycle. -/
def ZxPhase.sumAt (x : ZxPhase) (c : Nat) : Int := ((x.sums.find? (·.1 == c)).map (·.2)).getD 0

/-- R114: the correlations of the 16 channels over the symbol that begins at cycle `c`; `known` are the pulses of the cycle before
it. -/
def ZxPhase.correlate (x : ZxPhase) (c : Nat) (known : Int) : List Int :=
  let before := x.sumAt (c - 1)
  let z := (List.range 16).map fun k => x.sumAt (c + k) - before + known
  (List.range 16).map fun j => (z.mapIdx fun k v => walsh j k * v).sum

/-- R114: the correlations of `n` symbols on from cycle `c`; `pulse` is the pulse a channel's correlation stands for. -/
def ZxPhase.symbols (x : ZxPhase) (pulse : Nat → Int → Int) : Nat → Nat → Int → List (List Int)
  | 0, _, _ => []
  | n + 1, c, known =>
    let r := x.correlate c known
    r :: x.symbols pulse n (c + 16) (r.mapIdx fun j v => walsh j 15 * pulse j v).sum

/-- The pulse that a channel's decided symbol holds: the meter's learned mean, or where none is learned this symbol's; none on a
channel that nobody may use or that is silent (R114; log entry 83). -/
def Dev.zxPulseOf (d : Dev) (f p channel : Nat) (corr : Int) : Int :=
  let fd := d.zxFeeder f
  match d.zxSender f p channel fd.round with
  | none => 0
  | some m =>
    if (Maps.getD (d.zxPhase f p).up channel {}).silent then 0
    else
      let a := match fd.learned.find? (·.1 == m) with
        | some (_, sum, k) => if k = 0 then corr.natAbs / 16 else sum / (16 * k)
        | none => corr.natAbs / 16
      if 0 < corr then (a : Int) else -(a : Int)

/-- R118: the frame whose blocks have all decoded goes to ingest. -/
def Dev.zxDeliver (d : Dev) (f meter : Nat) (bits : List Bool) : Dev :=
  match Maps.get? meter d.dur.ctxs with
  | none => d
  | some c =>
    let fd := d.zxFeeder f
    let start := fd.round * (d.sched f).round
    let slotNs := ((fd.times.find? fun t => t.1 == start).map (·.2)).getD d.now
    let d := d.zxCount f 7
    d.stage {
      frame := { parseZx c.address bits with slotSec := slotNs / 1000000000 }, source := 1, via := f, rxSec := d.tsu.sec, rxNs := d.tsu.ns
      endNs := d.now, meter := 0, slots := 0, round := fd.round }

/-- R114, R116, R119: the next inbound block of a channel completes: its 60 symbols, their nibbles with the erased ones, and the mean
correlation magnitude over a header block. After a failed block the frame's later ones are passed over (log entry 104). -/
def execZxBlockDecode (feeder phase channel : Nat) (s : State) : Answer :=
  s.on fun d =>
    let fd := d.zxFeeder feeder
    if 4 ≤ feeder ∨ 3 ≤ phase ∨ 16 ≤ channel ∨ d.zxReceives feeder phase = false ∨ fd.decoding = false ∨ d.serves = false then d
    else
      match d.zxSender feeder phase channel fd.round with
      | none => d
      | some meter =>
        let x := d.zxPhase feeder phase
        let up := Maps.getD x.up channel {}
        let n := up.blocks
        let base := fd.round * (d.sched feeder).round
        let corr := ((x.symbols (d.zxPulseOf feeder phase) (60 * (n + 1)) base 0).drop (60 * n)).map fun r => r.getD channel 0
        let magnitude := (corr.map Int.natAbs).sum / 60
        let put (d : Dev) (u : ZxUp) : Dev :=
          let x := d.zxPhase feeder phase
          d.setZxPhase feeder phase { x with up := Maps.put x.up channel { u with blocks := n + 1 } }
        let known := (fd.learned.find? (·.1 == meter)).map (·.2)
        let silent := decide (n = 0) && (known.map fun k => decide (4 * magnitude * k.2 < k.1)).getD false
        let extra := decide (0 < n) && decide (up.nblk ≤ n)
        if silent then put d { up with failed := true, silent := true }
        else if up.failed || extra || decide ((d.sched feeder).blocks ≤ n) then put d up
        else
          let bad := x.erasedNibbles base channel n
          let erased := (List.range 15).filter fun i => bad.contains i
          let block := chunks 4 15 (corr.map fun v => decide (0 < v))
          let d := { d with face := d.face.add (R.ZXP_CNT_n.at2 feeder 4) erased.length }
          match rsDecode block erased with
          | none =>
            let d := (d.zxCount feeder 6).zxRaise feeder F.ZXP_INT_STATUS_BLOCK_FAIL (phase + 4 * channel)
            put d { up with failed := true }
          | some good =>
            let d := if good = block ∧ erased = [] then d else d.zxCount feeder 5
            let bits := up.bits ++ (good.take 11).flatMap (toBits 4)
            let nblk := if n = 0 then ofBits ((bits.drop 20).take 3) + 1 else up.nblk
            let d :=
              if n = 0 then
                let (sum, k) := known.getD (0, 0)
                let fd := d.zxFeeder feeder
                d.setZxFeeder feeder
                  { fd with learned := fd.learned.filter (fun l => decide (l.1 ≠ meter)) ++ [(meter, sum + magnitude, k + 1)] }
              else d
            let wrong := decide (nblk < 2) || decide ((d.sched feeder).blocks < nblk)
            let d := put d { bits := bits, nblk := nblk, failed := wrong }
            if wrong = false ∧ n + 1 = nblk then d.zxDeliver feeder meter bits else d

end Sys2Proof.Machine
end

