-- ==== Sys2Proof/Machine/HostWrite.lean ====
section
/-! DEFINITION. Host writes to BAR0 (R5 to R10, R432, R489) and counter clears (R461). -/

namespace Sys2Proof.Machine

/-! ## Registers with rows of their own -/

/-- Registers whose write has its own row: nothing of it is stored here. -/
def ownRow : List RegD :=
  [R.RNG_n_DATA, R.RNG_n_CMD, R.RNG_n_CONFIRM_LO, R.RNG_n_HRD, R.TSU_INCR_FRAC, R.MSR_COEF_DATA, R.MSR_FDR_LATCH, R.ZXP_FAULT]

/-- The command registers: the OPCODE or OP field, and the last value the register's table lists (R489). -/
def commandFields : List (RegD × Fld × Nat) :=
  [(R.TRL_CMD, F.TRL_CMD_OPCODE, 8), (R.FHM_MODE_CMD, F.FHM_MODE_CMD_OP, 3), (R.FHM_HEAD_CMD, F.FHM_HEAD_CMD_OPCODE, 3),
   (R.ZXP_ASSIGN, F.ZXP_ASSIGN_OP, 2), (R.CTX_CMD, F.CTX_CMD_OPCODE, 5), (R.BAL_CMD, F.BAL_CMD_OPCODE, 4),
   (R.DST_CMD, F.DST_CMD_OPCODE, 6), (R.KEY_CMD, F.KEY_CMD_OPCODE, 17), (R.TSU_ADJ_CMD, F.TSU_ADJ_CMD_OP, 2),
   (R.NFM_CMD, F.NFM_CMD_OPCODE, 2), (R.PRL_CMD, F.PRL_CMD_OPCODE, 5), (R.EVR_CMD, F.EVR_CMD_OPCODE, 1)]

/-- R489: whether a write of `v` at `off` carries an opcode that its register does not list and that is not zero. -/
def unlistedOpcode (off : Nat) (v : Word) : Bool :=
  commandFields.any fun c => c.1.covers off && decide (c.2.2 < bitsOf v c.2.1.hi c.2.1.lo)

/-! ## What follows a stored word -/

/-- TSU_UTC: OFFSET, VALID and the leap flags take a write with SOURCE 1, or in the discipline mode of 1PPS_IN (R334). -/
def Dev.utcWrite (d : Dev) (old : Word) (v : Word) : Dev :=
  let d := (d.set F.TSU_UTC_SOURCE (bitsOf v 19 19)).set F.TSU_UTC_TRACEABLE (bitsOf v 20 20)
  let kept := if d.flag F.TSU_UTC_SOURCE ∨ d.get F.TSU_CTRL_PPS_IN_MODE = 2 then v else old
  (((d.set F.TSU_UTC_OFFSET (bitsOf kept 15 0)).set F.TSU_UTC_VALID (bitsOf kept 16 16)).set F.TSU_UTC_LEAP61
    (bitsOf kept 17 17)).set F.TSU_UTC_LEAP59 (bitsOf kept 18 18)

/-- R330, R335: 1PPS discipline ends and its reference is lost. -/
def Dev.ppsMode (d : Dev) (was : Nat) : Dev :=
  if was = 2 ∧ d.get F.TSU_CTRL_PPS_IN_MODE ≠ 2 then d.loseReference else d

/-- R330, R335: 1PPS discipline starts. -/
def Dev.ppsStart (d : Dev) (was : Nat) : Dev :=
  if d.get F.TSU_CTRL_PPS_IN_MODE = 2 ∧ was ≠ 2 then
    { d with tsu := { d.tsu with ppsAt := d.cycles, ppsMissed := 0 } }.acquire
  else d

/-- R348: the threshold table behind NFM_RT_SEL: 56 bits an entry. INDEX rises after an access to NFM_RT_DATA_HI. -/
def Dev.rtWrite (d : Dev) (hi : Bool) (v : Word) : Dev :=
  let i := d.get F.NFM_RT_SEL_INDEX
  let old := Maps.getD d.nfm.thresholds i 0
  let new := if hi then old % 2 ^ 32 + v.toNat % 2 ^ 24 * 2 ^ 32 else old / 2 ^ 32 * 2 ^ 32 + v.toNat
  let t := if new = 0 then Maps.del i d.nfm.thresholds else Maps.put d.nfm.thresholds i new
  let d := { d with nfm := { d.nfm with thresholds := t } }
  if hi && d.flag F.NFM_RT_SEL_AUTOINC then d.set F.NFM_RT_SEL_INDEX ((i + 1) % 512) else d

/-- R458: the selected monitor's limit; monitors 1 and 3 take theirs from the media and from HLT_CELL. -/
def Dev.limitWrite (d : Dev) (v : Word) : Dev :=
  let m := d.get F.HLT_FC_SEL_MONITOR
  if m = 1 ∨ m = 3 ∨ 5 < m then d
  else
    let x : Monitor := { Maps.getD d.face.hst.monitors m {} with limit := some v.toNat }
    { d with face := { d.face with hst := { d.face.hst with monitors := Maps.put d.face.hst.monitors m x } } }

/-- GPIO pins the device drives (R480); GPIO14 stays the MSR_SYNC input while MSR_CTRL.SYNC_SRC is 1. -/
def Dev.gpioDriven (d : Dev) : Nat :=
  let oe := d.get F.GLB_GPIO_OE_PINS
  if d.get F.MSR_CTRL_SYNC_SRC = 1 then setBitTo oe 14 false else oe

/-- Emit the GPIO pins whose driven level is new since the device `was`. -/
def Dev.gpioOut (d was : Dev) : Dev :=
  (List.range 16).foldl (fun d n =>
    let now := (bitAt d.gpioDriven n, bitAt (d.get F.GLB_GPIO_OUT_PINS) n)
    let before := (bitAt was.gpioDriven n, bitAt (was.get F.GLB_GPIO_OUT_PINS) n)
    if now ≠ before ∧ now.1 then d.emit (.pin 3 n now.2) else d) d

/-- R442: a ring whose unsignalled words reach a watermark just written has its message. -/
def Dev.irqWrite (d : Dev) (ring : Nat) : Dev :=
  if (d.ring ring).unsignalled = 0 then d else { d with face := d.face.signal d.env ring 0 }

/-- What follows a word stored at `off` over `old`. -/
def Dev.wrote (d was : Dev) (off : Nat) (old : Word) : Dev :=
  if off = R.FHM_HEAD_SEL.off then d.showHead
  else if off = R.FHM_LEAD.off then d.fhm.heads.foldl (fun d p => d.judgeHead p.1) d.showHead
  else if off = R.FHM_SF.off ∨ off = R.FHM_SF_CTRL.off then d.fhm.cells.foldl (fun d p => d.judgeSlot p.1) d
  else if R.ZXP_SCHED.covers off then
    if d.reg off = old then d else d.schedChange ((off - R.ZXP_SCHED.off) / 0x400) old
  else if off = R.MSR_PHASE_BASE.off ∨ R.MSR_CH_TRIM.covers off then d.recalibrate
  else if off = R.KEY_BCAST.off then d.pinBcast (bitsOf old 4 0)
  else if off = R.PRL_HOST_BEAT.off then { d with prl := { d.prl with beatAt := d.cycles } }
  else if off = R.TSU_CTRL.off then
    (d.ppsMode (bitsOf old 3 2)).bmca.ppsStart (bitsOf old 3 2)
  else if off = R.TSU_UTC.off ∨ off = R.TSU_PTP_CFG.off ∨ R.TSU_Pn_CFG.covers off ∨ R.ETH_n_CTRL.covers off then d.bmca
  else if R.RNG_n_IRQ.covers off then d.irqWrite ((off - R.RNG_n_IRQ.off) / 0x100)
  else if R.RNG_n_CFG.covers off then d.drainCheck ((off - R.RNG_n_CFG.off) / 0x100)
  else if R.RNG_n_HSIZE.covers off then d.drainCheck ((off - R.RNG_n_HSIZE.off) / 0x100)
  else if off = R.GLB_GPIO_OE.off ∨ off = R.GLB_GPIO_OUT.off ∨ off = R.MSR_CTRL.off then d.gpioOut was
  else d

/-- The word a field write by types leaves (R8 to R10), with SEALED_WRITE for an attempt on an RWL field after
the seal; a write that changes two of them is one attempt (log entry 76). -/
def Dev.typedWrite (d : Dev) (r : RegD) (off : Nat) (v : Word) : Dev :=
  let old := d.reg off
  let tried := d.trl.sealed && changesRwl old v r.fields
  let d' := d.setReg off (writeFields d.trl.sealed (d.setNow off) old v r.fields)
  let d' := if tried then d'.raise F.TRL_INT_STATUS_SEALED_WRITE off v.toNat else d'
  d'.wrote d off old

/-! ## The MSI-X table -/

/-- A word of the MSI-X table (R433): address, data, or the vector's mask, whose clearing unmasks. -/
def Dev.msixWrite (d : Dev) (off : Nat) (v : Word) : Dev :=
  let n := off % 0x10000 / 16
  let m := Maps.getD d.face.hst.msix n {}
  let put (x : MsixEntry) : Dev := { d with face := { d.face with hst := { d.face.hst with msix := Maps.put d.face.hst.msix n x } } }
  match off % 16 / 4 with
  | 0 => put { m with addr := m.addr / 2 ^ 32 * 2 ^ 32 + v.toNat / 4 * 4 }
  | 1 => put { m with addr := m.addr % 2 ^ 32 + v.toNat * 2 ^ 32 }
  | 2 => put { m with data := v.toNat }
  | _ => if v.getLsbD 0 then put { m with masked := true } else if m.masked then d.unmask n else d

/-! ## REGISTER_WRITE -/

/-- R7: a write to the CLO block goes over the slow bridge and acts at CLO_ACCESS_ARRIVAL. -/
def Dev.cloIssue (d : Dev) (off : Nat) (v : Word) : Dev :=
  { d with clo := { d.clo with bridge := d.clo.bridge ++ [⟨off, some v⟩] } }

/-- R8: a host write of `v` at `off` with byte enables `be` (bit n: byte n). One whose byte enables are not all set has no
effect beyond its count and event (R432); one while the device is held in reset has none; reserved bits and unmapped
offsets are ignored (R6). -/
def execRegisterWrite (off be : Nat) (v : Word) (s : State) : Answer :=
  s.on fun d =>
    let off := off % 0x400000 / 4 * 4
    if d.glb.inReset then d
    else if be % 16 ≠ 15 then (d.count R.RNG_CNT_n 7).occur Ev.barPartial 2 off
    else if 0x3F0000 ≤ off then if off < 0x3F0400 then d.msixWrite off v else d
    else if off / 65536 = 0xF then d.cloIssue off v
    else if unlistedOpcode off v then d.occur Ev.unknownCommand (off / 65536) off v.toNat
    else if ownRow.any (·.covers off) then d
    else if off = R.NFM_RT_DATA_LO.off then d.rtWrite false v
    else if off = R.NFM_RT_DATA_HI.off then d.rtWrite true v
    else if off = R.HLT_FC_LIMIT.off then d.limitWrite v
    else if off = R.TSU_INCR_INT.off ∧ d.flag F.TSU_CTRL_SERVO = false then d
    else if off = R.TSU_UTC.off then (d.utcWrite (d.reg off) v).bmca
    else
      match regAt? off with
      | none => d
      | some r =>
        -- ENABLE from 0 to 1 also requests a reset (R135)
        if off = R.MSR_CTRL.off ∧ v.getLsbD 0 ∧ d.flag F.MSR_CTRL_ENABLE = false then (d.typedWrite r off (v &&& ~~~1#32)).msrEnable
        else d.typedWrite r off v

/-! ## Counters -/

/-- The counters that a CNT_CLEAR at `off` clears (R460, R461), Ethernet ports apart. -/
def clearedBy (off : Nat) : List RegD :=
  if off = R.FHM_CTRL.off then [R.FHM_CNT_n]
  else if off = R.MSR_CTRL.off then [R.MSR_CH_INVALID, R.MSR_FDR_INVALID]
  else if off = R.ING_CTRL.off then [R.ING_CNT_n]
  else if off = R.CTX_CTRL.off then [R.CTX_CNT_n]
  else if off = R.BIL_CTRL.off then [R.BIL_CNT_n]
  else if off = R.BAL_CTRL.off then [R.BAL_CNT_n]
  else if off = R.DST_CTRL.off then [R.DST_CNT_n]
  else if off = R.KEY_CTRL.off then [R.KEY_CNT_n]
  else if off = R.TSU_CTRL.off then [R.TSU_CNT_n]
  else if off = R.NFM_CTRL.off then [R.NFM_CNT_n]
  else if off = R.JNL_CTRL.off then [R.JNL_CNT_n]
  else if off = R.PRL_CTRL.off then [R.PRL_CNT_n, R.PRL_L_CNT_n]
  else if off = R.RNG_CTRL.off then [R.RNG_CNT_n, R.RNG_n_DROPS]
  else if off = R.EVR_CTRL.off then [R.EVR_CNT_n]
  else []

/-- Clear every instance of a counter register with two indexes. -/
def Dev.clearGrid (d : Dev) (r : RegD) : Dev :=
  (List.range r.cnt).foldl (fun d i => (List.range r.cnt2).foldl (fun d j => d.clearCount (r.at2 i j)) d) d

/-- R461: the CNT_CLEAR bit of the control register at `off`, or, with `arb`, CTX_CTRL.ARB_CLEAR. ZXP and ETH clear the
counters of their feeder or port. What a counter counts in the same cycle counts on from zero (R462). -/
def execCounterClear (off : Nat) (arb : Bool) (s : State) : Answer :=
  s.on fun d =>
    if d.glb.inReset then d
    else if arb then
      if off = R.CTX_CTRL.off then (d.clearGrid R.CTX_ARB_GRANT_p).clearGrid R.CTX_ARB_MAXWAIT_p else d
    else if R.ZXP_CTRL.covers off then
      let f := (off - R.ZXP_CTRL.off) / 0x400
      (List.range R.ZXP_CNT_n.cnt2).foldl (fun d j => d.clearCount (R.ZXP_CNT_n.at2 f j)) d
    else if R.ETH_n_CTRL.covers off then
      let n := (off - R.ETH_n_CTRL.off) / 0x1000
      let left (k : Nat) : Option (Nat × Nat) := (Maps.get? (R.ETH_n_CNT_k_LO.at2 n k) d.face.counted).map fun v => (k, v)
      d.setEth n { d.ethPort n with counters := (List.range 8).filterMap left, latched := [] }
    else (clearedBy off).foldl Dev.clearGrid d

end Sys2Proof.Machine
end

