-- ==== Sys2Proof/Machine/Mirror.lean ====
section
/-! DEFINITION. The Runner links (R425 to R427) and what their frames do: HELLO, the mirror and resynchronisation (R411 to R413),
forwarded commands, and frames forwarded between pairs (R423, R424). -/

namespace Sys2Proof.Machine

/-! ## Links -/

def Dev.setLink (d : Dev) (l : Nat) (x : Link) : Dev := { d with prl := { d.prl with links := Maps.put d.prl.links l x } }

/-- SEQ `a` is at or before `b` in the 16-bit sequence. -/
def seqLe (a b : Nat) : Bool := decide ((b + 65536 - a) % 65536 < 32768)

/-- A standby goes back to SYNCING, its data no longer trusted (R412, R413). One that is SYNCING already asks its partner to start
again. -/
def Dev.resyncAgain (d : Dev) : Dev :=
  let t := d.trellis.device
  let was := d.pairState
  let d := { d with prl := { d.prl with synced := false } }
  let d := (d.set F.PRL_RESYNC_PHASE 1).setPair PairSt.syncing
  if was = PairSt.syncing then d.sendRunner t.mirrorLink t.partner (.resync .again) else d

/-- The standby is out of step (R412). -/
def Dev.unfit (d : Dev) (why : Nat) : Dev :=
  if d.pairState = PairSt.standby ∨ d.pairState = PairSt.syncing then d.resyncAgain.raise F.PRL_INT_STATUS_STANDBY_FAULT why
  else d

/-- The link to the partner is down (R428): no takeover; commits go on alone, and a standby is unfit. -/
def Dev.partnerCut (d : Dev) : Dev :=
  let d := d.setPartner PairSt.unknown
  let d := { d with prl := { d.prl with hello := none } }
  if d.pairState = PairSt.active then
    let lost := !d.prl.outstanding.isEmpty
    let d := d.partnerGone
    if lost then d.raise F.ING_INT_STATUS_MIRROR_LOST else d
  else if d.pairState = PairSt.standby then d.unfit 2
  else d

/-- `l` is this device's link to its partner, in use. -/
def Dev.isMirrorLink (d : Dev) (l : Nat) : Bool :=
  l == d.trellis.device.mirrorLink && d.trellis.device.pairMode == 1 && d.prl.up

/-- A link goes down (R425): what it held is dropped, and it starts anew. -/
def Dev.linkDown (d : Dev) (l : Nat) : Dev :=
  let was := d.linkUp l
  let d := d.setLink l {}
  let d := ((d.set (F.PRL_L_STATUS_UP.at l) 0).set (F.PRL_L_STATUS_LANES.at l) 0).set (F.PRL_L_STATUS_MAP_MISMATCH.at l) 0
  let d := if was then (d.linkCount l 4).raise F.PRL_INT_STATUS_LINK_DOWN l else d
  if d.isMirrorLink l then d.partnerCut else d

/-- R425: block lock is lost for 1 ms. -/
def execRunnerLinkDown (link : Nat) (s : State) : Answer := s.on fun d => d.linkDown (link % 3)

/-- R425: all four lanes hold block lock and HELLO passes both ways. -/
def execRunnerLinkUp (link : Nat) (s : State) : Answer :=
  s.on fun d =>
    let l := link % 3
    if d.prl.up = false ∨ d.trellis.device.linkEnable.testBit l = false ∨ d.linkUp l then d
    else
      let d := ((d.set (F.PRL_L_STATUS_UP.at l) 1).set (F.PRL_L_STATUS_LANES.at l) 15).raise F.PRL_INT_STATUS_LINK_UP l
      if l = d.trellis.device.mirrorLink ∧ d.trellis.device.pairMode = 1 then d.helloOut else d

/-- R425: every unacknowledged frame goes again, in order, 20 µs after its last transmission; the 32nd time takes the link
down. -/
def execRunnerRetransmit (link : Nat) (s : State) : Answer :=
  s.on fun d =>
    let l := link % 3
    let x := d.link l
    let due (u : Unacked) : Bool := decide (u.sentAt + cyclesOf 20 ≤ d.cycles)
    if x.unacked.any fun u => due u && decide (32 ≤ u.tries) then d.linkDown l
    else
      let d := (x.unacked.filter due).foldl
        (fun d u => (d.emit (.runner l u.src u.dst u.hops u.seq x.ack u.msg true
          (runnerBytes u.msg true u.src u.dst u.hops u.seq x.ack))).linkCount l 3) d
      let again (u : Unacked) : Unacked := if due u then { u with sentAt := d.cycles, tries := u.tries + 1 } else u
      d.setLink l { x with unacked := x.unacked.map again }

/-- The frame's payload is for the pair's active device (R423). -/
def RunnerMsg.toActive : RunnerMsg → Bool
  | .forwardUp _ => true
  | .acceptNotice _ _ _ _ => true
  | .downConfirm _ _ => true
  | _ => false

/-- R425 to R427: a frame arrives: counted, checked and acknowledged; one for another position goes on; the rest is `f`'s. -/
def Dev.runnerIn (d : Dev) (h : RHdr) (m : RunnerMsg) (f : Dev → Dev) : Dev :=
  if d.prl.up = false ∨ 3 ≤ h.link then d
  else if h.crcOk m = false then d.linkCount h.link 2
  else
    let x := d.link h.link
    let x := { x with unacked := x.unacked.filter fun u => !seqLe u.seq h.ack }
    let d := d.setLink h.link x
    if h.seq ≠ (x.ack + 1) % 65536 then d
    else
      let d := (d.setLink h.link { x with ack := h.seq }).linkCount h.link 1
      let t := d.trellis.device
      if h.dst ≠ t.position ∧ ¬(m.toActive ∧ h.dst = t.partner) then
        if 4 ≤ h.hops + 1 then d.linkCount h.link 5
        else
          match d.routeTo h.dst with
          | some l => d.putFrame l h.src h.dst (h.hops + 1) m
          | none => d
      else if m.toActive ∧ d.serves = false ∧ d.get F.PRL_STATUS_PARTNER_STATE = PairSt.active then
        if 4 ≤ h.hops + 1 then d.linkCount h.link 5 else d.putFrame t.mirrorLink h.src t.partner (h.hops + 1) m
      else f d

/-! ## HELLO -/

/-- Send the entries after a line as the catch-up (R413), with the packages in its slots (R49) and C of every feeder (R106). -/
def Dev.sendCatchUp (d : Dev) (after : Nat) : Dev :=
  let t := d.trellis.device
  let d := d.sendHeld (d.zxp.feeders.toList.map (·.c))
  (d.jnl.entries.filter fun e => decide (after < e.line) && !e.rec_.ownRoot).foldl
    (fun d e => d.sendRunner t.mirrorLink t.partner (.resync (.entry e.line e.rec_))) d

/-- The snapshot of R413, as of a new line. -/
def Dev.sendSnapshot (d : Dev) : Dev :=
  let d := { d with jnl := { d.jnl with line := d.jnl.line + b2n (d.jnl.used != 0), used := 0 } }
  let open_ (e : Epoch) : Bool := e.recs.any fun r => decide (Maps.getD d.dur.confirmed r.ring 0 < r.seq)
  let t := d.trellis.device
  let gens := (List.range 11).map fun i => d.get (F.TRL_GEN_n_GENERATION.at (i + 1))
  let d := { d with trl := { d.trl with slots := d.trl.slots.map fun (x : Nat × Staged) => (x.1, { x.2 with partnerHas := true }) } }
  d.sendRunner t.mirrorLink t.partner
    (.resync (.snapshot d.jnl.line d.dur d.trellis gens d.trl.buildSerial d.trl.slots d.nfm.grafts (d.nfm.epochs.filter open_) d.dst.objects
      (d.zxp.feeders.toList.map (·.c))))

/-- R413: the active device starts a resynchronisation; after a commanded handover, catch-up only (R406). -/
def Dev.startResync (d : Dev) (catchUp : Bool) (after : Nat) : Dev :=
  let d := { d with
    prl := { d.prl with staged := [], sinceDigest := 0, crc := 0 }
    trl := { d.trl with slots := d.trl.slots.map fun (x : Nat × Staged) => (x.1, { x.2 with partnerHas := false }) } }
  let d := d.set F.PRL_RESYNC_PROGRESS 0
  if catchUp then (d.sendCatchUp after).set F.PRL_RESYNC_PHASE 2 else d.sendSnapshot.set F.PRL_RESYNC_PHASE 1

/-- What the partner's HELLO means to this device. -/
def Dev.partnerHello (d : Dev) (h : Hello) : Dev :=
  let was := d.get F.PRL_STATUS_PARTNER_STATE
  let d := { d with prl := { d.prl with hello := some h } }
  let since := if h.state ≠ PairSt.active then none
    else if was = PairSt.active then d.prl.partnerSince
    else if was = PairSt.unknown then none
    else some d.cycles
  let d := if h.state = PairSt.active then d else d.heldAges
  -- a partner in LISTEN, SYNCING or STANDBY releases PAIR_ACTIVE and PAIR_YIELD (R403; log entry 30)
  let lines := if h.state ≤ PairSt.standby then d.prl.lines ||| 9 else d.prl.lines
  let d := { d with prl := { d.prl with partnerSince := since } }.setLines lines
  let d := d.setPartner h.state
  if d.pairState ≠ PairSt.active then d.negotiate
  else if h.state = PairSt.standby then
    if was = PairSt.standby then d
    else
      let d := { d with prl := { d.prl with unsynced := false } }.showIng
      d.raise F.PRL_INT_STATUS_PARTNER_SYNCED
  else
    let d := if was = PairSt.standby then d.partnerGone else d
    if h.state = PairSt.syncing ∧ was ≠ PairSt.syncing then
      d.startResync (was == PairSt.out && h.cause == 0x80 && decide (3 ≤ d.get F.PRL_CAUSE_KIND)) h.confirmed
    else d

/-- R404, R426: a HELLO: the link's peer, its bucket map, and the partner's state. -/
def execHello (h : RHdr) (hello : Hello) (s : State) : Answer :=
  s.on fun d => d.runnerIn h (.hello hello) fun d =>
    let x := d.link h.link
    let d := (d.setLink h.link { x with mapDigest := some hello.mapDigest }).set (F.PRL_L_STATUS_PEER.at h.link) h.src
    let differs := hello.mapDigest ≠ d.helloOf.mapDigest
    let d :=
      if differs ∧ ¬d.flag (F.PRL_L_STATUS_MAP_MISMATCH.at h.link) then d.occur Ev.mapMismatch 0x10 h.link h.src else d
    let d := d.set (F.PRL_L_STATUS_MAP_MISMATCH.at h.link) (if differs then 1 else 0)
    let t := d.trellis.device
    if t.pairMode = 1 ∧ h.link = t.mirrorLink ∧ h.src = t.partner then d.partnerHello hello else d

/-! ## The mirror at the active device -/

/-- Entries a CONFIRM for line `l` confirms: every one of a lower line, and the first of that line (R411: one CONFIRM goes with
each entry). -/
def confirmedBy (l : Nat) : List Sent → List Sent × List Sent
  | [] => ([], [])
  | e :: es =>
    if e.line < l then match confirmedBy l es with | (a, b) => (e :: a, b)
    else if e.line = l then ([e], es)
    else ([], e :: es)

/-- R24, R411: a CONFIRM. It is ignored once control is given up (R406). -/
def execConfirm (h : RHdr) (line : Nat) (s : State) : Answer :=
  s.on fun d => d.runnerIn h (.confirm line) fun d =>
    if d.pairState ≠ PairSt.active then d
    else
      match confirmedBy line d.prl.outstanding with
      | (done, left) =>
        let d := { d with prl := { d.prl with outstanding := left } }
        let d := (d.set F.PRL_MIRROR_OUTSTANDING (satNat 16 left.length)).countBy R.PRL_CNT_n 1 done.length
        let d := match done.getLast? with
          | some e => d.set F.PRL_MIRROR_RTT (satNat 16 ((d.cycles - e.at_) * 100 / 12288))
          | none => d
        let whole := if left.any fun e => decide (e.line ≤ line) then line - 1 else line
        let d := { d with jnl := { d.jnl with mirrored := max d.jnl.mirrored whole } }
        let d := d.setWide R.PRL_CONFIRMED_LO R.PRL_CONFIRMED_HI 0 d.jnl.mirrored
        let d := done.foldl
          (fun d e => match e.meter with
            | some m =>
              match Maps.get? m d.eng.flight with
              | some w => if w.stage = .mirror ∧ w.line = e.line then d.commitItem m else d
              | none => d
            | none => d) d
        (d.releaseAccepts (some done.length)).handoverCheck

/-! ## The mirror at the standby -/

/-- R411: the standby archives a reading record, tagged or signed under its own keys. -/
def Dev.archiveMirrored (d : Dev) (r : ReadingRec) : Dev :=
  if r.noRecord ∨ r.statusOnly then d
  else
    let ring := ((d.trellis.class? r.body.cls).map (·.ring)).getD 0
    let ecdsa := d.ecdsaRecord ring r.body.count
    let key := d.recordKey ecdsa r.body.seq
    let put (d : Dev) (bytes : Option Bytes) (plain : Bool) : Dev :=
      d.archive { seq := r.body.seq, ring := ring, bytes := bytes, ecdsa := ecdsa, unsignedRec := plain }
    match key with
    | none => put d (some (d.plainRecord r.body ecdsa d.noKeyStatus)) true
    | some k =>
      -- R313: a signature waits while the DRBG is stopped
      if ecdsa && !d.drbgRuns then put d none false
      else
        match d.sealRecord r.body ecdsa k with
        | (b, d) => put d (some b) false

/-- The mains cycle number of a feeder, from the active device (R106). -/
def Dev.adoptCycle (d : Dev) (f c : Nat) : Dev :=
  if c = 0 then d else d.setZxFeeder f { d.zxFeeder f with c := c, started := true }

/-- What an applied entry shows at the standby. -/
def Dev.showApplied (d : Dev) : JRec → Dev
  | .reading r => d.archiveMirrored r
  | .campaign slot c =>
    let d := if c.isNone then { d with
        dst := { d.dst with objects := Maps.del slot d.dst.objects }, nfm := { d.nfm with objects := Maps.del slot d.nfm.objects } } else d
    d.showCamp slot
  | .campMember slot _ _ => d.showCamp slot
  | .arm slot st => d.putSlot slot st
  | .disarm slot => d.emptySlot slot
  | .cycle f c => d.adoptCycle f c
  | .root slot _ => d.takeS slot
  | .alloc _ _ => d.showCtx
  | .free _ => d.showCtx
  | _ => d

/-- R411: append an entry to this device's own journal under the active device's line, and apply it. -/
def Dev.applyMirrored (d : Dev) (line : Nat) (rec_ : JRec) : Dev :=
  let j := d.jnl
  let same := decide (line = j.line) && decide (j.used ≠ 0)
  let e : JEntry := { line := line, unit := if same then j.used else 1, rec_ := rec_ }
  let seq := match rec_ with
    | .reading r => max j.lastSeq r.body.seq
    | _ => j.lastSeq
  let j := { j with
    entries := j.entries ++ [e], line := line, used := e.unit + rec_.units, mirrored := line, lastSeq := seq
    readings := j.readings + b2n (rec_.counter == 0) }
  let own := d.dur.roots
  let d := { d with jnl := j, dur := d.dur.apply d.readEnv e }
  let d := match rec_ with
    | .root slot _ => if (Maps.getD own slot ⟨0, 0, 0⟩).kind = Kind.sign then { d with dur := { d.dur with roots := own } } else d
    | _ => d
  let d := { d with prl := { d.prl with applied := d.prl.applied.erase rec_ } }
  let d := (d.setWide R.JNL_LINE_LO R.JNL_LINE_HI 0 line).count R.JNL_CNT_n rec_.counter
  let d := (d.set F.JNL_STATUS_UNDRAINED d.jnl.undrained).setWide R.PRL_CONFIRMED_LO R.PRL_CONFIRMED_HI 0 line
  d.showApplied rec_

/-- The next entry's line follows: the line in progress, or the one after it (R412). -/
def Dev.lineFollows (d : Dev) (line : Nat) : Bool :=
  decide (d.jnl.line ≤ line) && decide (line ≤ d.jnl.line + b2n (d.jnl.used != 0))

/-- Receives the mirror: SYNCING with its snapshot, or STANDBY. -/
def Dev.takesMirror (d : Dev) : Bool := d.pairState == PairSt.standby || (d.pairState == PairSt.syncing && d.prl.synced)

/-- R411, R412: a MIRROR entry: appended, applied and confirmed; a gap or repeat makes the standby unfit. -/
def execMirror (h : RHdr) (line : Nat) (rec_ : JRec) (s : State) : Answer :=
  s.on fun d => d.runnerIn h (.mirror line rec_) fun d =>
    if d.takesMirror = false then d
    else if d.lineFollows line = false then d.unfit 0
    else
      let crc := (mirrorCrc (BitVec.ofNat 64 d.prl.crc) line rec_).toNat
      let d := { d with prl := { d.prl with crc := crc, sinceDigest := d.prl.sinceDigest + 1 } }
      (d.applyMirrored line rec_).sendRunner h.link h.src (.confirm line)

/-- R412: a DIGEST frame. -/
def execDigest (h : RHdr) (crc : Nat) (s : State) : Answer :=
  s.on fun d => d.runnerIn h (.digest crc) fun d =>
    if d.takesMirror = false then d
    else
      let same := decide (crc = d.prl.crc)
      let d := { d with prl := { d.prl with crc := 0, sinceDigest := 0 } }
      if same then d else (d.count R.PRL_CNT_n 9).unfit 1

/-- R412: every 10 min the standby tests its engines. -/
def execStandbySelftest (ok : Bool) (s : State) : Answer :=
  s.on fun d =>
    if d.pairState = PairSt.standby ∨ d.pairState = PairSt.syncing then
      let d := { d with prl := { d.prl with enginesOk := ok } }.showLines
      if ok then d else d.unfit 3
    else d

/-! ## Resynchronisation -/

/-- R296: kinds whose roots the two devices hold alike. -/
def sharedKind (m : SlotMeta) : Bool := m.kind != Kind.sign && m.kind != 0

/-- R296: the slots of shared kinds agree. -/
def rootsAgree (a b : List (Nat × SlotMeta)) : Bool :=
  (a.filter fun p => sharedKind p.2) == b.filter fun p => sharedKind p.2

/-- R413: take the active device's snapshot. This device keeps its own DEVICE record, slot metadata and event reservations. -/
def Dev.takeSnapshot (d : Dev) (line : Nat) (dur : Dur) (t : Trellis) (gens : List Nat) (serial : Nat) (slots : List (Nat × Staged))
    (grafts : List (Nat × Package)) (epochs : List Epoch) (objects : List (Nat × Bytes)) (cycles : List Nat) : Dev :=
  let agrees := rootsAgree dur.roots d.dur.roots && serial == d.trl.buildSerial
  let mine : Dur := { dur with roots := d.dur.roots, evReserved := max dur.evReserved d.dur.evReserved }
  let j := { d.jnl with
    entries := [], line := line, used := 0, drained := line, ckpt := some mine, ckptLine := line, ckptBusy := none, readings := 0, overflow := []
    lastSeq := max d.jnl.lastSeq (dur.seqNext - 1), mirrored := line - 1 }
  let next := (epochs.map fun e => e.number + 1).foldl max d.nfm.epochNext
  let n := { d.nfm with
    epochs := epochs.map fun e => { e with full := true }, epochNext := next, filling := [], programming := [], grafts := grafts, objects := objects }
  let d := { d with
    dur := mine, jnl := j, nfm := n
    trl := { d.trl with live := some { t with device := d.trellis.device }, slots := slots }
    dst := { d.dst with objects := objects }
    prl := { d.prl with synced := true, agrees := agrees, applied := [] } }
  let d := gens.zipIdx.foldl (fun d g => d.set (F.TRL_GEN_n_GENERATION.at (g.2 + 1)) g.1) d
  let d := (List.range 3).foldl Dev.showSlot d
  let d := cycles.zipIdx.foldl (fun d c => d.adoptCycle c.2 c.1) d
  let d := (List.range 16).foldl Dev.showCamp d
  d.showCtx.showOverflow.showOldest

/-- R49: a SYNCING standby takes the packages that fit its own structure. -/
def Dev.takeSlots (d : Dev) (slots : List (Nat × Staged)) : Dev :=
  slots.foldl (fun d x =>
    if fitsLive (d.bsCtx 2 none x.1) d.trellis d.trl.buildSerial d.liveGen d.calsInUse x.2.pkg then d.putSlot x.1 x.2 else d) d

/-- The item begins a resynchronisation. -/
def ResyncItem.fresh : ResyncItem → Bool
  | .snapshot .. => true
  | _ => false

/-- R413: a RESYNC frame reaches a SYNCING standby; the active device starts again where its partner asks for it. -/
def execResync (h : RHdr) (i : ResyncItem) (s : State) : Answer :=
  s.on fun d => d.runnerIn h (.resync i) fun d =>
    if i = .again then
      if d.pairState = PairSt.active ∧ d.get F.PRL_STATUS_PARTNER_STATE = PairSt.syncing then d.startResync false 0 else d
    else
      let d := if i.fresh ∧ d.pairState = PairSt.standby then (d.set F.PRL_RESYNC_PHASE 1).setPair PairSt.syncing else d
      if d.pairState ≠ PairSt.syncing then d
      else
        match i with
        | .snapshot line dur t gens serial slots grafts epochs objects cycles =>
          d.takeSnapshot line dur t gens serial slots grafts epochs objects cycles
        | .entry line rec_ =>
          if d.prl.synced = false then d
          else if d.lineFollows line = false then d.unfit 0
          else (d.applyMirrored line rec_).sendRunner h.link h.src (.confirm line)
        | .held slots cycles =>
          let d := d.takeSlots slots
          cycles.zipIdx.foldl (fun d c => d.adoptCycle c.2 c.1) d
        | .again => d

/-- R413: the standby is live: STANDBY once its data, roots, serial and engines agree; else it stays SYNCING, and both devices
set PAIR_MISMATCH for roots that differ (R296). -/
def Dev.goStandby (d : Dev) : Dev :=
  let t := d.trellis.device
  if d.prl.synced && d.prl.agrees && d.prl.enginesOk then (d.set F.PRL_RESYNC_PROGRESS 100).setPair PairSt.standby
  else if d.prl.agrees then d
  else (d.raise F.KEY_INT_STATUS_PAIR_MISMATCH).sendRunner t.mirrorLink t.partner (.applied false)

/-- R413: a phase of the resynchronisation ends. -/
def execResyncPhaseDone (s : State) : Answer :=
  s.on fun d =>
    let p := d.get F.PRL_RESYNC_PHASE
    let t := d.trellis.device
    if d.pairState = PairSt.active then
      if p = 1 then
        let staged := d.prl.staged
        let d := ({ d with prl := { d.prl with staged := [] } }.set F.PRL_RESYNC_PHASE 2).set F.PRL_RESYNC_PROGRESS 0
        staged.foldl (fun d e => d.sendRunner t.mirrorLink t.partner (.resync (.entry e.1 e.2))) d
      else if p = 2 then d.set F.PRL_RESYNC_PHASE 3
      else d
    else if d.pairState = PairSt.syncing then
      if p = 1 then if d.prl.synced then d.set F.PRL_RESYNC_PHASE 2 else d
      else if p = 2 then (d.set F.PRL_RESYNC_PHASE 3).goStandby
      else if p = 3 then d.goStandby
      else d
    else d

/-- R413: PRL_CMD RESYNC. -/
def execPrlResync (s : State) : Answer :=
  s.on fun d => d.prlCmd fun d =>
    let partner := d.get F.PRL_STATUS_PARTNER_STATE
    if d.pairState = PairSt.active ∧ partner = PairSt.standby then
      -- the partner leaves STANDBY with the snapshot
      ((d.setPartner PairSt.syncing).partnerGone.startResync false 0).prlDone 0
    else if d.pairState = PairSt.active ∧ partner = PairSt.syncing then (d.startResync false 0).prlDone 0
    else if d.pairState = PairSt.standby ∨ d.pairState = PairSt.syncing then d.resyncAgain.prlDone 0
    else d.prlDone 1

/-! ## Forwarded commands -/

/-- The standby applies a command that the active device forwards (R49, R189, R245, R263, R296): whether it could. -/
def Dev.applyCmd (d : Dev) (c : PairCmd) : Bool × Dev :=
  let keep (d : Dev) : Dev :=
    let d := { d with dur := c.recs.foldl Dur.control d.dur, prl := { d.prl with applied := d.prl.applied ++ c.recs } }
    c.recs.foldl Dev.showApplied d
  match c.finish with
  | .root slot kcv =>
    match d.clo.candidate with
    | some x => if x.slot = slot ∧ kcvOf 16 x.root = kcv ∧ x.verified then (true, d.commitAhead x) else (false, d)
    | none => (false, d)
  | .trl _ =>
    match c.stage with
    | some p =>
      if fitsLive (d.bsCtx 2 none p.1) d.trellis d.trl.buildSerial d.liveGen d.calsInUse p.2.pkg then (true, (keep d).putSlot p.1 p.2)
      else (false, d)
    | none => (true, keep d)
  | _ =>
    match c.object with
    | some (slot, x, object) =>
      -- R263, step 4: the object agrees with its descriptor
      if object.length = x.length ∧ (Crypto.sha256 object).toNat = x.hash then
        (true, { keep d with
          dst := { d.dst with objects := Maps.put d.dst.objects slot object }
          nfm := { d.nfm with objects := Maps.put d.nfm.objects slot object } })
      else (false, d)
    | none => (true, keep d)

/-- The active device completes its oldest forwarded command (R189); one that the standby could not apply ends with its own
result (R296; for STAGE PARTNER_NOT_STAGED, log entry 74). -/
def Dev.cmdApplied (d : Dev) (ok : Bool) : Dev :=
  match d.prl.pendingCmds with
  | [] => if ok then d else d.raise F.KEY_INT_STATUS_PAIR_MISMATCH
  | c :: rest =>
    let d := { d with prl := { d.prl with pendingCmds := rest } }
    match ok, c.finish with
    | false, .root _ _ => d.keyDone Kr.partnerNotReady
    | false, .trl slot => d.finish 0x10 (.trl slot)
    -- R263: the device waits until the standby has verified the object; it is sent again
    | false, .load _ => d
    | _, _ => d.completeCmd c

/-- R189: a COMMAND frame: a command that the standby applies, or, with none, the answer to one. -/
def execCommand (h : RHdr) (c : Option PairCmd) (ok : Bool) (s : State) : Answer :=
  s.on fun d =>
    match c with
    | some c =>
      d.runnerIn h (.command c) fun d =>
        if d.takesMirror then
          match d.applyCmd c with
          | (ok, d) => d.sendRunner h.link h.src (.applied ok)
        else d
    | none => d.runnerIn h (.applied ok) fun d => if d.pairState = PairSt.active then d.cmdApplied ok else d

/-! ## Frames between pairs -/

/-- R423: a forwarded meter frame is staged at its owner, which takes it apart anew. -/
def execForwardUp (h : RHdr) (f : Staged0) (s : State) : Answer :=
  s.on fun d => d.runnerIn h (.forwardUp f) fun d =>
    let d := d.count R.PRL_CNT_n 5
    let at_ := 1000000000 * f.rxSec + f.rxNs
    let whole := if f.frame.medium = 2 then f.frame else (parseFrame (f.frame.medium == 1) f.frame.raw).getD f.frame
    let f := { f with rxSec := at_ / 1000000000, rxNs := at_ % 1000000000, frame := d.readIes whole }
    let d := match d.ctxOf? f.frame.address f.frame.mbus with
      | some m => { d with fhm := { d.fhm with foreign := Maps.put d.fhm.foreign m (h.src, f.frame.destPan) } }
      | none => d
    d.stage { f with source := 2, via := h.link }

/-- R175: an acceptance notice stands for the commit of the frame it names. -/
def execAcceptNotice (h : RHdr) (eui counter : Nat) (rx1 rx2 : Psdu) (s : State) : Answer :=
  s.on fun d => d.runnerIn h (.acceptNotice eui counter rx1 rx2) fun d =>
    match d.windowOf? eui counter with
    | some w => d.arrived { w with committed := true, notice := some (rx1, rx2) }
    | none => d

/-- The head that heard a meter last. -/
def Dev.lastHead (d : Dev) (eui : Nat) : Option Nat :=
  (d.fhm.heard.reverse.find? fun x => x.meter == eui).map (·.head)

/-- A forwarded downlink's instant opens a receive window of the meter here (R82). -/
def Dev.opensWindow (d : Dev) (eui t0 : Nat) : Bool :=
  d.fhm.windows.any fun w => w.addr == eui && (d.windowAt w.endNs 1 == t0 || d.windowAt w.endNs 2 == t0)

/-- R78, R99, R424: a forwarded downlink, ordered through the head that heard the meter: as a response in its receive window, or
as unslotted CSMA-CA from the centre of its wake window. -/
def execForwardDown (h : RHdr) (id eui t0 : Nat) (psdu : Psdu) (s : State) : Answer :=
  s.on fun d => d.runnerIn h (.forwardDown id eui t0 psdu) fun d =>
    let refuse (d : Dev) : Dev := (d.sendTo h.src (.downConfirm id Tx.lost) true).getD d
    match d.lastHead eui with
    | none => refuse d
    | some head =>
      let x := d.headRt head
      if x.orderable = false then refuse d
      else if d.windowFits x t0 psdu.len = false then refuse (d.count R.FHM_CNT_n 8)
      else
        if d.opensWindow eui t0 then d.orderWindow head t0 psdu (.partner h.src id) 0 0 none
        else
          match d.csma x.rate t0 with
          | (t, offs, d) =>
            match d.newOrder head x.rxCh true true false t offs psdu (.partner h.src id) with
            | (o, d) => d.sendOrder { o with sfdEnd := t0 }

/-- R424: the confirm of a forwarded downlink. -/
def execDownConfirm (h : RHdr) (id status : Nat) (s : State) : Answer :=
  s.on fun d => d.runnerIn h (.downConfirm id status) fun d =>
    match d.order? foreignHead id with
    | some o => (d.dropOrder foreignHead id).orderOutcome o status
    | none => d

end Sys2Proof.Machine
end

