-- ==== Sys2Proof/Machine/TimeEvents.lean ====
section
/-! DEFINITION. Time events in their order (R233): interval ends, period boundaries, and calendar and other Graft applications (R51,
R55) with the commands that reach them. -/

namespace Sys2Proof.Machine

/-- What is armed, as (instant, kind, slot or target): packages (kind 3), campaign activations (4) and broadcast rolls (5), the last
two where this device holds control (log entry 43). -/
def Dev.armed (d : Dev) : List (Nat × Nat × Nat) :=
  let grafts := d.trl.slots.filterMap fun x => x.2.armedAt.map fun t => (t, 3, 0)
  let camps := d.dur.campaigns.filterMap fun x =>
    if x.2.state = Cs.active ∧ x.2.act ≠ 0 ∧ x.2.activated = false then some (x.2.act, 4, x.1) else none
  let rolls := d.key.rolls.map fun r => (r.2.1, 5, r.1)
  grafts.eraseDups ++ if d.serves then camps ++ rolls else []

/-- What is armed before a time event of kind `kind` at `at_`, in the order of instants and kinds. -/
def Dev.armedBefore (d : Dev) (at_ kind : Nat) : List (Nat × Nat × Nat) :=
  (d.armed.filter fun x => decide (x.1 < at_) || (x.1 == at_ && decide (x.2.1 < kind))).foldl (fun l x => eventIns x l) []

/-- The packages armed for an instant apply, after the time events that go before them. -/
def Dev.applyInOrder (d : Dev) (t : Nat) (damaged : List Nat) : Dev := (d.markBefore t 3).applyAt t damaged

/-- R308: the roll of a target: its frames switch to the next generation. -/
def Dev.rollNow (d : Dev) (target : Nat) : Dev :=
  match d.key.rolls.find? (·.1 == target) with
  | none => d
  | some r =>
    if d.tsu.sec < r.2.1 then d
    else
      let d := { d with key := { d.key with rolls := d.key.rolls.filter (·.1 ≠ target) } }
      let d := d.journal (.time 5 0 r.2.1 0)
      (d.journal (.bcastGen target ((d.bcastGen target + 1) % 65536) r.2.2)).raise F.KEY_INT_STATUS_BCAST_ROLLED target

/-- What is armed comes. -/
def Dev.armedComes (d : Dev) (x : Nat × Nat × Nat) : Dev :=
  if x.2.1 = 3 then d.applyInOrder x.1 []
  else if x.2.1 = 4 then (d.markBefore x.1 3).activate x.2.2
  else (d.markBefore x.1 3).rollNow x.2.2

/-- R233: what goes before a time event of kind `kind` at `at_`: what is armed for earlier, interval ends and boundaries. -/
def Dev.eventsUpTo (d : Dev) (at_ kind : Nat) : Dev :=
  ((d.armedBefore at_ kind).foldl Dev.armedComes d).markBefore at_ kind

/-- R342, R371: every time event whose instant is reached comes. -/
def Dev.eventsNow (d : Dev) : Dev := d.eventsUpTo (d.tsu.sec + 1) 0

/-- R233: the demand grid of a calendar instance ends at `at_`: its marker. -/
def execIntervalEnd (inst at_ : Nat) (s : State) : Answer :=
  s.on fun d => if d.tsu.sec < at_ then d else (d.eventsUpTo at_ 1).timeEvent 1 inst at_

/-- R233: a billing period boundary of an instance is reached. -/
def execPeriodBoundary (inst boundary : Nat) (s : State) : Answer :=
  s.on fun d => if d.tsu.sec < boundary then d else (d.eventsUpTo boundary 2).timeEvent 2 inst boundary

/-- R51, R55: an armed package's instant is reached: it applies in one cycle with those armed for the same instant, after what R233
puts before it. `damaged` are slots whose copy holds an uncorrectable error. -/
def execGraftApply (slot : Nat) (damaged : List Nat) (s : State) : Answer :=
  s.on fun d =>
    match (Maps.get? slot d.trl.slots).bind (·.armedAt) with
    | none => d
    | some t =>
      if d.tsu.sec < t ∨ (d.trlState ≠ Trl.sealed ∧ d.trlState ≠ Trl.structured) then d
      else (d.eventsUpTo t 3).applyInOrder t damaged

/-- R278: the activation instant is reached. -/
def execCampaignActivation (slot : Nat) (s : State) : Answer :=
  s.on fun d =>
    match Maps.get? slot d.dur.campaigns with
    | some c => if c.act = 0 ∨ d.tsu.sec < c.act then d else (d.eventsUpTo c.act 4).activate slot
    | none => d

/-- R308: the roll instant of a target. -/
def execBcastRollInstant (target : Nat) (s : State) : Answer :=
  s.on fun d =>
    match d.key.rolls.find? (·.1 == target) with
    | some r => if d.tsu.sec < r.2.1 then d else (d.eventsUpTo r.2.1 5).rollNow target
    | none => d

/-- R48, R55: CANCEL. Where the slot's instant is reached, the package applies first; then, as in the cycle in which an
application has emptied the slot, it is TOO_LATE. A standby keeps its copy of a package that is only staged (log entry 96). -/
def execTrlCancel (slot : Nat) (s : State) : Answer :=
  s.on fun d => d.trlCmd true (some slot) fun d =>
    match Maps.get? slot d.trl.slots with
    | none => d.trlDone (if Maps.get? slot d.trl.emptiedAt = some d.cycles then Res.tooLate else Res.badState) (some slot)
    | some st =>
      match st.armedAt with
      | none => (d.emptySlot slot).trlDone Res.ok (some slot)
      | some t =>
        if t ≤ d.tsu.sec then (d.applyInOrder t []).trlDone Res.tooLate (some slot)
        else ((d.journal (.disarm slot)).emptySlot slot).trlDone Res.ok (some slot)

end Sys2Proof.Machine
end

