-- ==== Sys2Proof/Machine/Startup.lean ====
section
/-! DEFINITION. Resets (R470, R484), the start-up steps (R473 to R475, R397, R40, R45, R52, R373), power fail (R371, R372)
and the way out of the locked states (R311). -/

namespace Sys2Proof.Machine

/-! ## Reset lines -/

/-- R470: a reset by RESET_N, PWRGOOD or both: it holds the device until they are high. -/
def execResetAssert (resetN pwrgood : Bool) (s : State) : Answer :=
  s.on fun d =>
    if resetN = false ∧ pwrgood = false then d
    else
      let d := d.restart ((if resetN then Rc.resetN else 0) + if pwrgood then Rc.pwrgood else 0)
      { d with glb := { d.glb with
        inReset := true, resetNLow := d.glb.resetNLow || resetN, pwrgoodLow := d.glb.pwrgoodLow || pwrgood } }

/-- The reset ends once nothing holds it; start-up begins (R473). -/
def Dev.leaveReset (d : Dev) : Dev :=
  if d.glb.inReset && !d.glb.resetNLow && !d.glb.pwrgoodLow && !d.glb.tripHeld then
    { d with glb := { d.glb with inReset := false, released := d.cycles } }
  else d

/-- R470, R473: RESET_N is released, with the level of PWRGOOD. -/
def execResetRelease (pwrgood : Bool) (s : State) : Answer :=
  s.on fun d => { d with glb := { d.glb with resetNLow := false, pwrgoodLow := !pwrgood } }.leaveReset

/-- R484: the die has been at 135 °C for 1 ms: a reset that holds itself. -/
def execThermalTrip (s : State) : Answer :=
  s.on fun d =>
    let d := d.restart Rc.thermal
    { d with glb := { d.glb with inReset := true, tripHeld := true } }

/-- R484: the die has cooled below the limit. -/
def execThermalTripRelease (s : State) : Answer :=
  s.on fun d => { d with glb := { d.glb with tripHeld := false } }.leaveReset

/-! ## Steps 3 and 4 -/

def Boot.starting : Nat := 0
def Boot.normal : Nat := 1
def Boot.noTrellis : Nat := 2
def Boot.tamperLocked : Nat := 3
def Boot.vaultLost : Nat := 4
def Boot.halted : Nat := 5

def Dev.stepDone (d : Dev) (n : Nat) : Dev := d.set F.GLB_BOOT_STEP n

/-- R475: start-up stops. -/
def Dev.halt (d : Dev) (cause : Nat) : Dev :=
  ((d.set F.GLB_BOOT_STATE Boot.halted).set F.GLB_BOOT_HALT_CAUSE cause).raise F.GLB_INT_STATUS_HALTED cause

/-- R332, R386: the counter takes the Cloche's time: floor((count + OFFSET) / 32,768) s. -/
def Dev.loadTime (d : Dev) : Dev :=
  let t := (((d.clo.count : Int) + d.anchorTicks) % 2 ^ 63).toNat
  { d with tsu := { d.tsu with sec := t / 32768 % 2 ^ 48, ns := t % 32768 * 1000000000 / 32768 } }.validate

/-- What the key block shows of the Cloche's vault and candidate. -/
def Dev.showVault (d : Dev) : Dev := (d.set F.KEY_SLOTS_PRESENT (d.clo.vault.map fun p => 2 ^ p.1).sum).showCand

/-- R289: a slot whose root does not agree with its metadata reads as empty, and so does a slot without metadata. -/
def Dev.checkSlots (d : Dev) (roots : List (Nat × SlotMeta)) : Dev :=
  let good (p : Nat × Masked) : Bool :=
    match Maps.get? p.1 roots with
    | some m => m.kind != 0 && kcvOf 16 (p.2.stored ^^^ p.2.mask) == m.kcv
    | none => false
  { d with clo := { d.clo with vault := d.clo.vault.filter good } }.showVault

/-- The slot metadata that the checkpoint and the journal after it hold (R289). -/
def Journal.roots (j : Journal) : List (Nat × SlotMeta) :=
  j.entries.foldl (fun l e => match e.rec_ with
    | .root s m => putOpt l s m
    | _ => l) ((j.ckpt.map (·.roots)).getD [])

/-- R332: the counter at start-up: the Cloche's time, or zero where its oscillator has stopped or its backup is lost or invalid. -/
def Dev.bootTime (d : Dev) : Dev :=
  if d.flag F.CLO_STATUS_OSC_STOPPED = false ∧ d.flag F.CLO_STATUS_RET_LOST = false ∧ d.flag F.CLO_STATUS_BKP_VALID then d.loadTime
  else { d with tsu := { d.tsu with sec := 0, ns := 0, frac := 0 } }

/-- R397: the state and Cloche time by the first row that applies, and what is logged. -/
def Dev.bootCloche (d : Dev) : Dev :=
  let osc := d.flag F.CLO_STATUS_OSC_STOPPED
  let d := d.bootTime
  let latch := d.get F.CLO_TAMPER_LATCH_SOURCE
  let d := d.checkSlots d.jnl.roots
  let d :=
    if d.flag F.CLO_STATUS_RET_LOST then (d.set F.KEY_STATUS_STATE 2).occur Ev.retLost 0xF
    else if latch ≠ 0 then
      (List.range 13).foldl
        (fun d n => if bitAt latch n then d.occur 1 0xF n (Maps.getD d.clo.records n {}).count else d) (d.set F.KEY_STATUS_STATE 1)
    else if osc then d.occur Ev.oscStopped 0xF
    else d
  let fired := d.get F.CLO_ALARM_CTRL_FIRED_ON_BATTERY
  let d := (List.range 4).foldl (fun d n => if bitAt fired n then d.occur Ev.alarmOnBattery 0xF n else d) d
  if d.flag F.CLO_STATUS_ENTROPY_CELL_FAIL then d.occur Ev.entropyFail 0xF else d

/-- Step 3: it waits while POWER_FAIL_N is low (R472). -/
def Dev.step3 (d : Dev) : Dev :=
  if d.glb.powerFail then { d with glb := { d.glb with failWait := true } }
  else
    let d := ((d.set F.GLB_CLOCK_ROOT_LOCK 1).set F.GLB_CLOCK_SD_LOCK 1).set F.GLB_CLOCK_PCIE_LOCK (b2n (!d.glb.perstLow))
    d.bootCloche.stepDone 3

/-- Step 4: the self-test; the DRBG seeds. -/
def Dev.step4 (d : Dev) (failed : Nat) : Dev :=
  if failed % 128 ≠ 0 then (d.set F.GLB_SELFTEST_FAILED failed).halt 1
  else ((d.set F.KEY_STATUS_ENTROPY_OK 1).set F.KEY_STATUS_DRBG_RUN 1).stepDone 4

/-! ## Steps 5 to 7: the Trellis -/

/-- A source of R40: NOR, NAND current, NAND previous. -/
def Nand.source (n : Nand) : Nat → Option Bytes
  | 0 => some (n.nor.getD [])
  | 1 => n.current
  | _ => n.previous

/-- R41: no copy passes, and no base is live. -/
def Dev.noTrellis (d : Dev) (error : Nat) : Dev :=
  ((d.dropBase.set F.TRL_STATUS_STATE Trl.noTrellis).set F.TRL_STATUS_ERROR error).set F.GLB_BOOT_STATE Boot.noTrellis

/-- R40: the sources from `k` on; the first argument counts those left. -/
def Dev.loadFrom : Nat → Nat → Dev → Dev
  | 0, _, d => d.noTrellis (d.get F.TRL_STATUS_ERROR)
  | n + 1, k, d =>
    match d.nfm.source k with
    | none => Dev.loadFrom n (k + 1) d
    | some b =>
      let c := d.bsCtx 1 none 0
      let r := verifyBase c [] b
      let d := d.reportLoad c (k + 1) b r
      match r with
      | .error e =>
        let d := { d with trl := { d.trl with failed := d.trl.failed + e.code * 2 ^ (8 * k) } }
        Dev.loadFrom n (k + 1) (d.set F.TRL_STATUS_ERROR e.code)
      | .ok p =>
        let d := ({ d with trl := { d.trl with nextSource := k + 1 } }.takeBase p).set F.TRL_STATUS_SOURCE (k + 1)
        let d := if k = 0 then d else (d.set F.TRL_STATUS_FALLBACK 1).occur Ev.trellisFallback 1 (k + 1) d.trl.failed
        (d.set F.TRL_STATUS_STATE Trl.loading).stepDone 5

/-- Step 5, from the next source to try. -/
def Dev.step5 (d : Dev) : Dev :=
  let k := d.trl.nextSource
  Dev.loadFrom (3 - k) k (d.set F.TRL_STATUS_STATE Trl.loading)

/-- Step 6: the structure applies: rings, measurement channels and links show it, and identity memories are read (R147). -/
def Dev.step6 (d : Dev) (modules : List (List (Option Bytes) × List (Option Bytes))) : Dev :=
  let t := d.trellis
  let d := (List.range 64).foldl
    (fun d n =>
      let r := d.env.ring n
      let d := (d.set (F.RNG_n_CFG_ENABLED.at n) (b2n (r.content != 0))).set (F.RNG_n_CFG_DIRECTION.at n) r.direction
      let d := (d.set (F.RNG_n_CFG_CONTENT.at n) r.content).set (F.RNG_n_CFG_SIGNED.at n) (b2n r.signed)
      d.set (F.RNG_n_CFG_VECTOR.at n) r.vector) d
  let d := t.msrChans.foldl (fun d c => d.set (F.MSR_CH_STATUS_ENABLED.at c.channel) (b2n c.enabled)) d
  let others := (List.range 3).filter fun l => t.device.linkEnable.testBit l && l != t.device.mirrorLink
  let role (l : Nat) : Nat :=
    if t.device.linkEnable.testBit l = false then 3
    else if l = t.device.mirrorLink then 0
    else if others.head? = some l then 1 else 2
  let d := (List.range 3).foldl (fun d l => d.set (F.PRL_L_STATUS_ROLE.at l) (role l)) d
  let d := (List.range 4).foldl
    (fun d n =>
      match modules[n]? with
      | some (front, line) => if t.msrChans ≠ [] then d.readModule n front line else d
      | none => d) d
  (d.set F.TRL_STATUS_STATE Trl.structured).stepDone 6

/-- R52: a stored Graft package is applied again, or discarded. -/
def Dev.reapply (d : Dev) (bad : List Nat) (x : Nat × Package) : Dev :=
  let drop (d : Dev) : Dev := { d with nfm := { d.nfm with grafts := d.nfm.grafts.filter fun y => y != x } }
  if x.2.baseSerial ≠ d.trl.buildSerial then (drop d).occur Ev.graftDiscarded 1 x.1 (x.2.baseSerial % 2 ^ 32)
  else if bad.contains x.1 then
    ((drop d).set (F.TRL_SLOT_STATUS_LAST_RESULT.at x.1) 0x15).raise F.TRL_INT_STATUS_GRAFT_FAILED x.1
  else d.takeSections x.2

/-- R45, R455: the seal. -/
def Dev.sealUp (d : Dev) : Dev := ({ d with trl := { d.trl with sealed := true } }.set F.TRL_STATUS_STATE Trl.sealed).fillBuckets

/-- The end of step 7: sealed, and stored Grafts reapplied (R52). -/
def Dev.endStep7 (d : Dev) (bad : List Nat) : Dev :=
  let d := if d.trl.sealed then d.set F.TRL_STATUS_STATE Trl.sealed else d.sealUp
  let d := d.nfm.grafts.foldl (fun d x => d.reapply bad x) { d with glb := { d.glb with sealWait := false } }
  d.stepDone 7

/-- Step 7: LPDDR5 (R22), ZONE_MODEL from the same source again (R43), and the seal (R45). Where the second digest fails, the
rejection is logged (R488) and the base is dropped. -/
def Dev.step7 (d : Dev) (r : StepReport) : Dev :=
  let d := ((d.set F.GLB_MEM_CH0 r.ch0).set F.GLB_MEM_CH1 r.ch1).set F.GLB_CLOCK_DDR_LOCK 1
  if r.ch0 + r.ch1 < 4 ∨ r.ch0 ≠ r.ch1 then d.halt 2
  else if r.zoneOk = false ∧ d.trellis.zones ≠ [] then
    let src := d.get F.TRL_STATUS_SOURCE
    let d := d.occur Ev.trellisRejected 1 (Res.badDigest + 2 ^ 8 * src) 9
    if src = 4 then d.noTrellis Res.badDigest
    else
      let d := { d with trl := { d.trl with failed := d.trl.failed + Res.badDigest * 2 ^ (8 * (src - 1)) } }
      (d.dropBase.set F.TRL_STATUS_ERROR Res.badDigest).stepDone 4
  else if d.trl.sealed ∨ d.trellis.device.hostSealWait = 0 then d.endStep7 r.badGrafts
  else { d with glb := { d.glb with sealWait := true, sealAt := d.cycles, badGrafts := r.badGrafts } }

/-- R45: TRL_CTRL.SEAL. -/
def execHostSeal (s : State) : Answer :=
  s.on fun d =>
    if d.trlState ≠ Trl.structured then d
    else if d.glb.sealWait then d.endStep7 d.glb.badGrafts
    else d.sealUp

/-- R45: HOST_SEAL_WAIT expires, counted from the end of ZONE_MODEL's placement (log entry 90). Without effect before. -/
def execSealWaitExpire (s : State) : Answer :=
  s.on fun d =>
    let due := decide (d.glb.sealAt + d.trellis.device.hostSealWait * msCycles ≤ d.cycles)
    if d.glb.sealWait ∧ d.trlState = Trl.structured ∧ due then d.endStep7 d.glb.badGrafts else d

/-! ## Step 8: NAND, checkpoint and replay -/

/-- Keys 4 × channel + CE of an array with `ces` CE on each of eight channels. -/
def dieKeys (ces : Nat) : List Nat := (List.range 8).flatMap fun c => (List.range ces).map fun k => 4 * c + k

/-- CE on channel 0, and what the first die's parameter page says. -/
def NandFit.ces (n : NandFit) : Nat := (n.dies.filter fun p => p.1 / 4 == 0).length
def NandFit.part (n : NandFit) : NandPart := (n.dies.head?.map (·.2)).getD {}

/-- R343: the limits of one part. -/
def NandPart.fits (p : NandPart) : Bool :=
  p.tlc && p.pageKiB == 16 && p.nvddr3 && decide (p.mts ≤ 1600) && decide (p.tProgUs ≤ 1200) && decide (p.tBersMs ≤ 10)

/-- Raw bytes of an array (R343). -/
def NandFit.raw (n : NandFit) : Nat := n.dies.length * n.part.blocks * n.part.pages * n.part.pageKiB * 1024

/-- R343: the same part within the limits on 1, 2 or 4 CE of all eight channels, 1 to 8 TiB in all. -/
def NandFit.ok (n : NandFit) : Bool :=
  [1, 2, 4].contains n.ces && n.dies.map (·.1) == dieKeys n.ces && n.dies.all (fun p => p.2 == n.part) && n.part.fits &&
    decide (2 ^ 40 ≤ n.raw) && decide (n.raw ≤ 2 ^ 43)

/-- R343, R345: the dies found. -/
def Dev.findDies (d : Dev) (n : NandFit) : Dev :=
  let keys := dieKeys n.ces
  let kept (key : Nat) : Nat × Die :=
    let reserve := if d.nfm.directory then n.part.blocks * 3 / 100 else 0
    (key, Maps.getD d.nfm.dies key { spares := reserve, reserved := reserve, blocks := n.part.blocks })
  let d := { d with nfm := { d.nfm with dies := keys.map kept, stripesPerEpoch := n.part.pages } }
  let d := d.set F.NFM_STATUS_DIES keys.length
  ((List.range 8).foldl (fun d c => d.set (F.NFM_CH_STATUS_CE_PRESENT.at c) (2 ^ n.ces - 1)) d).showDies

/-- R491: provisional records are written again under final numbers, in the order raised. -/
def Dev.numberEvents (d : Dev) (first : Nat) : Dev :=
  let ev := d.face.hst.evr
  let final := ev.provisional.mapIdx fun i r => { r with seq := first + i, provisional := false }
  let next := first + final.length
  let recs := final.foldl (fun m r => Maps.put m (r.seq % 65536) r) ([] : List (Nat × EvRec))
  let ev := { ev with recs := recs, next := some next, provisional := [], toSpill := final }
  let d := { d with face := { d.face with hst := { d.face.hst with evr := ev } } }
  ((d.set F.EVR_STATUS_NEXT (next % 65536)).setReg R.EVR_SEQ_LO.off (BitVec.ofNat 32 next)).setReg R.EVR_SEQ_HI.off
    (BitVec.ofNat 32 (next / 2 ^ 32))

/-- Derive every working key (R290). -/
def Dev.deriveAll (d : Dev) : Dev := (List.range 32).foldl Dev.deriveSlot d

/-- R373: load the newest complete checkpoint and apply the records after it. -/
def Dev.replay (d : Dev) (ms : Nat) : Dev :=
  let lost := (d.jnl.entries.filter fun e => !e.bodyKept).length
  let failed := d.jnl.entries.any fun e => match e.rec_ with
    | .time 6 _ _ _ => true
    | _ => false
  let units := (d.jnl.entries.map fun e => e.rec_.units).sum
  let d := { d with dur := d.replayed, dst := { d.dst with objects := d.nfm.objects } }
  let d := d.dropLoads
  let d := (d.set F.JNL_REPLAY_TIME (satNat 16 ms)).set F.JNL_REPLAY_UNITS (satNat 16 (units / 1000))
  let d := (d.setWide R.JNL_LINE_LO R.JNL_LINE_HI 0 d.jnl.line).set F.JNL_STATUS_UNDRAINED d.jnl.undrained
  let d := d.setWide R.JNL_CKPT_LINE_LO R.JNL_CKPT_LINE_HI 0 d.jnl.ckptLine
  let d := (if d.timeValid then d.balResume else d).showSuperseded
  let d := (List.range 16).foldl Dev.showCamp d
  let d := d.showCtx.showOverflow.showOldest
  let d := if d.jnl.ckptBusy.isSome then
      { d with jnl := { d.jnl with ckptBusy := none } }.raise F.JNL_INT_STATUS_CKPT_ABANDONED else d
  let d := if failed then d.raise F.JNL_INT_STATUS_POWER_FAIL else d
  let d := if lost = 0 then d else d.raise F.GLB_INT_STATUS_BODY_LOST lost
  d.raise F.JNL_INT_STATUS_REPLAY_DONE (units % 2 ^ 32)

/-- R55: an armed package that replay finds: it waits for its instant, or its base has gone and it is discarded. -/
def Dev.rearm (d : Dev) (x : Nat × Staged) : Dev :=
  if x.2.pkg.baseSerial = d.trl.buildSerial then d.putSlot x.1 x.2
  else
    (d.journal (.disarm x.1)).occur Ev.graftDiscarded 1 x.1 (x.2.pkg.baseSerial % 2 ^ 32)

/-- Step 8. -/
def Dev.step8 (d : Dev) (r : StepReport) : Dev :=
  if r.nand.ok = false then d.halt 3
  else
    let d := d.findDies r.nand
    let d :=
      if d.nfm.directory = false then d.setMedia Media.unformatted
      else
        let d := (d.nfm.parts.zipIdx).foldl (fun d p => d.set (F.NFM_PART_n_SIZE.at p.2) (satNat 16 p.1)) d
        let d := (d.setMedia (if d.nfm.readOnly then Media.readOnly else Media.normal)).replay r.replayMs
        d.dur.armed.foldl Dev.rearm d
    let d := d.checkSlots d.dur.roots
    let d := if d.keyLocked then { d with key := { d.key with lost := d.rootsHeld } } else d.deriveAll
    let d := d.numberEvents (max 1 d.dur.evReserved)
    d.spillWaiting.stepDone 8

/-! ## Step 9 and after -/

/-- R404, R475: the pair's start. A locked device is OUT; an unpaired one serves at once. -/
def Dev.pairStart (d : Dev) : Dev :=
  if d.keyLocked then { d with prl := { d.prl with outAtStart := true } }.setPair PairSt.out
  else
    let d := ({ d with prl := { d.prl with outAtStart := false } }.set F.GLB_BOOT_STATE Boot.normal)
    if d.trellis.device.pairMode = 0 then (((d.setPair PairSt.unpaired).recover.reEmitAll).resumeRounds).rewrapResume
    else (d.setPair PairSt.listen).setPartner PairSt.unknown

/-- Step 9. -/
def Dev.step9 (d : Dev) : Dev :=
  let st := match d.get F.KEY_STATUS_STATE with
    | 0 => Boot.normal
    | 1 => Boot.tamperLocked
    | _ => Boot.vaultLost
  ((d.set F.GLB_BOOT_STATE st).stepDone 9).pairStart

/-- R473, R475: the start-up step in progress ends, with what it finds. Steps 10 to 13 run in service: 10 ends with the servo
LOCKED, 13 once every cell is back in CSMA service; a locked device runs none after 10. -/
def execStartupStepComplete (report : StepReport) (s : State) : Answer :=
  s.on fun d =>
    let boot := d.get F.GLB_BOOT_STATE
    let step := d.get F.GLB_BOOT_STEP
    if d.glb.inReset ∨ boot = Boot.halted ∨ boot = Boot.noTrellis ∨ d.glb.sealWait then d
    else
      match step with
      | 2 => d.step3
      | 3 => d.step4 report.selftest
      | 4 => d.step5
      | 5 => d.step6 report.modules
      | 6 => d.step7 report
      -- R472, R487: while POWER_FAIL_N is low the replay does not end (log entry 90).
      | 7 => if d.glb.powerFail then d else d.step8 report
      | 8 => d.step9
      | 9 => if d.servo = Sv.locked then d.stepDone 10 else d
      | 10 => if d.keyLocked then d else d.stepDone 11
      | 11 => d.stepDone 12
      | 12 => if d.fhm.cells.all fun c => c.2.sf.isNone then d.stepDone 13 else d
      | _ => d

/-! ## Power fail -/

/-- R371: the filling stripe, and the one being programmed, are programmed. -/
def Nand.flush (n : Nand) : Nand :=
  let n := if n.filling = [] then n else n.advance
  { n with programming := [] }

/-- R371, R472: NAND write-protect is asserted on every channel, or released. -/
def Dev.protectNand (d : Dev) (on : Bool) : Dev := (List.range 8).foldl (fun d n => d.emit (.pin 4 n (!on))) d

/-- R371: POWER_FAIL_N has been low for 1 µs. During start-up it only holds NAND writes off (R472). -/
def execPowerFail (s : State) : Answer :=
  s.on fun d =>
    if d.glb.powerFail then d
    else
      let was := d.serves
      let d := { d with glb := { d.glb with powerFail := true } }
      if d.glb.inReset then d
      else if d.get F.GLB_BOOT_STEP < 9 then (if 3 ≤ d.get F.GLB_BOOT_STEP then d.protectNand true else d)
      else
        let d := d.eventsNow
        let flight := d.eng.flight.filter fun p => p.2.stage == .mirror
        let d := { d with eng := { d.eng with staging := [], flight := flight } }.showIng
        let d := d.verdict 4
        let wait := d.eng.records.filter fun r => r.done.isNone
        let d := wait.foldl (fun d r => d.archiveFill r.seq (d.plainRecord r.body r.ecdsa d.noKeyStatus) true) d
        let d :=
          if was then
            let d := d.zxp.feeders.toList.zipIdx.foldl (fun d x => if x.1.started then d.journal (.cycle x.2 x.1.c) else d) d
            d.journal (.time 6 0 d.tsu.sec d.tsu.ns)
          else d
        let d := { d with nfm := d.nfm.flush }
        -- A checkpoint in progress is abandoned: start-up finds and reports it (R374).
        (d.set F.JNL_STATUS_CKPT_BUSY 0).protectNand true

/-- R372, R472: POWER_FAIL_N has been high for 10 ms: a restart from step 3, or start-up goes on. -/
def execPowerFailClear (s : State) : Answer :=
  s.on fun d =>
    if d.glb.powerFail = false then d
    else
      let d := { d with
        glb := { d.glb with powerFail := false, failWait := false }
        prl := { d.prl with causes := d.prl.causes.filter (· ≠ 4) } }
      if d.glb.inReset then d
      else if d.get F.GLB_BOOT_STEP < 9 then (if 3 ≤ d.get F.GLB_BOOT_STEP then d.protectNand false else d)
      else (d.protectNand false).restartFromStep3

/-! ## The DRBG and RESUME -/

/-- R312, R313: a reseed. A good seed restarts the DRBG, and a root generation that waited ends. -/
def execDrbgReseed (ok : Bool) (s : State) : Answer :=
  s.on fun d =>
    if ok then
      let d := { d with key := { d.key with sinceSeed := 0, sinceReseed := 0 } }.count R.KEY_CNT_n 11
      let d := ((d.set F.KEY_STATUS_ENTROPY_OK 1).set F.KEY_STATUS_DRBG_RUN 1).generateNow
      if d.prl.causes.contains 0x0A then d.causeOver 0x0A else d
    else
      let d := ((d.count R.KEY_CNT_n 12).set F.KEY_STATUS_ENTROPY_OK 0).raise F.KEY_INT_STATUS_ENTROPY_FAIL
      d.verdict 0x0A

/-- R311: KEY_CMD RESUME. -/
def execResume (s : State) : Answer :=
  s.on fun d => d.keyCmd true true fun d =>
    let whole := d.key.lost.all fun p =>
      (d.slotMeta p.1).kind == 0 || ((d.root? p.1).map fun r => kcvOf 16 r == p.2.kcv).getD false
    if d.flag F.CLO_TAMPER_LATCH_SOURCE ∨ d.keyLocked = false then d.keyDone Kr.badState
    else if whole = false then d.keyDone Kr.notComplete
    else
      let d := (d.set F.KEY_STATUS_STATE 0).deriveAll
      let d := (d.set F.GLB_BOOT_STATE Boot.normal).keyDone Kr.ok
      let d := d.reEmitUnsigned
      let d := (List.range 64).foldl (fun d n => d.emitRing n d.eng.records.length) d
      if d.prl.outAtStart then d.pairStart else d.causeOver 5

end Sys2Proof.Machine
end

