-- ==== Sys2Proof/Machine/Tsu.lean ====
section
/-! DEFINITION. The time-stamp unit's commands: adjustment, increment, reads, Sync, 1PPS, UTC and the Cloche measurement (R318 to
R320, R326, R334, R335, R337). -/

namespace Sys2Proof.Machine

/-- Refuse or complete TSU_ADJ_CMD. -/
def Dev.adjResult (d : Dev) (code : Nat) : Dev := d.set F.TSU_ADJ_CMD_RESULT code

/-- R319, R320: whether the on-chip servo refuses an adjustment; in discipline mode a STEP of whole seconds passes. -/
def Dev.adjOwned (d : Dev) (step : Bool) : Bool :=
  d.get F.TSU_CTRL_SERVO == 0 &&
    !(step && d.get F.TSU_CTRL_PPS_IN_MODE == 2 && d.signedFld F.TSU_ADJ_NS_AMOUNT == 0)

/-- R320: TSU_ADJ_NS outside ±999,999,999. -/
def Dev.adjBad (d : Dev) : Bool := decide (999999999 < (d.signedFld F.TSU_ADJ_NS_AMOUNT).natAbs)

/-- R320, STEP. -/
def execTsuStep (s : State) : Answer :=
  s.on fun d =>
    if d.adjOwned true then d.adjResult 1
    else if d.adjBad then d.adjResult 2
    else
      let n := d.signedFld F.TSU_ADJ_SEC_AMOUNT * 1000000000 + d.signedFld F.TSU_ADJ_NS_AMOUNT
      (((d.adjResult 0).stepBy n).raise F.TSU_INT_STATUS_ADJ_DONE).eventsNow

/-- R320, SLEW. -/
def execTsuSlew (s : State) : Answer :=
  s.on fun d =>
    if d.adjOwned false then d.adjResult 1
    else if d.adjBad ∨ d.signedFld F.TSU_ADJ_SEC_AMOUNT ≠ 0 then d.adjResult 2
    else (d.adjResult 0).startSlew (d.signedFld F.TSU_ADJ_NS_AMOUNT * 2 ^ 32)

/-- R320: the whole slew amount has been added. -/
def execSlewDone (s : State) : Answer :=
  s.on fun d =>
    if d.flag F.TSU_ADJ_CMD_BUSY then
      let n : Int := (d.now : Int) * 2 ^ 32 + d.tsu.frac + d.tsu.slew
      let d := { d with tsu := { d.tsu.setNs (n / 2 ^ 32) with slew := 0, frac := (n % 2 ^ 32).toNat } }
      (d.set F.TSU_ADJ_CMD_BUSY 0).raise F.TSU_INT_STATUS_ADJ_DONE
    else d

/-- R319: a write of TSU_INCR_FRAC applies both increment registers, clamped; the on-chip servo ignores it. -/
def execTsuIncrWrite (frac : Word) (s : State) : Answer :=
  s.on fun d =>
    if d.get F.TSU_CTRL_SERVO = 0 then d
    else
      let v := d.get F.TSU_INCR_INT_INCR % 16 * 2 ^ 32 + frac.toNat
      let d' := d.setIncr (clampIncr v)
      if clampIncr v = v then d' else d'.raise F.TSU_INT_STATUS_INCR_CLAMPED

/-- TSU registers: a read of TSU_TIME_FRAC returns the fraction and latches the rest of the counter. -/
def execTsuTimeRead (s : State) : Answer :=
  s.on fun d =>
    { d with lastRead := BitVec.ofNat 32 d.tsu.frac, tsu := { d.tsu with timeLatch := some (d.tsu.ns, d.tsu.sec) } }

/-- TSU registers: a read of TSU_PPS_IN_NS returns it and latches the stamp's seconds. -/
def execTsuPpsInRead (s : State) : Answer :=
  s.on fun d =>
    { d with lastRead := d.reg R.TSU_PPS_IN_NS.off, tsu := { d.tsu with ppsLatch := d.tsu.pps.map (·.1) } }

/-! ## The servo's offsets -/

/-- One offset of the reference (R330); where the servo steps it away, what the step passes comes in its cycle (R342). -/
def Dev.takeOffset (d : Dev) (o : Int) : Dev :=
  if d.flag F.TSU_CTRL_SERVO = false ∧ d.stepsAway o then (d.offset o).eventsNow else d.offset o

/-- One complete Sync on the slave port: its offset (R326). -/
def Dev.syncDone (d : Dev) (n : Nat) (t1 t2 c : Int) : Dev :=
  let p := d.ptpPort n
  let diff := t2 - t1 - c
  let d := d.setPtp n { p with msDiff := some diff, sync := none }
  match d.meanDelay n with
  | none => d
  | some m => d.takeOffset (diff - m - d.signedFld (F.TSU_Pn_ASYM_VALUE.at n))

/-- R324, R326: the selected master's Sync on the slave port. A two-step one waits for its Follow_Up; one past its receipt timeout is
not accepted (R328), and a servo that lost its reference to that timeout acquires it again (log entry 11). -/
def execPtpSync (port : Nat) (h : PtpHdr) (origin : Int) (s : State) : Answer :=
  s.on fun d => d.ptpTake port h fun d =>
    if h.interval < -7 ∨ 4 < h.interval then d.count R.TSU_CNT_n 5
    else if d.slavePort ≠ port ∨ h.source ≠ (d.ptpPort port).source then d
    else
      let p := d.ptpPort port
      if p.syncAt + Config.syncTimeout p.syncLog < d.cycles then d.syncExpire port
      else
        let d := ((d.setPtp port { p with syncAt := d.cycles, syncLog := h.interval }).count R.TSU_CNT_n 0).acquire
        let t2 := d.rxStamp port
        if h.twoStep then d.setPtp port { d.ptpPort port with sync := some (h.seq, t2, h.correction) }
        else d.syncDone port origin t2 h.correction

/-- R326: the Follow_Up of a two-step Sync supplies t1 and its correction. -/
def execPtpFollowUp (port : Nat) (h : PtpHdr) (origin : Int) (s : State) : Answer :=
  s.on fun d => d.ptpTake port h fun d =>
    match (d.ptpPort port).sync with
    | some (q, t2, c) =>
      if q = h.seq ∧ h.source = (d.ptpPort port).source ∧ d.slavePort = port then d.syncDone port origin t2 (c + h.correction) else d
    | none => d

/-- R330: HOLDOVER has lasted longer than HOLD_LIMIT, counted from its entry. -/
def execHoldoverLimit (s : State) : Answer :=
  s.on fun d =>
    if d.servo = Sv.holdover ∧ d.tsu.holdSince + d.get F.TSU_LOCK_HOLD_LIMIT * secCycles < d.cycles then
      (d.enterServo Sv.freerun).raise F.TSU_INT_STATUS_FREERUN
    else d

/-- R334: the UTC day ends with a leap flag set: OFFSET rises at the second that would read 00:00:00, or falls at
23:59:59. -/
def execUtcLeap (s : State) : Answer :=
  s.on fun d =>
    let o := d.signedFld F.TSU_UTC_OFFSET
    let leap (v : Int) (x : Fld) : Dev :=
      let d := { d with tsu := { d.tsu with leaps := (d.tsu.sec, o) :: d.tsu.leaps } }
      ((d.set F.TSU_UTC_OFFSET (pattern 16 v)).set x 0).raise F.TSU_INT_STATUS_LEAP (pattern 32 v)
    let day := ((d.tsu.sec : Int) - o) % 86400
    if d.flag F.TSU_UTC_LEAP61 ∧ day = 0 then leap (o + 1) F.TSU_UTC_LEAP61
    else if d.flag F.TSU_UTC_LEAP59 ∧ day = 86399 then leap (o - 1) F.TSU_UTC_LEAP59
    else d

/-- Deadline of the next 1PPS_IN edge (R335): 1.000 001 s after the last, in whole CORE_CLK cycles. -/
def Tsu.ppsDue (t : Tsu) : Nat := t.ppsAt + 1228801228

/-- R335: in discipline mode an edge that has not come by its deadline is missed; the third miss in a row loses the reference. -/
def Dev.ppsMiss (d : Dev) : Dev :=
  if d.get F.TSU_CTRL_PPS_IN_MODE = 2 ∧ d.tsu.ppsDue < d.cycles then
    let d := { d with tsu := { d.tsu with ppsMissed := d.tsu.ppsMissed + 1, ppsAt := d.tsu.ppsAt + secCycles } }
    let d := (d.count R.TSU_CNT_n 7).raise F.TSU_INT_STATUS_PPS_IN_MISSING
    if d.tsu.ppsMissed = 3 then d.loseReference else d
  else d

/-- R335: a rising edge of 1PPS_IN; one that comes late finds its miss counted. The stamp in 1/256 ns less
TSU_PPS_IN_COMP; in discipline mode its distance from the nearest second is the servo's offset. -/
def execPpsInEdge (s : State) : Answer :=
  s.on fun d =>
    if d.get F.TSU_CTRL_PPS_IN_MODE = 0 then d
    else
      let d := d.ppsMiss
      let st := d.stamp - d.signedFld F.TSU_PPS_IN_COMP_DELAY * 256
      let ns := st / 65536
      let d := (d.setReg R.TSU_PPS_IN_NS.off (BitVec.ofInt 32 (ns % 1000000000))).setWide R.TSU_PPS_IN_SEC_LO
        R.TSU_PPS_IN_SEC_HI 0 (ns / 1000000000).toNat
      let d := { d with tsu := { d.tsu with pps := some ((ns / 1000000000).toNat, (ns % 1000000000).toNat), ppsMissed := 0, ppsAt := d.cycles } }
      let d := d.count R.TSU_CNT_n 6
      if d.get F.TSU_CTRL_PPS_IN_MODE = 2 then
        let r := st % 65536000000000
        d.acquire.takeOffset (if 2 * r < 65536000000000 then r else r - 65536000000000)
      else d

/-- R335: no edge by 1.000 001 s after the last. -/
def execPpsInMissing (s : State) : Answer := s.on Dev.ppsMiss

/-- R335: 1PPS_OUT rises at a second boundary plus OFFSET, within 2 ns, at most once for each boundary (R342), and falls
WIDTH later. -/
def execPpsOutEdge (rise : Bool) (s : State) : Answer :=
  s.on fun d =>
    if rise then
      let t := (d.now : Int) - d.signedFld F.TSU_PPS_OUT_OFFSET
      let b := (t / 1000000000).toNat
      if d.flag F.TSU_CTRL_PPS_OUT_EN ∧ t % 1000000000 ≤ 2 ∧ d.tsu.ppsOutSec ≠ some b then
        { d with tsu := { d.tsu with ppsOut := true, ppsOutSec := some b, ppsOutAt := d.cycles } }.emit (.pin 0 0 true)
      else d
    else if d.tsu.ppsOut ∧ d.tsu.ppsOutAt + cyclesOf (d.get F.TSU_PPS_OUT_WIDTH) ≤ d.cycles then
      { d with tsu := { d.tsu with ppsOut := false } }.emit (.pin 0 0 false)
    else d

/-- R337: TSU_CLO_CMD.START; with SOURCE 1 the reference is V1 of FEEDER. A START while a measurement runs changes nothing (log
entry 10). -/
def execCloMeasureStart (s : State) : Answer :=
  s.on fun d =>
    if d.flag F.TSU_CLO_CMD_BUSY then d
    else
      let m : CloMeas :=
        { gate := d.get F.TSU_CLO_CMD_GATE, source := d.get F.TSU_CLO_CMD_SOURCE, feeder := d.get F.TSU_CLO_CMD_FEEDER,
          trusted := d.servo == Sv.locked &&
            (d.get F.TSU_CLO_CMD_SOURCE == 0 || d.track (d.get F.TSU_CLO_CMD_FEEDER) 0 == Zt.locked) }
      ({ d with tsu := { d.tsu with clo := some m } }.set F.TSU_CLO_CMD_BUSY 1).set F.TSU_CLO_CMD_UNTRUSTED 0

/-- R337, R385: 2^GATE ticks have been counted; the result, the trim that waited, and CLO_DONE. -/
def execCloMeasureDone (elapsed : Nat) (s : State) : Answer :=
  s.on fun d =>
    match d.tsu.clo with
    | none => d
    | some m =>
      let d := { d with tsu := { d.tsu with clo := none } }
      let d := (d.setWide R.TSU_CLO_RESULT_LO R.TSU_CLO_RESULT_HI 0 elapsed).set F.TSU_CLO_CMD_UNTRUSTED (b2n (!m.trusted))
      let d :=
        match d.clo.trimWaits with
        | some t => { d with clo := { d.clo with trimWaits := none } }.set F.CLO_TRIM_TRIM t
        | none => d
      (d.set F.TSU_CLO_CMD_BUSY 0).raise F.TSU_INT_STATUS_CLO_DONE

end Sys2Proof.Machine
end

