-- ==== Sys2Proof/Machine/Validate.lean ====
section
/-! DEFINITION. Parse, validation and billing of a verified frame (R163 to R171, R222 to R229, R255, R256). -/

namespace Sys2Proof.Machine

/-- The extended value of a counter field (R168): a raw value below the stored low bits by more than half its range is a
wrap. -/
def extend (w stored : Nat) (raw : Int) : Int :=
  if 8 ≤ w then raw
  else
    let m : Int := (2 ^ (8 * w) : Nat)
    let diff := raw % m - (stored : Int) % m
    stored + (if diff < -((2 ^ (8 * w - 1) : Nat) : Int) then diff + m else diff)

/-- W in ns (R168). -/
def Dev.sanity (d : Dev) (c : Ctx) (tolMs rxNs : Nat) : Nat × Nat :=
  if c.confidence < d.get F.FHM_DRIFT_MIN_CONF then (0, 1000000000 * d.get F.ING_TS_WIDE + 1000000 * tolMs)
  else
    let since := rxNs - (1000000000 * c.syncSec + c.syncNs)
    (c.drift.natAbs * since, 1000000 * (tolMs + d.get F.ING_TS_SLACK))

/-- What validation finds: the rejection code (0 none), the ts that billing applies, GAP, TS_REPLACED, and the slots' values. -/
structure Valid where
  code : Nat := 0
  ts : Nat
  gap : Bool := false
  replaced : Bool := false
  values : List Int := []

/-- The stored extended value of a counter field. -/
def Ctx.stored (c : Ctx) (f : ClassField) : Nat := Maps.getD c.area f.offset 0

/-- R168 and R169 for a parsed reading. Step, order and continuity need a last accepted reading, and look at the reading's own
timestamp: TS_REPLACED changes only what billing applies. -/
def validate (cls : MeterClass) (c : Ctx) (zx : Bool) (w : Nat × Nat) (rxNs : Nat) (p : Parsed) (ts0 : Nat) : Valid :=
  let rxSec := rxNs / 1000000000
  -- ts later than the receipt instant + W, with the drift's share of W in ns · 10^9
  let late := !zx && decide (w.1 + (rxNs + w.2) * 1000000000 < ts0 * 1000000000 * 1000000000)
  let ts := if late then rxSec else ts0
  let val (s : Nat) : Option Int := (p.values.find? (·.1 == s)).map (·.2)
  let counters := cls.fields.filter fun f => f.kind == 2 && (val f.slot).isSome
  let ext (f : ClassField) : Int := extend f.width (c.stored f) ((val f.slot).getD 0)
  let back := counters.any fun f => decide (ext f < (c.stored f : Int))
  let hasLast := p.values ≠ [] ∧ c.lastTs ≠ 0
  let hours := max 1 ((ts0 - c.lastTs + 3599) / 3600)
  let step := counters.any fun f =>
    let top := cls.maxStep.getD f.slot 0
    decide (top ≠ 0) && decide (((top * hours : Nat) : Int) < ext f - (c.stored f : Int))
  let code :=
    if back then Rej.nonMonotonic
    else if hasLast ∧ step then Rej.step
    else if hasLast ∧ ts0 ≤ c.lastTs then Rej.tsOrder else 0
  let values := (List.range 8).map fun s =>
    match counters.find? (·.slot == s) with
    | some f => if code = 0 then ext f else (val s).getD 0
    | none => (val s).getD 0
  { code := code, ts := ts, gap := decide (hasLast ∧ 3 * cls.interval < 2 * (ts0 - c.lastTs)), replaced := late, values := values }

/-- Values present, slots 0 to COUNT − 1 (R178). -/
def Parsed.count (p : Parsed) : Nat := p.values.foldl (fun n v => max n (v.1 + 1)) 0

/-- Rejections before the graph runs (R163 to R165): 0 where it runs. -/
def Work.refusal (w : Work) (a : Nat) : Nat :=
  if w.staged.frame.formOk = false then Rej.unsupported
  else if (w.apdu.map fun p => decide (p.invocation ≤ a)).getD false then Rej.dlms
  else w.refused

/-- R225: outage edges of the events an accepted parse raised. -/
def Dev.outageEdges (d : Dev) (p : Parsed) (ts : Nat) : List (Bool × Nat) :=
  p.events.filterMap fun e =>
    if e.1 = 0 then none
    else if e.1 = d.get F.BIL_OUTAGE_DOWN_CODE then some (false, e.2.2.getD ts)
    else if e.1 = d.get F.BIL_OUTAGE_UP_CODE then some (true, e.2.2.getD ts) else none

/-- R256: tamper updates of the events. -/
def Dev.tamperHits (d : Dev) (p : Parsed) (ts : Nat) : List (Nat × Nat × Nat) :=
  p.events.flatMap fun e => (List.range 4).filterMap fun k =>
    let code := d.get (F.BAL_TAMPER_CODE_k_CODE.at k)
    if code ≠ 0 ∧ e.1 = code then some (k, e.2.1, e.2.2.getD ts) else none

/-- R33, R167 to R171: a dialect engine ends a parse, and the reading is validated. -/
def execParseDone (meter : Nat) (s : State) : Answer :=
  s.on fun d =>
    match Maps.get? meter d.eng.flight with
    | none => d
    | some w =>
      let t := w.old.getD d.trellis
      match (if w.stage = .parse then w.reading else none), Maps.get? meter d.dur.ctxs, t.class? w.cls with
      | some r, some c, some cls =>
        let f := w.staged
        let zx := f.frame.medium == 2
        let refused := w.refusal c.a
        let env : ParseEnv := { off := f.off, cal := t.calendar.inst? w.cal }
        let (p, code) := if refused ≠ 0 then ({}, refused) else parsePayload t env cls.graph w.payload
        let rxNs := 1000000000 * f.rxSec + f.rxNs
        let ts0 := p.ts.getD (if zx then f.frame.slotSec else f.rxSec)
        let v := if code ≠ 0 then { ts := ts0, code := code, values := (List.range 8).map fun k => ((p.values.find? (·.1 == k)).map (·.2)).getD 0 }
          else validate cls c zx (d.sanity c cls.tsTolerance rxNs) rxNs p ts0
        let d := if v.replaced then d.count R.ING_CNT_n 9 else d
        let d := if v.gap then d.count R.ING_CNT_n 10 else d
        let rej := decide (v.code ≠ 0)
        let d :=
          if rej then
            let d := d.count R.ING_CNT_n (if Rej.nonMonotonic ≤ v.code ∧ v.code ≤ Rej.tsOrder then 8 else 7)
            ((d.set F.ING_LAST_REJECT_CODE v.code).set F.ING_LAST_REJECT_METER meter).raise F.ING_INT_STATUS_REJECTED meter v.code
          else d
        let quality := r.body.quality + (if rej then Qual.rejected + 256 * v.code else 0) + (if v.gap then Qual.gap else 0) +
          (if v.replaced then Qual.tsReplaced else 0)
        let a := match w.apdu with
          | some x => if c.a < x.invocation then some x.invocation else none
          | none => none
        let r : ReadingRec := { r with
          rejected := rej, noRecord := rej && d.flag F.ING_CTRL_REJECT_RECORDS == false, a := a
          outages := if rej then [] else d.outageEdges p v.ts
          tampers := d.tamperHits p v.ts
          body := { r.body with count := p.count, tsSec := v.ts, quality := quality, values := v.values } }
        d.setWork meter { w with reading := some r, parsed := p, reject := v.code, stage := .billing }
      | _, _, _ => if w.stage = .parse then d.endWork meter else d

/-- A meter's totals that billing counts: INCOMPLETE and ESTIMATED intervals. -/
def Dur.intervalFlags (u : Dur) (meter : Nat) : Nat × Nat :=
  let b := Maps.getD u.bills meter {}
  (b.incomplete, b.estimated)

/-- R222 to R229, R255, R256: a billing lane ends: what the reading's crediting shows goes into the record and the counters.
The block itself changes at the append. -/
def execBillingUpdateDone (meter : Nat) (s : State) : Answer :=
  s.on fun d =>
    match Maps.get? meter d.eng.flight with
    | none => d
    | some w =>
      match (if w.stage = .billing then w.reading else none) with
      | none => d
      | some r =>
        let before := d.dur.intervalFlags meter
        let (u, note) := d.dur.reading (d.workEnv w) r true
        let after := u.intervalFlags meter
        let b := note.bill
        let d :=
          if note.credited then
            let d := (d.count R.BIL_CNT_n 0).countBy R.BIL_CNT_n 4 b.intervals
            let d := (d.countBy R.BIL_CNT_n 5 (after.1 - before.1)).countBy R.BIL_CNT_n 6 (after.2 - before.2)
            let d := (d.countBy R.BIL_CNT_n 7 b.closed.length).countBy R.BIL_CNT_n 1 (b2n b.split)
            let d := if b.late then (d.count R.BIL_CNT_n 2).raise F.BIL_INT_STATUS_LATE meter else d
            let d := if b.mismatch then (d.count R.BIL_CNT_n 3).raise F.BIL_INT_STATUS_MISMATCH meter else d
            let d := if b.spanLimit then (d.count R.BIL_CNT_n 8).raise F.BIL_INT_STATUS_SPAN_LIMIT meter else d
            match note.reverse with
            | some x => (d.count R.BAL_CNT_n 5).raise F.BAL_INT_STATUS_REVERSE_FLOW meter x
            | none => d
          else d
        let d := r.tampers.foldl (fun d h => (d.count R.BAL_CNT_n 6).raise F.BAL_INT_STATUS_TAMPER meter h.1) d
        let quality := r.body.quality + (if b.late then Qual.late else 0) + (if b.mismatch then Qual.mismatch else 0) +
          (if b.outage then Qual.incomplete else 0)
        let body := { r.body with quality := quality, tariff := if note.credited then b.tariff % 8 else 0x80 }
        (d.setWork meter { w with reading := some { r with body := body }, stage := .wantRing }).run meter

end Sys2Proof.Machine
end

