-- ==== Sys2Proof/Machine/Dispatch.lean ====
section
/-! DEFINITION. One arm per command. -/

namespace Sys2Proof.Machine

def exec (i : Instr) (s : State) : Host.Outcome State Fault Refusal :=
  match i with
  | .registerWrite off be v => Sys2Proof.Machine.execRegisterWrite off be v s
  | .cloAccessArrival read => Sys2Proof.Machine.execCloAccessArrival read s
  | .counterClear off arb => Sys2Proof.Machine.execCounterClear off arb s
  | .resetAssert resetN pwrgood => Sys2Proof.Machine.execResetAssert resetN pwrgood s
  | .resetRelease pwrgood => Sys2Proof.Machine.execResetRelease pwrgood s
  | .startupStepComplete r => Sys2Proof.Machine.execStartupStepComplete r s
  | .sealWaitExpire => Sys2Proof.Machine.execSealWaitExpire s
  | .hostSeal => Sys2Proof.Machine.execHostSeal s
  | .thermalTrip => Sys2Proof.Machine.execThermalTrip s
  | .thermalTripRelease => Sys2Proof.Machine.execThermalTripRelease s
  | .perstN low => Sys2Proof.Machine.execPerstN low s
  | .functionLevelReset d3hot => Sys2Proof.Machine.execFunctionLevelReset d3hot s
  | .powerFail => Sys2Proof.Machine.execPowerFail s
  | .powerFailClear => Sys2Proof.Machine.execPowerFailClear s
  | .loadHost object => Sys2Proof.Machine.execLoadHost object s
  | .storeNor object => Sys2Proof.Machine.execStoreNor object s
  | .storeNand object => Sys2Proof.Machine.execStoreNand object s
  | .stage slot object => Sys2Proof.Machine.execStage slot object s
  | .arm slot => Sys2Proof.Machine.execArm slot s
  | .trlCancel slot => Sys2Proof.Machine.execTrlCancel slot s
  | .bindOwner => Sys2Proof.Machine.execBindOwner s
  | .raiseFloor => Sys2Proof.Machine.execRaiseFloor s
  | .graftApply slot damaged => Sys2Proof.Machine.execGraftApply slot damaged s
  | .fhmHeadAdd index => Sys2Proof.Machine.execFhmHeadAdd index s
  | .fhmHeadRemove index => Sys2Proof.Machine.execFhmHeadRemove index s
  | .fhmHeadRecall index => Sys2Proof.Machine.execFhmHeadRecall index s
  | .fhmModeEnter all cell => Sys2Proof.Machine.execFhmModeEnter all cell s
  | .fhmModeLeave all cell => Sys2Proof.Machine.execFhmModeLeave all cell s
  | .fhmModeTest all cell => Sys2Proof.Machine.execFhmModeTest all cell s
  | .headRequest port addr mac dgram => Sys2Proof.Machine.execHeadRequest port addr mac dgram s
  | .headLeave port addr mac dgram => Sys2Proof.Machine.execHeadLeave port addr mac dgram s
  | .rxReport port addr mac dgram => Sys2Proof.Machine.execRxReport port addr mac dgram s
  | .ccaBusy port addr mac dgram => Sys2Proof.Machine.execCcaBusy port addr mac dgram s
  | .txConfirm port addr mac dgram => Sys2Proof.Machine.execTxConfirm port addr mac dgram s
  | .beaconConfirm port addr mac dgram => Sys2Proof.Machine.execBeaconConfirm port addr mac dgram s
  | .headStatus port addr mac dgram => Sys2Proof.Machine.execHeadStatus port addr mac dgram s
  | .headSilenceTimeout head => Sys2Proof.Machine.execHeadSilenceTimeout head s
  | .headSuspendTimeout head => Sys2Proof.Machine.execHeadSuspendTimeout head s
  | .txAtSend at_ => Sys2Proof.Machine.execTxAtSend at_ s
  | .acceptWindowCheck addr endNs window => Sys2Proof.Machine.execAcceptWindowCheck addr endNs window s
  | .beaconDue cell => Sys2Proof.Machine.execBeaconDue cell s
  | .beaconConfirmDeadline head txId => Sys2Proof.Machine.execBeaconConfirmDeadline head txId s
  | .txConfirmDeadline head txId => Sys2Proof.Machine.execTxConfirmDeadline head txId s
  | .stormCheck cell => Sys2Proof.Machine.execStormCheck cell s
  | .superframeEnd cell => Sys2Proof.Machine.execSuperframeEnd cell s
  | .zxCrossing feeder phase rising bits => Sys2Proof.Machine.execZxCrossing feeder phase rising bits s
  | .zxCrossingMissing feeder phase rising bits => Sys2Proof.Machine.execZxCrossingMissing feeder phase rising bits s
  | .zxReacquire feeder phase => Sys2Proof.Machine.execZxReacquire feeder phase s
  | .zxPulseGate feeder phase => Sys2Proof.Machine.execZxPulseGate feeder phase s
  | .zxgWatchdog feeder phase => Sys2Proof.Machine.execZxgWatchdog feeder phase s
  | .zxfFault feeder phase => Sys2Proof.Machine.execZxfFault feeder phase s
  | .zxFaultResume feeder phase => Sys2Proof.Machine.execZxFaultResume feeder phase s
  | .zxpFaultClear feeder mask => Sys2Proof.Machine.execZxpFaultClear feeder mask s
  | .zxBlockDecode feeder phase channel => Sys2Proof.Machine.execZxBlockDecode feeder phase channel s
  | .zxUplinkEnd feeder phase => Sys2Proof.Machine.execZxUplinkEnd feeder phase s
  | .zxAckBitmapFix feeder phase => Sys2Proof.Machine.execZxAckBitmapFix feeder phase s
  | .zxOutboundFrameStart feeder phase => Sys2Proof.Machine.execZxOutboundFrameStart feeder phase s
  | .zxRoundBoundary feeder => Sys2Proof.Machine.execZxRoundBoundary feeder s
  | .zxpAssign feeder meter => Sys2Proof.Machine.execZxpAssign feeder meter s
  | .zxpRelease feeder meter => Sys2Proof.Machine.execZxpRelease feeder meter s
  | .zxpCycleRead feeder => Sys2Proof.Machine.execZxpCycleRead feeder s
  | .modPresentFall slot => Sys2Proof.Machine.execModPresentFall slot s
  | .moduleRecordRead slot front line => Sys2Proof.Machine.execModuleRecordRead slot front line s
  | .modPresentRise slot => Sys2Proof.Machine.execModPresentRise slot s
  | .msrSyncRequest => Sys2Proof.Machine.execMsrSyncRequest s
  | .msrEnable => Sys2Proof.Machine.execMsrEnable s
  | .msrSyncReset bits => Sys2Proof.Machine.execMsrSyncReset bits s
  | .msrSettleDone slot bits => Sys2Proof.Machine.execMsrSettleDone slot bits s
  | .msrSwapRequest v => Sys2Proof.Machine.execMsrSwapRequest v s
  | .msrFadeEnd bits => Sys2Proof.Machine.execMsrFadeEnd bits s
  | .msrCoefWrite v => Sys2Proof.Machine.execMsrCoefWrite v s
  | .msrDtMeasure bits => Sys2Proof.Machine.execMsrDtMeasure bits s
  | .msrCalUpdate bits => Sys2Proof.Machine.execMsrCalUpdate bits s
  | .msrIntervalHandover feeder bits => Sys2Proof.Machine.execMsrIntervalHandover feeder bits s
  | .msrEnergyLatch feeder bits => Sys2Proof.Machine.execMsrEnergyLatch feeder bits s
  | .workItemAdmit meter => Sys2Proof.Machine.execWorkItemAdmit meter s
  | .resourceGrant meter => Sys2Proof.Machine.execResourceGrant meter s
  | .resourceWaitTimeout meter => Sys2Proof.Machine.execResourceWaitTimeout meter s
  | .resourceRetry meter => Sys2Proof.Machine.execResourceRetry meter s
  | .contextFetchDone meter => Sys2Proof.Machine.execContextFetchDone meter s
  | .keyCacheFillDone meter cand => Sys2Proof.Machine.execKeyCacheFillDone meter cand s
  | .cryptoLaneDone job => Sys2Proof.Machine.execCryptoLaneDone job s
  | .parseDone meter => Sys2Proof.Machine.execParseDone meter s
  | .billingUpdateDone meter => Sys2Proof.Machine.execBillingUpdateDone meter s
  | .confirm h line => Sys2Proof.Machine.execConfirm h line s
  | .mirrorWaitExpire => Sys2Proof.Machine.execMirrorWaitExpire s
  | .reassemblyTimeout meter => Sys2Proof.Machine.execReassemblyTimeout meter s
  | .ctxAlloc => Sys2Proof.Machine.execCtxAlloc s
  | .ctxAllocAt index => Sys2Proof.Machine.execCtxAllocAt index s
  | .ctxFree index => Sys2Proof.Machine.execCtxFree index s
  | .ctxPin index => Sys2Proof.Machine.execCtxPin index s
  | .ctxUnpin index => Sys2Proof.Machine.execCtxUnpin index s
  | .keyEpochTick => Sys2Proof.Machine.execKeyEpochTick s
  | .signhashRequest port op blocks => Sys2Proof.Machine.execSignhashRequest port op blocks s
  | .signhashBlockEnd engine => Sys2Proof.Machine.execSignhashBlockEnd engine s
  | .signhashOpDone engine => Sys2Proof.Machine.execSignhashOpDone engine s
  | .arbUrgentChange port urgent => Sys2Proof.Machine.execArbUrgentChange port urgent s
  | .arbStarved port => Sys2Proof.Machine.execArbStarved port s
  | .drainTransferDone ring => Sys2Proof.Machine.execDrainTransferDone ring s
  | .intervalEnd inst at_ => Sys2Proof.Machine.execIntervalEnd inst at_ s
  | .periodBoundary inst boundary => Sys2Proof.Machine.execPeriodBoundary inst boundary s
  | .closureSweepStart inst boundary => Sys2Proof.Machine.execClosureSweepStart inst boundary s
  | .closureSweepDone inst => Sys2Proof.Machine.execClosureSweepDone inst s
  | .attach index => Sys2Proof.Machine.execAttach index s
  | .detach index => Sys2Proof.Machine.execDetach index s
  | .queryZone index => Sys2Proof.Machine.execQueryZone index s
  | .queryMeter index => Sys2Proof.Machine.execQueryMeter index s
  | .balRestart => Sys2Proof.Machine.execBalRestart s
  | .balEvaluation b => Sys2Proof.Machine.execBalEvaluation b s
  | .balEvalDone => Sys2Proof.Machine.execBalEvalDone s
  | .dstLoad slot object => Sys2Proof.Machine.execDstLoad slot object s
  | .campaignLoadStepDone slot ok => Sys2Proof.Machine.execCampaignLoadStepDone slot ok s
  | .dstAdd slot meter => Sys2Proof.Machine.execDstAdd slot meter s
  | .dstAddClass slot cls => Sys2Proof.Machine.execDstAddClass slot cls s
  | .dstRemove slot meter => Sys2Proof.Machine.execDstRemove slot meter s
  | .dstAbort slot => Sys2Proof.Machine.execDstAbort slot s
  | .dstClear slot => Sys2Proof.Machine.execDstClear slot s
  | .campaignRoundStart slot place => Sys2Proof.Machine.execCampaignRoundStart slot place s
  | .campaignBlockOrder slot place => Sys2Proof.Machine.execCampaignBlockOrder slot place s
  | .collectionEnd slot place => Sys2Proof.Machine.execCollectionEnd slot place s
  | .campaignActivation slot => Sys2Proof.Machine.execCampaignActivation slot s
  | .campaignExpire slot => Sys2Proof.Machine.execCampaignExpire slot s
  | .campaignAbortBroadcast slot place => Sys2Proof.Machine.execCampaignAbortBroadcast slot place s
  | .bitmapPageInDone slot place => Sys2Proof.Machine.execBitmapPageInDone slot place s
  | .provOpen => Sys2Proof.Machine.execProvOpen s
  | .provPeer peer => Sys2Proof.Machine.execProvPeer peer s
  | .provClose => Sys2Proof.Machine.execProvClose s
  | .rootImport slot root wrapped => Sys2Proof.Machine.execRootImport slot root wrapped s
  | .rootGenerate slot => Sys2Proof.Machine.execRootGenerate slot s
  | .rootCommit => Sys2Proof.Machine.execRootCommit s
  | .rootCancel => Sys2Proof.Machine.execRootCancel s
  | .rootErase slot => Sys2Proof.Machine.execRootErase slot s
  | .rewrap slot => Sys2Proof.Machine.execRewrap slot s
  | .meterInstall entries => Sys2Proof.Machine.execMeterInstall entries s
  | .meterCancel meter => Sys2Proof.Machine.execMeterCancel meter s
  | .headInstall entries => Sys2Proof.Machine.execHeadInstall entries s
  | .headCancel head => Sys2Proof.Machine.execHeadCancel head s
  | .bcastRoll target => Sys2Proof.Machine.execBcastRoll target s
  | .exportCert => Sys2Proof.Machine.execExportCert s
  | .resume => Sys2Proof.Machine.execResume s
  | .classAkInstall entries => Sys2Proof.Machine.execClassAkInstall entries s
  | .provSessionExpire => Sys2Proof.Machine.execProvSessionExpire s
  | .maskRefresh entropyOk => Sys2Proof.Machine.execMaskRefresh entropyOk s
  | .drbgReseed ok => Sys2Proof.Machine.execDrbgReseed ok s
  | .drbgStop => Sys2Proof.Machine.execDrbgStop s
  | .bcastRollInstant target => Sys2Proof.Machine.execBcastRollInstant target s
  | .tsuStep => Sys2Proof.Machine.execTsuStep s
  | .tsuSlew => Sys2Proof.Machine.execTsuSlew s
  | .slewDone => Sys2Proof.Machine.execSlewDone s
  | .tsuIncrWrite frac => Sys2Proof.Machine.execTsuIncrWrite frac s
  | .tsuTimeRead => Sys2Proof.Machine.execTsuTimeRead s
  | .ptpSync port h origin => Sys2Proof.Machine.execPtpSync port h origin s
  | .ptpFollowUp port h origin => Sys2Proof.Machine.execPtpFollowUp port h origin s
  | .ptpDelayReq port h => Sys2Proof.Machine.execPtpDelayReq port h s
  | .ptpDelayResp port h receipt => Sys2Proof.Machine.execPtpDelayResp port h receipt s
  | .ptpPdelayReq port h => Sys2Proof.Machine.execPtpPdelayReq port h s
  | .ptpPdelayResp port h receipt => Sys2Proof.Machine.execPtpPdelayResp port h receipt s
  | .ptpPdelayRespFollowUp port h origin => Sys2Proof.Machine.execPtpPdelayRespFollowUp port h origin s
  | .ptpAnnounce port h a => Sys2Proof.Machine.execPtpAnnounce port h a s
  | .ptpAnnounceTimeout port => Sys2Proof.Machine.execPtpAnnounceTimeout port s
  | .ptpMessageDue port kind => Sys2Proof.Machine.execPtpMessageDue port kind s
  | .holdoverLimit => Sys2Proof.Machine.execHoldoverLimit s
  | .utcLeap => Sys2Proof.Machine.execUtcLeap s
  | .ppsInEdge => Sys2Proof.Machine.execPpsInEdge s
  | .ppsInMissing => Sys2Proof.Machine.execPpsInMissing s
  | .tsuPpsInRead => Sys2Proof.Machine.execTsuPpsInRead s
  | .cloMeasureStart => Sys2Proof.Machine.execCloMeasureStart s
  | .cloMeasureDone elapsed => Sys2Proof.Machine.execCloMeasureDone elapsed s
  | .ethNeighborSolicitation port len src mac target => Sys2Proof.Machine.execEthNeighborSolicitation port len src mac target s
  | .ethEchoRequest port len src mac dst data => Sys2Proof.Machine.execEthEchoRequest port len src mac dst data s
  | .ethArpRequest port len src mac target => Sys2Proof.Machine.execEthArpRequest port len src mac target s
  | .ethNeighborAdvertisement port len target mac => Sys2Proof.Machine.execEthNeighborAdvertisement port len target mac s
  | .ethFrameDrop port len cause => Sys2Proof.Machine.execEthFrameDrop port len cause s
  | .neighbourSolicitRetry port addr => Sys2Proof.Machine.execNeighbourSolicitRetry port addr s
  | .neighbourEntryExpire port addr => Sys2Proof.Machine.execNeighbourEntryExpire port addr s
  | .ethLinkChange port block align localFault remoteFault => Sys2Proof.Machine.execEthLinkChange port block align localFault remoteFault s
  | .ethCounterRead port k => Sys2Proof.Machine.execEthCounterRead port k s
  | .format force => Sys2Proof.Machine.execFormat force s
  | .archRead => Sys2Proof.Machine.execArchRead s
  | .rakeNow => Sys2Proof.Machine.execRakeNow s
  | .rakePassStart => Sys2Proof.Machine.execRakePassStart s
  | .rakeBehind => Sys2Proof.Machine.execRakeBehind s
  | .nandReadDone die block part addr temp ladder rereads corrected rake => Sys2Proof.Machine.execNandReadDone die block part addr temp ladder rereads corrected rake s
  | .nandProgramDone job die block temp ok => Sys2Proof.Machine.execNandProgramDone job die block temp ok s
  | .wearLevelCheck => Sys2Proof.Machine.execWearLevelCheck s
  | .checkpointTrigger units => Sys2Proof.Machine.execCheckpointTrigger units s
  | .ckptNow => Sys2Proof.Machine.execCkptNow s
  | .checkpointComplete => Sys2Proof.Machine.execCheckpointComplete s
  | .zeroize => Sys2Proof.Machine.execZeroize s
  | .anchor => Sys2Proof.Machine.execAnchor s
  | .anchorApply => Sys2Proof.Machine.execAnchorApply s
  | .tickLoad => Sys2Proof.Machine.execTickLoad s
  | .tickLoadApply => Sys2Proof.Machine.execTickLoadApply s
  | .unlock => Sys2Proof.Machine.execUnlock s
  | .chargeClear => Sys2Proof.Machine.execChargeClear s
  | .tampLock => Sys2Proof.Machine.execTampLock s
  | .tamperLatchClear mask => Sys2Proof.Machine.execTamperLatchClear mask s
  | .oscStoppedClear => Sys2Proof.Machine.execOscStoppedClear s
  | .cloTrimWrite trim => Sys2Proof.Machine.execCloTrimWrite trim s
  | .cloAlarmFire n => Sys2Proof.Machine.execCloAlarmFire n s
  | .oscStopDetect => Sys2Proof.Machine.execOscStopDetect s
  | .oscResume => Sys2Proof.Machine.execOscResume s
  | .tamperAssert source => Sys2Proof.Machine.execTamperAssert source s
  | .hedgeSample pair ok => Sys2Proof.Machine.execHedgeSample pair ok s
  | .supplyToBattery => Sys2Proof.Machine.execSupplyToBattery s
  | .supplyToMain nah => Sys2Proof.Machine.execSupplyToMain nah s
  | .retLost => Sys2Proof.Machine.execRetLost s
  | .vbatMeasure mv => Sys2Proof.Machine.execVbatMeasure mv s
  | .cloTimeRead => Sys2Proof.Machine.execCloTimeRead s
  | .cloTrecRead => Sys2Proof.Machine.execCloTrecRead s
  | .handover => Sys2Proof.Machine.execHandover s
  | .take => Sys2Proof.Machine.execTake s
  | .forceTake => Sys2Proof.Machine.execForceTake s
  | .clearNonrevertive => Sys2Proof.Machine.execClearNonrevertive s
  | .prlResync => Sys2Proof.Machine.execPrlResync s
  | .hostBeat => Sys2Proof.Machine.execHostBeat s
  | .hostBeatTimeout => Sys2Proof.Machine.execHostBeatTimeout s
  | .watchdogExpire => Sys2Proof.Machine.execWatchdogExpire s
  | .faultVerdict cause => Sys2Proof.Machine.execFaultVerdict cause s
  | .faultCleared cause => Sys2Proof.Machine.execFaultCleared cause s
  | .pairActiveFall yield => Sys2Proof.Machine.execPairActiveFall yield s
  | .pairTakeRise => Sys2Proof.Machine.execPairTakeRise s
  | .pairHealthyChange high => Sys2Proof.Machine.execPairHealthyChange high s
  | .hello h hello => Sys2Proof.Machine.execHello h hello s
  | .helloDue lines => Sys2Proof.Machine.execHelloDue lines s
  | .negotiateTimeout lines => Sys2Proof.Machine.execNegotiateTimeout lines s
  | .holdoffExpire => Sys2Proof.Machine.execHoldoffExpire s
  | .probationExpire => Sys2Proof.Machine.execProbationExpire s
  | .drillAgeUpdate => Sys2Proof.Machine.execDrillAgeUpdate s
  | .standbySelftest ok => Sys2Proof.Machine.execStandbySelftest ok s
  | .mirror h line rec_ => Sys2Proof.Machine.execMirror h line rec_ s
  | .digest h crc => Sys2Proof.Machine.execDigest h crc s
  | .resync h item => Sys2Proof.Machine.execResync h item s
  | .resyncPhaseDone => Sys2Proof.Machine.execResyncPhaseDone s
  | .command h c ok => Sys2Proof.Machine.execCommand h c ok s
  | .forwardUp h f => Sys2Proof.Machine.execForwardUp h f s
  | .acceptNotice h eui counter rx1 rx2 => Sys2Proof.Machine.execAcceptNotice h eui counter rx1 rx2 s
  | .forwardDown h id eui t0 psdu => Sys2Proof.Machine.execForwardDown h id eui t0 psdu s
  | .downConfirm h id status => Sys2Proof.Machine.execDownConfirm h id status s
  | .runnerRetransmit link => Sys2Proof.Machine.execRunnerRetransmit link s
  | .runnerLinkDown link => Sys2Proof.Machine.execRunnerLinkDown link s
  | .runnerLinkUp link => Sys2Proof.Machine.execRunnerLinkUp link s
  | .ringDataWrite ring v => Sys2Proof.Machine.execRingDataWrite ring v s
  | .ringDataRead ring => Sys2Proof.Machine.execRingDataRead ring s
  | .ringFlush ring => Sys2Proof.Machine.execRingFlush ring s
  | .ringMark ring => Sys2Proof.Machine.execRingMark ring s
  | .ringRewind ring => Sys2Proof.Machine.execRingRewind ring s
  | .ringConfirm ring lo => Sys2Proof.Machine.execRingConfirm ring lo s
  | .ringHrdWrite ring v => Sys2Proof.Machine.execRingHrdWrite ring v s
  | .msixUnmask vector => Sys2Proof.Machine.execMsixUnmask vector s
  | .ringCoalesceTimeout ring => Sys2Proof.Machine.execRingCoalesceTimeout ring s
  | .objectRequest ring => Sys2Proof.Machine.execObjectRequest ring s
  | .meterRequest ring => Sys2Proof.Machine.execMeterRequest ring s
  | .meterRequestTimeout meter => Sys2Proof.Machine.execMeterRequestTimeout meter s
  | .certLoad ring => Sys2Proof.Machine.execCertLoad ring s
  | .eventSummary code => Sys2Proof.Machine.execEventSummary code s
  | .archiveRead => Sys2Proof.Machine.execArchiveRead s
  | .healthDailySample oscSlow => Sys2Proof.Machine.execHealthDailySample oscSlow s
  | .hltUpdate oscSlow => Sys2Proof.Machine.execHltUpdate oscSlow s
  | .tamperInactive source => Sys2Proof.Machine.execTamperInactive source s
  | .zxfFall feeder phase => Sys2Proof.Machine.execZxfFall feeder phase s
  | .ppsOutEdge rise => Sys2Proof.Machine.execPpsOutEdge rise s
  | .saturation channel stage => Sys2Proof.Machine.execSaturation channel stage s

end Sys2Proof.Machine
end

