-- ==== Sys2Proof/Machine/Tick.lean ====
section
/-! DEFINITION. What one CORE_CLK cycle does with no command: the time-stamp counter and the Cloche's count advance (log
entry 1). -/

namespace Sys2Proof.Machine

/-- One CORE_CLK cycle. The counter stands while a reset holds the device (R470); the Cloche's oscillator runs on. A
HANDOVER that waits for its bound is looked at again (R415). -/
def Dev.tick (d : Dev) : Dev :=
  let n := d.cycles + 1
  let d := { d with cycles := n, face := { d.face with counted := [] } }
  let d := if n % cyclesPerTick = 0 then { d with clo := d.clo.tick (signed 24 (d.get F.CLO_TRIM_TRIM)) } else d
  if d.glb.inReset then d
  else { d with tsu := d.tsu.tick (d.get F.TSU_SERVO_SLEW_RATE) }.handoverCheck

end Sys2Proof.Machine
end

