-- ==== Sys2Proof/Safety.lean ====
section
/-! DEFINITION. What the statements speak of: the parts of the device and what it means that a command leaves all but
some of them alone, and the conditions every step keeps. -/

namespace Sys2Proof.Machine

/-- A part of the device: the registers of one 64 KiB block of BAR0 (R5), the host interface's rings, recorder and MSI-X,
what has left the device, or one component. -/
inductive Part where
  | regs (block : Nat)
  | host | out | cycles | free | lastRead | glb | trl | tsu | eth | fhm | dst | eng | bil | key | dur | jnl | nfm | clo | prl
  | zxp | msr
  deriving DecidableEq, Repr

/-- Two devices agree on a part. Registers agree when every offset of the block in the 4 MiB
of BAR0 (R5) reads the same word. What counters have counted in the present cycle is the model's note for R462 and no part. -/
def Part.same (d d' : Dev) : Part → Prop
  | .regs b => ∀ off, off < 4194304 → off / 65536 = b → d'.reg off = d.reg off
  | .host => d'.face.hst = d.face.hst
  | .out => d'.face.out = d.face.out
  | .cycles => d'.cycles = d.cycles
  | .free => d'.free = d.free
  | .lastRead => d'.lastRead = d.lastRead
  | .glb => d'.glb = d.glb
  | .trl => d'.trl = d.trl
  | .tsu => d'.tsu = d.tsu
  | .eth => d'.eth = d.eth
  | .fhm => d'.fhm = d.fhm
  | .dst => d'.dst = d.dst
  | .eng => d'.eng = d.eng
  | .bil => d'.bil = d.bil
  | .key => d'.key = d.key
  | .dur => d'.dur = d.dur
  | .jnl => d'.jnl = d.jnl
  | .nfm => d'.nfm = d.nfm
  | .clo => d'.clo = d.clo
  | .prl => d'.prl = d.prl
  | .zxp => d'.zxp = d.zxp
  | .msr => d'.msr = d.msr

/-- What a journal entry may change: the journal's registers, the entry's mirror copy and its way out (R361, R411). -/
def Part.journal : List Part := [.out, .dur, .jnl, .prl, .regs 14, .regs 16]

/-- What an event may change: its status bit apart, the recorder and its counters (R456), the event rings and their messages
(R440, R442), and the journal entry that reserves event numbers. -/
def Part.event : List Part := [.host, .out, .dur, .jnl, .prl, .regs 2, .regs 14, .regs 16, .regs 17]

/-- Every register. -/
def Part.allRegs : List Part := (List.range 64).map .regs

/-- `d'` differs from `d` at most in the listed parts. -/
def Dev.sameBut (ps : List Part) (d d' : Dev) : Prop := ∀ p, p ∉ ps → p.same d d'

/-- Command `c` completes at `s`: it answers a next state, the queue as it was, whose device satisfies `P`. -/
def Runs (c : Instr) (s : State) (P : Dev → Prop) : Prop := ∃ t, exec c s = .next t ∧ t.pending = s.pending ∧ P t.dev

/-- Command `c` completes at every state, and leaves alone every part but the listed ones, and the queue. -/
def Leaves (c : Instr) (ps : List Part) : Prop := ∀ s, Runs c s fun d => s.dev.sameBut ps d

/-- Port `n` delivers a frame of `len` octets: it is enabled and the frame is at most 1,522 octets (R338). -/
def Dev.takesFrame (d : Dev) (n len : Nat) : Bool := d.ethEnabled n && decide (len ≤ 1522)

/-- Port `n` takes a PTP message: a frame it delivers, to a port with a PTP role that is not FAULTY, that passes R324. -/
def Dev.takesPtp (d : Dev) (n : Nat) (h : PtpHdr) : Bool :=
  d.takesFrame n h.len && d.get (F.TSU_Pn_CFG_ROLE.at n) != 3 && d.portState n != Ps.faulty && d.ptpPasses n h

/-- A PTP message leaves port `n` in its frame (R324, R327). -/
def Dev.ptpOut (d : Dev) (n : Nat) (m : PtpMsg) : Out := .ptp n m (d.ptpFrame n m)

/-- A message on the slave port from the master selected there. -/
abbrev Dev.fromMaster (d : Dev) (n : Nat) (h : PtpHdr) : Prop := d.slavePort = n ∧ h.source = (d.ptpPort n).source

/-- A Sync of an interval in R324's range that comes within the receipt timeout of the last one (R328). -/
abbrev Dev.syncInTime (d : Dev) (n : Nat) (h : PtpHdr) : Prop :=
  -7 ≤ h.interval ∧ h.interval ≤ 4 ∧ d.cycles ≤ (d.ptpPort n).syncAt + Config.syncTimeout (d.ptpPort n).syncLog

/-- The Pdelay_Req of port `n` was sent no longer ago than a Pdelay_Resp may take (R328). -/
abbrev Dev.pdelayInTime (d : Dev) (n : Nat) : Prop := d.cycles ≤ (d.ptpPort n).reqAt + Config.pdelayTimeout (d.logDelay n)

/-- Port `n`, not master only and of a sound profile (R325), takes an Announce that can qualify its master and comes within the
receipt timeout (R324, R328). -/
abbrev Dev.hearsAnnounce (d : Dev) (n : Nat) (h : PtpHdr) (a : Announce) : Prop :=
  d.takesPtp n h = true ∧ -7 ≤ a.interval ∧ a.interval ≤ 4 ∧ a.usable h.source = true ∧ d.get (F.TSU_Pn_CFG_ROLE.at n) ≠ 1 ∧
    d.profileOk n = true ∧ d.cycles ≤ (d.ptpPort n).heard + d.announceWait n

/-- A datagram that port `n` delivers to a serving device with radio profiles, as its fields (R57, R61, R338). -/
def Dev.hlpTakes (d : Dev) (n : Nat) (b : Bytes) : Option HlpMsg :=
  if d.takesFrame n (58 + b.length) ∧ d.serves ∧ d.trellis.radio ≠ [] then (udpPayload d.trellis.device.hlpPort b).bind parseHlp
  else none

/-- The object request at the front of a ring is a work item already (R196). -/
abbrev Dev.viewWaits (d : Dev) (ring : Nat) : Bool :=
  d.eng.downs.any (fun x => x.2.1 == .view ring) || d.eng.flight.any fun p => p.2.job == some (.view ring)

/-- Such a datagram of type `type` that belongs to its head's session and is no replay, with its extended number (R63, R64):
all that is left to check is its tag. -/
def Dev.hlpReady (d : Dev) (n : Nat) (b : Bytes) (type : Nat) : Option (HlpMsg × Int) :=
  (d.hlpTakes n b).bind fun m =>
    if m.type = type ∧ m.head ≠ 0xFFFF ∧ m.epoch ≠ 0 ∧ (d.headRt m.head).session ∧ (d.headReg? m.head).map (·.epoch) = some m.epoch then
      ((d.headRt m.head).window m.seq).map fun x => (m, x)
    else none

/-- The tag of a session datagram is right (R63). -/
def Dev.hlpTagOk (d : Dev) (m : HlpMsg) (ext : Int) : Bool := m.tag == m.tagUnder (d.headRt m.head).key ext

/-- The body of a session datagram, opened (R63). -/
def Dev.hlpBody (d : Dev) (m : HlpMsg) (ext : Int) : Bytes := m.opened (d.headRt m.head).key ext

/-- A datagram of type `type` that its head's session accepts: `m`, its tag right, its body `b` once opened (R57, R63, R64). -/
abbrev Dev.hlpAccepts (d : Dev) (n : Nat) (g : Bytes) (type : Nat) (m : HlpMsg) (b : Bytes) : Prop :=
  ∃ ext, d.hlpReady n g type = some (m, ext) ∧ d.hlpTagOk m ext = true ∧ d.hlpBody m ext = b

/-- Such a datagram whose tag is wrong (R63). -/
abbrev Dev.hlpForged (d : Dev) (n : Nat) (g : Bytes) (type : Nat) : Prop :=
  ∃ m ext, d.hlpReady n g type = some (m, ext) ∧ d.hlpTagOk m ext = false

/-- What a REQUEST `m` of head `i`, its body opened to `b`, tells of the lead it needs (R66, R79, R80). -/
def Dev.joinHead (d : Dev) (i : Nat) (m : HlpMsg) (b : Bytes) : HeadRt :=
  { d.headRt i with
    setup := b.be 34 2, delays := [], confirms := 0, joinDelay := ((d.now - m.sent : Nat) : Int)
    rate := topRate (b.u8 36 &&& (d.cellProfile i).rates &&& 7) }

/-- The profile of cell `i` is within what the body `b` of a REQUEST declares (R66). -/
def Dev.joinCovered (d : Dev) (i : Nat) (b : Bytes) : Bool :=
  (d.cellProfile i).covered (b.u8 37) (b.u8 36) (b.be 38 4) (b.be 42 4)

/-- A REQUEST of head `i`, registered as `r` under the one key `k`, that a serving device takes (R57, R66): all that is left to check
is its tag. -/
abbrev Dev.requestReady (d : Dev) (n : Nat) (g : Bytes) (m : HlpMsg) (i : Nat) (r : HeadReg) (k : KeySet) : Prop :=
  d.hlpTakes n g = some m ∧ m.type = 7 ∧ m.head = 0xFFFF ∧ m.epoch = 0 ∧ d.dur.heads.find? (fun p => p.2.eui == m.eui) = some (i, r) ∧
    d.headReg? i = some r ∧ d.headKeysOf i = (some k, none)

/-- Instance `i` of a saturating counter register counted one event (R460). -/
abbrev Dev.counted (d d' : Dev) (r : RegD) (i : Nat) : Prop :=
  d'.reg (r.at i) = BitVec.ofNat 32 (satNat 32 ((d.reg (r.at i)).toNat + 1))

/-- The word that a clear leaves of a counter: what it has counted in this cycle (R462). -/
def Dev.justCounted (d : Dev) (off : Nat) : Word := BitVec.ofNat 32 (satNat 32 (Maps.getD d.face.counted off 0))

/-- The frame of header `h` with `m` on a Runner link is one this device takes: up, whole, in order, and addressed to it (R425,
R426). -/
abbrev Dev.hears (d : Dev) (h : RHdr) (m : RunnerMsg) : Prop :=
  d.prl.up = true ∧ h.link < 3 ∧ h.crcOk m = true ∧ h.seq = ((d.link h.link).ack + 1) % 65536 ∧ h.dst = d.trellis.device.position

/-- A packet of a ring as a host command. -/
def cmdOf (ring : Nat) (p : List Word) : HostCmd := ⟨ring, wordsToBytes p.tail⟩

/-- A command of opcode `op` at the front of a command ring, of a right form, that a serving, unlocked device takes: its response
ring has room (R440, R446). -/
abbrev Dev.takesCmd (d : Dev) (ring op : Nat) (p : List Word) : Prop :=
  (d.ring ring).ready.head? = some p ∧ (cmdOf ring p).opcode = op ∧ (d.ringRec ring).content = 5 ∧
    d.answers (cmdOf ring p).respRing = true ∧ responseRoom ≤ d.face.ringFree (cmdOf ring p).respRing ∧
    (cmdOf ring p).layout = Cmd.ok ∧ d.keyLocked = false ∧ d.serves = true

/-- The signature of a command verifies under the key of the certificate it names, where that is cached. -/
def Dev.signedBy (d : Dev) (c : HostCmd) : Bool :=
  match d.face.hst.certs.find? (·.ref == c.certRef) with
  | some e => Crypto.ecdsaVerify (BitVec.ofNat 512 e.key) (Crypto.sha256 c.signedPart) c.signature
  | none => false

/-- The certificate a command names is cached, and the command is fresh (R448). -/
abbrev Dev.freshCmd (d : Dev) (c : HostCmd) (e : CertEntry) : Prop :=
  d.face.hst.certs.find? (·.ref == c.certRef) = some e ∧ ((c.nonce : Int) - (d.now : Int)).natAbs ≤ 60000000000 ∧ e.lastNonce < c.nonce

/-- What the latest command sent out last. -/
def Dev.lastOut (d : Dev) : Option Out := d.face.out.head?

/-- A write of `v` at `off` that stores the word its field types leave and does nothing else (R6 to R8): a mapped register
outside the Cloche, with no row of its own, no opcode, and no effect of its own after the write. -/
def storedAlone (off : Nat) (v : Word) : Bool :=
  decide (off < 0x3F0000 ∧ off % 4 = 0 ∧ off / 65536 ≠ 0xF) && !unlistedOpcode off v && !ownRow.any (·.covers off) &&
  !([R.NFM_RT_DATA_LO, R.NFM_RT_DATA_HI, R.HLT_FC_LIMIT, R.TSU_INCR_INT, R.TSU_UTC, R.MSR_CTRL, R.FHM_HEAD_SEL, R.FHM_LEAD,
    R.FHM_SF, R.FHM_SF_CTRL, R.ZXP_SCHED, R.MSR_PHASE_BASE, R.MSR_CH_TRIM, R.PRL_HOST_BEAT, R.TSU_CTRL, R.TSU_PTP_CFG,
    R.TSU_Pn_CFG, R.ETH_n_CTRL, R.RNG_n_IRQ, R.RNG_n_CFG, R.RNG_n_HSIZE, R.KEY_BCAST, R.GLB_GPIO_OE, R.GLB_GPIO_OUT] : List RegD).any (·.covers off)

/-- What follows a check: `bad` of the error where it fails, `good` of what it yields where it passes. -/
def Judged {ε α : Type} (r : Except ε α) (bad : ε → Prop) (good : α → Prop) : Prop :=
  match r with
  | .error e => bad e
  | .ok p => good p

/-- The register store is in its one form: offsets rise, and no register is listed at its reset word. -/
def Face.canonical (f : Face) : Bool := Maps.rising f.regs && f.regs.all fun p => p.2 != resetWord p.1

/-- The counter's nanoseconds and fraction lie in their ranges (R12, R318). -/
def Tsu.inRange (t : Tsu) : Bool := decide (t.ns < 1000000000) && decide (t.frac < 2 ^ 32)

/-- What every step keeps: the register store and the root vault in their one form, and the counter in its range. -/
structure Dev.Inv (d : Dev) : Prop where
  registers : d.face.canonical = true
  time : d.tsu.inRange = true
  vault : Maps.rising d.clo.vault = true

/-- One-time programmable fuses only gain: a programmed owner hash stays, and the version floor does not fall (R37, R38). -/
structure TrlRt.FusesLe (t t' : TrlRt) : Prop where
  owner : ∀ h, t.ownerFuse = some h → t'.ownerFuse = some h
  floor : t.floor ≤ t'.floor

end Sys2Proof.Machine
end

