-- ==== Sys2Proof/Certificates/Slice0/Obligations.lean ====
section
/-! DEFINITION. The statements. Each one's docstring names the rules of spec/ it rests on. `Runs c s P` says that `c` answers a
next state at `s`, the queue as it was, with `P` of its device; `Leaves c ps` that it changes no part but those listed. -/

open Sys2Proof Sys2Proof.Machine

/-- R375 to R383: the Cloche's supply, oscillator, counter load and reads. R385, R387: a trim applies at once, or waits
for a measurement to end; an anchor takes the offset of the tick edge. -/
def Obligations.ClocheCounterTrimAndAnchor : Prop :=
  (∀ s, s.dev.cloSettle.flag F.CLO_STATUS_OSC_STOPPED = true → Runs .tickLoad s fun d => d.get F.CLO_STATUS_LOAD_BUSY = 1) ∧
  (∀ s, s.dev.flag F.CLO_STATUS_LOAD_BUSY = true → s.dev.clo.oscRunning = true → Runs .tickLoadApply s fun d =>
      d.clo.count = s.dev.wide R.CLO_TICK_SET_LO R.CLO_TICK_SET_HI 0 % 2 ^ 48 ∧ d.get F.CLO_STATUS_LOAD_BUSY = 0) ∧
  (∀ s, (s.dev.cloSettle.setNow R.CLO_STATUS.off).getLsbD 0 = false → Runs .oscStoppedClear s fun d => d.get
      F.CLO_STATUS_OSC_STOPPED = 0 ∧ d.get F.CLO_STATUS_LOAD_BUSY = 0) ∧
  (∀ s, (s.dev.cloSettle.setNow R.CLO_STATUS.off).getLsbD 0 = true → Runs .oscStoppedClear s fun d => d = s.dev.cloSettle) ∧
  (∀ s, Runs .oscStopDetect s fun d => d.clo.oscRunning = false ∧ d.get F.CLO_STATUS_OSC_STOPPED = 1) ∧
  (∀ s, Runs .oscResume s fun d => d.clo.oscRunning = true) ∧
  (∀ s, Runs .cloTimeRead s fun d => d.lastRead = BitVec.ofNat 32 s.dev.cloSettle.clo.count ∧ d.clo.shadow = some
      s.dev.cloSettle.clo.count) ∧
  (∀ s, Runs .supplyToBattery s fun d => d.clo.onBattery = true ∧ d.get F.CLO_STATUS_WENT_BATTERY = 1) ∧
  (∀ s nah, s.dev.clo.onBattery = true → Runs (.supplyToMain nah) s fun d => d.clo.onBattery = false ∧ d.get
      F.CLO_CHARGE_NAH = satNat 32 (s.dev.get F.CLO_CHARGE_NAH + nah)) ∧
  (∀ s, Runs .chargeClear s fun d => d.get F.CLO_CHARGE_NAH = 0) ∧
  (∀ s mv, s.dev.clo.onBattery = false → Runs (.vbatMeasure mv) s fun d => d.get F.CLO_VBAT_MV = mv % 2 ^ 16) ∧
  (∀ s, Runs .retLost s fun d => d.clo.vault = [] ∧ d.clo.candidate = none ∧ d.clo.records = [] ∧ ∀ off, off / 65536 =
      15 → off ≠ R.CLO_STATUS.off → d.reg off = resetWord off) ∧
  (∀ s trim, s.dev.cloSettle.tsu.clo = none → Runs (.cloTrimWrite trim) s fun d => d.get F.CLO_TRIM_TRIM = trim % 2 ^ 24) ∧
  (∀ s trim m, s.dev.cloSettle.tsu.clo = some m → Runs (.cloTrimWrite trim) s fun d => d.clo.trimWaits = some (trim % 2 ^ 24)) ∧
  (∀ s, s.dev.cloSettle.timeValid = true → Runs .anchor s fun d => d.get F.CLO_STATUS_ANCHOR_BUSY = 1) ∧
  (∀ s, s.dev.flag F.CLO_STATUS_ANCHOR_BUSY = true → s.dev.clo.oscRunning = true → s.dev.timeValid = true → Runs
      .anchorApply s fun d => d.get F.CLO_STATUS_ANCHOR_BUSY = 0 ∧ d.anchorTicks = signed 64 (pattern 64
      s.dev.anchorOffset))

/-- R7, R388, R391 to R395: alarms, tamper sources, their lock and latch, and accesses over the slow bridge. -/
def Obligations.ClocheAlarmsAndTamper : Prop :=
  (∀ s n, n < 4 → s.dev.alarmAt n ≤ s.dev.clo.count → bitAt (s.dev.get F.CLO_ALARM_CTRL_ARM) n = true → Runs
      (.cloAlarmFire n) s fun d => bitAt (d.get F.CLO_ALARM_CTRL_ARM) n = false ∧ bitAt (d.get F.CLO_ALARM_CTRL_FIRED)
      n = true) ∧
  (∀ s, Runs .tampLock s fun d => d.get F.CLO_TAMP_LOCK_LOCK = 1) ∧
  (∀ s, s.dev.cloSettle.key.session.isSome = true → Runs .unlock s fun d => d.get F.CLO_TAMP_LOCK_LOCK = 0) ∧
  (∀ s mask n, s.dev.cloSettle.key.session.isSome = true → bitAt mask n = true → bitAt (s.dev.cloSettle.get
      F.CLO_TAMPER_ACTIVE) n = false → bitAt (s.dev.cloSettle.setNow R.CLO_TAMPER_LATCH.off).toNat n = false →
      Runs (.tamperLatchClear mask) s fun d => bitAt (d.get F.CLO_TAMPER_LATCH_SOURCE) n = false) ∧
  (∀ s, s.dev.cloSettle.flag (F.CLO_TAMP_CFG_s_ENABLE.at 12) = true → s.dev.cloSettle.flag (F.CLO_TAMP_CFG_s_ZEROIZE.at
      12) = true → s.dev.cloSettle.clo.zeroTick ≠ some (s.dev.cycles / cyclesPerTick) → Runs .zeroize s fun d =>
      d.clo.vault = [] ∧ (Maps.getD d.clo.records 12 {}).count = satNat 16 ((Maps.getD s.dev.cloSettle.clo.records 12
      {}).count + 1)) ∧
  (∀ s n, n < 12 → s.dev.flag (F.CLO_TAMP_CFG_s_ENABLE.at n) = true → bitAt (s.dev.get F.CLO_TAMPER_ACTIVE) n = false →
      Runs (.tamperAssert n) s fun d => (Maps.getD d.clo.records n {}).count = satNat 16 ((Maps.getD s.dev.clo.records
      n {}).count + 1) ∧ (Maps.getD d.clo.records n {}).last = s.dev.clo.count) ∧
  (∀ s n, n < 12 → Runs (.tamperInactive n) s fun d => bitAt (d.get F.CLO_TAMPER_ACTIVE) n = false) ∧
  (∀ s pair, pair < 2 → s.dev.flag (F.CLO_TAMP_CFG_s_ENABLE.at (8 + pair)) = true → Runs (.hedgeSample pair true) s fun
      d => Maps.getD d.clo.hedge pair 0 = 0 ∧ bitAt (d.get F.CLO_TAMPER_ACTIVE) (8 + pair) = false) ∧
  (∀ s, Runs .cloTrecRead s fun d => d.clo.trecShadow = some (Maps.getD s.dev.cloSettle.clo.records (s.dev.cloSettle.get
      F.CLO_TREC_SEL_SOURCE) {})) ∧
  (∀ s b rest v, s.dev.clo.bridge = b :: rest → b.write = some v → b.off = R.CLO_TRIM.off → s.dev.tsu.clo = none → Runs
      (.cloAccessArrival none) s fun d => d.clo.bridge = rest ∧ d.get F.CLO_TRIM_TRIM = v.toNat % 2 ^ 24) ∧
  (∀ s, s.dev.clo.bridge = [] → Runs (.cloAccessArrival (some R.CLO_TIME_LO.off)) s fun d => d.lastRead = BitVec.ofNat
      32 s.dev.clo.count)

/-- R318 to R320: a STEP adds its amount at once, a SLEW in the course of time, and TSU_INCR applies clamped. -/
def Obligations.TimeAdjust : Prop :=
  (∀ s, s.dev.adjOwned true = false → s.dev.adjBad = false → 0 ≤ (s.dev.now : Int) + (s.dev.signedFld
      F.TSU_ADJ_SEC_AMOUNT * 1000000000 + s.dev.signedFld F.TSU_ADJ_NS_AMOUNT) → Runs .tsuStep s fun d => (d.now :
      Int) = s.dev.now + (s.dev.signedFld F.TSU_ADJ_SEC_AMOUNT * 1000000000 + s.dev.signedFld F.TSU_ADJ_NS_AMOUNT) ∧
      d.get F.TSU_INT_STATUS_STEPPED = 1 ∧ d.get F.TSU_INT_STATUS_ADJ_DONE = 1 ∧ d.get F.TSU_ADJ_CMD_RESULT = 0) ∧
  (∀ s, s.dev.adjOwned false = false → s.dev.adjBad = false → s.dev.signedFld F.TSU_ADJ_SEC_AMOUNT = 0 → Runs .tsuSlew s
      fun d => d.tsu.slew = s.dev.signedFld F.TSU_ADJ_NS_AMOUNT * 2 ^ 32 ∧ d.get F.TSU_ADJ_CMD_BUSY = 1 ∧ d.get
      F.TSU_ADJ_CMD_RESULT = 0) ∧
  (∀ s, s.dev.flag F.TSU_ADJ_CMD_BUSY = true → 0 ≤ (s.dev.now : Int) * 2 ^ 32 + s.dev.tsu.frac + s.dev.tsu.slew → Runs
      .slewDone s fun d => (d.now : Int) * 2 ^ 32 + d.tsu.frac = (s.dev.now : Int) * 2 ^ 32 + s.dev.tsu.frac +
      s.dev.tsu.slew ∧ d.tsu.slew = 0 ∧ d.get F.TSU_ADJ_CMD_BUSY = 0 ∧ d.get F.TSU_INT_STATUS_ADJ_DONE = 1) ∧
  (∀ s frac, s.dev.get F.TSU_CTRL_SERVO ≠ 0 → Runs (.tsuIncrWrite frac) s fun d => d.tsu.incr = clampIncr (s.dev.get
      F.TSU_INCR_INT_INCR % 16 * 2 ^ 32 + frac.toNat))

/-- R318, R335, R337: reads latch what belongs together; a measurement runs from START to CLO_DONE. R330, R334, R335: the
holdover limit, a leap second, and the 1PPS input and output. -/
def Obligations.TimeReadsAndReferences : Prop :=
  (∀ s, Runs .tsuTimeRead s fun d => d.lastRead = BitVec.ofNat 32 s.dev.tsu.frac ∧ d.tsu.timeLatch = some (s.dev.tsu.ns,
      s.dev.tsu.sec)) ∧
  (∀ s, Runs .tsuPpsInRead s fun d => d.lastRead = s.dev.reg R.TSU_PPS_IN_NS.off ∧ d.tsu.ppsLatch = s.dev.tsu.pps.map
      Prod.fst) ∧
  (∀ s, s.dev.flag F.TSU_CLO_CMD_BUSY = false → Runs .cloMeasureStart s fun d => d.get F.TSU_CLO_CMD_BUSY = 1 ∧ d.get
      F.TSU_CLO_CMD_UNTRUSTED = 0 ∧ d.tsu.clo.map (·.gate) = some (s.dev.get F.TSU_CLO_CMD_GATE)) ∧
  (∀ s m n, s.dev.tsu.clo = some m → Runs (.cloMeasureDone n) s fun d => d.tsu.clo = none ∧ d.get F.TSU_CLO_CMD_BUSY = 0
      ∧ d.get F.TSU_INT_STATUS_CLO_DONE = 1 ∧ d.wide R.TSU_CLO_RESULT_LO R.TSU_CLO_RESULT_HI 0 = n % 2 ^ 64) ∧
  (∀ s, s.dev.servo = Sv.holdover → s.dev.tsu.holdSince + s.dev.get F.TSU_LOCK_HOLD_LIMIT * secCycles < s.dev.cycles →
      Runs .holdoverLimit s fun d => d.servo = Sv.freerun ∧ d.get F.TSU_INT_STATUS_FREERUN
      = 1) ∧
  (∀ s, s.dev.flag F.TSU_UTC_LEAP61 = true → ((s.dev.tsu.sec : Int) - s.dev.signedFld F.TSU_UTC_OFFSET) % 86400 = 0 →
      Runs .utcLeap s fun d => d.get F.TSU_UTC_OFFSET = pattern 16
      (s.dev.signedFld F.TSU_UTC_OFFSET + 1) ∧ d.get F.TSU_UTC_LEAP61 = 0 ∧ d.get F.TSU_INT_STATUS_LEAP = 1) ∧
  (∀ s, s.dev.flag F.TSU_UTC_LEAP59 = true → ((s.dev.tsu.sec : Int) - s.dev.signedFld F.TSU_UTC_OFFSET) % 86400 = 86399 →
      Runs .utcLeap s fun d => d.get
      F.TSU_UTC_OFFSET = pattern 16 (s.dev.signedFld F.TSU_UTC_OFFSET - 1) ∧ d.get F.TSU_UTC_LEAP59 = 0 ∧ d.get
      F.TSU_INT_STATUS_LEAP = 1) ∧
  (∀ s, s.dev.get F.TSU_CTRL_PPS_IN_MODE ≠ 0 → 0 ≤ s.dev.stamp - s.dev.signedFld F.TSU_PPS_IN_COMP_DELAY * 256 → Runs
      .ppsInEdge s fun d => d.tsu.pps = some (((s.dev.stamp - s.dev.signedFld F.TSU_PPS_IN_COMP_DELAY * 256) / 65536 /
      1000000000).toNat, ((s.dev.stamp - s.dev.signedFld F.TSU_PPS_IN_COMP_DELAY * 256) / 65536 % 1000000000).toNat)) ∧
  (∀ s, s.dev.get F.TSU_CTRL_PPS_IN_MODE = 2 → s.dev.tsu.ppsDue < s.dev.cycles → Runs .ppsInMissing s fun d =>
      d.tsu.ppsMissed = s.dev.tsu.ppsMissed + 1 ∧
      d.get F.TSU_INT_STATUS_PPS_IN_MISSING = 1) ∧
  (∀ s, s.dev.flag F.TSU_CTRL_PPS_OUT_EN = true → ((s.dev.now : Int) - s.dev.signedFld F.TSU_PPS_OUT_OFFSET) % 1000000000 ≤ 2
      → s.dev.tsu.ppsOutSec ≠ some (((s.dev.now : Int) - s.dev.signedFld
      F.TSU_PPS_OUT_OFFSET) / 1000000000).toNat → Runs (.ppsOutEdge true) s fun d => d.tsu.ppsOut = true ∧ d.lastOut =
      some (.pin 0 0 true)) ∧
  (∀ s, s.dev.tsu.ppsOut = true → s.dev.tsu.ppsOutAt + cyclesOf (s.dev.get F.TSU_PPS_OUT_WIDTH) ≤ s.dev.cycles → Runs
      (.ppsOutEdge false) s fun d => d.tsu.ppsOut = false ∧ d.lastOut = some (.pin 0 0
      false))

/-- R321, R324, R326, R327: what a Sync, a Follow_Up and the delay messages leave on a port that takes them. R324, R329,
R330: a second Announce qualifies its master (the choice of the model, log entry 11), a timeout forgets it, and intervals send. R328:
receipt timeouts. -/
def Obligations.PtpMessages : Prop :=
  (∀ s n h origin, s.dev.takesPtp n h = true → s.dev.fromMaster n h → s.dev.syncInTime n h → h.twoStep = true → Runs
      (.ptpSync n h origin) s fun d => (d.ptpPort n).sync = some (h.seq, s.dev.rxStamp n, h.correction)) ∧
  (∀ s n h origin, s.dev.takesPtp n h = true → s.dev.fromMaster n h → s.dev.syncInTime n h → h.twoStep = false → Runs
      (.ptpSync n h origin) s fun d => (d.ptpPort n).msDiff = some (s.dev.rxStamp n - origin - h.correction)) ∧
  (∀ s n h origin t c, s.dev.takesPtp n h = true → s.dev.fromMaster n h → (s.dev.ptpPort n).sync = some (h.seq, t, c) →
      Runs (.ptpFollowUp n h origin) s fun d => (d.ptpPort n).msDiff = some (t - origin - (c + h.correction))) ∧
  (∀ s n h, s.dev.takesPtp n h = true → s.dev.masterSends n = true → s.dev.flag
      (F.ETH_n_CTRL_LOOPBACK.at n) = false → s.dev.get (F.TSU_Pn_CFG_DELAY.at n) = 0 → Runs (.ptpDelayReq n h) s fun d =>
      d.lastOut = some (s.dev.ptpOut n
      { type := Pt.delayResp, seq := h.seq, stamp := s.dev.rxStamp n, correction := h.correction,
        interval := s.dev.logDelay n, requester := h.source })) ∧
  (∀ s n h receipt t diff, s.dev.takesPtp n h = true → s.dev.fromMaster n h → h.requester = ptpSource n → s.dev.get
      (F.TSU_Pn_CFG_DELAY.at n) = 0 →
      (s.dev.ptpPort n).req = some (h.seq, t) → (s.dev.ptpPort n).msDiff = some diff → Runs (.ptpDelayResp n h
      receipt) s fun d => (d.ptpPort n).req = none ∧ (d.ptpPort n).delays = ((diff + (receipt - t) - h.correction) / 2
      :: (s.dev.ptpPort n).delays).take (2 ^ s.dev.get F.TSU_SERVO_DELAY_AVG)) ∧
  (∀ s n h, s.dev.takesPtp n h = true → s.dev.flag
      (F.ETH_n_CTRL_LOOPBACK.at n) = false → s.dev.get (F.TSU_Pn_CFG_DELAY.at n) ≠ 0 → s.dev.serves
      = true → s.dev.flag (F.TSU_Pn_CFG_ONE_STEP.at n) = true → Runs (.ptpPdelayReq n h) s fun d => d.lastOut =
      some (s.dev.ptpOut n
      { type := Pt.pdelayResp, seq := h.seq, correction := h.correction + (s.dev.txStamp n - s.dev.rxStamp n),
        interval := logNone, requester := h.source })) ∧
  (∀ s n h, s.dev.takesPtp n h = true → s.dev.flag
      (F.ETH_n_CTRL_LOOPBACK.at n) = false → s.dev.get (F.TSU_Pn_CFG_DELAY.at n) ≠ 0 → s.dev.serves
      = true → s.dev.flag (F.TSU_Pn_CFG_ONE_STEP.at n) = false → Runs (.ptpPdelayReq n h) s fun d => d.lastOut = some
      (s.dev.ptpOut n
      { type := Pt.pdelayFollowUp, seq := h.seq, stamp := s.dev.txStamp n, correction := h.correction,
        interval := logNone, requester := h.source })) ∧
  (∀ s n h receipt t, s.dev.takesPtp n h = true → s.dev.get (F.TSU_Pn_CFG_DELAY.at n) = 1 → (s.dev.ptpPort n).req = some
      (h.seq, t) → h.requester = ptpSource n → s.dev.pdelayInTime n → h.twoStep = false → Runs (.ptpPdelayResp n h receipt) s
      fun d => (d.ptpPort n).peer = some ((s.dev.rxStamp n - t - h.correction) / 2) ∧ (d.ptpPort n).req = none) ∧
  (∀ s n h receipt t, s.dev.takesPtp n h = true → s.dev.get (F.TSU_Pn_CFG_DELAY.at n) = 1 → (s.dev.ptpPort n).req = some
      (h.seq, t) → h.requester = ptpSource n → s.dev.pdelayInTime n → h.twoStep = true → Runs (.ptpPdelayResp n h receipt) s
      fun d => (d.ptpPort n).presp = some (h.source, h.seq, receipt, s.dev.rxStamp n, h.correction)) ∧
  (∀ s n h origin t t2 t4 c, s.dev.takesPtp n h = true → (s.dev.ptpPort n).req = some (h.seq, t) → (s.dev.ptpPort
      n).presp = some (h.source, h.seq, t2, t4, c) → h.requester = ptpSource n → Runs (.ptpPdelayRespFollowUp n h origin) s
      fun d => (d.ptpPort n).peer = some ((t4 - t - (origin - t2) - c - h.correction) / 2)) ∧
  (∀ s n h a, s.dev.hearsAnnounce n h a → (s.dev.ptpPort n).foreign.find? (·.source == h.source) = none → Runs
      (.ptpAnnounce n h a) s fun d => (d.ptpPort n).foreign.find? (·.source == h.source) = some ⟨h.source, a,
      s.dev.cycles, none⟩) ∧
  (∀ s n h a f, s.dev.hearsAnnounce n h a → (s.dev.ptpPort n).best = none → (s.dev.ptpPort n).foreign = [f] → f.source =
      h.source → s.dev.cycles ≤ f.heard + 4 * intervalCycles a.interval → Runs (.ptpAnnounce n h a) s fun d => (d.ptpPort
      n).best = some a ∧ (d.ptpPort n).source = h.source) ∧
  (∀ s n, s.dev.announceRuns n = true → (s.dev.ptpPort n).heard + s.dev.announceWait n < s.dev.cycles → Runs (.ptpAnnounceTimeout n) s fun d =>
      (d.ptpPort n).best = none ∧ (d.ptpPort n).sync = none ∧ (d.ptpPort
      n).msDiff = none) ∧
  (∀ s n, s.dev.ptpEnabled n = true → s.dev.masterSends n = true → Runs (.ptpMessageDue n 0) s fun d => (d.ptpPort
      n).seqSync = ((s.dev.ptpPort n).seqSync + 1) % 65536) ∧
  (∀ s n, s.dev.ptpEnabled n = true → s.dev.masterSends n = true → s.dev.flag
      (F.ETH_n_CTRL_LOOPBACK.at n) = false → Runs (.ptpMessageDue n 1) s fun d => d.lastOut = some
      (s.dev.ptpOut n
      { type := Pt.announce, seq := (s.dev.ptpPort n).seqAnnounce, interval := s.dev.logAnnounce n,
        ann := some s.dev.sentClock })) ∧
  (∀ s n, s.dev.ptpEnabled n = true → s.dev.portState n ≠ Ps.faulty → s.dev.slavePort = n → Runs (.ptpMessageDue n 2) s
      fun d => (d.ptpPort n).req = some ((s.dev.ptpPort n).seqReq, s.dev.txStamp n))

/-- R338 to R341: what an enabled port answers, caches, drops and counts. -/
def Obligations.EthernetPorts : Prop :=
  (∀ s n len src mac target, s.dev.takesFrame n len = true → s.dev.flag
      (F.ETH_n_CTRL_LOOPBACK.at n) = false → s.dev.ownAddr n target = true → Runs
      (.ethNeighborSolicitation n len src mac target) s fun d => d.lastOut = some (.net n 0 mac target []) ∧
      ((d.ethPort n).cache.any fun e => e.addr == src && e.mac == mac) = true) ∧
  (∀ s n len src mac dst data, s.dev.takesFrame n len = true → s.dev.flag
      (F.ETH_n_CTRL_LOOPBACK.at n) = false → s.dev.ownAddr n dst = true → (s.dev.ethPort n).echoSec ≠
      s.dev.tsu.sec ∨ (s.dev.ethPort n).echoes < 100 → Runs (.ethEchoRequest n len src mac dst data) s fun d =>
      d.lastOut = some (.net n 1 mac src data)) ∧
  (∀ s n len src mac target, s.dev.takesFrame n len = true → s.dev.flag
      (F.ETH_n_CTRL_LOOPBACK.at n) = false → target ≠ 0 → (s.dev.reg (R.ETH_n_IP4.at n)).toNat = target
      → Runs (.ethArpRequest n len src mac target) s fun d => d.lastOut = some (.net n 2 mac src [])) ∧
  (∀ s n len target mac, s.dev.takesFrame n len = true → Runs (.ethNeighborAdvertisement n len target mac) s fun d =>
      ((d.ethPort n).cache.any fun e => e.addr == target && e.mac == mac) = true ∧ (d.ethPort n).resolving.find?
      (·.addr == target) = none) ∧
  (∀ s n len, Runs (.ethFrameDrop n len 1) s fun d => Maps.getD (d.ethPort n).counters 4 0 = (Maps.getD (s.dev.ethPort
      n).counters 4 0 + 1) % 2 ^ 64) ∧
  (∀ s n len, Runs (.ethFrameDrop n len 2) s fun d => Maps.getD (d.ethPort n).counters 7 0 = (Maps.getD (s.dev.ethPort
      n).counters 7 0 + 1) % 2 ^ 64 ∧ d.get (F.ETH_n_INT_STATUS_FEC_UNCORRECTED.at n) = 1) ∧
  (∀ s n len, s.dev.takesFrame n len = true → Runs (.ethFrameDrop n len 0) s fun d => Maps.getD (d.ethPort n).counters 5
      0 = (Maps.getD (s.dev.ethPort n).counters 5 0 + 1) % 2 ^ 64) ∧
  (∀ s n addr r, (s.dev.ethPort n).resolving.find? (·.addr == addr) = some r → r.tries < 3 → r.asked + secCycles ≤
      s.dev.cycles → s.dev.takesFrame n 0 = true → s.dev.flag
      (F.ETH_n_CTRL_LOOPBACK.at n) = false → Runs
      (.neighbourSolicitRetry n addr) s fun d => d.lastOut = some (.net n 3 0 addr [])) ∧
  (∀ s n addr r, (s.dev.ethPort n).resolving.find? (·.addr == addr) = some r → 3 ≤ r.tries → r.asked + secCycles ≤
      s.dev.cycles → r.waiting ≠ [] → (∀ w ∈ r.waiting, w.1 + 3 * secCycles < s.dev.cycles) → Runs
      (.neighbourSolicitRetry n addr) s fun d => (d.ethPort n).resolving.find? (·.addr == addr) = none ∧ d.get
      (F.ETH_n_INT_STATUS_NEIGHBOUR_FAIL.at n) = 1) ∧
  (∀ s n addr, Runs (.neighbourEntryExpire n addr) s fun d => ((d.ethPort n).cache.any fun e => e.addr == addr &&
      !e.reachable s.dev.cycles) = false) ∧
  (∀ s n block align lf rf, s.dev.get (F.ETH_n_CTRL_RATE.at n) = 0 → s.dev.flag (F.ETH_n_CTRL_RS_FEC.at n) = true → Runs
      (.ethLinkChange n block align lf rf) s fun d => d.get (F.ETH_n_STATUS_LINK_UP.at n) = b2n (block && align && !lf
      && !rf)) ∧
  (∀ s n block align lf rf, s.dev.flag (F.ETH_n_CTRL_RS_FEC.at n) = false → Runs (.ethLinkChange n block align lf rf) s
      fun d => d.get (F.ETH_n_STATUS_LINK_UP.at n) = b2n (block && !lf && !rf)) ∧
  (∀ s n k, Runs (.ethCounterRead n k) s fun d => d.lastRead = BitVec.ofNat 32 (Maps.getD (s.dev.ethPort n).counters k
      0) ∧ Maps.getD (d.ethPort n).latched k 0 = Maps.getD (s.dev.ethPort n).counters k 0 / 2 ^ 32)

/-- R470, R484: a reset holds the device, lifts the seal and records its cause; it ends once nothing holds it. R45, R312,
R313, R371, R372, R472: host sealing, power fail and its end, and a reseed of the DRBG. -/
def Obligations.ResetsSealAndPower : Prop :=
  (∀ s a b, a = true ∨ b = true → Runs (.resetAssert a b) s fun d => d.glb.inReset = true ∧ d.trl.sealed = false ∧ d.get
      F.GLB_BOOT_STEP = 2 ∧ d.reg R.GLB_RESET_CAUSE.off = s.dev.reg R.GLB_RESET_CAUSE.off ||| BitVec.ofNat 32 (b2n a *
      4 + b2n b * 8 + b2n s.dev.glb.powerFail * 2)) ∧
  (∀ s, s.dev.glb.inReset = true → s.dev.glb.tripHeld = false → Runs (.resetRelease true) s fun d => d.glb.inReset =
      false ∧ d.glb.resetNLow = false ∧ d.glb.pwrgoodLow = false) ∧
  (∀ s, s.dev.glb.inReset = true → Runs (.resetRelease false) s fun d => d.glb.inReset = true ∧ d.glb.pwrgoodLow = true) ∧
  (∀ s, Runs .thermalTrip s fun d => d.glb.inReset = true ∧ d.glb.tripHeld = true ∧ d.reg R.GLB_RESET_CAUSE.off =
      s.dev.reg R.GLB_RESET_CAUSE.off ||| BitVec.ofNat 32 (16 + b2n s.dev.glb.powerFail * 2)) ∧
  (∀ s, s.dev.glb.inReset = true → s.dev.glb.resetNLow = false → s.dev.glb.pwrgoodLow = false → Runs .thermalTripRelease
      s fun d => d.glb.inReset = false ∧ d.glb.tripHeld = false) ∧
  (∀ s, s.dev.trlState = Trl.structured → s.dev.nfm.grafts = [] → Runs .hostSeal s fun d => d.trl.sealed = true ∧
      d.trlState = Trl.sealed) ∧
  (∀ s, s.dev.glb.sealWait = true → s.dev.trlState = Trl.structured → s.dev.glb.sealAt +
      s.dev.trellis.device.hostSealWait * msCycles ≤ s.dev.cycles → s.dev.nfm.grafts = [] → Runs .sealWaitExpire s fun
      d => d.trl.sealed = true ∧ d.glb.sealWait = false ∧ d.trlState = Trl.sealed ∧ d.get F.GLB_BOOT_STEP = 7) ∧
  (∀ s, s.dev.glb.powerFail = false → s.dev.glb.inReset = true ∨ s.dev.get F.GLB_BOOT_STEP < 9 → Runs .powerFail s fun d
      => d.glb.powerFail = true ∧ d.nfm = s.dev.nfm) ∧
  (∀ s, s.dev.glb.powerFail = false → s.dev.glb.inReset = false → 3 ≤ s.dev.get F.GLB_BOOT_STEP → Runs .powerFail s fun d =>
      d.lastOut = some (.pin 4 7 false)) ∧
  (∀ s, s.dev.glb.powerFail = false → s.dev.glb.inReset = false → 9 ≤ s.dev.get F.GLB_BOOT_STEP → Runs .powerFail s fun d =>
      d.glb.powerFail = true ∧ d.nfm.filling = [] ∧ d.nfm.programming = []) ∧
  (∀ s, s.dev.glb.powerFail = false → s.dev.glb.inReset = false → 9 ≤ s.dev.get F.GLB_BOOT_STEP → s.dev.prl.up = false →
      s.dev.serves = false → s.dev.trl.slots = [] → Runs .powerFail s fun d => d.eng.staging = [] ∧ ∀ p ∈ d.eng.flight,
      p.2.stage = .mirror) ∧
  (∀ s, s.dev.glb.powerFail = true → s.dev.glb.inReset = true ∨ s.dev.get F.GLB_BOOT_STEP < 9 → Runs .powerFailClear s
      fun d => d.glb.powerFail = false ∧ d.glb.failWait = false ∧ 4 ∉ d.prl.causes) ∧
  (∀ s, s.dev.glb.powerFail = true → s.dev.glb.inReset = false → 9 ≤ s.dev.get F.GLB_BOOT_STEP → Runs .powerFailClear s
      fun d => d.glb.powerFail = false ∧ d.trl.sealed = false ∧ d.get F.GLB_BOOT_STEP = 2 ∧ d.get
      F.GLB_RESET_CAUSE_RESTART = 1) ∧
  (∀ s, s.dev.prl.causes.contains 0x0A = false → s.dev.key.generating = none → Runs (.drbgReseed true) s fun d => d.key.sinceSeed = 0 ∧ d.get
      F.KEY_STATUS_ENTROPY_OK = 1 ∧ d.get F.KEY_STATUS_DRBG_RUN = 1) ∧
  (∀ s, s.dev.prl.up = false → Runs (.drbgReseed false) s fun d => d.get F.KEY_STATUS_ENTROPY_OK = 0 ∧ d.get
      F.KEY_INT_STATUS_ENTROPY_FAIL = 1 ∧ 0x0A ∈ d.prl.causes)

/-- R472 to R475: each start-up step, and what stops or holds it. -/
def Obligations.StartupSteps : Prop :=
  (∀ s r, s.dev.glb.inReset = false ∧ s.dev.get F.GLB_BOOT_STATE ≠ Boot.halted ∧ s.dev.get F.GLB_BOOT_STATE ≠
      Boot.noTrellis ∧ s.dev.glb.sealWait = false → s.dev.get F.GLB_BOOT_STEP = 2 → s.dev.glb.powerFail = false → Runs
      (.startupStepComplete r) s fun d => d.get F.GLB_BOOT_STEP = 3) ∧
  (∀ s r, s.dev.glb.inReset = false ∧ s.dev.get F.GLB_BOOT_STATE ≠ Boot.halted ∧ s.dev.get F.GLB_BOOT_STATE ≠
      Boot.noTrellis ∧ s.dev.glb.sealWait = false → s.dev.get F.GLB_BOOT_STEP = 2 → s.dev.glb.powerFail = true → Runs
      (.startupStepComplete r) s fun d => d.glb.failWait = true ∧ d.get F.GLB_BOOT_STEP = 2) ∧
  (∀ s r, s.dev.glb.inReset = false ∧ s.dev.get F.GLB_BOOT_STATE ≠ Boot.halted ∧ s.dev.get F.GLB_BOOT_STATE ≠
      Boot.noTrellis ∧ s.dev.glb.sealWait = false → s.dev.get F.GLB_BOOT_STEP = 3 → r.selftest % 128 = 0 → Runs
      (.startupStepComplete r) s fun d => d.get F.GLB_BOOT_STEP = 4 ∧ d.get F.KEY_STATUS_DRBG_RUN = 1) ∧
  (∀ s r, s.dev.glb.inReset = false ∧ s.dev.get F.GLB_BOOT_STATE ≠ Boot.halted ∧ s.dev.get F.GLB_BOOT_STATE ≠
      Boot.noTrellis ∧ s.dev.glb.sealWait = false → s.dev.get F.GLB_BOOT_STEP = 3 → r.selftest % 128 ≠ 0 → Runs
      (.startupStepComplete r) s fun d => d.get F.GLB_BOOT_STATE = Boot.halted ∧ d.get F.GLB_BOOT_HALT_CAUSE = 1 ∧
      d.get F.GLB_SELFTEST_FAILED = r.selftest % 128) ∧
  (∀ s r, s.dev.glb.inReset = false ∧ s.dev.get F.GLB_BOOT_STATE ≠ Boot.halted ∧ s.dev.get F.GLB_BOOT_STATE ≠
      Boot.noTrellis ∧ s.dev.glb.sealWait = false → s.dev.get F.GLB_BOOT_STEP = 5 → Runs (.startupStepComplete r) s
      fun d => d.trlState = Trl.structured ∧ d.get F.GLB_BOOT_STEP = 6) ∧
  (∀ s r, s.dev.glb.inReset = false ∧ s.dev.get F.GLB_BOOT_STATE ≠ Boot.halted ∧ s.dev.get F.GLB_BOOT_STATE ≠
      Boot.noTrellis ∧ s.dev.glb.sealWait = false → s.dev.get F.GLB_BOOT_STEP = 6 → r.ch0 ≠ r.ch1 → Runs
      (.startupStepComplete r) s fun d => d.get F.GLB_BOOT_STATE = Boot.halted ∧ d.get F.GLB_BOOT_HALT_CAUSE = 2) ∧
  (∀ s r, s.dev.glb.inReset = false ∧ s.dev.get F.GLB_BOOT_STATE ≠ Boot.halted ∧ s.dev.get F.GLB_BOOT_STATE ≠
      Boot.noTrellis ∧ s.dev.glb.sealWait = false → s.dev.get F.GLB_BOOT_STEP = 6 → r.ch0 = r.ch1 → 4 ≤ r.ch0 + r.ch1
      → r.zoneOk = true → s.dev.trellis.device.hostSealWait = 0 → s.dev.nfm.grafts = [] → Runs (.startupStepComplete
      r) s fun d => d.trl.sealed = true ∧ d.trlState = Trl.sealed ∧ d.get F.GLB_BOOT_STEP = 7) ∧
  (∀ s r, s.dev.glb.inReset = false ∧ s.dev.get F.GLB_BOOT_STATE ≠ Boot.halted ∧ s.dev.get F.GLB_BOOT_STATE ≠
      Boot.noTrellis ∧ s.dev.glb.sealWait = false → s.dev.get F.GLB_BOOT_STEP = 7 → s.dev.glb.powerFail = false → r.nand.ok =
      false → Runs
      (.startupStepComplete r) s fun d => d.get F.GLB_BOOT_STATE = Boot.halted ∧ d.get F.GLB_BOOT_HALT_CAUSE = 3) ∧
  (∀ s r, s.dev.glb.inReset = false ∧ s.dev.get F.GLB_BOOT_STATE ≠ Boot.halted ∧ s.dev.get F.GLB_BOOT_STATE ≠
      Boot.noTrellis ∧ s.dev.glb.sealWait = false → s.dev.get F.GLB_BOOT_STEP = 9 → s.dev.servo = Sv.locked → Runs
      (.startupStepComplete r) s fun d => d.get F.GLB_BOOT_STEP = 10) ∧
  (∀ s r, s.dev.glb.inReset = false ∧ s.dev.get F.GLB_BOOT_STATE ≠ Boot.halted ∧ s.dev.get F.GLB_BOOT_STATE ≠
      Boot.noTrellis ∧ s.dev.glb.sealWait = false → s.dev.get F.GLB_BOOT_STEP = 10 → s.dev.keyLocked = false → Runs
      (.startupStepComplete r) s fun d => d.get F.GLB_BOOT_STEP = 11) ∧
  (∀ s r, s.dev.glb.inReset = false ∧ s.dev.get F.GLB_BOOT_STATE ≠ Boot.halted ∧ s.dev.get F.GLB_BOOT_STATE ≠
      Boot.noTrellis ∧ s.dev.glb.sealWait = false → s.dev.get F.GLB_BOOT_STEP = 11 → Runs (.startupStepComplete r) s
      fun d => d.get F.GLB_BOOT_STEP = 12) ∧
  (∀ s r, s.dev.glb.inReset = false ∧ s.dev.get F.GLB_BOOT_STATE ≠ Boot.halted ∧ s.dev.get F.GLB_BOOT_STATE ≠
      Boot.noTrellis ∧ s.dev.glb.sealWait = false → s.dev.get F.GLB_BOOT_STEP = 12 → (s.dev.fhm.cells.all fun c =>
      c.2.sf.isNone) = true → Runs (.startupStepComplete r) s fun d => d.get F.GLB_BOOT_STEP = 13)

/-- R37, R38, R42, R44, R49: what each loader command does with an object that passes, and with one that fails. R48, R50,
R51, R53: an armed package waits for its instant, is cancelled, or fails. -/
def Obligations.TrellisAndGrafts : Prop :=
  (∀ s object, s.dev.flag F.TRL_CMD_STATUS_BUSY = false → s.dev.trlState = Trl.noTrellis → Runs (.loadHost object) s fun
      d => Judged (verifyBase (s.dev.bsCtx 1 (some (s.dev.get F.TRL_HOST_LEN_LENGTH)) 0) [] object) (fun e => d.get
      F.TRL_CMD_STATUS_RESULT = e.code % 256 ∧ d.trlState = Trl.noTrellis) (fun p => d.get F.TRL_CMD_STATUS_RESULT =
      Res.ok ∧ d.trlState = Trl.loading ∧ d.get F.GLB_BOOT_STEP = 5 ∧ d.trl.live = some (({} : Trellis).merge p))) ∧
  (∀ s object, s.dev.flag F.TRL_CMD_STATUS_BUSY = false → Runs (.storeNor object) s fun d => Judged (verifyBase
      (s.dev.bsCtx 1 (some (s.dev.get F.TRL_HOST_LEN_LENGTH)) 0) [] object) (fun e => d.get F.TRL_CMD_STATUS_RESULT =
      e.code % 256 ∧ d.nfm.nor = s.dev.nfm.nor) (fun _ => d.get F.TRL_CMD_STATUS_RESULT = Res.ok ∧ d.nfm.nor = some
      object)) ∧
  (∀ s object, s.dev.flag F.TRL_CMD_STATUS_BUSY = false → s.dev.get F.NFM_STATUS_STATE ≠ 3 → Runs (.storeNand object) s
      fun d => Judged (verifyBase (s.dev.bsCtx 1 (some (s.dev.get F.TRL_HOST_LEN_LENGTH)) 0) [] object) (fun e =>
      d.get F.TRL_CMD_STATUS_RESULT = e.code % 256 ∧ d.nfm.current = s.dev.nfm.current) (fun _ => d.get
      F.TRL_CMD_STATUS_RESULT = Res.ok ∧ d.nfm.current = some object ∧ d.nfm.previous = s.dev.nfm.current)) ∧
  (∀ s slot object, s.dev.flag F.TRL_CMD_STATUS_BUSY = false → s.dev.trlState = Trl.structured ∨ s.dev.trlState =
      Trl.sealed → slot < 3 → s.dev.keyLocked = false → Maps.has s.dev.trl.slots slot = false → s.dev.standbySynced =
      false → Runs (.stage slot object) s fun d => Judged (verifyGraft (s.dev.bsCtx 2 (some (s.dev.get
      F.TRL_HOST_LEN_LENGTH)) slot) s.dev.trellis s.dev.trl.buildSerial s.dev.liveGen s.dev.calsInUse object) (fun e
      => d.get (F.TRL_SLOT_STATUS_LAST_RESULT.at slot) = e.code % 256 ∧ Maps.get? slot d.trl.slots = none) (fun p =>
      d.get (F.TRL_SLOT_STATUS_LAST_RESULT.at slot) = Res.ok ∧ Maps.get? slot d.trl.slots = some ⟨p, none, false⟩)) ∧
  (∀ s, s.dev.flag F.TRL_CMD_STATUS_BUSY = false → s.dev.trlState = Trl.structured ∨ s.dev.trlState = Trl.sealed →
      s.dev.trl.ownerFuse = none → Runs .bindOwner s fun d => d.trl.ownerFuse = some (Crypto.sha256 (beBytes 64
      s.dev.trl.ownerKey)).toNat ∧ d.get F.TRL_STATUS_OWNER_BOUND = 1 ∧ d.get F.TRL_CMD_STATUS_RESULT = Res.ok) ∧
  (∀ s, s.dev.flag F.TRL_CMD_STATUS_BUSY = false → s.dev.trlState = Trl.structured ∨ s.dev.trlState = Trl.sealed → Runs
      .raiseFloor s fun d => d.trl.floor = max s.dev.trl.floor s.dev.trl.secVersion ∧ d.get F.TRL_CMD_STATUS_RESULT =
      Res.ok) ∧
  (∀ s slot x at_, s.dev.flag F.TRL_CMD_STATUS_BUSY = false → s.dev.trlState = Trl.structured ∨ s.dev.trlState =
      Trl.sealed → slot < 3 → s.dev.keyLocked = false → Maps.get? slot s.dev.trl.slots = some x → x.armedAt = none →
      s.dev.standbySynced = false → s.dev.get F.NFM_STATUS_STATE ≠ 3 → at_ = s.dev.wide R.TRL_SLOT_AT_LO
      R.TRL_SLOT_AT_HI slot % 2 ^ 48 → at_ ≠ 0 → s.dev.tsu.sec ≤ at_ → Runs (.arm slot) s fun d => Maps.get? slot
      d.trl.slots = some { x with armedAt := some at_ } ∧ d.get (F.TRL_SLOT_STATUS_LAST_RESULT.at slot) = Res.ok) ∧
  (∀ s slot x at_, s.dev.flag F.TRL_CMD_STATUS_BUSY = false → s.dev.trlState = Trl.structured ∨ s.dev.trlState =
      Trl.sealed → slot < 3 → s.dev.keyLocked = false → Maps.get? slot s.dev.trl.slots = some x → x.armedAt = none →
      s.dev.standbySynced = false → at_ = s.dev.wide R.TRL_SLOT_AT_LO R.TRL_SLOT_AT_HI slot % 2 ^ 48 → at_ ≠ 0 → at_ <
      s.dev.tsu.sec → Runs (.arm slot) s fun d => Maps.get? slot d.trl.slots = some x ∧ d.get
      (F.TRL_SLOT_STATUS_LAST_RESULT.at slot) = Res.instantPast) ∧
  (∀ s slot x, s.dev.flag F.TRL_CMD_STATUS_BUSY = false → s.dev.trlState = Trl.structured ∨ s.dev.trlState = Trl.sealed
      → slot < 3 → Maps.get? slot s.dev.trl.slots = some x → x.armedAt = none → Runs (.trlCancel slot) s fun d => Maps.get? slot
      d.trl.slots = none ∧ d.get (F.TRL_SLOT_STATUS_LAST_RESULT.at slot) = Res.ok) ∧
  (∀ s slot x at_, s.dev.flag F.TRL_CMD_STATUS_BUSY = false → s.dev.trlState = Trl.structured ∨ s.dev.trlState = Trl.sealed
      → slot < 3 → Maps.get? slot s.dev.trl.slots = some x → x.armedAt = some at_ → s.dev.tsu.sec < at_ → Runs
      (.trlCancel slot) s fun d => Maps.get? slot d.trl.slots = none ∧ d.get (F.TRL_SLOT_STATUS_LAST_RESULT.at slot) =
      Res.ok) ∧
  (∀ s slot x at_, s.dev.flag F.TRL_CMD_STATUS_BUSY = false → s.dev.trlState = Trl.structured ∨ s.dev.trlState = Trl.sealed
      → slot < 3 → Maps.get? slot s.dev.trl.slots = some x → x.armedAt = some at_ → at_ ≤ s.dev.tsu.sec → Runs
      (.trlCancel slot) s fun d => d.get (F.TRL_SLOT_STATUS_LAST_RESULT.at slot) = Res.tooLate) ∧
  (∀ s slot, s.dev.flag F.TRL_CMD_STATUS_BUSY = false → s.dev.trlState = Trl.structured ∨ s.dev.trlState = Trl.sealed
      → slot < 3 → Maps.get? slot s.dev.trl.slots = none → Runs (.trlCancel slot) s fun d => d.get
      (F.TRL_SLOT_STATUS_LAST_RESULT.at slot) = if Maps.get? slot s.dev.trl.emptiedAt = some s.dev.cycles then Res.tooLate
      else Res.badState) ∧
  (∀ s slot x at_, s.dev.trlState = Trl.structured ∨ s.dev.trlState = Trl.sealed → slot < 3 → s.dev.trl.slots =
      [(slot, x)] → x.armedAt = some at_ → at_ ≤ s.dev.tsu.sec → s.dev.serves = false → (x.pkg.holds 5 || x.pkg.holds
      9 || x.pkg.holds 11) = false → Runs (.graftApply slot []) s fun d => d.trl.slots = [] ∧ d.trl.live = some
      (s.dev.trellis.merge x.pkg) ∧ d.get (F.TRL_SLOT_STATUS_LAST_RESULT.at slot) = Res.ok) ∧
  (∀ s slot x at_, s.dev.trlState = Trl.structured ∨ s.dev.trlState = Trl.sealed → slot < 3 → s.dev.trl.slots =
      [(slot, x)] → x.armedAt = some at_ → at_ ≤ s.dev.tsu.sec → s.dev.serves = false → Runs (.graftApply slot [slot])
      s fun d => d.trl.slots = [] ∧ d.trl.live = s.dev.trl.live ∧ d.get F.TRL_INT_STATUS_GRAFT_FAILED = 1)

/-- R434, R435, R437: a packet is taken word by word; a length word out of range starts an overrun. -/
def Obligations.RingWrites : Prop :=
  (∀ s n v, n < 64 → (s.dev.ringRec n).direction = 1 → (s.dev.ring n).discarding = false → (s.dev.ring n).partial_ = []
      → 2 ≤ v.toNat % 8192 → v.toNat % 8192 ≤ 4608 → v.toNat / 2 ^ 24 = (s.dev.ringRec n).content →
      s.dev.face.ringFree n ≠ 0 → Runs (.ringDataWrite n v) s fun d => (d.ring n).partial_ = [v] ∧ d.wr n = (s.dev.wr
      n + 1) % 32768 ∧ (d.ring n).word (s.dev.wr n) = v) ∧
  (∀ s n v, n < 64 → (s.dev.ringRec n).direction = 1 → (s.dev.ring n).discarding = false → (s.dev.ring n).partial_ = []
      → v.toNat % 8192 < 2 ∨ 4608 < v.toNat % 8192 ∨ v.toNat / 2 ^ 24 ≠ (s.dev.ringRec n).content → Runs
      (.ringDataWrite n v) s fun d => (d.ring n).discarding = true ∧ d.wr n = s.dev.wr n ∧ d.get
      (F.RNG_n_STATUS_OVERRUN.at n) = 1) ∧
  (∀ s n v w ws, n < 64 → (s.dev.ringRec n).direction = 1 → (s.dev.ring n).discarding = false → (s.dev.ring n).partial_
      = w :: ws → ws.length + 2 < w.toNat % 8192 → s.dev.face.ringFree n ≠ 0 → Runs (.ringDataWrite n v) s fun d =>
      (d.ring n).partial_ = w :: ws ++ [v] ∧ (d.ring n).ready = (s.dev.ring n).ready) ∧
  (∀ s n v w ws, n < 64 → (s.dev.ringRec n).direction = 1 → (s.dev.ring n).discarding = false → (s.dev.ring n).partial_
      = w :: ws → ws.length + 2 = w.toNat % 8192 → s.dev.face.ringFree n ≠ 0 → s.dev.flag
      (F.RNG_n_STATUS_FLUSH_PENDING.at n) = false → Runs (.ringDataWrite n v) s fun d => (d.ring n).partial_ = [] ∧
      (d.ring n).ready = (s.dev.ring n).ready ++ [w :: ws ++ [v]]) ∧
  (∀ s n v, n < 64 → (s.dev.ringRec n).direction = 1 → (s.dev.ring n).discarding = false → (s.dev.ring n).partial_ ≠ []
      → s.dev.face.ringFree n = 0 → Runs (.ringDataWrite n v) s fun d => (d.ring n).discarding = true ∧ (d.ring
      n).partial_ = [] ∧ d.get (F.RNG_n_STATUS_OVERRUN.at n) = 1)

/-- R436, R438, R439: a read advances RD, FLUSH empties, MARK notes a packet start and REWIND returns to it. -/
def Obligations.RingReads : Prop :=
  (∀ s n, n < 64 → s.dev.toHost n = true → s.dev.rd n ≠ s.dev.wr n → s.dev.flag (F.RNG_n_STATUS_FLUSH_PENDING.at n) =
      false → (s.dev.ring n).waiting = [] → Runs (.ringDataRead n) s fun d => d.lastRead = (s.dev.ring n).word
      (s.dev.rd n) ∧ d.rd n = (s.dev.rd n + 1) % 32768) ∧
  (∀ s n, s.dev.rd n = s.dev.wr n → Runs (.ringDataRead n) s fun d => d.lastRead = 0 ∧ d.rd n = s.dev.rd n) ∧
  (∀ s n, n < 64 → (s.dev.ringRec n).direction ≠ 1 → s.dev.atBoundary n = true → s.dev.draining n = none → (s.dev.ring
      n).waiting = [] → Runs (.ringFlush n) s fun d => d.rd n = d.wr n ∧ d.wr n = s.dev.wr n) ∧
  (∀ s n, n < 64 → (s.dev.ringRec n).direction ≠ 1 → s.dev.atBoundary n = false → Runs (.ringFlush n) s fun d => d.get
      (F.RNG_n_STATUS_FLUSH_PENDING.at n) = 1 ∧ d.rd n = s.dev.rd n) ∧
  (∀ s n p, n < 64 → s.dev.toHost n = true → s.dev.rd n ≠ s.dev.wr n → (s.dev.ring n).packetAt (s.dev.rd n) = some p →
      Runs (.ringMark n) s fun d => d.get (F.RNG_n_MARK_POINTER.at n) = p.start % 32768 ∧ d.get
      (F.RNG_n_STATUS_MARK_VALID.at n) = 1) ∧
  (∀ s n, n < 64 → s.dev.toHost n = true → s.dev.draining n = none → s.dev.flag (F.RNG_n_STATUS_MARK_VALID.at n) = true
      → Runs (.ringRewind n) s fun d => d.rd n = s.dev.get (F.RNG_n_MARK_POINTER.at n)) ∧
  (∀ s n, n < 64 → s.dev.toHost n = true → s.dev.draining n = none → s.dev.flag (F.RNG_n_STATUS_MARK_VALID.at n) = false
      → Runs (.ringRewind n) s fun d => d.rd n = s.dev.get (F.RNG_n_OLDEST_POINTER.at n)) ∧
  (∀ s n p, s.dev.toHost n = true → s.dev.draining n = some p → Runs (.ringRewind n) s fun d => (d.ring n).rewindPending
      = true ∧ d.rd n = s.dev.rd n)

/-- R431, R433, R441, R442, R471: a packet drained to the host, its writeback and messages; resets of the host side. -/
def Obligations.HostFunction : Prop :=
  (∀ s n p, n < 64 → s.dev.draining n = some p → s.dev.flag (F.RNG_n_STATUS_FLUSH_PENDING.at n) = false → (s.dev.ring
      n).rewindPending = false → (s.dev.ring n).waiting = [] → Runs (.drainTransferDone n) s fun d => d.rd n =
      (p.start + p.len) % 32768 ∧ d.get (F.RNG_n_HWR_OFFSET.at n) = (s.dev.get (F.RNG_n_HWR_OFFSET.at n) + 4 * p.len)
      % (2 * 2 ^ s.dev.get (F.RNG_n_HSIZE_LOG2.at n)) % 2 ^ 27) ∧
  (∀ s n v size hwr, n < 64 → size = 2 * 2 ^ s.dev.get (F.RNG_n_HSIZE_LOG2.at n) → hwr = s.dev.get
      (F.RNG_n_HWR_OFFSET.at n) → v.toNat < 2 ^ 27 → v.toNat < size → (hwr + size - v.toNat) % size ≤ (hwr + size -
      s.dev.get (F.RNG_n_HRD_OFFSET.at n)) % size → Runs (.ringHrdWrite n v) s fun d => d.get (F.RNG_n_HRD_OFFSET.at
      n) = v.toNat) ∧
  (∀ s n v size hwr, n < 64 → size = 2 * 2 ^ s.dev.get (F.RNG_n_HSIZE_LOG2.at n) → hwr = s.dev.get
      (F.RNG_n_HWR_OFFSET.at n) → v.toNat < 2 ^ 27 → size ≤ v.toNat ∨ (hwr + size - s.dev.get (F.RNG_n_HRD_OFFSET.at
      n)) % size < (hwr + size - v.toNat) % size → Runs (.ringHrdWrite n v) s fun d => d.face.regs = s.dev.face.regs ∧
      (d.ring n).ignored = satNat 32 ((s.dev.ring n).ignored + 1)) ∧
  (∀ s v m, m = Maps.getD s.dev.face.hst.msix v {} → m.pend = false → Runs (.msixUnmask v) s fun d => (Maps.getD
      d.face.hst.msix v {}).masked = false ∧ d.face.out = s.dev.face.out) ∧
  (∀ s v m, m = Maps.getD s.dev.face.hst.msix v {} → m.pend = true → m.lastSent = none → Runs (.msixUnmask v) s fun d =>
      (Maps.getD d.face.hst.msix v {}).masked = false ∧ d.lastOut = some (.msix v m.addr m.data)) ∧
  (∀ s n m, (s.dev.ring n).unsignalled ≠ 0 → 1000 * (s.dev.ring n).unsignalledAt + msCycles * s.dev.get
      (F.RNG_n_IRQ_COALESCE.at n) ≤ 1000 * s.dev.cycles → m = Maps.getD s.dev.face.hst.msix (s.dev.ringRec n).vector {} →
      m.masked =
      false → m.lastSent = none → Runs (.ringCoalesceTimeout n) s fun d => d.lastOut = some (.msix (s.dev.ringRec
      n).vector m.addr m.data) ∧ (d.ring n).unsignalled = 0) ∧
  (∀ s a n, n < 64 → Runs (.functionLevelReset a) s fun d => d.face.hst.msix = [] ∧ d.face.hst.d3hot = a ∧ d.get
      (F.RNG_n_CFG_DRAIN.at n) = 0 ∧ d.get (F.RNG_n_HRD_OFFSET.at n) = 0) ∧
  (∀ s, Runs (.perstN true) s fun d => d.glb.perstLow = true ∧ d.face.hst.msix = [] ∧ d.get F.GLB_CLOCK_PCIE_LOCK = 0) ∧
  (∀ s, Runs (.perstN false) s fun d => d.glb.perstLow = false ∧ d.get F.GLB_CLOCK_PCIE_LOCK = 1 ∧ d.face.hst =
      s.dev.face.hst)

/-- R6 to R8, R10, R432, R461: what a host write leaves, by field type, byte enables, block and seal; and what CNT_CLEAR
clears. -/
def Obligations.RegisterWrites : Prop :=
  (∀ s off v r, s.dev.glb.inReset = false → storedAlone off v = true → regAt? off = some r →
      (s.dev.trl.sealed && changesRwl (s.dev.reg off) v r.fields) = false →
      Runs (.registerWrite off 15 v) s fun d => d.reg off = writeFields s.dev.trl.sealed (s.dev.setNow off) (s.dev.reg off) v r.fields) ∧
  (∀ s off v r, s.dev.glb.inReset = false → storedAlone off v = true → regAt? off = some r → s.dev.trl.sealed = true →
      changesRwl (s.dev.reg off) v r.fields = true →
      Runs (.registerWrite off 15 v) s fun d => d.get F.TRL_INT_STATUS_SEALED_WRITE = 1) ∧
  (∀ s off be v, s.dev.glb.inReset = false → be % 16 ≠ 15 → Runs (.registerWrite off be v) s fun d => d.reg
      (R.RNG_CNT_n.at 7) = BitVec.ofNat 32 (satNat 32 ((s.dev.reg (R.RNG_CNT_n.at 7)).toNat + 1)) ∧ d.clo = s.dev.clo) ∧
  (∀ s off v, s.dev.glb.inReset = false → off < 0x400000 → off % 4 = 0 → off / 65536 = 0xF → Runs (.registerWrite off 15
      v) s fun d => d.clo.bridge = s.dev.clo.bridge ++ [⟨off, some v⟩] ∧ d.face = s.dev.face) ∧
  (∀ s v, s.dev.glb.inReset = false → Runs (.registerWrite 0x3F0030 15 v) s fun d => (Maps.getD d.face.hst.msix 3
      {}).addr % 2 ^ 32 = v.toNat / 4 * 4) ∧
  (∀ s off r i j, s.dev.glb.inReset = false → r ∈ clearedBy off → i < r.cnt → j < r.cnt2 →
      Runs (.counterClear off false) s fun d => d.reg (r.at2 i j) = s.dev.justCounted (r.at2 i j)) ∧
  (∀ s p, s.dev.glb.inReset = false → p < 8 → Runs (.counterClear R.CTX_CTRL.off true) s fun d =>
      d.reg (R.CTX_ARB_GRANT_p.at p) = s.dev.justCounted (R.CTX_ARB_GRANT_p.at p) ∧ d.reg (R.CTX_ARB_MAXWAIT_p.at p) = s.dev.justCounted
      (R.CTX_ARB_MAXWAIT_p.at p)) ∧
  (∀ s f j, s.dev.glb.inReset = false → f < 4 → j < R.ZXP_CNT_n.cnt2 →
      Runs (.counterClear (R.ZXP_CTRL.at f) false) s fun d => d.reg (R.ZXP_CNT_n.at2 f j) = s.dev.justCounted (R.ZXP_CNT_n.at2 f j)) ∧
  (∀ s n k, s.dev.glb.inReset = false → n < 4 → k < 8 → Runs (.counterClear (R.ETH_n_CTRL.at n) false) s fun d =>
      Maps.getD (d.ethPort n).counters k 0 = Maps.getD s.dev.face.counted (R.ETH_n_CNT_k_LO.at2 n k) 0)

/-- R456 to R458: a summary is written once, an archive read answers from the archive, a sample joins each monitor. -/
def Obligations.EventsAndHealth : Prop :=
  (∀ s code x, Maps.get? code s.dev.face.hst.evr.pendingSummary = some x → x.at_ + s.dev.get F.EVR_SUMMARY_PERIOD *
      secCycles ≤ s.dev.cycles → Runs (.eventSummary code) s fun d =>
      Maps.get? code d.face.hst.evr.pendingSummary = none) ∧
  (∀ s, s.dev.nfm.directory = true → s.dev.face.hst.evr.archive = [] → Runs .archiveRead s fun d => d.get
      F.EVR_CMD_RESULT = 1 ∧ d.get F.EVR_INT_STATUS_CMD_DONE = 1) ∧
  (∀ s r rs, s.dev.nfm.directory = true → s.dev.face.hst.evr.archive = r :: rs → r.seq ≤ s.dev.wide R.EVR_ARCH_SEQ_LO
      R.EVR_ARCH_SEQ_HI 0 → Runs .archiveRead s fun d => d.get F.EVR_CMD_RESULT = 0 ∧ d.get F.EVR_INT_STATUS_CMD_DONE
      = 1) ∧
  (∀ s n m, m < 6 → 0 < s.dev.get F.HLT_WARN_WINDOW → ((s.dev.tsu.sec : Int) - s.dev.signedFld F.TSU_UTC_OFFSET) % 86400
      = 0 → s.dev.face.hst.sampledDay ≠ some s.dev.utcDay → Runs (.healthDailySample n) s fun d => (Maps.getD
      d.face.hst.monitors m {}).samples.getLast?.map Prod.fst = some s.dev.utcDay ∧ d.get F.HLT_INT_STATUS_UPDATED = 1
      ∧ d.face.hst.freqSum = 0 ∧ d.face.hst.freqCount = 0) ∧
  (∀ s n m, m < 6 → 0 < s.dev.get F.HLT_WARN_WINDOW → Runs (.hltUpdate n) s fun d => (Maps.getD d.face.hst.monitors m
      {}).samples.getLast?.map Prod.fst = some s.dev.utcDay ∧ d.get F.HLT_INT_STATUS_UPDATED = 1 ∧ d.face.hst.freqSum
      = s.dev.face.hst.freqSum)

/-- R57, R58, R68: ADD registers a head, REMOVE forgets it, RECALL ends its session. -/
def Obligations.HeadCommands : Prop :=
  (∀ s i, s.dev.flag F.FHM_HEAD_CMD_BUSY = false → s.dev.serves = true → s.dev.standbySynced = false → s.dev.headReg? (i
      % 4096) = none → s.dev.dur.heads.any (fun p => p.2.eui == s.dev.wide R.FHM_HEAD_EUI_LO R.FHM_HEAD_EUI_HI 0) =
      false → Runs (.fhmHeadAdd i) s fun d => d.headReg? (i % 4096) = some
      { eui := (s.dev.wide R.FHM_HEAD_EUI_LO R.FHM_HEAD_EUI_HI 0) } ∧ d.get F.FHM_HEAD_CMD_RESULT = 0) ∧
  (∀ s i r, s.dev.flag F.FHM_HEAD_CMD_BUSY = false → s.dev.serves = true → s.dev.standbySynced = false → s.dev.headReg?
      (i % 4096) = some r → Runs (.fhmHeadRemove i) s fun d => d.headReg? (i % 4096) = none ∧ Maps.get? (i % 4096)
      d.fhm.heads = none ∧ d.get F.FHM_HEAD_CMD_RESULT = 0) ∧
  (∀ s i r, s.dev.flag F.FHM_HEAD_CMD_BUSY = false → s.dev.serves = true → s.dev.headReg? (i % 4096) = some r → Runs
      (.fhmHeadRecall i) s fun d => d.get F.FHM_HEAD_CMD_RESULT = 0 ∧ ∀ j q k, s.dev.headReg? j = some q → q.epoch ≠ 0 →
      (s.dev.headKeysOf j).1 = some k → (d.headRt j).session = false ∧ (d.headRt j).recalled.isSome = true) ∧
  (∀ s i, s.dev.flag F.FHM_HEAD_CMD_BUSY = false → s.dev.serves = false → Runs (.fhmHeadAdd i) s fun d => d.dur.heads =
      s.dev.dur.heads ∧ d.get F.FHM_HEAD_CMD_RESULT = 4)

/-- R59, R63, R64, R81, R92: what a verified HEAD_STATUS, LEAVE or BEACON_CONFIRM leaves, and that a wrong tag sets
HLP_AUTH. R59, R60, R82, R86, R101: a first copy of an uplink opens its windows; silence and long suspension of a
head. -/
def Obligations.HeadDatagramsAndSilence : Prop :=
  (∀ s port addr mac g m b, s.dev.hlpAccepts port g 6 m b → (s.dev.headRt m.head).state = .active → Runs
      (.headStatus port addr mac g) s fun d => (d.headRt m.head).offset = signed 32 (b.be 0 4) ∧ (d.headRt m.head).state =
      if (signed 32 (b.be 0 4)).natAbs ≤ 1000 * s.dev.get F.FHM_HEAD_CFG_TIME_TOL then .active else .suspended) ∧
  (∀ s port addr mac g m b, s.dev.hlpAccepts port g 7 m b → b.u8 0 = 4 → Runs (.headLeave port addr mac g) s fun d =>
      (d.headRt m.head).state = .offline ∧ (d.headRt m.head).cause = 4) ∧
  (∀ s port addr mac g m b o, s.dev.hlpAccepts port g 5 m b → s.dev.order? m.head (b.be 0 4) = some o → o.purpose = .beacon →
      s.dev.now ≤ s.dev.confirmDeadline o → Runs (.beaconConfirm port addr mac g) s fun d => d.order? m.head (b.be 0 4) =
      none ∧ (d.headRt m.head).missed = 0) ∧
  (∀ s port addr mac g m b f, s.dev.hlpAccepts port g 2 m b → b.length = 18 + b.be 16 2 → b.be 16 2 ≤ 1024 → b.u8 11 ≤ 2 →
      parseFrame false (b.drop 18) = some f → s.dev.fhm.heard = [] → Runs (.rxReport port addr mac g) s fun d =>
      (d.fhm.heard.any fun x => x.meter == f.address && x.counter == f.counter && x.head == m.head) = true) ∧
  (∀ s port addr mac g, s.dev.hlpForged port g 6 → Runs (.headStatus port addr mac g) s fun d => d.get
      F.FHM_INT_STATUS_HLP_AUTH = 1) ∧
  (∀ s port addr mac g, s.dev.hlpForged port g 7 → Runs (.headLeave port addr mac g) s fun d => d.get
      F.FHM_INT_STATUS_HLP_AUTH = 1) ∧
  (∀ s port addr mac g, s.dev.hlpForged port g 5 → Runs (.beaconConfirm port addr mac g) s fun d => d.get
      F.FHM_INT_STATUS_HLP_AUTH = 1) ∧
  (∀ s port addr mac g, s.dev.hlpForged port g 2 → Runs (.rxReport port addr mac g) s fun d => d.get
      F.FHM_INT_STATUS_HLP_AUTH = 1) ∧
  (∀ s i r, s.dev.headReg? i = some r → (s.dev.headRt i).state ≠ .offline → (s.dev.headRt i).heardAt + 3 *
      s.dev.statusCycles < s.dev.cycles → (s.dev.headRt i).missed = 0 → Runs (.headSilenceTimeout i) s fun d =>
      (d.headRt i).state = .offline ∧ (d.headRt i).cause = 3 ∧ d.get
      F.FHM_INT_STATUS_HEAD_LOST = 1) ∧
  (∀ s i r, s.dev.headReg? i = some r → (s.dev.headRt i).state ≠ .offline → (s.dev.headRt i).heardAt + 3 *
      s.dev.statusCycles < s.dev.cycles → (s.dev.headRt i).missed ≠ 0 → s.dev.cycles ≤ (s.dev.headRt i).missedAt +
      s.dev.statusCycles → Runs (.headSilenceTimeout i) s fun d => (d.headRt i).state = .offline ∧ (d.headRt i).rehomed =
      true) ∧
  (∀ s i, (s.dev.headRt i).state = .suspended → (s.dev.headRt i).since + cyclesOf 60000000 < s.dev.cycles →
      Runs (.headSuspendTimeout i) s fun d
      => (d.headRt i).rehomed = true)

/-- R65, R75, R77, R79, R80, R92: an order is sent at its time, and ends with its confirm, with CCA_BUSY or at its
deadline. -/
def Obligations.OrderOutcomes : Prop :=
  (∀ s i n o r, s.dev.serves = true → s.dev.order? i n = some o → o.sent = false → (s.dev.headRt i).orderable = true →
      s.dev.headReg? i = some r → Runs (.txAtSend (.order i n)) s fun d => (d.order? i n).map (·.sent) = some true) ∧
  (∀ s port addr mac g m b o a c w, s.dev.hlpAccepts port g 4 m b → b.u8 4 = 0 → s.dev.order? m.head (b.be 0 4) = some o →
      o.purpose = .accept a c 2 → o.keyKind = none → s.dev.window? a c = some w → s.dev.now ≤ s.dev.confirmDeadline o →
      Runs (.txConfirm port addr mac g) s fun d => d.order? m.head (b.be 0 4) = none ∧ (d.window? a c).map (·.acked) = some
      true ∧ (d.headRt m.head).confirms = (s.dev.headRt m.head).confirms + 1) ∧
  (∀ s port addr mac g m b o k, s.dev.hlpAccepts port g 3 m b → s.dev.order? m.head (b.be 0 4) = some o → o.purpose = .abort
      k → s.dev.get F.FHM_CSMA_MAX_RETRIES ≤ o.retries → Runs (.ccaBusy port addr mac g) s fun d => d.order? m.head (b.be 0
      4) = none ∧ s.dev.counted d R.FHM_CNT_n 4) ∧
  (∀ s port addr mac g, s.dev.hlpForged port g 4 → Runs (.txConfirm port addr mac g) s fun d => d.get
      F.FHM_INT_STATUS_HLP_AUTH = 1) ∧
  (∀ s port addr mac g, s.dev.hlpForged port g 3 → Runs (.ccaBusy port addr mac g) s fun d => d.get
      F.FHM_INT_STATUS_HLP_AUTH = 1) ∧
  (∀ s i n o k, s.dev.order? i n = some o → o.sent = true → o.purpose = .abort k → s.dev.confirmDeadline o < s.dev.now →
      Runs (.txConfirmDeadline i n) s fun d
      => d.order? i n = none) ∧
  (∀ s i n o, s.dev.order? i n = some o → o.purpose = .beacon → s.dev.confirmDeadline o < s.dev.now →
      Runs (.beaconConfirmDeadline i n) s fun d => d.order? i
      n = none ∧ (d.headRt i).missed = (s.dev.headRt i).missed + 1)

/-- R66, R67: a fitting REQUEST under the current key begins the session under the next epoch; a wrong tag sets HLP_AUTH.
R87, R88, R90, R92: a cell enters superframe mode at the next whole PERIOD, sends a beacon for each superframe, and
returns after one with FINAL, at once where its head takes no orders (the choice of the model, log entry 103). -/
def Obligations.JoinAndSuperframeMode : Prop :=
  (∀ s port addr mac g m i r k b, s.dev.requestReady port g m i r k → m.tag = m.tagUnder k.key256 m.ext → b = m.opened
      k.key256 m.ext → 52 ≤ b.length → b.u8 0 = 1 → b.be 18 16 = 0 → (s.dev.headRt i).recalled = none → s.dev.drbgRuns =
      true → b.be 34 2 ≤ 1000 → s.dev.standbySynced = false → s.dev.joinCovered i b = true → s.dev.tooFar (s.dev.joinHead
      i m b) = false → Runs (.headRequest port addr mac g) s fun d => (d.headRt i).session = true ∧ (d.headRt i).state =
      .joining ∧ (d.headReg? i).map (·.epoch) = some (r.epoch % 255 + 1)) ∧
  (∀ s port addr mac g m i r k, s.dev.requestReady port g m i r k → m.tag ≠ m.tagUnder k.key256 m.ext → Runs (.headRequest
      port addr mac g) s fun d => d.get F.FHM_INT_STATUS_HLP_AUTH = 1) ∧
  (∀ s i r p, s.dev.headReg? (i % 4096) = some r → (s.dev.cell (i % 4096)).sf = none → p = 1000000 * s.dev.get
      F.FHM_SF_PERIOD → 0 < p → Runs (.fhmModeEnter false i) s fun d => (d.cell (i % 4096)).sf = some
      { start := ((s.dev.now + p - 1) / p * p) }) ∧
  (∀ s i r, s.dev.headReg? (i % 4096) = some r → (s.dev.cell (i % 4096)).sf = none → Runs (.fhmModeTest false i) s fun d
      => (d.cell (i % 4096)).sf.map (·.test) = some true) ∧
  (∀ s i r f, s.dev.headReg? (i % 4096) = some r → (s.dev.cell (i % 4096)).sf = some f → (s.dev.headRt (i %
      4096)).orderable = true → Runs (.fhmModeLeave false i) s fun d => (d.cell (i % 4096)).sf = some
      { f with final := true }) ∧
  (∀ s i r f, s.dev.headReg? (i % 4096) = some r → (s.dev.cell (i % 4096)).sf = some f → (s.dev.headRt (i %
      4096)).orderable = false → Runs (.fhmModeLeave false i) s fun d => (d.cell (i % 4096)).sf = none) ∧
  (∀ s i f, (s.dev.cell i).sf = some f → Runs (.beaconDue i) s fun d => (d.cell i).sf.map (·.n) = some (f.n + 1)) ∧
  (∀ s i f k, (s.dev.cell i).sf = some f → (s.dev.headRt i).orderable = true → s.dev.bcastKey i = some k →
      s.dev.profile? (s.dev.headRt i).profile = none → Runs (.beaconDue i) s fun d => (d.fhm.orders.any fun o =>
      o.head == i && o.purpose == .beacon) = true) ∧
  (∀ s i, s.dev.flag F.FHM_CTRL_STORM_AUTO = true → (s.dev.cell i).sf = none → 32 ≤ (s.dev.cell i).attempts → s.dev.get
      F.FHM_SF_CTRL_CCA_PCT * (s.dev.cell i).attempts < 100 * (s.dev.cell i).busy → Runs (.stormCheck i) s fun d =>
      (d.cell i).sf.map (·.storm) = some true ∧ d.get F.FHM_INT_STATUS_STORM = 1 ∧ (d.cell i).attempts = 0) ∧
  (∀ s i, (s.dev.cell i).attempts < 32 → Runs (.stormCheck i) s fun d => (d.cell i).sf = (s.dev.cell i).sf ∧ (d.cell
      i).attempts = 0 ∧ (d.cell i).busy = 0) ∧
  (∀ s i f, (s.dev.cell i).sf = some f → s.dev.sfEnds i f < s.dev.now → f.final = true → Runs (.superframeEnd i) s fun d => (d.cell i).sf = none) ∧
  (∀ s i f, (s.dev.cell i).sf = some f → s.dev.sfEnds i f < s.dev.now → f.final = false → f.test = false → Runs (.superframeEnd i) s fun d => (d.cell
      i).sf.map (·.final) = some (decide (s.dev.get F.FHM_SF_CTRL_QUIET ≤ (if 10 * f.used.length < f.hashCount then
      f.quiet + 1 else 0))) ∧ (d.cell i).sf.map (·.used) = some [])

/-- R185, R186, R190, R192, R195: a context is allocated, freed once idle, pinned and unpinned; the key epoch advances. -/
def Obligations.ContextCommands : Prop :=
  (∀ s i, s.dev.flag F.CTX_CMD_BUSY = false → s.dev.standbyRefuses = false → s.dev.dur.ctxs.any (fun p => p.2.address ==
      s.dev.newCtx.address && p.2.mbus == s.dev.newCtx.mbus) = false → (s.dev.trellis.class? s.dev.newCtx.cls).isSome
      = true → s.dev.newCtx.cal = 0xFF ∨ s.dev.calendarKnown s.dev.newCtx.cal = true → s.dev.ownsAddr
      s.dev.newCtx.address = true → s.dev.dur.ctxs.length < 1048576 → s.dev.standbySynced = false → i =
      s.dev.dur.freed.headD s.dev.dur.neverUsed → (s.dev.dur.indexPut i s.dev.newCtx).isSome = true →
      Runs .ctxAlloc s fun d => Maps.get? i d.dur.ctxs = some s.dev.newCtx
      ∧ d.get F.CTX_CMD_RESULT = 0 ∧ d.get F.CTX_INT_STATUS_CMD_DONE = 1) ∧
  (∀ s i, s.dev.flag F.CTX_CMD_BUSY = false → s.dev.standbyRefuses = false → s.dev.dur.ctxs.any (fun p => p.2.address ==
      s.dev.newCtx.address && p.2.mbus == s.dev.newCtx.mbus) = false → (s.dev.trellis.class? s.dev.newCtx.cls).isSome
      = true → s.dev.newCtx.cal = 0xFF ∨ s.dev.calendarKnown s.dev.newCtx.cal = true → s.dev.ownsAddr
      s.dev.newCtx.address = true → s.dev.standbySynced = false → Maps.has s.dev.dur.ctxs
      (i % 1048576) = false → (s.dev.dur.indexPut (i % 1048576) s.dev.newCtx).isSome = true → Runs (.ctxAllocAt i) s fun d =>
      Maps.get? (i % 1048576) d.dur.ctxs = some s.dev.newCtx ∧
      d.get F.CTX_CMD_RESULT = 0) ∧
  (∀ s i, s.dev.flag F.CTX_CMD_BUSY = false → s.dev.standbyRefuses = false → Maps.has s.dev.dur.ctxs (i % 1048576) =
      true → s.dev.eng.freeing.contains (i % 1048576) = false → Maps.has s.dev.eng.flight (i % 1048576) = false →
      s.dev.standbySynced = false → Runs (.ctxFree i) s fun d
      => Maps.get? (i % 1048576) d.dur.ctxs = none ∧ d.get F.CTX_CMD_RESULT = 0) ∧
  (∀ s i, s.dev.flag F.CTX_CMD_BUSY = false → s.dev.standbyRefuses = false → Maps.has s.dev.dur.ctxs (i % 1048576) =
      false → Runs (.ctxFree i) s fun d => d.dur.ctxs = s.dev.dur.ctxs ∧ d.get F.CTX_CMD_RESULT = Cx.notAllocated) ∧
  (∀ s i, s.dev.flag F.CTX_CMD_BUSY = false → Maps.has s.dev.dur.ctxs (i % 1048576) = true → s.dev.pinnedCtx (i %
      1048576) = false → ((s.dev.dur.ctxs.filter fun p => p.2.pinned).filter fun p => p.1 % 4096 == i % 1048576 %
      4096).length < 8 → (s.dev.dur.ctxs.filter fun p => p.2.pinned).length < s.dev.get F.CTX_PIN_MAX → Runs (.ctxPin
      i) s fun d => if s.dev.eng.resident (i % 1048576) || ((s.dev.count R.CTX_CNT_n 0).bringCtx (i % 1048576)
      true).isSome then d.pinnedCtx (i % 1048576) = true ∧ d.get F.CTX_CMD_RESULT = 0 else d.eng.pinning = some (i %
      1048576) ∧ d.get F.CTX_CMD_BUSY = 1) ∧
  (∀ s i, s.dev.flag F.CTX_CMD_BUSY = false → Maps.has s.dev.dur.ctxs (i % 1048576) = true → Runs (.ctxUnpin i) s fun d
      => d.pinnedCtx (i % 1048576) = false ∧ d.get F.CTX_CMD_RESULT = 0) ∧
  (∀ s, Runs .keyEpochTick s fun d => d.eng.keyEpoch = (s.dev.eng.keyEpoch + 1) % 256 ∧ d.get F.CTX_KEY_AGE_EPOCH =
      d.eng.keyEpoch)

/-- R263, R264: a load copies the object, checks its hash, stores it, and makes the campaign ACTIVE. -/
def Obligations.CampaignLoading : Prop :=
  (∀ s slot object, s.dev.flag F.DST_CMD_BUSY = false → s.dev.standbyRefuses = false → s.dev.keyLocked = false →
      Maps.has s.dev.dur.campaigns (slot % 16) = false → s.dev.loadCheck (slot % 16) (s.dev.descriptor (slot % 16)
      (s.dev.get F.DST_HOST_LEN_LENGTH)) = none → s.dev.shHas (.imageHash (slot % 16)) = false → Runs (.dstLoad slot object) s
      fun d => Maps.get? (slot % 16) d.dur.campaigns = some (s.dev.descriptor (slot % 16) (s.dev.get
      F.DST_HOST_LEN_LENGTH)) ∧ Maps.get? (slot % 16) d.dst.loading = some (if s.dev.shFull 5 then 1 else 2) ∧ d.get
      F.DST_CMD_RESULT = 0) ∧
  (∀ s slot object, s.dev.flag F.DST_CMD_BUSY = false → s.dev.standbyRefuses = false → s.dev.keyLocked = false →
      Maps.has s.dev.dur.campaigns (slot % 16) = true → Runs (.dstLoad slot object) s fun d => d.dur.campaigns =
      s.dev.dur.campaigns ∧ d.get F.DST_CMD_RESULT = Dr.badState) ∧
  (∀ s slot ok c, Maps.get? slot s.dev.dst.loading = some 2 → Maps.get? slot s.dev.dur.campaigns = some c → s.dev.shHas
      (.imageHash slot) = false → Runs (.campaignLoadStepDone slot ok) s fun d => if (Crypto.sha256 (Maps.getD s.dev.dst.objects slot [])).toNat =
      c.hash then Maps.get? slot d.dst.loading = some 3 else Maps.get? slot d.dur.campaigns = some
      { c with state := Cs.failed, cause := 1 } ∧ d.get F.DST_INT_STATUS_LOAD_FAILED = 1) ∧
  (∀ s slot c, Maps.get? slot s.dev.dst.loading = some 3 → Maps.get? slot s.dev.dur.campaigns = some c → s.dev.media ≠
      Media.readOnly → s.dev.media ≠ Media.unformatted → s.dev.standbySynced = false → Runs (.campaignLoadStepDone
      slot true) s fun d => Maps.get? slot d.dst.loading = some 5 ∧ Maps.get? slot d.nfm.objects = some (Maps.getD
      s.dev.dst.objects slot [])) ∧
  (∀ s slot ok c, Maps.get? slot s.dev.dst.loading = some 5 → Maps.get? slot s.dev.dur.campaigns = some c → s.dev.dur.members
      slot = [] ∨ ((s.dev.dur.members slot).any fun p => !p.2.final) = true → Runs (.campaignLoadStepDone slot ok) s fun d => Maps.get? slot d.dur.campaigns = some { c with state := Cs.active } ∧
      Maps.get? slot d.dst.loading = none ∧ d.get F.DST_INT_STATUS_LOADED = 1)

/-- R264, R265, R282: members join WAITING, leave as REMOVED, and an abort ends what is open. -/
def Obligations.CampaignMembership : Prop :=
  (∀ s slot m c x, s.dev.flag F.DST_CMD_BUSY = false → s.dev.standbyRefuses = false → Maps.get? (slot % 16)
      s.dev.dur.campaigns = some c → Maps.get? (m % 1048576) s.dev.dur.ctxs = some x → c.takes = true → s.dev.fits c x
      = true → c.act = 0 ∨ s.dev.tsu.sec < c.act → s.dev.dur.campMember? (slot % 16) (m % 1048576) = none →
      s.dev.standbySynced = false → Runs (.dstAdd slot m) s fun d => d.dur.campMember? (slot % 16) (m % 1048576) =
      some {} ∧ d.get F.DST_CMD_RESULT = 0) ∧
  (∀ s slot m c x, s.dev.flag F.DST_CMD_BUSY = false → s.dev.standbyRefuses = false → Maps.get? (slot % 16)
      s.dev.dur.campaigns = some c → Maps.get? (m % 1048576) s.dev.dur.ctxs = some x → c.takes = true → s.dev.fits c x
      = true → c.act ≠ 0 → c.act ≤ s.dev.tsu.sec → Runs (.dstAdd slot m) s fun d => d.dur.campMembers =
      s.dev.dur.campMembers ∧ d.get F.DST_CMD_RESULT = Dr.tooLate) ∧
  (∀ s slot cls c m x, s.dev.flag F.DST_CMD_BUSY = false → s.dev.standbyRefuses = false → Maps.get? (slot % 16)
      s.dev.dur.campaigns = some c → c.takes = true → s.dev.dur.ctxs = [(m, x)] → x.cls = cls % 64 → s.dev.fits c x =
      true → s.dev.dur.campMember? (slot % 16) m = none → s.dev.standbySynced = false → Runs (.dstAddClass slot cls) s
      fun d => d.dur.campMember? (slot % 16) m = some {} ∧ d.get F.DST_CMD_RESULT = 0) ∧
  (∀ s slot m c x o, s.dev.flag F.DST_CMD_BUSY = false → s.dev.standbyRefuses = false → Maps.get? (slot % 16)
      s.dev.dur.campaigns = some c → c.activated = true ∨ c.act = 0 ∨ s.dev.tsu.sec < c.act →
      Maps.get? (m % 1048576) s.dev.dur.ctxs = some x → c.takes = true →
      s.dev.dur.campMember? (slot % 16) (m % 1048576) = some o → o.final = false → s.dev.standbySynced = false → Runs
      (.dstRemove slot m) s fun d => d.dur.campMember? (slot % 16) (m % 1048576) = some
      { o with state := Ms.failed, cause := Cc.removed } ∧ d.get F.DST_CMD_RESULT = 0) ∧
  (∀ s slot c, s.dev.flag F.DST_CMD_BUSY = false → s.dev.standbyRefuses = false → Maps.get? (slot % 16)
      s.dev.dur.campaigns = some c → c.state = Cs.active → c.activated = true ∨ c.act = 0 ∨ s.dev.tsu.sec < c.act →
      Runs (.dstAbort slot) s fun d => Maps.get? (slot % 16)
      d.dur.campaigns = some { c with aborted := true, cause := 8 } ∧ d.get F.DST_CMD_RESULT = 0) ∧
  (∀ s slot c, s.dev.flag F.DST_CMD_BUSY = false → s.dev.standbyRefuses = false → Maps.get? (slot % 16)
      s.dev.dur.campaigns = some c → c.state = Cs.ended ∨ c.state = Cs.failed → s.dev.standbySynced = false → Runs
      (.dstClear slot) s fun d => Maps.get? (slot % 16) d.dur.campaigns = none ∧ Maps.get? (slot % 16) d.dst.objects =
      none ∧ d.get F.DST_CMD_RESULT = 0)

/-- R270, R272, R277, R278, R281, R282: rounds begin and collect, blocks are ordered, and the campaign activates, expires
or aborts. -/
def Obligations.CampaignRounds : Prop :=
  (∀ s slot place c, Maps.get? slot s.dev.dur.campaigns = some c → c.state = Cs.active → c.aborted = false →
      s.dev.serves = true → c.start ≤ s.dev.tsu.sec → ((s.dev.dur.members slot).any fun p => (Maps.get? p.1
      s.dev.dur.ctxs).bind Ctx.place == some place) = true → (s.dev.rounds slot place).running = false → (s.dev.rounds
      slot place).collectingNow = false → (s.dev.rounds slot place).done = false → (s.dev.rounds slot place).paged =
      false → c.begunAt place < c.roundsMax → Runs (.campaignRoundStart slot place) s fun d => (Maps.get? slot
      d.dur.campaigns).map (·.begunAt place) = some (c.begunAt place + 1)) ∧
  (∀ s slot place c r k b, Maps.get? slot s.dev.dur.campaigns = some c → c.state = Cs.active → c.aborted = false → place
      < 4096 → (s.dev.rounds slot place).running = true → (s.dev.cell place).sf = none → (s.dev.rounds slot
      place).again = [] → nextBlock (s.dev.rounds slot place).sending (s.dev.rounds slot place).nextBlk (c.blocks
      false) = some b → (s.dev.headRt place).orderable = true → s.dev.headReg? place = some r → s.dev.bcastKey place =
      some k → s.dev.profile? (s.dev.headRt place).profile = none → s.dev.serves = true → Runs (.campaignBlockOrder
      slot place) s fun d => (d.fhm.orders.any fun o => o.head == place && o.purpose == .block slot b && o.sent) =
      true) ∧
  (∀ s slot place c, Maps.get? slot s.dev.dur.campaigns = some c → (s.dev.rounds slot place).collectingNow = true →
      c.begunAt place < c.roundsMax → (s.dev.rounds slot place).collectAt + s.dev.collectSpan place ≤ s.dev.placeClock
      place → s.dev.reportComes place ((s.dev.rounds slot place).collectAt + s.dev.collectSpan place) = false → Runs
      (.collectionEnd slot place) s fun d => (d.rounds slot place).sending =
      (s.dev.rounds slot place).collecting ∧ (d.rounds slot place).collecting = (s.dev.rounds slot place).later ∧ (d.rounds
      slot place).collectingNow = decide ((s.dev.rounds slot place).collecting = 0 ∧ (s.dev.rounds slot place).later ≠ 0) ∧
      (d.rounds slot place).done = decide ((s.dev.rounds slot place).collecting = 0 ∧ (s.dev.rounds slot place).later = 0)) ∧
  (∀ s slot place, (s.dev.rounds slot place).paged = true → Runs (.bitmapPageInDone slot place) s fun d => s.dev.counted
      d R.DST_CNT_n 7) ∧
  (∀ s slot place c r k, Maps.get? slot s.dev.dur.campaigns = some c → c.state = Cs.active → c.aborted = true → place <
      4096 → (s.dev.headRt place).orderable = true → s.dev.headReg? place = some r → s.dev.bcastKey place = some k →
      s.dev.profile? (s.dev.headRt place).profile = none → s.dev.serves = true → (s.dev.rounds slot place).lastRdv +
      1000000000 * s.dev.get F.DST_TIMING_RENDEZVOUS ≤ s.dev.now → Runs (.campaignAbortBroadcast slot
      place) s fun d => (d.fhm.orders.any fun o => o.head == place && o.purpose == .abort slot && o.sent) = true) ∧
  (∀ s slot c, Maps.get? slot s.dev.dur.campaigns = some c → c.state = Cs.active → c.act ≠ 0 → c.act ≤ s.dev.tsu.sec →
      c.activated = false → s.dev.armedBefore c.act 4 = [] →
      Runs (.campaignActivation slot) s fun d => (Maps.get? slot d.dur.campaigns).map (·.activated) = some true ∧
      d.get F.DST_INT_STATUS_ACTIVATED = 1) ∧
  (∀ s slot c m x, Maps.get? slot s.dev.dur.campaigns = some c → c.state = Cs.active → c.act ≠ 0 → c.act ≤ s.dev.tsu.sec →
      c.activated = false → s.dev.armedBefore c.act 4 = [] →
      c.newClass = none → c.newCal = none → s.dev.dur.campMembers = [(1048576 * slot + m, x)] → m < 1048576 → x.state
      = Ms.verified → Runs (.campaignActivation slot) s fun d => d.dur.campMember? slot m = some
      { x with state := Ms.activated }) ∧
  (∀ s slot c, Maps.get? slot s.dev.dur.campaigns = some c → c.state = Cs.active → s.dev.expired slot c = true →
      Runs (.campaignExpire slot) s fun d
      => Maps.get? slot d.dur.campaigns = some { c with state := Cs.ended } ∧ d.get F.DST_INT_STATUS_ENDED = 1)

/-- R159 to R162: a frame that fails authentication sets AUTH_FAIL; under the current key an old counter is a replay, the
stored one with another digest a reuse, and a new one goes on. R157, R191, R194, R198, R200, R202: a staged frame
becomes an item, which takes its resources in rank order, or times out and retries. -/
def Obligations.IngestSecurityAndResources : Prop :=
  (∀ s meter w c, Maps.get? meter s.dev.eng.flight = some w → w.stage = .crypto → Maps.get? meter s.dev.dur.ctxs = some
      c → s.dev.keyLocked = false → w.staged.frame.security ≠ 0x85 → w.staged.frame.medium ≠ 2 →
      w.staged.frame.counter < c.m → Runs
      (.cryptoLaneDone (.frame meter)) s fun d => (s.dev.verifySet meter ((((w.old.getD s.dev.trellis).class?
      w.cls).map (·.security)).getD 0) w.staged.frame).elim (d.get F.ING_INT_STATUS_AUTH_FAIL = 1 ∧ Maps.get? meter
      d.eng.flight = none) (fun k => k.2.1 = false → d.get F.ING_INT_STATUS_REPLAY = 1 ∧ Maps.get? meter d.eng.flight =
      none)) ∧
  (∀ s meter w c, Maps.get? meter s.dev.eng.flight = some w → w.stage = .crypto → Maps.get? meter s.dev.dur.ctxs = some
      c → s.dev.keyLocked = false → w.staged.frame.security ≠ 0x85 → w.staged.frame.medium ≠ 2 → w.staged.frame.counter = c.m →
      w.staged.frame.digest ≠ c.digest → Runs (.cryptoLaneDone (.frame meter)) s fun d => (s.dev.verifySet meter
      ((((w.old.getD s.dev.trellis).class? w.cls).map (·.security)).getD 0) w.staged.frame).elim (d.get
      F.ING_INT_STATUS_AUTH_FAIL = 1) (fun k => k.2.1 = false → d.get F.ING_INT_STATUS_COUNTER_REUSE = 1 ∧ Maps.get?
      meter d.eng.flight = none)) ∧
  (∀ s meter w c, Maps.get? meter s.dev.eng.flight = some w → w.stage = .crypto → Maps.get? meter s.dev.dur.ctxs =
      some c → s.dev.keyLocked = false → w.staged.frame.security ≠ 0x85 → w.staged.frame.medium ≠ 2 → c.m <
      w.staged.frame.counter → c.inExhausted = false → w.staged.frame.statusIe = none → (w.old.getD
      s.dev.trellis).dlmsClass w.cls = false → Runs (.cryptoLaneDone (.frame meter)) s fun d =>
      (s.dev.verifySet meter ((((w.old.getD
      s.dev.trellis).class? w.cls).map (·.security)).getD 0) w.staged.frame).elim (d.get F.ING_INT_STATUS_AUTH_FAIL =
      1 ∧ Maps.get? meter d.eng.flight = none) (fun k => (Maps.get? meter d.eng.flight).map (·.stage) = some .parse ∧
      (Maps.get? meter d.eng.flight).map (·.cand) = some k.2.1 ∧ (Maps.get? meter d.eng.flight).map (·.payload) = some
      k.2.2)) ∧
  (∀ s meter w c, Maps.get? meter s.dev.eng.flight = some w → w.stage = .crypto → Maps.get? meter s.dev.dur.ctxs =
      some c → s.dev.keyLocked = false → w.staged.frame.security ≠ 0x85 → w.staged.frame.medium ≠ 2 → c.m <
      w.staged.frame.counter → c.inExhausted = false → w.staged.frame.statusIe = none → (w.old.getD
      s.dev.trellis).dlmsClass w.cls = true → Runs (.cryptoLaneDone (.frame meter)) s fun d =>
      (s.dev.verifySet meter ((((w.old.getD s.dev.trellis).class? w.cls).map (·.security)).getD 0) w.staged.frame).elim (d.get
      F.ING_INT_STATUS_AUTH_FAIL = 1) (fun k => k.2.2.u8 0 ≠ 0xE0 → apduRefusal (parseApdu k.2.2) ≠ 0 → (Maps.get?
      meter d.eng.flight).map (·.stage) = some .parse ∧ (Maps.get? meter d.eng.flight).map (·.refused) = some
      (apduRefusal (parseApdu k.2.2)))) ∧
  (∀ s meter f, Maps.has s.dev.eng.flight meter = false → s.dev.eng.freeing.contains meter = false →
      s.dev.dur.rewrap = none → s.dev.takesFrames = true → s.dev.eng.staging.find? (·.meter == meter)
      = some f → f.meter = meter → s.dev.eng.downs.find? (·.1 == meter) = none → Runs (.workItemAdmit meter) s fun d =>
      d.eng.staging = s.dev.eng.staging.erase f ∧
      Maps.has d.eng.flight meter = true) ∧
  (∀ s meter w, Maps.get? meter s.dev.eng.flight = some w → w.stage = .wantContext → w.fetching = true → w.reading =
      none → w.job = none → Maps.has s.dev.eng.cache meter = true → Runs (.contextFetchDone meter) s fun d => (Maps.get? meter
      d.eng.flight).map (·.held.contains 1) = some true) ∧
  (∀ s meter cand w way k, Maps.get? meter s.dev.eng.flight = some w → w.stage = .wantKey → w.fetching = true → w.job = none →
      s.dev.eng.keyWay? meter cand = some (way, k) → k.filled = false → Runs (.keyCacheFillDone meter cand) s fun d =>
      if (s.dev.unwrapSet k.keys).isSome && kcvOf 16 k.keys.link == k.kcv then s.dev.counted d R.KEY_CNT_n 0 else
      s.dev.counted d R.KEY_CNT_n 1 ∧ d.get F.KEY_INT_STATUS_KEY_CORRUPT = 1) ∧
  (∀ s meter w, Maps.get? meter s.dev.eng.flight = some w → w.stage = .wantLane → w.job = none → s.dev.eng.lanesBusy < 14 →
      Runs (.resourceGrant meter) s fun d =>
        Maps.get? meter d.eng.flight = some { w with stage := .crypto, held := (3 :: w.held), since := s.dev.cycles }) ∧
  (∀ s meter w, Maps.get? meter s.dev.eng.flight = some w → w.stage = .wantLane → w.fetching = false → 14 ≤
      s.dev.eng.lanesBusy → w.since + cyclesOf (s.dev.get F.CTX_WAIT_B_LANE) < s.dev.cycles →
      Runs (.resourceWaitTimeout meter) s fun d => (Maps.get? meter d.eng.flight).map (·.stage)
      = some .retry ∧ (Maps.get? meter d.eng.flight).map (·.held) = some [] ∧ s.dev.counted d R.CTX_CNT_n 6 ∧ d.get
      F.CTX_INT_STATUS_WAIT_TIMEOUT = 1) ∧
  (∀ s meter w, Maps.get? meter s.dev.eng.flight = some w → w.stage = .retry → w.reading = none → w.fetching = false →
      w.job = none → s.dev.eng.resident meter = true → Runs (.resourceRetry meter) s fun d => (Maps.get? meter
      d.eng.flight).map (·.held.contains 1) = some true)

/-- R163, R166, R170, R172, R173: a parse ends in a reading, an unsupported frame is REJECTED, a commit takes the next
sequence number, MIRROR_WAIT and REASSEMBLY run out. -/
def Obligations.IngestCommit : Prop :=
  (∀ s meter w r c k, Maps.get? meter s.dev.eng.flight = some w → w.stage = .parse → w.reading = some r → Maps.get?
      meter s.dev.dur.ctxs = some c → (w.old.getD s.dev.trellis).class? w.cls = some k → Runs (.parseDone meter) s fun
      d => (Maps.get? meter d.eng.flight).map (·.stage) = some .billing) ∧
  (∀ s meter w r c k, Maps.get? meter s.dev.eng.flight = some w → w.stage = .parse → w.reading = some r → Maps.get?
      meter s.dev.dur.ctxs = some c → (w.old.getD s.dev.trellis).class? w.cls = some k → w.staged.frame.formOk = false
      → Runs (.parseDone meter) s fun d => d.get F.ING_LAST_REJECT_CODE = Rej.unsupported ∧ d.get
      F.ING_INT_STATUS_REJECTED = 1 ∧ s.dev.counted d R.ING_CNT_n 7) ∧
  (∀ s meter w r, Maps.get? meter s.dev.eng.flight = some w → w.stage = .billing → w.reading = some r → r.rejected =
      true → r.noRecord = true → r.tampers = [] → r.classAk = false → r.candKey = false → w.staged.frame.mbus = true →
      w.job = none →
      w.parsed.events = [] → w.report = none → w.apdu = none → w.blocks = [] → Maps.has
      s.dev.eng.reassembly meter = false → s.dev.commits = true → s.dev.journalRoom none = true → s.dev.flag
      F.JNL_STATUS_STALL = false → s.dev.flag F.HLT_CONDITION_JOURNAL_STALL = false → s.dev.standbySynced = false →
      Runs (.billingUpdateDone meter) s fun d => d.jnl.lastSeq = s.dev.dur.seqNext ∧ s.dev.counted d R.ING_CNT_n 11 ∧
      Maps.get? meter d.eng.flight = none) ∧
  (∀ s meter w r, s.dev.eng.flight = [(meter, w)] → w.stage = .mirror → w.reading = some r → r.rejected = true →
      r.noRecord = true → r.tampers = [] → r.classAk = false → r.candKey = false → w.staged.frame.mbus = true →
      w.parsed.events = [] → w.report = none → w.apdu = none → w.blocks = [] → Maps.has
      s.dev.eng.reassembly meter = false → w.since + cyclesOf (1000 * s.dev.get F.ING_TIMEOUT_MIRROR_WAIT) <
      s.dev.cycles → Runs .mirrorWaitExpire s fun d => d.get F.ING_INT_STATUS_MIRROR_LOST = 1 ∧
      d.prl.unsynced = true ∧ s.dev.counted d R.ING_CNT_n 11 ∧ d.eng.flight = []) ∧
  (∀ s meter r, Maps.get? meter s.dev.eng.reassembly = some r → r.since + cyclesOf (1000000 * s.dev.get
      F.ING_TIMEOUT_REASSEMBLY) < s.dev.cycles → Runs (.reassemblyTimeout meter) s fun d => Maps.get? meter
      d.eng.reassembly = none ∧ s.dev.counted d R.ING_CNT_n 15 ∧ d.get F.ING_INT_STATUS_REASSEMBLY_DISCARD = 1)

/-- R84, R174, R204 to R209: the last window of a committed uplink, and the arbiter's grants, preemption at a block
boundary, and starvation. -/
def Obligations.WindowsAndArbiter : Prop :=
  (∀ s a n w x, s.dev.window? a n = some w → w.committed = true → w.ordered = false → w.notice = some x → (s.dev.headRt
      w.head).orderable = true → s.dev.windowFits (s.dev.headRt w.head) (s.dev.windowAt w.endNs 2) x.2.len = true →
      s.dev.windowDue w 2 = s.dev.now → Runs (.acceptWindowCheck a n 2) s fun d => (d.window? a n).map (·.ordered) = some true) ∧
  (∀ s a n w m, s.dev.window? a n = some w → w.ordered = false → w.meter = some m → s.dev.windowDue w 2 < s.dev.now →
      Runs (.acceptWindowCheck a n 2) s fun d => d.window? a n = none ∧ s.dev.counted d R.FHM_CNT_n 6) ∧
  (∀ s a n k w, s.dev.window? a n = some w → w.committed = false → s.dev.windowDue w k = s.dev.now → Runs
      (.acceptWindowCheck a n k) s fun d => d.window? a n = some { w with checked := k } ∧ d.fhm.orders = s.dev.fhm.orders) ∧
  (∀ s a n k w, s.dev.window? a n = some w → s.dev.now < s.dev.windowDue w k → Runs (.acceptWindowCheck a n k) s fun d =>
      d = s.dev) ∧
  (∀ s a n k w m, s.dev.window? a n = some w → w.committed = true → w.ordered = false → w.notice = none → w.meter = some
      m → s.dev.idleMeter m = false → s.dev.windowDue w k = s.dev.now → Runs (.acceptWindowCheck a n k) s fun d =>
      d.eng.downs = s.dev.eng.downs ++ [(m, .window a n k true, (s.dev.eng.staging.filter fun f => f.meter ==
      m).length)]) ∧
  (∀ s p op n, 1 ≤ p → p ≤ 8 → s.dev.eng.parked = [] → s.dev.eng.holders = [] → Runs (.signhashRequest p op n) s fun d
      => (Maps.get? 0 d.eng.holders).map (·.op) = some op ∧ d.eng.parked = [] ∧ s.dev.counted d R.CTX_ARB_GRANT_p (p -
      1)) ∧
  (∀ s p op n, 1 ≤ p → p ≤ 8 → 4 ≤ (s.dev.eng.parked.filter fun r => r.port == p).length → Runs (.signhashRequest p op
      n) s fun d => s.dev.counted d R.CTX_CNT_n 11 ∧ d.get F.CTX_INT_STATUS_ARB_QUEUE_FULL = 1 ∧ d.eng.parked =
      s.dev.eng.parked) ∧
  (∀ s e h, Maps.get? e s.dev.eng.holders = some h → h.done + 1 < h.total → s.dev.eng.parked = [] → Runs
      (.signhashBlockEnd e) s fun d => Maps.get? e d.eng.holders = some
      { h with urgent := s.dev.urgentNow h.port h.op, done := (h.done + 1) }) ∧
  (∀ s e h r r', Maps.get? e s.dev.eng.holders = some h → h.done + 1 < h.total → s.dev.eng.parked = [r] →
      (s.dev.dst.loading.any fun p => p.2 == 1) = false → r' =
      { r with urgent := s.dev.urgentNow r.port r.op } → r'.outranks
      { h with urgent := s.dev.urgentNow h.port h.op } = true → Runs (.signhashBlockEnd e) s fun d => Maps.get? e
      d.eng.holders = some r' ∧ s.dev.counted d
      R.CTX_ARB_GRANT_p (r.port - 1)) ∧
  (∀ s e h, Maps.get? e s.dev.eng.holders = some h → h.op = .keyMgmt → s.dev.eng.parked = [] →
      (s.dev.dst.loading.any fun p => p.2 == 1) = false → Runs (.signhashOpDone e)
      s fun d => Maps.get? e d.eng.holders = none) ∧
  (∀ s p u, Runs (.arbUrgentChange p u) s fun d => (∀ r ∈ d.eng.parked, r.port = 6 → r.urgent = s.dev.nfm.bufferFull) ∧
      (p = 8 → ∀ r ∈ d.eng.parked, r.port = 8 → r.urgent = u) ∧ d.eng.holders.map (fun h => (h.1, h.2.op, h.2.done)) = s.dev.eng.holders.map fun h => (h.1, h.2.op, h.2.done)) ∧
  (∀ s u, Runs (.arbUrgentChange 1 u) s fun d => (∀ r ∈ d.eng.parked, r.port = 1 → r.urgent = false) ∧ d.eng.parked.map
      (·.order) = s.dev.eng.parked.map (·.order)) ∧
  (∀ s p r, s.dev.eng.parked.find? (fun r => r.port == p && !r.starved && decide (cyclesOf (starveMicros p) <
      s.dev.cycles - r.since)) = some r → Runs (.arbStarved p) s fun d => (∀ x
      ∈ d.eng.parked, x.order = r.order → x.starved = true) ∧ d.get F.CTX_INT_STATUS_ARB_STARVED = 1)

/-- R138 to R140: a swap fades in or waits, and its end makes its banks active. R147, R149: a module appears, its record
is accepted or refused by the first check it fails, and its removal is reported. -/
def Obligations.MeasurementSwapsAndModules : Prop :=
  (∀ s v, v.getLsbD 31 = true → 16 ≤ bitsOf v 12 0 → bitsOf v 12 0 ≤ 4096 → bitsOf v 18 16 ≠ 0 → s.dev.msrRuns = true →
      s.dev.msr.fade = none → Runs (.msrSwapRequest v) s fun d => d.msr.fade = some
      ⟨bitsOf v 18 16, bitsOf v 22 20, bitsOf v 12 0⟩ ∧ d.get F.MSR_SWAP_STATUS_RESULT = 0 ∧ d.get
      F.MSR_STATUS_FADE_ACTIVE = 1) ∧
  (∀ s v w, v.getLsbD 31 = true → 16 ≤ bitsOf v 12 0 → bitsOf v 12 0 ≤ 4096 → bitsOf v 18 16 ≠ 0 → s.dev.msrRuns = true
      → s.dev.msr.fade = some w → s.dev.msr.pend = none → Runs (.msrSwapRequest v) s fun d => d.msr.fade = some w ∧
      d.msr.pend = some ⟨bitsOf v 18 16, bitsOf v 22 20, bitsOf v 12 0⟩ ∧ d.get F.MSR_INT_STATUS_SWAP_PENDING = 1) ∧
  (∀ s v, v.getLsbD 31 = true → bitsOf v 12 0 < 16 ∨ 4096 < bitsOf v 12 0 → Runs (.msrSwapRequest v) s fun d => d.get
      F.MSR_SWAP_STATUS_RESULT = 1 ∧ d.msr = s.dev.msr) ∧
  (∀ s bits x w, x = s.dev.msrRun bits → x.msr.fade = some w → x.fadeDone = true → Runs (.msrFadeEnd bits) s fun d =>
      d.get F.MSR_STATUS_ACTIVE_BANK = w.banks (x.get F.MSR_STATUS_ACTIVE_BANK) % 8 ∧ d.msr.fade = x.msr.pend ∧
      d.msr.pend = none ∧ d.get F.MSR_INT_STATUS_SWAP_DONE = 1) ∧
  (∀ s n, n < 4 → Runs (.modPresentFall n) s fun d => bitAt d.msr.present n = true) ∧
  (∀ s n, n < 4 → Runs (.modPresentRise n) s fun d => bitAt d.msr.present n = false ∧ (d.modSlot n).front = none ∧
      (d.modSlot n).line = none ∧ d.get F.MSR_INT_STATUS_MODULE_REMOVED = 1) ∧
  (∀ s n a b, n < 4 → s.dev.trellis.msrChans ≠ [] → Runs (.moduleRecordRead n a b) s fun d => Judged (readAttempts 1
      (s.dev.frontOk n) a) (fun _ => (d.modSlot n).front = none ∧ d.get F.MSR_INT_STATUS_MODULE_INVALID = 1) (fun r =>
      (d.modSlot n).front = some r ∧ d.get F.MSR_INT_STATUS_MODULE_VALID = 1))

/-- R131, R135, R149: a reset comes at once or arms, settling follows it and ends, and a clamped stage is reported. -/
def Obligations.MeasurementResets : Prop :=
  (∀ s, s.dev.msrRuns = true → s.dev.get F.MSR_CTRL_SYNC_SRC ≠ 0 → Runs .msrSyncRequest s fun d => d.get
      F.MSR_STATUS_SYNC_ARMED = 1) ∧
  (∀ s, s.dev.msrRuns = true → s.dev.get F.MSR_CTRL_SYNC_SRC = 0 → Runs .msrSyncRequest s fun d => d.get
      F.MSR_STATUS_SYNC_ARMED = 0 ∧ d.get F.MSR_STATUS_SETTLE_LEFT = d.get F.MSR_SETTLE_K ∧ d.msr.restart = false ∧
      d.msr.settles = true) ∧
  (∀ s, s.dev.trellis.msrChans ≠ [] → s.dev.get F.MSR_CTRL_ENABLE = 0 → s.dev.get F.MSR_CTRL_SYNC_SRC ≠ 0 → Runs
      .msrEnable s fun d => d.get F.MSR_CTRL_ENABLE = 1 ∧ d.msr.restart = true ∧ d.get F.MSR_STATUS_SYNC_ARMED = 1) ∧
  (∀ s bits x, x = s.dev.msrRun bits → x.msrRuns = true → x.flag F.MSR_STATUS_SYNC_ARMED = true → Runs (.msrSyncReset
      bits) s fun d => d.get F.MSR_STATUS_SYNC_ARMED = 0 ∧ d.get F.MSR_STATUS_SETTLE_LEFT = d.get F.MSR_SETTLE_K ∧
      d.msr.settles = true) ∧
  (∀ d : Dev, d.get F.MSR_STATUS_SETTLE_LEFT = 0 → d.msr.settles = true → d.settleStep.msr.settles = false ∧
      d.settleStep.get F.MSR_INT_STATUS_SYNC_DONE = 1) ∧
  (∀ d : Dev, d.get F.MSR_STATUS_SETTLE_LEFT ≠ 0 → d.settleStep.get F.MSR_STATUS_SETTLE_LEFT = d.get
      F.MSR_STATUS_SETTLE_LEFT - 1 ∧ d.settleStep.msr = d.msr) ∧
  (∀ s slot bits x c, x = s.dev.msrRun bits → x.msrRuns = true → (∀ c ∈ x.msrChans, c.channel < 32) → c ∈ x.msrChans →
      slot = none ∨ slot = some c.module → (x.chan c.channel).valid = true → Runs (.msrSettleDone slot bits) s fun d =>
      d.get (F.MSR_CH_STATUS_VALID.at c.channel) = 1 ∧ d.msr = x.msr) ∧
  (∀ s ch st, s.dev.msrRuns = true → ch < 32 → st < 5 → Runs
      (.saturation ch st) s fun d => bitAt (d.get (F.MSR_CH_SAT_STAGE.at ch)) st = true ∧ d.get
      F.MSR_INT_STATUS_SATURATION = 1)

/-- R141, R143, R144, R148: the period is measured while the servo is LOCKED, energies latch whole, and an interval ends
empty. -/
def Obligations.MeasurementEnergy : Prop :=
  (∀ s bits x a, x = s.dev.msrRun bits → a = x.wholeSecond → x.msrRuns = true → (∀ c ∈ x.msrChans, c.channel < 32) → 2 ≤
      a.samples → x.servo = Sv.locked → Runs (.msrDtMeasure bits) s fun d => d.get F.MSR_DT_PERIOD = pattern 32 (satInt
      32 (narrow (((a.last - a.first) * 4096 : Nat) : Int) ((a.samples - 1 : Nat) : Int))) ∧ d.get
      F.MSR_STATUS_PTP_TRUSTED = 1) ∧
  (∀ s bits x, x = s.dev.msrRun bits → x.msrRuns = true → (∀ c ∈ x.msrChans, c.channel < 32) → 2 ≤
      x.wholeSecond.samples → x.servo ≠ Sv.locked → Runs (.msrDtMeasure bits) s fun d => d.get F.MSR_DT_PERIOD = x.get
      F.MSR_DT_PERIOD ∧ d.get F.MSR_STATUS_PTP_TRUSTED = 0) ∧
  (∀ s bits x n v, x = s.dev.msrRun bits → x.msrRuns = true → n < 4 → x.tempMean? n = some v → Runs (.msrCalUpdate bits)
      s fun d => Maps.get? n d.msr.means = some v) ∧
  (∀ s f bits x n, f < 4 → n < 16 → x = s.dev.msrRun bits → Runs (.msrEnergyLatch f bits) s fun d => d.reg
      (R.MSR_FDR_E_n_LO.at2 f n) = BitVec.ofNat 32 (pattern 64 ((x.msr.feeders.getD f {}).energy.getD n 0 / 2 ^ 32)) ∧
      d.reg (R.MSR_FDR_E_n_HI.at2 f n) = BitVec.ofNat 32 (pattern 64 ((x.msr.feeders.getD f {}).energy.getD n 0 / 2 ^
      32) / 2 ^ 32) ∧ d.msr = x.msr) ∧
  (∀ s f bits x k, f < 4 → x = s.dev.msrRun bits → x.msrRuns = true → k = Maps.getD ((x.msr.feeders.getD f {}).closeUpTo
      (x.balNow - 1)).ints (x.balNow - 1) {} → Runs (.msrIntervalHandover f bits) s fun d => (∀ i ∈ (d.msr.feeders.getD
      f {}).ints, x.balNow - 1 < i.1) ∧ (0 < k.invalid → d.get (F.MSR_FDR_FLAGS_INCOMPLETE.at f) = 1) ∧ (k.saturated =
      true → d.get (F.MSR_FDR_FLAGS_SATURATED.at f) = 1) ∧ (k.untrusted = true → d.get
      (F.MSR_FDR_FLAGS_TIME_UNTRUSTED.at f) = 1)) ∧
  (∀ s f bits x z, f < 4 → x = s.dev.msrRun bits → x.msrRuns = true → x.topZone? f = some z → z.checkKind = 0 → z.checkId
      = f → Runs (.msrIntervalHandover f bits) s fun d => (Maps.getD d.dur.bal.zones z.zone {}).checks.getLast?.map (·.b)
      = some (x.balNow - 1))

/-- R103 to R105: eight crossings in a row lock a phase, a near crossing is accepted, a missing one is substituted and
leads to HOLDOVER, and an UNLOCKED phase acquires anew. -/
def Obligations.ZxTracking : Prop :=
  (∀ s f p r bits x at_ t, f < 4 → p < 3 → x = s.dev.msrRun bits → x.zxEnabled f p = true → x.crossing? f p r = some at_
      → x.track f p = Zt.locked → (x.zxPhase f p).predict r = some t → nearby at_ t = true → Runs (.zxCrossing f p r
      bits) s fun d => ((d.zxPhase f p).dir
      r).last = some at_ ∧ ((d.zxPhase f p).dir r).subs = 0 ∧ d.track f p = Zt.locked) ∧
  (∀ s f bits x at_ t, f < 4 → x = s.dev.msrRun bits → x.zxEnabled f 0 = true → x.crossing? f 0 true = some at_ → x.track
      f 0 = Zt.locked → (x.zxPhase f 0).predict true = some t → nearby at_ t = true → (x.zxFeeder f).started = true →
      Runs (.zxCrossing f 0 true bits) s fun d => (d.zxFeeder f).c = ((x.zxFeeder f).c + 1) % 2 ^ 48) ∧
  (∀ s f p r bits x at_ t, f < 4 → p < 3 → x = s.dev.msrRun bits → x.zxEnabled f p = true → x.crossing? f p r = some at_
      → x.track f p = Zt.acquiring → (x.zxPhase f p).accepted = 7 → ((x.zxPhase f p).dir r).last = some t → t < at_ →
      1000000000 ≤ (at_ - t) * (x.mainsHz f + 5) → (at_ - t) * (x.mainsHz f - 5) ≤ 1000000000 → Runs (.zxCrossing f p r
      bits) s fun d => d.track f p
      = Zt.locked ∧ d.get (F.ZXP_INT_STATUS_LOCKED.at f) = 1) ∧
  (∀ s f p r bits x t, f < 4 → p < 3 → x = s.dev.msrRun bits → x.zxEnabled f p = true → x.track f p = Zt.locked →
      (x.zxPhase f p).predict r = some t → Runs (.zxCrossingMissing f p r bits) s fun d => d.track f p = Zt.holdover ∧
      ((d.zxPhase f p).dir r).subs = ((x.zxPhase f p).dir r).subs + 1 ∧ ((d.zxPhase f p).dir r).pred = some t ∧ d.get
      (F.ZXP_INT_STATUS_HOLDOVER.at f) = 1) ∧
  (∀ s f p, f < 4 → p < 3 → s.dev.track f p = Zt.unlocked → Runs (.zxReacquire f p) s fun d => d.track f p =
      Zt.acquiring ∧ (d.zxPhase f p).accepted = 0 ∧ (d.zxPhase f p).intervals = [])

/-- R109 to R112, R120, R124: the ACK and TIME frames start, pulses go out, and a driver fault stops, rests and is
cleared. -/
def Obligations.ZxFrames : Prop :=
  (∀ s f p k, f < 4 → p < 3 → s.dev.zxSends f p = true → (s.dev.zxPhase f p).frame = none → (s.dev.zxPhase f p).fixed =
      false → s.dev.bcastKey (zxPlace f p) = some k → Runs (.zxUplinkEnd f p) s fun d => (d.zxPhase f p).frame.map
      (·.purpose) = some (.ack (s.dev.zxFeeder f).round) ∧ (d.zxPhase f p).outCtr = ((s.dev.zxPhase f p).outCtr + 1) %
      2 ^ 32) ∧
  (∀ s f p fr r k, f < 4 → p < 3 → (s.dev.zxPhase f p).frame = some fr → fr.purpose = .ack r → fr.bitmap = none →
      Maps.get? (zxPlace f p) s.dev.key.bcastRegs = some k → Runs (.zxAckBitmapFix f p) s fun d => (d.zxPhase f p).fixed = true ∧
      (d.zxPhase f p).frame.bind (·.bitmap) = some (s.dev.zxPhase f p).acked) ∧
  (∀ s f p k, f < 4 → p < 3 → s.dev.zxSends f p = true → (s.dev.zxPhase f p).frame = none → (s.dev.zxPhase f p).cycle =
      (s.dev.zxFeeder f).round * (s.dev.sched f).round + (s.dev.sched f).uplink + 194 → (s.dev.sched f).every ≤
      (s.dev.zxPhase f p).sinceTime → (s.dev.zxPhase f p).timeSent = false → (s.dev.zxPhase f p).distSent = false →
      (s.dev.sched f).uplink + 194 + zxCycles 4 ≤ (s.dev.sched f).round → s.dev.bcastKey (zxPlace f p) = some k → Runs (.zxOutboundFrameStart f p) s fun d =>
      (d.zxPhase f p).frame.map (·.purpose) = some .time ∧ (d.zxPhase f p).timeSent = true) ∧
  (∀ s f p, f < 4 → p < 3 → (s.dev.zxPhase f p).cycle < (s.dev.zxFeeder f).round * (s.dev.sched f).round + (s.dev.sched
      f).uplink + 194 → Runs (.zxOutboundFrameStart f p) s fun d => d = s.dev) ∧
  (∀ s f p, f < 4 → p < 3 → (s.dev.zxPhase f p).distSent = true → Runs (.zxOutboundFrameStart f p) s fun d => d =
      s.dev) ∧
  (∀ s f p fr v, f < 4 → p < 3 → s.dev.zxSends f p = true → (s.dev.zxPhase f p).frame = some fr → fr.symbols[fr.sent]? =
      some v → fr.purpose = .time → fr.sent + 1 < fr.symbols.length → Runs (.zxPulseGate f p) s fun d => (d.zxPhase f
      p).frame = some { fr with sent := (fr.sent + 1) } ∧ d.lastOut = some (.zxPulse f p ((((s.dev.zxPhase f p).dir
      (decide (v % 2 = 0))).pred).getD 0) (msrPeriods (max 150 (s.dev.get (F.ZXP_TX_TIME_START.at f))) -
      s.dev.gateAdvance f p) (msrPeriods (s.dev.get (F.ZXP_TX_TIME_WIDTH.at f))).toNat)) ∧
  (∀ s f p, f < 4 → p < 3 → (s.dev.zxPhase f p).gate.isSome = true → Runs (.zxgWatchdog f p) s fun d => (d.zxPhase f
      p).gate = none ∧ (d.zxPhase f p).frame = none ∧ (d.zxPhase f p).resting = true ∧ d.get
      (F.ZXP_INT_STATUS_DRIVER_FAULT.at f) = 1) ∧
  (∀ s f p, f < 4 → p < 3 → bitAt (s.dev.get (F.ZXP_STATUS_FAULT.at f)) p = false → Runs (.zxfFault f p) s fun d =>
      bitAt (d.get (F.ZXP_STATUS_FAULT.at f)) p = true ∧ (d.zxPhase f p).frame = none ∧ (d.zxPhase f p).resting = true
      ∧ d.get (F.ZXP_INT_STATUS_DRIVER_FAULT.at f) = 1) ∧
  (∀ s f p, f < 4 → p < 3 → Runs (.zxfFall f p) s fun d => bitAt (d.get (F.ZXP_STATUS_FAULT.at f)) p = false) ∧
  (∀ s f p t, f < 4 → p < 3 → (s.dev.zxPhase f p).faults.head? = some t → t + 10000000000 ≤ s.dev.now → Runs
      (.zxFaultResume f p) s fun d => (d.zxPhase f p).resting = false) ∧
  (∀ s f m p, f < 4 → p < 3 → bitAt m p = true → (s.dev.setNow (R.ZXP_FAULT.at f)).getLsbD p = false → Runs
      (.zxpFaultClear f m) s fun d => bitAt (d.get (F.ZXP_STATUS_LATCHED.at f)) p = false ∧ bitAt (d.get
      (F.ZXP_FAULT_LATCHED.at f)) p = false) ∧
  (∀ s f m p, f < 4 → p < 3 → (s.dev.setNow (R.ZXP_FAULT.at f)).getLsbD p = true → Runs (.zxpFaultClear f m) s fun d =>
      bitAt (d.get (F.ZXP_FAULT_LATCHED.at f)) p = bitAt (s.dev.get (F.ZXP_FAULT_LATCHED.at f)) p)

/-- R105, R107, R108, R119: the round follows C, a slot is assigned and released, ZXP_CYCLE latches, and an undecodable
block fails. -/
def Obligations.ZxRounds : Prop :=
  (∀ s f, f < 4 → (s.dev.zxFeeder f).started = true → (s.dev.zxFeeder f).sched = none → (s.dev.zxFeeder f).c /
      (s.dev.sched f).round ≠ (s.dev.zxFeeder f).round → Runs (.zxRoundBoundary f) s fun d => (d.zxFeeder f).round =
      (s.dev.zxFeeder f).c / (s.dev.sched f).round ∧ (d.zxFeeder f).decoding = s.dev.serves ∧ ∀ p, p < 3 → (d.zxPhase f
      p).sinceTime = (s.dev.zxPhase f p).sinceTime + 1) ∧
  (∀ s f m z c, f < 4 → z =
      ⟨f, s.dev.get (F.ZXP_ASSIGN_SLOT_PHASE.at f), s.dev.get (F.ZXP_ASSIGN_SLOT_CHANNEL.at f),
      s.dev.get (F.ZXP_ASSIGN_SLOT_SLOT.at f)⟩
      → Maps.get? (m % 1048576) s.dev.dur.ctxs = some c → (s.dev.trellis.class? c.cls).map (·.medium) = some 2 →
      z.phase < 3 → s.dev.zxEnabled f z.phase = true → z.slot < (s.dev.sched f).period → s.dev.zxTaken (m % 1048576) z = false → Runs
      (.zxpAssign f m) s fun d => (Maps.get? (m % 1048576) d.dur.ctxs).bind (·.zx) = some z ∧ d.get
      (F.ZXP_ASSIGN_RESULT.at f) = 0 ∧ d.get (F.ZXP_INT_STATUS_ASSIGN_DONE.at f) = 1) ∧
  (∀ s f m, f < 4 → Maps.get? (m % 1048576) s.dev.dur.ctxs = none → Runs (.zxpAssign f m) s fun d => d.dur.ctxs =
      s.dev.dur.ctxs ∧ d.get (F.ZXP_ASSIGN_RESULT.at f) = 4) ∧
  (∀ s f m c, f < 4 → Maps.get? (m % 1048576) s.dev.dur.ctxs = some c → c.zx.map (·.feeder) = some f → Runs (.zxpRelease
      f m) s fun d => (Maps.get? (m % 1048576) d.dur.ctxs).bind (·.zx) = none ∧ d.get (F.ZXP_ASSIGN_RESULT.at f) = 0) ∧
  (∀ s f, f < 4 → Runs (.zxpCycleRead f) s fun d => (d.zxFeeder f).latch = some ((s.dev.zxFeeder f).c, ((s.dev.zxFeeder
      f).times.head?.map (·.2)).getD 0)) ∧
  (∀ s f p ch m, f < 4 → p < 3 → ch < 16 → s.dev.zxReceives f p = true → (s.dev.zxFeeder f).decoding = true
      → s.dev.serves = true → s.dev.zxSender f p ch (s.dev.zxFeeder f).round = some m →
      Runs (.zxBlockDecode f p ch) s fun d => (Maps.getD (d.zxPhase f p).up ch {}).blocks = (Maps.getD (s.dev.zxPhase f p).up ch
      {}).blocks + 1) ∧
  (∀ s f p ch m, f < 4 → p < 3 → ch < 16 → s.dev.zxReceives f p = true → (s.dev.zxFeeder f).decoding = true
      → s.dev.serves = true → s.dev.zxSender f p ch (s.dev.zxFeeder f).round = some m → Maps.getD (s.dev.zxPhase f
      p).up ch {} = {} → (s.dev.zxFeeder f).learned = [] → (s.dev.zxPhase f p).flagged = [] →
      (s.dev.zxPhase f p).gaps = [] → (s.dev.zxPhase f p).off = none → 0 < (s.dev.sched f).blocks →
      rsDecode (chunks 4 15
      ((((s.dev.zxPhase f p).symbols (s.dev.zxPulseOf f p) 60 ((s.dev.zxFeeder f).round * (s.dev.sched f).round)
      0).map fun r => r.getD ch 0).map fun v => decide (0 < v))) [] = none → Runs (.zxBlockDecode f p ch) s fun d =>
      d.get (F.ZXP_INT_STATUS_BLOCK_FAIL.at f) = 1 ∧ (Maps.getD (d.zxPhase f p).up ch
      {}).failed = true)

/-- R291 to R293: a session opens, takes a good peer or ends with BAD_PEER, and ends on PROV_CLOSE or after 600 s. -/
def Obligations.Provisioning : Prop :=
  (∀ s, s.dev.flag F.KEY_CMD_BUSY = false → s.dev.keyLocked = false → s.dev.standbyRefuses = false → s.dev.drbgRuns =
      true → Runs .provOpen s fun d => d.key.session.isSome = true ∧ d.key.session.bind (·.transport) = none ∧ d.get
      F.KEY_STATUS_PROV = 1 ∧ d.get F.KEY_CMD_RESULT = 0 ∧ d.get F.KEY_INT_STATUS_CMD_DONE = 1) ∧
  (∀ s, s.dev.flag F.KEY_CMD_BUSY = false → s.dev.keyLocked = false → s.dev.standbyRefuses = false → s.dev.drbgRuns =
      false → Runs .provOpen s fun d => d.key.session = none ∧ d.get F.KEY_CMD_RESULT = Kr.entropy) ∧
  (∀ s, s.dev.flag F.KEY_CMD_BUSY = false → s.dev.keyLocked = false → s.dev.standbyRefuses = false → s.dev.key.session =
      none → Runs (.provPeer []) s fun d => d.key.session = none ∧ d.get F.KEY_CMD_RESULT = Kr.noSession) ∧
  (∀ s peer p, s.dev.flag F.KEY_CMD_BUSY = false → s.dev.keyLocked = false → s.dev.standbyRefuses = false →
      s.dev.key.session = some p → p.transport = none → Runs (.provPeer peer) s fun d => d.get F.KEY_CMD_RESULT = (if
      (d.key.session.bind (·.transport)).isSome then Kr.ok else Kr.badPeer) ∧ (d.get F.KEY_CMD_RESULT = Kr.badPeer →
      d.key.session = none ∧ d.get F.KEY_INT_STATUS_PROV_EXPIRED = 1)) ∧
  (∀ s p peer, s.dev.flag F.KEY_CMD_BUSY = false → s.dev.keyLocked = false → s.dev.standbyRefuses = false →
      s.dev.key.session = some p → p.transport = none → peer.be 4 16 ≠ p.nonce → Runs (.provPeer peer) s fun d =>
      d.key.session = none ∧ d.get F.KEY_CMD_RESULT = Kr.badPeer) ∧
  (∀ s p, s.dev.flag F.KEY_CMD_BUSY = false → s.dev.keyLocked = false → s.dev.standbyRefuses = false → s.dev.key.session
      = some p → Runs .provClose s fun d => d.key.session = none ∧ d.get F.KEY_STATUS_PROV = 0 ∧ d.get
      F.KEY_CMD_RESULT = 0 ∧ d.get F.KEY_INT_STATUS_PROV_EXPIRED = s.dev.get F.KEY_INT_STATUS_PROV_EXPIRED) ∧
  (∀ s p, s.dev.key.session = some p → s.dev.key.generating = none → p.openedAt + sessionCycles < s.dev.cycles → Runs
      .provSessionExpire s fun d =>
      d.key.session = none ∧ d.get F.KEY_STATUS_PROV
      = 0 ∧ d.get F.KEY_INT_STATUS_PROV_EXPIRED = 1)

/-- R293 to R299: a candidate fills, commits and clears; a root is erased; REWRAP runs over the store. -/
def Obligations.RootCommands : Prop :=
  (∀ s slot root w t k, s.dev.flag F.KEY_CMD_BUSY = false → s.dev.keyLocked = false → s.dev.standbyRefuses = false →
      s.dev.key.session.bind (·.transport) = some t → s.dev.latched = false → k = s.dev.get F.KEY_CMD_ARG_KIND → 0 < k
      → k ≤ 6 → s.dev.clo.candidate = none → Runs (.rootImport slot root w) s fun d => d.clo.candidate = (if w =
      Crypto.wrap 32 t 16 root ∧ kcvOf 16 root = s.dev.get F.KEY_KCV_KCV then some
      ⟨slot, k, root, (s.dev.pairwise ⟨slot, k, root, false⟩).1⟩ else none)) ∧
  (∀ s slot root w t c, s.dev.flag F.KEY_CMD_BUSY = false → s.dev.keyLocked = false → s.dev.standbyRefuses = false →
      s.dev.key.session.bind (·.transport) = some t → s.dev.latched = false → 1 ≤ s.dev.get F.KEY_CMD_ARG_KIND →
      s.dev.get F.KEY_CMD_ARG_KIND ≤ 6 → s.dev.clo.candidate = some c → Runs (.rootImport slot root w) s fun d =>
      d.clo.candidate = some c ∧ d.get F.KEY_CMD_RESULT = Kr.candidateBusy) ∧
  (∀ s slot t, s.dev.flag F.KEY_CMD_BUSY = false → s.dev.keyLocked = false → s.dev.standbyRefuses = false →
      s.dev.key.session.bind (·.transport) = some t → s.dev.latched = false → s.dev.get F.KEY_CMD_ARG_KIND = Kind.sign
      → s.dev.clo.candidate = none → s.dev.drbgRuns = true → Runs (.rootGenerate slot) s fun d => d.clo.candidate.map
      (fun c => (c.slot, c.kind)) = some (slot, Kind.sign) ∧ ∀ c, d.clo.candidate = some c → d.get
      F.KEY_STATUS_CAND_VERIFIED = b2n c.verified ∧ d.get F.KEY_CMD_RESULT = if c.verified then Kr.ok else
      Kr.notVerified) ∧
  (∀ s slot t, s.dev.flag F.KEY_CMD_BUSY = false → s.dev.keyLocked = false → s.dev.standbyRefuses = false →
      s.dev.key.session.bind (·.transport) = some t → s.dev.latched = false → s.dev.get F.KEY_CMD_ARG_KIND = Kind.sign
      → s.dev.clo.candidate = none → s.dev.drbgRuns = false → Runs (.rootGenerate slot) s fun d => d.clo.candidate = none
      ∧ d.key.generating = some slot ∧ d.get F.KEY_CMD_BUSY = 1) ∧
  (∀ s slot, s.dev.flag F.KEY_CMD_BUSY = false → s.dev.keyLocked = false → s.dev.standbyRefuses = false →
      s.dev.key.session.bind (·.transport) = none → Runs (.rootGenerate slot) s fun d => d.clo.candidate =
      s.dev.clo.candidate ∧ d.get F.KEY_CMD_RESULT = Kr.noSession) ∧
  (∀ s t c, s.dev.flag F.KEY_CMD_BUSY = false → s.dev.keyLocked = false → s.dev.standbyRefuses = false →
      s.dev.key.session.bind (·.transport) = some t → s.dev.latched = false → s.dev.clo.candidate = some c → c.verified
      = true → s.dev.slotFree c = true → c.kind = Kind.sign → Runs .rootCommit s fun d =>
      d.clo.candidate = none ∧ (d.slotMeta c.slot).kind = Kind.sign ∧ (d.root? c.slot).isSome = true ∧ d.get
      F.KEY_STATUS_CAND_VALID = 0 ∧ d.get F.KEY_INT_STATUS_ROOT_COMMITTED = 1) ∧
  (∀ s t c, s.dev.flag F.KEY_CMD_BUSY = false → s.dev.keyLocked = false → s.dev.standbyRefuses = false →
      s.dev.key.session.bind (·.transport) = some t → s.dev.latched = false → s.dev.clo.candidate = some c → c.verified
      = true → s.dev.slotFree c = false → Runs .rootCommit s fun d => d.clo.candidate = some c
      ∧ d.dur.roots = s.dev.dur.roots ∧ d.get F.KEY_CMD_RESULT = Kr.slotInUse) ∧
  (∀ s t c, s.dev.flag F.KEY_CMD_BUSY = false → s.dev.keyLocked = false → s.dev.standbyRefuses = false →
      s.dev.key.session.bind (·.transport) = some t → s.dev.clo.candidate = some c → Runs .rootCancel s fun d =>
      d.clo.candidate = none ∧ d.get F.KEY_STATUS_CAND_VALID = 0 ∧ d.get F.KEY_STATUS_CAND_VERIFIED = 0 ∧ d.get
      F.KEY_STATUS_CAND_SLOT = 0 ∧ d.get F.KEY_STATUS_CAND_KIND = 0 ∧ d.get F.KEY_CMD_RESULT = 0) ∧
  (∀ s slot t, s.dev.flag F.KEY_CMD_BUSY = false → s.dev.keyLocked = false → s.dev.standbyRefuses = false →
      s.dev.key.session.bind (·.transport) = some t → s.dev.latched = false → s.dev.slotInUse slot = false → Runs
      (.rootErase slot) s fun d => d.root? slot = none ∧ Maps.get? slot d.key.working = none ∧ d.slotMeta slot =
      ⟨0, (s.dev.slotMeta slot).gen, 0⟩ ∧ d.get F.KEY_CMD_RESULT = 0) ∧
  (∀ s slot t, s.dev.flag F.KEY_CMD_BUSY = false → s.dev.keyLocked = false → s.dev.standbyRefuses = false →
      s.dev.key.session.bind (·.transport) = some t → s.dev.latched = false → s.dev.slotInUse slot = true → Runs
      (.rootErase slot) s fun d => d.clo.vault = s.dev.clo.vault ∧ d.get F.KEY_CMD_RESULT = Kr.slotInUse) ∧
  (∀ s slot v w, s.dev.flag F.KEY_CMD_BUSY = false → s.dev.keyLocked = false → s.dev.standbyRefuses = false →
      s.dev.workKey Kind.storeKek slot = some v → s.dev.workKey Kind.storeKek (s.dev.get F.KEY_CMD_ARG_TARGET) = some
      w → s.dev.dur.keys = [] → Runs (.rewrap slot) s fun d => d.get F.KEY_REWRAP_RUNNING = 0 ∧ d.get F.KEY_REWRAP_DONE =
      1048576 ∧ d.dur.rewrap = some (slot, s.dev.get F.KEY_CMD_ARG_TARGET, 1048576) ∧ d.get F.KEY_CMD_RESULT = 0) ∧
  (∀ s slot v w m k l, s.dev.flag F.KEY_CMD_BUSY = false → s.dev.keyLocked = false → s.dev.standbyRefuses = false →
      s.dev.workKey Kind.storeKek slot = some v → s.dev.workKey Kind.storeKek (s.dev.get F.KEY_CMD_ARG_TARGET) = some
      w → s.dev.dur.keys = (m, k) :: l → Maps.has s.dev.eng.flight m = true → Runs (.rewrap slot) s fun d => d.get
      F.KEY_REWRAP_RUNNING = 1 ∧ d.get F.KEY_REWRAP_DONE = 0 ∧ d.dur.rewrap = some (slot, s.dev.get F.KEY_CMD_ARG_TARGET,
      0) ∧ (m, DlJob.rewrap) ∈ d.eng.downs.map (fun x => (x.1, x.2.1)) ∧ d.get F.KEY_CMD_RESULT = 0)

/-- R301, R304, R305: an entry that unwraps to its key check value becomes the current set, or the candidate beside one; a
cancel clears the candidate. -/
def Obligations.KeyInstalls : Prop :=
  (∀ s e i o, s.dev.flag F.KEY_CMD_BUSY = false → s.dev.keyLocked = false → s.dev.standbyRefuses = false →
      s.dev.installKeys = some (i, o) → s.dev.get F.KEY_CMD_ARG_COUNT = 1 → s.dev.standbySynced = false → (Maps.get?
      (e.index % 1048576) s.dev.dur.ctxs).isSome = true → e.flags = 0 → (s.dev.meterKeys (e.index % 1048576)) = {} →
      Runs (.meterInstall [e]) s fun d => (d.meterKeys (e.index % 1048576)).cur.isSome = decide (e.wrapped =
      Crypto.wrap 32 i.key 32 (e.link * 2 ^ 128 + e.global) ∧ e.kcv = kcvOf 16 e.link) ∧ (d.meterKeys (e.index %
      1048576)).cand = none) ∧
  (∀ s e i o, s.dev.flag F.KEY_CMD_BUSY = false → s.dev.keyLocked = false → s.dev.standbyRefuses = false →
      s.dev.installKeys = some (i, o) → s.dev.get F.KEY_CMD_ARG_COUNT = 1 → s.dev.standbySynced = false → (Maps.get?
      (e.index % 1048576) s.dev.dur.ctxs) = none → Runs (.meterInstall [e]) s fun d => d.dur.keys = s.dev.dur.keys ∧
      d.get F.KEY_CMD_RESULT = if e.wrapped ≠ Crypto.wrap 32 i.key 32 (e.link * 2 ^ 128 + e.global) then Kr.unwrapFail
      else if e.kcv ≠ kcvOf 16 e.link then Kr.kcvMismatch else Kr.notAllocated) ∧
  (∀ s e, s.dev.flag F.KEY_CMD_BUSY = false → s.dev.keyLocked = false → s.dev.standbyRefuses = false → s.dev.installKeys
      = none → Runs (.meterInstall [e]) s fun d => d.dur.keys = s.dev.dur.keys ∧ d.get F.KEY_CMD_RESULT =
      Kr.wrongKind) ∧
  (∀ s m k, s.dev.flag F.KEY_CMD_BUSY = false → s.dev.keyLocked = false → s.dev.standbyRefuses = false → (Maps.get? m
      s.dev.dur.ctxs).isSome = true → s.dev.idleMeter m = true → (s.dev.meterKeys m).cand = some k →
      s.dev.standbySynced = false → Runs (.meterCancel m) s fun d => (d.meterKeys m).cand = none ∧ (d.meterKeys m).cur
      = (s.dev.meterKeys m).cur ∧ d.get F.KEY_CMD_RESULT = 0 ∧ d.get F.KEY_CMD_BUSY = 0) ∧
  (∀ s m, s.dev.flag F.KEY_CMD_BUSY = false → s.dev.keyLocked = false → s.dev.standbyRefuses = false → (Maps.get? m
      s.dev.dur.ctxs).isSome = true → s.dev.idleMeter m = false → Runs (.meterCancel m) s fun d => d.eng.downs =
      s.dev.eng.downs ++ [(m, .cancel, (s.dev.eng.staging.filter fun f => f.meter == m).length)] ∧ d.get F.KEY_CMD_BUSY =
      1) ∧
  (∀ s e i o h, s.dev.flag F.KEY_CMD_BUSY = false → s.dev.keyLocked = false → s.dev.standbyRefuses = false →
      s.dev.installKeys = some (i, o) → s.dev.get F.KEY_CMD_ARG_COUNT = 1 → s.dev.standbySynced = false → h = e.index
      % 1048576 → (Maps.get? h s.dev.dur.heads).isSome = true → e.flags = 0 → Maps.getD s.dev.dur.headKeys h {} = ({}
      : KeyPair) → Runs (.headInstall [e]) s fun d => (Maps.getD d.dur.headKeys h {}).cur.isSome = decide (e.wrapped =
      Crypto.wrap 32 i.key 32 (e.link * 2 ^ 128 + e.global) ∧ e.kcv = kcvOf 32 (e.link * 2 ^ 128 + e.global)) ∧
      (Maps.getD d.dur.headKeys h {}).cand = none) ∧
  (∀ s h k, s.dev.flag F.KEY_CMD_BUSY = false → s.dev.keyLocked = false → s.dev.standbyRefuses = false → (Maps.get? (h %
      4096) s.dev.dur.heads).isSome = true → (Maps.getD s.dev.dur.headKeys (h % 4096) {}).cand = some k →
      s.dev.standbySynced = false → Runs (.headCancel h) s fun d => (Maps.getD d.dur.headKeys (h % 4096) {}).cand =
      none ∧ (Maps.getD d.dur.headKeys (h % 4096) {}).cur = (Maps.getD s.dev.dur.headKeys (h % 4096) {}).cur ∧ d.get
      F.KEY_CMD_RESULT = 0) ∧
  (∀ s e i o c, s.dev.flag F.KEY_CMD_BUSY = false → s.dev.keyLocked = false → s.dev.standbyRefuses = false →
      s.dev.installKeys = some (i, o) → s.dev.get F.KEY_CMD_ARG_COUNT = 1 → s.dev.standbySynced = false → c = e.index
      % 1048576 → (s.dev.trellis.classes.any (·.classId == c)) = true → e.flags = 0 → Maps.getD s.dev.dur.classAks c
      {} = ({} : KeyPair) → Runs (.classAkInstall [e]) s fun d => (Maps.getD d.dur.classAks c {}).cur.isSome = decide
      (e.wrapped = Crypto.wrap 32 i.key 32 (e.link * 2 ^ 128 + e.global) ∧ e.kcv = kcvOf 16 e.link))

/-- R288, R308, R311, R313, R314: a roll waits for its instant and then steps the generation; masks change under their
roots; RESUME leaves a locked state. -/
def Obligations.BroadcastAndVault : Prop :=
  (∀ s t, s.dev.flag F.KEY_CMD_BUSY = false → s.dev.keyLocked = false → s.dev.standbyRefuses = false → (s.dev.workKey
      Kind.broadcast (s.dev.get F.KEY_BCAST_SLOT)).isSome = true → s.dev.tsu.sec ≤ s.dev.wide R.KEY_BCAST_AT_LO
      R.KEY_BCAST_AT_HI 0 → t < 4108 → Runs (.bcastRoll t) s fun d => (t, s.dev.wide R.KEY_BCAST_AT_LO
      R.KEY_BCAST_AT_HI 0, s.dev.get F.KEY_BCAST_SLOT) ∈ d.key.rolls ∧ d.get F.KEY_CMD_RESULT = 0) ∧
  (∀ s t, s.dev.flag F.KEY_CMD_BUSY = false → s.dev.keyLocked = false → s.dev.standbyRefuses = false → (s.dev.workKey
      Kind.broadcast (s.dev.get F.KEY_BCAST_SLOT)).isSome = true → s.dev.wide R.KEY_BCAST_AT_LO R.KEY_BCAST_AT_HI 0 <
      s.dev.tsu.sec → Runs (.bcastRoll t) s fun d => d.key.rolls = s.dev.key.rolls ∧ d.get F.KEY_CMD_RESULT =
      Kr.instantPast) ∧
  (∀ s t r, s.dev.key.rolls.find? (·.1 == t) = some r → r.2.1 ≤ s.dev.tsu.sec → s.dev.armedBefore r.2.1 5 = [] → Runs
      (.bcastRollInstant t) s fun d => Maps.getD d.dur.bcast t (0, 0) = ((s.dev.bcastGen t + 1) % 65536, r.2.2) ∧
      d.key.rolls.any (·.1 == t) = false ∧ d.get F.KEY_INT_STATUS_BCAST_ROLLED = 1) ∧
  (∀ s t r, s.dev.key.rolls.find? (·.1 == t) = some r → s.dev.tsu.sec < r.2.1 → Runs (.bcastRollInstant t) s fun d =>
      d = s.dev) ∧
  (∀ s w, s.dev.flag F.KEY_CMD_BUSY = false → s.dev.keyLocked = false → s.dev.standbyRefuses = false → s.dev.workKey
      Kind.sign (s.dev.get F.ING_RECORD_SIGN_SLOT) = some w → Runs .exportCert s fun d => d.get F.KEY_CMD_RESULT = 0 ∧
      d.get F.KEY_INT_STATUS_CMD_DONE = 1) ∧
  (∀ s, s.dev.flag F.KEY_CMD_BUSY = false → s.dev.keyLocked = false → s.dev.standbyRefuses = false → s.dev.workKey
      Kind.sign (s.dev.get F.ING_RECORD_SIGN_SLOT) = none → Runs .exportCert s fun d => d.key = s.dev.key ∧ d.get
      F.KEY_CMD_RESULT = Kr.wrongKind) ∧
  (∀ s slot, s.dev.clo.onBattery = false → Maps.rising s.dev.clo.vault = true → Runs (.maskRefresh true) s fun d =>
      d.root? slot = s.dev.root? slot ∧ s.dev.counted d R.KEY_CNT_n 10) ∧
  (∀ s, Runs .drbgStop s fun d => if s.dev.key.sinceSeed < 2 ^ 32 then d = s.dev else d.get F.KEY_STATUS_DRBG_RUN = 0) ∧
  (∀ s, s.dev.flag F.KEY_CMD_BUSY = false → s.dev.flag F.CLO_TAMPER_LATCH_SOURCE = false → s.dev.keyLocked = true →
      (s.dev.key.lost.all fun p => (s.dev.slotMeta p.1).kind == 0 || ((s.dev.root? p.1).map fun r => kcvOf 16 r ==
      p.2.kcv).getD false) = true → s.dev.prl.outAtStart = false → s.dev.prl.up = false → Runs .resume s fun d => d.get
      F.KEY_STATUS_STATE = 0 ∧ d.get F.KEY_CMD_RESULT = 0 ∧ d.get F.GLB_BOOT_STATE = Boot.normal) ∧
  (∀ s p, s.dev.flag F.KEY_CMD_BUSY = false → s.dev.flag F.CLO_TAMPER_LATCH_SOURCE = false → s.dev.keyLocked = true →
      p ∈ s.dev.key.lost → (s.dev.slotMeta p.1).kind ≠ 0 → s.dev.root? p.1 = none → Runs .resume s fun d => d.get
      F.KEY_CMD_RESULT = Kr.notComplete ∧ d.get F.KEY_STATUS_STATE = s.dev.get F.KEY_STATUS_STATE) ∧
  (∀ s, s.dev.flag F.KEY_CMD_BUSY = false → s.dev.flag F.CLO_TAMPER_LATCH_SOURCE = true → Runs .resume s fun d => d.get
      F.KEY_CMD_RESULT = Kr.badState ∧ d.get F.KEY_STATUS_STATE = s.dev.get F.KEY_STATUS_STATE)

/-- R228, R233: an interval end and a boundary journal their markers; a sweep starts at a due boundary and, done, records
the boundary closed. -/
def Obligations.PeriodClosure : Prop :=
  (∀ s i t, s.dev.serves = true → s.dev.timeValid = true → t ≤ s.dev.tsu.sec → s.dev.armedBefore t 1 = [] →
      s.dev.eventsBefore t 1 = [] → (s.dev.timeEvents 1 i (s.dev.marked 1 i) t).contains t = true → Runs (.intervalEnd i
      t) s fun d => d.jnl.entries.getLast?.map (·.rec_) = some (.time 1 i t 0)) ∧
  (∀ s i t, s.dev.timeValid = false → s.dev.armedBefore t 1 = [] → Runs (.intervalEnd i t) s fun d => d = s.dev) ∧
  (∀ s i t, s.dev.tsu.sec < t → Runs (.intervalEnd i t) s fun d => d = s.dev) ∧
  (∀ s i t, s.dev.armedBefore t 1 = [] → s.dev.eventsBefore t 1 = [] → (s.dev.timeEvents 1 i (s.dev.marked 1 i)
      t).contains t = false → Runs (.intervalEnd i t) s fun d => d = s.dev) ∧
  (∀ s i t, s.dev.serves = true → s.dev.timeValid = true → t ≤ s.dev.tsu.sec → s.dev.armedBefore t 2 = [] →
      s.dev.eventsBefore t 2 = [] → (s.dev.timeEvents 2 i (s.dev.marked 2 i) t).contains t = true → Runs (.periodBoundary i
      t) s fun d => d.jnl.entries.getLast?.map (·.rec_) = some (.time 2 i t 0)) ∧
  (∀ s i t, s.dev.tsu.sec < t → Runs (.periodBoundary i t) s fun d => d = s.dev) ∧
  (∀ s i t, s.dev.serves = true → s.dev.timeValid = true → Maps.has s.dev.bil.sweeps i = false → s.dev.sweepDue i t =
      true → Runs (.closureSweepStart i t) s fun d => Maps.get? i d.bil.sweeps = some t ∧ d.bil.sweeps.length =
      s.dev.bil.sweeps.length + 1) ∧
  (∀ s i t, s.dev.sweepDue i t = false → Runs (.closureSweepStart i t) s fun d => d = s.dev) ∧
  (∀ s i t, Maps.get? i s.dev.bil.sweeps = some t → s.dev.now ≤ 1000000000 * (t + s.dev.get F.BIL_CLOSE_GRACE) → Runs
      (.closureSweepDone i) s fun d => d = s.dev) ∧
  (∀ s i t, Maps.get? i s.dev.bil.sweeps = some t → 1000000000 * (t + s.dev.get F.BIL_CLOSE_GRACE) < s.dev.now →
      (s.dev.sweepLeft i t).any s.dev.undecided = false → Runs (.closureSweepDone i) s fun d => Maps.get? i d.bil.sweeps =
      none ∧ (Maps.getD d.dur.calClosed i (0, 0)).2 = t ∧ d.get F.BIL_INT_STATUS_PERIOD_CLOSED = 1)

/-- R247, R260, R261: a due interval is evaluated, one due during an evaluation waits, and the end of both passes records
it. R245, R246, R253, R258: a meter joins and leaves a zone, the queries fill their registers, and RESTART zeroes the
accumulators. -/
def Obligations.BalanceZones : Prop :=
  (∀ s b, s.dev.serves = true → s.dev.timeValid = true → balEnd s.dev.balMins s.dev.utc b + 60
      * s.dev.balMins * s.dev.get F.BAL_CTRL_SETTLE ≤ s.dev.tsu.sec → s.dev.wide R.BAL_LAST_B_LO R.BAL_LAST_B_HI 0 < b
      → s.dev.bil.base ≤ b → s.dev.bil.eval = none → Runs (.balEvaluation b) s fun d => d.bil.eval = some b ∧ d.get F.BAL_STATUS_EVAL_BUSY
      = 1 ∧ d.dur.bal = freezeAll s.dev.trellis.zones s.dev.balMins s.dev.utc b
      s.dev.dur.lastTs s.dev.dur.bal) ∧
  (∀ s b c, s.dev.serves = true → s.dev.timeValid = true → balEnd s.dev.balMins s.dev.utc b +
      60 * s.dev.balMins * s.dev.get F.BAL_CTRL_SETTLE ≤ s.dev.tsu.sec → s.dev.wide R.BAL_LAST_B_LO R.BAL_LAST_B_HI 0
      < b → s.dev.bil.base ≤ b → s.dev.bil.eval = some c → c < b → s.dev.bil.due.contains b = false → Runs (.balEvaluation b) s fun d =>
      d.bil.eval = some c ∧ d.bil.due = s.dev.bil.due ++ [b] ∧ d.get F.BAL_INT_STATUS_EVAL_OVERRUN = 1) ∧
  (∀ s b, b < s.dev.bil.base → Runs (.balEvaluation b) s fun d => d = s.dev) ∧
  (∀ s b, s.dev.bil.eval = some b → b < 2 ^ 64 → s.dev.bil.due = [] → s.dev.bil.waiting = none → Runs .balEvalDone s fun
      d => d.bil.eval = none ∧ d.get F.BAL_STATUS_EVAL_BUSY = 0 ∧ d.wide R.BAL_LAST_B_LO R.BAL_LAST_B_HI 0 = b ∧ d.get
      F.BAL_INT_STATUS_EVAL_DONE = 1) ∧
  (∀ s i, s.dev.flag F.BAL_CMD_BUSY = false → s.dev.standbyRefuses = false → s.dev.attachCheck (i % 1048576) (s.dev.get
      F.BAL_CMD_ZONE_ZONE) = 0 → s.dev.bil.eval = none → s.dev.standbySynced = false → Runs (.attach i) s fun d =>
      (Maps.get? (i % 1048576) d.dur.bal.members).map (·.zone) = some (s.dev.get F.BAL_CMD_ZONE_ZONE) ∧ (Maps.get? (i
      % 1048576) d.dur.bal.members).map (·.since) = some s.dev.tsu.sec ∧ (Maps.get? (i % 1048576)
      d.dur.bal.members).map (·.base) = some (s.dev.balNow + 1) ∧ d.get F.BAL_CMD_RESULT = 0) ∧
  (∀ s i r, s.dev.flag F.BAL_CMD_BUSY = false → s.dev.standbyRefuses = false → r = s.dev.attachCheck (i % 1048576)
      (s.dev.get F.BAL_CMD_ZONE_ZONE) → r ≠ 0 → Runs (.attach i) s fun d => d.dur.bal = s.dev.dur.bal ∧ d.get
      F.BAL_CMD_RESULT = r ∧ d.get F.BAL_INT_STATUS_CMD_DONE = 1) ∧
  (∀ s i m, s.dev.flag F.BAL_CMD_BUSY = false → s.dev.standbyRefuses = false → (Maps.get? (i % 1048576)
      s.dev.dur.ctxs).isSome = true → Maps.get? (i % 1048576) s.dev.dur.bal.members = some m → s.dev.bil.eval = none →
      s.dev.standbySynced = false → Runs (.detach i) s fun d => Maps.get? (i % 1048576) d.dur.bal.members = none ∧
      d.get F.BAL_CMD_RESULT = 0) ∧
  (∀ s i m e, s.dev.flag F.BAL_CMD_BUSY = false → s.dev.standbyRefuses = false → (Maps.get? (i % 1048576)
      s.dev.dur.ctxs).isSome = true → Maps.get? (i % 1048576) s.dev.dur.bal.members = some m → s.dev.bil.eval = some e
      → Runs (.detach i) s fun d => d.dur = s.dev.dur ∧ d.bil.waiting.isSome = true ∧ d.get F.BAL_CMD_BUSY = 1) ∧
  (∀ s i z, s.dev.flag F.BAL_CMD_BUSY = false → s.dev.zoneRec? (i % 65536) = some z → z.zone < 65536 → Runs (.queryZone
      i) s fun d => d.get F.BAL_Q_STATUS_VALID = 1 ∧ d.get F.BAL_Q_STATUS_ZONE = z.zone ∧ d.get F.BAL_CMD_RESULT = 0) ∧
  (∀ s i, s.dev.flag F.BAL_CMD_BUSY = false → s.dev.zoneRec? (i % 65536) = none → Runs (.queryZone i) s fun d => d.get
      F.BAL_Q_STATUS_VALID = 0 ∧ d.get F.BAL_Q_STATUS_ZONE = i % 65536 ∧ d.get F.BAL_CMD_RESULT = 2) ∧
  (∀ s i, s.dev.flag F.BAL_CMD_BUSY = false → (Maps.get? (i % 1048576) s.dev.dur.ctxs).isSome = true → Runs (.queryMeter
      i) s fun d => d.get F.BAL_M_STATE_ATTACHED = b2n (Maps.get? (i % 1048576) s.dev.dur.bal.members).isSome ∧ d.get
      F.BAL_CMD_RESULT = 0) ∧
  (∀ s, Runs .balRestart s fun d => d.dur.bal = s.dev.dur.bal.clear)

/-- R346 to R355: an erase counts, a first program is recorded, a failed block retires and takes a spare, reads climb the
ladder, and the Rake passes. -/
def Obligations.NandPrograms : Prop :=
  (∀ s n b temp, s.dev.media = Media.normal → Runs (.nandProgramDone .erase n b temp
      true) s fun d => (d.block n b).pe = (s.dev.block n b).pe + 1 ∧ (d.block n b).programmed = none) ∧
  (∀ s n b temp, s.dev.media = Media.normal → (s.dev.block n b).programmed = none → Runs
      (.nandProgramDone .move n b temp true) s fun d => (d.block n b).programmed = some (s.dev.tsu.sec, temp) ∧
      s.dev.counted d R.NFM_CNT_n 0) ∧
  (∀ s n b temp x job, s.dev.media = Media.normal → (s.dev.block n b).retired = false →
      Maps.get? n s.dev.nfm.dies = some x → 0 < x.spares → Runs (.nandProgramDone job n b temp false) s fun d =>
      (d.block n b).retired = true ∧ (Maps.get? n d.nfm.dies).map (·.spares) = some (x.spares - 1) ∧ (Maps.get? n
      d.nfm.dies).map (·.retired) = some (x.retired + 1) ∧ d.media = s.dev.media ∧ d.get
      F.NFM_INT_STATUS_BLOCK_RETIRED = 1 ∧ s.dev.counted d R.NFM_CNT_n 7) ∧
  (∀ s n b temp x job, s.dev.media = Media.normal → (s.dev.block n b).retired = false →
      Maps.get? n s.dev.nfm.dies = some x → x.spares = 0 → Runs (.nandProgramDone job n b temp false) s fun d =>
      d.media = Media.readOnly ∧ d.nfm.readOnly = true ∧ d.get F.NFM_INT_STATUS_READ_ONLY = 1 ∧ d.get
      F.EVR_STATUS_SPILL_STOPPED = 1 ∧ d.nfm.filling = [] ∧ d.nfm.programming = []) ∧
  (∀ s n b part addr temp l rr c i, l < 2 → c ≤ s.dev.get F.NFM_RETRY_REFRESH → i = s.dev.thresholdIndex (s.dev.block n b)
      temp → Runs (.nandReadDone n b part addr temp l rr c none) s fun d => d.nfm = s.dev.nfm ∧ s.dev.counted d
      R.NFM_CNT_n 1 ∧ d.lastOut = some (.nandRead n b addr i (Maps.getD s.dev.nfm.thresholds i 0))) ∧
  (∀ s n b part addr temp l rr c, 5 ≤ l → s.dev.media = Media.normal → Runs (.nandReadDone n b part addr temp l rr c none) s fun d
      => d.get F.NFM_INT_STATUS_PARITY_REBUILD = 1 ∧ d.get F.NFM_INT_STATUS_UNCORRECTABLE = 1 ∧ (d.block n b).retired
      = true ∧ s.dev.counted d R.NFM_CNT_n 5) ∧
  (∀ s n b part addr temp rr c p, s.dev.nfm.rakeRunning = true → 100 ≤ p → c ≤ s.dev.get F.NFM_RETRY_REFRESH → Runs
      (.nandReadDone n b part addr temp 1 rr c (some p)) s fun d => d.nfm.rakeRunning = false ∧ d.get F.NFM_RAKE_PROGRESS =
      100 ∧ d.get F.NFM_RAKE_BEHIND = 0 ∧ d.get F.NFM_INT_STATUS_RAKE_PASS = 1) ∧
  (∀ s n x, s.dev.media = Media.normal → s.dev.glb.powerFail = false → s.dev.nfm.dies = [(n, x)] →
      s.dev.get F.NFM_WEAR_SPREAD < x.spread → x.lastMove
      = none → s.dev.nfm.moving = [] → Runs .wearLevelCheck s fun d => (Maps.get? n d.nfm.dies).map (·.lastMove) = some
      (some s.dev.cycles) ∧ d.nfm.moving = [n]) ∧
  (∀ s n b temp, s.dev.media = Media.normal → s.dev.nfm.moving.contains n = true → Runs (.nandProgramDone .move n b temp
      true) s fun d => d.nfm.moving.contains n = false ∧ s.dev.counted d R.NFM_CNT_n 8) ∧
  (∀ s, s.dev.nfm.rakeRunning = false → s.dev.media = Media.normal → Runs .rakeNow s fun d => d.nfm.rakeRunning = true ∧
      d.get F.NFM_RAKE_PROGRESS = 0) ∧
  (∀ s, s.dev.nfm.rakeRunning = false → s.dev.media = Media.normal → s.dev.nfm.rakeAt = none → Runs .rakePassStart s fun
      d => d.nfm.rakeRunning = true ∧ d.nfm.rakeAt = some s.dev.cycles ∧ d.get F.NFM_RAKE_PROGRESS = 0) ∧
  (∀ s t, s.dev.nfm.rakeRunning = false → s.dev.media = Media.normal → s.dev.nfm.rakeAt = some t → Runs .rakePassStart s
      fun d => if t + s.dev.get F.NFM_RAKE_PERIOD * 86400 * secCycles ≤ s.dev.cycles then d.nfm.rakeRunning = true ∧
      d.nfm.rakeAt = some s.dev.cycles else d = s.dev) ∧
  (∀ s, s.dev.nfm.rakeRunning = true → Runs .rakePassStart s fun d => d = s.dev) ∧
  (∀ s h, s.dev.nfm.rakeRunning = true → h = s.dev.rakeLate → 12 ≤ h → s.dev.flag F.NFM_STATUS_RAKE_BEHIND = false →
      Runs .rakeBehind s
      fun d => d.get F.NFM_RAKE_BEHIND = satNat 8 h ∧ d.get F.NFM_STATUS_RAKE_BEHIND = 1 ∧ d.get
      F.NFM_INT_STATUS_RAKE_BEHIND = 1 ∧ d.get F.HLT_CONDITION_RAKE_BEHIND = 1)

/-- R345, R361, R370, R490: a checkpoint holds the durable state of its start record; FORMAT makes the array usable;
ARCH_READ copies records. -/
def Obligations.Checkpoints : Prop :=
  (∀ s u, s.dev.jnl.ckptBusy = none → s.dev.media = Media.normal → s.dev.glb.powerFail = false → (if u then 1000 *
      s.dev.get F.JNL_CKPT_UNITS ≤ s.dev.jnl.readings else s.dev.jnl.ckptAt + s.dev.get F.JNL_CKPT_PERIOD * 60 *
      secCycles ≤ s.dev.cycles) → Runs (.checkpointTrigger u) s fun d => d.jnl.ckptBusy.map (·.1) = some d.jnl.line ∧
      d.jnl.ckptBusy.map (·.2) = some (s.dev.dur.control .ckptStart) ∧ d.get F.JNL_STATUS_CKPT_BUSY = 1 ∧
      d.jnl.entries.getLast?.map (·.rec_) = some .ckptStart) ∧
  (∀ s, s.dev.jnl.readings < 1000 * s.dev.get F.JNL_CKPT_UNITS → Runs (.checkpointTrigger true) s fun d => d = s.dev) ∧
  (∀ s, s.dev.jnl.ckptBusy = none → s.dev.media = Media.normal → s.dev.glb.powerFail = false → Runs .ckptNow s fun d =>
      d.jnl.ckptBusy.map (·.1) =
      some d.jnl.line ∧ d.jnl.ckptBusy.map (·.2) = some (s.dev.dur.control .ckptStart) ∧ d.get F.JNL_STATUS_CKPT_BUSY
      = 1 ∧ d.jnl.entries.getLast?.map (·.rec_) = some .ckptStart) ∧
  (∀ s l u, s.dev.media = Media.normal → s.dev.glb.powerFail = false → s.dev.jnl.ckptBusy = some (l, u) → l < 2 ^ 64 →
      Runs .checkpointComplete s fun
      d => d.jnl.ckpt = some u ∧ d.jnl.ckptBusy = none ∧ d.wide R.JNL_CKPT_LINE_LO R.JNL_CKPT_LINE_HI 0 = l ∧ d.get
      F.JNL_INT_STATUS_CKPT_DONE = 1 ∧ s.dev.counted d R.JNL_CNT_n 4) ∧
  (∀ s, s.dev.media = Media.readOnly → Runs .checkpointComplete s fun d => d = s.dev) ∧
  (∀ s, s.dev.media ≠ Media.offline → s.dev.nfm.directory = true → Runs (.format false) s fun d => d.nfm = s.dev.nfm ∧
      d.get F.NFM_CMD_RESULT = Nr.formatted) ∧
  (∀ s b, s.dev.media = Media.unformatted → s.dev.nfm.directory = false → (((List.range 3).map fun i =>
      s.dev.nfm.stripesFor (s.dev.get (F.NFM_PART_n_SIZE.at (i + 1)))).sum) < s.dev.nfm.blockStripes → Runs (.format
      b) s fun d => d.media = Media.normal ∧ d.nfm.directory = true ∧ d.nfm.epochs = [] ∧ d.dur.seqNext =
      s.dev.jnl.lastSeq + 1 ∧ d.get F.NFM_CMD_RESULT = Nr.ok ∧ d.get F.NFM_INT_STATUS_CMD_DONE = 1) ∧
  (∀ s, s.dev.media = Media.normal → s.dev.get F.NFM_HOST_LEN_LENGTH < 180 → Runs .archRead s fun d => d.get
      F.NFM_CMD_RESULT = Nr.badSize) ∧
  (∀ s, s.dev.media = Media.normal → 180 ≤ s.dev.get F.NFM_HOST_LEN_LENGTH → s.dev.nfm.oldest ≤ s.dev.wide
      R.NFM_ARCH_SEQ_LO R.NFM_ARCH_SEQ_HI 0 → Runs .archRead s fun d => d.nfm = s.dev.nfm ∧ d.get F.NFM_CMD_RESULT =
      Nr.ok ∧ d.get F.NFM_INT_STATUS_CMD_DONE = 1)

/-- R408, R414, R415, R417: a handover waits for the work in flight and yields with cause 0x80; TAKE releases PAIR_TAKE;
FORCE_TAKE takes control at once. -/
def Obligations.PairCommands : Prop :=
  (∀ s, s.dev.flag F.PRL_CMD_BUSY = false → s.dev.prl.up = true → s.dev.pairState = PairSt.active → s.dev.lineHigh 1 =
      true → s.dev.prl.handover = none → s.dev.prl.outstanding ≠ [] → Runs .handover s fun d => d.prl.handover = some
      ⟨s.dev.cycles⟩ ∧ d.get F.PRL_CMD_BUSY = 1 ∧ d.pairState = PairSt.active) ∧
  (∀ s, s.dev.flag F.PRL_CMD_BUSY = false → s.dev.prl.up = true → s.dev.pairState = PairSt.active → s.dev.lineHigh 1 =
      true → s.dev.prl.handover = none → s.dev.prl.outstanding = [] → s.dev.eng.flight = [] → Runs .handover s fun d
      => d.pairState = PairSt.out ∧ d.prl.lastYield = 0x80 ∧ d.get F.PRL_CAUSE_CAUSE = 0x80 ∧ d.get F.PRL_CAUSE_KIND =
      3 ∧ d.get F.PRL_CMD_BUSY = 0 ∧ d.get F.PRL_CMD_RESULT = 0 ∧ d.get F.PRL_INT_STATUS_YIELDED = 1) ∧
  (∀ s, s.dev.flag F.PRL_CMD_BUSY = false → s.dev.prl.up = true → s.dev.pairState = PairSt.active → s.dev.lineHigh 1 =
      false → Runs .handover s fun d => d.pairState = PairSt.active ∧ d.get F.PRL_CMD_RESULT = 2) ∧
  (∀ s, s.dev.flag F.PRL_CMD_BUSY = false → s.dev.prl.up = true → s.dev.pairState = PairSt.standby → s.dev.lineHigh 1 =
      true → Runs .take s fun d => d.prl.taking = true ∧ bitAt (d.get F.PRL_SIDEBAND_RELEASED) 2 = true ∧ d.get
      F.PRL_CMD_RESULT = 0) ∧
  (∀ s, s.dev.flag F.PRL_CMD_BUSY = false → s.dev.prl.up = true → s.dev.pairState = PairSt.active → Runs .take s fun d
      => d.prl.taking = s.dev.prl.taking ∧ d.get F.PRL_CMD_RESULT = 1) ∧
  (∀ s, s.dev.flag F.PRL_CMD_BUSY = false → s.dev.prl.up = true → s.dev.pairState = PairSt.syncing → Runs .forceTake s
      fun d => d.pairState = PairSt.active ∧ d.get F.PRL_CAUSE_KIND = 5 ∧ d.get F.PRL_CMD_RESULT = 0 ∧ d.get
      F.PRL_INT_STATUS_TOOK_CONTROL = 1) ∧
  (∀ s, s.dev.flag F.PRL_CMD_BUSY = false → s.dev.prl.up = true → s.dev.pairState = PairSt.standby → Runs .forceTake s
      fun d => d.pairState = PairSt.standby ∧ d.get F.PRL_CMD_RESULT = 1) ∧
  (∀ s, s.dev.flag F.PRL_CMD_BUSY = false → s.dev.prl.up = true → s.dev.pairState ≠ PairSt.unpaired → Runs
      .clearNonrevertive s fun d => d.get F.PRL_STATUS_NONREVERTIVE = 0 ∧ d.get F.HLT_CONDITION_NONREVERTIVE = 0 ∧
      d.get F.PRL_CMD_RESULT = 0)

/-- R405, R406, R408, R487: a STOP cause yields; a HANDOVER-class cause yields to a healthy standby and is held without
one; OUT ends once its cause is gone. -/
def Obligations.FaultVerdicts : Prop :=
  (∀ s c, s.dev.prl.up = true → s.dev.pairState = PairSt.active → stopClass c = true → Runs (.faultVerdict c) s fun d =>
      d.pairState = PairSt.out ∧ d.prl.lastYield = c ∧ c ∈ d.prl.causes ∧ d.get F.PRL_INT_STATUS_YIELDED = 1 ∧
      d.eng.flight = []) ∧
  (∀ s c, s.dev.prl.up = true → s.dev.pairState = PairSt.active → stopClass c = false → s.dev.lineHigh 1 = false →
      s.dev.prl.causes.contains c = false → Runs (.faultVerdict c) s fun d => d.pairState = PairSt.active ∧ d.prl.held
      = some c ∧ d.get F.PRL_STATUS_NO_STANDBY = 1 ∧ d.get F.PRL_INT_STATUS_NO_STANDBY = 1) ∧
  (∀ s c, s.dev.prl.up = true → s.dev.pairState = PairSt.active → stopClass c = false → s.dev.lineHigh 1 = true → Runs
      (.faultVerdict c) s fun d => d.pairState = PairSt.out ∧ d.prl.lastYield = c) ∧
  (∀ s, s.dev.prl.up = true → s.dev.pairState = PairSt.active → s.dev.get F.PRL_HOST_BEAT_TIMEOUT ≠ 0 →
      s.dev.prl.beatAt + s.dev.get F.PRL_HOST_BEAT_TIMEOUT * msCycles < s.dev.cycles → s.dev.lineHigh 1 = true → Runs
      .hostBeatTimeout s fun d => d.pairState = PairSt.out ∧ d.prl.lastYield = 0x0B) ∧
  (∀ s, s.dev.get F.PRL_HOST_BEAT_TIMEOUT = 0 → Runs .hostBeatTimeout s fun d => d = s.dev) ∧
  (∀ s, s.dev.prl.up = true → s.dev.pairState ≠ PairSt.out → 0x0B ∈ s.dev.prl.causes → Runs .hostBeat s fun d => ¬(0x0B
      ∈ d.prl.causes) ∧ d.pairState = s.dev.pairState) ∧
  (∀ s, s.dev.prl.up = true → s.dev.pairState = PairSt.standby → Runs .watchdogExpire s fun d => d.pairState =
      PairSt.out ∧ d.prl.lastYield = 6) ∧
  (∀ s, s.dev.pairState = PairSt.unpaired → s.dev.glb.inReset = false → Runs .watchdogExpire s fun d => d.prl.up = false
      ∧ d.trl.sealed = false ∧ d.get F.GLB_BOOT_STEP = 2 ∧ bitAt (d.get F.GLB_RESET_CAUSE_RESTART) 0 = true) ∧
  (∀ s, s.dev.prl.up = true → s.dev.pairState = PairSt.out → s.dev.prl.lastYield = 0x80 → s.dev.prl.causes = [] →
      s.dev.prl.yieldAt + msCycles ≤ s.dev.cycles → Runs
      (.faultCleared 0x80) s fun d => d.pairState = PairSt.syncing ∧ d.get F.PRL_RESYNC_PHASE = 2 ∧ d.prl.synced =
      true) ∧
  (∀ s c, s.dev.prl.up = true → s.dev.pairState = PairSt.out → c ≠ 0x80 → s.dev.prl.causes = [c] → s.dev.prl.lastYield =
      c → s.dev.prl.outAtStart = false → Runs (.faultCleared c) s fun d => d.prl.causes = [] ∧ d.prl.up = false ∧
      d.get F.GLB_BOOT_STEP = 2) ∧
  (∀ s c x, s.dev.prl.up = true → s.dev.pairState = PairSt.out → c ≠ 0x80 → x ≠ c → stopClass x = true →
      s.dev.prl.causes = [c, x] → Runs (.faultCleared c) s fun d => d.prl.causes = [x] ∧ d.pairState = PairSt.out)

/-- R403 to R418: the first decision of R404 that applies; a standby takes over when PAIR_ACTIVE falls; an active device
goes on alone; revert, probation and drill ages. -/
def Obligations.PairNegotiation : Prop :=
  (∀ s l h, s.dev.prl.up = true → s.dev.pairState = PairSt.listen → bitAt l 0 = true → bitAt l 3 = true →
      s.dev.prl.hello = some h → h.confirmed < s.dev.jnl.mirrored → Runs (.helloDue l) s fun d => d.pairState =
      PairSt.active) ∧
  (∀ s l h, s.dev.prl.up = true → s.dev.pairState = PairSt.listen → bitAt l 0 = true → bitAt l 3 = true →
      s.dev.prl.hello = some h → s.dev.jnl.mirrored < h.confirmed → Runs (.helloDue l) s fun d => d.pairState =
      PairSt.syncing ∧ d.get F.PRL_RESYNC_PHASE = 1) ∧
  (∀ s l, s.dev.prl.up = true → s.dev.pairState = PairSt.listen → bitAt l 0 = true → bitAt l 3 = false → Runs (.helloDue
      l) s fun d => d.pairState = PairSt.syncing ∧ d.get F.PRL_STATUS_PARTNER_STATE = PairSt.active) ∧
  (∀ s l t, s.dev.prl.up = true → s.dev.pairState = PairSt.listen → bitAt l 0 = false → s.dev.prl.lowSince = some t → t +
      s.dev.get F.PRL_PAIR_CFG_NEGOTIATE * msCycles ≤ s.dev.cycles → Runs (.negotiateTimeout l) s fun d
      => d.pairState = PairSt.active ∧ d.get F.PRL_STATUS_PARTNER_STATE = PairSt.unknown) ∧
  (∀ s l, s.dev.prl.up = true → s.dev.pairState = PairSt.listen → bitAt l 0 = true → bitAt l 3 = true → s.dev.prl.hello
      = none → s.dev.prl.listenAt + s.dev.get F.PRL_PAIR_CFG_NEGOTIATE * msCycles < s.dev.cycles →
      Runs (.negotiateTimeout l) s fun d => d.pairState = PairSt.listen ∧ d.get F.PRL_INT_STATUS_LINK_DOWN =
      1) ∧
  (∀ s, s.dev.prl.up = true → s.dev.pairState = PairSt.standby → Runs (.pairActiveFall false) s fun d => d.pairState =
      PairSt.active ∧ d.get F.PRL_CAUSE_KIND = s.dev.takeoverKind false 0 ∧ d.get F.PRL_STATUS_PARTNER_STATE =
      PairSt.unknown ∧ d.get F.PRL_INT_STATUS_PARTNER_LOST = 1 ∧ d.get F.PRL_INT_STATUS_TOOK_CONTROL = 1) ∧
  (∀ s h, s.dev.prl.up = true → s.dev.pairState = PairSt.standby → s.dev.prl.hello = some h → h.cause < 256 → Runs
      (.pairActiveFall true) s fun d => d.pairState = PairSt.active ∧ d.get F.PRL_CAUSE_KIND = s.dev.takeoverKind true
      h.cause ∧ d.get F.PRL_CAUSE_CAUSE = h.cause ∧ d.get F.PRL_STATUS_PARTNER_STATE = PairSt.out) ∧
  (∀ s y, s.dev.prl.up = true → s.dev.pairState = PairSt.active → Runs (.pairActiveFall y) s fun d => d.pairState =
      PairSt.active ∧ d.get F.PRL_STATUS_PARTNER_STATE = (if y then PairSt.out else PairSt.unknown)) ∧
  (∀ s, s.dev.prl.up = true → s.dev.pairState = PairSt.active → bitAt s.dev.prl.lines 1 = true → s.dev.prl.handover =
      none → s.dev.eng.flight = [] → s.dev.prl.outstanding = [] → Runs .pairTakeRise s fun d => d.pairState =
      PairSt.out ∧ d.prl.lastYield = 0x80) ∧
  (∀ s, s.dev.prl.up = true → s.dev.pairState = PairSt.active → bitAt s.dev.prl.lines 1 = true → s.dev.prl.handover =
      none → s.dev.prl.outstanding ≠ [] → Runs .pairTakeRise s fun d => d.prl.handover = some ⟨s.dev.cycles⟩ ∧
      d.pairState = PairSt.active) ∧
  (∀ s c, s.dev.prl.up = true → s.dev.pairState = PairSt.active → s.dev.prl.held = some c → Runs (.pairHealthyChange
      true) s fun d => d.pairState = PairSt.out ∧ d.prl.lastYield = c ∧ d.prl.held = none) ∧
  (∀ s, s.dev.prl.up = true → s.dev.pairState = PairSt.active → Runs (.pairHealthyChange false) s fun d => d.pairState =
      PairSt.active ∧ d.lineHigh 1 = false ∧ d.get F.PRL_INT_STATUS_PARTNER_LOST = 1) ∧
  (∀ s t, s.dev.pairState = PairSt.standby → s.dev.prl.standbySince = some t → t + s.dev.get F.PRL_HOLDOFF_SECONDS * secCycles ≤
      s.dev.cycles → s.dev.fit = true → s.dev.lineHigh 1 = true → s.dev.flag F.PRL_STATUS_REVERT_PENDING = true →
      s.dev.flag F.PRL_STATUS_NONREVERTIVE = false → s.dev.flag F.PRL_PAIR_CFG_REVERTIVE = true → s.dev.flag
      F.PRL_PAIR_CFG_PREFERRED = true → Runs .holdoffExpire s fun d => d.prl.taking = true) ∧
  (∀ s t, s.dev.prl.probation = some t → t ≤ s.dev.cycles → Runs .probationExpire s fun d => d.prl.probation = none ∧
      d.get F.PRL_STATUS_REVERT_PENDING = 0) ∧
  (∀ s a b, s.dev.get F.PRL_DRILL_SELF_AGE = a → s.dev.get F.PRL_DRILL_PARTNER_AGE = b → a < 0xFFFF → b < 0xFFFF →
      s.dev.prl.controlSince = none → s.dev.prl.partnerSince = none → s.dev.prl.drillAt + 86400 * secCycles ≤
      s.dev.cycles → Runs .drillAgeUpdate s fun d => d.get
      F.PRL_DRILL_SELF_AGE = a + 1 ∧ d.get F.PRL_DRILL_PARTNER_AGE = b + 1) ∧
  (∀ s, s.dev.get F.PRL_DRILL_SELF_AGE = 30 → s.dev.prl.controlSince = none → s.dev.pairState ≠ PairSt.unpaired →
      s.dev.prl.drillAt + 86400 * secCycles ≤
      s.dev.cycles → Runs .drillAgeUpdate s fun d => d.get F.PRL_DRILL_SELF_AGE = 31 ∧ d.get F.PRL_INT_STATUS_DRILL_DUE = 1 ∧
      d.get
      F.HLT_CONDITION_DRILL_DUE = 1)

/-- R444, R446 to R450: a command leaves its ring and is verified; a certificate is cached, an object request counted, a
meter request held until its response or its timeout; a confirmation mark rises. -/
def Obligations.HostCommands : Prop :=
  (∀ s n p, s.dev.takesCmd n 3 p → (cmdOf n p).body.length = 144 → (cmdOf n p).body.slice 0 4 =
      [0x59#8, 0x43#8, 5#8, 0#8] → (cmdOf n p).body.u8 12 ≤ 4 → (cmdOf n p).body.zero 13 3 = true →
      s.dev.face.hst.certs.length ≤ 16 → Runs (.certLoad n) s fun d => if Crypto.ecdsaVerify (BitVec.ofNat 512
      s.dev.trl.ownerKey) (Crypto.sha256 ((cmdOf n p).body.slice 0 0x50)) (BitVec.ofNat 512 (beNat ((cmdOf n
      p).body.slice 0x50 64))) then d.face.hst.certs.getLast?.map (·.role) = some ((cmdOf n p).body.u8 12) ∧ d.get
      F.RNG_CERTS_CACHED = d.face.hst.certs.length else d.face.hst.certs = s.dev.face.hst.certs) ∧
  (∀ s n p, s.dev.takesCmd n 3 p → (cmdOf n p).body.length ≠ 144 → Runs (.certLoad n) s fun d => d.face.hst.certs =
      s.dev.face.hst.certs) ∧
  (∀ s n p e, s.dev.takesCmd n 1 p → s.dev.freshCmd (cmdOf n p) e → (cmdOf n p).viewItems.isSome = true →
      s.dev.viewWaits n = false → Maps.has s.dev.dur.ctxs (cmdOf n p).meter = false ∨ (s.dev.idleMeter (cmdOf n p).meter
      = true ∧ s.dev.eng.resident (cmdOf n p).meter = true) → Runs (.objectRequest n) s fun d => if s.dev.signedBy (cmdOf
      n p) then s.dev.counted d R.BIL_CNT_n 9 else s.dev.counted d R.RNG_CNT_n 2) ∧
  (∀ s n p, s.dev.takesCmd n 1 p → s.dev.face.hst.certs = [] → s.dev.viewWaits n = false → Maps.has s.dev.dur.ctxs (cmdOf
      n p).meter = false → Runs (.objectRequest n) s fun d => d.eng = s.dev.eng ∧ (d.ring n).ready = (s.dev.ring
      n).ready.tail) ∧
  (∀ s n p, s.dev.takesCmd n 1 p → s.dev.viewWaits n = false → Maps.has s.dev.dur.ctxs (cmdOf n p).meter = true →
      s.dev.idleMeter (cmdOf n p).meter = false → Runs (.objectRequest n) s fun d => d.eng.downs = s.dev.eng.downs ++
      [((cmdOf n p).meter, .view n, (s.dev.eng.staging.filter fun f => f.meter == (cmdOf n p).meter).length)] ∧ d.face =
      s.dev.face) ∧
  (∀ s n p e, s.dev.takesCmd n 2 p → s.dev.freshCmd (cmdOf n p) e → e.role = operatorRole → 4 ≤ (cmdOf n p).body.length
      → requestOk ((cmdOf n p).body.drop 4) = true → s.dev.hasDownlink (cmdOf n p).meter = true →
      s.dev.face.hst.requests.any (·.meter == (cmdOf n p).meter) = false → Runs (.meterRequest n) s fun d => if
      s.dev.signedBy (cmdOf n p) then d.face.hst.requests.getLast?.map (fun q => (q.meter, q.tag)) = some ((cmdOf n
      p).meter, (cmdOf n p).tag) ∧ d.fhm.downlinks.length = s.dev.fhm.downlinks.length + 1 else d.face.hst.requests =
      s.dev.face.hst.requests ∧ s.dev.counted d R.RNG_CNT_n 2) ∧
  (∀ s m q, s.dev.face.hst.requests.find? (·.meter == m) = some q → q.at_ + s.dev.get F.RNG_REQ_TIMEOUT_SECONDS *
      secCycles < s.dev.cycles → Runs (.meterRequestTimeout m) s fun d =>
      d.face.hst.requests.any (·.meter == m) = false ∧ s.dev.counted d R.RNG_CNT_n 5) ∧
  (∀ s n v k, n < 64 → k = (s.dev.reg (R.RNG_n_CONFIRM_HI.at n)).toNat % 65536 * 2 ^ 32 + v.toNat → Maps.getD
      s.dev.dur.confirmed n 0 < k → s.dev.jnl.overflow = [] → Runs (.ringConfirm n v) s fun d => Maps.getD
      d.dur.confirmed n 0 = k ∧ d.reg (R.RNG_n_CONFIRM_LO.at n) = v) ∧
  (∀ s n v, (s.dev.reg (R.RNG_n_CONFIRM_HI.at n)).toNat % 65536 * 2 ^ 32 + v.toNat ≤ Maps.getD s.dev.dur.confirmed n 0 →
      Runs (.ringConfirm n v) s fun d => d = s.dev)

/-- R423 to R427: a link comes up, retransmits and goes down; HELLO names its peer; meter frames, notices, downlinks and
confirms pass between pairs. -/
def Obligations.RunnerLinks : Prop :=
  (∀ s l, s.dev.isMirrorLink (l % 3) = false → s.dev.linkUp (l % 3) = true → s.dev.mirroring = false → Runs
      (.runnerLinkDown l) s fun d => d.linkUp (l % 3) = false ∧ d.link (l % 3) = {} ∧ d.get F.PRL_INT_STATUS_LINK_DOWN
      = 1) ∧
  (∀ s l, s.dev.isMirrorLink (l % 3) = true → s.dev.pairState = PairSt.standby → Runs (.runnerLinkDown l) s fun d =>
      d.pairState = PairSt.syncing ∧ d.prl.synced = false ∧ d.get F.PRL_INT_STATUS_STANDBY_FAULT = 1) ∧
  (∀ s l, s.dev.isMirrorLink (l % 3) = true → s.dev.pairState = PairSt.active → Runs (.runnerLinkDown l) s fun d =>
      d.pairState = PairSt.active ∧ d.get F.PRL_STATUS_PARTNER_STATE = PairSt.unknown) ∧
  (∀ s l, s.dev.prl.up = true → s.dev.trellis.device.linkEnable.testBit (l % 3) = true → s.dev.linkUp (l % 3) = false →
      Runs (.runnerLinkUp l) s fun d => d.linkUp (l % 3) = true ∧ d.get F.PRL_INT_STATUS_LINK_UP = 1) ∧
  (∀ s l, ((s.dev.link (l % 3)).unacked.any fun u => decide (u.sentAt + cyclesOf 20 ≤ s.dev.cycles) && decide (32 ≤
      u.tries)) = false → Runs (.runnerRetransmit l) s fun d => (d.link (l % 3)).unacked = (s.dev.link (l %
      3)).unacked.map (fun u => if u.sentAt + cyclesOf 20 ≤ s.dev.cycles then
      { u with sentAt := s.dev.cycles, tries := (u.tries + 1) } else u)) ∧
  (∀ s l, ((s.dev.link (l % 3)).unacked.any fun u => decide (u.sentAt + cyclesOf 20 ≤ s.dev.cycles) && decide (32 ≤
      u.tries)) = true → s.dev.linkUp (l % 3) = true →
      s.dev.isMirrorLink (l % 3) = false → Runs (.runnerRetransmit l) s fun d => d.linkUp (l % 3) = false ∧ d.get
      F.PRL_INT_STATUS_LINK_DOWN = 1) ∧
  (∀ s h x, s.dev.hears h (.hello x) → h.link ≠ s.dev.trellis.device.mirrorLink → h.src < 8 → Runs (.hello h x) s fun d =>
      (d.link h.link).mapDigest = some x.mapDigest ∧ (d.link h.link).ack = h.seq ∧ d.get (F.PRL_L_STATUS_PEER.at
      h.link) = h.src) ∧
  (∀ s h x, s.dev.hears h (.hello x) → h.link = s.dev.trellis.device.mirrorLink → s.dev.trellis.device.pairMode = 1 → h.src =
      s.dev.trellis.device.partner → s.dev.pairState = PairSt.active → x.state = PairSt.standby → s.dev.get
      F.PRL_STATUS_PARTNER_STATE ≠ PairSt.standby → Runs (.hello h x) s fun d => d.get F.PRL_STATUS_PARTNER_STATE =
      PairSt.standby ∧ d.prl.hello = some x ∧ d.prl.unsynced = false ∧ d.get F.PRL_INT_STATUS_PARTNER_SYNCED = 1) ∧
  (∀ s h f, s.dev.hears h (.forwardUp f) → s.dev.serves = true → Runs (.forwardUp h f) s fun d => (d.link h.link).ack = h.seq ∧
      s.dev.counted d R.PRL_CNT_n 5) ∧
  (∀ s h e k a b w, s.dev.hears h (.acceptNotice e k a b) → s.dev.serves = true → s.dev.windowOf? e k = some w → w.checked = 0 → Runs
      (.acceptNotice h e k a b) s fun d => (d.window? w.addr w.endNs).map (fun x => (x.committed, x.notice)) = some (true,
      some (a, b))) ∧
  (∀ s h i e t0 p, s.dev.hears h (.forwardDown i e t0 p) → s.dev.lastHead e = none →
      Runs (.forwardDown h i e t0 p) s fun d => d.fhm = s.dev.fhm
      ∧ (d.link h.link).ack = h.seq) ∧
  (∀ s h id e t0 p i r, s.dev.hears h (.forwardDown id e t0 p) → s.dev.serves = true → s.dev.lastHead e = some i →
      s.dev.headReg? i = some r →
      (s.dev.headRt i).orderable = true → (s.dev.headRt i).session = true → s.dev.windowFits (s.dev.headRt i) t0 p.len
      = true → Runs (.forwardDown h id e t0 p) s fun d => (d.fhm.orders.any fun o => o.head == i && o.purpose ==
      .partner h.src id) = true) ∧
  (∀ s h i o a k w x, s.dev.hears h (.downConfirm i 0) → s.dev.serves = true → s.dev.order? foreignHead i = some o →
      o.keyKind = none → o.purpose = .accept a k w → s.dev.window? a k = some x → Runs (.downConfirm h i 0) s fun d =>
      d.order? foreignHead i = none ∧ (d.window? a k).map (·.acked) = some true) ∧
  (∀ s h i y, s.dev.hears h (.downConfirm i y) → s.dev.serves = true → s.dev.order? foreignHead i = none →
      Runs (.downConfirm h i y) s fun
      d => d.fhm = s.dev.fhm ∧ (d.link h.link).ack = h.seq)

/-- R189, R411 to R413: entries are confirmed, applied in order or make the standby unfit; a resynchronisation passes its
phases; a forwarded command completes once applied. -/
def Obligations.Mirroring : Prop :=
  (∀ s h l e, s.dev.hears h (.confirm l) → s.dev.pairState = PairSt.active → s.dev.prl.outstanding = [e] → e.line = l → e.meter =
      none → s.dev.prl.handover = none → Runs (.confirm h l) s fun d => d.prl.outstanding = [] ∧ d.prl.unsynced =
      s.dev.prl.unsynced ∧ d.jnl.mirrored = max s.dev.jnl.mirrored l) ∧
  (∀ s h l e, s.dev.hears h (.confirm l) → s.dev.pairState = PairSt.active → s.dev.prl.outstanding = [e] → l < e.line →
      s.dev.prl.handover = none → Runs (.confirm h l) s fun d => d.prl.outstanding = [e]) ∧
  (∀ s h l r, s.dev.hears h (.mirror l (.confirm 7 r)) → s.dev.takesMirror = true → s.dev.lineFollows l = true →
      Runs (.mirror h l (.confirm 7 r))
      s fun d => d.jnl.mirrored = l ∧ d.jnl.line = l ∧ Maps.getD d.dur.confirmed 7 0 = r ∧ d.jnl.entries.getLast?.map
      (·.rec_) = some (.confirm 7 r) ∧ d.lastOut.isSome = true) ∧
  (∀ s h l r, s.dev.hears h (.mirror l r) → s.dev.takesMirror = true → s.dev.lineFollows l = false →
      Runs (.mirror h l r) s fun d =>
      d.pairState = PairSt.syncing ∧ d.prl.synced = false ∧ d.dur.confirmed = s.dev.dur.confirmed ∧ d.get
      F.PRL_INT_STATUS_STANDBY_FAULT = 1) ∧
  (∀ s h k, s.dev.hears h (.digest k) → s.dev.takesMirror = true → k = s.dev.prl.crc → Runs (.digest h k) s fun d =>
      d.prl.crc = 0 ∧
      d.prl.sinceDigest = 0 ∧ d.pairState = s.dev.pairState) ∧
  (∀ s h k, s.dev.hears h (.digest k) → s.dev.pairState = PairSt.standby → k ≠ s.dev.prl.crc → Runs (.digest h k) s fun d =>
      d.pairState = PairSt.syncing ∧ s.dev.counted d R.PRL_CNT_n 9 ∧ d.get F.PRL_INT_STATUS_STANDBY_FAULT = 1) ∧
  (∀ s h l u t g n a b e o k, s.dev.hears h (.resync (.snapshot l u t g n a b e o k)) → s.dev.pairState = PairSt.syncing ∨
      s.dev.pairState = PairSt.standby → Runs (.resync h (.snapshot l u t g n a
      b e o k)) s fun d => d.prl.synced = true ∧ d.dur.ctxs = u.ctxs ∧ d.dur.roots = s.dev.dur.roots ∧
      d.trellis.device = s.dev.trellis.device) ∧
  (∀ s h, s.dev.hears h (.resync .again) → s.dev.pairState = PairSt.active → s.dev.get F.PRL_STATUS_PARTNER_STATE =
      PairSt.syncing → Runs (.resync h .again) s fun d => d.get F.PRL_RESYNC_PHASE = 1 ∧ d.get F.PRL_RESYNC_PROGRESS = 0) ∧
  (∀ s, s.dev.pairState = PairSt.active → s.dev.get F.PRL_RESYNC_PHASE = 1 → Runs .resyncPhaseDone s fun d => d.get
      F.PRL_RESYNC_PHASE = 2 ∧ d.prl.staged = []) ∧
  (∀ s, s.dev.pairState = PairSt.syncing → s.dev.get F.PRL_RESYNC_PHASE = 2 → s.dev.prl.synced = true → s.dev.prl.agrees
      = true → s.dev.prl.enginesOk = true → Runs .resyncPhaseDone s fun d => d.pairState = PairSt.standby ∧ d.get
      F.PRL_RESYNC_PROGRESS = 100 ∧ d.prl.standbySince = some s.dev.cycles) ∧
  (∀ s, s.dev.pairState = PairSt.syncing → s.dev.get F.PRL_RESYNC_PHASE = 2 → s.dev.prl.agrees = false → Runs
      .resyncPhaseDone s fun d => d.pairState = PairSt.syncing ∧ d.get F.PRL_RESYNC_PHASE = 3 ∧ d.get
      F.KEY_INT_STATUS_PAIR_MISMATCH = 1) ∧
  (∀ s, s.dev.pairState = PairSt.standby → Runs (.standbySelftest true) s fun d => d.prl.enginesOk = true ∧ d.pairState
      = PairSt.standby) ∧
  (∀ s, s.dev.pairState = PairSt.standby → Runs (.standbySelftest false) s fun d => d.prl.enginesOk = false ∧
      d.pairState = PairSt.syncing ∧ d.get F.PRL_INT_STATUS_STANDBY_FAULT = 1) ∧
  (∀ s, s.dev.flag F.PRL_CMD_BUSY = false → s.dev.prl.up = true → s.dev.pairState = PairSt.active → s.dev.get
      F.PRL_STATUS_PARTNER_STATE = PairSt.standby → Runs .prlResync s fun d => d.get F.PRL_RESYNC_PHASE = 1 ∧ d.get F.PRL_RESYNC_PROGRESS = 0 ∧
      d.get F.PRL_STATUS_PARTNER_STATE = PairSt.syncing ∧ d.get F.PRL_CMD_RESULT = 0) ∧
  (∀ s, s.dev.flag F.PRL_CMD_BUSY = false → s.dev.prl.up = true → s.dev.pairState = PairSt.standby → Runs .prlResync s
      fun d => d.pairState = PairSt.syncing ∧ d.prl.synced = false ∧ d.get F.PRL_CMD_RESULT = 0) ∧
  (∀ s h k, s.dev.hears h (.command k) → s.dev.takesMirror = true → k.finish = .ctx → k.object = none → k.recs = [.confirm 7 8] →
      Runs (.command h (some k) true) s fun d => d.prl.applied = s.dev.prl.applied ++ k.recs ∧ Maps.getD
      d.dur.confirmed 7 0 = 8) ∧
  (∀ s h k ks, s.dev.hears h (.applied true) → s.dev.pairState = PairSt.active → s.dev.prl.pendingCmds = k :: ks → k.finish =
      .ctx →
      Runs (.command h none true) s fun d => d.prl.pendingCmds = ks ∧ d.get F.CTX_CMD_BUSY = 0 ∧ d.get
      F.CTX_CMD_RESULT = k.result % 16 ∧ d.get F.CTX_INT_STATUS_CMD_DONE = 1)

/-- Frames: the commands of host writes, rings, host commands, summaries and health samples complete at every state and
leave alone every part but those listed. `Part.event` is what an event may change, `Part.journal` what a journal entry may. -/
def Obligations.FramesOfHostAndEvents : Prop :=
  (∀ a b c, Leaves (.registerWrite a b c) (Part.allRegs ++ Part.event ++ ([.tsu, .nfm, .clo, .zxp, .msr, .fhm] : List Part))) ∧
  (∀ a b, Leaves (.counterClear a b) [.eth, .regs 1, .regs 2, .regs 3, .regs 4, .regs 5, .regs 6, .regs 7, .regs 8, .regs 9,
      .regs 10, .regs 11, .regs 12, .regs 13, .regs 14, .regs 15, .regs 16, .regs 17, .regs 18, .regs 19]) ∧
  (∀ a, Leaves (.perstN a) [.host, .glb, .regs 0, .regs 2]) ∧
  (∀ a, Leaves (.functionLevelReset a) [.host, .regs 2]) ∧
  (∀ a, Leaves (.drainTransferDone a) Part.event) ∧
  (∀ a b, Leaves (.ringDataWrite a b) Part.event) ∧
  (∀ a, Leaves (.ringDataRead a) (Part.event ++ ([.lastRead] : List Part))) ∧
  (∀ a, Leaves (.ringFlush a) Part.event) ∧
  (∀ a, Leaves (.ringMark a) [.regs 2]) ∧
  (∀ a, Leaves (.ringRewind a) Part.event) ∧
  (∀ a b, Leaves (.ringConfirm a b) (Part.event ++ ([.nfm, .regs 13, .regs 18] : List Part))) ∧
  (∀ a b, Leaves (.ringHrdWrite a b) Part.event) ∧
  (∀ a, Leaves (.msixUnmask a) [.host, .out]) ∧
  (∀ a, Leaves (.ringCoalesceTimeout a) [.host, .out]) ∧
  (∀ a, Leaves (.objectRequest a) (Part.event ++ ([.trl, .regs 1, .regs 8, .free, .eth, .fhm, .dst, .eng, .key, .clo, .zxp, .regs 3, .regs 4, .regs 5, .regs 9, .regs 10, .regs 11] : List Part))) ∧
  (∀ a, Leaves (.meterRequest a) (Part.event ++ ([.free, .fhm, .trl, .eth, .dst, .eng, .key, .clo, .zxp, .regs 1, .regs 3, .regs 4, .regs 5, .regs 8, .regs 9, .regs 10, .regs 11] : List Part))) ∧
  (∀ a, Leaves (.meterRequestTimeout a) (Part.event ++ ([.fhm] : List Part))) ∧
  (∀ a, Leaves (.certLoad a) (Part.event ++ ([.eng, .regs 3] : List Part))) ∧
  (∀ a, Leaves (.eventSummary a) Part.event) ∧
  Leaves .archiveRead Part.event ∧
  (∀ a, Leaves (.healthDailySample a) (Part.event ++ ([.regs 18] : List Part))) ∧
  (∀ a, Leaves (.hltUpdate a) (Part.event ++ ([.regs 18] : List Part)))

/-- Frames: the commands of the time-stamp unit, PTP, Ethernet and the Cloche complete at every state and leave alone every
part but those listed. `Part.event` is what an event may change, `Part.journal` what a journal entry may. -/
def Obligations.FramesOfTimeAndCloche : Prop :=
  (∀ a, Leaves (.cloAccessArrival a) (Part.event ++ ([.lastRead, .fhm, .dst, .eng, .bil, .key, .nfm, .clo, .zxp, .regs 0,
      .regs 1, .regs 3, .regs 4, .regs 5, .regs 8, .regs 9, .regs 10, .regs 11, .regs 15, .regs 18, .free] : List Part))) ∧
  Leaves .tsuStep (Part.event ++ ([.tsu, .regs 8, .regs 12, .free, .trl, .eth, .fhm, .dst, .eng, .bil, .key, .nfm, .clo, .zxp, .regs 1, .regs 3, .regs 5, .regs 9, .regs 10, .regs 11] : List Part)) ∧
  Leaves .tsuSlew [.tsu, .regs 12] ∧
  Leaves .slewDone (Part.event ++ ([.tsu, .regs 12] : List Part)) ∧
  (∀ a, Leaves (.tsuIncrWrite a) (Part.event ++ ([.tsu, .regs 12] : List Part))) ∧
  Leaves .tsuTimeRead [.lastRead, .tsu] ∧
  (∀ a b c, Leaves (.ptpSync a b c) (Part.event ++ ([.free, .tsu, .eth, .regs 8, .regs 12, .regs 18, .regs 19, .trl, .fhm, .dst, .eng, .bil, .key, .nfm, .clo, .zxp, .regs 1, .regs 3, .regs 5, .regs 7, .regs 9, .regs 10, .regs 11] : List Part))) ∧
  (∀ a b c, Leaves (.ptpFollowUp a b c) (Part.event ++ ([.free, .tsu, .eth, .regs 8, .regs 12, .regs 18,
      .regs 19, .trl, .fhm, .dst, .eng, .bil, .key, .nfm, .clo, .zxp, .regs 1, .regs 3, .regs 5, .regs 7, .regs 9, .regs 10, .regs 11] : List Part))) ∧
  (∀ a b, Leaves (.ptpDelayReq a b) (Part.event ++ ([.eth, .regs 12, .regs 19] : List Part))) ∧
  (∀ a b c, Leaves (.ptpDelayResp a b c) (Part.event ++ ([.tsu, .eth, .regs 12, .regs 19] : List Part))) ∧
  (∀ a b, Leaves (.ptpPdelayReq a b) (Part.event ++ ([.eth, .regs 12, .regs 19] : List Part))) ∧
  (∀ a b c, Leaves (.ptpPdelayResp a b c) (Part.event ++ ([.tsu, .eth, .regs 12, .regs 19] : List Part))) ∧
  (∀ a b c, Leaves (.ptpPdelayRespFollowUp a b c) (Part.event ++ ([.tsu, .eth, .regs 12, .regs 19] : List Part))) ∧
  (∀ a b c, Leaves (.ptpAnnounce a b c) (Part.event ++ ([.tsu, .eth, .regs 12, .regs 18, .regs 19, .regs 7] : List Part))) ∧
  (∀ a, Leaves (.ptpAnnounceTimeout a) (Part.event ++ ([.tsu, .regs 12, .regs 18, .regs 7] : List Part))) ∧
  (∀ a b, Leaves (.ptpMessageDue a b) [.out, .tsu, .eth, .regs 12]) ∧
  Leaves .holdoverLimit (Part.event ++ ([.tsu, .regs 12, .regs 18, .regs 7] : List Part)) ∧
  Leaves .utcLeap (Part.event ++ ([.regs 12, .tsu] : List Part)) ∧
  Leaves .ppsInEdge (Part.event ++ ([.free, .tsu, .regs 8, .regs 12, .regs 18, .trl, .eth, .fhm, .dst, .eng, .bil, .key, .nfm, .clo, .zxp, .regs 1, .regs 3, .regs 5, .regs 7, .regs 9, .regs 10, .regs 11] : List Part)) ∧
  Leaves .ppsInMissing (Part.event ++ ([.tsu, .regs 12, .regs 18, .regs 7] : List Part)) ∧
  Leaves .tsuPpsInRead [.lastRead, .tsu] ∧
  Leaves .cloMeasureStart [.tsu, .regs 12] ∧
  (∀ a, Leaves (.cloMeasureDone a) (Part.event ++ ([.tsu, .clo, .regs 12, .regs 15] : List Part))) ∧
  (∀ a b c e f, Leaves (.ethNeighborSolicitation a b c e f) (Part.event ++ ([.eth, .regs 19] : List Part))) ∧
  (∀ a b c e f g, Leaves (.ethEchoRequest a b c e f g) (Part.event ++ ([.eth, .regs 19] : List Part))) ∧
  (∀ a b c e f, Leaves (.ethArpRequest a b c e f) (Part.event ++ ([.eth, .regs 19] : List Part))) ∧
  (∀ a b c e, Leaves (.ethNeighborAdvertisement a b c e) (Part.event ++ ([.eth, .regs 19] : List Part))) ∧
  (∀ a b c, Leaves (.ethFrameDrop a b c) (Part.event ++ ([.eth, .regs 19] : List Part))) ∧
  (∀ a b, Leaves (.neighbourSolicitRetry a b) (Part.event ++ ([.eth, .regs 19] : List Part))) ∧
  (∀ a b, Leaves (.neighbourEntryExpire a b) [.eth]) ∧
  (∀ a b c e f, Leaves (.ethLinkChange a b c e f) (Part.event ++ ([.regs 19] : List Part))) ∧
  (∀ a b, Leaves (.ethCounterRead a b) [.lastRead, .eth]) ∧
  Leaves .zeroize (Part.event ++ ([.fhm, .dst, .eng, .bil, .key, .nfm, .clo, .zxp, .regs 0, .regs 1, .regs 3, .regs 4,
  .regs 5, .regs 8, .regs 9, .regs 10, .regs 11, .regs 15, .regs 18, .free, .lastRead] : List Part)) ∧
  Leaves .anchor (Part.event ++ ([.regs 15, .free, .lastRead, .fhm, .dst, .eng, .bil, .key, .nfm, .clo, .zxp, .regs 0,
  .regs 1, .regs 3, .regs 4, .regs 5, .regs 8, .regs 9, .regs 10, .regs 11, .regs 18] : List Part)) ∧
  Leaves .anchorApply (Part.event ++ ([.regs 15] : List Part)) ∧
  Leaves .tickLoad (Part.event ++ ([.regs 15, .free, .lastRead, .fhm, .dst, .eng, .bil, .key, .nfm, .clo, .zxp, .regs 0,
  .regs 1, .regs 3, .regs 4, .regs 5, .regs 8, .regs 9, .regs 10, .regs 11, .regs 18] : List Part)) ∧
  Leaves .tickLoadApply (Part.event ++ ([.clo, .regs 15] : List Part)) ∧
  Leaves .unlock [.regs 15, .host, .out, .free, .lastRead, .fhm, .dst, .eng, .bil, .key, .dur, .jnl, .nfm, .clo, .prl, .zxp,
  .regs 0, .regs 1, .regs 2, .regs 3, .regs 4, .regs 5, .regs 8, .regs 9, .regs 10, .regs 11, .regs 14, .regs 16, .regs 17,
  .regs 18] ∧
  Leaves .chargeClear [.regs 15, .host, .out, .free, .lastRead, .fhm, .dst, .eng, .bil, .key, .dur, .jnl, .nfm, .clo, .prl,
  .zxp, .regs 0, .regs 1, .regs 2, .regs 3, .regs 4, .regs 5, .regs 8, .regs 9, .regs 10, .regs 11, .regs 14, .regs 16,
  .regs 17, .regs 18] ∧
  Leaves .tampLock [.regs 15, .host, .out, .free, .lastRead, .fhm, .dst, .eng, .bil, .key, .dur, .jnl, .nfm, .clo, .prl,
  .zxp, .regs 0, .regs 1, .regs 2, .regs 3, .regs 4, .regs 5, .regs 8, .regs 9, .regs 10, .regs 11, .regs 14, .regs 16,
  .regs 17, .regs 18] ∧
  (∀ a, Leaves (.tamperLatchClear a) [.out, .clo, .regs 15, .host, .free, .lastRead, .fhm, .dst, .eng, .bil, .key, .dur,
      .jnl, .nfm, .prl, .zxp, .regs 0, .regs 1, .regs 2, .regs 3, .regs 4, .regs 5, .regs 8, .regs 9, .regs 10, .regs 11,
      .regs 14, .regs 16, .regs 17, .regs 18]) ∧
  Leaves .oscStoppedClear (Part.event ++ ([.regs 15, .free, .lastRead, .fhm, .dst, .eng, .bil, .key, .nfm, .clo, .zxp,
  .regs 0, .regs 1, .regs 3, .regs 4, .regs 5, .regs 8, .regs 9, .regs 10, .regs 11, .regs 18] : List Part)) ∧
  (∀ a, Leaves (.cloTrimWrite a) [.clo, .regs 15, .host, .out, .free, .lastRead, .fhm, .dst, .eng, .bil, .key, .dur, .jnl,
      .nfm, .prl, .zxp, .regs 0, .regs 1, .regs 2, .regs 3, .regs 4, .regs 5, .regs 8, .regs 9, .regs 10, .regs 11, .regs 14,
      .regs 16, .regs 17, .regs 18]) ∧
  (∀ a, Leaves (.cloAlarmFire a) (Part.event ++ ([.regs 15] : List Part))) ∧
  Leaves .oscStopDetect (Part.event ++ ([.fhm, .dst, .eng, .bil, .key, .nfm, .clo, .zxp, .regs 0, .regs 1, .regs 3, .regs 4,
  .regs 5, .regs 8, .regs 9, .regs 10, .regs 11, .regs 15, .regs 18, .free] : List Part)) ∧
  Leaves .oscResume [.clo, .regs 15] ∧
  (∀ a, Leaves (.tamperAssert a) (Part.event ++ ([.fhm, .dst, .eng, .bil, .key, .nfm, .clo, .zxp, .regs 0, .regs 1, .regs 3,
      .regs 4, .regs 5, .regs 8, .regs 9, .regs 10, .regs 11, .regs 15, .regs 18, .free] : List Part))) ∧
  (∀ a b, Leaves (.hedgeSample a b) (Part.event ++ ([.fhm, .dst, .eng, .bil, .key, .nfm, .clo, .zxp, .regs 0, .regs 1,
      .regs 3, .regs 4, .regs 5, .regs 8, .regs 9, .regs 10, .regs 11, .regs 15, .regs 18, .free] : List Part))) ∧
  Leaves .supplyToBattery [.clo, .regs 15, .host] ∧
  (∀ a, Leaves (.supplyToMain a) [.clo, .regs 15]) ∧
  Leaves .retLost [.out, .clo, .regs 11, .regs 15, .host] ∧
  (∀ a, Leaves (.vbatMeasure a) (Part.event ++ ([.regs 15, .regs 18] : List Part))) ∧
  Leaves .cloTimeRead [.lastRead, .clo, .host, .out, .free, .fhm, .dst, .eng, .bil, .key, .dur, .jnl, .nfm, .prl, .zxp,
  .regs 0, .regs 1, .regs 2, .regs 3, .regs 4, .regs 5, .regs 8, .regs 9, .regs 10, .regs 11, .regs 14, .regs 15, .regs 16,
  .regs 17, .regs 18] ∧
  Leaves .cloTrecRead [.lastRead, .clo, .host, .out, .free, .fhm, .dst, .eng, .bil, .key, .dur, .jnl, .nfm, .prl, .zxp,
  .regs 0, .regs 1, .regs 2, .regs 3, .regs 4, .regs 5, .regs 8, .regs 9, .regs 10, .regs 11, .regs 14, .regs 15, .regs 16,
  .regs 17, .regs 18] ∧
  (∀ a, Leaves (.tamperInactive a) [.regs 15]) ∧
  (∀ a, Leaves (.ppsOutEdge a) [.out, .tsu])

/-- Frames: the commands of datagrams of heads, superframe mode, orders, contexts, ingest, commit and the arbiter complete
at every state and leave alone every part but those listed. `Part.event` is what an event may change, `Part.journal` what a
journal entry may. -/
def Obligations.FramesOfHeadsAndIngest : Prop :=
  (∀ a, Leaves (.fhmHeadAdd a) (Part.event ++ ([.free, .trl, .fhm, .dst, .key, .clo, .regs 1, .regs 3, .regs 5, .regs 9,
      .regs 10, .regs 11, .eng, .zxp] : List Part))) ∧
  (∀ a, Leaves (.fhmHeadRemove a) (Part.event ++ ([.free, .trl, .fhm, .dst, .key, .clo, .regs 1, .regs 3, .regs 5, .regs 9,
      .regs 10, .regs 11, .eng, .zxp] : List Part))) ∧
  (∀ a, Leaves (.fhmHeadRecall a) [.out, .free, .eth, .fhm, .key, .regs 5]) ∧
  (∀ a b, Leaves (.fhmModeEnter a b) (Part.event ++ ([.fhm, .regs 5] : List Part))) ∧
  (∀ a b, Leaves (.fhmModeLeave a b) [.fhm, .regs 5]) ∧
  (∀ a b, Leaves (.fhmModeTest a b) (Part.event ++ ([.fhm, .regs 5] : List Part))) ∧
  (∀ a b c e, Leaves (.headRequest a b c e) (Part.event ++ ([.free, .eth, .fhm, .key, .regs 5, .regs 11,
      .regs 19] : List Part))) ∧
  (∀ a b c e, Leaves (.headLeave a b c e) (Part.event ++ ([.eth, .fhm, .regs 5, .regs 19] : List Part))) ∧
  (∀ a b c e, Leaves (.rxReport a b c e) (Part.event ++ ([.glb, .eth, .fhm, .dst, .eng, .regs 0, .regs 3, .regs 4, .regs 5,
      .regs 19, .free, .key, .clo, .regs 1, .regs 9, .regs 10, .regs 11, .trl, .zxp, .regs 8] : List Part))) ∧
  (∀ a b c e, Leaves (.ccaBusy a b c e) (Part.event ++ ([.free, .eth, .fhm, .dst, .key, .regs 5, .regs 10, .regs 11,
      .regs 19] : List Part))) ∧
  (∀ a b c e, Leaves (.txConfirm a b c e) (Part.event ++ ([.free, .eth, .fhm, .dst, .key, .regs 5, .regs 10, .regs 11,
      .regs 19] : List Part))) ∧
  (∀ a b c e, Leaves (.beaconConfirm a b c e) (Part.event ++ ([.eth, .fhm, .regs 5, .regs 19, .dst] : List Part))) ∧
  (∀ a b c e, Leaves (.headStatus a b c e) (Part.event ++ ([.eth, .fhm, .regs 5, .regs 19] : List Part))) ∧
  (∀ a, Leaves (.headSilenceTimeout a) (Part.event ++ ([.fhm, .dst, .regs 5] : List Part))) ∧
  (∀ a, Leaves (.headSuspendTimeout a) (Part.journal ++ ([.fhm, .dst, .regs 5] : List Part))) ∧
  (∀ a, Leaves (.txAtSend a) (Part.event ++ ([.free, .eth, .fhm, .key, .regs 5, .regs 10, .regs 11, .dst, .eng, .clo,
      .regs 1, .regs 3, .regs 4, .regs 9, .trl, .zxp, .regs 8] : List Part))) ∧
  (∀ a b c, Leaves (.acceptWindowCheck a b c) (Part.event ++ ([.eth, .fhm, .regs 5, .regs 10, .regs 11, .free, .dst, .eng,
      .key, .clo, .regs 1, .regs 3, .regs 4, .regs 9, .trl, .zxp, .regs 8] : List Part))) ∧
  (∀ a, Leaves (.beaconDue a) [.free, .fhm, .key, .regs 5]) ∧
  (∀ a b, Leaves (.beaconConfirmDeadline a b) (Part.event ++ ([.fhm, .dst, .regs 5] : List Part))) ∧
  (∀ a b, Leaves (.txConfirmDeadline a b) (Part.event ++ ([.free, .eth, .fhm, .dst, .key, .regs 5, .regs 10,
      .regs 11] : List Part))) ∧
  (∀ a, Leaves (.stormCheck a) (Part.event ++ ([.fhm, .regs 5] : List Part))) ∧
  (∀ a, Leaves (.superframeEnd a) [.fhm, .regs 5]) ∧
  (∀ a, Leaves (.workItemAdmit a) (Part.event ++ ([.free, .trl, .fhm, .dst, .eng, .key, .clo, .regs 1, .regs 3, .regs 4,
      .regs 5, .regs 9, .regs 10, .regs 11, .eth, .bil, .nfm, .zxp, .regs 8] : List Part))) ∧
  (∀ a, Leaves (.resourceGrant a) (Part.event ++ ([.fhm, .eng, .nfm, .zxp, .regs 3, .regs 4, .regs 5, .regs 6, .regs 10,
      .regs 11, .regs 13, .regs 18, .free, .eth, .dst, .key, .clo, .regs 1, .regs 9, .trl, .regs 8] : List Part))) ∧
  (∀ a, Leaves (.resourceWaitTimeout a) (Part.event ++ ([.fhm, .eng, .nfm, .zxp, .regs 3, .regs 4, .regs 5, .regs 6,
      .regs 10, .regs 11, .regs 13, .regs 18, .free, .eth, .dst, .key, .clo, .regs 1, .regs 9, .trl, .regs 8] : List Part))) ∧
  (∀ a, Leaves (.resourceRetry a) (Part.event ++ ([.fhm, .eng, .nfm, .zxp, .regs 3, .regs 4, .regs 5, .regs 6, .regs 10,
      .regs 11, .regs 13, .regs 18, .free, .eth, .dst, .key, .clo, .regs 1, .regs 9, .trl, .regs 8] : List Part))) ∧
  (∀ a, Leaves (.contextFetchDone a) (Part.event ++ ([.eng, .regs 3, .regs 4, .free, .eth, .fhm, .dst, .key, .clo, .regs 1,
      .regs 5, .regs 9, .regs 10, .regs 11, .trl, .zxp, .regs 8] : List Part))) ∧
  (∀ a b, Leaves (.keyCacheFillDone a b) (Part.event ++ ([.eng, .regs 3, .regs 4, .regs 11, .free, .eth, .fhm, .dst, .key,
      .clo, .regs 1, .regs 5, .regs 9, .regs 10, .trl, .zxp, .regs 8] : List Part))) ∧
  (∀ a, Leaves (.cryptoLaneDone a) (Part.event ++ ([.fhm, .dst, .eng, .key, .nfm, .zxp, .regs 3, .regs 4, .regs 5, .regs 6,
      .regs 10, .regs 11, .regs 13, .regs 18, .free, .eth, .clo, .regs 1, .regs 9, .trl, .regs 8] : List Part))) ∧
  (∀ a, Leaves (.parseDone a) (Part.event ++ ([.eng, .regs 4, .free, .dst, .key, .clo, .regs 1, .regs 3, .regs 5, .regs 9,
      .regs 10, .regs 11] : List Part))) ∧
  (∀ a, Leaves (.billingUpdateDone a) (Part.event ++ ([.fhm, .eng, .nfm, .zxp, .regs 3, .regs 4, .regs 5, .regs 6, .regs 8,
      .regs 9, .regs 10, .regs 11, .regs 13, .regs 18, .free, .eth, .dst, .key, .clo, .regs 1, .trl] : List Part))) ∧
  Leaves .mirrorWaitExpire (Part.event ++ ([.fhm, .eng, .zxp, .regs 4, .regs 5, .regs 6, .regs 10, .regs 11, .free, .dst,
  .key, .clo, .regs 1, .regs 3, .regs 9, .eth] : List Part)) ∧
  (∀ a, Leaves (.reassemblyTimeout a) (Part.event ++ ([.eng, .regs 4] : List Part))) ∧
  Leaves .ctxAlloc (Part.event ++ ([.free, .trl, .dst, .key, .clo, .regs 1, .regs 3, .regs 5, .regs 9, .regs 10, .regs 11,
  .eng, .fhm, .bil, .nfm, .zxp] : List Part)) ∧
  (∀ a, Leaves (.ctxAllocAt a) (Part.event ++ ([.free, .trl, .dst, .key, .clo, .regs 1, .regs 3, .regs 5, .regs 9, .regs 10,
      .regs 11, .eng, .fhm, .bil, .nfm, .zxp] : List Part))) ∧
  (∀ a, Leaves (.ctxFree a) (Part.event ++ ([.free, .trl, .fhm, .dst, .eng, .key, .clo, .regs 1, .regs 3, .regs 4, .regs 5,
      .regs 9, .regs 10, .regs 11, .bil, .nfm, .zxp] : List Part))) ∧
  (∀ a, Leaves (.ctxPin a) (Part.event ++ ([.free, .dst, .eng, .key, .clo, .regs 1, .regs 3, .regs 5, .regs 9, .regs 10,
      .regs 11] : List Part))) ∧
  (∀ a, Leaves (.ctxUnpin a) (Part.event ++ ([.free, .dst, .key, .clo, .regs 1, .regs 3, .regs 5, .regs 9, .regs 10,
      .regs 11, .eng] : List Part))) ∧
  Leaves .keyEpochTick [.eng, .regs 3] ∧
  (∀ a b c, Leaves (.signhashRequest a b c) (Part.event ++ ([.eng, .regs 3] : List Part))) ∧
  (∀ a, Leaves (.signhashBlockEnd a) [.eng, .regs 3, .host, .out, .dst, .dur, .jnl, .prl, .regs 2, .regs 14, .regs 16, .regs 17]) ∧
  (∀ a, Leaves (.signhashOpDone a) (Part.event ++ ([.eng, .key, .nfm, .regs 3, .regs 4, .regs 11, .regs 13, .free, .dst] : List Part))) ∧
  (∀ a b, Leaves (.arbUrgentChange a b) [.eng]) ∧
  (∀ a, Leaves (.arbStarved a) (Part.event ++ ([.eng, .regs 3] : List Part)))

/-- Frames: the commands of the measurement chain and ZX-PLC complete at every state and leave alone every part but those
listed. `Part.event` is what an event may change, `Part.journal` what a journal entry may. -/
def Obligations.FramesOfMeasurementAndZx : Prop :=
  (∀ a b c e, Leaves (.zxCrossing a b c e) (Part.event ++ ([.zxp, .regs 6, .tsu, .msr, .regs 7] : List Part))) ∧
  (∀ a b c e, Leaves (.zxCrossingMissing a b c e) (Part.event ++ ([.zxp, .regs 6, .tsu, .msr, .regs 7] : List Part))) ∧
  (∀ a b, Leaves (.zxReacquire a b) [.zxp, .regs 6, .tsu]) ∧
  (∀ a b, Leaves (.zxPulseGate a b) (Part.event ++ ([.fhm, .dst, .zxp, .regs 6, .regs 10, .regs 11] : List Part))) ∧
  (∀ a b, Leaves (.zxgWatchdog a b) (Part.event ++ ([.zxp, .regs 6] : List Part))) ∧
  (∀ a b, Leaves (.zxfFault a b) (Part.event ++ ([.zxp, .regs 6] : List Part))) ∧
  (∀ a b, Leaves (.zxFaultResume a b) [.zxp]) ∧
  (∀ a b, Leaves (.zxpFaultClear a b) [.regs 6]) ∧
  (∀ a b c, Leaves (.zxBlockDecode a b c) (Part.event ++ ([.glb, .eng, .zxp, .regs 0, .regs 3, .regs 4, .regs 6, .free, .eth,
      .fhm, .dst, .key, .clo, .regs 1, .regs 5, .regs 9, .regs 10, .regs 11, .trl, .regs 8] : List Part))) ∧
  (∀ a b, Leaves (.zxUplinkEnd a b) [.out, .zxp, .key]) ∧
  (∀ a b, Leaves (.zxAckBitmapFix a b) [.out, .zxp]) ∧
  (∀ a b, Leaves (.zxOutboundFrameStart a b) (Part.event ++ ([.dst, .zxp, .regs 5, .regs 10, .free, .trl, .eth, .fhm, .eng, .key, .clo, .regs 1, .regs 3, .regs 4, .regs 8, .regs 9, .regs 11] : List Part))) ∧
  (∀ a, Leaves (.zxRoundBoundary a) [.zxp, .regs 6]) ∧
  (∀ a b, Leaves (.zxpAssign a b) (Part.event ++ ([.zxp, .regs 6] : List Part))) ∧
  (∀ a b, Leaves (.zxpRelease a b) (Part.event ++ ([.zxp, .regs 6] : List Part))) ∧
  (∀ a, Leaves (.zxpCycleRead a) [.zxp, .regs 6, .lastRead]) ∧
  (∀ a, Leaves (.modPresentFall a) [.msr, .regs 7]) ∧
  (∀ a b c, Leaves (.moduleRecordRead a b c) (Part.event ++ ([.zxp, .msr, .regs 6, .regs 7] : List Part))) ∧
  (∀ a, Leaves (.modPresentRise a) (Part.event ++ ([.zxp, .msr, .regs 6, .regs 7] : List Part))) ∧
  Leaves .msrSyncRequest (Part.event ++ ([.zxp, .msr, .regs 7] : List Part)) ∧
  Leaves .msrEnable (Part.event ++ ([.zxp, .msr, .regs 7] : List Part)) ∧
  (∀ a, Leaves (.msrSyncReset a) (Part.event ++ ([.zxp, .msr, .regs 7] : List Part))) ∧
  (∀ a b, Leaves (.msrSettleDone a b) (Part.event ++ ([.msr, .regs 7] : List Part))) ∧
  (∀ a, Leaves (.msrSwapRequest a) (Part.event ++ ([.msr, .regs 7] : List Part))) ∧
  (∀ a, Leaves (.msrFadeEnd a) (Part.event ++ ([.msr, .regs 7] : List Part))) ∧
  (∀ a, Leaves (.msrCoefWrite a) (Part.event ++ ([.msr, .regs 7] : List Part))) ∧
  (∀ a, Leaves (.msrDtMeasure a) [.msr, .regs 7, .host, .out, .free, .dur, .jnl, .prl, .regs 2, .regs 14, .regs 16, .regs 17]) ∧
  (∀ a, Leaves (.msrCalUpdate a) (Part.event ++ ([.msr, .regs 7] : List Part))) ∧
  (∀ a b, Leaves (.msrIntervalHandover a b) (Part.event ++ ([.msr, .regs 7, .regs 9] : List Part))) ∧
  (∀ a b, Leaves (.msrEnergyLatch a b) [.msr, .regs 7, .host, .out, .dur, .jnl, .prl, .regs 2, .regs 14, .regs 16, .regs 17]) ∧
  (∀ a b, Leaves (.zxfFall a b) [.regs 6]) ∧
  (∀ a b, Leaves (.saturation a b) (Part.event ++ ([.msr, .regs 7] : List Part)))

/-- Frames: the commands of keys, roots, the Trellis, Grafts, resets, start-up steps and storage complete at every state and
leave alone every part but those listed. `Part.event` is what an event may change, `Part.journal` what a journal entry may. -/
def Obligations.FramesOfKeysTrellisAndStorage : Prop :=
  (∀ a b, Leaves (.resetAssert a b) (Part.allRegs ++ ([.host, .glb, .trl, .tsu, .eth, .fhm, .dst, .eng, .bil, .key, .dur,
      .jnl, .nfm, .clo, .prl, .zxp, .msr] : List Part))) ∧
  (∀ a, Leaves (.resetRelease a) [.glb]) ∧
  (∀ a, Leaves (.startupStepComplete a) (Part.event ++ ([.free, .glb, .trl, .tsu, .eth, .fhm, .dst, .eng, .key, .nfm, .clo,
      .zxp, .msr, .regs 0, .regs 1, .regs 3, .regs 4, .regs 5, .regs 6, .regs 7, .regs 8, .regs 9, .regs 10, .regs 11,
      .regs 12, .regs 13, .regs 18, .bil] : List Part))) ∧
  Leaves .sealWaitExpire (Part.event ++ ([.glb, .trl, .nfm, .regs 0, .regs 1] : List Part)) ∧
  Leaves .hostSeal (Part.event ++ ([.glb, .trl, .nfm, .regs 0, .regs 1] : List Part)) ∧
  Leaves .thermalTrip (Part.allRegs ++ ([.host, .glb, .trl, .tsu, .eth, .fhm, .dst, .eng, .bil, .key, .dur, .jnl, .nfm, .clo,
  .prl, .zxp, .msr] : List Part)) ∧
  Leaves .thermalTripRelease [.glb] ∧
  Leaves .powerFail (Part.event ++ ([.glb, .fhm, .dst, .eng, .bil, .key, .nfm, .zxp, .regs 1, .regs 3, .regs 4, .regs 5,
  .regs 8, .regs 9, .regs 10, .regs 11, .regs 18, .free, .trl, .eth, .clo] : List Part)) ∧
  Leaves .powerFailClear (Part.allRegs ++ ([.host, .glb, .trl, .tsu, .eth, .fhm, .dst, .eng, .bil, .key, .dur, .jnl, .nfm,
  .clo, .prl, .zxp, .msr, .out] : List Part)) ∧
  (∀ a, Leaves (.loadHost a) (Part.event ++ ([.trl, .regs 0, .regs 1] : List Part))) ∧
  (∀ a, Leaves (.storeNor a) (Part.event ++ ([.nfm, .regs 1] : List Part))) ∧
  (∀ a, Leaves (.storeNand a) (Part.event ++ ([.nfm, .regs 1] : List Part))) ∧
  (∀ a b, Leaves (.stage a b) (Part.event ++ ([.free, .trl, .dst, .key, .clo, .regs 1, .regs 3, .regs 5, .regs 9, .regs 10,
      .regs 11, .eng, .fhm, .zxp] : List Part))) ∧
  (∀ a, Leaves (.arm a) (Part.event ++ ([.trl, .regs 1] : List Part))) ∧
  (∀ a, Leaves (.trlCancel a) (Part.event ++ ([.trl, .regs 1, .free, .eth, .fhm, .dst, .eng, .bil, .key, .nfm, .clo, .regs 3,
      .regs 5, .regs 8, .regs 9, .regs 10, .regs 11, .zxp] : List Part))) ∧
  Leaves .bindOwner (Part.event ++ ([.trl, .regs 1] : List Part)) ∧
  Leaves .raiseFloor (Part.event ++ ([.trl, .regs 1] : List Part)) ∧
  (∀ a b, Leaves (.graftApply a b) (Part.event ++ ([.free, .trl, .eth, .fhm, .dst, .eng, .bil, .key, .nfm, .clo, .regs 1,
      .regs 3, .regs 5, .regs 8, .regs 9, .regs 10, .regs 11, .zxp] : List Part))) ∧
  Leaves .provOpen (Part.event ++ ([.free, .key, .regs 11, .eng, .regs 3] : List Part)) ∧
  (∀ a, Leaves (.provPeer a) (Part.event ++ ([.key, .regs 11, .eng, .regs 3] : List Part))) ∧
  Leaves .provClose (Part.event ++ ([.key, .regs 11] : List Part)) ∧
  (∀ a b c, Leaves (.rootImport a b c) (Part.event ++ ([.clo, .regs 11, .free, .key] : List Part))) ∧
  (∀ a, Leaves (.rootGenerate a) (Part.event ++ ([.free, .key, .clo, .regs 11] : List Part))) ∧
  Leaves .rootCommit (Part.event ++ ([.free, .trl, .dst, .key, .clo, .regs 1, .regs 3, .regs 5, .regs 9, .regs 10, .regs 11,
  .eng, .fhm, .zxp] : List Part)) ∧
  Leaves .rootCancel (Part.event ++ ([.clo, .regs 11] : List Part)) ∧
  (∀ a, Leaves (.rootErase a) (Part.event ++ ([.key, .clo, .regs 11] : List Part))) ∧
  (∀ a, Leaves (.rewrap a) (Part.event ++ ([.key, .regs 11, .free, .trl, .eth, .fhm, .dst, .eng, .clo, .zxp, .regs 1, .regs 3, .regs 4, .regs 5, .regs 8, .regs 9, .regs 10] : List Part))) ∧
  (∀ a, Leaves (.meterInstall a) (Part.event ++ ([.free, .trl, .dst, .key, .clo, .regs 1, .regs 3, .regs 5, .regs 9,
      .regs 10, .regs 11, .eng, .fhm, .zxp] : List Part))) ∧
  (∀ a, Leaves (.meterCancel a) (Part.event ++ ([.free, .trl, .dst, .key, .clo, .regs 1, .regs 3, .regs 5, .regs 9, .regs 10,
      .regs 11, .eng, .eth, .fhm, .zxp, .regs 4, .regs 8] : List Part))) ∧
  (∀ a, Leaves (.headInstall a) (Part.event ++ ([.free, .trl, .dst, .key, .clo, .regs 1, .regs 3, .regs 5, .regs 9, .regs 10,
      .regs 11, .eng, .fhm, .zxp] : List Part))) ∧
  (∀ a, Leaves (.headCancel a) (Part.event ++ ([.free, .trl, .dst, .key, .clo, .regs 1, .regs 3, .regs 5, .regs 9, .regs 10,
      .regs 11, .eng, .fhm, .zxp] : List Part))) ∧
  (∀ a, Leaves (.bcastRoll a) (Part.event ++ ([.key, .regs 11] : List Part))) ∧
  Leaves .exportCert (Part.event ++ ([.regs 11, .free, .key] : List Part)) ∧
  Leaves .resume (Part.allRegs ++ Part.event ++ ([.free, .glb, .trl, .tsu, .eth, .fhm, .dst, .eng, .bil, .key, .nfm, .clo,
  .zxp, .msr] : List Part)) ∧
  (∀ a, Leaves (.classAkInstall a) (Part.event ++ ([.free, .trl, .dst, .key, .clo, .regs 1, .regs 3, .regs 5, .regs 9,
      .regs 10, .regs 11, .eng, .fhm, .zxp] : List Part))) ∧
  Leaves .provSessionExpire (Part.event ++ ([.key, .regs 11] : List Part)) ∧
  (∀ a, Leaves (.maskRefresh a) (Part.event ++ ([.free, .key, .clo, .regs 11, .regs 15] : List Part))) ∧
  (∀ a, Leaves (.drbgReseed a) (Part.allRegs ++ Part.event ++ ([.glb, .trl, .tsu, .eth, .fhm, .dst, .eng, .bil, .key, .nfm,
      .clo, .zxp, .msr, .free] : List Part))) ∧
  Leaves .drbgStop [.regs 11] ∧
  (∀ a, Leaves (.bcastRollInstant a) (Part.event ++ ([.key, .regs 11, .free, .trl, .eth, .fhm, .dst, .eng, .bil, .nfm, .clo, .zxp, .regs 1, .regs 3, .regs 5, .regs 8, .regs 9, .regs 10] : List Part))) ∧
  (∀ a, Leaves (.format a) (Part.event ++ ([.key, .nfm, .regs 11, .regs 13, .regs 18] : List Part))) ∧
  Leaves .archRead (Part.event ++ ([.regs 13] : List Part)) ∧
  Leaves .rakeNow [.nfm, .regs 13] ∧
  Leaves .rakePassStart [.nfm, .regs 13] ∧
  Leaves .rakeBehind (Part.event ++ ([.eng, .regs 13, .regs 18] : List Part)) ∧
  (∀ a b c e f g h i j, Leaves (.nandReadDone a b c e f g h i j) (Part.event ++ ([.nfm, .regs 13, .regs 18] : List Part))) ∧
  (∀ a b c e f, Leaves (.nandProgramDone a b c e f) (Part.event ++ ([.nfm, .regs 13, .regs 18] : List Part))) ∧
  Leaves .wearLevelCheck [.nfm, .regs 13] ∧
  (∀ a, Leaves (.checkpointTrigger a) Part.journal) ∧
  Leaves .ckptNow Part.journal ∧
  Leaves .checkpointComplete (Part.event ++ ([.key, .regs 11] : List Part))

/-- Frames: the commands of zones, closures and campaigns complete at every state and leave alone every part but those
listed. `Part.event` is what an event may change, `Part.journal` what a journal entry may. -/
def Obligations.FramesOfBalanceAndCampaigns : Prop :=
  (∀ a b, Leaves (.intervalEnd a b) (Part.journal ++ ([.host, .free, .trl, .eth, .fhm, .dst, .eng, .bil, .key, .nfm, .clo, .zxp, .regs 1, .regs 2, .regs 3, .regs 5, .regs 8, .regs 9, .regs 10, .regs 11, .regs 17] : List Part))) ∧
  (∀ a b, Leaves (.periodBoundary a b) (Part.journal ++ ([.host, .free, .trl, .eth, .fhm, .dst, .eng, .bil, .key, .nfm, .clo, .zxp, .regs 1, .regs 2, .regs 3, .regs 5, .regs 8, .regs 9, .regs 10, .regs 11, .regs 17] : List Part))) ∧
  (∀ a b, Leaves (.closureSweepStart a b) [.bil, .regs 8]) ∧
  (∀ a, Leaves (.closureSweepDone a) (Part.event ++ ([.bil, .regs 8] : List Part))) ∧
  (∀ a, Leaves (.attach a) (Part.event ++ ([.free, .trl, .dst, .bil, .key, .clo, .regs 1, .regs 3, .regs 5, .regs 9,
      .regs 10, .regs 11, .eng, .fhm, .zxp] : List Part))) ∧
  (∀ a, Leaves (.detach a) (Part.event ++ ([.free, .trl, .dst, .bil, .key, .clo, .regs 1, .regs 3, .regs 5, .regs 9,
      .regs 10, .regs 11, .eng, .fhm, .zxp] : List Part))) ∧
  (∀ a, Leaves (.queryZone a) (Part.event ++ ([.free, .dst, .key, .clo, .regs 1, .regs 3, .regs 5, .regs 9, .regs 10,
      .regs 11, .eng] : List Part))) ∧
  (∀ a, Leaves (.queryMeter a) (Part.event ++ ([.free, .dst, .key, .clo, .regs 1, .regs 3, .regs 5, .regs 9, .regs 10,
      .regs 11, .eng] : List Part))) ∧
  Leaves .balRestart [.dur] ∧
  (∀ a, Leaves (.balEvaluation a) (Part.event ++ ([.bil, .regs 9] : List Part))) ∧
  Leaves .balEvalDone (Part.event ++ ([.free, .trl, .dst, .bil, .key, .clo, .regs 1, .regs 3, .regs 5, .regs 9, .regs 10,
  .regs 11, .eng, .fhm, .zxp] : List Part)) ∧
  (∀ a b, Leaves (.dstLoad a b) (Part.event ++ ([.free, .dst, .key, .clo, .regs 1, .regs 3, .regs 5, .regs 9, .regs 10,
      .regs 11, .eng] : List Part))) ∧
  (∀ a b, Leaves (.campaignLoadStepDone a b) (Part.event ++ ([.free, .trl, .dst, .key, .nfm, .clo, .regs 1, .regs 3, .regs 5,
      .regs 9, .regs 10, .regs 11, .eng, .fhm, .zxp] : List Part))) ∧
  (∀ a b, Leaves (.dstAdd a b) (Part.event ++ ([.free, .trl, .dst, .key, .clo, .regs 1, .regs 3, .regs 5, .regs 9, .regs 10,
      .regs 11, .eng, .fhm, .bil, .nfm, .zxp] : List Part))) ∧
  (∀ a b, Leaves (.dstAddClass a b) (Part.event ++ ([.free, .trl, .dst, .key, .clo, .regs 1, .regs 3, .regs 5, .regs 9,
      .regs 10, .regs 11, .eng, .fhm, .bil, .nfm, .zxp] : List Part))) ∧
  (∀ a b, Leaves (.dstRemove a b) (Part.event ++ ([.free, .trl, .fhm, .dst, .key, .clo, .regs 1, .regs 3, .regs 5, .regs 9,
      .regs 10, .regs 11, .eng, .bil, .nfm, .zxp] : List Part))) ∧
  (∀ a, Leaves (.dstAbort a) (Part.event ++ ([.free, .fhm, .dst, .key, .clo, .regs 1, .regs 3, .regs 5, .regs 9, .regs 10,
      .regs 11, .eng] : List Part))) ∧
  (∀ a, Leaves (.dstClear a) (Part.event ++ ([.free, .trl, .fhm, .dst, .key, .nfm, .clo, .regs 1, .regs 3, .regs 5, .regs 9,
      .regs 10, .regs 11, .eng, .bil, .zxp] : List Part))) ∧
  (∀ a b, Leaves (.campaignRoundStart a b) (Part.journal ++ ([.dst, .regs 10] : List Part))) ∧
  (∀ a b, Leaves (.campaignBlockOrder a b) (Part.event ++ ([.free, .eth, .fhm, .dst, .key, .regs 10, .regs 11,
      .regs 5] : List Part))) ∧
  (∀ a b, Leaves (.collectionEnd a b) (Part.event ++ ([.dst, .regs 10] : List Part))) ∧
  (∀ a, Leaves (.campaignActivation a) (Part.event ++ ([.regs 10, .free, .trl, .eth, .fhm, .dst, .eng, .bil, .key, .nfm, .clo, .zxp, .regs 1, .regs 3, .regs 5, .regs 8, .regs 9, .regs 11] : List Part))) ∧
  (∀ a, Leaves (.campaignExpire a) (Part.event ++ ([.dst, .regs 10, .fhm] : List Part))) ∧
  (∀ a b, Leaves (.campaignAbortBroadcast a b) [.out, .free, .eth, .fhm, .key, .regs 5, .regs 11, .dst]) ∧
  (∀ a b, Leaves (.bitmapPageInDone a b) (Part.journal ++ ([.dst, .regs 10] : List Part)))

/-- Frames: the commands of the pair, its Runner links and the mirror complete at every state and leave alone every part but
those listed. `Part.event` is what an event may change, `Part.journal` what a journal entry may. -/
def Obligations.FramesOfPairAndMirror : Prop :=
  (∀ a b, Leaves (.confirm a b) (Part.event ++ ([.free, .eth, .fhm, .dst, .eng, .bil, .key, .nfm, .zxp, .regs 1, .regs 3,
      .regs 4, .regs 5, .regs 6, .regs 8, .regs 9, .regs 10, .regs 11, .regs 18, .clo] : List Part))) ∧
  Leaves .handover (Part.event ++ ([.fhm, .dst, .eng, .bil, .key, .nfm, .zxp, .regs 1, .regs 3, .regs 4, .regs 5, .regs 8,
  .regs 9, .regs 10, .regs 11, .regs 18, .free] : List Part)) ∧
  Leaves .take Part.event ∧
  Leaves .forceTake (Part.event ++ ([.free, .tsu, .eth, .fhm, .dst, .eng, .key, .zxp, .regs 4, .regs 5, .regs 9,
  .regs 10, .trl, .bil, .nfm, .clo, .regs 1, .regs 3, .regs 8, .regs 11] : List Part)) ∧
  Leaves .clearNonrevertive (Part.event ++ ([.regs 18] : List Part)) ∧
  Leaves .prlResync (Part.event ++ ([.regs 4, .free, .trl, .eth, .fhm, .dst, .eng, .bil, .key, .nfm, .clo, .zxp, .regs 1, .regs 3, .regs 5, .regs 6, .regs 9, .regs 10, .regs 11] : List Part)) ∧
  Leaves .hostBeat (Part.allRegs ++ Part.event ++ ([.glb, .trl, .tsu, .eth, .fhm, .dst, .eng, .bil, .key, .nfm, .clo, .zxp,
  .msr] : List Part)) ∧
  Leaves .hostBeatTimeout (Part.event ++ ([.fhm, .dst, .eng, .bil, .key, .nfm, .zxp, .regs 1, .regs 3, .regs 4, .regs 5,
  .regs 8, .regs 9, .regs 10, .regs 11, .regs 18, .free] : List Part)) ∧
  Leaves .watchdogExpire (Part.allRegs ++ Part.event ++ ([.glb, .trl, .tsu, .eth, .fhm, .dst, .eng, .bil, .key, .nfm, .clo,
  .zxp, .msr, .free] : List Part)) ∧
  (∀ a, Leaves (.faultVerdict a) (Part.event ++ ([.fhm, .dst, .eng, .bil, .key, .nfm, .zxp, .regs 1, .regs 3, .regs 4,
      .regs 5, .regs 8, .regs 9, .regs 10, .regs 11, .regs 18, .free] : List Part))) ∧
  (∀ a, Leaves (.faultCleared a) (Part.allRegs ++ Part.event ++ ([.glb, .trl, .tsu, .eth, .fhm, .dst, .eng, .bil, .key, .nfm,
      .clo, .zxp, .msr] : List Part))) ∧
  (∀ a, Leaves (.pairActiveFall a) (Part.event ++ ([.free, .trl, .tsu, .eth, .fhm, .dst, .eng, .key, .clo, .zxp, .regs 1,
      .regs 3, .regs 4, .regs 5, .regs 6, .regs 9, .regs 10, .regs 11, .bil, .nfm, .regs 8] : List Part))) ∧
  Leaves .pairTakeRise (Part.event ++ ([.fhm, .dst, .eng, .bil, .key, .nfm, .zxp, .regs 1, .regs 3, .regs 4, .regs 5,
  .regs 8, .regs 9, .regs 10, .regs 11, .regs 18, .free] : List Part)) ∧
  (∀ a, Leaves (.pairHealthyChange a) (Part.event ++ ([.fhm, .dst, .eng, .bil, .key, .nfm, .zxp, .regs 1, .regs 3, .regs 4,
      .regs 5, .regs 8, .regs 9, .regs 10, .regs 11, .regs 18, .free] : List Part))) ∧
  (∀ a b, Leaves (.hello a b) (Part.event ++ ([.free, .trl, .tsu, .eth, .fhm, .dst, .eng, .key, .nfm, .clo, .zxp, .regs 1,
      .regs 3, .regs 4, .regs 5, .regs 6, .regs 9, .regs 10, .regs 11, .bil, .regs 8] : List Part))) ∧
  (∀ a, Leaves (.helloDue a) (Part.event ++ ([.free, .tsu, .eth, .fhm, .dst, .eng, .key, .nfm, .zxp, .regs 4, .regs 5,
      .regs 9, .regs 10, .trl, .bil, .clo, .regs 1, .regs 3, .regs 8, .regs 11] : List Part))) ∧
  (∀ a, Leaves (.negotiateTimeout a) (Part.event ++ ([.free, .tsu, .eth, .fhm, .dst, .eng, .key, .nfm, .zxp, .regs 4,
      .regs 5, .regs 9, .regs 10, .trl, .bil, .clo, .regs 1, .regs 3, .regs 8, .regs 11] : List Part))) ∧
  Leaves .holdoffExpire [.prl, .regs 16] ∧
  Leaves .probationExpire [.prl, .regs 16] ∧
  Leaves .drillAgeUpdate (Part.event ++ ([.regs 18] : List Part)) ∧
  (∀ a, Leaves (.standbySelftest a) (Part.event ++ ([.regs 4] : List Part))) ∧
  (∀ a b c, Leaves (.mirror a b c) (Part.event ++ ([.trl, .dst, .nfm, .zxp, .regs 1, .regs 3, .regs 4, .regs 10, .regs 13,
      .regs 18, .free, .key, .regs 11] : List Part))) ∧
  (∀ a b, Leaves (.digest a b) (Part.event ++ ([.regs 4] : List Part))) ∧
  (∀ a b, Leaves (.resync a b) (Part.event ++ ([.trl, .dst, .nfm, .zxp, .regs 1, .regs 3, .regs 4, .regs 10, .regs 13,
      .regs 18, .free, .key, .regs 11] : List Part))) ∧
  Leaves .resyncPhaseDone (Part.event ++ ([.regs 4, .regs 11] : List Part)) ∧
  (∀ a b c, Leaves (.command a b c) (Part.event ++ ([.free, .trl, .dst, .key, .nfm, .clo, .zxp, .regs 1, .regs 3, .regs 5,
      .regs 9, .regs 10, .regs 11, .regs 13, .regs 18, .eng, .fhm, .bil] : List Part))) ∧
  (∀ a b, Leaves (.forwardUp a b) (Part.event ++ ([.glb, .fhm, .eng, .regs 0, .regs 3, .regs 4, .free, .eth, .dst, .key,
      .clo, .regs 1, .regs 5, .regs 9, .regs 10, .regs 11, .trl, .zxp, .regs 8] : List Part))) ∧
  (∀ a b c e f, Leaves (.acceptNotice a b c e f) [.out, .fhm, .prl, .regs 16, .host, .free, .eth, .eng, .dur, .jnl, .regs 2, .regs 5, .regs 10, .regs 11, .regs 14, .regs 17]) ∧
  (∀ a b c e f, Leaves (.forwardDown a b c e f) [.out, .free, .eth, .fhm, .key, .prl, .regs 5, .regs 11, .regs 16]) ∧
  (∀ a b c, Leaves (.downConfirm a b c) (Part.event ++ ([.free, .eth, .fhm, .dst, .key, .regs 5, .regs 10,
      .regs 11] : List Part))) ∧
  (∀ a, Leaves (.runnerRetransmit a) (Part.event ++ ([.free, .trl, .eth, .fhm, .dst, .eng, .key, .clo, .zxp, .regs 1,
      .regs 3, .regs 4, .regs 5, .regs 6, .regs 9, .regs 10, .regs 11, .bil, .nfm] : List Part))) ∧
  (∀ a, Leaves (.runnerLinkDown a) (Part.event ++ ([.free, .trl, .eth, .fhm, .dst, .eng, .key, .clo, .zxp, .regs 1, .regs 3,
      .regs 4, .regs 5, .regs 6, .regs 9, .regs 10, .regs 11, .bil, .nfm] : List Part))) ∧
  (∀ a, Leaves (.runnerLinkUp a) Part.event)

/-- A step runs the command at the front of the queue, with the rest of the queue; on an empty queue a CORE_CLK cycle
passes, which is the model's choice (log entry 1). -/
def Obligations.StepRunsTheFrontCommand : Prop :=
  (∀ (s : State) (c : Instr) (cs : List Instr), s.pending = c :: cs → step s = exec c { s with pending := cs }) ∧
  (∀ s : State, s.pending = [] → step s = .next { s with dev := s.dev.tick })

/-- Reset: nothing waits, nothing has left the device, the invariant holds, and registers hold the reset values of the
register tables. -/
def Obligations.ResetStartsTheBlock : Prop :=
  State.reset.pending = [] ∧ State.reset.dev.face.out = [] ∧ State.reset.dev.Inv ∧
  State.reset.dev.reg R.GLB_ID.off = 0x961000B0#32 ∧
  State.reset.dev.reg R.GLB_RESET_CAUSE.off = 1#32 ∧
  State.reset.dev.reg R.FHM_CSMA.off = 0x3453#32 ∧
  State.reset.dev.reg R.FHM_LEAD.off = 0x140032#32 ∧
  State.reset.dev.reg (R.ZXP_TX_TIME.at 3) = 0x19000C8#32 ∧
  State.reset.dev.reg R.MSR_SHIFT.off = 0x16160D0D#32 ∧
  State.reset.dev.reg R.ING_TIMEOUT.off = 0x14000A#32 ∧
  State.reset.dev.reg R.CTX_PIN.off = 0x4000#32 ∧
  State.reset.dev.reg R.BIL_CLOSE.off = 900#32 ∧
  State.reset.dev.reg R.BAL_ZONE_PPM.off = 20000#32 ∧
  State.reset.dev.reg R.DST_LIMITS.off = 72#32 ∧
  State.reset.dev.reg R.TSU_UTC.off = 37#32 ∧
  State.reset.dev.reg (R.ETH_n_IP6_CFG.at 3) = 64#32 ∧
  State.reset.dev.reg R.NFM_PE_RATED.off = 3000#32 ∧
  State.reset.dev.reg R.JNL_CKPT.off = 0xF000FA0#32 ∧
  State.reset.dev.reg R.PRL_HOLDOFF.off = 600#32 ∧
  State.reset.dev.reg R.RNG_REQ_TIMEOUT.off = 7200#32 ∧
  State.reset.dev.reg R.HLT_WARN.off = 0x5A00B4#32

/-- From every state a step answers a next state: no command faults or is refused. It takes one command, keeps the
invariant, and only adds to what has left the device. -/
def Obligations.EveryStepCompletesAndKeepsTheInvariant : Prop :=
  ∀ s : State, ∃ t : State, step s = .next t ∧ t.pending = s.pending.tail ∧ (s.dev.Inv → t.dev.Inv) ∧
    ∃ l, t.dev.face.out = l ++ s.dev.face.out

/-- R37: only BIND_OWNER programs the owner fuses, with the hash of the live base's owner key, once; a second one returns
WRONG_OWNER. -/
def Obligations.OwnerFusesOnlyByBindOwner : Prop :=
  (∀ (s t : State) (c : Instr), c ≠ .bindOwner → exec c s = .next t → t.dev.trl.ownerFuse = s.dev.trl.ownerFuse) ∧
  (∀ s : State, s.dev.tick.trl.ownerFuse = s.dev.trl.ownerFuse) ∧
  (∀ s, s.dev.flag F.TRL_CMD_STATUS_BUSY = false → s.dev.trlState = Trl.structured ∨ s.dev.trlState = Trl.sealed →
      s.dev.trl.ownerFuse = none →
    Runs .bindOwner s fun d => d.trl.ownerFuse = some (Crypto.sha256 (beBytes 64 s.dev.trl.ownerKey)).toNat ∧
      d.get F.TRL_STATUS_OWNER_BOUND = 1 ∧ d.get F.TRL_CMD_STATUS_RESULT = Res.ok) ∧
  (∀ s h, s.dev.flag F.TRL_CMD_STATUS_BUSY = false → s.dev.trlState = Trl.structured ∨ s.dev.trlState = Trl.sealed →
      s.dev.trl.ownerFuse = some h →
    Runs .bindOwner s fun d => d.trl.ownerFuse = some h ∧ d.get F.TRL_CMD_STATUS_RESULT = Res.wrongOwner)

/-- R46: no command but those whose effect is a reset lifts the seal. R37, R38: on every command the owner fuses stay once
programmed and the security floor does not fall. -/
def Obligations.SealStaysExceptOnResets : Prop :=
  ∀ (s t : State) (c : Instr), exec c s = .next t → s.dev.trl.FusesLe t.dev.trl ∧ (s.dev.trl.sealed = true →
    (∀ a b, c ≠ .resetAssert a b) → c ≠ .thermalTrip → c ≠ .watchdogExpire → c ≠ .powerFailClear → (∀ a,
        c ≠ .faultCleared a) → c ≠ .hostBeat → c ≠ .resume → (∀ a, c ≠ .drbgReseed a) → t.dev.trl.sealed = true)

/-- R138: a coefficient is stored only in a bank that is neither active nor in a fade or a pending swap; any other write
is ignored and sets COEF_REFUSED. -/
def Obligations.CoefficientWritesOnlyToFreeBanks : Prop :=
  (∀ s v st bank i, st = s.dev.get F.MSR_COEF_SEL_STAGE → bank = s.dev.get F.MSR_COEF_SEL_BANK → i = s.dev.get
      F.MSR_COEF_SEL_INDEX → i < coefCount st → (∀ w, s.dev.msr.fade = some w → bitAt w.mask st = false) → (∀ w,
      s.dev.msr.pend = some w → bitAt w.mask st = false) → b2n (bitAt (s.dev.get F.MSR_STATUS_ACTIVE_BANK) st) ≠ bank
      → Runs (.msrCoefWrite v) s fun d => Maps.get? (128 * st + 64 * bank + i) d.msr.coefs = some (v.toNat % 2 ^ 24)) ∧
  (∀ s v w, b2n (bitAt (s.dev.get F.MSR_STATUS_ACTIVE_BANK) (s.dev.get F.MSR_COEF_SEL_STAGE)) = s.dev.get
      F.MSR_COEF_SEL_BANK ∨ ((s.dev.msr.fade = some w ∨ s.dev.msr.pend = some w) ∧ bitAt w.mask (s.dev.get
      F.MSR_COEF_SEL_STAGE) = true) → Runs (.msrCoefWrite v) s fun d => d.msr.coefs = s.dev.msr.coefs ∧ d.get
      F.MSR_INT_STATUS_COEF_REFUSED = 1)

/-- R112: the hardware limit forces ZXG low, whatever ZXP_TX_TIME holds, and counts a driver fault on the phase. -/
def Obligations.WatchdogForcesTheGateLow : Prop :=
  (∀ s f p, f < 4 → p < 3 → (s.dev.zxPhase f p).gate.isSome = true → Runs (.zxgWatchdog f p) s fun d => (d.zxPhase f
      p).gate = none ∧ (∃ l, d.face.out = l ++ .pin 2 (3 * f + p) false :: s.dev.face.out) ∧ (d.zxPhase f
      p).faults.head? = some s.dev.now ∧ d.reg (R.ZXP_CNT_n.at2 f 10) = BitVec.ofNat 32 (satNat 32 ((s.dev.reg
      (R.ZXP_CNT_n.at2 f 10)).toNat + 1)) ∧ d.get (F.ZXP_INT_STATUS_DRIVER_FAULT.at f) = 1)
end

