-- ==== Sys2Proof/Laws/Banks.lean ====
section
/-! SUPPORT. What reading a bank gives after replacing one of its members. -/

namespace Sys2Proof.Machine

variable {α : Type}

theorem Three.getD_set_same {b : Three α} {i : Nat} (h : i < 3) (x y : α) : (b.set i x).getD i y = x := by
  rcases i with _ | _ | _ | i <;> first | rfl | omega

theorem Three.getD_set_other {b : Three α} {i j : Nat} (h : j ≠ i) (x y : α) : (b.set i x).getD j y = b.getD j y := by
  rcases i with _ | _ | _ | i <;> rcases j with _ | _ | _ | j <;> first | rfl | omega

theorem Three.getD_map (b : Three α) (f : α → α) {i : Nat} (h : i < 3) (x y : α) : (b.map f).getD i x = f (b.getD i y) := by
  rcases i with _ | _ | _ | i <;> first | rfl | omega

theorem Four.getD_set_same {b : Four α} {i : Nat} (h : i < 4) (x y : α) : (b.set i x).getD i y = x := by
  rcases i with _ | _ | _ | _ | i <;> first | rfl | omega

theorem Four.getD_set_other {b : Four α} {i j : Nat} (h : j ≠ i) (x y : α) : (b.set i x).getD j y = b.getD j y := by
  rcases i with _ | _ | _ | _ | i <;> rcases j with _ | _ | _ | _ | j <;> first | rfl | omega

theorem Four.getD_map (b : Four α) (f : α → α) {i : Nat} (h : i < 4) (x y : α) : (b.map f).getD i x = f (b.getD i y) := by
  rcases i with _ | _ | _ | _ | i <;> first | rfl | omega

end Sys2Proof.Machine
end

