-- ==== Sys2Proof/Laws/Crypto.lean ====
section
/-! SUPPORT. Counter mode opens as it seals: the ciphertext of AES-GCM, enciphered again under its nonce, is the plaintext. -/

namespace Sys2Proof.Crypto

theorem xorBytes_length (a b : Bytes) : (xorBytes a b).length = min a.length b.length := by simp [xorBytes]

/-- A mask taken twice is gone, where it covers the bytes. -/
theorem xorBytes_twice : ∀ (a s : Bytes), a.length ≤ s.length → xorBytes (xorBytes a s) s = a
  | [], _, _ => by simp [xorBytes]
  | x :: a, y :: s, h => by
    have := xorBytes_twice a s (by simpa using h)
    simp only [xorBytes, List.zipWith_cons_cons] at this ⊢
    rw [this, BitVec.xor_assoc, BitVec.xor_self, BitVec.xor_zero]

theorem recordsOf_length (n : Nat) : ∀ (k : Nat) (b : Bytes), (recordsOf n k b).length = k
  | 0, _ => rfl
  | k + 1, b => by simp [recordsOf, recordsOf_length n k]

theorem recordsOf_each (n : Nat) : ∀ (k : Nat) (b : Bytes), k * n ≤ b.length → ∀ r ∈ recordsOf n k b, r.length = n
  | 0, _, _, r, h => by simp [recordsOf] at h
  | k + 1, b, hb, r, h => by
    rw [Nat.add_mul] at hb
    rcases List.mem_cons.1 (by simpa [recordsOf] using h) with h | h
    · subst h; simp; omega
    · exact recordsOf_each n k (b.drop n) (by simp; omega) r h

theorem leBytes_length : ∀ (n v : Nat), (leBytes n v).length = n
  | 0, _ => rfl
  | n + 1, v => by simp [leBytes, leBytes_length n]

theorem beBytes_length (n v : Nat) : (beBytes n v).length = n := by simp [beBytes, leBytes_length]

theorem expandFrom_length (nk : Nat) : ∀ (n : Nat) (rc : Byte) (ws : List Bytes), (expandFrom nk n rc ws).length = n + ws.length
  | 0, _, ws => by simp [expandFrom]
  | n + 1, rc, ws => by rw [expandFrom, expandFrom_length nk n]; simp; omega

/-- Every word of the key schedule has four bytes. -/
theorem expandFrom_each (nk : Nat) (hk : 0 < nk) : ∀ (n : Nat) (rc : Byte) (ws : List Bytes), nk ≤ ws.length →
    (∀ w ∈ ws, w.length = 4) → ∀ w ∈ expandFrom nk n rc ws, w.length = 4
  | 0, _, _, _, h, w, hw => h w (by simpa [expandFrom] using hw)
  | n + 1, rc, ws, hl, h, w, hw => by
    rw [expandFrom] at hw
    refine expandFrom_each nk hk n _ _ (by simp; omega) ?_ w hw
    intro v hv
    rcases List.mem_cons.1 hv with hv | hv
    · have hd : (ws.headD []).length = 4 := by
        cases ws with
        | nil => simp at hl; omega
        | cons x l => exact h x (by simp)
      have hg : (ws.getD (nk - 1) []).length = 4 := by
        have hlt : nk - 1 < ws.length := by omega
        rw [List.getD_eq_getElem?_getD, List.getElem?_eq_getElem hlt]
        exact h _ (List.getElem_mem hlt)
      subst hv
      rw [xorBytes_length, hg]
      generalize ws.headD [] = t at hd
      split
      · simp [xorBytes_length, hd]
      · split <;> simp [hd]
    · exact h v hv

theorem roundKeys_each (key : Bytes) (h : key.length = 16 ∨ key.length = 32) : ∀ k ∈ roundKeys key, k.length = 16 := by
  intro k hk
  simp only [roundKeys, List.mem_map, List.mem_range] at hk
  obtain ⟨r, hr, rfl⟩ := hk
  generalize hws : (expandFrom (key.length / 4) (4 * (key.length / 4 + 7) - key.length / 4) 1
    (recordsOf 4 (key.length / 4) key).reverse).reverse = ws
  have hlen : ws.length = 4 * (key.length / 4 + 7) := by
    rw [← hws, List.length_reverse, expandFrom_length, List.length_reverse, recordsOf_length]; omega
  have hall : ∀ w ∈ ws, w.length = 4 := by
    intro w hw
    rw [← hws, List.mem_reverse] at hw
    refine expandFrom_each _ (by omega) _ _ _ (by rw [List.length_reverse, recordsOf_length] <;> omega) ?_ w hw
    intro v hv
    exact recordsOf_each 4 _ key (by omega) v (List.mem_reverse.1 hv)
  have h4 : ∀ l : List Bytes, (∀ w ∈ l, w.length = 4) → l.flatten.length = 4 * l.length := by
    intro l
    induction l with
    | nil => simp
    | cons x l ih =>
      intro hl
      simp [ih fun w hw => hl w (by simp [hw]), hl x (by simp)]; omega
  rw [h4 _ fun w hw => hall w (List.mem_of_mem_drop (List.mem_of_mem_take hw))]
  simp; omega

theorem roundKeys_length (key : Bytes) : (roundKeys key).length = key.length / 4 + 7 := by simp [roundKeys]

theorem rounds_length : ∀ (ks : List Bytes) (s : Bytes), ks ≠ [] → (∀ k ∈ ks, k.length = 16) → (rounds ks s).length = 16
  | [], _, h, _ => absurd rfl h
  | [k], s, _, h => by simp [rounds, xorBytes_length, shiftRows, h k (by simp)]
  | k :: j :: ks, s, _, h => by
    rw [rounds]
    · exact rounds_length (j :: ks) _ (by simp) fun x hx => h x (by simp [List.mem_cons.1 hx])
    · simp

/-- AES gives 16 bytes. -/
theorem aesBlock_length (key b : Bytes) (h : key.length = 16 ∨ key.length = 32) : (aesBlock (roundKeys key) b).length = 16 := by
  refine rounds_length _ _ ?_ fun k hk => roundKeys_each key h k (List.mem_of_mem_tail hk)
  intro e
  have := congrArg List.length e
  simp [roundKeys_length] at this

/-- Counter mode block by block, from block `j` on. -/
def ctrFrom (f : Nat → Bytes) : Nat → Nat → Bytes → Bytes
  | _, 0, _ => []
  | j, n + 1, b => xorBytes (b.take 16) (f j) ++ ctrFrom f (j + 1) n (b.drop 16)

theorem ctrFrom_nil (f : Nat → Bytes) : ∀ (n j : Nat), ctrFrom f j n [] = []
  | 0, _ => rfl
  | n + 1, j => by simp [ctrFrom, xorBytes, ctrFrom_nil f n]

theorem ctrFrom_length (f : Nat → Bytes) (hf : ∀ i, (f i).length = 16) : ∀ (n j : Nat) (b : Bytes), b.length ≤ 16 * n →
    (ctrFrom f j n b).length = b.length
  | 0, _, b, h => by simp at h; simp [ctrFrom, h]
  | n + 1, j, b, h => by
    rw [ctrFrom, List.length_append, xorBytes_length, hf, ctrFrom_length f hf n (j + 1) (b.drop 16) (by simp; omega)]
    simp; omega

theorem ctrFrom_twice (f : Nat → Bytes) (hf : ∀ i, (f i).length = 16) : ∀ (n j : Nat) (b : Bytes), b.length ≤ 16 * n →
    ctrFrom f j n (ctrFrom f j n b) = b
  | 0, _, b, h => by simp at h; simp [ctrFrom, h]
  | n + 1, j, b, h => by
    have hx : (xorBytes (b.take 16) (f j)).length = min 16 b.length := by rw [xorBytes_length, hf, List.length_take]; omega
    have hy := ctrFrom_twice f hf n (j + 1) (b.drop 16) (by simp; omega)
    have hd : xorBytes (xorBytes (b.take 16) (f j)) (f j) = b.take 16 := xorBytes_twice _ _ (by rw [hf]; simp <;> omega)
    rw [ctrFrom, ctrFrom]
    by_cases hl : 16 ≤ b.length
    · rw [List.take_append_of_le_length (by omega), List.take_of_length_le (by omega), hd,
        List.drop_append_of_le_length (by omega), List.drop_of_length_le (by omega), List.nil_append, hy, List.take_append_drop]
    · have e : b.drop 16 = [] := List.drop_of_length_le (by omega)
      rw [e, ctrFrom_nil, List.append_nil, List.take_of_length_le (by omega), hd, List.drop_of_length_le (by omega), ctrFrom_nil,
        List.append_nil, List.take_of_length_le]; omega

theorem ctrMode_eq (rk : List Bytes) (ctr : Nat → Bytes) (b : Bytes) :
    ctrMode rk ctr b = ctrFrom (fun i => aesBlock rk (ctr i)) 0 ((b.length + 15) / 16) b := by
  have : ∀ (n j : Nat) (b : Bytes), (((recordsOf 16 n b).zipIdx j).map fun p => xorBytes p.1 (aesBlock rk (ctr p.2))).flatten =
      ctrFrom (fun i => aesBlock rk (ctr i)) j n b := by
    intro n
    induction n with
    | zero => intro j b; rfl
    | succ n ih => intro j b; simp [recordsOf, ctrFrom, ih, List.zipIdx_cons]
  exact this _ 0 b

/-- Counter mode twice gives the bytes back. -/
theorem ctrMode_twice (rk : List Bytes) (ctr : Nat → Bytes) (b : Bytes) (h : ∀ i, (aesBlock rk (ctr i)).length = 16) :
    ctrMode rk ctr (ctrMode rk ctr b) = b := by
  rw [ctrMode_eq, ctrMode_eq, ctrFrom_length _ h _ _ _ (by omega), ctrFrom_twice _ h _ _ _ (by omega)]

/-- R63: what AES-GCM seals it opens again, whatever else is authenticated. -/
theorem gcm_opens (k key nonce : Nat) (aad aad' p : Bytes) (hk : k = 16 ∨ k = 32) :
    (gcm k key nonce aad (gcm k key nonce aad' p).1).1 = p := by
  simp only [gcm]
  exact ctrMode_twice _ _ _ fun i => aesBlock_length _ _ (by simpa [beBytes_length] using hk)

/-- A ciphertext is as long as its plaintext. -/
theorem gcm_length (k key nonce : Nat) (aad p : Bytes) (hk : k = 16 ∨ k = 32) : (gcm k key nonce aad p).1.length = p.length := by
  simp only [gcm]
  rw [ctrMode_eq]
  exact ctrFrom_length _ (fun i => aesBlock_length _ _ (by simpa [beBytes_length] using hk)) _ _ _ (by omega)

end Sys2Proof.Crypto
end

