-- ==== Sys2Proof/Laws/Maps.lean ====
section
/-! SUPPORT. Sparse tables: a read after a write, and the canonical form every operation keeps. -/

namespace Sys2Proof.Maps

variable {α : Type}

theorem get?_del_same (k : Nat) (m : List (Nat × α)) : get? k (del k m) = none := by
  induction m with
  | nil => rfl
  | cons p m ih => obtain ⟨j, v⟩ := p; by_cases h : j = k <;> simp [del, get?, h, ih]

theorem get?_del_other {k k' : Nat} (h : k' ≠ k) (m : List (Nat × α)) : get? k' (del k m) = get? k' m := by
  induction m with
  | nil => rfl
  | cons p m ih =>
    obtain ⟨j, v⟩ := p
    by_cases e : j = k
    · subst e; simp [del, get?, ih, Ne.symm h]
    · by_cases e' : j = k' <;> simp_all [del, get?]

theorem get?_ins_other {k k' : Nat} (h : k' ≠ k) (v : α) (m : List (Nat × α)) : get? k' (ins k v m) = get? k' m := by
  induction m with
  | nil => simp [ins, get?, Ne.symm h]
  | cons p m ih =>
    obtain ⟨j, w⟩ := p
    unfold ins
    split
    · simp [get?, Ne.symm h]
    · by_cases e' : j = k' <;> simp [get?, e', ih]

theorem get?_ins_same (k : Nat) (v : α) (m : List (Nat × α)) (h : get? k m = none) : get? k (ins k v m) = some v := by
  induction m with
  | nil => simp [ins, get?]
  | cons p m ih =>
    obtain ⟨j, w⟩ := p
    unfold ins
    split
    · simp [get?]
    · by_cases e' : j = k <;> simp_all [get?]

@[simp] theorem get?_put_same (k : Nat) (v : α) (m : List (Nat × α)) : get? k (put m k v) = some v :=
  get?_ins_same k v _ (get?_del_same k m)

theorem get?_put_other {k k' : Nat} (h : k' ≠ k) (v : α) (m : List (Nat × α)) : get? k' (put m k v) = get? k' m := by
  rw [put, get?_ins_other h, get?_del_other h]

@[simp] theorem getD_put_same (m : List (Nat × α)) (k : Nat) (v d : α) : getD (put m k v) k d = v := by simp [getD]

theorem getD_put_other {k k' : Nat} (h : k' ≠ k) (m : List (Nat × α)) (v d : α) : getD (put m k v) k' d = getD m k' d := by
  simp [getD, get?_put_other h]

@[simp] theorem getD_del_same (m : List (Nat × α)) (k : Nat) (d : α) : getD (del k m) k d = d := by
  simp [getD, get?_del_same]

theorem getD_del_other {k k' : Nat} (h : k' ≠ k) (m : List (Nat × α)) (d : α) : getD (del k m) k' d = getD m k' d := by
  simp [getD, get?_del_other h]

theorem risingFrom_weaken {a b : Nat} (h : a ≤ b) {m : List (Nat × α)} (hm : risingFrom b m = true) : risingFrom a m = true := by
  cases m with
  | nil => rfl
  | cons p m => obtain ⟨j, v⟩ := p; simp [risingFrom] at *; exact ⟨by omega, hm.2⟩

theorem risingFrom_del {lo : Nat} (k : Nat) {m : List (Nat × α)} (hm : risingFrom lo m = true) : risingFrom lo (del k m) = true := by
  induction m generalizing lo with
  | nil => rfl
  | cons p m ih =>
    obtain ⟨j, v⟩ := p
    simp only [risingFrom, Bool.and_eq_true, decide_eq_true_eq] at hm
    unfold del
    split
    · exact risingFrom_weaken (by omega) (ih hm.2)
    · simp [risingFrom, hm.1, ih hm.2]

theorem risingFrom_ins {lo k : Nat} (v : α) {m : List (Nat × α)} (hk : lo ≤ k) (hn : get? k m = none)
    (hm : risingFrom lo m = true) : risingFrom lo (ins k v m) = true := by
  induction m generalizing lo with
  | nil => simp [ins, risingFrom, hk]
  | cons p m ih =>
    obtain ⟨j, w⟩ := p
    simp only [risingFrom, Bool.and_eq_true, decide_eq_true_eq] at hm
    have hj : j ≠ k := by rintro rfl; simp [get?] at hn
    have hn' : get? k m = none := by simpa [get?, hj] using hn
    unfold ins
    split
    · simp [risingFrom, hk, hm.2]; omega
    · simp [risingFrom, hm.1]; exact ih (by omega) hn' hm.2

theorem rising_put {k : Nat} (v : α) {m : List (Nat × α)} (hm : rising m = true) : rising (put m k v) = true :=
  risingFrom_ins v (Nat.zero_le k) (get?_del_same k m) (risingFrom_del k hm)

theorem rising_del (k : Nat) {m : List (Nat × α)} (hm : rising m = true) : rising (del k m) = true := risingFrom_del k hm

theorem risingFrom_filter {lo : Nat} (p : Nat × α → Bool) {m : List (Nat × α)} (hm : risingFrom lo m = true) :
    risingFrom lo (m.filter p) = true := by
  induction m generalizing lo with
  | nil => rfl
  | cons q m ih =>
    obtain ⟨j, v⟩ := q
    simp only [risingFrom, Bool.and_eq_true, decide_eq_true_eq] at hm
    rw [List.filter_cons]
    split
    · simp [risingFrom, hm.1, ih hm.2]
    · exact risingFrom_weaken (by omega) (ih hm.2)

theorem rising_filter (p : Nat × α → Bool) {m : List (Nat × α)} (hm : rising m = true) : rising (m.filter p) = true := risingFrom_filter p hm

theorem mem_of_mem_del {k : Nat} {p : Nat × α} {m : List (Nat × α)} (h : p ∈ del k m) : p ∈ m := by
  induction m with
  | nil => simp [del] at h
  | cons q m ih =>
    obtain ⟨j, v⟩ := q
    unfold del at h
    split at h
    · exact List.mem_cons_of_mem _ (ih h)
    · rcases List.mem_cons.1 h with h | h
      · exact h ▸ List.mem_cons_self
      · exact List.mem_cons_of_mem _ (ih h)

theorem mem_ins {k : Nat} {v : α} {p : Nat × α} {m : List (Nat × α)} (h : p ∈ ins k v m) : p = (k, v) ∨ p ∈ m := by
  induction m with
  | nil => simpa [ins] using h
  | cons q m ih =>
    obtain ⟨j, w⟩ := q
    unfold ins at h
    split at h
    · rcases List.mem_cons.1 h with h | h
      · exact .inl h
      · exact .inr h
    · rcases List.mem_cons.1 h with h | h
      · exact .inr (h ▸ List.mem_cons_self)
      · rcases ih h with h | h
        · exact .inl h
        · exact .inr (List.mem_cons_of_mem _ h)

/-- What an entry of the table is after a write: the one written, or one that stood there. -/
theorem mem_put {k : Nat} {v : α} {p : Nat × α} {m : List (Nat × α)} (h : p ∈ put m k v) : p = (k, v) ∨ p ∈ m :=
  (mem_ins h).imp_right mem_of_mem_del

/-- A read of a filtered table: an entry the filter keeps reads as before. -/
theorem get?_filter_keep {k : Nat} (p : Nat → Bool) (h : p k = true) (m : List (Nat × α)) :
    get? k (m.filter fun q => p q.1) = get? k m := by
  induction m with
  | nil => rfl
  | cons q m ih =>
    obtain ⟨j, v⟩ := q
    rw [List.filter_cons]
    by_cases e : j = k
    · subst e; simp [h, get?]
    · split <;> simp [get?, e, ih]

end Sys2Proof.Maps
end

