-- ==== Sys2Proof/Laws/Edits.lean ====
section
/-! SUPPORT. What an operation may do to the device, said once: `Edits m d d'` says that `d'` differs from `d` only in the
parts whose bit `m` sets, that the register store keeps its form, that output is only added, that the counter stays in
its range, that the vault keeps its form, that fuses only gain, that a seal stays unless bit 21 is set, and that the
owner fuses stay unless bit 22 is set. Every operation has one lemma of this
form; frames and invariants follow from it. -/

set_option Elab.async false

namespace Sys2Proof.Machine

/-- The bit of a part in a mask. -/
def Part.bit : Part → Nat
  | .regs b => 32 + b
  | .host => 0
  | .out => 1
  | .cycles => 2
  | .free => 3
  | .lastRead => 4
  | .glb => 5
  | .trl => 6
  | .tsu => 7
  | .eth => 8
  | .fhm => 9
  | .dst => 10
  | .eng => 11
  | .bil => 12
  | .key => 13
  | .dur => 14
  | .jnl => 15
  | .nfm => 16
  | .clo => 17
  | .prl => 18
  | .zxp => 19
  | .msr => 20

/-- The bit of a register: that of its 64 KiB block, but PRL_STATUS has bit 31 of its own, so that the pair state is seen to
last through the Runner counters and the mirror's registers. -/
def regBit (off : Nat) : Nat := if off = 0x100004 then 31 else 32 + off / 65536

/-- The mask covers every register of an array: its block's bit, and in the PRL block PRL_STATUS too. -/
def atOk (m off : Nat) : Bool := m.testBit (32 + off / 65536) && (off / 65536 != 16 || m.testBit 31)

theorem regBit_at {m off off' : Nat} (e : off' / 65536 = off / 65536) (h : atOk m off = true) : m.testBit (regBit off') = true := by
  rw [atOk, Bool.and_eq_true, Bool.or_eq_true] at h
  unfold regBit
  split
  · subst_vars
    exact h.2.resolve_left (by simp [← e])
  · rw [e]; exact h.1

theorem atOk_of {m off b : Nat} (e : off / 65536 = b) (hb : b ≠ 16) (h : m.testBit (32 + b) = true) : atOk m off = true := by
  simp [atOk, e, hb, h]

/-- What an operation on the face may do. -/
structure FEdits (m : Nat) (f f' : Face) : Prop where
  regs : ∀ off, off < 4194304 → m.testBit (regBit off) = true ∨ f'.reg off = f.reg off
  canon : f.canonical = true → f'.canonical = true
  host : m.testBit 0 = true ∨ f'.hst = f.hst
  out : m.testBit 1 = true ∨ f'.out = f.out
  grows : ∃ l, f'.out = l ++ f.out

/-- What an operation on the device may do. -/
structure Edits (m : Nat) (d d' : Dev) : Prop where
  face : FEdits m d.face d'.face
  cycles : m.testBit 2 = true ∨ d'.cycles = d.cycles
  free : m.testBit 3 = true ∨ d'.free = d.free
  lastRead : m.testBit 4 = true ∨ d'.lastRead = d.lastRead
  glb : m.testBit 5 = true ∨ d'.glb = d.glb
  trl : m.testBit 6 = true ∨ d'.trl = d.trl
  tsu : m.testBit 7 = true ∨ d'.tsu = d.tsu
  eth : m.testBit 8 = true ∨ d'.eth = d.eth
  fhm : m.testBit 9 = true ∨ d'.fhm = d.fhm
  dst : m.testBit 10 = true ∨ d'.dst = d.dst
  eng : m.testBit 11 = true ∨ d'.eng = d.eng
  bil : m.testBit 12 = true ∨ d'.bil = d.bil
  key : m.testBit 13 = true ∨ d'.key = d.key
  dur : m.testBit 14 = true ∨ d'.dur = d.dur
  jnl : m.testBit 15 = true ∨ d'.jnl = d.jnl
  nfm : m.testBit 16 = true ∨ d'.nfm = d.nfm
  clo : m.testBit 17 = true ∨ d'.clo = d.clo
  prl : m.testBit 18 = true ∨ d'.prl = d.prl
  zxp : m.testBit 19 = true ∨ d'.zxp = d.zxp
  msr : m.testBit 20 = true ∨ d'.msr = d.msr
  time : d.tsu.inRange = true → d'.tsu.inRange = true
  vault : Maps.rising d.clo.vault = true → Maps.rising d'.clo.vault = true
  fuses : d.trl.FusesLe d'.trl
  sealed : m.testBit 21 = true ∨ (d.trl.sealed = true → d'.trl.sealed = true)
  owner : m.testBit 22 = true ∨ d'.trl.ownerFuse = d.trl.ownerFuse

/-! ## Masks -/

theorem sub_bit {m t : Nat} (h : Nat.land m t = t) {i : Nat} (hi : t.testBit i = true) : m.testBit i = true := by
  have : (m &&& t).testBit i = true := by rw [show m &&& t = t from h]; exact hi
  rw [Nat.testBit_and] at this
  exact (Bool.and_eq_true_iff.1 this).1

theorem atOk_sub {m t off : Nat} (h : Nat.land m t = t) (ht : atOk t off = true) : atOk m off = true := by
  rw [atOk, Bool.and_eq_true, Bool.or_eq_true] at *
  exact ⟨sub_bit h ht.1, ht.2.imp_right (sub_bit h)⟩

theorem sub_refl (m : Nat) : Nat.land m m = m := Nat.and_self m

/-! ## The face -/

theorem FEdits.refl {m : Nat} (f : Face) : FEdits m f f :=
  ⟨fun _ _ => .inr rfl, id, .inr rfl, .inr rfl, [], rfl⟩

theorem or_trans {α : Type} {b : Prop} {x y z : α} (h : b ∨ y = x) (h' : b ∨ z = y) : b ∨ z = x := by
  rcases h with h | h
  · exact .inl h
  · rcases h' with h' | h'
    · exact .inl h'
    · exact .inr (h'.trans h)

theorem FEdits.trans {m : Nat} {f f' f'' : Face} (h : FEdits m f f') (h' : FEdits m f' f'') : FEdits m f f'' :=
  ⟨fun off ho => or_trans (h.regs off ho) (h'.regs off ho), h'.canon ∘ h.canon, or_trans h.host h'.host, or_trans h.out h'.out, by
    obtain ⟨l, e⟩ := h.grows
    obtain ⟨l', e'⟩ := h'.grows
    exact ⟨l' ++ l, by rw [e', e, List.append_assoc]⟩⟩

theorem FEdits.mono {m t : Nat} {f f' : Face} (h : FEdits t f f') (hm : Nat.land m t = t := by decide) : FEdits m f f' :=
  ⟨fun off ho => (h.regs off ho).imp_left (sub_bit hm), h.canon, h.host.imp_left (sub_bit hm), h.out.imp_left (sub_bit hm), h.grows⟩

theorem FEdits.andThen {m t : Nat} {f f' f'' : Face} (h : FEdits m f f') (h' : FEdits t f' f'') (hm : Nat.land m t = t := by decide) :
    FEdits m f f'' := h.trans (h'.mono hm)

/-! ## The device -/

theorem Edits.refl {m : Nat} (d : Dev) : Edits m d d := by
  constructor <;> first | exact FEdits.refl _ | exact .inr rfl | exact id | exact ⟨fun _ h => h, Nat.le_refl _⟩ | exact .inr fun h => h

theorem Edits.trans {m : Nat} {d d' d'' : Dev} (h : Edits m d d') (h' : Edits m d' d'') : Edits m d d'' where
  face := h.face.trans h'.face
  cycles := or_trans h.cycles h'.cycles
  free := or_trans h.free h'.free
  lastRead := or_trans h.lastRead h'.lastRead
  glb := or_trans h.glb h'.glb
  trl := or_trans h.trl h'.trl
  tsu := or_trans h.tsu h'.tsu
  eth := or_trans h.eth h'.eth
  fhm := or_trans h.fhm h'.fhm
  dst := or_trans h.dst h'.dst
  eng := or_trans h.eng h'.eng
  bil := or_trans h.bil h'.bil
  key := or_trans h.key h'.key
  dur := or_trans h.dur h'.dur
  jnl := or_trans h.jnl h'.jnl
  nfm := or_trans h.nfm h'.nfm
  clo := or_trans h.clo h'.clo
  prl := or_trans h.prl h'.prl
  zxp := or_trans h.zxp h'.zxp
  msr := or_trans h.msr h'.msr
  time := h'.time ∘ h.time
  vault := h'.vault ∘ h.vault
  fuses := ⟨fun x e => h'.fuses.owner x (h.fuses.owner x e), Nat.le_trans h.fuses.floor h'.fuses.floor⟩
  sealed := by
    rcases h.sealed with e | e
    · exact .inl e
    · exact h'.sealed.imp_right fun e' => e' ∘ e
  owner := or_trans h.owner h'.owner

theorem Edits.mono {m t : Nat} {d d' : Dev} (h : Edits t d d') (hm : Nat.land m t = t := by decide) : Edits m d d' where
  face := h.face.mono hm
  cycles := h.cycles.imp_left (sub_bit hm)
  free := h.free.imp_left (sub_bit hm)
  lastRead := h.lastRead.imp_left (sub_bit hm)
  glb := h.glb.imp_left (sub_bit hm)
  trl := h.trl.imp_left (sub_bit hm)
  tsu := h.tsu.imp_left (sub_bit hm)
  eth := h.eth.imp_left (sub_bit hm)
  fhm := h.fhm.imp_left (sub_bit hm)
  dst := h.dst.imp_left (sub_bit hm)
  eng := h.eng.imp_left (sub_bit hm)
  bil := h.bil.imp_left (sub_bit hm)
  key := h.key.imp_left (sub_bit hm)
  dur := h.dur.imp_left (sub_bit hm)
  jnl := h.jnl.imp_left (sub_bit hm)
  nfm := h.nfm.imp_left (sub_bit hm)
  clo := h.clo.imp_left (sub_bit hm)
  prl := h.prl.imp_left (sub_bit hm)
  zxp := h.zxp.imp_left (sub_bit hm)
  msr := h.msr.imp_left (sub_bit hm)
  time := h.time
  vault := h.vault
  fuses := h.fuses
  sealed := h.sealed.imp_left (sub_bit hm)
  owner := h.owner.imp_left (sub_bit hm)

/-- One operation after others. -/
theorem Edits.andThen {m t : Nat} {d d' d'' : Dev} (h : Edits m d d') (h' : Edits t d' d'') (hm : Nat.land m t = t := by decide) :
    Edits m d d'' := h.trans (h'.mono hm)

theorem Tsu.inRange_iff {t : Tsu} : t.inRange = true ↔ t.ns < 1000000000 ∧ t.frac < 2 ^ 32 := by
  rw [Tsu.inRange, Bool.and_eq_true, decide_eq_true_iff, decide_eq_true_iff]

theorem Tsu.inRange_setNs {t : Tsu} (n : Int) (h : t.inRange = true) : (t.setNs n).inRange = true :=
  Tsu.inRange_iff.2 ⟨Nat.mod_lt _ (by omega), (Tsu.inRange_iff.1 h).2⟩

theorem Tsu.inRange_advance (t : Tsu) (a : Nat) : (t.advance a).inRange = true :=
  Tsu.inRange_iff.2 ⟨Nat.mod_lt _ (by omega), Nat.mod_lt _ (by omega)⟩

/-- A change of named components of a device already reached. -/
theorem Edits.upd {m : Nat} {d₀ d : Dev} {face : Face} {cycles free : Nat} {lastRead : Word} {glb : Glb} {trl : TrlRt} {tsu : Tsu}
    {eth : List (Nat × EthPort)} {fhm : Fhm} {dst : Dst} {eng : Engine} {bil : BilRt} {key : KeyBlk} {dur : Dur}
    {jnl : Journal} {nfm : Nand} {clo : Clo} {prl : Prl} {zxp : Zxp} {msr : Msr}
    (hcycles : cycles = d.cycles ∨ m.testBit 2 = true := by first | with_reducible exact .inl rfl | exact .inr (by decide))
    (hfree : free = d.free ∨ m.testBit 3 = true := by first | with_reducible exact .inl rfl | exact .inr (by decide))
    (hlastRead : lastRead = d.lastRead ∨ m.testBit 4 = true := by first | with_reducible exact .inl rfl | exact .inr (by decide))
    (hglb : glb = d.glb ∨ m.testBit 5 = true := by first | with_reducible exact .inl rfl | exact .inr (by decide))
    (heth : eth = d.eth ∨ m.testBit 8 = true := by first | with_reducible exact .inl rfl | exact .inr (by decide))
    (hfhm : fhm = d.fhm ∨ m.testBit 9 = true := by first | with_reducible exact .inl rfl | exact .inr (by decide))
    (hdst : dst = d.dst ∨ m.testBit 10 = true := by first | with_reducible exact .inl rfl | exact .inr (by decide))
    (heng : eng = d.eng ∨ m.testBit 11 = true := by first | with_reducible exact .inl rfl | exact .inr (by decide))
    (hbil : bil = d.bil ∨ m.testBit 12 = true := by first | with_reducible exact .inl rfl | exact .inr (by decide))
    (hkey : key = d.key ∨ m.testBit 13 = true := by first | with_reducible exact .inl rfl | exact .inr (by decide))
    (hdur : dur = d.dur ∨ m.testBit 14 = true := by first | with_reducible exact .inl rfl | exact .inr (by decide))
    (hjnl : jnl = d.jnl ∨ m.testBit 15 = true := by first | with_reducible exact .inl rfl | exact .inr (by decide))
    (hnfm : nfm = d.nfm ∨ m.testBit 16 = true := by first | with_reducible exact .inl rfl | exact .inr (by decide))
    (hprl : prl = d.prl ∨ m.testBit 18 = true := by first | with_reducible exact .inl rfl | exact .inr (by decide))
    (hzxp : zxp = d.zxp ∨ m.testBit 19 = true := by first | with_reducible exact .inl rfl | exact .inr (by decide))
    (hmsr : msr = d.msr ∨ m.testBit 20 = true := by first | with_reducible exact .inl rfl | exact .inr (by decide))
    (htsu : tsu = d.tsu ∨ m.testBit 7 = true ∧ (d.tsu.inRange = true → tsu.inRange = true) := by
      first | with_reducible exact .inl rfl | with_unfolding_all exact .inr ⟨by decide, fun h => h⟩ | exact .inr ⟨by decide, Tsu.inRange_setNs _⟩)
    (hclo : clo = d.clo ∨ m.testBit 17 = true ∧ (Maps.rising d.clo.vault = true → Maps.rising clo.vault = true) := by
      first
        | with_reducible exact .inl rfl
        | with_unfolding_all exact .inr ⟨by decide, fun h => h⟩
        | exact .inr ⟨by decide, Maps.rising_put _⟩
        | exact .inr ⟨by decide, Maps.rising_del _⟩
        | exact .inr ⟨by decide, Maps.rising_filter _⟩
        | exact .inr ⟨by decide, fun _ => rfl⟩)
    (htrl : trl = d.trl ∨ m.testBit 6 = true ∧ d.trl.FusesLe trl ∧ (d.trl.sealed = true → trl.sealed = true) ∧
      (m.testBit 22 = true ∨ trl.ownerFuse = d.trl.ownerFuse) := by
      first
        | with_reducible exact .inl rfl
        | with_unfolding_all exact .inr ⟨by decide, ⟨fun _ h => h, Nat.le_refl _⟩, fun h => h, .inr rfl⟩
        | with_unfolding_all exact .inr ⟨by decide, ⟨fun _ h => h, Nat.le_refl _⟩, fun _ => rfl, .inr rfl⟩)
    (hface : FEdits m d.face face := by
      first | with_reducible exact FEdits.refl _ | with_unfolding_all exact ⟨fun _ _ => .inr rfl, fun h => h, .inl (by decide), .inr rfl, [], rfl⟩)
    (h : Edits m d₀ d) :
    Edits m d₀ { face, cycles, free, lastRead, glb, trl, tsu, eth, fhm, dst, eng, bil, key, dur, jnl, nfm, clo, prl, zxp, msr } := by
  refine h.trans (Edits.mk hface hcycles.symm hfree.symm hlastRead.symm hglb.symm (by rcases htrl with e | e; exacts [.inr e, .inl e.1]) (by rcases htsu with e | e; exacts [.inr e, .inl e.1]) heth.symm hfhm.symm hdst.symm heng.symm hbil.symm hkey.symm hdur.symm hjnl.symm hnfm.symm (by rcases hclo with e | e; exacts [.inr e, .inl e.1]) hprl.symm hzxp.symm hmsr.symm ?_ ?_ ?_ ?_ ?_)
  · rcases htsu with e | e
    · simp [e]
    · exact e.2
  · rcases hclo with e | e
    · simp [e]
    · exact e.2
  · rcases htrl with e | e
    · exact ⟨fun _ h => by rw [e]; exact h, by rw [e]⟩
    · exact e.2.1
  · rcases htrl with e | e
    · exact .inr (by simp [e])
    · exact .inr e.2.2.1
  · rcases htrl with e | e
    · exact .inr (by rw [e])
    · exact e.2.2.2

/-- A change of the face of a device already reached. -/
theorem Edits.updFace {m : Nat} {d₀ d : Dev} {f : Face} (hf : FEdits m d.face f) (h : Edits m d₀ d) :
    Edits m d₀ { d with face := f } := Edits.upd (hface := hf) (h := h)

theorem Edits.foldl {α : Type} {m : Nat} {d₀ : Dev} (g : Dev → α → Dev) (hg : ∀ d a, Edits m d₀ d → Edits m d₀ (g d a)) (l : List α) :
    ∀ {d : Dev}, Edits m d₀ d → Edits m d₀ (l.foldl g d) := by
  induction l with
  | nil => exact id
  | cons a l ih => exact fun h => ih (hg _ _ h)

theorem Edits.elim {α : Type} {m : Nat} {d₀ x : Dev} {o : Option α} {f : α → Dev} (h : Edits m d₀ x) (hf : ∀ a, Edits m d₀ (f a)) :
    Edits m d₀ (o.elim x f) := by
  cases o with
  | none => exact h
  | some a => exact hf a

theorem Edits.ite {m : Nat} {d₀ x y : Dev} {c : Prop} [Decidable c] (h : c → Edits m d₀ x) (h' : ¬c → Edits m d₀ y) :
    Edits m d₀ (if c then x else y) := by
  split
  · exact h ‹_›
  · exact h' ‹_›

theorem Edits.getD {m : Nat} {d₀ x : Dev} {o : Option Dev} (hf : ∀ y, o = some y → Edits m d₀ y) (h : Edits m d₀ x) :
    Edits m d₀ (o.getD x) := by
  cases o with
  | none => exact h
  | some a => exact hf a rfl

theorem FEdits.foldl {α : Type} {m : Nat} {f₀ : Face} (g : Face → α → Face) (hg : ∀ f a, FEdits m f₀ f → FEdits m f₀ (g f a))
    (l : List α) : ∀ {f : Face}, FEdits m f₀ f → FEdits m f₀ (l.foldl g f) := by
  induction l with
  | nil => exact id
  | cons a l ih => exact fun h => ih (hg _ _ h)

/-! ## Frames -/

/-- The bits of a part. -/
def Part.bits (p : Part) : Nat := 2 ^ p.bit ||| (if p = .regs 16 then 2 ^ 31 else 0)

/-- The mask of a list of parts. -/
def Part.mask (ps : List Part) : Nat := ps.foldr (fun p a => p.bits ||| a) 0

theorem Part.bit_inj {p q : Part} (h : p.bit = q.bit) : p = q := by
  cases p <;> cases q <;> simp only [Part.bit] at h <;> first | rfl | (exfalso; omega) | (congr 1; omega)

theorem Part.bit_ne (p : Part) : p.bit ≠ 31 := by
  cases p <;> simp only [Part.bit] <;> omega

theorem Part.testBit_bits {p : Part} {k : Nat} (h : p.bits.testBit k = true) : k = p.bit ∨ k = 31 ∧ p = .regs 16 := by
  simp only [Part.bits, Nat.testBit_or, Bool.or_eq_true, Nat.testBit_two_pow, decide_eq_true_eq] at h
  rcases h with h | h
  · exact .inl h.symm
  · split at h
    · rename_i e
      simp only [Nat.testBit_two_pow, decide_eq_true_eq] at h
      exact .inr ⟨h.symm, e⟩
    · simp at h

theorem Part.testBit_mask {ps : List Part} {k : Nat} (h : (Part.mask ps).testBit k = true) : ∃ p ∈ ps, k = p.bit ∨ k = 31 ∧ p = .regs 16 := by
  induction ps with
  | nil => simp [Part.mask] at h
  | cons q ps ih =>
    simp only [Part.mask, List.foldr_cons, Nat.testBit_or, Bool.or_eq_true] at h
    rcases h with h | h
    · exact ⟨q, List.mem_cons_self, Part.testBit_bits h⟩
    · obtain ⟨p, hp, e⟩ := ih h
      exact ⟨p, List.mem_cons_of_mem _ hp, e⟩

/-- The frame of an operation: every part outside the mask is as before. -/
theorem Edits.sameBut {m : Nat} {d d' : Dev} (h : Edits m d d') (ps : List Part) (hm : Nat.land (Part.mask ps) m = m := by decide) :
    d.sameBut ps d' := by
  intro p hp
  have hb : ∀ k, k = p.bit → ¬ m.testBit k = true := fun k hk e => by
    obtain ⟨q, hq, e' | e'⟩ := Part.testBit_mask (sub_bit hm e)
    · exact hp (Part.bit_inj (e'.symm.trans hk) ▸ hq)
    · exact Part.bit_ne p (hk.symm.trans e'.1)
  cases p with
  | regs b =>
    refine fun off h₄ ho => (h.face.regs off h₄).resolve_left ?_
    unfold regBit
    split
    · intro e
      obtain ⟨q, hq, e' | e'⟩ := Part.testBit_mask (sub_bit hm e)
      · exact Part.bit_ne q e'.symm
      · obtain rfl : b = 16 := by subst_vars; rfl
        exact hp (e'.2 ▸ hq)
    · exact hb _ (by simp [Part.bit, ho])
  | host => exact h.face.host.resolve_left (hb _ rfl)
  | out => exact h.face.out.resolve_left (hb _ rfl)
  | cycles => exact h.cycles.resolve_left (hb _ rfl)
  | free => exact h.free.resolve_left (hb _ rfl)
  | lastRead => exact h.lastRead.resolve_left (hb _ rfl)
  | glb => exact h.glb.resolve_left (hb _ rfl)
  | trl => exact h.trl.resolve_left (hb _ rfl)
  | tsu => exact h.tsu.resolve_left (hb _ rfl)
  | eth => exact h.eth.resolve_left (hb _ rfl)
  | fhm => exact h.fhm.resolve_left (hb _ rfl)
  | dst => exact h.dst.resolve_left (hb _ rfl)
  | eng => exact h.eng.resolve_left (hb _ rfl)
  | bil => exact h.bil.resolve_left (hb _ rfl)
  | key => exact h.key.resolve_left (hb _ rfl)
  | dur => exact h.dur.resolve_left (hb _ rfl)
  | jnl => exact h.jnl.resolve_left (hb _ rfl)
  | nfm => exact h.nfm.resolve_left (hb _ rfl)
  | clo => exact h.clo.resolve_left (hb _ rfl)
  | prl => exact h.prl.resolve_left (hb _ rfl)
  | zxp => exact h.zxp.resolve_left (hb _ rfl)
  | msr => exact h.msr.resolve_left (hb _ rfl)

end Sys2Proof.Machine
end

