-- ==== Sys2Proof/Laws/Face.lean ====
section
/-! SUPPORT. The operations on the face: what a register reads after a write, and what each operation may do. -/

set_option Elab.async false

namespace Sys2Proof

/-! ## Offsets -/

theorem inBlock_block (off k : Nat) : inBlock off k / 65536 = off / 65536 := by unfold inBlock; omega

theorem Fld.at_block (x : Fld) (i : Nat) : (x.at i).off / 65536 = x.off / 65536 := inBlock_block _ _

theorem Fld.at2_block (x : Fld) (i j : Nat) : (x.at2 i j).off / 65536 = x.off / 65536 := inBlock_block _ _

theorem RegD.at_block (r : RegD) (i : Nat) : r.at i / 65536 = r.off / 65536 := inBlock_block _ _

theorem RegD.at2_block (r : RegD) (i j : Nat) : r.at2 i j / 65536 = r.off / 65536 := inBlock_block _ _

namespace Machine

/-! ## A register after a write -/

@[simp] theorem Face.reg_setReg_same (f : Face) (off : Nat) (w : Word) : (f.setReg off w).reg off = w := by
  unfold Face.setReg Face.reg
  split
  · simp [*]
  · simp

theorem Face.reg_setReg_other {o off : Nat} (h : o ≠ off) (f : Face) (w : Word) : (f.setReg off w).reg o = f.reg o := by
  unfold Face.setReg Face.reg
  split
  · simp [Maps.getD_del_other h]
  · simp [Maps.getD_put_other h]

theorem Face.canonical_setReg {f : Face} (off : Nat) (w : Word) (h : f.canonical = true) : (f.setReg off w).canonical = true := by
  simp only [Face.canonical, Bool.and_eq_true, List.all_eq_true, bne_iff_ne] at *
  unfold Face.setReg
  split
  · exact ⟨Maps.rising_del _ h.1, fun p hp => h.2 p (Maps.mem_of_mem_del hp)⟩
  · refine ⟨Maps.rising_put _ h.1, fun p hp => ?_⟩
    rcases Maps.mem_put hp with rfl | hp
    · assumption
    · exact h.2 p hp

theorem Face.canonical_filter {f : Face} {hst : HostIf} {out : List Out} {counted : List (Nat × Nat)} (p : Nat × Word → Bool)
    (h : f.canonical = true) : Face.canonical { regs := f.regs.filter p, hst := hst, out := out, counted := counted } = true := by
  simp only [Face.canonical, Bool.and_eq_true, List.all_eq_true] at *
  exact ⟨Maps.risingFrom_filter p h.1, fun q hq => h.2 q (List.mem_of_mem_filter hq)⟩

/-! ## What the operations may do -/

theorem Face.setReg_edits {m : Nat} {f₀ f : Face} {off : Nat} {w : Word}
    (hx : m.testBit (regBit off) = true := by decide)
    (h : FEdits m f₀ f) : FEdits m f₀ (f.setReg off w) :=
  h.trans ⟨fun o _ => by
      by_cases e : o = off
      · exact .inl (e ▸ hx)
      · exact .inr (Face.reg_setReg_other e f w),
    Face.canonical_setReg off w, .inr rfl, .inr rfl, [], rfl⟩

theorem Face.set_edits {m : Nat} {f₀ f : Face} {x : Fld} {v : Nat}
    (hx : m.testBit (regBit x.off) = true := by decide)
    (h : FEdits m f₀ f) : FEdits m f₀ (f.set x v) := Face.setReg_edits hx h

/-- A note of what a counter counts in this cycle is no part of the frame: only a clear reads it (R462). -/
theorem Face.note_edits {m : Nat} {f₀ f : Face} {off n : Nat} (h : FEdits m f₀ f) : FEdits m f₀ (f.note off n) :=
  h.trans ⟨fun _ _ => .inr rfl, id, .inr rfl, .inr rfl, [], rfl⟩

theorem Face.add_edits {m : Nat} {f₀ f : Face} {off n : Nat}
    (hx : m.testBit (regBit off) = true := by decide)
    (h : FEdits m f₀ f) : FEdits m f₀ (f.add off n) := Face.note_edits (Face.setReg_edits hx h)

theorem Face.clearCount_edits {m : Nat} {f₀ f : Face} {off : Nat}
    (hx : m.testBit (regBit off) = true := by decide)
    (h : FEdits m f₀ f) : FEdits m f₀ (f.clearCount off) := Face.setReg_edits hx h

theorem Face.set_at_edits {m : Nat} {f₀ f : Face} {x : Fld} {i v : Nat} (hx : atOk m x.off = true := by decide)
    (h : FEdits m f₀ f) : FEdits m f₀ (f.set (x.at i) v) := Face.set_edits (regBit_at (Fld.at_block _ _) hx) h

theorem Face.add_at_edits {m : Nat} {f₀ f : Face} {r : RegD} {i n : Nat} (hx : atOk m r.off = true := by decide)
    (h : FEdits m f₀ f) : FEdits m f₀ (f.add (r.at i) n) := Face.add_edits (regBit_at (RegD.at_block _ _) hx) h

theorem Face.add_at2_edits {m : Nat} {f₀ f : Face} {r : RegD} {i j n : Nat} (hx : atOk m r.off = true := by decide)
    (h : FEdits m f₀ f) : FEdits m f₀ (f.add (r.at2 i j) n) := Face.add_edits (regBit_at (RegD.at2_block _ _ _) hx) h

/-- A change of the rings, recorder and MSI-X alone. -/
theorem Face.hst_edits {m : Nat} {f₀ f : Face} {hst : HostIf} (hm : m.testBit 0 = true := by decide)
    (h : FEdits m f₀ f) : FEdits m f₀ { f with hst := hst } :=
  h.trans ⟨fun _ _ => .inr rfl, id, .inl hm, .inr rfl, [], rfl⟩

theorem Face.setW1c_edits {m : Nat} {f₀ f : Face} {c : Nat} {x : Fld} {v : Nat} (hx : m.testBit (regBit x.off) = true := by decide)
    (hm : m.testBit 0 = true := by decide) (h : FEdits m f₀ f) : FEdits m f₀ (f.setW1c c x v) :=
  Face.hst_edits hm (Face.set_edits hx h)

theorem Face.setW1c_at_edits {m : Nat} {f₀ f : Face} {c : Nat} {x : Fld} {i v : Nat} (hx : atOk m x.off = true := by decide)
    (hm : m.testBit 0 = true := by decide) (h : FEdits m f₀ f) : FEdits m f₀ (f.setW1c c (x.at i) v) :=
  Face.setW1c_edits (regBit_at (Fld.at_block _ _) hx) hm h

theorem Face.emit_edits {m : Nat} {f₀ f : Face} {o : Out} (hm : m.testBit 1 = true := by decide)
    (h : FEdits m f₀ f) : FEdits m f₀ (f.emit o) :=
  h.trans ⟨fun _ _ => .inr rfl, id, .inr rfl, .inl hm, [o], rfl⟩

theorem Face.setRing_edits {m : Nat} {f₀ f : Face} {n : Nat} {r : Ring} (hm : m.testBit 0 = true := by decide)
    (h : FEdits m f₀ f) : FEdits m f₀ (f.setRing n r) := Face.hst_edits hm h

/-- Registers taken back to their reset words. -/
theorem Face.filter_edits {m : Nat} {f₀ f : Face} (p : Nat → Bool)
    (hp : ∀ off, off < 4194304 → p off = false → m.testBit (regBit off) = true) (h : FEdits m f₀ f) :
    FEdits m f₀ { f with regs := f.regs.filter fun q => p q.1 } :=
  h.trans ⟨fun off ho => by
      cases e : p off
      · exact .inl (hp off ho e)
      · exact .inr (by simp [Face.reg, Maps.getD, Maps.get?_filter_keep p e]),
    Face.canonical_filter _, .inr rfl, .inr rfl, [], rfl⟩

theorem Face.message_edits {m : Nat} {f₀ f : Face} {e : Env} {v : Nat} (hm : Nat.land m 3 = 3 := by decide)
    (h : FEdits m f₀ f) : FEdits m f₀ (f.message e v) := by
  refine FEdits.andThen (t := 3) h ?_ hm
  unfold Face.message
  extract_lets
  repeat' split
  · exact Face.hst_edits rfl (FEdits.refl _)
  · exact FEdits.refl _
  · exact ⟨fun _ _ => .inr rfl, id, .inl rfl, .inl rfl, [_], rfl⟩

theorem Face.signal_edits {m : Nat} {f₀ f : Face} {e : Env} {n k : Nat} (hm : Nat.land m 3 = 3 := by decide)
    (h : FEdits m f₀ f) : FEdits m f₀ (f.signal e n k) := by
  refine FEdits.andThen (t := 3) h ?_ hm
  unfold Face.signal
  extract_lets r f' w
  split
  · exact Face.message_edits rfl (Face.setRing_edits rfl (FEdits.refl _))
  · exact Face.setRing_edits rfl (FEdits.refl _)

theorem Face.place_edits {m : Nat} {f₀ f : Face} {e : Env} {n : Nat} {b : Bool} {ws : List Word}
    (hm : Nat.land m 0x400000003 = 0x400000003 := by decide)
    (h : FEdits m f₀ f) : FEdits m f₀ (f.place e n b ws).1 := by
  refine FEdits.andThen (t := 0x400000003) h ?_ hm
  unfold Face.place
  extract_lets r len wr wr' kept lost f₁ f₂ f₃
  have h₂ : FEdits 0x400000003 f f₂ := Face.set_at_edits (h := Face.set_at_edits (h := Face.setRing_edits (h := FEdits.refl _)))
  have h₃ : FEdits 0x400000003 f f₃ := by
    show FEdits _ f (if lost then _ else _)
    split
    · exact Face.setW1c_at_edits (h := Face.set_at_edits (h := h₂))
    · exact h₂
  show FEdits _ f (if _ then f₃ else _)
  split
  · exact h₃
  · exact Face.signal_edits (h := h₃)

theorem Face.record_edits {m : Nat} {f₀ f : Face} {r : EvRec}
    (hm : Nat.land m 0x2000000000001 = 0x2000000000001 := by decide)
    (h : FEdits m f₀ f) : FEdits m f₀ (f.record r) := by
  refine FEdits.andThen (t := 0x2000000000001) h ?_ hm
  unfold Face.record
  extract_lets ev f₁
  have h₁ : FEdits 0x2000000000001 f f₁ := Face.add_at_edits (h := FEdits.refl _)
  split
  · exact Face.set_edits (h := Face.hst_edits (h := h₁))
  · exact Face.setReg_edits (h := Face.setReg_edits (h := Face.set_edits (h := Face.hst_edits (h := h₁))))

theorem Face.spill_edits {m : Nat} {f₀ f : Face} {e : Env} {r : EvRec}
    (hm : Nat.land m 0x2000000000001 = 0x2000000000001 := by decide)
    (h : FEdits m f₀ f) : FEdits m f₀ (f.spill e r) := by
  refine FEdits.andThen (t := 0x2000000000001) h ?_ hm
  unfold Face.spill
  split
  · exact FEdits.refl _
  · split
    · exact Face.hst_edits (h := FEdits.refl _)
    · exact Face.add_at_edits (h := Face.hst_edits (h := FEdits.refl _))

theorem Face.prune_edits {m : Nat} {f₀ f : Face} {e : Env} {ec : EventCode} {code : Nat}
    (hm : Nat.land m 0x2000000000001 = 0x2000000000001 := by decide)
    (h : FEdits m f₀ f) : FEdits m f₀ (f.prune e ec code).2 := by
  refine FEdits.andThen (t := 0x2000000000001) h ?_ hm
  unfold Face.prune
  extract_lets ev lvl sup f₁
  split
  · exact FEdits.refl _
  · split
    · exact Face.hst_edits (h := FEdits.refl _)
    · exact Face.add_at_edits (h := Face.hst_edits (h := FEdits.refl _))

theorem Face.setBit_edits {m : Nat} {f₀ f : Face} {e : Env} {x : Fld} (hx : m.testBit (regBit x.off) = true)
    (hm : Nat.land m 3 = 3 := by decide) (h : FEdits m f₀ f) : FEdits m f₀ (f.setBit e x) := by
  unfold Face.setBit
  extract_lets en f₁
  have h₁ : FEdits m f₀ f₁ := Face.setW1c_edits hx (sub_bit hm (by decide)) h
  split
  · exact Face.message_edits hm h₁
  · exact h₁

theorem sub_trans {m a b : Nat} (h : Nat.land m a = a) (h' : Nat.land a b = b) : Nat.land m b = b := by
  refine Nat.eq_of_testBit_eq fun i => ?_
  have : (m &&& b).testBit i = b.testBit i := by
    rw [Nat.testBit_and]
    cases hb : b.testBit i
    · simp
    · simp [sub_bit h (sub_bit h' hb)]
  exact this

/-- One event: the block of its own bit, the recorder, the rings and messages. -/
theorem Face.eventN_edits {m : Nat} {f₀ : Face} {e : Env} (hm : Nat.land m 0x2000400000003 = 0x2000400000003) (k : Nat) :
    ∀ {f : Face} {x : Option Fld} {code block a b : Nat} {kind : EvKind},
      (∀ y, x = some y → m.testBit (regBit y.off) = true) → FEdits m f₀ f →
        FEdits m f₀ (Face.eventN k f e x code block a b kind) := by
  have hm3 : Nat.land m 3 = 3 := sub_trans hm rfl
  have hmE : Nat.land m 0x2000000000001 = 0x2000000000001 := sub_trans hm rfl
  have hmR : Nat.land m 0x400000003 = 0x400000003 := sub_trans hm rfl
  have hE : m.testBit (32 + 17) = true := sub_bit hm rfl
  have hR : m.testBit (32 + 2) = true := sub_bit hm rfl
  have hbit : ∀ {f : Face} {x : Option Fld}, (∀ y, x = some y → m.testBit (regBit y.off) = true) →
      FEdits m f₀ f → FEdits m f₀ (x.elim f (f.setBit e)) := by
    intro f x hx h
    cases x with
    | none => exact h
    | some y => exact Face.setBit_edits (hx y rfl) hm3 h
  induction k with
  | zero => exact fun hx h => hbit hx h
  | succ k ih =>
    intro f x code block a b kind hx h
    unfold Face.eventN
    extract_lets ec f₁ xs r xm xd
    subst xs xm xd
    have h₁ : FEdits m f₀ f₁ := hbit hx h
    clear_value f₁
    have htake : ∀ {b : Bool} {f₂ : Face},
        (match kind with | .summary _ => (true, f₁.add (R.EVR_CNT_n.at 2) 1) | _ => f₁.prune e ec code) = (b, f₂) →
          FEdits m f₀ f₂ := by
      intro b f₂ heq
      cases kind with
      | summary s => cases heq; exact Face.add_edits (regBit_at (RegD.at_block _ _) (atOk_of (b := 17) rfl (by decide) hE)) h₁
      | own => have := Face.prune_edits (e := e) (ec := ec) (code := code) hmE h₁; rw [show f₁.prune e ec code = _ from heq] at this; exact this
      | partner => have := Face.prune_edits (e := e) (ec := ec) (code := code) hmE h₁; rw [show f₁.prune e ec code = _ from heq] at this; exact this
    split
    · rename_i f₂ heq
      have h₂ := htake heq
      split
      · exact Face.setBit_edits (sub_bit hm (by decide)) hm3 h₂
      · exact ih (by rintro _ ⟨⟩; exact sub_bit hm (by decide)) h₂
    · rename_i f₂ heq
      have h₂ := htake heq
      extract_lets +onlyGivenNames f₃
      have h₃ : FEdits m f₀ f₃ := Face.record_edits hmE h₂
      clear_value f₃
      split
      · exact h₃
      · rename_i r₃ _
        split
        · exact Face.hst_edits (sub_bit hm rfl) h₃
        · extract_lets +onlyGivenNames f₄
          have h₄ : FEdits m f₀ f₄ := by
            show FEdits m f₀ (if _ then _ else _)
            split
            · exact Face.message_edits hm3 h₃
            · exact h₃
          clear_value f₄
          extract_lets +onlyGivenNames f₅
          have h₅ : FEdits m f₀ f₅ := by
            show FEdits m f₀ (if _ then _ else _)
            split
            · exact Face.spill_edits hmE h₄
            · exact h₄
          clear_value f₅
          split
          · exact h₅
          · split
            · have hp := Face.place_edits (e := e) (n := ec.ring) (b := false) (ws := bytesToWords r₃.bytes) hmR h₅
              split
              · rename_i f₆ heq'; rw [heq'] at hp; exact hp
              · rename_i f₆ heq'; rw [heq'] at hp; exact ih (by rintro _ ⟨⟩; exact sub_bit hm (by decide)) hp
            · exact ih (by rintro _ ⟨⟩; exact sub_bit hm (by decide)) (Face.add_edits (regBit_at (RegD.at_block _ _) (atOk_of (b := 2) rfl (by decide) hR)) h₅)

end Machine
end Sys2Proof
end

