-- ==== Sys2Proof/Laws/Ops.lean ====
section
/-! SUPPORT. What the named operations over registers, counters and output may do, and what a register reads after one. -/

set_option Elab.async false

namespace Sys2Proof.Machine

variable {m : Nat} {d₀ d : Dev}

theorem Dev.setReg_edits {off : Nat} {w : Word}
    (hx : m.testBit (regBit off) = true := by decide)
    (h : Edits m d₀ d) : Edits m d₀ (d.setReg off w) := Edits.updFace (Face.setReg_edits hx (FEdits.refl _)) h

theorem Dev.set_edits {x : Fld} {v : Nat}
    (hx : m.testBit (regBit x.off) = true := by decide)
    (h : Edits m d₀ d) : Edits m d₀ (d.set x v) := Edits.updFace (Face.set_edits hx (FEdits.refl _)) h

theorem Dev.setSat_edits {x : Fld} {v : Int}
    (hx : m.testBit (regBit x.off) = true := by decide)
    (h : Edits m d₀ d) : Edits m d₀ (d.setSat x v) := Dev.set_edits hx h

theorem Dev.set_at_edits {x : Fld} {i : Nat} {v : Nat} (hx : atOk m x.off = true := by decide)
    (h : Edits m d₀ d) : Edits m d₀ (d.set (x.at i) v) := Dev.set_edits (regBit_at (Fld.at_block _ _) hx) h

theorem Dev.set_at2_edits {x : Fld} {i j : Nat} {v : Nat} (hx : atOk m x.off = true := by decide)
    (h : Edits m d₀ d) : Edits m d₀ (d.set (x.at2 i j) v) := Dev.set_edits (regBit_at (Fld.at2_block _ _ _) hx) h

theorem Dev.setSat_at_edits {x : Fld} {i : Nat} {v : Int} (hx : atOk m x.off = true := by decide)
    (h : Edits m d₀ d) : Edits m d₀ (d.setSat (x.at i) v) := Dev.setSat_edits (regBit_at (Fld.at_block _ _) hx) h

theorem Dev.setSat_at2_edits {x : Fld} {i j : Nat} {v : Int} (hx : atOk m x.off = true := by decide)
    (h : Edits m d₀ d) : Edits m d₀ (d.setSat (x.at2 i j) v) := Dev.setSat_edits (regBit_at (Fld.at2_block _ _ _) hx) h

theorem Dev.setReg_at_edits {r : RegD} {i : Nat} {w : Word} (hx : atOk m r.off = true := by decide)
    (h : Edits m d₀ d) : Edits m d₀ (d.setReg (r.at i) w) := Dev.setReg_edits (regBit_at (RegD.at_block _ _) hx) h

theorem Dev.setReg_at2_edits {r : RegD} {i j : Nat} {w : Word} (hx : atOk m r.off = true := by decide)
    (h : Edits m d₀ d) : Edits m d₀ (d.setReg (r.at2 i j) w) := Dev.setReg_edits (regBit_at (RegD.at2_block _ _ _) hx) h

theorem Dev.count_edits {r : RegD} {i : Nat} (hx : atOk m r.off = true := by decide)
    (h : Edits m d₀ d) : Edits m d₀ (d.count r i) :=
  Edits.updFace (Face.add_edits (regBit_at (RegD.at_block _ _) hx) (FEdits.refl _)) h

theorem Dev.count_lit_edits {r : RegD} {i : Nat} (hx : m.testBit (regBit (r.at i)) = true := by decide)
    (h : Edits m d₀ d) : Edits m d₀ (d.count r i) :=
  Edits.updFace (Face.add_edits hx (FEdits.refl _)) h

theorem Dev.setW1c_edits {x : Fld} {v : Nat} (hx : m.testBit (regBit x.off) = true := by decide)
    (hm : m.testBit 0 = true := by decide) (h : Edits m d₀ d) : Edits m d₀ (d.setW1c x v) :=
  Edits.updFace (Face.setW1c_edits hx hm (FEdits.refl _)) h

theorem Dev.setW1c_at_edits {x : Fld} {i v : Nat} (hx : atOk m x.off = true := by decide)
    (hm : m.testBit 0 = true := by decide) (h : Edits m d₀ d) : Edits m d₀ (d.setW1c (x.at i) v) :=
  Dev.setW1c_edits (regBit_at (Fld.at_block _ _) hx) hm h

theorem Dev.noteCount_edits {off n : Nat} (h : Edits m d₀ d) : Edits m d₀ (d.noteCount off n) :=
  Edits.updFace (Face.note_edits (FEdits.refl _)) h

theorem Dev.clearCount_edits {off : Nat} (hx : m.testBit (regBit off) = true := by decide)
    (h : Edits m d₀ d) : Edits m d₀ (d.clearCount off) := Edits.updFace (Face.clearCount_edits hx (FEdits.refl _)) h

theorem Dev.clearCount_at2_edits {r : RegD} {i j : Nat} (hx : atOk m r.off = true := by decide)
    (h : Edits m d₀ d) : Edits m d₀ (d.clearCount (r.at2 i j)) := Dev.clearCount_edits (regBit_at (RegD.at2_block _ _ _) hx) h

theorem Dev.countBy_edits {r : RegD} {i n : Nat} (hx : atOk m r.off = true := by decide)
    (h : Edits m d₀ d) : Edits m d₀ (d.countBy r i n) :=
  Edits.updFace (Face.add_edits (regBit_at (RegD.at_block _ _) hx) (FEdits.refl _)) h

theorem Dev.countBy_lit_edits {r : RegD} {i n : Nat} (hx : m.testBit (regBit (r.at i)) = true := by decide)
    (h : Edits m d₀ d) : Edits m d₀ (d.countBy r i n) :=
  Edits.updFace (Face.add_edits hx (FEdits.refl _)) h

theorem Dev.setWide_edits {lo hi : RegD} {i v : Nat} (hx : atOk m lo.off = true := by decide)
    (hy : atOk m hi.off = true := by decide) (h : Edits m d₀ d) : Edits m d₀ (d.setWide lo hi i v) :=
  Dev.setReg_edits (regBit_at (RegD.at_block _ _) hy) (Dev.setReg_edits (regBit_at (RegD.at_block _ _) hx) h)

theorem Dev.setWide_lit_edits {lo hi : RegD} {i v : Nat} (hx : m.testBit (regBit (lo.at i)) = true := by decide)
    (hy : m.testBit (regBit (hi.at i)) = true := by decide) (h : Edits m d₀ d) : Edits m d₀ (d.setWide lo hi i v) :=
  Dev.setReg_edits hy (Dev.setReg_edits hx h)

theorem Dev.emit_edits {o : Out} (hm : m.testBit 1 = true := by decide) (h : Edits m d₀ d) : Edits m d₀ (d.emit o) :=
  Edits.updFace (Face.emit_edits hm (FEdits.refl _)) h

theorem Dev.fresh_edits {w : Nat} {v : BitVec w} {d' : Dev} (e : d.fresh w = (v, d'))
    (hm : m.testBit 3 = true := by decide) (h : Edits m d₀ d) : Edits m d₀ d' := by
  cases e
  exact Edits.upd (hfree := .inr hm) (h := h)

theorem Dev.fresh_snd_edits {w : Nat} (hm : m.testBit 3 = true := by decide) (h : Edits m d₀ d) : Edits m d₀ (d.fresh w).2 :=
  Dev.fresh_edits (rfl : d.fresh w = ((d.fresh w).1, (d.fresh w).2)) hm h

/-- A change of the rings, recorder and MSI-X alone. -/
theorem Dev.hst_edits {hst : HostIf} (hm : m.testBit 0 = true := by decide) (h : Edits m d₀ d) :
    Edits m d₀ { d with face := { d.face with hst := hst } } := Edits.updFace (Face.hst_edits hm (FEdits.refl _)) h

/-! ## A field after a write -/

theorem fieldMask_testBit {hi lo : Nat} (hl : lo ≤ hi) (i : Nat) :
    (fieldMask hi lo).testBit i = (decide (lo ≤ i) && decide (i ≤ hi)) := by
  have e : fieldMask hi lo = (2 ^ (hi + 1 - lo) - 1) <<< lo := by
    rw [Nat.shiftLeft_eq, Nat.sub_mul, Nat.one_mul, ← Nat.pow_add, fieldMask]
    congr 2
    omega
  rw [e, Nat.testBit_shiftLeft, Nat.testBit_two_pow_sub_one]
  by_cases h : lo ≤ i <;> simp [h]
  omega

/-- Bit `i` of a word after bits `hi:lo` are set to `v`. -/
theorem withBits_testBit {w : Word} {hi lo v i : Nat} (hl : lo ≤ hi) (hi32 : i < 32) :
    (withBits w hi lo v).toNat.testBit i = if lo ≤ i ∧ i ≤ hi then v.testBit (i - lo) else w.toNat.testBit i := by
  rw [BitVec.testBit_toNat]
  unfold withBits
  rw [BitVec.getLsbD_or, BitVec.getLsbD_and, BitVec.getLsbD_not, BitVec.getLsbD_ofNat, BitVec.getLsbD_ofNat,
    fieldMask_testBit hl, Nat.testBit_shiftLeft, Nat.testBit_mod_two_pow]
  by_cases h₁ : lo ≤ i <;> by_cases h₂ : i ≤ hi <;> simp [h₁, h₂, hi32, BitVec.testBit_toNat] <;> omega

theorem bitsOf_withBits_same {w : Word} {hi lo v : Nat} (h : hi < 32) (hl : lo ≤ hi) :
    bitsOf (withBits w hi lo v) hi lo = v % 2 ^ (hi + 1 - lo) := by
  refine Nat.eq_of_testBit_eq fun i => ?_
  rw [bitsOf, Nat.testBit_mod_two_pow, Nat.testBit_mod_two_pow, Nat.testBit_shiftRight]
  by_cases hi' : i < hi + 1 - lo
  · rw [withBits_testBit hl (by omega)]
    simp [hi', show lo + i ≤ hi by omega]
  · simp [hi']

/-- Bits outside a written field read as before. -/
theorem bitsOf_withBits_other {w : Word} {hi lo v hi' lo' : Nat} (h : hi' < 32) (hl : lo ≤ hi) (hd : hi' < lo ∨ hi < lo') :
    bitsOf (withBits w hi lo v) hi' lo' = bitsOf w hi' lo' := by
  refine Nat.eq_of_testBit_eq fun i => ?_
  rw [bitsOf, bitsOf, Nat.testBit_mod_two_pow, Nat.testBit_mod_two_pow, Nat.testBit_shiftRight, Nat.testBit_shiftRight]
  by_cases hi₁ : i < hi' + 1 - lo'
  · rw [withBits_testBit hl (by omega), if_neg (by omega)]
  · simp [hi₁]

/-- A field just written reads the value, taken modulo its width. -/
theorem Dev.get_set_same (d : Dev) (x : Fld) (v : Nat) (h : x.hi < 32 := by decide) (hl : x.lo ≤ x.hi := by decide) :
    (d.set x v).get x = v % 2 ^ (x.hi + 1 - x.lo) := by
  simp [Dev.get, Dev.set, Face.get, Face.set, bitsOf_withBits_same h hl]

/-- Another register's field reads as before. -/
theorem Dev.get_set_other {x y : Fld} (h : y.off ≠ x.off) (d : Dev) (v : Nat) : (d.set x v).get y = d.get y := by
  simp [Dev.get, Dev.set, Face.get, Face.set, Face.reg_setReg_other h]

/-- A field of the same register that shares no bit reads as before. -/
theorem Dev.get_set_apart {x y : Fld} (h : y.hi < 32) (hl : x.lo ≤ x.hi) (hd : y.hi < x.lo ∨ x.hi < y.lo) (d : Dev) (v : Nat) :
    (d.set x v).get y = d.get y := by
  by_cases e : y.off = x.off
  · simp [Dev.get, Dev.set, Face.get, Face.set, e, bitsOf_withBits_other h hl hd]
  · exact Dev.get_set_other e d v

@[simp] theorem Dev.reg_setReg_same (d : Dev) (off : Nat) (w : Word) : (d.setReg off w).reg off = w := by
  simp [Dev.reg, Dev.setReg]

theorem Dev.reg_setReg_other {o off : Nat} (h : o ≠ off) (d : Dev) (w : Word) : (d.setReg off w).reg o = d.reg o := by
  simp [Dev.reg, Dev.setReg, Face.reg_setReg_other h]

theorem Edits.reg {d d' : Dev} (h : Edits m d d') (off : Nat) (ho : off < 4194304 := by decide)
    (hx : m.testBit (regBit off) = false := by decide) : d'.reg off = d.reg off :=
  (h.face.regs off ho).resolve_left (by simp [hx])

/-- A field of a block that an operation leaves alone reads as before. -/
theorem Edits.get {d d' : Dev} (h : Edits m d d') (x : Fld) (ho : x.off < 4194304 := by decide)
    (hx : m.testBit (regBit x.off) = false := by decide) : d'.get x = d.get x := by
  have : d'.face.reg x.off = d.face.reg x.off := h.reg x.off ho hx
  simp [Dev.get, Face.get, this]

end Sys2Proof.Machine
end

