-- ==== Sys2Proof/Laws/Ops/Journal.lean ====
section
/-! SUPPORT. What the operations of Machine/Journal.lean may do: the parts each touches (`Edits`), said once. -/

set_option linter.unusedTactic false
set_option linter.unreachableTactic false
set_option Elab.async false

namespace Sys2Proof.Machine

theorem Dev.linkCount_edits {m : Nat} {d₀ d : Dev} {link n : Nat} (hn : decide (n < 6) = true := by decide)
    (hm : Nat.land m 0x1000000000000 = 0x1000000000000 := by decide) (h : Edits m d₀ d) : Edits m d₀ (d.linkCount link n) := by
  have hm' : m.testBit (32 + 16) = true := sub_bit hm rfl
  have hn' : n < 6 := of_decide_eq_true hn
  unfold Dev.linkCount
  split
  · rename_i hl
    refine Dev.set_edits ?_ h
    have : regBit (F.PRL_L_CNT_n_COUNT.at2 link n).off = 32 + 16 := by
      have H : ∀ l < 3, ∀ k < 6, regBit (F.PRL_L_CNT_n_COUNT.at2 l k).off = 32 + 16 := by decide
      exact H link hl n hn'
    rw [this]
    exact hm'
  · exact h

theorem Dev.putFrame_edits {m : Nat} {d₀ d : Dev} {x1 x2 x3 x4 x5} (hm : Nat.land m 0x1000000040002 = 0x1000000040002 := by decide)
    (h : Edits m d₀ d) : Edits m d₀ (Dev.putFrame d x1 x2 x3 x4 x5) := by
  refine Edits.andThen (t := 0x1000000040002) h ?_ hm
  unfold Dev.putFrame
  repeat' first | with_reducible exact Edits.refl _ | with_reducible assumption | (with_reducible apply Dev.emit_edits <;> first | with_reducible assumption | decide | (dsimp only; decide) | skip) | (with_reducible apply Dev.linkCount_edits <;> first | with_reducible assumption | decide | (dsimp only; decide) | skip) | (with_reducible apply Edits.getD <;> [(intro _ _); skip]) | with_reducible refine Edits.foldl _ (fun _ _ _ => ?_) _ ?_ | (extract_lets -merge +onlyGivenNames x; first | (refine (fun _ : Edits 0x1000000040002 d x => ?_) ?_; (on_goal 1 => clear_value x); (on_goal 2 => subst x)) | (have _h : ∃ y : Fld, y = x := ⟨x, rfl⟩; clear _h; subst x) | (have _h : ∃ y : Tsu, y = x := ⟨x, rfl⟩; clear _h; subst x) | (have _h : ∃ y : TrlRt, y = x := ⟨x, rfl⟩; clear _h; subst x) | (have _h : ∃ y : Clo, y = x := ⟨x, rfl⟩; clear _h; subst x) | (have _h : ∃ y : Face, y = x := ⟨x, rfl⟩; clear _h; subst x) | (have _h : ∃ y : HostIf, y = x := ⟨x, rfl⟩; clear _h; subst x) | (have _h : ∃ y : (_ → _), y = x := ⟨x, rfl⟩; clear _h; subst x) | clear_value x | subst x) | split | with_reducible refine Edits.upd (h := ?_)

theorem Dev.sendRunner_edits {m : Nat} {d₀ d : Dev} {x1 x2 x3} (hm : Nat.land m 0x1000000040002 = 0x1000000040002 := by decide)
    (h : Edits m d₀ d) : Edits m d₀ (Dev.sendRunner d x1 x2 x3) := by
  refine Edits.andThen (t := 0x1000000040002) h ?_ hm
  unfold Dev.sendRunner
  repeat' first | with_reducible exact Edits.refl _ | with_reducible assumption | (with_reducible apply Dev.putFrame_edits <;> first | with_reducible assumption | decide | (dsimp only; decide) | skip) | with_reducible refine Edits.foldl _ (fun _ _ _ => ?_) _ ?_ | (extract_lets -merge +onlyGivenNames x; first | (refine (fun _ : Edits 0x1000000040002 d x => ?_) ?_; (on_goal 1 => clear_value x); (on_goal 2 => subst x)) | (have _h : ∃ y : Fld, y = x := ⟨x, rfl⟩; clear _h; subst x) | (have _h : ∃ y : Tsu, y = x := ⟨x, rfl⟩; clear _h; subst x) | (have _h : ∃ y : TrlRt, y = x := ⟨x, rfl⟩; clear _h; subst x) | (have _h : ∃ y : Clo, y = x := ⟨x, rfl⟩; clear _h; subst x) | (have _h : ∃ y : Face, y = x := ⟨x, rfl⟩; clear _h; subst x) | (have _h : ∃ y : HostIf, y = x := ⟨x, rfl⟩; clear _h; subst x) | (have _h : ∃ y : (_ → _), y = x := ⟨x, rfl⟩; clear _h; subst x) | clear_value x | subst x) | split | with_reducible refine Edits.upd (h := ?_)

theorem Dev.digestOut_edits {m : Nat} {d₀ d : Dev} {x1 x2} (hm : Nat.land m 0x1000000040002 = 0x1000000040002 := by decide)
    (h : Edits m d₀ d) : Edits m d₀ (Dev.digestOut d x1 x2) := by
  refine Edits.andThen (t := 0x1000000040002) h ?_ hm
  unfold Dev.digestOut
  repeat' first | with_reducible exact Edits.refl _ | with_reducible assumption | (with_reducible apply Dev.sendRunner_edits <;> first | with_reducible assumption | decide | (dsimp only; decide) | skip) | with_reducible refine Edits.foldl _ (fun _ _ _ => ?_) _ ?_ | (extract_lets -merge +onlyGivenNames x; first | (refine (fun _ : Edits 0x1000000040002 d x => ?_) ?_; (on_goal 1 => clear_value x); (on_goal 2 => subst x)) | (have _h : ∃ y : Fld, y = x := ⟨x, rfl⟩; clear _h; subst x) | (have _h : ∃ y : Tsu, y = x := ⟨x, rfl⟩; clear _h; subst x) | (have _h : ∃ y : TrlRt, y = x := ⟨x, rfl⟩; clear _h; subst x) | (have _h : ∃ y : Clo, y = x := ⟨x, rfl⟩; clear _h; subst x) | (have _h : ∃ y : Face, y = x := ⟨x, rfl⟩; clear _h; subst x) | (have _h : ∃ y : HostIf, y = x := ⟨x, rfl⟩; clear _h; subst x) | (have _h : ∃ y : (_ → _), y = x := ⟨x, rfl⟩; clear _h; subst x) | clear_value x | subst x) | split | with_reducible refine Edits.upd (h := ?_)

theorem Dev.mirrorOut_edits {m : Nat} {d₀ d : Dev} {x1 x2} (hm : Nat.land m 0x1000000040002 = 0x1000000040002 := by decide)
    (h : Edits m d₀ d) : Edits m d₀ (Dev.mirrorOut d x1 x2) := by
  refine Edits.andThen (t := 0x1000000040002) h ?_ hm
  unfold Dev.mirrorOut
  repeat' first | with_reducible exact Edits.refl _ | with_reducible assumption | (with_reducible apply Dev.count_lit_edits <;> [decide; skip]) | (with_reducible apply Dev.count_edits <;> first | with_reducible assumption | decide | (dsimp only; decide) | skip) | (with_reducible apply Dev.digestOut_edits <;> first | with_reducible assumption | decide | (dsimp only; decide) | skip) | (with_reducible apply Dev.sendRunner_edits <;> first | with_reducible assumption | decide | (dsimp only; decide) | skip) | (with_reducible apply Dev.set_at_edits <;> first | with_reducible assumption | decide | (dsimp only; decide) | skip) | (with_reducible apply Dev.set_at2_edits <;> first | with_reducible assumption | decide | (dsimp only; decide) | skip) | (with_reducible apply Dev.set_edits <;> first | with_reducible assumption | decide | (dsimp only; decide) | skip) | with_reducible refine Edits.foldl _ (fun _ _ _ => ?_) _ ?_ | (extract_lets -merge +onlyGivenNames x; first | (refine (fun _ : Edits 0x1000000040002 d x => ?_) ?_; (on_goal 1 => clear_value x); (on_goal 2 => subst x)) | (have _h : ∃ y : Fld, y = x := ⟨x, rfl⟩; clear _h; subst x) | (have _h : ∃ y : Tsu, y = x := ⟨x, rfl⟩; clear _h; subst x) | (have _h : ∃ y : TrlRt, y = x := ⟨x, rfl⟩; clear _h; subst x) | (have _h : ∃ y : Clo, y = x := ⟨x, rfl⟩; clear _h; subst x) | (have _h : ∃ y : Face, y = x := ⟨x, rfl⟩; clear _h; subst x) | (have _h : ∃ y : HostIf, y = x := ⟨x, rfl⟩; clear _h; subst x) | (have _h : ∃ y : (_ → _), y = x := ⟨x, rfl⟩; clear _h; subst x) | clear_value x | subst x) | split | with_reducible refine Edits.upd (h := ?_)

theorem Dev.append_edits {m : Nat} {d₀ d d' : Dev} {r : JRec} {line : Nat} (e : d.append r = (line, d'))
    (hm : Nat.land m 0x1400000048002 = 0x1400000048002 := by decide) (h : Edits m d₀ d) : Edits m d₀ d' := by
  refine Edits.andThen (t := 0x1400000048002) h ?_ hm
  obtain rfl : d' = (d.append r).2 := by rw [e]
  unfold Dev.append
  extract_lets
  split
  extract_lets d₁ d₂ laps d₃
  have h₃ : Edits 0x1400000048002 d d₃ := Dev.set_edits (h := Dev.set_edits (h := Dev.setWide_edits
    (h := Dev.count_edits (h := Edits.upd (h := Edits.refl _)))))
  exact Edits.ite (fun _ => h₃) fun _ => Dev.mirrorOut_edits (h := h₃)

theorem Dev.append_snd_edits {m : Nat} {d₀ d : Dev} {r : JRec}
    (hm : Nat.land m 0x1400000048002 = 0x1400000048002 := by decide) (h : Edits m d₀ d) : Edits m d₀ (d.append r).2 :=
  Dev.append_edits (rfl : d.append r = ((d.append r).1, (d.append r).2)) hm h

end Sys2Proof.Machine
end

