-- ==== Sys2Proof/Laws/Ops/Flags.lean ====
section
/-! SUPPORT. What the operations of Machine/Flags.lean may do: the parts each touches (`Edits`), said once. -/

set_option linter.unusedTactic false
set_option linter.unreachableTactic false
set_option Elab.async false

namespace Sys2Proof.Machine

theorem Dev.reserveEvents_edits {m : Nat} {d₀ d : Dev} (hm : Nat.land m 0x140000004c002 = 0x140000004c002 := by decide)
    (h : Edits m d₀ d) : Edits m d₀ (Dev.reserveEvents d) := by
  refine Edits.andThen (t := 0x140000004c002) h ?_ hm
  unfold Dev.reserveEvents
  repeat' first | with_reducible exact Edits.refl _ | with_reducible assumption | (with_reducible apply Dev.append_edits; with_reducible assumption; decide) | (with_reducible apply Dev.append_snd_edits <;> first | with_reducible assumption | decide | (dsimp only; decide) | skip) | with_reducible refine Edits.foldl _ (fun _ _ _ => ?_) _ ?_ | (extract_lets -merge +onlyGivenNames x; first | (refine (fun _ : Edits 0x140000004c002 d x => ?_) ?_; (on_goal 1 => clear_value x); (on_goal 2 => subst x)) | (have _h : ∃ y : Fld, y = x := ⟨x, rfl⟩; clear _h; subst x) | (have _h : ∃ y : Tsu, y = x := ⟨x, rfl⟩; clear _h; subst x) | (have _h : ∃ y : TrlRt, y = x := ⟨x, rfl⟩; clear _h; subst x) | (have _h : ∃ y : Clo, y = x := ⟨x, rfl⟩; clear _h; subst x) | (have _h : ∃ y : Face, y = x := ⟨x, rfl⟩; clear _h; subst x) | (have _h : ∃ y : HostIf, y = x := ⟨x, rfl⟩; clear _h; subst x) | (have _h : ∃ y : (_ → _), y = x := ⟨x, rfl⟩; clear _h; subst x) | clear_value x | subst x) | split | with_reducible refine Edits.upd (h := ?_)

theorem Dev.raise_edits {m : Nat} {d₀ d : Dev} {x : Fld} {a b : Nat}
    (hx : m.testBit (regBit x.off) = true := by decide)
    (hm : Nat.land m 0x340040004c003 = 0x340040004c003 := by decide) (h : Edits m d₀ d) : Edits m d₀ (d.raise x a b) :=
  Edits.updFace (Face.eventN_edits (sub_trans hm (by decide)) chain (by rintro _ ⟨⟩; exact hx) (FEdits.refl _))
    (Dev.reserveEvents_edits (sub_trans hm (by decide)) h)

theorem Dev.raise_at_edits {m : Nat} {d₀ d : Dev} {x : Fld} {i : Nat} {a b : Nat} (hx : atOk m x.off = true := by decide)
    (hm : Nat.land m 0x340040004c003 = 0x340040004c003 := by decide) (h : Edits m d₀ d) : Edits m d₀ (d.raise (x.at i) a b) :=
  Dev.raise_edits (regBit_at (Fld.at_block _ _) hx) hm h

theorem Dev.raise_at2_edits {m : Nat} {d₀ d : Dev} {x : Fld} {i j : Nat} {a b : Nat} (hx : atOk m x.off = true := by decide)
    (hm : Nat.land m 0x340040004c003 = 0x340040004c003 := by decide) (h : Edits m d₀ d) : Edits m d₀ (d.raise (x.at2 i j) a b) :=
  Dev.raise_edits (regBit_at (Fld.at2_block _ _ _) hx) hm h

theorem Dev.condition_edits {m : Nat} {d₀ d : Dev} {x : Fld} {v : Bool}
    (hx : m.testBit (regBit x.off) = true := by decide)
    (hm : Nat.land m 0x740040004c003 = 0x740040004c003 := by decide) (h : Edits m d₀ d) : Edits m d₀ (d.condition x v) := by
  unfold Dev.condition
  split
  · exact h
  · exact Dev.raise_edits (sub_bit hm (by decide)) (sub_trans hm (by decide)) (Dev.set_edits hx h)

theorem Dev.condition_at_edits {m : Nat} {d₀ d : Dev} {x : Fld} {i : Nat} {v : Bool} (hx : atOk m x.off = true := by decide)
    (hm : Nat.land m 0x740040004c003 = 0x740040004c003 := by decide) (h : Edits m d₀ d) : Edits m d₀ (d.condition (x.at i) v) :=
  Dev.condition_edits (regBit_at (Fld.at_block _ _) hx) hm h

theorem Dev.condition_at2_edits {m : Nat} {d₀ d : Dev} {x : Fld} {i j : Nat} {v : Bool} (hx : atOk m x.off = true := by decide)
    (hm : Nat.land m 0x740040004c003 = 0x740040004c003 := by decide) (h : Edits m d₀ d) : Edits m d₀ (d.condition (x.at2 i j) v) :=
  Dev.condition_edits (regBit_at (Fld.at2_block _ _ _) hx) hm h

theorem Dev.ringPut_edits {m : Nat} {d₀ d d' : Dev} {n : Nat} {b : Bool} {ws : List Word} (e : d.ringPut n b ws = some d')
    (hm : Nat.land m 0x340040004c003 = 0x340040004c003 := by decide) (h : Edits m d₀ d) : Edits m d₀ d' := by
  refine Edits.andThen (t := 0x340040004c003) h ?_ hm
  unfold Dev.ringPut at e
  have hp := Face.place_edits (m := 0x340040004c003) (e := d.env) (n := n) (b := b) (ws := ws) (h := FEdits.refl d.face)
  split at e
  · split at e
    · rename_i f heq; cases e; rw [heq] at hp; exact Edits.updFace hp (Edits.refl _)
    · rename_i f heq; cases e; rw [heq] at hp; exact Dev.raise_edits (h := Edits.updFace hp (Edits.refl _))
  · cases e

theorem Dev.occur_edits {m : Nat} {d₀ d : Dev} {x1 x2 x3 x4 x5} (hm : Nat.land m 0x340040004c003 = 0x340040004c003 := by decide)
    (h : Edits m d₀ d) : Edits m d₀ (d.occur x1 x2 x3 x4 x5) :=
  Edits.updFace (Face.eventN_edits (sub_trans hm (by decide)) chain (by rintro _ ⟨⟩) (FEdits.refl _))
    (Dev.reserveEvents_edits (sub_trans hm (by decide)) h)

end Sys2Proof.Machine
end

