-- ==== Sys2Proof/Laws/Ops/Engines.lean ====
section
/-! SUPPORT. What the operations of Machine/Engines.lean may do: the parts each touches (`Edits`), said once. -/

set_option linter.unusedTactic false
set_option linter.unreachableTactic false
set_option Elab.async false

namespace Sys2Proof.Machine

theorem Dev.grant_edits {m : Nat} {d₀ d : Dev} {x1 x2} (hm : Nat.land m 0x800000800 = 0x800000800 := by decide)
    (h : Edits m d₀ d) : Edits m d₀ (Dev.grant d x1 x2) := by
  refine Edits.andThen (t := 0x800000800) h ?_ hm
  unfold Dev.grant
  repeat' first | with_reducible exact Edits.refl _ | with_reducible assumption | (with_reducible apply Dev.count_lit_edits <;> [decide; skip]) | (with_reducible apply Dev.count_edits <;> first | with_reducible assumption | decide | (dsimp only; decide) | skip) | (with_reducible apply Dev.set_at_edits <;> first | with_reducible assumption | decide | (dsimp only; decide) | skip) | (with_reducible apply Dev.set_at2_edits <;> first | with_reducible assumption | decide | (dsimp only; decide) | skip) | (with_reducible apply Dev.set_edits <;> first | with_reducible assumption | decide | (dsimp only; decide) | skip) | with_reducible refine Edits.foldl _ (fun _ _ _ => ?_) _ ?_ | (extract_lets -merge +onlyGivenNames x; first | (refine (fun _ : Edits 0x800000800 d x => ?_) ?_; (on_goal 1 => clear_value x); (on_goal 2 => subst x)) | (have _h : ∃ y : Fld, y = x := ⟨x, rfl⟩; clear _h; subst x) | (have _h : ∃ y : Tsu, y = x := ⟨x, rfl⟩; clear _h; subst x) | (have _h : ∃ y : TrlRt, y = x := ⟨x, rfl⟩; clear _h; subst x) | (have _h : ∃ y : Clo, y = x := ⟨x, rfl⟩; clear _h; subst x) | (have _h : ∃ y : Face, y = x := ⟨x, rfl⟩; clear _h; subst x) | (have _h : ∃ y : HostIf, y = x := ⟨x, rfl⟩; clear _h; subst x) | (have _h : ∃ y : (_ → _), y = x := ⟨x, rfl⟩; clear _h; subst x) | clear_value x | subst x) | split | with_reducible refine Edits.upd (h := ?_)

theorem Dev.grantIdle_edits {m : Nat} {d₀ d : Dev} {k } (hm : Nat.land m 0x800000800 = 0x800000800 := by decide)
    (h : Edits m d₀ d) : Edits m d₀ (Dev.grantIdle k d) := by
  refine Edits.andThen (t := 0x800000800) h ?_ hm
  suffices H : ∀ k  d₁, Edits 0x800000800 d d₁ → Edits 0x800000800 d (Dev.grantIdle k d₁) from H k  d (Edits.refl _)
  clear h hm  k
  intro k
  induction k with
  | zero =>
    intro  d₁ h
    rw [Dev.grantIdle]
    repeat' first | with_reducible exact Edits.refl _ | with_reducible assumption | (with_reducible apply Dev.grant_edits <;> first | with_reducible assumption | decide | (dsimp only; decide) | skip) | with_reducible refine Edits.foldl _ (fun _ _ _ => ?_) _ ?_ | (extract_lets -merge +onlyGivenNames x; first | (refine (fun _ : Edits 0x800000800 d x => ?_) ?_; (on_goal 1 => clear_value x); (on_goal 2 => subst x)) | (have _h : ∃ y : Fld, y = x := ⟨x, rfl⟩; clear _h; subst x) | (have _h : ∃ y : Tsu, y = x := ⟨x, rfl⟩; clear _h; subst x) | (have _h : ∃ y : TrlRt, y = x := ⟨x, rfl⟩; clear _h; subst x) | (have _h : ∃ y : Clo, y = x := ⟨x, rfl⟩; clear _h; subst x) | (have _h : ∃ y : Face, y = x := ⟨x, rfl⟩; clear _h; subst x) | (have _h : ∃ y : HostIf, y = x := ⟨x, rfl⟩; clear _h; subst x) | (have _h : ∃ y : (_ → _), y = x := ⟨x, rfl⟩; clear _h; subst x) | clear_value x | subst x) | split | with_reducible refine Edits.upd (h := ?_)
  | succ k ih =>
    intro  d₁ h
    rw [Dev.grantIdle]
    repeat' first | with_reducible exact Edits.refl _ | with_reducible assumption | (with_reducible apply ih; skip) | (rw [Dev.grantIdle]) | (with_reducible apply Dev.grant_edits <;> first | with_reducible assumption | decide | (dsimp only; decide) | skip) | with_reducible refine Edits.foldl _ (fun _ _ _ => ?_) _ ?_ | (extract_lets -merge +onlyGivenNames x; first | (refine (fun _ : Edits 0x800000800 d x => ?_) ?_; (on_goal 1 => clear_value x); (on_goal 2 => subst x)) | (have _h : ∃ y : Fld, y = x := ⟨x, rfl⟩; clear _h; subst x) | (have _h : ∃ y : Tsu, y = x := ⟨x, rfl⟩; clear _h; subst x) | (have _h : ∃ y : TrlRt, y = x := ⟨x, rfl⟩; clear _h; subst x) | (have _h : ∃ y : Clo, y = x := ⟨x, rfl⟩; clear _h; subst x) | (have _h : ∃ y : Face, y = x := ⟨x, rfl⟩; clear _h; subst x) | (have _h : ∃ y : HostIf, y = x := ⟨x, rfl⟩; clear _h; subst x) | (have _h : ∃ y : (_ → _), y = x := ⟨x, rfl⟩; clear _h; subst x) | clear_value x | subst x) | split | with_reducible refine Edits.upd (h := ?_)

theorem Dev.refreshUrgent_edits {m : Nat} {d₀ d : Dev} (hm : Nat.land m 0x800 = 0x800 := by decide)
    (h : Edits m d₀ d) : Edits m d₀ (Dev.refreshUrgent d) := by
  refine Edits.andThen (t := 0x800) h ?_ hm
  unfold Dev.refreshUrgent
  repeat' first | with_reducible exact Edits.refl _ | with_reducible assumption | with_reducible refine Edits.foldl _ (fun _ _ _ => ?_) _ ?_ | (extract_lets -merge +onlyGivenNames x; first | (refine (fun _ : Edits 0x800 d x => ?_) ?_; (on_goal 1 => clear_value x); (on_goal 2 => subst x)) | (have _h : ∃ y : Fld, y = x := ⟨x, rfl⟩; clear _h; subst x) | (have _h : ∃ y : Tsu, y = x := ⟨x, rfl⟩; clear _h; subst x) | (have _h : ∃ y : TrlRt, y = x := ⟨x, rfl⟩; clear _h; subst x) | (have _h : ∃ y : Clo, y = x := ⟨x, rfl⟩; clear _h; subst x) | (have _h : ∃ y : Face, y = x := ⟨x, rfl⟩; clear _h; subst x) | (have _h : ∃ y : HostIf, y = x := ⟨x, rfl⟩; clear _h; subst x) | (have _h : ∃ y : (_ → _), y = x := ⟨x, rfl⟩; clear _h; subst x) | clear_value x | subst x) | split | with_reducible refine Edits.upd (h := ?_)

theorem Dev.shPost_edits {m : Nat} {d₀ d : Dev} {x1 x2 x3} (hm : Nat.land m 0x3400c0004c803 = 0x3400c0004c803 := by decide)
    (h : Edits m d₀ d) : Edits m d₀ (Dev.shPost d x1 x2 x3) := by
  refine Edits.andThen (t := 0x3400c0004c803) h ?_ hm
  unfold Dev.shPost
  repeat' first | with_reducible exact Edits.refl _ | with_reducible assumption | (with_reducible apply Dev.count_lit_edits <;> [decide; skip]) | (with_reducible apply Dev.count_edits <;> first | with_reducible assumption | decide | (dsimp only; decide) | skip) | (with_reducible apply Dev.grantIdle_edits <;> first | with_reducible assumption | decide | (dsimp only; decide) | skip) | (with_reducible apply Dev.raise_at_edits <;> first | with_reducible assumption | decide | (dsimp only; decide) | skip) | (with_reducible apply Dev.raise_at2_edits <;> first | with_reducible assumption | decide | (dsimp only; decide) | skip) | (with_reducible apply Dev.raise_edits <;> first | with_reducible assumption | decide | (dsimp only; decide) | skip) | (with_reducible apply Dev.refreshUrgent_edits <;> first | with_reducible assumption | decide | (dsimp only; decide) | skip) | with_reducible refine Edits.foldl _ (fun _ _ _ => ?_) _ ?_ | (extract_lets -merge +onlyGivenNames x; first | (refine (fun _ : Edits 0x3400c0004c803 d x => ?_) ?_; (on_goal 1 => clear_value x); (on_goal 2 => subst x)) | (have _h : ∃ y : Fld, y = x := ⟨x, rfl⟩; clear _h; subst x) | (have _h : ∃ y : Tsu, y = x := ⟨x, rfl⟩; clear _h; subst x) | (have _h : ∃ y : TrlRt, y = x := ⟨x, rfl⟩; clear _h; subst x) | (have _h : ∃ y : Clo, y = x := ⟨x, rfl⟩; clear _h; subst x) | (have _h : ∃ y : Face, y = x := ⟨x, rfl⟩; clear _h; subst x) | (have _h : ∃ y : HostIf, y = x := ⟨x, rfl⟩; clear _h; subst x) | (have _h : ∃ y : (_ → _), y = x := ⟨x, rfl⟩; clear _h; subst x) | clear_value x | subst x) | split | with_reducible refine Edits.upd (h := ?_)

end Sys2Proof.Machine
end

