-- ==== Sys2Proof/Laws/Ops/Durable.lean ====
section
/-! SUPPORT. What the operations of Machine/Durable.lean may do: the parts each touches (`Edits`), said once. -/

set_option linter.unusedTactic false
set_option linter.unreachableTactic false
set_option Elab.async false

namespace Sys2Proof.Machine

theorem Dev.journal_edits {m : Nat} {d₀ d : Dev} {x1} (hm : Nat.land m 0x140000004c002 = 0x140000004c002 := by decide)
    (h : Edits m d₀ d) : Edits m d₀ (Dev.journal d x1) := by
  refine Edits.andThen (t := 0x140000004c002) h ?_ hm
  unfold Dev.journal
  repeat' first | with_reducible exact Edits.refl _ | with_reducible assumption | (with_reducible apply Dev.append_edits; with_reducible assumption; decide) | (with_reducible apply Dev.append_snd_edits <;> first | with_reducible assumption | decide | (dsimp only; decide) | skip) | with_reducible refine Edits.foldl _ (fun _ _ _ => ?_) _ ?_ | (extract_lets -merge +onlyGivenNames x; first | (refine (fun _ : Edits 0x140000004c002 d x => ?_) ?_; (on_goal 1 => clear_value x); (on_goal 2 => subst x)) | (have _h : ∃ y : Fld, y = x := ⟨x, rfl⟩; clear _h; subst x) | (have _h : ∃ y : Tsu, y = x := ⟨x, rfl⟩; clear _h; subst x) | (have _h : ∃ y : TrlRt, y = x := ⟨x, rfl⟩; clear _h; subst x) | (have _h : ∃ y : Clo, y = x := ⟨x, rfl⟩; clear _h; subst x) | (have _h : ∃ y : Face, y = x := ⟨x, rfl⟩; clear _h; subst x) | (have _h : ∃ y : HostIf, y = x := ⟨x, rfl⟩; clear _h; subst x) | (have _h : ∃ y : (_ → _), y = x := ⟨x, rfl⟩; clear _h; subst x) | clear_value x | subst x) | split | with_reducible refine Edits.upd (h := ?_)

end Sys2Proof.Machine
end

