-- ==== Sys2Proof/Laws/Ops/KeyOps.lean ====
section
/-! SUPPORT. What the operations of Machine/KeyOps.lean may do: the parts each touches (`Edits`), said once. -/

set_option linter.unusedTactic false
set_option linter.unreachableTactic false
set_option Elab.async false

namespace Sys2Proof.Machine

theorem Dev.deriveSlot_edits {m : Nat} {d₀ d : Dev} {x1} (hm : Nat.land m 0x2000 = 0x2000 := by decide)
    (h : Edits m d₀ d) : Edits m d₀ (Dev.deriveSlot d x1) := by
  refine Edits.andThen (t := 0x2000) h ?_ hm
  unfold Dev.deriveSlot
  repeat' first | with_reducible exact Edits.refl _ | with_reducible assumption | with_reducible refine Edits.foldl _ (fun _ _ _ => ?_) _ ?_ | (extract_lets -merge +onlyGivenNames x; first | (refine (fun _ : Edits 0x2000 d x => ?_) ?_; (on_goal 1 => clear_value x); (on_goal 2 => subst x)) | (have _h : ∃ y : Fld, y = x := ⟨x, rfl⟩; clear _h; subst x) | (have _h : ∃ y : Tsu, y = x := ⟨x, rfl⟩; clear _h; subst x) | (have _h : ∃ y : TrlRt, y = x := ⟨x, rfl⟩; clear _h; subst x) | (have _h : ∃ y : Clo, y = x := ⟨x, rfl⟩; clear _h; subst x) | (have _h : ∃ y : Face, y = x := ⟨x, rfl⟩; clear _h; subst x) | (have _h : ∃ y : HostIf, y = x := ⟨x, rfl⟩; clear _h; subst x) | (have _h : ∃ y : (_ → _), y = x := ⟨x, rfl⟩; clear _h; subst x) | clear_value x | subst x) | split | with_reducible refine Edits.upd (h := ?_)

theorem Dev.drbg_snd_edits {m : Nat} {d₀ d : Dev} {x1} (hm : Nat.land m 0x2008 = 0x2008 := by decide)
    (h : Edits m d₀ d) : Edits m d₀ (Dev.drbg d x1).2 := by
  refine Edits.andThen (t := 0x2008) h ?_ hm
  unfold Dev.drbg
  repeat' first | with_reducible exact Edits.refl _ | with_reducible assumption | dsimp -zeta only | (with_reducible apply Dev.fresh_edits; with_reducible assumption; decide) | (with_reducible apply Dev.fresh_snd_edits <;> first | with_reducible assumption | decide | (dsimp only; decide) | skip) | with_reducible refine Edits.foldl _ (fun _ _ _ => ?_) _ ?_ | (extract_lets -merge +onlyGivenNames x; first | (refine (fun _ : Edits 0x2008 d x => ?_) ?_; (on_goal 1 => clear_value x); (on_goal 2 => subst x)) | (have _h : ∃ y : Fld, y = x := ⟨x, rfl⟩; clear _h; subst x) | (have _h : ∃ y : Tsu, y = x := ⟨x, rfl⟩; clear _h; subst x) | (have _h : ∃ y : TrlRt, y = x := ⟨x, rfl⟩; clear _h; subst x) | (have _h : ∃ y : Clo, y = x := ⟨x, rfl⟩; clear _h; subst x) | (have _h : ∃ y : Face, y = x := ⟨x, rfl⟩; clear _h; subst x) | (have _h : ∃ y : HostIf, y = x := ⟨x, rfl⟩; clear _h; subst x) | (have _h : ∃ y : (_ → _), y = x := ⟨x, rfl⟩; clear _h; subst x) | clear_value x | subst x) | split | with_reducible refine Edits.upd (h := ?_)

theorem Dev.drbg_edits {m : Nat} {d₀ d d' : Dev} {x1} {y} (e : Dev.drbg d x1 = (y, d')) (hm : Nat.land m 0x2008 = 0x2008 := by decide)
    (h : Edits m d₀ d) : Edits m d₀ d' := by
  have := Dev.drbg_snd_edits (x1 := x1) hm h
  rw [e] at this
  exact this

theorem Dev.sign_snd_edits {m : Nat} {d₀ d : Dev} {x1 x2} (hm : Nat.land m 0x2008 = 0x2008 := by decide)
    (h : Edits m d₀ d) : Edits m d₀ (Dev.sign d x1 x2).2 := by
  refine Edits.andThen (t := 0x2008) h ?_ hm
  unfold Dev.sign
  repeat' first | with_reducible exact Edits.refl _ | with_reducible assumption | dsimp -zeta only | (with_reducible apply Dev.drbg_edits; with_reducible assumption; decide) | (with_reducible apply Dev.drbg_snd_edits <;> first | with_reducible assumption | decide | (dsimp only; decide) | skip) | with_reducible refine Edits.foldl _ (fun _ _ _ => ?_) _ ?_ | (extract_lets -merge +onlyGivenNames x; first | (refine (fun _ : Edits 0x2008 d x => ?_) ?_; (on_goal 1 => clear_value x); (on_goal 2 => subst x)) | (have _h : ∃ y : Fld, y = x := ⟨x, rfl⟩; clear _h; subst x) | (have _h : ∃ y : Tsu, y = x := ⟨x, rfl⟩; clear _h; subst x) | (have _h : ∃ y : TrlRt, y = x := ⟨x, rfl⟩; clear _h; subst x) | (have _h : ∃ y : Clo, y = x := ⟨x, rfl⟩; clear _h; subst x) | (have _h : ∃ y : Face, y = x := ⟨x, rfl⟩; clear _h; subst x) | (have _h : ∃ y : HostIf, y = x := ⟨x, rfl⟩; clear _h; subst x) | (have _h : ∃ y : (_ → _), y = x := ⟨x, rfl⟩; clear _h; subst x) | clear_value x | subst x) | split | with_reducible refine Edits.upd (h := ?_)

theorem Dev.sign_edits {m : Nat} {d₀ d d' : Dev} {x1 x2} {y} (e : Dev.sign d x1 x2 = (y, d')) (hm : Nat.land m 0x2008 = 0x2008 := by decide)
    (h : Edits m d₀ d) : Edits m d₀ d' := by
  have := Dev.sign_snd_edits (x1 := x1) (x2 := x2) hm h
  rw [e] at this
  exact this

theorem Dev.storeRoot_edits {m : Nat} {d₀ d : Dev} {x1 x2} (hm : Nat.land m 0x80000022008 = 0x80000022008 := by decide)
    (h : Edits m d₀ d) : Edits m d₀ (Dev.storeRoot d x1 x2) := by
  refine Edits.andThen (t := 0x80000022008) h ?_ hm
  unfold Dev.storeRoot
  repeat' first | with_reducible exact Edits.refl _ | with_reducible assumption | (with_reducible apply Dev.drbg_edits; with_reducible assumption; decide) | (with_reducible apply Dev.drbg_snd_edits <;> first | with_reducible assumption | decide | (dsimp only; decide) | skip) | (with_reducible apply Dev.set_at_edits <;> first | with_reducible assumption | decide | (dsimp only; decide) | skip) | (with_reducible apply Dev.set_at2_edits <;> first | with_reducible assumption | decide | (dsimp only; decide) | skip) | (with_reducible apply Dev.set_edits <;> first | with_reducible assumption | decide | (dsimp only; decide) | skip) | with_reducible refine Edits.foldl _ (fun _ _ _ => ?_) _ ?_ | (extract_lets -merge +onlyGivenNames x; first | (refine (fun _ : Edits 0x80000022008 d x => ?_) ?_; (on_goal 1 => clear_value x); (on_goal 2 => subst x)) | (have _h : ∃ y : Fld, y = x := ⟨x, rfl⟩; clear _h; subst x) | (have _h : ∃ y : Tsu, y = x := ⟨x, rfl⟩; clear _h; subst x) | (have _h : ∃ y : TrlRt, y = x := ⟨x, rfl⟩; clear _h; subst x) | (have _h : ∃ y : Clo, y = x := ⟨x, rfl⟩; clear _h; subst x) | (have _h : ∃ y : Face, y = x := ⟨x, rfl⟩; clear _h; subst x) | (have _h : ∃ y : HostIf, y = x := ⟨x, rfl⟩; clear _h; subst x) | (have _h : ∃ y : (_ → _), y = x := ⟨x, rfl⟩; clear _h; subst x) | clear_value x | subst x) | split | with_reducible refine Edits.upd (h := ?_)

theorem Dev.keyDone_edits {m : Nat} {d₀ d : Dev} {x1} (hm : Nat.land m 0x348040004c003 = 0x348040004c003 := by decide)
    (h : Edits m d₀ d) : Edits m d₀ (Dev.keyDone d x1) := by
  refine Edits.andThen (t := 0x348040004c003) h ?_ hm
  unfold Dev.keyDone
  repeat' first | with_reducible exact Edits.refl _ | with_reducible assumption | (with_reducible apply Dev.raise_at_edits <;> first | with_reducible assumption | decide | (dsimp only; decide) | skip) | (with_reducible apply Dev.raise_at2_edits <;> first | with_reducible assumption | decide | (dsimp only; decide) | skip) | (with_reducible apply Dev.raise_edits <;> first | with_reducible assumption | decide | (dsimp only; decide) | skip) | (with_reducible apply Dev.set_at_edits <;> first | with_reducible assumption | decide | (dsimp only; decide) | skip) | (with_reducible apply Dev.set_at2_edits <;> first | with_reducible assumption | decide | (dsimp only; decide) | skip) | (with_reducible apply Dev.set_edits <;> first | with_reducible assumption | decide | (dsimp only; decide) | skip) | with_reducible refine Edits.foldl _ (fun _ _ _ => ?_) _ ?_ | (extract_lets -merge +onlyGivenNames x; first | (refine (fun _ : Edits 0x348040004c003 d x => ?_) ?_; (on_goal 1 => clear_value x); (on_goal 2 => subst x)) | (have _h : ∃ y : Fld, y = x := ⟨x, rfl⟩; clear _h; subst x) | (have _h : ∃ y : Tsu, y = x := ⟨x, rfl⟩; clear _h; subst x) | (have _h : ∃ y : TrlRt, y = x := ⟨x, rfl⟩; clear _h; subst x) | (have _h : ∃ y : Clo, y = x := ⟨x, rfl⟩; clear _h; subst x) | (have _h : ∃ y : Face, y = x := ⟨x, rfl⟩; clear _h; subst x) | (have _h : ∃ y : HostIf, y = x := ⟨x, rfl⟩; clear _h; subst x) | (have _h : ∃ y : (_ → _), y = x := ⟨x, rfl⟩; clear _h; subst x) | clear_value x | subst x) | split | with_reducible refine Edits.upd (h := ?_)

theorem Dev.showCand_edits {m : Nat} {d₀ d : Dev} (hm : Nat.land m 0x80000000000 = 0x80000000000 := by decide)
    (h : Edits m d₀ d) : Edits m d₀ (Dev.showCand d) := by
  refine Edits.andThen (t := 0x80000000000) h ?_ hm
  unfold Dev.showCand
  repeat' first | with_reducible exact Edits.refl _ | with_reducible assumption | (with_reducible apply Dev.set_at_edits <;> first | with_reducible assumption | decide | (dsimp only; decide) | skip) | (with_reducible apply Dev.set_at2_edits <;> first | with_reducible assumption | decide | (dsimp only; decide) | skip) | (with_reducible apply Dev.set_edits <;> first | with_reducible assumption | decide | (dsimp only; decide) | skip) | with_reducible refine Edits.foldl _ (fun _ _ _ => ?_) _ ?_ | (extract_lets -merge +onlyGivenNames x; first | (refine (fun _ : Edits 0x80000000000 d x => ?_) ?_; (on_goal 1 => clear_value x); (on_goal 2 => subst x)) | (have _h : ∃ y : Fld, y = x := ⟨x, rfl⟩; clear _h; subst x) | (have _h : ∃ y : Tsu, y = x := ⟨x, rfl⟩; clear _h; subst x) | (have _h : ∃ y : TrlRt, y = x := ⟨x, rfl⟩; clear _h; subst x) | (have _h : ∃ y : Clo, y = x := ⟨x, rfl⟩; clear _h; subst x) | (have _h : ∃ y : Face, y = x := ⟨x, rfl⟩; clear _h; subst x) | (have _h : ∃ y : HostIf, y = x := ⟨x, rfl⟩; clear _h; subst x) | (have _h : ∃ y : (_ → _), y = x := ⟨x, rfl⟩; clear _h; subst x) | clear_value x | subst x) | split | with_reducible refine Edits.upd (h := ?_)

theorem Dev.placeRoot_snd_edits {m : Nat} {d₀ d : Dev} {x1 x2} (hm : Nat.land m 0x80000026008 = 0x80000026008 := by decide)
    (h : Edits m d₀ d) : Edits m d₀ (Dev.placeRoot d x1 x2).2 := by
  refine Edits.andThen (t := 0x80000026008) h ?_ hm
  unfold Dev.placeRoot
  repeat' first | with_reducible exact Edits.refl _ | with_reducible assumption | dsimp -zeta only | (with_reducible apply Dev.deriveSlot_edits <;> first | with_reducible assumption | decide | (dsimp only; decide) | skip) | (with_reducible apply Dev.showCand_edits <;> first | with_reducible assumption | decide | (dsimp only; decide) | skip) | (with_reducible apply Dev.storeRoot_edits <;> first | with_reducible assumption | decide | (dsimp only; decide) | skip) | with_reducible refine Edits.foldl _ (fun _ _ _ => ?_) _ ?_ | (extract_lets -merge +onlyGivenNames x; first | (refine (fun _ : Edits 0x80000026008 d x => ?_) ?_; (on_goal 1 => clear_value x); (on_goal 2 => subst x)) | (have _h : ∃ y : Fld, y = x := ⟨x, rfl⟩; clear _h; subst x) | (have _h : ∃ y : Tsu, y = x := ⟨x, rfl⟩; clear _h; subst x) | (have _h : ∃ y : TrlRt, y = x := ⟨x, rfl⟩; clear _h; subst x) | (have _h : ∃ y : Clo, y = x := ⟨x, rfl⟩; clear _h; subst x) | (have _h : ∃ y : Face, y = x := ⟨x, rfl⟩; clear _h; subst x) | (have _h : ∃ y : HostIf, y = x := ⟨x, rfl⟩; clear _h; subst x) | (have _h : ∃ y : (_ → _), y = x := ⟨x, rfl⟩; clear _h; subst x) | clear_value x | subst x) | split | with_reducible refine Edits.upd (h := ?_)

theorem Dev.placeRoot_edits {m : Nat} {d₀ d d' : Dev} {x1 x2} {y} (e : Dev.placeRoot d x1 x2 = (y, d')) (hm : Nat.land m 0x80000026008 = 0x80000026008 := by decide)
    (h : Edits m d₀ d) : Edits m d₀ d' := by
  have := Dev.placeRoot_snd_edits (x1 := x1) (x2 := x2) hm h
  rw [e] at this
  exact this

theorem Dev.rootCommitted_edits {m : Nat} {d₀ d : Dev} {x1 x2} (hm : Nat.land m 0x348040004c003 = 0x348040004c003 := by decide)
    (h : Edits m d₀ d) : Edits m d₀ (Dev.rootCommitted d x1 x2) := by
  refine Edits.andThen (t := 0x348040004c003) h ?_ hm
  unfold Dev.rootCommitted
  repeat' first | with_reducible exact Edits.refl _ | with_reducible assumption | (with_reducible apply Dev.raise_at_edits <;> first | with_reducible assumption | decide | (dsimp only; decide) | skip) | (with_reducible apply Dev.raise_at2_edits <;> first | with_reducible assumption | decide | (dsimp only; decide) | skip) | (with_reducible apply Dev.raise_edits <;> first | with_reducible assumption | decide | (dsimp only; decide) | skip) | with_reducible refine Edits.foldl _ (fun _ _ _ => ?_) _ ?_ | (extract_lets -merge +onlyGivenNames x; first | (refine (fun _ : Edits 0x348040004c003 d x => ?_) ?_; (on_goal 1 => clear_value x); (on_goal 2 => subst x)) | (have _h : ∃ y : Fld, y = x := ⟨x, rfl⟩; clear _h; subst x) | (have _h : ∃ y : Tsu, y = x := ⟨x, rfl⟩; clear _h; subst x) | (have _h : ∃ y : TrlRt, y = x := ⟨x, rfl⟩; clear _h; subst x) | (have _h : ∃ y : Clo, y = x := ⟨x, rfl⟩; clear _h; subst x) | (have _h : ∃ y : Face, y = x := ⟨x, rfl⟩; clear _h; subst x) | (have _h : ∃ y : HostIf, y = x := ⟨x, rfl⟩; clear _h; subst x) | (have _h : ∃ y : (_ → _), y = x := ⟨x, rfl⟩; clear _h; subst x) | clear_value x | subst x) | split | with_reducible refine Edits.upd (h := ?_)

theorem Dev.commitAhead_edits {m : Nat} {d₀ d : Dev} {x1} (hm : Nat.land m 0x80000066008 = 0x80000066008 := by decide)
    (h : Edits m d₀ d) : Edits m d₀ (Dev.commitAhead d x1) := by
  refine Edits.andThen (t := 0x80000066008) h ?_ hm
  unfold Dev.commitAhead
  repeat' first | with_reducible exact Edits.refl _ | with_reducible assumption | dsimp -zeta only | (with_reducible apply Dev.placeRoot_edits; with_reducible assumption; decide) | (with_reducible apply Dev.placeRoot_snd_edits <;> first | with_reducible assumption | decide | (dsimp only; decide) | skip) | with_reducible refine Edits.foldl _ (fun _ _ _ => ?_) _ ?_ | (extract_lets -merge +onlyGivenNames x; first | (refine (fun _ : Edits 0x80000066008 d x => ?_) ?_; (on_goal 1 => clear_value x); (on_goal 2 => subst x)) | (have _h : ∃ y : Fld, y = x := ⟨x, rfl⟩; clear _h; subst x) | (have _h : ∃ y : Tsu, y = x := ⟨x, rfl⟩; clear _h; subst x) | (have _h : ∃ y : TrlRt, y = x := ⟨x, rfl⟩; clear _h; subst x) | (have _h : ∃ y : Clo, y = x := ⟨x, rfl⟩; clear _h; subst x) | (have _h : ∃ y : Face, y = x := ⟨x, rfl⟩; clear _h; subst x) | (have _h : ∃ y : HostIf, y = x := ⟨x, rfl⟩; clear _h; subst x) | (have _h : ∃ y : (_ → _), y = x := ⟨x, rfl⟩; clear _h; subst x) | clear_value x | subst x) | split | with_reducible refine Edits.upd (h := ?_)

theorem Dev.takeS_edits {m : Nat} {d₀ d : Dev} {x1} (hm : Nat.land m 0x348040004e003 = 0x348040004e003 := by decide)
    (h : Edits m d₀ d) : Edits m d₀ (Dev.takeS d x1) := by
  refine Edits.andThen (t := 0x348040004e003) h ?_ hm
  unfold Dev.takeS
  repeat' first | with_reducible exact Edits.refl _ | with_reducible assumption | (with_reducible apply Dev.rootCommitted_edits <;> first | with_reducible assumption | decide | (dsimp only; decide) | skip) | with_reducible refine Edits.foldl _ (fun _ _ _ => ?_) _ ?_ | (extract_lets -merge +onlyGivenNames x; first | (refine (fun _ : Edits 0x348040004e003 d x => ?_) ?_; (on_goal 1 => clear_value x); (on_goal 2 => subst x)) | (have _h : ∃ y : Fld, y = x := ⟨x, rfl⟩; clear _h; subst x) | (have _h : ∃ y : Tsu, y = x := ⟨x, rfl⟩; clear _h; subst x) | (have _h : ∃ y : TrlRt, y = x := ⟨x, rfl⟩; clear _h; subst x) | (have _h : ∃ y : Clo, y = x := ⟨x, rfl⟩; clear _h; subst x) | (have _h : ∃ y : Face, y = x := ⟨x, rfl⟩; clear _h; subst x) | (have _h : ∃ y : HostIf, y = x := ⟨x, rfl⟩; clear _h; subst x) | (have _h : ∃ y : (_ → _), y = x := ⟨x, rfl⟩; clear _h; subst x) | clear_value x | subst x) | split | with_reducible refine Edits.upd (h := ?_)

theorem Dev.showSlot_edits {m : Nat} {d₀ d : Dev} {x1} (hm : Nat.land m 0x200000000 = 0x200000000 := by decide)
    (h : Edits m d₀ d) : Edits m d₀ (Dev.showSlot d x1) := by
  refine Edits.andThen (t := 0x200000000) h ?_ hm
  unfold Dev.showSlot
  repeat' first | with_reducible exact Edits.refl _ | with_reducible assumption | (with_reducible apply Dev.set_at_edits <;> first | with_reducible assumption | decide | (dsimp only; decide) | skip) | (with_reducible apply Dev.set_at2_edits <;> first | with_reducible assumption | decide | (dsimp only; decide) | skip) | (with_reducible apply Dev.set_edits <;> first | with_reducible assumption | decide | (dsimp only; decide) | skip) | with_reducible refine Edits.foldl _ (fun _ _ _ => ?_) _ ?_ | (extract_lets -merge +onlyGivenNames x; first | (refine (fun _ : Edits 0x200000000 d x => ?_) ?_; (on_goal 1 => clear_value x); (on_goal 2 => subst x)) | (have _h : ∃ y : Fld, y = x := ⟨x, rfl⟩; clear _h; subst x) | (have _h : ∃ y : Tsu, y = x := ⟨x, rfl⟩; clear _h; subst x) | (have _h : ∃ y : TrlRt, y = x := ⟨x, rfl⟩; clear _h; subst x) | (have _h : ∃ y : Clo, y = x := ⟨x, rfl⟩; clear _h; subst x) | (have _h : ∃ y : Face, y = x := ⟨x, rfl⟩; clear _h; subst x) | (have _h : ∃ y : HostIf, y = x := ⟨x, rfl⟩; clear _h; subst x) | (have _h : ∃ y : (_ → _), y = x := ⟨x, rfl⟩; clear _h; subst x) | clear_value x | subst x) | split | with_reducible refine Edits.upd (h := ?_)

theorem Dev.putSlot_edits {m : Nat} {d₀ d : Dev} {x1 x2} (hm : Nat.land m 0x200000040 = 0x200000040 := by decide)
    (h : Edits m d₀ d) : Edits m d₀ (Dev.putSlot d x1 x2) := by
  refine Edits.andThen (t := 0x200000040) h ?_ hm
  unfold Dev.putSlot
  repeat' first | with_reducible exact Edits.refl _ | with_reducible assumption | (with_reducible apply Dev.showSlot_edits <;> first | with_reducible assumption | decide | (dsimp only; decide) | skip) | with_reducible refine Edits.foldl _ (fun _ _ _ => ?_) _ ?_ | (extract_lets -merge +onlyGivenNames x; first | (refine (fun _ : Edits 0x200000040 d x => ?_) ?_; (on_goal 1 => clear_value x); (on_goal 2 => subst x)) | (have _h : ∃ y : Fld, y = x := ⟨x, rfl⟩; clear _h; subst x) | (have _h : ∃ y : Tsu, y = x := ⟨x, rfl⟩; clear _h; subst x) | (have _h : ∃ y : TrlRt, y = x := ⟨x, rfl⟩; clear _h; subst x) | (have _h : ∃ y : Clo, y = x := ⟨x, rfl⟩; clear _h; subst x) | (have _h : ∃ y : Face, y = x := ⟨x, rfl⟩; clear _h; subst x) | (have _h : ∃ y : HostIf, y = x := ⟨x, rfl⟩; clear _h; subst x) | (have _h : ∃ y : (_ → _), y = x := ⟨x, rfl⟩; clear _h; subst x) | clear_value x | subst x) | split | with_reducible refine Edits.upd (h := ?_)

theorem Dev.cloRaise_edits {m : Nat} {d₀ d : Dev} {x : Fld} {a b : Nat}
    (hx : m.testBit (regBit x.off) = true := by decide)
    (hm : Nat.land m 0x340040004c003 = 0x340040004c003 := by decide) (h : Edits m d₀ d) : Edits m d₀ (d.cloRaise x a b) := by
  unfold Dev.cloRaise
  split
  · exact h
  · split
    · exact Dev.setW1c_edits hx (sub_bit hm (by decide)) h
    · exact Dev.raise_edits hx hm h

theorem Dev.emptySlot_edits {m : Nat} {d₀ d : Dev} {x1} (hm : Nat.land m 0x200000040 = 0x200000040 := by decide)
    (h : Edits m d₀ d) : Edits m d₀ (Dev.emptySlot d x1) := by
  refine Edits.andThen (t := 0x200000040) h ?_ hm
  unfold Dev.emptySlot
  repeat' first | with_reducible exact Edits.refl _ | with_reducible assumption | (with_reducible apply Dev.showSlot_edits <;> first | with_reducible assumption | decide | (dsimp only; decide) | skip) | with_reducible refine Edits.foldl _ (fun _ _ _ => ?_) _ ?_ | (extract_lets -merge +onlyGivenNames x; first | (refine (fun _ : Edits 0x200000040 d x => ?_) ?_; (on_goal 1 => clear_value x); (on_goal 2 => subst x)) | (have _h : ∃ y : Fld, y = x := ⟨x, rfl⟩; clear _h; subst x) | (have _h : ∃ y : Tsu, y = x := ⟨x, rfl⟩; clear _h; subst x) | (have _h : ∃ y : TrlRt, y = x := ⟨x, rfl⟩; clear _h; subst x) | (have _h : ∃ y : Clo, y = x := ⟨x, rfl⟩; clear _h; subst x) | (have _h : ∃ y : Face, y = x := ⟨x, rfl⟩; clear _h; subst x) | (have _h : ∃ y : HostIf, y = x := ⟨x, rfl⟩; clear _h; subst x) | (have _h : ∃ y : (_ → _), y = x := ⟨x, rfl⟩; clear _h; subst x) | clear_value x | subst x) | split | with_reducible refine Edits.upd (h := ?_)

theorem Dev.queueRecord_edits {m : Nat} {d₀ d : Dev} {x1} (hm : Nat.land m 0x800 = 0x800 := by decide)
    (h : Edits m d₀ d) : Edits m d₀ (Dev.queueRecord d x1) := by
  refine Edits.andThen (t := 0x800) h ?_ hm
  unfold Dev.queueRecord
  repeat' first | with_reducible exact Edits.refl _ | with_reducible assumption | with_reducible refine Edits.foldl _ (fun _ _ _ => ?_) _ ?_ | (extract_lets -merge +onlyGivenNames x; first | (refine (fun _ : Edits 0x800 d x => ?_) ?_; (on_goal 1 => clear_value x); (on_goal 2 => subst x)) | (have _h : ∃ y : Fld, y = x := ⟨x, rfl⟩; clear _h; subst x) | (have _h : ∃ y : Tsu, y = x := ⟨x, rfl⟩; clear _h; subst x) | (have _h : ∃ y : TrlRt, y = x := ⟨x, rfl⟩; clear _h; subst x) | (have _h : ∃ y : Clo, y = x := ⟨x, rfl⟩; clear _h; subst x) | (have _h : ∃ y : Face, y = x := ⟨x, rfl⟩; clear _h; subst x) | (have _h : ∃ y : HostIf, y = x := ⟨x, rfl⟩; clear _h; subst x) | (have _h : ∃ y : (_ → _), y = x := ⟨x, rfl⟩; clear _h; subst x) | clear_value x | subst x) | split | with_reducible refine Edits.upd (h := ?_)

theorem Dev.reEmitUnsigned_edits {m : Nat} {d₀ d : Dev} (hm : Nat.land m 0x800 = 0x800 := by decide)
    (h : Edits m d₀ d) : Edits m d₀ (Dev.reEmitUnsigned d) := by
  refine Edits.andThen (t := 0x800) h ?_ hm
  unfold Dev.reEmitUnsigned
  repeat' first | with_reducible exact Edits.refl _ | with_reducible assumption | (with_reducible apply Dev.queueRecord_edits <;> first | with_reducible assumption | decide | (dsimp only; decide) | skip) | with_reducible refine Edits.foldl _ (fun _ _ _ => ?_) _ ?_ | (extract_lets -merge +onlyGivenNames x; first | (refine (fun _ : Edits 0x800 d x => ?_) ?_; (on_goal 1 => clear_value x); (on_goal 2 => subst x)) | (have _h : ∃ y : Fld, y = x := ⟨x, rfl⟩; clear _h; subst x) | (have _h : ∃ y : Tsu, y = x := ⟨x, rfl⟩; clear _h; subst x) | (have _h : ∃ y : TrlRt, y = x := ⟨x, rfl⟩; clear _h; subst x) | (have _h : ∃ y : Clo, y = x := ⟨x, rfl⟩; clear _h; subst x) | (have _h : ∃ y : Face, y = x := ⟨x, rfl⟩; clear _h; subst x) | (have _h : ∃ y : HostIf, y = x := ⟨x, rfl⟩; clear _h; subst x) | (have _h : ∃ y : (_ → _), y = x := ⟨x, rfl⟩; clear _h; subst x) | clear_value x | subst x) | split | with_reducible refine Edits.upd (h := ?_)

theorem Dev.reEmitNow_edits {m : Nat} {d₀ d : Dev} (hm : Nat.land m 0x800 = 0x800 := by decide)
    (h : Edits m d₀ d) : Edits m d₀ (Dev.reEmitNow d) := by
  refine Edits.andThen (t := 0x800) h ?_ hm
  unfold Dev.reEmitNow
  repeat' first | with_reducible exact Edits.refl _ | with_reducible assumption | (with_reducible apply Dev.reEmitUnsigned_edits <;> first | with_reducible assumption | decide | (dsimp only; decide) | skip) | with_reducible refine Edits.foldl _ (fun _ _ _ => ?_) _ ?_ | (extract_lets -merge +onlyGivenNames x; first | (refine (fun _ : Edits 0x800 d x => ?_) ?_; (on_goal 1 => clear_value x); (on_goal 2 => subst x)) | (have _h : ∃ y : Fld, y = x := ⟨x, rfl⟩; clear _h; subst x) | (have _h : ∃ y : Tsu, y = x := ⟨x, rfl⟩; clear _h; subst x) | (have _h : ∃ y : TrlRt, y = x := ⟨x, rfl⟩; clear _h; subst x) | (have _h : ∃ y : Clo, y = x := ⟨x, rfl⟩; clear _h; subst x) | (have _h : ∃ y : Face, y = x := ⟨x, rfl⟩; clear _h; subst x) | (have _h : ∃ y : HostIf, y = x := ⟨x, rfl⟩; clear _h; subst x) | (have _h : ∃ y : (_ → _), y = x := ⟨x, rfl⟩; clear _h; subst x) | clear_value x | subst x) | split | with_reducible refine Edits.upd (h := ?_)

theorem Dev.commitRoot_edits {m : Nat} {d₀ d : Dev} {x1} (hm : Nat.land m 0x348040006e80b = 0x348040006e80b := by decide)
    (h : Edits m d₀ d) : Edits m d₀ (Dev.commitRoot d x1) := by
  refine Edits.andThen (t := 0x348040006e80b) h ?_ hm
  unfold Dev.commitRoot
  repeat' first | with_reducible exact Edits.refl _ | with_reducible assumption | dsimp -zeta only | (with_reducible apply Dev.journal_edits <;> first | with_reducible assumption | decide | (dsimp only; decide) | skip) | (with_reducible apply Dev.placeRoot_edits; with_reducible assumption; decide) | (with_reducible apply Dev.placeRoot_snd_edits <;> first | with_reducible assumption | decide | (dsimp only; decide) | skip) | (with_reducible apply Dev.reEmitNow_edits <;> first | with_reducible assumption | decide | (dsimp only; decide) | skip) | (with_reducible apply Dev.rootCommitted_edits <;> first | with_reducible assumption | decide | (dsimp only; decide) | skip) | (with_reducible apply Dev.storeRoot_edits <;> first | with_reducible assumption | decide | (dsimp only; decide) | skip) | (with_reducible apply Dev.deriveSlot_edits <;> first | with_reducible assumption | decide | (dsimp only; decide) | skip) | (with_reducible apply Dev.set_edits <;> first | with_reducible assumption | decide | (dsimp only; decide) | skip) | (with_reducible apply Dev.set_at2_edits <;> first | with_reducible assumption | decide | (dsimp only; decide) | skip) | (with_reducible apply Dev.raise_at2_edits <;> first | with_reducible assumption | decide | (dsimp only; decide) | skip) | (with_reducible apply Dev.raise_edits <;> first | with_reducible assumption | decide | (dsimp only; decide) | skip) | (with_reducible apply Dev.set_at_edits <;> first | with_reducible assumption | decide | (dsimp only; decide) | skip) | (with_reducible apply Dev.raise_at_edits <;> first | with_reducible assumption | decide | (dsimp only; decide) | skip) | with_reducible refine Edits.foldl _ (fun _ _ _ => ?_) _ ?_ | (extract_lets -merge +onlyGivenNames x; first | (refine (fun _ : Edits 0x348040006e80b d x => ?_) ?_; (on_goal 1 => clear_value x); (on_goal 2 => subst x)) | (have _h : ∃ y : Fld, y = x := ⟨x, rfl⟩; clear _h; subst x) | (have _h : ∃ y : Tsu, y = x := ⟨x, rfl⟩; clear _h; subst x) | (have _h : ∃ y : TrlRt, y = x := ⟨x, rfl⟩; clear _h; subst x) | (have _h : ∃ y : Clo, y = x := ⟨x, rfl⟩; clear _h; subst x) | (have _h : ∃ y : Face, y = x := ⟨x, rfl⟩; clear _h; subst x) | (have _h : ∃ y : HostIf, y = x := ⟨x, rfl⟩; clear _h; subst x) | (have _h : ∃ y : (_ → _), y = x := ⟨x, rfl⟩; clear _h; subst x) | clear_value x | subst x) | split | with_reducible refine Edits.upd (h := ?_)

theorem Dev.finish_edits {m : Nat} {d₀ d : Dev} {x1 x2} (hm : Nat.land m 0x34e2e0006ec0b = 0x34e2e0006ec0b := by decide)
    (h : Edits m d₀ d) : Edits m d₀ (Dev.finish d x1 x2) := by
  refine Edits.andThen (t := 0x34e2e0006ec0b) h ?_ hm
  unfold Dev.finish
  repeat' first | with_reducible exact Edits.refl _ | with_reducible assumption | (with_reducible apply Dev.commitRoot_edits <;> first | with_reducible assumption | decide | (dsimp only; decide) | skip) | (with_reducible apply Dev.keyDone_edits <;> first | with_reducible assumption | decide | (dsimp only; decide) | skip) | (with_reducible apply Dev.raise_at_edits <;> first | with_reducible assumption | decide | (dsimp only; decide) | skip) | (with_reducible apply Dev.raise_at2_edits <;> first | with_reducible assumption | decide | (dsimp only; decide) | skip) | (with_reducible apply Dev.raise_edits <;> first | with_reducible assumption | decide | (dsimp only; decide) | skip) | (with_reducible apply Dev.set_at_edits <;> first | with_reducible assumption | decide | (dsimp only; decide) | skip) | (with_reducible apply Dev.set_at2_edits <;> first | with_reducible assumption | decide | (dsimp only; decide) | skip) | (with_reducible apply Dev.set_edits <;> first | with_reducible assumption | decide | (dsimp only; decide) | skip) | with_reducible refine Edits.foldl _ (fun _ _ _ => ?_) _ ?_ | (extract_lets -merge +onlyGivenNames x; first | (refine (fun _ : Edits 0x34e2e0006ec0b d x => ?_) ?_; (on_goal 1 => clear_value x); (on_goal 2 => subst x)) | (have _h : ∃ y : Fld, y = x := ⟨x, rfl⟩; clear _h; subst x) | (have _h : ∃ y : Tsu, y = x := ⟨x, rfl⟩; clear _h; subst x) | (have _h : ∃ y : TrlRt, y = x := ⟨x, rfl⟩; clear _h; subst x) | (have _h : ∃ y : Clo, y = x := ⟨x, rfl⟩; clear _h; subst x) | (have _h : ∃ y : Face, y = x := ⟨x, rfl⟩; clear _h; subst x) | (have _h : ∃ y : HostIf, y = x := ⟨x, rfl⟩; clear _h; subst x) | (have _h : ∃ y : (_ → _), y = x := ⟨x, rfl⟩; clear _h; subst x) | clear_value x | subst x) | split | with_reducible refine Edits.upd (h := ?_)

theorem Dev.discardMeter_edits {m : Nat} {d₀ d : Dev} {x1} (hm : Nat.land m 0x3480c000cce03 = 0x3480c000cce03 := by decide)
    (h : Edits m d₀ d) : Edits m d₀ (Dev.discardMeter d x1) := by
  refine Edits.andThen (t := 0x3480c000cce03) h ?_ hm
  unfold Dev.discardMeter
  repeat' first | with_reducible exact Edits.refl _ | with_reducible assumption | (with_reducible apply Dev.countBy_lit_edits <;> [decide; skip]) | (with_reducible apply Dev.countBy_edits <;> first | with_reducible assumption | decide | (dsimp only; decide) | skip) | (with_reducible apply Dev.forgetMeter_edits <;> first | with_reducible assumption | decide | (dsimp only; decide) | skip) | (with_reducible apply Dev.keyDone_edits <;> first | with_reducible assumption | decide | (dsimp only; decide) | skip) | with_reducible refine Edits.foldl _ (fun _ _ _ => ?_) _ ?_ | (extract_lets -merge +onlyGivenNames x; first | (refine (fun _ : Edits 0x3480c000cce03 d x => ?_) ?_; (on_goal 1 => clear_value x); (on_goal 2 => subst x)) | (have _h : ∃ y : Fld, y = x := ⟨x, rfl⟩; clear _h; subst x) | (have _h : ∃ y : Tsu, y = x := ⟨x, rfl⟩; clear _h; subst x) | (have _h : ∃ y : TrlRt, y = x := ⟨x, rfl⟩; clear _h; subst x) | (have _h : ∃ y : Clo, y = x := ⟨x, rfl⟩; clear _h; subst x) | (have _h : ∃ y : Face, y = x := ⟨x, rfl⟩; clear _h; subst x) | (have _h : ∃ y : HostIf, y = x := ⟨x, rfl⟩; clear _h; subst x) | (have _h : ∃ y : (_ → _), y = x := ⟨x, rfl⟩; clear _h; subst x) | clear_value x | subst x) | split | with_reducible refine Edits.upd (h := ?_)

theorem Dev.sendHeld_edits {m : Nat} {d₀ d : Dev} {x1} (hm : Nat.land m 0x1000000040042 = 0x1000000040042 := by decide)
    (h : Edits m d₀ d) : Edits m d₀ (Dev.sendHeld d x1) := by
  refine Edits.andThen (t := 0x1000000040042) h ?_ hm
  unfold Dev.sendHeld
  repeat' first | with_reducible exact Edits.refl _ | with_reducible assumption | (with_reducible apply Dev.sendRunner_edits <;> first | with_reducible assumption | decide | (dsimp only; decide) | skip) | with_reducible refine Edits.foldl _ (fun _ _ _ => ?_) _ ?_ | (extract_lets -merge +onlyGivenNames x; first | (refine (fun _ : Edits 0x1000000040042 d x => ?_) ?_; (on_goal 1 => clear_value x); (on_goal 2 => subst x)) | (have _h : ∃ y : Fld, y = x := ⟨x, rfl⟩; clear _h; subst x) | (have _h : ∃ y : Tsu, y = x := ⟨x, rfl⟩; clear _h; subst x) | (have _h : ∃ y : TrlRt, y = x := ⟨x, rfl⟩; clear _h; subst x) | (have _h : ∃ y : Clo, y = x := ⟨x, rfl⟩; clear _h; subst x) | (have _h : ∃ y : Face, y = x := ⟨x, rfl⟩; clear _h; subst x) | (have _h : ∃ y : HostIf, y = x := ⟨x, rfl⟩; clear _h; subst x) | (have _h : ∃ y : (_ → _), y = x := ⟨x, rfl⟩; clear _h; subst x) | clear_value x | subst x) | split | with_reducible refine Edits.upd (h := ?_)

theorem Dev.complete_edits {m : Nat} {d₀ d : Dev} {c : PairCmd} (hm : Nat.land m 0x34e2e000eee4b = 0x34e2e000eee4b := by decide)
    (h : Edits m d₀ d) : Edits m d₀ (d.complete c) := by
  refine Edits.andThen (t := 0x34e2e000eee4b) h ?_ hm
  unfold Dev.complete
  extract_lets -merge +onlyGivenNames d₁ d₂ d₃ d₄ d₅
  have h₁ : Edits 0x34e2e000eee4b d d₁ := Edits.foldl _ (fun _ _ h => Dev.discardMeter_edits (h := h)) _ (Edits.refl _)
  have h₂ : Edits 0x34e2e000eee4b d d₂ := Edits.foldl _ (fun _ _ h => Dev.journal_edits (h := h)) _ h₁
  have h₃ : Edits 0x34e2e000eee4b d d₃ := Edits.elim h₂ fun _ => Dev.putSlot_edits (h := h₂)
  have h₄ : Edits 0x34e2e000eee4b d d₄ := Edits.ite (fun _ => Dev.sendHeld_edits (h := h₃)) fun _ => h₃
  have h₅ : Edits 0x34e2e000eee4b d d₅ := Edits.foldl _ (fun _ _ h => Dev.emit_edits (h := h)) _ h₄
  exact Dev.finish_edits (h := Edits.upd (h := h₅))

theorem Dev.pairDo_edits {m : Nat} {d₀ d : Dev} {c : PairCmd} (hm : Nat.land m 0x34e2e000eee4b = 0x34e2e000eee4b := by decide)
    (h : Edits m d₀ d) : Edits m d₀ (d.pairDo c) := by
  refine Edits.andThen (t := 0x34e2e000eee4b) h ?_ hm
  unfold Dev.pairDo
  split
  · extract_lets -merge +onlyGivenNames d₁
    have h₁ : Edits 0x34e2e000eee4b d d₁ := Dev.sendRunner_edits (h := Edits.refl _)
    clear_value d₁
    extract_lets -merge +onlyGivenNames p d₂
    have h₂ : Edits 0x34e2e000eee4b d d₂ := Edits.upd (h := h₁)
    clear_value d₂
    cases c.finish <;> first | exact h₂ | exact Dev.set_edits (h := h₂)
  · exact Dev.complete_edits (h := Edits.refl _)

end Sys2Proof.Machine
end

