-- ==== Sys2Proof/Laws/Ops/Nfm.lean ====
section
/-! SUPPORT. What the operations of Machine/Nfm.lean may do: the parts each touches (`Edits`), said once. -/

set_option linter.unusedTactic false
set_option linter.unreachableTactic false
set_option Elab.async false

namespace Sys2Proof.Machine

theorem Dev.showOldest_edits {m : Nat} {d₀ d : Dev} (hm : Nat.land m 0x200000010000 = 0x200000010000 := by decide)
    (h : Edits m d₀ d) : Edits m d₀ (Dev.showOldest d) := by
  refine Edits.andThen (t := 0x200000010000) h ?_ hm
  unfold Dev.showOldest
  repeat' first | with_reducible exact Edits.refl _ | with_reducible assumption | (with_reducible apply Dev.setWide_lit_edits <;> [decide; decide; skip]) | (with_reducible apply Dev.setWide_edits <;> first | with_reducible assumption | decide | (dsimp only; decide) | skip) | with_reducible refine Edits.foldl _ (fun _ _ _ => ?_) _ ?_ | (extract_lets -merge +onlyGivenNames x; first | (refine (fun _ : Edits 0x200000010000 d x => ?_) ?_; (on_goal 1 => clear_value x); (on_goal 2 => subst x)) | (have _h : ∃ y : Fld, y = x := ⟨x, rfl⟩; clear _h; subst x) | (have _h : ∃ y : Tsu, y = x := ⟨x, rfl⟩; clear _h; subst x) | (have _h : ∃ y : TrlRt, y = x := ⟨x, rfl⟩; clear _h; subst x) | (have _h : ∃ y : Clo, y = x := ⟨x, rfl⟩; clear _h; subst x) | (have _h : ∃ y : Face, y = x := ⟨x, rfl⟩; clear _h; subst x) | (have _h : ∃ y : HostIf, y = x := ⟨x, rfl⟩; clear _h; subst x) | (have _h : ∃ y : (_ → _), y = x := ⟨x, rfl⟩; clear _h; subst x) | clear_value x | subst x) | split | with_reducible refine Edits.upd (h := ?_)

theorem Dev.releaseEpoch_edits {m : Nat} {d₀ d : Dev} {x1} (hm : Nat.land m 0x360040005c003 = 0x360040005c003 := by decide)
    (h : Edits m d₀ d) : Edits m d₀ (Dev.releaseEpoch d x1) := by
  refine Edits.andThen (t := 0x360040005c003) h ?_ hm
  unfold Dev.releaseEpoch
  repeat' first | with_reducible exact Edits.refl _ | with_reducible assumption | (with_reducible apply Dev.count_lit_edits <;> [decide; skip]) | (with_reducible apply Dev.count_edits <;> first | with_reducible assumption | decide | (dsimp only; decide) | skip) | (with_reducible apply Dev.raise_at_edits <;> first | with_reducible assumption | decide | (dsimp only; decide) | skip) | (with_reducible apply Dev.raise_at2_edits <;> first | with_reducible assumption | decide | (dsimp only; decide) | skip) | (with_reducible apply Dev.raise_edits <;> first | with_reducible assumption | decide | (dsimp only; decide) | skip) | (with_reducible apply Dev.showOldest_edits <;> first | with_reducible assumption | decide | (dsimp only; decide) | skip) | with_reducible refine Edits.foldl _ (fun _ _ _ => ?_) _ ?_ | (extract_lets -merge +onlyGivenNames x; first | (refine (fun _ : Edits 0x360040005c003 d x => ?_) ?_; (on_goal 1 => clear_value x); (on_goal 2 => subst x)) | (have _h : ∃ y : Fld, y = x := ⟨x, rfl⟩; clear _h; subst x) | (have _h : ∃ y : Tsu, y = x := ⟨x, rfl⟩; clear _h; subst x) | (have _h : ∃ y : TrlRt, y = x := ⟨x, rfl⟩; clear _h; subst x) | (have _h : ∃ y : Clo, y = x := ⟨x, rfl⟩; clear _h; subst x) | (have _h : ∃ y : Face, y = x := ⟨x, rfl⟩; clear _h; subst x) | (have _h : ∃ y : HostIf, y = x := ⟨x, rfl⟩; clear _h; subst x) | (have _h : ∃ y : (_ → _), y = x := ⟨x, rfl⟩; clear _h; subst x) | clear_value x | subst x) | split | with_reducible refine Edits.upd (h := ?_)

theorem Dev.showOverflow_edits {m : Nat} {d₀ d : Dev} (hm : Nat.land m 0x740040004c003 = 0x740040004c003 := by decide)
    (h : Edits m d₀ d) : Edits m d₀ (Dev.showOverflow d) := by
  refine Edits.andThen (t := 0x740040004c003) h ?_ hm
  unfold Dev.showOverflow
  repeat' first | with_reducible exact Edits.refl _ | with_reducible assumption | (with_reducible apply Dev.condition_at_edits <;> first | with_reducible assumption | decide | (dsimp only; decide) | skip) | (with_reducible apply Dev.condition_at2_edits <;> first | with_reducible assumption | decide | (dsimp only; decide) | skip) | (with_reducible apply Dev.condition_edits <;> first | with_reducible assumption | decide | (dsimp only; decide) | skip) | (with_reducible apply Dev.set_at_edits <;> first | with_reducible assumption | decide | (dsimp only; decide) | skip) | (with_reducible apply Dev.set_at2_edits <;> first | with_reducible assumption | decide | (dsimp only; decide) | skip) | (with_reducible apply Dev.set_edits <;> first | with_reducible assumption | decide | (dsimp only; decide) | skip) | with_reducible refine Edits.foldl _ (fun _ _ _ => ?_) _ ?_ | (extract_lets -merge +onlyGivenNames x; first | (refine (fun _ : Edits 0x740040004c003 d x => ?_) ?_; (on_goal 1 => clear_value x); (on_goal 2 => subst x)) | (have _h : ∃ y : Fld, y = x := ⟨x, rfl⟩; clear _h; subst x) | (have _h : ∃ y : Tsu, y = x := ⟨x, rfl⟩; clear _h; subst x) | (have _h : ∃ y : TrlRt, y = x := ⟨x, rfl⟩; clear _h; subst x) | (have _h : ∃ y : Clo, y = x := ⟨x, rfl⟩; clear _h; subst x) | (have _h : ∃ y : Face, y = x := ⟨x, rfl⟩; clear _h; subst x) | (have _h : ∃ y : HostIf, y = x := ⟨x, rfl⟩; clear _h; subst x) | (have _h : ∃ y : (_ → _), y = x := ⟨x, rfl⟩; clear _h; subst x) | clear_value x | subst x) | split | with_reducible refine Edits.upd (h := ?_)

theorem Dev.archive_edits {m : Nat} {d₀ d : Dev} {x1} (hm : Nat.land m 0x760040005c003 = 0x760040005c003 := by decide)
    (h : Edits m d₀ d) : Edits m d₀ (Dev.archive d x1) := by
  refine Edits.andThen (t := 0x760040005c003) h ?_ hm
  unfold Dev.archive
  repeat' first | with_reducible exact Edits.refl _ | with_reducible assumption | (with_reducible apply Dev.count_lit_edits <;> [decide; skip]) | (with_reducible apply Dev.count_edits <;> first | with_reducible assumption | decide | (dsimp only; decide) | skip) | (with_reducible apply Dev.raise_at_edits <;> first | with_reducible assumption | decide | (dsimp only; decide) | skip) | (with_reducible apply Dev.raise_at2_edits <;> first | with_reducible assumption | decide | (dsimp only; decide) | skip) | (with_reducible apply Dev.raise_edits <;> first | with_reducible assumption | decide | (dsimp only; decide) | skip) | (with_reducible apply Dev.releaseEpoch_edits <;> first | with_reducible assumption | decide | (dsimp only; decide) | skip) | (with_reducible apply Dev.set_at_edits <;> first | with_reducible assumption | decide | (dsimp only; decide) | skip) | (with_reducible apply Dev.set_at2_edits <;> first | with_reducible assumption | decide | (dsimp only; decide) | skip) | (with_reducible apply Dev.set_edits <;> first | with_reducible assumption | decide | (dsimp only; decide) | skip) | (with_reducible apply Dev.setWide_lit_edits <;> [decide; decide; skip]) | (with_reducible apply Dev.setWide_edits <;> first | with_reducible assumption | decide | (dsimp only; decide) | skip) | (with_reducible apply Dev.showOverflow_edits <;> first | with_reducible assumption | decide | (dsimp only; decide) | skip) | with_reducible refine Edits.foldl _ (fun _ _ _ => ?_) _ ?_ | (extract_lets -merge +onlyGivenNames x; first | (refine (fun _ : Edits 0x760040005c003 d x => ?_) ?_; (on_goal 1 => clear_value x); (on_goal 2 => subst x)) | (have _h : ∃ y : Fld, y = x := ⟨x, rfl⟩; clear _h; subst x) | (have _h : ∃ y : Tsu, y = x := ⟨x, rfl⟩; clear _h; subst x) | (have _h : ∃ y : TrlRt, y = x := ⟨x, rfl⟩; clear _h; subst x) | (have _h : ∃ y : Clo, y = x := ⟨x, rfl⟩; clear _h; subst x) | (have _h : ∃ y : Face, y = x := ⟨x, rfl⟩; clear _h; subst x) | (have _h : ∃ y : HostIf, y = x := ⟨x, rfl⟩; clear _h; subst x) | (have _h : ∃ y : (_ → _), y = x := ⟨x, rfl⟩; clear _h; subst x) | clear_value x | subst x) | split | with_reducible refine Edits.upd (h := ?_)

theorem Dev.archiveFill_edits {m : Nat} {d₀ d : Dev} {x1 x2 x3} (hm : Nat.land m 0x18000 = 0x18000 := by decide)
    (h : Edits m d₀ d) : Edits m d₀ (Dev.archiveFill d x1 x2 x3) := by
  refine Edits.andThen (t := 0x18000) h ?_ hm
  unfold Dev.archiveFill
  repeat' first | with_reducible exact Edits.refl _ | with_reducible assumption | with_reducible refine Edits.foldl _ (fun _ _ _ => ?_) _ ?_ | (extract_lets -merge +onlyGivenNames x; first | (refine (fun _ : Edits 0x18000 d x => ?_) ?_; (on_goal 1 => clear_value x); (on_goal 2 => subst x)) | (have _h : ∃ y : Fld, y = x := ⟨x, rfl⟩; clear _h; subst x) | (have _h : ∃ y : Tsu, y = x := ⟨x, rfl⟩; clear _h; subst x) | (have _h : ∃ y : TrlRt, y = x := ⟨x, rfl⟩; clear _h; subst x) | (have _h : ∃ y : Clo, y = x := ⟨x, rfl⟩; clear _h; subst x) | (have _h : ∃ y : Face, y = x := ⟨x, rfl⟩; clear _h; subst x) | (have _h : ∃ y : HostIf, y = x := ⟨x, rfl⟩; clear _h; subst x) | (have _h : ∃ y : (_ → _), y = x := ⟨x, rfl⟩; clear _h; subst x) | clear_value x | subst x) | split | with_reducible refine Edits.upd (h := ?_)

theorem Dev.stall_edits {m : Nat} {d₀ d : Dev} {x1} (hm : Nat.land m 0x740040004c003 = 0x740040004c003 := by decide)
    (h : Edits m d₀ d) : Edits m d₀ (Dev.stall d x1) := by
  refine Edits.andThen (t := 0x740040004c003) h ?_ hm
  unfold Dev.stall
  repeat' first | with_reducible exact Edits.refl _ | with_reducible assumption | (with_reducible apply Dev.condition_at_edits <;> first | with_reducible assumption | decide | (dsimp only; decide) | skip) | (with_reducible apply Dev.condition_at2_edits <;> first | with_reducible assumption | decide | (dsimp only; decide) | skip) | (with_reducible apply Dev.condition_edits <;> first | with_reducible assumption | decide | (dsimp only; decide) | skip) | (with_reducible apply Dev.count_lit_edits <;> [decide; skip]) | (with_reducible apply Dev.count_edits <;> first | with_reducible assumption | decide | (dsimp only; decide) | skip) | (with_reducible apply Dev.raise_at_edits <;> first | with_reducible assumption | decide | (dsimp only; decide) | skip) | (with_reducible apply Dev.raise_at2_edits <;> first | with_reducible assumption | decide | (dsimp only; decide) | skip) | (with_reducible apply Dev.raise_edits <;> first | with_reducible assumption | decide | (dsimp only; decide) | skip) | (with_reducible apply Dev.set_at_edits <;> first | with_reducible assumption | decide | (dsimp only; decide) | skip) | (with_reducible apply Dev.set_at2_edits <;> first | with_reducible assumption | decide | (dsimp only; decide) | skip) | (with_reducible apply Dev.set_edits <;> first | with_reducible assumption | decide | (dsimp only; decide) | skip) | with_reducible refine Edits.foldl _ (fun _ _ _ => ?_) _ ?_ | (extract_lets -merge +onlyGivenNames x; first | (refine (fun _ : Edits 0x740040004c003 d x => ?_) ?_; (on_goal 1 => clear_value x); (on_goal 2 => subst x)) | (have _h : ∃ y : Fld, y = x := ⟨x, rfl⟩; clear _h; subst x) | (have _h : ∃ y : Tsu, y = x := ⟨x, rfl⟩; clear _h; subst x) | (have _h : ∃ y : TrlRt, y = x := ⟨x, rfl⟩; clear _h; subst x) | (have _h : ∃ y : Clo, y = x := ⟨x, rfl⟩; clear _h; subst x) | (have _h : ∃ y : Face, y = x := ⟨x, rfl⟩; clear _h; subst x) | (have _h : ∃ y : HostIf, y = x := ⟨x, rfl⟩; clear _h; subst x) | (have _h : ∃ y : (_ → _), y = x := ⟨x, rfl⟩; clear _h; subst x) | clear_value x | subst x) | split | with_reducible refine Edits.upd (h := ?_)

theorem Dev.copyBad_edits {m : Nat} {d₀ d : Dev} {x1} (hm : Nat.land m 0x360040005c003 = 0x360040005c003 := by decide)
    (h : Edits m d₀ d) : Edits m d₀ (Dev.copyBad d x1) := by
  refine Edits.andThen (t := 0x360040005c003) h ?_ hm
  unfold Dev.copyBad
  repeat' first | with_reducible exact Edits.refl _ | with_reducible assumption | (with_reducible apply Dev.raise_at_edits <;> first | with_reducible assumption | decide | (dsimp only; decide) | skip) | (with_reducible apply Dev.raise_at2_edits <;> first | with_reducible assumption | decide | (dsimp only; decide) | skip) | (with_reducible apply Dev.raise_edits <;> first | with_reducible assumption | decide | (dsimp only; decide) | skip) | with_reducible refine Edits.foldl _ (fun _ _ _ => ?_) _ ?_ | (extract_lets -merge +onlyGivenNames x; first | (refine (fun _ : Edits 0x360040005c003 d x => ?_) ?_; (on_goal 1 => clear_value x); (on_goal 2 => subst x)) | (have _h : ∃ y : Fld, y = x := ⟨x, rfl⟩; clear _h; subst x) | (have _h : ∃ y : Tsu, y = x := ⟨x, rfl⟩; clear _h; subst x) | (have _h : ∃ y : TrlRt, y = x := ⟨x, rfl⟩; clear _h; subst x) | (have _h : ∃ y : Clo, y = x := ⟨x, rfl⟩; clear _h; subst x) | (have _h : ∃ y : Face, y = x := ⟨x, rfl⟩; clear _h; subst x) | (have _h : ∃ y : HostIf, y = x := ⟨x, rfl⟩; clear _h; subst x) | (have _h : ∃ y : (_ → _), y = x := ⟨x, rfl⟩; clear _h; subst x) | clear_value x | subst x) | split | with_reducible refine Edits.upd (h := ?_)

theorem Dev.sealOf_snd_edits {m : Nat} {d₀ d : Dev} {x1 x2 x3 x4 x5} (hm : Nat.land m 0x2008 = 0x2008 := by decide)
    (h : Edits m d₀ d) : Edits m d₀ (Dev.sealOf d x1 x2 x3 x4 x5).2 := by
  refine Edits.andThen (t := 0x2008) h ?_ hm
  unfold Dev.sealOf
  repeat' first | with_reducible exact Edits.refl _ | with_reducible assumption | dsimp -zeta only | (with_reducible apply Dev.sign_edits; with_reducible assumption; decide) | (with_reducible apply Dev.sign_snd_edits <;> first | with_reducible assumption | decide | (dsimp only; decide) | skip) | with_reducible refine Edits.foldl _ (fun _ _ _ => ?_) _ ?_ | (extract_lets -merge +onlyGivenNames x; first | (refine (fun _ : Edits 0x2008 d x => ?_) ?_; (on_goal 1 => clear_value x); (on_goal 2 => subst x)) | (have _h : ∃ y : Fld, y = x := ⟨x, rfl⟩; clear _h; subst x) | (have _h : ∃ y : Tsu, y = x := ⟨x, rfl⟩; clear _h; subst x) | (have _h : ∃ y : TrlRt, y = x := ⟨x, rfl⟩; clear _h; subst x) | (have _h : ∃ y : Clo, y = x := ⟨x, rfl⟩; clear _h; subst x) | (have _h : ∃ y : Face, y = x := ⟨x, rfl⟩; clear _h; subst x) | (have _h : ∃ y : HostIf, y = x := ⟨x, rfl⟩; clear _h; subst x) | (have _h : ∃ y : (_ → _), y = x := ⟨x, rfl⟩; clear _h; subst x) | clear_value x | subst x) | split | with_reducible refine Edits.upd (h := ?_)

theorem Dev.sealOf_edits {m : Nat} {d₀ d d' : Dev} {x1 x2 x3 x4 x5} {y} (e : Dev.sealOf d x1 x2 x3 x4 x5 = (y, d')) (hm : Nat.land m 0x2008 = 0x2008 := by decide)
    (h : Edits m d₀ d) : Edits m d₀ d' := by
  have := Dev.sealOf_snd_edits (x1 := x1) (x2 := x2) (x3 := x3) (x4 := x4) (x5 := x5) hm h
  rw [e] at this
  exact this

theorem Dev.drainOverflow_edits {m : Nat} {d₀ d : Dev} {k } (hm : Nat.land m 0x760040005c003 = 0x760040005c003 := by decide)
    (h : Edits m d₀ d) : Edits m d₀ (Dev.drainOverflow k d) := by
  refine Edits.andThen (t := 0x760040005c003) h ?_ hm
  suffices H : ∀ k  d₁, Edits 0x760040005c003 d d₁ → Edits 0x760040005c003 d (Dev.drainOverflow k d₁) from H k  d (Edits.refl _)
  clear h hm  k
  intro k
  induction k with
  | zero =>
    intro  d₁ h
    rw [Dev.drainOverflow]
    repeat' first | with_reducible exact Edits.refl _ | with_reducible assumption | (with_reducible apply Dev.archive_edits <;> first | with_reducible assumption | decide | (dsimp only; decide) | skip) | (with_reducible apply Dev.count_lit_edits <;> [decide; skip]) | (with_reducible apply Dev.count_edits <;> first | with_reducible assumption | decide | (dsimp only; decide) | skip) | (with_reducible apply Dev.raise_at_edits <;> first | with_reducible assumption | decide | (dsimp only; decide) | skip) | (with_reducible apply Dev.raise_at2_edits <;> first | with_reducible assumption | decide | (dsimp only; decide) | skip) | (with_reducible apply Dev.raise_edits <;> first | with_reducible assumption | decide | (dsimp only; decide) | skip) | (with_reducible apply Dev.set_at_edits <;> first | with_reducible assumption | decide | (dsimp only; decide) | skip) | (with_reducible apply Dev.set_at2_edits <;> first | with_reducible assumption | decide | (dsimp only; decide) | skip) | (with_reducible apply Dev.set_edits <;> first | with_reducible assumption | decide | (dsimp only; decide) | skip) | (with_reducible apply Dev.showOverflow_edits <;> first | with_reducible assumption | decide | (dsimp only; decide) | skip) | with_reducible refine Edits.foldl _ (fun _ _ _ => ?_) _ ?_ | (extract_lets -merge +onlyGivenNames x; first | (refine (fun _ : Edits 0x760040005c003 d x => ?_) ?_; (on_goal 1 => clear_value x); (on_goal 2 => subst x)) | (have _h : ∃ y : Fld, y = x := ⟨x, rfl⟩; clear _h; subst x) | (have _h : ∃ y : Tsu, y = x := ⟨x, rfl⟩; clear _h; subst x) | (have _h : ∃ y : TrlRt, y = x := ⟨x, rfl⟩; clear _h; subst x) | (have _h : ∃ y : Clo, y = x := ⟨x, rfl⟩; clear _h; subst x) | (have _h : ∃ y : Face, y = x := ⟨x, rfl⟩; clear _h; subst x) | (have _h : ∃ y : HostIf, y = x := ⟨x, rfl⟩; clear _h; subst x) | (have _h : ∃ y : (_ → _), y = x := ⟨x, rfl⟩; clear _h; subst x) | clear_value x | subst x) | split | with_reducible refine Edits.upd (h := ?_)
  | succ k ih =>
    intro  d₁ h
    rw [Dev.drainOverflow]
    repeat' first | with_reducible exact Edits.refl _ | with_reducible assumption | (with_reducible apply ih; skip) | (rw [Dev.drainOverflow]) | (with_reducible apply Dev.archive_edits <;> first | with_reducible assumption | decide | (dsimp only; decide) | skip) | (with_reducible apply Dev.count_lit_edits <;> [decide; skip]) | (with_reducible apply Dev.count_edits <;> first | with_reducible assumption | decide | (dsimp only; decide) | skip) | (with_reducible apply Dev.raise_at_edits <;> first | with_reducible assumption | decide | (dsimp only; decide) | skip) | (with_reducible apply Dev.raise_at2_edits <;> first | with_reducible assumption | decide | (dsimp only; decide) | skip) | (with_reducible apply Dev.raise_edits <;> first | with_reducible assumption | decide | (dsimp only; decide) | skip) | (with_reducible apply Dev.set_at_edits <;> first | with_reducible assumption | decide | (dsimp only; decide) | skip) | (with_reducible apply Dev.set_at2_edits <;> first | with_reducible assumption | decide | (dsimp only; decide) | skip) | (with_reducible apply Dev.set_edits <;> first | with_reducible assumption | decide | (dsimp only; decide) | skip) | (with_reducible apply Dev.showOverflow_edits <;> first | with_reducible assumption | decide | (dsimp only; decide) | skip) | with_reducible refine Edits.foldl _ (fun _ _ _ => ?_) _ ?_ | (extract_lets -merge +onlyGivenNames x; first | (refine (fun _ : Edits 0x760040005c003 d x => ?_) ?_; (on_goal 1 => clear_value x); (on_goal 2 => subst x)) | (have _h : ∃ y : Fld, y = x := ⟨x, rfl⟩; clear _h; subst x) | (have _h : ∃ y : Tsu, y = x := ⟨x, rfl⟩; clear _h; subst x) | (have _h : ∃ y : TrlRt, y = x := ⟨x, rfl⟩; clear _h; subst x) | (have _h : ∃ y : Clo, y = x := ⟨x, rfl⟩; clear _h; subst x) | (have _h : ∃ y : Face, y = x := ⟨x, rfl⟩; clear _h; subst x) | (have _h : ∃ y : HostIf, y = x := ⟨x, rfl⟩; clear _h; subst x) | (have _h : ∃ y : (_ → _), y = x := ⟨x, rfl⟩; clear _h; subst x) | clear_value x | subst x) | split | with_reducible refine Edits.upd (h := ?_)

theorem Dev.setMedia_edits {m : Nat} {d₀ d : Dev} {x1} (hm : Nat.land m 0x760040004c003 = 0x760040004c003 := by decide)
    (h : Edits m d₀ d) : Edits m d₀ (Dev.setMedia d x1) := by
  refine Edits.andThen (t := 0x760040004c003) h ?_ hm
  unfold Dev.setMedia
  repeat' first | with_reducible exact Edits.refl _ | with_reducible assumption | (with_reducible apply Dev.condition_at_edits <;> first | with_reducible assumption | decide | (dsimp only; decide) | skip) | (with_reducible apply Dev.condition_at2_edits <;> first | with_reducible assumption | decide | (dsimp only; decide) | skip) | (with_reducible apply Dev.condition_edits <;> first | with_reducible assumption | decide | (dsimp only; decide) | skip) | (with_reducible apply Dev.set_at_edits <;> first | with_reducible assumption | decide | (dsimp only; decide) | skip) | (with_reducible apply Dev.set_at2_edits <;> first | with_reducible assumption | decide | (dsimp only; decide) | skip) | (with_reducible apply Dev.set_edits <;> first | with_reducible assumption | decide | (dsimp only; decide) | skip) | with_reducible refine Edits.foldl _ (fun _ _ _ => ?_) _ ?_ | (extract_lets -merge +onlyGivenNames x; first | (refine (fun _ : Edits 0x760040004c003 d x => ?_) ?_; (on_goal 1 => clear_value x); (on_goal 2 => subst x)) | (have _h : ∃ y : Fld, y = x := ⟨x, rfl⟩; clear _h; subst x) | (have _h : ∃ y : Tsu, y = x := ⟨x, rfl⟩; clear _h; subst x) | (have _h : ∃ y : TrlRt, y = x := ⟨x, rfl⟩; clear _h; subst x) | (have _h : ∃ y : Clo, y = x := ⟨x, rfl⟩; clear _h; subst x) | (have _h : ∃ y : Face, y = x := ⟨x, rfl⟩; clear _h; subst x) | (have _h : ∃ y : HostIf, y = x := ⟨x, rfl⟩; clear _h; subst x) | (have _h : ∃ y : (_ → _), y = x := ⟨x, rfl⟩; clear _h; subst x) | clear_value x | subst x) | split | with_reducible refine Edits.upd (h := ?_)

end Sys2Proof.Machine
end

