-- ==== Sys2Proof/Laws/Ops/RingOps.lean ====
section
/-! SUPPORT. What the operations of Machine/RingOps.lean may do: the parts each touches (`Edits`), said once. -/

set_option linter.unusedTactic false
set_option linter.unreachableTactic false
set_option Elab.async false

namespace Sys2Proof.Machine

theorem Dev.setRing_edits {m : Nat} {d₀ d : Dev} {x1 x2} (hm : Nat.land m 0x1 = 0x1 := by decide)
    (h : Edits m d₀ d) : Edits m d₀ (Dev.setRing d x1 x2) := by
  refine Edits.andThen (t := 0x1) h ?_ hm
  unfold Dev.setRing
  repeat' first | with_reducible exact Edits.refl _ | with_reducible assumption | (with_reducible apply Edits.updFace; (with_reducible apply Face.setRing_edits) <;> first | exact FEdits.refl _ | decide) | with_reducible refine Edits.foldl _ (fun _ _ _ => ?_) _ ?_ | (extract_lets -merge +onlyGivenNames x; first | (refine (fun _ : Edits 0x1 d x => ?_) ?_; (on_goal 1 => clear_value x); (on_goal 2 => subst x)) | (have _h : ∃ y : Fld, y = x := ⟨x, rfl⟩; clear _h; subst x) | (have _h : ∃ y : Tsu, y = x := ⟨x, rfl⟩; clear _h; subst x) | (have _h : ∃ y : TrlRt, y = x := ⟨x, rfl⟩; clear _h; subst x) | (have _h : ∃ y : Clo, y = x := ⟨x, rfl⟩; clear _h; subst x) | (have _h : ∃ y : Face, y = x := ⟨x, rfl⟩; clear _h; subst x) | (have _h : ∃ y : HostIf, y = x := ⟨x, rfl⟩; clear _h; subst x) | (have _h : ∃ y : (_ → _), y = x := ⟨x, rfl⟩; clear _h; subst x) | clear_value x | subst x) | split | with_reducible refine Edits.upd (h := ?_)

theorem Dev.placeWaiting_edits {m : Nat} {d₀ d : Dev} {k x1} (hm : Nat.land m 0x340040004c003 = 0x340040004c003 := by decide)
    (h : Edits m d₀ d) : Edits m d₀ (Dev.placeWaiting k x1 d) := by
  refine Edits.andThen (t := 0x340040004c003) h ?_ hm
  suffices H : ∀ k x1 d₁, Edits 0x340040004c003 d d₁ → Edits 0x340040004c003 d (Dev.placeWaiting k x1 d₁) from H k x1 d (Edits.refl _)
  clear h hm x1 k
  intro k
  induction k with
  | zero =>
    intro x1 d₁ h
    rw [Dev.placeWaiting]
    repeat' first | with_reducible exact Edits.refl _ | with_reducible assumption | (with_reducible apply Dev.ringPut_edits; with_reducible assumption; decide) | (with_reducible apply Dev.setRing_edits <;> first | with_reducible assumption | decide | (dsimp only; decide) | skip) | with_reducible refine Edits.foldl _ (fun _ _ _ => ?_) _ ?_ | (extract_lets -merge +onlyGivenNames x; first | (refine (fun _ : Edits 0x340040004c003 d x => ?_) ?_; (on_goal 1 => clear_value x); (on_goal 2 => subst x)) | (have _h : ∃ y : Fld, y = x := ⟨x, rfl⟩; clear _h; subst x) | (have _h : ∃ y : Tsu, y = x := ⟨x, rfl⟩; clear _h; subst x) | (have _h : ∃ y : TrlRt, y = x := ⟨x, rfl⟩; clear _h; subst x) | (have _h : ∃ y : Clo, y = x := ⟨x, rfl⟩; clear _h; subst x) | (have _h : ∃ y : Face, y = x := ⟨x, rfl⟩; clear _h; subst x) | (have _h : ∃ y : HostIf, y = x := ⟨x, rfl⟩; clear _h; subst x) | (have _h : ∃ y : (_ → _), y = x := ⟨x, rfl⟩; clear _h; subst x) | clear_value x | subst x) | split | with_reducible refine Edits.upd (h := ?_)
  | succ k ih =>
    intro x1 d₁ h
    rw [Dev.placeWaiting]
    repeat' first | with_reducible exact Edits.refl _ | with_reducible assumption | (with_reducible apply ih; skip) | (rw [Dev.placeWaiting]) | (with_reducible apply Dev.ringPut_edits; with_reducible assumption; decide) | (with_reducible apply Dev.setRing_edits <;> first | with_reducible assumption | decide | (dsimp only; decide) | skip) | with_reducible refine Edits.foldl _ (fun _ _ _ => ?_) _ ?_ | (extract_lets -merge +onlyGivenNames x; first | (refine (fun _ : Edits 0x340040004c003 d x => ?_) ?_; (on_goal 1 => clear_value x); (on_goal 2 => subst x)) | (have _h : ∃ y : Fld, y = x := ⟨x, rfl⟩; clear _h; subst x) | (have _h : ∃ y : Tsu, y = x := ⟨x, rfl⟩; clear _h; subst x) | (have _h : ∃ y : TrlRt, y = x := ⟨x, rfl⟩; clear _h; subst x) | (have _h : ∃ y : Clo, y = x := ⟨x, rfl⟩; clear _h; subst x) | (have _h : ∃ y : Face, y = x := ⟨x, rfl⟩; clear _h; subst x) | (have _h : ∃ y : HostIf, y = x := ⟨x, rfl⟩; clear _h; subst x) | (have _h : ∃ y : (_ → _), y = x := ⟨x, rfl⟩; clear _h; subst x) | clear_value x | subst x) | split | with_reducible refine Edits.upd (h := ?_)

theorem Dev.flushNow_edits {m : Nat} {d₀ d : Dev} {x1} (hm : Nat.land m 0x400000001 = 0x400000001 := by decide)
    (h : Edits m d₀ d) : Edits m d₀ (Dev.flushNow d x1) := by
  refine Edits.andThen (t := 0x400000001) h ?_ hm
  unfold Dev.flushNow
  repeat' first | with_reducible exact Edits.refl _ | with_reducible assumption | (with_reducible apply Dev.set_at_edits <;> first | with_reducible assumption | decide | (dsimp only; decide) | skip) | (with_reducible apply Dev.set_at2_edits <;> first | with_reducible assumption | decide | (dsimp only; decide) | skip) | (with_reducible apply Dev.set_edits <;> first | with_reducible assumption | decide | (dsimp only; decide) | skip) | (with_reducible apply Dev.setRing_edits <;> first | with_reducible assumption | decide | (dsimp only; decide) | skip) | with_reducible refine Edits.foldl _ (fun _ _ _ => ?_) _ ?_ | (extract_lets -merge +onlyGivenNames x; first | (refine (fun _ : Edits 0x400000001 d x => ?_) ?_; (on_goal 1 => clear_value x); (on_goal 2 => subst x)) | (have _h : ∃ y : Fld, y = x := ⟨x, rfl⟩; clear _h; subst x) | (have _h : ∃ y : Tsu, y = x := ⟨x, rfl⟩; clear _h; subst x) | (have _h : ∃ y : TrlRt, y = x := ⟨x, rfl⟩; clear _h; subst x) | (have _h : ∃ y : Clo, y = x := ⟨x, rfl⟩; clear _h; subst x) | (have _h : ∃ y : Face, y = x := ⟨x, rfl⟩; clear _h; subst x) | (have _h : ∃ y : HostIf, y = x := ⟨x, rfl⟩; clear _h; subst x) | (have _h : ∃ y : (_ → _), y = x := ⟨x, rfl⟩; clear _h; subst x) | clear_value x | subst x) | split | with_reducible refine Edits.upd (h := ?_)

theorem Dev.drainCheck_edits {m : Nat} {d₀ d : Dev} {x1} (hm : Nat.land m 0x340040004c003 = 0x340040004c003 := by decide)
    (h : Edits m d₀ d) : Edits m d₀ (Dev.drainCheck d x1) := by
  refine Edits.andThen (t := 0x340040004c003) h ?_ hm
  unfold Dev.drainCheck
  repeat' first | with_reducible exact Edits.refl _ | with_reducible assumption | (with_reducible apply Dev.raise_at_edits <;> first | with_reducible assumption | decide | (dsimp only; decide) | skip) | (with_reducible apply Dev.raise_at2_edits <;> first | with_reducible assumption | decide | (dsimp only; decide) | skip) | (with_reducible apply Dev.raise_edits <;> first | with_reducible assumption | decide | (dsimp only; decide) | skip) | (with_reducible apply Dev.set_at_edits <;> first | with_reducible assumption | decide | (dsimp only; decide) | skip) | (with_reducible apply Dev.set_at2_edits <;> first | with_reducible assumption | decide | (dsimp only; decide) | skip) | (with_reducible apply Dev.set_edits <;> first | with_reducible assumption | decide | (dsimp only; decide) | skip) | with_reducible refine Edits.foldl _ (fun _ _ _ => ?_) _ ?_ | (extract_lets -merge +onlyGivenNames x; first | (refine (fun _ : Edits 0x340040004c003 d x => ?_) ?_; (on_goal 1 => clear_value x); (on_goal 2 => subst x)) | (have _h : ∃ y : Fld, y = x := ⟨x, rfl⟩; clear _h; subst x) | (have _h : ∃ y : Tsu, y = x := ⟨x, rfl⟩; clear _h; subst x) | (have _h : ∃ y : TrlRt, y = x := ⟨x, rfl⟩; clear _h; subst x) | (have _h : ∃ y : Clo, y = x := ⟨x, rfl⟩; clear _h; subst x) | (have _h : ∃ y : Face, y = x := ⟨x, rfl⟩; clear _h; subst x) | (have _h : ∃ y : HostIf, y = x := ⟨x, rfl⟩; clear _h; subst x) | (have _h : ∃ y : (_ → _), y = x := ⟨x, rfl⟩; clear _h; subst x) | clear_value x | subst x) | split | with_reducible refine Edits.upd (h := ?_)

theorem Dev.afterRead_edits {m : Nat} {d₀ d : Dev} {x1} (hm : Nat.land m 0x340040004c003 = 0x340040004c003 := by decide)
    (h : Edits m d₀ d) : Edits m d₀ (Dev.afterRead d x1) := by
  refine Edits.andThen (t := 0x340040004c003) h ?_ hm
  unfold Dev.afterRead
  repeat' first | with_reducible exact Edits.refl _ | with_reducible assumption | (with_reducible apply Dev.drainCheck_edits <;> first | with_reducible assumption | decide | (dsimp only; decide) | skip) | (with_reducible apply Dev.flushNow_edits <;> first | with_reducible assumption | decide | (dsimp only; decide) | skip) | (with_reducible apply Dev.placeWaiting_edits <;> first | with_reducible assumption | decide | (dsimp only; decide) | skip) | with_reducible refine Edits.foldl _ (fun _ _ _ => ?_) _ ?_ | (extract_lets -merge +onlyGivenNames x; first | (refine (fun _ : Edits 0x340040004c003 d x => ?_) ?_; (on_goal 1 => clear_value x); (on_goal 2 => subst x)) | (have _h : ∃ y : Fld, y = x := ⟨x, rfl⟩; clear _h; subst x) | (have _h : ∃ y : Tsu, y = x := ⟨x, rfl⟩; clear _h; subst x) | (have _h : ∃ y : TrlRt, y = x := ⟨x, rfl⟩; clear _h; subst x) | (have _h : ∃ y : Clo, y = x := ⟨x, rfl⟩; clear _h; subst x) | (have _h : ∃ y : Face, y = x := ⟨x, rfl⟩; clear _h; subst x) | (have _h : ∃ y : HostIf, y = x := ⟨x, rfl⟩; clear _h; subst x) | (have _h : ∃ y : (_ → _), y = x := ⟨x, rfl⟩; clear _h; subst x) | clear_value x | subst x) | split | with_reducible refine Edits.upd (h := ?_)

theorem Dev.putResponse_edits {m : Nat} {d₀ d : Dev} {n : Nat} {ws : List Word} (hm : Nat.land m 0x340040004c003 = 0x340040004c003 := by decide)
    (h : Edits m d₀ d) : Edits m d₀ (d.putResponse n ws) := by
  refine Edits.andThen (t := 0x340040004c003) h ?_ hm
  unfold Dev.putResponse
  extract_lets r
  split
  · rename_i e
    split at e
    · exact Dev.drainCheck_edits (h := Dev.ringPut_edits e (h := Edits.refl _))
    · cases e
  · exact Dev.setRing_edits (h := Edits.refl _)

theorem Dev.respond_edits {m : Nat} {d₀ d : Dev} {x1 x2 x3 x4 x5} (hm : Nat.land m 0x340040004c003 = 0x340040004c003 := by decide)
    (h : Edits m d₀ d) : Edits m d₀ (Dev.respond d x1 x2 x3 x4 x5) := by
  refine Edits.andThen (t := 0x340040004c003) h ?_ hm
  unfold Dev.respond
  repeat' first | with_reducible exact Edits.refl _ | with_reducible assumption | (with_reducible apply Dev.count_lit_edits <;> [decide; skip]) | (with_reducible apply Dev.count_edits <;> first | with_reducible assumption | decide | (dsimp only; decide) | skip) | (with_reducible apply Dev.putResponse_edits <;> first | with_reducible assumption | decide | (dsimp only; decide) | skip) | (with_reducible apply Dev.raise_at_edits <;> first | with_reducible assumption | decide | (dsimp only; decide) | skip) | (with_reducible apply Dev.raise_at2_edits <;> first | with_reducible assumption | decide | (dsimp only; decide) | skip) | (with_reducible apply Dev.raise_edits <;> first | with_reducible assumption | decide | (dsimp only; decide) | skip) | with_reducible refine Edits.foldl _ (fun _ _ _ => ?_) _ ?_ | (extract_lets -merge +onlyGivenNames x; first | (refine (fun _ : Edits 0x340040004c003 d x => ?_) ?_; (on_goal 1 => clear_value x); (on_goal 2 => subst x)) | (have _h : ∃ y : Fld, y = x := ⟨x, rfl⟩; clear _h; subst x) | (have _h : ∃ y : Tsu, y = x := ⟨x, rfl⟩; clear _h; subst x) | (have _h : ∃ y : TrlRt, y = x := ⟨x, rfl⟩; clear _h; subst x) | (have _h : ∃ y : Clo, y = x := ⟨x, rfl⟩; clear _h; subst x) | (have _h : ∃ y : Face, y = x := ⟨x, rfl⟩; clear _h; subst x) | (have _h : ∃ y : HostIf, y = x := ⟨x, rfl⟩; clear _h; subst x) | (have _h : ∃ y : (_ → _), y = x := ⟨x, rfl⟩; clear _h; subst x) | clear_value x | subst x) | split | with_reducible refine Edits.upd (h := ?_)

theorem Dev.putStatus_edits {m : Nat} {d₀ d : Dev} {n : Nat} {ws : List Word} (hm : Nat.land m 0x340040004c003 = 0x340040004c003 := by decide)
    (h : Edits m d₀ d) : Edits m d₀ (d.putStatus n ws) := by
  refine Edits.andThen (t := 0x340040004c003) h ?_ hm
  unfold Dev.putStatus
  extract_lets r
  split
  · rename_i e
    split at e
    · exact Dev.drainCheck_edits (h := Dev.ringPut_edits e (h := Edits.refl _))
    · cases e
  · split
    · exact Dev.setRing_edits (h := Edits.refl _)
    · exact Dev.raise_edits (h := Edits.updFace (Face.add_at_edits (h := FEdits.refl _)) (Edits.refl _))

theorem Dev.rewindNow_edits {m : Nat} {d₀ d : Dev} {x1} (hm : Nat.land m 0x400000001 = 0x400000001 := by decide)
    (h : Edits m d₀ d) : Edits m d₀ (Dev.rewindNow d x1) := by
  refine Edits.andThen (t := 0x400000001) h ?_ hm
  unfold Dev.rewindNow
  repeat' first | with_reducible exact Edits.refl _ | with_reducible assumption | (with_reducible apply Dev.set_at_edits <;> first | with_reducible assumption | decide | (dsimp only; decide) | skip) | (with_reducible apply Dev.set_at2_edits <;> first | with_reducible assumption | decide | (dsimp only; decide) | skip) | (with_reducible apply Dev.set_edits <;> first | with_reducible assumption | decide | (dsimp only; decide) | skip) | (with_reducible apply Dev.setRing_edits <;> first | with_reducible assumption | decide | (dsimp only; decide) | skip) | with_reducible refine Edits.foldl _ (fun _ _ _ => ?_) _ ?_ | (extract_lets -merge +onlyGivenNames x; first | (refine (fun _ : Edits 0x400000001 d x => ?_) ?_; (on_goal 1 => clear_value x); (on_goal 2 => subst x)) | (have _h : ∃ y : Fld, y = x := ⟨x, rfl⟩; clear _h; subst x) | (have _h : ∃ y : Tsu, y = x := ⟨x, rfl⟩; clear _h; subst x) | (have _h : ∃ y : TrlRt, y = x := ⟨x, rfl⟩; clear _h; subst x) | (have _h : ∃ y : Clo, y = x := ⟨x, rfl⟩; clear _h; subst x) | (have _h : ∃ y : Face, y = x := ⟨x, rfl⟩; clear _h; subst x) | (have _h : ∃ y : HostIf, y = x := ⟨x, rfl⟩; clear _h; subst x) | (have _h : ∃ y : (_ → _), y = x := ⟨x, rfl⟩; clear _h; subst x) | clear_value x | subst x) | split | with_reducible refine Edits.upd (h := ?_)

theorem Dev.clearHost_edits {m : Nat} {d₀ d : Dev} (hm : Nat.land m 0x400000001 = 0x400000001 := by decide)
    (h : Edits m d₀ d) : Edits m d₀ d.clearHost := by
  refine Edits.andThen (t := 0x400000001) h ?_ hm
  unfold Dev.clearHost
  refine Edits.foldl _ (fun d' n h => ?_) _ ?_
  · have h' : Edits 0x400000001 d ((d'.set (F.RNG_n_CFG_DRAIN.at n) 0).set (F.RNG_n_STATUS_HOST_BUF_FULL.at n) 0) :=
      Dev.set_at_edits (h := Dev.set_at_edits (h := h))
    extract_lets -merge +onlyGivenNames d₁
    split
    · exact Dev.rewindNow_edits (h := h')
    · exact h'
  · refine Edits.updFace (Face.filter_edits (fun off => !([R.RNG_n_IRQ, R.RNG_n_HBUF_LO, R.RNG_n_HBUF_HI, R.RNG_n_HSIZE, R.RNG_n_HRD,
      R.RNG_n_HWR, R.RNG_n_WB_LO, R.RNG_n_WB_HI].any fun r => r.covers off)) ?_ (FEdits.refl _))
      (Dev.hst_edits (h := Edits.refl _))
    intro off _ hp
    have : off / 65536 = 2 := by
      simp only [Bool.not_eq_false', List.any_cons, List.any_nil, Bool.or_false, Bool.or_eq_true, RegD.covers, R.RNG_n_IRQ,
        R.RNG_n_HBUF_LO, R.RNG_n_HBUF_HI, R.RNG_n_HSIZE, R.RNG_n_HRD, R.RNG_n_HWR, R.RNG_n_WB_LO, R.RNG_n_WB_HI, Bool.and_eq_true,
        decide_eq_true_eq] at hp
      omega
    rw [regBit, if_neg (by omega), this]
    decide

theorem Dev.hostWrite_edits {m : Nat} {d₀ d : Dev} {x1 x2 x3} (hm : Nat.land m 0x2 = 0x2 := by decide)
    (h : Edits m d₀ d) : Edits m d₀ (Dev.hostWrite d x1 x2 x3) := by
  refine Edits.andThen (t := 0x2) h ?_ hm
  unfold Dev.hostWrite
  repeat' first | with_reducible exact Edits.refl _ | with_reducible assumption | (with_reducible apply Dev.emit_edits <;> first | with_reducible assumption | decide | (dsimp only; decide) | skip) | with_reducible refine Edits.foldl _ (fun _ _ _ => ?_) _ ?_ | (extract_lets -merge +onlyGivenNames x; first | (refine (fun _ : Edits 0x2 d x => ?_) ?_; (on_goal 1 => clear_value x); (on_goal 2 => subst x)) | (have _h : ∃ y : Fld, y = x := ⟨x, rfl⟩; clear _h; subst x) | (have _h : ∃ y : Tsu, y = x := ⟨x, rfl⟩; clear _h; subst x) | (have _h : ∃ y : TrlRt, y = x := ⟨x, rfl⟩; clear _h; subst x) | (have _h : ∃ y : Clo, y = x := ⟨x, rfl⟩; clear _h; subst x) | (have _h : ∃ y : Face, y = x := ⟨x, rfl⟩; clear _h; subst x) | (have _h : ∃ y : HostIf, y = x := ⟨x, rfl⟩; clear _h; subst x) | (have _h : ∃ y : (_ → _), y = x := ⟨x, rfl⟩; clear _h; subst x) | clear_value x | subst x) | split | with_reducible refine Edits.upd (h := ?_)

end Sys2Proof.Machine
end

