-- ==== Sys2Proof/Laws/Ops/Records.lean ====
section
/-! SUPPORT. What the operations of Machine/Records.lean may do: the parts each touches (`Edits`), said once. -/

set_option linter.unusedTactic false
set_option linter.unreachableTactic false
set_option Elab.async false

namespace Sys2Proof.Machine

theorem Dev.sealRecord_snd_edits {m : Nat} {d₀ d : Dev} {x1 x2 x3} (hm : Nat.land m 0x2008 = 0x2008 := by decide)
    (h : Edits m d₀ d) : Edits m d₀ (Dev.sealRecord d x1 x2 x3).2 := by
  refine Edits.andThen (t := 0x2008) h ?_ hm
  unfold Dev.sealRecord
  repeat' first | with_reducible exact Edits.refl _ | with_reducible assumption | dsimp -zeta only | (with_reducible apply Dev.sign_edits; with_reducible assumption; decide) | (with_reducible apply Dev.sign_snd_edits <;> first | with_reducible assumption | decide | (dsimp only; decide) | skip) | with_reducible refine Edits.foldl _ (fun _ _ _ => ?_) _ ?_ | (extract_lets -merge +onlyGivenNames x; first | (refine (fun _ : Edits 0x2008 d x => ?_) ?_; (on_goal 1 => clear_value x); (on_goal 2 => subst x)) | (have _h : ∃ y : Fld, y = x := ⟨x, rfl⟩; clear _h; subst x) | (have _h : ∃ y : Tsu, y = x := ⟨x, rfl⟩; clear _h; subst x) | (have _h : ∃ y : TrlRt, y = x := ⟨x, rfl⟩; clear _h; subst x) | (have _h : ∃ y : Clo, y = x := ⟨x, rfl⟩; clear _h; subst x) | (have _h : ∃ y : Face, y = x := ⟨x, rfl⟩; clear _h; subst x) | (have _h : ∃ y : HostIf, y = x := ⟨x, rfl⟩; clear _h; subst x) | (have _h : ∃ y : (_ → _), y = x := ⟨x, rfl⟩; clear _h; subst x) | clear_value x | subst x) | split | with_reducible refine Edits.upd (h := ?_)

theorem Dev.sealRecord_edits {m : Nat} {d₀ d d' : Dev} {x1 x2 x3} {y} (e : Dev.sealRecord d x1 x2 x3 = (y, d')) (hm : Nat.land m 0x2008 = 0x2008 := by decide)
    (h : Edits m d₀ d) : Edits m d₀ d' := by
  have := Dev.sealRecord_snd_edits (x1 := x1) (x2 := x2) (x3 := x3) hm h
  rw [e] at this
  exact this

theorem Dev.dropPrevious_edits {m : Nat} {d₀ d : Dev} (hm : Nat.land m 0x2000 = 0x2000 := by decide)
    (h : Edits m d₀ d) : Edits m d₀ (Dev.dropPrevious d) := by
  refine Edits.andThen (t := 0x2000) h ?_ hm
  unfold Dev.dropPrevious
  repeat' first | with_reducible exact Edits.refl _ | with_reducible assumption | with_reducible refine Edits.foldl _ (fun _ _ _ => ?_) _ ?_ | (extract_lets -merge +onlyGivenNames x; first | (refine (fun _ : Edits 0x2000 d x => ?_) ?_; (on_goal 1 => clear_value x); (on_goal 2 => subst x)) | (have _h : ∃ y : Fld, y = x := ⟨x, rfl⟩; clear _h; subst x) | (have _h : ∃ y : Tsu, y = x := ⟨x, rfl⟩; clear _h; subst x) | (have _h : ∃ y : TrlRt, y = x := ⟨x, rfl⟩; clear _h; subst x) | (have _h : ∃ y : Clo, y = x := ⟨x, rfl⟩; clear _h; subst x) | (have _h : ∃ y : Face, y = x := ⟨x, rfl⟩; clear _h; subst x) | (have _h : ∃ y : HostIf, y = x := ⟨x, rfl⟩; clear _h; subst x) | (have _h : ∃ y : (_ → _), y = x := ⟨x, rfl⟩; clear _h; subst x) | clear_value x | subst x) | split | with_reducible refine Edits.upd (h := ?_)

theorem Dev.emitRing_edits {m : Nat} {d₀ d : Dev} {k x0} (hm : Nat.land m 0x340140004c803 = 0x340140004c803 := by decide)
    (h : Edits m d₀ d) : Edits m d₀ (Dev.emitRing x0 k d) := by
  refine Edits.andThen (t := 0x340140004c803) h ?_ hm
  suffices H : ∀ k x0 d₁, Edits 0x340140004c803 d d₁ → Edits 0x340140004c803 d (Dev.emitRing x0 k d₁) from H k x0 d (Edits.refl _)
  clear h hm x0 k
  intro k
  induction k with
  | zero =>
    intro x0 d₁ h
    rw [Dev.emitRing]
    repeat' first | with_reducible exact Edits.refl _ | with_reducible assumption | (with_reducible apply Dev.count_lit_edits <;> [decide; skip]) | (with_reducible apply Dev.count_edits <;> first | with_reducible assumption | decide | (dsimp only; decide) | skip) | (with_reducible apply Dev.drainCheck_edits <;> first | with_reducible assumption | decide | (dsimp only; decide) | skip) | (with_reducible apply Dev.ringPut_edits; with_reducible assumption; decide) | with_reducible refine Edits.foldl _ (fun _ _ _ => ?_) _ ?_ | (extract_lets -merge +onlyGivenNames x; first | (refine (fun _ : Edits 0x340140004c803 d x => ?_) ?_; (on_goal 1 => clear_value x); (on_goal 2 => subst x)) | (have _h : ∃ y : Fld, y = x := ⟨x, rfl⟩; clear _h; subst x) | (have _h : ∃ y : Tsu, y = x := ⟨x, rfl⟩; clear _h; subst x) | (have _h : ∃ y : TrlRt, y = x := ⟨x, rfl⟩; clear _h; subst x) | (have _h : ∃ y : Clo, y = x := ⟨x, rfl⟩; clear _h; subst x) | (have _h : ∃ y : Face, y = x := ⟨x, rfl⟩; clear _h; subst x) | (have _h : ∃ y : HostIf, y = x := ⟨x, rfl⟩; clear _h; subst x) | (have _h : ∃ y : (_ → _), y = x := ⟨x, rfl⟩; clear _h; subst x) | clear_value x | subst x) | split | with_reducible refine Edits.upd (h := ?_)
  | succ k ih =>
    intro x0 d₁ h
    rw [Dev.emitRing]
    repeat' first | with_reducible exact Edits.refl _ | with_reducible assumption | (with_reducible apply ih; skip) | (rw [Dev.emitRing]) | (with_reducible apply Dev.count_lit_edits <;> [decide; skip]) | (with_reducible apply Dev.count_edits <;> first | with_reducible assumption | decide | (dsimp only; decide) | skip) | (with_reducible apply Dev.drainCheck_edits <;> first | with_reducible assumption | decide | (dsimp only; decide) | skip) | (with_reducible apply Dev.ringPut_edits; with_reducible assumption; decide) | with_reducible refine Edits.foldl _ (fun _ _ _ => ?_) _ ?_ | (extract_lets -merge +onlyGivenNames x; first | (refine (fun _ : Edits 0x340140004c803 d x => ?_) ?_; (on_goal 1 => clear_value x); (on_goal 2 => subst x)) | (have _h : ∃ y : Fld, y = x := ⟨x, rfl⟩; clear _h; subst x) | (have _h : ∃ y : Tsu, y = x := ⟨x, rfl⟩; clear _h; subst x) | (have _h : ∃ y : TrlRt, y = x := ⟨x, rfl⟩; clear _h; subst x) | (have _h : ∃ y : Clo, y = x := ⟨x, rfl⟩; clear _h; subst x) | (have _h : ∃ y : Face, y = x := ⟨x, rfl⟩; clear _h; subst x) | (have _h : ∃ y : HostIf, y = x := ⟨x, rfl⟩; clear _h; subst x) | (have _h : ∃ y : (_ → _), y = x := ⟨x, rfl⟩; clear _h; subst x) | clear_value x | subst x) | split | with_reducible refine Edits.upd (h := ?_)

theorem Dev.doneRecord_edits {m : Nat} {d₀ d : Dev} {x1 x2 x3} (hm : Nat.land m 0x340140005e803 = 0x340140005e803 := by decide)
    (h : Edits m d₀ d) : Edits m d₀ (Dev.doneRecord d x1 x2 x3) := by
  refine Edits.andThen (t := 0x340140005e803) h ?_ hm
  unfold Dev.doneRecord
  repeat' first | with_reducible exact Edits.refl _ | with_reducible assumption | (with_reducible apply Dev.archiveFill_edits <;> first | with_reducible assumption | decide | (dsimp only; decide) | skip) | (with_reducible apply Dev.count_lit_edits <;> [decide; skip]) | (with_reducible apply Dev.count_edits <;> first | with_reducible assumption | decide | (dsimp only; decide) | skip) | (with_reducible apply Dev.dropPrevious_edits <;> first | with_reducible assumption | decide | (dsimp only; decide) | skip) | (with_reducible apply Dev.emitRing_edits <;> first | with_reducible assumption | decide | (dsimp only; decide) | skip) | (with_reducible apply Dev.raise_at_edits <;> first | with_reducible assumption | decide | (dsimp only; decide) | skip) | (with_reducible apply Dev.raise_at2_edits <;> first | with_reducible assumption | decide | (dsimp only; decide) | skip) | (with_reducible apply Dev.raise_edits <;> first | with_reducible assumption | decide | (dsimp only; decide) | skip) | with_reducible refine Edits.foldl _ (fun _ _ _ => ?_) _ ?_ | (extract_lets -merge +onlyGivenNames x; first | (refine (fun _ : Edits 0x340140005e803 d x => ?_) ?_; (on_goal 1 => clear_value x); (on_goal 2 => subst x)) | (have _h : ∃ y : Fld, y = x := ⟨x, rfl⟩; clear _h; subst x) | (have _h : ∃ y : Tsu, y = x := ⟨x, rfl⟩; clear _h; subst x) | (have _h : ∃ y : TrlRt, y = x := ⟨x, rfl⟩; clear _h; subst x) | (have _h : ∃ y : Clo, y = x := ⟨x, rfl⟩; clear _h; subst x) | (have _h : ∃ y : Face, y = x := ⟨x, rfl⟩; clear _h; subst x) | (have _h : ∃ y : HostIf, y = x := ⟨x, rfl⟩; clear _h; subst x) | (have _h : ∃ y : (_ → _), y = x := ⟨x, rfl⟩; clear _h; subst x) | clear_value x | subst x) | split | with_reducible refine Edits.upd (h := ?_)

theorem Dev.releaseUnsigned_edits {m : Nat} {d₀ d : Dev} (hm : Nat.land m 0x340140005e803 = 0x340140005e803 := by decide)
    (h : Edits m d₀ d) : Edits m d₀ (Dev.releaseUnsigned d) := by
  refine Edits.andThen (t := 0x340140005e803) h ?_ hm
  unfold Dev.releaseUnsigned
  repeat' first | with_reducible exact Edits.refl _ | with_reducible assumption | (with_reducible apply Dev.doneRecord_edits <;> first | with_reducible assumption | decide | (dsimp only; decide) | skip) | with_reducible refine Edits.foldl _ (fun _ _ _ => ?_) _ ?_ | (extract_lets -merge +onlyGivenNames x; first | (refine (fun _ : Edits 0x340140005e803 d x => ?_) ?_; (on_goal 1 => clear_value x); (on_goal 2 => subst x)) | (have _h : ∃ y : Fld, y = x := ⟨x, rfl⟩; clear _h; subst x) | (have _h : ∃ y : Tsu, y = x := ⟨x, rfl⟩; clear _h; subst x) | (have _h : ∃ y : TrlRt, y = x := ⟨x, rfl⟩; clear _h; subst x) | (have _h : ∃ y : Clo, y = x := ⟨x, rfl⟩; clear _h; subst x) | (have _h : ∃ y : Face, y = x := ⟨x, rfl⟩; clear _h; subst x) | (have _h : ∃ y : HostIf, y = x := ⟨x, rfl⟩; clear _h; subst x) | (have _h : ∃ y : (_ → _), y = x := ⟨x, rfl⟩; clear _h; subst x) | clear_value x | subst x) | split | with_reducible refine Edits.upd (h := ?_)

theorem Dev.finishRecord_edits {m : Nat} {d₀ d : Dev} {x1} (hm : Nat.land m 0x348140005e80b = 0x348140005e80b := by decide)
    (h : Edits m d₀ d) : Edits m d₀ (Dev.finishRecord d x1) := by
  refine Edits.andThen (t := 0x348140005e80b) h ?_ hm
  unfold Dev.finishRecord
  repeat' first | with_reducible exact Edits.refl _ | with_reducible assumption | dsimp -zeta only | (with_reducible apply Dev.count_lit_edits <;> [decide; skip]) | (with_reducible apply Dev.count_edits <;> first | with_reducible assumption | decide | (dsimp only; decide) | skip) | (with_reducible apply Dev.doneRecord_edits <;> first | with_reducible assumption | decide | (dsimp only; decide) | skip) | (with_reducible apply Dev.sealRecord_edits; with_reducible assumption; decide) | (with_reducible apply Dev.sealRecord_snd_edits <;> first | with_reducible assumption | decide | (dsimp only; decide) | skip) | with_reducible refine Edits.foldl _ (fun _ _ _ => ?_) _ ?_ | (extract_lets -merge +onlyGivenNames x; first | (refine (fun _ : Edits 0x348140005e80b d x => ?_) ?_; (on_goal 1 => clear_value x); (on_goal 2 => subst x)) | (have _h : ∃ y : Fld, y = x := ⟨x, rfl⟩; clear _h; subst x) | (have _h : ∃ y : Tsu, y = x := ⟨x, rfl⟩; clear _h; subst x) | (have _h : ∃ y : TrlRt, y = x := ⟨x, rfl⟩; clear _h; subst x) | (have _h : ∃ y : Clo, y = x := ⟨x, rfl⟩; clear _h; subst x) | (have _h : ∃ y : Face, y = x := ⟨x, rfl⟩; clear _h; subst x) | (have _h : ∃ y : HostIf, y = x := ⟨x, rfl⟩; clear _h; subst x) | (have _h : ∃ y : (_ → _), y = x := ⟨x, rfl⟩; clear _h; subst x) | clear_value x | subst x) | split | with_reducible refine Edits.upd (h := ?_)

theorem Dev.reEmit_edits {m : Nat} {d₀ d : Dev} {x1 x2} (hm : Nat.land m 0x800 = 0x800 := by decide)
    (h : Edits m d₀ d) : Edits m d₀ (Dev.reEmit d x1 x2) := by
  refine Edits.andThen (t := 0x800) h ?_ hm
  unfold Dev.reEmit
  repeat' first | with_reducible exact Edits.refl _ | with_reducible assumption | (with_reducible apply Dev.queueRecord_edits <;> first | with_reducible assumption | decide | (dsimp only; decide) | skip) | with_reducible refine Edits.foldl _ (fun _ _ _ => ?_) _ ?_ | (extract_lets -merge +onlyGivenNames x; first | (refine (fun _ : Edits 0x800 d x => ?_) ?_; (on_goal 1 => clear_value x); (on_goal 2 => subst x)) | (have _h : ∃ y : Fld, y = x := ⟨x, rfl⟩; clear _h; subst x) | (have _h : ∃ y : Tsu, y = x := ⟨x, rfl⟩; clear _h; subst x) | (have _h : ∃ y : TrlRt, y = x := ⟨x, rfl⟩; clear _h; subst x) | (have _h : ∃ y : Clo, y = x := ⟨x, rfl⟩; clear _h; subst x) | (have _h : ∃ y : Face, y = x := ⟨x, rfl⟩; clear _h; subst x) | (have _h : ∃ y : HostIf, y = x := ⟨x, rfl⟩; clear _h; subst x) | (have _h : ∃ y : (_ → _), y = x := ⟨x, rfl⟩; clear _h; subst x) | clear_value x | subst x) | split | with_reducible refine Edits.upd (h := ?_)

end Sys2Proof.Machine
end

