-- ==== Sys2Proof/Laws/Ops/Context.lean ====
section
/-! SUPPORT. What the operations of Machine/Context.lean may do: the parts each touches (`Edits`), said once. -/

set_option linter.unusedTactic false
set_option linter.unreachableTactic false
set_option Elab.async false

namespace Sys2Proof.Machine

theorem Dev.holdKeys_edits {m : Nat} {d₀ d : Dev} {x1} (hm : Nat.land m 0x800 = 0x800 := by decide)
    (h : Edits m d₀ d) : Edits m d₀ (Dev.holdKeys d x1) := by
  refine Edits.andThen (t := 0x800) h ?_ hm
  unfold Dev.holdKeys
  repeat' first | with_reducible exact Edits.refl _ | with_reducible assumption | with_reducible refine Edits.foldl _ (fun _ _ _ => ?_) _ ?_ | (extract_lets -merge +onlyGivenNames x; first | (refine (fun _ : Edits 0x800 d x => ?_) ?_; (on_goal 1 => clear_value x); (on_goal 2 => subst x)) | (have _h : ∃ y : Fld, y = x := ⟨x, rfl⟩; clear _h; subst x) | (have _h : ∃ y : Tsu, y = x := ⟨x, rfl⟩; clear _h; subst x) | (have _h : ∃ y : TrlRt, y = x := ⟨x, rfl⟩; clear _h; subst x) | (have _h : ∃ y : Clo, y = x := ⟨x, rfl⟩; clear _h; subst x) | (have _h : ∃ y : Face, y = x := ⟨x, rfl⟩; clear _h; subst x) | (have _h : ∃ y : HostIf, y = x := ⟨x, rfl⟩; clear _h; subst x) | (have _h : ∃ y : (_ → _), y = x := ⟨x, rfl⟩; clear _h; subst x) | clear_value x | subst x) | split | with_reducible refine Edits.upd (h := ?_)

theorem Dev.showIng_edits {m : Nat} {d₀ d : Dev} (hm : Nat.land m 0x1000000000 = 0x1000000000 := by decide)
    (h : Edits m d₀ d) : Edits m d₀ (Dev.showIng d) := by
  refine Edits.andThen (t := 0x1000000000) h ?_ hm
  unfold Dev.showIng
  repeat' first | with_reducible exact Edits.refl _ | with_reducible assumption | (with_reducible apply Dev.set_at_edits <;> first | with_reducible assumption | decide | (dsimp only; decide) | skip) | (with_reducible apply Dev.set_at2_edits <;> first | with_reducible assumption | decide | (dsimp only; decide) | skip) | (with_reducible apply Dev.set_edits <;> first | with_reducible assumption | decide | (dsimp only; decide) | skip) | with_reducible refine Edits.foldl _ (fun _ _ _ => ?_) _ ?_ | (extract_lets -merge +onlyGivenNames x; first | (refine (fun _ : Edits 0x1000000000 d x => ?_) ?_; (on_goal 1 => clear_value x); (on_goal 2 => subst x)) | (have _h : ∃ y : Fld, y = x := ⟨x, rfl⟩; clear _h; subst x) | (have _h : ∃ y : Tsu, y = x := ⟨x, rfl⟩; clear _h; subst x) | (have _h : ∃ y : TrlRt, y = x := ⟨x, rfl⟩; clear _h; subst x) | (have _h : ∃ y : Clo, y = x := ⟨x, rfl⟩; clear _h; subst x) | (have _h : ∃ y : Face, y = x := ⟨x, rfl⟩; clear _h; subst x) | (have _h : ∃ y : HostIf, y = x := ⟨x, rfl⟩; clear _h; subst x) | (have _h : ∃ y : (_ → _), y = x := ⟨x, rfl⟩; clear _h; subst x) | clear_value x | subst x) | split | with_reducible refine Edits.upd (h := ?_)

theorem Dev.showCtx_edits {m : Nat} {d₀ d : Dev} (hm : Nat.land m 0x800000000 = 0x800000000 := by decide)
    (h : Edits m d₀ d) : Edits m d₀ (Dev.showCtx d) := by
  refine Edits.andThen (t := 0x800000000) h ?_ hm
  unfold Dev.showCtx
  repeat' first | with_reducible exact Edits.refl _ | with_reducible assumption | (with_reducible apply Dev.set_at_edits <;> first | with_reducible assumption | decide | (dsimp only; decide) | skip) | (with_reducible apply Dev.set_at2_edits <;> first | with_reducible assumption | decide | (dsimp only; decide) | skip) | (with_reducible apply Dev.set_edits <;> first | with_reducible assumption | decide | (dsimp only; decide) | skip) | with_reducible refine Edits.foldl _ (fun _ _ _ => ?_) _ ?_ | (extract_lets -merge +onlyGivenNames x; first | (refine (fun _ : Edits 0x800000000 d x => ?_) ?_; (on_goal 1 => clear_value x); (on_goal 2 => subst x)) | (have _h : ∃ y : Fld, y = x := ⟨x, rfl⟩; clear _h; subst x) | (have _h : ∃ y : Tsu, y = x := ⟨x, rfl⟩; clear _h; subst x) | (have _h : ∃ y : TrlRt, y = x := ⟨x, rfl⟩; clear _h; subst x) | (have _h : ∃ y : Clo, y = x := ⟨x, rfl⟩; clear _h; subst x) | (have _h : ∃ y : Face, y = x := ⟨x, rfl⟩; clear _h; subst x) | (have _h : ∃ y : HostIf, y = x := ⟨x, rfl⟩; clear _h; subst x) | (have _h : ∃ y : (_ → _), y = x := ⟨x, rfl⟩; clear _h; subst x) | clear_value x | subst x) | split | with_reducible refine Edits.upd (h := ?_)

theorem Dev.reserveKey_edits {m : Nat} {d₀ d d' : Dev} {x1 x2 x3} (e : d.reserveKey x1 x2 x3 = some d')
    (hm : Nat.land m 0x800000800 = 0x800000800 := by decide) (h : Edits m d₀ d) : Edits m d₀ d' := by
  refine Edits.andThen (t := 0x800000800) h ?_ hm
  obtain ⟨w, _, rfl⟩ := Option.map_eq_some_iff.1 e
  exact Dev.showCtx_edits (h := Edits.upd (h := Edits.refl _))

theorem Dev.bringCtx_edits {m : Nat} {d₀ d d' : Dev} {i : Nat} {r : Bool} (e : d.bringCtx i r = some d')
    (hm : Nat.land m 0x800000800 = 0x800000800 := by decide) (h : Edits m d₀ d) : Edits m d₀ d' := by
  refine Edits.andThen (t := 0x800000800) h ?_ hm
  unfold Dev.bringCtx at e
  extract_lets set put at e
  have hput : ∀ {x : Dev}, Edits 0x800000800 d x → Edits 0x800000800 d (put x) := by
    intro x hx
    dsimp only [put]
    split
    · exact Dev.showCtx_edits (h := Edits.upd (h := hx))
    · exact hx
  clear_value put
  split at e
  · cases e; exact hput (Edits.refl _)
  · split at e
    · cases e
    · extract_lets changed d₁ at e
      cases e
      refine hput (Edits.upd (h := ?_))
      show Edits _ d (if _ then _ else _)
      split
      · exact Dev.count_edits (h := Edits.refl _)
      · exact Edits.refl _

theorem Dev.touchCtx_edits {m : Nat} {d₀ d : Dev} {x1} (hm : Nat.land m 0x800 = 0x800 := by decide)
    (h : Edits m d₀ d) : Edits m d₀ (Dev.touchCtx d x1) := by
  refine Edits.andThen (t := 0x800) h ?_ hm
  unfold Dev.touchCtx
  repeat' first | with_reducible exact Edits.refl _ | with_reducible assumption | with_reducible refine Edits.foldl _ (fun _ _ _ => ?_) _ ?_ | (extract_lets -merge +onlyGivenNames x; first | (refine (fun _ : Edits 0x800 d x => ?_) ?_; (on_goal 1 => clear_value x); (on_goal 2 => subst x)) | (have _h : ∃ y : Fld, y = x := ⟨x, rfl⟩; clear _h; subst x) | (have _h : ∃ y : Tsu, y = x := ⟨x, rfl⟩; clear _h; subst x) | (have _h : ∃ y : TrlRt, y = x := ⟨x, rfl⟩; clear _h; subst x) | (have _h : ∃ y : Clo, y = x := ⟨x, rfl⟩; clear _h; subst x) | (have _h : ∃ y : Face, y = x := ⟨x, rfl⟩; clear _h; subst x) | (have _h : ∃ y : HostIf, y = x := ⟨x, rfl⟩; clear _h; subst x) | (have _h : ∃ y : (_ → _), y = x := ⟨x, rfl⟩; clear _h; subst x) | clear_value x | subst x) | split | with_reducible refine Edits.upd (h := ?_)

theorem Dev.releaseKeys_edits {m : Nat} {d₀ d : Dev} {x1} (hm : Nat.land m 0x800 = 0x800 := by decide)
    (h : Edits m d₀ d) : Edits m d₀ (Dev.releaseKeys d x1) := by
  refine Edits.andThen (t := 0x800) h ?_ hm
  unfold Dev.releaseKeys
  repeat' first | with_reducible exact Edits.refl _ | with_reducible assumption | with_reducible refine Edits.foldl _ (fun _ _ _ => ?_) _ ?_ | (extract_lets -merge +onlyGivenNames x; first | (refine (fun _ : Edits 0x800 d x => ?_) ?_; (on_goal 1 => clear_value x); (on_goal 2 => subst x)) | (have _h : ∃ y : Fld, y = x := ⟨x, rfl⟩; clear _h; subst x) | (have _h : ∃ y : Tsu, y = x := ⟨x, rfl⟩; clear _h; subst x) | (have _h : ∃ y : TrlRt, y = x := ⟨x, rfl⟩; clear _h; subst x) | (have _h : ∃ y : Clo, y = x := ⟨x, rfl⟩; clear _h; subst x) | (have _h : ∃ y : Face, y = x := ⟨x, rfl⟩; clear _h; subst x) | (have _h : ∃ y : HostIf, y = x := ⟨x, rfl⟩; clear _h; subst x) | (have _h : ∃ y : (_ → _), y = x := ⟨x, rfl⟩; clear _h; subst x) | clear_value x | subst x) | split | with_reducible refine Edits.upd (h := ?_)

theorem Dev.alloc_edits {m : Nat} {d₀ d : Dev} {x1} (hm : Nat.land m 0x34e2e000ffe4b = 0x34e2e000ffe4b := by decide)
    (h : Edits m d₀ d) : Edits m d₀ (Dev.alloc d x1) := by
  refine Edits.andThen (t := 0x34e2e000ffe4b) h ?_ hm
  unfold Dev.alloc
  repeat' first | with_reducible exact Edits.refl _ | with_reducible assumption | (with_reducible apply Dev.finish_edits <;> first | with_reducible assumption | decide | (dsimp only; decide) | skip) | (with_reducible apply Dev.pairRun_edits <;> first | with_reducible assumption | decide | (dsimp only; decide) | skip) | (with_reducible apply Dev.raise_at_edits <;> first | with_reducible assumption | decide | (dsimp only; decide) | skip) | (with_reducible apply Dev.raise_at2_edits <;> first | with_reducible assumption | decide | (dsimp only; decide) | skip) | (with_reducible apply Dev.raise_edits <;> first | with_reducible assumption | decide | (dsimp only; decide) | skip) | (with_reducible apply Dev.set_at_edits <;> first | with_reducible assumption | decide | (dsimp only; decide) | skip) | (with_reducible apply Dev.set_at2_edits <;> first | with_reducible assumption | decide | (dsimp only; decide) | skip) | (with_reducible apply Dev.set_edits <;> first | with_reducible assumption | decide | (dsimp only; decide) | skip) | (with_reducible apply Dev.campsEnd_edits <;> first | with_reducible assumption | decide | (dsimp only; decide) | skip) | (with_reducible apply Dev.pairDo_edits <;> first | with_reducible assumption | decide | (dsimp only; decide) | skip) | with_reducible refine Edits.foldl _ (fun _ _ _ => ?_) _ ?_ | (extract_lets -merge +onlyGivenNames x; first | (refine (fun _ : Edits 0x34e2e000ffe4b d x => ?_) ?_; (on_goal 1 => clear_value x); (on_goal 2 => subst x)) | (have _h : ∃ y : Fld, y = x := ⟨x, rfl⟩; clear _h; subst x) | (have _h : ∃ y : Tsu, y = x := ⟨x, rfl⟩; clear _h; subst x) | (have _h : ∃ y : TrlRt, y = x := ⟨x, rfl⟩; clear _h; subst x) | (have _h : ∃ y : Clo, y = x := ⟨x, rfl⟩; clear _h; subst x) | (have _h : ∃ y : Face, y = x := ⟨x, rfl⟩; clear _h; subst x) | (have _h : ∃ y : HostIf, y = x := ⟨x, rfl⟩; clear _h; subst x) | (have _h : ∃ y : (_ → _), y = x := ⟨x, rfl⟩; clear _h; subst x) | clear_value x | subst x) | split | with_reducible refine Edits.upd (h := ?_)

theorem Dev.dropKeys_edits {m : Nat} {d₀ d : Dev} {x1} (hm : Nat.land m 0x800000800 = 0x800000800 := by decide)
    (h : Edits m d₀ d) : Edits m d₀ (Dev.dropKeys d x1) := by
  refine Edits.andThen (t := 0x800000800) h ?_ hm
  unfold Dev.dropKeys
  repeat' first | with_reducible exact Edits.refl _ | with_reducible assumption | (with_reducible apply Dev.showCtx_edits <;> first | with_reducible assumption | decide | (dsimp only; decide) | skip) | with_reducible refine Edits.foldl _ (fun _ _ _ => ?_) _ ?_ | (extract_lets -merge +onlyGivenNames x; first | (refine (fun _ : Edits 0x800000800 d x => ?_) ?_; (on_goal 1 => clear_value x); (on_goal 2 => subst x)) | (have _h : ∃ y : Fld, y = x := ⟨x, rfl⟩; clear _h; subst x) | (have _h : ∃ y : Tsu, y = x := ⟨x, rfl⟩; clear _h; subst x) | (have _h : ∃ y : TrlRt, y = x := ⟨x, rfl⟩; clear _h; subst x) | (have _h : ∃ y : Clo, y = x := ⟨x, rfl⟩; clear _h; subst x) | (have _h : ∃ y : Face, y = x := ⟨x, rfl⟩; clear _h; subst x) | (have _h : ∃ y : HostIf, y = x := ⟨x, rfl⟩; clear _h; subst x) | (have _h : ∃ y : (_ → _), y = x := ⟨x, rfl⟩; clear _h; subst x) | clear_value x | subst x) | split | with_reducible refine Edits.upd (h := ?_)

theorem Dev.ctxCmd_edits {m : Nat} {d₀ d : Dev} {b : Bool} {f : Dev → Dev} (hm : Nat.land m 0x34e2e0006ec0b = 0x34e2e0006ec0b := by decide)
    (hf : ∀ x, Edits m d₀ x → Edits m d₀ (f x)) (h : Edits m d₀ d) : Edits m d₀ (d.ctxCmd b f) := by
  unfold Dev.ctxCmd
  split
  · exact h
  · split
    · exact Dev.finish_edits (sub_trans hm (by decide)) h
    · exact hf _ h

theorem Dev.freeCtx_edits {m : Nat} {d₀ d : Dev} {x1} (hm : Nat.land m 0x34e3e000ffe4b = 0x34e3e000ffe4b := by decide)
    (h : Edits m d₀ d) : Edits m d₀ (Dev.freeCtx d x1) := by
  refine Edits.andThen (t := 0x34e3e000ffe4b) h ?_ hm
  unfold Dev.freeCtx
  repeat' first | with_reducible exact Edits.refl _ | with_reducible assumption | (with_reducible apply Dev.discardMeter_edits <;> first | with_reducible assumption | decide | (dsimp only; decide) | skip) | (with_reducible apply Dev.dropKeys_edits <;> first | with_reducible assumption | decide | (dsimp only; decide) | skip) | (with_reducible apply Dev.pairRun_edits <;> first | with_reducible assumption | decide | (dsimp only; decide) | skip) | (with_reducible apply Dev.showCtx_edits <;> first | with_reducible assumption | decide | (dsimp only; decide) | skip) | (with_reducible apply Dev.showIng_edits <;> first | with_reducible assumption | decide | (dsimp only; decide) | skip) | (with_reducible apply Dev.campsEnd_edits <;> first | with_reducible assumption | decide | (dsimp only; decide) | skip) | (with_reducible apply Dev.pairDo_edits <;> first | with_reducible assumption | decide | (dsimp only; decide) | skip) | (with_reducible apply Dev.memberEntry_edits <;> first | with_reducible assumption | decide | (dsimp only; decide) | skip) | (with_reducible apply Dev.countBy_lit_edits <;> [decide; skip]) | (with_reducible apply Dev.countBy_edits <;> first | with_reducible assumption | decide | (dsimp only; decide) | skip) | (with_reducible apply Dev.showCamp_edits <;> first | with_reducible assumption | decide | (dsimp only; decide) | skip) | (with_reducible apply Dev.forgetMeter_edits <;> first | with_reducible assumption | decide | (dsimp only; decide) | skip) | with_reducible refine Edits.foldl _ (fun _ _ _ => ?_) _ ?_ | (extract_lets -merge +onlyGivenNames x; first | (refine (fun _ : Edits 0x34e3e000ffe4b d x => ?_) ?_; (on_goal 1 => clear_value x); (on_goal 2 => subst x)) | (have _h : ∃ y : Fld, y = x := ⟨x, rfl⟩; clear _h; subst x) | (have _h : ∃ y : Tsu, y = x := ⟨x, rfl⟩; clear _h; subst x) | (have _h : ∃ y : TrlRt, y = x := ⟨x, rfl⟩; clear _h; subst x) | (have _h : ∃ y : Clo, y = x := ⟨x, rfl⟩; clear _h; subst x) | (have _h : ∃ y : Face, y = x := ⟨x, rfl⟩; clear _h; subst x) | (have _h : ∃ y : HostIf, y = x := ⟨x, rfl⟩; clear _h; subst x) | (have _h : ∃ y : (_ → _), y = x := ⟨x, rfl⟩; clear _h; subst x) | clear_value x | subst x) | split | with_reducible refine Edits.upd (h := ?_)

theorem Dev.pinNow_edits {m : Nat} {d₀ d : Dev} {x1} (hm : Nat.land m 0x34e2e0006ec0b = 0x34e2e0006ec0b := by decide)
    (h : Edits m d₀ d) : Edits m d₀ (Dev.pinNow d x1) := by
  refine Edits.andThen (t := 0x34e2e0006ec0b) h ?_ hm
  unfold Dev.pinNow
  extract_lets -merge +onlyGivenNames pin x e d₁
  have h₁ : Edits 0x34e2e0006ec0b d d₁ := by
    dsimp only [d₁]
    exact Edits.upd (h := Edits.refl _)
  clear_value d₁
  exact Dev.finish_edits (h := Dev.showCtx_edits (h := h₁))

theorem Dev.tryPin_edits {m : Nat} {d₀ d : Dev} {x1} (hm : Nat.land m 0x34e2e0006ec0b = 0x34e2e0006ec0b := by decide)
    (h : Edits m d₀ d) : Edits m d₀ (Dev.tryPin d x1) := by
  refine Edits.andThen (t := 0x34e2e0006ec0b) h ?_ hm
  unfold Dev.tryPin
  repeat' first | with_reducible exact Edits.refl _ | with_reducible assumption | (with_reducible apply Dev.bringCtx_edits; with_reducible assumption; decide) | (with_reducible apply Dev.pinNow_edits <;> first | with_reducible assumption | decide | (dsimp only; decide) | skip) | (with_reducible apply Dev.set_at_edits <;> first | with_reducible assumption | decide | (dsimp only; decide) | skip) | (with_reducible apply Dev.set_at2_edits <;> first | with_reducible assumption | decide | (dsimp only; decide) | skip) | (with_reducible apply Dev.set_edits <;> first | with_reducible assumption | decide | (dsimp only; decide) | skip) | with_reducible refine Edits.foldl _ (fun _ _ _ => ?_) _ ?_ | (extract_lets -merge +onlyGivenNames x; first | (refine (fun _ : Edits 0x34e2e0006ec0b d x => ?_) ?_; (on_goal 1 => clear_value x); (on_goal 2 => subst x)) | (have _h : ∃ y : Fld, y = x := ⟨x, rfl⟩; clear _h; subst x) | (have _h : ∃ y : Tsu, y = x := ⟨x, rfl⟩; clear _h; subst x) | (have _h : ∃ y : TrlRt, y = x := ⟨x, rfl⟩; clear _h; subst x) | (have _h : ∃ y : Clo, y = x := ⟨x, rfl⟩; clear _h; subst x) | (have _h : ∃ y : Face, y = x := ⟨x, rfl⟩; clear _h; subst x) | (have _h : ∃ y : HostIf, y = x := ⟨x, rfl⟩; clear _h; subst x) | (have _h : ∃ y : (_ → _), y = x := ⟨x, rfl⟩; clear _h; subst x) | clear_value x | subst x) | split | with_reducible refine Edits.upd (h := ?_)

end Sys2Proof.Machine
end

