-- ==== Sys2Proof/Laws/Ops/HeadOps.lean ====
section
/-! SUPPORT. What the operations of Machine/HeadOps.lean may do: the parts each touches (`Edits`), said once. -/

set_option linter.unusedTactic false
set_option linter.unreachableTactic false
set_option Elab.async false

namespace Sys2Proof.Machine

theorem Dev.takeCounter_snd_edits {m : Nat} {d₀ d : Dev} {x1} (hm : Nat.land m 0x340240004c003 = 0x340240004c003 := by decide)
    (h : Edits m d₀ d) : Edits m d₀ (Dev.takeCounter d x1).2 := by
  refine Edits.andThen (t := 0x340240004c003) h ?_ hm
  unfold Dev.takeCounter
  repeat' first | with_reducible exact Edits.refl _ | with_reducible assumption | dsimp -zeta only | (with_reducible apply Dev.journal_edits <;> first | with_reducible assumption | decide | (dsimp only; decide) | skip) | (with_reducible apply Dev.raise_at_edits <;> first | with_reducible assumption | decide | (dsimp only; decide) | skip) | (with_reducible apply Dev.raise_at2_edits <;> first | with_reducible assumption | decide | (dsimp only; decide) | skip) | (with_reducible apply Dev.raise_edits <;> first | with_reducible assumption | decide | (dsimp only; decide) | skip) | with_reducible refine Edits.foldl _ (fun _ _ _ => ?_) _ ?_ | (extract_lets -merge +onlyGivenNames x; first | (refine (fun _ : Edits 0x340240004c003 d x => ?_) ?_; (on_goal 1 => clear_value x); (on_goal 2 => subst x)) | (have _h : ∃ y : Fld, y = x := ⟨x, rfl⟩; clear _h; subst x) | (have _h : ∃ y : Tsu, y = x := ⟨x, rfl⟩; clear _h; subst x) | (have _h : ∃ y : TrlRt, y = x := ⟨x, rfl⟩; clear _h; subst x) | (have _h : ∃ y : Clo, y = x := ⟨x, rfl⟩; clear _h; subst x) | (have _h : ∃ y : Face, y = x := ⟨x, rfl⟩; clear _h; subst x) | (have _h : ∃ y : HostIf, y = x := ⟨x, rfl⟩; clear _h; subst x) | (have _h : ∃ y : (_ → _), y = x := ⟨x, rfl⟩; clear _h; subst x) | clear_value x | subst x) | split | with_reducible refine Edits.upd (h := ?_)

theorem Dev.takeCounter_edits {m : Nat} {d₀ d d' : Dev} {x1} {y} (e : Dev.takeCounter d x1 = (y, d')) (hm : Nat.land m 0x340240004c003 = 0x340240004c003 := by decide)
    (h : Edits m d₀ d) : Edits m d₀ d' := by
  have := Dev.takeCounter_snd_edits (x1 := x1) hm h
  rw [e] at this
  exact this

theorem Dev.secureUnicast_snd_edits {m : Nat} {d₀ d : Dev} {x1 x2 x3 x4} (hm : Nat.land m 0x340240004c00b = 0x340240004c00b := by decide)
    (h : Edits m d₀ d) : Edits m d₀ (Dev.secureUnicast d x1 x2 x3 x4).2 := by
  refine Edits.andThen (t := 0x340240004c00b) h ?_ hm
  unfold Dev.secureUnicast
  repeat' first | with_reducible exact Edits.refl _ | with_reducible assumption | dsimp -zeta only | (with_reducible apply Dev.fresh_edits; with_reducible assumption; decide) | (with_reducible apply Dev.fresh_snd_edits <;> first | with_reducible assumption | decide | (dsimp only; decide) | skip) | (with_reducible apply Dev.takeCounter_edits; with_reducible assumption; decide) | (with_reducible apply Dev.takeCounter_snd_edits <;> first | with_reducible assumption | decide | (dsimp only; decide) | skip) | with_reducible refine Edits.foldl _ (fun _ _ _ => ?_) _ ?_ | (extract_lets -merge +onlyGivenNames x; first | (refine (fun _ : Edits 0x340240004c00b d x => ?_) ?_; (on_goal 1 => clear_value x); (on_goal 2 => subst x)) | (have _h : ∃ y : Fld, y = x := ⟨x, rfl⟩; clear _h; subst x) | (have _h : ∃ y : Tsu, y = x := ⟨x, rfl⟩; clear _h; subst x) | (have _h : ∃ y : TrlRt, y = x := ⟨x, rfl⟩; clear _h; subst x) | (have _h : ∃ y : Clo, y = x := ⟨x, rfl⟩; clear _h; subst x) | (have _h : ∃ y : Face, y = x := ⟨x, rfl⟩; clear _h; subst x) | (have _h : ∃ y : HostIf, y = x := ⟨x, rfl⟩; clear _h; subst x) | (have _h : ∃ y : (_ → _), y = x := ⟨x, rfl⟩; clear _h; subst x) | clear_value x | subst x) | split | with_reducible refine Edits.upd (h := ?_)

theorem Dev.secureUnicast_edits {m : Nat} {d₀ d d' : Dev} {x1 x2 x3 x4} {y} (e : Dev.secureUnicast d x1 x2 x3 x4 = (y, d')) (hm : Nat.land m 0x340240004c00b = 0x340240004c00b := by decide)
    (h : Edits m d₀ d) : Edits m d₀ d' := by
  have := Dev.secureUnicast_snd_edits (x1 := x1) (x2 := x2) (x3 := x3) (x4 := x4) hm h
  rw [e] at this
  exact this

theorem Dev.composeAck_snd_edits {m : Nat} {d₀ d : Dev} {x1 x2 x3 x4} (hm : Nat.land m 0x340240004c20b = 0x340240004c20b := by decide)
    (h : Edits m d₀ d) : Edits m d₀ (Dev.composeAck d x1 x2 x3 x4).2 := by
  refine Edits.andThen (t := 0x340240004c20b) h ?_ hm
  unfold Dev.composeAck
  repeat' first | with_reducible exact Edits.refl _ | with_reducible assumption | dsimp -zeta only | (with_reducible apply Dev.secureUnicast_edits; with_reducible assumption; decide) | (with_reducible apply Dev.secureUnicast_snd_edits <;> first | with_reducible assumption | decide | (dsimp only; decide) | skip) | (with_reducible apply Dev.takeCounter_edits; with_reducible assumption; decide) | (with_reducible apply Dev.takeCounter_snd_edits <;> first | with_reducible assumption | decide | (dsimp only; decide) | skip) | with_reducible refine Edits.foldl _ (fun _ _ _ => ?_) _ ?_ | (extract_lets -merge +onlyGivenNames x; first | (refine (fun _ : Edits 0x340240004c20b d x => ?_) ?_; (on_goal 1 => clear_value x); (on_goal 2 => subst x)) | (have _h : ∃ y : Fld, y = x := ⟨x, rfl⟩; clear _h; subst x) | (have _h : ∃ y : Tsu, y = x := ⟨x, rfl⟩; clear _h; subst x) | (have _h : ∃ y : TrlRt, y = x := ⟨x, rfl⟩; clear _h; subst x) | (have _h : ∃ y : Clo, y = x := ⟨x, rfl⟩; clear _h; subst x) | (have _h : ∃ y : Face, y = x := ⟨x, rfl⟩; clear _h; subst x) | (have _h : ∃ y : HostIf, y = x := ⟨x, rfl⟩; clear _h; subst x) | (have _h : ∃ y : (_ → _), y = x := ⟨x, rfl⟩; clear _h; subst x) | clear_value x | subst x) | split | with_reducible refine Edits.upd (h := ?_)

theorem Dev.composeAck_edits {m : Nat} {d₀ d d' : Dev} {x1 x2 x3 x4} {y} (e : Dev.composeAck d x1 x2 x3 x4 = (y, d')) (hm : Nat.land m 0x340240004c20b = 0x340240004c20b := by decide)
    (h : Edits m d₀ d) : Edits m d₀ d' := by
  have := Dev.composeAck_snd_edits (x1 := x1) (x2 := x2) (x3 := x3) (x4 := x4) hm h
  rw [e] at this
  exact this

theorem Dev.planOrder_edits {m : Nat} {d₀ d : Dev} {x1} (hm : Nat.land m 0x200 = 0x200 := by decide)
    (h : Edits m d₀ d) : Edits m d₀ (Dev.planOrder d x1) := by
  refine Edits.andThen (t := 0x200) h ?_ hm
  unfold Dev.planOrder
  repeat' first | with_reducible exact Edits.refl _ | with_reducible assumption | with_reducible refine Edits.foldl _ (fun _ _ _ => ?_) _ ?_ | (extract_lets -merge +onlyGivenNames x; first | (refine (fun _ : Edits 0x200 d x => ?_) ?_; (on_goal 1 => clear_value x); (on_goal 2 => subst x)) | (have _h : ∃ y : Fld, y = x := ⟨x, rfl⟩; clear _h; subst x) | (have _h : ∃ y : Tsu, y = x := ⟨x, rfl⟩; clear _h; subst x) | (have _h : ∃ y : TrlRt, y = x := ⟨x, rfl⟩; clear _h; subst x) | (have _h : ∃ y : Clo, y = x := ⟨x, rfl⟩; clear _h; subst x) | (have _h : ∃ y : Face, y = x := ⟨x, rfl⟩; clear _h; subst x) | (have _h : ∃ y : HostIf, y = x := ⟨x, rfl⟩; clear _h; subst x) | (have _h : ∃ y : (_ → _), y = x := ⟨x, rfl⟩; clear _h; subst x) | clear_value x | subst x) | split | with_reducible refine Edits.upd (h := ?_)

theorem Dev.composeDownlink_snd_edits {m : Nat} {d₀ d : Dev} {x1 x2 x3 x4} (hm : Nat.land m 0x340240004c00b = 0x340240004c00b := by decide)
    (h : Edits m d₀ d) : Edits m d₀ (Dev.composeDownlink d x1 x2 x3 x4).2 := by
  refine Edits.andThen (t := 0x340240004c00b) h ?_ hm
  unfold Dev.composeDownlink
  repeat' first | with_reducible exact Edits.refl _ | with_reducible assumption | dsimp -zeta only | (with_reducible apply Dev.secureUnicast_edits; with_reducible assumption; decide) | (with_reducible apply Dev.secureUnicast_snd_edits <;> first | with_reducible assumption | decide | (dsimp only; decide) | skip) | (with_reducible apply Dev.takeCounter_edits; with_reducible assumption; decide) | (with_reducible apply Dev.takeCounter_snd_edits <;> first | with_reducible assumption | decide | (dsimp only; decide) | skip) | with_reducible refine Edits.foldl _ (fun _ _ _ => ?_) _ ?_ | (extract_lets -merge +onlyGivenNames x; first | (refine (fun _ : Edits 0x340240004c00b d x => ?_) ?_; (on_goal 1 => clear_value x); (on_goal 2 => subst x)) | (have _h : ∃ y : Fld, y = x := ⟨x, rfl⟩; clear _h; subst x) | (have _h : ∃ y : Tsu, y = x := ⟨x, rfl⟩; clear _h; subst x) | (have _h : ∃ y : TrlRt, y = x := ⟨x, rfl⟩; clear _h; subst x) | (have _h : ∃ y : Clo, y = x := ⟨x, rfl⟩; clear _h; subst x) | (have _h : ∃ y : Face, y = x := ⟨x, rfl⟩; clear _h; subst x) | (have _h : ∃ y : HostIf, y = x := ⟨x, rfl⟩; clear _h; subst x) | (have _h : ∃ y : (_ → _), y = x := ⟨x, rfl⟩; clear _h; subst x) | clear_value x | subst x) | split | with_reducible refine Edits.upd (h := ?_)

theorem Dev.composeDownlink_edits {m : Nat} {d₀ d d' : Dev} {x1 x2 x3 x4} {y} (e : Dev.composeDownlink d x1 x2 x3 x4 = (y, d')) (hm : Nat.land m 0x340240004c00b = 0x340240004c00b := by decide)
    (h : Edits m d₀ d) : Edits m d₀ d' := by
  have := Dev.composeDownlink_snd_edits (x1 := x1) (x2 := x2) (x3 := x3) (x4 := x4) hm h
  rw [e] at this
  exact this

theorem Dev.account_edits {m : Nat} {d₀ d : Dev} {x1 x2 x3 x4} (hm : Nat.land m 0x200 = 0x200 := by decide)
    (h : Edits m d₀ d) : Edits m d₀ (Dev.account d x1 x2 x3 x4) := by
  refine Edits.andThen (t := 0x200) h ?_ hm
  unfold Dev.account
  repeat' first | with_reducible exact Edits.refl _ | with_reducible assumption | with_reducible refine Edits.foldl _ (fun _ _ _ => ?_) _ ?_ | (extract_lets -merge +onlyGivenNames x; first | (refine (fun _ : Edits 0x200 d x => ?_) ?_; (on_goal 1 => clear_value x); (on_goal 2 => subst x)) | (have _h : ∃ y : Fld, y = x := ⟨x, rfl⟩; clear _h; subst x) | (have _h : ∃ y : Tsu, y = x := ⟨x, rfl⟩; clear _h; subst x) | (have _h : ∃ y : TrlRt, y = x := ⟨x, rfl⟩; clear _h; subst x) | (have _h : ∃ y : Clo, y = x := ⟨x, rfl⟩; clear _h; subst x) | (have _h : ∃ y : Face, y = x := ⟨x, rfl⟩; clear _h; subst x) | (have _h : ∃ y : HostIf, y = x := ⟨x, rfl⟩; clear _h; subst x) | (have _h : ∃ y : (_ → _), y = x := ⟨x, rfl⟩; clear _h; subst x) | clear_value x | subst x) | split | with_reducible refine Edits.upd (h := ?_)

theorem Dev.showHead_edits {m : Nat} {d₀ d : Dev} (hm : Nat.land m 0x2000000000 = 0x2000000000 := by decide)
    (h : Edits m d₀ d) : Edits m d₀ (Dev.showHead d) := by
  refine Edits.andThen (t := 0x2000000000) h ?_ hm
  unfold Dev.showHead
  repeat' first | with_reducible exact Edits.refl _ | with_reducible assumption | (with_reducible apply Dev.set_at_edits <;> first | with_reducible assumption | decide | (dsimp only; decide) | skip) | (with_reducible apply Dev.set_at2_edits <;> first | with_reducible assumption | decide | (dsimp only; decide) | skip) | (with_reducible apply Dev.set_edits <;> first | with_reducible assumption | decide | (dsimp only; decide) | skip) | with_reducible refine Edits.foldl _ (fun _ _ _ => ?_) _ ?_ | (extract_lets -merge +onlyGivenNames x; first | (refine (fun _ : Edits 0x2000000000 d x => ?_) ?_; (on_goal 1 => clear_value x); (on_goal 2 => subst x)) | (have _h : ∃ y : Fld, y = x := ⟨x, rfl⟩; clear _h; subst x) | (have _h : ∃ y : Tsu, y = x := ⟨x, rfl⟩; clear _h; subst x) | (have _h : ∃ y : TrlRt, y = x := ⟨x, rfl⟩; clear _h; subst x) | (have _h : ∃ y : Clo, y = x := ⟨x, rfl⟩; clear _h; subst x) | (have _h : ∃ y : Face, y = x := ⟨x, rfl⟩; clear _h; subst x) | (have _h : ∃ y : HostIf, y = x := ⟨x, rfl⟩; clear _h; subst x) | (have _h : ∃ y : (_ → _), y = x := ⟨x, rfl⟩; clear _h; subst x) | clear_value x | subst x) | split | with_reducible refine Edits.upd (h := ?_)

theorem Dev.setHead_edits {m : Nat} {d₀ d : Dev} {x1 x2} (hm : Nat.land m 0x2000000200 = 0x2000000200 := by decide)
    (h : Edits m d₀ d) : Edits m d₀ (Dev.setHead d x1 x2) := by
  refine Edits.andThen (t := 0x2000000200) h ?_ hm
  unfold Dev.setHead
  repeat' first | with_reducible exact Edits.refl _ | with_reducible assumption | (with_reducible apply Dev.showHead_edits <;> first | with_reducible assumption | decide | (dsimp only; decide) | skip) | with_reducible refine Edits.foldl _ (fun _ _ _ => ?_) _ ?_ | (extract_lets -merge +onlyGivenNames x; first | (refine (fun _ : Edits 0x2000000200 d x => ?_) ?_; (on_goal 1 => clear_value x); (on_goal 2 => subst x)) | (have _h : ∃ y : Fld, y = x := ⟨x, rfl⟩; clear _h; subst x) | (have _h : ∃ y : Tsu, y = x := ⟨x, rfl⟩; clear _h; subst x) | (have _h : ∃ y : TrlRt, y = x := ⟨x, rfl⟩; clear _h; subst x) | (have _h : ∃ y : Clo, y = x := ⟨x, rfl⟩; clear _h; subst x) | (have _h : ∃ y : Face, y = x := ⟨x, rfl⟩; clear _h; subst x) | (have _h : ∃ y : HostIf, y = x := ⟨x, rfl⟩; clear _h; subst x) | (have _h : ∃ y : (_ → _), y = x := ⟨x, rfl⟩; clear _h; subst x) | clear_value x | subst x) | split | with_reducible refine Edits.upd (h := ?_)

theorem Dev.sendHlp0_edits {m : Nat} {d₀ d : Dev} {x1 x2 x3 x4 x5 x6} (hm : Nat.land m 0x210a = 0x210a := by decide)
    (h : Edits m d₀ d) : Edits m d₀ (Dev.sendHlp0 d x1 x2 x3 x4 x5 x6) := by
  refine Edits.andThen (t := 0x210a) h ?_ hm
  unfold Dev.sendHlp0
  repeat' first | with_reducible exact Edits.refl _ | with_reducible assumption | (with_reducible apply Dev.drbg_edits; with_reducible assumption; decide) | (with_reducible apply Dev.drbg_snd_edits <;> first | with_reducible assumption | decide | (dsimp only; decide) | skip) | (with_reducible apply Dev.sendIp_edits <;> first | with_reducible assumption | decide | (dsimp only; decide) | skip) | with_reducible refine Edits.foldl _ (fun _ _ _ => ?_) _ ?_ | (extract_lets -merge +onlyGivenNames x; first | (refine (fun _ : Edits 0x210a d x => ?_) ?_; (on_goal 1 => clear_value x); (on_goal 2 => subst x)) | (have _h : ∃ y : Fld, y = x := ⟨x, rfl⟩; clear _h; subst x) | (have _h : ∃ y : Tsu, y = x := ⟨x, rfl⟩; clear _h; subst x) | (have _h : ∃ y : TrlRt, y = x := ⟨x, rfl⟩; clear _h; subst x) | (have _h : ∃ y : Clo, y = x := ⟨x, rfl⟩; clear _h; subst x) | (have _h : ∃ y : Face, y = x := ⟨x, rfl⟩; clear _h; subst x) | (have _h : ∃ y : HostIf, y = x := ⟨x, rfl⟩; clear _h; subst x) | (have _h : ∃ y : (_ → _), y = x := ⟨x, rfl⟩; clear _h; subst x) | clear_value x | subst x) | split | with_reducible refine Edits.upd (h := ?_)

theorem Dev.sendHlp_edits {m : Nat} {d₀ d : Dev} {x1 x2 x3} (hm : Nat.land m 0x302 = 0x302 := by decide)
    (h : Edits m d₀ d) : Edits m d₀ (Dev.sendHlp d x1 x2 x3) := by
  refine Edits.andThen (t := 0x302) h ?_ hm
  unfold Dev.sendHlp
  repeat' first | with_reducible exact Edits.refl _ | with_reducible assumption | (with_reducible apply Dev.sendIp_edits <;> first | with_reducible assumption | decide | (dsimp only; decide) | skip) | with_reducible refine Edits.foldl _ (fun _ _ _ => ?_) _ ?_ | (extract_lets -merge +onlyGivenNames x; first | (refine (fun _ : Edits 0x302 d x => ?_) ?_; (on_goal 1 => clear_value x); (on_goal 2 => subst x)) | (have _h : ∃ y : Fld, y = x := ⟨x, rfl⟩; clear _h; subst x) | (have _h : ∃ y : Tsu, y = x := ⟨x, rfl⟩; clear _h; subst x) | (have _h : ∃ y : TrlRt, y = x := ⟨x, rfl⟩; clear _h; subst x) | (have _h : ∃ y : Clo, y = x := ⟨x, rfl⟩; clear _h; subst x) | (have _h : ∃ y : Face, y = x := ⟨x, rfl⟩; clear _h; subst x) | (have _h : ∃ y : HostIf, y = x := ⟨x, rfl⟩; clear _h; subst x) | (have _h : ∃ y : (_ → _), y = x := ⟨x, rfl⟩; clear _h; subst x) | clear_value x | subst x) | split | with_reducible refine Edits.upd (h := ?_)

theorem Dev.backoffs_edits {m : Nat} {d₀ : Dev} {n : Nat} : ∀ {d d' : Dev} {be : Nat} {l : List Nat} (_ : d.backoffs n be = (l, d'))
    (_ : Nat.land m 0x2008 = 0x2008 := by decide) (_ : Edits m d₀ d), Edits m d₀ d' := by
  induction n with
  | zero => intro d d' be l e _ h; cases e; exact h
  | succ n ih =>
    intro d d' be l e hm h
    unfold Dev.backoffs at e
    split at e
    rename_i v d1 e1
    split at e
    rename_i rest d2 e2
    cases e
    exact ih e2 hm (Dev.drbg_edits e1 hm h)

theorem Dev.backoffs_snd_edits {m : Nat} {d₀ d : Dev} {n be : Nat} (hm : Nat.land m 0x2008 = 0x2008 := by decide) (h : Edits m d₀ d) :
    Edits m d₀ (d.backoffs n be).2 :=
  Dev.backoffs_edits (rfl : d.backoffs n be = ((d.backoffs n be).1, (d.backoffs n be).2)) hm h

theorem Dev.csma_edits {m : Nat} {d₀ d d' : Dev} {x1 x2} {a : Nat} {l : List Nat} (e : d.csma x1 x2 = (a, l, d'))
    (hm : Nat.land m 0x2008 = 0x2008 := by decide) (h : Edits m d₀ d) : Edits m d₀ d' := by
  unfold Dev.csma at e
  split at e <;> rename_i e1 <;> cases e <;> exact Dev.backoffs_edits e1 hm h

theorem Dev.csma_snd_edits {m : Nat} {d₀ d : Dev} {x1 x2} (hm : Nat.land m 0x2008 = 0x2008 := by decide) (h : Edits m d₀ d) :
    Edits m d₀ (d.csma x1 x2).2.2 :=
  Dev.csma_edits (rfl : d.csma x1 x2 = ((d.csma x1 x2).1, (d.csma x1 x2).2.1, (d.csma x1 x2).2.2)) hm h

theorem Dev.setCell_edits {m : Nat} {d₀ d : Dev} {x1 x2} (hm : Nat.land m 0x2000000200 = 0x2000000200 := by decide)
    (h : Edits m d₀ d) : Edits m d₀ (Dev.setCell d x1 x2) := by
  refine Edits.andThen (t := 0x2000000200) h ?_ hm
  unfold Dev.setCell
  repeat' first | with_reducible exact Edits.refl _ | with_reducible assumption | (with_reducible apply Dev.showHead_edits <;> first | with_reducible assumption | decide | (dsimp only; decide) | skip) | with_reducible refine Edits.foldl _ (fun _ _ _ => ?_) _ ?_ | (extract_lets -merge +onlyGivenNames x; first | (refine (fun _ : Edits 0x2000000200 d x => ?_) ?_; (on_goal 1 => clear_value x); (on_goal 2 => subst x)) | (have _h : ∃ y : Fld, y = x := ⟨x, rfl⟩; clear _h; subst x) | (have _h : ∃ y : Tsu, y = x := ⟨x, rfl⟩; clear _h; subst x) | (have _h : ∃ y : TrlRt, y = x := ⟨x, rfl⟩; clear _h; subst x) | (have _h : ∃ y : Clo, y = x := ⟨x, rfl⟩; clear _h; subst x) | (have _h : ∃ y : Face, y = x := ⟨x, rfl⟩; clear _h; subst x) | (have _h : ∃ y : HostIf, y = x := ⟨x, rfl⟩; clear _h; subst x) | (have _h : ∃ y : (_ → _), y = x := ⟨x, rfl⟩; clear _h; subst x) | clear_value x | subst x) | split | with_reducible refine Edits.upd (h := ?_)

theorem Dev.dropOrder_edits {m : Nat} {d₀ d : Dev} {x1 x2} (hm : Nat.land m 0x200 = 0x200 := by decide)
    (h : Edits m d₀ d) : Edits m d₀ (Dev.dropOrder d x1 x2) := by
  refine Edits.andThen (t := 0x200) h ?_ hm
  unfold Dev.dropOrder
  repeat' first | with_reducible exact Edits.refl _ | with_reducible assumption | with_reducible refine Edits.foldl _ (fun _ _ _ => ?_) _ ?_ | (extract_lets -merge +onlyGivenNames x; first | (refine (fun _ : Edits 0x200 d x => ?_) ?_; (on_goal 1 => clear_value x); (on_goal 2 => subst x)) | (have _h : ∃ y : Fld, y = x := ⟨x, rfl⟩; clear _h; subst x) | (have _h : ∃ y : Tsu, y = x := ⟨x, rfl⟩; clear _h; subst x) | (have _h : ∃ y : TrlRt, y = x := ⟨x, rfl⟩; clear _h; subst x) | (have _h : ∃ y : Clo, y = x := ⟨x, rfl⟩; clear _h; subst x) | (have _h : ∃ y : Face, y = x := ⟨x, rfl⟩; clear _h; subst x) | (have _h : ∃ y : HostIf, y = x := ⟨x, rfl⟩; clear _h; subst x) | (have _h : ∃ y : (_ → _), y = x := ⟨x, rfl⟩; clear _h; subst x) | clear_value x | subst x) | split | with_reducible refine Edits.upd (h := ?_)

theorem Dev.newOrder_snd_edits {m : Nat} {d₀ d : Dev} {x1 x2 x3 x4 x5 x6 x7 x8 x9} (hm : Nat.land m 0x200 = 0x200 := by decide)
    (h : Edits m d₀ d) : Edits m d₀ (Dev.newOrder d x1 x2 x3 x4 x5 x6 x7 x8 x9).2 := by
  refine Edits.andThen (t := 0x200) h ?_ hm
  unfold Dev.newOrder
  repeat' first | with_reducible exact Edits.refl _ | with_reducible assumption | dsimp -zeta only | with_reducible refine Edits.foldl _ (fun _ _ _ => ?_) _ ?_ | (extract_lets -merge +onlyGivenNames x; first | (refine (fun _ : Edits 0x200 d x => ?_) ?_; (on_goal 1 => clear_value x); (on_goal 2 => subst x)) | (have _h : ∃ y : Fld, y = x := ⟨x, rfl⟩; clear _h; subst x) | (have _h : ∃ y : Tsu, y = x := ⟨x, rfl⟩; clear _h; subst x) | (have _h : ∃ y : TrlRt, y = x := ⟨x, rfl⟩; clear _h; subst x) | (have _h : ∃ y : Clo, y = x := ⟨x, rfl⟩; clear _h; subst x) | (have _h : ∃ y : Face, y = x := ⟨x, rfl⟩; clear _h; subst x) | (have _h : ∃ y : HostIf, y = x := ⟨x, rfl⟩; clear _h; subst x) | (have _h : ∃ y : (_ → _), y = x := ⟨x, rfl⟩; clear _h; subst x) | clear_value x | subst x) | split | with_reducible refine Edits.upd (h := ?_)

theorem Dev.newOrder_edits {m : Nat} {d₀ d d' : Dev} {x1 x2 x3 x4 x5 x6 x7 x8 x9} {y} (e : Dev.newOrder d x1 x2 x3 x4 x5 x6 x7 x8 x9 = (y, d')) (hm : Nat.land m 0x200 = 0x200 := by decide)
    (h : Edits m d₀ d) : Edits m d₀ d' := by
  have := Dev.newOrder_snd_edits (x1 := x1) (x2 := x2) (x3 := x3) (x4 := x4) (x5 := x5) (x6 := x6) (x7 := x7) (x8 := x8) (x9 := x9) hm h
  rw [e] at this
  exact this

theorem Dev.sendOrder_edits {m : Nat} {d₀ d : Dev} {x1} (hm : Nat.land m 0x80000000302 = 0x80000000302 := by decide)
    (h : Edits m d₀ d) : Edits m d₀ (Dev.sendOrder d x1) := by
  refine Edits.andThen (t := 0x80000000302) h ?_ hm
  unfold Dev.sendOrder
  repeat' first | with_reducible exact Edits.refl _ | with_reducible assumption | (with_reducible apply Dev.account_edits <;> first | with_reducible assumption | decide | (dsimp only; decide) | skip) | (with_reducible apply Dev.count_lit_edits <;> [decide; skip]) | (with_reducible apply Dev.count_edits <;> first | with_reducible assumption | decide | (dsimp only; decide) | skip) | (with_reducible apply Dev.sendIp_edits <;> first | with_reducible assumption | decide | (dsimp only; decide) | skip) | with_reducible refine Edits.foldl _ (fun _ _ _ => ?_) _ ?_ | (extract_lets -merge +onlyGivenNames x; first | (refine (fun _ : Edits 0x80000000302 d x => ?_) ?_; (on_goal 1 => clear_value x); (on_goal 2 => subst x)) | (have _h : ∃ y : Fld, y = x := ⟨x, rfl⟩; clear _h; subst x) | (have _h : ∃ y : Tsu, y = x := ⟨x, rfl⟩; clear _h; subst x) | (have _h : ∃ y : TrlRt, y = x := ⟨x, rfl⟩; clear _h; subst x) | (have _h : ∃ y : Clo, y = x := ⟨x, rfl⟩; clear _h; subst x) | (have _h : ∃ y : Face, y = x := ⟨x, rfl⟩; clear _h; subst x) | (have _h : ∃ y : HostIf, y = x := ⟨x, rfl⟩; clear _h; subst x) | (have _h : ∃ y : (_ → _), y = x := ⟨x, rfl⟩; clear _h; subst x) | clear_value x | subst x) | split | with_reducible refine Edits.upd (h := ?_)

theorem Dev.loadBcast_snd_edits {m : Nat} {d₀ d : Dev} {x1} (hm : Nat.land m 0x2000 = 0x2000 := by decide)
    (h : Edits m d₀ d) : Edits m d₀ (Dev.loadBcast d x1).2 := by
  refine Edits.andThen (t := 0x2000) h ?_ hm
  unfold Dev.loadBcast
  repeat' first | with_reducible exact Edits.refl _ | with_reducible assumption | dsimp -zeta only | with_reducible refine Edits.foldl _ (fun _ _ _ => ?_) _ ?_ | (extract_lets -merge +onlyGivenNames x; first | (refine (fun _ : Edits 0x2000 d x => ?_) ?_; (on_goal 1 => clear_value x); (on_goal 2 => subst x)) | (have _h : ∃ y : Fld, y = x := ⟨x, rfl⟩; clear _h; subst x) | (have _h : ∃ y : Tsu, y = x := ⟨x, rfl⟩; clear _h; subst x) | (have _h : ∃ y : TrlRt, y = x := ⟨x, rfl⟩; clear _h; subst x) | (have _h : ∃ y : Clo, y = x := ⟨x, rfl⟩; clear _h; subst x) | (have _h : ∃ y : Face, y = x := ⟨x, rfl⟩; clear _h; subst x) | (have _h : ∃ y : HostIf, y = x := ⟨x, rfl⟩; clear _h; subst x) | (have _h : ∃ y : (_ → _), y = x := ⟨x, rfl⟩; clear _h; subst x) | clear_value x | subst x) | split | with_reducible refine Edits.upd (h := ?_)

theorem Dev.loadBcast_edits {m : Nat} {d₀ d d' : Dev} {x1} {y} (e : Dev.loadBcast d x1 = (y, d')) (hm : Nat.land m 0x2000 = 0x2000 := by decide)
    (h : Edits m d₀ d) : Edits m d₀ d' := by
  have := Dev.loadBcast_snd_edits (x1 := x1) hm h
  rw [e] at this
  exact this

theorem Dev.composeBroadcast_snd_edits {m : Nat} {d₀ d : Dev} {x1 x2 x3 x4 x5} (hm : Nat.land m 0x2008 = 0x2008 := by decide)
    (h : Edits m d₀ d) : Edits m d₀ (Dev.composeBroadcast d x1 x2 x3 x4 x5).2 := by
  refine Edits.andThen (t := 0x2008) h ?_ hm
  unfold Dev.composeBroadcast
  repeat' first | with_reducible exact Edits.refl _ | with_reducible assumption | dsimp -zeta only | (with_reducible apply Dev.fresh_edits; with_reducible assumption; decide) | (with_reducible apply Dev.fresh_snd_edits <;> first | with_reducible assumption | decide | (dsimp only; decide) | skip) | (with_reducible apply Dev.loadBcast_edits; with_reducible assumption; decide) | (with_reducible apply Dev.loadBcast_snd_edits <;> first | with_reducible assumption | decide | (dsimp only; decide) | skip) | with_reducible refine Edits.foldl _ (fun _ _ _ => ?_) _ ?_ | (extract_lets -merge +onlyGivenNames x; first | (refine (fun _ : Edits 0x2008 d x => ?_) ?_; (on_goal 1 => clear_value x); (on_goal 2 => subst x)) | (have _h : ∃ y : Fld, y = x := ⟨x, rfl⟩; clear _h; subst x) | (have _h : ∃ y : Tsu, y = x := ⟨x, rfl⟩; clear _h; subst x) | (have _h : ∃ y : TrlRt, y = x := ⟨x, rfl⟩; clear _h; subst x) | (have _h : ∃ y : Clo, y = x := ⟨x, rfl⟩; clear _h; subst x) | (have _h : ∃ y : Face, y = x := ⟨x, rfl⟩; clear _h; subst x) | (have _h : ∃ y : HostIf, y = x := ⟨x, rfl⟩; clear _h; subst x) | (have _h : ∃ y : (_ → _), y = x := ⟨x, rfl⟩; clear _h; subst x) | clear_value x | subst x) | split | with_reducible refine Edits.upd (h := ?_)

theorem Dev.composeBroadcast_edits {m : Nat} {d₀ d d' : Dev} {x1 x2 x3 x4 x5} {y} (e : Dev.composeBroadcast d x1 x2 x3 x4 x5 = (y, d')) (hm : Nat.land m 0x2008 = 0x2008 := by decide)
    (h : Edits m d₀ d) : Edits m d₀ d' := by
  have := Dev.composeBroadcast_snd_edits (x1 := x1) (x2 := x2) (x3 := x3) (x4 := x4) (x5 := x5) hm h
  rw [e] at this
  exact this

theorem Dev.broadcastCh_snd_edits {m : Nat} {d₀ d : Dev} {x1 x2 x3 x4} (hm : Nat.land m 0x2000000000 = 0x2000000000 := by decide)
    (h : Edits m d₀ d) : Edits m d₀ (Dev.broadcastCh d x1 x2 x3 x4).2 := by
  refine Edits.andThen (t := 0x2000000000) h ?_ hm
  unfold Dev.broadcastCh
  repeat' first | with_reducible exact Edits.refl _ | with_reducible assumption | dsimp -zeta only | (with_reducible apply Dev.count_lit_edits <;> [decide; skip]) | (with_reducible apply Dev.count_edits <;> first | with_reducible assumption | decide | (dsimp only; decide) | skip) | with_reducible refine Edits.foldl _ (fun _ _ _ => ?_) _ ?_ | (extract_lets -merge +onlyGivenNames x; first | (refine (fun _ : Edits 0x2000000000 d x => ?_) ?_; (on_goal 1 => clear_value x); (on_goal 2 => subst x)) | (have _h : ∃ y : Fld, y = x := ⟨x, rfl⟩; clear _h; subst x) | (have _h : ∃ y : Tsu, y = x := ⟨x, rfl⟩; clear _h; subst x) | (have _h : ∃ y : TrlRt, y = x := ⟨x, rfl⟩; clear _h; subst x) | (have _h : ∃ y : Clo, y = x := ⟨x, rfl⟩; clear _h; subst x) | (have _h : ∃ y : Face, y = x := ⟨x, rfl⟩; clear _h; subst x) | (have _h : ∃ y : HostIf, y = x := ⟨x, rfl⟩; clear _h; subst x) | (have _h : ∃ y : (_ → _), y = x := ⟨x, rfl⟩; clear _h; subst x) | clear_value x | subst x) | split | with_reducible refine Edits.upd (h := ?_)

theorem Dev.broadcastCh_edits {m : Nat} {d₀ d d' : Dev} {x1 x2 x3 x4} {y} (e : Dev.broadcastCh d x1 x2 x3 x4 = (y, d')) (hm : Nat.land m 0x2000000000 = 0x2000000000 := by decide)
    (h : Edits m d₀ d) : Edits m d₀ d' := by
  have := Dev.broadcastCh_snd_edits (x1 := x1) (x2 := x2) (x3 := x3) (x4 := x4) hm h
  rw [e] at this
  exact this

theorem Dev.againCh_snd_edits {m : Nat} {d₀ d : Dev} {x1 x2 x3} (hm : Nat.land m 0x2000000000 = 0x2000000000 := by decide)
    (h : Edits m d₀ d) : Edits m d₀ (Dev.againCh d x1 x2 x3).2 := by
  refine Edits.andThen (t := 0x2000000000) h ?_ hm
  unfold Dev.againCh
  repeat' first | with_reducible exact Edits.refl _ | with_reducible assumption | dsimp -zeta only | (with_reducible apply Dev.broadcastCh_edits; with_reducible assumption; decide) | (with_reducible apply Dev.broadcastCh_snd_edits <;> first | with_reducible assumption | decide | (dsimp only; decide) | skip) | (with_reducible apply Dev.count_lit_edits <;> [decide; skip]) | (with_reducible apply Dev.count_edits <;> first | with_reducible assumption | decide | (dsimp only; decide) | skip) | with_reducible refine Edits.foldl _ (fun _ _ _ => ?_) _ ?_ | (extract_lets -merge +onlyGivenNames x; first | (refine (fun _ : Edits 0x2000000000 d x => ?_) ?_; (on_goal 1 => clear_value x); (on_goal 2 => subst x)) | (have _h : ∃ y : Fld, y = x := ⟨x, rfl⟩; clear _h; subst x) | (have _h : ∃ y : Tsu, y = x := ⟨x, rfl⟩; clear _h; subst x) | (have _h : ∃ y : TrlRt, y = x := ⟨x, rfl⟩; clear _h; subst x) | (have _h : ∃ y : Clo, y = x := ⟨x, rfl⟩; clear _h; subst x) | (have _h : ∃ y : Face, y = x := ⟨x, rfl⟩; clear _h; subst x) | (have _h : ∃ y : HostIf, y = x := ⟨x, rfl⟩; clear _h; subst x) | (have _h : ∃ y : (_ → _), y = x := ⟨x, rfl⟩; clear _h; subst x) | clear_value x | subst x) | split | with_reducible refine Edits.upd (h := ?_)

theorem Dev.againCh_edits {m : Nat} {d₀ d d' : Dev} {x1 x2 x3} {y} (e : Dev.againCh d x1 x2 x3 = (y, d')) (hm : Nat.land m 0x2000000000 = 0x2000000000 := by decide)
    (h : Edits m d₀ d) : Edits m d₀ d' := by
  have := Dev.againCh_snd_edits (x1 := x1) (x2 := x2) (x3 := x3) hm h
  rw [e] at this
  exact this

theorem Dev.orderAgain_snd_edits {m : Nat} {d₀ d : Dev} {x1 x2} (hm : Nat.land m 0x8200000230a = 0x8200000230a := by decide)
    (h : Edits m d₀ d) : Edits m d₀ (Dev.orderAgain d x1 x2).2 := by
  refine Edits.andThen (t := 0x8200000230a) h ?_ hm
  unfold Dev.orderAgain
  extract_lets hd plan air
  clear_value hd plan air
  split
  next e =>
    have h₁ := Dev.csma_edits (m := 0x8200000230a) e (by decide) (Edits.refl _)
    split
    · exact h₁
    · split
      next e₂ => exact Dev.againCh_edits e₂ (by decide) h₁
      next e₂ =>
        have h₂ := Dev.againCh_edits e₂ (by decide) h₁
        split
        next e₃ => exact Dev.sendOrder_edits (h := Dev.newOrder_edits e₃ (by decide) h₂)

theorem Dev.orderAgain_edits {m : Nat} {d₀ d d' : Dev} {x1 x2} {y} (e : Dev.orderAgain d x1 x2 = (y, d')) (hm : Nat.land m 0x8200000230a = 0x8200000230a := by decide)
    (h : Edits m d₀ d) : Edits m d₀ d' := by
  have := Dev.orderAgain_snd_edits (x1 := x1) (x2 := x2) hm h
  rw [e] at this
  exact this

end Sys2Proof.Machine
end

