-- ==== Sys2Proof/Laws/Ops/Route.lean ====
section
/-! SUPPORT. What the operations of Machine/Route.lean may do: the parts each touches (`Edits`), said once. -/

set_option linter.unusedTactic false
set_option linter.unreachableTactic false
set_option Elab.async false

namespace Sys2Proof.Machine

theorem Dev.sendTo_edits {m : Nat} {d₀ d d' : Dev} {x1 x2 x3} (e : d.sendTo x1 x2 x3 = some d')
    (hm : Nat.land m 0x1000000040002 = 0x1000000040002 := by decide) (h : Edits m d₀ d) : Edits m d₀ d' := by
  unfold Dev.sendTo at e
  split at e
  · split at e
    · cases e
    · cases e; exact Dev.sendRunner_edits hm h
  · cases e

theorem Dev.forwardUp_edits {m : Nat} {d₀ d : Dev} {x1} (hm : Nat.land m 0x340040004c003 = 0x340040004c003 := by decide)
    (h : Edits m d₀ d) : Edits m d₀ (Dev.forwardUp d x1) := by
  refine Edits.andThen (t := 0x340040004c003) h ?_ hm
  unfold Dev.forwardUp
  repeat' first | with_reducible exact Edits.refl _ | with_reducible assumption | (with_reducible apply Dev.count_lit_edits <;> [decide; skip]) | (with_reducible apply Dev.count_edits <;> first | with_reducible assumption | decide | (dsimp only; decide) | skip) | (with_reducible apply Dev.raise_at_edits <;> first | with_reducible assumption | decide | (dsimp only; decide) | skip) | (with_reducible apply Dev.raise_at2_edits <;> first | with_reducible assumption | decide | (dsimp only; decide) | skip) | (with_reducible apply Dev.raise_edits <;> first | with_reducible assumption | decide | (dsimp only; decide) | skip) | (with_reducible apply Dev.sendTo_edits; with_reducible assumption; decide) | with_reducible refine Edits.foldl _ (fun _ _ _ => ?_) _ ?_ | (extract_lets -merge +onlyGivenNames x; first | (refine (fun _ : Edits 0x340040004c003 d x => ?_) ?_; (on_goal 1 => clear_value x); (on_goal 2 => subst x)) | (have _h : ∃ y : Fld, y = x := ⟨x, rfl⟩; clear _h; subst x) | (have _h : ∃ y : Tsu, y = x := ⟨x, rfl⟩; clear _h; subst x) | (have _h : ∃ y : TrlRt, y = x := ⟨x, rfl⟩; clear _h; subst x) | (have _h : ∃ y : Clo, y = x := ⟨x, rfl⟩; clear _h; subst x) | (have _h : ∃ y : Face, y = x := ⟨x, rfl⟩; clear _h; subst x) | (have _h : ∃ y : HostIf, y = x := ⟨x, rfl⟩; clear _h; subst x) | (have _h : ∃ y : (_ → _), y = x := ⟨x, rfl⟩; clear _h; subst x) | clear_value x | subst x) | split | with_reducible refine Edits.upd (h := ?_)

end Sys2Proof.Machine
end

