-- ==== Sys2Proof/Laws/Ops/Trl.lean ====
section
/-! SUPPORT. What the operations of Machine/Trl.lean may do: the parts each touches (`Edits`), said once. -/

set_option linter.unusedTactic false
set_option linter.unreachableTactic false
set_option Elab.async false

namespace Sys2Proof.Machine

theorem Dev.dropBase_edits {m : Nat} {d₀ d : Dev} (hm : Nat.land m 0x200000040 = 0x200000040 := by decide)
    (h : Edits m d₀ d) : Edits m d₀ (Dev.dropBase d) := by
  refine Edits.andThen (t := 0x200000040) h ?_ hm
  unfold Dev.dropBase
  repeat' first | with_reducible exact Edits.refl _ | with_reducible assumption | (with_reducible apply Dev.set_at_edits <;> first | with_reducible assumption | decide | (dsimp only; decide) | skip) | (with_reducible apply Dev.set_at2_edits <;> first | with_reducible assumption | decide | (dsimp only; decide) | skip) | (with_reducible apply Dev.set_edits <;> first | with_reducible assumption | decide | (dsimp only; decide) | skip) | (with_reducible apply Dev.setWide_lit_edits <;> [decide; decide; skip]) | (with_reducible apply Dev.setWide_edits <;> first | with_reducible assumption | decide | (dsimp only; decide) | skip) | with_reducible refine Edits.foldl _ (fun _ _ _ => ?_) _ ?_ | (extract_lets -merge +onlyGivenNames x; first | (refine (fun _ : Edits 0x200000040 d x => ?_) ?_; (on_goal 1 => clear_value x); (on_goal 2 => subst x)) | (have _h : ∃ y : Fld, y = x := ⟨x, rfl⟩; clear _h; subst x) | (have _h : ∃ y : Tsu, y = x := ⟨x, rfl⟩; clear _h; subst x) | (have _h : ∃ y : TrlRt, y = x := ⟨x, rfl⟩; clear _h; subst x) | (have _h : ∃ y : Clo, y = x := ⟨x, rfl⟩; clear _h; subst x) | (have _h : ∃ y : Face, y = x := ⟨x, rfl⟩; clear _h; subst x) | (have _h : ∃ y : HostIf, y = x := ⟨x, rfl⟩; clear _h; subst x) | (have _h : ∃ y : (_ → _), y = x := ⟨x, rfl⟩; clear _h; subst x) | clear_value x | subst x) | split | with_reducible refine Edits.upd (h := ?_)

theorem Dev.armSlot_snd_edits {m : Nat} {d₀ d : Dev} {x1 x2} (hm : Nat.land m 0x140020004c042 = 0x140020004c042 := by decide)
    (h : Edits m d₀ d) : Edits m d₀ (Dev.armSlot d x1 x2).2 := by
  refine Edits.andThen (t := 0x140020004c042) h ?_ hm
  unfold Dev.armSlot
  repeat' first | with_reducible exact Edits.refl _ | with_reducible assumption | dsimp -zeta only | (with_reducible apply Dev.journal_edits <;> first | with_reducible assumption | decide | (dsimp only; decide) | skip) | (with_reducible apply Dev.putSlot_edits <;> first | with_reducible assumption | decide | (dsimp only; decide) | skip) | with_reducible refine Edits.foldl _ (fun _ _ _ => ?_) _ ?_ | (extract_lets -merge +onlyGivenNames x; first | (refine (fun _ : Edits 0x140020004c042 d x => ?_) ?_; (on_goal 1 => clear_value x); (on_goal 2 => subst x)) | (have _h : ∃ y : Fld, y = x := ⟨x, rfl⟩; clear _h; subst x) | (have _h : ∃ y : Tsu, y = x := ⟨x, rfl⟩; clear _h; subst x) | (have _h : ∃ y : TrlRt, y = x := ⟨x, rfl⟩; clear _h; subst x) | (have _h : ∃ y : Clo, y = x := ⟨x, rfl⟩; clear _h; subst x) | (have _h : ∃ y : Face, y = x := ⟨x, rfl⟩; clear _h; subst x) | (have _h : ∃ y : HostIf, y = x := ⟨x, rfl⟩; clear _h; subst x) | (have _h : ∃ y : (_ → _), y = x := ⟨x, rfl⟩; clear _h; subst x) | clear_value x | subst x) | split | with_reducible refine Edits.upd (h := ?_)

theorem Dev.armSlot_edits {m : Nat} {d₀ d d' : Dev} {x1 x2} {y} (e : Dev.armSlot d x1 x2 = (y, d')) (hm : Nat.land m 0x140020004c042 = 0x140020004c042 := by decide)
    (h : Edits m d₀ d) : Edits m d₀ d' := by
  have := Dev.armSlot_snd_edits (x1 := x1) (x2 := x2) hm h
  rw [e] at this
  exact this

theorem Dev.reportLoad_edits {m : Nat} {d₀ d : Dev} {x1 x2 x3 x4} (hm : Nat.land m 0x340040004c003 = 0x340040004c003 := by decide)
    (h : Edits m d₀ d) : Edits m d₀ (Dev.reportLoad d x1 x2 x3 x4) := by
  refine Edits.andThen (t := 0x340040004c003) h ?_ hm
  unfold Dev.reportLoad
  repeat' first | with_reducible exact Edits.refl _ | with_reducible assumption | (with_reducible apply Dev.occur_edits <;> first | with_reducible assumption | decide | (dsimp only; decide) | skip) | with_reducible refine Edits.foldl _ (fun _ _ _ => ?_) _ ?_ | (extract_lets -merge +onlyGivenNames x; first | (refine (fun _ : Edits 0x340040004c003 d x => ?_) ?_; (on_goal 1 => clear_value x); (on_goal 2 => subst x)) | (have _h : ∃ y : Fld, y = x := ⟨x, rfl⟩; clear _h; subst x) | (have _h : ∃ y : Tsu, y = x := ⟨x, rfl⟩; clear _h; subst x) | (have _h : ∃ y : TrlRt, y = x := ⟨x, rfl⟩; clear _h; subst x) | (have _h : ∃ y : Clo, y = x := ⟨x, rfl⟩; clear _h; subst x) | (have _h : ∃ y : Face, y = x := ⟨x, rfl⟩; clear _h; subst x) | (have _h : ∃ y : HostIf, y = x := ⟨x, rfl⟩; clear _h; subst x) | (have _h : ∃ y : (_ → _), y = x := ⟨x, rfl⟩; clear _h; subst x) | clear_value x | subst x) | split | with_reducible refine Edits.upd (h := ?_)

theorem Dev.takeBase_edits {m : Nat} {d₀ d : Dev} {x1} (hm : Nat.land m 0x200000040 = 0x200000040 := by decide)
    (h : Edits m d₀ d) : Edits m d₀ (Dev.takeBase d x1) := by
  refine Edits.andThen (t := 0x200000040) h ?_ hm
  unfold Dev.takeBase
  repeat' first | with_reducible exact Edits.refl _ | with_reducible assumption | (with_reducible apply Dev.set_at_edits <;> first | with_reducible assumption | decide | (dsimp only; decide) | skip) | (with_reducible apply Dev.set_at2_edits <;> first | with_reducible assumption | decide | (dsimp only; decide) | skip) | (with_reducible apply Dev.set_edits <;> first | with_reducible assumption | decide | (dsimp only; decide) | skip) | (with_reducible apply Dev.setWide_lit_edits <;> [decide; decide; skip]) | (with_reducible apply Dev.setWide_edits <;> first | with_reducible assumption | decide | (dsimp only; decide) | skip) | with_reducible refine Edits.foldl _ (fun _ _ _ => ?_) _ ?_ | (extract_lets -merge +onlyGivenNames x; first | (refine (fun _ : Edits 0x200000040 d x => ?_) ?_; (on_goal 1 => clear_value x); (on_goal 2 => subst x)) | (have _h : ∃ y : Fld, y = x := ⟨x, rfl⟩; clear _h; subst x) | (have _h : ∃ y : Tsu, y = x := ⟨x, rfl⟩; clear _h; subst x) | (have _h : ∃ y : TrlRt, y = x := ⟨x, rfl⟩; clear _h; subst x) | (have _h : ∃ y : Clo, y = x := ⟨x, rfl⟩; clear _h; subst x) | (have _h : ∃ y : Face, y = x := ⟨x, rfl⟩; clear _h; subst x) | (have _h : ∃ y : HostIf, y = x := ⟨x, rfl⟩; clear _h; subst x) | (have _h : ∃ y : (_ → _), y = x := ⟨x, rfl⟩; clear _h; subst x) | clear_value x | subst x) | split | with_reducible refine Edits.upd (h := ?_)

theorem Dev.trlDone_edits {m : Nat} {d₀ d : Dev} {x1 x2} (hm : Nat.land m 0x340060004c003 = 0x340060004c003 := by decide)
    (h : Edits m d₀ d) : Edits m d₀ (Dev.trlDone d x1 x2) := by
  refine Edits.andThen (t := 0x340060004c003) h ?_ hm
  unfold Dev.trlDone
  repeat' first | with_reducible exact Edits.refl _ | with_reducible assumption | (with_reducible apply Dev.raise_at_edits <;> first | with_reducible assumption | decide | (dsimp only; decide) | skip) | (with_reducible apply Dev.raise_at2_edits <;> first | with_reducible assumption | decide | (dsimp only; decide) | skip) | (with_reducible apply Dev.raise_edits <;> first | with_reducible assumption | decide | (dsimp only; decide) | skip) | (with_reducible apply Dev.set_at_edits <;> first | with_reducible assumption | decide | (dsimp only; decide) | skip) | (with_reducible apply Dev.set_at2_edits <;> first | with_reducible assumption | decide | (dsimp only; decide) | skip) | (with_reducible apply Dev.set_edits <;> first | with_reducible assumption | decide | (dsimp only; decide) | skip) | (with_reducible apply Edits.elim <;> [skip; (intro _; try beta_reduce)]) | with_reducible refine Edits.foldl _ (fun _ _ _ => ?_) _ ?_ | (extract_lets -merge +onlyGivenNames x; first | (refine (fun _ : Edits 0x340060004c003 d x => ?_) ?_; (on_goal 1 => clear_value x); (on_goal 2 => subst x)) | (have _h : ∃ y : Fld, y = x := ⟨x, rfl⟩; clear _h; subst x) | (have _h : ∃ y : Tsu, y = x := ⟨x, rfl⟩; clear _h; subst x) | (have _h : ∃ y : TrlRt, y = x := ⟨x, rfl⟩; clear _h; subst x) | (have _h : ∃ y : Clo, y = x := ⟨x, rfl⟩; clear _h; subst x) | (have _h : ∃ y : Face, y = x := ⟨x, rfl⟩; clear _h; subst x) | (have _h : ∃ y : HostIf, y = x := ⟨x, rfl⟩; clear _h; subst x) | (have _h : ∃ y : (_ → _), y = x := ⟨x, rfl⟩; clear _h; subst x) | clear_value x | subst x) | split | with_reducible refine Edits.upd (h := ?_)

theorem Dev.storeBase_edits {m : Nat} {d₀ d : Dev} {x1 x2 x3 x4} {f : Dev → Dev} (hm : Nat.land m 0x340060004c003 = 0x340060004c003 := by decide)
    (hf : ∀ x, Edits m d₀ x → Edits m d₀ (f x)) (h : Edits m d₀ d) : Edits m d₀ (d.storeBase x1 x2 x3 f x4) := by
  unfold Dev.storeBase
  extract_lets -merge +onlyGivenNames c r d₁
  have h₁ : Edits m d₀ d₁ := Dev.reportLoad_edits (sub_trans hm (by decide)) h
  clear_value d₁ r
  cases r with
  | error e => exact Dev.trlDone_edits (sub_trans hm (by decide)) h₁
  | ok _ => exact Edits.ite (fun _ => Dev.trlDone_edits (sub_trans hm (by decide)) h₁) fun _ =>
      Dev.trlDone_edits (sub_trans hm (by decide)) (hf _ h₁)

theorem Dev.trlCmd_edits {m : Nat} {d₀ d : Dev} {b : Bool} {s : Option Nat} {f : Dev → Dev} (hm : Nat.land m 0x340060004c003 = 0x340060004c003 := by decide)
    (hf : ∀ x, Edits m d₀ x → Edits m d₀ (f x)) (h : Edits m d₀ d) : Edits m d₀ (d.trlCmd b s f) := by
  unfold Dev.trlCmd
  repeat' split
  all_goals first | exact h | exact Dev.trlDone_edits (sub_trans hm (by decide)) h | exact hf _ h

end Sys2Proof.Machine
end

