-- ==== Sys2Proof/Laws/Ops/ObjView.lean ====
section
/-! SUPPORT. What the operations of Machine/ObjView.lean may do: the parts each touches (`Edits`), said once. -/

set_option linter.unusedTactic false
set_option linter.unreachableTactic false
set_option Elab.async false

namespace Sys2Proof.Machine

theorem Dev.viewArm_snd_edits {m : Nat} {d₀ d : Dev} {x1} (hm : Nat.land m 0x140020004c042 = 0x140020004c042 := by decide)
    (h : Edits m d₀ d) : Edits m d₀ (Dev.viewArm d x1).2 := by
  refine Edits.andThen (t := 0x140020004c042) h ?_ hm
  unfold Dev.viewArm
  repeat' first | with_reducible exact Edits.refl _ | with_reducible assumption | dsimp -zeta only | (with_reducible apply Dev.armSlot_edits; with_reducible assumption; decide) | (with_reducible apply Dev.armSlot_snd_edits <;> first | with_reducible assumption | decide | (dsimp only; decide) | skip) | (with_reducible apply Dev.set_at_edits <;> first | with_reducible assumption | decide | (dsimp only; decide) | skip) | (with_reducible apply Dev.set_at2_edits <;> first | with_reducible assumption | decide | (dsimp only; decide) | skip) | (with_reducible apply Dev.set_edits <;> first | with_reducible assumption | decide | (dsimp only; decide) | skip) | with_reducible refine Edits.foldl _ (fun _ _ _ => ?_) _ ?_ | (extract_lets -merge +onlyGivenNames x; first | (refine (fun _ : Edits 0x140020004c042 d x => ?_) ?_; (on_goal 1 => clear_value x); (on_goal 2 => subst x)) | (have _h : ∃ y : Fld, y = x := ⟨x, rfl⟩; clear _h; subst x) | (have _h : ∃ y : Tsu, y = x := ⟨x, rfl⟩; clear _h; subst x) | (have _h : ∃ y : TrlRt, y = x := ⟨x, rfl⟩; clear _h; subst x) | (have _h : ∃ y : Clo, y = x := ⟨x, rfl⟩; clear _h; subst x) | (have _h : ∃ y : Face, y = x := ⟨x, rfl⟩; clear _h; subst x) | (have _h : ∃ y : HostIf, y = x := ⟨x, rfl⟩; clear _h; subst x) | (have _h : ∃ y : (_ → _), y = x := ⟨x, rfl⟩; clear _h; subst x) | clear_value x | subst x) | split | with_reducible refine Edits.upd (h := ?_)

theorem Dev.viewArm_edits {m : Nat} {d₀ d d' : Dev} {x1} {y} (e : Dev.viewArm d x1 = (y, d')) (hm : Nat.land m 0x140020004c042 = 0x140020004c042 := by decide)
    (h : Edits m d₀ d) : Edits m d₀ d' := by
  have := Dev.viewArm_snd_edits (x1 := x1) hm h
  rw [e] at this
  exact this

theorem Dev.viewItem_snd_edits {m : Nat} {d₀ d : Dev} {x1 x2 x3 x4} (hm : Nat.land m 0x140020004c042 = 0x140020004c042 := by decide)
    (h : Edits m d₀ d) : Edits m d₀ (Dev.viewItem d x1 x2 x3 x4).2.2 := by
  refine Edits.andThen (t := 0x140020004c042) h ?_ hm
  unfold Dev.viewItem
  repeat' first | with_reducible exact Edits.refl _ | with_reducible assumption | dsimp -zeta only | (with_reducible apply Dev.viewArm_edits; with_reducible assumption; decide) | (with_reducible apply Dev.viewArm_snd_edits <;> first | with_reducible assumption | decide | (dsimp only; decide) | skip) | (with_reducible apply Edits.getD <;> [(intro _ _); skip]) | with_reducible refine Edits.foldl _ (fun _ _ _ => ?_) _ ?_ | (extract_lets -merge +onlyGivenNames x; first | (refine (fun _ : Edits 0x140020004c042 d x => ?_) ?_; (on_goal 1 => clear_value x); (on_goal 2 => subst x)) | (have _h : ∃ y : Fld, y = x := ⟨x, rfl⟩; clear _h; subst x) | (have _h : ∃ y : Tsu, y = x := ⟨x, rfl⟩; clear _h; subst x) | (have _h : ∃ y : TrlRt, y = x := ⟨x, rfl⟩; clear _h; subst x) | (have _h : ∃ y : Clo, y = x := ⟨x, rfl⟩; clear _h; subst x) | (have _h : ∃ y : Face, y = x := ⟨x, rfl⟩; clear _h; subst x) | (have _h : ∃ y : HostIf, y = x := ⟨x, rfl⟩; clear _h; subst x) | (have _h : ∃ y : (_ → _), y = x := ⟨x, rfl⟩; clear _h; subst x) | clear_value x | subst x) | split | with_reducible refine Edits.upd (h := ?_)

theorem Dev.viewItem_edits {m : Nat} {d₀ d d' : Dev} {x1 x2 x3 x4} {y z} (e : Dev.viewItem d x1 x2 x3 x4 = (y, z, d')) (hm : Nat.land m 0x140020004c042 = 0x140020004c042 := by decide)
    (h : Edits m d₀ d) : Edits m d₀ d' := by
  have := Dev.viewItem_snd_edits (x1 := x1) (x2 := x2) (x3 := x3) (x4 := x4) hm h
  rw [e] at this
  exact this

theorem Dev.viewItems_edits {m : Nat} {d₀ : Dev} {meter role : Nat} {is : List ViewItem} : ∀ {d d' : Dev} {used : Nat} {out b : Bytes}
    (_ : Dev.viewItems meter role is used out d = (b, d')) (_ : Nat.land m 0x341060004c043 = 0x341060004c043 := by decide) (_ : Edits m d₀ d), Edits m d₀ d' := by
  induction is with
  | nil => intro d d' used out b e _ h; cases e; exact h
  | cons i is ih =>
    intro d d' used out b e hm h
    unfold Dev.viewItems at e
    split at e
    rename_i r data d₁ e₁
    have h₁ := Dev.viewItem_edits e₁ (sub_trans hm (by decide)) h
    refine ih e hm (Edits.ite (fun _ => ?_) fun _ => h₁)
    exact Dev.raise_edits (sub_bit hm (by decide)) (sub_trans hm (by decide)) (Dev.count_edits (atOk_sub hm (by decide)) h₁)

theorem Dev.viewItems_snd_edits {m : Nat} {d₀ d : Dev} {meter role used : Nat} {is : List ViewItem} {out : Bytes}
    (hm : Nat.land m 0x341060004c043 = 0x341060004c043 := by decide) (h : Edits m d₀ d) : Edits m d₀ (Dev.viewItems meter role is used out d).2 :=
  Dev.viewItems_edits (rfl : Dev.viewItems meter role is used out d =
    ((Dev.viewItems meter role is used out d).1, (Dev.viewItems meter role is used out d).2)) hm h

end Sys2Proof.Machine
end

