-- ==== Sys2Proof/Laws/Ops/HostReq.lean ====
section
/-! SUPPORT. What the operations of Machine/HostReq.lean may do: the parts each touches (`Edits`), said once. -/

set_option linter.unusedTactic false
set_option linter.unreachableTactic false
set_option Elab.async false

namespace Sys2Proof.Machine

theorem Dev.cipherRequest_snd_edits {m : Nat} {d₀ d : Dev} {x1 x2 x3} (hm : Nat.land m 0x8 = 0x8 := by decide)
    (h : Edits m d₀ d) : Edits m d₀ (Dev.cipherRequest d x1 x2 x3).2 := by
  refine Edits.andThen (t := 0x8) h ?_ hm
  unfold Dev.cipherRequest
  repeat' first | with_reducible exact Edits.refl _ | with_reducible assumption | dsimp -zeta only | (with_reducible apply Dev.fresh_edits; with_reducible assumption; decide) | (with_reducible apply Dev.fresh_snd_edits <;> first | with_reducible assumption | decide | (dsimp only; decide) | skip) | (with_reducible apply Edits.getD <;> [(intro _ _); skip]) | with_reducible refine Edits.foldl _ (fun _ _ _ => ?_) _ ?_ | (extract_lets -merge +onlyGivenNames x; first | (refine (fun _ : Edits 0x8 d x => ?_) ?_; (on_goal 1 => clear_value x); (on_goal 2 => subst x)) | (have _h : ∃ y : Fld, y = x := ⟨x, rfl⟩; clear _h; subst x) | (have _h : ∃ y : Tsu, y = x := ⟨x, rfl⟩; clear _h; subst x) | (have _h : ∃ y : TrlRt, y = x := ⟨x, rfl⟩; clear _h; subst x) | (have _h : ∃ y : Clo, y = x := ⟨x, rfl⟩; clear _h; subst x) | (have _h : ∃ y : Face, y = x := ⟨x, rfl⟩; clear _h; subst x) | (have _h : ∃ y : HostIf, y = x := ⟨x, rfl⟩; clear _h; subst x) | (have _h : ∃ y : (_ → _), y = x := ⟨x, rfl⟩; clear _h; subst x) | clear_value x | subst x) | split | with_reducible refine Edits.upd (h := ?_)

theorem Dev.cipherRequest_edits {m : Nat} {d₀ d d' : Dev} {x1 x2 x3} {y} (e : Dev.cipherRequest d x1 x2 x3 = (y, d')) (hm : Nat.land m 0x8 = 0x8 := by decide)
    (h : Edits m d₀ d) : Edits m d₀ d' := by
  have := Dev.cipherRequest_snd_edits (x1 := x1) (x2 := x2) (x3 := x3) hm h
  rw [e] at this
  exact this

theorem Dev.cipherDown_edits {m : Nat} {d₀ d : Dev} {x1 x2} (hm : Nat.land m 0x208 = 0x208 := by decide)
    (h : Edits m d₀ d) : Edits m d₀ (Dev.cipherDown d x1 x2) := by
  refine Edits.andThen (t := 0x208) h ?_ hm
  unfold Dev.cipherDown
  repeat' first | with_reducible exact Edits.refl _ | with_reducible assumption | dsimp -zeta only | (with_reducible apply Dev.cipherRequest_edits; with_reducible assumption; decide) | (with_reducible apply Dev.cipherRequest_snd_edits <;> first | with_reducible assumption | decide | (dsimp only; decide) | skip) | with_reducible refine Edits.foldl _ (fun _ _ _ => ?_) _ ?_ | (extract_lets -merge +onlyGivenNames x; first | (refine (fun _ : Edits 0x208 d x => ?_) ?_; (on_goal 1 => clear_value x); (on_goal 2 => subst x)) | (have _h : ∃ y : Fld, y = x := ⟨x, rfl⟩; clear _h; subst x) | (have _h : ∃ y : Tsu, y = x := ⟨x, rfl⟩; clear _h; subst x) | (have _h : ∃ y : TrlRt, y = x := ⟨x, rfl⟩; clear _h; subst x) | (have _h : ∃ y : Clo, y = x := ⟨x, rfl⟩; clear _h; subst x) | (have _h : ∃ y : Face, y = x := ⟨x, rfl⟩; clear _h; subst x) | (have _h : ∃ y : HostIf, y = x := ⟨x, rfl⟩; clear _h; subst x) | (have _h : ∃ y : (_ → _), y = x := ⟨x, rfl⟩; clear _h; subst x) | clear_value x | subst x) | split | with_reducible refine Edits.upd (h := ?_)

theorem Dev.refuse_edits {m : Nat} {d₀ d : Dev} {x1 x2} (hm : Nat.land m 0x340040004c003 = 0x340040004c003 := by decide)
    (h : Edits m d₀ d) : Edits m d₀ (Dev.refuse d x1 x2) := by
  refine Edits.andThen (t := 0x340040004c003) h ?_ hm
  unfold Dev.refuse
  repeat' first | with_reducible exact Edits.refl _ | with_reducible assumption | (with_reducible apply Dev.count_lit_edits <;> [decide; skip]) | (with_reducible apply Dev.count_edits <;> first | with_reducible assumption | decide | (dsimp only; decide) | skip) | (with_reducible apply Dev.respond_edits <;> first | with_reducible assumption | decide | (dsimp only; decide) | skip) | with_reducible refine Edits.foldl _ (fun _ _ _ => ?_) _ ?_ | (extract_lets -merge +onlyGivenNames x; first | (refine (fun _ : Edits 0x340040004c003 d x => ?_) ?_; (on_goal 1 => clear_value x); (on_goal 2 => subst x)) | (have _h : ∃ y : Fld, y = x := ⟨x, rfl⟩; clear _h; subst x) | (have _h : ∃ y : Tsu, y = x := ⟨x, rfl⟩; clear _h; subst x) | (have _h : ∃ y : TrlRt, y = x := ⟨x, rfl⟩; clear _h; subst x) | (have _h : ∃ y : Clo, y = x := ⟨x, rfl⟩; clear _h; subst x) | (have _h : ∃ y : Face, y = x := ⟨x, rfl⟩; clear _h; subst x) | (have _h : ∃ y : HostIf, y = x := ⟨x, rfl⟩; clear _h; subst x) | (have _h : ∃ y : (_ → _), y = x := ⟨x, rfl⟩; clear _h; subst x) | clear_value x | subst x) | split | with_reducible refine Edits.upd (h := ?_)

theorem Dev.authorised_edits {m : Nat} {d₀ d : Dev} {c : HostCmd} {f : Nat → Dev → Dev} (hm : Nat.land m 0x3400c0004c803 = 0x3400c0004c803 := by decide)
    (hf : ∀ n x, Edits m d₀ x → Edits m d₀ (f n x)) (h : Edits m d₀ d) : Edits m d₀ (d.authorised c f) := by
  unfold Dev.authorised
  split
  · exact Dev.refuse_edits (sub_trans hm (by decide)) h
  · extract_lets d₁ certs
    have h₁ : Edits m d₀ d₁ := Dev.shPost_edits (sub_trans hm (by decide)) h
    split
    · exact Dev.refuse_edits (sub_trans hm (by decide)) h₁
    · split
      · exact Dev.refuse_edits (sub_trans hm (by decide)) h₁
      · exact hf _ _ (Dev.hst_edits (sub_bit hm (by decide)) h₁)

theorem Dev.takeCmd_edits {m : Nat} {d₀ d : Dev} {x1 x2 x3} (hm : Nat.land m 0x400000001 = 0x400000001 := by decide)
    (h : Edits m d₀ d) : Edits m d₀ (Dev.takeCmd d x1 x2 x3) := by
  refine Edits.andThen (t := 0x400000001) h ?_ hm
  unfold Dev.takeCmd
  repeat' first | with_reducible exact Edits.refl _ | with_reducible assumption | (with_reducible apply Dev.count_lit_edits <;> [decide; skip]) | (with_reducible apply Dev.count_edits <;> first | with_reducible assumption | decide | (dsimp only; decide) | skip) | (with_reducible apply Dev.set_at_edits <;> first | with_reducible assumption | decide | (dsimp only; decide) | skip) | (with_reducible apply Dev.set_at2_edits <;> first | with_reducible assumption | decide | (dsimp only; decide) | skip) | (with_reducible apply Dev.set_edits <;> first | with_reducible assumption | decide | (dsimp only; decide) | skip) | (with_reducible apply Dev.setRing_edits <;> first | with_reducible assumption | decide | (dsimp only; decide) | skip) | with_reducible refine Edits.foldl _ (fun _ _ _ => ?_) _ ?_ | (extract_lets -merge +onlyGivenNames x; first | (refine (fun _ : Edits 0x400000001 d x => ?_) ?_; (on_goal 1 => clear_value x); (on_goal 2 => subst x)) | (have _h : ∃ y : Fld, y = x := ⟨x, rfl⟩; clear _h; subst x) | (have _h : ∃ y : Tsu, y = x := ⟨x, rfl⟩; clear _h; subst x) | (have _h : ∃ y : TrlRt, y = x := ⟨x, rfl⟩; clear _h; subst x) | (have _h : ∃ y : Clo, y = x := ⟨x, rfl⟩; clear _h; subst x) | (have _h : ∃ y : Face, y = x := ⟨x, rfl⟩; clear _h; subst x) | (have _h : ∃ y : HostIf, y = x := ⟨x, rfl⟩; clear _h; subst x) | (have _h : ∃ y : (_ → _), y = x := ⟨x, rfl⟩; clear _h; subst x) | clear_value x | subst x) | split | with_reducible refine Edits.upd (h := ?_)

theorem Dev.hostCmd_edits {m : Nat} {d₀ d : Dev} {x1 x2} {f : HostCmd → Dev → Dev} (hm : Nat.land m 0x340040004c003 = 0x340040004c003 := by decide)
    (hf : ∀ a x, Edits m d₀ x → Edits m d₀ (f a x)) (h : Edits m d₀ d) : Edits m d₀ (d.hostCmd x1 x2 f) := by
  unfold Dev.hostCmd
  split
  · exact h
  · extract_lets -merge +onlyGivenNames c mine held
    split
    · exact h
    · extract_lets -merge +onlyGivenNames d₁
      have h₁ : Edits m d₀ d₁ := Dev.takeCmd_edits (sub_trans hm (by decide)) h
      clear_value d₁
      extract_lets -merge +onlyGivenNames fail
      have hfail : ∀ st, Edits m d₀ (fail st) := fun st => Dev.respond_edits (sub_trans hm (by decide)) h₁
      clear_value fail
      repeat' split
      all_goals first | exact hfail _ | exact hf _ _ h₁

theorem Dev.serveView_edits {m : Nat} {d₀ d : Dev} {x1 x2} (hm : Nat.land m 0x3410e0004c843 = 0x3410e0004c843 := by decide)
    (h : Edits m d₀ d) : Edits m d₀ (Dev.serveView d x1 x2) := by
  refine Edits.andThen (t := 0x3410e0004c843) h ?_ hm
  unfold Dev.serveView
  repeat' first | with_reducible exact Edits.refl _ | with_reducible assumption | dsimp -zeta only | (with_reducible apply Dev.authorised_edits <;> first | with_reducible assumption | decide | (intro _ _ _) | skip) | (with_reducible apply Dev.count_lit_edits <;> [decide; skip]) | (with_reducible apply Dev.count_edits <;> first | with_reducible assumption | decide | (dsimp only; decide) | skip) | (with_reducible apply Dev.hostCmd_edits <;> [decide; (intros; try beta_reduce); skip]) | (with_reducible apply Dev.refuse_edits <;> first | with_reducible assumption | decide | (dsimp only; decide) | skip) | (with_reducible apply Dev.respond_edits <;> first | with_reducible assumption | decide | (dsimp only; decide) | skip) | (with_reducible apply Dev.viewItems_edits; with_reducible assumption; decide) | (with_reducible apply Dev.viewItems_snd_edits <;> first | with_reducible assumption | decide | (dsimp only; decide) | skip) | with_reducible refine Edits.foldl _ (fun _ _ _ => ?_) _ ?_ | (extract_lets -merge +onlyGivenNames x; first | (refine (fun _ : Edits 0x3410e0004c843 d x => ?_) ?_; (on_goal 1 => clear_value x); (on_goal 2 => subst x)) | (have _h : ∃ y : Fld, y = x := ⟨x, rfl⟩; clear _h; subst x) | (have _h : ∃ y : Tsu, y = x := ⟨x, rfl⟩; clear _h; subst x) | (have _h : ∃ y : TrlRt, y = x := ⟨x, rfl⟩; clear _h; subst x) | (have _h : ∃ y : Clo, y = x := ⟨x, rfl⟩; clear _h; subst x) | (have _h : ∃ y : Face, y = x := ⟨x, rfl⟩; clear _h; subst x) | (have _h : ∃ y : HostIf, y = x := ⟨x, rfl⟩; clear _h; subst x) | (have _h : ∃ y : (_ → _), y = x := ⟨x, rfl⟩; clear _h; subst x) | clear_value x | subst x) | split | with_reducible refine Edits.upd (h := ?_)

end Sys2Proof.Machine
end

