-- ==== Sys2Proof/Laws/Ops/Ingest.lean ====
section
/-! SUPPORT. What the operations of Machine/Ingest.lean may do: the parts each touches (`Edits`), said once. -/

set_option linter.unusedTactic false
set_option linter.unreachableTactic false
set_option Elab.async false

namespace Sys2Proof.Machine

theorem Dev.beginDown_edits {m : Nat} {d₀ d : Dev} {x1 x2} (hm : Nat.land m 0x800 = 0x800 := by decide)
    (h : Edits m d₀ d) : Edits m d₀ (Dev.beginDown d x1 x2) := by
  refine Edits.andThen (t := 0x800) h ?_ hm
  unfold Dev.beginDown
  repeat' first | with_reducible exact Edits.refl _ | with_reducible assumption | with_reducible refine Edits.foldl _ (fun _ _ _ => ?_) _ ?_ | (extract_lets -merge +onlyGivenNames x; first | (refine (fun _ : Edits 0x800 d x => ?_) ?_; (on_goal 1 => clear_value x); (on_goal 2 => subst x)) | (have _h : ∃ y : Fld, y = x := ⟨x, rfl⟩; clear _h; subst x) | (have _h : ∃ y : Tsu, y = x := ⟨x, rfl⟩; clear _h; subst x) | (have _h : ∃ y : TrlRt, y = x := ⟨x, rfl⟩; clear _h; subst x) | (have _h : ∃ y : Clo, y = x := ⟨x, rfl⟩; clear _h; subst x) | (have _h : ∃ y : Face, y = x := ⟨x, rfl⟩; clear _h; subst x) | (have _h : ∃ y : HostIf, y = x := ⟨x, rfl⟩; clear _h; subst x) | (have _h : ∃ y : (_ → _), y = x := ⟨x, rfl⟩; clear _h; subst x) | clear_value x | subst x) | split | with_reducible refine Edits.upd (h := ?_)

theorem Dev.setWork_edits {m : Nat} {d₀ d : Dev} {x1 x2} (hm : Nat.land m 0x1000000800 = 0x1000000800 := by decide)
    (h : Edits m d₀ d) : Edits m d₀ (Dev.setWork d x1 x2) := by
  refine Edits.andThen (t := 0x1000000800) h ?_ hm
  unfold Dev.setWork
  repeat' first | with_reducible exact Edits.refl _ | with_reducible assumption | (with_reducible apply Dev.showIng_edits <;> first | with_reducible assumption | decide | (dsimp only; decide) | skip) | with_reducible refine Edits.foldl _ (fun _ _ _ => ?_) _ ?_ | (extract_lets -merge +onlyGivenNames x; first | (refine (fun _ : Edits 0x1000000800 d x => ?_) ?_; (on_goal 1 => clear_value x); (on_goal 2 => subst x)) | (have _h : ∃ y : Fld, y = x := ⟨x, rfl⟩; clear _h; subst x) | (have _h : ∃ y : Tsu, y = x := ⟨x, rfl⟩; clear _h; subst x) | (have _h : ∃ y : TrlRt, y = x := ⟨x, rfl⟩; clear _h; subst x) | (have _h : ∃ y : Clo, y = x := ⟨x, rfl⟩; clear _h; subst x) | (have _h : ∃ y : Face, y = x := ⟨x, rfl⟩; clear _h; subst x) | (have _h : ∃ y : HostIf, y = x := ⟨x, rfl⟩; clear _h; subst x) | (have _h : ∃ y : (_ → _), y = x := ⟨x, rfl⟩; clear _h; subst x) | clear_value x | subst x) | split | with_reducible refine Edits.upd (h := ?_)

theorem Dev.dropStale_edits {m : Nat} {d₀ d : Dev} {x1} (hm : Nat.land m 0x800 = 0x800 := by decide)
    (h : Edits m d₀ d) : Edits m d₀ (Dev.dropStale d x1) := by
  refine Edits.andThen (t := 0x800) h ?_ hm
  unfold Dev.dropStale
  repeat' first | with_reducible exact Edits.refl _ | with_reducible assumption | with_reducible refine Edits.foldl _ (fun _ _ _ => ?_) _ ?_ | (extract_lets -merge +onlyGivenNames x; first | (refine (fun _ : Edits 0x800 d x => ?_) ?_; (on_goal 1 => clear_value x); (on_goal 2 => subst x)) | (have _h : ∃ y : Fld, y = x := ⟨x, rfl⟩; clear _h; subst x) | (have _h : ∃ y : Tsu, y = x := ⟨x, rfl⟩; clear _h; subst x) | (have _h : ∃ y : TrlRt, y = x := ⟨x, rfl⟩; clear _h; subst x) | (have _h : ∃ y : Clo, y = x := ⟨x, rfl⟩; clear _h; subst x) | (have _h : ∃ y : Face, y = x := ⟨x, rfl⟩; clear _h; subst x) | (have _h : ∃ y : HostIf, y = x := ⟨x, rfl⟩; clear _h; subst x) | (have _h : ∃ y : (_ → _), y = x := ⟨x, rfl⟩; clear _h; subst x) | clear_value x | subst x) | split | with_reducible refine Edits.upd (h := ?_)

theorem Dev.waitSet_edits {m : Nat} {d₀ d : Dev} {meter : Nat} {w : Work} {x : Fld}
    (hx : m.testBit (regBit x.off) = true := by decide)
    (hm : Nat.land m 0x3401c0004c803 = 0x3401c0004c803 := by decide) (h : Edits m d₀ d) : Edits m d₀ (d.waitSet meter w x) := by
  unfold Dev.waitSet
  split
  · exact h
  · exact Dev.setWork_edits (sub_trans hm (by decide)) (Dev.raise_edits hx (sub_trans hm (by decide)) (Dev.count_edits (atOk_sub hm (by decide)) h))

theorem Dev.wantKey_edits {m : Nat} {d₀ d : Dev} {meter : Nat} {w : Work} (hm : Nat.land m 0x3401c0004c803 = 0x3401c0004c803 := by decide)
    (h : Edits m d₀ d) : Edits m d₀ (d.wantKey meter w) := by
  refine Edits.andThen (t := 0x3401c0004c803) h ?_ hm
  unfold Dev.wantKey
  split
  · exact Edits.refl _
  · extract_lets -merge +onlyGivenNames d₁
    have h₁ : Edits 0x3401c0004c803 d d₁ := Dev.dropStale_edits (h := Edits.refl _)
    clear_value d₁
    extract_lets -merge +onlyGivenNames missing
    clear_value missing
    split
    · exact Dev.setWork_edits (h := Dev.holdKeys_edits (h := h₁))
    · extract_lets -merge +onlyGivenNames d₂
      have h₂ : Edits 0x3401c0004c803 d d₂ := by
        show Edits 0x3401c0004c803 d (if _ then _ else _)
        split
        · exact h₁
        · exact Dev.countBy_edits (h := h₁)
      clear_value d₂
      extract_lets -merge +onlyGivenNames take
      have htake : ∀ (l : List (Bool × KeySet)) (o : Option Dev), (∀ x, o = some x → Edits 0x3401c0004c803 d x) →
          ∀ x, l.foldl take o = some x → Edits 0x3401c0004c803 d x := by
        intro l
        induction l with
        | nil => exact fun o ho x e => ho x e
        | cons a l ih =>
          refine fun o ho => ih _ fun y ey => ?_
          obtain ⟨z, ez, e⟩ := Option.bind_eq_some_iff.1 ey
          exact Dev.reserveKey_edits e (h := ho z ez)
      split
      · rename_i x e
        exact Dev.setWork_edits (h := htake _ _ (by rintro _ ⟨⟩; exact Dev.holdKeys_edits (h := h₂)) _ e)
      · exact Dev.waitSet_edits (h := h₂)

theorem Dev.wantRing_edits {m : Nat} {d₀ d : Dev} {x1 x2} (hm : Nat.land m 0x1000000800 = 0x1000000800 := by decide)
    (h : Edits m d₀ d) : Edits m d₀ (Dev.wantRing d x1 x2) := by
  refine Edits.andThen (t := 0x1000000800) h ?_ hm
  unfold Dev.wantRing
  repeat' first | with_reducible exact Edits.refl _ | with_reducible assumption | (with_reducible apply Dev.setWork_edits <;> first | with_reducible assumption | decide | (dsimp only; decide) | skip) | with_reducible refine Edits.foldl _ (fun _ _ _ => ?_) _ ?_ | (extract_lets -merge +onlyGivenNames x; first | (refine (fun _ : Edits 0x1000000800 d x => ?_) ?_; (on_goal 1 => clear_value x); (on_goal 2 => subst x)) | (have _h : ∃ y : Fld, y = x := ⟨x, rfl⟩; clear _h; subst x) | (have _h : ∃ y : Tsu, y = x := ⟨x, rfl⟩; clear _h; subst x) | (have _h : ∃ y : TrlRt, y = x := ⟨x, rfl⟩; clear _h; subst x) | (have _h : ∃ y : Clo, y = x := ⟨x, rfl⟩; clear _h; subst x) | (have _h : ∃ y : Face, y = x := ⟨x, rfl⟩; clear _h; subst x) | (have _h : ∃ y : HostIf, y = x := ⟨x, rfl⟩; clear _h; subst x) | (have _h : ∃ y : (_ → _), y = x := ⟨x, rfl⟩; clear _h; subst x) | clear_value x | subst x) | split | with_reducible refine Edits.upd (h := ?_)

theorem Dev.wantLane_edits {m : Nat} {d₀ d : Dev} {x1 x2} (hm : Nat.land m 0x1000000800 = 0x1000000800 := by decide)
    (h : Edits m d₀ d) : Edits m d₀ (Dev.wantLane d x1 x2) := by
  refine Edits.andThen (t := 0x1000000800) h ?_ hm
  unfold Dev.wantLane
  repeat' first | with_reducible exact Edits.refl _ | with_reducible assumption | (with_reducible apply Dev.setWork_edits <;> first | with_reducible assumption | decide | (dsimp only; decide) | skip) | with_reducible refine Edits.foldl _ (fun _ _ _ => ?_) _ ?_ | (extract_lets -merge +onlyGivenNames x; first | (refine (fun _ : Edits 0x1000000800 d x => ?_) ?_; (on_goal 1 => clear_value x); (on_goal 2 => subst x)) | (have _h : ∃ y : Fld, y = x := ⟨x, rfl⟩; clear _h; subst x) | (have _h : ∃ y : Tsu, y = x := ⟨x, rfl⟩; clear _h; subst x) | (have _h : ∃ y : TrlRt, y = x := ⟨x, rfl⟩; clear _h; subst x) | (have _h : ∃ y : Clo, y = x := ⟨x, rfl⟩; clear _h; subst x) | (have _h : ∃ y : Face, y = x := ⟨x, rfl⟩; clear _h; subst x) | (have _h : ∃ y : HostIf, y = x := ⟨x, rfl⟩; clear _h; subst x) | (have _h : ∃ y : (_ → _), y = x := ⟨x, rfl⟩; clear _h; subst x) | clear_value x | subst x) | split | with_reducible refine Edits.upd (h := ?_)

theorem Dev.wantContext_edits {m : Nat} {d₀ d : Dev} {x1 x2} (hm : Nat.land m 0x3401c0004c803 = 0x3401c0004c803 := by decide)
    (h : Edits m d₀ d) : Edits m d₀ (Dev.wantContext d x1 x2) := by
  refine Edits.andThen (t := 0x3401c0004c803) h ?_ hm
  unfold Dev.wantContext
  repeat' first | with_reducible exact Edits.refl _ | with_reducible assumption | (with_reducible apply Dev.bringCtx_edits; with_reducible assumption; decide) | (with_reducible apply Dev.count_lit_edits <;> [decide; skip]) | (with_reducible apply Dev.count_edits <;> first | with_reducible assumption | decide | (dsimp only; decide) | skip) | (with_reducible apply Dev.setWork_edits <;> first | with_reducible assumption | decide | (dsimp only; decide) | skip) | (with_reducible apply Dev.touchCtx_edits <;> first | with_reducible assumption | decide | (dsimp only; decide) | skip) | (with_reducible apply Dev.waitSet_edits <;> first | with_reducible assumption | decide | (dsimp only; decide) | skip) | with_reducible refine Edits.foldl _ (fun _ _ _ => ?_) _ ?_ | (extract_lets -merge +onlyGivenNames x; first | (refine (fun _ : Edits 0x3401c0004c803 d x => ?_) ?_; (on_goal 1 => clear_value x); (on_goal 2 => subst x)) | (have _h : ∃ y : Fld, y = x := ⟨x, rfl⟩; clear _h; subst x) | (have _h : ∃ y : Tsu, y = x := ⟨x, rfl⟩; clear _h; subst x) | (have _h : ∃ y : TrlRt, y = x := ⟨x, rfl⟩; clear _h; subst x) | (have _h : ∃ y : Clo, y = x := ⟨x, rfl⟩; clear _h; subst x) | (have _h : ∃ y : Face, y = x := ⟨x, rfl⟩; clear _h; subst x) | (have _h : ∃ y : HostIf, y = x := ⟨x, rfl⟩; clear _h; subst x) | (have _h : ∃ y : (_ → _), y = x := ⟨x, rfl⟩; clear _h; subst x) | clear_value x | subst x) | split | with_reducible refine Edits.upd (h := ?_)

theorem Dev.endWork_edits {m : Nat} {d₀ d : Dev} {x1} (hm : Nat.land m 0x34e3e0006ec0b = 0x34e3e0006ec0b := by decide)
    (h : Edits m d₀ d) : Edits m d₀ (Dev.endWork d x1) := by
  refine Edits.andThen (t := 0x34e3e0006ec0b) h ?_ hm
  unfold Dev.endWork
  repeat' first | with_reducible exact Edits.refl _ | with_reducible assumption | (with_reducible apply Dev.releaseKeys_edits <;> first | with_reducible assumption | decide | (dsimp only; decide) | skip) | (with_reducible apply Dev.showIng_edits <;> first | with_reducible assumption | decide | (dsimp only; decide) | skip) | (with_reducible apply Dev.tryPin_edits <;> first | with_reducible assumption | decide | (dsimp only; decide) | skip) | (with_reducible apply Dev.holdKeys_edits <;> first | with_reducible assumption | decide | (dsimp only; decide) | skip) | with_reducible refine Edits.foldl _ (fun _ _ _ => ?_) _ ?_ | (extract_lets -merge +onlyGivenNames x; first | (refine (fun _ : Edits 0x34e3e0006ec0b d x => ?_) ?_; (on_goal 1 => clear_value x); (on_goal 2 => subst x)) | (have _h : ∃ y : Fld, y = x := ⟨x, rfl⟩; clear _h; subst x) | (have _h : ∃ y : Tsu, y = x := ⟨x, rfl⟩; clear _h; subst x) | (have _h : ∃ y : TrlRt, y = x := ⟨x, rfl⟩; clear _h; subst x) | (have _h : ∃ y : Clo, y = x := ⟨x, rfl⟩; clear _h; subst x) | (have _h : ∃ y : Face, y = x := ⟨x, rfl⟩; clear _h; subst x) | (have _h : ∃ y : HostIf, y = x := ⟨x, rfl⟩; clear _h; subst x) | (have _h : ∃ y : (_ → _), y = x := ⟨x, rfl⟩; clear _h; subst x) | clear_value x | subst x) | split | with_reducible refine Edits.upd (h := ?_)

theorem Dev.advance_edits {m : Nat} {d₀ d : Dev} {k x1} (hm : Nat.land m 0x34f3e000eef4b = 0x34f3e000eef4b := by decide)
    (h : Edits m d₀ d) : Edits m d₀ (Dev.advance k x1 d) := by
  refine Edits.andThen (t := 0x34f3e000eef4b) h ?_ hm
  suffices H : ∀ k x1 d₁, Edits 0x34f3e000eef4b d d₁ → Edits 0x34f3e000eef4b d (Dev.advance k x1 d₁) from H k x1 d (Edits.refl _)
  clear h hm x1 k
  intro k
  induction k with
  | zero => exact fun _ _ h => h
  | succ k ih =>
    intro x1 d₁ h
    rw [Dev.advance]
    split
    · exact h
    · rename_i w _
      split
      · exact Dev.endWork_edits (h := Dev.runJob_edits (h := h))
      · extract_lets d₂
        have h₂ : Edits 0x34f3e000eef4b d d₂ := by
          dsimp only [d₂]
          cases w.stage with
          | wantContext => exact Dev.wantContext_edits (h := h)
          | wantKey => exact Dev.wantKey_edits (h := h)
          | wantLane => exact Dev.wantLane_edits (h := h)
          | wantRing => exact Dev.wantRing_edits (h := h)
          | _ => exact h
        clear_value d₂
        exact Edits.ite (fun _ => h₂) fun _ => ih _ _ h₂

theorem Dev.beginItem_edits {m : Nat} {d₀ d : Dev} {x1} (hm : Nat.land m 0x800 = 0x800 := by decide)
    (h : Edits m d₀ d) : Edits m d₀ (Dev.beginItem d x1) := by
  refine Edits.andThen (t := 0x800) h ?_ hm
  unfold Dev.beginItem
  repeat' first | with_reducible exact Edits.refl _ | with_reducible assumption | with_reducible refine Edits.foldl _ (fun _ _ _ => ?_) _ ?_ | (extract_lets -merge +onlyGivenNames x; first | (refine (fun _ : Edits 0x800 d x => ?_) ?_; (on_goal 1 => clear_value x); (on_goal 2 => subst x)) | (have _h : ∃ y : Fld, y = x := ⟨x, rfl⟩; clear _h; subst x) | (have _h : ∃ y : Tsu, y = x := ⟨x, rfl⟩; clear _h; subst x) | (have _h : ∃ y : TrlRt, y = x := ⟨x, rfl⟩; clear _h; subst x) | (have _h : ∃ y : Clo, y = x := ⟨x, rfl⟩; clear _h; subst x) | (have _h : ∃ y : Face, y = x := ⟨x, rfl⟩; clear _h; subst x) | (have _h : ∃ y : HostIf, y = x := ⟨x, rfl⟩; clear _h; subst x) | (have _h : ∃ y : (_ → _), y = x := ⟨x, rfl⟩; clear _h; subst x) | clear_value x | subst x) | split | with_reducible refine Edits.upd (h := ?_)

theorem Dev.readyNow_edits {m : Nat} {d₀ d : Dev} (hm : Nat.land m 0x340050004c023 = 0x340050004c023 := by decide)
    (h : Edits m d₀ d) : Edits m d₀ (Dev.readyNow d) := by
  refine Edits.andThen (t := 0x340050004c023) h ?_ hm
  unfold Dev.readyNow
  repeat' first | with_reducible exact Edits.refl _ | with_reducible assumption | (with_reducible apply Dev.raise_at_edits <;> first | with_reducible assumption | decide | (dsimp only; decide) | skip) | (with_reducible apply Dev.raise_at2_edits <;> first | with_reducible assumption | decide | (dsimp only; decide) | skip) | (with_reducible apply Dev.raise_edits <;> first | with_reducible assumption | decide | (dsimp only; decide) | skip) | (with_reducible apply Dev.set_at_edits <;> first | with_reducible assumption | decide | (dsimp only; decide) | skip) | (with_reducible apply Dev.set_at2_edits <;> first | with_reducible assumption | decide | (dsimp only; decide) | skip) | (with_reducible apply Dev.set_edits <;> first | with_reducible assumption | decide | (dsimp only; decide) | skip) | with_reducible refine Edits.foldl _ (fun _ _ _ => ?_) _ ?_ | (extract_lets -merge +onlyGivenNames x; first | (refine (fun _ : Edits 0x340050004c023 d x => ?_) ?_; (on_goal 1 => clear_value x); (on_goal 2 => subst x)) | (have _h : ∃ y : Fld, y = x := ⟨x, rfl⟩; clear _h; subst x) | (have _h : ∃ y : Tsu, y = x := ⟨x, rfl⟩; clear _h; subst x) | (have _h : ∃ y : TrlRt, y = x := ⟨x, rfl⟩; clear _h; subst x) | (have _h : ∃ y : Clo, y = x := ⟨x, rfl⟩; clear _h; subst x) | (have _h : ∃ y : Face, y = x := ⟨x, rfl⟩; clear _h; subst x) | (have _h : ∃ y : HostIf, y = x := ⟨x, rfl⟩; clear _h; subst x) | (have _h : ∃ y : (_ → _), y = x := ⟨x, rfl⟩; clear _h; subst x) | clear_value x | subst x) | split | with_reducible refine Edits.upd (h := ?_)

theorem Dev.startDown_edits {m : Nat} {d₀ d : Dev} {x1 x2} (hm : Nat.land m 0x34f3e000eef4b = 0x34f3e000eef4b := by decide)
    (h : Edits m d₀ d) : Edits m d₀ (Dev.startDown d x1 x2) := by
  refine Edits.andThen (t := 0x34f3e000eef4b) h ?_ hm
  unfold Dev.startDown
  repeat' first | with_reducible exact Edits.refl _ | with_reducible assumption | (with_reducible apply Dev.advance_edits <;> first | with_reducible assumption | decide | (dsimp only; decide) | skip) | (with_reducible apply Dev.beginDown_edits <;> first | with_reducible assumption | decide | (dsimp only; decide) | skip) | (with_reducible apply Dev.queueJob_edits <;> first | with_reducible assumption | decide | (dsimp only; decide) | skip) | (with_reducible apply Dev.showIng_edits <;> first | with_reducible assumption | decide | (dsimp only; decide) | skip) | with_reducible refine Edits.foldl _ (fun _ _ _ => ?_) _ ?_ | (extract_lets -merge +onlyGivenNames x; first | (refine (fun _ : Edits 0x34f3e000eef4b d x => ?_) ?_; (on_goal 1 => clear_value x); (on_goal 2 => subst x)) | (have _h : ∃ y : Fld, y = x := ⟨x, rfl⟩; clear _h; subst x) | (have _h : ∃ y : Tsu, y = x := ⟨x, rfl⟩; clear _h; subst x) | (have _h : ∃ y : TrlRt, y = x := ⟨x, rfl⟩; clear _h; subst x) | (have _h : ∃ y : Clo, y = x := ⟨x, rfl⟩; clear _h; subst x) | (have _h : ∃ y : Face, y = x := ⟨x, rfl⟩; clear _h; subst x) | (have _h : ∃ y : HostIf, y = x := ⟨x, rfl⟩; clear _h; subst x) | (have _h : ∃ y : (_ → _), y = x := ⟨x, rfl⟩; clear _h; subst x) | clear_value x | subst x) | split | with_reducible refine Edits.upd (h := ?_)

theorem Dev.stage_edits {m : Nat} {d₀ d : Dev} {x1} (hm : Nat.land m 0x34f3f000eef6b = 0x34f3f000eef6b := by decide)
    (h : Edits m d₀ d) : Edits m d₀ (Dev.stage d x1) := by
  refine Edits.andThen (t := 0x34f3f000eef6b) h ?_ hm
  unfold Dev.stage
  repeat' first | with_reducible exact Edits.refl _ | with_reducible assumption | (with_reducible apply Dev.advance_edits <;> first | with_reducible assumption | decide | (dsimp only; decide) | skip) | (with_reducible apply Dev.beginItem_edits <;> first | with_reducible assumption | decide | (dsimp only; decide) | skip) | (with_reducible apply Dev.count_lit_edits <;> [decide; skip]) | (with_reducible apply Dev.count_edits <;> first | with_reducible assumption | decide | (dsimp only; decide) | skip) | (with_reducible apply Dev.forwardUp_edits <;> first | with_reducible assumption | decide | (dsimp only; decide) | skip) | (with_reducible apply Dev.raise_at_edits <;> first | with_reducible assumption | decide | (dsimp only; decide) | skip) | (with_reducible apply Dev.raise_at2_edits <;> first | with_reducible assumption | decide | (dsimp only; decide) | skip) | (with_reducible apply Dev.raise_edits <;> first | with_reducible assumption | decide | (dsimp only; decide) | skip) | (with_reducible apply Dev.readyNow_edits <;> first | with_reducible assumption | decide | (dsimp only; decide) | skip) | (with_reducible apply Dev.showIng_edits <;> first | with_reducible assumption | decide | (dsimp only; decide) | skip) | with_reducible refine Edits.foldl _ (fun _ _ _ => ?_) _ ?_ | (extract_lets -merge +onlyGivenNames x; first | (refine (fun _ : Edits 0x34f3f000eef6b d x => ?_) ?_; (on_goal 1 => clear_value x); (on_goal 2 => subst x)) | (have _h : ∃ y : Fld, y = x := ⟨x, rfl⟩; clear _h; subst x) | (have _h : ∃ y : Tsu, y = x := ⟨x, rfl⟩; clear _h; subst x) | (have _h : ∃ y : TrlRt, y = x := ⟨x, rfl⟩; clear _h; subst x) | (have _h : ∃ y : Clo, y = x := ⟨x, rfl⟩; clear _h; subst x) | (have _h : ∃ y : Face, y = x := ⟨x, rfl⟩; clear _h; subst x) | (have _h : ∃ y : HostIf, y = x := ⟨x, rfl⟩; clear _h; subst x) | (have _h : ∃ y : (_ → _), y = x := ⟨x, rfl⟩; clear _h; subst x) | clear_value x | subst x) | split | with_reducible refine Edits.upd (h := ?_)

theorem Dev.admitNext_edits {m : Nat} {d₀ d : Dev} {x1} (hm : Nat.land m 0x34f3e000eef4b = 0x34f3e000eef4b := by decide)
    (h : Edits m d₀ d) : Edits m d₀ (Dev.admitNext d x1) := by
  refine Edits.andThen (t := 0x34f3e000eef4b) h ?_ hm
  unfold Dev.admitNext
  repeat' first | with_reducible exact Edits.refl _ | with_reducible assumption | (with_reducible apply Dev.advance_edits <;> first | with_reducible assumption | decide | (dsimp only; decide) | skip) | (with_reducible apply Dev.beginDown_edits <;> first | with_reducible assumption | decide | (dsimp only; decide) | skip) | (with_reducible apply Dev.beginItem_edits <;> first | with_reducible assumption | decide | (dsimp only; decide) | skip) | (with_reducible apply Dev.showIng_edits <;> first | with_reducible assumption | decide | (dsimp only; decide) | skip) | with_reducible refine Edits.foldl _ (fun _ _ _ => ?_) _ ?_ | (extract_lets -merge +onlyGivenNames x; first | (refine (fun _ : Edits 0x34f3e000eef4b d x => ?_) ?_; (on_goal 1 => clear_value x); (on_goal 2 => subst x)) | (have _h : ∃ y : Fld, y = x := ⟨x, rfl⟩; clear _h; subst x) | (have _h : ∃ y : Tsu, y = x := ⟨x, rfl⟩; clear _h; subst x) | (have _h : ∃ y : TrlRt, y = x := ⟨x, rfl⟩; clear _h; subst x) | (have _h : ∃ y : Clo, y = x := ⟨x, rfl⟩; clear _h; subst x) | (have _h : ∃ y : Face, y = x := ⟨x, rfl⟩; clear _h; subst x) | (have _h : ∃ y : HostIf, y = x := ⟨x, rfl⟩; clear _h; subst x) | (have _h : ∃ y : (_ → _), y = x := ⟨x, rfl⟩; clear _h; subst x) | clear_value x | subst x) | split | with_reducible refine Edits.upd (h := ?_)

theorem Dev.rewrapRun_edits {m : Nat} {d₀ : Dev} {l : List Nat} (hm : Nat.land m 0x34f3e000eef4b = 0x34f3e000eef4b := by decide) :
    ∀ {d : Dev}, Edits m d₀ d → Edits m d₀ (Dev.rewrapRun l d) := by
  induction l with
  | nil => exact fun h => Dev.rewrapEnd_edits (sub_trans hm (by decide)) h
  | cons i l ih =>
    intro d h
    rw [Dev.rewrapRun]
    exact Edits.ite (fun _ => h) fun _ => Edits.ite (fun _ => ih (Dev.startDown_edits (sub_trans hm (by decide)) h))
      fun _ => Dev.queueJob_edits (sub_trans hm (by decide)) h

theorem Dev.rewrapOn_edits {m : Nat} {d₀ d : Dev} (hm : Nat.land m 0x34f3e000eef4b = 0x34f3e000eef4b := by decide)
    (h : Edits m d₀ d) : Edits m d₀ (Dev.rewrapOn d) := by
  unfold Dev.rewrapOn
  split
  · exact Edits.ite (fun _ => h) fun _ => Dev.rewrapRun_edits hm h
  · exact h

theorem Dev.rewrapResume_edits {m : Nat} {d₀ d : Dev} (hm : Nat.land m 0x34f3e000eef4b = 0x34f3e000eef4b := by decide)
    (h : Edits m d₀ d) : Edits m d₀ (Dev.rewrapResume d) := by
  unfold Dev.rewrapResume
  split
  · refine Edits.ite (fun _ => h) fun _ => Dev.rewrapOn_edits hm ?_
    exact Dev.set_edits (sub_bit hm (by decide)) (Dev.set_edits (sub_bit hm (by decide)) h)
  · exact h

end Sys2Proof.Machine
end

