-- ==== Sys2Proof/Laws/Ops/Keys.lean ====
section
/-! SUPPORT. What the operations of Machine/Keys.lean may do: the parts each touches (`Edits`), said once. -/

set_option linter.unusedTactic false
set_option linter.unreachableTactic false
set_option Elab.async false

namespace Sys2Proof.Machine

theorem Dev.endSession_edits {m : Nat} {d₀ d : Dev} {x1} (hm : Nat.land m 0x348040004e003 = 0x348040004e003 := by decide)
    (h : Edits m d₀ d) : Edits m d₀ (Dev.endSession d x1) := by
  refine Edits.andThen (t := 0x348040004e003) h ?_ hm
  unfold Dev.endSession
  repeat' first | with_reducible exact Edits.refl _ | with_reducible assumption | (with_reducible apply Dev.raise_at_edits <;> first | with_reducible assumption | decide | (dsimp only; decide) | skip) | (with_reducible apply Dev.raise_at2_edits <;> first | with_reducible assumption | decide | (dsimp only; decide) | skip) | (with_reducible apply Dev.raise_edits <;> first | with_reducible assumption | decide | (dsimp only; decide) | skip) | (with_reducible apply Dev.set_at_edits <;> first | with_reducible assumption | decide | (dsimp only; decide) | skip) | (with_reducible apply Dev.set_at2_edits <;> first | with_reducible assumption | decide | (dsimp only; decide) | skip) | (with_reducible apply Dev.set_edits <;> first | with_reducible assumption | decide | (dsimp only; decide) | skip) | with_reducible refine Edits.foldl _ (fun _ _ _ => ?_) _ ?_ | (extract_lets -merge +onlyGivenNames x; first | (refine (fun _ : Edits 0x348040004e003 d x => ?_) ?_; (on_goal 1 => clear_value x); (on_goal 2 => subst x)) | (have _h : ∃ y : Fld, y = x := ⟨x, rfl⟩; clear _h; subst x) | (have _h : ∃ y : Tsu, y = x := ⟨x, rfl⟩; clear _h; subst x) | (have _h : ∃ y : TrlRt, y = x := ⟨x, rfl⟩; clear _h; subst x) | (have _h : ∃ y : Clo, y = x := ⟨x, rfl⟩; clear _h; subst x) | (have _h : ∃ y : Face, y = x := ⟨x, rfl⟩; clear _h; subst x) | (have _h : ∃ y : HostIf, y = x := ⟨x, rfl⟩; clear _h; subst x) | (have _h : ∃ y : (_ → _), y = x := ⟨x, rfl⟩; clear _h; subst x) | clear_value x | subst x) | split | with_reducible refine Edits.upd (h := ?_)

theorem Dev.pairwise_snd_edits {m : Nat} {d₀ d : Dev} {x1} (hm : Nat.land m 0x2008 = 0x2008 := by decide)
    (h : Edits m d₀ d) : Edits m d₀ (Dev.pairwise d x1).2 := by
  refine Edits.andThen (t := 0x2008) h ?_ hm
  unfold Dev.pairwise
  repeat' first | with_reducible exact Edits.refl _ | with_reducible assumption | dsimp -zeta only | (with_reducible apply Dev.sign_edits; with_reducible assumption; decide) | (with_reducible apply Dev.sign_snd_edits <;> first | with_reducible assumption | decide | (dsimp only; decide) | skip) | with_reducible refine Edits.foldl _ (fun _ _ _ => ?_) _ ?_ | (extract_lets -merge +onlyGivenNames x; first | (refine (fun _ : Edits 0x2008 d x => ?_) ?_; (on_goal 1 => clear_value x); (on_goal 2 => subst x)) | (have _h : ∃ y : Fld, y = x := ⟨x, rfl⟩; clear _h; subst x) | (have _h : ∃ y : Tsu, y = x := ⟨x, rfl⟩; clear _h; subst x) | (have _h : ∃ y : TrlRt, y = x := ⟨x, rfl⟩; clear _h; subst x) | (have _h : ∃ y : Clo, y = x := ⟨x, rfl⟩; clear _h; subst x) | (have _h : ∃ y : Face, y = x := ⟨x, rfl⟩; clear _h; subst x) | (have _h : ∃ y : HostIf, y = x := ⟨x, rfl⟩; clear _h; subst x) | (have _h : ∃ y : (_ → _), y = x := ⟨x, rfl⟩; clear _h; subst x) | clear_value x | subst x) | split | with_reducible refine Edits.upd (h := ?_)

theorem Dev.pairwise_edits {m : Nat} {d₀ d d' : Dev} {x1} {y} (e : Dev.pairwise d x1 = (y, d')) (hm : Nat.land m 0x2008 = 0x2008 := by decide)
    (h : Edits m d₀ d) : Edits m d₀ d' := by
  have := Dev.pairwise_snd_edits (x1 := x1) hm h
  rw [e] at this
  exact this

theorem Dev.fillCandidate_edits {m : Nat} {d₀ d : Dev} {x1 x2 x3} (hm : Nat.land m 0x348040006e00b = 0x348040006e00b := by decide)
    (h : Edits m d₀ d) : Edits m d₀ (Dev.fillCandidate d x1 x2 x3) := by
  refine Edits.andThen (t := 0x348040006e00b) h ?_ hm
  unfold Dev.fillCandidate
  repeat' first | with_reducible exact Edits.refl _ | with_reducible assumption | dsimp -zeta only | (with_reducible apply Dev.keyDone_edits <;> first | with_reducible assumption | decide | (dsimp only; decide) | skip) | (with_reducible apply Dev.pairwise_edits; with_reducible assumption; decide) | (with_reducible apply Dev.pairwise_snd_edits <;> first | with_reducible assumption | decide | (dsimp only; decide) | skip) | (with_reducible apply Dev.showCand_edits <;> first | with_reducible assumption | decide | (dsimp only; decide) | skip) | (with_reducible apply Dev.set_edits <;> first | with_reducible assumption | decide | (dsimp only; decide) | skip) | (with_reducible apply Dev.set_at2_edits <;> first | with_reducible assumption | decide | (dsimp only; decide) | skip) | (with_reducible apply Dev.set_at_edits <;> first | with_reducible assumption | decide | (dsimp only; decide) | skip) | with_reducible refine Edits.foldl _ (fun _ _ _ => ?_) _ ?_ | (extract_lets -merge +onlyGivenNames x; first | (refine (fun _ : Edits 0x348040006e00b d x => ?_) ?_; (on_goal 1 => clear_value x); (on_goal 2 => subst x)) | (have _h : ∃ y : Fld, y = x := ⟨x, rfl⟩; clear _h; subst x) | (have _h : ∃ y : Tsu, y = x := ⟨x, rfl⟩; clear _h; subst x) | (have _h : ∃ y : TrlRt, y = x := ⟨x, rfl⟩; clear _h; subst x) | (have _h : ∃ y : Clo, y = x := ⟨x, rfl⟩; clear _h; subst x) | (have _h : ∃ y : Face, y = x := ⟨x, rfl⟩; clear _h; subst x) | (have _h : ∃ y : HostIf, y = x := ⟨x, rfl⟩; clear _h; subst x) | (have _h : ∃ y : (_ → _), y = x := ⟨x, rfl⟩; clear _h; subst x) | clear_value x | subst x) | split | with_reducible refine Edits.upd (h := ?_)

theorem Dev.generateRoot_edits {m : Nat} {d₀ d : Dev} {x1} (hm : Nat.land m 0x348040006e00b = 0x348040006e00b := by decide)
    (h : Edits m d₀ d) : Edits m d₀ (Dev.generateRoot d x1) := by
  refine Edits.andThen (t := 0x348040006e00b) h ?_ hm
  unfold Dev.generateRoot
  repeat' first | with_reducible exact Edits.refl _ | with_reducible assumption | dsimp -zeta only | (with_reducible apply Dev.drbg_edits; with_reducible assumption; decide) | (with_reducible apply Dev.drbg_snd_edits <;> first | with_reducible assumption | decide | (dsimp only; decide) | skip) | (with_reducible apply Dev.fillCandidate_edits <;> first | with_reducible assumption | decide | (dsimp only; decide) | skip) | with_reducible refine Edits.foldl _ (fun _ _ _ => ?_) _ ?_ | (extract_lets -merge +onlyGivenNames x; first | (refine (fun _ : Edits 0x348040006e00b d x => ?_) ?_; (on_goal 1 => clear_value x); (on_goal 2 => subst x)) | (have _h : ∃ y : Fld, y = x := ⟨x, rfl⟩; clear _h; subst x) | (have _h : ∃ y : Tsu, y = x := ⟨x, rfl⟩; clear _h; subst x) | (have _h : ∃ y : TrlRt, y = x := ⟨x, rfl⟩; clear _h; subst x) | (have _h : ∃ y : Clo, y = x := ⟨x, rfl⟩; clear _h; subst x) | (have _h : ∃ y : Face, y = x := ⟨x, rfl⟩; clear _h; subst x) | (have _h : ∃ y : HostIf, y = x := ⟨x, rfl⟩; clear _h; subst x) | (have _h : ∃ y : (_ → _), y = x := ⟨x, rfl⟩; clear _h; subst x) | clear_value x | subst x) | split | with_reducible refine Edits.upd (h := ?_)

theorem Dev.generateNow_edits {m : Nat} {d₀ d : Dev} (hm : Nat.land m 0x348040006e00b = 0x348040006e00b := by decide)
    (h : Edits m d₀ d) : Edits m d₀ (Dev.generateNow d) := by
  refine Edits.andThen (t := 0x348040006e00b) h ?_ hm
  unfold Dev.generateNow
  repeat' first | with_reducible exact Edits.refl _ | with_reducible assumption | (with_reducible apply Dev.generateRoot_edits <;> first | with_reducible assumption | decide | (dsimp only; decide) | skip) | with_reducible refine Edits.foldl _ (fun _ _ _ => ?_) _ ?_ | (extract_lets -merge +onlyGivenNames x; first | (refine (fun _ : Edits 0x348040006e00b d x => ?_) ?_; (on_goal 1 => clear_value x); (on_goal 2 => subst x)) | (have _h : ∃ y : Fld, y = x := ⟨x, rfl⟩; clear _h; subst x) | (have _h : ∃ y : Tsu, y = x := ⟨x, rfl⟩; clear _h; subst x) | (have _h : ∃ y : TrlRt, y = x := ⟨x, rfl⟩; clear _h; subst x) | (have _h : ∃ y : Clo, y = x := ⟨x, rfl⟩; clear _h; subst x) | (have _h : ∃ y : Face, y = x := ⟨x, rfl⟩; clear _h; subst x) | (have _h : ∃ y : HostIf, y = x := ⟨x, rfl⟩; clear _h; subst x) | (have _h : ∃ y : (_ → _), y = x := ⟨x, rfl⟩; clear _h; subst x) | clear_value x | subst x) | split | with_reducible refine Edits.upd (h := ?_)

theorem Dev.install_edits {m : Nat} {d₀ d : Dev} {x1} {f : WorkKey → WorkKey → Dur → InstallEntry → Nat × Option JRec}
    (hm : Nat.land m 0x34e2e000eee4b = 0x34e2e000eee4b := by decide) (h : Edits m d₀ d) : Edits m d₀ (d.install x1 f) := by
  unfold Dev.install
  split
  · exact Dev.keyDone_edits (sub_trans hm (by decide)) h
  · exact Dev.pairDo_edits (sub_trans hm (by decide)) (Dev.countBy_edits (atOk_sub hm (by decide)) h)

theorem Dev.keyCmd_edits {m : Nat} {d₀ d : Dev} {b c : Bool} {f : Dev → Dev} (hm : Nat.land m 0x348040004c003 = 0x348040004c003 := by decide)
    (hf : ∀ x, Edits m d₀ x → Edits m d₀ (f x)) (h : Edits m d₀ d) : Edits m d₀ (d.keyCmd b c f) := by
  unfold Dev.keyCmd
  repeat' split
  all_goals first | exact h | exact Dev.keyDone_edits (sub_trans hm (by decide)) h | exact hf _ h

theorem Dev.rootCmd_edits {m : Nat} {d₀ d : Dev} {f : Nat → Dev → Dev} (hm : Nat.land m 0x348040004c003 = 0x348040004c003 := by decide)
    (hf : ∀ a x, Edits m d₀ x → Edits m d₀ (f a x)) (h : Edits m d₀ d) : Edits m d₀ (d.rootCmd f) := by
  refine Dev.keyCmd_edits (sub_trans hm (by decide)) (fun x hx => ?_) h
  split
  · exact Dev.keyDone_edits (sub_trans hm (by decide)) hx
  · exact hf _ _ hx

theorem Dev.pinBcast_edits {m : Nat} {d₀ d : Dev} {x1} (hm : Nat.land m 0x140000004c002 = 0x140000004c002 := by decide)
    (h : Edits m d₀ d) : Edits m d₀ (Dev.pinBcast d x1) := by
  refine Edits.andThen (t := 0x140000004c002) h ?_ hm
  unfold Dev.pinBcast
  repeat' first | with_reducible exact Edits.refl _ | with_reducible assumption | (with_reducible apply Dev.journal_edits <;> first | with_reducible assumption | decide | (dsimp only; decide) | skip) | with_reducible refine Edits.foldl _ (fun _ _ _ => ?_) _ ?_ | (extract_lets -merge +onlyGivenNames x; first | (refine (fun _ : Edits 0x140000004c002 d x => ?_) ?_; (on_goal 1 => clear_value x); (on_goal 2 => subst x)) | (have _h : ∃ y : Fld, y = x := ⟨x, rfl⟩; clear _h; subst x) | (have _h : ∃ y : Tsu, y = x := ⟨x, rfl⟩; clear _h; subst x) | (have _h : ∃ y : TrlRt, y = x := ⟨x, rfl⟩; clear _h; subst x) | (have _h : ∃ y : Clo, y = x := ⟨x, rfl⟩; clear _h; subst x) | (have _h : ∃ y : Face, y = x := ⟨x, rfl⟩; clear _h; subst x) | (have _h : ∃ y : HostIf, y = x := ⟨x, rfl⟩; clear _h; subst x) | (have _h : ∃ y : (_ → _), y = x := ⟨x, rfl⟩; clear _h; subst x) | clear_value x | subst x) | split | with_reducible refine Edits.upd (h := ?_)

theorem Dev.signCert_snd_edits {m : Nat} {d₀ d : Dev} {x1 x2} (hm : Nat.land m 0x2008 = 0x2008 := by decide)
    (h : Edits m d₀ d) : Edits m d₀ (Dev.signCert d x1 x2).2 := by
  refine Edits.andThen (t := 0x2008) h ?_ hm
  unfold Dev.signCert
  repeat' first | with_reducible exact Edits.refl _ | with_reducible assumption | dsimp -zeta only | (with_reducible apply Dev.sign_edits; with_reducible assumption; decide) | (with_reducible apply Dev.sign_snd_edits <;> first | with_reducible assumption | decide | (dsimp only; decide) | skip) | with_reducible refine Edits.foldl _ (fun _ _ _ => ?_) _ ?_ | (extract_lets -merge +onlyGivenNames x; first | (refine (fun _ : Edits 0x2008 d x => ?_) ?_; (on_goal 1 => clear_value x); (on_goal 2 => subst x)) | (have _h : ∃ y : Fld, y = x := ⟨x, rfl⟩; clear _h; subst x) | (have _h : ∃ y : Tsu, y = x := ⟨x, rfl⟩; clear _h; subst x) | (have _h : ∃ y : TrlRt, y = x := ⟨x, rfl⟩; clear _h; subst x) | (have _h : ∃ y : Clo, y = x := ⟨x, rfl⟩; clear _h; subst x) | (have _h : ∃ y : Face, y = x := ⟨x, rfl⟩; clear _h; subst x) | (have _h : ∃ y : HostIf, y = x := ⟨x, rfl⟩; clear _h; subst x) | (have _h : ∃ y : (_ → _), y = x := ⟨x, rfl⟩; clear _h; subst x) | clear_value x | subst x) | split | with_reducible refine Edits.upd (h := ?_)

theorem Dev.signCert_edits {m : Nat} {d₀ d d' : Dev} {x1 x2} {y} (e : Dev.signCert d x1 x2 = (y, d')) (hm : Nat.land m 0x2008 = 0x2008 := by decide)
    (h : Edits m d₀ d) : Edits m d₀ d' := by
  have := Dev.signCert_snd_edits (x1 := x1) (x2 := x2) hm h
  rw [e] at this
  exact this

end Sys2Proof.Machine
end

