-- ==== Sys2Proof/Laws/Ops/Hlp.lean ====
section
/-! SUPPORT. What the operations of Machine/Hlp.lean may do: the parts each touches (`Edits`), said once. -/

set_option linter.unusedTactic false
set_option linter.unreachableTactic false
set_option Elab.async false

namespace Sys2Proof.Machine

theorem Dev.heard_edits {m : Nat} {d₀ d : Dev} {x1} (hm : Nat.land m 0x340240004c203 = 0x340240004c203 := by decide)
    (h : Edits m d₀ d) : Edits m d₀ (Dev.heard d x1) := by
  refine Edits.andThen (t := 0x340240004c203) h ?_ hm
  unfold Dev.heard
  repeat' first | with_reducible exact Edits.refl _ | with_reducible assumption | (with_reducible apply Dev.raise_at_edits <;> first | with_reducible assumption | decide | (dsimp only; decide) | skip) | (with_reducible apply Dev.raise_at2_edits <;> first | with_reducible assumption | decide | (dsimp only; decide) | skip) | (with_reducible apply Dev.raise_edits <;> first | with_reducible assumption | decide | (dsimp only; decide) | skip) | (with_reducible apply Dev.setHead_edits <;> first | with_reducible assumption | decide | (dsimp only; decide) | skip) | with_reducible refine Edits.foldl _ (fun _ _ _ => ?_) _ ?_ | (extract_lets -merge +onlyGivenNames x; first | (refine (fun _ : Edits 0x340240004c203 d x => ?_) ?_; (on_goal 1 => clear_value x); (on_goal 2 => subst x)) | (have _h : ∃ y : Fld, y = x := ⟨x, rfl⟩; clear _h; subst x) | (have _h : ∃ y : Tsu, y = x := ⟨x, rfl⟩; clear _h; subst x) | (have _h : ∃ y : TrlRt, y = x := ⟨x, rfl⟩; clear _h; subst x) | (have _h : ∃ y : Clo, y = x := ⟨x, rfl⟩; clear _h; subst x) | (have _h : ∃ y : Face, y = x := ⟨x, rfl⟩; clear _h; subst x) | (have _h : ∃ y : HostIf, y = x := ⟨x, rfl⟩; clear _h; subst x) | (have _h : ∃ y : (_ → _), y = x := ⟨x, rfl⟩; clear _h; subst x) | clear_value x | subst x) | split | with_reducible refine Edits.upd (h := ?_)

theorem Dev.judgeSlot_edits {m : Nat} {d₀ d : Dev} {x1} (hm : Nat.land m 0x340240004c003 = 0x340240004c003 := by decide)
    (h : Edits m d₀ d) : Edits m d₀ (Dev.judgeSlot d x1) := by
  refine Edits.andThen (t := 0x340240004c003) h ?_ hm
  unfold Dev.judgeSlot
  repeat' first | with_reducible exact Edits.refl _ | with_reducible assumption | (with_reducible apply Dev.raise_at_edits <;> first | with_reducible assumption | decide | (dsimp only; decide) | skip) | (with_reducible apply Dev.raise_at2_edits <;> first | with_reducible assumption | decide | (dsimp only; decide) | skip) | (with_reducible apply Dev.raise_edits <;> first | with_reducible assumption | decide | (dsimp only; decide) | skip) | with_reducible refine Edits.foldl _ (fun _ _ _ => ?_) _ ?_ | (extract_lets -merge +onlyGivenNames x; first | (refine (fun _ : Edits 0x340240004c003 d x => ?_) ?_; (on_goal 1 => clear_value x); (on_goal 2 => subst x)) | (have _h : ∃ y : Fld, y = x := ⟨x, rfl⟩; clear _h; subst x) | (have _h : ∃ y : Tsu, y = x := ⟨x, rfl⟩; clear _h; subst x) | (have _h : ∃ y : TrlRt, y = x := ⟨x, rfl⟩; clear _h; subst x) | (have _h : ∃ y : Clo, y = x := ⟨x, rfl⟩; clear _h; subst x) | (have _h : ∃ y : Face, y = x := ⟨x, rfl⟩; clear _h; subst x) | (have _h : ∃ y : HostIf, y = x := ⟨x, rfl⟩; clear _h; subst x) | (have _h : ∃ y : (_ → _), y = x := ⟨x, rfl⟩; clear _h; subst x) | clear_value x | subst x) | split | with_reducible refine Edits.upd (h := ?_)

theorem Dev.sendAccept_edits {m : Nat} {d₀ d : Dev} {x1 x2} (hm : Nat.land m 0x210a = 0x210a := by decide)
    (h : Edits m d₀ d) : Edits m d₀ (Dev.sendAccept d x1 x2) := by
  refine Edits.andThen (t := 0x210a) h ?_ hm
  unfold Dev.sendAccept
  repeat' first | with_reducible exact Edits.refl _ | with_reducible assumption | (with_reducible apply Dev.sendHlp0_edits <;> first | with_reducible assumption | decide | (dsimp only; decide) | skip) | with_reducible refine Edits.foldl _ (fun _ _ _ => ?_) _ ?_ | (extract_lets -merge +onlyGivenNames x; first | (refine (fun _ : Edits 0x210a d x => ?_) ?_; (on_goal 1 => clear_value x); (on_goal 2 => subst x)) | (have _h : ∃ y : Fld, y = x := ⟨x, rfl⟩; clear _h; subst x) | (have _h : ∃ y : Tsu, y = x := ⟨x, rfl⟩; clear _h; subst x) | (have _h : ∃ y : TrlRt, y = x := ⟨x, rfl⟩; clear _h; subst x) | (have _h : ∃ y : Clo, y = x := ⟨x, rfl⟩; clear _h; subst x) | (have _h : ∃ y : Face, y = x := ⟨x, rfl⟩; clear _h; subst x) | (have _h : ∃ y : HostIf, y = x := ⟨x, rfl⟩; clear _h; subst x) | (have _h : ∃ y : (_ → _), y = x := ⟨x, rfl⟩; clear _h; subst x) | clear_value x | subst x) | split | with_reducible refine Edits.upd (h := ?_)

theorem Dev.answerJoin_edits {m : Nat} {d₀ d : Dev} {x1 x2 x3 x4 x5 x6 x7} (hm : Nat.land m 0x340240004e30b = 0x340240004e30b := by decide)
    (h : Edits m d₀ d) : Edits m d₀ (Dev.answerJoin d x1 x2 x3 x4 x5 x6 x7) := by
  refine Edits.andThen (t := 0x340240004e30b) h ?_ hm
  unfold Dev.answerJoin
  extract_lets +onlyGivenNames p nonce setup rates h0 h refuse
  have no (c : Nat) : Edits 0x340240004e30b d (refuse c) := Dev.sendHlp0_edits (h := Edits.refl _)
  clear_value refuse
  refine Edits.ite (fun _ => no _) fun _ => Edits.ite (fun _ => no _) fun _ => Edits.ite (fun _ => no _) fun _ => ?_
  split
  next e =>
    have h₁ := Dev.drbg_edits (m := 0x340240004e30b) (e := e) (h := Edits.refl _)
    extract_lets +onlyGivenNames epoch info key d₂ reg d₃ body
    have h₂ : Edits 0x340240004e30b d d₂ := Dev.judgeSlot_edits (h := Dev.setHead_edits (h := h₁))
    clear_value d₂
    have h₃ : Edits 0x340240004e30b d d₃ := Dev.journal_edits (h := h₂)
    clear_value d₃
    exact Edits.ite (fun _ => Edits.upd (h := h₃)) fun _ => Dev.sendAccept_edits (h := h₃)

theorem Dev.headDone_edits {m : Nat} {d₀ d : Dev} {x1} (hm : Nat.land m 0x2000000000 = 0x2000000000 := by decide)
    (h : Edits m d₀ d) : Edits m d₀ (Dev.headDone d x1) := by
  refine Edits.andThen (t := 0x2000000000) h ?_ hm
  unfold Dev.headDone
  repeat' first | with_reducible exact Edits.refl _ | with_reducible assumption | (with_reducible apply Dev.set_at_edits <;> first | with_reducible assumption | decide | (dsimp only; decide) | skip) | (with_reducible apply Dev.set_at2_edits <;> first | with_reducible assumption | decide | (dsimp only; decide) | skip) | (with_reducible apply Dev.set_edits <;> first | with_reducible assumption | decide | (dsimp only; decide) | skip) | with_reducible refine Edits.foldl _ (fun _ _ _ => ?_) _ ?_ | (extract_lets -merge +onlyGivenNames x; first | (refine (fun _ : Edits 0x2000000000 d x => ?_) ?_; (on_goal 1 => clear_value x); (on_goal 2 => subst x)) | (have _h : ∃ y : Fld, y = x := ⟨x, rfl⟩; clear _h; subst x) | (have _h : ∃ y : Tsu, y = x := ⟨x, rfl⟩; clear _h; subst x) | (have _h : ∃ y : TrlRt, y = x := ⟨x, rfl⟩; clear _h; subst x) | (have _h : ∃ y : Clo, y = x := ⟨x, rfl⟩; clear _h; subst x) | (have _h : ∃ y : Face, y = x := ⟨x, rfl⟩; clear _h; subst x) | (have _h : ∃ y : HostIf, y = x := ⟨x, rfl⟩; clear _h; subst x) | (have _h : ∃ y : (_ → _), y = x := ⟨x, rfl⟩; clear _h; subst x) | clear_value x | subst x) | split | with_reducible refine Edits.upd (h := ?_)

theorem Dev.headCmd_edits {m : Nat} {d₀ d : Dev} {f : Dev → Dev} (hm : Nat.land m 0x2000000000 = 0x2000000000 := by decide)
    (hf : ∀ x, Edits m d₀ x → Edits m d₀ (f x)) (h : Edits m d₀ d) : Edits m d₀ (d.headCmd f) := by
  unfold Dev.headCmd
  split
  · exact h
  · split
    · exact Dev.headDone_edits (sub_trans hm (by decide)) h
    · exact hf _ h

theorem Dev.headTo_edits {m : Nat} {d₀ d : Dev} {x1 x2 x3} (hm : Nat.land m 0x340240004c203 = 0x340240004c203 := by decide)
    (h : Edits m d₀ d) : Edits m d₀ (Dev.headTo d x1 x2 x3) := by
  refine Edits.andThen (t := 0x340240004c203) h ?_ hm
  unfold Dev.headTo
  repeat' first | with_reducible exact Edits.refl _ | with_reducible assumption | (with_reducible apply Dev.raise_at_edits <;> first | with_reducible assumption | decide | (dsimp only; decide) | skip) | (with_reducible apply Dev.raise_at2_edits <;> first | with_reducible assumption | decide | (dsimp only; decide) | skip) | (with_reducible apply Dev.raise_edits <;> first | with_reducible assumption | decide | (dsimp only; decide) | skip) | (with_reducible apply Dev.setHead_edits <;> first | with_reducible assumption | decide | (dsimp only; decide) | skip) | with_reducible refine Edits.foldl _ (fun _ _ _ => ?_) _ ?_ | (extract_lets -merge +onlyGivenNames x; first | (refine (fun _ : Edits 0x340240004c203 d x => ?_) ?_; (on_goal 1 => clear_value x); (on_goal 2 => subst x)) | (have _h : ∃ y : Fld, y = x := ⟨x, rfl⟩; clear _h; subst x) | (have _h : ∃ y : Tsu, y = x := ⟨x, rfl⟩; clear _h; subst x) | (have _h : ∃ y : TrlRt, y = x := ⟨x, rfl⟩; clear _h; subst x) | (have _h : ∃ y : Clo, y = x := ⟨x, rfl⟩; clear _h; subst x) | (have _h : ∃ y : Face, y = x := ⟨x, rfl⟩; clear _h; subst x) | (have _h : ∃ y : HostIf, y = x := ⟨x, rfl⟩; clear _h; subst x) | (have _h : ∃ y : (_ → _), y = x := ⟨x, rfl⟩; clear _h; subst x) | clear_value x | subst x) | split | with_reducible refine Edits.upd (h := ?_)

theorem Dev.judgeHead_edits {m : Nat} {d₀ d : Dev} {x1} (hm : Nat.land m 0x340240004c203 = 0x340240004c203 := by decide)
    (h : Edits m d₀ d) : Edits m d₀ (Dev.judgeHead d x1) := by
  refine Edits.andThen (t := 0x340240004c203) h ?_ hm
  unfold Dev.judgeHead
  repeat' first | with_reducible exact Edits.refl _ | with_reducible assumption | (with_reducible apply Dev.headTo_edits <;> first | with_reducible assumption | decide | (dsimp only; decide) | skip) | with_reducible refine Edits.foldl _ (fun _ _ _ => ?_) _ ?_ | (extract_lets -merge +onlyGivenNames x; first | (refine (fun _ : Edits 0x340240004c203 d x => ?_) ?_; (on_goal 1 => clear_value x); (on_goal 2 => subst x)) | (have _h : ∃ y : Fld, y = x := ⟨x, rfl⟩; clear _h; subst x) | (have _h : ∃ y : Tsu, y = x := ⟨x, rfl⟩; clear _h; subst x) | (have _h : ∃ y : TrlRt, y = x := ⟨x, rfl⟩; clear _h; subst x) | (have _h : ∃ y : Clo, y = x := ⟨x, rfl⟩; clear _h; subst x) | (have _h : ∃ y : Face, y = x := ⟨x, rfl⟩; clear _h; subst x) | (have _h : ∃ y : HostIf, y = x := ⟨x, rfl⟩; clear _h; subst x) | (have _h : ∃ y : (_ → _), y = x := ⟨x, rfl⟩; clear _h; subst x) | clear_value x | subst x) | split | with_reducible refine Edits.upd (h := ?_)

theorem Dev.setHome_edits {m : Nat} {d₀ d : Dev} {x1 x2} (hm : Nat.land m 0x140000004c402 = 0x140000004c402 := by decide)
    (h : Edits m d₀ d) : Edits m d₀ (Dev.setHome d x1 x2) := by
  refine Edits.andThen (t := 0x140000004c402) h ?_ hm
  unfold Dev.setHome
  repeat' first | with_reducible exact Edits.refl _ | with_reducible assumption | (with_reducible apply Dev.journal_edits <;> first | with_reducible assumption | decide | (dsimp only; decide) | skip) | with_reducible refine Edits.foldl _ (fun _ _ _ => ?_) _ ?_ | (extract_lets -merge +onlyGivenNames x; first | (refine (fun _ : Edits 0x140000004c402 d x => ?_) ?_; (on_goal 1 => clear_value x); (on_goal 2 => subst x)) | (have _h : ∃ y : Fld, y = x := ⟨x, rfl⟩; clear _h; subst x) | (have _h : ∃ y : Tsu, y = x := ⟨x, rfl⟩; clear _h; subst x) | (have _h : ∃ y : TrlRt, y = x := ⟨x, rfl⟩; clear _h; subst x) | (have _h : ∃ y : Clo, y = x := ⟨x, rfl⟩; clear _h; subst x) | (have _h : ∃ y : Face, y = x := ⟨x, rfl⟩; clear _h; subst x) | (have _h : ∃ y : HostIf, y = x := ⟨x, rfl⟩; clear _h; subst x) | (have _h : ∃ y : (_ → _), y = x := ⟨x, rfl⟩; clear _h; subst x) | clear_value x | subst x) | split | with_reducible refine Edits.upd (h := ?_)

theorem Dev.hlpAuth_edits {m : Nat} {d₀ d : Dev} {x1} (hm : Nat.land m 0x340240004c003 = 0x340240004c003 := by decide)
    (h : Edits m d₀ d) : Edits m d₀ (Dev.hlpAuth d x1) := by
  refine Edits.andThen (t := 0x340240004c003) h ?_ hm
  unfold Dev.hlpAuth
  repeat' first | with_reducible exact Edits.refl _ | with_reducible assumption | (with_reducible apply Dev.count_lit_edits <;> [decide; skip]) | (with_reducible apply Dev.count_edits <;> first | with_reducible assumption | decide | (dsimp only; decide) | skip) | (with_reducible apply Dev.raise_at_edits <;> first | with_reducible assumption | decide | (dsimp only; decide) | skip) | (with_reducible apply Dev.raise_at2_edits <;> first | with_reducible assumption | decide | (dsimp only; decide) | skip) | (with_reducible apply Dev.raise_edits <;> first | with_reducible assumption | decide | (dsimp only; decide) | skip) | with_reducible refine Edits.foldl _ (fun _ _ _ => ?_) _ ?_ | (extract_lets -merge +onlyGivenNames x; first | (refine (fun _ : Edits 0x340240004c003 d x => ?_) ?_; (on_goal 1 => clear_value x); (on_goal 2 => subst x)) | (have _h : ∃ y : Fld, y = x := ⟨x, rfl⟩; clear _h; subst x) | (have _h : ∃ y : Tsu, y = x := ⟨x, rfl⟩; clear _h; subst x) | (have _h : ∃ y : TrlRt, y = x := ⟨x, rfl⟩; clear _h; subst x) | (have _h : ∃ y : Clo, y = x := ⟨x, rfl⟩; clear _h; subst x) | (have _h : ∃ y : Face, y = x := ⟨x, rfl⟩; clear _h; subst x) | (have _h : ∃ y : HostIf, y = x := ⟨x, rfl⟩; clear _h; subst x) | (have _h : ∃ y : (_ → _), y = x := ⟨x, rfl⟩; clear _h; subst x) | clear_value x | subst x) | split | with_reducible refine Edits.upd (h := ?_)

theorem Dev.hlpFrame_edits {m : Nat} {d₀ d : Dev} {x1 x2 x3 x4} {f : HlpMsg → Dev → Dev} (hm : Nat.land m 0xb40040004c103 = 0xb40040004c103 := by decide)
    (hf : ∀ a x, Edits m d₀ x → Edits m d₀ (f a x)) (h : Edits m d₀ d) : Edits m d₀ (d.hlpFrame x1 x2 x3 x4 f) := by
  refine Dev.ethTake_edits (sub_trans hm (by decide)) (fun x hx => ?_) h
  extract_lets d₁
  have h₁ : Edits m d₀ d₁ := Dev.heardFrom_edits (sub_trans hm (by decide)) hx
  clear_value d₁
  split
  · exact h₁
  · split
    · exact hf _ _ h₁
    · exact h₁

theorem Dev.hlpIn_edits {m : Nat} {d₀ d : Dev} {x1 x2 x3 x4 x5} {f : Nat → Bytes → Dev → Dev} (hm : Nat.land m 0xb40240004c303 = 0xb40240004c303 := by decide)
    (hf : ∀ a b x, Edits m d₀ x → Edits m d₀ (f a b x)) (h : Edits m d₀ d) : Edits m d₀ (d.hlpIn x1 x2 x3 x4 x5 f) := by
  refine Dev.hlpFrame_edits (sub_trans hm (by decide)) (fun msg x hx => ?_) h
  split
  · exact hx
  · split
    · exact Dev.count_edits (atOk_sub hm (by decide)) hx
    · extract_lets hd
      have auth (i : Nat) : Edits m d₀ (x.hlpAuth i) := Dev.hlpAuth_edits (sub_trans hm (by decide)) hx
      refine Edits.ite (fun _ => Edits.ite (fun _ => hx) fun _ => auth _) fun _ => Edits.ite (fun _ => auth _) fun _ => ?_
      · split
        · exact Dev.count_edits (atOk_sub hm (by decide)) hx
        · split
          · exact auth _
          · extract_lets d₁ d₂
            have h₁ : Edits m d₀ d₁ := Dev.heard_edits (sub_trans hm (by decide)) (Dev.setHead_edits (sub_trans hm (by decide)) hx)
            have h₂ : Edits m d₀ d₂ := by
              show Edits m d₀ (if _ then _ else _)
              split
              · exact Dev.headTo_edits (sub_trans hm (by decide)) h₁
              · exact h₁
            exact hf _ _ _ h₂

theorem Dev.releaseAccepts_edits {m : Nat} {d₀ d : Dev} {x1} (hm : Nat.land m 0x230a = 0x230a := by decide)
    (h : Edits m d₀ d) : Edits m d₀ (Dev.releaseAccepts d x1) := by
  refine Edits.andThen (t := 0x230a) h ?_ hm
  unfold Dev.releaseAccepts
  repeat' first | with_reducible exact Edits.refl _ | with_reducible assumption | (with_reducible apply Dev.sendAccept_edits <;> first | with_reducible assumption | decide | (dsimp only; decide) | skip) | (with_reducible apply Edits.elim <;> [skip; (intro _; try beta_reduce)]) | with_reducible refine Edits.foldl _ (fun _ _ _ => ?_) _ ?_ | (extract_lets -merge +onlyGivenNames x; first | (refine (fun _ : Edits 0x230a d x => ?_) ?_; (on_goal 1 => clear_value x); (on_goal 2 => subst x)) | (have _h : ∃ y : Fld, y = x := ⟨x, rfl⟩; clear _h; subst x) | (have _h : ∃ y : Tsu, y = x := ⟨x, rfl⟩; clear _h; subst x) | (have _h : ∃ y : TrlRt, y = x := ⟨x, rfl⟩; clear _h; subst x) | (have _h : ∃ y : Clo, y = x := ⟨x, rfl⟩; clear _h; subst x) | (have _h : ∃ y : Face, y = x := ⟨x, rfl⟩; clear _h; subst x) | (have _h : ∃ y : HostIf, y = x := ⟨x, rfl⟩; clear _h; subst x) | (have _h : ∃ y : (_ → _), y = x := ⟨x, rfl⟩; clear _h; subst x) | clear_value x | subst x) | split | with_reducible refine Edits.upd (h := ?_)

theorem Dev.rehome_edits {m : Nat} {d₀ d : Dev} {x1} (hm : Nat.land m 0x140200004c602 = 0x140200004c602 := by decide)
    (h : Edits m d₀ d) : Edits m d₀ (Dev.rehome d x1) := by
  refine Edits.andThen (t := 0x140200004c602) h ?_ hm
  unfold Dev.rehome
  repeat' first | with_reducible exact Edits.refl _ | with_reducible assumption | (with_reducible apply Dev.count_lit_edits <;> [decide; skip]) | (with_reducible apply Dev.count_edits <;> first | with_reducible assumption | decide | (dsimp only; decide) | skip) | (with_reducible apply Dev.setHead_edits <;> first | with_reducible assumption | decide | (dsimp only; decide) | skip) | (with_reducible apply Dev.setHome_edits <;> first | with_reducible assumption | decide | (dsimp only; decide) | skip) | with_reducible refine Edits.foldl _ (fun _ _ _ => ?_) _ ?_ | (extract_lets -merge +onlyGivenNames x; first | (refine (fun _ : Edits 0x140200004c602 d x => ?_) ?_; (on_goal 1 => clear_value x); (on_goal 2 => subst x)) | (have _h : ∃ y : Fld, y = x := ⟨x, rfl⟩; clear _h; subst x) | (have _h : ∃ y : Tsu, y = x := ⟨x, rfl⟩; clear _h; subst x) | (have _h : ∃ y : TrlRt, y = x := ⟨x, rfl⟩; clear _h; subst x) | (have _h : ∃ y : Clo, y = x := ⟨x, rfl⟩; clear _h; subst x) | (have _h : ∃ y : Face, y = x := ⟨x, rfl⟩; clear _h; subst x) | (have _h : ∃ y : HostIf, y = x := ⟨x, rfl⟩; clear _h; subst x) | (have _h : ∃ y : (_ → _), y = x := ⟨x, rfl⟩; clear _h; subst x) | clear_value x | subst x) | split | with_reducible refine Edits.upd (h := ?_)

theorem Dev.sendRecall_edits {m : Nat} {d₀ d : Dev} {x1} (hm : Nat.land m 0x200000230a = 0x200000230a := by decide)
    (h : Edits m d₀ d) : Edits m d₀ (Dev.sendRecall d x1) := by
  refine Edits.andThen (t := 0x200000230a) h ?_ hm
  unfold Dev.sendRecall
  repeat' first | with_reducible exact Edits.refl _ | with_reducible assumption | (with_reducible apply Dev.drbg_edits; with_reducible assumption; decide) | (with_reducible apply Dev.drbg_snd_edits <;> first | with_reducible assumption | decide | (dsimp only; decide) | skip) | (with_reducible apply Dev.sendHlp0_edits <;> first | with_reducible assumption | decide | (dsimp only; decide) | skip) | (with_reducible apply Dev.setHead_edits <;> first | with_reducible assumption | decide | (dsimp only; decide) | skip) | with_reducible refine Edits.foldl _ (fun _ _ _ => ?_) _ ?_ | (extract_lets -merge +onlyGivenNames x; first | (refine (fun _ : Edits 0x200000230a d x => ?_) ?_; (on_goal 1 => clear_value x); (on_goal 2 => subst x)) | (have _h : ∃ y : Fld, y = x := ⟨x, rfl⟩; clear _h; subst x) | (have _h : ∃ y : Tsu, y = x := ⟨x, rfl⟩; clear _h; subst x) | (have _h : ∃ y : TrlRt, y = x := ⟨x, rfl⟩; clear _h; subst x) | (have _h : ∃ y : Clo, y = x := ⟨x, rfl⟩; clear _h; subst x) | (have _h : ∃ y : Face, y = x := ⟨x, rfl⟩; clear _h; subst x) | (have _h : ∃ y : HostIf, y = x := ⟨x, rfl⟩; clear _h; subst x) | (have _h : ∃ y : (_ → _), y = x := ⟨x, rfl⟩; clear _h; subst x) | clear_value x | subst x) | split | with_reducible refine Edits.upd (h := ?_)

theorem Dev.recallAll_edits {m : Nat} {d₀ d : Dev} (hm : Nat.land m 0x200000230a = 0x200000230a := by decide)
    (h : Edits m d₀ d) : Edits m d₀ (Dev.recallAll d) := by
  refine Edits.andThen (t := 0x200000230a) h ?_ hm
  unfold Dev.recallAll
  repeat' first | with_reducible exact Edits.refl _ | with_reducible assumption | (with_reducible apply Dev.sendRecall_edits <;> first | with_reducible assumption | decide | (dsimp only; decide) | skip) | with_reducible refine Edits.foldl _ (fun _ _ _ => ?_) _ ?_ | (extract_lets -merge +onlyGivenNames x; first | (refine (fun _ : Edits 0x200000230a d x => ?_) ?_; (on_goal 1 => clear_value x); (on_goal 2 => subst x)) | (have _h : ∃ y : Fld, y = x := ⟨x, rfl⟩; clear _h; subst x) | (have _h : ∃ y : Tsu, y = x := ⟨x, rfl⟩; clear _h; subst x) | (have _h : ∃ y : TrlRt, y = x := ⟨x, rfl⟩; clear _h; subst x) | (have _h : ∃ y : Clo, y = x := ⟨x, rfl⟩; clear _h; subst x) | (have _h : ∃ y : Face, y = x := ⟨x, rfl⟩; clear _h; subst x) | (have _h : ∃ y : HostIf, y = x := ⟨x, rfl⟩; clear _h; subst x) | (have _h : ∃ y : (_ → _), y = x := ⟨x, rfl⟩; clear _h; subst x) | clear_value x | subst x) | split | with_reducible refine Edits.upd (h := ?_)

end Sys2Proof.Machine
end

