-- ==== Sys2Proof/Laws/Ops/Restart.lean ====
section
/-! SUPPORT. What the operations of Machine/Restart.lean may do: the parts each touches (`Edits`), said once. -/

set_option linter.unusedTactic false
set_option linter.unreachableTactic false
set_option Elab.async false

namespace Sys2Proof.Machine

theorem Dev.cloAfterReset_edits {m : Nat} {d₀ d : Dev} (hm : Nat.land m 0x800000020000 = 0x800000020000 := by decide)
    (h : Edits m d₀ d) : Edits m d₀ (Dev.cloAfterReset d) := by
  refine Edits.andThen (t := 0x800000020000) h ?_ hm
  unfold Dev.cloAfterReset
  repeat' first | with_reducible exact Edits.refl _ | with_reducible assumption | (with_reducible apply Dev.set_at_edits <;> first | with_reducible assumption | decide | (dsimp only; decide) | skip) | (with_reducible apply Dev.set_at2_edits <;> first | with_reducible assumption | decide | (dsimp only; decide) | skip) | (with_reducible apply Dev.set_edits <;> first | with_reducible assumption | decide | (dsimp only; decide) | skip) | (with_reducible apply Dev.setReg_at_edits <;> first | with_reducible assumption | decide | (dsimp only; decide) | skip) | (with_reducible apply Dev.setReg_at2_edits <;> first | with_reducible assumption | decide | (dsimp only; decide) | skip) | (with_reducible apply Dev.setReg_edits <;> first | with_reducible assumption | decide | (dsimp only; decide) | skip) | with_reducible refine Edits.foldl _ (fun _ _ _ => ?_) _ ?_ | (extract_lets -merge +onlyGivenNames x; first | (refine (fun _ : Edits 0x800000020000 d x => ?_) ?_; (on_goal 1 => clear_value x); (on_goal 2 => subst x)) | (have _h : ∃ y : Fld, y = x := ⟨x, rfl⟩; clear _h; subst x) | (have _h : ∃ y : Tsu, y = x := ⟨x, rfl⟩; clear _h; subst x) | (have _h : ∃ y : TrlRt, y = x := ⟨x, rfl⟩; clear _h; subst x) | (have _h : ∃ y : Clo, y = x := ⟨x, rfl⟩; clear _h; subst x) | (have _h : ∃ y : Face, y = x := ⟨x, rfl⟩; clear _h; subst x) | (have _h : ∃ y : HostIf, y = x := ⟨x, rfl⟩; clear _h; subst x) | (have _h : ∃ y : (_ → _), y = x := ⟨x, rfl⟩; clear _h; subst x) | clear_value x | subst x) | split | with_reducible refine Edits.upd (h := ?_)

theorem Dev.restart_edits {m : Nat} {d₀ d : Dev} {bits : Nat} (hm : Nat.land m 0xffffffffffffffff803fffe1 = 0xffffffffffffffff803fffe1 := by decide)
    (h : Edits m d₀ d) : Edits m d₀ (d.restart bits) := by
  refine Edits.andThen (t := 0xffffffffffffffff803fffe1) h ?_ hm
  have h₀ : Edits 0xffffffffffffffff803fffe1 d d.cloAfterReset := Dev.cloAfterReset_edits (h := Edits.refl _)
  unfold Dev.restart
  generalize d.cloAfterReset = d₀ at h₀
  refine Dev.set_edits (h := Dev.set_edits (h := Dev.set_edits (h := Dev.set_edits (h := Dev.set_edits (h := Dev.setReg_edits (h := ?_))))))
  refine h₀.trans ?_
  constructor
  case time => exact fun _ => (by decide : ({} : Tsu).inRange = true)
  case vault => exact fun h => h
  case fuses => exact ⟨fun _ h => h, Nat.le_refl _⟩
  all_goals first | exact .inl (by decide) | exact .inr rfl | skip
  have hb : ∀ b < 64, Nat.testBit 0xffffffffffffffff803fffe1 (32 + b) = true := by decide
  have hb31 : Nat.testBit 0xffffffffffffffff803fffe1 31 = true := by decide
  refine ⟨fun off ho => .inl (by unfold regBit; split; exacts [hb31, hb _ (by omega)]), Face.canonical_filter _, .inl (by decide), .inr rfl, [], rfl⟩

theorem Dev.restartFromStep3_edits {m : Nat} {d₀ d : Dev} (hm : Nat.land m 0xffffffffffffffff803fffe1 = 0xffffffffffffffff803fffe1 := by decide)
    (h : Edits m d₀ d) : Edits m d₀ (Dev.restartFromStep3 d) := by
  refine Edits.andThen (t := 0xffffffffffffffff803fffe1) h ?_ hm
  unfold Dev.restartFromStep3
  repeat' first | with_reducible exact Edits.refl _ | with_reducible assumption | (with_reducible apply Dev.restart_edits <;> first | with_reducible assumption | decide | (dsimp only; decide) | skip) | with_reducible refine Edits.foldl _ (fun _ _ _ => ?_) _ ?_ | (extract_lets -merge +onlyGivenNames x; first | (refine (fun _ : Edits 0xffffffffffffffff803fffe1 d x => ?_) ?_; (on_goal 1 => clear_value x); (on_goal 2 => subst x)) | (have _h : ∃ y : Fld, y = x := ⟨x, rfl⟩; clear _h; subst x) | (have _h : ∃ y : Tsu, y = x := ⟨x, rfl⟩; clear _h; subst x) | (have _h : ∃ y : TrlRt, y = x := ⟨x, rfl⟩; clear _h; subst x) | (have _h : ∃ y : Clo, y = x := ⟨x, rfl⟩; clear _h; subst x) | (have _h : ∃ y : Face, y = x := ⟨x, rfl⟩; clear _h; subst x) | (have _h : ∃ y : HostIf, y = x := ⟨x, rfl⟩; clear _h; subst x) | (have _h : ∃ y : (_ → _), y = x := ⟨x, rfl⟩; clear _h; subst x) | clear_value x | subst x) | split | with_reducible refine Edits.upd (h := ?_)

end Sys2Proof.Machine
end

