-- ==== Sys2Proof/Laws/Exec/Graft.lean ====
section
/-! SUPPORT. What the commands of Machine/Graft.lean may do: each completes and touches only the parts of its mask (`Edits`). -/

set_option linter.unusedTactic false
set_option linter.unreachableTactic false
set_option Elab.async false

namespace Sys2Proof.Machine

end Sys2Proof.Machine
end

