-- ==== Sys2Proof/Laws/Exec/HostCmd.lean ====
section
/-! SUPPORT. What the commands of Machine/HostCmd.lean may do: each completes and touches only the parts of its mask (`Edits`). -/

set_option linter.unusedTactic false
set_option linter.unreachableTactic false
set_option Elab.async false

namespace Sys2Proof.Machine

theorem execCertLoad_edits {x0 s} : ∃ d', execCertLoad x0 s = .next { s with dev := d' } ∧ Edits 0x3400c0004c803 s.dev d' := by
  refine ⟨_, rfl, Dev.hostCmd_edits (hf := fun c x hx => ?_) (h := Edits.refl _)⟩
  extract_lets -merge +onlyGivenNames b plain sig
  refine Edits.ite (fun _ => Dev.refuse_edits (h := hx)) fun _ => ?_
  extract_lets -merge +onlyGivenNames d₁
  have h₁ : Edits 0x3400c0004c803 s.dev d₁ := Dev.shPost_edits (h := hx)
  refine Edits.ite (fun _ => Dev.refuse_edits (h := h₁)) fun _ => ?_
  clear_value d₁ plain sig
  extract_lets -merge +onlyGivenNames ref e others kept u w d₂
  have h₂ : Edits 0x3400c0004c803 s.dev d₂ := Edits.upd (h := h₁)
  clear_value d₂
  exact Dev.respond_edits (h := Dev.set_edits (h := h₂))

theorem execMeterRequest_edits {x0 s} : ∃ d', execMeterRequest x0 s = .next { s with dev := d' } ∧ Edits 0x34f3e000eef4b s.dev d' := by
  refine ⟨_, rfl, Dev.hostCmd_edits (hf := fun c x hx => Dev.authorised_edits (hf := fun role x hx => ?_) (h := hx)) (h := Edits.refl _)⟩
  extract_lets apdu m
  refine Edits.ite (fun _ => Dev.refuse_edits (h := hx)) fun _ => ?_
  refine Edits.ite (fun _ => Dev.refuse_edits (h := hx)) fun _ => ?_
  refine Edits.ite (fun _ => Dev.refuse_edits (h := hx)) fun _ => ?_
  refine Edits.ite (fun _ => Dev.refuse_edits (h := hx)) fun _ => ?_
  refine Edits.ite (fun _ => Dev.refuse_edits (h := hx)) fun _ => ?_
  generalize e : x.fresh 4 = p
  obtain ⟨id, x'⟩ := p
  have h' := Dev.fresh_edits (m := 0x34f3e000eef4b) (e := e) (h := hx)
  clear e
  dsimp -zeta only
  extract_lets -merge +onlyGivenNames a q n dl u d₁
  have h₁ : Edits 0x34f3e000eef4b s.dev d₁ := Edits.upd (h := h')
  clear_value d₁
  extract_lets -merge +onlyGivenNames u w d₂
  have h₂ : Edits 0x34f3e000eef4b s.dev d₂ := Edits.upd (h := h₁)
  clear_value d₂
  exact Dev.startDown_edits (h := h₂)

theorem execMeterRequestTimeout_edits {x0 s} : ∃ d', execMeterRequestTimeout x0 s = .next { s with dev := d' } ∧ Edits 0x340040004c203 s.dev d' := by
  refine ⟨_, rfl, ?_⟩
  try dsimp only
  obtain ⟨p, d⟩ := s
  try dsimp -zeta only
  repeat' first | with_reducible exact Edits.refl _ | with_reducible assumption | (with_reducible apply Dev.count_lit_edits <;> [decide; skip]) | (with_reducible apply Dev.count_edits <;> first | with_reducible assumption | decide | (dsimp only; decide) | skip) | (with_reducible apply Dev.respond_edits <;> first | with_reducible assumption | decide | (dsimp only; decide) | skip) | with_reducible refine Edits.foldl _ (fun _ _ _ => ?_) _ ?_ | (extract_lets -merge +onlyGivenNames x; first | (refine (fun _ : Edits 0x340040004c203 d x => ?_) ?_; (on_goal 1 => clear_value x); (on_goal 2 => subst x)) | (have _h : ∃ y : Fld, y = x := ⟨x, rfl⟩; clear _h; subst x) | (have _h : ∃ y : Tsu, y = x := ⟨x, rfl⟩; clear _h; subst x) | (have _h : ∃ y : TrlRt, y = x := ⟨x, rfl⟩; clear _h; subst x) | (have _h : ∃ y : Clo, y = x := ⟨x, rfl⟩; clear _h; subst x) | (have _h : ∃ y : Face, y = x := ⟨x, rfl⟩; clear _h; subst x) | (have _h : ∃ y : HostIf, y = x := ⟨x, rfl⟩; clear _h; subst x) | (have _h : ∃ y : (_ → _), y = x := ⟨x, rfl⟩; clear _h; subst x) | clear_value x | subst x) | split | with_reducible refine Edits.upd (h := ?_)

theorem execObjectRequest_edits {x0 s} : ∃ d', execObjectRequest x0 s = .next { s with dev := d' } ∧ Edits 0x34f3e000eef4b s.dev d' := by
  refine ⟨_, rfl, ?_⟩
  try dsimp only
  obtain ⟨p, d⟩ := s
  try dsimp -zeta only
  repeat' first | with_reducible exact Edits.refl _ | with_reducible assumption | (with_reducible apply Dev.serveView_edits <;> first | with_reducible assumption | decide | (dsimp only; decide) | skip) | (with_reducible apply Dev.startDown_edits <;> first | with_reducible assumption | decide | (dsimp only; decide) | skip) | (with_reducible apply Dev.count_lit_edits <;> [decide; skip]) | (with_reducible apply Dev.respond_edits <;> first | with_reducible assumption | decide | (dsimp only; decide) | skip) | (with_reducible apply Dev.viewItems_edits; with_reducible assumption; decide) | (with_reducible apply Dev.refuse_edits <;> first | with_reducible assumption | decide | (dsimp only; decide) | skip) | (with_reducible apply Dev.viewItems_snd_edits <;> first | with_reducible assumption | decide | (dsimp only; decide) | skip) | (with_reducible apply Dev.count_edits <;> first | with_reducible assumption | decide | (dsimp only; decide) | skip) | (with_reducible apply Dev.hostCmd_edits <;> [decide; (intros; try beta_reduce); skip]) | (with_reducible apply Dev.authorise_edits; with_reducible assumption; decide) | with_reducible refine Edits.foldl _ (fun _ _ _ => ?_) _ ?_ | (extract_lets -merge +onlyGivenNames x; first | (refine (fun _ : Edits 0x34f3e000eef4b d x => ?_) ?_; (on_goal 1 => clear_value x); (on_goal 2 => subst x)) | (have _h : ∃ y : Fld, y = x := ⟨x, rfl⟩; clear _h; subst x) | (have _h : ∃ y : Tsu, y = x := ⟨x, rfl⟩; clear _h; subst x) | (have _h : ∃ y : TrlRt, y = x := ⟨x, rfl⟩; clear _h; subst x) | (have _h : ∃ y : Clo, y = x := ⟨x, rfl⟩; clear _h; subst x) | (have _h : ∃ y : Face, y = x := ⟨x, rfl⟩; clear _h; subst x) | (have _h : ∃ y : HostIf, y = x := ⟨x, rfl⟩; clear _h; subst x) | (have _h : ∃ y : (_ → _), y = x := ⟨x, rfl⟩; clear _h; subst x) | clear_value x | subst x) | split | with_reducible refine Edits.upd (h := ?_)

theorem execRingConfirm_edits {x0 x1 s} : ∃ d', execRingConfirm x0 x1 s = .next { s with dev := d' } ∧ Edits 0x760040005c003 s.dev d' := by
  refine ⟨_, rfl, ?_⟩
  try dsimp only
  obtain ⟨p, d⟩ := s
  try dsimp -zeta only
  repeat' first | with_reducible exact Edits.refl _ | with_reducible assumption | (with_reducible apply Dev.drainOverflow_edits <;> first | with_reducible assumption | decide | (dsimp only; decide) | skip) | (with_reducible apply Dev.journal_edits <;> first | with_reducible assumption | decide | (dsimp only; decide) | skip) | (with_reducible apply Dev.setReg_at_edits <;> first | with_reducible assumption | decide | (dsimp only; decide) | skip) | (with_reducible apply Dev.setReg_at2_edits <;> first | with_reducible assumption | decide | (dsimp only; decide) | skip) | (with_reducible apply Dev.setReg_edits <;> first | with_reducible assumption | decide | (dsimp only; decide) | skip) | (with_reducible apply Edits.getD <;> [(intro _ _); skip]) | with_reducible refine Edits.foldl _ (fun _ _ _ => ?_) _ ?_ | (extract_lets -merge +onlyGivenNames x; first | (refine (fun _ : Edits 0x760040005c003 d x => ?_) ?_; (on_goal 1 => clear_value x); (on_goal 2 => subst x)) | (have _h : ∃ y : Fld, y = x := ⟨x, rfl⟩; clear _h; subst x) | (have _h : ∃ y : Tsu, y = x := ⟨x, rfl⟩; clear _h; subst x) | (have _h : ∃ y : TrlRt, y = x := ⟨x, rfl⟩; clear _h; subst x) | (have _h : ∃ y : Clo, y = x := ⟨x, rfl⟩; clear _h; subst x) | (have _h : ∃ y : Face, y = x := ⟨x, rfl⟩; clear _h; subst x) | (have _h : ∃ y : HostIf, y = x := ⟨x, rfl⟩; clear _h; subst x) | (have _h : ∃ y : (_ → _), y = x := ⟨x, rfl⟩; clear _h; subst x) | clear_value x | subst x) | split | with_reducible refine Edits.upd (h := ?_)

end Sys2Proof.Machine
end

