-- ==== Sys2Proof/Laws/Ops/Uplink.lean ====
section
/-! SUPPORT. What the operations of Machine/Uplink.lean may do: the parts each touches (`Edits`), said once. -/

set_option linter.unusedTactic false
set_option linter.unreachableTactic false
set_option Elab.async false

namespace Sys2Proof.Machine

theorem Dev.csmaSeen_edits {m : Nat} {d₀ d : Dev} {x1 x2 x3} (hm : Nat.land m 0x2000000200 = 0x2000000200 := by decide)
    (h : Edits m d₀ d) : Edits m d₀ (Dev.csmaSeen d x1 x2 x3) := by
  refine Edits.andThen (t := 0x2000000200) h ?_ hm
  unfold Dev.csmaSeen
  repeat' first | with_reducible exact Edits.refl _ | with_reducible assumption | (with_reducible apply Dev.setCell_edits <;> first | with_reducible assumption | decide | (dsimp only; decide) | skip) | with_reducible refine Edits.foldl _ (fun _ _ _ => ?_) _ ?_ | (extract_lets -merge +onlyGivenNames x; first | (refine (fun _ : Edits 0x2000000200 d x => ?_) ?_; (on_goal 1 => clear_value x); (on_goal 2 => subst x)) | (have _h : ∃ y : Fld, y = x := ⟨x, rfl⟩; clear _h; subst x) | (have _h : ∃ y : Tsu, y = x := ⟨x, rfl⟩; clear _h; subst x) | (have _h : ∃ y : TrlRt, y = x := ⟨x, rfl⟩; clear _h; subst x) | (have _h : ∃ y : Clo, y = x := ⟨x, rfl⟩; clear _h; subst x) | (have _h : ∃ y : Face, y = x := ⟨x, rfl⟩; clear _h; subst x) | (have _h : ∃ y : HostIf, y = x := ⟨x, rfl⟩; clear _h; subst x) | (have _h : ∃ y : (_ → _), y = x := ⟨x, rfl⟩; clear _h; subst x) | clear_value x | subst x) | split | with_reducible refine Edits.upd (h := ?_)

theorem Dev.downlinkSent_edits {m : Nat} {d₀ d : Dev} {x1 x2 x3} (hm : Nat.land m 0x344040004c603 = 0x344040004c603 := by decide)
    (h : Edits m d₀ d) : Edits m d₀ (Dev.downlinkSent d x1 x2 x3) := by
  refine Edits.andThen (t := 0x344040004c603) h ?_ hm
  unfold Dev.downlinkSent
  repeat' first | with_reducible exact Edits.refl _ | with_reducible assumption | (with_reducible apply Dev.setMember_edits <;> first | with_reducible assumption | decide | (dsimp only; decide) | skip) | with_reducible refine Edits.foldl _ (fun _ _ _ => ?_) _ ?_ | (extract_lets -merge +onlyGivenNames x; first | (refine (fun _ : Edits 0x344040004c603 d x => ?_) ?_; (on_goal 1 => clear_value x); (on_goal 2 => subst x)) | (have _h : ∃ y : Fld, y = x := ⟨x, rfl⟩; clear _h; subst x) | (have _h : ∃ y : Tsu, y = x := ⟨x, rfl⟩; clear _h; subst x) | (have _h : ∃ y : TrlRt, y = x := ⟨x, rfl⟩; clear _h; subst x) | (have _h : ∃ y : Clo, y = x := ⟨x, rfl⟩; clear _h; subst x) | (have _h : ∃ y : Face, y = x := ⟨x, rfl⟩; clear _h; subst x) | (have _h : ∃ y : HostIf, y = x := ⟨x, rfl⟩; clear _h; subst x) | (have _h : ∃ y : (_ → _), y = x := ⟨x, rfl⟩; clear _h; subst x) | clear_value x | subst x) | split | with_reducible refine Edits.upd (h := ?_)

theorem Dev.heardBy_edits {m : Nat} {d₀ d : Dev} {x1 x2 x3} (hm : Nat.land m 0x140000004c402 = 0x140000004c402 := by decide)
    (h : Edits m d₀ d) : Edits m d₀ (Dev.heardBy d x1 x2 x3) := by
  refine Edits.andThen (t := 0x140000004c402) h ?_ hm
  unfold Dev.heardBy
  repeat' first | with_reducible exact Edits.refl _ | with_reducible assumption | (with_reducible apply Dev.setHome_edits <;> first | with_reducible assumption | decide | (dsimp only; decide) | skip) | with_reducible refine Edits.foldl _ (fun _ _ _ => ?_) _ ?_ | (extract_lets -merge +onlyGivenNames x; first | (refine (fun _ : Edits 0x140000004c402 d x => ?_) ?_; (on_goal 1 => clear_value x); (on_goal 2 => subst x)) | (have _h : ∃ y : Fld, y = x := ⟨x, rfl⟩; clear _h; subst x) | (have _h : ∃ y : Tsu, y = x := ⟨x, rfl⟩; clear _h; subst x) | (have _h : ∃ y : TrlRt, y = x := ⟨x, rfl⟩; clear _h; subst x) | (have _h : ∃ y : Clo, y = x := ⟨x, rfl⟩; clear _h; subst x) | (have _h : ∃ y : Face, y = x := ⟨x, rfl⟩; clear _h; subst x) | (have _h : ∃ y : HostIf, y = x := ⟨x, rfl⟩; clear _h; subst x) | (have _h : ∃ y : (_ → _), y = x := ⟨x, rfl⟩; clear _h; subst x) | clear_value x | subst x) | split | with_reducible refine Edits.upd (h := ?_)

theorem Dev.keyDelivered_edits {m : Nat} {d₀ d : Dev} {x1 x2} (hm : Nat.land m 0x348040004c003 = 0x348040004c003 := by decide)
    (h : Edits m d₀ d) : Edits m d₀ (Dev.keyDelivered d x1 x2) := by
  refine Edits.andThen (t := 0x348040004c003) h ?_ hm
  unfold Dev.keyDelivered
  repeat' first | with_reducible exact Edits.refl _ | with_reducible assumption | (with_reducible apply Dev.count_lit_edits <;> [decide; skip]) | (with_reducible apply Dev.count_edits <;> first | with_reducible assumption | decide | (dsimp only; decide) | skip) | (with_reducible apply Dev.journal_edits <;> first | with_reducible assumption | decide | (dsimp only; decide) | skip) | (with_reducible apply Dev.raise_at_edits <;> first | with_reducible assumption | decide | (dsimp only; decide) | skip) | (with_reducible apply Dev.raise_at2_edits <;> first | with_reducible assumption | decide | (dsimp only; decide) | skip) | (with_reducible apply Dev.raise_edits <;> first | with_reducible assumption | decide | (dsimp only; decide) | skip) | with_reducible refine Edits.foldl _ (fun _ _ _ => ?_) _ ?_ | (extract_lets -merge +onlyGivenNames x; first | (refine (fun _ : Edits 0x348040004c003 d x => ?_) ?_; (on_goal 1 => clear_value x); (on_goal 2 => subst x)) | (have _h : ∃ y : Fld, y = x := ⟨x, rfl⟩; clear _h; subst x) | (have _h : ∃ y : Tsu, y = x := ⟨x, rfl⟩; clear _h; subst x) | (have _h : ∃ y : TrlRt, y = x := ⟨x, rfl⟩; clear _h; subst x) | (have _h : ∃ y : Clo, y = x := ⟨x, rfl⟩; clear _h; subst x) | (have _h : ∃ y : Face, y = x := ⟨x, rfl⟩; clear _h; subst x) | (have _h : ∃ y : HostIf, y = x := ⟨x, rfl⟩; clear _h; subst x) | (have _h : ∃ y : (_ → _), y = x := ⟨x, rfl⟩; clear _h; subst x) | clear_value x | subst x) | split | with_reducible refine Edits.upd (h := ?_)

theorem Dev.moveWindow_edits {m : Nat} {d₀ d : Dev} {x1 x2 x3} (hm : Nat.land m 0x200 = 0x200 := by decide)
    (h : Edits m d₀ d) : Edits m d₀ (Dev.moveWindow d x1 x2 x3) := by
  refine Edits.andThen (t := 0x200) h ?_ hm
  unfold Dev.moveWindow
  repeat' first | with_reducible exact Edits.refl _ | with_reducible assumption | (with_reducible apply Dev.putWindow_edits <;> first | with_reducible assumption | decide | (dsimp only; decide) | skip) | with_reducible refine Edits.foldl _ (fun _ _ _ => ?_) _ ?_ | (extract_lets -merge +onlyGivenNames x; first | (refine (fun _ : Edits 0x200 d x => ?_) ?_; (on_goal 1 => clear_value x); (on_goal 2 => subst x)) | (have _h : ∃ y : Fld, y = x := ⟨x, rfl⟩; clear _h; subst x) | (have _h : ∃ y : Tsu, y = x := ⟨x, rfl⟩; clear _h; subst x) | (have _h : ∃ y : TrlRt, y = x := ⟨x, rfl⟩; clear _h; subst x) | (have _h : ∃ y : Clo, y = x := ⟨x, rfl⟩; clear _h; subst x) | (have _h : ∃ y : Face, y = x := ⟨x, rfl⟩; clear _h; subst x) | (have _h : ∃ y : HostIf, y = x := ⟨x, rfl⟩; clear _h; subst x) | (have _h : ∃ y : (_ → _), y = x := ⟨x, rfl⟩; clear _h; subst x) | clear_value x | subst x) | split | with_reducible refine Edits.upd (h := ?_)

theorem Dev.synced_edits {m : Nat} {d₀ d : Dev} {x1 x2} (hm : Nat.land m 0x4000 = 0x4000 := by decide)
    (h : Edits m d₀ d) : Edits m d₀ (Dev.synced d x1 x2) := by
  refine Edits.andThen (t := 0x4000) h ?_ hm
  unfold Dev.synced
  repeat' first | with_reducible exact Edits.refl _ | with_reducible assumption | with_reducible refine Edits.foldl _ (fun _ _ _ => ?_) _ ?_ | (extract_lets -merge +onlyGivenNames x; first | (refine (fun _ : Edits 0x4000 d x => ?_) ?_; (on_goal 1 => clear_value x); (on_goal 2 => subst x)) | (have _h : ∃ y : Fld, y = x := ⟨x, rfl⟩; clear _h; subst x) | (have _h : ∃ y : Tsu, y = x := ⟨x, rfl⟩; clear _h; subst x) | (have _h : ∃ y : TrlRt, y = x := ⟨x, rfl⟩; clear _h; subst x) | (have _h : ∃ y : Clo, y = x := ⟨x, rfl⟩; clear _h; subst x) | (have _h : ∃ y : Face, y = x := ⟨x, rfl⟩; clear _h; subst x) | (have _h : ∃ y : HostIf, y = x := ⟨x, rfl⟩; clear _h; subst x) | (have _h : ∃ y : (_ → _), y = x := ⟨x, rfl⟩; clear _h; subst x) | clear_value x | subst x) | split | with_reducible refine Edits.upd (h := ?_)

theorem Dev.tryAgain_edits {m : Nat} {d₀ d d' : Dev} {c : Prop} [Decidable c] {o : Order} {t : Nat} {b : Bool}
    (e : (if c then d.orderAgain o t else (false, d)) = (b, d')) (hm : Nat.land m 0x8200000230a = 0x8200000230a := by decide)
    (h : Edits m d₀ d) : Edits m d₀ d' := by
  split at e
  · exact Dev.orderAgain_edits e hm h
  · cases e
    exact h

theorem Dev.orderOutcome_edits {m : Nat} {d₀ d : Dev} {x1 x2} (hm : Nat.land m 0x34c240004e70b = 0x34c240004e70b := by decide)
    (h : Edits m d₀ d) : Edits m d₀ (Dev.orderOutcome d x1 x2) := by
  refine Edits.andThen (t := 0x34c240004e70b) h ?_ hm
  unfold Dev.orderOutcome
  extract_lets d₁ again wake
  have h₁ : Edits 0x34c240004e70b d d₁ := by
    dsimp only [d₁]
    split
    · exact Edits.ite (fun _ => Dev.keyDelivered_edits (h := Edits.refl _)) fun _ => Edits.refl _
    · exact Edits.refl _
  clear_value d₁ again wake
  split
  · rename_i d₂ _ _ _ _ _
    have h₂ : Edits 0x34c240004e70b d d₂ := by
      dsimp only [d₂]
      split
      · exact Edits.ite (fun _ => Dev.synced_edits (h := h₁)) fun _ => h₁
      · exact h₁
    clear_value d₂
    extract_lets d₃
    have h₃ : Edits 0x34c240004e70b d d₃ := Edits.ite (fun _ => Dev.count_edits (h := h₂)) fun _ => h₂
    clear_value d₃
    split
    · exact h₃
    · exact Edits.ite (fun _ => Dev.putWindow_edits (h := h₃)) fun _ => Edits.ite (fun _ => h₃) fun _ => Dev.putWindow_edits (h := h₃)
  · refine Edits.ite (fun _ => Dev.downlinkSent_edits (h := h₁)) fun _ => ?_
    split
    next e =>
      have h₂ := Dev.tryAgain_edits (m := 0x34c240004e70b) e (by decide) h₁
      refine Edits.ite (fun _ => h₂) fun _ => ?_
      extract_lets d₃
      have h₃ : Edits 0x34c240004e70b d d₃ := Edits.ite (fun _ => Dev.markDownlink_edits (h := h₂)) fun _ => h₂
      exact Edits.ite (fun _ => Dev.count_edits (h := h₃)) fun _ => h₃
  · exact Edits.ite (fun _ => h₁) fun _ => Dev.blockEnd_edits (h := h₁)
  · exact Dev.missBeacon_edits (h := h₁)
  · exact Edits.ite (fun _ => Dev.orderAgain_snd_edits (h := h₁)) fun _ => h₁
  · split
    next e =>
      have h₂ := Dev.tryAgain_edits (m := 0x34c240004e70b) e (by decide) h₁
      refine Edits.ite (fun _ => h₂) fun _ => Edits.getD (fun y e => Dev.sendTo_edits e (by decide) h₂) h₂
  all_goals exact h₁

end Sys2Proof.Machine
end

