-- ==== Sys2Proof/Laws/Ops/HostWrite.lean ====
section
/-! SUPPORT. What the operations of Machine/HostWrite.lean may do: the parts each touches (`Edits`), said once. -/

set_option linter.unusedTactic false
set_option linter.unreachableTactic false
set_option Elab.async false

namespace Sys2Proof.Machine

theorem Dev.ppsMode_edits {m : Nat} {d₀ d : Dev} {x1} (hm : Nat.land m 0x750840004c083 = 0x750840004c083 := by decide)
    (h : Edits m d₀ d) : Edits m d₀ (Dev.ppsMode d x1) := by
  refine Edits.andThen (t := 0x750840004c083) h ?_ hm
  unfold Dev.ppsMode
  repeat' first | with_reducible exact Edits.refl _ | with_reducible assumption | (with_reducible apply Dev.loseReference_edits <;> first | with_reducible assumption | decide | (dsimp only; decide) | skip) | with_reducible refine Edits.foldl _ (fun _ _ _ => ?_) _ ?_ | (extract_lets -merge +onlyGivenNames x; first | (refine (fun _ : Edits 0x750840004c083 d x => ?_) ?_; (on_goal 1 => clear_value x); (on_goal 2 => subst x)) | (have _h : ∃ y : Fld, y = x := ⟨x, rfl⟩; clear _h; subst x) | (have _h : ∃ y : Tsu, y = x := ⟨x, rfl⟩; clear _h; subst x) | (have _h : ∃ y : TrlRt, y = x := ⟨x, rfl⟩; clear _h; subst x) | (have _h : ∃ y : Clo, y = x := ⟨x, rfl⟩; clear _h; subst x) | (have _h : ∃ y : Face, y = x := ⟨x, rfl⟩; clear _h; subst x) | (have _h : ∃ y : HostIf, y = x := ⟨x, rfl⟩; clear _h; subst x) | (have _h : ∃ y : (_ → _), y = x := ⟨x, rfl⟩; clear _h; subst x) | clear_value x | subst x) | split | with_reducible refine Edits.upd (h := ?_)

theorem Dev.ppsStart_edits {m : Nat} {d₀ d : Dev} {x1} (hm : Nat.land m 0x750840004c083 = 0x750840004c083 := by decide)
    (h : Edits m d₀ d) : Edits m d₀ (Dev.ppsStart d x1) := by
  refine Edits.andThen (t := 0x750840004c083) h ?_ hm
  unfold Dev.ppsStart
  repeat' first | with_reducible exact Edits.refl _ | with_reducible assumption | (with_reducible apply Dev.acquire_edits <;> first | with_reducible assumption | decide | (dsimp only; decide) | skip) | with_reducible refine Edits.foldl _ (fun _ _ _ => ?_) _ ?_ | (extract_lets -merge +onlyGivenNames x; first | (refine (fun _ : Edits 0x750840004c083 d x => ?_) ?_; (on_goal 1 => clear_value x); (on_goal 2 => subst x)) | (have _h : ∃ y : Fld, y = x := ⟨x, rfl⟩; clear _h; subst x) | (have _h : ∃ y : Tsu, y = x := ⟨x, rfl⟩; clear _h; subst x) | (have _h : ∃ y : TrlRt, y = x := ⟨x, rfl⟩; clear _h; subst x) | (have _h : ∃ y : Clo, y = x := ⟨x, rfl⟩; clear _h; subst x) | (have _h : ∃ y : Face, y = x := ⟨x, rfl⟩; clear _h; subst x) | (have _h : ∃ y : HostIf, y = x := ⟨x, rfl⟩; clear _h; subst x) | (have _h : ∃ y : (_ → _), y = x := ⟨x, rfl⟩; clear _h; subst x) | clear_value x | subst x) | split | with_reducible refine Edits.upd (h := ?_)

theorem Dev.clearGrid_edits {m : Nat} {d₀ d : Dev} {r : RegD} (hx : atOk m r.off = true := by decide)
    (h : Edits m d₀ d) : Edits m d₀ (d.clearGrid r) :=
  Edits.foldl _ (fun _ _ h => Edits.foldl _ (fun _ _ => Dev.setReg_edits (regBit_at (RegD.at2_block _ _ _) hx)) _ h) _ h

theorem Dev.cloIssue_edits {m : Nat} {d₀ d : Dev} {x1 x2} (hm : Nat.land m 0x20000 = 0x20000 := by decide)
    (h : Edits m d₀ d) : Edits m d₀ (Dev.cloIssue d x1 x2) := by
  refine Edits.andThen (t := 0x20000) h ?_ hm
  unfold Dev.cloIssue
  repeat' first | with_reducible exact Edits.refl _ | with_reducible assumption | with_reducible refine Edits.foldl _ (fun _ _ _ => ?_) _ ?_ | (extract_lets -merge +onlyGivenNames x; first | (refine (fun _ : Edits 0x20000 d x => ?_) ?_; (on_goal 1 => clear_value x); (on_goal 2 => subst x)) | (have _h : ∃ y : Fld, y = x := ⟨x, rfl⟩; clear _h; subst x) | (have _h : ∃ y : Tsu, y = x := ⟨x, rfl⟩; clear _h; subst x) | (have _h : ∃ y : TrlRt, y = x := ⟨x, rfl⟩; clear _h; subst x) | (have _h : ∃ y : Clo, y = x := ⟨x, rfl⟩; clear _h; subst x) | (have _h : ∃ y : Face, y = x := ⟨x, rfl⟩; clear _h; subst x) | (have _h : ∃ y : HostIf, y = x := ⟨x, rfl⟩; clear _h; subst x) | (have _h : ∃ y : (_ → _), y = x := ⟨x, rfl⟩; clear _h; subst x) | clear_value x | subst x) | split | with_reducible refine Edits.upd (h := ?_)

theorem Dev.gpioOut_edits {m : Nat} {d₀ d : Dev} {x1} (hm : Nat.land m 0x2 = 0x2 := by decide)
    (h : Edits m d₀ d) : Edits m d₀ (Dev.gpioOut d x1) := by
  refine Edits.andThen (t := 0x2) h ?_ hm
  unfold Dev.gpioOut
  repeat' first | with_reducible exact Edits.refl _ | with_reducible assumption | (with_reducible apply Dev.emit_edits <;> first | with_reducible assumption | decide | (dsimp only; decide) | skip) | with_reducible refine Edits.foldl _ (fun _ _ _ => ?_) _ ?_ | (extract_lets -merge +onlyGivenNames x; first | (refine (fun _ : Edits 0x2 d x => ?_) ?_; (on_goal 1 => clear_value x); (on_goal 2 => subst x)) | (have _h : ∃ y : Fld, y = x := ⟨x, rfl⟩; clear _h; subst x) | (have _h : ∃ y : Tsu, y = x := ⟨x, rfl⟩; clear _h; subst x) | (have _h : ∃ y : TrlRt, y = x := ⟨x, rfl⟩; clear _h; subst x) | (have _h : ∃ y : Clo, y = x := ⟨x, rfl⟩; clear _h; subst x) | (have _h : ∃ y : Face, y = x := ⟨x, rfl⟩; clear _h; subst x) | (have _h : ∃ y : HostIf, y = x := ⟨x, rfl⟩; clear _h; subst x) | (have _h : ∃ y : (_ → _), y = x := ⟨x, rfl⟩; clear _h; subst x) | clear_value x | subst x) | split | with_reducible refine Edits.upd (h := ?_)

theorem Dev.irqWrite_edits {m : Nat} {d₀ d : Dev} {ring : Nat} (hm : Nat.land m 3 = 3 := by decide)
    (h : Edits m d₀ d) : Edits m d₀ (d.irqWrite ring) :=
  Edits.ite (fun _ => h) (fun _ => Edits.updFace (Face.signal_edits hm (FEdits.refl _)) h)

theorem Dev.limitWrite_edits {m : Nat} {d₀ d : Dev} {x1} (hm : Nat.land m 0x1 = 0x1 := by decide)
    (h : Edits m d₀ d) : Edits m d₀ (Dev.limitWrite d x1) := by
  refine Edits.andThen (t := 0x1) h ?_ hm
  unfold Dev.limitWrite
  repeat' first | with_reducible exact Edits.refl _ | with_reducible assumption | (with_reducible apply Edits.getD <;> [(intro _ _); skip]) | with_reducible refine Edits.foldl _ (fun _ _ _ => ?_) _ ?_ | (extract_lets -merge +onlyGivenNames x; first | (refine (fun _ : Edits 0x1 d x => ?_) ?_; (on_goal 1 => clear_value x); (on_goal 2 => subst x)) | (have _h : ∃ y : Fld, y = x := ⟨x, rfl⟩; clear _h; subst x) | (have _h : ∃ y : Tsu, y = x := ⟨x, rfl⟩; clear _h; subst x) | (have _h : ∃ y : TrlRt, y = x := ⟨x, rfl⟩; clear _h; subst x) | (have _h : ∃ y : Clo, y = x := ⟨x, rfl⟩; clear _h; subst x) | (have _h : ∃ y : Face, y = x := ⟨x, rfl⟩; clear _h; subst x) | (have _h : ∃ y : HostIf, y = x := ⟨x, rfl⟩; clear _h; subst x) | (have _h : ∃ y : (_ → _), y = x := ⟨x, rfl⟩; clear _h; subst x) | clear_value x | subst x) | split | with_reducible refine Edits.upd (h := ?_)

theorem Dev.msixWrite_edits {m : Nat} {d₀ d : Dev} {x1 x2} (hm : Nat.land m 0x3 = 0x3 := by decide)
    (h : Edits m d₀ d) : Edits m d₀ (Dev.msixWrite d x1 x2) := by
  refine Edits.andThen (t := 0x3) h ?_ hm
  unfold Dev.msixWrite
  repeat' first | with_reducible exact Edits.refl _ | with_reducible assumption | (with_reducible apply Dev.unmask_edits <;> first | with_reducible assumption | decide | (dsimp only; decide) | skip) | (with_reducible apply Edits.getD <;> [(intro _ _); skip]) | with_reducible refine Edits.foldl _ (fun _ _ _ => ?_) _ ?_ | (extract_lets -merge +onlyGivenNames x; first | (refine (fun _ : Edits 0x3 d x => ?_) ?_; (on_goal 1 => clear_value x); (on_goal 2 => subst x)) | (have _h : ∃ y : Fld, y = x := ⟨x, rfl⟩; clear _h; subst x) | (have _h : ∃ y : Tsu, y = x := ⟨x, rfl⟩; clear _h; subst x) | (have _h : ∃ y : TrlRt, y = x := ⟨x, rfl⟩; clear _h; subst x) | (have _h : ∃ y : Clo, y = x := ⟨x, rfl⟩; clear _h; subst x) | (have _h : ∃ y : Face, y = x := ⟨x, rfl⟩; clear _h; subst x) | (have _h : ∃ y : HostIf, y = x := ⟨x, rfl⟩; clear _h; subst x) | (have _h : ∃ y : (_ → _), y = x := ⟨x, rfl⟩; clear _h; subst x) | clear_value x | subst x) | split | with_reducible refine Edits.upd (h := ?_)

theorem Dev.rtWrite_edits {m : Nat} {d₀ d : Dev} {x1 x2} (hm : Nat.land m 0x200000010000 = 0x200000010000 := by decide)
    (h : Edits m d₀ d) : Edits m d₀ (Dev.rtWrite d x1 x2) := by
  refine Edits.andThen (t := 0x200000010000) h ?_ hm
  unfold Dev.rtWrite
  repeat' first | with_reducible exact Edits.refl _ | with_reducible assumption | (with_reducible apply Dev.set_at_edits <;> first | with_reducible assumption | decide | (dsimp only; decide) | skip) | (with_reducible apply Dev.set_at2_edits <;> first | with_reducible assumption | decide | (dsimp only; decide) | skip) | (with_reducible apply Dev.set_edits <;> first | with_reducible assumption | decide | (dsimp only; decide) | skip) | (with_reducible apply Edits.getD <;> [(intro _ _); skip]) | with_reducible refine Edits.foldl _ (fun _ _ _ => ?_) _ ?_ | (extract_lets -merge +onlyGivenNames x; first | (refine (fun _ : Edits 0x200000010000 d x => ?_) ?_; (on_goal 1 => clear_value x); (on_goal 2 => subst x)) | (have _h : ∃ y : Fld, y = x := ⟨x, rfl⟩; clear _h; subst x) | (have _h : ∃ y : Tsu, y = x := ⟨x, rfl⟩; clear _h; subst x) | (have _h : ∃ y : TrlRt, y = x := ⟨x, rfl⟩; clear _h; subst x) | (have _h : ∃ y : Clo, y = x := ⟨x, rfl⟩; clear _h; subst x) | (have _h : ∃ y : Face, y = x := ⟨x, rfl⟩; clear _h; subst x) | (have _h : ∃ y : HostIf, y = x := ⟨x, rfl⟩; clear _h; subst x) | (have _h : ∃ y : (_ → _), y = x := ⟨x, rfl⟩; clear _h; subst x) | clear_value x | subst x) | split | with_reducible refine Edits.upd (h := ?_)

theorem Dev.wrote_edits {m : Nat} {d₀ d : Dev} {x1 x2 x3} (hm : Nat.land m 0x750a4001cc283 = 0x750a4001cc283 := by decide)
    (h : Edits m d₀ d) : Edits m d₀ (Dev.wrote d x1 x2 x3) := by
  refine Edits.andThen (t := 0x750a4001cc283) h ?_ hm
  unfold Dev.wrote
  refine Edits.ite (fun _ => Dev.showHead_edits (h := Edits.refl _)) fun _ => ?_
  refine Edits.ite (fun _ => Edits.foldl _ (fun _ _ h => Dev.judgeHead_edits (h := h)) _ (Dev.showHead_edits (h := Edits.refl _))) fun _ => ?_
  refine Edits.ite (fun _ => Edits.foldl _ (fun _ _ h => Dev.judgeSlot_edits (h := h)) _ (Edits.refl _)) fun _ => ?_
  refine Edits.ite (fun _ => Edits.ite (fun _ => Edits.refl _) fun _ => Dev.schedChange_edits (h := Edits.refl _)) fun _ => ?_
  refine Edits.ite (fun _ => Dev.recalibrate_edits (h := Edits.refl _)) fun _ => ?_
  refine Edits.ite (fun _ => Dev.pinBcast_edits (h := Edits.refl _)) fun _ => ?_
  refine Edits.ite (fun _ => Edits.upd (h := Edits.refl _)) fun _ => ?_
  refine Edits.ite (fun _ => Dev.ppsStart_edits (h := Dev.bmca_edits (h := Dev.ppsMode_edits (h := Edits.refl _)))) fun _ => ?_
  refine Edits.ite (fun _ => Dev.bmca_edits (h := Edits.refl _)) fun _ => ?_
  refine Edits.ite (fun _ => Dev.irqWrite_edits (h := Edits.refl _)) fun _ => ?_
  refine Edits.ite (fun _ => Dev.drainCheck_edits (h := Edits.refl _)) fun _ => ?_
  refine Edits.ite (fun _ => Dev.drainCheck_edits (h := Edits.refl _)) fun _ => ?_
  exact Edits.ite (fun _ => Dev.gpioOut_edits (h := Edits.refl _)) fun _ => Edits.refl _

theorem Dev.typedWrite_edits {m : Nat} {d₀ d : Dev} {r : RegD} {off : Nat} {v : Word}
    (hx : m.testBit (regBit off) = true)
    (hm : Nat.land m 0x750a6001cc283 = 0x750a6001cc283 := by decide) (h : Edits m d₀ d) : Edits m d₀ (d.typedWrite r off v) := by
  unfold Dev.typedWrite
  extract_lets -merge +onlyGivenNames old tried d₁ d₂
  have h₁ : Edits m d₀ d₁ := Dev.setReg_edits hx h
  have h₂ : Edits m d₀ d₂ := by
    show Edits m d₀ (if _ then _ else _)
    split
    · exact Dev.raise_edits (sub_bit hm (by decide)) (sub_trans hm (by decide)) h₁
    · exact h₁
  exact Dev.wrote_edits (sub_trans hm (by decide)) h₂

theorem Dev.utcWrite_edits {m : Nat} {d₀ d : Dev} {x1 x2} (hm : Nat.land m 0x100000000000 = 0x100000000000 := by decide)
    (h : Edits m d₀ d) : Edits m d₀ (Dev.utcWrite d x1 x2) := by
  refine Edits.andThen (t := 0x100000000000) h ?_ hm
  unfold Dev.utcWrite
  repeat' first | with_reducible exact Edits.refl _ | with_reducible assumption | (with_reducible apply Dev.set_at_edits <;> first | with_reducible assumption | decide | (dsimp only; decide) | skip) | (with_reducible apply Dev.set_at2_edits <;> first | with_reducible assumption | decide | (dsimp only; decide) | skip) | (with_reducible apply Dev.set_edits <;> first | with_reducible assumption | decide | (dsimp only; decide) | skip) | with_reducible refine Edits.foldl _ (fun _ _ _ => ?_) _ ?_ | (extract_lets -merge +onlyGivenNames x; first | (refine (fun _ : Edits 0x100000000000 d x => ?_) ?_; (on_goal 1 => clear_value x); (on_goal 2 => subst x)) | (have _h : ∃ y : Fld, y = x := ⟨x, rfl⟩; clear _h; subst x) | (have _h : ∃ y : Tsu, y = x := ⟨x, rfl⟩; clear _h; subst x) | (have _h : ∃ y : TrlRt, y = x := ⟨x, rfl⟩; clear _h; subst x) | (have _h : ∃ y : Clo, y = x := ⟨x, rfl⟩; clear _h; subst x) | (have _h : ∃ y : Face, y = x := ⟨x, rfl⟩; clear _h; subst x) | (have _h : ∃ y : HostIf, y = x := ⟨x, rfl⟩; clear _h; subst x) | (have _h : ∃ y : (_ → _), y = x := ⟨x, rfl⟩; clear _h; subst x) | clear_value x | subst x) | split | with_reducible refine Edits.upd (h := ?_)

end Sys2Proof.Machine
end

