-- ==== Sys2Proof/Laws/Exec/HostWrite.lean ====
section
/-! SUPPORT. What the commands of Machine/HostWrite.lean may do: each completes and touches only the parts of its mask (`Edits`). -/

set_option linter.unusedTactic false
set_option linter.unreachableTactic false
set_option Elab.async false

namespace Sys2Proof.Machine

theorem all_ite {α : Type} {P : α → Prop} {c : Prop} [Decidable c] {l l' : List α} (h : ∀ x ∈ l, P x) (h' : ∀ x ∈ l', P x) :
    ∀ x ∈ (if c then l else l'), P x := by
  split
  · exact h
  · exact h'

theorem execCounterClear_edits {x0 x1 s} : ∃ d', execCounterClear x0 x1 s = .next { s with dev := d' } ∧ Edits 0xffffe80000100 s.dev d' := by
  refine ⟨_, rfl, Edits.ite (fun _ => Edits.refl _) fun _ => Edits.ite (fun _ => ?_) fun _ => Edits.ite (fun _ => ?_) fun _ => Edits.ite (fun _ => ?_) fun _ => ?_⟩
  · exact Edits.ite (fun _ => Dev.clearGrid_edits (h := Dev.clearGrid_edits (h := Edits.refl _))) fun _ => Edits.refl _
  · exact Edits.foldl _ (fun _ _ hd => Dev.setReg_at2_edits (h := hd)) _ (Edits.refl _)
  · exact Dev.setEth_edits (h := Edits.refl _)
  · have hr : ∀ r ∈ clearedBy x0, atOk 0xffffe80000100 r.off = true := by
      unfold clearedBy
      iterate 14 refine all_ite (by decide) ?_
      decide
    suffices ∀ (l : List RegD) (d : Dev), (∀ r ∈ l, atOk 0xffffe80000100 r.off = true) → Edits 0xffffe80000100 s.dev d →
        Edits 0xffffe80000100 s.dev (l.foldl Dev.clearGrid d) from this _ _ hr (Edits.refl _)
    intro l
    induction l with
    | nil => exact fun _ _ h => h
    | cons r l ih => exact fun d hl h => ih _ (fun q hq => hl q (List.mem_cons_of_mem _ hq)) (Dev.clearGrid_edits (hl r List.mem_cons_self) h)

theorem regBit_all (off : Nat) (h : off < 0x400000) : Nat.testBit 0xffffffffffffffff801fc283 (regBit off) = true := by
  have hb : ∀ b < 64, Nat.testBit 0xffffffffffffffff801fc283 (32 + b) = true := by decide
  unfold regBit
  split
  · decide
  · exact hb _ (by omega)

theorem execRegisterWrite_edits {x0 x1 x2 s} : ∃ d', execRegisterWrite x0 x1 x2 s = .next { s with dev := d' } ∧ Edits 0xffffffffffffffff801fc283 s.dev d' := by
  refine ⟨_, rfl, ?_⟩
  dsimp -zeta only
  extract_lets off
  have ho : off < 0x400000 := by omega
  refine Edits.ite (fun _ => Edits.refl _) fun _ => ?_
  refine Edits.ite (fun _ => Dev.occur_edits (h := Dev.count_edits (h := Edits.refl _))) fun _ => ?_
  refine Edits.ite (fun _ => Edits.ite (fun _ => Dev.msixWrite_edits (h := Edits.refl _)) fun _ => Edits.refl _) fun _ => ?_
  refine Edits.ite (fun _ => Dev.cloIssue_edits (h := Edits.refl _)) fun _ => ?_
  refine Edits.ite (fun _ => Dev.occur_edits (h := Edits.refl _)) fun _ => ?_
  refine Edits.ite (fun _ => Edits.refl _) fun _ => ?_
  refine Edits.ite (fun _ => Dev.rtWrite_edits (h := Edits.refl _)) fun _ => ?_
  refine Edits.ite (fun _ => Dev.rtWrite_edits (h := Edits.refl _)) fun _ => ?_
  refine Edits.ite (fun _ => Dev.limitWrite_edits (h := Edits.refl _)) fun _ => ?_
  refine Edits.ite (fun _ => Edits.refl _) fun _ => ?_
  refine Edits.ite (fun _ => Dev.bmca_edits (h := Dev.utcWrite_edits (h := Edits.refl _))) fun _ => ?_
  split
  · exact Edits.refl _
  · refine Edits.ite (fun _ => Dev.msrEnable_edits (h := Dev.typedWrite_edits (regBit_all off ho) (h := Edits.refl _))) fun _ => Dev.typedWrite_edits (regBit_all off ho) (h := Edits.refl _)

end Sys2Proof.Machine
end

