-- ==== Sys2Proof/Laws/Exec/Uplink.lean ====
section
/-! SUPPORT. What the commands of Machine/Uplink.lean may do: each completes and touches only the parts of its mask (`Edits`). -/

set_option linter.unusedTactic false
set_option linter.unreachableTactic false
set_option Elab.async false

namespace Sys2Proof.Machine

theorem execCcaBusy_edits {x0 x1 x2 x3 s} : ∃ d', execCcaBusy x0 x1 x2 x3 s = .next { s with dev := d' } ∧ Edits 0xb4c240004e70b s.dev d' := by
  refine ⟨_, rfl, ?_⟩
  try dsimp only
  obtain ⟨p, d⟩ := s
  try dsimp -zeta only
  repeat' first | with_reducible exact Edits.refl _ | with_reducible assumption | (with_reducible apply Dev.count_lit_edits <;> [decide; skip]) | (with_reducible apply Dev.count_edits <;> first | with_reducible assumption | decide | (dsimp only; decide) | skip) | (with_reducible apply Dev.csmaSeen_edits <;> first | with_reducible assumption | decide | (dsimp only; decide) | skip) | (with_reducible apply Dev.dropOrder_edits <;> first | with_reducible assumption | decide | (dsimp only; decide) | skip) | (with_reducible apply Dev.hlpIn_edits <;> [decide; (intros; try beta_reduce); skip]) | (with_reducible apply Dev.orderOutcome_edits <;> first | with_reducible assumption | decide | (dsimp only; decide) | skip) | with_reducible refine Edits.foldl _ (fun _ _ _ => ?_) _ ?_ | (extract_lets -merge +onlyGivenNames x; first | (refine (fun _ : Edits 0xb4c240004e70b d x => ?_) ?_; (on_goal 1 => clear_value x); (on_goal 2 => subst x)) | (have _h : ∃ y : Fld, y = x := ⟨x, rfl⟩; clear _h; subst x) | (have _h : ∃ y : Tsu, y = x := ⟨x, rfl⟩; clear _h; subst x) | (have _h : ∃ y : TrlRt, y = x := ⟨x, rfl⟩; clear _h; subst x) | (have _h : ∃ y : Clo, y = x := ⟨x, rfl⟩; clear _h; subst x) | (have _h : ∃ y : Face, y = x := ⟨x, rfl⟩; clear _h; subst x) | (have _h : ∃ y : HostIf, y = x := ⟨x, rfl⟩; clear _h; subst x) | (have _h : ∃ y : (_ → _), y = x := ⟨x, rfl⟩; clear _h; subst x) | clear_value x | subst x) | split | with_reducible refine Edits.upd (h := ?_)

theorem execRxReport_edits {x0 x1 x2 x3 s} : ∃ d', execRxReport x0 x1 x2 x3 s = .next { s with dev := d' } ∧ Edits 0xb4f3f000eef6b s.dev d' := by
  refine ⟨_, rfl, Dev.hlpIn_edits (hf := fun a b d hd => ?_) (h := Edits.refl _)⟩
  extract_lets +onlyGivenNames len mode bus
  refine Edits.ite (fun _ => hd) fun _ => ?_
  extract_lets +onlyGivenNames sfd rate rssi end_ d1
  have h1 : Edits 0xb4f3f000eef6b s.dev d1 := Edits.ite (fun _ => Dev.account_edits (h := hd)) fun _ => hd
  clear_value d1
  split
  · exact h1
  extract_lets +onlyGivenNames meter d2 same
  have h2 : Edits 0xb4f3f000eef6b s.dev d2 := by
    show Edits _ _ (match meter with | some m => _ | none => _)
    cases meter
    · exact h1
    · exact Dev.heardBy_edits (h := h1)
  clear_value d2
  split
  · exact Dev.moveWindow_edits (h := Dev.count_edits (h := h2))
  · extract_lets +onlyGivenNames fresh this live fhm d3 d4 d5
    have h3 : Edits 0xb4f3f000eef6b s.dev d3 := Edits.upd (h := h2)
    have h4 : Edits 0xb4f3f000eef6b s.dev d4 := Edits.ite (fun _ => h3) fun _ => Dev.markSlot_edits (h := h3)
    have h5 : Edits 0xb4f3f000eef6b s.dev d5 := Edits.ite (fun _ => h4) fun _ => Dev.putWindow_edits (h := h4)
    clear_value d5
    exact Dev.stage_edits (h := h5)

theorem execTxConfirm_edits {x0 x1 x2 x3 s} : ∃ d', execTxConfirm x0 x1 x2 x3 s = .next { s with dev := d' } ∧ Edits 0xb4c240004e70b s.dev d' := by
  refine ⟨_, rfl, ?_⟩
  try dsimp only
  obtain ⟨p, d⟩ := s
  try dsimp -zeta only
  repeat' first | with_reducible exact Edits.refl _ | with_reducible assumption | (with_reducible apply Dev.count_lit_edits <;> [decide; skip]) | (with_reducible apply Dev.count_edits <;> first | with_reducible assumption | decide | (dsimp only; decide) | skip) | (with_reducible apply Dev.csmaSeen_edits <;> first | with_reducible assumption | decide | (dsimp only; decide) | skip) | (with_reducible apply Dev.dropOrder_edits <;> first | with_reducible assumption | decide | (dsimp only; decide) | skip) | (with_reducible apply Dev.hlpIn_edits <;> [decide; (intros; try beta_reduce); skip]) | (with_reducible apply Dev.judgeHead_edits <;> first | with_reducible assumption | decide | (dsimp only; decide) | skip) | (with_reducible apply Dev.orderOutcome_edits <;> first | with_reducible assumption | decide | (dsimp only; decide) | skip) | (with_reducible apply Dev.setHead_edits <;> first | with_reducible assumption | decide | (dsimp only; decide) | skip) | (with_reducible apply Dev.headTo_edits <;> first | with_reducible assumption | decide | (dsimp only; decide) | skip) | with_reducible refine Edits.foldl _ (fun _ _ _ => ?_) _ ?_ | (extract_lets -merge +onlyGivenNames x; first | (refine (fun _ : Edits 0xb4c240004e70b d x => ?_) ?_; (on_goal 1 => clear_value x); (on_goal 2 => subst x)) | (have _h : ∃ y : Fld, y = x := ⟨x, rfl⟩; clear _h; subst x) | (have _h : ∃ y : Tsu, y = x := ⟨x, rfl⟩; clear _h; subst x) | (have _h : ∃ y : TrlRt, y = x := ⟨x, rfl⟩; clear _h; subst x) | (have _h : ∃ y : Clo, y = x := ⟨x, rfl⟩; clear _h; subst x) | (have _h : ∃ y : Face, y = x := ⟨x, rfl⟩; clear _h; subst x) | (have _h : ∃ y : HostIf, y = x := ⟨x, rfl⟩; clear _h; subst x) | (have _h : ∃ y : (_ → _), y = x := ⟨x, rfl⟩; clear _h; subst x) | clear_value x | subst x) | split | with_reducible refine Edits.upd (h := ?_)

theorem execTxConfirmDeadline_edits {x0 x1 s} : ∃ d', execTxConfirmDeadline x0 x1 s = .next { s with dev := d' } ∧ Edits 0x34c240004e70b s.dev d' := by
  refine ⟨_, rfl, ?_⟩
  try dsimp only
  obtain ⟨p, d⟩ := s
  try dsimp -zeta only
  repeat' first | with_reducible exact Edits.refl _ | with_reducible assumption | (with_reducible apply Dev.dropOrder_edits <;> first | with_reducible assumption | decide | (dsimp only; decide) | skip) | (with_reducible apply Dev.orderOutcome_edits <;> first | with_reducible assumption | decide | (dsimp only; decide) | skip) | with_reducible refine Edits.foldl _ (fun _ _ _ => ?_) _ ?_ | (extract_lets -merge +onlyGivenNames x; first | (refine (fun _ : Edits 0x34c240004e70b d x => ?_) ?_; (on_goal 1 => clear_value x); (on_goal 2 => subst x)) | (have _h : ∃ y : Fld, y = x := ⟨x, rfl⟩; clear _h; subst x) | (have _h : ∃ y : Tsu, y = x := ⟨x, rfl⟩; clear _h; subst x) | (have _h : ∃ y : TrlRt, y = x := ⟨x, rfl⟩; clear _h; subst x) | (have _h : ∃ y : Clo, y = x := ⟨x, rfl⟩; clear _h; subst x) | (have _h : ∃ y : Face, y = x := ⟨x, rfl⟩; clear _h; subst x) | (have _h : ∃ y : HostIf, y = x := ⟨x, rfl⟩; clear _h; subst x) | (have _h : ∃ y : (_ → _), y = x := ⟨x, rfl⟩; clear _h; subst x) | clear_value x | subst x) | split | with_reducible refine Edits.upd (h := ?_)

end Sys2Proof.Machine
end

