-- ==== Sys2Proof/Laws/Ops/State.lean ====
section
/-! SUPPORT. What the operations of Machine/State.lean may do: the parts each touches (`Edits`), said once. -/

set_option linter.unusedTactic false
set_option linter.unreachableTactic false
set_option Elab.async false

namespace Sys2Proof.Machine

-- TODO State.dev

end Sys2Proof.Machine
end

