-- ==== Sys2Proof/Laws/Ops/Tick.lean ====
section
/-! SUPPORT. What the operations of Machine/Tick.lean may do: the parts each touches (`Edits`), said once. -/

set_option linter.unusedTactic false
set_option linter.unreachableTactic false
set_option Elab.async false

namespace Sys2Proof.Machine

theorem Dev.tick_edits {m : Nat} {d₀ d : Dev} (hm : Nat.land m 0x74f3e800ffe8f = 0x74f3e800ffe8f := by decide)
    (h : Edits m d₀ d) : Edits m d₀ d.tick := by
  refine Edits.andThen (t := 0x74f3e800ffe8f) h ?_ hm
  unfold Dev.tick
  extract_lets -merge +onlyGivenNames n f d₁ d₂
  have h₁ : Edits 0x74f3e800ffe8f d d₁ := Edits.upd (hface := ⟨fun _ _ => .inr rfl, id, .inr rfl, .inr rfl, [], rfl⟩) (h := Edits.refl _)
  have hv : ∀ (c : Clo) (t : Int), (c.tick t).vault = c.vault := fun c t => by
    simp only [Clo.tick]
    repeat' split
    all_goals rfl
  have h₂ : Edits 0x74f3e800ffe8f d d₂ :=
    Edits.ite (fun _ => Edits.upd (hclo := .inr ⟨by decide, fun h => (hv _ _).symm ▸ h⟩) (h := h₁)) (fun _ => h₁)
  clear_value d₂
  exact Edits.ite (fun _ => h₂) fun _ =>
    Dev.handoverCheck_edits (h := Edits.upd (htsu := .inr ⟨by decide, fun _ => Tsu.inRange_advance _ _⟩) (h := h₂))

end Sys2Proof.Machine
end

