-- ==== Sys2Proof/Laws/State.lean ====
section
/-! SUPPORT. What the primitive updates of a device leave of its components, one lemma per field per update. -/

namespace Sys2Proof.Machine

/-! ## setReg -/

@[simp] theorem Dev.setReg_cycles (d : Dev) (off : Nat) (w : Word) : (d.setReg off w).cycles = d.cycles := rfl
@[simp] theorem Dev.setReg_free (d : Dev) (off : Nat) (w : Word) : (d.setReg off w).free = d.free := rfl
@[simp] theorem Dev.setReg_lastRead (d : Dev) (off : Nat) (w : Word) : (d.setReg off w).lastRead = d.lastRead := rfl
@[simp] theorem Dev.setReg_glb (d : Dev) (off : Nat) (w : Word) : (d.setReg off w).glb = d.glb := rfl
@[simp] theorem Dev.setReg_trl (d : Dev) (off : Nat) (w : Word) : (d.setReg off w).trl = d.trl := rfl
@[simp] theorem Dev.setReg_tsu (d : Dev) (off : Nat) (w : Word) : (d.setReg off w).tsu = d.tsu := rfl
@[simp] theorem Dev.setReg_eth (d : Dev) (off : Nat) (w : Word) : (d.setReg off w).eth = d.eth := rfl
@[simp] theorem Dev.setReg_fhm (d : Dev) (off : Nat) (w : Word) : (d.setReg off w).fhm = d.fhm := rfl
@[simp] theorem Dev.setReg_dst (d : Dev) (off : Nat) (w : Word) : (d.setReg off w).dst = d.dst := rfl
@[simp] theorem Dev.setReg_eng (d : Dev) (off : Nat) (w : Word) : (d.setReg off w).eng = d.eng := rfl
@[simp] theorem Dev.setReg_bil (d : Dev) (off : Nat) (w : Word) : (d.setReg off w).bil = d.bil := rfl
@[simp] theorem Dev.setReg_key (d : Dev) (off : Nat) (w : Word) : (d.setReg off w).key = d.key := rfl
@[simp] theorem Dev.setReg_dur (d : Dev) (off : Nat) (w : Word) : (d.setReg off w).dur = d.dur := rfl
@[simp] theorem Dev.setReg_jnl (d : Dev) (off : Nat) (w : Word) : (d.setReg off w).jnl = d.jnl := rfl
@[simp] theorem Dev.setReg_nfm (d : Dev) (off : Nat) (w : Word) : (d.setReg off w).nfm = d.nfm := rfl
@[simp] theorem Dev.setReg_clo (d : Dev) (off : Nat) (w : Word) : (d.setReg off w).clo = d.clo := rfl
@[simp] theorem Dev.setReg_prl (d : Dev) (off : Nat) (w : Word) : (d.setReg off w).prl = d.prl := rfl
@[simp] theorem Dev.setReg_zxp (d : Dev) (off : Nat) (w : Word) : (d.setReg off w).zxp = d.zxp := rfl
@[simp] theorem Dev.setReg_msr (d : Dev) (off : Nat) (w : Word) : (d.setReg off w).msr = d.msr := rfl
@[simp] theorem Dev.setReg_face_hst (d : Dev) (off : Nat) (w : Word) : (d.setReg off w).face.hst = d.face.hst := rfl
@[simp] theorem Dev.setReg_face_out (d : Dev) (off : Nat) (w : Word) : (d.setReg off w).face.out = d.face.out := rfl
@[simp] theorem Dev.setReg_face_counted (d : Dev) (off : Nat) (w : Word) : (d.setReg off w).face.counted = d.face.counted := rfl

/-! ## set -/

@[simp] theorem Dev.set_cycles (d : Dev) (x : Fld) (v : Nat) : (d.set x v).cycles = d.cycles := rfl
@[simp] theorem Dev.set_free (d : Dev) (x : Fld) (v : Nat) : (d.set x v).free = d.free := rfl
@[simp] theorem Dev.set_lastRead (d : Dev) (x : Fld) (v : Nat) : (d.set x v).lastRead = d.lastRead := rfl
@[simp] theorem Dev.set_glb (d : Dev) (x : Fld) (v : Nat) : (d.set x v).glb = d.glb := rfl
@[simp] theorem Dev.set_trl (d : Dev) (x : Fld) (v : Nat) : (d.set x v).trl = d.trl := rfl
@[simp] theorem Dev.set_tsu (d : Dev) (x : Fld) (v : Nat) : (d.set x v).tsu = d.tsu := rfl
@[simp] theorem Dev.set_eth (d : Dev) (x : Fld) (v : Nat) : (d.set x v).eth = d.eth := rfl
@[simp] theorem Dev.set_fhm (d : Dev) (x : Fld) (v : Nat) : (d.set x v).fhm = d.fhm := rfl
@[simp] theorem Dev.set_dst (d : Dev) (x : Fld) (v : Nat) : (d.set x v).dst = d.dst := rfl
@[simp] theorem Dev.set_eng (d : Dev) (x : Fld) (v : Nat) : (d.set x v).eng = d.eng := rfl
@[simp] theorem Dev.set_bil (d : Dev) (x : Fld) (v : Nat) : (d.set x v).bil = d.bil := rfl
@[simp] theorem Dev.set_key (d : Dev) (x : Fld) (v : Nat) : (d.set x v).key = d.key := rfl
@[simp] theorem Dev.set_dur (d : Dev) (x : Fld) (v : Nat) : (d.set x v).dur = d.dur := rfl
@[simp] theorem Dev.set_jnl (d : Dev) (x : Fld) (v : Nat) : (d.set x v).jnl = d.jnl := rfl
@[simp] theorem Dev.set_nfm (d : Dev) (x : Fld) (v : Nat) : (d.set x v).nfm = d.nfm := rfl
@[simp] theorem Dev.set_clo (d : Dev) (x : Fld) (v : Nat) : (d.set x v).clo = d.clo := rfl
@[simp] theorem Dev.set_prl (d : Dev) (x : Fld) (v : Nat) : (d.set x v).prl = d.prl := rfl
@[simp] theorem Dev.set_zxp (d : Dev) (x : Fld) (v : Nat) : (d.set x v).zxp = d.zxp := rfl
@[simp] theorem Dev.set_msr (d : Dev) (x : Fld) (v : Nat) : (d.set x v).msr = d.msr := rfl
@[simp] theorem Dev.set_face_hst (d : Dev) (x : Fld) (v : Nat) : (d.set x v).face.hst = d.face.hst := rfl
@[simp] theorem Dev.set_face_out (d : Dev) (x : Fld) (v : Nat) : (d.set x v).face.out = d.face.out := rfl
@[simp] theorem Dev.set_face_counted (d : Dev) (x : Fld) (v : Nat) : (d.set x v).face.counted = d.face.counted := rfl

/-! ## setSat -/

@[simp] theorem Dev.setSat_cycles (d : Dev) (x : Fld) (v : Int) : (d.setSat x v).cycles = d.cycles := rfl
@[simp] theorem Dev.setSat_free (d : Dev) (x : Fld) (v : Int) : (d.setSat x v).free = d.free := rfl
@[simp] theorem Dev.setSat_lastRead (d : Dev) (x : Fld) (v : Int) : (d.setSat x v).lastRead = d.lastRead := rfl
@[simp] theorem Dev.setSat_glb (d : Dev) (x : Fld) (v : Int) : (d.setSat x v).glb = d.glb := rfl
@[simp] theorem Dev.setSat_trl (d : Dev) (x : Fld) (v : Int) : (d.setSat x v).trl = d.trl := rfl
@[simp] theorem Dev.setSat_tsu (d : Dev) (x : Fld) (v : Int) : (d.setSat x v).tsu = d.tsu := rfl
@[simp] theorem Dev.setSat_eth (d : Dev) (x : Fld) (v : Int) : (d.setSat x v).eth = d.eth := rfl
@[simp] theorem Dev.setSat_fhm (d : Dev) (x : Fld) (v : Int) : (d.setSat x v).fhm = d.fhm := rfl
@[simp] theorem Dev.setSat_dst (d : Dev) (x : Fld) (v : Int) : (d.setSat x v).dst = d.dst := rfl
@[simp] theorem Dev.setSat_eng (d : Dev) (x : Fld) (v : Int) : (d.setSat x v).eng = d.eng := rfl
@[simp] theorem Dev.setSat_bil (d : Dev) (x : Fld) (v : Int) : (d.setSat x v).bil = d.bil := rfl
@[simp] theorem Dev.setSat_key (d : Dev) (x : Fld) (v : Int) : (d.setSat x v).key = d.key := rfl
@[simp] theorem Dev.setSat_dur (d : Dev) (x : Fld) (v : Int) : (d.setSat x v).dur = d.dur := rfl
@[simp] theorem Dev.setSat_jnl (d : Dev) (x : Fld) (v : Int) : (d.setSat x v).jnl = d.jnl := rfl
@[simp] theorem Dev.setSat_nfm (d : Dev) (x : Fld) (v : Int) : (d.setSat x v).nfm = d.nfm := rfl
@[simp] theorem Dev.setSat_clo (d : Dev) (x : Fld) (v : Int) : (d.setSat x v).clo = d.clo := rfl
@[simp] theorem Dev.setSat_prl (d : Dev) (x : Fld) (v : Int) : (d.setSat x v).prl = d.prl := rfl
@[simp] theorem Dev.setSat_zxp (d : Dev) (x : Fld) (v : Int) : (d.setSat x v).zxp = d.zxp := rfl
@[simp] theorem Dev.setSat_msr (d : Dev) (x : Fld) (v : Int) : (d.setSat x v).msr = d.msr := rfl
@[simp] theorem Dev.setSat_face_hst (d : Dev) (x : Fld) (v : Int) : (d.setSat x v).face.hst = d.face.hst := rfl
@[simp] theorem Dev.setSat_face_out (d : Dev) (x : Fld) (v : Int) : (d.setSat x v).face.out = d.face.out := rfl
@[simp] theorem Dev.setSat_face_counted (d : Dev) (x : Fld) (v : Int) : (d.setSat x v).face.counted = d.face.counted := rfl

/-! ## count -/

@[simp] theorem Dev.count_cycles (d : Dev) (r : RegD) (i : Nat) : (d.count r i).cycles = d.cycles := rfl
@[simp] theorem Dev.count_free (d : Dev) (r : RegD) (i : Nat) : (d.count r i).free = d.free := rfl
@[simp] theorem Dev.count_lastRead (d : Dev) (r : RegD) (i : Nat) : (d.count r i).lastRead = d.lastRead := rfl
@[simp] theorem Dev.count_glb (d : Dev) (r : RegD) (i : Nat) : (d.count r i).glb = d.glb := rfl
@[simp] theorem Dev.count_trl (d : Dev) (r : RegD) (i : Nat) : (d.count r i).trl = d.trl := rfl
@[simp] theorem Dev.count_tsu (d : Dev) (r : RegD) (i : Nat) : (d.count r i).tsu = d.tsu := rfl
@[simp] theorem Dev.count_eth (d : Dev) (r : RegD) (i : Nat) : (d.count r i).eth = d.eth := rfl
@[simp] theorem Dev.count_fhm (d : Dev) (r : RegD) (i : Nat) : (d.count r i).fhm = d.fhm := rfl
@[simp] theorem Dev.count_dst (d : Dev) (r : RegD) (i : Nat) : (d.count r i).dst = d.dst := rfl
@[simp] theorem Dev.count_eng (d : Dev) (r : RegD) (i : Nat) : (d.count r i).eng = d.eng := rfl
@[simp] theorem Dev.count_bil (d : Dev) (r : RegD) (i : Nat) : (d.count r i).bil = d.bil := rfl
@[simp] theorem Dev.count_key (d : Dev) (r : RegD) (i : Nat) : (d.count r i).key = d.key := rfl
@[simp] theorem Dev.count_dur (d : Dev) (r : RegD) (i : Nat) : (d.count r i).dur = d.dur := rfl
@[simp] theorem Dev.count_jnl (d : Dev) (r : RegD) (i : Nat) : (d.count r i).jnl = d.jnl := rfl
@[simp] theorem Dev.count_nfm (d : Dev) (r : RegD) (i : Nat) : (d.count r i).nfm = d.nfm := rfl
@[simp] theorem Dev.count_clo (d : Dev) (r : RegD) (i : Nat) : (d.count r i).clo = d.clo := rfl
@[simp] theorem Dev.count_prl (d : Dev) (r : RegD) (i : Nat) : (d.count r i).prl = d.prl := rfl
@[simp] theorem Dev.count_zxp (d : Dev) (r : RegD) (i : Nat) : (d.count r i).zxp = d.zxp := rfl
@[simp] theorem Dev.count_msr (d : Dev) (r : RegD) (i : Nat) : (d.count r i).msr = d.msr := rfl
@[simp] theorem Dev.count_face_hst (d : Dev) (r : RegD) (i : Nat) : (d.count r i).face.hst = d.face.hst := rfl
@[simp] theorem Dev.count_face_out (d : Dev) (r : RegD) (i : Nat) : (d.count r i).face.out = d.face.out := rfl

/-! ## countBy -/

@[simp] theorem Dev.countBy_cycles (d : Dev) (r : RegD) (i n : Nat) : (d.countBy r i n).cycles = d.cycles := rfl
@[simp] theorem Dev.countBy_free (d : Dev) (r : RegD) (i n : Nat) : (d.countBy r i n).free = d.free := rfl
@[simp] theorem Dev.countBy_lastRead (d : Dev) (r : RegD) (i n : Nat) : (d.countBy r i n).lastRead = d.lastRead := rfl
@[simp] theorem Dev.countBy_glb (d : Dev) (r : RegD) (i n : Nat) : (d.countBy r i n).glb = d.glb := rfl
@[simp] theorem Dev.countBy_trl (d : Dev) (r : RegD) (i n : Nat) : (d.countBy r i n).trl = d.trl := rfl
@[simp] theorem Dev.countBy_tsu (d : Dev) (r : RegD) (i n : Nat) : (d.countBy r i n).tsu = d.tsu := rfl
@[simp] theorem Dev.countBy_eth (d : Dev) (r : RegD) (i n : Nat) : (d.countBy r i n).eth = d.eth := rfl
@[simp] theorem Dev.countBy_fhm (d : Dev) (r : RegD) (i n : Nat) : (d.countBy r i n).fhm = d.fhm := rfl
@[simp] theorem Dev.countBy_dst (d : Dev) (r : RegD) (i n : Nat) : (d.countBy r i n).dst = d.dst := rfl
@[simp] theorem Dev.countBy_eng (d : Dev) (r : RegD) (i n : Nat) : (d.countBy r i n).eng = d.eng := rfl
@[simp] theorem Dev.countBy_bil (d : Dev) (r : RegD) (i n : Nat) : (d.countBy r i n).bil = d.bil := rfl
@[simp] theorem Dev.countBy_key (d : Dev) (r : RegD) (i n : Nat) : (d.countBy r i n).key = d.key := rfl
@[simp] theorem Dev.countBy_dur (d : Dev) (r : RegD) (i n : Nat) : (d.countBy r i n).dur = d.dur := rfl
@[simp] theorem Dev.countBy_jnl (d : Dev) (r : RegD) (i n : Nat) : (d.countBy r i n).jnl = d.jnl := rfl
@[simp] theorem Dev.countBy_nfm (d : Dev) (r : RegD) (i n : Nat) : (d.countBy r i n).nfm = d.nfm := rfl
@[simp] theorem Dev.countBy_clo (d : Dev) (r : RegD) (i n : Nat) : (d.countBy r i n).clo = d.clo := rfl
@[simp] theorem Dev.countBy_prl (d : Dev) (r : RegD) (i n : Nat) : (d.countBy r i n).prl = d.prl := rfl
@[simp] theorem Dev.countBy_zxp (d : Dev) (r : RegD) (i n : Nat) : (d.countBy r i n).zxp = d.zxp := rfl
@[simp] theorem Dev.countBy_msr (d : Dev) (r : RegD) (i n : Nat) : (d.countBy r i n).msr = d.msr := rfl
@[simp] theorem Dev.countBy_face_hst (d : Dev) (r : RegD) (i n : Nat) : (d.countBy r i n).face.hst = d.face.hst := rfl
@[simp] theorem Dev.countBy_face_out (d : Dev) (r : RegD) (i n : Nat) : (d.countBy r i n).face.out = d.face.out := rfl

/-! ## setWide -/

@[simp] theorem Dev.setWide_cycles (d : Dev) (lo hi : RegD) (i v : Nat) : (d.setWide lo hi i v).cycles = d.cycles := rfl
@[simp] theorem Dev.setWide_free (d : Dev) (lo hi : RegD) (i v : Nat) : (d.setWide lo hi i v).free = d.free := rfl
@[simp] theorem Dev.setWide_lastRead (d : Dev) (lo hi : RegD) (i v : Nat) : (d.setWide lo hi i v).lastRead = d.lastRead := rfl
@[simp] theorem Dev.setWide_glb (d : Dev) (lo hi : RegD) (i v : Nat) : (d.setWide lo hi i v).glb = d.glb := rfl
@[simp] theorem Dev.setWide_trl (d : Dev) (lo hi : RegD) (i v : Nat) : (d.setWide lo hi i v).trl = d.trl := rfl
@[simp] theorem Dev.setWide_tsu (d : Dev) (lo hi : RegD) (i v : Nat) : (d.setWide lo hi i v).tsu = d.tsu := rfl
@[simp] theorem Dev.setWide_eth (d : Dev) (lo hi : RegD) (i v : Nat) : (d.setWide lo hi i v).eth = d.eth := rfl
@[simp] theorem Dev.setWide_fhm (d : Dev) (lo hi : RegD) (i v : Nat) : (d.setWide lo hi i v).fhm = d.fhm := rfl
@[simp] theorem Dev.setWide_dst (d : Dev) (lo hi : RegD) (i v : Nat) : (d.setWide lo hi i v).dst = d.dst := rfl
@[simp] theorem Dev.setWide_eng (d : Dev) (lo hi : RegD) (i v : Nat) : (d.setWide lo hi i v).eng = d.eng := rfl
@[simp] theorem Dev.setWide_bil (d : Dev) (lo hi : RegD) (i v : Nat) : (d.setWide lo hi i v).bil = d.bil := rfl
@[simp] theorem Dev.setWide_key (d : Dev) (lo hi : RegD) (i v : Nat) : (d.setWide lo hi i v).key = d.key := rfl
@[simp] theorem Dev.setWide_dur (d : Dev) (lo hi : RegD) (i v : Nat) : (d.setWide lo hi i v).dur = d.dur := rfl
@[simp] theorem Dev.setWide_jnl (d : Dev) (lo hi : RegD) (i v : Nat) : (d.setWide lo hi i v).jnl = d.jnl := rfl
@[simp] theorem Dev.setWide_nfm (d : Dev) (lo hi : RegD) (i v : Nat) : (d.setWide lo hi i v).nfm = d.nfm := rfl
@[simp] theorem Dev.setWide_clo (d : Dev) (lo hi : RegD) (i v : Nat) : (d.setWide lo hi i v).clo = d.clo := rfl
@[simp] theorem Dev.setWide_prl (d : Dev) (lo hi : RegD) (i v : Nat) : (d.setWide lo hi i v).prl = d.prl := rfl
@[simp] theorem Dev.setWide_zxp (d : Dev) (lo hi : RegD) (i v : Nat) : (d.setWide lo hi i v).zxp = d.zxp := rfl
@[simp] theorem Dev.setWide_msr (d : Dev) (lo hi : RegD) (i v : Nat) : (d.setWide lo hi i v).msr = d.msr := rfl
@[simp] theorem Dev.setWide_face_hst (d : Dev) (lo hi : RegD) (i v : Nat) : (d.setWide lo hi i v).face.hst = d.face.hst := rfl
@[simp] theorem Dev.setWide_face_out (d : Dev) (lo hi : RegD) (i v : Nat) : (d.setWide lo hi i v).face.out = d.face.out := rfl
@[simp] theorem Dev.setWide_face_counted (d : Dev) (lo hi : RegD) (i v : Nat) : (d.setWide lo hi i v).face.counted = d.face.counted := rfl

/-! ## emit -/

@[simp] theorem Dev.emit_cycles (d : Dev) (o : Out) : (d.emit o).cycles = d.cycles := rfl
@[simp] theorem Dev.emit_free (d : Dev) (o : Out) : (d.emit o).free = d.free := rfl
@[simp] theorem Dev.emit_lastRead (d : Dev) (o : Out) : (d.emit o).lastRead = d.lastRead := rfl
@[simp] theorem Dev.emit_glb (d : Dev) (o : Out) : (d.emit o).glb = d.glb := rfl
@[simp] theorem Dev.emit_trl (d : Dev) (o : Out) : (d.emit o).trl = d.trl := rfl
@[simp] theorem Dev.emit_tsu (d : Dev) (o : Out) : (d.emit o).tsu = d.tsu := rfl
@[simp] theorem Dev.emit_eth (d : Dev) (o : Out) : (d.emit o).eth = d.eth := rfl
@[simp] theorem Dev.emit_fhm (d : Dev) (o : Out) : (d.emit o).fhm = d.fhm := rfl
@[simp] theorem Dev.emit_dst (d : Dev) (o : Out) : (d.emit o).dst = d.dst := rfl
@[simp] theorem Dev.emit_eng (d : Dev) (o : Out) : (d.emit o).eng = d.eng := rfl
@[simp] theorem Dev.emit_bil (d : Dev) (o : Out) : (d.emit o).bil = d.bil := rfl
@[simp] theorem Dev.emit_key (d : Dev) (o : Out) : (d.emit o).key = d.key := rfl
@[simp] theorem Dev.emit_dur (d : Dev) (o : Out) : (d.emit o).dur = d.dur := rfl
@[simp] theorem Dev.emit_jnl (d : Dev) (o : Out) : (d.emit o).jnl = d.jnl := rfl
@[simp] theorem Dev.emit_nfm (d : Dev) (o : Out) : (d.emit o).nfm = d.nfm := rfl
@[simp] theorem Dev.emit_clo (d : Dev) (o : Out) : (d.emit o).clo = d.clo := rfl
@[simp] theorem Dev.emit_prl (d : Dev) (o : Out) : (d.emit o).prl = d.prl := rfl
@[simp] theorem Dev.emit_zxp (d : Dev) (o : Out) : (d.emit o).zxp = d.zxp := rfl
@[simp] theorem Dev.emit_msr (d : Dev) (o : Out) : (d.emit o).msr = d.msr := rfl
@[simp] theorem Dev.emit_face_hst (d : Dev) (o : Out) : (d.emit o).face.hst = d.face.hst := rfl
@[simp] theorem Dev.emit_face_regs (d : Dev) (o : Out) : (d.emit o).face.regs = d.face.regs := rfl
@[simp] theorem Dev.emit_face_counted (d : Dev) (o : Out) : (d.emit o).face.counted = d.face.counted := rfl

/-! ## setW1c -/

@[simp] theorem Dev.setW1c_cycles (d : Dev) (x : Fld) (v : Nat) : (d.setW1c x v).cycles = d.cycles := rfl
@[simp] theorem Dev.setW1c_free (d : Dev) (x : Fld) (v : Nat) : (d.setW1c x v).free = d.free := rfl
@[simp] theorem Dev.setW1c_lastRead (d : Dev) (x : Fld) (v : Nat) : (d.setW1c x v).lastRead = d.lastRead := rfl
@[simp] theorem Dev.setW1c_glb (d : Dev) (x : Fld) (v : Nat) : (d.setW1c x v).glb = d.glb := rfl
@[simp] theorem Dev.setW1c_trl (d : Dev) (x : Fld) (v : Nat) : (d.setW1c x v).trl = d.trl := rfl
@[simp] theorem Dev.setW1c_tsu (d : Dev) (x : Fld) (v : Nat) : (d.setW1c x v).tsu = d.tsu := rfl
@[simp] theorem Dev.setW1c_eth (d : Dev) (x : Fld) (v : Nat) : (d.setW1c x v).eth = d.eth := rfl
@[simp] theorem Dev.setW1c_fhm (d : Dev) (x : Fld) (v : Nat) : (d.setW1c x v).fhm = d.fhm := rfl
@[simp] theorem Dev.setW1c_dst (d : Dev) (x : Fld) (v : Nat) : (d.setW1c x v).dst = d.dst := rfl
@[simp] theorem Dev.setW1c_eng (d : Dev) (x : Fld) (v : Nat) : (d.setW1c x v).eng = d.eng := rfl
@[simp] theorem Dev.setW1c_bil (d : Dev) (x : Fld) (v : Nat) : (d.setW1c x v).bil = d.bil := rfl
@[simp] theorem Dev.setW1c_key (d : Dev) (x : Fld) (v : Nat) : (d.setW1c x v).key = d.key := rfl
@[simp] theorem Dev.setW1c_dur (d : Dev) (x : Fld) (v : Nat) : (d.setW1c x v).dur = d.dur := rfl
@[simp] theorem Dev.setW1c_jnl (d : Dev) (x : Fld) (v : Nat) : (d.setW1c x v).jnl = d.jnl := rfl
@[simp] theorem Dev.setW1c_nfm (d : Dev) (x : Fld) (v : Nat) : (d.setW1c x v).nfm = d.nfm := rfl
@[simp] theorem Dev.setW1c_clo (d : Dev) (x : Fld) (v : Nat) : (d.setW1c x v).clo = d.clo := rfl
@[simp] theorem Dev.setW1c_prl (d : Dev) (x : Fld) (v : Nat) : (d.setW1c x v).prl = d.prl := rfl
@[simp] theorem Dev.setW1c_zxp (d : Dev) (x : Fld) (v : Nat) : (d.setW1c x v).zxp = d.zxp := rfl
@[simp] theorem Dev.setW1c_msr (d : Dev) (x : Fld) (v : Nat) : (d.setW1c x v).msr = d.msr := rfl
@[simp] theorem Dev.setW1c_face_out (d : Dev) (x : Fld) (v : Nat) : (d.setW1c x v).face.out = d.face.out := rfl
@[simp] theorem Dev.setW1c_face_counted (d : Dev) (x : Fld) (v : Nat) : (d.setW1c x v).face.counted = d.face.counted := rfl

/-! ## noteCount -/

@[simp] theorem Dev.noteCount_cycles (d : Dev) (off n : Nat) : (d.noteCount off n).cycles = d.cycles := rfl
@[simp] theorem Dev.noteCount_free (d : Dev) (off n : Nat) : (d.noteCount off n).free = d.free := rfl
@[simp] theorem Dev.noteCount_lastRead (d : Dev) (off n : Nat) : (d.noteCount off n).lastRead = d.lastRead := rfl
@[simp] theorem Dev.noteCount_glb (d : Dev) (off n : Nat) : (d.noteCount off n).glb = d.glb := rfl
@[simp] theorem Dev.noteCount_trl (d : Dev) (off n : Nat) : (d.noteCount off n).trl = d.trl := rfl
@[simp] theorem Dev.noteCount_tsu (d : Dev) (off n : Nat) : (d.noteCount off n).tsu = d.tsu := rfl
@[simp] theorem Dev.noteCount_eth (d : Dev) (off n : Nat) : (d.noteCount off n).eth = d.eth := rfl
@[simp] theorem Dev.noteCount_fhm (d : Dev) (off n : Nat) : (d.noteCount off n).fhm = d.fhm := rfl
@[simp] theorem Dev.noteCount_dst (d : Dev) (off n : Nat) : (d.noteCount off n).dst = d.dst := rfl
@[simp] theorem Dev.noteCount_eng (d : Dev) (off n : Nat) : (d.noteCount off n).eng = d.eng := rfl
@[simp] theorem Dev.noteCount_bil (d : Dev) (off n : Nat) : (d.noteCount off n).bil = d.bil := rfl
@[simp] theorem Dev.noteCount_key (d : Dev) (off n : Nat) : (d.noteCount off n).key = d.key := rfl
@[simp] theorem Dev.noteCount_dur (d : Dev) (off n : Nat) : (d.noteCount off n).dur = d.dur := rfl
@[simp] theorem Dev.noteCount_jnl (d : Dev) (off n : Nat) : (d.noteCount off n).jnl = d.jnl := rfl
@[simp] theorem Dev.noteCount_nfm (d : Dev) (off n : Nat) : (d.noteCount off n).nfm = d.nfm := rfl
@[simp] theorem Dev.noteCount_clo (d : Dev) (off n : Nat) : (d.noteCount off n).clo = d.clo := rfl
@[simp] theorem Dev.noteCount_prl (d : Dev) (off n : Nat) : (d.noteCount off n).prl = d.prl := rfl
@[simp] theorem Dev.noteCount_zxp (d : Dev) (off n : Nat) : (d.noteCount off n).zxp = d.zxp := rfl
@[simp] theorem Dev.noteCount_msr (d : Dev) (off n : Nat) : (d.noteCount off n).msr = d.msr := rfl
@[simp] theorem Dev.noteCount_face_regs (d : Dev) (off n : Nat) : (d.noteCount off n).face.regs = d.face.regs := rfl
@[simp] theorem Dev.noteCount_face_hst (d : Dev) (off n : Nat) : (d.noteCount off n).face.hst = d.face.hst := rfl
@[simp] theorem Dev.noteCount_face_out (d : Dev) (off n : Nat) : (d.noteCount off n).face.out = d.face.out := rfl

/-! ## clearCount -/

@[simp] theorem Dev.clearCount_cycles (d : Dev) (off : Nat) : (d.clearCount off).cycles = d.cycles := rfl
@[simp] theorem Dev.clearCount_free (d : Dev) (off : Nat) : (d.clearCount off).free = d.free := rfl
@[simp] theorem Dev.clearCount_lastRead (d : Dev) (off : Nat) : (d.clearCount off).lastRead = d.lastRead := rfl
@[simp] theorem Dev.clearCount_glb (d : Dev) (off : Nat) : (d.clearCount off).glb = d.glb := rfl
@[simp] theorem Dev.clearCount_trl (d : Dev) (off : Nat) : (d.clearCount off).trl = d.trl := rfl
@[simp] theorem Dev.clearCount_tsu (d : Dev) (off : Nat) : (d.clearCount off).tsu = d.tsu := rfl
@[simp] theorem Dev.clearCount_eth (d : Dev) (off : Nat) : (d.clearCount off).eth = d.eth := rfl
@[simp] theorem Dev.clearCount_fhm (d : Dev) (off : Nat) : (d.clearCount off).fhm = d.fhm := rfl
@[simp] theorem Dev.clearCount_dst (d : Dev) (off : Nat) : (d.clearCount off).dst = d.dst := rfl
@[simp] theorem Dev.clearCount_eng (d : Dev) (off : Nat) : (d.clearCount off).eng = d.eng := rfl
@[simp] theorem Dev.clearCount_bil (d : Dev) (off : Nat) : (d.clearCount off).bil = d.bil := rfl
@[simp] theorem Dev.clearCount_key (d : Dev) (off : Nat) : (d.clearCount off).key = d.key := rfl
@[simp] theorem Dev.clearCount_dur (d : Dev) (off : Nat) : (d.clearCount off).dur = d.dur := rfl
@[simp] theorem Dev.clearCount_jnl (d : Dev) (off : Nat) : (d.clearCount off).jnl = d.jnl := rfl
@[simp] theorem Dev.clearCount_nfm (d : Dev) (off : Nat) : (d.clearCount off).nfm = d.nfm := rfl
@[simp] theorem Dev.clearCount_clo (d : Dev) (off : Nat) : (d.clearCount off).clo = d.clo := rfl
@[simp] theorem Dev.clearCount_prl (d : Dev) (off : Nat) : (d.clearCount off).prl = d.prl := rfl
@[simp] theorem Dev.clearCount_zxp (d : Dev) (off : Nat) : (d.clearCount off).zxp = d.zxp := rfl
@[simp] theorem Dev.clearCount_msr (d : Dev) (off : Nat) : (d.clearCount off).msr = d.msr := rfl
@[simp] theorem Dev.clearCount_face_hst (d : Dev) (off : Nat) : (d.clearCount off).face.hst = d.face.hst := rfl
@[simp] theorem Dev.clearCount_face_out (d : Dev) (off : Nat) : (d.clearCount off).face.out = d.face.out := rfl
@[simp] theorem Dev.clearCount_face_counted (d : Dev) (off : Nat) : (d.clearCount off).face.counted = d.face.counted := rfl

/-! ## The queue -/

@[simp] theorem State.on_eq (s : State) (f : Dev → Dev) : s.on f = .next { s with dev := f s.dev } := rfl

end Sys2Proof.Machine
end

