-- ==== Sys2Proof/Laws/Raise.lean ====
section
/-! SUPPORT. What raising an INT_STATUS bit, recording an occurrence, showing a condition and journaling leave of the
device's components and of a register field. -/

set_option Elab.async false

namespace Sys2Proof.Machine

/-! ## The bit itself -/

theorem Face.eventN_bit (k : Nat) (f : Face) (e : Env) (x : Fld) (code block a b : Nat) (kind : EvKind) :
    Face.eventN (k + 1) f e (some x) code block a b kind = Face.eventN (k + 1) (f.setBit e x) e none code block a b kind := rfl

theorem Face.regs_message (f : Face) (e : Env) (v : Nat) : (f.message e v).regs = f.regs := by
  unfold Face.message
  extract_lets
  repeat' split
  all_goals rfl

theorem Face.regs_setW1c (f : Face) (c : Nat) (x : Fld) (v : Nat) : (f.setW1c c x v).regs = (f.set x (f.get x ||| v)).regs := rfl

theorem Face.get_setBit (f : Face) (e : Env) (x y : Fld) : (f.setBit e x).get y = (f.set x (f.get x ||| 1)).get y := by
  unfold Face.setBit
  extract_lets en f₁
  split
  · rw [Face.get, Face.reg, Face.regs_message, show f₁.regs = (f.set x (f.get x ||| 1)).regs from Face.regs_setW1c ..]
    rfl
  · rw [Face.get, Face.reg, show f₁.regs = (f.set x (f.get x ||| 1)).regs from Face.regs_setW1c ..]
    rfl

/-- A field outside the recorder's, the rings', the journal's and the Runner's registers, after a bit is raised. -/
theorem Dev.raise_get (d : Dev) (x : Fld) (a b : Nat) {y : Fld} (ho : y.off < 4194304 := by decide)
    (hy : Nat.testBit 0x340040004c003 (regBit y.off) = false := by decide) :
    (d.raise x a b).get y = (d.set x (d.get x ||| 1)).get y := by
  have e₁ : ∀ z : Fld, z.off < 4194304 → Nat.testBit 0x340040004c003 (regBit z.off) = false →
      d.reserveEvents.get z = d.get z := fun z hz hb =>
    (Dev.reserveEvents_edits (m := 0x340040004c003) (h := Edits.refl d)).get z hz hb
  have e₂ : (d.raise x a b).get y = (d.reserveEvents.face.set x (d.reserveEvents.face.get x ||| 1)).get y := by
    unfold Dev.raise
    extract_lets r
    show Face.get (Face.eventN chain r.face r.env (some x) (codeOf x) (blockOf x.off) a b .own) y = _
    rw [show chain = 5 + 1 from rfl, Face.eventN_bit]
    have h : FEdits 0x340040004c003 (r.face.setBit r.env x) _ :=
      Face.eventN_edits (e := r.env) (by decide) (5 + 1) (x := none) (code := codeOf x) (block := blockOf x.off) (a := a) (b := b) (kind := .own)
        (by rintro _ ⟨⟩) (FEdits.refl _)
    have := (h.regs y.off ho).resolve_left (by simp [hy])
    rw [Face.get, this, ← Face.get, Face.get_setBit]
  rw [e₂]
  have e₃ : d.reserveEvents.face.reg y.off = d.face.reg y.off :=
    (Dev.reserveEvents_edits (m := 0x340040004c003) (h := Edits.refl d)).reg y.off ho hy
  by_cases hxy : y.off = x.off
  · simp only [Dev.get, Dev.set, Face.get, Face.set]
    rw [hxy, Face.reg_setReg_same, Face.reg_setReg_same, ← hxy, e₃, hxy]
  · simp only [Dev.get, Dev.set, Face.get, Face.set]
    rw [Face.reg_setReg_other hxy, Face.reg_setReg_other hxy, e₃]

/-- A one-bit field outside those registers reads 1 once raised. -/
theorem Dev.raise_self (d : Dev) (x : Fld) (a b : Nat) (ho : x.off < 4194304 := by decide)
    (hy : Nat.testBit 0x340040004c003 (regBit x.off) = false := by decide) (h : x.hi < 32 := by decide) (hl : x.lo = x.hi := by decide) :
    (d.raise x a b).get x = 1 := by
  rw [Dev.raise_get d x a b ho hy, Dev.get_set_same d x _ h (by omega), hl, show x.hi + 1 - x.hi = 1 by omega, Nat.pow_one, Nat.or_mod_two_eq_one.2 (.inr rfl)]

/-! ## Components -/

theorem Dev.reserveEvents_cycles (d : Dev) : d.reserveEvents.cycles = d.cycles :=
  (Dev.reserveEvents_edits (m := 0x140000004c002) (h := Edits.refl d)).cycles.resolve_left (by decide)
@[simp] theorem Dev.raise_cycles (d : Dev) (x : Fld) (a b : Nat) : (d.raise x a b).cycles = d.cycles := d.reserveEvents_cycles
@[simp] theorem Dev.occur_cycles (d : Dev) (c k a b : Nat) (p : Bool) : (d.occur c k a b p).cycles = d.cycles := d.reserveEvents_cycles
@[simp] theorem Dev.condition_cycles (d : Dev) (x : Fld) (v : Bool) : (d.condition x v).cycles = d.cycles := by
  unfold Dev.condition
  split
  · rfl
  · rw [Dev.raise_cycles]; rfl
@[simp] theorem Dev.journal_cycles (d : Dev) (r : JRec) : (d.journal r).cycles = d.cycles :=
  (Dev.journal_edits (m := 0x140000004c002) (h := Edits.refl d)).cycles.resolve_left (by decide)
theorem Dev.reserveEvents_free (d : Dev) : d.reserveEvents.free = d.free :=
  (Dev.reserveEvents_edits (m := 0x140000004c002) (h := Edits.refl d)).free.resolve_left (by decide)
@[simp] theorem Dev.raise_free (d : Dev) (x : Fld) (a b : Nat) : (d.raise x a b).free = d.free := d.reserveEvents_free
@[simp] theorem Dev.occur_free (d : Dev) (c k a b : Nat) (p : Bool) : (d.occur c k a b p).free = d.free := d.reserveEvents_free
@[simp] theorem Dev.condition_free (d : Dev) (x : Fld) (v : Bool) : (d.condition x v).free = d.free := by
  unfold Dev.condition
  split
  · rfl
  · rw [Dev.raise_free]; rfl
@[simp] theorem Dev.journal_free (d : Dev) (r : JRec) : (d.journal r).free = d.free :=
  (Dev.journal_edits (m := 0x140000004c002) (h := Edits.refl d)).free.resolve_left (by decide)
theorem Dev.reserveEvents_lastRead (d : Dev) : d.reserveEvents.lastRead = d.lastRead :=
  (Dev.reserveEvents_edits (m := 0x140000004c002) (h := Edits.refl d)).lastRead.resolve_left (by decide)
@[simp] theorem Dev.raise_lastRead (d : Dev) (x : Fld) (a b : Nat) : (d.raise x a b).lastRead = d.lastRead := d.reserveEvents_lastRead
@[simp] theorem Dev.occur_lastRead (d : Dev) (c k a b : Nat) (p : Bool) : (d.occur c k a b p).lastRead = d.lastRead := d.reserveEvents_lastRead
@[simp] theorem Dev.condition_lastRead (d : Dev) (x : Fld) (v : Bool) : (d.condition x v).lastRead = d.lastRead := by
  unfold Dev.condition
  split
  · rfl
  · rw [Dev.raise_lastRead]; rfl
@[simp] theorem Dev.journal_lastRead (d : Dev) (r : JRec) : (d.journal r).lastRead = d.lastRead :=
  (Dev.journal_edits (m := 0x140000004c002) (h := Edits.refl d)).lastRead.resolve_left (by decide)
theorem Dev.reserveEvents_glb (d : Dev) : d.reserveEvents.glb = d.glb :=
  (Dev.reserveEvents_edits (m := 0x140000004c002) (h := Edits.refl d)).glb.resolve_left (by decide)
@[simp] theorem Dev.raise_glb (d : Dev) (x : Fld) (a b : Nat) : (d.raise x a b).glb = d.glb := d.reserveEvents_glb
@[simp] theorem Dev.occur_glb (d : Dev) (c k a b : Nat) (p : Bool) : (d.occur c k a b p).glb = d.glb := d.reserveEvents_glb
@[simp] theorem Dev.condition_glb (d : Dev) (x : Fld) (v : Bool) : (d.condition x v).glb = d.glb := by
  unfold Dev.condition
  split
  · rfl
  · rw [Dev.raise_glb]; rfl
@[simp] theorem Dev.journal_glb (d : Dev) (r : JRec) : (d.journal r).glb = d.glb :=
  (Dev.journal_edits (m := 0x140000004c002) (h := Edits.refl d)).glb.resolve_left (by decide)
theorem Dev.reserveEvents_trl (d : Dev) : d.reserveEvents.trl = d.trl :=
  (Dev.reserveEvents_edits (m := 0x140000004c002) (h := Edits.refl d)).trl.resolve_left (by decide)
@[simp] theorem Dev.raise_trl (d : Dev) (x : Fld) (a b : Nat) : (d.raise x a b).trl = d.trl := d.reserveEvents_trl
@[simp] theorem Dev.occur_trl (d : Dev) (c k a b : Nat) (p : Bool) : (d.occur c k a b p).trl = d.trl := d.reserveEvents_trl
@[simp] theorem Dev.condition_trl (d : Dev) (x : Fld) (v : Bool) : (d.condition x v).trl = d.trl := by
  unfold Dev.condition
  split
  · rfl
  · rw [Dev.raise_trl]; rfl
@[simp] theorem Dev.journal_trl (d : Dev) (r : JRec) : (d.journal r).trl = d.trl :=
  (Dev.journal_edits (m := 0x140000004c002) (h := Edits.refl d)).trl.resolve_left (by decide)
theorem Dev.reserveEvents_tsu (d : Dev) : d.reserveEvents.tsu = d.tsu :=
  (Dev.reserveEvents_edits (m := 0x140000004c002) (h := Edits.refl d)).tsu.resolve_left (by decide)
@[simp] theorem Dev.raise_tsu (d : Dev) (x : Fld) (a b : Nat) : (d.raise x a b).tsu = d.tsu := d.reserveEvents_tsu
@[simp] theorem Dev.occur_tsu (d : Dev) (c k a b : Nat) (p : Bool) : (d.occur c k a b p).tsu = d.tsu := d.reserveEvents_tsu
@[simp] theorem Dev.condition_tsu (d : Dev) (x : Fld) (v : Bool) : (d.condition x v).tsu = d.tsu := by
  unfold Dev.condition
  split
  · rfl
  · rw [Dev.raise_tsu]; rfl
@[simp] theorem Dev.journal_tsu (d : Dev) (r : JRec) : (d.journal r).tsu = d.tsu :=
  (Dev.journal_edits (m := 0x140000004c002) (h := Edits.refl d)).tsu.resolve_left (by decide)
theorem Dev.reserveEvents_eth (d : Dev) : d.reserveEvents.eth = d.eth :=
  (Dev.reserveEvents_edits (m := 0x140000004c002) (h := Edits.refl d)).eth.resolve_left (by decide)
@[simp] theorem Dev.raise_eth (d : Dev) (x : Fld) (a b : Nat) : (d.raise x a b).eth = d.eth := d.reserveEvents_eth
@[simp] theorem Dev.occur_eth (d : Dev) (c k a b : Nat) (p : Bool) : (d.occur c k a b p).eth = d.eth := d.reserveEvents_eth
@[simp] theorem Dev.condition_eth (d : Dev) (x : Fld) (v : Bool) : (d.condition x v).eth = d.eth := by
  unfold Dev.condition
  split
  · rfl
  · rw [Dev.raise_eth]; rfl
@[simp] theorem Dev.journal_eth (d : Dev) (r : JRec) : (d.journal r).eth = d.eth :=
  (Dev.journal_edits (m := 0x140000004c002) (h := Edits.refl d)).eth.resolve_left (by decide)
theorem Dev.reserveEvents_fhm (d : Dev) : d.reserveEvents.fhm = d.fhm :=
  (Dev.reserveEvents_edits (m := 0x140000004c002) (h := Edits.refl d)).fhm.resolve_left (by decide)
@[simp] theorem Dev.raise_fhm (d : Dev) (x : Fld) (a b : Nat) : (d.raise x a b).fhm = d.fhm := d.reserveEvents_fhm
@[simp] theorem Dev.occur_fhm (d : Dev) (c k a b : Nat) (p : Bool) : (d.occur c k a b p).fhm = d.fhm := d.reserveEvents_fhm
@[simp] theorem Dev.condition_fhm (d : Dev) (x : Fld) (v : Bool) : (d.condition x v).fhm = d.fhm := by
  unfold Dev.condition
  split
  · rfl
  · rw [Dev.raise_fhm]; rfl
@[simp] theorem Dev.journal_fhm (d : Dev) (r : JRec) : (d.journal r).fhm = d.fhm :=
  (Dev.journal_edits (m := 0x140000004c002) (h := Edits.refl d)).fhm.resolve_left (by decide)
theorem Dev.reserveEvents_dst (d : Dev) : d.reserveEvents.dst = d.dst :=
  (Dev.reserveEvents_edits (m := 0x140000004c002) (h := Edits.refl d)).dst.resolve_left (by decide)
@[simp] theorem Dev.raise_dst (d : Dev) (x : Fld) (a b : Nat) : (d.raise x a b).dst = d.dst := d.reserveEvents_dst
@[simp] theorem Dev.occur_dst (d : Dev) (c k a b : Nat) (p : Bool) : (d.occur c k a b p).dst = d.dst := d.reserveEvents_dst
@[simp] theorem Dev.condition_dst (d : Dev) (x : Fld) (v : Bool) : (d.condition x v).dst = d.dst := by
  unfold Dev.condition
  split
  · rfl
  · rw [Dev.raise_dst]; rfl
@[simp] theorem Dev.journal_dst (d : Dev) (r : JRec) : (d.journal r).dst = d.dst :=
  (Dev.journal_edits (m := 0x140000004c002) (h := Edits.refl d)).dst.resolve_left (by decide)
theorem Dev.reserveEvents_eng (d : Dev) : d.reserveEvents.eng = d.eng :=
  (Dev.reserveEvents_edits (m := 0x140000004c002) (h := Edits.refl d)).eng.resolve_left (by decide)
@[simp] theorem Dev.raise_eng (d : Dev) (x : Fld) (a b : Nat) : (d.raise x a b).eng = d.eng := d.reserveEvents_eng
@[simp] theorem Dev.occur_eng (d : Dev) (c k a b : Nat) (p : Bool) : (d.occur c k a b p).eng = d.eng := d.reserveEvents_eng
@[simp] theorem Dev.condition_eng (d : Dev) (x : Fld) (v : Bool) : (d.condition x v).eng = d.eng := by
  unfold Dev.condition
  split
  · rfl
  · rw [Dev.raise_eng]; rfl
@[simp] theorem Dev.journal_eng (d : Dev) (r : JRec) : (d.journal r).eng = d.eng :=
  (Dev.journal_edits (m := 0x140000004c002) (h := Edits.refl d)).eng.resolve_left (by decide)
theorem Dev.reserveEvents_bil (d : Dev) : d.reserveEvents.bil = d.bil :=
  (Dev.reserveEvents_edits (m := 0x140000004c002) (h := Edits.refl d)).bil.resolve_left (by decide)
@[simp] theorem Dev.raise_bil (d : Dev) (x : Fld) (a b : Nat) : (d.raise x a b).bil = d.bil := d.reserveEvents_bil
@[simp] theorem Dev.occur_bil (d : Dev) (c k a b : Nat) (p : Bool) : (d.occur c k a b p).bil = d.bil := d.reserveEvents_bil
@[simp] theorem Dev.condition_bil (d : Dev) (x : Fld) (v : Bool) : (d.condition x v).bil = d.bil := by
  unfold Dev.condition
  split
  · rfl
  · rw [Dev.raise_bil]; rfl
@[simp] theorem Dev.journal_bil (d : Dev) (r : JRec) : (d.journal r).bil = d.bil :=
  (Dev.journal_edits (m := 0x140000004c002) (h := Edits.refl d)).bil.resolve_left (by decide)
theorem Dev.reserveEvents_key (d : Dev) : d.reserveEvents.key = d.key :=
  (Dev.reserveEvents_edits (m := 0x140000004c002) (h := Edits.refl d)).key.resolve_left (by decide)
@[simp] theorem Dev.raise_key (d : Dev) (x : Fld) (a b : Nat) : (d.raise x a b).key = d.key := d.reserveEvents_key
@[simp] theorem Dev.occur_key (d : Dev) (c k a b : Nat) (p : Bool) : (d.occur c k a b p).key = d.key := d.reserveEvents_key
@[simp] theorem Dev.condition_key (d : Dev) (x : Fld) (v : Bool) : (d.condition x v).key = d.key := by
  unfold Dev.condition
  split
  · rfl
  · rw [Dev.raise_key]; rfl
@[simp] theorem Dev.journal_key (d : Dev) (r : JRec) : (d.journal r).key = d.key :=
  (Dev.journal_edits (m := 0x140000004c002) (h := Edits.refl d)).key.resolve_left (by decide)
theorem Dev.reserveEvents_nfm (d : Dev) : d.reserveEvents.nfm = d.nfm :=
  (Dev.reserveEvents_edits (m := 0x140000004c002) (h := Edits.refl d)).nfm.resolve_left (by decide)
@[simp] theorem Dev.raise_nfm (d : Dev) (x : Fld) (a b : Nat) : (d.raise x a b).nfm = d.nfm := d.reserveEvents_nfm
@[simp] theorem Dev.occur_nfm (d : Dev) (c k a b : Nat) (p : Bool) : (d.occur c k a b p).nfm = d.nfm := d.reserveEvents_nfm
@[simp] theorem Dev.condition_nfm (d : Dev) (x : Fld) (v : Bool) : (d.condition x v).nfm = d.nfm := by
  unfold Dev.condition
  split
  · rfl
  · rw [Dev.raise_nfm]; rfl
@[simp] theorem Dev.journal_nfm (d : Dev) (r : JRec) : (d.journal r).nfm = d.nfm :=
  (Dev.journal_edits (m := 0x140000004c002) (h := Edits.refl d)).nfm.resolve_left (by decide)
theorem Dev.reserveEvents_clo (d : Dev) : d.reserveEvents.clo = d.clo :=
  (Dev.reserveEvents_edits (m := 0x140000004c002) (h := Edits.refl d)).clo.resolve_left (by decide)
@[simp] theorem Dev.raise_clo (d : Dev) (x : Fld) (a b : Nat) : (d.raise x a b).clo = d.clo := d.reserveEvents_clo
@[simp] theorem Dev.occur_clo (d : Dev) (c k a b : Nat) (p : Bool) : (d.occur c k a b p).clo = d.clo := d.reserveEvents_clo
@[simp] theorem Dev.condition_clo (d : Dev) (x : Fld) (v : Bool) : (d.condition x v).clo = d.clo := by
  unfold Dev.condition
  split
  · rfl
  · rw [Dev.raise_clo]; rfl
@[simp] theorem Dev.journal_clo (d : Dev) (r : JRec) : (d.journal r).clo = d.clo :=
  (Dev.journal_edits (m := 0x140000004c002) (h := Edits.refl d)).clo.resolve_left (by decide)
theorem Dev.reserveEvents_zxp (d : Dev) : d.reserveEvents.zxp = d.zxp :=
  (Dev.reserveEvents_edits (m := 0x140000004c002) (h := Edits.refl d)).zxp.resolve_left (by decide)
@[simp] theorem Dev.raise_zxp (d : Dev) (x : Fld) (a b : Nat) : (d.raise x a b).zxp = d.zxp := d.reserveEvents_zxp
@[simp] theorem Dev.occur_zxp (d : Dev) (c k a b : Nat) (p : Bool) : (d.occur c k a b p).zxp = d.zxp := d.reserveEvents_zxp
@[simp] theorem Dev.condition_zxp (d : Dev) (x : Fld) (v : Bool) : (d.condition x v).zxp = d.zxp := by
  unfold Dev.condition
  split
  · rfl
  · rw [Dev.raise_zxp]; rfl
@[simp] theorem Dev.journal_zxp (d : Dev) (r : JRec) : (d.journal r).zxp = d.zxp :=
  (Dev.journal_edits (m := 0x140000004c002) (h := Edits.refl d)).zxp.resolve_left (by decide)
theorem Dev.reserveEvents_msr (d : Dev) : d.reserveEvents.msr = d.msr :=
  (Dev.reserveEvents_edits (m := 0x140000004c002) (h := Edits.refl d)).msr.resolve_left (by decide)
@[simp] theorem Dev.raise_msr (d : Dev) (x : Fld) (a b : Nat) : (d.raise x a b).msr = d.msr := d.reserveEvents_msr
@[simp] theorem Dev.occur_msr (d : Dev) (c k a b : Nat) (p : Bool) : (d.occur c k a b p).msr = d.msr := d.reserveEvents_msr
@[simp] theorem Dev.condition_msr (d : Dev) (x : Fld) (v : Bool) : (d.condition x v).msr = d.msr := by
  unfold Dev.condition
  split
  · rfl
  · rw [Dev.raise_msr]; rfl
@[simp] theorem Dev.journal_msr (d : Dev) (r : JRec) : (d.journal r).msr = d.msr :=
  (Dev.journal_edits (m := 0x140000004c002) (h := Edits.refl d)).msr.resolve_left (by decide)

end Sys2Proof.Machine
end

