-- ==== Sys2Proof/Laws/Runner.lean ====
section
/-! SUPPORT. What journaling, and with it raising an INT_STATUS bit, leaves of the PRL registers and of the pair's own state:
a record may be sent over MIRROR_LINK, which counts frames and keeps them until they are acknowledged; nothing else of the
pair changes. -/

set_option Elab.async false

namespace Sys2Proof.Machine

/-- A PRL register that sending a journal record does not touch. -/
def prlKept (off : Nat) : Bool :=
  off / 65536 == 16 && off != F.PRL_MIRROR_OUTSTANDING.off && off != R.PRL_CNT_n.at 0 &&
    (List.range 18).all fun i => off != (F.PRL_L_CNT_n_COUNT.at2 (i / 6) (i % 6)).off

/-- The pair's state but for the frames and entries on their way. -/
def Prl.SameBut (p p' : Prl) : Prop :=
  ∃ l o g n k, p' = { p with links := l, outstanding := o, staged := g, sinceDigest := n, crc := k }

theorem Prl.SameBut.refl (p : Prl) : p.SameBut p := ⟨p.links, p.outstanding, p.staged, p.sinceDigest, p.crc, rfl⟩

theorem Prl.SameBut.trans {p q r : Prl} (h : p.SameBut q) (h' : q.SameBut r) : p.SameBut r := by
  obtain ⟨_, _, _, _, _, rfl⟩ := h
  obtain ⟨l, o, g, n, k, rfl⟩ := h'
  exact ⟨l, o, g, n, k, rfl⟩

theorem Prl.SameBut.hello {p p' : Prl} (h : p.SameBut p') : p'.hello = p.hello := by obtain ⟨_, _, _, _, _, rfl⟩ := h; rfl
theorem Prl.SameBut.up {p p' : Prl} (h : p.SameBut p') : p'.up = p.up := by obtain ⟨_, _, _, _, _, rfl⟩ := h; rfl
theorem Prl.SameBut.outAtStart {p p' : Prl} (h : p.SameBut p') : p'.outAtStart = p.outAtStart := by obtain ⟨_, _, _, _, _, rfl⟩ := h; rfl
theorem Prl.SameBut.pendingCmds {p p' : Prl} (h : p.SameBut p') : p'.pendingCmds = p.pendingCmds := by obtain ⟨_, _, _, _, _, rfl⟩ := h; rfl
theorem Prl.SameBut.applied {p p' : Prl} (h : p.SameBut p') : p'.applied = p.applied := by obtain ⟨_, _, _, _, _, rfl⟩ := h; rfl
theorem Prl.SameBut.causes {p p' : Prl} (h : p.SameBut p') : p'.causes = p.causes := by obtain ⟨_, _, _, _, _, rfl⟩ := h; rfl
theorem Prl.SameBut.held {p p' : Prl} (h : p.SameBut p') : p'.held = p.held := by obtain ⟨_, _, _, _, _, rfl⟩ := h; rfl
theorem Prl.SameBut.lastYield {p p' : Prl} (h : p.SameBut p') : p'.lastYield = p.lastYield := by obtain ⟨_, _, _, _, _, rfl⟩ := h; rfl
theorem Prl.SameBut.handover {p p' : Prl} (h : p.SameBut p') : p'.handover = p.handover := by obtain ⟨_, _, _, _, _, rfl⟩ := h; rfl
theorem Prl.SameBut.taking {p p' : Prl} (h : p.SameBut p') : p'.taking = p.taking := by obtain ⟨_, _, _, _, _, rfl⟩ := h; rfl
theorem Prl.SameBut.standbySince {p p' : Prl} (h : p.SameBut p') : p'.standbySince = p.standbySince := by obtain ⟨_, _, _, _, _, rfl⟩ := h; rfl
theorem Prl.SameBut.controlSince {p p' : Prl} (h : p.SameBut p') : p'.controlSince = p.controlSince := by obtain ⟨_, _, _, _, _, rfl⟩ := h; rfl
theorem Prl.SameBut.partnerSince {p p' : Prl} (h : p.SameBut p') : p'.partnerSince = p.partnerSince := by obtain ⟨_, _, _, _, _, rfl⟩ := h; rfl
theorem Prl.SameBut.probation {p p' : Prl} (h : p.SameBut p') : p'.probation = p.probation := by obtain ⟨_, _, _, _, _, rfl⟩ := h; rfl
theorem Prl.SameBut.synced {p p' : Prl} (h : p.SameBut p') : p'.synced = p.synced := by obtain ⟨_, _, _, _, _, rfl⟩ := h; rfl
theorem Prl.SameBut.agrees {p p' : Prl} (h : p.SameBut p') : p'.agrees = p.agrees := by obtain ⟨_, _, _, _, _, rfl⟩ := h; rfl
theorem Prl.SameBut.enginesOk {p p' : Prl} (h : p.SameBut p') : p'.enginesOk = p.enginesOk := by obtain ⟨_, _, _, _, _, rfl⟩ := h; rfl
theorem Prl.SameBut.moved {p p' : Prl} (h : p.SameBut p') : p'.moved = p.moved := by obtain ⟨_, _, _, _, _, rfl⟩ := h; rfl
theorem Prl.SameBut.unsynced {p p' : Prl} (h : p.SameBut p') : p'.unsynced = p.unsynced := by obtain ⟨_, _, _, _, _, rfl⟩ := h; rfl
theorem Prl.SameBut.lines {p p' : Prl} (h : p.SameBut p') : p'.lines = p.lines := by obtain ⟨_, _, _, _, _, rfl⟩ := h; rfl
theorem Prl.SameBut.listenAt {p p' : Prl} (h : p.SameBut p') : p'.listenAt = p.listenAt := by obtain ⟨_, _, _, _, _, rfl⟩ := h; rfl
theorem Prl.SameBut.lowSince {p p' : Prl} (h : p.SameBut p') : p'.lowSince = p.lowSince := by obtain ⟨_, _, _, _, _, rfl⟩ := h; rfl
theorem Prl.SameBut.beatAt {p p' : Prl} (h : p.SameBut p') : p'.beatAt = p.beatAt := by obtain ⟨_, _, _, _, _, rfl⟩ := h; rfl
theorem Prl.SameBut.yieldAt {p p' : Prl} (h : p.SameBut p') : p'.yieldAt = p.yieldAt := by obtain ⟨_, _, _, _, _, rfl⟩ := h; rfl
theorem Prl.SameBut.drillAt {p p' : Prl} (h : p.SameBut p') : p'.drillAt = p.drillAt := by obtain ⟨_, _, _, _, _, rfl⟩ := h; rfl

/-- `d'` agrees with `d` on every kept PRL register and on the pair's state. -/
structure Dev.PairKept (d d' : Dev) : Prop where
  reg : ∀ off, prlKept off = true → d'.reg off = d.reg off
  prl : d.prl.SameBut d'.prl

theorem Dev.PairKept.refl (d : Dev) : d.PairKept d := ⟨fun _ _ => rfl, .refl _⟩

theorem Dev.PairKept.trans {d d' d'' : Dev} (h : d.PairKept d') (h' : d'.PairKept d'') : d.PairKept d'' :=
  ⟨fun off ho => (h'.reg off ho).trans (h.reg off ho), h.prl.trans h'.prl⟩

theorem prlKept_block {off : Nat} (h : prlKept off = true) : off / 65536 = 16 := by
  simp only [prlKept, Bool.and_eq_true, beq_iff_eq] at h
  exact h.1.1.1

/-- A field write outside the kept registers. -/
theorem Dev.PairKept.set {d d' : Dev} (h : d.PairKept d') (x : Fld) (v : Nat) (hx : prlKept x.off = false := by decide) :
    d.PairKept (d'.set x v) :=
  h.trans ⟨fun off ho => Face.reg_setReg_other (by rintro rfl; simp [hx] at ho) _ _, .refl _⟩

theorem Dev.PairKept.setReg {d d' : Dev} (h : d.PairKept d') (o : Nat) (w : Word) (hx : prlKept o = false) :
    d.PairKept (d'.setReg o w) :=
  h.trans ⟨fun off ho => Face.reg_setReg_other (by rintro rfl; simp [hx] at ho) _ _, .refl _⟩

theorem prlKept_at {o o' : Nat} (e : o' / 65536 = o / 65536) (h : o / 65536 ≠ 16) : prlKept o' = false := by
  cases hk : prlKept o'
  · rfl
  · exact absurd (e ▸ prlKept_block hk) h

theorem Dev.PairKept.count {d d' : Dev} (h : d.PairKept d') (r : RegD) (i : Nat) (hx : prlKept (r.at i) = false) :
    d.PairKept (d'.count r i) :=
  (h.setReg _ _ hx).trans ⟨fun _ _ => rfl, .refl _⟩

theorem Dev.PairKept.linkCount {d d' : Dev} (h : d.PairKept d') (l n : Nat) (hn : n < 6 := by decide) : d.PairKept (d'.linkCount l n) := by
  unfold Dev.linkCount
  split
  · rename_i hl
    refine h.set _ _ ?_
    have H : ∀ l < 3, ∀ n < 6, prlKept (F.PRL_L_CNT_n_COUNT.at2 l n).off = false := by decide
    exact H l hl n hn
  · exact h

theorem Dev.PairKept.emit {d d' : Dev} (h : d.PairKept d') (o : Out) : d.PairKept (d'.emit o) :=
  h.trans ⟨fun _ _ => rfl, .refl _⟩

theorem Dev.PairKept.sendRunner {d d' : Dev} (h : d.PairKept d') (l dst : Nat) (m : RunnerMsg) : d.PairKept (d'.sendRunner l dst m) := by
  refine h.trans ?_
  unfold Dev.sendRunner Dev.putFrame
  extract_lets x d₁ y
  have h₁ : d'.PairKept d₁ := ((Dev.PairKept.refl d').emit _).linkCount l 0
  exact h₁.trans ⟨fun _ _ => rfl, ⟨_, _, _, _, _, rfl⟩⟩

theorem Dev.PairKept.mirrorOut {d d' : Dev} (h : d.PairKept d') (line : Nat) (r : JRec) : d.PairKept (d'.mirrorOut line r) := by
  refine h.trans ?_
  unfold Dev.mirrorOut
  split
  · exact .refl _
  · split
    · exact ⟨fun _ _ => rfl, ⟨_, _, _, _, _, rfl⟩⟩
    · extract_lets -merge +onlyGivenNames d₁ d₂
      have h₁ : d'.PairKept d₁ := (Dev.PairKept.refl d').sendRunner _ _ _
      clear_value d₁
      have h₂ : d'.PairKept d₂ := by
        refine Dev.PairKept.count (h₁.trans ?_) _ _ (by decide)
        unfold Dev.digestOut
        extract_lets crc n d₃
        split
        · exact ⟨fun _ _ => rfl, ⟨_, _, _, _, _, rfl⟩⟩
        · exact ((Dev.PairKept.refl d₁).sendRunner _ _ _).trans ⟨fun _ _ => rfl, ⟨_, _, _, _, _, rfl⟩⟩
      clear_value d₂
      extract_lets
      refine Dev.PairKept.set ?_ F.PRL_MIRROR_OUTSTANDING _
      exact h₂.trans ⟨fun _ _ => rfl, ⟨d₂.prl.links, _, d₂.prl.staged, d₂.prl.sinceDigest, d₂.prl.crc, rfl⟩⟩

theorem Dev.PairKept.append {d d' : Dev} (h : d.PairKept d') (r : JRec) : d.PairKept (d'.append r).2 := by
  refine h.trans ?_
  unfold Dev.append
  extract_lets
  split
  extract_lets -merge +onlyGivenNames d₁ d₂ laps d₃
  have h₀ : d'.PairKept { d' with jnl := ‹Journal› } := ⟨fun _ _ => rfl, .refl _⟩
  have h₁ : d'.PairKept d₁ := h₀.count _ _ (prlKept_at (RegD.at_block _ _) (by decide))
  have h₂ : d'.PairKept d₂ := ((h₁.setReg _ _ (by decide)).setReg _ _ (by decide)).set F.JNL_STATUS_UNDRAINED _ (by decide)
  have h₃ : d'.PairKept d₃ := h₂.set F.JNL_WEAR_LAPS _ (by decide)
  show d'.PairKept (if r.ownRoot = true then d₃ else d₃.mirrorOut _ r)
  split
  · exact h₃
  · exact h₃.mirrorOut _ _

theorem Dev.PairKept.journal {d d' : Dev} (h : d.PairKept d') (r : JRec) : d.PairKept (d'.journal r) :=
  (h.append r).trans ⟨fun _ _ => rfl, .refl _⟩

theorem Dev.PairKept.reserveEvents {d d' : Dev} (h : d.PairKept d') : d.PairKept d'.reserveEvents := by
  refine h.trans ?_
  unfold Dev.reserveEvents
  split
  · exact .refl _
  · split
    · exact .refl _
    · exact ((Dev.PairKept.refl _).append _).trans ⟨fun _ _ => rfl, .refl _⟩

/-- A register the recorder, the rings and INT_STATUS bit `x` do not share, after an event. -/
theorem Face.reg_eventN (k : Nat) (f : Face) (e : Env) (code block a b : Nat) (kind : EvKind) {off : Nat} (hk : prlKept off = true) :
    (Face.eventN k f e none code block a b kind).reg off = f.reg off := by
  have hb := prlKept_block hk
  have h := Face.eventN_edits (m := 0x2000400000003) (f₀ := f) (e := e) (by decide) k (f := f) (x := none) (code := code) (block := block) (a := a)
    (b := b) (kind := kind) (by rintro _ ⟨⟩) (FEdits.refl _)
  refine (h.regs off (by omega)).resolve_left ?_
  unfold regBit
  split
  · decide
  · rw [hb]; decide

/-- A kept PRL register after a bit is raised. -/
theorem Dev.raise_prl_get (d : Dev) (x : Fld) (a b : Nat) {y : Fld} (hy : prlKept y.off = true := by decide) :
    (d.raise x a b).get y = (d.set x (d.get x ||| 1)).get y := by
  have hr := (Dev.PairKept.refl d).reserveEvents
  have e₂ : (d.raise x a b).get y = (d.reserveEvents.face.set x (d.reserveEvents.face.get x ||| 1)).get y := by
    unfold Dev.raise
    extract_lets r
    show Face.get (Face.eventN chain r.face r.env (some x) (codeOf x) (blockOf x.off) a b .own) y = _
    rw [show chain = 5 + 1 from rfl, Face.eventN_bit, Face.get, Face.reg_eventN _ _ _ _ _ _ _ _ hy, ← Face.get, Face.get_setBit]
  rw [e₂]
  have e₃ : d.reserveEvents.face.reg y.off = d.face.reg y.off := hr.reg _ hy
  by_cases hxy : y.off = x.off
  · simp only [Dev.get, Dev.set, Face.get, Face.set]
    rw [hxy, Face.reg_setReg_same, Face.reg_setReg_same, ← hxy, e₃, hxy]
  · simp only [Dev.get, Dev.set, Face.get, Face.set]
    rw [Face.reg_setReg_other hxy, Face.reg_setReg_other hxy, e₃]

/-- A one-bit field of a kept PRL register reads 1 once raised. -/
theorem Dev.raise_prl_self (d : Dev) (x : Fld) (a b : Nat) (hx : prlKept x.off = true := by decide) (h : x.hi < 32 := by decide)
    (hl : x.lo = x.hi := by decide) : (d.raise x a b).get x = 1 := by
  rw [Dev.raise_prl_get d x a b hx, Dev.get_set_same d x _ h (by omega), hl, show x.hi + 1 - x.hi = 1 by omega, Nat.pow_one, Nat.or_mod_two_eq_one.2 (.inr rfl)]

/-- The pair's state after a bit is raised. -/
theorem Dev.raise_prl (d : Dev) (x : Fld) (a b : Nat) : d.prl.SameBut (d.raise x a b).prl := (Dev.PairKept.refl d).reserveEvents.prl

theorem Dev.occur_prl (d : Dev) (c k a b : Nat) (p : Bool) : d.prl.SameBut (d.occur c k a b p).prl := (Dev.PairKept.refl d).reserveEvents.prl

theorem Dev.condition_prl (d : Dev) (x : Fld) (v : Bool) : d.prl.SameBut (d.condition x v).prl := by
  unfold Dev.condition
  split
  · exact .refl _
  · have h := Dev.raise_prl (d.set x (b2n v)) F.HLT_INT_STATUS_CONDITION_CHANGE x.lo (b2n v)
    rwa [Dev.set_prl] at h

theorem Dev.journal_prl (d : Dev) (r : JRec) : d.prl.SameBut (d.journal r).prl := ((Dev.PairKept.refl d).journal r).prl

end Sys2Proof.Machine
end

