-- ==== Sys2Proof/Machine/View.lean ====
section
/-! DEFINITION. What a host read of BAR0 returns (R5 to R8, R432): the stored word of a register, the registers that show
other state, the event recorder's window and the MSI-X table. No row of the opcode table is a plain read, so no meaning
calls this file: it says what State's contents look like to the host; Machine/Access.lean adds what a read does. -/

namespace Sys2Proof.Machine

/-- Fields of a word, from (low bit, value) pairs. -/
def packed (l : List (Nat × Nat)) : Word := BitVec.ofNat 32 ((l.map fun p => p.2 * 2 ^ p.1).sum)

/-! ## Billing: the instance that BIL_CAL_SEL selects -/

/-- Index of the season in force on a date. -/
def seasonIndex (l : List Season) (m day : Nat) : Nat :=
  match (l.zipIdx.filter fun s => decide (s.1.month < m) || (decide (s.1.month = m) && decide (s.1.day ≤ day))).getLast? with
  | some s => s.2
  | none => l.length - 1

/-- BIL_CAL_STATE: what the selected instance shows now. -/
def Dev.calState (d : Dev) : Word :=
  let cal := d.trellis.calendar
  let off := d.signedFld F.TSU_UTC_OFFSET
  match cal.inst? (d.get F.BIL_CAL_SEL_INSTANCE) with
  | none => 0
  | some c =>
    let s := localStd c off d.tsu.sec
    let day := wallOf c s / 86400
    match civilFromDays day with
    | (y, m, dd) =>
      let season := seasonIndex c.seasons m dd
      let week := ((c.seasons[season]?).map (·.week)).getD 0
      let plain := (c.weeks.getD week []).getD (weekdayOf day - 1) 0
      let prof := ((specialFor c.inst y m dd cal.special).map (·.2)).getD plain
      packed [(31, 1), (30, b2n (isDst c s)), (20, season % 16), (16, week % 16), (11, prof % 32),
        (8, tariffIn cal c off d.tsu.sec % 8)]

/-- The selected instance's next tariff switch, 0 where none comes within a year. -/
def Dev.nextSwitch (d : Dev) : Nat :=
  let cal := d.trellis.calendar
  let off := d.signedFld F.TSU_UTC_OFFSET
  match cal.inst? (d.get F.BIL_CAL_SEL_INSTANCE) with
  | none => 0
  | some c =>
    let now := tariffIn cal c off d.tsu.sec
    let later := (switchesFrom cal c off 367 (localTime c off d.tsu.sec / 86400)).filter fun t => decide ((d.tsu.sec : Int) < t)
    ((later.find? fun t => tariffIn cal c off t.toNat ≠ now).map Int.toNat).getD 0

/-- Meters of the selected instance still to close. -/
def Dev.calLeft (d : Dev) : Nat :=
  let i := d.get F.BIL_CAL_SEL_INSTANCE
  match Maps.get? i d.bil.sweeps with
  | some b => (d.sweepLeft i b).length
  | none => 0

/-! ## Keys: the slot that KEY_SLOT_SEL selects -/

/-- The public key KEY_PUB_n shows: the candidate's, or the selected SIGN slot's; zero unless KIND 4. -/
def Dev.shownPub (d : Dev) : Nat :=
  if d.flag F.KEY_SLOT_SEL_CAND then
    match d.clo.candidate with
    | some c => if c.kind = Kind.sign then (Crypto.pubKey (BitVec.ofNat 256 (deriveKey c.root c.kind c.slot (d.nextGen c)))).toNat else 0
    | none => 0
  else
    let slot := d.get F.KEY_SLOT_SEL_SLOT
    match d.root? slot with
    | some r =>
      let m := d.slotMeta slot
      if m.kind = Kind.sign then (Crypto.pubKey (BitVec.ofNat 256 (deriveKey r m.kind slot m.gen))).toNat else 0
    | none => 0

/-- KEY_SLOT_SEL and KEY_SLOT_INFO. -/
def Dev.shownSlot (d : Dev) : SlotMeta := d.slotMeta (d.get F.KEY_SLOT_SEL_SLOT)

/-! ## Derived registers -/

/-- The selected module's serial (MSR_MOD_SEL), 0 with no valid record. -/
def Dev.moduleSerial (d : Dev) : Nat :=
  let s := d.modSlot (d.get F.MSR_MOD_SEL_SLOT)
  ((if d.flag F.MSR_MOD_SEL_KIND then s.line else s.front).map (·.serial)).getD 0

/-- The selected coefficient (MSR_COEF_SEL). -/
def Dev.shownCoef (d : Dev) : Nat :=
  let i := 128 * d.get F.MSR_COEF_SEL_STAGE + 64 * d.get F.MSR_COEF_SEL_BANK + d.get F.MSR_COEF_SEL_INDEX
  (Maps.get? i d.msr.coefs).getD (Config.nominalCoef i).toNat

/-- RNG_n_STATUS over its stored bits. -/
def Dev.ringStatus (d : Dev) (n : Nat) : Word :=
  let used := d.face.ringUsed n
  (d.reg (R.RNG_n_STATUS.at n) &&& 0x3E000000#32) ||| packed [(31, b2n (used == 16384)), (30, b2n (used == 0)), (0, used)]

/-- RNG_n_CFG: DRAIN as stored, the rest from RING_MAP. -/
def Dev.ringCfg (d : Dev) (n : Nat) : Word :=
  let r := d.ringRec n
  packed [(31, b2n (r.content != 0)), (30, r.direction % 2), (27, r.content % 8), (26, b2n r.signed),
    (25, d.get (F.RNG_n_CFG_DRAIN.at n)), (16, r.vector % 64)]

/-- The forecast of the monitor that HLT_FC_SEL selects. -/
def Dev.shownMonitor (d : Dev) : Monitor := Maps.getD d.face.hst.monitors (d.get F.HLT_FC_SEL_MONITOR) {}

/-- GPIO pin levels: driven from OUT where OE is set (R480). -/
def Dev.gpioLevels (d : Dev) : Nat :=
  ((List.range 16).map fun n =>
    2 ^ n * b2n (if bitAt d.gpioDriven n then bitAt (d.get F.GLB_GPIO_OUT_PINS) n else bitAt d.glb.gpioIn n)).sum

/-- Registers that show state kept elsewhere. -/
def Dev.shown? (d : Dev) (off : Nat) : Option Word :=
  let word (n : Nat) : Option Word := some (BitVec.ofNat 32 n)
  let ring := off % 0x10000 / 0x100 - 0x10
  if off = R.GLB_ID.off then word 0x961000B0
  else if off = R.GLB_SERIAL_LO.off then word Config.serial.toNat
  else if off = R.GLB_SERIAL_HI.off then word (Config.serial.toNat / 2 ^ 32)
  else if off = R.GLB_GRADE.off then word (if Config.gradeE then 125 * 256 + 1 else 110 * 256)
  else if off = R.GLB_CLOCK.off then some ((d.reg off &&& 0xF0000000#32) ||| packed [(0, if Config.gradeE then 5500 else 6400)])
  else if off = R.GLB_GPIO_IN.off then word d.gpioLevels
  else if off = R.TRL_SECVER.off then some (packed [(16, d.get F.TRL_SECVER_LIVE), (0, d.trl.floor)])
  else if off / 65536 = 15 then some (d.cloWord off)
  else if off = R.BIL_CAL_STATE.off then some d.calState
  else if off = R.BIL_CAL_NEXT_LO.off then word d.nextSwitch
  else if off = R.BIL_CAL_NEXT_HI.off then word (d.nextSwitch / 2 ^ 32)
  else if off = R.BIL_CAL_CLOSED.off then word (Maps.getD d.dur.calClosed (d.get F.BIL_CAL_SEL_INSTANCE) (0, 0)).1
  else if off = R.BIL_CAL_CLOSED_AT_LO.off then word (Maps.getD d.dur.calClosed (d.get F.BIL_CAL_SEL_INSTANCE) (0, 0)).2
  else if off = R.BIL_CAL_CLOSED_AT_HI.off then word ((Maps.getD d.dur.calClosed (d.get F.BIL_CAL_SEL_INSTANCE) (0, 0)).2 / 2 ^ 32)
  else if off = R.BIL_CAL_SWEEP.off then word d.calLeft
  else if off = R.BAL_STATUS.off then some ((d.reg off &&& 0xC0000000#32) ||| packed [(0, d.trellis.zones.length)])
  else if off = R.KEY_SLOT_SEL.off then some (d.reg off ||| packed [(16, d.shownSlot.gen % 65536)])
  else if off = R.KEY_SLOT_INFO.off then
    some (if (d.root? (d.get F.KEY_SLOT_SEL_SLOT)).isSome then packed [(28, d.shownSlot.kind % 16), (0, d.shownSlot.kcv)] else 0)
  else if R.KEY_PUB_n.covers off then word (d.shownPub / 2 ^ (32 * (15 - (off - R.KEY_PUB_n.off) / 4)))
  else if off = R.MSR_MOD_SERIAL_LO.off then word d.moduleSerial
  else if off = R.MSR_MOD_SERIAL_HI.off then word (d.moduleSerial / 2 ^ 32)
  else if off = R.MSR_COEF_DATA.off then word d.shownCoef
  else if off = R.TSU_TIME_FRAC.off then word d.tsu.frac
  else if off = R.TSU_TIME_NS.off then word ((d.tsu.timeLatch.map (·.1)).getD d.tsu.ns)
  else if off = R.TSU_TIME_SEC_LO.off then word ((d.tsu.timeLatch.map (·.2)).getD d.tsu.sec)
  else if off = R.TSU_PPS_IN_SEC_LO.off then word (d.tsu.ppsLatch.getD (d.wide R.TSU_PPS_IN_SEC_LO R.TSU_PPS_IN_SEC_HI 0))
  else if off = R.TSU_PPS_IN_SEC_HI.off then word (d.tsu.ppsLatch.getD (d.wide R.TSU_PPS_IN_SEC_LO R.TSU_PPS_IN_SEC_HI 0) / 2 ^ 32)
  else if off = R.TSU_TIME_SEC_HI.off then word ((d.tsu.timeLatch.map (·.2)).getD d.tsu.sec / 2 ^ 32 % 65536)
  else if R.ETH_n_CNT_k_LO.covers off then
    word (Maps.getD (d.ethPort ((off - R.ETH_n_CNT_k_LO.off) / 0x1000)).counters (off % 0x1000 / 8 - 32) 0)
  else if R.ETH_n_CNT_k_HI.covers off then
    let p := d.ethPort ((off - R.ETH_n_CNT_k_LO.off) / 0x1000)
    let k := off % 0x1000 / 8 - 32
    word ((Maps.get? k p.latched).getD (Maps.getD p.counters k 0 / 2 ^ 32))
  else if R.NFM_PART_n.covers off then
    some ((d.reg off &&& 0xFFFF0000#32) ||| (Config.partUsed ((off - R.NFM_PART_n.off) / 4) d.cycles).zeroExtend 32)
  else if off = R.NFM_RT_DATA_LO.off then word (Maps.getD d.nfm.thresholds (d.get F.NFM_RT_SEL_INDEX) 0)
  else if off = R.NFM_RT_DATA_HI.off then word (Maps.getD d.nfm.thresholds (d.get F.NFM_RT_SEL_INDEX) 0 / 2 ^ 32)
  else if R.RNG_n_STATUS.covers off then some (d.ringStatus ring)
  else if R.RNG_n_CFG.covers off then some (d.ringCfg ring)
  else if off = R.EVR_CODE_SUPP.off then word (Maps.getD d.face.hst.evr.suppressed (d.get F.EVR_CODE_SEL_VALUE) 0)
  else if off = R.HLT_TEMP.off then
    some (((Config.dieTemp d.cycles).2.zeroExtend 32 <<< 16) ||| (Config.dieTemp d.cycles).1.zeroExtend 32)
  else if off = R.HLT_FC_EST.off then some (packed [(31, b2n d.shownMonitor.valid), (0, d.shownMonitor.est)])
  else if off = R.HLT_FC_BAND.off then some (packed [(16, d.shownMonitor.high), (0, d.shownMonitor.low)])
  else if off = R.HLT_FC_LIMIT.off then word (d.limitOf (d.get F.HLT_FC_SEL_MONITOR))
  else if off = R.HLT_FC_USED.off then word d.shownMonitor.usedPpm
  else none

/-! ## Windows -/

/-- A word of the recorder's window: record PAGE × 1,024 + i at 0x8000 + 32 × i (EVR_WIN_BASE). -/
def Dev.windowWord (d : Dev) (off : Nat) : Word :=
  let o := off % 0x8000
  let i := 1024 * d.get F.EVR_WIN_BASE_PAGE + o / 32
  match Maps.get? i d.face.hst.evr.recs with
  | some r => BitVec.ofNat 32 (r.bytes.le (o % 32) 4)
  | none => 0

/-- A word of the MSI-X table or of its pending bit array (R433). -/
def Dev.msixWord (d : Dev) (off : Nat) : Word :=
  if off < 0x3F0400 then
    let m := Maps.getD d.face.hst.msix (off % 0x10000 / 16) {}
    match off % 16 / 4 with
    | 0 => BitVec.ofNat 32 m.addr
    | 1 => BitVec.ofNat 32 (m.addr / 2 ^ 32)
    | 2 => BitVec.ofNat 32 m.data
    | _ => packed [(0, b2n m.masked)]
  else if off = 0x3F8000 ∨ off = 0x3F8004 then
    BitVec.ofNat 32 ((d.face.hst.msix.map fun p => b2n p.2.pend * 2 ^ p.1).sum / 2 ^ (8 * (off % 8)))
  else 0

/-- The word a host read of BAR0 returns (R5 to R8, R432): 0xFFFF_FFFF while the device is in reset, 0 at an unmapped
offset, and never a WO field or reserved bit. -/
def Dev.readReg (d : Dev) (off : Nat) : Word :=
  let off := off % 0x400000 / 4 * 4
  if d.glb.inReset then 0xFFFFFFFF
  else if 0x3F0000 ≤ off then d.msixWord off
  else if 0x118000 ≤ off ∧ off < 0x120000 then d.windowWord off
  else
    match regAt? off with
    | none => 0
    | some r => (d.shown? off).getD (shownFields (d.reg off) r.fields)

end Sys2Proof.Machine
end

