-- ==== Sys2Proof/Machine/Access.lean ====
section
/-! DEFINITION. Host accesses to BAR0 as the host issues them (R5, R8): a read of a register whose read has a command row
of its own is that command; any other returns the word and has the effect its register's table names; a write is
REGISTER_WRITE and the rows its word starts; and a 64-bit access is two 32-bit ones, the lower address first. -/

namespace Sys2Proof.Machine

/-- The command that a read of the register at `off` is, where the table has a row for it. -/
def readRow? (off : Nat) : Option Instr :=
  if off = R.TSU_TIME_FRAC.off then some .tsuTimeRead
  else if off = R.TSU_PPS_IN_NS.off then some .tsuPpsInRead
  else if off = R.CLO_TIME_LO.off then some .cloTimeRead
  else if off = R.CLO_TREC_COUNT.off then some .cloTrecRead
  else if R.ZXP_CYCLE.covers off then some (.zxpCycleRead ((off - R.ZXP_CYCLE.off) / 0x400))
  else if R.ETH_n_CNT_k_LO.covers off then some (.ethCounterRead ((off - R.ETH_n_CNT_k_LO.off) / 0x1000) (off % 0x1000 / 8 - 32))
  else if R.RNG_n_DATA.covers off then some (.ringDataRead ((off - R.RNG_n_DATA.off) / 0x100))
  else none

/-- What a read of the register at `off` leaves, where the table has no row for it: a latch or shadow is released, an
AUTOINC pointer moves, and a field of type RC is cleared. -/
def Dev.readEffect (d : Dev) (off : Nat) : Dev :=
  if off / 65536 = 15 then d.cloSettle.cloRead off
  else if off = R.TSU_TIME_SEC_HI.off then { d with tsu := { d.tsu with timeLatch := none } }
  else if off = R.TSU_PPS_IN_SEC_HI.off then { d with tsu := { d.tsu with ppsLatch := none } }
  else if R.ZXP_ZC_SEC_HI.covers off then
    let f := (off - R.ZXP_ZC_SEC_HI.off) / 0x400
    (d.setZxFeeder f { d.zxFeeder f with latch := none }).showCycle f
  else if R.ETH_n_CNT_k_HI.covers off then
    let n := (off - R.ETH_n_CNT_k_LO.off) / 0x1000
    d.setEth n { d.ethPort n with latched := Maps.del (off % 0x1000 / 8 - 32) (d.ethPort n).latched }
  else if off = R.MSR_COEF_DATA.off ∧ d.flag F.MSR_COEF_SEL_AUTOINC then
    d.set F.MSR_COEF_SEL_INDEX (d.get F.MSR_COEF_SEL_INDEX + 1)
  else if off = R.NFM_RT_DATA_HI.off ∧ d.flag F.NFM_RT_SEL_AUTOINC then
    d.set F.NFM_RT_SEL_INDEX ((d.get F.NFM_RT_SEL_INDEX + 1) % 512)
  else
    match regAt? off with
    | some r => d.setReg off (readFields (d.reg off) r.fields)
    | none => d

/-- One 32-bit read: the word returned and the block after it. An access to the CLO block finds the effect of those
issued before it (R7). -/
def State.read32 (s : State) (off : Nat) : Word × State :=
  let a := off % 0x400000 / 4 * 4
  if s.dev.glb.inReset then (0xFFFFFFFF, s)
  else
    match readRow? a with
    | some i =>
      match exec i s with
      | .next t => (t.dev.lastRead, t)
      | _ => (s.dev.readReg a, s)
    | none =>
      let w := (if a / 65536 = 15 then s.dev.cloSettle else s.dev).readReg a
      (w, { s with dev := { s.dev.readEffect a with lastRead := w } })

/-- R5: a 64-bit read: the word at the lower address first. -/
def State.read64 (s : State) (off : Nat) : Word × Word × State :=
  let lo := s.read32 off
  let hi := lo.2.read32 (off + 4)
  (lo.1, hi.1, hi.2)

/-! ## Writes -/

/-- What a command reads from outside beside the register word that starts it: an object in host memory, install entries, a
SIGN root, sampled input. -/
structure HostBuf where
  object : Bytes := []
  installs : List InstallEntry := []
  root : Nat := 0
  wrapped : Nat := 0
  bits : List Sdi := []
  oscSlow : Nat := 0
  deriving DecidableEq, Repr

/-- The command an opcode of TRL_CMD starts. -/
def trlRow (v : Word) (h : HostBuf) : List Instr :=
  let slot := bitsOf v 9 8
  match bitsOf v 7 0 with
  | 1 => [.loadHost h.object]
  | 2 => [.storeNor h.object]
  | 3 => [.storeNand h.object]
  | 4 => [.stage slot h.object]
  | 5 => [.arm slot]
  | 6 => [.trlCancel slot]
  | 7 => [.bindOwner]
  | 8 => [.raiseFloor]
  | _ => []

/-- The commands of the head, superframe, context and pulse blocks' command registers. -/
def fieldRow (off : Nat) (v : Word) : List Instr :=
  let all := v.getLsbD 13
  let cell := bitsOf v 11 0
  let head := bitsOf v 27 16
  let index := bitsOf v 19 0
  if off = R.FHM_MODE_CMD.off then
    match bitsOf v 15 14 with
    | 1 => [.fhmModeEnter all cell]
    | 2 => [.fhmModeLeave all cell]
    | 3 => [.fhmModeTest all cell]
    | _ => []
  else if off = R.FHM_HEAD_CMD.off then
    match bitsOf v 7 0 with
    | 1 => [.fhmHeadAdd head]
    | 2 => [.fhmHeadRemove head]
    | 3 => [.fhmHeadRecall head]
    | _ => []
  else if R.ZXP_ASSIGN.covers off then
    match bitsOf v 27 24 with
    | 1 => [.zxpAssign ((off - R.ZXP_ASSIGN.off) / 0x400) index]
    | 2 => [.zxpRelease ((off - R.ZXP_ASSIGN.off) / 0x400) index]
    | _ => []
  else if off = R.CTX_CMD.off then
    match bitsOf v 23 20 with
    | 1 => [.ctxAlloc]
    | 2 => [.ctxAllocAt index]
    | 3 => [.ctxFree index]
    | 4 => [.ctxPin index]
    | 5 => [.ctxUnpin index]
    | _ => []
  else []

/-- The command an opcode of KEY_CMD starts. -/
def keyRow (v : Word) (h : HostBuf) : List Instr :=
  let index := bitsOf v 19 0
  match bitsOf v 24 20 with
  | 0x01 => [.provOpen]
  | 0x02 => [.provPeer h.object]
  | 0x03 => [.provClose]
  | 0x04 => [.rootImport index h.root h.wrapped]
  | 0x05 => [.rootGenerate index]
  | 0x06 => [.rootCommit]
  | 0x07 => [.rootCancel]
  | 0x08 => [.rootErase index]
  | 0x09 => [.rewrap index]
  | 0x0A => [.meterInstall h.installs]
  | 0x0B => [.meterCancel index]
  | 0x0C => [.headInstall h.installs]
  | 0x0D => [.headCancel index]
  | 0x0E => [.bcastRoll index]
  | 0x0F => [.exportCert]
  | 0x10 => [.resume]
  | 0x11 => [.classAkInstall h.installs]
  | _ => []

/-- The commands of the balance, campaign, time, media, pair and recorder blocks' command registers. -/
def planeRow (off : Nat) (v : Word) (h : HostBuf) : List Instr :=
  let index := bitsOf v 19 0
  let slot := bitsOf v 23 20
  if off = R.BAL_CMD.off then
    match bitsOf v 23 20 with
    | 1 => [.attach index]
    | 2 => [.detach index]
    | 3 => [.queryZone index]
    | 4 => [.queryMeter index]
    | _ => []
  else if off = R.DST_CMD.off then
    match bitsOf v 26 24 with
    | 1 => [.dstLoad slot h.object]
    | 2 => [.dstAdd slot index]
    | 3 => [.dstAddClass slot (index % 64)]
    | 4 => [.dstRemove slot index]
    | 5 => [.dstAbort slot]
    | 6 => [.dstClear slot]
    | _ => []
  else if off = R.TSU_ADJ_CMD.off then
    match bitsOf v 1 0 with
    | 1 => [.tsuStep]
    | 2 => [.tsuSlew]
    | _ => []
  else if off = R.NFM_CMD.off then
    match bitsOf v 23 20 with
    | 1 => [.format (v.getLsbD 0)]
    | 2 => [.archRead]
    | _ => []
  else if off = R.PRL_CMD.off then
    match bitsOf v 3 0 with
    | 1 => [.handover]
    | 2 => [.take]
    | 3 => [.forceTake]
    | 4 => [.clearNonrevertive]
    | 5 => [.prlResync]
    | _ => []
  else if off = R.EVR_CMD.off ∧ bitsOf v 3 0 = 1 then [.archiveRead]
  else []

/-- The rows that a write to a ring's own registers is. -/
def ringRow (off : Nat) (v : Word) : List Instr :=
  let ring := (off - R.RNG_n_CFG.off) / 0x100
  if R.RNG_n_DATA.covers off then [.ringDataWrite ring v]
  else if R.RNG_n_CMD.covers off then
    (if v.getLsbD 0 then [.ringFlush ring] else []) ++ (if v.getLsbD 1 then [.ringMark ring] else []) ++
      (if v.getLsbD 2 then [.ringRewind ring] else [])
  else if R.RNG_n_CONFIRM_LO.covers off then [.ringConfirm ring v]
  else if R.RNG_n_HRD.covers off then [.ringHrdWrite ring v]
  else []

/-- The CNT_CLEAR bits (R461). -/
def clearBits : List (RegD × Nat) :=
  [(R.FHM_CTRL, 2), (R.ZXP_CTRL, 16), (R.MSR_CTRL, 4), (R.ING_CTRL, 2), (R.CTX_CTRL, 0), (R.BIL_CTRL, 0), (R.BAL_CTRL, 0),
   (R.DST_CTRL, 0), (R.KEY_CTRL, 0), (R.TSU_CTRL, 4), (R.ETH_n_CTRL, 7), (R.NFM_CTRL, 0), (R.JNL_CTRL, 0), (R.PRL_CTRL, 0),
   (R.RNG_CTRL, 0), (R.EVR_CTRL, 0)]

/-- The rows of the bits that act when 1 is written to them. -/
def bitRow (off : Nat) (v : Word) (h : HostBuf) : List Instr :=
  let on (x : Fld) (c : Instr) : List Instr := if off = x.off ∧ v.getLsbD x.lo then [c] else []
  (if clearBits.any fun p => p.1.covers off && v.getLsbD p.2 then [.counterClear off false] else []) ++
    on F.CTX_CTRL_ARB_CLEAR (.counterClear off true) ++ on F.TRL_CTRL_SEAL .hostSeal ++ on F.MSR_CTRL_SYNC .msrSyncRequest ++
    on F.BAL_CTRL_RESTART .balRestart ++ on F.TSU_CLO_CMD_START .cloMeasureStart ++ on F.NFM_CTRL_RAKE_NOW .rakeNow ++
    on F.JNL_CTRL_CKPT_NOW .ckptNow ++ on F.PRL_HOST_BEAT_BEAT .hostBeat ++ on F.HLT_CTRL_UPDATE (.hltUpdate h.oscSlow) ++
    on F.MSR_SWAP_GO (.msrSwapRequest v)

/-- The rows of the measurement chain's and the pulse block's own registers. -/
def chainRow (off : Nat) (v : Word) (h : HostBuf) : List Instr :=
  if off = R.TSU_INCR_FRAC.off then [.tsuIncrWrite v]
  else if off = R.MSR_COEF_DATA.off then [.msrCoefWrite v]
  else if R.MSR_FDR_LATCH.covers off ∧ v.getLsbD 0 then [.msrEnergyLatch ((off - R.MSR_FDR_LATCH.off) / 0x100) h.bits]
  else if R.ZXP_FAULT.covers off then [.zxpFaultClear ((off - R.ZXP_FAULT.off) / 0x400) (bitsOf v 2 0)]
  else []

/-- The commands that a host write of `v` at `off` with byte enables `be` is (R5, R8): REGISTER_WRITE, which does what the
field types say, then every row of its own that the word starts. A write to the CLO block acts whole at
CLO_ACCESS_ARRIVAL (R7). -/
def writeRows (off be : Nat) (v : Word) (h : HostBuf) : List Instr :=
  let a := off % 0x400000 / 4 * 4
  .registerWrite off be v ::
    (if be % 16 ≠ 15 ∨ a / 65536 = 15 then []
     else if a = R.TRL_CMD.off then trlRow v h
     else if a = R.KEY_CMD.off then keyRow v h
     else fieldRow a v ++ planeRow a v h ++ ringRow a v ++ bitRow a v h ++ chainRow a v h)

/-- R5: a 64-bit write of `v` with byte enables `be`: two 32-bit writes, the lower address first. -/
def writes64 (off be : Nat) (v : BitVec 64) (h : HostBuf) : List Instr :=
  writeRows off (be % 16) (v.truncate 32) h ++ writeRows (off + 4) (be / 16) ((v >>> 32).truncate 32) h

end Sys2Proof.Machine
end

