-- ==== Sys2Proof/Machine/Jtag.lean ====
section
/-! DEFINITION. The JTAG port of R479: the TAP controller of IEEE 1149.1 and the registers its four instructions select. No
row of the command table drives its pins, and the board holds TRST_N low in service, so no meaning calls this file. No
instruction selects anything of the Cloche, the fuses or the keys. -/

namespace Sys2Proof.Machine

/-- IDCODE (R479). -/
def jtagIdcode : Word := 0xB96107D3

/-- The controller's next state at a rising TCK edge, for TMS high and low (IEEE 1149.1). -/
def TapState.next : TapState → Bool → TapState
  | .logicReset, tms => if tms then .logicReset else .runTest
  | .runTest, tms => if tms then .selectDr else .runTest
  | .selectDr, tms => if tms then .selectIr else .captureDr
  | .captureDr, tms => if tms then .exit1Dr else .shiftDr
  | .shiftDr, tms => if tms then .exit1Dr else .shiftDr
  | .exit1Dr, tms => if tms then .updateDr else .pauseDr
  | .pauseDr, tms => if tms then .exit2Dr else .pauseDr
  | .exit2Dr, tms => if tms then .updateDr else .shiftDr
  | .updateDr, tms => if tms then .selectDr else .runTest
  | .selectIr, tms => if tms then .logicReset else .captureIr
  | .captureIr, tms => if tms then .exit1Ir else .shiftIr
  | .shiftIr, tms => if tms then .exit1Ir else .shiftIr
  | .exit1Ir, tms => if tms then .updateIr else .pauseIr
  | .pauseIr, tms => if tms then .exit2Ir else .pauseIr
  | .exit2Ir, tms => if tms then .updateIr else .shiftIr
  | .updateIr, tms => if tms then .selectDr else .runTest

/-- The instruction that a code shifted into the instruction register selects; an unlisted one selects BYPASS. -/
def jtagDecode (code : List Bool) : JtagInstr :=
  if code = Config.jtagCode 1 then .idcode
  else if code = Config.jtagCode 2 then .samplePreload
  else if code = Config.jtagCode 3 then .extest
  else .bypass

/-- What Capture-DR loads: 0 for BYPASS, the identification code, or the levels at the pins. -/
def JtagInstr.capture (i : JtagInstr) (pins : List Bool) : List Bool :=
  match i with
  | .bypass => [false]
  | .idcode => (List.range 32).map jtagIdcode.getLsbD
  | .samplePreload => pins
  | .extest => pins

/-- One bit shifted in from TDI. -/
def shiftIn (tdi : Bool) (l : List Bool) : List Bool := l.tail ++ [tdi]

/-- R479: one TCK cycle: what the state does, then the controller's next state. TDO is the shift register's head. -/
def Tap.clock (t : Tap) (pins : List Bool) (tms tdi : Bool) : Tap :=
  let t' := match t.state with
    | .captureDr => { t with shift := t.instr.capture pins }
    | .captureIr => { t with shift := true :: List.replicate (Config.jtagLength - 1) false }
    | .shiftDr => { t with shift := shiftIn tdi t.shift }
    | .shiftIr => { t with shift := shiftIn tdi t.shift }
    | .updateIr => { t with instr := jtagDecode t.shift }
    | .updateDr => if t.instr = JtagInstr.samplePreload ∨ t.instr = JtagInstr.extest then { t with latched := t.shift } else t
    | .logicReset => { t with instr := .idcode }
    | _ => t
  { t' with state := t.state.next tms }

/-- TRST_N low: Test-Logic-Reset, with IDCODE in force. -/
def Tap.reset (t : Tap) : Tap := { t with state := .logicReset, instr := .idcode }

/-- The level TDO shows in a shift state. -/
def Tap.tdo (t : Tap) : Option Bool := if t.state = .shiftDr ∨ t.state = .shiftIr then t.shift.head? else none

/-- The levels that EXTEST drives onto the pins in place of the device's own. -/
def Tap.drives (t : Tap) : Option (List Bool) := if t.instr = .extest then some t.latched else none

/-- R479: one TCK cycle of the device with the levels at its pins. -/
def Dev.tck (d : Dev) (pins : List Bool) (tms tdi : Bool) : Dev := { d with glb := { d.glb with tap := d.glb.tap.clock pins tms tdi } }

end Sys2Proof.Machine
end

