-- ==== Sys2Proof/Machine/Pcie.lean ====
section
/-! DEFINITION. The PCIe function's configuration space (R3, R429 to R431, R471): what a configuration request is answered
with. No row of the command table is a configuration request, so no meaning calls this file; FUNCTION_LEVEL_RESET and
PERST_N clear what it holds. The header follows the PCI Express Base specification; where its capabilities stand is the
model's choice (log entry 71). -/

namespace Sys2Proof.Machine

/-- A completion of a configuration request: a word, or Configuration Request Retry Status. -/
inductive CfgAnswer where
  | word (w : Word)
  | retry
  deriving DecidableEq, Repr

/-- R430, R471: the function answers configuration requests: no reset holds it, PERST_N is high, and its host interface is
ready, at the latest 100 ms (122,880,000 CORE_CLK cycles) after RESET_N release or PERST_N's rise. No state of Seedbed matters. -/
def Dev.cfgReady (d : Dev) : Bool :=
  !d.glb.inReset && !d.glb.perstLow && decide (max d.glb.released d.glb.perstRise + min Config.hostReady 122880000 ≤ d.cycles)

/-- The fixed bits of a configuration word (R3, R429). -/
def cfgFixed (off : Nat) : Word :=
  match off with
  | 0x000 => 0x96101FD3
  | 0x004 => 0x00100000                                   -- a capability list is present
  | 0x008 => 0x0B4000B0
  | 0x010 => 0x00000004                                   -- BAR0: memory, 64-bit, not prefetchable
  | 0x02C => 0x96101FD3
  | 0x034 => 0x00000040
  | 0x040 => 0x00035001                                   -- power management: D0 and D3hot
  | 0x050 => 0x003F7011                                   -- MSI-X, 64 vectors
  | 0x054 => 0x003F0000                                   -- the table, in BAR0
  | 0x058 => 0x003F8000                                   -- the pending bit array, in BAR0
  | 0x070 => 0x00020010                                   -- PCI Express endpoint
  | 0x074 => 0x10008002                                   -- FLR; Max_Payload_Size 512 B
  | 0x07C => 0x00000084                                   -- Gen 4, x8, no ASPM
  | 0x094 => 0x00020000                                   -- 10-bit tag requester
  | 0x100 => 0x15010001                                   -- AER
  | 0x150 => 0x00010003                                   -- Device Serial Number
  | 0x154 => Config.serial.truncate 32
  | 0x158 => (Config.serial >>> 32).truncate 32
  | _ => 0

/-- The bits that host software may write: the command bits, BAR0 in steps of 4 MiB, the power state, MSI-X enable and
mask, and the device control fields of payload and read request size. -/
def cfgWritable (off : Nat) : Word :=
  match off with
  | 0x004 => 0x00000546
  | 0x010 => 0xFFC00000
  | 0x014 => 0xFFFFFFFF
  | 0x044 => 0x00000003
  | 0x050 => 0xC0000000
  | 0x078 => 0x000078EF
  | _ => 0

/-- A configuration word after what host software wrote. -/
def Dev.cfgWord (d : Dev) (off : Nat) : Word :=
  let d3 : Word := if off = 0x044 ∧ d.face.hst.d3hot then 3 else 0
  cfgFixed off ||| (Maps.getD d.face.hst.cfg off 0 &&& cfgWritable off) ||| d3

/-- R430: a configuration read. -/
def Dev.cfgRead (d : Dev) (off : Nat) : CfgAnswer :=
  if d.cfgReady then .word (d.cfgWord (off % 0x1000 / 4 * 4)) else .retry

/-- A configuration write; until the host interface is ready it has no effect and is retried (R430). -/
def Dev.cfgWrite (d : Dev) (off : Nat) (v : Word) : Dev :=
  if d.cfgReady then { d with face := { d.face with hst := { d.face.hst with cfg := Maps.put d.face.hst.cfg (off % 0x1000 / 4 * 4) v } } }
  else d

end Sys2Proof.Machine
end

