-- ==== Sys2Proof/WellFormed.lean ====
section
/-! DEFINITION. Which commands the board can send: operands within the numbers the spec gives rings, vectors, ports, feeders,
phases, slots, heads, meters and offsets. A meaning is total; a command that is not well formed is one no board sends. -/

namespace Sys2Proof

open Sys2Proof.Machine

/-- Every index lies in its range. -/
def Instr.wf (i : Instr) : Bool :=
  match i with
  | .registerWrite off be _ => decide (off < 4194304) && decide (be < 16)
  | .cloAccessArrival _ => true
  | .counterClear off _ => decide (off < 4194304)
  | .resetAssert _ _ => true
  | .resetRelease _ => true
  | .startupStepComplete _ => true
  | .sealWaitExpire => true
  | .hostSeal => true
  | .thermalTrip => true
  | .thermalTripRelease => true
  | .perstN _ => true
  | .functionLevelReset _ => true
  | .powerFail => true
  | .powerFailClear => true
  | .loadHost _ => true
  | .storeNor _ => true
  | .storeNand _ => true
  | .stage slot _ => decide (slot < 3)
  | .arm slot => decide (slot < 3)
  | .trlCancel slot => decide (slot < 3)
  | .bindOwner => true
  | .raiseFloor => true
  | .graftApply slot _ => decide (slot < 3)
  | .fhmHeadAdd index => decide (index < 4096)
  | .fhmHeadRemove index => decide (index < 4096)
  | .fhmHeadRecall index => decide (index < 4096)
  | .fhmModeEnter _ cell => decide (cell < 4096)
  | .fhmModeLeave _ cell => decide (cell < 4096)
  | .fhmModeTest _ cell => decide (cell < 4096)
  | .headRequest port _ _ _ => decide (port < 4)
  | .headLeave port _ _ _ => decide (port < 4)
  | .rxReport port _ _ _ => decide (port < 4)
  | .ccaBusy port _ _ _ => decide (port < 4)
  | .txConfirm port _ _ _ => decide (port < 4)
  | .beaconConfirm port _ _ _ => decide (port < 4)
  | .headStatus port _ _ _ => decide (port < 4)
  | .headSilenceTimeout head => decide (head < 4096)
  | .headSuspendTimeout head => decide (head < 4096)
  | .txAtSend _ => true
  | .acceptWindowCheck _ _ _ => true
  | .beaconDue cell => decide (cell < 4096)
  | .beaconConfirmDeadline head _ => decide (head < 4096)
  | .txConfirmDeadline head _ => decide (head < 4096)
  | .stormCheck cell => decide (cell < 4096)
  | .superframeEnd cell => decide (cell < 4096)
  | .zxCrossing feeder phase _ _ => decide (feeder < 4) && decide (phase < 3)
  | .zxCrossingMissing feeder phase _ _ => decide (feeder < 4) && decide (phase < 3)
  | .zxReacquire feeder phase => decide (feeder < 4) && decide (phase < 3)
  | .zxPulseGate feeder phase => decide (feeder < 4) && decide (phase < 3)
  | .zxgWatchdog feeder phase => decide (feeder < 4) && decide (phase < 3)
  | .zxfFault feeder phase => decide (feeder < 4) && decide (phase < 3)
  | .zxFaultResume feeder phase => decide (feeder < 4) && decide (phase < 3)
  | .zxpFaultClear feeder _ => decide (feeder < 4)
  | .zxBlockDecode feeder phase _ => decide (feeder < 4) && decide (phase < 3)
  | .zxUplinkEnd feeder phase => decide (feeder < 4) && decide (phase < 3)
  | .zxAckBitmapFix feeder phase => decide (feeder < 4) && decide (phase < 3)
  | .zxOutboundFrameStart feeder phase => decide (feeder < 4) && decide (phase < 3)
  | .zxRoundBoundary feeder => decide (feeder < 4)
  | .zxpAssign feeder meter => decide (feeder < 4) && decide (meter < 1048576)
  | .zxpRelease feeder meter => decide (feeder < 4) && decide (meter < 1048576)
  | .zxpCycleRead feeder => decide (feeder < 4)
  | .modPresentFall slot => decide (slot < 4)
  | .moduleRecordRead slot _ _ => decide (slot < 4)
  | .modPresentRise slot => decide (slot < 4)
  | .msrSyncRequest => true
  | .msrEnable => true
  | .msrSyncReset _ => true
  | .msrSettleDone _ _ => true
  | .msrSwapRequest _ => true
  | .msrFadeEnd _ => true
  | .msrCoefWrite _ => true
  | .msrDtMeasure _ => true
  | .msrCalUpdate _ => true
  | .msrIntervalHandover feeder _ => decide (feeder < 4)
  | .msrEnergyLatch feeder _ => decide (feeder < 4)
  | .workItemAdmit meter => decide (meter < 1048576)
  | .resourceGrant meter => decide (meter < 1048576)
  | .resourceWaitTimeout meter => decide (meter < 1048576)
  | .resourceRetry meter => decide (meter < 1048576)
  | .contextFetchDone meter => decide (meter < 1048576)
  | .keyCacheFillDone meter _ => decide (meter < 1048576)
  | .cryptoLaneDone _ => true
  | .parseDone meter => decide (meter < 1048576)
  | .billingUpdateDone meter => decide (meter < 1048576)
  | .confirm _ _ => true
  | .mirrorWaitExpire => true
  | .reassemblyTimeout meter => decide (meter < 1048576)
  | .ctxAlloc => true
  | .ctxAllocAt index => decide (index < 1048576)
  | .ctxFree index => decide (index < 1048576)
  | .ctxPin index => decide (index < 1048576)
  | .ctxUnpin index => decide (index < 1048576)
  | .keyEpochTick => true
  | .signhashRequest port _ _ => decide (port < 9)
  | .signhashBlockEnd _ => true
  | .signhashOpDone _ => true
  | .arbUrgentChange port _ => decide (port < 9)
  | .arbStarved port => decide (port < 9)
  | .drainTransferDone ring => decide (ring < 64)
  | .intervalEnd _ _ => true
  | .periodBoundary _ _ => true
  | .closureSweepStart _ _ => true
  | .closureSweepDone _ => true
  | .attach _ => true
  | .detach _ => true
  | .queryZone _ => true
  | .queryMeter _ => true
  | .balRestart => true
  | .balEvaluation _ => true
  | .balEvalDone => true
  | .dstLoad slot _ => decide (slot < 16)
  | .campaignLoadStepDone slot _ => decide (slot < 16)
  | .dstAdd slot meter => decide (slot < 16) && decide (meter < 1048576)
  | .dstAddClass slot _ => decide (slot < 16)
  | .dstRemove slot meter => decide (slot < 16) && decide (meter < 1048576)
  | .dstAbort slot => decide (slot < 16)
  | .dstClear slot => decide (slot < 16)
  | .campaignRoundStart slot _ => decide (slot < 16)
  | .campaignBlockOrder slot _ => decide (slot < 16)
  | .collectionEnd slot _ => decide (slot < 16)
  | .campaignActivation slot => decide (slot < 16)
  | .campaignExpire slot => decide (slot < 16)
  | .campaignAbortBroadcast slot _ => decide (slot < 16)
  | .bitmapPageInDone slot _ => decide (slot < 16)
  | .provOpen => true
  | .provPeer _ => true
  | .provClose => true
  | .rootImport slot _ _ => decide (slot < 32)
  | .rootGenerate slot => decide (slot < 32)
  | .rootCommit => true
  | .rootCancel => true
  | .rootErase slot => decide (slot < 32)
  | .rewrap slot => decide (slot < 32)
  | .meterInstall _ => true
  | .meterCancel meter => decide (meter < 1048576)
  | .headInstall _ => true
  | .headCancel head => decide (head < 4096)
  | .bcastRoll _ => true
  | .exportCert => true
  | .resume => true
  | .classAkInstall _ => true
  | .provSessionExpire => true
  | .maskRefresh _ => true
  | .drbgReseed _ => true
  | .drbgStop => true
  | .bcastRollInstant _ => true
  | .tsuStep => true
  | .tsuSlew => true
  | .slewDone => true
  | .tsuIncrWrite _ => true
  | .tsuTimeRead => true
  | .ptpSync port _ _ => decide (port < 4)
  | .ptpFollowUp port _ _ => decide (port < 4)
  | .ptpDelayReq port _ => decide (port < 4)
  | .ptpDelayResp port _ _ => decide (port < 4)
  | .ptpPdelayReq port _ => decide (port < 4)
  | .ptpPdelayResp port _ _ => decide (port < 4)
  | .ptpPdelayRespFollowUp port _ _ => decide (port < 4)
  | .ptpAnnounce port _ _ => decide (port < 4)
  | .ptpAnnounceTimeout port => decide (port < 4)
  | .ptpMessageDue port _ => decide (port < 4)
  | .holdoverLimit => true
  | .utcLeap => true
  | .ppsInEdge => true
  | .ppsInMissing => true
  | .tsuPpsInRead => true
  | .cloMeasureStart => true
  | .cloMeasureDone _ => true
  | .ethNeighborSolicitation port _ _ _ _ => decide (port < 4)
  | .ethEchoRequest port _ _ _ _ _ => decide (port < 4)
  | .ethArpRequest port _ _ _ _ => decide (port < 4)
  | .ethNeighborAdvertisement port _ _ _ => decide (port < 4)
  | .ethFrameDrop port _ _ => decide (port < 4)
  | .neighbourSolicitRetry port _ => decide (port < 4)
  | .neighbourEntryExpire port _ => decide (port < 4)
  | .ethLinkChange port _ _ _ _ => decide (port < 4)
  | .ethCounterRead port k => decide (port < 4) && decide (k < 8)
  | .format _ => true
  | .archRead => true
  | .rakeNow => true
  | .rakePassStart => true
  | .rakeBehind => true
  | .nandReadDone _ _ _ _ _ _ _ _ _ => true
  | .nandProgramDone _ _ _ _ _ => true
  | .wearLevelCheck => true
  | .checkpointTrigger _ => true
  | .ckptNow => true
  | .checkpointComplete => true
  | .zeroize => true
  | .anchor => true
  | .anchorApply => true
  | .tickLoad => true
  | .tickLoadApply => true
  | .unlock => true
  | .chargeClear => true
  | .tampLock => true
  | .tamperLatchClear _ => true
  | .oscStoppedClear => true
  | .cloTrimWrite _ => true
  | .cloAlarmFire n => decide (n < 4)
  | .oscStopDetect => true
  | .oscResume => true
  | .tamperAssert source => decide (source < 13)
  | .hedgeSample pair _ => decide (pair < 2)
  | .supplyToBattery => true
  | .supplyToMain _ => true
  | .retLost => true
  | .vbatMeasure _ => true
  | .cloTimeRead => true
  | .cloTrecRead => true
  | .handover => true
  | .take => true
  | .forceTake => true
  | .clearNonrevertive => true
  | .prlResync => true
  | .hostBeat => true
  | .hostBeatTimeout => true
  | .watchdogExpire => true
  | .faultVerdict _ => true
  | .faultCleared _ => true
  | .pairActiveFall _ => true
  | .pairTakeRise => true
  | .pairHealthyChange _ => true
  | .hello _ _ => true
  | .helloDue _ => true
  | .negotiateTimeout _ => true
  | .holdoffExpire => true
  | .probationExpire => true
  | .drillAgeUpdate => true
  | .standbySelftest _ => true
  | .mirror _ _ _ => true
  | .digest _ _ => true
  | .resync _ _ => true
  | .resyncPhaseDone => true
  | .command _ _ _ => true
  | .forwardUp _ _ => true
  | .acceptNotice _ _ _ _ _ => true
  | .forwardDown _ _ _ _ _ => true
  | .downConfirm _ _ _ => true
  | .runnerRetransmit link => decide (link < 3)
  | .runnerLinkDown link => decide (link < 3)
  | .runnerLinkUp link => decide (link < 3)
  | .ringDataWrite ring _ => decide (ring < 64)
  | .ringDataRead ring => decide (ring < 64)
  | .ringFlush ring => decide (ring < 64)
  | .ringMark ring => decide (ring < 64)
  | .ringRewind ring => decide (ring < 64)
  | .ringConfirm ring _ => decide (ring < 64)
  | .ringHrdWrite ring _ => decide (ring < 64)
  | .msixUnmask vector => decide (vector < 64)
  | .ringCoalesceTimeout ring => decide (ring < 64)
  | .objectRequest ring => decide (ring < 64)
  | .meterRequest ring => decide (ring < 64)
  | .meterRequestTimeout meter => decide (meter < 1048576)
  | .certLoad ring => decide (ring < 64)
  | .eventSummary code => decide (code < 1024)
  | .archiveRead => true
  | .healthDailySample _ => true
  | .hltUpdate _ => true
  | .tamperInactive source => decide (source < 13)
  | .zxfFall feeder phase => decide (feeder < 4) && decide (phase < 3)
  | .ppsOutEdge _ => true
  | .saturation channel _ => decide (channel < 32)

end Sys2Proof
end

