-- ==== Sys2Proof/Tests/Support.lean ====
section
/-! SUPPORT. States for the tests and witnesses. -/

namespace Sys2Proof.Tests

open Sys2Proof.Machine

/-- The reset state with some fields set, then a change of the device. -/
def st (l : List (Fld × Nat)) (f : Dev → Dev := id) : State := { dev := f (l.foldl (fun d p => d.set p.1 p.2) Dev.reset) }

/-- A host command packet: opcode, response ring 1, tag 5, certificate 0x123456789ABCDEF0, nonce 100, the body, and room for a
signature where the opcode has one. -/
def hostPkt (op : Nat) (body : Bytes) : List Word :=
  0x05000000 :: bytesToWords ([BitVec.ofNat 8 op, 1, 5, 0] ++ beBytes 8 0x123456789ABCDEF0 ++ leBytes 8 100 ++ leBytes 2 body.length ++ [0, 0] ++ body ++
    List.replicate ((4 - body.length % 4) % 4) 0 ++ (if op = 3 then [] else List.replicate 64 0))

/-- The device after a command that answers a next state. -/
def after (i : Instr) (s : State) : Dev :=
  match exec i s with
  | .next t => t.dev
  | .fault _ => s.dev
  | .refused _ => s.dev

theorem after_on {i : Instr} {s : State} {f : Dev → Dev} (h : exec i s = s.on f) : after i s = f s.dev := by rw [after, h]; rfl

/-- The device with a live structure. -/
def withT (t : Trellis) (d : Dev) : Dev := { d with trl := { d.trl with live := some t } }

/-! Live structures and parts of states that several witnesses share. -/

def ownT : Trellis :=
  { device := { bucketOwner := List.replicate 4096 0 }, classes := [⟨0, 0, 0, 5, 0, 1, 0, 0, 900, 1000, [], []⟩] }

def pairT : Trellis := { device := { pairMode := 1, position := 3, partner := 4 } }

def linkT : Trellis := { device := { pairMode := 1, position := 3, partner := 4, mirrorLink := 1, linkEnable := 7 } }

def msrT : Trellis :=
  { msrChans := [⟨2, 1, 3, true, true, false, 1, 0⟩], msrFeeders := [⟨1, 50, 230, 0, 7, 0xFFFFFFFF⟩] }

def zxT : Trellis := { msrT with classes := [⟨0, 2, 0, 5, 0, 1, 0, 0, 900, 1000, [], []⟩] }

def radioT : Trellis := { radio := [⟨0, 0, 0, 0, 0, 0, 0, 0, 0, 0, []⟩] }

def balT : Trellis :=
  { ownT with
    layouts := [⟨1, 1, 0, 15, [], [30, 30], []⟩], zones := [⟨1, 0, 0, 0, 96, 0, 0, 0, 100⟩]
    calendar := { insts := [⟨3, 0, 0, 2, ⟨0, 0, 0, 0⟩, ⟨0, 0, 0, 0⟩, 1, 0, [], [], []⟩] } }

def active : List (Fld × Nat) := [(F.PRL_STATUS_STATE, PairSt.active)]

def standby : List (Fld × Nat) := [(F.PRL_STATUS_STATE, PairSt.standby)]

def ethOn : List (Fld × Nat) := (F.ETH_n_CTRL_ENABLE.at 3, 1) :: active

def nandOn : List (Fld × Nat) := [(F.NFM_STATUS_STATE, Media.normal)]

def ptpOn : List (Fld × Nat) :=
  [(F.ETH_n_CTRL_ENABLE.at 3, 1), (F.TSU_Pn_CFG_ROLE.at 3, 2), (F.TSU_Pn_CFG_TRANSPORT.at 3, 0), (F.TSU_PTP_CFG_DOMAIN, 0)]

def exPtp : PtpHdr := { domain := 0, sdo := 0, transport := 0, source := 5, seq := 9, requester := ptpSource 3, correction := 3, twoStep := false }

/-- Port 3 as the slave port of master 5, in a protocol state. -/
def exSlavePort (p : PtpPort) : State :=
  st (ptpOn ++ [(F.TSU_STATUS_SLAVE_PORT, 3), (F.TSU_SERVO_DELAY_AVG, 1)]) fun d =>
    { d with tsu := { d.tsu with sec := 7, ports := [(3, { p with source := 5 })] } }

def exAnnounce : Announce :=
  { priority1 := 1, clockClass := 6, accuracy := 0x21, variance := 5, priority2 := 1, identity := 77, stepsRemoved := 1, ptpTimescale := true
    utcOffset := 37, utcValid := true, leap59 := false, leap61 := false, interval := 1 }

/-- A port identity of the next clock. -/
def nextClock (n : Nat) : Nat := (n + 1) * 65536 + 1

theorem nextClock_ne (n : Nat) : nextClock n / 65536 ≠ n := by simp only [nextClock]; omega

def exForeign : PtpHdr := { exPtp with source := nextClock Config.ptpIdentity.toNat }

theorem exForeign_usable : exAnnounce.usable exForeign.source = true := by
  rw [Announce.usable, show exForeign.source = nextClock Config.ptpIdentity.toNat from rfl, decide_eq_true (nextClock_ne _)]
  rfl

/-- Head 5, registered and ACTIVE in a session. -/
def exHead (d : Dev) : Dev :=
  { withT radioT d with
    dur := { d.dur with heads := [(5, { eui := 9, epoch := 1 })] }, fhm := { d.fhm with heads := [(5, { session := true, state := .active })] } }

/-- The header of a datagram of head 5, of a type and a LENGTH below 256. -/
def exHeader (type len : Byte) : Bytes := [1, type, 0, 1, 0, 5, 1] ++ List.replicate 12 0 ++ [len]

/-- An order of head 5. -/
def exOrder (p : Purpose) (retries : Nat := 0) : Order := ⟨5, 7, 1, 0, 10, 0, 1, 0, 0, [], ⟨none, 0, [], [], [], 40⟩, p, retries, true, 0, 0, 0, none⟩

def exFrame : MeterFrame :=
  { medium := 1, raw := [], address := 77, mbus := true, counter := 9, security := 135, mic := 4, aad := [], cipher := [] }

def exStaged : Staged0 :=
  { frame := exFrame, source := 0, via := 5, rxSec := 0, rxNs := 0, endNs := 0, meter := 6, slots := 1 }

def exItem (s : Stage) : Work := { kind := .ingest, staged := exStaged, stage := s, held := [] }

def exReading : ReadingRec :=
  ⟨6, true, true, false, false, 9, 4, none, [], [], none, false, [9], ⟨0, 0, 6, true, 0, 77, 0, 0, 0, 0, 0, 0, 9, 1, []⟩⟩

/-- An archived event. -/
def exEvent : EvRec := ⟨0, 1, 0, 0, 0, 0, false, false, false, false, 0, 0⟩

/-- The payload of a datagram to the device's HLP port. -/
def udp (b : Bytes) : Bytes := [184, 196, 184, 196] ++ beBytes 2 (b.length + 8) ++ [0, 0] ++ b

/-- A whole frame from position 4 to position 3, the first on its link. -/
def exHdr (l : Nat) (m : RunnerMsg) : RHdr := ⟨l, 4, 3, 0, 0, 65535, (crc32 (runnerBody m false 4 3 0 0 65535)).toNat, false⟩

theorem hears_exHdr {d : Dev} {l : Nat} (m : RunnerMsg) (hu : d.prl.up = true) (hl : l < 3) (ha : (d.link l).ack = 65535)
    (hp : d.trellis.device.position = 3) : d.hears (exHdr l m) m :=
  ⟨hu, hl, by simp [RHdr.crcOk, exHdr], by simp [exHdr, ha], by simp [exHdr, hp]⟩

/-! Datagrams of a head that a session, or a long-term key, opens: sealed as the spec seals them, their bodies never evaluated. -/

/-- The nonce of a head's datagram of header `hdr` with the extended number `ext`. -/
def exNonce (hdr : Bytes) (ext : Int) : Nat := hlpNonce (hdr.be 4 2) 0 (hdr.u8 6) (ext % 2 ^ 64).toNat

/-- The sealed body, and the tag, of header `hdr` and body `plain`. -/
def exCipher (hdr plain : Bytes) (key : Nat) (ext : Int) : Bytes := (Crypto.gcm 32 key (exNonce hdr ext) hdr plain).1

def exTag (hdr plain : Bytes) (key : Nat) (ext : Int) : Nat := (Crypto.gcmTag 32 key (exNonce hdr ext) hdr plain).toNat

/-- Another tag. -/
def exBadTag (hdr plain : Bytes) (key : Nat) (ext : Int) : Nat := (exTag hdr plain key ext + 1) % 2 ^ 128

/-- The datagram with a tag. -/
def exDgram (hdr plain : Bytes) (key : Nat) (ext : Int) (tag : Nat) : Bytes := hdr ++ (exCipher hdr plain key ext ++ beBytes 16 tag)

/-- Its fields. -/
def exMsg (hdr plain : Bytes) (key : Nat) (ext : Int) (tag : Nat) : HlpMsg :=
  { type := hdr.u8 1, seq := hdr.be 2 2, head := hdr.be 4 2, epoch := hdr.u8 6, sent := hdr.be 8 6 * 1000000000 + hdr.be 14 4
    ext := (exDgram hdr plain key ext tag).be 20 8, eui := (exDgram hdr plain key ext tag).be (hdr.length - 8) 8, aad := hdr
    body := exCipher hdr plain key ext, tag := tag }

/-- A header of `plain` that the device does not drop. -/
def exHdrOk (hdr plain : Bytes) : Bool :=
  decide (20 ≤ hdr.length) && decide (hdr.length + plain.length ≤ 1216) && decide (hdr.u8 0 = 1) && decide (2 ≤ hdr.u8 1) && decide (hdr.u8 1 ≤ 7) &&
    !bitAt (hdr.u8 7) 0 && decide (hdr.length = 20 + 8 * b2n (hdr.u8 6 == 0) + 8 * b2n (hdr.be 4 2 == 0xFFFF)) &&
    decide (hdr.be 0x12 2 = plain.length)

theorem u8_append (a b : Bytes) (i : Nat) (h : i < a.length) : Bytes.u8 (a ++ b) i = Bytes.u8 a i := by
  simp only [Bytes.u8]
  rw [List.drop_append_of_le_length (by omega)]
  cases e : a.drop i with
  | nil => have := congrArg List.length e; simp at this; omega
  | cons x l => rfl

theorem slice_append (a b : Bytes) (i n : Nat) (h : i + n ≤ a.length) : Bytes.slice (a ++ b) i n = Bytes.slice a i n := by
  simp only [Bytes.slice]
  rw [List.drop_append_of_le_length (by omega), List.take_append_of_le_length (by simp; omega)]

theorem be_append (a b : Bytes) (i n : Nat) (h : i + n ≤ a.length) : Bytes.be (a ++ b) i n = Bytes.be a i n := by
  simp only [Bytes.be, slice_append a b i n h]

theorem beNatAcc_append (acc : Nat) : ∀ (a b : Bytes), beNatAcc acc (a ++ b) = beNatAcc (beNatAcc acc a) b
  | [], _ => rfl
  | x :: a, b => by simp [beNatAcc, beNatAcc_append _ a b]

theorem beNat_beBytes : ∀ (n v : Nat), v < 256 ^ n → beNat (beBytes n v) = v
  | 0, v, h => by simp at h; subst h; rfl
  | n + 1, v, h => by
    have ih := beNat_beBytes n (v / 256) (by rw [Nat.pow_succ] at h; omega)
    simp only [beNat, beBytes, leBytes, List.reverse_cons, beNatAcc_append] at ih ⊢
    rw [ih]
    simp only [beNatAcc, BitVec.toNat_ofNat]; omega

theorem exCipher_length (hdr plain : Bytes) (key : Nat) (ext : Int) : (exCipher hdr plain key ext).length = plain.length :=
  Crypto.gcm_length 32 key _ hdr plain (.inr rfl)

theorem exDgram_length (hdr plain : Bytes) (key : Nat) (ext : Int) (tag : Nat) :
    (exDgram hdr plain key ext tag).length = hdr.length + plain.length + 16 := by
  simp [exDgram, exCipher_length, Crypto.beBytes_length]; omega

/-- The device reads the fields. -/
theorem parseHlp_ex (hdr plain : Bytes) (key : Nat) (ext : Int) (tag : Nat) (h : exHdrOk hdr plain = true) (ht : tag < 2 ^ 128) :
    parseHlp (exDgram hdr plain key ext tag) = some (exMsg hdr plain key ext tag) := by
  simp only [exHdrOk, Bool.and_eq_true, decide_eq_true_eq, Bool.not_eq_true'] at h
  obtain ⟨⟨⟨⟨⟨⟨⟨h20, hmax⟩, h0⟩, h1⟩, h1'⟩, h7⟩, hn⟩, hl⟩ := h
  have hc := exCipher_length hdr plain key ext
  have hlen := exDgram_length hdr plain key ext tag
  have u (i : Nat) (hi : i < 20) : Bytes.u8 (exDgram hdr plain key ext tag) i = Bytes.u8 hdr i := u8_append _ _ _ (by omega)
  have e (i n : Nat) (hi : i + n ≤ 20) : Bytes.be (exDgram hdr plain key ext tag) i n = Bytes.be hdr i n := be_append _ _ _ _ (by omega)
  have hb : Bytes.slice (exDgram hdr plain key ext tag) hdr.length plain.length = exCipher hdr plain key ext := by
    simp only [Bytes.slice, exDgram, List.drop_left]
    rw [← hc, List.take_left]
  have ha : Bytes.slice (exDgram hdr plain key ext tag) 0 hdr.length = hdr := by simp [Bytes.slice, exDgram]
  have hg : Bytes.be (exDgram hdr plain key ext tag) (hdr.length + plain.length) 16 = tag := by
    simp only [Bytes.be, Bytes.slice, exDgram]
    rw [← List.append_assoc, ← hc, ← List.length_append, List.drop_left, List.take_of_length_le (by rw [Crypto.beBytes_length] <;> omega)]
    exact beNat_beBytes 16 tag (by omega)
  simp only [parseHlp, u 0 (by omega), u 1 (by omega), u 6 (by omega), u 7 (by omega), e 4 2 (by omega), e 0x12 2 (by omega),
    e 2 2 (by omega), e 8 6 (by omega), e 14 4 (by omega), ← hn, hl, hb, ha, hg]
  rw [if_neg]
  · rfl
  · rw [hlen]
    simp only [h0, h7, Bool.false_eq_true, not_or, ne_eq, not_true_eq_false, not_false_eq_true, and_true]
    exact ⟨by omega, by omega, trivial, by omega, by omega⟩

/-- Port `n` delivers the datagram to a serving device with radio profiles. -/
def exTakes (d : Dev) (n : Nat) (hdr plain : Bytes) : Bool :=
  exHdrOk hdr plain && d.takesFrame n (82 + hdr.length + plain.length) && d.serves && decide (d.trellis.radio ≠ []) &&
    decide (d.trellis.device.hlpPort = 47300)

theorem hlpTakes_ex (d : Dev) (n : Nat) (hdr plain : Bytes) (key : Nat) (ext : Int) (tag : Nat) (h : exTakes d n hdr plain = true)
    (ht : tag < 2 ^ 128) : d.hlpTakes n (udp (exDgram hdr plain key ext tag)) = some (exMsg hdr plain key ext tag) := by
  simp only [exTakes, Bool.and_eq_true, decide_eq_true_eq] at h
  obtain ⟨⟨⟨⟨hk, hf⟩, hs⟩, hr⟩, hp⟩ := h
  have hsz : hdr.length + plain.length ≤ 1216 := by
    simp only [exHdrOk, Bool.and_eq_true, decide_eq_true_eq] at hk
    exact hk.1.1.1.1.1.1.2
  have hlen := exDgram_length hdr plain key ext tag
  generalize hg : exDgram hdr plain key ext tag = g at hlen
  have h2 : (beBytes 2 (g.length + 8)).length = 2 := Crypto.beBytes_length 2 _
  have hu : (udp g).length = g.length + 8 := by simp [udp, h2]; omega
  have hb : Bytes.be (udp g) 2 2 = 47300 := by
    rw [show udp g = [184#8, 196#8, 184#8, 196#8] ++ (beBytes 2 (g.length + 8) ++ [0#8, 0#8] ++ g) from by simp [udp], be_append _ _ _ _ (by simp)]
    decide
  have hc : Bytes.be (udp g) 4 2 = g.length + 8 := by
    rw [show udp g = ([184#8, 196#8, 184#8, 196#8] ++ beBytes 2 (g.length + 8)) ++ ([0#8, 0#8] ++ g) from by simp [udp],
      be_append _ _ _ _ (by simp [h2])]
    simp only [Bytes.be, Bytes.slice]
    rw [List.drop_append_of_le_length (by simp), List.drop_of_length_le (by simp), List.nil_append, List.take_of_length_le (by omega)]
    exact beNat_beBytes 2 _ (by omega)
  have hd : (udp g).drop 8 = g := by
    rw [show udp g = ([184#8, 196#8, 184#8, 196#8] ++ beBytes 2 (g.length + 8) ++ [0#8, 0#8]) ++ g from by simp [udp],
      List.drop_append_of_le_length (by simp [h2]), List.drop_of_length_le (by simp [h2]), List.nil_append]
  have hf' : d.takesFrame n (58 + (udp g).length) = true := by rw [hu, hlen, show 58 + (hdr.length + plain.length + 16 + 8) = 82 + hdr.length + plain.length by omega]; exact hf
  rw [Dev.hlpTakes, if_pos ⟨hf', hs, hr⟩, udpPayload, if_pos ⟨by rw [hb, hp], by rw [hc, hu]⟩, hd, Option.bind_some, ← hg]
  exact parseHlp_ex hdr plain key ext tag hk ht

theorem exTag_lt (hdr plain : Bytes) (key : Nat) (ext : Int) : exTag hdr plain key ext < 2 ^ 128 := BitVec.isLt _

theorem exBadTag_lt (hdr plain : Bytes) (key : Nat) (ext : Int) : exBadTag hdr plain key ext < 2 ^ 128 := Nat.mod_lt _ (by decide)

theorem opened_ex (hdr plain : Bytes) (key : Nat) (ext : Int) (tag : Nat) : (exMsg hdr plain key ext tag).opened key ext = plain :=
  Crypto.gcm_opens 32 key _ hdr hdr plain (.inr rfl)

theorem tagUnder_ex (hdr plain : Bytes) (key : Nat) (ext : Int) (tag : Nat) :
    (exMsg hdr plain key ext tag).tagUnder key ext = exTag hdr plain key ext := by
  rw [HlpMsg.tagUnder, opened_ex]; rfl

theorem exBadTag_ne (hdr plain : Bytes) (key : Nat) (ext : Int) : exBadTag hdr plain key ext ≠ exTag hdr plain key ext := by
  have := exTag_lt hdr plain key ext
  simp only [exBadTag]; omega

/-- Its head's session, with the key 0, has not seen the number 1 that the datagram has. -/
def exSession (d : Dev) (n type : Nat) (hdr plain : Bytes) : Bool :=
  exTakes d n hdr plain && decide (hdr.u8 1 = type) && decide (hdr.be 4 2 ≠ 0xFFFF) && decide (hdr.u8 6 ≠ 0) && (d.headRt (hdr.be 4 2)).session &&
    decide ((d.headReg? (hdr.be 4 2)).map (·.epoch) = some (hdr.u8 6)) && decide ((d.headRt (hdr.be 4 2)).window (hdr.be 2 2) = some 1) &&
    decide ((d.headRt (hdr.be 4 2)).key = 0)

theorem hlpReady_ex (d : Dev) (n type : Nat) (hdr plain : Bytes) (tag : Nat) (h : exSession d n type hdr plain = true) (ht : tag < 2 ^ 128) :
    d.hlpReady n (udp (exDgram hdr plain 0 1 tag)) type = some (exMsg hdr plain 0 1 tag, 1) := by
  simp only [exSession, Bool.and_eq_true, decide_eq_true_eq] at h
  obtain ⟨⟨⟨⟨⟨⟨⟨h, h1⟩, h2⟩, h3⟩, h4⟩, h5⟩, h6⟩, _⟩ := h
  rw [Dev.hlpReady, hlpTakes_ex d n hdr plain 0 1 tag h ht, Option.bind_some]
  show (if hdr.u8 1 = type ∧ hdr.be 4 2 ≠ 0xFFFF ∧ hdr.u8 6 ≠ 0 ∧ (d.headRt (hdr.be 4 2)).session ∧
    (d.headReg? (hdr.be 4 2)).map (·.epoch) = some (hdr.u8 6) then
    ((d.headRt (hdr.be 4 2)).window (hdr.be 2 2)).map fun x => (exMsg hdr plain 0 1 tag, x) else none) = _
  rw [if_pos ⟨h1, h2, h3, h4, h5⟩, h6]; rfl

/-- The session accepts the datagram. -/
theorem hlpAccepts_ex {d : Dev} {n type : Nat} {hdr plain : Bytes} (h : exSession d n type hdr plain = true) :
    d.hlpAccepts n (udp (exDgram hdr plain 0 1 (exTag hdr plain 0 1))) type (exMsg hdr plain 0 1 (exTag hdr plain 0 1)) plain := by
  have hk : (d.headRt (hdr.be 4 2)).key = 0 := by
    simp only [exSession, Bool.and_eq_true, decide_eq_true_eq] at h; exact h.2
  refine ⟨1, hlpReady_ex d n type hdr plain _ h (exTag_lt ..), ?_, ?_⟩
  · show ((exTag hdr plain 0 1) == (exMsg hdr plain 0 1 (exTag hdr plain 0 1)).tagUnder (d.headRt (hdr.be 4 2)).key 1) = true
    rw [hk, tagUnder_ex]; exact beq_self_eq_true _
  · show (exMsg hdr plain 0 1 (exTag hdr plain 0 1)).opened (d.headRt (hdr.be 4 2)).key 1 = plain
    rw [hk, opened_ex]

/-- With another tag it is forged. -/
theorem hlpForged_ex {d : Dev} {n type : Nat} {hdr plain : Bytes} (h : exSession d n type hdr plain = true) :
    d.hlpForged n (udp (exDgram hdr plain 0 1 (exBadTag hdr plain 0 1))) type := by
  have hk : (d.headRt (hdr.be 4 2)).key = 0 := by
    simp only [exSession, Bool.and_eq_true, decide_eq_true_eq] at h; exact h.2
  refine ⟨_, 1, hlpReady_ex d n type hdr plain _ h (exBadTag_lt ..), ?_⟩
  show ((exBadTag hdr plain 0 1) == (exMsg hdr plain 0 1 (exBadTag hdr plain 0 1)).tagUnder (d.headRt (hdr.be 4 2)).key 1) = false
  rw [hk, tagUnder_ex]; simpa using exBadTag_ne hdr plain 0 1

/-- Its header is a REQUEST's of head `i`, registered as `r` under the one key `k`, with the extended number `ext`. -/
def exRequest (d : Dev) (n i ext : Nat) (r : HeadReg) (k : KeySet) (hdr plain : Bytes) : Bool :=
  exTakes d n hdr plain && decide (hdr.u8 1 = 7) && decide (hdr.be 4 2 = 0xFFFF) && decide (hdr.u8 6 = 0) && decide (hdr.be 20 8 = ext) &&
    decide (hdr.length = 36) && decide (d.dur.heads.find? (fun p => p.2.eui == hdr.be 28 8) = some (i, r)) && decide (d.headReg? i = some r) &&
    decide (d.headKeysOf i = (some k, none))

theorem exMsg_ext (hdr plain : Bytes) (key : Nat) (ext : Int) (tag : Nat) (h : hdr.length = 36) :
    (exMsg hdr plain key ext tag).ext = hdr.be 20 8 := be_append _ _ _ _ (by omega)

theorem requestReady_ex {d : Dev} {n i : Nat} {r : HeadReg} {k : KeySet} {hdr plain : Bytes} {ext tag : Nat}
    (h : exRequest d n i ext r k hdr plain = true) (ht : tag < 2 ^ 128) :
    d.requestReady n (udp (exDgram hdr plain k.key256 ext tag)) (exMsg hdr plain k.key256 ext tag) i r k := by
  simp only [exRequest, Bool.and_eq_true, decide_eq_true_eq] at h
  obtain ⟨⟨⟨⟨⟨⟨⟨⟨h, h1⟩, h2⟩, h3⟩, _⟩, hl⟩, hf⟩, hr⟩, hk⟩ := h
  refine ⟨hlpTakes_ex d n hdr plain _ _ tag h ht, h1, h2, h3, ?_, hr, hk⟩
  rw [show (exMsg hdr plain k.key256 ext tag).eui = hdr.be 28 8 from by
    show Bytes.be _ (hdr.length - 8) 8 = _; rw [hl]; exact be_append _ _ _ _ (by omega)]
  exact hf

/-- The tag a REQUEST should have, and its body opened. -/
theorem exRequest_tag {d : Dev} {n i : Nat} {r : HeadReg} {k : KeySet} {hdr plain : Bytes} {ext : Nat} (tag : Nat)
    (h : exRequest d n i ext r k hdr plain = true) :
    (exMsg hdr plain k.key256 ext tag).tagUnder k.key256 (exMsg hdr plain k.key256 ext tag).ext = exTag hdr plain k.key256 ext ∧
      (exMsg hdr plain k.key256 ext tag).opened k.key256 (exMsg hdr plain k.key256 ext tag).ext = plain := by
  simp only [exRequest, Bool.and_eq_true, decide_eq_true_eq] at h
  rw [exMsg_ext _ _ _ _ _ h.1.1.1.2, h.1.1.1.1.2]
  exact ⟨tagUnder_ex .., opened_ex ..⟩

/-- A REQUEST of head 5. -/
def exJoinKey : KeySet := ⟨0, 7, 1, 2, 3, false⟩

def exJoinState : State :=
  st [(F.ETH_n_CTRL_ENABLE.at 3, 1), (F.PRL_STATUS_STATE, PairSt.active), (F.KEY_STATUS_DRBG_RUN, 1)] fun d =>
    { withT { radio := [⟨0, 0, 7, 0, 0, 0, 0, 0, 0, 0, []⟩] } d with
      dur := { d.dur with heads := [(5, { eui := 9, epoch := 1 })], headKeys := [(5, ⟨some exJoinKey, none⟩)] }
      key := { d.key with working := [(0, ⟨1, 1, 7⟩)] } }

def exJoinHdr : Bytes := [1, 7, 0, 1, 255, 255] ++ List.replicate 13 0 ++ [52, 0, 0, 0, 0, 0, 0, 0, 4, 0, 0, 0, 0, 0, 0, 0, 9]

def exJoinBody : Bytes :=
  [1, 0] ++ List.replicate 16 3 ++ List.replicate 16 0 ++ [0, 100, 7, 1, 0, 0, 0, 0, 255, 255, 255, 255, 20, 0, 0, 0, 0, 1]

def exJoinMsg (tag : Nat) : HlpMsg := exMsg exJoinHdr exJoinBody exJoinKey.key256 4 tag

def exJoinTag : Nat := exTag exJoinHdr exJoinBody exJoinKey.key256 4

def exJoinBadTag : Nat := exBadTag exJoinHdr exJoinBody exJoinKey.key256 4

theorem exJoin : exRequest exJoinState.dev 3 5 4 { eui := 9, epoch := 1 } exJoinKey exJoinHdr exJoinBody = true := by decide

theorem cellProfile_one {d : Dev} {i : Nat} {p : RadioProfile} (h : d.trellis.radio = [p]) : d.cellProfile i = p := by
  simp [Dev.cellProfile, h, Nat.mod_one]

theorem exJoin_covered : exJoinState.dev.joinCovered 5 exJoinBody = true := by rw [Dev.joinCovered, cellProfile_one rfl]; decide

theorem exJoin_near : exJoinState.dev.tooFar (exJoinState.dev.joinHead 5 (exJoinMsg exJoinTag) exJoinBody) = false := by
  rw [Dev.joinHead, cellProfile_one rfl]; decide

end Sys2Proof.Tests
end

