-- ==== Sys2Proof/Tests/Slice0.lean ====
section
/-! SUPPORT. Tests: ill-formed commands refused, the worked examples of the spec, single commands on small states, and for every
statement of Obligations.lean a witness of each clause's hypotheses. -/

set_option Elab.async false

namespace Sys2Proof.Tests

open Sys2Proof.Machine

/-! ## WellFormed refuses an operand out of its range -/

theorem test_wf_refuses_1 :
    (∀ (be : Nat) (v : Word), (Instr.registerWrite 4194304 be v).wf = false) ∧
    (∀ (v : Word), (Instr.registerWrite 0 16 v).wf = false) ∧
    (∀ (arb : Bool), (Instr.counterClear 4194304 arb).wf = false) ∧
    (∀ (object : Bytes), (Instr.stage 3 object).wf = false) ∧
    ((Instr.arm 3).wf = false) ∧
    ((Instr.trlCancel 3).wf = false) ∧
    (∀ (damaged : List Nat), (Instr.graftApply 3 damaged).wf = false) ∧
    ((Instr.fhmHeadAdd 4096).wf = false) ∧
    ((Instr.fhmHeadRemove 4096).wf = false) ∧
    ((Instr.fhmHeadRecall 4096).wf = false) ∧
    (∀ (all : Bool), (Instr.fhmModeEnter all 4096).wf = false) ∧
    (∀ (all : Bool), (Instr.fhmModeLeave all 4096).wf = false) ∧
    (∀ (all : Bool), (Instr.fhmModeTest all 4096).wf = false) ∧
    (∀ (addr : Nat) (mac : Nat) (dgram : Bytes), (Instr.headRequest 4 addr mac dgram).wf = false) := by
  and_intros <;> intros <;> rfl

theorem test_wf_refuses_2 :
    (∀ (addr : Nat) (mac : Nat) (dgram : Bytes), (Instr.headLeave 4 addr mac dgram).wf = false) ∧
    (∀ (addr : Nat) (mac : Nat) (dgram : Bytes), (Instr.rxReport 4 addr mac dgram).wf = false) ∧
    (∀ (addr : Nat) (mac : Nat) (dgram : Bytes), (Instr.ccaBusy 4 addr mac dgram).wf = false) ∧
    (∀ (addr : Nat) (mac : Nat) (dgram : Bytes), (Instr.txConfirm 4 addr mac dgram).wf = false) ∧
    (∀ (addr : Nat) (mac : Nat) (dgram : Bytes), (Instr.beaconConfirm 4 addr mac dgram).wf = false) ∧
    (∀ (addr : Nat) (mac : Nat) (dgram : Bytes), (Instr.headStatus 4 addr mac dgram).wf = false) ∧
    ((Instr.headSilenceTimeout 4096).wf = false) ∧
    ((Instr.headSuspendTimeout 4096).wf = false) ∧
    ((Instr.beaconDue 4096).wf = false) ∧
    (∀ (txId : Nat), (Instr.beaconConfirmDeadline 4096 txId).wf = false) ∧
    (∀ (txId : Nat), (Instr.txConfirmDeadline 4096 txId).wf = false) ∧
    ((Instr.stormCheck 4096).wf = false) ∧
    ((Instr.superframeEnd 4096).wf = false) ∧
    (∀ (phase : Nat) (rising : Bool) (bits : List Sdi), (Instr.zxCrossing 4 phase rising bits).wf = false) := by
  and_intros <;> intros <;> rfl

theorem test_wf_refuses_3 :
    (∀ (rising : Bool) (bits : List Sdi), (Instr.zxCrossing 0 3 rising bits).wf = false) ∧
    (∀ (phase : Nat) (rising : Bool) (bits : List Sdi), (Instr.zxCrossingMissing 4 phase rising bits).wf = false) ∧
    (∀ (rising : Bool) (bits : List Sdi), (Instr.zxCrossingMissing 0 3 rising bits).wf = false) ∧
    (∀ (phase : Nat), (Instr.zxReacquire 4 phase).wf = false) ∧
    ((Instr.zxReacquire 0 3).wf = false) ∧
    (∀ (phase : Nat), (Instr.zxPulseGate 4 phase).wf = false) ∧
    ((Instr.zxPulseGate 0 3).wf = false) ∧
    (∀ (phase : Nat), (Instr.zxgWatchdog 4 phase).wf = false) ∧
    ((Instr.zxgWatchdog 0 3).wf = false) ∧
    (∀ (phase : Nat), (Instr.zxfFault 4 phase).wf = false) ∧
    ((Instr.zxfFault 0 3).wf = false) ∧
    (∀ (phase : Nat), (Instr.zxFaultResume 4 phase).wf = false) ∧
    ((Instr.zxFaultResume 0 3).wf = false) ∧
    (∀ (mask : Nat), (Instr.zxpFaultClear 4 mask).wf = false) := by
  and_intros <;> intros <;> rfl

theorem test_wf_refuses_4 :
    (∀ (phase : Nat) (channel : Nat), (Instr.zxBlockDecode 4 phase channel).wf = false) ∧
    (∀ (channel : Nat), (Instr.zxBlockDecode 0 3 channel).wf = false) ∧
    (∀ (phase : Nat), (Instr.zxUplinkEnd 4 phase).wf = false) ∧
    ((Instr.zxUplinkEnd 0 3).wf = false) ∧
    (∀ (phase : Nat), (Instr.zxAckBitmapFix 4 phase).wf = false) ∧
    ((Instr.zxAckBitmapFix 0 3).wf = false) ∧
    (∀ (phase : Nat), (Instr.zxOutboundFrameStart 4 phase).wf = false) ∧
    ((Instr.zxOutboundFrameStart 0 3).wf = false) ∧
    ((Instr.zxRoundBoundary 4).wf = false) ∧
    (∀ (meter : Nat), (Instr.zxpAssign 4 meter).wf = false) ∧
    ((Instr.zxpAssign 0 1048576).wf = false) ∧
    (∀ (meter : Nat), (Instr.zxpRelease 4 meter).wf = false) ∧
    ((Instr.zxpRelease 0 1048576).wf = false) ∧
    ((Instr.zxpCycleRead 4).wf = false) := by
  and_intros <;> intros <;> rfl

theorem test_wf_refuses_5 :
    ((Instr.modPresentFall 4).wf = false) ∧
    (∀ (front : List (Option Bytes)) (line : List (Option Bytes)), (Instr.moduleRecordRead 4 front line).wf = false) ∧
    ((Instr.modPresentRise 4).wf = false) ∧
    (∀ (bits : List Sdi), (Instr.msrIntervalHandover 4 bits).wf = false) ∧
    (∀ (bits : List Sdi), (Instr.msrEnergyLatch 4 bits).wf = false) ∧
    ((Instr.workItemAdmit 1048576).wf = false) ∧
    ((Instr.resourceGrant 1048576).wf = false) ∧
    ((Instr.resourceWaitTimeout 1048576).wf = false) ∧
    ((Instr.resourceRetry 1048576).wf = false) ∧
    ((Instr.contextFetchDone 1048576).wf = false) ∧
    (∀ (cand : Bool), (Instr.keyCacheFillDone 1048576 cand).wf = false) ∧
    ((Instr.parseDone 1048576).wf = false) ∧
    ((Instr.billingUpdateDone 1048576).wf = false) ∧
    ((Instr.reassemblyTimeout 1048576).wf = false) := by
  and_intros <;> intros <;> rfl

theorem test_wf_refuses_6 :
    ((Instr.ctxAllocAt 1048576).wf = false) ∧
    ((Instr.ctxFree 1048576).wf = false) ∧
    ((Instr.ctxPin 1048576).wf = false) ∧
    ((Instr.ctxUnpin 1048576).wf = false) ∧
    (∀ (op : ShOp) (blocks : Nat), (Instr.signhashRequest 9 op blocks).wf = false) ∧
    (∀ (urgent : Bool), (Instr.arbUrgentChange 9 urgent).wf = false) ∧
    ((Instr.arbStarved 9).wf = false) ∧
    ((Instr.drainTransferDone 64).wf = false) ∧
    (∀ (object : Bytes), (Instr.dstLoad 16 object).wf = false) ∧
    (∀ (ok : Bool), (Instr.campaignLoadStepDone 16 ok).wf = false) ∧
    (∀ (meter : Nat), (Instr.dstAdd 16 meter).wf = false) ∧
    ((Instr.dstAdd 0 1048576).wf = false) ∧
    (∀ (cls : Nat), (Instr.dstAddClass 16 cls).wf = false) ∧
    (∀ (meter : Nat), (Instr.dstRemove 16 meter).wf = false) := by
  and_intros <;> intros <;> rfl

theorem test_wf_refuses_7 :
    ((Instr.dstRemove 0 1048576).wf = false) ∧
    ((Instr.dstAbort 16).wf = false) ∧
    ((Instr.dstClear 16).wf = false) ∧
    (∀ (place : Nat), (Instr.campaignRoundStart 16 place).wf = false) ∧
    (∀ (place : Nat), (Instr.campaignBlockOrder 16 place).wf = false) ∧
    (∀ (place : Nat), (Instr.collectionEnd 16 place).wf = false) ∧
    ((Instr.campaignActivation 16).wf = false) ∧
    ((Instr.campaignExpire 16).wf = false) ∧
    (∀ (place : Nat), (Instr.campaignAbortBroadcast 16 place).wf = false) ∧
    (∀ (place : Nat), (Instr.bitmapPageInDone 16 place).wf = false) ∧
    (∀ (root : Nat) (wrapped : Nat), (Instr.rootImport 32 root wrapped).wf = false) ∧
    ((Instr.rootGenerate 32).wf = false) ∧
    ((Instr.rootErase 32).wf = false) ∧
    ((Instr.rewrap 32).wf = false) := by
  and_intros <;> intros <;> rfl

theorem test_wf_refuses_8 :
    ((Instr.meterCancel 1048576).wf = false) ∧
    ((Instr.headCancel 4096).wf = false) ∧
    (∀ (h : PtpHdr) (origin : Int), (Instr.ptpSync 4 h origin).wf = false) ∧
    (∀ (h : PtpHdr) (origin : Int), (Instr.ptpFollowUp 4 h origin).wf = false) ∧
    (∀ (h : PtpHdr), (Instr.ptpDelayReq 4 h).wf = false) ∧
    (∀ (h : PtpHdr) (receipt : Int), (Instr.ptpDelayResp 4 h receipt).wf = false) ∧
    (∀ (h : PtpHdr), (Instr.ptpPdelayReq 4 h).wf = false) ∧
    (∀ (h : PtpHdr) (receipt : Int), (Instr.ptpPdelayResp 4 h receipt).wf = false) ∧
    (∀ (h : PtpHdr) (origin : Int), (Instr.ptpPdelayRespFollowUp 4 h origin).wf = false) ∧
    (∀ (h : PtpHdr) (a : Announce), (Instr.ptpAnnounce 4 h a).wf = false) ∧
    ((Instr.ptpAnnounceTimeout 4).wf = false) ∧
    (∀ (kind : Nat), (Instr.ptpMessageDue 4 kind).wf = false) ∧
    (∀ (len : Nat) (src : Nat) (mac : Nat) (target : Nat), (Instr.ethNeighborSolicitation 4 len src mac target).wf = false) ∧
    (∀ (len : Nat) (src : Nat) (mac : Nat) (dst : Nat) (data : Bytes), (Instr.ethEchoRequest 4 len src mac dst data).wf = false) := by
  and_intros <;> intros <;> rfl

theorem test_wf_refuses_9 :
    (∀ (len : Nat) (src : Nat) (mac : Nat) (target : Nat), (Instr.ethArpRequest 4 len src mac target).wf = false) ∧
    (∀ (len : Nat) (target : Nat) (mac : Nat), (Instr.ethNeighborAdvertisement 4 len target mac).wf = false) ∧
    (∀ (len : Nat) (cause : Nat), (Instr.ethFrameDrop 4 len cause).wf = false) ∧
    (∀ (addr : Nat), (Instr.neighbourSolicitRetry 4 addr).wf = false) ∧
    (∀ (addr : Nat), (Instr.neighbourEntryExpire 4 addr).wf = false) ∧
    (∀ (block : Bool) (align : Bool) (localFault : Bool) (remoteFault : Bool), (Instr.ethLinkChange 4 block align localFault remoteFault).wf = false) ∧
    (∀ (k : Nat), (Instr.ethCounterRead 4 k).wf = false) ∧
    ((Instr.ethCounterRead 0 8).wf = false) ∧
    ((Instr.cloAlarmFire 4).wf = false) ∧
    ((Instr.tamperAssert 13).wf = false) ∧
    (∀ (ok : Bool), (Instr.hedgeSample 2 ok).wf = false) ∧
    ((Instr.runnerRetransmit 3).wf = false) ∧
    ((Instr.runnerLinkDown 3).wf = false) ∧
    ((Instr.runnerLinkUp 3).wf = false) := by
  and_intros <;> intros <;> rfl

theorem test_wf_refuses_10 :
    (∀ (v : Word), (Instr.ringDataWrite 64 v).wf = false) ∧
    ((Instr.ringDataRead 64).wf = false) ∧
    ((Instr.ringFlush 64).wf = false) ∧
    ((Instr.ringMark 64).wf = false) ∧
    ((Instr.ringRewind 64).wf = false) ∧
    (∀ (lo : Word), (Instr.ringConfirm 64 lo).wf = false) ∧
    (∀ (v : Word), (Instr.ringHrdWrite 64 v).wf = false) ∧
    ((Instr.msixUnmask 64).wf = false) ∧
    ((Instr.ringCoalesceTimeout 64).wf = false) ∧
    ((Instr.objectRequest 64).wf = false) ∧
    ((Instr.meterRequest 64).wf = false) ∧
    ((Instr.meterRequestTimeout 1048576).wf = false) ∧
    ((Instr.certLoad 64).wf = false) ∧
    ((Instr.eventSummary 1024).wf = false) := by
  and_intros <;> intros <;> rfl

theorem test_wf_refuses_11 :
    ((Instr.tamperInactive 13).wf = false) ∧
    (∀ (phase : Nat), (Instr.zxfFall 4 phase).wf = false) ∧
    ((Instr.zxfFall 0 3).wf = false) ∧
    (∀ (stage : Nat), (Instr.saturation 32 stage).wf = false) := by
  and_intros <;> intros <;> rfl

/-! ## The worked examples of the spec: every expected number below is the spec's -/

/-- Spec 01, a register reading: 98 octets take 7,840 µs at 100 kb/s. Spec 03, Fennick: a 183-octet block takes 15,600 µs on air
and its SFD ends 800 µs after its first preamble bit. Spec 06: a 62-octet acknowledgement takes 5,920 µs. -/
theorem test_airtimes : octetsNs 1 98 = 7840000 ∧ airtimeNs 1 183 = 15600000 ∧ octetsNs 1 10 = 800000 ∧ airtimeNs 1 62 = 5920000 := by decide

/-- Spec 03, R99's example: d = −3,200 ppb, 6 h after the sync: G = 2,364 ticks. -/
theorem test_wake_guard :
    ((st [(F.FHM_WAKE_PERIOD, 21600)]).dev.wakeAt { Dev.reset.newCtx with drift := -3200, confidence := 15 } 1).2 =
      2364 * 1000000000 / 32768 := by decide

/-- Spec 04: an ACK frame of two data blocks takes 192 cycles. -/
theorem test_zx_ack_cycles : zxCycles 2 = 192 := by decide

def rsBlock : List Nat := rsEncode [1, 2, 3, 4, 5, 6, 7, 8, 9, 10, 11]

/-- Spec 04, the heat pump: one erasure and one error decode (2 × 1 + 1 ≤ 4). -/
theorem test_rs_error_and_erasure : rsDecode ((rsBlock.set 9 3).set 4 0) [4] = some rsBlock := by decide

/-- Spec 04, the heat pump: an error with three erasures fails (2 + 3 > 4). -/
theorem test_rs_too_many : rsDecode ((((rsBlock.set 9 3).set 4 0).set 5 0).set 6 0) [4, 5, 6] = none := by decide

/-- Spec 05, restart: the default chain settles with K_FAST 5, K 65 and K_Q 191. -/
theorem test_settling :
    (let c := Dev.reset.reg R.MSR_CHAIN.off; (settleFast c, settleK c, settleQ c)) = (5, 65, 191) := by decide

/-- Spec 05, R148's example: g = 1,187 ppb, the temperature term 0 steps, P_n = 30,458 steps. -/
theorem test_calibration :
    let e : ModEntry := ⟨0, 1250, -2310, -35, 40, 1⟩
    gainOf e (18000 * 2 ^ 30) 0 = 1187 ∧ phaseOf e (18000 * 2 ^ 30) 32768 0 = 30458 := by decide

/-! Spec 08, Quillerby: tariff changes at 07:00 with a new calendar, an outage from 07:00 to 07:08, and a reading that spans
06:45 to 07:15. -/

def exLayout : TariffLayout := ⟨1, 4, 1, 15, [0, 0, 0, 0], [30, 30, 30, 30], [0, 1, 2, 3, 4, 5, 6, 7]⟩

def exCal (day : List (Nat × Nat)) : Calendar :=
  { insts := [⟨3, 60, 60, 0, ⟨3, 5, 7, 8⟩, ⟨10, 5, 7, 12⟩, 1, 0, [⟨1, 1, 0⟩], [[0, 0, 0, 0, 0, 0, 0]], [day]⟩] }

/-- The PTP second of a local summer time, TAI − UTC being 37 s. -/
def exAt (h m : Nat) : Nat := (daysFromCivil 2031 6 2 * 86400 + (h * 3600 + m * 60 : Nat) - 7200 + 37).toNat

def exEnv : BillEnv :=
  { cal := exCal [(0, 0), (420, 2), (540, 1), (1320, 0)], superseded := some (exCal [(0, 0), (420, 1), (1320, 0)], exAt 7 0), inst := 3
    utc := { now := 37 }, layout := exLayout, tolAbs := 0, tolPpm := 0, depth := 12 }

def exBlock : BillBlock := { lastTotal := [48210300, 0, 0, 0], periodStart := 1 }

/-- Steps 10 to 14: 545 Wh to rate 0 and 255 Wh to rate 2; demands 2,180 W and 1,020 W. -/
theorem test_credit_outage :
    (let b := (credit exEnv { exBlock with outDown := exAt 7 0, outUp := exAt 7 8 } (exAt 6 45) (exAt 7 15) 1 [48211100]).1
     (b.energy, b.maxDemand.map fun p => (p.1, p.2.value), b.lastDemand.incomplete, b.lastDemand.estimated)) =
      ([(0, 545), (8, 255)], [(0, 2180), (4, 1020)], true, true) := by decide

/-- Without the outage each interval receives 400 Wh. -/
theorem test_credit_no_outage : (credit exEnv exBlock (exAt 6 45) (exAt 7 15) 1 [48211100]).1.energy = [(0, 400), (8, 400)] := by decide

/-- Spec 09, the shunted meter: P = 144 kW gives a technical loss of 193,604 mWh. -/
theorem test_technical_loss : lossOf ⟨4117, 17, 1, 1, 96, 0x40A00, 650000, 6000, 50000⟩ 15 36000000 = 193604 := by decide

/-- Spec 09, the shunted meter: the sums of the table give U = 300,000 ppm. -/
theorem test_theft_estimate :
    Member.estimate
      { zone := 4117, noRank := false, generation := false, since := 0, base := 0, w := B64.ofInt 96, sx := B64.ofInt 86400000
        se := B64.ofInt 960000, see := B64.ofInt 11529600000000, sr := B64.ofInt 40320000, sre := B64.ofInt 5340342857143 } 96 50 0 =
      some 300000 := by decide

def exSlave : State :=
  st [(F.TSU_STATUS_SLAVE_PORT, 0), (F.TSU_SERVO_DELAY_AVG, 0), (F.TSU_Pn_CFG_ROLE.at 0, 1), (F.ETH_n_CTRL_ENABLE.at 0, 1), (F.ETH_n_STATUS_LINK_UP.at 0, 1)] fun d =>
    d.setPtp 0 { d.ptpPort 0 with req := some (7, 500250157200 * 65536 / 1000), msDiff := some (10165 * 65536) }

/-- A Delay_Resp to port 0. -/
def exResp : PtpHdr :=
  { domain := 0, sdo := 0, transport := 0, source := 0, seq := 7, requester := ptpSource 0, correction := 0, twoStep := false }

/-- Spec 12, the slave port: the mean path delay is 9,985 ns. -/
theorem test_mean_path_delay :
    ((after (.ptpDelayResp 0 exResp (500259962200 * 65536 / 1000)) exSlave).meanDelay 0) = some (9985 * 65536) := by
  have h : exec (.ptpDelayResp 0 exResp (500259962200 * 65536 / 1000)) exSlave =
    execPtpDelayResp 0 exResp (500259962200 * 65536 / 1000) exSlave := rfl
  rw [execPtpDelayResp] at h
  rw [after_on h]
  simp only [Dev.ptpTake, Dev.ethTake, exResp]
  decide

/-! ## One command on a small state -/

/-- R432: a write without all four byte lanes changes nothing: FHM_GUARD keeps its reset value, BASE 66 and JITTER 33. -/
theorem test_partial_write : (after (.registerWrite 0x50034 3 0xFFFF1234) State.reset).reg R.FHM_GUARD.off = 0x00210042 := by decide

/-- R8: a whole write takes the writable fields; a read-only register keeps its value. -/
theorem test_whole_write :
    (after (.registerWrite 0x50034 15 0xFFFF1234) State.reset).reg R.FHM_GUARD.off = 0xFFFF1234 ∧
      (after (.registerWrite 0x10000 15 0xFFFFFFFF) State.reset).reg R.TRL_STATUS.off = 0 := by decide

/-- R45: a host seal while STRUCTURED seals. -/
theorem test_host_seal : (after .hostSeal (st [(F.TRL_STATUS_STATE, 3)])).get F.TRL_STATUS_STATE = 4 := by decide

/-- R470: RESET_N and PWRGOOD together set both causes, and the power-on cause stays until it is cleared. -/
theorem test_reset_causes : (after (.resetAssert true true) State.reset).reg R.GLB_RESET_CAUSE.off = 0xD := by decide

/-- R436: a read of an empty ring answers the idle word. -/
theorem test_empty_ring : (after (.ringDataRead 5) State.reset).lastRead = 0 := by decide

/-! ## Witnesses of the statements' hypotheses -/

theorem witness_ClocheCounterTrimAndAnchor :
    (∃ (s : State), s.dev.cloSettle.flag F.CLO_STATUS_OSC_STOPPED = true) ∧
    (∃ (s : State), s.dev.flag F.CLO_STATUS_LOAD_BUSY = true ∧ s.dev.clo.oscRunning = true) ∧
    (∃ (s : State), (s.dev.cloSettle.setNow R.CLO_STATUS.off).getLsbD 0 = false) ∧
    (∃ (s : State), (s.dev.cloSettle.setNow R.CLO_STATUS.off).getLsbD 0 = true) ∧
    (∃ (s : State), s.dev.clo.onBattery = true) ∧
    (∃ (s : State), s.dev.clo.onBattery = false) ∧
    (∃ (s : State), s.dev.cloSettle.tsu.clo = none) ∧
    (∃ (s : State) (m : _), s.dev.cloSettle.tsu.clo = some m) ∧
    (∃ (s : State), s.dev.cloSettle.timeValid = true) ∧
    (∃ (s : State), s.dev.flag F.CLO_STATUS_ANCHOR_BUSY = true ∧ s.dev.clo.oscRunning = true ∧ s.dev.timeValid = true) :=
  ⟨⟨st [(F.CLO_STATUS_OSC_STOPPED, 1)], by decide⟩,
   ⟨st [(F.CLO_STATUS_LOAD_BUSY, 1), (F.CLO_STATUS_OSC_STOPPED, 1)], by decide⟩,
   ⟨st [], by decide⟩,
   ⟨st [] fun d => { d with face := { d.face with hst := { d.face.hst with setNow := [(R.CLO_STATUS.off, 1)] } } }, by decide⟩,
   ⟨st [] fun d => { d with clo := { d.clo with onBattery := true } }, by decide⟩,
   ⟨st [], by decide⟩,
   ⟨st [], by decide⟩,
   ⟨st [] fun d => { d with tsu := { d.tsu with clo := some ⟨0, 0, 0, true⟩ } }, ⟨0, 0, 0, true⟩, by decide⟩,
   ⟨st [(F.TSU_STATUS_TIME_VALID, 1)], by decide⟩,
   ⟨st [(F.TSU_STATUS_TIME_VALID, 1), (F.CLO_STATUS_ANCHOR_BUSY, 1)], by decide⟩⟩

theorem witness_ClocheAlarmsAndTamper :
    (∃ (s : State) (n : Nat), n < 4 ∧ s.dev.alarmAt n ≤ s.dev.clo.count ∧ bitAt (s.dev.get F.CLO_ALARM_CTRL_ARM) n = true) ∧
    (∃ (s : State), s.dev.cloSettle.key.session.isSome = true) ∧
    (∃ (s : State) (mask : Nat) (n : _), s.dev.cloSettle.key.session.isSome = true ∧ bitAt mask n = true ∧ bitAt
      (s.dev.cloSettle.get F.CLO_TAMPER_ACTIVE) n = false ∧ bitAt (s.dev.cloSettle.setNow R.CLO_TAMPER_LATCH.off).toNat n =
      false) ∧
    (∃ (s : State), s.dev.cloSettle.flag (F.CLO_TAMP_CFG_s_ENABLE.at 12) = true ∧ s.dev.cloSettle.flag
      (F.CLO_TAMP_CFG_s_ZEROIZE.at 12) = true ∧ s.dev.cloSettle.clo.zeroTick ≠ some (s.dev.cycles / cyclesPerTick)) ∧
    (∃ (s : State) (n : Nat), n < 12 ∧ s.dev.flag (F.CLO_TAMP_CFG_s_ENABLE.at n) = true ∧ bitAt (s.dev.get
      F.CLO_TAMPER_ACTIVE) n = false) ∧
    (∃ (n : Nat), n < 12) ∧
    (∃ (s : State) (pair : Nat), pair < 2 ∧ s.dev.flag (F.CLO_TAMP_CFG_s_ENABLE.at (8 + pair)) = true) ∧
    (∃ (s : State) (b : _) (rest : _) (v : _), s.dev.clo.bridge = b :: rest ∧ b.write = some v ∧ b.off = R.CLO_TRIM.off ∧
      s.dev.tsu.clo = none) ∧
    (∃ (s : State), s.dev.clo.bridge = []) :=
  ⟨⟨st [(F.CLO_ALARM_CTRL_ARM, 15)], 3, by decide⟩,
   ⟨st [(F.CLO_TAMP_LOCK_LOCK, 1)] fun d => { d with key := { d.key with session := some ⟨0, 0, none, 0⟩ } }, by decide⟩,
   ⟨st [(F.CLO_TAMPER_LATCH_SOURCE, 0x1FFF)] fun d => { d with key := { d.key with session := some ⟨0, 0, none, 0⟩ } },
      0x1002, 12, by decide⟩,
   ⟨st [(F.CLO_TAMP_CFG_s_ENABLE.at 12, 1), (F.CLO_TAMP_CFG_s_ZEROIZE.at 12, 1)] fun d =>
      { d with clo := { d.clo with vault := [(1, ⟨0, 0⟩)] } }, by decide⟩,
   ⟨st [(F.CLO_TAMP_CFG_s_ENABLE.at 11, 1)], 11, by decide⟩,
   ⟨11, by decide⟩,
   ⟨st [(F.CLO_TAMP_CFG_s_ENABLE.at 9, 1)], 1, by decide⟩,
   ⟨st [] fun d => { d with clo := { d.clo with bridge := [⟨R.CLO_TRIM.off, some 9⟩] } }, ⟨R.CLO_TRIM.off, some 9⟩, [], 9, by
      decide⟩,
   ⟨st [], by decide⟩⟩

theorem witness_TimeAdjust :
    (∃ (s : State), s.dev.adjOwned true = false ∧ s.dev.adjBad = false ∧ 0 ≤ (s.dev.now : Int) + (s.dev.signedFld
      F.TSU_ADJ_SEC_AMOUNT * 1000000000 + s.dev.signedFld F.TSU_ADJ_NS_AMOUNT)) ∧
    (∃ (s : State), s.dev.adjOwned false = false ∧ s.dev.adjBad = false ∧ s.dev.signedFld F.TSU_ADJ_SEC_AMOUNT = 0) ∧
    (∃ (s : State), s.dev.flag F.TSU_ADJ_CMD_BUSY = true ∧ 0 ≤ (s.dev.now : Int) * 2 ^ 32 + s.dev.tsu.frac + s.dev.tsu.slew) ∧
    (∃ (s : State), s.dev.get F.TSU_CTRL_SERVO ≠ 0) :=
  ⟨⟨st [(F.TSU_CTRL_SERVO, 1), (F.TSU_ADJ_SEC_AMOUNT, 5), (F.TSU_ADJ_NS_AMOUNT, 0xFFFFFFFF)], by decide⟩,
   ⟨st [(F.TSU_CTRL_SERVO, 1), (F.TSU_ADJ_NS_AMOUNT, 0xFFFFFF00)], by decide⟩,
   ⟨st [(F.TSU_ADJ_CMD_BUSY, 1)] fun d =>
      { d with tsu := { d.tsu with sec := 3, ns := 999999999, frac := 5, slew := 4294967300 } }, by decide⟩,
   ⟨st [(F.TSU_CTRL_SERVO, 1)], by decide⟩⟩

theorem witness_TimeReadsAndReferences :
    (∃ (s : State), s.dev.flag F.TSU_CLO_CMD_BUSY = false) ∧
    (∃ (s : State) (m : _), s.dev.tsu.clo = some m) ∧
    (∃ (s : State), s.dev.servo = Sv.holdover ∧ s.dev.tsu.holdSince + s.dev.get F.TSU_LOCK_HOLD_LIMIT * secCycles <
      s.dev.cycles) ∧
    (∃ (s : State), s.dev.flag F.TSU_UTC_LEAP61 = true ∧ ((s.dev.tsu.sec : Int) - s.dev.signedFld F.TSU_UTC_OFFSET) % 86400 =
      0) ∧
    (∃ (s : State), s.dev.flag F.TSU_UTC_LEAP59 = true ∧ ((s.dev.tsu.sec : Int) - s.dev.signedFld F.TSU_UTC_OFFSET) % 86400 =
      86399) ∧
    (∃ (s : State), s.dev.get F.TSU_CTRL_PPS_IN_MODE ≠ 0 ∧ 0 ≤ s.dev.stamp - s.dev.signedFld F.TSU_PPS_IN_COMP_DELAY * 256) ∧
    (∃ (s : State), s.dev.get F.TSU_CTRL_PPS_IN_MODE = 2 ∧ s.dev.tsu.ppsDue < s.dev.cycles) ∧
    (∃ (s : State), s.dev.flag F.TSU_CTRL_PPS_OUT_EN = true ∧ ((s.dev.now : Int) - s.dev.signedFld F.TSU_PPS_OUT_OFFSET) %
      1000000000 ≤ 2 ∧ s.dev.tsu.ppsOutSec ≠ some (((s.dev.now : Int) - s.dev.signedFld F.TSU_PPS_OUT_OFFSET) /
      1000000000).toNat) ∧
    (∃ (s : State), s.dev.tsu.ppsOut = true ∧ s.dev.tsu.ppsOutAt + cyclesOf (s.dev.get F.TSU_PPS_OUT_WIDTH) ≤ s.dev.cycles) :=
  ⟨⟨st [(F.TSU_CLO_CMD_GATE, 20)], by decide⟩,
   ⟨st [(F.TSU_CLO_CMD_BUSY, 1)] fun d => { d with tsu := { d.tsu with clo := some ⟨0, 0, 0, true⟩ } }, ⟨0, 0, 0, true⟩, by decide⟩,
   ⟨st [(F.TSU_STATUS_STATE, 3)] fun d => { d with cycles := 2 ^ 60 }, by decide⟩,
   ⟨st [(F.TSU_UTC_LEAP61, 1), (F.TSU_UTC_OFFSET, 0xFFFF)] fun d => { d with tsu := { d.tsu with sec := 86399 } }, by decide⟩,
   ⟨st [(F.TSU_UTC_LEAP59, 1), (F.TSU_UTC_OFFSET, 0)] fun d => { d with tsu := { d.tsu with sec := 86399 } }, by decide⟩,
   ⟨st [(F.TSU_CTRL_PPS_IN_MODE, 2), (F.TSU_PPS_IN_COMP_DELAY, 0xFFFF)] fun d =>
      { d with tsu := { d.tsu with sec := 3, ns := 17 } }, by decide⟩,
   ⟨st [(F.TSU_CTRL_PPS_IN_MODE, 2), (F.TSU_STATUS_STATE, 2)] fun d =>
      { d with cycles := 2 ^ 60, tsu := { d.tsu with ppsMissed := 2 } }, by decide⟩,
   ⟨st [(F.TSU_CTRL_PPS_OUT_EN, 1)], by decide⟩,
   ⟨st [] fun d => { d with cycles := 2 ^ 60, tsu := { d.tsu with ppsOut := true } }, by decide⟩⟩

theorem witness_PtpMessages :
    (∃ (s : State) (n : Nat) (h : PtpHdr), s.dev.takesPtp n h = true ∧ s.dev.fromMaster n h ∧ s.dev.syncInTime n h ∧ h.twoStep
      = true) ∧
    (∃ (s : State) (n : Nat) (h : PtpHdr), s.dev.takesPtp n h = true ∧ s.dev.fromMaster n h ∧ s.dev.syncInTime n h ∧ h.twoStep
      = false) ∧
    (∃ (s : State) (n : Nat) (h : PtpHdr) (t : _) (c : _), s.dev.takesPtp n h = true ∧ s.dev.fromMaster n h ∧ (s.dev.ptpPort
      n).sync = some (h.seq, t, c)) ∧
    (∃ (s : State) (n : Nat) (h : PtpHdr), s.dev.takesPtp n h = true ∧ s.dev.masterSends n = true ∧ s.dev.flag
      (F.ETH_n_CTRL_LOOPBACK.at n) = false ∧ s.dev.get (F.TSU_Pn_CFG_DELAY.at n) = 0) ∧
    (∃ (s : State) (n : Nat) (h : PtpHdr) (t : _) (diff : _), s.dev.takesPtp n h = true ∧ s.dev.fromMaster n h ∧ h.requester =
      ptpSource n ∧ s.dev.get (F.TSU_Pn_CFG_DELAY.at n) = 0 ∧ (s.dev.ptpPort n).req = some (h.seq, t) ∧ (s.dev.ptpPort
      n).msDiff = some diff) ∧
    (∃ (s : State) (n : Nat) (h : PtpHdr), s.dev.takesPtp n h = true ∧ s.dev.flag (F.ETH_n_CTRL_LOOPBACK.at n) = false ∧
      s.dev.get (F.TSU_Pn_CFG_DELAY.at n) ≠ 0 ∧ s.dev.serves = true ∧ s.dev.flag (F.TSU_Pn_CFG_ONE_STEP.at n) = true) ∧
    (∃ (s : State) (n : Nat) (h : PtpHdr), s.dev.takesPtp n h = true ∧ s.dev.flag (F.ETH_n_CTRL_LOOPBACK.at n) = false ∧
      s.dev.get (F.TSU_Pn_CFG_DELAY.at n) ≠ 0 ∧ s.dev.serves = true ∧ s.dev.flag (F.TSU_Pn_CFG_ONE_STEP.at n) = false) ∧
    (∃ (s : State) (n : Nat) (h : PtpHdr) (t : _), s.dev.takesPtp n h = true ∧ s.dev.get (F.TSU_Pn_CFG_DELAY.at n) = 1 ∧
      (s.dev.ptpPort n).req = some (h.seq, t) ∧ h.requester = ptpSource n ∧ s.dev.pdelayInTime n ∧ h.twoStep = false) ∧
    (∃ (s : State) (n : Nat) (h : PtpHdr) (t : _), s.dev.takesPtp n h = true ∧ s.dev.get (F.TSU_Pn_CFG_DELAY.at n) = 1 ∧
      (s.dev.ptpPort n).req = some (h.seq, t) ∧ h.requester = ptpSource n ∧ s.dev.pdelayInTime n ∧ h.twoStep = true) ∧
    (∃ (s : State) (n : Nat) (h : PtpHdr) (t : _) (t2 : _) (t4 : _) (c : _), s.dev.takesPtp n h = true ∧ (s.dev.ptpPort n).req
      = some (h.seq, t) ∧ (s.dev.ptpPort n).presp = some (h.source, h.seq, t2, t4, c) ∧ h.requester = ptpSource n) ∧
    (∃ (s : State) (n : Nat) (h : PtpHdr) (a : Announce), s.dev.hearsAnnounce n h a ∧ (s.dev.ptpPort n).foreign.find?
      (·.source == h.source) = none) ∧
    (∃ (s : State) (n : Nat) (h : PtpHdr) (a : _) (f : _), s.dev.hearsAnnounce n h a ∧ (s.dev.ptpPort n).best = none ∧
      (s.dev.ptpPort n).foreign = [f] ∧ f.source = h.source ∧ s.dev.cycles ≤ f.heard + 4 * intervalCycles a.interval) ∧
    (∃ (s : State) (n : Nat), s.dev.announceRuns n = true ∧ (s.dev.ptpPort n).heard + s.dev.announceWait n < s.dev.cycles) ∧
    (∃ (s : State) (n : Nat), s.dev.ptpEnabled n = true ∧ s.dev.masterSends n = true) ∧
    (∃ (s : State) (n : _), s.dev.ptpEnabled n = true ∧ s.dev.masterSends n = true ∧ s.dev.flag (F.ETH_n_CTRL_LOOPBACK.at n) =
      false) ∧
    (∃ (s : State) (n : Nat), s.dev.ptpEnabled n = true ∧ s.dev.portState n ≠ Ps.faulty ∧ s.dev.slavePort = n) :=
  ⟨⟨exSlavePort {}, 3, { exPtp with twoStep := true }, by and_intros <;> first | rfl | decide | exact Nat.zero_le _⟩,
   ⟨exSlavePort {}, 3, exPtp, by and_intros <;> first | rfl | decide | exact Nat.zero_le _⟩,
   ⟨exSlavePort { sync := some (9, 4, 6), delays := [8] }, 3, exPtp, 4, 6,
      by and_intros <;> first | rfl | decide | exact Nat.zero_le _⟩,
   ⟨st (ptpOn ++ [(F.TSU_Pn_STATE_PORT_STATE.at 3, 6), (F.TSU_Pn_CFG_DELAY.at 3, 0), (F.PRL_STATUS_STATE, PairSt.active)]), 3,
      exPtp, by decide⟩,
   ⟨exSlavePort { req := some (9, 4), msDiff := some 6, delays := [8, 9, 10] }, 3, exPtp, 4, 6,
      by and_intros <;> first | rfl | decide | exact Nat.zero_le _⟩,
   ⟨st (ptpOn ++ [(F.TSU_Pn_CFG_DELAY.at 3, 1), (F.TSU_Pn_CFG_ONE_STEP.at 3, 1), (F.PRL_STATUS_STATE, PairSt.active)]), 3,
      exPtp, by decide⟩,
   ⟨st (ptpOn ++ [(F.TSU_Pn_CFG_DELAY.at 3, 1), (F.TSU_Pn_CFG_ONE_STEP.at 3, 0), (F.PRL_STATUS_STATE, PairSt.active)]), 3,
      exPtp, by decide⟩,
   ⟨st (ptpOn ++ [(F.TSU_Pn_CFG_DELAY.at 3, 1)]) fun d =>
      { d with tsu := { d.tsu with sec := 7, ports := [(3, { req := some (9, 4) })] } }, 3, exPtp, 4,
      by and_intros <;> first | rfl | decide | exact Nat.zero_le _⟩,
   ⟨st (ptpOn ++ [(F.TSU_Pn_CFG_DELAY.at 3, 1)]) fun d =>
      { d with tsu := { d.tsu with sec := 7, ports := [(3, { req := some (9, 4) })] } }, 3, { exPtp with twoStep := true }, 4,
      by and_intros <;> first | rfl | decide | exact Nat.zero_le _⟩,
   ⟨st ptpOn fun d =>
      { d with tsu := { d.tsu with sec := 7, ports := [(3, { req := some (9, 4), presp := some (5, 9, 3, 2, 1) })] } }, 3,
      exPtp, 4, 3, 2, 1, by and_intros <;> first | rfl | decide | exact Nat.zero_le _⟩,
   ⟨st ptpOn, 3, exForeign, exAnnounce, ⟨by decide, by decide, by decide, exForeign_usable, by decide, by decide, Nat.zero_le _⟩, rfl⟩,
   ⟨st ptpOn fun d => { d with tsu := { d.tsu with ports := [(3, { foreign := [⟨exForeign.source, exAnnounce, 0, none⟩] })] } }, 3, exForeign,
      exAnnounce, ⟨exForeign.source, exAnnounce, 0, none⟩, ⟨by decide, by decide, by decide, exForeign_usable, by decide, by decide, Nat.zero_le _⟩,
      rfl, rfl, rfl, Nat.zero_le _⟩,
   ⟨st [(F.TSU_Pn_STATE_PORT_STATE.at 3, Ps.listening)] fun d => { d with cycles := 2 ^ 60 }, 3, by decide⟩,
   ⟨st (ptpOn ++ [(F.TSU_Pn_STATE_PORT_STATE.at 3, 6), (F.PRL_STATUS_STATE, PairSt.active)]), 3, by decide⟩,
   ⟨st (ptpOn ++ [(F.TSU_Pn_STATE_PORT_STATE.at 3, 6), (F.PRL_STATUS_STATE, PairSt.active)]), 3, by decide⟩,
   ⟨st (ptpOn ++ [(F.TSU_STATUS_SLAVE_PORT, 3)]), 3, by decide⟩⟩

theorem witness_EthernetPorts :
    (∃ (s : State) (n : Nat) (len : Nat) (target : Nat), s.dev.takesFrame n len = true ∧ s.dev.flag (F.ETH_n_CTRL_LOOPBACK.at
      n) = false ∧ s.dev.ownAddr n target = true) ∧
    (∃ (s : State) (n : Nat) (len : Nat) (dst : Nat), s.dev.takesFrame n len = true ∧ s.dev.flag (F.ETH_n_CTRL_LOOPBACK.at n)
      = false ∧ s.dev.ownAddr n dst = true ∧ ((s.dev.ethPort n).echoSec ≠ s.dev.tsu.sec ∨ (s.dev.ethPort n).echoes < 100)) ∧
    (∃ (s : State) (n : Nat) (len : Nat) (target : Nat), s.dev.takesFrame n len = true ∧ s.dev.flag (F.ETH_n_CTRL_LOOPBACK.at
      n) = false ∧ target ≠ 0 ∧ (s.dev.reg (R.ETH_n_IP4.at n)).toNat = target) ∧
    (∃ (s : State) (n : Nat) (len : Nat), s.dev.takesFrame n len = true) ∧
    (∃ (s : State) (n : Nat) (len : Nat), s.dev.takesFrame n len = true) ∧
    (∃ (s : State) (n : Nat) (addr : Nat) (r : _), (s.dev.ethPort n).resolving.find? (·.addr == addr) = some r ∧ r.tries < 3 ∧
      r.asked + secCycles ≤ s.dev.cycles ∧ s.dev.takesFrame n 0 = true ∧ s.dev.flag (F.ETH_n_CTRL_LOOPBACK.at n) = false) ∧
    (∃ (s : State) (n : Nat) (addr : Nat) (r : _), (s.dev.ethPort n).resolving.find? (·.addr == addr) = some r ∧ 3 ≤ r.tries ∧
      r.asked + secCycles ≤ s.dev.cycles ∧ r.waiting ≠ [] ∧ (∀ w ∈ r.waiting, w.1 + 3 * secCycles < s.dev.cycles)) ∧
    (∃ (s : State) (n : Nat), s.dev.get (F.ETH_n_CTRL_RATE.at n) = 0 ∧ s.dev.flag (F.ETH_n_CTRL_RS_FEC.at n) = true) ∧
    (∃ (s : State) (n : Nat), s.dev.flag (F.ETH_n_CTRL_RS_FEC.at n) = false) :=
  ⟨⟨st [(F.ETH_n_CTRL_ENABLE.at 3, 1)], 3, 90, (st []).dev.linkLocal 3, by decide⟩,
   ⟨st [(F.ETH_n_CTRL_ENABLE.at 3, 1)], 3, 90, (st []).dev.linkLocal 3, by decide⟩,
   ⟨st [(F.ETH_n_CTRL_ENABLE.at 3, 1)] fun d => d.setReg (R.ETH_n_IP4.at 3) 9, 3, 64, 9, by decide⟩,
   ⟨st [(F.ETH_n_CTRL_ENABLE.at 3, 1)] fun d => { d with eth := [(3, { resolving := [⟨7, 1, 0, [(0, .pin 0 0 true)]⟩] })] },
      3, 90, by decide⟩,
   ⟨st [(F.ETH_n_CTRL_ENABLE.at 3, 1)], 3, 1522, by decide⟩,
   ⟨st [(F.ETH_n_CTRL_ENABLE.at 3, 1)] fun d => { d with cycles := 2 ^ 60, eth := [(3, { resolving := [⟨7, 2, 0, []⟩] })] },
      3, 7, ⟨7, 2, 0, []⟩, by decide⟩,
   ⟨st [] fun d => { d with cycles := 2 ^ 60, eth := [(3, { resolving := [⟨7, 3, 0, [(5, .pin 0 0 true)]⟩] })] }, 3, 7, ⟨7, 3,
      0, [(5, .pin 0 0 true)]⟩, by decide⟩,
   ⟨st [(F.ETH_n_CTRL_RATE.at 3, 0), (F.ETH_n_CTRL_RS_FEC.at 3, 1)], 3, by decide⟩,
   ⟨st [(F.ETH_n_CTRL_RS_FEC.at 3, 0)], 3, by decide⟩⟩

theorem witness_ResetsSealAndPower :
    (∃ (a : Bool) (b : Bool), (a = true ∨ b = true)) ∧
    (∃ (s : State), s.dev.glb.inReset = true ∧ s.dev.glb.tripHeld = false) ∧
    (∃ (s : State), s.dev.glb.inReset = true) ∧
    (∃ (s : State), s.dev.glb.inReset = true ∧ s.dev.glb.resetNLow = false ∧ s.dev.glb.pwrgoodLow = false) ∧
    (∃ (s : State), s.dev.trlState = Trl.structured ∧ s.dev.nfm.grafts = []) ∧
    (∃ (s : State), s.dev.glb.sealWait = true ∧ s.dev.trlState = Trl.structured ∧ s.dev.glb.sealAt +
      s.dev.trellis.device.hostSealWait * msCycles ≤ s.dev.cycles ∧ s.dev.nfm.grafts = []) ∧
    (∃ (s : State), s.dev.glb.powerFail = false ∧ (s.dev.glb.inReset = true ∨ s.dev.get F.GLB_BOOT_STEP < 9)) ∧
    (∃ (s : State), s.dev.glb.powerFail = false ∧ s.dev.glb.inReset = false ∧ 3 ≤ s.dev.get F.GLB_BOOT_STEP) ∧
    (∃ (s : State), s.dev.glb.powerFail = false ∧ s.dev.glb.inReset = false ∧ 9 ≤ s.dev.get F.GLB_BOOT_STEP) ∧
    (∃ (s : State), s.dev.glb.powerFail = false ∧ s.dev.glb.inReset = false ∧ 9 ≤ s.dev.get F.GLB_BOOT_STEP ∧ s.dev.prl.up =
      false ∧ s.dev.serves = false ∧ s.dev.trl.slots = []) ∧
    (∃ (s : State), s.dev.glb.powerFail = true ∧ (s.dev.glb.inReset = true ∨ s.dev.get F.GLB_BOOT_STEP < 9)) ∧
    (∃ (s : State), s.dev.glb.powerFail = true ∧ s.dev.glb.inReset = false ∧ 9 ≤ s.dev.get F.GLB_BOOT_STEP) ∧
    (∃ (s : State), s.dev.prl.causes.contains 0x0A = false ∧ s.dev.key.generating = none) ∧
    (∃ (s : State), s.dev.prl.up = false) :=
  ⟨⟨false, true, by decide⟩,
   ⟨st [] fun d => { d with glb := { d.glb with inReset := true, resetNLow := true, pwrgoodLow := true } }, by decide⟩,
   ⟨st [] fun d => { d with glb := { d.glb with inReset := true, resetNLow := true } }, by decide⟩,
   ⟨st [] fun d => { d with glb := { d.glb with inReset := true, tripHeld := true } }, by decide⟩,
   ⟨st [(F.TRL_STATUS_STATE, 3)], by decide⟩,
   ⟨st [(F.TRL_STATUS_STATE, 3)] fun d => { d with cycles := 2 ^ 60, glb := { d.glb with sealWait := true } }, by decide⟩,
   ⟨st [(F.GLB_BOOT_STEP, 8)], by decide⟩,
   ⟨st [(F.GLB_BOOT_STEP, 9)] fun d => { d with nfm := { d.nfm with filling := [3] } }, by decide⟩,
   ⟨st [(F.GLB_BOOT_STEP, 9)] fun d => { d with nfm := { d.nfm with filling := [3] } }, by decide⟩,
   ⟨st [(F.GLB_BOOT_STEP, 9)] fun d => { d with nfm := { d.nfm with filling := [3] } }, by decide⟩,
   ⟨st [(F.GLB_BOOT_STEP, 2)] fun d =>
      { d with glb := { d.glb with powerFail := true, failWait := true }, prl := { d.prl with causes := [4, 5] } }, by decide⟩,
   ⟨st [(F.GLB_BOOT_STEP, 9)] fun d => { d with glb := { d.glb with powerFail := true } }, by decide⟩,
   ⟨st [] fun d => { d with key := { d.key with sinceSeed := 7 } }, by decide⟩,
   ⟨st [(F.KEY_STATUS_ENTROPY_OK, 1)], by decide⟩⟩

theorem witness_StartupSteps :
    (∃ (s : State), s.dev.glb.inReset = false ∧ s.dev.get F.GLB_BOOT_STATE ≠ Boot.halted ∧ s.dev.get F.GLB_BOOT_STATE ≠
      Boot.noTrellis ∧ s.dev.glb.sealWait = false ∧ s.dev.get F.GLB_BOOT_STEP = 2 ∧ s.dev.glb.powerFail = false) ∧
    (∃ (s : State), s.dev.glb.inReset = false ∧ s.dev.get F.GLB_BOOT_STATE ≠ Boot.halted ∧ s.dev.get F.GLB_BOOT_STATE ≠
      Boot.noTrellis ∧ s.dev.glb.sealWait = false ∧ s.dev.get F.GLB_BOOT_STEP = 2 ∧ s.dev.glb.powerFail = true) ∧
    (∃ (s : State) (r : StepReport), s.dev.glb.inReset = false ∧ s.dev.get F.GLB_BOOT_STATE ≠ Boot.halted ∧ s.dev.get
      F.GLB_BOOT_STATE ≠ Boot.noTrellis ∧ s.dev.glb.sealWait = false ∧ s.dev.get F.GLB_BOOT_STEP = 3 ∧ r.selftest % 128 = 0) ∧
    (∃ (s : State) (r : StepReport), s.dev.glb.inReset = false ∧ s.dev.get F.GLB_BOOT_STATE ≠ Boot.halted ∧ s.dev.get
      F.GLB_BOOT_STATE ≠ Boot.noTrellis ∧ s.dev.glb.sealWait = false ∧ s.dev.get F.GLB_BOOT_STEP = 3 ∧ r.selftest % 128 ≠ 0) ∧
    (∃ (s : State), s.dev.glb.inReset = false ∧ s.dev.get F.GLB_BOOT_STATE ≠ Boot.halted ∧ s.dev.get F.GLB_BOOT_STATE ≠
      Boot.noTrellis ∧ s.dev.glb.sealWait = false ∧ s.dev.get F.GLB_BOOT_STEP = 5) ∧
    (∃ (s : State) (r : StepReport), s.dev.glb.inReset = false ∧ s.dev.get F.GLB_BOOT_STATE ≠ Boot.halted ∧ s.dev.get
      F.GLB_BOOT_STATE ≠ Boot.noTrellis ∧ s.dev.glb.sealWait = false ∧ s.dev.get F.GLB_BOOT_STEP = 6 ∧ r.ch0 ≠ r.ch1) ∧
    (∃ (s : State) (r : StepReport), s.dev.glb.inReset = false ∧ s.dev.get F.GLB_BOOT_STATE ≠ Boot.halted ∧ s.dev.get
      F.GLB_BOOT_STATE ≠ Boot.noTrellis ∧ s.dev.glb.sealWait = false ∧ s.dev.get F.GLB_BOOT_STEP = 6 ∧ r.ch0 = r.ch1 ∧ 4 ≤
      r.ch0 + r.ch1 ∧ r.zoneOk = true ∧ s.dev.trellis.device.hostSealWait = 0 ∧ s.dev.nfm.grafts = []) ∧
    (∃ (s : State) (r : StepReport), s.dev.glb.inReset = false ∧ s.dev.get F.GLB_BOOT_STATE ≠ Boot.halted ∧ s.dev.get
      F.GLB_BOOT_STATE ≠ Boot.noTrellis ∧ s.dev.glb.sealWait = false ∧ s.dev.get F.GLB_BOOT_STEP = 7 ∧ s.dev.glb.powerFail =
      false ∧ r.nand.ok = false) ∧
    (∃ (s : State), s.dev.glb.inReset = false ∧ s.dev.get F.GLB_BOOT_STATE ≠ Boot.halted ∧ s.dev.get F.GLB_BOOT_STATE ≠
      Boot.noTrellis ∧ s.dev.glb.sealWait = false ∧ s.dev.get F.GLB_BOOT_STEP = 9 ∧ s.dev.servo = Sv.locked) ∧
    (∃ (s : State), s.dev.glb.inReset = false ∧ s.dev.get F.GLB_BOOT_STATE ≠ Boot.halted ∧ s.dev.get F.GLB_BOOT_STATE ≠
      Boot.noTrellis ∧ s.dev.glb.sealWait = false ∧ s.dev.get F.GLB_BOOT_STEP = 10 ∧ s.dev.keyLocked = false) ∧
    (∃ (s : State), s.dev.glb.inReset = false ∧ s.dev.get F.GLB_BOOT_STATE ≠ Boot.halted ∧ s.dev.get F.GLB_BOOT_STATE ≠
      Boot.noTrellis ∧ s.dev.glb.sealWait = false ∧ s.dev.get F.GLB_BOOT_STEP = 11) ∧
    (∃ (s : State), s.dev.glb.inReset = false ∧ s.dev.get F.GLB_BOOT_STATE ≠ Boot.halted ∧ s.dev.get F.GLB_BOOT_STATE ≠
      Boot.noTrellis ∧ s.dev.glb.sealWait = false ∧ s.dev.get F.GLB_BOOT_STEP = 12 ∧ (s.dev.fhm.cells.all fun c =>
      c.2.sf.isNone) = true) :=
  ⟨⟨st [], by decide⟩,
   ⟨st [] fun d => { d with glb := { d.glb with powerFail := true } }, by decide⟩,
   ⟨st [(F.GLB_BOOT_STEP, 3)], { selftest := 128 }, by decide⟩,
   ⟨st [(F.GLB_BOOT_STEP, 3)], { selftest := 0x41 }, by decide⟩,
   ⟨st [(F.GLB_BOOT_STEP, 5)], by decide⟩,
   ⟨st [(F.GLB_BOOT_STEP, 6)], { ch0 := 4, ch1 := 3 }, by decide⟩,
   ⟨st [(F.GLB_BOOT_STEP, 6)], { ch0 := 4, ch1 := 4, zoneOk := true }, by decide⟩,
   ⟨st [(F.GLB_BOOT_STEP, 7)], { nand := { dies := [] } }, by decide⟩,
   ⟨st [(F.GLB_BOOT_STEP, 9), (F.TSU_STATUS_STATE, 2)], by decide⟩,
   ⟨st [(F.GLB_BOOT_STEP, 10)], by decide⟩,
   ⟨st [(F.GLB_BOOT_STEP, 11)], by decide⟩,
   ⟨st [(F.GLB_BOOT_STEP, 12)], by decide⟩⟩

theorem witness_TrellisAndGrafts :
    (∃ (s : State), s.dev.flag F.TRL_CMD_STATUS_BUSY = false ∧ s.dev.trlState = Trl.noTrellis) ∧
    (∃ (s : State), s.dev.flag F.TRL_CMD_STATUS_BUSY = false) ∧
    (∃ (s : State), s.dev.flag F.TRL_CMD_STATUS_BUSY = false ∧ s.dev.get F.NFM_STATUS_STATE ≠ 3) ∧
    (∃ (s : State) (slot : Nat), s.dev.flag F.TRL_CMD_STATUS_BUSY = false ∧ (s.dev.trlState = Trl.structured ∨ s.dev.trlState
      = Trl.sealed) ∧ slot < 3 ∧ s.dev.keyLocked = false ∧ Maps.has s.dev.trl.slots slot = false ∧ s.dev.standbySynced =
      false) ∧
    (∃ (s : State), s.dev.flag F.TRL_CMD_STATUS_BUSY = false ∧ (s.dev.trlState = Trl.structured ∨ s.dev.trlState = Trl.sealed)
      ∧ s.dev.trl.ownerFuse = none) ∧
    (∃ (s : State), s.dev.flag F.TRL_CMD_STATUS_BUSY = false ∧ (s.dev.trlState = Trl.structured ∨ s.dev.trlState =
      Trl.sealed)) ∧
    (∃ (s : State) (slot : Nat) (x : _) (at_ : _), s.dev.flag F.TRL_CMD_STATUS_BUSY = false ∧ (s.dev.trlState = Trl.structured
      ∨ s.dev.trlState = Trl.sealed) ∧ slot < 3 ∧ s.dev.keyLocked = false ∧ Maps.get? slot s.dev.trl.slots = some x ∧
      x.armedAt = none ∧ s.dev.standbySynced = false ∧ s.dev.get F.NFM_STATUS_STATE ≠ 3 ∧ at_ = s.dev.wide R.TRL_SLOT_AT_LO
      R.TRL_SLOT_AT_HI slot % 2 ^ 48 ∧ at_ ≠ 0 ∧ s.dev.tsu.sec ≤ at_) ∧
    (∃ (s : State) (slot : Nat) (x : _) (at_ : _), s.dev.flag F.TRL_CMD_STATUS_BUSY = false ∧ (s.dev.trlState = Trl.structured
      ∨ s.dev.trlState = Trl.sealed) ∧ slot < 3 ∧ s.dev.keyLocked = false ∧ Maps.get? slot s.dev.trl.slots = some x ∧
      x.armedAt = none ∧ s.dev.standbySynced = false ∧ at_ = s.dev.wide R.TRL_SLOT_AT_LO R.TRL_SLOT_AT_HI slot % 2 ^ 48 ∧ at_
      ≠ 0 ∧ at_ < s.dev.tsu.sec) ∧
    (∃ (s : State) (slot : Nat) (x : _), s.dev.flag F.TRL_CMD_STATUS_BUSY = false ∧ (s.dev.trlState = Trl.structured ∨
      s.dev.trlState = Trl.sealed) ∧ slot < 3 ∧ Maps.get? slot s.dev.trl.slots = some x ∧ x.armedAt = none) ∧
    (∃ (s : State) (slot : Nat) (x : _) (at_ : _), s.dev.flag F.TRL_CMD_STATUS_BUSY = false ∧ (s.dev.trlState = Trl.structured
      ∨ s.dev.trlState = Trl.sealed) ∧ slot < 3 ∧ Maps.get? slot s.dev.trl.slots = some x ∧ x.armedAt = some at_ ∧
      s.dev.tsu.sec < at_) ∧
    (∃ (s : State) (slot : Nat) (x : _) (at_ : _), s.dev.flag F.TRL_CMD_STATUS_BUSY = false ∧ (s.dev.trlState = Trl.structured
      ∨ s.dev.trlState = Trl.sealed) ∧ slot < 3 ∧ Maps.get? slot s.dev.trl.slots = some x ∧ x.armedAt = some at_ ∧ at_ ≤
      s.dev.tsu.sec) ∧
    (∃ (s : State) (slot : _), s.dev.flag F.TRL_CMD_STATUS_BUSY = false ∧ (s.dev.trlState = Trl.structured ∨ s.dev.trlState =
      Trl.sealed) ∧ slot < 3 ∧ Maps.get? slot s.dev.trl.slots = none) ∧
    (∃ (s : State) (slot : _) (x : _) (at_ : _), (s.dev.trlState = Trl.structured ∨ s.dev.trlState = Trl.sealed) ∧ slot < 3 ∧
      s.dev.trl.slots = [(slot, x)] ∧ x.armedAt = some at_ ∧ at_ ≤ s.dev.tsu.sec ∧ s.dev.serves = false ∧ (x.pkg.holds 5 ||
      x.pkg.holds 9 || x.pkg.holds 11) = false) ∧
    (∃ (s : State) (slot : _) (x : _) (at_ : _), (s.dev.trlState = Trl.structured ∨ s.dev.trlState = Trl.sealed) ∧ slot < 3 ∧
      s.dev.trl.slots = [(slot, x)] ∧ x.armedAt = some at_ ∧ at_ ≤ s.dev.tsu.sec ∧ s.dev.serves = false) :=
  ⟨⟨st [(F.TRL_STATUS_STATE, 2)], by decide⟩,
   ⟨st [], by decide⟩,
   ⟨st [(F.NFM_STATUS_STATE, 2)], by decide⟩,
   ⟨st [(F.TRL_STATUS_STATE, 4)], 2, by decide⟩,
   ⟨st [(F.TRL_STATUS_STATE, 4)], by decide⟩,
   ⟨st [(F.TRL_STATUS_STATE, 3)] fun d => { d with trl := { d.trl with secVersion := 9 } }, by decide⟩,
   ⟨st [(F.TRL_STATUS_STATE, 4)] fun d =>
      { d with trl := { d.trl with slots := [(2, ⟨⟨2, 1, 0, 5, 9, []⟩, none, false⟩)] } }.setReg (R.TRL_SLOT_AT_LO.at 2) 77,
      2, ⟨⟨2, 1, 0, 5, 9, []⟩, none, false⟩, 77, by decide⟩,
   ⟨st [(F.TRL_STATUS_STATE, 4)] fun d =>
      { d with trl := { d.trl with slots := [(2, ⟨⟨2, 1, 0, 5, 9, []⟩, none, false⟩)] }, tsu := { d.tsu with sec := 78 } }.setReg
      (R.TRL_SLOT_AT_LO.at 2) 77, 2, ⟨⟨2, 1, 0, 5, 9, []⟩, none, false⟩, 77, by decide⟩,
   ⟨st [(F.TRL_STATUS_STATE, 4)] fun d => { d with trl := { d.trl with slots := [(0, ⟨⟨2, 1, 0, 5, 9, []⟩, none, false⟩)] } },
      0, ⟨⟨2, 1, 0, 5, 9, []⟩, none, false⟩, by decide⟩,
   ⟨st [(F.TRL_STATUS_STATE, 4)] fun d =>
      { d with trl := { d.trl with slots := [(1, ⟨⟨2, 1, 0, 5, 9, []⟩, some 7, false⟩)] }, tsu := { d.tsu with sec := 6 } },
      1, ⟨⟨2, 1, 0, 5, 9, []⟩, some 7, false⟩, 7, by decide⟩,
   ⟨st [(F.TRL_STATUS_STATE, 4)] fun d =>
      { d with trl := { d.trl with slots := [(1, ⟨⟨2, 1, 0, 5, 9, []⟩, some 7, false⟩)] }, tsu := { d.tsu with sec := 7 } },
      1, ⟨⟨2, 1, 0, 5, 9, []⟩, some 7, false⟩, 7, by decide⟩,
   ⟨st [(F.TRL_STATUS_STATE, 4)], 2, by decide⟩,
   ⟨st [(F.TRL_STATUS_STATE, 4)] fun d =>
      { d with trl := { d.trl with slots := [(1, ⟨⟨2, 1, 0, 5, 9, []⟩, some 7, false⟩)] }, tsu := { d.tsu with sec := 7 } },
      1, ⟨⟨2, 1, 0, 5, 9, []⟩, some 7, false⟩, 7, by decide⟩,
   ⟨st [(F.TRL_STATUS_STATE, 4)] fun d =>
      { d with trl := { d.trl with slots := [(1, ⟨⟨2, 1, 0, 5, 9, []⟩, some 7, false⟩)] }, tsu := { d.tsu with sec := 7 } },
      1, ⟨⟨2, 1, 0, 5, 9, []⟩, some 7, false⟩, 7, by decide⟩⟩

theorem witness_RingWrites :
    (∃ (s : State) (n : Nat) (v : Word), n < 64 ∧ (s.dev.ringRec n).direction = 1 ∧ (s.dev.ring n).discarding = false ∧
      (s.dev.ring n).partial_ = [] ∧ 2 ≤ v.toNat % 8192 ∧ v.toNat % 8192 ≤ 4608 ∧ v.toNat / 2 ^ 24 = (s.dev.ringRec n).content
      ∧ s.dev.face.ringFree n ≠ 0) ∧
    (∃ (s : State) (n : Nat) (v : Word), n < 64 ∧ (s.dev.ringRec n).direction = 1 ∧ (s.dev.ring n).discarding = false ∧
      (s.dev.ring n).partial_ = [] ∧ (v.toNat % 8192 < 2 ∨ 4608 < v.toNat % 8192 ∨ v.toNat / 2 ^ 24 ≠ (s.dev.ringRec
      n).content)) ∧
    (∃ (s : State) (n : Nat) (w : _) (ws : _), n < 64 ∧ (s.dev.ringRec n).direction = 1 ∧ (s.dev.ring n).discarding = false ∧
      (s.dev.ring n).partial_ = w :: ws ∧ ws.length + 2 < w.toNat % 8192 ∧ s.dev.face.ringFree n ≠ 0) ∧
    (∃ (s : State) (n : Nat) (w : _) (ws : _), n < 64 ∧ (s.dev.ringRec n).direction = 1 ∧ (s.dev.ring n).discarding = false ∧
      (s.dev.ring n).partial_ = w :: ws ∧ ws.length + 2 = w.toNat % 8192 ∧ s.dev.face.ringFree n ≠ 0 ∧ s.dev.flag
      (F.RNG_n_STATUS_FLUSH_PENDING.at n) = false) ∧
    (∃ (s : State) (n : Nat), n < 64 ∧ (s.dev.ringRec n).direction = 1 ∧ (s.dev.ring n).discarding = false ∧ (s.dev.ring
      n).partial_ ≠ [] ∧ s.dev.face.ringFree n = 0) :=
  ⟨⟨st [] fun d => { d with trl := { d.trl with live := some { rings := [⟨1, 3, 0, 0, false⟩] } } }, 0, 0x03000003, by decide⟩,
   ⟨st [] fun d => { d with trl := { d.trl with live := some { rings := [⟨1, 3, 0, 0, false⟩] } } }, 0, 0x03001201, by decide⟩,
   ⟨st [] fun d =>
      { d with trl := { d.trl with live := some { rings := [⟨1, 3, 0, 0, false⟩] } }, face := { d.face with hst := { d.face.hst with rings := [(0, { partial_ := [0x03000003] })] } } },
      0, 0x03000003, [], by decide⟩,
   ⟨st [] fun d =>
      { d with trl := { d.trl with live := some { rings := [⟨1, 3, 0, 0, false⟩] } }, face := { d.face with hst := { d.face.hst with rings := [(0, { partial_ := [0x03000002] })] } } },
      0, 0x03000002, [], by decide⟩,
   ⟨st [(F.RNG_n_PTR_WR.at 0, 16384)] fun d =>
      { d with trl := { d.trl with live := some { rings := [⟨1, 3, 0, 0, false⟩] } }, face := { d.face with hst := { d.face.hst with rings := [(0, { partial_ := [0x03000003] })] } } },
      0, by decide⟩⟩

theorem witness_RingReads :
    (∃ (s : State) (n : Nat), n < 64 ∧ s.dev.toHost n = true ∧ s.dev.rd n ≠ s.dev.wr n ∧ s.dev.flag
      (F.RNG_n_STATUS_FLUSH_PENDING.at n) = false ∧ (s.dev.ring n).waiting = []) ∧
    (∃ (s : State) (n : Nat), s.dev.rd n = s.dev.wr n) ∧
    (∃ (s : State) (n : Nat), n < 64 ∧ (s.dev.ringRec n).direction ≠ 1 ∧ s.dev.atBoundary n = true ∧ s.dev.draining n = none ∧
      (s.dev.ring n).waiting = []) ∧
    (∃ (s : State) (n : Nat), n < 64 ∧ (s.dev.ringRec n).direction ≠ 1 ∧ s.dev.atBoundary n = false) ∧
    (∃ (s : State) (n : Nat) (p : _), n < 64 ∧ s.dev.toHost n = true ∧ s.dev.rd n ≠ s.dev.wr n ∧ (s.dev.ring n).packetAt
      (s.dev.rd n) = some p) ∧
    (∃ (s : State) (n : Nat), n < 64 ∧ s.dev.toHost n = true ∧ s.dev.draining n = none ∧ s.dev.flag
      (F.RNG_n_STATUS_MARK_VALID.at n) = true) ∧
    (∃ (s : State) (n : Nat), n < 64 ∧ s.dev.toHost n = true ∧ s.dev.draining n = none ∧ s.dev.flag
      (F.RNG_n_STATUS_MARK_VALID.at n) = false) ∧
    (∃ (s : State) (n : Nat) (p : _), s.dev.toHost n = true ∧ s.dev.draining n = some p) :=
  ⟨⟨st [(F.RNG_n_PTR_WR.at 0, 3), (F.RNG_n_PTR_RD.at 0, 32767)] fun d =>
      { d with trl := { d.trl with live := some { rings := [⟨0, 1, 0, 0, false⟩] } }, face := { d.face with hst := { d.face.hst with rings := [(0, { mem := [(16383, 9)] })] } } },
      0, by decide⟩,
   ⟨st [] fun d => { d with trl := { d.trl with live := some { rings := [⟨0, 1, 0, 0, false⟩] } } }, 0, by decide⟩,
   ⟨st [(F.RNG_n_PTR_WR.at 0, 3)] fun d =>
      { d with trl := { d.trl with live := some { rings := [⟨0, 1, 0, 0, false⟩] } }, face := { d.face with hst := { d.face.hst with rings := [(0, { pkts := [⟨0, 3⟩] })] } } },
      0, by decide⟩,
   ⟨st [(F.RNG_n_PTR_WR.at 0, 3), (F.RNG_n_PTR_RD.at 0, 1)] fun d =>
      { d with trl := { d.trl with live := some { rings := [⟨0, 1, 0, 0, false⟩] } }, face := { d.face with hst := { d.face.hst with rings := [(0, { pkts := [⟨0, 3⟩] })] } } },
      0, by decide⟩,
   ⟨st [(F.RNG_n_PTR_WR.at 0, 3), (F.RNG_n_PTR_RD.at 0, 1)] fun d =>
      { d with trl := { d.trl with live := some { rings := [⟨0, 1, 0, 0, false⟩] } }, face := { d.face with hst := { d.face.hst with rings := [(0, { pkts := [⟨0, 3⟩] })] } } },
      0, ⟨0, 3⟩, by decide⟩,
   ⟨st [(F.RNG_n_PTR_WR.at 0, 3), (F.RNG_n_PTR_RD.at 0, 3), (F.RNG_n_STATUS_MARK_VALID.at 0, 1), (F.RNG_n_MARK_POINTER.at 0,
      1)] fun d => { d with trl := { d.trl with live := some { rings := [⟨0, 1, 0, 0, false⟩] } } }, 0, by decide⟩,
   ⟨st [(F.RNG_n_PTR_WR.at 0, 3), (F.RNG_n_PTR_RD.at 0, 3)] fun d =>
      { d with trl := { d.trl with live := some { rings := [⟨0, 1, 0, 0, false⟩] } } }, 0, by decide⟩,
   ⟨st [(F.RNG_n_PTR_WR.at 0, 3), (F.RNG_n_CFG_DRAIN.at 0, 1), (F.RNG_n_HSIZE_LOG2.at 0, 16)] fun d =>
      { d with trl := { d.trl with live := some { rings := [⟨0, 1, 0, 0, false⟩] } }, face := { d.face with hst := { d.face.hst with rings := [(0, { pkts := [⟨0, 3⟩] })] } } },
      0, ⟨0, 3⟩, by decide⟩⟩

theorem witness_HostFunction :
    (∃ (s : State) (n : Nat) (p : _), n < 64 ∧ s.dev.draining n = some p ∧ s.dev.flag (F.RNG_n_STATUS_FLUSH_PENDING.at n) =
      false ∧ (s.dev.ring n).rewindPending = false ∧ (s.dev.ring n).waiting = []) ∧
    (∃ (s : State) (n : Nat) (v : Word) (size : _) (hwr : _), n < 64 ∧ size = 2 * 2 ^ s.dev.get (F.RNG_n_HSIZE_LOG2.at n) ∧
      hwr = s.dev.get (F.RNG_n_HWR_OFFSET.at n) ∧ v.toNat < 2 ^ 27 ∧ v.toNat < size ∧ (hwr + size - v.toNat) % size ≤ (hwr +
      size - s.dev.get (F.RNG_n_HRD_OFFSET.at n)) % size) ∧
    (∃ (s : State) (n : Nat) (v : Word) (size : _) (hwr : _), n < 64 ∧ size = 2 * 2 ^ s.dev.get (F.RNG_n_HSIZE_LOG2.at n) ∧
      hwr = s.dev.get (F.RNG_n_HWR_OFFSET.at n) ∧ v.toNat < 2 ^ 27 ∧ (size ≤ v.toNat ∨ (hwr + size - s.dev.get
      (F.RNG_n_HRD_OFFSET.at n)) % size < (hwr + size - v.toNat) % size)) ∧
    (∃ (s : State) (v : Nat) (m : _), m = Maps.getD s.dev.face.hst.msix v {} ∧ m.pend = false) ∧
    (∃ (s : State) (v : Nat) (m : _), m = Maps.getD s.dev.face.hst.msix v {} ∧ m.pend = true ∧ m.lastSent = none) ∧
    (∃ (s : State) (n : Nat) (m : _), (s.dev.ring n).unsignalled ≠ 0 ∧ 1000 * (s.dev.ring n).unsignalledAt + msCycles *
      s.dev.get (F.RNG_n_IRQ_COALESCE.at n) ≤ 1000 * s.dev.cycles ∧ m = Maps.getD s.dev.face.hst.msix (s.dev.ringRec n).vector
      {} ∧ m.masked = false ∧ m.lastSent = none) ∧
    (∃ (n : _), n < 64) :=
  ⟨⟨st [(F.RNG_n_PTR_WR.at 0, 3), (F.RNG_n_CFG_DRAIN.at 0, 1), (F.RNG_n_HSIZE_LOG2.at 0, 16)] fun d =>
      { d with trl := { d.trl with live := some { rings := [⟨0, 1, 0, 0, false⟩] } }, face := { d.face with hst := { d.face.hst with rings := [(0, { pkts := [⟨0, 3⟩] })] } } },
      0, ⟨0, 3⟩, by decide⟩,
   ⟨st [(F.RNG_n_HSIZE_LOG2.at 0, 16), (F.RNG_n_HWR_OFFSET.at 0, 64)] fun d =>
      { d with trl := { d.trl with live := some { rings := [⟨0, 1, 0, 0, false⟩] } } }, 0, 60, 131072, 64, by decide⟩,
   ⟨st [], 5, 0x7FFFFFF, _, _, by decide, rfl, rfl, by decide, by decide⟩,
   ⟨st [], 3, {}, by decide⟩,
   ⟨st [] fun d =>
      { d with face := { d.face with hst := { d.face.hst with msix := [(3, { pend := true, addr := 64, data := 5 })] } } }, 3,
      { pend := true, addr := 64, data := 5 }, by decide⟩,
   ⟨st [] fun d =>
      { d with cycles := 2 ^ 60, trl := { d.trl with live := some { rings := [⟨0, 1, 0, 0, false⟩] } }, face := { d.face with hst := { d.face.hst with rings := [(0, { unsignalled := 4 })], msix := [(0, { masked := false, addr := 64, data := 5 })] } } },
      0, { masked := false, addr := 64, data := 5 }, by decide⟩,
   ⟨5, by decide⟩⟩

theorem witness_RegisterWrites :
    (∃ (s : State) (off : Nat) (v : Word) (r : RegD), s.dev.glb.inReset = false ∧ storedAlone off v = true ∧ regAt? off = some
      r ∧ (s.dev.trl.sealed && changesRwl (s.dev.reg off) v r.fields) = false) ∧
    (∃ (s : State) (off : Nat) (v : Word) (r : RegD), s.dev.glb.inReset = false ∧ storedAlone off v = true ∧ regAt? off = some
      r ∧ s.dev.trl.sealed = true ∧ changesRwl (s.dev.reg off) v r.fields = true) ∧
    (∃ (s : State) (be : Nat), s.dev.glb.inReset = false ∧ be % 16 ≠ 15) ∧
    (∃ (s : State) (off : Nat), s.dev.glb.inReset = false ∧ off < 0x400000 ∧ off % 4 = 0 ∧ off / 65536 = 0xF) ∧
    (∃ (s : State), s.dev.glb.inReset = false) ∧
    (∃ (s : State) (off : Nat) (r : RegD) (i j : Nat), s.dev.glb.inReset = false ∧ r ∈ clearedBy off ∧ i < r.cnt ∧ j < r.cnt2) ∧
    (∃ (s : State) (p : Nat), s.dev.glb.inReset = false ∧ p < 8) ∧
    (∃ (s : State) (f j : Nat), s.dev.glb.inReset = false ∧ f < 4 ∧ j < R.ZXP_CNT_n.cnt2) ∧
    (∃ (s : State) (n : _) (k : _), s.dev.glb.inReset = false ∧ n < 4 ∧ k < 8) :=
  ⟨⟨st [], R.NFM_PE_RATED.off, 7, R.NFM_PE_RATED, by decide⟩,
   ⟨st [] fun d => { d with trl := { d.trl with sealed := true } }, R.BIL_HISTORY.off, 7, R.BIL_HISTORY, by decide⟩,
   ⟨st [], 3, by decide⟩,
   ⟨st [], R.CLO_CTRL.off, by decide⟩,
   ⟨st [], by decide⟩,
   ⟨st [] fun d => d.setReg (R.ING_CNT_n.at 2) 9, R.ING_CTRL.off, R.ING_CNT_n, 2, 0, by decide⟩,
   ⟨st [] fun d => d.setReg (R.CTX_ARB_GRANT_p.at 7) 9, 7, by decide⟩,
   ⟨st [] fun d => d.setReg (R.ZXP_CNT_n.at2 3 11) 9, 3, 11, by decide⟩,
   ⟨st [] fun d => { d with eth := [(3, { counters := [(2, 1)] })] }, 3, 2, by decide⟩⟩

theorem witness_EventsAndHealth :
    (∃ (s : State) (code : Nat) (x : _), Maps.get? code s.dev.face.hst.evr.pendingSummary = some x ∧ x.at_ + s.dev.get
      F.EVR_SUMMARY_PERIOD * secCycles ≤ s.dev.cycles) ∧
    (∃ (s : State), s.dev.nfm.directory = true ∧ s.dev.face.hst.evr.archive = []) ∧
    (∃ (s : State) (r : _) (rs : _), s.dev.nfm.directory = true ∧ s.dev.face.hst.evr.archive = r :: rs ∧ r.seq ≤ s.dev.wide
      R.EVR_ARCH_SEQ_LO R.EVR_ARCH_SEQ_HI 0) ∧
    (∃ (s : State) (m : _), m < 6 ∧ 0 < s.dev.get F.HLT_WARN_WINDOW ∧ ((s.dev.tsu.sec : Int) - s.dev.signedFld
      F.TSU_UTC_OFFSET) % 86400 = 0 ∧ s.dev.face.hst.sampledDay ≠ some s.dev.utcDay) ∧
    (∃ (s : State) (m : _), m < 6 ∧ 0 < s.dev.get F.HLT_WARN_WINDOW) :=
  ⟨⟨st [] fun d =>
      { d with cycles := 2 ^ 60, face := { d.face with hst := { d.face.hst with evr := { d.face.hst.evr with pendingSummary := [(70, ⟨3, 0, 0, 0, 0⟩)] } } } },
      70, ⟨3, 0, 0, 0, 0⟩, by decide⟩,
   ⟨st [] fun d => { d with nfm := { d.nfm with directory := true } }, by decide⟩,
   ⟨st [] fun d =>
      { d with nfm := { d.nfm with directory := true }, face := { d.face with hst := { d.face.hst with evr := { d.face.hst.evr with archive := [exEvent] } } } },
      exEvent, [], by decide⟩,
   ⟨st [(F.TSU_UTC_OFFSET, 0)], 5, by decide⟩,
   ⟨st [], 3, by decide⟩⟩

theorem witness_HeadCommands :
    (∃ (s : State) (i : Nat), s.dev.flag F.FHM_HEAD_CMD_BUSY = false ∧ s.dev.serves = true ∧ s.dev.standbySynced = false ∧
      s.dev.headReg? (i % 4096) = none ∧ s.dev.dur.heads.any (fun p => p.2.eui == s.dev.wide R.FHM_HEAD_EUI_LO
      R.FHM_HEAD_EUI_HI 0) = false) ∧
    (∃ (s : State) (i : Nat) (r : _), s.dev.flag F.FHM_HEAD_CMD_BUSY = false ∧ s.dev.serves = true ∧ s.dev.standbySynced =
      false ∧ s.dev.headReg? (i % 4096) = some r) ∧
    (∃ (s : State) (i : Nat) (r : _), s.dev.flag F.FHM_HEAD_CMD_BUSY = false ∧ s.dev.serves = true ∧ s.dev.headReg? (i % 4096)
      = some r) ∧
    (∃ (s : State), s.dev.flag F.FHM_HEAD_CMD_BUSY = false ∧ s.dev.serves = false) :=
  ⟨⟨st active, 4101, by decide⟩,
   ⟨st ethOn fun d =>
      { withT radioT d with dur := { d.dur with heads := [(5, { eui := 9, epoch := 1 })] }, fhm := { d.fhm with heads := [(5, { session := true, state := .active })] } },
      5, { eui := 9, epoch := 1 }, by decide⟩,
   ⟨st active fun d =>
      { d with dur := { d.dur with heads := [(5, { eui := 9, epoch := 1 })] }, fhm := { d.fhm with heads := [(5, { session := true })] } },
      5, { eui := 9, epoch := 1 }, by decide⟩,
   ⟨st [], by decide⟩⟩

theorem witness_HeadDatagramsAndSilence :
    (∃ (s : State) (port : Nat) (g : _) (m : _) (b : Bytes), s.dev.hlpAccepts port g 6 m b ∧ (s.dev.headRt m.head).state =
      .active) ∧
    (∃ (s : State) (port : Nat) (g : _) (m : _) (b : Bytes), s.dev.hlpAccepts port g 7 m b ∧ b.u8 0 = 4) ∧
    (∃ (s : State) (port : Nat) (g : _) (m : _) (b : Bytes) (o : _), s.dev.hlpAccepts port g 5 m b ∧ s.dev.order? m.head (b.be
      0 4) = some o ∧ o.purpose = .beacon ∧ s.dev.now ≤ s.dev.confirmDeadline o) ∧
    (∃ (s : State) (port : Nat) (g : _) (m : _) (b : Bytes) (f : _), s.dev.hlpAccepts port g 2 m b ∧ b.length = 18 + b.be 16 2
      ∧ b.be 16 2 ≤ 1024 ∧ b.u8 11 ≤ 2 ∧ parseFrame false (b.drop 18) = some f ∧ s.dev.fhm.heard = []) ∧
    (∃ (s : State) (port : Nat) (g : _), s.dev.hlpForged port g 6) ∧
    (∃ (s : State) (port : Nat) (g : _), s.dev.hlpForged port g 7) ∧
    (∃ (s : State) (port : Nat) (g : _), s.dev.hlpForged port g 5) ∧
    (∃ (s : State) (port : Nat) (g : _), s.dev.hlpForged port g 2) ∧
    (∃ (s : State) (i : Nat) (r : _), s.dev.headReg? i = some r ∧ (s.dev.headRt i).state ≠ .offline ∧ (s.dev.headRt i).heardAt
      + 3 * s.dev.statusCycles < s.dev.cycles ∧ (s.dev.headRt i).missed = 0) ∧
    (∃ (s : State) (i : Nat) (r : _), s.dev.headReg? i = some r ∧ (s.dev.headRt i).state ≠ .offline ∧ (s.dev.headRt i).heardAt
      + 3 * s.dev.statusCycles < s.dev.cycles ∧ (s.dev.headRt i).missed ≠ 0 ∧ s.dev.cycles ≤ (s.dev.headRt i).missedAt +
      s.dev.statusCycles) ∧
    (∃ (s : State) (i : Nat), (s.dev.headRt i).state = .suspended ∧ (s.dev.headRt i).since + cyclesOf 60000000 < s.dev.cycles) :=
  ⟨⟨st ethOn exHead, 3, udp (exDgram (exHeader 6 24) ([255, 255, 255, 0, 1, 2, 3, 4, 0, 0, 0, 5, 0, 0, 0, 6, 0, 0, 0, 7, 0, 8, 0,
      9]) 0 1 (exTag (exHeader 6 24) ([255, 255, 255, 0, 1, 2, 3, 4, 0, 0, 0, 5, 0, 0, 0, 6, 0, 0, 0, 7, 0, 8, 0, 9]) 0 1)),
      exMsg (exHeader 6 24) ([255, 255, 255, 0, 1, 2, 3, 4, 0, 0, 0, 5, 0, 0, 0, 6, 0, 0, 0, 7, 0, 8, 0, 9]) 0 1 (exTag
      (exHeader 6 24) ([255, 255, 255, 0, 1, 2, 3, 4, 0, 0, 0, 5, 0, 0, 0, 6, 0, 0, 0, 7, 0, 8, 0, 9]) 0 1), [255, 255, 255,
      0, 1, 2, 3, 4, 0, 0, 0, 5, 0, 0, 0, 6, 0, 0, 0, 7, 0, 8, 0, 9], hlpAccepts_ex (by decide), by decide⟩,
   ⟨st ethOn exHead, 3, udp (exDgram (exHeader 7 2) ([4, 0]) 0 1 (exTag (exHeader 7 2) ([4, 0]) 0 1)), exMsg (exHeader 7 2)
      ([4, 0]) 0 1 (exTag (exHeader 7 2) ([4, 0]) 0 1), [4, 0], hlpAccepts_ex (by decide), by decide⟩,
   ⟨st ethOn fun d => { exHead d with fhm := { (exHead d).fhm with orders := [exOrder .beacon] } }, 3, udp (exDgram (exHeader
      5 18) ([0, 0, 0, 7, 1] ++ List.replicate 8 0 ++ [9, 0, 0, 0, 0]) 0 1 (exTag (exHeader 5 18) ([0, 0, 0, 7, 1] ++
      List.replicate 8 0 ++ [9, 0, 0, 0, 0]) 0 1)), exMsg (exHeader 5 18) ([0, 0, 0, 7, 1] ++ List.replicate 8 0 ++ [9, 0, 0,
      0, 0]) 0 1 (exTag (exHeader 5 18) ([0, 0, 0, 7, 1] ++ List.replicate 8 0 ++ [9, 0, 0, 0, 0]) 0 1), [0, 0, 0, 7, 1] ++
      List.replicate 8 0 ++ [9, 0, 0, 0, 0], exOrder .beacon, hlpAccepts_ex (by decide), by decide⟩,
   ⟨st ethOn exHead, 3, udp (exDgram (exHeader 2 43) ([0, 0, 0, 0, 0, 9, 0, 0, 0, 5, 3, 1, 200, 0, 0, 0, 0, 25] ++ ([73, 232,
      1, 1] ++ List.replicate 10 0 ++ [77, 13, 9, 0, 0, 0, 1, 1, 2, 3, 4])) 0 1 (exTag (exHeader 2 43) ([0, 0, 0, 0, 0, 9, 0,
      0, 0, 5, 3, 1, 200, 0, 0, 0, 0, 25] ++ ([73, 232, 1, 1] ++ List.replicate 10 0 ++ [77, 13, 9, 0, 0, 0, 1, 1, 2, 3, 4]))
      0 1)), exMsg (exHeader 2 43) ([0, 0, 0, 0, 0, 9, 0, 0, 0, 5, 3, 1, 200, 0, 0, 0, 0, 25] ++ ([73, 232, 1, 1] ++
      List.replicate 10 0 ++ [77, 13, 9, 0, 0, 0, 1, 1, 2, 3, 4])) 0 1 (exTag (exHeader 2 43) ([0, 0, 0, 0, 0, 9, 0, 0, 0, 5,
      3, 1, 200, 0, 0, 0, 0, 25] ++ ([73, 232, 1, 1] ++ List.replicate 10 0 ++ [77, 13, 9, 0, 0, 0, 1, 1, 2, 3, 4])) 0 1), [0,
      0, 0, 0, 0, 9, 0, 0, 0, 5, 3, 1, 200, 0, 0, 0, 0, 25] ++ ([73, 232, 1, 1] ++ List.replicate 10 0 ++ [77, 13, 9, 0, 0, 0,
      1, 1, 2, 3, 4]), (parseFrame false ([73, 232, 1, 1] ++ List.replicate 10 0 ++ [77, 13, 9, 0, 0, 0, 1, 1, 2, 3, 4])).get
      (by decide), hlpAccepts_ex (by decide), by decide⟩,
   ⟨st ethOn exHead, 3, udp (exDgram (exHeader 6 2) ([4, 0]) 0 1 (exBadTag (exHeader 6 2) ([4, 0]) 0 1)), hlpForged_ex (by
      decide)⟩,
   ⟨st ethOn exHead, 3, udp (exDgram (exHeader 7 2) ([4, 0]) 0 1 (exBadTag (exHeader 7 2) ([4, 0]) 0 1)), hlpForged_ex (by
      decide)⟩,
   ⟨st ethOn exHead, 3, udp (exDgram (exHeader 5 2) ([4, 0]) 0 1 (exBadTag (exHeader 5 2) ([4, 0]) 0 1)), hlpForged_ex (by
      decide)⟩,
   ⟨st ethOn exHead, 3, udp (exDgram (exHeader 2 2) ([4, 0]) 0 1 (exBadTag (exHeader 2 2) ([4, 0]) 0 1)), hlpForged_ex (by
      decide)⟩,
   ⟨st ethOn fun d =>
      { withT radioT d with cycles := 2 ^ 60, dur := { d.dur with heads := [(5, { eui := 9, epoch := 1 })] }, fhm := { d.fhm with heads := [(5, { session := true, state := .active })] } },
      5, { eui := 9, epoch := 1 }, by decide⟩,
   ⟨st ethOn fun d =>
      { exHead d with cycles := 2 ^ 60, fhm := { d.fhm with heads := [(5, { session := true, state := .suspended, missed := 1, missedAt := 2 ^ 60 })] } },
      5, { eui := 9, epoch := 1 }, by decide⟩,
   ⟨st ethOn fun d =>
      { exHead d with cycles := 2 ^ 60, fhm := { d.fhm with heads := [(5, { session := true, state := .suspended })] } }, 5,
      by decide⟩⟩

theorem witness_OrderOutcomes :
    (∃ (s : State) (i : _) (n : _) (o : _) (r : _), s.dev.serves = true ∧ s.dev.order? i n = some o ∧ o.sent = false ∧
      (s.dev.headRt i).orderable = true ∧ s.dev.headReg? i = some r) ∧
    (∃ (s : State) (port : Nat) (g : _) (m : _) (b : Bytes) (o : _) (a : _) (c : _) (w : _), s.dev.hlpAccepts port g 4 m b ∧
      b.u8 4 = 0 ∧ s.dev.order? m.head (b.be 0 4) = some o ∧ o.purpose = .accept a c 2 ∧ o.keyKind = none ∧ s.dev.window? a c
      = some w ∧ s.dev.now ≤ s.dev.confirmDeadline o) ∧
    (∃ (s : State) (port : Nat) (g : _) (m : _) (b : Bytes) (o : _) (k : _), s.dev.hlpAccepts port g 3 m b ∧ s.dev.order?
      m.head (b.be 0 4) = some o ∧ o.purpose = .abort k ∧ s.dev.get F.FHM_CSMA_MAX_RETRIES ≤ o.retries) ∧
    (∃ (s : State) (port : Nat) (g : _), s.dev.hlpForged port g 4) ∧
    (∃ (s : State) (port : Nat) (g : _), s.dev.hlpForged port g 3) ∧
    (∃ (s : State) (i : Nat) (n : Nat) (o : _) (k : _), s.dev.order? i n = some o ∧ o.sent = true ∧ o.purpose = .abort k ∧
      s.dev.confirmDeadline o < s.dev.now) ∧
    (∃ (s : State) (i : Nat) (n : Nat) (o : _), s.dev.order? i n = some o ∧ o.purpose = .beacon ∧ s.dev.confirmDeadline o <
      s.dev.now) :=
  ⟨⟨st ethOn fun d =>
      { withT radioT d with dur := { d.dur with heads := [(5, { eui := 9, epoch := 1 })] }, fhm := { d.fhm with heads := [(5, { session := true, state := .active })], orders := [⟨5, 7, 1, 0, 10, 3, 1, 0, 0, [], ⟨none, 0, [], [], [], 40⟩, .abort 2, 0, false, 0, 0, 0, none⟩] } },
      5, 7, ⟨5, 7, 1, 0, 10, 3, 1, 0, 0, [], ⟨none, 0, [], [], [], 40⟩, .abort 2, 0, false, 0, 0, 0, none⟩,
      { eui := 9, epoch := 1 }, by decide⟩,
   ⟨st ethOn fun d =>
      { exHead d with fhm := { (exHead d).fhm with orders := [exOrder (.accept 77 1000 2)], windows := [⟨77, none, 5, 1000, 9, true, true, false, none, 0⟩] } },
      3, udp (exDgram (exHeader 4 18) ([0, 0, 0, 7, 0, 2, 1, 0, 0, 0, 0, 0, 0, 9, 0, 0, 0, 0]) 0 1 (exTag (exHeader 4 18) ([0,
      0, 0, 7, 0, 2, 1, 0, 0, 0, 0, 0, 0, 9, 0, 0, 0, 0]) 0 1)), exMsg (exHeader 4 18) ([0, 0, 0, 7, 0, 2, 1, 0, 0, 0, 0, 0,
      0, 9, 0, 0, 0, 0]) 0 1 (exTag (exHeader 4 18) ([0, 0, 0, 7, 0, 2, 1, 0, 0, 0, 0, 0, 0, 9, 0, 0, 0, 0]) 0 1), [0, 0, 0,
      7, 0, 2, 1, 0, 0, 0, 0, 0, 0, 9, 0, 0, 0, 0], exOrder (.accept 77 1000 2), 77, 1000, ⟨77, none, 5, 1000, 9, true, true,
      false, none, 0⟩, hlpAccepts_ex (by decide), by decide⟩,
   ⟨st ethOn fun d => { exHead d with fhm := { (exHead d).fhm with orders := [exOrder (.abort 2) 9] } }, 3, udp (exDgram
      (exHeader 3 6) ([0, 0, 0, 7, 5, 0]) 0 1 (exTag (exHeader 3 6) ([0, 0, 0, 7, 5, 0]) 0 1)), exMsg (exHeader 3 6) ([0, 0,
      0, 7, 5, 0]) 0 1 (exTag (exHeader 3 6) ([0, 0, 0, 7, 5, 0]) 0 1), [0, 0, 0, 7, 5, 0], exOrder (.abort 2) 9, 2,
      hlpAccepts_ex (by decide), by decide⟩,
   ⟨st ethOn exHead, 3, udp (exDgram (exHeader 4 2) ([4, 0]) 0 1 (exBadTag (exHeader 4 2) ([4, 0]) 0 1)), hlpForged_ex (by
      decide)⟩,
   ⟨st ethOn exHead, 3, udp (exDgram (exHeader 3 2) ([4, 0]) 0 1 (exBadTag (exHeader 3 2) ([4, 0]) 0 1)), hlpForged_ex (by
      decide)⟩,
   ⟨st ethOn fun d =>
      { withT radioT d with tsu := { d.tsu with sec := 2 ^ 60 }, dur := { d.dur with heads := [(5, { eui := 9, epoch := 1 })] }, fhm := { d.fhm with heads := [(5, { session := true, state := .active })], orders := [⟨5, 7, 1, 0, 10, 3, 1, 0, 0, [], ⟨none, 0, [], [], [], 40⟩, .abort 2, 0, true, 0, 0, 0, none⟩] } },
      5, 7, ⟨5, 7, 1, 0, 10, 3, 1, 0, 0, [], ⟨none, 0, [], [], [], 40⟩, .abort 2, 0, true, 0, 0, 0, none⟩, 2, by decide⟩,
   ⟨st ethOn fun d =>
      { withT radioT d with tsu := { d.tsu with sec := 2 ^ 60 }, dur := { d.dur with heads := [(5, { eui := 9, epoch := 1 })] }, fhm := { d.fhm with heads := [(5, { session := true, state := .active, missed := 2 })], orders := [⟨5, 7, 1, 0, 10, 3, 1, 0, 0, [], ⟨none, 0, [], [], [], 40⟩, .beacon, 0, true, 0, 0, 0, none⟩] } },
      5, 7, ⟨5, 7, 1, 0, 10, 3, 1, 0, 0, [], ⟨none, 0, [], [], [], 40⟩, .beacon, 0, true, 0, 0, 0, none⟩, by decide⟩⟩

theorem witness_JoinAndSuperframeMode :
    (∃ (s : State) (port : Nat) (g : _) (m : _) (i : _) (r : _) (k : _) (b : Bytes), s.dev.requestReady port g m i r k ∧ m.tag
      = m.tagUnder k.key256 m.ext ∧ b = m.opened k.key256 m.ext ∧ 52 ≤ b.length ∧ b.u8 0 = 1 ∧ b.be 18 16 = 0 ∧ (s.dev.headRt
      i).recalled = none ∧ s.dev.drbgRuns = true ∧ b.be 34 2 ≤ 1000 ∧ s.dev.standbySynced = false ∧ s.dev.joinCovered i b =
      true ∧ s.dev.tooFar (s.dev.joinHead i m b) = false) ∧
    (∃ (s : State) (port : Nat) (g : _) (m : _) (i : _) (r : _) (k : _), s.dev.requestReady port g m i r k ∧ m.tag ≠
      m.tagUnder k.key256 m.ext) ∧
    (∃ (s : State) (i : Nat) (r : _) (p : _), s.dev.headReg? (i % 4096) = some r ∧ (s.dev.cell (i % 4096)).sf = none ∧ p =
      1000000 * s.dev.get F.FHM_SF_PERIOD ∧ 0 < p) ∧
    (∃ (s : State) (i : Nat) (r : _), s.dev.headReg? (i % 4096) = some r ∧ (s.dev.cell (i % 4096)).sf = none) ∧
    (∃ (s : State) (i : Nat) (r : _) (f : _), s.dev.headReg? (i % 4096) = some r ∧ (s.dev.cell (i % 4096)).sf = some f ∧
      (s.dev.headRt (i % 4096)).orderable = true) ∧
    (∃ (s : State) (i : _) (r : _) (f : _), s.dev.headReg? (i % 4096) = some r ∧ (s.dev.cell (i % 4096)).sf = some f ∧
      (s.dev.headRt (i % 4096)).orderable = false) ∧
    (∃ (s : State) (i : Nat) (f : _), (s.dev.cell i).sf = some f) ∧
    (∃ (s : State) (i : Nat) (f : _) (k : _), (s.dev.cell i).sf = some f ∧ (s.dev.headRt i).orderable = true ∧ s.dev.bcastKey
      i = some k ∧ s.dev.profile? (s.dev.headRt i).profile = none) ∧
    (∃ (s : State) (i : Nat), s.dev.flag F.FHM_CTRL_STORM_AUTO = true ∧ (s.dev.cell i).sf = none ∧ 32 ≤ (s.dev.cell
      i).attempts ∧ s.dev.get F.FHM_SF_CTRL_CCA_PCT * (s.dev.cell i).attempts < 100 * (s.dev.cell i).busy) ∧
    (∃ (s : State) (i : Nat), (s.dev.cell i).attempts < 32) ∧
    (∃ (s : State) (i : Nat) (f : _), (s.dev.cell i).sf = some f ∧ s.dev.sfEnds i f < s.dev.now ∧ f.final = true) ∧
    (∃ (s : State) (i : Nat) (f : _), (s.dev.cell i).sf = some f ∧ s.dev.sfEnds i f < s.dev.now ∧ f.final = false ∧ f.test =
      false) :=
  ⟨⟨exJoinState, 3, udp (exDgram exJoinHdr exJoinBody exJoinKey.key256 4 exJoinTag), exJoinMsg exJoinTag, 5,
      { eui := 9, epoch := 1 }, exJoinKey, exJoinBody, requestReady_ex exJoin (exTag_lt ..), (exRequest_tag _ exJoin).1.symm,
      (exRequest_tag _ exJoin).2.symm, by decide, by decide, by decide, by decide, by decide, by decide, by decide,
      exJoin_covered, exJoin_near⟩,
   ⟨exJoinState, 3, udp (exDgram exJoinHdr exJoinBody exJoinKey.key256 4 exJoinBadTag), exJoinMsg exJoinBadTag, 5,
      { eui := 9, epoch := 1 }, exJoinKey, requestReady_ex exJoin (exBadTag_lt ..), fun h => exBadTag_ne _ _ _ _ (h.trans
      (exRequest_tag _ exJoin).1)⟩,
   ⟨st [(F.ETH_n_CTRL_ENABLE.at 3, 1), (F.PRL_STATUS_STATE, PairSt.active), (F.FHM_SF_PERIOD, 2000)] fun d =>
      { withT radioT d with dur := { d.dur with heads := [(5, { eui := 9, epoch := 1 })] }, fhm := { d.fhm with heads := [(5, { session := true, state := .active })] } },
      5, { eui := 9, epoch := 1 }, 2000000000, by decide⟩,
   ⟨st ethOn fun d =>
      { withT radioT d with dur := { d.dur with heads := [(5, { eui := 9, epoch := 1 })] }, fhm := { d.fhm with heads := [(5, { session := true, state := .active })] } },
      5, { eui := 9, epoch := 1 }, by decide⟩,
   ⟨st ethOn fun d =>
      { withT radioT d with dur := { d.dur with heads := [(5, { eui := 9, epoch := 1 })] }, fhm := { d.fhm with heads := [(5, { session := true, state := .active })], cells := [(5, { sf := some { start := 3 }, attempts := 40, busy := 40 })] } },
      5, { eui := 9, epoch := 1 }, { start := 3 }, by decide⟩,
   ⟨st ethOn fun d => { exHead d with fhm := { d.fhm with cells := [(5, { sf := some { start := 3 } })] } }, 5,
      { eui := 9, epoch := 1 }, { start := 3 }, by decide⟩,
   ⟨st ethOn fun d =>
      { withT radioT d with dur := { d.dur with heads := [(5, { eui := 9, epoch := 1 })] }, fhm := { d.fhm with heads := [(5, { session := true, state := .active })], cells := [(5, { sf := some { start := 3 }, attempts := 40, busy := 40 })] } },
      5, { start := 3 }, by decide⟩,
   ⟨st [(F.ETH_n_CTRL_ENABLE.at 3, 1), (F.PRL_STATUS_STATE, PairSt.active), (F.KEY_BCAST_SLOT, 0)] fun d =>
      { withT radioT d with dur := { d.dur with heads := [(5, { eui := 9, epoch := 1 })] }, key := { d.key with working := [(0, ⟨5, 1, 7⟩)] }, clo := { d.clo with vault := [(0, ⟨1, 2⟩)] }, fhm := { d.fhm with heads := [(5, { session := true, state := .active, profile := 9 })], cells := [(5, { sf := some { start := 3 }, attempts := 40, busy := 40 })] } },
      5, { start := 3 }, _, by decide, by decide, rfl, by decide⟩,
   ⟨st [(F.ETH_n_CTRL_ENABLE.at 3, 1), (F.PRL_STATUS_STATE, PairSt.active), (F.FHM_CTRL_STORM_AUTO, 1)] fun d =>
      { withT radioT d with dur := { d.dur with heads := [(5, { eui := 9, epoch := 1 })] }, fhm := { d.fhm with heads := [(5, { session := true, state := .active })], cells := [(5, { sf := none, attempts := 40, busy := 40 })] } },
      5, by decide⟩,
   ⟨st ethOn fun d =>
      { withT radioT d with dur := { d.dur with heads := [(5, { eui := 9, epoch := 1 })] }, fhm := { d.fhm with heads := [(5, { session := true, state := .active })] } },
      5, by decide⟩,
   ⟨st ethOn fun d =>
      { exHead d with tsu := { d.tsu with sec := 2 }, fhm := { (exHead d).fhm with cells := [(5, { sf := some { start := 3, final := true }, attempts := 40, busy := 40 })] } },
      5, { start := 3, final := true }, by decide⟩,
   ⟨st ethOn fun d =>
      { exHead d with tsu := { d.tsu with sec := 2 }, fhm := { (exHead d).fhm with cells := [(5, { sf := some { start := 3, used := [1], hashCount := 20 }, attempts := 40, busy := 40 })] } },
      5, { start := 3, used := [1], hashCount := 20 }, by decide⟩⟩

theorem witness_ContextCommands :
    (∃ (s : State) (i : _), s.dev.flag F.CTX_CMD_BUSY = false ∧ s.dev.standbyRefuses = false ∧ s.dev.dur.ctxs.any (fun p =>
      p.2.address == s.dev.newCtx.address && p.2.mbus == s.dev.newCtx.mbus) = false ∧ (s.dev.trellis.class?
      s.dev.newCtx.cls).isSome = true ∧ (s.dev.newCtx.cal = 0xFF ∨ s.dev.calendarKnown s.dev.newCtx.cal = true) ∧
      s.dev.ownsAddr s.dev.newCtx.address = true ∧ s.dev.dur.ctxs.length < 1048576 ∧ s.dev.standbySynced = false ∧ i =
      s.dev.dur.freed.headD s.dev.dur.neverUsed ∧ (s.dev.dur.indexPut i s.dev.newCtx).isSome = true) ∧
    (∃ (s : State) (i : Nat), s.dev.flag F.CTX_CMD_BUSY = false ∧ s.dev.standbyRefuses = false ∧ s.dev.dur.ctxs.any (fun p =>
      p.2.address == s.dev.newCtx.address && p.2.mbus == s.dev.newCtx.mbus) = false ∧ (s.dev.trellis.class?
      s.dev.newCtx.cls).isSome = true ∧ (s.dev.newCtx.cal = 0xFF ∨ s.dev.calendarKnown s.dev.newCtx.cal = true) ∧
      s.dev.ownsAddr s.dev.newCtx.address = true ∧ s.dev.standbySynced = false ∧ Maps.has s.dev.dur.ctxs (i % 1048576) = false
      ∧ (s.dev.dur.indexPut (i % 1048576) s.dev.newCtx).isSome = true) ∧
    (∃ (s : State) (i : Nat), s.dev.flag F.CTX_CMD_BUSY = false ∧ s.dev.standbyRefuses = false ∧ Maps.has s.dev.dur.ctxs (i %
      1048576) = true ∧ s.dev.eng.freeing.contains (i % 1048576) = false ∧ Maps.has s.dev.eng.flight (i % 1048576) = false ∧
      s.dev.standbySynced = false) ∧
    (∃ (s : State) (i : Nat), s.dev.flag F.CTX_CMD_BUSY = false ∧ s.dev.standbyRefuses = false ∧ Maps.has s.dev.dur.ctxs (i %
      1048576) = false) ∧
    (∃ (s : State) (i : Nat), s.dev.flag F.CTX_CMD_BUSY = false ∧ Maps.has s.dev.dur.ctxs (i % 1048576) = true ∧
      s.dev.pinnedCtx (i % 1048576) = false ∧ ((s.dev.dur.ctxs.filter fun p => p.2.pinned).filter fun p => p.1 % 4096 == i %
      1048576 % 4096).length < 8 ∧ (s.dev.dur.ctxs.filter fun p => p.2.pinned).length < s.dev.get F.CTX_PIN_MAX) ∧
    (∃ (s : State) (i : Nat), s.dev.flag F.CTX_CMD_BUSY = false ∧ Maps.has s.dev.dur.ctxs (i % 1048576) = true) :=
  ⟨⟨st [(F.PRL_STATUS_STATE, PairSt.active), (F.CTX_ALLOC_CFG_CALENDAR, 255)] fun d => withT ownT d, 0, by decide +kernel⟩,
   ⟨st [(F.PRL_STATUS_STATE, PairSt.active), (F.CTX_ALLOC_CFG_CALENDAR, 255)] fun d =>
      { withT ownT d with dur := { d.dur with ctxs := [(6, { address := 77, mbus := false, cls := 0, cal := 255 })] } },
      1048583, by decide +kernel⟩,
   ⟨st active fun d =>
      { withT ownT d with dur := { d.dur with ctxs := [(6, { address := 77, mbus := false, cls := 0, cal := 255 })] } }, 6, by
      decide⟩,
   ⟨st active fun d =>
      { withT ownT d with dur := { d.dur with ctxs := [(6, { address := 77, mbus := false, cls := 0, cal := 255 })] } }, 7, by
      decide⟩,
   ⟨st [(F.PRL_STATUS_STATE, PairSt.active), (F.CTX_PIN_MAX, 4)] fun d =>
      { withT ownT d with dur := { d.dur with ctxs := [(6, { address := 77, mbus := false, cls := 0, cal := 255 })] } }, 6, by
      decide⟩,
   ⟨st active fun d =>
      { withT ownT d with dur := { d.dur with ctxs := [(6, { address := 77, mbus := false, cls := 0, cal := 255, pinned := true })] } },
      6, by decide⟩⟩

theorem witness_CampaignLoading :
    (∃ (s : State) (slot : Nat), s.dev.flag F.DST_CMD_BUSY = false ∧ s.dev.standbyRefuses = false ∧ s.dev.keyLocked = false ∧
      Maps.has s.dev.dur.campaigns (slot % 16) = false ∧ s.dev.loadCheck (slot % 16) (s.dev.descriptor (slot % 16) (s.dev.get
      F.DST_HOST_LEN_LENGTH)) = none ∧ s.dev.shHas (.imageHash (slot % 16)) = false) ∧
    (∃ (s : State) (slot : Nat), s.dev.flag F.DST_CMD_BUSY = false ∧ s.dev.standbyRefuses = false ∧ s.dev.keyLocked = false ∧
      Maps.has s.dev.dur.campaigns (slot % 16) = true) ∧
    (∃ (s : State) (slot : Nat) (c : _), Maps.get? slot s.dev.dst.loading = some 2 ∧ Maps.get? slot s.dev.dur.campaigns = some
      c ∧ s.dev.shHas (.imageHash slot) = false) ∧
    (∃ (s : State) (slot : Nat) (c : _), Maps.get? slot s.dev.dst.loading = some 3 ∧ Maps.get? slot s.dev.dur.campaigns = some
      c ∧ s.dev.media ≠ Media.readOnly ∧ s.dev.media ≠ Media.unformatted ∧ s.dev.standbySynced = false) ∧
    (∃ (s : State) (slot : Nat) (c : _), Maps.get? slot s.dev.dst.loading = some 5 ∧ Maps.get? slot s.dev.dur.campaigns = some
      c ∧ (s.dev.dur.members slot = [] ∨ ((s.dev.dur.members slot).any fun p => !p.2.final) = true)) :=
  ⟨⟨st [(F.PRL_STATUS_STATE, PairSt.active), (F.DST_HOST_LEN_LENGTH, 3)] fun d => withT ownT d, 18, by decide⟩,
   ⟨st active fun d =>
      { withT ownT d with dur := { d.dur with ctxs := [(6, { address := 77, mbus := false, cls := 0, cal := 255 })], campaigns := [(2, ⟨7, 0, true, false, 0, 8, false, none, none, 0, 0, 1, 0, 256, 2, 0, false, false, [], []⟩)], campMembers := [] } },
      18, by decide⟩,
   ⟨st active fun d =>
      { withT ownT d with dur := { d.dur with ctxs := [(6, { address := 77, mbus := false, cls := 0, cal := 255 })], campaigns := [(2, ⟨7, 0, true, false, 0, 8, false, none, none, 0, 0, 1, 0, 256, 1, 0, false, false, [], []⟩)], campMembers := [] }, dst := { d.dst with loading := [(2, 2)] } },
      2, ⟨7, 0, true, false, 0, 8, false, none, none, 0, 0, 1, 0, 256, 1, 0, false, false, [], []⟩, by decide⟩,
   ⟨st [(F.PRL_STATUS_STATE, PairSt.active), (F.NFM_STATUS_STATE, 2)] fun d =>
      { withT ownT d with dur := { d.dur with ctxs := [(6, { address := 77, mbus := false, cls := 0, cal := 255 })], campaigns := [(2, ⟨7, 0, true, false, 0, 8, false, none, none, 0, 0, 1, 0, 256, 1, 0, false, false, [], []⟩)], campMembers := [] }, dst := { d.dst with loading := [(2, 3)], objects := [(2, [1])] } },
      2, ⟨7, 0, true, false, 0, 8, false, none, none, 0, 0, 1, 0, 256, 1, 0, false, false, [], []⟩, by decide⟩,
   ⟨st active fun d =>
      { withT ownT d with dur := { d.dur with ctxs := [(6, { address := 77, mbus := false, cls := 0, cal := 255 })], campaigns := [(2, ⟨7, 0, true, false, 0, 8, false, none, none, 0, 0, 1, 0, 256, 1, 0, false, false, [], []⟩)], campMembers := [] }, dst := { d.dst with loading := [(2, 5)] } },
      2, ⟨7, 0, true, false, 0, 8, false, none, none, 0, 0, 1, 0, 256, 1, 0, false, false, [], []⟩, by decide⟩⟩

theorem witness_CampaignMembership :
    (∃ (s : State) (slot : Nat) (m : Nat) (c : _) (x : _), s.dev.flag F.DST_CMD_BUSY = false ∧ s.dev.standbyRefuses = false ∧
      Maps.get? (slot % 16) s.dev.dur.campaigns = some c ∧ Maps.get? (m % 1048576) s.dev.dur.ctxs = some x ∧ c.takes = true ∧
      s.dev.fits c x = true ∧ (c.act = 0 ∨ s.dev.tsu.sec < c.act) ∧ s.dev.dur.campMember? (slot % 16) (m % 1048576) = none ∧
      s.dev.standbySynced = false) ∧
    (∃ (s : State) (slot : Nat) (m : Nat) (c : _) (x : _), s.dev.flag F.DST_CMD_BUSY = false ∧ s.dev.standbyRefuses = false ∧
      Maps.get? (slot % 16) s.dev.dur.campaigns = some c ∧ Maps.get? (m % 1048576) s.dev.dur.ctxs = some x ∧ c.takes = true ∧
      s.dev.fits c x = true ∧ c.act ≠ 0 ∧ c.act ≤ s.dev.tsu.sec) ∧
    (∃ (s : State) (slot : Nat) (cls : Nat) (c : _) (m : _) (x : _), s.dev.flag F.DST_CMD_BUSY = false ∧ s.dev.standbyRefuses
      = false ∧ Maps.get? (slot % 16) s.dev.dur.campaigns = some c ∧ c.takes = true ∧ s.dev.dur.ctxs = [(m, x)] ∧ x.cls = cls
      % 64 ∧ s.dev.fits c x = true ∧ s.dev.dur.campMember? (slot % 16) m = none ∧ s.dev.standbySynced = false) ∧
    (∃ (s : State) (slot : Nat) (m : Nat) (c : _) (x : _) (o : _), s.dev.flag F.DST_CMD_BUSY = false ∧ s.dev.standbyRefuses =
      false ∧ Maps.get? (slot % 16) s.dev.dur.campaigns = some c ∧ (c.activated = true ∨ c.act = 0 ∨ s.dev.tsu.sec < c.act) ∧
      Maps.get? (m % 1048576) s.dev.dur.ctxs = some x ∧ c.takes = true ∧ s.dev.dur.campMember? (slot % 16) (m % 1048576) =
      some o ∧ o.final = false ∧ s.dev.standbySynced = false) ∧
    (∃ (s : State) (slot : Nat) (c : _), s.dev.flag F.DST_CMD_BUSY = false ∧ s.dev.standbyRefuses = false ∧ Maps.get? (slot %
      16) s.dev.dur.campaigns = some c ∧ c.state = Cs.active ∧ (c.activated = true ∨ c.act = 0 ∨ s.dev.tsu.sec < c.act)) ∧
    (∃ (s : State) (slot : Nat) (c : _), s.dev.flag F.DST_CMD_BUSY = false ∧ s.dev.standbyRefuses = false ∧ Maps.get? (slot %
      16) s.dev.dur.campaigns = some c ∧ (c.state = Cs.ended ∨ c.state = Cs.failed) ∧ s.dev.standbySynced = false) :=
  ⟨⟨st active fun d =>
      { withT ownT d with dur := { d.dur with ctxs := [(6, { address := 77, mbus := false, cls := 0, cal := 255 })], campaigns := [(2, ⟨7, 0, true, false, 0, 8, false, none, none, 0, 0, 1, 0, 256, 2, 0, false, false, [], []⟩)], campMembers := [] } },
      2, 6, ⟨7, 0, true, false, 0, 8, false, none, none, 0, 0, 1, 0, 256, 2, 0, false, false, [], []⟩,
      { address := 77, mbus := false, cls := 0, cal := 255 }, by decide⟩,
   ⟨st active fun d =>
      { withT ownT d with dur := { d.dur with ctxs := [(6, { address := 77, mbus := false, cls := 0, cal := 255 })], campaigns := [(2, ⟨7, 0, true, false, 0, 8, false, none, none, 0, 5, 1, 0, 256, 2, 0, false, false, [], []⟩)], campMembers := [] }, tsu := { d.tsu with sec := 5 } },
      2, 6, ⟨7, 0, true, false, 0, 8, false, none, none, 0, 5, 1, 0, 256, 2, 0, false, false, [], []⟩,
      { address := 77, mbus := false, cls := 0, cal := 255 }, by decide⟩,
   ⟨st active fun d =>
      { withT ownT d with dur := { d.dur with ctxs := [(6, { address := 77, mbus := false, cls := 0, cal := 255 })], campaigns := [(2, ⟨7, 0, true, false, 0, 8, false, none, none, 0, 0, 1, 0, 256, 2, 0, false, false, [], []⟩)], campMembers := [] } },
      2, 64, ⟨7, 0, true, false, 0, 8, false, none, none, 0, 0, 1, 0, 256, 2, 0, false, false, [], []⟩, 6,
      { address := 77, mbus := false, cls := 0, cal := 255 }, by decide⟩,
   ⟨st active fun d =>
      { withT ownT d with dur := { d.dur with ctxs := [(6, { address := 77, mbus := false, cls := 0, cal := 255 })], campaigns := [(2, ⟨7, 0, true, false, 0, 8, false, none, none, 0, 0, 1, 0, 256, 2, 0, false, false, [], []⟩)], campMembers := [(2097158, {})] } },
      2, 6, ⟨7, 0, true, false, 0, 8, false, none, none, 0, 0, 1, 0, 256, 2, 0, false, false, [], []⟩,
      { address := 77, mbus := false, cls := 0, cal := 255 }, {}, by decide⟩,
   ⟨st active fun d =>
      { withT ownT d with dur := { d.dur with ctxs := [(6, { address := 77, mbus := false, cls := 0, cal := 255 })], campaigns := [(2, ⟨7, 0, true, false, 0, 8, false, none, none, 0, 0, 1, 0, 256, 2, 0, false, false, [], []⟩)], campMembers := [(2097158, {})] } },
      2, ⟨7, 0, true, false, 0, 8, false, none, none, 0, 0, 1, 0, 256, 2, 0, false, false, [], []⟩, by decide⟩,
   ⟨st active fun d =>
      { withT ownT d with dur := { d.dur with ctxs := [(6, { address := 77, mbus := false, cls := 0, cal := 255 })], campaigns := [(2, ⟨7, 0, true, false, 0, 8, false, none, none, 0, 0, 1, 0, 256, 3, 0, false, false, [], []⟩)], campMembers := [] }, dst := { d.dst with objects := [(2, [1])] } },
      2, ⟨7, 0, true, false, 0, 8, false, none, none, 0, 0, 1, 0, 256, 3, 0, false, false, [], []⟩, by decide⟩⟩

theorem witness_CampaignRounds :
    (∃ (s : State) (slot : Nat) (place : Nat) (c : _), Maps.get? slot s.dev.dur.campaigns = some c ∧ c.state = Cs.active ∧
      c.aborted = false ∧ s.dev.serves = true ∧ c.start ≤ s.dev.tsu.sec ∧ ((s.dev.dur.members slot).any fun p => (Maps.get?
      p.1 s.dev.dur.ctxs).bind Ctx.place == some place) = true ∧ (s.dev.rounds slot place).running = false ∧ (s.dev.rounds
      slot place).collectingNow = false ∧ (s.dev.rounds slot place).done = false ∧ (s.dev.rounds slot place).paged = false ∧
      c.begunAt place < c.roundsMax) ∧
    (∃ (s : State) (slot : Nat) (place : Nat) (c : _) (r : _) (k : _) (b : _), Maps.get? slot s.dev.dur.campaigns = some c ∧
      c.state = Cs.active ∧ c.aborted = false ∧ place < 4096 ∧ (s.dev.rounds slot place).running = true ∧ (s.dev.cell
      place).sf = none ∧ (s.dev.rounds slot place).again = [] ∧ nextBlock (s.dev.rounds slot place).sending (s.dev.rounds slot
      place).nextBlk (c.blocks false) = some b ∧ (s.dev.headRt place).orderable = true ∧ s.dev.headReg? place = some r ∧
      s.dev.bcastKey place = some k ∧ s.dev.profile? (s.dev.headRt place).profile = none ∧ s.dev.serves = true) ∧
    (∃ (s : State) (slot : Nat) (place : Nat) (c : _), Maps.get? slot s.dev.dur.campaigns = some c ∧ (s.dev.rounds slot
      place).collectingNow = true ∧ c.begunAt place < c.roundsMax ∧ (s.dev.rounds slot place).collectAt + s.dev.collectSpan
      place ≤ s.dev.placeClock place ∧ s.dev.reportComes place ((s.dev.rounds slot place).collectAt + s.dev.collectSpan place)
      = false) ∧
    (∃ (s : State) (slot : Nat) (place : Nat), (s.dev.rounds slot place).paged = true) ∧
    (∃ (s : State) (slot : Nat) (place : Nat) (c : _) (r : _) (k : _), Maps.get? slot s.dev.dur.campaigns = some c ∧ c.state =
      Cs.active ∧ c.aborted = true ∧ place < 4096 ∧ (s.dev.headRt place).orderable = true ∧ s.dev.headReg? place = some r ∧
      s.dev.bcastKey place = some k ∧ s.dev.profile? (s.dev.headRt place).profile = none ∧ s.dev.serves = true ∧ (s.dev.rounds
      slot place).lastRdv + 1000000000 * s.dev.get F.DST_TIMING_RENDEZVOUS ≤ s.dev.now) ∧
    (∃ (s : State) (slot : Nat) (c : _), Maps.get? slot s.dev.dur.campaigns = some c ∧ c.state = Cs.active ∧ c.act ≠ 0 ∧ c.act
      ≤ s.dev.tsu.sec ∧ c.activated = false ∧ s.dev.armedBefore c.act 4 = []) ∧
    (∃ (s : State) (slot : Nat) (c : _) (m : _) (x : _), Maps.get? slot s.dev.dur.campaigns = some c ∧ c.state = Cs.active ∧
      c.act ≠ 0 ∧ c.act ≤ s.dev.tsu.sec ∧ c.activated = false ∧ s.dev.armedBefore c.act 4 = [] ∧ c.newClass = none ∧ c.newCal
      = none ∧ s.dev.dur.campMembers = [(1048576 * slot + m, x)] ∧ m < 1048576 ∧ x.state = Ms.verified) ∧
    (∃ (s : State) (slot : Nat) (c : _), Maps.get? slot s.dev.dur.campaigns = some c ∧ c.state = Cs.active ∧ s.dev.expired
      slot c = true) :=
  ⟨⟨st [(F.PRL_STATUS_STATE, PairSt.active), (F.KEY_BCAST_SLOT, 0)] fun d =>
      { withT ownT d with dur := { d.dur with heads := [(5, { eui := 9, epoch := 1 })], ctxs := [(6, { address := 77, mbus := false, cls := 0, cal := 255, heads := [⟨5, 0, 0⟩] })], campaigns := [(2, ⟨7, 0, true, false, 0, 8, false, none, none, 0, 0, 1, 0, 256, 2, 0, false, false, [], []⟩)], campMembers := [(2097158, {})] }, key := { d.key with working := [(0, ⟨5, 1, 7⟩)] }, clo := { d.clo with vault := [(0, ⟨1, 2⟩)] }, fhm := { d.fhm with heads := [(5, { session := true, state := .active, profile := 9 })] }, dst := { d.dst with rounds := [] } },
      2, 5, ⟨7, 0, true, false, 0, 8, false, none, none, 0, 0, 1, 0, 256, 2, 0, false, false, [], []⟩, by decide⟩,
   ⟨st [(F.PRL_STATUS_STATE, PairSt.active), (F.KEY_BCAST_SLOT, 0)] fun d =>
      { withT ownT d with dur := { d.dur with heads := [(5, { eui := 9, epoch := 1 })], ctxs := [(6, { address := 77, mbus := false, cls := 0, cal := 255, heads := [⟨5, 0, 0⟩] })], campaigns := [(2, ⟨7, 0, true, false, 0, 8, false, none, none, 0, 0, 1, 0, 256, 2, 0, false, false, [], []⟩)], campMembers := [(2097158, {})] }, key := { d.key with working := [(0, ⟨5, 1, 7⟩)] }, clo := { d.clo with vault := [(0, ⟨1, 2⟩)] }, fhm := { d.fhm with heads := [(5, { session := true, state := .active, profile := 9 })] }, dst := { d.dst with rounds := [(16389, { sending := 3, running := true })] } },
      2, 5, ⟨7, 0, true, false, 0, 8, false, none, none, 0, 0, 1, 0, 256, 2, 0, false, false, [], []⟩,
      { eui := 9, epoch := 1 }, _, 0, by decide, by decide, by decide, by decide, by decide, by decide, by decide, by decide,
      by decide, by decide, rfl, by decide⟩,
   ⟨st [(F.PRL_STATUS_STATE, PairSt.active), (F.KEY_BCAST_SLOT, 0)] fun d =>
      { withT ownT d with tsu := { d.tsu with sec := 2 ^ 60 }, dur := { d.dur with heads := [(5, { eui := 9, epoch := 1 })], ctxs := [(6, { address := 77, mbus := false, cls := 0, cal := 255, heads := [⟨5, 0, 0⟩] })], campaigns := [(2, ⟨7, 0, true, false, 0, 8, false, none, none, 0, 0, 1, 0, 256, 2, 0, false, false, [], []⟩)], campMembers := [(2097158, {})] }, key := { d.key with working := [(0, ⟨5, 1, 7⟩)] }, clo := { d.clo with vault := [(0, ⟨1, 2⟩)] }, fhm := { d.fhm with heads := [(5, { session := true, state := .active, profile := 9 })] }, dst := { d.dst with rounds := [(16389, { sending := 3, collecting := 2, collectingNow := true })] } },
      2, 5, ⟨7, 0, true, false, 0, 8, false, none, none, 0, 0, 1, 0, 256, 2, 0, false, false, [], []⟩, by decide⟩,
   ⟨st [(F.PRL_STATUS_STATE, PairSt.active), (F.KEY_BCAST_SLOT, 0)] fun d =>
      { withT ownT d with dur := { d.dur with heads := [(5, { eui := 9, epoch := 1 })], ctxs := [(6, { address := 77, mbus := false, cls := 0, cal := 255, heads := [⟨5, 0, 0⟩] })], campaigns := [(2, ⟨7, 0, true, false, 0, 8, false, none, none, 0, 0, 1, 0, 256, 2, 0, false, false, [], []⟩)], campMembers := [(2097158, {})] }, key := { d.key with working := [(0, ⟨5, 1, 7⟩)] }, clo := { d.clo with vault := [(0, ⟨1, 2⟩)] }, fhm := { d.fhm with heads := [(5, { session := true, state := .active, profile := 9 })] }, dst := { d.dst with rounds := [(16389, { sending := 3, paged := true })] } },
      2, 5, by decide⟩,
   ⟨st [(F.PRL_STATUS_STATE, PairSt.active), (F.KEY_BCAST_SLOT, 0)] fun d =>
      { withT ownT d with tsu := { d.tsu with sec := 2 ^ 60 }, dur := { d.dur with heads := [(5, { eui := 9, epoch := 1 })], ctxs := [(6, { address := 77, mbus := false, cls := 0, cal := 255, heads := [⟨5, 0, 0⟩] })], campaigns := [(2, ⟨7, 0, true, false, 0, 8, false, none, none, 0, 0, 1, 0, 256, 2, 0, false, true, [], []⟩)], campMembers := [(2097158, {})] }, key := { d.key with working := [(0, ⟨5, 1, 7⟩)] }, clo := { d.clo with vault := [(0, ⟨1, 2⟩)] }, fhm := { d.fhm with heads := [(5, { session := true, state := .active, profile := 9 })] }, dst := { d.dst with rounds := [] } },
      2, 5, ⟨7, 0, true, false, 0, 8, false, none, none, 0, 0, 1, 0, 256, 2, 0, false, true, [], []⟩,
      { eui := 9, epoch := 1 }, _, by decide, by decide, by decide, by decide, by decide, by decide, rfl, by decide⟩,
   ⟨st [(F.PRL_STATUS_STATE, PairSt.active)] fun d =>
      { withT ownT d with tsu := { d.tsu with sec := 2 ^ 60 }, dur := { d.dur with ctxs := [(6, { address := 77, mbus := false, cls := 0, cal := 255 })], campaigns := [(2, ⟨7, 0, true, false, 0, 8, false, none, none, 0, 5, 1, 0, 256, 2, 0, false, false, [], []⟩)], campMembers := [(2097158, { state := 3 })] } },
      2, ⟨7, 0, true, false, 0, 8, false, none, none, 0, 5, 1, 0, 256, 2, 0, false, false, [], []⟩, by decide⟩,
   ⟨st [(F.PRL_STATUS_STATE, PairSt.active)] fun d =>
      { withT ownT d with tsu := { d.tsu with sec := 2 ^ 60 }, dur := { d.dur with ctxs := [(6, { address := 77, mbus := false, cls := 0, cal := 255 })], campaigns := [(2, ⟨7, 0, true, false, 0, 8, false, none, none, 0, 5, 1, 0, 256, 2, 0, false, false, [], []⟩)], campMembers := [(2097158, { state := 3 })] } },
      2, ⟨7, 0, true, false, 0, 8, false, none, none, 0, 5, 1, 0, 256, 2, 0, false, false, [], []⟩, 6, { state := 3 }, by
      decide⟩,
   ⟨st [(F.PRL_STATUS_STATE, PairSt.active), (F.KEY_BCAST_SLOT, 0)] fun d =>
      { withT ownT d with tsu := { d.tsu with sec := 2 ^ 60 }, dur := { d.dur with heads := [(5, { eui := 9, epoch := 1 })], ctxs := [(6, { address := 77, mbus := false, cls := 0, cal := 255, heads := [⟨5, 0, 0⟩] })], campaigns := [(2, ⟨7, 0, true, false, 0, 8, false, none, none, 0, 5, 1, 0, 256, 2, 0, false, false, [], []⟩)], campMembers := [(2097158, {})] }, key := { d.key with working := [(0, ⟨5, 1, 7⟩)] }, clo := { d.clo with vault := [(0, ⟨1, 2⟩)] }, fhm := { d.fhm with heads := [(5, { session := true, state := .active, profile := 9 })] }, dst := { d.dst with rounds := [] } },
      2, ⟨7, 0, true, false, 0, 8, false, none, none, 0, 5, 1, 0, 256, 2, 0, false, false, [], []⟩, by decide⟩⟩

theorem witness_IngestSecurityAndResources :
    (∃ (s : State) (meter : _) (w : _) (c : _), Maps.get? meter s.dev.eng.flight = some w ∧ w.stage = .crypto ∧ Maps.get?
      meter s.dev.dur.ctxs = some c ∧ s.dev.keyLocked = false ∧ w.staged.frame.security ≠ 0x85 ∧ w.staged.frame.medium ≠ 2 ∧
      w.staged.frame.counter < c.m) ∧
    (∃ (s : State) (meter : _) (w : _) (c : _), Maps.get? meter s.dev.eng.flight = some w ∧ w.stage = .crypto ∧ Maps.get?
      meter s.dev.dur.ctxs = some c ∧ s.dev.keyLocked = false ∧ w.staged.frame.security ≠ 0x85 ∧ w.staged.frame.medium ≠ 2 ∧
      w.staged.frame.counter = c.m ∧ w.staged.frame.digest ≠ c.digest) ∧
    (∃ (s : State) (meter : _) (w : _) (c : _), Maps.get? meter s.dev.eng.flight = some w ∧ w.stage = .crypto ∧ Maps.get?
      meter s.dev.dur.ctxs = some c ∧ s.dev.keyLocked = false ∧ w.staged.frame.security ≠ 0x85 ∧ w.staged.frame.medium ≠ 2 ∧
      c.m < w.staged.frame.counter ∧ c.inExhausted = false ∧ w.staged.frame.statusIe = none ∧ (w.old.getD
      s.dev.trellis).dlmsClass w.cls = false) ∧
    (∃ (s : State) (meter : Nat) (w : _) (c : _), Maps.get? meter s.dev.eng.flight = some w ∧ w.stage = .crypto ∧ Maps.get?
      meter s.dev.dur.ctxs = some c ∧ s.dev.keyLocked = false ∧ w.staged.frame.security ≠ 0x85 ∧ w.staged.frame.medium ≠ 2 ∧
      c.m < w.staged.frame.counter ∧ c.inExhausted = false ∧ w.staged.frame.statusIe = none ∧ (w.old.getD
      s.dev.trellis).dlmsClass w.cls = true) ∧
    (∃ (s : State) (meter : Nat) (f : _), Maps.has s.dev.eng.flight meter = false ∧ s.dev.eng.freeing.contains meter = false ∧
      s.dev.dur.rewrap = none ∧ s.dev.takesFrames = true ∧ s.dev.eng.staging.find? (·.meter == meter) = some f ∧ f.meter =
      meter ∧ s.dev.eng.downs.find? (·.1 == meter) = none) ∧
    (∃ (s : State) (meter : Nat) (w : _), Maps.get? meter s.dev.eng.flight = some w ∧ w.stage = .wantContext ∧ w.fetching =
      true ∧ w.reading = none ∧ w.job = none ∧ Maps.has s.dev.eng.cache meter = true) ∧
    (∃ (s : State) (meter : Nat) (cand : Bool) (w : _) (way : _) (k : _), Maps.get? meter s.dev.eng.flight = some w ∧ w.stage
      = .wantKey ∧ w.fetching = true ∧ w.job = none ∧ s.dev.eng.keyWay? meter cand = some (way, k) ∧ k.filled = false) ∧
    (∃ (s : State) (meter : Nat) (w : _), Maps.get? meter s.dev.eng.flight = some w ∧ w.stage = .wantLane ∧ w.job = none ∧
      s.dev.eng.lanesBusy < 14) ∧
    (∃ (s : State) (meter : Nat) (w : _), Maps.get? meter s.dev.eng.flight = some w ∧ w.stage = .wantLane ∧ w.fetching = false
      ∧ 14 ≤ s.dev.eng.lanesBusy ∧ w.since + cyclesOf (s.dev.get F.CTX_WAIT_B_LANE) < s.dev.cycles) ∧
    (∃ (s : State) (meter : _) (w : _), Maps.get? meter s.dev.eng.flight = some w ∧ w.stage = .retry ∧ w.reading = none ∧
      w.fetching = false ∧ w.job = none ∧ s.dev.eng.resident meter = true) :=
  ⟨⟨st active fun d =>
      { withT ownT d with dur := { d.dur with ctxs := [(6, { address := 77, mbus := true, cls := 0, cal := 255, m := 10 })] }, eng := { d.eng with flight := [(6, exItem .crypto)] } },
      6, exItem .crypto, { address := 77, mbus := true, cls := 0, cal := 255, m := 10 }, by decide⟩,
   ⟨st active fun d =>
      { withT ownT d with dur := { d.dur with ctxs := [(6, { address := 77, mbus := true, cls := 0, cal := 255, m := 9 })] }, eng := { d.eng with flight := [(6, exItem .crypto)] } },
      6, exItem .crypto, { address := 77, mbus := true, cls := 0, cal := 255, m := 9 }, by decide⟩,
   ⟨st active fun d =>
      { withT ownT d with dur := { d.dur with ctxs := [(6, { address := 77, mbus := true, cls := 0, cal := 255 })] }, eng := { d.eng with flight := [(6, exItem .crypto)] } },
      6, exItem .crypto, { address := 77, mbus := true, cls := 0, cal := 255 }, by decide⟩,
   ⟨st active fun d =>
      { withT { ownT with dialectDir := [⟨0, 0, 1, 1⟩] } d with dur := { d.dur with ctxs := [(6, { address := 77, mbus := true, cls := 0, cal := 255 })] }, eng := { d.eng with flight := [(6, exItem .crypto)] } },
      6, exItem .crypto, { address := 77, mbus := true, cls := 0, cal := 255 }, by decide⟩,
   ⟨st active fun d =>
      { withT ownT d with dur := { d.dur with ctxs := [(6, { address := 77, mbus := true, cls := 0, cal := 255 })] }, eng := { d.eng with staging := [exStaged] } },
      6, exStaged, by decide⟩,
   ⟨st active fun d =>
      { withT ownT d with dur := { d.dur with ctxs := [(6, { address := 77, mbus := true, cls := 0, cal := 255 })] }, eng := { d.eng with cache := [(6, ⟨0, { address := 77, mbus := true, cls := 0, cal := 255 }, true⟩)], flight := [(6, { exItem .wantContext with fetching := true })] } },
      6, { exItem .wantContext with fetching := true }, by decide⟩,
   ⟨st active fun d =>
      { withT ownT d with dur := { d.dur with ctxs := [(6, { address := 77, mbus := true, cls := 0, cal := 255 })] }, eng := { d.eng with keys := [(96, ⟨6, false, 0, 0, 3, ⟨0, 7, 1, 2, 3, false⟩, true, false⟩)], flight := [(6, { exItem .wantKey with fetching := true })] } },
      6, false, { exItem .wantKey with fetching := true }, 96, ⟨6, false, 0, 0, 3, ⟨0, 7, 1, 2, 3, false⟩, true, false⟩, by
      decide⟩,
   ⟨st active fun d =>
      { withT ownT d with dur := { d.dur with ctxs := [(6, { address := 77, mbus := true, cls := 0, cal := 255 })] }, eng := { d.eng with flight := [(6, exItem .wantLane)] } },
      6, exItem .wantLane, by decide⟩,
   ⟨st active fun d =>
      { withT ownT d with cycles := 2 ^ 60, eng := { d.eng with flight := (6, exItem .wantLane) :: (List.range 14).map fun i => (i + 10, { exItem .crypto with held := [3] }) } },
      6, exItem .wantLane, by decide⟩,
   ⟨st active fun d =>
      { withT ownT d with dur := { d.dur with ctxs := [(6, { address := 77, mbus := true, cls := 0, cal := 255 })] }, eng := { d.eng with cache := [(6, ⟨0, { address := 77, mbus := true, cls := 0, cal := 255 }, true⟩)], flight := [(6, exItem .retry)] } },
      6, exItem .retry, by decide⟩⟩

theorem witness_IngestCommit :
    (∃ (s : State) (meter : Nat) (w : _) (r : _) (c : _) (k : _), Maps.get? meter s.dev.eng.flight = some w ∧ w.stage = .parse
      ∧ w.reading = some r ∧ Maps.get? meter s.dev.dur.ctxs = some c ∧ (w.old.getD s.dev.trellis).class? w.cls = some k) ∧
    (∃ (s : State) (meter : Nat) (w : _) (r : _) (c : _) (k : _), Maps.get? meter s.dev.eng.flight = some w ∧ w.stage = .parse
      ∧ w.reading = some r ∧ Maps.get? meter s.dev.dur.ctxs = some c ∧ (w.old.getD s.dev.trellis).class? w.cls = some k ∧
      w.staged.frame.formOk = false) ∧
    (∃ (s : State) (meter : Nat) (w : _) (r : _), Maps.get? meter s.dev.eng.flight = some w ∧ w.stage = .billing ∧ w.reading =
      some r ∧ r.rejected = true ∧ r.noRecord = true ∧ r.tampers = [] ∧ r.classAk = false ∧ r.candKey = false ∧
      w.staged.frame.mbus = true ∧ w.job = none ∧ w.parsed.events = [] ∧ w.report = none ∧ w.apdu = none ∧ w.blocks = [] ∧
      Maps.has s.dev.eng.reassembly meter = false ∧ s.dev.commits = true ∧ s.dev.journalRoom none = true ∧ s.dev.flag
      F.JNL_STATUS_STALL = false ∧ s.dev.flag F.HLT_CONDITION_JOURNAL_STALL = false ∧ s.dev.standbySynced = false) ∧
    (∃ (s : State) (meter : _) (w : _) (r : _), s.dev.eng.flight = [(meter, w)] ∧ w.stage = .mirror ∧ w.reading = some r ∧
      r.rejected = true ∧ r.noRecord = true ∧ r.tampers = [] ∧ r.classAk = false ∧ r.candKey = false ∧ w.staged.frame.mbus =
      true ∧ w.parsed.events = [] ∧ w.report = none ∧ w.apdu = none ∧ w.blocks = [] ∧ Maps.has s.dev.eng.reassembly meter =
      false ∧ w.since + cyclesOf (1000 * s.dev.get F.ING_TIMEOUT_MIRROR_WAIT) < s.dev.cycles) ∧
    (∃ (s : State) (meter : Nat) (r : _), Maps.get? meter s.dev.eng.reassembly = some r ∧ r.since + cyclesOf (1000000 *
      s.dev.get F.ING_TIMEOUT_REASSEMBLY) < s.dev.cycles) :=
  ⟨⟨st active fun d =>
      { withT ownT d with dur := { d.dur with ctxs := [(6, { address := 77, mbus := true, cls := 0, cal := 255 })] }, eng := { d.eng with flight := [(6, { exItem .parse with reading := some exReading })] } },
      6, { exItem .parse with reading := some exReading }, exReading, { address := 77, mbus := true, cls := 0, cal := 255 },
      ⟨0, 0, 0, 5, 0, 1, 0, 0, 900, 1000, [], []⟩, by decide⟩,
   ⟨st active fun d =>
      { withT ownT d with dur := { d.dur with ctxs := [(6, { address := 77, mbus := true, cls := 0, cal := 255 })] }, eng := { d.eng with flight := [(6, { exItem .parse with staged := { exStaged with frame := { exFrame with kind := 4 } }, reading := some exReading })] } },
      6, { exItem .parse with staged := { exStaged with frame := { exFrame with kind := 4 } }, reading := some exReading },
      exReading, { address := 77, mbus := true, cls := 0, cal := 255 }, ⟨0, 0, 0, 5, 0, 1, 0, 0, 900, 1000, [], []⟩, by
      decide⟩,
   ⟨st [(F.PRL_STATUS_STATE, PairSt.active), (F.NFM_STATUS_STATE, 2)] fun d =>
      { withT ownT d with dur := { d.dur with ctxs := [(6, { address := 77, mbus := true, cls := 0, cal := 255 })] }, eng := { d.eng with flight := [(6, { exItem .billing with reading := some exReading })] } },
      6, { exItem .billing with reading := some exReading }, exReading, by decide⟩,
   ⟨st active fun d =>
      { withT ownT d with cycles := 2 ^ 60, dur := { d.dur with ctxs := [(6, { address := 77, mbus := true, cls := 0, cal := 255 })] }, eng := { d.eng with flight := [(6, { exItem .mirror with reading := some exReading })] } },
      6, { exItem .mirror with reading := some exReading }, exReading, by decide⟩,
   ⟨st active fun d => { withT ownT d with cycles := 2 ^ 60, eng := { d.eng with reassembly := [(6, ⟨[], 0⟩)] } }, 6, ⟨[], 0⟩,
      by decide⟩⟩

theorem witness_WindowsAndArbiter :
    (∃ (s : State) (a : Nat) (n : Nat) (w : _) (x : _), s.dev.window? a n = some w ∧ w.committed = true ∧ w.ordered = false ∧
      w.notice = some x ∧ (s.dev.headRt w.head).orderable = true ∧ s.dev.windowFits (s.dev.headRt w.head) (s.dev.windowAt
      w.endNs 2) x.2.len = true ∧ s.dev.windowDue w 2 = s.dev.now) ∧
    (∃ (s : State) (a : Nat) (n : Nat) (w : _) (m : _), s.dev.window? a n = some w ∧ w.ordered = false ∧ w.meter = some m ∧
      s.dev.windowDue w 2 < s.dev.now) ∧
    (∃ (s : State) (a : _) (n : _) (k : _) (w : _), s.dev.window? a n = some w ∧ w.committed = false ∧ s.dev.windowDue w k =
      s.dev.now) ∧
    (∃ (s : State) (a : Nat) (n : Nat) (k : _) (w : _), s.dev.window? a n = some w ∧ s.dev.now < s.dev.windowDue w k) ∧
    (∃ (s : State) (a : _) (n : _) (k : _) (w : _) (m : _), s.dev.window? a n = some w ∧ w.committed = true ∧ w.ordered =
      false ∧ w.notice = none ∧ w.meter = some m ∧ s.dev.idleMeter m = false ∧ s.dev.windowDue w k = s.dev.now) ∧
    (∃ (s : State) (p : Nat), 1 ≤ p ∧ p ≤ 8 ∧ s.dev.eng.parked = [] ∧ s.dev.eng.holders = []) ∧
    (∃ (s : State) (p : Nat), 1 ≤ p ∧ p ≤ 8 ∧ 4 ≤ (s.dev.eng.parked.filter fun r => r.port == p).length) ∧
    (∃ (s : State) (e : Nat) (h : _), Maps.get? e s.dev.eng.holders = some h ∧ h.done + 1 < h.total ∧ s.dev.eng.parked = []) ∧
    (∃ (s : State) (e : _) (h : _) (r : _) (r' : _), Maps.get? e s.dev.eng.holders = some h ∧ h.done + 1 < h.total ∧
      s.dev.eng.parked = [r] ∧ (s.dev.dst.loading.any fun p => p.2 == 1) = false ∧ r' =
      { r with urgent := s.dev.urgentNow r.port r.op } ∧ r'.outranks { h with urgent := s.dev.urgentNow h.port h.op } = true) ∧
    (∃ (s : State) (e : Nat) (h : _), Maps.get? e s.dev.eng.holders = some h ∧ h.op = .keyMgmt ∧ s.dev.eng.parked = [] ∧
      (s.dev.dst.loading.any fun p => p.2 == 1) = false) ∧
    (∃ (s : State) (p : _) (r : _), s.dev.eng.parked.find? (fun r => r.port == p && !r.starved && decide (cyclesOf
      (starveMicros p) < s.dev.cycles - r.since)) = some r) :=
  ⟨⟨st ethOn fun d =>
      { exHead d with tsu := { d.tsu with sec := 1, ns := 799901000 }, fhm := { d.fhm with heads := [(5, { session := true, state := .active, profile := 9 })], windows := [⟨77, none, 5, 1000, 9, true, false, false, some (⟨none, 1, [], [], [], 40⟩, ⟨none, 2, [], [], [], 40⟩), 0⟩] } },
      77, 1000, ⟨77, none, 5, 1000, 9, true, false, false, some (⟨none, 1, [], [], [], 40⟩, ⟨none, 2, [], [], [], 40⟩), 0⟩,
      (⟨none, 1, [], [], [], 40⟩, ⟨none, 2, [], [], [], 40⟩), by decide⟩,
   ⟨st ethOn fun d =>
      { exHead d with tsu := { d.tsu with sec := 2 }, fhm := { (exHead d).fhm with windows := [⟨77, some 6, 5, 1000, 9, false, false, false, none, 0⟩] } },
      77, 1000, ⟨77, some 6, 5, 1000, 9, false, false, false, none, 0⟩, 6, by decide⟩,
   ⟨st ethOn fun d =>
      { exHead d with tsu := { d.tsu with sec := 1, ns := 799901000 }, fhm := { (exHead d).fhm with windows := [⟨77, some 6, 5, 1000, 9, false, false, false, none, 0⟩] } },
      77, 1000, 2, ⟨77, some 6, 5, 1000, 9, false, false, false, none, 0⟩, by decide⟩,
   ⟨st ethOn fun d =>
      { exHead d with tsu := { d.tsu with sec := 0 }, fhm := { (exHead d).fhm with windows := [⟨77, some 6, 5, 1000, 9, false, false, false, none, 0⟩] } },
      77, 1000, 2, ⟨77, some 6, 5, 1000, 9, false, false, false, none, 0⟩, by decide⟩,
   ⟨st ethOn fun d =>
      { exHead d with tsu := { d.tsu with sec := 1, ns := 799901000 }, eng := { d.eng with freeing := [6] }, fhm := { (exHead d).fhm with windows := [⟨77, some 6, 5, 1000, 9, true, false, false, none, 0⟩] } },
      77, 1000, 2, ⟨77, some 6, 5, 1000, 9, true, false, false, none, 0⟩, 6, by decide⟩,
   ⟨st [], 3, by decide⟩,
   ⟨st [] fun d => { d with eng := { d.eng with parked := List.replicate 4 ⟨3, false, 0, .keyMgmt, 0, 4, 0, false⟩ } }, 3, by
      decide⟩,
   ⟨st [] fun d => { d with eng := { d.eng with holders := [(2, ⟨3, false, 0, .keyMgmt, 0, 4, 0, false⟩)] } }, 2, ⟨3, false,
      0, .keyMgmt, 0, 4, 0, false⟩, by decide⟩,
   ⟨st [] fun d =>
      { d with eng := { d.eng with holders := [(2, ⟨3, false, 0, .keyMgmt, 0, 4, 0, false⟩)], parked := [⟨1, false, 1, .keyMgmt, 0, 4, 0, false⟩] } },
      2, ⟨3, false, 0, .keyMgmt, 0, 4, 0, false⟩, ⟨1, false, 1, .keyMgmt, 0, 4, 0, false⟩, _, by decide, by decide, by decide,
      by decide, rfl, by decide⟩,
   ⟨st [] fun d => { d with eng := { d.eng with holders := [(2, ⟨3, false, 0, .keyMgmt, 0, 4, 0, false⟩)] } }, 2, ⟨3, false,
      0, .keyMgmt, 0, 4, 0, false⟩, by decide⟩,
   ⟨st [] fun d => { d with cycles := 2 ^ 60, eng := { d.eng with parked := [⟨3, false, 0, .keyMgmt, 0, 4, 0, false⟩] } }, 3,
      ⟨3, false, 0, .keyMgmt, 0, 4, 0, false⟩, by decide⟩⟩

theorem witness_MeasurementSwapsAndModules :
    (∃ (s : State) (v : Word), v.getLsbD 31 = true ∧ 16 ≤ bitsOf v 12 0 ∧ bitsOf v 12 0 ≤ 4096 ∧ bitsOf v 18 16 ≠ 0 ∧
      s.dev.msrRuns = true ∧ s.dev.msr.fade = none) ∧
    (∃ (s : State) (v : Word) (w : _), v.getLsbD 31 = true ∧ 16 ≤ bitsOf v 12 0 ∧ bitsOf v 12 0 ≤ 4096 ∧ bitsOf v 18 16 ≠ 0 ∧
      s.dev.msrRuns = true ∧ s.dev.msr.fade = some w ∧ s.dev.msr.pend = none) ∧
    (∃ (v : Word), v.getLsbD 31 = true ∧ (bitsOf v 12 0 < 16 ∨ 4096 < bitsOf v 12 0)) ∧
    (∃ (s : State) (bits : _) (x : _) (w : _), x = s.dev.msrRun bits ∧ x.msr.fade = some w ∧ x.fadeDone = true) ∧
    (∃ (n : Nat), n < 4) ∧
    (∃ (n : Nat), n < 4) ∧
    (∃ (s : State) (n : Nat), n < 4 ∧ s.dev.trellis.msrChans ≠ []) :=
  ⟨⟨st [(F.MSR_CTRL_ENABLE, 1)] fun d => withT msrT d, 0x80130040, by decide⟩,
   ⟨st [(F.MSR_CTRL_ENABLE, 1)] fun d => { withT msrT d with msr := { d.msr with fade := some ⟨3, 1, 64⟩ } }, 0x80130040, ⟨3,
      1, 64⟩, by decide⟩,
   ⟨0x80130001, by decide⟩,
   ⟨st [(F.MSR_CTRL_ENABLE, 1), (F.MSR_STATUS_ACTIVE_BANK, 6), (F.MSR_SWAP_STATUS_PROGRESS, 64)] fun d =>
      { withT msrT d with msr := { d.msr with fade := some ⟨3, 1, 64⟩ } }, [], _, ⟨3, 1, 64⟩, rfl, by decide⟩,
   ⟨2, by decide⟩,
   ⟨2, by decide⟩,
   ⟨st [(F.MSR_CTRL_ENABLE, 1)] fun d => withT msrT d, 1, by decide⟩⟩

theorem witness_MeasurementResets :
    (∃ (s : State), s.dev.msrRuns = true ∧ s.dev.get F.MSR_CTRL_SYNC_SRC ≠ 0) ∧
    (∃ (s : State), s.dev.msrRuns = true ∧ s.dev.get F.MSR_CTRL_SYNC_SRC = 0) ∧
    (∃ (s : State), s.dev.trellis.msrChans ≠ [] ∧ s.dev.get F.MSR_CTRL_ENABLE = 0 ∧ s.dev.get F.MSR_CTRL_SYNC_SRC ≠ 0) ∧
    (∃ (s : State) (bits : _) (x : _), x = s.dev.msrRun bits ∧ x.msrRuns = true ∧ x.flag F.MSR_STATUS_SYNC_ARMED = true) ∧
    (∃ (d : Dev), d.get F.MSR_STATUS_SETTLE_LEFT = 0 ∧ d.msr.settles = true) ∧
    (∃ (d : Dev), d.get F.MSR_STATUS_SETTLE_LEFT ≠ 0) ∧
    (∃ (s : State) (slot : _) (bits : _) (x : _) (c : _), x = s.dev.msrRun bits ∧ x.msrRuns = true ∧ (∀ c ∈ x.msrChans,
      c.channel < 32) ∧ c ∈ x.msrChans ∧ (slot = none ∨ slot = some c.module) ∧ (x.chan c.channel).valid = true) ∧
    (∃ (s : State) (ch : _) (st : _), s.dev.msrRuns = true ∧ ch < 32 ∧ st < 5) :=
  ⟨⟨st [(F.MSR_CTRL_ENABLE, 1), (F.MSR_CTRL_SYNC_SRC, 1)] fun d => withT msrT d, by decide⟩,
   ⟨st [(F.MSR_CTRL_ENABLE, 1)] fun d => { withT msrT d with msr := { d.msr with restart := true } }, by decide⟩,
   ⟨st [(F.MSR_CTRL_ENABLE, 1), (F.MSR_CTRL_SYNC_SRC, 1), (F.MSR_CTRL_ENABLE, 0)] fun d => withT msrT d, by decide⟩,
   ⟨st [(F.MSR_CTRL_ENABLE, 1), (F.MSR_STATUS_SYNC_ARMED, 1)] fun d =>
      { withT msrT d with msr := { d.msr with restart := true } }, [], _, rfl, by decide⟩,
   ⟨(st [(F.MSR_CTRL_ENABLE, 1)] fun d => { withT msrT d with msr := { d.msr with settles := true } }).dev, by decide⟩,
   ⟨(st [(F.MSR_CTRL_ENABLE, 1), (F.MSR_STATUS_SETTLE_LEFT, 3)] fun d => withT msrT d).dev, by decide⟩,
   ⟨st [(F.MSR_CTRL_ENABLE, 1), (F.MSR_CH_STATUS_MODULE_OK.at 2, 1)] fun d =>
      { withT msrT d with msr := { d.msr with chans := [(2, { valid := true })] } }, none, [], _, ⟨2, 1, 3, true, true, false,
      1, 0⟩, rfl, by decide⟩,
   ⟨st [(F.MSR_CTRL_ENABLE, 1)] fun d => withT msrT d, 31, 4, by decide⟩⟩

theorem witness_MeasurementEnergy :
    (∃ (s : State) (bits : _) (x : _) (a : _), x = s.dev.msrRun bits ∧ a = x.wholeSecond ∧ x.msrRuns = true ∧ (∀ c ∈
      x.msrChans, c.channel < 32) ∧ 2 ≤ a.samples ∧ x.servo = Sv.locked) ∧
    (∃ (s : State) (bits : _) (x : _), x = s.dev.msrRun bits ∧ x.msrRuns = true ∧ (∀ c ∈ x.msrChans, c.channel < 32) ∧ 2 ≤
      x.wholeSecond.samples ∧ x.servo ≠ Sv.locked) ∧
    (∃ (s : State) (bits : _) (x : _) (n : _) (v : _), x = s.dev.msrRun bits ∧ x.msrRuns = true ∧ n < 4 ∧ x.tempMean? n = some
      v) ∧
    (∃ (s : State) (f : Nat) (bits : _) (x : _) (n : _), f < 4 ∧ n < 16 ∧ x = s.dev.msrRun bits) ∧
    (∃ (s : State) (f : _) (bits : _) (x : _) (k : _), f < 4 ∧ x = s.dev.msrRun bits ∧ x.msrRuns = true ∧ k = Maps.getD
      ((x.msr.feeders.getD f {}).closeUpTo (x.balNow - 1)).ints (x.balNow - 1) {}) ∧
    (∃ (s : State) (f : Nat) (bits : _) (x : _) (z : _), f < 4 ∧ x = s.dev.msrRun bits ∧ x.msrRuns = true ∧ x.topZone? f =
      some z ∧ z.checkKind = 0 ∧ z.checkId = f) :=
  ⟨⟨st [(F.MSR_CTRL_ENABLE, 1), (F.TSU_STATUS_STATE, 2)] fun d =>
      { withT msrT d with tsu := { d.tsu with sec := 9 }, msr := { d.msr with now := { sec := 8, first := 0, last := 999999999, samples := 8000, sums := [(2, 40, 0, 8)] } } },
      [], _, _, rfl, rfl, by decide⟩,
   ⟨st [(F.MSR_CTRL_ENABLE, 1), (F.TSU_STATUS_STATE, 4)] fun d =>
      { withT msrT d with tsu := { d.tsu with sec := 9 }, msr := { d.msr with now := { sec := 8, first := 0, last := 999999999, samples := 8000, sums := [(2, 40, 0, 8)] } } },
      [], _, rfl, by decide⟩,
   ⟨st [(F.MSR_CTRL_ENABLE, 1)] fun d =>
      { withT msrT d with tsu := { d.tsu with sec := 9 }, msr := { d.msr with now := { sec := 8, first := 0, last := 999999999, samples := 8000, sums := [(2, 40, 0, 8)] }, slots := ⟨{}, { front := some ⟨3, 0, 0, 0, [⟨1, 0, 0, 0, 0, 5⟩]⟩ }, {}, {}⟩ } },
      [], _, 1, 5, rfl, by decide⟩,
   ⟨st [(F.MSR_CTRL_ENABLE, 1)] fun d => withT msrT d, 1, [], _, 3, by decide, by decide, rfl⟩,
   ⟨st [(F.MSR_CTRL_ENABLE, 1)] fun d => withT msrT d, 1, [], _, _, by decide, rfl, by decide, rfl⟩,
   ⟨st [(F.MSR_CTRL_ENABLE, 1)] fun d => withT
      { msrT with msrFeeders := [⟨1, 50, 230, 0, 7, 9⟩], zones := [⟨9, 0, 0, 0, 96, 1, 0, 0, 100⟩] } d, 1, [], _, ⟨9, 0, 0, 0,
      96, 1, 0, 0, 100⟩, by decide, rfl, by decide⟩⟩

theorem witness_ZxTracking :
    (∃ (s : State) (f : Nat) (p : Nat) (r : Bool) (bits : _) (x : _) (at_ : Nat) (t : _), f < 4 ∧ p < 3 ∧ x = s.dev.msrRun
      bits ∧ x.zxEnabled f p = true ∧ x.crossing? f p r = some at_ ∧ x.track f p = Zt.locked ∧ (x.zxPhase f p).predict r =
      some t ∧ nearby at_ t = true) ∧
    (∃ (s : State) (f : Nat) (bits : _) (x : _) (at_ : Nat) (t : _), f < 4 ∧ x = s.dev.msrRun bits ∧ x.zxEnabled f 0 = true ∧
      x.crossing? f 0 true = some at_ ∧ x.track f 0 = Zt.locked ∧ (x.zxPhase f 0).predict true = some t ∧ nearby at_ t = true
      ∧ (x.zxFeeder f).started = true) ∧
    (∃ (s : State) (f : Nat) (p : Nat) (r : Bool) (bits : _) (x : _) (at_ : Nat) (t : _), f < 4 ∧ p < 3 ∧ x = s.dev.msrRun
      bits ∧ x.zxEnabled f p = true ∧ x.crossing? f p r = some at_ ∧ x.track f p = Zt.acquiring ∧ (x.zxPhase f p).accepted = 7
      ∧ ((x.zxPhase f p).dir r).last = some t ∧ t < at_ ∧ 1000000000 ≤ (at_ - t) * (x.mainsHz f + 5) ∧ (at_ - t) * (x.mainsHz
      f - 5) ≤ 1000000000) ∧
    (∃ (s : State) (f : Nat) (p : Nat) (r : Bool) (bits : _) (x : _) (t : _), f < 4 ∧ p < 3 ∧ x = s.dev.msrRun bits ∧
      x.zxEnabled f p = true ∧ x.track f p = Zt.locked ∧ (x.zxPhase f p).predict r = some t) ∧
    (∃ (s : State) (f : Nat) (p : Nat), f < 4 ∧ p < 3 ∧ s.dev.track f p = Zt.unlocked) :=
  ⟨⟨st [(F.MSR_CTRL_ENABLE, 1), (F.MSR_CH_PHASE_STEPS.at 2, 32896), (F.ZXP_STATUS_TRACK.at 1, 1)] fun d =>
      { withT { msrT with msrChans := [⟨2, 1, 0, true, true, false, 1, 0⟩] } d with msr := { d.msr with chans := [(2, { fast := [⟨40220000, 1, true⟩, ⟨40200000, -1, true⟩] })] }, zxp := { feeders := ⟨{}, { phases := ⟨{ rise := { last := some 20000000 }, intervals := [20000000] }, {}, {}⟩, started := true }, {}, {}⟩ } },
      1, 0, true, [], _, 40022500, 40000000, by decide, by decide, rfl, by decide⟩,
   ⟨st [(F.MSR_CTRL_ENABLE, 1), (F.MSR_CH_PHASE_STEPS.at 2, 32896), (F.ZXP_STATUS_TRACK.at 1, 1)] fun d =>
      { withT { msrT with msrChans := [⟨2, 1, 0, true, true, false, 1, 0⟩] } d with msr := { d.msr with chans := [(2, { fast := [⟨40220000, 1, true⟩, ⟨40200000, -1, true⟩] })] }, zxp := { feeders := ⟨{}, { phases := ⟨{ rise := { last := some 20000000 }, intervals := [20000000] }, {}, {}⟩, started := true, c := 9 }, {}, {}⟩ } },
      1, [], _, 40022500, 40000000, by decide, rfl, by decide⟩,
   ⟨st [(F.MSR_CTRL_ENABLE, 1), (F.MSR_CH_PHASE_STEPS.at 2, 32896)] fun d =>
      { withT { msrT with msrChans := [⟨2, 1, 0, true, true, false, 1, 0⟩] } d with msr := { d.msr with chans := [(2, { fast := [⟨40220000, 1, true⟩, ⟨40200000, -1, true⟩] })] }, zxp := { feeders := ⟨{}, { phases := ⟨{ rise := { last := some 20000000 }, accepted := 7 }, {}, {}⟩, started := true }, {}, {}⟩ } },
      1, 0, true, [], _, 40022500, 20000000, by decide, by decide, rfl, by decide⟩,
   ⟨st [(F.MSR_CTRL_ENABLE, 1), (F.ZXP_STATUS_TRACK.at 1, 1)] fun d =>
      { withT { msrT with msrChans := [⟨2, 1, 0, true, true, false, 1, 0⟩] } d with msr := { d.msr with chans := [(2, { fast := [⟨40220000, 1, true⟩, ⟨40200000, -1, true⟩] })] }, zxp := { feeders := ⟨{}, { phases := ⟨{ rise := { last := some 20000000 }, intervals := [20000000] }, {}, {}⟩, started := true }, {}, {}⟩ } },
      1, 0, true, [], _, 40000000, by decide, by decide, rfl, by decide⟩,
   ⟨st [(F.MSR_CTRL_ENABLE, 1), (F.ZXP_STATUS_TRACK.at 1, 3)] fun d =>
      { withT msrT d with zxp := { feeders := ⟨{}, { phases := ⟨{ accepted := 3 }, {}, {}⟩ }, {}, {}⟩ } }, 1, 0, by decide⟩⟩

theorem witness_ZxFrames :
    (∃ (s : State) (f : Nat) (p : Nat) (k : _), f < 4 ∧ p < 3 ∧ s.dev.zxSends f p = true ∧ (s.dev.zxPhase f p).frame = none ∧
      (s.dev.zxPhase f p).fixed = false ∧ s.dev.bcastKey (zxPlace f p) = some k) ∧
    (∃ (s : State) (f : Nat) (p : Nat) (fr : _) (r : _) (k : _), f < 4 ∧ p < 3 ∧ (s.dev.zxPhase f p).frame = some fr ∧
      fr.purpose = .ack r ∧ fr.bitmap = none ∧ Maps.get? (zxPlace f p) s.dev.key.bcastRegs = some k) ∧
    (∃ (s : State) (f : Nat) (p : Nat) (k : _), f < 4 ∧ p < 3 ∧ s.dev.zxSends f p = true ∧ (s.dev.zxPhase f p).frame = none ∧
      (s.dev.zxPhase f p).cycle = (s.dev.zxFeeder f).round * (s.dev.sched f).round + (s.dev.sched f).uplink + 194 ∧
      (s.dev.sched f).every ≤ (s.dev.zxPhase f p).sinceTime ∧ (s.dev.zxPhase f p).timeSent = false ∧ (s.dev.zxPhase f
      p).distSent = false ∧ (s.dev.sched f).uplink + 194 + zxCycles 4 ≤ (s.dev.sched f).round ∧ s.dev.bcastKey (zxPlace f p) =
      some k) ∧
    (∃ (s : State) (f : Nat) (p : Nat), f < 4 ∧ p < 3 ∧ (s.dev.zxPhase f p).cycle < (s.dev.zxFeeder f).round * (s.dev.sched
      f).round + (s.dev.sched f).uplink + 194) ∧
    (∃ (s : State) (f : Nat) (p : Nat), f < 4 ∧ p < 3 ∧ (s.dev.zxPhase f p).distSent = true) ∧
    (∃ (s : State) (f : Nat) (p : Nat) (fr : _) (v : _), f < 4 ∧ p < 3 ∧ s.dev.zxSends f p = true ∧ (s.dev.zxPhase f p).frame
      = some fr ∧ fr.symbols[fr.sent]? = some v ∧ fr.purpose = .time ∧ fr.sent + 1 < fr.symbols.length) ∧
    (∃ (s : State) (f : Nat) (p : Nat), f < 4 ∧ p < 3 ∧ (s.dev.zxPhase f p).gate.isSome = true) ∧
    (∃ (s : State) (f : Nat) (p : Nat), f < 4 ∧ p < 3 ∧ bitAt (s.dev.get (F.ZXP_STATUS_FAULT.at f)) p = false) ∧
    (∃ (f : Nat) (p : Nat), f < 4 ∧ p < 3) ∧
    (∃ (s : State) (f : Nat) (p : Nat) (t : _), f < 4 ∧ p < 3 ∧ (s.dev.zxPhase f p).faults.head? = some t ∧ t + 10000000000 ≤
      s.dev.now) ∧
    (∃ (s : State) (f : Nat) (m : Nat) (p : _), f < 4 ∧ p < 3 ∧ bitAt m p = true ∧ (s.dev.setNow (R.ZXP_FAULT.at f)).getLsbD p
      = false) ∧
    (∃ (s : State) (f : Nat) (p : _), f < 4 ∧ p < 3 ∧ (s.dev.setNow (R.ZXP_FAULT.at f)).getLsbD p = true) :=
  ⟨⟨st [(F.MSR_CTRL_ENABLE, 1), (F.PRL_STATUS_STATE, PairSt.active), (F.ZXP_CTRL_TX_EN.at 1, 7), (F.ZXP_STATUS_MODULE.at 1, 1),
      (F.KEY_BCAST_SLOT, 0), (F.ZXP_STATUS_TRACK.at 1, 1)] fun d =>
      { withT msrT d with zxp := { feeders := ⟨{}, { phases := ⟨{ outCtr := 8 }, {}, {}⟩ }, {}, {}⟩ }, key := { d.key with working := [(0, ⟨5, 1, 7⟩)] }, clo := { d.clo with vault := [(0, ⟨1, 2⟩)] } },
      1, 0, _, by decide, by decide, by decide, by decide, by decide, rfl⟩,
   ⟨st [(F.MSR_CTRL_ENABLE, 1), (F.PRL_STATUS_STATE, PairSt.active), (F.ZXP_CTRL_TX_EN.at 1, 7), (F.ZXP_STATUS_MODULE.at 1,
      1), (F.KEY_BCAST_SLOT, 0), (F.ZXP_STATUS_TRACK.at 1, 1)] fun d =>
      { withT msrT d with zxp := { feeders := ⟨{}, { phases := ⟨{ frame := some ⟨.ack 2, 3, 100, [], [1], 0, none, 0⟩, acked := 5 }, {}, {}⟩ }, {}, {}⟩ }, key := { d.key with bcastRegs := [(zxPlace 1 0, 9)] } },
      1, 0, ⟨.ack 2, 3, 100, [], [1], 0, none, 0⟩, 2, 9, by decide⟩,
   ⟨st [(F.MSR_CTRL_ENABLE, 1), (F.PRL_STATUS_STATE, PairSt.active), (F.ZXP_CTRL_TX_EN.at 1, 7), (F.ZXP_STATUS_MODULE.at 1,
      1), (F.KEY_BCAST_SLOT, 0), (F.ZXP_STATUS_TRACK.at 1, 1), (F.ZXP_SCHED_UL_BLOCKS.at 1, 0), (F.ZXP_SCHED_DL_CYCLES.at 1,
      4000), (F.ZXP_SCHED_PERIOD.at 1, 8), (F.ZXP_SCHED_TIME_EVERY.at 1, 4)] fun d =>
      { withT msrT d with zxp := { feeders := ⟨{}, { phases := ⟨{ cycle := 1154, sinceTime := 40 }, {}, {}⟩ }, {}, {}⟩ }, key := { d.key with working := [(0, ⟨5, 1, 7⟩)] }, clo := { d.clo with vault := [(0, ⟨1, 2⟩)] } },
      1, 0, _, by decide, by decide, by decide, by decide, by decide, by decide, by decide, by decide, by decide, rfl⟩,
   ⟨st [(F.MSR_CTRL_ENABLE, 1), (F.PRL_STATUS_STATE, PairSt.active), (F.ZXP_CTRL_TX_EN.at 1, 7), (F.ZXP_STATUS_MODULE.at 1,
      1), (F.KEY_BCAST_SLOT, 0), (F.ZXP_STATUS_TRACK.at 1, 1), (F.ZXP_SCHED_UL_BLOCKS.at 1, 0), (F.ZXP_SCHED_DL_CYCLES.at 1,
      4000), (F.ZXP_SCHED_PERIOD.at 1, 8), (F.ZXP_SCHED_TIME_EVERY.at 1, 4)] fun d =>
      { withT msrT d with zxp := { feeders := ⟨{}, { phases := ⟨{ cycle := 100 }, {}, {}⟩ }, {}, {}⟩ }, key := { d.key with working := [(0, ⟨5, 1, 7⟩)] }, clo := { d.clo with vault := [(0, ⟨1, 2⟩)] } },
      1, 0, by decide⟩,
   ⟨st [(F.MSR_CTRL_ENABLE, 1), (F.PRL_STATUS_STATE, PairSt.active), (F.ZXP_CTRL_TX_EN.at 1, 7), (F.ZXP_STATUS_MODULE.at 1,
      1), (F.KEY_BCAST_SLOT, 0), (F.ZXP_STATUS_TRACK.at 1, 1), (F.ZXP_SCHED_UL_BLOCKS.at 1, 0), (F.ZXP_SCHED_DL_CYCLES.at 1,
      4000), (F.ZXP_SCHED_PERIOD.at 1, 8), (F.ZXP_SCHED_TIME_EVERY.at 1, 4)] fun d =>
      { withT msrT d with zxp := { feeders := ⟨{}, { phases := ⟨{ distSent := true }, {}, {}⟩ }, {}, {}⟩ }, key := { d.key with working := [(0, ⟨5, 1, 7⟩)] }, clo := { d.clo with vault := [(0, ⟨1, 2⟩)] } },
      1, 0, by decide⟩,
   ⟨st [(F.MSR_CTRL_ENABLE, 1), (F.PRL_STATUS_STATE, PairSt.active), (F.ZXP_CTRL_TX_EN.at 1, 7), (F.ZXP_STATUS_MODULE.at 1,
      1), (F.KEY_BCAST_SLOT, 0), (F.ZXP_STATUS_TRACK.at 1, 1)] fun d =>
      { withT msrT d with zxp := { feeders := ⟨{}, { phases := ⟨{ frame := some ⟨.time, 3, 100, [], [1, 2], 0, none, 0⟩ }, {}, {}⟩ }, {}, {}⟩ } },
      1, 0, ⟨.time, 3, 100, [], [1, 2], 0, none, 0⟩, 1, by decide⟩,
   ⟨st [(F.MSR_CTRL_ENABLE, 1)] fun d =>
      { withT msrT d with zxp := { feeders := ⟨{}, { phases := ⟨{ gate := some 5 }, {}, {}⟩ }, {}, {}⟩ } }, 1, 0, by decide⟩,
   ⟨st [(F.MSR_CTRL_ENABLE, 1)] fun d =>
      { withT msrT d with zxp := { feeders := ⟨{}, { phases := ⟨{ frame := some ⟨.time, 3, 100, [], [1, 2], 0, none, 0⟩ }, {}, {}⟩ }, {}, {}⟩ } },
      1, 0, by decide⟩,
   ⟨1, 2, by decide⟩,
   ⟨st [(F.MSR_CTRL_ENABLE, 1)] fun d =>
      { withT msrT d with zxp := { feeders := ⟨{}, { phases := ⟨{ resting := true, faults := [5] }, {}, {}⟩ }, {}, {}⟩ }, tsu := { d.tsu with sec := 11 } },
      1, 0, 5, by decide⟩,
   ⟨st [], 1, 4, 2, by decide⟩,
   ⟨st [] fun d => { d with face := { d.face with hst := { d.face.hst with setNow := [(R.ZXP_FAULT.at 1, 4)] } } }, 1, 2, by
      decide⟩⟩

theorem witness_ZxRounds :
    (∃ (s : State) (f : Nat), f < 4 ∧ (s.dev.zxFeeder f).started = true ∧ (s.dev.zxFeeder f).sched = none ∧ (s.dev.zxFeeder
      f).c / (s.dev.sched f).round ≠ (s.dev.zxFeeder f).round) ∧
    (∃ (s : State) (f : Nat) (m : Nat) (z : ZxAssign) (c : _), f < 4 ∧ z = ⟨f, s.dev.get (F.ZXP_ASSIGN_SLOT_PHASE.at f),
      s.dev.get (F.ZXP_ASSIGN_SLOT_CHANNEL.at f), s.dev.get (F.ZXP_ASSIGN_SLOT_SLOT.at f)⟩ ∧ Maps.get? (m % 1048576)
      s.dev.dur.ctxs = some c ∧ (s.dev.trellis.class? c.cls).map (·.medium) = some 2 ∧ z.phase < 3 ∧ s.dev.zxEnabled f z.phase
      = true ∧ z.slot < (s.dev.sched f).period ∧ s.dev.zxTaken (m % 1048576) z = false) ∧
    (∃ (s : State) (f : Nat) (m : Nat), f < 4 ∧ Maps.get? (m % 1048576) s.dev.dur.ctxs = none) ∧
    (∃ (s : State) (f : Nat) (m : Nat) (c : _), f < 4 ∧ Maps.get? (m % 1048576) s.dev.dur.ctxs = some c ∧ c.zx.map (·.feeder)
      = some f) ∧
    (∃ (f : Nat), f < 4) ∧
    (∃ (s : State) (f : Nat) (p : Nat) (ch : Nat) (m : _), f < 4 ∧ p < 3 ∧ ch < 16 ∧ s.dev.zxReceives f p = true ∧
      (s.dev.zxFeeder f).decoding = true ∧ s.dev.serves = true ∧ s.dev.zxSender f p ch (s.dev.zxFeeder f).round = some m) ∧
    (∃ (s : State) (f : Nat) (p : Nat) (ch : Nat) (m : _), f < 4 ∧ p < 3 ∧ ch < 16 ∧ s.dev.zxReceives f p = true ∧
      (s.dev.zxFeeder f).decoding = true ∧ s.dev.serves = true ∧ s.dev.zxSender f p ch (s.dev.zxFeeder f).round = some m ∧
      Maps.getD (s.dev.zxPhase f p).up ch {} = {} ∧ (s.dev.zxFeeder f).learned = [] ∧ (s.dev.zxPhase f p).flagged = [] ∧
      (s.dev.zxPhase f p).gaps = [] ∧ (s.dev.zxPhase f p).off = none ∧ 0 < (s.dev.sched f).blocks ∧ rsDecode (chunks 4 15
      ((((s.dev.zxPhase f p).symbols (s.dev.zxPulseOf f p) 60 ((s.dev.zxFeeder f).round * (s.dev.sched f).round) 0).map fun r
      => r.getD ch 0).map fun v => decide (0 < v))) [] = none) :=
  ⟨⟨st [(F.MSR_CTRL_ENABLE, 1), (F.ZXP_SCHED_UL_BLOCKS.at 1, 3), (F.ZXP_SCHED_DL_CYCLES.at 1, 4000), (F.ZXP_SCHED_PERIOD.at 1,
      8)] fun d =>
      { withT msrT d with zxp := { feeders := ⟨{}, { phases := ⟨{ }, {}, {}⟩, started := true, c := 9000 }, {}, {}⟩ } }, 1, by
      decide⟩,
   ⟨st [(F.MSR_CTRL_ENABLE, 1), (F.ZXP_SCHED_UL_BLOCKS.at 1, 3), (F.ZXP_SCHED_DL_CYCLES.at 1, 4000), (F.ZXP_SCHED_PERIOD.at 1,
      8), (F.ZXP_ASSIGN_SLOT_CHANNEL.at 1, 5)] fun d =>
      { withT zxT d with dur := { d.dur with ctxs := [(6, { address := 77, mbus := false, cls := 0, cal := 255, zx := some ⟨1, 0, 2, 0⟩ })] } },
      1, 6, ⟨1, 0, 5, 0⟩, { address := 77, mbus := false, cls := 0, cal := 255, zx := some ⟨1, 0, 2, 0⟩ }, by decide⟩,
   ⟨st [], 1, 6, by decide⟩,
   ⟨st [(F.MSR_CTRL_ENABLE, 1)] fun d =>
      { withT msrT d with zxp := { feeders := ⟨{}, { phases := ⟨{ }, {}, {}⟩ }, {}, {}⟩ }, dur := { d.dur with ctxs := [(6, { address := 77, mbus := false, cls := 0, cal := 255, zx := some ⟨1, 0, 2, 0⟩ })] } },
      1, 6, { address := 77, mbus := false, cls := 0, cal := 255, zx := some ⟨1, 0, 2, 0⟩ }, by decide⟩,
   ⟨1, by decide⟩,
   ⟨st [(F.MSR_CTRL_ENABLE, 1), (F.ZXP_SCHED_UL_BLOCKS.at 1, 3), (F.ZXP_SCHED_DL_CYCLES.at 1, 4000), (F.ZXP_SCHED_PERIOD.at 1,
      8), (F.PRL_STATUS_STATE, PairSt.active), (F.ZXP_CTRL_RX_EN.at 1, 1), (F.ZXP_STATUS_TRACK.at 1, 1)] fun d =>
      { withT zxT d with zxp := { feeders := ⟨{}, { phases := ⟨{ }, {}, {}⟩, decoding := true }, {}, {}⟩ }, dur := { d.dur with ctxs := [(6, { address := 77, mbus := false, cls := 0, cal := 255, zx := some ⟨1, 0, 2, 0⟩ })] } },
      1, 0, 2, 6, by decide⟩,
   ⟨st [(F.MSR_CTRL_ENABLE, 1), (F.ZXP_SCHED_UL_BLOCKS.at 1, 3), (F.ZXP_SCHED_DL_CYCLES.at 1, 4000), (F.ZXP_SCHED_PERIOD.at 1,
      8), (F.PRL_STATUS_STATE, PairSt.active), (F.ZXP_CTRL_RX_EN.at 1, 1), (F.ZXP_STATUS_TRACK.at 1, 1)] fun d =>
      { withT zxT d with zxp := { feeders := ⟨{}, { phases := ⟨{ sums := [(2, -1), (82, -1), (130, -1)], off := none }, {}, {}⟩, decoding := true }, {}, {}⟩ }, dur := { d.dur with ctxs := [(6, { address := 77, mbus := false, cls := 0, cal := 255, zx := some ⟨1, 0, 2, 0⟩ })] } },
      1, 0, 2, 6, by decide +kernel⟩⟩

theorem witness_Provisioning :
    (∃ (s : State), s.dev.flag F.KEY_CMD_BUSY = false ∧ s.dev.keyLocked = false ∧ s.dev.standbyRefuses = false ∧
      s.dev.drbgRuns = true) ∧
    (∃ (s : State), s.dev.flag F.KEY_CMD_BUSY = false ∧ s.dev.keyLocked = false ∧ s.dev.standbyRefuses = false ∧
      s.dev.drbgRuns = false) ∧
    (∃ (s : State), s.dev.flag F.KEY_CMD_BUSY = false ∧ s.dev.keyLocked = false ∧ s.dev.standbyRefuses = false ∧
      s.dev.key.session = none) ∧
    (∃ (s : State) (p : _), s.dev.flag F.KEY_CMD_BUSY = false ∧ s.dev.keyLocked = false ∧ s.dev.standbyRefuses = false ∧
      s.dev.key.session = some p ∧ p.transport = none) ∧
    (∃ (s : State) (p : _) (peer : Bytes), s.dev.flag F.KEY_CMD_BUSY = false ∧ s.dev.keyLocked = false ∧ s.dev.standbyRefuses
      = false ∧ s.dev.key.session = some p ∧ p.transport = none ∧ peer.be 4 16 ≠ p.nonce) ∧
    (∃ (s : State) (p : _), s.dev.flag F.KEY_CMD_BUSY = false ∧ s.dev.keyLocked = false ∧ s.dev.standbyRefuses = false ∧
      s.dev.key.session = some p) ∧
    (∃ (s : State) (p : _), s.dev.key.session = some p ∧ s.dev.key.generating = none ∧ p.openedAt + sessionCycles <
      s.dev.cycles) :=
  ⟨⟨st [(F.KEY_STATUS_DRBG_RUN, 1)], by decide⟩,
   ⟨st [], by decide⟩,
   ⟨st [], by decide⟩,
   ⟨st [] fun d => { d with key := { d.key with session := some ⟨11, 12, none, 0⟩ } }, ⟨11, 12, none, 0⟩, by decide⟩,
   ⟨st [] fun d => { d with key := { d.key with session := some ⟨11, 12, none, 0⟩ } }, ⟨11, 12, none, 0⟩, [1], by decide⟩,
   ⟨st [(F.KEY_STATUS_PROV, 1)] fun d => { d with key := { d.key with session := some ⟨11, 12, some 7, 0⟩ } }, ⟨11, 12, some
      7, 0⟩, by decide⟩,
   ⟨st [] fun d => { d with cycles := 2 ^ 60, key := { d.key with session := some ⟨11, 12, some 7, 0⟩ } }, ⟨11, 12, some 7,
      0⟩, by decide⟩⟩

theorem witness_RootCommands :
    (∃ (s : State) (t : _) (k : _), s.dev.flag F.KEY_CMD_BUSY = false ∧ s.dev.keyLocked = false ∧ s.dev.standbyRefuses = false
      ∧ s.dev.key.session.bind (·.transport) = some t ∧ s.dev.latched = false ∧ k = s.dev.get F.KEY_CMD_ARG_KIND ∧ 0 < k ∧ k ≤
      6 ∧ s.dev.clo.candidate = none) ∧
    (∃ (s : State) (t : _) (c : _), s.dev.flag F.KEY_CMD_BUSY = false ∧ s.dev.keyLocked = false ∧ s.dev.standbyRefuses = false
      ∧ s.dev.key.session.bind (·.transport) = some t ∧ s.dev.latched = false ∧ 1 ≤ s.dev.get F.KEY_CMD_ARG_KIND ∧ s.dev.get
      F.KEY_CMD_ARG_KIND ≤ 6 ∧ s.dev.clo.candidate = some c) ∧
    (∃ (s : State) (t : _), s.dev.flag F.KEY_CMD_BUSY = false ∧ s.dev.keyLocked = false ∧ s.dev.standbyRefuses = false ∧
      s.dev.key.session.bind (·.transport) = some t ∧ s.dev.latched = false ∧ s.dev.get F.KEY_CMD_ARG_KIND = Kind.sign ∧
      s.dev.clo.candidate = none ∧ s.dev.drbgRuns = true) ∧
    (∃ (s : State) (t : _), s.dev.flag F.KEY_CMD_BUSY = false ∧ s.dev.keyLocked = false ∧ s.dev.standbyRefuses = false ∧
      s.dev.key.session.bind (·.transport) = some t ∧ s.dev.latched = false ∧ s.dev.get F.KEY_CMD_ARG_KIND = Kind.sign ∧
      s.dev.clo.candidate = none ∧ s.dev.drbgRuns = false) ∧
    (∃ (s : State), s.dev.flag F.KEY_CMD_BUSY = false ∧ s.dev.keyLocked = false ∧ s.dev.standbyRefuses = false ∧
      s.dev.key.session.bind (·.transport) = none) ∧
    (∃ (s : State) (t : _) (c : _), s.dev.flag F.KEY_CMD_BUSY = false ∧ s.dev.keyLocked = false ∧ s.dev.standbyRefuses = false
      ∧ s.dev.key.session.bind (·.transport) = some t ∧ s.dev.latched = false ∧ s.dev.clo.candidate = some c ∧ c.verified =
      true ∧ s.dev.slotFree c = true ∧ c.kind = Kind.sign) ∧
    (∃ (s : State) (t : _) (c : _), s.dev.flag F.KEY_CMD_BUSY = false ∧ s.dev.keyLocked = false ∧ s.dev.standbyRefuses = false
      ∧ s.dev.key.session.bind (·.transport) = some t ∧ s.dev.latched = false ∧ s.dev.clo.candidate = some c ∧ c.verified =
      true ∧ s.dev.slotFree c = false) ∧
    (∃ (s : State) (t : _) (c : _), s.dev.flag F.KEY_CMD_BUSY = false ∧ s.dev.keyLocked = false ∧ s.dev.standbyRefuses = false
      ∧ s.dev.key.session.bind (·.transport) = some t ∧ s.dev.clo.candidate = some c) ∧
    (∃ (s : State) (slot : Nat) (t : _), s.dev.flag F.KEY_CMD_BUSY = false ∧ s.dev.keyLocked = false ∧ s.dev.standbyRefuses =
      false ∧ s.dev.key.session.bind (·.transport) = some t ∧ s.dev.latched = false ∧ s.dev.slotInUse slot = false) ∧
    (∃ (s : State) (slot : Nat) (t : _), s.dev.flag F.KEY_CMD_BUSY = false ∧ s.dev.keyLocked = false ∧ s.dev.standbyRefuses =
      false ∧ s.dev.key.session.bind (·.transport) = some t ∧ s.dev.latched = false ∧ s.dev.slotInUse slot = true) ∧
    (∃ (s : State) (slot : Nat) (v : _) (w : _), s.dev.flag F.KEY_CMD_BUSY = false ∧ s.dev.keyLocked = false ∧
      s.dev.standbyRefuses = false ∧ s.dev.workKey Kind.storeKek slot = some v ∧ s.dev.workKey Kind.storeKek (s.dev.get
      F.KEY_CMD_ARG_TARGET) = some w ∧ s.dev.dur.keys = []) ∧
    (∃ (s : State) (slot : Nat) (v : _) (w : _) (m : _) (k : _) (l : _), s.dev.flag F.KEY_CMD_BUSY = false ∧ s.dev.keyLocked =
      false ∧ s.dev.standbyRefuses = false ∧ s.dev.workKey Kind.storeKek slot = some v ∧ s.dev.workKey Kind.storeKek
      (s.dev.get F.KEY_CMD_ARG_TARGET) = some w ∧ s.dev.dur.keys = (m, k) :: l ∧ Maps.has s.dev.eng.flight m = true) :=
  ⟨⟨st [(F.KEY_CMD_ARG_KIND, 3)] fun d => { d with key := { d.key with session := some ⟨11, 12, some 7, 0⟩ } }, 7, 3, by decide⟩,
   ⟨st [(F.KEY_CMD_ARG_KIND, 3)] fun d =>
      { d with key := { d.key with session := some ⟨11, 12, some 7, 0⟩ }, clo := { d.clo with candidate := some ⟨3, 4, 99, true⟩ } },
      7, ⟨3, 4, 99, true⟩, by decide⟩,
   ⟨st [(F.KEY_CMD_ARG_KIND, 4), (F.KEY_STATUS_DRBG_RUN, 1)] fun d =>
      { d with key := { d.key with session := some ⟨11, 12, some 7, 0⟩ } }, 7, by decide⟩,
   ⟨st [(F.KEY_CMD_ARG_KIND, Kind.sign)] fun d => { d with key := { d.key with session := some ⟨11, 12, some 7, 0⟩ } }, 7, by
      decide⟩,
   ⟨st [], by decide⟩,
   ⟨st [] fun d =>
      { d with key := { d.key with session := some ⟨11, 12, some 7, 0⟩ }, clo := { d.clo with candidate := some ⟨3, 4, 99, true⟩ } },
      7, ⟨3, 4, 99, true⟩, by decide⟩,
   ⟨st [] fun d =>
      { d with key := { d.key with session := some ⟨11, 12, some 7, 0⟩ }, clo := { d.clo with candidate := some ⟨3, 1, 99, true⟩, vault := [(3, ⟨1, 2⟩)] } },
      7, ⟨3, 1, 99, true⟩, by decide⟩,
   ⟨st [(F.KEY_STATUS_CAND_VERIFIED, 1)] fun d =>
      { d with key := { d.key with session := some ⟨11, 12, some 7, 0⟩ }, clo := { d.clo with candidate := some ⟨3, 4, 99, true⟩ } },
      7, ⟨3, 4, 99, true⟩, by decide⟩,
   ⟨st [(F.ING_RECORD_SIGN_SLOT, 5)] fun d =>
      { d with key := { d.key with session := some ⟨11, 12, some 7, 0⟩, working := [(3, ⟨4, 1, 7⟩)] }, clo := { d.clo with vault := [(3, ⟨1, 2⟩)] }, dur := { d.dur with roots := [(3, ⟨4, 6, 9⟩)] } },
      3, 7, by decide⟩,
   ⟨st [(F.ING_RECORD_SIGN_SLOT, 3)] fun d =>
      { d with key := { d.key with session := some ⟨11, 12, some 7, 0⟩ }, clo := { d.clo with vault := [(3, ⟨1, 2⟩)] }, dur := { d.dur with roots := [(3, ⟨4, 6, 9⟩)] } },
      3, 7, by decide⟩,
   ⟨st [(F.KEY_CMD_ARG_TARGET, 4)] fun d => { d with key := { d.key with working := [(3, ⟨1, 1, 7⟩), (4, ⟨1, 1, 8⟩)] } }, 3,
      ⟨1, 1, 7⟩, ⟨1, 1, 8⟩, by decide⟩,
   ⟨st [(F.KEY_CMD_ARG_TARGET, 4)] fun d =>
      { d with key := { d.key with working := [(3, ⟨1, 1, 7⟩), (4, ⟨1, 1, 8⟩)] }, dur := { d.dur with keys := [(6, { cur := some ⟨3, 7, 1, 2, 3, false⟩ })] }, eng := { d.eng with flight := [(6, exItem .wantLane)] } },
      3, ⟨1, 1, 7⟩, ⟨1, 1, 8⟩, 6, { cur := some ⟨3, 7, 1, 2, 3, false⟩ }, [], by decide⟩⟩

theorem witness_KeyInstalls :
    (∃ (s : State) (e : InstallEntry) (i : _) (o : _), s.dev.flag F.KEY_CMD_BUSY = false ∧ s.dev.keyLocked = false ∧
      s.dev.standbyRefuses = false ∧ s.dev.installKeys = some (i, o) ∧ s.dev.get F.KEY_CMD_ARG_COUNT = 1 ∧ s.dev.standbySynced
      = false ∧ (Maps.get? (e.index % 1048576) s.dev.dur.ctxs).isSome = true ∧ e.flags = 0 ∧ (s.dev.meterKeys (e.index %
      1048576)) = {}) ∧
    (∃ (s : State) (e : InstallEntry) (i : _) (o : _), s.dev.flag F.KEY_CMD_BUSY = false ∧ s.dev.keyLocked = false ∧
      s.dev.standbyRefuses = false ∧ s.dev.installKeys = some (i, o) ∧ s.dev.get F.KEY_CMD_ARG_COUNT = 1 ∧ s.dev.standbySynced
      = false ∧ (Maps.get? (e.index % 1048576) s.dev.dur.ctxs) = none) ∧
    (∃ (s : State), s.dev.flag F.KEY_CMD_BUSY = false ∧ s.dev.keyLocked = false ∧ s.dev.standbyRefuses = false ∧
      s.dev.installKeys = none) ∧
    (∃ (s : State) (m : Nat) (k : _), s.dev.flag F.KEY_CMD_BUSY = false ∧ s.dev.keyLocked = false ∧ s.dev.standbyRefuses =
      false ∧ (Maps.get? m s.dev.dur.ctxs).isSome = true ∧ s.dev.idleMeter m = true ∧ (s.dev.meterKeys m).cand = some k ∧
      s.dev.standbySynced = false) ∧
    (∃ (s : State) (m : Nat), s.dev.flag F.KEY_CMD_BUSY = false ∧ s.dev.keyLocked = false ∧ s.dev.standbyRefuses = false ∧
      (Maps.get? m s.dev.dur.ctxs).isSome = true ∧ s.dev.idleMeter m = false) ∧
    (∃ (s : State) (e : InstallEntry) (i : _) (o : _) (h : _), s.dev.flag F.KEY_CMD_BUSY = false ∧ s.dev.keyLocked = false ∧
      s.dev.standbyRefuses = false ∧ s.dev.installKeys = some (i, o) ∧ s.dev.get F.KEY_CMD_ARG_COUNT = 1 ∧ s.dev.standbySynced
      = false ∧ h = e.index % 1048576 ∧ (Maps.get? h s.dev.dur.heads).isSome = true ∧ e.flags = 0 ∧ Maps.getD
      s.dev.dur.headKeys h {} = ({} : KeyPair)) ∧
    (∃ (s : State) (h : Nat) (k : _), s.dev.flag F.KEY_CMD_BUSY = false ∧ s.dev.keyLocked = false ∧ s.dev.standbyRefuses =
      false ∧ (Maps.get? (h % 4096) s.dev.dur.heads).isSome = true ∧ (Maps.getD s.dev.dur.headKeys (h % 4096) {}).cand = some
      k ∧ s.dev.standbySynced = false) ∧
    (∃ (s : State) (e : InstallEntry) (i : _) (o : _) (c : _), s.dev.flag F.KEY_CMD_BUSY = false ∧ s.dev.keyLocked = false ∧
      s.dev.standbyRefuses = false ∧ s.dev.installKeys = some (i, o) ∧ s.dev.get F.KEY_CMD_ARG_COUNT = 1 ∧ s.dev.standbySynced
      = false ∧ c = e.index % 1048576 ∧ (s.dev.trellis.classes.any (·.classId == c)) = true ∧ e.flags = 0 ∧ Maps.getD
      s.dev.dur.classAks c {} = ({} : KeyPair)) :=
  ⟨⟨st [(F.KEY_KEK_IMPORT, 4), (F.KEY_KEK_STORE, 3), (F.KEY_CMD_ARG_COUNT, 1)] fun d =>
      { d with dur := { d.dur with ctxs := [(6, { address := 77, mbus := false, cls := 0, cal := 255 })] }, key := { d.key with working := [(3, ⟨1, 1, 7⟩), (4, ⟨2, 1, 8⟩)] } },
      ⟨6, 0, 3, 5, 6, 7⟩, ⟨2, 1, 8⟩, ⟨1, 1, 7⟩, by decide⟩,
   ⟨st [(F.KEY_KEK_IMPORT, 4), (F.KEY_KEK_STORE, 3), (F.KEY_CMD_ARG_COUNT, 1)] fun d =>
      { d with key := { d.key with working := [(3, ⟨1, 1, 7⟩), (4, ⟨2, 1, 8⟩)] } }, ⟨6, 0, 3, 5, 6, 7⟩, ⟨2, 1, 8⟩, ⟨1, 1, 7⟩,
      by decide⟩,
   ⟨st [(F.KEY_KEK_IMPORT, 4), (F.KEY_KEK_STORE, 3), (F.KEY_CMD_ARG_COUNT, 1)], by decide⟩,
   ⟨st [] fun d =>
      { d with dur := { d.dur with ctxs := [(6, { address := 77, mbus := false, cls := 0, cal := 255 })], keys := [(6, { cand := some ⟨3, 7, 1, 2, 3, false⟩ })] } },
      6, ⟨3, 7, 1, 2, 3, false⟩, by decide⟩,
   ⟨st [] fun d =>
      { d with dur := { d.dur with ctxs := [(6, { address := 77, mbus := false, cls := 0, cal := 255 })] }, eng := { d.eng with flight := [(6, exItem .wantLane)] } },
      6, by decide⟩,
   ⟨st [(F.KEY_KEK_IMPORT, 4), (F.KEY_KEK_STORE, 3), (F.KEY_CMD_ARG_COUNT, 1)] fun d =>
      { d with key := { d.key with working := [(3, ⟨1, 1, 7⟩), (4, ⟨2, 1, 8⟩)] }, dur := { d.dur with heads := [(5, { eui := 9, epoch := 1 })] } },
      ⟨5, 0, 3, 5, 6, 7⟩, ⟨2, 1, 8⟩, ⟨1, 1, 7⟩, 5, by decide⟩,
   ⟨st [] fun d =>
      { d with dur := { d.dur with heads := [(5, { eui := 9, epoch := 1 })], headKeys := [(5, { cand := some ⟨3, 7, 1, 2, 3, false⟩ })] } },
      4101, ⟨3, 7, 1, 2, 3, false⟩, by decide⟩,
   ⟨st [(F.PRL_STATUS_STATE, PairSt.active), (F.KEY_KEK_IMPORT, 4), (F.KEY_KEK_STORE, 3), (F.KEY_CMD_ARG_COUNT, 1)] fun d =>
      { withT ownT d with key := { d.key with working := [(3, ⟨1, 1, 7⟩), (4, ⟨2, 1, 8⟩)] } }, ⟨0, 0, 3, 5, 6, 7⟩, ⟨2, 1, 8⟩,
      ⟨1, 1, 7⟩, 0, by decide⟩⟩

theorem witness_BroadcastAndVault :
    (∃ (s : State) (t : Nat), s.dev.flag F.KEY_CMD_BUSY = false ∧ s.dev.keyLocked = false ∧ s.dev.standbyRefuses = false ∧
      (s.dev.workKey Kind.broadcast (s.dev.get F.KEY_BCAST_SLOT)).isSome = true ∧ s.dev.tsu.sec ≤ s.dev.wide R.KEY_BCAST_AT_LO
      R.KEY_BCAST_AT_HI 0 ∧ t < 4108) ∧
    (∃ (s : State), s.dev.flag F.KEY_CMD_BUSY = false ∧ s.dev.keyLocked = false ∧ s.dev.standbyRefuses = false ∧
      (s.dev.workKey Kind.broadcast (s.dev.get F.KEY_BCAST_SLOT)).isSome = true ∧ s.dev.wide R.KEY_BCAST_AT_LO
      R.KEY_BCAST_AT_HI 0 < s.dev.tsu.sec) ∧
    (∃ (s : State) (t : Nat) (r : _), s.dev.key.rolls.find? (·.1 == t) = some r ∧ r.2.1 ≤ s.dev.tsu.sec ∧ s.dev.armedBefore
      r.2.1 5 = []) ∧
    (∃ (s : State) (t : Nat) (r : _), s.dev.key.rolls.find? (·.1 == t) = some r ∧ s.dev.tsu.sec < r.2.1) ∧
    (∃ (s : State) (w : _), s.dev.flag F.KEY_CMD_BUSY = false ∧ s.dev.keyLocked = false ∧ s.dev.standbyRefuses = false ∧
      s.dev.workKey Kind.sign (s.dev.get F.ING_RECORD_SIGN_SLOT) = some w) ∧
    (∃ (s : State), s.dev.flag F.KEY_CMD_BUSY = false ∧ s.dev.keyLocked = false ∧ s.dev.standbyRefuses = false ∧ s.dev.workKey
      Kind.sign (s.dev.get F.ING_RECORD_SIGN_SLOT) = none) ∧
    (∃ (s : State), s.dev.clo.onBattery = false ∧ Maps.rising s.dev.clo.vault = true) ∧
    (∃ (s : State), s.dev.flag F.KEY_CMD_BUSY = false ∧ s.dev.flag F.CLO_TAMPER_LATCH_SOURCE = false ∧ s.dev.keyLocked = true
      ∧ (s.dev.key.lost.all fun p => (s.dev.slotMeta p.1).kind == 0 || ((s.dev.root? p.1).map fun r => kcvOf 16 r ==
      p.2.kcv).getD false) = true ∧ s.dev.prl.outAtStart = false ∧ s.dev.prl.up = false) ∧
    (∃ (s : State) (p : _), s.dev.flag F.KEY_CMD_BUSY = false ∧ s.dev.flag F.CLO_TAMPER_LATCH_SOURCE = false ∧ s.dev.keyLocked
      = true ∧ p ∈ s.dev.key.lost ∧ (s.dev.slotMeta p.1).kind ≠ 0 ∧ s.dev.root? p.1 = none) ∧
    (∃ (s : State), s.dev.flag F.KEY_CMD_BUSY = false ∧ s.dev.flag F.CLO_TAMPER_LATCH_SOURCE = true) :=
  ⟨⟨st [(F.KEY_BCAST_SLOT, 2)] fun d => { d with key := { d.key with working := [(2, ⟨5, 1, 7⟩)] } }, 4107, by decide⟩,
   ⟨st [(F.KEY_BCAST_SLOT, 2)] fun d =>
      { d with key := { d.key with working := [(2, ⟨5, 1, 7⟩)] }, tsu := { d.tsu with sec := 11 } }, by decide⟩,
   ⟨st [] fun d =>
      { d with tsu := { d.tsu with sec := 2 ^ 60 }, key := { d.key with rolls := [(7, 3, 2)] }, dur := { d.dur with bcast := [(7, 65535, 2)] } },
      7, (7, 3, 2), by decide⟩,
   ⟨st [] fun d =>
      { d with tsu := { d.tsu with sec := 2 }, key := { d.key with rolls := [(7, 3, 2)] }, dur := { d.dur with bcast := [(7, 65535, 2)] } },
      7, (7, 3, 2), by decide⟩,
   ⟨st [(F.ING_RECORD_SIGN_SLOT, 2)] fun d => { d with key := { d.key with working := [(2, ⟨4, 1, 7⟩)] } }, ⟨4, 1, 7⟩, by
      decide⟩,
   ⟨st [], by decide⟩,
   ⟨st [] fun d => { d with clo := { d.clo with vault := [(3, ⟨1, 2⟩), (5, ⟨4, 9⟩)] } }, by decide⟩,
   ⟨st [(F.KEY_STATUS_STATE, 1)], by decide⟩,
   ⟨st [(F.KEY_STATUS_STATE, 1)] fun d =>
      { d with key := { d.key with lost := [(3, ⟨1, 0, 5⟩)] }, dur := { d.dur with roots := [(3, ⟨1, 0, 5⟩)] } }, (3, ⟨1, 0,
      5⟩), by decide⟩,
   ⟨st [(F.KEY_STATUS_STATE, 1), (F.CLO_TAMPER_LATCH_SOURCE, 4)], by decide⟩⟩

theorem witness_PeriodClosure :
    (∃ (s : State) (i : _) (t : _), s.dev.serves = true ∧ s.dev.timeValid = true ∧ t ≤ s.dev.tsu.sec ∧ s.dev.armedBefore t 1 =
      [] ∧ s.dev.eventsBefore t 1 = [] ∧ (s.dev.timeEvents 1 i (s.dev.marked 1 i) t).contains t = true) ∧
    (∃ (s : State) (t : _), s.dev.timeValid = false ∧ s.dev.armedBefore t 1 = []) ∧
    (∃ (s : State) (t : _), s.dev.tsu.sec < t) ∧
    (∃ (s : State) (i : _) (t : _), s.dev.armedBefore t 1 = [] ∧ s.dev.eventsBefore t 1 = [] ∧ (s.dev.timeEvents 1 i
      (s.dev.marked 1 i) t).contains t = false) ∧
    (∃ (s : State) (i : _) (t : _), s.dev.serves = true ∧ s.dev.timeValid = true ∧ t ≤ s.dev.tsu.sec ∧ s.dev.armedBefore t 2 =
      [] ∧ s.dev.eventsBefore t 2 = [] ∧ (s.dev.timeEvents 2 i (s.dev.marked 2 i) t).contains t = true) ∧
    (∃ (s : State) (t : _), s.dev.tsu.sec < t) ∧
    (∃ (s : State) (i : Nat) (t : Nat), s.dev.serves = true ∧ s.dev.timeValid = true ∧ Maps.has s.dev.bil.sweeps i = false ∧
      s.dev.sweepDue i t = true) ∧
    (∃ (s : State) (i : Nat) (t : Nat), s.dev.sweepDue i t = false) ∧
    (∃ (s : State) (i : Nat) (t : _), Maps.get? i s.dev.bil.sweeps = some t ∧ s.dev.now ≤ 1000000000 * (t + s.dev.get
      F.BIL_CLOSE_GRACE)) ∧
    (∃ (s : State) (i : Nat) (t : _), Maps.get? i s.dev.bil.sweeps = some t ∧ 1000000000 * (t + s.dev.get F.BIL_CLOSE_GRACE) <
      s.dev.now ∧ (s.dev.sweepLeft i t).any s.dev.undecided = false) :=
  ⟨⟨st [(F.PRL_STATUS_STATE, PairSt.active), (F.TSU_STATUS_TIME_VALID, 1)] fun d =>
      { withT { balT with classes := [⟨0, 0, 0, 5, 0, 1, 3, 0, 900, 1000, [], []⟩] } d with tsu := { d.tsu with sec := 937 }, bil := { d.bil with upSec := 937 } },
      3, 937, by decide⟩,
   ⟨st active fun d => withT ownT d, 900, by decide⟩,
   ⟨st active fun d => withT ownT d, 900, by decide⟩,
   ⟨st [(F.PRL_STATUS_STATE, PairSt.active), (F.TSU_STATUS_TIME_VALID, 1)] fun d =>
      { withT { balT with classes := [⟨0, 0, 0, 5, 0, 1, 3, 0, 900, 1000, [], []⟩] } d with tsu := { d.tsu with sec := 938 }, bil := { d.bil with upSec := 938 } },
      3, 938, by decide⟩,
   ⟨st [(F.PRL_STATUS_STATE, PairSt.active), (F.TSU_STATUS_TIME_VALID, 1)] fun d =>
      { withT balT d with tsu := { d.tsu with sec := 86437 }, bil := { d.bil with upSec := 86437 } }, 3, 86437, by decide⟩,
   ⟨st active fun d => withT ownT d, 900, by decide⟩,
   ⟨st [(F.PRL_STATUS_STATE, PairSt.active), (F.TSU_STATUS_TIME_VALID, 1)] fun d =>
      { withT balT d with tsu := { d.tsu with sec := 200000 } }, 3, 86437, by decide⟩,
   ⟨st [(F.PRL_STATUS_STATE, PairSt.active), (F.TSU_STATUS_TIME_VALID, 1)] fun d => withT ownT d, 3, 900, by decide⟩,
   ⟨st active fun d => { withT ownT d with tsu := { d.tsu with sec := 900 }, bil := { d.bil with sweeps := [(3, 900)] } }, 3,
      900, by decide⟩,
   ⟨st active fun d => { withT ownT d with tsu := { d.tsu with sec := 9000 }, bil := { d.bil with sweeps := [(3, 900)] } }, 3,
      900, by decide⟩⟩

theorem witness_BalanceZones :
    (∃ (s : State) (b : Nat), s.dev.serves = true ∧ s.dev.timeValid = true ∧ balEnd s.dev.balMins s.dev.utc b + 60 *
      s.dev.balMins * s.dev.get F.BAL_CTRL_SETTLE ≤ s.dev.tsu.sec ∧ s.dev.wide R.BAL_LAST_B_LO R.BAL_LAST_B_HI 0 < b ∧
      s.dev.bil.base ≤ b ∧ s.dev.bil.eval = none) ∧
    (∃ (s : State) (b : Nat) (c : _), s.dev.serves = true ∧ s.dev.timeValid = true ∧ balEnd s.dev.balMins s.dev.utc b + 60 *
      s.dev.balMins * s.dev.get F.BAL_CTRL_SETTLE ≤ s.dev.tsu.sec ∧ s.dev.wide R.BAL_LAST_B_LO R.BAL_LAST_B_HI 0 < b ∧
      s.dev.bil.base ≤ b ∧ s.dev.bil.eval = some c ∧ c < b ∧ s.dev.bil.due.contains b = false) ∧
    (∃ (s : State) (b : Nat), b < s.dev.bil.base) ∧
    (∃ (s : State) (b : _), s.dev.bil.eval = some b ∧ b < 2 ^ 64 ∧ s.dev.bil.due = [] ∧ s.dev.bil.waiting = none) ∧
    (∃ (s : State) (i : Nat), s.dev.flag F.BAL_CMD_BUSY = false ∧ s.dev.standbyRefuses = false ∧ s.dev.attachCheck (i %
      1048576) (s.dev.get F.BAL_CMD_ZONE_ZONE) = 0 ∧ s.dev.bil.eval = none ∧ s.dev.standbySynced = false) ∧
    (∃ (s : State) (i : Nat) (r : _), s.dev.flag F.BAL_CMD_BUSY = false ∧ s.dev.standbyRefuses = false ∧ r = s.dev.attachCheck
      (i % 1048576) (s.dev.get F.BAL_CMD_ZONE_ZONE) ∧ r ≠ 0) ∧
    (∃ (s : State) (i : Nat) (m : _), s.dev.flag F.BAL_CMD_BUSY = false ∧ s.dev.standbyRefuses = false ∧ (Maps.get? (i %
      1048576) s.dev.dur.ctxs).isSome = true ∧ Maps.get? (i % 1048576) s.dev.dur.bal.members = some m ∧ s.dev.bil.eval = none
      ∧ s.dev.standbySynced = false) ∧
    (∃ (s : State) (i : Nat) (m : _) (e : _), s.dev.flag F.BAL_CMD_BUSY = false ∧ s.dev.standbyRefuses = false ∧ (Maps.get? (i
      % 1048576) s.dev.dur.ctxs).isSome = true ∧ Maps.get? (i % 1048576) s.dev.dur.bal.members = some m ∧ s.dev.bil.eval =
      some e) ∧
    (∃ (s : State) (i : Nat) (z : _), s.dev.flag F.BAL_CMD_BUSY = false ∧ s.dev.zoneRec? (i % 65536) = some z ∧ z.zone <
      65536) ∧
    (∃ (s : State) (i : Nat), s.dev.flag F.BAL_CMD_BUSY = false ∧ s.dev.zoneRec? (i % 65536) = none) ∧
    (∃ (s : State) (i : Nat), s.dev.flag F.BAL_CMD_BUSY = false ∧ (Maps.get? (i % 1048576) s.dev.dur.ctxs).isSome = true) :=
  ⟨⟨st [(F.PRL_STATUS_STATE, PairSt.active), (F.TSU_STATUS_TIME_VALID, 1)] fun d =>
      { withT balT d with tsu := { d.tsu with sec := 20000 } }, 2, by decide⟩,
   ⟨st [(F.PRL_STATUS_STATE, PairSt.active), (F.TSU_STATUS_TIME_VALID, 1)] fun d =>
      { withT balT d with tsu := { d.tsu with sec := 20000 }, bil := { d.bil with eval := some 1 } }, 2, 1, by decide⟩,
   ⟨st [] fun d => { d with bil := { d.bil with base := 5 } }, 4, by decide⟩,
   ⟨st active fun d => { withT balT d with bil := { d.bil with eval := some 4 } }, 4, by decide⟩,
   ⟨st [(F.PRL_STATUS_STATE, PairSt.active), (F.BAL_CMD_ZONE_ZONE, 1)] fun d =>
      { withT balT d with dur := { d.dur with ctxs := [(6, { address := 77, mbus := false, cls := 0, cal := 255 })] } },
      1048582, by decide⟩,
   ⟨st [(F.PRL_STATUS_STATE, PairSt.active), (F.BAL_CMD_ZONE_ZONE, 7)] fun d =>
      { withT balT d with dur := { d.dur with ctxs := [(6, { address := 77, mbus := false, cls := 0, cal := 255 })] } }, 6, 2,
      by decide⟩,
   ⟨st active fun d =>
      { withT balT d with dur := { d.dur with ctxs := [(6, { address := 77, mbus := false, cls := 0, cal := 255 })], bal := { members := [(6, { zone := 1, noRank := false, generation := false, since := 5, base := 3 })] } } },
      6, { zone := 1, noRank := false, generation := false, since := 5, base := 3 }, by decide⟩,
   ⟨st active fun d =>
      { withT balT d with dur := { d.dur with ctxs := [(6, { address := 77, mbus := false, cls := 0, cal := 255 })], bal := { members := [(6, { zone := 1, noRank := false, generation := false, since := 5, base := 3 })] } }, bil := { d.bil with eval := some 4 } },
      6, { zone := 1, noRank := false, generation := false, since := 5, base := 3 }, 4, by decide⟩,
   ⟨st active fun d => withT balT d, 65537, ⟨1, 0, 0, 0, 96, 0, 0, 0, 100⟩, by decide⟩,
   ⟨st active fun d => withT balT d, 9, by decide⟩,
   ⟨st active fun d =>
      { withT balT d with dur := { d.dur with ctxs := [(6, { address := 77, mbus := false, cls := 0, cal := 255 })] } }, 6, by
      decide⟩⟩

theorem witness_NandPrograms :
    (∃ (s : State), s.dev.media = Media.normal) ∧
    (∃ (s : State) (n : Nat) (b : Nat), s.dev.media = Media.normal ∧ (s.dev.block n b).programmed = none) ∧
    (∃ (s : State) (n : Nat) (b : Nat) (x : _), s.dev.media = Media.normal ∧ (s.dev.block n b).retired = false ∧ Maps.get? n
      s.dev.nfm.dies = some x ∧ 0 < x.spares) ∧
    (∃ (s : State) (n : Nat) (b : Nat) (x : _), s.dev.media = Media.normal ∧ (s.dev.block n b).retired = false ∧ Maps.get? n
      s.dev.nfm.dies = some x ∧ x.spares = 0) ∧
    (∃ (s : State) (n : _) (b : _) (temp : _) (l : Nat) (c : Nat) (i : _), l < 2 ∧ c ≤ s.dev.get F.NFM_RETRY_REFRESH ∧ i =
      s.dev.thresholdIndex (s.dev.block n b) temp) ∧
    (∃ (s : State) (l : Nat), 5 ≤ l ∧ s.dev.media = Media.normal) ∧
    (∃ (s : State) (c : Nat) (p : _), s.dev.nfm.rakeRunning = true ∧ 100 ≤ p ∧ c ≤ s.dev.get F.NFM_RETRY_REFRESH) ∧
    (∃ (s : State) (n : _) (x : _), s.dev.media = Media.normal ∧ s.dev.glb.powerFail = false ∧ s.dev.nfm.dies = [(n, x)] ∧
      s.dev.get F.NFM_WEAR_SPREAD < x.spread ∧ x.lastMove = none ∧ s.dev.nfm.moving = []) ∧
    (∃ (s : State) (n : _), s.dev.media = Media.normal ∧ s.dev.nfm.moving.contains n = true) ∧
    (∃ (s : State), s.dev.nfm.rakeRunning = false ∧ s.dev.media = Media.normal) ∧
    (∃ (s : State), s.dev.nfm.rakeRunning = false ∧ s.dev.media = Media.normal ∧ s.dev.nfm.rakeAt = none) ∧
    (∃ (s : State) (t : _), s.dev.nfm.rakeRunning = false ∧ s.dev.media = Media.normal ∧ s.dev.nfm.rakeAt = some t) ∧
    (∃ (s : State), s.dev.nfm.rakeRunning = true) ∧
    (∃ (s : State) (h : _), s.dev.nfm.rakeRunning = true ∧ h = s.dev.rakeLate ∧ 12 ≤ h ∧ s.dev.flag F.NFM_STATUS_RAKE_BEHIND =
      false) :=
  ⟨⟨st nandOn, by decide⟩,
   ⟨st nandOn, 0, 7, by decide⟩,
   ⟨st nandOn fun d =>
      { d with nfm := { d.nfm with dies := [(0, { spares := 3, reserved := 30, peMax := 9, peMin := 2, peSum := 20, blocks := 100 })] } },
      0, 7, { spares := 3, reserved := 30, peMax := 9, peMin := 2, peSum := 20, blocks := 100 }, by decide⟩,
   ⟨st nandOn fun d =>
      { d with nfm := { d.nfm with dies := [(0, { spares := 0, reserved := 30, blocks := 100 })], filling := [4] } }, 0, 7,
      { spares := 0, reserved := 30, blocks := 100 }, by decide⟩,
   ⟨st nandOn, 1, 7, 20, 1, 0, _, by decide, by decide, rfl⟩,
   ⟨st nandOn fun d =>
      { d with nfm := { d.nfm with dies := [(0, { spares := 3, reserved := 30, peMax := 9, peMin := 2, peSum := 20, blocks := 100 })] } },
      5, by decide⟩,
   ⟨st nandOn fun d => { d with nfm := { d.nfm with rakeRunning := true } }, 0, 100, by decide⟩,
   ⟨st [(F.NFM_STATUS_STATE, Media.normal), (F.NFM_WEAR_SPREAD, 5)] fun d =>
      { d with nfm := { d.nfm with dies := [(0, { spares := 3, reserved := 30, peMax := 9, peMin := 2, peSum := 20, blocks := 100 })] } },
      0, { spares := 3, reserved := 30, peMax := 9, peMin := 2, peSum := 20, blocks := 100 }, by decide⟩,
   ⟨st [(F.NFM_STATUS_STATE, Media.normal), (F.NFM_WEAR_SPREAD, 5)] fun d =>
      { d with nfm := { d.nfm with dies := [(0, { spares := 3, reserved := 30, peMax := 9, peMin := 2, peSum := 20, blocks := 100 })], moving := [0] } },
      0, by decide⟩,
   ⟨st nandOn, by decide⟩,
   ⟨st nandOn fun d =>
      { d with nfm := { d.nfm with dies := [(0, { spares := 3, reserved := 30, peMax := 9, peMin := 2, peSum := 20, blocks := 100 })] } },
      by decide⟩,
   ⟨st nandOn fun d => { d with cycles := 2 ^ 60, nfm := { d.nfm with rakeAt := some 5 } }, 5, by decide⟩,
   ⟨st nandOn fun d => { d with nfm := { d.nfm with rakeRunning := true } }, by decide⟩,
   ⟨st nandOn fun d => { d with cycles := 2 ^ 60, nfm := { d.nfm with rakeRunning := true, rakeAt := some 5 } }, _, by decide,
      rfl, by decide⟩⟩

theorem witness_Checkpoints :
    (∃ (s : State) (u : Bool), s.dev.jnl.ckptBusy = none ∧ s.dev.media = Media.normal ∧ s.dev.glb.powerFail = false ∧ (if u
      then 1000 * s.dev.get F.JNL_CKPT_UNITS ≤ s.dev.jnl.readings else s.dev.jnl.ckptAt + s.dev.get F.JNL_CKPT_PERIOD * 60 *
      secCycles ≤ s.dev.cycles)) ∧
    (∃ (s : State), s.dev.jnl.readings < 1000 * s.dev.get F.JNL_CKPT_UNITS) ∧
    (∃ (s : State), s.dev.jnl.ckptBusy = none ∧ s.dev.media = Media.normal ∧ s.dev.glb.powerFail = false) ∧
    (∃ (s : State) (l : _) (u : _), s.dev.media = Media.normal ∧ s.dev.glb.powerFail = false ∧ s.dev.jnl.ckptBusy = some (l,
      u) ∧ l < 2 ^ 64) ∧
    (∃ (s : State), s.dev.media = Media.readOnly) ∧
    (∃ (s : State), s.dev.media ≠ Media.offline ∧ s.dev.nfm.directory = true) ∧
    (∃ (s : State), s.dev.media = Media.unformatted ∧ s.dev.nfm.directory = false ∧ (((List.range 3).map fun i =>
      s.dev.nfm.stripesFor (s.dev.get (F.NFM_PART_n_SIZE.at (i + 1)))).sum) < s.dev.nfm.blockStripes) ∧
    (∃ (s : State), s.dev.media = Media.normal ∧ s.dev.get F.NFM_HOST_LEN_LENGTH < 180) ∧
    (∃ (s : State), s.dev.media = Media.normal ∧ 180 ≤ s.dev.get F.NFM_HOST_LEN_LENGTH ∧ s.dev.nfm.oldest ≤ s.dev.wide
      R.NFM_ARCH_SEQ_LO R.NFM_ARCH_SEQ_HI 0) :=
  ⟨⟨st [(F.NFM_STATUS_STATE, Media.normal), (F.JNL_CKPT_UNITS, 1)] fun d => { d with jnl := { d.jnl with readings := 1000 } },
      true, by decide⟩,
   ⟨st [(F.NFM_STATUS_STATE, Media.normal), (F.JNL_CKPT_UNITS, 1)], by decide⟩,
   ⟨st nandOn, by decide⟩,
   ⟨st nandOn fun d => { d with jnl := { d.jnl with ckptBusy := some (9, {}) } }, 9, {}, by decide⟩,
   ⟨st [(F.NFM_STATUS_STATE, Media.readOnly)], by decide⟩,
   ⟨st nandOn fun d => { d with nfm := { d.nfm with directory := true } }, by decide⟩,
   ⟨st [(F.NFM_STATUS_STATE, Media.unformatted)] fun d =>
      { d with nfm := { d.nfm with dies := [(0, { spares := 0, reserved := 0, blocks := 100 })], stripesPerEpoch := 10000000 }, jnl := { d.jnl with lastSeq := 8 } },
      by decide⟩,
   ⟨st [(F.NFM_STATUS_STATE, Media.normal), (F.NFM_HOST_LEN_LENGTH, 179)], by decide⟩,
   ⟨st [(F.NFM_STATUS_STATE, Media.normal), (F.NFM_HOST_LEN_LENGTH, 180)], by decide⟩⟩

theorem witness_PairCommands :
    (∃ (s : State), s.dev.flag F.PRL_CMD_BUSY = false ∧ s.dev.prl.up = true ∧ s.dev.pairState = PairSt.active ∧ s.dev.lineHigh
      1 = true ∧ s.dev.prl.handover = none ∧ s.dev.prl.outstanding ≠ []) ∧
    (∃ (s : State), s.dev.flag F.PRL_CMD_BUSY = false ∧ s.dev.prl.up = true ∧ s.dev.pairState = PairSt.active ∧ s.dev.lineHigh
      1 = true ∧ s.dev.prl.handover = none ∧ s.dev.prl.outstanding = [] ∧ s.dev.eng.flight = []) ∧
    (∃ (s : State), s.dev.flag F.PRL_CMD_BUSY = false ∧ s.dev.prl.up = true ∧ s.dev.pairState = PairSt.active ∧ s.dev.lineHigh
      1 = false) ∧
    (∃ (s : State), s.dev.flag F.PRL_CMD_BUSY = false ∧ s.dev.prl.up = true ∧ s.dev.pairState = PairSt.standby ∧
      s.dev.lineHigh 1 = true) ∧
    (∃ (s : State), s.dev.flag F.PRL_CMD_BUSY = false ∧ s.dev.prl.up = true ∧ s.dev.pairState = PairSt.active) ∧
    (∃ (s : State), s.dev.flag F.PRL_CMD_BUSY = false ∧ s.dev.prl.up = true ∧ s.dev.pairState = PairSt.syncing) ∧
    (∃ (s : State), s.dev.flag F.PRL_CMD_BUSY = false ∧ s.dev.prl.up = true ∧ s.dev.pairState = PairSt.standby) ∧
    (∃ (s : State), s.dev.flag F.PRL_CMD_BUSY = false ∧ s.dev.prl.up = true ∧ s.dev.pairState ≠ PairSt.unpaired) :=
  ⟨⟨st [(F.PRL_STATUS_STATE, PairSt.active), (F.PRL_SIDEBAND_LEVEL, 2)] fun d =>
      { withT pairT d with prl := { d.prl with up := true, outstanding := [⟨3, 0, none⟩] } }, by decide⟩,
   ⟨st [(F.PRL_STATUS_STATE, PairSt.active), (F.PRL_SIDEBAND_LEVEL, 2)] fun d =>
      { withT pairT d with prl := { d.prl with up := true } }, by decide⟩,
   ⟨st active fun d => { withT pairT d with prl := { d.prl with up := true } }, by decide⟩,
   ⟨st [(F.PRL_STATUS_STATE, PairSt.standby), (F.PRL_SIDEBAND_LEVEL, 2)] fun d =>
      { withT pairT d with prl := { d.prl with up := true } }, by decide⟩,
   ⟨st active fun d => { withT pairT d with prl := { d.prl with up := true } }, by decide⟩,
   ⟨st [(F.PRL_STATUS_STATE, PairSt.syncing)] fun d => { withT pairT d with prl := { d.prl with up := true } }, by decide⟩,
   ⟨st standby fun d => { withT pairT d with prl := { d.prl with up := true } }, by decide⟩,
   ⟨st [(F.PRL_STATUS_STATE, PairSt.standby), (F.PRL_STATUS_NONREVERTIVE, 1), (F.HLT_CONDITION_NONREVERTIVE, 1)] fun d =>
      { withT pairT d with prl := { d.prl with up := true } }, by decide⟩⟩

theorem witness_FaultVerdicts :
    (∃ (s : State) (c : Nat), s.dev.prl.up = true ∧ s.dev.pairState = PairSt.active ∧ stopClass c = true) ∧
    (∃ (s : State) (c : Nat), s.dev.prl.up = true ∧ s.dev.pairState = PairSt.active ∧ stopClass c = false ∧ s.dev.lineHigh 1 =
      false ∧ s.dev.prl.causes.contains c = false) ∧
    (∃ (s : State) (c : Nat), s.dev.prl.up = true ∧ s.dev.pairState = PairSt.active ∧ stopClass c = false ∧ s.dev.lineHigh 1 =
      true) ∧
    (∃ (s : State), s.dev.prl.up = true ∧ s.dev.pairState = PairSt.active ∧ s.dev.get F.PRL_HOST_BEAT_TIMEOUT ≠ 0 ∧
      s.dev.prl.beatAt + s.dev.get F.PRL_HOST_BEAT_TIMEOUT * msCycles < s.dev.cycles ∧ s.dev.lineHigh 1 = true) ∧
    (∃ (s : State), s.dev.get F.PRL_HOST_BEAT_TIMEOUT = 0) ∧
    (∃ (s : State), s.dev.prl.up = true ∧ s.dev.pairState ≠ PairSt.out ∧ 0x0B ∈ s.dev.prl.causes) ∧
    (∃ (s : State), s.dev.prl.up = true ∧ s.dev.pairState = PairSt.standby) ∧
    (∃ (s : State), s.dev.pairState = PairSt.unpaired ∧ s.dev.glb.inReset = false) ∧
    (∃ (s : State), s.dev.prl.up = true ∧ s.dev.pairState = PairSt.out ∧ s.dev.prl.lastYield = 0x80 ∧ s.dev.prl.causes = [] ∧
      s.dev.prl.yieldAt + msCycles ≤ s.dev.cycles) ∧
    (∃ (s : State) (c : Nat), s.dev.prl.up = true ∧ s.dev.pairState = PairSt.out ∧ c ≠ 0x80 ∧ s.dev.prl.causes = [c] ∧
      s.dev.prl.lastYield = c ∧ s.dev.prl.outAtStart = false) ∧
    (∃ (s : State) (c : Nat) (x : _), s.dev.prl.up = true ∧ s.dev.pairState = PairSt.out ∧ c ≠ 0x80 ∧ x ≠ c ∧ stopClass x =
      true ∧ s.dev.prl.causes = [c, x]) :=
  ⟨⟨st active fun d => { withT pairT d with prl := { d.prl with up := true } }, 6, by decide⟩,
   ⟨st active fun d => { withT pairT d with prl := { d.prl with up := true } }, 7, by decide⟩,
   ⟨st [(F.PRL_STATUS_STATE, PairSt.active), (F.PRL_SIDEBAND_LEVEL, 2)] fun d =>
      { withT pairT d with prl := { d.prl with up := true } }, 7, by decide⟩,
   ⟨st [(F.PRL_STATUS_STATE, PairSt.active), (F.PRL_SIDEBAND_LEVEL, 2), (F.PRL_HOST_BEAT_TIMEOUT, 4)] fun d =>
      { withT pairT d with cycles := 2 ^ 60, prl := { d.prl with up := true } }, by decide⟩,
   ⟨st [(F.PRL_STATUS_STATE, PairSt.active), (F.PRL_HOST_BEAT_TIMEOUT, 0)] fun d =>
      { withT pairT d with prl := { d.prl with up := true } }, by decide⟩,
   ⟨st standby fun d => { withT pairT d with prl := { d.prl with up := true, causes := [11] } }, by decide⟩,
   ⟨st standby fun d => { withT pairT d with prl := { d.prl with up := true } }, by decide⟩,
   ⟨st [(F.PRL_STATUS_STATE, PairSt.unpaired)] fun d => { withT pairT d with prl := { d.prl with up := true } }, by decide⟩,
   ⟨st [(F.PRL_STATUS_STATE, PairSt.out)] fun d =>
      { withT pairT d with cycles := 2 ^ 60, prl := { d.prl with up := true, lastYield := 0x80 } }, by decide⟩,
   ⟨st [(F.PRL_STATUS_STATE, PairSt.out)] fun d =>
      { withT pairT d with prl := { d.prl with up := true, lastYield := 7, causes := [7] } }, 7, by decide⟩,
   ⟨st [(F.PRL_STATUS_STATE, PairSt.out)] fun d =>
      { withT pairT d with prl := { d.prl with up := true, lastYield := 7, causes := [7, 5] } }, 7, 5, by decide⟩⟩

theorem witness_PairNegotiation :
    (∃ (s : State) (l : Nat) (h : _), s.dev.prl.up = true ∧ s.dev.pairState = PairSt.listen ∧ bitAt l 0 = true ∧ bitAt l 3 =
      true ∧ s.dev.prl.hello = some h ∧ h.confirmed < s.dev.jnl.mirrored) ∧
    (∃ (s : State) (l : Nat) (h : _), s.dev.prl.up = true ∧ s.dev.pairState = PairSt.listen ∧ bitAt l 0 = true ∧ bitAt l 3 =
      true ∧ s.dev.prl.hello = some h ∧ s.dev.jnl.mirrored < h.confirmed) ∧
    (∃ (s : State) (l : Nat), s.dev.prl.up = true ∧ s.dev.pairState = PairSt.listen ∧ bitAt l 0 = true ∧ bitAt l 3 = false) ∧
    (∃ (s : State) (l : Nat) (t : _), s.dev.prl.up = true ∧ s.dev.pairState = PairSt.listen ∧ bitAt l 0 = false ∧
      s.dev.prl.lowSince = some t ∧ t + s.dev.get F.PRL_PAIR_CFG_NEGOTIATE * msCycles ≤ s.dev.cycles) ∧
    (∃ (s : State) (l : Nat), s.dev.prl.up = true ∧ s.dev.pairState = PairSt.listen ∧ bitAt l 0 = true ∧ bitAt l 3 = true ∧
      s.dev.prl.hello = none ∧ s.dev.prl.listenAt + s.dev.get F.PRL_PAIR_CFG_NEGOTIATE * msCycles < s.dev.cycles) ∧
    (∃ (s : State), s.dev.prl.up = true ∧ s.dev.pairState = PairSt.standby) ∧
    (∃ (s : State) (h : _), s.dev.prl.up = true ∧ s.dev.pairState = PairSt.standby ∧ s.dev.prl.hello = some h ∧ h.cause < 256) ∧
    (∃ (s : State), s.dev.prl.up = true ∧ s.dev.pairState = PairSt.active) ∧
    (∃ (s : State), s.dev.prl.up = true ∧ s.dev.pairState = PairSt.active ∧ bitAt s.dev.prl.lines 1 = true ∧
      s.dev.prl.handover = none ∧ s.dev.eng.flight = [] ∧ s.dev.prl.outstanding = []) ∧
    (∃ (s : State), s.dev.prl.up = true ∧ s.dev.pairState = PairSt.active ∧ bitAt s.dev.prl.lines 1 = true ∧
      s.dev.prl.handover = none ∧ s.dev.prl.outstanding ≠ []) ∧
    (∃ (s : State) (c : _), s.dev.prl.up = true ∧ s.dev.pairState = PairSt.active ∧ s.dev.prl.held = some c) ∧
    (∃ (s : State), s.dev.prl.up = true ∧ s.dev.pairState = PairSt.active) ∧
    (∃ (s : State) (t : _), s.dev.pairState = PairSt.standby ∧ s.dev.prl.standbySince = some t ∧ t + s.dev.get
      F.PRL_HOLDOFF_SECONDS * secCycles ≤ s.dev.cycles ∧ s.dev.fit = true ∧ s.dev.lineHigh 1 = true ∧ s.dev.flag
      F.PRL_STATUS_REVERT_PENDING = true ∧ s.dev.flag F.PRL_STATUS_NONREVERTIVE = false ∧ s.dev.flag F.PRL_PAIR_CFG_REVERTIVE
      = true ∧ s.dev.flag F.PRL_PAIR_CFG_PREFERRED = true) ∧
    (∃ (s : State) (t : _), s.dev.prl.probation = some t ∧ t ≤ s.dev.cycles) ∧
    (∃ (s : State) (a : _) (b : _), s.dev.get F.PRL_DRILL_SELF_AGE = a ∧ s.dev.get F.PRL_DRILL_PARTNER_AGE = b ∧ a < 0xFFFF ∧
      b < 0xFFFF ∧ s.dev.prl.controlSince = none ∧ s.dev.prl.partnerSince = none ∧ s.dev.prl.drillAt + 86400 * secCycles ≤
      s.dev.cycles) ∧
    (∃ (s : State), s.dev.get F.PRL_DRILL_SELF_AGE = 30 ∧ s.dev.prl.controlSince = none ∧ s.dev.pairState ≠ PairSt.unpaired ∧
      s.dev.prl.drillAt + 86400 * secCycles ≤ s.dev.cycles) :=
  ⟨⟨st [(F.PRL_STATUS_STATE, PairSt.listen)] fun d =>
      { withT pairT d with prl := { d.prl with up := true, hello := some ⟨0, 0, 4, 0, 0⟩ }, jnl := { d.jnl with mirrored := 5 } },
      9, ⟨0, 0, 4, 0, 0⟩, by decide⟩,
   ⟨st [(F.PRL_STATUS_STATE, PairSt.listen)] fun d =>
      { withT pairT d with prl := { d.prl with up := true, hello := some ⟨0, 0, 6, 0, 0⟩ }, jnl := { d.jnl with mirrored := 5 } },
      9, ⟨0, 0, 6, 0, 0⟩, by decide⟩,
   ⟨st [(F.PRL_STATUS_STATE, PairSt.listen)] fun d => { withT pairT d with prl := { d.prl with up := true } }, 1, by decide⟩,
   ⟨st [(F.PRL_STATUS_STATE, PairSt.listen)] fun d =>
      { withT pairT d with cycles := 2 ^ 60, prl := { d.prl with up := true, lowSince := some 5 } }, 8, 5, by decide⟩,
   ⟨st [(F.PRL_STATUS_STATE, PairSt.listen)] fun d =>
      { withT pairT d with cycles := 2 ^ 60, prl := { d.prl with up := true } }, 9, by decide⟩,
   ⟨st standby fun d => { withT pairT d with prl := { d.prl with up := true } }, by decide⟩,
   ⟨st standby fun d => { withT pairT d with prl := { d.prl with up := true, hello := some ⟨3, 0x80, 0, 0, 0⟩ } }, ⟨3, 0x80,
      0, 0, 0⟩, by decide⟩,
   ⟨st active fun d => { withT pairT d with prl := { d.prl with up := true } }, by decide⟩,
   ⟨st active fun d => { withT pairT d with prl := { d.prl with up := true, lines := 2 } }, by decide⟩,
   ⟨st active fun d => { withT pairT d with prl := { d.prl with up := true, lines := 2, outstanding := [⟨3, 0, none⟩] } }, by
      decide⟩,
   ⟨st active fun d => { withT pairT d with prl := { d.prl with up := true, held := some 7 } }, 7, by decide⟩,
   ⟨st active fun d => { withT pairT d with prl := { d.prl with up := true } }, by decide⟩,
   ⟨st [(F.PRL_STATUS_STATE, PairSt.standby), (F.PRL_SIDEBAND_LEVEL, 2), (F.PRL_STATUS_REVERT_PENDING, 1),
      (F.PRL_PAIR_CFG_REVERTIVE, 1), (F.PRL_PAIR_CFG_PREFERRED, 1), (F.PRL_HOLDOFF_SECONDS, 60)] fun d =>
      { withT pairT d with cycles := 2 ^ 60, prl := { d.prl with up := true, standbySince := some 5 }, tsu := { d.tsu with sec := 65 } },
      5, by decide⟩,
   ⟨st [(F.PRL_STATUS_STATE, PairSt.active), (F.PRL_STATUS_REVERT_PENDING, 1)] fun d =>
      { withT pairT d with cycles := 2 ^ 60, prl := { d.prl with up := true, probation := some 0 } }, 0, by decide⟩,
   ⟨st [(F.PRL_STATUS_STATE, PairSt.active), (F.PRL_DRILL_SELF_AGE, 29), (F.PRL_DRILL_PARTNER_AGE, 65534)] fun d =>
      { withT pairT d with cycles := 2 ^ 60, prl := { d.prl with up := true } }, 29, 65534, by decide⟩,
   ⟨st [(F.PRL_STATUS_STATE, PairSt.active), (F.PRL_DRILL_SELF_AGE, 30)] fun d =>
      { withT pairT d with cycles := 2 ^ 60, prl := { d.prl with up := true } }, by decide⟩⟩

theorem witness_HostCommands :
    (∃ (s : State) (n : Nat) (p : _), s.dev.takesCmd n 3 p ∧ (cmdOf n p).body.length = 144 ∧ (cmdOf n p).body.slice 0 4 =
      [0x59#8, 0x43#8, 5#8, 0#8] ∧ (cmdOf n p).body.u8 12 ≤ 4 ∧ (cmdOf n p).body.zero 13 3 = true ∧
      s.dev.face.hst.certs.length ≤ 16) ∧
    (∃ (s : State) (n : Nat) (p : _), s.dev.takesCmd n 3 p ∧ (cmdOf n p).body.length ≠ 144) ∧
    (∃ (s : State) (n : Nat) (p : _) (e : _), s.dev.takesCmd n 1 p ∧ s.dev.freshCmd (cmdOf n p) e ∧ (cmdOf n
      p).viewItems.isSome = true ∧ s.dev.viewWaits n = false ∧ (Maps.has s.dev.dur.ctxs (cmdOf n p).meter = false ∨
      (s.dev.idleMeter (cmdOf n p).meter = true ∧ s.dev.eng.resident (cmdOf n p).meter = true))) ∧
    (∃ (s : State) (n : Nat) (p : _), s.dev.takesCmd n 1 p ∧ s.dev.face.hst.certs = [] ∧ s.dev.viewWaits n = false ∧ Maps.has
      s.dev.dur.ctxs (cmdOf n p).meter = false) ∧
    (∃ (s : State) (n : Nat) (p : _), s.dev.takesCmd n 1 p ∧ s.dev.viewWaits n = false ∧ Maps.has s.dev.dur.ctxs (cmdOf n
      p).meter = true ∧ s.dev.idleMeter (cmdOf n p).meter = false) ∧
    (∃ (s : State) (n : Nat) (p : _) (e : _), s.dev.takesCmd n 2 p ∧ s.dev.freshCmd (cmdOf n p) e ∧ e.role = operatorRole ∧ 4
      ≤ (cmdOf n p).body.length ∧ requestOk ((cmdOf n p).body.drop 4) = true ∧ s.dev.hasDownlink (cmdOf n p).meter = true ∧
      s.dev.face.hst.requests.any (·.meter == (cmdOf n p).meter) = false) ∧
    (∃ (s : State) (m : Nat) (q : _), s.dev.face.hst.requests.find? (·.meter == m) = some q ∧ q.at_ + s.dev.get
      F.RNG_REQ_TIMEOUT_SECONDS * secCycles < s.dev.cycles) ∧
    (∃ (s : State) (n : Nat) (v : Word) (k : _), n < 64 ∧ k = (s.dev.reg (R.RNG_n_CONFIRM_HI.at n)).toNat % 65536 * 2 ^ 32 +
      v.toNat ∧ Maps.getD s.dev.dur.confirmed n 0 < k ∧ s.dev.jnl.overflow = []) ∧
    (∃ (s : State) (n : Nat) (v : Word), (s.dev.reg (R.RNG_n_CONFIRM_HI.at n)).toNat % 65536 * 2 ^ 32 + v.toNat ≤ Maps.getD
      s.dev.dur.confirmed n 0) :=
  ⟨⟨st active fun d =>
      { d with trl := { d.trl with live := some { rings := [⟨1, 5, 0, 0, false⟩, ⟨0, 4, 0, 0, false⟩] } }, face := { d.face with hst := { d.face.hst with rings := [(0, { ready := [hostPkt 3 ([0x59, 0x43, 5, 0] ++ List.replicate 140 0)] })] } } },
      0, hostPkt 3 ([0x59, 0x43, 5, 0] ++ List.replicate 140 0), by decide +kernel⟩,
   ⟨st active fun d =>
      { d with trl := { d.trl with live := some { rings := [⟨1, 5, 0, 0, false⟩, ⟨0, 4, 0, 0, false⟩] } }, face := { d.face with hst := { d.face.hst with rings := [(0, { ready := [hostPkt 3 [6, 0, 0, 0, 0xC0, 1, 0x81, 0]] })] } } },
      0, hostPkt 3 [6, 0, 0, 0, 0xC0, 1, 0x81, 0], by decide⟩,
   ⟨st active fun d =>
      { d with trl := { d.trl with live := some { rings := [⟨1, 5, 0, 0, false⟩, ⟨0, 4, 0, 0, false⟩] } }, face := { d.face with hst := { d.face.hst with rings := [(0, { ready := [hostPkt 1 [6, 0, 0, 0, 1, 0, 0, 0, 0, 0, 1, 0, 0, 255, 8, 0, 2, 0, 0, 0, 0, 0, 0, 0]] })], certs := [⟨1311768467463790320, 1, 3, 0⟩] } } },
      0, hostPkt 1 [6, 0, 0, 0, 1, 0, 0, 0, 0, 0, 1, 0, 0, 255, 8, 0, 2, 0, 0, 0, 0, 0, 0, 0], ⟨1311768467463790320, 1, 3, 0⟩,
      by decide⟩,
   ⟨st active fun d =>
      { d with trl := { d.trl with live := some { rings := [⟨1, 5, 0, 0, false⟩, ⟨0, 4, 0, 0, false⟩] } }, face := { d.face with hst := { d.face.hst with rings := [(0, { ready := [hostPkt 1 [6, 0, 0, 0, 1, 0, 0, 0, 0, 0, 1, 0, 0, 255, 8, 0, 2, 0, 0, 0, 0, 0, 0, 0]] })] } } },
      0, hostPkt 1 [6, 0, 0, 0, 1, 0, 0, 0, 0, 0, 1, 0, 0, 255, 8, 0, 2, 0, 0, 0, 0, 0, 0, 0], by decide⟩,
   ⟨st active fun d =>
      { d with trl := { d.trl with live := some { rings := [⟨1, 5, 0, 0, false⟩, ⟨0, 4, 0, 0, false⟩] } }, face := { d.face with hst := { d.face.hst with rings := [(0, { ready := [hostPkt 1 [6, 0, 0, 0, 1, 0, 0, 0, 0, 0, 1, 0, 0, 255, 8, 0, 2, 0, 0, 0, 0, 0, 0, 0]] })] } }, dur := { d.dur with ctxs := [(6, { address := 77, mbus := false, cls := 0, cal := 255 })] }, eng := { d.eng with flight := [(6, exItem .wantLane)] } },
      0, hostPkt 1 [6, 0, 0, 0, 1, 0, 0, 0, 0, 0, 1, 0, 0, 255, 8, 0, 2, 0, 0, 0, 0, 0, 0, 0], by decide⟩,
   ⟨st active fun d =>
      { d with trl := { d.trl with live := some { rings := [⟨1, 5, 0, 0, false⟩, ⟨0, 4, 0, 0, false⟩] } }, face := { d.face with hst := { d.face.hst with rings := [(0, { ready := [hostPkt 2 [6, 0, 0, 0, 0xC0, 1, 0x81, 0]] })], certs := [⟨1311768467463790320, 1, 3, 0⟩] } }, dur := { d.dur with ctxs := [(6, { address := 77, mbus := false, cls := 0, cal := 255 })] } },
      0, hostPkt 2 [6, 0, 0, 0, 0xC0, 1, 0x81, 0], ⟨1311768467463790320, 1, 3, 0⟩, by decide⟩,
   ⟨st [] fun d =>
      { d with cycles := 2 ^ 60, face := { d.face with hst := { d.face.hst with requests := [⟨6, 2, 7, 3, 0⟩] } } }, 6, ⟨6, 2,
      7, 3, 0⟩, by decide⟩,
   ⟨st [] fun d => d.setReg (R.RNG_n_CONFIRM_HI.at 63) 2, 63, 5, 8589934597, by decide⟩,
   ⟨st [], 63, 0, by decide⟩⟩

theorem witness_RunnerLinks :
    (∃ (s : State) (l : Nat), s.dev.isMirrorLink (l % 3) = false ∧ s.dev.linkUp (l % 3) = true ∧ s.dev.mirroring = false) ∧
    (∃ (s : State) (l : Nat), s.dev.isMirrorLink (l % 3) = true ∧ s.dev.pairState = PairSt.standby) ∧
    (∃ (s : State) (l : Nat), s.dev.isMirrorLink (l % 3) = true ∧ s.dev.pairState = PairSt.active) ∧
    (∃ (s : State) (l : Nat), s.dev.prl.up = true ∧ s.dev.trellis.device.linkEnable.testBit (l % 3) = true ∧ s.dev.linkUp (l %
      3) = false) ∧
    (∃ (s : State) (l : Nat), ((s.dev.link (l % 3)).unacked.any fun u => decide (u.sentAt + cyclesOf 20 ≤ s.dev.cycles) &&
      decide (32 ≤ u.tries)) = false) ∧
    (∃ (s : State) (l : Nat), ((s.dev.link (l % 3)).unacked.any fun u => decide (u.sentAt + cyclesOf 20 ≤ s.dev.cycles) &&
      decide (32 ≤ u.tries)) = true ∧ s.dev.linkUp (l % 3) = true ∧ s.dev.isMirrorLink (l % 3) = false) ∧
    (∃ (s : State) (h : RHdr) (x : Hello), s.dev.hears h (.hello x) ∧ h.link ≠ s.dev.trellis.device.mirrorLink ∧ h.src < 8) ∧
    (∃ (s : State) (h : RHdr) (x : Hello), s.dev.hears h (.hello x) ∧ h.link = s.dev.trellis.device.mirrorLink ∧
      s.dev.trellis.device.pairMode = 1 ∧ h.src = s.dev.trellis.device.partner ∧ s.dev.pairState = PairSt.active ∧ x.state =
      PairSt.standby ∧ s.dev.get F.PRL_STATUS_PARTNER_STATE ≠ PairSt.standby) ∧
    (∃ (s : State) (h : RHdr) (f : _), s.dev.hears h (.forwardUp f) ∧ s.dev.serves = true) ∧
    (∃ (s : State) (h : RHdr) (e : Nat) (k : Nat) (a : _) (b : _) (w : _), s.dev.hears h (.acceptNotice e k a b) ∧
      s.dev.serves = true ∧ s.dev.windowOf? e k = some w ∧ w.checked = 0) ∧
    (∃ (s : State) (h : RHdr) (i : _) (e : Nat) (t0 : _) (p : _), s.dev.hears h (.forwardDown i e t0 p) ∧ s.dev.lastHead e =
      none) ∧
    (∃ (s : State) (h : RHdr) (id : _) (e : Nat) (t0 : Nat) (p : Psdu) (i : _) (r : _), s.dev.hears h (.forwardDown id e t0 p)
      ∧ s.dev.serves = true ∧ s.dev.lastHead e = some i ∧ s.dev.headReg? i = some r ∧ (s.dev.headRt i).orderable = true ∧
      (s.dev.headRt i).session = true ∧ s.dev.windowFits (s.dev.headRt i) t0 p.len = true) ∧
    (∃ (s : State) (h : RHdr) (i : Nat) (o : _) (a : _) (k : _) (w : _) (x : _), s.dev.hears h (.downConfirm i 0) ∧
      s.dev.serves = true ∧ s.dev.order? foreignHead i = some o ∧ o.keyKind = none ∧ o.purpose = .accept a k w ∧ s.dev.window?
      a k = some x) ∧
    (∃ (s : State) (h : RHdr) (i : Nat) (y : _), s.dev.hears h (.downConfirm i y) ∧ s.dev.serves = true ∧ s.dev.order?
      foreignHead i = none) :=
  ⟨⟨st [(F.PRL_STATUS_STATE, PairSt.active), (F.PRL_L_STATUS_UP.at 2, 1)] fun d =>
      { withT linkT d with prl := { d.prl with up := true } }, 5, by decide⟩,
   ⟨st [(F.PRL_STATUS_STATE, PairSt.standby), (F.PRL_L_STATUS_UP.at 1, 1)] fun d =>
      { withT linkT d with prl := { d.prl with up := true } }, 1, by decide⟩,
   ⟨st [(F.PRL_STATUS_STATE, PairSt.active), (F.PRL_L_STATUS_UP.at 1, 1)] fun d =>
      { withT linkT d with prl := { d.prl with up := true } }, 1, by decide⟩,
   ⟨st active fun d => { withT linkT d with prl := { d.prl with up := true } }, 1, by decide⟩,
   ⟨st active fun d =>
      { withT linkT d with prl := { d.prl with up := true, links := [(1, { unacked := [⟨0, 3, 4, 0, .digest 7, 0, 31⟩] })] } },
      1, by decide⟩,
   ⟨st [(F.PRL_STATUS_STATE, PairSt.active), (F.PRL_L_STATUS_UP.at 2, 1)] fun d =>
      { withT linkT d with cycles := 2 ^ 60, prl := { d.prl with up := true, links := [(2, { unacked := [⟨0, 3, 4, 0, .digest 7, 0, 32⟩] })] } },
      2, by decide⟩,
   ⟨st active fun d => { withT linkT d with prl := { d.prl with up := true } }, exHdr 2 (.hello ⟨2, 0, 0, 0, 0⟩), ⟨2, 0, 0, 0,
      0⟩, hears_exHdr _ rfl (by decide) (by decide) rfl, by decide⟩,
   ⟨st active fun d => { withT linkT d with prl := { d.prl with up := true } }, exHdr 1 (.hello ⟨2, 0, 0, 0, 0⟩), ⟨2, 0, 0, 0,
      0⟩, hears_exHdr _ rfl (by decide) (by decide) rfl, by decide⟩,
   ⟨st active fun d => { withT linkT d with prl := { d.prl with up := true } }, exHdr 1 (.forwardUp exStaged), exStaged,
      hears_exHdr _ rfl (by decide) (by decide) rfl, by decide⟩,
   ⟨st active fun d =>
      { withT linkT d with prl := { d.prl with up := true }, fhm := { d.fhm with windows := [⟨77, none, 5, 0, 3, false, false, false, none, 0⟩] } },
      exHdr 1 (.acceptNotice 77 3 ⟨none, 1, [], [], [], 10⟩ ⟨none, 1, [], [], [], 10⟩), 77, 3, ⟨none, 1, [], [], [], 10⟩,
      ⟨none, 1, [], [], [], 10⟩, ⟨77, none, 5, 0, 3, false, false, false, none, 0⟩, hears_exHdr _ rfl (by decide) (by decide)
      rfl, by decide⟩,
   ⟨st active fun d => { withT linkT d with prl := { d.prl with up := true } }, exHdr 1 (.forwardDown 9 77 5 ⟨none, 1, [], [],
      [], 10⟩), 9, 77, 5, ⟨none, 1, [], [], [], 10⟩, hears_exHdr _ rfl (by decide) (by decide) rfl, by decide⟩,
   ⟨st ethOn fun d =>
      { withT linkT d with dur := { d.dur with heads := [(5, { eui := 9, epoch := 1 })] }, prl := { d.prl with up := true }, fhm := { d.fhm with heads := [(5, { session := true, state := .active })], heard := [⟨77, 3, 0, 0, 5, 0⟩] } },
      exHdr 1 (.forwardDown 9 77 5000000000 ⟨none, 1, [], [], [], 10⟩), 9, 77, 5000000000, ⟨none, 1, [], [], [], 10⟩, 5,
      { eui := 9, epoch := 1 }, hears_exHdr _ rfl (by decide) (by decide) rfl, by decide⟩,
   ⟨st active fun d =>
      { withT linkT d with prl := { d.prl with up := true }, fhm := { d.fhm with windows := [⟨77, none, 5, 0, 3, false, false, false, none, 0⟩], orders := [⟨65535, 9, 0, 0, 0, 0, 1, 0, 5, [], ⟨none, 1, [], [], [], 10⟩, .accept 77 0 1, 0, true, 0, 0, 0, none⟩] } },
      exHdr 1 (.downConfirm 9 0), 9, ⟨65535, 9, 0, 0, 0, 0, 1, 0, 5, [], ⟨none, 1, [], [], [], 10⟩, .accept 77 0 1, 0, true,
      0, 0, 0, none⟩, 77, 0, 1, ⟨77, none, 5, 0, 3, false, false, false, none, 0⟩, hears_exHdr _ rfl (by decide) (by decide)
      rfl, by decide⟩,
   ⟨st active fun d => { withT linkT d with prl := { d.prl with up := true } }, exHdr 1 (.downConfirm 9 0), 9, 0, hears_exHdr
      _ rfl (by decide) (by decide) rfl, by decide⟩⟩

theorem witness_Mirroring :
    (∃ (s : State) (h : RHdr) (l : Nat) (e : _), s.dev.hears h (.confirm l) ∧ s.dev.pairState = PairSt.active ∧
      s.dev.prl.outstanding = [e] ∧ e.line = l ∧ e.meter = none ∧ s.dev.prl.handover = none) ∧
    (∃ (s : State) (h : RHdr) (l : Nat) (e : _), s.dev.hears h (.confirm l) ∧ s.dev.pairState = PairSt.active ∧
      s.dev.prl.outstanding = [e] ∧ l < e.line ∧ s.dev.prl.handover = none) ∧
    (∃ (s : State) (h : RHdr) (l : Nat) (r : _), s.dev.hears h (.mirror l (.confirm 7 r)) ∧ s.dev.takesMirror = true ∧
      s.dev.lineFollows l = true) ∧
    (∃ (s : State) (h : RHdr) (l : Nat) (r : _), s.dev.hears h (.mirror l r) ∧ s.dev.takesMirror = true ∧ s.dev.lineFollows l
      = false) ∧
    (∃ (s : State) (h : RHdr) (k : Nat), s.dev.hears h (.digest k) ∧ s.dev.takesMirror = true ∧ k = s.dev.prl.crc) ∧
    (∃ (s : State) (h : RHdr) (k : Nat), s.dev.hears h (.digest k) ∧ s.dev.pairState = PairSt.standby ∧ k ≠ s.dev.prl.crc) ∧
    (∃ (s : State) (h : RHdr) (l : _) (u : _) (t : _) (g : _) (n : _) (a : _) (b : _) (e : _) (o : _) (k : _), s.dev.hears h
      (.resync (.snapshot l u t g n a b e o k)) ∧ (s.dev.pairState = PairSt.syncing ∨ s.dev.pairState = PairSt.standby)) ∧
    (∃ (s : State) (h : RHdr), s.dev.hears h (.resync .again) ∧ s.dev.pairState = PairSt.active ∧ s.dev.get
      F.PRL_STATUS_PARTNER_STATE = PairSt.syncing) ∧
    (∃ (s : State), s.dev.pairState = PairSt.active ∧ s.dev.get F.PRL_RESYNC_PHASE = 1) ∧
    (∃ (s : State), s.dev.pairState = PairSt.syncing ∧ s.dev.get F.PRL_RESYNC_PHASE = 2 ∧ s.dev.prl.synced = true ∧
      s.dev.prl.agrees = true ∧ s.dev.prl.enginesOk = true) ∧
    (∃ (s : State), s.dev.pairState = PairSt.syncing ∧ s.dev.get F.PRL_RESYNC_PHASE = 2 ∧ s.dev.prl.agrees = false) ∧
    (∃ (s : State), s.dev.pairState = PairSt.standby) ∧
    (∃ (s : State), s.dev.pairState = PairSt.standby) ∧
    (∃ (s : State), s.dev.flag F.PRL_CMD_BUSY = false ∧ s.dev.prl.up = true ∧ s.dev.pairState = PairSt.active ∧ s.dev.get
      F.PRL_STATUS_PARTNER_STATE = PairSt.standby) ∧
    (∃ (s : State), s.dev.flag F.PRL_CMD_BUSY = false ∧ s.dev.prl.up = true ∧ s.dev.pairState = PairSt.standby) ∧
    (∃ (s : State) (h : RHdr) (k : PairCmd), s.dev.hears h (.command k) ∧ s.dev.takesMirror = true ∧ k.finish = .ctx ∧
      k.object = none ∧ k.recs = [.confirm 7 8]) ∧
    (∃ (s : State) (h : RHdr) (k : _) (ks : _), s.dev.hears h (.applied true) ∧ s.dev.pairState = PairSt.active ∧
      s.dev.prl.pendingCmds = k :: ks ∧ k.finish = .ctx) :=
  ⟨⟨st active fun d => { withT linkT d with prl := { d.prl with up := true, outstanding := [⟨3, 0, none⟩], unsynced := true } },
      exHdr 1 (.confirm 3), 3, ⟨3, 0, none⟩, hears_exHdr _ rfl (by decide) (by decide) rfl, by decide⟩,
   ⟨st active fun d => { withT linkT d with prl := { d.prl with up := true, outstanding := [⟨3, 0, none⟩] } }, exHdr 1
      (.confirm 2), 2, ⟨3, 0, none⟩, hears_exHdr _ rfl (by decide) (by decide) rfl, by decide⟩,
   ⟨st standby fun d => { withT linkT d with prl := { d.prl with up := true }, jnl := { d.jnl with line := 8, used := 4 } },
      exHdr 1 (.mirror 9 (.confirm 7 5)), 9, 5, hears_exHdr _ rfl (by decide) (by decide) rfl, by decide⟩,
   ⟨st standby fun d => { withT linkT d with prl := { d.prl with up := true }, jnl := { d.jnl with line := 8, used := 4 } },
      exHdr 1 (.mirror 10 (.confirm 7 5)), 10, .confirm 7 5, hears_exHdr _ rfl (by decide) (by decide) rfl, by decide⟩,
   ⟨st standby fun d => { withT linkT d with prl := { d.prl with up := true, crc := 6 } }, exHdr 1 (.digest 6), 6, hears_exHdr
      _ rfl (by decide) (by decide) rfl, by decide⟩,
   ⟨st standby fun d => { withT linkT d with prl := { d.prl with up := true, crc := 6 } }, exHdr 1 (.digest 7), 7, hears_exHdr
      _ rfl (by decide) (by decide) rfl, by decide⟩,
   ⟨st [(F.PRL_STATUS_STATE, PairSt.syncing)] fun d => { withT linkT d with prl := { d.prl with up := true } }, exHdr 1
      (.resync (.snapshot 9 {} {} [] 0 [] [] [] [] [])), 9, {}, {}, [], 0, [], [], [], [], [], hears_exHdr _ rfl (by decide)
      (by decide) rfl, by decide⟩,
   ⟨st [(F.PRL_STATUS_STATE, PairSt.active), (F.PRL_STATUS_PARTNER_STATE, PairSt.syncing)] fun d =>
      { withT linkT d with prl := { d.prl with up := true } }, exHdr 1 (.resync .again), hears_exHdr _ rfl (by decide) (by
      decide) rfl, by decide⟩,
   ⟨st [(F.PRL_STATUS_STATE, PairSt.active), (F.PRL_RESYNC_PHASE, 1)] fun d =>
      { withT linkT d with prl := { d.prl with up := true, staged := [(3, .ckptDone)] } }, by decide⟩,
   ⟨st [(F.PRL_STATUS_STATE, PairSt.syncing), (F.PRL_RESYNC_PHASE, 2)] fun d =>
      { withT linkT d with prl := { d.prl with up := true, synced := true } }, by decide⟩,
   ⟨st [(F.PRL_STATUS_STATE, PairSt.syncing), (F.PRL_RESYNC_PHASE, 2)] fun d =>
      { withT linkT d with prl := { d.prl with up := true, agrees := false } }, by decide⟩,
   ⟨st standby fun d => { withT linkT d with prl := { d.prl with up := true } }, by decide⟩,
   ⟨st standby fun d => { withT linkT d with prl := { d.prl with up := true } }, by decide⟩,
   ⟨st [(F.PRL_STATUS_STATE, PairSt.active), (F.PRL_STATUS_PARTNER_STATE, PairSt.standby)] fun d =>
      { withT linkT d with prl := { d.prl with up := true, unsynced := true } }, by decide⟩,
   ⟨st standby fun d => { withT linkT d with prl := { d.prl with up := true } }, by decide⟩,
   ⟨st standby fun d => { withT linkT d with prl := { d.prl with up := true } }, exHdr 1 (.command
      { recs := [.confirm 7 8], finish := .ctx }), { recs := [.confirm 7 8], finish := .ctx }, hears_exHdr _ rfl (by decide)
      (by decide) rfl, by decide⟩,
   ⟨st [(F.PRL_STATUS_STATE, PairSt.active), (F.CTX_CMD_BUSY, 1)] fun d =>
      { withT linkT d with prl := { d.prl with up := true, pendingCmds := [{ recs := [], finish := .ctx }] } }, exHdr 1
      (.applied true), { recs := [], finish := .ctx }, [], hears_exHdr _ rfl (by decide) (by decide) rfl, by decide⟩⟩

theorem witness_FramesOfHostAndEvents : ∃ s t : State, exec (.ringMark 1) s = .next t := ⟨st [], _, rfl⟩

theorem witness_FramesOfTimeAndCloche : ∃ s t : State, exec .tsuSlew s = .next t := ⟨st [], _, rfl⟩

theorem witness_FramesOfHeadsAndIngest : ∃ s t : State, exec (.ctxFree 1) s = .next t := ⟨st [], _, rfl⟩

theorem witness_FramesOfMeasurementAndZx : ∃ s t : State, exec (.msrFadeEnd []) s = .next t := ⟨st [], _, rfl⟩

theorem witness_FramesOfKeysTrellisAndStorage : ∃ s t : State, exec .bindOwner s = .next t := ⟨st [], _, rfl⟩

theorem witness_FramesOfBalanceAndCampaigns : ∃ s t : State, exec (.balEvaluation 1) s = .next t := ⟨st [], _, rfl⟩

theorem witness_FramesOfPairAndMirror : ∃ s t : State, exec .take s = .next t := ⟨st [], _, rfl⟩

theorem witness_StepRunsTheFrontCommand :
    (∃ (s : State) (c : Instr) (cs : List Instr), s.pending = c :: cs) ∧ (∃ s : State, s.pending = []) :=
  ⟨⟨{ pending := [.tsuStep] }, .tsuStep, [], rfl⟩, ⟨State.reset, rfl⟩⟩

theorem witness_EveryStepCompletesAndKeepsTheInvariant : State.reset.dev.Inv := ⟨by decide, by decide, by decide⟩

theorem witness_OwnerFusesOnlyByBindOwner :
    (∃ (s t : State) (c : Instr), c ≠ .bindOwner ∧ exec c s = .next t) ∧
    (∃ s : State, (s.dev.flag F.TRL_CMD_STATUS_BUSY = false) ∧ (s.dev.trlState = Trl.structured ∨ s.dev.trlState = Trl.sealed) ∧ s.dev.trl.ownerFuse = none) ∧
    (∃ (s : State) (h : Nat), (s.dev.flag F.TRL_CMD_STATUS_BUSY = false) ∧ (s.dev.trlState = Trl.structured ∨ s.dev.trlState = Trl.sealed) ∧ s.dev.trl.ownerFuse = some h) :=
  ⟨⟨st [], _, .tsuSlew, by decide, rfl⟩,
   ⟨st [(F.TRL_STATUS_STATE, 4)], by decide, by decide, by decide⟩,
   ⟨st [(F.TRL_STATUS_STATE, 4)] fun d => { d with trl := { d.trl with ownerFuse := some 7 } }, 7, by decide, by decide, by decide⟩⟩

theorem witness_SealStaysExceptOnResets : ∃ (s t : State) (c : Instr), exec c s = .next t ∧ s.dev.trl.sealed = true ∧
    (∀ a b, c ≠ .resetAssert a b) ∧ c ≠ .thermalTrip ∧ c ≠ .watchdogExpire ∧ c ≠ .powerFailClear ∧ (∀ a, c ≠ .faultCleared a) ∧ c ≠ .hostBeat ∧ c ≠ .resume ∧ (∀ a, c ≠ .drbgReseed a) :=
  ⟨st [] fun d => { d with trl := { d.trl with sealed := true } }, _, .tsuSlew, rfl, rfl, by simp, by decide, by decide, by decide, by simp, by decide, by decide, by simp⟩

theorem witness_CoefficientWritesOnlyToFreeBanks :
    (∃ (s : State) (st : _) (bank : _) (i : _), st = s.dev.get F.MSR_COEF_SEL_STAGE ∧ bank = s.dev.get F.MSR_COEF_SEL_BANK
      ∧ i = s.dev.get F.MSR_COEF_SEL_INDEX ∧ i < coefCount st ∧ (∀ w, s.dev.msr.fade = some w → bitAt w.mask st =
      false) ∧ (∀ w, s.dev.msr.pend = some w → bitAt w.mask st = false) ∧ b2n (bitAt (s.dev.get
      F.MSR_STATUS_ACTIVE_BANK) st) ≠ bank) ∧
    (∃ (s : State) (w : _), (b2n (bitAt (s.dev.get F.MSR_STATUS_ACTIVE_BANK) (s.dev.get F.MSR_COEF_SEL_STAGE)) = s.dev.get
      F.MSR_COEF_SEL_BANK ∨ ((s.dev.msr.fade = some w ∨ s.dev.msr.pend = some w) ∧ bitAt w.mask (s.dev.get
      F.MSR_COEF_SEL_STAGE) = true))) :=
  ⟨⟨st [(F.MSR_CTRL_ENABLE, 1), (F.MSR_COEF_SEL_BANK, 1), (F.MSR_COEF_SEL_INDEX, 5)] fun d => { d with trl := { d.trl with live := some { msrChans := [⟨2, 1, 3, true, true, false, 1, 0⟩], msrFeeders := [⟨1, 50, 230, 0, 7, 0xFFFFFFFF⟩] } }, msr := { d.msr with fade := some ⟨4, 0, 16⟩ } }, 0, 1, 5, by decide, by decide, by decide, by decide, by decide, by decide, by decide⟩,
   ⟨st [(F.MSR_CTRL_ENABLE, 1)] fun d => { d with trl := { d.trl with live := some { msrChans := [⟨2, 1, 3, true, true, false, 1, 0⟩], msrFeeders := [⟨1, 50, 230, 0, 7, 0xFFFFFFFF⟩] } } }, ⟨4, 0, 16⟩, by decide⟩⟩

theorem witness_WatchdogForcesTheGateLow :
    (∃ (s : State) (f : Nat) (p : Nat), f < 4 ∧ p < 3 ∧ (s.dev.zxPhase f p).gate.isSome = true) :=
  ⟨st [(F.MSR_CTRL_ENABLE, 1)] fun d => { d with trl := { d.trl with live := some { msrChans := [⟨2, 1, 3, true, true, false, 1, 0⟩], msrFeeders := [⟨1, 50, 230, 0, 7, 0xFFFFFFFF⟩] } }, zxp := { feeders := ⟨{}, { phases := ⟨{ gate := some 5 }, {}, {}⟩ }, {}, {}⟩ } }, 1, 0, by decide, by decide, by decide⟩

end Sys2Proof.Tests
end

namespace Sys2Proof.Machine

/-! Frames and components: a part of the device that an operation leaves alone, read off its law in `Laws/`. -/

/-- A command whose meaning is an edit within mask `m` leaves alone every part outside a list that covers `m`. -/
theorem leaves_of_edits {c : Instr} {m : Nat} {ps : List Part}
    (h : ∀ s, ∃ d', exec c s = .next { s with dev := d' } ∧ Edits m s.dev d')
    (hm : Nat.land (Part.mask ps) m = m := by decide) : Leaves c ps := by
  intro s
  obtain ⟨d', hexec, hedits⟩ := h s
  exact ⟨_, hexec, rfl, hedits.sameBut ps hm⟩

/-- The Cloche's own state outlasts every edit whose mask leaves bit 17 out. -/
theorem Edits.clo_eq {m : Nat} {d d' : Dev} (h : Edits m d d') (hm : m.testBit 17 = false := by decide) : d'.clo = d.clo :=
  h.clo.resolve_left (by simp [hm])

/-- A command whose effect on the device is `f` runs with what `f` brings about. -/
theorem runs_of_on {c : Instr} {s : State} {f : Dev → Dev} {P : Dev → Prop} (h : P (f s.dev))
    (e : exec c s = s.on f := by rfl) : Runs c s P := ⟨_, e, rfl, h⟩

/-! Single bits of a field, and what raising a Cloche interrupt leaves. -/

@[simp] theorem bitAt_setBitTo_same (m n : Nat) (v : Bool) : bitAt (setBitTo m n v) n = v := by
  unfold bitAt setBitTo
  cases v with
  | true => simp
  | false => by_cases h : m.testBit n <;> simp [h, Nat.testBit_xor]

theorem bitAt_mod_two_pow (m k n : Nat) : bitAt (m % 2 ^ k) n = (decide (n < k) && bitAt m n) := Nat.testBit_mod_two_pow m k n

/-- A bit just cleared reads clear, also outside the field. -/
theorem Dev.bitAt_setBitOf_false (d : Dev) (x : Fld) (n : Nat) (h : x.hi < 32 := by decide) (hl : x.lo ≤ x.hi := by decide) :
    bitAt ((d.setBitOf x n false).get x) n = false := by
  rw [Dev.setBitOf, Dev.get_set_same d x _ h hl, bitAt_mod_two_pow, bitAt_setBitTo_same, Bool.and_false]

/-- A field after hardware sets bits of a W1C field: only the registers count, not the note of R9. -/
theorem Dev.get_setW1c (d : Dev) (x y : Fld) (v : Nat) : (d.setW1c x v).get y = (d.set x (d.get x ||| v)).get y := rfl

/-- A bit that hardware just set reads set. -/
theorem Dev.bitAt_setW1cBit_same (d : Dev) (x : Fld) {n : Nat} (hn : n < x.hi + 1 - x.lo) (h : x.hi < 32 := by decide)
    (hl : x.lo ≤ x.hi := by decide) : bitAt ((d.setW1cBit x n).get x) n = true := by
  rw [Dev.setW1cBit, Dev.get_setW1c, Dev.get_set_same d x _ h hl, bitAt_mod_two_pow]
  simp [bitAt, hn]

/-- A field that shares no bit with the one hardware sets reads as before. -/
theorem Dev.get_setW1cBit_apart {x y : Fld} (d : Dev) (n : Nat) (hd : y.hi < x.lo ∨ x.hi < y.lo := by decide)
    (h : y.hi < 32 := by decide) (hl : x.lo ≤ x.hi := by decide) : (d.setW1cBit x n).get y = d.get y :=
  Dev.get_set_apart h hl hd d _

theorem Dev.get_setBitOf_other {x y : Fld} (h : y.off ≠ x.off) (d : Dev) (n : Nat) (v : Bool) :
    (d.setBitOf x n v).get y = d.get y := Dev.get_set_other h d _

/-- Raising a Cloche interrupt leaves the fields of every other register, the recorder's, rings', journal's and Runner's apart. -/
theorem Dev.get_cloRaise_other {x y : Fld} (hy : y.off ≠ x.off) (d : Dev) (a b : Nat) (ho : y.off < 4194304 := by decide)
    (hb : Nat.testBit 0x340040004c003 (regBit y.off) = false := by decide) : (d.cloRaise x a b).get y = d.get y := by
  unfold Dev.cloRaise
  split
  · rfl
  · split
    · exact Dev.get_set_other hy d _
    · rw [Dev.raise_get d x a b ho hb, Dev.get_set_other hy]

@[simp] theorem Dev.cloRaise_clo (d : Dev) (x : Fld) (a b : Nat) : (d.cloRaise x a b).clo = d.clo := by
  unfold Dev.cloRaise
  split
  · rfl
  · split
    · rfl
    · exact Dev.raise_clo ..

@[simp] theorem Dev.cloRaise_cycles (d : Dev) (x : Fld) (a b : Nat) : (d.cloRaise x a b).cycles = d.cycles := by
  unfold Dev.cloRaise
  split
  · rfl
  · split
    · rfl
    · exact Dev.raise_cycles ..

@[simp] theorem Dev.setW1cBit_clo (d : Dev) (x : Fld) (n : Nat) : (d.setW1cBit x n).clo = d.clo := rfl
@[simp] theorem Dev.setW1cBit_cycles (d : Dev) (x : Fld) (n : Nat) : (d.setW1cBit x n).cycles = d.cycles := rfl
@[simp] theorem Dev.setBitOf_clo (d : Dev) (x : Fld) (n : Nat) (v : Bool) : (d.setBitOf x n v).clo = d.clo := rfl

/-! KEY_ZERO and the Cloche (R309, R310): the vault and the candidate empty, and nothing else of the Cloche changes, though
KEY_ZERO ends work in flight, and a PIN that waited for a way may complete with it. -/

theorem Dev.finish_ctx_clo (d : Dev) (result : Nat) : (d.finish result .ctx).clo = d.clo := by simp [Dev.finish]

theorem Dev.pinNow_clo (d : Dev) (i : Nat) : (d.pinNow i).clo = d.clo :=
  (Dev.finish_ctx_clo _ _).trans (Dev.showCtx_edits (m := 0x800000000) (h := Edits.refl _)).clo_eq

theorem Dev.bringCtx_clo {d d' : Dev} {i : Nat} {ready : Bool} (h : d.bringCtx i ready = some d') : d'.clo = d.clo :=
  (Dev.bringCtx_edits (m := 0x800000800) h (h := Edits.refl d)).clo_eq

theorem Dev.tryPin_clo (d : Dev) (i : Nat) : (d.tryPin i).clo = d.clo := by
  unfold Dev.tryPin
  split
  · exact d.pinNow_clo i
  · split
    · next d' h => exact (d'.pinNow_clo i).trans (Dev.bringCtx_clo h)
    · rfl

theorem Dev.endWork_clo (d : Dev) (meter : Nat) : (d.endWork meter).clo = d.clo := by
  unfold Dev.endWork
  extract_lets e d'
  have h : d'.clo = d.clo :=
    (Dev.showIng_edits (m := 0x1000000800) (h := Dev.releaseKeys_edits (h := Edits.upd (h := Edits.refl d)))).clo_eq
  split
  · exact (Dev.tryPin_clo _ _).trans h
  · exact h

theorem Dev.foldl_endWork_clo (l : List (Nat × Work)) (d : Dev) : (l.foldl (fun d p => d.endWork p.1) d).clo = d.clo := by
  induction l generalizing d with
  | nil => rfl
  | cons p l ih => exact (ih _).trans (d.endWork_clo p.1)

theorem Dev.zeroWork_clo (d : Dev) : d.zeroWork.clo = d.clo := by
  unfold Dev.zeroWork
  extract_lets hit d₁ again d₂
  have h : d₁.clo = d.clo := Dev.foldl_endWork_clo hit d
  exact (Dev.showCtx_edits (m := 0x800000000) (h := Edits.refl _)).clo_eq.trans h

/-- What KEY_ZERO does to the rest of the device leaves the Cloche alone: of its operations only the end of work in flight has a
law that does not say so by itself. -/
theorem Dev.zeroDevice_clo (d : Dev) : d.zeroDevice.clo = d.clo := by
  unfold Dev.zeroDevice
  extract_lets -merge +onlyGivenNames off k g d₁ d₂ d₃ d₄ d₅
  have h₁ : Edits 0x74f3f800dfe0b d d₁ := Edits.upd (h := Edits.refl _)
  have h₂ : Edits 0x74f3f800dfe0b d d₂ := Edits.ite (fun _ => Dev.set_edits (h := h₁)) fun _ => h₁
  have h₃ : d₃.clo = d₂.clo :=
    calc d₃.clo
      _ = d₂.zeroEngines.zeroWork.clo :=
          (Dev.endSession_edits (m := 0x34804000ce803) (h := Dev.zeroCmd_edits (h := Edits.refl _))).clo_eq
      _ = d₂.zeroEngines.clo := Dev.zeroWork_clo _
      _ = d₂.clo := (Dev.zeroEngines_edits (m := 0x3480c0004cc03) (h := Edits.refl _)).clo_eq
  have h₄ : Edits 0x74f3f800dfe0b d₃ d₄ := Dev.raise_edits (h := Dev.releaseUnsigned_edits (h := Edits.refl _))
  have h₅ : Edits 0x74f3f800dfe0b d₃ d₅ := Edits.ite (fun _ => Dev.set_edits (h := h₄)) fun _ => h₄
  clear_value d₅
  exact (Dev.grantIdle_edits (h := Dev.verdict_edits (h := h₅))).clo_eq.trans (h₃.trans h₂.clo_eq)

/-- KEY_ZERO empties the vault and the candidate, and leaves the rest of the Cloche. -/
theorem Dev.keyZero_clo (d : Dev) : d.keyZero.clo = { d.clo with vault := [], candidate := none } := by
  have h : d.clearVault.clo = { d.clo with vault := [], candidate := none } :=
    (Dev.showCand_edits (m := 0x80000000000) (h := Edits.refl _)).clo_eq
  unfold Dev.keyZero
  extract_lets d₁
  split
  · exact h
  · exact (Dev.zeroDevice_clo d₁).trans h

theorem Dev.zeroOnce_records (d : Dev) : d.zeroOnce.clo.records = d.clo.records := by
  unfold Dev.zeroOnce
  extract_lets tick
  split
  · rfl
  · rw [Dev.keyZero_clo]

/-- The first KEY_ZERO of a tick empties the vault (R399). -/
theorem Dev.zeroOnce_vault {d : Dev} (h : d.clo.zeroTick ≠ some (d.cycles / cyclesPerTick)) : d.zeroOnce.clo.vault = [] := by
  unfold Dev.zeroOnce
  extract_lets tick
  rw [if_neg h, Dev.keyZero_clo]

/-! Tamper sources (R391 to R395) and alarms (R388). -/

/-- Showing the latch changes TAMPER_OUT_N's level and nothing else of the Cloche. -/
theorem Dev.showLatch_clo (d : Dev) : d.showLatch.clo = { d.clo with tamperOutLow := d.flag F.CLO_TAMPER_LATCH_SOURCE } := by
  unfold Dev.showLatch
  extract_lets low d₁
  split
  · next h =>
    have h' : d.clo.tamperOutLow = d.flag F.CLO_TAMPER_LATCH_SOURCE := h
    rw [← h']; rfl
  · rfl

theorem Dev.showLatch_cycles (d : Dev) : d.showLatch.cycles = d.cycles :=
  (Dev.showLatch_edits (m := 0x800000020002) (h := Edits.refl d)).cycles.resolve_left (by decide)

theorem Dev.get_showLatch_other {y : Fld} (h : y.off ≠ F.CLO_STATUS_LATCHED.off) (d : Dev) : d.showLatch.get y = d.get y := by
  unfold Dev.showLatch
  extract_lets low d₁
  have h₁ : d₁.get y = d.get y := Dev.get_set_other h d _
  split
  · exact h₁
  · exact h₁

/-- The record that source `s` has after one more assertion (R393). -/
def Dev.nextRecord (d : Dev) (s : Nat) : TRec :=
  let r := Maps.getD d.clo.records s {}
  { count := satNat 16 (r.count + 1), first := if r.count = 0 then d.clo.count else r.first, last := d.clo.count }

/-- An assertion of an enabled source adds its record, whether or not KEY_ZERO follows. -/
theorem Dev.tamper_records {d : Dev} {s : Nat} (h : d.flag (F.CLO_TAMP_CFG_s_ENABLE.at s) = true) :
    (d.tamper s).clo.records = Maps.put d.clo.records s (d.nextRecord s) := by
  unfold Dev.tamper
  rw [if_neg (by simp [h])]
  extract_lets r now r' c d₁ d₂
  have h₂ : d₂.clo = d₁.clo := Dev.cloRaise_clo ..
  split
  · rw [Dev.zeroOnce_records, Dev.showLatch_clo, Dev.setW1cBit_clo, h₂]; rfl
  · rw [h₂]; rfl

/-- An assertion of an enabled source with ZEROIZE empties the vault, where no other did in the same tick. -/
theorem Dev.tamper_vault {d : Dev} {s : Nat} (h : d.flag (F.CLO_TAMP_CFG_s_ENABLE.at s) = true)
    (hz : d.flag (F.CLO_TAMP_CFG_s_ZEROIZE.at s) = true) (ht : d.clo.zeroTick ≠ some (d.cycles / cyclesPerTick))
    (ho : (F.CLO_TAMP_CFG_s_ZEROIZE.at s).off < 4194304 := by decide)
    (hy : (F.CLO_TAMP_CFG_s_ZEROIZE.at s).off ≠ F.CLO_INT_STATUS_TAMPER.off := by decide)
    (hb : Nat.testBit 0x340040004c003 (regBit (F.CLO_TAMP_CFG_s_ZEROIZE.at s).off) = false := by decide) :
    (d.tamper s).clo.vault = [] := by
  unfold Dev.tamper
  rw [if_neg (by simp [h])]
  extract_lets r now r' c d₁ d₂
  have h₂ : d₂.flag (F.CLO_TAMP_CFG_s_ZEROIZE.at s) = true := by
    rw [Dev.flag, Dev.get_cloRaise_other hy _ _ _ ho hb]; exact hz
  rw [if_pos h₂]
  refine Dev.zeroOnce_vault ?_
  rw [Dev.showLatch_clo, Dev.showLatch_cycles, Dev.setW1cBit_clo, Dev.setW1cBit_cycles, Dev.cloRaise_clo, Dev.cloRaise_cycles]
  exact ht

/-- The registers of the tamper sources' configuration lie apart from the one that shows which sources are active. -/
theorem tampCfg_off_ne_active {n : Nat} (hn : n < 12) : (F.CLO_TAMP_CFG_s_ENABLE.at n).off ≠ F.CLO_TAMPER_ACTIVE.off := by
  have H : ∀ n < 12, (F.CLO_TAMP_CFG_s_ENABLE.at n).off ≠ F.CLO_TAMPER_ACTIVE.off := by decide
  exact H n hn

/-- An enabled source that passes from inactive to detected is recorded. -/
theorem Dev.assertSource_records {d : Dev} {n : Nat} (hn : n < 12) (h : d.flag (F.CLO_TAMP_CFG_s_ENABLE.at n) = true)
    (ha : bitAt (d.get F.CLO_TAMPER_ACTIVE) n = false) :
    (d.assertSource n).clo.records = Maps.put d.clo.records n (d.nextRecord n) := by
  have h' : (d.setBitOf F.CLO_TAMPER_ACTIVE n true).flag (F.CLO_TAMP_CFG_s_ENABLE.at n) = true := by
    rw [Dev.flag, Dev.get_setBitOf_other (tampCfg_off_ne_active hn)]; exact h
  unfold Dev.assertSource
  rw [if_neg (by simp [h, ha])]
  exact Dev.tamper_records h'

theorem Dev.inactiveSource_bit (d : Dev) (n : Nat) : bitAt ((d.inactiveSource n).get F.CLO_TAMPER_ACTIVE) n = false :=
  d.bitAt_setBitOf_false F.CLO_TAMPER_ACTIVE n

/-- A latch bit whose source is inactive, and that hardware does not set in the same cycle, clears in a session (R9, R395). -/
theorem Dev.clearLatch_bit {d : Dev} {mask n : Nat} (hs : d.key.session.isSome = true) (hm : bitAt mask n = true)
    (ha : bitAt (d.get F.CLO_TAMPER_ACTIVE) n = false) (hw : bitAt (d.setNow R.CLO_TAMPER_LATCH.off).toNat n = false) :
    bitAt ((d.clearLatch mask).get F.CLO_TAMPER_LATCH_SOURCE) n = false := by
  unfold Dev.clearLatch
  rw [if_neg (by simp [Option.isSome_iff_ne_none.1 hs])]
  extract_lets asked kept
  have hasked : asked.testBit n = (d.get F.CLO_TAMPER_LATCH_SOURCE).testBit n := by
    rw [Nat.testBit_and, show mask.testBit n = true from hm, Bool.true_and]
  have hkept : kept.testBit n = false := by
    rw [Nat.testBit_and, Nat.testBit_or, show (d.get F.CLO_TAMPER_ACTIVE).testBit n = false from ha,
      show (d.setNow R.CLO_TAMPER_LATCH.off).toNat.testBit n = false from hw, Bool.or_self, Bool.and_false]
  rw [Dev.get_showLatch_other (by decide), Dev.get_set_same _ F.CLO_TAMPER_LATCH_SOURCE, bitAt_mod_two_pow, bitAt,
    Nat.testBit_or, Nat.testBit_xor, hasked, hkept, Bool.xor_self, Bool.or_self, Bool.and_false]

/-- An armed alarm that fires disarms and shows in FIRED (R388). -/
theorem Dev.fireAlarm_bits {d : Dev} {n : Nat} (hn : n < 4) (h : bitAt (d.get F.CLO_ALARM_CTRL_ARM) n = true) :
    bitAt ((d.fireAlarm n false).get F.CLO_ALARM_CTRL_ARM) n = false ∧
      bitAt ((d.fireAlarm n false).get F.CLO_ALARM_CTRL_FIRED) n = true := by
  unfold Dev.fireAlarm
  rw [if_neg (by simp [h])]
  extract_lets d₁ d₂ d₃
  have hkept : ∀ y : Fld, y.hi < 16 → d₂.get y = d₁.get y := by
    intro y hy
    dsimp only [d₂]
    split
    · exact Dev.get_setW1cBit_apart d₁ n (.inl hy) (Nat.lt_trans hy (by decide))
    · rfl
  rw [Dev.get_cloRaise_other (by decide), Dev.get_cloRaise_other (by decide)]
  show bitAt (d₂.get _) n = false ∧ bitAt (d₂.get _) n = true
  rw [hkept _ (by decide), hkept _ (by decide)]
  refine ⟨?_, Dev.bitAt_setW1cBit_same _ F.CLO_ALARM_CTRL_FIRED hn⟩
  rw [Dev.get_setW1cBit_apart (x := F.CLO_ALARM_CTRL_FIRED)]
  exact d.bitAt_setBitOf_false F.CLO_ALARM_CTRL_ARM n

theorem Dev.writeTrim_applies {d : Dev} (h : d.tsu.clo = none) (v : Nat) : d.writeTrim v = d.set F.CLO_TRIM_TRIM v :=
  if_neg (by simp [h])

/-! The family's frame statement: the host interface, events and health (R435 to R461). -/

/-- Settles O46: each command's law in `Laws/Exec/` covers no part outside its list. -/
theorem framesOfHostAndEvents : Obligations.FramesOfHostAndEvents :=
  ⟨fun _ _ _ => leaves_of_edits fun _ => execRegisterWrite_edits,
   fun _ _ => leaves_of_edits fun _ => execCounterClear_edits,
   fun _ => leaves_of_edits fun _ => execPerstN_edits,
   fun _ => leaves_of_edits fun _ => execFunctionLevelReset_edits,
   fun _ => leaves_of_edits fun _ => execDrainTransferDone_edits,
   fun _ _ => leaves_of_edits fun _ => execRingDataWrite_edits,
   fun _ => leaves_of_edits fun _ => execRingDataRead_edits,
   fun _ => leaves_of_edits fun _ => execRingFlush_edits,
   fun _ => leaves_of_edits fun _ => execRingMark_edits,
   fun _ => leaves_of_edits fun _ => execRingRewind_edits,
   fun _ _ => leaves_of_edits fun _ => execRingConfirm_edits,
   fun _ _ => leaves_of_edits fun _ => execRingHrdWrite_edits,
   fun _ => leaves_of_edits fun _ => execMsixUnmask_edits,
   fun _ => leaves_of_edits fun _ => execRingCoalesceTimeout_edits,
   fun _ => leaves_of_edits fun _ => execObjectRequest_edits,
   fun _ => leaves_of_edits fun _ => execMeterRequest_edits,
   fun _ => leaves_of_edits fun _ => execMeterRequestTimeout_edits,
   fun _ => leaves_of_edits fun _ => execCertLoad_edits,
   fun _ => leaves_of_edits fun _ => execEventSummary_edits,
   leaves_of_edits fun _ => execArchiveRead_edits,
   fun _ => leaves_of_edits fun _ => execHealthDailySample_edits,
   fun _ => leaves_of_edits fun _ => execHltUpdate_edits⟩

/-! The reset state (R10; log entry 4): the store lists GLB_RESET_CAUSE alone, so that every other register reads the
reset word of its table. -/

theorem State.reset_inv : State.reset.dev.Inv := ⟨by decide, by decide, by decide⟩

/-- The store's one entry: the cause is POWER_ON. -/
theorem State.reset_cause : State.reset.dev.reg R.GLB_RESET_CAUSE.off = 1#32 := rfl

/-- Every register but GLB_RESET_CAUSE reads its table's reset word. -/
theorem State.reset_reg {off : Nat} (h : off ≠ R.GLB_RESET_CAUSE.off := by decide) : State.reset.dev.reg off = resetWord off := by
  have hn : Maps.get? off [((0x18 : Nat), (1 : Word))] = none := if_neg fun e => h e.symm
  show (Maps.get? off [((0x18 : Nat), (1 : Word))]).getD (resetWord off) = resetWord off
  rw [hn]; rfl

/-- A register of the tables, but GLB_RESET_CAUSE, reads the word that its fields' reset values make. -/
theorem State.reset_reads {off : Nat} {w : Word} (r : RegD) (hr : regAt? off = some r) (hw : BitVec.ofNat 32 (resetOf r.fields) = w)
    (h : off ≠ R.GLB_RESET_CAUSE.off := by decide) : State.reset.dev.reg off = w := by
  rw [State.reset_reg h, resetWord, hr]
  exact hw

/-- Settles O54: GLB_RESET_CAUSE holds POWER_ON (log entry 4), and every other register its table's reset word. -/
theorem resetStartsTheBlock : Obligations.ResetStartsTheBlock :=
  ⟨rfl, rfl, State.reset_inv,
   State.reset_reads R.GLB_ID rfl rfl,
   State.reset_cause,
   State.reset_reads R.FHM_CSMA rfl rfl,
   State.reset_reads R.FHM_LEAD rfl rfl,
   State.reset_reads R.ZXP_TX_TIME rfl rfl,
   State.reset_reads R.MSR_SHIFT rfl rfl,
   State.reset_reads R.ING_TIMEOUT rfl rfl,
   State.reset_reads R.CTX_PIN rfl rfl,
   State.reset_reads R.BIL_CLOSE rfl rfl,
   State.reset_reads R.BAL_ZONE_PPM rfl rfl,
   State.reset_reads R.DST_LIMITS rfl rfl,
   State.reset_reads R.TSU_UTC rfl rfl,
   State.reset_reads R.ETH_n_IP6_CFG rfl rfl,
   State.reset_reads R.NFM_PE_RATED rfl rfl,
   State.reset_reads R.JNL_CKPT rfl rfl,
   State.reset_reads R.PRL_HOLDOFF rfl rfl,
   State.reset_reads R.RNG_REQ_TIMEOUT rfl rfl,
   State.reset_reads R.HLT_WARN rfl rfl⟩

/-! The Cloche's commands. -/

/-- Settles O2: each command's effect by the lemma on its operation. A command that is itself an access to the Cloche finds the
bridge settled (R7). -/
theorem clocheAlarmsAndTamper : Obligations.ClocheAlarmsAndTamper := by
  refine ⟨?alarm, ?lock, ?unlock, ?latchClear, ?zeroize, ?assert, ?inactive, ?hedge, ?trecRead, ?write, ?read⟩
  case alarm =>
    intro s n hn hreached harmed
    refine runs_of_on (f := fun d => if n < 4 ∧ d.alarmAt n ≤ d.clo.count then d.fireAlarm n false else d) ?_
    rw [if_pos ⟨hn, hreached⟩]
    exact Dev.fireAlarm_bits hn harmed
  case lock =>
    exact fun s => runs_of_on (f := fun d => d.cloSettle.lockTamp)
      ((Dev.get_set_other (by decide) _ _).trans (Dev.get_set_same _ F.CLO_TAMP_LOCK_LOCK 1))
  case unlock =>
    intro s hs
    refine runs_of_on (f := fun d => d.cloSettle.unlockTamp) ?_
    rw [Dev.unlockTamp, if_pos hs]
    exact (Dev.get_set_other (by decide) _ _).trans (Dev.get_set_same _ F.CLO_TAMP_LOCK_LOCK 0)
  case latchClear =>
    exact fun s mask n hs hm ha hw => runs_of_on (f := fun d => d.cloSettle.clearLatch mask) (Dev.clearLatch_bit hs hm ha hw)
  case zeroize =>
    intro s he hz ht
    have hcycles : s.dev.cloSettle.cycles = s.dev.cycles :=
      (Dev.cloSettle_edits (m := 0x7cf3f800ffe1b) (h := Edits.refl s.dev)).cycles.resolve_left (by decide)
    refine runs_of_on (f := fun d => d.cloSettle.tamper 12) ⟨Dev.tamper_vault he hz (by rwa [hcycles]), ?_⟩
    rw [Dev.tamper_records he, Maps.getD_put_same]; rfl
  case assert =>
    intro s n hn he ha
    refine runs_of_on (f := fun d => if n < 12 then d.assertSource n else d) ?_
    rw [if_pos hn, Dev.assertSource_records hn he ha, Maps.getD_put_same]
    exact ⟨rfl, rfl⟩
  case inactive =>
    intro s n hn
    refine runs_of_on (f := fun d => if n < 12 then d.inactiveSource n else d) ?_
    rw [if_pos hn]
    exact s.dev.inactiveSource_bit n
  case hedge =>
    intro s pair hp he
    refine ⟨_, rfl, rfl, ?_⟩
    dsimp only
    rw [if_neg (not_or.2 ⟨by omega, by simp [he]⟩), if_pos rfl]
    exact ⟨Maps.getD_put_same .., Dev.inactiveSource_bit _ _⟩
  case trecRead => exact fun s => runs_of_on (f := fun d => d.cloSettle.readTrec) rfl
  case write =>
    intro s b rest v hbridge hwrite hoff hclo
    refine ⟨_, rfl, rfl, ?_⟩
    dsimp only
    rw [hbridge]
    dsimp only
    rw [Dev.cloAct, hwrite, hoff]
    show (Dev.writeTrim _ v.toNat).clo.bridge = rest ∧ (Dev.writeTrim _ v.toNat).get F.CLO_TRIM_TRIM = _
    rw [Dev.writeTrim_applies (d := { s.dev with clo := { s.dev.clo with bridge := rest } }) hclo]
    exact ⟨rfl, Dev.get_set_same _ F.CLO_TRIM_TRIM _⟩
  case read =>
    intro s hbridge
    refine ⟨_, rfl, rfl, ?_⟩
    dsimp only
    rw [hbridge]
    rfl

end Sys2Proof.Machine

namespace Sys2Proof.Machine

set_option Elab.async false

/-! The law of every command at once: what each may do to the seal and to the owner fuses (R37, R46). -/

/-- The parts that command `c` may touch, as a mask for `Edits` of which only bits 21 (the seal may be lifted) and 22 (the owner
fuses may change) say anything: 21 is set for the commands whose effect is, or ends in, a reset or a restart, 22 for BIND_OWNER. -/
def reach : Instr → Nat
  | .bindOwner => 0xFFFFFFFFFFFFFFFFFFDFFFFF
  | .resetAssert .. | .thermalTrip | .watchdogExpire | .powerFailClear | .faultCleared _ | .hostBeat | .resume
  | .drbgReseed _ => 0xFFFFFFFFFFFFFFFFFFBFFFFF
  | _ => 0xFFFFFFFFFFFFFFFFFF9FFFFF

/-- A command's own law, seen within its reach: the mask `r` is given for `reach c`, so that it is a literal. -/
theorem edits_reach {c : Instr} {s : State} {t : Nat} (r : Nat) (h : ∃ d', exec c s = .next { s with dev := d' } ∧ Edits t s.dev d')
    (hr : reach c = r := by rfl) (hm : Nat.land r t = t := by decide) :
    ∃ d', exec c s = .next { s with dev := d' } ∧ Edits (reach c) s.dev d' := by
  obtain ⟨d', hexec, hedits⟩ := h
  exact ⟨d', hexec, hr ▸ hedits.mono hm⟩

/-- The law of a command that lifts no seal and programs no owner fuse. -/
theorem edits_quiet {c : Instr} {s : State} {t : Nat} (h : ∃ d', exec c s = .next { s with dev := d' } ∧ Edits t s.dev d')
    (hr : reach c = 0xFFFFFFFFFFFFFFFFFF9FFFFF := by rfl) (hm : Nat.land 0xFFFFFFFFFFFFFFFFFF9FFFFF t = t := by decide) :
    ∃ d', exec c s = .next { s with dev := d' } ∧ Edits (reach c) s.dev d' := edits_reach _ h hr hm

/-- The law of a command that may lift the seal. -/
theorem edits_reset {c : Instr} {s : State} {t : Nat} (h : ∃ d', exec c s = .next { s with dev := d' } ∧ Edits t s.dev d')
    (hr : reach c = 0xFFFFFFFFFFFFFFFFFFBFFFFF := by rfl) (hm : Nat.land 0xFFFFFFFFFFFFFFFFFFBFFFFF t = t := by decide) :
    ∃ d', exec c s = .next { s with dev := d' } ∧ Edits (reach c) s.dev d' := edits_reach _ h hr hm

/-- Every command answers a next state with the queue as it was, within its reach. -/
theorem exec_edits (c : Instr) (s : State) : ∃ d', exec c s = .next { s with dev := d' } ∧ Edits (reach c) s.dev d' := by
  cases c with
  | registerWrite => exact edits_quiet execRegisterWrite_edits
  | cloAccessArrival => exact edits_quiet execCloAccessArrival_edits
  | counterClear => exact edits_quiet execCounterClear_edits
  | resetAssert => exact edits_reset execResetAssert_edits
  | resetRelease => exact edits_quiet execResetRelease_edits
  | startupStepComplete => exact edits_quiet execStartupStepComplete_edits
  | sealWaitExpire => exact edits_quiet execSealWaitExpire_edits
  | hostSeal => exact edits_quiet execHostSeal_edits
  | thermalTrip => exact edits_reset execThermalTrip_edits
  | thermalTripRelease => exact edits_quiet execThermalTripRelease_edits
  | perstN => exact edits_quiet execPerstN_edits
  | functionLevelReset => exact edits_quiet execFunctionLevelReset_edits
  | powerFail => exact edits_quiet execPowerFail_edits
  | powerFailClear => exact edits_reset execPowerFailClear_edits
  | loadHost => exact edits_quiet execLoadHost_edits
  | storeNor => exact edits_quiet execStoreNor_edits
  | storeNand => exact edits_quiet execStoreNand_edits
  | stage => exact edits_quiet execStage_edits
  | arm => exact edits_quiet execArm_edits
  | trlCancel => exact edits_quiet execTrlCancel_edits
  | bindOwner => exact edits_reach 0xFFFFFFFFFFFFFFFFFFDFFFFF execBindOwner_edits
  | raiseFloor => exact edits_quiet execRaiseFloor_edits
  | graftApply => exact edits_quiet execGraftApply_edits
  | fhmHeadAdd => exact edits_quiet execFhmHeadAdd_edits
  | fhmHeadRemove => exact edits_quiet execFhmHeadRemove_edits
  | fhmHeadRecall => exact edits_quiet execFhmHeadRecall_edits
  | fhmModeEnter => exact edits_quiet execFhmModeEnter_edits
  | fhmModeLeave => exact edits_quiet execFhmModeLeave_edits
  | fhmModeTest => exact edits_quiet execFhmModeTest_edits
  | headRequest => exact edits_quiet execHeadRequest_edits
  | headLeave => exact edits_quiet execHeadLeave_edits
  | rxReport => exact edits_quiet execRxReport_edits
  | ccaBusy => exact edits_quiet execCcaBusy_edits
  | txConfirm => exact edits_quiet execTxConfirm_edits
  | beaconConfirm => exact edits_quiet execBeaconConfirm_edits
  | headStatus => exact edits_quiet execHeadStatus_edits
  | headSilenceTimeout => exact edits_quiet execHeadSilenceTimeout_edits
  | headSuspendTimeout => exact edits_quiet execHeadSuspendTimeout_edits
  | txAtSend => exact edits_quiet execTxAtSend_edits
  | acceptWindowCheck => exact edits_quiet execAcceptWindowCheck_edits
  | beaconDue => exact edits_quiet execBeaconDue_edits
  | beaconConfirmDeadline => exact edits_quiet execBeaconConfirmDeadline_edits
  | txConfirmDeadline => exact edits_quiet execTxConfirmDeadline_edits
  | stormCheck => exact edits_quiet execStormCheck_edits
  | superframeEnd => exact edits_quiet execSuperframeEnd_edits
  | zxCrossing => exact edits_quiet execZxCrossing_edits
  | zxCrossingMissing => exact edits_quiet execZxCrossingMissing_edits
  | zxReacquire => exact edits_quiet execZxReacquire_edits
  | zxPulseGate => exact edits_quiet execZxPulseGate_edits
  | zxgWatchdog => exact edits_quiet execZxgWatchdog_edits
  | zxfFault => exact edits_quiet execZxfFault_edits
  | zxFaultResume => exact edits_quiet execZxFaultResume_edits
  | zxpFaultClear => exact edits_quiet execZxpFaultClear_edits
  | zxBlockDecode => exact edits_quiet execZxBlockDecode_edits
  | zxUplinkEnd => exact edits_quiet execZxUplinkEnd_edits
  | zxAckBitmapFix => exact edits_quiet execZxAckBitmapFix_edits
  | zxOutboundFrameStart => exact edits_quiet execZxOutboundFrameStart_edits
  | zxRoundBoundary => exact edits_quiet execZxRoundBoundary_edits
  | zxpAssign => exact edits_quiet execZxpAssign_edits
  | zxpRelease => exact edits_quiet execZxpRelease_edits
  | zxpCycleRead => exact edits_quiet execZxpCycleRead_edits
  | modPresentFall => exact edits_quiet execModPresentFall_edits
  | moduleRecordRead => exact edits_quiet execModuleRecordRead_edits
  | modPresentRise => exact edits_quiet execModPresentRise_edits
  | msrSyncRequest => exact edits_quiet execMsrSyncRequest_edits
  | msrEnable => exact edits_quiet execMsrEnable_edits
  | msrSyncReset => exact edits_quiet execMsrSyncReset_edits
  | msrSettleDone => exact edits_quiet execMsrSettleDone_edits
  | msrSwapRequest => exact edits_quiet execMsrSwapRequest_edits
  | msrFadeEnd => exact edits_quiet execMsrFadeEnd_edits
  | msrCoefWrite => exact edits_quiet execMsrCoefWrite_edits
  | msrDtMeasure => exact edits_quiet execMsrDtMeasure_edits
  | msrCalUpdate => exact edits_quiet execMsrCalUpdate_edits
  | msrIntervalHandover a b => exact edits_quiet (@execMsrIntervalHandover_edits a b s)
  | msrEnergyLatch => exact edits_quiet execMsrEnergyLatch_edits
  | workItemAdmit => exact edits_quiet execWorkItemAdmit_edits
  | resourceGrant => exact edits_quiet execResourceGrant_edits
  | resourceWaitTimeout => exact edits_quiet execResourceWaitTimeout_edits
  | resourceRetry => exact edits_quiet execResourceRetry_edits
  | contextFetchDone => exact edits_quiet execContextFetchDone_edits
  | keyCacheFillDone => exact edits_quiet execKeyCacheFillDone_edits
  | cryptoLaneDone => exact edits_quiet execCryptoLaneDone_edits
  | parseDone => exact edits_quiet execParseDone_edits
  | billingUpdateDone => exact edits_quiet execBillingUpdateDone_edits
  | confirm => exact edits_quiet execConfirm_edits
  | mirrorWaitExpire => exact edits_quiet execMirrorWaitExpire_edits
  | reassemblyTimeout => exact edits_quiet execReassemblyTimeout_edits
  | ctxAlloc => exact edits_quiet execCtxAlloc_edits
  | ctxAllocAt => exact edits_quiet execCtxAllocAt_edits
  | ctxFree => exact edits_quiet execCtxFree_edits
  | ctxPin => exact edits_quiet execCtxPin_edits
  | ctxUnpin => exact edits_quiet execCtxUnpin_edits
  | keyEpochTick => exact edits_quiet execKeyEpochTick_edits
  | signhashRequest => exact edits_quiet execSignhashRequest_edits
  | signhashBlockEnd => exact edits_quiet execSignhashBlockEnd_edits
  | signhashOpDone => exact edits_quiet execSignhashOpDone_edits
  | arbUrgentChange => exact edits_quiet execArbUrgentChange_edits
  | arbStarved => exact edits_quiet execArbStarved_edits
  | drainTransferDone => exact edits_quiet execDrainTransferDone_edits
  | intervalEnd => exact edits_quiet execIntervalEnd_edits
  | periodBoundary => exact edits_quiet execPeriodBoundary_edits
  | closureSweepStart => exact edits_quiet execClosureSweepStart_edits
  | closureSweepDone => exact edits_quiet execClosureSweepDone_edits
  | attach => exact edits_quiet execAttach_edits
  | detach => exact edits_quiet execDetach_edits
  | queryZone => exact edits_quiet execQueryZone_edits
  | queryMeter => exact edits_quiet execQueryMeter_edits
  | balRestart => exact edits_quiet execBalRestart_edits
  | balEvaluation => exact edits_quiet execBalEvaluation_edits
  | balEvalDone => exact edits_quiet execBalEvalDone_edits
  | dstLoad => exact edits_quiet execDstLoad_edits
  | campaignLoadStepDone => exact edits_quiet execCampaignLoadStepDone_edits
  | dstAdd => exact edits_quiet execDstAdd_edits
  | dstAddClass => exact edits_quiet execDstAddClass_edits
  | dstRemove => exact edits_quiet execDstRemove_edits
  | dstAbort => exact edits_quiet execDstAbort_edits
  | dstClear => exact edits_quiet execDstClear_edits
  | campaignRoundStart => exact edits_quiet execCampaignRoundStart_edits
  | campaignBlockOrder => exact edits_quiet execCampaignBlockOrder_edits
  | collectionEnd => exact edits_quiet execCollectionEnd_edits
  | campaignActivation => exact edits_quiet execCampaignActivation_edits
  | campaignExpire => exact edits_quiet execCampaignExpire_edits
  | campaignAbortBroadcast => exact edits_quiet execCampaignAbortBroadcast_edits
  | bitmapPageInDone => exact edits_quiet execBitmapPageInDone_edits
  | provOpen => exact edits_quiet execProvOpen_edits
  | provPeer => exact edits_quiet execProvPeer_edits
  | provClose => exact edits_quiet execProvClose_edits
  | rootImport => exact edits_quiet execRootImport_edits
  | rootGenerate => exact edits_quiet execRootGenerate_edits
  | rootCommit => exact edits_quiet execRootCommit_edits
  | rootCancel => exact edits_quiet execRootCancel_edits
  | rootErase => exact edits_quiet execRootErase_edits
  | rewrap => exact edits_quiet execRewrap_edits
  | meterInstall => exact edits_quiet execMeterInstall_edits
  | meterCancel => exact edits_quiet execMeterCancel_edits
  | headInstall => exact edits_quiet execHeadInstall_edits
  | headCancel => exact edits_quiet execHeadCancel_edits
  | bcastRoll => exact edits_quiet execBcastRoll_edits
  | exportCert => exact edits_quiet execExportCert_edits
  | resume => exact edits_reset execResume_edits
  | classAkInstall => exact edits_quiet execClassAkInstall_edits
  | provSessionExpire => exact edits_quiet execProvSessionExpire_edits
  | maskRefresh => exact edits_quiet execMaskRefresh_edits
  | drbgReseed => exact edits_reset execDrbgReseed_edits
  | drbgStop => exact edits_quiet execDrbgStop_edits
  | bcastRollInstant => exact edits_quiet execBcastRollInstant_edits
  | tsuStep => exact edits_quiet execTsuStep_edits
  | tsuSlew => exact edits_quiet execTsuSlew_edits
  | slewDone => exact edits_quiet execSlewDone_edits
  | tsuIncrWrite => exact edits_quiet execTsuIncrWrite_edits
  | tsuTimeRead => exact edits_quiet execTsuTimeRead_edits
  | ptpSync => exact edits_quiet execPtpSync_edits
  | ptpFollowUp => exact edits_quiet execPtpFollowUp_edits
  | ptpDelayReq => exact edits_quiet execPtpDelayReq_edits
  | ptpDelayResp => exact edits_quiet execPtpDelayResp_edits
  | ptpPdelayReq => exact edits_quiet execPtpPdelayReq_edits
  | ptpPdelayResp => exact edits_quiet execPtpPdelayResp_edits
  | ptpPdelayRespFollowUp => exact edits_quiet execPtpPdelayRespFollowUp_edits
  | ptpAnnounce => exact edits_quiet execPtpAnnounce_edits
  | ptpAnnounceTimeout => exact edits_quiet execPtpAnnounceTimeout_edits
  | ptpMessageDue => exact edits_quiet execPtpMessageDue_edits
  | holdoverLimit => exact edits_quiet execHoldoverLimit_edits
  | utcLeap => exact edits_quiet execUtcLeap_edits
  | ppsInEdge => exact edits_quiet execPpsInEdge_edits
  | ppsInMissing => exact edits_quiet execPpsInMissing_edits
  | tsuPpsInRead => exact edits_quiet execTsuPpsInRead_edits
  | cloMeasureStart => exact edits_quiet execCloMeasureStart_edits
  | cloMeasureDone => exact edits_quiet execCloMeasureDone_edits
  | ethNeighborSolicitation => exact edits_quiet execEthNeighborSolicitation_edits
  | ethEchoRequest => exact edits_quiet execEthEchoRequest_edits
  | ethArpRequest => exact edits_quiet execEthArpRequest_edits
  | ethNeighborAdvertisement => exact edits_quiet execEthNeighborAdvertisement_edits
  | ethFrameDrop => exact edits_quiet execEthFrameDrop_edits
  | neighbourSolicitRetry => exact edits_quiet execNeighbourSolicitRetry_edits
  | neighbourEntryExpire => exact edits_quiet execNeighbourEntryExpire_edits
  | ethLinkChange => exact edits_quiet execEthLinkChange_edits
  | ethCounterRead => exact edits_quiet execEthCounterRead_edits
  | format => exact edits_quiet execFormat_edits
  | archRead => exact edits_quiet execArchRead_edits
  | rakeNow => exact edits_quiet execRakeNow_edits
  | rakePassStart => exact edits_quiet execRakePassStart_edits
  | rakeBehind => exact edits_quiet execRakeBehind_edits
  | nandReadDone => exact edits_quiet execNandReadDone_edits
  | nandProgramDone => exact edits_quiet execNandProgramDone_edits
  | wearLevelCheck => exact edits_quiet execWearLevelCheck_edits
  | checkpointTrigger => exact edits_quiet execCheckpointTrigger_edits
  | ckptNow => exact edits_quiet execCkptNow_edits
  | checkpointComplete => exact edits_quiet execCheckpointComplete_edits
  | zeroize => exact edits_quiet execZeroize_edits
  | anchor => exact edits_quiet execAnchor_edits
  | anchorApply => exact edits_quiet execAnchorApply_edits
  | tickLoad => exact edits_quiet execTickLoad_edits
  | tickLoadApply => exact edits_quiet execTickLoadApply_edits
  | unlock => exact edits_quiet execUnlock_edits
  | chargeClear => exact edits_quiet execChargeClear_edits
  | tampLock => exact edits_quiet execTampLock_edits
  | tamperLatchClear => exact edits_quiet execTamperLatchClear_edits
  | oscStoppedClear => exact edits_quiet execOscStoppedClear_edits
  | cloTrimWrite => exact edits_quiet execCloTrimWrite_edits
  | cloAlarmFire => exact edits_quiet execCloAlarmFire_edits
  | oscStopDetect => exact edits_quiet execOscStopDetect_edits
  | oscResume => exact edits_quiet execOscResume_edits
  | tamperAssert => exact edits_quiet execTamperAssert_edits
  | hedgeSample => exact edits_quiet execHedgeSample_edits
  | supplyToBattery => exact edits_quiet execSupplyToBattery_edits
  | supplyToMain => exact edits_quiet execSupplyToMain_edits
  | retLost => exact edits_quiet execRetLost_edits
  | vbatMeasure => exact edits_quiet execVbatMeasure_edits
  | cloTimeRead => exact edits_quiet execCloTimeRead_edits
  | cloTrecRead => exact edits_quiet execCloTrecRead_edits
  | handover => exact edits_quiet execHandover_edits
  | take => exact edits_quiet execTake_edits
  | forceTake => exact edits_quiet execForceTake_edits
  | clearNonrevertive => exact edits_quiet execClearNonrevertive_edits
  | prlResync => exact edits_quiet execPrlResync_edits
  | hostBeat => exact edits_reset execHostBeat_edits
  | hostBeatTimeout => exact edits_quiet execHostBeatTimeout_edits
  | watchdogExpire => exact edits_reset execWatchdogExpire_edits
  | faultVerdict => exact edits_quiet execFaultVerdict_edits
  | faultCleared => exact edits_reset execFaultCleared_edits
  | pairActiveFall => exact edits_quiet execPairActiveFall_edits
  | pairTakeRise => exact edits_quiet execPairTakeRise_edits
  | pairHealthyChange => exact edits_quiet execPairHealthyChange_edits
  | hello => exact edits_quiet execHello_edits
  | helloDue => exact edits_quiet execHelloDue_edits
  | negotiateTimeout => exact edits_quiet execNegotiateTimeout_edits
  | holdoffExpire => exact edits_quiet execHoldoffExpire_edits
  | probationExpire => exact edits_quiet execProbationExpire_edits
  | drillAgeUpdate => exact edits_quiet execDrillAgeUpdate_edits
  | standbySelftest => exact edits_quiet execStandbySelftest_edits
  | mirror => exact edits_quiet execMirror_edits
  | digest => exact edits_quiet execDigest_edits
  | resync => exact edits_quiet execResync_edits
  | resyncPhaseDone => exact edits_quiet execResyncPhaseDone_edits
  | command => exact edits_quiet execCommand_edits
  | forwardUp => exact edits_quiet execForwardUp_edits
  | acceptNotice => exact edits_quiet execAcceptNotice_edits
  | forwardDown => exact edits_quiet execForwardDown_edits
  | downConfirm => exact edits_quiet execDownConfirm_edits
  | runnerRetransmit => exact edits_quiet execRunnerRetransmit_edits
  | runnerLinkDown => exact edits_quiet execRunnerLinkDown_edits
  | runnerLinkUp => exact edits_quiet execRunnerLinkUp_edits
  | ringDataWrite => exact edits_quiet execRingDataWrite_edits
  | ringDataRead => exact edits_quiet execRingDataRead_edits
  | ringFlush => exact edits_quiet execRingFlush_edits
  | ringMark => exact edits_quiet execRingMark_edits
  | ringRewind => exact edits_quiet execRingRewind_edits
  | ringConfirm => exact edits_quiet execRingConfirm_edits
  | ringHrdWrite => exact edits_quiet execRingHrdWrite_edits
  | msixUnmask => exact edits_quiet execMsixUnmask_edits
  | ringCoalesceTimeout => exact edits_quiet execRingCoalesceTimeout_edits
  | objectRequest => exact edits_quiet execObjectRequest_edits
  | meterRequest => exact edits_quiet execMeterRequest_edits
  | meterRequestTimeout => exact edits_quiet execMeterRequestTimeout_edits
  | certLoad => exact edits_quiet execCertLoad_edits
  | eventSummary => exact edits_quiet execEventSummary_edits
  | archiveRead => exact edits_quiet execArchiveRead_edits
  | healthDailySample => exact edits_quiet execHealthDailySample_edits
  | hltUpdate => exact edits_quiet execHltUpdate_edits
  | tamperInactive => exact edits_quiet execTamperInactive_edits
  | zxfFall => exact edits_quiet execZxfFall_edits
  | ppsOutEdge => exact edits_quiet execPpsOutEdge_edits
  | saturation => exact edits_quiet execSaturation_edits

/-- Only BIND_OWNER reaches the owner fuses. -/
theorem reach_owner {c : Instr} (h : c ≠ .bindOwner) : (reach c).testBit 22 = false := by
  unfold reach
  split
  · exact absurd rfl h
  all_goals decide

/-- Only a reset or a restart lifts the seal. -/
theorem reach_seal {c : Instr} (hassert : ∀ a b, c ≠ .resetAssert a b) (htrip : c ≠ .thermalTrip) (hdog : c ≠ .watchdogExpire)
    (hclear : c ≠ .powerFailClear) (hcause : ∀ a, c ≠ .faultCleared a) (hbeat : c ≠ .hostBeat) (hresume : c ≠ .resume)
    (hseed : ∀ a, c ≠ .drbgReseed a) : (reach c).testBit 21 = false := by
  unfold reach
  split
  case h_1 => decide
  case h_2 => exact absurd rfl (hassert _ _)
  case h_3 => exact absurd rfl htrip
  case h_4 => exact absurd rfl hdog
  case h_5 => exact absurd rfl hclear
  case h_6 => exact absurd rfl (hcause _)
  case h_7 => exact absurd rfl hbeat
  case h_8 => exact absurd rfl hresume
  case h_9 => exact absurd rfl (hseed _)
  case h_10 => decide

/-- What a command answered, with its law. -/
theorem edits_of_exec {c : Instr} {s t : State} (h : exec c s = .next t) : Edits (reach c) s.dev t.dev := by
  obtain ⟨d', hexec, hedits⟩ := exec_edits c s
  obtain rfl : { s with dev := d' } = t := Host.Outcome.next.inj (hexec.symm.trans h)
  exact hedits

/-- Settles O57: `exec_edits` gives the fuses for every command, and the seal for each that no reset follows. -/
theorem sealStaysExceptOnResets : Obligations.SealStaysExceptOnResets := by
  intro s t c hexec
  have h := edits_of_exec hexec
  exact ⟨h.fuses, fun hsealed hassert htrip hdog hclear hcause hbeat hresume hseed =>
    h.sealed.resolve_left (by simp [reach_seal hassert htrip hdog hclear hcause hbeat hresume hseed]) hsealed⟩

/-! The Trellis loader's commands end with `trlDone`, which shows the result and changes no part but registers and events. -/

/-- A command that the loader takes: it is not busy, and a base is live where the command needs one (R41). -/
theorem Dev.trlCmd_takes {d : Dev} {needsBase : Bool} {slot : Option Nat} {f : Dev → Dev}
    (hbusy : d.flag F.TRL_CMD_STATUS_BUSY = false)
    (hbase : needsBase = true → d.trlState = Trl.structured ∨ d.trlState = Trl.sealed) : d.trlCmd needsBase slot f = f d := by
  unfold Dev.trlCmd
  rw [if_neg (by simp [hbusy]), if_neg]
  cases needsBase with
  | false => simp
  | true => rcases hbase rfl with h | h <;> simp [h]

@[simp] theorem Dev.trlDone_trl (d : Dev) (code : Nat) (slot : Option Nat) : (d.trlDone code slot).trl = d.trl :=
  (Dev.trlDone_edits (m := 0x340060004c003) (h := Edits.refl d)).trl.resolve_left (by decide)

@[simp] theorem Dev.trlDone_nfm (d : Dev) (code : Nat) (slot : Option Nat) : (d.trlDone code slot).nfm = d.nfm :=
  (Dev.trlDone_edits (m := 0x340060004c003) (h := Edits.refl d)).nfm.resolve_left (by decide)

/-- A field of a register that ends no command, after the end of one: it is outside the events' blocks. -/
theorem Dev.get_trlDone_other {y : Fld} (d : Dev) (code : Nat) (slot : Option Nat) (hstatus : y.off ≠ F.TRL_CMD_STATUS_RESULT.off := by decide)
    (hint : y.off ≠ F.TRL_INT_STATUS_CMD_DONE.off := by decide)
    (hslot : ∀ n < 3, y.off ≠ (F.TRL_SLOT_STATUS_LAST_RESULT.at n).off := by decide) (ho : y.off < 4194304 := by decide)
    (hy : Nat.testBit 0x340040004c003 (regBit y.off) = false := by decide) : (d.trlDone code slot).get y = d.get y := by
  unfold Dev.trlDone
  extract_lets d₁
  have h₁ : d₁.get y = d.get y := by
    cases slot with
    | none => rfl
    | some n =>
      show (if n < 3 then d.set _ code else d).get y = d.get y
      split
      · exact Dev.get_set_other (hslot n ‹_›) d code
      · rfl
  rw [Dev.raise_get _ _ _ _ ho hy, Dev.get_set_other hint, Dev.get_set_other (x := F.TRL_CMD_STATUS_BUSY) hstatus,
    Dev.get_set_other hstatus, h₁]

/-- The result of a command, in the eight bits of its field. -/
theorem Dev.trlDone_result (d : Dev) (code : Nat) (slot : Option Nat) : (d.trlDone code slot).get F.TRL_CMD_STATUS_RESULT = code % 256 := by
  unfold Dev.trlDone
  extract_lets d₁
  rw [Dev.raise_get, Dev.get_set_other (by decide), Dev.get_set_apart (by decide) (by decide) (by decide)]
  exact Dev.get_set_same d₁ F.TRL_CMD_STATUS_RESULT code

/-- The result that a Graft slot keeps of its last command. -/
theorem Dev.trlDone_lastResult (d : Dev) (code : Nat) {n : Nat} (hn : n < 3) :
    (d.trlDone code (some n)).get (F.TRL_SLOT_STATUS_LAST_RESULT.at n) = code % 256 := by
  have hoff : ∀ n < 3, (F.TRL_SLOT_STATUS_LAST_RESULT.at n).off ≠ F.TRL_INT_STATUS_CMD_DONE.off ∧
      (F.TRL_SLOT_STATUS_LAST_RESULT.at n).off ≠ F.TRL_CMD_STATUS_RESULT.off ∧ (F.TRL_SLOT_STATUS_LAST_RESULT.at n).off < 4194304 ∧
      Nat.testBit 0x340040004c003 (regBit (F.TRL_SLOT_STATUS_LAST_RESULT.at n).off) = false := by decide
  obtain ⟨hint, hstatus, ho, hy⟩ := hoff n hn
  unfold Dev.trlDone
  rw [Dev.raise_get _ _ _ _ ho hy, Dev.get_set_other hint, Dev.get_set_other (x := F.TRL_CMD_STATUS_BUSY) hstatus,
    Dev.get_set_other hstatus]
  show (if n < 3 then d.set _ code else d).get _ = _
  rw [if_pos hn]
  exact Dev.get_set_same d (F.TRL_SLOT_STATUS_LAST_RESULT.at n) code (show 15 < 32 by decide) (show 8 ≤ 15 by decide)

/-- BIND_OWNER on blank fuses programs the hash of the live base's owner key (R37). -/
theorem bindOwner_programs {s : State} (hbusy : s.dev.flag F.TRL_CMD_STATUS_BUSY = false)
    (hbase : s.dev.trlState = Trl.structured ∨ s.dev.trlState = Trl.sealed) (hblank : s.dev.trl.ownerFuse = none) :
    Runs .bindOwner s fun d => d.trl.ownerFuse = some (Crypto.sha256 (beBytes 64 s.dev.trl.ownerKey)).toNat ∧
      d.get F.TRL_STATUS_OWNER_BOUND = 1 ∧ d.get F.TRL_CMD_STATUS_RESULT = Res.ok := by
  refine ⟨_, rfl, rfl, ?_⟩
  dsimp only
  rw [Dev.trlCmd_takes hbusy fun _ => hbase]
  simp only [hblank]
  refine ⟨by rw [Dev.trlDone_trl]; rfl, ?_, Dev.trlDone_result ..⟩
  rw [Dev.get_trlDone_other]
  exact Dev.get_set_same _ F.TRL_STATUS_OWNER_BOUND 1

/-- Settles O56: by `exec_edits` and the law of a cycle no other command and no cycle reaches the fuses; BIND_OWNER by its two cases. -/
theorem ownerFusesOnlyByBindOwner : Obligations.OwnerFusesOnlyByBindOwner := by
  refine ⟨?other, ?idle, fun s hbusy hbase hblank => bindOwner_programs hbusy hbase hblank, ?again⟩
  case other =>
    intro s t c hc hexec
    exact (edits_of_exec hexec).owner.resolve_left (by simp [reach_owner hc])
  case idle =>
    intro s
    exact (Dev.tick_edits (m := 0x74f3e800ffe8f) (h := Edits.refl s.dev)).owner.resolve_left (by decide)
  case again =>
    intro s h hbusy hbase howner
    refine ⟨_, rfl, rfl, ?_⟩
    dsimp only
    rw [Dev.trlCmd_takes hbusy fun _ => hbase]
    simp only [howner]
    exact ⟨by rw [Dev.trlDone_trl]; exact howner, Dev.trlDone_result ..⟩

/-! A reset changes most parts (R470), and besides the parts its mask counts the seal: the frame of an edit whose mask has the bits of
the seal and the owner fuses, which stand for no part. -/

/-- A part whose bits a mask leaves out is as it was. -/
theorem Edits.same {m : Nat} {d d' : Dev} (h : Edits m d d') {p : Part} (hbit : ¬ m.testBit p.bit = true)
    (hpair : p = .regs 16 → ¬ m.testBit 31 = true) : p.same d d' := by
  cases p with
  | regs b =>
    refine fun off ho hb => (h.face.regs off ho).resolve_left ?_
    unfold regBit
    split
    · exact hpair (by subst_vars; rfl)
    · rw [hb]; exact hbit
  | host => exact h.face.host.resolve_left hbit
  | out => exact h.face.out.resolve_left hbit
  | cycles => exact h.cycles.resolve_left hbit
  | free => exact h.free.resolve_left hbit
  | lastRead => exact h.lastRead.resolve_left hbit
  | glb => exact h.glb.resolve_left hbit
  | trl => exact h.trl.resolve_left hbit
  | tsu => exact h.tsu.resolve_left hbit
  | eth => exact h.eth.resolve_left hbit
  | fhm => exact h.fhm.resolve_left hbit
  | dst => exact h.dst.resolve_left hbit
  | eng => exact h.eng.resolve_left hbit
  | bil => exact h.bil.resolve_left hbit
  | key => exact h.key.resolve_left hbit
  | dur => exact h.dur.resolve_left hbit
  | jnl => exact h.jnl.resolve_left hbit
  | nfm => exact h.nfm.resolve_left hbit
  | clo => exact h.clo.resolve_left hbit
  | prl => exact h.prl.resolve_left hbit
  | zxp => exact h.zxp.resolve_left hbit
  | msr => exact h.msr.resolve_left hbit

theorem Part.bit_ne_fuses (p : Part) : p.bit ≠ 21 ∧ p.bit ≠ 22 := by
  cases p <;> simp only [Part.bit] <;> omega

/-- A command whose meaning is an edit within mask `m` leaves alone every part outside a list that covers `m`, bits 21 and 22 of the
seal and the owner fuses apart. -/
theorem leaves_of_fuse_edits {c : Instr} {m : Nat} {ps : List Part}
    (h : ∀ s, ∃ d', exec c s = .next { s with dev := d' } ∧ Edits m s.dev d')
    (hm : Nat.land (Part.mask ps ||| (2 ^ 21 ||| 2 ^ 22)) m = m := by decide) : Leaves c ps := by
  intro s
  obtain ⟨d', hexec, hedits⟩ := h s
  refine ⟨_, hexec, rfl, fun p hp => ?_⟩
  have hbits : ∀ k, m.testBit k = true → k ≠ p.bit ∧ (k = 31 → p ≠ .regs 16) := by
    intro k hk
    have hk' := sub_bit hm hk
    rw [Nat.testBit_or, Nat.testBit_or, Nat.testBit_two_pow, Nat.testBit_two_pow] at hk'
    simp only [Bool.or_eq_true, decide_eq_true_eq] at hk'
    rcases hk' with hmask | rfl | rfl
    · obtain ⟨q, hq, rfl | ⟨rfl, rfl⟩⟩ := Part.testBit_mask hmask
      · exact ⟨fun e => hp (Part.bit_inj e ▸ hq), fun e => absurd e q.bit_ne⟩
      · exact ⟨fun e => p.bit_ne e.symm, fun _ e => hp (e ▸ hq)⟩
    · exact ⟨p.bit_ne_fuses.1.symm, fun e => absurd e (by decide)⟩
    · exact ⟨p.bit_ne_fuses.2.symm, fun e => absurd e (by decide)⟩
  exact hedits.same (fun e => (hbits _ e).1 rfl) fun e h31 => (hbits 31 h31).2 rfl e

/-! The family's frame statement: keys, roots, the Trellis, Grafts, resets, start-up and storage. -/

/-- Settles O50: each command's law in `Laws/Exec/` covers no part outside its list. -/
theorem framesOfKeysTrellisAndStorage : Obligations.FramesOfKeysTrellisAndStorage :=
  ⟨fun _ _ => leaves_of_fuse_edits fun _ => execResetAssert_edits,
   fun _ => leaves_of_edits fun _ => execResetRelease_edits,
   fun _ => leaves_of_edits fun _ => execStartupStepComplete_edits,
   leaves_of_edits fun _ => execSealWaitExpire_edits,
   leaves_of_edits fun _ => execHostSeal_edits,
   leaves_of_fuse_edits fun _ => execThermalTrip_edits,
   leaves_of_edits fun _ => execThermalTripRelease_edits,
   leaves_of_edits fun _ => execPowerFail_edits,
   leaves_of_fuse_edits fun _ => execPowerFailClear_edits,
   fun _ => leaves_of_edits fun _ => execLoadHost_edits,
   fun _ => leaves_of_edits fun _ => execStoreNor_edits,
   fun _ => leaves_of_edits fun _ => execStoreNand_edits,
   fun _ _ => leaves_of_edits fun _ => execStage_edits,
   fun _ => leaves_of_edits fun _ => execArm_edits,
   fun _ => leaves_of_edits fun _ => execTrlCancel_edits,
   leaves_of_fuse_edits fun _ => execBindOwner_edits,
   leaves_of_edits fun _ => execRaiseFloor_edits,
   fun _ _ => leaves_of_edits fun _ => execGraftApply_edits,
   leaves_of_edits fun _ => execProvOpen_edits,
   fun _ => leaves_of_edits fun _ => execProvPeer_edits,
   leaves_of_edits fun _ => execProvClose_edits,
   fun _ _ _ => leaves_of_edits fun _ => execRootImport_edits,
   fun _ => leaves_of_edits fun _ => execRootGenerate_edits,
   leaves_of_edits fun _ => execRootCommit_edits,
   leaves_of_edits fun _ => execRootCancel_edits,
   fun _ => leaves_of_edits fun _ => execRootErase_edits,
   fun _ => leaves_of_edits fun _ => execRewrap_edits,
   fun _ => leaves_of_edits fun _ => execMeterInstall_edits,
   fun _ => leaves_of_edits fun _ => execMeterCancel_edits,
   fun _ => leaves_of_edits fun _ => execHeadInstall_edits,
   fun _ => leaves_of_edits fun _ => execHeadCancel_edits,
   fun _ => leaves_of_edits fun _ => execBcastRoll_edits,
   leaves_of_edits fun _ => execExportCert_edits,
   leaves_of_fuse_edits fun _ => execResume_edits,
   fun _ => leaves_of_edits fun _ => execClassAkInstall_edits,
   leaves_of_edits fun _ => execProvSessionExpire_edits,
   fun _ => leaves_of_edits fun _ => execMaskRefresh_edits,
   fun _ => leaves_of_fuse_edits fun _ => execDrbgReseed_edits,
   leaves_of_edits fun _ => execDrbgStop_edits,
   fun _ => leaves_of_edits fun _ => execBcastRollInstant_edits,
   fun _ => leaves_of_edits fun _ => execFormat_edits,
   leaves_of_edits fun _ => execArchRead_edits,
   leaves_of_edits fun _ => execRakeNow_edits,
   leaves_of_edits fun _ => execRakePassStart_edits,
   leaves_of_edits fun _ => execRakeBehind_edits,
   fun _ _ _ _ _ _ _ _ _ => leaves_of_edits fun _ => execNandReadDone_edits,
   fun _ _ _ _ _ => leaves_of_edits fun _ => execNandProgramDone_edits,
   leaves_of_edits fun _ => execWearLevelCheck_edits,
   fun _ => leaves_of_edits fun _ => execCheckpointTrigger_edits,
   leaves_of_edits fun _ => execCkptNow_edits,
   leaves_of_edits fun _ => execCheckpointComplete_edits⟩

/-! What a restart leaves (R372, R406, R470), field by field. -/

/-- A word is as it was after a field of another register is set. -/
theorem Dev.reg_set_other {x : Fld} {off : Nat} (h : off ≠ x.off) (d : Dev) (v : Nat) : (d.set x v).reg off = d.reg off :=
  Dev.reg_setReg_other h d _

@[simp] theorem Dev.cloAfterReset_glb (d : Dev) : d.cloAfterReset.glb = d.glb :=
  (Dev.cloAfterReset_edits (m := 0x800000020000) (h := Edits.refl d)).glb.resolve_left (by decide)

/-- A restart adds its causes to GLB_RESET_CAUSE, and WARNED where a power fail was on. -/
theorem Dev.restart_cause (d : Dev) (bits : Nat) : (d.restart bits).reg R.GLB_RESET_CAUSE.off =
    d.reg R.GLB_RESET_CAUSE.off ||| BitVec.ofNat 32 (bits + b2n d.glb.powerFail * 2) := by
  have hclo : d.cloAfterReset.reg R.GLB_RESET_CAUSE.off = d.reg R.GLB_RESET_CAUSE.off :=
    (Dev.cloAfterReset_edits (m := 0x800000020000) (h := Edits.refl d)).reg _
  unfold Dev.restart
  extract_lets d₁ warned lost nonrev revert mons face jnl d₂ d₃ d₄ here d₅
  have hwarned : warned = b2n d.glb.powerFail * 2 := by
    simp only [warned, d₁, Dev.cloAfterReset_glb, Rc.warned, b2n]
    split <;> rfl
  have hkept : d₂.reg R.GLB_RESET_CAUSE.off = d₁.reg R.GLB_RESET_CAUSE.off := by
    simp only [d₂, face, Dev.reg, Face.reg, Maps.getD]
    rw [Maps.get?_filter_keep keptReg (by decide)]
  rw [Dev.reg_set_other (by decide), Dev.reg_set_other (by decide), Dev.reg_set_other (by decide),
    Dev.reg_set_other (by decide), Dev.reg_set_other (by decide), Dev.reg_setReg_same, hkept, hclo, hwarned]

@[simp] theorem Dev.restart_powerFail (d : Dev) (bits : Nat) : (d.restart bits).glb.powerFail = d.glb.powerFail :=
  congrArg (·.powerFail) (d.cloAfterReset_glb : d.cloAfterReset.glb = d.glb)

@[simp] theorem Dev.restart_sealed (d : Dev) (bits : Nat) : (d.restart bits).trl.sealed = false := rfl

/-- A restart leaves start-up before step 3. -/
@[simp] theorem Dev.restart_bootStep (d : Dev) (bits : Nat) : (d.restart bits).get F.GLB_BOOT_STEP = 2 :=
  Dev.get_set_same _ F.GLB_BOOT_STEP 2

/-- R470, R484: a reset that holds the device. -/
theorem resetAssert_resets (s : State) (a b : Bool) (h : a = true ∨ b = true) : Runs (.resetAssert a b) s fun d =>
    d.glb.inReset = true ∧ d.trl.sealed = false ∧ d.get F.GLB_BOOT_STEP = 2 ∧ d.reg R.GLB_RESET_CAUSE.off =
      s.dev.reg R.GLB_RESET_CAUSE.off ||| BitVec.ofNat 32 (b2n a * 4 + b2n b * 8 + b2n s.dev.glb.powerFail * 2) := by
  refine ⟨_, rfl, rfl, ?_⟩
  dsimp only
  rw [if_neg (by rcases h with rfl | rfl <;> simp)]
  refine ⟨rfl, rfl, Dev.restart_bootStep .., (Dev.restart_cause ..).trans ?_⟩
  cases a <;> cases b <;> rfl

theorem thermalTrip_resets (s : State) : Runs .thermalTrip s fun d => d.glb.inReset = true ∧ d.glb.tripHeld = true ∧
    d.reg R.GLB_RESET_CAUSE.off = s.dev.reg R.GLB_RESET_CAUSE.off ||| BitVec.ofNat 32 (16 + b2n s.dev.glb.powerFail * 2) :=
  ⟨_, rfl, rfl, rfl, rfl, Dev.restart_cause ..⟩

/-! The end of a reset (R470, R473, R484). -/

/-- A reset ends where no line and no trip holds it. -/
theorem Dev.leaveReset_glb {d : Dev} (hin : d.glb.inReset = true) (hresetN : d.glb.resetNLow = false)
    (hgood : d.glb.pwrgoodLow = false) (htrip : d.glb.tripHeld = false) :
    d.leaveReset.glb = { d.glb with inReset := false, released := d.cycles } := by
  simp [Dev.leaveReset, hin, hresetN, hgood, htrip]

/-- PWRGOOD low holds the reset on. -/
theorem Dev.leaveReset_of_pwrgoodLow {d : Dev} (h : d.glb.pwrgoodLow = true) : d.leaveReset = d := by
  simp [Dev.leaveReset, h]

theorem resetRelease_ends (s : State) (hin : s.dev.glb.inReset = true) (htrip : s.dev.glb.tripHeld = false) :
    Runs (.resetRelease true) s fun d => d.glb.inReset = false ∧ d.glb.resetNLow = false ∧ d.glb.pwrgoodLow = false := by
  have h := Dev.leaveReset_glb (d := { s.dev with glb := { s.dev.glb with resetNLow := false, pwrgoodLow := false } }) hin rfl rfl htrip
  exact ⟨_, rfl, rfl, congrArg Glb.inReset h, congrArg Glb.resetNLow h, congrArg Glb.pwrgoodLow h⟩

theorem resetRelease_holds (s : State) (hin : s.dev.glb.inReset = true) :
    Runs (.resetRelease false) s fun d => d.glb.inReset = true ∧ d.glb.pwrgoodLow = true := by
  refine ⟨_, rfl, rfl, ?_⟩
  dsimp only
  rw [Dev.leaveReset_of_pwrgoodLow rfl]
  exact ⟨hin, rfl⟩

theorem thermalTripRelease_ends (s : State) (hin : s.dev.glb.inReset = true) (hresetN : s.dev.glb.resetNLow = false)
    (hgood : s.dev.glb.pwrgoodLow = false) :
    Runs .thermalTripRelease s fun d => d.glb.inReset = false ∧ d.glb.tripHeld = false := by
  have h := Dev.leaveReset_glb (d := { s.dev with glb := { s.dev.glb with tripHeld := false } }) hin hresetN hgood rfl
  exact ⟨_, rfl, rfl, congrArg Glb.inReset h, congrArg Glb.tripHeld h⟩

/-! The seal (R45). -/

/-- The seal shows in TRL_STATUS. -/
theorem Dev.sealUp_seals (d : Dev) : d.sealUp.trl.sealed = true ∧ d.sealUp.trlState = Trl.sealed :=
  ⟨rfl, Dev.get_set_same _ F.TRL_STATUS_STATE Trl.sealed⟩

/-- With no stored Graft to reapply, step 7 ends with the seal set and nothing waited for. -/
theorem Dev.endStep7_seals {d : Dev} (bad : List Nat) (h : d.nfm.grafts = []) : (d.endStep7 bad).trl.sealed = true ∧
    (d.endStep7 bad).glb.sealWait = false ∧ (d.endStep7 bad).trlState = Trl.sealed ∧ (d.endStep7 bad).get F.GLB_BOOT_STEP = 7 := by
  unfold Dev.endStep7
  extract_lets d₁ glb d₂
  have h₁ : d₁.trl.sealed = true ∧ d₁.trlState = Trl.sealed ∧ d₁.nfm = d.nfm := by
    simp only [d₁]
    split
    · exact ⟨‹_›, Dev.get_set_same _ F.TRL_STATUS_STATE Trl.sealed, rfl⟩
    · exact ⟨d.sealUp_seals.1, d.sealUp_seals.2, rfl⟩
  obtain ⟨hsealed, hstate, hnfm⟩ := h₁
  have h₂ : d₂ = { d₁ with glb := { d₁.glb with sealWait := false } } := by
    simp only [d₂, hnfm, h, List.foldl_nil]
    rfl
  rw [h₂]
  exact ⟨hsealed, rfl, (Dev.get_set_other (by decide) _ _).trans hstate, Dev.get_set_same _ F.GLB_BOOT_STEP 7⟩

theorem hostSeal_seals (s : State) (hstate : s.dev.trlState = Trl.structured) (hgrafts : s.dev.nfm.grafts = []) :
    Runs .hostSeal s fun d => d.trl.sealed = true ∧ d.trlState = Trl.sealed := by
  refine ⟨_, rfl, rfl, ?_⟩
  dsimp only
  rw [if_neg (not_not.2 hstate)]
  split
  · obtain ⟨hsealed, -, hshown, -⟩ := Dev.endStep7_seals s.dev.glb.badGrafts hgrafts
    exact ⟨hsealed, hshown⟩
  · exact s.dev.sealUp_seals

theorem sealWaitExpire_seals (s : State) (hwait : s.dev.glb.sealWait = true) (hstate : s.dev.trlState = Trl.structured)
    (hdue : s.dev.glb.sealAt + s.dev.trellis.device.hostSealWait * msCycles ≤ s.dev.cycles) (hgrafts : s.dev.nfm.grafts = []) :
    Runs .sealWaitExpire s fun d =>
      d.trl.sealed = true ∧ d.glb.sealWait = false ∧ d.trlState = Trl.sealed ∧ d.get F.GLB_BOOT_STEP = 7 := by
  refine ⟨_, rfl, rfl, ?_⟩
  dsimp only
  rw [if_pos ⟨hwait, hstate, decide_eq_true hdue⟩]
  exact Dev.endStep7_seals _ hgrafts
/-! Power fail (R371, R372, R472). -/

@[simp] theorem Dev.protectNand_glb (d : Dev) (on : Bool) : (d.protectNand on).glb = d.glb := rfl
@[simp] theorem Dev.protectNand_prl (d : Dev) (on : Bool) : (d.protectNand on).prl = d.prl := rfl
@[simp] theorem Dev.protectNand_nfm (d : Dev) (on : Bool) : (d.protectNand on).nfm = d.nfm := rfl
@[simp] theorem Dev.protectNand_eng (d : Dev) (on : Bool) : (d.protectNand on).eng = d.eng := rfl

/-- The write-protect pin of the last channel is the last thing that leaves the device. -/
@[simp] theorem Dev.protectNand_lastOut (d : Dev) (on : Bool) : (d.protectNand on).lastOut = some (.pin 4 7 (!on)) := rfl

/-- Flushed, the NAND has no stripe under way. -/
theorem Nand.flush_empty (n : Nand) : n.flush.filling = [] ∧ n.flush.programming = [] := by
  unfold Nand.flush
  extract_lets n₁
  refine ⟨?_, rfl⟩
  show n₁.filling = []
  simp only [n₁]
  split
  · assumption
  · rfl

/-- Where the device does not serve and no package is staged, nothing armed comes and nothing is marked. -/
theorem Dev.eventsNow_of_calm {d : Dev} (hserves : d.serves = false) (hslots : d.trl.slots = []) : d.eventsNow = d := by
  have harmed : d.armed = [] := by simp [Dev.armed, hserves, hslots]
  simp [Dev.eventsNow, Dev.eventsUpTo, Dev.armedBefore, harmed, Dev.markBefore, hserves]

@[simp] theorem Dev.eventsNow_glb (d : Dev) : d.eventsNow.glb = d.glb :=
  (Dev.eventsNow_edits (m := 0x34f2e000fff4b) (h := Edits.refl d)).glb.resolve_left (by decide)

@[simp] theorem Dev.verdict_glb (d : Dev) (cause : Nat) : (d.verdict cause).glb = d.glb :=
  (Dev.verdict_edits (m := 0x74f3e800dfe0b) (h := Edits.refl d)).glb.resolve_left (by decide)

@[simp] theorem Dev.causeShown_eng (d : Dev) : d.causeShown.eng = d.eng :=
  (Dev.causeShown_edits (m := 0x740040004c003) (h := Edits.refl d)).eng.resolve_left (by decide)

theorem Dev.causeShown_prl (d : Dev) : d.prl.SameBut d.causeShown.prl :=
  (Dev.condition_prl d _ _).trans (Dev.condition_prl _ _ _)

/-- A verdict before the pair is up only notes and shows its cause. -/
theorem Dev.verdict_of_down {d : Dev} (cause : Nat) (h : d.prl.up = false) : d.verdict cause = { d with prl := { d.prl with
    causes := if !d.prl.causes.contains cause then d.prl.causes ++ [cause] else d.prl.causes
    standbySince := d.prl.standbySince.map fun _ => d.cycles } }.causeShown := by
  unfold Dev.verdict
  extract_lets new causes since prl d₁
  exact if_pos (show d₁.prl.up = false from (Dev.causeShown_prl _).up.trans h)

/-- What a power fail leaves in service, before the NAND is flushed: the device knows of it, and, where nothing else goes on, of the
work in flight only what waits for the mirror stays. -/
theorem powerFail_inService (s : State) (hfail : s.dev.glb.powerFail = false) (hreset : s.dev.glb.inReset = false)
    (hstep : 9 ≤ s.dev.get F.GLB_BOOT_STEP) : ∃ d₁ : Dev,
      exec .powerFail s = .next { s with dev := ({ d₁ with nfm := d₁.nfm.flush }.set F.JNL_STATUS_CKPT_BUSY 0).protectNand true } ∧
      d₁.glb = { s.dev.glb with powerFail := true } ∧
      (s.dev.prl.up = false → s.dev.serves = false → s.dev.trl.slots = [] →
        d₁.eng = { s.dev.eng with staging := [], flight := s.dev.eng.flight.filter fun p => p.2.stage == .mirror }) := by
  show ∃ d₁ : Dev, execPowerFail s = _ ∧ _
  unfold execPowerFail State.on
  beta_reduce
  rw [if_neg (by simp [hfail])]
  extract_lets was glb d₀ d₁ flight eng d₂ d₃ wait d₄ fed d₅
  have hservice : ¬d₀.get F.GLB_BOOT_STEP < 9 := not_lt.2 hstep
  rw [if_neg (by simp [d₀, glb, hreset]), if_neg hservice]
  have hevents : Edits 0x1000000000 { d₁ with eng := { d₁.eng with staging := [], flight := flight } } d₂ :=
    Dev.showIng_edits (h := Edits.refl _)
  have hrecords : Edits 0x140000005c002 d₃ d₅ := by
    have hfilled : Edits 0x140000005c002 d₃ d₄ := Edits.foldl _ (fun _ _ h => Dev.archiveFill_edits (h := h)) _ (Edits.refl _)
    refine Edits.ite (fun _ => Dev.journal_edits (h := ?_)) fun _ => hfilled
    exact Edits.foldl _ (fun _ _ h => Edits.ite (fun _ => Dev.journal_edits (h := h)) fun _ => h) _ hfilled
  refine ⟨d₅, rfl, ?_, fun hup hserves hslots => ?_⟩
  · calc
      d₅.glb = d₃.glb := hrecords.glb.resolve_left (by decide)
      _ = d₂.glb := Dev.verdict_glb ..
      _ = d₁.glb := hevents.glb.resolve_left (by decide)
      _ = d₀.glb := Dev.eventsNow_glb d₀
  · have hcalm : d₁ = d₀ := Dev.eventsNow_of_calm hserves hslots
    have hdown : d₂.prl.up = false := by
      rw [hevents.prl.resolve_left (by decide), hcalm]
      exact hup
    calc
      d₅.eng = d₃.eng := hrecords.eng.resolve_left (by decide)
      _ = d₂.eng := by rw [show d₃ = _ from Dev.verdict_of_down 4 hdown, Dev.causeShown_eng]
      _ = { d₁.eng with staging := [], flight := flight } := hevents.eng.resolve_left (by decide)
      _ = _ := by simp only [flight, hcalm]; rfl

/-- R472: during start-up a power fail only holds NAND writes off. -/
theorem powerFail_inStartup (s : State) (hfail : s.dev.glb.powerFail = false)
    (hstart : s.dev.glb.inReset = true ∨ s.dev.get F.GLB_BOOT_STEP < 9) :
    Runs .powerFail s fun d => d.glb.powerFail = true ∧ d.nfm = s.dev.nfm := by
  refine ⟨_, rfl, rfl, ?_⟩
  beta_reduce
  rw [if_neg (by simp [hfail])]
  extract_lets was glb d₀
  by_cases hreset : s.dev.glb.inReset = true
  · rw [if_pos hreset]
    exact ⟨rfl, rfl⟩
  · have hearly : d₀.get F.GLB_BOOT_STEP < 9 := hstart.resolve_left hreset
    rw [if_neg hreset, if_pos hearly]
    split
    · exact ⟨rfl, rfl⟩
    · exact ⟨rfl, rfl⟩

/-- From start-up step 3 on, a power fail write-protects the NAND. -/
theorem powerFail_protects (s : State) (hfail : s.dev.glb.powerFail = false) (hreset : s.dev.glb.inReset = false)
    (hstep : 3 ≤ s.dev.get F.GLB_BOOT_STEP) : Runs .powerFail s fun d => d.lastOut = some (.pin 4 7 false) := by
  by_cases hservice : 9 ≤ s.dev.get F.GLB_BOOT_STEP
  · obtain ⟨d₁, hexec, -, -⟩ := powerFail_inService s hfail hreset hservice
    exact ⟨_, hexec, rfl, Dev.protectNand_lastOut _ true⟩
  · refine ⟨_, rfl, rfl, ?_⟩
    beta_reduce
    rw [if_neg (by simp [hfail])]
    extract_lets was glb d₀
    have hstart : d₀.get F.GLB_BOOT_STEP < 9 := not_le.1 hservice
    have hstarted : 3 ≤ d₀.get F.GLB_BOOT_STEP := hstep
    rw [if_neg (by simp [d₀, glb, hreset]), if_pos hstart, if_pos hstarted]
    exact Dev.protectNand_lastOut _ true

theorem powerFail_flushes (s : State) (hfail : s.dev.glb.powerFail = false) (hreset : s.dev.glb.inReset = false)
    (hstep : 9 ≤ s.dev.get F.GLB_BOOT_STEP) :
    Runs .powerFail s fun d => d.glb.powerFail = true ∧ d.nfm.filling = [] ∧ d.nfm.programming = [] := by
  obtain ⟨d₁, hexec, hglb, -⟩ := powerFail_inService s hfail hreset hstep
  exact ⟨_, hexec, rfl, congrArg Glb.powerFail hglb, d₁.nfm.flush_empty⟩

theorem powerFail_dropsWork (s : State) (hfail : s.dev.glb.powerFail = false) (hreset : s.dev.glb.inReset = false)
    (hstep : 9 ≤ s.dev.get F.GLB_BOOT_STEP) (hup : s.dev.prl.up = false) (hserves : s.dev.serves = false)
    (hslots : s.dev.trl.slots = []) :
    Runs .powerFail s fun d => d.eng.staging = [] ∧ ∀ p ∈ d.eng.flight, p.2.stage = .mirror := by
  obtain ⟨d₁, hexec, -, heng⟩ := powerFail_inService s hfail hreset hstep
  refine ⟨_, hexec, rfl, ?_⟩
  show d₁.eng.staging = [] ∧ ∀ p ∈ d₁.eng.flight, p.2.stage = .mirror
  rw [heng hup hserves hslots]
  exact ⟨rfl, fun p hp => by simpa using (List.mem_filter.1 hp).2⟩

theorem powerFailClear_inStartup (s : State) (hfail : s.dev.glb.powerFail = true)
    (hstart : s.dev.glb.inReset = true ∨ s.dev.get F.GLB_BOOT_STEP < 9) :
    Runs .powerFailClear s fun d => d.glb.powerFail = false ∧ d.glb.failWait = false ∧ 4 ∉ d.prl.causes := by
  have hgone : 4 ∉ s.dev.prl.causes.filter (· ≠ 4) := by simp
  refine ⟨_, rfl, rfl, ?_⟩
  beta_reduce
  rw [if_neg (by simp [hfail])]
  extract_lets glb prl d₀
  by_cases hreset : s.dev.glb.inReset = true
  · rw [if_pos hreset]
    exact ⟨rfl, rfl, hgone⟩
  · have hearly : d₀.get F.GLB_BOOT_STEP < 9 := hstart.resolve_left hreset
    rw [if_neg hreset, if_pos hearly]
    split
    · exact ⟨rfl, rfl, hgone⟩
    · exact ⟨rfl, rfl, hgone⟩

/-- RESTART reads 1 once it is among the causes. -/
theorem bitsOf_or_restart (w : Word) : bitsOf (w ||| BitVec.ofNat 32 Rc.restart) 5 5 = 1 := by
  simp [bitsOf, Rc.restart, Nat.shiftRight_or_distrib, Nat.or_mod_two_eq_one]

/-- R372: in service the end of a power fail restarts the device from step 3. -/
theorem powerFailClear_restarts (s : State) (hfail : s.dev.glb.powerFail = true) (hreset : s.dev.glb.inReset = false)
    (hstep : 9 ≤ s.dev.get F.GLB_BOOT_STEP) : Runs .powerFailClear s fun d =>
      d.glb.powerFail = false ∧ d.trl.sealed = false ∧ d.get F.GLB_BOOT_STEP = 2 ∧ d.get F.GLB_RESET_CAUSE_RESTART = 1 := by
  refine ⟨_, rfl, rfl, ?_⟩
  beta_reduce
  rw [if_neg (by simp [hfail])]
  extract_lets glb prl d₀
  have hservice : ¬d₀.get F.GLB_BOOT_STEP < 9 := not_lt.2 hstep
  rw [if_neg (by simp [d₀, glb, hreset]), if_neg hservice]
  refine ⟨Dev.restart_powerFail .., Dev.restart_sealed .., Dev.restart_bootStep .., ?_⟩
  show bitsOf (((d₀.protectNand false).restart Rc.restart).reg R.GLB_RESET_CAUSE.off) 5 5 = 1
  rw [Dev.restart_cause]
  exact bitsOf_or_restart _
/-! A reseed of the DRBG (R312, R313). -/

/-- What shows the causes leaves the registers outside the events' and conditions' blocks. -/
theorem Dev.causeShown_get {x : Fld} (d : Dev) (ho : x.off < 4194304 := by decide)
    (hx : Nat.testBit 0x740040004c003 (regBit x.off) = false := by decide) : d.causeShown.get x = d.get x :=
  (Dev.causeShown_edits (m := 0x740040004c003) (h := Edits.refl d)).get x ho hx

/-- Where no root generation waits, none goes on. -/
theorem Dev.generateNow_of_none {d : Dev} (h : d.key.generating = none) : d.generateNow = d := by
  simp [Dev.generateNow, h]

/-- With no root generation that waits, a good seed shows and the DRBG runs. -/
theorem drbgReseed_good (s : State) (hcause : s.dev.prl.causes.contains 0x0A = false) (hgen : s.dev.key.generating = none) :
    Runs (.drbgReseed true) s fun d =>
      d.key.sinceSeed = 0 ∧ d.get F.KEY_STATUS_ENTROPY_OK = 1 ∧ d.get F.KEY_STATUS_DRBG_RUN = 1 := by
  refine ⟨_, rfl, rfl, ?_⟩
  beta_reduce
  rw [if_pos rfl]
  extract_lets key d₁ d₂
  have hd₂ : d₂ = (d₁.set F.KEY_STATUS_ENTROPY_OK 1).set F.KEY_STATUS_DRBG_RUN 1 := Dev.generateNow_of_none hgen
  have hover : ¬d₂.prl.causes.contains 0x0A = true := by rw [hd₂]; exact Bool.eq_false_iff.1 hcause
  rw [if_neg hover, hd₂]
  refine ⟨rfl, ?_, Dev.get_set_same _ F.KEY_STATUS_DRBG_RUN 1⟩
  rw [Dev.get_set_apart (by decide) (by decide) (by decide)]
  exact Dev.get_set_same _ F.KEY_STATUS_ENTROPY_OK 1

/-- A bad seed shows, and is a cause of its own before the pair is up. -/
theorem drbgReseed_bad (s : State) (hup : s.dev.prl.up = false) : Runs (.drbgReseed false) s fun d =>
    d.get F.KEY_STATUS_ENTROPY_OK = 0 ∧ d.get F.KEY_INT_STATUS_ENTROPY_FAIL = 1 ∧ 0x0A ∈ d.prl.causes := by
  refine ⟨_, rfl, rfl, ?_⟩
  beta_reduce
  rw [if_neg (by simp)]
  extract_lets d₁
  have hdown : d₁.prl.up = false := (Dev.raise_prl _ _ _ _).up.trans hup
  rw [Dev.verdict_of_down 0x0A hdown]
  refine ⟨?_, ?_, ?_⟩
  · rw [Dev.causeShown_get]
    show d₁.get F.KEY_STATUS_ENTROPY_OK = 0
    rw [Dev.raise_get, Dev.get_set_other (by decide)]
    exact Dev.get_set_same _ F.KEY_STATUS_ENTROPY_OK 0
  · rw [Dev.causeShown_get]
    exact Dev.raise_self _ F.KEY_INT_STATUS_ENTROPY_FAIL _ _
  · rw [(Dev.causeShown_prl _).causes]
    dsimp only
    split
    · exact List.mem_append_right _ (List.mem_singleton_self _)
    · simp_all

/-- Settles O7: the lemmas above, one for each clause. -/
theorem resetsSealAndPower : Obligations.ResetsSealAndPower :=
  ⟨resetAssert_resets, resetRelease_ends, resetRelease_holds, thermalTrip_resets, thermalTripRelease_ends, hostSeal_seals,
   sealWaitExpire_seals, powerFail_inStartup, powerFail_protects, powerFail_flushes, powerFail_dropsWork, powerFailClear_inStartup,
   powerFailClear_restarts, drbgReseed_good, drbgReseed_bad⟩

end Sys2Proof.Machine

namespace Sys2Proof.Machine

set_option Elab.async false

/-! Registers and components that the operations on heads and cells leave alone. -/

/-- A whole register as a field. -/
theorem Dev.get_whole (d : Dev) (off : Nat) : d.get ⟨off, 0, 0, 31, 0⟩ = (d.reg off).toNat := by
  show (d.reg off).toNat >>> 0 % 2 ^ 32 = _
  rw [Nat.shiftRight_zero, Nat.mod_eq_of_lt (d.reg off).isLt]

/-- Raising a bit leaves every other register outside the recorder's, the rings', the journal's and the Runner's blocks. -/
theorem Dev.raise_reg {x : Fld} {off : Nat} (h : off ≠ x.off) (d : Dev) (a b : Nat) (ho : off < 4194304)
    (hb : Nat.testBit 0x340040004c003 (regBit off) = false) : (d.raise x a b).reg off = d.reg off := by
  refine BitVec.eq_of_toNat_eq ?_
  rw [← Dev.get_whole, ← Dev.get_whole, Dev.raise_get d x a b (y := ⟨off, 0, 0, 31, 0⟩) ho hb, Dev.get_set_other h]

/-- Counting an event leaves the other registers. -/
theorem Dev.count_reg_other {r : RegD} {i off : Nat} (h : off ≠ r.at i) (d : Dev) : (d.count r i).reg off = d.reg off :=
  Face.reg_setReg_other h _ _

/-- A counter that counts counted one event (R460). -/
theorem Dev.count_counted (d : Dev) (r : RegD) (i : Nat) : d.counted (d.count r i) r i := Face.reg_setReg_same ..

/-- A register of the FHM block, but for those that show the selected head and the populations, and FHM_INT_STATUS. -/
def fhmKept (off : Nat) : Bool :=
  off / 65536 == 5 &&
    !([R.FHM_STATUS.off, R.FHM_HEAD_STATE.off, R.FHM_HEAD_TIMING.off, R.FHM_HEAD_LEAD.off, R.FHM_INT_STATUS.off] : List Nat).contains off

theorem fhmKept_ne {off o : Nat} (h : fhmKept off = true) (ho : fhmKept o = false) : off ≠ o := by
  rintro rfl
  simp [h] at ho

theorem fhmKept_block {off : Nat} (h : fhmKept off = true) : off / 65536 = 5 := by
  simp only [fhmKept, Bool.and_eq_true, beq_iff_eq] at h
  exact h.1

/-- Such a register is of no block that an event touches. -/
theorem fhmKept_quiet {off : Nat} (h : fhmKept off = true) :
    off < 4194304 ∧ regBit off = 37 := by
  have hb := fhmKept_block h
  exact ⟨by omega, by rw [regBit, if_neg (by omega), hb]⟩

theorem Dev.reg_set_kept {x : Fld} {off v : Nat} {w : Word} {d : Dev} (h : fhmKept off = true) (hx : fhmKept x.off = false)
    (hd : d.reg off = w) : (d.set x v).reg off = w := (Dev.reg_set_other (fhmKept_ne h hx) d v).trans hd

theorem Dev.showHead_reg {off : Nat} (h : fhmKept off = true) (d : Dev) : d.showHead.reg off = d.reg off := by
  unfold Dev.showHead
  iterate 14 refine Dev.reg_set_kept h (by decide) ?_
  rfl

@[simp] theorem Dev.setCell_fhm (d : Dev) (i : Nat) (c : Cell) :
    (d.setCell i c).fhm = { d.fhm with cells := Maps.put d.fhm.cells i c } := rfl

/-- The record of a head just set. -/
@[simp] theorem Dev.headRt_setHead_same (d : Dev) (i : Nat) (h : HeadRt) : (d.setHead i h).headRt i = h :=
  Maps.getD_put_same ..

theorem Dev.headRt_setHead_other {i j : Nat} (hj : j ≠ i) (d : Dev) (h : HeadRt) : (d.setHead i h).headRt j = d.headRt j :=
  Maps.getD_put_other hj ..

/-- A cell just set. -/
@[simp] theorem Dev.cell_setCell_same (d : Dev) (i : Nat) (c : Cell) : (d.setCell i c).cell i = c := Maps.getD_put_same ..

/-- Head records stand in the head table alone. -/
theorem Dev.headRt_congr {d d' : Dev} (h : d'.fhm.heads = d.fhm.heads) (i : Nat) : d'.headRt i = d.headRt i := by
  rw [Dev.headRt, h, Dev.headRt]

theorem Dev.cell_congr {d d' : Dev} (h : d'.fhm.cells = d.fhm.cells) (i : Nat) : d'.cell i = d.cell i := by
  rw [Dev.cell, h, Dev.cell]

theorem Dev.order?_congr {d d' : Dev} (h : d'.fhm.orders = d.fhm.orders) (i n : Nat) : d'.order? i n = d.order? i n := by
  rw [Dev.order?, h, Dev.order?]

theorem Dev.window?_congr {d d' : Dev} (h : d'.fhm.windows = d.fhm.windows) (a n : Nat) : d'.window? a n = d.window? a n := by
  rw [Dev.window?, h, Dev.window?]

/-! Orders and windows. -/

/-- An order found is of the head and number asked for. -/
theorem Dev.order?_some {d : Dev} {i n : Nat} {o : Order} (h : d.order? i n = some o) : o.head = i ∧ o.txId = n := by
  simpa using List.find?_some h

theorem Dev.window?_some {d : Dev} {a n : Nat} {w : Window} (h : d.window? a n = some w) : w.addr = a ∧ w.endNs = n := by
  simpa using List.find?_some h

/-- A dropped order is gone. -/
@[simp] theorem Dev.order?_dropOrder (d : Dev) (i n : Nat) : (d.dropOrder i n).order? i n = none := by
  refine List.find?_eq_none.2 fun o ho => ?_
  simpa [imp_iff_not_or] using (List.mem_filter.1 ho).2

theorem Dev.window?_dropWindow (d : Dev) (a n : Nat) : (d.dropWindow a n).window? a n = none := by
  refine List.find?_eq_none.2 fun w hw => ?_
  simpa [imp_iff_not_or] using (List.mem_filter.1 hw).2

/-- What replaces every element of a kind is found as the one of that kind. -/
theorem find?_replace {α : Type} (p : α → Bool) (l : List α) {x : α} (hx : p x = true) :
    (l.filter (fun y => !p y) ++ [x]).find? p = some x := by
  have hnone : (l.filter fun y => !p y).find? p = none := List.find?_eq_none.2 fun y hy => by simpa using (List.mem_filter.1 hy).2
  rw [List.find?_append, hnone]
  simp [hx]

/-- An uplink's windows just put. -/
theorem Dev.window?_putWindow (d : Dev) (w : Window) : (d.putWindow w).window? w.addr w.endNs = some w :=
  find?_replace (fun x : Window => x.addr == w.addr && x.endNs == w.endNs) _ (by simp)

@[simp] theorem Dev.putWindow_headRt (d : Dev) (w : Window) (j : Nat) : (d.putWindow w).headRt j = d.headRt j := rfl
@[simp] theorem Dev.putWindow_orders (d : Dev) (w : Window) : (d.putWindow w).fhm.orders = d.fhm.orders := rfl

/-! A change of head records alone: what the bookkeeping of a head's datagrams may do (R59, R64). -/

/-- `d'` differs from `d` in the FHM state only in head records, and agrees with it on the time and on the kept registers. -/
structure Dev.HeadsOnly (d d' : Dev) : Prop where
  rest : ∃ l, d'.fhm = { d.fhm with heads := l }
  tsu : d'.tsu = d.tsu
  cycles : d'.cycles = d.cycles
  reg : ∀ off, fhmKept off = true → d'.reg off = d.reg off

theorem Dev.HeadsOnly.refl (d : Dev) : d.HeadsOnly d := ⟨⟨d.fhm.heads, rfl⟩, rfl, rfl, fun _ _ => rfl⟩

theorem Dev.HeadsOnly.trans {d d' d'' : Dev} (h : d.HeadsOnly d') (h' : d'.HeadsOnly d'') : d.HeadsOnly d'' := by
  obtain ⟨l, e⟩ := h.rest
  obtain ⟨l', e'⟩ := h'.rest
  exact ⟨⟨l', by rw [e', e]⟩, h'.tsu.trans h.tsu, h'.cycles.trans h.cycles,
    fun off ho => (h'.reg off ho).trans (h.reg off ho)⟩

theorem Dev.HeadsOnly.setHead {d d' : Dev} (h : d.HeadsOnly d') (i : Nat) (x : HeadRt) : d.HeadsOnly (d'.setHead i x) :=
  h.trans ⟨⟨_, rfl⟩, rfl, rfl, fun _ ho => Dev.showHead_reg ho _⟩

theorem Dev.HeadsOnly.raise {d d' : Dev} (h : d.HeadsOnly d') (x : Fld) (a b : Nat) (hx : fhmKept x.off = false := by decide) :
    d.HeadsOnly (d'.raise x a b) := by
  refine h.trans ⟨⟨d'.fhm.heads, d'.raise_fhm x a b⟩, d'.raise_tsu x a b, d'.raise_cycles x a b, fun off ho => ?_⟩
  obtain ⟨hlt, hbit⟩ := fhmKept_quiet ho
  exact Dev.raise_reg (fhmKept_ne ho hx) d' a b hlt (by rw [hbit]; decide)

/-- An operation whose law covers none of these parts. -/
theorem Dev.HeadsOnly.of_edits {m : Nat} {d d' : Dev} (h : Edits m d d')
    (hm : m.testBit 2 = false ∧ m.testBit 7 = false ∧ m.testBit 9 = false ∧ m.testBit 37 = false := by decide) : d.HeadsOnly d' := by
  obtain ⟨hcycles, htsu, hfhm, hregs⟩ := hm
  refine ⟨⟨d.fhm.heads, h.fhm.resolve_left (by simp [hfhm])⟩, h.tsu.resolve_left (by simp [htsu]),
    h.cycles.resolve_left (by simp [hcycles]), fun off ho => ?_⟩
  obtain ⟨hlt, hbit⟩ := fhmKept_quiet ho
  exact h.reg off hlt (by rw [hbit, hregs])

section
variable {d d' : Dev} (h : d.HeadsOnly d')
include h

theorem Dev.HeadsOnly.orders : d'.fhm.orders = d.fhm.orders := by obtain ⟨l, e⟩ := h.rest; rw [e]
theorem Dev.HeadsOnly.windows : d'.fhm.windows = d.fhm.windows := by obtain ⟨l, e⟩ := h.rest; rw [e]
theorem Dev.HeadsOnly.heard : d'.fhm.heard = d.fhm.heard := by obtain ⟨l, e⟩ := h.rest; rw [e]

theorem Dev.HeadsOnly.now : d'.now = d.now := by rw [Dev.now, h.tsu, Dev.now]

theorem Dev.HeadsOnly.get (x : Fld) (hx : fhmKept x.off = true := by decide) : d'.get x = d.get x := by
  have e : d'.face.reg x.off = d.face.reg x.off := h.reg x.off hx
  simp [Dev.get, Face.get, e]

end

/-! A head's state and its datagrams' numbers, and what stands beside them. -/

/-- Two records of a head agree but for its state with what goes with it, the numbers received and when it was heard. -/
def HeadRt.SameButState (h h' : HeadRt) : Prop :=
  ∃ st c k rh si n sn ha ld, h' = { h with
    state := st, cause := c, clear := k, rehomed := rh, since := si, h := n, seen := sn, heardAt := ha, lostDue := ld }

theorem HeadRt.SameButState.refl (h : HeadRt) : h.SameButState h := ⟨_, _, _, _, _, _, _, _, _, rfl⟩

theorem HeadRt.SameButState.trans {h h' h'' : HeadRt} (e : h.SameButState h') (e' : h'.SameButState h'') : h.SameButState h'' := by
  obtain ⟨_, _, _, _, _, _, _, _, _, rfl⟩ := e
  obtain ⟨_, _, _, _, _, _, _, _, _, rfl⟩ := e'
  exact ⟨_, _, _, _, _, _, _, _, _, rfl⟩

theorem HeadRt.SameButState.confirms {h h' : HeadRt} (e : h.SameButState h') : h'.confirms = h.confirms := by
  obtain ⟨_, _, _, _, _, _, _, _, _, rfl⟩ := e; rfl

theorem HeadRt.SameButState.take (h : HeadRt) (ext : Int) : h.SameButState (h.take ext) := by
  unfold HeadRt.take
  extract_lets ahead
  split
  · exact ⟨_, _, _, _, _, _, _, _, _, rfl⟩
  · exact ⟨_, _, _, _, _, _, _, _, _, rfl⟩

@[simp] theorem HeadRt.take_state (h : HeadRt) (ext : Int) : (h.take ext).state = h.state := by
  unfold HeadRt.take
  extract_lets ahead
  split
  · rfl
  · rfl

/-- The confirm deadline of an order rests on its head's delays and its lead's registers (R75, R79, R92). -/
theorem Dev.HeadsOnly.confirmDeadline {d d' : Dev} (h : d.HeadsOnly d') {o : Order}
    (hd : (d.headRt o.head).SameButState (d'.headRt o.head)) : d'.confirmDeadline o = d.confirmDeadline o := by
  obtain ⟨_, _, _, _, _, _, _, _, _, e⟩ := hd
  simp only [Dev.confirmDeadline, Dev.leadNs, e, h.get F.FHM_LEAD_JITTER_MIN]
  rfl

/-- The record a head has after it moves to a state with a cause (R59). -/
def Dev.headMoved (d : Dev) (i : Nat) (st : HeadSt) (cause : Nat) : HeadRt :=
  let h := d.headRt i
  { h with state := st, cause := cause, clear := 0, rehomed := h.rehomed && st != .active
           since := if h.state = st then h.since else d.cycles }

theorem Dev.headMoved_sameButState (d : Dev) (i : Nat) (st : HeadSt) (cause : Nat) :
    (d.headRt i).SameButState (d.headMoved i st cause) := ⟨_, _, _, _, _, _, _, _, _, rfl⟩

/-- All that a move of a head does: its record, and at most one bit of FHM_INT_STATUS. -/
theorem Dev.headTo_cases (d : Dev) (i : Nat) (st : HeadSt) (cause : Nat) :
    d.headTo i st cause = d.setHead i (d.headMoved i st cause) ∨
    ∃ x a b, x.off = R.FHM_INT_STATUS.off ∧ d.headTo i st cause = (d.setHead i (d.headMoved i st cause)).raise x a b := by
  unfold Dev.headTo
  extract_lets h since d₁
  split
  · exact .inl rfl
  · cases st with
    | active => exact .inr ⟨F.FHM_INT_STATUS_HEAD_JOINED, i, 0, rfl, rfl⟩
    | offline => exact .inr ⟨F.FHM_INT_STATUS_HEAD_LOST, i, cause, rfl, rfl⟩
    | degraded => exact .inl rfl
    | suspended =>
      dsimp only
      split
      · exact .inr ⟨F.FHM_INT_STATUS_HEAD_TOO_FAR, i, 0, rfl, rfl⟩
      · exact .inl rfl
    | joining => exact .inl rfl

theorem Dev.headTo_fhm (d : Dev) (i : Nat) (st : HeadSt) (cause : Nat) :
    (d.headTo i st cause).fhm = (d.setHead i (d.headMoved i st cause)).fhm := by
  obtain e | ⟨x, a, b, -, e⟩ := d.headTo_cases i st cause
  · rw [e]
  · rw [e, Dev.raise_fhm]

@[simp] theorem Dev.headTo_headRt (d : Dev) (i : Nat) (st : HeadSt) (cause : Nat) :
    (d.headTo i st cause).headRt i = d.headMoved i st cause :=
  (Dev.headRt_congr (congrArg Fhm.heads (d.headTo_fhm i st cause)) i).trans (Dev.headRt_setHead_same ..)

theorem Dev.HeadsOnly.headTo {d d' : Dev} (h : d.HeadsOnly d') (i : Nat) (st : HeadSt) (cause : Nat) :
    d.HeadsOnly (d'.headTo i st cause) := by
  obtain e | ⟨x, a, b, hx, e⟩ := d'.headTo_cases i st cause
  · rw [e]; exact h.setHead i _
  · rw [e]; exact (h.setHead i _).raise x a b (by rw [hx]; decide)

/-- A datagram heard: its head's record, and the HEAD_BEACON_LOST that waited for it (R101). -/
theorem Dev.heard_fhm (d : Dev) (i : Nat) :
    (d.heard i).fhm = (d.setHead i { d.headRt i with heardAt := d.cycles, lostDue := false }).fhm := by
  unfold Dev.heard
  extract_lets h d₁
  split
  · exact Dev.raise_fhm ..
  · rfl

@[simp] theorem Dev.heard_headRt (d : Dev) (i : Nat) :
    (d.heard i).headRt i = { d.headRt i with heardAt := d.cycles, lostDue := false } :=
  (Dev.headRt_congr (congrArg Fhm.heads (d.heard_fhm i)) i).trans (Dev.headRt_setHead_same ..)

theorem Dev.HeadsOnly.heardOf {d d' : Dev} (h : d.HeadsOnly d') (i : Nat) : d.HeadsOnly (d'.heard i) := by
  unfold Dev.heard
  extract_lets x d₁
  split
  · exact (h.setHead i _).raise _ _ _
  · exact h.setHead i _

/-! Datagrams (R57, R61 to R64). -/

/-- A datagram that is taken reaches its handler, at a device that differs only in the Ethernet port and what went out of it. -/
theorem Dev.hlpFrame_takes {d : Dev} {n : Nat} {b : Bytes} {m : HlpMsg} (h : d.hlpTakes n b = some m) (addr mac : Nat) :
    ∃ d₁, Edits 0x102 d d₁ ∧ ∀ f, d.hlpFrame n addr mac b f = f m d₁ := by
  unfold Dev.hlpTakes at h
  split at h
  · next hc =>
    obtain ⟨htakes, hserves, hradio⟩ := hc
    rw [Dev.takesFrame, Bool.and_eq_true, decide_eq_true_eq] at htakes
    obtain ⟨henabled, hlen⟩ := htakes
    have h₀ : Edits 0x102 d (d.ethRx n (58 + b.length)) := Dev.ethRx_edits (h := Edits.refl d)
    have h₁ : Edits 0x102 d ((d.ethRx n (58 + b.length)).heardFrom n addr mac) := Dev.heardFrom_edits (h := h₀)
    refine ⟨_, h₁, fun f => ?_⟩
    have htrl := h₁.trl.resolve_left (by decide)
    have hstate : Dev.serves _ = d.serves := congrArg (fun p => p == PairSt.active || p == PairSt.unpaired) (h₁.get F.PRL_STATUS_STATE)
    have hradio' : Dev.trellis _ = d.trellis := congrArg (fun t : TrlRt => t.live.getD {}) htrl
    unfold Dev.hlpFrame Dev.ethTake
    extract_lets d₀
    rw [if_neg (by rw [show d₀.ethEnabled n = d.ethEnabled n from rfl, henabled]; decide), if_neg (by omega)]
    dsimp only
    rw [if_neg (by rw [hstate, hradio']; simp [hserves, hradio]), hradio', h]
  · cases h

/-- What a datagram that is left only its tag to check brings (R63, R64). -/
theorem Dev.hlpReady_some {d : Dev} {n type : Nat} {b : Bytes} {m : HlpMsg} {ext : Int} (h : d.hlpReady n b type = some (m, ext)) :
    d.hlpTakes n b = some m ∧ m.type = type ∧ m.head ≠ 0xFFFF ∧ m.epoch ≠ 0 ∧ (d.headRt m.head).session = true ∧
      (∃ r, d.headReg? m.head = some r ∧ r.epoch = m.epoch) ∧ (d.headRt m.head).window m.seq = some ext := by
  obtain ⟨m', htakes, h⟩ := Option.bind_eq_some_iff.1 h
  split at h
  · next hc =>
    obtain ⟨x, hwindow, hx⟩ := Option.map_eq_some_iff.1 h
    obtain ⟨rfl, rfl⟩ := Prod.mk.inj hx
    obtain ⟨htype, hhead, hepoch, hsession, hreg⟩ := hc
    exact ⟨htakes, htype, hhead, hepoch, hsession, Option.map_eq_some_iff.1 hreg, hwindow⟩
  · cases h

/-- What an accepted datagram does before its own effect: its number enters the window, its head is heard, and the first one of a
session makes a joining head ACTIVE (R59, R64). -/
def Dev.takeDatagram (d : Dev) (m : HlpMsg) (ext : Int) : Dev :=
  let h := d.headRt m.head
  let d := (d.setHead m.head (h.take ext)).heard m.head
  if h.state = .joining then d.headTo m.head .active 0 else d

/-- A session datagram that passes R61 and R64 has its effect where its tag is right, and fails R63 where it is wrong. -/
theorem Dev.hlpIn_ready {d : Dev} {n type : Nat} {b : Bytes} {m : HlpMsg} {ext : Int} (h : d.hlpReady n b type = some (m, ext))
    (addr mac : Nat) (f : Nat → Bytes → Dev → Dev) : ∃ d₁, Edits 0x102 d d₁ ∧ d.hlpIn n addr mac b type f =
      if d.hlpTagOk m ext = true then f m.head (d.hlpBody m ext) (d₁.takeDatagram m ext) else d₁.hlpAuth m.head := by
  obtain ⟨htakes, htype, hhead, hepoch, hsession, ⟨r, hreg, hr⟩, hwindow⟩ := Dev.hlpReady_some h
  obtain ⟨d₁, h₁, e⟩ := Dev.hlpFrame_takes htakes addr mac
  refine ⟨d₁, h₁, ?_⟩
  rw [Dev.hlpIn, e]
  have hrt : d₁.headRt m.head = d.headRt m.head := Dev.headRt_congr (congrArg Fhm.heads (h₁.fhm.resolve_left (by decide))) _
  have hsender : d₁.sender? m = some (m.head, r) := by
    rw [Dev.sender?, if_neg hhead, Dev.headReg?, h₁.dur.resolve_left (by decide)]
    exact congrArg (Option.map _) hreg
  rw [if_neg (not_not.2 htype), hsender]
  dsimp only
  rw [if_neg hepoch, hrt, if_neg (by simp [hhead, hsession, hr]), hwindow]
  dsimp only
  by_cases htag : m.tag = m.tagUnder (d.headRt m.head).key ext
  · rw [if_neg (not_not.2 htag), if_pos (show d.hlpTagOk m ext = true from beq_iff_eq.2 htag), Dev.takeDatagram, hrt]
    rfl
  · rw [if_pos htag, if_neg (show ¬d.hlpTagOk m ext = true from fun e => htag (beq_iff_eq.1 e))]

/-- A device at which the effect of an accepted datagram of head `i` begins. -/
structure Dev.Admits (d : Dev) (i : Nat) (d' : Dev) : Prop where
  only : d.HeadsOnly d'
  head : (d.headRt i).SameButState (d'.headRt i)
  state : (d'.headRt i).state = if (d.headRt i).state = .joining then .active else (d.headRt i).state

theorem Dev.takeDatagram_admits (d : Dev) (m : HlpMsg) (ext : Int) : d.Admits m.head (d.takeDatagram m ext) := by
  unfold Dev.takeDatagram
  extract_lets h d₁
  have hrt : d₁.headRt m.head = { h.take ext with heardAt := d.cycles, lostDue := false } := by
    simp only [d₁, Dev.heard_headRt, Dev.headRt_setHead_same]; rfl
  have honly : d.HeadsOnly d₁ := ((Dev.HeadsOnly.refl d).setHead _ _).heardOf _
  have hhead : h.SameButState (d₁.headRt m.head) :=
    (HeadRt.SameButState.take h ext).trans (hrt ▸ ⟨_, _, _, _, _, _, _, _, _, rfl⟩)
  have hstate : (d₁.headRt m.head).state = h.state := by rw [hrt]; exact h.take_state ext
  by_cases hj : h.state = .joining
  · rw [if_pos hj]
    refine ⟨honly.headTo _ _ _, ?_, ?_⟩
    · rw [Dev.headTo_headRt]; exact hhead.trans (d₁.headMoved_sameButState _ _ _)
    · rw [Dev.headTo_headRt, if_pos hj]; rfl
  · rw [if_neg hj]
    exact ⟨honly, hhead, by rw [if_neg hj, hstate]⟩

/-- An accepted datagram has its own effect on the opened body, at a device that admits it. -/
theorem Dev.hlpIn_accepts {d : Dev} {n type : Nat} {g : Bytes} {m : HlpMsg} {b : Bytes} (h : d.hlpAccepts n g type m b)
    (addr mac : Nat) (f : Nat → Bytes → Dev → Dev) :
    ∃ d₁, d.Admits m.head d₁ ∧ d.hlpIn n addr mac g type f = f m.head b d₁ := by
  obtain ⟨ext, hready, htag, hbody⟩ := h
  obtain ⟨d₁, h₁, e⟩ := Dev.hlpIn_ready hready addr mac f
  obtain ⟨honly, hhead, hstate⟩ := d₁.takeDatagram_admits m ext
  have hrt : d₁.headRt m.head = d.headRt m.head := Dev.headRt_congr (congrArg Fhm.heads (h₁.fhm.resolve_left (by decide))) _
  refine ⟨d₁.takeDatagram m ext, ⟨(Dev.HeadsOnly.of_edits h₁).trans honly, hrt ▸ hhead, hrt ▸ hstate⟩, ?_⟩
  rw [e, if_pos htag, hbody]

/-- A failed tag sets HLP_AUTH (R63). -/
theorem Dev.hlpAuth_bit (d : Dev) (i : Nat) : (d.hlpAuth i).get F.FHM_INT_STATUS_HLP_AUTH = 1 :=
  Dev.raise_self _ F.FHM_INT_STATUS_HLP_AUTH _ _

/-- A datagram with a wrong tag sets HLP_AUTH, whatever its effect would be. -/
theorem Dev.hlpIn_forged {d : Dev} {n type : Nat} {g : Bytes} (h : d.hlpForged n g type) (addr mac : Nat)
    (f : Nat → Bytes → Dev → Dev) : (d.hlpIn n addr mac g type f).get F.FHM_INT_STATUS_HLP_AUTH = 1 := by
  obtain ⟨m, ext, hready, htag⟩ := h
  obtain ⟨d₁, -, e⟩ := Dev.hlpIn_ready hready addr mac f
  rw [e, if_neg (by simp [htag])]
  exact d₁.hlpAuth_bit m.head

end Sys2Proof.Machine

namespace Sys2Proof.Machine

set_option Elab.async false

/-! The sign/hash arbiter (R203 to R209). -/

/-- No request waits. -/
theorem Engine.bestParked_nil {e : Engine} (h : e.parked = []) : e.bestParked = none := by rw [Engine.bestParked, h]; rfl

/-- One request waits. -/
theorem Engine.bestParked_singleton {e : Engine} {r : ShReq} (h : e.parked = [r]) : e.bestParked = some r := by
  rw [Engine.bestParked, h]; rfl

theorem Engine.idleEngine_of_none {e : Engine} (h : e.holders = []) : e.idleEngine = some 0 := by rw [Engine.idleEngine, h]; rfl

/-- With no request parked nothing is granted. -/
theorem Dev.grantIdle_of_nil {d : Dev} (h : d.eng.parked = []) (k : Nat) : Dev.grantIdle k d = d := by
  cases k with
  | zero => rfl
  | succ k => rw [Dev.grantIdle, Engine.bestParked_nil h]; cases d.eng.idleEngine <;> rfl

/-- A grant is counted for the request's port (R209). -/
theorem Dev.grant_counted (d : Dev) (n : Nat) (r : ShReq) : d.counted (d.grant n r) R.CTX_ARB_GRANT_p (r.port - 1) := by
  refine (Face.reg_setReg_other ?_ _ _).trans (d.count_counted _ _)
  show inBlock 0x30200 ((r.port - 1) * 8) ≠ inBlock 0x30204 ((r.port - 1) * 8)
  unfold inBlock
  omega

theorem Dev.grant_parked (d : Dev) (n : Nat) (r : ShReq) :
    (d.grant n r).eng.parked = d.eng.parked.filter fun x => x.order != r.order := rfl

theorem Dev.grant_holder (d : Dev) (n : Nat) (r : ShReq) : Maps.get? n (d.grant n r).eng.holders = some r := Maps.get?_put_same ..

/-- The rank a request has once its conditions are looked at (R208). -/
def Dev.ranked (d : Dev) (r : ShReq) : ShReq := { r with urgent := d.urgentNow r.port r.op }

theorem Dev.refreshUrgent_parked (d : Dev) : d.refreshUrgent.eng.parked = d.eng.parked.map d.ranked := rfl

theorem Dev.refreshUrgent_holders (d : Dev) :
    d.refreshUrgent.eng.holders = d.eng.holders.map fun p => (p.1, d.ranked p.2) := rfl

/-- A table whose entries are all changed. -/
theorem get?_map_snd {α β : Type} (f : α → β) (k : Nat) (m : List (Nat × α)) :
    Maps.get? k (m.map fun p => (p.1, f p.2)) = (Maps.get? k m).map f := by
  induction m with
  | nil => rfl
  | cons p m ih =>
    obtain ⟨j, v⟩ := p
    by_cases h : j = k
    · simp [Maps.get?, h]
    · simp [Maps.get?, h, ih]

theorem Dev.get?_refreshUrgent (d : Dev) (n : Nat) : Maps.get? n d.refreshUrgent.eng.holders = (Maps.get? n d.eng.holders).map d.ranked := by
  rw [Dev.refreshUrgent_holders, get?_map_snd]

/-- With no returned load, none is posted again (R206). -/
theorem Dev.repostLoads_of_none {d : Dev} (h : (d.dst.loading.any fun p => p.2 == 1) = false) : d.repostLoads = d := by
  have : (d.dst.loading.filter fun p => p.2 == 1) = [] := by
    rw [List.filter_eq_nil_iff]; simpa using h
  rw [Dev.repostLoads, this]; rfl

/-- A request to an idle arbiter is granted the lowest engine at once (R204, R205). -/
theorem signhashRequest_granted (s : State) (p : Nat) (op : ShOp) (n : Nat) (hp : 1 ≤ p) (hp' : p ≤ 8) (hparked : s.dev.eng.parked = [])
    (hholders : s.dev.eng.holders = []) : Runs (.signhashRequest p op n) s fun d =>
      (Maps.get? 0 d.eng.holders).map (·.op) = some op ∧ d.eng.parked = [] ∧ s.dev.counted d R.CTX_ARB_GRANT_p (p - 1) := by
  refine ⟨_, rfl, rfl, ?_⟩
  dsimp only
  rw [if_neg (by omega), Dev.shPost, if_neg (by simp [Dev.shFull, hparked])]
  extract_lets r
  set d := Dev.refreshUrgent _ with hd
  have hd_parked : d.eng.parked = [s.dev.ranked r] := by
    rw [hd, Dev.refreshUrgent_parked]; simp [hparked]; rfl
  have hd_holders : d.eng.holders = [] := by
    rw [hd, Dev.refreshUrgent_holders]; exact congrArg (List.map _) hholders
  have hgrant : (d.grant 0 (s.dev.ranked r)).eng.parked = [] := by rw [Dev.grant_parked, hd_parked]; simp
  rw [Dev.grantIdle, Engine.idleEngine_of_none hd_holders, Engine.bestParked_singleton hd_parked]
  dsimp only
  rw [Dev.grantIdle_of_nil hgrant]
  exact ⟨by rw [Dev.grant_holder]; rfl, hgrant, d.grant_counted 0 (s.dev.ranked r)⟩

/-- A request to a full queue is returned (R206). -/
theorem signhashRequest_returned (s : State) (p : Nat) (op : ShOp) (n : Nat) (hp : 1 ≤ p) (hp' : p ≤ 8)
    (hfull : 4 ≤ (s.dev.eng.parked.filter fun r => r.port == p).length) : Runs (.signhashRequest p op n) s fun d =>
      s.dev.counted d R.CTX_CNT_n 11 ∧ d.get F.CTX_INT_STATUS_ARB_QUEUE_FULL = 1 ∧ d.eng.parked = s.dev.eng.parked := by
  refine ⟨_, rfl, rfl, ?_⟩
  dsimp only
  rw [if_neg (by omega), Dev.shPost, if_pos (by simpa [Dev.shFull] using hfull)]
  exact ⟨(Dev.raise_reg (by decide) _ _ _ (by decide) (by decide)).trans (s.dev.count_counted _ _), Dev.raise_self _ _ _ _,
    congrArg Engine.parked (Dev.raise_eng ..)⟩

/-- A holder whose rank nobody exceeds goes on with its next block (R207). -/
theorem signhashBlockEnd_continues (s : State) (e : Nat) (h : ShReq) (hold : Maps.get? e s.dev.eng.holders = some h)
    (hmore : h.done + 1 < h.total) (hparked : s.dev.eng.parked = []) : Runs (.signhashBlockEnd e) s fun d =>
      Maps.get? e d.eng.holders = some { h with urgent := s.dev.urgentNow h.port h.op, done := h.done + 1 } := by
  refine ⟨_, rfl, rfl, ?_⟩
  dsimp only
  rw [Dev.get?_refreshUrgent, hold, Option.map_some]
  dsimp only
  rw [if_neg (by show ¬ (h.total = 0 ∨ h.total ≤ h.done + 1); omega),
    Engine.bestParked_nil (by show s.dev.refreshUrgent.eng.parked = []; rw [Dev.refreshUrgent_parked, hparked]; rfl)]
  exact Maps.get?_put_same ..

/-- A parked request of higher rank takes the engine at a block boundary (R207). -/
theorem signhashBlockEnd_preempts (s : State) (e : Nat) (h r r' : ShReq) (hold : Maps.get? e s.dev.eng.holders = some h)
    (hmore : h.done + 1 < h.total) (hparked : s.dev.eng.parked = [r]) (hload : (s.dev.dst.loading.any fun p => p.2 == 1) = false)
    (hr : r' = { r with urgent := s.dev.urgentNow r.port r.op })
    (hrank : r'.outranks { h with urgent := s.dev.urgentNow h.port h.op } = true) : Runs (.signhashBlockEnd e) s fun d =>
      Maps.get? e d.eng.holders = some r' ∧ s.dev.counted d R.CTX_ARB_GRANT_p (r.port - 1) := by
  subst hr
  refine ⟨_, rfl, rfl, ?_⟩
  dsimp only
  rw [Dev.get?_refreshUrgent, hold, Option.map_some]
  dsimp only
  rw [if_neg (by show ¬ (h.total = 0 ∨ h.total ≤ h.done + 1); omega),
    Engine.bestParked_singleton (by show s.dev.refreshUrgent.eng.parked = _; rw [Dev.refreshUrgent_parked, hparked]; rfl)]
  dsimp only
  rw [if_pos (show (s.dev.ranked r).outranks { s.dev.ranked h with done := (s.dev.ranked h).done + 1 } = true from hrank),
    Dev.repostLoads_of_none]
  · exact ⟨Dev.grant_holder .., Dev.grant_counted _ e (s.dev.ranked r)⟩
  · exact hload

/-- A finished key operation leaves its engine idle when nothing is parked (R205). -/
theorem signhashOpDone_frees (s : State) (e : Nat) (h : ShReq) (hold : Maps.get? e s.dev.eng.holders = some h) (hop : h.op = .keyMgmt)
    (hparked : s.dev.eng.parked = []) (hload : (s.dev.dst.loading.any fun p => p.2 == 1) = false) :
    Runs (.signhashOpDone e) s fun d => Maps.get? e d.eng.holders = none := by
  refine ⟨_, rfl, rfl, ?_⟩
  dsimp only
  rw [hold]
  dsimp only
  rw [hop, if_neg (by simp [ShOp.signs]), show s.dev.shDone .keyMgmt = s.dev from rfl,
    Dev.grantIdle_of_nil (by rw [Dev.refreshUrgent_parked, hparked]; rfl), Dev.repostLoads_of_none]
  · rw [Dev.get?_refreshUrgent, Maps.get?_del_same]
    rfl
  · exact hload

/-- A condition that changes gives every parked request the rank it has now; a holder keeps its grant (R208). -/
theorem arbUrgentChange_ranks (s : State) (p : Nat) (u : Bool) : Runs (.arbUrgentChange p u) s fun d =>
    (∀ r ∈ d.eng.parked, r.port = 6 → r.urgent = s.dev.nfm.bufferFull) ∧ (p = 8 → ∀ r ∈ d.eng.parked, r.port = 8 → r.urgent = u) ∧
      d.eng.holders.map (fun h => (h.1, h.2.op, h.2.done)) = s.dev.eng.holders.map fun h => (h.1, h.2.op, h.2.done) := by
  refine ⟨_, rfl, rfl, ?_⟩
  beta_reduce
  rw [Dev.refreshUrgent_parked, Dev.refreshUrgent_holders, List.map_map]
  refine ⟨?_, ?_, rfl⟩
  · rintro _ hr h6
    obtain ⟨r, -, rfl⟩ := List.mem_map.1 hr
    have h6 : r.port = 6 := h6
    simp [Dev.ranked, Dev.urgentNow, h6]
  · rintro rfl _ hr h8
    obtain ⟨r, -, rfl⟩ := List.mem_map.1 hr
    have h8 : r.port = 8 := h8
    show Dev.urgentNow _ r.port r.op = u
    rw [h8]
    show List.contains (if u = true then 8 :: _ else _) 8 = u
    cases u with
    | true => simp
    | false => simp

/-- Port 1 has no condition (R203): its requests are never urgent, and every request keeps its turn. -/
theorem arbUrgentChange_keepsOrder (s : State) (u : Bool) : Runs (.arbUrgentChange 1 u) s fun d =>
    (∀ r ∈ d.eng.parked, r.port = 1 → r.urgent = false) ∧ d.eng.parked.map (·.order) = s.dev.eng.parked.map (·.order) := by
  refine ⟨_, rfl, rfl, ?_⟩
  beta_reduce
  rw [Dev.refreshUrgent_parked, List.map_map]
  refine ⟨?_, rfl⟩
  rintro _ hr h1
  obtain ⟨r, -, rfl⟩ := List.mem_map.1 hr
  have h1 : r.port = 1 := h1
  simp [Dev.ranked, Dev.urgentNow, h1]

/-- A request that has waited past its port's limit is reported as starved (R209). -/
theorem arbStarved_reports (s : State) (p : Nat) (r : ShReq)
    (hr : s.dev.eng.parked.find? (fun r => r.port == p && !r.starved && decide (cyclesOf (starveMicros p) < s.dev.cycles - r.since)) = some r) :
    Runs (.arbStarved p) s fun d =>
      (∀ x ∈ d.eng.parked, x.order = r.order → x.starved = true) ∧ d.get F.CTX_INT_STATUS_ARB_STARVED = 1 := by
  refine ⟨_, rfl, rfl, ?_⟩
  beta_reduce
  rw [hr]
  refine ⟨?_, Dev.raise_self _ _ _ _⟩
  rw [Dev.raise_eng]
  rintro _ hx ho
  obtain ⟨y, -, rfl⟩ := List.mem_map.1 hx
  by_cases hy : y.order = r.order
  · rw [if_pos hy]
  · rw [if_neg hy] at ho
    exact absurd ho hy

/-! Accept windows (R84, R174). -/

/-- A window that passes after the second leaves no windows; ACCEPT_MISSED counts where nothing was ordered. -/
theorem acceptWindowCheck_missed (s : State) (a n : Nat) (w : Window) (m : Nat) (hw : s.dev.window? a n = some w)
    (hordered : w.ordered = false) (hm : w.meter = some m) (hdue : s.dev.windowDue w 2 < s.dev.now) :
    Runs (.acceptWindowCheck a n 2) s fun d => d.window? a n = none ∧ s.dev.counted d R.FHM_CNT_n 6 := by
  obtain ⟨rfl, rfl⟩ := Dev.window?_some hw
  refine ⟨_, rfl, rfl, ?_⟩
  beta_reduce
  rw [hw]
  dsimp only
  rw [if_neg (by omega), if_pos hdue, Dev.windowPassed, if_neg (by decide)]
  dsimp only
  rw [hm, hordered]
  exact ⟨Dev.window?_dropWindow .., s.dev.count_counted R.FHM_CNT_n 6⟩

/-- An uplink that is not yet committed at the latest instant of an order is noted (R84). -/
theorem acceptWindowCheck_notes (s : State) (a n k : Nat) (w : Window) (hw : s.dev.window? a n = some w)
    (hcommitted : w.committed = false) (hdue : s.dev.windowDue w k = s.dev.now) :
    Runs (.acceptWindowCheck a n k) s fun d => d.window? a n = some { w with checked := k } ∧ d.fhm.orders = s.dev.fhm.orders := by
  obtain ⟨rfl, rfl⟩ := Dev.window?_some hw
  refine ⟨_, rfl, rfl, ?_⟩
  beta_reduce
  rw [hw]
  dsimp only
  rw [if_neg (by omega), if_neg (by omega), if_pos hcommitted]
  exact ⟨Dev.window?_putWindow s.dev { w with checked := k }, rfl⟩

/-- Before that instant nothing happens (R84). -/
theorem acceptWindowCheck_early (s : State) (a n k : Nat) (w : Window) (hw : s.dev.window? a n = some w)
    (hdue : s.dev.now < s.dev.windowDue w k) : Runs (.acceptWindowCheck a n k) s fun d => d = s.dev := by
  refine ⟨_, rfl, rfl, ?_⟩
  beta_reduce
  rw [hw]
  exact if_pos hdue

/-- The acknowledgement of a committed uplink waits behind its meter's work in flight (R196). -/
theorem acceptWindowCheck_waits (s : State) (a n k : Nat) (w : Window) (m : Nat) (hw : s.dev.window? a n = some w)
    (hcommitted : w.committed = true) (hordered : w.ordered = false) (hnotice : w.notice = none) (hm : w.meter = some m)
    (hidle : s.dev.idleMeter m = false) (hdue : s.dev.windowDue w k = s.dev.now) : Runs (.acceptWindowCheck a n k) s fun d =>
      d.eng.downs = s.dev.eng.downs ++ [(m, .window a n k true, (s.dev.eng.staging.filter fun f => f.meter == m).length)] := by
  refine ⟨_, rfl, rfl, ?_⟩
  beta_reduce
  rw [hw]
  dsimp only
  rw [if_neg (by omega), if_neg (by omega), if_neg (by simp [hcommitted]), hnotice, hm, hcommitted, hordered]
  dsimp only
  rw [if_pos (by simp), Dev.startDown, if_neg (by simp [hidle])]
  rfl

/-- An acknowledgement that a notice brought is ordered in the second window (R84, R175). -/
theorem acceptWindowCheck_orders (s : State) (a n : Nat) (w : Window) (x : Psdu × Psdu) (hw : s.dev.window? a n = some w)
    (hcommitted : w.committed = true) (hordered : w.ordered = false) (hnotice : w.notice = some x)
    (horderable : (s.dev.headRt w.head).orderable = true)
    (hfits : s.dev.windowFits (s.dev.headRt w.head) (s.dev.windowAt w.endNs 2) x.2.len = true)
    (hdue : s.dev.windowDue w 2 = s.dev.now) :
    Runs (.acceptWindowCheck a n 2) s fun d => (d.window? a n).map (·.ordered) = some true := by
  obtain ⟨rfl, rfl⟩ := Dev.window?_some hw
  have hack : (s.dev.orderAck w 2).1 = true := by
    rw [Dev.orderAck, hnotice]
    dsimp only
    rw [if_neg (by simp [horderable]), if_neg (by simp [hfits])]
  refine ⟨_, rfl, rfl, ?_⟩
  beta_reduce
  rw [hw]
  dsimp only
  rw [if_neg (by omega), if_neg (by omega), if_neg (by simp [hcommitted]), hnotice]
  dsimp only
  rw [Dev.useWindow, if_neg (by omega), hcommitted, hordered, Bool.not_false, Bool.and_self, if_pos rfl]
  dsimp only
  rw [if_pos hack]
  exact congrArg (Option.map Window.ordered) (Dev.window?_putWindow _ { w with committed := true, ordered := true })

/-- Settles O25: the lemmas above, one for each clause. -/
theorem windowsAndArbiter : Obligations.WindowsAndArbiter :=
  ⟨acceptWindowCheck_orders, acceptWindowCheck_missed, acceptWindowCheck_notes, acceptWindowCheck_early, acceptWindowCheck_waits,
    signhashRequest_granted, signhashRequest_returned, signhashBlockEnd_continues, signhashBlockEnd_preempts, signhashOpDone_frees,
    arbUrgentChange_ranks, arbUrgentChange_keepsOrder, arbStarved_reports⟩

end Sys2Proof.Machine

namespace Sys2Proof.Machine

set_option Elab.async false

/-! Commands that are a datagram of a head. -/

/-- A command that is an accepted datagram runs with what its effect brings about at a device that admits the datagram. -/
theorem runs_of_accepts {c : Instr} {s : State} {n addr mac type : Nat} {g : Bytes} {m : HlpMsg} {b : Bytes}
    {f : Nat → Bytes → Dev → Dev} {P : Dev → Prop} (e : exec c s = s.on fun d => d.hlpIn n addr mac g type f)
    (ha : s.dev.hlpAccepts n g type m b) (h : ∀ d, s.dev.Admits m.head d → P (f m.head b d)) : Runs c s P := by
  obtain ⟨d, hd, hin⟩ := Dev.hlpIn_accepts ha addr mac f
  exact ⟨_, e, rfl, show P (s.dev.hlpIn n addr mac g type f) by rw [hin]; exact h d hd⟩

/-- A command that is a datagram with a wrong tag sets HLP_AUTH (R63). -/
theorem runs_of_forged {c : Instr} {s : State} {n addr mac type : Nat} {g : Bytes} {f : Nat → Bytes → Dev → Dev}
    (e : exec c s = s.on fun d => d.hlpIn n addr mac g type f) (h : s.dev.hlpForged n g type) :
    Runs c s fun d => d.get F.FHM_INT_STATUS_HLP_AUTH = 1 :=
  ⟨_, e, rfl, Dev.hlpIn_forged h addr mac f⟩

/-! How an order goes out and ends (R65, R75, R77). -/

/-- A head that can be ordered has a session. -/
theorem HeadRt.session_of_orderable {h : HeadRt} (ho : h.orderable = true) : h.session = true := (Bool.and_eq_true_iff.1 ho).2

/-- A sent order is kept as sent. -/
theorem Dev.sendOrder_sent {d : Dev} {o : Order} {r : HeadReg} (hserves : d.serves = true) (hsession : (d.headRt o.head).session = true)
    (hreg : d.headReg? o.head = some r) : ((d.sendOrder o).order? o.head o.txId).map (·.sent) = some true := by
  rw [Dev.sendOrder, if_pos (by rw [hsession, hserves]; rfl), hreg]
  exact congrArg (Option.map Order.sent)
    (find?_replace (fun x : Order => x.head == o.head && x.txId == o.txId) _ (by simp))

/-- R80: the judgement of a head changes head records alone. -/
theorem Dev.HeadsOnly.judgeHead {d d' : Dev} (h : d.HeadsOnly d') (i : Nat) : d.HeadsOnly (d'.judgeHead i) := by
  unfold Dev.judgeHead
  extract_lets x
  split
  · exact h.headTo _ _ _
  · exact h

theorem Dev.judgeHead_sameButState (d : Dev) (i : Nat) : (d.headRt i).SameButState ((d.judgeHead i).headRt i) := by
  unfold Dev.judgeHead
  extract_lets x
  split
  · rw [Dev.headTo_headRt]; exact d.headMoved_sameButState _ _ _
  · exact .refl _

/-- CSMA attempts are noted in a cell (R87). -/
theorem Dev.csmaSeen_fhm (d : Dev) (o : Order) (tried busy : Nat) : ∃ l, (d.csmaSeen o tried busy).fhm = { d.fhm with cells := l } := by
  unfold Dev.csmaSeen
  split
  · exact ⟨_, Dev.setCell_fhm ..⟩
  · exact ⟨d.fhm.cells, rfl⟩

theorem Dev.csmaSeen_reg {off : Nat} (h : fhmKept off = true) (d : Dev) (o : Order) (tried busy : Nat) :
    (d.csmaSeen o tried busy).reg off = d.reg off := by
  unfold Dev.csmaSeen
  split
  · exact Dev.showHead_reg h _
  · rfl

/-- An acknowledged accept acknowledgement marks its uplink's windows (R174). -/
theorem Dev.orderOutcome_accept {d : Dev} {o : Order} {a n k : Nat} {w : Window} (hpurpose : o.purpose = .accept a n k)
    (hkey : o.keyKind = none) (hw : d.window? a n = some w) :
    ∃ d' : Dev, d'.fhm = d.fhm ∧ d.orderOutcome o 0 = d'.putWindow { w with acked := true } := by
  unfold Dev.orderOutcome
  rw [hkey]
  dsimp only
  rw [hpurpose]
  dsimp only
  rw [if_neg (show ¬(0 = 2 ∧ k ≠ 1) from fun h => by cases h.1)]
  cases o.psdu.meter with
  | none => exact ⟨d, rfl, by rw [hw]; rfl⟩
  | some m => exact ⟨d.synced m o, rfl, by
    dsimp only
    rw [if_pos rfl, show (d.synced m o).window? a n = some w from hw]
    rfl⟩

/-- The end of an abort's order that is not ordered again leaves nothing (R282). -/
theorem Dev.orderOutcome_abort {d : Dev} {o : Order} {k st : Nat} (hpurpose : o.purpose = .abort k)
    (hlast : d.get F.FHM_CSMA_MAX_RETRIES ≤ o.retries ∨ st ≠ 2 ∧ st ≠ Tx.busy) (hst : st ≠ 0) : d.orderOutcome o st = d := by
  unfold Dev.orderOutcome
  extract_lets d₁ again wake
  have hkey : d₁ = d := by
    dsimp only [d₁]
    split
    · exact if_neg hst
    · rfl
  have hagain : again = false := by
    rcases hlast with h | ⟨h, h'⟩
    · simp [again, hkey, h]
    · simp [again, h, h']
  rw [hpurpose]
  dsimp only
  rw [hagain, hkey]
  rfl

/-- What re-homing leaves of the FHM state: the head is marked as re-homed (R60). -/
theorem Dev.rehome_fhm (d : Dev) (i : Nat) :
    (d.rehome i).fhm = d.fhm ∧ (d.headRt i).rehomed = true ∨
      (d.rehome i).fhm = { d.fhm with heads := Maps.put d.fhm.heads i { d.headRt i with rehomed := true } } := by
  by_cases h : (d.headRt i).rehomed = true
  · rw [Dev.rehome, if_pos h]
    exact .inl ⟨rfl, h⟩
  · refine .inr ?_
    rw [Dev.rehome, if_neg h]
    extract_lets today d₁
    have hfhm : d₁.fhm = d.fhm := by
      have hall : Edits 0x142200004c402 d d₁ := by
        refine Edits.foldl _ (fun d p hd => ?_) _ (.refl d)
        dsimp only
        split
        · exact hd
        · split
          · exact Dev.setHome_edits (h := hd)
          · exact Dev.count_lit_edits (h := hd)
      exact hall.fhm.resolve_left (by decide)
    show { d₁.fhm with heads := Maps.put d₁.fhm.heads i { d₁.headRt i with rehomed := true } } = _
    rw [Dev.headRt_congr (congrArg Fhm.heads hfhm), hfhm]

theorem Dev.rehome_headRt (d : Dev) (i : Nat) : (d.rehome i).headRt i = { d.headRt i with rehomed := true } := by
  rcases d.rehome_fhm i with ⟨e, h⟩ | e
  · rw [Dev.headRt_congr (congrArg Fhm.heads e), ← h]
  · rw [Dev.headRt, e]
    exact Maps.getD_put_same ..

theorem Dev.rehome_orders (d : Dev) (i : Nat) : (d.rehome i).fhm.orders = d.fhm.orders := by
  rcases d.rehome_fhm i with ⟨e, -⟩ | e
  · rw [e]
  · rw [e]

theorem Dev.headTo_orders (d : Dev) (i : Nat) (st : HeadSt) (cause : Nat) : (d.headTo i st cause).fhm.orders = d.fhm.orders := by
  rw [Dev.headTo_fhm]; rfl

/-- `d'` counts one more missed beacon of head `i` than `d`, and has its orders. -/
def Dev.MissedOne (d : Dev) (i : Nat) (d' : Dev) : Prop :=
  (d'.headRt i).missed = (d.headRt i).missed + 1 ∧ d'.fhm.orders = d.fhm.orders

theorem Dev.MissedOne.rehome {d d' : Dev} {i : Nat} (h : d.MissedOne i d') : d.MissedOne i (d'.rehome i) :=
  ⟨(congrArg HeadRt.missed (d'.rehome_headRt i)).trans h.1, (d'.rehome_orders i).trans h.2⟩

theorem Dev.MissedOne.headTo {d d' : Dev} {i : Nat} (h : d.MissedOne i d') (st : HeadSt) (cause : Nat) :
    d.MissedOne i (d'.headTo i st cause) :=
  ⟨(congrArg HeadRt.missed (d'.headTo_headRt i st cause)).trans h.1, (d'.headTo_orders i st cause).trans h.2⟩

theorem Dev.MissedOne.raise {d d' : Dev} {i : Nat} (h : d.MissedOne i d') (x : Fld) (a b : Nat) : d.MissedOne i (d'.raise x a b) := by
  have hfhm := Dev.raise_fhm d' x a b
  exact ⟨by rw [Dev.headRt_congr (congrArg Fhm.heads hfhm)]; exact h.1, by rw [hfhm]; exact h.2⟩

/-- The record set for a head decides. -/
theorem Dev.MissedOne.setHead {d d' : Dev} {i : Nat} {h : HeadRt} (hmissed : h.missed = (d.headRt i).missed + 1)
    (horders : d'.fhm.orders = d.fhm.orders) : d.MissedOne i (d'.setHead i h) :=
  ⟨(congrArg HeadRt.missed (Dev.headRt_setHead_same ..)).trans hmissed, horders⟩

/-- A missed beacon counts for its head, and leaves the orders (R92). -/
theorem Dev.missBeacon_missed (d : Dev) (i : Nat) : d.MissedOne i (d.missBeacon i) := by
  unfold Dev.missBeacon
  extract_lets d₁ h₀ h d₂ ch silent d₃ d₄ d₅
  have hd₂ : d.MissedOne i d₂ := .setHead rfl rfl
  have hd₃ : d.MissedOne i d₃ := .setHead rfl rfl
  have hd₅ : d.MissedOne i d₅ := by
    dsimp only [d₅]
    split
    · split
      · exact hd₃.headTo _ _
      · exact (hd₃.headTo _ _).raise _ _ _
    · exact hd₃
  split
  · exact hd₂.rehome
  · split
    · exact hd₂
    · exact hd₅.rehome

/-! The clauses of O17. -/

/-- A planned order of a head in service goes at its time (R65, R79). -/
theorem txAtSend_sends (s : State) (i n : Nat) (o : Order) (r : HeadReg) (hserves : s.dev.serves = true) (ho : s.dev.order? i n = some o)
    (hsent : o.sent = false) (horderable : (s.dev.headRt i).orderable = true) (hreg : s.dev.headReg? i = some r) :
    Runs (.txAtSend (.order i n)) s fun d => (d.order? i n).map (·.sent) = some true := by
  obtain ⟨rfl, rfl⟩ := Dev.order?_some ho
  refine ⟨_, rfl, rfl, ?_⟩
  dsimp only
  rw [ho]
  dsimp only
  rw [if_neg (by simp [hsent]), if_pos horderable]
  exact Dev.sendOrder_sent hserves (HeadRt.session_of_orderable horderable) hreg

/-- A confirm in time ends its order, and an accept acknowledgement's marks the windows (R77, R79, R174). -/
theorem txConfirm_confirms (s : State) (port addr mac : Nat) (g : Bytes) (m : HlpMsg) (b : Bytes) (o : Order) (a c : Nat) (w : Window)
    (ha : s.dev.hlpAccepts port g 4 m b) (hst : b.u8 4 = 0) (ho : s.dev.order? m.head (b.be 0 4) = some o)
    (hpurpose : o.purpose = .accept a c 2) (hkey : o.keyKind = none) (hw : s.dev.window? a c = some w)
    (hintime : s.dev.now ≤ s.dev.confirmDeadline o) : Runs (.txConfirm port addr mac g) s fun d =>
      d.order? m.head (b.be 0 4) = none ∧ (d.window? a c).map (·.acked) = some true ∧
        (d.headRt m.head).confirms = (s.dev.headRt m.head).confirms + 1 := by
  refine runs_of_accepts rfl ha fun d hd => ?_
  obtain ⟨hhead, htx⟩ := Dev.order?_some ho
  obtain ⟨ha', hc'⟩ := Dev.window?_some hw
  have hdeadline : ¬ d.confirmDeadline o < d.now := by
    rw [hd.only.confirmDeadline (hhead ▸ hd.head), hd.only.now]; omega
  dsimp only
  rw [Dev.order?_congr hd.only.orders, ho]
  dsimp only
  rw [if_neg hdeadline, hst, if_neg (show ¬(0 : Nat) = 3 by decide), if_pos (show (0 : Nat) ≤ 2 by decide)]
  set h : HeadRt := { d.headRt m.head with delays := _, confirms := _ } with hh
  set d₁ := (d.setHead m.head h).judgeHead m.head with hd₁
  have honly : s.dev.HeadsOnly d₁ := (hd.only.setHead _ _).judgeHead _
  have hconfirms : (d₁.headRt m.head).confirms = (s.dev.headRt m.head).confirms + 1 := by
    rw [hd₁, (Dev.judgeHead_sameButState _ _).confirms, Dev.headRt_setHead_same, hh, ← hd.head.confirms]
  obtain ⟨l, hcsma⟩ := d₁.csmaSeen_fhm o (b.u8 5 - b.u8 6) (b.u8 5 - b.u8 6 - 1)
  set d₂ := d₁.csmaSeen o (b.u8 5 - b.u8 6) (b.u8 5 - b.u8 6 - 1)
  have hwin : (d₂.dropOrder m.head o.txId).window? a c = some w := by
    rw [Dev.window?_congr (d := s.dev) ?_, hw]
    show d₂.fhm.windows = _
    rw [hcsma, ← honly.windows]
  obtain ⟨d₃, hfhm, e⟩ := Dev.orderOutcome_accept hpurpose hkey hwin
  rw [e]
  refine ⟨?_, ?_, ?_⟩
  · have horders : (d₃.putWindow { w with acked := true }).fhm.orders = (d₂.dropOrder m.head o.txId).fhm.orders := by
      rw [Dev.putWindow_orders, hfhm]
    rw [Dev.order?_congr horders, ← htx, Dev.order?_dropOrder]
  · rw [← ha', ← hc']
    exact congrArg (Option.map Window.acked) (Dev.window?_putWindow d₃ { w with acked := true })
  · rw [Dev.putWindow_headRt, Dev.headRt_congr (d := d₁) ?_, hconfirms]
    rw [hfhm]
    show d₂.fhm.heads = _
    rw [hcsma]

/-- CCA_BUSY for the last retry ends its order, counted (R77). -/
theorem ccaBusy_ends (s : State) (port addr mac : Nat) (g : Bytes) (m : HlpMsg) (b : Bytes) (o : Order) (k : Nat)
    (ha : s.dev.hlpAccepts port g 3 m b) (ho : s.dev.order? m.head (b.be 0 4) = some o) (hpurpose : o.purpose = .abort k)
    (hretries : s.dev.get F.FHM_CSMA_MAX_RETRIES ≤ o.retries) : Runs (.ccaBusy port addr mac g) s fun d =>
      d.order? m.head (b.be 0 4) = none ∧ s.dev.counted d R.FHM_CNT_n 4 := by
  refine runs_of_accepts rfl ha fun d hd => ?_
  obtain ⟨-, htx⟩ := Dev.order?_some ho
  dsimp only
  rw [Dev.order?_congr hd.only.orders, ho]
  dsimp only
  set d₁ := (d.count R.FHM_CNT_n 4).csmaSeen o (b.u8 4) (b.u8 4) with hd₁
  have hmax : d₁.reg F.FHM_CSMA_MAX_RETRIES.off = s.dev.reg F.FHM_CSMA_MAX_RETRIES.off := by
    rw [hd₁, Dev.csmaSeen_reg (by decide), Dev.count_reg_other (by decide), hd.only.reg _ (by decide)]
  have hget : (d₁.dropOrder m.head o.txId).get F.FHM_CSMA_MAX_RETRIES = s.dev.get F.FHM_CSMA_MAX_RETRIES :=
    congrArg (fun w : Word => w.toNat >>> _ % _) hmax
  rw [Dev.orderOutcome_abort hpurpose (.inl (hget ▸ hretries)) (by split <;> decide)]
  refine ⟨by rw [← htx, Dev.order?_dropOrder], ?_⟩
  show d₁.reg (R.FHM_CNT_n.at 4) = _
  rw [hd₁, Dev.csmaSeen_reg (by decide), ← hd.only.reg _ (by decide)]
  exact d.count_counted _ _

/-- An order without a confirm by its deadline ends (R75). -/
theorem txConfirmDeadline_ends (s : State) (i n : Nat) (o : Order) (k : Nat) (ho : s.dev.order? i n = some o) (hsent : o.sent = true)
    (hpurpose : o.purpose = .abort k) (hlate : s.dev.confirmDeadline o < s.dev.now) :
    Runs (.txConfirmDeadline i n) s fun d => d.order? i n = none := by
  refine ⟨_, rfl, rfl, ?_⟩
  beta_reduce
  rw [ho]
  dsimp only
  rw [if_pos ⟨hsent, by simp [hpurpose], hlate⟩, Dev.orderOutcome_abort hpurpose (.inr (by decide)) (by decide), Dev.order?_dropOrder]

/-- A beacon without a confirm by its deadline is missed (R92). -/
theorem beaconConfirmDeadline_misses (s : State) (i n : Nat) (o : Order) (ho : s.dev.order? i n = some o) (hpurpose : o.purpose = .beacon)
    (hlate : s.dev.confirmDeadline o < s.dev.now) : Runs (.beaconConfirmDeadline i n) s fun d =>
      d.order? i n = none ∧ (d.headRt i).missed = (s.dev.headRt i).missed + 1 := by
  refine ⟨_, rfl, rfl, ?_⟩
  beta_reduce
  rw [ho]
  dsimp only
  rw [if_pos ⟨hpurpose, hlate⟩]
  obtain ⟨hmissed, horders⟩ := (s.dev.dropOrder i n).missBeacon_missed i
  exact ⟨by rw [Dev.order?_congr horders, Dev.order?_dropOrder], hmissed⟩

/-- Settles O17: the lemmas above, one for each clause. -/
theorem orderOutcomes : Obligations.OrderOutcomes :=
  ⟨txAtSend_sends, txConfirm_confirms, ccaBusy_ends, fun _ _ _ _ _ h => runs_of_forged rfl h, fun _ _ _ _ _ h => runs_of_forged rfl h,
    txConfirmDeadline_ends, beaconConfirmDeadline_misses⟩

end Sys2Proof.Machine

namespace Sys2Proof.Machine

set_option Elab.async false

/-! A frame's way through staging leaves the FHM state (R153, R197): its item does no downlink work. -/

/-- A meter's work item, where it has one, is a frame's. -/
def Dev.Jobless (d : Dev) (meter : Nat) : Prop := ∀ w, Maps.get? meter d.eng.flight = some w → w.job = none

theorem Dev.setWork_jobless (d : Dev) (meter : Nat) {w : Work} (h : w.job = none) : (d.setWork meter w).Jobless meter := by
  unfold Dev.setWork
  extract_lets old same w'
  intro x hx
  have hx : Maps.get? meter (Maps.put d.eng.flight meter w') = some x := hx
  rw [Maps.get?_put_same, Option.some.injEq] at hx
  rw [← hx]
  dsimp only [w']
  split
  · exact h
  · exact h

section
variable {d : Dev} {meter : Nat} {w : Work} (hd : d.Jobless meter) (hw : w.job = none)
include hd hw

theorem Dev.waitSet_jobless (x : Fld) : (d.waitSet meter w x).Jobless meter := by
  unfold Dev.waitSet
  split
  · exact hd
  · exact Dev.setWork_jobless _ _ hw

theorem Dev.wantContext_jobless : (d.wantContext meter w).Jobless meter := by
  unfold Dev.wantContext
  split
  · exact hd
  · split
    · exact Dev.setWork_jobless _ _ hw
    · extract_lets d₁
      have hd₁ : d₁.Jobless meter := by
        dsimp only [d₁]
        split
        · exact hd
        · exact hd
      split
      · exact Dev.setWork_jobless _ _ hw
      · exact Dev.waitSet_jobless hd₁ hw _

theorem Dev.wantKey_jobless : (d.wantKey meter w).Jobless meter := by
  unfold Dev.wantKey
  split
  · exact hd
  · extract_lets d₁ missing d₂ take
    split
    · exact Dev.setWork_jobless _ _ hw
    · have hd₂ : d₂.Jobless meter := by
        dsimp only [d₂]
        split
        · exact hd
        · exact hd
      split
      · exact Dev.setWork_jobless _ _ hw
      · exact Dev.waitSet_jobless hd₂ hw _

theorem Dev.wantLane_jobless : (d.wantLane meter w).Jobless meter := by
  unfold Dev.wantLane
  split
  · exact Dev.setWork_jobless _ _ hw
  · exact hd

theorem Dev.wantRing_jobless : (d.wantRing meter w).Jobless meter := by
  unfold Dev.wantRing
  split
  · exact Dev.setWork_jobless _ _ hw
  · extract_lets n
    split
    · exact Dev.setWork_jobless _ _ hw
    · exact hd

end

/-- The ranked resources that a frame's item takes leave the FHM state. -/
theorem Dev.advance_fhm (k meter : Nat) {d : Dev} (hd : d.Jobless meter) : (Dev.advance k meter d).fhm = d.fhm := by
  induction k generalizing d with
  | zero => rfl
  | succ k ih =>
    unfold Dev.advance
    split
    · rfl
    · next w hget =>
      have hw := hd w hget
      split
      · next j _ hjob => rw [hw] at hjob; cases hjob
      · extract_lets d'
        have h : d'.Jobless meter ∧ d'.fhm = d.fhm := by
          dsimp only [d']
          split
          · exact ⟨Dev.wantContext_jobless hd hw, (Dev.wantContext_edits (m := 0x3401c0004c803) (h := .refl d)).fhm.resolve_left (by decide)⟩
          · exact ⟨Dev.wantKey_jobless hd hw, (Dev.wantKey_edits (m := 0x3401c0004c803) (h := .refl d)).fhm.resolve_left (by decide)⟩
          · exact ⟨Dev.wantLane_jobless hd hw, (Dev.wantLane_edits (m := 0x1000000800) (h := .refl d)).fhm.resolve_left (by decide)⟩
          · exact ⟨Dev.wantRing_jobless hd hw, (Dev.wantRing_edits (m := 0x1000000800) (h := .refl d)).fhm.resolve_left (by decide)⟩
          · exact ⟨hd, rfl⟩
        split
        · exact h.2
        · exact (ih h.1).trans h.2

/-- A frame's item has no downlink job. -/
theorem Dev.beginItem_jobless (d : Dev) (f : Staged0) : (d.beginItem f).showIng.Jobless f.meter := by
  intro w hw
  have hw : Maps.get? f.meter (Maps.put d.eng.flight f.meter _) = some w := hw
  rw [Maps.get?_put_same, Option.some.injEq] at hw
  rw [← hw]

theorem Dev.readyNow_fhm (d : Dev) : d.readyNow.fhm = d.fhm :=
  (Dev.readyNow_edits (m := 0x340050004c023) (h := .refl d)).fhm.resolve_left (by decide)

theorem Dev.forwardUp_fhm (d : Dev) (f : Staged0) : (d.forwardUp f).fhm = d.fhm :=
  (Dev.forwardUp_edits (m := 0x340040004c003) (h := .refl d)).fhm.resolve_left (by decide)

theorem Dev.stage_fhm (d : Dev) (f : Staged0) : (d.stage f).fhm = d.fhm := by
  unfold Dev.stage
  extract_lets slots d₁ a e
  split
  · rfl
  · split
    · rfl
    · split
      · exact Dev.raise_fhm ..
      · have hd₁ : d₁.fhm = d.fhm := Dev.readyNow_fhm _
        split
        · exact hd₁
        · split
          · exact (d₁.forwardUp_fhm f).trans hd₁
          · split
            · exact (Dev.raise_fhm ..).trans hd₁
            · extract_lets g
              split
              · exact (Dev.advance_fhm 4 _ (d₁.beginItem_jobless g)).trans hd₁
              · exact hd₁

/-! Receptions (R86, R153). -/

theorem Dev.markSlot_heard (d : Dev) (c t : Nat) : (d.markSlot c t).fhm.heard = d.fhm.heard := by
  unfold Dev.markSlot
  extract_lets x
  split
  · rfl
  · extract_lets slot
    split
    · rfl
    · rfl

theorem Dev.heardBy_fhm (d : Dev) (meter head : Nat) (rssi : Int) : (d.heardBy meter head rssi).fhm = d.fhm :=
  (Dev.heardBy_edits (m := 0x140000004c402) (h := .refl d)).fhm.resolve_left (by decide)

/-- A first copy of an uplink is noted with its head (R86). -/
theorem rxReport_notes (s : State) (port addr mac : Nat) (g : Bytes) (m : HlpMsg) (b : Bytes) (f : MeterFrame)
    (ha : s.dev.hlpAccepts port g 2 m b) (hlen : b.length = 18 + b.be 16 2) (hshort : b.be 16 2 ≤ 1024) (hmode : b.u8 11 ≤ 2)
    (hparse : parseFrame false (b.drop 18) = some f) (hheard : s.dev.fhm.heard = []) : Runs (.rxReport port addr mac g) s fun d =>
      (d.fhm.heard.any fun x => x.meter == f.address && x.counter == f.counter && x.head == m.head) = true := by
  refine runs_of_accepts rfl ha fun d hd => ?_
  extract_lets len mode bus sfd rate rssi end_ d₁
  have hbus : bus = false := decide_eq_false (show ¬16 ≤ b.u8 11 by omega)
  have hform : ¬(b.length ≠ 18 + len ∨ 1024 < len ∨ (2 < mode ∧ mode ≠ 16 ∧ mode ≠ 17)) := by
    dsimp only [len, mode]; omega
  have hd₁ : d₁.fhm.heard = [] := by
    rw [← hheard, ← hd.only.heard]
    dsimp only [d₁]
    split
    · rfl
    · rfl
  rw [if_neg hform, hbus, hparse, Option.map_some]
  dsimp -zeta only
  extract_lets meter d₂ same fresh this live base d₃ d₄ d₅
  clear_value meter
  have hd₂ : d₂.fhm.heard = [] := by
    rw [← hd₁]
    dsimp only [d₂]
    split
    · rw [Dev.heardBy_fhm]
    · rfl
  have hnew : d₂.fhm.heard.find? same = none := by rw [hd₂]; rfl
  have hd₅ : d₅.fhm.heard = [this] := by
    have hd₄ : d₄.fhm.heard = d₃.fhm.heard := Dev.markSlot_heard ..
    show d₄.fhm.heard = _
    rw [hd₄]
    show d₂.fhm.heard.filter _ ++ [this] = _
    rw [hd₂]
    rfl
  rw [hnew]
  dsimp only
  rw [Dev.stage_fhm, hd₅]
  simp [this, Dev.readIes]

/-! What a head reports of itself, and its silence (R59, R60, R81, R92). -/

/-- A head that goes OFFLINE is reported lost. -/
theorem Dev.headTo_lost {d : Dev} {i : Nat} (h : (d.headRt i).state ≠ .offline) (cause : Nat) :
    (d.headTo i .offline cause).get F.FHM_INT_STATUS_HEAD_LOST = 1 := by
  rw [Dev.headTo, if_neg h]
  exact Dev.raise_self _ F.FHM_INT_STATUS_HEAD_LOST _ _

/-- The status of an ACTIVE head is noted, and an offset beyond TIME_TOL suspends it (R81). -/
theorem headStatus_notes (s : State) (port addr mac : Nat) (g : Bytes) (m : HlpMsg) (b : Bytes) (ha : s.dev.hlpAccepts port g 6 m b)
    (hactive : (s.dev.headRt m.head).state = .active) : Runs (.headStatus port addr mac g) s fun d =>
      (d.headRt m.head).offset = signed 32 (b.be 0 4) ∧ (d.headRt m.head).state =
        if (signed 32 (b.be 0 4)).natAbs ≤ 1000 * s.dev.get F.FHM_HEAD_CFG_TIME_TOL then .active else .suspended := by
  refine runs_of_accepts rfl ha fun d hd => ?_
  have hstate : (d.headRt m.head).state = .active := by rw [hd.state, hactive]; rfl
  extract_lets h₀ h d₁
  have hh : h.state = .active := hstate
  have hd₁ : d₁.headRt m.head = h := Dev.headRt_setHead_same ..
  have htol : d₁.timeOk h = decide ((signed 32 (b.be 0 4)).natAbs ≤ 1000 * s.dev.get F.FHM_HEAD_CFG_TIME_TOL) := by
    rw [← (hd.only.setHead m.head h).get F.FHM_HEAD_CFG_TIME_TOL]
    rfl
  rw [if_neg (by rw [hh]; decide), htol]
  by_cases hok : (signed 32 (b.be 0 4)).natAbs ≤ 1000 * s.dev.get F.FHM_HEAD_CFG_TIME_TOL
  · rw [if_neg (by simp [hok]), if_pos hok, hd₁]
    exact ⟨rfl, hh⟩
  · rw [if_pos ⟨by rw [HeadRt.inService, hh]; rfl, by simp [hok]⟩, if_neg hok, Dev.headTo_headRt, Dev.headMoved, hd₁]
    exact ⟨rfl, rfl⟩

/-- A LEAVE makes its head OFFLINE with cause 4 (R59). -/
theorem headLeave_leaves (s : State) (port addr mac : Nat) (g : Bytes) (m : HlpMsg) (b : Bytes) (ha : s.dev.hlpAccepts port g 7 m b)
    (hleave : b.u8 0 = 4) : Runs (.headLeave port addr mac g) s fun d =>
      (d.headRt m.head).state = .offline ∧ (d.headRt m.head).cause = 4 := by
  refine runs_of_accepts rfl ha fun d _ => ?_
  rw [if_pos hleave, Dev.headTo_headRt]
  exact ⟨rfl, rfl⟩

/-- A beacon's confirm in time ends the count of missed beacons (R92). -/
theorem beaconConfirm_confirms (s : State) (port addr mac : Nat) (g : Bytes) (m : HlpMsg) (b : Bytes) (o : Order)
    (ha : s.dev.hlpAccepts port g 5 m b) (ho : s.dev.order? m.head (b.be 0 4) = some o) (hpurpose : o.purpose = .beacon)
    (hintime : s.dev.now ≤ s.dev.confirmDeadline o) : Runs (.beaconConfirm port addr mac g) s fun d =>
      d.order? m.head (b.be 0 4) = none ∧ (d.headRt m.head).missed = 0 := by
  refine runs_of_accepts rfl ha fun d hd => ?_
  obtain ⟨hhead, htx⟩ := Dev.order?_some ho
  have hdeadline : ¬d.confirmDeadline o < d.now := by
    rw [hd.only.confirmDeadline (hhead ▸ hd.head), hd.only.now]; omega
  rw [Dev.order?_congr hd.only.orders, ho]
  dsimp -zeta only
  extract_lets d₁ c sfd d₂ h d₃
  rw [if_neg (by simp [hpurpose]), if_neg hdeadline]
  have hnone : d₁.order? m.head (b.be 0 4) = none := by rw [← htx]; exact Dev.order?_dropOrder ..
  have hd₃ : (d₃.headRt m.head).missed = 0 := congrArg HeadRt.missed (Dev.headRt_setHead_same ..)
  split
  · refine ⟨(Dev.order?_congr (Dev.headTo_orders ..) _ _).trans hnone, ?_⟩
    rw [Dev.headTo_headRt]
    exact hd₃
  · exact ⟨hnone, hd₃⟩

/-- Three status periods of silence make a head OFFLINE (R59). -/
theorem headSilenceTimeout_loses (s : State) (i : Nat) (r : HeadReg) (hreg : s.dev.headReg? i = some r)
    (hstate : (s.dev.headRt i).state ≠ .offline) (hsilent : (s.dev.headRt i).heardAt + 3 * s.dev.statusCycles < s.dev.cycles)
    (hmissed : (s.dev.headRt i).missed = 0) : Runs (.headSilenceTimeout i) s fun d =>
      (d.headRt i).state = .offline ∧ (d.headRt i).cause = 3 ∧ d.get F.FHM_INT_STATUS_HEAD_LOST = 1 := by
  refine ⟨_, rfl, rfl, ?_⟩
  beta_reduce
  extract_lets h d₁
  rw [if_neg (by rw [hreg]; simp [h, hstate, hsilent]), if_neg fun e => e.1 hmissed, Dev.headTo_headRt]
  exact ⟨rfl, rfl, Dev.headTo_lost (by rw [Dev.headRt_setHead_same]; exact hstate) 3⟩

/-- A silent head that missed a beacon in the last status period has its meters re-homed (R101). -/
theorem headSilenceTimeout_rehomes (s : State) (i : Nat) (r : HeadReg) (hreg : s.dev.headReg? i = some r)
    (hstate : (s.dev.headRt i).state ≠ .offline) (hsilent : (s.dev.headRt i).heardAt + 3 * s.dev.statusCycles < s.dev.cycles)
    (hmissed : (s.dev.headRt i).missed ≠ 0) (hrecent : s.dev.cycles ≤ (s.dev.headRt i).missedAt + s.dev.statusCycles) :
    Runs (.headSilenceTimeout i) s fun d => (d.headRt i).state = .offline ∧ (d.headRt i).rehomed = true := by
  refine ⟨_, rfl, rfl, ?_⟩
  beta_reduce
  extract_lets h d₁
  have honly : s.dev.HeadsOnly d₁ := ((Dev.HeadsOnly.refl s.dev).setHead _ _).headTo _ _ _
  have hperiod : d₁.statusCycles = s.dev.statusCycles := by
    rw [Dev.statusCycles, honly.get F.FHM_HEAD_CFG_STATUS_PERIOD, Dev.statusCycles]
  rw [if_neg (by rw [hreg]; simp [h, hstate, hsilent]), if_pos ⟨hmissed, by rw [honly.cycles, hperiod]; exact hrecent⟩, Dev.rehome_headRt,
    Dev.headTo_headRt]
  exact ⟨rfl, rfl⟩

/-- A head suspended for more than 60 s has its meters re-homed (R60). -/
theorem headSuspendTimeout_rehomes (s : State) (i : Nat) (hstate : (s.dev.headRt i).state = .suspended)
    (hlong : (s.dev.headRt i).since + cyclesOf 60000000 < s.dev.cycles) :
    Runs (.headSuspendTimeout i) s fun d => (d.headRt i).rehomed = true := by
  refine ⟨_, rfl, rfl, ?_⟩
  beta_reduce
  extract_lets h
  rw [if_pos ⟨hstate, hlong⟩, Dev.rehome_headRt]

/-- Settles O16: the lemmas above, one for each clause. -/
theorem headDatagramsAndSilence : Obligations.HeadDatagramsAndSilence :=
  ⟨headStatus_notes, headLeave_leaves, beaconConfirm_confirms, rxReport_notes, fun _ _ _ _ _ h => runs_of_forged rfl h,
    fun _ _ _ _ _ h => runs_of_forged rfl h, fun _ _ _ _ _ h => runs_of_forged rfl h, fun _ _ _ _ _ h => runs_of_forged rfl h,
    headSilenceTimeout_loses, headSilenceTimeout_rehomes, headSuspendTimeout_rehomes⟩

end Sys2Proof.Machine

namespace Sys2Proof.Machine

set_option Elab.async false

/-! A synchronised standby is known from the pair's registers and from nothing that a head's bookkeeping changes. -/

theorem Dev.PairKept.raise {d d' : Dev} (h : d.PairKept d') (x : Fld) (a b : Nat) (hx : prlKept x.off = false := by decide) :
    d.PairKept (d'.raise x a b) := by
  refine h.trans ⟨fun off ho => ?_, d'.raise_prl x a b⟩
  have hne : off ≠ x.off := by rintro rfl; simp [hx] at ho
  refine BitVec.eq_of_toNat_eq ?_
  rw [← Dev.get_whole, ← Dev.get_whole, Dev.raise_prl_get d' x a b (y := ⟨off, 0, 0, 31, 0⟩) ho, Dev.get_set_other hne]

/-- What shows the selected head stands outside the pair's registers. -/
theorem Dev.PairKept.showHead {d d' : Dev} (h : d.PairKept d') (f : Fhm) : d.PairKept { d' with fhm := f }.showHead := by
  refine h.trans ⟨fun off ho => ?_, .refl _⟩
  have hb := prlKept_block ho
  have hbit : regBit off = 31 ∨ regBit off = 48 := by rw [regBit, hb]; split <;> simp
  have hregs := Dev.showHead_edits (m := 0x2000000000) (h := .refl { d' with fhm := f })
  exact hregs.reg off (by omega) (by rcases hbit with e | e <;> rw [e] <;> decide)

theorem Dev.PairKept.setHead {d d' : Dev} (h : d.PairKept d') (i : Nat) (x : HeadRt) : d.PairKept (d'.setHead i x) := h.showHead _

theorem Dev.PairKept.headTo {d d' : Dev} (h : d.PairKept d') (i : Nat) (st : HeadSt) (cause : Nat) : d.PairKept (d'.headTo i st cause) := by
  obtain e | ⟨x, a, b, hx, e⟩ := d'.headTo_cases i st cause
  · rw [e]; exact h.setHead i _
  · rw [e]; exact (h.setHead i _).raise x a b (by rw [hx]; decide)

theorem Dev.PairKept.get {d d' : Dev} (h : d.PairKept d') (x : Fld) (hx : prlKept x.off = true := by decide) : d'.get x = d.get x :=
  congrArg (fun w : Word => w.toNat >>> x.lo % 2 ^ (x.hi + 1 - x.lo)) (h.reg x.off hx)

theorem Dev.PairKept.standbySynced {d d' : Dev} (h : d.PairKept d') : d'.standbySynced = d.standbySynced := by
  rw [Dev.standbySynced, Dev.pairState, h.get F.PRL_STATUS_STATE, h.get F.PRL_STATUS_PARTNER_STATE, h.prl.unsynced]
  rfl

/-! A head's durable record (R57, R58, R67). -/

/-- The journal's record of a head is its durable record. -/
theorem Dev.journal_head_heads (d : Dev) (i : Nat) (v : Option HeadReg) :
    (d.journal (.head i v)).dur.heads = putOpt d.dur.heads i v := by
  have h : (d.append (.head i v)).2.dur = d.dur := (Dev.append_snd_edits (m := 0x1400000048002) (h := .refl d)).dur.resolve_left (by decide)
  show putOpt (d.append (.head i v)).2.dur.heads i v = _
  rw [h]

/-- The end of a head command shows its result. -/
theorem Dev.headDone_result (d : Dev) (code : Nat) : (d.headDone code).get F.FHM_HEAD_CMD_RESULT = code % 8 := by
  rw [Dev.headDone, Dev.get_set_apart (by decide) (by decide) (by decide), Dev.get_set_same _ F.FHM_HEAD_CMD_RESULT]
  rfl

/-- A head command that only writes a head's record completes with it. -/
theorem Dev.complete_head (d : Dev) (i : Nat) (v : Option HeadReg) :
    (d.complete { recs := [.head i v], finish := .fhm }).dur.heads = putOpt d.dur.heads i v ∧
      (d.complete { recs := [.head i v], finish := .fhm }).fhm = d.fhm ∧
      (d.complete { recs := [.head i v], finish := .fhm }).get F.FHM_HEAD_CMD_RESULT = 0 := by
  have hfreeing : (d.eng.freeing.filter fun j => ([.head i v] : List JRec).contains (.free j)) = [] :=
    List.filter_eq_nil_iff.2 fun j _ => by simp
  unfold Dev.complete
  dsimp -zeta only
  rw [hfreeing]
  extract_lets d₁ d₂ d₃ d₄ d₅ freeing
  have hd₄ : d₄.dur.heads = putOpt d.dur.heads i v ∧ d₄.fhm = d.fhm := by
    have hd₃ : d₃.dur.heads = putOpt d.dur.heads i v ∧ d₃.fhm = d.fhm := ⟨Dev.journal_head_heads d i v, Dev.journal_fhm d _⟩
    dsimp only [d₄]
    split
    · have h := Dev.sendHeld_edits (m := 0x1000000040042) (x1 := []) (h := .refl d₃)
      rw [h.dur.resolve_left (by decide), h.fhm.resolve_left (by decide)]
      exact hd₃
    · exact hd₃
  exact ⟨hd₄.1, hd₄.2, Dev.headDone_result _ 0⟩

/-- A head command of a serving device that is not busy is carried out (R58). -/
theorem Dev.headCmd_runs {d : Dev} (hbusy : d.flag F.FHM_HEAD_CMD_BUSY = false) (hserves : d.serves = true) (f : Dev → Dev) :
    d.headCmd f = f d := by
  rw [Dev.headCmd, if_neg (by simp [hbusy]), if_neg (by simp [hserves])]

/-- ADD registers a head of a new EUI-64 (R57). -/
theorem fhmHeadAdd_registers (s : State) (i : Nat) (hbusy : s.dev.flag F.FHM_HEAD_CMD_BUSY = false) (hserves : s.dev.serves = true)
    (hsynced : s.dev.standbySynced = false) (hfree : s.dev.headReg? (i % 4096) = none)
    (hnew : s.dev.dur.heads.any (fun p => p.2.eui == s.dev.wide R.FHM_HEAD_EUI_LO R.FHM_HEAD_EUI_HI 0) = false) :
    Runs (.fhmHeadAdd i) s fun d => d.headReg? (i % 4096) = some { eui := s.dev.wide R.FHM_HEAD_EUI_LO R.FHM_HEAD_EUI_HI 0 } ∧
      d.get F.FHM_HEAD_CMD_RESULT = 0 := by
  refine ⟨_, rfl, rfl, ?_⟩
  beta_reduce
  rw [Dev.headCmd_runs hbusy hserves]
  extract_lets j eui
  have hpair : (s.dev.setHead j {}).standbySynced = false := by
    rw [((Dev.PairKept.refl s.dev).setHead j {}).standbySynced, hsynced]
  obtain ⟨hheads, -, hresult⟩ := (s.dev.setHead j {}).complete_head j (some { eui := eui })
  rw [if_neg (by simp [j, hfree]), if_neg (by simp [eui, hnew]), Dev.pairDo, if_neg (by simp [hpair])]
  refine ⟨?_, hresult⟩
  rw [Dev.headReg?, hheads]
  exact Maps.get?_put_same ..

/-- REMOVE forgets a registered head and what it had under way (R58). -/
theorem fhmHeadRemove_forgets (s : State) (i : Nat) (r : HeadReg) (hbusy : s.dev.flag F.FHM_HEAD_CMD_BUSY = false)
    (hserves : s.dev.serves = true) (hsynced : s.dev.standbySynced = false) (hreg : s.dev.headReg? (i % 4096) = some r) :
    Runs (.fhmHeadRemove i) s fun d => d.headReg? (i % 4096) = none ∧ Maps.get? (i % 4096) d.fhm.heads = none ∧
      d.get F.FHM_HEAD_CMD_RESULT = 0 := by
  refine ⟨_, rfl, rfl, ?_⟩
  beta_reduce
  rw [Dev.headCmd_runs hbusy hserves]
  extract_lets j d₁ f d₂
  have hpair : d₂.standbySynced = false := by
    rw [← hsynced]
    exact Dev.PairKept.standbySynced (((Dev.PairKept.refl s.dev).headTo _ _ _).showHead _)
  obtain ⟨hheads, hfhm, hresult⟩ := d₂.complete_head j none
  rw [if_neg (by simp [j, hreg]), Dev.pairDo, if_neg (by simp [hpair])]
  refine ⟨?_, ?_, hresult⟩
  · rw [Dev.headReg?, hheads]
    exact Maps.get?_del_same ..
  · rw [hfhm]
    exact Maps.get?_del_same ..

/-- On a device that does not serve ADD answers NOT_ACTIVE and registers nothing (R58). -/
theorem fhmHeadAdd_refused (s : State) (i : Nat) (hbusy : s.dev.flag F.FHM_HEAD_CMD_BUSY = false) (hserves : s.dev.serves = false) :
    Runs (.fhmHeadAdd i) s fun d => d.dur.heads = s.dev.dur.heads ∧ d.get F.FHM_HEAD_CMD_RESULT = 4 := by
  refine ⟨_, rfl, rfl, ?_⟩
  beta_reduce
  rw [Dev.headCmd, if_neg (by simp [hbusy]), if_pos hserves]
  exact ⟨rfl, Dev.headDone_result _ 4⟩

/-! RECALL (R68): head by head, over the registered ones. -/

/-- A head whose session a RECALL ended. -/
def Dev.Recalled (d : Dev) (j : Nat) : Prop := (d.headRt j).session = false ∧ (d.headRt j).recalled.isSome = true

/-- A head that RECALL goes to: it has joined, and its current key can be used. -/
def Dev.Recallable (d : Dev) (j : Nat) : Prop := ∃ q k, d.headReg? j = some q ∧ q.epoch ≠ 0 ∧ (d.headKeysOf j).1 = some k

/-- What a RECALL to one head leaves for the others. -/
structure Dev.RecallKept (d d' : Dev) : Prop where
  dur : d'.dur = d.dur
  working : d'.key.working = d.key.working
  recalled : ∀ j, d.Recalled j → d'.Recalled j

theorem Dev.RecallKept.refl (d : Dev) : d.RecallKept d := ⟨rfl, rfl, fun _ h => h⟩

theorem Dev.RecallKept.trans {d d' d'' : Dev} (h : d.RecallKept d') (h' : d'.RecallKept d'') : d.RecallKept d'' :=
  ⟨h'.dur.trans h.dur, h'.working.trans h.working, fun j hj => h'.recalled j (h.recalled j hj)⟩

/-- Whom RECALL goes to rests on the durable records and the working keys. -/
theorem Dev.RecallKept.recallable {d d' : Dev} (h : d.RecallKept d') {j : Nat} (hj : d.Recallable j) : d'.Recallable j := by
  obtain ⟨q, k, hreg, hepoch, hkey⟩ := hj
  have hunwrap : d'.unwrapSet = d.unwrapSet := by
    funext x
    simp only [Dev.unwrapSet, Dev.workKey, h.working]
  exact ⟨q, k, by rw [Dev.headReg?, h.dur]; exact hreg, hepoch, by rw [Dev.headKeysOf, h.dur, hunwrap]; exact hkey⟩

/-- A datagram under a long-term key draws from the DRBG and goes out. -/
theorem Dev.sendHlp0_kept (d : Dev) (i port addr type : Nat) (body : Bytes) (key : Nat) :
    d.RecallKept (d.sendHlp0 i port addr type body key) := by
  have h := Dev.sendHlp0_edits (m := 0x210a) (x1 := i) (x2 := port) (x3 := addr) (x4 := type) (x5 := body) (x6 := key) (h := .refl d)
  refine ⟨h.dur.resolve_left (by decide), ?_, fun j hj => ?_⟩
  · unfold Dev.sendHlp0
    exact (congrArg KeyBlk.working ((Dev.sendIp_edits (m := 0x102) (h := .refl (d.drbg 64).2)).key.resolve_left (by decide))).trans rfl
  · rw [Dev.Recalled, Dev.headRt_congr (congrArg Fhm.heads (h.fhm.resolve_left (by decide)))]
    exact hj

/-- The record of a head whose session a RECALL ends. -/
def Dev.markRecalled (d : Dev) (i : Nat) : Dev :=
  let x := d.drbg 128
  x.2.setHead i { x.2.headRt i with session := false, recalled := some (x.1.toNat, x.2.now) }

theorem Dev.markRecalled_recalled (d : Dev) (i : Nat) : (d.markRecalled i).Recalled i := by
  rw [Dev.Recalled, Dev.markRecalled, Dev.headRt_setHead_same]
  exact ⟨rfl, rfl⟩

theorem Dev.markRecalled_kept (d : Dev) (i : Nat) : d.RecallKept (d.markRecalled i) := by
  refine ⟨rfl, rfl, fun j hj => ?_⟩
  by_cases h : j = i
  · rw [h]; exact d.markRecalled_recalled i
  · rw [Dev.Recalled, Dev.markRecalled, Dev.headRt_setHead_other h]
    exact hj

/-- A RECALL to a head that can take none leaves everything as it is. -/
theorem Dev.sendRecall_cases (d : Dev) (i : Nat) : d.sendRecall i = d ∧ ¬d.Recallable i ∨
    ∃ port addr body key, d.sendRecall i = (d.markRecalled i).sendHlp0 i port addr Hlp.join body key := by
  unfold Dev.sendRecall
  split
  · next r k hr hk =>
    split
    · next h0 =>
      refine .inl ⟨rfl, ?_⟩
      rintro ⟨q, _, hq, hepoch, -⟩
      rw [hr, Option.some.injEq] at hq
      exact hepoch (hq ▸ h0)
    · exact .inr ⟨_, _, _, _, rfl⟩
  · next hnone => exact .inl ⟨rfl, fun ⟨q, k, hq, _, hk⟩ => hnone q k hq hk⟩

theorem Dev.sendRecall_kept (d : Dev) (i : Nat) : d.RecallKept (d.sendRecall i) := by
  rcases d.sendRecall_cases i with ⟨e, -⟩ | ⟨port, addr, body, key, e⟩
  · rw [e]; exact .refl d
  · rw [e]; exact (d.markRecalled_kept i).trans (Dev.sendHlp0_kept ..)

/-- RECALL ends the session of a head it goes to. -/
theorem Dev.sendRecall_recalls {d : Dev} {i : Nat} (h : d.Recallable i) : (d.sendRecall i).Recalled i := by
  rcases d.sendRecall_cases i with ⟨-, hn⟩ | ⟨port, addr, body, key, e⟩
  · exact absurd h hn
  · rw [e]; exact (Dev.sendHlp0_kept ..).recalled i (d.markRecalled_recalled i)

theorem Dev.foldl_sendRecall_kept (l : List (Nat × HeadReg)) (d : Dev) :
    d.RecallKept (l.foldl (fun d p => d.sendRecall p.1) d) := by
  induction l generalizing d with
  | nil => exact .refl d
  | cons p l ih => exact (d.sendRecall_kept p.1).trans (ih _)

theorem Dev.foldl_sendRecall_recalls {l : List (Nat × HeadReg)} {j : Nat} {q : HeadReg} (hj : (j, q) ∈ l) {d : Dev} (h : d.Recallable j) :
    (l.foldl (fun d p => d.sendRecall p.1) d).Recalled j := by
  induction l generalizing d with
  | nil => cases hj
  | cons p l ih =>
    rcases List.mem_cons.1 hj with rfl | hj
    · exact (Dev.foldl_sendRecall_kept l _).recalled j (Dev.sendRecall_recalls h)
    · exact ih hj ((d.sendRecall_kept p.1).recallable h)

/-- An entry read from a table stands in it. -/
theorem mem_of_get? {α : Type} {k : Nat} {v : α} {m : List (Nat × α)} (h : Maps.get? k m = some v) : (k, v) ∈ m := by
  induction m with
  | nil => cases h
  | cons p m ih =>
    obtain ⟨j, w⟩ := p
    rw [Maps.get?] at h
    split at h
    · next hj => rw [Option.some.injEq] at h; simp [hj, h]
    · exact List.mem_cons_of_mem _ (ih h)

/-- RECALL of a registered head ends every session (R68). -/
theorem fhmHeadRecall_recalls (s : State) (i : Nat) (r : HeadReg) (hbusy : s.dev.flag F.FHM_HEAD_CMD_BUSY = false)
    (hserves : s.dev.serves = true) (hreg : s.dev.headReg? (i % 4096) = some r) :
    Runs (.fhmHeadRecall i) s fun d => d.get F.FHM_HEAD_CMD_RESULT = 0 ∧ ∀ j q k, s.dev.headReg? j = some q → q.epoch ≠ 0 →
      (s.dev.headKeysOf j).1 = some k → (d.headRt j).session = false ∧ (d.headRt j).recalled.isSome = true := by
  refine ⟨_, rfl, rfl, ?_⟩
  beta_reduce
  rw [Dev.headCmd_runs hbusy hserves, if_neg (by simp [hreg])]
  exact ⟨Dev.headDone_result _ 0, fun j q k hj hepoch hkey =>
    Dev.foldl_sendRecall_recalls (mem_of_get? hj) ⟨q, k, hj, hepoch, hkey⟩⟩

/-- Settles O15: the lemmas above, one for each clause. -/
theorem headCommands : Obligations.HeadCommands :=
  ⟨fhmHeadAdd_registers, fhmHeadRemove_forgets, fhmHeadRecall_recalls, fhmHeadAdd_refused⟩

end Sys2Proof.Machine

namespace Sys2Proof.Machine

set_option Elab.async false

/-! Joining (R66, R67). -/

/-- What a datagram's arrival leaves of all that a REQUEST is judged by. -/
theorem Dev.arrival_keeps {d d' : Dev} (h : Edits 0x102 d d') :
    d'.dur = d.dur ∧ d'.key = d.key ∧ d'.trl = d.trl ∧ d'.tsu = d.tsu ∧ d'.fhm = d.fhm :=
  ⟨h.dur.resolve_left (by decide), h.key.resolve_left (by decide), h.trl.resolve_left (by decide), h.tsu.resolve_left (by decide),
    h.fhm.resolve_left (by decide)⟩

section
variable {d d' : Dev} (h : Edits 0x102 d d')
include h

theorem Dev.sender?_arrival (m : HlpMsg) : d'.sender? m = d.sender? m := by
  obtain ⟨hdur, -⟩ := Dev.arrival_keeps h
  rw [Dev.sender?, Dev.headReg?, hdur]
  rfl

theorem Dev.headKeysOf_arrival (i : Nat) : d'.headKeysOf i = d.headKeysOf i := by
  obtain ⟨hdur, hkey, -⟩ := Dev.arrival_keeps h
  have hunwrap : d'.unwrapSet = d.unwrapSet := by
    funext x
    simp only [Dev.unwrapSet, Dev.workKey, hkey]
  rw [Dev.headKeysOf, hdur, hunwrap]
  rfl

theorem Dev.headRt_arrival (i : Nat) : d'.headRt i = d.headRt i := by
  obtain ⟨-, -, -, -, hfhm⟩ := Dev.arrival_keeps h
  exact Dev.headRt_congr (congrArg Fhm.heads hfhm) i

theorem Dev.cellProfile_arrival (i : Nat) : d'.cellProfile i = d.cellProfile i := by
  obtain ⟨-, -, htrl, -⟩ := Dev.arrival_keeps h
  rw [Dev.cellProfile, Dev.trellis, htrl]
  rfl

theorem Dev.joinHead_arrival (i : Nat) (m : HlpMsg) (b : Bytes) : d'.joinHead i m b = d.joinHead i m b := by
  obtain ⟨-, -, -, htsu, -⟩ := Dev.arrival_keeps h
  rw [Dev.joinHead, Dev.headRt_arrival h, Dev.cellProfile_arrival h, Dev.now, htsu]
  rfl

theorem Dev.joinCovered_arrival (i : Nat) (b : Bytes) : d'.joinCovered i b = d.joinCovered i b := by
  rw [Dev.joinCovered, Dev.cellProfile_arrival h, Dev.joinCovered]

theorem Dev.tooFar_arrival (x : HeadRt) : d'.tooFar x = d.tooFar x := by
  rw [Dev.tooFar, Dev.leadNs, h.get F.FHM_LEAD_LEAD_MAX, h.get F.FHM_LEAD_JITTER_MIN]
  rfl

theorem Dev.drbgRuns_arrival : d'.drbgRuns = d.drbgRuns := by
  rw [Dev.drbgRuns, Dev.flag, h.get F.KEY_STATUS_DRBG_RUN]
  rfl

end

/-- The long-term key of a head with one key: that key where the tag is right under it (R63). -/
theorem Dev.longTerm?_of_one {d : Dev} {i : Nat} {k : KeySet} (h : d.headKeysOf i = (some k, none)) (m : HlpMsg) :
    d.longTerm? i m = if m.tag = m.tagUnder k.key256 m.ext then some (k, false) else none := by
  rw [Dev.longTerm?, h]
  by_cases htag : m.tag = m.tagUnder k.key256 m.ext
  · simp [htag]
  · simp [htag]

@[simp] theorem Dev.judgeSlot_fhm (d : Dev) (i : Nat) : (d.judgeSlot i).fhm = d.fhm :=
  (Dev.judgeSlot_edits (m := 0x340240004c003) (h := .refl d)).fhm.resolve_left (by decide)

/-- A REQUEST that fits begins the session, under the next epoch (R67). -/
theorem Dev.answerJoin_accepts {d : Dev} {i : Nat} {m : HlpMsg} {b : Bytes} (hsetup : b.be 34 2 ≤ 1000) (hcovered : d.joinCovered i b = true)
    (hfits : d.tooFar (d.joinHead i m b) = false) (port addr : Nat) (r : HeadReg) (k : KeySet) :
    ((d.answerJoin i port addr r k m b).headRt i).session = true ∧ ((d.answerJoin i port addr r k m b).headRt i).state = .joining ∧
      ((d.answerJoin i port addr r k m b).headReg? i).map (·.epoch) = some (r.epoch % 255 + 1) := by
  unfold Dev.answerJoin
  extract_lets p nonce setup rates h₀ h refuse epoch info reg
  rw [if_neg (show ¬1000 < setup from Nat.not_lt.2 hsetup), if_neg (by rw [show p.covered _ rates _ _ = true from hcovered]; decide),
    if_neg (by rw [show d.tooFar h = false from hfits]; decide)]
  dsimp -zeta only
  extract_lets key d₁ d₂ body
  have hd₂ : (d₂.headRt i).session = true ∧ (d₂.headRt i).state = .joining ∧ (d₂.headReg? i).map (·.epoch) = some (r.epoch % 255 + 1) := by
    have hfhm : d₂.fhm = ((d.drbg 128).2.setHead i { h with key := key, session := true }).fhm := (Dev.journal_fhm d₁ _).trans (Dev.judgeSlot_fhm ..)
    rw [Dev.headRt_congr (congrArg Fhm.heads hfhm), Dev.headRt_setHead_same, Dev.headReg?, Dev.journal_head_heads]
    exact ⟨rfl, rfl, congrArg (Option.map HeadReg.epoch) (Maps.get?_put_same ..)⟩
  split
  · exact hd₂
  · have hsend := Dev.sendAccept_edits (m := 0x210a) (x1 := i) (x2 := body) (h := .refl d₂)
    rw [Dev.headRt_congr (congrArg Fhm.heads (hsend.fhm.resolve_left (by decide))), Dev.headReg?, hsend.dur.resolve_left (by decide)]
    exact hd₂

/-- The sender of a REQUEST that is left only its tag to check, at a device that it arrives at. -/
theorem Dev.sender?_of_ready {d d' : Dev} {port : Nat} {g : Bytes} {m : HlpMsg} {i : Nat} {r : HeadReg} {k : KeySet}
    (hm : d.requestReady port g m i r k) (h : Edits 0x102 d d') : d'.sender? m = some (i, r) := by
  obtain ⟨-, -, hhead, -, hfind, -⟩ := hm
  rw [Dev.sender?_arrival h, Dev.sender?, if_pos hhead, hfind]

/-- A REQUEST under the current key that fits begins the session (R66, R67). -/
theorem headRequest_accepts (s : State) (port addr mac : Nat) (g : Bytes) (m : HlpMsg) (i : Nat) (r : HeadReg) (k : KeySet) (b : Bytes)
    (hm : s.dev.requestReady port g m i r k) (htag : m.tag = m.tagUnder k.key256 m.ext) (hb : b = m.opened k.key256 m.ext)
    (hlen : 52 ≤ b.length) (hkind : b.u8 0 = 1) (hecho : b.be 18 16 = 0) (hrecalled : (s.dev.headRt i).recalled = none)
    (hdrbg : s.dev.drbgRuns = true) (hsetup : b.be 34 2 ≤ 1000) (_ : s.dev.standbySynced = false)
    (hcovered : s.dev.joinCovered i b = true) (hfits : s.dev.tooFar (s.dev.joinHead i m b) = false) :
    Runs (.headRequest port addr mac g) s fun d => (d.headRt i).session = true ∧ (d.headRt i).state = .joining ∧
      (d.headReg? i).map (·.epoch) = some (r.epoch % 255 + 1) := by
  refine ⟨_, rfl, rfl, ?_⟩
  beta_reduce
  have hready := hm
  obtain ⟨htakes, htype, hhead, hepoch, -, -, hkeys⟩ := hm
  obtain ⟨d, hd, e⟩ := Dev.hlpFrame_takes htakes addr mac
  rw [e]
  rw [if_neg (by simp [htype, hepoch, Hlp.join]), Dev.sender?_of_ready hready hd]
  dsimp -zeta only
  rw [Dev.longTerm?_of_one ((Dev.headKeysOf_arrival hd i).trans hkeys), if_pos htag]
  dsimp -zeta only
  extract_lets b' h echo stale old d₁
  obtain rfl : b' = b := hb.symm
  have hstale : stale = false := by
    dsimp only [stale, h, echo]
    rw [Dev.headRt_arrival hd, hrecalled]
    simp [hecho]
  have hform : ¬(m.head ≠ 0xFFFF ∨ b'.length < 52 ∨ b'.u8 0 ≠ 1) := by rw [hhead, hkind]; omega
  have hruns : ¬d₁.drbgRuns = false := by rw [show d₁ = d from rfl, Dev.drbgRuns_arrival hd, hdrbg]; decide
  rw [if_neg hform, hstale, if_neg (by decide), if_neg hruns]
  exact Dev.answerJoin_accepts hsetup ((Dev.joinCovered_arrival hd i b').trans hcovered)
    (by rw [Dev.joinHead_arrival hd, Dev.tooFar_arrival hd]; exact hfits) ..

/-- A REQUEST with a wrong tag sets HLP_AUTH (R63). -/
theorem headRequest_forged (s : State) (port addr mac : Nat) (g : Bytes) (m : HlpMsg) (i : Nat) (r : HeadReg) (k : KeySet)
    (hm : s.dev.requestReady port g m i r k) (htag : m.tag ≠ m.tagUnder k.key256 m.ext) :
    Runs (.headRequest port addr mac g) s fun d => d.get F.FHM_INT_STATUS_HLP_AUTH = 1 := by
  refine ⟨_, rfl, rfl, ?_⟩
  beta_reduce
  have hready := hm
  obtain ⟨htakes, htype, hhead, hepoch, -, -, hkeys⟩ := hm
  obtain ⟨d, hd, e⟩ := Dev.hlpFrame_takes htakes addr mac
  rw [e]
  rw [if_neg (by simp [htype, hepoch, Hlp.join]), Dev.sender?_of_ready hready hd]
  dsimp -zeta only
  rw [Dev.longTerm?_of_one ((Dev.headKeysOf_arrival hd i).trans hkeys), if_neg htag]
  exact d.hlpAuth_bit i

/-! Superframe mode (R87, R88, R90). -/

/-- A mode command for one registered head's cell. -/
theorem Dev.modeCells_one {d : Dev} {i : Nat} {r : HeadReg} (h : d.headReg? (i % 4096) = some r) : d.modeCells false i = [i % 4096] := by
  rw [Dev.modeCells, if_neg (by decide), if_pos (by rw [h]; rfl)]

/-- A cell in CSMA service that enters superframe mode. -/
theorem Dev.enterSf_cell {d : Dev} {c : Nat} (h : (d.cell c).sf = none) (test storm recovery : Bool) :
    (d.enterSf c test storm recovery).cell c = { d.cell c with sf := some {
      start := (d.now + max 1 d.sfPeriod - 1) / max 1 d.sfPeriod * max 1 d.sfPeriod, test := test, storm := storm, recovery := recovery } } := by
  rw [Dev.enterSf, h]
  dsimp only
  rw [Dev.cell_congr (congrArg Fhm.cells (Dev.judgeSlot_fhm ..)), Dev.cell_setCell_same]

/-- ENTER takes a cell into superframe mode at the next whole PERIOD (R87). -/
theorem fhmModeEnter_enters (s : State) (i : Nat) (r : HeadReg) (p : Nat) (hreg : s.dev.headReg? (i % 4096) = some r)
    (hsf : (s.dev.cell (i % 4096)).sf = none) (hp : p = 1000000 * s.dev.get F.FHM_SF_PERIOD) (hpos : 0 < p) :
    Runs (.fhmModeEnter false i) s fun d => (d.cell (i % 4096)).sf = some { start := (s.dev.now + p - 1) / p * p } := by
  refine ⟨_, rfl, rfl, ?_⟩
  beta_reduce
  have hmax : max 1 s.dev.sfPeriod = p := by rw [Dev.sfPeriod, ← hp]; omega
  rw [Dev.modeCells_one hreg, List.foldl_cons, List.foldl_nil, Dev.enterSf_cell hsf, hmax]

/-- TEST marks the cell's superframes as a test (R87). -/
theorem fhmModeTest_tests (s : State) (i : Nat) (r : HeadReg) (hreg : s.dev.headReg? (i % 4096) = some r)
    (hsf : (s.dev.cell (i % 4096)).sf = none) :
    Runs (.fhmModeTest false i) s fun d => (d.cell (i % 4096)).sf.map (·.test) = some true := by
  refine ⟨_, rfl, rfl, ?_⟩
  beta_reduce
  rw [Dev.modeCells_one hreg, List.foldl_cons, List.foldl_nil, Dev.enterSf_cell hsf]
  rfl

/-- LEAVE ends a cell's superframes after one with FINAL, or at once where its head takes no orders (R87; log entry 103). -/
theorem Dev.leaveSf_cell {d : Dev} {c : Nat} {f : Superframe} (h : (d.cell c).sf = some f) :
    ((d.leaveSf c).cell c).sf = if (d.headRt c).orderable then some { f with final := true } else none := by
  rw [Dev.leaveSf, h]
  dsimp only
  rw [Dev.cell_setCell_same]

theorem fhmModeLeave_lastBeacon (s : State) (i : Nat) (r : HeadReg) (f : Superframe) (hreg : s.dev.headReg? (i % 4096) = some r)
    (hsf : (s.dev.cell (i % 4096)).sf = some f) (horderable : (s.dev.headRt (i % 4096)).orderable = true) :
    Runs (.fhmModeLeave false i) s fun d => (d.cell (i % 4096)).sf = some { f with final := true } := by
  refine ⟨_, rfl, rfl, ?_⟩
  beta_reduce
  rw [Dev.modeCells_one hreg, List.foldl_cons, List.foldl_nil, Dev.leaveSf_cell hsf, if_pos horderable]

theorem fhmModeLeave_atOnce (s : State) (i : Nat) (r : HeadReg) (f : Superframe) (hreg : s.dev.headReg? (i % 4096) = some r)
    (hsf : (s.dev.cell (i % 4096)).sf = some f) (horderable : (s.dev.headRt (i % 4096)).orderable = false) :
    Runs (.fhmModeLeave false i) s fun d => (d.cell (i % 4096)).sf = none := by
  refine ⟨_, rfl, rfl, ?_⟩
  beta_reduce
  rw [Dev.modeCells_one hreg, List.foldl_cons, List.foldl_nil, Dev.leaveSf_cell hsf, if_neg (by simp [horderable])]

/-- A beacon or broadcast frame is composed where its place has a key (R88, R307). -/
theorem Dev.composeBroadcast_some {d : Dev} {cell k : Nat} (h : d.bcastKey cell = some k) (beacon : Bool) (ie payload : Bytes) (len : Nat) :
    ∃ p d', d.composeBroadcast cell beacon ie payload len = (some p, d') := by
  rw [Dev.composeBroadcast, Dev.loadBcast, h]
  exact ⟨_, _, rfl⟩

/-- A beacon that a key and the budget allow is planned as an order (R76, R88). -/
theorem Dev.sendBeacon_plans {d : Dev} {cell k : Nat} (hkey : d.bcastKey cell = some k)
    (hprofile : d.profile? (d.headRt cell).profile = none) (plan slot count first : Nat) (f : Superframe) (ex : List Nat) :
    ∃ o ∈ (d.sendBeacon cell plan slot count first f ex).fhm.orders, o.head = cell ∧ o.purpose = .beacon := by
  have hch : ∀ ch ms n, d.broadcastCh cell ch ms n = (some ch, d) := fun ch ms n => by
    rw [Dev.broadcastCh, Dev.budget, hprofile]; rfl
  unfold Dev.sendBeacon
  extract_lets h len
  rw [hch]
  dsimp -zeta only
  obtain ⟨p, d₁, e⟩ := Dev.composeBroadcast_some (d := (d.drbg 32).2) hkey true
    ((d.drbg 32).2.slotIe f slot count first (d.drbg 32).1.toNat ex) [] len
  rw [e]
  exact ⟨_, List.mem_append_right _ (List.mem_singleton_self _), rfl, rfl⟩

/-- The next superframe of a cell (R88). -/
theorem Dev.nextSf_n (d : Dev) (c : Nat) (f : Superframe) : ((d.nextSf c f).cell c).sf.map (·.n) = some (f.n + 1) := by
  rw [Dev.nextSf, Dev.cell_setCell_same]
  rfl

/-- Its hashed slots leave a superframe's number. -/
theorem Dev.hashSlots_n (d : Dev) (cell rate plan slot count from_ : Nat) (f : Superframe) :
    (d.hashSlots cell rate plan slot count from_ f).n = f.n := rfl

/-- Each beacon instant begins the cell's next superframe (R88). -/
theorem beaconDue_next (s : State) (i : Nat) (f : Superframe) (hsf : (s.dev.cell i).sf = some f) :
    Runs (.beaconDue i) s fun d => (d.cell i).sf.map (·.n) = some (f.n + 1) := by
  refine ⟨_, rfl, rfl, ?_⟩
  beta_reduce
  extract_lets c h slot count ex unit first
  rw [show c.sf = some f from hsf]
  dsimp -zeta only
  extract_lets plan g
  split
  · exact Dev.nextSf_n _ _ f
  · rw [Dev.nextSf_n, show g.n = f.n from Dev.hashSlots_n ..]

/-- A cell with a broadcast key orders its beacon (R88). -/
theorem beaconDue_orders (s : State) (i : Nat) (f : Superframe) (k : Nat) (hsf : (s.dev.cell i).sf = some f)
    (horderable : (s.dev.headRt i).orderable = true) (hkey : s.dev.bcastKey i = some k)
    (hprofile : s.dev.profile? (s.dev.headRt i).profile = none) :
    Runs (.beaconDue i) s fun d => (d.fhm.orders.any fun o => o.head == i && o.purpose == .beacon) = true := by
  refine ⟨_, rfl, rfl, ?_⟩
  beta_reduce
  extract_lets c h slot count ex unit first
  rw [show c.sf = some f from hsf]
  dsimp -zeta only
  extract_lets plan g
  rw [if_neg (by simp [h, horderable, hkey])]
  obtain ⟨o, ho, hhead, hpurpose⟩ := Dev.sendBeacon_plans hkey hprofile plan slot count first g ex
  exact List.any_eq_true.2 ⟨o, ho, by simp [hhead, hpurpose]⟩

/-- A second with a busy channel takes the cell into superframe mode by the storm rule (R87). -/
theorem stormCheck_enters (s : State) (i : Nat) (hauto : s.dev.flag F.FHM_CTRL_STORM_AUTO = true) (hsf : (s.dev.cell i).sf = none)
    (hattempts : 32 ≤ (s.dev.cell i).attempts)
    (hbusy : s.dev.get F.FHM_SF_CTRL_CCA_PCT * (s.dev.cell i).attempts < 100 * (s.dev.cell i).busy) :
    Runs (.stormCheck i) s fun d => (d.cell i).sf.map (·.storm) = some true ∧ d.get F.FHM_INT_STATUS_STORM = 1 ∧
      (d.cell i).attempts = 0 := by
  refine ⟨_, rfl, rfl, ?_⟩
  beta_reduce
  extract_lets c storm d
  have hcell : d.cell i = { c with attempts := 0, busy := 0 } := Dev.cell_setCell_same ..
  rw [if_pos (show storm = true by simp [storm, c, hauto, hsf, hattempts, hbusy]), Dev.cell_congr (congrArg Fhm.cells (Dev.raise_fhm ..)),
    Dev.enterSf_cell (by rw [hcell]; exact hsf)]
  exact ⟨rfl, Dev.raise_self _ F.FHM_INT_STATUS_STORM _ _, by rw [hcell]⟩

/-- A second with too few attempts only begins the count anew (R87). -/
theorem stormCheck_quiet (s : State) (i : Nat) (hattempts : (s.dev.cell i).attempts < 32) :
    Runs (.stormCheck i) s fun d => (d.cell i).sf = (s.dev.cell i).sf ∧ (d.cell i).attempts = 0 ∧ (d.cell i).busy = 0 := by
  refine ⟨_, rfl, rfl, ?_⟩
  beta_reduce
  extract_lets c storm d
  rw [if_neg (show ¬storm = true by simp [storm, c]; omega), Dev.cell_setCell_same]
  exact ⟨rfl, rfl, rfl⟩

/-- A superframe whose beacon carried FINAL ends the cell's superframe mode (R87). -/
theorem superframeEnd_returns (s : State) (i : Nat) (f : Superframe) (hsf : (s.dev.cell i).sf = some f)
    (hend : s.dev.sfEnds i f < s.dev.now) (hfinal : f.final = true) : Runs (.superframeEnd i) s fun d => (d.cell i).sf = none := by
  refine ⟨_, rfl, rfl, ?_⟩
  beta_reduce
  extract_lets c
  rw [show c.sf = some f from hsf]
  dsimp only
  rw [if_neg (by omega), if_pos hfinal, Dev.cell_setCell_same]

/-- Any other superframe's end counts for the quiet rule, which sets FINAL for the next beacon (R87). -/
theorem superframeEnd_counts (s : State) (i : Nat) (f : Superframe) (hsf : (s.dev.cell i).sf = some f)
    (hend : s.dev.sfEnds i f < s.dev.now) (hfinal : f.final = false) (htest : f.test = false) : Runs (.superframeEnd i) s fun d =>
      (d.cell i).sf.map (·.final) = some (decide (s.dev.get F.FHM_SF_CTRL_QUIET ≤
        (if 10 * f.used.length < f.hashCount then f.quiet + 1 else 0))) ∧ (d.cell i).sf.map (·.used) = some [] := by
  refine ⟨_, rfl, rfl, ?_⟩
  beta_reduce
  extract_lets c
  rw [show c.sf = some f from hsf]
  dsimp only
  rw [if_neg (by omega), if_neg (by simp [hfinal]), Dev.cell_setCell_same, htest]
  exact ⟨rfl, rfl⟩

/-- Settles O18: the lemmas above, one for each clause. -/
theorem joinAndSuperframeMode : Obligations.JoinAndSuperframeMode :=
  ⟨headRequest_accepts, headRequest_forged, fhmModeEnter_enters, fhmModeTest_tests, fhmModeLeave_lastBeacon, fhmModeLeave_atOnce,
    beaconDue_next, beaconDue_orders, stormCheck_enters, stormCheck_quiet, superframeEnd_returns, superframeEnd_counts⟩

end Sys2Proof.Machine

namespace Sys2Proof.Machine

set_option Elab.async false

/-- Settles O48: each command's law in `Laws/Exec/` covers no part outside its list. -/
theorem framesOfHeadsAndIngest : Obligations.FramesOfHeadsAndIngest :=
  ⟨fun _ => leaves_of_edits fun _ => execFhmHeadAdd_edits,
   fun _ => leaves_of_edits fun _ => execFhmHeadRemove_edits,
   fun _ => leaves_of_edits fun _ => execFhmHeadRecall_edits,
   fun _ _ => leaves_of_edits fun _ => execFhmModeEnter_edits,
   fun _ _ => leaves_of_edits fun _ => execFhmModeLeave_edits,
   fun _ _ => leaves_of_edits fun _ => execFhmModeTest_edits,
   fun _ _ _ _ => leaves_of_edits fun _ => execHeadRequest_edits,
   fun _ _ _ _ => leaves_of_edits fun _ => execHeadLeave_edits,
   fun _ _ _ _ => leaves_of_edits fun _ => execRxReport_edits,
   fun _ _ _ _ => leaves_of_edits fun _ => execCcaBusy_edits,
   fun _ _ _ _ => leaves_of_edits fun _ => execTxConfirm_edits,
   fun _ _ _ _ => leaves_of_edits fun _ => execBeaconConfirm_edits,
   fun _ _ _ _ => leaves_of_edits fun _ => execHeadStatus_edits,
   fun _ => leaves_of_edits fun _ => execHeadSilenceTimeout_edits,
   fun _ => leaves_of_edits fun _ => execHeadSuspendTimeout_edits,
   fun _ => leaves_of_edits fun _ => execTxAtSend_edits,
   fun _ _ _ => leaves_of_edits fun _ => execAcceptWindowCheck_edits,
   fun _ => leaves_of_edits fun _ => execBeaconDue_edits,
   fun _ _ => leaves_of_edits fun _ => execBeaconConfirmDeadline_edits,
   fun _ _ => leaves_of_edits fun _ => execTxConfirmDeadline_edits,
   fun _ => leaves_of_edits fun _ => execStormCheck_edits,
   fun _ => leaves_of_edits fun _ => execSuperframeEnd_edits,
   fun _ => leaves_of_edits fun _ => execWorkItemAdmit_edits,
   fun _ => leaves_of_edits fun _ => execResourceGrant_edits,
   fun _ => leaves_of_edits fun _ => execResourceWaitTimeout_edits,
   fun _ => leaves_of_edits fun _ => execResourceRetry_edits,
   fun _ => leaves_of_edits fun _ => execContextFetchDone_edits,
   fun _ _ => leaves_of_edits fun _ => execKeyCacheFillDone_edits,
   fun _ => leaves_of_edits fun _ => execCryptoLaneDone_edits,
   fun _ => leaves_of_edits fun _ => execParseDone_edits,
   fun _ => leaves_of_edits fun _ => execBillingUpdateDone_edits,
   leaves_of_edits fun _ => execMirrorWaitExpire_edits,
   fun _ => leaves_of_edits fun _ => execReassemblyTimeout_edits,
   leaves_of_edits fun _ => execCtxAlloc_edits,
   fun _ => leaves_of_edits fun _ => execCtxAllocAt_edits,
   fun _ => leaves_of_edits fun _ => execCtxFree_edits,
   fun _ => leaves_of_edits fun _ => execCtxPin_edits,
   fun _ => leaves_of_edits fun _ => execCtxUnpin_edits,
   leaves_of_edits fun _ => execKeyEpochTick_edits,
   fun _ _ _ => leaves_of_edits fun _ => execSignhashRequest_edits,
   fun _ => leaves_of_edits fun _ => execSignhashBlockEnd_edits,
   fun _ => leaves_of_edits fun _ => execSignhashOpDone_edits,
   fun _ _ => leaves_of_edits fun _ => execArbUrgentChange_edits,
   fun _ => leaves_of_edits fun _ => execArbStarved_edits⟩

end Sys2Proof.Machine

namespace Sys2Proof.Machine

set_option Elab.async false

/-- Settles O49: each command's law in `Laws/Exec/` covers no part outside its list. -/
theorem framesOfMeasurementAndZx : Obligations.FramesOfMeasurementAndZx :=
  ⟨fun _ _ _ _ => leaves_of_edits fun _ => execZxCrossing_edits,
   fun _ _ _ _ => leaves_of_edits fun _ => execZxCrossingMissing_edits,
   fun _ _ => leaves_of_edits fun _ => execZxReacquire_edits,
   fun _ _ => leaves_of_edits fun _ => execZxPulseGate_edits,
   fun _ _ => leaves_of_edits fun _ => execZxgWatchdog_edits,
   fun _ _ => leaves_of_edits fun _ => execZxfFault_edits,
   fun _ _ => leaves_of_edits fun _ => execZxFaultResume_edits,
   fun _ _ => leaves_of_edits fun _ => execZxpFaultClear_edits,
   fun _ _ _ => leaves_of_edits fun _ => execZxBlockDecode_edits,
   fun _ _ => leaves_of_edits fun _ => execZxUplinkEnd_edits,
   fun _ _ => leaves_of_edits fun _ => execZxAckBitmapFix_edits,
   fun _ _ => leaves_of_edits fun _ => execZxOutboundFrameStart_edits,
   fun _ => leaves_of_edits fun _ => execZxRoundBoundary_edits,
   fun _ _ => leaves_of_edits fun _ => execZxpAssign_edits,
   fun _ _ => leaves_of_edits fun _ => execZxpRelease_edits,
   fun _ => leaves_of_edits fun _ => execZxpCycleRead_edits,
   fun _ => leaves_of_edits fun _ => execModPresentFall_edits,
   fun _ _ _ => leaves_of_edits fun _ => execModuleRecordRead_edits,
   fun _ => leaves_of_edits fun _ => execModPresentRise_edits,
   leaves_of_edits fun _ => execMsrSyncRequest_edits,
   leaves_of_edits fun _ => execMsrEnable_edits,
   fun _ => leaves_of_edits fun _ => execMsrSyncReset_edits,
   fun _ _ => leaves_of_edits fun _ => execMsrSettleDone_edits,
   fun _ => leaves_of_edits fun _ => execMsrSwapRequest_edits,
   fun _ => leaves_of_edits fun _ => execMsrFadeEnd_edits,
   fun _ => leaves_of_edits fun _ => execMsrCoefWrite_edits,
   fun _ => leaves_of_edits fun _ => execMsrDtMeasure_edits,
   fun _ => leaves_of_edits fun _ => execMsrCalUpdate_edits,
   fun f bits => leaves_of_edits fun _ => execMsrIntervalHandover_edits (x0 := f) (x1 := bits),
   fun _ _ => leaves_of_edits fun _ => execMsrEnergyLatch_edits,
   fun _ _ => leaves_of_edits fun _ => execZxfFall_edits,
   fun _ _ => leaves_of_edits fun _ => execSaturation_edits⟩

end Sys2Proof.Machine

namespace Sys2Proof.Machine

set_option Elab.async false

/-! A feeder and a phase (R102, R105) after an update of one. -/

theorem Dev.zxFeeder_congr {d d' : Dev} (h : d'.zxp = d.zxp) (f : Nat) : d'.zxFeeder f = d.zxFeeder f := by
  rw [Dev.zxFeeder, h, Dev.zxFeeder]

theorem Dev.zxPhase_congr {d d' : Dev} (h : d'.zxp = d.zxp) (f p : Nat) : d'.zxPhase f p = d.zxPhase f p := by
  rw [Dev.zxPhase, Dev.zxFeeder_congr h, Dev.zxPhase]

section
variable {f p : Nat} (hf : f < 4) (hp : p < 3) (d : Dev)
include hf

theorem Dev.zxFeeder_setZxFeeder (x : ZxFeeder) : (d.setZxFeeder f x).zxFeeder f = x := Four.getD_set_same hf ..

theorem Dev.zxPhase_setZxFeeder (x : ZxFeeder) : (d.setZxFeeder f x).zxPhase f p = x.phases.getD p {} := by
  rw [Dev.zxPhase, Dev.zxFeeder_setZxFeeder hf]

theorem Dev.zxFeeder_setZxPhase (x : ZxPhase) :
    (d.setZxPhase f p x).zxFeeder f = { d.zxFeeder f with phases := (d.zxFeeder f).phases.set p x } := Dev.zxFeeder_setZxFeeder hf ..

include hp in
theorem Dev.zxPhase_setZxPhase (x : ZxPhase) : (d.setZxPhase f p x).zxPhase f p = x := by
  rw [Dev.zxPhase, Dev.zxFeeder_setZxPhase hf]
  exact Three.getD_set_same hp ..

end

/-! The fields of a feeder's registers after one is set, an event of the feeder is raised or counted. -/

@[simp] theorem Dev.zxCount_zxp (d : Dev) (f n : Nat) : (d.zxCount f n).zxp = d.zxp := rfl
@[simp] theorem Dev.zxCount_trl (d : Dev) (f n : Nat) : (d.zxCount f n).trl = d.trl := rfl
@[simp] theorem Dev.zxCount_tsu (d : Dev) (f n : Nat) : (d.zxCount f n).tsu = d.tsu := rfl
@[simp] theorem Dev.zxRaise_zxp (d : Dev) (f : Nat) (x : Fld) (a : Nat) : (d.zxRaise f x a).zxp = d.zxp := Dev.raise_zxp ..
@[simp] theorem Dev.zxRaise_trl (d : Dev) (f : Nat) (x : Fld) (a : Nat) : (d.zxRaise f x a).trl = d.trl := Dev.raise_trl ..

theorem Dev.get_set_at_same (d : Dev) (x : Fld) (f v : Nat) (h : x.hi < 32 := by decide) (hl : x.lo ≤ x.hi := by decide) :
    (d.set (x.at f) v).get (x.at f) = v % 2 ^ (x.hi + 1 - x.lo) := Dev.get_set_same d (x.at f) v h hl

/-- A field of the same or another register of the feeder that shares no bit with the one set. -/
theorem Dev.get_set_at_apart {x y : Fld} (hd : y.hi < x.lo ∨ x.hi < y.lo := by decide) (d : Dev) (f v : Nat) (h : y.hi < 32 := by decide)
    (hl : x.lo ≤ x.hi := by decide) : (d.set (x.at f) v).get (y.at f) = d.get (y.at f) :=
  Dev.get_set_apart (x := x.at f) (y := y.at f) h hl hd d v

section
variable {f : Nat} (hf : f < 4) {x y : Fld} (d : Dev)
include hf

theorem Dev.get_set_at_other (h : ∀ f < 4, (y.at f).off ≠ (x.at f).off := by decide) (v : Nat) :
    (d.set (x.at f) v).get (y.at f) = d.get (y.at f) := Dev.get_set_other (h f hf) d v

theorem Dev.get_zxCount (n : Nat) (hn : n < 12 := by decide) (h : ∀ f < 4, ∀ n < 12, (y.at f).off ≠ R.ZXP_CNT_n.at2 f n := by decide) :
    (d.zxCount f n).get (y.at f) = d.get (y.at f) :=
  congrArg (fun w : Word => w.toNat >>> y.lo % 2 ^ (y.hi + 1 - y.lo)) (Face.reg_setReg_other (h f hf n hn) d.face _)

end

/-- The registers of the ZX-PLC block are none that recording an event touches. -/
theorem regBit_zx {off : Nat} (hb : off / 65536 = 6) : off < 4194304 ∧ Nat.testBit 0x340040004c003 (regBit off) = false :=
  ⟨by omega, by rw [regBit, if_neg (by omega), hb]; decide⟩

theorem Dev.get_zxRaise {x y : Fld} (hb : y.off / 65536 = 6) (d : Dev) (f a : Nat) :
    (d.zxRaise f x a).get (y.at f) = (d.set (x.at f) (d.get (x.at f) ||| 1)).get (y.at f) :=
  have h := regBit_zx ((y.at_block f).trans hb)
  Dev.raise_get d (x.at f) a f h.1 h.2

theorem Dev.get_zxRaise_other {f : Nat} (hf : f < 4) {x y : Fld} (h : ∀ f < 4, (y.at f).off ≠ (x.at f).off := by decide)
    (hb : y.off / 65536 = 6 := by decide) (d : Dev) (a : Nat) : (d.zxRaise f x a).get (y.at f) = d.get (y.at f) := by
  rw [Dev.get_zxRaise hb, Dev.get_set_at_other hf d h]

theorem Dev.get_zxRaise_apart {x y : Fld} (hd : y.hi < x.lo ∨ x.hi < y.lo := by decide) (hb : y.off / 65536 = 6 := by decide)
    (d : Dev) (f a : Nat) (h : y.hi < 32 := by decide) (hl : x.lo ≤ x.hi := by decide) :
    (d.zxRaise f x a).get (y.at f) = d.get (y.at f) := by
  rw [Dev.get_zxRaise hb, Dev.get_set_at_apart hd d f _ h hl]

theorem Dev.get_zxRaise_same (x : Fld) (hb : x.off / 65536 = 6 := by decide) (d : Dev) (f a : Nat) (h : x.hi < 32 := by decide)
    (hl : x.lo = x.hi := by decide) : (d.zxRaise f x a).get (x.at f) = 1 :=
  have e := regBit_zx ((x.at_block f).trans hb)
  Dev.raise_self d (x.at f) a f e.1 e.2 h hl

/-! A phase's tracking state (R104). -/

theorem Dev.track_congr {d d' : Dev} {f : Nat} (h : d'.get (F.ZXP_STATUS_TRACK.at f) = d.get (F.ZXP_STATUS_TRACK.at f)) (p : Nat) :
    d'.track f p = d.track f p := by
  rw [Dev.track, h, Dev.track]

/-- Two bits of a number replaced by `v`. -/
theorem track_replaced (t : Nat) {p v : Nat} (hp : p < 3) (hv : v < 4) :
    (t - t / 4 ^ p % 4 * 4 ^ p + v * 4 ^ p) % 2 ^ 6 / 4 ^ p % 4 = v := by
  interval_cases p <;> omega

theorem Dev.track_setTrack {p v : Nat} (hp : p < 3) (hv : v < 4) (d : Dev) (f : Nat) : (d.setTrack f p v).track f p = v := by
  unfold Dev.setTrack
  extract_lets d₁ x c d₂
  rw [Dev.track, Dev.get_set_at_same _ F.ZXP_STATUS_TRACK]
  exact track_replaced _ hp hv

/-- A change of the tracking state touches, of the phase, only the spans without tracking. -/
theorem Dev.zxPhase_setTrack {f p : Nat} (hf : f < 4) (hp : p < 3) (d : Dev) (v : Nat) :
    ∃ off gaps, (d.setTrack f p v).zxPhase f p = { d.zxPhase f p with off := off, gaps := gaps } := by
  unfold Dev.setTrack
  extract_lets +onlyGivenNames d₁ x c d₂
  have h₁ : d₁.zxPhase f p = d.zxPhase f p := by
    refine Dev.zxPhase_congr ?_ f p
    dsimp only [d₁]
    split <;> rfl
  show ∃ off gaps, d₂.zxPhase f p = _
  rw [← h₁]
  dsimp only [d₂]
  split
  · split
    · exact ⟨_, _, Dev.zxPhase_setZxPhase hf hp ..⟩
    · exact ⟨_, _, rfl⟩
  · split
    · exact ⟨_, _, Dev.zxPhase_setZxPhase hf hp ..⟩
    · exact ⟨_, _, rfl⟩

end Sys2Proof.Machine

namespace Sys2Proof.Machine

set_option Elab.async false

/-! A driver fault (R112, R124). -/

/-- The gate is off and its pulse's end forgotten; the rest of the phase stays. -/
theorem Dev.zxPhase_gateLow {f p : Nat} (hf : f < 4) (hp : p < 3) (d : Dev) :
    (d.gateLow f p).zxPhase f p = { d.zxPhase f p with gate := none } := by
  unfold Dev.gateLow
  extract_lets +onlyGivenNames x
  split
  · next hgate =>
    rw [← show x.gate = none from hgate]
  · extract_lets d₁
    have h₁ : d₁.zxPhase f p = { d.zxPhase f p with gate := none } := Dev.zxPhase_setZxPhase hf hp ..
    split
    · exact h₁
    · exact h₁

theorem Dev.zxPhase_endZxFrame {f p : Nat} (hf : f < 4) (hp : p < 3) (d : Dev) :
    (d.endZxFrame f p).zxPhase f p = { d.zxPhase f p with gate := none, frame := none } := by
  rw [Dev.endZxFrame, Dev.zxPhase_setZxPhase hf hp, Dev.zxPhase_gateLow hf hp]

theorem Dev.endZxFrame_keeps (d : Dev) (f p : Nat) : (d.endZxFrame f p).tsu = d.tsu ∧ (d.endZxFrame f p).face.regs = d.face.regs := by
  have hgate : (d.gateLow f p).tsu = d.tsu ∧ (d.gateLow f p).face.regs = d.face.regs := by
    unfold Dev.gateLow
    extract_lets +onlyGivenNames x
    split
    · exact ⟨rfl, rfl⟩
    · extract_lets d₁
      split
      · exact ⟨rfl, rfl⟩
      · exact ⟨rfl, rfl⟩
  exact hgate

theorem Dev.now_congr {d d' : Dev} (h : d'.tsu = d.tsu) : d'.now = d.now := by rw [Dev.now, h, Dev.now]

/-- The end of a driver fault's effect: the third fault within an hour latches the phase off (R124). -/
def Dev.faultLatch (d : Dev) (f p : Nat) : Dev :=
  (((d.set (F.ZXP_STATUS_LATCHED.at f) (setBitTo (d.get (F.ZXP_STATUS_LATCHED.at f)) p true)).setW1c (F.ZXP_FAULT_LATCHED.at f) (2 ^ p)).zxRaise
    f F.ZXP_INT_STATUS_DRIVER_LATCHED p)

/-- The faults of the last hour, the present one first. -/
def Dev.faultsNow (d : Dev) (f p : Nat) : List Nat :=
  d.now :: (d.zxPhase f p).faults.filter fun t => decide (d.now < t + 3600000000000)

/-- A driver fault with its event, before a third one latches the phase. -/
def Dev.faultNoted (d : Dev) (f p : Nat) : Dev :=
  let x := d.zxPhase f p
  let d' := d.zxCount f 10
  let d' := (if x.frame.isSome then d'.zxCount f 11 else d').endZxFrame f p
  (d'.setZxPhase f p { d'.zxPhase f p with resting := true, faults := d.faultsNow f p }).zxRaise f F.ZXP_INT_STATUS_DRIVER_FAULT p

theorem Dev.driverFault_eq (d : Dev) (f p : Nat) : d.driverFault f p =
    if (d.faultsNow f p).length < 3 then d.faultNoted f p else (d.faultNoted f p).faultLatch f p := by
  unfold Dev.driverFault
  extract_lets +onlyGivenNames x d₁ d₂ d₃
  have hnow : d₃.now = d.now := by
    refine Dev.now_congr ((d₂.endZxFrame_keeps f p).1.trans ?_)
    dsimp only [d₂]
    split <;> rfl
  rw [hnow]
  rfl

theorem Dev.faultLatch_zxp (d : Dev) (f p : Nat) : (d.faultLatch f p).zxp = d.zxp := Dev.zxRaise_zxp ..

theorem Dev.driverFault_zxp (d : Dev) (f p : Nat) : (d.driverFault f p).zxp = (d.faultNoted f p).zxp := by
  rw [Dev.driverFault_eq]
  split
  · rfl
  · exact Dev.faultLatch_zxp ..

/-- A driver fault ends the frame, turns the gate low, and lets the phase rest. -/
theorem Dev.zxPhase_driverFault {f p : Nat} (hf : f < 4) (hp : p < 3) (d : Dev) : (d.driverFault f p).zxPhase f p =
    { d.zxPhase f p with gate := none, frame := none, resting := true, faults := d.faultsNow f p } := by
  rw [Dev.zxPhase_congr (d.driverFault_zxp f p)]
  unfold Dev.faultNoted
  extract_lets +onlyGivenNames x d₁ d₂
  have h₂ : d₂.zxPhase f p = { d.zxPhase f p with gate := none, frame := none } := by
    rw [Dev.zxPhase_endZxFrame hf hp]
    split <;> rfl
  rw [Dev.zxPhase_congr (Dev.zxRaise_zxp ..), Dev.zxPhase_setZxPhase hf hp, h₂]

/-- Counting a feeder's event leaves the other registers. -/
theorem Dev.zxCount_reg_other {f n off : Nat} (h : off ≠ R.ZXP_CNT_n.at2 f n) (d : Dev) : (d.zxCount f n).reg off = d.reg off :=
  Face.reg_setReg_other h _ _

theorem Dev.zxRaise_reg {f off : Nat} {x : Fld} (h : off ≠ (x.at f).off) (hb : off / 65536 = 6) (d : Dev) (a : Nat) :
    (d.zxRaise f x a).reg off = d.reg off := Dev.raise_reg h d a f (regBit_zx hb).1 (regBit_zx hb).2

/-- Latching a phase off touches ZXP_STATUS.LATCHED, ZXP_FAULT and ZXP_INT_STATUS. -/
theorem Dev.faultLatch_reg {f off : Nat} (hstatus : off ≠ R.ZXP_STATUS.at f) (hfault : off ≠ R.ZXP_FAULT.at f)
    (hint : off ≠ R.ZXP_INT_STATUS.at f) (hb : off / 65536 = 6) (d : Dev) (p : Nat) : (d.faultLatch f p).reg off = d.reg off := by
  rw [Dev.faultLatch, Dev.zxRaise_reg hint hb]
  exact (Dev.reg_set_other hfault _ _).trans (Dev.reg_set_other hstatus _ _)

theorem Dev.faultNoted_reg {f off : Nat} (hcount : off ≠ R.ZXP_CNT_n.at2 f 11) (hint : off ≠ R.ZXP_INT_STATUS.at f)
    (hb : off / 65536 = 6) (d : Dev) (p : Nat) : (d.faultNoted f p).reg off = (d.zxCount f 10).reg off := by
  unfold Dev.faultNoted
  extract_lets +onlyGivenNames x d₁ d₂
  rw [Dev.zxRaise_reg hint hb]
  show d₂.reg off = _
  have h₂ : ∀ d : Dev, (d.endZxFrame f p).reg off = d.reg off := fun d => by
    rw [Dev.reg, Face.reg, (d.endZxFrame_keeps f p).2, ← Face.reg, ← Dev.reg]
  rw [h₂]
  split
  · exact Dev.zxCount_reg_other hcount _
  · rfl

/-- A driver fault is counted (R112). -/
theorem Dev.driverFault_counts {f : Nat} (hf : f < 4) (d : Dev) (p : Nat) : (d.driverFault f p).reg (R.ZXP_CNT_n.at2 f 10) =
    BitVec.ofNat 32 (satNat 32 ((d.reg (R.ZXP_CNT_n.at2 f 10)).toNat + 1)) := by
  have hoff : ∀ f < 4, R.ZXP_CNT_n.at2 f 10 ≠ R.ZXP_CNT_n.at2 f 11 ∧ R.ZXP_CNT_n.at2 f 10 ≠ R.ZXP_INT_STATUS.at f ∧
      R.ZXP_CNT_n.at2 f 10 ≠ R.ZXP_STATUS.at f ∧ R.ZXP_CNT_n.at2 f 10 ≠ R.ZXP_FAULT.at f := by decide
  obtain ⟨hcount, hint, hstatus, hfault⟩ := hoff f hf
  have hb : R.ZXP_CNT_n.at2 f 10 / 65536 = 6 := R.ZXP_CNT_n.at2_block f 10
  have hnoted : (d.faultNoted f p).reg (R.ZXP_CNT_n.at2 f 10) = _ :=
    (Dev.faultNoted_reg hcount hint hb d p).trans (Face.reg_setReg_same ..)
  rw [Dev.driverFault_eq]
  split
  · exact hnoted
  · exact (Dev.faultLatch_reg hstatus hfault hint hb _ p).trans hnoted

/-- Latching a phase off leaves every field that shares no bit with the three it sets: ZXP_STATUS.LATCHED, ZXP_FAULT.LATCHED and
DRIVER_LATCHED. -/
theorem Dev.get_faultLatch {y : Fld} (d : Dev) (f p : Nat)
    (h : 2 < y.lo ∧ (y.hi < 6 ∨ 6 < y.lo) ∧ (y.hi < 12 ∨ 14 < y.lo) ∧ y.hi < 32 := by decide) (hb : y.off / 65536 = 6 := by decide) :
    (d.faultLatch f p).get (y.at f) = d.get (y.at f) := by
  obtain ⟨hfault, hint, hstatus, hy⟩ := h
  rw [Dev.faultLatch, Dev.get_zxRaise_apart hint hb _ _ _ hy (by decide), Dev.get_setW1c,
    Dev.get_set_at_apart (.inr hfault) _ _ _ hy (by decide), Dev.get_set_at_apart hstatus _ _ _ hy (by decide)]

/-- A driver fault raises its event. -/
theorem Dev.driverFault_event (d : Dev) (f p : Nat) : (d.driverFault f p).get (F.ZXP_INT_STATUS_DRIVER_FAULT.at f) = 1 := by
  have hnoted : (d.faultNoted f p).get (F.ZXP_INT_STATUS_DRIVER_FAULT.at f) = 1 := Dev.get_zxRaise_same F.ZXP_INT_STATUS_DRIVER_FAULT ..
  rw [Dev.driverFault_eq]
  split
  · exact hnoted
  · exact (Dev.get_faultLatch _ f p).trans hnoted

/-- ZXP_STATUS.FAULT shows the pin, which a driver fault leaves. -/
theorem Dev.driverFault_pin {f : Nat} (hf : f < 4) (d : Dev) (p : Nat) :
    (d.driverFault f p).get (F.ZXP_STATUS_FAULT.at f) = d.get (F.ZXP_STATUS_FAULT.at f) := by
  have hoff : ∀ f < 4, (F.ZXP_STATUS_FAULT.at f).off ≠ R.ZXP_CNT_n.at2 f 11 ∧ (F.ZXP_STATUS_FAULT.at f).off ≠ R.ZXP_CNT_n.at2 f 10 ∧
      (F.ZXP_STATUS_FAULT.at f).off ≠ R.ZXP_INT_STATUS.at f := by decide
  obtain ⟨h11, h10, hint⟩ := hoff f hf
  have hreg : (d.faultNoted f p).reg (F.ZXP_STATUS_FAULT.at f).off = d.reg (F.ZXP_STATUS_FAULT.at f).off :=
    (Dev.faultNoted_reg h11 hint (F.ZXP_STATUS_FAULT.at_block f) d p).trans (Dev.zxCount_reg_other h10 d)
  have hnoted : (d.faultNoted f p).get (F.ZXP_STATUS_FAULT.at f) = d.get (F.ZXP_STATUS_FAULT.at f) :=
    congrArg (fun w : Word => bitsOf w 10 8) hreg
  rw [Dev.driverFault_eq]
  split
  · exact hnoted
  · exact (Dev.get_faultLatch _ f p).trans hnoted

/-! The gate watchdog (R112). -/

/-- The device in which the watchdog has forced a gate low. -/
def Dev.gateForced (d : Dev) (f p : Nat) : Dev :=
  (d.setZxPhase f p { d.zxPhase f p with gate := none }).emit (.pin 2 (3 * f + p) false)

/-- A high gate is forced low, and the fault of the phase follows. -/
theorem runs_zxgWatchdog {s : State} {f p : Nat} (hf : f < 4) (hp : p < 3) (hgate : (s.dev.zxPhase f p).gate.isSome = true)
    {P : Dev → Prop} (h : P ((s.dev.gateForced f p).driverFault f p)) : Runs (.zxgWatchdog f p) s P := by
  refine ⟨_, rfl, rfl, ?_⟩
  beta_reduce
  rw [if_neg (by simp [Option.isSome_iff_ne_none.1 hgate]; omega)]
  exact h

/-- The phase after the watchdog: the fault's, whose instant is the present one. -/
theorem Dev.zxPhase_watchdog {f p : Nat} (hf : f < 4) (hp : p < 3) (d : Dev) : ((d.gateForced f p).driverFault f p).zxPhase f p =
    { d.zxPhase f p with gate := none, frame := none, resting := true, faults := (d.gateForced f p).faultsNow f p } := by
  rw [Dev.zxPhase_driverFault hf hp, show (d.gateForced f p).zxPhase f p = _ from Dev.zxPhase_setZxPhase hf hp ..]

/-- Settles O59: `driverFault`'s count and event, after the pin's low edge. -/
theorem watchdogForcesTheGateLow : Obligations.WatchdogForcesTheGateLow := by
  intro s f p hf hp hgate
  refine runs_zxgWatchdog hf hp hgate ?_
  rw [Dev.zxPhase_watchdog hf hp]
  exact ⟨rfl, (Dev.driverFault_edits (m := 0x34044000cc003) (h := .refl _)).face.grows, rfl, Dev.driverFault_counts hf _ p,
    Dev.driverFault_event ..⟩

end Sys2Proof.Machine

namespace Sys2Proof.Machine

set_option Elab.async false

/-! The driver's pin and its latch (R9, R124). -/

theorem bitAt_setBitTo_other {m n k : Nat} (h : k ≠ n) (v : Bool) : bitAt (setBitTo m n v) k = bitAt m k := by
  unfold bitAt setBitTo
  cases v with
  | true => simp [Nat.testBit_two_pow_of_ne h.symm]
  | false =>
    by_cases hm : m.testBit n
    · simp [hm, Nat.testBit_two_pow_of_ne h.symm]
    · simp [hm]

/-- Bits of a number cleared by a mask, one after another. -/
theorem bitAt_foldl_clear (mask : Nat) (l : List Nat) (v p : Nat) :
    bitAt (l.foldl (fun v p => if bitAt mask p then setBitTo v p false else v) v) p = (bitAt v p && !(decide (p ∈ l) && bitAt mask p)) := by
  induction l generalizing v with
  | nil => simp
  | cons n l ih =>
    rw [List.foldl_cons, ih]
    by_cases hn : p = n
    · subst hn
      by_cases hmask : bitAt mask p <;> simp [hmask]
    · by_cases hmask : bitAt mask n <;> simp [hmask, bitAt_setBitTo_other hn, hn]

/-- A fault pin that rises shows, and the phase faults. -/
theorem zxfFault_faults (s : State) (f p : Nat) (hf : f < 4) (hp : p < 3) (hlow : bitAt (s.dev.get (F.ZXP_STATUS_FAULT.at f)) p = false) :
    Runs (.zxfFault f p) s fun d => bitAt (d.get (F.ZXP_STATUS_FAULT.at f)) p = true ∧ (d.zxPhase f p).frame = none ∧
      (d.zxPhase f p).resting = true ∧ d.get (F.ZXP_INT_STATUS_DRIVER_FAULT.at f) = 1 := by
  refine ⟨_, rfl, rfl, ?_⟩
  dsimp -zeta only
  extract_lets x
  rw [if_neg (by simp [x, hlow]; omega), Dev.zxPhase_driverFault hf hp, Dev.driverFault_pin hf, Dev.get_set_at_same _ F.ZXP_STATUS_FAULT,
    bitAt_mod_two_pow, bitAt_setBitTo_same]
  exact ⟨by simp [F.ZXP_STATUS_FAULT, hp], rfl, rfl, Dev.driverFault_event ..⟩

theorem zxfFall_clears (s : State) (f p : Nat) (hf : f < 4) (hp : p < 3) :
    Runs (.zxfFall f p) s fun d => bitAt (d.get (F.ZXP_STATUS_FAULT.at f)) p = false := by
  refine ⟨_, rfl, rfl, ?_⟩
  dsimp -zeta only
  extract_lets x
  rw [if_neg (by omega), Dev.get_set_at_same _ F.ZXP_STATUS_FAULT, bitAt_mod_two_pow, bitAt_setBitTo_same, Bool.and_false]

theorem zxFaultResume_resumes (s : State) (f p t : Nat) (hf : f < 4) (hp : p < 3) (ht : (s.dev.zxPhase f p).faults.head? = some t)
    (hdue : t + 10000000000 ≤ s.dev.now) : Runs (.zxFaultResume f p) s fun d => (d.zxPhase f p).resting = false := by
  refine ⟨_, rfl, rfl, ?_⟩
  dsimp -zeta only
  rw [if_neg (by omega)]
  extract_lets x
  rw [if_pos (by simp [x, ht, hdue]), Dev.zxPhase_setZxPhase hf hp]

/-- What a write of ones to ZXP_FAULT.LATCHED leaves of both fields that show the latch: bits the mask names are clear, those that
hardware sets in the same cycle apart (R9). -/
theorem runs_zxpFaultClear {s : State} {f : Nat} (hf : f < 4) (m : Nat) {P : Dev → Prop}
    (h : ∀ d : Dev, (∀ p < 3, bitAt (d.get (F.ZXP_STATUS_LATCHED.at f)) p =
        (bitAt (s.dev.get (F.ZXP_STATUS_LATCHED.at f)) p && !(bitAt m p && !(s.dev.setNow (R.ZXP_FAULT.at f)).getLsbD p))) →
      (∀ p < 3, bitAt (d.get (F.ZXP_FAULT_LATCHED.at f)) p =
        (bitAt (s.dev.get (F.ZXP_FAULT_LATCHED.at f)) p && !(bitAt m p && !(s.dev.setNow (R.ZXP_FAULT.at f)).getLsbD p))) → P d) :
    Runs (.zxpFaultClear f m) s P := by
  refine ⟨_, rfl, rfl, ?_⟩
  dsimp -zeta only
  rw [if_neg (by omega)]
  extract_lets mask clear
  have hmask : ∀ p < 3, bitAt mask p = (bitAt m p && !(s.dev.setNow (R.ZXP_FAULT.at f)).getLsbD p) := fun p hp => by
    rw [bitAt, Nat.testBit_and, BitVec.testBit_toNat, BitVec.getLsbD_not, decide_eq_true (show p < 32 by omega), Bool.true_and, bitAt]
  have hclear : ∀ (x : Fld) (d : Dev) (p : Nat), p < 3 → x.hi = x.lo + 2 → x.hi < 32 →
      bitAt ((clear x d).get (x.at f)) p = (bitAt (d.get (x.at f)) p && !bitAt mask p) := fun x d p hp hw hhi => by
    have hmem : p ∈ List.range 3 := List.mem_range.2 hp
    dsimp only [clear]
    rw [Dev.get_set_at_same _ x _ _ hhi (by omega), bitAt_mod_two_pow, bitAt_foldl_clear]
    simp [show p < x.hi + 1 - x.lo by omega, hmem]
  refine h _ (fun p hp => ?_) fun p hp => ?_
  · rw [hclear F.ZXP_STATUS_LATCHED _ p hp rfl (by decide), hmask p hp]
    dsimp only [clear]
    rw [Dev.get_set_at_other hf _ (by decide)]
  · rw [← hmask p hp, ← hclear F.ZXP_FAULT_LATCHED _ p hp rfl (by decide)]
    exact congrArg (bitAt · p) (Dev.get_set_at_other hf _ (by decide) _)

theorem zxpFaultClear_clears (s : State) (f m p : Nat) (hf : f < 4) (hp : p < 3) (hm : bitAt m p = true)
    (hnow : (s.dev.setNow (R.ZXP_FAULT.at f)).getLsbD p = false) : Runs (.zxpFaultClear f m) s fun d =>
      bitAt (d.get (F.ZXP_STATUS_LATCHED.at f)) p = false ∧ bitAt (d.get (F.ZXP_FAULT_LATCHED.at f)) p = false :=
  runs_zxpFaultClear hf m fun d hstatus hfault => by
    rw [hstatus p hp, hfault p hp, hm, hnow]
    exact ⟨Bool.and_false _, Bool.and_false _⟩

theorem zxpFaultClear_loses (s : State) (f m p : Nat) (hf : f < 4) (hp : p < 3)
    (hnow : (s.dev.setNow (R.ZXP_FAULT.at f)).getLsbD p = true) : Runs (.zxpFaultClear f m) s fun d =>
      bitAt (d.get (F.ZXP_FAULT_LATCHED.at f)) p = bitAt (s.dev.get (F.ZXP_FAULT_LATCHED.at f)) p :=
  runs_zxpFaultClear hf m fun d _ hfault => by
    rw [hfault p hp, hnow]
    simp

theorem zxgWatchdog_faults (s : State) (f p : Nat) (hf : f < 4) (hp : p < 3) (hgate : (s.dev.zxPhase f p).gate.isSome = true) :
    Runs (.zxgWatchdog f p) s fun d => (d.zxPhase f p).gate = none ∧ (d.zxPhase f p).frame = none ∧ (d.zxPhase f p).resting = true ∧
      d.get (F.ZXP_INT_STATUS_DRIVER_FAULT.at f) = 1 := by
  refine runs_zxgWatchdog hf hp hgate ?_
  rw [Dev.zxPhase_watchdog hf hp]
  exact ⟨rfl, rfl, rfl, Dev.driverFault_event ..⟩

/-! Outbound frames and their pulses (R109 to R111, R117, R120). -/

/-- A frame that starts takes the next counter of its phase. -/
theorem Dev.zxPhase_zxStart {f p : Nat} (hf : f < 4) (hp : p < 3) (d : Dev) (what : ZxPurpose) (cycle n : Nat) (last : Bool)
    (data : Option ZxData) : ∃ fr : ZxFrame, fr.purpose = what ∧ (d.zxStart f p what cycle n last data).zxPhase f p =
      { d.zxPhase f p with outCtr := ((d.zxPhase f p).outCtr + 1) % 2 ^ 32, frame := some fr } := by
  unfold Dev.zxStart
  refine ⟨_, ?_, Dev.zxPhase_setZxPhase hf hp ..⟩
  rfl

/-- A broadcast key that can be derived is loaded into its register. -/
theorem Dev.loadBcast_some {d : Dev} {place k : Nat} (h : d.bcastKey place = some k) :
    ∃ key, d.loadBcast place = (some k, { d with key := key }) := by
  rw [Dev.loadBcast, h]
  exact ⟨_, rfl⟩

/-- The uplink period's end starts the ACK frame of its round. -/
theorem zxUplinkEnd_starts (s : State) (f p k : Nat) (hf : f < 4) (hp : p < 3) (hsends : s.dev.zxSends f p = true)
    (hframe : (s.dev.zxPhase f p).frame = none) (hfixed : (s.dev.zxPhase f p).fixed = false)
    (hkey : s.dev.bcastKey (zxPlace f p) = some k) : Runs (.zxUplinkEnd f p) s fun d =>
      (d.zxPhase f p).frame.map (·.purpose) = some (.ack (s.dev.zxFeeder f).round) ∧
        (d.zxPhase f p).outCtr = ((s.dev.zxPhase f p).outCtr + 1) % 2 ^ 32 := by
  refine ⟨_, rfl, rfl, ?_⟩
  dsimp -zeta only
  extract_lets r
  obtain ⟨key, hload⟩ := Dev.loadBcast_some hkey
  rw [if_neg (by simp [hsends, hframe, hfixed]; omega), hload]
  dsimp -zeta only
  extract_lets x
  obtain ⟨fr, hpurpose, hphase⟩ := Dev.zxPhase_zxStart hf hp { s.dev with key := key } (.ack r) (r * x.round + x.uplink + 2) 2
    (Dev.zxLast { s.dev with key := key } f p (x.uplink + 194)) none
  rw [hphase]
  exact ⟨congrArg some hpurpose, rfl⟩

/-- BITMAP is fixed from the commits so far. -/
theorem zxAckBitmapFix_fixes (s : State) (f p : Nat) (fr : ZxFrame) (r k : Nat) (hf : f < 4) (hp : p < 3)
    (hframe : (s.dev.zxPhase f p).frame = some fr) (hpurpose : fr.purpose = .ack r) (hbitmap : fr.bitmap = none)
    (hkey : Maps.get? (zxPlace f p) s.dev.key.bcastRegs = some k) : Runs (.zxAckBitmapFix f p) s fun d =>
      (d.zxPhase f p).fixed = true ∧ (d.zxPhase f p).frame.bind (·.bitmap) = some (s.dev.zxPhase f p).acked := by
  refine ⟨_, rfl, rfl, ?_⟩
  dsimp -zeta only
  rw [if_neg (by omega)]
  extract_lets +onlyGivenNames x d
  have hkey' : Maps.get? (zxPlace f p) d.key.bcastRegs = some k := hkey
  rw [show x.frame = some fr from hframe, hkey']
  dsimp -zeta only
  rw [hpurpose, hbitmap]
  dsimp -zeta only
  extract_lets +onlyGivenNames map data bits fr' x' d'
  have hfixed : x'.fixed = true := congrArg ZxPhase.fixed (Dev.zxPhase_setZxPhase hf hp ..)
  have hphase : d'.zxPhase f p = { x' with frame := some fr' } := Dev.zxPhase_setZxPhase hf hp ..
  show (d'.zxPhase f p).fixed = true ∧ (d'.zxPhase f p).frame.bind (·.bitmap) = _
  rw [hphase]
  exact ⟨hfixed, rfl⟩

/-- Where a phase that sends, with no frame in progress, stands after the ACK frame. -/
theorem Dev.zxPos_some {d : Dev} {f p pos : Nat} (hsends : d.zxSends f p = true) (hframe : (d.zxPhase f p).frame = none)
    (hcycle : (d.zxPhase f p).cycle = (d.zxFeeder f).round * (d.sched f).round + pos) (hpos : (d.sched f).uplink + 194 ≤ pos) :
    d.zxPos f p = some pos := by
  unfold Dev.zxPos
  extract_lets x sc base
  have hcycle : x.cycle = base + pos := hcycle
  have hpos : sc.uplink + 194 ≤ pos := hpos
  rw [if_neg (by simp [hsends, show x.frame = none from hframe]; omega), hcycle, Nat.add_sub_cancel_left]

/-- A TIME frame begins on a phase whose broadcast key can be derived. -/
theorem Dev.zxPhase_zxBegin_time {f p : Nat} (hf : f < 4) (hp : p < 3) {d : Dev} {k : Nat} (hkey : d.bcastKey (zxPlace f p) = some k)
    (pos n : Nat) : ∃ fr : ZxFrame, fr.purpose = .time ∧ (d.zxBegin f p pos .time n).zxPhase f p =
      { d.zxPhase f p with timeSent := true, outCtr := ((d.zxPhase f p).outCtr + 1) % 2 ^ 32, frame := some fr } := by
  obtain ⟨key, hload⟩ := Dev.loadBcast_some hkey
  unfold Dev.zxBegin
  dsimp -zeta only
  rw [hload]
  unfold Dev.zxBroadcast
  dsimp only
  obtain ⟨fr, hpurpose, hphase⟩ := Dev.zxPhase_zxStart hf hp
    (Dev.setZxPhase { d with key := key } f p { d.zxPhase f p with timeSent := true }) .time (d.zxPhase f p).cycle n
    (Dev.zxLast (Dev.setZxPhase { d with key := key } f p { d.zxPhase f p with timeSent := true }) f p (pos + zxCycles n))
    (some { key := k, clear := d.timeBits f })
  refine ⟨fr, hpurpose, ?_⟩
  rw [Dev.zxPhase_setZxPhase hf hp] at hphase
  exact hphase

/-- The TIME frame that is due goes directly after the ACK frame (R109). -/
theorem zxOutboundFrameStart_time (s : State) (f p k : Nat) (hf : f < 4) (hp : p < 3) (hsends : s.dev.zxSends f p = true)
    (hframe : (s.dev.zxPhase f p).frame = none) (hcycle : (s.dev.zxPhase f p).cycle =
      (s.dev.zxFeeder f).round * (s.dev.sched f).round + (s.dev.sched f).uplink + 194)
    (hevery : (s.dev.sched f).every ≤ (s.dev.zxPhase f p).sinceTime) (htime : (s.dev.zxPhase f p).timeSent = false)
    (hdist : (s.dev.zxPhase f p).distSent = false) (hfits : (s.dev.sched f).uplink + 194 + zxCycles 4 ≤ (s.dev.sched f).round)
    (hkey : s.dev.bcastKey (zxPlace f p) = some k) : Runs (.zxOutboundFrameStart f p) s fun d =>
      (d.zxPhase f p).frame.map (·.purpose) = some .time ∧ (d.zxPhase f p).timeSent = true := by
  have hpos : s.dev.zxPos f p = some ((s.dev.sched f).uplink + 194) := Dev.zxPos_some hsends hframe (by omega) (Nat.le_refl _)
  obtain ⟨rest, hdue⟩ : ∃ rest, s.dev.zxDue f p ((s.dev.sched f).uplink + 194) = (.time, 4) :: rest := by
    unfold Dev.zxDue
    extract_lets x sc waits time untold scheds downs dists
    have htime : time = [(.time, 4)] := if_pos ⟨by simp [waits, x, sc, hevery, htime], rfl⟩
    rw [if_neg (by simp [x, hdist]), htime]
    exact ⟨_, rfl⟩
  refine ⟨_, rfl, rfl, ?_⟩
  dsimp -zeta only
  rw [if_neg (by omega), hpos]
  dsimp only
  rw [hdue, Dev.zxFirst, if_pos (show (s.dev.sched f).fits 4 _ = true from decide_eq_true hfits)]
  obtain ⟨fr, hpurpose, hphase⟩ := Dev.zxPhase_zxBegin_time hf hp hkey ((s.dev.sched f).uplink + 194) 4
  rw [if_pos (by rw [hphase]; rfl), hphase]
  exact ⟨congrArg some hpurpose, rfl⟩

/-- Nothing starts before the ACK frame is over. -/
theorem zxOutboundFrameStart_early (s : State) (f p : Nat) (hf : f < 4) (hp : p < 3) (hcycle : (s.dev.zxPhase f p).cycle <
      (s.dev.zxFeeder f).round * (s.dev.sched f).round + (s.dev.sched f).uplink + 194) :
    Runs (.zxOutboundFrameStart f p) s fun d => d = s.dev := by
  have hpos : s.dev.zxPos f p = none := if_pos (.inr (.inr hcycle))
  refine ⟨_, rfl, rfl, ?_⟩
  dsimp -zeta only
  rw [if_neg (by omega), hpos]

/-- A DIST frame is the last of its downlink period (R275). -/
theorem zxOutboundFrameStart_over (s : State) (f p : Nat) (hf : f < 4) (hp : p < 3) (hdist : (s.dev.zxPhase f p).distSent = true) :
    Runs (.zxOutboundFrameStart f p) s fun d => d = s.dev := by
  have hdue : ∀ pos, s.dev.zxDue f p pos = [] := fun pos => by
    unfold Dev.zxDue
    extract_lets x sc waits time untold scheds downs dists
    exact if_pos hdist
  refine ⟨_, rfl, rfl, ?_⟩
  dsimp -zeta only
  rw [if_neg (by omega)]
  split
  · rw [hdue]; rfl
  · rfl

/-- The pulse of a TIME frame's next symbol, before the last. -/
theorem zxPulseGate_pulses (s : State) (f p : Nat) (fr : ZxFrame) (v : Nat) (hf : f < 4) (hp : p < 3) (hsends : s.dev.zxSends f p = true)
    (hframe : (s.dev.zxPhase f p).frame = some fr) (hv : fr.symbols[fr.sent]? = some v) (hpurpose : fr.purpose = .time)
    (hmore : fr.sent + 1 < fr.symbols.length) : Runs (.zxPulseGate f p) s fun d =>
      (d.zxPhase f p).frame = some { fr with sent := (fr.sent + 1) } ∧ d.lastOut = some (.zxPulse f p
        ((((s.dev.zxPhase f p).dir (decide (v % 2 = 0))).pred).getD 0)
        (msrPeriods (max 150 (s.dev.get (F.ZXP_TX_TIME_START.at f))) - s.dev.gateAdvance f p)
        (msrPeriods (s.dev.get (F.ZXP_TX_TIME_WIDTH.at f))).toNat) := by
  refine ⟨_, rfl, rfl, ?_⟩
  dsimp -zeta only
  extract_lets x rise width
  rw [show x.frame = some fr from hframe]
  dsimp -zeta only
  rw [hv]
  dsimp -zeta only
  rw [if_neg (by simp [hsends]; omega)]
  extract_lets +onlyGivenNames pred fr' fall d d' total
  have htotal : total = fr.symbols.length := by dsimp only [total]; rw [show fr'.purpose = .time from hpurpose]
  rw [if_pos (htotal ▸ hmore)]
  exact ⟨congrArg ZxPhase.frame (Dev.zxPhase_setZxPhase hf hp ..), rfl⟩

/-- Settles O30: the lemmas above, one for each clause. -/
theorem zxFrames : Obligations.ZxFrames :=
  ⟨zxUplinkEnd_starts, zxAckBitmapFix_fixes, zxOutboundFrameStart_time, zxOutboundFrameStart_early, zxOutboundFrameStart_over,
    zxPulseGate_pulses, zxgWatchdog_faults, zxfFault_faults, zxfFall_clears, zxFaultResume_resumes, zxpFaultClear_clears,
    zxpFaultClear_loses⟩

end Sys2Proof.Machine

namespace Sys2Proof.Machine

set_option Elab.async false

/-! The window of a phase's last crossing closes (R114, R121): nothing that tracks the phase changes. -/

/-- A phase after the integral of a window is taken. -/
def ZxPhase.SameButWindows (x x' : ZxPhase) : Prop :=
  ∃ window flagged sums rise fall, x' = { x with
    window := window, flagged := flagged, sums := sums, rise := { x.rise with windows := rise }, fall := { x.fall with windows := fall } }

theorem ZxPhase.SameButWindows.trans {x x' x'' : ZxPhase} (h : x.SameButWindows x') (h' : x'.SameButWindows x'') : x.SameButWindows x'' := by
  obtain ⟨_, _, _, _, _, rfl⟩ := h
  obtain ⟨_, _, _, _, _, rfl⟩ := h'
  exact ⟨_, _, _, _, _, rfl⟩

theorem ZxPhase.SameButWindows.last {x x' : ZxPhase} (h : x.SameButWindows x') (r : Bool) : (x'.dir r).last = (x.dir r).last := by
  obtain ⟨_, _, _, _, _, rfl⟩ := h
  cases r <;> rfl

theorem ZxPhase.SameButWindows.subs {x x' : ZxPhase} (h : x.SameButWindows x') (r : Bool) : (x'.dir r).subs = (x.dir r).subs := by
  obtain ⟨_, _, _, _, _, rfl⟩ := h
  cases r <;> rfl

theorem ZxPhase.SameButWindows.accepted {x x' : ZxPhase} (h : x.SameButWindows x') : x'.accepted = x.accepted := by
  obtain ⟨_, _, _, _, _, rfl⟩ := h
  rfl

theorem ZxPhase.SameButWindows.predict {x x' : ZxPhase} (h : x.SameButWindows x') (r : Bool) : x'.predict r = x.predict r := by
  obtain ⟨_, _, _, _, _, rfl⟩ := h
  cases r <;> rfl

theorem ZxPhase.addWindow_sameButWindows (x : ZxPhase) (h : Nat) (w : Int) : x.SameButWindows (x.addWindow h w) := by
  unfold ZxPhase.addWindow
  split
  · exact ⟨_, _, _, _, _, rfl⟩
  · exact ⟨_, _, _, _, _, rfl⟩

theorem ZxPhase.setDir_sameButWindows (x : ZxPhase) (r : Bool) (l : List Int) :
    x.SameButWindows (x.setDir r { x.dir r with windows := l }) := by
  cases r
  · exact ⟨_, _, _, _, _, rfl⟩
  · exact ⟨_, _, _, _, _, rfl⟩

/-- What closing the window of phase `p` of feeder `f` keeps. -/
structure Dev.TrackKept (d d' : Dev) (f p : Nat) : Prop where
  phase : (d.zxPhase f p).SameButWindows (d'.zxPhase f p)
  feeder : ∃ l, d'.zxFeeder f = { d.zxFeeder f with phases := l }
  status : d'.get (F.ZXP_STATUS_TRACK.at f) = d.get (F.ZXP_STATUS_TRACK.at f)
  trl : d'.trl = d.trl

section
variable {d d' : Dev} {f p : Nat}

theorem Dev.TrackKept.refl : d.TrackKept d f p := ⟨⟨_, _, _, _, _, rfl⟩, ⟨_, rfl⟩, rfl, rfl⟩

theorem Dev.TrackKept.track (h : d.TrackKept d' f p) : d'.track f p = d.track f p := Dev.track_congr h.status p

variable (hf : f < 4) (hp : p < 3) (h : d.TrackKept d' f p)
include hf h

theorem Dev.TrackKept.zxCount (n : Nat) (hn : n < 12 := by decide) : d.TrackKept (d'.zxCount f n) f p :=
  ⟨h.phase, h.feeder, (Dev.get_zxCount hf d' n hn).trans h.status, h.trl⟩

theorem Dev.TrackKept.zxRaise (x : Fld) (a : Nat) (hx : ∀ f < 4, (F.ZXP_STATUS_TRACK.at f).off ≠ (x.at f).off := by decide) :
    d.TrackKept (d'.zxRaise f x a) f p where
  phase := by rw [Dev.zxPhase_congr (Dev.zxRaise_zxp ..)]; exact h.phase
  feeder := by rw [Dev.zxFeeder_congr (Dev.zxRaise_zxp ..)]; exact h.feeder
  status := (Dev.get_zxRaise_other hf hx (by decide) d' a).trans h.status
  trl := (Dev.zxRaise_trl ..).trans h.trl

include hp

theorem Dev.TrackKept.setZxPhase {x : ZxPhase} (hx : (d'.zxPhase f p).SameButWindows x) : d.TrackKept (d'.setZxPhase f p x) f p where
  phase := by rw [Dev.zxPhase_setZxPhase hf hp]; exact h.phase.trans hx
  feeder := by
    obtain ⟨l, e⟩ := h.feeder
    exact ⟨_, by rw [Dev.zxFeeder_setZxPhase hf, e]⟩
  status := h.status
  trl := h.trl

theorem Dev.TrackKept.flagHalf (n : Nat) : d.TrackKept (d'.flagHalf f p n) f p := by
  unfold Dev.flagHalf
  extract_lets +onlyGivenNames x
  split
  · exact h
  · exact h.setZxPhase hf hp ⟨_, _, _, _, _, rfl⟩

theorem Dev.TrackKept.loadStep? (r : Bool) (n : Nat) (w : Int) : d.TrackKept (d'.loadStep? f p r n w) f p := by
  unfold Dev.loadStep?
  extract_lets +onlyGivenNames x y t d₁
  have h₁ : d.TrackKept d₁ f p := h.setZxPhase hf hp (ZxPhase.setDir_sameButWindows _ r _)
  split
  · split
    · exact ((h₁.flagHalf hf hp _).zxCount hf 3).zxRaise hf F.ZXP_INT_STATUS_LOAD_STEP _
    · exact h₁
  · exact h₁

end

theorem Dev.closeWindow_keeps {f p : Nat} (hf : f < 4) (hp : p < 3) (d : Dev) : d.TrackKept (d.closeWindow f p) f p := by
  unfold Dev.closeWindow
  extract_lets +onlyGivenNames x
  split
  · exact .refl
  · next r t n _ =>
    extract_lets +onlyGivenNames d₁
    have h₁ : d.TrackKept d₁ f p := by
      refine Dev.TrackKept.refl.setZxPhase hf hp ?_
      exact ⟨_, _, _, _, _, rfl⟩
    split
    · exact h₁.flagHalf hf hp n
    · next w _ =>
      extract_lets d₂
      have h₂ : d.TrackKept d₂ f p := by
        dsimp only [d₂]
        split
        · exact h₁.flagHalf hf hp n
        · exact h₁
      exact (h₂.setZxPhase hf hp (ZxPhase.addWindow_sameButWindows _ n w)).loadStep? hf hp r n w

/-! A crossing's instant is used (R105). -/

@[simp] theorem Dev.showCycle_zxp (d : Dev) (f : Nat) : (d.showCycle f).zxp = d.zxp := by
  unfold Dev.showCycle
  extract_lets x d₁
  split
  · rfl
  · rfl

theorem Dev.get_showCycle_track {f : Nat} (hf : f < 4) (d : Dev) :
    (d.showCycle f).get (F.ZXP_STATUS_TRACK.at f) = d.get (F.ZXP_STATUS_TRACK.at f) := by
  unfold Dev.showCycle
  extract_lets +onlyGivenNames x d₁
  have h₁ : d₁.get (F.ZXP_STATUS_TRACK.at f) = d.get (F.ZXP_STATUS_TRACK.at f) := Dev.get_set_at_other hf d (by decide) _
  split
  · extract_lets d₂ n
    rw [Dev.get_set_at_other hf _ (by decide), Dev.get_set_at_other hf _ (by decide), Dev.get_set_at_other hf _ (by decide),
      Dev.get_set_at_other hf _ (by decide), h₁]
  · exact h₁

/-- V1's rising crossing: C and the crossing times change, and nothing else of the feeder. -/
theorem Dev.v1Rise_keeps {f : Nat} (hf : f < 4) (d : Dev) (t : Nat) :
    (∃ c times, (d.v1Rise f t).zxFeeder f = { d.zxFeeder f with c := c, times := times }) ∧
      ((d.zxFeeder f).started = true → ((d.v1Rise f t).zxFeeder f).c = ((d.zxFeeder f).c + 1) % 2 ^ 48) ∧
      (d.v1Rise f t).get (F.ZXP_STATUS_TRACK.at f) = d.get (F.ZXP_STATUS_TRACK.at f) := by
  unfold Dev.v1Rise
  extract_lets +onlyGivenNames x
  split
  · next h => exact ⟨⟨_, _, rfl⟩, fun e => absurd (h.symm.trans e) (by decide), rfl⟩
  · extract_lets c d₁
    have hzxp : d₁.zxFeeder f = { x with c := c, times := ((c, t) :: x.times).take (2 ^ 20) } := by
      rw [Dev.zxFeeder_congr (Dev.showCycle_zxp ..), Dev.zxFeeder_setZxFeeder hf]
    have hstatus : d₁.get (F.ZXP_STATUS_TRACK.at f) = d.get (F.ZXP_STATUS_TRACK.at f) := Dev.get_showCycle_track hf _
    have hfeeder : ∀ d₂ : Dev, d₂.zxp = d₁.zxp →
        (∃ c times, d₂.zxFeeder f = { d.zxFeeder f with c := c, times := times }) ∧
          ((d.zxFeeder f).started = true → (d₂.zxFeeder f).c = ((d.zxFeeder f).c + 1) % 2 ^ 48) := fun d₂ h => by
      rw [Dev.zxFeeder_congr h, hzxp]
      exact ⟨⟨_, _, rfl⟩, fun _ => rfl⟩
    split
    · refine ⟨(hfeeder _ (Dev.journal_zxp ..)).1, (hfeeder _ (Dev.journal_zxp ..)).2, ?_⟩
      have hoff := regBit_zx (F.ZXP_STATUS_TRACK.at_block f)
      exact ((Dev.journal_edits (m := 0x340040004c003) (h := .refl d₁)).get (F.ZXP_STATUS_TRACK.at f) hoff.1 hoff.2).trans hstatus
    · exact ⟨(hfeeder _ rfl).1, (hfeeder _ rfl).2, hstatus⟩

section
variable {f p : Nat} (hf : f < 4) (hp : p < 3) (d : Dev)
include hf

theorem Dev.countCrossing_keeps (q : Nat) (r : Bool) (t : Nat) : (d.countCrossing f q r t).zxPhase f p = d.zxPhase f p ∧
    (d.countCrossing f q r t).get (F.ZXP_STATUS_TRACK.at f) = d.get (F.ZXP_STATUS_TRACK.at f) := by
  unfold Dev.countCrossing
  split
  · obtain ⟨⟨c, times, e⟩, -, hstatus⟩ := d.v1Rise_keeps hf t
    exact ⟨by rw [Dev.zxPhase, e, Dev.zxPhase], hstatus⟩
  · exact ⟨rfl, rfl⟩

/-- A crossing's use leaves the phase's tracking state. -/
theorem Dev.track_useCrossing (r : Bool) (t : Nat) : (d.useCrossing f p r t).track f p = d.track f p :=
  Dev.track_congr ((d.countCrossing_keeps (p := p) hf p r t).2) p

/-- V1's rising crossing, used, counts C. -/
theorem Dev.useCrossing_counts (h : (d.zxFeeder f).started = true) (t : Nat) :
    ((d.useCrossing f 0 true t).zxFeeder f).c = ((d.zxFeeder f).c + 1) % 2 ^ 48 := by
  rw [Dev.useCrossing, Dev.openCycle, Dev.zxFeeder_setZxPhase hf]
  exact (d.v1Rise_keeps hf t).2.1 h

include hp

/-- A crossing's use leaves what the phase knows of either direction. -/
theorem Dev.dir_useCrossing (r : Bool) (t : Nat) (r' : Bool) : ((d.useCrossing f p r t).zxPhase f p).dir r' = (d.zxPhase f p).dir r' := by
  rw [Dev.useCrossing, Dev.openCycle, Dev.zxPhase_setZxPhase hf hp, (d.countCrossing_keeps hf p r t).1]
  cases r <;> rfl

end

theorem ZxPhase.dir_setDir (x : ZxPhase) (r : Bool) (y : ZxDir) : (x.setDir r y).dir r = y := by cases r <;> rfl

@[simp] theorem Dev.showPeriod_zxp (d : Dev) (f : Nat) : (d.showPeriod f).zxp = d.zxp := by
  unfold Dev.showPeriod
  split
  · rfl
  · rfl

theorem Dev.track_showPeriod {f : Nat} (hf : f < 4) (d : Dev) (p : Nat) : (d.showPeriod f).track f p = d.track f p := by
  unfold Dev.showPeriod
  split
  · rfl
  · exact Dev.track_congr (Dev.get_set_at_other hf d (by decide) _) p

/-! Crossings of a LOCKED phase (R103). -/

/-- A crossing accepted while LOCKED is used at its own instant. -/
theorem Dev.acceptCrossing_locked {d : Dev} {f p : Nat} (h : d.track f p = Zt.locked) (r : Bool) (at_ pred : Nat) :
    ∃ x : ZxPhase, (x.dir r).last = some at_ ∧ (x.dir r).subs = 0 ∧
      d.acceptCrossing f p r at_ pred = ((d.setZxPhase f p x).useCrossing f p r at_).showPeriod f := by
  unfold Dev.acceptCrossing
  extract_lets +onlyGivenNames x y is d₁ held
  have hheld : held = false := decide_eq_false (by rw [show d₁.track f p = d.track f p from rfl, h]; decide)
  rw [hheld]
  refine ⟨_, ?_, ?_, rfl⟩
  · rw [ZxPhase.dir_setDir]
  · rw [ZxPhase.dir_setDir]

/-- A near crossing of a phase that tracks is accepted. -/
theorem runs_zxCrossing_near {s : State} {f p : Nat} {r : Bool} {bits : List Sdi} {x : Dev} {at_ t : Nat} (hf : f < 4) (hp : p < 3)
    (hx : x = s.dev.msrRun bits) (hen : x.zxEnabled f p = true) (hat : x.crossing? f p r = some at_) (htrack : x.track f p = Zt.locked)
    (ht : (x.zxPhase f p).predict r = some t) (hnear : nearby at_ t = true) {P : Dev → Prop}
    (h : ∀ d : Dev, x.TrackKept d f p → d.track f p = Zt.locked → P (d.acceptCrossing f p r at_ t)) :
    Runs (.zxCrossing f p r bits) s P := by
  subst hx
  have hkept := (s.dev.msrRun bits).closeWindow_keeps hf hp
  have hlocked := hkept.track.trans htrack
  refine ⟨_, rfl, rfl, ?_⟩
  dsimp -zeta only
  extract_lets x d
  rw [if_neg (by simp [x, hen]; omega), hat]
  dsimp -zeta only
  rw [if_neg (by rw [show d.track f p = _ from hlocked]; decide), (hkept.phase.predict r).trans ht]
  dsimp only
  rw [if_pos (by rw [hnear, show d.track f p = _ from hlocked]; decide)]
  exact h _ hkept hlocked

theorem zxCrossing_accepts (s : State) (f p : Nat) (r : Bool) (bits : List Sdi) (x : Dev) (at_ t : Nat) (hf : f < 4) (hp : p < 3)
    (hx : x = s.dev.msrRun bits) (hen : x.zxEnabled f p = true) (hat : x.crossing? f p r = some at_) (htrack : x.track f p = Zt.locked)
    (ht : (x.zxPhase f p).predict r = some t) (hnear : nearby at_ t = true) : Runs (.zxCrossing f p r bits) s fun d =>
      ((d.zxPhase f p).dir r).last = some at_ ∧ ((d.zxPhase f p).dir r).subs = 0 ∧ d.track f p = Zt.locked := by
  refine runs_zxCrossing_near hf hp hx hen hat htrack ht hnear fun d _ hlocked => ?_
  obtain ⟨y, hlast, hsubs, e⟩ := Dev.acceptCrossing_locked hlocked r at_ t
  rw [e, Dev.zxPhase_congr (Dev.showPeriod_zxp ..), Dev.dir_useCrossing hf hp, Dev.zxPhase_setZxPhase hf hp, Dev.track_showPeriod hf,
    Dev.track_useCrossing hf]
  exact ⟨hlast, hsubs, hlocked⟩

theorem zxCrossing_counts (s : State) (f : Nat) (bits : List Sdi) (x : Dev) (at_ t : Nat) (hf : f < 4) (hx : x = s.dev.msrRun bits)
    (hen : x.zxEnabled f 0 = true) (hat : x.crossing? f 0 true = some at_) (htrack : x.track f 0 = Zt.locked)
    (ht : (x.zxPhase f 0).predict true = some t) (hnear : nearby at_ t = true) (hstarted : (x.zxFeeder f).started = true) :
    Runs (.zxCrossing f 0 true bits) s fun d => (d.zxFeeder f).c = ((x.zxFeeder f).c + 1) % 2 ^ 48 := by
  refine runs_zxCrossing_near hf (by decide) hx hen hat htrack ht hnear fun d hkept hlocked => ?_
  obtain ⟨y, -, -, e⟩ := Dev.acceptCrossing_locked hlocked true at_ t
  obtain ⟨l, hfeeder⟩ := hkept.feeder
  rw [e, Dev.zxFeeder_congr (Dev.showPeriod_zxp ..), Dev.useCrossing_counts hf, Dev.zxFeeder_setZxPhase hf, hfeeder]
  rw [Dev.zxFeeder_setZxPhase hf, hfeeder]
  exact hstarted

/-! A missing crossing of a LOCKED phase (R103, R104). -/

/-- The predicted instant takes the crossing's place, and a LOCKED phase goes to HOLDOVER. -/
theorem Dev.substitute_locked {d : Dev} {f p : Nat} (hf : f < 4) (hp : p < 3) {r : Bool} {t : Nat} (htrack : d.track f p = Zt.locked)
    (ht : (d.zxPhase f p).predict r = some t) : (d.substitute f p r).track f p = Zt.holdover ∧
      (((d.substitute f p r).zxPhase f p).dir r).subs = ((d.zxPhase f p).dir r).subs + 1 ∧
      (((d.substitute f p r).zxPhase f p).dir r).pred = some t ∧ (d.substitute f p r).get (F.ZXP_INT_STATUS_HOLDOVER.at f) = 1 := by
  unfold Dev.substitute
  extract_lets +onlyGivenNames x
  rw [show x.predict r = some t from ht]
  dsimp -zeta only
  extract_lets +onlyGivenNames y d₁ d₂ st
  have hdir : (d₂.zxPhase f p).dir r = { y with subs := y.subs + 1, pred := some t } := by
    rw [Dev.dir_useCrossing hf hp, Dev.zxPhase_congr (Dev.zxCount_zxp ..), Dev.zxPhase_setZxPhase hf hp, ZxPhase.dir_setDir]
  have hst : st = Zt.locked := by
    refine (Dev.track_useCrossing hf ..).trans ((Dev.track_congr ?_ p).trans htrack)
    exact Dev.get_zxCount hf _ 0
  rw [if_pos hst]
  extract_lets +onlyGivenNames x₂ d₃
  have hphase : d₃.zxPhase f p = { x₂ with held := 0 } := Dev.zxPhase_setZxPhase hf hp ..
  have htrack₃ : d₃.track f p = Zt.holdover := Dev.track_setTrack hp (by decide) d₂ f
  rw [Dev.zxPhase_congr (Dev.zxRaise_zxp ..), Dev.zxPhase_congr (Dev.zxCount_zxp ..), hphase,
    show ZxPhase.dir { x₂ with held := 0 } r = x₂.dir r by cases r <;> rfl, hdir]
  refine ⟨(Dev.track_congr ?_ p).trans htrack₃, rfl, rfl, Dev.get_zxRaise_same F.ZXP_INT_STATUS_HOLDOVER ..⟩
  rw [Dev.get_zxRaise_other hf (by decide) (by decide), Dev.get_zxCount hf _ 1 (by decide) (by decide)]

theorem zxCrossingMissing_holds (s : State) (f p : Nat) (r : Bool) (bits : List Sdi) (x : Dev) (t : Nat) (hf : f < 4) (hp : p < 3)
    (hx : x = s.dev.msrRun bits) (hen : x.zxEnabled f p = true) (htrack : x.track f p = Zt.locked)
    (ht : (x.zxPhase f p).predict r = some t) : Runs (.zxCrossingMissing f p r bits) s fun d => d.track f p = Zt.holdover ∧
      ((d.zxPhase f p).dir r).subs = ((x.zxPhase f p).dir r).subs + 1 ∧ ((d.zxPhase f p).dir r).pred = some t ∧
      d.get (F.ZXP_INT_STATUS_HOLDOVER.at f) = 1 := by
  subst hx
  have hkept := (s.dev.msrRun bits).closeWindow_keeps hf hp
  have hlocked := hkept.track.trans htrack
  refine ⟨_, rfl, rfl, ?_⟩
  dsimp -zeta only
  extract_lets +onlyGivenNames x d
  rw [if_neg (by simp [x, hen]; omega)]
  rw [if_neg (by rw [show d.track f p = _ from hlocked]; decide), ← hkept.phase.subs r]
  exact Dev.substitute_locked hf hp hlocked ((hkept.phase.predict r).trans ht)

/-! Acquiring (R104). -/

theorem Dev.firstLock_track {f : Nat} (hf : f < 4) (d : Dev) (at_ : Nat) (r : Bool) (p : Nat) :
    (d.firstLock f at_ r).track f p = d.track f p := by
  unfold Dev.firstLock
  extract_lets +onlyGivenNames x
  split
  · rfl
  · exact Dev.track_congr (Dev.get_showCycle_track hf _) p

/-- The eighth crossing accepted in a row locks the phase. -/
theorem Dev.acquireCrossing_locks {d : Dev} {f p : Nat} (hf : f < 4) (hp : p < 3) {r : Bool} {at_ t : Nat}
    (haccepted : (d.zxPhase f p).accepted = 7) (hlast : ((d.zxPhase f p).dir r).last = some t) (hlate : t < at_)
    (hslow : 1000000000 ≤ (at_ - t) * (d.mainsHz f + 5)) (hfast : (at_ - t) * (d.mainsHz f - 5) ≤ 1000000000) :
    (d.acquireCrossing f p r at_).track f p = Zt.locked ∧
      (d.acquireCrossing f p r at_).get (F.ZXP_INT_STATUS_LOCKED.at f) = 1 := by
  unfold Dev.acquireCrossing
  extract_lets +onlyGivenNames x y m span n x₁ d₁ d₂ d₃
  have hspan : span = some (at_ - t) := by
    dsimp only [span, y, x]
    rw [hlast]
    exact if_pos ⟨hlate, hslow, hfast⟩
  have hn : n = 8 := by
    dsimp only [n]
    rw [hspan, show x.accepted = 7 from haccepted]
    rfl
  rw [if_neg (by omega)]
  extract_lets +onlyGivenNames x₄ d₄ d₅
  have htrack : d₅.track f p = Zt.locked := by
    have h₄ : d₄.track f p = Zt.locked := Dev.track_setTrack hp (by decide) d₃ f
    dsimp only [d₅]
    split
    · exact (Dev.firstLock_track hf d₄ at_ r p).trans h₄
    · exact h₄
  exact ⟨(Dev.track_congr (Dev.get_zxRaise_other hf (by decide) (by decide) d₅ p) p).trans htrack,
    Dev.get_zxRaise_same F.ZXP_INT_STATUS_LOCKED ..⟩

theorem zxCrossing_locks (s : State) (f p : Nat) (r : Bool) (bits : List Sdi) (x : Dev) (at_ t : Nat) (hf : f < 4) (hp : p < 3)
    (hx : x = s.dev.msrRun bits) (hen : x.zxEnabled f p = true) (hat : x.crossing? f p r = some at_)
    (htrack : x.track f p = Zt.acquiring) (haccepted : (x.zxPhase f p).accepted = 7)
    (hlast : ((x.zxPhase f p).dir r).last = some t) (hlate : t < at_) (hslow : 1000000000 ≤ (at_ - t) * (x.mainsHz f + 5))
    (hfast : (at_ - t) * (x.mainsHz f - 5) ≤ 1000000000) : Runs (.zxCrossing f p r bits) s fun d =>
      d.track f p = Zt.locked ∧ d.get (F.ZXP_INT_STATUS_LOCKED.at f) = 1 := by
  subst hx
  have hkept := (s.dev.msrRun bits).closeWindow_keeps hf hp
  have hmains : ((s.dev.msrRun bits).closeWindow f p).mainsHz f = (s.dev.msrRun bits).mainsHz f := by
    rw [Dev.mainsHz, Dev.feederRec?, Dev.trellis, hkept.trl]
    rfl
  rw [← hmains] at hslow hfast
  refine ⟨_, rfl, rfl, ?_⟩
  dsimp -zeta only
  extract_lets x d
  rw [if_neg (by simp [x, hen]; omega), hat]
  dsimp -zeta only
  rw [if_pos (hkept.track.trans htrack)]
  exact Dev.acquireCrossing_locks hf hp (hkept.phase.accepted.trans haccepted) ((hkept.phase.last r).trans hlast) hlate hslow hfast

/-- An UNLOCKED phase acquires anew. -/
theorem zxReacquire_acquires (s : State) (f p : Nat) (hf : f < 4) (hp : p < 3) (htrack : s.dev.track f p = Zt.unlocked) :
    Runs (.zxReacquire f p) s fun d => d.track f p = Zt.acquiring ∧ (d.zxPhase f p).accepted = 0 ∧ (d.zxPhase f p).intervals = [] := by
  refine ⟨_, rfl, rfl, ?_⟩
  dsimp -zeta only
  rw [if_neg (by simp [htrack]; omega)]
  extract_lets +onlyGivenNames x d
  obtain ⟨off, gaps, hphase⟩ := Dev.zxPhase_setTrack hf hp d Zt.acquiring
  have hd : d.zxPhase f p = _ := Dev.zxPhase_setZxPhase hf hp ..
  rw [show ∀ d : Dev, (d.showFreerun f).zxPhase f p = d.zxPhase f p from fun _ => rfl, hphase, hd]
  refine ⟨(Dev.track_congr ?_ p).trans (Dev.track_setTrack hp (by decide) d f), rfl, rfl⟩
  exact Dev.get_set_at_apart (x := F.ZXP_STATUS_FREERUN) (y := F.ZXP_STATUS_TRACK) (by decide) _ f _

/-- Settles O29: the lemmas above, one for each clause. -/
theorem zxTracking : Obligations.ZxTracking :=
  ⟨zxCrossing_accepts, zxCrossing_counts, zxCrossing_locks, zxCrossingMissing_holds, zxReacquire_acquires⟩

end Sys2Proof.Machine

namespace Sys2Proof.Machine

set_option Elab.async false

/-! A frame in ingest (R153, R197) does no downlink work, and so leaves the ZX-PLC block. -/

/-- The ranked resources that a frame's item takes. -/
theorem Dev.advance_jobless_edits (k meter : Nat) {d : Dev} (hd : d.Jobless meter) : Edits 0x3401c0004c803 d (Dev.advance k meter d) := by
  induction k generalizing d with
  | zero => exact .refl d
  | succ k ih =>
    unfold Dev.advance
    split
    · exact .refl d
    · next w hget =>
      have hw := hd w hget
      split
      · next j _ hjob => rw [hw] at hjob; cases hjob
      · extract_lets d'
        have h : d'.Jobless meter ∧ Edits 0x3401c0004c803 d d' := by
          dsimp only [d']
          split
          · exact ⟨Dev.wantContext_jobless hd hw, Dev.wantContext_edits (h := .refl d)⟩
          · exact ⟨Dev.wantKey_jobless hd hw, Dev.wantKey_edits (h := .refl d)⟩
          · exact ⟨Dev.wantLane_jobless hd hw, Dev.wantLane_edits (h := .refl d)⟩
          · exact ⟨Dev.wantRing_jobless hd hw, Dev.wantRing_edits (h := .refl d)⟩
          · exact ⟨hd, .refl d⟩
        split
        · exact h.2
        · exact h.2.trans (ih h.1)

/-- What staging a frame may touch. -/
theorem Dev.stage_frame_edits (d : Dev) (f : Staged0) : Edits 0x3401d0004c823 d (d.stage f) := by
  have hcount : ∀ (d₁ : Dev) (n : Nat), Edits 0x3401d0004c823 d d₁ → Edits 0x3401d0004c823 d (d₁.count R.ING_CNT_n n) :=
    fun d₁ n h => Dev.count_edits (h := h)
  unfold Dev.stage
  extract_lets slots d₁ a e
  split
  · exact .refl d
  · split
    · exact hcount d 1 (.refl d)
    · split
      · exact Dev.raise_edits (h := hcount d 1 (.refl d))
      · have hd₁ : Edits 0x3401d0004c823 d d₁ := Dev.readyNow_edits (h := hcount d 0 (.refl d))
        split
        · exact hcount d₁ 16 hd₁
        · split
          · exact Dev.forwardUp_edits (h := hd₁)
          · split
            · exact Dev.raise_edits (h := hcount d₁ 2 hd₁)
            · extract_lets g
              split
              · exact (Dev.showIng_edits (h := Dev.beginItem_edits (h := hd₁))).andThen (Dev.advance_jobless_edits 4 _ (d₁.beginItem_jobless g))
              · exact Dev.showIng_edits (h := Edits.upd (h := hd₁))

/-- A frame passed to ingest leaves the ZX-PLC block's own state. -/
theorem Dev.zxDeliver_zxp (d : Dev) (f meter : Nat) (bits : List Bool) : (d.zxDeliver f meter bits).zxp = d.zxp := by
  unfold Dev.zxDeliver
  split
  · rfl
  · exact (Dev.stage_frame_edits _ _).zxp.resolve_left (by decide)

/-! Inbound blocks (R114, R119). -/

/-- A block of a channel in use is seen, decoded or not. -/
theorem zxBlockDecode_counts (s : State) (f p ch m : Nat) (hf : f < 4) (hp : p < 3) (hch : ch < 16)
    (hreceives : s.dev.zxReceives f p = true) (hdecoding : (s.dev.zxFeeder f).decoding = true) (hserves : s.dev.serves = true)
    (hsender : s.dev.zxSender f p ch (s.dev.zxFeeder f).round = some m) : Runs (.zxBlockDecode f p ch) s fun d =>
      (Maps.getD (d.zxPhase f p).up ch {}).blocks = (Maps.getD (s.dev.zxPhase f p).up ch {}).blocks + 1 := by
  refine ⟨_, rfl, rfl, ?_⟩
  dsimp -zeta only
  extract_lets +onlyGivenNames fd
  rw [if_neg (by simp [fd, hreceives, hdecoding, hserves]; omega), show s.dev.zxSender f p ch fd.round = some m from hsender]
  dsimp -zeta only
  extract_lets +onlyGivenNames x up n base corr magnitude put known silent extra
  have hput : ∀ (d : Dev) (u : ZxUp), (Maps.getD ((put d u).zxPhase f p).up ch {}).blocks = n + 1 := fun d u => by
    dsimp only [put]
    rw [Dev.zxPhase_setZxPhase hf hp, Maps.getD_put_same]
  split
  · exact hput _ _
  · split
    · exact hput _ _
    · extract_lets +onlyGivenNames bad erased block d₁
      split
      · exact hput _ _
      · extract_lets +onlyGivenNames d₂ bits nblk d₃ wrong d₄
        split
        · rw [Dev.zxPhase_congr (Dev.zxDeliver_zxp ..)]
          exact hput _ _
        · exact hput _ _

/-- No flagged half-cycle and no span without tracking: no nibble of a block is erased (R114, R121). -/
theorem ZxPhase.erasedNibbles_clear (x : ZxPhase) (hflagged : x.flagged = []) (hgaps : x.gaps = []) (hoff : x.off = none)
    (base channel n : Nat) : x.erasedNibbles base channel n = [] := by
  refine List.filter_eq_nil_iff.2 fun i _ => ?_
  simp [hflagged, hgaps, hoff]

/-- A header block with no decision in its favour fails the frame, and the event says so. -/
theorem zxBlockDecode_fails (s : State) (f p ch m : Nat) (hf : f < 4) (hp : p < 3) (hch : ch < 16)
    (hreceives : s.dev.zxReceives f p = true) (hdecoding : (s.dev.zxFeeder f).decoding = true) (hserves : s.dev.serves = true)
    (hsender : s.dev.zxSender f p ch (s.dev.zxFeeder f).round = some m) (hup : Maps.getD (s.dev.zxPhase f p).up ch {} = {})
    (hlearned : (s.dev.zxFeeder f).learned = []) (hflagged : (s.dev.zxPhase f p).flagged = []) (hgaps : (s.dev.zxPhase f p).gaps = [])
    (hoff : (s.dev.zxPhase f p).off = none) (hblocks : 0 < (s.dev.sched f).blocks)
    (hbad : rsDecode (chunks 4 15 ((((s.dev.zxPhase f p).symbols (s.dev.zxPulseOf f p) 60
      ((s.dev.zxFeeder f).round * (s.dev.sched f).round) 0).map fun r => r.getD ch 0).map fun v => decide (0 < v))) [] = none) :
    Runs (.zxBlockDecode f p ch) s fun d =>
      d.get (F.ZXP_INT_STATUS_BLOCK_FAIL.at f) = 1 ∧ (Maps.getD (d.zxPhase f p).up ch {}).failed = true := by
  refine ⟨_, rfl, rfl, ?_⟩
  dsimp -zeta only
  extract_lets +onlyGivenNames fd
  rw [if_neg (by simp [fd, hreceives, hdecoding, hserves]; omega), show s.dev.zxSender f p ch fd.round = some m from hsender]
  dsimp -zeta only
  extract_lets +onlyGivenNames x up n base corr magnitude put known silent extra
  have hput : ∀ (d : Dev) (u : ZxUp), (Maps.getD ((put d u).zxPhase f p).up ch {}).failed = u.failed := fun d u => by
    dsimp only [put]
    rw [Dev.zxPhase_setZxPhase hf hp, Maps.getD_put_same]
  have hup : up = {} := hup
  have hn : n = 0 := congrArg ZxUp.blocks hup
  have hknown : known = none := by
    dsimp only [known]
    rw [show fd.learned = [] from hlearned]
    rfl
  have hsilent : silent = false := by
    dsimp only [silent]
    rw [hknown]
    exact Bool.and_false _
  have hextra : extra = false := by
    dsimp only [extra]
    rw [hn]
    rfl
  rw [if_neg (by rw [hsilent]; decide), if_neg (by rw [hextra, hup, hn, decide_eq_false (Nat.not_le_of_lt hblocks)]; decide)]
  extract_lets +onlyGivenNames bad erased block d₁
  have herased : erased = [] := by
    have hbad : bad = [] := x.erasedNibbles_clear hflagged hgaps hoff base ch n
    refine List.filter_eq_nil_iff.2 fun i _ => ?_
    simp [hbad]
  have hcorr : corr = (x.symbols (s.dev.zxPulseOf f p) 60 base 0).map fun r => r.getD ch 0 := by
    dsimp only [corr]
    rw [hn]
    rfl
  have hdecode : rsDecode block erased = none := by
    dsimp only [block]
    rw [herased, hcorr]
    exact hbad
  rw [hdecode]
  dsimp -zeta only
  extract_lets d₂
  exact ⟨Dev.get_zxRaise_same F.ZXP_INT_STATUS_BLOCK_FAIL .., hput _ _⟩

/-! Rounds and ZXP_CYCLE (R105, R107). -/

/-- A round follows C. -/
theorem zxRoundBoundary_begins (s : State) (f : Nat) (hf : f < 4) (hstarted : (s.dev.zxFeeder f).started = true)
    (hsched : (s.dev.zxFeeder f).sched = none) (hround : (s.dev.zxFeeder f).c / (s.dev.sched f).round ≠ (s.dev.zxFeeder f).round) :
    Runs (.zxRoundBoundary f) s fun d => (d.zxFeeder f).round = (s.dev.zxFeeder f).c / (s.dev.sched f).round ∧
      (d.zxFeeder f).decoding = s.dev.serves ∧ ∀ p, p < 3 → (d.zxPhase f p).sinceTime = (s.dev.zxPhase f p).sinceTime + 1 := by
  refine ⟨_, rfl, rfl, ?_⟩
  dsimp -zeta only
  extract_lets +onlyGivenNames x
  rw [if_neg (by simp [x, hstarted, hround]; omega)]
  extract_lets +onlyGivenNames told d x' n r fresh d'
  have hx : x' = x := by
    dsimp only [x', d]
    split
    · rw [Dev.zxFeeder_setZxFeeder hf, ← show x.sched = none from hsched]
    · rfl
  have hn : n = (s.dev.sched f).round := by
    dsimp only [n]
    rw [Dev.sched, show d.zxFeeder f = x from hx, Dev.sched]
    dsimp only [d]
    split <;> rfl
  have hserves : d.serves = s.dev.serves := by
    dsimp only [d]
    split <;> rfl
  have hfeeder : d'.zxFeeder f = { x' with round := r, decoding := d.serves, turned := [], phases := x'.phases.map fresh } :=
    Dev.zxFeeder_setZxFeeder hf ..
  show (d'.zxFeeder f).round = _ ∧ (d'.zxFeeder f).decoding = _ ∧ ∀ p, p < 3 → (d'.zxPhase f p).sinceTime = _
  refine ⟨?_, ?_, fun p hp => ?_⟩
  · rw [hfeeder, ← hn, ← show x'.c = (s.dev.zxFeeder f).c from congrArg ZxFeeder.c hx]
  · rw [hfeeder, ← hserves]
  · rw [Dev.zxPhase, hfeeder, Dev.zxPhase, ← show x' = s.dev.zxFeeder f from hx]
    exact congrArg ZxPhase.sinceTime (Three.getD_map _ fresh hp {} {})

theorem zxpCycleRead_latches (s : State) (f : Nat) (hf : f < 4) : Runs (.zxpCycleRead f) s fun d =>
    (d.zxFeeder f).latch = some ((s.dev.zxFeeder f).c, ((s.dev.zxFeeder f).times.head?.map (·.2)).getD 0) := by
  refine ⟨_, rfl, rfl, ?_⟩
  dsimp -zeta only
  rw [if_neg (by omega)]
  extract_lets x d
  exact congrArg ZxFeeder.latch (Dev.zxFeeder_setZxFeeder hf d _)

/-! Assignments (R108). -/

/-- Recording an event may reserve event numbers in the durable state, and changes nothing else of it. -/
theorem Dev.zxRaise_ctxs (d : Dev) (f : Nat) (x : Fld) (a : Nat) : (d.zxRaise f x a).dur.ctxs = d.dur.ctxs := by
  show d.reserveEvents.dur.ctxs = d.dur.ctxs
  unfold Dev.reserveEvents
  split
  · rfl
  · split
    · rfl
    · rfl

theorem Dev.assignDone_ends {d : Dev} {f : Nat} (hf : f < 4) (result : Nat) : (d.assignDone f result).dur.ctxs = d.dur.ctxs ∧
    (d.assignDone f result).get (F.ZXP_ASSIGN_RESULT.at f) = result % 8 ∧
    (d.assignDone f result).get (F.ZXP_INT_STATUS_ASSIGN_DONE.at f) = 1 := by
  refine ⟨Dev.zxRaise_ctxs .., ?_, Dev.get_zxRaise_same F.ZXP_INT_STATUS_ASSIGN_DONE ..⟩
  rw [Dev.assignDone, Dev.get_zxRaise_other hf (by decide) (by decide), Dev.get_set_at_same _ F.ZXP_ASSIGN_RESULT]
  rfl

/-- The change of an assignment that the device journals, or its partner's mirror brings. -/
theorem Dev.putAssign_zx {d : Dev} {m : Nat} {c : Ctx} (h : Maps.get? m d.dur.ctxs = some c) (z : Option ZxAssign) :
    (Maps.get? m (d.putAssign m z).dur.ctxs).bind (·.zx) = z := by
  have hcontrol : ∀ u : Dur, Maps.get? m u.ctxs = some c → (Maps.get? m (u.control (.zxAssign m z)).ctxs).bind (·.zx) = z := fun u hu => by
    show (Maps.get? m (Maps.modify u.ctxs m _)).bind (·.zx) = z
    rw [Maps.modify, hu]
    dsimp only
    rw [Maps.get?_put_same]
    rfl
  unfold Dev.putAssign
  split
  · refine hcontrol _ ?_
    rw [(Dev.append_snd_edits (m := 0x1400000048002) (h := .refl d)).dur.resolve_left (by decide)]
    exact h
  · split
    · next hsame => exact hsame
    · exact hcontrol _ h

theorem zxpAssign_assigns (s : State) (f m : Nat) (z : ZxAssign) (c : Ctx) (hf : f < 4) (hz : z =
      ⟨f, s.dev.get (F.ZXP_ASSIGN_SLOT_PHASE.at f), s.dev.get (F.ZXP_ASSIGN_SLOT_CHANNEL.at f),
        s.dev.get (F.ZXP_ASSIGN_SLOT_SLOT.at f)⟩)
    (hctx : Maps.get? (m % 1048576) s.dev.dur.ctxs = some c) (hclass : (s.dev.trellis.class? c.cls).map (·.medium) = some 2)
    (hphase : z.phase < 3) (hen : s.dev.zxEnabled f z.phase = true) (hslot : z.slot < (s.dev.sched f).period)
    (hfree : s.dev.zxTaken (m % 1048576) z = false) : Runs (.zxpAssign f m) s fun d =>
      (Maps.get? (m % 1048576) d.dur.ctxs).bind (·.zx) = some z ∧ d.get (F.ZXP_ASSIGN_RESULT.at f) = 0 ∧
        d.get (F.ZXP_INT_STATUS_ASSIGN_DONE.at f) = 1 := by
  refine ⟨_, rfl, rfl, ?_⟩
  dsimp -zeta only
  rw [if_neg (by omega)]
  extract_lets i z'
  rw [show z' = z from hz.symm, show Maps.get? i s.dev.dur.ctxs = some c from hctx]
  dsimp only
  rw [if_neg (by simp [hclass]), if_neg (by simp [hen]; omega), if_neg (by omega), if_neg (by simp [i, hfree])]
  obtain ⟨hctxs, hresult, hdone⟩ := Dev.assignDone_ends (d := (s.dev.putAssign i (some z)).unlearn i) hf 0
  rw [hctxs]
  exact ⟨Dev.putAssign_zx hctx _, hresult, hdone⟩

theorem zxpAssign_unknown (s : State) (f m : Nat) (hf : f < 4) (hctx : Maps.get? (m % 1048576) s.dev.dur.ctxs = none) :
    Runs (.zxpAssign f m) s fun d => d.dur.ctxs = s.dev.dur.ctxs ∧ d.get (F.ZXP_ASSIGN_RESULT.at f) = 4 := by
  refine ⟨_, rfl, rfl, ?_⟩
  dsimp -zeta only
  rw [if_neg (by omega)]
  extract_lets i z
  rw [show Maps.get? i s.dev.dur.ctxs = none from hctx]
  obtain ⟨hctxs, hresult, -⟩ := Dev.assignDone_ends (d := s.dev) hf 4
  exact ⟨hctxs, hresult⟩

theorem zxpRelease_releases (s : State) (f m : Nat) (c : Ctx) (hf : f < 4) (hctx : Maps.get? (m % 1048576) s.dev.dur.ctxs = some c)
    (hzx : c.zx.map (·.feeder) = some f) : Runs (.zxpRelease f m) s fun d =>
      (Maps.get? (m % 1048576) d.dur.ctxs).bind (·.zx) = none ∧ d.get (F.ZXP_ASSIGN_RESULT.at f) = 0 := by
  refine ⟨_, rfl, rfl, ?_⟩
  dsimp -zeta only
  rw [if_neg (by omega)]
  extract_lets i
  rw [show Maps.get? i s.dev.dur.ctxs = some c from hctx]
  dsimp only
  rw [if_pos hzx]
  obtain ⟨hctxs, hresult, -⟩ := Dev.assignDone_ends (d := (s.dev.putAssign i none).unlearn i) hf 0
  rw [hctxs]
  exact ⟨Dev.putAssign_zx hctx _, hresult⟩

/-- Settles O31: the lemmas above, one for each clause. -/
theorem zxRounds : Obligations.ZxRounds :=
  ⟨zxRoundBoundary_begins, zxpAssign_assigns, zxpAssign_unknown, zxpRelease_releases, zxpCycleRead_latches, zxBlockDecode_counts,
    zxBlockDecode_fails⟩

end Sys2Proof.Machine

namespace Sys2Proof

/-- Field `y` shares no bit with field `x`, of the same register or another. -/
abbrev Fld.Clear (x y : Fld) : Prop := x.lo ≤ x.hi ∧ y.hi < 32 ∧ (y.off ≠ x.off ∨ y.hi < x.lo ∨ x.hi < y.lo)

/-- A bit of MSR_INT_STATUS. -/
abbrev Fld.MsrInt (y : Fld) : Prop := y.off = R.MSR_INT_STATUS.off ∧ y.lo = y.hi ∧ y.hi < 32

end Sys2Proof

namespace Sys2Proof.Machine

/-! Fields of the chain's block after a field is set, or an INT_STATUS bit raised. -/

/-- A field reads a number of its width. -/
theorem Dev.get_lt (d : Dev) (x : Fld) : d.get x < 2 ^ (x.hi + 1 - x.lo) := Nat.mod_lt _ (Nat.two_pow_pos _)

theorem Dev.get_congr {d d' : Dev} (h : d'.face = d.face) (x : Fld) : d'.get x = d.get x := congrArg (Face.get · x) h

theorem Dev.get_set_clear {x y : Fld} (h : x.Clear y) (d : Dev) (v : Nat) : (d.set x v).get y = d.get y := by
  obtain ⟨hl, hy, ho | hd⟩ := h
  · exact Dev.get_set_other ho d v
  · exact Dev.get_set_apart hy hl hd d v

/-- The registers of the measurement chain are none that recording an event touches. -/
theorem regBit_msr {off : Nat} (hb : off / 65536 = 7) : off < 4194304 ∧ Nat.testBit 0x340040004c003 (regBit off) = false :=
  ⟨by omega, by rw [regBit, if_neg (by omega), hb]; decide⟩

/-- A field of the chain that shares no bit with the one raised. -/
theorem Dev.get_raise_clear {x y : Fld} (hb : y.off / 65536 = 7) (h : x.Clear y) (d : Dev) (a b : Nat) :
    (d.raise x a b).get y = d.get y := by
  rw [Dev.raise_get d x a b (regBit_msr hb).1 (regBit_msr hb).2, Dev.get_set_clear h]

/-- A bit of MSR_INT_STATUS that is set stays set as any bit is raised. -/
theorem Dev.get_raise_stays {d : Dev} {x y : Fld} (hy : y.MsrInt) (h : d.get y = 1) (a b : Nat) (hx : x.lo = x.hi := by decide) :
    (d.raise x a b).get y = 1 := by
  obtain ⟨hoff, hlo, hhi⟩ := hy
  have hb : y.off / 65536 = 7 := hoff ▸ rfl
  by_cases hd : x.Clear y
  · rw [Dev.get_raise_clear hb hd, h]
  · obtain ⟨ho, hl, hr⟩ : y.off = x.off ∧ y.lo = x.lo ∧ y.hi = x.hi := by omega
    have hsame : ∀ d : Dev, d.get y = d.get x := fun d => by rw [Dev.get, Face.get, ho, hl, hr, Dev.get, Face.get]
    rw [hsame]
    exact Dev.raise_self d x a b (regBit_msr (ho ▸ hb)).1 (regBit_msr (ho ▸ hb)).2 (hr ▸ hhi) hx

/-- A field of the chain reads as before an operation that leaves the chain's registers alone. -/
theorem Edits.get_msr {m : Nat} {d d' : Dev} (h : Edits m d d') {y : Fld} (hb : y.off / 65536 = 7)
    (hm : m.testBit 39 = false := by decide) : d'.get y = d.get y :=
  h.get y (by omega) (by rw [regBit, if_neg (by omega), hb]; exact hm)

/-! What folds over channels leave. -/

theorem Dev.foldl_keeps {α β : Type} (f : Dev → β) {g : Dev → α → Dev} (h : ∀ d a, f (g d a) = f d) (l : List α) (d : Dev) :
    f (l.foldl g d) = f d :=
  List.foldlRecOn l g (motive := fun d' => f d' = f d) rfl fun d' hd' a _ => (h d' a).trans hd'

/-- What a fold brings about at one element of its list, and what every other step keeps, holds after it. -/
theorem foldl_of_mem {α β : Type} {motive : β → Prop} {op : β → α → β} {l : List α} {a : α} (ha : a ∈ l)
    (hset : ∀ b, motive (op b a)) (hstays : ∀ b, motive b → ∀ a' ∈ l, motive (op b a')) (b : β) : motive (l.foldl op b) := by
  obtain ⟨before, after, rfl⟩ := List.append_of_mem ha
  rw [List.foldl_append, List.foldl_cons]
  exact List.foldlRecOn after op (hset _) fun b hb a' ha' => hstays b hb a' (by simp [ha'])

@[simp] theorem Dev.clearChans_face (d : Dev) (p : MsrChanRec → Bool) : (d.clearChans p).face = d.face := by
  unfold Dev.clearChans
  exact Dev.foldl_keeps (·.face) (by exact fun _ _ => rfl) _ d

/-- The chain's state but for its channels and the delays they move toward. -/
def Msr.kept (m : Msr) : Msr := { m with chans := [], target := [] }

@[simp] theorem Dev.clearChans_kept (d : Dev) (p : MsrChanRec → Bool) : (d.clearChans p).msr.kept = d.msr.kept := by
  unfold Dev.clearChans
  exact Dev.foldl_keeps (·.msr.kept) (by exact fun _ _ => rfl) _ d

/-! Synchronising resets (R135). -/

theorem Dev.syncReset_settles (d : Dev) : d.syncReset.get F.MSR_STATUS_SYNC_ARMED = 0 ∧
    d.syncReset.get F.MSR_STATUS_SETTLE_LEFT = d.syncReset.get F.MSR_SETTLE_K ∧ d.syncReset.msr.restart = false ∧
    d.syncReset.msr.settles = true := by
  unfold Dev.syncReset
  extract_lets d₁ m d₂ d₃
  have hkept := d₃.clearChans_kept fun _ => true
  have hface := d₃.clearChans_face fun _ => true
  rw [Dev.get_congr hface, Dev.get_congr hface, Dev.get_congr hface]
  refine ⟨?_, ?_, congrArg Msr.restart hkept, congrArg Msr.settles hkept⟩
  · rw [Dev.get_set_clear (by decide), Dev.get_set_same _ F.MSR_STATUS_SYNC_ARMED]
    rfl
  · rw [Dev.get_set_same _ F.MSR_STATUS_SETTLE_LEFT, Dev.get_set_clear (by decide), Dev.get_set_clear (by decide)]
    exact Nat.mod_eq_of_lt ((d₂.get_lt F.MSR_SETTLE_K).trans (by decide))

theorem Dev.requestSync_arms {d : Dev} (hruns : d.msrRuns = true) (hsrc : d.get F.MSR_CTRL_SYNC_SRC ≠ 0) :
    d.requestSync = d.set F.MSR_STATUS_SYNC_ARMED 1 := by
  rw [Dev.requestSync, if_neg (by simp [hruns]), if_neg hsrc]

theorem msrSyncRequest_arms (s : State) (hruns : s.dev.msrRuns = true) (hsrc : s.dev.get F.MSR_CTRL_SYNC_SRC ≠ 0) :
    Runs .msrSyncRequest s fun d => d.get F.MSR_STATUS_SYNC_ARMED = 1 := by
  refine runs_of_on (f := Dev.requestSync) ?_
  rw [Dev.requestSync_arms hruns hsrc, Dev.get_set_same _ F.MSR_STATUS_SYNC_ARMED]
  rfl

theorem msrSyncRequest_resets (s : State) (hruns : s.dev.msrRuns = true) (hsrc : s.dev.get F.MSR_CTRL_SYNC_SRC = 0) :
    Runs .msrSyncRequest s fun d => d.get F.MSR_STATUS_SYNC_ARMED = 0 ∧
      d.get F.MSR_STATUS_SETTLE_LEFT = d.get F.MSR_SETTLE_K ∧ d.msr.restart = false ∧ d.msr.settles = true := by
  refine runs_of_on (f := Dev.requestSync) ?_
  rw [Dev.requestSync, if_neg (by simp [hruns]), if_pos hsrc]
  exact s.dev.syncReset_settles

theorem msrEnable_arms (s : State) (hchans : s.dev.trellis.msrChans ≠ []) (hoff : s.dev.get F.MSR_CTRL_ENABLE = 0)
    (hsrc : s.dev.get F.MSR_CTRL_SYNC_SRC ≠ 0) : Runs .msrEnable s fun d =>
      d.get F.MSR_CTRL_ENABLE = 1 ∧ d.msr.restart = true ∧ d.get F.MSR_STATUS_SYNC_ARMED = 1 := by
  refine runs_of_on (f := Dev.msrEnable) ?_
  unfold Dev.msrEnable
  rw [if_neg (by simp [Dev.flag, hoff])]
  extract_lets d₁
  have henable : d₁.get F.MSR_CTRL_ENABLE = 1 := Dev.get_set_same ..
  rw [Dev.requestSync_arms]
  · refine ⟨?_, rfl, Dev.get_set_same ..⟩
    rw [Dev.get_set_clear (by decide)]
    exact henable
  · show (!s.dev.trellis.msrChans.isEmpty && d₁.flag F.MSR_CTRL_ENABLE) = true
    simp [hchans, Dev.flag, henable]
  · show d₁.get F.MSR_CTRL_SYNC_SRC ≠ 0
    rwa [Dev.get_set_clear (by decide)]

theorem msrSyncReset_resets (s : State) (bits : List Sdi) (x : Dev) (hx : x = s.dev.msrRun bits) (hruns : x.msrRuns = true)
    (harmed : x.flag F.MSR_STATUS_SYNC_ARMED = true) : Runs (.msrSyncReset bits) s fun d =>
      d.get F.MSR_STATUS_SYNC_ARMED = 0 ∧ d.get F.MSR_STATUS_SETTLE_LEFT = d.get F.MSR_SETTLE_K ∧ d.msr.settles = true := by
  refine ⟨_, rfl, rfl, ?_⟩
  dsimp only
  rw [← hx, if_pos ⟨harmed, hruns⟩]
  obtain ⟨hunarmed, hleft, -, hsettles⟩ := x.syncReset_settles
  exact ⟨hunarmed, hleft, hsettles⟩

/-! Settling (R135) and saturation (R131). -/

theorem Dev.settleStep_ends (d : Dev) (hleft : d.get F.MSR_STATUS_SETTLE_LEFT = 0) (hsettles : d.msr.settles = true) :
    d.settleStep.msr.settles = false ∧ d.settleStep.get F.MSR_INT_STATUS_SYNC_DONE = 1 := by
  rw [Dev.settleStep, if_neg (by simp [hleft]), if_pos hsettles]
  exact ⟨by rw [Dev.raise_msr], Dev.raise_self ..⟩

theorem Dev.settleStep_counts (d : Dev) (hleft : d.get F.MSR_STATUS_SETTLE_LEFT ≠ 0) :
    d.settleStep.get F.MSR_STATUS_SETTLE_LEFT = d.get F.MSR_STATUS_SETTLE_LEFT - 1 ∧ d.settleStep.msr = d.msr := by
  rw [Dev.settleStep, if_pos hleft, Dev.get_set_same _ F.MSR_STATUS_SETTLE_LEFT]
  exact ⟨Nat.mod_eq_of_lt (Nat.sub_lt_of_lt (d.get_lt F.MSR_STATUS_SETTLE_LEFT)), rfl⟩

/-- A field set to 1 in several channels, the one asked for among them, reads 1 there. -/
theorem Dev.get_foldl_set_one {α : Type} {x : Fld} (f : α → Nat) {l : List α} {c : α} (hc : c ∈ l) (d : Dev)
    (h : x.hi < 32 := by decide) (hl : x.lo = x.hi := by decide) :
    (l.foldl (fun d c => d.set (x.at (f c)) 1) d).get (x.at (f c)) = 1 := by
  have hsame (d : Dev) (i : Nat) : (d.set (x.at i) 1).get (x.at i) = 1 := by
    rw [Dev.get_set_at_same d x i 1 h hl.le, hl, Nat.add_sub_cancel_left]
    rfl
  refine foldl_of_mem (motive := fun d : Dev => d.get (x.at (f c)) = 1) hc ?_ ?_ d
  · exact fun d => hsame d (f c)
  · intro d hd a _
    by_cases ho : (x.at (f c)).off = (x.at (f a)).off
    · rw [show x.at (f c) = x.at (f a) from congrArg (fun o => { x with off := o }) ho]
      exact hsame ..
    · rwa [Dev.get_set_other ho]

theorem msrSettleDone_shows (s : State) (slot : Option Nat) (bits : List Sdi) (x : Dev) (c : MsrChanRec)
    (hx : x = s.dev.msrRun bits) (hruns : x.msrRuns = true) (hc : c ∈ x.msrChans) (hslot : slot = none ∨ slot = some c.module)
    (hvalid : (x.chan c.channel).valid = true) : Runs (.msrSettleDone slot bits) s fun d =>
      d.get (F.MSR_CH_STATUS_VALID.at c.channel) = 1 ∧ d.msr = x.msr := by
  refine ⟨_, rfl, rfl, ?_⟩
  dsimp only
  rw [← hx, if_neg (by simp [hruns])]
  have hmine : c ∈ x.msrChans.filter fun c => (slot.map fun n => c.module == n).getD true && (x.chan c.channel).valid := by
    refine List.mem_filter.2 ⟨hc, ?_⟩
    rcases hslot with rfl | rfl
    · exact hvalid
    · simp [hvalid]
  exact ⟨Dev.get_foldl_set_one (x := F.MSR_CH_STATUS_VALID) (fun c : MsrChanRec => c.channel) hmine x,
    Dev.foldl_keeps (·.msr) (by exact fun _ _ => rfl) _ x⟩

theorem saturation_reported (s : State) (ch st : Nat) (hruns : s.dev.msrRuns = true) (hch : ch < 32) (hst : st < 5) :
    Runs (.saturation ch st) s fun d =>
      bitAt (d.get (F.MSR_CH_SAT_STAGE.at ch)) st = true ∧ d.get F.MSR_INT_STATUS_SATURATION = 1 := by
  refine ⟨_, rfl, rfl, ?_⟩
  dsimp only
  rw [if_pos ⟨hch, hst, hruns⟩]
  refine ⟨?_, Dev.raise_self ..⟩
  have hoff : ∀ ch < 32, (F.MSR_CH_SAT_STAGE.at ch).off ≠ F.MSR_INT_STATUS_SATURATION.off := by decide
  unfold Dev.clampAt
  extract_lets x
  rw [Dev.get_raise_clear (Fld.at_block _ _) ⟨by decide, (by decide : 4 < 32), .inl (hoff ch hch)⟩]
  exact Dev.bitAt_setW1cBit_same _ (F.MSR_CH_SAT_STAGE.at ch) hst (by decide : 4 < 32) (Nat.zero_le _)

/-- Settles O27: the lemmas above, one for each clause. -/
theorem measurementResets : Obligations.MeasurementResets :=
  ⟨msrSyncRequest_arms, msrSyncRequest_resets, msrEnable_arms, msrSyncReset_resets, Dev.settleStep_ends, Dev.settleStep_counts,
    fun s slot bits x c hx hruns _ => msrSettleDone_shows s slot bits x c hx hruns, saturation_reported⟩

/-! A coefficient write (R138). -/

/-- A fade that names the compensation FIR, whose target, bank A, is already active: the stage takes no part in it (R139).
MSR_COEF_SEL points at the first coefficient of its bank B. -/
def idleFade : State :=
  { dev := { Dev.reset.set F.MSR_COEF_SEL_BANK 1 with msr := { fade := some ⟨1, 0, 16⟩ } } }

/-- Refutes O58: it refuses a write to every stage in the MASK of a swap, where a named stage whose target is already active takes
no part in the swap (R139), so that its inactive bank takes the coefficient. -/
theorem not_coefficientWritesOnlyToFreeBanks : ¬ Obligations.CoefficientWritesOnlyToFreeBanks := by
  rintro ⟨-, hrefused⟩
  obtain ⟨t, hexec, -, hcoefs, -⟩ := hrefused idleFade 5 ⟨1, 0, 16⟩ (.inr ⟨.inl rfl, by decide⟩)
  have hstored : Runs (.msrCoefWrite 5) idleFade fun d => Maps.get? 64 d.msr.coefs = some 5 := ⟨_, rfl, rfl, by decide⟩
  obtain ⟨t', hexec', -, hcoef⟩ := hstored
  obtain rfl : t = t' := Host.Outcome.next.inj (hexec.symm.trans hexec')
  rw [hcoefs] at hcoef
  cases hcoef

end Sys2Proof.Machine
namespace Sys2Proof.Machine

/-! Bank swaps (R139, R140). -/

theorem Dev.get_showSwaps_clear {y : Fld} (d : Dev) (hfade : F.MSR_STATUS_FADE_ACTIVE.Clear y)
    (hpending : F.MSR_STATUS_SWAP_PENDING.Clear y) (htarget : F.MSR_STATUS_PENDING_TARGET.Clear y)
    (hlength : F.MSR_SWAP_STATUS_PENDING_FADE.Clear y) : d.showSwaps.get y = d.get y := by
  unfold Dev.showSwaps
  rw [Dev.get_set_clear hlength, Dev.get_set_clear htarget, Dev.get_set_clear hpending, Dev.get_set_clear hfade]

theorem Dev.get_showSwaps_fadeActive (d : Dev) : d.showSwaps.get F.MSR_STATUS_FADE_ACTIVE = b2n d.msr.fade.isSome := by
  unfold Dev.showSwaps
  rw [Dev.get_set_clear (by decide), Dev.get_set_clear (by decide), Dev.get_set_clear (by decide),
    Dev.get_set_same _ F.MSR_STATUS_FADE_ACTIVE]
  cases d.msr.fade.isSome <;> rfl

theorem Dev.endFade_ends {d : Dev} {w : Swap} (hfade : d.msr.fade = some w) :
    d.endFade.get F.MSR_STATUS_ACTIVE_BANK = w.banks (d.get F.MSR_STATUS_ACTIVE_BANK) % 8 ∧ d.endFade.msr.fade = d.msr.pend ∧
      d.endFade.msr.pend = none ∧ d.endFade.get F.MSR_INT_STATUS_SWAP_DONE = 1 := by
  unfold Dev.endFade
  rw [hfade]
  dsimp -zeta only
  extract_lets d₁
  rw [Dev.raise_msr]
  refine ⟨?_, rfl, rfl, Dev.raise_self ..⟩
  rw [Dev.get_raise_clear (by decide) (by decide), Dev.get_showSwaps_clear _ (by decide) (by decide) (by decide) (by decide)]
  show d₁.get _ = _
  rw [Dev.get_set_clear (by decide), Dev.get_set_same _ F.MSR_STATUS_ACTIVE_BANK]
  rfl

section
variable (s : State) (v : Word) (w : Swap) (hgo : v.getLsbD 31 = true)
include hgo

theorem msrSwapRequest_refuses (hlength : bitsOf v 12 0 < 16 ∨ 4096 < bitsOf v 12 0) : Runs (.msrSwapRequest v) s fun d =>
    d.get F.MSR_SWAP_STATUS_RESULT = 1 ∧ d.msr = s.dev.msr := by
  refine ⟨_, rfl, rfl, ?_⟩
  dsimp only
  rw [if_neg (by simp [hgo]), if_pos hlength]
  exact ⟨Dev.get_set_same .., rfl⟩

variable (hmin : 16 ≤ bitsOf v 12 0) (hmax : bitsOf v 12 0 ≤ 4096) (hmask : bitsOf v 18 16 ≠ 0) (hruns : s.dev.msrRuns = true)
include hmin hmax hmask hruns

theorem msrSwapRequest_starts (hfade : s.dev.msr.fade = none) : Runs (.msrSwapRequest v) s fun d =>
    d.msr.fade = some ⟨bitsOf v 18 16, bitsOf v 22 20, bitsOf v 12 0⟩ ∧ d.get F.MSR_SWAP_STATUS_RESULT = 0 ∧
      d.get F.MSR_STATUS_FADE_ACTIVE = 1 := by
  refine ⟨_, rfl, rfl, ?_⟩
  dsimp -zeta only
  extract_lets w d₁
  have hlength : ¬(w.fade < 16 ∨ 4096 < w.fade) := not_or_intro (Nat.not_lt.2 hmin) (Nat.not_lt.2 hmax)
  have hidle : d₁.msr.fade.isNone = true := by simp [d₁, hfade]
  rw [if_neg (by simp [hgo]), if_neg hlength, if_neg hmask, if_neg (by simp [hruns]), if_pos hidle,
    Dev.get_showSwaps_clear _ (by decide) (by decide) (by decide) (by decide), Dev.get_showSwaps_fadeActive]
  exact ⟨rfl, Dev.get_set_same .., rfl⟩

theorem msrSwapRequest_waits (hfade : s.dev.msr.fade = some w) (hpend : s.dev.msr.pend = none) :
    Runs (.msrSwapRequest v) s fun d => d.msr.fade = some w ∧
      d.msr.pend = some ⟨bitsOf v 18 16, bitsOf v 22 20, bitsOf v 12 0⟩ ∧ d.get F.MSR_INT_STATUS_SWAP_PENDING = 1 := by
  refine ⟨_, rfl, rfl, ?_⟩
  dsimp -zeta only
  extract_lets w' d₁ m again d₂
  have hlength : ¬(w'.fade < 16 ∨ 4096 < w'.fade) := not_or_intro (Nat.not_lt.2 hmin) (Nat.not_lt.2 hmax)
  have hbusy : ¬ d₁.msr.fade.isNone = true := by simp [d₁, hfade]
  have hfirst : again = false := by simp [again, d₁, hpend]
  rw [if_neg (by simp [hgo]), if_neg hlength, if_neg hmask, if_neg (by simp [hruns]), if_neg hbusy, hfirst, Dev.raise_msr]
  exact ⟨hfade, rfl, Dev.raise_self ..⟩

end

theorem msrFadeEnd_ends (s : State) (bits : List Sdi) (x : Dev) (w : Swap) (hx : x = s.dev.msrRun bits) (hfade : x.msr.fade = some w)
    (hdone : x.fadeDone = true) : Runs (.msrFadeEnd bits) s fun d =>
      d.get F.MSR_STATUS_ACTIVE_BANK = w.banks (x.get F.MSR_STATUS_ACTIVE_BANK) % 8 ∧ d.msr.fade = x.msr.pend ∧
        d.msr.pend = none ∧ d.get F.MSR_INT_STATUS_SWAP_DONE = 1 := by
  refine ⟨_, rfl, rfl, ?_⟩
  dsimp only
  rw [← hx, if_pos hdone]
  exact Dev.endFade_ends hfade

/-! Module slots (R147, R149). -/

theorem Dev.modSlot_congr {d d' : Dev} (h : d'.msr = d.msr) (n : Nat) : d'.modSlot n = d.modSlot n := by
  rw [Dev.modSlot, h, Dev.modSlot]

theorem Dev.modSlot_setModSlot {n : Nat} (hn : n < 4) (d : Dev) (m : ModSlot) : (d.setModSlot n m).modSlot n = m :=
  Four.getD_set_same hn ..

@[simp] theorem Dev.moduleChange_msr (d : Dev) (n : Nat) (present : Bool) : (d.moduleChange n present).msr = d.msr :=
  (Dev.moduleChange_edits (m := 0x34044000cc003) (h := .refl d)).msr.resolve_left (by decide)

@[simp] theorem Dev.invalidate_msr (d : Dev) (n : Nat) : (d.invalidate n).msr = d.msr :=
  Dev.foldl_keeps (·.msr) (by exact fun _ _ => rfl) _ d

@[simp] theorem Dev.showModules_msr (d : Dev) : d.showModules.msr = d.msr := rfl

@[simp] theorem Dev.moduleFails_msr (d : Dev) (n : Nat) (line : Bool) (cause : Nat) : (d.moduleFails n line cause).msr = d.msr :=
  Dev.raise_msr ..

@[simp] theorem Dev.moduleValid_msr (d : Dev) (n : Nat) (last : Option Nat) (serial : Nat) :
    (d.moduleValid n last serial).msr = d.msr := by
  unfold Dev.moduleValid
  extract_lets d₁
  have hraised : d₁.msr = d.msr := Dev.raise_msr ..
  split
  · exact hraised
  · split
    · exact (Dev.occur_msr ..).trans hraised
    · exact (Dev.raise_msr ..).trans hraised

/-- An accepted record raises MODULE_VALID; what R149 logs of its serial leaves the bits set by then. -/
theorem Dev.get_moduleValid_of_raised {d : Dev} {y : Fld} (hy : y.MsrInt) {n : Nat}
    (h : (d.raise F.MSR_INT_STATUS_MODULE_VALID n).get y = 1) (last : Option Nat) (serial : Nat) :
    (d.moduleValid n last serial).get y = 1 := by
  unfold Dev.moduleValid
  split
  · exact h
  · split
    · exact ((Dev.occur_edits (m := 0x340040004c003) (h := .refl _)).get_msr (hy.1 ▸ rfl)).trans h
    · exact Dev.get_raise_stays hy h ..

section
variable {d : Dev} {y : Fld} (hy : y.MsrInt) (h : d.get y = 1)
include hy h

theorem Dev.get_moduleChange_stays (n : Nat) (present : Bool) : (d.moduleChange n present).get y = 1 :=
  ((Dev.moduleChange_edits (m := 0x34044000cc003) (h := .refl d)).get_msr (hy.1 ▸ rfl)).trans h

theorem Dev.get_showModules_stays : d.showModules.get y = 1 :=
  (Dev.get_set_other (x := F.MSR_MOD_STATUS_SLOT) (by rw [hy.1]; decide) d _).trans h

theorem Dev.get_moduleFails_stays (n : Nat) (line : Bool) (cause : Nat) : (d.moduleFails n line cause).get y = 1 := by
  unfold Dev.moduleFails
  extract_lets v x₀ x
  have hcause : y.off ≠ F.MSR_MOD_CAUSE_CAUSE.off := by rw [hy.1]; decide
  refine Dev.get_raise_stays hy ?_ ..
  rw [Dev.get_set_other (x := x) hcause, h]

theorem Dev.get_moduleValid_stays (n : Nat) (last : Option Nat) (serial : Nat) : (d.moduleValid n last serial).get y = 1 :=
  Dev.get_moduleValid_of_raised hy (Dev.get_raise_stays hy h ..) ..

/-- Reading the line-driver record leaves the bits that are set, though it may raise them anew. -/
theorem Dev.get_readLine_stays (n : Nat) (tries : List (Option Bytes)) : (d.readLine n tries).get y = 1 := by
  unfold Dev.readLine
  extract_lets m
  split
  · refine Dev.get_moduleChange_stays hy (Dev.get_showModules_stays hy (Dev.get_moduleFails_stays hy ?_ ..)) ..
    exact h
  · refine Dev.get_moduleChange_stays hy (Dev.get_moduleValid_stays hy (Dev.get_showModules_stays hy ?_) ..) ..
    exact h

end

theorem Dev.front_readLine {n : Nat} (hn : n < 4) (d : Dev) (tries : List (Option Bytes)) :
    ((d.readLine n tries).modSlot n).front = (d.modSlot n).front := by
  unfold Dev.readLine
  extract_lets m
  split
  · rw [Dev.modSlot_congr (d := d.setModSlot n { m with line := none }) (by simp), Dev.modSlot_setModSlot hn]
  · next r _ =>
    rw [Dev.modSlot_congr (d := d.setModSlot n { m with line := some r, lastLine := some r.serial }) (by simp),
      Dev.modSlot_setModSlot hn]

@[simp] theorem Dev.calibrate_kept (d : Dev) (n : Nat) (delta : ModRec → Int) : (d.calibrate n delta).msr.kept = d.msr.kept := by
  unfold Dev.calibrate
  split
  · rfl
  · refine Dev.foldl_keeps (·.msr.kept) (fun d c => ?_) _ d
    split
    · rfl
    · extract_lets n g p q clamped d₁ m d₂ d₃
      split
      · rw [Dev.raise_msr]
        rfl
      · rfl

theorem Judged.imp {ε α : Type} {r : Except ε α} {bad bad' : ε → Prop} {good good' : α → Prop} (h : Judged r bad good)
    (hbad : ∀ e, bad e → bad' e) (hgood : ∀ x, good x → good' x) : Judged r bad' good' := by
  cases r with
  | error e => exact hbad e h
  | ok x => exact hgood x h

theorem Dev.readFront_judged {n : Nat} (hn : n < 4) (d : Dev) (tries : List (Option Bytes)) :
    Judged (readAttempts 1 (d.frontOk n) tries)
      (fun _ => ((d.readFront n tries).modSlot n).front = none ∧ (d.readFront n tries).get F.MSR_INT_STATUS_MODULE_INVALID = 1)
      fun r => ((d.readFront n tries).modSlot n).front = some r ∧ (d.readFront n tries).get F.MSR_INT_STATUS_MODULE_VALID = 1 := by
  unfold Dev.readFront
  extract_lets m
  cases readAttempts 1 (d.frontOk n) tries with
  | error e =>
    refine ⟨?_, Dev.get_showModules_stays (by decide) (Dev.raise_self ..)⟩
    rw [Dev.modSlot_congr (d := d.setModSlot n { m with front := none }) (by simp), Dev.modSlot_setModSlot hn]
  | ok r =>
    dsimp -zeta only
    extract_lets d₁ d₂ d₃ m₃ d₄
    refine ⟨?_, Dev.get_moduleValid_of_raised (by decide) (Dev.raise_self ..) ..⟩
    have hslots : (d₄.calibrate n fun _ => 0).msr.slots = d₁.msr.slots := calc
      _ = d₄.msr.slots := (congrArg Msr.slots (d₄.calibrate_kept n fun _ => 0) :)
      _ = d₂.msr.slots := (congrArg Msr.slots (d₂.clearChans_kept fun c => c.module == n) :)
      _ = d₁.msr.slots := Dev.foldl_keeps (·.msr.slots) (by exact fun _ _ => rfl) _ d₁
    rw [Dev.modSlot, Dev.moduleValid_msr, hslots]
    exact congrArg ModSlot.front (Dev.modSlot_setModSlot hn d _)

theorem modPresentFall_shows (s : State) (n : Nat) (hn : n < 4) : Runs (.modPresentFall n) s fun d => bitAt d.msr.present n = true := by
  refine ⟨_, rfl, rfl, ?_⟩
  dsimp only
  rw [if_neg (by omega), Dev.showModules_msr]
  exact bitAt_setBitTo_same s.dev.msr.present n true

theorem modPresentRise_removes (s : State) (n : Nat) (hn : n < 4) : Runs (.modPresentRise n) s fun d =>
    bitAt d.msr.present n = false ∧ (d.modSlot n).front = none ∧ (d.modSlot n).line = none ∧
      d.get F.MSR_INT_STATUS_MODULE_REMOVED = 1 := by
  refine ⟨_, rfl, rfl, ?_⟩
  dsimp -zeta only
  rw [if_neg (by omega)]
  extract_lets m m₁ d₁ d₂ d₃
  have hmsr : (d₃.moduleChange n false).msr = (d₁.setModSlot n { m with front := none, line := none }).msr := by simp [d₃, d₂]
  rw [Dev.modSlot_congr hmsr, Dev.modSlot_setModSlot hn, hmsr]
  exact ⟨bitAt_setBitTo_same s.dev.msr.present n false, rfl, rfl, Dev.get_moduleChange_stays (by decide) (Dev.raise_self ..) ..⟩

theorem moduleRecordRead_judged (s : State) (n : Nat) (front line : List (Option Bytes)) (hn : n < 4)
    (hmsr : s.dev.trellis.msrChans ≠ []) : Runs (.moduleRecordRead n front line) s fun d =>
      Judged (readAttempts 1 (s.dev.frontOk n) front)
        (fun _ => (d.modSlot n).front = none ∧ d.get F.MSR_INT_STATUS_MODULE_INVALID = 1)
        fun r => (d.modSlot n).front = some r ∧ d.get F.MSR_INT_STATUS_MODULE_VALID = 1 := by
  refine ⟨_, rfl, rfl, ?_⟩
  dsimp only
  rw [if_neg (by simp [hmsr]; omega), Dev.readModule, Dev.front_readLine hn]
  exact (s.dev.readFront_judged hn front).imp (fun _ h => ⟨h.1, Dev.get_readLine_stays (by decide) h.2 ..⟩)
    fun _ h => ⟨h.1, Dev.get_readLine_stays (by decide) h.2 ..⟩

/-- Settles O26: the lemmas above, one for each clause. -/
theorem measurementSwapsAndModules : Obligations.MeasurementSwapsAndModules :=
  ⟨msrSwapRequest_starts, msrSwapRequest_waits, msrSwapRequest_refuses, msrFadeEnd_ends, modPresentFall_shows,
    modPresentRise_removes, moduleRecordRead_judged⟩

end Sys2Proof.Machine
namespace Sys2Proof.Machine

/-! The sample period (R141). -/

theorem pattern_lt (w : Nat) (v : Int) : pattern w v < 2 ^ w :=
  (Int.toNat_lt (Int.emod_nonneg _ (by positivity))).2 (Int.emod_lt_of_pos _ (by positivity))

theorem Dev.get_secondRms_other {y : Fld} {c : MsrChanRec} (h : y.off ≠ (F.MSR_CH_RMS_RMS.at c.channel).off) (d : Dev)
    (a : SecondAcc) : (d.secondRms a c).get y = d.get y := by
  unfold Dev.secondRms
  split
  · exact Dev.get_set_other h d _
  · exact Dev.get_set_other h (d.fresh 32).2 _

/-- The channels' RMS leaves the sample period, which is no register of a channel. -/
theorem Dev.get_foldl_secondRms_period (a : SecondAcc) {l : List MsrChanRec} (hl : ∀ c ∈ l, c.channel < 32) (d : Dev) :
    (l.foldl (fun d c => d.secondRms a c) d).get F.MSR_DT_PERIOD = d.get F.MSR_DT_PERIOD :=
  List.foldlRecOn l _ (motive := fun d' => d'.get F.MSR_DT_PERIOD = d.get F.MSR_DT_PERIOD) rfl fun (d' : Dev) hd' c hc => by
    have hoff : ∀ n < 32, F.MSR_DT_PERIOD.off ≠ (F.MSR_CH_RMS_RMS.at n).off := by decide
    rw [Dev.get_secondRms_other (hoff _ (hl c hc)), hd']

theorem Dev.servo_foldl_secondRms (a : SecondAcc) (l : List MsrChanRec) (d : Dev) :
    (l.foldl (fun d c => d.secondRms a c) d).servo = d.servo :=
  (Edits.foldl (m := 0x8000000008) _ (fun _ _ h => Dev.secondRms_edits (h := h)) l (.refl d)).get F.TSU_STATUS_STATE

theorem msrDtMeasure_locked (s : State) (bits : List Sdi) (x : Dev) (a : SecondAcc) (hx : x = s.dev.msrRun bits)
    (ha : a = x.wholeSecond) (hruns : x.msrRuns = true) (hsamples : 2 ≤ a.samples) (hservo : x.servo = Sv.locked) :
    Runs (.msrDtMeasure bits) s fun d => d.get F.MSR_DT_PERIOD = pattern 32 (satInt 32
      (narrow (((a.last - a.first) * 4096 : Nat) : Int) ((a.samples - 1 : Nat) : Int))) ∧ d.get F.MSR_STATUS_PTP_TRUSTED = 1 := by
  refine ⟨_, rfl, rfl, ?_⟩
  dsimp only
  rw [← hx, ← ha, if_neg (by simp [hruns]; omega), if_pos ((Dev.servo_foldl_secondRms ..).trans hservo)]
  refine ⟨?_, Dev.get_set_same ..⟩
  rw [Dev.get_set_clear (by decide)]
  exact (Dev.get_set_same _ F.MSR_DT_PERIOD _).trans (Nat.mod_eq_of_lt (pattern_lt ..))

theorem msrDtMeasure_unlocked (s : State) (bits : List Sdi) (x : Dev) (hx : x = s.dev.msrRun bits) (hruns : x.msrRuns = true)
    (hchans : ∀ c ∈ x.msrChans, c.channel < 32) (hsamples : 2 ≤ x.wholeSecond.samples) (hservo : x.servo ≠ Sv.locked) :
    Runs (.msrDtMeasure bits) s fun d =>
      d.get F.MSR_DT_PERIOD = x.get F.MSR_DT_PERIOD ∧ d.get F.MSR_STATUS_PTP_TRUSTED = 0 := by
  refine ⟨_, rfl, rfl, ?_⟩
  dsimp only
  rw [← hx, if_neg (by simp [hruns]; omega), if_neg (by rwa [Dev.servo_foldl_secondRms])]
  refine ⟨?_, Dev.get_set_same ..⟩
  rw [Dev.get_set_clear (by decide), Dev.get_foldl_secondRms_period _ hchans]

/-! The temperature means (R148). -/

/-- A slot's temperature mean is taken over where the last whole second has one: what MSR_CAL_UPDATE does for each slot first. -/
def Dev.keepMean (d : Dev) (n : Nat) : Dev :=
  match d.tempMean? n with
  | some v => { d with msr := { d.msr with means := Maps.put d.msr.means n v } }
  | none => d

theorem Dev.tempMean?_keepMean (d : Dev) (k n : Nat) : (d.keepMean k).tempMean? n = d.tempMean? n := by
  unfold Dev.keepMean
  split <;> rfl

theorem Dev.means_keepMean_same {d : Dev} {n : Nat} {v : Int} (h : d.tempMean? n = some v) :
    Maps.get? n (d.keepMean n).msr.means = some v := by
  rw [Dev.keepMean, h]
  exact Maps.get?_put_same ..

theorem Dev.means_keepMean_other {k n : Nat} (h : n ≠ k) (d : Dev) :
    Maps.get? n (d.keepMean k).msr.means = Maps.get? n d.msr.means := by
  unfold Dev.keepMean
  split
  · exact Maps.get?_put_other h ..
  · rfl

theorem Dev.means_foldl_keepMean {l : List Nat} {n : Nat} (hn : n ∈ l) {d : Dev} {v : Int} (h : d.tempMean? n = some v) :
    Maps.get? n (l.foldl Dev.keepMean d).msr.means = some v := by
  refine foldl_of_mem (motive := fun d => d.tempMean? n = some v → Maps.get? n d.msr.means = some v) hn ?_ ?_ d ?_
  · intro d hd
    exact Dev.means_keepMean_same ((d.tempMean?_keepMean n n).symm.trans hd)
  · intro d hd k _ hk
    by_cases hkn : n = k
    · subst hkn
      exact Dev.means_keepMean_same ((d.tempMean?_keepMean n n).symm.trans hk)
    · rw [Dev.means_keepMean_other hkn]
      exact hd ((d.tempMean?_keepMean k n).symm.trans hk)
  · rw [Dev.foldl_keeps (·.tempMean? n) fun d k => d.tempMean?_keepMean k n, h]

@[simp] theorem Dev.recalibrate_kept (d : Dev) : d.recalibrate.msr.kept = d.msr.kept := by
  unfold Dev.recalibrate
  refine Dev.foldl_keeps (·.msr.kept) (fun d n => ?_) _ d
  split
  · exact d.calibrate_kept ..
  · exact d.calibrate_kept ..

@[simp] theorem Dev.hilbertUpdate_means (d : Dev) : d.hilbertUpdate.msr.means = d.msr.means :=
  Dev.foldl_keeps (·.msr.means) (by exact fun _ _ => rfl) _ d

theorem msrCalUpdate_keeps_means (s : State) (bits : List Sdi) (x : Dev) (n : Nat) (v : Int) (hx : x = s.dev.msrRun bits)
    (hruns : x.msrRuns = true) (hn : n < 4) (hmean : x.tempMean? n = some v) :
    Runs (.msrCalUpdate bits) s fun d => Maps.get? n d.msr.means = some v := by
  refine ⟨_, rfl, rfl, ?_⟩
  dsimp -zeta only
  rw [← hx]
  extract_lets x' keep
  rw [if_neg (by simp [x', hruns]), Dev.hilbertUpdate_means]
  have hmeans : (((List.range 4).foldl keep x).recalibrate).msr.means = ((List.range 4).foldl Dev.keepMean x).msr.means :=
    (congrArg Msr.means (Dev.recalibrate_kept _) :)
  rw [hmeans]
  exact Dev.means_foldl_keepMean (List.mem_range.2 hn) hmean

/-! Latched energies (R143). -/

/-- Energy `n` of a feeder is latched, of the sixteen in `e`: what a latch does for each. -/
def Dev.latchEnergy (f : Nat) (e : List Int) (d : Dev) (n : Nat) : Dev :=
  let v := pattern 64 (e.getD n 0 / 2 ^ 32)
  (d.setReg (R.MSR_FDR_E_n_LO.at2 f n) (BitVec.ofNat 32 v)).setReg (R.MSR_FDR_E_n_HI.at2 f n) (BitVec.ofNat 32 (v / 2 ^ 32))

theorem energyLo_off {f n : Nat} (hf : f < 4) (hn : n < 16) : R.MSR_FDR_E_n_LO.at2 f n = 0x70410 + 256 * f + 8 * n := by
  show 65536 * (0x70410 / 65536) + (0x70410 % 65536 + (f * 0x100 + n * 8)) % 65536 = _
  omega

theorem energyHi_off {f n : Nat} (hf : f < 4) (hn : n < 16) : R.MSR_FDR_E_n_HI.at2 f n = 0x70414 + 256 * f + 8 * n := by
  show 65536 * (0x70414 / 65536) + (0x70414 % 65536 + (f * 0x100 + n * 8)) % 65536 = _
  omega

section
variable {f n : Nat} (hf : f < 4) (hn : n < 16) (e : List Int) (d : Dev)
include hf hn

theorem Dev.latchEnergy_same :
    (d.latchEnergy f e n).reg (R.MSR_FDR_E_n_LO.at2 f n) = BitVec.ofNat 32 (pattern 64 (e.getD n 0 / 2 ^ 32)) ∧
    (d.latchEnergy f e n).reg (R.MSR_FDR_E_n_HI.at2 f n) = BitVec.ofNat 32 (pattern 64 (e.getD n 0 / 2 ^ 32) / 2 ^ 32) := by
  have hne : R.MSR_FDR_E_n_LO.at2 f n ≠ R.MSR_FDR_E_n_HI.at2 f n := by rw [energyLo_off hf hn, energyHi_off hf hn]; omega
  exact ⟨by rw [Dev.latchEnergy, Dev.reg_setReg_other hne, Dev.reg_setReg_same], Dev.reg_setReg_same ..⟩

theorem Dev.latchEnergy_other {k : Nat} (hk : k < 16) (hkn : k ≠ n) :
    (d.latchEnergy f e k).reg (R.MSR_FDR_E_n_LO.at2 f n) = d.reg (R.MSR_FDR_E_n_LO.at2 f n) ∧
    (d.latchEnergy f e k).reg (R.MSR_FDR_E_n_HI.at2 f n) = d.reg (R.MSR_FDR_E_n_HI.at2 f n) := by
  unfold Dev.latchEnergy
  rw [energyLo_off hf hn, energyHi_off hf hn, energyLo_off hf hk, energyHi_off hf hk]
  constructor <;> rw [Dev.reg_setReg_other (by omega), Dev.reg_setReg_other (by omega)]

theorem Dev.latchEnergy_all :
    ((List.range 16).foldl (Dev.latchEnergy f e) d).reg (R.MSR_FDR_E_n_LO.at2 f n) =
      BitVec.ofNat 32 (pattern 64 (e.getD n 0 / 2 ^ 32)) ∧
    ((List.range 16).foldl (Dev.latchEnergy f e) d).reg (R.MSR_FDR_E_n_HI.at2 f n) =
      BitVec.ofNat 32 (pattern 64 (e.getD n 0 / 2 ^ 32) / 2 ^ 32) := by
  refine foldl_of_mem (motive := fun d : Dev => d.reg (R.MSR_FDR_E_n_LO.at2 f n) = _ ∧ d.reg (R.MSR_FDR_E_n_HI.at2 f n) = _)
    (List.mem_range.2 hn) (fun d => d.latchEnergy_same hf hn e) (fun d hd k hk => ?_) d
  by_cases hkn : k = n
  · exact hkn ▸ d.latchEnergy_same hf hn e
  · obtain ⟨hlo, hhi⟩ := d.latchEnergy_other hf hn e (List.mem_range.1 hk) hkn
    exact ⟨hlo.trans hd.1, hhi.trans hd.2⟩

end

theorem msrEnergyLatch_latches (s : State) (f : Nat) (bits : List Sdi) (x : Dev) (n : Nat) (hf : f < 4) (hn : n < 16)
    (hx : x = s.dev.msrRun bits) : Runs (.msrEnergyLatch f bits) s fun d =>
      d.reg (R.MSR_FDR_E_n_LO.at2 f n) = BitVec.ofNat 32 (pattern 64 ((x.msr.feeders.getD f {}).energy.getD n 0 / 2 ^ 32)) ∧
      d.reg (R.MSR_FDR_E_n_HI.at2 f n) =
        BitVec.ofNat 32 (pattern 64 ((x.msr.feeders.getD f {}).energy.getD n 0 / 2 ^ 32) / 2 ^ 32) ∧ d.msr = x.msr := by
  refine ⟨_, rfl, rfl, ?_⟩
  dsimp only
  rw [← hx, if_neg (by omega)]
  obtain ⟨hlo, hhi⟩ := x.latchEnergy_all hf hn (x.msr.feeders.getD f {}).energy
  exact ⟨hlo, hhi, Dev.foldl_keeps (·.msr) (by exact fun _ _ => rfl) _ x⟩

/-! An interval is handed over (R144). -/

/-- An interval's flags show, where it has them. -/
def Dev.flagInterval (d : Dev) (f : Nat) (k : FeederInt) : Dev :=
  let d := if 0 < k.invalid then d.setW1c (F.MSR_FDR_FLAGS_INCOMPLETE.at f) 1 else d
  let d := if k.saturated then d.setW1c (F.MSR_FDR_FLAGS_SATURATED.at f) 1 else d
  if k.untrusted then d.setW1c (F.MSR_FDR_FLAGS_TIME_UNTRUSTED.at f) 1 else d

/-- Intervals up to `b` leave a feeder's sums `a`, and the flags of interval `b` show: what a hand-over does before the zone takes
the interval. -/
def Dev.endInterval (d : Dev) (f b : Nat) (a : FeederAcc) : Dev :=
  Dev.flagInterval
    { d with msr := { d.msr with feeders := d.msr.feeders.set f { a with ints := a.ints.filter fun p => decide (b < p.1) } } }
    f (Maps.getD a.ints b {})

theorem Dev.flagInterval_same (d : Dev) (f : Nat) (k : FeederInt) :
    (d.flagInterval f k).msr = d.msr ∧ (d.flagInterval f k).trl = d.trl := by
  unfold Dev.flagInterval
  extract_lets d₁ d₂
  have h₁ : d₁.msr = d.msr ∧ d₁.trl = d.trl := by dsimp only [d₁]; split <;> exact ⟨rfl, rfl⟩
  have h₂ : d₂.msr = d.msr ∧ d₂.trl = d.trl := by dsimp only [d₂]; split <;> exact h₁
  split <;> exact h₂

theorem Dev.endInterval_trl (d : Dev) (f b : Nat) (a : FeederAcc) : (d.endInterval f b a).trl = d.trl :=
  (Dev.flagInterval_same ..).2

theorem Dev.endInterval_ints {f : Nat} (hf : f < 4) (d : Dev) (b : Nat) (a : FeederAcc) :
    ((d.endInterval f b a).msr.feeders.getD f {}).ints = a.ints.filter fun p => decide (b < p.1) := by
  rw [Dev.endInterval, (Dev.flagInterval_same ..).1]
  exact congrArg FeederAcc.ints (Four.getD_set_same hf ..)

/-- A one-bit field that hardware sets reads 1. -/
theorem Dev.get_setW1c_same (d : Dev) (x : Fld) (f : Nat) (h : x.hi < 32 := by decide) (hl : x.lo = x.hi := by decide) :
    (d.setW1c (x.at f) 1).get (x.at f) = 1 := by
  rw [Dev.get_setW1c, Dev.get_set_at_same d x f _ h hl.le, hl, Nat.add_sub_cancel_left]
  exact Nat.or_mod_two_eq_one.2 (.inr rfl)

/-- A flag that stands before other bits of the register are set stands after. -/
theorem Dev.get_ite_setW1c {x y : Fld} {d : Dev} {f : Nat} (h : d.get (y.at f) = 1) (c : Prop) [Decidable c]
    (hd : y.hi < x.lo ∨ x.hi < y.lo := by decide) (hy : y.hi < 32 := by decide) (hl : x.lo ≤ x.hi := by decide) :
    (if c then d.setW1c (x.at f) 1 else d).get (y.at f) = 1 := by
  split
  · exact (Dev.get_set_at_apart hd d f _ hy hl).trans h
  · exact h

theorem Dev.flagInterval_shows (d : Dev) (f : Nat) (k : FeederInt) :
    (0 < k.invalid → (d.flagInterval f k).get (F.MSR_FDR_FLAGS_INCOMPLETE.at f) = 1) ∧
    (k.saturated = true → (d.flagInterval f k).get (F.MSR_FDR_FLAGS_SATURATED.at f) = 1) ∧
    (k.untrusted = true → (d.flagInterval f k).get (F.MSR_FDR_FLAGS_TIME_UNTRUSTED.at f) = 1) := by
  unfold Dev.flagInterval
  extract_lets d₁ d₂
  refine ⟨fun hk => ?_, fun hk => ?_, fun hk => ?_⟩
  · have h₁ : d₁.get (F.MSR_FDR_FLAGS_INCOMPLETE.at f) = 1 := by
      dsimp only [d₁]
      rw [if_pos hk]
      exact Dev.get_setW1c_same ..
    exact Dev.get_ite_setW1c (y := F.MSR_FDR_FLAGS_INCOMPLETE) (x := F.MSR_FDR_FLAGS_TIME_UNTRUSTED)
      (Dev.get_ite_setW1c (y := F.MSR_FDR_FLAGS_INCOMPLETE) (x := F.MSR_FDR_FLAGS_SATURATED) h₁ _) _
  · have h₂ : d₂.get (F.MSR_FDR_FLAGS_SATURATED.at f) = 1 := by
      dsimp only [d₂]
      rw [if_pos hk]
      exact Dev.get_setW1c_same ..
    exact Dev.get_ite_setW1c (y := F.MSR_FDR_FLAGS_SATURATED) (x := F.MSR_FDR_FLAGS_TIME_UNTRUSTED) h₂ _
  · rw [if_pos hk]
    exact Dev.get_setW1c_same ..

theorem Dev.zone_setZone (d : Dev) (n : Nat) (x : ZoneRt) : Maps.getD (d.setZone n x).dur.bal.zones n {} = x :=
  Maps.getD_put_same ..

@[simp] theorem FeederAcc.residual_ints (a : FeederAcc) (rms limit n : Nat) : (a.residual rms limit n).1.ints = a.ints := by
  unfold FeederAcc.residual
  split
  · extract_lets b
    split <;> rfl
  · extract_lets b
    dsimp only
    split <;> rfl

@[simp] theorem Dev.raise_bal (d : Dev) (x : Fld) (a b : Nat) : (d.raise x a b).dur.bal = d.dur.bal := by
  show d.reserveEvents.dur.bal = d.dur.bal
  unfold Dev.reserveEvents
  split
  · rfl
  · split <;> rfl

section
variable {f : Nat} (hf : f < 4) (d : Dev) (z : ZoneRec)
include hf

/-- The residual current of an interval leaves the feeder's intervals, and of its zone the check energies. -/
theorem Dev.handResidual_keeps (rms : Nat) :
    ((d.handResidual f z rms).msr.feeders.getD f {}).ints = (d.msr.feeders.getD f {}).ints ∧
    (Maps.getD (d.handResidual f z rms).dur.bal.zones z.zone {}).checks = (Maps.getD d.dur.bal.zones z.zone {}).checks := by
  unfold Dev.handResidual
  extract_lets n
  split
  next a begins heq =>
  extract_lets d₁ rt d₂
  have hd₂ : (d₂.msr.feeders.getD f {}).ints = (d.msr.feeders.getD f {}).ints ∧
      (Maps.getD d₂.dur.bal.zones z.zone {}).checks = (Maps.getD d.dur.bal.zones z.zone {}).checks := by
    have ha : a.ints = (d.msr.feeders.getD f {}).ints := (congrArg (·.1.ints) heq).symm.trans (FeederAcc.residual_ints ..)
    exact ⟨(congrArg FeederAcc.ints (Four.getD_set_same hf ..)).trans ha, (congrArg ZoneRt.checks (d₁.zone_setZone ..) :)⟩
  split
  · rw [Dev.raise_msr, Dev.raise_bal]
    exact hd₂
  · exact hd₂

theorem Dev.handCheck_ints (b : Nat) (k : FeederInt) :
    ((d.handCheck f b k z).msr.feeders.getD f {}).ints = (d.msr.feeders.getD f {}).ints := by
  unfold Dev.handCheck
  extract_lets rt parts unit rms c feeds rt' d₁
  split
  · rfl
  · exact (d₁.handResidual_keeps hf z rms).1

/-- The feeder that the zone checks on adds the interval to its check energies (R241). -/
theorem Dev.handCheck_checks (b : Nat) (k : FeederInt) (hkind : z.checkKind = 0) (hid : z.checkId = f) :
    (Maps.getD (d.handCheck f b k z).dur.bal.zones z.zone {}).checks.getLast?.map (·.b) = some b := by
  unfold Dev.handCheck
  extract_lets rt parts unit rms c feeds rt' d₁
  have hrt : rt'.checks = rt.checks ++ [c] := by simp [rt', feeds, hkind, hid]
  have hd₁ : (Maps.getD d₁.dur.bal.zones z.zone {}).checks = rt.checks ++ [c] :=
    (congrArg ZoneRt.checks (d.zone_setZone ..)).trans hrt
  split
  · rw [hd₁, List.getLast?_concat]
    rfl
  · rw [(d₁.handResidual_keeps hf z rms).2, hd₁, List.getLast?_concat]
    rfl

end

theorem Dev.topZone?_congr {d d' : Dev} (h : d'.trl = d.trl) (f : Nat) : d'.topZone? f = d.topZone? f := by
  rw [Dev.topZone?, Dev.feederRec?, Dev.trellis, h, Dev.topZone?, Dev.feederRec?, Dev.trellis]

/-- A hand-over ends the feeder's interval, and the zone it checks, if any, takes the interval. -/
theorem msrIntervalHandover_runs {s : State} {f b : Nat} {bits : List Sdi} {x : Dev} {a : FeederAcc} {P : Dev → Prop} (hf : f < 4)
    (hx : x = s.dev.msrRun bits) (hruns : x.msrRuns = true) (hb : b = x.balNow - 1)
    (ha : a = (x.msr.feeders.getD f {}).closeUpTo b)
    (h : P ((x.topZone? f).elim (x.endInterval f b a) fun z => (x.endInterval f b a).handCheck f b (Maps.getD a.ints b {}) z)) :
    Runs (.msrIntervalHandover f bits) s P := by
  refine ⟨_, rfl, rfl, ?_⟩
  dsimp -zeta only
  rw [← hx]
  extract_lets x' b' a' k' m d₁ d₂ d₃ d₄
  rw [if_neg (by simp [x', hruns]; omega)]
  obtain rfl : b' = b := hb.symm
  have ha' : a' = a := ha.symm
  -- opaque from here on: what `closeUpTo` computes plays no part
  clear_value a'
  subst ha'
  have hended : d₄ = x.endInterval f b' a' := rfl
  clear_value d₄
  rw [hended, Dev.topZone?_congr (x.endInterval_trl f b' a')]
  revert h
  cases x.topZone? f with
  | none => exact id
  | some z => exact id

theorem msrIntervalHandover_ends (s : State) (f : Nat) (bits : List Sdi) (x : Dev) (k : FeederInt) (hf : f < 4)
    (hx : x = s.dev.msrRun bits) (hruns : x.msrRuns = true)
    (hk : k = Maps.getD ((x.msr.feeders.getD f {}).closeUpTo (x.balNow - 1)).ints (x.balNow - 1) {}) :
    Runs (.msrIntervalHandover f bits) s fun d => (∀ i ∈ (d.msr.feeders.getD f {}).ints, x.balNow - 1 < i.1) ∧
      (0 < k.invalid → d.get (F.MSR_FDR_FLAGS_INCOMPLETE.at f) = 1) ∧
      (k.saturated = true → d.get (F.MSR_FDR_FLAGS_SATURATED.at f) = 1) ∧
      (k.untrusted = true → d.get (F.MSR_FDR_FLAGS_TIME_UNTRUSTED.at f) = 1) := by
  obtain ⟨a, ha⟩ : ∃ a, a = (x.msr.feeders.getD f {}).closeUpTo (x.balNow - 1) := ⟨_, rfl⟩
  refine msrIntervalHandover_runs hf hx hruns rfl ha ?_
  rw [← ha] at hk
  rw [← hk]
  obtain ⟨d, hd⟩ : ∃ d, d = x.endInterval f (x.balNow - 1) a := ⟨_, rfl⟩
  have hints : ∀ i ∈ (d.msr.feeders.getD f {}).ints, x.balNow - 1 < i.1 := by
    rw [hd, Dev.endInterval_ints hf]
    exact fun i hi => by simpa using (List.mem_filter.1 hi).2
  have hflags : (0 < k.invalid → d.get (F.MSR_FDR_FLAGS_INCOMPLETE.at f) = 1) ∧
      (k.saturated = true → d.get (F.MSR_FDR_FLAGS_SATURATED.at f) = 1) ∧
      (k.untrusted = true → d.get (F.MSR_FDR_FLAGS_TIME_UNTRUSTED.at f) = 1) := by
    rw [hd, hk]
    exact Dev.flagInterval_shows ..
  rw [← hd]
  cases x.topZone? f with
  | none => exact ⟨hints, hflags⟩
  | some z =>
    have hkept (y : Fld) (hy : y.off / 65536 = 7) : (d.handCheck f (x.balNow - 1) k z).get y = d.get y :=
      (Dev.handCheck_edits (m := 0x342040014c003) (h := .refl d)).get_msr hy
    dsimp only [Option.elim]
    rw [Dev.handCheck_ints hf, hkept _ (Fld.at_block ..), hkept _ (Fld.at_block ..), hkept _ (Fld.at_block ..)]
    exact ⟨hints, hflags⟩

theorem msrIntervalHandover_checks (s : State) (f : Nat) (bits : List Sdi) (x : Dev) (z : ZoneRec) (hf : f < 4)
    (hx : x = s.dev.msrRun bits) (hruns : x.msrRuns = true) (hzone : x.topZone? f = some z) (hkind : z.checkKind = 0)
    (hid : z.checkId = f) : Runs (.msrIntervalHandover f bits) s fun d =>
      (Maps.getD d.dur.bal.zones z.zone {}).checks.getLast?.map (·.b) = some (x.balNow - 1) := by
  obtain ⟨a, ha⟩ : ∃ a, a = (x.msr.feeders.getD f {}).closeUpTo (x.balNow - 1) := ⟨_, rfl⟩
  refine msrIntervalHandover_runs hf hx hruns rfl ha ?_
  rw [hzone]
  exact Dev.handCheck_checks hf _ z _ _ hkind hid

/-- Settles O28: the lemmas above, one for each clause. -/
theorem measurementEnergy : Obligations.MeasurementEnergy :=
  ⟨fun s bits x a hx ha hruns _ => msrDtMeasure_locked s bits x a hx ha hruns, msrDtMeasure_unlocked, msrCalUpdate_keeps_means,
    msrEnergyLatch_latches, msrIntervalHandover_ends, msrIntervalHandover_checks⟩

end Sys2Proof.Machine

namespace Sys2Proof.Machine

set_option Elab.async false

/-! A reading on its way to its commit: what the end of a work item, or a change of its stage, leaves of the ingest block's
registers, of the held blocks, of the journal's last reading and of the pair's state. -/

theorem Dev.get_of_reg {d d' : Dev} {x : Fld} (h : d'.reg x.off = d.reg x.off) : d'.get x = d.get x :=
  congrArg (fun w : Word => w.toNat >>> x.lo % 2 ^ (x.hi + 1 - x.lo)) h

/-- A register of the ingest block but ING_STATUS, which shows the items in flight. -/
def ingKept (off : Nat) : Bool := off / 65536 == 4 && off != R.ING_STATUS.off

theorem ingKept_block {off : Nat} (h : ingKept off = true) : off / 65536 = 4 := by
  simp only [ingKept, Bool.and_eq_true, beq_iff_eq] at h
  exact h.1

theorem ingKept_ne {off o : Nat} (h : ingKept off = true) (ho : ingKept o = false) : off ≠ o := by
  rintro rfl
  simp [h] at ho

/-- Such a register is of no block that an event touches. -/
theorem ingKept_quiet {off : Nat} (h : ingKept off = true) : off < 4194304 ∧ regBit off = 36 := by
  have hb := ingKept_block h
  exact ⟨by omega, by rw [regBit, if_neg (by omega), hb]⟩

/-- A record's place in the ring leaves the sequence number of the last reading. -/
theorem Dev.append_lastSeq (d : Dev) (r : JRec) : (d.append r).2.jnl.lastSeq = d.jnl.lastSeq := by
  unfold Dev.append
  extract_lets
  split
  next line j hj =>
  extract_lets d₁ d₂ laps d₃
  have hd₃ : d₃.jnl.lastSeq = d.jnl.lastSeq := by
    exact (congrArg (fun p : Nat × Journal => p.2.lastSeq) hj).symm
  show (if r.ownRoot = true then d₃ else d₃.mirrorOut line r).jnl.lastSeq = _
  split
  · exact hd₃
  · rw [(Dev.mirrorOut_edits (m := 0x1000000040002) (h := .refl d₃)).jnl.resolve_left (by decide), hd₃]

theorem Dev.reserveEvents_lastSeq (d : Dev) : d.reserveEvents.jnl.lastSeq = d.jnl.lastSeq := by
  unfold Dev.reserveEvents
  split
  · rfl
  · split
    · rfl
    · exact d.append_lastSeq _

/-- `d'` agrees with `d` on the kept registers of the ingest block, the held blocks, the last reading's number and the pair's
state. -/
structure Dev.IngestKept (d d' : Dev) : Prop where
  reg : ∀ off, ingKept off = true → d'.reg off = d.reg off
  reassembly : d'.eng.reassembly = d.eng.reassembly
  lastSeq : d'.jnl.lastSeq = d.jnl.lastSeq
  prl : d.prl.SameBut d'.prl

theorem Dev.IngestKept.refl (d : Dev) : d.IngestKept d := ⟨fun _ _ => rfl, rfl, rfl, .refl _⟩

theorem Dev.IngestKept.trans {d d' d'' : Dev} (h : d.IngestKept d') (h' : d'.IngestKept d'') : d.IngestKept d'' :=
  ⟨fun off ho => (h'.reg off ho).trans (h.reg off ho), h'.reassembly.trans h.reassembly, h'.lastSeq.trans h.lastSeq, h.prl.trans h'.prl⟩

/-- A field of a kept register. -/
theorem Dev.IngestKept.get {d d' : Dev} (h : d.IngestKept d') (x : Fld) (hx : ingKept x.off = true := by decide) : d'.get x = d.get x :=
  Dev.get_of_reg (h.reg x.off hx)

section
variable {d d' : Dev} (h : d.IngestKept d')
include h

/-- An operation whose law covers none of these parts. -/
theorem Dev.IngestKept.edits {m : Nat} {d'' : Dev} (e : Edits m d' d'')
    (hm : m.testBit 11 = false ∧ m.testBit 15 = false ∧ m.testBit 18 = false ∧ m.testBit 36 = false := by decide) : d.IngestKept d'' := by
  obtain ⟨heng, hjnl, hprl, hregs⟩ := hm
  refine h.trans ⟨fun off ho => ?_, congrArg Engine.reassembly (e.eng.resolve_left (by simp [heng])),
    congrArg Journal.lastSeq (e.jnl.resolve_left (by simp [hjnl])), e.prl.resolve_left (by simp [hprl]) ▸ .refl _⟩
  obtain ⟨hlt, hbit⟩ := ingKept_quiet ho
  exact e.reg off hlt (by rw [hbit, hregs])

theorem Dev.IngestKept.set (x : Fld) (v : Nat) (hx : ingKept x.off = false := by decide) : d.IngestKept (d'.set x v) :=
  h.trans ⟨fun _ ho => Dev.reg_set_other (ingKept_ne ho hx) d' v, rfl, rfl, .refl _⟩

theorem Dev.IngestKept.raise (x : Fld) (a b : Nat) (hx : ingKept x.off = false := by decide) : d.IngestKept (d'.raise x a b) := by
  refine h.trans ⟨fun off ho => ?_, congrArg Engine.reassembly (d'.raise_eng x a b), d'.reserveEvents_lastSeq, d'.raise_prl x a b⟩
  obtain ⟨hlt, hbit⟩ := ingKept_quiet ho
  exact Dev.raise_reg (ingKept_ne ho hx) d' a b hlt (by rw [hbit]; decide)

theorem Dev.IngestKept.showIng : d.IngestKept d'.showIng := by
  unfold Dev.showIng
  exact ((h.set F.ING_STATUS_STAGING_USED _).set F.ING_STATUS_ENGINES_BUSY _).set F.ING_STATUS_PAIRED_COMMIT _

/-- A change of the engines' records that leaves the held blocks. -/
theorem Dev.IngestKept.setEng (e : Engine) (he : e.reassembly = d'.eng.reassembly) : d.IngestKept { d' with eng := e } :=
  h.trans ⟨fun _ _ => rfl, he, rfl, .refl _⟩

theorem Dev.IngestKept.setWork (meter : Nat) (w : Work) : d.IngestKept (d'.setWork meter w) := by
  unfold Dev.setWork
  extract_lets old same w'
  refine .showIng ?_
  exact h.setEng _ rfl

end

/-! The engines' records after a context is brought in, pinned, or an item ends. -/

/-- A way taken for a context changes the context cache alone. -/
theorem Dev.bringCtx_eng {d d' : Dev} {i : Nat} {ready : Bool} (h : d.bringCtx i ready = some d') :
    ∃ c k, d'.eng = { d.eng with cache := c, cacheClock := k } := by
  unfold Dev.bringCtx at h
  extract_lets set put at h
  have hput (x : Dev) : ∃ c k, (put x).eng = { x.eng with cache := c, cacheClock := k } := by
    dsimp only [put]
    split
    · exact ⟨_, _, rfl⟩
    · exact ⟨x.eng.cache, x.eng.cacheClock, rfl⟩
  split at h
  · obtain rfl := Option.some.inj h
    exact hput d
  · split at h
    · cases h
    · extract_lets changed d₁ at h
      obtain rfl := Option.some.inj h
      have hd₁ : d₁.eng = d.eng := by
        dsimp only [d₁]
        split
        · rfl
        · rfl
      obtain ⟨c, k, e⟩ := hput { d₁ with eng := { d₁.eng with cache := _ } }
      exact ⟨c, k, e.trans (by rw [← hd₁])⟩

theorem Dev.pinNow_eng (d : Dev) (i : Nat) : (d.pinNow i).eng = { d.eng with pinning := none } := Dev.raise_eng ..

/-- A waiting PIN that is tried again changes the context cache and itself. -/
theorem Dev.tryPin_eng (d : Dev) (i : Nat) : ∃ c k p, (d.tryPin i).eng = { d.eng with cache := c, cacheClock := k, pinning := p } := by
  unfold Dev.tryPin
  split
  · exact ⟨d.eng.cache, d.eng.cacheClock, none, d.pinNow_eng i⟩
  · split
    · next d' h =>
      obtain ⟨c, k, e⟩ := Dev.bringCtx_eng h
      exact ⟨c, k, none, by rw [Dev.pinNow_eng, e]⟩
    · exact ⟨d.eng.cache, d.eng.cacheClock, some i, rfl⟩

theorem Dev.IngestKept.pinNow {d d' : Dev} (h : d.IngestKept d') (i : Nat) : d.IngestKept (d'.pinNow i) := by
  unfold Dev.pinNow
  extract_lets pin e u d₁
  have h₁ : d.IngestKept d₁ := h.trans ⟨fun _ _ => rfl, rfl, rfl, .refl _⟩
  have h₂ : d.IngestKept d₁.showCtx := h₁.edits (Dev.showCtx_edits (m := 0x800000000) (h := .refl _))
  exact (((h₂.set F.CTX_STATUS_ALLOCATED _).set F.CTX_CMD_RESULT _).set F.CTX_CMD_BUSY _).raise F.CTX_INT_STATUS_CMD_DONE _ _

theorem Dev.IngestKept.bringCtx {d d' d'' : Dev} (h : d.IngestKept d') {i : Nat} {ready : Bool} (e : d'.bringCtx i ready = some d'') :
    d.IngestKept d'' := by
  have law := Dev.bringCtx_edits (m := 0x800000800) e (h := .refl d')
  obtain ⟨c, k, heng⟩ := Dev.bringCtx_eng e
  refine h.trans ⟨fun off ho => ?_, by rw [heng], congrArg Journal.lastSeq (law.jnl.resolve_left (by decide)),
    law.prl.resolve_left (by decide) ▸ .refl _⟩
  obtain ⟨hlt, hbit⟩ := ingKept_quiet ho
  exact law.reg off hlt (by rw [hbit]; decide)

theorem Dev.IngestKept.tryPin {d d' : Dev} (h : d.IngestKept d') (i : Nat) : d.IngestKept (d'.tryPin i) := by
  unfold Dev.tryPin
  split
  · exact h.pinNow i
  · split
    · next e => exact (h.bringCtx e).pinNow i
    · exact (h.setEng { d'.eng with pinning := some i } rfl).set F.CTX_CMD_BUSY 1

/-- The end of an item leaves what is kept; of the flight it takes the item alone. -/
theorem Dev.IngestKept.endWork {d d' : Dev} (h : d.IngestKept d') (meter : Nat) : d.IngestKept (d'.endWork meter) := by
  unfold Dev.endWork
  extract_lets e d₁
  have h₀ : d.IngestKept ({ d' with eng := { d'.eng with flight := Maps.del meter d'.eng.flight } }.releaseKeys meter) :=
    (h.setEng { d'.eng with flight := Maps.del meter d'.eng.flight } rfl).trans ⟨fun _ _ => rfl, rfl, rfl, .refl _⟩
  have h₁ : d.IngestKept d₁ := h₀.showIng
  split
  · exact h₁.tryPin _
  · exact h₁

theorem Dev.endWork_flight (d : Dev) (meter : Nat) : (d.endWork meter).eng.flight = Maps.del meter d.eng.flight := by
  unfold Dev.endWork
  extract_lets e d₁
  split
  · next i _ =>
    obtain ⟨c, k, p, e⟩ := d₁.tryPin_eng i
    rw [e]
    rfl
  · rfl

/-- An ended item is gone. -/
theorem Dev.endWork_gone (d : Dev) (meter : Nat) : Maps.get? meter (d.endWork meter).eng.flight = none := by
  rw [Dev.endWork_flight, Maps.get?_del_same]

/-- An item just put, whatever its time. -/
theorem Dev.setWork_item (d : Dev) (meter : Nat) (w : Work) :
    ∃ t, Maps.get? meter (d.setWork meter w).eng.flight = some { w with since := t } := by
  unfold Dev.setWork
  extract_lets old same w'
  refine ⟨w'.since, (Maps.get?_put_same meter w' d.eng.flight).trans ?_⟩
  dsimp only [w']
  split
  · rfl
  · rfl

end Sys2Proof.Machine

namespace Sys2Proof.Machine

set_option Elab.async false

/-! The resources an item takes, one after the other (R198, R199). -/

/-- The next step of an item's acquisitions: the resource of its stage, where its stage takes one. -/
def Dev.takeNext (d : Dev) (meter : Nat) (w : Work) : Dev :=
  match w.stage with
  | .wantContext => d.wantContext meter w
  | .wantKey => d.wantKey meter w
  | .wantLane => d.wantLane meter w
  | .wantRing => d.wantRing meter w
  | _ => d

section
variable {d : Dev} {meter : Nat} {w : Work} (hw : Maps.get? meter d.eng.flight = some w) (hjob : w.stage ≠ .crypto ∨ w.job = none)
include hw hjob

/-- An item that has no job of its own to do goes on for as long as its stage changes. -/
theorem Dev.advance_succ (k : Nat) : Dev.advance (k + 1) meter d =
    if (Maps.get? meter (d.takeNext meter w).eng.flight).map (·.stage) = some w.stage then d.takeNext meter w
    else Dev.advance k meter (d.takeNext meter w) := by
  rw [Dev.advance, hw]
  dsimp only
  split
  · next j hs hj => simp [hs, hj] at hjob
  · unfold Dev.takeNext
    cases w.stage <;> rfl

/-- An item that takes nothing stays as it is. -/
theorem Dev.advance_of_takeNext_eq (h : d.takeNext meter w = d) (k : Nat) : Dev.advance k meter d = d := by
  cases k with
  | zero => rfl
  | succ k => rw [Dev.advance_succ hw hjob, h, hw, Option.map_some, if_pos rfl]

/-- One step that changes the stage, after which nothing is taken. -/
theorem Dev.advance_one {w' : Work} (hw' : Maps.get? meter (d.takeNext meter w).eng.flight = some w') (hjob' : w'.stage ≠ .crypto ∨ w'.job = none)
    (hstage : w'.stage ≠ w.stage) (hstop : (d.takeNext meter w).takeNext meter w' = d.takeNext meter w) (k : Nat) :
    Dev.advance (k + 1) meter d = d.takeNext meter w := by
  rw [Dev.advance_succ hw hjob, hw', Option.map_some, if_neg (by simpa using hstage), Dev.advance_of_takeNext_eq hw' hjob' hstop]

end

/-! The commit of a reading that leaves nothing but its mark (R171 to R173). -/

/-- The item's reading is `r`, a rejected one of a wireless M-Bus frame that emits no record and brings no key, report, event or block. -/
structure Work.Quiet (w : Work) (r : ReadingRec) : Prop where
  reading : w.reading = some r
  rejected : r.rejected = true
  noRecord : r.noRecord = true
  classAk : r.classAk = false
  candKey : r.candKey = false
  mbus : w.staged.frame.mbus = true
  events : w.parsed.events = []
  report : w.report = none
  apdu : w.apdu = none
  blocks : w.blocks = []

section
variable {w : Work} {r : ReadingRec} (hq : w.Quiet r)
include hq

theorem Work.Quiet.recordRing (d : Dev) : w.recordRing d = none := by
  rw [Work.recordRing, hq.reading]
  exact if_pos (.inl hq.noRecord)

/-- Its commit is counted and ends the item (R173). -/
theorem Work.Quiet.commitItem {d : Dev} {meter : Nat} (hw : Maps.get? meter d.eng.flight = some w)
    (hheld : Maps.has d.eng.reassembly meter = false) : d.commitItem meter = (d.count R.ING_CNT_n 11).endWork meter := by
  unfold Dev.commitItem
  simp -zeta only [hw, hq.reading]
  extract_lets d₁ d₂ d₃ d₄ d₅ d₆ d₇ eng d₈
  have h₂ : d₂ = d₁ := if_pos hq.mbus
  have h₃ : d₃ = d₁ := by
    dsimp only [d₃]
    rw [hq.recordRing]
    exact h₂
  have h₅ : d₅ = d₁.endWork meter := by
    dsimp only [d₅, d₄]
    rw [hq.events, h₃]
    rfl
  have h₆ : d₆ = d₁.endWork meter := by
    dsimp only [d₆]
    rw [hq.report, h₅]
  have h₇ : d₇ = d₁.endWork meter := by
    dsimp only [d₇]
    rw [hq.apdu, h₆]
    rfl
  have h₈ : d₈ = d₁.endWork meter := by
    dsimp only [d₈]
    have hnone : Maps.has (d₁.endWork meter).eng.reassembly meter = false := by
      rw [((Dev.IngestKept.refl d₁).endWork meter).reassembly]
      exact hheld
    rw [if_pos hq.blocks, h₇, Dev.dropBlocks, if_neg (by simp [hnone])]
  rw [if_neg (by simp [hq.classAk]), h₈]

end

/-- A rejected reading credits nothing. -/
theorem Dur.reading_rejected {r : ReadingRec} (h : r.rejected = true) (e : ReadEnv) (u : Dur) (kept : Bool) : (u.reading e r kept).2 = {} := by
  rw [Dur.reading, if_pos (.inl h)]

/-- Nothing to note at the append. -/
theorem Dev.appendNote_nothing (d : Dev) (r : ReadingRec) : d.appendNote r {} = (r, d.countBy R.BAL_CNT_n 3 0) := by
  rw [Dev.appendNote]
  exact if_neg (by simp)

/-- A synchronised standby is known from PRL_STATUS and the pair's state. -/
theorem Dev.standbySynced_of_edits {m : Nat} {d d' : Dev} (h : Edits m d d') (hm : m.testBit 18 = false ∧ m.testBit 31 = false := by decide) :
    d'.standbySynced = d.standbySynced := by
  obtain ⟨hprl, hregs⟩ := hm
  rw [Dev.standbySynced, Dev.pairState, h.get F.PRL_STATUS_STATE (by decide) hregs, h.get F.PRL_STATUS_PARTNER_STATE (by decide) hregs,
    h.prl.resolve_left (by simp [hprl]), Dev.standbySynced, Dev.pairState]

/-- The item once its reading is appended, as `r` in `line`: it waits for the mirror. -/
def Work.appended (w : Work) (r : ReadingRec) (line : Nat) (before : Option CampMember) : Work :=
  { w with reading := some r, stage := .mirror, line := line, held := 5 :: w.held, before := before }

/-- `d'` is `d` once the meter's item has committed its reading under the next sequence number (R172). -/
structure Dev.CommitsTo (d : Dev) (meter : Nat) (d' : Dev) : Prop where
  lastSeq : d'.jnl.lastSeq = d.dur.seqNext
  counted : d.counted d' R.ING_CNT_n 11
  gone : Maps.get? meter d'.eng.flight = none

theorem Dev.CommitsTo.of_kept {d d₁ d' : Dev} {meter : Nat} (h : d₁.CommitsTo meter d') (hkept : d.IngestKept d₁) (hdur : d₁.dur = d.dur) :
    d.CommitsTo meter d' := by
  refine ⟨hdur ▸ h.lastSeq, ?_, h.gone⟩
  rw [Dev.counted, ← hkept.reg _ (by decide)]
  exact h.counted

/-- Without a synchronised standby, the append of such a reading under the next sequence number is its commit (R24, R172). -/
theorem Work.Quiet.appendReading {w : Work} {r : ReadingRec} (hq : w.Quiet r) {d : Dev} {meter : Nat}
    (hheld : Maps.has d.eng.reassembly meter = false) (halone : d.standbySynced = false) :
    d.CommitsTo meter (d.appendReading meter w) := by
  unfold Dev.appendReading
  simp -zeta only [hq.reading]
  extract_lets +onlyGivenNames rep src body r₁
  have hnote : d.appendNote r₁ (d.dur.reading (d.workEnv w) r₁ true).2 = (r₁, d.countBy R.BAL_CNT_n 3 0) := by
    rw [Dur.reading_rejected (r := r₁) hq.rejected, Dev.appendNote_nothing]
  simp -zeta only [hnote]
  have hnoted : Edits 0x20000000000 d (d.countBy R.BAL_CNT_n 3 0) := Dev.countBy_lit_edits (h := .refl d)
  have halone' : (d.countBy R.BAL_CNT_n 3 0).standbySynced = false := (Dev.standbySynced_of_edits hnoted).trans halone
  generalize happ : (d.countBy R.BAL_CNT_n 3 0).append (.reading r₁) = p
  obtain ⟨line, d₂⟩ := p
  have happended : Edits 0x1420000048002 d d₂ := Dev.append_edits happ (h := hnoted.mono)
  simp -zeta only [halone']
  extract_lets paired jnl d₃ d₄ d₅ d₆
  have h₅ : d₅ = d₃ := by
    have h₄ : d₄ = d₃ := by
      dsimp only [d₄]
      rw [hq.recordRing]
    dsimp only [d₅]
    rw [h₄, Dev.keysCommitted, if_neg (by simp [r₁, hq.candKey])]
  have hkept : d₃.IngestKept d₆ := by
    dsimp only [d₆]
    rw [h₅]
    exact (Dev.IngestKept.refl d₃).setWork _ _
  obtain ⟨t, hitem⟩ := d₅.setWork_item meter (w.appended r₁ line (rep.map (·.2.1)))
  have hquiet : ({ w.appended r₁ line (rep.map (·.2.1)) with since := t } : Work).Quiet r₁ :=
    ⟨rfl, hq.rejected, hq.noRecord, hq.classAk, hq.candKey, hq.mbus, hq.events, hq.report, hq.apdu, hq.blocks⟩
  have hcommit : d₆.commitItem meter = (d₆.count R.ING_CNT_n 11).endWork meter := by
    refine hquiet.commitItem hitem ?_
    rw [hkept.reassembly]
    show Maps.has d₂.eng.reassembly meter = false
    rw [happended.eng.resolve_left (by decide)]
    exact hheld
  have hend := (Dev.IngestKept.refl (d₆.count R.ING_CNT_n 11)).endWork meter
  rw [if_neg (by simp [paired]), hcommit]
  refine ⟨?_, ?_, Dev.endWork_gone ..⟩
  · rw [hend.lastSeq]
    exact hkept.lastSeq
  · have hsame : d₆.reg (R.ING_CNT_n.at 11) = d.reg (R.ING_CNT_n.at 11) :=
      (hkept.reg _ (by decide)).trans (happended.reg _)
    rw [Dev.counted, hend.reg _ (by decide), ← hsame]
    exact d₆.count_counted _ _


end Sys2Proof.Machine

namespace Sys2Proof.Machine

set_option Elab.async false

/-- The item at another stage, whenever it came there. -/
theorem Work.Quiet.at {w : Work} {r : ReadingRec} (hq : w.Quiet r) (st : Stage) (t : Nat) : ({ w with stage := st, since := t } : Work).Quiet r :=
  ⟨hq.reading, hq.rejected, hq.noRecord, hq.classAk, hq.candKey, hq.mbus, hq.events, hq.report, hq.apdu, hq.blocks⟩

section
variable {d d' : Dev} {m : Nat} (h : Edits m d d')
include h

/-- Whether the device commits is known from PRL_STATUS and the device's own state. -/
theorem Dev.commits_of_edits (hm : m.testBit 5 = false ∧ m.testBit 31 = false := by decide) : d'.commits = d.commits := by
  obtain ⟨hglb, hregs⟩ := hm
  rw [Dev.commits, Dev.serves, Dev.pairState, h.get F.PRL_STATUS_STATE (by decide) hregs, h.glb.resolve_left (by simp [hglb]), Dev.commits,
    Dev.serves, Dev.pairState]

/-- Room for a reading without a record is known from the journal and NFM_STATUS. -/
theorem Dev.journalRoom_none_of_edits (hm : m.testBit 15 = false ∧ m.testBit (regBit F.NFM_STATUS_STATE.off) = false := by decide) :
    d'.journalRoom none = d.journalRoom none := by
  obtain ⟨hjnl, hregs⟩ := hm
  rw [Dev.journalRoom, Dev.media, h.get F.NFM_STATUS_STATE (by decide) hregs, h.jnl.resolve_left (by simp [hjnl]), Dev.journalRoom, Dev.media]

end

/-- The end of a stall that no condition shows. -/
theorem Dev.stall_off {d : Dev} (h : d.flag F.HLT_CONDITION_JOURNAL_STALL = false) : d.stall false = d.set F.JNL_STATUS_STALL 0 := by
  have hoff : d.get F.HLT_CONDITION_JOURNAL_STALL = 0 := by simpa [Dev.flag] using h
  have hsame : (d.set F.JNL_STATUS_STALL 0).get F.HLT_CONDITION_JOURNAL_STALL = b2n false :=
    (Dev.get_set_other (by decide) d 0).trans hoff
  rw [Dev.stall, if_neg (by simp), Dev.condition, if_pos hsame]

/-- `d` commits, has journal space for a reading without a record, shows no stall, and has no standby to wait for. -/
structure Dev.ReadyAlone (d : Dev) (meter : Nat) : Prop where
  held : Maps.has d.eng.reassembly meter = false
  commits : d.commits = true
  room : d.journalRoom none = true
  unstalled : d.flag F.HLT_CONDITION_JOURNAL_STALL = false
  alone : d.standbySynced = false

section
variable {d : Dev} {meter : Nat}

theorem Dev.ReadyAlone.setWork (h : d.ReadyAlone meter) (w : Work) : (d.setWork meter w).ReadyAlone meter := by
  have hlaw : Edits 0x1000000800 d (d.setWork meter w) := Dev.setWork_edits (h := .refl d)
  refine ⟨?_, (Dev.commits_of_edits hlaw).trans h.commits, (Dev.journalRoom_none_of_edits hlaw).trans h.room, ?_,
    (Dev.standbySynced_of_edits hlaw).trans h.alone⟩
  · rw [((Dev.IngestKept.refl d).setWork meter w).reassembly]
    exact h.held
  · rw [Dev.flag, hlaw.get F.HLT_CONDITION_JOURNAL_STALL]
    exact h.unstalled

theorem Dev.CommitsTo.of_setWork {d' : Dev} {w : Work} (h : (d.setWork meter w).CommitsTo meter d') : d.CommitsTo meter d' :=
  h.of_kept ((Dev.IngestKept.refl d).setWork meter w) rfl

variable {w : Work} {r : ReadingRec} (hq : w.Quiet r) (hready : d.ReadyAlone meter)
include hq hready

/-- The grant of journal space is the append, and the append the commit (R24, R199). -/
theorem Work.Quiet.wantJournal : d.CommitsTo meter (d.wantJournal meter w) := by
  have hgrant : d.wantJournal meter w = (d.set F.JNL_STATUS_STALL 0).appendReading meter w := by
    rw [Dev.wantJournal, hq.recordRing]
    dsimp only [Option.map]
    rw [if_neg (by simp [hready.commits]), if_pos hready.room, Dev.stall_off hready.unstalled]
  have hlaw : Edits 0x400000000000 d (d.set F.JNL_STATUS_STALL 0) := Dev.set_edits (h := .refl d)
  rw [hgrant]
  exact (hq.appendReading (d := d.set F.JNL_STATUS_STALL 0) hready.held ((Dev.standbySynced_of_edits hlaw).trans hready.alone)).of_kept
    ((Dev.IngestKept.refl d).set F.JNL_STATUS_STALL 0) rfl

/-- An item that waits for its record's room and emits none goes on to its commit. -/
theorem Work.Quiet.run (hw : Maps.get? meter d.eng.flight = some w) (hstage : w.stage = .wantRing) (hjob : w.job = none) :
    d.CommitsTo meter (d.run meter) := by
  have htake : d.takeNext meter w = d.setWork meter { w with stage := .wantJournal } := by
    rw [Dev.takeNext, hstage]
    dsimp only
    rw [Dev.wantRing, hq.recordRing]
  obtain ⟨t, hitem⟩ := d.setWork_item meter { w with stage := .wantJournal }
  have hadvance : Dev.advance 4 meter d = d.setWork meter { w with stage := .wantJournal } := by
    rw [← htake] at hitem ⊢
    exact Dev.advance_one hw (.inr hjob) hitem (.inr hjob) (by simp [hstage]) rfl 3
  rw [Dev.run, hadvance, hitem]
  exact ((hq.at .wantJournal t).wantJournal (hready.setWork _)).of_setWork

end

end Sys2Proof.Machine

namespace Sys2Proof.Machine

set_option Elab.async false

section
variable {s : State} {meter : Nat} {w : Work} {r : ReadingRec} {c : Ctx} {k : MeterClass}
  (hw : Maps.get? meter s.dev.eng.flight = some w) (hstage : w.stage = .parse) (hreading : w.reading = some r)
  (hc : Maps.get? meter s.dev.dur.ctxs = some c) (hk : (w.old.getD s.dev.trellis).class? w.cls = some k)
include hw hstage hreading hc hk

/-- A parse ends in the reading that billing takes (R163 to R170). -/
theorem parseDone_bills : Runs (.parseDone meter) s fun d => (Maps.get? meter d.eng.flight).map (·.stage) = some .billing := by
  refine ⟨_, rfl, rfl, ?_⟩
  dsimp -zeta only
  simp -zeta only [hw, hstage, hreading, hc, if_true]
  extract_lets t f zx env rxNs
  simp -zeta only [show t.class? w.cls = some k from hk]
  extract_lets
  obtain ⟨_, hitem⟩ := Dev.setWork_item _ meter _
  rw [hitem]
  rfl

/-- A frame of another form is rejected, with its code, and counted (R163). -/
theorem parseDone_rejects (hform : w.staged.frame.formOk = false) : Runs (.parseDone meter) s fun d =>
    d.get F.ING_LAST_REJECT_CODE = Rej.unsupported ∧ d.get F.ING_INT_STATUS_REJECTED = 1 ∧ s.dev.counted d R.ING_CNT_n 7 := by
  refine ⟨_, rfl, rfl, ?_⟩
  dsimp -zeta only
  simp -zeta only [hw, hstage, hreading, hc, if_true]
  extract_lets t f zx env rxNs
  simp -zeta only [show t.class? w.cls = some k from hk, show w.refusal c.a = Rej.unsupported from if_pos hform]
  extract_lets refused ts0 v d₁ d₂ rej d₃ d₄ quality a body r'
  have hrefused : d₄ = ((((s.dev.count R.ING_CNT_n 7).set F.ING_LAST_REJECT_CODE Rej.unsupported).set F.ING_LAST_REJECT_METER meter).raise
      F.ING_INT_STATUS_REJECTED meter Rej.unsupported) := rfl
  have hkept := (Dev.IngestKept.refl d₄).setWork meter
  rw [(hkept _).get F.ING_LAST_REJECT_CODE, (hkept _).get F.ING_INT_STATUS_REJECTED, Dev.counted, (hkept _).reg _ (by decide), hrefused]
  refine ⟨?_, Dev.raise_self .., ?_⟩
  · rw [Dev.raise_get, Dev.get_set_other (by decide), Dev.get_set_apart (by decide) (by decide) (by decide),
      Dev.get_set_same _ F.ING_LAST_REJECT_CODE]
    rfl
  · rw [Dev.raise_reg (by decide) _ _ _ (by decide) (by decide), Dev.reg_set_other (by decide), Dev.reg_set_other (by decide)]
    exact s.dev.count_counted _ _

end

/-- A rejected reading without a record commits under the next sequence number as its billing ends (R24, R170, R172). -/
theorem billingUpdateDone_commits {s : State} {meter : Nat} {w : Work} {r : ReadingRec} (hw : Maps.get? meter s.dev.eng.flight = some w)
    (hstage : w.stage = .billing) (hq : w.Quiet r) (htampers : r.tampers = []) (hjob : w.job = none)
    (hready : s.dev.ReadyAlone meter) : Runs (.billingUpdateDone meter) s fun d =>
      d.jnl.lastSeq = s.dev.dur.seqNext ∧ s.dev.counted d R.ING_CNT_n 11 ∧ Maps.get? meter d.eng.flight = none := by
  refine ⟨_, rfl, rfl, ?_⟩
  dsimp -zeta only
  simp -zeta only [hw, hstage, hq.reading, if_true, Dur.reading_rejected hq.rejected, htampers]
  extract_lets before after bill d₁ d₂ d₃ d₄ d₅ d₆ d₇ d₈ quality src body
  have hsame : d₈ = s.dev := rfl
  rw [hsame]
  generalize hr' : ReadingRec.mk .. = r'
  generalize hw' : ({ w with reading := some r', stage := .wantRing } : Work) = w'
  have hquiet (t : Nat) : ({ w' with since := t } : Work).Quiet r' := by
    subst hw' hr'
    exact ⟨rfl, hq.rejected, hq.noRecord, hq.classAk, hq.candKey, hq.mbus, hq.events, hq.report, hq.apdu, hq.blocks⟩
  obtain ⟨t, hitem⟩ := s.dev.setWork_item meter w'
  obtain ⟨hseq, hcount, hgone⟩ := ((hquiet t).run (hready.setWork w') hitem (by rw [← hw']) (by rw [← hw']; exact hjob)).of_setWork
  exact ⟨hseq, hcount, hgone⟩

/-- A block transfer that takes too long is discarded and counted (R166). -/
theorem reassemblyTimeout_discards (s : State) (meter : Nat) (r : Reassembly) (hr : Maps.get? meter s.dev.eng.reassembly = some r)
    (hlate : r.since + cyclesOf (1000000 * s.dev.get F.ING_TIMEOUT_REASSEMBLY) < s.dev.cycles) : Runs (.reassemblyTimeout meter) s fun d =>
      Maps.get? meter d.eng.reassembly = none ∧ s.dev.counted d R.ING_CNT_n 15 ∧ d.get F.ING_INT_STATUS_REASSEMBLY_DISCARD = 1 := by
  refine ⟨_, rfl, rfl, ?_⟩
  dsimp only
  rw [hr]
  dsimp only
  rw [if_pos hlate, Dev.dropBlocks, if_pos (by simp [Maps.has, hr])]
  refine ⟨?_, ?_, Dev.raise_self ..⟩
  · rw [Dev.raise_eng]
    exact Maps.get?_del_same ..
  · rw [Dev.counted, Dev.raise_reg (by decide) _ _ _ (by decide) (by decide)]
    exact Dev.count_counted _ _ _

/-- A confirmation that does not come makes the append of the reading that waits its commit (R173). -/
theorem mirrorWaitExpire_commits (s : State) (meter : Nat) (w : Work) (r : ReadingRec) (hflight : s.dev.eng.flight = [(meter, w)])
    (hstage : w.stage = .mirror) (hq : w.Quiet r) (hheld : Maps.has s.dev.eng.reassembly meter = false)
    (hlate : w.since + cyclesOf (1000 * s.dev.get F.ING_TIMEOUT_MIRROR_WAIT) < s.dev.cycles) : Runs .mirrorWaitExpire s fun d =>
      d.get F.ING_INT_STATUS_MIRROR_LOST = 1 ∧ d.prl.unsynced = true ∧ s.dev.counted d R.ING_CNT_n 11 ∧ d.eng.flight = [] := by
  refine ⟨_, rfl, rfl, ?_⟩
  dsimp -zeta only
  have hwaiting : s.dev.eng.flight.filter (fun p => p.2.stage == .mirror) = [(meter, w)] := by simp [hflight, hstage]
  simp -zeta only [hwaiting]
  extract_lets waiting late d₁ prl d₂
  rw [if_neg (by simp [waiting, late, hlate])]
  have hshown : Dev.IngestKept { d₁ with prl := { d₁.prl with unsynced := true } } d₂ := (Dev.IngestKept.refl _).showIng
  have heng : d₂.eng = s.dev.eng := s.dev.raise_eng F.ING_INT_STATUS_MIRROR_LOST 0 0
  have hcommit : (waiting.map (·.1)).foldl Dev.commitItem d₂ = (d₂.count R.ING_CNT_n 11).endWork meter :=
    hq.commitItem (by rw [heng, hflight]; simp [Maps.get?]) (by rw [heng]; exact hheld)
  have hend := (Dev.IngestKept.refl (d₂.count R.ING_CNT_n 11)).endWork meter
  rw [hcommit, hend.get F.ING_INT_STATUS_MIRROR_LOST, hend.prl.unsynced, Dev.counted, hend.reg _ (by decide), Dev.endWork_flight]
  refine ⟨?_, hshown.prl.unsynced, ?_, ?_⟩
  · have hraised : d₂.get F.ING_INT_STATUS_MIRROR_LOST = 1 := (hshown.get F.ING_INT_STATUS_MIRROR_LOST).trans (Dev.raise_self ..)
    exact (Dev.get_of_reg (Dev.count_reg_other (by decide) d₂)).trans hraised
  · have hsame : d₂.reg (R.ING_CNT_n.at 11) = s.dev.reg (R.ING_CNT_n.at 11) :=
      (hshown.reg _ (by decide)).trans (Dev.raise_reg (by decide) _ _ _ (by decide) (by decide))
    rw [← hsame]
    exact d₂.count_counted _ _
  · show Maps.del meter d₂.eng.flight = []
    rw [heng, hflight]
    simp [Maps.del]

/-- Settles O24: the lemmas above, one for each clause. -/
theorem ingestCommit : Obligations.IngestCommit :=
  ⟨fun _ _ _ _ _ _ => parseDone_bills, fun _ _ _ _ _ _ => parseDone_rejects,
    fun _ _ _ _ hw hstage hr hrej hrec htampers hak hcand hmbus hjob hev hrep hap hbl hheld hcom hroom _ hstall halone =>
      billingUpdateDone_commits hw hstage ⟨hr, hrej, hrec, hak, hcand, hmbus, hev, hrep, hap, hbl⟩ htampers hjob
        ⟨hheld, hcom, hroom, hstall, halone⟩,
    fun _ _ _ _ hf hstage hr hrej hrec _ hak hcand hmbus hev hrep hap hbl hheld hlate =>
      mirrorWaitExpire_commits _ _ _ _ hf hstage ⟨hr, hrej, hrec, hak, hcand, hmbus, hev, hrep, hap, hbl⟩ hheld hlate,
    reassemblyTimeout_discards⟩

end Sys2Proof.Machine

namespace Sys2Proof.Machine

set_option Elab.async false

/-! The security check of a frame, and the decision on its counter (R158 to R164). -/

@[simp] theorem Dev.showIng_eng (d : Dev) : d.showIng.eng = d.eng := rfl

/-- An item that ends as its frame raises a bit of the ingest block shows that bit, and is gone. -/
theorem Dev.endWork_raised (d : Dev) (meter : Nat) (x : Fld) (a b : Nat) (hx : ingKept x.off = true := by decide)
    (h : x.hi < 32 := by decide) (hl : x.lo = x.hi := by decide) :
    ((d.raise x a b).endWork meter).showIng.get x = 1 ∧ Maps.get? meter ((d.raise x a b).endWork meter).showIng.eng.flight = none := by
  obtain ⟨hlt, hbit⟩ := ingKept_quiet hx
  refine ⟨?_, Dev.endWork_gone ..⟩
  rw [(((Dev.IngestKept.refl _).endWork meter).showIng).get x hx]
  exact Dev.raise_self d x a b hlt (by rw [hbit]; decide) h hl

/-- A frame that brings no status report goes on to its parse (R163). -/
theorem Dev.goOn_parses (d : Dev) (meter : Nat) {w : Work} (counters : List Nat) (h : w.staged.frame.statusIe = none) :
    ∃ r t, Maps.get? meter (d.goOn meter w counters).eng.flight = some { w with reading := some r, stage := .parse, since := t } := by
  have hreport (x : Dev) : x.takeReport meter w = (w, x) := by rw [Dev.takeReport, h]
  unfold Dev.goOn
  rw [hreport]
  dsimp only
  rw [if_neg (by simp [h])]
  exact ⟨_, Dev.setWork_item ..⟩

/-- The item whose frame a key has decrypted to `p`. -/
def Work.decrypted (w : Work) (cand : Bool) (p : Bytes) : Work :=
  { w with verified := true, held := w.held.filter (· ≠ 3), cand := cand, payload := p }

section
variable {d : Dev} {meter : Nat} {w : Work} {c : Ctx} (hc : Maps.get? meter d.dur.ctxs = some c) (hopen : d.keyLocked = false)
include hc hopen

/-- A frame that no key verifies fails authentication (R159). -/
theorem Dev.decideFrame_fails
    (hv : d.verifySet meter ((((w.old.getD d.trellis).class? w.cls).map (·.security)).getD 0) w.staged.frame = none) :
    d.decideFrame meter w = d.authFail meter := by
  unfold Dev.decideFrame
  dsimp only
  rw [hc]
  dsimp only
  rw [if_neg (by simp [hopen]), hv]

variable {k : KeySet} {cand : Bool} {p : Bytes}
  (hv : d.verifySet meter ((((w.old.getD d.trellis).class? w.cls).map (·.security)).getD 0) w.staged.frame = some (k, cand, p))
include hv

/-- The stored counter with another digest is a reuse (R160). -/
theorem Dev.decideFrame_reuse (hcand : cand = false) (hm : w.staged.frame.counter = c.m) (hdig : w.staged.frame.digest ≠ c.digest) :
    d.decideFrame meter w =
      ((((d.count R.ING_CNT_n 4).count R.ING_CNT_n 6).stat meter 2).raise F.ING_INT_STATUS_COUNTER_REUSE meter).endWork meter := by
  unfold Dev.decideFrame
  dsimp only
  rw [hc]
  dsimp only
  rw [if_neg (by simp [hopen]), hv]
  dsimp only
  rw [if_neg (by simp [hdig]), if_pos ⟨hcand, hm⟩]

/-- A lower counter is a replay (R160). -/
theorem Dev.decideFrame_replay (hcand : cand = false) (hm : w.staged.frame.counter < c.m) :
    d.decideFrame meter w = (((d.count R.ING_CNT_n 4).stat meter 2).raise F.ING_INT_STATUS_REPLAY meter).endWork meter := by
  unfold Dev.decideFrame
  dsimp only
  rw [hc]
  dsimp only
  rw [if_neg (by simp [hopen]), hv]
  dsimp only
  rw [if_neg (by omega), if_neg (by omega), if_pos ⟨hcand, .inl hm⟩]

/-- A higher counter is new, and its plaintext is taken (R160, R162). -/
theorem Dev.decideFrame_new (hmedium : w.staged.frame.medium ≠ 2) (hm : c.m < w.staged.frame.counter) (hin : c.inExhausted = false) :
    d.decideFrame meter w = d.takePlain meter (w.decrypted cand p) ((w.old.getD d.trellis).dlmsClass w.cls) k.global := by
  unfold Dev.decideFrame
  dsimp only
  rw [hc]
  dsimp only
  rw [if_neg (by simp [hopen]), hv]
  dsimp only
  rw [if_neg (by omega), if_neg (by omega), if_neg (by simp [hin]; omega), Work.withPlain]
  dsimp only
  rw [if_neg (by simp [hmedium])]
  rfl

end

section
variable (d : Dev) (meter : Nat) {w : Work} (global : Nat) (hie : w.staged.frame.statusIe = none)
include hie

/-- The plaintext of a meter without a DLMS/COSEM graph is parsed as it is. -/
theorem Dev.takePlain_parses :
    ∃ r t, Maps.get? meter (d.takePlain meter w false global).eng.flight = some { w with reading := some r, stage := .parse, since := t } := by
  rw [Dev.takePlain, if_pos (.inr rfl)]
  exact d.goOn_parses meter _ hie

/-- A PDU whose form is refused goes on with its refusal (R163, R170). -/
theorem Dev.takePlain_refuses (hblock : w.payload.u8 0 ≠ 0xE0) (hform : apduRefusal (parseApdu w.payload) ≠ 0) :
    ∃ r t, Maps.get? meter (d.takePlain meter w true global).eng.flight =
      some { w with refused := apduRefusal (parseApdu w.payload), reading := some r, stage := .parse, since := t } := by
  unfold Dev.takePlain
  dsimp only
  rw [if_neg (by simp [hie]), if_neg hblock, Dev.checkApdu]
  dsimp only
  rw [if_neg hform]
  exact d.goOn_parses meter (w := { w with refused := _ }) _ hie

end

section
variable {s : State} {meter : Nat} {w : Work} {c : Ctx} (hw : Maps.get? meter s.dev.eng.flight = some w) (hstage : w.stage = .crypto)
  (hc : Maps.get? meter s.dev.dur.ctxs = some c) (hopen : s.dev.keyLocked = false) (hsecurity : w.staged.frame.security ≠ 0x85)
  (hmedium : w.staged.frame.medium ≠ 2)
include hw hstage hsecurity hmedium

/-- The end of a lane decides a frame that carries its counter whole. -/
theorem cryptoLaneDone_decides {P : Dev → Prop} (h : P (s.dev.decideFrame meter w).showIng) : Runs (.cryptoLaneDone (.frame meter)) s P := by
  refine ⟨_, rfl, rfl, ?_⟩
  dsimp only
  rw [hw]
  dsimp only
  rw [if_neg (by simp [hstage]), if_neg hsecurity, if_neg hmedium]
  exact h

include hc hopen

/-- R159, R160: a frame with a lower counter fails, or is a replay. -/
theorem cryptoLaneDone_replay (hm : w.staged.frame.counter < c.m) : Runs (.cryptoLaneDone (.frame meter)) s fun d =>
    (s.dev.verifySet meter ((((w.old.getD s.dev.trellis).class? w.cls).map (·.security)).getD 0) w.staged.frame).elim
      (d.get F.ING_INT_STATUS_AUTH_FAIL = 1 ∧ Maps.get? meter d.eng.flight = none)
      (fun k => k.2.1 = false → d.get F.ING_INT_STATUS_REPLAY = 1 ∧ Maps.get? meter d.eng.flight = none) := by
  refine cryptoLaneDone_decides hw hstage hsecurity hmedium ?_
  rcases hv : s.dev.verifySet meter _ w.staged.frame with _ | ⟨k, cand, p⟩
  · rw [Dev.decideFrame_fails hc hopen hv]
    exact Dev.endWork_raised ..
  · intro hcand
    rw [Dev.decideFrame_replay hc hopen hv hcand hm]
    exact Dev.endWork_raised ..

/-- R159, R160: a frame with the stored counter and another digest fails, or is a reuse. -/
theorem cryptoLaneDone_reuse (hm : w.staged.frame.counter = c.m) (hdig : w.staged.frame.digest ≠ c.digest) :
    Runs (.cryptoLaneDone (.frame meter)) s fun d =>
      (s.dev.verifySet meter ((((w.old.getD s.dev.trellis).class? w.cls).map (·.security)).getD 0) w.staged.frame).elim
        (d.get F.ING_INT_STATUS_AUTH_FAIL = 1)
        (fun k => k.2.1 = false → d.get F.ING_INT_STATUS_COUNTER_REUSE = 1 ∧ Maps.get? meter d.eng.flight = none) := by
  refine cryptoLaneDone_decides hw hstage hsecurity hmedium ?_
  rcases hv : s.dev.verifySet meter _ w.staged.frame with _ | ⟨k, cand, p⟩
  · rw [Dev.decideFrame_fails hc hopen hv]
    exact (Dev.endWork_raised ..).1
  · intro hcand
    rw [Dev.decideFrame_reuse hc hopen hv hcand hm hdig]
    exact Dev.endWork_raised ..

variable (hm : c.m < w.staged.frame.counter) (hin : c.inExhausted = false) (hie : w.staged.frame.statusIe = none)
include hm hin hie

/-- R162, R163: a new frame of a plain class goes on to its parse with its plaintext. -/
theorem cryptoLaneDone_parses (hdlms : (w.old.getD s.dev.trellis).dlmsClass w.cls = false) : Runs (.cryptoLaneDone (.frame meter)) s fun d =>
    (s.dev.verifySet meter ((((w.old.getD s.dev.trellis).class? w.cls).map (·.security)).getD 0) w.staged.frame).elim
      (d.get F.ING_INT_STATUS_AUTH_FAIL = 1 ∧ Maps.get? meter d.eng.flight = none)
      (fun k => (Maps.get? meter d.eng.flight).map (·.stage) = some .parse ∧ (Maps.get? meter d.eng.flight).map (·.cand) = some k.2.1 ∧
        (Maps.get? meter d.eng.flight).map (·.payload) = some k.2.2) := by
  refine cryptoLaneDone_decides hw hstage hsecurity hmedium ?_
  rcases hv : s.dev.verifySet meter _ w.staged.frame with _ | ⟨k, cand, p⟩
  · rw [Dev.decideFrame_fails hc hopen hv]
    exact Dev.endWork_raised ..
  · rw [Dev.decideFrame_new hc hopen hv hmedium hm hin, hdlms]
    obtain ⟨r, t, hitem⟩ := s.dev.takePlain_parses meter (w := w.decrypted cand p) k.global hie
    dsimp only [Option.elim, Dev.showIng_eng]
    rw [hitem]
    exact ⟨rfl, rfl, rfl⟩

/-- R163, R170: a new frame of a DLMS/COSEM class goes on to its parse with the refusal of its PDU's form. -/
theorem cryptoLaneDone_refused (hdlms : (w.old.getD s.dev.trellis).dlmsClass w.cls = true) : Runs (.cryptoLaneDone (.frame meter)) s fun d =>
    (s.dev.verifySet meter ((((w.old.getD s.dev.trellis).class? w.cls).map (·.security)).getD 0) w.staged.frame).elim
      (d.get F.ING_INT_STATUS_AUTH_FAIL = 1)
      (fun k => k.2.2.u8 0 ≠ 0xE0 → apduRefusal (parseApdu k.2.2) ≠ 0 →
        (Maps.get? meter d.eng.flight).map (·.stage) = some .parse ∧
        (Maps.get? meter d.eng.flight).map (·.refused) = some (apduRefusal (parseApdu k.2.2))) := by
  refine cryptoLaneDone_decides hw hstage hsecurity hmedium ?_
  rcases hv : s.dev.verifySet meter _ w.staged.frame with _ | ⟨k, cand, p⟩
  · rw [Dev.decideFrame_fails hc hopen hv]
    exact (Dev.endWork_raised ..).1
  · intro (hblock : p.u8 0 ≠ 0xE0) (hform : apduRefusal (parseApdu p) ≠ 0)
    rw [Dev.decideFrame_new hc hopen hv hmedium hm hin, hdlms]
    obtain ⟨r, t, hitem⟩ := s.dev.takePlain_refuses meter (w := w.decrypted cand p) k.global hie hblock hform
    dsimp only [Dev.showIng_eng]
    rw [hitem]
    exact ⟨rfl, rfl⟩

end

end Sys2Proof.Machine

namespace Sys2Proof.Machine

set_option Elab.async false

/-! The Runner links: what a frame that is put on a link, or an event whose record is mirrored, leaves of them (R425). -/

/-- `d'` agrees with `d` on what each link has heard: the last sequence number and the bucket map of its peer. -/
structure Dev.HeardKept (d d' : Dev) : Prop where
  ack : ∀ l, (d'.link l).ack = (d.link l).ack
  mapDigest : ∀ l, (d'.link l).mapDigest = (d.link l).mapDigest

theorem Dev.HeardKept.refl (d : Dev) : d.HeardKept d := ⟨fun _ => rfl, fun _ => rfl⟩

/-- The links of a state that differs elsewhere. -/
theorem Dev.HeardKept.of_links {d d' : Dev} (h : d'.prl.links = d.prl.links) : d.HeardKept d' := by
  have hlink (l : Nat) : d'.link l = d.link l := by rw [Dev.link, h, Dev.link]
  exact ⟨fun l => by rw [hlink], fun l => by rw [hlink]⟩

section
variable {d d' : Dev} (h : d.HeardKept d')
include h

theorem Dev.HeardKept.trans {d'' : Dev} (h' : d'.HeardKept d'') : d.HeardKept d'' :=
  ⟨fun l => (h'.ack l).trans (h.ack l), fun l => (h'.mapDigest l).trans (h.mapDigest l)⟩

/-- An operation whose law does not cover the pair's state. -/
theorem Dev.HeardKept.edits {m : Nat} {d'' : Dev} (e : Edits m d' d'') (hm : m.testBit 18 = false := by decide) : d.HeardKept d'' :=
  h.trans (.of_links (by rw [e.prl.resolve_left (by simp [hm])]))

/-- A frame that goes out leaves what its link has heard. -/
theorem Dev.HeardKept.putFrame (l src dst hops : Nat) (m : RunnerMsg) : d.HeardKept (d'.putFrame l src dst hops m) := by
  have hlink (k : Nat) : ((d'.putFrame l src dst hops m).link k).ack = (d'.link k).ack ∧
      ((d'.putFrame l src dst hops m).link k).mapDigest = (d'.link k).mapDigest := by
    unfold Dev.putFrame
    extract_lets x d₁ y
    have hlinks : d₁.prl.links = d'.prl.links := by
      dsimp only [d₁]
      unfold Dev.linkCount
      split <;> rfl
    show (Maps.getD (Maps.put d₁.prl.links l y) k {}).ack = _ ∧ (Maps.getD (Maps.put d₁.prl.links l y) k {}).mapDigest = _
    rcases eq_or_ne k l with rfl | hk
    · rw [Maps.getD_put_same]
      exact ⟨rfl, rfl⟩
    · rw [Maps.getD_put_other hk, hlinks]
      exact ⟨rfl, rfl⟩
  exact h.trans ⟨fun k => (hlink k).1, fun k => (hlink k).2⟩

theorem Dev.HeardKept.sendRunner (l dst : Nat) (m : RunnerMsg) : d.HeardKept (d'.sendRunner l dst m) := h.putFrame ..

theorem Dev.HeardKept.mirrorOut (line : Nat) (r : JRec) : d.HeardKept (d'.mirrorOut line r) := by
  refine h.trans ?_
  unfold Dev.mirrorOut
  split
  · exact .refl d'
  · split
    · exact .of_links rfl
    · extract_lets d₁ d₂
      have h₁ : d'.HeardKept d₁ := (Dev.HeardKept.refl d').sendRunner ..
      have h₂ : d₁.HeardKept d₂ := by
        dsimp only [d₂]
        unfold Dev.digestOut
        extract_lets crc n d₃
        split
        · exact .of_links rfl
        · exact ((Dev.HeardKept.refl d₁).sendRunner ..).trans (.of_links rfl)
      exact (h₁.trans h₂).trans (.of_links rfl)

theorem Dev.HeardKept.append (r : JRec) : d.HeardKept (d'.append r).2 := by
  refine h.trans ?_
  unfold Dev.append
  extract_lets
  split
  next line j _ =>
  extract_lets d₁ d₂ laps d₃
  have h₃ : d'.HeardKept d₃ := .of_links rfl
  show d'.HeardKept (if r.ownRoot = true then d₃ else d₃.mirrorOut line r)
  split
  · exact h₃
  · exact h₃.mirrorOut _ _

theorem Dev.HeardKept.reserveEvents : d.HeardKept d'.reserveEvents := by
  refine h.trans ?_
  unfold Dev.reserveEvents
  split
  · exact .refl d'
  · split
    · exact .refl d'
    · exact ((Dev.HeardKept.refl d').append _).trans (.of_links rfl)

theorem Dev.HeardKept.raise (x : Fld) (a b : Nat) : d.HeardKept (d'.raise x a b) := h.reserveEvents.trans (.of_links rfl)

theorem Dev.HeardKept.occur (c k a b : Nat) (p : Bool) : d.HeardKept (d'.occur c k a b p) := h.reserveEvents.trans (.of_links rfl)

end

theorem Dev.link_congr {d d' : Dev} (h : d'.prl = d.prl) (l : Nat) : d'.link l = d.link l := by rw [Dev.link, h, Dev.link]

@[simp] theorem Dev.linkCount_prl (d : Dev) (l n : Nat) : (d.linkCount l n).prl = d.prl := by
  unfold Dev.linkCount
  split <;> rfl

@[simp] theorem Dev.link_setLink_same (d : Dev) (l : Nat) (x : Link) : (d.setLink l x).link l = x := Maps.getD_put_same ..

theorem Dev.mirrorOut_alone {d : Dev} (h : d.mirroring = false) (line : Nat) (r : JRec) : d.mirrorOut line r = d := if_pos h

/-- An event leaves the count of the frames forwarded to this device. -/
theorem Dev.raise_forwarded (d : Dev) {x : Fld} (a b : Nat) (hx : R.PRL_CNT_n.at 5 ≠ x.off := by decide) :
    (d.raise x a b).reg (R.PRL_CNT_n.at 5) = d.reg (R.PRL_CNT_n.at 5) := by
  refine BitVec.eq_of_toNat_eq ?_
  rw [← Dev.get_whole, ← Dev.get_whole, Dev.raise_prl_get d x a b (y := ⟨R.PRL_CNT_n.at 5, 0, 0, 31, 0⟩), Dev.get_set_other hx]

/-- `d'` agrees with `d` on what the links have heard and on the count of the frames forwarded to this device. -/
structure Dev.LinksKept (d d' : Dev) : Prop where
  heard : d.HeardKept d'
  forwarded : d'.reg (R.PRL_CNT_n.at 5) = d.reg (R.PRL_CNT_n.at 5)

theorem Dev.LinksKept.refl (d : Dev) : d.LinksKept d := ⟨.refl d, rfl⟩

section
variable {d d' : Dev} (h : d.LinksKept d')
include h

theorem Dev.LinksKept.trans {d'' : Dev} (h' : d'.LinksKept d'') : d.LinksKept d'' :=
  ⟨h.heard.trans h'.heard, h'.forwarded.trans h.forwarded⟩

/-- An operation whose law does not cover the pair's state and its registers. -/
theorem Dev.LinksKept.edits {m : Nat} {d'' : Dev} (e : Edits m d' d'')
    (hm : m.testBit 18 = false ∧ m.testBit (regBit (R.PRL_CNT_n.at 5)) = false := by decide) : d.LinksKept d'' :=
  h.trans ⟨(Dev.HeardKept.refl d').edits e hm.1, e.reg _ (by decide) hm.2⟩

theorem Dev.LinksKept.raise (x : Fld) (a b : Nat) (hx : R.PRL_CNT_n.at 5 ≠ x.off := by decide) : d.LinksKept (d'.raise x a b) :=
  h.trans ⟨(Dev.HeardKept.refl d').raise x a b, d'.raise_forwarded a b hx⟩

theorem Dev.LinksKept.count (r : RegD) (i : Nat) (hi : R.PRL_CNT_n.at 5 ≠ r.at i := by decide) : d.LinksKept (d'.count r i) :=
  h.trans ⟨.of_links rfl, Dev.count_reg_other hi d'⟩

theorem Dev.LinksKept.sendRunner (l dst : Nat) (m : RunnerMsg) : d.LinksKept (d'.sendRunner l dst m) :=
  h.trans ⟨(Dev.HeardKept.refl d').sendRunner l dst m, ((Dev.PairKept.refl d').sendRunner l dst m).reg _ (by decide)⟩

end

/-- Without a standby that takes the mirror, an event leaves the pair's state. -/
theorem Dev.raise_prl_alone {d : Dev} (h : d.mirroring = false) (x : Fld) (a b : Nat) : (d.raise x a b).prl = d.prl := by
  have happend (r : JRec) : (d.append r).2.prl = d.prl := by
    unfold Dev.append
    extract_lets
    split
    next line j _ =>
    extract_lets d₁ d₂ laps d₃
    have h₀ : d.PairKept { d with jnl := j } := ⟨fun _ _ => rfl, .refl _⟩
    have h₁ : d.PairKept d₁ := h₀.count _ _ (prlKept_at (RegD.at_block _ _) (by decide))
    have h₂ : d.PairKept d₂ := ((h₁.setReg _ _ (by decide)).setReg _ _ (by decide)).set F.JNL_STATUS_UNDRAINED _
    have h₃ : d.PairKept d₃ := h₂.set F.JNL_WEAR_LAPS _
    have halone : d₃.mirroring = false := by
      rw [Dev.mirroring, Dev.pairState, h₃.get F.PRL_STATUS_STATE, h₃.get F.PRL_STATUS_PARTNER_STATE]
      exact h
    have hprl : d₃.prl = d.prl := by simp only [d₃, d₂, Dev.set_prl, Dev.setWide_prl]; rfl
    clear_value d₃
    dsimp only
    rw [Dev.mirrorOut_alone halone, ite_self]
    exact hprl
  show d.reserveEvents.prl = d.prl
  unfold Dev.reserveEvents
  split
  · rfl
  · split
    · rfl
    · exact happend _

theorem Dev.PairKept.setLink {d d' : Dev} (h : d.PairKept d') (l : Nat) (x : Link) : d.PairKept (d'.setLink l x) :=
  h.trans ⟨fun _ _ => rfl, ⟨_, d'.prl.outstanding, d'.prl.staged, d'.prl.sinceDigest, d'.prl.crc, rfl⟩⟩

/-- The device once a frame that it takes is counted and acknowledged (R425). -/
def Dev.heardFrame (d : Dev) (h : RHdr) : Dev :=
  let x : Link := { d.link h.link with unacked := (d.link h.link).unacked.filter fun u => !seqLe u.seq h.ack }
  ((d.setLink h.link x).setLink h.link { x with ack := h.seq }).linkCount h.link 1

section
variable (d : Dev) (h : RHdr)

theorem Dev.heardFrame_edits : Edits 0x1000000040000 d (d.heardFrame h) :=
  Dev.linkCount_edits (h := Dev.setLink_edits (h := Dev.setLink_edits (h := .refl d)))

theorem Dev.heardFrame_kept : d.PairKept (d.heardFrame h) :=
  (((Dev.PairKept.refl d).setLink ..).setLink ..).linkCount h.link 1

theorem Dev.heardFrame_ack : ((d.heardFrame h).link h.link).ack = h.seq := by
  have hcount : ((d.heardFrame h).link h.link) = (Dev.setLink _ h.link _).link h.link := Dev.link_congr (Dev.linkCount_prl ..) _
  rw [hcount, Dev.link_setLink_same]

@[simp] theorem Dev.heardFrame_fhm : (d.heardFrame h).fhm = d.fhm := (d.heardFrame_edits h).fhm.resolve_left (by decide)

@[simp] theorem Dev.heardFrame_trellis : (d.heardFrame h).trellis = d.trellis := by
  rw [Dev.trellis, (d.heardFrame_edits h).trl.resolve_left (by decide), Dev.trellis]

@[simp] theorem Dev.heardFrame_pairState : (d.heardFrame h).pairState = d.pairState := (d.heardFrame_kept h).get F.PRL_STATUS_STATE

@[simp] theorem Dev.heardFrame_serves : (d.heardFrame h).serves = d.serves := by rw [Dev.serves, d.heardFrame_pairState, Dev.serves]

end

/-- A frame that this device takes is its message's (R425 to R427). -/
theorem Dev.hears.runnerIn {d : Dev} {h : RHdr} {m : RunnerMsg} (hh : d.hears h m) (hm : m.toActive = true → d.serves = true) (f : Dev → Dev) :
    d.runnerIn h m f = f (d.heardFrame h) := by
  obtain ⟨hup, hlink, hcrc, hseq, hdst⟩ := hh
  have hhere : (d.heardFrame h).trellis.device.position = h.dst := by rw [Dev.heardFrame_trellis, hdst]
  unfold Dev.runnerIn
  rw [if_neg (by simp [hup]; omega), if_neg (by simp [hcrc])]
  extract_lets x y d₁ d₂ t
  rw [if_neg (by simpa using hseq)]
  refine (if_neg fun hn => hn.1 hhere.symm).trans (if_neg ?_)
  rintro ⟨ha, hs, -⟩
  exact absurd ((d.heardFrame_serves h).symm.trans hs) (by simp [hm ha])

end Sys2Proof.Machine

namespace Sys2Proof.Machine

set_option Elab.async false

/-! What an item's acquisitions leave: the frames that wait, the progress of REWRAP, and what the item holds (R157, R198). -/

@[simp] theorem Dev.raise_rewrap (d : Dev) (x : Fld) (a b : Nat) : (d.raise x a b).dur.rewrap = d.dur.rewrap := by
  show d.reserveEvents.dur.rewrap = d.dur.rewrap
  unfold Dev.reserveEvents
  split
  · rfl
  · split <;> rfl

/-- `d'` agrees with `d` on the staged frames, the progress of REWRAP, and what the Runner links brought. -/
structure Dev.WaitingKept (d d' : Dev) : Prop where
  staging : d'.eng.staging = d.eng.staging
  rewrap : d'.dur.rewrap = d.dur.rewrap
  links : d.LinksKept d'

theorem Dev.WaitingKept.refl (d : Dev) : d.WaitingKept d := ⟨rfl, rfl, .refl d⟩

theorem Dev.WaitingKept.trans {d d' d'' : Dev} (h : d.WaitingKept d') (h' : d'.WaitingKept d'') : d.WaitingKept d'' :=
  ⟨h'.staging.trans h.staging, h'.rewrap.trans h.rewrap, h.links.trans h'.links⟩

section
variable {d d' : Dev} (h : d.WaitingKept d')
include h

/-- An operation whose law does not cover the pair's state and its registers. -/
theorem Dev.WaitingKept.edits {m : Nat} {d'' : Dev} (e : Edits m d' d'') (hstaging : d''.eng.staging = d'.eng.staging := by rfl)
    (hrewrap : d''.dur.rewrap = d'.dur.rewrap := by rfl)
    (hm : m.testBit 18 = false ∧ m.testBit (regBit (R.PRL_CNT_n.at 5)) = false := by decide) : d.WaitingKept d'' :=
  h.trans ⟨hstaging, hrewrap, (Dev.LinksKept.refl d').edits e hm⟩

theorem Dev.WaitingKept.raise (x : Fld) (a b : Nat) (hx : R.PRL_CNT_n.at 5 ≠ x.off := by decide) : d.WaitingKept (d'.raise x a b) :=
  h.trans ⟨congrArg Engine.staging (d'.raise_eng x a b), d'.raise_rewrap x a b, (Dev.LinksKept.refl d').raise x a b hx⟩

theorem Dev.WaitingKept.bringCtx {d'' : Dev} {i : Nat} {ready : Bool} (e : d'.bringCtx i ready = some d'') : d.WaitingKept d'' := by
  obtain ⟨c, k, heng⟩ := Dev.bringCtx_eng e
  have hlaw := Dev.bringCtx_edits (m := 0x800000800) e (h := .refl d')
  exact h.edits hlaw (by rw [heng]) (by rw [hlaw.dur.resolve_left (by decide)])

theorem Dev.WaitingKept.reserveKey {d'' : Dev} {meter : Nat} {cand : Bool} {k : KeySet} (e : d'.reserveKey meter cand k = some d'') :
    d.WaitingKept d'' := by
  have hlaw := Dev.reserveKey_edits (m := 0x800000800) e (h := .refl d')
  obtain ⟨_, _, rfl⟩ := Option.map_eq_some_iff.1 e
  exact h.edits hlaw

theorem Dev.WaitingKept.setWork (meter : Nat) (w : Work) : d.WaitingKept (d'.setWork meter w) :=
  h.edits (Dev.setWork_edits (m := 0x1000000800) (h := .refl d'))

theorem Dev.WaitingKept.holdKeys (meter : Nat) : d.WaitingKept (d'.holdKeys meter) :=
  h.edits (Dev.holdKeys_edits (m := 0x800) (h := .refl d'))

theorem Dev.WaitingKept.countCtx (i : Nat) : d.WaitingKept (d'.count R.CTX_CNT_n i) :=
  h.edits (Dev.count_edits (m := 0x800000000) (h := .refl d'))

end

/-- What each step keeps, a chain of steps that can fail keeps. -/
theorem foldl_bind_keeps {α β : Type} {P : α → Prop} {f : α → β → Option α} (hf : ∀ a b a', f a b = some a' → P a → P a')
    (l : List β) {o : Option α} (ho : ∀ a, o = some a → P a) {a : α} (h : l.foldl (fun o b => o.bind fun a => f a b) o = some a) : P a := by
  induction l generalizing o with
  | nil => exact ho a h
  | cons b l ih =>
    refine ih (fun a' ha' => ?_) h
    obtain ⟨a, ha, e⟩ := Option.bind_eq_some_iff.1 ha'
    exact hf a b a' e (ho a ha)

/-- The item holds its meter's context, and takes a key set or a lane, or has both. -/
structure Work.Pinned (w : Work) : Prop where
  stage : w.stage = .wantKey ∨ w.stage = .wantLane ∨ w.stage = .crypto
  held : 1 ∈ w.held

/-- What acquisitions keep of an item: its work, and the context it holds. -/
structure Work.GoesOn (w w' : Work) : Prop where
  job : w'.job = w.job
  pinned : w.Pinned → w'.Pinned

/-- From `d`, with item `w` of the meter, to `d'`: the waiting work stays, and the item goes on. -/
structure Dev.Takes (d : Dev) (meter : Nat) (w : Work) (d' : Dev) : Prop where
  waiting : d.WaitingKept d'
  item : ∃ w', Maps.get? meter d'.eng.flight = some w' ∧ w.GoesOn w'

section
variable {d d' : Dev} {meter : Nat} {w w' : Work}

/-- An item put in its place. -/
theorem Dev.Takes.setWork (h : d.WaitingKept d') (hg : w.GoesOn w') : d.Takes meter w (d'.setWork meter w') := by
  obtain ⟨t, hitem⟩ := d'.setWork_item meter w'
  exact ⟨h.setWork meter w', _, hitem, hg.job, fun hp => ⟨(hg.pinned hp).stage, (hg.pinned hp).held⟩⟩

/-- An item left as it is. -/
theorem Dev.Takes.stay (h : d.WaitingKept d') (hw : Maps.get? meter d'.eng.flight = some w) : d.Takes meter w d' :=
  ⟨h, w, hw, rfl, id⟩

theorem Dev.Takes.waitSet (h : d.WaitingKept d') (hw : Maps.get? meter d'.eng.flight = some w) (x : Fld)
    (hx : R.PRL_CNT_n.at 5 ≠ x.off := by decide) : d.Takes meter w (d'.waitSet meter w x) := by
  unfold Dev.waitSet
  split
  · exact .stay h hw
  · exact .setWork ((h.countCtx 10).raise x _ _ hx) ⟨rfl, fun hp => ⟨hp.stage, hp.held⟩⟩

variable (hw : Maps.get? meter d.eng.flight = some w)
include hw

theorem Dev.wantContext_takes (hstage : w.stage = .wantContext) : d.Takes meter w (d.wantContext meter w) := by
  have hnot : ¬ w.Pinned := fun hp => by simpa [hstage] using hp.stage
  unfold Dev.wantContext
  split
  · exact .stay (.refl d) hw
  · split
    · exact .setWork ((Dev.WaitingKept.refl d).edits (Dev.touchCtx_edits (m := 0x800) (h := .refl d))) ⟨rfl, fun hp => absurd hp hnot⟩
    · extract_lets d₁
      have hd₁ : d.WaitingKept d₁ ∧ d₁.eng = d.eng := by
        dsimp only [d₁]
        split
        · exact ⟨.refl d, rfl⟩
        · exact ⟨(Dev.WaitingKept.refl d).countCtx 0, rfl⟩
      split
      · next d₂ e => exact .setWork (hd₁.1.bringCtx e) ⟨rfl, fun hp => absurd hp hnot⟩
      · exact .waitSet hd₁.1 (by rw [hd₁.2]; exact hw) _

theorem Dev.wantKey_takes : d.Takes meter w (d.wantKey meter w) := by
  unfold Dev.wantKey
  split
  · exact .stay (.refl d) hw
  · extract_lets d₁ missing d₂ take
    have hd₁ : d.WaitingKept d₁ := (Dev.WaitingKept.refl d).edits (Dev.dropStale_edits (m := 0x800) (h := .refl d))
    split
    · exact .setWork (hd₁.holdKeys meter) ⟨rfl, fun hp => ⟨.inr (.inl rfl), List.mem_cons_of_mem _ hp.held⟩⟩
    · have hd₂ : d.WaitingKept d₂ ∧ Maps.get? meter d₂.eng.flight = some w := by
        dsimp only [d₂]
        split
        · exact ⟨hd₁, hw⟩
        · exact ⟨hd₁.edits (Dev.countBy_edits (m := 0x800000000) (h := .refl d₁)), hw⟩
      split
      · next d₃ e =>
        have hd₃ : d.WaitingKept d₃ := 
          foldl_bind_keeps (P := d.WaitingKept) (f := fun d x => Dev.reserveKey d meter x.1 x.2) (fun _ _ _ e h => h.reserveKey e) missing
            (fun _ h => Option.some.inj h ▸ hd₂.1.holdKeys meter) e
        exact .setWork hd₃ ⟨rfl, fun hp => ⟨hp.stage, List.mem_cons_of_mem _ hp.held⟩⟩
      · exact .waitSet hd₂.1 hd₂.2 _

theorem Dev.wantLane_takes : d.Takes meter w (d.wantLane meter w) := by
  unfold Dev.wantLane
  split
  · exact .setWork (.refl d) ⟨rfl, fun hp => ⟨.inr (.inr rfl), List.mem_cons_of_mem _ hp.held⟩⟩
  · exact .stay (.refl d) hw

theorem Dev.wantRing_takes (hstage : w.stage = .wantRing) : d.Takes meter w (d.wantRing meter w) := by
  have hnot : ¬ w.Pinned := fun hp => by simpa [hstage] using hp.stage
  unfold Dev.wantRing
  split
  · exact .setWork (.refl d) ⟨rfl, fun hp => absurd hp hnot⟩
  · extract_lets n
    split
    · exact .setWork (.refl d) ⟨rfl, fun hp => absurd hp hnot⟩
    · exact .stay (.refl d) hw

theorem Dev.takeNext_takes : d.Takes meter w (d.takeNext meter w) := by
  unfold Dev.takeNext
  split
  · next h => exact Dev.wantContext_takes hw h
  · exact Dev.wantKey_takes hw
  · exact Dev.wantLane_takes hw
  · next h => exact Dev.wantRing_takes hw h
  · exact .stay (.refl d) hw

end

/-- An item that has no work of its own to do is kept through its acquisitions. -/
theorem Dev.advance_takes (k : Nat) {d : Dev} {meter : Nat} {w : Work} (hw : Maps.get? meter d.eng.flight = some w) (hjob : w.job = none) :
    d.Takes meter w (Dev.advance k meter d) := by
  induction k generalizing d w with
  | zero => exact .stay (.refl d) hw
  | succ k ih =>
    have htake := Dev.takeNext_takes hw
    rw [Dev.advance_succ hw (.inr hjob)]
    split
    · exact htake
    · obtain ⟨w', hw', hg⟩ := htake.item
      obtain ⟨hwaiting, w'', hw'', hg'⟩ := ih hw' (hg.job.trans hjob)
      exact ⟨htake.waiting.trans hwaiting, w'', hw'', hg'.job.trans hg.job, hg'.pinned ∘ hg.pinned⟩

end Sys2Proof.Machine

namespace Sys2Proof.Machine

set_option Elab.async false

/-! Grants, fills, expiries and retries of the resources an item waits for (R191, R194, R198, R200, R202). -/

/-- An item whose stage changes waits from now on. -/
theorem Dev.setWork_moved (d : Dev) (meter : Nat) {w w' : Work} (hw : Maps.get? meter d.eng.flight = some w) (h : w.stage ≠ w'.stage) :
    Maps.get? meter (d.setWork meter w').eng.flight = some { w' with since := d.cycles } := by
  unfold Dev.setWork
  rw [hw]
  refine (Maps.get?_put_same ..).trans ?_
  rw [if_neg (by simp [h])]

/-- Grants end where the item does not wait for the journal. -/
theorem Dev.run_of_advance {d : Dev} {meter : Nat} {w : Work} (hw : Maps.get? meter (Dev.advance 4 meter d).eng.flight = some w)
    (h : w.stage ≠ .wantJournal) : d.run meter = Dev.advance 4 meter d := by
  rw [Dev.run, hw]
  exact if_neg h

section
variable {d : Dev} {meter : Nat} {w : Work} (hw : Maps.get? meter d.eng.flight = some w)
include hw

section
variable (hstage : w.stage = .wantLane)
include hstage

/-- Without a free lane the item waits. -/
theorem Dev.advance_no_lane (hbusy : 14 ≤ d.eng.lanesBusy) (k : Nat) : Dev.advance k meter d = d := by
  refine Dev.advance_of_takeNext_eq hw (.inl (by simp [hstage])) ?_ k
  rw [Dev.takeNext, hstage]
  exact if_neg (by omega)

variable (hjob : w.job = none)
include hjob

/-- A free lane is taken, and the item's frame is in its security check. -/
theorem Dev.advance_lane (hfree : d.eng.lanesBusy < 14) (k : Nat) :
    Dev.advance (k + 1) meter d = d.setWork meter { w with stage := .crypto, held := 3 :: w.held } := by
  have htake : d.takeNext meter w = d.setWork meter { w with stage := .crypto, held := 3 :: w.held } := by
    rw [Dev.takeNext, hstage]
    exact if_pos hfree
  rw [← htake]
  refine Dev.advance_one (w' := { w with stage := .crypto, held := 3 :: w.held, since := d.cycles }) hw (.inr hjob) ?_ (.inr hjob)
    (by simp [hstage]) rfl k
  rw [htake]
  exact d.setWork_moved meter hw (by simp [hstage])

/-- Either way only the item changes. -/
theorem Dev.advance_wantLane_edits (k : Nat) : Edits 0x1000000800 d (Dev.advance k meter d) := by
  cases k with
  | zero => exact .refl d
  | succ k =>
    rcases Nat.lt_or_ge d.eng.lanesBusy 14 with hfree | hbusy
    · rw [Dev.advance_lane hw hstage hjob hfree]
      exact Dev.setWork_edits (h := .refl d)
    · rw [Dev.advance_no_lane hw hstage hbusy]
      exact .refl d

end

/-- An item whose context is resident holds it from its first acquisition on (R191). -/
theorem Dev.advance_resident (hstage : w.stage = .wantContext) (hfetch : w.fetching = false) (hreading : w.reading = none)
    (hjob : w.job = none) (hres : d.eng.resident meter = true) :
    ∃ w', Maps.get? meter (Dev.advance 4 meter d).eng.flight = some w' ∧ w'.Pinned := by
  have hafter : w.afterContext = .wantKey ∨ w.afterContext = .wantLane ∨ w.afterContext = .crypto := by
    rw [Work.afterContext, hreading]
    split
    · exact .inr (.inr rfl)
    · exact .inl rfl
  have htake : d.takeNext meter w = (d.touchCtx meter).setWork meter { w with stage := w.afterContext, held := [1], waited := false } := by
    rw [Dev.takeNext, hstage]
    dsimp only
    rw [Dev.wantContext, if_neg (by simp [hfetch]), if_pos hres]
  obtain ⟨t, hitem⟩ := (d.touchCtx meter).setWork_item meter { w with stage := w.afterContext, held := [1], waited := false }
  have hmoved : w.afterContext ≠ .wantContext := by
    rcases hafter with h | h | h <;> simp [h]
  rw [Dev.advance_succ hw (.inr hjob), htake, hitem, if_neg (by simp [hstage, hmoved])]
  obtain ⟨w', hw', hg⟩ := (Dev.advance_takes 3 hitem hjob).item
  exact ⟨w', hw', hg.pinned ⟨hafter, List.mem_singleton.2 rfl⟩⟩

end

theorem Work.Pinned.map_contains {o : Option Work} (h : ∃ w, o = some w ∧ w.Pinned) : o.map (·.held.contains 1) = some true := by
  obtain ⟨w, rfl, hp⟩ := h
  exact congrArg some (List.contains_iff_mem.2 hp.held)

/-- A frame's item has no work of its own to do. -/
theorem Dev.beginItem_item (d : Dev) (f : Staged0) :
    ∃ w, Maps.get? f.meter (d.beginItem f).showIng.eng.flight = some w ∧ w.job = none := ⟨_, Maps.get?_put_same .., rfl⟩

theorem Dev.rewrapOn_none {d : Dev} (h : d.dur.rewrap = none) : d.rewrapOn = d := by
  rw [Dev.rewrapOn, h]

/-- R157, R196: a staged frame becomes its idle meter's item. -/
theorem workItemAdmit_admits (s : State) (meter : Nat) (f : Staged0) (hidle : Maps.has s.dev.eng.flight meter = false)
    (hfree : s.dev.eng.freeing.contains meter = false) (hrewrap : s.dev.dur.rewrap = none) (htakes : s.dev.takesFrames = true)
    (hf : s.dev.eng.staging.find? (·.meter == meter) = some f) (hmeter : f.meter = meter)
    (hdowns : s.dev.eng.downs.find? (·.1 == meter) = none) : Runs (.workItemAdmit meter) s fun d =>
      d.eng.staging = s.dev.eng.staging.erase f ∧ Maps.has d.eng.flight meter = true := by
  subst hmeter
  refine ⟨_, rfl, rfl, ?_⟩
  dsimp only
  rw [if_neg (by simp [hidle]), if_neg (by rw [hfree]; decide)]
  unfold Dev.admitNext
  simp -zeta only [hdowns, hf, htakes, if_true]
  extract_lets passed e
  obtain ⟨w, hw, hjob⟩ := Dev.beginItem_item { s.dev with eng := { e with staging := e.staging.erase f, downs := e.downs.map passed } } f
  obtain ⟨⟨hstaging, hsame, -⟩, w', hw', -⟩ := Dev.advance_takes 4 hw hjob
  rw [Dev.rewrapOn_none (hsame.trans hrewrap)]
  exact ⟨hstaging, Option.isSome_iff_exists.2 ⟨w', hw'⟩⟩

/-- R191: the context that an item waits for is held once it is fetched. -/
theorem contextFetchDone_holds (s : State) (meter : Nat) (w : Work) (hw : Maps.get? meter s.dev.eng.flight = some w)
    (hstage : w.stage = .wantContext) (hfetch : w.fetching = true) (hreading : w.reading = none) (hjob : w.job = none)
    (hcache : Maps.has s.dev.eng.cache meter = true) : Runs (.contextFetchDone meter) s fun d =>
      (Maps.get? meter d.eng.flight).map (·.held.contains 1) = some true := by
  obtain ⟨way, hway⟩ := Option.isSome_iff_exists.1 hcache
  refine ⟨_, rfl, rfl, ?_⟩
  dsimp -zeta only
  extract_lets e d
  rw [show Maps.get? meter d.eng.flight = some w from hw]
  dsimp only
  rw [if_pos ⟨hstage, hfetch⟩]
  obtain ⟨t, hitem⟩ := d.setWork_item meter { w with fetching := false }
  refine Work.Pinned.map_contains (Dev.advance_resident hitem hstage rfl hreading hjob ?_)
  show ((Maps.get? meter (Maps.modify s.dev.eng.cache meter fun w => { w with ready := true })).map (·.ready)).getD false = true
  rw [Maps.modify, hway]
  dsimp only
  rw [Maps.get?_put_same]
  rfl

/-- R194, R306: a fill is counted, or its key set is found corrupt. -/
theorem keyCacheFillDone_counts (s : State) (meter : Nat) (cand : Bool) (w : Work) (way : Nat) (k : KeyWay)
    (hw : Maps.get? meter s.dev.eng.flight = some w) (hstage : w.stage = .wantKey) (hfetch : w.fetching = true) (hjob : w.job = none)
    (hk : s.dev.eng.keyWay? meter cand = some (way, k)) (hfilled : k.filled = false) : Runs (.keyCacheFillDone meter cand) s fun d =>
      if (s.dev.unwrapSet k.keys).isSome && kcvOf 16 k.keys.link == k.kcv then s.dev.counted d R.KEY_CNT_n 0
      else s.dev.counted d R.KEY_CNT_n 1 ∧ d.get F.KEY_INT_STATUS_KEY_CORRUPT = 1 := by
  refine ⟨_, rfl, rfl, ?_⟩
  dsimp -zeta only
  simp -zeta only [hw, hk, show ¬ (w.fetching = false ∨ w.stage ≠ .wantKey ∨ k.filled = true) by simp [hfetch, hstage, hfilled], if_false]
  extract_lets good put e d₁ d₂ d₃
  generalize hend : (if (d₃.eng.keys.any fun p => p.2.meter == meter && !p.2.filled) = true then d₃ else _) = d'
  have hkept : Edits 0x1800000800 d₂ d' := by
    have hshown : Edits 0x1800000800 d₂ d₃ := Dev.showCtx_edits (h := .refl d₂)
    rw [← hend]
    split
    · exact hshown
    · obtain ⟨t, hitem⟩ := d₃.setWork_item meter { w with fetching := false, stage := .wantLane }
      exact (Dev.setWork_edits (h := hshown)).trans (Dev.advance_wantLane_edits hitem rfl hjob 4).mono
  split
  · next hgood =>
    have hd₂ : d₂ = (d₁.count R.CTX_CNT_n 3).count R.KEY_CNT_n 0 := if_pos hgood
    have hsame : (d₁.count R.CTX_CNT_n 3).reg (R.KEY_CNT_n.at 0) = s.dev.reg (R.KEY_CNT_n.at 0) := Dev.count_reg_other (by decide) d₁
    rw [Dev.counted, hkept.reg _ (by decide) (by decide), hd₂, ← hsame]
    exact Dev.count_counted _ _ _
  · next hbad =>
    have hd₂ : d₂ = (d₁.count R.KEY_CNT_n 1).raise F.KEY_INT_STATUS_KEY_CORRUPT meter := if_neg hbad
    refine ⟨?_, ?_⟩
    · rw [Dev.counted, hkept.reg _ (by decide) (by decide), hd₂, Dev.raise_reg (by decide) _ _ _ (by decide) (by decide)]
      exact d₁.count_counted _ _
    · rw [hkept.get F.KEY_INT_STATUS_KEY_CORRUPT, hd₂]
      exact Dev.raise_self ..

/-- R198: a lane that is waited for is granted. -/
theorem resourceGrant_lane (s : State) (meter : Nat) (w : Work) (hw : Maps.get? meter s.dev.eng.flight = some w)
    (hstage : w.stage = .wantLane) (hjob : w.job = none) (hfree : s.dev.eng.lanesBusy < 14) : Runs (.resourceGrant meter) s fun d =>
      Maps.get? meter d.eng.flight = some { w with stage := .crypto, held := 3 :: w.held, since := s.dev.cycles } := by
  have hitem := s.dev.setWork_moved meter (w' := { w with stage := .crypto, held := 3 :: w.held }) hw (by simp [hstage])
  have hadvance := Dev.advance_lane hw hstage hjob hfree 3
  rw [← hadvance] at hitem
  refine ⟨_, rfl, rfl, ?_⟩
  dsimp only
  rw [Dev.run_of_advance hitem (by simp)]
  exact hitem

/-- The populations of the caches show in their own registers. -/
theorem Dev.showCtx_reg (d : Dev) {off : Nat} (h : off ∉ ([F.CTX_STATUS_ALLOCATED.off, F.CTX_CACHE_RESIDENT.off, F.CTX_KEYS_RESIDENT.off,
    F.CTX_PINNED_PINNED.off] : List Nat)) : d.showCtx.reg off = d.reg off := by
  simp only [List.mem_cons, List.not_mem_nil, or_false, not_or] at h
  obtain ⟨h₁, h₂, h₃, h₄⟩ := h
  rw [Dev.showCtx, Dev.reg_set_other h₄, Dev.reg_set_other h₃, Dev.reg_set_other h₂, Dev.reg_set_other h₁]

/-- R200, R202: a wait for a lane that lasts too long is counted, and the item lets go of everything. -/
theorem resourceWaitTimeout_retries (s : State) (meter : Nat) (w : Work) (hw : Maps.get? meter s.dev.eng.flight = some w)
    (hstage : w.stage = .wantLane) (hfetch : w.fetching = false) (hbusy : 14 ≤ s.dev.eng.lanesBusy)
    (hlate : w.since + cyclesOf (s.dev.get F.CTX_WAIT_B_LANE) < s.dev.cycles) : Runs (.resourceWaitTimeout meter) s fun d =>
      (Maps.get? meter d.eng.flight).map (·.stage) = some .retry ∧ (Maps.get? meter d.eng.flight).map (·.held) = some [] ∧
        s.dev.counted d R.CTX_CNT_n 6 ∧ d.get F.CTX_INT_STATUS_WAIT_TIMEOUT = 1 := by
  have hadvance := Dev.advance_no_lane hw hstage hbusy 4
  have hrun : s.dev.run meter = s.dev :=
    (Dev.run_of_advance (by rw [hadvance]; exact hw) (by simp [hstage])).trans hadvance
  refine ⟨_, rfl, rfl, ?_⟩
  dsimp only
  rw [hw]
  dsimp only
  rw [hstage]
  dsimp only [Stage.rank]
  rw [if_neg (by exact Nat.not_le.2 hlate), if_neg (by simp [hfetch]), hrun, hw]
  dsimp only
  rw [if_pos ⟨hstage, rfl, rfl⟩]
  unfold Dev.expire
  extract_lets d₁ ring d₂ d₃ d₄ keys e d₅
  obtain ⟨t, hitem⟩ := d₅.setWork_item meter { w with stage := .retry, held := [], ring := none, fetching := false, waited := false }
  have hlaw : Edits 0x1000000800 d₅ (d₅.setWork meter { w with stage := .retry, held := [], ring := none, fetching := false, waited := false }) :=
    Dev.setWork_edits (h := .refl d₅)
  rw [hitem]
  refine ⟨rfl, rfl, ?_, ?_⟩
  · have hshown : d₅.reg (R.CTX_CNT_n.at 6) = d₂.reg (R.CTX_CNT_n.at 6) := Dev.showCtx_reg _ (by decide)
    rw [Dev.counted, hlaw.reg _ (by decide) (by decide), hshown, Dev.raise_reg (by decide) _ _ _ (by decide) (by decide)]
    exact s.dev.count_counted _ _
  · have hshown : d₅.get F.CTX_INT_STATUS_WAIT_TIMEOUT = d₂.get F.CTX_INT_STATUS_WAIT_TIMEOUT := Dev.get_of_reg (Dev.showCtx_reg _ (by decide))
    rw [hlaw.get F.CTX_INT_STATUS_WAIT_TIMEOUT, hshown]
    exact Dev.raise_self ..

/-- R200: a retried item whose context is resident holds it. -/
theorem resourceRetry_holds (s : State) (meter : Nat) (w : Work) (hw : Maps.get? meter s.dev.eng.flight = some w)
    (hstage : w.stage = .retry) (hreading : w.reading = none) (hfetch : w.fetching = false) (hjob : w.job = none)
    (hres : s.dev.eng.resident meter = true) : Runs (.resourceRetry meter) s fun d =>
      (Maps.get? meter d.eng.flight).map (·.held.contains 1) = some true := by
  refine ⟨_, rfl, rfl, ?_⟩
  dsimp only
  rw [hw]
  dsimp only
  rw [if_pos hstage]
  obtain ⟨t, hitem⟩ := s.dev.setWork_item meter { w with stage := .wantContext }
  obtain ⟨w', hw', hp⟩ := Dev.advance_resident hitem rfl hfetch hreading hjob hres
  rw [Dev.run_of_advance hw' (by rcases hp.stage with h | h | h <;> simp [h])]
  exact Work.Pinned.map_contains ⟨w', hw', hp⟩

/-- Settles O23: the lemmas above, one for each clause. -/
theorem ingestSecurityAndResources : Obligations.IngestSecurityAndResources :=
  ⟨fun _ _ _ _ => cryptoLaneDone_replay, fun _ _ _ _ => cryptoLaneDone_reuse, fun _ _ _ _ => cryptoLaneDone_parses,
    fun _ _ _ _ => cryptoLaneDone_refused, workItemAdmit_admits, contextFetchDone_holds, keyCacheFillDone_counts, resourceGrant_lane,
    resourceWaitTimeout_retries, resourceRetry_holds⟩

end Sys2Proof.Machine

namespace Sys2Proof.Machine

set_option Elab.async false

/-! What the frames of the Runner links do (R423 to R426). -/

section
variable {s : State} {h : RHdr}

/-- R424: the confirm of an order that is not known leaves it at that. -/
theorem downConfirm_ignored (s : State) (h : RHdr) (i y : Nat) (hh : s.dev.hears h (.downConfirm i y)) (hserves : s.dev.serves = true)
    (ho : s.dev.order? foreignHead i = none) : Runs (.downConfirm h i y) s fun d => d.fhm = s.dev.fhm ∧ (d.link h.link).ack = h.seq := by
  refine ⟨_, rfl, rfl, ?_⟩
  dsimp only
  rw [hh.runnerIn fun _ => hserves]
  rw [Dev.order?_congr (congrArg Fhm.orders (s.dev.heardFrame_fhm h)), ho]
  exact ⟨s.dev.heardFrame_fhm h, s.dev.heardFrame_ack h⟩

/-- R174, R424: the confirm of an accept acknowledgement marks its uplink's windows. -/
theorem downConfirm_acked (s : State) (h : RHdr) (i : Nat) (o : Order) (a k w : Nat) (x : Window) (hh : s.dev.hears h (.downConfirm i 0))
    (hserves : s.dev.serves = true) (ho : s.dev.order? foreignHead i = some o) (hkey : o.keyKind = none) (hpurpose : o.purpose = .accept a k w)
    (hx : s.dev.window? a k = some x) : Runs (.downConfirm h i 0) s fun d =>
      d.order? foreignHead i = none ∧ (d.window? a k).map (·.acked) = some true := by
  refine ⟨_, rfl, rfl, ?_⟩
  dsimp only
  rw [hh.runnerIn fun _ => hserves]
  rw [Dev.order?_congr (congrArg Fhm.orders (s.dev.heardFrame_fhm h)), ho]
  dsimp only
  have hwin : ((s.dev.heardFrame h).dropOrder foreignHead i).window? a k = some x := by
    rw [← hx]
    exact Dev.window?_congr (congrArg Fhm.windows (s.dev.heardFrame_fhm h)) a k
  obtain ⟨d', hfhm, e⟩ := Dev.orderOutcome_accept hpurpose hkey hwin
  obtain ⟨rfl, rfl⟩ := Dev.window?_some hx
  rw [e]
  refine ⟨?_, ?_⟩
  · have horders : d'.fhm.orders = ((s.dev.heardFrame h).dropOrder foreignHead i).fhm.orders := congrArg Fhm.orders hfhm
    exact (Dev.order?_congr (d' := d'.putWindow _) horders ..).trans (Dev.order?_dropOrder ..)
  · exact congrArg (Option.map Window.acked) (d'.window?_putWindow { x with acked := true })

/-- R175: a notice commits the frame it names. -/
theorem acceptNotice_commits (s : State) (h : RHdr) (e k : Nat) (a b : Psdu) (w : Window) (hh : s.dev.hears h (.acceptNotice e k a b))
    (hserves : s.dev.serves = true) (hw : s.dev.windowOf? e k = some w) (hchecked : w.checked = 0) : Runs (.acceptNotice h e k a b) s fun d =>
      (d.window? w.addr w.endNs).map (fun x => (x.committed, x.notice)) = some (true, some (a, b)) := by
  refine ⟨_, rfl, rfl, ?_⟩
  dsimp only
  rw [hh.runnerIn fun _ => hserves]
  have hw' : (s.dev.heardFrame h).windowOf? e k = some w := by
    rw [Dev.windowOf?, s.dev.heardFrame_fhm h]
    exact hw
  rw [hw']
  dsimp only
  rw [Dev.arrived, if_pos (.inl hchecked)]
  exact congrArg (Option.map fun x : Window => (x.committed, x.notice))
    ((s.dev.heardFrame h).window?_putWindow { w with committed := true, notice := some (a, b) })

/-- A frame sent to another position, where a route reaches it. -/
theorem Dev.sendTo_cases (d : Dev) (dst : Nat) (m : RunnerMsg) (forwarding : Bool) :
    d.sendTo dst m forwarding = none ∨ ∃ l, d.sendTo dst m forwarding = some (d.sendRunner l dst m) := by
  unfold Dev.sendTo
  split
  · next l _ =>
    split
    · exact .inl rfl
    · exact .inr ⟨l, rfl⟩
  · exact .inl rfl

/-- A meter frame passed on to its owner leaves what the links have heard. -/
theorem Dev.LinksKept.forwardUp {d d' : Dev} (hd : d.LinksKept d') (f : Staged0) : d.LinksKept (d'.forwardUp f) := by
  unfold Dev.forwardUp
  extract_lets owner
  split
  · exact hd.count R.PRL_CNT_n 7
  · rcases d'.sendTo_cases owner (.forwardUp f) true with e | ⟨l, e⟩
    · rw [e]
      exact (hd.count R.PRL_CNT_n 6).raise F.PRL_INT_STATUS_FORWARD_DROP _ _
    · rw [e]
      exact (hd.sendRunner ..).count R.PRL_CNT_n 4

/-- So does staging a frame. -/
theorem Dev.LinksKept.stage {d d' : Dev} (hd : d.LinksKept d') (f : Staged0) : d.LinksKept (d'.stage f) := by
  unfold Dev.stage
  extract_lets slots d₁ a e
  have hready : d.LinksKept d₁ := by
    dsimp only [d₁]
    unfold Dev.readyNow
    split
    · exact hd.count R.ING_CNT_n 0
    · extract_lets ms glb
      refine Dev.LinksKept.raise ?_ _ _ _
      exact (hd.count R.ING_CNT_n 0).trans ⟨.of_links rfl, Dev.reg_set_other (by decide) _ _⟩
  split
  · exact hd
  · split
    · exact hd.count R.ING_CNT_n 1
    · split
      · exact (hd.count R.ING_CNT_n 1).raise F.ING_INT_STATUS_STAGING_FULL _ _
      · split
        · exact hready.count R.ING_CNT_n 16
        · split
          · exact hready.forwardUp f
          · split
            · exact (hready.count R.ING_CNT_n 2).raise F.ING_INT_STATUS_UNKNOWN_METER _ _
            · extract_lets g
              split
              · obtain ⟨w, hw, hjob⟩ := d₁.beginItem_item g
                have hbegun : Edits 0x1000000800 d₁ (d₁.beginItem g).showIng := Dev.showIng_edits (h := Dev.beginItem_edits (h := .refl d₁))
                exact (hready.edits hbegun).trans (Dev.advance_takes 4 hw hjob).waiting.links
              · exact hready.edits (Dev.showIng_edits (m := 0x1000000800) (h := Edits.upd (h := .refl d₁)))

/-- R423: a frame forwarded to this device is counted, and goes into staging. -/
theorem forwardUp_counts (s : State) (h : RHdr) (f : Staged0) (hh : s.dev.hears h (.forwardUp f)) (hserves : s.dev.serves = true) :
    Runs (.forwardUp h f) s fun d => (d.link h.link).ack = h.seq ∧ s.dev.counted d R.PRL_CNT_n 5 := by
  refine ⟨_, rfl, rfl, ?_⟩
  dsimp -zeta only
  rw [hh.runnerIn fun _ => hserves]
  extract_lets d₁ at_ whole f' fhm d₂
  have h₂ : d₁.LinksKept d₂ := by
    dsimp only [d₂]
    split
    · exact ⟨.of_links rfl, rfl⟩
    · exact .refl d₁
  have hkept := h₂.stage { f' with source := 2, via := h.link }
  refine ⟨(hkept.heard.ack h.link).trans (s.dev.heardFrame_ack h), ?_⟩
  have hsame : (s.dev.heardFrame h).reg (R.PRL_CNT_n.at 5) = s.dev.reg (R.PRL_CNT_n.at 5) := (s.dev.heardFrame_kept h).reg _ (by decide)
  rw [Dev.counted, hkept.forwarded, ← hsame]
  exact (s.dev.heardFrame h).count_counted _ _

/-- R424: a downlink for a meter that no head has heard is refused. -/
theorem forwardDown_refused (s : State) (h : RHdr) (i e t0 : Nat) (p : Psdu) (hh : s.dev.hears h (.forwardDown i e t0 p))
    (he : s.dev.lastHead e = none) : Runs (.forwardDown h i e t0 p) s fun d => d.fhm = s.dev.fhm ∧ (d.link h.link).ack = h.seq := by
  refine ⟨_, rfl, rfl, ?_⟩
  dsimp only
  rw [hh.runnerIn (fun hm => by cases hm)]
  have he' : (s.dev.heardFrame h).lastHead e = none := by
    rw [Dev.lastHead, s.dev.heardFrame_fhm h]
    exact he
  rw [he']
  dsimp only
  rcases (s.dev.heardFrame h).sendTo_cases h.src (.downConfirm i Tx.lost) true with hnone | ⟨l, hsome⟩
  · rw [hnone]
    exact ⟨s.dev.heardFrame_fhm h, s.dev.heardFrame_ack h⟩
  · rw [hsome]
    refine ⟨?_, ?_⟩
    · have hsent := Dev.sendRunner_edits (m := 0x1000000040002) (x1 := l) (x2 := h.src) (x3 := .downConfirm i Tx.lost)
        (h := .refl (s.dev.heardFrame h))
      exact (hsent.fhm.resolve_left (by decide)).trans (s.dev.heardFrame_fhm h)
    · exact (((Dev.HeardKept.refl (s.dev.heardFrame h)).sendRunner ..).ack h.link).trans (s.dev.heardFrame_ack h)

end

/-- An order that is sent is kept. -/
theorem Dev.sendOrder_kept {d : Dev} {o : Order} {r : HeadReg} (hserves : d.serves = true) (hsession : (d.headRt o.head).session = true)
    (hreg : d.headReg? o.head = some r) : ∃ x ∈ (d.sendOrder o).fhm.orders, x.head = o.head ∧ x.purpose = o.purpose := by
  rw [Dev.sendOrder, if_pos (by rw [hsession, hserves]; rfl), hreg]
  exact ⟨_, List.mem_append_right _ (List.mem_singleton_self _), rfl, rfl⟩

section
variable {d : Dev} {i : Nat} {r : HeadReg} (hserves : d.serves = true) (hsession : (d.headRt i).session = true) (hreg : d.headReg? i = some r)
include hserves hsession hreg

/-- A new order of a head with a session, whatever is noted in it, is kept once it is sent. -/
theorem Dev.newOrder_kept (ch : Nat) (csma ack beacon : Bool) (t0 : Nat) (offs : List Nat) (p : Psdu) (purpose : Purpose) {o : Order}
    (ho : o.head = i) :
    ∃ x ∈ ((d.newOrder i ch csma ack beacon t0 offs p purpose).2.sendOrder o).fhm.orders, x.head = i ∧ x.purpose = o.purpose := by
  subst ho
  refine Dev.sendOrder_kept hserves ?_ hreg
  exact (congrArg HeadRt.session (Maps.getD_put_same ..)).trans hsession

theorem Dev.orderWindow_kept (t0 : Nat) (p : Psdu) (purpose : Purpose) (sync sfd : Nat) (key : Option KeyXfer) :
    ∃ x ∈ (d.orderWindow i t0 p purpose sync sfd key).fhm.orders, x.head = i ∧ x.purpose = purpose :=
  Dev.newOrder_kept hserves hsession hreg (d.headRt i).rxCh (d.flag F.FHM_CTRL_WINDOW_CCA) true false t0 [] p purpose rfl

end

/-- R82, R424: a forwarded downlink that its head can send is ordered there. -/
theorem forwardDown_orders (s : State) (h : RHdr) (id e t0 : Nat) (p : Psdu) (i : Nat) (r : HeadReg)
    (hh : s.dev.hears h (.forwardDown id e t0 p)) (hserves : s.dev.serves = true) (he : s.dev.lastHead e = some i)
    (hreg : s.dev.headReg? i = some r) (horderable : (s.dev.headRt i).orderable = true) (hsession : (s.dev.headRt i).session = true)
    (hfits : s.dev.windowFits (s.dev.headRt i) t0 p.len = true) : Runs (.forwardDown h id e t0 p) s fun d =>
      (d.fhm.orders.any fun o => o.head == i && o.purpose == .partner h.src id) = true := by
  have hheard := s.dev.heardFrame_edits h
  have hhead : (s.dev.heardFrame h).headRt i = s.dev.headRt i := Dev.headRt_congr (congrArg Fhm.heads (s.dev.heardFrame_fhm h)) i
  have he' : (s.dev.heardFrame h).lastHead e = some i := by
    rw [Dev.lastHead, s.dev.heardFrame_fhm h]
    exact he
  have hfits' : (s.dev.heardFrame h).windowFits (s.dev.headRt i) t0 p.len = true := by
    rw [Dev.windowFits, Dev.budget, Dev.profile?, s.dev.heardFrame_trellis, hheard.get F.FHM_CTRL_ACK_RESERVE]
    exact hfits
  have hserves' : (s.dev.heardFrame h).serves = true := (s.dev.heardFrame_serves h).trans hserves
  have hreg' : (s.dev.heardFrame h).headReg? i = some r := by
    rw [Dev.headReg?, hheard.dur.resolve_left (by decide)]
    exact hreg
  rw [← hhead] at horderable hsession hfits'
  refine ⟨_, rfl, rfl, ?_⟩
  dsimp -zeta only
  rw [hh.runnerIn (fun hm => by cases hm)]
  generalize s.dev.heardFrame h = d at *
  simp -zeta only [he']
  extract_lets refuse x
  rw [if_neg (by simp [x, horderable]), if_neg (by simp [x, hfits'])]
  have hkept : ∀ {o : Order}, o.head = i ∧ o.purpose = .partner h.src id → (o.head == i && o.purpose == .partner h.src id) = true := by
    rintro o ⟨ho, hp⟩
    simp [ho, hp]
  rw [List.any_eq_true]
  split
  · obtain ⟨o, ho, hmatch⟩ := d.orderWindow_kept hserves' hsession hreg' t0 p (.partner h.src id) 0 0 none
    exact ⟨o, ho, hkept hmatch⟩
  · have hcsma : Edits 0x2008 d (d.csma x.rate t0).2.2 := Dev.csma_snd_edits (h := .refl d)
    have hserves' : (d.csma x.rate t0).2.2.serves = true := by
      rw [Dev.serves, Dev.pairState, hcsma.get F.PRL_STATUS_STATE]
      exact hserves'
    have hsession' : ((d.csma x.rate t0).2.2.headRt i).session = true := by
      rw [Dev.headRt_congr (congrArg Fhm.heads (hcsma.fhm.resolve_left (by decide)))]
      exact hsession
    have hreg' : (d.csma x.rate t0).2.2.headReg? i = some r := by
      rw [Dev.headReg?, hcsma.dur.resolve_left (by decide)]
      exact hreg'
    obtain ⟨o, ho, hmatch⟩ := Dev.newOrder_kept hserves' hsession' hreg' x.rxCh true true false (d.csma x.rate t0).1 (d.csma x.rate t0).2.1 p
      (.partner h.src id) (o := { (Dev.newOrder _ _ _ _ _ _ _ _ _ _).1 with sfdEnd := t0 }) rfl
    exact ⟨o, ho, hkept hmatch⟩

end Sys2Proof.Machine

namespace Sys2Proof.Machine

set_option Elab.async false

/-! A Runner link comes up, goes down, or sends again (R425, R428). -/

theorem prlKept_linkStatus : ∀ l < 3, prlKept (F.PRL_L_STATUS_UP.at l).off = true := by decide

theorem linkStatus_ne_status : ∀ l < 3, (F.PRL_L_STATUS_UP.at l).off ≠ F.PRL_INT_STATUS_LINK_UP.off := by decide

theorem Dev.flag_of_get {d : Dev} {x : Fld} {n : Nat} (h : d.get x = n) : d.flag x = decide (n ≠ 0) := by rw [Dev.flag, h]

theorem linkStatus_bit : ∀ l < 3, Nat.testBit 0x1000000040000 (regBit (F.PRL_L_STATUS_UP.at l).off) = true := by decide

/-- Another field of a link's status leaves whether it is up. -/
theorem Dev.get_linkUp_set {x : Fld} (hl : x.lo ≤ x.hi) (hd : F.PRL_L_STATUS_UP.hi < x.lo ∨ x.hi < F.PRL_L_STATUS_UP.lo) (d : Dev) (l v : Nat) :
    (d.set (x.at l) v).get (F.PRL_L_STATUS_UP.at l) = d.get (F.PRL_L_STATUS_UP.at l) :=
  Dev.get_set_apart (x := x.at l) (y := F.PRL_L_STATUS_UP.at l) (show F.PRL_L_STATUS_UP.hi < 32 by decide) hl hd d v

theorem Dev.get_linkUp_same (d : Dev) (l v : Nat) : (d.set (F.PRL_L_STATUS_UP.at l) v).get (F.PRL_L_STATUS_UP.at l) = v % 2 :=
  Dev.get_set_same d _ v (show F.PRL_L_STATUS_UP.hi < 32 by decide) (show F.PRL_L_STATUS_UP.lo ≤ F.PRL_L_STATUS_UP.hi by decide)

/-- An event leaves what the status of a link shows. -/
theorem Dev.raise_linkUp (d : Dev) {x : Fld} (a b : Nat) {l : Nat} (hl : l < 3) (hx : x.off = F.PRL_INT_STATUS_LINK_UP.off := by rfl) :
    (d.raise x a b).linkUp l = d.linkUp l := by
  rw [Dev.linkUp, Dev.flag, Dev.raise_prl_get d x a b (prlKept_linkStatus l hl),
    Dev.get_set_other (by rw [hx]; exact linkStatus_ne_status l hl), Dev.linkUp, Dev.flag]

theorem Dev.PairKept.linkUp {d d' : Dev} (h : d.PairKept d') {l : Nat} (hl : l < 3) : d'.linkUp l = d.linkUp l := by
  rw [Dev.linkUp, Dev.flag, h.get _ (prlKept_linkStatus l hl), Dev.linkUp, Dev.flag]

theorem Dev.PairKept.helloOut {d d' : Dev} (h : d.PairKept d') : d.PairKept d'.helloOut := by
  unfold Dev.helloOut
  split
  · exact h.sendRunner ..
  · exact h

/-- R425: an enabled link comes up. -/
theorem runnerLinkUp_raises (s : State) (l : Nat) (hup : s.dev.prl.up = true) (henabled : s.dev.trellis.device.linkEnable.testBit (l % 3) = true)
    (hdown : s.dev.linkUp (l % 3) = false) : Runs (.runnerLinkUp l) s fun d =>
      d.linkUp (l % 3) = true ∧ d.get F.PRL_INT_STATUS_LINK_UP = 1 := by
  have hl : l % 3 < 3 := Nat.mod_lt _ (by decide)
  refine ⟨_, rfl, rfl, ?_⟩
  dsimp -zeta only
  extract_lets n d₁
  rw [if_neg (by simp [n, hup, henabled, hdown])]
  have h₁ : d₁.linkUp n = true ∧ d₁.get F.PRL_INT_STATUS_LINK_UP = 1 := by
    refine ⟨?_, Dev.raise_prl_self ..⟩
    rw [Dev.raise_linkUp _ _ _ hl]
    refine Dev.flag_of_get (n := 1) ?_
    exact (Dev.get_linkUp_set (x := F.PRL_L_STATUS_LANES) (by decide) (by decide) ..).trans (Dev.get_linkUp_same ..)
  split
  · have hkept := (Dev.PairKept.refl d₁).helloOut
    rw [hkept.linkUp hl, hkept.get F.PRL_INT_STATUS_LINK_UP]
    exact h₁
  · exact h₁

/-- R425: the frames that are due go again; none is due for the last time. -/
theorem runnerRetransmit_again (s : State) (l : Nat) (hnone : ((s.dev.link (l % 3)).unacked.any fun u =>
    decide (u.sentAt + cyclesOf 20 ≤ s.dev.cycles) && decide (32 ≤ u.tries)) = false) : Runs (.runnerRetransmit l) s fun d =>
      (d.link (l % 3)).unacked = (s.dev.link (l % 3)).unacked.map fun u =>
        if u.sentAt + cyclesOf 20 ≤ s.dev.cycles then { u with sentAt := s.dev.cycles, tries := u.tries + 1 } else u := by
  refine ⟨_, rfl, rfl, ?_⟩
  dsimp -zeta only
  extract_lets n x due d₁ again
  rw [if_neg (by simp only [x, n, due, hnone]; decide), Dev.link_setLink_same]
  have hcycles : d₁.cycles = s.dev.cycles := Dev.foldl_keeps Dev.cycles (fun d u => by
    unfold Dev.linkCount
    split <;> rfl) _ _
  refine List.map_congr_left fun u _ => ?_
  simp [again, due, hcycles]

/-- The status of a link that is down. -/
def Dev.clearLink (d : Dev) (l : Nat) : Dev :=
  (((d.setLink l {}).set (F.PRL_L_STATUS_UP.at l) 0).set (F.PRL_L_STATUS_LANES.at l) 0).set (F.PRL_L_STATUS_MAP_MISMATCH.at l) 0

/-- The device once its link `l` is down, before what that means to the pair. -/
def Dev.dropLink (d : Dev) (l : Nat) : Dev :=
  if d.linkUp l then ((d.clearLink l).linkCount l 4).raise F.PRL_INT_STATUS_LINK_DOWN l else d.clearLink l

section
variable (d : Dev) (l : Nat)

theorem Dev.clearLink_up : (d.clearLink l).linkUp l = false := by
  refine Dev.flag_of_get (n := 0) ?_
  exact (Dev.get_linkUp_set (x := F.PRL_L_STATUS_MAP_MISMATCH) (by decide) (by decide) ..).trans
    ((Dev.get_linkUp_set (x := F.PRL_L_STATUS_LANES) (by decide) (by decide) ..).trans (Dev.get_linkUp_same ..))

theorem Dev.dropLink_pairUp : (d.dropLink l).prl.up = d.prl.up := by
  unfold Dev.dropLink
  split
  · rw [(Dev.raise_prl ..).up, Dev.linkCount_prl]
    rfl
  · rfl

variable {l} (hl : l < 3)
include hl

theorem Dev.clearLink_edits : Edits 0x1000000040000 d (d.clearLink l) :=
  Dev.set_edits (linkStatus_bit l hl) (Dev.set_edits (linkStatus_bit l hl) (Dev.set_edits (linkStatus_bit l hl)
    (Dev.setLink_edits (h := .refl d))))

theorem Dev.dropLink_edits : Edits 0x340040004c003 d (d.dropLink l) := by
  unfold Dev.dropLink
  split
  · exact Dev.raise_edits (h := Dev.linkCount_edits (h := (d.clearLink_edits hl).mono))
  · exact (d.clearLink_edits hl).mono

theorem Dev.dropLink_trellis : (d.dropLink l).trellis = d.trellis := by
  rw [Dev.trellis, (d.dropLink_edits hl).trl.resolve_left (by decide), Dev.trellis]

theorem Dev.dropLink_isMirrorLink : (d.dropLink l).isMirrorLink l = d.isMirrorLink l := by
  rw [Dev.isMirrorLink, d.dropLink_trellis hl, d.dropLink_pairUp, Dev.isMirrorLink]

theorem Dev.dropLink_pairState : (d.dropLink l).pairState = d.pairState := (d.dropLink_edits hl).get F.PRL_STATUS_STATE

end

section
variable {d : Dev} {l : Nat} (hl : l < 3)
include hl

theorem Dev.linkDown_plain (h : d.isMirrorLink l = false) : d.linkDown l = d.dropLink l := by
  have hdef : d.linkDown l = if (d.dropLink l).isMirrorLink l then (d.dropLink l).partnerCut else d.dropLink l := rfl
  rw [hdef, if_neg (by simp [d.dropLink_isMirrorLink hl, h])]

theorem Dev.linkDown_mirror (h : d.isMirrorLink l = true) : d.linkDown l = (d.dropLink l).partnerCut := by
  have hdef : d.linkDown l = if (d.dropLink l).isMirrorLink l then (d.dropLink l).partnerCut else d.dropLink l := rfl
  rw [hdef, if_pos (by simp [d.dropLink_isMirrorLink hl, h])]

/-- A link that was up goes down, and shows it. -/
theorem Dev.dropLink_shows (hup : d.linkUp l = true) :
    (d.dropLink l).linkUp l = false ∧ (d.dropLink l).get F.PRL_INT_STATUS_LINK_DOWN = 1 := by
  rw [Dev.dropLink, if_pos hup]
  refine ⟨?_, Dev.raise_prl_self ..⟩
  rw [Dev.raise_linkUp _ _ _ hl, ((Dev.PairKept.refl (d.clearLink l)).linkCount l 4).linkUp hl]
  exact d.clearLink_up l

/-- It starts anew, but for what the event of its fall sends to a standby. -/
theorem Dev.dropLink_link (halone : d.mirroring = false) : (d.dropLink l).link l = {} := by
  have hclear : (d.clearLink l).link l = {} := Maps.getD_put_same ..
  unfold Dev.dropLink
  split
  · have hcleared : Edits 0x1000000040000 d ((d.clearLink l).linkCount l 4) := Dev.linkCount_edits (h := d.clearLink_edits hl)
    have halone' : ((d.clearLink l).linkCount l 4).mirroring = false := by
      rw [Dev.mirroring, Dev.pairState, hcleared.get F.PRL_STATUS_STATE, hcleared.get F.PRL_STATUS_PARTNER_STATE]
      exact halone
    rw [Dev.link_congr (Dev.raise_prl_alone halone' ..), Dev.link_congr (Dev.linkCount_prl ..), hclear]
  · exact hclear

end

/-- R425: a link to another pair goes down. -/
theorem runnerLinkDown_drops (s : State) (l : Nat) (hmirror : s.dev.isMirrorLink (l % 3) = false) (hup : s.dev.linkUp (l % 3) = true)
    (halone : s.dev.mirroring = false) : Runs (.runnerLinkDown l) s fun d =>
      d.linkUp (l % 3) = false ∧ d.link (l % 3) = {} ∧ d.get F.PRL_INT_STATUS_LINK_DOWN = 1 := by
  obtain ⟨hdown, hshown⟩ := Dev.dropLink_shows (Nat.mod_lt l (by decide)) hup
  refine ⟨_, rfl, rfl, ?_⟩
  dsimp only
  rw [Dev.linkDown_plain (Nat.mod_lt l (by decide)) hmirror]
  exact ⟨hdown, Dev.dropLink_link (Nat.mod_lt l (by decide)) halone, hshown⟩

/-- R425: the 32nd transmission without an acknowledgement takes the link down. -/
theorem runnerRetransmit_drops (s : State) (l : Nat) (hlast : ((s.dev.link (l % 3)).unacked.any fun u =>
    decide (u.sentAt + cyclesOf 20 ≤ s.dev.cycles) && decide (32 ≤ u.tries)) = true) (hup : s.dev.linkUp (l % 3) = true)
    (hmirror : s.dev.isMirrorLink (l % 3) = false) : Runs (.runnerRetransmit l) s fun d =>
      d.linkUp (l % 3) = false ∧ d.get F.PRL_INT_STATUS_LINK_DOWN = 1 := by
  refine ⟨_, rfl, rfl, ?_⟩
  dsimp -zeta only
  extract_lets n x due
  rw [if_pos (show _ = true from hlast), Dev.linkDown_plain (Nat.mod_lt l (by decide)) hmirror]
  exact Dev.dropLink_shows (Nat.mod_lt l (by decide)) hup

end Sys2Proof.Machine

namespace Sys2Proof.Machine

set_option Elab.async false

/-! What a lost partner, or its HELLO, means to a device of a pair (R404, R412, R426, R428). -/

theorem Dev.PairKept.occur {d d' : Dev} (h : d.PairKept d') (c k a b : Nat) (p : Bool) : d.PairKept (d'.occur c k a b p) :=
  h.reserveEvents.trans ⟨fun _ ho => Face.reg_eventN _ _ _ _ _ _ _ _ ho, .refl _⟩

theorem Dev.heldAges_prl (d : Dev) : d.heldAges.prl = d.prl := by
  unfold Dev.heldAges
  extract_lets long d₁
  have h₁ : d₁.prl = d.prl := by
    dsimp only [d₁]
    split <;> rfl
  split
  · exact h₁
  · exact h₁

/-- A pair state just entered, and what entering it leaves of the standby's data. -/
theorem Dev.setPair_enters (d : Dev) {st : Nat} (hst : st < 8) : (d.setPair st).pairState = st ∧ (d.setPair st).prl.synced = d.prl.synced := by
  unfold Dev.setPair
  extract_lets d₁ prl d₂
  have hkept := (Dev.PairKept.refl d₂.showLines.showIng).helloOut
  have hshown : d₂.showLines.showIng.pairState = d₂.pairState := by
    have hing : Edits 0x1000000000 d₂.showLines d₂.showLines.showIng := Dev.showIng_edits (h := .refl _)
    rw [Dev.pairState, hing.get F.PRL_STATUS_STATE, Dev.showLines, Dev.get_set_other (by decide), Dev.get_set_other (by decide), Dev.pairState]
  have hsynced : d.heldAges.prl.synced = d.prl.synced := by rw [d.heldAges_prl]
  refine ⟨?_, hkept.prl.synced.trans hsynced⟩
  rw [Dev.pairState, hkept.get F.PRL_STATUS_STATE]
  refine hshown.trans ((Dev.get_set_same _ F.PRL_STATUS_STATE st).trans ?_)
  exact Nat.mod_eq_of_lt hst

/-- A standby that is out of step is SYNCING, trusts its data no longer, and says so (R412). -/
theorem Dev.unfit_standby {d : Dev} (h : d.pairState = PairSt.standby) (why : Nat) :
    (d.unfit why).pairState = PairSt.syncing ∧ (d.unfit why).prl.synced = false ∧ (d.unfit why).get F.PRL_INT_STATUS_STANDBY_FAULT = 1 := by
  have hagain : d.resyncAgain = (({ d with prl := { d.prl with synced := false } } : Dev).set F.PRL_RESYNC_PHASE 1).setPair PairSt.syncing :=
    if_neg (by rw [h]; decide)
  obtain ⟨hstate, hsynced⟩ := Dev.setPair_enters (({ d with prl := { d.prl with synced := false } } : Dev).set F.PRL_RESYNC_PHASE 1)
    (st := PairSt.syncing) (by decide)
  rw [Dev.unfit, if_pos (.inl h), hagain]
  refine ⟨?_, ?_, Dev.raise_prl_self ..⟩
  · rw [Dev.pairState, Dev.raise_prl_get _ _ _ _ (y := F.PRL_STATUS_STATE), Dev.get_set_other (by decide)]
    exact hstate
  · rw [(Dev.raise_prl ..).synced, hsynced]
    rfl

/-- The device of a pair whose partner is out of reach. -/
def Dev.alone (d : Dev) : Dev := { d.setPartner PairSt.unknown with prl := { d.prl with hello := none } }

theorem Dev.setPartner_state (d : Dev) {st : Nat} (hst : st < 8) : (d.setPartner st).get F.PRL_STATUS_PARTNER_STATE = st := by
  have hing : Edits 0x1000000000 (d.set F.PRL_STATUS_PARTNER_STATE st) (d.setPartner st) := Dev.showIng_edits (h := .refl _)
  rw [hing.get F.PRL_STATUS_PARTNER_STATE, Dev.get_set_same _ F.PRL_STATUS_PARTNER_STATE]
  exact Nat.mod_eq_of_lt hst

theorem Dev.setPartner_pairState (d : Dev) (st : Nat) : (d.setPartner st).pairState = d.pairState := by
  have hing : Edits 0x1000000000 (d.set F.PRL_STATUS_PARTNER_STATE st) (d.setPartner st) := Dev.showIng_edits (h := .refl _)
  rw [Dev.pairState, hing.get F.PRL_STATUS_STATE, Dev.get_set_apart (by decide) (by decide) (by decide), Dev.pairState]

theorem Dev.alone_pairState (d : Dev) : d.alone.pairState = d.pairState := d.setPartner_pairState _

/-- A standby that loses its partner is out of step (R428). -/
theorem Dev.partnerCut_standby {d : Dev} (h : d.pairState = PairSt.standby) : d.partnerCut = d.alone.unfit 2 := by
  have hstate : d.alone.pairState = PairSt.standby := d.alone_pairState.trans h
  have hdef : d.partnerCut = if d.alone.pairState = PairSt.active then _ else
      if d.alone.pairState = PairSt.standby then d.alone.unfit 2 else d.alone := rfl
  rw [hdef, if_neg (by rw [hstate]; decide), if_pos hstate]

/-- An active device that loses its partner stays active, and its partner is unknown (R428). -/
theorem Dev.partnerCut_active {d : Dev} (h : d.pairState = PairSt.active) :
    d.partnerCut.pairState = PairSt.active ∧ d.partnerCut.get F.PRL_STATUS_PARTNER_STATE = PairSt.unknown := by
  have hstate : d.alone.pairState = PairSt.active := d.alone_pairState.trans h
  have hpartner : d.alone.get F.PRL_STATUS_PARTNER_STATE = PairSt.unknown := d.setPartner_state (by decide)
  have hgone : Edits 0x34e7e000fff4b d.alone d.partnerCut := by
    have hdef : d.partnerCut = if d.alone.pairState = PairSt.active then
        if !d.alone.prl.outstanding.isEmpty then d.alone.partnerGone.raise F.ING_INT_STATUS_MIRROR_LOST else d.alone.partnerGone else _ := rfl
    rw [hdef, if_pos hstate]
    split
    · exact Dev.raise_edits (h := Dev.partnerGone_edits (h := .refl _))
    · exact Dev.partnerGone_edits (h := .refl _)
  exact ⟨(hgone.get F.PRL_STATUS_STATE).trans hstate, (hgone.get F.PRL_STATUS_PARTNER_STATE).trans hpartner⟩

section
variable (s : State) (l : Nat) (hmirror : s.dev.isMirrorLink (l % 3) = true)
include hmirror

/-- R428: a standby that loses MIRROR_LINK is SYNCING. -/
theorem runnerLinkDown_standby (hstate : s.dev.pairState = PairSt.standby) : Runs (.runnerLinkDown l) s fun d =>
    d.pairState = PairSt.syncing ∧ d.prl.synced = false ∧ d.get F.PRL_INT_STATUS_STANDBY_FAULT = 1 := by
  have hl : l % 3 < 3 := Nat.mod_lt l (by decide)
  refine ⟨_, rfl, rfl, ?_⟩
  dsimp only
  have hdropped := (s.dev.dropLink_pairState hl).trans hstate
  rw [Dev.linkDown_mirror hl hmirror, Dev.partnerCut_standby hdropped]
  exact Dev.unfit_standby ((Dev.alone_pairState _).trans hdropped) 2

/-- R428: an active device that loses MIRROR_LINK goes on alone. -/
theorem runnerLinkDown_active (hstate : s.dev.pairState = PairSt.active) : Runs (.runnerLinkDown l) s fun d =>
    d.pairState = PairSt.active ∧ d.get F.PRL_STATUS_PARTNER_STATE = PairSt.unknown := by
  have hl : l % 3 < 3 := Nat.mod_lt l (by decide)
  refine ⟨_, rfl, rfl, ?_⟩
  dsimp only
  rw [Dev.linkDown_mirror hl hmirror]
  exact Dev.partnerCut_active ((s.dev.dropLink_pairState hl).trans hstate)

end

/-! HELLO (R404, R426). -/

/-- The device once a HELLO's link shows its peer and its peer's bucket map. -/
def Dev.helloTaken (d : Dev) (h : RHdr) (x : Hello) : Dev :=
  let d := (d.setLink h.link { d.link h.link with mapDigest := some x.mapDigest }).set (F.PRL_L_STATUS_PEER.at h.link) h.src
  let differs := x.mapDigest ≠ d.helloOf.mapDigest
  let d := if differs ∧ ¬d.flag (F.PRL_L_STATUS_MAP_MISMATCH.at h.link) then d.occur Ev.mapMismatch 0x10 h.link h.src else d
  d.set (F.PRL_L_STATUS_MAP_MISMATCH.at h.link) (if differs then 1 else 0)

theorem Dev.get_linkPeer_same (d : Dev) (l v : Nat) : (d.set (F.PRL_L_STATUS_PEER.at l) v).get (F.PRL_L_STATUS_PEER.at l) = v % 8 :=
  Dev.get_set_same d _ v (show F.PRL_L_STATUS_PEER.hi < 32 by decide) (show F.PRL_L_STATUS_PEER.lo ≤ F.PRL_L_STATUS_PEER.hi by decide)

theorem Dev.get_linkPeer_mismatch (d : Dev) (l v : Nat) :
    (d.set (F.PRL_L_STATUS_MAP_MISMATCH.at l) v).get (F.PRL_L_STATUS_PEER.at l) = d.get (F.PRL_L_STATUS_PEER.at l) :=
  Dev.get_set_apart (x := F.PRL_L_STATUS_MAP_MISMATCH.at l) (y := F.PRL_L_STATUS_PEER.at l) (show F.PRL_L_STATUS_PEER.hi < 32 by decide)
    (show F.PRL_L_STATUS_MAP_MISMATCH.lo ≤ F.PRL_L_STATUS_MAP_MISMATCH.hi by decide)
    (show F.PRL_L_STATUS_PEER.hi < F.PRL_L_STATUS_MAP_MISMATCH.lo ∨ F.PRL_L_STATUS_MAP_MISMATCH.hi < F.PRL_L_STATUS_PEER.lo by decide) d v

section
variable {d : Dev} {h : RHdr} {x : Hello} (hl : h.link < 3)

theorem Dev.helloTaken_heard (d : Dev) (h : RHdr) (x : Hello) :
    ((d.helloTaken h x).link h.link).mapDigest = some x.mapDigest ∧ ((d.helloTaken h x).link h.link).ack = (d.link h.link).ack := by
  unfold Dev.helloTaken
  extract_lets link d₁ differs d₂
  have h₁ : d₁.link h.link = { d.link h.link with mapDigest := some x.mapDigest } := Dev.link_setLink_same ..
  have h₂ : d₁.HeardKept d₂ := by
    dsimp only [d₂]
    split
    · exact (Dev.HeardKept.refl d₁).occur ..
    · exact .refl d₁
  have h₃ : d₁.HeardKept (d₂.set (F.PRL_L_STATUS_MAP_MISMATCH.at h.link) (if differs then 1 else 0)) := h₂.trans (.of_links rfl)
  exact ⟨(h₃.mapDigest _).trans (by rw [h₁]), (h₃.ack _).trans (by rw [h₁])⟩

include hl

theorem Dev.helloTaken_edits : Edits 0x340040004c003 d (d.helloTaken h x) := by
  unfold Dev.helloTaken
  extract_lets link d₁ differs d₂
  have h₁ : Edits 0x1000000040000 d d₁ := Dev.set_edits (linkStatus_bit _ hl) (Dev.setLink_edits (h := .refl d))
  have h₂ : Edits 0x340040004c003 d d₂ := by
    dsimp only [d₂]
    split
    · exact Dev.occur_edits (h := h₁.mono)
    · exact h₁.mono
  exact Dev.set_edits (sub_bit (m := 0x340040004c003) (by decide) (linkStatus_bit _ hl)) h₂

theorem Dev.helloTaken_peer (hsrc : h.src < 8) : (d.helloTaken h x).get (F.PRL_L_STATUS_PEER.at h.link) = h.src := by
  unfold Dev.helloTaken
  extract_lets link d₁ differs d₂
  have h₁ : d₁.get (F.PRL_L_STATUS_PEER.at h.link) = h.src := (Dev.get_linkPeer_same ..).trans (Nat.mod_eq_of_lt hsrc)
  have h₂ : d₁.PairKept d₂ := by
    dsimp only [d₂]
    split
    · exact (Dev.PairKept.refl d₁).occur ..
    · exact .refl d₁
  exact (Dev.get_linkPeer_mismatch ..).trans ((h₂.get (F.PRL_L_STATUS_PEER.at h.link) (prlKept_linkStatus _ hl)).trans h₁)

end

section
variable {s : State} {h : RHdr} {x : Hello} (hh : s.dev.hears h (.hello x))
include hh

/-- What a HELLO does, once its link shows it: it is the partner's, or that is all. -/
theorem hello_runs {P : Dev → Prop} (hp : P (if s.dev.trellis.device.pairMode = 1 ∧ h.link = s.dev.trellis.device.mirrorLink ∧
    h.src = s.dev.trellis.device.partner then ((s.dev.heardFrame h).helloTaken h x).partnerHello x else (s.dev.heardFrame h).helloTaken h x)) :
    Runs (.hello h x) s P := by
  have htrellis : ((s.dev.heardFrame h).helloTaken h x).trellis = s.dev.trellis := by
    rw [Dev.trellis, (Dev.helloTaken_edits hh.2.1).trl.resolve_left (by decide), ← s.dev.heardFrame_trellis h, Dev.trellis]
  refine ⟨_, rfl, rfl, ?_⟩
  dsimp -zeta only
  rw [hh.runnerIn fun hm => by cases hm]
  rw [← htrellis] at hp
  exact hp

/-- R426: a HELLO on a link between pairs shows the link's peer and its bucket map. -/
theorem hello_peer (hlink : h.link ≠ s.dev.trellis.device.mirrorLink) (hsrc : h.src < 8) : Runs (.hello h x) s fun d =>
    (d.link h.link).mapDigest = some x.mapDigest ∧ (d.link h.link).ack = h.seq ∧ d.get (F.PRL_L_STATUS_PEER.at h.link) = h.src := by
  obtain ⟨hdigest, hack⟩ := (s.dev.heardFrame h).helloTaken_heard h x
  refine hello_runs hh ?_
  rw [if_neg fun hp => hlink hp.2.1]
  exact ⟨hdigest, hack.trans (s.dev.heardFrame_ack h), Dev.helloTaken_peer hh.2.1 hsrc⟩

end

/-- A partner that becomes the standby of an active device is synchronised from then on (R404, R411). -/
theorem Dev.partnerHello_standby {d : Dev} {x : Hello} (hstate : d.pairState = PairSt.active) (hx : x.state = PairSt.standby)
    (hwas : d.get F.PRL_STATUS_PARTNER_STATE ≠ PairSt.standby) :
    (d.partnerHello x).get F.PRL_STATUS_PARTNER_STATE = PairSt.standby ∧ (d.partnerHello x).prl.hello = some x ∧
      (d.partnerHello x).prl.unsynced = false ∧ (d.partnerHello x).get F.PRL_INT_STATUS_PARTNER_SYNCED = 1 := by
  unfold Dev.partnerHello
  extract_lets was prl d₁ since d₂ lines prl₃ d₃ d₄ prl₅ d₅ d₆
  have h₂ : d₂ = d₁.heldAges := if_neg (by rw [hx]; decide)
  have hshown : Edits 0x1000000040000 d d₃ := by
    have h₁ : Edits 0x1000000040000 d d₁ := Edits.upd (h := .refl d)
    have h₂' : Edits 0x1000000040000 d d₂ := by
      rw [h₂]
      exact Dev.heldAges_edits (h := h₁)
    exact Dev.setLines_edits (h := Edits.upd (h := h₂'))
  have hhello : d₃.prl.hello = some x := by
    show d₂.prl.hello = some x
    rw [h₂, Dev.heldAges_prl]
  clear_value d₃
  have hactive : d₄.pairState = PairSt.active := by
    rw [Dev.setPartner_pairState, Dev.pairState, hshown.get F.PRL_STATUS_STATE]
    exact hstate
  have hpartner : d₄.get F.PRL_STATUS_PARTNER_STATE = PairSt.standby := by
    rw [← hx]
    exact d₃.setPartner_state (by rw [hx]; decide)
  have hing : Edits 0x1000000000 { d₄ with prl := { d₄.prl with unsynced := false } } d₅ := Dev.showIng_edits (h := .refl _)
  have hsynced := Dev.raise_prl d₅ F.PRL_INT_STATUS_PARTNER_SYNCED 0 0
  rw [if_neg (by simp [hactive]), if_pos hx, if_neg hwas]
  refine ⟨?_, hsynced.hello.trans hhello, hsynced.unsynced, Dev.raise_prl_self ..⟩
  rw [Dev.raise_prl_get _ _ _ _ (y := F.PRL_STATUS_PARTNER_STATE), Dev.get_set_other (by decide), hing.get F.PRL_STATUS_PARTNER_STATE]
  exact hpartner

/-- R404, R411: the HELLO of a partner that has become the standby. -/
theorem hello_synced (s : State) (h : RHdr) (x : Hello) (hh : s.dev.hears h (.hello x)) (hlink : h.link = s.dev.trellis.device.mirrorLink)
    (hmode : s.dev.trellis.device.pairMode = 1) (hsrc : h.src = s.dev.trellis.device.partner) (hstate : s.dev.pairState = PairSt.active)
    (hx : x.state = PairSt.standby) (hwas : s.dev.get F.PRL_STATUS_PARTNER_STATE ≠ PairSt.standby) : Runs (.hello h x) s fun d =>
      d.get F.PRL_STATUS_PARTNER_STATE = PairSt.standby ∧ d.prl.hello = some x ∧ d.prl.unsynced = false ∧
        d.get F.PRL_INT_STATUS_PARTNER_SYNCED = 1 := by
  have htaken : Edits 0x340040004c003 (s.dev.heardFrame h) ((s.dev.heardFrame h).helloTaken h x) := Dev.helloTaken_edits hh.2.1
  refine hello_runs hh ?_
  rw [if_pos ⟨hmode, hlink, hsrc⟩]
  refine Dev.partnerHello_standby ?_ hx ?_
  · rw [Dev.pairState, htaken.get F.PRL_STATUS_STATE]
    exact (s.dev.heardFrame_pairState h).trans hstate
  · rw [htaken.get F.PRL_STATUS_PARTNER_STATE, (s.dev.heardFrame_kept h).get F.PRL_STATUS_PARTNER_STATE]
    exact hwas

/-- Settles O44: the lemmas above, one for each clause. -/
theorem runnerLinks : Obligations.RunnerLinks :=
  ⟨runnerLinkDown_drops, runnerLinkDown_standby, runnerLinkDown_active, runnerLinkUp_raises, runnerRetransmit_again,
    runnerRetransmit_drops, fun _ _ _ hh => hello_peer hh, hello_synced, forwardUp_counts, acceptNotice_commits, forwardDown_refused,
    forwardDown_orders, downConfirm_acked, downConfirm_ignored⟩

end Sys2Proof.Machine

namespace Sys2Proof.Maps

/-- An entry that is changed reads as changed. -/
theorem get?_modify_same {α : Type} {m : List (Nat × α)} {k : Nat} (h : has m k = true) (f : α → α) :
    ∃ v, get? k m = some v ∧ get? k (modify m k f) = some (f v) := by
  obtain ⟨v, hv⟩ := Option.isSome_iff_exists.1 h
  refine ⟨v, hv, ?_⟩
  rw [modify, hv]
  exact get?_put_same ..

end Sys2Proof.Maps

namespace Sys2Proof.Machine

set_option Elab.async false

/-! What a completed command's events, campaign entries and journal records leave of the contexts and of the pair (R9, R265, R285). -/

/-- Recording an event may reserve event numbers in the durable state, and changes nothing else of it (R491). -/
theorem Dev.reserveEvents_dur (d : Dev) : ∃ n, d.reserveEvents.dur = { d.dur with evReserved := n } := by
  unfold Dev.reserveEvents
  split
  · exact ⟨_, rfl⟩
  · split
    · exact ⟨_, rfl⟩
    · exact ⟨_, rfl⟩

theorem Dev.raise_dur (d : Dev) (x : Fld) (a b : Nat) : ∃ n, (d.raise x a b).dur = { d.dur with evReserved := n } :=
  d.reserveEvents_dur

theorem Dev.raise_ctxs (d : Dev) (x : Fld) (a b : Nat) : (d.raise x a b).dur.ctxs = d.dur.ctxs := by
  obtain ⟨n, e⟩ := d.raise_dur x a b
  rw [e]

/-- A journaled record makes its change, and no other, to the durable state. -/
theorem Dev.journal_dur (d : Dev) (r : JRec) : (d.journal r).dur = d.dur.control r := by
  have happend : (d.append r).2.dur = d.dur :=
    (Dev.append_snd_edits (m := 0x1400000048002) (h := .refl d)).dur.resolve_left (by decide)
  show (d.append r).2.dur.control r = _
  rw [happend]

theorem Dev.foldl_journal_dur (l : List JRec) (d : Dev) : (l.foldl Dev.journal d).dur = l.foldl Dur.control d.dur := by
  induction l generalizing d with
  | nil => rfl
  | cons r l ih =>
    refine (ih _).trans ?_
    rw [d.journal_dur]
    rfl

/-- A step that keeps a relation to its start keeps it along a list. -/
theorem Dev.PairKept.foldl {α : Type} {op : Dev → α → Dev} (hop : ∀ (x : Dev) a, x.PairKept (op x a)) (l : List α) (d : Dev) :
    d.PairKept (l.foldl op d) :=
  List.foldlRecOn l op (motive := fun d' => d.PairKept d') (.refl d) fun _ hd' a _ => hd'.trans (hop _ a)

/-- `d'` agrees with `d` on the allocated contexts, the kept PRL registers and the pair's own state. -/
structure Dev.ContextsKept (d d' : Dev) : Prop where
  ctxs : d'.dur.ctxs = d.dur.ctxs
  pair : d.PairKept d'

theorem Dev.ContextsKept.refl (d : Dev) : d.ContextsKept d := ⟨rfl, .refl d⟩

section
variable {d d' : Dev} (h : d.ContextsKept d')
include h

theorem Dev.ContextsKept.trans {d'' : Dev} (h' : d'.ContextsKept d'') : d.ContextsKept d'' :=
  ⟨h'.ctxs.trans h.ctxs, h.pair.trans h'.pair⟩

/-- An operation whose law covers neither the durable state nor anything of the pair. -/
theorem Dev.ContextsKept.edits {m : Nat} {d'' : Dev} (e : Edits m d' d'')
    (hm : m.testBit 14 = false ∧ m.testBit 18 = false ∧ m.testBit 31 = false ∧ m.testBit 48 = false := by decide) : d.ContextsKept d'' := by
  obtain ⟨hdur, hprl, hstatus, hblock⟩ := hm
  refine h.trans ⟨by rw [e.dur.resolve_left (by simp [hdur])], fun off ho => ?_, e.prl.resolve_left (by simp [hprl]) ▸ .refl _⟩
  have hb := prlKept_block ho
  refine e.reg off (by omega) ?_
  unfold regBit
  split
  · exact hstatus
  · rw [hb]
    exact hblock

theorem Dev.ContextsKept.set (x : Fld) (v : Nat) (hx : prlKept x.off = false := by decide) : d.ContextsKept (d'.set x v) :=
  h.trans ⟨rfl, (Dev.PairKept.refl d').set x v hx⟩

theorem Dev.ContextsKept.raise (x : Fld) (a b : Nat) (hx : prlKept x.off = false := by decide) : d.ContextsKept (d'.raise x a b) :=
  h.trans ⟨d'.raise_ctxs x a b, (Dev.PairKept.refl d').raise x a b hx⟩

theorem Dev.ContextsKept.sendRunner (l dst : Nat) (m : RunnerMsg) : d.ContextsKept (d'.sendRunner l dst m) :=
  h.trans ⟨congrArg Dur.ctxs ((Dev.sendRunner_edits (m := 0x1000000040002) (h := .refl d')).dur.resolve_left (by decide)),
    (Dev.PairKept.refl d').sendRunner l dst m⟩

/-- A record that changes no context. -/
theorem Dev.ContextsKept.journal (r : JRec) (hr : (d'.dur.control r).ctxs = d'.dur.ctxs := by rfl) : d.ContextsKept (d'.journal r) :=
  h.trans ⟨by rw [d'.journal_dur, hr], (Dev.PairKept.refl d').journal r⟩

theorem Dev.ContextsKept.foldl {α : Type} {op : Dev → α → Dev} (hop : ∀ (x : Dev) a, x.ContextsKept (op x a)) (l : List α) :
    d.ContextsKept (l.foldl op d') :=
  List.foldlRecOn l op (motive := fun d' => d.ContextsKept d') h fun _ hd' a _ => hd'.trans (hop _ a)

theorem Dev.ContextsKept.ringPut {d'' : Dev} {n : Nat} {replay : Bool} {body : List Word} (e : d'.ringPut n replay body = some d'') :
    d.ContextsKept d'' := by
  have hplace := Face.place_edits (m := 0x400000003) (e := d'.env) (n := n) (b := replay) (ws := body) (h := .refl d'.face)
  unfold Dev.ringPut at e
  split at e
  · split at e
    · next f heq =>
      rw [heq] at hplace
      cases e
      exact h.edits (Edits.updFace hplace (.refl d'))
    · next f heq =>
      rw [heq] at hplace
      cases e
      exact (h.edits (Edits.updFace hplace (.refl d'))).raise F.RNG_INT_STATUS_MARK_LOST 0 n
  · cases e

theorem Dev.ContextsKept.drainCheck (n : Nat) : d.ContextsKept (d'.drainCheck n) := by
  have hx : prlKept (F.RNG_n_STATUS_HOST_BUF_FULL.at n).off = false := prlKept_at (Fld.at_block _ _) (by decide)
  unfold Dev.drainCheck
  extract_lets x stopped
  split
  · split
    · exact h
    · exact (h.set x 1 hx).raise F.RNG_INT_STATUS_HOST_BUF_FULL 0 n
  · exact h.set x 0 hx

theorem Dev.ContextsKept.putStatus (n : Nat) (body : List Word) : d.ContextsKept (d'.putStatus n body) := by
  unfold Dev.putStatus
  extract_lets r
  split
  · next d'' e =>
    split at e
    · exact (h.ringPut e).drainCheck n
    · cases e
  · split
    · exact h.edits (Dev.setRing_edits (m := 1) (h := .refl d'))
    · exact (h.edits (Edits.updFace (m := 0x400000000) (Face.add_at_edits (h := .refl d'.face)) (.refl d'))).raise F.RNG_INT_STATUS_RING_DROP 0 n

theorem Dev.ContextsKept.campEntry (slot state cause flags meter seq received sec ns : Nat) :
    d.ContextsKept (d'.campEntry slot state cause flags meter seq received sec ns) := by
  unfold Dev.campEntry
  extract_lets id b
  split
  · exact h.putStatus _ _
  · exact h

theorem Dev.ContextsKept.memberEntry (slot meter : Nat) (m : CampMember) (flags seq : Nat) :
    d.ContextsKept (d'.memberEntry slot meter m flags seq) := by
  unfold Dev.memberEntry
  extract_lets d₁
  have h₁ : d.ContextsKept d₁ := h.campEntry ..
  split
  · exact h₁.raise F.DST_INT_STATUS_METER_FAILED _ _
  · exact h₁

theorem Dev.ContextsKept.campEnd (slot : Nat) : d.ContextsKept (d'.campEnd slot) := by
  unfold Dev.campEnd
  split
  · extract_lets ms
    split
    · refine Dev.ContextsKept.raise ?_ F.DST_INT_STATUS_ENDED slot 0
      unfold Dev.setCampaign
      extract_lets d₁
      refine Dev.ContextsKept.campEntry ?_ ..
      exact ((h.edits (Dev.stopRounds_edits (m := 0x40000000400) (h := .refl d'))).journal _).edits
        (Dev.showCamp_edits (m := 0x40000000000) (h := .refl _))
    · exact h
  · exact h

theorem Dev.ContextsKept.campsEnd : d.ContextsKept d'.campsEnd :=
  h.foldl (op := fun (x : Dev) (p : Nat × Campaign) => (x.showCamp p.1).campEnd p.1)
    (fun x p => ((Dev.ContextsKept.refl x).edits (Dev.showCamp_edits (m := 0x40000000000) (h := .refl x))).campEnd p.1) d'.dur.campaigns

theorem Dev.ContextsKept.discardMeter (i : Nat) : d.ContextsKept (d'.discardMeter i) := by
  unfold Dev.discardMeter
  extract_lets cancels d₁
  have h₁ : d.ContextsKept d₁ := h.edits (Dev.forgetMeter_edits (m := 0x800080e01) (h := Dev.countBy_edits (h := .refl d')))
  split
  · exact ((h₁.set F.KEY_CMD_RESULT _).set F.KEY_CMD_BUSY 0).raise F.KEY_INT_STATUS_CMD_DONE _ 0
  · exact h₁

theorem Dev.ContextsKept.sendHeld (cycles : List Nat) : d.ContextsKept (d'.sendHeld cycles) := by
  unfold Dev.sendHeld
  extract_lets lacks slots d₁
  split
  · exact h
  · have h₁ : d.ContextsKept d₁ := h.edits (m := 0x40) (Edits.upd (h := .refl d'))
    exact h₁.sendRunner ..

end

/-! A context command ends (R185, R189). -/

/-- A context command has ended with a result: it is no longer busy, and CMD_DONE is set. -/
structure Dev.CtxAnswered (d : Dev) (result : Nat) : Prop where
  busy : d.get F.CTX_CMD_BUSY = 0
  result : d.get F.CTX_CMD_RESULT = result % 16
  done : d.get F.CTX_INT_STATUS_CMD_DONE = 1

/-- What does not touch the context block's registers leaves the answer. -/
theorem Dev.CtxAnswered.edits {d d' : Dev} {m result : Nat} (h : d.CtxAnswered result) (e : Edits m d d')
    (hm : m.testBit 35 = false := by decide) : d'.CtxAnswered result :=
  ⟨(e.get F.CTX_CMD_BUSY (hx := hm)).trans h.busy, (e.get F.CTX_CMD_RESULT (hx := hm)).trans h.result,
    (e.get F.CTX_INT_STATUS_CMD_DONE (hx := hm)).trans h.done⟩

/-- Showing the occupancy leaves it too. -/
theorem Dev.CtxAnswered.showCtx {d : Dev} {result : Nat} (h : d.CtxAnswered result) : d.showCtx.CtxAnswered result := by
  have hget {y : Fld} (hy : y.off ≠ F.CTX_STATUS_ALLOCATED.off ∧ y.off ≠ F.CTX_CACHE_RESIDENT.off ∧ y.off ≠ F.CTX_KEYS_RESIDENT.off ∧
      y.off ≠ F.CTX_PINNED_PINNED.off) : d.showCtx.get y = d.get y := by
    obtain ⟨hallocated, hcache, hkeys, hpinned⟩ := hy
    rw [Dev.showCtx, Dev.get_set_other hpinned, Dev.get_set_other hkeys, Dev.get_set_other hcache, Dev.get_set_other hallocated]
  exact ⟨(hget (by decide)).trans h.busy, (hget (by decide)).trans h.result, (hget (by decide)).trans h.done⟩

theorem Dev.finish_ctx_answered (d : Dev) (result : Nat) : (d.finish result .ctx).CtxAnswered result := by
  refine ⟨?_, ?_, Dev.raise_self ..⟩
  · rw [Dev.finish, Dev.raise_get, Dev.get_set_other (by decide)]
    exact Dev.get_set_same _ F.CTX_CMD_BUSY 0
  · rw [Dev.finish, Dev.raise_get, Dev.get_set_other (by decide), Dev.get_set_apart (by decide) (by decide) (by decide)]
    exact Dev.get_set_same _ F.CTX_CMD_RESULT result

theorem Dev.ContextsKept.finish_ctx {d d' : Dev} (h : d.ContextsKept d') (result : Nat) : d.ContextsKept (d'.finish result .ctx) :=
  ((((h.set F.CTX_STATUS_ALLOCATED _).set F.CTX_CMD_RESULT result).set F.CTX_CMD_BUSY 0).raise F.CTX_INT_STATUS_CMD_DONE result 0)

/-- A command's changes are made and it ends: the contexts are what its records make of them. -/
theorem Dev.complete_ctx {c : PairCmd} (hctx : c.finish = .ctx) (d : Dev) :
    (∃ u : Dur, u.ctxs = d.dur.ctxs ∧ (d.complete c).dur.ctxs = (c.recs.foldl Dur.control u).ctxs) ∧ d.PairKept (d.complete c) ∧
      (d.complete c).CtxAnswered c.result := by
  unfold Dev.complete
  extract_lets d₁ d₂ d₃ d₄ d₅ freeing
  have h₁ : d.ContextsKept d₁ := (Dev.ContextsKept.refl d).foldl (fun _ i => (Dev.ContextsKept.refl _).discardMeter i) _
  have h₂ : d₁.PairKept d₂ := .foldl (fun _ r => (Dev.PairKept.refl _).journal r) _ _
  have h₃ : d₂.ContextsKept d₃ := by
    dsimp only [d₃]
    cases c.stage with
    | none => exact .refl d₂
    | some p => exact (Dev.ContextsKept.refl d₂).edits (Dev.putSlot_edits (m := 0x200000040) (h := .refl d₂))
  have h₄ : d₂.ContextsKept d₄ := by
    dsimp only [d₄]
    split
    · exact h₃.sendHeld []
    · exact h₃
  have h₅ : d₂.ContextsKept d₅ := h₄.foldl (fun _ _ => (Dev.ContextsKept.refl _).edits (Dev.emit_edits (m := 2) (h := .refl _))) _
  have h₆ : d₂.ContextsKept { d₅ with eng := { d₅.eng with freeing := freeing } } := h₅.trans ⟨rfl, fun _ _ => rfl, .refl _⟩
  rw [hctx]
  refine ⟨⟨d₁.dur, h₁.ctxs, ?_⟩, ?_, Dev.finish_ctx_answered ..⟩
  · rw [(h₆.finish_ctx c.result).ctxs, Dev.foldl_journal_dur]
  · exact (h₁.pair.trans h₂).trans (h₆.finish_ctx c.result).pair

/-- What the changes mean to campaigns then leaves the contexts, the pair and the answer (R265). -/
theorem Dev.completeCmd_ctx {c : PairCmd} (hctx : c.finish = .ctx) (d : Dev) :
    (∃ u : Dur, u.ctxs = d.dur.ctxs ∧ (d.completeCmd c).dur.ctxs = (c.recs.foldl Dur.control u).ctxs) ∧ d.PairKept (d.completeCmd c) ∧
      (d.completeCmd c).CtxAnswered c.result := by
  obtain ⟨⟨u, hu, hctxs⟩, hpair, hanswered⟩ := Dev.complete_ctx hctx d
  unfold Dev.completeCmd
  rw [hctx]
  dsimp -zeta only
  extract_lets freed d₁ fail
  have hkept : d₁.ContextsKept (freed.foldl fail d₁).campsEnd :=
    ((Dev.ContextsKept.refl d₁).foldl (fun _ _ => (Dev.ContextsKept.refl _).memberEntry ..) freed).campsEnd
  have hedits : Edits 0x344040004c403 d₁ (freed.foldl fail d₁).campsEnd :=
    Dev.campsEnd_edits (h := Edits.foldl _ (fun _ _ h => Dev.memberEntry_edits (h := h)) _ (.refl d₁))
  exact ⟨⟨u, hu, hkept.ctxs.trans hctxs⟩, hpair.trans hkept.pair, hanswered.edits hedits⟩

end Sys2Proof.Machine

namespace Sys2Proof.Machine

set_option Elab.async false

/-! The context commands (R185, R186, R190, R192) and the key epoch (R195). -/

/-- A context command is carried out on a device that is not busy, and not refused by a standby (R189). -/
theorem Dev.ctxCmd_runs {d : Dev} {standbyToo : Bool} (hbusy : d.flag F.CTX_CMD_BUSY = false)
    (hserves : standbyToo = true ∨ d.standbyRefuses = false) (f : Dev → Dev) : d.ctxCmd standbyToo f = f d := by
  have hruns : ¬(standbyToo = false ∧ d.standbyRefuses = true) := by
    rcases hserves with h | h
    · simp [h]
    · simp [h]
  rw [Dev.ctxCmd, if_neg (by simp [hbusy]), if_neg hruns]

/-- With no synchronised standby a context command's change is made at once. -/
theorem Dev.pairRun_ctx {d : Dev} (hsynced : d.standbySynced = false) (r : JRec) :
    (∃ u : Dur, u.ctxs = d.dur.ctxs ∧ (d.pairRun { recs := [r], finish := .ctx }).dur.ctxs = (u.control r).ctxs) ∧
      (d.pairRun { recs := [r], finish := .ctx }).CtxAnswered 0 := by
  rw [Dev.pairRun, if_neg (by simp [hsynced])]
  obtain ⟨hctxs, -, hanswered⟩ := Dev.completeCmd_ctx (c := { recs := [r], finish := .ctx }) rfl d
  exact ⟨hctxs, hanswered⟩

section
variable {d : Dev} {i : Nat} (hnew : d.dur.ctxs.any (fun p => p.2.address == d.newCtx.address && p.2.mbus == d.newCtx.mbus) = false)
  (hclass : (d.trellis.class? d.newCtx.cls).isSome = true) (hcal : d.newCtx.cal = 0xFF ∨ d.calendarKnown d.newCtx.cal = true)
  (howner : d.ownsAddr d.newCtx.address = true) (hsynced : d.standbySynced = false)
  (hindex : (d.dur.indexPut i d.newCtx).isSome = true)
include hnew hclass hcal howner hsynced hindex

/-- An ALLOC that passes its checks puts the context that the registers describe at its index, given or the first free one. -/
theorem Dev.alloc_puts {at_ : Option Nat} (hat : at_ = some i ∧ Maps.has d.dur.ctxs i = false ∨
      at_ = none ∧ d.dur.ctxs.length < 1048576 ∧ i = d.dur.freed.headD d.dur.neverUsed) :
    Maps.get? i (d.alloc at_).dur.ctxs = some d.newCtx ∧ (d.alloc at_).CtxAnswered 0 := by
  have hcal' : ¬(d.newCtx.cal ≠ 0xFF ∧ d.calendarKnown d.newCtx.cal = false) := by
    rcases hcal with h | h
    · simp [h]
    · simp [h]
  have hruns : d.alloc at_ = (d.set F.CTX_RESULT_INDEX_INDEX i).pairRun { recs := [.alloc i d.newCtx], finish := .ctx } := by
    unfold Dev.alloc
    extract_lets c free inUse
    have hfree : inUse = false := by
      rcases hat with ⟨rfl, h⟩ | ⟨rfl, -⟩
      · exact h
      · rfl
    rw [if_neg (by simp [c, hnew]), if_neg (by simp [hfree]), if_neg (by simp [c, Option.isSome_iff_ne_none.1 hclass]), if_neg hcal', if_neg (by simp [c, howner])]
    have htarget : ¬(d.dur.indexPut i c).isNone = true := by simp [c, Option.isSome_iff_ne_none.1 hindex]
    rcases hat with ⟨rfl, -⟩ | ⟨rfl, hroom, rfl⟩
    · exact if_neg htarget
    · simp only [free, if_pos hroom]
      exact if_neg htarget
  have hsynced' : (d.set F.CTX_RESULT_INDEX_INDEX i).standbySynced = false := by
    rw [((Dev.PairKept.refl d).set F.CTX_RESULT_INDEX_INDEX i).standbySynced, hsynced]
  rw [hruns]
  obtain ⟨⟨u, -, hctxs⟩, hanswered⟩ := Dev.pairRun_ctx hsynced' (.alloc i d.newCtx)
  refine ⟨?_, hanswered⟩
  rw [hctxs]
  exact Maps.get?_put_same ..

end

/-- R185, R186: ALLOC. -/
theorem ctxAlloc_allocates (s : State) (i : Nat) (hbusy : s.dev.flag F.CTX_CMD_BUSY = false) (hserves : s.dev.standbyRefuses = false)
    (hnew : s.dev.dur.ctxs.any (fun p => p.2.address == s.dev.newCtx.address && p.2.mbus == s.dev.newCtx.mbus) = false)
    (hclass : (s.dev.trellis.class? s.dev.newCtx.cls).isSome = true)
    (hcal : s.dev.newCtx.cal = 0xFF ∨ s.dev.calendarKnown s.dev.newCtx.cal = true) (howner : s.dev.ownsAddr s.dev.newCtx.address = true)
    (hroom : s.dev.dur.ctxs.length < 1048576) (hsynced : s.dev.standbySynced = false) (hi : i = s.dev.dur.freed.headD s.dev.dur.neverUsed)
    (hindex : (s.dev.dur.indexPut i s.dev.newCtx).isSome = true) : Runs .ctxAlloc s fun d =>
      Maps.get? i d.dur.ctxs = some s.dev.newCtx ∧ d.get F.CTX_CMD_RESULT = 0 ∧ d.get F.CTX_INT_STATUS_CMD_DONE = 1 := by
  refine runs_of_on (f := fun d => d.ctxCmd false fun d => d.alloc none) ?_
  rw [Dev.ctxCmd_runs hbusy (.inr hserves)]
  obtain ⟨hctx, hanswered⟩ := Dev.alloc_puts hnew hclass hcal howner hsynced hindex (.inr ⟨rfl, hroom, hi⟩)
  exact ⟨hctx, hanswered.result, hanswered.done⟩

/-- R185, R186: ALLOC_AT. -/
theorem ctxAllocAt_allocates (s : State) (i : Nat) (hbusy : s.dev.flag F.CTX_CMD_BUSY = false) (hserves : s.dev.standbyRefuses = false)
    (hnew : s.dev.dur.ctxs.any (fun p => p.2.address == s.dev.newCtx.address && p.2.mbus == s.dev.newCtx.mbus) = false)
    (hclass : (s.dev.trellis.class? s.dev.newCtx.cls).isSome = true)
    (hcal : s.dev.newCtx.cal = 0xFF ∨ s.dev.calendarKnown s.dev.newCtx.cal = true) (howner : s.dev.ownsAddr s.dev.newCtx.address = true)
    (hsynced : s.dev.standbySynced = false) (hfree : Maps.has s.dev.dur.ctxs (i % 1048576) = false)
    (hindex : (s.dev.dur.indexPut (i % 1048576) s.dev.newCtx).isSome = true) : Runs (.ctxAllocAt i) s fun d =>
      Maps.get? (i % 1048576) d.dur.ctxs = some s.dev.newCtx ∧ d.get F.CTX_CMD_RESULT = 0 := by
  refine runs_of_on (f := fun d => d.ctxCmd false fun d => d.alloc (some (i % 1048576))) ?_
  rw [Dev.ctxCmd_runs hbusy (.inr hserves)]
  obtain ⟨hctx, hanswered⟩ := Dev.alloc_puts hnew hclass hcal howner hsynced hindex (.inl ⟨rfl, hfree⟩)
  exact ⟨hctx, hanswered.result⟩

/-- A context whose work has ended goes, and the FREE ends (R190). -/
theorem Dev.freeCtx_frees {d : Dev} (hsynced : d.standbySynced = false) (i : Nat) :
    Maps.get? i (d.freeCtx i).dur.ctxs = none ∧ (d.freeCtx i).CtxAnswered 0 := by
  unfold Dev.freeCtx
  extract_lets d₁ freeing e d₂
  have h₁ : d.ContextsKept d₁ := (Dev.ContextsKept.refl d).discardMeter i
  have h₂ : d.ContextsKept d₂ :=
    h₁.edits (m := 0x1800000800) (Dev.showIng_edits (h := Dev.dropKeys_edits (h := Edits.upd (h := .refl d₁))))
  obtain ⟨⟨u, -, hctxs⟩, hanswered⟩ := Dev.pairRun_ctx (h₂.pair.standbySynced.trans hsynced) (.free i)
  refine ⟨?_, hanswered.showCtx⟩
  rw [(Dev.showCtx_edits (m := 0x800000000) (h := .refl _)).dur.resolve_left (by decide), hctxs]
  exact Maps.get?_del_same ..

/-- R190: FREE of a context with no work in flight. -/
theorem ctxFree_frees (s : State) (i : Nat) (hbusy : s.dev.flag F.CTX_CMD_BUSY = false) (hserves : s.dev.standbyRefuses = false)
    (hctx : Maps.has s.dev.dur.ctxs (i % 1048576) = true) (hnot : s.dev.eng.freeing.contains (i % 1048576) = false)
    (hidle : Maps.has s.dev.eng.flight (i % 1048576) = false) (hsynced : s.dev.standbySynced = false) : Runs (.ctxFree i) s fun d =>
      Maps.get? (i % 1048576) d.dur.ctxs = none ∧ d.get F.CTX_CMD_RESULT = 0 := by
  refine ⟨_, rfl, rfl, ?_⟩
  dsimp -zeta only
  rw [Dev.ctxCmd_runs hbusy (.inr hserves)]
  extract_lets j
  rw [if_neg (by simp [j, hctx]), if_neg (by simp only [j, hnot]; decide), if_neg (by simp [j, hidle])]
  obtain ⟨hgone, hanswered⟩ := Dev.freeCtx_frees hsynced j
  exact ⟨hgone, hanswered.result⟩

/-- R190: FREE of a context that is not allocated answers NOT_ALLOCATED. -/
theorem ctxFree_unallocated (s : State) (i : Nat) (hbusy : s.dev.flag F.CTX_CMD_BUSY = false) (hserves : s.dev.standbyRefuses = false)
    (hctx : Maps.has s.dev.dur.ctxs (i % 1048576) = false) : Runs (.ctxFree i) s fun d =>
      d.dur.ctxs = s.dev.dur.ctxs ∧ d.get F.CTX_CMD_RESULT = Cx.notAllocated := by
  refine ⟨_, rfl, rfl, ?_⟩
  dsimp -zeta only
  rw [Dev.ctxCmd_runs hbusy (.inr hserves)]
  extract_lets j
  rw [if_pos hctx]
  exact ⟨((Dev.ContextsKept.refl s.dev).finish_ctx _).ctxs, (Dev.finish_ctx_answered ..).result⟩

/-! Pins (R192). -/

/-- The pin of a context follows its record. -/
theorem Dev.pinnedCtx_of_get {d : Dev} {i : Nat} {c : Ctx} (h : Maps.get? i d.dur.ctxs = some c) : d.pinnedCtx i = c.pinned := by
  rw [Dev.pinnedCtx, h]
  rfl

/-- An allocated context whose record is changed by a command that then ends. -/
theorem Dev.finish_modified {d : Dev} {ctxs : List (Nat × Ctx)} {i : Nat} {f : Ctx → Ctx} (hctx : Maps.has ctxs i = true)
    (hd : d.dur.ctxs = Maps.modify ctxs i f) : ∃ c, (d.showCtx.finish 0 .ctx).pinnedCtx i = (f c).pinned := by
  obtain ⟨c, -, hc⟩ := Maps.get?_modify_same hctx f
  have hkept : d.ContextsKept (d.showCtx.finish 0 .ctx) :=
    ((Dev.ContextsKept.refl d).edits (Dev.showCtx_edits (m := 0x800000000) (h := .refl d))).finish_ctx 0
  refine ⟨c, Dev.pinnedCtx_of_get ?_⟩
  rw [hkept.ctxs, hd, hc]

theorem Dev.pinNow_pins {d : Dev} {i : Nat} (hctx : Maps.has d.dur.ctxs i = true) :
    (d.pinNow i).pinnedCtx i = true ∧ (d.pinNow i).CtxAnswered 0 := by
  unfold Dev.pinNow
  extract_lets pin e u d₁
  obtain ⟨c, hc⟩ := Dev.finish_modified (d := d₁) (f := pin) hctx rfl
  exact ⟨hc, Dev.finish_ctx_answered ..⟩

/-- A PIN that finds its context resident, or a way for it, is done; another waits. -/
theorem Dev.tryPin_pins {d : Dev} {i : Nat} (hctx : Maps.has d.dur.ctxs i = true) :
    if d.eng.resident i || (d.bringCtx i true).isSome then (d.tryPin i).pinnedCtx i = true ∧ (d.tryPin i).get F.CTX_CMD_RESULT = 0
    else (d.tryPin i).eng.pinning = some i ∧ (d.tryPin i).get F.CTX_CMD_BUSY = 1 := by
  unfold Dev.tryPin
  cases hresident : d.eng.resident i with
  | true =>
    obtain ⟨hpinned, hanswered⟩ := Dev.pinNow_pins hctx
    exact ⟨hpinned, hanswered.result⟩
  | false =>
    cases hway : d.bringCtx i true with
    | some d' =>
      have hdur : d'.dur = d.dur := (Dev.bringCtx_edits (m := 0x800000800) hway (h := .refl d)).dur.resolve_left (by decide)
      obtain ⟨hpinned, hanswered⟩ := Dev.pinNow_pins (d := d') (i := i) (by rw [hdur]; exact hctx)
      exact ⟨hpinned, hanswered.result⟩
    | none => exact ⟨rfl, Dev.get_set_same _ F.CTX_CMD_BUSY 1⟩

section
variable (s : State) (i : Nat) (hbusy : s.dev.flag F.CTX_CMD_BUSY = false) (hctx : Maps.has s.dev.dur.ctxs (i % 1048576) = true)
  (hnot : s.dev.pinnedCtx (i % 1048576) = false)
  (hset : ((s.dev.dur.ctxs.filter fun p => p.2.pinned).filter fun p => p.1 % 4096 == i % 1048576 % 4096).length < 8)
  (hmax : (s.dev.dur.ctxs.filter fun p => p.2.pinned).length < s.dev.get F.CTX_PIN_MAX)
include hbusy hctx hnot hset hmax

/-- R192: a PIN within the limits on pins is tried; a context that is not resident counts as a miss. -/
theorem ctxPin_tries {P : Dev → Prop}
    (h : P ((if s.dev.eng.resident (i % 1048576) then s.dev else s.dev.count R.CTX_CNT_n 0).tryPin (i % 1048576))) :
    Runs (.ctxPin i) s P := by
  refine ⟨_, rfl, rfl, ?_⟩
  dsimp -zeta only
  rw [Dev.ctxCmd_runs hbusy (.inl rfl)]
  extract_lets j pins
  rw [if_neg (by simp [j, hctx]), if_neg (by simp [j, hnot]), if_neg (by simp only [pins, j]; omega)]
  exact h

/-- R192: PIN. -/
theorem ctxPin_pins : Runs (.ctxPin i) s fun d =>
    if s.dev.eng.resident (i % 1048576) || ((s.dev.count R.CTX_CNT_n 0).bringCtx (i % 1048576) true).isSome then
      d.pinnedCtx (i % 1048576) = true ∧ d.get F.CTX_CMD_RESULT = 0
    else d.eng.pinning = some (i % 1048576) ∧ d.get F.CTX_CMD_BUSY = 1 := by
  refine ctxPin_tries s i hbusy hctx hnot hset hmax ?_
  cases hresident : s.dev.eng.resident (i % 1048576) with
  | true =>
    have h := Dev.tryPin_pins hctx
    rw [hresident] at h
    exact h
  | false =>
    have h := Dev.tryPin_pins (d := s.dev.count R.CTX_CNT_n 0) hctx
    rw [Dev.count_eng, hresident] at h
    exact h

end

/-- R192: UNPIN. -/
theorem ctxUnpin_unpins (s : State) (i : Nat) (hbusy : s.dev.flag F.CTX_CMD_BUSY = false)
    (hctx : Maps.has s.dev.dur.ctxs (i % 1048576) = true) : Runs (.ctxUnpin i) s fun d =>
      d.pinnedCtx (i % 1048576) = false ∧ d.get F.CTX_CMD_RESULT = 0 := by
  refine ⟨_, rfl, rfl, ?_⟩
  dsimp -zeta only
  rw [Dev.ctxCmd_runs hbusy (.inl rfl)]
  extract_lets j off
  rw [if_neg (by simp [j, hctx])]
  obtain ⟨c, hc⟩ := Dev.finish_modified (d := { s.dev with dur := { s.dev.dur with ctxs := Maps.modify s.dev.dur.ctxs j off } }) (f := off) hctx rfl
  exact ⟨hc, (Dev.finish_ctx_answered ..).result⟩

/-- R195: the key epoch advances, and shows. -/
theorem keyEpochTick_advances (s : State) : Runs .keyEpochTick s fun d =>
    d.eng.keyEpoch = (s.dev.eng.keyEpoch + 1) % 256 ∧ d.get F.CTX_KEY_AGE_EPOCH = d.eng.keyEpoch := by
  refine ⟨_, rfl, rfl, rfl, ?_⟩
  refine (Dev.get_set_same _ F.CTX_KEY_AGE_EPOCH _).trans ?_
  exact Nat.mod_mod _ 256

/-- Settles O19: the lemmas above, one for each clause. -/
theorem contextCommands : Obligations.ContextCommands :=
  ⟨ctxAlloc_allocates, ctxAllocAt_allocates, ctxFree_frees, ctxFree_unallocated, ctxPin_pins, ctxUnpin_unpins, keyEpochTick_advances⟩

end Sys2Proof.Machine

namespace Sys2Proof.Machine

set_option Elab.async false

/-! What a device of a pair keeps as it puts frames on the Runner links, enters a pair state, or starts to synchronise again (R404, R412,
R413, R425). -/

/-- A frame that this device takes, not one for the active device of the pair, is its message's. -/
theorem runs_of_heard {c : Instr} {s : State} {h : RHdr} {m : RunnerMsg} {f : Dev → Dev} {P : Dev → Prop} (hh : s.dev.hears h m)
    (hm : m.toActive = false) (hP : P (f (s.dev.heardFrame h))) (e : exec c s = s.on fun d => d.runnerIn h m f := by rfl) : Runs c s P := by
  refine ⟨_, e, rfl, ?_⟩
  dsimp only
  rw [hh.runnerIn (by simp [hm])]
  exact hP

section
variable (d : Dev) (l dst : Nat) (m : RunnerMsg)

/-- A frame that goes out waits on its link, and changes nothing else of the pair's state. -/
theorem Dev.sendRunner_prl : ∃ links, (d.sendRunner l dst m).prl = { d.prl with links := links } := by
  unfold Dev.sendRunner Dev.putFrame
  extract_lets x d₁ y
  have h₁ : d₁.prl = d.prl := Dev.linkCount_prl ..
  exact ⟨_, congrArg (fun p : Prl => { p with links := Maps.put p.links l y }) h₁⟩

theorem Dev.sendRunner_emits : (d.sendRunner l dst m).lastOut.isSome = true := by
  unfold Dev.sendRunner Dev.putFrame
  extract_lets x d₁ y
  show d₁.face.out.head?.isSome = true
  dsimp only [d₁]
  unfold Dev.linkCount
  split
  · rfl
  · rfl

/-- A frame that is heard changes its link, and nothing else of the pair's state. -/
theorem Dev.heardFrame_prl (h : RHdr) : ∃ links, (d.heardFrame h).prl = { d.prl with links := links } := by
  unfold Dev.heardFrame
  extract_lets x
  rw [Dev.linkCount_prl]
  exact ⟨_, rfl⟩

theorem Dev.heardFrame_takesMirror (h : RHdr) : (d.heardFrame h).takesMirror = d.takesMirror := by
  rw [Dev.takesMirror, d.heardFrame_pairState, (d.heardFrame_kept h).prl.synced, Dev.takesMirror]

end

/-- The pair's state as a device enters pair state `st`. -/
def Dev.entered (d : Dev) (st : Nat) : Prl :=
  { d.prl with
    up := true
    standbySince := if st = PairSt.standby then some d.cycles else none
    listenAt := if st = PairSt.listen then d.cycles else d.prl.listenAt
    controlSince := none
    taking := false
    handover := none }

theorem Dev.setPair_prl (d : Dev) (st : Nat) : (d.entered st).SameBut (d.setPair st).prl := by
  unfold Dev.setPair
  extract_lets d₁ prl d₂
  have hprl : d₁.prl = d.prl := d.heldAges_prl
  have hcycles : d₁.cycles = d.cycles := (Dev.heldAges_edits (m := 0x1000000000000) (h := .refl d)).cycles.resolve_left (by decide)
  have h₂ : d₂.showLines.showIng.prl = d.entered st := by
    rw [Dev.entered, ← hprl, ← hcycles]
    exact ((Dev.showIng_edits (m := 0x1000000000) (h := .refl _)).prl.resolve_left (by decide)).trans rfl
  rw [← h₂]
  exact (Dev.PairKept.refl d₂.showLines.showIng).helloOut.prl

/-- The registers that show a pair state, the sideband lines, the ages of control and the progress of a resynchronisation. -/
def showsPair : List Nat := [F.PRL_STATUS_STATE.off, F.PRL_SIDEBAND_LEVEL.off, F.PRL_DRILL_SELF_AGE.off]

/-- A kept PRL register that none of these is. -/
theorem Dev.setPair_reg (d : Dev) (st : Nat) {off : Nat} (hk : prlKept off = true) (hoff : off ∉ showsPair) :
    (d.setPair st).reg off = d.reg off := by
  simp only [showsPair, List.mem_cons, List.not_mem_nil, or_false, not_or] at hoff
  obtain ⟨hstatus, hlines, hages⟩ := hoff
  have hblock := prlKept_block hk
  unfold Dev.setPair
  extract_lets d₁ prl d₂
  have h₁ : d₁.reg off = d.reg off := by
    dsimp only [d₁]
    unfold Dev.heldAges
    extract_lets long x
    have hx : x.reg off = d.reg off := by
      dsimp only [x]
      split
      · exact Dev.reg_set_other hages _ _
      · rfl
    split
    · exact (Dev.reg_set_other (x := F.PRL_DRILL_PARTNER_AGE) hages _ _).trans hx
    · exact hx
  have h₂ : d₂.reg off = d.reg off := (Dev.reg_set_other hstatus _ _).trans h₁
  have h₃ : d₂.showLines.reg off = d.reg off := by
    rw [Dev.showLines, Dev.reg_set_other hlines, Dev.reg_set_other (x := F.PRL_SIDEBAND_RELEASED) hlines, h₂]
  have h₄ : d₂.showLines.showIng.reg off = d.reg off := by
    have hing : Edits 0x1000000000 d₂.showLines d₂.showLines.showIng := Dev.showIng_edits (h := .refl _)
    refine (hing.reg off (by omega) ?_).trans h₃
    rw [regBit, if_neg (show ¬off = 0x100004 from hstatus), hblock]
    decide
  exact ((Dev.PairKept.refl d₂.showLines.showIng).helloOut.reg off hk).trans h₄

/-- A device that goes back to SYNCING trusts its data no longer (R412, R413). -/
structure Dev.Restarts (d d' : Dev) : Prop where
  state : d'.pairState = PairSt.syncing
  synced : d'.prl.synced = false
  enginesOk : d'.prl.enginesOk = d.prl.enginesOk
  confirmed : d'.dur.confirmed = d.dur.confirmed
  mismatches : d'.reg (R.PRL_CNT_n.at 9) = d.reg (R.PRL_CNT_n.at 9)

theorem Dev.resyncAgain_restarts (d : Dev) : d.Restarts d.resyncAgain := by
  have hdur : d.resyncAgain.dur = d.dur := (Dev.resyncAgain_edits (m := 0x1001080040002) (h := .refl d)).dur.resolve_left (by decide)
  unfold Dev.resyncAgain
  extract_lets t was prl d₁ d₂
  have hprl := (d₁.set F.PRL_RESYNC_PHASE 1).setPair_prl PairSt.syncing
  have hstate : d₂.pairState = PairSt.syncing := (Dev.setPair_enters _ (by decide)).1
  have hreg : d₂.reg (R.PRL_CNT_n.at 9) = d.reg (R.PRL_CNT_n.at 9) :=
    (Dev.setPair_reg _ _ (by decide) (by decide)).trans (Dev.reg_set_other (by decide) d₁ 1)
  have hsent : d₂.PairKept (if was = PairSt.syncing then d₂.sendRunner t.mirrorLink t.partner (.resync .again) else d₂) := by
    split
    · exact (Dev.PairKept.refl d₂).sendRunner ..
    · exact .refl d₂
  exact ⟨(hsent.get F.PRL_STATUS_STATE).trans hstate, hsent.prl.synced.trans hprl.synced, hsent.prl.enginesOk.trans hprl.enginesOk,
    congrArg Dur.confirmed hdur, (hsent.reg _ (by decide)).trans hreg⟩

/-- So does one that is out of step, which it says (R412). -/
theorem Dev.unfit_restarts {d : Dev} (h : d.pairState = PairSt.standby ∨ d.pairState = PairSt.syncing) (why : Nat) :
    d.Restarts (d.unfit why) ∧ (d.unfit why).get F.PRL_INT_STATUS_STANDBY_FAULT = 1 := by
  obtain ⟨hstate, hsynced, hengines, hconfirmed, hmismatches⟩ := d.resyncAgain_restarts
  rw [Dev.unfit, if_pos h]
  have hraised := Dev.raise_prl d.resyncAgain F.PRL_INT_STATUS_STANDBY_FAULT why 0
  refine ⟨⟨?_, hraised.synced.trans hsynced, hraised.enginesOk.trans hengines, ?_, ?_⟩, Dev.raise_prl_self ..⟩
  · rw [Dev.pairState, Dev.raise_prl_get _ _ _ _ (y := F.PRL_STATUS_STATE), Dev.get_set_other (by decide)]
    exact hstate
  · obtain ⟨n, e⟩ := d.resyncAgain.raise_dur F.PRL_INT_STATUS_STANDBY_FAULT why 0
    rw [e]
    exact hconfirmed
  · rw [← hmismatches]
    refine BitVec.eq_of_toNat_eq ?_
    rw [← Dev.get_whole, ← Dev.get_whole, Dev.raise_prl_get _ _ _ _ (y := ⟨R.PRL_CNT_n.at 9, 0, 0, 31, 0⟩), Dev.get_set_other (by decide)]

/-- A device that takes the mirror is a standby, or synchronises. -/
theorem Dev.takesMirror_state {d : Dev} (h : d.takesMirror = true) : d.pairState = PairSt.standby ∨ d.pairState = PairSt.syncing := by
  simp only [Dev.takesMirror, Bool.or_eq_true, Bool.and_eq_true, beq_iff_eq] at h
  exact h.imp_right And.left

/-! The mirror (R411, R412). -/

theorem Dev.handoverCheck_none {d : Dev} (h : d.prl.handover = none) : d.handoverCheck = d := by
  rw [Dev.handoverCheck, h]

/-- R24, R411: a CONFIRM takes from what is outstanding the entries it confirms. -/
theorem confirm_confirms (s : State) (h : RHdr) (l : Nat) (hh : s.dev.hears h (.confirm l)) (hactive : s.dev.pairState = PairSt.active)
    (hmeters : ∀ e ∈ (confirmedBy l s.dev.prl.outstanding).1, e.meter = none) (hhandover : s.dev.prl.handover = none) :
    Runs (.confirm h l) s fun d => d.prl.outstanding = (confirmedBy l s.dev.prl.outstanding).2 ∧ d.prl.unsynced = s.dev.prl.unsynced ∧
      d.jnl.mirrored = max s.dev.jnl.mirrored
        (if (confirmedBy l s.dev.prl.outstanding).2.any (fun e => decide (e.line ≤ l)) then l - 1 else l) := by
  have hjnl : (s.dev.heardFrame h).jnl = s.dev.jnl := (s.dev.heardFrame_edits h).jnl.resolve_left (by decide)
  have hheard := s.dev.heardFrame_pairState h
  obtain ⟨links, hprl⟩ := s.dev.heardFrame_prl h
  refine runs_of_heard hh rfl ?_
  generalize s.dev.heardFrame h = d at *
  have hout : d.prl.outstanding = s.dev.prl.outstanding := by rw [hprl]
  rw [if_neg (by simp [hheard, hactive]), hout]
  generalize confirmedBy l s.dev.prl.outstanding = p at *
  obtain ⟨done, left⟩ := p
  dsimp -zeta only at hmeters ⊢
  extract_lets prl d₁ d₂ d₃ whole jnl d₄ d₅ d₆
  have h₃ : d₃.prl = d₁.prl ∧ d₃.jnl = d.jnl := by
    dsimp only [d₃]
    split
    · exact ⟨rfl, rfl⟩
    · exact ⟨rfl, rfl⟩
  have h₆ : d₆ = d₅ := List.foldlRecOn done _ (motive := fun d' => d' = d₅) rfl fun d' hd' e he => by
    rw [hmeters e he]
    exact hd'
  have hreleased : Edits 0x230a d₅ (d₅.releaseAccepts (some done.length)) := Dev.releaseAccepts_edits (h := .refl d₅)
  have hpair : (d₅.releaseAccepts (some done.length)).prl = d₁.prl := (hreleased.prl.resolve_left (by decide)).trans h₃.1
  rw [h₆, Dev.handoverCheck_none (by rw [hpair]; dsimp only [d₁, prl]; rw [hprl]; exact hhandover), hpair,
    hreleased.jnl.resolve_left (by decide)]
  refine ⟨rfl, ?_, ?_⟩
  · show d.prl.unsynced = _
    rw [hprl]
  · show max d₃.jnl.mirrored whole = _
    rw [h₃.2, hjnl]

/-- R24, R411: the CONFIRM of the one outstanding entry, whose commit waits for nothing. -/
theorem confirm_empties (s : State) (h : RHdr) (l : Nat) (e : Sent) (hh : s.dev.hears h (.confirm l))
    (hactive : s.dev.pairState = PairSt.active) (hout : s.dev.prl.outstanding = [e]) (hline : e.line = l) (hmeter : e.meter = none)
    (hhandover : s.dev.prl.handover = none) : Runs (.confirm h l) s fun d =>
      d.prl.outstanding = [] ∧ d.prl.unsynced = s.dev.prl.unsynced ∧ d.jnl.mirrored = max s.dev.jnl.mirrored l := by
  have hby : confirmedBy l s.dev.prl.outstanding = ([e], []) := by simp [hout, confirmedBy, hline]
  have hruns := confirm_confirms s h l hh hactive (by simp [hby, hmeter]) hhandover
  rw [hby] at hruns
  exact hruns

/-- R411: a CONFIRM of an earlier line leaves the entry outstanding. -/
theorem confirm_earlier (s : State) (h : RHdr) (l : Nat) (e : Sent) (hh : s.dev.hears h (.confirm l))
    (hactive : s.dev.pairState = PairSt.active) (hout : s.dev.prl.outstanding = [e]) (hline : l < e.line)
    (hhandover : s.dev.prl.handover = none) : Runs (.confirm h l) s fun d => d.prl.outstanding = [e] := by
  have hby : confirmedBy l s.dev.prl.outstanding = ([], [e]) := by
    simp [hout, confirmedBy, Nat.lt_asymm hline, Nat.ne_of_gt hline]
  obtain ⟨t, hexec, hpending, houtstanding, -⟩ := confirm_confirms s h l hh hactive (by simp [hby]) hhandover
  exact ⟨t, hexec, hpending, houtstanding.trans (by rw [hby])⟩

/-- The line of an entry follows at a device that has heard the frame, as before. -/
theorem Dev.heardFrame_lineFollows (d : Dev) (h : RHdr) (l : Nat) : (d.heardFrame h).lineFollows l = d.lineFollows l := by
  rw [Dev.lineFollows, (d.heardFrame_edits h).jnl.resolve_left (by decide), Dev.lineFollows]

/-- R411: an entry whose line follows is appended, applied and confirmed. -/
theorem mirror_applies (s : State) (h : RHdr) (l r : Nat) (hh : s.dev.hears h (.mirror l (.confirm 7 r)))
    (htakes : s.dev.takesMirror = true) (hfollows : s.dev.lineFollows l = true) : Runs (.mirror h l (.confirm 7 r)) s fun d =>
      d.jnl.mirrored = l ∧ d.jnl.line = l ∧ Maps.getD d.dur.confirmed 7 0 = r ∧
        d.jnl.entries.getLast?.map (·.rec_) = some (.confirm 7 r) ∧ d.lastOut.isSome = true := by
  rw [← s.dev.heardFrame_takesMirror h] at htakes
  rw [← s.dev.heardFrame_lineFollows h] at hfollows
  refine runs_of_heard hh rfl ?_
  generalize s.dev.heardFrame h = d at *
  rw [if_neg (by simp [htakes]), if_neg (by simp [hfollows])]
  extract_lets crc prl d₁
  have hsent := Dev.sendRunner_edits (m := 0x1000000040002) (x1 := h.link) (x2 := h.src) (x3 := .confirm l)
    (h := .refl (d₁.applyMirrored l (.confirm 7 r)))
  rw [hsent.jnl.resolve_left (by decide), hsent.dur.resolve_left (by decide)]
  refine ⟨rfl, rfl, Maps.getD_put_same .., ?_, Dev.sendRunner_emits ..⟩
  exact congrArg (Option.map JEntry.rec_) List.getLast?_concat

/-- R412: an entry whose line does not follow makes the standby unfit. -/
theorem mirror_gap (s : State) (h : RHdr) (l : Nat) (r : JRec) (hh : s.dev.hears h (.mirror l r)) (htakes : s.dev.takesMirror = true)
    (hgap : s.dev.lineFollows l = false) : Runs (.mirror h l r) s fun d => d.pairState = PairSt.syncing ∧ d.prl.synced = false ∧
      d.dur.confirmed = s.dev.dur.confirmed ∧ d.get F.PRL_INT_STATUS_STANDBY_FAULT = 1 := by
  have hdur : (s.dev.heardFrame h).dur = s.dev.dur := (s.dev.heardFrame_edits h).dur.resolve_left (by decide)
  rw [← s.dev.heardFrame_takesMirror h] at htakes
  rw [← s.dev.heardFrame_lineFollows h] at hgap
  refine runs_of_heard hh rfl ?_
  rw [if_neg (by simp [htakes]), if_pos hgap, ← hdur]
  obtain ⟨hrestarts, hfault⟩ := Dev.unfit_restarts (Dev.takesMirror_state htakes) 0
  exact ⟨hrestarts.state, hrestarts.synced, hrestarts.confirmed, hfault⟩

/-- R412: a DIGEST that agrees begins the next. -/
theorem digest_agrees (s : State) (h : RHdr) (k : Nat) (hh : s.dev.hears h (.digest k)) (htakes : s.dev.takesMirror = true)
    (hk : k = s.dev.prl.crc) : Runs (.digest h k) s fun d => d.prl.crc = 0 ∧ d.prl.sinceDigest = 0 ∧ d.pairState = s.dev.pairState := by
  obtain ⟨links, hprl⟩ := s.dev.heardFrame_prl h
  refine runs_of_heard hh rfl ?_
  rw [if_neg (by simp [s.dev.heardFrame_takesMirror h, htakes])]
  extract_lets same prl d
  rw [if_pos (by simp [same, hprl, hk])]
  exact ⟨rfl, rfl, s.dev.heardFrame_pairState h⟩

/-- R412: one that does not is counted, and makes the standby unfit. -/
theorem digest_differs (s : State) (h : RHdr) (k : Nat) (hh : s.dev.hears h (.digest k)) (hstate : s.dev.pairState = PairSt.standby)
    (hk : k ≠ s.dev.prl.crc) : Runs (.digest h k) s fun d => d.pairState = PairSt.syncing ∧ s.dev.counted d R.PRL_CNT_n 9 ∧
      d.get F.PRL_INT_STATUS_STANDBY_FAULT = 1 := by
  obtain ⟨links, hprl⟩ := s.dev.heardFrame_prl h
  have hheard := s.dev.heardFrame_pairState h
  have hcount : (s.dev.heardFrame h).reg (R.PRL_CNT_n.at 9) = s.dev.reg (R.PRL_CNT_n.at 9) := (s.dev.heardFrame_kept h).reg _ (by decide)
  refine runs_of_heard hh rfl ?_
  rw [if_neg (by simp [Dev.takesMirror, hstate])]
  extract_lets same prl d
  rw [if_neg (by simp [same, hprl, hk])]
  have hd : (d.count R.PRL_CNT_n 9).pairState = PairSt.standby := by
    rw [Dev.pairState, Dev.get_of_reg (Dev.count_reg_other (by decide) d)]
    exact hheard.trans hstate
  obtain ⟨hrestarts, hfault⟩ := Dev.unfit_restarts (.inl hd) 1
  refine ⟨hrestarts.state, ?_, hfault⟩
  rw [Dev.counted, hrestarts.mismatches, ← hcount]
  exact d.count_counted R.PRL_CNT_n 9

/-! The standby's own tests (R412). -/

theorem Dev.showLines_pairState (d : Dev) : d.showLines.pairState = d.pairState := by
  rw [Dev.pairState, Dev.showLines, Dev.get_set_other (by decide), Dev.get_set_other (by decide), Dev.pairState]

/-- Engines that pass leave the standby live. -/
theorem standbySelftest_passes (s : State) (hstate : s.dev.pairState = PairSt.standby) : Runs (.standbySelftest true) s fun d =>
    d.prl.enginesOk = true ∧ d.pairState = PairSt.standby := by
  refine ⟨_, rfl, rfl, ?_⟩
  dsimp -zeta only
  rw [if_pos (.inl hstate)]
  exact ⟨rfl, (Dev.showLines_pairState _).trans hstate⟩

/-- Engines that fail make it unfit. -/
theorem standbySelftest_fails (s : State) (hstate : s.dev.pairState = PairSt.standby) : Runs (.standbySelftest false) s fun d =>
    d.prl.enginesOk = false ∧ d.pairState = PairSt.syncing ∧ d.get F.PRL_INT_STATUS_STANDBY_FAULT = 1 := by
  refine ⟨_, rfl, rfl, ?_⟩
  dsimp -zeta only
  rw [if_pos (.inl hstate)]
  extract_lets prl d
  obtain ⟨hrestarts, hfault⟩ := Dev.unfit_restarts (d := d) (.inl ((Dev.showLines_pairState _).trans hstate)) 3
  exact ⟨hrestarts.enginesOk, hrestarts.state, hfault⟩

end Sys2Proof.Machine

namespace Sys2Proof.Machine

set_option Elab.async false

/-! Resynchronisation (R413). -/

/-- Showing the overflow region may raise a condition, whose event may reserve event numbers. -/
theorem Dev.showOverflow_kept (d : Dev) :
    (∃ n, d.showOverflow.dur = { d.dur with evReserved := n }) ∧ d.prl.SameBut d.showOverflow.prl := by
  unfold Dev.showOverflow
  extract_lets d₁
  refine ⟨?_, Dev.condition_prl ..⟩
  unfold Dev.condition
  split
  · exact ⟨d.dur.evReserved, rfl⟩
  · exact Dev.raise_dur ..

/-- What a device that takes a snapshot holds then: the snapshot's contexts, and its own roots and DEVICE record. -/
theorem Dev.takeSnapshot_takes (d : Dev) (line : Nat) (u : Dur) (t : Trellis) (gens : List Nat) (serial : Nat) (slots : List (Nat × Staged))
    (grafts : List (Nat × Package)) (epochs : List Epoch) (objects : List (Nat × Bytes)) (cycles : List Nat) :
    let d' := d.takeSnapshot line u t gens serial slots grafts epochs objects cycles
    d'.prl.synced = true ∧ d'.dur.ctxs = u.ctxs ∧ d'.dur.roots = d.dur.roots ∧ d'.trellis.device = d.trellis.device := by
  unfold Dev.takeSnapshot
  extract_lets agrees mine jnl jnl' n nfm nfm' trl dst prl d₁ d₂ d₃ d₄ d₅ d'
  have h₂ : Edits 0x40a00080000 d₁ d₂ := Edits.foldl _ (fun _ _ h => Dev.set_at_edits (h := h)) _ (.refl d₁)
  have h₃ : Edits 0x40a00080000 d₁ d₃ := Edits.foldl _ (fun _ _ h => Dev.showSlot_edits (h := h)) _ h₂
  have h₄ : Edits 0x40a00080000 d₁ d₄ := Edits.foldl _ (fun _ _ h => Dev.adoptCycle_edits (h := h)) _ h₃
  have h₅ : Edits 0x40a00080000 d₁ d₅.showCtx := Dev.showCtx_edits (h := Edits.foldl _ (fun _ _ h => Dev.showCamp_edits (h := h)) _ h₄)
  have hoverflow : Edits 0x740040004c003 d₅.showCtx d₅.showCtx.showOverflow := Dev.showOverflow_edits (h := .refl _)
  have holdest : Edits 0x200000010000 d₅.showCtx.showOverflow d' := Dev.showOldest_edits (h := .refl _)
  obtain ⟨⟨reserved, hdur⟩, hprl⟩ := d₅.showCtx.showOverflow_kept
  rw [Dev.trellis, holdest.prl.resolve_left (by decide), holdest.dur.resolve_left (by decide), holdest.trl.resolve_left (by decide), hdur,
    hprl.synced, hoverflow.trl.resolve_left (by decide), h₅.prl.resolve_left (by decide), h₅.dur.resolve_left (by decide),
    h₅.trl.resolve_left (by decide)]
  exact ⟨rfl, rfl, rfl, rfl⟩

/-- R413: a standby takes the active device's snapshot; one that was live is SYNCING from then on. -/
theorem resync_snapshot (s : State) (h : RHdr) (line : Nat) (u : Dur) (t : Trellis) (gens : List Nat) (serial : Nat)
    (slots : List (Nat × Staged)) (grafts : List (Nat × Package)) (epochs : List Epoch) (objects : List (Nat × Bytes)) (cycles : List Nat)
    (hh : s.dev.hears h (.resync (.snapshot line u t gens serial slots grafts epochs objects cycles)))
    (hstate : s.dev.pairState = PairSt.syncing ∨ s.dev.pairState = PairSt.standby) :
    Runs (.resync h (.snapshot line u t gens serial slots grafts epochs objects cycles)) s fun d =>
      d.prl.synced = true ∧ d.dur.ctxs = u.ctxs ∧ d.dur.roots = s.dev.dur.roots ∧ d.trellis.device = s.dev.trellis.device := by
  have hroots : (s.dev.heardFrame h).dur = s.dev.dur := (s.dev.heardFrame_edits h).dur.resolve_left (by decide)
  have htrellis := s.dev.heardFrame_trellis h
  rw [← s.dev.heardFrame_pairState h] at hstate
  refine runs_of_heard hh rfl ?_
  generalize s.dev.heardFrame h = d at *
  rw [if_neg (by simp)]
  extract_lets d₁
  have hedits : Edits 0x1001080040002 d d₁ := by
    dsimp only [d₁]
    split
    · exact Dev.setPair_edits (h := Dev.set_edits (h := .refl d))
    · exact .refl d
  have hsyncing : d₁.pairState = PairSt.syncing := by
    dsimp only [d₁]
    rcases hstate with hsyncing | hstandby
    · rw [if_neg (by simp [hsyncing, PairSt.syncing, PairSt.standby])]
      exact hsyncing
    · rw [if_pos ⟨rfl, hstandby⟩]
      exact (Dev.setPair_enters _ (by decide)).1
  rw [if_neg (by simp [hsyncing])]
  obtain ⟨hsynced, hctxs, hown, hdevice⟩ := d₁.takeSnapshot_takes line u t gens serial slots grafts epochs objects cycles
  refine ⟨hsynced, hctxs, ?_, ?_⟩
  · rw [hown, hedits.dur.resolve_left (by decide), hroots]
  · rw [hdevice, Dev.trellis, hedits.trl.resolve_left (by decide), ← Dev.trellis, htrellis]

/-- A snapshot that goes out leaves the pair's registers and state but for its link. -/
theorem Dev.sendSnapshot_kept (d : Dev) : d.PairKept d.sendSnapshot := by
  unfold Dev.sendSnapshot
  extract_lets jnl d₁ isOpen t gens trl d₂
  have h₂ : d.PairKept d₂ := ⟨fun _ _ => rfl, .refl _⟩
  exact h₂.sendRunner ..

/-- A resynchronisation begins in its first phase, and leaves PRL_STATUS. -/
structure Dev.Resyncing (d d' : Dev) : Prop where
  phase : d'.get F.PRL_RESYNC_PHASE = 1
  progress : d'.get F.PRL_RESYNC_PROGRESS = 0
  partner : d'.get F.PRL_STATUS_PARTNER_STATE = d.get F.PRL_STATUS_PARTNER_STATE

theorem Dev.startResync_begins (d : Dev) (after : Nat) : d.Resyncing (d.startResync false after) := by
  have hpartner : (d.startResync false after).get F.PRL_STATUS_PARTNER_STATE = d.get F.PRL_STATUS_PARTNER_STATE :=
    (Dev.startResync_edits (m := 0x1000000048042) (h := .refl d)).get F.PRL_STATUS_PARTNER_STATE
  unfold Dev.startResync
  extract_lets trl prl d₁ d₂
  refine ⟨Dev.get_set_same _ F.PRL_RESYNC_PHASE 1, ?_, hpartner⟩
  refine (Dev.get_set_apart (x := F.PRL_RESYNC_PHASE) (by decide) (by decide) (by decide) ..).trans ?_
  rw [d₂.sendSnapshot_kept.get F.PRL_RESYNC_PROGRESS]
  exact Dev.get_set_same _ F.PRL_RESYNC_PROGRESS 0

/-- R413: the active device starts again where its SYNCING partner asks for it. -/
theorem resync_again (s : State) (h : RHdr) (hh : s.dev.hears h (.resync .again)) (hactive : s.dev.pairState = PairSt.active)
    (hpartner : s.dev.get F.PRL_STATUS_PARTNER_STATE = PairSt.syncing) : Runs (.resync h .again) s fun d =>
      d.get F.PRL_RESYNC_PHASE = 1 ∧ d.get F.PRL_RESYNC_PROGRESS = 0 := by
  refine runs_of_heard hh rfl ?_
  rw [if_pos rfl, if_pos ⟨(s.dev.heardFrame_pairState h).trans hactive, ((s.dev.heardFrame_kept h).get _).trans hpartner⟩]
  obtain ⟨hphase, hprogress, -⟩ := (s.dev.heardFrame h).startResync_begins 0
  exact ⟨hphase, hprogress⟩

/-- R413: the snapshot is sent, and what was staged meanwhile goes after it. -/
theorem resyncPhaseDone_catchesUp (s : State) (hactive : s.dev.pairState = PairSt.active) (hphase : s.dev.get F.PRL_RESYNC_PHASE = 1) :
    Runs .resyncPhaseDone s fun d => d.get F.PRL_RESYNC_PHASE = 2 ∧ d.prl.staged = [] := by
  refine ⟨_, rfl, rfl, ?_⟩
  dsimp -zeta only
  extract_lets p t staged prl d
  rw [if_pos hactive, if_pos hphase]
  have hsent := Dev.PairKept.foldl (op := fun (x : Dev) (e : Nat × JRec) => x.sendRunner t.mirrorLink t.partner (.resync (.entry e.1 e.2)))
    (fun x e => (Dev.PairKept.refl x).sendRunner ..) staged d
  refine ⟨?_, ?_⟩
  · rw [hsent.get F.PRL_RESYNC_PHASE, Dev.get_set_apart (x := F.PRL_RESYNC_PROGRESS) (by decide) (by decide) (by decide)]
    exact Dev.get_set_same _ F.PRL_RESYNC_PHASE 2
  · refine Dev.foldl_keeps (fun x : Dev => x.prl.staged) (fun x e => ?_) staged d
    obtain ⟨links, e⟩ := x.sendRunner_prl t.mirrorLink t.partner (.resync (.entry e.1 e.2))
    rw [e]

section
variable (s : State) (hsyncing : s.dev.pairState = PairSt.syncing) (hphase : s.dev.get F.PRL_RESYNC_PHASE = 2)
include hsyncing hphase

/-- R413: at a SYNCING device the end of the catch-up shows, and decides whether it is the standby. -/
theorem resyncPhaseDone_decides {P : Dev → Prop} (hP : P (s.dev.set F.PRL_RESYNC_PHASE 3).goStandby) : Runs .resyncPhaseDone s P := by
  refine ⟨_, rfl, rfl, ?_⟩
  dsimp -zeta only
  extract_lets p
  rw [if_neg (by rw [hsyncing]; decide), if_pos hsyncing, if_neg (by simp [p, hphase]), if_pos hphase]
  exact hP

/-- Data, roots, serial and engines that agree make it the standby. -/
theorem resyncPhaseDone_standby (hsynced : s.dev.prl.synced = true) (hagrees : s.dev.prl.agrees = true)
    (hengines : s.dev.prl.enginesOk = true) : Runs .resyncPhaseDone s fun d =>
      d.pairState = PairSt.standby ∧ d.get F.PRL_RESYNC_PROGRESS = 100 ∧ d.prl.standbySince = some s.dev.cycles := by
  refine resyncPhaseDone_decides s hsyncing hphase ?_
  rw [Dev.goStandby, if_pos (by simp [hsynced, hagrees, hengines])]
  refine ⟨(Dev.setPair_enters _ (by decide)).1, ?_, (Dev.setPair_prl _ PairSt.standby).standbySince⟩
  rw [Dev.get_of_reg (Dev.setPair_reg _ _ (by decide) (by decide))]
  exact Dev.get_set_same _ F.PRL_RESYNC_PROGRESS 100

/-- Roots that differ keep it SYNCING, and show as PAIR_MISMATCH (R296). -/
theorem resyncPhaseDone_disagrees (hagrees : s.dev.prl.agrees = false) : Runs .resyncPhaseDone s fun d =>
    d.pairState = PairSt.syncing ∧ d.get F.PRL_RESYNC_PHASE = 3 ∧ d.get F.KEY_INT_STATUS_PAIR_MISMATCH = 1 := by
  refine resyncPhaseDone_decides s hsyncing hphase ?_
  rw [Dev.goStandby, if_neg (by simp [hagrees]), if_neg (by simp [hagrees])]
  have hkept (l dst : Nat) := ((Dev.PairKept.refl (s.dev.set F.PRL_RESYNC_PHASE 3)).raise F.KEY_INT_STATUS_PAIR_MISMATCH 0 0).sendRunner
    l dst (.applied false)
  refine ⟨?_, ?_, ?_⟩
  · rw [Dev.pairState, (hkept ..).get F.PRL_STATUS_STATE, Dev.get_set_other (by decide)]
    exact hsyncing
  · rw [(hkept ..).get F.PRL_RESYNC_PHASE]
    exact Dev.get_set_same _ F.PRL_RESYNC_PHASE 3
  · rw [(Dev.sendRunner_edits (m := 0x1000000040002) (h := .refl _)).get F.KEY_INT_STATUS_PAIR_MISMATCH]
    exact Dev.raise_self ..

end

/-! PRL_CMD RESYNC (R413). -/

/-- A PRL command is carried out at a device of a pair that is not busy. -/
theorem Dev.prlCmd_runs {d : Dev} (hbusy : d.flag F.PRL_CMD_BUSY = false) (hup : d.prl.up = true) (hpaired : d.pairState ≠ PairSt.unpaired)
    (f : Dev → Dev) : d.prlCmd f = f d := by
  rw [Dev.prlCmd, if_neg (by simp [hbusy]), if_neg (by simp [hup]), if_neg hpaired]

/-- Its end shows the result, and leaves the registers but its own and PRL_INT_STATUS. -/
theorem Dev.prlDone_result (d : Dev) (code : Nat) : (d.prlDone code).get F.PRL_CMD_RESULT = code % 16 := by
  rw [Dev.prlDone, Dev.raise_prl_get _ _ _ _ (y := F.PRL_CMD_RESULT), Dev.get_set_other (by decide),
    Dev.get_set_apart (by decide) (by decide) (by decide)]
  exact Dev.get_set_same _ F.PRL_CMD_RESULT code

theorem Dev.prlDone_get (d : Dev) (code : Nat) (y : Fld) (hy : prlKept y.off = true := by decide)
    (hcmd : y.off ≠ F.PRL_CMD_RESULT.off := by decide) (hint : y.off ≠ F.PRL_INT_STATUS_CMD_DONE.off := by decide) :
    (d.prlDone code).get y = d.get y := by
  rw [Dev.prlDone, Dev.raise_prl_get _ _ _ _ hy, Dev.get_set_other hint, Dev.get_set_other (x := F.PRL_CMD_BUSY) hcmd,
    Dev.get_set_other hcmd]

section
variable (s : State) (hbusy : s.dev.flag F.PRL_CMD_BUSY = false) (hup : s.dev.prl.up = true)
include hbusy hup

/-- At the active device a partner that is the standby leaves that state with the new snapshot. -/
theorem prlResync_active (hactive : s.dev.pairState = PairSt.active)
    (hpartner : s.dev.get F.PRL_STATUS_PARTNER_STATE = PairSt.standby) : Runs .prlResync s fun d =>
      d.get F.PRL_RESYNC_PHASE = 1 ∧ d.get F.PRL_RESYNC_PROGRESS = 0 ∧ d.get F.PRL_STATUS_PARTNER_STATE = PairSt.syncing ∧
        d.get F.PRL_CMD_RESULT = 0 := by
  refine ⟨_, rfl, rfl, ?_⟩
  dsimp -zeta only
  rw [Dev.prlCmd_runs hbusy hup (by rw [hactive]; decide)]
  extract_lets partner
  rw [if_pos ⟨hactive, hpartner⟩]
  obtain ⟨hphase, hprogress, hkept⟩ := (s.dev.setPartner PairSt.syncing).partnerGone.startResync_begins 0
  have hgone : Edits 0x34e7e000fff4b (s.dev.setPartner PairSt.syncing) (s.dev.setPartner PairSt.syncing).partnerGone :=
    Dev.partnerGone_edits (h := .refl _)
  refine ⟨(Dev.prlDone_get ..).trans hphase, (Dev.prlDone_get ..).trans hprogress, ?_, Dev.prlDone_result _ 0⟩
  rw [Dev.prlDone_get _ _ F.PRL_STATUS_PARTNER_STATE, hkept, hgone.get F.PRL_STATUS_PARTNER_STATE]
  exact Dev.setPartner_state _ (by decide)

/-- A standby goes back to SYNCING. -/
theorem prlResync_standby (hstandby : s.dev.pairState = PairSt.standby) : Runs .prlResync s fun d =>
    d.pairState = PairSt.syncing ∧ d.prl.synced = false ∧ d.get F.PRL_CMD_RESULT = 0 := by
  refine ⟨_, rfl, rfl, ?_⟩
  dsimp -zeta only
  rw [Dev.prlCmd_runs hbusy hup (by rw [hstandby]; decide)]
  extract_lets partner
  have hpassive : s.dev.pairState ≠ PairSt.active := by rw [hstandby]; decide
  rw [if_neg fun hn => hpassive hn.1, if_neg fun hn => hpassive hn.1, if_pos (.inl hstandby)]
  have hrestarts := s.dev.resyncAgain_restarts
  refine ⟨(Dev.prlDone_get _ _ F.PRL_STATUS_STATE).trans hrestarts.state, ?_, Dev.prlDone_result _ 0⟩
  rw [Dev.prlDone, (Dev.raise_prl ..).synced]
  exact hrestarts.synced

end

/-! Forwarded commands (R189). -/

/-- R189, R296: the standby applies a command of records alone before the active device completes it. -/
theorem command_applies (s : State) (h : RHdr) (k : PairCmd) (hh : s.dev.hears h (.command k)) (htakes : s.dev.takesMirror = true)
    (hfinish : k.finish = .ctx) (hobject : k.object = none) (hrecs : k.recs = [.confirm 7 8]) : Runs (.command h (some k) true) s fun d =>
      d.prl.applied = s.dev.prl.applied ++ k.recs ∧ Maps.getD d.dur.confirmed 7 0 = 8 := by
  have happlied := (s.dev.heardFrame_kept h).prl.applied
  rw [← s.dev.heardFrame_takesMirror h] at htakes
  refine runs_of_heard hh rfl ?_
  generalize s.dev.heardFrame h = d at *
  rw [if_pos htakes]
  unfold Dev.applyCmd
  extract_lets keep
  rw [hfinish, hobject]
  dsimp only
  have hsent := (Dev.PairKept.refl (keep d)).sendRunner h.link h.src (.applied true)
  refine ⟨?_, ?_⟩
  · rw [hsent.prl.applied, ← happlied]
    dsimp only [keep]
    rw [hrecs]
    rfl
  · rw [(Dev.sendRunner_edits (m := 0x1000000040002) (h := .refl (keep d))).dur.resolve_left (by decide)]
    dsimp only [keep]
    rw [hrecs]
    exact Maps.getD_put_same ..

/-- The oldest forwarded command is completed once the standby has applied it. -/
theorem Dev.cmdApplied_true {d : Dev} {k : PairCmd} {ks : List PairCmd} (hpending : d.prl.pendingCmds = k :: ks) :
    d.cmdApplied true = Dev.completeCmd { d with prl := { d.prl with pendingCmds := ks } } k := by
  rw [Dev.cmdApplied, hpending]

/-- R189: the active device completes a context command once its standby has applied it. -/
theorem command_completes (s : State) (h : RHdr) (k : PairCmd) (ks : List PairCmd) (hh : s.dev.hears h (.applied true))
    (hactive : s.dev.pairState = PairSt.active) (hpending : s.dev.prl.pendingCmds = k :: ks) (hfinish : k.finish = .ctx) :
    Runs (.command h none true) s fun d => d.prl.pendingCmds = ks ∧ d.get F.CTX_CMD_BUSY = 0 ∧ d.get F.CTX_CMD_RESULT = k.result % 16 ∧
      d.get F.CTX_INT_STATUS_CMD_DONE = 1 := by
  rw [← (s.dev.heardFrame_kept h).prl.pendingCmds] at hpending
  rw [← s.dev.heardFrame_pairState h] at hactive
  refine runs_of_heard hh rfl ?_
  generalize s.dev.heardFrame h = d at *
  rw [if_pos hactive, Dev.cmdApplied_true hpending]
  obtain ⟨-, hpair, hbusy, hresult, hdone⟩ := Dev.completeCmd_ctx hfinish { d with prl := { d.prl with pendingCmds := ks } }
  exact ⟨hpair.prl.pendingCmds, hbusy, hresult, hdone⟩

/-- Settles O45: the lemmas above, one for each clause. -/
theorem mirroring : Obligations.Mirroring :=
  ⟨confirm_empties, confirm_earlier, mirror_applies, mirror_gap, digest_agrees, digest_differs, resync_snapshot, resync_again,
    resyncPhaseDone_catchesUp, resyncPhaseDone_standby, resyncPhaseDone_disagrees, standbySelftest_passes, standbySelftest_fails,
    prlResync_active, prlResync_standby, command_applies, command_completes⟩

end Sys2Proof.Machine

namespace Sys2Proof.Machine

set_option Elab.async false

/-- Settles O51: each command's law in `Laws/Exec/` covers no part outside its list. -/
theorem framesOfBalanceAndCampaigns : Obligations.FramesOfBalanceAndCampaigns :=
  ⟨fun _ _ => leaves_of_edits fun _ => execIntervalEnd_edits,
   fun _ _ => leaves_of_edits fun _ => execPeriodBoundary_edits,
   fun _ _ => leaves_of_edits fun _ => execClosureSweepStart_edits,
   fun _ => leaves_of_edits fun _ => execClosureSweepDone_edits,
   fun _ => leaves_of_edits fun _ => execAttach_edits,
   fun _ => leaves_of_edits fun _ => execDetach_edits,
   fun _ => leaves_of_edits fun _ => execQueryZone_edits,
   fun _ => leaves_of_edits fun _ => execQueryMeter_edits,
   leaves_of_edits fun _ => execBalRestart_edits,
   fun _ => leaves_of_edits fun _ => execBalEvaluation_edits,
   leaves_of_edits fun _ => execBalEvalDone_edits,
   fun _ _ => leaves_of_edits fun _ => execDstLoad_edits,
   fun _ _ => leaves_of_edits fun _ => execCampaignLoadStepDone_edits,
   fun _ _ => leaves_of_edits fun _ => execDstAdd_edits,
   fun _ _ => leaves_of_edits fun _ => execDstAddClass_edits,
   fun _ _ => leaves_of_edits fun _ => execDstRemove_edits,
   fun _ => leaves_of_edits fun _ => execDstAbort_edits,
   fun _ => leaves_of_edits fun _ => execDstClear_edits,
   fun _ _ => leaves_of_edits fun _ => execCampaignRoundStart_edits,
   fun _ _ => leaves_of_edits fun _ => execCampaignBlockOrder_edits,
   fun _ _ => leaves_of_edits fun _ => execCollectionEnd_edits,
   fun _ => leaves_of_edits fun _ => execCampaignActivation_edits,
   fun _ => leaves_of_edits fun _ => execCampaignExpire_edits,
   fun _ _ => leaves_of_edits fun _ => execCampaignAbortBroadcast_edits,
   fun _ _ => leaves_of_edits fun _ => execBitmapPageInDone_edits⟩

end Sys2Proof.Machine

namespace Sys2Proof.Maps

variable {α : Type}

theorem length_ins (k : Nat) (v : α) (m : List (Nat × α)) : (ins k v m).length = m.length + 1 := by
  induction m with
  | nil => rfl
  | cons p m ih =>
    unfold ins
    split
    · rfl
    · exact congrArg (· + 1) ih

/-- There is nothing to take out of a table without an entry under `k`. -/
theorem del_of_get?_none {k : Nat} {m : List (Nat × α)} (h : get? k m = none) : del k m = m := by
  induction m with
  | nil => rfl
  | cons p m ih =>
    obtain ⟨j, v⟩ := p
    by_cases hj : j = k
    · simp [get?, hj] at h
    · rw [get?, if_neg hj] at h
      rw [del, if_neg hj, ih h]

/-- A new entry makes a table one longer. -/
theorem length_put_new {k : Nat} {m : List (Nat × α)} (h : has m k = false) (v : α) : (put m k v).length = m.length + 1 := by
  rw [put, del_of_get?_none (by simpa [has] using h), length_ins]

end Sys2Proof.Maps

namespace Sys2Proof.Machine

set_option Elab.async false

/-! Time events (R233). -/

/-- A record's place in the ring is all that an append changes of the journal. -/
theorem Dev.append_jnl (d : Dev) (r : JRec) : (d.append r).2.jnl = (d.jnl.place r).2 := by
  unfold Dev.append
  extract_lets
  split
  next line j hj =>
  extract_lets d₁ d₂ laps d₃
  have hd₃ : d₃.jnl = (d.jnl.place r).2 := by rw [hj]; rfl
  show (if r.ownRoot = true then d₃ else d₃.mirrorOut line r).jnl = _
  split
  · exact hd₃
  · rw [(Dev.mirrorOut_edits (m := 0x1000000040002) (h := .refl d₃)).jnl.resolve_left (by decide), hd₃]

/-- A journaled record is the journal's last entry. -/
theorem Dev.journal_last (d : Dev) (r : JRec) : (d.journal r).jnl.entries.getLast?.map (·.rec_) = some r := by
  show (d.append r).2.jnl.entries.getLast?.map (·.rec_) = some r
  rw [d.append_jnl]
  exact congrArg (Option.map JEntry.rec_) List.getLast?_concat

/-- Where no interval end or boundary goes before a time event, none is marked. -/
theorem Dev.markBefore_of_none {d : Dev} {t k : Nat} (hevents : d.eventsBefore t k = []) : d.markBefore t k = d := by
  rw [Dev.markBefore, hevents]
  exact ite_self _

/-- Without valid time nothing is marked. -/
theorem Dev.markBefore_of_invalid {d : Dev} (htime : d.timeValid = false) (t k : Nat) : d.markBefore t k = d :=
  if_neg (by simp [htime])

/-- Where nothing is armed for earlier, only interval ends and boundaries go before a time event. -/
theorem Dev.eventsUpTo_of_unarmed {d : Dev} {t k : Nat} (harmed : d.armedBefore t k = []) : d.eventsUpTo t k = d.markBefore t k := by
  rw [Dev.eventsUpTo, harmed]
  rfl

/-- Nothing goes before the first time event. -/
theorem Dev.eventsUpTo_of_first {d : Dev} {t k : Nat} (harmed : d.armedBefore t k = []) (hevents : d.eventsBefore t k = []) :
    d.eventsUpTo t k = d := by
  rw [Dev.eventsUpTo_of_unarmed harmed, Dev.markBefore_of_none hevents]

/-- The first time event, reached and not journaled yet, has its marker as the journal's last entry. -/
theorem Dev.firstEvent_marks {d : Dev} {k i t : Nat} (hserves : d.serves = true) (htime : d.timeValid = true) (hreached : t ≤ d.tsu.sec)
    (harmed : d.armedBefore t k = []) (hevents : d.eventsBefore t k = [])
    (hnew : (d.timeEvents k i (d.marked k i) t).contains t = true) :
    ((d.eventsUpTo t k).timeEvent k i t).jnl.entries.getLast?.map (·.rec_) = some (.time k i t 0) := by
  rw [Dev.eventsUpTo_of_first harmed hevents, Dev.timeEvent,
    if_pos (by simp only [hserves, htime, hnew, hreached, decide_true, Bool.and_self])]
  exact Dev.journal_last ..

theorem Dev.timeEvent_of_invalid {d : Dev} (htime : d.timeValid = false) (k i t : Nat) : d.timeEvent k i t = d :=
  if_neg (by simp [htime])

/-- An instant at which no time event is left to journal changes nothing. -/
theorem Dev.timeEvent_of_none {d : Dev} {k i t : Nat} (hnone : (d.timeEvents k i (d.marked k i) t).contains t = false) :
    d.timeEvent k i t = d :=
  if_neg (by simp only [hnone, Bool.and_false, Bool.false_eq_true, not_false_iff])

theorem intervalEnd_marks (s : State) (i t : Nat) (hserves : s.dev.serves = true) (htime : s.dev.timeValid = true)
    (hreached : t ≤ s.dev.tsu.sec) (harmed : s.dev.armedBefore t 1 = []) (hevents : s.dev.eventsBefore t 1 = [])
    (hnew : (s.dev.timeEvents 1 i (s.dev.marked 1 i) t).contains t = true) : Runs (.intervalEnd i t) s fun d =>
      d.jnl.entries.getLast?.map (·.rec_) = some (.time 1 i t 0) := by
  refine ⟨_, rfl, rfl, ?_⟩
  dsimp only
  rw [if_neg (by omega)]
  exact Dev.firstEvent_marks hserves htime hreached harmed hevents hnew

theorem intervalEnd_invalid (s : State) (i t : Nat) (htime : s.dev.timeValid = false) (harmed : s.dev.armedBefore t 1 = []) :
    Runs (.intervalEnd i t) s fun d => d = s.dev := by
  refine ⟨_, rfl, rfl, ?_⟩
  dsimp only
  rw [Dev.eventsUpTo_of_unarmed harmed, Dev.markBefore_of_invalid htime, Dev.timeEvent_of_invalid htime]
  exact ite_self _

theorem intervalEnd_early (s : State) (i t : Nat) (hearly : s.dev.tsu.sec < t) : Runs (.intervalEnd i t) s fun d => d = s.dev :=
  ⟨_, rfl, rfl, if_pos hearly⟩

theorem intervalEnd_none (s : State) (i t : Nat) (harmed : s.dev.armedBefore t 1 = []) (hevents : s.dev.eventsBefore t 1 = [])
    (hnone : (s.dev.timeEvents 1 i (s.dev.marked 1 i) t).contains t = false) : Runs (.intervalEnd i t) s fun d => d = s.dev := by
  refine ⟨_, rfl, rfl, ?_⟩
  dsimp only
  rw [Dev.eventsUpTo_of_first harmed hevents, Dev.timeEvent_of_none hnone]
  exact ite_self _

theorem periodBoundary_marks (s : State) (i t : Nat) (hserves : s.dev.serves = true) (htime : s.dev.timeValid = true)
    (hreached : t ≤ s.dev.tsu.sec) (harmed : s.dev.armedBefore t 2 = []) (hevents : s.dev.eventsBefore t 2 = [])
    (hnew : (s.dev.timeEvents 2 i (s.dev.marked 2 i) t).contains t = true) : Runs (.periodBoundary i t) s fun d =>
      d.jnl.entries.getLast?.map (·.rec_) = some (.time 2 i t 0) := by
  refine ⟨_, rfl, rfl, ?_⟩
  dsimp only
  rw [if_neg (by omega)]
  exact Dev.firstEvent_marks hserves htime hreached harmed hevents hnew

theorem periodBoundary_early (s : State) (i t : Nat) (hearly : s.dev.tsu.sec < t) : Runs (.periodBoundary i t) s fun d => d = s.dev :=
  ⟨_, rfl, rfl, if_pos hearly⟩

/-! Closure sweeps (R228). -/

/-- The sweeps under way are those set. -/
@[simp] theorem Dev.setSweeps_sweeps (d : Dev) (l : List (Nat × Nat)) : (d.setSweeps l).bil.sweeps = l := rfl

/-- R228: the last boundary closed is the one just recorded. -/
theorem Dev.journal_calClosed (d : Dev) (i t : Nat) : (Maps.getD (d.journal (.calClosed i t)).dur.calClosed i (0, 0)).2 = t := by
  rw [Dev.journal_dur, Dur.control, Maps.getD_put_same]

theorem closureSweepStart_starts (s : State) (i t : Nat) (hserves : s.dev.serves = true) (htime : s.dev.timeValid = true)
    (hidle : Maps.has s.dev.bil.sweeps i = false) (hdue : s.dev.sweepDue i t = true) : Runs (.closureSweepStart i t) s fun d =>
      Maps.get? i d.bil.sweeps = some t ∧ d.bil.sweeps.length = s.dev.bil.sweeps.length + 1 := by
  refine ⟨_, rfl, rfl, ?_⟩
  dsimp only
  rw [if_pos (by simp [hserves, htime, hidle, hdue]), Dev.setSweeps_sweeps]
  exact ⟨Maps.get?_put_same .., Maps.length_put_new hidle t⟩

theorem closureSweepStart_waits (s : State) (i t : Nat) (hdue : s.dev.sweepDue i t = false) :
    Runs (.closureSweepStart i t) s fun d => d = s.dev :=
  ⟨_, rfl, rfl, if_neg (by simp [hdue])⟩

/-- R229: up to B + GRACE, that instant included, a sweep goes on. -/
theorem closureSweepDone_waits (s : State) (i t : Nat) (hsweep : Maps.get? i s.dev.bil.sweeps = some t)
    (hgrace : s.dev.now ≤ 1000000000 * (t + s.dev.get F.BIL_CLOSE_GRACE)) : Runs (.closureSweepDone i) s fun d => d = s.dev := by
  refine ⟨_, rfl, rfl, ?_⟩
  dsimp only
  rw [hsweep]
  exact if_pos (.inl hgrace)

theorem closureSweepDone_closes (s : State) (i t : Nat) (hsweep : Maps.get? i s.dev.bil.sweeps = some t)
    (hgrace : 1000000000 * (t + s.dev.get F.BIL_CLOSE_GRACE) < s.dev.now) (hdecided : (s.dev.sweepLeft i t).any s.dev.undecided = false) :
    Runs (.closureSweepDone i) s fun d => Maps.get? i d.bil.sweeps = none ∧ (Maps.getD d.dur.calClosed i (0, 0)).2 = t ∧
      d.get F.BIL_INT_STATUS_PERIOD_CLOSED = 1 := by
  refine ⟨_, rfl, rfl, ?_⟩
  dsimp only
  rw [hsweep]
  dsimp only
  rw [if_neg (not_or.2 ⟨by omega, by simp [hdecided]⟩)]
  generalize List.foldl _ s.dev _ = d
  refine ⟨?_, ?_, Dev.raise_self ..⟩
  · rw [Dev.raise_bil, Dev.setSweeps_sweeps, Maps.get?_del_same]
  · obtain ⟨n, hraised⟩ := ((d.journal (.calClosed i t)).setSweeps (Maps.del i d.bil.sweeps)).raise_dur F.BIL_INT_STATUS_PERIOD_CLOSED i 0
    rw [hraised]
    exact d.journal_calClosed i t

/-- Settles O36: the lemmas above, one for each clause. -/
theorem periodClosure : Obligations.PeriodClosure :=
  ⟨intervalEnd_marks, intervalEnd_invalid, intervalEnd_early, intervalEnd_none, periodBoundary_marks, periodBoundary_early,
    closureSweepStart_starts, closureSweepStart_waits, closureSweepDone_waits, closureSweepDone_closes⟩

end Sys2Proof.Machine

namespace Sys2Proof.Machine

set_option Elab.async false

/-! The registers of the balance block (R253). -/

/-- A field that shares no bit with the one raised, outside the recorder's, rings', journal's and Runner's registers. -/
theorem Dev.get_raise_of_clear {x y : Fld} (h : x.Clear y) (d : Dev) (a b : Nat) (ho : y.off < 4194304 := by decide)
    (hy : Nat.testBit 0x340040004c003 (regBit y.off) = false := by decide) : (d.raise x a b).get y = d.get y := by
  rw [Dev.raise_get d x a b ho hy, Dev.get_set_clear h]

/-- Counting leaves the other registers. -/
theorem Dev.countBy_reg_other {r : RegD} {i off : Nat} (h : off ≠ r.at i) (d : Dev) (n : Nat) : (d.countBy r i n).reg off = d.reg off :=
  Face.reg_setReg_other h _ _

/-- A pair of whole registers reads the 64-bit value set to it. -/
theorem Dev.wide_setWide {lo hi : RegD} {i v : Nat} (hne : lo.at i ≠ hi.at i) (hv : v < 2 ^ 64) (d : Dev) :
    (d.setWide lo hi i v).wide lo hi i = v := by
  rw [Dev.wide, Dev.setWide, Dev.reg_setReg_other hne, Dev.reg_setReg_same, Dev.reg_setReg_same, BitVec.toNat_ofNat, BitVec.toNat_ofNat]
  omega

/-- A register that no step of a fold changes. -/
theorem Dev.foldl_reg {α : Type} {g : Dev → α → Dev} {l : List α} {off : Nat} (h : ∀ d, ∀ a ∈ l, (g d a).reg off = d.reg off) (d : Dev) :
    (l.foldl g d).reg off = d.reg off :=
  List.foldlRecOn l g (motive := fun d' => d'.reg off = d.reg off) rfl fun d' hd' a ha => (h d' a ha).trans hd'

/-! A balance command starts and ends (R245, R246). -/

/-- A balance command is carried out on a device that is not busy, and not refused by a standby (R189). -/
theorem Dev.balCmd_runs {d : Dev} (hbusy : d.flag F.BAL_CMD_BUSY = false) (hserves : d.standbyRefuses = false) (f : Dev → Dev) :
    d.balCmd f = f d := by
  rw [Dev.balCmd, if_neg (by simp [hbusy]), if_neg (by simp [hserves])]

/-- A balance command has ended with a result: it is no longer busy, and CMD_DONE is set. -/
theorem Dev.finish_bal_answers (d : Dev) {result : Nat} (hresult : result < 16) :
    (d.finish result .bal).get F.BAL_CMD_RESULT = result ∧ (d.finish result .bal).get F.BAL_INT_STATUS_CMD_DONE = 1 := by
  refine ⟨?_, Dev.raise_self ..⟩
  rw [Dev.finish, Dev.get_raise_of_clear (by decide), Dev.get_set_clear (by decide), Dev.get_set_same _ F.BAL_CMD_RESULT]
  exact Nat.mod_eq_of_lt hresult

theorem Dev.finish_bal_bal (d : Dev) (result : Nat) : (d.finish result .bal).dur.bal = d.dur.bal := Dev.raise_bal ..

/-- The end of a balance command shows in BAL_CMD and BAL_INT_STATUS. -/
theorem Dev.get_finish_bal {y : Fld} (hcmd : y.off ≠ R.BAL_CMD.off) (hint : y.off ≠ R.BAL_INT_STATUS.off) (d : Dev) (result : Nat)
    (ho : y.off < 4194304 := by decide) (hy : Nat.testBit 0x340040004c003 (regBit y.off) = false := by decide) :
    (d.finish result .bal).get y = d.get y := by
  rw [Dev.finish, Dev.raise_get _ _ _ _ ho hy, Dev.get_set_other hint, Dev.get_set_other (x := F.BAL_CMD_BUSY) hcmd,
    Dev.get_set_other (x := F.BAL_CMD_RESULT) hcmd]

/-- A balance command's record, which frees no context, makes its change to the balance tables, and the command ends with OK. -/
theorem Dev.complete_bal {r : JRec} (hr : ∀ i, r ≠ .free i) (d : Dev) :
    (d.complete { recs := [r], finish := .bal }).dur.bal = (d.dur.control r).bal ∧
      (d.complete { recs := [r], finish := .bal }).get F.BAL_CMD_RESULT = 0 := by
  have hfrees : (d.eng.freeing.filter fun i => [r].contains (.free i)) = [] :=
    List.filter_eq_nil_iff.2 fun i _ => by simp [(hr i).symm]
  unfold Dev.complete
  dsimp -zeta only
  rw [hfrees]
  extract_lets d₁ d₂ d₃ d₄ d₅ freeing
  have hd₃ : d₃.dur = d.dur.control r := d.journal_dur r
  have hd₄ : d₄.dur = d₃.dur := by
    dsimp only [d₄]
    split
    · exact (Dev.sendHeld_edits (m := 0x1000000040042) (h := .refl d₃)).dur.resolve_left (by decide)
    · rfl
  refine ⟨?_, (Dev.finish_bal_answers _ (by decide)).1⟩
  rw [Dev.finish_bal_bal]
  exact congrArg Dur.bal (hd₄.trans hd₃)

/-- With no evaluation running and no synchronised standby, a membership change is made at once (R189, R260). -/
theorem Dev.balDo_now {d : Dev} (hidle : d.bil.eval = none) (hsynced : d.standbySynced = false) {r : JRec} (hr : ∀ i, r ≠ .free i) :
    (d.balDo r).dur.bal = (d.dur.control r).bal ∧ (d.balDo r).get F.BAL_CMD_RESULT = 0 := by
  have hnow : d.balDo r = d.complete { recs := [r], finish := .bal } := by
    rw [Dev.balDo, if_neg (by simp [hidle]), Dev.pairDo, if_neg (by simp [hsynced])]
  rw [hnow]
  exact d.complete_bal hr

/-- An evaluation that runs keeps a membership change waiting (R260). -/
theorem Dev.balDo_waits {d : Dev} {b : Nat} (heval : d.bil.eval = some b) (r : JRec) :
    (d.balDo r).dur = d.dur ∧ (d.balDo r).bil.waiting.isSome = true ∧ (d.balDo r).get F.BAL_CMD_BUSY = 1 := by
  rw [Dev.balDo, if_pos (by simp [heval])]
  exact ⟨rfl, rfl, Dev.get_set_same _ F.BAL_CMD_BUSY 1⟩

/-! Membership (R245, R246). -/

/-- The results of ATTACH's checks are those of the BAL_CMD table. -/
theorem Dev.attachCheck_le (d : Dev) (meter zone : Nat) : d.attachCheck meter zone ≤ 4 := by
  unfold Dev.attachCheck
  split
  · decide
  · decide
  · extract_lets layout inWh
    split
    · decide
    · split
      · decide
      · split <;> decide

theorem attach_attaches (s : State) (i : Nat) (hbusy : s.dev.flag F.BAL_CMD_BUSY = false) (hserves : s.dev.standbyRefuses = false)
    (hcheck : s.dev.attachCheck (i % 1048576) (s.dev.get F.BAL_CMD_ZONE_ZONE) = 0) (hidle : s.dev.bil.eval = none)
    (hsynced : s.dev.standbySynced = false) : Runs (.attach i) s fun d =>
      (Maps.get? (i % 1048576) d.dur.bal.members).map (·.zone) = some (s.dev.get F.BAL_CMD_ZONE_ZONE) ∧
      (Maps.get? (i % 1048576) d.dur.bal.members).map (·.since) = some s.dev.tsu.sec ∧
      (Maps.get? (i % 1048576) d.dur.bal.members).map (·.base) = some (s.dev.balNow + 1) ∧ d.get F.BAL_CMD_RESULT = 0 := by
  refine ⟨_, rfl, rfl, ?_⟩
  dsimp -zeta only
  rw [Dev.balCmd_runs hbusy hserves]
  extract_lets meter zone r
  rw [if_neg (not_not.2 hcheck)]
  obtain ⟨hbal, hresult⟩ := Dev.balDo_now hidle hsynced (r := .attach meter _) nofun
  rw [hbal, Dur.control, Maps.get?_put_same]
  exact ⟨rfl, rfl, rfl, hresult⟩

/-- R245: an ATTACH that a check refuses changes no membership. -/
theorem attach_refused (s : State) (i r : Nat) (hbusy : s.dev.flag F.BAL_CMD_BUSY = false) (hserves : s.dev.standbyRefuses = false)
    (hr : r = s.dev.attachCheck (i % 1048576) (s.dev.get F.BAL_CMD_ZONE_ZONE)) (hne : r ≠ 0) : Runs (.attach i) s fun d =>
      d.dur.bal = s.dev.dur.bal ∧ d.get F.BAL_CMD_RESULT = r ∧ d.get F.BAL_INT_STATUS_CMD_DONE = 1 := by
  subst hr
  refine ⟨_, rfl, rfl, ?_⟩
  dsimp -zeta only
  rw [Dev.balCmd_runs hbusy hserves]
  extract_lets meter zone r
  rw [if_pos hne]
  exact ⟨Dev.finish_bal_bal .., Dev.finish_bal_answers _ (Nat.lt_of_le_of_lt (s.dev.attachCheck_le meter zone) (by decide))⟩

section
variable {s : State} {i : Nat} {m : Member} (hbusy : s.dev.flag F.BAL_CMD_BUSY = false) (hserves : s.dev.standbyRefuses = false)
  (hctx : (Maps.get? (i % 1048576) s.dev.dur.ctxs).isSome = true) (hmember : Maps.get? (i % 1048576) s.dev.dur.bal.members = some m)
include hbusy hserves hctx hmember

/-- R246: DETACH of a member is a membership change. -/
theorem detach_runs {P : Dev → Prop} (h : P (s.dev.balDo (.detach (i % 1048576)))) : Runs (.detach i) s P := by
  refine ⟨_, rfl, rfl, ?_⟩
  dsimp -zeta only
  rw [Dev.balCmd_runs hbusy hserves]
  extract_lets meter
  rw [if_neg (by simp [meter, Option.isSome_iff_ne_none.1 hctx]), if_neg (by simp [meter, hmember])]
  exact h

end

theorem detach_detaches (s : State) (i : Nat) (m : Member) (hbusy : s.dev.flag F.BAL_CMD_BUSY = false)
    (hserves : s.dev.standbyRefuses = false) (hctx : (Maps.get? (i % 1048576) s.dev.dur.ctxs).isSome = true)
    (hmember : Maps.get? (i % 1048576) s.dev.dur.bal.members = some m) (hidle : s.dev.bil.eval = none)
    (hsynced : s.dev.standbySynced = false) : Runs (.detach i) s fun d =>
      Maps.get? (i % 1048576) d.dur.bal.members = none ∧ d.get F.BAL_CMD_RESULT = 0 := by
  refine detach_runs hbusy hserves hctx hmember ?_
  obtain ⟨hbal, hresult⟩ := Dev.balDo_now hidle hsynced (r := .detach (i % 1048576)) nofun
  rw [hbal, Dur.control]
  exact ⟨Maps.get?_del_same .., hresult⟩

theorem detach_waits (s : State) (i : Nat) (m : Member) (b : Nat) (hbusy : s.dev.flag F.BAL_CMD_BUSY = false)
    (hserves : s.dev.standbyRefuses = false) (hctx : (Maps.get? (i % 1048576) s.dev.dur.ctxs).isSome = true)
    (hmember : Maps.get? (i % 1048576) s.dev.dur.bal.members = some m) (heval : s.dev.bil.eval = some b) : Runs (.detach i) s fun d =>
      d.dur = s.dev.dur ∧ d.bil.waiting.isSome = true ∧ d.get F.BAL_CMD_BUSY = 1 :=
  detach_runs hbusy hserves hctx hmember (Dev.balDo_waits heval _)

/-! Queries (R253). -/

/-- The register that shows a queried zone's state is none of the ranking registers. -/
theorem rank_off_ne : ∀ n < 16, R.BAL_Q_STATUS.off ≠ (F.BAL_RANK_n_METER_VALID.at n).off ∧
    R.BAL_Q_STATUS.off ≠ (F.BAL_RANK_n_METER_METER.at n).off ∧ R.BAL_Q_STATUS.off ≠ (F.BAL_RANK_n_U_U.at n).off := by
  decide

/-- A queried zone shows as existing, under its number. -/
theorem Dev.queryZone_shows (d : Dev) (z : ZoneRec) :
    (d.queryZone z).get F.BAL_Q_STATUS_VALID = 1 ∧ (d.queryZone z).get F.BAL_Q_STATUS_ZONE = z.zone % 65536 := by
  unfold Dev.queryZone
  extract_lets rt d₁ d₂ d₃ d₄ d₅ d₆ ranks
  have hd₆ : d₆.reg R.BAL_Q_STATUS.off = d₃.reg R.BAL_Q_STATUS.off := by
    simp only [d₆, d₅, d₄, Dev.setSat, Dev.setWideInt, Dev.setWide]
    rw [Dev.reg_set_other (by decide), Dev.reg_set_other (by decide), Dev.reg_set_other (by decide), Dev.reg_set_other (by decide),
      Dev.reg_setReg_other (by decide), Dev.reg_setReg_other (by decide), Dev.reg_setReg_other (by decide), Dev.reg_setReg_other (by decide)]
  generalize hd₇ : List.foldl _ d₆ _ = d₇
  have hranks : d₇.reg R.BAL_Q_STATUS.off = d₃.reg R.BAL_Q_STATUS.off := by
    rw [← hd₇]
    refine (Dev.foldl_reg (fun d' n hn => ?_) d₆).trans hd₆
    obtain ⟨hvalid, hmeter, hu⟩ := rank_off_ne n (List.mem_range.1 hn)
    split
    · rw [Dev.setSat, Dev.reg_set_other hu, Dev.reg_set_other hmeter, Dev.reg_set_other hvalid]
    · rw [Dev.reg_set_other hu, Dev.reg_set_other hmeter, Dev.reg_set_other hvalid]
  refine ⟨(Dev.get_of_reg hranks).trans ?_, (Dev.get_of_reg hranks).trans (Dev.get_set_same _ F.BAL_Q_STATUS_ZONE z.zone)⟩
  simp only [d₃, d₂]
  rw [Dev.get_set_clear (by decide), Dev.get_set_clear (by decide), Dev.get_set_clear (by decide)]
  exact Dev.get_set_same _ F.BAL_Q_STATUS_VALID 1

theorem queryZone_shows (s : State) (i : Nat) (z : ZoneRec) (hbusy : s.dev.flag F.BAL_CMD_BUSY = false)
    (hzone : s.dev.zoneRec? (i % 65536) = some z) (hz : z.zone < 65536) : Runs (.queryZone i) s fun d =>
      d.get F.BAL_Q_STATUS_VALID = 1 ∧ d.get F.BAL_Q_STATUS_ZONE = z.zone ∧ d.get F.BAL_CMD_RESULT = 0 := by
  refine ⟨_, rfl, rfl, ?_⟩
  dsimp only
  rw [if_neg (by simp [hbusy]), hzone]
  obtain ⟨hvalid, hnumber⟩ := s.dev.queryZone_shows z
  refine ⟨?_, ?_, (Dev.finish_bal_answers _ (by decide)).1⟩
  · rw [Dev.get_finish_bal (by decide) (by decide), hvalid]
  · rw [Dev.get_finish_bal (by decide) (by decide), hnumber, Nat.mod_eq_of_lt hz]

theorem queryZone_noZone (s : State) (i : Nat) (hbusy : s.dev.flag F.BAL_CMD_BUSY = false)
    (hzone : s.dev.zoneRec? (i % 65536) = none) : Runs (.queryZone i) s fun d =>
      d.get F.BAL_Q_STATUS_VALID = 0 ∧ d.get F.BAL_Q_STATUS_ZONE = i % 65536 ∧ d.get F.BAL_CMD_RESULT = 2 := by
  refine ⟨_, rfl, rfl, ?_⟩
  dsimp only
  rw [if_neg (by simp [hbusy]), hzone]
  have hcleared : (s.dev.setReg R.BAL_Q_STATUS.off 0).reg F.BAL_Q_STATUS_VALID.off = 0 := Dev.reg_setReg_same ..
  refine ⟨?_, ?_, (Dev.finish_bal_answers _ (by decide)).1⟩
  · rw [Dev.get_finish_bal (by decide) (by decide), Dev.get_set_clear (by decide)]
    exact congrArg (fun w : Word => bitsOf w F.BAL_Q_STATUS_VALID.hi F.BAL_Q_STATUS_VALID.lo) hcleared
  · rw [Dev.get_finish_bal (by decide) (by decide), Dev.get_set_same _ F.BAL_Q_STATUS_ZONE]
    exact Nat.mod_mod i 65536

/-- The register that shows a queried meter's state is none of its tamper records'. -/
theorem tamper_off_ne : ∀ k < 4, R.BAL_M_STATE.off ≠ (F.BAL_M_TAMPER_COUNT_k_VALUE.at k).off ∧
    R.BAL_M_STATE.off ≠ (F.BAL_M_TAMPER_FIRST_LO_k_VALUE.at k).off ∧ R.BAL_M_STATE.off ≠ (F.BAL_M_TAMPER_LAST_LO_k_VALUE.at k).off ∧
    R.BAL_M_STATE.off ≠ R.BAL_M_TAMPER_HI_k.at k := by
  decide

theorem queryMeter_shows (s : State) (i : Nat) (hbusy : s.dev.flag F.BAL_CMD_BUSY = false)
    (hctx : (Maps.get? (i % 1048576) s.dev.dur.ctxs).isSome = true) : Runs (.queryMeter i) s fun d =>
      d.get F.BAL_M_STATE_ATTACHED = b2n (Maps.get? (i % 1048576) s.dev.dur.bal.members).isSome ∧ d.get F.BAL_CMD_RESULT = 0 := by
  refine ⟨_, rfl, rfl, ?_⟩
  dsimp -zeta only
  rw [if_neg (by simp [hbusy])]
  extract_lets meter m d₁ d₂ d₃
  rw [if_neg (by simp [meter, Option.isSome_iff_ne_none.1 hctx])]
  have hd₃ : d₃.reg R.BAL_M_STATE.off = d₂.reg R.BAL_M_STATE.off := by
    refine Dev.foldl_reg (fun d' k hk => ?_) d₂
    obtain ⟨hcount, hfirst, hlast, hhi⟩ := tamper_off_ne k (List.mem_range.1 hk)
    dsimp only
    rw [Dev.reg_setReg_other hhi, Dev.reg_set_other hlast, Dev.reg_set_other hfirst, Dev.reg_set_other hcount]
  refine ⟨?_, (Dev.finish_bal_answers _ (by decide)).1⟩
  rw [Dev.get_finish_bal (by decide) (by decide), Dev.get_of_reg (x := F.BAL_M_STATE_ATTACHED) hd₃]
  simp only [d₂, d₁, Dev.setSat]
  rw [Dev.get_set_clear (by decide), Dev.get_set_clear (by decide), Dev.get_set_clear (by decide), Dev.get_set_clear (by decide),
    Dev.get_set_clear (by decide), Dev.get_set_same _ F.BAL_M_STATE_ATTACHED]
  exact Nat.mod_eq_of_lt (by cases m.isSome <;> decide)

/-! Evaluations (R247, R260, R261). -/

/-- Pass 1 freezes the interval in every bin, and the evaluation runs (R247). -/
theorem Dev.beginEval_begins (d : Dev) (b : Nat) : (d.beginEval b).bil.eval = some b ∧ (d.beginEval b).get F.BAL_STATUS_EVAL_BUSY = 1 ∧
    (d.beginEval b).dur.bal = freezeAll d.trellis.zones d.balMins d.utc b d.dur.lastTs d.dur.bal :=
  ⟨rfl, (Dev.get_of_reg (Dev.countBy_reg_other (by decide) _ _)).trans (Dev.get_set_same _ F.BAL_STATUS_EVAL_BUSY 1), rfl⟩

/-- Pass 2 over the zones runs no evaluation and makes no command wait. -/
theorem Dev.foldl_rankZone_bil (l : List ZoneRec) (d : Dev) : (l.foldl Dev.rankZone d).bil = d.bil :=
  Dev.foldl_keeps (·.bil) (fun d _ => (Dev.rankZone_edits (m := 0x342040004c003) (h := .refl d)).bil.resolve_left (by decide)) l d

theorem Dev.rebuilt_bil (d : Dev) : d.rebuilt.bil = d.bil :=
  (Dev.rebuilt_edits (m := 0x20000000000) (h := .refl d)).bil.resolve_left (by decide)

/-- Both passes end with no command waiting: the evaluation is over, and its interval is the last one evaluated (R247). -/
theorem Dev.endEval_ends {d : Dev} {b : Nat} (hb : b < 2 ^ 64) (hwaiting : d.bil.waiting = none) :
    (d.endEval b).bil = { d.bil with eval := none } ∧ (d.endEval b).get F.BAL_STATUS_EVAL_BUSY = 0 ∧
      (d.endEval b).wide R.BAL_LAST_B_LO R.BAL_LAST_B_HI 0 = b ∧ (d.endEval b).get F.BAL_INT_STATUS_EVAL_DONE = 1 := by
  unfold Dev.endEval
  extract_lets model t _ d₁ d₂ calm _ bal _ _ d₃ d₄ d₅
  have hbil : d₅.bil = { d.bil with eval := none } := by
    have hd₂ : d₂.bil = d.bil := Dev.foldl_rankZone_bil ..
    rw [Dev.raise_bil, Dev.set_bil, Dev.setWide_bil, Dev.rebuilt_bil, ← hd₂]
  have hregs (off : Nat) (hint : off ≠ R.BAL_INT_STATUS.off) (ho : off < 4194304)
      (hevent : Nat.testBit 0x340040004c003 (regBit off) = false) : d₅.reg off = d₄.reg off := Dev.raise_reg hint d₄ _ _ ho hevent
  have hlast : d₅.wide R.BAL_LAST_B_LO R.BAL_LAST_B_HI 0 = b := by
    rw [Dev.wide, hregs _ (by decide) (by decide) (by decide), hregs _ (by decide) (by decide) (by decide), Dev.reg_set_other (by decide),
      Dev.reg_set_other (by decide)]
    exact Dev.wide_setWide (by decide) hb _
  have hnone : d₅.bil.waiting = none := (congrArg BilRt.waiting hbil).trans hwaiting
  rw [hnone]
  exact ⟨hbil, (Dev.get_raise_of_clear (by decide) ..).trans (Dev.get_set_same _ F.BAL_STATUS_EVAL_BUSY 0), hlast, Dev.raise_self ..⟩

/-- An interval is up for evaluation: it is due, and past the last one evaluated and the restart (R247, R258). -/
theorem Dev.due_runs {d : Dev} {b : Nat} (hserves : d.serves = true) (htime : d.timeValid = true) (hdue : d.evalAt b ≤ d.tsu.sec)
    (hlast : d.wide R.BAL_LAST_B_LO R.BAL_LAST_B_HI 0 < b) (hbase : d.bil.base ≤ b) : ¬(d.serves = false ∨ d.timeValid = false ∨
      d.tsu.sec < d.evalAt b ∨ b ≤ d.wide R.BAL_LAST_B_LO R.BAL_LAST_B_HI 0 ∨ b < d.bil.base) := by
  simp [hserves, htime, hdue, hlast, hbase]

theorem balEvaluation_begins (s : State) (b : Nat) (hserves : s.dev.serves = true) (htime : s.dev.timeValid = true)
    (hdue : balEnd s.dev.balMins s.dev.utc b + 60 * s.dev.balMins * s.dev.get F.BAL_CTRL_SETTLE ≤ s.dev.tsu.sec)
    (hlast : s.dev.wide R.BAL_LAST_B_LO R.BAL_LAST_B_HI 0 < b) (hbase : s.dev.bil.base ≤ b) (hidle : s.dev.bil.eval = none) :
    Runs (.balEvaluation b) s fun d => d.bil.eval = some b ∧ d.get F.BAL_STATUS_EVAL_BUSY = 1 ∧
      d.dur.bal = freezeAll s.dev.trellis.zones s.dev.balMins s.dev.utc b s.dev.dur.lastTs s.dev.dur.bal := by
  refine ⟨_, rfl, rfl, ?_⟩
  dsimp only
  rw [if_neg (Dev.due_runs hserves htime hdue hlast hbase), hidle]
  exact s.dev.beginEval_begins b

/-- R260: an interval due while an earlier one is evaluated waits. -/
theorem balEvaluation_waits (s : State) (b c : Nat) (hserves : s.dev.serves = true) (htime : s.dev.timeValid = true)
    (hdue : balEnd s.dev.balMins s.dev.utc b + 60 * s.dev.balMins * s.dev.get F.BAL_CTRL_SETTLE ≤ s.dev.tsu.sec)
    (hlast : s.dev.wide R.BAL_LAST_B_LO R.BAL_LAST_B_HI 0 < b) (hbase : s.dev.bil.base ≤ b) (heval : s.dev.bil.eval = some c)
    (hc : c < b) (hnew : s.dev.bil.due.contains b = false) : Runs (.balEvaluation b) s fun d =>
      d.bil.eval = some c ∧ d.bil.due = s.dev.bil.due ++ [b] ∧ d.get F.BAL_INT_STATUS_EVAL_OVERRUN = 1 := by
  refine ⟨_, rfl, rfl, ?_⟩
  dsimp only
  rw [if_neg (Dev.due_runs hserves htime hdue hlast hbase), heval]
  dsimp only
  rw [if_neg (not_or.2 ⟨by omega, by simp only [hnew, Bool.false_eq_true, not_false_iff]⟩), Dev.raise_bil]
  exact ⟨rfl, rfl, Dev.raise_self ..⟩

/-- R258: intervals that passed before a restart are skipped. -/
theorem balEvaluation_skips (s : State) (b : Nat) (hbase : b < s.dev.bil.base) : Runs (.balEvaluation b) s fun d => d = s.dev :=
  ⟨_, rfl, rfl, if_pos (.inr (.inr (.inr (.inr hbase))))⟩

theorem balEvalDone_ends (s : State) (b : Nat) (heval : s.dev.bil.eval = some b) (hb : b < 2 ^ 64) (hdue : s.dev.bil.due = [])
    (hwaiting : s.dev.bil.waiting = none) : Runs .balEvalDone s fun d => d.bil.eval = none ∧ d.get F.BAL_STATUS_EVAL_BUSY = 0 ∧
      d.wide R.BAL_LAST_B_LO R.BAL_LAST_B_HI 0 = b ∧ d.get F.BAL_INT_STATUS_EVAL_DONE = 1 := by
  refine ⟨_, rfl, rfl, ?_⟩
  obtain ⟨hbil, hended⟩ := Dev.endEval_ends hb hwaiting
  dsimp only
  rw [heval]
  dsimp only
  rw [hbil, hdue]
  exact ⟨congrArg BilRt.eval hbil, hended⟩

/-- BAL_CTRL.RESTART zeroes every accumulator, bin and zone sum (R258). -/
theorem balRestart_clears (s : State) : Runs .balRestart s fun d => d.dur.bal = s.dev.dur.bal.clear := ⟨_, rfl, rfl, rfl⟩

/-- Settles O37: the lemmas above, one for each clause. -/
theorem balanceZones : Obligations.BalanceZones :=
  ⟨balEvaluation_begins, balEvaluation_waits, balEvaluation_skips, balEvalDone_ends, attach_attaches, attach_refused, detach_detaches,
    detach_waits, queryZone_shows, queryZone_noZone, queryMeter_shows, balRestart_clears⟩

end Sys2Proof.Machine

namespace Sys2Proof.Machine

set_option Elab.async false

/-! Two statements about one command: it answers one next state. -/

/-- A command whose next device is known. -/
theorem Runs.of_eq {c : Instr} {s : State} {P : Dev → Prop} {d : Dev} (h : Runs c s (· = d)) (hP : P d) : Runs c s P := by
  obtain ⟨t, hexec, hpending, rfl⟩ := h
  exact ⟨t, hexec, hpending, hP⟩

/-- What two statements say of a command holds of one device: a command answers one next state. -/
theorem Runs.both {c : Instr} {s : State} {P Q : Dev → Prop} (hP : Runs c s P) (hQ : Runs c s Q) : ∃ d, P d ∧ Q d := by
  obtain ⟨t, hexec, -, hp⟩ := hP
  obtain ⟨t', hexec', -, hq⟩ := hQ
  obtain rfl : t = t' := Host.Outcome.next.inj (hexec.symm.trans hexec')
  exact ⟨t.dev, hp, hq⟩

/-! What status entries and events leave of the durable state (R285, R491). -/

/-- `d'` has the durable state of `d`, but for the event numbers reserved. -/
def Dev.DurKept (d d' : Dev) : Prop := ∃ n, d'.dur = { d.dur with evReserved := n }

theorem Dev.DurKept.refl (d : Dev) : d.DurKept d := ⟨d.dur.evReserved, rfl⟩

section
variable {d d' : Dev} (h : d.DurKept d')
include h

theorem Dev.DurKept.campaigns : d'.dur.campaigns = d.dur.campaigns := by obtain ⟨n, e⟩ := h; rw [e]

theorem Dev.DurKept.campMembers : d'.dur.campMembers = d.dur.campMembers := by obtain ⟨n, e⟩ := h; rw [e]

theorem Dev.DurKept.trans {d'' : Dev} (h' : d'.DurKept d'') : d.DurKept d'' := by
  obtain ⟨n, e⟩ := h
  obtain ⟨n', e'⟩ := h'
  exact ⟨n', by rw [e', e]⟩

/-- An operation whose law does not cover the durable state. -/
theorem Dev.DurKept.edits {m : Nat} {d'' : Dev} (e : Edits m d' d'') (hm : m.testBit 14 = false := by decide) : d.DurKept d'' :=
  h.trans ⟨d'.dur.evReserved, e.dur.resolve_left (by simp [hm])⟩

theorem Dev.DurKept.raise (x : Fld) (a b : Nat) : d.DurKept (d'.raise x a b) := h.trans (d'.raise_dur x a b)

theorem Dev.DurKept.ringPut {d'' : Dev} {n : Nat} {replay : Bool} {body : List Word} (e : d'.ringPut n replay body = some d'') :
    d.DurKept d'' := by
  unfold Dev.ringPut at e
  split at e
  · split at e
    · cases e
      exact h
    · next f _ =>
      cases e
      exact Dev.DurKept.raise (d' := { d' with face := f }) h F.RNG_INT_STATUS_MARK_LOST 0 n
  · cases e

theorem Dev.DurKept.drainCheck (n : Nat) : d.DurKept (d'.drainCheck n) := by
  unfold Dev.drainCheck
  extract_lets x stopped
  split
  · split
    · exact h
    · exact Dev.DurKept.raise (d' := d'.set x 1) h F.RNG_INT_STATUS_HOST_BUF_FULL 0 n
  · exact h

theorem Dev.DurKept.putStatus (n : Nat) (body : List Word) : d.DurKept (d'.putStatus n body) := by
  unfold Dev.putStatus
  extract_lets r
  split
  · next d'' e =>
    split at e
    · exact (h.ringPut e).drainCheck n
    · cases e
  · split
    · exact h
    · exact Dev.DurKept.raise (d' := { d' with face := d'.face.add (R.RNG_n_DROPS.at n) 1 }) h F.RNG_INT_STATUS_RING_DROP 0 n

theorem Dev.DurKept.campEntry (slot state cause flags meter seq received sec ns : Nat) :
    d.DurKept (d'.campEntry slot state cause flags meter seq received sec ns) := by
  unfold Dev.campEntry
  extract_lets id b
  split
  · exact h.putStatus _ _
  · exact h

theorem Dev.DurKept.memberEntry (slot meter : Nat) (m : CampMember) (flags seq : Nat) :
    d.DurKept (d'.memberEntry slot meter m flags seq) := by
  unfold Dev.memberEntry
  extract_lets d₁
  have h₁ : d.DurKept d₁ := h.campEntry ..
  split
  · exact h₁.raise F.DST_INT_STATUS_METER_FAILED _ _
  · exact h₁

theorem Dev.DurKept.showCamp (slot : Nat) : d.DurKept (d'.showCamp slot) :=
  h.edits (Dev.showCamp_edits (m := 0x40000000000) (h := .refl d'))

end

/-- A campaign's new state is journaled, and no other change made (R264). -/
theorem Dev.setCampaign_kept (d : Dev) (slot : Nat) (c : Campaign) :
    (d.journal (.campaign slot (some c))).DurKept (d.setCampaign slot c) :=
  ((Dev.DurKept.refl _).showCamp slot).campEntry ..

theorem Dev.setCampaign_campaigns (d : Dev) (slot : Nat) (c : Campaign) :
    (d.setCampaign slot c).dur.campaigns = Maps.put d.dur.campaigns slot c := by
  rw [(d.setCampaign_kept slot c).campaigns, Dev.journal_dur]
  rfl

theorem Dev.setCampaign_campMembers (d : Dev) (slot : Nat) (c : Campaign) :
    (d.setCampaign slot c).dur.campMembers = d.dur.campMembers := by
  rw [(d.setCampaign_kept slot c).campMembers, Dev.journal_dur]
  rfl

/-- A campaign that ends keeps its members' records (R264). -/
theorem Dev.campEnd_campMembers (d : Dev) (slot : Nat) : (d.campEnd slot).dur.campMembers = d.dur.campMembers := by
  unfold Dev.campEnd
  split
  · extract_lets ms
    split
    · rw [((Dev.DurKept.refl _).raise F.DST_INT_STATUS_ENDED slot 0).campMembers, Dev.setCampaign_campMembers]
      rfl
    · rfl
  · rfl

/-- A campaign with no members, or with one that is not final, goes on. -/
theorem Dev.campEnd_of_open {d : Dev} {slot : Nat}
    (hopen : d.dur.members slot = [] ∨ ((d.dur.members slot).any fun p => !p.2.final) = true) : d.campEnd slot = d := by
  have hnot : ¬(d.dur.members slot ≠ [] ∧ ((d.dur.members slot).all fun p => p.2.final) = true) := by
    rintro ⟨hsome, hall⟩
    rcases hopen with h | h
    · exact hsome h
    · obtain ⟨p, hp, hfinal⟩ := List.any_eq_true.1 h
      simp [List.all_eq_true.1 hall p hp] at hfinal
  unfold Dev.campEnd
  split
  · exact if_neg fun h => hnot h.2.2
  · rfl

/-! DST_CMD (R265). -/

/-- A DST command is carried out on a device that is not busy, and not refused by a standby (R189). -/
theorem Dev.dstCmd_runs {d : Dev} (hbusy : d.flag F.DST_CMD_BUSY = false) (hserves : d.standbyRefuses = false) (f : Dev → Dev) :
    d.dstCmd f = f d := by
  rw [Dev.dstCmd, if_neg (by simp [hbusy]), if_neg (by simp [hserves])]

/-- The end of a DST command shows its result. -/
theorem Dev.finish_dst_result (d : Dev) (result k : Nat) : (d.finish result (.dst k)).get F.DST_CMD_RESULT = result % 16 := by
  rw [Dev.finish, Dev.raise_get, Dev.get_set_other (by decide), Dev.get_set_clear (by decide)]
  exact Dev.get_set_same _ F.DST_CMD_RESULT result

theorem Dev.DurKept.finish_dst {d d' : Dev} (h : d.DurKept d') (result k : Nat) : d.DurKept (d'.finish result (.dst k)) :=
  Dev.DurKept.raise (d' := (d'.set F.DST_CMD_RESULT result).set F.DST_CMD_BUSY 0) h F.DST_INT_STATUS_CMD_DONE result 0

/-- Showing one of the sixteen campaigns leaves DST_CMD. -/
theorem Dev.showCamp_cmd {slot : Nat} (hslot : slot < 16) (d : Dev) : (d.showCamp slot).reg R.DST_CMD.off = d.reg R.DST_CMD.off := by
  have hcount : ∀ slot < 16, ∀ s < 8, R.DST_CMD.off ≠ (F.DST_C_COUNT_s_COUNT.at2 slot s).off := by decide
  have hstate : R.DST_CMD.off ≠ (F.DST_C_STATE_STATE.at slot).off := by
    revert slot
    decide
  unfold Dev.showCamp
  extract_lets ms n d₁ running d₂ d₃
  have h₁ : d₁.reg R.DST_CMD.off = d.reg R.DST_CMD.off :=
    Dev.foldl_reg (fun d' s hs => Dev.reg_set_other (hcount slot hslot s ((List.mem_range.1 hs).trans (by decide))) _ _) d
  have h₃ : d₃.reg R.DST_CMD.off = d.reg R.DST_CMD.off := by
    rw [Dev.reg_set_other (x := F.DST_C_STATE_MEMBERS.at slot) hstate, Dev.reg_set_other (hcount slot hslot 7 (by decide)), h₁]
  split
  · rw [Dev.reg_set_other (by decide), Dev.reg_set_other (x := F.DST_C_STATE_CAUSE.at slot) hstate, Dev.reg_set_other hstate, h₃]
  · rw [Dev.reg_set_other (by decide), Dev.reg_set_other (x := F.DST_C_STATE_CAUSE.at slot) hstate, Dev.reg_set_other hstate, h₃]

theorem Dev.raise_dst_cmd {x : Fld} (hx : R.DST_CMD.off ≠ x.off) (d : Dev) (a b : Nat) :
    (d.raise x a b).reg R.DST_CMD.off = d.reg R.DST_CMD.off :=
  Dev.raise_reg hx d a b (by decide) (by decide)

theorem Dev.memberEntry_cmd (d : Dev) (slot meter : Nat) (m : CampMember) (flags seq : Nat) :
    (d.memberEntry slot meter m flags seq).reg R.DST_CMD.off = d.reg R.DST_CMD.off := by
  unfold Dev.memberEntry
  extract_lets d₁
  have h₁ : d₁.reg R.DST_CMD.off = d.reg R.DST_CMD.off := (Dev.campEntry_edits (m := 0x340040004c003) (h := .refl d)).reg _
  split
  · exact (Dev.raise_dst_cmd (by decide) ..).trans h₁
  · exact h₁

theorem Dev.campEnd_cmd {slot : Nat} (hslot : slot < 16) (d : Dev) : (d.campEnd slot).reg R.DST_CMD.off = d.reg R.DST_CMD.off := by
  unfold Dev.campEnd
  split
  · extract_lets ms
    split
    · rw [Dev.raise_dst_cmd (by decide)]
      unfold Dev.setCampaign
      extract_lets d₁
      rw [(Dev.campEntry_edits (m := 0x340040004c003) (h := .refl d₁)).reg R.DST_CMD.off]
      dsimp only [d₁]
      rw [Dev.showCamp_cmd hslot, (Dev.journal_edits (m := 0x140000004c002) (h := .refl (d.stopRounds slot))).reg R.DST_CMD.off]
      exact Dev.reg_set_other (by decide) _ _
    · rfl
  · rfl

end Sys2Proof.Machine

namespace Sys2Proof.Machine

set_option Elab.async false

/-! A command's change to a campaign or its members (R264, R265). -/

/-- A DST command's record, which frees no context, makes its change, and the command ends with OK. -/
theorem Dev.complete_dst {r : JRec} (hr : ∀ i, r ≠ .free i) (slot : Nat) (d : Dev) :
    (d.journal r).DurKept (d.complete { recs := [r], finish := .dst slot }) ∧
      (d.complete { recs := [r], finish := .dst slot }).dst = d.dst ∧
      (d.complete { recs := [r], finish := .dst slot }).get F.DST_CMD_RESULT = 0 := by
  have hfrees : (d.eng.freeing.filter fun i => [r].contains (.free i)) = [] :=
    List.filter_eq_nil_iff.2 fun i _ => by simp [(hr i).symm]
  unfold Dev.complete
  dsimp -zeta only
  rw [hfrees]
  extract_lets d₁ d₂ d₃ d₄ d₅ freeing
  have h₄ : Edits 0x1000000040042 d₃ d₄ := by
    dsimp only [d₄]
    split
    · exact Dev.sendHeld_edits (h := .refl d₃)
    · exact .refl d₃
  refine ⟨?_, ?_, Dev.finish_dst_result ..⟩
  · have hkept : d₃.DurKept d₄ := (Dev.DurKept.refl d₃).edits h₄
    exact Dev.DurKept.finish_dst (d' := { d₅ with eng := { d₅.eng with freeing := freeing } }) hkept 0 slot
  · rw [Dev.finish, Dev.raise_dst]
    exact (h₄.dst.resolve_left (by decide)).trans (Dev.journal_dst ..)

/-- What a changed member's record leaves of the members, and of the answer. -/
theorem Dev.memberDone_kept (d : Dev) (slot : Nat) (r : JRec) :
    d.DurKept (d.memberDone slot r) ∧ (d.memberDone slot r).reg R.DST_CMD.off = d.reg R.DST_CMD.off := by
  unfold Dev.memberDone
  split
  · next meter m =>
    extract_lets d₁
    have h₁ : d.DurKept d₁ := (Dev.DurKept.refl d).memberEntry ..
    have hcmd : d₁.reg R.DST_CMD.off = d.reg R.DST_CMD.off := d.memberEntry_cmd ..
    split
    · next c _ =>
      split
      · have habort : Edits 0x200 d₁ (d₁.unicastAbort c slot meter) := Dev.unicastAbort_edits (h := .refl d₁)
        exact ⟨h₁.edits habort, (habort.reg _).trans hcmd⟩
      · exact ⟨h₁, hcmd⟩
    · exact ⟨h₁, hcmd⟩
  · exact ⟨.refl d, rfl⟩

/-- With no synchronised standby a command's member record is made at once, and the command ends with OK. -/
theorem Dev.campDo_member {d : Dev} {slot : Nat} (hsynced : d.standbySynced = false) (hslot : slot < 16) (meter : Nat) (m : CampMember) :
    (d.campDo slot [.campMember slot meter (some m)]).dur.campMember? slot meter = some m ∧
      (d.campDo slot [.campMember slot meter (some m)]).get F.DST_CMD_RESULT = 0 := by
  obtain ⟨hjournal, -, hresult⟩ := Dev.complete_dst (r := .campMember slot meter (some m)) nofun slot d
  rw [Dev.campDo, Dev.pairRun, if_neg (by simp [hsynced]), Dev.completeCmd]
  dsimp -zeta only
  extract_lets d₁ d₂
  have hd₁ : d₁ = d := if_neg (by simp)
  have hd₂ : d₂ = d.complete { recs := [.campMember slot meter (some m)], finish := .dst slot } := by rw [← hd₁]
  obtain ⟨hkept, hcmd⟩ := d₂.memberDone_kept slot (.campMember slot meter (some m))
  constructor
  · rw [Dur.campMember?, Dev.campEnd_campMembers]
    refine (congrArg _ (hkept.showCamp slot).campMembers).trans ?_
    rw [hd₂, hjournal.campMembers, Dev.journal_dur]
    exact Maps.get?_put_same ..
  · refine (Dev.get_of_reg (x := F.DST_CMD_RESULT) ?_).trans hresult
    rw [← hd₂]
    exact (Dev.campEnd_cmd hslot _).trans ((Dev.showCamp_cmd hslot _).trans hcmd)

/-- CLEAR empties the campaign's slot, with its object (R264). -/
theorem Dev.campDo_clear {d : Dev} {slot : Nat} (hsynced : d.standbySynced = false) (hslot : slot < 16) :
    Maps.get? slot (d.campDo slot [.campaign slot none]).dur.campaigns = none ∧
      Maps.get? slot (d.campDo slot [.campaign slot none]).dst.objects = none ∧
      (d.campDo slot [.campaign slot none]).get F.DST_CMD_RESULT = 0 := by
  rw [Dev.campDo, Dev.pairRun, if_neg (by simp [hsynced]), Dev.completeCmd]
  dsimp -zeta only
  extract_lets d₁ d₂
  obtain ⟨hjournal, hdst, hresult⟩ := Dev.complete_dst (r := .campaign slot none) nofun slot d₁
  have hgone : Maps.get? slot (d₂.showCamp slot).dur.campaigns = none := by
    rw [((Dev.DurKept.refl d₂).showCamp slot).campaigns]
    refine (congrArg _ hjournal.campaigns).trans ?_
    rw [Dev.journal_dur]
    exact Maps.get?_del_same ..
  have hends : ((List.foldl (fun d r => d.memberDone slot r) d₂ [.campaign slot none]).showCamp slot).campEnd slot = d₂.showCamp slot := by
    show (d₂.showCamp slot).campEnd slot = _
    rw [Dev.campEnd, hgone]
  have hdst' : (d₂.showCamp slot).dst = d₁.dst :=
    ((Dev.showCamp_edits (m := 0x40000000000) (h := .refl d₂)).dst.resolve_left (by decide)).trans hdst
  have hd₁ : d₁ = d.campClear slot := if_pos (by simp)
  rw [hends, hdst', hd₁]
  exact ⟨hgone, Maps.get?_del_same .., (Dev.get_of_reg (x := F.DST_CMD_RESULT) (Dev.showCamp_cmd hslot d₂)).trans hresult⟩

/-- With no activation due, a command finds its campaign as it is (R278). -/
theorem Dev.activate_of_notDue {d : Dev} {slot : Nat} {c : Campaign} (hcamp : Maps.get? slot d.dur.campaigns = some c)
    (hnot : c.activated = true ∨ c.act = 0 ∨ d.tsu.sec < c.act) : d.activate slot = d := by
  rw [Dev.activate, hcamp]
  exact if_pos (by tauto)

section
variable (s : State) (slot : Nat) (hbusy : s.dev.flag F.DST_CMD_BUSY = false) (hserves : s.dev.standbyRefuses = false)
include hbusy hserves

/-- R265: ADD. -/
theorem dstAdd_adds (m : Nat) (c : Campaign) (x : Ctx) (hcamp : Maps.get? (slot % 16) s.dev.dur.campaigns = some c)
    (hctx : Maps.get? (m % 1048576) s.dev.dur.ctxs = some x) (htakes : c.takes = true) (hfits : s.dev.fits c x = true)
    (hact : c.act = 0 ∨ s.dev.tsu.sec < c.act) (hnew : s.dev.dur.campMember? (slot % 16) (m % 1048576) = none)
    (hsynced : s.dev.standbySynced = false) : Runs (.dstAdd slot m) s fun d =>
      d.dur.campMember? (slot % 16) (m % 1048576) = some {} ∧ d.get F.DST_CMD_RESULT = 0 := by
  refine ⟨_, rfl, rfl, ?_⟩
  dsimp -zeta only
  rw [Dev.dstCmd_runs hbusy hserves]
  dsimp only
  rw [hcamp, hctx]
  dsimp only
  rw [if_neg (by simp [htakes]), if_neg (by simp [hfits]), if_neg (by omega), hnew]
  exact Dev.campDo_member hsynced (Nat.mod_lt _ (by decide)) _ _

/-- R265: ADD once the activation instant is reached. -/
theorem dstAdd_tooLate (m : Nat) (c : Campaign) (x : Ctx) (hcamp : Maps.get? (slot % 16) s.dev.dur.campaigns = some c)
    (hctx : Maps.get? (m % 1048576) s.dev.dur.ctxs = some x) (htakes : c.takes = true) (hfits : s.dev.fits c x = true)
    (hact : c.act ≠ 0) (hpast : c.act ≤ s.dev.tsu.sec) : Runs (.dstAdd slot m) s fun d =>
      d.dur.campMembers = s.dev.dur.campMembers ∧ d.get F.DST_CMD_RESULT = Dr.tooLate := by
  refine ⟨_, rfl, rfl, ?_⟩
  dsimp -zeta only
  rw [Dev.dstCmd_runs hbusy hserves]
  dsimp only
  rw [hcamp, hctx]
  dsimp only
  rw [if_neg (by simp [htakes]), if_neg (by simp [hfits]), if_pos ⟨hact, hpast⟩]
  exact ⟨((Dev.DurKept.refl s.dev).finish_dst ..).campMembers, Dev.finish_dst_result ..⟩

/-- R265: ADD_CLASS, with one context allocated. -/
theorem dstAddClass_adds (cls : Nat) (c : Campaign) (m : Nat) (x : Ctx) (hcamp : Maps.get? (slot % 16) s.dev.dur.campaigns = some c)
    (htakes : c.takes = true) (hctxs : s.dev.dur.ctxs = [(m, x)]) (hcls : x.cls = cls % 64) (hfits : s.dev.fits c x = true)
    (hnew : s.dev.dur.campMember? (slot % 16) m = none) (hsynced : s.dev.standbySynced = false) : Runs (.dstAddClass slot cls) s fun d =>
      d.dur.campMember? (slot % 16) m = some {} ∧ d.get F.DST_CMD_RESULT = 0 := by
  refine ⟨_, rfl, rfl, ?_⟩
  dsimp -zeta only
  rw [Dev.dstCmd_runs hbusy hserves]
  extract_lets j all
  rw [hcamp]
  dsimp -zeta only
  rw [if_neg (by simp [htakes])]
  extract_lets take d₁ new
  have htake : take = [(m, x)] := by simp [take, all, hctxs, hcls, hfits]
  have hd₁ : d₁.dur = s.dev.dur := rfl
  have hnew' : new = [(m, x)] := by simp [new, htake, hd₁, j, hnew]
  have hcounts : Edits 0x40000000000 s.dev d₁ := Dev.countBy_edits (h := .refl s.dev)
  have hsynced' : d₁.standbySynced = false := ((Dev.ContextsKept.refl s.dev).edits hcounts).pair.standbySynced.trans hsynced
  rw [hnew']
  exact Dev.campDo_member hsynced' (Nat.mod_lt _ (by decide)) _ _

/-- R265: REMOVE of a member that is open and not yet removed. -/
theorem dstRemove_removes (m : Nat) (c : Campaign) (x : Ctx) (o : CampMember) (hcamp : Maps.get? (slot % 16) s.dev.dur.campaigns = some c)
    (hnot : c.activated = true ∨ c.act = 0 ∨ s.dev.tsu.sec < c.act) (hctx : Maps.get? (m % 1048576) s.dev.dur.ctxs = some x)
    (htakes : c.takes = true) (hmember : s.dev.dur.campMember? (slot % 16) (m % 1048576) = some o) (hopen : o.final = false)
    (hcause : o.cause ≠ Cc.removed) (hsynced : s.dev.standbySynced = false) : Runs (.dstRemove slot m) s fun d =>
      d.dur.campMember? (slot % 16) (m % 1048576) = some { o with state := Ms.failed, cause := Cc.removed } ∧
        d.get F.DST_CMD_RESULT = 0 := by
  refine ⟨_, rfl, rfl, ?_⟩
  dsimp -zeta only
  rw [Dev.dstCmd_runs hbusy hserves]
  dsimp only
  rw [Dev.activate_of_notDue hcamp hnot, hcamp]
  dsimp only
  rw [if_neg (by simp [htakes]), if_neg (by simp [Maps.has, hctx]), hmember]
  dsimp only
  rw [if_neg hcause, if_neg (by simp [hopen])]
  exact Dev.campDo_member hsynced (Nat.mod_lt _ (by decide)) _ _

/-- R282: ABORT. -/
theorem dstAbort_aborts (c : Campaign) (hcamp : Maps.get? (slot % 16) s.dev.dur.campaigns = some c) (hstate : c.state = Cs.active)
    (hnot : c.activated = true ∨ c.act = 0 ∨ s.dev.tsu.sec < c.act) : Runs (.dstAbort slot) s fun d =>
      Maps.get? (slot % 16) d.dur.campaigns = some { c with aborted := true, cause := 8 } ∧ d.get F.DST_CMD_RESULT = 0 := by
  refine ⟨_, rfl, rfl, ?_⟩
  dsimp -zeta only
  rw [Dev.dstCmd_runs hbusy hserves]
  extract_lets j d₁ open_
  have hd₁ : d₁ = s.dev := Dev.activate_of_notDue hcamp hnot
  rw [hd₁, hcamp]
  dsimp -zeta only
  rw [if_neg (not_not.2 hstate)]
  extract_lets d₂ d₃
  have h₂ : d₂.dur.campaigns = Maps.put s.dev.dur.campaigns j { c with aborted := true, cause := 8 } := s.dev.setCampaign_campaigns j _
  have h₃ : d₃.dur.campaigns = d₂.dur.campaigns := by
    dsimp only [d₃]
    rw [((Dev.DurKept.refl _).showCamp j).campaigns]
    refine Dev.foldl_keeps (·.dur.campaigns) (fun d p => ?_) _ d₂
    rw [((Dev.DurKept.refl _).memberEntry ..).campaigns, Dev.journal_dur]
    rfl
  refine ⟨?_, Dev.finish_dst_result ..⟩
  refine (congrArg _ ((Dev.DurKept.refl _).finish_dst 0 0).campaigns).trans ?_
  rw [Dev.foldl_keeps (·.dur.campaigns), h₃, h₂, Maps.get?_put_same]
  exact fun d p => ((Dev.DurKept.refl d).edits (Dev.unicastAbort_edits (m := 0x200) (h := .refl d))).campaigns

/-- R264: CLEAR. -/
theorem dstClear_clears (c : Campaign) (hcamp : Maps.get? (slot % 16) s.dev.dur.campaigns = some c)
    (hstate : c.state = Cs.ended ∨ c.state = Cs.failed) (hsynced : s.dev.standbySynced = false) : Runs (.dstClear slot) s fun d =>
      Maps.get? (slot % 16) d.dur.campaigns = none ∧ Maps.get? (slot % 16) d.dst.objects = none ∧ d.get F.DST_CMD_RESULT = 0 := by
  refine ⟨_, rfl, rfl, ?_⟩
  dsimp -zeta only
  rw [Dev.dstCmd_runs hbusy hserves]
  dsimp only
  rw [hcamp]
  dsimp only
  rw [if_neg (by tauto)]
  exact Dev.campDo_clear hsynced (Nat.mod_lt _ (by decide))

end

/-- An ACTIVE campaign for radio meters, with no activation instant. -/
def openCampaign : Campaign :=
  { id := 7, kind := 0, radio := true, zx := false, zxBlock := 0, roundsMax := 8, lateOk := false, newClass := none, newCal := none
    start := 0, act := 0, version := 1, hash := 0, length := 256, state := Cs.active }

/-- A meter whose record in campaign 2 has cause REMOVED and state WAITING. -/
def removedWaiting : State :=
  { dev := { Dev.reset with dur := { Dev.reset.dur with
      ctxs := [(6, { address := 77, mbus := false, cls := 0, cal := 255 })]
      campaigns := [(2, openCampaign)], campMembers := [(1048576 * 2 + 6, { cause := Cc.removed })] } } }

/-- Refutes O21: REMOVE answers NOT_MEMBER for a record of cause REMOVED, whatever its state, and the statement asks only that the
record be not final. `dstRemove_removes` has the missing premise; the other clauses hold as they stand. -/
theorem not_campaignMembership : ¬ Obligations.CampaignMembership := by
  rintro ⟨-, -, -, hremove, -⟩
  have hrefused : Runs (.dstRemove 2 6) removedWaiting fun d => d.get F.DST_CMD_RESULT = Dr.notMember := ⟨_, rfl, rfl, by decide⟩
  have hremoved := hremove removedWaiting 2 6 openCampaign { address := 77, mbus := false, cls := 0, cal := 255 }
    { cause := Cc.removed } (by decide) (by decide) rfl (.inr (.inl rfl)) rfl rfl rfl rfl (by decide)
  obtain ⟨d, hnot, -, hok⟩ := hrefused.both hremoved
  cases hnot.symm.trans hok

end Sys2Proof.Machine

namespace Sys2Proof.Machine

set_option Elab.async false

/-! The hash's request in the arbiter (R203 to R206, R263). -/

theorem Engine.mem_of_bestParked {e : Engine} {r : ShReq} (h : e.bestParked = some r) : r ∈ e.parked := by
  have hbest : ∀ m, e.bestParked = some m → m ∈ e.parked := by
    unfold Engine.bestParked
    refine List.foldlRecOn e.parked _ (motive := fun m => ∀ q, m = some q → q ∈ e.parked) nofun fun m hm r hr q hq => ?_
    split at hq
    · split at hq
      · exact Option.some.inj hq ▸ hr
      · exact hm q hq
    · exact Option.some.inj hq ▸ hr
  exact hbest r h

/-- Operation `op` is under way, or is asked for by a parked request that shares its order number with no request for another. -/
def Engine.Asks (e : Engine) (op : ShOp) : Prop :=
  (∃ n h, Maps.get? n e.holders = some h ∧ h.op = op) ∨ ∃ r ∈ e.parked, r.op = op ∧ ∀ x ∈ e.parked, x.order = r.order → x.op = op

theorem Engine.Asks.has {d : Dev} {op : ShOp} (h : d.eng.Asks op) : d.shHas op = true := by
  rw [Dev.shHas, Bool.or_eq_true, List.any_eq_true, List.any_eq_true]
  obtain ⟨n, r, hr, hop⟩ | ⟨r, hr, hop, -⟩ := h
  · exact .inr ⟨(n, r), mem_of_get? hr, by simp [hop]⟩
  · exact .inl ⟨r, hr, by simp [hop]⟩

/-- A grant of an idle engine keeps an operation asked for: it is granted, or waits on (R204). -/
theorem Engine.Asks.grant {d : Dev} {op : ShOp} (h : d.eng.Asks op) {n : Nat} (hidle : d.eng.idleEngine = some n) {r : ShReq}
    (hr : r ∈ d.eng.parked) : (d.grant n r).eng.Asks op := by
  obtain ⟨k, q, hq, hop⟩ | ⟨q, hq, hop, hsame⟩ := h
  · have hk : k ≠ n := by
      rintro rfl
      have := List.find?_some hidle
      simp [Maps.has, hq] at this
    exact .inl ⟨k, q, (Maps.get?_put_other hk ..).trans hq, hop⟩
  · by_cases ho : r.order = q.order
    · exact .inl ⟨n, r, d.grant_holder n r, hsame r hr ho⟩
    · have hstays : q ∈ (d.grant n r).eng.parked := by
        rw [Dev.grant_parked]
        exact List.mem_filter.2 ⟨hq, by simpa using Ne.symm ho⟩
      exact .inr ⟨q, hstays, hop, fun x hx => hsame x (List.mem_filter.1 hx).1⟩

theorem Engine.Asks.grantIdle {op : ShOp} (k : Nat) : ∀ {d : Dev}, d.eng.Asks op → (Dev.grantIdle k d).eng.Asks op := by
  induction k with
  | zero => exact id
  | succ k ih =>
    intro d h
    unfold Dev.grantIdle
    split
    · next hidle hbest => exact ih (h.grant hidle (Engine.mem_of_bestParked hbest))
    · exact h

/-- A request is parked or granted where its port's queue has room, and where no parked request has its order number already (R206). -/
theorem Dev.shPost_has {d : Dev} {port : Nat} (hroom : d.shFull port = false)
    (horder : ∀ x ∈ d.eng.parked, x.order ≠ d.eng.shOrder) (op : ShOp) (blocks : Nat) : (d.shPost port op blocks).shHas op = true := by
  rw [Dev.shPost, if_neg (by simp [hroom])]
  extract_lets r
  generalize hd₁ : ({ d with eng := { d.eng with parked := d.eng.parked ++ [r], shOrder := d.eng.shOrder + 1 } } : Dev) = d₁
  have hparked : d₁.refreshUrgent.eng.parked = (d.eng.parked ++ [r]).map d₁.ranked := by
    rw [Dev.refreshUrgent_parked, ← hd₁]
  refine (Engine.Asks.grantIdle 8 (.inr ⟨d₁.ranked r, ?_, rfl, fun x hx ho => ?_⟩)).has
  · rw [hparked]
    exact List.mem_map_of_mem (by simp)
  · rw [hparked] at hx
    obtain ⟨y, hy, rfl⟩ := List.mem_map.1 hx
    rcases List.mem_append.1 hy with hy | hy
    · exact absurd ho (horder y hy)
    · rw [List.mem_singleton.1 hy]

/-- A request that the full queue returns is neither parked nor granted (R206). -/
theorem Dev.shPost_full {d : Dev} {port : Nat} (hfull : d.shFull port = true) (op op' : ShOp) (blocks : Nat) :
    (d.shPost port op blocks).shHas op' = d.shHas op' := by
  rw [Dev.shPost, if_pos hfull, Dev.shHas, Dev.raise_eng]
  rfl

theorem Dev.DurKept.shPost {d d' : Dev} (h : d.DurKept d') (port : Nat) (op : ShOp) (blocks : Nat) :
    d.DurKept (d'.shPost port op blocks) := by
  unfold Dev.shPost
  split
  · exact Dev.DurKept.raise (d' := d'.count R.CTX_CNT_n 11) h F.CTX_INT_STATUS_ARB_QUEUE_FULL port 0
  · exact h.edits (m := 0x800000800) (Dev.grantIdle_edits (h := Dev.refreshUrgent_edits (h := Edits.upd (h := .refl d'))))

/-! Loads (R263). -/

/-- Asking for an object's hash puts the load at step 2, or at step 1 where the queue is full. -/
theorem Dev.postLoad_loading {d : Dev} {slot : Nat} (horder : ∀ x ∈ d.eng.parked, x.order ≠ d.eng.shOrder)
    (hnew : d.shHas (.imageHash slot) = false) :
    Maps.get? slot (d.postLoad slot).dst.loading = some (if d.shFull 5 then 1 else 2) := by
  unfold Dev.postLoad
  extract_lets blocks d₁
  refine (Maps.get?_put_same ..).trans ?_
  cases hfull : d.shFull 5 with
  | true => rw [Dev.shPost_full hfull, hnew]; rfl
  | false => rw [Dev.shPost_has hfull horder]; rfl

/-- A campaign that no record holds is put into its slot, and shown and reported (R264). -/
theorem Dev.putCampaign_campaigns (d : Dev) (slot : Nat) (c : Campaign) :
    (d.putCampaign slot c).dur.campaigns = Maps.put d.dur.campaigns slot c := by
  unfold Dev.putCampaign
  extract_lets u d₁
  rw [((Dev.DurKept.refl d₁).campEntry ..).campaigns]
  exact ((Dev.DurKept.refl _).showCamp slot).campaigns

theorem Dev.loadFailed_campaigns (d : Dev) (slot : Nat) (c : Campaign) (cause : Nat) :
    (d.loadFailed slot c cause).dur.campaigns = Maps.put d.dur.campaigns slot { c with state := Cs.failed, cause := cause } := by
  unfold Dev.loadFailed
  extract_lets d₁
  rw [((Dev.DurKept.refl _).raise ..).campaigns, Dev.putCampaign_campaigns]

section
variable (s : State) (slot : Nat)

/-- R263: LOAD of an object whose hash's request gets an order number of its own. -/
theorem dstLoad_loads (object : Bytes) (hbusy : s.dev.flag F.DST_CMD_BUSY = false) (hserves : s.dev.standbyRefuses = false)
    (hunlocked : s.dev.keyLocked = false) (hempty : Maps.has s.dev.dur.campaigns (slot % 16) = false)
    (hcheck : s.dev.loadCheck (slot % 16) (s.dev.descriptor (slot % 16) (s.dev.get F.DST_HOST_LEN_LENGTH)) = none)
    (hnew : s.dev.shHas (.imageHash (slot % 16)) = false) (horder : ∀ x ∈ s.dev.eng.parked, x.order ≠ s.dev.eng.shOrder) :
    Runs (.dstLoad slot object) s fun d =>
      Maps.get? (slot % 16) d.dur.campaigns = some (s.dev.descriptor (slot % 16) (s.dev.get F.DST_HOST_LEN_LENGTH)) ∧
      Maps.get? (slot % 16) d.dst.loading = some (if s.dev.shFull 5 then 1 else 2) ∧ d.get F.DST_CMD_RESULT = 0 := by
  refine ⟨_, rfl, rfl, ?_⟩
  dsimp -zeta only
  rw [Dev.dstCmd_runs hbusy hserves]
  extract_lets j len c bytes x d₁
  rw [if_neg (by simp [hunlocked]), if_neg (by simp [j, hempty]), hcheck]
  dsimp only
  generalize hd₂ : d₁.putCampaign j c = d₂
  have heng : d₂.eng = s.dev.eng :=
    hd₂ ▸ (Dev.putCampaign_edits (m := 0x344040004c003) (h := .refl d₁)).eng.resolve_left (by decide)
  have hposted : d₂.DurKept (d₂.postLoad j) := (Dev.DurKept.refl d₂).shPost ..
  refine ⟨?_, ?_, Dev.finish_dst_result ..⟩
  · refine (congrArg _ (hposted.finish_dst 0 0).campaigns).trans ?_
    rw [← hd₂, Dev.putCampaign_campaigns]
    exact Maps.get?_put_same ..
  · refine (congrArg (Maps.get? j ·.loading) (Dev.raise_dst ..)).trans ?_
    have hfull : d₂.shFull 5 = s.dev.shFull 5 := by rw [Dev.shFull, heng]; rfl
    rw [← hfull]
    exact Dev.postLoad_loading (by rw [heng]; exact horder) (by rw [Dev.shHas, heng]; exact hnew)

/-- R264: LOAD of a campaign that is not EMPTY. -/
theorem dstLoad_badState (object : Bytes) (hbusy : s.dev.flag F.DST_CMD_BUSY = false) (hserves : s.dev.standbyRefuses = false)
    (hunlocked : s.dev.keyLocked = false) (hused : Maps.has s.dev.dur.campaigns (slot % 16) = true) :
    Runs (.dstLoad slot object) s fun d => d.dur.campaigns = s.dev.dur.campaigns ∧ d.get F.DST_CMD_RESULT = Dr.badState := by
  refine ⟨_, rfl, rfl, ?_⟩
  dsimp -zeta only
  rw [Dev.dstCmd_runs hbusy hserves]
  extract_lets j len c
  rw [if_neg (by simp [hunlocked]), if_pos hused]
  exact ⟨((Dev.DurKept.refl s.dev).finish_dst ..).campaigns, Dev.finish_dst_result ..⟩

/-- R263, step 2: the hash agrees, or the load fails. -/
theorem campaignLoadStepDone_hashes (ok : Bool) (c : Campaign) (hstep : Maps.get? slot s.dev.dst.loading = some 2)
    (hcamp : Maps.get? slot s.dev.dur.campaigns = some c) (hdone : s.dev.shHas (.imageHash slot) = false) :
    Runs (.campaignLoadStepDone slot ok) s fun d =>
      if (Crypto.sha256 (Maps.getD s.dev.dst.objects slot [])).toNat = c.hash then Maps.get? slot d.dst.loading = some 3
      else Maps.get? slot d.dur.campaigns = some { c with state := Cs.failed, cause := 1 } ∧ d.get F.DST_INT_STATUS_LOAD_FAILED = 1 := by
  refine Runs.of_eq (d := if (Crypto.sha256 (Maps.getD s.dev.dst.objects slot [])).toNat = c.hash then s.dev.loadStep slot 3
    else s.dev.loadFailed slot c 1) ⟨_, rfl, rfl, ?_⟩ ?_
  · dsimp only
    rw [hstep, hcamp]
    exact if_neg (by simp [hdone])
  · split
    · exact Maps.get?_put_same ..
    · rw [Dev.loadFailed_campaigns]
      exact ⟨Maps.get?_put_same .., Dev.raise_self ..⟩

/-- R263, step 3: the NAND copy, with no standby to wait for. -/
theorem campaignLoadStepDone_stores (c : Campaign) (hstep : Maps.get? slot s.dev.dst.loading = some 3)
    (hcamp : Maps.get? slot s.dev.dur.campaigns = some c) (hwritable : s.dev.media ≠ Media.readOnly)
    (hformatted : s.dev.media ≠ Media.unformatted) (hsynced : s.dev.standbySynced = false) :
    Runs (.campaignLoadStepDone slot true) s fun d => Maps.get? slot d.dst.loading = some 5 ∧
      Maps.get? slot d.nfm.objects = some (Maps.getD s.dev.dst.objects slot []) := by
  refine Runs.of_eq (d := Dev.loadStep { s.dev with nfm := { s.dev.nfm with
    objects := Maps.put s.dev.nfm.objects slot (Maps.getD s.dev.dst.objects slot []) } } slot 5) ⟨_, rfl, rfl, ?_⟩ ?_
  · dsimp only
    rw [hstep, hcamp]
    exact (if_neg (by simp [hwritable, hformatted])).trans (if_pos hsynced)
  · exact ⟨Maps.get?_put_same .., Maps.get?_put_same ..⟩

/-- R263, step 5: the campaign is ACTIVE, and goes on unless every member is final. -/
theorem campaignLoadStepDone_activates (ok : Bool) (c : Campaign) (hstep : Maps.get? slot s.dev.dst.loading = some 5)
    (hcamp : Maps.get? slot s.dev.dur.campaigns = some c)
    (hopen : s.dev.dur.members slot = [] ∨ ((s.dev.dur.members slot).any fun p => !p.2.final) = true) :
    Runs (.campaignLoadStepDone slot ok) s fun d => Maps.get? slot d.dur.campaigns = some { c with state := Cs.active } ∧
      Maps.get? slot d.dst.loading = none ∧ d.get F.DST_INT_STATUS_LOADED = 1 := by
  generalize hd₁ : ({ s.dev with dst := { s.dev.dst with loading := Maps.del slot s.dev.dst.loading } } : Dev) = d₁
  generalize hd₂ : d₁.setCampaign slot { c with state := Cs.active } = d₂
  have hraised : d₂.DurKept (d₂.raise F.DST_INT_STATUS_LOADED slot) := (Dev.DurKept.refl d₂).raise ..
  have hmembers : (d₂.raise F.DST_INT_STATUS_LOADED slot).dur.members slot = s.dev.dur.members slot := by
    rw [Dur.members, hraised.campMembers, ← hd₂, Dev.setCampaign_campMembers, ← hd₁]
    rfl
  refine Runs.of_eq (d := d₂.raise F.DST_INT_STATUS_LOADED slot) ⟨_, rfl, rfl, ?_⟩ ⟨?_, ?_, Dev.raise_self ..⟩
  · dsimp only
    rw [hstep, hcamp]
    show Dev.campEnd (Dev.raise (Dev.setCampaign _ slot _) F.DST_INT_STATUS_LOADED slot) slot = _
    rw [hd₁, hd₂]
    exact Dev.campEnd_of_open (by rw [hmembers]; exact hopen)
  · rw [hraised.campaigns, ← hd₂, Dev.setCampaign_campaigns]
    exact Maps.get?_put_same ..
  · rw [Dev.raise_dst, ← hd₂, (Dev.setCampaign_edits (m := 0x344040004c003) (h := .refl d₁)).dst.resolve_left (by decide), ← hd₁]
    exact Maps.get?_del_same ..

end

/-- An arbiter where a parked request already has the order number that the next request gets. -/
def staleArbiter : State :=
  { dev := { Dev.reset.set F.DST_HOST_LEN_LENGTH 3 with
      eng := { parked := [{ port := 1, urgent := false, order := 0, op := .keyMgmt, done := 0, total := 0 }] } } }

/-- Refutes O20: nothing in it keeps the order number of the hash's request apart from those of the requests parked before it. Here
the request that shares it is granted first and takes both from the queue, so that no hash is under way and the load stays at step 1
with room in the queue. `dstLoad_loads` has the missing premise; the other clauses hold as they stand. -/
theorem not_campaignLoading : ¬ Obligations.CampaignLoading := by
  rintro ⟨hload, -⟩
  have hlost : Runs (.dstLoad 2 []) staleArbiter fun d => Maps.get? 2 d.dst.loading = some 1 := ⟨_, rfl, rfl, by decide⟩
  have hhashing := hload staleArbiter 2 [] (by decide) (by decide) (by decide) rfl (by decide) rfl
  obtain ⟨d, hone, -, htwo, -⟩ := hlost.both hhashing
  cases hone.symm.trans htwo

end Sys2Proof.Machine

namespace Sys2Proof.Machine

set_option Elab.async false

/-! A KEY command starts and ends (R293, R310, R317). -/

theorem Runs.imp {c : Instr} {s : State} {P Q : Dev → Prop} (h : Runs c s P) (hPQ : ∀ d, P d → Q d) : Runs c s Q := by
  obtain ⟨t, hexec, hpending, ht⟩ := h
  exact ⟨t, hexec, hpending, hPQ t.dev ht⟩

/-- A KEY command is carried out on a device that is not busy, in no locked state, and not refused by a standby. -/
theorem runs_keyCmd {c : Instr} {s : State} {whenLocked onStandby : Bool} {f : Dev → Dev} {P : Dev → Prop}
    (e : exec c s = s.on fun d => d.keyCmd whenLocked onStandby f) (hbusy : s.dev.flag F.KEY_CMD_BUSY = false)
    (hlocked : s.dev.keyLocked = false) (hserves : s.dev.standbyRefuses = false) (h : P (f s.dev)) : Runs c s P := by
  refine runs_of_on ?_ e
  rwa [Dev.keyCmd, if_neg (by simp [hbusy]), if_neg (by simp [hlocked]), if_neg (by simp [hserves])]

/-- A root command finds a session with its transport key. -/
theorem runs_rootCmd {c : Instr} {s : State} {f : Nat → Dev → Dev} {P : Dev → Prop} {t : Nat}
    (e : exec c s = s.on fun d => d.rootCmd f) (hbusy : s.dev.flag F.KEY_CMD_BUSY = false) (hlocked : s.dev.keyLocked = false)
    (hserves : s.dev.standbyRefuses = false) (hsession : s.dev.key.session.bind (·.transport) = some t) (h : P (f t s.dev)) :
    Runs c s P := by
  refine runs_keyCmd e hbusy hlocked hserves ?_
  rwa [hsession]

/-- A KEY command has ended with a result: it is no longer busy, and CMD_DONE is set. -/
structure Dev.KeyAnswered (d : Dev) (result : Nat) : Prop where
  busy : d.get F.KEY_CMD_BUSY = 0
  result : d.get F.KEY_CMD_RESULT = result
  done : d.get F.KEY_INT_STATUS_CMD_DONE = 1

theorem Dev.keyDone_answered {code : Nat} (h : code < 32) (d : Dev) : (d.keyDone code).KeyAnswered code := by
  refine ⟨?_, ?_, Dev.raise_self ..⟩
  · rw [Dev.keyDone, Dev.get_raise_of_clear (by decide)]
    exact Dev.get_set_same _ F.KEY_CMD_BUSY 0
  · rw [Dev.keyDone, Dev.get_raise_of_clear (by decide), Dev.get_set_clear (by decide), Dev.get_set_same _ F.KEY_CMD_RESULT]
    exact Nat.mod_eq_of_lt h

/-- A field that the end of a KEY command does not touch. -/
noncomputable def answerKept (y : Fld) : Bool :=
  decide (F.KEY_CMD_RESULT.Clear y ∧ F.KEY_CMD_BUSY.Clear y ∧ F.KEY_INT_STATUS_CMD_DONE.Clear y) &&
    (decide (y.off < 4194304) && !Nat.testBit 0x340040004c003 (regBit y.off))

/-- The end of a command shows in KEY_CMD and CMD_DONE alone. -/
theorem Dev.get_keyDone {y : Fld} (d : Dev) (code : Nat) (hy : answerKept y = true) : (d.keyDone code).get y = d.get y := by
  simp only [answerKept, Bool.and_eq_true, decide_eq_true_eq, Bool.not_eq_true'] at hy
  obtain ⟨⟨hresult, hbusy, hdone⟩, ho, hq⟩ := hy
  rw [Dev.keyDone, Dev.get_raise_of_clear hdone _ _ _ ho hq, Dev.get_set_clear hbusy, Dev.get_set_clear hresult]

@[simp] theorem Dev.keyDone_key (d : Dev) (code : Nat) : (d.keyDone code).key = d.key := Dev.raise_key ..
@[simp] theorem Dev.keyDone_clo (d : Dev) (code : Nat) : (d.keyDone code).clo = d.clo := Dev.raise_clo ..
@[simp] theorem Dev.keyDone_eng (d : Dev) (code : Nat) : (d.keyDone code).eng = d.eng := Dev.raise_eng ..

theorem Dev.DurKept.keyDone {d d' : Dev} (h : d.DurKept d') (code : Nat) : d.DurKept (d'.keyDone code) :=
  Dev.DurKept.raise (d' := (d'.set F.KEY_CMD_RESULT code).set F.KEY_CMD_BUSY 0) h F.KEY_INT_STATUS_CMD_DONE code 0

/-- What does not depend on the event numbers reserved reads as before. -/
theorem Dev.DurKept.read {d d' : Dev} (h : d.DurKept d') {β : Type} (f : Dur → β)
    (hf : ∀ u n, f { u with evReserved := n } = f u) : f d'.dur = f d.dur := by
  obtain ⟨n, e⟩ := h
  rw [e, hf]

/-- A command has been refused: it ended with `code`, and nothing else of the KEY block, the Cloche and the durable state changed. -/
structure Dev.Refused (d d' : Dev) (code : Nat) : Prop where
  key : d'.key = d.key
  clo : d'.clo = d.clo
  dur : d.DurKept d'
  state : d'.get F.KEY_STATUS_STATE = d.get F.KEY_STATUS_STATE
  result : d'.get F.KEY_CMD_RESULT = code

/-- A command that only ends with a result refuses. -/
theorem runs_refused {c : Instr} {s : State} {code : Nat} (h : Runs c s (· = s.dev.keyDone code)) (hcode : code < 32) :
    Runs c s (s.dev.Refused · code) :=
  h.of_eq ⟨Dev.keyDone_key .., Dev.keyDone_clo .., (Dev.DurKept.refl _).keyDone code, Dev.get_keyDone _ _ rfl,
    (Dev.keyDone_answered hcode _).result⟩

/-! Provisioning sessions (R291 to R293). -/

/-- A session ends: PROV falls, and PROV_EXPIRED is set unless PROV_CLOSE ended it. -/
theorem Dev.endSession_ends {d : Dev} {p : ProvSession} (h : d.key.session = some p) (expired : Bool) :
    (d.endSession expired).key.session = none ∧ (d.endSession expired).get F.KEY_STATUS_PROV = 0 ∧
      (d.endSession expired).get F.KEY_INT_STATUS_PROV_EXPIRED = if expired then 1 else d.get F.KEY_INT_STATUS_PROV_EXPIRED := by
  rw [Dev.endSession, h]
  dsimp -zeta only
  extract_lets d₁
  cases expired with
  | false =>
    rw [if_neg (by simp), if_neg (by simp)]
    exact ⟨rfl, Dev.get_set_same _ F.KEY_STATUS_PROV 0, Dev.get_set_other (by decide) _ _⟩
  | true =>
    rw [if_pos rfl, if_pos rfl]
    refine ⟨congrArg KeyBlk.session (Dev.raise_key ..), ?_, Dev.raise_self _ F.KEY_INT_STATUS_PROV_EXPIRED _ _⟩
    exact (Dev.get_raise_of_clear (by decide) ..).trans (Dev.get_set_same _ F.KEY_STATUS_PROV 0)

/-- After it no session is open. -/
theorem Dev.endSession_session (d : Dev) (expired : Bool) : (d.endSession expired).key.session = none := by
  cases h : d.key.session with
  | none => rw [Dev.endSession, h]; exact h
  | some p => exact (Dev.endSession_ends h expired).1

/-- The DRBG's own bit of KEY_STATUS stays. -/
theorem Dev.endSession_drbgRuns (d : Dev) : (d.endSession true).drbgRuns = d.drbgRuns := by
  refine congrArg (fun v => decide (v ≠ 0)) (?_ : (d.endSession true).get F.KEY_STATUS_DRBG_RUN = d.get F.KEY_STATUS_DRBG_RUN)
  unfold Dev.endSession
  split
  · rfl
  · exact (Dev.get_raise_of_clear (by decide) ..).trans (Dev.get_set_clear (by decide) _ _)

/-- A request to the arbiter leaves the KEY block's state. -/
@[simp] theorem Dev.shPost_key (d : Dev) (port : Nat) (op : ShOp) (blocks : Nat) : (d.shPost port op blocks).key = d.key :=
  (Dev.shPost_edits (m := 0x3400c0004c803) (h := .refl d)).key.resolve_left (by decide)

/-- A session that has just begun, its request made and its bytes out. -/
theorem Dev.session_begun {d d' : Dev} {p : ProvSession} {o : Out}
    (h : d' = ((({ d with key := { d.key with session := some p } }.set F.KEY_STATUS_PROV 1).shPost 4 .keyMgmt 0).emit o).keyDone Kr.ok)
    (hfirst : p.transport = none) :
    d'.key.session.isSome = true ∧ d'.key.session.bind (·.transport) = none ∧ d'.get F.KEY_STATUS_PROV = 1 ∧
      d'.get F.KEY_CMD_RESULT = 0 ∧ d'.get F.KEY_INT_STATUS_CMD_DONE = 1 := by
  subst h
  have hsession := congrArg KeyBlk.session ((Dev.keyDone_key _ Kr.ok).trans ((Dev.emit_key _ o).trans (Dev.shPost_key
    ({ d with key := { d.key with session := some p } }.set F.KEY_STATUS_PROV 1) 4 .keyMgmt 0)))
  have hanswered := Dev.keyDone_answered (code := Kr.ok) (by decide)
  refine ⟨congrArg Option.isSome hsession, (congrArg (fun x : Option ProvSession => x.bind (·.transport)) hsession).trans hfirst, ?_,
    (hanswered _).result, (hanswered _).done⟩
  exact (Dev.get_keyDone _ _ rfl).trans (((Dev.shPost_edits (m := 0x3400c0004c803) (h := .refl _)).get F.KEY_STATUS_PROV).trans
    (Dev.get_set_same _ F.KEY_STATUS_PROV 1))

/-- A peer block in a session without its transport key: where it is good the key is agreed, and otherwise the session ends. -/
theorem Dev.peer_agreesOrEnds {d d' : Dev} {p q : ProvSession} {good : Bool} (hsession : d.key.session = some p)
    (hkey : q.transport.isSome = true) (h : d' = if good = true then
      { d with key := { d.key with session := some q } }.keyDone Kr.ok else (d.endSession true).keyDone Kr.badPeer) :
    good = true ∧ (d'.key.session.bind (·.transport)).isSome = true ∧ d'.get F.KEY_CMD_RESULT = Kr.ok ∨
      d'.key.session = none ∧ d'.get F.KEY_INT_STATUS_PROV_EXPIRED = 1 ∧ d'.get F.KEY_CMD_RESULT = Kr.badPeer := by
  subst h
  cases good with
  | true =>
    exact .inl ⟨rfl, (congrArg (fun k => (k.session.bind (·.transport)).isSome) (Dev.keyDone_key ..)).trans hkey,
      (Dev.keyDone_answered (by decide) _).result⟩
  | false =>
    obtain ⟨hnone, -, hexpired⟩ := Dev.endSession_ends hsession true
    exact .inr ⟨(congrArg KeyBlk.session (Dev.keyDone_key ..)).trans hnone, (Dev.get_keyDone _ _ rfl).trans hexpired,
      (Dev.keyDone_answered (by decide) _).result⟩

section
variable (s : State) (p : ProvSession) (peer : Bytes) (hbusy : s.dev.flag F.KEY_CMD_BUSY = false) (hlocked : s.dev.keyLocked = false)
  (hserves : s.dev.standbyRefuses = false)
include hbusy hlocked hserves

theorem provOpen_opens (hdrbg : s.dev.drbgRuns = true) : Runs .provOpen s fun d => d.key.session.isSome = true ∧
    d.key.session.bind (·.transport) = none ∧ d.get F.KEY_STATUS_PROV = 1 ∧ d.get F.KEY_CMD_RESULT = 0 ∧
    d.get F.KEY_INT_STATUS_CMD_DONE = 1 := by
  refine Runs.of_eq (d := ?next) (runs_keyCmd rfl hbusy hlocked hserves ?runs) ?holds
  case runs => exact if_neg (ne_false_of_eq_true (s.dev.endSession_drbgRuns.trans hdrbg))
  case holds =>
    refine Dev.session_begun (d := ?before) (p := ?session) (o := ?bytes) ?begun ?first
    case begun => with_reducible rfl
    case first => rfl

theorem provOpen_entropy (hdrbg : s.dev.drbgRuns = false) : Runs .provOpen s fun d => d.key.session = none ∧
    d.get F.KEY_CMD_RESULT = Kr.entropy := by
  refine Runs.of_eq (d := ?next) (runs_keyCmd rfl hbusy hlocked hserves ?runs) ?holds
  case runs => exact if_pos (s.dev.endSession_drbgRuns.trans hdrbg)
  case holds =>
    exact ⟨(congrArg KeyBlk.session (Dev.keyDone_key ..)).trans (s.dev.endSession_session true),
      (Dev.keyDone_answered (by decide) _).result⟩

theorem provPeer_noSession (hsession : s.dev.key.session = none) : Runs (.provPeer []) s fun d => d.key.session = none ∧
    d.get F.KEY_CMD_RESULT = Kr.noSession := by
  refine (runs_refused (code := Kr.noSession) (runs_keyCmd rfl hbusy hlocked hserves ?_) (by decide)).imp fun d h =>
    ⟨(congrArg KeyBlk.session h.key).trans hsession, h.result⟩
  rw [hsession]

/-- PROV_PEER of a session that has no transport key yet: the nonce comes back and the key is agreed, or the session ends. -/
theorem provPeer_agreesOrEnds (hsession : s.dev.key.session = some p) (hfirst : p.transport = none) : Runs (.provPeer peer) s fun d =>
    peer.be 4 16 = p.nonce ∧ (d.key.session.bind (·.transport)).isSome = true ∧ d.get F.KEY_CMD_RESULT = Kr.ok ∨
    d.key.session = none ∧ d.get F.KEY_INT_STATUS_PROV_EXPIRED = 1 ∧ d.get F.KEY_CMD_RESULT = Kr.badPeer := by
  refine runs_keyCmd rfl hbusy hlocked hserves ?_
  rw [hsession]
  refine (Dev.peer_agreesOrEnds (d := s.dev.shPost 4 .keyMgmt 0) (q := ?session) (good := ?good)
    ((congrArg KeyBlk.session (Dev.shPost_key ..)).trans hsession) ?key ?answer).imp_left fun h => ⟨?_, h.2⟩
  case answer => exact if_neg (ne_true_of_eq_false (congrArg Option.isSome hfirst))
  case key => rfl
  obtain ⟨hgood, -⟩ := h
  simp only [Bool.and_eq_true, beq_iff_eq] at hgood
  obtain ⟨⟨⟨-, hnonce⟩, -⟩, -⟩ := hgood
  exact hnonce

theorem provClose_closes (hsession : s.dev.key.session = some p) : Runs .provClose s fun d => d.key.session = none ∧
    d.get F.KEY_STATUS_PROV = 0 ∧ d.get F.KEY_CMD_RESULT = 0 ∧
    d.get F.KEY_INT_STATUS_PROV_EXPIRED = s.dev.get F.KEY_INT_STATUS_PROV_EXPIRED := by
  obtain ⟨hnone, hprov, hexpired⟩ := Dev.endSession_ends hsession false
  refine Runs.of_eq (d := ?next) (runs_keyCmd rfl hbusy hlocked hserves ?runs) ?holds
  case runs =>
    refine if_neg ?_
    simp [hsession]
  case holds =>
    exact ⟨(congrArg KeyBlk.session (Dev.keyDone_key ..)).trans hnone, (Dev.get_keyDone _ _ rfl).trans hprov,
      (Dev.keyDone_answered (by decide) _).result, (Dev.get_keyDone _ _ rfl).trans hexpired⟩

end

theorem provSessionExpire_ends (s : State) (p : ProvSession) (hsession : s.dev.key.session = some p) (hgen : s.dev.key.generating = none)
    (hlong : p.openedAt + sessionCycles < s.dev.cycles) : Runs .provSessionExpire s fun d => d.key.session = none ∧
    d.get F.KEY_STATUS_PROV = 0 ∧ d.get F.KEY_INT_STATUS_PROV_EXPIRED = 1 := by
  refine ⟨_, rfl, rfl, ?_⟩
  dsimp -zeta only
  rw [hsession]
  dsimp only
  rw [if_neg (by simp [hgen, hlong])]
  exact Dev.endSession_ends hsession true

/-- Settles O32: the lemmas above, one for each clause. -/
theorem provisioning : Obligations.Provisioning := by
  refine ⟨fun s => provOpen_opens s, fun s => provOpen_entropy s, fun s => provPeer_noSession s, ?_, ?_,
    fun s p => provClose_closes s p, provSessionExpire_ends⟩
  · intro s peer p hbusy hlocked hserves hsession hfirst
    refine (provPeer_agreesOrEnds s p peer hbusy hlocked hserves hsession hfirst).imp fun d h => ?_
    obtain ⟨-, hkey, hok⟩ | ⟨hnone, hexpired, hbad⟩ := h
    · exact ⟨by rw [if_pos hkey, hok], fun h => absurd (hok.symm.trans h) (by decide)⟩
    · exact ⟨by rw [hnone, hbad]; rfl, fun _ => ⟨hnone, hexpired⟩⟩
  · intro s p peer hbusy hlocked hserves hsession hfirst hother
    refine (provPeer_agreesOrEnds s p peer hbusy hlocked hserves hsession hfirst).imp fun d h => ?_
    obtain ⟨hsame, -⟩ | ⟨hnone, -, hbad⟩ := h
    · exact absurd hsame hother
    · exact ⟨hnone, hbad⟩

end Sys2Proof.Machine

namespace Sys2Proof.Machine

set_option Elab.async false

/-! A broadcast roll is set for its instant, and comes (R308). -/

/-- The marker of a time event leaves the broadcast generations. -/
theorem Dev.journal_time_bcast (d : Dev) (kind inst at_ ns : Nat) : (d.journal (.time kind inst at_ ns)).dur.bcast = d.dur.bcast := by
  rw [Dev.journal_dur, Dur.control]
  split <;> rfl

/-- The time events that go before something are no rolls. -/
theorem Dev.markBefore_bcast (d : Dev) (t k : Nat) : (d.markBefore t k).dur.bcast = d.dur.bcast := by
  unfold Dev.markBefore
  split
  · exact Dev.foldl_keeps (fun d => d.dur.bcast) (fun d x => d.journal_time_bcast ..) _ d
  · rfl

/-- What is left once the time event of a roll is journaled: the generation, and the word to the host. -/
theorem Dev.generation_steps (d : Dev) (t slot : Nat) {d' : Dev}
    (h : d' = (d.journal (.bcastGen t ((d.bcastGen t + 1) % 65536) slot)).raise F.KEY_INT_STATUS_BCAST_ROLLED t) :
    Maps.getD d'.dur.bcast t (0, 0) = ((d.bcastGen t + 1) % 65536, slot) ∧ d'.key = d.key ∧
      d'.get F.KEY_INT_STATUS_BCAST_ROLLED = 1 := by
  subst h
  refine ⟨?_, (Dev.raise_key ..).trans (Dev.journal_key ..), Dev.raise_self ..⟩
  have hdur : Dev.DurKept (d.journal (.bcastGen t ((d.bcastGen t + 1) % 65536) slot)) _ := Dev.raise_dur _ F.KEY_INT_STATUS_BCAST_ROLLED t 0
  refine (hdur.read (fun u => Maps.getD u.bcast t (0, 0)) fun _ _ => rfl).trans ?_
  rw [Dev.journal_dur]
  exact Maps.getD_put_same ..

/-- A roll whose instant is reached: the target's generation is one more, under the slot the roll was set with, and no roll of it is
left. -/
theorem Dev.rollNow_rolls {d : Dev} {t : Nat} {r : Nat × Nat × Nat} (hfind : d.key.rolls.find? (·.1 == t) = some r)
    (hreached : r.2.1 ≤ d.tsu.sec) :
    Maps.getD (d.rollNow t).dur.bcast t (0, 0) = ((d.bcastGen t + 1) % 65536, r.2.2) ∧
      (d.rollNow t).key.rolls.any (·.1 == t) = false ∧ (d.rollNow t).get F.KEY_INT_STATUS_BCAST_ROLLED = 1 := by
  let d₁ : Dev := { d with key := { d.key with rolls := d.key.rolls.filter (·.1 ≠ t) } }
  obtain ⟨hgen, hkey, hrolled⟩ := (d₁.journal (.time 5 0 r.2.1 0)).generation_steps t r.2.2 (d' := d.rollNow t) (by
    rw [Dev.rollNow, hfind]
    exact if_neg (Nat.not_lt.2 hreached))
  have hsame : (d₁.journal (.time 5 0 r.2.1 0)).bcastGen t = d.bcastGen t :=
    congrArg (fun l => (Maps.getD l t (0, 0)).1) (d₁.journal_time_bcast 5 0 r.2.1 0)
  refine ⟨by rw [hgen, hsame], ?_, hrolled⟩
  rw [hkey, Dev.journal_key]
  exact List.any_eq_false.2 fun r hr => by simpa using (List.mem_filter.1 hr).2

theorem bcastRollInstant_rolls (s : State) (t : Nat) (r : Nat × Nat × Nat) (hfind : s.dev.key.rolls.find? (·.1 == t) = some r)
    (hreached : r.2.1 ≤ s.dev.tsu.sec) (hunarmed : s.dev.armedBefore r.2.1 5 = []) : Runs (.bcastRollInstant t) s fun d =>
    Maps.getD d.dur.bcast t (0, 0) = ((s.dev.bcastGen t + 1) % 65536, r.2.2) ∧ d.key.rolls.any (·.1 == t) = false ∧
    d.get F.KEY_INT_STATUS_BCAST_ROLLED = 1 := by
  have hkept := Dev.markBefore_edits (m := 0x140000004c002) (x1 := r.2.1) (x2 := 5) (h := .refl s.dev)
  have hgen : (s.dev.markBefore r.2.1 5).bcastGen t = s.dev.bcastGen t :=
    congrArg (fun l => (Maps.getD l t (0, 0)).1) (s.dev.markBefore_bcast r.2.1 5)
  have hrolls := Dev.rollNow_rolls (d := s.dev.markBefore r.2.1 5)
    ((congrArg (fun k : KeyBlk => k.rolls.find? (·.1 == t)) (hkept.key.resolve_left (by decide))).trans hfind)
    (hreached.trans_eq (congrArg Tsu.sec (hkept.tsu.resolve_left (by decide))).symm)
  rw [hgen] at hrolls
  refine Runs.of_eq ⟨_, rfl, rfl, ?_⟩ hrolls
  dsimp -zeta only
  rw [hfind]
  exact (if_neg (Nat.not_lt.2 hreached)).trans (congrArg (Dev.rollNow · t) (Dev.eventsUpTo_of_unarmed hunarmed))

theorem bcastRollInstant_early (s : State) (t : Nat) (r : Nat × Nat × Nat) (hfind : s.dev.key.rolls.find? (·.1 == t) = some r)
    (hearly : s.dev.tsu.sec < r.2.1) : Runs (.bcastRollInstant t) s fun d => d = s.dev := by
  refine ⟨_, rfl, rfl, ?_⟩
  dsimp -zeta only
  rw [hfind]
  exact if_pos hearly

section
variable (s : State) (hbusy : s.dev.flag F.KEY_CMD_BUSY = false) (hlocked : s.dev.keyLocked = false)
  (hserves : s.dev.standbyRefuses = false)
include hbusy hlocked hserves

theorem bcastRoll_sets (t : Nat) (hkind : (s.dev.workKey Kind.broadcast (s.dev.get F.KEY_BCAST_SLOT)).isSome = true)
    (hahead : s.dev.tsu.sec ≤ s.dev.wide R.KEY_BCAST_AT_LO R.KEY_BCAST_AT_HI 0) (ht : t < 4108) : Runs (.bcastRoll t) s fun d =>
    (t, s.dev.wide R.KEY_BCAST_AT_LO R.KEY_BCAST_AT_HI 0, s.dev.get F.KEY_BCAST_SLOT) ∈ d.key.rolls ∧ d.get F.KEY_CMD_RESULT = 0 := by
  apply Runs.of_eq
  · refine runs_keyCmd rfl hbusy hlocked hserves ?_
    exact (if_neg (ne_true_of_eq_false (Option.isNone_eq_false_iff.2 hkind))).trans (if_neg (Nat.not_lt.2 hahead))
  · refine ⟨?_, (Dev.keyDone_answered (by decide) _).result⟩
    have htargets : s.dev.rollTargets t = [t] := (if_neg (Nat.ne_of_lt (ht.trans (by decide)))).trans (if_pos ht)
    rw [Dev.keyDone_key]
    refine List.mem_append_right _ (List.mem_map.2 ⟨t, (congrArg (t ∈ ·) htargets).mpr (List.mem_singleton.2 rfl), ?_⟩)
    refine congrArg (fun slot => (t, _, slot)) (Edits.get (m := 0x140000004c002) ?_ F.KEY_BCAST_SLOT)
    refine Edits.foldl _ (fun d p h => ?_) _ (.refl s.dev)
    dsimp only
    split
    · exact Dev.journal_edits (h := h)
    · exact h

theorem bcastRoll_past (t : Nat) (hkind : (s.dev.workKey Kind.broadcast (s.dev.get F.KEY_BCAST_SLOT)).isSome = true)
    (hpast : s.dev.wide R.KEY_BCAST_AT_LO R.KEY_BCAST_AT_HI 0 < s.dev.tsu.sec) : Runs (.bcastRoll t) s fun d =>
    d.key.rolls = s.dev.key.rolls ∧ d.get F.KEY_CMD_RESULT = Kr.instantPast := by
  refine (runs_refused (code := Kr.instantPast) (runs_keyCmd rfl hbusy hlocked hserves ?_) (by decide)).imp fun d h =>
    ⟨congrArg KeyBlk.rolls h.key, h.result⟩
  exact (if_neg (ne_true_of_eq_false (Option.isNone_eq_false_iff.2 hkind))).trans (if_pos hpast)

/-! The certificate goes out (R314). -/

theorem exportCert_exports (w : WorkKey) (hkind : s.dev.workKey Kind.sign (s.dev.get F.ING_RECORD_SIGN_SLOT) = some w) :
    Runs .exportCert s fun d => d.get F.KEY_CMD_RESULT = 0 ∧ d.get F.KEY_INT_STATUS_CMD_DONE = 1 := by
  refine runs_keyCmd rfl hbusy hlocked hserves ?_
  extract_lets slot
  rw [hkind]
  have hanswered (d : Dev) := Dev.keyDone_answered (code := Kr.ok) (by decide) d
  exact ⟨(hanswered _).result, (hanswered _).done⟩

theorem exportCert_wrongKind (hkind : s.dev.workKey Kind.sign (s.dev.get F.ING_RECORD_SIGN_SLOT) = none) :
    Runs .exportCert s fun d => d.key = s.dev.key ∧ d.get F.KEY_CMD_RESULT = Kr.wrongKind := by
  refine (runs_refused (code := Kr.wrongKind) (runs_keyCmd rfl hbusy hlocked hserves ?_) (by decide)).imp fun d h => ⟨h.key, h.result⟩
  extract_lets slot
  rw [hkind]

end

/-! Masks change under their roots, and the DRBG stops (R288, R313). -/

/-- One slot of the vault under a new mask. -/
noncomputable def Dev.remask (d : Dev) (p : Nat × Masked) : Dev :=
  match (if d.clo.onBattery then d.fresh 128 else d.drbg 128) with
  | (m, d) => { d with clo := { d.clo with vault := Maps.put d.clo.vault p.1 ⟨(p.2.stored ^^^ p.2.mask) ^^^ m.toNat, m.toNat⟩ } }

theorem Dev.remask_clo (d : Dev) (p : Nat × Masked) :
    ∃ m, (d.remask p).clo = { d.clo with vault := Maps.put d.clo.vault p.1 ⟨(p.2.stored ^^^ p.2.mask) ^^^ m, m⟩ } := by
  unfold Dev.remask
  cases d.clo.onBattery <;> exact ⟨_, rfl⟩

theorem Dev.remask_face (d : Dev) (p : Nat × Masked) : (d.remask p).face = d.face := by
  unfold Dev.remask
  cases d.clo.onBattery <;> rfl

/-- What rises from `lo` on has its first key there, and the others behind it. -/
theorem risingFrom_cons {α : Type} {m : List (Nat × α)} {lo : Nat} {p : Nat × α} (h : Maps.risingFrom lo (p :: m) = true) :
    lo ≤ p.1 ∧ Maps.risingFrom (p.1 + 1) m = true :=
  (Bool.and_eq_true_iff.1 h).imp_left of_decide_eq_true

/-- A key that rises from `lo` on has its value, and is at least `lo`. -/
theorem get?_of_mem_risingFrom {α : Type} {m : List (Nat × α)} {lo : Nat} (hrising : Maps.risingFrom lo m = true) {p : Nat × α}
    (hp : p ∈ m) : lo ≤ p.1 ∧ Maps.get? p.1 m = some p.2 := by
  induction m generalizing lo with
  | nil => cases hp
  | cons q m ih =>
    obtain ⟨hlo, hrest⟩ := risingFrom_cons hrising
    rcases List.mem_cons.1 hp with rfl | hp
    · exact ⟨hlo, if_pos rfl⟩
    · obtain ⟨habove, hheld⟩ := ih hrest hp
      exact ⟨hlo.trans (Nat.le_of_succ_le habove), (if_neg (Nat.ne_of_lt habove)).trans hheld⟩

/-- A slot's root is as before under the new mask. -/
theorem Dev.remask_root {d : Dev} {p : Nat × Masked} (hp : Maps.get? p.1 d.clo.vault = some p.2) (slot : Nat) :
    (d.remask p).root? slot = d.root? slot := by
  obtain ⟨m, e⟩ := d.remask_clo p
  rw [Dev.root?, e, Dev.root?]
  by_cases h : slot = p.1
  · rw [h, hp, Maps.get?_put_same]
    simp [Nat.xor_assoc]
  · rw [Maps.get?_put_other h]

/-- So is every root after a pass over distinct slots of the vault. -/
theorem Dev.foldl_remask_root (slot : Nat) (l : List (Nat × Masked)) {lo : Nat} (hrising : Maps.risingFrom lo l = true) (d : Dev)
    (hheld : ∀ p ∈ l, Maps.get? p.1 d.clo.vault = some p.2) : (l.foldl Dev.remask d).root? slot = d.root? slot := by
  induction l generalizing lo d with
  | nil => rfl
  | cons p l ih =>
    obtain ⟨-, hrest⟩ := risingFrom_cons hrising
    refine (ih hrest (d.remask p) fun q hq => ?_).trans (Dev.remask_root (hheld p List.mem_cons_self) slot)
    have habove := (get?_of_mem_risingFrom hrest hq).1
    obtain ⟨m, e⟩ := d.remask_clo p
    rw [e, Maps.get?_put_other (Nat.ne_of_gt habove)]
    exact hheld q (List.mem_cons_of_mem p hq)

theorem maskRefresh_keepsRoots (s : State) (slot : Nat) (hrising : Maps.rising s.dev.clo.vault = true) : Runs (.maskRefresh true) s fun d =>
    d.root? slot = s.dev.root? slot ∧ s.dev.counted d R.KEY_CNT_n 10 := by
  refine ⟨_, rfl, rfl, ?_⟩
  dsimp -zeta only
  extract_lets d₁ d₂
  rw [if_neg (by simp)]
  have hface : (s.dev.clo.vault.foldl Dev.remask s.dev).face = s.dev.face := Dev.foldl_keeps Dev.face Dev.remask_face _ _
  refine ⟨Dev.foldl_remask_root slot _ hrising s.dev fun p hp => (get?_of_mem_risingFrom hrising hp).2, ?_⟩
  have hcounted := (s.dev.clo.vault.foldl Dev.remask s.dev).count_counted R.KEY_CNT_n 10
  rw [Dev.counted, Dev.reg, Dev.reg, hface] at hcounted
  exact hcounted

theorem drbgStop_stops (s : State) : Runs .drbgStop s fun d =>
    if s.dev.key.sinceSeed < 2 ^ 32 then d = s.dev else d.get F.KEY_STATUS_DRBG_RUN = 0 := by
  refine ⟨_, rfl, rfl, ?_⟩
  dsimp only
  by_cases hfew : s.dev.key.sinceSeed < 2 ^ 32
  · rw [if_pos hfew, if_pos hfew]
  · rw [if_neg hfew, if_neg hfew]
    exact Dev.get_set_same _ F.KEY_STATUS_DRBG_RUN 0

end Sys2Proof.Machine

namespace Sys2Proof.Machine

set_option Elab.async false

/-! RESUME leaves a locked state once every root that was lost is back (R311). -/

/-- The records of a ring that are finished leave the pair as it was. -/
theorem Dev.ContextsKept.emitRing {d d' : Dev} (h : d.ContextsKept d') (n k : Nat) : d.ContextsKept (Dev.emitRing n k d') := by
  induction k generalizing d' with
  | zero => exact h
  | succ k ih =>
    rw [Dev.emitRing]
    split
    · exact h
    · split
      · exact h
      · split
        · exact h
        · split
          · exact h
          next d₁ hput =>
            extract_lets eng d₂ d₃
            refine ih (Dev.ContextsKept.drainCheck ?_ n)
            have h₂ : d₁.ContextsKept d₂ := ⟨rfl, fun _ _ => rfl, .refl _⟩
            have h₃ : d₂.ContextsKept d₃ := ⟨rfl, (Dev.PairKept.refl d₂).count _ _ (prlKept_at (RegD.at_block _ _) (by decide))⟩
            exact ((h.ringPut hput).trans h₂).trans h₃

/-- The end of a held cause leaves what says whether the pair is up. -/
theorem Dev.holdOver_up (d : Dev) (cause : Nat) : (d.holdOver cause).prl.up = d.prl.up := by
  unfold Dev.holdOver
  split
  · split
    · rfl
    · exact (Dev.condition_prl ..).up
  · rfl

/-- Before the pair is up the end of a cause shows in HLT_CONDITION and PRL_STATUS alone. -/
theorem Dev.causeOver_get_of_down {d : Dev} (hdown : d.prl.up = false) (cause : Nat) {x : Fld} (ho : x.off < 4194304)
    (hx : Nat.testBit 0x740048004c003 (regBit x.off) = false) : (d.causeOver cause).get x = d.get x := by
  unfold Dev.causeOver
  extract_lets prl d₁
  have hstill : d₁.prl.up = false := ((Dev.holdOver_up _ cause).trans (Dev.causeShown_prl _).up).trans hdown
  rw [if_pos hstill]
  have hedits : Edits 0x740048004c003 d d₁ :=
    Dev.holdOver_edits (h := Dev.causeShown_edits (h := Edits.upd (h := .refl d)))
  exact hedits.get x ho hx

theorem Dev.keyDone_prl (d : Dev) (code : Nat) : d.prl.SameBut (d.keyDone code).prl :=
  Dev.raise_prl ((d.set F.KEY_CMD_RESULT code).set F.KEY_CMD_BUSY 0) F.KEY_INT_STATUS_CMD_DONE code 0

/-- The records that waited unsigned go out again: this leaves the registers of the KEY block, and the pair. -/
theorem Dev.recordsOut_kept (rings : List Nat) (d : Dev) :
    Edits 0x340140004c803 d (rings.foldl (fun d n => d.emitRing n d.eng.records.length) d.reEmitUnsigned) ∧
      d.PairKept (rings.foldl (fun d n => d.emitRing n d.eng.records.length) d.reEmitUnsigned) := by
  refine ⟨Edits.foldl _ (fun d n h => Dev.emitRing_edits (h := h)) _ (Dev.reEmitUnsigned_edits (h := .refl d)), ?_⟩
  have hkept : d.ContextsKept d.reEmitUnsigned := (Dev.ContextsKept.refl d).edits (Dev.reEmitUnsigned_edits (m := 0x800) (h := .refl d))
  exact (hkept.foldl (fun x n => (Dev.ContextsKept.refl x).emitRing n _) _).pair

/-- Once the working keys are derived, the command has ended and the records are out, the device serves, its pair still down. -/
theorem Dev.resumed_get {d d₁ d₂ : Dev} (hderived : Edits 0x2000 (d.set F.KEY_STATUS_STATE 0) d₁)
    (hedits : Edits 0x340140004c803 ((d₁.set F.GLB_BOOT_STATE Boot.normal).keyDone Kr.ok) d₂)
    (hpair : ((d₁.set F.GLB_BOOT_STATE Boot.normal).keyDone Kr.ok).PairKept d₂) (hin : d.prl.outAtStart = false)
    (hdown : d.prl.up = false) : d₂.prl.outAtStart = false ∧ (d₂.causeOver 5).get F.KEY_STATUS_STATE = 0 ∧
      (d₂.causeOver 5).get F.KEY_CMD_RESULT = 0 ∧ (d₂.causeOver 5).get F.GLB_BOOT_STATE = Boot.normal := by
  have hprl : d₁.prl.SameBut d₂.prl := (Dev.keyDone_prl (d₁.set F.GLB_BOOT_STATE Boot.normal) Kr.ok).trans hpair.prl
  have hsame : d₁.prl = d.prl := hderived.prl.resolve_left (by decide)
  have hup : d₂.prl.up = false := hprl.up.trans ((congrArg Prl.up hsame).trans hdown)
  refine ⟨hprl.outAtStart.trans ((congrArg Prl.outAtStart hsame).trans hin),
    (Dev.causeOver_get_of_down hup 5 (by decide) (by decide)).trans ?_,
    (Dev.causeOver_get_of_down hup 5 (by decide) (by decide)).trans ?_,
    (Dev.causeOver_get_of_down hup 5 (by decide) (by decide)).trans ?_⟩
  · refine (hedits.get F.KEY_STATUS_STATE).trans ((Dev.get_keyDone _ _ rfl).trans ((Dev.get_set_other (by decide) _ _).trans ?_))
    exact (hderived.get F.KEY_STATUS_STATE).trans (Dev.get_set_same _ F.KEY_STATUS_STATE 0)
  · exact (hedits.get F.KEY_CMD_RESULT).trans (Dev.keyDone_answered (by decide) _).result
  · exact (hedits.get F.GLB_BOOT_STATE).trans ((Dev.get_keyDone _ _ rfl).trans (Dev.get_set_same _ F.GLB_BOOT_STATE Boot.normal))

/-- A KEY command that the locked states and a standby take. -/
theorem runs_keyCmd_whenLocked {c : Instr} {s : State} {f : Dev → Dev} {P : Dev → Prop} (hbusy : s.dev.flag F.KEY_CMD_BUSY = false)
    (h : P (f s.dev)) (e : exec c s = s.on fun d => d.keyCmd true true f) : Runs c s P := by
  refine runs_of_on ?_ e
  rwa [Dev.keyCmd, if_neg (by simp [hbusy]), if_neg (by simp), if_neg (by simp)]

section
variable (s : State) (hbusy : s.dev.flag F.KEY_CMD_BUSY = false)
include hbusy

theorem resume_latched (hlatched : s.dev.flag F.CLO_TAMPER_LATCH_SOURCE = true) : Runs .resume s fun d =>
    d.get F.KEY_CMD_RESULT = Kr.badState ∧ d.get F.KEY_STATUS_STATE = s.dev.get F.KEY_STATUS_STATE := by
  refine (runs_refused (code := Kr.badState) (runs_keyCmd_whenLocked hbusy ?_ rfl) (by decide)).imp fun d h => ⟨h.result, h.state⟩
  exact if_pos (.inl hlatched)

theorem resume_notComplete (p : Nat × SlotMeta) (hclear : s.dev.flag F.CLO_TAMPER_LATCH_SOURCE = false) (hlocked : s.dev.keyLocked = true)
    (hlost : p ∈ s.dev.key.lost) (hkind : (s.dev.slotMeta p.1).kind ≠ 0) (hnone : s.dev.root? p.1 = none) : Runs .resume s fun d =>
    d.get F.KEY_CMD_RESULT = Kr.notComplete ∧ d.get F.KEY_STATUS_STATE = s.dev.get F.KEY_STATUS_STATE := by
  have hgoes : ¬(s.dev.flag F.CLO_TAMPER_LATCH_SOURCE = true ∨ s.dev.keyLocked = false) := by simp [hclear, hlocked]
  refine (runs_refused (code := Kr.notComplete) (runs_keyCmd_whenLocked hbusy ?_ rfl) (by decide)).imp fun d h => ⟨h.result, h.state⟩
  exact (if_neg hgoes).trans (if_pos (List.all_eq_false.2 ⟨p, hlost, by simp [hkind, hnone]⟩))

theorem resume_resumes (hclear : s.dev.flag F.CLO_TAMPER_LATCH_SOURCE = false) (hlocked : s.dev.keyLocked = true)
    (hback : (s.dev.key.lost.all fun p => (s.dev.slotMeta p.1).kind == 0 ||
      ((s.dev.root? p.1).map fun r => kcvOf 16 r == p.2.kcv).getD false) = true)
    (hin : s.dev.prl.outAtStart = false) (hdown : s.dev.prl.up = false) : Runs .resume s fun d =>
    d.get F.KEY_STATUS_STATE = 0 ∧ d.get F.KEY_CMD_RESULT = 0 ∧ d.get F.GLB_BOOT_STATE = Boot.normal := by
  have hgoes : ¬(s.dev.flag F.CLO_TAMPER_LATCH_SOURCE = true ∨ s.dev.keyLocked = false) := by simp [hclear, hlocked]
  obtain ⟨hedits, hpair⟩ := Dev.recordsOut_kept (List.range 64)
    (((s.dev.set F.KEY_STATUS_STATE 0).deriveAll.set F.GLB_BOOT_STATE Boot.normal).keyDone Kr.ok)
  obtain ⟨hstart, hresumed⟩ := Dev.resumed_get (Dev.deriveAll_edits (h := .refl _)) hedits hpair hin hdown
  refine Runs.of_eq (runs_keyCmd_whenLocked hbusy ?_ rfl) hresumed
  exact (if_neg hgoes).trans ((if_neg (ne_false_of_eq_true hback)).trans (if_neg (ne_true_of_eq_false hstart)))

end

/-- Settles O35: the lemmas above, one for each clause. -/
theorem broadcastAndVault : Obligations.BroadcastAndVault :=
  ⟨fun s t hbusy hlocked hserves => bcastRoll_sets s hbusy hlocked hserves t,
    fun s t hbusy hlocked hserves => bcastRoll_past s hbusy hlocked hserves t,
    bcastRollInstant_rolls, bcastRollInstant_early,
    fun s w hbusy hlocked hserves => exportCert_exports s hbusy hlocked hserves w, exportCert_wrongKind,
    fun s slot _ => maskRefresh_keepsRoots s slot, drbgStop_stops,
    resume_resumes, fun s p hbusy => resume_notComplete s hbusy p, resume_latched⟩

end Sys2Proof.Machine

namespace Sys2Proof.Machine

set_option Elab.async false

/-! The candidate register and KEY_STATUS (R294). -/

/-- Each field shows what is left of it after those shown later. -/
theorem Dev.showCand_get (d : Dev) : d.showCand.get F.KEY_STATUS_CAND_VALID = b2n d.clo.candidate.isSome % 2 ∧
    d.showCand.get F.KEY_STATUS_CAND_VERIFIED = (d.clo.candidate.map fun x => b2n x.verified).getD 0 % 2 ∧
    d.showCand.get F.KEY_STATUS_CAND_SLOT = (d.clo.candidate.map (·.slot)).getD 0 % 32 ∧
    d.showCand.get F.KEY_STATUS_CAND_KIND = (d.clo.candidate.map (·.kind)).getD 0 % 16 := by
  have past {x y : Fld} {v : Nat} {e : Dev} {a : Nat} (hxy : x.Clear y) (h : e.get y = a) : (e.set x v).get y = a :=
    (Dev.get_set_clear hxy e v).trans h
  exact ⟨past (by decide) (past (by decide) (past (by decide) (Dev.get_set_same _ F.KEY_STATUS_CAND_VALID _))),
    past (by decide) (past (by decide) (Dev.get_set_same _ F.KEY_STATUS_CAND_VERIFIED _)),
    past (by decide) (Dev.get_set_same _ F.KEY_STATUS_CAND_SLOT _), Dev.get_set_same _ F.KEY_STATUS_CAND_KIND _⟩

/-- Without a candidate every field of it reads 0. -/
theorem Dev.showCand_none {d : Dev} (h : d.clo.candidate = none) : d.showCand.get F.KEY_STATUS_CAND_VALID = 0 ∧
    d.showCand.get F.KEY_STATUS_CAND_VERIFIED = 0 ∧ d.showCand.get F.KEY_STATUS_CAND_SLOT = 0 ∧
    d.showCand.get F.KEY_STATUS_CAND_KIND = 0 := by
  have hshown := d.showCand_get
  rwa [h] at hshown

/-- A candidate fills the register, verified as its pairwise test says, and so does the command's result. -/
theorem Dev.fillCandidate_fills (d : Dev) (slot kind root : Nat) {ok : Bool} (hok : (d.pairwise ⟨slot, kind, root, false⟩).1 = ok) :
    (d.fillCandidate slot kind root).clo.candidate = some ⟨slot, kind, root, ok⟩ ∧
      (d.fillCandidate slot kind root).get F.KEY_STATUS_CAND_VERIFIED = b2n ok ∧
      (d.fillCandidate slot kind root).get F.KEY_CMD_RESULT = if ok then Kr.ok else Kr.notVerified := by
  unfold Dev.fillCandidate
  generalize d.pairwise ⟨slot, kind, root, false⟩ = tested at hok
  obtain ⟨tested, d'⟩ := tested
  obtain rfl : tested = ok := hok
  refine ⟨congrArg Clo.candidate (Dev.keyDone_clo ..), ?_, (Dev.keyDone_answered (by cases tested <;> decide) _).result⟩
  exact ((Dev.get_keyDone _ _ rfl).trans (Dev.showCand_get _).2.1).trans (by cases tested <;> rfl)

/-- A generated root is a SIGN candidate. -/
theorem Dev.generateRoot_fills (d : Dev) (slot : Nat) :
    (d.generateRoot slot).clo.candidate.map (fun c => (c.slot, c.kind)) = some (slot, Kind.sign) ∧
    ∀ c, (d.generateRoot slot).clo.candidate = some c → (d.generateRoot slot).get F.KEY_STATUS_CAND_VERIFIED = b2n c.verified ∧
      (d.generateRoot slot).get F.KEY_CMD_RESULT = if c.verified then Kr.ok else Kr.notVerified := by
  unfold Dev.generateRoot
  generalize d.drbg 128 = drawn
  obtain ⟨root, d⟩ := drawn
  obtain ⟨hfilled, hverified, hresult⟩ := d.fillCandidate_fills slot Kind.sign root.toNat rfl
  refine ⟨congrArg (Option.map fun c => (c.slot, c.kind)) hfilled, fun c hc => ?_⟩
  obtain rfl := Option.some.inj (hfilled.symm.trans hc)
  exact ⟨hverified, hresult⟩

/-! A root commits (R295). -/

/-- The slot's new root is there. -/
theorem Dev.storeRoot_root (d : Dev) (slot root : Nat) : ((d.storeRoot slot root).root? slot).isSome = true := by
  show ((Maps.get? slot (Maps.put _ slot _)).map _).isSome = true
  rw [Maps.get?_put_same]
  rfl

/-- The working key derived, a slot without a candidate shows as before. -/
theorem Dev.deriveSlot_placed {d : Dev} {slot : Nat} (hempty : d.clo.candidate = none) (hroot : (d.root? slot).isSome = true) :
    (d.deriveSlot slot).showCand.clo.candidate = none ∧ ((d.deriveSlot slot).showCand.root? slot).isSome = true ∧
      (d.deriveSlot slot).showCand.get F.KEY_STATUS_CAND_VALID = 0 := by
  have hclo : (d.deriveSlot slot).clo = d.clo := (Dev.deriveSlot_edits (m := 0x2000) (h := .refl d)).clo.resolve_left (by decide)
  have hnone := (congrArg Clo.candidate hclo).trans hempty
  refine ⟨hnone, ?_, (Dev.showCand_none hnone).1⟩
  show ((Maps.get? slot (d.deriveSlot slot).clo.vault).map _).isSome = true
  rwa [hclo]

/-- A candidate that is placed leaves the register, and its slot holds its root and its kind. -/
theorem Dev.placeRoot_places (d : Dev) (c : Candidate) (below : Option Nat) : (d.placeRoot c below).1.kind = c.kind ∧
    (d.placeRoot c below).2.clo.candidate = none ∧ ((d.placeRoot c below).2.root? c.slot).isSome = true ∧
    (d.placeRoot c below).2.get F.KEY_STATUS_CAND_VALID = 0 :=
  ⟨rfl, Dev.deriveSlot_placed rfl (Dev.storeRoot_root _ c.slot c.root)⟩

/-- A committed root: its slot holds it with its kind, the register is empty, and ROOT_COMMITTED is set. -/
structure Dev.Committed (d : Dev) (c : Candidate) : Prop where
  empty : d.clo.candidate = none
  kind : (d.slotMeta c.slot).kind = c.kind
  root : (d.root? c.slot).isSome = true
  valid : d.get F.KEY_STATUS_CAND_VALID = 0
  committed : d.get F.KEY_INT_STATUS_ROOT_COMMITTED = 1

/-- Logging the commit of a slot that holds the candidate's root and metadata. -/
theorem Dev.rootCommitted_committed {d : Dev} {c : Candidate} (hempty : d.clo.candidate = none) (hkind : (d.slotMeta c.slot).kind = c.kind)
    (hroot : (d.root? c.slot).isSome = true) (hvalid : d.get F.KEY_STATUS_CAND_VALID = 0) (seq : Nat) :
    (d.rootCommitted c.slot seq).Committed c := by
  unfold Dev.rootCommitted
  extract_lets m
  have hdur : d.DurKept (d.raise F.KEY_INT_STATUS_ROOT_COMMITTED (c.slot + 2 ^ 8 * m.kind + 2 ^ 16 * (m.gen % 2 ^ 16)) seq) :=
    Dev.raise_dur ..
  refine ⟨by rw [Dev.raise_clo, hempty], ?_, by rwa [Dev.root?, Dev.raise_clo], by rw [Dev.get_raise_of_clear (by decide), hvalid],
    Dev.raise_self ..⟩
  rw [Dev.slotMeta, hdur.read (fun u => Maps.getD u.roots c.slot ⟨0, 0, 0⟩) fun _ _ => rfl]
  exact hkind

theorem Dev.Committed.reEmitNow {d : Dev} {c : Candidate} (h : d.Committed c) : d.reEmitNow.Committed c := by
  have hedits := Dev.reEmitNow_edits (m := 0x800) (h := .refl d)
  have hclo : d.reEmitNow.clo = d.clo := hedits.clo.resolve_left (by decide)
  have hdur : d.reEmitNow.dur = d.dur := hedits.dur.resolve_left (by decide)
  exact ⟨by rw [hclo, h.empty], by rw [Dev.slotMeta, hdur]; exact h.kind, by rw [Dev.root?, hclo]; exact h.root,
    by rw [hedits.get F.KEY_STATUS_CAND_VALID, h.valid], by rw [hedits.get F.KEY_INT_STATUS_ROOT_COMMITTED, h.committed]⟩

theorem Dev.Committed.keyDone {d : Dev} {c : Candidate} (h : d.Committed c) (code : Nat) : (d.keyDone code).Committed c := by
  have hdur : d.DurKept (d.keyDone code) := (Dev.DurKept.refl d).keyDone code
  refine ⟨by rw [Dev.keyDone_clo, h.empty], ?_, by rw [Dev.root?, Dev.keyDone_clo]; exact h.root, by rw [Dev.get_keyDone _ _ rfl, h.valid],
    by rw [Dev.get_keyDone _ _ rfl, h.committed]⟩
  rw [Dev.slotMeta, hdur.read (fun u => Maps.getD u.roots c.slot ⟨0, 0, 0⟩) fun _ _ => rfl]
  exact h.kind

theorem Dev.commitRoot_committed (d : Dev) (c : Candidate) : (d.commitRoot c).Committed c := by
  unfold Dev.commitRoot
  extract_lets seq
  obtain ⟨hkind, hempty, hroot, hvalid⟩ := d.placeRoot_places c (some seq)
  revert hkind hempty hroot hvalid
  generalize d.placeRoot c (some seq) = placed
  obtain ⟨m, d₁⟩ := placed
  intro hkind hempty hroot hvalid
  refine (Dev.rootCommitted_committed ?_ ?_ ?_ ?_ seq).reEmitNow
  · rw [Dev.journal_clo, hempty]
  · rw [Dev.slotMeta, Dev.journal_dur]
    exact (congrArg SlotMeta.kind (Maps.getD_put_same ..)).trans hkind
  · rwa [Dev.root?, Dev.journal_clo]
  · rw [(Dev.journal_edits (m := 0x140000004c002) (h := .refl d₁)).get F.KEY_STATUS_CAND_VALID, hvalid]

/-- A slot without its mask share and its working key is erased by its metadata. -/
theorem Dev.erased_root {d : Dev} {slot : Nat} (hvault : Maps.get? slot d.clo.vault = none) (hkey : Maps.get? slot d.key.working = none)
    (m : SlotMeta) : (((d.journal (.root slot (some m))).keyDone Kr.ok).root? slot) = none ∧
      Maps.get? slot ((d.journal (.root slot (some m))).keyDone Kr.ok).key.working = none ∧
      ((d.journal (.root slot (some m))).keyDone Kr.ok).slotMeta slot = m ∧
      ((d.journal (.root slot (some m))).keyDone Kr.ok).get F.KEY_CMD_RESULT = 0 := by
  generalize hj : d.journal (.root slot (some m)) = j
  have hclo : (j.keyDone Kr.ok).clo = d.clo := by rw [Dev.keyDone_clo, ← hj, Dev.journal_clo]
  have hworking : (j.keyDone Kr.ok).key = d.key := by rw [Dev.keyDone_key, ← hj, Dev.journal_key]
  have hdur : j.dur = d.dur.control (.root slot (some m)) := hj ▸ d.journal_dur _
  refine ⟨by rw [Dev.root?, hclo, hvault]; rfl, by rw [hworking, hkey], ?_, (Dev.keyDone_answered (by decide) _).result⟩
  refine (((Dev.DurKept.refl j).keyDone Kr.ok).read (fun u => Maps.getD u.roots slot ⟨0, 0, 0⟩) fun _ _ => rfl).trans ?_
  rw [hdur]
  exact Maps.getD_put_same ..

/-! The root commands (R293 to R295, R299). -/

section
variable (s : State) (slot root w t : Nat) (c : Candidate) (hbusy : s.dev.flag F.KEY_CMD_BUSY = false) (hlocked : s.dev.keyLocked = false)
  (hserves : s.dev.standbyRefuses = false) (hsession : s.dev.key.session.bind (·.transport) = some t)
include hbusy hlocked hserves

theorem rootGenerate_noSession (hnone : s.dev.key.session.bind (·.transport) = none) : Runs (.rootGenerate slot) s fun d =>
    d.clo.candidate = s.dev.clo.candidate ∧ d.get F.KEY_CMD_RESULT = Kr.noSession := by
  refine (runs_refused (code := Kr.noSession) (runs_keyCmd rfl hbusy hlocked hserves ?_) (by decide)).imp fun d h =>
    ⟨congrArg Clo.candidate h.clo, h.result⟩
  rw [hnone]

include hsession

theorem rootCancel_cancels (hfull : s.dev.clo.candidate = some c) : Runs .rootCancel s fun d => d.clo.candidate = none ∧
    d.get F.KEY_STATUS_CAND_VALID = 0 ∧ d.get F.KEY_STATUS_CAND_VERIFIED = 0 ∧ d.get F.KEY_STATUS_CAND_SLOT = 0 ∧
    d.get F.KEY_STATUS_CAND_KIND = 0 ∧ d.get F.KEY_CMD_RESULT = 0 := by
  refine Runs.of_eq (d := ?next) (runs_rootCmd rfl hbusy hlocked hserves hsession ?runs) ?holds
  case runs => exact if_neg (ne_true_of_eq_false (congrArg Option.isNone hfull))
  case holds =>
    obtain ⟨hvalid, hverified, hslot, hkind⟩ := Dev.showCand_none (d := { s.dev with clo := { s.dev.clo with candidate := none } }) rfl
    exact ⟨congrArg Clo.candidate (Dev.keyDone_clo ..), (Dev.get_keyDone _ _ rfl).trans hvalid, (Dev.get_keyDone _ _ rfl).trans hverified,
      (Dev.get_keyDone _ _ rfl).trans hslot, (Dev.get_keyDone _ _ rfl).trans hkind, (Dev.keyDone_answered (by decide) _).result⟩

variable (hunlatched : s.dev.latched = false)
include hunlatched

theorem rootImport_candidateBusy (hkind : 1 ≤ s.dev.get F.KEY_CMD_ARG_KIND) (hkind' : s.dev.get F.KEY_CMD_ARG_KIND ≤ 6)
    (hfull : s.dev.clo.candidate = some c) : Runs (.rootImport slot root w) s fun d =>
    d.clo.candidate = some c ∧ d.get F.KEY_CMD_RESULT = Kr.candidateBusy := by
  have hvalid : ¬(s.dev.get F.KEY_CMD_ARG_KIND = 0 ∨ 6 < s.dev.get F.KEY_CMD_ARG_KIND) :=
    fun h => h.elim (Nat.ne_of_gt hkind) (Nat.not_lt.2 hkind')
  refine (runs_refused (code := Kr.candidateBusy) (runs_rootCmd rfl hbusy hlocked hserves hsession ?_) (by decide)).imp fun d h =>
    ⟨(congrArg Clo.candidate h.clo).trans hfull, h.result⟩
  exact (if_neg (ne_true_of_eq_false hunlatched)).trans ((if_neg hvalid).trans (if_pos (congrArg Option.isSome hfull)))

/-- An import fills the register where its wrap and its key check value agree. -/
theorem rootImport_imports (hkind : 0 < s.dev.get F.KEY_CMD_ARG_KIND) (hkind' : s.dev.get F.KEY_CMD_ARG_KIND ≤ 6)
    (hempty : s.dev.clo.candidate = none) : Runs (.rootImport slot root w) s fun d => d.clo.candidate =
    if w = Crypto.wrap 32 t 16 root ∧ kcvOf 16 root = s.dev.get F.KEY_KCV_KCV then
      some ⟨slot, s.dev.get F.KEY_CMD_ARG_KIND, root, (s.dev.pairwise ⟨slot, s.dev.get F.KEY_CMD_ARG_KIND, root, false⟩).1⟩
    else none := by
  have hvalid : ¬(s.dev.get F.KEY_CMD_ARG_KIND = 0 ∨ 6 < s.dev.get F.KEY_CMD_ARG_KIND) :=
    fun h => h.elim (Nat.ne_of_gt hkind) (Nat.not_lt.2 hkind')
  suffices h : (if w ≠ Crypto.wrap 32 t 16 root then s.dev.keyDone Kr.unwrapFail
      else if kcvOf 16 root ≠ s.dev.get F.KEY_KCV_KCV then s.dev.keyDone Kr.kcvMismatch
      else s.dev.fillCandidate slot (s.dev.get F.KEY_CMD_ARG_KIND) root).clo.candidate = _ by
    refine Runs.of_eq (runs_rootCmd rfl hbusy hlocked hserves hsession ?_) h
    exact (if_neg (ne_true_of_eq_false hunlatched)).trans
      ((if_neg hvalid).trans (if_neg (ne_true_of_eq_false (congrArg Option.isSome hempty))))
  split
  next hwrap => exact (congrArg Clo.candidate (Dev.keyDone_clo ..)).trans (hempty.trans (if_neg fun h => hwrap h.1).symm)
  next hwrap =>
    split
    next hkcv => exact (congrArg Clo.candidate (Dev.keyDone_clo ..)).trans (hempty.trans (if_neg fun h => hkcv h.2).symm)
    next hkcv => exact (s.dev.fillCandidate_fills slot _ root rfl).1.trans (if_pos ⟨not_not.1 hwrap, not_not.1 hkcv⟩).symm

theorem rootGenerate_generates (hkind : s.dev.get F.KEY_CMD_ARG_KIND = Kind.sign) (hempty : s.dev.clo.candidate = none)
    (hdrbg : s.dev.drbgRuns = true) : Runs (.rootGenerate slot) s fun d =>
    d.clo.candidate.map (fun c => (c.slot, c.kind)) = some (slot, Kind.sign) ∧ ∀ c, d.clo.candidate = some c →
      d.get F.KEY_STATUS_CAND_VERIFIED = b2n c.verified ∧ d.get F.KEY_CMD_RESULT = if c.verified then Kr.ok else Kr.notVerified := by
  refine Runs.of_eq (runs_rootCmd rfl hbusy hlocked hserves hsession ?_) (s.dev.generateRoot_fills slot)
  exact (if_neg (ne_true_of_eq_false hunlatched)).trans ((if_neg (not_not.2 hkind)).trans
    ((if_neg (ne_true_of_eq_false (congrArg Option.isSome hempty))).trans (if_neg (ne_false_of_eq_true hdrbg))))

theorem rootGenerate_waits (hkind : s.dev.get F.KEY_CMD_ARG_KIND = Kind.sign) (hempty : s.dev.clo.candidate = none)
    (hdrbg : s.dev.drbgRuns = false) : Runs (.rootGenerate slot) s fun d =>
    d.clo.candidate = none ∧ d.key.generating = some slot ∧ d.get F.KEY_CMD_BUSY = 1 := by
  apply Runs.of_eq
  · refine runs_rootCmd rfl hbusy hlocked hserves hsession ?_
    exact (if_neg (ne_true_of_eq_false hunlatched)).trans ((if_neg (not_not.2 hkind)).trans
      ((if_neg (ne_true_of_eq_false (congrArg Option.isSome hempty))).trans (if_pos hdrbg)))
  · exact ⟨hempty, rfl, Dev.get_set_same _ F.KEY_CMD_BUSY 1⟩

theorem rootCommit_commits (hfull : s.dev.clo.candidate = some c) (hverified : c.verified = true) (hfree : s.dev.slotFree c = true)
    (hkind : c.kind = Kind.sign) : Runs .rootCommit s fun d => d.clo.candidate = none ∧ (d.slotMeta c.slot).kind = Kind.sign ∧
    (d.root? c.slot).isSome = true ∧ d.get F.KEY_STATUS_CAND_VALID = 0 ∧ d.get F.KEY_INT_STATUS_ROOT_COMMITTED = 1 := by
  have h := (s.dev.commitRoot_committed c).keyDone Kr.ok
  refine Runs.of_eq (runs_rootCmd rfl hbusy hlocked hserves hsession ?_) ⟨h.empty, h.kind.trans hkind, h.root, h.valid, h.committed⟩
  rw [hfull]
  exact (if_neg (ne_true_of_eq_false hunlatched)).trans ((if_neg (ne_false_of_eq_true hverified)).trans
    ((if_neg (ne_false_of_eq_true hfree)).trans (if_pos hkind)))

theorem rootCommit_slotInUse (hfull : s.dev.clo.candidate = some c) (hverified : c.verified = true) (hused : s.dev.slotFree c = false) :
    Runs .rootCommit s fun d => d.clo.candidate = some c ∧ d.dur.roots = s.dev.dur.roots ∧ d.get F.KEY_CMD_RESULT = Kr.slotInUse := by
  refine (runs_refused (code := Kr.slotInUse) (runs_rootCmd rfl hbusy hlocked hserves hsession ?_) (by decide)).imp fun d h =>
    ⟨(congrArg Clo.candidate h.clo).trans hfull, h.dur.read Dur.roots fun _ _ => rfl, h.result⟩
  rw [hfull]
  exact (if_neg (ne_true_of_eq_false hunlatched)).trans ((if_neg (ne_false_of_eq_true hverified)).trans (if_pos hused))

theorem rootErase_erases (hunused : s.dev.slotInUse slot = false) : Runs (.rootErase slot) s fun d => d.root? slot = none ∧
    Maps.get? slot d.key.working = none ∧ d.slotMeta slot = ⟨0, (s.dev.slotMeta slot).gen, 0⟩ ∧ d.get F.KEY_CMD_RESULT = 0 := by
  apply Runs.of_eq
  · refine runs_rootCmd rfl hbusy hlocked hserves hsession ?_
    exact (if_neg (ne_true_of_eq_false hunlatched)).trans (if_neg (ne_true_of_eq_false hunused))
  · exact Dev.erased_root (Maps.get?_del_same ..) (Maps.get?_del_same ..) _

theorem rootErase_slotInUse (hused : s.dev.slotInUse slot = true) : Runs (.rootErase slot) s fun d =>
    d.clo.vault = s.dev.clo.vault ∧ d.get F.KEY_CMD_RESULT = Kr.slotInUse := by
  refine (runs_refused (code := Kr.slotInUse) (runs_rootCmd rfl hbusy hlocked hserves hsession ?_) (by decide)).imp fun d h =>
    ⟨congrArg Clo.vault h.clo, h.result⟩
  exact (if_neg (ne_true_of_eq_false hunlatched)).trans (if_pos hused)

end

/-! REWRAP (R298). -/

/-- The move ends with the class keys and the head keys. -/
theorem Dev.rewrapEnd_ends {d : Dev} {src dst : Nat} {w : WorkKey} (h : d.rewrapKeys = some (src, dst, w)) :
    d.rewrapEnd.get F.KEY_REWRAP_RUNNING = 0 ∧ d.rewrapEnd.get F.KEY_REWRAP_DONE = 1048576 ∧
      d.rewrapEnd.dur.rewrap = some (src, dst, 1048576) := by
  rw [Dev.rewrapEnd, h]
  exact ⟨Dev.get_set_same _ F.KEY_REWRAP_RUNNING 0,
    (Dev.get_set_clear (by decide) _ _).trans (Dev.get_set_same _ F.KEY_REWRAP_DONE 1048576), rfl⟩

/-- REWRAP is set up: under way from the first index on, and no item of an earlier one waits. -/
noncomputable def Dev.rewrapBegun (d : Dev) (src dst : Nat) : Dev :=
  (({ d with
    dur := { d.dur with rewrap := some (src, dst, 0) }
    eng := { d.eng with downs := d.eng.downs.filter fun x => x.2.1 != DlJob.rewrap } }.set F.KEY_REWRAP_RUNNING 1).set F.KEY_REWRAP_DONE 0)

theorem Dev.rewrapBegun_get (d : Dev) (src dst : Nat) : (d.rewrapBegun src dst).get F.KEY_REWRAP_RUNNING = 1 ∧
    (d.rewrapBegun src dst).get F.KEY_REWRAP_DONE = 0 :=
  ⟨(Dev.get_set_clear (by decide) _ _).trans (Dev.get_set_same _ F.KEY_REWRAP_RUNNING 1), Dev.get_set_same _ F.KEY_REWRAP_DONE 0⟩

/-- It passes the meters with keys, all of them. -/
theorem Dev.rewrapOn_begun (d : Dev) (src dst : Nat) :
    (d.rewrapBegun src dst).rewrapOn = Dev.rewrapRun (d.dur.keys.map (·.1)) (d.rewrapBegun src dst) := by
  have hrunning : (d.rewrapBegun src dst).flag F.KEY_REWRAP_RUNNING = true :=
    congrArg (fun v => decide (v ≠ 0)) (d.rewrapBegun_get src dst).1
  have hall : ((d.dur.keys.map (·.1)).filter fun m => decide (0 ≤ m)) = d.dur.keys.map (·.1) := List.filter_eq_self.2 fun _ _ => by simp
  exact (if_neg (ne_false_of_eq_true hrunning)).trans (congrArg (Dev.rewrapRun · _) hall)

/-- At a meter with an item in flight it waits. -/
theorem Dev.rewrapRun_waits {d : Dev} {m : Nat} (hfree : ∀ x ∈ d.eng.downs, x.2.1 ≠ DlJob.rewrap)
    (hflight : Maps.has d.eng.flight m = true) (ms : List Nat) : Dev.rewrapRun (m :: ms) d = d.queueJob m .rewrap := by
  have hnone : (d.eng.downs.any fun x => x.1 == m && x.2.1 == .rewrap) = false :=
    List.any_eq_false.2 fun x hx => by simp [hfree x hx]
  have hbusy : d.idleMeter m = false := by simp [Dev.idleMeter, hflight]
  exact (if_neg (ne_true_of_eq_false hnone)).trans (if_neg (ne_true_of_eq_false hbusy))

section
variable (s : State) (slot : Nat) (v w : WorkKey) (hbusy : s.dev.flag F.KEY_CMD_BUSY = false) (hlocked : s.dev.keyLocked = false)
  (hserves : s.dev.standbyRefuses = false) (hsrc : s.dev.workKey Kind.storeKek slot = some v)
  (hdst : s.dev.workKey Kind.storeKek (s.dev.get F.KEY_CMD_ARG_TARGET) = some w)
include hbusy hlocked hserves hsrc hdst

/-- With two STORE_KEK slots the move begins, and the command ends. -/
theorem runs_rewrap {d : Dev} (h : Dev.rewrapRun (s.dev.dur.keys.map (·.1)) (s.dev.rewrapBegun slot (s.dev.get F.KEY_CMD_ARG_TARGET)) = d) :
    Runs (.rewrap slot) s (· = d.keyDone Kr.ok) := by
  have hslots : ¬((s.dev.workKey Kind.storeKek slot).isNone = true ∨
      (s.dev.workKey Kind.storeKek (s.dev.get F.KEY_CMD_ARG_TARGET)).isNone = true) := by simp [hsrc, hdst]
  refine runs_keyCmd rfl hbusy hlocked hserves ?_
  exact (if_neg hslots).trans (congrArg (Dev.keyDone · Kr.ok) ((Dev.rewrapOn_begun ..).trans h))

theorem rewrap_ends (hnone : s.dev.dur.keys = []) : Runs (.rewrap slot) s fun d => d.get F.KEY_REWRAP_RUNNING = 0 ∧
    d.get F.KEY_REWRAP_DONE = 1048576 ∧ d.dur.rewrap = some (slot, s.dev.get F.KEY_CMD_ARG_TARGET, 1048576) ∧
    d.get F.KEY_CMD_RESULT = 0 := by
  have hkeys : (s.dev.rewrapBegun slot (s.dev.get F.KEY_CMD_ARG_TARGET)).rewrapKeys = some (slot, s.dev.get F.KEY_CMD_ARG_TARGET, w) :=
    congrArg (Option.map fun w => (slot, s.dev.get F.KEY_CMD_ARG_TARGET, w)) hdst
  obtain ⟨hrunning, hdone, hrewrap⟩ := Dev.rewrapEnd_ends hkeys
  exact (runs_rewrap s slot v w hbusy hlocked hserves hsrc hdst (by rw [hnone]; rfl)).of_eq
    ⟨(Dev.get_keyDone _ _ rfl).trans hrunning, (Dev.get_keyDone _ _ rfl).trans hdone,
      (((Dev.DurKept.refl _).keyDone Kr.ok).read Dur.rewrap fun _ _ => rfl).trans hrewrap, (Dev.keyDone_answered (by decide) _).result⟩

theorem rewrap_waits (m : Nat) (k : MeterKeys) (l : List (Nat × MeterKeys)) (hkeys : s.dev.dur.keys = (m, k) :: l)
    (hflight : Maps.has s.dev.eng.flight m = true) : Runs (.rewrap slot) s fun d => d.get F.KEY_REWRAP_RUNNING = 1 ∧
    d.get F.KEY_REWRAP_DONE = 0 ∧ d.dur.rewrap = some (slot, s.dev.get F.KEY_CMD_ARG_TARGET, 0) ∧
    (m, DlJob.rewrap) ∈ d.eng.downs.map (fun x => (x.1, x.2.1)) ∧ d.get F.KEY_CMD_RESULT = 0 := by
  have hfree : ∀ x ∈ (s.dev.rewrapBegun slot (s.dev.get F.KEY_CMD_ARG_TARGET)).eng.downs, x.2.1 ≠ DlJob.rewrap :=
    fun x hx => by simpa using (List.mem_filter.1 hx).2
  obtain ⟨hrunning, hdone⟩ := s.dev.rewrapBegun_get slot (s.dev.get F.KEY_CMD_ARG_TARGET)
  have hrun : Dev.rewrapRun (s.dev.dur.keys.map (·.1)) (s.dev.rewrapBegun slot (s.dev.get F.KEY_CMD_ARG_TARGET)) =
      (s.dev.rewrapBegun slot (s.dev.get F.KEY_CMD_ARG_TARGET)).queueJob m .rewrap := by
    rw [hkeys]
    exact Dev.rewrapRun_waits hfree hflight _
  refine (runs_rewrap s slot v w hbusy hlocked hserves hsrc hdst hrun).of_eq
    ⟨(Dev.get_keyDone _ _ rfl).trans hrunning, (Dev.get_keyDone _ _ rfl).trans hdone,
    ((Dev.DurKept.refl _).keyDone Kr.ok).read Dur.rewrap (fun _ _ => rfl), ?_, (Dev.keyDone_answered (by decide) _).result⟩
  rw [Dev.keyDone_eng]
  exact List.mem_map.2 ⟨(m, .rewrap, _), List.mem_append_right _ (List.mem_singleton.2 rfl), rfl⟩

end

/-- Settles O33: the lemmas above, one for each clause. -/
theorem rootCommands : Obligations.RootCommands := by
  refine ⟨?_, ?_, ?_, ?_, ?_, ?_, ?_, ?_, ?_, ?_, ?_, ?_⟩
  · rintro s slot root w t _ hbusy hlocked hserves hsession hunlatched rfl
    exact rootImport_imports s slot root w t hbusy hlocked hserves hsession hunlatched
  · exact fun s slot root w t c => rootImport_candidateBusy s slot root w t c
  · exact fun s slot t => rootGenerate_generates s slot t
  · exact fun s slot t => rootGenerate_waits s slot t
  · exact fun s slot => rootGenerate_noSession s slot
  · exact fun s t c => rootCommit_commits s t c
  · exact fun s t c => rootCommit_slotInUse s t c
  · exact fun s t c => rootCancel_cancels s t c
  · exact fun s slot t => rootErase_erases s slot t
  · exact fun s slot t => rootErase_slotInUse s slot t
  · exact fun s slot v w => rewrap_ends s slot v w
  · exact fun s slot v w m k l hbusy hlocked hserves hsrc hdst => rewrap_waits s slot v w hbusy hlocked hserves hsrc hdst m k l

end Sys2Proof.Machine

namespace Sys2Proof.Machine

set_option Elab.async false

/-! A KEY command's records are made, and it ends (R189, R317). -/

/-- The durable state of `d` is `u` with the command's records made, but for the event numbers reserved, and the command has ended. -/
structure Dev.KeyMade (d : Dev) (u : Dur) (recs : List JRec) (result : Nat) : Prop where
  dur : ∃ n, d.dur = { recs.foldl Dur.control u with evReserved := n }
  answered : d.KeyAnswered result

/-- What does not depend on the event numbers reserved is as the records leave it. -/
theorem Dev.KeyMade.read {d : Dev} {u : Dur} {recs : List JRec} {result : Nat} (h : d.KeyMade u recs result) {β : Type} (f : Dur → β)
    (hf : ∀ u n, f { u with evReserved := n } = f u) : f d.dur = f (recs.foldl Dur.control u) := by
  obtain ⟨n, e⟩ := h.dur
  rw [e, hf]

/-- With no synchronised standby a KEY command whose records free no context is made at once. -/
theorem Dev.pairDo_key {d : Dev} (hsynced : d.standbySynced = false) {recs : List JRec} (hfrees : ∀ i, recs.contains (.free i) = false)
    {result : Nat} (hresult : result < 32) (dma : List (Nat × Bytes)) :
    (d.pairDo { recs := recs, finish := .key, result := result, dma := dma }).KeyMade d.dur recs result := by
  have hnone : (d.eng.freeing.filter fun i => recs.contains (.free i)) = [] :=
    List.filter_eq_nil_iff.2 fun i _ => by rw [hfrees]; simp
  rw [Dev.pairDo, if_neg (by simp [hsynced])]
  unfold Dev.complete
  dsimp -zeta only
  rw [hnone]
  extract_lets d₁ d₂ d₃ d₄ d₅ freeing
  refine ⟨?_, Dev.keyDone_answered hresult _⟩
  have h₄ : d₃.DurKept d₄ := by
    dsimp only [d₄]
    split
    · exact (Dev.DurKept.refl d₃).edits (Dev.sendHeld_edits (m := 0x1000000040042) (h := .refl d₃))
    · exact .refl d₃
  have h₅ : d₅.dur = d₄.dur := Dev.foldl_keeps Dev.dur (g := fun d w => d.emit (.dma w.1 w.2)) (fun _ _ => rfl) dma d₄
  have h₃ : d₃.DurKept { d₅ with eng := { d₅.eng with freeing := freeing } } := h₄.trans ⟨d₄.dur.evReserved, h₅⟩
  obtain ⟨n, e⟩ := h₃.keyDone result
  exact ⟨n, e.trans (by rw [show d₃.dur = recs.foldl Dur.control d.dur from d.foldl_journal_dur recs])⟩

/-! Installs (R301, R304, R305). -/

/-- An entry that unwraps to its key check value. -/
abbrev InstallEntry.good (e : InstallEntry) (imp : WorkKey) (kcv : Nat) : Prop :=
  e.wrapped = Crypto.wrap 32 imp.key 32 (e.link * 2 ^ 128 + e.global) ∧ e.kcv = kcv

/-- What an entry comes to before its target is looked at. -/
noncomputable def InstallEntry.check (e : InstallEntry) (imp : WorkKey) (kcv : Nat) : Nat :=
  if e.wrapped ≠ Crypto.wrap 32 imp.key 32 (e.link * 2 ^ 128 + e.global) then Kr.unwrapFail
  else if e.kcv ≠ kcv then Kr.kcvMismatch else Kr.ok

theorem Dev.takeEntry_fst (d : Dev) (imp sto : WorkKey) (slot : Nat) (e : InstallEntry) (kcv : Nat) :
    (d.takeEntry imp sto slot e kcv).1 = e.check imp kcv := by
  unfold Dev.takeEntry InstallEntry.check
  extract_lets set
  split
  · rfl
  · split <;> rfl

theorem InstallEntry.check_of_good {e : InstallEntry} {imp : WorkKey} {kcv : Nat} (h : e.good imp kcv) : e.check imp kcv = Kr.ok := by
  rw [InstallEntry.check, if_neg (not_not.2 h.1), if_neg (not_not.2 h.2)]

/-- Of an entry that fails, the unwrapping comes first. -/
theorem InstallEntry.check_of_bad {e : InstallEntry} {imp : WorkKey} {kcv : Nat} (h : ¬e.good imp kcv) (rest : Nat) :
    e.check imp kcv ≠ Kr.ok ∧ e.check imp kcv =
      if e.wrapped ≠ Crypto.wrap 32 imp.key 32 (e.link * 2 ^ 128 + e.global) then Kr.unwrapFail
      else if e.kcv ≠ kcv then Kr.kcvMismatch else rest := by
  unfold InstallEntry.check
  by_cases hwrap : e.wrapped = Crypto.wrap 32 imp.key 32 (e.link * 2 ^ 128 + e.global)
  · have hkcv : e.kcv ≠ kcv := fun hkcv => h ⟨hwrap, hkcv⟩
    rw [if_neg (not_not.2 hwrap), if_neg (not_not.2 hwrap), if_pos hkcv, if_pos hkcv]
    exact ⟨by decide, rfl⟩
  · rw [if_pos hwrap, if_pos hwrap]
    exact ⟨by decide, rfl⟩

theorem InstallEntry.check_lt (e : InstallEntry) (imp : WorkKey) (kcv : Nat) : e.check imp kcv < 32 := by
  unfold InstallEntry.check
  split
  · decide
  · split <;> decide

/-- An install of one entry: its record is made, and its result is the command's. -/
theorem runs_install {c : Instr} {s : State} {e : InstallEntry} {i o : WorkKey} {r : Nat} {j : Option JRec}
    {one : Dev → WorkKey → WorkKey → Dur → InstallEntry → Nat × Option JRec}
    (hbusy : s.dev.flag F.KEY_CMD_BUSY = false) (hlocked : s.dev.keyLocked = false) (hserves : s.dev.standbyRefuses = false)
    (hkeys : s.dev.installKeys = some (i, o)) (hcount : s.dev.get F.KEY_CMD_ARG_COUNT = 1) (hsynced : s.dev.standbySynced = false)
    (hone : one s.dev i o s.dev.dur e = (r, j)) (hfrees : ∀ n, j.toList.contains (.free n) = false) (hr : r < 32)
    (hexec : exec c s = s.on fun d => d.keyCmd false false fun d => d.install [e] (one d)) :
    Runs c s fun d => d.KeyMade s.dev.dur j.toList r := by
  refine runs_keyCmd hexec hbusy hlocked hserves ?_
  rw [Dev.install, hkeys]
  dsimp -zeta only
  extract_lets es run d₁ dma
  have hes : es = [e] := by simp [es, hcount]
  have hrun : run.2 = ([r], j.toList) := by
    simp only [run, hes, List.foldl_cons, List.foldl_nil, hone]
    cases j <;> rfl
  have hsynced₁ : d₁.standbySynced = false :=
    (Dev.standbySynced_of_edits (Dev.countBy_edits (m := 0x80000000000) (h := .refl s.dev))).trans hsynced
  rw [hrun]
  exact Dev.pairDo_key hsynced₁ hfrees hr dma

/-- A target without keys: the install makes the entry its current set exactly where the entry is good. -/
theorem runs_install_current {c : Instr} {s : State} {e : InstallEntry} {i : WorkKey} {kcv : Nat} {j : JRec} {set : KeySet}
    (f : Dur → Option KeySet × Option KeySet) (hnew : f s.dev.dur = (none, none))
    (hgood : e.good i kcv → Runs c s fun d => d.KeyMade s.dev.dur [j] Kr.ok)
    (hbad : ¬e.good i kcv → Runs c s fun d => d.KeyMade s.dev.dur [] (e.check i kcv))
    (hmade : f (s.dev.dur.control j) = (some set, none))
    (hf : ∀ u n, f { u with evReserved := n } = f u) : Runs c s fun d =>
    (f d.dur).1.isSome = decide (e.wrapped = Crypto.wrap 32 i.key 32 (e.link * 2 ^ 128 + e.global) ∧ e.kcv = kcv) ∧
      (f d.dur).2 = none := by
  by_cases h : e.good i kcv
  · refine (hgood h).imp fun d hd => ?_
    rw [(hd.read f hf).trans hmade]
    exact ⟨(decide_eq_true h).symm, rfl⟩
  · refine (hbad h).imp fun d hd => ?_
    rw [(hd.read f hf).trans hnew]
    exact ⟨(decide_eq_false h).symm, rfl⟩

section
variable (s : State) (e : InstallEntry) (i o : WorkKey) (hbusy : s.dev.flag F.KEY_CMD_BUSY = false) (hlocked : s.dev.keyLocked = false)
  (hserves : s.dev.standbyRefuses = false)
include hbusy hlocked hserves

theorem meterInstall_wrongKind (hkeys : s.dev.installKeys = none) : Runs (.meterInstall [e]) s fun d =>
    d.dur.keys = s.dev.dur.keys ∧ d.get F.KEY_CMD_RESULT = Kr.wrongKind := by
  refine (runs_refused (code := Kr.wrongKind) (runs_keyCmd rfl hbusy hlocked hserves ?_) (by decide)).imp fun d h =>
    ⟨h.dur.read Dur.keys (fun _ _ => rfl), h.result⟩
  rw [Dev.install, hkeys]

variable (hkeys : s.dev.installKeys = some (i, o)) (hcount : s.dev.get F.KEY_CMD_ARG_COUNT = 1) (hsynced : s.dev.standbySynced = false)
include hkeys hcount hsynced

theorem meterInstall_refuses (hbad : ¬e.good i (kcvOf 16 e.link)) : Runs (.meterInstall [e]) s fun d =>
    d.KeyMade s.dev.dur [] (e.check i (kcvOf 16 e.link)) := by
  refine runs_install (j := none) hbusy hlocked hserves hkeys hcount hsynced ?_ (fun _ => rfl) (e.check_lt i _) rfl
  have hr := s.dev.takeEntry_fst i o (s.dev.get F.KEY_KEK_STORE) e (kcvOf 16 e.link)
  exact (if_pos (hr.trans_ne (InstallEntry.check_of_bad hbad 0).1)).trans (congrArg (·, none) hr)

theorem meterInstall_notAllocated (hnone : Maps.get? (e.index % 1048576) s.dev.dur.ctxs = none) : Runs (.meterInstall [e]) s fun d =>
    d.dur.keys = s.dev.dur.keys ∧ d.get F.KEY_CMD_RESULT =
      if e.wrapped ≠ Crypto.wrap 32 i.key 32 (e.link * 2 ^ 128 + e.global) then Kr.unwrapFail
      else if e.kcv ≠ kcvOf 16 e.link then Kr.kcvMismatch else Kr.notAllocated := by
  by_cases hgood : e.good i (kcvOf 16 e.link)
  · have hruns : Runs (.meterInstall [e]) s fun d => d.KeyMade s.dev.dur [] Kr.notAllocated := by
      refine runs_install (j := none) hbusy hlocked hserves hkeys hcount hsynced ?_ (fun _ => rfl) (by decide) rfl
      have hr := (s.dev.takeEntry_fst i o (s.dev.get F.KEY_KEK_STORE) e (kcvOf 16 e.link)).trans (InstallEntry.check_of_good hgood)
      exact (if_neg (not_not.2 hr)).trans (if_pos (congrArg Option.isNone hnone))
    refine hruns.imp fun d h => ⟨h.read Dur.keys (fun _ _ => rfl), ?_⟩
    rw [h.answered.result, if_neg (not_not.2 hgood.1), if_neg (not_not.2 hgood.2)]
  · refine (meterInstall_refuses s e i o hbusy hlocked hserves hkeys hcount hsynced hgood).imp fun d h => ?_
    exact ⟨h.read Dur.keys (fun _ _ => rfl), h.answered.result.trans (InstallEntry.check_of_bad hgood _).2⟩

/-- A meter without keys takes a good entry as its current set. -/
theorem meterInstall_installs (hctx : (Maps.get? (e.index % 1048576) s.dev.dur.ctxs).isSome = true) (hflags : e.flags = 0)
    (hnew : s.dev.meterKeys (e.index % 1048576) = {}) (hgood : e.good i (kcvOf 16 e.link)) : Runs (.meterInstall [e]) s fun d =>
    d.KeyMade s.dev.dur [.keys (e.index % 1048576)
      { cur := some (s.dev.takeEntry i o (s.dev.get F.KEY_KEK_STORE) e (kcvOf 16 e.link)).2 }] Kr.ok := by
  refine runs_install (j := some _) hbusy hlocked hserves hkeys hcount hsynced ?_ (fun _ => rfl) (by decide) rfl
  have hr := (s.dev.takeEntry_fst i o (s.dev.get F.KEY_KEK_STORE) e (kcvOf 16 e.link)).trans (InstallEntry.check_of_good hgood)
  have hkeys : Maps.getD s.dev.dur.keys (e.index % 2 ^ 20) {} = {} := hnew
  refine (if_neg (not_not.2 hr)).trans ((if_neg (ne_true_of_eq_false (Option.isNone_eq_false_iff.2 hctx))).trans ?_)
  rw [hkeys, hflags]
  rfl

theorem meterInstall_meterKeys (hctx : (Maps.get? (e.index % 1048576) s.dev.dur.ctxs).isSome = true) (hflags : e.flags = 0)
    (hnew : s.dev.meterKeys (e.index % 1048576) = {}) : Runs (.meterInstall [e]) s fun d =>
    (d.meterKeys (e.index % 1048576)).cur.isSome = decide (e.wrapped = Crypto.wrap 32 i.key 32 (e.link * 2 ^ 128 + e.global) ∧
      e.kcv = kcvOf 16 e.link) ∧ (d.meterKeys (e.index % 1048576)).cand = none :=
  runs_install_current (fun u => ((Maps.getD u.keys (e.index % 1048576) {}).cur, (Maps.getD u.keys (e.index % 1048576) {}).cand))
    (congrArg (fun k : MeterKeys => (k.cur, k.cand)) hnew)
    (meterInstall_installs s e i o hbusy hlocked hserves hkeys hcount hsynced hctx hflags hnew)
    (meterInstall_refuses s e i o hbusy hlocked hserves hkeys hcount hsynced)
    (congrArg (fun k : MeterKeys => (k.cur, k.cand)) (Maps.getD_put_same ..)) fun _ _ => rfl

theorem headInstall_refuses (hbad : ¬e.good i (kcvOf 32 (e.link * 2 ^ 128 + e.global))) : Runs (.headInstall [e]) s fun d =>
    d.KeyMade s.dev.dur [] (e.check i (kcvOf 32 (e.link * 2 ^ 128 + e.global))) := by
  refine runs_install (j := none) hbusy hlocked hserves hkeys hcount hsynced ?_ (fun _ => rfl) (e.check_lt i _) rfl
  have hr := s.dev.takeEntry_fst i o (s.dev.get F.KEY_KEK_STORE) e (kcvOf 32 (e.link * 2 ^ 128 + e.global))
  exact (if_pos (hr.trans_ne (InstallEntry.check_of_bad hbad 0).1)).trans (congrArg (·, none) hr)

/-- A registered head without keys takes a good entry as its current set. -/
theorem headInstall_installs (hhead : (Maps.get? (e.index % 1048576) s.dev.dur.heads).isSome = true) (hflags : e.flags = 0)
    (hnew : Maps.getD s.dev.dur.headKeys (e.index % 1048576) {} = ({} : KeyPair))
    (hgood : e.good i (kcvOf 32 (e.link * 2 ^ 128 + e.global))) : Runs (.headInstall [e]) s fun d =>
    d.KeyMade s.dev.dur [.headKey (e.index % 1048576)
      { cur := some (s.dev.takeEntry i o (s.dev.get F.KEY_KEK_STORE) e (kcvOf 32 (e.link * 2 ^ 128 + e.global))).2 }] Kr.ok := by
  refine runs_install (j := some _) hbusy hlocked hserves hkeys hcount hsynced ?_ (fun _ => rfl) (by decide) rfl
  have hr := (s.dev.takeEntry_fst i o (s.dev.get F.KEY_KEK_STORE) e (kcvOf 32 (e.link * 2 ^ 128 + e.global))).trans
    (InstallEntry.check_of_good hgood)
  have hkeys : Maps.getD s.dev.dur.headKeys (e.index % 2 ^ 20) {} = {} := hnew
  refine (if_neg (not_not.2 hr)).trans ((if_neg (ne_true_of_eq_false (Option.isNone_eq_false_iff.2 hhead))).trans ?_)
  rw [hkeys, hflags]
  rfl

theorem headInstall_headKeys (h : Nat) (hindex : h = e.index % 1048576) (hhead : (Maps.get? h s.dev.dur.heads).isSome = true)
    (hflags : e.flags = 0) (hnew : Maps.getD s.dev.dur.headKeys h {} = ({} : KeyPair)) : Runs (.headInstall [e]) s fun d =>
    (Maps.getD d.dur.headKeys h {}).cur.isSome = decide (e.wrapped = Crypto.wrap 32 i.key 32 (e.link * 2 ^ 128 + e.global) ∧
      e.kcv = kcvOf 32 (e.link * 2 ^ 128 + e.global)) ∧ (Maps.getD d.dur.headKeys h {}).cand = none := by
  subst hindex
  exact runs_install_current
    (fun u => ((Maps.getD u.headKeys (e.index % 1048576) {}).cur, (Maps.getD u.headKeys (e.index % 1048576) {}).cand))
    (congrArg (fun k : KeyPair => (k.cur, k.cand)) hnew)
    (headInstall_installs s e i o hbusy hlocked hserves hkeys hcount hsynced hhead hflags hnew)
    (headInstall_refuses s e i o hbusy hlocked hserves hkeys hcount hsynced)
    (congrArg (fun k : KeyPair => (k.cur, k.cand)) (Maps.getD_put_same ..)) fun _ _ => rfl

theorem classAkInstall_refuses (hbad : ¬e.good i (kcvOf 16 e.link)) : Runs (.classAkInstall [e]) s fun d =>
    d.KeyMade s.dev.dur [] (e.check i (kcvOf 16 e.link)) := by
  refine runs_install (j := none) hbusy hlocked hserves hkeys hcount hsynced ?_ (fun _ => rfl) (e.check_lt i _) rfl
  have hr := s.dev.takeEntry_fst i o (s.dev.get F.KEY_KEK_STORE) e (kcvOf 16 e.link)
  exact (if_pos (hr.trans_ne (InstallEntry.check_of_bad hbad 0).1)).trans (congrArg (·, none) hr)

/-- A class without keys takes a good entry as its current set. -/
theorem classAkInstall_installs (hclass : (s.dev.trellis.classes.any (·.classId == e.index % 1048576)) = true) (hflags : e.flags = 0)
    (hnew : Maps.getD s.dev.dur.classAks (e.index % 1048576) {} = ({} : KeyPair)) (hgood : e.good i (kcvOf 16 e.link)) :
    Runs (.classAkInstall [e]) s fun d => d.KeyMade s.dev.dur [.classAk (e.index % 1048576)
      { cur := some (s.dev.takeEntry i o (s.dev.get F.KEY_KEK_STORE) e (kcvOf 16 e.link)).2 }] Kr.ok := by
  refine runs_install (j := some _) hbusy hlocked hserves hkeys hcount hsynced ?_ (fun _ => rfl) (by decide) rfl
  have hr := (s.dev.takeEntry_fst i o (s.dev.get F.KEY_KEK_STORE) e (kcvOf 16 e.link)).trans (InstallEntry.check_of_good hgood)
  have hkeys : Maps.getD s.dev.dur.classAks (e.index % 2 ^ 20) {} = {} := hnew
  refine (if_neg (not_not.2 hr)).trans ((if_neg (ne_false_of_eq_true hclass)).trans ?_)
  rw [hkeys, hflags]
  rfl

theorem classAkInstall_classAks (c : Nat) (hindex : c = e.index % 1048576) (hclass : (s.dev.trellis.classes.any (·.classId == c)) = true)
    (hflags : e.flags = 0) (hnew : Maps.getD s.dev.dur.classAks c {} = ({} : KeyPair)) : Runs (.classAkInstall [e]) s fun d =>
    (Maps.getD d.dur.classAks c {}).cur.isSome = decide (e.wrapped = Crypto.wrap 32 i.key 32 (e.link * 2 ^ 128 + e.global) ∧
      e.kcv = kcvOf 16 e.link) := by
  subst hindex
  refine (runs_install_current
    (fun u => ((Maps.getD u.classAks (e.index % 1048576) {}).cur, (Maps.getD u.classAks (e.index % 1048576) {}).cand))
    (congrArg (fun k : KeyPair => (k.cur, k.cand)) hnew)
    (classAkInstall_installs s e i o hbusy hlocked hserves hkeys hcount hsynced hclass hflags hnew)
    (classAkInstall_refuses s e i o hbusy hlocked hserves hkeys hcount hsynced)
    (congrArg (fun k : KeyPair => (k.cur, k.cand)) (Maps.getD_put_same ..)) fun _ _ => rfl).imp fun d h => h.1

end

/-! Cancels (R301, R305). -/

theorem headCancel_cancels (s : State) (h : Nat) (k : KeySet) (hbusy : s.dev.flag F.KEY_CMD_BUSY = false)
    (hlocked : s.dev.keyLocked = false) (hserves : s.dev.standbyRefuses = false)
    (hhead : (Maps.get? (h % 4096) s.dev.dur.heads).isSome = true) (hcand : (Maps.getD s.dev.dur.headKeys (h % 4096) {}).cand = some k)
    (hsynced : s.dev.standbySynced = false) : Runs (.headCancel h) s fun d => (Maps.getD d.dur.headKeys (h % 4096) {}).cand = none ∧
    (Maps.getD d.dur.headKeys (h % 4096) {}).cur = (Maps.getD s.dev.dur.headKeys (h % 4096) {}).cur ∧ d.get F.KEY_CMD_RESULT = 0 := by
  have hmade := Dev.pairDo_key hsynced (recs := [.headKey (h % 4096) { Maps.getD s.dev.dur.headKeys (h % 4096) {} with cand := none }])
    (fun _ => rfl) (result := 0) (by decide) []
  have hpair := (hmade.read (fun u => Maps.getD u.headKeys (h % 4096) {}) fun _ _ => rfl).trans (Maps.getD_put_same ..)
  apply Runs.of_eq
  · refine runs_keyCmd rfl hbusy hlocked hserves ?_
    exact (if_neg (ne_true_of_eq_false (Option.isNone_eq_false_iff.2 hhead))).trans
      (if_neg (ne_true_of_eq_false (congrArg Option.isNone hcand)))
  · exact ⟨congrArg KeyPair.cand hpair, (congrArg KeyPair.cur hpair).trans rfl, hmade.answered.result⟩

/-- The KEY block is block 11. -/
theorem regBit_key {off : Nat} (h : off / 65536 = 11) : off < 4194304 ∧ regBit off = 43 := by
  have hne : off ≠ 0x100004 := fun e => absurd (e ▸ h) (by decide)
  exact ⟨by omega, (if_neg hne).trans (congrArg (32 + ·) h)⟩

/-- `d'` has the meters' keys of `d`, and the registers of the KEY block. -/
structure Dev.KeysKept (d d' : Dev) : Prop where
  keys : d'.dur.keys = d.dur.keys
  reg : ∀ off, off / 65536 = 11 → d'.reg off = d.reg off

theorem Dev.KeysKept.refl (d : Dev) : d.KeysKept d := ⟨rfl, fun _ _ => rfl⟩

section
variable {d d' : Dev} (h : d.KeysKept d')
include h

theorem Dev.KeysKept.trans {d'' : Dev} (h' : d'.KeysKept d'') : d.KeysKept d'' :=
  ⟨h'.keys.trans h.keys, fun off ho => (h'.reg off ho).trans (h.reg off ho)⟩

theorem Dev.KeysKept.get (x : Fld) (hx : x.off / 65536 = 11) : d'.get x = d.get x := Dev.get_of_reg (h.reg x.off hx)

/-- An operation whose law covers neither. -/
theorem Dev.KeysKept.edits {m : Nat} {d'' : Dev} (e : Edits m d' d'') (hm : m.testBit 14 = false ∧ m.testBit 43 = false) :
    d.KeysKept d'' := by
  obtain ⟨hdur, hregs⟩ := hm
  refine h.trans ⟨by rw [e.dur.resolve_left (by simp [hdur])], fun off ho => e.reg off (regBit_key ho).1 ?_⟩
  rw [(regBit_key ho).2, hregs]

theorem Dev.KeysKept.set (x : Fld) (v : Nat) (hx : x.off / 65536 ≠ 11) : d.KeysKept (d'.set x v) :=
  h.trans ⟨rfl, fun _ ho => Dev.reg_set_other (fun e => hx (e ▸ ho)) d' v⟩

theorem Dev.KeysKept.raise (x : Fld) (a b : Nat) (hx : x.off / 65536 ≠ 11) : d.KeysKept (d'.raise x a b) := by
  obtain ⟨n, e⟩ := d'.raise_dur x a b
  refine h.trans ⟨by rw [e], fun off ho => Dev.raise_reg (fun e => hx (e ▸ ho)) d' a b (regBit_key ho).1 ?_⟩
  rw [(regBit_key ho).2]
  decide

theorem Dev.KeysKept.pinNow (i : Nat) : d.KeysKept (d'.pinNow i) := by
  unfold Dev.pinNow
  extract_lets pin e u d₁
  have h₁ : d.KeysKept d₁ := h.trans ⟨rfl, fun _ _ => rfl⟩
  have h₂ : d.KeysKept d₁.showCtx := h₁.edits (Dev.showCtx_edits (m := 0x800000000) (h := .refl _)) (by decide)
  exact (((h₂.set F.CTX_STATUS_ALLOCATED _ (by decide)).set F.CTX_CMD_RESULT _ (by decide)).set F.CTX_CMD_BUSY _ (by decide)).raise
    F.CTX_INT_STATUS_CMD_DONE _ _ (by decide)

theorem Dev.KeysKept.tryPin (i : Nat) : d.KeysKept (d'.tryPin i) := by
  unfold Dev.tryPin
  split
  · exact h.pinNow i
  · split
    · next e => exact (h.edits (Dev.bringCtx_edits (m := 0x800000800) e (h := .refl d')) (by decide)).pinNow i
    · exact (h.trans (d'' := { d' with eng := { d'.eng with pinning := some i } }) ⟨rfl, fun _ _ => rfl⟩).set
        F.CTX_CMD_BUSY 1 (by decide)

theorem Dev.KeysKept.endWork (meter : Nat) : d.KeysKept (d'.endWork meter) := by
  unfold Dev.endWork
  extract_lets e d₁
  have h₀ : d.KeysKept ({ d' with eng := { d'.eng with flight := Maps.del meter d'.eng.flight } }.releaseKeys meter) :=
    h.trans ⟨rfl, fun _ _ => rfl⟩
  have h₁ : d.KeysKept d₁ := h₀.edits (Dev.showIng_edits (m := 0x1000000000) (h := .refl _)) (by decide)
  split
  · exact h₁.tryPin _
  · exact h₁

end

/-- A candidate that is there is cancelled, and the current set stays. -/
theorem Dev.cancelKey_cancels {d : Dev} {m : Nat} {k : KeySet} (hcand : (d.meterKeys m).cand = some k) (hsynced : d.standbySynced = false) :
    (d.cancelKey m).KeyMade d.dur [.keys m { d.meterKeys m with cand := none, deliver := false, tries := 0 }] 0 := by
  rw [Dev.cancelKey, if_neg (by simp [hcand])]
  exact Dev.pairDo_key hsynced (fun _ => rfl) (by decide) []

/-- METER_CANCEL of an idle meter is done at once. -/
theorem Dev.startDown_cancel {d : Dev} {m : Nat} (hidle : d.idleMeter m = true) :
    d.startDown m .cancel = ((d.beginDown m .cancel).showIng.cancelKey m).endWork m := by
  rw [Dev.startDown, if_pos hidle, Dev.advance]
  have hbegun : Maps.get? m (d.beginDown m .cancel).showIng.eng.flight = some _ := Maps.get?_put_same ..
  rw [hbegun]
  rfl

section
variable (s : State) (m : Nat) (k : KeySet) (hbusy : s.dev.flag F.KEY_CMD_BUSY = false) (hlocked : s.dev.keyLocked = false)
  (hserves : s.dev.standbyRefuses = false) (hctx : (Maps.get? m s.dev.dur.ctxs).isSome = true)
include hbusy hlocked hserves hctx

theorem meterCancel_cancels (hidle : s.dev.idleMeter m = true) (hcand : (s.dev.meterKeys m).cand = some k)
    (hsynced : s.dev.standbySynced = false) : Runs (.meterCancel m) s fun d => (d.meterKeys m).cand = none ∧
    (d.meterKeys m).cur = (s.dev.meterKeys m).cur ∧ d.get F.KEY_CMD_RESULT = 0 ∧ d.get F.KEY_CMD_BUSY = 0 := by
  have hbegun : Edits 0x1000000800 s.dev (s.dev.beginDown m .cancel).showIng :=
    Dev.showIng_edits (h := Dev.beginDown_edits (h := .refl s.dev))
  have hmade := Dev.cancelKey_cancels (d := (s.dev.beginDown m .cancel).showIng) (m := m) hcand
    ((Dev.standbySynced_of_edits hbegun).trans hsynced)
  have hends := (Dev.KeysKept.refl ((s.dev.beginDown m .cancel).showIng.cancelKey m)).endWork m
  have hkeys := (congrArg (fun l => Maps.getD l m {}) hends.keys).trans
    ((hmade.read (fun u => Maps.getD u.keys m {}) fun _ _ => rfl).trans (Maps.getD_put_same ..))
  refine Runs.of_eq (runs_keyCmd rfl hbusy hlocked hserves ?_)
    ⟨congrArg MeterKeys.cand hkeys, (congrArg MeterKeys.cur hkeys).trans rfl, (hends.get F.KEY_CMD_RESULT rfl).trans hmade.answered.result,
      (hends.get F.KEY_CMD_BUSY rfl).trans hmade.answered.busy⟩
  exact (if_neg (ne_true_of_eq_false (Option.isNone_eq_false_iff.2 hctx))).trans ((if_pos hidle).trans (Dev.startDown_cancel hidle))

theorem meterCancel_waits (hbusyMeter : s.dev.idleMeter m = false) : Runs (.meterCancel m) s fun d => d.eng.downs =
    s.dev.eng.downs ++ [(m, .cancel, (s.dev.eng.staging.filter fun f => f.meter == m).length)] ∧ d.get F.KEY_CMD_BUSY = 1 := by
  apply Runs.of_eq
  · refine runs_keyCmd rfl hbusy hlocked hserves ?_
    exact (if_neg (ne_true_of_eq_false (Option.isNone_eq_false_iff.2 hctx))).trans ((if_neg (ne_true_of_eq_false hbusyMeter)).trans
      (congrArg (Dev.set · F.KEY_CMD_BUSY 1) (if_neg (ne_true_of_eq_false hbusyMeter))))
  · exact ⟨rfl, Dev.get_set_same _ F.KEY_CMD_BUSY 1⟩

end

/-- Settles O34: the lemmas above, one for each clause. -/
theorem keyInstalls : Obligations.KeyInstalls := by
  refine ⟨?_, ?_, ?_, ?_, ?_, ?_, ?_, ?_⟩
  · exact fun s e i o => meterInstall_meterKeys s e i o
  · exact fun s e i o => meterInstall_notAllocated s e i o
  · exact fun s e => meterInstall_wrongKind s e
  · exact fun s m k hbusy hlocked hserves hctx hidle hcand => meterCancel_cancels s m k hbusy hlocked hserves hctx hidle hcand
  · exact fun s m => meterCancel_waits s m
  · intro s e i o h hbusy hlocked hserves hkeys hcount hsynced
    exact headInstall_headKeys s e i o hbusy hlocked hserves hkeys hcount hsynced h
  · exact headCancel_cancels
  · intro s e i o c hbusy hlocked hserves hkeys hcount hsynced
    exact classAkInstall_classAks s e i o hbusy hlocked hserves hkeys hcount hsynced c

end Sys2Proof.Machine
